-- ==== Sys2Proof/Word.lean ====
section
/-! DEFINITION. The word types of the Krymin module: bytes, 32-bit registers (R8), 64-bit counts (R15) and the
512-bit hitch word (R112). -/

namespace Sys2Proof

/-- One byte of an addressed buffer. -/
abbrev Byte := BitVec 8
/-- One register, or one 32-bit lane of a vector register (R8, R85). -/
abbrev Word := BitVec 32
/-- A 64-bit quantity of a data structure. -/
abbrev DWord := BitVec 64
/-- The 64 bytes of a hitch, little-endian: byte b is bits [8b+7:8b] (R112). -/
abbrev HitchWord := BitVec 512
/-- A 256-bit key. -/
abbrev Key := BitVec 256

end Sys2Proof
end

