-- ==== Sys2Proof/Syntax.lean ====
section
/-! DEFINITION. The commands of the Krymin module: one constructor of `Instr` for each row of spec/opcode_table.json,
with its operands. A row of a Hawser command carries the header of the accepted frame and its parameters; a row of a
hitch names the strand (or hank and position) whose queue holds the 64-byte hitch, which State holds, so its operand
area is read there; a row of an event carries what the outside world supplies (an instant of module time, a received
block, a sensor reading, a physical upset). Instants are nanoseconds of module time (R15, R429). -/

namespace Sys2Proof

/-- The accepted Hawser header of a command (R408): the session identifier the model gives it (commander c, 1 to 4,
is session c; the host session of partition p is 16 + p, log entry 1), SEQ, EPOCH, and the module time at which the
command is taken. -/
structure CmdHdr where
  session : Nat
  seq : Nat
  epoch : Nat
  t : Nat
  deriving DecidableEq, Repr

/-- A Hawser frame as it reaches a host port (R408). `tagKey` is the key under which the frame's tag verifies: the tag
passes under a session key exactly when the two are equal (log entry 7). -/
structure HFrame where
  fcsOk : Bool
  dst : Nat
  vid : Nat
  pcp : Fin 8
  rtag : Option Nat
  sdu : Nat
  version : Nat
  reply : Bool
  event : Bool
  relay : Bool
  reserved : Bool
  opcode : Nat
  seq : Nat
  epoch : Nat
  commander : Nat
  session : Nat
  length : Nat
  status : Nat
  modNum : Nat
  notAfter : Nat
  params : List Byte
  tagKey : Key
  deriving DecidableEq, Repr

/-- The parameters of ROLE_ASSIGN (R509). -/
structure RoleAssign where
  role : Nat
  holderModule : Nat
  holderPart : Nat
  epoch : Nat
  formerModule : Nat
  formerPart : Nat
  startStep : Nat
  deriving DecidableEq, Repr

/-- The parameters of BUDGET_SET (R419, R269). -/
structure BudgetSet where
  account : Nat
  part : Nat
  en : Bool
  setPart : Bool
  rate : Nat
  cap : Nat
  deriving DecidableEq, Repr

/-- The parameters of KV_SHIP (R419, R254). -/
structure ShipReq where
  index : Nat
  copy : Bool
  modNum : Nat
  part : Nat
  firstChain : Nat
  epoch : Nat
  deriving DecidableEq, Repr

/-- The errors that one read of a memory line meets (R152, R157): the symbols of its codeword, 0 to 75 for c_0 to c_75, that
the first and the second read find changed, each with the XOR of its change. A change of the stored ciphertext, a line moved
there and one written under another key (R155) show as such changes in both reads. Of a tag line the symbols are 0 to 71
(R151). -/
structure ReadErr where
  first : List (Nat × Byte)
  second : List (Nat × Byte)
  deriving DecidableEq, Repr

/-- The physical errors that meet a hitch while its strand executes it (log entry 10): lines of its strand's scratch
corrected and the first uncorrectable one (R91), whether another SECDED word it reads is uncorrectable (its queue entry, a
knot it waits on, shared scratch, the bight pool or a tag cache: R71, R93, R434), accumulator words corrected, an
uncorrectable accumulator word or a difference of the two copies of a lost flag (R84), a change of one stored element by a
number of units of its column, a change of one anchor (R80), a change of the corner residue, a vector residue or parity
mismatch (R86), and memory read errors of the module-memory lines it reads (R157). Changes of the array strike its first
product that is checked at or after `check` others (R197). -/
structure Upset where
  scratchCorr : List Nat
  scratchBad : Option Nat
  eccBad : Bool
  accCorr : Nat
  accBad : Bool
  flip : Option (Nat × Nat × Int)
  anchor : Option (Nat × Int)
  corner : Nat
  check : Nat
  residue : Bool
  mem : List (Nat × ReadErr)
  deriving DecidableEq, Repr

/-- No physical error. -/
def Upset.none : Upset :=
  { scratchCorr := [], scratchBad := Option.none, eccBad := false, accCorr := 0, accBad := false, flip := Option.none,
    anchor := Option.none, corner := 0, check := 0, residue := false, mem := [] }

/-- A run of the hitch at the head of a strand's queue, with the errors that its reads meet. -/
structure HitchRun where
  strand : Fin 128
  upset : Upset
  deriving DecidableEq, Repr

/-- A turn of a shared strand (R136): the strand's place on its hank, and the errors that the save and the restore meet. -/
structure StrandTurn where
  place : Fin 8
  save : Upset
  restore : Upset
  deriving DecidableEq, Repr

/-- A partition's commit (R440): the partition, and the bight entries, by die and first slot, that its flush finds unreadable. -/
structure CommitRun where
  part : Fin 16
  bad : List (Nat × Nat)
  deriving DecidableEq, Repr

/-- A received IDLE block (R363): its port, the corrected symbols of each codeword decoded until it, and the instant. -/
structure IdleBlock where
  port : Fin 18
  corrected : List Nat
  t : Nat
  deriving DecidableEq, Repr

/-- Flits of credit that return, and the instant (R367). -/
structure FlitReturn where
  flits : Nat
  t : Nat
  deriving DecidableEq, Repr

/-- What a control-core read fetches (R576): the descriptor, the seed table, or the next hitch of a position; or what its own
memory no longer yields, the prefetched head of a position, which two flipped bits have spoiled (R97, R434). -/
inductive Fetch where
  | descriptor (e : ReadErr)
  | seedTable (e : ReadErr)
  | hitch (pos : Fin 8) (e : ReadErr)
  | spoiled (pos : Fin 8)
  deriving DecidableEq, Repr

/-- A Fairlead arbitration point (R177): its instance and its number within the instance. -/
structure FPoint where
  inst : Fin 5
  point : Nat
  deriving DecidableEq, Repr

/-- An Ecron packet (R370), payload as bytes; `tagKey` is the key under which its tag verifies (log entry 7) and
`reserved` says that some reserved bit of it is set. -/
structure Packet where
  version : Nat
  ptype : Nat
  vc : Nat
  path : Nat
  braided : Bool
  resend : Bool
  lane : Nat
  dstPart : Nat
  dstDie : Nat
  dstModule : Nat
  srcModule : Nat
  srcPart : Nat
  srcDie : Nat
  srcEpoch : Nat
  dstEpoch : Nat
  seq : Nat
  step : Nat
  keyId : Nat
  dstRole : Nat
  reserved : Bool
  telltale : Nat
  payload : List Byte
  tagKey : Key
  deriving DecidableEq, Repr

/-- What a transfer is for, from which its owner follows (R178, R162, R165, R168, R380): work of a partition (its hitches,
fetches, commands and engines), prefetch of its hitches, a tag line that its access needs, the patrol or retirement copy of
the line at an MPA, the whipping of its granules, a packet at an output port, or traffic of the module itself. -/
inductive Traffic where
  | work (p : Fin 16)
  | prefetch (p : Fin 16)
  | tagLine (p : Fin 16)
  | patrol (mpa : Nat)
  | retire (mpa : Nat)
  | whip (p : Fin 16)
  | packet (pk : Packet)
  | module
  deriving DecidableEq, Repr

/-- A transfer request at a point (R177, R182): requester number, what it is for, its length in bytes, at most 4,096, and
the requester's domain and resettable function (KIND and INDEX of R426), which mask it (R190). -/
structure FReq where
  requester : Nat
  traffic : Traffic
  bytes : Nat
  dom : Option (Fin 64)
  func : Option (Nat × Nat)
  deriving DecidableEq, Repr

/-- The content of a HELLO block (R363). `allocs` lists the 12 lane allocations, VC-major. -/
structure HelloBlock where
  modNum : Nat
  port : Nat
  version : Nat
  deviceId : Nat
  compat : Bool
  allocs : List Nat
  nonce : Nat
  restarted : Bool
  deriving DecidableEq, Repr

/-- The structure of a picture that a division uses (R321): its tiles, whether it allows wavefronts, and its independent slice
segments. -/
structure PicShape where
  tiles : Nat
  wavefronts : Bool
  slices : Nat
  deriving DecidableEq, Repr

/-- A slice with its dependent segments, or a tile of AV1 (R326): its 64 × 64 blocks in coding order, and how many of them parse
before the first that fails. -/
structure PicSlice where
  blocks : List Nat
  good : Nat
  deriving DecidableEq, Repr

/-- What a video core reports of a picture it has finished (R319 to R330, log entry 13): the reason of a drop, the coded
size (width 0 where the units hold no picture), the crop, what its record shows, its slices or tiles, the number of refused
accesses and the blocks in which they fell (R323), the blocks left when its allowance ran out (R324), the units it consumed, the
pool buffers its context keeps as references and those it outputs in order, the samples it decodes to before concealment (luma,
then chroma unless monochrome) with the motion side area, and its film grain parameters; for encoding, the blocks coded before
the allowance ran out. -/
structure PicReport where
  reason : Nat
  width : Nat
  height : Nat
  cropX : Nat
  cropY : Nat
  cropW : Nat
  cropH : Nat
  tenBit : Bool
  mono : Bool
  rap : Bool
  refMissing : Bool
  slices : List PicSlice
  window : Nat
  refused : List Nat
  left : List Nat
  units : Nat
  refs : List Nat
  outputs : List Nat
  samples : List Nat
  motion : List Byte
  grain : List Byte
  coded : Nat
  deriving DecidableEq, Repr

/-- What a pattern-pack test's run returns (R451): the telltale of its output, its status and its length in µs. -/
structure PackResult where
  telltale : Nat
  status : Nat
  us : Nat
  deriving DecidableEq, Repr

/-- The last 1 ms of a hank (R453): µs its matrix arrays and its vector units were busy, and its power estimate in W (log
entry 23). -/
structure LoadCounts where
  matrix : Nat
  vector : Nat
  power : Nat
  deriving DecidableEq, Repr

/-- The ageing monitors of one hank (R558, R559): degradation and ring oscillator slowdown in 0.01 %. -/
structure Margin where
  hank : Fin 16
  d : Nat
  ring : Nat
  deriving DecidableEq, Repr

/-- The commands of the module, one constructor for each row of spec/opcode_table.json, in its order. -/
inductive Instr where
  /-- HAWSER_FRAME (R412). A Hawser frame arrives on a host port and is filtered, eliminated, authenticated, checked against its session window and queued or refused. -/
  | hawserFrame (port : Fin 2) (f : HFrame) (t : Nat)
  /-- EVENT_RESEND (R416). Every 100 ms each unacknowledged event of a session is sent again. -/
  | eventResend (sid : Nat) (t : Nat)
  /-- ECHO (R419). Returns its parameter bytes unchanged. -/
  | echo (h : CmdHdr) (data : List Byte)
  /-- SESSION_OPEN (R480). Takes one request fragment; at the last fragment checks form, authority and signature, decapsulates, and installs a session key or a job key. -/
  | sessionOpen (h : CmdHdr) (kind : Nat) (last : Bool) (offset : Nat) (data : List Byte)
  /-- SESSION_CLOSE (R482). Destroys the session key after replying, or removes a named job key. -/
  | sessionClose (h : CmdHdr) (kind : Nat) (jobKey : Nat)
  /-- EVENT_ACK (R416). Acknowledges the session's events up to a number, which stops their resending. -/
  | eventAck (h : CmdHdr) (n : Nat)
  /-- REG_READ (R421). Checks a range of register words against access rules and reads it. -/
  | regRead (h : CmdHdr) (addr : Nat) (count : Nat)
  /-- REG_WRITE (R421). Checks a range of register words and writes them in ascending address order. -/
  | regWrite (h : CmdHdr) (addr : Nat) (words : List Word)
  /-- REG_MODIFY (R422). Applies a masked read-modify-write to one register in one cycle and returns the old value. -/
  | regModify (h : CmdHdr) (addr : Nat) (mask : Word) (value : Word)
  /-- MEM_READ (R423). Reads bytes of partition memory by PMA in the partition's Fairlead slots. -/
  | memRead (h : CmdHdr) (pma : Nat) (bytes : Nat) (part : Nat)
  /-- MEM_WRITE (R423). Writes bytes of partition memory by PMA and replies once they are written. -/
  | memWrite (h : CmdHdr) (pma : Nat) (data : List Byte) (part : Nat)
  /-- PART_CREATE (R475). Checks and accepts a partition creation, assigning granules, ranges and a generation. -/
  | partCreate (h : CmdHdr) (params : List Byte)
  /-- PART_ACTIVE (R475). Once keys are derived, tables and bight regions set and every granule line zeroed, the partition becomes ACTIVE and COMMAND_DONE is sent. -/
  | partActive (p : Fin 16) (t : Nat)
  /-- PART_DESTROY (R490). Accepts destruction of a partition and begins its whipping. -/
  | partDestroy (h : CmdHdr) (p : Nat)
  /-- WHIP_OVERWRITE_END (R491). When the one-time-key overwrite of the partition's granules ends, its state is zeroed, its resources released and it becomes NONE. -/
  | whipOverwriteEnd (p : Fin 16) (t : Nat)
  /-- RESET_FUNCTION (R426). Resets one partition, video core, crop-and-resize engine or dispatch-and-collective engine. -/
  | resetFunction (h : CmdHdr) (kind : Nat) (index : Nat)
  /-- RESET_HITCH_TIMEOUT (R427). Ten milliseconds into a partition reset, engine hitches still running complete with FUNCTION_RESET. -/
  | resetHitchTimeout (p : Fin 16) (t : Nat)
  /-- STEP_RUN (R109). Sets a partition's step trigger mode and GO and returns the step counter. -/
  | stepRun (h : CmdHdr) (part : Nat) (mode : BitVec 2) (go : Bool)
  /-- ATTEST (R486). Builds and signs an attestation report for a new challenge, or returns part of a report or the certificate chain. -/
  | attest (h : CmdHdr) (challenge : List Byte) (cert : Bool) (offset : Nat)
  /-- HEARTBEAT (R500). Renews the lanyard lease when it comes from the holder, and reports lease state to any commander. -/
  | heartbeat (h : CmdHdr) (sendTime : Nat)
  /-- LEASE_ACQUIRE (R500). Grants the lanyard to a new holder with a new epoch, or renews the holder's lease. -/
  | leaseAcquire (h : CmdHdr) (leaseMs : Nat)
  /-- LEASE_RELEASE (R500). The holder ends its lease, which becomes LAPSED. -/
  | leaseRelease (h : CmdHdr)
  /-- ROLE_ASSIGN (R509). Updates the role directory, peer epochs and the partition's own epoch, fencing the former holder. -/
  | roleAssign (h : CmdHdr) (a : RoleAssign)
  /-- SEIZE_RELEASE (R507). Releases a seized module back to READY with partitions in HOLD. -/
  | seizeRelease (h : CmdHdr)
  /-- COIL_BEGIN (R516). Checks a coil header and begins a new load into the slot that is not CONFIRMED. -/
  | coilBegin (h : CmdHdr) (offset : Nat) (data : List Byte)
  /-- COIL_BLOCK (R515). Takes one fragment of a coil block or of its signature, checking each completed block and the signature. -/
  | coilBlock (h : CmdHdr) (offset : Nat) (block : Nat) (data : List Byte)
  /-- COIL_SCHEDULE (R517). Schedules, replaces or cancels a data-path activation at a module time. -/
  | coilSchedule (h : CmdHdr) (time : Nat) (fallback : Bool)
  /-- ACTIVATE (R520). Starts the management component of a slot, pausing command service while frames are held. -/
  | activate (h : CmdHdr) (fallback : Bool)
  /-- CONFIRM (R523). Makes the trial slot CONFIRMED and raises the minimum security version in one flash write. -/
  | confirm (h : CmdHdr)
  /-- COIL_STATUS (R526). Returns the UPD register words. -/
  | coilStatus (h : CmdHdr)
  /-- SERVE_SUBMIT (R264). Admits a request as a QUEUED sequence with open chains, or refuses it. -/
  | serveSubmit (h : CmdHdr) (desc : List Byte)
  /-- SERVE_CANCEL (R279). Marks a sequence for retirement at the next commit, or closes the open chains of a PREFILLED sequence. -/
  | serveCancel (h : CmdHdr) (index : Nat)
  /-- SERVE_PAUSE (R279). Removes a sequence from scheduling and sets its pages' time to live. -/
  | servePause (h : CmdHdr) (index : Nat)
  /-- SERVE_RESUME (R253). Returns a paused or preempted sequence to its former state after promoting its pages. -/
  | serveResume (h : CmdHdr) (index : Nat)
  /-- REEL_READ (R281). Returns reel records from a record number together with WR and RD. -/
  | reelRead (h : CmdHdr) (index : Nat) (first : Nat) (maximum : Nat)
  /-- REEL_ACK (R281). Sets a reel's RD to an absolute record number, freeing the ID when the sequence is retired and closed. -/
  | reelAck (h : CmdHdr) (index : Nat) (record : Nat)
  /-- BUDGET_SET (R269). Sets an account's rate, cap, enable and, for the commander, its partition. -/
  | budgetSet (h : CmdHdr) (b : BudgetSet)
  /-- BUDGET_ADJUST (R269). Adds credits to or removes credits from an account's balance. -/
  | budgetAdjust (h : CmdHdr) (account : Nat) (remove : Bool) (n : Nat)
  /-- BUDGET_READ (R266). Returns a budget account record. -/
  | budgetRead (h : CmdHdr) (account : Nat)
  /-- PREFIX_MAKE (R282). Creates a prefix handle over the first full pages of a sequence's chains. -/
  | prefixMake (h : CmdHdr) (index : Nat) (pages : Nat)
  /-- PREFIX_DROP (R282). Drops a prefix handle and its page references. -/
  | prefixDrop (h : CmdHdr) (handle : Word)
  /-- KV_SHIP (R254). Ships or copies a sequence's chains to a receiving partition over Ecron as bulk KV traffic. -/
  | kvShip (h : CmdHdr) (q : ShipReq)
  /-- VID_OPEN (R313). Opens a decode or encode stream context from a descriptor. -/
  | vidOpen (h : CmdHdr) (desc : List Byte)
  /-- VID_CLOSE (R313). Ends a context after its current picture and drops its REF marks. -/
  | vidClose (h : CmdHdr) (ctx : Nat)
  /-- VID_FEED (R314). Appends a unit to a context's input ring, discarding duplicates and refusing gaps or a full ring. -/
  | vidFeed (h : CmdHdr) (ctx : Nat) (indirect : Bool) (pma : Nat) (unit : List Byte) (data : List Byte)
  /-- VID_ACQUIRE (R317). Returns a FREE pool buffer with one hold. -/
  | vidAcquire (h : CmdHdr)
  /-- VID_RELEASE (R333). Drops one hold of a frame handle. -/
  | vidRelease (h : CmdHdr) (handle : Word)
  /-- VID_ENCODE (R328). Submits a frame for encoding and moves the caller's hold to the encoder. -/
  | vidEncode (h : CmdHdr) (ctx : Nat) (forceIdr : Bool) (handle : Word) (pts : Nat)
  /-- VID_READ (R319). Returns frame records of a context's record ring. -/
  | vidRead (h : CmdHdr) (ctx : Nat) (first : Nat) (maximum : Nat)
  /-- VID_ACK (R319). Sets a record ring's RD, freeing BITS bytes of acknowledged UNIT records. -/
  | vidAck (h : CmdHdr) (ctx : Nat) (record : Nat)
  /-- FSR_READ (R458). Returns one or two fault signature records visible to the session. -/
  | fsrRead (h : CmdHdr) (first : Nat) (maximum : Nat)
  /-- FSR_ACK (R458). Acknowledges the session's fault signature records up to a number. -/
  | fsrAck (h : CmdHdr) (n : Nat)
  /-- PACK_LOAD (R449). Loads a fragment of a pattern pack into a slot, clears a slot, or verifies the pack at its last fragment. -/
  | packLoad (h : CmdHdr) (slot : Nat) (last : Bool) (clear : Bool) (offset : Nat) (data : List Byte)
  /-- SPL_COMMIT (R424). Forms, checks and installs or refuses a candidate for a multi-register splice group from the session's shadow. -/
  | splCommit (h : CmdHdr) (value : Word)
  /-- REGISTER_WRITE (R29). A write to a register with no behaviour of its own lands in the shadow of its group, or commits a single-register group. -/
  | registerWrite (h : CmdHdr) (addr : Nat) (value : Word)
  /-- RC_READ (R70). A read of a read-clear counter returns its value and clears it. -/
  | rcRead (h : CmdHdr) (addr : Nat) (coincident : Nat)
  /-- LATCH_READ (R24). A read of a low word latches the high word for the reading session. -/
  | latchRead (h : CmdHdr) (addr : Nat)
  /-- W1C_CLEAR (R70). A write of 1 clears sticky flag bits unless a flag event arrives in the same cycle. -/
  | w1cClear (h : CmdHdr) (addr : Nat) (value : Word) (coincident : Word)
  /-- AUDIT_SNAPSHOT (R27). A write of HOLD freezes a copy of a block's counters in one cycle, between commits. -/
  | auditSnapshot (h : CmdHdr) (addr : Nat) (value : Word)
  /-- MEM_ERR_POP (R173). Removes the oldest entry of a memory error log. -/
  | memErrPop (h : CmdHdr) (inst : Fin 5) (value : Word)
  /-- GO (R109). In SINGLE mode requests one step of the partition. -/
  | go (h : CmdHdr) (hank : Fin 16)
  /-- CLR_ABANDON (R142). Takes an abandoned partition out of ABANDONED so its next step may start. -/
  | clrAbandon (h : CmdHdr) (hank : Fin 16)
  /-- MODE (R109). Sets the partition's step trigger mode, taking effect once any step under way ends. -/
  | mode (h : CmdHdr) (hank : Fin 16) (m : BitVec 2)
  /-- TARGET_ON (R536). Requests a power domain to wake, optionally keeping its cleats held. -/
  | targetOn (h : CmdHdr) (dom : Fin 64) (holdCleats : Bool)
  /-- TARGET_RETENTION (R533). Requests a domain's entry to retention, checked against the refusers before quiesce. -/
  | targetRetention (h : CmdHdr) (dom : Fin 64)
  /-- TARGET_OFF (R533). Requests a domain's entry to off, checked against the refusers before quiesce. -/
  | targetOff (h : CmdHdr) (dom : Fin 64)
  /-- CLEAT_REL (R539). Releases the cleats that a HOLD_CLEATS wake left held. -/
  | cleatRel (h : CmdHdr) (dom : Fin 64)
  /-- PWR_AON_CTRL (R540). Enables low-power mode of the always-on regulator. -/
  | pwrAonCtrl (h : CmdHdr) (value : Word)
  /-- KVP_PART_BIGHT_REGION (R258). Checks and commits a partition's bight region on a die. -/
  | kvpPartBightRegion (h : CmdHdr) (die : Fin 4) (p : Fin 16) (value : Word)
  /-- VID_CORE_OWNER (R334). Checks and changes the owner of a video core. -/
  | vidCoreOwner (h : CmdHdr) (core : Fin 8) (value : Word)
  /-- ECN_BRAID_CTRL (R31). Sets braiding of bulk KV traffic and refuses any clearing of mandatory classes. -/
  | ecnBraidCtrl (h : CmdHdr) (value : Word)
  /-- SEC_CTRL (R484). Sets compatibility mode, which takes effect at each port's next HELLO. -/
  | secCtrl (h : CmdHdr) (value : Word)
  /-- DIR_READY (R510). Marks the role directory complete, ending start-up phase 8 so the module becomes READY or BRINGUP. -/
  | dirReady (h : CmdHdr)
  /-- CHK_PART_CTRL (R446). Checks and sets paired-strand mode and the replay limit of a partition. -/
  | chkPartCtrl (h : CmdHdr) (p : Fin 16) (value : Word)
  /-- CHK_STRAND_QSET (R459). Quarantines strand cells as if their threshold had been reached and writes a QUARANTINE record. -/
  | chkStrandQset (h : CmdHdr) (s : Fin 128) (value : Word)
  /-- CHK_STRAND_QMASK (R455). The commander releases quarantined cells of a strand and clears their scores. -/
  | chkStrandQmask (h : CmdHdr) (s : Fin 128) (value : Word)
  /-- GBL_DET_PART_JRNL_RD (R471). Host software frees journal slots by advancing the read count. -/
  | gblDetPartJrnlRd (h : CmdHdr) (p : Fin 16) (value : Word)
  /-- GBL_DET_PART_REPLAY (R469). Enables journal replay and raises the count of slots fed. -/
  | gblDetPartReplay (h : CmdHdr) (p : Fin 16) (value : Word)
  /-- NOW (R559). Runs a guardband re-plan at once. -/
  | now (h : CmdHdr) (ms : List Margin)
  /-- THM_KEEP_WARM (R556). Sets the keep-warm power floor, which fill then maintains. -/
  | thmKeepWarm (h : CmdHdr) (value : Word)
  /-- GBL_START_CTRL (R575). Selects bring-up state for the end of start-up, refused after DIR_READY. -/
  | gblStartCtrl (h : CmdHdr) (value : Word)
  /-- NOP (R130). Issues when its wait is served and completes in the same cycle. -/
  | nop (s : Fin 128)
  /-- MATMUL (R118). Runs a matrix reduction with optional clear and readout into strand scratch. -/
  | matmul (s : Fin 128) (u : Upset)
  /-- ACC_SAVE (R121). Writes the accumulator save form to strand scratch after checking it. -/
  | accSave (s : Fin 128) (u : Upset)
  /-- ACC_RESTORE (R83). Checks and restores the accumulator array from a save form. -/
  | accRestore (s : Fin 128) (u : Upset)
  /-- VLOAD (R85). Loads 256 elements from strand scratch into a vector register, widening exactly. -/
  | vload (s : Fin 128) (u : Upset)
  /-- VSTORE (R85). Stores a vector register's 256 lanes to strand scratch in a memory format. -/
  | vstore (s : Fin 128) (u : Upset)
  /-- CONVERT (R122). Converts a run of elements between formats in strand scratch. -/
  | convert (s : Fin 128) (u : Upset)
  /-- MOVE (R123). Copies bytes between strand scratch, the hank region and partition memory. -/
  | move (s : Fin 128) (u : Upset)
  /-- ADD (R122). Vector FP32 addition on all lanes. -/
  | vAdd (s : Fin 128) (u : Upset)
  /-- SUB (R122). Vector FP32 subtraction on all lanes. -/
  | vSub (s : Fin 128) (u : Upset)
  /-- MUL (R122). Vector FP32 multiplication on all lanes. -/
  | vMul (s : Fin 128) (u : Upset)
  /-- FMA (R122). Vector FP32 fused multiply-add on all lanes. -/
  | vFma (s : Fin 128) (u : Upset)
  /-- DIV (R122). Vector FP32 division on all lanes. -/
  | vDiv (s : Fin 128) (u : Upset)
  /-- SQRT (R122). Vector FP32 square root on all lanes. -/
  | vSqrt (s : Fin 128) (u : Upset)
  /-- RCP (R122). Vector reciprocal on all lanes. -/
  | vRcp (s : Fin 128) (u : Upset)
  /-- RSQRT (R122). Vector reciprocal square root on all lanes. -/
  | vRsqrt (s : Fin 128) (u : Upset)
  /-- EXP2 (R122). Vector base-2 exponential on all lanes. -/
  | vExp2 (s : Fin 128) (u : Upset)
  /-- LOG2 (R122). Vector base-2 logarithm on all lanes. -/
  | vLog2 (s : Fin 128) (u : Upset)
  /-- EXP (R122). Vector natural exponential on all lanes. -/
  | vExp (s : Fin 128) (u : Upset)
  /-- LOG (R122). Vector natural logarithm on all lanes. -/
  | vLog (s : Fin 128) (u : Upset)
  /-- TANH (R122). Vector hyperbolic tangent on all lanes. -/
  | vTanh (s : Fin 128) (u : Upset)
  /-- SIGMOID (R122). Vector logistic sigmoid on all lanes. -/
  | vSigmoid (s : Fin 128) (u : Upset)
  /-- SILU (R122). Vector SiLU on all lanes. -/
  | vSilu (s : Fin 128) (u : Upset)
  /-- ERF (R122). Vector error function on all lanes. -/
  | vErf (s : Fin 128) (u : Upset)
  /-- GELU (R122). Vector GELU in erf form on all lanes. -/
  | vGelu (s : Fin 128) (u : Upset)
  /-- SIN (R122). Vector sine on all lanes. -/
  | vSin (s : Fin 128) (u : Upset)
  /-- COS (R122). Vector cosine on all lanes. -/
  | vCos (s : Fin 128) (u : Upset)
  /-- MIN (R122). Vector lane-wise minimum. -/
  | vMin (s : Fin 128) (u : Upset)
  /-- MAX (R122). Vector lane-wise maximum. -/
  | vMax (s : Fin 128) (u : Upset)
  /-- CMP_EQ (R122). Vector quiet equality compare writing all-ones or zero. -/
  | vCmpEq (s : Fin 128) (u : Upset)
  /-- CMP_LT (R122). Vector quiet less-than compare. -/
  | vCmpLt (s : Fin 128) (u : Upset)
  /-- CMP_LE (R122). Vector quiet less-or-equal compare. -/
  | vCmpLe (s : Fin 128) (u : Upset)
  /-- SELECT (R122). Vector lane select on the word of SRC2. -/
  | vSelect (s : Fin 128) (u : Upset)
  /-- IADD (R122). Vector integer addition. -/
  | vIadd (s : Fin 128) (u : Upset)
  /-- ISUB (R122). Vector integer subtraction. -/
  | vIsub (s : Fin 128) (u : Upset)
  /-- IMUL (R122). Vector integer multiplication, low 32 bits. -/
  | vImul (s : Fin 128) (u : Upset)
  /-- AND (R122). Vector bitwise AND. -/
  | vAnd (s : Fin 128) (u : Upset)
  /-- OR (R122). Vector bitwise OR. -/
  | vOr (s : Fin 128) (u : Upset)
  /-- XOR (R122). Vector bitwise XOR. -/
  | vXor (s : Fin 128) (u : Upset)
  /-- SHL (R122). Vector shift left. -/
  | vShl (s : Fin 128) (u : Upset)
  /-- SHR (R122). Vector logical shift right. -/
  | vShr (s : Fin 128) (u : Upset)
  /-- SAR (R122). Vector arithmetic shift right. -/
  | vSar (s : Fin 128) (u : Upset)
  /-- PERMUTE (R122). Vector lane permutation. -/
  | vPermute (s : Fin 128) (u : Upset)
  /-- SUM_LANES (R88). Sums the 256 lanes in a fixed tree and writes the result to every lane. -/
  | vSumLanes (s : Fin 128) (u : Upset)
  /-- MAX_LANES (R122). Maximum across lanes, written to every lane. -/
  | vMaxLanes (s : Fin 128) (u : Upset)
  /-- MIN_LANES (R122). Minimum across lanes, written to every lane. -/
  | vMinLanes (s : Fin 128) (u : Upset)
  /-- CVT_F2I (R122). Converts FP32 to saturating INT32 with ties to even. -/
  | vCvtF2i (s : Fin 128) (u : Upset)
  /-- CVT_I2F (R122). Converts INT32 to FP32. -/
  | vCvtI2f (s : Fin 128) (u : Upset)
  /-- FORWARD (R205). ATTN forward: three passes over the score buffer producing attention outputs and optional row statistics. -/
  | forward (s : Fin 128) (u : Upset)
  /-- BACKWARD (R222). ATTN backward: recomputes probabilities and forms score gradients and dQ. -/
  | backward (s : Fin 128) (u : Upset)
  /-- KV_WALK (R235). The control core writes a page descriptor list for one chain. -/
  | kvWalk (g : Fin 16) (pos : Fin 8)
  /-- APPEND (R241). BIGHT_APPEND stages one position's key and value rows as a PENDING bight entry. -/
  | append (s : Fin 128) (u : Upset)
  /-- ACCEPT (R242). BIGHT_APPEND records how many PENDING positions of a sequence commit. -/
  | accept (s : Fin 128)
  /-- CONV (R344). Runs a convolution tile on the matrix unit as an implicit matrix product. -/
  | conv (s : Fin 128) (u : Upset)
  /-- POOL (R352). Runs maximum or average pooling on the vector unit. -/
  | pool (s : Fin 128) (u : Upset)
  /-- CROP_RESIZE (R354). Hands a box list to the crop-and-resize engine, which writes channel-blocked outputs. -/
  | cropResize (s : Fin 128) (u : Upset)
  /-- SEND (R297). DISPATCH sends a batch's token rows to their experts' homes, applying overflow rules. -/
  | send (s : Fin 128) (u : Upset)
  /-- RETURN (R303). DISPATCH returns local experts' output rows to their senders' return slots. -/
  | ret (x : HitchRun)
  /-- ALL_REDUCE (R389). Collective all-reduce in exact or rounded form. -/
  | allReduce (x : HitchRun)
  /-- REDUCE_SCATTER (R389). Collective reduce-scatter in exact or rounded form. -/
  | reduceScatter (x : HitchRun)
  /-- ALL_GATHER (R389). Collective all-gather of byte blocks. -/
  | allGather (x : HitchRun)
  /-- ALL_TO_ALL (R389). Collective all-to-all exchange of byte blocks. -/
  | allToAll (x : HitchRun)
  /-- SCATTER_ADD (R306). Combines the k returned rows of each token into one output row. -/
  | scatterAdd (s : Fin 128) (u : Upset)
  /-- TOPK (R293). Chooses k experts per row of router scores and writes route entries with weights. -/
  | topk (s : Fin 128) (u : Upset)
  /-- TELLTALE (R464). Digests a block of a layer output and writes a telltale log entry. -/
  | telltale (s : Fin 128) (u : Upset)
  /-- REEL_STAGE (R280). Copies tokens into its batch entry's staging slots for writing at commit. -/
  | reelStage (s : Fin 128) (u : Upset)
  /-- LINK (R115). Continues a position's list at another address. -/
  | link (g : Fin 16) (pos : Fin 8)
  /-- STEP_END (R116). Ends a position's list once every earlier hitch has completed. -/
  | stepEnd (g : Fin 16) (pos : Fin 8)
  /-- HITCH_FETCH (R576). A control-core read of a hitch, descriptor or seed table returns and is checked. -/
  | hitchFetch (g : Fin 16) (what : Fetch) (t : Nat)
  /-- HITCH_EMIT (R134). The control core writes a fetched hitch into a position's queue once it has room. -/
  | hitchEmit (g : Fin 16) (pos : Fin 8) (t : Nat)
  /-- POSITION_SWITCH (R136). On a shared strand, the control core saves one position's state and restores the next. -/
  | positionSwitch (g : Fin 16) (x : StrandTurn) (t : Nat)
  /-- HITCH_COMPLETE (R124). A hitch completes with a status and signals its knot. -/
  | hitchComplete (s : Fin 128) (slot : Nat) (t : Nat)
  /-- KNOT_TIMEOUT (R128). A hitch's knot wait exceeds the limit and it completes with KNOT_TIMEOUT. -/
  | knotTimeout (s : Fin 128) (t : Nat)
  /-- STEP_START (R109). A partition's step trigger fires and its control cores read descriptors and seed table and begin emitting. -/
  | stepStart (p : Fin 16) (t : Nat)
  /-- STEP_COMMIT (R440). A ready step whose vote is complete commits its pages, KV, reels, holds, receive areas, budgets and step counter in order. -/
  | stepCommit (x : CommitRun) (t : Nat)
  /-- STEP_REPLAY (R442). After a Fault drains, the step runs again under the same number on rotated strands. -/
  | stepReplay (p : Fin 16) (t : Nat)
  /-- STEP_ABANDON (R140). After a Program status drains, the step is abandoned and its knots cleared. -/
  | stepAbandon (p : Fin 16) (t : Nat)
  /-- STEP_BUILD (R270). The serving engine builds a batch, reserves credits and starts the step once a sequence can be scheduled. -/
  | stepBuild (p : Fin 16) (t : Nat)
  /-- REFILL_TICK (R267). Every 1 ms each enabled budget account is refilled. -/
  | refillTick (t : Nat)
  /-- PAGE_MANAGER (R249). The page manager frees pages by demotion, eviction or preemption while a partition is short. -/
  | pageManager (p : Fin 16) (t : Nat)
  /-- PAGE_MOVE (R252). A page move or demotion completes and the target entry becomes LIVE. -/
  | pageMove (p : Fin 16) (t : Nat)
  /-- HELD_FLUSH (R246). Within 100 µs of a free list becoming non-empty, HELD bight entries are flushed to pages. -/
  | heldFlush (p : Fin 16) (t : Nat)
  /-- FAIRLEAD_REQUEST (R182). A requester raises a transfer request at an arbitration point. -/
  | fairleadRequest (at_ : FPoint) (r : FReq) (cycle : Nat)
  /-- FAIRLEAD_GRANT (R183). A pending request is granted when its slot rules allow. -/
  | fairleadGrant (at_ : FPoint) (requester : Nat) (cycle : Nat)
  /-- TRANSFER_DONE (R185). A granted transfer completes and the requester drops or continues its request. -/
  | transferDone (at_ : FPoint) (requester : Nat) (more : Option Nat) (cycle : Nat)
  /-- BACKOFF_END (R188). A requester's back-off period after losses expires. -/
  | backoffEnd (at_ : FPoint) (requester : Nat) (cycle : Nat)
  /-- STARVATION (R192). An owner's starvation count exceeds its limit and the event is flagged and reported. -/
  | starvation (at_ : FPoint) (owner : Nat) (cycle : Nat)
  /-- SLOT_TABLE_SWITCH (R194). A committed slot table takes effect at the next start of its slot 0. -/
  | slotTableSwitch (inst : Fin 5) (table : Fin 3) (cycle : Nat)
  /-- LINE_READ (R157). A memory line is read, decoded, tag-checked and delivered or failed. -/
  | lineRead (mpa : Nat) (e : ReadErr) (t : Nat)
  /-- LINE_WRITE (R160). A memory write stores whole lines, with read-modify-write of partial lines. -/
  | lineWrite (mpa : Nat) (data : List Byte) (e1 : ReadErr) (e2 : ReadErr) (t : Nat)
  /-- CORRECTION_WRITEBACK (R159). A queued correction write-back of a line is stored unless a write reached the line first. -/
  | correctionWriteback (mpa : Nat)
  /-- BLOCK_RETIRE (R165). A qualifying 4 KiB block is copied line by line into a spare block. -/
  | blockRetire (unit : Fin 20) (block : Nat) (t : Nat)
  /-- PATROL_READ (R168). The patrol reads, checks and corrects the next line of its unit. -/
  | patrolRead (unit : Fin 20) (e : ReadErr) (t : Nat)
  /-- SCRUB_READ (R92). The strand-scratch scrubber reads and corrects the next line after its interval. -/
  | scrubRead (s : Fin 128) (bits : Nat)
  /-- SCRATCH_WRITEBACK (R91). A corrected scratch line is written back in the bank's next free write cycle. -/
  | scratchWriteback (s : Fin 128) (line : Nat)
  /-- PACKET_TRANSMIT (R366). A packet is sent on a port once credits for its VC and lane suffice. -/
  | packetTransmit (port : Fin 18) (slot : Nat) (t : Nat)
  /-- DATA (R373). A data packet arrives at a hub and is forwarded, dropped, refused or delivered to an engine. -/
  | data (port : Fin 18) (p : Packet) (t : Nat)
  /-- EPOCH_HOLD (R373). A packet held for a rising role epoch is tested again when the epoch rises or its hold ends. -/
  | epochHold (slot : Nat) (t : Nat)
  /-- REFUSE (R374). A REFUSE packet reaches its sending engine, which resends on ROLE_MOVED or raises a status. -/
  | refuse (port : Fin 18) (p : Packet) (t : Nat)
  /-- ACK_PACKET (R379). An ACK packet acknowledges delivery of an unbraided bulk packet. -/
  | ackPacket (port : Fin 18) (p : Packet) (t : Nat)
  /-- BULK_TIMEOUT (R379). No ACK arrives within the bulk timeout, so the packet is resent or the transfer fails. -/
  | bulkTimeout (slot : Nat) (t : Nat)
  /-- DISPATCH_ROW (R301). A dispatched row reaches its home engine and is placed, queued, discarded or refused. -/
  | dispatchRow (die : Fin 4) (t : Nat)
  /-- RX_EXPIRED (R301). A row waiting for its step exceeds the wait limit and is discarded and refused. -/
  | rxExpired (die : Fin 4) (t : Nat)
  /-- RETURN_ROW (R304). A returned expert row reaches the sender and is rounded into its slot or added to the shard area. -/
  | returnRow (die : Fin 4) (t : Nat)
  /-- POST (R390). A collective's first message from a member arrives. -/
  | post (die : Fin 4) (t : Nat)
  /-- KEY (R393). Exact-reduce chunk keys arrive at an owner. -/
  | key (die : Fin 4) (t : Nat)
  /-- ANCHOR (R394). Common anchors arrive from an owner, letting the member align and send contributions. -/
  | anchor (die : Fin 4) (t : Nat)
  /-- CONTRIB (R395). A contribution arrives at its owner and is checked and added. -/
  | contrib (die : Fin 4) (t : Nat)
  /-- RESULT (R396). Reduced results arrive from an owner and are written. -/
  | result (die : Fin 4) (t : Nat)
  /-- DONE (R390). A member's DONE arrives, which lets the collective hitch complete. -/
  | done (die : Fin 4) (t : Nat)
  /-- READY (R403). A member partition's commit vote arrives. -/
  | ready (die : Fin 4) (t : Nat)
  /-- ABORT (R403). A member's ABORT arrives and acts as COLLECTIVE_ABORT of its class. -/
  | abort (die : Fin 4) (t : Nat)
  /-- QUERY (R404). A QUERY arrives and the member sends its vote for that run again. -/
  | query (die : Fin 4) (t : Nat)
  /-- MESSAGE_EXPIRED (R392). A collective message waiting for a later step exceeds the wait limit and is refused with RX_EXPIRED. -/
  | messageExpired (die : Fin 4) (t : Nat)
  /-- COLLECTIVE_TIMEOUT (R404). A collective hitch has not completed within the wait limit and completes with COLLECTIVE_TIMEOUT. -/
  | collectiveTimeout (s : Fin 128) (t : Nat)
  /-- VOTE_QUERY_TIMEOUT (R404). Votes are still missing after the wait limit, so QUERY is sent to the silent members. -/
  | voteQueryTimeout (p : Fin 16) (t : Nat)
  /-- KV_SHIP_PAGE (R254). A shipped page packet reaches the receiver and is written under its key. -/
  | kvShipPage (die : Fin 4) (t : Nat)
  /-- LINK_STATE (R376). A member's port states arrive and routes are recomputed. -/
  | linkState (src : Nat) (up : BitVec 18) (t : Nat)
  /-- RELAY_FRAME (R414). A relayed Hawser frame reaches its target module and is treated as if received on its own port. -/
  | relayFrame (f : HFrame) (src : Nat) (t : Nat)
  /-- LINK_STATE_SEND (R376). Every 1 ms a module sends its port states to its group. -/
  | linkStateSend (t : Nat)
  /-- IDLE (R363). An IDLE control block is received. -/
  | idle (x : IdleBlock)
  /-- CREDIT (R367). A CREDIT block returns flits of credit for a VC and lane. -/
  | credit (port : Fin 18) (vc : Fin 6) (lane : Fin 2) (x : FlitReturn)
  /-- ACK (R364). A link ACK block frees acknowledged blocks from the replay buffer. -/
  | ack (port : Fin 18) (count : Nat)
  /-- REPLAY_REQ (R364). A replay request makes the sender resend blocks in order from an index. -/
  | replayReq (port : Fin 18) (index : Nat)
  /-- SYNC (R382). A SYNC block's counts are checked against the receiver's counts. -/
  | sync (port : Fin 18) (vc : Fin 6) (lane : Fin 2) (flits : Nat) (credits : Nat) (t : Nat)
  /-- KEEPALIVE (R374). A KEEPALIVE block is received, marking the peer SEIZED when flagged. -/
  | keepalive (port : Fin 18) (time : Nat) (seized : Bool) (t : Nat)
  /-- HELLO (R369). A HELLO block is received and the wiring and allocations are checked. -/
  | hello (port : Fin 18) (b : HelloBlock) (t : Nat)
  /-- ACK_SEND (R364). At least every 1 µs the receiver sends an ACK block. -/
  | ackSend (port : Fin 18) (t : Nat)
  /-- KEEPALIVE_SEND (R363). At least every 10 µs an UP port sends a KEEPALIVE. -/
  | keepaliveSend (port : Fin 18) (t : Nat)
  /-- SYNC_SEND (R363). At least every 1 ms an UP port sends SYNC for each VC and lane. -/
  | syncSend (port : Fin 18) (t : Nat)
  /-- UNCORRECTABLE_CODEWORD (R364). An uncorrectable codeword is received, its blocks discarded and a replay requested. -/
  | uncorrectableCodeword (port : Fin 18) (t : Nat)
  /-- ERR_LIMIT_EXCEEDED (R362). Uncorrectable codewords in 1 ms exceed the limit and the port retrains. -/
  | errLimitExceeded (port : Fin 18) (t : Nat)
  /-- CODEWORD_LOSS (R362). No codeword is decoded for 20 µs and the port retrains. -/
  | codewordLoss (port : Fin 18) (t : Nat)
  /-- PORT_SIGNAL_DETECT (R361). An enabled DOWN port detects signal on all lanes and begins training. -/
  | portSignalDetect (port : Fin 18) (t : Nat)
  /-- TRAINING_DONE (R361). All four lanes are trained and the port moves to ALIGNING. -/
  | trainingDone (port : Fin 18) (t : Nat)
  /-- LOCK (R361). Codeword lock and deskew complete and the port moves to HELLO. -/
  | lock (port : Fin 18) (t : Nat)
  /-- PORT_STATE_TIMEOUT (R361). A port state's time limit expires and the port returns to DOWN, or becomes DISABLED after repeated failures. -/
  | portStateTimeout (port : Fin 18) (t : Nat)
  /-- PORT_RETRY (R361). One second after a return to DOWN the port tries again. -/
  | portRetry (port : Fin 18) (t : Nat)
  /-- PTP_SYNC (R429). A PTP Sync is received and module time is locked, stepped forward or slewed. -/
  | ptpSync (port : Fin 2) (offset : Int) (t : Nat)
  /-- PTP_SOURCE_SWITCH (R428). Port A's Sync receipt times out and time is taken from port B. -/
  | ptpSourceSwitch (t : Nat)
  /-- PTP_HOLDOVER (R429). Two seconds without Sync on either port puts time into HOLDOVER. -/
  | ptpHoldover (t : Nat)
  /-- GCL_ACTIVATE (R418). A committed gate control list takes effect at its first cycle start at or after the base time. -/
  | gclActivate (port : Fin 2) (t : Nat)
  /-- PICTURE_START (R318). A queued picture starts on an idle core once a buffer and ring room are available. -/
  | pictureStart (core : Fin 8) (shape : PicShape) (t : Nat)
  /-- PICTURE_DONE (R319). A core finishes a picture, outputs frames in order and writes records. -/
  | pictureDone (core : Fin 8) (r : PicReport) (t : Nat)
  /-- BUFFER_WAIT_TIMEOUT (R318). A picture waits longer than STALL_MS for a buffer and is dropped with NO_BUFFER. -/
  | bufferWaitTimeout (ctx : Fin 512) (referenced : Bool) (t : Nat)
  /-- WATCHDOG (R324). A picture's watchdog allowance runs out and the picture is concealed or skipped and completed with TIMEOUT. -/
  | watchdog (core : Fin 8) (r : PicReport) (t : Nat)
  /-- PACK_ROTATION (R450). Every interval the next strand of a die is taken for pattern-pack tests. -/
  | packRotation (die : Fin 4) (t : Nat)
  /-- PACK_TEST_END (R451). A pack test ends and its output telltale is compared with the expected value. -/
  | packTestEnd (die : Fin 4) (r : PackResult) (t : Nat)
  /-- SCORE_DECAY (R454). A strand cell's score falls to zero 24 h after its last rise. -/
  | scoreDecay (s : Fin 128) (cell : Fin 20) (t : Nat)
  /-- BAND_CLASSIFY (R452). Every 1 ms each hank's temperature band is classified. -/
  | bandClassify (g : Fin 16) (c : LoadCounts) (t : Nat)
  /-- SENSOR_SAMPLE (R546). Every 1 ms each sensor pair is sampled and governed values derived. -/
  | sensorSample (spot : Fin 34) (a : Option Int) (b : Option Int) (t : Nat)
  /-- SENSOR_SPLIT (R547). A pair stays more than 5 K apart for over 1 s and SENSOR_SPLIT is raised. -/
  | sensorSplit (spot : Fin 34) (t : Nat)
  /-- SENSOR_FAIL (R547). A sensor is not updated for 10 ms and counts as failed. -/
  | sensorFail (spot : Fin 34) (second : Bool) (t : Nat)
  /-- THERMAL_SHUTDOWN (R553). A junction value stays at 110 °C for 10 ms and the module stops, turns off and seizes. -/
  | thermalShutdown (t : Nat)
  /-- COOLANT_HOT (R545). The inlet reads above 45 °C for 1 s and COOLANT_HOT is sent. -/
  | coolantHot (t : Nat)
  /-- REEF_BOUNDARY (R549). At each 10 ms boundary the reef step is evaluated and changed by at most one. -/
  | reefBoundary (t : Nat)
  /-- ROTATION (R557). The hank's rotation offset advances at the first permitted step boundary after each rotation period. -/
  | rotation (g : Fin 16) (t : Nat)
  /-- MARGIN_REPLAN (R559). Every PERIOD_D days each hank's guardband is re-planned from its ageing monitors. -/
  | marginReplan (ms : List Margin) (t : Nat)
  /-- WAKE_ON_ACCESS (R536). A request reaches a domain that is not on and wakes it, stalling until ready. -/
  | wakeOnAccess (dom : Fin 64) (source : BitVec 8) (t : Nat)
  /-- QUIESCE_END (R533). Granted transfers of an entering domain have drained, and its save list is copied. -/
  | quiesceEnd (dom : Fin 64) (t : Nat)
  /-- DRAIN_TIMEOUT (R535). A drain exceeds 10 µs and the entry is aborted. -/
  | drainTimeout (dom : Fin 64) (t : Nat)
  /-- SAVE_DONE (R530). The save list is copied and the domain drops to retention or off. -/
  | saveDone (dom : Fin 64) (t : Nat)
  /-- DOMAIN_READY (R530). A waking domain's restore ends, it is ready and its cleats are released. -/
  | domainReady (dom : Fin 64) (corrected : Nat) (bad : Bool) (t : Nat)
  /-- BROWNOUT (R541). The island current exceeds 150 mA for 10 µs in low-power mode and a brown-out is recorded. -/
  | brownout (current : Nat) (bad : List (Fin 64)) (t : Nat)
  /-- PORT_SILENT (R503). One port reaches five missed holder heartbeats while the other has fewer. -/
  | portSilent (port : Fin 2) (t : Nat)
  /-- COMMANDER_LOST (R503). Both ports reach five missed holder heartbeats and the commander is declared lost. -/
  | commanderLost (t : Nat)
  /-- LEASE_LAPSE (R498). The lanyard lease's expiry passes and its state becomes LAPSED. -/
  | leaseLapse (t : Nat)
  /-- SEIZE (R506). The module's role lease lapses and it seizes, stopping steps and traffic. -/
  | seize (t : Nat)
  /-- COIL_PRELOAD (R518). Before T − 10 ms the scheduled components are decrypted into shadow memory. -/
  | coilPreload (t : Nat)
  /-- STEP_HOLD_LEAD (R519). At T − HOLD_LEAD_MS step starts are held until the switch. -/
  | stepHoldLead (t : Nat)
  /-- DATAPATH_SWITCH (R518). At module time T idle hanks switch to the new data-path images, or the switch is missed. -/
  | datapathSwitch (t : Nat)
  /-- MGMT_RESUME (R520). The new management image resumes service, replies to ACTIVATE and serves held frames. -/
  | mgmtResume (t : Nat)
  /-- MGMT_START_TIMEOUT (R521). The new image has not resumed after 200 ms and the other slot's management component restarts. -/
  | mgmtStartTimeout (t : Nat)
  /-- CONFIRM_OVERDUE (R525). A trial stays open beyond the confirm window and CONFIRM_OVERDUE is sent once. -/
  | confirmOverdue (t : Nat)
  /-- INPUT_QUALIFIED (R565). The busbar holds 45.5 V or more for 100 ms and the input is qualified. -/
  | inputQualified (vin : Nat) (t : Nat)
  /-- INPUT_RANGE (R565). The input enters the band just outside the operating range and INPUT_RANGE is sent. -/
  | inputRange (vin : Nat) (t : Nat)
  /-- INPUT_SHUTDOWN (R565). The input falls below 44 V or rises above 60 V long enough and the module behaves as in reset. -/
  | inputShutdown (vin : Nat) (t : Nat)
  /-- PWRGD (R566). The module asserts PWRGD after qualification and start-up begins at t0. -/
  | pwrgd (t : Nat)
  /-- RESET_N_LOW (R566). RESET_N falls and within 1 ms the module releases its pins, idles transmitters, turns domains off and holds Aelpo. -/
  | resetNLow (t : Nat)
  /-- RESET_N_HIGH (R566). RESET_N rises with the input qualified and the module powers up as at first power. -/
  | resetNHigh (t : Nat)
  /-- TRAY_LATCH (R575). LATCH_N changes and TRAY_LATCH is sent. -/
  | trayLatch (isOpen : Bool) (t : Nat)
  /-- AELPO (R568). Start-up phase 1 ends: the loader has read settings and SLOT_ID and incremented the boot count. -/
  | aelpo (flashOk : Bool) (t : Nat)
  /-- COIL (R571). Start-up phase 2 ends once the CONFIRMED coil is checked, falling back to the other slot if needed. -/
  | coil (okA : Bool) (okB : Bool) (t : Nat)
  /-- WAKE (R568). Start-up phase 3 ends once every domain has woken and firmware has loaded. -/
  | wake (t : Nat)
  /-- MEMORY (R568). Start-up phase 4 ends once links are calibrated and memories trained. -/
  | memory (linkFail : Option (Fin 4)) (unitFail : Option (Fin 20)) (t : Nat)
  /-- INIT (R568). Start-up phase 5 ends once slot 16 is derived and module structures are zeroed. -/
  | init (t : Nat)
  /-- SELF_TEST (R572). Start-up phase 6 ends once built-in tests have run, quarantining failing strands. -/
  | selfTest (weak : List (Fin 128)) (bistFail : Bool) (t : Nat)
  /-- LINKS (R568). Start-up phase 7 ends when intra-group ports are UP or its time runs out. -/
  | links (t : Nat)
  /-- IDENTITY (R574). SMBus block read of device identity, serial, order number and boot count. -/
  | identity (pec : Bool)
  /-- STATE (R574). SMBus block read of module state, start status and pins. -/
  | state (pec : Bool)
  /-- THERMAL (R574). SMBus block read of coolant readings, highest junction value and reef step. -/
  | thermal (pec : Bool)
  /-- POWER (R574). SMBus block read of input voltage and module power estimate. -/
  | power (pec : Bool)
  /-- TRUST_WRITE (R480). SMBus write of a commander trust-list digest, accepted only while the tray latch is open. -/
  | trustWrite (entry : Nat) (digest : List Byte) (pec : Bool)
  /-- ALERT_RESPONSE (R574). While SMBALERT_N is asserted, the module answers the Alert Response Address with its own address. -/
  | alertResponse (pec : Bool)
  /-- HOST_LINK_UP (R408). A 25GBASE-KR host port completes auto-negotiation and RS-FEC alignment and its LINK_UP becomes 1. -/
  | hostLinkUp (port : Fin 2) (t : Nat)
  /-- HOST_LINK_DOWN (R411). A host port loses its link, so frames cross on the other port and the LAST_HOST_LINK refuser applies to the other port. -/
  | hostLinkDown (port : Fin 2) (t : Nat)
  /-- INPUT_OK (R565). The busbar input returns from the 44-46 V or 58-60 V band into 46-58 V, so INPUT_OK reads 1 again and the SMBALERT_N cause it held ends. -/
  | inputOk (vin : Nat) (t : Nat)
  /-- RELAY_REPLY (R414). The reply to a relayed Hawser frame arrives back over Ecron at the relaying module, which puts it on both host ports. -/
  | relayReply (f : HFrame) (t : Nat)
  /-- PDELAY_INTERVAL (R417). Every 1 s each PTP port starts a peer-delay measurement as an IEEE 802.1AS time-aware end station. -/
  | pdelayInterval (port : Fin 2) (t : Nat)
  /-- GATE_INTERVAL_END (R417). The interval of the current 802.1Qbv gate control list entry expires and the next entry's gate states apply on the host port. -/
  | gateIntervalEnd (port : Fin 2) (t : Nat)
  /-- RECOVERY_RESET_TIMEOUT (R417). The 100 ms reset timeout of an 802.1CB vector recovery function expires and its sequence history is reset. -/
  | recoveryResetTimeout (stream : Nat) (t : Nat)
  /-- DEBUG_OPEN (R489). The debug instructions of the IEEE 1149.1 test access port are first used after a start, so DEBUG_OPEN becomes 1 and PART_CREATE and JOB_KEY openings are refused. -/
  | debugOpen (t : Nat)
  deriving DecidableEq, Repr

end Sys2Proof
end

