-- ==== Sys2Proof/WellFormed.lean ====
section
/-! DEFINITION. Well-formed commands: every operand within the width the spec gives its field. An operand that a meaning
refuses with a status (a misaligned address, an unknown partition) is well formed: refusing it is the command's effect. -/

namespace Sys2Proof

/-- A number fits in w bits. -/
def fits (w n : Nat) : Bool := decide (n < 2 ^ w)

/-- A command header (R408): a session the model names (log entry 1), SEQ and EPOCH of 32 bits, module time of 64. -/
def CmdHdr.wf (h : CmdHdr) : Bool :=
  (decide (1 ≤ h.session ∧ h.session ≤ 4) || decide (16 ≤ h.session ∧ h.session < 32)) && fits 32 h.seq &&
    fits 32 h.epoch && fits 64 h.t

/-- A Hawser frame (R408): header fields within their widths. -/
def HFrame.wf (f : HFrame) : Bool :=
  fits 48 f.dst && fits 12 f.vid && (match f.rtag with | some r => fits 16 r | none => true) && fits 8 f.version &&
    fits 16 f.opcode && fits 32 f.seq && fits 32 f.epoch && fits 16 f.commander && fits 16 f.session && fits 16 f.length &&
    fits 16 f.status && fits 8 f.modNum && fits 64 f.notAfter

/-- An Ecron packet (R370): header fields within their widths and at most 4 KiB of payload. -/
def Packet.wf (p : Packet) : Bool :=
  fits 4 p.version && fits 4 p.ptype && fits 3 p.vc && fits 1 p.path && fits 1 p.lane && fits 5 p.dstPart &&
    fits 2 p.dstDie && fits 8 p.dstModule && fits 8 p.srcModule && fits 5 p.srcPart && fits 2 p.srcDie &&
    fits 32 p.srcEpoch && fits 32 p.dstEpoch && fits 64 p.seq && fits 32 p.step && fits 16 p.keyId && fits 16 p.dstRole &&
    fits 64 p.telltale && decide (p.payload.length ≤ 4096)

/-- A transfer request: at most 4 KiB (R177), its addresses and numbers in 64 bits. -/
def FReq.wf (r : FReq) : Bool :=
  fits 64 r.requester && decide (0 < r.bytes ∧ r.bytes ≤ 4096) &&
    match r.traffic with
    | .patrol mpa => fits 64 mpa
    | .retire mpa => fits 64 mpa
    | .packet pk => pk.wf
    | _ => true

/-- The parameters of ROLE_ASSIGN (R509). -/
def RoleAssign.wf (a : RoleAssign) : Bool :=
  fits 16 a.role && fits 8 a.holderModule && fits 8 a.holderPart && fits 32 a.epoch && fits 8 a.formerModule &&
    fits 8 a.formerPart && fits 64 a.startStep

/-- The parameters of BUDGET_SET (R419). -/
def BudgetSet.wf (b : BudgetSet) : Bool := fits 16 b.account && fits 8 b.part && fits 32 b.rate && fits 64 b.cap

/-- The parameters of KV_SHIP (R419). -/
def ShipReq.wf (q : ShipReq) : Bool :=
  fits 32 q.index && fits 8 q.modNum && fits 8 q.part && fits 32 q.firstChain && fits 32 q.epoch

/-- A HELLO block (R363): 12 lane allocations and fields within their widths. -/
def HelloBlock.wf (b : HelloBlock) : Bool :=
  fits 8 b.modNum && fits 5 b.port && fits 3 b.version && fits 16 b.deviceId && fits 64 b.nonce &&
    decide (b.allocs.length = 12) && b.allocs.all (fits 12)

/-- An arbitration point (R177): die instances and the hub instance. -/
def FPoint.wf (p : FPoint) : Bool := fits 8 p.point

/-- Parameter bytes of a Hawser command (R408): at most 1,440, a multiple of 4. -/
def paramsOk (b : List Byte) : Bool := decide (b.length ≤ 1440) && b.length % 4 == 0

/-- Data bytes whose number the command gives (R419, R458): they and their padding fit a frame's parameters. -/
def dataOk (b : List Byte) : Bool := decide (b.length ≤ 1440)

/-- A command is well formed. -/
def WellFormed (i : Instr) : Bool :=
  match i with
  | .hawserFrame _ f t => f.wf && fits 64 t
  | .eventResend sid t => fits 64 sid && fits 64 t
  | .echo h data => h.wf && paramsOk data
  | .sessionOpen h kind _ offset data => h.wf && fits 64 kind && fits 32 offset && paramsOk data
  | .sessionClose h kind jobKey => h.wf && fits 64 kind && fits 64 jobKey
  | .eventAck h n => h.wf && fits 64 n
  | .regRead h addr count => h.wf && fits 32 addr && fits 16 count
  | .regWrite h addr _ => h.wf && fits 32 addr
  | .regModify h addr _ _ => h.wf && fits 32 addr
  | .memRead h pma bytes part => h.wf && fits 64 pma && fits 16 bytes && fits 64 part
  | .memWrite h pma data part => h.wf && fits 64 pma && dataOk data && fits 64 part
  | .partCreate h params => h.wf && paramsOk params
  | .partActive _ t => fits 64 t
  | .partDestroy h p => h.wf && fits 64 p
  | .whipOverwriteEnd _ t => fits 64 t
  | .resetFunction h kind index => h.wf && fits 64 kind && fits 32 index
  | .resetHitchTimeout _ t => fits 64 t
  | .stepRun h part _ _ => h.wf && fits 64 part
  | .attest h challenge _ offset => h.wf && paramsOk challenge && fits 32 offset
  | .heartbeat h sendTime => h.wf && fits 64 sendTime
  | .leaseAcquire h leaseMs => h.wf && fits 64 leaseMs
  | .leaseRelease h => h.wf
  | .roleAssign h a => h.wf && a.wf
  | .seizeRelease h => h.wf
  | .coilBegin h offset data => h.wf && fits 32 offset && paramsOk data
  | .coilBlock h offset block data => h.wf && fits 32 offset && fits 64 block && paramsOk data
  | .coilSchedule h time _ => h.wf && fits 64 time
  | .activate h _ => h.wf
  | .confirm h => h.wf
  | .coilStatus h => h.wf
  | .serveSubmit h desc => h.wf && paramsOk desc
  | .serveCancel h index => h.wf && fits 32 index
  | .servePause h index => h.wf && fits 32 index
  | .serveResume h index => h.wf && fits 32 index
  | .reelRead h index first maximum => h.wf && fits 32 index && fits 64 first && fits 64 maximum
  | .reelAck h index record => h.wf && fits 32 index && fits 64 record
  | .budgetSet h b => h.wf && b.wf
  | .budgetAdjust h account _ n => h.wf && fits 64 account && fits 64 n
  | .budgetRead h account => h.wf && fits 64 account
  | .prefixMake h index pages => h.wf && fits 32 index && fits 64 pages
  | .prefixDrop h _ => h.wf
  | .kvShip h q => h.wf && q.wf
  | .vidOpen h desc => h.wf && paramsOk desc
  | .vidClose h ctx => h.wf && fits 64 ctx
  | .vidFeed h ctx _ pma unit data => h.wf && fits 64 ctx && fits 64 pma && dataOk unit && dataOk data
  | .vidAcquire h => h.wf
  | .vidRelease h _ => h.wf
  | .vidEncode h ctx _ _ pts => h.wf && fits 64 ctx && fits 64 pts
  | .vidRead h ctx first maximum => h.wf && fits 64 ctx && fits 64 first && fits 64 maximum
  | .vidAck h ctx record => h.wf && fits 64 ctx && fits 64 record
  | .fsrRead h first maximum => h.wf && fits 64 first && fits 64 maximum
  | .fsrAck h n => h.wf && fits 64 n
  | .packLoad h slot _ _ offset data => h.wf && fits 64 slot && fits 32 offset && dataOk data
  | .splCommit h _ => h.wf
  | .registerWrite h addr _ => h.wf && fits 32 addr
  | .rcRead h addr coincident => h.wf && fits 32 addr && fits 64 coincident
  | .latchRead h addr => h.wf && fits 32 addr
  | .w1cClear h addr _ _ => h.wf && fits 32 addr
  | .auditSnapshot h addr _ => h.wf && fits 32 addr
  | .memErrPop h _ _ => h.wf
  | .go h _ => h.wf
  | .clrAbandon h _ => h.wf
  | .mode h _ _ => h.wf
  | .targetOn h _ _ => h.wf
  | .targetRetention h _ => h.wf
  | .targetOff h _ => h.wf
  | .cleatRel h _ => h.wf
  | .pwrAonCtrl h _ => h.wf
  | .kvpPartBightRegion h _ _ _ => h.wf
  | .vidCoreOwner h _ _ => h.wf
  | .ecnBraidCtrl h _ => h.wf
  | .secCtrl h _ => h.wf
  | .dirReady h => h.wf
  | .chkPartCtrl h _ _ => h.wf
  | .chkStrandQset h _ _ => h.wf
  | .chkStrandQmask h _ _ => h.wf
  | .gblDetPartJrnlRd h _ _ => h.wf
  | .gblDetPartReplay h _ _ => h.wf
  | .now h _ => h.wf
  | .thmKeepWarm h _ => h.wf
  | .gblStartCtrl h _ => h.wf
  | .nop _ => true
  | .matmul _ _ => true
  | .accSave _ _ => true
  | .accRestore _ _ => true
  | .vload _ _ => true
  | .vstore _ _ => true
  | .convert _ _ => true
  | .move _ _ => true
  | .vAdd _ _ => true
  | .vSub _ _ => true
  | .vMul _ _ => true
  | .vFma _ _ => true
  | .vDiv _ _ => true
  | .vSqrt _ _ => true
  | .vRcp _ _ => true
  | .vRsqrt _ _ => true
  | .vExp2 _ _ => true
  | .vLog2 _ _ => true
  | .vExp _ _ => true
  | .vLog _ _ => true
  | .vTanh _ _ => true
  | .vSigmoid _ _ => true
  | .vSilu _ _ => true
  | .vErf _ _ => true
  | .vGelu _ _ => true
  | .vSin _ _ => true
  | .vCos _ _ => true
  | .vMin _ _ => true
  | .vMax _ _ => true
  | .vCmpEq _ _ => true
  | .vCmpLt _ _ => true
  | .vCmpLe _ _ => true
  | .vSelect _ _ => true
  | .vIadd _ _ => true
  | .vIsub _ _ => true
  | .vImul _ _ => true
  | .vAnd _ _ => true
  | .vOr _ _ => true
  | .vXor _ _ => true
  | .vShl _ _ => true
  | .vShr _ _ => true
  | .vSar _ _ => true
  | .vPermute _ _ => true
  | .vSumLanes _ _ => true
  | .vMaxLanes _ _ => true
  | .vMinLanes _ _ => true
  | .vCvtF2i _ _ => true
  | .vCvtI2f _ _ => true
  | .forward _ _ => true
  | .backward _ _ => true
  | .kvWalk _ _ => true
  | .append _ _ => true
  | .accept _ => true
  | .conv _ _ => true
  | .pool _ _ => true
  | .cropResize _ _ => true
  | .send _ _ => true
  | .ret _ => true
  | .allReduce _ => true
  | .reduceScatter _ => true
  | .allGather _ => true
  | .allToAll _ => true
  | .scatterAdd _ _ => true
  | .topk _ _ => true
  | .telltale _ _ => true
  | .reelStage _ _ => true
  | .link _ _ => true
  | .stepEnd _ _ => true
  | .hitchFetch _ _ t => fits 64 t
  | .hitchEmit _ _ t => fits 64 t
  | .positionSwitch _ _ t => fits 64 t
  | .hitchComplete _ slot t => fits 64 slot && fits 64 t
  | .knotTimeout _ t => fits 64 t
  | .stepStart _ t => fits 64 t
  | .stepCommit x t => fits 64 t && x.bad.all fun e => fits 2 e.1 && fits 15 e.2
  | .stepReplay _ t => fits 64 t
  | .stepAbandon _ t => fits 64 t
  | .stepBuild _ t => fits 64 t
  | .refillTick t => fits 64 t
  | .pageManager _ t => fits 64 t
  | .pageMove _ t => fits 64 t
  | .heldFlush _ t => fits 64 t
  | .fairleadRequest at_ r cycle => at_.wf && r.wf && fits 64 cycle
  | .fairleadGrant at_ requester cycle => at_.wf && fits 64 requester && fits 64 cycle
  | .transferDone at_ requester more cycle =>
    at_.wf && fits 64 requester && fits 64 cycle && decide (more.getD 1 ≠ 0 ∧ more.getD 1 ≤ 4096)
  | .backoffEnd at_ requester cycle => at_.wf && fits 64 requester && fits 64 cycle
  | .starvation at_ owner cycle => at_.wf && fits 64 owner && fits 64 cycle
  | .slotTableSwitch _ _ cycle => fits 64 cycle
  | .lineRead mpa _ t => fits 64 mpa && fits 64 t
  | .lineWrite mpa data _ _ t => fits 64 mpa && decide (data.length ≤ 64) && fits 64 t
  | .correctionWriteback mpa => fits 64 mpa
  | .blockRetire _ block t => fits 64 block && fits 64 t
  | .patrolRead _ _ t => fits 64 t
  | .scrubRead _ bits => fits 64 bits
  | .scratchWriteback _ line => fits 64 line
  | .packetTransmit _ slot t => fits 64 slot && fits 64 t
  | .data _ p t => p.wf && fits 64 t
  | .epochHold slot t => fits 64 slot && fits 64 t
  | .refuse _ p t => p.wf && fits 64 t
  | .ackPacket _ p t => p.wf && fits 64 t
  | .bulkTimeout slot t => fits 64 slot && fits 64 t
  | .dispatchRow _ t => fits 64 t
  | .rxExpired _ t => fits 64 t
  | .returnRow _ t => fits 64 t
  | .post _ t => fits 64 t
  | .key _ t => fits 64 t
  | .anchor _ t => fits 64 t
  | .contrib _ t => fits 64 t
  | .result _ t => fits 64 t
  | .done _ t => fits 64 t
  | .ready _ t => fits 64 t
  | .abort _ t => fits 64 t
  | .query _ t => fits 64 t
  | .messageExpired _ t => fits 64 t
  | .collectiveTimeout _ t => fits 64 t
  | .voteQueryTimeout _ t => fits 64 t
  | .kvShipPage _ t => fits 64 t
  | .linkState src _ t => fits 64 src && fits 64 t
  | .relayFrame f src t => f.wf && fits 64 src && fits 64 t
  | .linkStateSend t => fits 64 t
  | .idle x => x.corrected.all fun n => decide (n ≤ 15)
  | .credit _ _ _ x => fits 12 x.flits
  | .ack _ count => fits 32 count
  | .replayReq _ index => fits 32 index
  | .sync _ _ _ flits credits t => fits 48 flits && fits 48 credits && fits 64 t
  | .keepalive _ time _ t => fits 64 time && fits 64 t
  | .hello _ b t => b.wf && fits 64 t
  | .ackSend _ t => fits 64 t
  | .keepaliveSend _ t => fits 64 t
  | .syncSend _ t => fits 64 t
  | .uncorrectableCodeword _ t => fits 64 t
  | .errLimitExceeded _ t => fits 64 t
  | .codewordLoss _ t => fits 64 t
  | .portSignalDetect _ t => fits 64 t
  | .trainingDone _ t => fits 64 t
  | .lock _ t => fits 64 t
  | .portStateTimeout _ t => fits 64 t
  | .portRetry _ t => fits 64 t
  | .ptpSync _ _ t => fits 64 t
  | .ptpSourceSwitch t => fits 64 t
  | .ptpHoldover t => fits 64 t
  | .gclActivate _ t => fits 64 t
  | .pictureStart _ _ t => fits 64 t
  | .pictureDone _ _ t => fits 64 t
  | .bufferWaitTimeout _ _ t => fits 64 t
  | .watchdog _ _ t => fits 64 t
  | .packRotation _ t => fits 64 t
  | .packTestEnd _ _ t => fits 64 t
  | .scoreDecay _ _ t => fits 64 t
  | .bandClassify _ _ t => fits 64 t
  | .sensorSample _ _ _ t => fits 64 t
  | .sensorSplit _ t => fits 64 t
  | .sensorFail _ _ t => fits 64 t
  | .thermalShutdown t => fits 64 t
  | .coolantHot t => fits 64 t
  | .reefBoundary t => fits 64 t
  | .rotation _ t => fits 64 t
  | .marginReplan _ t => fits 64 t
  | .wakeOnAccess _ _ t => fits 64 t
  | .quiesceEnd _ t => fits 64 t
  | .drainTimeout _ t => fits 64 t
  | .saveDone _ t => fits 64 t
  | .domainReady _ corrected _ t => fits 64 corrected && fits 64 t
  | .brownout current _ t => fits 64 current && fits 64 t
  | .portSilent _ t => fits 64 t
  | .commanderLost t => fits 64 t
  | .leaseLapse t => fits 64 t
  | .seize t => fits 64 t
  | .coilPreload t => fits 64 t
  | .stepHoldLead t => fits 64 t
  | .datapathSwitch t => fits 64 t
  | .mgmtResume t => fits 64 t
  | .mgmtStartTimeout t => fits 64 t
  | .confirmOverdue t => fits 64 t
  | .inputQualified vin t => fits 64 vin && fits 64 t
  | .inputRange vin t => fits 64 vin && fits 64 t
  | .inputShutdown vin t => fits 64 vin && fits 64 t
  | .pwrgd t => fits 64 t
  | .resetNLow t => fits 64 t
  | .resetNHigh t => fits 64 t
  | .trayLatch _ t => fits 64 t
  | .aelpo _ t => fits 64 t
  | .coil _ _ t => fits 64 t
  | .wake t => fits 64 t
  | .memory _ _ t => fits 64 t
  | .init t => fits 64 t
  | .selfTest _ _ t => fits 64 t
  | .links t => fits 64 t
  | .identity _ => true
  | .state _ => true
  | .thermal _ => true
  | .power _ => true
  | .trustWrite entry digest _ => fits 8 entry && decide (digest.length ≤ 64)
  | .alertResponse _ => true
  | .hostLinkUp _ t => fits 64 t
  | .hostLinkDown _ t => fits 64 t
  | .inputOk vin t => fits 64 vin && fits 64 t
  | .relayReply f t => f.wf && fits 64 t
  | .pdelayInterval _ t => fits 64 t
  | .gateIntervalEnd _ t => fits 64 t
  | .recoveryResetTimeout stream t => fits 64 stream && fits 64 t
  | .debugOpen t => fits 64 t

end Sys2Proof
end

