-- ==== Sys2Proof/Config.lean ====
section
/-! DEFINITION. What a module's build, fuses and pins fix, and the free values: constants without a body for every value
the spec leaves open (log entries 6 to 10). No statement rests on a value of one. -/

namespace Sys2Proof.Config

/-- A fresh free value: the n-th value the spec leaves open in a run (log entry 8). -/
opaque freeValue : Nat → Nat
/-- The vector functions of R87 other than the correctly rounded ones: operation code and FP32 word in, word out. -/
opaque vecFn : Nat → Nat → Nat
/-- GBL_DEVICE_ID: 0x7208_41B1 for the standard build, 0x7208_4DB1 for the marine build (R23); true is marine. -/
opaque marine : Bool
/-- The tray slot straps that phase 1 reads into GBL_SLOT_ID (R23, R563). -/
opaque slotStraps : Nat
/-- What the fused MAC address of a host port holds beside bits 0 and 1 of its first octet, which are 0 (R408): its first six bits
and its other five octets; that of port B as the distance of its value from port A's less 1, below 2^46 - 1. -/
opaque macOfA : BitVec 46
opaque macStep : Fin 70368744177663
/-- The fused MAC address of a host port, first octet in bits [47:40] (R408): the two are distinct, universally administered unicast
addresses. -/
def macAddress (n : Nat) : Nat :=
  let v := if n = 0 then macOfA.toNat else (macOfA.toNat + macStep.val + 1) % 2 ^ 46
  v / 2 ^ 40 * 2 ^ 42 + v % 2 ^ 40
/-- SEC_FUSES (R496). -/
opaque fuses : Nat
/-- The module's fused identity as the attestation report names it (R486): serial number (16 bytes), SHAKE256 digest of the identity public key (64), encapsulation key (1,568), digest of the resident loader (64). -/
opaque identity : List Byte
/-- Boot-flash contents at first power: the certificate chain (R486). -/
opaque certChain : List Byte
/-- The fused 256-bit root key (R477). -/
opaque kRoot : Key
/-- The power estimate in mW of a hank that runs some hitches at an effective reef step: the spec gives no formula, and a module
draws at most 1,800 W (R19, R554; log entry 23). -/
opaque hankLoad : Nat → List HitchWord → Fin 1800001
/-- The power estimate in mW of a video core at work, encoding or decoding: at most the 40 W of all video (R19, R554; log
entry 23). -/
opaque coreLoad : Bool → Fin 40001
/-- The static power of a domain in mW: at most 0.2 W (R554; log entry 23). -/
opaque domainPower : Nat → Fin 201
/-- The power of the 18 ports in mW by their states: at most 5 W each (R554; log entry 23). -/
opaque portPower : List Nat → Fin 90001
/-- The power estimate of a partition in 10 W units, by partition and second (R542; log entry 23). -/
opaque partPower : Nat → Nat → Nat
/-- The power-model estimate of a hot spot in 0.1 °C: spot and instant (R547; log entry 23). -/
opaque spotEstimate : Nat → Nat → Int
/-- The ageing monitors of a hank at an instant: degradation and ring oscillator slowdown in 0.01 % (R558; log entry 23). -/
opaque ageMonitors : Nat → Nat → Nat × Nat
/-- How long the reset of a dispatch-and-collective (true) or crop-and-resize engine lasts, in ns: at most 200 µs (R426). -/
opaque engineReset : Bool → Fin 200001
/-- NEXT of the last page of a chain or of a free list, which is undefined (R230). -/
opaque lastNext : Nat → BitVec 22
/-- How long the reset of a video core lasts, in ns: at most 1 ms (R426). -/
opaque coreReset : Fin 1000001
/-- The bits of the difference of a vector coded from others, whether a vector halfway between two whole samples rounds up, and a
sample of decimated luma from 16: R329 does not give them (log entry 71). -/
opaque vectorBits : Int × Int → List (Int × Int) → Nat
opaque halfUp : Int → Fin 2
opaque decimate : List Int → Int
/-- The encoder's choices that R328 to R331 leave open, as functions of what R331 names: the descriptor, the kind of picture, the
frame and the reconstructed references, with the QPs of the CTB rows so far, the vectors found, and the blocks coded where the
allowance ran out: the bits of a CTB row, the access unit, and the reconstructed picture (log entry 13). -/
opaque codedRow : List (List Byte) → List Int → List (Nat × (Int × Int) × Nat) → Option Nat → Nat
opaque codedUnit : List (List Byte) → List Int → List (Nat × (Int × Int) × Nat) → Option Nat → List Byte
opaque codedPicture : List (List Byte) → List Int → List (Nat × (Int × Int) × Nat) → Option Nat → List Byte
/-- A picture with the film grain of the AV1 specification, from its parameters and the picture before grain (R311; log
entry 13). -/
opaque filmGrain : List Byte → List Byte → List Byte
/-- Whether a Falcon-1024 signature verifies: key, message, signature (R480, R449, R515; log entry 7). -/
opaque verifies : List Byte → List Byte → List Byte → Bool
/-- ML-KEM-1024 decapsulation under the module's KEM key (R480; log entry 7). -/
opaque decapsulate : List Byte → List Byte
/-- A Falcon-1024 signature by the identity key (R486; log entry 7). -/
opaque sign : List Byte → List Byte
/-- The progress of a whipping in units of 1/65,536, by its start and an instant (R496; log entry 8). -/
opaque whipProgress : Nat → Nat → Nat
/-- The SHAKE256 digest of a component, by its ID and the coil that holds it (R486; log entry 7). -/
opaque componentDigest : Nat → List Byte → List Byte
/-- The fused 256-bit fleet key K_fleet (R477, R478, R485). -/
opaque kFleet : Key
/-- Whether the running services declare a settings format convertible (R516): running format and coil's format. -/
opaque convertible : Nat → Nat → Bool
/-- The delay in ns after T at which an idle hank switches images: at most 1 µs (R518). -/
opaque switchDelay : Nat → Fin 1001
/-- The keys under which coils, pattern packs and factory test coils are signed (R449, R489, R514). -/
opaque signingKey : Nat → List Byte

end Sys2Proof.Config
end

