-- ==== Sys2Proof/Machine/Store.lean ====
section
/-! DEFINITION. Sparse stores: maps from numbers to values kept as sorted lists, the byte store of every addressed
memory in its one canonical form, and the little-endian reading and writing of byte strings (R9). -/

namespace Sys2Proof.Machine

/-- A sparse map by number: entries in rising order of key. -/
abbrev Map (α : Type) := List (Nat × α)

/-- The entry at a key. -/
def mget {α : Type} (m : Map α) (k : Nat) : Option α :=
  match m with
  | [] => none
  | (j, a) :: r => if j = k then some a else mget r k

/-- The entry at a key, or a default. -/
def mgetD {α : Type} (m : Map α) (k : Nat) (d : α) : α := (mget m k).getD d

/-- Remove the entry at a key. -/
def mdel {α : Type} (m : Map α) (k : Nat) : Map α :=
  match m with
  | [] => []
  | (j, a) :: r => if j = k then mdel r k else (j, a) :: mdel r k

/-- Set the entry at a key. -/
def mput {α : Type} (m : Map α) (k : Nat) (v : α) : Map α :=
  match m with
  | [] => [(k, v)]
  | (j, a) :: r =>
    if k < j then (k, v) :: (j, a) :: r else if j = k then (k, v) :: r else (j, a) :: mput r k v

/-- Set or remove the entry at a key. -/
def mset {α : Type} (m : Map α) (k : Nat) (v : Option α) : Map α :=
  match v with
  | some a => mput m k a
  | none => mdel m k

/-- Intervals of time, newest first, each with its beginning and, once it is over, its end. -/
abbrev Spans := List (Nat × Option Nat)
/-- An interval begins. -/
def Spans.begin (m : Spans) (t : Nat) : Spans := (t, none) :: m
/-- The newest interval is over. -/
def Spans.shut (m : Spans) (t : Nat) : Spans :=
  match m with
  | (a, none) :: r => (a, some t) :: r
  | m => m

/-- Change the entry at a key, starting from a default where there is none. -/
def mupd {α : Type} (m : Map α) (k : Nat) (d : α) (f : α → α) : Map α := mput m k (f (mgetD m k d))

/-- Change the entry at a key if there is one. -/
def mmod {α : Type} (m : Map α) (k : Nat) (f : α → α) : Map α :=
  match mget m k with
  | some a => mput m k (f a)
  | none => m

/-- Change every entry. -/
def meach {α : Type} (m : Map α) (f : Nat → α → α) : Map α := m.map fun e => (e.1, f e.1 e.2)

/-- Keep the entries that a test accepts. -/
def mkeep {α : Type} (m : Map α) (f : Nat → α → Bool) : Map α := m.filter fun e => f e.1 e.2

/-- A number with a default of 0. -/
def nget (m : Map Nat) (k : Nat) : Nat := mgetD m k 0

/-- Set a number, keeping no entry that is 0. -/
def nput (m : Map Nat) (k v : Nat) : Map Nat := if v = 0 then mdel m k else mput m k v

/-- The byte at a key of the byte store: 0 where nothing has been written (log entry 3). -/
def bget (m : List Host.Cell) (a : Nat) : Byte := mgetD m a 0

/-- Write one byte: writing 0 removes the entry, so that equal memories are equal lists. -/
def bput (m : List Host.Cell) (a : Nat) (v : Byte) : List Host.Cell :=
  if v = 0 then mdel m a else mput m a v

/-- Read n bytes from an address. -/
def readBytes (m : List Host.Cell) (a : Nat) (n : Nat) : List Byte :=
  (List.range n).map fun i => bget m (a + i)

/-- Write a byte string at an address. -/
def writeBytes (m : List Host.Cell) (a : Nat) (bs : List Byte) : List Host.Cell :=
  match bs with
  | [] => m
  | b :: r => writeBytes (bput m a b) (a + 1) r

/-- The canonical form from a lower bound: keys rise strictly and no byte is 0. -/
def wfFrom (lo : Nat) (m : List Host.Cell) : Bool :=
  match m with
  | [] => true
  | (a, v) :: r => decide (lo ≤ a) && (v != 0) && wfFrom (a + 1) r

/-- The canonical form of the byte store. -/
def Memory.wf (m : List Host.Cell) : Bool := wfFrom 0 m

/-- The number that a little-endian byte string spells (R9). -/
def ofLe (bs : List Byte) : Nat :=
  match bs with
  | [] => 0
  | b :: r => b.toNat + 256 * ofLe r

/-- The n little-endian bytes of a number (R9). -/
def toLe (n : Nat) (v : Nat) : List Byte :=
  match n with
  | 0 => []
  | k + 1 => BitVec.ofNat 8 v :: toLe k (v / 256)

/-- A little-endian number of n bytes in the byte store. -/
def readLe (m : List Host.Cell) (a n : Nat) : Nat := ofLe (readBytes m a n)

/-- Bits hi down to lo of a number. -/
def bits (v hi lo : Nat) : Nat := v / 2 ^ lo % 2 ^ (hi + 1 - lo)

/-- Bit i of a number. -/
def bit (v i : Nat) : Bool := v / 2 ^ i % 2 == 1

/-- The number 1 or 0 of a flag. -/
def b2n (b : Bool) : Nat := if b then 1 else 0

/-- Bytes a to a + n − 1 of a byte string, 0 past its end. -/
def slice (bs : List Byte) (a n : Nat) : List Byte :=
  (List.range n).map fun i => bs.getD (a + i) 0

/-- A little-endian field of a byte string. -/
def leAt (bs : List Byte) (a n : Nat) : Nat := ofLe (slice bs a n)

/-- A saturating 32-bit count (R70). -/
def sat32 (n : Nat) : Nat := min n 0xFFFFFFFF

/-- Round a number down to a multiple. -/
def alignDown (a n : Nat) : Nat := a / n * n

/-- The quotient rounded up. -/
def ceilDiv (a n : Nat) : Nat := (a + n - 1) / n

/-- Fold a state through a list. -/
def foldS {σ α : Type} (f : σ → α → σ) (s : σ) (l : List α) : σ :=
  match l with
  | [] => s
  | a :: r => foldS f (f s a) r

end Sys2Proof.Machine
end

