-- ==== Sys2Proof/Machine/Numbers.lean ====
section
/-! DEFINITION. Number formats (R33 to R44), exact values, rounding (R56 to R68) and the Philox generator (R65). An
exact value is a sign, a natural significand and a power of two; every conversion decodes exactly and rounds once. -/

namespace Sys2Proof.Machine

/-- The element formats of R33 and R34, in the order of the format codes of R119. -/
inductive Fmt where
  | e4m3
  | e5m2
  | e3m2
  | e2m3
  | e2m1
  | int8
  | int4
  | bf16
  | fp16
  | fp32
  | raw
  deriving DecidableEq, Repr

/-- The format of a code (R119). -/
def Fmt.ofCode (c : Nat) : Option Fmt :=
  match c with
  | 0 => some .e4m3
  | 1 => some .e5m2
  | 2 => some .e3m2
  | 3 => some .e2m3
  | 4 => some .e2m1
  | 5 => some .int8
  | 6 => some .int4
  | 7 => some .bf16
  | 8 => some .fp16
  | 9 => some .fp32
  | 15 => some .raw
  | _ => none

/-- Element width in bits (R33, R34, R59). -/
def Fmt.width (f : Fmt) : Nat :=
  match f with
  | .e4m3 => 8
  | .e5m2 => 8
  | .e3m2 => 6
  | .e2m3 => 6
  | .e2m1 => 4
  | .int8 => 8
  | .int4 => 4
  | .bf16 => 16
  | .fp16 => 16
  | .fp32 => 32
  | .raw => 112

/-- Whether a format is one of the two's-complement integers (R34). -/
def Fmt.isInt (f : Fmt) : Bool := f == .int8 || f == .int4

/-- Mantissa bits of a floating-point format (R33). -/
def Fmt.mant (f : Fmt) : Nat :=
  match f with
  | .e4m3 => 3
  | .e5m2 => 2
  | .e3m2 => 2
  | .e2m3 => 3
  | .e2m1 => 1
  | .bf16 => 7
  | .fp16 => 10
  | .fp32 => 23
  | .int8 => 0
  | .int4 => 0
  | .raw => 0

/-- Exponent bias (R33). -/
def Fmt.bias (f : Fmt) : Int :=
  match f with
  | .e4m3 => 7
  | .e5m2 => 15
  | .e3m2 => 3
  | .e2m3 => 1
  | .e2m1 => 1
  | .bf16 => 127
  | .fp16 => 15
  | .fp32 => 127
  | .int8 => 0
  | .int4 => 0
  | .raw => 0

/-- The code of the largest finite value, without its sign (R33). -/
def Fmt.maxCode (f : Fmt) : Nat :=
  match f with
  | .e4m3 => 0x7E
  | .e5m2 => 0x7B
  | .e3m2 => 0x1F
  | .e2m3 => 0x1F
  | .e2m1 => 0x7
  | .bf16 => 0x7F7F
  | .fp16 => 0x7BFF
  | .fp32 => 0x7F7FFFFF
  | .int8 => 0x7F
  | .int4 => 0x7
  | .raw => 0

/-- Exponent of the largest finite value of an MX element type (R57). -/
def Fmt.emax (f : Fmt) : Int :=
  match f with
  | .e4m3 => 8
  | .e5m2 => 15
  | .e3m2 => 4
  | .e2m3 => 2
  | .e2m1 => 2
  | .int8 => 0
  | .int4 => 0
  | .bf16 => 127
  | .fp16 => 15
  | .fp32 => 127
  | .raw => 0

/-- An exact value: ±m × 2^e, an infinity, or NaN with its sign bit. -/
inductive Num where
  | fin (neg : Bool) (m : Nat) (e : Int)
  | inf (neg : Bool)
  | nan (neg : Bool)
  deriving DecidableEq, Repr

/-- +0. -/
def Num.zero : Num := .fin false 0 0

/-- Whether a value is finite. -/
def Num.isFin (x : Num) : Bool :=
  match x with
  | .fin _ _ _ => true
  | .inf _ => false
  | .nan _ => false

/-- A power of two with a natural exponent, from an integer that is not negative. -/
def pow2 (n : Int) : Nat := 2 ^ n.toNat

/-- The integer of an exact value over the unit 2^u, when u is at most its exponent. -/
def Num.toInt (x : Num) (u : Int) : Int :=
  match x with
  | .fin neg m e => (if neg then -1 else 1) * (m * pow2 (e - u) : Nat)
  | .inf _ => 0
  | .nan _ => 0

/-- The exact value v × 2^u. -/
def Num.ofInt (v : Int) (u : Int) : Num := .fin (v < 0) v.natAbs u

/-- Signed integer of a two's-complement field of w bits. -/
def sext (w : Nat) (c : Nat) : Int :=
  let v := c % 2 ^ w
  if 2 ^ (w - 1) ≤ v then (v : Int) - 2 ^ w else v

/-- The two's-complement field of w bits of an integer. -/
def twos (w : Nat) (v : Int) : Nat := (v % (2 ^ w : Nat)).toNat

/-- Decode an element exactly (R33, R34, R41). An MX INT8 element has the value n × 2^−6. -/
def Fmt.decode (f : Fmt) (mx : Bool) (code : Nat) : Num :=
  if f.isInt then
    let n := sext f.width code
    .fin (n < 0) n.natAbs (if mx then -6 else 0)
  else
    let neg := bit code (f.width - 1)
    let body := code % 2 ^ (f.width - 1)
    let e := body / 2 ^ f.mant
    let m := body % 2 ^ f.mant
    let top := 2 ^ (f.width - 1 - f.mant) - 1
    if f = .e4m3 && body = 0x7F then .nan neg
    else if (f = .e5m2 || f = .bf16 || f = .fp16 || f = .fp32) && e = top then
      if m = 0 then .inf neg else .nan neg
    else if e = 0 then .fin neg m (1 - f.bias - f.mant)
    else .fin neg (2 ^ f.mant + m) ((e : Int) - f.bias - f.mant)

/-- How a rounding settles a discarded part: to nearest even, or stochastically with a 24-bit word (R64). -/
inductive Rnd where
  | rne
  | stoch (r : Nat)
  deriving DecidableEq, Repr

/-- Round m × 2^s to an integer; the flag says that the rounding was inexact (R56, R64). -/
def roundMag (r : Rnd) (m : Nat) (s : Int) : Nat × Bool :=
  if 0 ≤ s then (m * pow2 s, false)
  else
    let d := pow2 (-s)
    let q := m / d
    let rest := m % d
    if rest = 0 then (q, false)
    else
      match r with
      | .rne => (if d < 2 * rest || (2 * rest = d && q % 2 = 1) then q + 1 else q, true)
      | .stoch w => (if 2 ^ 24 ≤ rest * 2 ^ 24 / d + w % 2 ^ 24 then q + 1 else q, true)

/-- Round a non-zero magnitude to a floating-point format, unbounded above: the code without sign, which passes the
largest finite code on overflow, and whether the rounding was inexact. -/
def Fmt.roundCode (f : Fmt) (r : Rnd) (m : Nat) (e : Int) : Nat × Bool :=
  let low : Int := 1 - f.bias - f.mant
  let q : Int := max ((Nat.log2 m : Int) + e - f.mant) low
  let (n, inexact) := roundMag r m (e - q)
  let (n, q) := if 2 ^ (f.mant + 1) ≤ n then (n / 2, q + 1) else (n, q)
  if n < 2 ^ f.mant then (n, inexact)
  else (((q - low).toNat + 1) * 2 ^ f.mant + (n - 2 ^ f.mant), inexact)

/-- CONV_SAT of STR_ARITH_FLAGS (R69). -/
def flagSat : Nat := 0x200
/-- CONV_NAN of STR_ARITH_FLAGS (R69). -/
def flagNan : Nat := 0x400
/-- SCALE_NAN of STR_ARITH_FLAGS (R69). -/
def flagScale : Nat := 0x800

/-- Union of two sets of flag bits. -/
def orBits (a b : Nat) : Nat := a ||| b
/-- The bits of a number that are not bits of another. -/
def andNotBits (a b : Nat) : Nat := a ^^^ (a &&& b)

/-- Round an exact value to an integer format of w bits with saturation (R58, R85). -/
def encodeInt (w : Nat) (r : Rnd) (x : Num) : Nat × Nat :=
  match x with
  | .nan _ => (0, flagNan)
  | .inf neg => (if neg then 2 ^ (w - 1) else 2 ^ (w - 1) - 1, flagSat)
  | .fin neg m e =>
    let n := (roundMag r m e).1
    if neg then (if 2 ^ (w - 1) < n then (2 ^ (w - 1), flagSat) else (twos w (-(n : Int)), 0))
    else if 2 ^ (w - 1) ≤ n then (2 ^ (w - 1) - 1, flagSat) else (n, 0)

/-- Convert an exact value to a plain format with one rounding (R56, R58, R62): the code and the flags it sets. -/
def Fmt.encode (f : Fmt) (sat : Bool) (r : Rnd) (x : Num) : Nat × Nat :=
  if f.isInt then encodeInt f.width r x
  else
    let sign (neg : Bool) : Nat := if neg then 2 ^ (f.width - 1) else 0
    let infCode : Nat := f.maxCode + 1
    match x with
    | .nan neg =>
      match f with
      | .fp32 => (0x7FC00000, 0)
      | .bf16 => (0x7FC0, 0)
      | .fp16 => (0x7E00, 0)
      | .e5m2 => (0x7E + sign neg, 0)
      | .e4m3 => (0x7F + sign neg, 0)
      | _ => (0, 0)
    | .inf neg =>
      if sat then (f.maxCode + sign neg, flagSat)
      else if f = .e4m3 then (0x7F + sign neg, flagNan)
      else (infCode + sign neg, 0)
    | .fin neg m e =>
      if m = 0 then (sign neg, 0)
      else
        let c := (f.roundCode r m e).1
        if f.maxCode < c then
          if sat then (f.maxCode + sign neg, flagSat)
          else if f = .e4m3 then (0x7F + sign neg, flagSat)
          else (infCode + sign neg, flagSat)
        else (c + sign neg, 0)

/-- Encode one element of an MX block whose scale is 2^x: r / 2^x rounded once and saturated (R57). -/
def Fmt.encodeElem (f : Fmt) (r : Rnd) (x : Int) (v : Num) : Nat × Nat :=
  match v with
  | .fin neg m e =>
    if f = .int8 then encodeInt 8 r (.fin neg m (e - x + 6))
    else f.encode true r (.fin neg m (e - x))
  | .inf _ => (0, 0)
  | .nan _ => (0, 0)

/-- floor(log2 |x|) of a non-zero finite value. -/
def Num.log2 (x : Num) : Option Int :=
  match x with
  | .fin _ m e => if m = 0 then none else some ((Nat.log2 m : Int) + e)
  | .inf _ => none
  | .nan _ => none

/-- The larger of two optional exponents. -/
def maxExp (a b : Option Int) : Option Int :=
  match a, b with
  | none, y => y
  | some x, none => some x
  | some x, some y => some (max x y)

/-- The E8M0 code of the computed scale of a block, and the flags it sets (R35, R57). -/
def Fmt.blockScale (f : Fmt) (vs : List Num) : Nat × Nat :=
  if vs.all Num.isFin then
    match (vs.map Num.log2).foldl maxExp none with
    | none => (0, 0)
    | some l => ((max (-127) (min 127 (l - f.emax)) + 127).toNat, 0)
  else (0xFF, flagScale)

/-- Whether a value is an infinity. -/
def Num.isInf (x : Num) : Bool :=
  match x with
  | .inf _ => true
  | .fin _ _ _ => false
  | .nan _ => false

/-- CONV_NAN of a block written with scale 0xFF: an infinity in it becomes NaN (R58). -/
def infNan (vs : List Num) : Nat := if vs.any Num.isInf then flagNan else 0

/-- Encode a block of an MX tensor under its computed scale (R57): the scale code, the element codes and the flags. -/
def Fmt.encodeBlock (f : Fmt) (rs : List Rnd) (vs : List Num) : Nat × List Nat × Nat :=
  let (sc, fl) := f.blockScale vs
  if sc = 0xFF then (sc, vs.map fun _ => 0, orBits fl (infNan vs))
  else
    let es := (rs.zip vs).map fun p => f.encodeElem p.1 ((sc : Int) - 127) p.2
    (sc, es.map Prod.fst, (es.map Prod.snd).foldl orBits fl)

/-- Scale a decoded element by its block's code (R39, R42): NaN under code 0xFF. -/
def Num.scaled (x : Num) (code : Nat) : Num :=
  if code = 0xFF then .nan false
  else
    match x with
    | .fin neg m e => .fin neg m (e + (code : Int) - 127)
    | .inf neg => .inf neg
    | .nan neg => .nan neg

/-- The exact product of two operands (R42, R44). R44 names no product of two infinities: it is taken as infinite with the
product of the signs (DESIGN CHOICE, log entry 65). -/
def Num.mul (x y : Num) : Num :=
  match x, y with
  | .nan _, _ => .nan false
  | _, .nan _ => .nan false
  | .inf a, .inf b => .inf (a != b)
  | .inf a, .fin b m _ => if m = 0 then .nan false else .inf (a != b)
  | .fin a m _, .inf b => if m = 0 then .nan false else .inf (a != b)
  | .fin a m e, .fin b n f => .fin (a != b) (m * n) (e + f)

/-- The exact sum of two finite values, with the sign of an exact zero (IEEE 754-2019 clause 6.3); infinities and NaN
as the standard says. -/
def Num.add (x y : Num) : Num :=
  match x, y with
  | .nan _, _ => .nan false
  | _, .nan _ => .nan false
  | .inf a, .inf b => if a = b then .inf a else .nan false
  | .inf a, .fin _ _ _ => .inf a
  | .fin _ _ _, .inf b => .inf b
  | .fin a m e, .fin b n f =>
    let u := min e f
    let v := (Num.fin a m e).toInt u + (Num.fin b n f).toInt u
    if v = 0 then .fin (a && b) 0 0 else Num.ofInt v u

/-- Change the sign. -/
def Num.neg (x : Num) : Num :=
  match x with
  | .fin a m e => .fin (!a) m e
  | .inf a => .inf (!a)
  | .nan a => .nan (!a)

/-- Whether one finite value is below another, with infinities; NaN is below nothing. -/
def Num.lt (x y : Num) : Bool :=
  match x, y with
  | .nan _, _ => false
  | _, .nan _ => false
  | .inf a, .inf b => a && !b
  | .inf a, .fin _ _ _ => a
  | .fin _ _ _, .inf b => !b
  | .fin a m e, .fin b n f =>
    let u := min e f
    decide ((Num.fin a m e).toInt u < (Num.fin b n f).toInt u)

/-- Numeric equality; both zeros are equal (R37) and NaN equals nothing. -/
def Num.eqv (x y : Num) : Bool :=
  match x, y with
  | .nan _, _ => false
  | _, .nan _ => false
  | _, _ => !(x.lt y) && !(y.lt x)

/-- The largest r whose square is at most n, tried bit by bit. -/
def isqrtFrom (k : Nat) (n r : Nat) : Nat :=
  match k with
  | 0 => r
  | j + 1 =>
    let t := r + 2 ^ j
    isqrtFrom j n (if t * t ≤ n then t else r)

/-- The integer square root of a number below 2^128. -/
def isqrt (n : Nat) : Nat := isqrtFrom 64 n 0

/-- One round of Philox-4x32 (R65): counter words and key words. -/
def philoxRound (c : Nat × Nat × Nat × Nat) (k : Nat × Nat) : Nat × Nat × Nat × Nat :=
  let p0 := 0xD2511F53 * c.1
  let p1 := 0xCD9E8D57 * c.2.2.1
  let hi0 := p0 / 2 ^ 32
  let lo0 := p0 % 2 ^ 32
  let hi1 := p1 / 2 ^ 32
  let lo1 := p1 % 2 ^ 32
  ((hi1 ^^^ c.2.1 ^^^ k.1) % 2 ^ 32, lo1, (hi0 ^^^ c.2.2.2 ^^^ k.2) % 2 ^ 32, lo0)

/-- Philox-4x32 with n rounds, the key bumped by the Weyl constants between rounds. -/
def philox (n : Nat) (c : Nat × Nat × Nat × Nat) (k : Nat × Nat) : Nat × Nat × Nat × Nat :=
  match n with
  | 0 => c
  | m + 1 => philox m (philoxRound c k) ((k.1 + 0x9E3779B9) % 2 ^ 32, (k.2 + 0xBB67AE85) % 2 ^ 32)

/-- The random word of element n of a hitch's logical output (R65). -/
def seededWord (seed stream step n : Nat) : Nat :=
  let o := philox 10 (n / 4 % 2 ^ 32, stream % 2 ^ 32, step % 2 ^ 32, step / 2 ^ 32 % 2 ^ 32)
    (seed % 2 ^ 32, seed / 2 ^ 32 % 2 ^ 32)
  match n % 4 with
  | 0 => o.1
  | 1 => o.2.1
  | 2 => o.2.2.1
  | _ => o.2.2.2

/-- INVALID of STR_ARITH_FLAGS (R69). -/
def fInvalid : Nat := 1
/-- DIV_ZERO of STR_ARITH_FLAGS (R69). -/
def fDivZero : Nat := 2
/-- OVERFLOW of STR_ARITH_FLAGS (R69). -/
def fOverflow : Nat := 4
/-- UNDERFLOW of STR_ARITH_FLAGS (R69). -/
def fUnderflow : Nat := 8
/-- INEXACT of STR_ARITH_FLAGS (R69). -/
def fInexact : Nat := 16

/-- The canonical NaN of FP32 (R58). -/
def nan32 : Nat := 0x7FC00000

/-- The exact value of an FP32 word. -/
def dec32 (w : Nat) : Num := Fmt.fp32.decode false w

/-- Whether an FP32 word is a signalling NaN (R68). -/
def isSNan (w : Nat) : Bool :=
  match dec32 w with
  | .nan _ => !(bit w 22)
  | _ => false

/-- Whether an FP32 word is a NaN. -/
def isNan32 (w : Nat) : Bool :=
  match dec32 w with
  | .nan _ => true
  | _ => false

/-- Round an exact value to FP32 by round-to-nearest-even with the IEEE 754 flags; tininess is detected after rounding
(R68). -/
def enc32 (x : Num) : Nat × Nat :=
  let sign (neg : Bool) : Nat := if neg then 0x80000000 else 0
  match x with
  | .nan _ => (nan32, 0)
  | .inf neg => (0x7F800000 + sign neg, 0)
  | .fin neg m e =>
    if m = 0 then (sign neg, 0)
    else
      let (c, inexact) := Fmt.fp32.roundCode .rne m e
      if 0x7F7FFFFF < c then (0x7F800000 + sign neg, fOverflow + fInexact)
      else
        let q : Int := (Nat.log2 m : Int) + e - 23
        let n := (roundMag .rne m (e - q)).1
        let top : Int := if 2 ^ 24 ≤ n then q + 24 else q + 23
        let tiny := decide (top < -126)
        (c + sign neg, (if inexact then fInexact else 0) + (if inexact && tiny then fUnderflow else 0))

/-- Run an FP32 operation whose result on numbers is `f`: a NaN input gives the canonical NaN, a signalling one raises
INVALID (R68). -/
def nanGuard (ws : List Nat) (f : Nat × Nat) : Nat × Nat :=
  if ws.any isNan32 then (nan32, if ws.any isSNan then fInvalid else 0) else f

/-- A result that is NaN although no input is: the operation is invalid (clause 7.2). -/
def encOrInvalid (x : Num) : Nat × Nat :=
  match x with
  | .nan _ => (nan32, fInvalid)
  | _ => enc32 x

/-- FP32 addition (R68). -/
def fadd (a b : Nat) : Nat × Nat := nanGuard [a, b] (encOrInvalid ((dec32 a).add (dec32 b)))
/-- FP32 subtraction (R68). -/
def fsub (a b : Nat) : Nat × Nat := nanGuard [a, b] (encOrInvalid ((dec32 a).add (dec32 b).neg))
/-- FP32 multiplication (R68). -/
def fmul (a b : Nat) : Nat × Nat := nanGuard [a, b] (encOrInvalid ((dec32 a).mul (dec32 b)))
/-- FP32 fused multiply-add, rounded once (R68). An infinity times zero raises INVALID whatever the addend, a quiet NaN
included, where clause 7.2 of IEEE 754-2019 leaves the choice (DESIGN CHOICE, log entry 65). -/
def ffma (a b c : Nat) : Nat × Nat :=
  let p := (dec32 a).mul (dec32 b)
  if isNan32 a || isNan32 b then nanGuard [a, b, c] (0, 0)
  else
    match p with
    | .nan _ => (nan32, fInvalid)
    | _ => nanGuard [c] (encOrInvalid (p.add (dec32 c)))

/-- FP32 division, correctly rounded (R68, R87). -/
def fdiv (a b : Nat) : Nat × Nat :=
  nanGuard [a, b]
    (match dec32 a, dec32 b with
    | .inf _, .inf _ => (nan32, fInvalid)
    | .inf s, .fin t _ _ => enc32 (.inf (s != t))
    | .fin s _ _, .inf t => enc32 (.fin (s != t) 0 0)
    | .fin s m e, .fin t n f =>
      if n = 0 then
        if m = 0 then (nan32, fInvalid) else ((enc32 (.inf (s != t))).1, fDivZero)
      else
        let q := m * 2 ^ 64 / n
        let sticky := b2n (m * 2 ^ 64 % n != 0)
        enc32 (.fin (s != t) (2 * q + sticky) (e - f - 65))
    | _, _ => (nan32, 0))

/-- The square root of a positive value m × 2^e as a value with a sticky last bit. -/
def sqrtNum (m : Nat) (e : Int) : Num :=
  let odd : Nat := (e % 2).toNat
  let n := m * 2 ^ (odd + 80)
  let r := isqrt n
  .fin false (2 * r + b2n (r * r != n)) ((e - odd - 80) / 2 - 1)

/-- FP32 square root, correctly rounded (R68, R87). -/
def fsqrt (a : Nat) : Nat × Nat :=
  nanGuard [a]
    (match dec32 a with
    | .inf s => if s then (nan32, fInvalid) else enc32 (.inf false)
    | .fin s m e =>
      if m = 0 then enc32 (.fin s 0 0) else if s then (nan32, fInvalid) else enc32 (sqrtNum m e)
    | .nan _ => (nan32, 0))

/-- FP32 quiet comparison by a test on the two values: all-ones or zero; INVALID only for a signalling NaN (R68). -/
def fcmp (t : Num → Num → Bool) (a b : Nat) : Nat × Nat :=
  (if t (dec32 a) (dec32 b) then 0xFFFFFFFF else 0, if isSNan a || isSNan b then fInvalid else 0)

/-- Order of two FP32 numbers for minimum and maximum, −0 below +0. -/
def ltSigned (a b : Nat) : Bool :=
  (dec32 a).lt (dec32 b) || ((dec32 a).eqv (dec32 b) && bit a 31 && !(bit b 31))

/-- FP32 minimum: any NaN input gives the canonical NaN (R68); −0 is below +0. -/
def fmin (a b : Nat) : Nat × Nat := nanGuard [a, b] (if ltSigned b a then b else a, 0)
/-- FP32 maximum: any NaN input gives the canonical NaN (R68); +0 is above −0. -/
def fmax (a b : Nat) : Nat × Nat := nanGuard [a, b] (if ltSigned a b then b else a, 0)

/-- CVT_F2I: to the nearest integer, ties to even, saturating; a NaN gives 0; both a NaN and a saturated result set
INVALID (R122). -/
def cvtF2i (a : Nat) : Nat × Nat :=
  match dec32 a with
  | .nan _ => (0, fInvalid)
  | .inf s => (if s then 0x80000000 else 0x7FFFFFFF, fInvalid)
  | .fin s m e =>
    let (c, f) := encodeInt 32 .rne (.fin s m e)
    (c, if f = 0 then 0 else fInvalid)

/-- CVT_I2F: the signed integer rounded to FP32 (R122, R68). -/
def cvtI2f (a : Nat) : Nat × Nat := enc32 (Num.ofInt (sext 32 a) 0)

end Sys2Proof.Machine
end

