-- ==== Sys2Proof/Machine/Functions.lean ====
section
/-! DEFINITION. The vector functions of R87. Which result within its bound a function returns the spec leaves open, so a
result is the free value Config.vecFn where that lies within the bound, and the nearest value otherwise (log entry 9).
The exact value is computed in fixed point with 400 fraction bits, far below the bounds. -/

namespace Sys2Proof.Machine

/-- Fraction bits of the fixed-point reference. -/
def fxBits : Nat := 400
/-- 1 in fixed point. -/
def fxOne : Int := 2 ^ fxBits
/-- Product in fixed point. -/
def fxMul (a b : Int) : Int := a * b / fxOne
/-- Quotient in fixed point. -/
def fxDiv (a b : Int) : Int := a * fxOne / b

/-- A finite value in fixed point; FP32 values are multiples of 2^−149. -/
def toFx (x : Num) : Int := x.toInt (-400)
/-- A fixed-point value as an exact one. -/
def ofFx (v : Int) : Num := Num.ofInt v (-400)

/-- Taylor sum: `n` terms from `term` at index k, each the previous times `ratio k`. -/
def taylor (n k : Nat) (term acc : Int) (ratio : Nat → Int → Int) : Int :=
  match n with
  | 0 => acc
  | m + 1 => taylor m (k + 1) (ratio k term) (acc + term) ratio

/-- e^x for 0 ≤ x < 1 in fixed point. -/
def fxExpSmall (x : Int) : Int := taylor 110 1 fxOne 0 fun k t => fxMul t x / (k : Int)

/-- The arc tangent or area tangent series at z: z − z³/3 + … with sign −1 or +1. -/
def fxAtan (sign : Int) (z : Int) : Int :=
  let z2 := fxMul z z
  let rec go (n k : Nat) (p acc : Int) : Int :=
    match n with
    | 0 => acc
    | m + 1 => go m (k + 2) (sign * fxMul p z2) (acc + p / (k : Int))
  go 140 1 z 0

/-- ln 2 in fixed point. -/
def fxLn2 : Int := 2 * fxAtan 1 (fxOne / 3)
/-- π in fixed point. -/
def fxPi : Int := 16 * (taylorAtan 5) - 4 * (taylorAtan 239)
where
  /-- arctan(1/n) by its series. -/
  taylorAtan (n : Nat) : Int :=
    let rec go (f k : Nat) (p acc : Int) : Int :=
      match f with
      | 0 => acc
      | m + 1 => go m (k + 2) (-(p / ((n * n : Nat) : Int))) (acc + p / (k : Int))
    go 100 1 (fxOne / (n : Int)) 0

/-- 2^x of a fixed-point x between −600 and 600, as an exact value. -/
def exp2Num (x : Int) : Num :=
  let n := x / fxOne
  let f := x - n * fxOne
  let r := if f = 0 then fxOne else fxExpSmall (fxMul f fxLn2)
  Num.ofInt r (n - 400)

/-- e^x in fixed point for x at most 200; 0 below −270. -/
def fxExp (x : Int) : Int :=
  if x < -270 * fxOne then 0
  else if x = 0 then fxOne
  else
    match exp2Num (fxDiv x fxLn2) with
    | .fin _ m e => if -400 ≤ e then (m * 2 ^ (e + 400).toNat : Nat) else (m / 2 ^ (-400 - e).toNat : Nat)
    | _ => 0

/-- The natural logarithm of a positive value in fixed point, and its exponent part: ln m with 1 ≤ m < 2, and k. -/
def lnParts (m : Nat) (e : Int) : Int × Int :=
  let l := Nat.log2 m
  let mant : Int := m * fxOne / 2 ^ l
  (2 * fxAtan 1 (fxDiv (mant - fxOne) (mant + fxOne)), (l : Int) + e)

/-- sin and cos by series for |r| below 1. -/
def fxSinSmall (r : Int) : Int := taylor 60 1 r 0 fun k t => -(fxMul (fxMul t r) r / ((2 * k : Nat) * (2 * k + 1 : Nat) : Int))
def fxCosSmall (r : Int) : Int :=
  taylor 60 1 fxOne 0 fun k t => -(fxMul (fxMul t r) r / ((2 * k - 1 : Nat) * (2 * k : Nat) : Int))

/-- sin of a fixed-point x plus `quarter` right angles, with full argument reduction. -/
def fxSin (x : Int) (quarter : Int) : Int :=
  let half := fxPi / 2
  let q := (x + half / 2) / half
  let r := x - q * half
  match (q + quarter) % 4 with
  | 0 => fxSinSmall r
  | 1 => fxCosSmall r
  | 2 => -(fxSinSmall r)
  | _ => -(fxCosSmall r)

/-- The integer square root of a fixed-point value, as fixed point. -/
def fxSqrt (v : Nat) : Nat :=
  let n := v * 2 ^ fxBits
  let rec go (k r : Nat) : Nat :=
    match k with
    | 0 => r
    | j + 1 => go j (if (r + 2 ^ j) * (r + 2 ^ j) ≤ n then r + 2 ^ j else r)
  go 420 0

/-- erf in fixed point; its distance from ±1 is below any bound beyond 12. -/
def fxErf (x : Int) : Int :=
  if 12 * fxOne < x then fxOne
  else if x < -12 * fxOne then -fxOne
  else
    let x2 := fxMul x x
    let rec go (f k : Nat) (p acc : Int) : Int :=
      match f with
      | 0 => acc
      | m + 1 => go m (k + 1) (-(fxMul p x2 / ((k + 1 : Nat) : Int))) (acc + p / ((2 * k + 1 : Nat) : Int))
    fxDiv (2 * go 700 0 x 0) (fxSqrt fxPi.toNat : Nat)

/-- ulp of an exact value, as an exponent of two (R87). -/
def ulpExp (x : Num) : Int :=
  match x.log2 with
  | none => -149
  | some l => if -126 ≤ l then l - 23 else -149

/-- Whether a value lies within n ulp of the exact one (R87). -/
def withinUlp (n : Nat) (v exact : Num) : Bool :=
  match v, exact with
  | .fin _ _ _, .fin _ _ _ =>
    let d := v.add exact.neg
    match d with
    | .fin _ m e => !((Num.fin false n (ulpExp exact)).lt (.fin false m e))
    | _ => false
  | _, _ => false

/-- The result of a function for a finite exact value: the free value within the bound, else the nearest one; the flags
are those of rounding the exact value (R68, R87). -/
def bounded (op n : Nat) (w : Nat) (exact : Num) : Nat × Nat :=
  let near := enc32 exact
  let free := Config.vecFn op w % 2 ^ 32
  if (dec32 near.1).isFin then ((if withinUlp n (dec32 free) exact then free else near.1), near.2) else near

/-- A function of a NaN input, or by its values at finite and infinite inputs. -/
def vecUnary (w : Nat) (fin : Bool → Nat → Int → Nat × Nat) (inf : Bool → Nat × Nat) : Nat × Nat :=
  nanGuard [w]
    (match dec32 w with
    | .fin neg m e => fin neg m e
    | .inf neg => inf neg
    | .nan _ => (nan32, 0))

/-- An FP32 word of ±∞, ±0, ±1 and the invalid result. -/
def inf32 (neg : Bool) : Nat := if neg then 0xFF800000 else 0x7F800000
def zero32 (neg : Bool) : Nat := if neg then 0x80000000 else 0
def one32 (neg : Bool) : Nat := if neg then 0xBF800000 else 0x3F800000
def invalid32 : Nat × Nat := (nan32, fInvalid)

/-- Reciprocal, within 1 ulp of the exact quotient, that of a power of two included (R87; log entry 9). -/
def frcp (w : Nat) : Nat × Nat :=
  vecUnary w
    (fun neg m e => if m = 0 then (inf32 neg, fDivZero)
      else bounded 0x06 1 w (.fin neg (2 ^ 300 / m) (-e - 300)))
    (fun neg => (zero32 neg, 0))

/-- Reciprocal square root, 1 ulp. -/
def frsqrt (w : Nat) : Nat × Nat :=
  vecUnary w
    (fun neg m e => if m = 0 then (inf32 neg, fDivZero) else if neg then invalid32
      else
        let r := fxSqrt (m * 2 ^ (e % 2).toNat * 2 ^ fxBits)
        let k := e / 2
        bounded 0x07 1 w (Num.ofInt (fxDiv fxOne r) (-400 - k)))
    (fun neg => if neg then invalid32 else (0, 0))

/-- An exponential: base-2 exponent in fixed point from the value. -/
def expFn (op n : Nat) (scale : Int → Int) (w : Nat) : Nat × Nat :=
  vecUnary w
    (fun neg m e => let x := toFx (.fin neg m e)
      if m = 0 then (one32 false, 0)
      else if 200 * fxOne < x then (inf32 false, fOverflow + fInexact)
      else if x < -300 * fxOne then bounded op n w (.fin false 1 (-300))
      else bounded op n w (exp2Num (scale x)))
    (fun neg => if neg then (0, 0) else (inf32 false, 0))

def fexp2 (w : Nat) : Nat × Nat := expFn 0x08 1 id w
def fexp (w : Nat) : Nat × Nat := expFn 0x0A 2 (fun x => fxDiv x fxLn2) w

/-- A logarithm from its fixed-point value. -/
def logFn (op n : Nat) (f : Int × Int → Int) (w : Nat) : Nat × Nat :=
  vecUnary w
    (fun neg m e => if m = 0 then (inf32 true, fDivZero) else if neg then invalid32
      else
        let v := f (lnParts m e)
        if v = 0 then (0, 0) else bounded op n w (ofFx v))
    (fun neg => if neg then invalid32 else (inf32 false, 0))

def flog2 (w : Nat) : Nat × Nat := logFn 0x09 1 (fun p => fxDiv p.1 fxLn2 + p.2 * fxOne) w
def flog (w : Nat) : Nat × Nat := logFn 0x0B 2 (fun p => p.1 + p.2 * fxLn2) w

/-- tanh. -/
def ftanh (w : Nat) : Nat × Nat :=
  vecUnary w
    (fun neg m e => if m = 0 then (zero32 neg, 0)
      else
        let x := toFx (.fin false m e)
        let t := if 100 * fxOne < x then fxOne - 1
          else let E := fxExp (-2 * x); fxDiv (fxOne - E) (fxOne + E)
        bounded 0x0C 2 w (ofFx (if neg then -t else t)))
    (fun neg => (one32 neg, 0))

/-- The logistic sigmoid in fixed point. -/
def fxSigmoid (x : Int) : Int :=
  if 0 ≤ x then fxDiv fxOne (fxOne + fxExp (-x)) else let E := fxExp x; fxDiv E (fxOne + E)

/-- A fixed-point value that is never 0, for a result below the smallest subnormal. -/
def tiny (neg : Bool) (v : Int) : Num := if v = 0 then .fin neg 1 (-300) else ofFx v

def fsigmoid (w : Nat) : Nat × Nat :=
  vecUnary w
    (fun neg m e => bounded 0x0D 2 w (tiny false (fxSigmoid (toFx (.fin neg m e)))))
    (fun neg => if neg then (0, 0) else (one32 false, 0))

/-- SiLU; at −∞ the spec states no value (log entry 9). -/
def fsilu (w : Nat) : Nat × Nat :=
  vecUnary w
    (fun neg m e => if m = 0 then (zero32 neg, 0)
      else
        let x := toFx (.fin neg m e)
        bounded 0x0E 3 w (tiny neg (fxMul x (fxSigmoid x))))
    (fun neg => if neg then (Config.vecFn 0x0E w % 2 ^ 32, 0) else (inf32 false, 0))

/-- erf. -/
def ferf (w : Nat) : Nat × Nat :=
  vecUnary w
    (fun neg m e => if m = 0 then (zero32 neg, 0)
      else
        let x := toFx (.fin neg m e)
        let v := if 5 * fxOne < x then fxOne - 1 else if x < -5 * fxOne then 1 - fxOne else fxErf x
        bounded 0x0F 2 w (ofFx v))
    (fun neg => (one32 neg, 0))

/-- GELU, erf form: x/2 × (1 + erf(x/√2)); at −∞ the spec states no value (log entry 9). -/
def fgelu (w : Nat) : Nat × Nat :=
  vecUnary w
    (fun neg m e => if m = 0 then (zero32 neg, 0)
      else
        let x := toFx (.fin neg m e)
        let root2 : Int := (fxSqrt (2 * fxOne.toNat) : Nat)
        let v := if x < -16 * fxOne then 0 else fxMul x (fxOne + fxErf (fxDiv x root2)) / 2
        bounded 0x10 3 w (tiny neg v))
    (fun neg => if neg then (Config.vecFn 0x10 w % 2 ^ 32, 0) else (inf32 false, 0))

/-- Sine and cosine of every finite input. -/
def fsin (w : Nat) : Nat × Nat :=
  vecUnary w
    (fun neg m e => if m = 0 then (zero32 neg, 0) else bounded 0x11 2 w (ofFx (fxSin (toFx (.fin neg m e)) 0)))
    (fun _ => invalid32)
def fcos (w : Nat) : Nat × Nat :=
  vecUnary w
    (fun neg m e => if m = 0 then (one32 false, 0) else bounded 0x12 2 w (ofFx (fxSin (toFx (.fin neg m e)) 1)))
    (fun _ => invalid32)

end Sys2Proof.Machine
end

