-- ==== Sys2Proof/Machine/Protect.lean ====
section
/-! DEFINITION. The protection of a memory line: the Reed-Solomon codes of R151 and R152 over GF(2^8), AES-256 in XTS (R153)
and the GHASH tag (R154), with the outcome of a read by the symbols it finds changed (R157). The codes and GHASH are linear,
so what a decoder and a tag check find depends only on the change, and no read needs the stored codeword itself. -/

namespace Sys2Proof.Machine

/-! GF(2^8) -/

/-- Multiply by x in GF(2^8) with a field polynomial of degree 8. -/
def gfDouble (poly a : Nat) : Nat := if a < 128 then 2 * a else (2 * a) ^^^ poly

/-- The product of two field elements: the bits of b from the highest. -/
def gfMul (poly a b : Nat) : Nat :=
  [7, 6, 5, 4, 3, 2, 1, 0].foldl (fun r i => if bit b i then gfDouble poly r ^^^ a else gfDouble poly r) 0

/-- The inverse, a^254; 0 has the inverse 0. -/
def gfInv (poly a : Nat) : Nat :=
  ((List.range 7).foldl (fun x _ => (gfMul poly x.1 x.1, gfMul poly x.2 (gfMul poly x.1 x.1))) (a, 1)).2

/-- The field polynomial of R152: x^8 + x^4 + x^3 + x^2 + 1. -/
def rsPoly : Nat := 0x11D

/-- A power of the primitive element 0x02 (R152). -/
def rsExp (n : Nat) : Nat :=
  match n with
  | 0 => 1
  | k + 1 => gfDouble rsPoly (rsExp k)

/-! Reed-Solomon codes of R151 and R152: a codeword is c(x), its symbol i the coefficient of x^i, its check symbols the lowest -/

/-- The generator polynomial with roots α^0 to α^(r − 1), lowest coefficient first (R152). -/
def rsGen (r : Nat) : List Nat :=
  (List.range r).foldl (fun g i => List.zipWith Nat.xor (0 :: g) ((g.map fun c => gfMul rsPoly c (rsExp i)) ++ [0])) [1]

/-- The check symbols c_(r−1) to c_0 of message symbols given highest first: the remainder of the division by g(x)
(R152). -/
def rsCheck (r : Nat) (msg : List Nat) : List Nat :=
  let g := ((rsGen r).take r).reverse
  msg.foldl (fun rem m =>
    let q := m ^^^ rem.headD 0
    List.zipWith Nat.xor (rem.drop 1 ++ [0]) (g.map fun c => gfMul rsPoly q c)) (List.replicate r 0)

/-- A change of a codeword: the symbols changed, each with the XOR of its change. -/
abbrev SymErrs := List (Nat × Byte)

/-- The syndromes S_0 to S_(r−1) of a change (R152). -/
def syndromes (r : Nat) (e : SymErrs) : List Nat :=
  (List.range r).map fun j => e.foldl (fun a x => a ^^^ gfMul rsPoly x.2.toNat (rsExp (x.1 * j % 255))) 0

/-- Solve a square linear system over the field by elimination: rows of coefficients with the constant last; none where it
is singular. -/
def gfSolve (n : Nat) (pivots rest : List (List Nat)) : Option (List Nat) :=
  match n with
  | 0 => some (pivots.map fun r => r.headD 0)
  | k + 1 =>
    match rest.findIdx? fun r => r.headD 0 != 0 with
    | none => none
    | some i =>
      let p := rest.getD i []
      let d := gfInv rsPoly (p.headD 0)
      let p := p.map fun c => gfMul rsPoly c d
      let sub (r : List Nat) : List Nat := (List.zipWith (fun a b => a ^^^ gfMul rsPoly (r.headD 0) b) r p).drop 1
      gfSolve k (pivots.map sub ++ [p.drop 1]) ((rest.eraseIdx i).map sub)

/-- The correction of exactly t symbols of a codeword of n symbols that gives syndromes s, if there is one: error locator,
its roots, and the values. -/
def rsTry (n : Nat) (s : List Nat) (t : Nat) : Option SymErrs :=
  match gfSolve t [] ((List.range t).map fun i =>
      ((List.range t).map fun j => s.getD (t + i - 1 - j) 0) ++ [s.getD (t + i) 0]) with
  | none => none
  | some l =>
    let root (p : Nat) : Bool :=
      ((List.range t).foldl (fun a j => a ^^^ gfMul rsPoly (l.getD j 0) (rsExp ((255 - p % 255) * (j + 1) % 255))) 1) == 0
    let ps := (List.range n).filter root
    if ps.length ≠ t then none
    else
      match gfSolve t [] ((List.range t).map fun j => (ps.map fun p => rsExp (p * j % 255)) ++ [s.getD j 0]) with
      | none => none
      | some v =>
        let c : SymErrs := ps.zip (v.map (BitVec.ofNat 8))
        if syndromes s.length c == s then some c else none

/-- Decode a changed codeword of n symbols with r check symbols: the symbols corrected, at most ⌊r / 2⌋ of them, or none
where it is uncorrectable (R152). -/
def rsDecode (n r : Nat) (e : SymErrs) : Option SymErrs :=
  let s := syndromes r e
  if s.all fun x => x == 0 then some []
  else (List.range (r / 2)).findSome? fun t => rsTry n s (t + 1)

/-- What is left of a change after a correction: the XOR at each symbol, highest symbol first. -/
def leftOver (n : Nat) (e c : SymErrs) : List Nat :=
  (List.range n).map fun i =>
    ((e ++ c).filter fun x => x.1 == n - 1 - i).foldl (fun a x => a ^^^ x.2.toNat) 0

/-! AES-256 (R153, R154) -/

/-- The field polynomial of AES. -/
def aesPoly : Nat := 0x11B

/-- The substitution of one byte. -/
def aesSub (a : Nat) : Nat :=
  let b := gfInv aesPoly a
  let rot (k : Nat) : Nat := b * 2 ^ k % 256 + b / 2 ^ (8 - k)
  b ^^^ rot 1 ^^^ rot 2 ^^^ rot 3 ^^^ rot 4 ^^^ 0x63

/-- The inverse substitution. -/
def aesUnsub (a : Nat) : Nat :=
  let rot (k : Nat) : Nat := a * 2 ^ k % 256 + a / 2 ^ (8 - k)
  gfInv aesPoly (rot 1 ^^^ rot 3 ^^^ rot 6 ^^^ 0x05)

/-- XOR of two byte strings. -/
def xorNats (a b : List Nat) : List Nat := List.zipWith Nat.xor a b

/-- The i-th group of n of a list. -/
def chunk {α : Type} (n i : Nat) (l : List α) : List α := (l.drop (n * i)).take n

/-- The 60 words of the key schedule of a 32-byte key, latest first. -/
def aesWords (key : List Nat) : List (List Nat) :=
  (List.range 52).foldl (fun ws k =>
    let i := k + 8
    let prev := ws.headD []
    let t := if i % 8 = 0 then
        let x := (prev.drop 1 ++ prev.take 1).map aesSub
        xorNats x [(List.range (i / 8 - 1)).foldl (fun c _ => gfDouble aesPoly c) 1, 0, 0, 0]
      else if i % 8 = 4 then prev.map aesSub else prev
    xorNats (ws.getD 7 []) t :: ws) ((List.range 8).map fun i => chunk 4 i key).reverse

/-- The 15 round keys of 16 bytes. -/
def aesKeys (key : List Nat) : List (List Nat) :=
  let ws := (aesWords key).reverse
  (List.range 15).map fun i => (chunk 4 i ws).flatten

/-- Rows of the block shift: byte r + 4c takes byte r + 4(c + r). -/
def aesShift (b : List Nat) : List Nat := (List.range 16).map fun i => b.getD ((i + 4 * (i % 4)) % 16) 0

/-- The inverse shift. -/
def aesUnshift (b : List Nat) : List Nat := (List.range 16).map fun i => b.getD ((i + 16 - 4 * (i % 4)) % 16) 0

/-- Each column is multiplied by a circulant matrix with first row m. -/
def aesMix (m b : List Nat) : List Nat :=
  (List.range 16).map fun i =>
    (List.range 4).foldl (fun a k => a ^^^ gfMul aesPoly (m.getD ((k + 4 - i % 4) % 4) 0) (b.getD (i / 4 * 4 + k) 0)) 0

/-- AES-256 encryption of a 16-byte block (FIPS 197). -/
def aes256 (key blk : List Nat) : List Nat :=
  let ks := aesKeys key
  let b := (List.range 13).foldl (fun b i => xorNats (aesMix [2, 3, 1, 1] (aesShift (b.map aesSub))) (ks.getD (i + 1) []))
    (xorNats blk (ks.getD 0 []))
  xorNats (aesShift (b.map aesSub)) (ks.getD 14 [])

/-- AES-256 decryption of a 16-byte block. -/
def aes256Inv (key blk : List Nat) : List Nat :=
  let ks := aesKeys key
  let b := (List.range 13).foldl (fun b i =>
    aesMix [14, 11, 13, 9] (xorNats ((aesUnshift b).map aesUnsub) (ks.getD (13 - i) []))) (xorNats blk (ks.getD 14 []))
  xorNats ((aesUnshift b).map aesUnsub) (ks.getD 0 [])

/-! The line: XTS (R153) and the tag (R154) -/

/-- The keys of a memory key slot: XTS key 1, XTS key 2 and k_tag, 32 bytes each (R478). -/
structure LineKeys where
  data : List Nat
  tweak : List Nat
  tag : List Nat
  deriving DecidableEq, Repr

/-- The bytes of a number, lowest first. -/
def leBytes (n v : Nat) : List Nat := (toLe n v).map BitVec.toNat

/-- The number that bytes spell, lowest first. -/
def leNum (bs : List Nat) : Nat := bs.foldr (fun b a => b + 256 * a) 0

/-- Multiply a 128-bit tweak by α (IEEE 1619). -/
def xtsDouble (t : Nat) : Nat := if t < 2 ^ 127 then 2 * t else (2 * t % 2 ^ 128) ^^^ 0x87

/-- XTS of a 64-byte line, its tweak the line number MPA >> 6, by a block cipher (R153). -/
def xtsLine (f : List Nat → List Nat) (k : LineKeys) (mpa : Nat) (bs : List Nat) : List Nat :=
  ((List.range 4).foldl (fun x j =>
    let t := leBytes 16 x.2
    (x.1 ++ xorNats (f (xorNats (chunk 16 j bs) t)) t, xtsDouble x.2))
    (([] : List Nat), leNum (aes256 k.tweak (leBytes 16 (mpa / 64))))).1

/-- The ciphertext of a line (R153). -/
def lineCipher (k : LineKeys) (mpa : Nat) (plain : List Nat) : List Nat := xtsLine (aes256 k.data) k mpa plain
/-- The plaintext of a line (R153). -/
def linePlain (k : LineKeys) (mpa : Nat) (cipher : List Nat) : List Nat := xtsLine (aes256Inv k.data) k mpa cipher

/-- The product of GHASH (NIST SP 800-38D): a block is a number whose highest bit comes first. -/
def ghashMul (x y : Nat) : Nat :=
  ((List.range 128).foldl (fun zv i =>
    (if bit x (127 - i) then zv.1 ^^^ zv.2 else zv.1,
      if bit zv.2 0 then zv.2 / 2 ^^^ 0xE1 * 2 ^ 120 else zv.2 / 2)) (0, y)).1

/-- The number of a block, first byte highest. -/
def beNum (bs : List Nat) : Nat := bs.foldl (fun a b => 256 * a + b) 0

/-- The GHASH of four blocks, as bytes (R154). -/
def ghash (h : Nat) (c : List Nat) : List Nat :=
  let y := (List.range 4).foldl (fun y j => ghashMul (y ^^^ beNum (chunk 16 j c)) h) 0
  (leBytes 16 y).reverse

/-- The hash key h of R154. -/
def hashKey (k : LineKeys) : Nat := beNum (aes256 k.tag (List.replicate 16 0))

/-- The 7 tag bytes of a ciphertext, bits [7:0] first (R154); the block is read as a little-endian number, byte 0 holding bits
[7:0] (DEDUCED, log entry 59). -/
def lineTag (k : LineKeys) (mpa : Nat) (cipher : List Nat) : List Nat :=
  (xorNats (ghash (hashKey k) cipher) (aes256 k.tag (leBytes 8 (mpa / 64) ++ List.replicate 8 0))).take 7

/-- The 76 symbols of a stored line, c_75 first: 64 data bytes, 7 tag bytes, 5 check symbols (R152). -/
def lineWord (k : LineKeys) (mpa : Nat) (plain : List Nat) : List Nat :=
  let c := lineCipher k mpa plain
  let m := c ++ lineTag k mpa c
  m ++ rsCheck 5 m

/-- The check storage of a stored line: check symbols c_4 to c_0 and tag bits [23:0] (R150). -/
def checkStorage (w : List Nat) : List Nat := (w.drop 71).take 5 ++ (w.drop 64).take 3
/-- The reserve bytes of a stored line: tag bits [55:24] (R150). -/
def reserveBytes (w : List Nat) : List Nat := (w.drop 67).take 4

/-- The tag line of a unit offset, from unit offset U = the usable size, and its bytes there (R150). -/
def tagPlace (size x : Nat) : Nat × Nat := (size + x / 1024 * 64, x / 64 % 16 * 4)

/-- Whether the tag of a line still agrees when its codeword differs by a change: by the linearity of GHASH, when the hash of
the change of the data is the change of the tag (R154, R155). -/
def tagAgrees (k : LineKeys) (left : List Nat) : Bool :=
  (ghash (hashKey k) (left.take 64)).take 7 == (left.drop 64).take 7

end Sys2Proof.Machine
end

