-- ==== Sys2Proof/Machine/Hash.lean ====
section
/-! DEFINITION. The hash and the key derivations of R478 to R485: SHAKE256 (FIPS 202), the strings it is given, the start-up
fabric key, and the key unwrap of RFC 3394. -/

namespace Sys2Proof.Machine

/-! SHAKE256 (FIPS 202): the state is 25 lanes of 64 bits, lane (x, y) at x + 5y -/

/-- Rotate a lane left. -/
def rotLane (a n : Nat) : Nat := a * 2 ^ n % 2 ^ 64 + a / 2 ^ (64 - n)

/-- The rotation of each lane. -/
def laneShift : List Nat :=
  [0, 1, 62, 28, 27, 36, 44, 6, 55, 20, 3, 10, 43, 25, 39, 41, 45, 15, 21, 8, 18, 2, 61, 56, 14]

/-- Step theta: each lane is mixed with the parities of two columns. -/
def keccakTheta (a : List Nat) : List Nat :=
  let lane (i : Nat) : Nat := a.getD i 0
  let c := (List.range 5).map fun x => lane x ^^^ lane (x + 5) ^^^ lane (x + 10) ^^^ lane (x + 15) ^^^ lane (x + 20)
  (List.range 25).map fun i => lane i ^^^ c.getD ((i + 4) % 5) 0 ^^^ rotLane (c.getD ((i + 1) % 5) 0) 1

/-- Steps rho and pi: each lane is rotated and moved. -/
def keccakMove (a : List Nat) : List Nat :=
  (List.range 25).map fun i =>
    let j := (i % 5 + 3 * (i / 5)) % 5 + 5 * (i % 5)
    rotLane (a.getD j 0) (laneShift.getD j 0)

/-- Step chi: each lane takes a product of the next two of its row. -/
def keccakChi (a : List Nat) : List Nat :=
  (List.range 25).map fun i =>
    let at_ (k : Nat) : Nat := a.getD (i / 5 * 5 + (i + k) % 5) 0
    at_ 0 ^^^ ((at_ 1 ^^^ (2 ^ 64 - 1)) &&& at_ 2)

/-- The round constants. -/
def roundConsts : List Nat :=
  [0x0000000000000001, 0x0000000000008082, 0x800000000000808A, 0x8000000080008000, 0x000000000000808B, 0x0000000080000001,
   0x8000000080008081, 0x8000000000008009, 0x000000000000008A, 0x0000000000000088, 0x0000000080008009, 0x000000008000000A] ++
  [0x000000008000808B, 0x800000000000008B, 0x8000000000008089, 0x8000000000008003, 0x8000000000008002, 0x8000000000000080,
   0x000000000000800A, 0x800000008000000A, 0x8000000080008081, 0x8000000000008080, 0x0000000080000001, 0x8000000080008008]

/-- The permutation of 24 rounds. -/
def keccak (a : List Nat) : List Nat :=
  roundConsts.foldl (fun a c =>
    let b := keccakChi (keccakMove (keccakTheta a))
    (b.headD 0 ^^^ c) :: b.drop 1) a

/-- The message padded to whole blocks of 136 bytes. -/
def shakePad (m : List Byte) : List Byte :=
  let q := 136 - m.length % 136
  if q = 1 then m ++ [0x9F] else m ++ [0x1F] ++ List.replicate (q - 2) 0 ++ [0x80]

/-- Absorb n blocks. -/
def absorb (n : Nat) (a : List Nat) (m : List Byte) : List Nat :=
  match n with
  | 0 => a
  | k + 1 => absorb k (keccak (List.zipWith Nat.xor a
      (((List.range 17).map fun i => leAt m (8 * i) 8) ++ List.replicate 8 0))) (m.drop 136)

/-- Squeeze n blocks. -/
def squeeze (n : Nat) (a : List Nat) : List Byte :=
  match n with
  | 0 => []
  | k + 1 => (a.take 17).flatMap (fun x => toLe 8 x) ++ squeeze k (keccak a)

/-- The first n bytes of the SHAKE256 output of a message (R478). -/
@[irreducible] def shake256 (n : Nat) (m : List Byte) : List Byte :=
  let p := shakePad m
  (squeeze ((n + 135) / 136) (absorb (p.length / 136) (List.replicate 25 0) p)).take n

/-! Strings and keys (R478) -/

/-- The bytes of an ASCII string (R478). -/
def ascii (x : String) : List Byte := x.toList.map fun c => BitVec.ofNat 8 c.toNat
/-- The bytes of a key. -/
def keyBytes (k : Key) : List Byte := toLe 32 k.toNat
/-- The key that 32 bytes spell. -/
def keyOf (b : List Byte) : Key := BitVec.ofNat 256 (ofLe (b.take 32))

/-- The keys of memory slot k at a generation, or of slot 16 at a boot count (R478). -/
def slotKeys (k g : Nat) : LineKeys :=
  let x := (shake256 96 (ascii "VXK-MEM" ++ keyBytes Config.kRoot ++ toLe 1 k ++ toLe 4 g)).map BitVec.toNat
  { data := chunk 32 0 x, tweak := chunk 32 1 x, tag := chunk 32 2 x }

/-- The start-up fabric key, which is job key 0 until the commander installs one (R478). -/
def fabricKey : Key := keyOf (shake256 32 (ascii "VXK-FAB0" ++ keyBytes Config.kFleet))

/-- The link key of the direction from one module's port to another module (R485). -/
def linkKey (tx rx port txNonce rxNonce : Nat) : Key :=
  keyOf (shake256 32 (ascii "VXK-LINK" ++ keyBytes Config.kFleet ++ toLe 1 tx ++ toLe 1 rx ++ toLe 1 port ++ toLe 8 txNonce ++
    toLe 8 rxNonce))

/-! The key unwrap of RFC 3394 (R481) -/

/-- One step of the unwrap: register i of four and the check value, with the step's number. -/
def unwrapStep (key : List Nat) (x : List Nat × List (List Nat)) (t : Nat) : List Nat × List (List Nat) :=
  let i := (t - 1) % 4
  let b := aes256Inv key (xorNats x.1 (leBytes 8 t).reverse ++ x.2.getD i [])
  (b.take 8, x.2.set i (b.drop 8))

/-- The 32-byte key wrapped in 40 bytes, when it unwraps under a key (R481). -/
@[irreducible] def keyUnwrap (k : Key) (c : List Byte) : Option Key :=
  let w := c.map BitVec.toNat
  let x := ((List.range 24).reverse).foldl (fun x t => unwrapStep (leBytes 32 k.toNat) x (t + 1))
    (chunk 8 0 w, [chunk 8 1 w, chunk 8 2 w, chunk 8 3 w, chunk 8 4 w])
  if c.length = 40 ∧ x.1 = List.replicate 8 0xA6 then some (BitVec.ofNat 256 (leNum x.2.flatten)) else none

/-- The FLEET value of this module's coils (R513). -/
def fleetValue : Nat := leAt (shake256 8 (ascii "VXK-FLEET" ++ keyBytes Config.kFleet)) 0 8

/-- The content key of a coil, when its wrapped key unwraps (R513, R516). -/
def contentKey (wrapped : List Byte) : Option Key :=
  keyUnwrap (keyOf (shake256 32 (ascii "VXK-COIL" ++ keyBytes Config.kFleet))) wrapped

end Sys2Proof.Machine
end

