-- ==== Sys2Proof/Machine/RegMap.lean ====
section
/-! DEFINITION. The register map of the module (R20): the address of every register, and one row for each register of
the register lists with its address range, access type, writable bits, reset value and visibility (R21, R22). -/

namespace Sys2Proof.Machine

/-- Access types of the register lists (R10, R70). -/
inductive Access where
  | ro
  | rw
  | rc
  | wo
  | w1c
  deriving DecidableEq, Repr

/-- Who sees a register (R22): the commander session alone; every session; the partition that holds the strand of the
window; the partition that holds the hank; the partition named by the last index; that partition through the instances
of the dies that hold its hanks, the first index being the die. -/
inductive Vis where
  | commander
  | any
  | strand
  | hank
  | part
  | partDie
  deriving DecidableEq, Repr

/-- One register of a register list: the address of its first occurrence, the stride and count of each index, its
access type, the bits a write reaches, its reset value, its visibility, whether a partition that sees it may write it,
and whether it is module-wide and reads the same in every per-die instance. -/
structure RegRow where
  base : Nat
  dims : List (Nat × Nat)
  access : Access
  mask : Nat
  reset : Nat
  vis : Vis
  partWrites : Bool
  wide : Bool
  deriving DecidableEq, Repr

/-- Base of Fairlead instance f: dies 0 to 3, then the hub (R175). -/
def fldBase (f : Nat) : Nat := if f < 4 then 0x90000 + 0x4000 * f else 0x120000
/-- Base of memory instance m: dies 0 to 3, then the capacity tier (R20). -/
def memBase (m : Nat) : Nat := if m < 4 then 0xA0000 + 0x4000 * m else 0x124000

/-- GBL_DEVICE_ID (R23). -/
def Reg.gblDeviceId : Nat := 0x0
/-- GBL_SHAPE (R23). -/
def Reg.gblShape : Nat := 0x4
/-- GBL_TIME_LO (R24). -/
def Reg.gblTimeLo : Nat := 0x8
/-- GBL_TIME_HI (R24). -/
def Reg.gblTimeHi : Nat := 0xC
/-- GBL_SLOT_ID (R23). -/
def Reg.gblSlotId : Nat := 0x10
/-- GBL_STATE (R23). -/
def Reg.gblState : Nat := 0x14
/-- GBL_SCRATCH (R23). -/
def Reg.gblScratch : Nat := 0x18
/-- GBL_START_STATUS (R575). -/
def Reg.gblStartStatus : Nat := 0x20
/-- GBL_START_MS (R575). -/
def Reg.gblStartMs : Nat := 0x24
/-- GBL_START_CTRL (R575). -/
def Reg.gblStartCtrl : Nat := 0x28
/-- GBL_PINS (R575). -/
def Reg.gblPins : Nat := 0x2C
/-- GBL_DET_CTRL (R471). -/
def Reg.gblDetCtrl : Nat := 0x40
/-- GBL_DET_JOURNAL (R471). -/
def Reg.gblDetJournal : Nat := 0x44
/-- GBL_DET_PART_JRNL_LO (R471). -/
def Reg.gblDetPartJrnlLo (p : Nat) : Nat := 0x1000 + 0x40 * p
/-- GBL_DET_PART_JRNL_HI (R471). -/
def Reg.gblDetPartJrnlHi (p : Nat) : Nat := 0x1004 + 0x40 * p
/-- GBL_DET_PART_JRNL_SIZE (R471). -/
def Reg.gblDetPartJrnlSize (p : Nat) : Nat := 0x1008 + 0x40 * p
/-- GBL_DET_PART_JRNL_WR (R471). -/
def Reg.gblDetPartJrnlWr (p : Nat) : Nat := 0x100C + 0x40 * p
/-- GBL_DET_PART_JRNL_RD (R471). -/
def Reg.gblDetPartJrnlRd (p : Nat) : Nat := 0x1010 + 0x40 * p
/-- GBL_DET_PART_JRNL_DROP_COUNT (R471). -/
def Reg.gblDetPartJrnlDropCount (p : Nat) : Nat := 0x1014 + 0x40 * p
/-- GBL_DET_PART_REPLAY (R471). -/
def Reg.gblDetPartReplay (p : Nat) : Nat := 0x1018 + 0x40 * p
/-- GBL_DET_PART_TAKEN (R471). -/
def Reg.gblDetPartTaken (p : Nat) : Nat := 0x101C + 0x40 * p
/-- GBL_DET_PART_STEP_LAST_US (R471). -/
def Reg.gblDetPartStepLastUs (p : Nat) : Nat := 0x1020 + 0x40 * p
/-- GBL_DET_PART_STEP_MAX_US (R471). -/
def Reg.gblDetPartStepMaxUs (p : Nat) : Nat := 0x1024 + 0x40 * p
/-- HST_ID (R432). -/
def Reg.hstId : Nat := 0x10000
/-- HST_CTRL (R432). -/
def Reg.hstCtrl : Nat := 0x10004
/-- HST_PORT_STATE (R432). -/
def Reg.hstPortState (n : Nat) : Nat := 0x10010 + 0x40 * n
/-- HST_PORT_MAC_LO (R432). -/
def Reg.hstPortMacLo (n : Nat) : Nat := 0x10014 + 0x40 * n
/-- HST_PORT_MAC_HI (R432). -/
def Reg.hstPortMacHi (n : Nat) : Nat := 0x10018 + 0x40 * n
/-- HST_PORT_RX_COUNT (R432). -/
def Reg.hstPortRxCount (n : Nat) : Nat := 0x1001C + 0x40 * n
/-- HST_PORT_CB_ELIM_COUNT (R432). -/
def Reg.hstPortCbElimCount (n : Nat) : Nat := 0x10020 + 0x40 * n
/-- HST_PORT_QCI_DROP_COUNT (R432). -/
def Reg.hstPortQciDropCount (n : Nat) : Nat := 0x10024 + 0x40 * n
/-- HST_PORT_FCS_COUNT (R432). -/
def Reg.hstPortFcsCount (n : Nat) : Nat := 0x10028 + 0x40 * n
/-- HST_BAD_FRAME_COUNT (R432). -/
def Reg.hstBadFrameCount : Nat := 0x10100
/-- HST_AUTH_FAIL_COUNT (R432). -/
def Reg.hstAuthFailCount : Nat := 0x10104
/-- HST_DUP_COUNT (R432). -/
def Reg.hstDupCount : Nat := 0x10108
/-- HST_LATE_COUNT (R432). -/
def Reg.hstLateCount : Nat := 0x1010C
/-- HST_STALE_EPOCH_COUNT (R432). -/
def Reg.hstStaleEpochCount : Nat := 0x10110
/-- HST_QUEUE_DROP_COUNT (R432). -/
def Reg.hstQueueDropCount : Nat := 0x10114
/-- HST_EVENT_DROP_COUNT (R432). -/
def Reg.hstEventDropCount : Nat := 0x10118
/-- HST_RELAY_COUNT (R432). -/
def Reg.hstRelayCount : Nat := 0x1011C
/-- HST_PTP_STATE (R432). -/
def Reg.hstPtpState : Nat := 0x10200
/-- HST_PTP_OFFSET (R432). -/
def Reg.hstPtpOffset : Nat := 0x10204
/-- HST_PTP_CTRL (R432). -/
def Reg.hstPtpCtrl : Nat := 0x10208
/-- HST_PTP_STEP_COUNT (R432). -/
def Reg.hstPtpStepCount : Nat := 0x1020C
/-- HST_PART_STATUS (R432). -/
def Reg.hstPartStatus (p : Nat) : Nat := 0x10400 + 0x4 * p
/-- HST_PART_GEN (R432). -/
def Reg.hstPartGen (p : Nat) : Nat := 0x10440 + 0x4 * p
/-- HST_GCL (R432). -/
def Reg.hstGcl (n i : Nat) : Nat := 0x10800 + 0x100 * n + 0x4 * i
/-- HST_GCL_CTRL (R432). -/
def Reg.hstGclCtrl (n : Nat) : Nat := 0x10C00 + 0x40 * n
/-- HST_GCL_CYCLE (R432). -/
def Reg.hstGclCycle (n : Nat) : Nat := 0x10C04 + 0x40 * n
/-- HST_GCL_BASE_LO (R432). -/
def Reg.hstGclBaseLo (n : Nat) : Nat := 0x10C08 + 0x40 * n
/-- HST_GCL_BASE_HI (R432). -/
def Reg.hstGclBaseHi (n : Nat) : Nat := 0x10C0C + 0x40 * n
/-- HST_QCI_FILTER (R432). -/
def Reg.hstQciFilter (f w : Nat) : Nat := 0x11000 + 0x10 * f + 0x4 * w
/-- HST_QCI_METER (R432). -/
def Reg.hstQciMeter (m w : Nat) : Nat := 0x11400 + 0x10 * m + 0x4 * w
/-- SPL_COMMIT (R433). -/
def Reg.splCommit : Nat := 0x20000
/-- SPL_RESULT (R433). -/
def Reg.splResult : Nat := 0x20004
/-- SPL_PENDING_LO (R433). -/
def Reg.splPendingLo : Nat := 0x20008
/-- SPL_PENDING_HI (R433). -/
def Reg.splPendingHi : Nat := 0x2000C
/-- PWR_ID (R542). -/
def Reg.pwrId : Nat := 0x30000
/-- PWR_AON_CTRL (R542). -/
def Reg.pwrAonCtrl : Nat := 0x30004
/-- PWR_AON_STATUS (R542). -/
def Reg.pwrAonStatus : Nat := 0x30008
/-- PWR_BROWNOUT_COUNT (R542). -/
def Reg.pwrBrownoutCount : Nat := 0x3000C
/-- PWR_SAVE_ECC_COUNT (R542). -/
def Reg.pwrSaveEccCount : Nat := 0x30010
/-- PWR_DOM_CTRL (R542). -/
def Reg.pwrDomCtrl (n : Nat) : Nat := 0x30100 + 0x4 * n
/-- PWR_DOM_STATE (R542). -/
def Reg.pwrDomState (n : Nat) : Nat := 0x30200 + 0x4 * n
/-- PWR_DOM_REFUSE_COUNT (R542). -/
def Reg.pwrDomRefuseCount (n : Nat) : Nat := 0x30300 + 0x4 * n
/-- PWR_DOM_ABORT_COUNT (R542). -/
def Reg.pwrDomAbortCount (n : Nat) : Nat := 0x30400 + 0x4 * n
/-- PWR_DOM_LAST (R542). -/
def Reg.pwrDomLast (n : Nat) : Nat := 0x30500 + 0x4 * n
/-- PWR_DOM_WAKE_US (R542). -/
def Reg.pwrDomWakeUs (n : Nat) : Nat := 0x30600 + 0x4 * n
/-- PWR_PART_EST (R542). -/
def Reg.pwrPartEst (p : Nat) : Nat := 0x30800 + 0x4 * p
/-- THM_ID (R560). -/
def Reg.thmId : Nat := 0x40000
/-- THM_REEF (R560). -/
def Reg.thmReef : Nat := 0x40004
/-- THM_CTRL (R560). -/
def Reg.thmCtrl : Nat := 0x40008
/-- THM_KEEP_WARM (R560). -/
def Reg.thmKeepWarm : Nat := 0x4000C
/-- THM_ROTATE_MS (R560). -/
def Reg.thmRotateMs : Nat := 0x40010
/-- THM_REMARGIN_CTRL (R560). -/
def Reg.thmRemarginCtrl : Nat := 0x40014
/-- THM_MODULE_EST (R560). -/
def Reg.thmModuleEst : Nat := 0x40018
/-- THM_SPLIT_FLAGS (R560). -/
def Reg.thmSplitFlags : Nat := 0x4001C
/-- THM_REEF_CHANGE_COUNT (R560). -/
def Reg.thmReefChangeCount : Nat := 0x40020
/-- THM_TRIP_COUNT (R560). -/
def Reg.thmTripCount : Nat := 0x40024
/-- THM_LAST_REMARGIN_LO (R560). -/
def Reg.thmLastRemarginLo : Nat := 0x40028
/-- THM_LAST_REMARGIN_HI (R560). -/
def Reg.thmLastRemarginHi : Nat := 0x4002C
/-- THM_SPOT (R560). -/
def Reg.thmSpot (i : Nat) : Nat := 0x40100 + 0x4 * i
/-- THM_HANK_STATE (R560). -/
def Reg.thmHankState (h : Nat) : Nat := 0x40200 + 0x4 * h
/-- THM_PART_RAMP_US (R560). -/
def Reg.thmPartRampUs (p : Nat) : Nat := 0x40300 + 0x4 * p
/-- SEC_ID (R496). -/
def Reg.secId : Nat := 0x50000
/-- SEC_CTRL (R496). -/
def Reg.secCtrl : Nat := 0x50004
/-- SEC_GEN (R496). -/
def Reg.secGen : Nat := 0x50008
/-- SEC_BOOT_COUNT (R496). -/
def Reg.secBootCount : Nat := 0x5000C
/-- SEC_FUSES (R496). -/
def Reg.secFuses : Nat := 0x50010
/-- SEC_SLOT_STATE (R496). -/
def Reg.secSlotState : Nat := 0x50014
/-- SEC_SESSIONS (R496). -/
def Reg.secSessions : Nat := 0x50018
/-- SEC_JOB_KEYS (R496). -/
def Reg.secJobKeys : Nat := 0x5001C
/-- SEC_OPEN_FAIL_COUNT (R496). -/
def Reg.secOpenFailCount : Nat := 0x50020
/-- SEC_PART_TXKEY (R496). -/
def Reg.secPartTxkey (p : Nat) : Nat := 0x50100 + 0x4 * p
/-- SEC_PART_WHIP_POS (R496). -/
def Reg.secPartWhipPos (p : Nat) : Nat := 0x50140 + 0x4 * p
/-- ATT_REPORT_COUNT (R496). -/
def Reg.attReportCount : Nat := 0x60000
/-- ATT_CERT_LEN (R496). -/
def Reg.attCertLen : Nat := 0x60004
/-- ATT_LAST_TIME_LO (R496). -/
def Reg.attLastTimeLo : Nat := 0x60008
/-- ATT_LAST_TIME_HI (R496). -/
def Reg.attLastTimeHi : Nat := 0x6000C
/-- UPD_ID (R527). -/
def Reg.updId : Nat := 0x70000
/-- UPD_STATE (R527). -/
def Reg.updState : Nat := 0x70004
/-- UPD_MIN_SVN (R527). -/
def Reg.updMinSvn : Nat := 0x70008
/-- UPD_SLOT_A_RELEASE (R527). -/
def Reg.updSlotARelease : Nat := 0x7000C
/-- UPD_SLOT_B_RELEASE (R527). -/
def Reg.updSlotBRelease : Nat := 0x70010
/-- UPD_SCHED_LO (R527). -/
def Reg.updSchedLo : Nat := 0x70014
/-- UPD_SCHED_HI (R527). -/
def Reg.updSchedHi : Nat := 0x70018
/-- UPD_RX_BLOCKS (R527). -/
def Reg.updRxBlocks : Nat := 0x7001C
/-- UPD_CONFIRM_WINDOW (R527). -/
def Reg.updConfirmWindow : Nat := 0x70020
/-- UPD_LAST_REFUSE (R527). -/
def Reg.updLastRefuse : Nat := 0x70024
/-- UPD_REFUSE_COUNT (R527). -/
def Reg.updRefuseCount : Nat := 0x70028
/-- UPD_BLOCK_FAIL_COUNT (R527). -/
def Reg.updBlockFailCount : Nat := 0x7002C
/-- UPD_ACTIVATE_COUNT (R527). -/
def Reg.updActivateCount : Nat := 0x70030
/-- UPD_FALLBACK_COUNT (R527). -/
def Reg.updFallbackCount : Nat := 0x70034
/-- UPD_PAUSE_MAX_US (R527). -/
def Reg.updPauseMaxUs : Nat := 0x70038
/-- UPD_SWITCH_DELAY_NS (R527). -/
def Reg.updSwitchDelayNs : Nat := 0x7003C
/-- UPD_LATE_HANKS (R527). -/
def Reg.updLateHanks : Nat := 0x70040
/-- LNY_ID (R512). -/
def Reg.lnyId : Nat := 0x80000
/-- LNY_STATE (R512). -/
def Reg.lnyState : Nat := 0x80004
/-- LNY_EPOCH (R512). -/
def Reg.lnyEpoch : Nat := 0x80008
/-- LNY_LEASE_DEFAULT (R512). -/
def Reg.lnyLeaseDefault : Nat := 0x8000C
/-- LNY_SEIZE_GRACE (R512). -/
def Reg.lnySeizeGrace : Nat := 0x80010
/-- LNY_EXPIRY_LO (R512). -/
def Reg.lnyExpiryLo : Nat := 0x80014
/-- LNY_EXPIRY_HI (R512). -/
def Reg.lnyExpiryHi : Nat := 0x80018
/-- LNY_LAST_HB_LO (R512). -/
def Reg.lnyLastHbLo : Nat := 0x8001C
/-- LNY_LAST_HB_HI (R512). -/
def Reg.lnyLastHbHi : Nat := 0x80020
/-- LNY_HB_MISS (R512). -/
def Reg.lnyHbMiss : Nat := 0x80024
/-- LNY_CTRL (R512). -/
def Reg.lnyCtrl : Nat := 0x80028
/-- LNY_ACQUIRE_COUNT (R512). -/
def Reg.lnyAcquireCount : Nat := 0x80030
/-- LNY_LOST_COUNT (R512). -/
def Reg.lnyLostCount : Nat := 0x80034
/-- LNY_SEIZE_COUNT (R512). -/
def Reg.lnySeizeCount : Nat := 0x80038
/-- LNY_STALE_COUNT (R512). -/
def Reg.lnyStaleCount : Nat := 0x8003C
/-- LNY_DIR_COUNT (R512). -/
def Reg.lnyDirCount : Nat := 0x80040
/-- LNY_PART_EPOCH (R512). -/
def Reg.lnyPartEpoch (p : Nat) : Nat := 0x80100 + 0x4 * p
/-- FLD_ID (R194). -/
def Reg.fldId (f : Nat) : Nat := fldBase f + 0x0
/-- FLD_CTRL (R194). -/
def Reg.fldCtrl (f : Nat) : Nat := fldBase f + 0x4
/-- FLD_STARVE_THRESH (R194). -/
def Reg.fldStarveThresh (f : Nat) : Nat := fldBase f + 0x8
/-- FLD_BG_ENABLE (R194). -/
def Reg.fldBgEnable (f : Nat) : Nat := fldBase f + 0xC
/-- FLD_STARVE_FLAGS (R194). -/
def Reg.fldStarveFlags (f : Nat) : Nat := fldBase f + 0x10
/-- FLD_STARVE_LOC (R194). -/
def Reg.fldStarveLoc (f : Nat) : Nat := fldBase f + 0x14
/-- FLD_TABLE_GEN (R194). -/
def Reg.fldTableGen (f : Nat) : Nat := fldBase f + 0x18
/-- FLD_SLOT (R194). -/
def Reg.fldSlot (f t n : Nat) : Nat := fldBase f + 0x100 + 0x100 * t + 0x4 * n
/-- FLD_PART_STARVE_COUNT (R194). -/
def Reg.fldPartStarveCount (f p : Nat) : Nat := fldBase f + 0x400 + 0x10 * p
/-- FLD_PART_PREEMPT_COUNT (R194). -/
def Reg.fldPartPreemptCount (f p : Nat) : Nat := fldBase f + 0x404 + 0x10 * p
/-- FLD_PART_MAX_WAIT_US (R194). -/
def Reg.fldPartMaxWaitUs (f p : Nat) : Nat := fldBase f + 0x408 + 0x10 * p
/-- MEM_CTL_ID (R172). -/
def Reg.memCtlId (m c : Nat) : Nat := memBase m + 0x0 + 0x1000 * c
/-- MEM_CTL_STATE (R172). -/
def Reg.memCtlState (m c : Nat) : Nat := memBase m + 0x4 + 0x1000 * c
/-- MEM_CE_COUNT (R172). -/
def Reg.memCeCount (m c : Nat) : Nat := memBase m + 0x10 + 0x1000 * c
/-- MEM_UE_COUNT (R172). -/
def Reg.memUeCount (m c : Nat) : Nat := memBase m + 0x14 + 0x1000 * c
/-- MEM_TAG_FAIL_COUNT (R172). -/
def Reg.memTagFailCount (m c : Nat) : Nat := memBase m + 0x18 + 0x1000 * c
/-- MEM_TAGC_MISS_COUNT (R172). -/
def Reg.memTagcMissCount (m c : Nat) : Nat := memBase m + 0x1C + 0x1000 * c
/-- MEM_SCRUB_CTRL (R172). -/
def Reg.memScrubCtrl (m c : Nat) : Nat := memBase m + 0x30 + 0x1000 * c
/-- MEM_SCRUB_PASS_COUNT (R172). -/
def Reg.memScrubPassCount (m c : Nat) : Nat := memBase m + 0x34 + 0x1000 * c
/-- MEM_SCRUB_POS (R172). -/
def Reg.memScrubPos (m c : Nat) : Nat := memBase m + 0x38 + 0x1000 * c
/-- MEM_RETIRE_THRESH (R172). -/
def Reg.memRetireThresh (m c : Nat) : Nat := memBase m + 0x40 + 0x1000 * c
/-- MEM_OWN (R172). -/
def Reg.memOwn (m c n : Nat) : Nat := memBase m + 0x100 + 0x1000 * c + 0x4 * n
/-- MEM_PART_CE_COUNT (R172). -/
def Reg.memPartCeCount (m p : Nat) : Nat := memBase m + 0x2000 + 0x20 * p
/-- MEM_PART_UE_COUNT (R172). -/
def Reg.memPartUeCount (m p : Nat) : Nat := memBase m + 0x2004 + 0x20 * p
/-- MEM_PART_TAG_FAIL_COUNT (R172). -/
def Reg.memPartTagFailCount (m p : Nat) : Nat := memBase m + 0x2008 + 0x20 * p
/-- MEM_PART_GRANULES (R172). -/
def Reg.memPartGranules (m p k : Nat) : Nat := memBase m + 0x2010 + 0x20 * p + 0x4 * k
/-- MEM_ERR_STATUS (R172). -/
def Reg.memErrStatus (m : Nat) : Nat := memBase m + 0x3000
/-- MEM_ERR_POP (R172). -/
def Reg.memErrPop (m : Nat) : Nat := memBase m + 0x3004
/-- MEM_ERR_ENTRY (R172). -/
def Reg.memErrEntry (m w : Nat) : Nat := memBase m + 0x3010 + 0x4 * w
/-- KVP_ID (R257). -/
def Reg.kvpId (d : Nat) : Nat := 0xB0000 + 0x4000 * d
/-- KVP_BIGHT_FREE (R257). -/
def Reg.kvpBightFree (d : Nat) : Nat := 0xB0010 + 0x4000 * d
/-- KVP_BIGHT_PENDING (R257). -/
def Reg.kvpBightPending (d : Nat) : Nat := 0xB0014 + 0x4000 * d
/-- KVP_BIGHT_HELD (R257). -/
def Reg.kvpBightHeld (d : Nat) : Nat := 0xB0018 + 0x4000 * d
/-- KVP_BIGHT_FLUSHING (R257). -/
def Reg.kvpBightFlushing (d : Nat) : Nat := 0xB001C + 0x4000 * d
/-- KVP_SNAP (R257). -/
def Reg.kvpSnap (d : Nat) : Nat := 0xB0020 + 0x4000 * d
/-- KVP_PART_BIGHT_REGION (R257). -/
def Reg.kvpPartBightRegion (d p : Nat) : Nat := 0xB1000 + 0x4000 * d + 0x40 * p
/-- KVP_PART_BIGHT_USED (R257). -/
def Reg.kvpPartBightUsed (d p : Nat) : Nat := 0xB1004 + 0x4000 * d + 0x40 * p
/-- KVP_PART_PG_TOTAL_HBM (R257). -/
def Reg.kvpPartPgTotalHbm (d p : Nat) : Nat := 0xB1008 + 0x4000 * d + 0x40 * p
/-- KVP_PART_PG_TOTAL_CT (R257). -/
def Reg.kvpPartPgTotalCt (d p : Nat) : Nat := 0xB100C + 0x4000 * d + 0x40 * p
/-- KVP_PART_PG_FREE_HBM (R257). -/
def Reg.kvpPartPgFreeHbm (d p : Nat) : Nat := 0xB1010 + 0x4000 * d + 0x40 * p
/-- KVP_PART_PG_FREE_CT (R257). -/
def Reg.kvpPartPgFreeCt (d p : Nat) : Nat := 0xB1014 + 0x4000 * d + 0x40 * p
/-- KVP_PART_PG_LIVE (R257). -/
def Reg.kvpPartPgLive (d p : Nat) : Nat := 0xB1018 + 0x4000 * d + 0x40 * p
/-- KVP_PART_PG_MOVING (R257). -/
def Reg.kvpPartPgMoving (d p : Nat) : Nat := 0xB101C + 0x4000 * d + 0x40 * p
/-- KVP_PART_PG_INBOUND (R257). -/
def Reg.kvpPartPgInbound (d p : Nat) : Nat := 0xB1020 + 0x4000 * d + 0x40 * p
/-- KVP_PART_LOW_WATER (R257). -/
def Reg.kvpPartLowWater (p : Nat) : Nat := 0xB1024 + 0x40 * p
/-- KVP_PART_TTL_HBM (R257). -/
def Reg.kvpPartTtlHbm (p : Nat) : Nat := 0xB1028 + 0x40 * p
/-- KVP_PART_TTL_CT (R257). -/
def Reg.kvpPartTtlCt (p : Nat) : Nat := 0xB102C + 0x40 * p
/-- KVP_PART_STARVED_COUNT (R257). -/
def Reg.kvpPartStarvedCount (p : Nat) : Nat := 0xB1030 + 0x40 * p
/-- KVP_PART_REWIND_COUNT (R257). -/
def Reg.kvpPartRewindCount (p : Nat) : Nat := 0xB1034 + 0x40 * p
/-- KVP_PART_FLUSH_COUNT (R257). -/
def Reg.kvpPartFlushCount (p : Nat) : Nat := 0xB1038 + 0x40 * p
/-- KVP_PART_SNAP (R257). -/
def Reg.kvpPartSnap (p : Nat) : Nat := 0xB103C + 0x40 * p
/-- SRV_ID (R289). -/
def Reg.srvId (d : Nat) : Nat := 0xC0000 + 0x4000 * d
/-- SRV_STAGED_COUNT (R289). -/
def Reg.srvStagedCount (d : Nat) : Nat := 0xC0010 + 0x4000 * d
/-- SRV_STAGE_FAIL_COUNT (R289). -/
def Reg.srvStageFailCount (d : Nat) : Nat := 0xC0014 + 0x4000 * d
/-- SRV_SNAP (R289). -/
def Reg.srvSnap : Nat := 0xC0020
/-- SRV_REEL_STAGED (R289). -/
def Reg.srvReelStaged (w : Nat) : Nat := 0xC0100 + 0x4 * w
/-- SRV_REEL_COMMIT (R289). -/
def Reg.srvReelCommit (w : Nat) : Nat := 0xC0108 + 0x4 * w
/-- SRV_REEL_DISCARD (R289). -/
def Reg.srvReelDiscard (w : Nat) : Nat := 0xC0110 + 0x4 * w
/-- SRV_REEL_ENGINE (R289). -/
def Reg.srvReelEngine (w : Nat) : Nat := 0xC0118 + 0x4 * w
/-- SRV_REEL_IN_STAGE (R289). -/
def Reg.srvReelInStage : Nat := 0xC0120
/-- SRV_PART_SEQ_BASE (R289). -/
def Reg.srvPartSeqBase (p : Nat) : Nat := 0xC1000 + 0x40 * p
/-- SRV_PART_SEQ_SIZE (R289). -/
def Reg.srvPartSeqSize (p : Nat) : Nat := 0xC1004 + 0x40 * p
/-- SRV_PART_SHAPE (R289). -/
def Reg.srvPartShape (p : Nat) : Nat := 0xC1008 + 0x40 * p
/-- SRV_PART_CHUNK (R289). -/
def Reg.srvPartChunk (p : Nat) : Nat := 0xC100C + 0x40 * p
/-- SRV_PART_BATCH_LO (R289). -/
def Reg.srvPartBatchLo (p : Nat) : Nat := 0xC1010 + 0x40 * p
/-- SRV_PART_BATCH_HI (R289). -/
def Reg.srvPartBatchHi (p : Nat) : Nat := 0xC1014 + 0x40 * p
/-- SRV_PART_STAGE_LO (R289). -/
def Reg.srvPartStageLo (p : Nat) : Nat := 0xC1018 + 0x40 * p
/-- SRV_PART_STAGE_HI (R289). -/
def Reg.srvPartStageHi (p : Nat) : Nat := 0xC101C + 0x40 * p
/-- SRV_PART_STAGE_FRAMES (R289). -/
def Reg.srvPartStageFrames (p : Nat) : Nat := 0xC1020 + 0x40 * p
/-- SRV_PART_REEL_LO (R289). -/
def Reg.srvPartReelLo (p : Nat) : Nat := 0xC1024 + 0x40 * p
/-- SRV_PART_REEL_HI (R289). -/
def Reg.srvPartReelHi (p : Nat) : Nat := 0xC1028 + 0x40 * p
/-- SRV_PART_REEL_SHIFT (R289). -/
def Reg.srvPartReelShift (p : Nat) : Nat := 0xC102C + 0x40 * p
/-- SRV_PART_PG_RESERVED (R289). -/
def Reg.srvPartPgReserved (p : Nat) : Nat := 0xC1030 + 0x40 * p
/-- SRV_PART_HANDLES (R289). -/
def Reg.srvPartHandles (p : Nat) : Nat := 0xC1034 + 0x40 * p
/-- SRV_PART_STATS (R289). -/
def Reg.srvPartStats (p : Nat) : Nat := 0xC1038 + 0x40 * p
/-- SRV_PART_SNAP (R289). -/
def Reg.srvPartSnap (p : Nat) : Nat := 0xC103C + 0x40 * p
/-- DSP_ID (R309). -/
def Reg.dspId (d : Nat) : Nat := 0xD0000 + 0x4000 * d
/-- DSP_SENT_COUNT (R309). -/
def Reg.dspSentCount (d : Nat) : Nat := 0xD0010 + 0x4000 * d
/-- DSP_RECV_COUNT (R309). -/
def Reg.dspRecvCount (d : Nat) : Nat := 0xD0014 + 0x4000 * d
/-- DSP_ROLE_MOVED_COUNT (R309). -/
def Reg.dspRoleMovedCount (d : Nat) : Nat := 0xD0018 + 0x4000 * d
/-- DSP_DUP_DISCARD_COUNT (R309). -/
def Reg.dspDupDiscardCount (d : Nat) : Nat := 0xD001C + 0x4000 * d
/-- DSP_RX_EXPIRED_COUNT (R309). -/
def Reg.dspRxExpiredCount (d : Nat) : Nat := 0xD0020 + 0x4000 * d
/-- DSP_PART_TABLE_LO (R309). -/
def Reg.dspPartTableLo (p : Nat) : Nat := 0xD1000 + 0x40 * p
/-- DSP_PART_TABLE_HI (R309). -/
def Reg.dspPartTableHi (p : Nat) : Nat := 0xD1004 + 0x40 * p
/-- DSP_PART_TABLE_SIZE (R309). -/
def Reg.dspPartTableSize (p : Nat) : Nat := 0xD1008 + 0x40 * p
/-- DSP_PART_RX_LO (R309). -/
def Reg.dspPartRxLo (p : Nat) : Nat := 0xD100C + 0x40 * p
/-- DSP_PART_RX_HI (R309). -/
def Reg.dspPartRxHi (p : Nat) : Nat := 0xD1010 + 0x40 * p
/-- DSP_PART_RX_SHAPE (R309). -/
def Reg.dspPartRxShape (p : Nat) : Nat := 0xD1014 + 0x40 * p
/-- DSP_PART_RX_SLOTS (R309). -/
def Reg.dspPartRxSlots (p : Nat) : Nat := 0xD1018 + 0x40 * p
/-- DSP_PART_SHARD_LO (R309). -/
def Reg.dspPartShardLo (p : Nat) : Nat := 0xD101C + 0x40 * p
/-- DSP_PART_SHARD_HI (R309). -/
def Reg.dspPartShardHi (p : Nat) : Nat := 0xD1020 + 0x40 * p
/-- DSP_PART_DROP_COUNT (R309). -/
def Reg.dspPartDropCount (p : Nat) : Nat := 0xD1024 + 0x40 * p
/-- DSP_PART_REPLICA_COUNT (R309). -/
def Reg.dspPartReplicaCount (p : Nat) : Nat := 0xD1028 + 0x40 * p
/-- DSP_PART_RXFULL_COUNT (R309). -/
def Reg.dspPartRxfullCount (p : Nat) : Nat := 0xD102C + 0x40 * p
/-- DSP_PART_COL_GROUPS_LO (R407). -/
def Reg.dspPartColGroupsLo (p : Nat) : Nat := 0xD2000 + 0x40 * p
/-- DSP_PART_COL_GROUPS_HI (R407). -/
def Reg.dspPartColGroupsHi (p : Nat) : Nat := 0xD2004 + 0x40 * p
/-- DSP_PART_COL_GROUP_COUNT (R407). -/
def Reg.dspPartColGroupCount (p : Nat) : Nat := 0xD2008 + 0x40 * p
/-- DSP_PART_COL_COUNT (R407). -/
def Reg.dspPartColCount (p : Nat) : Nat := 0xD2010 + 0x40 * p
/-- DSP_PART_COL_EXACT_LOST_COUNT (R407). -/
def Reg.dspPartColExactLostCount (p : Nat) : Nat := 0xD2014 + 0x40 * p
/-- DSP_PART_COL_TT_MISMATCH_COUNT (R407). -/
def Reg.dspPartColTtMismatchCount (p : Nat) : Nat := 0xD2018 + 0x40 * p
/-- DSP_PART_COL_RESEND_COUNT (R407). -/
def Reg.dspPartColResendCount (p : Nat) : Nat := 0xD201C + 0x40 * p
/-- DSP_PART_COL_ABORT_COUNT (R407). -/
def Reg.dspPartColAbortCount (p : Nat) : Nat := 0xD2020 + 0x40 * p
/-- DSP_PART_COL_VOTE_WAIT_US (R407). -/
def Reg.dspPartColVoteWaitUs (p : Nat) : Nat := 0xD2024 + 0x40 * p
/-- DSP_PART_COL_QUERY_COUNT (R407). -/
def Reg.dspPartColQueryCount (p : Nat) : Nat := 0xD2028 + 0x40 * p
/-- ECN_ID (R384). -/
def Reg.ecnId : Nat := 0xE0000
/-- ECN_SELF (R384). -/
def Reg.ecnSelf : Nat := 0xE0004
/-- ECN_CTRL (R384). -/
def Reg.ecnCtrl : Nat := 0xE0008
/-- ECN_BRAID_CTRL (R384). -/
def Reg.ecnBraidCtrl : Nat := 0xE000C
/-- ECN_BULK_TIMEOUT (R384). -/
def Reg.ecnBulkTimeout : Nat := 0xE0010
/-- ECN_BULK_RETRIES (R384). -/
def Reg.ecnBulkRetries : Nat := 0xE0014
/-- ECN_PORT_ERR_LIMIT (R384). -/
def Reg.ecnPortErrLimit : Nat := 0xE0018
/-- ECN_SNAP (R384). -/
def Reg.ecnSnap : Nat := 0xE001C
/-- ECN_AUTH_FAIL_COUNT (R384). -/
def Reg.ecnAuthFailCount : Nat := 0xE0040
/-- ECN_STALE_EPOCH_COUNT (R384). -/
def Reg.ecnStaleEpochCount : Nat := 0xE0044
/-- ECN_ROLE_MOVED_COUNT (R384). -/
def Reg.ecnRoleMovedCount : Nat := 0xE0048
/-- ECN_WHIP_REFUSE_COUNT (R384). -/
def Reg.ecnWhipRefuseCount : Nat := 0xE004C
/-- ECN_NO_ROUTE_COUNT (R384). -/
def Reg.ecnNoRouteCount : Nat := 0xE0050
/-- ECN_VC_COPIES_SENT (R384). -/
def Reg.ecnVcCopiesSent (v : Nat) : Nat := 0xE0100 + 0x20 * v
/-- ECN_VC_ORIGINATED (R384). -/
def Reg.ecnVcOriginated (v : Nat) : Nat := 0xE0104 + 0x20 * v
/-- ECN_VC_RESENT (R384). -/
def Reg.ecnVcResent (v : Nat) : Nat := 0xE0108 + 0x20 * v
/-- ECN_VC_DELIVERED (R384). -/
def Reg.ecnVcDelivered (v : Nat) : Nat := 0xE010C + 0x20 * v
/-- ECN_VC_REFUSED (R384). -/
def Reg.ecnVcRefused (v : Nat) : Nat := 0xE0110 + 0x20 * v
/-- ECN_VC_DUP (R384). -/
def Reg.ecnVcDup (v : Nat) : Nat := 0xE0114 + 0x20 * v
/-- ECN_VC_LATE (R384). -/
def Reg.ecnVcLate (v : Nat) : Nat := 0xE0118 + 0x20 * v
/-- ECN_VC_PATH_DROP (R384). -/
def Reg.ecnVcPathDrop (v : Nat) : Nat := 0xE011C + 0x20 * v
/-- ECN_PORT_STATE (R384). -/
def Reg.ecnPortState (p : Nat) : Nat := 0xE1000 + 0x40 * p
/-- ECN_PORT_PEER (R384). -/
def Reg.ecnPortPeer (p : Nat) : Nat := 0xE1004 + 0x40 * p
/-- ECN_PORT_FEC_SYM_COUNT (R384). -/
def Reg.ecnPortFecSymCount (p : Nat) : Nat := 0xE1008 + 0x40 * p
/-- ECN_PORT_FEC_CW_COUNT (R384). -/
def Reg.ecnPortFecCwCount (p : Nat) : Nat := 0xE100C + 0x40 * p
/-- ECN_PORT_FEC_UNCORR_COUNT (R384). -/
def Reg.ecnPortFecUncorrCount (p : Nat) : Nat := 0xE1010 + 0x40 * p
/-- ECN_PORT_REPLAY_COUNT (R384). -/
def Reg.ecnPortReplayCount (p : Nat) : Nat := 0xE1014 + 0x40 * p
/-- ECN_PORT_RETRAIN_COUNT (R384). -/
def Reg.ecnPortRetrainCount (p : Nat) : Nat := 0xE1018 + 0x40 * p
/-- ECN_PORT_RETRAIN_LOST (R384). -/
def Reg.ecnPortRetrainLost (p : Nat) : Nat := 0xE101C + 0x40 * p
/-- ECN_PORT_SER (R384). -/
def Reg.ecnPortSer (p : Nat) : Nat := 0xE1020 + 0x40 * p
/-- ECN_PORT_SYNC_FAIL (R384). -/
def Reg.ecnPortSyncFail (p : Nat) : Nat := 0xE1024 + 0x40 * p
/-- ECN_CR_ALLOC (R384). -/
def Reg.ecnCrAlloc (p v l : Nat) : Nat := 0xE4000 + 0x200 * p + 0x40 * v + 0x20 * l
/-- ECN_CR_AVAIL (R384). -/
def Reg.ecnCrAvail (p v l : Nat) : Nat := 0xE4004 + 0x200 * p + 0x40 * v + 0x20 * l
/-- ECN_CR_OUTSTANDING (R384). -/
def Reg.ecnCrOutstanding (p v l : Nat) : Nat := 0xE4008 + 0x200 * p + 0x40 * v + 0x20 * l
/-- ECN_CR_RX_FREE (R384). -/
def Reg.ecnCrRxFree (p v l : Nat) : Nat := 0xE400C + 0x200 * p + 0x40 * v + 0x20 * l
/-- ECN_CR_RX_HELD (R384). -/
def Reg.ecnCrRxHeld (p v l : Nat) : Nat := 0xE4010 + 0x200 * p + 0x40 * v + 0x20 * l
/-- ECN_CR_RX_OWED (R384). -/
def Reg.ecnCrRxOwed (p v l : Nat) : Nat := 0xE4014 + 0x200 * p + 0x40 * v + 0x20 * l
/-- ECN_ROUTE (R384). -/
def Reg.ecnRoute (d : Nat) : Nat := 0xE8000 + 0x4 * d
/-- ECN_GW (R384). -/
def Reg.ecnGw (g : Nat) : Nat := 0xE8400 + 0x4 * g
/-- VID_ID (R334). -/
def Reg.vidId : Nat := 0xF0000
/-- VID_CORE_OWNER (R334). -/
def Reg.vidCoreOwner (c : Nat) : Nat := 0xF0010 + 0x4 * c
/-- VID_CORE_STATE (R334). -/
def Reg.vidCoreState (c : Nat) : Nat := 0xF0040 + 0x4 * c
/-- VID_CORE_BUSY_US (R334). -/
def Reg.vidCoreBusyUs (c : Nat) : Nat := 0xF0080 + 0x4 * c
/-- VID_PART_POOL_LO (R334). -/
def Reg.vidPartPoolLo (p : Nat) : Nat := 0xF1000 + 0x40 * p
/-- VID_PART_POOL_HI (R334). -/
def Reg.vidPartPoolHi (p : Nat) : Nat := 0xF1004 + 0x40 * p
/-- VID_PART_BUF_BYTES (R334). -/
def Reg.vidPartBufBytes (p : Nat) : Nat := 0xF1008 + 0x40 * p
/-- VID_PART_BUFS (R334). -/
def Reg.vidPartBufs (p : Nat) : Nat := 0xF100C + 0x40 * p
/-- VID_PART_CTX (R334). -/
def Reg.vidPartCtx (p : Nat) : Nat := 0xF1010 + 0x40 * p
/-- VID_PART_FREE_BUFS (R334). -/
def Reg.vidPartFreeBufs (p : Nat) : Nat := 0xF1014 + 0x40 * p
/-- VID_PART_FRAME_COUNT (R334). -/
def Reg.vidPartFrameCount (p : Nat) : Nat := 0xF1018 + 0x40 * p
/-- VID_PART_CONCEAL_COUNT (R334). -/
def Reg.vidPartConcealCount (p : Nat) : Nat := 0xF101C + 0x40 * p
/-- VID_PART_DROP_COUNT (R334). -/
def Reg.vidPartDropCount (p : Nat) : Nat := 0xF1020 + 0x40 * p
/-- VID_PART_WINDOW_COUNT (R334). -/
def Reg.vidPartWindowCount (p : Nat) : Nat := 0xF1024 + 0x40 * p
/-- VID_PART_WDOG_COUNT (R334). -/
def Reg.vidPartWdogCount (p : Nat) : Nat := 0xF1028 + 0x40 * p
/-- VID_PART_BUSY_US (R334). -/
def Reg.vidPartBusyUs (p : Nat) : Nat := 0xF102C + 0x40 * p
/-- CNV_ID (R359). -/
def Reg.cnvId (d : Nat) : Nat := 0x100000 + 0x4000 * d
/-- CNV_CR_HITCH_COUNT (R359). -/
def Reg.cnvCrHitchCount (d : Nat) : Nat := 0x100010 + 0x4000 * d
/-- CNV_CR_BUSY_US (R359). -/
def Reg.cnvCrBusyUs (d : Nat) : Nat := 0x100014 + 0x4000 * d
/-- CNV_PART_GEOM_EMPTY_COUNT (R359). -/
def Reg.cnvPartGeomEmptyCount (d p : Nat) : Nat := 0x101000 + 0x4000 * d + 0x40 * p
/-- CNV_PART_PAD_DOMINANT_COUNT (R359). -/
def Reg.cnvPartPadDominantCount (d p : Nat) : Nat := 0x101004 + 0x4000 * d + 0x40 * p
/-- CNV_PART_HALO_MISSING_COUNT (R359). -/
def Reg.cnvPartHaloMissingCount (d p : Nat) : Nat := 0x101008 + 0x4000 * d + 0x40 * p
/-- CNV_PART_SKIP_COUNT (R359). -/
def Reg.cnvPartSkipCount (d p : Nat) : Nat := 0x10100C + 0x4000 * d + 0x40 * p
/-- CNV_PART_BOX_COUNT (R359). -/
def Reg.cnvPartBoxCount (d p : Nat) : Nat := 0x101010 + 0x4000 * d + 0x40 * p
/-- CNV_PART_BOX_EMPTY_COUNT (R359). -/
def Reg.cnvPartBoxEmptyCount (d p : Nat) : Nat := 0x101014 + 0x4000 * d + 0x40 * p
/-- CNV_PART_BOX_OUTSIDE_COUNT (R359). -/
def Reg.cnvPartBoxOutsideCount (d p : Nat) : Nat := 0x101018 + 0x4000 * d + 0x40 * p
/-- CNV_PART_STALE_RELEASE_COUNT (R359). -/
def Reg.cnvPartStaleReleaseCount (d p : Nat) : Nat := 0x10101C + 0x4000 * d + 0x40 * p
/-- CNV_PART_CR_BUSY_US (R359). -/
def Reg.cnvPartCrBusyUs (d p : Nat) : Nat := 0x101020 + 0x4000 * d + 0x40 * p
/-- CHK_ID (R459). -/
def Reg.chkId (d : Nat) : Nat := 0x110000 + 0x4000 * d
/-- CHK_PACK_CTRL (R459). -/
def Reg.chkPackCtrl (d : Nat) : Nat := 0x110010 + 0x4000 * d
/-- CHK_PACK_STATE (R459). -/
def Reg.chkPackState (d : Nat) : Nat := 0x110014 + 0x4000 * d
/-- CHK_PACK_RUN_COUNT (R459). -/
def Reg.chkPackRunCount (d : Nat) : Nat := 0x110018 + 0x4000 * d
/-- CHK_PACK_FAIL_COUNT (R459). -/
def Reg.chkPackFailCount (d : Nat) : Nat := 0x11001C + 0x4000 * d
/-- CHK_QUAR_THRESH (R459). -/
def Reg.chkQuarThresh (d : Nat) : Nat := 0x110020 + 0x4000 * d
/-- CHK_STRAND_QMASK (R459). -/
def Reg.chkStrandQmask (d s : Nat) : Nat := 0x110100 + 0x4000 * d + 0x4 * s
/-- CHK_STRAND_QSET (R459). -/
def Reg.chkStrandQset (d s : Nat) : Nat := 0x110180 + 0x4000 * d + 0x4 * s
/-- CHK_STRAND_SCORE (R459). -/
def Reg.chkStrandScore (d s : Nat) : Nat := 0x110200 + 0x4000 * d + 0x4 * s
/-- CHK_PART_CTRL (R459). -/
def Reg.chkPartCtrl (p : Nat) : Nat := 0x111000 + 0x40 * p
/-- CHK_PART_GIVEUP_COUNT (R459). -/
def Reg.chkPartGiveupCount (p : Nat) : Nat := 0x111004 + 0x40 * p
/-- CHK_PART_PAIR_MISMATCH_COUNT (R459). -/
def Reg.chkPartPairMismatchCount (p : Nat) : Nat := 0x111008 + 0x40 * p
/-- CHK_PART_MAX_COMMIT_US (R459). -/
def Reg.chkPartMaxCommitUs (p : Nat) : Nat := 0x11100C + 0x40 * p
/-- CHK_PART_FSR_WR (R459). -/
def Reg.chkPartFsrWr (p : Nat) : Nat := 0x111010 + 0x40 * p
/-- CHK_FSR_WR_LO (R459). -/
def Reg.chkFsrWrLo : Nat := 0x128000
/-- CHK_FSR_WR_HI (R459). -/
def Reg.chkFsrWrHi : Nat := 0x128004
/-- CHK_FSR_ACK_LO (R459). -/
def Reg.chkFsrAckLo : Nat := 0x128008
/-- CHK_FSR_ACK_HI (R459). -/
def Reg.chkFsrAckHi : Nat := 0x12800C
/-- CHK_FSR_OVERWRITE_COUNT (R459). -/
def Reg.chkFsrOverwriteCount : Nat := 0x128010
/-- CHK_PACK_SLOTS (R459). -/
def Reg.chkPackSlots : Nat := 0x128014
/-- STR_ID (R103). -/
def Reg.strId (s : Nat) : Nat := 0x1000000 + 0x10000 * s
/-- STR_STATE (R103). -/
def Reg.strState (s : Nat) : Nat := 0x1000004 + 0x10000 * s
/-- STR_SCRATCH_ECC_CORR_COUNT (R103). -/
def Reg.strScratchEccCorrCount (s : Nat) : Nat := 0x1000010 + 0x10000 * s
/-- STR_SCRATCH_ECC_UNCORR_COUNT (R103). -/
def Reg.strScratchEccUncorrCount (s : Nat) : Nat := 0x1000014 + 0x10000 * s
/-- STR_SCRATCH_ECC_ADDR (R103). -/
def Reg.strScratchEccAddr (s : Nat) : Nat := 0x1000018 + 0x10000 * s
/-- STR_ACC_ECC_CORR_COUNT (R103). -/
def Reg.strAccEccCorrCount (s : Nat) : Nat := 0x1000020 + 0x10000 * s
/-- STR_ACC_ECC_UNCORR_COUNT (R103). -/
def Reg.strAccEccUncorrCount (s : Nat) : Nat := 0x1000024 + 0x10000 * s
/-- STR_TILE_CHECK_FAIL_COUNT (R103). -/
def Reg.strTileCheckFailCount (s : Nat) : Nat := 0x1000030 + 0x10000 * s
/-- STR_TILE_CHECK_LOC (R103). -/
def Reg.strTileCheckLoc (s : Nat) : Nat := 0x1000034 + 0x10000 * s
/-- STR_TILE_PARTIAL_COUNT (R103). -/
def Reg.strTilePartialCount (s : Nat) : Nat := 0x1000038 + 0x10000 * s
/-- STR_RESIDUE_FAIL_COUNT (R103). -/
def Reg.strResidueFailCount (s : Nat) : Nat := 0x100003C + 0x10000 * s
/-- STR_SCRUB_CTRL (R103). -/
def Reg.strScrubCtrl (s : Nat) : Nat := 0x1000040 + 0x10000 * s
/-- STR_SCRUB_PASS_COUNT (R103). -/
def Reg.strScrubPassCount (s : Nat) : Nat := 0x1000044 + 0x10000 * s
/-- STR_HITCH_DONE_COUNT (R103). -/
def Reg.strHitchDoneCount (s : Nat) : Nat := 0x1000050 + 0x10000 * s
/-- STR_MAC_BUSY_US (R103). -/
def Reg.strMacBusyUs (s : Nat) : Nat := 0x1000054 + 0x10000 * s
/-- STR_ARITH_FLAGS (R69). -/
def Reg.strArithFlags (s : Nat) : Nat := 0x1000400 + 0x10000 * s
/-- STR_EXACT_LOST_COUNT (R69). -/
def Reg.strExactLostCount (s : Nat) : Nat := 0x1000404 + 0x10000 * s
/-- HNK_CTRL (R143). -/
def Reg.hnkCtrl (g : Nat) : Nat := 0x1008000 + 0x80000 * g
/-- HNK_STATUS (R143). -/
def Reg.hnkStatus (g : Nat) : Nat := 0x1008004 + 0x80000 * g
/-- HNK_PROG_LO (R143). -/
def Reg.hnkProgLo (g : Nat) : Nat := 0x1008008 + 0x80000 * g
/-- HNK_PROG_HI (R143). -/
def Reg.hnkProgHi (g : Nat) : Nat := 0x100800C + 0x80000 * g
/-- HNK_STEP_LO (R143). -/
def Reg.hnkStepLo (g : Nat) : Nat := 0x1008010 + 0x80000 * g
/-- HNK_STEP_HI (R143). -/
def Reg.hnkStepHi (g : Nat) : Nat := 0x1008014 + 0x80000 * g
/-- HNK_KNOT_WAIT_LIMIT (R143). -/
def Reg.hnkKnotWaitLimit (g : Nat) : Nat := 0x1008018 + 0x80000 * g
/-- HNK_ERR_STATUS (R143). -/
def Reg.hnkErrStatus (g : Nat) : Nat := 0x1008020 + 0x80000 * g
/-- HNK_ERR_WHERE (R143). -/
def Reg.hnkErrWhere (g : Nat) : Nat := 0x1008024 + 0x80000 * g
/-- HNK_ERR_STEP_LO (R143). -/
def Reg.hnkErrStepLo (g : Nat) : Nat := 0x1008028 + 0x80000 * g
/-- HNK_ERR_STEP_HI (R143). -/
def Reg.hnkErrStepHi (g : Nat) : Nat := 0x100802C + 0x80000 * g
/-- HNK_ABANDON_COUNT (R143). -/
def Reg.hnkAbandonCount (g : Nat) : Nat := 0x1008030 + 0x80000 * g
/-- HNK_REPLAY_COUNT (R143). -/
def Reg.hnkReplayCount (g : Nat) : Nat := 0x1008034 + 0x80000 * g
/-- HNK_DISCARD_COUNT (R143). -/
def Reg.hnkDiscardCount (g : Nat) : Nat := 0x1008038 + 0x80000 * g
/-- HNK_VARY_REFUSED_COUNT (R143). -/
def Reg.hnkVaryRefusedCount (g : Nat) : Nat := 0x100803C + 0x80000 * g
/-- HNK_BACKPRESSURE_US (R143). -/
def Reg.hnkBackpressureUs (g : Nat) : Nat := 0x1008040 + 0x80000 * g
/-- ATN_HITCH_COUNT (R226). -/
def Reg.atnHitchCount (g : Nat) : Nat := 0x1009000 + 0x80000 * g
/-- ATN_BLOCK_COUNT (R226). -/
def Reg.atnBlockCount (g : Nat) : Nat := 0x1009004 + 0x80000 * g
/-- ATN_SKIP_COUNT (R226). -/
def Reg.atnSkipCount (g : Nat) : Nat := 0x1009008 + 0x80000 * g
/-- ATN_SPILL_KB (R226). -/
def Reg.atnSpillKb (g : Nat) : Nat := 0x100900C + 0x80000 * g
/-- ATN_EMPTY_ROW_COUNT (R226). -/
def Reg.atnEmptyRowCount (g : Nat) : Nat := 0x1009010 + 0x80000 * g
/-- ATN_NONFINITE_ROW_COUNT (R226). -/
def Reg.atnNonfiniteRowCount (g : Nat) : Nat := 0x1009014 + 0x80000 * g
/-- ATN_EXACT_LOST_COUNT (R226). -/
def Reg.atnExactLostCount (g : Nat) : Nat := 0x1009018 + 0x80000 * g
/-- ATN_BUSY_US (R226). -/
def Reg.atnBusyUs (g : Nat) : Nat := 0x100901C + 0x80000 * g
/-- ATN_SEQ_ACTIVE (R226). -/
def Reg.atnSeqActive (d : Nat) : Nat := 0x100A000 + 0x200000 * d
/-- ATN_SEQ_FAIL_COUNT (R226). -/
def Reg.atnSeqFailCount (d : Nat) : Nat := 0x100A004 + 0x200000 * d

/-- Register rows of the GBL block. -/
def RegRow.rowsGbl0 : List RegRow := [
  ⟨0x0, [], .ro, 0, 0, .commander, false, false⟩,
  ⟨0x4, [], .ro, 0, 0x00100480, .commander, false, false⟩,
  ⟨0x8, [], .ro, 0, 0, .commander, false, false⟩,
  ⟨0xC, [], .ro, 0, 0, .commander, false, false⟩,
  ⟨0x10, [], .ro, 0, 0, .commander, false, false⟩,
  ⟨0x14, [], .ro, 0, 0, .commander, false, false⟩,
  ⟨0x18, [], .rw, 0xFFFFFFFF, 0, .commander, false, false⟩,
  ⟨0x20, [], .ro, 0, 1, .commander, false, false⟩,
  ⟨0x24, [], .ro, 0, 0, .commander, false, false⟩,
  ⟨0x28, [], .rw, 1, 0, .commander, false, false⟩,
  ⟨0x2C, [], .ro, 0, 0, .commander, false, false⟩,
  ⟨0x40, [], .rw, 1, 0, .commander, false, false⟩,
  ⟨0x44, [], .rw, 0xFFFF, 0, .commander, false, false⟩,
  ⟨0x1000, [(0x40, 16)], .rw, 0xFFFFFFFF, 0, .part, false, false⟩,
  ⟨0x1004, [(0x40, 16)], .rw, 0xFFFFFFFF, 0, .part, false, false⟩,
  ⟨0x1008, [(0x40, 16)], .rw, 0x7FFF, 0, .part, false, false⟩,
  ⟨0x100C, [(0x40, 16)], .ro, 0, 0, .part, false, false⟩,
  ⟨0x1010, [(0x40, 16)], .rw, 0xFFFFFFFF, 0, .part, true, false⟩,
  ⟨0x1014, [(0x40, 16)], .rc, 0, 0, .part, false, false⟩,
  ⟨0x1018, [(0x40, 16)], .rw, 0x0FFFFFFF, 0, .part, true, false⟩,
  ⟨0x101C, [(0x40, 16)], .ro, 0, 0, .part, false, false⟩,
  ⟨0x1020, [(0x40, 16)], .ro, 0, 0, .part, false, false⟩,
  ⟨0x1024, [(0x40, 16)], .rc, 0, 0, .part, false, false⟩]

/-- Register rows of the HST block. -/
def RegRow.rowsHst0 : List RegRow := [
  ⟨0x10000, [], .ro, 0, 0x201, .commander, false, false⟩,
  ⟨0x10004, [], .rw, 0x0FFF0077, 0x10053, .commander, false, false⟩,
  ⟨0x10010, [(0x40, 2)], .ro, 0, 0, .commander, false, false⟩,
  ⟨0x10014, [(0x40, 2)], .ro, 0, 0, .commander, false, false⟩,
  ⟨0x10018, [(0x40, 2)], .ro, 0, 0, .commander, false, false⟩,
  ⟨0x1001C, [(0x40, 2)], .rc, 0, 0, .commander, false, false⟩,
  ⟨0x10020, [(0x40, 2)], .rc, 0, 0, .commander, false, false⟩,
  ⟨0x10024, [(0x40, 2)], .rc, 0, 0, .commander, false, false⟩,
  ⟨0x10028, [(0x40, 2)], .rc, 0, 0, .commander, false, false⟩,
  ⟨0x10100, [], .rc, 0, 0, .commander, false, false⟩,
  ⟨0x10104, [], .rc, 0, 0, .commander, false, false⟩,
  ⟨0x10108, [], .rc, 0, 0, .commander, false, false⟩,
  ⟨0x1010C, [], .rc, 0, 0, .commander, false, false⟩,
  ⟨0x10110, [], .rc, 0, 0, .commander, false, false⟩,
  ⟨0x10114, [], .rc, 0, 0, .commander, false, false⟩,
  ⟨0x10118, [], .rc, 0, 0, .commander, false, false⟩,
  ⟨0x1011C, [], .rc, 0, 0, .commander, false, false⟩,
  ⟨0x10200, [], .ro, 0, 0, .commander, false, false⟩,
  ⟨0x10204, [], .ro, 0, 0, .commander, false, false⟩,
  ⟨0x10208, [], .rw, 0xFF, 0xFD, .commander, false, false⟩,
  ⟨0x1020C, [], .rc, 0, 0, .commander, false, false⟩,
  ⟨0x10400, [(0x4, 16)], .ro, 0, 0, .part, false, false⟩,
  ⟨0x10440, [(0x4, 16)], .ro, 0, 0, .part, false, false⟩,
  ⟨0x10800, [(0x100, 2), (0x4, 64)], .rw, 0xFFFFFFFF, 0, .commander, false, false⟩,
  ⟨0x10C00, [(0x40, 2)], .rw, 0x7F01, 0, .commander, false, false⟩,
  ⟨0x10C04, [(0x40, 2)], .rw, 0xFFFFFFFF, 0, .commander, false, false⟩,
  ⟨0x10C08, [(0x40, 2)], .rw, 0xFFFFFFFF, 0, .commander, false, false⟩,
  ⟨0x10C0C, [(0x40, 2)], .rw, 0xFFFFFFFF, 0, .commander, false, false⟩,
  ⟨0x11000, [(0x10, 64), (0x4, 3)], .rw, 0xFFFFFFFF, 0, .commander, false, false⟩,
  ⟨0x11400, [(0x10, 64), (0x4, 4)], .rw, 0xFFFFFFFF, 0, .commander, false, false⟩]

/-- Register rows of the SPL block. -/
def RegRow.rowsSpl0 : List RegRow := [
  ⟨0x20000, [], .wo, 0xFFFFFFFF, 0, .any, false, false⟩,
  ⟨0x20004, [], .ro, 0, 0, .any, false, false⟩,
  ⟨0x20008, [], .ro, 0, 0, .any, false, false⟩,
  ⟨0x2000C, [], .ro, 0, 0, .any, false, false⟩]

/-- Register rows of the PWR block. -/
def RegRow.rowsPwr0 : List RegRow := [
  ⟨0x30000, [], .ro, 0, 0x40, .commander, false, false⟩,
  ⟨0x30004, [], .rw, 1, 0, .commander, false, false⟩,
  ⟨0x30008, [], .ro, 0, 0, .commander, false, false⟩,
  ⟨0x3000C, [], .rc, 0, 0, .commander, false, false⟩,
  ⟨0x30010, [], .rc, 0, 0, .commander, false, false⟩,
  ⟨0x30100, [(0x4, 64)], .rw, 0x113, 0, .commander, false, false⟩,
  ⟨0x30200, [(0x4, 64)], .ro, 0, 0, .commander, false, false⟩,
  ⟨0x30300, [(0x4, 64)], .rc, 0, 0, .commander, false, false⟩,
  ⟨0x30400, [(0x4, 64)], .rc, 0, 0, .commander, false, false⟩,
  ⟨0x30500, [(0x4, 64)], .ro, 0, 0, .commander, false, false⟩,
  ⟨0x30600, [(0x4, 64)], .rc, 0, 0, .commander, false, false⟩,
  ⟨0x30800, [(0x4, 16)], .ro, 0, 0, .part, false, false⟩]

/-- Register rows of the THM block. -/
def RegRow.rowsThm0 : List RegRow := [
  ⟨0x40000, [], .ro, 0, 0x2201, .commander, false, false⟩,
  ⟨0x40004, [], .ro, 0, 0, .any, false, false⟩,
  ⟨0x40008, [], .rw, 1, 1, .commander, false, false⟩,
  ⟨0x4000C, [], .rw, 0x7FF, 0, .commander, false, false⟩,
  ⟨0x40010, [], .rw, 0xFFFF, 0x3E8, .commander, false, false⟩,
  ⟨0x40014, [], .rw, 0x1FF, 0x1E, .commander, false, false⟩,
  ⟨0x40018, [], .ro, 0, 0, .commander, false, false⟩,
  ⟨0x4001C, [], .w1c, 0xFFFFFFFF, 0, .commander, false, false⟩,
  ⟨0x40020, [], .rc, 0, 0, .commander, false, false⟩,
  ⟨0x40024, [], .rc, 0, 0, .commander, false, false⟩,
  ⟨0x40028, [], .ro, 0, 0, .commander, false, false⟩,
  ⟨0x4002C, [], .ro, 0, 0, .commander, false, false⟩,
  ⟨0x40100, [(0x4, 34)], .ro, 0, 0, .commander, false, false⟩,
  ⟨0x40200, [(0x4, 16)], .ro, 0, 0x140000, .commander, false, false⟩,
  ⟨0x40300, [(0x4, 16)], .rc, 0, 0, .part, false, false⟩]

/-- Register rows of the SEC block. -/
def RegRow.rowsSec0 : List RegRow := [
  ⟨0x50000, [], .ro, 0, 1, .commander, false, false⟩,
  ⟨0x50004, [], .rw, 1, 0, .commander, false, false⟩,
  ⟨0x50008, [], .ro, 0, 0, .commander, false, false⟩,
  ⟨0x5000C, [], .ro, 0, 0, .commander, false, false⟩,
  ⟨0x50010, [], .ro, 0, 0, .commander, false, false⟩,
  ⟨0x50014, [], .ro, 0, 0x10000, .commander, false, false⟩,
  ⟨0x50018, [], .ro, 0, 0, .commander, false, false⟩,
  ⟨0x5001C, [], .ro, 0, 0, .commander, false, false⟩,
  ⟨0x50020, [], .rc, 0, 0, .commander, false, false⟩,
  ⟨0x50100, [(0x4, 16)], .ro, 0, 0xFFFF, .commander, false, false⟩,
  ⟨0x50140, [(0x4, 16)], .ro, 0, 0, .commander, false, false⟩]

/-- Register rows of the ATT block. -/
def RegRow.rowsAtt0 : List RegRow := [
  ⟨0x60000, [], .rc, 0, 0, .commander, false, false⟩,
  ⟨0x60004, [], .ro, 0, 0, .commander, false, false⟩,
  ⟨0x60008, [], .ro, 0, 0, .commander, false, false⟩,
  ⟨0x6000C, [], .ro, 0, 0, .commander, false, false⟩]

/-- Register rows of the UPD block. -/
def RegRow.rowsUpd0 : List RegRow := [
  ⟨0x70000, [], .ro, 0, 1, .commander, false, false⟩,
  ⟨0x70004, [], .ro, 0, 0, .commander, false, false⟩,
  ⟨0x70008, [], .ro, 0, 0, .commander, false, false⟩,
  ⟨0x7000C, [], .ro, 0, 0, .commander, false, false⟩,
  ⟨0x70010, [], .ro, 0, 0, .commander, false, false⟩,
  ⟨0x70014, [], .ro, 0, 0, .commander, false, false⟩,
  ⟨0x70018, [], .ro, 0, 0, .commander, false, false⟩,
  ⟨0x7001C, [], .ro, 0, 0, .commander, false, false⟩,
  ⟨0x70020, [], .rw, 0x3FFF, 0x3C, .commander, false, false⟩,
  ⟨0x70024, [], .ro, 0, 0, .commander, false, false⟩,
  ⟨0x70028, [], .rc, 0, 0, .commander, false, false⟩,
  ⟨0x7002C, [], .rc, 0, 0, .commander, false, false⟩,
  ⟨0x70030, [], .rc, 0, 0, .commander, false, false⟩,
  ⟨0x70034, [], .rc, 0, 0, .commander, false, false⟩,
  ⟨0x70038, [], .rc, 0, 0, .commander, false, false⟩,
  ⟨0x7003C, [], .ro, 0, 0, .commander, false, false⟩,
  ⟨0x70040, [], .ro, 0, 0, .commander, false, false⟩]

/-- Register rows of the LNY block. -/
def RegRow.rowsLny0 : List RegRow := [
  ⟨0x80000, [], .ro, 0, 1, .commander, false, false⟩,
  ⟨0x80004, [], .ro, 0, 0, .commander, false, false⟩,
  ⟨0x80008, [], .ro, 0, 0, .commander, false, false⟩,
  ⟨0x8000C, [], .rw, 0x7FF, 0x12C, .commander, false, false⟩,
  ⟨0x80010, [], .rw, 0xFFF, 0x2BC, .commander, false, false⟩,
  ⟨0x80014, [], .ro, 0, 0, .commander, false, false⟩,
  ⟨0x80018, [], .ro, 0, 0, .commander, false, false⟩,
  ⟨0x8001C, [], .ro, 0, 0, .commander, false, false⟩,
  ⟨0x80020, [], .ro, 0, 0, .commander, false, false⟩,
  ⟨0x80024, [], .ro, 0, 0, .commander, false, false⟩,
  ⟨0x80028, [], .rw, 1, 0, .commander, false, false⟩,
  ⟨0x80030, [], .rc, 0, 0, .commander, false, false⟩,
  ⟨0x80034, [], .rc, 0, 0, .commander, false, false⟩,
  ⟨0x80038, [], .rc, 0, 0, .commander, false, false⟩,
  ⟨0x8003C, [], .rc, 0, 0, .commander, false, false⟩,
  ⟨0x80040, [], .ro, 0, 0, .commander, false, false⟩,
  ⟨0x80100, [(0x4, 16)], .ro, 0, 0, .part, false, false⟩]

/-- Register rows of the FLD block. -/
def RegRow.rowsFld0 : List RegRow := [
  ⟨0x90000, [(0x4000, 4)], .ro, 0, 0, .commander, false, false⟩,
  ⟨0x120000, [(0x4000, 1)], .ro, 0, 0, .commander, false, false⟩,
  ⟨0x90004, [(0x4000, 4)], .rw, 3, 3, .commander, false, false⟩,
  ⟨0x120004, [(0x4000, 1)], .rw, 3, 3, .commander, false, false⟩,
  ⟨0x90008, [(0x4000, 4)], .rw, 0xFFFF, 0x1000, .commander, false, false⟩,
  ⟨0x120008, [(0x4000, 1)], .rw, 0xFFFF, 0x1000, .commander, false, false⟩,
  ⟨0x9000C, [(0x4000, 4)], .rw, 0xFFFF, 0, .commander, false, false⟩,
  ⟨0x12000C, [(0x4000, 1)], .rw, 0xFFFF, 0, .commander, false, false⟩,
  ⟨0x90010, [(0x4000, 4)], .w1c, 0x1FFFF, 0, .commander, false, false⟩,
  ⟨0x120010, [(0x4000, 1)], .w1c, 0x1FFFF, 0, .commander, false, false⟩,
  ⟨0x90014, [(0x4000, 4)], .ro, 0, 0, .commander, false, false⟩,
  ⟨0x120014, [(0x4000, 1)], .ro, 0, 0, .commander, false, false⟩,
  ⟨0x90018, [(0x4000, 4)], .ro, 0, 0, .commander, false, false⟩,
  ⟨0x120018, [(0x4000, 1)], .ro, 0, 0, .commander, false, false⟩,
  ⟨0x90100, [(0x4000, 4), (0x100, 3), (0x4, 64)], .rw, 0x1F1F1F1F, 0x1F1F1F1F, .commander, false, false⟩,
  ⟨0x120100, [(0x4000, 1), (0x100, 3), (0x4, 64)], .rw, 0x1F1F1F1F, 0x1F1F1F1F, .commander, false, false⟩,
  ⟨0x90400, [(0x4000, 4), (0x10, 16)], .rc, 0, 0, .partDie, false, false⟩,
  ⟨0x120400, [(0x4000, 1), (0x10, 16)], .rc, 0, 0, .partDie, false, false⟩,
  ⟨0x90404, [(0x4000, 4), (0x10, 16)], .rc, 0, 0, .partDie, false, false⟩,
  ⟨0x120404, [(0x4000, 1), (0x10, 16)], .rc, 0, 0, .partDie, false, false⟩,
  ⟨0x90408, [(0x4000, 4), (0x10, 16)], .rc, 0, 0, .partDie, false, false⟩,
  ⟨0x120408, [(0x4000, 1), (0x10, 16)], .rc, 0, 0, .partDie, false, false⟩]

/-- Register rows of the MEM block. -/
def RegRow.rowsMem0 : List RegRow := [
  ⟨0xA0000, [(0x4000, 4), (0x1000, 2)], .ro, 0, 0, .commander, false, false⟩,
  ⟨0x124000, [(0x4000, 1), (0x1000, 2)], .ro, 0, 0, .commander, false, false⟩,
  ⟨0xA0004, [(0x4000, 4), (0x1000, 2)], .ro, 0, 0, .commander, false, false⟩,
  ⟨0x124004, [(0x4000, 1), (0x1000, 2)], .ro, 0, 0, .commander, false, false⟩,
  ⟨0xA0010, [(0x4000, 4), (0x1000, 2)], .rc, 0, 0, .commander, false, false⟩,
  ⟨0x124010, [(0x4000, 1), (0x1000, 2)], .rc, 0, 0, .commander, false, false⟩,
  ⟨0xA0014, [(0x4000, 4), (0x1000, 2)], .rc, 0, 0, .commander, false, false⟩,
  ⟨0x124014, [(0x4000, 1), (0x1000, 2)], .rc, 0, 0, .commander, false, false⟩,
  ⟨0xA0018, [(0x4000, 4), (0x1000, 2)], .rc, 0, 0, .commander, false, false⟩,
  ⟨0x124018, [(0x4000, 1), (0x1000, 2)], .rc, 0, 0, .commander, false, false⟩,
  ⟨0xA001C, [(0x4000, 4), (0x1000, 2)], .rc, 0, 0, .commander, false, false⟩,
  ⟨0x12401C, [(0x4000, 1), (0x1000, 2)], .rc, 0, 0, .commander, false, false⟩,
  ⟨0xA0030, [(0x4000, 4), (0x1000, 2)], .rw, 0xFF03, 0x1801, .commander, false, false⟩,
  ⟨0x124030, [(0x4000, 1), (0x1000, 2)], .rw, 0xFF03, 0x1801, .commander, false, false⟩,
  ⟨0xA0034, [(0x4000, 4), (0x1000, 2)], .ro, 0, 0, .commander, false, false⟩,
  ⟨0x124034, [(0x4000, 1), (0x1000, 2)], .ro, 0, 0, .commander, false, false⟩,
  ⟨0xA0038, [(0x4000, 4), (0x1000, 2)], .ro, 0, 0, .commander, false, false⟩,
  ⟨0x124038, [(0x4000, 1), (0x1000, 2)], .ro, 0, 0, .commander, false, false⟩,
  ⟨0xA0040, [(0x4000, 4), (0x1000, 2)], .rw, 0x1FF, 0x108, .commander, false, false⟩,
  ⟨0x124040, [(0x4000, 1), (0x1000, 2)], .rw, 0x1FF, 0x108, .commander, false, false⟩,
  ⟨0xA0100, [(0x4000, 4), (0x1000, 2), (0x4, 336)], .ro, 0, 0, .commander, false, false⟩,
  ⟨0x124100, [(0x4000, 1), (0x1000, 2), (0x4, 336)], .ro, 0, 0, .commander, false, false⟩,
  ⟨0xA2000, [(0x4000, 4), (0x20, 16)], .rc, 0, 0, .partDie, false, false⟩,
  ⟨0x126000, [(0x4000, 1), (0x20, 16)], .rc, 0, 0, .partDie, false, false⟩,
  ⟨0xA2004, [(0x4000, 4), (0x20, 16)], .rc, 0, 0, .partDie, false, false⟩,
  ⟨0x126004, [(0x4000, 1), (0x20, 16)], .rc, 0, 0, .partDie, false, false⟩,
  ⟨0xA2008, [(0x4000, 4), (0x20, 16)], .rc, 0, 0, .partDie, false, false⟩,
  ⟨0x126008, [(0x4000, 1), (0x20, 16)], .rc, 0, 0, .partDie, false, false⟩,
  ⟨0xA2010, [(0x4000, 4), (0x20, 16), (0x4, 3)], .ro, 0, 0, .partDie, false, false⟩,
  ⟨0x126010, [(0x4000, 1), (0x20, 16), (0x4, 3)], .ro, 0, 0, .partDie, false, false⟩,
  ⟨0xA3000, [(0x4000, 4)], .ro, 0, 0, .commander, false, false⟩,
  ⟨0x127000, [(0x4000, 1)], .ro, 0, 0, .commander, false, false⟩,
  ⟨0xA3004, [(0x4000, 4)], .wo, 1, 0, .commander, false, false⟩,
  ⟨0x127004, [(0x4000, 1)], .wo, 1, 0, .commander, false, false⟩,
  ⟨0xA3010, [(0x4000, 4), (0x4, 4)], .ro, 0, 0, .commander, false, false⟩,
  ⟨0x127010, [(0x4000, 1), (0x4, 4)], .ro, 0, 0, .commander, false, false⟩]

/-- Register rows of the KVP block. -/
def RegRow.rowsKvp0 : List RegRow := [
  ⟨0xB0000, [(0x4000, 4)], .ro, 0, 0, .commander, false, false⟩,
  ⟨0xB0010, [(0x4000, 4)], .ro, 0, 0x8000, .commander, false, false⟩,
  ⟨0xB0014, [(0x4000, 4)], .ro, 0, 0, .commander, false, false⟩,
  ⟨0xB0018, [(0x4000, 4)], .ro, 0, 0, .commander, false, false⟩,
  ⟨0xB001C, [(0x4000, 4)], .ro, 0, 0, .commander, false, false⟩,
  ⟨0xB0020, [(0x4000, 4)], .rw, 1, 0, .commander, false, false⟩,
  ⟨0xB1000, [(0x4000, 4), (0x40, 16)], .rw, 0xFFFFFFFF, 0, .partDie, false, false⟩,
  ⟨0xB1004, [(0x4000, 4), (0x40, 16)], .ro, 0, 0, .partDie, false, false⟩,
  ⟨0xB1008, [(0x4000, 4), (0x40, 16)], .ro, 0, 0, .partDie, false, false⟩,
  ⟨0xB100C, [(0x4000, 4), (0x40, 16)], .ro, 0, 0, .partDie, false, false⟩,
  ⟨0xB1010, [(0x4000, 4), (0x40, 16)], .ro, 0, 0, .partDie, false, false⟩,
  ⟨0xB1014, [(0x4000, 4), (0x40, 16)], .ro, 0, 0, .partDie, false, false⟩,
  ⟨0xB1018, [(0x4000, 4), (0x40, 16)], .ro, 0, 0, .partDie, false, false⟩,
  ⟨0xB101C, [(0x4000, 4), (0x40, 16)], .ro, 0, 0, .partDie, false, false⟩,
  ⟨0xB1020, [(0x4000, 4), (0x40, 16)], .ro, 0, 0, .partDie, false, false⟩,
  ⟨0xB1024, [(0x4000, 4), (0x40, 16)], .rw, 0x3FFFFF, 0x100, .partDie, true, true⟩,
  ⟨0xB1028, [(0x4000, 4), (0x40, 16)], .rw, 0xFFFFF, 0x3C, .partDie, true, true⟩,
  ⟨0xB102C, [(0x4000, 4), (0x40, 16)], .rw, 0xFFFFF, 0x15180, .partDie, true, true⟩,
  ⟨0xB1030, [(0x4000, 4), (0x40, 16)], .rc, 0, 0, .partDie, false, true⟩,
  ⟨0xB1034, [(0x4000, 4), (0x40, 16)], .rc, 0, 0, .partDie, false, true⟩,
  ⟨0xB1038, [(0x4000, 4), (0x40, 16)], .rc, 0, 0, .partDie, false, true⟩,
  ⟨0xB103C, [(0x4000, 4), (0x40, 16)], .rw, 1, 0, .partDie, true, true⟩]

/-- Register rows of the SRV block. -/
def RegRow.rowsSrv0 : List RegRow := [
  ⟨0xC0000, [(0x4000, 4)], .ro, 0, 0, .commander, false, false⟩,
  ⟨0xC0010, [(0x4000, 4)], .rc, 0, 0, .commander, false, false⟩,
  ⟨0xC0014, [(0x4000, 4)], .rc, 0, 0, .commander, false, false⟩,
  ⟨0xC0020, [(0x4000, 4)], .rw, 1, 0, .commander, false, true⟩,
  ⟨0xC0100, [(0x4000, 4), (0x4, 2)], .ro, 0, 0, .commander, false, true⟩,
  ⟨0xC0108, [(0x4000, 4), (0x4, 2)], .ro, 0, 0, .commander, false, true⟩,
  ⟨0xC0110, [(0x4000, 4), (0x4, 2)], .ro, 0, 0, .commander, false, true⟩,
  ⟨0xC0118, [(0x4000, 4), (0x4, 2)], .ro, 0, 0, .commander, false, true⟩,
  ⟨0xC0120, [(0x4000, 4)], .ro, 0, 0, .commander, false, true⟩,
  ⟨0xC1000, [(0x4000, 4), (0x40, 16)], .ro, 0, 0, .partDie, false, true⟩,
  ⟨0xC1004, [(0x4000, 4), (0x40, 16)], .ro, 0, 0, .partDie, false, true⟩,
  ⟨0xC1008, [(0x4000, 4), (0x40, 16)], .rw, 0x1FFF1FFF, 0x400001, .partDie, true, true⟩,
  ⟨0xC100C, [(0x4000, 4), (0x40, 16)], .rw, 0x1FFFFF, 0x200, .partDie, true, true⟩,
  ⟨0xC1010, [(0x4000, 4), (0x40, 16)], .rw, 0xFFFFFFFF, 0, .partDie, true, true⟩,
  ⟨0xC1014, [(0x4000, 4), (0x40, 16)], .rw, 0xFFFFFFFF, 0, .partDie, true, true⟩,
  ⟨0xC1018, [(0x4000, 4), (0x40, 16)], .rw, 0xFFFFFFFF, 0, .partDie, true, true⟩,
  ⟨0xC101C, [(0x4000, 4), (0x40, 16)], .rw, 0xFFFFFFFF, 0, .partDie, true, true⟩,
  ⟨0xC1020, [(0x4000, 4), (0x40, 16)], .rw, 0x3FFFFF, 0, .partDie, true, true⟩,
  ⟨0xC1024, [(0x4000, 4), (0x40, 16)], .rw, 0xFFFFFFFF, 0, .partDie, true, true⟩,
  ⟨0xC1028, [(0x4000, 4), (0x40, 16)], .rw, 0xFFFFFFFF, 0, .partDie, true, true⟩,
  ⟨0xC102C, [(0x4000, 4), (0x40, 16)], .rw, 0xF, 0x8, .partDie, true, true⟩,
  ⟨0xC1030, [(0x4000, 4), (0x40, 16)], .ro, 0, 0, .partDie, false, true⟩,
  ⟨0xC1034, [(0x4000, 4), (0x40, 16)], .ro, 0, 0, .partDie, false, true⟩,
  ⟨0xC1038, [(0x4000, 4), (0x40, 16)], .rc, 0, 0, .partDie, false, true⟩,
  ⟨0xC103C, [(0x4000, 4), (0x40, 16)], .rw, 1, 0, .partDie, true, true⟩]

/-- Register rows of the DSP block. -/
def RegRow.rowsDsp0 : List RegRow := [
  ⟨0xD0000, [(0x4000, 4)], .ro, 0, 0, .commander, false, false⟩,
  ⟨0xD0010, [(0x4000, 4)], .rc, 0, 0, .commander, false, false⟩,
  ⟨0xD0014, [(0x4000, 4)], .rc, 0, 0, .commander, false, false⟩,
  ⟨0xD0018, [(0x4000, 4)], .rc, 0, 0, .commander, false, false⟩,
  ⟨0xD001C, [(0x4000, 4)], .rc, 0, 0, .commander, false, false⟩,
  ⟨0xD0020, [(0x4000, 4)], .rc, 0, 0, .commander, false, false⟩,
  ⟨0xD1000, [(0x4000, 4), (0x40, 16)], .rw, 0xFFFFFFFF, 0, .partDie, true, true⟩,
  ⟨0xD1004, [(0x4000, 4), (0x40, 16)], .rw, 0xFFFFFFFF, 0, .partDie, true, true⟩,
  ⟨0xD1008, [(0x4000, 4), (0x40, 16)], .rw, 0x1FFFF, 0, .partDie, true, true⟩,
  ⟨0xD100C, [(0x4000, 4), (0x40, 16)], .rw, 0xFFFFFFFF, 0, .partDie, true, true⟩,
  ⟨0xD1010, [(0x4000, 4), (0x40, 16)], .rw, 0xFFFFFFFF, 0, .partDie, true, true⟩,
  ⟨0xD1014, [(0x4000, 4), (0x40, 16)], .rw, 0xFFFFFFFF, 0, .partDie, true, true⟩,
  ⟨0xD1018, [(0x4000, 4), (0x40, 16)], .rw, 0x1FFF, 0, .partDie, true, true⟩,
  ⟨0xD101C, [(0x4000, 4), (0x40, 16)], .rw, 0xFFFFFFFF, 0, .partDie, true, true⟩,
  ⟨0xD1020, [(0x4000, 4), (0x40, 16)], .rw, 0xFFFFFFFF, 0, .partDie, true, true⟩,
  ⟨0xD1024, [(0x4000, 4), (0x40, 16)], .rc, 0, 0, .partDie, false, true⟩,
  ⟨0xD1028, [(0x4000, 4), (0x40, 16)], .rc, 0, 0, .partDie, false, true⟩,
  ⟨0xD102C, [(0x4000, 4), (0x40, 16)], .rc, 0, 0, .partDie, false, true⟩,
  ⟨0xD2000, [(0x4000, 4), (0x40, 16)], .rw, 0xFFFFFFFF, 0, .partDie, true, true⟩,
  ⟨0xD2004, [(0x4000, 4), (0x40, 16)], .rw, 0xFFFFFFFF, 0, .partDie, true, true⟩,
  ⟨0xD2008, [(0x4000, 4), (0x40, 16)], .rw, 0x7F, 0, .partDie, true, true⟩,
  ⟨0xD2010, [(0x4000, 4), (0x40, 16)], .rc, 0, 0, .partDie, false, true⟩,
  ⟨0xD2014, [(0x4000, 4), (0x40, 16)], .rc, 0, 0, .partDie, false, true⟩,
  ⟨0xD2018, [(0x4000, 4), (0x40, 16)], .rc, 0, 0, .partDie, false, true⟩,
  ⟨0xD201C, [(0x4000, 4), (0x40, 16)], .rc, 0, 0, .partDie, false, true⟩,
  ⟨0xD2020, [(0x4000, 4), (0x40, 16)], .rc, 0, 0, .partDie, false, true⟩,
  ⟨0xD2024, [(0x4000, 4), (0x40, 16)], .rc, 0, 0, .partDie, false, true⟩,
  ⟨0xD2028, [(0x4000, 4), (0x40, 16)], .rc, 0, 0, .partDie, false, true⟩]

/-- Register rows of the ECN block. -/
def RegRow.rowsEcn0 : List RegRow := [
  ⟨0xE0000, [], .ro, 0, 0x10012, .commander, false, false⟩,
  ⟨0xE0004, [], .rw, 0xFF, 0, .commander, false, false⟩,
  ⟨0xE0008, [], .rw, 0x3FFFF, 0x3FFFF, .commander, false, false⟩,
  ⟨0xE000C, [], .rw, 0x1F, 0x2F, .commander, false, false⟩,
  ⟨0xE0010, [], .rw, 0xFFFF, 0x7D0, .commander, false, false⟩,
  ⟨0xE0014, [], .rw, 0xF, 8, .commander, false, false⟩,
  ⟨0xE0018, [], .rw, 0xFFFF, 0x10, .commander, false, false⟩,
  ⟨0xE001C, [], .rw, 1, 0, .commander, false, false⟩,
  ⟨0xE0040, [], .rc, 0, 0, .commander, false, false⟩,
  ⟨0xE0044, [], .rc, 0, 0, .commander, false, false⟩,
  ⟨0xE0048, [], .rc, 0, 0, .commander, false, false⟩,
  ⟨0xE004C, [], .rc, 0, 0, .commander, false, false⟩,
  ⟨0xE0050, [], .rc, 0, 0, .commander, false, false⟩,
  ⟨0xE0100, [(0x20, 6)], .rc, 0, 0, .commander, false, false⟩,
  ⟨0xE0104, [(0x20, 6)], .rc, 0, 0, .commander, false, false⟩,
  ⟨0xE0108, [(0x20, 6)], .rc, 0, 0, .commander, false, false⟩,
  ⟨0xE010C, [(0x20, 6)], .rc, 0, 0, .commander, false, false⟩,
  ⟨0xE0110, [(0x20, 6)], .rc, 0, 0, .commander, false, false⟩,
  ⟨0xE0114, [(0x20, 6)], .rc, 0, 0, .commander, false, false⟩,
  ⟨0xE0118, [(0x20, 6)], .rc, 0, 0, .commander, false, false⟩,
  ⟨0xE011C, [(0x20, 6)], .rc, 0, 0, .commander, false, false⟩,
  ⟨0xE1000, [(0x40, 18)], .ro, 0, 0, .commander, false, false⟩,
  ⟨0xE1004, [(0x40, 18)], .ro, 0, 0, .commander, false, false⟩,
  ⟨0xE1008, [(0x40, 18)], .rc, 0, 0, .commander, false, false⟩,
  ⟨0xE100C, [(0x40, 18)], .rc, 0, 0, .commander, false, false⟩,
  ⟨0xE1010, [(0x40, 18)], .rc, 0, 0, .commander, false, false⟩,
  ⟨0xE1014, [(0x40, 18)], .rc, 0, 0, .commander, false, false⟩,
  ⟨0xE1018, [(0x40, 18)], .rc, 0, 0, .commander, false, false⟩,
  ⟨0xE101C, [(0x40, 18)], .rc, 0, 0, .commander, false, false⟩,
  ⟨0xE1020, [(0x40, 18)], .ro, 0, 0, .commander, false, false⟩,
  ⟨0xE1024, [(0x40, 18)], .rc, 0, 0, .commander, false, false⟩,
  ⟨0xE4000, [(0x200, 18), (0x40, 6), (0x20, 2)], .rw, 0xFFF, 0, .commander, false, false⟩,
  ⟨0xE4004, [(0x200, 18), (0x40, 6), (0x20, 2)], .ro, 0, 0, .commander, false, false⟩,
  ⟨0xE4008, [(0x200, 18), (0x40, 6), (0x20, 2)], .ro, 0, 0, .commander, false, false⟩,
  ⟨0xE400C, [(0x200, 18), (0x40, 6), (0x20, 2)], .ro, 0, 0, .commander, false, false⟩,
  ⟨0xE4010, [(0x200, 18), (0x40, 6), (0x20, 2)], .ro, 0, 0, .commander, false, false⟩,
  ⟨0xE4014, [(0x200, 18), (0x40, 6), (0x20, 2)], .ro, 0, 0, .commander, false, false⟩,
  ⟨0xE8000, [(0x4, 256)], .ro, 0, 0, .commander, false, false⟩,
  ⟨0xE8400, [(0x4, 16)], .rw, 0x003F3F3F, 0, .commander, false, false⟩]

/-- Register rows of the VID block. -/
def RegRow.rowsVid0 : List RegRow := [
  ⟨0xF0000, [], .ro, 0, 8, .commander, false, false⟩,
  ⟨0xF0010, [(0x4, 8)], .rw, 0x1F, 0x1F, .commander, false, false⟩,
  ⟨0xF0040, [(0x4, 8)], .ro, 0, 0, .commander, false, false⟩,
  ⟨0xF0080, [(0x4, 8)], .rc, 0, 0, .commander, false, false⟩,
  ⟨0xF1000, [(0x40, 16)], .rw, 0xFFFFFFFF, 0, .part, false, false⟩,
  ⟨0xF1004, [(0x40, 16)], .rw, 0xFFFFFFFF, 0, .part, false, false⟩,
  ⟨0xF1008, [(0x40, 16)], .rw, 0xFFFFFFFF, 0, .part, false, false⟩,
  ⟨0xF100C, [(0x40, 16)], .rw, 0x0FFF07FF, 0, .part, false, false⟩,
  ⟨0xF1010, [(0x40, 16)], .rw, 0x03FF01FF, 0, .part, false, false⟩,
  ⟨0xF1014, [(0x40, 16)], .ro, 0, 0, .part, false, false⟩,
  ⟨0xF1018, [(0x40, 16)], .rc, 0, 0, .part, false, false⟩,
  ⟨0xF101C, [(0x40, 16)], .rc, 0, 0, .part, false, false⟩,
  ⟨0xF1020, [(0x40, 16)], .rc, 0, 0, .part, false, false⟩,
  ⟨0xF1024, [(0x40, 16)], .rc, 0, 0, .part, false, false⟩,
  ⟨0xF1028, [(0x40, 16)], .rc, 0, 0, .part, false, false⟩,
  ⟨0xF102C, [(0x40, 16)], .rc, 0, 0, .part, false, false⟩]

/-- Register rows of the CNV block. -/
def RegRow.rowsCnv0 : List RegRow := [
  ⟨0x100000, [(0x4000, 4)], .ro, 0, 0, .commander, false, false⟩,
  ⟨0x100010, [(0x4000, 4)], .rc, 0, 0, .commander, false, false⟩,
  ⟨0x100014, [(0x4000, 4)], .rc, 0, 0, .commander, false, false⟩,
  ⟨0x101000, [(0x4000, 4), (0x40, 16)], .rc, 0, 0, .partDie, false, false⟩,
  ⟨0x101004, [(0x4000, 4), (0x40, 16)], .rc, 0, 0, .partDie, false, false⟩,
  ⟨0x101008, [(0x4000, 4), (0x40, 16)], .rc, 0, 0, .partDie, false, false⟩,
  ⟨0x10100C, [(0x4000, 4), (0x40, 16)], .rc, 0, 0, .partDie, false, false⟩,
  ⟨0x101010, [(0x4000, 4), (0x40, 16)], .rc, 0, 0, .partDie, false, false⟩,
  ⟨0x101014, [(0x4000, 4), (0x40, 16)], .rc, 0, 0, .partDie, false, false⟩,
  ⟨0x101018, [(0x4000, 4), (0x40, 16)], .rc, 0, 0, .partDie, false, false⟩,
  ⟨0x10101C, [(0x4000, 4), (0x40, 16)], .rc, 0, 0, .partDie, false, false⟩,
  ⟨0x101020, [(0x4000, 4), (0x40, 16)], .rc, 0, 0, .partDie, false, false⟩]

/-- Register rows of the CHK block. -/
def RegRow.rowsChk0 : List RegRow := [
  ⟨0x110000, [(0x4000, 4)], .ro, 0, 0, .commander, false, false⟩,
  ⟨0x110010, [(0x4000, 4)], .rw, 0xFF01, 0xA01, .commander, false, false⟩,
  ⟨0x110014, [(0x4000, 4)], .ro, 0, 0, .commander, false, false⟩,
  ⟨0x110018, [(0x4000, 4)], .rc, 0, 0, .commander, false, false⟩,
  ⟨0x11001C, [(0x4000, 4)], .rc, 0, 0, .commander, false, false⟩,
  ⟨0x110020, [(0x4000, 4)], .rw, 0xF, 2, .commander, false, false⟩,
  ⟨0x110100, [(0x4000, 4), (0x4, 32)], .w1c, 0x800FFFFF, 0, .commander, false, false⟩,
  ⟨0x110180, [(0x4000, 4), (0x4, 32)], .wo, 0x800FFFFF, 0, .commander, false, false⟩,
  ⟨0x110200, [(0x4000, 4), (0x4, 32)], .ro, 0, 0, .commander, false, false⟩,
  ⟨0x111000, [(0x4000, 4), (0x40, 16)], .rw, 0x71, 0x20, .partDie, true, true⟩,
  ⟨0x111004, [(0x4000, 4), (0x40, 16)], .rc, 0, 0, .partDie, false, true⟩,
  ⟨0x111008, [(0x4000, 4), (0x40, 16)], .rc, 0, 0, .partDie, false, true⟩,
  ⟨0x11100C, [(0x4000, 4), (0x40, 16)], .rc, 0, 0, .partDie, false, true⟩,
  ⟨0x111010, [(0x4000, 4), (0x40, 16)], .ro, 0, 0, .partDie, false, true⟩,
  ⟨0x128000, [], .ro, 0, 0, .commander, false, false⟩,
  ⟨0x128004, [], .ro, 0, 0, .commander, false, false⟩,
  ⟨0x128008, [], .ro, 0, 0, .commander, false, false⟩,
  ⟨0x12800C, [], .ro, 0, 0, .commander, false, false⟩,
  ⟨0x128010, [], .rc, 0, 0, .commander, false, false⟩,
  ⟨0x128014, [], .ro, 0, 0, .commander, false, false⟩]

/-- Register rows of the STR block. -/
def RegRow.rowsStr0 : List RegRow := [
  ⟨0x1000000, [(0x10000, 128)], .ro, 0, 0, .strand, false, false⟩,
  ⟨0x1000004, [(0x10000, 128)], .ro, 0, 0, .strand, false, false⟩,
  ⟨0x1000010, [(0x10000, 128)], .rc, 0, 0, .strand, false, false⟩,
  ⟨0x1000014, [(0x10000, 128)], .rc, 0, 0, .strand, false, false⟩,
  ⟨0x1000018, [(0x10000, 128)], .ro, 0, 0, .strand, false, false⟩,
  ⟨0x1000020, [(0x10000, 128)], .rc, 0, 0, .strand, false, false⟩,
  ⟨0x1000024, [(0x10000, 128)], .rc, 0, 0, .strand, false, false⟩,
  ⟨0x1000030, [(0x10000, 128)], .rc, 0, 0, .strand, false, false⟩,
  ⟨0x1000034, [(0x10000, 128)], .ro, 0, 0, .strand, false, false⟩,
  ⟨0x1000038, [(0x10000, 128)], .rc, 0, 0, .strand, false, false⟩,
  ⟨0x100003C, [(0x10000, 128)], .rc, 0, 0, .strand, false, false⟩,
  ⟨0x1000040, [(0x10000, 128)], .rw, 0xFFFF, 0x101, .strand, true, false⟩,
  ⟨0x1000044, [(0x10000, 128)], .ro, 0, 0, .strand, false, false⟩,
  ⟨0x1000050, [(0x10000, 128)], .rc, 0, 0, .strand, false, false⟩,
  ⟨0x1000054, [(0x10000, 128)], .rc, 0, 0, .strand, false, false⟩,
  ⟨0x1000400, [(0x10000, 128)], .w1c, 0xF1F, 0, .strand, true, false⟩,
  ⟨0x1000404, [(0x10000, 128)], .rc, 0, 0, .strand, false, false⟩]

/-- Register rows of the HNK block. -/
def RegRow.rowsHnk0 : List RegRow := [
  ⟨0x1008000, [(0x80000, 16)], .rw, 0x33, 0, .hank, true, false⟩,
  ⟨0x1008004, [(0x80000, 16)], .ro, 0, 0, .hank, false, false⟩,
  ⟨0x1008008, [(0x80000, 16)], .rw, 0xFFFFFFFF, 0, .hank, true, false⟩,
  ⟨0x100800C, [(0x80000, 16)], .rw, 0xFFFFFFFF, 0, .hank, true, false⟩,
  ⟨0x1008010, [(0x80000, 16)], .ro, 0, 0, .hank, false, false⟩,
  ⟨0x1008014, [(0x80000, 16)], .ro, 0, 0, .hank, false, false⟩,
  ⟨0x1008018, [(0x80000, 16)], .rw, 0xFFFFFFFF, 0xC350, .hank, true, false⟩,
  ⟨0x1008020, [(0x80000, 16)], .ro, 0, 0, .hank, false, false⟩,
  ⟨0x1008024, [(0x80000, 16)], .ro, 0, 0, .hank, false, false⟩,
  ⟨0x1008028, [(0x80000, 16)], .ro, 0, 0, .hank, false, false⟩,
  ⟨0x100802C, [(0x80000, 16)], .ro, 0, 0, .hank, false, false⟩,
  ⟨0x1008030, [(0x80000, 16)], .rc, 0, 0, .hank, false, false⟩,
  ⟨0x1008034, [(0x80000, 16)], .rc, 0, 0, .hank, false, false⟩,
  ⟨0x1008038, [(0x80000, 16)], .rc, 0, 0, .hank, false, false⟩,
  ⟨0x100803C, [(0x80000, 16)], .rc, 0, 0, .hank, false, false⟩,
  ⟨0x1008040, [(0x80000, 16)], .rc, 0, 0, .hank, false, false⟩]

/-- Register rows of the ATN block. -/
def RegRow.rowsAtn0 : List RegRow := [
  ⟨0x1009000, [(0x80000, 16)], .rc, 0, 0, .hank, false, false⟩,
  ⟨0x1009004, [(0x80000, 16)], .rc, 0, 0, .hank, false, false⟩,
  ⟨0x1009008, [(0x80000, 16)], .rc, 0, 0, .hank, false, false⟩,
  ⟨0x100900C, [(0x80000, 16)], .rc, 0, 0, .hank, false, false⟩,
  ⟨0x1009010, [(0x80000, 16)], .rc, 0, 0, .hank, false, false⟩,
  ⟨0x1009014, [(0x80000, 16)], .rc, 0, 0, .hank, false, false⟩,
  ⟨0x1009018, [(0x80000, 16)], .rc, 0, 0, .hank, false, false⟩,
  ⟨0x100901C, [(0x80000, 16)], .rc, 0, 0, .hank, false, false⟩,
  ⟨0x100A000, [(0x200000, 4)], .ro, 0, 0, .commander, false, false⟩,
  ⟨0x100A004, [(0x200000, 4)], .rc, 0, 0, .commander, false, false⟩]

/-- Every register of the module, in ascending block order (R20). -/
def RegRow.all : List RegRow :=
  RegRow.rowsGbl0 ++ RegRow.rowsHst0 ++ RegRow.rowsSpl0 ++ RegRow.rowsPwr0 ++ RegRow.rowsThm0 ++ RegRow.rowsSec0 ++ RegRow.rowsAtt0 ++ RegRow.rowsUpd0 ++ RegRow.rowsLny0 ++ RegRow.rowsFld0 ++ RegRow.rowsMem0 ++ RegRow.rowsKvp0 ++ RegRow.rowsSrv0 ++ RegRow.rowsDsp0 ++ RegRow.rowsEcn0 ++ RegRow.rowsVid0 ++ RegRow.rowsCnv0 ++ RegRow.rowsChk0 ++ RegRow.rowsStr0 ++ RegRow.rowsHnk0 ++ RegRow.rowsAtn0

/-- The indices of a register at a distance from its first occurrence, or none when no index gives that distance. -/
def indicesOf (dims : List (Nat × Nat)) (rest : Nat) : Option (List Nat) :=
  match dims with
  | [] => if rest = 0 then some [] else none
  | (stride, count) :: ds =>
    if rest / stride < count then (indicesOf ds (rest % stride)).map (rest / stride :: ·) else none

/-- The row that holds an address, with its indices. -/
def findRow (rows : List RegRow) (addr : Nat) : Option (RegRow × List Nat) :=
  match rows with
  | [] => none
  | r :: rs =>
    if r.base ≤ addr then
      match indicesOf r.dims (addr - r.base) with
      | some ix => some (r, ix)
      | none => findRow rs addr
    else findRow rs addr

/-- The register at an address. -/
def regAt (addr : Nat) : Option (RegRow × List Nat) := findRow RegRow.all addr

/-- Whether an address is the address of a word of a mapped block (R20, R421). -/
def mapped (addr : Nat) : Bool := addr % 4 == 0 && (addr < 0x12C000 || (0x1000000 ≤ addr && addr < 0x1800000))

/-- Receive flits allotted at reset to one lane of VC v (R384). -/
def creditReset (v : Nat) : Nat :=
  match v with
  | 0 => 160
  | 1 => 32
  | 2 => 384
  | 3 => 512
  | 4 => 320
  | _ => 128

/-- Where a register's value is kept: a module-wide register of a per-die block is kept once, at its first instance. -/
def homeAddr (r : RegRow) (ix : List Nat) (addr : Nat) : Nat :=
  if r.wide then addr - 0x4000 * ix.headD 0 else addr

/-- The reset value of a stored register: its row's value, or the allotment of its VC for ECN_CR_ALLOC. -/
def resetOf (addr : Nat) : Nat :=
  match regAt addr with
  | some (r, ix) => if r.base = 0xE4000 then creditReset (ix.getD 1 0) else r.reset
  | none => 0

end Sys2Proof.Machine
end

