-- ==== Sys2Proof/Machine/State.lean ====
section
/-! DEFINITION. The state of the module as plain data: the queue of commands, module time, the register file, the byte
store of every addressed memory, and one record for each thing the spec gives the module. The registers that only
show another piece of state are read from it (Machine/Regs.lean). -/

namespace Sys2Proof.Machine

/-- Why a step stops with a fault. -/
inductive Fault where
  /-- LINE_READ, LINE_WRITE and CORRECTION_WRITEBACK of an MPA that addresses nothing (R146). Safe: the spec gives no
  such line. -/
  | noSuchLine (mpa : Nat)
  deriving DecidableEq, Repr

/-- Why a command is refused a meaning. -/
inductive Refusal where
  /-- A command the model gives no meaning yet, named by its mnemonic; raised by `exec` alone. Safe. -/
  | notModelled (mnemonic : String)
  deriving DecidableEq, Repr

/-! Windows of sequence numbers -/

/-- The highest number entered and the numbers entered below it, kept for 1,024 values (R378, R412). -/
structure Window where
  high : Nat
  seen : List Nat
  deriving DecidableEq, Repr

/-! Strands (chapters 2 to 4) -/

/-- An accumulator element: a finite window value, or one of the three non-finite patterns (R45). -/
inductive Elem where
  | fin (v : Int)
  | posInf
  | negInf
  | nan
  deriving DecidableEq, Repr

/-- A column of the accumulator array: its anchor, none when EMPTY, its lost flag, and its elements by row, +0 where
none is listed (R46, R47). -/
structure Col where
  anchor : Option Int
  lost : Bool
  elems : Map Elem
  deriving DecidableEq, Repr

/-- The accumulator array with its check residues (R46, R76, R77), the elements (row, column) that must be non-finite: those of rows and columns that received a
non-finite operand, and those a restore brought in (R81), and the K_LEN count (R120). -/
structure Acc where
  cols : Map Col
  x : Map Nat
  y : Map Nat
  z : Nat
  dRow : Map Nat
  dCol : Map Nat
  nonFinite : List (Nat × Nat)
  kLen : Nat
  deriving DecidableEq, Repr

/-- Where a hitch of a strand queue stands: waiting for issue, malformed and waiting for its turn only (R113), executing
in its unit or engine, or executed with a status and not yet completed (R130). -/
inductive Phase where
  | queued
  | refused
  | running
  | done (status : Nat)
  deriving DecidableEq, Repr

/-- One entry of a strand's hitch queue: a number of its own, the logical position and list index of its hitch (R111,
R117), the 64 bytes, its phase, the time from which its wait
counts (R128), and the telltale of the bytes it wrote (R447). -/
structure QEntry where
  id : Nat
  pos : Nat
  index : Nat
  word : HitchWord
  phase : Phase
  since : Option Nat
  digest : Nat
  deriving DecidableEq, Repr

/-- The state of a strand that is not a register: accumulators, vector registers (register × 256 + lane)
with, after a loss of their contents, the number of the first free value their unwritten lanes hold, strand knots,
hitch queue, the next entry number, the scrubber's next line, the corrected scratch lines whose write-back is queued, the
lines found uncorrectable and not yet written again (R91, R92), when the last uncorrectable line was recorded (R104), the
array busy time below 1 µs, in 1/45,000 µs (R105), the entry that stood at the head of the queue when a reduction without
readout completed (R75), the availability in force (R102), and the scores of its 20 cells with the time of their
last rise (R454), the instants of its score rises in the last 24 h, completed scrub passes, and pack tests passed. -/
structure Strand where
  acc : Acc
  vregs : Map Nat
  vbase : Option Nat
  knots : Map Nat
  queue : List QEntry
  nextId : Nat
  scrubLine : Nat
  writebacks : List Nat
  badLines : List Nat
  eccAt : Option Nat
  busyPart : Nat
  lined : Option Nat
  avail : Nat
  scores : Map (Nat × Nat)
  released : Option (Nat × Nat)
  rises : List Nat
  passes : Nat
  packPasses : Nat
  deriving DecidableEq, Repr

/-- A logical position on its control core (R108, R110, R134, R136): whether it has work in the step, the address and
index of the next hitch to fetch, the prefetched hitches, whether its STEP_END or its last permitted hitch has been
fetched, whether it has finished, whether its state lies saved in its save area, since when a wait of its head counts, and
the K_LEN count saved with it (R120). -/
structure Pos where
  next : Nat
  index : Nat
  fetched : List (Nat × HitchWord)
  ended : Bool
  finished : Bool
  saved : Bool
  since : Option Nat
  kLen : Nat
  deriving DecidableEq, Repr

/-- A power estimate that changes at a bounded rate (R554): what it was at an instant, and what it approaches, in mW. -/
structure Ramp where
  level : Nat
  aim : Nat
  since : Nat
  deriving DecidableEq, Repr

/-- A hank: its eight positions, the place each position is mapped to since the last step start that could change the
mapping (R101), the position that holds each physical place, the position last emitted (R134), the rotation in force, its band, pattern
and last estimate (R452, R453), its seed table with its address (R65, R108), its power estimate and since when its hitches are
gated (R555). -/
structure Hank where
  pos : Map Pos
  place : Map Nat
  emitted : Nat
  onPlace : Map Nat
  descRead : Bool
  scratchLive : Bool
  progAct : Nat
  rotation : Nat
  rotatedAt : Nat
  lastPower : Nat
  band : Nat
  pattern : Nat
  banded : Bool
  temp : Int
  backNs : Nat
  atnPart : Nat
  heldSince : Option Nat
  microSlot : Nat
  seeds : List Nat
  seedAddr : Nat
  seedsRead : Bool
  ramp : Ramp
  gatedSince : Option Nat
  deriving DecidableEq, Repr

/-! Records, events and replies (chapters 15 and 16) -/

/-- A fault signature record (R456): its keys, with `wher` the WHERE map, `detail` the DETAIL map and `peer` the PEER
map. -/
structure Record where
  num : Nat
  kind : Nat
  time : Nat
  status : Option Nat
  part : Option Nat
  step : Nat
  run : Nat
  wher : List (Nat × Nat)
  strand : Option (Nat × Nat × Int)
  pack : Option (Nat × Nat × Nat)
  mpa : Option Nat
  pma : Option Nat
  telltales : Option (Nat × Nat)
  peer : List (Nat × Nat)
  action : Nat
  detail : List (Nat × Nat)
  partNum : Nat
  qmask : Option Nat
  deriving DecidableEq, Repr

/-- An event of a session (R416): its number, KIND, status, subject, module time, detail, and when it was last sent. -/
structure Event where
  num : Nat
  kind : Nat
  status : Nat
  subject : Nat
  time : Nat
  detail : List Byte
  sentAt : Nat
  deriving DecidableEq, Repr

/-- A reply (R415): the SEQ of its command, its status and its parameters. -/
structure Reply where
  seq : Nat
  status : Nat
  data : List Byte
  deriving DecidableEq, Repr

/-- A Hawser session (R409 to R416, R424): its key, the window and queue of its commands, its stored replies, its event
store, the last event acknowledged, its last fault-record acknowledgement (R458), the latched high words by register
(R24), the shadows of splice groups it has written, its SPL_RESULT, its attestation report (R486), whether it closes with its
next reply (R482), whether it is the former session of a partition being whipped (R492), and the module each relayed command
came from by SEQ (R414). -/
structure Session where
  key : Key
  window : Window
  queue : List HFrame
  replies : List Reply
  events : List Event
  nextEvent : Nat
  fsrAck : Nat
  latches : Map Nat
  shadow : Map Nat
  splResult : Nat
  report : List Byte
  closing : Bool
  former : Bool
  via : Map Nat
  deriving DecidableEq, Repr

/-- What the block sends: replies and events on the host ports, relayed frames, Ecron packets, control blocks (kind and
content), SMBus answers (R574), peer-delay requests, and what a line read or write by MPA delivers (R157, R160). Sync messages are
no part of it. -/
inductive Out where
  | reply (session : Nat) (r : Reply)
  | relayReply (dst session : Nat) (r : Reply)
  | event (session : Nat) (e : Event)
  | frame (port : Nat) (f : HFrame)
  | relay (dst : Nat) (f : HFrame)
  | packet (port : Nat) (p : Packet)
  | block (port : Nat) (kind : Nat) (content : List Nat)
  | smbus (bytes : List Byte)
  | nack
  | pdelay (port : Nat)
  | line (mpa status : Nat) (data : List Byte)
  deriving DecidableEq, Repr

/-! Partitions (chapters 4, 16 and 18) -/

/-- The state of a partition (R432, R475): `creating` from the acceptance of PART_CREATE until it is ACTIVE; it reads
NONE until then. -/
inductive PartState where
  | none
  | creating
  | active
  | resetting
  | whipping
  deriving DecidableEq, Repr

/-- HNK_STATUS.PHASE (R143). -/
inductive StepPhase where
  | idle
  | running
  | committing
  | replaying
  | abandoned
  deriving DecidableEq, Repr

/-- The recorded blocking status of a run (R140, R141): when it was raised, status, its class (1 Fault, 2 Program), hank, position and index, and the strand that raised
it. -/
structure Blocking where
  time : Nat
  status : Nat
  cls : Nat
  hank : Nat
  pos : Nat
  index : Nat
  strand : Option Nat
  deriving DecidableEq, Repr

/-- A member engine of a group a step used, to which votes go (R385, R403): its place and role, and the group's tag, own
index and size. -/
structure Peer where
  modNum : Nat
  part : Nat
  die : Nat
  role : Nat
  epoch : Nat
  tag : Nat
  index : Nat
  n : Nat
  deriving DecidableEq, Repr

/-- The vote of a run (R403, R404): whether READY or ABORT was sent, the members whose READY has arrived, when READY was
sent, and when the members were last queried. -/
structure Vote where
  step : Nat
  run : Nat
  sent : Nat
  members : List (Nat × Nat)
  ready : List (Nat × Nat)
  sentAt : Nat
  queried : Nat
  deriving DecidableEq, Repr

/-- The step of a partition (R106 to R110, R138 to R142, R403, R439 to R447); `missed` is the last step that BOUND_MISS_COUNT
counts (R287), `stopping` that a reset or a seizure has stopped it at `stopAt` and its issued hitches still drain
(R427, R506). -/
structure StepRec where
  counter : Nat
  run : Nat
  phase : StepPhase
  mode : Nat
  modeNext : Option Nat
  go : Bool
  trigger : Bool
  blocking : Option Blocking
  faults : List Nat
  excluded : List Nat
  fixed : Bool
  paired : Bool
  limit : Nat
  missed : Option Nat
  stopping : Bool
  stopAt : Nat
  waitNs : Nat
  startedAt : Nat
  commitAt : Nat
  collective : Bool
  groups : List Peer
  votes : List Vote
  committedAny : Bool
  rotation : Nat
  releases : List Nat
  collIds : List Nat
  rowsSent : Bool
  deriving DecidableEq, Repr

/-- A partition (R472 to R478): its state, hanks, generation, tenant digest, whether it keeps a key, its quota of pages,
sequence-ID range, prefix handles, the save areas of its hanks (R136), the creation or destruction in progress, and the
sessions and SEQs of the PART_DESTROY commands that await its end (R490) and of the RESET_FUNCTION commands that wait for its
reset to end (R426). -/
structure Part where
  state : PartState
  hanks : List Nat
  gen : Nat
  tenant : List Byte
  seqBase : Nat
  seqSize : Nat
  handles : Nat
  pgHbm : Nat
  pgCt : Nat
  pageBase : Nat
  pageBaseCt : Nat
  chainBase : Nat
  chainSize : Nat
  saveArea : Nat
  cmdSeq : Nat
  cmdSession : Nat
  whipStart : Nat
  destroyCmds : List (Nat × Nat)
  resetCmds : List (Nat × Nat)
  resets : Spans
  txKey : Option Nat
  records : Nat
  firstRecord : Nat
  step : StepRec
  deriving DecidableEq, Repr

/-! Module memory (chapter 5) -/

/-- A memory error log entry (R172): line number (MPA / 64), found by the patrol, class, owner, symbols corrected and
time. -/
structure MemErr where
  line : Nat
  patrol : Bool
  cls : Nat
  owner : Nat
  symbols : Nat
  time : Nat
  deriving DecidableEq, Repr

/-- A memory unit (R145 to R170): lines that fail with the change each holds, until a full-line write (R158), lines
with queued correction write-backs (R159), retired blocks with their spare numbers (R165), the next free spare, blocks
reported RETIRE_FULL (R167), the patrol's next line, its corrections by block in this pass and the blocks that its pass
has made qualify (R165, R168), the blocks that qualify and are not yet retired (R165), and completed passes. -/
structure MemUnit where
  bad : Map ReadErr
  writebacks : List Nat
  retired : Map Nat
  spares : Nat
  full : List Nat
  patrol : Nat
  passCe : Map Nat
  passDue : List Nat
  due : List Nat
  passes : Nat
  deriving DecidableEq, Repr

/-- A memory controller: its state (R172), the tag lines its cache holds, most recent first within a set, and those of
them that are dirty (R162). -/
structure MemCtl where
  state : Nat
  tagCache : List Nat
  tagDirty : List Nat
  deriving DecidableEq, Repr

/-! Fairlead (chapter 6) -/

/-- A pending request at a point: requester, owner, length, the cycle it was raised in, and whether it is idle-only (R182). -/
structure Request where
  requester : Nat
  owner : Nat
  cycles : Nat
  raised : Nat
  idleOnly : Bool
  deriving DecidableEq, Repr

/-- A grant: requester, owner, whether it is a background or idle-only grant, its first cycle, the cycle it is due to
complete in, and what it changed, which a grant that did not take place gives back (R187): the requester last granted to its
owner and in the background, its owner's starvation count and whether that had raised its event. -/
structure Grant where
  requester : Nat
  owner : Nat
  background : Bool
  start : Nat
  finish : Nat
  before : Nat × Nat × Nat × Bool
  deriving DecidableEq, Repr

/-- An arbitration point (R182 to R192): its pending requests, its grant, the requester last granted for each owner, the
requester last granted in the background, each requester's consecutive losses and the end of its back-off, the cycle in
which each owner's last grant ended, each owner's starvation count, the cycle in which it began, the cycle they were last
brought up to, the owners whose present count has raised its event, and the domain and resettable function of each requester
that has asked (R190). -/
structure Point where
  requests : List Request
  grant : Option Grant
  lastOwner : Map Nat
  lastBack : Nat
  losses : Map Nat
  backoff : Map Nat
  freed : Map Nat
  starve : Map Nat
  starveFrom : Map Nat
  counted : Nat
  starved : List Nat
  sources : Map (Option Nat × Option (Nat × Nat))
  deriving DecidableEq, Repr

/-- A Fairlead instance: the tables in force (table × 256 + entry, 31 where none is listed), the tables they replaced and
the cycle each table switched in (R192), the committed tables not yet in force with the cycle each takes effect in (R194),
its points, the last commits of FLD_CTRL and of FLD_BG_ENABLE, newest first, each with its cycle and the value before it
(R194), and the cycle of the last starvation event. -/
structure FldInst where
  tables : Map Nat
  prev : Map Nat
  switched : Map Nat
  waiting : Map (Nat × List Nat)
  points : Map Point
  oldCtrl : List (Nat × Nat)
  oldBg : List (Nat × Nat)
  locAt : Option Nat
  deriving DecidableEq, Repr

/-! Ecron (chapter 13) -/

/-- The credits of one VC and lane of a port (R382): transmit side available and outstanding, receive side free, held
and owed, the counts that SYNC compares, the allocations of the peer and of this module in force, and the credits returned at
the time `freshAt`, which a send decision of the same cycle does not see yet (R367). -/
structure Credit where
  avail : Nat
  outstanding : Nat
  rxFree : Nat
  rxHeld : Nat
  rxOwed : Nat
  sentFlits : Nat
  recvFlits : Nat
  sentCredits : Nat
  recvCredits : Nat
  peerAlloc : Nat
  ownAlloc : Nat
  freshAt : Nat
  fresh : Nat
  deriving DecidableEq, Repr

/-- An Ecron port (R361 to R365): its state and when it entered it, flags of ECN_PORT_STATE, its peer, block indices and
acknowledgements, the first index a replay is awaited from, failed retrains, uncorrectable codewords of the last
millisecond, the symbols corrected in the last second with their times, the last times of codewords and sent control blocks, its
replay buffer (each packet and control block sent and not yet acknowledged, under its last block index), the allocations it
declared in HELLO, and its credits by VC × 2 + lane. -/
structure Port where
  state : Nat
  since : Nat
  retryAt : Option Nat
  wiringBad : Bool
  peerSeized : Bool
  compat : Bool
  peer : Option (Nat × Nat)
  peerNonce : Nat
  ownNonce : Nat
  txIndex : Nat
  txAcked : Nat
  rxIndex : Nat
  awaiting : Option Nat
  retrainFails : List Nat
  uncorr : List Nat
  symErrs : List (Nat × Nat)
  lastCodeword : Nat
  lastAck : Nat
  lastKeep : Nat
  lastSync : Nat
  inFlight : List (Nat × Out)
  declared : List Nat
  credits : Map Credit
  deriving DecidableEq, Repr

/-- A packet in a hub queue: the packet, whether this module originated it, its output port, and for a held packet the
time it was first held (R373). -/
structure Held where
  packet : Packet
  since : Nat
  deriving DecidableEq, Repr

/-- An unbraided bulk packet awaiting its ACK (R379): the packet, when it was last sent and its resends. -/
structure Bulk where
  packet : Packet
  sentAt : Nat
  resends : Nat
  deriving DecidableEq, Repr

/-- A role directory entry (R507): holder module, holder partition and role epoch. -/
structure Role where
  modNum : Nat
  part : Nat
  epoch : Nat
  deriving DecidableEq, Repr

/-- Ecron on the hub die: ports, the send counter of each (destination, VC), the receive window of each (source, VC),
the peer-epoch table by module × 32 + partition, the role directory, the hold queue, unacknowledged bulk packets, the
transmit queue (output port, input port with 18 for this module's own, packet), each group member's port states, the
modules whose last KEEPALIVE said SEIZED, when and what port states were last announced, and the next entry number of the
hold and transmit queues. -/
structure Ecron where
  ports : Map Port
  txSeq : Map Nat
  windows : Map Window
  peerEpoch : Map Nat
  directory : Map Role
  holds : Map Held
  bulk : Map Bulk
  txq : Map (Nat × Nat × Packet)
  members : Map Nat
  seized : List Nat
  lastState : Nat
  lastStates : Nat
  nextSlot : Nat
  deriving DecidableEq, Repr

/-! Hawser ports and time (chapter 15) -/

/-- A host port (R408, R417, R418, R428, R503): its link, elimination history by stream (the highest R-TAG and the 32
values below it), its gate list in force with the start of its cycle and current entry, a gate list awaiting its base
time, PTP reception, peer-delay measurement and holder heartbeats. -/
structure HostPort where
  linkUp : Bool
  fecLock : Bool
  gateOn : Bool
  gateList : List (Nat × Nat)
  gateCycle : Nat
  gateStart : Nat
  gateEntry : Nat
  gateWait : Option (Bool × List (Nat × Nat) × Nat × Nat)
  syncAt : Option Nat
  offset : Int
  pdelayAt : Nat
  lastHb : Option Nat
  silentSent : Bool
  deriving DecidableEq, Repr

/-- An 802.1CB recovery function (R417): its highest R-TAG, the tags taken, and when a frame was last accepted. -/
structure Recovery where
  high : Nat
  taken : List Nat
  at_ : Nat
  deriving DecidableEq, Repr

/-- Module time from PTP (R428, R429): 0 FREE, 1 LOCKED, 2 HOLDOVER; the port in use, the offset to be slewed, and the
last Sync. -/
structure Ptp where
  state : Nat
  port : Nat
  slew : Int
  lastSync : Nat
  deriving DecidableEq, Repr

/-! Leases (chapter 19) -/

/-- The lanyard record and the role lease (R498, R503 to R507): epoch, holder (0 none), duration in ms, expiry, whether the
role lease is armed, its last accepted heartbeat with the duration and grace in ms then in force, the last accepted holder
heartbeat, whether the holder is declared lost, and SEIZED. -/
structure Lease where
  epoch : Nat
  holder : Nat
  duration : Nat
  expiry : Nat
  armed : Bool
  roleLast : Nat
  roleDuration : Nat
  grace : Nat
  lastHb : Nat
  lost : Bool
  seized : Bool
  deriving DecidableEq, Repr

/-! KV pages and the bight (chapter 8) -/

/-- The state of a page-table entry (R230). -/
inductive PageState where
  | free
  | live
  | moving
  | inbound
  deriving DecidableEq, Repr

/-- A page-table entry (R230), by module index: state, tier, TTL, owner, format tag, committed positions, frame (MPA of
its first byte / 65,536), following page, holders and expiry. -/
structure Page where
  state : PageState
  ct : Bool
  ttlOn : Bool
  part : Nat
  fmt : Nat
  mx : Bool
  d32 : Nat
  fill : Nat
  frame : Nat
  next : Nat
  refs : Nat
  expiry : Nat
  deriving DecidableEq, Repr

/-- The free list of one partition and tier (R231): its returned entries, head first, then the entries from `next` to
`limit` never taken. -/
structure FreeList where
  returned : List Nat
  next : Nat
  limit : Nat
  deriving DecidableEq, Repr

/-- The state of a chain (R232). -/
inductive ChainState where
  | closed
  | opened
  | starved
  | paused
  | preempted
  deriving DecidableEq, Repr

/-- A chain record (R232), by module index: HEAD, TAIL, OWN_HEAD and the pages shared from a prefix handle in walk order (R233),
KV_CORRUPT of R441, and whether a KV_WALK of the step has expanded it (R237). -/
structure Chain where
  head : Option Nat
  tail : Nat
  ownHead : Option Nat
  shared : List Nat
  part : Nat
  fmt : Nat
  mx : Bool
  d32 : Nat
  len : Nat
  seq : Nat
  state : ChainState
  corrupt : Bool
  walked : Bool
  deriving DecidableEq, Repr

/-- The state of a bight entry (R239). -/
inductive SlotState where
  | pending
  | held
  | flushing
  deriving DecidableEq, Repr

/-- A bight entry (R238): its die, first slot and number of slots, its chain, chain position and state. -/
structure Bight where
  die : Nat
  slot : Nat
  n : Nat
  part : Nat
  chain : Nat
  position : Nat
  state : SlotState
  deriving DecidableEq, Repr

/-- A page move or demotion under way (R252): source, target, and the promotion or demotion it makes. -/
structure Move where
  part : Nat
  source : Nat
  target : Nat
  demote : Bool
  since : Nat
  deriving DecidableEq, Repr

/-- A KV_SHIP under way at its sender (R254, R255): its sequence, target, its pages, whether the receiver has accepted it, the
restarts so far, and the command it answers. -/
structure Ship where
  part : Nat
  seq : Nat
  copy : Bool
  modNum : Nat
  toPart : Nat
  role : Nat
  firstChain : Nat
  epoch : Nat
  toSend : List (Nat × Nat)
  accepted : Bool
  shipped : Nat
  restarts : Nat
  cmdSeq : Nat
  session : Nat
  deriving DecidableEq, Repr

/-- A ship under way at its receiver (R254): its sender and number, partition, chains opened and pages not yet written. -/
structure Inbound where
  fromModule : Nat
  fromPart : Nat
  num : Nat
  part : Nat
  chains : List Nat
  pages : List Nat
  deriving DecidableEq, Repr

/-- KV state of the module: the page table, free lists by partition × 2 + tier, chain table, bight entries, acceptances
of the step under way by sequence (R242), moves and ships. -/
structure Kv where
  pages : Map Page
  lists : Map FreeList
  chains : Map Chain
  bight : List Bight
  accepts : Map Nat
  moves : List Move
  ships : Map Ship
  inbound : List Inbound
  nextShip : Nat
  regionForce : Map Nat
  starvedSince : Map Nat
  nonEmptyAt : Map Nat
  deriving DecidableEq, Repr

/-! Serving (chapter 9) -/

/-- The state of a sequence (R261). -/
inductive SeqState where
  | queued
  | prefill
  | decode
  | starved
  | paused
  | preempted
  | retired
  deriving DecidableEq, Repr

/-- A sequence in use (R259 to R285), by sequence ID: its request, admission number, state and the state a resume
returns to, committed prompt positions, tokens written, the last token, and what awaits the next commit. -/
structure Sequence where
  part : Nat
  account : Nat
  priority : Nat
  admission : Nat
  prefillOnly : Bool
  fmt : Nat
  mx : Bool
  d32 : Nat
  drafts : Nat
  promptLen : Nat
  prefixPos : Nat
  maxNew : Nat
  prompt : Nat
  deadline : Nat
  state : SeqState
  back : SeqState
  done : Nat
  tokens : Nat
  lastToken : Nat
  cancelled : Bool
  pausing : Bool
  preempting : Bool
  resuming : Bool
  seen : Bool
  fault : Option (Nat × Nat)
  desc : List Byte
  deriving DecidableEq, Repr

/-- A reel's control block (R275): records written since creation, and acknowledged; both outlive the reuse of its
ID (R288). -/
structure Reel where
  wr : Nat
  rd : Nat
  deriving DecidableEq, Repr

/-- A budget account (R266). -/
structure Account where
  part : Nat
  en : Bool
  rate : Nat
  cap : Nat
  balance : Nat
  reserved : Nat
  refilled : Nat
  capped : Nat
  charged : Nat
  adjIn : Nat
  adjOut : Nat
  prefilled : Nat
  drafted : Nat
  accepted : Nat
  residue : Nat
  pending : Option (Nat × Nat × Bool)
  deriving DecidableEq, Repr

/-- A prefix handle (R282): its partition, generation, tag, pages per chain and the pages of each chain in walk order, of which
the first is the one it names. -/
structure Handle where
  part : Nat
  gen : Nat
  live : Bool
  fmt : Nat
  mx : Bool
  d32 : Nat
  pages : Nat
  chains : List (List Nat)
  deriving DecidableEq, Repr

/-- A batch entry of the step under way (R274, R280): sequence ID, kind, first position, tokens, drafts, last chunk,
frames per chain and the staging slots' records (token, AUX) with the STOP mark. -/
structure BatchEntry where
  seq : Nat
  chunk : Bool
  pos0 : Nat
  tokens : Nat
  drafts : Nat
  last : Bool
  frames : Nat
  stage : Nat
  staged : List (Nat × Nat)
  stop : Bool
  bytes : List Byte
  deriving DecidableEq, Repr

/-- The serving engines: sequences, reels, accounts, prefix handles by partition × 65,536 + index, each partition's
batch and next admission number, reserved pages (R272), the module totals of R288, and the accounts and reels frozen by a
snapshot (R27), by the partition whose SNAP holds them (16 for SRV_SNAP) × 2^20 + number. -/
structure Serve where
  seqs : Map Sequence
  reels : Map Reel
  accounts : Map Account
  handles : Map Handle
  handleGen : Map Nat
  batch : Map (List BatchEntry)
  batchAt : Map Nat
  admission : Map Nat
  reservedPages : Map Nat
  staged : Nat
  committed : Nat
  discarded : Nat
  engine : Nat
  inStage : Nat
  lastRefill : Nat
  deferredRefill : Map Nat
  heldAccounts : Map Account
  heldReels : Map Reel
  deriving DecidableEq, Repr

/-! Expert dispatch and collectives (chapters 10 and 14) -/

/-- A route entry of a running SEND that has not signalled yet (R299): its token and rank, home tried, the ROLE_MOVED
answers that its row to each home drew (a row that moves through replicas counts under home 0), whether it is a SHARDS entry,
the shards landed, the pieces of return rows that have come (shard, offset, bytes), the place of its sums in the shard area,
and whether they have lost a bit (R304). -/
structure RouteEntry where
  token : Nat
  rank : Nat
  expert : Nat
  home : Nat
  moved : Map Nat
  sharded : Bool
  shards : Nat
  landed : List Nat
  parts : List (Nat × Nat × List Byte)
  place : Option Nat
  lost : Bool
  deriving DecidableEq, Repr

/-- A SEND of the step under way (R296 to R299): strand, position and list index, its operand area, and the entries
whose returns are awaited. It outlives its hitch's completion, for its late statuses. -/
structure SendCtx where
  strand : Nat
  hank : Nat
  pos : Nat
  index : Nat
  part : Nat
  step : Nat
  run : Nat
  word : HitchWord
  entries : List RouteEntry
  deriving DecidableEq, Repr

/-- A piece of a filled receive slot of the step (R300, R301): local expert, row number, its source, token, rank and
shard, the piece's offset, and the telltale of the copy accepted. -/
structure RxRow where
  part : Nat
  expert : Nat
  row : Nat
  src : Nat
  token : Nat
  rank : Nat
  shard : Nat
  offset : Nat
  telltale : Nat
  deriving DecidableEq, Repr

/-- A packet delivered to a die engine and not yet taken, or waiting there for its step, with its arrival time. -/
structure Delivered where
  packet : Packet
  at_ : Nat
  waiting : Bool
  deriving DecidableEq, Repr

/-- A running collective (R387 to R396): the hitch that runs it, its group's members (module, partition, die, role,
epoch), own index, and the messages that have arrived: first messages, keys by chunk × 256 + member, anchors by chunk,
contributions accepted as (member, first) with their telltales, lost chunks, results and DONE by member; and what it has sent: contributions and DONE
by member, ROLE_MOVED answers by message, and whether its own chunks are reduced. -/
structure Coll where
  strand : Nat
  id : Nat
  part : Nat
  hank : Nat
  pos : Nat
  index : Nat
  word : HitchWord
  step : Nat
  run : Nat
  tag : Nat
  self_ : Nat
  members : List (Nat × Nat × Nat × Nat × Nat)
  issuedAt : Nat
  first : List Nat
  keys : Map (Nat × Nat)
  anchors : Map Nat
  accepted : List (Nat × Nat × Nat)
  lost : List Nat
  results : List Nat
  dones : List Nat
  sentTo : List Nat
  doneTo : List Nat
  reduced : Bool
  moved : Map Nat
  deriving DecidableEq, Repr

/-- A dispatch-and-collective engine, an attention sequencer and a crop-and-resize engine of one die: the routing cache
(partition × 65,536 + entry, 48 bytes), packets delivered, running collectives, until when the engine and the crop-and-resize engine are in reset, and the crop-and-resize engine's busy time below
1 µs in ps, in all and by partition. -/
structure Engine where
  cache : Map (List Byte)
  rx : List Delivered
  colls : List Coll
  resetUntil : Nat
  crResetUntil : Nat
  resets : Spans
  crResets : Spans
  crPs : Nat
  crPartPs : Map Nat
  deriving DecidableEq, Repr

/-- Dispatch state of the module: the engines by die, running and late SENDs, receive rows, the token and collective
packets sent in the steps under way, to which a REFUSE refers, the data (source, destination and payload header) whose telltale
a receiver refused once (at the sender, and at the receiver), by partition (R401), the splice groups in force by partition (taken at step start),
and the return slots of hank regions in the order in which their last returns landed (R307). -/
structure Dispatch where
  engines : Map Engine
  sends : List SendCtx
  rows : List RxRow
  sentLog : List Packet
  ttSent : List (Nat × List Byte)
  ttSeen : List (Nat × List Byte)
  force : Map (List Nat)
  colForce : Map (List Nat)
  landings : List Nat
  deriving DecidableEq, Repr

/-! Video (chapter 11) -/

/-- What is known of a stored picture (R316, R319): coded size, crop, sample size, flags, PTS, unit number, concealed blocks, its
place in the order of decoding, and the film grain parameters coded for it, with the picture before grain once grain has been
applied to the buffer (R311). -/
structure PicInfo where
  width : Nat
  height : Nat
  cropX : Nat
  cropY : Nat
  cropW : Nat
  cropH : Nat
  tenBit : Bool
  flags : Nat
  pts : Nat
  seq : Nat
  ctbs : Nat
  order : Nat
  grain : List Byte
  clean : Option (List Byte)
  deriving DecidableEq, Repr

/-- A pool buffer that is not FREE or has a generation above 0 (R315, R317), by module buffer number: REF holder
(context + 1, 0 none), DECODING (context + 1), hold count, generation, the context its released holds count against, the
transient holds of CROP_RESIZE hitches (strand, entry number; R358), and the picture it stores. -/
structure Buffer where
  ref : Nat
  decoding : Nat
  holds : Nat
  gen : Nat
  charged : Option Nat
  transient : List (Nat × Nat)
  pic : Option PicInfo
  deriving DecidableEq, Repr

/-- A unit of an input ring, or a submitted frame of an encode context, waiting for its picture: unit number, bytes,
time stamp, flags, its place in the ring, the handle to encode, and when it was fed. -/
structure Unit_ where
  seq : Nat
  length : Nat
  pts : Nat
  eos : Bool
  place : Nat
  handle : Nat
  forceIdr : Bool
  fedAt : Nat
  order : Nat
  deriving DecidableEq, Repr

/-- An open stream context (R313, R319, R328 to R330): its descriptor and units, record counts, records waiting for room
(with the BITS bytes of a UNIT record), its BITS ring, the encoder's references, newest first, and its rate control. -/
structure VidCtx where
  part : Nat
  kind : Nat
  desc : List Byte
  units : List Unit_
  lastUnit : Option Nat
  ringTail : Nat
  ringUsed : Nat
  wr : Nat
  rd : Nat
  needRap : Bool
  waitSince : Option Nat
  closing : Bool
  bitsTail : Nat
  bitsUsed : Nat
  unitBytes : List (Nat × Nat)
  outQ : List (List Byte × Nat)
  refs : List Nat
  pictures : Nat
  sinceIdr : Nat
  fullness : Int
  qpF : Int
  deriving DecidableEq, Repr

/-- A core's share of a picture (R321): all of it, or the tiles, CTB rows or slices whose number is i modulo m. -/
inductive Share where
  | whole
  | tiles (i m : Nat)
  | rows (i m : Nat)
  | slices (i m : Nat)
  deriving DecidableEq, Repr

/-- A core's picture in progress (R318, R320): 0 none, 2 decoding, 3 encoding; its context, the head unit on the core that
leads a divided picture (R321), its buffer, when it started, up to when its time is
counted and the part of it below 1 µs (R105), how it shares a divided picture, its resets (R426), and its power estimate
(R555). -/
structure VidCore where
  state : Nat
  ctx : Nat
  unit : Option Unit_
  buffer : Nat
  since : Nat
  counted : Nat
  ns : Nat
  share : Share
  resetUntil : Nat
  resets : Spans
  ramp : Ramp
  deriving DecidableEq, Repr

/-- The video cores: contexts, buffers, cores, and the order number of the next fed unit (R320). -/
structure Video where
  ctxs : Map VidCtx
  buffers : Map Buffer
  cores : Map VidCore
  order : Nat
  partNs : Map Nat
  deriving DecidableEq, Repr

/-! Firmware update (chapter 20) -/

/-- A coil slot: its state (R516), its coil as received (header, blocks and signature, R514), and the bytes received of the
part of a load in progress. -/
structure CoilSlot where
  state : Nat
  header : List Byte
  blocks : List (List Byte)
  part : List Byte
  signature : List Byte
  deriving DecidableEq, Repr

/-- The loader (R515 to R526): the two slots, the slot each component runs from (1 strand microcode, 2 control-core
firmware, 3 Aelpo services and Hawser; 0 is slot A), the minimum SVN, the settings areas kept, a pending data-path
schedule with the command it answers, its step-start hold in ms and whether it is preloaded, a management start in progress
with the frames held during the pause, the arrival times of the commands that were held (session, SEQ, time), and the
instant a trial opened with the window then in force in minutes. -/
structure Update where
  slotA : CoilSlot
  slotB : CoilSlot
  loading : Option Nat
  micro : Nat
  ccf : Nat
  mgmt : Nat
  minSvn : Nat
  dual : Bool
  schedT : Option Nat
  schedSlot : Nat
  schedFallback : Bool
  schedSession : Nat
  schedSeq : Nat
  lead : Nat
  preloaded : Bool
  switching : List Nat
  paused : Option Nat
  pauseSlot : Nat
  pauseFallback : Bool
  pauseSession : Nat
  pauseSeq : Nat
  held : List (Nat × HFrame × Nat)
  stamps : List (Nat × Nat × Nat)
  trialAt : Option Nat
  trialWindow : Nat
  overdueSent : Bool
  deriving DecidableEq, Repr

/-! Power (chapter 21) -/

/-- Where a domain stands (R530, R533, R536). -/
inductive DomState where
  | on
  | retention
  | off
  | entering
  | waking
  deriving DecidableEq, Repr

/-- A power domain (R528 to R539): its state, the TARGET it reads, the phase of an entry (1 QUIESCE, 2 SAVE), the state it
enters or wakes from, whether its cleats are held and by request, its save area, since when an access waits for its entry to
end, and the TARGET write that waits. -/
structure Domain where
  state : DomState
  target : Nat
  phase : Nat
  toOff : Bool
  fromOff : Bool
  since : Nat
  cleated : Bool
  holdCleats : Bool
  saved : List (Nat × Word)
  saveValid : Bool
  defaulted : Bool
  wakeQueued : Option Nat
  queuedTarget : Option (Nat × Bool)
  offSpans : Spans
  deriving DecidableEq, Repr

/-- The domains and the island's regulator (R540, R541). -/
structure Power where
  doms : Map Domain
  lpActive : Bool
  current : Nat
  deriving DecidableEq, Repr

/-! Cooling and ageing (chapter 22) -/

/-- A sensor pair (R546, R547): readings in 0.1 °C, none when failed, when each was last updated, the governed values of
the last 10 samples, newest first, since when the readings have been more than 5 K apart or, in a split, within 5 K, and
whether SENSOR_SPLIT is raised, and since when its governed value has been 110 °C or above. -/
structure Spot where
  a : Option Int
  b : Option Int
  aAt : Nat
  bAt : Nat
  governed : List Int
  apartSince : Option Nat
  withinSince : Option Nat
  split : Bool
  overSince : Option Nat
  deriving DecidableEq, Repr

/-- The ageing state of a hank (R551, R558): the hold by its sensors and by its guardband, degradation and ring slowdown
in 0.01 %, the guardband in force in mV, one that waits for an idle boundary, and AGED. -/
structure Ageing where
  sensorHold : Nat
  ageHold : Nat
  hold : Nat
  d : Nat
  ring : Nat
  g : Nat
  gNext : Option Nat
  aged : Bool
  deriving DecidableEq, Repr

/-- The thermal controller (R545 to R559): the spots, the reef step and the boundary that evaluated it, the highest
junction and memory values at the last 10 boundaries, newest first, the inlet's timer, whether a trip to step 3 is in
force, whether the module has shut down at 110 °C, each hank's ageing, the last re-plan, the parts of 1 µs of gated time by
partition (R555), and the keep-warm fill (R556). -/
structure Thermo where
  spots : Map Spot
  step : Nat
  lastBoundary : Nat
  history : List (Int × Int)
  hotSince : Option Nat
  hotSent : Bool
  trip : Bool
  shut : Bool
  ageing : Map Ageing
  lastRemargin : Nat
  rampNs : Map Nat
  warm : Ramp
  deriving DecidableEq, Repr

/-! Start-up and pins (chapter 23) -/

/-- The start (R563 to R575): whether the input is qualified, whether the module drives PRSNT_N low, PWRGD and RESET_N high,
phase 1 to 9 with its start, failure and cause, DEGRADED, DIR_READY,
the straps as read, VIN in 0.1 V, INPUT_OK and the latch; `board` counts the ms from t0 frozen at READY. -/
structure Start where
  qualified : Bool
  qualifiedAt : Nat
  prsnt : Bool
  pwrgd : Bool
  resetN : Bool
  phase : Nat
  phaseAt : Nat
  failed : Bool
  cause : Nat
  degraded : Bool
  dirReady : Bool
  leaseWaitAt : Nat
  slotId : Nat
  vin : Nat
  inputOk : Bool
  latchOpen : Bool
  gwCommitted : Bool
  deriving DecidableEq, Repr

/-! Security (chapter 18) -/

/-- An opening under way in a session (R479): its window, commander, kind, and the fragments taken. -/
structure Opening where
  window : Window
  kind : Nat
  frags : List (Nat × List Byte)
  deriving DecidableEq, Repr

/-- The security block (R477 to R491): the module generation and boot counters kept in flash, job keys by ID with their
partition, memory key slots that hold a key, the commander trust list, the openings, DEBUG_OPEN, and the module time of the
last attestation report. -/
structure Security where
  gen : Nat
  bootCount : Nat
  jobKeys : Map (Nat × Key)
  slots : List Nat
  trust : Map (List Byte)
  openings : Map Opening
  debugOpen : Bool
  signedAt : Nat
  deriving DecidableEq, Repr

/-! Determinism (chapter 17) -/

/-- The journal of a partition (R466 to R469): slots written and taken by replay, the replay's halt cause, the
retirements that replay makes at the next commit, those to journal (local index and reason), and the enable, area and
size taken at the step start (R462). -/
structure Journal where
  wr : Nat
  taken : Nat
  halt : Nat
  toRetire : List (Nat × Nat)
  retired : List (Nat × Nat)
  force : List Nat
  deriving DecidableEq, Repr

/-! Checks (chapter 16) -/

/-- A test of a pattern pack as a run took it (R449 to R451): its slot and number, the identification and version of its pack,
the load pattern imposed, the expected telltale and the bound in µs. -/
structure PackTest where
  slot : Nat
  num : Nat
  id : Nat
  version : Nat
  pattern : Nat
  expected : Nat
  bound : Nat
  deriving DecidableEq, Repr

/-- The pattern-pack run of a die (R450, R451): the strand of the die last taken, when, the strand taken now, the test under way
and those that follow it, as slot and number. -/
structure Pack where
  last : Nat
  at_ : Nat
  strand : Option Nat
  cur : Option PackTest
  rest : List (Nat × Nat)
  deriving DecidableEq, Repr

/-- The fault signature records of the module ring, newest first, with the next record number, and the pack tests by
die. -/
structure Checks where
  ring : List Record
  next : Nat
  packs : Map Pack
  commanderAck : Nat
  deriving DecidableEq, Repr

/-- The state of the module. `pending` is the queue of commands waiting, `now` the last instant of module time, `fresh`
the number of free values taken (log entry 8), `regs` the registers that hold a value of their own by address, none
listed at its reset value, `mem` every addressed memory (log entry 4), `owners` the MEM_OWN bytes by unit × 256 +
granule, FREE where none is listed (R147), and `sent` what the block has sent, newest first. `recoveries` is kept by stream, and `meters` holds each flow meter's committed and
excess tokens in 1/8,000,000 byte with the instant they were last brought up to (R417). -/
structure State where
  pending : List Instr
  now : Nat
  fresh : Nat
  regs : Map Nat
  mem : List Host.Cell
  owners : Map Nat
  strands : Map Strand
  dieKnots : Map Nat
  hanks : Map Hank
  parts : Map Part
  units : Map MemUnit
  ctls : Map MemCtl
  errLogs : Map (List MemErr)
  errDropped : Map Nat
  fairlead : Map FldInst
  ecron : Ecron
  sessions : Map Session
  hostPorts : Map HostPort
  recoveries : Map Recovery
  meters : Map (Nat × Nat × Nat)
  ptp : Ptp
  lease : Lease
  kv : Kv
  serve : Serve
  dispatch : Dispatch
  video : Video
  update : Update
  power : Power
  thermo : Thermo
  start : Start
  security : Security
  journals : Map Journal
  checks : Checks
  snaps : Map Nat
  sent : List Out
  deriving DecidableEq, Repr

/-! The empty record of each kind: what a map reads where nothing is listed, and what reset leaves. -/

/-- No entry taken. -/
def Window.empty : Window := { high := 0, seen := [] }

/-- An EMPTY column (R46). -/
def Col.empty : Col := { anchor := none, lost := false, elems := [] }

/-- The accumulator array with every column EMPTY and every residue 0, which R47 makes a cleared one; the spec gives the array no
reset value (DESIGN CHOICE, log entry 66). -/
def Acc.empty : Acc :=
  { cols := [], x := [], y := [], z := 0, dRow := [], dCol := [], nonFinite := [], kLen := 0 }

/-- A strand at reset: its accumulators, vector registers and knots have no reset value in the spec (DESIGN CHOICE, log entries 17 and 66). -/
def Strand.empty : Strand :=
  { acc := Acc.empty, vregs := [], vbase := none, knots := [], queue := [], nextId := 0, scrubLine := 0, writebacks := [], badLines := [], eccAt := none,
    busyPart := 0, lined := none,
    avail := 0, scores := [], released := none, rises := [], passes := 0, packPasses := 0 }

/-- A position with no work. -/
def Pos.empty : Pos :=
  { next := 0, index := 0, fetched := [], ended := false, finished := true, saved := false, since := none,
    kLen := 0 }

/-- A hank at reset. -/
def Hank.empty : Hank :=
  { pos := [], place := [], emitted := 7, onPlace := [], descRead := false, scratchLive := false, progAct := 0, rotation := 0, rotatedAt := 0,
    lastPower := 0, band := 0, pattern := 2, banded := false, temp := 0, backNs := 0, atnPart := 0, heldSince := none,
    microSlot := 0, seeds := [], seedAddr := 0, seedsRead := false, ramp := { level := 0, aim := 0, since := 0 },
    gatedSince := none }

/-- No step has run. -/
def StepRec.empty : StepRec :=
  { counter := 0, run := 0, phase := .idle, mode := 0, modeNext := none, go := false, trigger := false,
    blocking := none, faults := [], excluded := [], fixed := false, paired := false, limit := 2, missed := none,
    stopping := false, stopAt := 0, waitNs := 0, startedAt := 0, commitAt := 0, collective := false, groups := [], votes := [],
    committedAny := false, rotation := 0, releases := [], collIds := [], rowsSent := false }

/-- A partition number with no partition. -/
def Part.empty : Part :=
  { state := .none, hanks := [], gen := 0, tenant := [], seqBase := 0, seqSize := 0, handles := 0, pgHbm := 0, pgCt := 0,
    pageBase := 0, pageBaseCt := 0, chainBase := 0, chainSize := 0, saveArea := 0, cmdSeq := 0, cmdSession := 0, whipStart := 0, firstRecord := 0, destroyCmds := [], resetCmds := [], resets := [],
    txKey := none, records := 0, step := StepRec.empty }

/-- A memory unit with no error. -/
def MemUnit.empty : MemUnit :=
  { bad := [], writebacks := [], retired := [], spares := 0, full := [], patrol := 0, passCe := [], passDue := [], due := [],
    passes := 0 }

/-- A controller that is OFF. -/
def MemCtl.empty : MemCtl := { state := 0, tagCache := [], tagDirty := [] }

/-- An arbitration point with no request. -/
def Point.empty : Point :=
  { requests := [], grant := none, lastOwner := [], lastBack := 0, losses := [], backoff := [], freed := [],
    starve := [], starveFrom := [], counted := 0, starved := [], sources := [] }

/-- A Fairlead instance with every slot OPEN. -/
def FldInst.empty : FldInst :=
  { tables := [], prev := [], switched := [], waiting := [], points := [], oldCtrl := [], oldBg := [], locAt := none }

/-- No credit. -/
def Credit.empty : Credit :=
  { avail := 0, outstanding := 0, rxFree := 0, rxHeld := 0, rxOwed := 0, sentFlits := 0, recvFlits := 0,
    sentCredits := 0, recvCredits := 0, peerAlloc := 0, ownAlloc := 0, freshAt := 0, fresh := 0 }

/-- A DOWN port. -/
def Port.empty : Port :=
  { state := 0, since := 0, retryAt := none, wiringBad := false, peerSeized := false, compat := false, peer := none,
    peerNonce := 0, ownNonce := 0, txIndex := 0, txAcked := 0, rxIndex := 0, awaiting := none, retrainFails := [],
    uncorr := [], symErrs := [], lastCodeword := 0, lastAck := 0, lastKeep := 0, lastSync := 0, inFlight := [], declared := [], credits := [] }

/-- Ecron at reset. -/
def Ecron.empty : Ecron :=
  { ports := [], txSeq := [], windows := [], peerEpoch := [], directory := [], holds := [], bulk := [], txq := [],
    members := [], seized := [], lastState := 0, lastStates := 0, nextSlot := 0 }

/-- A host port with its link down. -/
def HostPort.empty : HostPort :=
  { linkUp := false, fecLock := false, gateOn := false, gateList := [], gateCycle := 0, gateStart := 0, gateEntry := 0,
    gateWait := none, syncAt := none, offset := 0, pdelayAt := 0, lastHb := none, silentSent := false }

/-- A session before any frame. -/
def Session.empty (k : Key) : Session :=
  { key := k, window := Window.empty, queue := [], replies := [], events := [], nextEvent := 1, fsrAck := 0,
    latches := [], shadow := [], splResult := 0, report := [], closing := false, former := false, via := [] }

/-- The lanyard record at a start (R498, R505): no holder, LAPSED. -/
def Lease.empty : Lease :=
  { epoch := 0, holder := 0, duration := 0, expiry := 0, armed := false, roleLast := 0, roleDuration := 0, grace := 0,
    lastHb := 0, lost := false, seized := false }

/-- No page, chain or bight entry. -/
def Kv.empty : Kv :=
  { pages := [], lists := [], chains := [], bight := [], accepts := [], moves := [], ships := [], inbound := [],
    nextShip := 0, regionForce := [], starvedSince := [], nonEmptyAt := [] }

/-- An account that no partition holds (R266). -/
def Account.empty : Account :=
  { part := 31, en := false, rate := 0, cap := 0, balance := 0, reserved := 0, refilled := 0, capped := 0, charged := 0,
    adjIn := 0, adjOut := 0, prefilled := 0, drafted := 0, accepted := 0, residue := 0, pending := none }

/-- No sequence. -/
def Serve.empty : Serve :=
  { seqs := [], reels := [], accounts := [], handles := [], handleGen := [], batch := [], batchAt := [],
    admission := [], reservedPages := [], staged := 0, committed := 0, discarded := 0, engine := 0,
    inStage := 0, lastRefill := 0, deferredRefill := [], heldAccounts := [], heldReels := [] }

/-- An idle engine. -/
def Engine.empty : Engine :=
  { cache := [], rx := [], colls := [], resetUntil := 0, crResetUntil := 0, resets := [], crResets := [], crPs := 0,
    crPartPs := [] }

/-- No dispatch. -/
def Dispatch.empty : Dispatch := { engines := [], sends := [], rows := [], sentLog := [], ttSent := [], ttSeen := [], force := [], colForce := [], landings := [] }

/-- No stream. -/
def Video.empty : Video := { ctxs := [], buffers := [], cores := [], order := 0, partNs := [] }

/-- An EMPTY coil slot. -/
def CoilSlot.empty : CoilSlot := { state := 0, header := [], blocks := [], part := [], signature := [] }

/-- The header of the coil that the flash holds at first power (R513; log entry 5): release, security version and settings
format 0, one block, and the three components. -/
def factoryHeader : List Byte :=
  toLe 4 0x434B5856 ++ toLe 2 1 ++ toLe 2 288 ++ toLe 2 0x7208 ++ toLe 1 0xB1 ++ toLe 17 0 ++ toLe 2 0 ++ toLe 2 1 ++
    toLe 16 1 ++ toLe 16 2 ++ toLe 16 3 ++ toLe 16 0 ++ toLe 192 0

/-- The loader at first power: slot A CONFIRMED, slot B EMPTY (log entry 5). -/
def Update.empty : Update :=
  { slotA := { CoilSlot.empty with state := 5, header := factoryHeader }, slotB := CoilSlot.empty, loading := none, micro := 0,
    ccf := 0, mgmt := 0, minSvn := 0, dual := false, schedT := none, schedSlot := 0, schedFallback := false,
    schedSession := 0, schedSeq := 0, lead := 0, preloaded := false, switching := [], paused := none, pauseSlot := 0,
    pauseFallback := false, pauseSession := 0, pauseSeq := 0, held := [], stamps := [], trialAt := none, trialWindow := 60, overdueSent := false }

/-- A domain that is off. -/
def Domain.empty : Domain :=
  { state := .off, target := 2, phase := 0, toOff := false, fromOff := true, since := 0, cleated := true,
    holdCleats := false, saved := [], saveValid := false, defaulted := false, wakeQueued := none,
    queuedTarget := none, offSpans := [(0, none)] }

/-- A spot before its first sample. -/
def Spot.empty : Spot :=
  { a := none, b := none, aAt := 0, bAt := 0, governed := [], apartSince := none, withinSince := none, split := false,
    overSince := none }

/-- A hank's ageing at first power: guardband 20 mV (R560). -/
def Ageing.empty : Ageing :=
  { sensorHold := 0, ageHold := 0, hold := 0, d := 0, ring := 0, g := 20, gNext := none, aged := false }

/-- The thermal controller at reset. -/
def Thermo.empty : Thermo :=
  { spots := [], step := 0, lastBoundary := 0, history := [], hotSince := none, hotSent := false, trip := false, shut := false,
     ageing := [], lastRemargin := 0, rampNs := [], warm := { level := 0, aim := 0, since := 0 } }

/-- The instant t0: power qualified, PWRGD high, phase 1 (R566, R575). The input stands at 54.0 V and the latch is closed
(log entry 6). -/
def Start.atT0 : Start :=
  { qualified := true, qualifiedAt := 0, prsnt := true, pwrgd := true, resetN := true, phase := 1, phaseAt := 0, failed := false,
    cause := 0, degraded := false, dirReady := false, leaseWaitAt := 0, slotId := 0, vin := 540, inputOk := true,
    latchOpen := false, gwCommitted := false }

/-- The security block at t0 of the first start. -/
def Security.empty : Security :=
  { gen := 0, bootCount := 0, jobKeys := [], slots := [], trust := [], openings := [], debugOpen := false,
    signedAt := 0 }

/-- A partition's journal with no record. -/
def Journal.empty : Journal := { wr := 0, taken := 0, halt := 0, toRetire := [], retired := [], force := [] }

/-- No pack test under way. -/
def Pack.empty : Pack := { last := 31, at_ := 0, strand := none, cur := none, rest := [] }

/-- The machine right after reset: the instant t0 of R566, with PWRGD high and start-up in phase 1, every switched domain
off, every register at the reset value of its register list and no command waiting. -/
def State.reset : State :=
  { pending := [], now := 0, fresh := 0, regs := [], mem := [], owners := [], strands := [], dieKnots := [], hanks := [],
    parts := [], units := [], ctls := [], errLogs := [], errDropped := [], fairlead := [], ecron := Ecron.empty,
    sessions := [], hostPorts := [], recoveries := [], meters := [],
    ptp := { state := 0, port := 0, slew := 0, lastSync := 0 },
    lease := Lease.empty, kv := Kv.empty, serve := Serve.empty, dispatch := Dispatch.empty, video := Video.empty,
    update := Update.empty, power := { doms := [], lpActive := false, current := 0 }, thermo := Thermo.empty,
    start := Start.atT0, security := Security.empty, journals := [],
    checks := { ring := [], next := 1, packs := [], commanderAck := 0 }, snaps := [], sent := [] }

end Sys2Proof.Machine
end

