-- ==== Sys2Proof/Machine/Ops.lean ====
section
/-! DEFINITION. The named operations over State that every family of commands shares: registers and counters, free
values, records of each map, events (R416), fault signature records (R456, R457), owners and addresses of partition
memory (R146 to R149), and the places of the one byte store (log entry 4). -/

namespace Sys2Proof.Machine

/-! Status codes (R431) -/

def stOk : Nat := 0x0000
def stExactLost : Nat := 0x0001
def stMalformed : Nat := 0x0100
def stAddrInvalid : Nat := 0x0101
def stVaryRefused : Nat := 0x0102
def stGeometryEmpty : Nat := 0x0103
def stKnotOverflow : Nat := 0x0104
def stKnotUnbalanced : Nat := 0x0105
def stKnotTimeout : Nat := 0x0106
def stKvFormat : Nat := 0x0107
def stKvShort : Nat := 0x0108
def stBightFull : Nat := 0x0109
def stBightOrder : Nat := 0x010A
def stReelOver : Nat := 0x010B
def stReelOrder : Nat := 0x010C
def stRouteInvalid : Nat := 0x010D
def stRxFull : Nat := 0x010E
def stFrameStale : Nat := 0x010F
def stHaloMissing : Nat := 0x0110
def stGroupInvalid : Nat := 0x0111
def stTileCheckFail : Nat := 0x0200
def stAccEcc : Nat := 0x0201
def stVectorResidue : Nat := 0x0202
def stScratchEcc : Nat := 0x0203
def stMemUncorr : Nat := 0x0204
def stMemTagFail : Nat := 0x0205
def stKvCorrupt : Nat := 0x0206
def stRouteLost : Nat := 0x0207
def stTelltaleMismatch : Nat := 0x0208
def stCollectiveTimeout : Nat := 0x0209
def stFunctionReset : Nat := 0x020A
def stRxExpired : Nat := 0x020B
def stCollectiveAbort : Nat := 0x0280
def stUnsupported : Nat := 0x0300
def stNotPermitted : Nat := 0x0301
def stExpired : Nat := 0x0302
def stSpliceConflict : Nat := 0x0303
def stBudgetUnknown : Nat := 0x0304
def stPrefixInvalid : Nat := 0x0305
def stAdmitFull : Nat := 0x0306
def stSeqState : Nat := 0x0307
def stReelRange : Nat := 0x0308
def stPageStarved : Nat := 0x0309
def stShipFailed : Nat := 0x030A
def stVidCtxFull : Nat := 0x030B
def stVidNoCore : Nat := 0x030C
def stVidSeqGap : Nat := 0x030D
def stVidRingFull : Nat := 0x030E
def stVidPoolEmpty : Nat := 0x030F
def stCoilRefused : Nat := 0x0310
def stStaleEpoch : Nat := 0x0400
def stRoleMoved : Nat := 0x0401
def stLeaseLost : Nat := 0x0402
def stWhipping : Nat := 0x0403
def stDeadline : Nat := 0x0500
def stSensorSplit : Nat := 0x0501
def stConservationFault : Nat := 0x0502

/-- Whether a hitch status is of class Fault (R139, R431). -/
def isFault (st : Nat) : Bool := decide (0x200 ≤ st ∧ st < 0x280)
/-- Whether a hitch status is of class Program (R139, R431). -/
def isProgram (st : Nat) : Bool := decide (0x100 ≤ st ∧ st < 0x200)
/-- Whether a status is blocking (R140); COLLECTIVE_ABORT carries a class of its own and always is (R403). -/
def isBlocking (st : Nat) : Bool := decide (0x100 ≤ st ∧ st ≤ 0x280)

/-! Time, free values and registers -/

/-- Module time reaches t; it never decreases (R429). -/
def State.tick (s : State) (t : Nat) : State := { s with now := max s.now t }

/-- Take a fresh free value (log entry 8). -/
def State.takeFree (s : State) : Nat × State := (Config.freeValue s.fresh, { s with fresh := s.fresh + 1 })

/-- The value of a stored register: its reset value where nothing else is listed. -/
def State.reg (s : State) (a : Nat) : Nat := mgetD s.regs a (resetOf a)

/-- Store a register, keeping no entry at its reset value. -/
def State.setReg (s : State) (a v : Nat) : State :=
  { s with regs := if v = resetOf a then mdel s.regs a else mput s.regs a v }

/-- Add to a counter register, which saturates at 0xFFFF_FFFF (R70). -/
def State.bump (s : State) (a n : Nat) : State := s.setReg a (sat32 (s.reg a + n))

/-- Add 1 to a counter register. -/
def State.inc (s : State) (a : Nat) : State := s.bump a 1

/-- Raise a register to the larger of its value and a new one. -/
def State.raiseReg (s : State) (a v : Nat) : State := s.setReg a (max (s.reg a) (sat32 v))

/-- Set sticky flag bits of a register (R69). -/
def State.setFlags (s : State) (a f : Nat) : State := s.setReg a (orBits (s.reg a) f)

/-! Records of each map -/

def State.strand (s : State) (i : Nat) : Strand := mgetD s.strands i Strand.empty
def State.setStrand (s : State) (i : Nat) (x : Strand) : State := { s with strands := mput s.strands i x }
def State.modStrand (s : State) (i : Nat) (f : Strand → Strand) : State := s.setStrand i (f (s.strand i))
def State.hank (s : State) (g : Nat) : Hank := mgetD s.hanks g Hank.empty
def State.setHank (s : State) (g : Nat) (x : Hank) : State := { s with hanks := mput s.hanks g x }
def State.modHank (s : State) (g : Nat) (f : Hank → Hank) : State := s.setHank g (f (s.hank g))
def State.part (s : State) (p : Nat) : Part := mgetD s.parts p Part.empty
def State.setPart (s : State) (p : Nat) (x : Part) : State := { s with parts := mput s.parts p x }
def State.modPart (s : State) (p : Nat) (f : Part → Part) : State := s.setPart p (f (s.part p))
def State.step (s : State) (p : Nat) : StepRec := (s.part p).step
def State.modStep (s : State) (p : Nat) (f : StepRec → StepRec) : State :=
  s.modPart p fun x => { x with step := f x.step }
def State.unit (s : State) (u : Nat) : MemUnit := mgetD s.units u MemUnit.empty
def State.modUnit (s : State) (u : Nat) (f : MemUnit → MemUnit) : State :=
  { s with units := mput s.units u (f (s.unit u)) }
def State.dom (s : State) (n : Nat) : Domain := mgetD s.power.doms n Domain.empty
def State.setDom (s : State) (n : Nat) (d : Domain) : State :=
  { s with power := { s.power with doms := mput s.power.doms n d } }
def State.modDom (s : State) (n : Nat) (f : Domain → Domain) : State := s.setDom n (f (s.dom n))
def State.port (s : State) (p : Nat) : Port := mgetD s.ecron.ports p Port.empty
def State.modPort (s : State) (p : Nat) (f : Port → Port) : State :=
  { s with ecron := { s.ecron with ports := mput s.ecron.ports p (f (s.port p)) } }
def State.hostPort (s : State) (p : Nat) : HostPort := mgetD s.hostPorts p HostPort.empty
def State.modHostPort (s : State) (p : Nat) (f : HostPort → HostPort) : State :=
  { s with hostPorts := mput s.hostPorts p (f (s.hostPort p)) }
def State.engine (s : State) (d : Nat) : Engine := mgetD s.dispatch.engines d Engine.empty
def State.modEngine (s : State) (d : Nat) (f : Engine → Engine) : State :=
  { s with dispatch := { s.dispatch with engines := mput s.dispatch.engines d (f (s.engine d)) } }
def State.journal (s : State) (p : Nat) : Journal := mgetD s.journals p Journal.empty
def State.modJournal (s : State) (p : Nat) (f : Journal → Journal) : State :=
  { s with journals := mput s.journals p (f (s.journal p)) }
def State.spot (s : State) (i : Nat) : Spot := mgetD s.thermo.spots i Spot.empty
def State.ageing (s : State) (g : Nat) : Ageing := mgetD s.thermo.ageing g Ageing.empty
def State.modAgeing (s : State) (g : Nat) (f : Ageing → Ageing) : State :=
  { s with thermo := { s.thermo with ageing := mput s.thermo.ageing g (f (s.ageing g)) } }
def State.session (s : State) (i : Nat) : Option Session := mget s.sessions i
def State.modSession (s : State) (i : Nat) (f : Session → Session) : State :=
  { s with sessions := mmod s.sessions i f }
def State.send (s : State) (o : Out) : State := { s with sent := o :: s.sent }

/-- A scheduled data-path switch holds step starts (R519). -/
def State.startsHeld (s : State) : Bool :=
  match s.update.schedT with
  | some t => s.update.lead != 0 && decide (t ≤ s.now + 1000000 * s.update.lead)
  | none => false

/-- "Now" for a lease command: the arrival time of a frame held during the management pause (R520). -/
def State.cmdNow (s : State) (sid seq : Nat) : Nat :=
  match s.update.stamps.find? fun x => x.1 == sid && x.2.1 == seq with
  | some x => x.2.2
  | none => s.now

/-! Places (R12, R13, R16) -/

/-- The die of a hank. -/
def dieOf (g : Nat) : Nat := g / 4
/-- The hank of a strand. -/
def hankOf (st : Nat) : Nat := st / 8
/-- Numbers 0 to n − 1. -/
def upTo (n : Nat) : List Nat := List.range n

/-- Whether a partition exists: accepted, active, resetting or whipping (R474, R490). -/
def State.exists_ (s : State) (p : Nat) : Bool := (s.part p).state != .none
/-- Whether a partition is ACTIVE, which a resetting one returns to (R432). -/
def State.live (s : State) (p : Nat) : Bool :=
  (s.part p).state == .active || (s.part p).state == .resetting
/-- The partition that holds a hank, if any. -/
def State.partOf (s : State) (g : Nat) : Option Nat :=
  (upTo 16).find? fun p => s.exists_ p && (s.part p).hanks.contains g
/-- The dies that hold hanks of a partition. -/
def State.diesOf (s : State) (p : Nat) : List Nat :=
  (upTo 4).filter fun d => (s.part p).hanks.any fun g => dieOf g == d
/-- The hanks of a partition on a die, ascending. -/
def State.hanksOn (s : State) (p d : Nat) : List Nat := (s.part p).hanks.filter fun g => dieOf g == d
/-- The lowest hank of a partition. -/
def State.firstHank (s : State) (p : Nat) : Nat := (s.part p).hanks.headD 0

/-- ECN_SELF: the module number, the straps' of phase 1 until it is written (R384, R563). -/
def State.self (s : State) : Nat := mgetD s.regs Reg.ecnSelf s.start.slotId

/-- GBL_STATE (R5, R25, R506): 0 STARTING, 1 READY, 2 SEIZED, 3 BRINGUP. After SEIZE_RELEASE a module in bring-up shows BRINGUP
again, where R507 names READY (DESIGN CHOICE, log entry 63). -/
def State.gblState (s : State) : Nat :=
  if s.lease.seized then 2
  else if s.start.phase == 9 && !s.start.failed then (if bit (s.reg Reg.gblStartCtrl) 0 then 3 else 1)
  else 0

/-! Events (R416) -/

/-- Send an event in a session that holds a key: the event store keeps 256, the oldest dropped and counted; during the
management pause it is held, as one sent at 0 (R520). -/
def State.event (s : State) (sid kind status subject : Nat) (detail : List Byte) : State :=
  match s.session sid with
  | none => s
  | some x =>
    if x.former then s else
    let e : Event := { num := x.nextEvent, kind := kind, status := status, subject := subject, time := s.now,
                       detail := detail, sentAt := if s.update.paused.isSome then 0 else s.now }
    let full := 256 ≤ x.events.length
    let kept := if full then x.events.drop 1 else x.events
    let s := s.modSession sid fun x => { x with events := kept ++ [e], nextEvent := x.nextEvent + 1 }
    let s := if full then s.inc Reg.hstEventDropCount else s
    if s.update.paused.isSome then s else s.send (.event sid e)

/-- Send an event to the commander session: to each commander that holds a key. -/
def State.eventC (s : State) (kind status subject : Nat) (detail : List Byte) : State :=
  foldS (fun s c => s.event c kind status subject detail) s [1, 2, 3, 4]

/-- Send an event to the session of a partition. -/
def State.eventP (s : State) (p kind status subject : Nat) (detail : List Byte) : State :=
  s.event (16 + p) kind status subject detail

/-- Send an event to every session. -/
def State.eventAll (s : State) (kind status subject : Nat) (detail : List Byte) : State :=
  foldS (fun s p => s.eventP p kind status subject detail) (s.eventC kind status subject detail) (upTo 16)

/-- HST_PART_STATUS (R432). -/
def State.partStatus (s : State) (p : Nat) : Nat :=
  let st : Nat :=
    match (s.part p).state with
    | .none => 0
    | .creating => 0
    | .active => 1
    | .resetting => 2
    | .whipping => 3
  st + (if s.lease.seized then 8 else 0)

/-- The PART_STATE event (KIND 4) of a partition, to the commander and to the partition. -/
def State.partStateEvent (s : State) (p : Nat) : State :=
  let d := toLe 4 (s.partStatus p)
  (s.eventC 4 stOk p d).eventP p 4 stOk p d

/-- The COMMAND_DONE event (KIND 5) of an accepted command: status and result words. -/
def State.commandDone (s : State) (sid seq status : Nat) (words : List Nat) : State :=
  s.event sid 5 status seq (toLe 4 status ++ words.flatMap (toLe 4))

/-! Fault signature records (R456, R457) -/

/-- A record of a kind at the present time, with no optional key. -/
def State.record (s : State) (kind : Nat) (part : Option Nat) : Record :=
  { num := 0, kind := kind, time := s.now, status := none, part := part,
    step := match part with | some p => (s.step p).counter | none => 0,
    run := match part with | some p => (s.step p).run | none => 0,
    wher := [], strand := none, pack := none, mpa := none, pma := none, telltales := none, peer := [], action := 0,
    detail := [], partNum := 0, qmask := none }

/-- The band, pattern and temperature keys of a record that names a strand. -/
def State.strandKeys (s : State) (st : Nat) : Option (Nat × Nat × Int) :=
  let h := s.hank (hankOf st)
  some (h.band, h.pattern, h.temp)

/-- Write a record into the ring of 4,096 and announce it (R457): numbered in the module and in its partition. -/
def State.fsr (s : State) (r : Record) : State :=
  let n := s.checks.next
  let (s, pn) :=
    match r.part with
    | some p => (s.modPart p fun x => { x with records := x.records + 1 }, (s.part p).records + 1)
    | none => (s, 0)
  let r := { r with num := n, partNum := pn }
  let lost := decide (4096 ≤ s.checks.ring.length) && decide (s.checks.commanderAck + 4096 < n)
  let s := { s with checks := { s.checks with ring := (r :: s.checks.ring).take 4096, next := n + 1 } }
  let s := if lost then s.inc Reg.chkFsrOverwriteCount else s
  let s := s.eventC 1 (r.status.getD 0) n (toLe 4 r.kind)
  match r.part with
  | some p => s.eventP p 1 (r.status.getD 0) pn (toLe 4 r.kind)
  | none => s

/-! Owners and addresses (R145 to R149) -/

/-- Granules of a unit: 126 in a stack, 224 in a package; the last is partial. -/
def granulesOf (u : Nat) : Nat := if u < 8 then 126 else 224
/-- Usable bytes of a unit. -/
def usable (u : Nat) : Nat := if u < 8 then 33750000000 else 60000000000
/-- The first MPA of a unit, which is also its PMA base (R146, R148). -/
def unitBase (u : Nat) : Nat := if u < 8 then u * 2 ^ 36 else 2 ^ 39 + (u - 8) * 2 ^ 36
/-- Bytes of a granule. -/
def granule : Nat := 2 ^ 28

/-- The unit and unit offset of an address of module memory, when it lies in a tier range. -/
def unitOf (a : Nat) : Option (Nat × Nat) :=
  if a < 2 ^ 39 then some (a / 2 ^ 36, a % 2 ^ 36)
  else if a < 2 ^ 39 + 12 * 2 ^ 36 then some (8 + (a - 2 ^ 39) / 2 ^ 36, (a - 2 ^ 39) % 2 ^ 36)
  else none

/-- The unit and offset of an MPA that addresses something (R146). -/
def lineAt (mpa : Nat) : Option (Nat × Nat) :=
  match unitOf mpa with
  | some (u, x) => if x < usable u then some (u, x) else none
  | none => none

/-- The MEM_OWN byte of a granule: FREE until phase 5; from then the partial granules are the module's (R147). -/
def State.ownByte (s : State) (u k : Nat) : Nat := mgetD s.owners (u * 256 + k) 31
/-- Set a MEM_OWN byte. -/
def State.setOwn (s : State) (u k v : Nat) : State :=
  { s with owners := if v = 31 then mdel s.owners (u * 256 + k) else mput s.owners (u * 256 + k) v }
/-- The owner of the granule that holds an MPA. -/
def State.ownerAt (s : State) (mpa : Nat) : Nat :=
  match unitOf mpa with
  | some (u, x) => s.ownByte u (x / granule) % 32
  | none => 31
/-- The granules a partition owns on a unit, ascending. -/
def State.granules (s : State) (p u : Nat) : List Nat :=
  (s.owners.filter fun e => e.1 / 256 == u && e.2 % 32 == p).map fun e => e.1 % 256

/-- The MPA of a PMA of a partition (R148, R149): none where it is invalid or its granule is being whipped (R174). -/
def State.mpaOf (s : State) (p pma : Nat) : Option Nat :=
  match unitOf pma with
  | none => none
  | some (u, x) =>
    match (s.granules p u)[x / granule]? with
    | none => none
    | some k => if bit (s.ownByte u k) 5 then none else some (unitBase u + k * granule + x % granule)

/-- Whether a PMA range lies in the partition's memory. -/
def State.pmaOk (s : State) (p pma n : Nat) : Bool :=
  n == 0 || ((s.mpaOf p pma).isSome && (s.mpaOf p (pma + n - 1)).isSome &&
    pma / 2 ^ 36 == (pma + n - 1) / 2 ^ 36)

/-- The partition's granule count on a unit. -/
def State.granuleCount (s : State) (p u : Nat) : Nat := (s.granules p u).length

/-! The byte store (log entry 4): module memory by MPA from 0, then scratch, hank regions, bight pools and pack slots. -/

def scratchBase (st : Nat) : Nat := 2 ^ 48 + st * 2 ^ 24
def regionBase (g : Nat) : Nat := 2 ^ 49 + g * 2 ^ 24
def bightBase (d : Nat) : Nat := 2 ^ 50 + d * 2 ^ 24
def packBase (k : Nat) : Nat := 2 ^ 51 + k * 2 ^ 24
/-- Bytes of strand scratch (R89). -/
def scratchSize : Nat := 0x200000
/-- Bytes of a hank region (R93). -/
def regionSize : Nat := 0x600000

/-- Read a place of the byte store. -/
def State.peek (s : State) (a n : Nat) : List Byte := readBytes s.mem a n
/-- Write a place of the byte store. -/
def State.poke (s : State) (a : Nat) (bs : List Byte) : State := { s with mem := writeBytes s.mem a bs }
/-- Read a little-endian field of a place. -/
def State.peekLe (s : State) (a n : Nat) : Nat := readLe s.mem a n
/-- Read partition memory that is known to lie in the partition. -/
def State.peekP (s : State) (p pma n : Nat) : List Byte :=
  let base := (unitOf pma).map fun ux => (ux.1, ux.2, s.granules p ux.1)
  match base with
  | none => (upTo n).map fun _ => 0
  | some (u, x, gs) =>
    (upTo n).map fun i =>
      match gs[(x + i) / granule]? with
      | some k => bget s.mem (unitBase u + k * granule + (x + i) % granule)
      | none => 0
/-- Write partition memory that is known to lie in the partition. -/
def State.pokeP (s : State) (p pma : Nat) (bs : List Byte) : State :=
  match unitOf pma with
  | none => s
  | some (u, x) =>
    let gs := s.granules p u
    { s with mem :=
        foldS (fun m ib =>
          match gs[(x + ib.1) / granule]? with
          | some k => bput m (unitBase u + k * granule + (x + ib.1) % granule) ib.2
          | none => m) s.mem ((upTo bs.length).zip bs) }
/-- A little-endian field of partition memory. -/
def State.peekPLe (s : State) (p pma n : Nat) : Nat := ofLe (s.peekP p pma n)

/-- Remove every byte of a place. -/
def eraseRange (m : List Host.Cell) (lo n : Nat) : List Host.Cell :=
  m.filter fun c => c.1 < lo || lo + n ≤ c.1

/-- Zero a place of the byte store. -/
def State.wipe (s : State) (a n : Nat) : State := { s with mem := eraseRange s.mem a n }

/-! The CRC of R399 -/

/-- One bit of CRC-64 with polynomial 0x42F0E1EBA9EA3693. -/
def crcBit (c : Nat) : Nat :=
  if bit c 63 then (2 * c % 2 ^ 64) ^^^ 0x42F0E1EBA9EA3693 else 2 * c % 2 ^ 64
/-- One byte, most significant bit first. -/
def crcByte (c : Nat) (b : Byte) : Nat :=
  let c := c ^^^ (b.toNat * 2 ^ 56)
  crcBit (crcBit (crcBit (crcBit (crcBit (crcBit (crcBit (crcBit c)))))))

/-- The telltale of a byte string: initial value 0, no reflection, no final XOR. -/
def crc64 (bs : List Byte) : Nat := bs.foldl crcByte 0

/-! Power and thermal facts that other families read -/

/-- The domain of a hank (R528). -/
def hankDom (g : Nat) : Nat := 11 * (g / 4) + g % 4

/-- Whether start-up has woken the domains (R568): before it no register access takes place, and the domain registers
read their reset values. -/
def State.woken (s : State) : Bool := decide (4 ≤ s.start.phase)

/-- STR_STATE.AVAIL (R102, R103): OFF while the hank's domain is not on. -/
def State.availOf (s : State) (st : Nat) : Nat :=
  if s.woken && (s.dom (hankDom (hankOf st))).state != .on then 3 else (s.strand st).avail

/-- The active strands of a hank, by place. -/
def State.activePlaces (s : State) (g : Nat) : List Nat :=
  (upTo 8).filter fun i => (s.strand (8 * g + i)).avail == 0

/-- CLK_ARITH in kHz at a reef step (R548). -/
def arithKhz (step : Nat) : Nat :=
  match step with
  | 0 => 1250000
  | 1 => 1125000
  | 2 => 1000000
  | _ => 625000

/-- The effective reef step of a hank (R551). -/
def State.effStep (s : State) (g : Nat) : Nat := max s.thermo.step (s.ageing g).hold

/-- Whole microseconds of a duration in ns, rounded up, as registers report a single duration (R105). -/
def usUp (ns : Nat) : Nat := (ns + 999) / 1000

end Sys2Proof.Machine
end

