-- ==== Sys2Proof/Machine/Ramp.lean ====
section
/-! DEFINITION. The power estimates of hanks, video cores and the module, their allowances, and the gating of a hank's
hitches (R554 to R556). The energy of the work and the static power of a domain are free values (log entry 23). -/

namespace Sys2Proof.Machine

/-- What an estimate in mW has come to at an instant, where it changes by at most 1 mW in `rate` ns: it approaches its aim from
either side. -/
def Ramp.level_ (r : Ramp) (rate t : Nat) : Nat :=
  let d := (t - r.since) / rate
  if r.level ≤ r.aim then min r.aim (r.level + d) else max r.aim (r.level - d)

/-- Give an estimate a new aim from an instant on. -/
def Ramp.toward (r : Ramp) (rate t aim : Nat) : Ramp := { level := r.level_ rate t, aim := aim, since := t }

/-- The allowance of a hank: 10 W per 100 ms (R554). -/
def hankRate : Nat := 10000
/-- The allowance of a video core: 2 W per 100 ms (R554). -/
def coreRate : Nat := 50000
/-- The bound of the module: 200 W per 100 ms (R554, R556). -/
def moduleRate : Nat := 500

/-- The hitches in the queues of a hank's strands. -/
def State.hankWork (s : State) (g : Nat) : List HitchWord :=
  (upTo 8).flatMap fun i => (s.strand (8 * g + i)).queue.map fun e => e.word

/-- The estimate of a hank in mW, its work and fill (R554, R555). -/
def State.hankPower (s : State) (g : Nat) : Nat := (s.hank g).ramp.level_ hankRate s.now

/-- The estimate of a hank that runs some hitches at its effective step (R551, R554). -/
def State.hankLoad (s : State) (g : Nat) (ws : List HitchWord) : Nat := (Config.hankLoad (s.effStep g) ws).val

/-- A hank's work lets a hitch follow: its estimate has caught up with what the hitch makes of it (R555). -/
def State.rampReady (s : State) (g : Nat) (w : HitchWord) : Bool :=
  decide (s.hankLoad g (s.hankWork g ++ [w]) ≤ s.hankPower g)

/-- Count the gated time of a hank up to the present instant in THM_PART_RAMP_US of its partition, which keeps the remainder
below 1 µs (R105, R555). -/
def State.countGate (s : State) (p g : Nat) : State :=
  match (s.hank g).gatedSince with
  | none => s
  | some a =>
    let n := nget s.thermo.rampNs p + (s.now - a)
    let s := (s.bump (Reg.thmPartRampUs p) (n / 1000)).modHank g fun h => { h with gatedSince := some s.now }
    { s with thermo := { s.thermo with rampNs := nput s.thermo.rampNs p (n % 1000) } }

/-- A hank is no longer gated, and its estimate goes toward the work in its queues (R555). -/
def State.aimHank (s : State) (p g : Nat) : State :=
  (s.countGate p g).modHank g fun h =>
    { h with gatedSince := none, ramp := h.ramp.toward hankRate s.now (s.hankLoad g (s.hankWork g)) }

/-- A hank is gated: idle cycles stand before its next hitch until its estimate, which climbs at the allowance, has caught up
(R555). -/
def State.gate_ (s : State) (p g : Nat) (w : HitchWord) : State :=
  (s.countGate p g).modHank g fun h =>
    { h with gatedSince := some s.now, ramp := h.ramp.toward hankRate s.now (s.hankLoad g (s.hankWork g ++ [w])) }

/-- The estimate of a hank follows a change of its effective step (R551, R554). -/
def State.followStep (s : State) (g : Nat) : State :=
  s.modHank g fun h =>
    if h.gatedSince.isSome then h
    else { h with ramp := h.ramp.toward hankRate s.now (s.hankLoad g (s.hankWork g)) }

/-- The static power of the domains that are on, in mW (R554). -/
def State.staticPower (s : State) : Nat :=
  ((upTo 64).map fun n => if (s.dom n).state == .on then (Config.domainPower n).val else 0).sum

/-- The load of the module in mW: hanks, video cores, static power and the ports (R554). -/
def State.load (s : State) : Nat :=
  ((upTo 16).map fun g => s.hankPower g).sum +
    ((upTo 8).map fun k => ((mget s.video.cores k).map fun x => x.ramp.level_ coreRate s.now).getD 0).sum +
    s.staticPower + (Config.portPower ((upTo 18).map fun n => (s.port n).state)).val

/-- The module's power estimate in mW, conversion losses included (R19, R554), kept at the keep-warm floor by fill (R556). -/
def State.estimate (s : State) : Nat := max (s.load * 190 / 176) (s.thermo.warm.level_ moduleRate s.now)

/-- A write of THM_KEEP_WARM: the fill brings power toward the floor at the rate of R554 (R556). -/
def State.warmTo (s : State) (floor : Nat) : State :=
  { s with thermo := { s.thermo with warm := { level := s.estimate, aim := 1000 * floor, since := s.now } } }

end Sys2Proof.Machine
end

