-- ==== Sys2Proof/Machine/Domains.lean ====
section
/-! DEFINITION. The power domains (chapter 21): parents, save lists, contents kept and lost, refusers, entries, aborts and
wakes, and how a request reaches a domain; with the fall of an Ecron port, which a domain's entry causes. -/

namespace Sys2Proof.Machine

/-- An output is a packet. -/
def isPacket (o : Out) : Bool :=
  match o with
  | .packet _ _ => true
  | .reply _ _ | .relayReply _ _ _ | .event _ _ | .frame _ _ | .relay _ _ | .block _ _ _ | .smbus _ | .nack | .pdelay _ |
    .line _ _ _ => false

/-- A port leaves UP (R365): each packet it has sent that is not wholly acknowledged is lost and counted, and its buffers
empty; a packet it had wholly received stays in the transmit queue (log entry 41). -/
def State.leaveUp (s : State) (p : Nat) : State :=
  if (s.port p).state != 4 then s
  else
    let s := s.bump (Reg.ecnPortRetrainLost p) ((s.port p).inFlight.filter fun e => isPacket e.2).length
    let s := s.modPort p fun x => { x with inFlight := [], txIndex := 0, txAcked := 0, rxIndex := 0, awaiting := none }
    { s with ecron := { s.ecron with
        txq := s.ecron.txq.map fun e => if e.2.2.1 = p then (e.1, e.2.1, 18, e.2.2.2) else e } }

/-- A port goes DOWN (R361, R362). -/
def State.portDown (s : State) (p : Nat) (retry : Option Nat) : State :=
  (s.leaveUp p).modPort p fun x => { x with state := 0, since := s.now, retryAt := retry, credits := [] }

/-- The parent of a domain, none for a child of the island (R529). -/
def domParent (n : Nat) : Option Nat :=
  if n < 44 then
    let d := n / 11
    let i := n % 11
    if i < 4 then some (11 * d + 4)
    else if i = 8 ∨ i = 9 then some (11 * d + 7)
    else if i = 10 then none
    else some (11 * d + 10)
  else if 54 ≤ n ∧ n < 60 then some 60
  else none

/-- Wake time of a domain in µs, from retention or from off (R530). -/
def wakeUs (n : Nat) (fromOff : Bool) : Nat :=
  if n < 44 then
    let i := n % 11
    if i < 4 then (if fromOff then 2000 else 20)
    else if i < 7 then (if fromOff then 50 else 5)
    else if i = 7 then (if fromOff then 20 else 2)
    else if i < 10 then (if fromOff then 150000 else 10)
    else (if fromOff then 100 else 2)
  else if n = 60 then (if fromOff then 100 else 5)
  else if n = 61 ∨ n = 62 then (if fromOff then 150000 else 10)
  else (if fromOff then 100 else 10)

/-- The addresses of a domain's own registers (R530): module-wide registers belong to no domain. -/
def domAddr (n a : Nat) : Bool :=
  let within (lo len : Nat) : Bool := decide (lo ≤ a ∧ a < lo + len)
  if n < 44 then
    let d := n / 11
    let i := n % 11
    if i < 4 then within (0x1000000 + 0x80000 * (4 * d + i)) 0x80000
    else if i = 4 then
      within (0xB0000 + 0x4000 * d) 0x4000 || within (0xC0000 + 0x4000 * d) 0x1000 || within (0x110000 + 0x4000 * d) 0x1000
    else if i = 5 then within (0xD0000 + 0x4000 * d) 0x1000
    else if i = 6 then within (0x100000 + 0x4000 * d) 0x4000
    else if i = 8 ∨ i = 9 then within (memBase d + 0x1000 * (i - 8)) 0x1000
    else false
  else if n < 52 then a == Reg.vidCoreOwner (n - 44) || a == Reg.vidCoreBusyUs (n - 44)
  else if n < 54 then
    within (Reg.hstPortState (n - 52)) 0x1C || within (0x10800 + 0x100 * (n - 52)) 0x100 ||
      within (Reg.hstGclCtrl (n - 52)) 0x10
  else if n < 60 then
    within (Reg.ecnPortState (3 * (n - 54))) 0xC0 || within (Reg.ecnCrAlloc (3 * (n - 54)) 0 0) 0x600
  else if n = 60 then within 0xE0000 0x1000 || within 0xE8000 0x1000
  else if n = 61 ∨ n = 62 then within (memBase 4 + 0x1000 * (n - 61)) 0x1000
  else false

/-- The addresses whose access reaches a domain (R23, R536): the domain's own registers, and those module-wide registers that
it reads through its instance. The spec names no domain for a Fairlead instance nor for the registers a memory instance holds
once: the die-to-die link's or the switch core's, and that of the instance's controller 0 (DESIGN CHOICE, log entry 61). -/
def wakeAddr (n a : Nat) : Bool :=
  let within (lo len : Nat) : Bool := decide (lo ≤ a ∧ a < lo + len)
  domAddr n a ||
    (if n < 44 then
      let d := n / 11
      let i := n % 11
      if i = 4 then within (0xC0000 + 0x4000 * d) 0x4000 || within (0x110000 + 0x4000 * d) 0x4000
      else if i = 5 then within (0xD0000 + 0x4000 * d) 0x4000
      else if i = 8 then within (memBase d + 0x2000) 0x2000
      else if i = 10 then within (fldBase d) 0x4000
      else false
    else if n = 60 then within (fldBase 4) 0x4000
    else if n = 61 then within (memBase 4 + 0x2000) 0x2000
    else false)

/-- Whether a register is on its domain's save list (R530): a hank's list holds its RW registers and RC counters; the
lists of the other domains hold every register of theirs. -/
def saved (n a : Nat) : Bool :=
  domAddr n a &&
    (if n < 44 && n % 11 < 4 then
      match regAt a with
      | some (r, _) => r.access == .rw || r.access == .rc
      | none => false
    else true)

/-- The memory controller of a domain: 0 to 7 HBM, 8 and 9 capacity tier. -/
def ctlOfDom (n : Nat) : Option Nat :=
  if n < 44 then (if n % 11 = 8 ∨ n % 11 = 9 then some (2 * (n / 11) + (n % 11 - 8)) else none)
  else if n = 61 ∨ n = 62 then some (n - 53) else none

/-- The state of a memory controller (R172): 0 OFF, 1 TRAINING, 2 READY, 3 SELF_REFRESH, 4 FAILED. -/
def State.setCtl (s : State) (c st : Nat) : State :=
  { s with ctls := mput s.ctls c { mgetD s.ctls c MemCtl.empty with state := st } }

/-- The controller of a memory domain, if it is one, takes a state (R163, R172). -/
def State.domCtl (s : State) (n st : Nat) : State :=
  match ctlOfDom n with
  | some c => s.setCtl c st
  | none => s

/-- A controller that leaves on writes back every dirty tag line, which then reads well again, and keeps none (R163). -/
def State.flushTags (s : State) (n : Nat) : State :=
  match ctlOfDom n with
  | some c => { s with ctls := mput s.ctls c { mgetD s.ctls c MemCtl.empty with tagCache := [], tagDirty := [] } }
  | none => s

/-- What a domain loses on every entry, to retention or off: all that is neither on its save list nor kept in retention
(R530); an Ethernet port's link goes down, its transmitter idle (R538). A register that is not on the list wakes at its reset
value, and the vector registers of a hank hold free values (log entry 61). -/
def State.loseUnsaved (s : State) (n : Nat) : State :=
  let s := { s with regs := s.regs.filter fun e => !(domAddr n e.1) || saved n e.1 }
  if n < 44 then
    let d := n / 11
    let i := n % 11
    if i < 4 then
      let g := 4 * d + i
      let base := s.fresh
      foldS (fun s p => s.modStrand (8 * g + p) fun x => { x with vregs := [], vbase := some (base + 8192 * p) })
        { s with fresh := s.fresh + 65536 } (upTo 8)
    else if i = 5 then s.modEngine d fun e => { e with cache := [] }
    else s.flushTags n
  else if n = 52 ∨ n = 53 then s.modHostPort (n - 52) fun x => { x with linkUp := false, fecLock := false }
  else s.flushTags n

/-- What a domain that goes off loses besides (R530, R532): a hank's scratch, accumulators and knots read zero. -/
def State.loseContents (s : State) (n : Nat) : State :=
  if n < 44 then
    let d := n / 11
    let i := n % 11
    if i < 4 then
      let g := 4 * d + i
      foldS (fun s p =>
        let st := 8 * g + p
        (s.wipe (scratchBase st) scratchSize).modStrand st fun x =>
          { x with acc := Acc.empty, knots := [], queue := [], writebacks := [], badLines := [] }) s (upTo 8)
    else if i = 4 then
      let s := foldS (fun s h => s.wipe (regionBase (4 * d + h)) (2 ^ 24)) s (upTo 4)
      s.wipe (bightBase d) (2 ^ 24)
    else if i = 5 then s.modEngine d fun e => { e with rx := [], colls := [] }
    else if i = 8 ∨ i = 9 then
      let u := 2 * d + (i - 8)
      (s.wipe (unitBase u) (2 ^ 36)).modUnit u fun x => { x with bad := [], writebacks := [] }
    else s
  else if n = 61 ∨ n = 62 then
    foldS (fun s v =>
      let u := 8 + 6 * (n - 61) + v
      (s.wipe (unitBase u) (2 ^ 36)).modUnit u fun x => { x with bad := [], writebacks := [] }) s (upTo 6)
  else s

/-- The save list of a domain with its values: every stored register of the list (R530). -/
def State.saveList (s : State) (n : Nat) : List (Nat × Word) :=
  (s.regs.filter fun e => saved n e.1).map fun e => (e.1, BitVec.ofNat 32 e.2)

/-- Restore a save list, or the reset values when its area holds an uncorrectable word, which is recorded (R531). -/
def State.restore (s : State) (n corrected : Nat) (bad : Bool) : State :=
  let s := s.bump Reg.pwrSaveEccCount corrected
  let s := { s with regs := s.regs.filter fun e => !(saved n e.1) }
  if bad || !(s.dom n).saveValid then
    let s := s.modDom n fun d => { d with defaulted := true, saveValid := false }
    s.fsr { s.record 18 none with detail := [(0, n)] }
  else
    let s := foldS (fun s e => { s with regs := mput s.regs e.1 e.2.toNat }) s (s.dom n).saved
    s.modDom n fun d => { d with defaulted := false }

/-- A hank that wakes loads the images in force (R518). -/
def State.loadImage (s : State) (n : Nat) : State :=
  if n < 44 && n % 11 < 4 then s.modHank (4 * (n / 11) + n % 11) fun h => { h with microSlot := s.update.micro } else s

/-- A domain becomes ready after a wake of some µs (R518, R530, R536, R539): it is on with TARGET = ON, and a memory controller
is READY; its cleats are released unless the wake held them. -/
def State.ready (s : State) (n us corrected : Nat) (bad : Bool) : State :=
  let s := s.restore n corrected bad
  let s := ((s.raiseReg (Reg.pwrDomWakeUs n) us).domCtl n 2).loadImage n
  s.modDom n fun d => { d with state := .on, phase := 0, since := s.now, target := 0, cleated := d.holdCleats, saveValid := false,
                               wakeQueued := none, offSpans := d.offSpans.shut s.now }

/-- Finish an entry: the save list is kept and the switch opens or the voltage drops; what the state does not keep is lost
(R530, R533), an Ecron port domain's ports are DOWN (R362), and a memory controller's units are in self-refresh or off
(R163). -/
def State.enterDone (s : State) (n : Nat) : State :=
  let d := s.dom n
  let list := s.saveList n
  let s := s.modDom n fun d => { d with saved := list, saveValid := true, phase := 0, fromOff := d.toOff,
                                        state := if d.toOff then .off else .retention, cleated := true,
                                        target := if d.toOff then 2 else 1 }
  let s := if 54 ≤ n ∧ n < 60 then foldS (fun s i => s.portDown (3 * (n - 54) + i) none) s (upTo 3) else s
  let s := (s.loseUnsaved n).domCtl n (if d.toOff then 0 else 3)
  if d.toOff then s.loseContents n else s

/-- Abort an entry (R535): cleats released, TARGET reads ON, the aborter recorded and counted, DOMAIN_ABORTED sent. -/
def State.abortEntry (s : State) (n source : Nat) : State :=
  let s := s.modDom n fun d => { d with state := .on, phase := 0, target := 0, cleated := false,
                                        offSpans := d.offSpans.shut s.now }
  let s := s.setReg (Reg.pwrDomLast n) (s.reg (Reg.pwrDomLast n) % 256 + 256 * source)
  (s.inc (Reg.pwrDomAbortCount n)).eventC 25 stOk n (toLe 4 source)

/-- The domains whose parent is a domain. -/
def children (n : Nat) : List Nat := (upTo 64).filter fun c => domParent c == some n

/-- Whether the partition of a hank keeps it from retention (R534): not in MODE HOLD, or a step under way. -/
def State.stepUnderWay (s : State) (p : Nat) : Bool :=
  (s.step p).phase == .running || (s.step p).phase == .committing || (s.step p).phase == .replaying

/-- A starvation flag of a partition is raised: BOUND_MISS_COUNT of SRV_PART_STATS counts each step that meets one, once, up to
0xFFFF (R287, R289). -/
def State.boundMiss (s : State) (p : Nat) : State :=
  let x := s.step p
  if !(s.stepUnderWay p) || x.missed == some x.counter then s
  else
    let v := s.reg (Reg.srvPartStats p)
    (s.setReg (Reg.srvPartStats p) (v % 65536 + 65536 * min 0xFFFF (v / 65536 + 1))).modStep p fun y =>
      { y with missed := some x.counter }

/-- Whether an engine domain holds work (R534): a hitch, a row, a packet or collective state. -/
def State.engineBusy (s : State) (d i : Nat) : Bool :=
  let running (ops : List Nat) : Bool := (upTo 32).any fun k =>
    (s.strand (32 * d + k)).queue.any fun e => e.phase == .running && ops.contains (e.word.toNat % 256)
  if i = 5 then !(s.engine d).rx.isEmpty || !(s.engine d).colls.isEmpty || running [0x28, 0x29]
  else if i = 6 then running [0x22]
  else false

/-- Whether a domain holds resources of a partition that is being whipped (R534). -/
def State.domWhipped (s : State) (n : Nat) : Bool :=
  (upTo 16).any fun p => (s.part p).state == .whipping &&
    (if n < 44 then
      let d := n / 11
      let i := n % 11
      if i < 4 then (s.part p).hanks.contains (4 * d + i)
      else if i = 8 ∨ i = 9 then !(s.granules p (2 * d + (i - 8))).isEmpty
      else (s.diesOf p).contains d
    else if n < 52 then s.reg (Reg.vidCoreOwner (n - 44)) == p
    else if n = 61 ∨ n = 62 then (upTo 6).any fun v => !(s.granules p (8 + 6 * (n - 61) + v)).isEmpty
    else false)

/-- Whether refuser `id` refuses an entry of domain n to off or retention (R534). -/
def State.refuses (s : State) (n : Nat) (off : Bool) (id : Nat) : Bool :=
  let d := n / 11
  let i := n % 11
  match id with
  | 0x01 => (children n).any fun c => (s.dom c).state == .on || (s.dom c).state == .waking
  | 0x02 =>
    n < 44 && i < 4 &&
      (match s.partOf (4 * d + i) with
      | some p => off || (s.step p).mode != 0 || s.stepUnderWay p
      | none => false)
  | 0x03 => off && n < 44 && i == 4 && s.kv.bight.any fun b => b.die == d
  | 0x04 => n < 44 && s.engineBusy d i
  | 0x05 =>
    off &&
      (if n < 44 then (i == 8 || i == 9) && (upTo 16).any fun p => !(s.granules p (2 * d + (i - 8))).isEmpty
      else (n == 61 || n == 62) &&
        (upTo 16).any fun p => (upTo 6).any fun v => !(s.granules p (8 + 6 * (n - 61) + v)).isEmpty)
  | 0x06 => 44 ≤ n && n < 52 &&
      (match mget s.video.cores (n - 44) with
      | some c => c.state != 0
      | none => false)
  | 0x07 => (n == 52 || n == 53) && !(s.hostPort (53 - n)).linkUp
  | 0x08 => 54 ≤ n && n < 60 && (upTo 3).any fun k => bit (s.reg Reg.ecnCtrl) (3 * (n - 54) + k)
  | 0x09 => n == 63
  | 0x0A => s.domWhipped n
  | 0x0B => decide (0 < s.reg Reg.thmKeepWarm) &&
      decide (s.estimate < 1000 * s.reg Reg.thmKeepWarm + (Config.domainPower n).val)
  | _ => false

/-- The lowest refuser of an entry, if any (R534). -/
def State.refuser (s : State) (n : Nat) (off : Bool) : Option Nat :=
  [1, 2, 3, 4, 5, 6, 7, 8, 9, 10, 11].find? fun id => s.refuses n off id

/-- Whether low-power mode of the island may be entered (R540): LP is set and PD00 to PD62 are off. -/
def State.lowPower (s : State) : State :=
  let all := (upTo 63).all fun n => (s.dom n).state == .off
  { s with power := { s.power with lpActive := all && bit (s.reg Reg.pwrAonCtrl) 0 } }

/-- A write of TARGET = RETENTION or OFF to a domain that is on or in retention is checked (R533, R534): refused, or QUIESCE
begins; from retention, where nothing is left to quiesce or save, the switch opens at once (DESIGN CHOICE, log entry 61). -/
def State.beginEntry (s : State) (n : Nat) (off : Bool) : Nat × State :=
  match s.refuser n off with
  | some id =>
    let s := s.setReg (Reg.pwrDomLast n) (s.reg (Reg.pwrDomLast n) / 256 * 256 + id)
    (stSpliceConflict, s.inc (Reg.pwrDomRefuseCount n))
  | none =>
    if (s.dom n).state == .retention then
      let s := s.modDom n fun d => { d with toOff := true, target := 2, state := .off, fromOff := true }
      (stOk, ((s.domCtl n 0).loseContents n).lowPower)
    else
      (stOk, s.modDom n fun d => { d with state := .entering, phase := 1, toOff := off, since := s.now, cleated := true,
                                          holdCleats := false, target := if off then 2 else 1,
                                          offSpans := d.offSpans.begin s.now })

/-- One domain whose parents are on begins to wake (R536): an HBM stack or package that was off is trained (R172). -/
def State.beginWake (s : State) (n : Nat) : State :=
  let s := if (s.dom n).fromOff then s.domCtl n 1 else s
  s.modDom n fun d => { d with state := .waking, since := s.now, target := 0 }

/-- The chain of a domain: its parents from the outermost, and the domain itself (R529). -/
def domChain (n : Nat) : List Nat :=
  match domParent n with
  | none => [n]
  | some q =>
    match domParent q with
    | none => [q, n]
    | some r =>
      match domParent r with
      | none => [r, q, n]
      | some r2 => [r2, r, q, n]

/-- A TARGET write that waited for an entry or a wake which an access has ended is checked now; an entry that it would begin
meets the access, and aborts (R533, R535). -/
def State.settleQueued (s : State) (n source : Nat) : State :=
  match (s.dom n).queuedTarget with
  | none => s
  | some (t, _) =>
    let s := s.modDom n fun d => { d with queuedTarget := none }
    if t = 0 then s
    else
      match s.refuser n (t == 2) with
      | some id =>
        (s.setReg (Reg.pwrDomLast n) (s.reg (Reg.pwrDomLast n) / 256 * 256 + id)).inc (Reg.pwrDomRefuseCount n)
      | none => s.abortEntry n source

/-- Wake one domain whose parents are on, at once: an entry in CHECK or QUIESCE aborts, one in SAVE ends and wakes (R535,
R536). `us` is how long the wakes before it in the chain take; the answer adds its own (R529). -/
def State.wakeOne (s : State) (n us source : Nat) : Nat × State :=
  let up (s : State) : Nat × State :=
    let us := us + wakeUs n (s.dom n).fromOff
    (us, (s.ready n us 0 false).settleQueued n source)
  match (s.dom n).state with
  | .on => (us, s)
  | .entering => if (s.dom n).phase = 1 then (us, (s.abortEntry n source).settleQueued n source) else up (s.enterDone n)
  | .retention => up s
  | .off => up s
  | .waking => up s

/-- A request reaches a domain: its parents wake first, outermost first (R529, R536); before the first wake of start-up
there is no such request. -/
def State.reach (s : State) (n source : Nat) : State :=
  if !s.woken then s
  else
    let s := if s.power.lpActive then { s with power := { s.power with lpActive := false } } else s
    (foldS (fun x k => x.2.wakeOne k x.1 source) (0, s) (domChain n)).2

/-- Begin a wake: the parents that are not on wake first (R529). -/
def State.startWake (s : State) (n : Nat) : State :=
  let s := match domParent n with
    | none => s
    | some q => s.reach q 0xC0
  s.beginWake n

/-- A write of TARGET of PWR_DOM_CTRL (R533, R536): 0 wakes; 1 and 2 request an entry; during an entry or a wake the
write is kept and checked when that ends. A value of 3 is reserved and conflicts. -/
def State.domTarget (s : State) (n target : Nat) (hold : Bool) : Nat × State :=
  let d := s.dom n
  if target = 3 then (stSpliceConflict, s)
  else
    match d.state with
    | .entering => (stOk, s.modDom n fun d => { d with queuedTarget := some (target, hold) })
    | .waking => (stOk, s.modDom n fun d => { d with queuedTarget := some (target, hold) })
    | .on => if target = 0 then (stOk, s.modDom n fun d => { d with target := 0 }) else s.beginEntry n (target == 2)
    | .retention =>
      if target = 0 then
        let s := s.modDom n fun d => { d with holdCleats := hold }
        (stOk, s.startWake n)
      else if target = 1 then (stOk, s)
      else s.beginEntry n true
    | .off =>
      if target = 0 then
        let s := s.modDom n fun d => { d with holdCleats := hold }
        (stOk, s.startWake n)
      else if target = 1 then (stSpliceConflict, s)
      else (stOk, s)

/-- A queued TARGET write acts when an entry or a wake has ended (R533). -/
def State.queuedWrite (s : State) (n : Nat) : State :=
  match (s.dom n).queuedTarget with
  | none => s
  | some (t, h) => ((s.modDom n fun d => { d with queuedTarget := none }).domTarget n t h).2

/-- A write of 1 to CLEAT_REL releases cleats that a HOLD_CLEATS wake left held (R539). -/
def State.cleatRelease (s : State) (n : Nat) : State :=
  if (s.dom n).state == .on then s.modDom n fun d => { d with cleated := false, holdCleats := false } else s

end Sys2Proof.Machine
end

