-- ==== Sys2Proof/Machine/Packets.lean ====
section
/-! DEFINITION. Originating Ecron packets (chapter 13): routes of a hub (R375, R376), the sequence numbers and copies of
a packet (R370, R377, R378), refusals and acknowledgements (R372, R374), and the payload header of the collective
messages (R391) with the votes of a step (R403). -/

namespace Sys2Proof.Machine

/-- Payload flits of a packet (R370). -/
def Packet.length (p : Packet) : Nat := (p.payload.length + 31) / 32

/-- The data of a packet as R401 tells them apart: source, destination and payload header. -/
def packetData (p : Packet) : List Byte :=
  toLe 3 (p.srcModule + 256 * p.srcPart + 8192 * p.srcDie) ++ toLe 3 (p.dstModule + 256 * p.dstPart + 8192 * p.dstDie) ++
    p.payload.take 32

/-- The intra-group port of member m that joins member d (R369). -/
def intraPort (m d : Nat) : Nat := (d + 15 - m % 16) % 16

/-- A port that routing may use: UP and its peer not seized (R374, R375). -/
def State.portUp (s : State) (p : Nat) : Bool := (s.port p).state == 4 && !(s.port p).peerSeized

/-- Whether a member of the own group has announced a port as UP (R376). -/
def State.memberUp (s : State) (m p : Nat) : Bool := bit (nget s.ecron.members m) p

/-- The relay toward a member of the own group (R375): the first member after it that is neither, is not seized, and has
both links up. -/
def State.relay (s : State) (d : Nat) : Option Nat :=
  let me := s.self % 16
  ((upTo 15).map fun i => (d + 1 + i) % 16).find? fun r =>
    r != me && r != d && !(s.ecron.seized.contains (s.self / 16 * 16 + r)) && s.portUp (intraPort me r) &&
      s.memberUp r (intraPort r d)

/-- The links that an ECN_GW value names, by rank: the member that holds each and its global port (R384); a value of 0
names none (log entry 41). -/
def gwEntries (v : Nat) : List (Nat × Nat) :=
  if v = 0 then [] else (upTo 3).map fun k => (bits v (8 * k + 3) (8 * k), 15 + bits v (8 * k + 5) (8 * k + 4))

/-- The links of the own group to a group. -/
def State.gwLinks (s : State) (g : Nat) : List (Nat × Nat) := gwEntries (s.reg (Reg.ecnGw g))

/-- A global link is UP at its local end: seen here, or announced by its member. -/
def State.gwUp (s : State) (l : Nat × Nat) : Bool :=
  l.2 ≤ 17 && (if l.1 = s.self % 16 then s.portUp l.2 else s.memberUp l.1 l.2)

/-- The port that leads to a global link. -/
def State.gwPort (s : State) (l : Nat × Nat) : Nat :=
  if l.1 = s.self % 16 then l.2 else intraPort (s.self % 16) l.1

/-- ECN_ROUTE of a destination module (R376): the ports of path A and of path B, where each exists. -/
def State.route (s : State) (d : Nat) : Option Nat × Option Nat :=
  let me := s.self % 16
  if d / 16 = s.self / 16 then
    let direct := intraPort me (d % 16)
    (if s.portUp direct then some direct else none, (s.relay (d % 16)).map fun r => intraPort me r)
  else
    let up := (s.gwLinks (d / 16)).filter fun l => s.gwUp l
    let a := match up.find? fun l => l.1 == me with
      | some l => some l
      | none => up.head?
    match a with
    | none => (none, none)
    | some l => (some (s.gwPort l), ((up.filter fun x => x != l).head?).map fun x => s.gwPort x)

/-- Add a packet copy to the transmit queue of a port, with the port whose buffer still holds it; 18 for none. -/
def State.enqueueFrom (s : State) (inPort port : Nat) (p : Packet) : State :=
  let n := s.ecron.nextSlot
  { s with ecron := { s.ecron with txq := mput s.ecron.txq n (port, inPort, p), nextSlot := n + 1 } }

/-- Add a packet copy that this module originates to the transmit queue of a port. -/
def State.enqueue (s : State) (port : Nat) (p : Packet) : State := s.enqueueFrom 18 port p

/-- The key of a job key ID (R371, R478). -/
def State.jobKey (s : State) (id : Nat) : Key :=
  match mget s.security.jobKeys id with
  | some k => k.2
  | none => fabricKey

/-- The key ID under which a partition sends (R483); the module's is 0. -/
def State.txKeyOf (s : State) (part : Nat) : Nat := if part < 16 then (s.part part).txKey.getD 0 else 0

/-- The role epoch of a sender (R370, R512). -/
def State.ownEpoch (s : State) (part : Nat) : Nat := if part < 16 then s.reg (Reg.lnyPartEpoch part) else 0

/-- A packet of the module or of a partition (R370), its SEQ still to be given. -/
def State.packet (s : State) (vc : Nat) (dst : Nat × Nat × Nat) (src : Nat × Nat) (role epoch : Nat)
    (payload : List Byte) (telltale : Nat) : Packet :=
  let id := s.txKeyOf src.1
  { version := 1, ptype := 1, vc := vc, path := 0, braided := true, resend := false, lane := 0, dstPart := dst.2.1,
    dstDie := dst.2.2, dstModule := dst.1, srcModule := s.self, srcPart := src.1, srcDie := src.2,
    srcEpoch := s.ownEpoch src.1, dstEpoch := epoch, seq := 0,
    step := if src.1 < 16 then (s.step src.1).counter % 2 ^ 32 else 0, keyId := id, dstRole := role, reserved := false,
    telltale := telltale, payload := payload, tagKey := s.jobKey id }

/-- Whether a VC is braided (R31, R372): always, but for bulk KV traffic without ECN_BRAID_CTRL.BULK. -/
def State.braids (s : State) (vc : Nat) : Bool := vc != 4 || bit (s.reg Reg.ecnBraidCtrl) 4

/-- Deliver a packet to a die engine of this module, through the crypto cluster of the die; the engine's domain wakes for it
(R16, R536). -/
def State.deliver (s : State) (p : Packet) : State :=
  let s := if p.dstDie < 4 then (s.reach (11 * p.dstDie + 7) 0xC2).reach (11 * p.dstDie + 5) 0xC2 else s
  s.modEngine p.dstDie fun e => { e with rx := e.rx ++ [{ packet := p, at_ := s.now, waiting := false }] }

/-- Keep a token or collective packet of a partition: a REFUSE of it may come while its step runs (R374). -/
def State.logSent (s : State) (p : Packet) : State :=
  if (p.vc == 2 || p.vc == 3) && p.ptype == 1 then
    { s with dispatch := { s.dispatch with sentLog := p :: s.dispatch.sentLog } }
  else s

/-- Put the copies of a packet on its paths (R377, R378). -/
def State.putCopies (s : State) (p : Packet) : State :=
  let s := s.inc (if p.resend then Reg.ecnVcResent p.vc else Reg.ecnVcOriginated p.vc)
  let (a, b) := s.route p.dstModule
  let pa : Packet := { p with path := 0 }
  let pb : Packet := { p with path := 1 }
  match a, b with
  | none, none => s.inc Reg.ecnNoRouteCount
  | some x, none => (if p.braided then s.inc Reg.ecnNoRouteCount else s).enqueue x pa
  | none, some y => (if p.braided then s.inc Reg.ecnNoRouteCount else s).enqueue y pb
  | some x, some y => if p.braided then (s.enqueue x pa).enqueue y pb else s.enqueue x pa

/-- Originate a packet (R377, R378, R383): a seized module originates none (R374), nor does a partition being whipped
(R381). It takes the next SEQ of its destination and VC; one for this module goes to its engine, others are put on their
paths. A bulk packet sent without braiding awaits its ACK (R379); a ship's packets are kept while the ship runs, for a REFUSE
(R255). -/
def State.originate (s : State) (p : Packet) : State :=
  if s.lease.seized || (p.srcPart < 16 && (s.part p.srcPart).state == .whipping) then s
  else
    let k := p.dstModule * 8 + p.vc
    let n := nget s.ecron.txSeq k + 1
    let p := { p with seq := n, braided := s.braids p.vc }
    let s := { s with ecron := { s.ecron with txSeq := mput s.ecron.txSeq k n } }
    let s := s.logSent p
    if p.dstModule = s.self then s.deliver p
    else
      let s := s.putCopies p
      let kind := leAt p.payload 0 4
      if p.vc = 4 && p.ptype == 1 && (!p.braided || kind == 1 || kind == 2) then
        let b : Bulk := { packet := p, sentAt := s.now, resends := 0 }
        { s with ecron := { s.ecron with bulk := mput s.ecron.bulk (p.dstModule + 256 * n) b } }
      else s

/-- The 32 payload bytes of a REFUSE (R372): status, the refused SEQ and VC, and the holder. -/
def refusePayload (status seq vc modNum part epoch : Nat) : List Byte :=
  toLe 32 (status % 2 ^ 16 + 2 ^ 16 * (seq % 2 ^ 64) + 2 ^ 80 * (vc % 8) + 2 ^ 88 * (modNum % 256) +
    2 ^ 96 * (part % 32) + 2 ^ 128 * (epoch % 2 ^ 32))

/-- Send a REFUSE on VC5 to the sender of a packet (R374); a REFUSE or an ACK is never answered. -/
def State.refuseTo (s : State) (p : Packet) (status modNum part epoch : Nat) : State :=
  if p.ptype != 1 then s
  else
    let q := s.packet 5 (p.srcModule, p.srcPart, p.srcDie) (16, p.dstDie) 0xFFFF 0
      (refusePayload status p.seq p.vc modNum part epoch) 0
    s.originate { q with ptype := 3 }

/-- Send an ACK of a bulk packet (R372, R379). -/
def State.ackTo (s : State) (p : Packet) : State :=
  let q := s.packet 5 (p.srcModule, p.srcPart, p.srcDie) (16, p.dstDie) 0xFFFF 0 (toLe 8 p.seq) 0
  s.originate { q with ptype := 2 }

/-! Receipt (R373) -/

/-- The peer epoch a module holds for a sender (R373). -/
def State.peerEpoch (s : State) (m p : Nat) : Nat := nget s.ecron.peerEpoch (32 * m + p)

/-- What R373 finds of a packet after its sequence number: it passes, waits for its role to rise, or stops with a
status and the holder a REFUSE names. -/
inductive Gate where
  | pass
  | hold
  | stop (status modNum part epoch : Nat)
  deriving DecidableEq, Repr

/-- The epoch, whipping and role tests of R373; `waited` says that the packet's hold has ended. -/
def State.gate (s : State) (p : Packet) (waited : Bool) : Gate :=
  if p.srcEpoch < s.peerEpoch p.srcModule p.srcPart then .stop stStaleEpoch 0 0 0
  else if p.ptype != 1 then .pass
  else if p.dstPart < 16 && (s.part p.dstPart).state == .whipping then .stop stWhipping 0 0 0
  else if p.dstRole = 0xFFFF then .pass
  else
    let r := mgetD s.ecron.directory p.dstRole { modNum := 0, part := 0, epoch := 0 }
    if r.epoch < p.dstEpoch && !waited then .hold
    else if r.modNum != s.self || r.part != p.dstPart || r.epoch != p.dstEpoch then
      .stop stRoleMoved r.modNum r.part r.epoch
    else .pass

/-- Count a refusal of R373 (R374). -/
def State.countStop (s : State) (st : Nat) : State :=
  if st = stStaleEpoch then s.inc Reg.ecnStaleEpochCount
  else if st = stRoleMoved then s.inc Reg.ecnRoleMovedCount
  else if st = stWhipping then s.inc Reg.ecnWhipRefuseCount
  else s

/-- The role of the directory that a place holds, or none of them (0xFFFF): the lowest (log entry 36). -/
def State.roleAt (s : State) (modNum part : Nat) : Nat :=
  match s.ecron.directory.find? fun e => e.2.modNum == modNum && e.2.part == part with
  | some e => e.1
  | none => 0xFFFF

/-- HNK_KNOT_WAIT_LIMIT in ns for a partition's engine on a die: that of its lowest hank there (log entry 36). -/
def State.waitLimit (s : State) (p d : Nat) : Nat :=
  1000 * s.reg (Reg.hnkKnotWaitLimit ((s.hanksOn p d).headD (s.firstHank p)))

/-! Collective messages (R391) -/

/-- The payload header of a collective message. -/
structure CollHead where
  kind : Nat
  lost : Bool
  run : Nat
  index : Nat
  tag : Nat
  id : Nat
  first : Nat
  count : Nat
  n : Nat
  stepHi : Nat
  deriving DecidableEq, Repr

/-- The 32 bytes of a header. -/
def CollHead.bytes (h : CollHead) : List Byte :=
  [BitVec.ofNat 8 (h.kind + 16 * b2n h.lost)] ++ toLe 1 h.run ++ toLe 2 h.index ++ toLe 4 h.tag ++ toLe 4 h.id ++
    toLe 4 h.first ++ toLe 4 h.count ++ toLe 4 h.n ++ toLe 4 h.stepHi ++ toLe 4 0

/-- Read a header. -/
def CollHead.parse (b : List Byte) : CollHead :=
  { kind := leAt b 0 1 % 16, lost := bit (leAt b 0 1) 4, run := leAt b 1 1, index := leAt b 2 2 % 512, tag := leAt b 4 4,
    id := leAt b 8 4, first := leAt b 0xC 4, count := leAt b 0x10 4, n := leAt b 0x14 4, stepHi := leAt b 0x18 4 }

/-- Send a collective message of a partition's engine: its payload carries a telltale (R399). -/
def State.sendColl (s : State) (part die : Nat) (dst : Nat × Nat × Nat) (role epoch : Nat) (payload : List Byte)
    (resend : Bool) : State :=
  let p := s.packet 3 dst (part, die) role epoch payload (crc64 payload)
  s.originate { p with resend := resend }

/-- Send a vote of a partition to every other member partition of its step, once each (R403). -/
def State.sendVote (s : State) (p kind cls step run : Nat) : State :=
  let others := (s.step p).groups.filter fun m => !(m.modNum == s.self && m.part == p)
  let once := others.foldl (fun l m => if l.any (fun x : Peer => x.modNum == m.modNum && x.part == m.part) then l
    else l ++ [m]) []
  foldS (fun s m =>
    let h : CollHead := { kind := kind, lost := false, run := run, index := m.index, tag := m.tag, id := 0, first := 0,
                          count := cls, n := m.n, stepHi := step / 2 ^ 32 }
    let q := s.packet 3 (m.modNum, m.part, m.die) (p, (s.diesOf p).headD 0) m.role m.epoch h.bytes (crc64 h.bytes)
    s.originate { q with step := step % 2 ^ 32 }) s once

/-- The vote record of a run. -/
def State.vote (s : State) (p step run : Nat) : Option Vote :=
  (s.step p).votes.find? fun v => v.step == step && v.run == run

/-- Change the vote record of a run, made when there is none. -/
def State.modVote (s : State) (p step run : Nat) (f : Vote → Vote) : State :=
  s.modStep p fun x =>
    let new : Vote := { step := step, run := run, sent := 0, members := [], ready := [], sentAt := 0, queried := 0 }
    if x.votes.any fun v => v.step == step && v.run == run then
      { x with votes := x.votes.map fun v => if v.step == step && v.run == run then f v else v }
    else { x with votes := x.votes ++ [f new] }

end Sys2Proof.Machine
end

