-- ==== Sys2Proof/Machine/Session.lean ====
section
/-! DEFINITION. The admission and reply of a Hawser command (R412, R413, R415, R419, R506, R570): one gate that every
command row passes, written from the opcode table. -/

namespace Sys2Proof.Machine

/-- An opcode of R419: its code, the sessions that may issue it, whether it needs the lanyard (R413), whether a seized
module answers it (R506), and whether it is refused before READY (R570). -/
structure OpInfo where
  code : Nat
  commander : Bool
  part : Bool
  lanyard : Bool
  whenSeized : Bool
  whenReady : Bool
  deriving DecidableEq, Repr

/-- An opcode that both kinds of session issue. -/
def opBoth (c : Nat) : OpInfo := ⟨c, true, true, true, false, false⟩
/-- An opcode of the commander session. -/
def opC (c : Nat) : OpInfo := ⟨c, true, false, true, false, false⟩
/-- An opcode of partition sessions. -/
def opP (c : Nat) : OpInfo := ⟨c, false, true, true, false, false⟩
/-- A lease opcode (R499). -/
def opLease (c : Nat) (seized : Bool) : OpInfo := ⟨c, true, false, false, seized, false⟩

/-- The opcode table (R419) with R413, R499, R506 and R570. SESSION_OPEN needs no lanyard: a commander opens its session
before it can acquire (R479, R570; log entry 22). -/
def opcodeTable : List OpInfo := [
  ⟨0x0001, true, true, true, true, false⟩, ⟨0x0002, true, true, false, true, false⟩,
  ⟨0x0003, true, true, true, true, false⟩, ⟨0x0004, false, false, true, false, false⟩, opBoth 0x0005,
  ⟨0x0100, true, true, true, true, false⟩, opBoth 0x0101, opBoth 0x0102, opBoth 0x0110, opBoth 0x0111,
  ⟨0x0200, true, false, true, false, true⟩, opC 0x0201, opBoth 0x0202, opBoth 0x0203,
  ⟨0x0204, true, true, true, true, false⟩,
  opLease 0x0300 true, opLease 0x0301 true, opLease 0x0302 false, opC 0x0303, opLease 0x0304 true,
  opC 0x0400, opC 0x0401, ⟨0x0402, true, false, true, false, true⟩, ⟨0x0403, true, false, true, false, true⟩,
  ⟨0x0404, true, false, true, false, true⟩, opC 0x0405,
  opP 0x0500, opP 0x0501, opP 0x0502, opP 0x0503, opP 0x0504, opP 0x0505, opBoth 0x0506, opP 0x0507, opBoth 0x0508,
  opP 0x0509, opP 0x050A, opP 0x050B,
  opP 0x0600, opP 0x0601, opP 0x0602, opP 0x0603, opP 0x0604, opP 0x0605, opP 0x0606, opP 0x0607,
  ⟨0x0700, true, true, true, true, false⟩, opBoth 0x0701, opC 0x0702]

/-- The entry of an opcode. -/
def opInfo (code : Nat) : Option OpInfo := opcodeTable.find? fun o => o.code == code

/-- Whether a session of the model is the commander's (log entry 1). -/
def isCommander (sid : Nat) : Bool := decide (sid < 16)
/-- The partition of a partition session. -/
def sidPart (sid : Nat) : Nat := sid - 16

/-- The lanyard is HELD (R498). -/
def State.held (s : State) : Bool := s.lease.holder != 0 && decide (s.now < s.lease.expiry)
/-- A commander holds the lanyard (R413). -/
def State.holds (s : State) (c : Nat) : Bool := s.held && s.lease.holder == c
/-- The session is the former one of a partition being whipped (R492). -/
def State.former (s : State) (sid : Nat) : Bool :=
  match s.session sid with
  | some x => x.former
  | none => false
/-- EPOCH is stale (R413, R492). -/
def State.stale (s : State) (sid epoch : Nat) : Bool :=
  if isCommander sid then decide (epoch < s.lease.epoch) else epoch != (s.part (sidPart sid)).gen || s.former sid

/-- The reply parameters of a refused lease opcode (R499). -/
def State.leaseInfo (s : State) : List Byte :=
  toLe 4 s.lease.epoch ++ toLe 2 s.lease.holder ++ toLe 2 0 ++ toLe 8 s.lease.expiry

/-- The refusal of a command by R413, R506, R412 and R570, in that order; none when it may execute. -/
def State.refusal (s : State) (sid epoch code : Nat) : Option Nat :=
  if s.stale sid epoch then some stStaleEpoch
  else
    match opInfo code with
    | none => some (if s.lease.seized || (isCommander sid && !(s.holds sid && epoch == s.lease.epoch)) then stLeaseLost else stUnsupported)
    | some o =>
      if isCommander sid && o.lanyard && !(s.holds sid && epoch == s.lease.epoch) then some stLeaseLost
      else if s.lease.seized && !o.whenSeized then some stLeaseLost
      else if !(if isCommander sid then o.commander else o.part) then some stNotPermitted
      else if o.whenReady && s.gblState != 1 && s.gblState != 3 then some stNotPermitted
      else none

/-- The counters of a refusal: STALE_EPOCH counts at HST, and at LNY for a lease opcode or ROLE_ASSIGN (R512). -/
def State.countRefusal (s : State) (code st : Nat) : State :=
  if st = stStaleEpoch then
    let s := s.inc Reg.hstStaleEpochCount
    if 0x0300 ≤ code ∧ code ≤ 0x0304 then s.inc Reg.lnyStaleCount else s
  else s

/-- The parameters of a refusal's reply: a lease opcode's carry the lanyard record (R499). -/
def State.refusalData (s : State) (code st : Nat) : List Byte :=
  if (0x0300 ≤ code ∧ code ≤ 0x0304 ∧ code ≠ 0x0303) ∧ (st = stStaleEpoch ∨ st = stLeaseLost) then s.leaseInfo else []

/-- Send a reply on both ports (R411), or back over Ecron VC0 to the module that relayed the command (R414). -/
def State.sendReply (s : State) (sid : Nat) (relay : Option Nat) (r : Reply) : State :=
  match relay with
  | none => s.send (.reply sid r)
  | some m =>
    let bytes := toLe 4 r.seq ++ toLe 2 r.status ++ toLe 2 sid ++ r.data
    (s.originate (s.packet 0 (m, 16, 0) (16, 0) 0xFFFF 0 bytes 0)).send (.relayReply m sid r)

/-- The module that relayed a command of a session, if any. -/
def State.relayOf (s : State) (sid seq : Nat) : Option Nat :=
  match s.session sid with
  | some x => mget x.via seq
  | none => none

/-- Answer a command and take it out of its session's queue; `keep` says that the reply joins the session's stored ones. -/
def State.answer (s : State) (sid seq st : Nat) (data : List Byte) (keep : Bool) : State :=
  let r : Reply := { seq := seq, status := st, data := data }
  let relay := s.relayOf sid seq
  let s := s.modSession sid fun x =>
    { x with replies := if keep then (r :: x.replies).take 64 else x.replies, queue := x.queue.filter fun f => f.seq != seq }
  let s := { s with update := { s.update with stamps := s.update.stamps.filter fun x => !(x.1 == sid && x.2.1 == seq) } }
  s.sendReply sid relay r

/-- Reply to an executed command, keeping the reply among the session's last 64 (R415). -/
def State.reply (s : State) (sid seq st : Nat) (data : List Byte) : State := s.answer sid seq st data true

/-- Execute a Hawser command of an opcode that may reply later, when its meaning answers no reply: nothing in a session with no key, during the management pause (R520), or while
an earlier queued command of the session waits (R415); a queued command is tested again only for its epoch (R500). -/
def State.commandLater (s : State) (h : CmdHdr) (code : Nat) (f : State → Option (Nat × List Byte) × State) : State :=
  let s := s.tick h.t
  match s.session h.session with
  | none => s
  | some x =>
    let queued := x.queue.any fun q => q.seq == h.seq
    if s.update.paused.isSome then s
    else if queued && (x.queue.map fun q => q.seq).headD h.seq != h.seq then s
    else
      let ref := if queued then (if s.stale h.session h.epoch then some stStaleEpoch else none)
        else s.refusal h.session h.epoch code
      match ref with
      | some st => (s.countRefusal code st).answer h.session h.seq st (s.refusalData code st) false
      | none =>
        let r := f s
        match r.1 with
        | some a => r.2.reply h.session h.seq a.1 a.2
        | none => r.2

/-- Execute a Hawser command of an opcode that replies when it completes (R415). -/
def State.command (s : State) (h : CmdHdr) (code : Nat) (f : State → Nat × List Byte × State) : State :=
  s.commandLater h code fun s =>
    let r := f s
    (some (r.1, r.2.1), r.2.2)

/-! Windows of sequence numbers (R378, R412) -/

/-- A number the window has entered. -/
def Window.dup (w : Window) (n : Nat) : Bool := n == w.high || w.seen.contains n
/-- A number below the window's 1,024 values. -/
def Window.late (w : Window) (n : Nat) : Bool := decide (n + 1024 < w.high)
/-- Enter a number. -/
def Window.enter (w : Window) (n : Nat) : Window :=
  if w.high < n then { high := n, seen := (w.high :: w.seen).filter fun k => n ≤ k + 1024 }
  else { w with seen := n :: w.seen }

/-! Access to registers (R21, R22) -/

/-- Whether a partition sees a register: its strands' and hanks' windows, and the partition-visible registers, in a per-die
block through the instances of its own dies (R22). -/
def State.sees (s : State) (p addr : Nat) (r : RegRow) (ix : List Nat) : Bool :=
  let hs := (s.part p).hanks
  match r.vis with
  | .commander => false
  | .any => true
  | .strand => hs.contains (ix.headD 0 / 8)
  | .hank => hs.contains (ix.headD 0)
  | .part => ix.headD 16 == p
  | .partDie => ix.getD 1 16 == p && (decide (0x120000 ≤ addr) || (s.diesOf p).contains (ix.headD 0))

/-- The status of one word's access (R21, R22, R421): ADDR_INVALID where the session sees nothing, NOT_PERMITTED for a write
of a register that the partition may only read, in its strand windows too. -/
def State.access (s : State) (sid addr : Nat) (write : Bool) : Nat :=
  if !(mapped addr) then stAddrInvalid
  else if isCommander sid then stOk
  else
    let p := sidPart sid
    match regAt addr with
    | some (r, ix) =>
      if !(s.sees p addr r ix) then stAddrInvalid
      else if write && (if r.vis == .strand || r.vis == .hank then r.access == .ro || r.access == .rc
          else !r.partWrites && r.access != .wo) then stNotPermitted
      else stOk
    | none =>
      if 0x1000000 ≤ addr && (s.part p).hanks.contains ((addr - 0x1000000) / 0x80000) then stOk else stAddrInvalid

/-- A command that only succeeds or fails: its status, no reply parameters. -/
def ans (st : Nat) (s : State) : Nat × List Byte × State := (st, [], s)

/-- The partition that a command of a session acts on: its own, or in the commander session the one it names. -/
def partFor (sid named : Nat) : Nat := if isCommander sid then named else sidPart sid

end Sys2Proof.Machine
end

