-- ==== Sys2Proof/Machine/Power.lean ====
section
/-! DEFINITION. The commands and events of the power domains, cleats and the always-on island (chapter 21). -/

namespace Sys2Proof.Machine

/-- A write of PWR_AON_CTRL (R540). -/
def State.aonWrite (s : State) (v : Nat) : State := (s.setReg Reg.pwrAonCtrl (v % 2)).lowPower

/-- A write of PWR_DOM_CTRL (R533, R539, R543): a cleat release is taken before the request. The commands TARGET_ON,
TARGET_RETENTION, TARGET_OFF and CLEAT_REL are its cases. -/
def State.domCtrlWrite (s : State) (n v : Nat) : Nat × State :=
  let s := if bit v 8 then s.cleatRelease n else s
  let r := s.domTarget n (v % 4) (bit v 4)
  if r.1 = stOk then (stOk, r.2.setReg (Reg.pwrDomCtrl n) (v % 32)) else r

/-- A register access wakes the domain that holds the register (R23, R536). -/
def State.reachReg (s : State) (addr : Nat) : State :=
  match (upTo 64).find? fun n => wakeAddr n addr with
  | some n => s.reach n 0xC0
  | none => s

/-- A command that writes one register: the access is checked (R21, R22), then the register's domain is reached. -/
def State.regCommand (s : State) (h : CmdHdr) (code addr : Nat) (f : State → Nat × List Byte × State) : State :=
  s.command h code fun s =>
    let st := s.access h.session addr true
    if st = stOk then f (s.reachReg addr) else ans st s

/-- TARGET_ON (R533, R536). -/
def execTargetOn (h : CmdHdr) (dom : Fin 64) (hold : Bool) (s : State) : Host.Outcome State Fault Refusal :=
  .next (s.regCommand h 0x0101 (Reg.pwrDomCtrl dom.val) fun s =>
    let r := s.domCtrlWrite dom.val (if hold then 16 else 0)
    ans r.1 r.2)

/-- TARGET_RETENTION (R533, R534). -/
def execTargetRetention (h : CmdHdr) (dom : Fin 64) (s : State) : Host.Outcome State Fault Refusal :=
  .next (s.regCommand h 0x0101 (Reg.pwrDomCtrl dom.val) fun s =>
    let r := s.domCtrlWrite dom.val 1
    ans r.1 r.2)

/-- TARGET_OFF (R533, R534). -/
def execTargetOff (h : CmdHdr) (dom : Fin 64) (s : State) : Host.Outcome State Fault Refusal :=
  .next (s.regCommand h 0x0101 (Reg.pwrDomCtrl dom.val) fun s =>
    let r := s.domCtrlWrite dom.val 2
    ans r.1 r.2)

/-- CLEAT_REL (R539): the release of a write that leaves TARGET as it reads. -/
def execCleatRel (h : CmdHdr) (dom : Fin 64) (s : State) : Host.Outcome State Fault Refusal :=
  .next (s.regCommand h 0x0102 (Reg.pwrDomCtrl dom.val) fun s => ans stOk (s.cleatRelease dom.val))

/-- PWR_AON_CTRL (R540). -/
def execPwrAonCtrl (h : CmdHdr) (value : Word) (s : State) : Host.Outcome State Fault Refusal :=
  .next (s.regCommand h 0x0101 Reg.pwrAonCtrl fun s => ans stOk (s.aonWrite value.toNat))

/-- WAKE_ON_ACCESS (R536, R537): an entry in QUIESCE aborts; a domain in retention or off begins its wake after its
parents; one already waking wakes once; an entry in SAVE is followed by a wake. -/
def execWakeOnAccess (dom : Fin 64) (source : BitVec 8) (t : Nat) (s : State) : Host.Outcome State Fault Refusal :=
  let n := dom.val
  let s := s.tick t
  let s := if s.power.lpActive then { s with power := { s.power with lpActive := false } } else s
  .next (match (s.dom n).state with
  | .on => s
  | .waking => s
  | .entering =>
    if (s.dom n).phase = 1 then (s.abortEntry n source.toNat).queuedWrite n
    else s.modDom n fun d => { d with wakeQueued := some (d.wakeQueued.getD s.now) }
  | .retention => s.startWake n
  | .off => s.startWake n)

/-- QUIESCE_END (R533): granted transfers have drained within 10 µs, and the save list is copied. -/
def execQuiesceEnd (dom : Fin 64) (t : Nat) (s : State) : Host.Outcome State Fault Refusal :=
  let n := dom.val
  let s := s.tick t
  .next (
    if (s.dom n).state == .entering && (s.dom n).phase == 1 && decide (s.now ≤ (s.dom n).since + 10000) then
      let list := s.saveList n
      s.modDom n fun d => { d with phase := 2, saved := list }
    else s)

/-- DRAIN_TIMEOUT (R535): a drain beyond 10 µs aborts the entry with aborter 0xC3. -/
def execDrainTimeout (dom : Fin 64) (t : Nat) (s : State) : Host.Outcome State Fault Refusal :=
  let n := dom.val
  let s := s.tick t
  .next (
    if (s.dom n).state == .entering && (s.dom n).phase == 1 && decide ((s.dom n).since + 10000 < s.now) then
      (s.abortEntry n 0xC3).queuedWrite n
    else s)

/-- SAVE_DONE (R530, R533): the domain drops to retention or off; a wake that came meanwhile begins, and the island may
enter low-power mode (R540). -/
def execSaveDone (dom : Fin 64) (t : Nat) (s : State) : Host.Outcome State Fault Refusal :=
  let n := dom.val
  let s := s.tick t
  .next (
    if (s.dom n).state == .entering && (s.dom n).phase == 2 then
      let asked := (s.dom n).wakeQueued
      let s := s.enterDone n
      let s := match asked with
        | some at_ => (s.startWake n).modDom n fun d => { d with since := at_ }
        | none => s.queuedWrite n
      s.lowPower
    else s)

/-- DOMAIN_READY (R530, R531, R539): the restore of a waking domain ends; the wake ran from its request. -/
def execDomainReady (dom : Fin 64) (corrected : Nat) (bad : Bool) (t : Nat) (s : State) :
    Host.Outcome State Fault Refusal :=
  let n := dom.val
  let s := s.tick t
  .next (if (s.dom n).state == .waking then (s.ready n (usUp (s.now - (s.dom n).since)) corrected bad).queuedWrite n
    else s)

/-- BROWNOUT (R541): in low-power mode a current above 150 mA for more than 10 µs is counted, sent and recorded, the
regulator returns to normal mode, and every save area found uncorrectable wakes at reset values (R531). -/
def execBrownout (current : Nat) (bad : List (Fin 64)) (t : Nat) (s : State) : Host.Outcome State Fault Refusal :=
  let s := s.tick t
  .next (
    if s.power.lpActive && decide (150 < current) then
      let s := { s with power := { s.power with lpActive := false, current := current } }
      let s := (s.inc Reg.pwrBrownoutCount).eventC 24 stOk 0 (toLe 4 current)
      let s := s.fsr { s.record 18 none with detail := [(0, current)] }
      foldS (fun s n => s.modDom n.val fun d => { d with saved := [], saveValid := false }) s bad
    else s)

end Sys2Proof.Machine
end

