-- ==== Sys2Proof/Machine/Tables.lean ====
section
/-! DEFINITION. The page table and the chain table as they lie in module memory (chapter 8): the bytes of an entry, and the
lines of the module-owned granules that hold them. -/

namespace Sys2Proof.Machine

/-! Frames (R230, R476) -/

/-- The granules of a partition in one tier, in PMA order: unit and granule. -/
def State.tierGranules (s : State) (p : Nat) (ct : Bool) : List (Nat × Nat) :=
  (if ct then (upTo 12).map fun u => 8 + u else upTo 8).flatMap fun u => (s.granules p u).map fun k => (u, k)

/-- The quota of page-table entries of a partition in a tier. -/
def State.pageQuota (s : State) (p : Nat) (ct : Bool) : Nat := if ct then (s.part p).pgCt else (s.part p).pgHbm

/-- The frame of entry i of a partition's tier (MPA / 65,536): the KV frames lie in its last granules of the tier. -/
def State.frameOf (s : State) (p : Nat) (ct : Bool) (i : Nat) : Nat :=
  let gs := s.tierGranules p ct
  let kv := gs.drop (gs.length - s.pageQuota p ct / 4096)
  let (u, k) := kv.getD (i / 4096) (0, 0)
  (unitBase u + k * granule) / 65536 + i % 4096

/-- The free list of a partition's tier. -/
def State.freeList (s : State) (p : Nat) (ct : Bool) : FreeList :=
  mgetD s.kv.lists (2 * p + b2n ct) { returned := [], next := 0, limit := 0 }

/-! Entries as bytes (R230, R232) -/

/-- The STATE of a page-table entry. -/
def PageState.code (x : PageState) : Nat :=
  match x with
  | .free => 0
  | .live => 1
  | .moving => 2
  | .inbound => 3

/-- The 16 bytes of a page-table entry, little-endian (R9, R230). -/
def Page.bytes (x : Page) : List Byte :=
  toLe 4 (x.state.code + 4 * b2n x.ct + 8 * b2n x.ttlOn + 16 * x.part + 256 * x.fmt + 4096 * b2n x.mx + 8192 * x.d32 +
    65536 * x.fill) ++ toLe 4 x.frame ++ toLe 4 (x.next + 2 ^ 22 * x.refs) ++ toLe 4 x.expiry

/-- The entry that follows a FREE one on its list (R231): undefined for the last. -/
def FreeList.after (l : FreeList) (idx : Nat) : Option Nat :=
  let fresh (n : Nat) : Option Nat := if n < l.limit then some n else none
  match l.returned.dropWhile fun i => i != idx with
  | _ :: j :: _ => some j
  | [_] => fresh l.next
  | [] => fresh (idx + 1)

/-- A FREE entry of the table (R230, R231): its owner, tier and frame are bound to it, and it is linked through NEXT. -/
def State.freeEntry (s : State) (idx : Nat) : Option Page :=
  let entry (p : Nat) (ct : Bool) (base : Nat) : Page :=
    { state := .free, ct := ct, ttlOn := false, part := p, fmt := 0, mx := false, d32 := 0, fill := 0,
      frame := s.frameOf p ct (idx - base), next := ((s.freeList p ct).after idx).getD (Config.lastNext idx).toNat, refs := 0,
      expiry := 0 }
  (upTo 16).findSome? fun p =>
    let x := s.part p
    if !(s.exists_ p) then none
    else if x.pageBase ≤ idx ∧ idx < x.pageBase + x.pgHbm then some (entry p false x.pageBase)
    else if x.pageBaseCt ≤ idx ∧ idx < x.pageBaseCt + x.pgCt then some (entry p true x.pageBaseCt)
    else none

/-- The bytes of page-table entry `idx`: NEXT of a chain's last page is undefined (R230). -/
def State.pageBytes (s : State) (idx : Nat) : List Byte :=
  match mget s.kv.pages idx with
  | some x =>
    let last := s.kv.chains.any fun e => e.2.head.isSome && e.2.tail == idx
    (if last then { x with next := (Config.lastNext idx).toNat } else x).bytes
  | none => match s.freeEntry idx with
    | some x => x.bytes
    | none => toLe 16 0

/-- The STATE of a chain record. -/
def ChainState.code (x : ChainState) : Nat :=
  match x with
  | .closed => 0
  | .opened => 1
  | .starved => 2
  | .paused => 3
  | .preempted => 4

/-- The 32 bytes of chain record `c` (R232), zero when the chain is CLOSED. -/
def State.chainBytes (s : State) (c : Nat) : List Byte :=
  match mget s.kv.chains c with
  | none => toLe 32 0
  | some x =>
    let es := s.kv.bight.filter fun b => b.chain == c
    let held := (es.filter fun b => b.state == .held).length
    let pend := (es.filter fun b => b.state == .pending).length
    let first := es.foldl (fun (m : Option Bight) b => match m with
      | none => some b
      | some a => if b.position < a.position then some b else some a) none
    toLe 4 (x.head.getD 0 + 2 ^ 31 * b2n x.head.isNone) ++ toLe 4 x.tail ++ toLe 4 (x.ownHead.getD 0) ++
      toLe 4 (x.shared.length + 2 ^ 16 * x.part + 2 ^ 20 * x.fmt + 2 ^ 24 * b2n x.mx + 2 ^ 25 * x.d32) ++ toLe 4 x.len ++
      toLe 4 (x.seq % 2 ^ 18 + 2 ^ 18 * held + 2 ^ 23 * pend + 2 ^ 28 * x.state.code) ++
      toLe 4 (match first with | some b => b.slot | none => 2 ^ 15) ++ toLe 4 0

/-- The MPA of the page table: the partial granule of stack 0 (DESIGN CHOICE, log entry 68). -/
def pageTableBase : Nat := unitBase 0 + 125 * granule
/-- The MPA of the chain table: the partial granule of stack 1 (DESIGN CHOICE, log entry 68). -/
def chainTableBase : Nat := unitBase 1 + 125 * granule

/-- The 64 bytes of the line at an MPA: of the page table, of the chain table, or of any other memory. -/
def State.lineBytes (s : State) (a : Nat) : List Byte :=
  if pageTableBase ≤ a ∧ a < pageTableBase + 2 ^ 26 then
    (upTo 4).flatMap fun i => s.pageBytes ((a - pageTableBase) / 16 + i)
  else if chainTableBase ≤ a ∧ a < chainTableBase + 2 ^ 27 then
    (upTo 2).flatMap fun i => s.chainBytes ((a - chainTableBase) / 32 + i)
  else s.peek a 64

end Sys2Proof.Machine
end

