-- ==== Sys2Proof/Machine/Memory.lean ====
section
/-! DEFINITION. Module memory (chapter 5): the outcome of a line read (R152 to R159), whole-line writes (R160), the tag
cache (R162), block retirement (R165 to R167), the patrol (R168, R169) and the error log (R170, R172), with the reads
and writes of partition memory that hitches and commands make. -/

namespace Sys2Proof.Machine

/-- The register instance and controller of a unit (R145, R172): stack s is controller s mod 2 of die floor(s / 2). -/
def ctlOf (u : Nat) : Nat × Nat := if u < 8 then (u / 2, u % 2) else (4, (u - 8) / 6)
/-- The module index of a unit's controller: 0 to 7 HBM, 8 and 9 capacity tier. -/
def ctlIndex (u : Nat) : Nat := if u < 8 then u else 8 + (u - 8) / 6
/-- The power domain of a unit's controller (R528). -/
def unitDom (u : Nat) : Nat := if u < 8 then 11 * (u / 2) + 8 + u % 2 else 61 + (u - 8) / 6
/-- The units of a controller. -/
def ctlUnits (c : Nat) : List Nat := if c < 8 then [c] else (upTo 6).map fun v => 8 + 6 * (c - 8) + v

/-- A read with no error. -/
def noErr : ReadErr := { first := [], second := [] }

/-- What a line read delivers (R157). -/
inductive LineResult where
  | good
  | corrected
  | retried
  | tagFail
  | uncorrectable
  deriving DecidableEq, Repr

/-- The keys of memory key slot k (R478): of a partition's slot by its generation, of the module's by the boot count. -/
def State.lineKeys (s : State) (k : Nat) : LineKeys :=
  slotKeys k (if k = 16 then s.security.bootCount else (s.part k).gen)

/-- The keys of the slot of the owner of the granule that holds an MPA (R153). -/
def State.keysAt (s : State) (mpa : Nat) : LineKeys := s.lineKeys (s.ownerAt mpa)

/-- The outcome of a read by R157: the first decoder result, or that of the second read, then the tag check, where the tag is
checked at all; with the number of symbols corrected and the change that the delivered codeword still holds. -/
def readResult (k : LineKeys) (tagged : Bool) (e : ReadErr) : LineResult × Nat × List Nat :=
  let judge (res : LineResult) (f c : SymErrs) : LineResult × Nat × List Nat :=
    let left := leftOver 76 f c
    if (left.all fun x => x == 0) || !tagged || tagAgrees k left then (res, c.length, left) else (.tagFail, 0, [])
  match rsDecode 76 5 e.first with
  | some c => judge (if c.isEmpty then .good else .corrected) e.first c
  | none =>
    match rsDecode 76 5 e.second with
    | some c => judge .retried e.second c
    | none => (.uncorrectable, 0, [])

/-- The outcome of a read of the line that holds an MPA; the patrol checks a FREE line by the code only (R168). -/
def State.outcome (s : State) (mpa : Nat) (patrol : Bool) (e : ReadErr) : LineResult × Nat × List Nat :=
  readResult (s.keysAt mpa) (!(patrol && s.ownerAt mpa == 31)) e

/-- Add an entry to an instance's error log of 64, or count it as dropped (R170); `own` is an MPA of the granule concerned. -/
def State.logAt (s : State) (u mpa own cls symbols : Nat) (patrol : Bool) : State :=
  let m := (ctlOf u).1
  let log := mgetD s.errLogs m []
  if log.length < 64 then
    let e : MemErr := { line := mpa / 64, patrol := patrol, cls := cls, owner := s.ownerAt own, symbols := symbols,
                        time := s.now }
    { s with errLogs := mput s.errLogs m (log ++ [e]) }
  else { s with errDropped := mput s.errDropped m (min 0xFFFF (nget s.errDropped m + 1)) }

/-- Log an event of a line that has an MPA. -/
def State.logErr (s : State) (u mpa cls symbols : Nat) (patrol : Bool) : State := s.logAt u mpa mpa cls symbols patrol

/-- The PMA of an MPA owned by a partition. -/
def State.pmaOf (s : State) (p mpa : Nat) : Option Nat :=
  match unitOf mpa with
  | none => none
  | some (u, x) =>
    match (s.granules p u).findIdx? fun k => k == x / granule with
    | none => none
    | some i => some (unitBase u + i * granule + x % granule)

/-- The fault signature record of a MEM_UNCORR or MEM_TAG_FAIL (R170, R456). -/
def State.memRecord (s : State) (mpa st : Nat) : State :=
  let o := s.ownerAt mpa
  let p := if o < 16 then some o else none
  s.fsr { s.record 3 p with status := some st, mpa := some mpa,
                            pma := match p with | some q => s.pmaOf q mpa | none => none }

/-- Count an event on a controller, and on the partition that owns the granule (R171). -/
def State.countMem (s : State) (u mpa : Nat) (ctlReg : Nat → Nat → Nat) (partReg : Nat → Nat → Nat) : State :=
  let (m, c) := ctlOf u
  let s := s.inc (ctlReg m c)
  let o := s.ownerAt mpa
  if o < 16 then s.inc (partReg m o) else s

/-- The sets of a tag cache of 16,384 lines with 8 ways (R162). Which set a tag line maps to and which way is replaced
the spec leaves open: by number, least recently used (DESIGN CHOICE, log entry 24). -/
def tagSets : Nat := 2048

/-- The number, MPA / 64, of the tag line of an MPA of unit u (R150, R151); its MPA addresses no usable byte (R146). -/
def tagLineOf (u mpa : Nat) : Nat := (unitBase u + (tagPlace (usable u) (mpa - unitBase u)).1) / 64

/-- A dirty tag line is written back: its stored line reads well again (R158, R162). -/
def State.tagStored (s : State) (u line : Nat) : State := s.modUnit u fun y => { y with bad := mdel y.bad line }

/-- A read or write of a line uses its tag line: a miss reads it and drops the set's oldest, which is written back where
it is dirty; a write leaves it dirty (R162). -/
def State.tagAccess (s : State) (u mpa : Nat) (write : Bool) : State :=
  let c := ctlIndex u
  let (m, k) := ctlOf u
  let line := tagLineOf u mpa
  let ctl := mgetD s.ctls c MemCtl.empty
  let hit := ctl.tagCache.contains line
  let rest := ctl.tagCache.filter fun x => x != line
  let same := rest.filter fun x => x % tagSets == line % tagSets
  let victim := same.getLastD 0
  let evict := decide (8 ≤ same.length)
  let rest := if evict then rest.filter fun x => x != victim else rest
  let dirty := if evict then ctl.tagDirty.filter fun x => x != victim else ctl.tagDirty
  let dirty := if write && !(dirty.contains line) then line :: dirty else dirty
  let s := if evict && ctl.tagDirty.contains victim then
      s.tagStored (((unitOf (64 * victim)).map fun ux => ux.1).getD u) victim
    else s
  let s := { s with ctls := mput s.ctls c { ctl with tagCache := line :: rest, tagDirty := dirty } }
  if hit then s else s.inc (Reg.memTagcMissCount m k)

/-- The block of an MPA within its unit (R165). -/
def blockOf (mpa : Nat) : Nat := mpa % 2 ^ 36 / 4096

/-- A block qualifies for retirement (R165, R166): one that awaits its copy does so once, and a spare in use is logged
SPARE_WORN for each event. -/
def State.qualify (s : State) (u block : Nat) (patrol : Bool) : State :=
  let y := s.unit u
  if (mget y.retired block).isSome then s.logErr u (unitBase u + block * 4096) 7 0 patrol
  else if y.due.contains block then s
  else s.modUnit u fun y => { y with due := y.due ++ [block] }

/-- A codeword that the tag accepts though it differs from the line stored is delivered and stands (R155): the line holds
what its ciphertext now decrypts to (R153). -/
def State.takeForged (s : State) (mpa : Nat) (left : List Nat) : State :=
  if left.all fun x => x == 0 then s
  else
    let a := alignDown mpa 64
    let k := s.keysAt mpa
    let c := lineCipher k a ((s.peek a 64).map BitVec.toNat)
    s.poke a ((linePlain k a (xorNats c (left.take 64))).map (BitVec.ofNat 8))

/-- Settle the read of one line (R157 to R159, R165, R170, R171): count, log and record, queue the correction
write-back, and keep a failing line failing until a full-line write. The status is OK, MEM_UNCORR or MEM_TAG_FAIL. A granule
that is being whipped is out of reach (R174). -/
def State.readLine (s : State) (mpa : Nat) (e : ReadErr) (patrol : Bool) : Nat × State :=
  match lineAt mpa with
  | none => (stAddrInvalid, s)
  | some (u, x) =>
    if bit (s.ownByte u (x / granule)) 5 then (stAddrInvalid, s)
    else
      let line := mpa / 64
      let e := (mget (s.unit u).bad line).getD e
      let (m, c) := ctlOf u
      let o := s.outcome mpa patrol e
      let s := s.tagAccess u mpa false
      let logCe := bit (s.reg (Reg.memScrubCtrl m c)) 1
      let fixed (s : State) (cls : Nat) : State :=
        let s := (s.takeForged mpa o.2.2).countMem u mpa Reg.memCeCount Reg.memPartCeCount
        let s := if logCe then s.logErr u mpa cls o.2.1 patrol else s
        s.modUnit u fun y => { y with writebacks := if y.writebacks.contains line then y.writebacks
                                                    else y.writebacks ++ [line] }
      match o.1 with
      | .good => (stOk, s.takeForged mpa o.2.2)
      | .corrected => (stOk, fixed s 1)
      | .retried => (stOk, fixed s 2)
      | .tagFail =>
        let s := s.countMem u mpa Reg.memTagFailCount Reg.memPartTagFailCount
        let s := (s.logErr u mpa 4 0 patrol).memRecord mpa stMemTagFail
        (stMemTagFail, s.modUnit u fun y => { y with bad := mput y.bad line e })
      | .uncorrectable =>
        let s := s.countMem u mpa Reg.memUeCount Reg.memPartUeCount
        let s := (s.logErr u mpa 3 0 patrol).memRecord mpa stMemUncorr
        let s := if bit (s.reg (Reg.memRetireThresh m c)) 8 then s.qualify u (x / 4096) patrol else s
        (stMemUncorr, s.modUnit u fun y => { y with bad := mput y.bad line e })

/-- Store whole lines: they read well again, and a queued write-back of one is cancelled (R158, R159). -/
def State.storedLines (s : State) (mpa n : Nat) : State :=
  match unitOf mpa with
  | none => s
  | some (u, _) =>
    let lo := mpa / 64
    let hi := (mpa + n - 1) / 64
    let s := foldS (fun s l => s.tagAccess u (l * 64) true) s ((upTo (hi + 1 - lo)).map fun i => lo + i)
    s.modUnit u fun y => { y with bad := y.bad.filter fun b => b.1 < lo || hi < b.1,
                                  writebacks := y.writebacks.filter fun l => l < lo || hi < l }

/-- The partial lines of a write of n bytes, which can only be its first and its last (R160). -/
def partLines (a n : Nat) : List Nat :=
  let last := a + n - 1
  (if a % 64 != 0 || (a / 64 == last / 64 && last % 64 != 63) then [alignDown a 64] else []) ++
    (if last / 64 != a / 64 && last % 64 != 63 then [alignDown last 64] else [])

/-- The error a list of upsets gives a line (log entry 10). -/
def errFor (errs : List (Nat × ReadErr)) (mpa : Nat) : ReadErr :=
  ((errs.find? fun e => e.1 == mpa / 64).map fun e => e.2).getD noErr

/-- Read every one of some lines, in order; the status is that of the first that fails (R160). -/
def State.checkLines (s : State) (lines : List Nat) (errs : List (Nat × ReadErr)) : Nat × State :=
  match lines with
  | [] => (stOk, s)
  | l :: r =>
    let x := s.readLine l (errFor errs l) false
    let y := x.2.checkLines r errs
    (if x.1 = stOk then y.1 else x.1, y.2)

/-- Write bytes at an MPA by R160: the partial lines, at most the first and the last, are both read and checked before any
line is stored, and a failing read stores nothing. -/
def State.writeMpa (s : State) (mpa : Nat) (bs : List Byte) (errs : List (Nat × ReadErr)) : Nat × State :=
  if bs.isEmpty then (stOk, s)
  else
    let r := s.checkLines (partLines mpa bs.length) errs
    if r.1 ≠ stOk then r else (stOk, (r.2.storedLines mpa bs.length).poke mpa bs)

/-- The MPA lines of a PMA range, in order. -/
def State.linesOf (s : State) (p pma n : Nat) : List Nat :=
  ((upTo ((pma + n - 1) / 64 + 1 - pma / 64)).filterMap fun i => s.mpaOf p (64 * (pma / 64 + i)))

/-- Read lines in order until one fails. -/
def State.readLines (s : State) (lines : List Nat) (errs : List (Nat × ReadErr)) : Nat × State :=
  match lines with
  | [] => (stOk, s)
  | l :: r =>
    let x := s.readLine l (errFor errs l) false
    if x.1 = stOk then x.2.readLines r errs else x

/-! The way of an access (R16, R17) -/

/-- The die of a unit's controller, none for the capacity tier's, which sit on the hub. -/
def unitDie (u : Nat) : Option Nat := if u < 8 then some (u / 2) else none

/-- The domains an access to a unit goes through, from a requester of a die or of the hub (none): its own die's crypto
cluster and, where the unit is not on its die, its die-to-die link (R16, R17). -/
def pathDoms (src : Option Nat) (u : Nat) : List Nat :=
  match src with
  | none => []
  | some d => (11 * d + 7) :: (if unitDie u = some d then [] else [11 * d + 10])

/-- A request for an address reaches the domains on its way, then the unit's controller, whose parents are its die's crypto
cluster and link (R17, R23, R529). -/
def State.reachUnit (s : State) (src : Option Nat) (a : Nat) : State :=
  match unitOf a with
  | some (u, _) => (foldS (fun s n => s.reach n 0xC1) s (pathDoms src u)).reach (unitDom u) 0xC1
  | none => s

/-- A read of partition memory by a hitch, an engine or a command, from a die or from the hub (R149, R157): ADDR_INVALID
outside the partition, the status of the first failing line, or the bytes. -/
def State.fetchP (s : State) (src : Option Nat) (p pma n : Nat) (errs : List (Nat × ReadErr)) : Nat × List Byte × State :=
  if n = 0 then (stOk, [], s)
  else if !(s.pmaOk p pma n) then (stAddrInvalid, [], s)
  else
    let r := (s.reachUnit src pma).readLines (s.linesOf p pma n) errs
    if r.1 = stOk then (stOk, r.2.peekP p pma n, r.2) else (r.1, [], r.2)

/-- A write of partition memory (R149, R160): checked as one write, its partial lines read first. -/
def State.storeP (s : State) (src : Option Nat) (p pma : Nat) (bs : List Byte) (errs : List (Nat × ReadErr)) : Nat × State :=
  let n := bs.length
  if n = 0 then (stOk, s)
  else if !(s.pmaOk p pma n) then (stAddrInvalid, s)
  else
    let r := (s.reachUnit src pma).checkLines ((partLines pma n).filterMap fun a => s.mpaOf p a) errs
    if r.1 ≠ stOk then r
    else
      let s := foldS (fun s l => s.storedLines l 64) r.2 (r.2.linesOf p pma n)
      (stOk, s.pokeP p pma bs)

/-- A read of module memory by MPA, for an engine of a die or of the hub (R146, R157). -/
def State.fetchMpa (s : State) (src : Option Nat) (mpa n : Nat) (errs : List (Nat × ReadErr)) : Nat × List Byte × State :=
  if n = 0 then (stOk, [], s)
  else
    let r := (s.reachUnit src mpa).readLines ((upTo ((mpa + n - 1) / 64 + 1 - mpa / 64)).map fun i => 64 * (mpa / 64 + i)) errs
    if r.1 = stOk then (stOk, r.2.peek mpa n, r.2) else (r.1, [], r.2)

/-- A write of module memory by MPA, for an engine of a die or of the hub (R146, R160). -/
def State.storeMpa (s : State) (src : Option Nat) (mpa : Nat) (bs : List Byte) (errs : List (Nat × ReadErr)) : Nat × State :=
  (s.reachUnit src mpa).writeMpa mpa bs errs

/-- LINE_READ (R157): the line that holds an MPA is read and settled, and its data or its failure delivered; an MPA that
addresses nothing faults (R146); a granule being whipped answers ADDR_INVALID (R174). -/
def execLineRead (mpa : Nat) (e : ReadErr) (t : Nat) (s : State) : Host.Outcome State Fault Refusal :=
  match lineAt mpa with
  | none => .fault (.noSuchLine mpa)
  | some (u, _) =>
    let a := alignDown mpa 64
    let r := ((s.tick t).reach (unitDom u) 0xC1).readLine a e false
    .next (r.2.send (.line a r.1 (if r.1 = stOk then r.2.lineBytes a else [])))

/-- LINE_WRITE (R160): a write of bytes at an MPA; one that leaves the usable bytes of its unit faults (R146). -/
def execLineWrite (mpa : Nat) (data : List Byte) (e1 e2 : ReadErr) (t : Nat) (s : State) :
    Host.Outcome State Fault Refusal :=
  match lineAt mpa with
  | none => .fault (.noSuchLine mpa)
  | some (u, x) =>
    let last := mpa + data.length - 1
    if usable u < x + data.length then .fault (.noSuchLine last)
    else
      let s := s.tick t
      if bit (s.ownByte u (x / granule)) 5 || bit (s.ownByte u ((x + data.length - 1) / granule)) 5 then
        .next (s.send (.line mpa stAddrInvalid []))
      else
        let r := (s.reach (unitDom u) 0xC1).writeMpa mpa data [(mpa / 64, e1), (last / 64, e2)]
        .next (r.2.send (.line mpa r.1 []))

/-- Tag lines of a unit (R151). -/
def tagLines (u : Nat) : Nat := (usable u / 16 + 63) / 64

/-- Whether an address is that of a tag line of a unit (R150, R151). -/
def isTagLine (mpa : Nat) : Bool :=
  match unitOf mpa with
  | some (u, x) => decide (usable u ≤ x ∧ x < usable u + 64 * tagLines u)
  | none => false

/-- CORRECTION_WRITEBACK (R159, R168): a queued write-back of a line or a tag line is stored; one that a write cancelled does
nothing. -/
def execCorrectionWriteback (mpa : Nat) (s : State) : Host.Outcome State Fault Refusal :=
  match unitOf mpa with
  | none => .fault (.noSuchLine mpa)
  | some (u, x) =>
    if usable u ≤ x && !(isTagLine mpa) then .fault (.noSuchLine mpa)
    else .next (s.modUnit u fun y => { y with writebacks := y.writebacks.filter fun l => l != mpa / 64 })

/-- BLOCK_RETIRE (R165 to R167): a block that qualifies takes the unit's next spare; with no spare left the block stays, logged
once. A block retires at most once. -/
def execBlockRetire (unit : Fin 20) (block : Nat) (t : Nat) (s : State) : Host.Outcome State Fault Refusal :=
  let u := unit.val
  let s := s.tick t
  let x := s.unit u
  let mpa := unitBase u + block * 4096
  .next (
    if !(x.due.contains block) then s
    else
      let s := s.modUnit u fun y => { y with due := y.due.erase block }
      if (mget x.retired block).isSome then s.logErr u mpa 7 0 false
      else if 4096 ≤ x.spares then
        if x.full.contains block then s
        else (s.modUnit u fun y => { y with full := block :: y.full }).logErr u mpa 6 0 false
      else
        let s := s.modUnit u fun y => { y with retired := mput y.retired block y.spares, spares := y.spares + 1 }
        s.logErr u mpa 5 0 false)

/-- The lines of a unit in patrol order: its usable lines, then its tag lines (R151, R168). -/
def patrolLines (u : Nat) : Nat := usable u / 64 + tagLines u

/-- The patrol reads usable line i: one whose correction takes its block above CE_LIMIT in this pass qualifies it, once in a
pass (R165, R168). -/
def State.patrolData (s : State) (u i : Nat) (e : ReadErr) : State :=
  let (m, c) := ctlOf u
  let mpa := unitBase u + 64 * i
  let o := (s.outcome mpa true ((mget (s.unit u).bad (mpa / 64)).getD e)).1
  let r := s.readLine mpa e true
  if r.1 = stOk ∧ (o = .corrected ∨ o = .retried) then
    let b := blockOf mpa
    let n := nget (r.2.unit u).passCe b + 1
    let s := r.2.modUnit u fun y => { y with passCe := nput y.passCe b n }
    if decide (s.reg (Reg.memRetireThresh m c) % 256 < n) && !((s.unit u).passDue.contains b) then
      (s.modUnit u fun y => { y with passDue := b :: y.passDue }).qualify u b true
    else s
  else r.2

/-- The patrol reads tag line j: corrected by its own code and written back, or logged and recorded; it carries no tag (R151,
R168, R170). Its code corrects up to 4 symbols, of which the log shows at most 2, and its errors are logged under its own line
number, with the owner of the first line it serves (DESIGN CHOICE, log entry 60). -/
def State.patrolTag (s : State) (u j : Nat) (e : ReadErr) : State :=
  let (m, c) := ctlOf u
  let mpa := unitBase u + usable u + 64 * j
  let own := unitBase u + 1024 * j
  let line := mpa / 64
  let e := (mget (s.unit u).bad line).getD e
  let fixed (cls n : Nat) : State :=
    let s := s.inc (Reg.memCeCount m c)
    let s := if bit (s.reg (Reg.memScrubCtrl m c)) 1 then s.logAt u mpa own cls (min 2 n) true else s
    s.modUnit u fun y => { y with writebacks := if y.writebacks.contains line then y.writebacks
                                                else y.writebacks ++ [line] }
  match rsDecode 72 8 e.first with
  | some [] => s
  | some x => fixed 1 x.length
  | none =>
    match rsDecode 72 8 e.second with
    | some x => fixed 2 x.length
    | none =>
      let o := s.ownerAt own
      let s := (s.inc (Reg.memUeCount m c)).logAt u mpa own 3 0 true
      let s := s.fsr { s.record 3 (if o < 16 then some o else none) with status := some stMemUncorr, mpa := some mpa }
      s.modUnit u fun y => { y with bad := mput y.bad line e }

/-- PATROL_READ (R168, R169): the next line of a unit is read, checked and corrected; nothing while the patrol is disabled or
its domain is not on. A granule that is being whipped is passed over (R174). -/
def execPatrolRead (unit : Fin 20) (e : ReadErr) (t : Nat) (s : State) : Host.Outcome State Fault Refusal :=
  let u := unit.val
  let s := s.tick t
  let (m, c) := ctlOf u
  .next (
    if !(bit (s.reg (Reg.memScrubCtrl m c)) 0) || (s.woken && (s.dom (unitDom u)).state != .on) then s
    else
      let i := (s.unit u).patrol
      let s := if i < usable u / 64 then s.patrolData u i e else s.patrolTag u (i - usable u / 64) e
      if i + 1 < patrolLines u then s.modUnit u fun y => { y with patrol := i + 1 }
      else s.modUnit u fun y => { y with patrol := 0, passCe := [], passDue := [], passes := y.passes + 1 })

/-- A write of MEM_ERR_POP (R173): 1 removes the oldest entry, and does nothing in an empty log; an entry added in the cycle of
the pop is not the oldest before it. -/
def State.errPop (s : State) (m v : Nat) : State :=
  let log := mgetD s.errLogs m []
  let fresh := match log with
    | e :: _ => e.time * 4 / 5 == s.now * 4 / 5
    | [] => true
  if v % 2 = 1 && !fresh then { s with errLogs := mput s.errLogs m (log.drop 1) } else s

/-- MEM_ERR_POP (R173). -/
def execMemErrPop (h : CmdHdr) (inst : Fin 5) (value : Word) (s : State) : Host.Outcome State Fault Refusal :=
  .next (s.regCommand h 0x0101 (Reg.memErrPop inst.val) fun s => ans stOk (s.errPop inst.val value.toNat))

end Sys2Proof.Machine
end

