-- ==== Sys2Proof/Machine/Operands.lean ====
section
/-! DEFINITION. Hitches on their strands (chapter 4): the fields of the 64 bytes (R112), knots (R124 to R129), issue
(R130, R135), the spaces that operands name (R120, R123), and what every executed hitch leaves. A hitch takes its whole
effect at its issue; HITCH_COMPLETE later signals its knot (log entry 25). -/

namespace Sys2Proof.Machine

/-- Bits hi to lo of the little-endian word at a byte offset of a hitch (R112). -/
def fld (w : HitchWord) (byte hi lo : Nat) : Nat := bits w.toNat (8 * byte + hi) (8 * byte + lo)
/-- One bit of a hitch. -/
def flag (w : HitchWord) (byte i : Nat) : Bool := bit w.toNat (8 * byte + i)

def hOpcode (w : HitchWord) : Nat := fld w 0 7 0
def hVary (w : HitchWord) : Bool := flag w 1 0
def hOrder (w : HitchWord) : Bool := flag w 1 1
def hSat (w : HitchWord) : Bool := flag w 1 2
def hRound (w : HitchWord) : Nat := fld w 1 5 4
def hWait (w : HitchWord) : Nat := fld w 2 15 0
def hWaitCount (w : HitchWord) : Nat := fld w 4 15 0
def hSignal (w : HitchWord) : Nat := fld w 6 15 0
def hSignalCount (w : HitchWord) : Nat := fld w 8 15 0
def hSeedIdx (w : HitchWord) : Nat := fld w 0xA 7 0
def hStream (w : HitchWord) : Nat := fld w 0xC 31 0

/-- The 64 bytes of a hitch as its word. -/
def hitchOf (bs : List Byte) : HitchWord := BitVec.ofNat 512 (ofLe bs)

/-- Whether every bit of bytes lo to hi − 1 of a hitch is 0. -/
def zeroBytes (w : HitchWord) (lo hi : Nat) : Bool := w.toNat / 2 ^ (8 * lo) % 2 ^ (8 * (hi - lo)) == 0

/-- The units of R114. -/
inductive Unit where
  | none
  | matrix
  | vector
  | move
  | engine
  | control
  deriving DecidableEq, Repr

/-- The unit of an opcode, none where the code is reserved (R114). -/
def unitOfOp (op : Nat) : Option Unit :=
  match op with
  | 0x00 => some .none
  | 0x01 => some .matrix
  | 0x02 => some .matrix
  | 0x03 => some .matrix
  | 0x08 => some .vector
  | 0x09 => some .vector
  | 0x0A => some .vector
  | 0x0B => some .vector
  | 0x10 => some .move
  | 0x18 => some .engine
  | 0x19 => some .control
  | 0x1A => some .engine
  | 0x20 => some .matrix
  | 0x21 => some .vector
  | 0x22 => some .engine
  | 0x28 => some .engine
  | 0x29 => some .engine
  | 0x30 => some .vector
  | 0x31 => some .vector
  | 0x38 => some .vector
  | 0x39 => some .engine
  | 0x3C => some .control
  | 0x3D => some .control
  | _ => none

/-- The unit of a hitch word. -/
def hUnit (w : HitchWord) : Unit := (unitOfOp (hOpcode w)).getD .none

/-- The units a hitch occupies: its own; an ATTN holds its strand's matrix, vector and engine units (R195), and NOP
holds none. -/
def hUnits (w : HitchWord) : List Unit :=
  if hOpcode w = 0x18 then [.matrix, .vector, .engine]
  else if hUnit w = .none then [] else [hUnit w]

/-! Knots (R112, R124 to R129) -/

/-- A knot reference of a hitch is VALID. -/
def knotValid (k : Nat) : Bool := bit k 15
/-- A knot reference has die scope. -/
def knotDie (k : Nat) : Bool := bit k 14
/-- The index of a knot reference. -/
def knotIndex (k : Nat) : Nat := bits k 11 0

/-- Whether a knot reference and its count break R113 on a die where the partition holds h hanks. -/
def knotBad (k count h : Nat) : Bool :=
  knotValid k &&
    (bits k 13 12 != 0 || count == 0 ||
      (if knotDie k then decide (1024 * h ≤ knotIndex k) else decide (1024 ≤ knotIndex k)))

/-- Whether a knot reference names a knot of a strand's partition: a malformed one may not (R112, R113, R129). -/
def State.knotNamed (s : State) (p st k : Nat) : Bool :=
  if knotDie k then decide (knotIndex k < 1024 * (s.hanksOn p (st / 32)).length) else decide (knotIndex k < 1024)

/-- The physical die knot of an index of a partition on a die (R129): its n-th allotted knot, 1,024 for each of its
hanks there in ascending order. Which physical knots firmware allots the spec leaves open (log entry 14). -/
def State.dieKnot (s : State) (p d n : Nat) : Nat :=
  4096 * d + 1024 * ((s.hanksOn p d).getD (n / 1024) 0 % 4) + n % 1024

/-- The count of a knot seen from a strand of a partition. -/
def State.knot (s : State) (p st k : Nat) : Nat :=
  if knotDie k then nget s.dieKnots (s.dieKnot p (st / 32) (knotIndex k)) else nget (s.strand st).knots (knotIndex k)

/-- Set the count of a knot. -/
def State.setKnot (s : State) (p st k v : Nat) : State :=
  if knotDie k then { s with dieKnots := nput s.dieKnots (s.dieKnot p (st / 32) (knotIndex k)) v }
  else s.modStrand st fun x => { x with knots := nput x.knots (knotIndex k) v }

/-- Add a count to a knot, which stops at 0xFFFF_FFFF; the flag says that it would have passed it (R126). A reference that names
no knot of the partition signals none (R113, R125, R129). -/
def State.signalKnot (s : State) (p st k n : Nat) : State × Bool :=
  if !(s.knotNamed p st k) then (s, false)
  else
    let v := s.knot p st k + n
    (s.setKnot p st k (sat32 v), decide (0xFFFFFFFF < v))

/-- Whether a hitch's wait can be served (R124). -/
def State.waitReady (s : State) (p st : Nat) (w : HitchWord) : Bool :=
  !(knotValid (hWait w)) || decide (hWaitCount w ≤ s.knot p st (hWait w))

/-- Take a hitch's wait count at issue (R124). -/
def State.takeWait (s : State) (p st : Nat) (w : HitchWord) : State :=
  if knotValid (hWait w) then s.setKnot p st (hWait w) (s.knot p st (hWait w) - hWaitCount w) else s

/-! Issue (R130, R132, R135, R437) -/

/-- A partition issues hitches: a step runs and has not been stopped, no blocking status has been raised, and the module is
not seized. -/
def State.issuing (s : State) (p : Nat) : Bool :=
  ((s.step p).phase == .running || (s.step p).phase == .replaying) && !(s.step p).stopping &&
    (s.step p).blocking.isNone && !s.lease.seized

/-- An entry that has not issued. -/
def QEntry.unissued (e : QEntry) : Bool := e.phase == .queued || e.phase == .refused

/-- The entry of a strand's queue that issues next. -/
def nextQueued (q : List QEntry) : Option QEntry := q.find? QEntry.unissued

/-- The entries before an entry. -/
def before (q : List QEntry) (e : QEntry) : List QEntry := q.takeWhile fun x => x.id != e.id

/-- Whether an entry could issue but for its wait: its unit is free and its ORDER holds (R130). NOP takes no unit. -/
def unitFree (q : List QEntry) (e : QEntry) : Bool :=
  let b := before q e
  (!(hOrder e.word) || b.isEmpty) && b.all fun x => (hUnits x.word).all fun y => !((hUnits e.word).contains y)

/-- The count of a die knot that is left to a strand, after the waits of the partition's lower strands on its die that could
issue at once have taken theirs (R126). -/
def State.knotLeft (s : State) (p st k : Nat) : Nat :=
  foldS (fun n x => match nextQueued (s.strand x).queue with
    | some e =>
      if e.phase == .queued && hWait e.word == k && unitFree (s.strand x).queue e && decide (hWaitCount e.word ≤ n) then
        n - hWaitCount e.word
      else n
    | none => n) (s.knot p st k)
    ((upTo (st % 32)).filterMap fun i =>
      let x := st / 32 * 32 + i
      if s.partOf (hankOf x) == some p then some x else none)

/-- Whether a hitch's wait is served among those that reach its knot at once: waits on one die knot are served in ascending
strand number (R126). -/
def State.waitServed (s : State) (p st : Nat) (w : HitchWord) : Bool :=
  s.waitReady p st w &&
    (!(knotValid (hWait w) && knotDie (hWait w)) || decide (hWaitCount w ≤ s.knotLeft p st (hWait w)))

/-- Note the instant from which the head entry's wait counts (R128). -/
def State.markHead (s : State) (st : Nat) : State :=
  match nextQueued (s.strand st).queue with
  | none => s
  | some e =>
    if e.phase == .queued && unitFree (s.strand st).queue e && e.since.isNone then
      s.modStrand st fun x =>
        { x with queue := x.queue.map fun y => if y.id = e.id then { y with since := some s.now } else y }
    else s

/-- A hitch under execution: its strand, hank, partition and queue entry. -/
structure Run where
  st : Nat
  g : Nat
  p : Nat
  e : QEntry
  deriving DecidableEq, Repr

/-- The hitch word of a run. -/
def Run.w (r : Run) : HitchWord := r.e.word
/-- The die of a run. -/
def Run.die (r : Run) : Nat := r.st / 32

/-- A hitch that issues to an engine of its die wakes the engine's domain (R528, R536). -/
def State.reachEngine (s : State) (st op : Nat) : State :=
  let d := 11 * (st / 32)
  let src := 0x80 + hankDom (hankOf st)
  if op = 0x28 || op = 0x29 then s.reach (d + 5) src
  else if op = 0x22 then s.reach (d + 6) src
  else if op = 0x1A then s.reach (d + 4) src
  else s

/-- Issue the next hitch of a strand's queue, when its opcode is the one asked for, its unit is free, its order holds and
its wait can be served, which it takes (R124, R130); its engine is not in reset (R426). -/
def State.issue (s : State) (st op : Nat) (sub : HitchWord → Bool) : Option (Run × State) :=
  match nextQueued (s.strand st).queue, s.partOf (hankOf st) with
  | some e, some p =>
    let held := (op == 0x28 || op == 0x29) && decide (s.now < (s.engine (st / 32)).resetUntil) ||
      op == 0x22 && decide (s.now < (s.engine (st / 32)).crResetUntil)
    if e.phase == .queued && hOpcode e.word == op && sub e.word && s.issuing p && !held && unitFree (s.strand st).queue e && s.waitServed p st e.word then
      some ({ st := st, g := hankOf st, p := p, e := e }, (s.takeWait p st e.word).reachEngine st op)
    else none
  | _, _ => none

/-- Set the phase of an entry of a strand's queue, and the telltale of what it wrote (R447). -/
def State.setPhase (s : State) (st id : Nat) (ph : Phase) (digest : Nat) : State :=
  (s.modStrand st fun x =>
    { x with queue := x.queue.map fun y => if y.id = id then { y with phase := ph, digest := digest } else y }).markHead st

/-- A hitch has executed with a status. -/
def State.finish (s : State) (r : Run) (status digest : Nat) : State := s.setPhase r.st r.e.id (.done status) digest

/-- An ENGINE hitch has been accepted by its engine and runs. -/
def State.running (s : State) (r : Run) : State := s.setPhase r.st r.e.id .running 0

/-- Whether a run is the mirror copy of a pair, which writes nothing outside its own strand and region (R446, R447). -/
def State.mirror (s : State) (r : Run) : Bool :=
  let hs := (s.part r.p).hanks
  (s.step r.p).paired && (hs.drop (hs.length / 2)).contains r.g

/-- An uncorrectable line of a strand's scratch is counted, recorded, and stays uncorrectable until it is written (R91, R92). Of
two lines of one cycle the lower address is kept (R104). -/
def State.badScratch (s : State) (st line : Nat) : State :=
  let keep := (s.strand st).eccAt == some s.now && decide (s.reg (Reg.strScratchEccAddr st) ≤ 64 * line)
  let s := s.inc (Reg.strScratchEccUncorrCount st)
  let s := if keep then s else s.setReg (Reg.strScratchEccAddr st) (64 * line)
  s.modStrand st fun x =>
    { x with eccAt := some s.now, badLines := if x.badLines.contains line then x.badLines else line :: x.badLines }

/-- The first line among ranges of scratch (address and bytes) that has stayed uncorrectable (R92). -/
def State.badRead (s : State) (st : Nat) (rs : List (Nat × Nat)) : Option Nat :=
  (s.strand st).badLines.find? fun l =>
    rs.any fun r => decide (0 < r.2) && decide (r.1 / 64 ≤ l) && decide (l ≤ (r.1 + r.2 - 1) / 64)

/-- The status of an upset of the SECDED words that a hitch reads, over the ranges of scratch it reads (R71, R91 to R93, R434):
corrected lines are counted and written back later, an uncorrectable one is counted and recorded. Words of other memories
have no counter in the spec (log entry 66). -/
def State.scratchUpset (s : State) (st : Nat) (u : Upset) (rs : List (Nat × Nat)) : Nat × State :=
  let s := s.bump (Reg.strScratchEccCorrCount st) u.scratchCorr.length
  let s := s.modStrand st fun x => { x with writebacks := x.writebacks ++ u.scratchCorr }
  match u.scratchBad.or (s.badRead st rs) with
  | none => (if u.eccBad then stScratchEcc else stOk, s)
  | some l => (stScratchEcc, s.badScratch st l)

/-- The strand whose scratch holds a place of the byte store. -/
def scratchAt (a : Nat) : Option Nat :=
  if 2 ^ 48 ≤ a ∧ a < 2 ^ 48 + 128 * 2 ^ 24 then some ((a - 2 ^ 48) / 2 ^ 24) else none

/-- A write of n bytes reaches scratch: it drops the queued write-backs of its lines (R91), and a line written whole reads well
again (log entry 66). -/
def State.wrote (s : State) (a n : Nat) : State :=
  match scratchAt a with
  | none => s
  | some st =>
    let x := s.strand st
    if n = 0 || (x.writebacks.isEmpty && x.badLines.isEmpty) then s
    else
      let o := a - scratchBase st
      s.modStrand st fun x =>
        { x with writebacks := x.writebacks.filter fun l => decide (64 * l + 64 ≤ o) || decide (o + n ≤ 64 * l),
                 badLines := x.badLines.filter fun l => decide (64 * l < o) || decide (o + n < 64 * l + 64) }

/-- A hitch writes bytes into strand scratch or a hank region. -/
def State.put (s : State) (a : Nat) (bs : List Byte) : State := (s.poke a bs).wrote a bs.length

/-- A vector residue or parity mismatch (R86). -/
def State.residueUpset (s : State) (st : Nat) (u : Upset) : Nat × State :=
  if u.residue then (stVectorResidue, s.inc (Reg.strResidueFailCount st)) else (stOk, s)

/-- Run an executed hitch: issue it, settle the upset of its reads, of the given ranges of its strand's scratch among others,
then its own effect, which gives its status and the telltale of what it wrote. A hitch that cannot issue leaves the state as
it is. -/
def State.runHitch (s : State) (st op : Nat) (sub : HitchWord → Bool) (u : Upset)
    (reads : Run → State → List (Nat × Nat)) (f : Run → State → Nat × Nat × State) : State :=
  match s.issue st op sub with
  | none => s
  | some (r, s) =>
    let x := s.scratchUpset st u (reads r s)
    if x.1 ≠ stOk then x.2.finish r x.1 0
    else
      let y := f r x.2
      y.2.2.finish r y.1 y.2.1

/-! Spaces (R120, R123) -/

/-- A strand-scratch range lies in its space. -/
def inScratch (a n : Nat) : Bool := decide (a + n ≤ scratchSize)
/-- A hank-region range lies in its space. -/
def inRegion (a n : Nat) : Bool := decide (a + n ≤ regionSize)

/-- The first place of an address of scratch (0) or of the hank region (1). -/
def Run.place (r : Run) (space a : Nat) : Nat := if space = 0 then scratchBase r.st + a else regionBase r.g + a
/-- A range of scratch (0) or of the hank region (1) lies in its space. -/
def inSpace (space a n : Nat) : Bool := if space = 0 then inScratch a n else inRegion a n

/-- The ranges of scratch that n rows of `bytes` bytes at a stride are read from, where they lie in scratch (space 0). -/
def rowReads (space addr stride rows bytes : Nat) : List (Nat × Nat) :=
  if space = 0 then (upTo rows).map fun i => (addr + i * stride, bytes) else []

/-- Bytes of n elements of a width, packed (R40). -/
def packedBytes (width n : Nat) : Nat := (width * n + 7) / 8

/-- Element i of a packed row read as one little-endian integer (R40). -/
def elemAt (width row i : Nat) : Nat := row / 2 ^ (width * i) % 2 ^ width

/-- Pack element codes into bytes (R40). -/
def packElems (width : Nat) (codes : List Nat) : List Byte :=
  toLe (packedBytes width codes.length) (packNat width codes)
where
  /-- The packed elements as one integer. -/
  packNat (width : Nat) (codes : List Nat) : Nat :=
    match codes with
    | [] => 0
    | c :: r => c % 2 ^ width + 2 ^ width * packNat width r

/-! Rounding (R64 to R67) -/

/-- The rounding of elements n0 to n0 + count − 1 of a hitch's logical output: nearest, seeded, or unseeded from free
words (R67; log entry 8). -/
def State.rounding (s : State) (r : Run) (n0 count : Nat) : List Rnd :=
  match hRound r.w with
  | 1 =>
    let seed := (s.hank r.g).seeds.getD (hSeedIdx r.w) 0
    (upTo count).map fun i => .stoch (seededWord seed (hStream r.w) (s.step r.p).counter (n0 + i))
  | 2 => (upTo count).map fun i => .stoch (Config.freeValue (s.fresh + n0 + i))
  | _ => (upTo count).map fun _ => .rne

/-- Account for the free words of an unseeded rounding of a hitch. -/
def State.usedRandom (s : State) (r : Run) (count : Nat) : State :=
  if hRound r.w = 2 then { s with fresh := s.fresh + count } else s

end Sys2Proof.Machine
end

