-- ==== Sys2Proof/Machine/Flags.lean ====
section
/-! DEFINITION. The sticky arithmetic flags (R69, R70): how a hitch's flags reach STR_ARITH_FLAGS, and the lanes of a
vector operation with the union of their flags. The flags of each operation are computed beside it (Numbers.lean). -/

namespace Sys2Proof.Machine

/-- EXACT_LOST of STR_ARITH_FLAGS (R69). -/
def flagExactLost : Nat := 0x100

/-- Set the flags of a strand: those of R69 only. -/
def State.arith (s : State) (st f : Nat) : State := s.setFlags (Reg.strArithFlags st) (f &&& 0xF1F)

/-- The union of the flags of a list of results. -/
def flagsOf (rs : List (Nat × Nat)) : Nat := (rs.map Prod.snd).foldl orBits 0

/-- The values of a list of results. -/
def valuesOf (rs : List (Nat × Nat)) : List Nat := rs.map Prod.fst

/-- A W1C write of STR_ARITH_FLAGS: a flag event of the same cycle leaves its bit set (R70). -/
def State.clearFlags (s : State) (a v coincident : Nat) : State :=
  s.setReg a ((s.reg a &&& ((0xFFFFFFFF - v % 2 ^ 32) &&& 0xFFFFFFFF)) ||| coincident)

end Sys2Proof.Machine
end

