-- ==== Sys2Proof/Machine/Matrix.lean ====
section
/-! DEFINITION. The long accumulator (R45 to R60), its check residues (R76 to R81), its save form (R83, R84), and the
matrix hitches MATMUL, ACC_SAVE and ACC_RESTORE (R118 to R121). -/

namespace Sys2Proof.Machine

/-- The prime of the check residues. -/
def checkPrime : Nat := 2 ^ 31 - 1

/-- The residue of m × 2^e (R76). -/
def rho (m : Int) (e : Int) : Nat := (m % checkPrime).toNat * 2 ^ (e % 31).toNat % checkPrime

/-- The residue of an operand: zero and non-finite values contribute 0 (R81). -/
def rhoNum (x : Num) : Nat :=
  match x with
  | .fin neg m e => rho (if neg then -(m : Int) else m) e
  | .inf _ => 0
  | .nan _ => 0

/-- The residue of minus a residue. -/
def rhoNeg (r : Nat) : Nat := (checkPrime - r % checkPrime) % checkPrime

/-- Sum of residues. -/
def rhoSum (l : List Nat) : Nat := l.foldl (fun a b => (a + b) % checkPrime) 0

/-- An element of a column, +0 where none is listed. -/
def Col.elem (c : Col) (i : Nat) : Elem := mgetD c.elems i (.fin 0)

/-- Set an element, listing no +0. -/
def Col.setElem (c : Col) (i : Nat) (x : Elem) : Col :=
  { c with elems := if x = .fin 0 then mdel c.elems i else mput c.elems i x }

/-- How far a finite element can be shifted left within the window (R48). -/
def headOf (v : Int) : Nat :=
  if 0 < v then 93 - (Nat.log2 v.toNat + 1) else if v = -1 then 93 else 93 - (Nat.log2 (v.natAbs - 1) + 1)

/-- headroom(c) (R48): over the finite elements that are not zero, or A[c] + 32,767. -/
def Col.headroom (c : Col) (a : Int) : Int :=
  let hs := c.elems.filterMap fun e => match e.2 with
    | .fin v => if v = 0 then none else some (headOf v)
    | _ => none
  match hs with
  | [] => a + 32767
  | h :: r => (r.foldl min h : Nat)

/-- Map over the finite elements. -/
def Col.mapFin (c : Col) (f : Int → Int) : Col :=
  let g (e : Elem) : Elem := match e with
    | .fin v => .fin (f v)
    | x => x
  let es := (c.elems.map fun e => (e.1, g e.2)).filter fun e => e.2 != .fin 0
  { c with elems := es }

/-- v / 2 rounded to nearest, ties to even. -/
def halfEven (v : Int) : Int :=
  let n : Int := (roundMag .rne v.natAbs (-1)).1
  if v < 0 then -n else n

/-- A finite value lies outside the value window. -/
def outside (v : Int) : Bool := decide (v < -(2 ^ 93) ∨ (2 ^ 93 - 1 : Int) < v)

/-- One halving of a column (R48), with the residue of each element's change by row (R77). -/
def Col.halve (c : Col) (a : Int) : Col × List (Nat × Nat) :=
  let odd := c.elems.any fun e => match e.2 with | .fin v => v % 2 != 0 | _ => false
  let changes := c.elems.filterMap fun e => match e.2 with
    | .fin v => if 2 * halfEven v = v then none else some (e.1, rho (2 * halfEven v - v) a)
    | _ => none
  ({ c.mapFin halfEven with anchor := some (a + 1), lost := c.lost || odd }, changes)

/-- Halve until every finite element lies in the window, at most n times. -/
def Col.settle (n : Nat) (c : Col) : Col × List (Nat × Nat) :=
  match n with
  | 0 => (c, [])
  | k + 1 =>
    if c.elems.any fun e => match e.2 with | .fin v => outside v | _ => false then
      let (c, ch) := c.halve (c.anchor.getD 0)
      let (c, rest) := Col.settle k c
      (c, ch ++ rest)
    else (c, [])

/-- add_product of R48: a finite product m × 2^e, m not zero, into element i; with the residues of the roundings by
row. The halvings it needs are at most 2 more than the bits of what is added. -/
def Col.addFin (c : Col) (i : Nat) (m e : Int) : Col × List (Nat × Nat) :=
  let a0 := c.anchor.getD e
  let d := if e < a0 then min (a0 - e) (c.headroom a0) else 0
  let c := if 0 < d then c.mapFin (fun v => v * 2 ^ d.toNat) else c
  let a := a0 - d
  let sh := e - a
  let n : Int := (roundMag .rne m.natAbs sh).1
  let q := if m < 0 then -n else n
  let inexact := (roundMag .rne m.natAbs sh).2
  let fix := if inexact then [(i, rho (q * 2 ^ (-sh).toNat - m) e)] else []
  let c := { c with anchor := some a, lost := c.lost || inexact }
  let c := match c.elem i with
    | .fin v => c.setElem i (.fin (v + q))
    | _ => c
  let (c, more) := Col.settle (Nat.log2 q.natAbs + 4) c
  (c, fix ++ more)

/-- A non-finite value combines with an element (R49). -/
def Elem.combine (x : Elem) (y : Elem) : Elem :=
  match x, y with
  | .nan, _ => .nan
  | _, .nan => .nan
  | .posInf, .negInf => .nan
  | .negInf, .posInf => .nan
  | .posInf, _ => .posInf
  | .negInf, _ => .negInf
  | .fin _, .posInf => .posInf
  | .fin _, .negInf => .negInf
  | .fin v, .fin w => .fin (v + w)

/-- Add a product of any kind into element i (R44, R48, R49); a zero product adds nothing. -/
def Col.add (c : Col) (i : Nat) (x : Num) : Col × List (Nat × Nat) :=
  match x with
  | .fin neg m e => if m = 0 then (c, []) else c.addFin i (if neg then -(m : Int) else m) e
  | .inf neg => (c.setElem i ((c.elem i).combine (if neg then .negInf else .posInf)), [])
  | .nan _ => (c.setElem i .nan, [])

/-- The exact value of an element of a column (R46); every zero is +0 (R37). -/
def Col.value (c : Col) (i : Nat) : Num :=
  match c.elem i with
  | .fin v => if v = 0 then Num.zero else Num.ofInt v (c.anchor.getD 0)
  | .posInf => .inf false
  | .negInf => .inf true
  | .nan => .nan false

/-- A column of the array. -/
def Acc.col (a : Acc) (c : Nat) : Col := mgetD a.cols c Col.empty

/-- Add residues to the correction residues of a column and of rows (R77). -/
def Acc.correct (a : Acc) (c : Nat) (ch : List (Nat × Nat)) : Acc :=
  { a with
    dRow := foldS (fun m e => nput m e.1 ((nget m e.1 + e.2) % checkPrime)) a.dRow ch,
    dCol := nput a.dCol c ((nget a.dCol c + rhoSum (ch.map Prod.snd)) % checkPrime) }

/-- Add one product into element (i, c). -/
def Acc.add (a : Acc) (i c : Nat) (x : Num) : Acc :=
  let r := (a.col c).add i x
  ({ a with cols := mput a.cols c r.1 }).correct c r.2

/-- Accumulate one step of the array at one reduction index (R48, R76): the rows' A values and the columns' B values, each
by index. Products reach each column in ascending row. -/
def Acc.stepRows (a : Acc) (rows cols : List (Nat × Num)) : Acc :=
  let a := foldS (fun a cb => foldS (fun a ia => a.add ia.1 cb.1 (ia.2.mul cb.2)) a rows) a cols
  let sA := rhoSum (rows.map fun x => rhoNum x.2)
  let sB := rhoSum (cols.map fun x => rhoNum x.2)
  let bad := rows.flatMap fun ia => cols.filterMap fun cb =>
    if ia.2.isFin && cb.2.isFin then none else some (ia.1, cb.1)
  { a with
    x := foldS (fun m ia => nput m ia.1 ((nget m ia.1 + rhoNum ia.2 * sB) % checkPrime)) a.x rows,
    y := foldS (fun m cb => nput m cb.1 ((nget m cb.1 + sA * rhoNum cb.2) % checkPrime)) a.y cols,
    z := (a.z + sA * sB) % checkPrime,
    nonFinite := bad.filter (fun b => !(a.nonFinite.contains b)) ++ a.nonFinite }

/-- A step over rows 0 to M − 1 and columns 0 to N − 1. -/
def Acc.stepK (a : Acc) (as_ bs : List Num) : Acc :=
  a.stepRows ((upTo as_.length).zip as_) ((upTo bs.length).zip bs)

/-- The residue of a stored element. -/
def Col.residue (c : Col) (e : Elem) : Nat :=
  match e with
  | .fin v => rho v (c.anchor.getD 0)
  | _ => 0

/-- Rows whose equation of R78 fails. -/
def Acc.badRows (a : Acc) : List Nat :=
  (upTo 128).filter fun i =>
    rhoSum (a.cols.map fun c => c.2.residue (c.2.elem i)) != (nget a.x i + nget a.dRow i) % checkPrime

/-- Columns whose equation of R78 fails. -/
def Acc.badCols (a : Acc) : List Nat :=
  (upTo 128).filter fun c =>
    rhoSum ((a.col c).elems.map fun e => (a.col c).residue e.2) != (nget a.y c + nget a.dCol c) % checkPrime

/-- The corner equation of R78 fails. -/
def Acc.badCorner (a : Acc) : Bool :=
  rhoSum (a.x.map Prod.snd) != a.z || rhoSum (a.y.map Prod.snd) != a.z

/-- The classification check of R81: exactly the elements that must be non-finite are. -/
def Acc.classified (a : Acc) : Bool :=
  let nf := a.cols.flatMap fun c => c.2.elems.filterMap fun e =>
    match e.2 with | .fin _ => none | _ => some (e.1, c.1)
  nf.all (fun x => a.nonFinite.contains x) && a.nonFinite.all fun x => nf.contains x

/-- A physical change of one stored element by δ units of its column, of one anchor, and of the corner residue (R80; log
entry 10). -/
def Acc.upset (a : Acc) (u : Upset) : Acc :=
  let a := match u.flip with
    | none => a
    | some (i, c, d) =>
      match (a.col c).elem i with
      | .fin v => { a with cols := mput a.cols c ((a.col c).setElem i (.fin (v + d))) }
      | _ => a
  let a := match u.anchor with
    | none => a
    | some (c, d) => { a with cols := mput a.cols c { a.col c with anchor := (a.col c).anchor.map fun x => x + d } }
  { a with z := (a.z + u.corner) % checkPrime }

/-- The test of an array (R78, R81): its classification where an element must be non-finite, the equations otherwise. -/
def Acc.passes (a : Acc) : Bool :=
  if a.nonFinite.isEmpty then a.badRows.isEmpty && a.badCols.isEmpty && !a.badCorner else a.classified

/-- The counters of a test that meets no uncorrectable element (R81, R84, R103). An ACC_SAVE checked by classification counts as a
readout does (DESIGN CHOICE, log entry 66). -/
def State.accCounted (s : State) (st : Nat) (a : Acc) (u : Upset) : State :=
  let s := s.bump (Reg.strAccEccCorrCount st) u.accCorr
  if a.nonFinite.isEmpty then s else s.inc (Reg.strTilePartialCount st)

/-- The test of a readout, save or restore (R78, R79, R81, R84): its status, with its counters and its place. Where only the
classification fails, R79 and R103 name no row or column and the place reads 0x1FFFF (DESIGN CHOICE, log entry 66). -/
def State.accCheck (s : State) (st : Nat) (a : Acc) (u : Upset) : Nat × State :=
  if u.accBad then
    (stAccEcc, (s.bump (Reg.strAccEccCorrCount st) u.accCorr).inc (Reg.strAccEccUncorrCount st))
  else
    let s := s.accCounted st a u
    if a.passes then (stOk, s)
    else
      let loc :=
        if a.nonFinite.isEmpty then
          0x10000 + (if a.badCorner then 0x20000 else 0) + 256 * a.badCols.headD 0xFF + a.badRows.headD 0xFF
        else 0x1FFFF
      (stTileCheckFail, (s.inc (Reg.strTileCheckFailCount st)).setReg (Reg.strTileCheckLoc st) loc)

/-- Keep the array of a strand. -/
def State.setAcc (s : State) (st : Nat) (a : Acc) : State := s.modStrand st fun x => { x with acc := a }

/-- Time in which the array serves a hitch (R96, R105): the register holds whole microseconds, the strand the rest in
1/45,000 µs, of which a CLK_ARITH cycle is a whole number at every reef step. -/
def State.macBusy (s : State) (st cycles : Nat) : State :=
  let n := (s.strand st).busyPart + cycles * (45000000 / arithKhz (s.effStep (hankOf st)))
  let s := s.modStrand st fun x => { x with busyPart := n % 45000 }
  s.bump (Reg.strMacBusyUs st) (n / 45000)

/-- Cycles of the fill before a reduction of k steps (R75, R96): none for a hitch that continues one and stood at the head of the
queue before the last step of the hitch before it; none either where there is no step (log entry 66). -/
def State.fillCycles (s : State) (r : Run) (clear : Bool) (k : Nat) : Nat :=
  if k = 0 || (!clear && (s.strand r.st).lined == some r.e.id) then 0 else 8

/-- A row of an operand: elements decoded, each under the scale of its block of 32 (R39 to R42). -/
def State.operandRow (s : State) (place scalePlace : Nat) (f : Fmt) (mx : Bool) (k : Nat) : List Num :=
  let row := s.peekLe place (packedBytes f.width k)
  (upTo k).map fun i =>
    let x := f.decode mx (elemAt f.width row i)
    if mx then x.scaled (s.peekLe (scalePlace + i / 32) 1) else x

/-- Whether some block of a row has scale 0xFF, which sets SCALE_NAN (R58). -/
def State.scaleNaN (s : State) (scalePlace k : Nat) : Bool :=
  (upTo ((k + 31) / 32)).any fun b => s.peekLe (scalePlace + b) 1 == 0xFF

/-- Split a list into blocks of n, at most `fuel` of them. -/
def blocksOf {α : Type} (fuel n : Nat) (l : List α) : List (List α) :=
  match fuel with
  | 0 => []
  | k + 1 => if l.isEmpty then [] else l.take n :: blocksOf k n (l.drop n)

/-- Encode a row of values in a plain format: codes and flags. -/
def encodeRow (f : Fmt) (sat : Bool) (rs : List Rnd) (vs : List Num) : List Nat × Nat :=
  let es := (rs.zip vs).map fun p => f.encode sat p.1 p.2
  (valuesOf es, flagsOf es)

/-- Encode a row of values as blocks of 32 under computed scales (R57): scales, codes and flags. -/
def encodeRowMx (f : Fmt) (rs : List Rnd) (vs : List Num) : List Nat × List Nat × Nat :=
  let bs := (blocksOf vs.length 32 (rs.zip vs)).map fun b => f.encodeBlock (b.map Prod.fst) (b.map Prod.snd)
  (bs.map fun b => b.1, bs.flatMap fun b => b.2.1, (bs.map fun b => b.2.2).foldl orBits 0)

/-- A zero that a readout rounds to is +0 (R37). -/
def plusZero (f : Fmt) (code : Nat) : Nat := if !f.isInt && code = 2 ^ (f.width - 1) then 0 else code

/-- The 96-bit form of an element (R45). -/
def elemBits (e : Elem) : Nat :=
  match e with
  | .fin v => twos 96 v
  | .posInf => 2 ^ 94
  | .negInf => 2 ^ 94 + 1
  | .nan => 2 ^ 94 + 2

/-- The 16-bit form of an anchor (R46). -/
def anchorBits (a : Option Int) : Nat :=
  match a with
  | none => 0x8000
  | some v => twos 16 v

/-- The raw form of an element (R59). -/
def rawBits (c : Col) (i : Nat) : Nat := elemBits (c.elem i) + 2 ^ 96 * anchorBits c.anchor

/-- The writes of a hitch in address order, digested (R447). -/
def writesDigest (ws : List (Nat × List Byte)) : Nat :=
  crc64 ((ws.mergeSort fun a b => decide (a.1 ≤ b.1)).flatMap fun w => w.2)

/-- Make the writes of a hitch. -/
def State.putAll (s : State) (ws : List (Nat × List Byte)) : State := foldS (fun s w => s.put w.1 w.2) s ws

/-! MATMUL (R118 to R120) -/

/-- A format code and MX bit that R119 permits as an operand. -/
def operandFmt (code : Nat) (mx : Bool) : Option Fmt :=
  match Fmt.ofCode code with
  | none => none
  | some f =>
    if mx then (if code ≤ 5 then some f else none)
    else if code = 0 ∨ code = 1 ∨ (5 ≤ code ∧ code ≤ 8) then some f else none

/-- A format code and MX bit that R119 permits as an output. -/
def outputFmt (code : Nat) (mx : Bool) : Option Fmt :=
  match Fmt.ofCode code with
  | none => none
  | some f =>
    if mx then (if code ≤ 5 then some f else none)
    else if code = 0 ∨ code = 1 ∨ code = 5 ∨ (7 ≤ code ∧ code ≤ 9) ∨ code = 15 then some f else none

/-- A MATMUL breaks an operand-area rule (R118 to R120). -/
def matmulBad (w : HitchWord) : Bool :=
  fld w 0x10 30 23 != 0 || fld w 0x14 31 23 != 0 || fld w 0x18 31 21 != 0 || fld w 0x1C 31 21 != 0 ||
  fld w 0x28 31 21 != 0 || fld w 0x2C 7 7 != 0 || fld w 0x2C 15 15 != 0 ||
  fld w 0x2C 23 21 != 0 || fld w 0x2C 31 31 != 0 ||
  fld w 0x30 31 21 != 0 || fld w 0x34 31 21 != 0 || fld w 0x38 23 21 != 0 || fld w 0x3C 31 0 != 0 ||
  (operandFmt (fld w 0x2C 19 16) (flag w 0x2C 20)).isNone ||
  (operandFmt (fld w 0x2C 27 24) (flag w 0x2C 28)).isNone ||
  (flag w 0x2C 30 && (outputFmt (fld w 0x38 19 16) (flag w 0x38 20)).isNone) ||
  decide (1048576 < fld w 0x28 20 0) ||
  ((flag w 0x2C 20 || flag w 0x2C 28) && fld w 0x28 20 0 % 32 != 0) ||
  (fld w 0x28 20 0 == 0 && !(flag w 0x2C 29) && !(flag w 0x2C 30))

/-- The last byte, plus one, of n rows of `bytes` bytes at a stride; no range at all where a row has none (R120). -/
def rowsEnd (addr stride rows bytes : Nat) : Nat := if bytes = 0 then 0 else addr + (rows - 1) * stride + bytes

/-- CLK_ARITH cycles of a readout (R82). -/
def readoutCycles (bytes : Nat) : Nat := max 16 ((bytes + 2047) / 2048) + 4

/-- Cycles of a reduction in quarter steps: c × 4 of R96 by the lane of R43. -/
def laneQuarter (fa fb : Fmt) (mxa mxb : Bool) : Nat :=
  if fa = .e2m1 && fb = .e2m1 && mxa && mxb then 2
  else if fa = .fp16 || fb = .fp16 then 16
  else if fa = .bf16 || fb = .bf16 then 8
  else 4

/-- The output of a readout of an M × N tile (R56 to R59): the writes at the given addresses, and the flags. -/
def Acc.readout (a : Acc) (m n : Nat) (f : Fmt) (mx sat : Bool) (rs : List Rnd) (out stride scale scaleStride : Nat) :
    List (Nat × List Byte) × Nat :=
  let rows := (upTo m).map fun i =>
    let vs := (upTo n).map fun c => (a.col c).value i
    let r := (rs.drop (i * n)).take n
    if f = .raw then
      ([(out + i * stride, packElems 112 ((upTo n).map fun c => rawBits (a.col c) i))], 0)
    else if mx then
      let (sc, codes, fl) := encodeRowMx f r vs
      ([(out + i * stride, packElems f.width (codes.map (plusZero f))),
        (scale + i * scaleStride, sc.map (BitVec.ofNat 8))], fl)
    else
      let (codes, fl) := encodeRow f sat r vs
      ([(out + i * stride, packElems f.width (codes.map (plusZero f)))], fl)
  (rows.flatMap Prod.fst, (rows.map Prod.snd).foldl orBits 0)

/-- Some of the first n columns of an array lost bits (R55). -/
def Acc.lostOf (a : Acc) (n : Nat) : Bool := (upTo n).any fun c => (a.col c).lost

/-- A hitch that found a lost column counts it and sets its flag (R55, R69). -/
def State.noteLost (s : State) (r : Run) (lost : Bool) : State :=
  if lost then (s.inc (Reg.strExactLostCount r.st)).arith r.st flagExactLost else s

/-- Read N columns of the array of a run: the check, EXACT_LOST, and the writes that `emit` makes of the values it
releases, `count` of them rounded (R55 to R60, R78, R79). -/
def State.readoutWith (s : State) (r : Run) (n count : Nat) (u : Upset)
    (emit : Acc → List Rnd → List (Nat × List Byte) × Nat) : Nat × Nat × State :=
  let a := ((s.strand r.st).acc).upset u
  let lost := a.lostOf n
  let s := (s.setAcc r.st a).noteLost r lost
  let ck := s.accCheck r.st a u
  if ck.1 ≠ stOk then (ck.1, 0, ck.2)
  else
    let x := emit a (ck.2.rounding r 0 count)
    (if lost then stExactLost else stOk, writesDigest x.1, ((ck.2.usedRandom r count).putAll x.1).arith r.st x.2)

/-- A reduction that reads nothing out: its ECC and upsets (R84). -/
def State.noReadout (s : State) (r : Run) (u : Upset) : Nat × Nat × State :=
  let s := s.bump (Reg.strAccEccCorrCount r.st) u.accCorr
  if u.accBad then (stAccEcc, 0, s.inc (Reg.strAccEccUncorrCount r.st))
  else (stOk, 0, s.setAcc r.st (((s.strand r.st).acc).upset u))

/-- A MATMUL as its operand area gives it (R118). -/
structure MatJob where
  k : Nat
  m : Nat
  n : Nat
  fa : Fmt
  mxa : Bool
  fb : Fmt
  mxb : Bool
  clear : Bool
  rd : Bool
  fo : Fmt
  mxo : Bool
  asp : Nat
  aa : Nat
  ascale : Nat
  astr : Nat
  asst : Nat
  bb : Nat
  bscale : Nat
  bstr : Nat
  bsst : Nat
  out : Nat
  oscale : Nat
  ostr : Nat
  osst : Nat
  deriving DecidableEq, Repr

/-- Read a MATMUL. -/
def MatJob.of (w : HitchWord) : MatJob :=
  { k := fld w 0x28 20 0, m := fld w 0x2C 6 0 + 1, n := fld w 0x2C 14 8 + 1, fa := (Fmt.ofCode (fld w 0x2C 19 16)).getD .fp32,
    mxa := flag w 0x2C 20, fb := (Fmt.ofCode (fld w 0x2C 27 24)).getD .fp32, mxb := flag w 0x2C 28, clear := flag w 0x2C 29,
    rd := flag w 0x2C 30, fo := (Fmt.ofCode (fld w 0x38 19 16)).getD .fp32, mxo := flag w 0x38 20, asp := fld w 0x10 31 31,
    aa := fld w 0x10 22 0, ascale := fld w 0x14 22 0, astr := 16 * fld w 0x20 15 0, asst := fld w 0x24 15 0,
    bb := fld w 0x18 20 0, bscale := fld w 0x1C 20 0, bstr := 16 * fld w 0x20 31 16, bsst := fld w 0x24 31 16,
    out := fld w 0x30 20 0, oscale := fld w 0x34 20 0, ostr := 16 * fld w 0x38 15 0, osst := fld w 0x38 31 24 }

/-- The ranges of a MATMUL lie in their spaces (R120). -/
def MatJob.inRange (c : MatJob) : Bool :=
  inSpace c.asp (rowsEnd c.aa c.astr c.m (packedBytes c.fa.width c.k)) 0 &&
    (!c.mxa || inSpace c.asp (rowsEnd c.ascale c.asst c.m (c.k / 32)) 0) &&
    inSpace 0 (rowsEnd c.bb c.bstr c.n (packedBytes c.fb.width c.k)) 0 &&
    (!c.mxb || inSpace 0 (rowsEnd c.bscale c.bsst c.n (c.k / 32)) 0) &&
    (!c.rd || (inSpace 0 (rowsEnd c.out c.ostr c.m (packedBytes c.fo.width c.n)) 0 &&
      (!c.mxo || inSpace 0 (rowsEnd c.oscale c.osst c.m ((c.n + 31) / 32)) 0)))

/-- The reduction steps that stand in the array before a MATMUL's (R120). -/
def State.stepsBefore (s : State) (r : Run) (clear : Bool) : Nat := if clear then 0 else (s.strand r.st).acc.kLen
/-- The array that a reduction starts from: EMPTY with CLEAR (R47). -/
def State.arrayBefore (s : State) (r : Run) (clear : Bool) : Acc := if clear then Acc.empty else (s.strand r.st).acc

/-- Row i of A and column j of B, decoded. -/
def MatJob.rowA (c : MatJob) (s : State) (r : Run) (i : Nat) : List Num :=
  s.operandRow (r.place c.asp (c.aa + i * c.astr)) (r.place c.asp (c.ascale + i * c.asst)) c.fa c.mxa c.k
def MatJob.rowB (c : MatJob) (s : State) (r : Run) (j : Nat) : List Num :=
  s.operandRow (r.place 0 (c.bb + j * c.bstr)) (r.place 0 (c.bscale + j * c.bsst)) c.fb c.mxb c.k

/-- The reduction of a MATMUL into an array (R48, R118). -/
def MatJob.reduce (c : MatJob) (s : State) (r : Run) (a : Acc) : Acc :=
  let rowsA := (upTo c.m).map fun i => c.rowA s r i
  let rowsB := (upTo c.n).map fun j => c.rowB s r j
  foldS (fun a kk => a.stepK (rowsA.map fun x => x.getD kk Num.zero) (rowsB.map fun x => x.getD kk Num.zero)) a (upTo c.k)

/-- A MATMUL read a block whose scale is 0xFF (R58). -/
def MatJob.nanScale (c : MatJob) (s : State) (r : Run) : Bool :=
  (c.mxa && (upTo c.m).any fun i => s.scaleNaN (r.place c.asp (c.ascale + i * c.asst)) c.k) ||
    (c.mxb && (upTo c.n).any fun j => s.scaleNaN (r.place 0 (c.bscale + j * c.bsst)) c.k)

/-- CLK_ARITH cycles of a MATMUL's reduction and readout without its fill (R96). -/
def MatJob.cycles (c : MatJob) : Nat :=
  (c.k * laneQuarter c.fa c.fb c.mxa c.mxb + 3) / 4 +
    (if c.rd then readoutCycles (c.m * packedBytes c.fo.width c.n + (if c.mxo then c.m * ((c.n + 31) / 32) else 0)) else 0)

/-- The reduction of a MATMUL: the array, SCALE_NAN and the time. -/
def State.matmulStep (s : State) (r : Run) (c : MatJob) : State :=
  let a := c.reduce s r (s.arrayBefore r c.clear)
  let n := s.stepsBefore r c.clear + c.k
  let nan := c.nanScale s r
  let s := s.setAcc r.st { a with kLen := n }
  let s := if nan then s.arith r.st flagScale else s
  s.macBusy r.st (s.fillCycles r c.clear c.k + c.cycles)

/-- The effect of a MATMUL (R118 to R120, R48, R76 to R82). -/
def State.matmulBody (s : State) (r : Run) (u : Upset) : Nat × Nat × State :=
  let c := MatJob.of r.w
  if 1048576 < s.stepsBefore r c.clear + c.k then (stMalformed, 0, s)
  else if !c.inRange then (stAddrInvalid, 0, s)
  else if c.rd then
    (s.matmulStep r c).readoutWith r c.n (c.m * c.n) u fun a rs =>
      a.readout c.m c.n c.fo c.mxo (hSat r.w) rs (r.place 0 c.out) c.ostr (r.place 0 c.oscale) c.osst
  else (s.matmulStep r c).noReadout r u

/-- The ranges of scratch that a MATMUL reads (R118). -/
def matmulReads (w : HitchWord) : List (Nat × Nat) :=
  let k := fld w 0x28 20 0
  let m := fld w 0x2C 6 0 + 1
  let n := fld w 0x2C 14 8 + 1
  let sp := fld w 0x10 31 31
  let wa := ((Fmt.ofCode (fld w 0x2C 19 16)).getD .fp32).width
  let wb := ((Fmt.ofCode (fld w 0x2C 27 24)).getD .fp32).width
  rowReads sp (fld w 0x10 22 0) (16 * fld w 0x20 15 0) m (packedBytes wa k) ++
    (if flag w 0x2C 20 then rowReads sp (fld w 0x14 22 0) (fld w 0x24 15 0) m (k / 32) else []) ++
    rowReads 0 (fld w 0x18 20 0) (16 * fld w 0x20 31 16) n (packedBytes wb k) ++
    (if flag w 0x2C 28 then rowReads 0 (fld w 0x1C 20 0) (fld w 0x24 31 16) n (k / 32) else [])

/-- MATMUL (R118). -/
def execMatmul (st : Fin 128) (u : Upset) (s : State) : Host.Outcome State Fault Refusal :=
  .next (s.runHitch st.val 0x01 (fun _ => true) u (fun r _ => matmulReads r.w) fun r s => s.matmulBody r u)

/-! ACC_SAVE and ACC_RESTORE (R83, R121) -/

/-- Bytes of the save form. -/
def saveBytes : Nat := 229392

/-- An ACC_SAVE or ACC_RESTORE breaks an operand-area rule (R121). -/
def accBadArea (w : HitchWord) : Bool := !(zeroBytes w 0x14 0x40) || fld w 0x10 5 0 != 0

/-- The save form of an array (R83). -/
def Acc.saveForm (a : Acc) : List Byte :=
  ((upTo 128).flatMap fun c => (upTo 128).flatMap fun i => toLe 14 (rawBits (a.col c) i)) ++
    toLe 16 (foldS (fun n c => if (a.col c).lost then n + 2 ^ c else n) 0 (upTo 128))

/-- The effect of an ACC_SAVE: the array is checked and its save form written (R78, R83). -/
def State.accSaveBody (s : State) (r : Run) (u : Upset) : Nat × Nat × State :=
  let addr := fld r.w 0x10 31 0
  if !(inScratch addr saveBytes) then (stAddrInvalid, 0, s)
  else
    let a := ((s.strand r.st).acc).upset u
    let s := s.setAcc r.st a
    let s := s.macBusy r.st 117
    let ck := s.accCheck r.st a u
    if ck.1 ≠ stOk then (ck.1, 0, ck.2)
    else
      let bs := a.saveForm
      (stOk, crc64 bs, ck.2.put (r.place 0 addr) bs)

/-- ACC_SAVE (R121). -/
def execAccSave (st : Fin 128) (u : Upset) (s : State) : Host.Outcome State Fault Refusal :=
  .next (s.runHitch st.val 0x02 (fun _ => true) u (fun _ _ => []) fun r s => s.accSaveBody r u)

/-- An element of a save form: none where its guard bits break R45. -/
def parseElem (b : Nat) : Option Elem :=
  let v := b % 2 ^ 96
  if bits v 95 94 = (if bit v 93 then 3 else 0) then some (.fin (sext 96 v))
  else if v = 2 ^ 94 then some .posInf
  else if v = 2 ^ 94 + 1 then some .negInf
  else if v = 2 ^ 94 + 2 then some .nan
  else none

/-- A column of a save form (R83): none where its forms break the checks. -/
def parseCol (raws : List Nat) (lost : Bool) : Option Col :=
  let es := raws.map parseElem
  let an := raws.headD 0 / 2 ^ 96
  let anchor : Option Int := if an = 0x8000 then none else some (sext 16 an)
  if es.any Option.isNone || raws.any (fun r => r / 2 ^ 96 != an) then none
  else
    let elems := ((upTo 128).zip (es.filterMap id)).filter fun e => e.2 != .fin 0
    if anchor.isNone && elems.any (fun e => match e.2 with | .fin _ => true | _ => false) then none
    else some { anchor := anchor, lost := lost, elems := elems }

/-- The array of a save form (R83), with its residues formed from the finite elements; none where a check fails. -/
def parseSave (bs : List Byte) : Option Acc :=
  let lost := ofLe (bs.drop 229376)
  let cols := (upTo 128).map fun c =>
    parseCol ((upTo 128).map fun i => leAt bs (c * 1792 + 14 * i) 14) (bit lost c)
  if cols.any Option.isNone then none
  else
    let cs := (upTo 128).zip (cols.filterMap id)
    let kept := cs.filter fun c => c.2 != Col.empty
    let res := kept.flatMap fun c => c.2.elems.map fun e => (e.1, c.1, c.2.residue e.2)
    let x := foldS (fun m e => nput m e.1 ((nget m e.1 + e.2.2) % checkPrime)) [] res
    let y := foldS (fun m e => nput m e.2.1 ((nget m e.2.1 + e.2.2) % checkPrime)) [] res
    let nf := kept.flatMap fun c => c.2.elems.filterMap fun e =>
      match e.2 with | .fin _ => none | _ => some (e.1, c.1)
    some { cols := kept, x := x, y := y, z := rhoSum (res.map fun e => e.2.2), dRow := [], dCol := [],
           nonFinite := nf, kLen := 0 }

/-- The effect of an ACC_RESTORE (R83): a form that breaks a check changes nothing. -/
def State.accRestoreBody (s : State) (r : Run) (u : Upset) : Nat × Nat × State :=
  let addr := fld r.w 0x10 31 0
  if !(inScratch addr saveBytes) then (stAddrInvalid, 0, s)
  else
    match parseSave (s.peek (r.place 0 addr) saveBytes) with
    | none => (stMalformed, 0, s)
    | some a =>
      let a := a.upset u
      let s := (s.setAcc r.st a).macBusy r.st 117
      let ck := s.accCheck r.st { a with nonFinite := [] } u
      (ck.1, 0, ck.2)

/-- ACC_RESTORE (R83, R121). -/
def execAccRestore (st : Fin 128) (u : Upset) (s : State) : Host.Outcome State Fault Refusal :=
  .next (s.runHitch st.val 0x03 (fun _ => true) u (fun r _ => [(fld r.w 0x10 31 0, saveBytes)]) fun r s => s.accRestoreBody r u)

end Sys2Proof.Machine
end

