-- ==== Sys2Proof/Machine/Vector.lean ====
section
/-! DEFINITION. The vector unit (R85 to R88, R122): one meaning for each VEC operation over the 256 lanes, VLOAD, VSTORE,
CONVERT, and the MOVE and TELLTALE hitches (R123, R463, R464). -/

namespace Sys2Proof.Machine

/-- A lane of a vector register: what was last written, and before any write 0 at reset (log entry 17) or, once its contents have
been lost, a free value (log entry 8). -/
def State.lane (s : State) (st r i : Nat) : Nat :=
  let x := s.strand st
  match mget x.vregs (256 * r + i) with
  | some v => v
  | none => match x.vbase with
    | none => 0
    | some b => Config.freeValue (b + 256 * r + i) % 2 ^ 32
/-- The 256 lanes of a vector register. -/
def State.lanes (s : State) (st r : Nat) : List Nat := (upTo 256).map fun i => s.lane st r i
/-- Set the lanes of a vector register. -/
def State.setLanes (s : State) (st r : Nat) (vs : List Nat) : State :=
  s.modStrand st fun x =>
    { x with vregs := foldS (fun m iv => mput m (256 * r + iv.1) (iv.2 % 2 ^ 32)) x.vregs ((upTo 256).zip vs) }

/-- The VOP codes of R122. -/
def vopValid (v : Nat) : Bool :=
  decide (v ≤ 0x12) || decide (0x18 ≤ v ∧ v ≤ 0x1D) || decide (0x20 ≤ v ∧ v ≤ 0x28) || v == 0x30 ||
    decide (0x38 ≤ v ∧ v ≤ 0x3A) || v == 0x40 || v == 0x41

/-- A VEC breaks an operand-area rule (R122). -/
def vecBad (w : HitchWord) : Bool :=
  !(vopValid (fld w 0x10 7 0)) || fld w 0x10 15 13 != 0 || fld w 0x10 23 21 != 0 || fld w 0x10 31 29 != 0 ||
    fld w 0x14 7 5 != 0 || fld w 0x14 31 9 != 0 || !(zeroBytes w 0x1C 0x40)

/-- Whether a VEC hitch carries a VOP code. -/
def isVop (v : Nat) (w : HitchWord) : Bool := fld w 0x10 7 0 == v

/-- The sources of a VEC: SRC0, SRC1 or the immediate, and SRC2 (R122). -/
def State.sources (s : State) (r : Run) : List Nat × List Nat × List Nat :=
  let w := r.w
  (s.lanes r.st (fld w 0x10 20 16),
   if flag w 0x14 8 then (upTo 256).map fun _ => fld w 0x18 31 0 else s.lanes r.st (fld w 0x10 28 24),
   s.lanes r.st (fld w 0x14 4 0))

/-- Write the result of a VEC to DST unless its residue check fails (R86, R436), and set its flags. -/
def State.vecResult (s : State) (r : Run) (u : Upset) (rs : List (Nat × Nat)) : Nat × Nat × State :=
  let s := s.arith r.st (flagsOf rs)
  let x := s.residueUpset r.st u
  if x.1 ≠ stOk then (x.1, 0, x.2)
  else (stOk, crc64 ((valuesOf rs).flatMap (toLe 4)), x.2.setLanes r.st (fld r.w 0x10 12 8) (valuesOf rs))

/-- Run a VEC of one code on all lanes. -/
def State.runVec (s : State) (st : Nat) (u : Upset) (vop : Nat)
    (f : List Nat → List Nat → List Nat → List (Nat × Nat)) : State :=
  s.runHitch st 0x08 (isVop vop) u (fun _ _ => []) fun r s =>
    let (a, b, c) := s.sources r
    s.vecResult r u (f a b c)

/-- A lane-wise operation of one, two or three sources. -/
def lanes1 (f : Nat → Nat × Nat) (a _ _ : List Nat) : List (Nat × Nat) := a.map f
def lanes2 (f : Nat → Nat → Nat × Nat) (a b _ : List Nat) : List (Nat × Nat) := (a.zip b).map fun p => f p.1 p.2
def lanes3 (f : Nat → Nat → Nat → Nat × Nat) (a b c : List Nat) : List (Nat × Nat) :=
  ((a.zip b).zip c).map fun p => f p.1.1 p.1.2 p.2

/-- An integer or bitwise operation modulo 2^32, which sets no flag (R122). -/
def exact2 (f : Nat → Nat → Nat) (a b : Nat) : Nat × Nat := (f a b % 2 ^ 32, 0)

/-- PERMUTE: lane i takes SRC0 lane (SRC1 lane i mod 256) (R122). -/
def permuteLanes (a b : List Nat) : List (Nat × Nat) := b.map fun j => (a.getD (j % 256) 0, 0)

/-- One level of the lane tree (R88): adjacent pairs added. -/
def pairUp (f : Nat → Nat → Nat × Nat) (l : List Nat) : List (Nat × Nat) :=
  match l with
  | a :: b :: r => f a b :: pairUp f r
  | _ => []

/-- The fixed tree of n levels (R88): the sum and the union of the flags. -/
def treeLanes (f : Nat → Nat → Nat × Nat) (n : Nat) (l : List Nat) (fl : Nat) : Nat × Nat :=
  match n with
  | 0 => (l.headD 0, fl)
  | k + 1 =>
    let x := pairUp f l
    treeLanes f k (valuesOf x) (orBits fl (flagsOf x))

/-- SUM_LANES: the tree sum in every lane (R88, R122). -/
def sumLanes (n : Nat) (a : List Nat) : List (Nat × Nat) :=
  let x := treeLanes fadd n a 0
  a.map fun _ => x

/-- MAX_LANES and MIN_LANES: the result in every lane (R122). -/
def foldLanes (f : Nat → Nat → Nat × Nat) (a : List Nat) : List (Nat × Nat) :=
  let x := treeLanes f 8 a 0
  a.map fun _ => x

/-- ADD (R122, VOP 0x0). -/
def execVAdd (st : Fin 128) (u : Upset) (s : State) : Host.Outcome State Fault Refusal :=
  .next (s.runVec st.val u 0x0 (lanes2 fadd))

/-- SUB (R122, VOP 0x1). -/
def execVSub (st : Fin 128) (u : Upset) (s : State) : Host.Outcome State Fault Refusal :=
  .next (s.runVec st.val u 0x1 (lanes2 fsub))

/-- MUL (R122, VOP 0x2). -/
def execVMul (st : Fin 128) (u : Upset) (s : State) : Host.Outcome State Fault Refusal :=
  .next (s.runVec st.val u 0x2 (lanes2 fmul))

/-- FMA (R122, VOP 0x3). -/
def execVFma (st : Fin 128) (u : Upset) (s : State) : Host.Outcome State Fault Refusal :=
  .next (s.runVec st.val u 0x3 (lanes3 ffma))

/-- DIV (R122, VOP 0x4). -/
def execVDiv (st : Fin 128) (u : Upset) (s : State) : Host.Outcome State Fault Refusal :=
  .next (s.runVec st.val u 0x4 (lanes2 fdiv))

/-- SQRT (R122, VOP 0x5). -/
def execVSqrt (st : Fin 128) (u : Upset) (s : State) : Host.Outcome State Fault Refusal :=
  .next (s.runVec st.val u 0x5 (lanes1 fsqrt))

/-- RCP (R122, VOP 0x6). -/
def execVRcp (st : Fin 128) (u : Upset) (s : State) : Host.Outcome State Fault Refusal :=
  .next (s.runVec st.val u 0x6 (lanes1 frcp))

/-- RSQRT (R122, VOP 0x7). -/
def execVRsqrt (st : Fin 128) (u : Upset) (s : State) : Host.Outcome State Fault Refusal :=
  .next (s.runVec st.val u 0x7 (lanes1 frsqrt))

/-- EXP2 (R122, VOP 0x8). -/
def execVExp2 (st : Fin 128) (u : Upset) (s : State) : Host.Outcome State Fault Refusal :=
  .next (s.runVec st.val u 0x8 (lanes1 fexp2))

/-- LOG2 (R122, VOP 0x9). -/
def execVLog2 (st : Fin 128) (u : Upset) (s : State) : Host.Outcome State Fault Refusal :=
  .next (s.runVec st.val u 0x9 (lanes1 flog2))

/-- EXP (R122, VOP 0xa). -/
def execVExp (st : Fin 128) (u : Upset) (s : State) : Host.Outcome State Fault Refusal :=
  .next (s.runVec st.val u 0xa (lanes1 fexp))

/-- LOG (R122, VOP 0xb). -/
def execVLog (st : Fin 128) (u : Upset) (s : State) : Host.Outcome State Fault Refusal :=
  .next (s.runVec st.val u 0xb (lanes1 flog))

/-- TANH (R122, VOP 0xc). -/
def execVTanh (st : Fin 128) (u : Upset) (s : State) : Host.Outcome State Fault Refusal :=
  .next (s.runVec st.val u 0xc (lanes1 ftanh))

/-- SIGMOID (R122, VOP 0xd). -/
def execVSigmoid (st : Fin 128) (u : Upset) (s : State) : Host.Outcome State Fault Refusal :=
  .next (s.runVec st.val u 0xd (lanes1 fsigmoid))

/-- SILU (R122, VOP 0xe). -/
def execVSilu (st : Fin 128) (u : Upset) (s : State) : Host.Outcome State Fault Refusal :=
  .next (s.runVec st.val u 0xe (lanes1 fsilu))

/-- ERF (R122, VOP 0xf). -/
def execVErf (st : Fin 128) (u : Upset) (s : State) : Host.Outcome State Fault Refusal :=
  .next (s.runVec st.val u 0xf (lanes1 ferf))

/-- GELU (R122, VOP 0x10). -/
def execVGelu (st : Fin 128) (u : Upset) (s : State) : Host.Outcome State Fault Refusal :=
  .next (s.runVec st.val u 0x10 (lanes1 fgelu))

/-- SIN (R122, VOP 0x11). -/
def execVSin (st : Fin 128) (u : Upset) (s : State) : Host.Outcome State Fault Refusal :=
  .next (s.runVec st.val u 0x11 (lanes1 fsin))

/-- COS (R122, VOP 0x12). -/
def execVCos (st : Fin 128) (u : Upset) (s : State) : Host.Outcome State Fault Refusal :=
  .next (s.runVec st.val u 0x12 (lanes1 fcos))

/-- MIN (R122, VOP 0x18). -/
def execVMin (st : Fin 128) (u : Upset) (s : State) : Host.Outcome State Fault Refusal :=
  .next (s.runVec st.val u 0x18 (lanes2 fmin))

/-- MAX (R122, VOP 0x19). -/
def execVMax (st : Fin 128) (u : Upset) (s : State) : Host.Outcome State Fault Refusal :=
  .next (s.runVec st.val u 0x19 (lanes2 fmax))

/-- CMP_EQ (R122, VOP 0x1a). -/
def execVCmpEq (st : Fin 128) (u : Upset) (s : State) : Host.Outcome State Fault Refusal :=
  .next (s.runVec st.val u 0x1a (lanes2 (fcmp Num.eqv)))

/-- CMP_LT (R122, VOP 0x1b). -/
def execVCmpLt (st : Fin 128) (u : Upset) (s : State) : Host.Outcome State Fault Refusal :=
  .next (s.runVec st.val u 0x1b (lanes2 (fcmp Num.lt)))

/-- CMP_LE (R122, VOP 0x1c). -/
def execVCmpLe (st : Fin 128) (u : Upset) (s : State) : Host.Outcome State Fault Refusal :=
  .next (s.runVec st.val u 0x1c (lanes2 (fcmp fun x y => x.lt y || x.eqv y)))

/-- SELECT (R122, VOP 0x1d). -/
def execVSelect (st : Fin 128) (u : Upset) (s : State) : Host.Outcome State Fault Refusal :=
  .next (s.runVec st.val u 0x1d (lanes3 (fun a b c => (if c ≠ 0 then a else b, 0))))

/-- IADD (R122, VOP 0x20). -/
def execVIadd (st : Fin 128) (u : Upset) (s : State) : Host.Outcome State Fault Refusal :=
  .next (s.runVec st.val u 0x20 (lanes2 (exact2 fun a b => a + b)))

/-- ISUB (R122, VOP 0x21). -/
def execVIsub (st : Fin 128) (u : Upset) (s : State) : Host.Outcome State Fault Refusal :=
  .next (s.runVec st.val u 0x21 (lanes2 (exact2 fun a b => a + (2 ^ 32 - b))))

/-- IMUL (R122, VOP 0x22). -/
def execVImul (st : Fin 128) (u : Upset) (s : State) : Host.Outcome State Fault Refusal :=
  .next (s.runVec st.val u 0x22 (lanes2 (exact2 fun a b => a * b)))

/-- AND (R122, VOP 0x23). -/
def execVAnd (st : Fin 128) (u : Upset) (s : State) : Host.Outcome State Fault Refusal :=
  .next (s.runVec st.val u 0x23 (lanes2 (exact2 fun a b => a &&& b)))

/-- OR (R122, VOP 0x24). -/
def execVOr (st : Fin 128) (u : Upset) (s : State) : Host.Outcome State Fault Refusal :=
  .next (s.runVec st.val u 0x24 (lanes2 (exact2 fun a b => a ||| b)))

/-- XOR (R122, VOP 0x25). -/
def execVXor (st : Fin 128) (u : Upset) (s : State) : Host.Outcome State Fault Refusal :=
  .next (s.runVec st.val u 0x25 (lanes2 (exact2 fun a b => a ^^^ b)))

/-- SHL (R122, VOP 0x26). -/
def execVShl (st : Fin 128) (u : Upset) (s : State) : Host.Outcome State Fault Refusal :=
  .next (s.runVec st.val u 0x26 (lanes2 (exact2 fun a b => a * 2 ^ (b % 32))))

/-- SHR (R122, VOP 0x27). -/
def execVShr (st : Fin 128) (u : Upset) (s : State) : Host.Outcome State Fault Refusal :=
  .next (s.runVec st.val u 0x27 (lanes2 (exact2 fun a b => a / 2 ^ (b % 32))))

/-- SAR (R122, VOP 0x28). -/
def execVSar (st : Fin 128) (u : Upset) (s : State) : Host.Outcome State Fault Refusal :=
  .next (s.runVec st.val u 0x28 (lanes2 (exact2 fun a b => twos 32 (sext 32 a / (2 ^ (b % 32) : Nat)))))

/-- PERMUTE (R122, VOP 0x30). -/
def execVPermute (st : Fin 128) (u : Upset) (s : State) : Host.Outcome State Fault Refusal :=
  .next (s.runVec st.val u 0x30 (fun a b _ => permuteLanes a b))

/-- SUM_LANES (R122, VOP 0x38). -/
def execVSumLanes (st : Fin 128) (u : Upset) (s : State) : Host.Outcome State Fault Refusal :=
  .next (s.runVec st.val u 0x38 (fun a b _ => (fun a _ => sumLanes 8 a) a b))

/-- MAX_LANES (R122, VOP 0x39). -/
def execVMaxLanes (st : Fin 128) (u : Upset) (s : State) : Host.Outcome State Fault Refusal :=
  .next (s.runVec st.val u 0x39 (fun a b _ => (fun a _ => foldLanes fmax a) a b))

/-- MIN_LANES (R122, VOP 0x3a). -/
def execVMinLanes (st : Fin 128) (u : Upset) (s : State) : Host.Outcome State Fault Refusal :=
  .next (s.runVec st.val u 0x3a (fun a b _ => (fun a _ => foldLanes fmin a) a b))

/-- CVT_F2I (R122, VOP 0x40). -/
def execVCvtF2i (st : Fin 128) (u : Upset) (s : State) : Host.Outcome State Fault Refusal :=
  .next (s.runVec st.val u 0x40 (lanes1 cvtF2i))

/-- CVT_I2F (R122, VOP 0x41). -/
def execVCvtI2f (st : Fin 128) (u : Upset) (s : State) : Host.Outcome State Fault Refusal :=
  .next (s.runVec st.val u 0x41 (lanes1 cvtI2f))

/-! VLOAD and VSTORE (R85) -/

/-- The memory formats of VLOAD and VSTORE (R122). -/
def vmemFmt (c : Nat) : Option Fmt := if c = 0 ∨ c = 1 ∨ (5 ≤ c ∧ c ≤ 9) then Fmt.ofCode c else none

/-- A VLOAD or VSTORE breaks an operand-area rule (R122). -/
def vmemBad (w : HitchWord) : Bool :=
  fld w 0x10 7 5 != 0 || fld w 0x10 31 12 != 0 || fld w 0x14 31 21 != 0 || !(zeroBytes w 0x18 0x40) ||
    (vmemFmt (fld w 0x10 11 8)).isNone

/-- Widen an element to a register word (R61, R85). -/
def widen (f : Fmt) (code : Nat) : Nat :=
  if f.isInt then twos 32 (sext f.width code)
  else if f = .fp32 then code
  else (Fmt.fp32.encode false .rne (f.decode false code)).1

/-- Narrow a register word to a memory format (R62, R85): FP32 stores unchanged, as it loads (log entry 26). -/
def narrow (f : Fmt) (sat : Bool) (r : Rnd) (word : Nat) : Nat × Nat :=
  if f.isInt then encodeInt f.width .rne (Num.ofInt (sext 32 word) 0)
  else if f = .fp32 then (word, 0)
  else f.encode sat r (dec32 word)

/-- VLOAD (R85): 256 elements widened exactly into a register. -/
def execVload (st : Fin 128) (u : Upset) (s : State) : Host.Outcome State Fault Refusal :=
  .next (s.runHitch st.val 0x09 (fun _ => true) u
      (fun r _ => [(fld r.w 0x14 20 0, 32 * ((vmemFmt (fld r.w 0x10 11 8)).getD .fp32).width)]) fun r s =>
    let f := (vmemFmt (fld r.w 0x10 11 8)).getD .fp32
    let addr := fld r.w 0x14 20 0
    if !(inScratch addr (32 * f.width)) then (stAddrInvalid, 0, s)
    else
      let row := s.peekLe (r.place 0 addr) (32 * f.width)
      let vs := (upTo 256).map fun i => widen f (elemAt f.width row i)
      let x := s.residueUpset r.st u
      if x.1 ≠ stOk then (x.1, 0, x.2)
      else (stOk, crc64 (vs.flatMap (toLe 4)), x.2.setLanes r.st (fld r.w 0x10 4 0) vs))

/-- VSTORE (R85): 256 register words narrowed into scratch. -/
def execVstore (st : Fin 128) (u : Upset) (s : State) : Host.Outcome State Fault Refusal :=
  .next (s.runHitch st.val 0x0A (fun _ => true) u (fun _ _ => []) fun r s =>
    let f := (vmemFmt (fld r.w 0x10 11 8)).getD .fp32
    let addr := fld r.w 0x14 20 0
    if !(inScratch addr (32 * f.width)) then (stAddrInvalid, 0, s)
    else
      let x := s.residueUpset r.st u
      if x.1 ≠ stOk then (x.1, 0, x.2)
      else
        let s := x.2
        let rs := s.rounding r 0 256
        let es := (rs.zip (s.lanes r.st (fld r.w 0x10 4 0))).map fun p => narrow f (hSat r.w) p.1 p.2
        let bs := packElems f.width (valuesOf es)
        (stOk, crc64 bs, (((s.usedRandom r 256).put (r.place 0 addr) bs).arith r.st (flagsOf es))))

/-! CONVERT (R61 to R63, R122) -/

/-- A source format of CONVERT: what R119 permits as an operand or as an output, Raw excepted (R122). -/
def convertSrc (c : Nat) (mx : Bool) : Option Fmt :=
  if c = 15 then none
  else match operandFmt c mx with
    | some f => some f
    | none => outputFmt c mx
/-- A destination format of CONVERT (R122). -/
def convertDst (c : Nat) (mx : Bool) : Option Fmt := if c = 15 then none else outputFmt c mx

/-- A CONVERT breaks an operand-area rule (R122). -/
def convertBad (w : HitchWord) : Bool :=
  let sm := flag w 0x24 4
  let dm := flag w 0x24 12
  let n := fld w 0x20 20 0
  fld w 0x10 31 21 != 0 || fld w 0x14 31 21 != 0 || fld w 0x18 31 21 != 0 || fld w 0x1C 31 21 != 0 ||
    fld w 0x20 31 21 != 0 || fld w 0x24 7 5 != 0 || fld w 0x24 31 13 != 0 || !(zeroBytes w 0x28 0x40) ||
    (convertSrc (fld w 0x24 3 0) sm).isNone || (convertDst (fld w 0x24 11 8) dm).isNone ||
    n == 0 || decide (1048576 < n) || ((sm || dm) && n % 32 != 0) ||
    fld w 0x10 5 0 != 0 || fld w 0x18 5 0 != 0 || (sm && fld w 0x14 5 0 != 0) || (dm && fld w 0x1C 5 0 != 0)

/-- Whether an MX element type is exact into another, so that the block scale is kept (R61). A CONVERT of a type into itself is
not in R61's table: it keeps the scale too (DESIGN CHOICE, log entry 65). -/
def mxKeeps (a b : Fmt) : Bool :=
  a == b ||
    match a with
    | .e2m1 => b == .e2m3 || b == .e3m2 || b == .e4m3 || b == .e5m2
    | .e2m3 => b == .e4m3
    | .e3m2 => b == .e4m3 || b == .e5m2
    | _ => false

/-- Whether a plain format converts exactly into another, infinities included, so that SAT has no say (R61). A conversion of a
format into itself is not in R61's table and follows R62 (DESIGN CHOICE, log entry 65). -/
def exactInto (a b : Fmt) : Bool :=
  match a with
  | .e4m3 => b == .bf16 || b == .fp16 || b == .fp32
  | .e5m2 => b == .bf16 || b == .fp16 || b == .fp32
  | .bf16 => b == .fp32
  | .fp16 => b == .fp32
  | _ => false

/-- One block of 32 of a CONVERT into an MX destination: a kept scale or a computed one (R57, R61, R62). -/
def convertBlock (fs fd : Fmt) (sm : Bool) (scale : Nat) (codes : List Nat) (rs : List Rnd) : Nat × List Nat × Nat :=
  let plain := codes.map fun c => fs.decode sm c
  if sm && mxKeeps fs fd then
    if scale = 0xFF || !(plain.all Num.isFin) then
      (0xFF, codes.map fun _ => 0, orBits flagScale (if scale = 0xFF then 0 else infNan plain))
    else
      let es := plain.map fun v => fd.encodeElem .rne 0 v
      (scale, valuesOf es, 0)
  else
    let vs := plain.map fun v => if sm then v.scaled scale else v
    let b := fd.encodeBlock rs vs
    if sm && scale = 0xFF then (b.1, b.2.1, orBits b.2.2 flagScale) else b

/-- The effect of a CONVERT (R122). -/
def State.convertBody (s : State) (r : Run) (u : Upset) : Nat × Nat × State :=
  let w := r.w
  let sm := flag w 0x24 4
  let dm := flag w 0x24 12
  let fs := (convertSrc (fld w 0x24 3 0) sm).getD .fp32
  let fd := (convertDst (fld w 0x24 11 8) dm).getD .fp32
  let n := fld w 0x20 20 0
  let sa := fld w 0x10 20 0
  let ss := fld w 0x14 20 0
  let da := fld w 0x18 20 0
  let ds := fld w 0x1C 20 0
  let ok := inScratch sa (packedBytes fs.width n) && inScratch da (packedBytes fd.width n) &&
    (!sm || inScratch ss (n / 32)) && (!dm || inScratch ds (n / 32))
  if !ok then (stAddrInvalid, 0, s)
  else
    let x := s.residueUpset r.st u
    if x.1 ≠ stOk then (x.1, 0, x.2)
    else
      let s := x.2
      let row := s.peekLe (r.place 0 sa) (packedBytes fs.width n)
      let codes := (upTo n).map fun i => elemAt fs.width row i
      let rs := s.rounding r 0 n
      let s := s.usedRandom r n
      let scales := (upTo (n / 32)).map fun b => s.peekLe (r.place 0 (ss + b)) 1
      if dm then
        let cb := blocksOf n 32 codes
        let rb := blocksOf n 32 rs
        let out := (upTo cb.length).map fun b =>
          convertBlock fs fd sm (if sm then scales.getD b 0 else 127) (cb.getD b []) (rb.getD b [])
        let ws := [(r.place 0 da, packElems fd.width (out.flatMap fun b => b.2.1)),
          (r.place 0 ds, out.map fun b => BitVec.ofNat 8 b.1)]
        (stOk, writesDigest ws, (s.putAll ws).arith r.st ((out.map fun b => b.2.2).foldl orBits 0))
      else
        let es := (upTo n).map fun i =>
          let v := fs.decode sm (codes.getD i 0)
          fd.encode (hSat w && (sm || !(exactInto fs fd))) (rs.getD i .rne) (if sm then v.scaled (scales.getD (i / 32) 0) else v)
        let fl := flagsOf es
        let fl := if sm && scales.contains 0xFF then orBits fl flagScale else fl
        let ws := [(r.place 0 da, packElems fd.width (valuesOf es))]
        (stOk, writesDigest ws, (s.putAll ws).arith r.st fl)

/-- The ranges of scratch that a CONVERT reads (R122). -/
def convertReads (w : HitchWord) : List (Nat × Nat) :=
  let sm := flag w 0x24 4
  let n := fld w 0x20 20 0
  (fld w 0x10 20 0, packedBytes ((convertSrc (fld w 0x24 3 0) sm).getD .fp32).width n) ::
    (if sm then [(fld w 0x14 20 0, n / 32)] else [])

/-- CONVERT (R122). -/
def execConvert (st : Fin 128) (u : Upset) (s : State) : Host.Outcome State Fault Refusal :=
  .next (s.runHitch st.val 0x0B (fun _ => true) u (fun r _ => convertReads r.w) fun r s => s.convertBody r u)

/-! MOVE (R122, R123) -/

/-- A MOVE breaks an operand-area rule (R122). -/
def moveBad (w : HitchWord) : Bool :=
  let n := fld w 0x20 24 0
  fld w 0x10 5 0 != 0 || fld w 0x18 5 0 != 0 || fld w 0x20 31 25 != 0 || n == 0 || n % 64 != 0 ||
    decide (16777216 < n) || fld w 0x24 1 0 == 3 || fld w 0x24 3 2 == 3 || fld w 0x24 31 4 != 0 ||
    !(zeroBytes w 0x28 0x40)

/-- Whether a MOVE side lies in its space (R120, R123). -/
def State.moveSideOk (s : State) (r : Run) (space a n : Nat) : Bool :=
  if space = 2 then s.pmaOk r.p a n else inSpace space a n

/-- The effect of a MOVE: the source is read, then written; a mirror copy writes no partition memory (R447). -/
def State.moveBody (s : State) (r : Run) (u : Upset) : Nat × Nat × State :=
  let w := r.w
  let n := fld w 0x20 24 0
  let sa := fld w 0x10 63 0
  let da := fld w 0x18 63 0
  let sp := fld w 0x24 1 0
  let dp := fld w 0x24 3 2
  if !(s.moveSideOk r sp sa n && s.moveSideOk r dp da n) then (stAddrInvalid, 0, s)
  else
    let src := if sp = 2 then s.fetchP (some r.die) r.p sa n u.mem else (stOk, s.peek (r.place sp sa) n, s)
    if src.1 ≠ stOk then (src.1, 0, src.2.2)
    else
      let bs := src.2.1
      let s := src.2.2
      if dp = 2 then
        if s.mirror r then (stOk, crc64 bs, s)
        else
          let y := s.storeP (some r.die) r.p da bs u.mem
          (y.1, crc64 bs, y.2)
      else (stOk, crc64 bs, s.put (r.place dp da) bs)

/-- MOVE (R123). -/
def execMove (st : Fin 128) (u : Upset) (s : State) : Host.Outcome State Fault Refusal :=
  .next (s.runHitch st.val 0x10 (fun _ => true) u
    (fun r _ => rowReads (fld r.w 0x24 1 0) (fld r.w 0x10 63 0) 0 1 (fld r.w 0x20 24 0)) fun r s => s.moveBody r u)

/-! TELLTALE (R463, R464) -/

/-- A TELLTALE breaks an operand-area rule (R463). -/
def telltaleBad (w : HitchWord) : Bool :=
  let n := fld w 0x18 13 0
  fld w 0x10 31 24 != 0 || fld w 0x14 31 23 != 0 || n == 0 || decide (8192 < n) || fld w 0x18 31 14 != 0 ||
    fld w 0x20 3 0 != 0 || !(zeroBytes w 0x28 0x40)

/-- The effect of a TELLTALE: the CRC of BLOCK and of the rows, written with STEP and BLOCK at ENTRY (R464). -/
def State.telltaleBody (s : State) (r : Run) (u : Upset) : Nat × Nat × State :=
  let w := r.w
  let sp := fld w 0x10 23 23
  let a := fld w 0x10 22 0
  let str := 16 * fld w 0x14 15 0
  let rows := fld w 0x14 22 16 + 1
  let n := fld w 0x18 13 0
  let blk := fld w 0x1C 31 0
  let entry := fld w 0x20 63 0
  if !(inSpace sp (rowsEnd a str rows n) 0 && s.pmaOk r.p entry 16) then (stAddrInvalid, 0, s)
  else
    let data := toLe 4 blk ++ (upTo rows).flatMap fun i => s.peek (r.place sp (a + i * str)) n
    let bs := toLe 8 (crc64 data) ++ toLe 4 ((s.step r.p).counter % 2 ^ 32) ++ toLe 4 blk
    if s.mirror r then (stOk, crc64 bs, s)
    else
      let y := s.storeP (some r.die) r.p entry bs u.mem
      (y.1, crc64 bs, y.2)

/-- TELLTALE (R464). -/
def execTelltale (st : Fin 128) (u : Upset) (s : State) : Host.Outcome State Fault Refusal :=
  .next (s.runHitch st.val 0x38 (fun _ => true) u
    (fun r _ => rowReads (fld r.w 0x10 23 23) (fld r.w 0x10 22 0) (16 * fld r.w 0x14 15 0) (fld r.w 0x14 22 16 + 1)
      (fld r.w 0x18 13 0)) fun r s => s.telltaleBody r u)

/-- SCRUB_READ (R91, R92): the scrubber reads the next line in address order; one flipped bit is corrected, two are
counted and recorded without failing a hitch, and the next hitch that reads the line fails. It does nothing while disabled. -/
def execScrubRead (st : Fin 128) (bits : Nat) (s : State) : Host.Outcome State Fault Refusal :=
  let i := st.val
  .next (
    if !(bit (s.reg (Reg.strScrubCtrl i)) 0) then s
    else
      let line := (s.strand i).scrubLine
      let s := match bits with
        | 0 => s
        | 1 => (s.inc (Reg.strScratchEccCorrCount i)).modStrand i fun x =>
            { x with writebacks := x.writebacks ++ [line] }
        | _ => s.badScratch i line
      if line + 1 < 32768 then s.modStrand i fun x => { x with scrubLine := line + 1 }
      else s.modStrand i fun x => { x with scrubLine := 0, passes := (x.passes + 1) % 2 ^ 32 })

/-- SCRATCH_WRITEBACK (R91): a corrected line waits no longer. -/
def execScratchWriteback (st : Fin 128) (line : Nat) (s : State) : Host.Outcome State Fault Refusal :=
  .next (s.modStrand st.val fun x => { x with writebacks := x.writebacks.erase line })

end Sys2Proof.Machine
end

