-- ==== Sys2Proof/Machine/Attention.lean ====
section
/-! DEFINITION. The attention sequencer (chapter 7): the operand area, parameter block and length table of ATTN, page
descriptors, the score buffer and its spill, and the passes of FORWARD and BACKWARD. A row is reduced in accumulators of
its own, and a masked position gives no product, so that its result does not depend on its tile (R204, R216; log entry
27). -/

namespace Sys2Proof.Machine

/-- A page descriptor (R235). -/
structure Desc where
  addr : Nat
  page : Nat
  bight : Bool
  pos0 : Nat
  count : Nat
  fmt : Nat
  mx : Bool
  d32 : Nat
  ct : Bool
  deriving DecidableEq, Repr

/-- The 32 bytes of a descriptor. -/
def Desc.bytes (d : Desc) : List Byte :=
  toLe 8 d.addr ++ toLe 4 (d.page + (if d.bight then 2 ^ 31 else 0)) ++ toLe 4 d.pos0 ++ toLe 4 d.count ++
    toLe 4 (d.fmt + 16 * b2n d.mx + 32 * d.d32 + 256 * b2n d.ct) ++ toLe 8 0

/-- Read a descriptor. -/
def Desc.parse (bs : List Byte) : Desc :=
  let tag := leAt bs 0x14 4
  { addr := leAt bs 0 8, page := leAt bs 8 4 % 2 ^ 22, bight := bit (leAt bs 8 4) 31, pos0 := leAt bs 0xC 4,
    count := leAt bs 0x10 4, fmt := bits tag 3 0, mx := bit tag 4, d32 := bits tag 7 5, ct := bit tag 8 }

/-! Page layout (R229) -/

/-- Bytes of an element row of a tag: width in bits and head dimension. -/
def rowPitch (width d : Nat) : Nat := 16 * ((d * width + 127) / 128)
/-- Bytes of the scales of a row. -/
def scaleBytes (mx : Bool) (d : Nat) : Nat := if mx then d / 32 else 0
/-- Positions of a page half (R229). -/
def pageCap (width : Nat) (mx : Bool) (d : Nat) : Nat := 32768 / (rowPitch width d + scaleBytes mx d)
/-- Slots of a bight entry (R238). -/
def bightSlots (width : Nat) (mx : Bool) (d : Nat) : Nat :=
  let n := rowPitch width d + scaleBytes mx d
  if n ≤ 128 then 1 else if n ≤ 256 then 2 else 4
/-- The width of a format code. -/
def codeWidth (c : Nat) : Nat := ((Fmt.ofCode c).getD .bf16).width

/-- The elements of a packed row under its scales. -/
def rowNums (f : Fmt) (mx : Bool) (k : Nat) (row scales : List Byte) : List Num :=
  let n := ofLe row
  (upTo k).map fun i =>
    let x := f.decode mx (elemAt f.width n i)
    if mx then x.scaled (leAt scales (i / 32) 1) else x

/-- The bight region of a partition on a die that is in force (R239, R258). -/
def State.bightRegion (s : State) (d p : Nat) : Nat := nget s.kv.regionForce (16 * d + p)

/-- Whether a slot range lies in a partition's bight region of a die (R239). -/
def State.inBight (s : State) (d p slot n : Nat) : Bool :=
  let r := s.bightRegion d p
  decide (r % 65536 ≤ slot ∧ slot + n ≤ r % 65536 + r / 65536)

/-- SCALE_NAN where one of the scales read is 0xFF (R58, R69). -/
def State.noteScales (s : State) (st : Nat) (sc : List Byte) : State :=
  if sc.any fun b => b.toNat == 0xFF then s.arith st flagScale else s

/-- Read n rows from row p0 of a half (0 keys, 1 values) of what a descriptor names: from its page, or from its bight
entry on the strand's die. -/
def State.descRows (s : State) (r : Run) (d : Desc) (half p0 n : Nat) (errs : List (Nat × ReadErr)) :
    Nat × List (List Num) × State :=
  let f := (Fmt.ofCode d.fmt).getD .bf16
  let dim := 32 * (d.d32 + 1)
  let rp := rowPitch f.width dim
  let sb := scaleBytes d.mx dim
  let rows (bs sc : List Byte) : List (List Num) :=
    (upTo n).map fun i => rowNums f d.mx dim ((bs.drop (i * rp)).take rp) ((sc.drop (i * sb)).take sb)
  if d.bight then
    let k := bightSlots f.width d.mx dim
    if !(s.inBight r.die r.p (d.addr / 256) k) then (stAddrInvalid, [], s)
    else
      let a := bightBase r.die + d.addr + half * k * 128
      (stOk, rows (s.peek a rp) (s.peek (a + rp) sb), s.noteScales r.st (s.peek (a + rp) sb))
  else
    let base := d.addr + half * 32768
    let x := s.fetchP (some r.die) r.p (base + p0 * rp) (n * rp) errs
    if x.1 ≠ stOk then (x.1, [], x.2.2)
    else
      let y := x.2.2.fetchP (some r.die) r.p (base + pageCap f.width d.mx dim * rp + p0 * sb) (n * sb) errs
      if y.1 ≠ stOk then (y.1, [], y.2.2) else (stOk, rows x.2.1 y.2.1, y.2.2.noteScales r.st y.2.1)

/-- Read the rows of positions lo to lo + n − 1 through a descriptor list. -/
def State.kvRows (s : State) (r : Run) (ds : List Desc) (half lo n : Nat) (errs : List (Nat × ReadErr)) :
    Nat × List (List Num) × State :=
  match ds with
  | [] => (stOk, [], s)
  | d :: rest =>
    let a := max lo d.pos0
    let b := min (lo + n) (d.pos0 + d.count)
    if a < b then
      let x := s.descRows r d half (a - d.pos0) (b - a) errs
      if x.1 ≠ stOk then x
      else
        let y := x.2.2.kvRows r rest half lo n errs
        (y.1, x.2.1 ++ y.2.1, y.2.2)
    else s.kvRows r rest half lo n errs

/-- Read the descriptors of a list until they name `need` positions (R218, R219): KV_SHORT when the next one does not
continue it, KV_FORMAT when its tag is no operand format or its head dimension is another (log entry 28). -/
def State.readDescs (fuel : Nat) (s : State) (r : Run) (at_ next need dqk : Nat) (errs : List (Nat × ReadErr)) :
    Nat × List Desc × State :=
  match fuel with
  | 0 => (stOk, [], s)
  | k + 1 =>
    if need ≤ next then (stOk, [], s)
    else
      let x := s.fetchP (some r.die) r.p at_ 32 errs
      if x.1 ≠ stOk then (x.1, [], x.2.2)
      else
        let d := Desc.parse x.2.1
        if d.pos0 ≠ next ∨ d.count = 0 then (stKvShort, [], x.2.2)
        else if (operandFmt d.fmt d.mx).isNone ∨ 32 * (d.d32 + 1) ≠ dqk then (stKvFormat, [], x.2.2)
        else
          let y := State.readDescs k x.2.2 r (at_ + 32) (next + d.count) need dqk errs
          (y.1, d :: y.2.1, y.2.2)

/-! The hitch (R198 to R201) -/

/-- The probability formats of P_FMT. -/
def probFmt (c : Nat) : Option Fmt := if c = 0 ∨ c = 1 ∨ c = 7 ∨ c = 8 then Fmt.ofCode c else none

/-- An ATTN hitch breaks a field rule of R198 (R201). -/
def attnBad (w : HitchWord) : Bool :=
  decide (1 < fld w 0x10 1 0) || flag w 0x10 7 || fld w 0x10 15 13 != 0 || fld w 0x10 31 25 != 0 ||
    flag w 0x14 7 || fld w 0x14 31 12 != 0 ||
    fld w 0x18 31 23 != 0 || fld w 0x1C 31 23 != 0 || fld w 0x20 31 23 != 0 || fld w 0x28 31 23 != 0 ||
    fld w 0x2C 31 23 != 0 || fld w 0x30 31 21 != 0 ||
    fld w 0x28 5 0 != 0 || fld w 0x2C 5 0 != 0 || fld w 0x30 5 0 != 0 || fld w 0x38 5 0 != 0 ||
    (operandFmt (fld w 0x10 11 8) (flag w 0x10 12)).isNone || (probFmt (fld w 0x10 19 16)).isNone ||
    (outputFmt (fld w 0x10 23 20) (flag w 0x10 24)).isNone || fld w 0x10 23 20 == 15 ||
    fld w 0x14 11 8 == 0 || decide (8 < fld w 0x14 11 8) || (flag w 0x10 6 && decide (fld w 0x14 11 8 ≤ 4)) ||
    fld w 0x2C 22 0 == 0

/-- The fields of a hitch and its parameter block. -/
structure Attn where
  save : Bool
  qs : Nat
  os : Nat
  ss : Nat
  vh : Nat
  qf : Fmt
  qmx : Bool
  pf : Fmt
  of_ : Fmt
  omx : Bool
  g : Nat
  dqk : Nat
  dv : Nat
  q : Nat
  qsc : Nat
  out : Nat
  qstr : Nat
  ostr : Nat
  score : Nat
  sbytes : Nat
  work : Nat
  scale : Nat
  lenTable : Nat
  spill : Nat
  spillRow : Nat
  n : Nat
  stats : Nat
  pOut : Nat
  dsOut : Nat
  outRow : Nat
  osc : Nat
  dO : Nat
  o : Nat
  deriving DecidableEq, Repr

/-- Gather the fields of a hitch and its parameter block. -/
def Attn.of (w : HitchWord) (b : List Byte) : Attn :=
  let d := 32 * fld w 0x14 11 8
  let vh := fld w 0x10 6 6
  { save := flag w 0x10 2, qs := fld w 0x10 3 3, os := fld w 0x10 4 4, ss := fld w 0x10 5 5, vh := vh,
    qf := (Fmt.ofCode (fld w 0x10 11 8)).getD .bf16, qmx := flag w 0x10 12,
    pf := (Fmt.ofCode (fld w 0x10 19 16)).getD .bf16, of_ := (Fmt.ofCode (fld w 0x10 23 20)).getD .bf16,
    omx := flag w 0x10 24, g := fld w 0x14 6 0 + 1, dqk := d, dv := min 128 (d - 128 * vh),
    q := fld w 0x18 22 0, qsc := fld w 0x1C 22 0, out := fld w 0x20 22 0, qstr := 16 * fld w 0x24 15 0,
    ostr := 16 * fld w 0x24 31 16, score := fld w 0x28 22 0, sbytes := fld w 0x2C 22 0, work := fld w 0x30 20 0,
    scale := fld w 0x34 31 0, lenTable := leAt b 0 8, spill := leAt b 8 8, spillRow := leAt b 0x10 4,
    n := leAt b 0x14 2, stats := leAt b 0x18 8, pOut := leAt b 0x20 8, dsOut := leAt b 0x28 8,
    outRow := leAt b 0x30 4, osc := leAt b 0x34 4 % 2 ^ 23, dO := leAt b 0x38 4 % 2 ^ 23, o := leAt b 0x3C 4 % 2 ^ 23 }

/-- A length table entry (R200). -/
structure LenEntry where
  list : Nat
  row0 : Nat
  qlen : Nat
  kv : Nat
  pos0 : Nat
  window : Nat
  flags : Nat
  deriving DecidableEq, Repr

/-- Read a length table entry. -/
def LenEntry.parse (b : List Byte) : LenEntry :=
  { list := leAt b 0 8, row0 := leAt b 8 4, qlen := leAt b 0xC 4, kv := leAt b 0x10 4, pos0 := leAt b 0x14 4,
    window := leAt b 0x18 4, flags := leAt b 0x1C 4 }

/-- Position j is visible to a row at query position q (R214). -/
def LenEntry.sees (e : LenEntry) (q j : Nat) : Bool :=
  decide (j < e.kv) && (!(bit e.flags 0) || decide (j ≤ q)) && (e.window == 0 || decide (q < j + e.window))

/-- A range of bytes of a space: space, first byte, bytes. -/
abbrev Area := Nat × Nat × Nat

/-- Two areas share a byte of one space. -/
def areasMeet (a b : Area) : Bool :=
  a.1 == b.1 && a.2.2 != 0 && b.2.2 != 0 && decide (a.2.1 < b.2.1 + b.2.2 ∧ b.2.1 < a.2.1 + a.2.2)

/-- Some area of one list meets some area of another. -/
def anyMeet (a b : List Area) : Bool := a.any fun x => b.any fun y => areasMeet x y

/-- The areas of `rows` rows from row r0 at a stride; what lies between two rows belongs to neither. -/
def rowAreas (space addr stride r0 rows bytes : Nat) : List Area :=
  (upTo rows).map fun i => (space, addr + (r0 + i) * stride, bytes)

/-- The score buffer and the work area (R198). -/
def Attn.fixedAreas (c : Attn) : Area × Area := ((c.ss, c.score, c.sbytes), (0, c.work, 393216))
/-- The areas of query rows and of output rows, scales included. -/
def Attn.qAreas (c : Attn) (r0 n : Nat) : List Area :=
  rowAreas c.qs c.q c.qstr r0 n (packedBytes c.qf.width c.dqk) ++
    (if c.qmx then rowAreas c.qs c.qsc (c.dqk / 32) r0 n (c.dqk / 32) else [])
def Attn.outAreas (c : Attn) (r0 n : Nat) : List Area :=
  rowAreas c.os c.out c.ostr r0 n (packedBytes c.of_.width c.dv) ++
    (if c.omx then rowAreas c.os c.osc (c.dv / 32) r0 n (c.dv / 32) else [])

/-- Whether an area lies in its space. -/
def areaOk (a : Area) : Bool := a.2.2 == 0 || inSpace a.1 a.2.1 a.2.2

/-- The resident width W of an entry (R211). -/
def LenEntry.resident (e : LenEntry) : Nat := min 32768 (128 * ((e.kv + 127) / 128))

/-- The check of an entry (R200 to R202, R211, R212): its status before any of its rows. Q and the output are those of the entries
reached so far, of which `qs` and `os` hold the earlier ones'. -/
def Attn.entryStatus (c : Attn) (bwd : Bool) (e : LenEntry) (qs os : List Area) : Nat :=
  let n := e.qlen * c.g
  let (sc, wk) := c.fixedAreas
  let qa := c.qAreas e.row0 n
  let oa := c.outAreas e.row0 n
  if 1048576 < e.qlen ∨ 1048576 < e.kv ∨ 1 < e.flags then stMalformed
  else if e.kv ≠ 0 ∧ c.sbytes < 4 * e.resident then stMalformed
  else if anyMeet qa [sc, wk] || anyMeet oa [sc, wk] || anyMeet qa (oa ++ os) || anyMeet qs oa then stMalformed
  else if 32768 < e.kv ∧ c.spillRow < 4 * (e.kv - 32768) then stAddrInvalid
  else if e.qlen = 0 then stOk
  else if 65536 < e.row0 + n then stAddrInvalid
  else if !(qa.all areaOk && oa.all areaOk && areaOk sc && areaOk wk) then stAddrInvalid
  else if bwd && !((rowAreas c.os c.dO c.ostr e.row0 n (packedBytes c.of_.width c.dv)).all areaOk &&
      (rowAreas c.os c.o c.ostr e.row0 n (packedBytes c.of_.width c.dv)).all areaOk) then stAddrInvalid
  else stOk

/-! The run of a hitch -/

/-- What a running ATTN hitch has gathered: the state, its status, whether something was lost, CLK_ARITH cycles (all, and
of the array), bytes spilled, the upset that still has to meet a check, the bytes read from strand scratch, and the areas of
the query and output rows of the entries reached. -/
structure AttnRun where
  s : State
  status : Nat
  lost : Bool
  cycles : Nat
  array : Nat
  spilled : Nat
  u : Upset
  read : List (Nat × List Byte)
  qSeen : List Area
  oSeen : List Area
  deriving DecidableEq, Repr

/-- Continue while no status blocks. -/
def AttnRun.andThen (a : AttnRun) (f : AttnRun → AttnRun) : AttnRun := if isBlocking a.status then a else f a

/-- Fold a list of stages. -/
def AttnRun.each {α : Type} (a : AttnRun) (l : List α) (f : AttnRun → α → AttnRun) : AttnRun :=
  foldS (fun a x => a.andThen fun a => f a x) a l

/-- Change the state of a run. -/
def AttnRun.on (a : AttnRun) (f : State → State) : AttnRun := { a with s := f a.s }

/-- Reduce one row: its A values against the columns at each reduction index. -/
def Acc.reduceRow (a : Acc) (as_ : List Num) (bks : List (List Num)) : Acc :=
  foldS (fun a p => a.stepK [p.1] p.2) a (as_.zip bks)

/-- The columns of a list of rows. -/
def transposed (n : Nat) (rows : List (List Num)) : List (List Num) :=
  (upTo n).map fun k => rows.map fun x => x.getD k Num.zero

/-- Some column of an array lost bits. -/
def Acc.anyLost (a : Acc) : Bool := a.cols.any fun c => c.2.lost

/-- Some column among those marked, by their order, lost bits: of a block of keys only the positions that the row sees
(R204, R210, R216). -/
def Acc.lostAmong (a : Acc) (seen : List Bool) : Bool :=
  ((upTo seen.length).zip seen).any fun p => p.2 && (a.col p.1).lost

/-- The check of one internal product, row by row (R78, R81, R84, R197), with the upset where it strikes this one; the residue of
the vector operations that follow is checked with it (R86). Once a row has met a non-finite operand, the classification alone
is checked (R81). -/
def AttnRun.check (a : AttnRun) (r : Run) (accs : List Acc) : AttnRun :=
  let now := a.u.check == 0
  let u := if now then a.u else Upset.none
  let a := { a with u := if now then { Upset.none with mem := a.u.mem } else { a.u with check := a.u.check - 1 } }
  let st := r.st
  let accs := (upTo accs.length).zip accs |>.map fun p =>
    p.2.upset { Upset.none with
      anchor := u.anchor,
      flip := match u.flip with
        | some (i, c, d) => if i = p.1 then some (0, c, d) else none
        | none => none }
  let s := a.s.bump (Reg.strAccEccCorrCount st) u.accCorr
  let part := accs.any fun x => !(x.nonFinite.isEmpty)
  let s := if part then s.inc (Reg.strTilePartialCount st) else s
  let classBad := part && accs.any fun x => !(x.classified)
  let rows := ((upTo accs.length).zip accs).filter fun p => !part && !(p.2.badRows.isEmpty)
  let cols := if part then [] else accs.flatMap fun x => x.badCols
  let corner := !part && u.corner % checkPrime != 0
  if u.accBad then { a with status := stAccEcc, s := s.inc (Reg.strAccEccUncorrCount st) }
  else if classBad || !(rows.isEmpty) || !(cols.isEmpty) || corner then
    let loc := if classBad then 0x1FFFF
      else 0x10000 + (if corner then 0x20000 else 0) + 256 * (cols.foldl min 0xFF) + ((rows.map Prod.fst).headD 0xFF)
    { a with status := stTileCheckFail, s := (s.inc (Reg.strTileCheckFailCount st)).setReg (Reg.strTileCheckLoc st) loc }
  else if u.residue then { a with status := stVectorResidue, s := s.inc (Reg.strResidueFailCount st) }
  else { a with s := s }

/-- Read n rows of one of the strand's spaces, as values and as the bytes an ENGINE hitch reads (R447); a line of scratch that
has stayed uncorrectable ends the hitch (R92). -/
def AttnRun.rowsOf (a : AttnRun) (r : Run) (space addr stride scale : Nat) (f : Fmt) (mx : Bool) (k r0 n : Nat) :
    List (List Num) × AttnRun :=
  let sb := scaleBytes mx k
  let read := (upTo n).map fun i =>
    let x := r0 + i
    (addr + x * stride, a.s.peek (r.place space (addr + x * stride)) (packedBytes f.width k),
     a.s.peek (r.place space (scale + x * sb)) sb)
  let ranges := read.flatMap fun x => [(x.1, x.2.1.length), (scale + (x.1 - addr) / max 1 stride * sb, sb)]
  let a := a.on fun s => foldS (fun s x => s.noteScales r.st x.2.2) s read
  let a := if space = 0 then { a with read := a.read ++ read.map fun x => (x.1, x.2.1) } else a
  (read.map fun x => rowNums f mx k x.2.1 x.2.2,
   match (if space = 0 then a.s.badRead r.st ranges else none) with
   | some l => { a with status := stScratchEcc, s := a.s.badScratch r.st l }
   | none => a)

/-- Write `width`-bit codes of positions from j0 over the score area of tile row i, whose row index is x: the first
32,768 positions in the score buffer, the rest in the spill area (R211, R212). A mirror copy spills nothing (R447). -/
def AttnRun.putScores (a : AttnRun) (r : Run) (c : Attn) (e : LenEntry) (i x j0 width : Nat) (codes : List Nat) :
    AttnRun :=
  let bs := packElems width codes
  if j0 < 32768 then
    a.on fun s => s.put (r.place c.ss (c.score + i * 4 * e.resident + j0 * width / 8)) bs
  else
    let a := { a with spilled := a.spilled + bs.length }
    if a.s.mirror r then a
    else
      let y := a.s.storeP (some r.die) r.p (c.spill + x * c.spillRow + (j0 - 32768) * width / 8) bs a.u.mem
      { a with status := if y.1 = stOk then a.status else y.1, s := y.2 }

/-- Read the spilled scores of n positions from j0 of row x again, as passes 2, 3 and B1 do (R212): what they read is what the row
holds, and a failing line ends the hitch (R225). -/
def AttnRun.readSpill (a : AttnRun) (r : Run) (c : Attn) (x j0 n : Nat) : AttnRun :=
  if j0 < 32768 || a.s.mirror r then a
  else
    let y := a.s.fetchP (some r.die) r.p (c.spill + x * c.spillRow + (j0 - 32768) * 4) (4 * n) a.u.mem
    { a with status := if y.1 = stOk then a.status else y.1, s := y.2.2 }

/-- Store bytes of partition memory, which a mirror copy does not (R447). -/
def AttnRun.store (a : AttnRun) (r : Run) (pma : Nat) (bs : List Byte) : AttnRun :=
  if a.s.mirror r then a
  else
    let y := a.s.storeP (some r.die) r.p pma bs a.u.mem
    { a with status := if y.1 = stOk then a.status else y.1, s := y.2 }

/-- A key block: its first position and its number of positions (R204). -/
def LenEntry.block (e : LenEntry) (b : Nat) : Nat × Nat := (128 * b, min 128 (e.kv - 128 * b))

/-- The lane of a format pair over the descriptors of a block, in quarter steps (R43, R220). -/
def laneOf (f : Fmt) (mx : Bool) (ds : List Desc) (lo n : Nat) : Nat :=
  ((ds.filter fun d => decide (d.pos0 < lo + n ∧ lo < d.pos0 + d.count)).map fun d =>
    laneQuarter f ((Fmt.ofCode d.fmt).getD .bf16) mx d.mx).foldl max 1

/-- Cycles of a reduction of k steps in quarter-step lanes. -/
def laneCycles (k quarter : Nat) : Nat := (k * quarter + 3) / 4

/-- A row of a tile: tile row, row index, query position, its query values, and the score of every computed position
(position, code, visible). -/
structure AttnRow where
  i : Nat
  x : Nat
  qpos : Nat
  q : List Num
  scores : List (Nat × Nat × Bool)
  m : Nat
  l : Nat
  lost : Bool
  deriving DecidableEq, Repr

/-- The masked score. -/
def negInf32 : Nat := 0xFF800000

/-- Scores of one block for every row of a tile (R205): the reduction, its check, SCALE, masks, and the score buffer when
it is to be written. -/
def AttnRun.scoreBlock (a : AttnRun) (r : Run) (c : Attn) (e : LenEntry) (ds : List Desc) (write : Bool)
    (rows : List AttnRow) (b : Nat) : AttnRun × List AttnRow :=
  let (lo, n) := e.block b
  let x := a.s.kvRows r ds 0 lo n a.u.mem
  if x.1 ≠ stOk then ({ a with status := x.1, s := x.2.2 }, rows)
  else
    let a := { a with s := x.2.2 }
    let bks := transposed c.dqk x.2.1
    let accs := rows.map fun row => Acc.empty.reduceRow row.q bks
    let a := a.check r accs
    if isBlocking a.status then (a, rows)
    else
      let outs := (rows.zip accs).map fun p =>
        let es := (upTo n).map fun k =>
          let raw := Fmt.fp32.encode (hSat r.w) .rne ((p.2.col k).value 0)
          let t := fmul (plusZero .fp32 raw.1) c.scale
          let vis := e.sees p.1.qpos (lo + k)
          (lo + k, if vis then t.1 else negInf32, vis, orBits raw.2 t.2)
        ({ p.1 with scores := p.1.scores ++ es.map (fun y => (y.1, y.2.1, y.2.2.1)), lost := p.1.lost || p.2.lostAmong (es.map fun y => y.2.2.1) },
         (es.map fun y => y.2.2.2).foldl orBits 0)
      let rows := outs.map Prod.fst
      let a := a.on fun s => s.arith r.st ((outs.map Prod.snd).foldl orBits 0)
      if write then
        (a.each rows fun a row =>
          a.putScores r c e row.i row.x lo 32 ((row.scores.filter fun y => decide (lo ≤ y.1)).map fun y => y.2.1), rows)
      else (a, rows)

/-- The visible scores of a row: a score of −∞ counts as masked (R209). -/
def AttnRow.seen (row : AttnRow) : List Nat :=
  row.scores.filterMap fun y => if y.2.2 && y.2.1 != negInf32 then some y.2.1 else none

/-- A row has a visible score that is NaN or +∞ (R209). -/
def AttnRow.nonFinite (row : AttnRow) : Bool := row.seen.any fun t => isNan32 t || t == 0x7F800000
/-- A row has no visible key (R208). -/
def AttnRow.isVoid (row : AttnRow) : Bool := row.seen.isEmpty

/-- The exponentials of a row: position, code and flags; masked positions give +0 (R206). -/
def AttnRow.exps (row : AttnRow) : List (Nat × Nat × Nat) :=
  row.scores.map fun y =>
    if y.2.2 && y.2.1 != negInf32 then
      let d := fsub y.2.1 row.m
      let x := fexp d.1
      (y.1, x.1, orBits d.2 x.2)
    else (y.1, 0, 0)

/-- Pass 2 of a row (R206, R208, R209): its maximum, its exponentials, and its sum. -/
def AttnRow.pass2 (row : AttnRow) (sat : Bool) : AttnRow × Nat :=
  if row.isVoid then ({ row with m := negInf32, l := 0 }, 0)
  else if row.nonFinite then ({ row with m := nan32, l := nan32 }, 0)
  else
    let seen := row.seen
    let row := { row with m := seen.foldl (fun m t => (fmax m t).1) negInf32 }
    let es := row.exps
    let col := foldS (fun (c : Col) y => (c.add 0 (dec32 y.2.1)).1) Col.empty es
    let l := Fmt.fp32.encode sat .rne (col.value 0)
    ({ row with l := l.1, lost := row.lost || col.lost }, orBits l.2 ((es.map fun y => y.2.2).foldl orBits 0))

/-- The probabilities of a row in P_FMT, by position, for its visible positions: code, value and flags (R206). -/
def AttnRow.probs (row : AttnRow) (c : Attn) (sat : Bool) : List (Nat × Nat × Num × Nat) :=
  (row.exps.zip row.scores).filterMap fun z =>
    if z.2.2.2 && z.2.2.1 != negInf32 then
      let p := fdiv z.1.2.1 row.l
      let k := c.pf.encode sat .rne (dec32 p.1)
      some (z.1.1, k.1, c.pf.decode false k.1, orBits p.2 (orBits z.1.2.2 k.2))
    else none

/-- Add one block's products to a row's accumulator: A values by position, B rows of the block (R206, R222). -/
def Acc.addBlock (a : Acc) (lo : Nat) (as_ : List (Nat × Num)) (brows : List (List Num)) : Acc :=
  let mine := as_.filter fun p => decide (lo ≤ p.1 ∧ p.1 < lo + brows.length)
  foldS (fun a p => a.stepK [p.2] (brows.getD (p.1 - lo) [])) a mine

/-- Columns 128 × V_HIGH of a row of values or keys (R198). -/
def Attn.cols (c : Attn) (row : List Num) : List Num := (row.drop (128 * c.vh)).take c.dv

/-- The last reduction of a tile over all its computed blocks: fetch each block's rows of a half and accumulate. -/
def AttnRun.reduceAll (a : AttnRun) (r : Run) (c : Attn) (e : LenEntry) (ds : List Desc) (half : Nat)
    (blocks : List Nat) (as_ : List (List (Nat × Num))) : AttnRun × List Acc :=
  foldS (fun (p : AttnRun × List Acc) b =>
    if isBlocking p.1.status then p
    else
      let (lo, n) := e.block b
      let x := p.1.s.kvRows r ds half lo n p.1.u.mem
      if x.1 ≠ stOk then ({ p.1 with status := x.1, s := x.2.2 }, p.2)
      else
        let rows := x.2.1.map c.cols
        ({ p.1 with s := x.2.2 }, (p.2.zip as_).map fun y => y.1.addBlock lo y.2 rows))
    (a, as_.map fun _ => Acc.empty) blocks

/-- Write the output rows of a tile in OUT_FMT (R202): rounded by ROUND in pass 3, to nearest in the backward pass (R207). -/
def AttnRun.output (a : AttnRun) (r : Run) (c : Attn) (bwd : Bool) (rows : List AttnRow) (vals : List (List Num)) :
    AttnRun :=
  a.each (rows.zip vals) fun a p =>
    let rs := if bwd then (upTo c.dv).map fun _ => .rne else a.s.rounding r (p.1.x * c.dv) c.dv
    let at_ := r.place c.os (c.out + p.1.x * c.ostr)
    if c.omx then
      let (sc, codes, fl) := encodeRowMx c.of_ rs p.2
      a.on fun s => ((s.put at_ (packElems c.of_.width (codes.map (plusZero c.of_)))).put
        (r.place c.os (c.osc + p.1.x * (c.dv / 32))) (sc.map (BitVec.ofNat 8))).arith r.st fl
    else
      let (codes, fl) := encodeRow c.of_ (hSat r.w) rs p.2
      a.on fun s => (s.put at_ (packElems c.of_.width (codes.map (plusZero c.of_)))).arith r.st fl

/-- The value of a row's output (R208, R209): +0, NaN, or what its accumulator holds. -/
def rowValues (dv : Nat) (isVoid nf : Bool) (acc : Acc) : List Num :=
  (upTo dv).map fun k => if isVoid then Num.zero else if nf then .nan false else (acc.col k).value 0

/-- Count the rows of a tile (R208 to R210). -/
def AttnRun.countRows (a : AttnRun) (r : Run) (rows : List AttnRow) (accs : List Acc) : AttnRun :=
  let lost := (rows.zip accs).filter fun p => p.1.lost || p.2.anyLost
  let a := a.on fun s => (((s.bump (Reg.atnEmptyRowCount r.g) (rows.filter AttnRow.isVoid).length).bump
    (Reg.atnNonfiniteRowCount r.g) (rows.filter AttnRow.nonFinite).length).bump
    (Reg.atnExactLostCount r.g) lost.length)
  { a with lost := a.lost || !(lost.isEmpty) }

/-- The outputs bytes of one row. -/
def Attn.outBytes (c : Attn) : Nat := packedBytes c.of_.width c.dv + (if c.omx then c.dv / 32 else 0)

/-- The blocks of an entry that some row of a tile sees, and the number of the others (R215). -/
def LenEntry.seenBlocks (e : LenEntry) (qs : List Nat) : List Nat × Nat :=
  let all := upTo ((e.kv + 127) / 128)
  let see := all.filter fun b =>
    let (lo, n) := e.block b
    qs.any fun q => (upTo n).any fun k => e.sees q (lo + k)
  (see, all.length - see.length)

/-- One tile of a FORWARD hitch (R205 to R210, R221, R224). -/
def AttnRun.forwardTile (a : AttnRun) (r : Run) (c : Attn) (e : LenEntry) (ds : List Desc) (t0 n : Nat) : AttnRun :=
  let (qv, a) := a.rowsOf r c.qs c.q c.qstr c.qsc c.qf c.qmx c.dqk (e.row0 + t0) n
  let rows := ((upTo n).zip qv).map fun p =>
    ({ i := p.1, x := e.row0 + t0 + p.1, qpos := e.pos0 + (t0 + p.1) / c.g, q := p.2, scores := [], m := 0, l := 0,
       lost := false } : AttnRow)
  let (blocks, skipped) := e.seenBlocks (rows.map AttnRow.qpos)
  let a := a.on fun s => (s.bump (Reg.atnBlockCount r.g) blocks.length).bump (Reg.atnSkipCount r.g) skipped
  let (a, rows) := foldS (fun (p : AttnRun × List AttnRow) b =>
    if isBlocking p.1.status then p else p.1.scoreBlock r c e ds true p.2 b) (a, rows) blocks
  a.andThen fun a =>
    let a := a.each rows fun a row => a.each blocks fun a b => a.readSpill r c row.x (128 * b) (e.block b).2
    let done := rows.map fun row => row.pass2 (hSat r.w)
    let rows := done.map Prod.fst
    let a := a.on fun s => s.arith r.st ((done.map Prod.snd).foldl orBits 0)
    let a := a.each rows fun a row => a.each blocks fun a b =>
      a.putScores r c e row.i row.x (128 * b) 32
        ((row.exps.filter fun y => decide (128 * b ≤ y.1 ∧ y.1 < 128 * b + 128)).map fun y => y.2.1)
    let a := if c.save then a.each rows fun a row => a.store r (c.stats + 8 * row.x) (toLe 4 row.m ++ toLe 4 row.l) else a
    a.andThen fun a =>
      let ps := rows.map fun row => if row.isVoid || row.nonFinite then [] else row.probs c (hSat r.w)
      let a := a.on fun s => s.arith r.st ((ps.map fun l => (l.map fun y => y.2.2.2).foldl orBits 0).foldl orBits 0)
      let a := a.each rows fun a row => a.each blocks fun a b => a.readSpill r c row.x (128 * b) (e.block b).2
      let (a, accs) := a.reduceAll r c e ds 1 blocks (ps.map fun l => l.map fun y => (y.1, y.2.2.1))
      a.andThen fun a => (a.check r accs).andThen fun a =>
        let a := a.output r c false rows ((rows.zip accs).map fun p => rowValues c.dv p.1.isVoid p.1.nonFinite p.2)
        let gs := blocks.map fun b => (n * (e.block b).2 + 255) / 256
        let p1 := (blocks.map fun b => let (lo, k) := e.block b
          8 + laneCycles c.dqk (laneOf c.qf c.qmx ds lo k) + readoutCycles (n * k * 4))
        let p3 := (blocks.map fun b => let (lo, k) := e.block b
          laneCycles k (laneOf c.pf false ds lo k))
        let rd := 8 + readoutCycles (n * c.outBytes)
        let cyc := ((p1.zip gs).map fun y => max y.1 (3 * y.2) + 6 * y.2).sum + rd +
          ((p3.zip gs).map fun y => max y.1 (9 * y.2)).sum
        ({ a with cycles := a.cycles + cyc, array := a.array + p1.sum + rd + p3.sum }).countRows r rows accs

/-- The exact sum of the products of two rows, rounded once (R222), with its lost flag and its flags. -/
def deltaOf (sat : Bool) (x y : List Num) : Nat × Bool × Nat :=
  let col := foldS (fun (c : Col) p => (c.add 0 (p.1.mul p.2)).1) Col.empty (x.zip y)
  let z := Fmt.fp32.encode sat .rne (col.value 0)
  (z.1, col.lost, z.2)

/-- Pass B1 of one row in one block (R222): the positions with p_j and dS_j in P_FMT, and flags. -/
def AttnRow.gradients (row : AttnRow) (c : Attn) (sat : Bool) (lo n delta : Nat) (dP : Acc) :
    List (Nat × Nat × Nat) × Nat :=
  let ps := row.probs c sat
  let mine := (upTo n).map fun k =>
    let j := lo + k
    if isNan32 row.m then
      let z := c.pf.encode sat .rne (.nan false)
      (j, z.1, z.1, z.2)
    else if row.m = negInf32 then (j, 0, 0, 0)
    else
      match ps.find? fun y => y.1 == j with
      | none => (j, 0, 0, 0)
      | some y =>
        let e := ((row.exps.find? fun z => z.1 == j).map fun z => z.2.1).getD 0
        let p := (fdiv e row.l).1
        let d := Fmt.fp32.encode sat .rne ((dP.col k).value 0)
        let a := fsub (plusZero .fp32 d.1) delta
        let b := fmul p a.1
        let z := fmul b.1 c.scale
        let q := c.pf.encode sat .rne (dec32 z.1)
        (j, y.2.1, q.1, orBits (orBits y.2.2.2 d.2) (orBits (orBits a.2 b.2) (orBits z.2 q.2)))
  (mine.map fun y => (y.1, y.2.1, y.2.2.1), (mine.map fun y => y.2.2.2).foldl orBits 0)

/-- One block of pass B1 of a BACKWARD tile: the scores, dP, and the gradients of the rows (R222, R223). -/
def backBlock (r : Run) (c : Attn) (e : LenEntry) (ds : List Desc) (sat : Bool) (dov : List (List Num))
    (deltas : List (Nat × Bool × Nat)) (p : AttnRun × List AttnRow × List (List (Nat × Nat × Nat))) (b : Nat) :
    AttnRun × List AttnRow × List (List (Nat × Nat × Nat)) :=
  let (a, rows, grads) := p
  if isBlocking a.status then p
  else
    let (lo, k) := e.block b
    let (a, rows) := a.scoreBlock r c e ds true rows b
    if isBlocking a.status then (a, rows, grads)
    else
      let v := a.s.kvRows r ds 1 lo k a.u.mem
      if v.1 ≠ stOk then ({ a with status := v.1, s := v.2.2 }, rows, grads)
      else
        let a := { a with s := v.2.2 }
        let bks := transposed c.dv (v.2.1.map c.cols)
        let dps := dov.map fun x => Acc.empty.reduceRow x bks
        let a := a.check r dps
        if isBlocking a.status then (a, rows, grads)
        else
          let gr := ((rows.zip deltas).zip dps).map fun y => y.1.1.gradients c sat lo k y.1.2.1 y.2
          let a := a.on fun s => s.arith r.st ((gr.map Prod.snd).foldl orBits 0)
          let a := a.each (rows.zip gr) fun a y =>
            let at_ := y.1.x * c.outRow + lo * c.pf.width / 8
            let a := a.readSpill r c y.1.x lo k
            let a := a.andThen fun a => if c.pOut = 0 then a
              else a.store r (c.pOut + at_) (packElems c.pf.width (y.2.1.map fun z => z.2.1))
            let a := a.andThen fun a => a.putScores r c e y.1.i y.1.x lo c.pf.width (y.2.1.map fun z => z.2.2)
            a.andThen fun a => if c.dsOut = 0 then a
              else a.store r (c.dsOut + at_) (packElems c.pf.width (y.2.1.map fun z => z.2.2))
          (a, (rows.zip dps).map (fun y => { y.1 with
            lost := y.1.lost || y.2.lostAmong ((upTo k).map fun i => e.sees y.1.qpos (lo + i)) }),
           (grads.zip (gr.map Prod.fst)).map fun y => y.1 ++ y.2)

/-- One tile of a BACKWARD hitch (R222 to R224). -/
def AttnRun.backwardTile (a : AttnRun) (r : Run) (c : Attn) (e : LenEntry) (ds : List Desc) (t0 n : Nat) : AttnRun :=
  let r0 := e.row0 + t0
  let sat := hSat r.w
  let (qv, a) := a.rowsOf r c.qs c.q c.qstr c.qsc c.qf c.qmx c.dqk r0 n
  let (dov, a) := a.rowsOf r c.os c.dO c.ostr c.osc c.of_ c.omx c.dv r0 n
  let (ov, a) := a.rowsOf r c.os c.o c.ostr c.osc c.of_ c.omx c.dv r0 n
  if isBlocking a.status then a else
  let st := a.s.fetchP (some r.die) r.p (c.stats + 8 * r0) (8 * n) a.u.mem
  if st.1 ≠ stOk then { a with status := st.1, s := st.2.2 }
  else
    let a := { a with s := st.2.2 }
    let deltas := (dov.zip ov).map fun p => deltaOf sat p.1 p.2
    let a := a.on fun s => s.arith r.st ((deltas.map fun y => y.2.2).foldl orBits 0)
    let rows := ((upTo n).zip (qv.zip deltas)).map fun p =>
      ({ i := p.1, x := r0 + p.1, qpos := e.pos0 + (t0 + p.1) / c.g, q := p.2.1, scores := [],
         m := leAt st.2.1 (8 * p.1) 4, l := leAt st.2.1 (8 * p.1 + 4) 4, lost := p.2.2.2.1 } : AttnRow)
    let (blocks, skipped) := e.seenBlocks (rows.map AttnRow.qpos)
    let a := a.on fun s => (s.bump (Reg.atnBlockCount r.g) blocks.length).bump (Reg.atnSkipCount r.g) skipped
    let (a, rows, grads) := foldS (backBlock r c e ds sat dov deltas) (a, rows, rows.map fun _ => []) blocks
    a.andThen fun a =>
      let as_ := (rows.zip grads).map fun p => p.2.filterMap fun z =>
        if e.sees p.1.qpos z.1 then some (z.1, c.pf.decode false z.2.2) else none
      let (a, accs) := a.reduceAll r c e ds 0 blocks as_
      a.andThen fun a => (a.check r accs).andThen fun a =>
        let a := a.output r c true rows ((rows.zip accs).map fun p =>
          rowValues c.dv (p.1.m == negInf32) (isNan32 p.1.m) p.2)
        let p1 := blocks.map fun b =>
          let (lo, k) := e.block b
          (16 + laneCycles c.dqk (laneOf c.qf c.qmx ds lo k) + laneCycles c.dv (laneOf c.of_ c.omx ds lo k) +
            2 * readoutCycles (n * k * 4), (n * k + 255) / 256)
        let p2 := blocks.map fun b =>
          let (lo, k) := e.block b
          laneCycles k (laneOf c.pf false ds lo k)
        let rd := 8 + readoutCycles (n * c.outBytes)
        let cyc := 2 * ((n * c.dv + 255) / 256) + (p1.map fun y => max y.1 (22 * y.2)).sum + rd + p2.sum
        let lost := (rows.zip accs).filter fun p => p.1.lost || p.2.anyLost
        { a with cycles := a.cycles + cyc, array := a.array + (p1.map Prod.fst).sum + rd + p2.sum,
                 lost := a.lost || !(lost.isEmpty), s := a.s.bump (Reg.atnExactLostCount r.g) lost.length }

/-- One entry (R201 to R203, R211, R212, R217, R218). -/
def AttnRun.entry (a : AttnRun) (r : Run) (c : Attn) (bwd : Bool) (k : Nat) : AttnRun :=
  let x := a.s.fetchP (some r.die) r.p (c.lenTable + 32 * k) 32 a.u.mem
  if x.1 ≠ stOk then { a with status := x.1, s := x.2.2 }
  else
    let a := { a with s := x.2.2 }
    let e := LenEntry.parse x.2.1
    let st := c.entryStatus bwd e a.qSeen a.oSeen
    let rows := e.qlen * c.g
    let a := { a with qSeen := a.qSeen ++ c.qAreas e.row0 rows, oSeen := a.oSeen ++ c.outAreas e.row0 rows }
    if st ≠ stOk then { a with status := st }
    else if e.qlen = 0 then a
    else
      let d := a.s.readDescs e.kv r e.list 0 e.kv c.dqk a.u.mem
      if d.1 ≠ stOk then { a with status := d.1, s := d.2.2 }
      else
        let n := e.qlen * c.g
        let fit := if e.kv = 0 then 128 else c.sbytes / (4 * e.resident)
        let size := min 128 (min n fit)
        ({ a with s := d.2.2 }).each (upTo ((n + size - 1) / size)) fun a t =>
          if bwd then a.backwardTile r c e d.2.1 (t * size) (min size (n - t * size))
          else a.forwardTile r c e d.2.1 (t * size) (min size (n - t * size))

/-- The parameter block breaks a rule (R199, R201). -/
def Attn.paramBad (c : Attn) (b : List Byte) : Bool :=
  c.lenTable % 32 != 0 || c.spillRow % 64 != 0 || c.n == 0 || leAt b 0x16 2 != 0 ||
    areasMeet c.fixedAreas.1 c.fixedAreas.2

/-- Time in which an ATTN hitch holds its strand (R105, R224, R226): ATN_BUSY_US holds whole microseconds, the hank the rest. -/
def State.attnBusy (s : State) (g cycles : Nat) : State :=
  let n := (s.hank g).atnPart + cycles * (45000000 / arithKhz (s.effStep g))
  let s := s.modHank g fun h => { h with atnPart := n % 45000 }
  s.bump (Reg.atnBusyUs g) (n / 45000)

/-- The work area of a hitch holds free values after it (R213; log entry 8). -/
def State.spoilWork (s : State) (r : Run) : State :=
  let a := fld r.w 0x30 20 0
  if inScratch a 393216 then
    { s.put (r.place 0 a) ((upTo 393216).map fun i => BitVec.ofNat 8 (Config.freeValue (s.fresh + i))) with
      fresh := s.fresh + 393216 }
  else s

/-- The effect of an ATTN hitch on a cleared array (R195, R199, R203, R210, R224 to R226). -/
def State.attnBody (s : State) (r : Run) (u : Upset) (bwd : Bool) : Nat × Nat × State :=
  let x := s.fetchP (some r.die) r.p (fld r.w 0x38 63 0) 64 u.mem
  if x.1 ≠ stOk then (x.1, 0, x.2.2.attnBusy r.g 64)
  else
    let s := x.2.2
    let c := Attn.of r.w x.2.1
    if c.paramBad x.2.1 then (stMalformed, 0, s.attnBusy r.g 64)
    else
      let a : AttnRun := { s := s, status := stOk, lost := false, cycles := 64, array := 0, spilled := 0, u := u, read := [],
                           qSeen := [], oSeen := [] }
      let a := a.each (upTo c.n) fun a k => a.entry r c bwd k
      let s := if bwd then a.s else a.s.usedRandom r (65536 * c.dv)
      let s := s.bump (Reg.atnSpillKb r.g) ((a.spilled + 1023) / 1024)
      let s := (s.attnBusy r.g a.cycles).spoilWork r
      let s := (s.macBusy r.st a.array).setAcc r.st Acc.empty
      let s := if a.lost then (s.inc (Reg.strExactLostCount r.st)).arith r.st flagExactLost else s
      (if isBlocking a.status then a.status else if a.lost then stExactLost else stOk,
       crc64 ((a.read.mergeSort fun p q => decide (p.1 ≤ q.1)).flatMap Prod.snd), s)

/-- The effect of an ATTN hitch: it clears the array before anything else (R195), and what it reads from scratch may end it
(R91). -/
def State.attnRun (s : State) (r : Run) (u : Upset) (bwd : Bool) : Nat × Nat × State :=
  let x := (s.setAcc r.st Acc.empty).scratchUpset r.st u []
  if x.1 ≠ stOk then (x.1, 0, x.2.attnBusy r.g 64) else x.2.attnBody r u bwd

/-- Run an ATTN hitch of a mode. -/
def State.runAttn (s : State) (st : Nat) (u : Upset) (bwd : Bool) : State :=
  s.runHitch st 0x18 (fun w => fld w 0x10 1 0 == b2n bwd) { u with scratchCorr := [], scratchBad := none, eccBad := false }
    (fun _ _ => []) fun r s => s.attnRun r u bwd

/-- FORWARD (R205 to R210). -/
def execForward (st : Fin 128) (u : Upset) (s : State) : Host.Outcome State Fault Refusal :=
  .next (s.runAttn st.val u false)

/-- BACKWARD (R222). -/
def execBackward (st : Fin 128) (u : Upset) (s : State) : Host.Outcome State Fault Refusal :=
  .next (s.runAttn st.val u true)

end Sys2Proof.Machine
end

