-- ==== Sys2Proof/Machine/Control.lean ====
section
/-! DEFINITION. The control core's share of a step (chapters 4 and 16): positions on their strands (R101, R443, R557),
blocking statuses (R139 to R141, R403, R578), completion and its signal (R124 to R126), and quarantine (R454, R455). -/

namespace Sys2Proof.Machine

/-- A position of a hank. -/
def State.pos (s : State) (g p : Nat) : Pos := mgetD (s.hank g).pos p Pos.empty
/-- Change a position of a hank. -/
def State.modPos (s : State) (g p : Nat) (f : Pos → Pos) : State :=
  s.modHank g fun h => { h with pos := mput h.pos p (f (mgetD h.pos p Pos.empty)) }

/-- The places of a hank that the present run uses: active strands, less those excluded after two Faults (R102, R443). -/
def State.usedPlaces (s : State) (g : Nat) : List Nat :=
  let ex := match s.partOf g with
    | some p => (s.step p).excluded
    | none => []
  let l := (s.activePlaces g).filter fun i => !(ex.contains (8 * g + i))
  if l.isEmpty then s.activePlaces g else l

/-- The place a new mapping gives a position (R443, R557): the active strand at (p + r + k) mod 8, shared in turn when fewer
than 8 are active (R102). -/
def State.wantPlace (s : State) (g p : Nat) : Nat :=
  let l := s.usedPlaces g
  let k := match s.partOf g with
    | some q => (s.step q).rotation
    | none => 0
  if l.isEmpty then p else l.getD (((p + (s.hank g).rotation + k) % 8) % l.length) 0

/-- The place on which a position runs: that of the mapping in force, which changes at a step start alone (R101), or of the first
one. -/
def State.placeOf (s : State) (g p : Nat) : Nat := (mget (s.hank g).place p).getD (s.wantPlace g p)

/-- The strand on which a position runs. -/
def State.strandFor (s : State) (g p : Nat) : Nat := 8 * g + s.placeOf g p

/-- Every descriptor of a partition has been read in the run under way. -/
def State.descsRead (s : State) (p : Nat) : Bool := (s.part p).hanks.all fun g => (s.hank g).descRead

/-- Whether a position holds its strand (R136). -/
def State.resident (s : State) (g p : Nat) : Bool := mgetD (s.hank g).onPlace (s.placeOf g p) 8 == p

/-- The strands of a partition's hanks. -/
def State.strandsOf (s : State) (p : Nat) : List Nat := (s.part p).hanks.flatMap fun g => (upTo 8).map fun i => 8 * g + i

/-- A step of the partition is running or replaying. -/
def State.inRun (s : State) (p : Nat) : Bool :=
  ((s.step p).phase == .running || (s.step p).phase == .replaying) && !(s.step p).stopping

/-! Quarantine (R454, R455) -/

/-- The cell of a hank's present band and pattern. -/
def State.cellNow (s : State) (g : Nat) : Nat := 4 * (s.hank g).band + (s.hank g).pattern

/-- AVAIL that a strand's quarantine gives it at present (R455). -/
def State.quarantined (s : State) (st : Nat) : Nat :=
  let m := s.reg (Reg.chkStrandQmask (st / 32) (st % 32))
  if bit m 31 then 1 else if bit m (s.cellNow (hankOf st)) then 2 else 0

/-- AVAIL changes now: at a commit, or for a strand of no partition (R102, R455). -/
def State.takeAvail (s : State) (st : Nat) : State :=
  let a := s.quarantined st
  s.modStrand st fun x => { x with avail := a }

/-- AVAIL changes at once only for a strand that belongs to no partition (R102). -/
def State.freeAvail (s : State) (st : Nat) : State :=
  if (s.partOf (hankOf st)).isNone then s.takeAvail st else s

/-- A hank that its quarantine leaves with no active strand is recorded as lost (R455). -/
def State.hankLost (s : State) (g : Nat) : State :=
  if (upTo 8).all fun i => s.quarantined (8 * g + i) != 0 then
    let r := s.record 12 (s.partOf g)
    s.fsr { r with wher := [(0, dieOf g), (1, g)] }
  else s

/-- Bits set in a mask of 20 cells. -/
def cellCount (m : Nat) : Nat := ((upTo 20).filter fun i => bit m i).length

/-- Quarantine cells of a strand (R454, R459): with 4 or more cells the strand is quarantined fully; a QUARANTINE record
carries the mask. -/
def State.quarantine (s : State) (st cells : Nat) : State :=
  let a := Reg.chkStrandQmask (st / 32) (st % 32)
  let m := orBits (s.reg a) (cells % 2 ^ 20) 
  let full := decide (4 ≤ cellCount m) || bit cells 31 || bit m 31
  let m := if full then 0x800FFFFF else m
  let s := (s.setReg a m).freeAvail st
  let g := hankOf st
  let r := s.record 7 (s.partOf g)
  let s := s.fsr { r with wher := [(0, st / 32), (1, g), (3, st)], strand := s.strandKeys st,
                          action := if full then 4 else 3, qmask := some m }
  s.hankLost g

/-- Two instants lie in one CLK_CTRL cycle. -/
def sameCycle (a b : Nat) : Bool := a * 4 / 5 == b * 4 / 5

/-- A cell of the strand has been released in the present CLK_CTRL cycle (R459). -/
def Strand.releasedNow (x : Strand) (now cell : Nat) : Bool :=
  match x.released with
  | some (t, m) => sameCycle t now && bit m cell
  | none => false

/-- A score of a strand's cell rises by 1 (R454): a cell released in the same CLK_CTRL cycle stays clear (R459). -/
def State.scoreRise (s : State) (st cell : Nat) : State :=
  let n := (mgetD (s.strand st).scores cell (0, 0)).1 + 1
  let s := s.modStrand st fun x =>
    { x with scores := mput x.scores cell (n, s.now),
             rises := s.now :: x.rises.filter fun t => decide (s.now < t + 86400000000000) }
  let thr := max 1 (s.reg (Reg.chkQuarThresh (st / 32)) % 16)
  if thr ≤ n && !(bit (s.reg (Reg.chkStrandQmask (st / 32) (st % 32))) cell) && !((s.strand st).releasedNow s.now cell) then
    s.quarantine st (2 ^ cell)
  else s

/-- Whether a hitch status raises a score of its strand (R454). -/
def scores (st : Nat) : Bool := st == stTileCheckFail || st == stAccEcc || st == stVectorResidue || st == stScratchEcc

/-! Blocking statuses (R139 to R141) -/

/-- A step is replayable when no hank's descriptor marks live scratch (R444). -/
def State.replayable (s : State) (p : Nat) : Bool := (s.part p).hanks.all fun g => !((s.hank g).scratchLive)

/-- The class of a blocking status: 1 Fault, 2 Program. -/
def classOf (st : Nat) : Nat := if isProgram st then 2 else 1

/-- The ACTION of the HITCH_FAULT records of a run whose first blocking status is of a class (R578). -/
def State.runAction (s : State) (p cls : Nat) : Nat :=
  if !(s.inRun p) || cls == 2 then 0
  else if s.replayable p && decide ((s.step p).run < (s.step p).limit) then 1 else 2

/-- The head of a position's prefetched hitches: what its control core emits or carries out next (R134). -/
def State.headHitch (s : State) (g p : Nat) : Option (Nat × HitchWord) := (s.pos g p).fetched.head?

/-- An opcode that its control core carries out itself (R114). -/
def isControl (op : Nat) : Bool := op == 0x19 || op == 0x3C || op == 0x3D

/-- Whether a position of a hank is held back by a full queue (R134). -/
def State.heldBack (s : State) (p g : Nat) : Bool :=
  s.issuing p && (upTo 8).any fun q =>
    match s.headHitch g q with
    | some (_, w) => !(isControl (hOpcode w)) && s.resident g q && decide (128 ≤ (s.strand (s.strandFor g q)).queue.length)
    | none => false

/-- Count a hold of a hank up to the present instant in HNK_BACKPRESSURE_US, whose remainder below 1 µs the hank keeps (R105,
R144). -/
def State.countHeld (s : State) (g : Nat) : State :=
  match (s.hank g).heldSince with
  | none => s
  | some a =>
    let n := (s.hank g).backNs + (s.now - a)
    (s.bump (Reg.hnkBackpressureUs g) (n / 1000)).modHank g fun h => { h with heldSince := some s.now, backNs := n % 1000 }

/-- Bring the hold of a hank up to date (R134, R144). -/
def State.noteBack (s : State) (p g : Nat) : State :=
  let s := s.countHeld g
  let held := s.heldBack p g
  if held == (s.hank g).heldSince.isSome then s
  else s.modHank g fun h => { h with heldSince := if held then some s.now else none }

/-- The queues of a hank have changed: its hold and the aim of its power estimate follow (R134, R144, R555). -/
def State.noteHeld (s : State) (p g : Nat) : State := (s.noteBack p g).aimHank p g

/-- Discard the hitches of a partition that have not issued (R140). -/
def State.discardQueued (s : State) (p : Nat) : State :=
  foldS (fun s st =>
    let q := (s.strand st).queue
    let n := (q.filter QEntry.unissued).length
    if n = 0 then s
    else
      (s.modStrand st fun x => { x with queue := x.queue.filter fun e => !e.unissued }).bump
        (Reg.hnkDiscardCount (hankOf st)) n) s (s.strandsOf p)

/-- Record a blocking status as that of the step, in every hank (R141). -/
def State.putBlock (s : State) (p : Nat) (b : Blocking) : State :=
  let x := s.step p
  let s := s.modStep p fun y => { y with blocking := some b }
  foldS (fun s g =>
    ((((s.setReg (Reg.hnkErrStatus g) b.status).setReg (Reg.hnkErrWhere g) (256 * b.index + 16 * b.hank + b.pos)).setReg
      (Reg.hnkErrStepLo g) (x.counter % 2 ^ 32)).setReg (Reg.hnkErrStepHi g) (x.counter / 2 ^ 32 % 2 ^ 32))) s
    (s.part p).hanks

/-- Whether a blocking status arose in the CLK_CTRL cycle of the recorded one, in a lower hank or at a lower position of its hank,
so that it is recorded instead (R141). -/
def Blocking.precedes (b a : Blocking) : Bool :=
  sameCycle b.time a.time && decide (b.hank < a.hank ∨ (b.hank = a.hank ∧ b.pos < a.pos))

/-- Record the first blocking status of a step in every hank (R141), stop issue and emission, and send ABORT when the step
ran a collective and no READY has been sent (R140, R403). -/
def State.block (s : State) (p : Nat) (b : Blocking) : State :=
  if !(s.inRun p) then s
  else if (match (s.step p).blocking with | some a => !(b.precedes a) | none => false) then s
  else if (s.step p).blocking.isSome then s.putBlock p b
  else
    let x := s.step p
    let s := (s.putBlock p b).discardQueued p
    let s := foldS (fun s g => s.noteHeld p g) s (s.part p).hanks
    let sentReady := match s.vote p x.counter x.run with
      | some v => v.sent == 1
      | none => false
    if x.collective && !sentReady then
      let s := (s.modVote p x.counter x.run fun v => { v with sent := 1 + b.cls }).inc (Reg.dspPartColAbortCount p)
      s.sendVote p 8 b.cls x.counter x.run
    else s

/-- The WHERE of a hitch: die, hank, position, strand, index, with the row and column of a failed tile check (R456). -/
def State.whereOf (s : State) (g pos index : Nat) (strand : Option Nat) (st : Nat) : List (Nat × Nat) :=
  let base := [(0, dieOf g), (1, g), (2, pos)]
  let strandKey := match strand with
    | some k => [(3, k)]
    | none => []
  let idx := if index = 0xFFFFFF then [] else [(4, index)]
  let tile := match strand with
    | some k =>
      if st = stTileCheckFail then
        let l := s.reg (Reg.strTileCheckLoc k)
        [(5, l % 256), (6, l / 256 % 256)]
      else []
    | none => []
  base ++ strandKey ++ idx ++ tile

/-- Raise a hitch status at its place (R139 to R141): a Fault writes a HITCH_FAULT record (R456, R578) and may raise the
strand's score (R454); the first blocking status stops the step. -/
def State.raise (s : State) (p g pos index : Nat) (strand : Option Nat) (st : Nat) : State :=
  if !(isBlocking st) then s
  else
    let cls := match (s.step p).blocking with
      | some b => b.cls
      | none => classOf st
    let s :=
      if isFault st then
        let r := s.record 1 (some p)
        s.fsr { r with status := some st, wher := s.whereOf g pos index strand st,
                       strand := match strand with | some k => s.strandKeys k | none => none,
                       action := s.runAction p cls }
      else s
    let s := match strand with
      | some k => if scores st then s.scoreRise k (s.cellNow g) else s
      | none => s
    let s := match strand with
      | some k => if isFault st then s.modStep p fun x => { x with faults := x.faults ++ [128 * x.run + k] } else s
      | none => s
    s.block p { time := s.now, status := st, cls := classOf st, hank := g, pos := pos, index := index, strand := strand }

/-- Give a completed hitch its effects outside its unit: its status, then the signal of its knot, with KNOT_OVERFLOW as a
further status when the count would pass its maximum (R124 to R126). -/
def State.complete (s : State) (p g pos index strand : Nat) (w : HitchWord) (st : Nat) : State :=
  let s := s.raise p g pos index (some strand) st
  if knotValid (hSignal w) then
    let x := s.signalKnot p strand (hSignal w) (hSignalCount w)
    if x.2 then x.1.raise p g pos index (some strand) stKnotOverflow else x.1
  else s

/-- A hitch breaks a rule of the common area (R112, R113) on a die where its partition holds h hanks. -/
def commonBad (w : HitchWord) (h : Nat) : Bool :=
  flag w 1 3 || fld w 1 7 6 != 0 || fld w 0xB 7 0 != 0 || (unitOfOp (hOpcode w)).isNone ||
    knotBad (hWait w) (hWaitCount w) h || knotBad (hSignal w) (hSignalCount w) h || hRound w == 3 ||
    (hRound w == 2 && !(hVary w))

/-- Take the head of a position's prefetched hitches away. -/
def State.popHitch (s : State) (g p : Nat) : State :=
  s.modPos g p fun x => { x with fetched := x.fetched.drop 1, since := none }

/-- Every strand knot and die knot of a partition is 0 (R127). -/
def State.knotsZero (s : State) (p : Nat) : Bool :=
  (s.strandsOf p).all (fun st => (s.strand st).knots.all fun e => e.2 == 0) &&
    (s.part p).hanks.all fun g => s.dieKnots.all fun e =>
      e.2 == 0 || e.1 / 4096 != dieOf g || e.1 % 4096 / 1024 != g % 4

/-- Set every knot of a partition to 0 (R127, R140). -/
def State.clearKnots (s : State) (p : Nat) : State :=
  let s := foldS (fun s st => s.modStrand st fun x => { x with knots := [] }) s (s.strandsOf p)
  let hs := (s.part p).hanks
  { s with dieKnots := s.dieKnots.filter fun e => !(hs.any fun g => e.1 / 4096 == dieOf g && e.1 % 4096 / 1024 == g % 4) }

/-- The hitches of a position that are in flight, and the words of its resident strand. -/
def State.inFlight (s : State) (g p : Nat) : List QEntry :=
  (s.strand (s.strandFor g p)).queue.filter fun e => e.pos == p

end Sys2Proof.Machine
end

