-- ==== Sys2Proof/Machine/Kv.lean ====
section
/-! DEFINITION. KV pages, the bight and tiering (chapter 8): pages and their free lists, chains and their walk, KV_WALK,
BIGHT_APPEND, the KV part of a commit, moves, the page manager and the shipping of chains. -/

namespace Sys2Proof.Machine

/-! Pages (R230, R231, R476) -/

/-- The module index of a partition-local page index: the HBM entries first (R230). -/
def State.pageIndex (s : State) (p i : Nat) : Nat :=
  let x := s.part p
  if i < x.pgHbm then x.pageBase + i else x.pageBaseCt + (i - x.pgHbm)

/-- The partition-local index of a module index. -/
def State.pageLocal (s : State) (p idx : Nat) : Nat :=
  let x := s.part p
  if x.pageBase ≤ idx ∧ idx < x.pageBase + x.pgHbm then idx - x.pageBase else x.pgHbm + (idx - x.pageBaseCt)

/-- The entry of a page, when it is not FREE. -/
def State.page (s : State) (idx : Nat) : Option Page := mget s.kv.pages idx

/-- Set or free a page-table entry. -/
def State.setPage (s : State) (idx : Nat) (x : Option Page) : State :=
  { s with kv := { s.kv with pages := mset s.kv.pages idx x } }

/-- Change a page-table entry. -/
def State.modPage (s : State) (idx : Nat) (f : Page → Page) : State :=
  { s with kv := { s.kv with pages := mmod s.kv.pages idx f } }

/-- FREE entries of a partition's tier. -/
def State.freePages (s : State) (p : Nat) (ct : Bool) : Nat :=
  let l := s.freeList p ct
  l.returned.length + (l.limit - l.next)

/-- Keep a free list. -/
def State.setList (s : State) (p : Nat) (ct : Bool) (l : FreeList) : State :=
  { s with kv := { s.kv with lists := mput s.kv.lists (2 * p + b2n ct) l } }

/-- Take the head of a free list (R231). -/
def State.takeFrom (s : State) (p : Nat) (ct : Bool) : Option (Nat × State) :=
  let l := s.freeList p ct
  match l.returned with
  | i :: r => some (i, s.setList p ct { l with returned := r })
  | [] => if l.next < l.limit then some (l.next, s.setList p ct { l with next := l.next + 1 }) else none

/-- Take a page for a chain: the HBM free list, else the capacity-tier free list (R243). -/
def State.takePage (s : State) (p : Nat) : Option (Nat × Bool × State) :=
  match s.takeFrom p false with
  | some (i, t) => some (i, false, t)
  | none => (s.takeFrom p true).map fun x => (x.1, true, x.2)

/-- A page becomes FREE and returns to the head of its list; the instant at which an empty list became non-empty is
noted (R231, R246). -/
def State.freePage (s : State) (p idx : Nat) : State :=
  let x := s.part p
  let ct := !(decide (x.pageBase ≤ idx ∧ idx < x.pageBase + x.pgHbm))
  let s := if s.freePages p false + s.freePages p true = 0
    then { s with kv := { s.kv with nonEmptyAt := mput s.kv.nonEmptyAt p s.now } } else s
  let l := s.freeList p ct
  (s.setPage idx none).setList p ct { l with returned := idx :: l.returned }

/-- A move under way of a page is given up: the target is FREE again, and the source LIVE (log entry 68). -/
def State.cancelMove (s : State) (idx : Nat) : State :=
  match s.kv.moves.find? fun m => m.source == idx with
  | none => s
  | some m =>
    let s := { s with kv := { s.kv with moves := s.kv.moves.filter fun x => x != m } }
    (s.modPage idx fun x => { x with state := .live }).freePage m.part m.target

/-- Subtract 1 from REFS of a page, which is freed at 0 (R231); a move of it is given up. -/
def State.dropRef (s : State) (p idx : Nat) : State :=
  let s := s.cancelMove idx
  match s.page idx with
  | none => s
  | some x => if x.refs ≤ 1 then s.freePage p idx else s.setPage idx (some { x with refs := x.refs - 1 })

/-! Chains (R232, R233) -/

/-- A CLOSED chain record. -/
def Chain.empty : Chain :=
  { head := none, tail := 0, ownHead := none, shared := [], part := 0, fmt := 0, mx := false, d32 := 0, len := 0,
    seq := 0, state := .closed, corrupt := false, walked := false }

/-- A chain record by module index. -/
def State.chain (s : State) (c : Nat) : Chain := mgetD s.kv.chains c Chain.empty

/-- Set a chain record, keeping none that is CLOSED. -/
def State.setChain (s : State) (c : Nat) (x : Chain) : State :=
  { s with kv := { s.kv with chains := if x.state == .closed then mdel s.kv.chains c else mput s.kv.chains c x } }

/-- Change a chain record. -/
def State.modChain (s : State) (c : Nat) (f : Chain → Chain) : State := s.setChain c (f (s.chain c))

/-- Positions per page of a chain's tag (R229). -/
def Chain.cap (c : Chain) : Nat := pageCap (codeWidth c.fmt) c.mx (32 * (c.d32 + 1))

/-- Follow NEXT to a chain's last page, at most n pages. -/
def State.followTo (n : Nat) (s : State) (tail idx : Nat) : List Nat :=
  match n with
  | 0 => []
  | k + 1 =>
    if idx = tail then [idx]
    else
      match s.page idx with
      | none => [idx]
      | some x => idx :: State.followTo k s tail x.next

/-- The pages of a chain in walk order (R233): at most 2^22 of them (R236). -/
def State.walk (s : State) (c : Nat) : List Nat :=
  let x := s.chain c
  match x.head with
  | none => []
  | some h =>
    let own := if x.shared.isEmpty then some h else x.ownHead
    x.shared ++ (match own with
      | none => []
      | some o => State.followTo 4194304 s x.tail o)

/-- The bight entries of a chain in ascending position. -/
def State.entriesOf (s : State) (c : Nat) : List Bight :=
  (s.kv.bight.filter fun b => b.chain == c).mergeSort fun a b => decide (a.position ≤ b.position)

/-- The entries of a chain in a state. -/
def State.entriesIn (s : State) (c : Nat) (st : SlotState) : List Bight := (s.entriesOf c).filter fun b => b.state == st

/-- Free bight entries (R239). -/
def State.freeEntries (s : State) (f : Bight → Bool) : State :=
  { s with kv := { s.kv with bight := s.kv.bight.filter fun b => !(f b) } }

/-- Change every bight entry. -/
def State.modBight (s : State) (f : Bight → Bight) : State :=
  { s with kv := { s.kv with bight := s.kv.bight.map f } }

/-- Change every sequence. -/
def State.modSeqs (s : State) (f : Nat → Sequence → Sequence) : State :=
  { s with serve := { s.serve with seqs := meach s.serve.seqs f } }

/-- Change a sequence. -/
def State.modSeq (s : State) (q : Nat) (f : Sequence → Sequence) : State :=
  { s with serve := { s.serve with seqs := mmod s.serve.seqs q f } }

/-- Mark a chain KV_CORRUPT for data that a commit could not read (R441). -/
def State.corruptChain (s : State) (p c st : Nat) : State :=
  let r := s.record 1 (some p)
  let s := s.fsr { r with status := some st }
  let n := (s.part p).records
  let q := (s.chain c).seq
  let s := s.modChain c fun x => { x with corrupt := true }
  s.modSeq q fun x => { x with fault := some (x.fault.getD (stKvCorrupt, n)) }

/-- Close a chain: its entries go free and 1 is subtracted from REFS of each of its pages (R243, R277). -/
def State.closeChain (s : State) (c : Nat) : State :=
  let p := (s.chain c).part
  let pages := s.walk c
  let s := s.freeEntries fun b => b.chain == c
  let s := foldS (fun s i => s.dropRef p i) s pages
  s.modChain c fun x => { x with state := .closed }

/-- Link a page at the end of a chain (R233, R243). -/
def State.linkPage (s : State) (c idx : Nat) : State :=
  let x := s.chain c
  let first := if x.shared.isEmpty then x.head.isNone else x.ownHead.isNone
  let s := if first then s else s.modPage x.tail fun y => { y with next := idx }
  s.modChain c fun y =>
    { y with head := if y.head.isNone then some idx else y.head, ownHead := if first then some idx else y.ownHead,
             tail := idx }

/-- A LIVE page of a chain's tag, empty. -/
def State.newPage (s : State) (c idx : Nat) (ct : Bool) : State :=
  let x := s.chain c
  let base := if ct then (s.part x.part).pageBaseCt else (s.part x.part).pageBase
  s.setPage idx (some { state := .live, ct := ct, ttlOn := false, part := x.part, fmt := x.fmt, mx := x.mx, d32 := x.d32,
                        fill := 0, frame := s.frameOf x.part ct (idx - base), next := 0, refs := 1, expiry := 0 })

/-- Copy a bight entry to position `fill` of a page (R229, R238, R243): a row whose line cannot be read for its partial write
stays unwritten, and its line fails when it is read (R158, R160). -/
def State.copyEntry (s : State) (b : Bight) (x : Chain) (idx fill : Nat) : State :=
  match s.page idx with
  | none => s
  | some pg =>
    let w := codeWidth x.fmt
    let d := 32 * (x.d32 + 1)
    let rp := rowPitch w d
    let sb := scaleBytes x.mx d
    let at_ := bightBase b.die + 256 * b.slot
    let half := 128 * b.n
    let frame := pg.frame * 65536
    foldS (fun s h =>
      let src := at_ + h * half
      let dst := frame + h * 32768
      let s := (s.storeMpa (some b.die) (dst + fill * rp) (s.peek src rp) []).2
      (s.storeMpa (some b.die) (dst + x.cap * rp + fill * sb) (s.peek (src + rp) sb) []).2)
      s [0, 1]

/-- Flush entries of a chain in position order (R243): each goes to the tail page, or to a new one when that is full; with
no page left it and the later ones are HELD and the chain is STARVED. An entry that cannot be read corrupts the chain (R441). -/
def State.flushChain (s : State) (c : Nat) (bad : List (Nat × Nat)) (es : List Bight) : State :=
  match es with
  | [] => s
  | b :: rest =>
    let x := s.chain c
    if bad.contains (b.die, b.slot) then s.corruptChain x.part c stScratchEcc
    else
    let fill := ((s.page x.tail).map fun y => y.fill).getD 0
    let room := x.head.isSome && decide (fill < x.cap)
    let got := if room then some s
      else (s.takePage x.part).map fun t => (t.2.2.newPage c t.1 t.2.1).linkPage c t.1
    match got with
    | none =>
      let held := b :: rest
      let s := s.modBight fun y => if held.contains y then { y with state := .held } else y
      if x.state == .starved then s
      else
        let s := if (mget s.kv.starvedSince c).isSome then s
          else { s with kv := { s.kv with starvedSince := mput s.kv.starvedSince c s.now } }
        (s.modChain c fun y => { y with state := .starved }).inc (Reg.kvpPartStarvedCount x.part)
    | some s =>
      let x := s.chain c
      let fill := ((s.page x.tail).map fun y => y.fill).getD 0
      let s := s.copyEntry b x x.tail fill
      let s := s.modPage x.tail fun y => { y with fill := fill + 1 }
      let s := s.modChain c fun y => { y with len := y.len + 1 }
      let s := (s.freeEntries fun y => y == b).inc (Reg.kvpPartFlushCount x.part)
      s.flushChain c bad rest

/-- A STARVED chain whose last HELD entry is free becomes OPEN again (R246). -/
def State.unstarve (s : State) (c : Nat) : State :=
  if (s.chain c).state == .starved && (s.entriesIn c .held).isEmpty then
    let s := { s with kv := { s.kv with starvedSince := mdel s.kv.starvedSince c } }
    s.modChain c fun x => { x with state := .opened }
  else s

/-- The chains of a partition with a record, ascending. -/
def State.chainsOf (s : State) (p : Nat) : List Nat := (s.kv.chains.filter fun e => e.2.part == p).map Prod.fst
/-- The chains of a sequence, ascending. -/
def State.seqChains (s : State) (q : Nat) : List Nat := (s.kv.chains.filter fun e => e.2.seq == q).map Prod.fst

/-- Flush every HELD entry of a partition, in chain order (R246). -/
def State.flushHeld (s : State) (p : Nat) : State :=
  foldS (fun s c => (s.flushChain c [] (s.entriesIn c .held)).unstarve c) s
    ((s.chainsOf p).filter fun c => !(s.entriesIn c .held).isEmpty)

/-- EXPIRY of a page given a TTL now (R251): 0xFFFF_FFFF for a page that never expires. -/
def State.expiryAt (s : State) (seconds : Nat) : Nat :=
  if seconds = 0 then 0xFFFFFFFF else s.now / 2 ^ 26 + (seconds * 1000000000 + 67108863) / 67108864

/-- Set or clear TTL_ON on the pages of a sequence held by it alone (R251, R253). -/
def State.setTtl (s : State) (p q : Nat) (on : Bool) : State :=
  let e := s.expiryAt (s.reg (Reg.kvpPartTtlHbm p))
  let pages := (s.seqChains q).flatMap fun c => s.walk c
  foldS (fun s i => s.modPage i fun x =>
    if !on then { x with ttlOn := false } else if x.refs = 1 then { x with ttlOn := true, expiry := e } else x) s pages

/-- Set the state of the open chains of a sequence. -/
def State.setChains (s : State) (q : Nat) (st : ChainState) : State :=
  foldS (fun s c => s.modChain c fun x => { x with state := st }) s (s.seqChains q)

/-- Pause a sequence (R251, R279). -/
def State.pause (s : State) (p q : Nat) : State :=
  let s := s.modSeq q fun y => { y with back := y.state, state := .paused, pausing := false }
  (s.setChains q .paused).setTtl p q true

/-- A sequence whose chains are all OPEN again leaves STARVED (R261); a pause that it was promised acts (R279). -/
def State.unstarveSeqs (s : State) (p : Nat) : State :=
  let free := s.serve.seqs.filter fun e =>
    e.2.part == p && e.2.state == .starved && !((s.seqChains e.1).any fun c => (s.chain c).state == .starved)
  foldS (fun s e =>
    let s := s.modSeq e.1 fun x => { x with state := x.back }
    if e.2.pausing && e.2.back == .decode then s.pause p e.1 else s) s free

/-- Where the ACCEPT of a partition's sequence is kept in a step (R242): by partition and SEQ. -/
def acceptKey (p seq : Nat) : Nat := p * 2 ^ 18 + seq

/-- The PENDING entries that stand when a run ends uncommitted are freed and counted (R248). -/
def State.freePending (s : State) (p : Nat) : State :=
  let n := (s.kv.bight.filter fun b => b.part == p && b.state == .pending).length
  let s := (s.freeEntries fun b => b.part == p && b.state == .pending).bump (Reg.kvpPartRewindCount p) n
  { s with kv := { s.kv with accepts := mkeep s.kv.accepts fun k _ => k / 2 ^ 18 != p } }

/-- The bar on moves that the walks of a step set ends with its commit or abandonment (R237). -/
def State.unwalk (s : State) (p : Nat) : State :=
  { s with kv := { s.kv with chains := meach s.kv.chains fun _ x => if x.part == p then { x with walked := false } else x } }

/-- The KV part of a commit (R242, R243, R247): expired sequences are freed and closed, rejected entries rewound, and the
kept ones flushed after the HELD ones of their chain. -/
def State.kvCommit (s : State) (p : Nat) (expired : List Nat) (bad : List (Nat × Nat)) : State :=
  let gone := (s.chainsOf p).filter fun c => expired.contains (s.chain c).seq
  let s := foldS (fun s c => s.closeChain c) s gone
  let chains := (s.chainsOf p).filter fun c => !(s.entriesOf c).isEmpty
  let s := foldS (fun s c =>
    let pend := s.entriesIn c .pending
    let keep := (mget s.kv.accepts (acceptKey p ((s.chain c).seq - (s.part p).seqBase))).getD pend.length
    let drop := pend.drop keep
    let s := (s.freeEntries fun b => drop.contains b).bump (Reg.kvpPartRewindCount p) drop.length
    s.modBight fun b => if (pend.take keep).contains b then { b with state := .flushing } else b) s chains
  let s := foldS (fun s c =>
    (s.flushChain c bad ((s.entriesIn c .held) ++ (s.entriesIn c .flushing))).unstarve c) s chains
  let s := { s with kv := { s.kv with accepts := mkeep s.kv.accepts fun k _ => k / 2 ^ 18 != p } }
  (s.unwalk p).unstarveSeqs p

/-! KV_WALK (R234 to R237) -/

/-- A KV_WALK breaks an operand-area rule (R234). -/
def walkBad (w : HitchWord) : Bool :=
  fld w 0x10 63 22 != 0 || fld w 0x18 4 0 != 0 || fld w 0x20 31 16 == 0 || !(zeroBytes w 0x24 0x40)

/-- The descriptor of a page of a chain, the i-th of its walk. -/
def State.pageDesc (s : State) (p : Nat) (x : Chain) (i idx : Nat) : Desc :=
  let pg := (s.page idx).getD { state := .free, ct := false, ttlOn := false, part := p, fmt := 0, mx := false, d32 := 0,
                                fill := 0, frame := 0, next := 0, refs := 0, expiry := 0 }
  { addr := (s.pmaOf p (pg.frame * 65536)).getD 0, page := s.pageLocal p idx, bight := false, pos0 := i * x.cap,
    count := pg.fill, fmt := x.fmt, mx := x.mx, d32 := x.d32, ct := pg.ct }

/-- The descriptor of a bight entry. -/
def bightDesc (x : Chain) (b : Bight) : Desc :=
  { addr := b.slot * 256, page := 0, bight := true, pos0 := b.position, count := 1, fmt := x.fmt, mx := x.mx,
    d32 := x.d32, ct := false }

/-- Whether a walk is consistent (R236). -/
def State.walkGood (s : State) (p c : Nat) (pages : List Nat) : Bool :=
  let x := s.chain c
  decide (pages.length ≤ 4194304) &&
    (pages.all fun i => match s.page i with
      | none => false
      | some y => y.part == p && y.fmt == x.fmt && y.mx == x.mx && y.d32 == x.d32) &&
    (pages.map fun i => ((s.page i).map fun y => y.fill).getD 0).sum == x.len

/-- The effect of a KV_WALK (R235, R236): its status. -/
def State.walkBody (s : State) (p die : Nat) (w : HitchWord) (mirror : Bool) : Nat × State :=
  let local_ := fld w 0x10 21 0
  let list := fld w 0x18 63 0
  let start := fld w 0x20 15 0
  let maxN := fld w 0x20 31 16
  if (s.part p).chainSize ≤ local_ then (stAddrInvalid, s)
  else
    let c := (s.part p).chainBase + local_
    let x := s.chain c
    let pages := s.walk c
    if !(s.walkGood p c pages) then (stKvCorrupt, s.fsr { s.record 11 (some p) with status := some stKvCorrupt })
    else
      let all := ((upTo pages.length).zip pages).map (fun e => s.pageDesc p x e.1 e.2) ++
        (s.entriesIn c .held).map (bightDesc x) ++ (s.entriesIn c .pending).map (bightDesc x)
      let before := if start = 0 then (stOk, [], s) else s.fetchP (some die) p (list + 32 * (start - 1)) 32 []
      let s := before.2.2
      let last := Desc.parse before.2.1
      let at_ := pages.findIdx fun i => s.pageLocal p i == last.page
      if before.1 ≠ stOk then (before.1, s)
      else if start ≠ 0 ∧ (last.bight ∨ pages.length ≤ at_ ∨
          ((s.page (pages.getD at_ 0)).map fun y => y.fill).getD 0 ≠ x.cap) then (stMalformed, s)
      else
        let todo := if start = 0 then all else all.drop (at_ + 1)
        let fits := todo.take (maxN - start)
        let s := s.modChain c fun y => { y with walked := true }
        let r := if mirror then (stOk, s)
          else s.storeP (some die) p (list + 32 * start) (fits.flatMap Desc.bytes) []
        if r.1 ≠ stOk then r else (if fits.length < todo.length then stAddrInvalid else stOk, r.2)

/-- Whether a control hitch at the head of a position may be carried out: its wait is served and its ORDER holds (R117,
R124). -/
def State.controlReady (s : State) (p g pos : Nat) (w : HitchWord) (order : Bool) : Bool :=
  s.issuing p && s.descsRead p && s.resident g pos && s.waitReady p (s.strandFor g pos) w &&
    (!order || (s.inFlight g pos).isEmpty)

/-- Note the instant from which a control hitch's wait counts: when only its wait holds it back (R128). -/
def State.markControl (s : State) (p g pos : Nat) (w : HitchWord) (order : Bool) : State :=
  if s.issuing p && s.resident g pos && !(s.waitReady p (s.strandFor g pos) w) &&
      (!order || (s.inFlight g pos).isEmpty) then
    s.modPos g pos fun x => { x with since := some (x.since.getD s.now) }
  else s

/-- The last index of a position list, which only STEP_END may take (R111). -/
def lastIndex : Nat := 16777214

/-- The status a control hitch draws before anything of it is done: MALFORMED by R113. -/
def State.preStatus (s : State) (p g : Nat) (w : HitchWord) (bad : Bool) : Nat :=
  if commonBad w (s.hanksOn p (dieOf g)).length || bad then stMalformed
  else stOk

/-- Complete a control hitch that its control core refused (R113). -/
def State.refuseHitch (s : State) (p g pos index : Nat) (w : HitchWord) (st : Nat) : State :=
  (s.popHitch g pos).complete p g pos index (s.strandFor g pos) w st

/-- Whether a hank is a mirror of its partition (R446). -/
def State.mirrorHank (s : State) (p g : Nat) : Bool :=
  let hs := (s.part p).hanks
  (s.step p).paired && (hs.drop (hs.length / 2)).contains g

/-- KV_WALK (R235 to R237): at the head of its position, once its wait is served and no page of its chain is moving; it
signals when its descriptors are written. -/
def execKvWalk (g : Fin 16) (pos : Fin 8) (s : State) : Host.Outcome State Fault Refusal :=
  let g := g.val
  let q := pos.val
  .next (match s.headHitch g q, s.partOf g with
    | some (i, w), some p =>
      if hOpcode w ≠ 0x19 || !(s.issuing p) then s
      else
        let st := s.preStatus p g w (walkBad w || i == lastIndex)
        if st ≠ stOk then s.refuseHitch p g q i w st
        else
          let moving := (s.walk ((s.part p).chainBase + fld w 0x10 21 0)).any fun j =>
            s.kv.moves.any fun m => m.source == j
          if moving || !(s.controlReady p g q w (hOrder w)) then
            if moving then s else s.markControl p g q w (hOrder w)
          else
            let s := s.takeWait p (s.strandFor g q) w
            let r := s.walkBody p (dieOf g) w (s.mirrorHank p g)
            (r.2.popHitch g q).complete p g q i (r.2.strandFor g q) w r.1
    | _, _ => s)

/-! BIGHT_APPEND (R240 to R242) -/

/-- A BIGHT_APPEND breaks an operand-area rule (R240). -/
def appendBad (w : HitchWord) : Bool :=
  match fld w 0x10 31 30 with
  | 0 => fld w 0x10 29 22 != 0 || fld w 0x14 31 21 != 0 || fld w 0x18 31 21 != 0 || fld w 0x1C 31 21 != 0 ||
      !(zeroBytes w 0x20 0x40)
  | 1 => fld w 0x10 29 18 != 0 || fld w 0x14 31 5 != 0 || decide (16 < fld w 0x14 4 0) || !(zeroBytes w 0x18 0x40)
  | _ => true

/-- The lowest free aligned group of n slots in a partition's region of a die (R238). -/
def State.freeGroup (s : State) (d p n : Nat) : Option Nat :=
  let r := s.bightRegion d p
  let lo := r % 65536
  let hi := lo + r / 65536
  let used := s.kv.bight.filter fun b => b.die == d
  ((upTo ((hi - lo) / n + 1)).map fun i => (lo + n - 1) / n * n + i * n).find? fun a =>
    decide (a + n ≤ hi) && used.all fun b => decide (b.slot + b.n ≤ a ∨ a + n ≤ b.slot)

/-- The effect of an APPEND (R240, R241); a mirror copy only reads its rows (R447). -/
def State.appendBody (s : State) (r : Run) : Nat × Nat × State :=
  let w := r.w
  let local_ := fld w 0x10 21 0
  let position := fld w 0x14 20 0
  let ka := fld w 0x18 20 0
  let va := fld w 0x1C 20 0
  if (s.part r.p).chainSize ≤ local_ then (stAddrInvalid, 0, s)
  else
    let c := (s.part r.p).chainBase + local_
    let x := s.chain c
    let wd := codeWidth x.fmt
    let d := 32 * (x.d32 + 1)
    let bytes := rowPitch wd d + scaleBytes x.mx d
    let n := bightSlots wd x.mx d
    let rows := s.peek (r.place 0 ka) bytes ++ s.peek (r.place 0 va) bytes
    if !(inScratch ka bytes && inScratch va bytes) then (stAddrInvalid, 0, s)
    else if s.mirror r then (stOk, crc64 rows, s)
    else
      let es := s.entriesOf c
      if x.state != .opened || position != x.len + es.length then (stBightOrder, 0, s)
      else if 16 ≤ es.length then (stBightFull, 0, s)
      else
        match s.freeGroup r.die r.p n with
        | none => (stBightFull, 0, s)
        | some slot =>
          let b : Bight := { die := r.die, slot := slot, n := n, part := r.p, chain := c, position := position,
                             state := .pending }
          let at_ := bightBase r.die + 256 * slot
          let s := (s.poke at_ (rows.take bytes)).poke (at_ + 128 * n) (rows.drop bytes)
          (stOk, crc64 rows, { s with kv := { s.kv with bight := s.kv.bight ++ [b] } })

/-- The ranges of scratch that an APPEND reads: its rows, in the tag of its chain (R240). -/
def State.appendReads (s : State) (r : Run) : List (Nat × Nat) :=
  let x := s.chain ((s.part r.p).chainBase + fld r.w 0x10 21 0)
  let bytes := rowPitch (codeWidth x.fmt) (32 * (x.d32 + 1)) + scaleBytes x.mx (32 * (x.d32 + 1))
  [(fld r.w 0x18 20 0, bytes), (fld r.w 0x1C 20 0, bytes)]

/-- APPEND (R241). -/
def execAppend (st : Fin 128) (u : Upset) (s : State) : Host.Outcome State Fault Refusal :=
  .next (s.runHitch st.val 0x1A (fun w => fld w 0x10 31 30 == 0) u (fun r s => s.appendReads r) fun r s => s.appendBody r)

/-- ACCEPT (R241, R242): a SEQ beyond the partition's range names no sequence and so no chain (log entry 68). -/
def execAccept (st : Fin 128) (s : State) : Host.Outcome State Fault Refusal :=
  .next (s.runHitch st.val 0x1A (fun w => fld w 0x10 31 30 == 1) Upset.none (fun _ _ => []) fun r s =>
    let seq := fld r.w 0x10 17 0
    let key := acceptKey r.p seq
    let a := fld r.w 0x14 4 0
    let chains := if seq < (s.part r.p).seqSize then s.seqChains ((s.part r.p).seqBase + seq) else []
    if s.mirror r then (stOk, 0, s)
    else if (mget s.kv.accepts key).isSome ||
        chains.any fun c => decide ((s.entriesIn c .pending).length < a) then (stBightOrder, 0, s)
    else (stOk, 0, { s with kv := { s.kv with accepts := mput s.kv.accepts key a } }))

/-- HELD_FLUSH (R246): once a free list is no longer empty the HELD entries go to pages, but not within a commit. -/
def execHeldFlush (p : Fin 16) (t : Nat) (s : State) : Host.Outcome State Fault Refusal :=
  let p := p.val
  let s := s.tick t
  .next (
    if s.live p && (s.step p).phase != .committing && decide (0 < s.freePages p false + s.freePages p true) then
      let s := (s.flushHeld p).unstarveSeqs p
      { s with kv := { s.kv with nonEmptyAt := mdel s.kv.nonEmptyAt p } }
    else s)

/-! Pause, demotion and moves (R249 to R253) -/

/-- A page has expired. -/
def State.expired (s : State) (x : Page) : Bool :=
  x.ttlOn && x.expiry != 0xFFFFFFFF && decide (x.expiry ≤ s.now / 2 ^ 26)

/-- The pages of a sequence that the page manager may move (R237, R250): LIVE, held once, in no walked chain, of a tier. -/
def State.movable (s : State) (q : Nat) (ct : Bool) : List Nat :=
  ((s.seqChains q).filter fun c => !((s.chain c).walked)).flatMap fun c => (s.walk c).filter fun i =>
    match s.page i with
    | some x => x.state == .live && x.refs == 1 && x.ct == ct
    | none => false

/-- Start the move of a page to the other tier (R252). -/
def State.startMove (s : State) (p src : Nat) (demote : Bool) : State :=
  match s.page src, s.takeFrom p demote with
  | some x, some (dst, s) =>
    let base := if demote then (s.part p).pageBaseCt else (s.part p).pageBase
    let s := s.setPage dst (some { x with state := .inbound, ct := demote, frame := s.frameOf p demote (dst - base) })
    let s := s.setPage src (some { x with state := .moving })
    let m : Move := { part := p, source := src, target := dst, demote := demote, since := s.now }
    { s with kv := { s.kv with moves := s.kv.moves ++ [m] } }
  | _, _ => s

/-- Point what led to one page at another (R252). -/
def State.repoint (s : State) (a b : Nat) : State :=
  let move (i : Nat) : Nat := if i == a then b else i
  let s := { s with kv := { s.kv with pages := meach s.kv.pages fun i x => if i == a then x else { x with next := move x.next } } }
  { s with kv := { s.kv with chains := meach s.kv.chains fun _ x =>
                    { x with head := x.head.map move, tail := move x.tail, ownHead := x.ownHead.map move } } }

/-- A sequence that is being resumed returns to its former state once the last promotion of its pages has ended (R253, R279). -/
def State.finishResume (s : State) (q : Nat) : State :=
  match mget s.serve.seqs q with
  | none => s
  | some x =>
    let waits := (s.seqChains q).any fun c => (s.walk c).any fun i => s.kv.moves.any fun m => m.source == i
    if x.resuming && !waits then
      (s.modSeq q fun y => { y with state := y.back, resuming := false }).setChains q .opened
    else s

/-- The sequences of a partition that wait for a promotion go on. -/
def State.finishResumes (s : State) (p : Nat) : State :=
  foldS (fun s e => s.finishResume e.1) s (s.serve.seqs.filter fun e => e.2.part == p && e.2.resuming)

/-- PAGE_MOVE (R252): the oldest move of a partition ends: 64 KiB copied, the target LIVE and linked, the source FREE. A page
that cannot be read stays where it is (log entry 68). -/
def execPageMove (p : Fin 16) (t : Nat) (s : State) : Host.Outcome State Fault Refusal :=
  let p := p.val
  let s := s.tick t
  .next (match s.kv.moves.find? fun m => m.part == p with
    | none => s
    | some m =>
      let s := { s with kv := { s.kv with moves := s.kv.moves.filter fun x => x != m } }
      match s.page m.source, s.page m.target with
      | some a, some b =>
        let r := s.fetchMpa none (a.frame * 65536) 65536 []
        if r.1 ≠ stOk then
          ((r.2.2.modPage m.source fun x => { x with state := .live }).freePage p m.target).finishResumes p
        else
        let s := (r.2.2.storeMpa none (b.frame * 65536) r.2.1 []).2
        let e := s.expiryAt (s.reg (Reg.kvpPartTtlCt p))
        let s := s.setPage m.target (some { a with state := .live, ct := b.ct, frame := b.frame,
                                                   expiry := if m.demote then e else a.expiry })
        ((s.repoint m.source m.target).freePage p m.source).finishResumes p
      | _, _ => s)

/-! KV_SHIP (R254, R255). The packets of a ship are laid out by log entry 29. -/

/-- The 32-byte header of a ship packet: kind 1 OPEN, 2 PAGE, 3 ACCEPTED, 4 DONE, 5 FAILED; then the ship's number, chain ordinal (or
chains), page ordinal (or pages per chain), FILL (or LEN), tag, offset (or first chain). -/
def shipHead (kind num chain page fill tag off : Nat) : List Byte :=
  toLe 4 kind ++ toLe 4 num ++ toLe 4 chain ++ toLe 4 page ++ toLe 4 fill ++ toLe 4 tag ++ toLe 4 off ++ toLe 4 0

/-- Bytes of a page that one packet carries: whole lines. -/
def shipPiece : Nat := 4032

/-- Send a packet of a ship. -/
def State.sendShip (s : State) (x : Ship) (payload : List Byte) (resend : Bool) : State :=
  let p := s.packet 4 (x.modNum, x.toPart, 0) (x.part, 0) x.role x.epoch payload 0
  s.originate { p with resend := resend }

/-- Send pages of a ship, in chain order and walk order: whether each could be read (R157). -/
def State.sendPages (s : State) (num : Nat) (x : Ship) (resend : Bool) (pages : List (Nat × Nat)) : Bool × State :=
  match pages with
  | [] => (true, s)
  | e :: rest =>
    match s.page e.2 with
    | none => s.sendPages num x resend rest
    | some pg =>
      let r := s.fetchMpa none (pg.frame * 65536) 65536 []
      if r.1 ≠ stOk then (false, r.2.2)
      else
        let tag := pg.fmt + 16 * b2n pg.mx + 32 * pg.d32
        let s := foldS (fun s i =>
          s.sendShip x (shipHead 2 num (e.1 / 65536) (e.1 % 65536) pg.fill tag (i * shipPiece) ++
            (r.2.1.drop (i * shipPiece)).take shipPiece) resend) r.2.2 (upTo 17)
        s.sendPages num x resend rest

/-- The OPEN packet of a ship. -/
def State.openShip (s : State) (num : Nat) (x : Ship) (resend : Bool) : State :=
  let chains := s.seqChains x.seq
  let c := s.chain (chains.headD 0)
  s.sendShip x (shipHead 1 num chains.length ((s.walk (chains.headD 0)).length) c.len (c.fmt + 16 * b2n c.mx + 32 * c.d32)
    x.firstChain) resend

/-- The sequence of an ID, when it is in use. -/
def State.seq (s : State) (q : Nat) : Option Sequence := mget s.serve.seqs q

/-- The control block of a reel. -/
def State.reel (s : State) (q : Nat) : Reel := mgetD s.serve.reels q { wr := 0, rd := 0 }

/-- A RETIRED sequence whose reel is acknowledged and none of whose chains is OPEN frees its ID (R281). -/
def State.tidySeq (s : State) (q : Nat) : State :=
  match s.seq q with
  | none => s
  | some x =>
    let r := s.reel q
    if x.state == .retired && r.rd == r.wr && (s.seqChains q).all fun c => (s.chain c).state != .opened then
      { s with serve := { s.serve with seqs := mdel s.serve.seqs q } }
    else s

/-- The packets of a ship that await an ACK are forgotten: none of them is resent (R255). -/
def State.dropBulk (s : State) (num : Nat) (x : Ship) : State :=
  { s with ecron := { s.ecron with bulk := s.ecron.bulk.filter fun b =>
      !(b.2.packet.srcPart == x.part && leAt b.2.packet.payload 4 4 == num) } }

/-- The receiver accepts a ship (R254): every page of it is the source of the ship, and a move of one is given up. -/
def State.shipAccepted (s : State) (num : Nat) (x : Ship) : State :=
  let s := foldS (fun s e => (s.cancelMove e.2).modPage e.2 fun y => { y with state := .moving }) s x.toSend
  { s with kv := { s.kv with ships := mput s.kv.ships num { x with accepted := true } } }

/-- A ship ends (R254, R255): its pages return to LIVE, or the chains of a move close; the receiver of a failed one is told;
COMMAND_DONE tells the pages. -/
def State.endShip (s : State) (num : Nat) (x : Ship) (st : Nat) : State :=
  let other (i : Nat) : Bool := s.kv.ships.any fun e => e.1 != num && e.2.accepted && e.2.toSend.any fun k => k.2 == i
  let s := if !x.accepted then s else foldS (fun s e =>
    s.modPage e.2 fun y => if y.state == .moving && !(other e.2) then { y with state := .live } else y) s x.toSend
  let s := if st = stOk && !x.copy then foldS (fun s c => s.closeChain c) s (s.seqChains x.seq) else s
  let s := ({ s with kv := { s.kv with ships := mdel s.kv.ships num } }).dropBulk num x
  let s := s.tidySeq x.seq
  let s := if st = stShipFailed && (s.part x.part).txKey.isSome then s.sendShip x (shipHead 5 num 0 0 0 0 0) false else s
  s.commandDone x.session x.cmdSeq st [if st = stOk then x.toSend.length else x.shipped]

/-- KV_SHIP (R254, R284): accepted for a sequence whose chains are open though it is retired, and replied to at once. -/
def execKvShip (h : CmdHdr) (q : ShipReq) (s : State) : Host.Outcome State Fault Refusal :=
  .next (s.command h 0x050B fun s =>
    let p := sidPart h.session
    if (s.part p).seqSize ≤ q.index || 31 < q.part then ans stMalformed s
    else
      let id := (s.part p).seqBase + q.index
      let chains := s.seqChains id
      let okState := match mget s.serve.seqs id with
        | some x => x.state == .retired
        | none => false
      if !okState || chains.isEmpty || s.kv.ships.any (fun e => e.2.seq == id) then ans stSeqState s
      else
        let pages := ((upTo chains.length).zip chains).flatMap fun c =>
          ((upTo 65536).zip (s.walk c.2)).map fun e => (c.1 * 65536 + e.1, e.2)
        let num := s.kv.nextShip
        let x : Ship := { part := p, seq := id, copy := q.copy, modNum := q.modNum, toPart := q.part,
                          role := s.roleAt q.modNum q.part, firstChain := q.firstChain,
                          epoch := q.epoch, toSend := pages, accepted := false, shipped := 0, restarts := 0, cmdSeq := h.seq,
                          session := h.session }
        let s := { s with kv := { s.kv with ships := mput s.kv.ships num x, nextShip := num + 1 } }
        if (s.part p).txKey.isNone then ans stOk (s.endShip num x stShipFailed)
        else ans stOk (s.openShip num x false))

/-- A ship is restarted at another holder, or fails when its restarts are used up (R255): what the former holder has of it is
given up there, and none of its packets counts again. -/
def State.restartShip (s : State) (num modNum part epoch : Nat) : State :=
  match mget s.kv.ships num with
  | none => s
  | some x =>
    if s.reg Reg.ecnBulkRetries % 16 ≤ x.restarts then s.endShip num x stShipFailed
    else
      let s := s.dropBulk num x
      let s := if x.accepted then
          s.originate (s.packet 4 (x.modNum, x.toPart, 0) (x.part, 0) 0xFFFF 0 (shipHead 5 num 0 0 0 0 0) 0)
        else s
      let x := { x with modNum := modNum, toPart := part, epoch := epoch, restarts := x.restarts + 1 }
      let s := { s with kv := { s.kv with ships := mput s.kv.ships num x } }
      s.openShip num x true

/-- The receiver of a ship drops it (R255): its chains close and its INBOUND pages are freed. -/
def State.dropInbound (s : State) (y : Inbound) : State :=
  foldS (fun s c => s.closeChain c) { s with kv := { s.kv with inbound := s.kv.inbound.filter fun z => z != y } } y.chains

/-- The ship under way here that a packet names. -/
def State.inboundOf (s : State) (pk : Packet) : Option Inbound :=
  s.kv.inbound.find? fun y =>
    y.fromModule == pk.srcModule && y.fromPart == pk.srcPart && y.part == pk.dstPart && y.num == leAt pk.payload 4 4

/-- The receiver's side of an OPEN (R254): every page of every chain is allocated INBOUND, or the ship is refused with
PAGE_STARVED; pages reserved for chunks count as not free (R272). -/
def State.acceptShip (s : State) (pk : Packet) : State :=
  let p := pk.dstPart
  let b := pk.payload
  let num := leAt b 4 4
  let n := leAt b 8 4
  let per := leAt b 0xC 4
  let len := leAt b 0x10 4
  let tag := leAt b 0x14 4
  let first := leAt b 0x18 4
  let x := s.part p
  let chains := (upTo n).map fun i => x.chainBase + first + i
  let free := s.freePages p false + s.freePages p true - nget s.serve.reservedPages p
  let moved : Option (Nat × Nat × Nat) := match s.gate pk true with
    | .stop st m q e => if pk.srcModule = s.self ∧ st = stRoleMoved then some (m, q, e) else none
    | _ => none
  match moved with
  | some (m, q, e) => s.restartShip num m q e
  | none =>
  if (s.inboundOf pk).isSome then s
  else if !(s.live p) || x.chainSize < first + n || chains.any (fun c => (s.chain c).state != .closed) || free < n * per then
    match decide (pk.srcModule = s.self), mget s.kv.ships num with
    | true, some y => s.endShip num y stPageStarved
    | _, _ => s.refuseTo pk stPageStarved 0 0 0
  else
    let s := foldS (fun s c =>
      let rec_ : Chain := { Chain.empty with part := p, fmt := bits tag 3 0, mx := bit tag 4, d32 := bits tag 7 5,
                                             state := .opened, seq := 2 ^ 18 + c }
      let s := s.setChain c rec_
      foldS (fun s _ => match s.takePage p with
        | none => s
        | some (i, ct, s) => ((s.newPage c i ct).modPage i fun y => { y with state := .inbound }).linkPage c i) s (upTo per)) s chains
    let s := foldS (fun s c => s.modChain c fun y => { y with len := len }) s chains
    let pieces := chains.flatMap fun c => (s.walk c).flatMap fun i => (upTo 17).map fun k => i * 32 + k
    let y : Inbound := { fromModule := pk.srcModule, fromPart := pk.srcPart, num := num, part := p, chains := chains,
                         pages := pieces }
    let s := { s with kv := { s.kv with inbound := s.kv.inbound ++ [y] } }
    let q := s.packet 4 (pk.srcModule, pk.srcPart, pk.srcDie) (p, pk.dstDie) 0xFFFF 0
      (shipHead (if pieces.isEmpty then 4 else 3) num 0 0 0 0 0) 0
    s.originate q

/-- The receiver writes a piece of a page under its own key (R254); with the last one every page is LIVE and DONE is
sent. -/
def State.takePiece (s : State) (pk : Packet) : State :=
  let b := pk.payload
  match s.inboundOf pk with
  | none => s
  | some y =>
    let c := y.chains.getD (leAt b 8 4) 0
    let i := (s.walk c).getD (leAt b 0xC 4) 0
    let off := leAt b 0x18 4
    match s.page i with
    | none => s
    | some pg =>
      let s := (s.storeMpa (some (pk.dstDie % 4)) (pg.frame * 65536 + off) ((b.drop 32).take (min shipPiece (65536 - off))) []).2
      let s := s.modPage i fun z => { z with fill := leAt b 0x10 4 }
      let left := y.pages.filter fun k => k != i * 32 + off / shipPiece
      if left.isEmpty then
        let s := { s with kv := { s.kv with inbound := s.kv.inbound.filter fun z => z != y } }
        let s := foldS (fun s c => foldS (fun s j => s.modPage j fun z => { z with state := .live }) s (s.walk c)) s y.chains
        let q := s.packet 4 (pk.srcModule, pk.srcPart, pk.srcDie) (pk.dstPart, pk.dstDie) 0xFFFF 0
          (shipHead 4 (leAt b 4 4) 0 0 0 0 0) 0
        s.originate q
      else
        { s with kv := { s.kv with inbound := s.kv.inbound.map fun z => if z == y then { y with pages := left } else z } }

/-- Take the first packet of a VC delivered to a die's engine that a test picks. -/
def State.takeRx (s : State) (d : Nat) (f : Packet → Bool) : Option (Delivered × State) :=
  match (s.engine d).rx.find? fun x => f x.packet with
  | none => none
  | some x => some (x, s.modEngine d fun e => { e with rx := e.rx.erase x })

/-- A packet about a ship comes from its present holder. -/
def fromHolder (y : Ship) (pk : Packet) : Bool := pk.srcModule == y.modNum && pk.srcPart == y.toPart

/-- KV_SHIP_PAGE (R254): a delivered ship packet is acted on. -/
def execKvShipPage (die : Fin 4) (t : Nat) (s : State) : Host.Outcome State Fault Refusal :=
  let s := s.tick t
  .next (match s.takeRx die.val fun p => p.vc == 4 with
    | none => s
    | some (x, s) =>
      let b := x.packet.payload
      let num := leAt b 4 4
      match leAt b 0 4 with
      | 1 => s.acceptShip x.packet
      | 2 => s.takePiece x.packet
      | 3 => (match mget s.kv.ships num with
        | some y =>
          if !(fromHolder y x.packet) || y.accepted then s
          else
            let r := (s.shipAccepted num y).sendPages num y false y.toSend
            if r.1 then r.2 else r.2.endShip num { y with accepted := true } stShipFailed
        | none => s)
      | 4 => (match mget s.kv.ships num with
        | some y => if fromHolder y x.packet then s.endShip num { y with accepted := true } stOk else s
        | none => s)
      | 5 => (match s.inboundOf x.packet with
        | some y => s.dropInbound y
        | none => s)
      | _ => s)

/-! KVP_PART_BIGHT_REGION (R258) -/

/-- Whether a region value may be committed for a partition on a die (R258). -/
def State.regionOk (s : State) (d p v : Nat) : Bool :=
  let base := v % 65536
  let size := v / 65536
  base % 4 == 0 && size % 4 == 0 && decide (base + size ≤ 32768) &&
    ((upTo 16).all fun q => q == p || !(s.exists_ q) || size == 0 ||
      (let o := s.reg (Reg.kvpPartBightRegion d q)
       let o2 := s.bightRegion d q
       let clear (r : Nat) : Bool := r / 65536 == 0 || decide (base + size ≤ r % 65536 ∨ r % 65536 + r / 65536 ≤ base)
       clear o && clear o2)) &&
    s.kv.bight.all fun b => b.die != d || b.part != p || decide (base ≤ b.slot ∧ b.slot + b.n ≤ base + size)

/-- A write of KVP_PART_BIGHT_REGION: it takes effect at the partition's next step start. -/
def State.regionWrite (s : State) (d p v : Nat) : Nat × State :=
  if !(s.regionOk d p v) then (stSpliceConflict, s) else (stOk, s.setReg (Reg.kvpPartBightRegion d p) v)

/-- KVP_PART_BIGHT_REGION (R258). -/
def execKvpPartBightRegion (h : CmdHdr) (die : Fin 4) (p : Fin 16) (value : Word) (s : State) :
    Host.Outcome State Fault Refusal :=
  .next (s.regCommand h 0x0101 (Reg.kvpPartBightRegion die.val p.val) fun s =>
    let r := s.regionWrite die.val p.val value.toNat
    ans r.1 r.2)

end Sys2Proof.Machine
end

