-- ==== Sys2Proof/Machine/Experts.lean ====
section
/-! DEFINITION. Expert dispatch (chapter 10): TOPK, DISPATCH in both directions, the receive area, the returns with their
late statuses, and SCATTER_ADD. The payload of a row packet is laid out by log entry 36. -/

namespace Sys2Proof.Machine

/-- The formats of returned rows (R296). -/
def retFmt (c : Nat) : Bool := c == 0 || c == 1 || c == 5 || c == 7 || c == 8

/-! TOPK (R293 to R295) -/

/-- A TOPK breaks an operand-area rule (R293). -/
def topkBad (w : HitchWord) : Bool :=
  fld w 0x10 31 21 != 0 || fld w 0x14 15 13 != 0 || fld w 0x14 31 22 != 0 || fld w 0x18 31 16 != 0 ||
    fld w 0x1C 31 21 != 0 || fld w 0x20 31 16 != 0 || !(zeroBytes w 0x24 0x40) ||
    fld w 0x14 12 0 == 0 || decide (4096 < fld w 0x14 12 0) || decide (fld w 0x14 12 0 < fld w 0x14 19 16 + 1) ||
    fld w 0x18 15 0 == 0 || decide (4096 < fld w 0x18 15 0) || (flag w 0x14 20 && !(hVary w))

/-- Score a ranks before score b: higher, or equal with the lower tie number (R294, R295). -/
def ranksBefore (a b : Nat × Nat × Nat) : Bool :=
  (dec32 b.1).lt (dec32 a.1) || (!((dec32 a.1).lt (dec32 b.1)) && decide (a.2.1 ≤ b.2.1))

/-- The k chosen scores of a row, best first: score, tie number, expert. A NaN is never chosen (R294). -/
def chosen (scores : List (Nat × Nat × Nat)) (k : Nat) : List (Nat × Nat × Nat) :=
  ((scores.filter fun x => !(isNan32 x.1)).mergeSort ranksBefore).take k

/-- The softmax weights of the chosen scores in FP32, with their flags (R294). -/
def softmaxWeights (scores : List Nat) : List (Nat × Nat) :=
  let top := scores.headD 0
  let es := scores.map fun x =>
    let d := fsub x top
    let e := fexp d.1
    (e.1, orBits d.2 e.2)
  let sum := (es.drop 1).foldl (fun a e => let x := fadd a.1 e.1
                                           (x.1, orBits a.2 (orBits e.2 x.2))) (es.headD (0, 0))
  es.map fun e =>
    let q := fdiv e.1 sum.1
    (q.1, orBits sum.2 q.2)

/-- The route entries of one row (R293, R294): k words, and flags. -/
def routeRow (scores : List (Nat × Nat × Nat)) (k : Nat) (soft sat : Bool) : List Nat × Nat :=
  let c := chosen scores k
  let ws := if soft then softmaxWeights (c.map Prod.fst) else c.map fun x => (x.1, 0)
  let es := (c.zip ws).map fun x =>
    let b := Fmt.bf16.encode sat .rne (dec32 x.2.1)
    (x.1.2.2 + 65536 * b.1, orBits x.2.2 b.2)
  (es.map Prod.fst ++ (upTo (k - c.length)).map fun _ => 0xFFFF, (es.map Prod.snd).foldl orBits 0)

/-- The effect of a TOPK. With TIE = 1 equal scores rank by free values (R295; log entry 8). -/
def State.topkBody (s : State) (r : Run) : Nat × Nat × State :=
  let w := r.w
  let src := fld w 0x10 20 0
  let n := fld w 0x14 12 0
  let k := fld w 0x14 19 16 + 1
  let tie := flag w 0x14 20
  let tokens := fld w 0x18 15 0
  let dst := fld w 0x1C 20 0
  let stride := 16 * fld w 0x20 15 0
  if !(inScratch (rowsEnd src stride tokens (4 * n)) 0 && inScratch dst (tokens * k * 4)) then (stAddrInvalid, 0, s)
  else
    let rows := (upTo tokens).map fun t =>
      let row := s.peekLe (r.place 0 (src + t * stride)) (4 * n)
      routeRow ((upTo n).map fun i =>
        (elemAt 32 row i, if tie then Config.freeValue (s.fresh + t * n + i) else i, i)) k (flag w 0x14 21) (hSat w)
    let bs := rows.flatMap fun x => x.1.flatMap (toLe 4)
    let s := if tie then { s with fresh := s.fresh + tokens * n } else s
    (stOk, crc64 bs, (s.put (r.place 0 dst) bs).arith r.st ((rows.map Prod.snd).foldl orBits 0))

/-- The scratch that a TOPK reads (R293). -/
def topkReads (w : HitchWord) : List (Nat × Nat) :=
  rowReads 0 (fld w 0x10 20 0) (16 * fld w 0x20 15 0) (fld w 0x18 15 0) (4 * fld w 0x14 12 0)

/-- TOPK (R293). -/
def execTopk (st : Fin 128) (u : Upset) (s : State) : Host.Outcome State Fault Refusal :=
  .next (s.runHitch st.val 0x31 (fun _ => true) u (fun r _ => topkReads r.w) fun r s =>
    let x := s.residueUpset r.st u
    if x.1 ≠ stOk then (x.1, 0, x.2) else x.2.topkBody r)

/-! The routing table (R291, R292) -/

/-- A home of an expert: module, partition, die, receive slot and role epoch. -/
structure Home where
  modNum : Nat
  part : Nat
  die : Nat
  slot : Nat
  epoch : Nat
  deriving DecidableEq, Repr

/-- Home h of a table entry. -/
def homeOf (b : List Byte) (h : Nat) : Home :=
  let v := leAt b (8 + 8 * h) 8
  { modNum := bits v 7 0, part := bits v 11 8, die := bits v 13 12, slot := bits v 27 16, epoch := bits v 63 32 }

/-- Homes listed in a table entry. -/
def homesOf (b : List Byte) : Nat := leAt b 0 1 % 4 + 1
/-- A table entry is of KIND SHARDS. -/
def entrySharded (b : List Byte) : Bool := bit (leAt b 0 1) 2
/-- A table entry is VALID. -/
def entryValid (b : List Byte) : Bool := bit (leAt b 0 1) 3

/-- A value of the dispatch group of a partition in force: 0 table, 1 its size, 2 receive area, 3 its shape, 4 its slots,
5 shard area (R309). -/
def State.dspForce (s : State) (p i : Nat) : Nat := (mgetD s.dispatch.force p []).getD i 0

/-- A routing-table entry through the engine's cache of 1,024 entries (R292): a status, the entry. -/
def State.tableEntry (s : State) (d p idx : Nat) (errs : List (Nat × ReadErr)) : Nat × List Byte × State :=
  match mget (s.engine d).cache (p * 65536 + idx) with
  | some b => (stOk, b, s)
  | none =>
    let x := s.fetchP (some d) p (s.dspForce p 0 + 64 * idx) 64 errs
    if x.1 ≠ stOk then x
    else
      (stOk, x.2.1, x.2.2.modEngine d fun e =>
        let kept := if e.cache.length < 1024 then e.cache else e.cache.drop 1
        { e with cache := mput kept (p * 65536 + idx) x.2.1 })

/-! Row packets -/

/-- Bytes of a row that one packet carries after its header flit. -/
def rowPiece : Nat := 4064

/-- The header of a row packet: 1 a dispatched row, 2 a returned row; whether its entry is SHARDS; the format of a
returned row; local expert; token; rank; home index; return slot; the offset of the piece and the bytes of the row. -/
structure RowHead where
  kind : Nat
  sharded : Bool
  fmt : Nat
  slot : Nat
  token : Nat
  rank : Nat
  shard : Nat
  ret : Nat
  offset : Nat
  total : Nat
  deriving DecidableEq, Repr

/-- The 32 bytes of a row header. -/
def RowHead.bytes (h : RowHead) : List Byte :=
  toLe 1 h.kind ++ toLe 1 (b2n h.sharded + 16 * h.fmt) ++ toLe 2 h.slot ++ toLe 2 h.token ++ toLe 1 h.rank ++
    toLe 1 h.shard ++ toLe 4 h.ret ++ toLe 4 h.offset ++ toLe 4 h.total ++ toLe 12 0

/-- Read a row header. -/
def RowHead.parse (b : List Byte) : RowHead :=
  { kind := leAt b 0 1, sharded := bit (leAt b 1 1) 0, fmt := leAt b 1 1 / 16, slot := leAt b 2 2, token := leAt b 4 2,
    rank := leAt b 6 1, shard := leAt b 7 1, ret := leAt b 8 4, offset := leAt b 0xC 4, total := leAt b 0x10 4 }

/-- Send a row in pieces from a partition's engine (R370, R399). -/
def State.sendPieces (s : State) (p d : Nat) (dst : Nat × Nat × Nat) (role epoch : Nat) (h : RowHead) (row : List Byte) :
    State :=
  foldS (fun s i =>
    let pay := { h with offset := i * rowPiece, total := row.length }.bytes ++ (row.drop (i * rowPiece)).take rowPiece
    s.originate (s.packet 2 dst (p, d) role epoch pay (crc64 pay))) s (upTo (max 1 (ceilDiv row.length rowPiece)))

/-- Send a packet again to a home (R308, R379, R401), under the header given. -/
def State.resendPiece (s : State) (pk : Packet) (dst : Nat × Nat × Nat) (epoch : Nat) (h : RowHead) : State :=
  let pay := h.bytes ++ pk.payload.drop 32
  s.originate { pk with dstModule := dst.1, dstPart := dst.2.1, dstDie := dst.2.2, dstEpoch := epoch, resend := true,
                        payload := pay, telltale := crc64 pay }

/-! SEND (R296 to R299) -/

/-- A SEND breaks an operand-area rule (R296) on a die where its partition holds h hanks. -/
def sendBad (w : HitchWord) (h : Nat) : Bool :=
  flag w 0x10 3 || fld w 0x10 31 8 != 0 || fld w 0x10 2 1 == 3 || (fld w 0x10 2 1 == 2 && !(hVary w)) ||
    !(retFmt (fld w 0x10 7 4)) || fld w 0x14 31 20 != 0 || fld w 0x14 15 0 == 0 || decide (4096 < fld w 0x14 15 0) ||
    fld w 0x18 31 21 != 0 || fld w 0x1C 31 21 != 0 || fld w 0x24 15 0 == 0 || fld w 0x28 31 23 != 0 ||
    fld w 0x2C 15 12 != 0 || fld w 0x2C 11 0 == 0 || fld w 0x2C 11 0 % 32 != 0 ||
    knotBad (fld w 0x2C 31 16) 1 h || (knotValid (fld w 0x2C 31 16) && !(knotDie (fld w 0x2C 31 16))) ||
    !(zeroBytes w 0x30 0x40)

/-- k of a SEND. -/
def SendCtx.k (c : SendCtx) : Nat := fld c.word 0x14 19 16 + 1
/-- Bytes of a returned row in RET_FMT. -/
def SendCtx.rowBytes (c : SendCtx) : Nat :=
  fld c.word 0x2C 11 0 * ((Fmt.ofCode (fld c.word 0x10 7 4)).getD .fp32).width / 8
/-- The return slot of a route entry (R296). -/
def SendCtx.slot (c : SendCtx) (token rank : Nat) : Nat :=
  fld c.word 0x28 22 0 + (token * c.k + rank) * c.rowBytes
/-- OVERFLOW of a SEND is DYNAMIC. -/
def SendCtx.dynamic (c : SendCtx) : Bool := fld c.word 0x10 2 1 == 2
/-- A SEND seen as a run of its hitch. -/
def SendCtx.run_ (c : SendCtx) : Run :=
  { st := c.strand, g := c.hank, p := c.part,
    e := { id := 0, pos := c.pos, index := c.index, word := c.word, phase := .running, since := none, digest := 0 } }

/-- The mirror of a hank, in paired mode (R446). -/
def State.mirrorOf (s : State) (p g : Nat) : Option Nat :=
  let hs := (s.part p).hanks
  if (s.step p).paired then
    match hs.findIdx? fun x => x == g with
    | some i => if i < hs.length / 2 then hs[i + hs.length / 2]? else none
    | none => none
  else none

/-- The strands and hanks that receive what a SEND's engine writes: the copy's own and, in paired mode, its mirror's (log
entry 37). -/
def State.copies (s : State) (c : SendCtx) : List (Nat × Nat) :=
  (c.strand, c.hank) :: (match s.mirrorOf c.part c.hank with
    | some g => [(s.strandFor g c.pos, g)]
    | none => [])

/-- Raise a late status of a SEND hitch (R299). -/
def State.lateStatus (s : State) (c : SendCtx) (st : Nat) : State :=
  s.raise c.part c.hank c.pos c.index (some c.strand) st

/-- RET_KNOT receives 1 (R299), with KNOT_OVERFLOW when it cannot. -/
def State.retSignal (s : State) (c : SendCtx) (st : Nat) : State :=
  let k := fld c.word 0x2C 31 16
  if knotValid k then
    let x := s.signalKnot c.part st k 1
    if x.2 then x.1.lateStatus c stKnotOverflow else x.1
  else s

/-- Rewrite a route entry of a strand to DROPPED and signal RET_KNOT for it (R297). -/
def State.dropRoute (s : State) (c : SendCtx) (st token rank : Nat) : State :=
  let at_ := scratchBase st + fld c.word 0x18 20 0 + (token * c.k + rank) * 4
  (s.put at_ (toLe 2 0xFFFE)).retSignal c st

/-- The SEND that a route entry belongs to. -/
def SendCtx.same (c x : SendCtx) : Bool := x.strand == c.strand && x.part == c.part && x.pos == c.pos && x.index == c.index

/-- Change the entries of a SEND. -/
def State.modSend (s : State) (c : SendCtx) (f : List RouteEntry → List RouteEntry) : State :=
  { s with dispatch := { s.dispatch with
      sends := s.dispatch.sends.map fun x => if c.same x then { x with entries := f x.entries } else x } }

/-- Take an entry out of its SEND: it awaits nothing any more. -/
def State.dropEntry (s : State) (c : SendCtx) (e : RouteEntry) : State :=
  s.modSend c fun l => l.filter fun x => !(x.token == e.token && x.rank == e.rank)

/-- An entry of a SEND that was offered becomes DROPPED (R298). -/
def State.dropLate (s : State) (c : SendCtx) (e : RouteEntry) : State :=
  let s := (s.dropEntry c e).inc (Reg.dspPartDropCount c.part)
  foldS (fun s x => s.dropRoute c x.1 e.token e.rank) s (s.copies c)

/-- Send a route entry's row to a home (R291, R297): counted once (R308). -/
def State.sendRow (s : State) (c : SendCtx) (d : Nat) (e : RouteEntry) (b : List Byte) (h : Nat) (row : List Byte) : State :=
  let m := homeOf b h
  let s := (s.inc (Reg.dspSentCount d))
  let s := if h = 0 || e.sharded then s else s.inc (Reg.dspPartReplicaCount c.part)
  s.sendPieces c.part d (m.modNum, m.part, m.die) (s.roleAt m.modNum m.part) m.epoch
    { kind := 1, sharded := e.sharded, fmt := 0, slot := m.slot, token := e.token, rank := e.rank, shard := h,
      ret := c.slot e.token e.rank, offset := 0, total := 0 } row

/-- Where the n-th entry of an expert goes (R297, R298): the homes it is sent to, none when it overflows. -/
def homesFor (b : List Byte) (ov cap n : Nat) : List Nat :=
  if entrySharded b then (if n < cap || ov = 2 then upTo (homesOf b) else [])
  else if n < cap then [0]
  else if ov = 1 then (if n / cap < homesOf b then [n / cap] else [])
  else if ov = 2 then [0]
  else []

/-- A SEND under way: its state, the entries taken by expert, and its status. -/
structure SendRun where
  s : State
  counts : Map Nat
  status : Nat

/-- Take one route entry (R297). -/
def SendRun.take (a : SendRun) (c : SendCtx) (d : Nat) (mirror : Bool) (errs : List (Nat × ReadErr))
    (token rank expert : Nat) : SendRun :=
  if a.status ≠ stOk || expert = 0xFFFF then a
  else if expert = 0xFFFE then { a with s := a.s.retSignal c c.strand }
  else
    let idx := fld c.word 0x24 31 16 + expert
    if a.s.dspForce c.part 1 ≤ idx then { a with status := stRouteInvalid }
    else
      let x := a.s.tableEntry d c.part idx errs
      if x.1 ≠ stOk then { a with s := x.2.2, status := x.1 }
      else if !(entryValid x.2.1) then { a with s := x.2.2, status := stRouteInvalid }
      else
        let n := nget a.counts expert
        let counts := nput a.counts expert (n + 1)
        let homes := homesFor x.2.1 (fld c.word 0x10 2 1) (fld c.word 0x24 15 0) n
        if homes.isEmpty then
          let s := if mirror then x.2.2 else x.2.2.inc (Reg.dspPartDropCount c.part)
          { a with s := s.dropRoute c c.strand token rank, counts := counts }
        else if mirror then { a with s := x.2.2, counts := counts }
        else
          let row := x.2.2.peek (scratchBase c.strand + fld c.word 0x1C 20 0 + token * 16 * fld c.word 0x20 15 0)
            (16 * fld c.word 0x20 31 16)
          let e : RouteEntry := { token := token, rank := rank, expert := expert, home := homes.headD 0, moved := [],
                                  sharded := entrySharded x.2.1, shards := homes.length, landed := [], parts := [],
                                  place := none, lost := false }
          let s := x.2.2.modSend c fun l => l ++ [e]
          { a with s := foldS (fun s h => s.sendRow c d e x.2.1 h row) s homes, counts := counts }

/-- A partition that has no send key sends no row and runs no collective (R483). -/
def State.keyless (s : State) (p : Nat) : Bool := (s.part p).txKey.isNone

/-- The effect of a SEND (R296 to R299, R483). -/
def State.sendBody (s : State) (r : Run) (u : Upset) : Nat × Nat × State :=
  let w := r.w
  let tokens := fld w 0x14 15 0
  let c : SendCtx := { strand := r.st, hank := r.g, pos := r.e.pos, index := r.e.index, part := r.p,
                       step := (s.step r.p).counter, run := (s.step r.p).run, word := w, entries := [] }
  let route := fld w 0x18 20 0
  let rows := fld w 0x1C 20 0
  let n := tokens * c.k
  if s.keyless r.p then (stRouteInvalid, 0, s)
  else if !(inScratch route (4 * n) && inScratch (rowsEnd rows (16 * fld w 0x20 15 0) tokens (16 * fld w 0x20 31 16)) 0 &&
      inRegion (fld w 0x28 22 0) (n * c.rowBytes)) then (stAddrInvalid, 0, s)
  else
    let list := s.peek (r.place 0 route) (4 * n)
    let read := list ++ (upTo tokens).flatMap fun t =>
      s.peek (r.place 0 (rows + t * 16 * fld w 0x20 15 0)) (16 * fld w 0x20 31 16)
    let mirror := s.mirror r
    let s := if mirror then s
      else
        let s := { s with dispatch := { s.dispatch with
                            sends := (s.dispatch.sends.filter fun x => !(c.same x)) ++ [c] } }
        s.modStep r.p fun x => { x with rowsSent := true }
    let a := foldS (fun (a : SendRun) i => a.take c r.die mirror u.mem (i / c.k) (i % c.k) (leAt list (4 * i) 2))
      { s := s, counts := [], status := stOk } (upTo n)
    (a.status, crc64 read, a.s)

/-- The scratch that a SEND reads (R296): its route list and its rows. -/
def sendReads (w : HitchWord) : List (Nat × Nat) :=
  (fld w 0x18 20 0, 4 * fld w 0x14 15 0 * (fld w 0x14 19 16 + 1)) ::
    rowReads 0 (fld w 0x1C 20 0) (16 * fld w 0x20 15 0) (fld w 0x14 15 0) (16 * fld w 0x20 31 16)

/-- SEND (R296). -/
def execSend (st : Fin 128) (u : Upset) (s : State) : Host.Outcome State Fault Refusal :=
  .next (s.runHitch st.val 0x28 (fun w => !(flag w 0x10 0)) u (fun r _ => sendReads r.w) fun r s => s.sendBody r u)

/-! Refused rows (R298, R301, R302, R308, R401) -/

/-- The SEND and entry of a dispatched row's header. -/
def State.entryOf (s : State) (p d : Nat) (h : RowHead) : Option (SendCtx × RouteEntry) :=
  match s.dispatch.sends.find? fun c => c.part == p && c.strand / 32 == d && c.slot h.token h.rank == h.ret &&
      c.entries.any fun e => e.token == h.token && e.rank == h.rank with
  | none => none
  | some c => (c.entries.find? fun e => e.token == h.token && e.rank == h.rank).map fun e => (c, e)

/-- Take the holder and epoch of a ROLE_MOVED into the table entry: into the cached one, and into memory only over a
lower EPOCH (R308). -/
def State.reResolve (s : State) (d p idx h modNum part epoch : Nat) : State :=
  let put (b : List Byte) : List Byte :=
    let v := leAt b (8 + 8 * h) 8
    let v := v / 4096 % 2 ^ 20 * 4096 + modNum % 256 + 256 * (part % 16) + 2 ^ 32 * (epoch % 2 ^ 32)
    b.take (8 + 8 * h) ++ toLe 8 v ++ b.drop (16 + 8 * h)
  let s := s.modEngine d fun e => { e with cache := mmod e.cache (p * 65536 + idx) put }
  let at_ := s.dspForce p 0 + 64 * idx
  let x := s.fetchP (some d) p at_ 64 []
  if x.1 = stOk && decide ((homeOf x.2.1 h).epoch < epoch) then (x.2.2.storeP (some d) p at_ (put x.2.1) []).2 else x.2.2

/-- The place at which a status of a partition's engine is raised when no hitch of it is known: the lowest hank of the
die, with the INDEX that no hitch takes (R111; log entry 36). -/
def State.raiseAt (s : State) (p d st : Nat) : State :=
  s.raise p ((s.hanksOn p d).headD (s.firstHank p)) 0 0xFFFFFF none st

/-- A REFUSE of a dispatched or returned row at its sender (R298, R301, R302, R308, R401, R426). -/
def State.refusedRow (s : State) (pk : Packet) (st modNum part epoch : Nat) : State :=
  let p := pk.srcPart
  let d := pk.srcDie
  let h := RowHead.parse pk.payload
  if st = stTelltaleMismatch && !(s.dispatch.ttSent.contains (p, packetData pk)) then
    let s := { s with dispatch := { s.dispatch with ttSent := (p, packetData pk) :: s.dispatch.ttSent } }
    (s.inc (Reg.dspPartColResendCount p)).resendPiece pk (pk.dstModule, pk.dstPart, pk.dstDie) pk.dstEpoch h
  else if h.kind != 1 then (if st = stTelltaleMismatch then s.raiseAt p d st else s)
  else
    match s.entryOf p d h with
    | none => s
    | some (c, e) =>
      let idx := fld c.word 0x24 31 16 + e.expert
      if st = stRoleMoved then
        let s := (s.inc (Reg.dspRoleMovedCount d)).reResolve d p idx h.shard modNum part epoch
        let row := if e.sharded then h.shard else 0
        let moved := if h.offset = 0 then nput e.moved row (nget e.moved row + 1) else e.moved
        let s := s.modSend c fun l => l.map fun x =>
          if x.token == e.token && x.rank == e.rank then { x with moved := moved } else x
        if 4 ≤ nget moved row then (s.dropEntry c e).lateStatus c stRouteLost
        else s.resendPiece pk (modNum, part, pk.dstDie) epoch h
      else if st = stRxFull then
        if !(c.dynamic) then (s.dropEntry c e).lateStatus c stRxFull
        else
          let x := s.tableEntry d p idx []
          let next := h.shard + 1
          if e.sharded || x.1 ≠ stOk || homesOf x.2.1 ≤ next then x.2.2.dropLate c e
          else
            let m := homeOf x.2.1 next
            let s := if h.offset = 0 then x.2.2.inc (Reg.dspPartReplicaCount p) else x.2.2
            let pk := { pk with dstRole := s.roleAt m.modNum m.part }
            s.resendPiece pk (m.modNum, m.part, m.die) m.epoch { h with shard := next, slot := m.slot }
      else if st = stRxExpired || st = stTelltaleMismatch || st = stFunctionReset then (s.dropEntry c e).lateStatus c st
      else s

/-- Refuse a row to its sender, which may be this module (R372, R374). -/
def State.refuseRow (s : State) (pk : Packet) (st modNum part epoch : Nat) : State :=
  let s := s.countStop st
  if pk.srcModule = s.self then s.refusedRow pk st modNum part epoch else s.refuseTo pk st modNum part epoch

/-! Receiving (R300 to R302) -/

/-- How a step number of 32 bits stands to a partition's step: earlier, now, or later (R301, R370). -/
def State.stepOrder (s : State) (p step : Nat) : Ordering :=
  let c := (s.step p).counter % 2 ^ 32
  let d := (step % 2 ^ 32 + 2 ^ 32 - c) % 2 ^ 32
  if 2 ^ 31 ≤ d then .lt
  else if d = 0 && s.inRun p then .eq
  else .gt

/-- The source of a row as one number. -/
def pktSource (p : Packet) : Nat := p.srcModule + 256 * p.srcPart + 8192 * p.srcDie

/-- A telltale mismatch at a receiver (R401): recorded and refused; a second one for the same data ends the run. -/
def State.ttMismatch (s : State) (pk : Packet) (observed : Nat) (peer : List (Nat × Nat)) (second : Bool) : State :=
  let p := pk.dstPart
  let s := s.inc (Reg.dspPartColTtMismatchCount p)
  let r := s.record 4 (some p)
  let s := s.fsr { r with wher := [(0, pk.dstDie)], telltales := some (pk.telltale, observed), peer := peer,
                          action := if second then s.runAction p 1 else 0 }
  let s := { s with dispatch := { s.dispatch with ttSeen := (p, packetData pk) :: s.dispatch.ttSeen } }
  s

/-- Count a row on a counter: one of several packets counts with its first piece (log entry 36). -/
def State.countRow (s : State) (pk : Packet) (a : Nat) : State :=
  if (RowHead.parse pk.payload).offset = 0 then s.inc a else s

/-- A row packet of a receive area is placed (R300 to R302): a piece of a row already placed goes to its slot. -/
def State.placeRow (s : State) (pk : Packet) : State :=
  let p := pk.dstPart
  let h := RowHead.parse pk.payload
  let seen := crc64 pk.payload
  let peer := [(0, pk.srcModule), (1, pk.srcPart), (2, pk.srcDie)]
  let second := s.dispatch.ttSeen.contains (p, packetData pk)
  let cap := s.dspForce p 3 % 65536
  let len := 16 * (s.dspForce p 3 / 65536)
  let slots := s.dspForce p 4
  let same (x : RxRow) : Bool := x.part == p && x.expert == h.slot && x.src == (pktSource pk) && x.token == h.token &&
    x.rank == h.rank && x.shard == h.shard
  if seen ≠ pk.telltale then
    let s := (s.ttMismatch pk seen peer second).refuseRow pk stTelltaleMismatch 0 0 0
    if second then s.raiseAt p pk.dstDie stTelltaleMismatch else s
  else
    match s.dispatch.rows.find? fun x => same x && x.offset == h.offset with
    | some x =>
      if x.telltale = pk.telltale then s.countRow pk (Reg.dspDupDiscardCount pk.dstDie)
      else
        let s := (s.ttMismatch pk seen peer true).refuseRow pk stTelltaleMismatch 0 0 0
        s.raiseAt p pk.dstDie stTelltaleMismatch
    | none =>
      let first := s.dispatch.rows.find? same
      let used := ((s.dispatch.rows.filter fun x => x.part == p && x.expert == h.slot).map fun x => x.row + 1).foldl max 0
      if first.isNone && (slots ≤ h.slot || cap ≤ used) then
        (s.countRow pk (Reg.dspPartRxfullCount p)).refuseRow pk stRxFull 0 0 0
      else
        let i := match first with
          | some x => x.row
          | none => used
        let n := h.slot * cap + i
        let rx := s.dspForce p 2
        let x : RxRow := { part := p, expert := h.slot, row := i, src := (pktSource pk), token := h.token, rank := h.rank,
                           shard := h.shard, offset := h.offset, telltale := pk.telltale }
        let s := { s with dispatch := { s.dispatch with rows := s.dispatch.rows ++ [x] } }
        let s := (s.storeP (some pk.dstDie) p (rx + n * len + h.offset) ((pk.payload.drop 32).take (len - h.offset)) []).2
        if first.isSome then s
        else
          let md := pk.srcModule + 256 * (pk.srcPart % 16) + 4096 * pk.srcDie + 16384 * (h.shard % 4) +
            65536 * (h.token % 4096) + 2 ^ 28 * (h.rank % 16) + 2 ^ 32 * (h.ret % 2 ^ 23) + 2 ^ 55 * b2n h.sharded
          let s := (s.storeP (some pk.dstDie) p (rx + slots * cap * len + 8 * n) (toLe 8 md) []).2
          let s := (s.storeP (some pk.dstDie) p (rx + slots * cap * (len + 8) + 4 * h.slot) (toLe 4 (i + 1)) []).2
          s.inc (Reg.dspRecvCount pk.dstDie)

/-- Whether a delivered packet is a row of a kind. -/
def isRow (kind : Nat) (p : Packet) : Bool := p.vc == 2 && p.ptype == 1 && (RowHead.parse p.payload).kind == kind

/-- Whether a row still waits at its home for its step, or for a role to rise when it comes from this module (R301,
R373). -/
def State.rowWaits (s : State) (x : Delivered) : Bool :=
  s.stepOrder x.packet.dstPart x.packet.step == .gt ||
    (x.packet.srcModule == s.self && s.gate x.packet (decide (x.at_ + 1000000 ≤ s.now)) == .hold)

/-- A delivered row leaves the receive queue of its die and is placed, discarded or refused (R301). -/
def State.admitRow (s : State) (d : Nat) (x : Delivered) : State :=
  let pk := x.packet
  let s := s.modEngine d fun e => { e with rx := e.rx.erase x }
  match (if pk.srcModule = s.self then s.gate pk true else .pass) with
  | .stop st m q e => s.refuseRow pk st m q e
  | _ =>
    if s.stepOrder pk.dstPart pk.step == .lt then s.countRow pk (Reg.dspDupDiscardCount d) else s.placeRow pk

/-- Two row packets carry pieces of one row of a step. -/
def sameRow (a b : Packet) : Bool :=
  let h := RowHead.parse a.payload
  let k := RowHead.parse b.payload
  pktSource a == pktSource b && a.dstPart == b.dstPart && a.step == b.step && h.token == k.token && h.rank == k.rank &&
    h.shard == k.shard && h.slot == k.slot && h.ret == k.ret

/-- DISPATCH_ROW (R301): the first row of a die's receive queue that need not wait is placed, discarded or refused. -/
def execDispatchRow (die : Fin 4) (t : Nat) (s : State) : Host.Outcome State Fault Refusal :=
  let d := die.val
  let s := s.tick t
  .next (match (s.engine d).rx.find? fun x => isRow 1 x.packet && !(s.rowWaits x) with
    | none => s
    | some x => s.admitRow d x)

/-- RX_EXPIRED (R301): a row that has waited for the limit is discarded, counted and refused, the other pieces of it that
wait with it too; a limit of 0 sets none. -/
def execRxExpired (die : Fin 4) (t : Nat) (s : State) : Host.Outcome State Fault Refusal :=
  let d := die.val
  let s := s.tick t
  let late (x : Delivered) : Bool :=
    let l := s.waitLimit x.packet.dstPart d
    isRow 1 x.packet && s.rowWaits x && l != 0 && decide (x.at_ + l ≤ s.now)
  .next (match (s.engine d).rx.find? late with
    | none => s
    | some x =>
      let s := s.modEngine d fun e => { e with rx := e.rx.filter fun y => !(isRow 1 y.packet && sameRow x.packet y.packet) }
      (s.inc (Reg.dspRxExpiredCount d)).refuseRow x.packet stRxExpired 0 0 0)

/-! RETURN (R303, R304) -/

/-- A RETURN breaks an operand-area rule (R303). -/
def retBad (w : HitchWord) : Bool :=
  fld w 0x10 3 1 != 0 || fld w 0x10 31 8 != 0 || !(retFmt (fld w 0x10 7 4) || fld w 0x10 7 4 == 15) ||
    fld w 0x14 15 12 != 0 || fld w 0x14 31 29 != 0 || fld w 0x14 28 16 == 0 || decide (4096 < fld w 0x14 28 16) ||
    fld w 0x20 31 16 != 0 || !(zeroBytes w 0x24 0x40)

/-- Return the output row of one filled slot (R303). -/
def State.returnOne (s : State) (r : Run) (errs : List (Nat × ReadErr)) (x : RxRow) : Nat × State :=
  let w := r.w
  let cap := s.dspForce r.p 3 % 65536
  let len := 16 * (s.dspForce r.p 3 / 65536)
  let slots := s.dspForce r.p 4
  let n := x.expert * cap + x.row
  let pitch := 16 * fld w 0x20 15 0
  let m := s.fetchP (some r.die) r.p (s.dspForce r.p 2 + slots * cap * len + 8 * n) 8 errs
  if m.1 ≠ stOk then (m.1, m.2.2)
  else
    let md := ofLe m.2.1
    let o := m.2.2.fetchP (some r.die) r.p (fld w 0x18 63 0 + n * pitch) pitch errs
    if o.1 ≠ stOk then (o.1, o.2.2)
    else
      (stOk, o.2.2.sendPieces r.p r.die (bits md 7 0, bits md 11 8, bits md 13 12) 0xFFFF 0
        { kind := 2, sharded := bit md 55, fmt := fld w 0x10 7 4, slot := 0, token := bits md 27 16, rank := bits md 31 28,
          shard := bits md 15 14, ret := bits md 54 32, offset := 0, total := 0 } o.2.1)

/-- Return rows in order until one fails. -/
def State.returnAll (s : State) (r : Run) (errs : List (Nat × ReadErr)) (xs : List RxRow) : Nat × State :=
  match xs with
  | [] => (stOk, s)
  | x :: rest =>
    let y := s.returnOne r errs x
    if y.1 = stOk then y.2.returnAll r errs rest else y

/-- The effect of a RETURN: the rows of the local experts named, by expert and row (R303, R483). -/
def State.returnBody (s : State) (r : Run) (u : Upset) : Nat × Nat × State :=
  let first := fld r.w 0x14 11 0
  let count := fld r.w 0x14 28 16
  let cap := s.dspForce r.p 3 % 65536
  let pitch := 16 * fld r.w 0x20 15 0
  if s.keyless r.p then (stRouteInvalid, 0, s)
  else if s.dspForce r.p 4 < first + count || !(s.pmaOk r.p (fld r.w 0x18 63 0 + first * cap * pitch) (count * cap * pitch)) then
    (stAddrInvalid, 0, s)
  else if s.mirror r then (stOk, 0, s)
  else
    let xs := (upTo count).flatMap fun i => (upTo cap).filterMap fun j =>
      s.dispatch.rows.find? fun x => x.part == r.p && x.expert == first + i && x.row == j
    let y := s.returnAll r u.mem xs
    (y.1, 0, y.2)

/-- RETURN (R303). -/
def execRet (x : HitchRun) (s : State) : Host.Outcome State Fault Refusal :=
  .next (s.runHitch x.strand.val 0x28 (fun w => flag w 0x10 0) x.upset (fun _ _ => []) fun r s => s.returnBody r x.upset)

/-- An element of Raw form: a column of one element, none where it breaks R45. -/
def rawCol (b : Nat) : Option Col :=
  match parseElem b with
  | none => none
  | some e =>
    let an := b / 2 ^ 96
    let a : Option Int := if an = 0x8000 then none else some (sext 16 an)
    match e, a with
    | .fin v, none => if v = 0 then some Col.empty else none
    | _, _ => some (({ Col.empty with anchor := a }).setElem 0 e)

/-- The elements of a Raw row, none where one breaks R45. -/
def rawRow (bs : List Byte) (n : Nat) : Option (List Col) :=
  let cs := (upTo n).map fun i => rawCol (leAt bs (14 * i) 14)
  if cs.any Option.isNone then none else some (cs.filterMap id)

/-- A return slot has received its return: it is the latest to land (R307). -/
def State.landed (s : State) (place : Nat) : State :=
  { s with dispatch := { s.dispatch with landings := s.dispatch.landings.filter (fun x => x != place) ++ [place] } }

/-- A land of a return: write the slot in every copy and signal (R299). -/
def State.landReturn (s : State) (c : SendCtx) (e : RouteEntry) (bs : List Byte) : State :=
  let s := s.dropEntry c e
  foldS (fun s x =>
    let place := regionBase x.2 + c.slot e.token e.rank
    ((s.put place bs).landed place).retSignal c x.1) s (s.copies c)

/-- Round a row of values once into RET_FMT by R56 and R58 with SAT = 1. -/
def State.roundRow (s : State) (c : SendCtx) (e : RouteEntry) (vs : List Num) : List Byte × State :=
  let f := (Fmt.ofCode (fld c.word 0x10 7 4)).getD .bf16
  let n := vs.length
  let rs := s.rounding c.run_ ((e.token * c.k + e.rank) * n) n
  let s := s.usedRandom c.run_ ((e.token * c.k + e.rank + 1) * n)
  let x := encodeRow f true rs vs
  (packElems f.width (x.1.map (plusZero f)), s.arith c.strand x.2)

/-- Add the elements of a shard's Raw row to the sums of its entry by R48, each element its own column (R304). -/
def addRaw (sums row : List Col) : List Col :=
  ((upTo row.length).zip row).map fun x =>
    ((sums.getD x.1 Col.empty).add 0 (x.2.value 0)).1

/-- The bytes between the rows of a shard area (log entry 36): a Raw row of 4,064 elements, the longest. -/
def shardPitch : Nat := 56896

/-- The lowest row of a partition's shard area that no entry holds (log entry 36). -/
def State.shardRow (s : State) (p : Nat) : Nat :=
  let used := s.dispatch.sends.flatMap fun c => if c.part == p then c.entries.filterMap fun e => e.place else []
  ((upTo (used.length + 1)).find? fun i => !(used.contains i)).getD 0

/-- Add a shard's Raw row to the sums of its entry in the shard area (R304), EMPTY before the first: the status, the row of
the area and the sums. Each element is its own column. -/
def State.addShard (s : State) (c : SendCtx) (e : RouteEntry) (row : List Col) : Nat × Nat × List Col × State :=
  let i := e.place.getD (s.shardRow c.part)
  let pma := s.dspForce c.part 5 + shardPitch * i
  let d := some (c.strand / 32)
  let x := if e.place.isNone then (stOk, [], s) else s.fetchP d c.part pma (14 * row.length) []
  let old := if e.place.isNone then some [] else rawRow x.2.1 row.length
  if x.1 ≠ stOk then (x.1, i, [], x.2.2)
  else
    match old with
    | none => (stRouteInvalid, i, [], x.2.2)
    | some old =>
      let sums := addRaw old row
      let y := x.2.2.storeP d c.part pma (sums.flatMap fun v => toLe 14 (rawBits v 0)) []
      (y.1, i, sums, y.2)

/-- A whole returned row has come for an entry (R304). -/
def State.takeReturn (s : State) (c : SendCtx) (e : RouteEntry) (h : RowHead) (bs : List Byte) : State :=
  let n := fld c.word 0x2C 11 0
  let need := if h.fmt = 15 then 14 * n else c.rowBytes
  let bad := (s.dropEntry c e).lateStatus c stRouteInvalid
  if (h.fmt != 15 && (e.sharded || h.fmt != fld c.word 0x10 7 4)) || bs.length < need then bad
  else if h.fmt != 15 then s.landReturn c e (bs.take need)
  else
    match rawRow bs n with
    | none => bad
    | some row =>
      if !e.sharded then
        let x := s.roundRow c e (row.map fun v => v.value 0)
        x.2.landReturn c e x.1
      else if e.landed.contains h.shard then s
      else
        let x := s.addShard c e row
        let landed := h.shard :: e.landed
        let lost := e.lost || x.2.2.1.any fun v => v.lost
        let s := x.2.2.2
        if x.1 ≠ stOk then (s.dropEntry c e).lateStatus c x.1
        else if landed.length < e.shards then
          s.modSend c fun l => l.map fun y =>
            if y.token == e.token && y.rank == e.rank then { y with place := some x.2.1, lost := lost, landed := landed } else y
        else
          let s := if lost then (s.inc (Reg.strExactLostCount c.strand)).arith c.strand flagExactLost else s
          let y := s.roundRow c e (x.2.2.1.map fun v => v.value 0)
          y.2.landReturn c e y.1

/-- The pieces of a returned row joined, when all have come. -/
def joinPieces (parts : List (Nat × Nat × List Byte)) (shard total : Nat) : Option (List Byte) :=
  let mine := (parts.filter fun x => x.1 == shard).mergeSort fun a b => decide (a.2.1 ≤ b.2.1)
  let bs := mine.flatMap fun x => x.2.2
  if bs.length = total then some bs else none

/-- A returned row's packet is checked and taken (R304, R400, R401). -/
def State.returned (s : State) (pk : Packet) : State :=
  let p := pk.dstPart
  let d := pk.dstDie
  let h := RowHead.parse pk.payload
  let seen := crc64 pk.payload
  let peer := [(0, pk.srcModule), (1, pk.srcPart), (2, pk.srcDie)]
  if seen ≠ pk.telltale then
    let second := s.dispatch.ttSeen.contains (p, packetData pk)
    let s := (s.ttMismatch pk seen peer second).refuseRow pk stTelltaleMismatch 0 0 0
    if second then s.raiseAt p d stTelltaleMismatch else s
  else
    match s.entryOf p d h with
    | none => s.countRow pk (Reg.dspDupDiscardCount d)
    | some (c, e) =>
      let part := (h.shard, h.offset, pk.payload.drop 32)
      let parts := if e.parts.any fun x => x.1 == h.shard && x.2.1 == h.offset then e.parts else e.parts ++ [part]
      let s := s.modSend c fun l => l.map fun y =>
        if y.token == e.token && y.rank == e.rank then { y with parts := parts } else y
      match joinPieces parts h.shard h.total with
      | none => s
      | some bs => s.takeReturn c e h bs

/-- A delivered return is dropped where its step is another, and otherwise answers its row (R304). -/
def State.admitReturn (s : State) (d : Nat) (pk : Packet) : State :=
  if s.stepOrder pk.dstPart pk.step != .eq then s.countRow pk (Reg.dspDupDiscardCount d) else s.returned pk

/-- RETURN_ROW (R304): the first returned row of a die's receive queue is taken; one of an earlier step is discarded. -/
def execReturnRow (die : Fin 4) (t : Nat) (s : State) : Host.Outcome State Fault Refusal :=
  let d := die.val
  let s := s.tick t
  .next (match s.takeRx d (isRow 2) with
    | none => s
    | some (x, s) => s.admitReturn d x.packet)

/-! SCATTER_ADD (R305 to R307) -/

/-- A SCATTER_ADD breaks an operand-area rule (R305). -/
def scatterBad (w : HitchWord) : Bool :=
  decide (1 < fld w 0x10 1 0) || (fld w 0x10 1 0 == 1 && !(hVary w)) || fld w 0x10 31 8 != 0 ||
    !(retFmt (fld w 0x10 7 4)) || fld w 0x14 31 23 != 0 || fld w 0x18 31 21 != 0 || fld w 0x1C 31 21 != 0 ||
    fld w 0x1C 5 0 != 0 || fld w 0x20 31 21 != 0 || fld w 0x24 15 12 != 0 || fld w 0x24 31 20 != 0 ||
    fld w 0x24 11 0 == 0 || fld w 0x24 11 0 % 32 != 0 || (outputFmt (fld w 0x24 19 16) false).isNone ||
    fld w 0x28 31 20 != 0 || fld w 0x28 15 0 == 0 || decide (4096 < fld w 0x28 15 0) || !(zeroBytes w 0x2C 0x40)

/-- The ranks of a token that add: rank, weight in BF16 (R305). -/
def State.addends (s : State) (r : Run) (route k t : Nat) : List (Nat × Nat) :=
  (upTo k).filterMap fun i =>
    let v := s.peekLe (r.place 0 (route + (t * k + i) * 4)) 4
    if v % 65536 = 0xFFFF ∨ v % 65536 = 0xFFFE then none else some (i, v / 65536)

/-- A returned row as element codes. -/
def State.valueRow (s : State) (r : Run) (space addr : Nat) (f : Fmt) (d : Nat) : List Nat :=
  let row := s.peekLe (r.place space addr) (packedBytes f.width d)
  (upTo d).map fun e => elemAt f.width row e

/-- One output row in EXACT mode (R306): the buffer row after adding, none where it is no Raw row. -/
def State.exactRow (s : State) (r : Run) (val buf k d t : Nat) (route : Nat) (f : Fmt) : Option (List Col) :=
  match rawRow (s.peek (r.place 0 (buf + 14 * t * d)) (14 * d)) d with
  | none => none
  | some cols =>
    some (foldS (fun (cs : List Col) x =>
      let vs := s.valueRow r (fld r.w 0x10 3 3) (val + (t * k + x.1) * (d * f.width / 8)) f d
      (cs.zip vs).map fun y => (y.1.add 0 ((Fmt.bf16.decode false x.2).mul (f.decode false y.2))).1) cols
      (s.addends r route k t))

/-- The ranks of a token in the order in which their returns landed in a hank region (R307). Where the rows do not all lie
where returns landed, as in strand scratch, the order is free (log entry 8). -/
def State.landingOrder (s : State) (r : Run) (val k d t : Nat) (f : Fmt) (l : List (Nat × Nat)) : List (Nat × Nat) :=
  let at_ (a : Nat × Nat) : Option Nat :=
    s.dispatch.landings.findIdx? fun x => x == r.place (fld r.w 0x10 3 3) (val + (t * k + a.1) * (d * f.width / 8))
  let known := l.all fun a => (at_ a).isSome
  let key (a : Nat × Nat) : Nat := if known then (at_ a).getD 0 else Config.freeValue (s.fresh + t * k + a.1)
  l.mergeSort fun a b => decide (key a ≤ key b)

/-- One output row in ROUNDED mode (R307): FP32 words and flags, in the order in which the returns landed. -/
def State.roundedRow (s : State) (r : Run) (val buf k d t : Nat) (route : Nat) (f : Fmt) : List (Nat × Nat) :=
  let init := (upTo d).map fun e => (s.peekLe (r.place 0 (buf + 4 * (t * d + e))) 4, 0)
  let order := s.landingOrder r val k d t f (s.addends r route k t)
  foldS (fun (ws : List (Nat × Nat)) x =>
    let vs := s.valueRow r (fld r.w 0x10 3 3) (val + (t * k + x.1) * (d * f.width / 8)) f d
    (ws.zip vs).map fun y =>
      let m := fmul (x.2 * 65536) (widen f y.2)
      let a := fadd y.1.1 m.1
      (a.1, orBits y.1.2 (orBits m.2 a.2))) init order

/-- The Raw bits of a column of one element. -/
def Col.raw (c : Col) : Nat := rawBits c 0

/-- The effect of a SCATTER_ADD (R305 to R307). -/
def State.scatterBody (s : State) (r : Run) : Nat × Nat × State :=
  let w := r.w
  let exact := fld w 0x10 1 0 == 0
  let final := flag w 0x10 2
  let f := (Fmt.ofCode (fld w 0x10 7 4)).getD .bf16
  let val := fld w 0x14 22 0
  let route := fld w 0x18 20 0
  let buf := fld w 0x1C 20 0
  let out := fld w 0x20 20 0
  let d := fld w 0x24 11 0
  let fo := (Fmt.ofCode (fld w 0x24 19 16)).getD .fp32
  let n := fld w 0x28 15 0
  let k := fld w 0x28 19 16 + 1
  let eb := if exact then 14 else 4
  if !(inSpace (fld w 0x10 3 3) val (n * k * (d * f.width / 8)) && inScratch route (4 * n * k) &&
      inScratch buf (eb * n * d) && (!final || inScratch out (n * packedBytes fo.width d))) then (stAddrInvalid, 0, s)
  else
    let erows := (upTo n).map fun t => s.exactRow r val buf k d t route f
    let rrows := if exact then [] else (upTo n).map fun t => s.roundedRow r val buf k d t route f
    if exact && erows.any Option.isNone then (stMalformed, 0, s)
    else
      let cols := if exact then erows.filterMap id else []
      let lost := cols.any fun cs => cs.any fun c => c.lost
      let s := if exact then s else { s with fresh := s.fresh + n * k }
      let rs := s.rounding r 0 (if final then n * d else 0)
      let s := s.usedRandom r (if final then n * d else 0)
      let bufs := if exact then cols.flatMap fun cs => cs.flatMap fun c => toLe 14 c.raw
        else rrows.flatMap fun x => x.flatMap fun y => toLe 4 y.1
      let flags := (rrows.map flagsOf).foldl orBits 0
      let outRows := if !final then []
        else (upTo n).map fun t =>
          let rr := (rs.drop (t * d)).take d
          let vs := if exact then (cols.getD t []).map fun c => c.value 0 else (rrows.getD t []).map fun y => dec32 y.1
          if fo = .raw then
            (packElems 112 ((if exact then cols.getD t [] else vs.map fun v => (Col.empty.add 0 v).1).map Col.raw), 0)
          else
            let x := encodeRow fo (hSat w) rr vs
            (packElems fo.width (if exact then x.1.map (plusZero fo) else x.1), x.2)
      let ws := (r.place 0 buf, bufs) :: (if final then [(r.place 0 out, outRows.flatMap Prod.fst)] else [])
      let s := (s.putAll ws).arith r.st (orBits flags ((outRows.map Prod.snd).foldl orBits 0))
      let s := if lost then (s.inc (Reg.strExactLostCount r.st)).arith r.st flagExactLost else s
      (if lost then stExactLost else stOk, writesDigest ws, s)

/-- The scratch that a SCATTER_ADD reads (R305): its route list, its rows where they lie there, and its buffer. -/
def scatterReads (w : HitchWord) : List (Nat × Nat) :=
  let d := fld w 0x24 11 0
  let n := fld w 0x28 15 0
  let k := fld w 0x28 19 16 + 1
  let wide := ((Fmt.ofCode (fld w 0x10 7 4)).getD .bf16).width
  (fld w 0x18 20 0, 4 * n * k) :: (fld w 0x1C 20 0, (if fld w 0x10 1 0 == 0 then 14 else 4) * n * d) ::
    rowReads (fld w 0x10 3 3) (fld w 0x14 22 0) (d * wide / 8) (n * k) (d * wide / 8)

/-- SCATTER_ADD (R305). -/
def execScatterAdd (st : Fin 128) (u : Upset) (s : State) : Host.Outcome State Fault Refusal :=
  .next (s.runHitch st.val 0x30 (fun _ => true) u (fun r _ => scatterReads r.w) fun r s =>
    let x := s.residueUpset r.st u
    if x.1 ≠ stOk then (x.1, 0, x.2) else x.2.scatterBody r)

/-! What steps do to dispatch -/

/-- The dispatch group's committed registers of a partition (R309). -/
def State.dspRegs (s : State) (p : Nat) : List Nat :=
  [s.reg (Reg.dspPartTableLo p) + 2 ^ 32 * s.reg (Reg.dspPartTableHi p), s.reg (Reg.dspPartTableSize p),
   s.reg (Reg.dspPartRxLo p) + 2 ^ 32 * s.reg (Reg.dspPartRxHi p), s.reg (Reg.dspPartRxShape p),
   s.reg (Reg.dspPartRxSlots p), s.reg (Reg.dspPartShardLo p) + 2 ^ 32 * s.reg (Reg.dspPartShardHi p)]

/-- A step start takes the dispatch and group registers, and every engine drops its cache (R292, R309, R407). -/
def State.dispatchStart (s : State) (p : Nat) : State :=
  let s := { s with dispatch := { s.dispatch with
    force := mput s.dispatch.force p (s.dspRegs p),
    colForce := mput s.dispatch.colForce p
      [s.reg (Reg.dspPartColGroupsLo p) + 2 ^ 32 * s.reg (Reg.dspPartColGroupsHi p), s.reg (Reg.dspPartColGroupCount p)] } }
  foldS (fun s d => s.modEngine d fun e => { e with cache := [] }) s (upTo 4)

/-- What a run of a partition leaves in its engines ends: its SENDs, the packets it sent, and the mismatches. -/
def State.dispatchRunEnd (s : State) (p : Nat) : State :=
  { s with dispatch := { s.dispatch with
    sends := s.dispatch.sends.filter fun c => c.part != p,
    sentLog := s.dispatch.sentLog.filter fun k => k.srcPart != p,
    ttSent := s.dispatch.ttSent.filter fun k => k.1 != p,
    ttSeen := s.dispatch.ttSeen.filter fun k => k.1 != p } }

/-- The receive area of a partition is cleared: every slot is free, and its rows, metadata and counts are 0 (R301). -/
def State.clearRx (s : State) (p : Nat) : State :=
  let cap := s.dspForce p 3 % 65536
  let len := 16 * (s.dspForce p 3 / 65536)
  let slots := s.dspForce p 4
  let s := (s.storeP (some ((s.diesOf p).headD 0)) p (s.dspForce p 2) (List.replicate (slots * (cap * (len + 8) + 4)) 0) []).2
  { s with dispatch := { s.dispatch with rows := s.dispatch.rows.filter fun x => x.part != p } }

end Sys2Proof.Machine
end

