-- ==== Sys2Proof/Machine/Collective.lean ====
section
/-! DEFINITION. Collectives (chapter 14): groups, the COLLECTIVE hitch in its four operations, the messages of each round
with their telltales and refusals, and the votes and queries of a step. -/

namespace Sys2Proof.Machine

/-! The hitch (R387 to R389) -/

/-- OP of a COLLECTIVE. -/
def collOp (w : HitchWord) : Nat := fld w 0x10 2 0
/-- A COLLECTIVE is a reduce. -/
def collReduces (w : HitchWord) : Bool := decide (collOp w ≤ 1)
/-- A reduce is of the ROUNDED form. -/
def collRounded (w : HitchWord) : Bool := flag w 0x10 3

/-- A COLLECTIVE breaks an operand-area rule (R387, R388). -/
def collBad (w : HitchWord) : Bool :=
  let src := fld w 0x10 11 8
  let out := fld w 0x10 15 12
  let outOk := out == 9 || out == 7 || out == 8 || out == 0 || out == 1 || out == 5
  decide (3 < collOp w) || fld w 0x10 7 6 != 0 || fld w 0x10 31 22 != 0 || fld w 0x30 31 28 != 0 ||
    !(zeroBytes w 0x34 0x40) || fld w 0x30 27 0 == 0 ||
    (if collReduces w then
      (if collRounded w then !((src == 9 || src == 7) && outOk) else !(src == 15 && (outOk || out == 15))) ||
        fld w 0x28 5 0 != 0
    else collRounded w || src != 0 || out != 0 || fld w 0x28 63 0 != 0 || fld w 0x30 5 0 != 0)

/-- Members of a collective. -/
def Coll.n (c : Coll) : Nat := c.members.length
/-- COUNT: elements of a reduce, bytes of a block otherwise. -/
def Coll.count (c : Coll) : Nat := fld c.word 0x30 27 0
/-- A collective is a reduce. -/
def Coll.reduces (c : Coll) : Bool := collReduces c.word
/-- A collective is an EXACT reduce. -/
def Coll.exact (c : Coll) : Bool := collReduces c.word && !(collRounded c.word)
/-- A collective is an ALL_REDUCE. -/
def Coll.allReduce (c : Coll) : Bool := collOp c.word == 0
/-- Chunks of a reduce. -/
def Coll.chunks (c : Coll) : Nat := ceilDiv c.count 128
/-- The first chunk that member j owns (R389). -/
def Coll.ownLo (c : Coll) (j : Nat) : Nat := j * c.chunks / c.n
/-- The chunks that member j owns. -/
def Coll.owned (c : Coll) (j : Nat) : List Nat := (upTo (c.ownLo (j + 1) - c.ownLo j)).map fun i => c.ownLo j + i
/-- The owner of a chunk. -/
def Coll.ownerOf (c : Coll) (k : Nat) : Nat := ((upTo c.n).find? fun j => decide (c.ownLo j ≤ k ∧ k < c.ownLo (j + 1))).getD 0
/-- Elements of a chunk. -/
def Coll.width (c : Coll) (k : Nat) : Nat := min 128 (c.count - 128 * k)
/-- Bytes of a source element. -/
def Coll.srcBytes (c : Coll) : Nat := match fld c.word 0x10 11 8 with
  | 15 => 14
  | 9 => 4
  | _ => 2
/-- The output format of a reduce. -/
def Coll.outFmt (c : Coll) : Fmt := (Fmt.ofCode (fld c.word 0x10 15 12)).getD .fp32
/-- Bytes of a result element. -/
def Coll.outBytes (c : Coll) : Nat := c.outFmt.width / 8
/-- Elements of the chunks that member j owns. -/
def Coll.ownElems (c : Coll) (j : Nat) : Nat := min c.count (128 * c.ownLo (j + 1)) - min c.count (128 * c.ownLo j)
/-- A collective seen as a run of its hitch. -/
def Coll.run_ (c : Coll) : Run :=
  { st := c.strand, g := c.hank, p := c.part,
    e := { id := 0, pos := c.pos, index := c.index, word := c.word, phase := .running, since := none, digest := 0 } }

/-- The running collective of an engine with a COLL_ID. -/
def State.coll (s : State) (d p id : Nat) : Option Coll := (s.engine d).colls.find? fun c => c.part == p && c.id == id
/-- Change a running collective. -/
def State.modColl (s : State) (d p id : Nat) (f : Coll → Coll) : State :=
  s.modEngine d fun e => { e with colls := e.colls.map fun c => if c.part == p && c.id == id then f c else c }

/-- A collective still runs: its hitch has not completed. -/
def State.collRuns (s : State) (c : Coll) : Bool := (s.coll (c.strand / 32) c.part c.id).isSome

/-- A collective hitch completes with a status (R390). -/
def State.endColl (s : State) (d p id st : Nat) : State :=
  match s.coll d p id with
  | none => s
  | some c =>
    let s := s.modEngine d fun e => { e with colls := e.colls.filter fun x => !(x.part == p && x.id == id) }
    match (s.strand c.strand).queue.find? fun e => e.pos == c.pos && e.index == c.index && e.phase == .running with
    | none => s
    | some e => s.setPhase c.strand e.id (.done st) 0

/-- Read partition memory for a collective; a failing read ends its hitch with the status, and nothing more is sent of it. -/
def State.collFetch (s : State) (c : Coll) (a n : Nat) (errs : List (Nat × ReadErr)) : List Byte × State :=
  let x := s.fetchP (some (c.strand / 32)) c.part a n errs
  if x.1 = stOk then (x.2.1, x.2.2) else (toLe n 0, x.2.2.endColl (c.strand / 32) c.part c.id x.1)

/-- Write partition memory for a running collective; a failing write ends its hitch with the status. -/
def State.collStore (s : State) (c : Coll) (a : Nat) (bs : List Byte) : State :=
  if !(s.collRuns c) then s
  else
    let x := s.storeP (some (c.strand / 32)) c.part a bs []
    if x.1 = stOk then x.2 else x.2.endColl (c.strand / 32) c.part c.id x.1

/-- Read a source range of a collective. -/
def State.collRead (s : State) (c : Coll) (off n : Nat) (errs : List (Nat × ReadErr)) : List Byte × State :=
  let a := fld c.word 0x18 63 0 + off
  if flag c.word 0x10 4 then (s.peek (regionBase c.hank + a) n, s) else s.collFetch c a n errs

/-- Write part of the result of a running collective, in the hank region of every copy (log entry 37). -/
def State.collWrite (s : State) (c : Coll) (off : Nat) (bs : List Byte) : State :=
  let a := fld c.word 0x20 63 0 + off
  if !(s.collRuns c) then s
  else if flag c.word 0x10 5 then
    let s := s.poke (regionBase c.hank + a) bs
    match s.mirrorOf c.part c.hank with
    | some g => s.poke (regionBase g + a) bs
    | none => s
  else s.collStore c a bs

/-- Send a message of a running collective to member j (R391). -/
def State.collSend (s : State) (c : Coll) (j kind first count : Nat) (lost : Bool) (data : List Byte) : State :=
  let m := c.members.getD j (0, 0, 0, 0, 0)
  let h : CollHead := { kind := kind, lost := lost, run := c.run, index := c.self_, tag := c.tag, id := c.id, first := first,
                        count := count, n := c.n, stepHi := c.step / 2 ^ 32 }
  if !(s.collRuns c) then s
  else s.sendColl c.part (c.strand / 32) (m.1, m.2.1, m.2.2.1) m.2.2.2.1 m.2.2.2.2 (h.bytes ++ data) false

/-- The other members. -/
def Coll.others (c : Coll) : List Nat := (upTo c.n).filter fun j => j != c.self_

/-! EXACT form (R393 to R396) -/

/-- b of R393: the smallest integer with −2^b ≤ v < 2^b. -/
def magBits (v : Int) : Int := 93 - (headOf v : Nat)

/-- An empty key part. -/
def emptyKey : Int := -(2 ^ 31)

/-- The key of a chunk (R393): H and L. -/
def chunkKey (cols : List Col) : Int × Int :=
  cols.foldl (fun k c =>
    match c.elem 0 with
    | .fin v => if v = 0 then k else (max k.1 (c.anchor.getD 0 + magBits v), max k.2 (-(c.anchor.getD 0)))
    | _ => k) (emptyKey, emptyKey)

/-- The common anchor of maximal keys (R394): none when all are empty. -/
def commonAnchor (h l : Int) : Option Int :=
  if h = emptyKey then none else some (min 32767 (max (-l) (h - 85)))

/-- An anchor as the 32 bits of an ANCHOR message. -/
def anchor32 (a : Option Int) : Nat := match a with
  | none => 0x8000
  | some v => twos 32 v
/-- Read an anchor of an ANCHOR message. -/
def ofAnchor32 (v : Nat) : Option Int := if v % 2 ^ 32 = 0x8000 then none else some (sext 32 (v % 2 ^ 32))

/-- A value that does not fit the window is infinite (R394). -/
def clampElem (v : Int) : Elem × Bool :=
  if outside v then (if v < 0 then .negInf else .posInf, true) else (.fin v, false)

/-- Align an element to the common anchor (R395), and whether it lost bits. -/
def alignTo (c : Col) (a : Option Int) : Elem × Bool :=
  match c.elem 0, a with
  | .fin v, some k =>
    if v = 0 then (.fin 0, false)
    else
      let d := k - c.anchor.getD 0
      if d ≤ 0 then clampElem (v * 2 ^ (-d).toNat)
      else
        let x := roundMag .rne v.natAbs (-d)
        let n : Int := x.1
        (.fin (if v < 0 then -n else n), x.2)
  | .fin _, none => (.fin 0, false)
  | e, _ => (e, false)

/-- Raw bytes of an element under an anchor. -/
def rawUnder (e : Elem) (a : Option Int) : List Byte := toLe 14 (elemBits e + 2 ^ 96 * anchorBits a)

/-- The source elements of a chunk of an EXACT reduce. -/
def State.chunkCols (s : State) (c : Coll) (k : Nat) (errs : List (Nat × ReadErr)) : Option (List Col) × State :=
  let x := s.collRead c (14 * 128 * k) (14 * c.width k) errs
  (rawRow x.1 (c.width k), x.2)

/-! ROUNDED form (R398) -/

/-- The fixed tree over 2^n leaves from leaf i: its FP32 sum, none when absent. -/
def treeSum (leaf : Nat → Option Nat) (n i : Nat) : Option Nat :=
  match n with
  | 0 => leaf i
  | k + 1 =>
    match treeSum leaf k i, treeSum leaf k (i + 2 ^ k) with
    | some a, some b => some (fadd a b).1
    | some a, none => some a
    | none, b => b

/-! Rounds -/

/-- Chunks that one packet of a reduce's contributions or results carries (R391). -/
def perPacket (bytes : Nat) : Nat := if bytes = 14 then 2 else if bytes = 4 then 7 else if bytes = 2 then 14 else 31

/-! The owner's work area (R389; its order of ROUNDED leaves by log entry 38) -/

/-- The PMA of an EXACT chunk's sums in the owner's work area: 14 bytes for each owned element, in Raw form. -/
def Coll.sumsAt (c : Coll) (k : Nat) : Nat := fld c.word 0x28 63 0 + 14 * 128 * (k - c.ownLo c.self_)

/-- The PMA of member i's leaves of a ROUNDED chunk in the owner's work area: 4 bytes for each owned element, all of a member's
leaves together. -/
def Coll.leavesAt (c : Coll) (k i : Nat) : Nat :=
  fld c.word 0x28 63 0 + 4 * (i * c.ownElems c.self_ + 128 * (k - c.ownLo c.self_))

/-- The anchor of a chunk, none when it is EMPTY (R394). -/
def Coll.anchorOf (c : Coll) (k : Nat) : Option Int := ofAnchor32 (mgetD c.anchors k 0x8000)

/-- The sums of a chunk of this owner as they stand. -/
def State.chunkSums (s : State) (c : Coll) (k : Nat) : List Elem × State :=
  let x := s.collFetch c (c.sumsAt k) (14 * c.width k) []
  ((upTo (c.width k)).map fun e => (parseElem (leAt x.1 (14 * e) 14)).getD (.fin 0), x.2)

/-- Write the sums of a chunk. -/
def State.putSums (s : State) (c : Coll) (k : Nat) (es : List Elem) : State :=
  s.collStore c (c.sumsAt k) (es.flatMap fun e => rawUnder e (c.anchorOf k))

/-- Take contributions to chunks of this owner from member i (R395, R398): elements from a byte string. -/
def State.takeContrib (s : State) (c : Coll) (i : Nat) (ks : List Nat) (lost : Bool) (data : List Byte) : State :=
  let f := (Fmt.ofCode (fld c.word 0x10 11 8)).getD .fp32
  let s := s.modColl (c.strand / 32) c.part c.id fun x => { x with lost := if lost then ks ++ x.lost else x.lost }
  foldS (fun s k =>
    let bs := (data.drop (c.srcBytes * 128 * (k - ks.headD 0))).take (c.srcBytes * c.width k)
    if c.exact then
      match rawRow bs (c.width k) with
      | none => s
      | some row =>
        let x := s.chunkSums c k
        x.2.putSums c k ((x.1.zip row).map fun y => y.1.combine (y.2.elem 0))
    else
      s.collStore c (c.leavesAt k i)
        ((upTo (c.width k)).flatMap fun e => toLe 4 (widen f (leAt bs (e * c.srcBytes) c.srcBytes)))) s ks

/-- The data of this member's contribution to some chunks, and whether it lost bits (R395). -/
def State.contribData (s : State) (c : Coll) (ks : List Nat) : List Byte × Bool × State :=
  foldS (fun (a : List Byte × Bool × State) k =>
    if c.exact then
      let x := a.2.2.chunkCols c k []
      let an := c.anchorOf k
      let es := (x.1.getD []).map fun col => alignTo col an
      (a.1 ++ es.flatMap (fun e => rawUnder e.1 an), a.2.1 || es.any fun e => e.2, x.2)
    else
      let x := a.2.2.collRead c (c.srcBytes * 128 * k) (c.srcBytes * c.width k) []
      (a.1 ++ x.1, a.2.1, x.2)) ([], false, s) ks

/-- Contribute to member j (R390, R395, R398): a message for each group of chunks or piece of a block; to itself the
member adds directly. -/
def State.contribute (s : State) (c : Coll) (j : Nat) : State :=
  let d := c.strand / 32
  let s := s.modColl d c.part c.id fun x => { x with sentTo := j :: x.sentTo }
  if c.reduces then
    let ks := c.owned j
    let size := if j = c.self_ then 1 else perPacket c.srcBytes
    foldS (fun s g =>
      let x := s.contribData c g
      if j = c.self_ then x.2.2.takeContrib c j g x.2.1 x.1
      else x.2.2.collSend c j 4 (g.headD 0) g.length x.2.1 x.1) s (blocksOf ks.length size ks)
  else
    let base := if collOp c.word = 3 then j * c.count else 0
    if j = c.self_ then
      let x := s.collRead c base c.count []
      x.2.collWrite c (j * c.count) x.1
    else
      foldS (fun s i =>
        let n := min 4064 (c.count - i * 4064)
        let x := s.collRead c (base + i * 4064) n []
        x.2.collSend c j 4 (i * 4064) n false x.1) s (upTo (ceilDiv c.count 4064))

/-- The keys of every chunk for its owner (R393): kept for itself, sent to the others; a KEY is each member's first
message. -/
def State.sendKeys (s : State) (c : Coll) (keys : List (Int × Int)) : State :=
  let d := c.strand / 32
  foldS (fun s j =>
    let ks := c.owned j
    if j = c.self_ then
      s.modColl d c.part c.id fun x =>
        { x with keys := foldS (fun m k => mput m (256 * k + j)
                   (twos 32 (keys.getD k (0, 0)).1, twos 32 (keys.getD k (0, 0)).2)) x.keys ks }
    else
      foldS (fun s g =>
        s.collSend c j 2 (g.headD 0) g.length false (g.flatMap fun k =>
          toLe 4 (twos 32 (keys.getD k (0, 0)).1) ++ toLe 4 (twos 32 (keys.getD k (0, 0)).2))) s
        (if ks.isEmpty then [[]] else blocksOf ks.length 508 ks)) s (upTo c.n)

/-- Every key of this owner's chunks has come. -/
def Coll.keysIn (c : Coll) : Bool :=
  (c.owned c.self_).all fun k => (upTo c.n).all fun j => (mget c.keys (256 * k + j)).isSome

/-- The anchors of this owner's chunks (R393, R394). -/
def Coll.ownAnchors (c : Coll) : List (Nat × Nat) :=
  (c.owned c.self_).map fun k =>
    let ks := (upTo c.n).map fun j => mgetD c.keys (256 * k + j) (0, 0)
    let h := (ks.map fun x => sext 32 x.1).foldl max emptyKey
    let l := (ks.map fun x => sext 32 x.2).foldl max emptyKey
    (k, anchor32 (commonAnchor h l))

/-- Send the anchors of this owner's chunks to every member, once (R394); the sums of its work area begin at 0. -/
def State.sendAnchors (s : State) (c : Coll) : State :=
  let own := c.owned c.self_
  if !c.exact || own.isEmpty || !c.keysIn || own.all (fun k => (mget c.anchors k).isSome) then s
  else
    let an := c.ownAnchors
    let s := s.modColl (c.strand / 32) c.part c.id fun x =>
      { x with anchors := foldS (fun m a => mput m a.1 a.2) x.anchors an }
    let c := { c with anchors := foldS (fun m a => mput m a.1 a.2) c.anchors an }
    let s := foldS (fun s k => s.putSums c k ((upTo (c.width k)).map fun _ => .fin 0)) s own
    foldS (fun s j => foldS (fun s g =>
      s.collSend c j 3 ((g.headD (0, 0)).1) g.length false (g.flatMap fun a => toLe 8 a.2)) s (blocksOf an.length 508 an))
      s c.others

/-- Whether this member may contribute to member j now (R390). -/
def Coll.mayGive (c : Coll) (j : Nat) : Bool :=
  !(c.sentTo.contains j) && (j == c.self_ || c.first.contains j) &&
    (!c.exact || (c.owned j).all fun k => (mget c.anchors k).isSome)

/-- Every contribution addressed to this member is in (R390). -/
def Coll.allIn (c : Coll) : Bool :=
  let want := if c.reduces then (c.owned c.self_).length else c.count
  c.sentTo.contains c.self_ && c.others.all fun j =>
    ((c.accepted.filter fun a => a.1 == j).map fun a => a.2.1 / 2 ^ 32).sum == want

/-- The results of a chunk of this owner, from its work area (R396, R398): the bytes, flags, and whether it lost bits. -/
def State.chunkResult (s : State) (c : Coll) (k : Nat) : (List Byte × Nat × Bool) × State :=
  let f := c.outFmt
  let n := c.width k
  let rs := s.rounding c.run_ (128 * k) n
  if c.exact then
    let x := s.chunkSums c k
    let an := c.anchorOf k
    let es := x.1.map fun e => match e with
      | .fin v => clampElem v
      | x => (x, false)
    let lost := c.lost.contains k || es.any fun e => e.2
    if f = .raw then ((es.flatMap fun e => rawUnder e.1 an, 0, lost), x.2)
    else
      let y := encodeRow f (hSat c.word) rs (es.map fun e => (({ Col.empty with anchor := an }).setElem 0 e.1).value 0)
      ((packElems f.width (y.1.map (plusZero f)), y.2, lost), x.2)
  else
    let x := foldS (fun (a : List (List Byte) × State) i =>
      let y := a.2.collFetch c (c.leavesAt k i) (4 * n) []
      (a.1 ++ [y.1], y.2)) ([], s) (upTo c.n)
    let vs := (upTo n).map fun e => dec32 ((treeSum (fun i => (x.1[i]?).map fun b => leAt b (4 * e) 4) 8 0).getD 0)
    let y := encodeRow f (hSat c.word) rs vs
    ((packElems f.width (y.1.map (plusZero f)), y.2, false), x.2)

/-- Where a chunk's results lie at DST (R389). -/
def Coll.resultAt (c : Coll) (k : Nat) : Nat :=
  c.outBytes * (if c.allReduce then 128 * k else 128 * (k - c.ownLo c.self_))

/-- Reduce this owner's chunks, once all contributions are in: results go to DST and, in an ALL_REDUCE, to the other
members (R390, R396). -/
def State.reduceOwn (s : State) (c : Coll) : State :=
  let d := c.strand / 32
  if !c.reduces || c.reduced || !c.allIn then s
  else
    let own := c.owned c.self_
    let y := foldS (fun (a : List (Nat × List Byte × Nat × Bool) × State) k =>
      let x := a.2.chunkResult c k
      (a.1 ++ [(k, x.1)], x.2)) ([], s) own
    let rs := y.1
    let s := y.2.modColl d c.part c.id fun x =>
      { x with reduced := true, results := own ++ x.results,
               lost := ((rs.filter fun r => r.2.2.2).map fun r => r.1) ++ x.lost }
    let s := (s.usedRandom c.run_ c.count).arith c.strand ((rs.map fun r => r.2.2.1).foldl orBits 0)
    let s := foldS (fun s r => s.collWrite c (c.resultAt r.1) r.2.1) s rs
    if !c.allReduce then s
    else
      foldS (fun s j => foldS (fun s g =>
        s.collSend c j 5 ((g.headD (0, [], 0, false)).1) g.length (g.any fun r => r.2.2.2) (g.flatMap fun r => r.2.1)) s
        (blocksOf rs.length (perPacket c.outBytes) rs)) s c.others

/-- Send DONE to the members from which a first message has come, once all contributions are in (R390). -/
def State.sendDones (s : State) (c : Coll) : State :=
  if !c.allIn then s
  else
    let dests := c.others.filter fun j => c.first.contains j && !(c.doneTo.contains j)
    let s := s.modColl (c.strand / 32) c.part c.id fun x => { x with doneTo := dests ++ x.doneTo }
    foldS (fun s j => s.collSend c j 6 0 0 false []) s dests

/-- A collective has completed (R390): DST is complete and every DONE has come and gone. -/
def Coll.complete (c : Coll) : Bool :=
  c.allIn && (!c.reduces || c.reduced) &&
    (!(c.reduces && c.allReduce) || (upTo c.chunks).all fun k => c.results.contains k) &&
    c.others.all fun j => c.dones.contains j && c.doneTo.contains j

/-- Whether the result of this member includes a LOST chunk (R396). -/
def Coll.lostHere (c : Coll) : Bool :=
  c.lost.any fun k => c.allReduce || (c.owned c.self_).contains k

/-- Carry a running collective as far as its messages allow. -/
def State.advanceColl (s : State) (d p id : Nat) : State :=
  let with_ (s : State) (f : Coll → State → State) : State := match s.coll d p id with
    | some c => f c s
    | none => s
  let s := with_ s fun c s => s.sendAnchors c
  let s := with_ s fun c s => foldS (fun s j => with_ s fun c s => if c.mayGive j then s.contribute c j else s) s (upTo c.n)
  let s := with_ s fun c s => s.reduceOwn c
  let s := with_ s fun c s => s.sendDones c
  with_ s fun c s =>
    if c.complete then s.endColl d p id (if c.exact && c.lostHere then stExactLost else stOk)
    else s

/-! Issue (R385, R388, R390) -/

/-- A value of a partition's group registers in force: 0 the table, 1 its entries (R407). -/
def State.colForce (s : State) (p i : Nat) : Nat := (mgetD s.dispatch.colForce p []).getD i 0

/-- A member entry: module, partition, die, role, epoch (R385). -/
def memberOf (b : List Byte) : Nat × Nat × Nat × Nat × Nat :=
  let v := leAt b 0 4
  (bits v 7 0, bits v 12 8, bits v 14 13, bits v 31 16, leAt b 4 4)

/-- The group of a hitch (R385): a status; N, SELF and tag; the members. -/
def State.group (s : State) (d p g : Nat) (errs : List (Nat × ReadErr)) :
    Nat × (Nat × Nat × Nat) × List (Nat × Nat × Nat × Nat × Nat) × State :=
  let x := s.fetchP (some d) p (s.colForce p 0 + 64 * g) 64 errs
  if x.1 ≠ stOk then (x.1, (0, 0, 0), [], x.2.2)
  else
    let n := leAt x.2.1 0 2 % 512
    let self_ := leAt x.2.1 2 1
    let y := x.2.2.fetchP (some d) p (leAt x.2.1 8 8) (16 * n) errs
    let reserved := !((x.2.1.drop 0x10).all fun v => v == 0) || leAt x.2.1 1 1 / 2 != 0 || leAt x.2.1 3 1 != 0 ||
      leAt x.2.1 8 1 % 16 != 0
    if n = 0 ∨ 256 < n ∨ n ≤ self_ ∨ reserved then (stGroupInvalid, (0, 0, 0), [], y.2.2)
    else if y.1 ≠ stOk then (y.1, (0, 0, 0), [], y.2.2)
    else
      let ms := (upTo n).map fun i => y.2.1.drop (16 * i)
      if ms.any fun b => leAt b 1 1 / 128 != 0 || leAt b 8 8 != 0 then (stGroupInvalid, (0, 0, 0), [], y.2.2)
      else (stOk, (n, self_, leAt x.2.1 4 4), ms.map memberOf, y.2.2)

/-- The address ranges of a collective lie in their spaces (R388, R389). -/
def State.collRanges (s : State) (c : Coll) : Bool :=
  let src := if c.reduces then c.count * c.srcBytes else if collOp c.word = 3 then c.n * c.count else c.count
  let dst := if !c.reduces then c.n * c.count
    else if c.allReduce then c.count * c.outBytes else c.ownElems c.self_ * c.outBytes
  let work := c.ownElems c.self_ * (if c.exact then 14 else 4 * c.n)
  let ok (region : Bool) (a n : Nat) : Bool := if region then inRegion a n else s.pmaOk c.part a n
  ok (flag c.word 0x10 4) (fld c.word 0x18 63 0) src && ok (flag c.word 0x10 5) (fld c.word 0x20 63 0) dst &&
    (!c.reduces || s.pmaOk c.part (fld c.word 0x28 63 0) work)

/-- A reduce's keys of every chunk, none where a source element is no Raw element (R393). -/
def State.allKeys (s : State) (c : Coll) (errs : List (Nat × ReadErr)) : Option (List (Int × Int)) × State :=
  foldS (fun (a : Option (List (Int × Int)) × State) k =>
    let x := a.2.chunkCols c k errs
    match a.1, x.1 with
    | some l, some cols => (some (l ++ [chunkKey cols]), x.2)
    | _, _ => (none, x.2)) (some [], s) (upTo c.chunks)

/-- Start a collective that its engine has accepted: its group joins the step's (R403), and its first message goes out. -/
def State.startColl (s : State) (r : Run) (c : Coll) (errs : List (Nat × ReadErr)) : State :=
  let d := r.die
  let peers := ((upTo c.n).zip c.members).map fun m =>
    ({ modNum := m.2.1, part := m.2.2.1, die := m.2.2.2.1, role := m.2.2.2.2.1, epoch := m.2.2.2.2.2, tag := c.tag,
       index := c.self_, n := c.n } : Peer)
  let s := s.modStep r.p fun x =>
    { x with collective := true, collIds := (4 * c.id + d) :: x.collIds,
             groups := x.groups ++ peers.filter fun q => !(x.groups.contains q) }
  let s := (s.running r).modEngine d fun e => { e with colls := e.colls ++ [c] }
  let s :=
    if c.exact then
      let x := s.allKeys c errs
      match x.1 with
      | none => x.2.endColl d r.p c.id stMalformed
      | some ks => x.2.sendKeys c ks
    else foldS (fun s j => s.collSend c j 1 0 0 false []) s c.others
  s.advanceColl d r.p c.id

/-- Issue a COLLECTIVE of an operation: an engine runs 16 at once (R392); a mirror's copy carries nothing out (R447). The upset is
that of its queue entry and of what it reads at its issue. A partition that has no send key runs none (R483). -/
def State.issueColl (s : State) (st op : Nat) (u : Upset) : State :=
  if 16 ≤ (s.engine (st / 32)).colls.length then s
  else
    match s.issue st 0x29 fun w => collOp w == op with
    | none => s
    | some (r, s) =>
      let w := r.w
      let id := fld w 0x14 31 0
      let grp := fld w 0x10 21 16
      let done (s : State) (x : Nat) : State := s.finish r x 0
      if s.keyless r.p then done s stRouteInvalid
      else if s.mirror r then s.finish r stOk 0
      else if u.eccBad then done s stScratchEcc
      else if s.colForce r.p 1 ≤ grp || (s.step r.p).collIds.contains (4 * id + r.die) then done s stMalformed
      else
        let g := s.group r.die r.p grp u.mem
        let s := g.2.2.2
        if g.1 ≠ stOk then done s g.1
        else
          let c : Coll :=
            { strand := st, id := id, part := r.p, hank := r.g, pos := r.e.pos, index := r.e.index, word := w,
              step := (s.step r.p).counter, run := (s.step r.p).run, tag := g.2.1.2.2, self_ := g.2.1.2.1,
              members := g.2.2.1, issuedAt := s.now, first := [], keys := [], anchors := [], accepted := [], lost := [],
              results := [], dones := [], sentTo := [], doneTo := [], reduced := false,
              moved := [] }
          let m := c.members.getD c.self_ (0, 0, 0, 0, 0)
          if !(m.1 == s.self && m.2.1 == r.p && m.2.2.1 == r.die) then done s stGroupInvalid
          else if !(s.collRanges c) then done s stAddrInvalid
          else s.startColl r c u.mem

/-- ALL_REDUCE (R389). -/
def execAllReduce (x : HitchRun) (s : State) : Host.Outcome State Fault Refusal :=
  .next (s.issueColl x.strand.val 0 x.upset)
/-- REDUCE_SCATTER (R389). -/
def execReduceScatter (x : HitchRun) (s : State) : Host.Outcome State Fault Refusal :=
  .next (s.issueColl x.strand.val 1 x.upset)
/-- ALL_GATHER (R389). -/
def execAllGather (x : HitchRun) (s : State) : Host.Outcome State Fault Refusal :=
  .next (s.issueColl x.strand.val 2 x.upset)
/-- ALL_TO_ALL (R389). -/
def execAllToAll (x : HitchRun) (s : State) : Host.Outcome State Fault Refusal :=
  .next (s.issueColl x.strand.val 3 x.upset)

/-! Refused messages (R392, R401, R405) -/

/-- Send a collective message again (R379, R401, R405). -/
def State.resendColl (s : State) (pk : Packet) (modNum part epoch : Nat) : State :=
  (s.inc (Reg.dspPartColResendCount pk.srcPart)).originate
    { pk with dstModule := modNum, dstPart := part, dstEpoch := epoch, resend := true }

/-- Write a new holder and epoch into a member entry, in the running collective, and in memory over a lower EPOCH
(R405). -/
def State.moveMember (s : State) (c : Coll) (pk : Packet) (modNum part epoch : Nat) : State :=
  let j := c.members.findIdx fun m => m.1 == pk.dstModule && m.2.1 == pk.dstPart && m.2.2.1 == pk.dstDie
  let m := c.members.getD j (0, 0, 0, 0, 0)
  if c.members.length ≤ j || epoch ≤ m.2.2.2.2 then s
  else
    let g := s.fetchP (some pk.srcDie) c.part (s.colForce c.part 0 + 64 * fld c.word 0x10 21 16) 64 []
    let at_ := leAt g.2.1 8 8 + 16 * j
    let e := g.2.2.fetchP (some pk.srcDie) c.part at_ 8 []
    let v := leAt e.2.1 0 4 / 8192 * 8192 + modNum % 256 + 256 * (part % 32)
    let s := if g.1 = stOk && e.1 = stOk && decide (leAt e.2.1 4 4 < epoch)
      then (e.2.2.storeP (some pk.srcDie) c.part at_ (toLe 4 v ++ toLe 4 epoch) []).2 else e.2.2
    s.modColl (c.strand / 32) c.part c.id fun x =>
      { x with members := (x.members.take j) ++ (modNum, part, m.2.2.1, m.2.2.2.1, epoch) :: x.members.drop (j + 1) }

/-- End the collective that a message belongs to, or raise the status on the step when its hitch has completed (R392,
R401). -/
def State.failColl (s : State) (p d id st : Nat) : State :=
  match s.coll d p id with
  | some _ => s.endColl d p id st
  | none => s.raiseAt p d st

/-- A REFUSE of a collective message at its sender (R392, R401, R405, R426). -/
def State.refusedColl (s : State) (pk : Packet) (st modNum part epoch : Nat) : State :=
  let p := pk.srcPart
  let d := pk.srcDie
  let h := CollHead.parse pk.payload
  if !(h.stepHi * 2 ^ 32 + pk.step == (s.step p).counter && h.run == (s.step p).run) then s
  else if st = stTelltaleMismatch then
    if s.dispatch.ttSent.contains (p, packetData pk) then
      let r := s.record 4 (some p)
      let s := s.fsr { r with wher := [(0, d)], telltales := some (pk.telltale, crc64 pk.payload),
                              peer := [(0, pk.dstModule), (1, pk.dstPart), (2, pk.dstDie), (3, h.tag), (4, h.kind), (5, h.first)],
                              action := s.runAction p 1 }
      s.failColl p d h.id stTelltaleMismatch
    else
      let s := { s with dispatch := { s.dispatch with ttSent := (p, packetData pk) :: s.dispatch.ttSent } }
      s.resendColl pk pk.dstModule pk.dstPart pk.dstEpoch
  else if st = stRoleMoved then
    let s := s.inc (Reg.dspRoleMovedCount d)
    match s.coll d p h.id with
    | none => s.resendColl pk modNum part epoch
    | some c =>
      let key := pk.dstRole * 4 + pk.dstDie + 2 ^ 18 * ofLe (pk.payload.take 32)
      let n := nget c.moved key + 1
      let s := (s.moveMember c pk modNum part epoch).modColl d p h.id fun x => { x with moved := nput x.moved key n }
      if 4 ≤ n then s.endColl d p h.id stRouteLost else s.resendColl pk modNum part epoch
  else if st = stRxExpired || st = stFunctionReset then s.failColl p d h.id st
  else s

/-- A REFUSE reaches the engine that sent the packet it names (R374): a row, or a collective message. -/
def State.refusedPacket (s : State) (pk : Packet) (st modNum part epoch : Nat) : State :=
  if pk.vc = 2 then s.refusedRow pk st modNum part epoch else s.refusedColl pk st modNum part epoch

/-- Refuse a collective message to its sender, which may be this module (R372, R374). -/
def State.refuseColl (s : State) (pk : Packet) (st modNum part epoch : Nat) : State :=
  let s := s.countStop st
  if pk.srcModule = s.self then s.refusedColl pk st modNum part epoch else s.refuseTo pk st modNum part epoch

/-! Receipt (R392, R400 to R402) -/

/-- How a message's step and run stand to a partition's (R392). -/
def State.collOrder (s : State) (p step run : Nat) : Ordering :=
  let x := s.step p
  if step < x.counter then .lt
  else if x.counter < step then .gt
  else if x.phase == .idle || x.phase == .abandoned then .gt
  else if run < x.run then .lt
  else if x.run < run then .gt
  else .eq

/-- The header of a message, and its step. -/
def headStep (pk : Packet) : CollHead × Nat :=
  let h := CollHead.parse pk.payload
  (h, h.stepHi * 2 ^ 32 + pk.step)

/-- A message waits: for its step or run, for its hitch to issue when it is a first message, or for a role to rise when
it comes from this module. -/
def State.collWaits (s : State) (d : Nat) (x : Delivered) : Bool :=
  let (h, step) := headStep x.packet
  let p := x.packet.dstPart
  let o := s.collOrder p step h.run
  h.kind != 9 &&
    (o == .gt || (o == .eq && h.kind ≤ 2 && !((s.step p).collIds.contains (4 * h.id + d))) ||
      (x.packet.srcModule == s.self && s.gate x.packet (decide (x.at_ + 1000000 ≤ s.now)) == .hold))

/-- Whether a packet is a collective message of a kind. -/
def isColl (kind : Nat) (p : Packet) : Bool := p.vc == 3 && p.ptype == 1 && (CollHead.parse p.payload).kind == kind

/-- The PEER keys of a message's mismatch record (R401, R456). -/
def peerKeys (pk : Packet) : List (Nat × Nat) :=
  let h := CollHead.parse pk.payload
  [(0, pk.srcModule), (1, pk.srcPart), (2, pk.srcDie), (3, h.tag), (4, h.kind), (5, h.first)]

/-- A mismatching message is refused; the second for its data ends the receiver's hitch (R401). -/
def State.collMismatch (s : State) (pk : Packet) (second : Bool) : State :=
  let s := (s.ttMismatch pk (crc64 pk.payload) (peerKeys pk) second).refuseColl pk stTelltaleMismatch 0 0 0
  if second then s.failColl pk.dstPart pk.dstDie (CollHead.parse pk.payload).id stTelltaleMismatch else s

/-- Take the first message of a kind at a die's engine that need not wait: checked by R373 when it comes from this module,
by its telltale (R400), then acted on. -/
def State.collMessage (s : State) (d kind : Nat) (f : Packet → CollHead → Nat → State → State) : State :=
  match (s.engine d).rx.find? fun x => isColl kind x.packet && !(s.collWaits d x) with
  | none => s
  | some x =>
    let pk := x.packet
    let s := s.modEngine d fun e => { e with rx := e.rx.erase x }
    match (if pk.srcModule = s.self then s.gate pk true else .pass) with
    | .stop st m q e => s.refuseColl pk st m q e
    | _ =>
      if crc64 pk.payload ≠ pk.telltale then
        s.collMismatch pk (s.dispatch.ttSeen.contains (pk.dstPart, packetData pk))
      else
        let (h, step) := headStep pk
        f pk h step s

/-- A message of a round of a running collective: an earlier one, or one that no running collective matches, is discarded
(R392). -/
def State.roundMessage (s : State) (d kind : Nat) (f : Packet → CollHead → Coll → State → State) : State :=
  s.collMessage d kind fun pk h step s =>
    let drop := s.inc (Reg.dspDupDiscardCount d)
    if s.collOrder pk.dstPart step h.run != .eq then drop
    else
      match s.coll d pk.dstPart h.id with
      | none => drop
      | some c =>
        if h.tag ≠ c.tag ∨ h.n ≠ c.n then
          (if kind ≤ 2 then s.endColl d c.part c.id stGroupInvalid else drop)
        else if c.n ≤ h.index then drop
        else (f pk h c s).advanceColl d c.part c.id

/-- Note the first message of a member (R390). -/
def State.noteFirst (s : State) (c : Coll) (j : Nat) : State :=
  s.modColl (c.strand / 32) c.part c.id fun x => { x with first := if x.first.contains j then x.first else j :: x.first }

/-- POST (R390). -/
def execPost (die : Fin 4) (t : Nat) (s : State) : Host.Outcome State Fault Refusal :=
  .next ((s.tick t).roundMessage die.val 1 fun _ h c s => s.noteFirst c h.index)

/-- KEY (R393). -/
def execKey (die : Fin 4) (t : Nat) (s : State) : Host.Outcome State Fault Refusal :=
  .next ((s.tick t).roundMessage die.val 2 fun pk h c s =>
    (s.noteFirst c h.index).modColl (c.strand / 32) c.part c.id fun x =>
      { x with keys := foldS (fun m i => mput m (256 * (h.first + i) + h.index)
                 (leAt pk.payload (32 + 8 * i) 4, leAt pk.payload (36 + 8 * i) 4)) x.keys (upTo h.count) })

/-- ANCHOR (R394): from the owner of its chunks. -/
def execAnchor (die : Fin 4) (t : Nat) (s : State) : Host.Outcome State Fault Refusal :=
  .next ((s.tick t).roundMessage die.val 3 fun pk h c s =>
    s.modColl (c.strand / 32) c.part c.id fun x =>
      { x with anchors := foldS (fun m i => mput m (h.first + i) (leAt pk.payload (32 + 8 * i) 4)) x.anchors (upTo h.count) })

/-- CONTRIB (R392, R395, R398, R402): a copy already accepted is discarded when its telltale is the same. -/
def execContrib (die : Fin 4) (t : Nat) (s : State) : Host.Outcome State Fault Refusal :=
  .next ((s.tick t).roundMessage die.val 4 fun pk h c s =>
    match c.accepted.find? fun a => a.1 == h.index && a.2.1 % 2 ^ 32 == h.first with
    | some a => if a.2.2 = pk.telltale then s.inc (Reg.dspDupDiscardCount die.val) else s.collMismatch pk true
    | none =>
      let s := s.modColl (c.strand / 32) c.part c.id fun x =>
        { x with accepted := x.accepted ++ [(h.index, h.first + 2 ^ 32 * h.count, pk.telltale)] }
      if c.reduces then
        s.takeContrib c h.index ((upTo h.count).map fun i => h.first + i) h.lost (pk.payload.drop 32)
      else s.collWrite c (h.index * c.count + h.first) ((pk.payload.drop 32).take h.count))

/-- RESULT (R396). -/
def execResult (die : Fin 4) (t : Nat) (s : State) : Host.Outcome State Fault Refusal :=
  .next ((s.tick t).roundMessage die.val 5 fun pk h c s =>
    let ks := (upTo h.count).map fun i => h.first + i
    let s := s.modColl (c.strand / 32) c.part c.id fun x =>
      { x with results := (ks.filter fun k => !(x.results.contains k)) ++ x.results,
               lost := if h.lost then ks ++ x.lost else x.lost }
    s.collWrite c (c.outBytes * 128 * h.first)
      ((pk.payload.drop 32).take (c.outBytes * (ks.map c.width).sum)))

/-- DONE (R390). -/
def execDone (die : Fin 4) (t : Nat) (s : State) : Host.Outcome State Fault Refusal :=
  .next ((s.tick t).roundMessage die.val 6 fun _ h c s =>
    s.modColl (c.strand / 32) c.part c.id fun x => { x with dones := if x.dones.contains h.index then x.dones else h.index :: x.dones })

/-- MESSAGE_EXPIRED (R392). -/
def execMessageExpired (die : Fin 4) (t : Nat) (s : State) : Host.Outcome State Fault Refusal :=
  let d := die.val
  let s := s.tick t
  let late (x : Delivered) : Bool :=
    let l := s.waitLimit x.packet.dstPart d
    let (h, step) := headStep x.packet
    x.packet.vc == 3 && x.packet.ptype == 1 && s.collOrder x.packet.dstPart step h.run == .gt && h.kind != 9 && l != 0 &&
      decide (x.at_ + l ≤ s.now)
  .next (match (s.engine d).rx.find? late with
    | none => s
    | some x =>
      let s := s.modEngine d fun e => { e with rx := e.rx.erase x }
      (s.inc (Reg.dspRxExpiredCount d)).refuseColl x.packet stRxExpired 0 0 0)

/-- COLLECTIVE_TIMEOUT (R404). -/
def execCollectiveTimeout (st : Fin 128) (t : Nat) (s : State) : Host.Outcome State Fault Refusal :=
  let d := st.val / 32
  let s := s.tick t
  .next (match (s.engine d).colls.find? fun c => c.strand == st.val &&
      s.reg (Reg.hnkKnotWaitLimit c.hank) != 0 &&
      decide (c.issuedAt + 1000 * s.reg (Reg.hnkKnotWaitLimit c.hank) < s.now) with
    | none => s
    | some c => s.endColl d c.part c.id stCollectiveTimeout)

/-! The vote (R403, R404) -/

/-- The other partitions that are members of a group the step used. -/
def State.voters (s : State) (p : Nat) : List (Nat × Nat) :=
  let all := (s.step p).groups.map fun m => (m.modNum, m.part)
  (all.filter fun m => !(m.1 == s.self && m.2 == p)).foldl (fun l m => if l.contains m then l else l ++ [m]) []

/-- READY has come from every other member partition in the present run. -/
def State.voteComplete (s : State) (p : Nat) : Bool :=
  let x := s.step p
  let got := match s.vote p x.counter x.run with
    | some v => v.ready
    | none => []
  (s.voters p).all fun m => got.contains m

/-- The time from a partition's READY to its last awaited READY is added when the vote completes (R407). -/
def State.voteWaited (s : State) (p : Nat) : State :=
  let x := s.step p
  match s.vote p x.counter x.run with
  | some v =>
    let n := x.waitNs + (s.now - v.sentAt)
    (s.bump (Reg.dspPartColVoteWaitUs p) (n / 1000)).modStep p fun y => { y with waitNs := n % 1000 }
  | none => s

/-- READY (R403): noted for its step and run, with the place that sent it. -/
def execReady (die : Fin 4) (t : Nat) (s : State) : Host.Outcome State Fault Refusal :=
  .next ((s.tick t).collMessage die.val 7 fun pk h step s =>
    let p := pk.dstPart
    if s.collOrder p step h.run != .eq then s.inc (Reg.dspDupDiscardCount die.val)
    else
      let before := s.voteComplete p
      let s := s.modVote p step h.run fun v =>
        { v with ready := if v.ready.contains (pk.srcModule, pk.srcPart) then v.ready else v.ready ++ [(pk.srcModule, pk.srcPart)] }
      if !before && s.voteComplete p && (s.step p).phase == .committing then s.voteWaited p else s)

/-- ABORT (R403): a blocking status COLLECTIVE_ABORT of the class carried, until the partition commits. -/
def execAbort (die : Fin 4) (t : Nat) (s : State) : Host.Outcome State Fault Refusal :=
  .next ((s.tick t).collMessage die.val 8 fun pk h step s =>
    let p := pk.dstPart
    if s.collOrder p step h.run != .eq || (s.step p).blocking.isSome then s.inc (Reg.dspDupDiscardCount die.val)
    else
      let waiting := (s.step p).phase == .committing
      let s := if waiting then (s.modStep p fun x => { x with phase := .running }).inc (Reg.dspPartColAbortCount p) else s
      s.block p { status := stCollectiveAbort, cls := h.count, hank := (s.hanksOn p die.val).headD (s.firstHank p), pos := 0,
                  index := 0xFFFFFF, strand := none, time := s.now })

/-- The vote of a partition sent to one place (R404). -/
def State.sendVoteTo (s : State) (p kind cls step run : Nat) (pk : Packet) : State :=
  let h0 := CollHead.parse pk.payload
  let h : CollHead := { h0 with kind := kind, lost := false, run := run, id := 0, first := 0, count := cls,
                                stepHi := step / 2 ^ 32 }
  let q := s.packet 3 (pk.srcModule, pk.srcPart, pk.srcDie) (p, pk.dstDie) (s.roleAt pk.srcModule pk.srcPart)
    (s.peerEpoch pk.srcModule pk.srcPart) h.bytes (crc64 h.bytes)
  s.originate { q with step := step % 2 ^ 32 }

/-- QUERY (R404): the vote sent for that step and run is sent again; a partition that has the role under a higher epoch and
never ran it answers ABORT of class Fault. -/
def execQuery (die : Fin 4) (t : Nat) (s : State) : Host.Outcome State Fault Refusal :=
  .next ((s.tick t).collMessage die.val 9 fun pk h step s =>
    let p := pk.dstPart
    match s.vote p step h.run with
    | some v =>
      if v.sent = 1 then s.sendVoteTo p 7 0 step h.run pk
      else if 2 ≤ v.sent then s.sendVoteTo p 8 (v.sent - 1) step h.run pk
      else s
    | none =>
      if pk.resend && s.collOrder p step h.run != .eq then s.sendVoteTo p 8 1 step h.run pk else s)

/-- VOTE_QUERY_TIMEOUT (R404): QUERY goes to every member whose READY is missing, at each interval. -/
def execVoteQueryTimeout (p : Fin 16) (t : Nat) (s : State) : Host.Outcome State Fault Refusal :=
  let p := p.val
  let s := s.tick t
  let x := s.step p
  let l := s.waitLimit p ((s.diesOf p).headD 0)
  let wait := if l = 0 then 50000000 else l
  .next (match s.vote p x.counter x.run with
    | none => s
    | some v =>
      if x.phase != .committing || s.voteComplete p || s.now ≤ max v.sentAt v.queried + wait then s
      else
        let missing := (s.voters p).filter fun m => !(v.ready.contains m)
        let s := s.modVote p x.counter x.run fun v => { v with queried := s.now }
        let s := s.inc (Reg.dspPartColQueryCount p)
        let r := s.record 1 (some p)
        let s := s.fsr { r with status := some stCollectiveTimeout }
        foldS (fun s m =>
          match x.groups.find? fun q => q.modNum == m.1 && q.part == m.2 with
          | none => s
          | some q =>
            let h : CollHead := { kind := 9, lost := false, run := x.run, index := q.index, tag := q.tag, id := 0, first := 0,
                                  count := 0, n := q.n, stepHi := x.counter / 2 ^ 32 }
            s.sendColl p ((s.diesOf p).headD 0) (q.modNum, q.part, q.die) q.role q.epoch h.bytes false) s missing)

end Sys2Proof.Machine
end

