-- ==== Sys2Proof/Machine/Serve.lean ====
section
/-! DEFINITION. The serving engine (chapter 9): sequences, admission, budget accounts, the build of a batch, reels and
their commit, prefix handles, the page manager (R249, R250), and the step journal with its replay (R466 to R469). -/

namespace Sys2Proof.Machine

/-! Shape and sequences (R259 to R262, R290) -/

/-- CPS: chains per sequence. -/
def State.cps (s : State) (p : Nat) : Nat := max 1 (s.reg (Reg.srvPartShape p) % 8192)
/-- BATCH_MAX. -/
def State.batchMax (s : State) (p : Nat) : Nat := max 1 (bits (s.reg (Reg.srvPartShape p)) 28 16)
/-- A 64-bit address in two registers. -/
def State.reg64 (s : State) (lo hi : Nat) : Nat := s.reg lo + 2 ^ 32 * s.reg hi
/-- The sequences of a partition, by ascending ID. -/
def State.seqsOf (s : State) (p : Nat) : List (Nat × Sequence) := s.serve.seqs.filter fun e => e.2.part == p
/-- Records per reel: 2^Z (R275). -/
def State.ring (s : State) (p : Nat) : Nat := 2 ^ (s.reg (Reg.srvPartReelShift p) % 16)
/-- The chain indices of a local sequence index (R260). -/
def State.chainsFor (s : State) (p i : Nat) : List Nat :=
  (upTo (s.cps p)).map fun k => (s.part p).chainBase + i * s.cps p + k
/-- The first chain of a sequence. -/
def State.chain0 (s : State) (p q : Nat) : Nat := (s.part p).chainBase + (q - (s.part p).seqBase) * s.cps p
/-- CAP of a format tag (R229). -/
def tagCap (fmt : Nat) (mx : Bool) (d32 : Nat) : Nat := pageCap (codeWidth fmt) mx (32 * (d32 + 1))
/-- Whether a sequence ranks above another (R262). -/
def ranksAbove (a b : Nat × Sequence) : Bool :=
  decide (b.2.priority < a.2.priority) || (a.2.priority == b.2.priority && decide (a.2.admission ≤ b.2.admission))
/-- The sequences of a partition in descending rank. -/
def State.ranked (s : State) (p : Nat) : List (Nat × Sequence) := (s.seqsOf p).mergeSort ranksAbove
/-- The die from which a partition's serving engine acts: that of its lowest-numbered hank. -/
def State.serveDie (s : State) (p : Nat) : Option Nat := some (dieOf (s.firstHank p))
/-- LEN of a sequence's first chain. -/
def State.seqLen (s : State) (p q : Nat) : Nat := (s.chain (s.chain0 p q)).len

/-! Reels (R275 to R277) -/

/-- Write one reel record; WR advances once it is written, and a record of the engine's own is counted (R276, R288). -/
def State.writeReel (s : State) (p q kind flags value step position aux : Nat) : State :=
  let r := s.reel q
  let n := s.ring p
  let base := s.reg64 (Reg.srvPartReelLo p) (Reg.srvPartReelHi p)
  let at_ := base + (q - (s.part p).seqBase) * 32 * n + 32 * (r.wr % n)
  let bs := toLe 1 kind ++ toLe 1 flags ++ toLe 2 0 ++ toLe 4 value ++ toLe 8 step ++ toLe 4 position ++ toLe 4 aux ++
    toLe 8 s.now
  let s := (s.storeP (s.serveDie p) p at_ bs []).2
  { s with serve := { s.serve with reels := mput s.serve.reels q { r with wr := r.wr + 1 },
                                   engine := s.serve.engine + (if kind = 1 then 0 else 1) } }

/-- The journal's reason for a terminal record (R466): 1 DEADLINE, 2 CANCELLED, 3 EVICTED, 4 FAULT, else none. -/
def retireReason (kind value : Nat) : Nat :=
  if kind = 3 then 1 else if kind = 5 then 4 else if kind = 4 ∧ value = 2 then 2 else if kind = 4 ∧ value = 4 then 3 else 0

/-- Retire a sequence (R277): its terminal record, the state RETIRED, its chains closed but after END PREFILLED. -/
def State.retire (s : State) (p q kind value len aux : Nat) : State :=
  match s.seq q with
  | none => s
  | some x =>
    if x.state == .retired then s
    else
      let s := s.writeReel p q kind 0 value (s.step p).counter len aux
      let s := s.modSeq q fun y => { y with state := .retired, cancelled := false, pausing := false, preempting := false,
                                            resuming := false }
      let s := if kind = 4 ∧ value = 3 then s else foldS (fun s c => s.closeChain c) s (s.seqChains q)
      let why := retireReason kind value
      let s := if why = 0 then s
        else s.modJournal p fun j => { j with retired := j.retired ++ [(q - (s.part p).seqBase, why)] }
      s.tidySeq q

/-! Budget accounts (R266 to R269) -/

/-- A budget account. -/
def State.account (s : State) (a : Nat) : Account := mgetD s.serve.accounts a Account.empty
/-- The counters of an account are 64 bits wide, and wrap (R266; log entry 69). -/
def Account.wrap (a : Account) : Account :=
  { a with
    balance := a.balance % 2 ^ 64, reserved := a.reserved % 2 ^ 64, refilled := a.refilled % 2 ^ 64
    capped := a.capped % 2 ^ 64, charged := a.charged % 2 ^ 64, adjIn := a.adjIn % 2 ^ 64, adjOut := a.adjOut % 2 ^ 64
    prefilled := a.prefilled % 2 ^ 64, drafted := a.drafted % 2 ^ 64, accepted := a.accepted % 2 ^ 64 }
/-- Change a budget account. -/
def State.modAccount (s : State) (a : Nat) (f : Account → Account) : State :=
  { s with serve := { s.serve with accounts := mput s.serve.accounts a (f (s.account a)).wrap } }

/-- One refill (R267). -/
def Account.refillOnce (a : Account) : Account :=
  let x := a.rate + a.residue
  let offer := x / 1000
  let add := min offer (a.cap - a.balance)
  { a with residue := x % 1000, balance := a.balance + add, refilled := (a.refilled + offer) % 2 ^ 64,
           capped := (a.capped + (offer - add)) % 2 ^ 64 }

/-- A waiting BUDGET_SET acts (R269). -/
def Account.settle (a : Account) : Account :=
  match a.pending with
  | none => a
  | some (rate, cap, en) => { a with rate := rate, cap := cap, en := en, pending := none }

/-- A refill tick of an account (R267, R269). -/
def Account.tick (a : Account) : Account :=
  let a := a.settle
  if a.en then a.refillOnce else a

/-- n refill ticks of an account. -/
def Account.ticks (n : Nat) (a : Account) : Account :=
  match n with
  | 0 => a
  | k + 1 => Account.ticks k a.tick

/-- The refill ticks due up to the present instant: those of a partition that commits wait until after its commit (R267,
R429). -/
def State.refill (s : State) : State :=
  let n := s.now / 1000000 - s.serve.lastRefill / 1000000
  if n = 0 then s
  else
    let busy := (upTo 16).filter fun p => (s.step p).phase == .committing
    let accounts := meach s.serve.accounts fun _ a => if busy.contains a.part then a else a.ticks n
    let late := busy.foldl (fun m p => nput m p (nget m p + n)) s.serve.deferredRefill
    { s with serve := { s.serve with accounts := accounts, deferredRefill := late,
                                     lastRefill := s.now / 1000000 * 1000000 } }

/-- The refill ticks that fell during a commit. -/
def State.lateRefill (s : State) (p : Nat) : State :=
  let n := nget s.serve.deferredRefill p
  let accounts := meach s.serve.accounts fun _ a => if a.part == p then a.ticks n else a
  { s with serve := { s.serve with accounts := accounts, deferredRefill := mdel s.serve.deferredRefill p } }

/-- REFILL_TICK (R267): at a whole multiple of 1 ms of module time. -/
def execRefillTick (t : Nat) (s : State) : Host.Outcome State Fault Refusal := .next (s.tick t).refill

/-- The 128-byte record of an account (R266). -/
def Account.bytes (a : Account) : List Byte :=
  toLe 4 (a.part % 16 + 16 * b2n a.en) ++ toLe 4 a.rate ++ toLe 8 a.cap ++ toLe 8 a.balance ++ toLe 8 a.reserved ++
    toLe 8 a.refilled ++ toLe 8 a.capped ++ toLe 8 a.charged ++ toLe 8 a.adjIn ++ toLe 8 a.adjOut ++ toLe 8 a.prefilled ++
    toLe 8 a.drafted ++ toLe 8 a.accepted ++ toLe 4 a.residue ++ toLe 28 0

/-- BUDGET_SET (R269): RATE, CAP and EN act at the next refill tick; only the commander names a partition, at once (DEDUCED,
log entry 33). -/
def execBudgetSet (h : CmdHdr) (b : BudgetSet) (s : State) : Host.Outcome State Fault Refusal :=
  .next (s.command h 0x0506 fun s =>
    if 4096 ≤ b.account ∨ 16 ≤ b.part ∨ 2 ^ 32 ≤ b.rate ∨ 2 ^ 64 ≤ b.cap then ans stMalformed s
    else if b.setPart && !(isCommander h.session) then ans stNotPermitted s
    else if !(isCommander h.session) && (s.account b.account).part != sidPart h.session then ans stBudgetUnknown s
    else
      ans stOk (s.modAccount b.account fun a =>
        { a with part := if b.setPart then b.part else a.part, pending := some (b.rate, b.cap, b.en) }))

/-- BUDGET_ADJUST (R269). -/
def execBudgetAdjust (h : CmdHdr) (account : Nat) (remove : Bool) (n : Nat) (s : State) :
    Host.Outcome State Fault Refusal :=
  .next (s.command h 0x0507 fun s =>
    if 4096 ≤ account then ans stMalformed s
    else
      let a := s.account account
      if a.part ≠ sidPart h.session then ans stBudgetUnknown s
      else
        let k := if remove then min n a.balance else n
        let b := if remove then { a with balance := a.balance - k, adjOut := a.adjOut + k }
          else { a with balance := a.balance + k, adjIn := a.adjIn + k }
        (stOk, toLe 8 k ++ toLe 8 b.wrap.balance, s.modAccount account fun _ => b))

/-- An account as a session reads it: the copy of its partition's snapshot, or of SRV_SNAP for the commander, while one is
held (R27, R288). -/
def State.accountSeen (s : State) (sid a : Nat) : Account :=
  let live := s.account a
  match (if isCommander sid then mget s.serve.heldAccounts (2 ^ 24 + a) else none) with
  | some x => x
  | none => (mget s.serve.heldAccounts (2 ^ 20 * live.part + a)).getD live

/-- BUDGET_READ (R266). -/
def execBudgetRead (h : CmdHdr) (account : Nat) (s : State) : Host.Outcome State Fault Refusal :=
  .next (s.command h 0x0508 fun s =>
    if 4096 ≤ account then ans stMalformed s
    else
      let a := s.account account
      if !(isCommander h.session) && a.part != sidPart h.session then ans stBudgetUnknown s
      else (stOk, (s.accountSeen h.session account).bytes, s))

/-! Prefix handles (R282, R283) -/

/-- A live prefix handle of a partition by its 32-bit ID: its key and its record. -/
def State.handle (s : State) (p id : Nat) : Option (Nat × Handle) :=
  let k := p * 65536 + id % 65536
  match mget s.serve.handles k with
  | none => none
  | some x => if x.live && x.gen == id / 65536 then some (k, x) else none


/-- Add 1 to REFS of a page. -/
def State.addRef (s : State) (i : Nat) : State := s.modPage i fun x => { x with refs := x.refs + 1 }

/-- Whether 1 more holder keeps every page at 255 or fewer (R233). -/
def State.refsFit (s : State) (pages : List Nat) : Bool :=
  pages.all fun i => match s.page i with
    | some x => decide (x.refs + 1 ≤ 255)
    | none => false

/-- PREFIX_MAKE (R282): a page of the handle is never demoted, so a move of it under way is given up (R250, R283). -/
def execPrefixMake (h : CmdHdr) (index pages : Nat) (s : State) : Host.Outcome State Fault Refusal :=
  .next (s.command h 0x0509 fun s =>
    let p := sidPart h.session
    let q := (s.part p).seqBase + index
    if (s.part p).seqSize ≤ index ∨ pages = 0 then ans stMalformed s
    else
      match s.seq q with
      | none => ans stSeqState s
      | some x =>
        if !(x.state == .decode || x.state == .paused || x.state == .preempted) then ans stSeqState s
        else
          let walks := (s.seqChains q).map fun c => (s.walk c).take pages
          let full (i : Nat) : Bool := match s.page i with
            | some y => y.fill == tagCap x.fmt x.mx x.d32
            | none => false
          let free := (upTo (s.part p).handles).find? fun i =>
            ((mget s.serve.handles (p * 65536 + i)).map fun y => y.live) != some true
          match free with
          | none => ans stPrefixInvalid s
          | some i =>
            if 65535 < pages || !(walks.all fun w => w.length == pages && w.all full) || !(s.refsFit walks.flatten) then
              ans stPrefixInvalid s
            else
              let k := p * 65536 + i
              let gen := ((mget s.serve.handleGen k).map fun g => (g + 1) % 65536).getD 0
              let s := foldS (fun s i => (s.cancelMove i).addRef i) s walks.flatten
              let x : Handle := { part := p, gen := gen, live := true, fmt := x.fmt, mx := x.mx, d32 := x.d32, pages := pages,
                                  chains := walks }
              let s := { s with serve := { s.serve with handles := mput s.serve.handles k x,
                                                        handleGen := mput s.serve.handleGen k gen } }
              (stOk, toLe 4 (i + 65536 * gen), s))

/-- PREFIX_DROP (R282). -/
def execPrefixDrop (h : CmdHdr) (handle : Word) (s : State) : Host.Outcome State Fault Refusal :=
  .next (s.command h 0x050A fun s =>
    let p := sidPart h.session
    match s.handle p handle.toNat with
    | none => ans stPrefixInvalid s
    | some (k, x) =>
      let s := foldS (fun s i => s.dropRef p i) s x.chains.flatten
      ans stOk { s with serve := { s.serve with handles := mdel s.serve.handles k } })

/-! Admission (R263 to R265, R283, R285) -/

/-- The request that a descriptor spells, without a state (R263). -/
def Sequence.parse (p : Nat) (b : List Byte) : Sequence :=
  { part := p, account := bits (leAt b 0 4) 11 0, priority := bits (leAt b 0 4) 15 12, admission := 0,
    prefillOnly := bit (leAt b 0 4) 16, fmt := bits (leAt b 4 4) 3 0, mx := bit (leAt b 4 4) 4,
    d32 := bits (leAt b 4 4) 7 5, drafts := bits (leAt b 4 4) 12 8, promptLen := leAt b 8 4, prefixPos := 0,
    maxNew := leAt b 0xC 4, prompt := leAt b 0x10 8, deadline := leAt b 0x18 8, state := .queued, back := .queued, done := 0,
    tokens := 0, lastToken := 0, cancelled := false, pausing := false, preempting := false, resuming := false, seen := false,
    fault := none, desc := b }

/-- A descriptor breaks its table (R263, R264); pre is the number of prefix positions. -/
def requestBad (b : List Byte) (pre : Nat) : Bool :=
  let x := Sequence.parse 0 b
  b.length != 64 || bits (leAt b 0 4) 31 18 != 0 || bits (leAt b 4 4) 31 13 != 0 || leAt b 0x24 4 != 0 ||
    leAt b 0x30 16 != 0 || decide (15 < x.drafts) || (operandFmt x.fmt x.mx).isNone || x.promptLen == 0 ||
    decide (1048576 < x.promptLen) || x.maxNew == 0 || decide (1048576 < x.maxNew) || x.prompt % 4 != 0 ||
    decide (1048576 < x.promptLen + pre + x.maxNew)

/-- Local indices that no sequence uses and whose chains are all CLOSED, in the partition's chain range. -/
def State.freeIndex (s : State) (p i : Nat) : Bool :=
  decide (i < (s.part p).seqSize) && (s.seq ((s.part p).seqBase + i)).isNone &&
    decide ((i + 1) * s.cps p ≤ (s.part p).chainSize) &&
    (s.chainsFor p i).all fun c => (s.chain c).state == .closed

/-- The chains of a sequence that prefills are opened, from a prefix handle where it names one (R233, R264, R283). -/
def State.openChains (s : State) (p i : Nat) (x : Sequence) (pre : Option Handle) : State :=
  let q := (s.part p).seqBase + i
  foldS (fun s e =>
    let c : Chain := { Chain.empty with part := p, fmt := x.fmt, mx := x.mx, d32 := x.d32, seq := q, state := .opened }
    match pre with
    | none => s.setChain e.2 c
    | some y =>
      let pages := y.chains.getD e.1 []
      let s := foldS (fun s j => s.addRef j) s pages
      s.setChain e.2 { c with head := pages.head?, tail := pages.getLastD 0, shared := pages,
                              len := y.pages * tagCap x.fmt x.mx x.d32 }) s
    ((upTo (s.cps p)).zip (s.chainsFor p i))

/-- Put an admitted sequence into use under an admission number. -/
def State.admitSeq (s : State) (p i : Nat) (x : Sequence) (n : Nat) : State :=
  { s with serve := { s.serve with
    seqs := mput s.serve.seqs ((s.part p).seqBase + i) { x with admission := n },
    admission := mput s.serve.admission p (max (mgetD s.serve.admission p 0) (n + 1)) } }

/-- Whether shipped chains may be adopted by a local index (R285): OPEN, delivered whole, of the request's tag and length. -/
def State.adoptable (s : State) (p i : Nat) (x : Sequence) : Bool :=
  (s.chainsFor p i).all fun k =>
    let c := s.chain k
    c.state == .opened && c.part == p && c.fmt == x.fmt && c.mx == x.mx && c.d32 == x.d32 && c.len == x.promptLen &&
      !(s.kv.inbound.any fun y => y.chains.contains k)

/-- SERVE_SUBMIT (R264): the first refusal that applies, or the sequence's local index. A sequence that adopts chains takes
the index that owns them (R260, R285; log entry 32). -/
def State.submit (s : State) (p : Nat) (b : List Byte) : Nat × List Byte × State :=
  let adopt := bit (leAt b 0 4) 17
  let id := leAt b 0x20 4
  let pre := if adopt || id == 0xFFFFFFFF then none else s.handle p id
  let x := Sequence.parse p b
  let prePos := match pre with
    | some (_, y) => y.pages * tagCap y.fmt y.mx y.d32
    | none => 0
  let preOk := match pre with
    | some (_, y) => y.fmt == x.fmt && y.mx == x.mx && y.d32 == x.d32 && y.chains.length == s.cps p &&
        s.refsFit y.chains.flatten
    | none => adopt || id == 0xFFFFFFFF
  let a := s.account x.account
  let i := id / s.cps p
  let adoptOk := id % s.cps p == 0 && decide (i < (s.part p).seqSize) && (s.seq ((s.part p).seqBase + i)).isNone &&
    s.adoptable p i x
  if requestBad b prePos then ans stMalformed s
  else if !(a.en && a.part == p) then ans stBudgetUnknown s
  else if !preOk || (adopt && !adoptOk) then ans stPrefixInvalid s
  else
    let free := if adopt then some i else (upTo (s.part p).seqSize).find? fun j => s.freeIndex p j
    match free with
    | none => ans stAdmitFull s
    | some i =>
      let q := (s.part p).seqBase + i
      let n := mgetD s.serve.admission p 0
      let s := if adopt then foldS (fun s c => s.modChain c fun y => { y with seq := q }) s (s.chainsFor p i)
        else s.openChains p i x (pre.map Prod.snd)
      let x := if adopt then { x with state := .decode, done := x.promptLen } else { x with prefixPos := prePos }
      (stOk, toLe 4 i ++ toLe 4 0 ++ toLe 8 (leAt b 0x28 8), s.admitSeq p i x n)

/-- SERVE_SUBMIT (R264). -/
def execServeSubmit (h : CmdHdr) (desc : List Byte) (s : State) : Host.Outcome State Fault Refusal :=
  .next (s.command h 0x0500 fun s => s.submit (sidPart h.session) desc)

/-- Act on the sequence of a local index: MALFORMED outside the range, SEQ_STATE where no sequence uses it (R420). -/
def State.onSeq (s : State) (p i : Nat) (f : Nat → Sequence → Nat × List Byte × State) : Nat × List Byte × State :=
  if (s.part p).seqSize ≤ i then ans stMalformed s
  else
    match s.seq ((s.part p).seqBase + i) with
    | none => ans stSeqState s
    | some x => f ((s.part p).seqBase + i) x

/-- Whether a sequence is in the batch of the step under way. -/
def State.inBatch (s : State) (p q : Nat) : Bool := (mgetD s.serve.batch p []).any fun e => e.seq == q

/-- SERVE_CANCEL (R279); a ship of the chains that it closes ends with SHIP_FAILED (log entry 69). -/
def execServeCancel (h : CmdHdr) (index : Nat) (s : State) : Host.Outcome State Fault Refusal :=
  .next (s.command h 0x0501 fun s =>
    s.onSeq (sidPart h.session) index fun q x =>
      if x.state == .retired then
        let opened := (s.seqChains q).filter fun c => (s.chain c).state == .opened
        if opened.isEmpty then ans stSeqState s
        else
          let s := foldS (fun s e => s.endShip e.1 e.2 stShipFailed) s (s.kv.ships.filter fun e => e.2.seq == q)
          ans stOk ((foldS (fun s c => s.closeChain c) s opened).tidySeq q)
      else ans stOk (s.modSeq q fun y => { y with cancelled := true }))

/-- SERVE_PAUSE (R279): of a sequence in the running batch it acts when that step ends. -/
def execServePause (h : CmdHdr) (index : Nat) (s : State) : Host.Outcome State Fault Refusal :=
  .next (s.command h 0x0502 fun s =>
    let p := sidPart h.session
    s.onSeq p index fun q x =>
      if x.state != .decode then ans stSeqState s
      else if s.inBatch p q then ans stOk (s.modSeq q fun y => { y with pausing := true })
      else ans stOk (s.pause p q))

/-- Promote a resumed sequence's capacity-tier pages in walk order while free HBM pages exceed the low water (R253). -/
def State.promote (s : State) (p q : Nat) : State :=
  foldS (fun s i => if s.reg (Reg.kvpPartLowWater p) < s.freePages p false then s.startMove p i false else s) s
    (s.movable q true)

/-- SERVE_RESUME (R253, R279): the sequence returns to its former state once its pages are promoted. -/
def execServeResume (h : CmdHdr) (index : Nat) (s : State) : Host.Outcome State Fault Refusal :=
  .next (s.command h 0x0503 fun s =>
    let p := sidPart h.session
    s.onSeq p index fun q x =>
      if x.pausing then ans stOk (s.modSeq q fun y => { y with pausing := false })
      else if !(x.state == .paused || x.state == .preempted) then ans stSeqState s
      else
        let s := (s.setTtl p q false).modSeq q fun y => { y with resuming := true }
        ans stOk ((s.promote p q).finishResume q))

/-- REEL_READ (R281, R420): the records are read as R157 states; WR and RD are those of the partition's snapshot while one is held (R27). -/
def execReelRead (h : CmdHdr) (index first maximum : Nat) (s : State) : Host.Outcome State Fault Refusal :=
  .next (s.command h 0x0504 fun s =>
    let p := sidPart h.session
    if (s.part p).seqSize ≤ index ∨ maximum = 0 ∨ 44 < maximum then ans stMalformed s
    else
      let r := s.reel ((s.part p).seqBase + index)
      if first < r.rd ∨ r.wr < first then ans stReelRange s
      else
        let seen := (mget s.serve.heldReels (2 ^ 20 * p + ((s.part p).seqBase + index))).getD r
        let n := s.ring p
        let base := s.reg64 (Reg.srvPartReelLo p) (Reg.srvPartReelHi p) + index * 32 * n
        let got := foldS (fun (a : Nat × List Byte × State) k =>
          if a.1 ≠ stOk then a
          else
            let x := a.2.2.fetchP none p (base + 32 * ((first + k) % n)) 32 []
            (x.1, a.2.1 ++ x.2.1, x.2.2)) (stOk, [], s) (upTo (min maximum (r.wr - first)))
        let s := got.2.2
        if got.1 = stOk then (stOk, toLe 8 seen.wr ++ toLe 8 seen.rd ++ got.2.1, s) else ans got.1 s)

/-- REEL_ACK (R281). -/
def execReelAck (h : CmdHdr) (index record : Nat) (s : State) : Host.Outcome State Fault Refusal :=
  .next (s.command h 0x0505 fun s =>
    let p := sidPart h.session
    if (s.part p).seqSize ≤ index then ans stMalformed s
    else
      let q := (s.part p).seqBase + index
      let r := s.reel q
      if r.wr < record then ans stReelRange s
      else if record ≤ r.rd then ans stOk (s.tidySeq q)
      else
        let s := { s with serve := { s.serve with reels := mput s.serve.reels q { r with rd := record } } }
        ans stOk (s.tidySeq q))

/-! Building a step (R268, R270 to R274) -/

/-- Whether a step of a partition may start (R109, R136, R455, R506): ACTIVE, in a module that serves, idle and not held,
with an active strand on every hank. -/
def State.mayStart (s : State) (p : Nat) : Bool :=
  (s.part p).state == .active && (s.gblState == 1 || s.gblState == 3) && (s.step p).phase == .idle && !s.startsHeld &&
    (s.part p).hanks.all fun g => !(s.activePlaces g).isEmpty

/-- Free records of a reel. -/
def State.reelFree (s : State) (p q : Nat) : Nat := s.ring p - ((s.reel q).wr - (s.reel q).rd)

/-- Reserve the cost of an entry (R268). -/
def State.reserve (s : State) (a n : Nat) : State :=
  s.modAccount a fun x => { x with balance := x.balance - n, reserved := x.reserved + n }

/-- The last token that a decode entry names: the last one committed, or the last of the prompt (R274, R285), free when that
cannot be read (log entry 69). -/
def State.lastTokenOf (s : State) (p : Nat) (x : Sequence) : Nat × State :=
  if x.tokens = 0 then
    let r := s.fetchP (s.serveDie p) p (x.prompt + 4 * (x.promptLen - 1)) 4 []
    let s := r.2.2
    if r.1 = stOk then (leAt r.2.1 0 4, s) else (Config.freeValue s.fresh % 2 ^ 32, { s with fresh := s.fresh + 1 })
  else (x.lastToken, s)

/-- Bytes 0x00 to 0x2B of a batch table entry (R274). -/
def entryBytes (seq : Nat) (chunk : Bool) (pos0 tokens drafts : Nat) (last : Bool) (chain0 lastToken input stage frames : Nat) :
    List Byte :=
  toLe 4 (seq + 2 ^ 31 * b2n chunk) ++ toLe 4 pos0 ++ toLe 4 tokens ++ toLe 4 (drafts + 256 * b2n last) ++ toLe 4 chain0 ++
    toLe 4 lastToken ++ toLe 8 input ++ toLe 8 stage ++ toLe 4 frames

/-- A batch being built: its entries, the prefill tokens and staging frames used, and the sequences throttled. -/
structure Build where
  s : State
  entries : List BatchEntry
  used : Nat
  frames : Nat
  throttled : Nat
  full : Bool
  deriving DecidableEq, Repr

/-- Consider a DECODE sequence (R268, R270): one that its account does not cover is counted whatever else passes it over. -/
def Build.decode (b : Build) (p q : Nat) (x : Sequence) : Build :=
  let s := b.s
  let n := 1 + x.drafts
  let chains := s.seqChains q
  let moving := s.kv.moves.any fun m => chains.any fun c => (s.walk c).contains m.source
  if (s.account x.account).balance < n then { b with throttled := b.throttled + 1 }
  else if s.batchMax p ≤ b.entries.length || s.reelFree p q < n + 2 || moving ||
      chains.any (fun c => decide (16 < (s.entriesIn c .held).length + n)) then b
  else
    let c0 := s.chain0 p q
    let pos0 := (s.chain c0).len + (s.entriesIn c0 .held).length
    let local_ := q - (s.part p).seqBase
    let (last, s) := s.lastTokenOf p x
    let e : BatchEntry :=
      { seq := q, chunk := false, pos0 := pos0, tokens := n, drafts := x.drafts, last := false, frames := 0, stage := 0,
        staged := [], stop := false,
        bytes := entryBytes local_ false pos0 n x.drafts false (local_ * s.cps p) last 0 0 0 }
    { b with s := s.reserve x.account n, entries := b.entries ++ [e] }

/-- Consider a QUEUED or PREFILL sequence (R270 to R273). -/
def Build.chunk (b : Build) (p q : Nat) (x : Sequence) : Build :=
  let s := b.s
  let budget := bits (s.reg (Reg.srvPartChunk p)) 20 0
  let cap := tagCap x.fmt x.mx x.d32
  let rest := x.promptLen - x.done
  let room := budget - b.used
  let fit := if rest ≤ room then rest else room / cap * cap
  let n := if fit = 0 ∧ b.used = 0 then min rest cap else fit
  let moving := s.kv.moves.any fun m => (s.seqChains q).any fun c => (s.walk c).contains m.source
  if b.full then b
  else if n = 0 then { b with full := true }
  else if (s.account x.account).balance < n then { b with throttled := b.throttled + 1 }
  else
    let f := (n + cap - 1) / cap
    let pages := f * s.cps p
    let free := s.freePages p false + s.freePages p true - nget s.serve.reservedPages p
    if s.batchMax p ≤ b.entries.length || s.reelFree p q < n + 2 || moving || free < pages ||
        bits (s.reg (Reg.srvPartStageFrames p)) 21 0 < b.frames + pages then b
    else
      let local_ := q - (s.part p).seqBase
      let pos0 := x.prefixPos + x.done
      let stage := s.reg64 (Reg.srvPartStageLo p) (Reg.srvPartStageHi p) + b.frames * 65536
      let last := x.done + n == x.promptLen
      let e : BatchEntry :=
        { seq := q, chunk := true, pos0 := pos0, tokens := n, drafts := 0, last := last, frames := f, stage := stage,
          staged := [], stop := false,
          bytes := entryBytes local_ true pos0 n 0 last (local_ * s.cps p) 0 (x.prompt + 4 * x.done) stage f }
      let s := s.reserve x.account n
      let s := { s with serve := { s.serve with reservedPages := mput s.serve.reservedPages p
                                                  (nget s.serve.reservedPages p + pages) } }
      { b with s := s, entries := b.entries ++ [e], used := b.used + n, frames := b.frames + pages }

/-- The batch of a partition's next step (R270, R271). -/
def State.plan (s : State) (p : Nat) : Build :=
  let b : Build := { s := s, entries := [], used := 0, frames := 0, throttled := 0, full := false }
  let seqs := s.ranked p
  let b := foldS (fun b e => if e.2.state == .decode then Build.decode b p e.1 e.2 else b) b seqs
  foldS (fun b e => if e.2.state == .queued || e.2.state == .prefill then Build.chunk b p e.1 e.2 else b) b seqs

/-- Write the batch table of the next step (R274), keep its entries, and trigger the step. -/
def State.startBatch (s : State) (p : Nat) (es : List BatchEntry) : State :=
  let n := (s.step p).counter
  let size := 64 + 576 * s.batchMax p
  let at_ := s.reg64 (Reg.srvPartBatchLo p) (Reg.srvPartBatchHi p) + n % 2 * size
  let head := toLe 8 n ++ toLe 4 es.length ++ toLe 4 (es.filter fun e => !e.chunk).length ++
    toLe 4 ((es.filter fun e => e.chunk).map fun e => e.tokens).sum ++ toLe 44 0
  let s := (s.storeP (s.serveDie p) p at_ (head ++ es.flatMap fun e => e.bytes ++ toLe 20 0 ++ toLe 512 0) []).2
  let s := { s with serve := { s.serve with batch := mput s.serve.batch p es, batchAt := mput s.serve.batchAt p at_ } }
  s.modStep p fun x => { x with trigger := true }

/-- Add to THROTTLE_COUNT, which saturates at 0xFFFF (R268). -/
def State.throttle (s : State) (p n : Nat) : State :=
  let v := s.reg (Reg.srvPartStats p)
  s.setReg (Reg.srvPartStats p) (v / 65536 * 65536 + min 0xFFFF (v % 65536 + n))

/-! The journal (R466 to R469) -/

/-- The journal area in force: enabled, base and slots of the ring (R462). -/
def Journal.area (j : Journal) : Bool × Nat × Nat :=
  (j.force.headD 0 == 1, j.force.getD 1 0 + 2 ^ 32 * j.force.getD 2 0, 64 * j.force.getD 3 0)

/-- A journal slot at a count of slots. -/
def State.slotAt (s : State) (p n : Nat) : Nat :=
  let a := (s.journal p).area
  a.2.1 + 64 * (n % (max 1 a.2.2))

/-- Write the journal record of a committed step (R466, R467). -/
def State.journalRecord (s : State) (p : Nat) : State :=
  let j := s.journal p
  let (on, _, ring) := j.area
  let batch := mgetD s.serve.batch p []
  let mark := foldS (fun s e => s.modSeq e.seq fun x => { x with seen := true })
  if !on then (mark s batch)
  else
    let base := (s.part p).seqBase
    let new := (batch.filterMap fun e => (s.seq e.seq).map fun x => (e.seq, x)).filter fun e => !e.2.seen
    let new := new.mergeSort fun a b => decide (a.2.admission ≤ b.2.admission)
    let pad (b : List Byte) : List Byte := b ++ toLe (64 - b.length) 0
    let admits := new.flatMap fun e =>
      pad (toLe 4 3 ++ toLe 4 (e.1 - base) ++ toLe 8 e.2.admission) ++ pad e.2.desc
    let entries := batch.flatMap fun e => pad (toLe 4 2 ++ e.bytes)
    let retires := j.retired.flatMap fun e => pad (toLe 4 4 ++ toLe 4 e.1 ++ toLe 1 e.2)
    let body := admits ++ entries ++ retires
    let head := pad (toLe 8 1 ++ toLe 8 (s.step p).counter ++ toLe 4 (body.length / 64) ++ toLe 4 (1 + (s.step p).run) ++
      toLe 8 s.now)
    let slots := 1 + body.length / 64
    let usedSlots := (j.wr + 2 ^ 32 - s.reg (Reg.gblDetPartJrnlRd p)) % 2 ^ 32
    if ring < usedSlots + slots then mark (s.inc (Reg.gblDetPartJrnlDropCount p)) batch
    else
      let all := head ++ body
      let s := foldS (fun s k => (s.storeP (s.serveDie p) p (s.slotAt p (j.wr + k)) ((all.drop (64 * k)).take 64) []).2) s (upTo slots)
      mark (s.modJournal p fun j => { j with wr := (j.wr + slots) % 2 ^ 32, retired := [] }) batch

/-- REPLAY.EN of a partition (R469). -/
def State.replays (s : State) (p : Nat) : Bool := bit (s.reg (Reg.gblDetPartReplay p)) 0

/-- The journal enable, area and size that the next step start takes (R462). -/
def State.journalRegs (s : State) (p : Nat) : List Nat :=
  [b2n (bit (s.reg Reg.gblDetJournal) p), s.reg (Reg.gblDetPartJrnlLo p), s.reg (Reg.gblDetPartJrnlHi p),
   s.reg (Reg.gblDetPartJrnlSize p)]

/-- Slots of the record at TAKEN, in the area that the step about to start takes, with the status of their read (R157). -/
def State.replaySlots (s : State) (p : Nat) (ks : List Nat) : Nat × List (List Byte) × State :=
  let a := { s.journal p with force := s.journalRegs p }.area
  foldS (fun (x : Nat × List (List Byte) × State) k =>
    if x.1 ≠ stOk then x
    else
      let r := x.2.2.fetchP (x.2.2.serveDie p) p (a.2.1 + 64 * (((s.journal p).taken + k) % max 1 a.2.2)) 64 []
      (r.1, x.2.1 ++ [r.2.1], r.2.2)) (stOk, [], s) ks

/-- Halt a replay (R469). -/
def State.haltReplay (s : State) (p cause : Nat) : State :=
  let s := s.modJournal p fun j => { j with halt := cause }
  (s.modStep p fun x => { x with mode := 0, modeNext := none }).partStateEvent p

/-- The slots after a STEP slot as a list of records; the slot after an ADMIT slot is its descriptor. -/
def replayItems (n : Nat) (slots : List (List Byte)) : List (Nat × List Byte × List Byte) :=
  match n, slots with
  | k + 1, a :: b :: rest =>
    if leAt a 0 1 = 3 then (3, a, b) :: replayItems k rest else (leAt a 0 1, a, []) :: replayItems k (b :: rest)
  | _, [a] => [(leAt a 0 1, a, [])]
  | _, _ => []

/-- The batch entry of an ENTRY slot (R466). -/
def replayEntry (base : Nat) (a : List Byte) : BatchEntry :=
  let b := slice a 4 44
  let chunk := bit (leAt b 0 4) 31
  { seq := base + leAt b 0 4 % 2 ^ 18, chunk := chunk, pos0 := leAt b 4 4, tokens := leAt b 8 4,
    drafts := leAt b 0xC 4 % 32, last := bit (leAt b 0xC 4) 8, frames := leAt b 0x28 4, stage := leAt b 0x20 8, staged := [],
    stop := false, bytes := b }

/-- Reserve an entry's cost in a replay: a shortfall is added to BALANCE and to ADJ_IN first (R469). -/
def State.reserveReplay (s : State) (a n : Nat) : State :=
  let s := s.modAccount a fun x => { x with balance := max x.balance n, adjIn := x.adjIn + (n - x.balance) }
  s.reserve a n

/-- Build a step from the next journal record (R469); one that cannot be read is not taken, and an index beyond the partition's
sequences halts the replay as one in use or in the wrong state (log entry 70). -/
def State.replayStep (s : State) (p : Nat) : State :=
  let got := s.replaySlots p [0]
  let s := got.2.2
  let head := got.2.1.headD []
  let n := leAt head 0x10 4
  let fed := (bits (s.reg (Reg.gblDetPartReplay p)) 27 1 + 2 ^ 27 - (s.journal p).taken % 2 ^ 27) % 2 ^ 27
  if got.1 ≠ stOk ∨ fed = 0 ∨ fed < 1 + n then s
  else
    let rest := s.replaySlots p ((upTo n).map fun k => 1 + k)
    let s := rest.2.2
    if rest.1 ≠ stOk then s
    else
    let s := if (s.step p).committedAny then s else s.modStep p fun x => { x with counter := leAt head 8 8 }
    if (s.step p).counter ≠ leAt head 8 8 then s.haltReplay p 1
    else
      let base := (s.part p).seqBase
      let items := replayItems n rest.2.1
      let admits := items.filter fun e => e.1 == 3
      let entries := (items.filter fun e => e.1 == 2).map fun e => replayEntry base e.2.1
      let size := (s.part p).seqSize
      let retires := (items.filter fun e => e.1 == 4 && decide (leAt e.2.1 4 4 < size)).map fun e =>
        (base + leAt e.2.1 4 4, leAt e.2.1 8 1)
      let evicted := (retires.filter fun e => e.2 == 3).map Prod.fst
      let s := foldS (fun s q => match s.seq q with
        | none => s
        | some x => s.retire p q 4 4 (s.seqLen p q) x.tokens) s evicted
      if (admits.any fun e => decide (size ≤ leAt e.2.1 4 4) || (s.seq (base + leAt e.2.1 4 4)).isSome) ||
          !(decide (admits.map fun e => leAt e.2.1 4 4).Nodup) then s.haltReplay p 2
      else
        let s := foldS (fun s e =>
          let i := leAt e.2.1 4 4
          let x := Sequence.parse p e.2.2
          let id := leAt e.2.2 0x20 4
          if bit (leAt e.2.2 0 4) 17 then
            let s := foldS (fun s c => s.modChain c fun y => { y with seq := base + i }) s (s.chainsFor p i)
            s.admitSeq p i { x with state := .decode, done := x.promptLen } (leAt e.2.1 8 8)
          else
            let pre := if id = 0xFFFFFFFF then none else (s.handle p id).map Prod.snd
            let pos := (pre.map fun y => y.pages * tagCap y.fmt y.mx y.d32).getD 0
            (s.openChains p i x pre).admitSeq p i { x with prefixPos := pos } (leAt e.2.1 8 8)) s admits
        let wrong (e : BatchEntry) : Bool := match s.seq e.seq with
          | none => true
          | some x => x.part != p || if e.chunk then !(x.state == .queued || x.state == .prefill) else x.state != .decode
        if entries.any wrong then s.haltReplay p 3
        else
          let s := foldS (fun s e => match s.seq e.seq with
            | none => s
            | some x => s.reserveReplay x.account e.tokens) s entries
          let pages := (entries.map fun e => e.frames).sum * s.cps p
          let s := { s with serve := { s.serve with reservedPages := mput s.serve.reservedPages p pages } }
          let s := s.modJournal p fun j =>
            { j with taken := (j.taken + 1 + n) % 2 ^ 32, toRetire := retires.filter fun e => e.2 != 3 }
          s.startBatch p entries

/-- STEP_BUILD (R270, R469): in SERVED mode, with the previous step committed, the batch of the next step is built once a
sequence can be scheduled. -/
def execStepBuild (p : Fin 16) (t : Nat) (s : State) : Host.Outcome State Fault Refusal :=
  let p := p.val
  let s := s.tick t
  .next (
    if (s.step p).mode ≠ 3 || !(s.mayStart p) || !(mgetD s.serve.batch p []).isEmpty then s
    else if s.replays p then s.replayStep p
    else
      let b := s.plan p
      if b.entries.isEmpty then s else (b.s.throttle p b.throttled).startBatch p b.entries)

/-! REEL_STAGE (R280) -/

/-- A REEL_STAGE breaks an operand-area rule (R113, R280). -/
def stageBad (w : HitchWord) : Bool :=
  fld w 0x10 31 18 != 0 || fld w 0x14 7 5 != 0 || fld w 0x14 31 9 != 0 || fld w 0x14 4 0 == 0 ||
    decide (16 < fld w 0x14 4 0) || fld w 0x18 31 21 != 0 || !(zeroBytes w 0x1C 0x40)

/-- Change the batch entry of a sequence. -/
def State.modEntry (s : State) (p q : Nat) (f : BatchEntry → BatchEntry) : State :=
  { s with serve := { s.serve with batch := mmod s.serve.batch p fun es => es.map fun e => if e.seq == q then f e else e } }

/-- The effect of a REEL_STAGE (R280); a mirror copy only reads its pairs (R447). -/
def State.stageBody (s : State) (r : Run) : Nat × Nat × State :=
  let i := fld r.w 0x10 17 0
  let count := fld r.w 0x14 4 0
  let a := fld r.w 0x18 20 0
  let q := (s.part r.p).seqBase + i
  let es := mgetD s.serve.batch r.p []
  let bs := s.peek (r.place 0 a) (8 * count)
  let fail (st : Nat) (s : State) : Nat × Nat × State := (st, 0, s)
  if (s.part r.p).seqSize ≤ i || !(inScratch a (8 * count)) then fail stAddrInvalid s
  else if s.mirror r then (stOk, crc64 bs, s)
  else
    match es.find? fun e => e.seq == q with
    | none => fail stReelOrder s
    | some e =>
      if e.stop then fail stReelOrder s
      else if 16 < e.staged.length + count || e.tokens < e.staged.length + count then fail stReelOver s
      else
        let pairs := (upTo count).map fun k => (leAt bs (8 * k) 4, leAt bs (8 * k + 4) 4)
        let slot := (es.findIdx fun e => e.seq == q) * 576 + 64 + 0x40 + 32 * e.staged.length
        let recs := pairs.flatMap fun x => toLe 4 1 ++ toLe 4 x.1 ++ toLe 12 0 ++ toLe 4 x.2 ++ toLe 8 0
        let x := s.storeP (some r.die) r.p (nget s.serve.batchAt r.p + slot) recs []
        if x.1 ≠ stOk then fail x.1 x.2
        else
        let s := x.2.modEntry r.p q fun e => { e with staged := e.staged ++ pairs, stop := flag r.w 0x15 0 }
        let s := { s with serve := { s.serve with staged := s.serve.staged + count, inStage := s.serve.inStage + count } }
        (stOk, crc64 bs, s.bump (Reg.srvStagedCount r.die) count)

/-- REEL_STAGE (R280). -/
def execReelStage (st : Fin 128) (u : Upset) (s : State) : Host.Outcome State Fault Refusal :=
  .next (s.runHitch st.val 0x39 (fun _ => true) u (fun r _ => [(fld r.w 0x18 20 0, 8 * fld r.w 0x14 4 0)]) fun r s =>
    s.stageBody r)

/-! The serving engine's part of a commit (R273, R276, R268, R440) -/

/-- What a commit fixes at its start (R276): the sequences it retires with the journal's reason, LEN of each, the drafts
that each sequence keeps, and the chains STARVED before. -/
structure CommitCtx where
  gone : List (Nat × Nat)
  lens : List (Nat × Nat)
  kept : List (Nat × Nat)
  starved : List Nat
  deriving DecidableEq, Repr

/-- The facts of a commit at its start. -/
def State.commitCtx (s : State) (p : Nat) : CommitCtx :=
  let live := (s.seqsOf p).filter fun e => e.2.state != .retired
  let gone := if s.replays p then (s.journal p).toRetire.filter fun e => live.any fun x => x.1 == e.1
    else live.filterMap fun e =>
      if e.2.cancelled then some (e.1, 2) else if e.2.deadline ≠ 0 ∧ e.2.deadline ≤ s.now then some (e.1, 1) else none
  let kept := live.map fun e =>
    let pend := (s.entriesIn (s.chain0 p e.1) .pending).length
    (e.1, min e.2.drafts (((mget s.kv.accepts (acceptKey p (e.1 - (s.part p).seqBase))).getD pend) - 1))
  { gone := gone, lens := live.map fun e => (e.1, s.seqLen p e.1), kept := kept,
    starved := (s.chainsOf p).filter fun c => (s.chain c).state == .starved }

/-- Whether a commit retires a sequence before its tokens are written. -/
def CommitCtx.isGone (c : CommitCtx) (q : Nat) : Bool := c.gone.any fun e => e.1 == q

/-- Copy one staged frame into a page of its chain (R273). -/
def State.copyFrame (s : State) (p c pma fill : Nat) : State :=
  let x := s.fetchP (s.serveDie p) p pma 65536 []
  if x.1 ≠ stOk then x.2.2.corruptChain p c x.1
  else
    match x.2.2.takePage p with
    | none => x.2.2.corruptChain p c stKvCorrupt
    | some (i, ct, s) =>
      let s := (s.newPage c i ct).linkPage c i
      let s := match s.page i with
        | some pg => (s.storeMpa (s.serveDie p) (pg.frame * 65536) x.2.1 []).2
        | none => s
      (s.modPage i fun y => { y with fill := fill }).modChain c fun y => { y with len := y.len + fill }

/-- Action 2 of a commit (R273, R440): staged frames become pages in chain order and frame order. -/
def State.commitPrefill (s : State) (p : Nat) (ctx : CommitCtx) : State :=
  let chunks := (mgetD s.serve.batch p []).filter fun e => e.chunk && !(ctx.isGone e.seq)
  let s := foldS (fun s e =>
    match s.seq e.seq with
    | none => s
    | some x =>
      let cap := tagCap x.fmt x.mx x.d32
      let chains := (upTo (s.cps p)).zip (s.chainsFor p (e.seq - (s.part p).seqBase))
      let s := foldS (fun s k => foldS (fun s f =>
        if (s.chain k.2).corrupt then s
        else s.copyFrame p k.2 (e.stage + (k.1 * e.frames + f) * 65536) (min cap (e.tokens - f * cap))) s (upTo e.frames)) s
        chains
      s.modSeq e.seq fun y =>
        { y with done := y.done + e.tokens, state := if y.done + e.tokens = y.promptLen then .decode else .prefill }) s
    (chunks.mergeSort fun a b => decide (a.seq ≤ b.seq))
  { s with serve := { s.serve with reservedPages := mdel s.serve.reservedPages p } }

/-- Staged records of an entry leave the stage, the first n of them for the reel (R288). -/
def State.unstage (s : State) (p q total n : Nat) : State :=
  let s := s.modEntry p q fun e => { e with staged := [], stop := false }
  { s with serve := { s.serve with inStage := s.serve.inStage - total, committed := s.serve.committed + n,
                                   discarded := s.serve.discarded + (total - n) } }

/-- The terminal record of a sequence that a commit retires for a reason: 1 DEADLINE, 2 END CANCELLED, 4 FAULT (R276,
R469). -/
def State.retireFor (s : State) (p q why len : Nat) : State :=
  let aux := ((s.seq q).map fun x => x.tokens).getD 0
  match why with
  | 1 => s.retire p q 3 0 len aux
  | 2 => s.retire p q 4 2 len aux
  | _ =>
    let f := s.takeFree
    f.2.retire p q 5 f.1 len aux

/-- The reel part of a commit for one batch entry (R276). -/
def State.commitEntry (s : State) (p : Nat) (ctx : CommitCtx) (e : BatchEntry) : State :=
  match s.seq e.seq with
  | none => s
  | some x =>
    let q := e.seq
    let total := e.staged.length
    match ctx.gone.find? fun g => g.1 == q with
    | some g => (s.unstage p q total 0).retireFor p q g.2 ((ctx.lens.find? fun l => l.1 == q).map Prod.snd |>.getD 0)
    | none =>
      let n := min total (x.maxNew - x.tokens)
      let full := x.tokens + n == x.maxNew
      let ends : Option Nat := if x.fault.isSome then none else if full then some 1 else if e.stop then some 0
        else if e.last && x.prefillOnly then some 3 else none
      let first := if e.chunk then e.pos0 + e.tokens else e.pos0 + 1
      let s := foldS (fun s k =>
        let r := e.staged.getD k (0, 0)
        let draft := !e.chunk && e.drafts != 0 && decide (k + 1 < total)
        let last := ends.isSome && k + 1 == n
        s.writeReel p q 1 (b2n last + 2 * b2n draft) r.1 (s.step p).counter (first + k) r.2) s (upTo n)
      let s := s.unstage p q total n
      let s := s.modSeq q fun y =>
        { y with tokens := y.tokens + n, lastToken := if n = 0 then y.lastToken else (e.staged.getD (n - 1) (0, 0)).1 }
      let starved := (s.seqChains q).filter fun c => (s.chain c).state == .starved && !(ctx.starved.contains c)
      let len := s.seqLen p q
      let s := match x.fault, ends with
        | some (st, num), _ => s.retire p q 5 st len num
        | none, some v => s.retire p q 4 v len (x.tokens + n)
        | none, none => s
      if starved.isEmpty then s else s.writeReel p q 2 0 1 (s.step p).counter len starved.length

/-- Action 4 of a commit (R276, R277, R440). -/
def State.commitReels (s : State) (p : Nat) (ctx : CommitCtx) : State :=
  let batch := mgetD s.serve.batch p []
  let s := foldS (fun s e => s.commitEntry p ctx e) s batch
  let s := foldS (fun s g =>
    if batch.any fun e => e.seq == g.1 then s
    else s.retireFor p g.1 g.2 ((ctx.lens.find? fun l => l.1 == g.1).map Prod.snd |>.getD 0)) s ctx.gone
  let s := s.modSeqs fun q x =>
    if x.part == p && (x.state == .decode || x.state == .prefill || x.state == .queued) &&
      (s.seqChains q).any fun c => (s.chain c).state == .starved
    then { x with back := x.state, state := .starved } else x
  s.modJournal p fun j => { j with toRetire := [] }

/-- Preempt a sequence (R250). -/
def State.preempt (s : State) (p q : Nat) : State :=
  let s := s.modSeq q fun y => { y with back := y.state, state := .preempted, preempting := false }
  (s.setChains q .preempted).setTtl p q true

/-- The pauses and preemptions asked for while a step ran (R249, R261, R279): a pause of a sequence that the step left STARVED
waits until its chains are OPEN again. -/
def State.latePauses (s : State) (p : Nat) : State :=
  foldS (fun s e =>
    if e.2.pausing && e.2.state == .decode then (s.pause p e.1).modSeq e.1 fun y => { y with preempting := false }
    else if e.2.preempting && (e.2.state == .decode || e.2.state == .prefill) then s.preempt p e.1
    else s.modSeq e.1 fun y => { y with pausing := y.pausing && y.state == .starved, preempting := false }) s
    ((s.seqsOf p).filter fun e => e.2.pausing || e.2.preempting)

/-- Action 7 of a commit (R268, R440): each entry's full cost is charged, and the batch is done. -/
def State.commitBudgets (s : State) (p : Nat) (ctx : CommitCtx) : State :=
  let batch := mgetD s.serve.batch p []
  foldS (fun s e =>
    let acct : Option Nat := (s.serve.seqs.find? fun x => x.1 == e.seq).map fun x => x.2.account
    match acct with
    | none => s
    | some a =>
      let kept := if e.chunk || ctx.isGone e.seq then 0 else (ctx.kept.find? fun k => k.1 == e.seq).map Prod.snd |>.getD 0
      s.modAccount a fun x =>
        { x with reserved := x.reserved - e.tokens, charged := x.charged + e.tokens,
                 prefilled := x.prefilled + (if e.chunk then e.tokens else 0),
                 drafted := x.drafted + (if e.chunk then 0 else e.drafts), accepted := x.accepted + kept }) s batch

/-- The batch of a partition ends with its step. -/
def State.endBatch (s : State) (p : Nat) : State :=
  { s with serve := { s.serve with batch := mdel s.serve.batch p, batchAt := mdel s.serve.batchAt p } }

/-- A run that ends uncommitted discards what it staged (R280, R288). -/
def State.discardStage (s : State) (p : Nat) : State :=
  foldS (fun s e => s.unstage p e.seq e.staged.length 0) s (mgetD s.serve.batch p [])

/-- An abandonment returns the reservations of its batch (R268, R272). -/
def State.returnBatch (s : State) (p : Nat) : State :=
  let s := foldS (fun s e => match s.seq e.seq with
    | none => s
    | some x => s.modAccount x.account fun a =>
      { a with reserved := a.reserved - e.tokens, balance := a.balance + e.tokens }) (s.discardStage p)
    (mgetD s.serve.batch p [])
  let s := { s with serve := { s.serve with reservedPages := mdel s.serve.reservedPages p } }
  (s.endBatch p).latePauses p

/-- The serving engine's part of a give-up (R445): every sequence of the batch is retired with a FAULT record. -/
def State.faultBatch (s : State) (p status num : Nat) (es : List BatchEntry) : State :=
  foldS (fun s e => s.retire p e.seq 5 status (s.seqLen p e.seq) num) s es

/-! The page manager (R249, R250) -/

/-- The expired pages of a tier, with their sequences, that the page manager may move, oldest EXPIRY first. -/
def State.expiredPages (s : State) (p : Nat) (ct : Bool) (f : Sequence → Bool) : List (Nat × Nat × Nat) :=
  let l := (s.seqsOf p).flatMap fun e =>
    if f e.2 then (s.movable e.1 ct).filterMap fun i => match s.page i with
      | some x => if s.expired x then some (x.expiry, e.1, i) else none
      | none => none
    else []
  l.mergeSort fun a b => decide (a.1 ≤ b.1)

/-- One turn of the loop of R249. The lowest-ranked sequence in DECODE or PREFILL is preempted at once, or, in the batch of the
step under way, when that step ends: the engine changes states at commit (R261, R262; log entry 69). -/
def State.manage (s : State) (p : Nat) : State :=
  let low := s.reg (Reg.kvpPartLowWater p)
  let starved := (s.chainsOf p).any fun c => (s.chain c).state == .starved
  if low ≤ s.freePages p false && !starved then s
  else
    let freeCt := decide (0 < s.freePages p true)
    match (if freeCt then s.expiredPages p false fun x => x.state == .paused else []).head? with
    | some e => s.startMove p e.2.2 true
    | none =>
      match (if s.replays p then [] else s.expiredPages p true fun x => x.state != .retired).head? with
      | some e => s.retire p e.2.1 4 4 (s.seqLen p e.2.1) (((s.seq e.2.1).map fun x => x.tokens).getD 0)
      | none =>
        if !freeCt then s
        else
          let held := (s.ranked p).filter fun e => e.2.state == .preempted && !(s.movable e.1 false).isEmpty
          match held.head? with
          | some e => s.startMove p ((s.movable e.1 false).headD 0) true
          | none =>
            let run := (s.ranked p).filter fun e => e.2.state == .decode || e.2.state == .prefill
            match run.getLast? with
            | none => s
            | some e =>
              if s.inBatch p e.1 then s.modSeq e.1 fun y => { y with preempting := true }
              else
              let s := s.preempt p e.1
              match (s.movable e.1 false).head? with
              | some i => s.startMove p i true
              | none => s

/-- PAGE_MANAGER (R249): one turn of its loop, never while the partition commits. -/
def execPageManager (p : Fin 16) (t : Nat) (s : State) : Host.Outcome State Fault Refusal :=
  let p := p.val
  let s := s.tick t
  .next (if s.live p && (s.step p).phase != .committing then s.manage p else s)

end Sys2Proof.Machine
end

