-- ==== Sys2Proof/Machine/Checks.lean ====
section
/-! DEFINITION. Checks and determinism outside the hitches: paired mode and quarantine commands (R446, R454, R455, R459),
journal and replay controls (R467, R469, R471), fault signature records as CBOR (R456 to R458), pattern packs (R449 to
R451), and bands and load patterns (R452, R453). -/

namespace Sys2Proof.Machine

/-! Paired mode and the replay limit (R446, R459) -/

/-- Whether hanks h_0 < … < h_(n−1) may be paired: n even, and the die of h_(i+n/2) lies the same distance above that of
h_i for every i (R446). -/
def pairable (hs : List Nat) : Bool :=
  let n := hs.length / 2
  hs.length % 2 == 0 &&
    (upTo n).all fun i => dieOf (hs.getD (i + n) 0) + dieOf (hs.headD 0) == dieOf (hs.getD n 0) + dieOf (hs.getD i 0)

/-- A write of CHK_PART_CTRL (R446, R459). -/
def State.chkPartWrite (s : State) (p v : Nat) : Nat × State :=
  if bit v 0 && !(pairable (s.part p).hanks) then (stSpliceConflict, s)
  else (stOk, s.setReg (Reg.chkPartCtrl p) (v % 2 + 16 * bits v 6 4))

/-- The instance of a per-die partition register through which the partition reaches it (R22). -/
def State.dieOffset (s : State) (p : Nat) : Nat := 0x4000 * (s.diesOf p).headD 0

/-- CHK_PART_CTRL (R446, R459). -/
def execChkPartCtrl (h : CmdHdr) (p : Fin 16) (value : Word) (s : State) : Host.Outcome State Fault Refusal :=
  .next (s.regCommand h 0x0101 (Reg.chkPartCtrl p.val + s.dieOffset p.val) fun s =>
    let r := s.chkPartWrite p.val value.toNat
    ans r.1 r.2)

/-! Quarantine by command (R455, R459) -/

/-- A write of CHK_STRAND_QSET (R459): cells are set as if their threshold had been reached. -/
def State.qsetWrite (s : State) (st v : Nat) : State :=
  if v % 2 ^ 20 = 0 && !(bit v 31) then s else s.quarantine st v

/-- The score that a release in the present CLK_CTRL cycle leaves a cell: its last rise is counted when it falls in that cycle
(R459). -/
def scoreLeft (now : Nat) (e : Nat × Nat × Nat) : Option (Nat × Nat × Nat) :=
  if sameCycle e.2.2 now then some (e.1, 1, e.2.2) else none

/-- A write of CHK_STRAND_QMASK (R455, R459): the cells written 1 are released and their scores cleared. -/
def State.qmaskWrite (s : State) (st v : Nat) : State :=
  let a := Reg.chkStrandQmask (st / 32) (st % 32)
  let v := orBits (v % 2 ^ 20) (if bit v 31 then 2 ^ 31 else 0)
  let s := s.setReg a (andNotBits (s.reg a) v)
  let now := s.now
  (s.modStrand st fun x =>
    { x with scores := x.scores.filterMap fun e => if bit v e.1 then scoreLeft now e else some e,
             released := some (now, v) }).freeAvail st

/-- CHK_STRAND_QSET (R459). -/
def execChkStrandQset (h : CmdHdr) (st : Fin 128) (value : Word) (s : State) : Host.Outcome State Fault Refusal :=
  .next (s.regCommand h 0x0101 (Reg.chkStrandQset (st.val / 32) (st.val % 32)) fun s =>
    ans stOk (s.qsetWrite st.val value.toNat))

/-- CHK_STRAND_QMASK (R455). -/
def execChkStrandQmask (h : CmdHdr) (st : Fin 128) (value : Word) (s : State) : Host.Outcome State Fault Refusal :=
  .next (s.regCommand h 0x0101 (Reg.chkStrandQmask (st.val / 32) (st.val % 32)) fun s =>
    ans stOk (s.qmaskWrite st.val value.toNat))

/-! Journal and replay (R467, R471) -/

/-- A write of GBL_DET_PART_JRNL_RD (R471): without effect ahead of WR or more than the ring behind it. -/
def State.jrnlRdWrite (s : State) (p v : Nat) : State :=
  if (s.journal p).area.2.2 < ((s.journal p).wr + 2 ^ 32 - v) % 2 ^ 32 then s else s.setReg (Reg.gblDetPartJrnlRd p) v

/-- A write of GBL_DET_PART_REPLAY (R471): a write that lowers FEED, a count modulo 2^27, leaves FEED (DEDUCED: lower is
taken modulo 2^27, log entry 39). -/
def State.replayWrite (s : State) (p v : Nat) : State :=
  let a := Reg.gblDetPartReplay p
  let old := bits (s.reg a) 27 1
  let new := bits v 27 1
  let feed := if (new + 2 ^ 27 - old) % 2 ^ 27 < 2 ^ 26 then new else old
  s.setReg a (v % 2 + 2 * feed)

/-- GBL_DET_PART_JRNL_RD (R467, R471). -/
def execGblDetPartJrnlRd (h : CmdHdr) (p : Fin 16) (value : Word) (s : State) : Host.Outcome State Fault Refusal :=
  .next (s.regCommand h 0x0101 (Reg.gblDetPartJrnlRd p.val) fun s => ans stOk (s.jrnlRdWrite p.val value.toNat))

/-- GBL_DET_PART_REPLAY (R469, R471). -/
def execGblDetPartReplay (h : CmdHdr) (p : Fin 16) (value : Word) (s : State) : Host.Outcome State Fault Refusal :=
  .next (s.regCommand h 0x0101 (Reg.gblDetPartReplay p.val) fun s => ans stOk (s.replayWrite p.val value.toNat))

/-! Fault signature records as CBOR (R456) -/

/-- Bytes of a number, most significant first. -/
def toBe (n v : Nat) : List Byte := (toLe n v).reverse

/-- The shortest-form head of a CBOR item of a major type (R456). -/
def cborHead (major v : Nat) : List Byte :=
  let m := 32 * major
  if v < 24 then toBe 1 (m + v)
  else if v < 2 ^ 8 then toBe 1 (m + 24) ++ toBe 1 v
  else if v < 2 ^ 16 then toBe 1 (m + 25) ++ toBe 2 v
  else if v < 2 ^ 32 then toBe 1 (m + 26) ++ toBe 4 v
  else toBe 1 (m + 27) ++ toBe 8 v

/-- An unsigned integer. -/
def cborNat (v : Nat) : List Byte := cborHead 0 v
/-- An integer. -/
def cborInt (v : Int) : List Byte := if v < 0 then cborHead 1 (-v - 1).toNat else cborHead 0 v.toNat
/-- A map of unsigned integers. -/
def cborMap (m : List (Nat × Nat)) : List Byte := cborHead 5 m.length ++ m.flatMap fun e => cborNat e.1 ++ cborNat e.2
/-- A telltale as a byte string of 8 bytes. -/
def cborTelltale (v : Nat) : List Byte := cborHead 2 8 ++ toBe 8 v

/-- A key of a record that is present. -/
def cborKey (k : Nat) (v : Option (List Byte)) : List (Nat × List Byte) :=
  match v with
  | some b => [(k, b)]
  | none => []

/-- The keys of a record with their items, in ascending order (R456): a partition sees none of 1, 5 and 14 (R458). -/
def Record.keys (r : Record) (modNum : Nat) (full : Bool) : List (Nat × List Byte) :=
  let whole (v : List Byte) : Option (List Byte) := if full then some v else none
  let map_ (m : List (Nat × Nat)) : Option (List Byte) := if m.isEmpty then none else some (cborMap m)
  cborKey 0 (some (cborNat 1)) ++ cborKey 1 (whole (cborNat r.num)) ++ cborKey 2 (some (cborNat r.kind)) ++
    cborKey 3 (some (cborNat r.time)) ++ cborKey 4 (r.status.map cborNat) ++ cborKey 5 (whole (cborNat modNum)) ++
    cborKey 6 (some (match r.part with | some p => cborNat p | none => [0xF6])) ++
    cborKey 7 (r.part.map fun _ => cborNat r.step) ++ cborKey 8 (r.part.map fun _ => cborNat r.run) ++
    cborKey 9 (map_ r.wher) ++ cborKey 10 (r.strand.map fun x => cborNat x.1) ++
    cborKey 11 (r.strand.map fun x => cborNat x.2.1) ++ cborKey 12 (r.strand.map fun x => cborInt x.2.2) ++
    cborKey 13 (r.pack.map fun x => cborHead 4 3 ++ cborNat x.1 ++ cborNat x.2.1 ++ cborNat x.2.2) ++
    cborKey 14 (if full then r.mpa.map cborNat else none) ++ cborKey 15 (r.pma.map cborNat) ++
    cborKey 16 (r.telltales.map fun x => cborHead 4 2 ++ cborTelltale x.1 ++ cborTelltale x.2) ++
    cborKey 17 (map_ r.peer) ++ cborKey 18 (some (cborNat r.action)) ++ cborKey 19 (map_ r.detail) ++
    cborKey 20 (r.part.map fun _ => cborNat r.partNum) ++ cborKey 21 (r.qmask.map cborNat)

/-- The encoded record. -/
def Record.encode (r : Record) (modNum : Nat) (full : Bool) : List Byte :=
  let ks := r.keys modNum full
  cborHead 5 ks.length ++ ks.flatMap fun e => cborNat e.1 ++ e.2

/-- The newest record number of a session's view (R458). -/
def State.newestRecord (s : State) (sid : Nat) : Nat :=
  if isCommander sid then s.checks.next - 1 else (s.part (sidPart sid)).records

/-- The record a session knows by a number (R458); those of a former partition of its number are the commander's alone (R491). -/
def State.recordOf (s : State) (sid n : Nat) : Option Record :=
  s.checks.ring.find? fun r =>
    if isCommander sid then r.num == n
    else r.part == some (sidPart sid) && r.partNum == n && decide ((s.part (sidPart sid)).firstRecord ≤ r.num)

/-- FSR_READ (R458). -/
def execFsrRead (h : CmdHdr) (first maximum : Nat) (s : State) : Host.Outcome State Fault Refusal :=
  .next (s.command h 0x0700 fun s =>
    if maximum ≠ 1 ∧ maximum ≠ 2 then ans stMalformed s
    else
      match s.recordOf h.session first with
      | none => ans stReelRange s
      | some r =>
        let rs := r :: (if maximum = 2 then (s.recordOf h.session (first + 1)).toList else [])
        let item (r : Record) : List Byte :=
          let b := r.encode s.self (isCommander h.session)
          let n := 2 + b.length
          toLe 2 b.length ++ b ++ toLe (ceilDiv n 4 * 4 - n) 0
        (stOk, toLe 8 (s.newestRecord h.session) ++ rs.flatMap item, s))

/-- FSR_ACK (R458). -/
def execFsrAck (h : CmdHdr) (n : Nat) (s : State) : Host.Outcome State Fault Refusal :=
  .next (s.command h 0x0701 fun s =>
    if s.newestRecord h.session < n then ans stReelRange s
    else if isCommander h.session then
      ans stOk { s with checks := { s.checks with commanderAck := max s.checks.commanderAck n } }
    else ans stOk (s.modSession h.session fun x => { x with fsrAck := max x.fsrAck n }))

/-! Pattern packs (R449 to R451) -/

/-- Bytes of a pack slot. -/
def packSize : Nat := 2 ^ 22

/-- A 32-byte test of a pack obeys the table (R449). -/
def testGood (t : List Byte) (length : Nat) : Bool :=
  decide (leAt t 0 4 < length) && decide (leAt t 4 1 ≤ 3) && leAt t 5 3 == 0 &&
    decide (leAt t 8 4 + leAt t 0xC 4 ≤ scratchSize) && decide (leAt t 0x18 4 ≤ 200) && leAt t 0x1C 4 == 0

/-- The header and tests of a pack obey the table (R449); `total` bytes were loaded, its signature included. -/
def State.packGood (s : State) (slot total : Nat) : Bool :=
  let b := packBase slot
  let tests := s.peekLe (b + 6) 2
  let length := s.peekLe (b + 0xC) 4
  decide (1 ≤ tests ∧ tests ≤ 1024) && decide (s.peekLe (b + 8) 4 < 32) && decide (0x40 + 32 * tests ≤ length) &&
    decide (length ≤ total) && ((s.peek (b + 0x10) 48).all fun x => x == 0) &&
    (upTo tests).all fun i => testGood (s.peek (b + 0x40 + 32 * i) 32) length

/-- Mark a pack slot as holding a verified pack, or not. -/
def State.packSlot (s : State) (slot : Nat) (v : Bool) : State :=
  let m := andNotBits (s.reg Reg.chkPackSlots) (2 ^ slot)
  s.setReg Reg.chkPackSlots (if v then m + 2 ^ slot else m)

/-- Empty a pack slot. -/
def State.emptyPack (s : State) (slot : Nat) : State := (s.wipe (packBase slot) packSize).packSlot slot false

/-- PACK_LOAD (R449, R458): CLEAR empties the slot first; a fragment makes the slot unverified until LAST checks the whole
pack; a refused pack leaves its slot empty. -/
def execPackLoad (h : CmdHdr) (slot : Nat) (last clear : Bool) (offset : Nat) (data : List Byte) (s : State) :
    Host.Outcome State Fault Refusal :=
  .next (s.command h 0x0702 fun s =>
    if 15 < slot ∨ 1424 < data.length ∨ packSize < offset + data.length then ans stMalformed s
    else
      let s := if clear then s.emptyPack slot else s
      if data.isEmpty && !last then ans stOk s
      else
        let s := (s.poke (packBase slot + offset) data).packSlot slot false
        if !last then ans stOk s
        else
          let total := offset + data.length
          if !(s.packGood slot total) then ans stMalformed (s.emptyPack slot)
          else
            let length := s.peekLe (packBase slot + 0xC) 4
            let digest := shake256 64 (s.peek (packBase slot) length)
            let sig := s.peek (packBase slot + length) (total - length)
            if Config.verifies (Config.signingKey 1) digest sig then ans stOk (s.packSlot slot true)
            else ans stCoilRefused (s.emptyPack slot))

/-- The tests that a strand runs, as slot and test: those of every verified pack whose BANDS includes its band (R450). -/
def State.packTests (s : State) (st : Nat) : List (Nat × Nat) :=
  let band := (s.hank (hankOf st)).band
  ((upTo 16).filter fun k => bit (s.reg Reg.chkPackSlots) k && bit (s.peekLe (packBase k + 8) 4) band).flatMap fun k =>
    (upTo (s.peekLe (packBase k + 6) 2)).map fun i => (k, i)

/-- A test as the run takes it from its pack (R449). -/
def State.packTest (s : State) (k i : Nat) : PackTest :=
  let b := packBase k
  let e := b + 0x40 + 32 * i
  { slot := k, num := i, id := s.peekLe b 4, version := s.peekLe (b + 4) 2, pattern := s.peekLe (e + 4) 1,
    expected := s.peekLe (e + 0x10) 8, bound := s.peekLe (e + 0x18) 4 }

/-- The run of a die goes on to the first of some tests whose slot still holds a verified pack; with none it ends (R450,
R458). -/
def State.packNext (s : State) (x : Pack) (l : List (Nat × Nat)) : Pack :=
  match l with
  | [] => { x with strand := none, cur := none, rest := [] }
  | (k, i) :: l =>
    if bit (s.reg Reg.chkPackSlots) k then { x with cur := some (s.packTest k i), rest := l } else s.packNext x l

/-- A pack test may run on a strand: no step of its partition is under way, and its hank is on (R450, R536). -/
def State.packMayRun (s : State) (st : Nat) : Bool :=
  let g := hankOf st
  (!s.woken || (s.dom (hankDom g)).state == .on) &&
    match s.partOf g with
    | none => true
    | some p => !(s.stepUnderWay p)

/-- The pack test of a die. -/
def State.packOf (s : State) (d : Nat) : Pack := mgetD s.checks.packs d Pack.empty
/-- Change the pack test of a die. -/
def State.setPack (s : State) (d : Nat) (x : Pack) : State :=
  { s with checks := { s.checks with packs := mput s.checks.packs d x } }

/-- PACK_ROTATION (R450, R536): every INTERVAL the die's next strand is taken; a strand whose hank is not on is skipped. -/
def execPackRotation (die : Fin 4) (t : Nat) (s : State) : Host.Outcome State Fault Refusal :=
  let d := die.val
  let s := s.tick t
  let x := s.packOf d
  let ctrl := s.reg (Reg.chkPackCtrl d)
  .next (
    if !(bit ctrl 0) || decide (s.now < x.at_ + 1000000000 * max 1 (bits ctrl 15 8)) then s
    else
      let i := (x.last + 1) % 32
      let st := 32 * d + i
      let on := !s.woken || (s.dom (hankDom (hankOf st))).state == .on
      s.setPack d (s.packNext { last := i, at_ := s.now, strand := some st, cur := none, rest := [] }
        (if on then s.packTests st else [])))

/-- PACK_TEST_END (R451): the test under way ends, is counted, and fails on a difference, a blocking status or a run beyond
its bound. -/
def execPackTestEnd (die : Fin 4) (r : PackResult) (t : Nat) (s : State) : Host.Outcome State Fault Refusal :=
  let d := die.val
  let s := s.tick t
  let x := s.packOf d
  .next (
    match x.strand, x.cur with
    | some st, some c =>
      if !(s.packMayRun st) then s
      else
        let fails := r.telltale != c.expected || isBlocking r.status || decide (c.bound < r.us)
        let s := (s.inc (Reg.chkPackRunCount d)).setPack d (s.packNext x x.rest)
        if !fails then s.modStrand st fun y => { y with packPasses := (y.packPasses + 1) % 65536 }
        else
          let g := hankOf st
          let hk := s.hank g
          let rec_ := s.record 6 (s.partOf g)
          let s := (s.inc (Reg.chkPackFailCount d)).fsr
            { rec_ with status := if r.status = 0 then none else some r.status,
                        wher := [(0, d), (1, g), (3, st)], strand := some (hk.band, c.pattern, hk.temp),
                        pack := some (c.id, c.version, c.num), telltales := some (c.expected, r.telltale) }
          s.scoreRise st (4 * hk.band + c.pattern)
    | _, _ => s)

/-- SCORE_DECAY (R454): a cell's score falls to 0 24 h after its last rise. -/
def execScoreDecay (st : Fin 128) (cell : Fin 20) (t : Nat) (s : State) : Host.Outcome State Fault Refusal :=
  let s := s.tick t
  .next (
    match mget (s.strand st.val).scores cell.val with
    | none => s
    | some (_, at_) =>
      if s.now < at_ + 86400000000000 then s
      else s.modStrand st.val fun x => { x with scores := mdel x.scores cell.val })

/-! Bands and load patterns (R452, R453) -/

/-- The band of a reading in 0.1 °C by the edges alone (R452). -/
def bandOf (v : Int) : Nat := if v < 550 then 0 else if v < 700 then 1 else if v < 850 then 2 else if v < 950 then 3 else 4

/-- The band after a reading: the present band is left only 2 K beyond its edge (R452). -/
def bandNext (band : Nat) (v : Int) : Nat :=
  let up := bandOf (v - 20)
  let down := bandOf (v + 20)
  if band < up then bandOf v else if down < band then bandOf v else band

/-- BAND_CLASSIFY (R452, R453): the band from the higher reading of the hank's pair, kept when both sensors give none, and
the load pattern of the last 1 ms. -/
def execBandClassify (g : Fin 16) (c : LoadCounts) (t : Nat) (s : State) : Host.Outcome State Fault Refusal :=
  let s := s.tick t
  let x := s.spot g.val
  let reading : Option Int := match x.a, x.b with
    | some a, some b => some (max a b)
    | some a, none => some a
    | none, b => b
  let change := max c.power (s.hank g.val).lastPower - min c.power (s.hank g.val).lastPower
  let pattern := if 20 ≤ change then 3 else if 500 ≤ c.matrix then 0 else if 500 ≤ c.vector then 1 else 2
  let s := s.modHank g.val fun h =>
    match reading with
    | none => { h with pattern := pattern, lastPower := c.power }
    | some v => { h with pattern := pattern, lastPower := c.power, temp := v, banded := true,
                         band := if h.banded then bandNext h.band v else bandOf v }
  .next (foldS (fun s i => s.freeAvail (8 * g.val + i)) s (upTo 8))

end Sys2Proof.Machine
end

