-- ==== Sys2Proof/Machine/Conv.lean ====
section
/-! DEFINITION. Convolution and pooling (chapter 12): the window geometry (R338 to R343), channel-blocked and packed
tensors (R335 to R337, R341, R342), CONV on the matrix unit (R344 to R350) and POOL on the vector unit (R351 to R353). -/

namespace Sys2Proof.Machine

/-- The geometry descriptor (R343). -/
structure Geom where
  inH : Nat
  inW : Nat
  inC : Nat
  layout : Nat
  s2d : Nat
  kh : Nat
  kw : Nat
  sh : Nat
  sw : Nat
  dh : Nat
  dw : Nat
  pt : Nat
  pb : Nat
  pl : Nat
  pr : Nat
  rowLo : Nat
  rowCount : Nat
  padValue : Nat
  inRow : Nat
  inPlane : Nat
  inSrow : Nat
  inSplane : Nat
  outRow : Nat
  outPlane : Nat
  outSrow : Nat
  outSplane : Nat
  outLayout : Nat
  d2s : Nat
  padScale : Nat
  deriving DecidableEq, Repr

/-- Read a descriptor. -/
def Geom.parse (b : List Byte) : Geom :=
  { inH := leAt b 0 2, inW := leAt b 2 2, inC := leAt b 4 2, layout := leAt b 6 1, s2d := leAt b 7 1, kh := leAt b 8 1,
    kw := leAt b 9 1, sh := leAt b 0xA 1, sw := leAt b 0xB 1, dh := leAt b 0xC 1, dw := leAt b 0xD 1, pt := leAt b 0xE 1,
    pb := leAt b 0xF 1, pl := leAt b 0x10 1, pr := leAt b 0x11 1, rowLo := leAt b 0x12 2, rowCount := leAt b 0x14 2,
    padValue := leAt b 0x16 2, inRow := leAt b 0x18 4, inPlane := leAt b 0x1C 4, inSrow := leAt b 0x20 4,
    inSplane := leAt b 0x24 4, outRow := leAt b 0x28 4, outPlane := leAt b 0x2C 4, outSrow := leAt b 0x30 4,
    outSplane := leAt b 0x34 4, outLayout := leAt b 0x38 1, d2s := leAt b 0x39 1, padScale := leAt b 0x3A 1 }

/-- A block factor of R341 and R342. -/
def factorOk (b : Nat) : Bool := b == 1 || b == 2 || b == 4 || b == 8

/-- Input channels per pixel block. -/
def Geom.cb (g : Geom) : Nat := if g.layout % 2 = 0 then 16 else 32
/-- Output channels per pixel block, in a blocked output. -/
def Geom.cbOut (g : Geom) : Nat := if g.outLayout = 0 then 16 else 32
/-- Rows, columns and channels of the view (R341). -/
def Geom.vh (g : Geom) : Nat := (g.inH + g.s2d - 1) / g.s2d
def Geom.vw (g : Geom) : Nat := (g.inW + g.s2d - 1) / g.s2d
def Geom.vc (g : Geom) : Nat := g.s2d * g.s2d * g.inC

/-- A field of the descriptor is outside its range, or breaks a restriction of R335, R337, R341 or R342 for its formats of
element widths w and wo. -/
def Geom.bad (g : Geom) (b : List Byte) (w : Nat) (mx : Bool) (wo : Nat) (mxo : Bool) : Bool :=
  g.inH == 0 || g.inW == 0 || g.inC == 0 || decide (4096 < g.inC) || decide (3 < g.layout) || !(factorOk g.s2d) ||
    g.kh == 0 || g.kw == 0 || g.sh == 0 || g.sw == 0 || g.dh == 0 || g.dw == 0 || g.rowCount == 0 ||
    decide (2 ^ w ≤ g.padValue) || decide (2 < g.outLayout) || !(factorOk g.d2s) || leAt b 0x3B 5 != 0 ||
    g.inRow % 16 != 0 || g.inPlane % 16 != 0 || g.outRow % 16 != 0 || g.outPlane % 16 != 0 ||
    (decide (2 ≤ g.layout) != decide (1 < g.s2d)) || ((g.outLayout == 2) != decide (1 < g.d2s)) ||
    decide (4096 < g.vc) || (w == 4 && g.layout != 1) || (mx && g.layout != 1) ||
    (decide (2 ≤ g.layout) && (mx || !(w == 8 || w == 16))) ||
    (g.outLayout == 2 && (mxo || !(wo == 8 || wo == 16))) || (mxo && g.outLayout != 1) || (wo == 4 && g.outLayout != 1)

/-- The output size of one axis (R338). -/
def outSize (n lo hi d k st : Nat) : Int :=
  Int.fdiv ((n : Int) + lo + hi - d * ((k : Int) - 1) - 1) st + 1

/-- Output rows. -/
def Geom.oh (g : Geom) : Int := outSize g.vh g.pt g.pb g.dh g.kh g.sh
/-- Output columns. -/
def Geom.ow (g : Geom) : Int := outSize g.vw g.pl g.pr g.dw g.kw g.sw
/-- The geometry gives no output (R338). -/
def Geom.isEmpty (g : Geom) : Bool := decide (g.oh ≤ 0) || decide (g.ow ≤ 0)

/-- The input row or column of a tap (R339). -/
def tapAt (o st k d lo : Nat) : Int := (o : Int) * st + k * d - lo

/-- The row of the view that a tap reads, if it lies in the image. -/
def Geom.tapRow (g : Geom) (oy ky : Nat) : Option Nat :=
  let y := tapAt oy g.sh ky g.dh g.pt
  if 0 ≤ y ∧ y < g.vh then some y.toNat else none
/-- The column of the view that a tap reads, if it lies in the image. -/
def Geom.tapCol (g : Geom) (ox kx : Nat) : Option Nat :=
  let x := tapAt ox g.sw kx g.dw g.pl
  if 0 ≤ x ∧ x < g.vw then some x.toNat else none

/-- Image taps of an output pixel. -/
def Geom.imageTaps (g : Geom) (oy ox : Nat) : Nat :=
  ((upTo g.kh).filter fun ky => (g.tapRow oy ky).isSome).length *
    ((upTo g.kw).filter fun kx => (g.tapCol ox kx).isSome).length

/-- Whether an output pixel has more pad taps than image taps (R340). -/
def Geom.padDominant (g : Geom) (oy ox : Nat) : Bool :=
  let n := g.imageTaps oy ox
  decide (n < g.kh * g.kw - n)

/-- Whether the original rows that a tap row of an output row reads are resident (R350). -/
def Geom.resident (g : Geom) (oy ky : Nat) : Bool :=
  match g.tapRow oy ky with
  | none => true
  | some y => (upTo g.s2d).all fun dy =>
      let row := y * g.s2d + dy
      decide (g.inH ≤ row) || decide (g.rowLo ≤ row ∧ row < g.rowLo + g.rowCount)

/-- A tensor in scratch or a hank region, as a hitch reads it. -/
structure Tensor where
  g : Geom
  space : Nat
  addr : Nat
  scale : Nat
  f : Fmt
  mx : Bool
  deriving DecidableEq, Repr

/-- The pad operand (R339). -/
def Tensor.pad (t : Tensor) : Num :=
  let x := t.f.decode t.mx t.g.padValue
  if t.mx then x.scaled t.g.padScale else x

/-- Element (y, x, c) of the view (R335 to R337, R341). -/
def Tensor.elem (s : State) (r : Run) (t : Tensor) (y x c : Nat) : Num :=
  let g := t.g
  let w := t.f.width
  if g.vc ≤ c then Num.zero
  else if g.layout < 2 then
    let n := c % g.cb
    let at_ := t.addr + c / g.cb * g.inPlane + (y - g.rowLo) * g.inRow + x * (g.cb * w / 8) + n * w / 8
    let code := s.peekLe (r.place t.space at_) 2 / 2 ^ (n * w % 8) % 2 ^ w
    let v := t.f.decode t.mx code
    if t.mx then
      v.scaled (s.peekLe (r.place t.space (t.scale + c / g.cb * g.inSplane + (y - g.rowLo) * g.inSrow + x)) 1)
    else v
  else
    let b := g.s2d
    let q := c / g.inC
    let yy := y * b + q / b
    let xx := x * b + q % b
    if g.inH ≤ yy ∨ g.inW ≤ xx then t.pad
    else
      let at_ := t.addr + (yy - g.rowLo) * g.inRow + (xx * g.inC + c % g.inC) * (w / 8)
      t.f.decode false (s.peekLe (r.place t.space at_) (w / 8))

/-- Whether the planes n0 to n0 + n − 1 of a tensor's resident rows lie in their space. -/
def Tensor.inSpace (t : Tensor) (n0 n : Nat) : Bool :=
  let g := t.g
  let w := t.f.width
  if g.layout < 2 then
    let last := (n0 + n - 1) * g.inPlane + (g.rowCount - 1) * g.inRow + g.inW * (g.cb * w / 8)
    let lastS := (n0 + n - 1) * g.inSplane + (g.rowCount - 1) * g.inSrow + g.inW
    Machine.inSpace t.space t.addr last && (!t.mx || Machine.inSpace t.space t.scale lastS)
  else Machine.inSpace t.space t.addr ((g.rowCount - 1) * g.inRow + g.inW * g.inC * (w / 8))

/-- The output pixels of a tile: accumulator row, output row and column, for those inside the output (R345). -/
def Geom.pixels (g : Geom) (oy0 ox0 th tw : Nat) : List (Nat × Nat × Nat) :=
  ((upTo (th * tw)).map fun i => (i, oy0 + i / tw, ox0 + i % tw)).filter fun e =>
    decide ((e.2.1 : Int) < g.oh) && decide ((e.2.2 : Int) < g.ow)

/-- The rows or columns of a list, each once. -/
def once (l : List Nat) : List Nat := l.foldl (fun a x => if a.contains x then a else a ++ [x]) []

/-! CONV (R344 to R350) -/

/-- A CONV breaks an operand-area rule (R113, R344). -/
def convBad (w : HitchWord) : Bool :=
  fld w 0x10 31 24 != 0 || fld w 0x14 31 23 != 0 || fld w 0x18 31 21 != 0 || fld w 0x1C 31 21 != 0 ||
    fld w 0x20 31 21 != 0 || fld w 0x24 31 21 != 0 || fld w 0x28 31 21 != 0 || fld w 0x28 5 0 != 0 ||
    fld w 0x2C 7 0 != 0 || fld w 0x2C 15 15 != 0 || fld w 0x2C 23 21 != 0 || fld w 0x2C 31 31 != 0 ||
    fld w 0x38 31 29 != 0 || fld w 0x3C 15 12 != 0 || fld w 0x3C 31 29 != 0 ||
    (operandFmt (fld w 0x2C 19 16) (flag w 0x2C 20)).isNone || (operandFmt (fld w 0x2C 27 24) (flag w 0x2C 28)).isNone ||
    (flag w 0x2C 30 && (outputFmt (fld w 0x38 27 24) (flag w 0x38 28)).isNone) ||
    fld w 0x38 7 0 == 0 || fld w 0x38 15 8 == 0 || decide (128 < fld w 0x38 7 0 * fld w 0x38 15 8) ||
    fld w 0x3C 28 16 == 0 || decide (4096 < fld w 0x3C 28 16)

/-- One write of an output pixel block: codes, and the scale of an MX block (R57, R336). -/
def blockWrites (f : Fmt) (mx sat : Bool) (rs : List Rnd) (vs : List Num) (at_ scale : Nat) : List (Nat × List Byte) × Nat :=
  if mx then
    let x := encodeRowMx f rs vs
    ([(at_, packElems f.width (x.2.1.map (plusZero f))), (scale, x.1.map (BitVec.ofNat 8))], x.2.2)
  else
    let x := encodeRow f sat rs vs
    ([(at_, packElems f.width (x.1.map (plusZero f)))], x.2)

/-- The writes of a CONV readout (R345, R336, R342): one pixel block per pixel and plane, or depth-to-space pixels. -/
def convEmit (g : Geom) (px : List (Nat × Nat × Nat)) (oy0 ox0 n : Nat) (f : Fmt) (mx sat : Bool) (out scale : Nat)
    (a : Acc) (rs : List Rnd) : List (Nat × List Byte) × Nat :=
  let w := f.width
  let parts := px.flatMap fun e =>
    let i := e.1
    let dy := e.2.1 - oy0
    let dx := e.2.2 - ox0
    if g.outLayout < 2 then
      let cb := g.cbOut
      (upTo ((n + cb - 1) / cb)).map fun p =>
        let cs := (upTo cb).map fun c => p * cb + c
        let at_ := out + p * g.outPlane + dy * g.outRow + dx * (cb * w / 8)
        if f = .raw then
          ([(at_, packElems 112 (cs.map fun c => if c < n then rawBits (a.col c) i else 0))], 0)
        else
          let vs := cs.map fun c => if c < n then (a.col c).value i else Num.zero
          let r := cs.map fun c => if c < n then rs.getD (i * n + c) .rne else .rne
          blockWrites f mx sat r vs at_ (scale + p * g.outSplane + dy * g.outSrow + dx)
    else
      let b := g.d2s
      let cn := n / (b * b)
      (upTo (b * b)).map fun q =>
        let cs := (upTo cn).map fun c => q * cn + c
        let at_ := out + (dy * b + q / b) * g.outRow + (dx * b + q % b) * cn * (w / 8)
        blockWrites f false sat (cs.map fun c => rs.getD (i * n + c) .rne) (cs.map fun c => (a.col c).value i) at_ 0
  (parts.flatMap Prod.fst, (parts.map Prod.snd).foldl orBits 0)

/-- Whether the writes of a tile of h rows and w columns inside the output lie in strand scratch. -/
def Geom.outOk (g : Geom) (f : Fmt) (mx : Bool) (h w n out scale : Nat) : Bool :=
  let wd := f.width
  if h = 0 ∨ w = 0 then true
  else if g.outLayout < 2 then
    let planes := (n + g.cbOut - 1) / g.cbOut
    inScratch out ((planes - 1) * g.outPlane + (h - 1) * g.outRow + w * (g.cbOut * wd / 8)) &&
      (!mx || inScratch scale ((planes - 1) * g.outSplane + (h - 1) * g.outSrow + w))
  else inScratch out ((h * g.d2s - 1) * g.outRow + w * n / g.d2s * (wd / 8))

/-- Count an event of the convolution block for a partition on the die of a run. -/
def State.cnvCount (s : State) (r : Run) (f : Nat → Nat → Nat) (n : Nat) : State := s.bump (f r.die r.p) n

/-- A CONV as its operand area and its geometry descriptor give it (R343, R344). -/
structure ConvJob where
  g : Geom
  desc : List Byte
  t : Tensor
  fw : Fmt
  mxw : Bool
  fo : Fmt
  mxo : Bool
  clear : Bool
  rd : Bool
  n : Nat
  oy0 : Nat
  ox0 : Nat
  th : Nat
  tw : Nat
  p0 : Nat
  pn : Nat
  wa : Nat
  wsc : Nat
  wst : Nat
  wss : Nat
  out : Nat
  osc : Nat
  deriving DecidableEq, Repr

/-- A CONV reads its tile out. -/
def convReadsOut (w : HitchWord) : Bool := flag w 0x2C 30

/-- Read a CONV and the descriptor it names. -/
def State.convJob (s : State) (r : Run) : ConvJob :=
  let w := r.w
  let gb := s.peek (r.place 0 (fld w 0x28 20 0)) 64
  let g := Geom.parse gb
  let fi := (Fmt.ofCode (fld w 0x2C 19 16)).getD .fp32
  { g := g, desc := gb,
    t := { g := g, space := fld w 0x10 23 23, addr := fld w 0x10 22 0, scale := fld w 0x14 22 0, f := fi, mx := flag w 0x2C 20 },
    fw := (Fmt.ofCode (fld w 0x2C 27 24)).getD .fp32, mxw := flag w 0x2C 28,
    fo := if convReadsOut w then (Fmt.ofCode (fld w 0x38 27 24)).getD .fp32 else fi, mxo := convReadsOut w && flag w 0x38 28,
    clear := flag w 0x2C 29, rd := convReadsOut w, n := fld w 0x2C 14 8 + 1, oy0 := fld w 0x34 15 0, ox0 := fld w 0x34 31 16,
    th := fld w 0x38 7 0, tw := fld w 0x38 15 8, p0 := fld w 0x3C 11 0, pn := fld w 0x3C 28 16, wa := fld w 0x18 20 0,
    wsc := fld w 0x1C 20 0, wst := 16 * fld w 0x30 15 0, wss := fld w 0x30 31 16, out := fld w 0x20 20 0,
    osc := fld w 0x24 20 0 }

/-- Reduction steps of a CONV (R346). -/
def ConvJob.kk (c : ConvJob) : Nat := c.pn * c.g.kh * c.g.kw * c.g.cb
/-- Pixels of a CONV's tile inside the output. -/
def ConvJob.px (c : ConvJob) : List (Nat × Nat × Nat) := c.g.pixels c.oy0 c.ox0 c.th c.tw
/-- Output rows of a CONV's tile. -/
def ConvJob.oys (c : ConvJob) : List Nat := once (c.px.map fun e => e.2.1)
/-- Output columns of a CONV's tile. -/
def ConvJob.oxs (c : ConvJob) : List Nat := once (c.px.map fun e => e.2.2)

/-- The checks of a CONV in the order of R338, the last of them R350, over a reduction that stands at `base` steps. The ranges
checked are those of the resident rows of the named planes, the weight rows and the tile written. -/
def ConvJob.status (c : ConvJob) (base : Nat) : Nat :=
  let g := c.g
  let outBad := c.rd && ((g.outLayout == 2 && c.n % (g.d2s * g.d2s) != 0) || ((c.fo.width == 4 || c.mxo) && g.outLayout != 1))
  if g.bad c.desc c.t.f.width c.t.mx (if c.rd then c.fo.width else 8) c.mxo || outBad || (c.mxw && g.cb != 32) ||
      decide (1048576 < base + c.kk) then stMalformed
  else if g.isEmpty then stGeometryEmpty
  else if !(c.t.inSpace c.p0 c.pn) || !(inScratch c.wa ((c.n - 1) * c.wst + packedBytes c.fw.width c.kk)) ||
      (c.mxw && !(inScratch c.wsc ((c.n - 1) * c.wss + c.kk / 32))) ||
      (c.rd && !(g.outOk c.fo c.mxo c.oys.length c.oxs.length c.n c.out c.osc)) then stAddrInvalid
  else if c.oys.any fun oy => (upTo g.kh).any fun ky => !(g.resident oy ky) then stHaloMissing
  else stOk

/-- The tap-blocks of a CONV in the order of R346. -/
def ConvJob.taps (c : ConvJob) : List (Nat × Nat × Nat) :=
  (upTo c.pn).flatMap fun ic => (upTo c.g.kh).flatMap fun ky => (upTo c.g.kw).map fun kx => (ic, ky, kx)

/-- A tap-block is skipped (R347). -/
def ConvJob.skip (c : ConvJob) (e : Nat × Nat × Nat) : Bool :=
  let padZero : Bool := match c.t.f.decode c.t.mx c.g.padValue with
    | .fin _ m _ => m == 0
    | _ => false
  padZero && c.px.all fun q => (c.g.tapRow q.2.1 e.2.1).isNone || (c.g.tapCol q.2.2 e.2.2).isNone

/-- The tap-blocks that a CONV runs. -/
def ConvJob.runs (c : ConvJob) : List (Nat × Nat × Nat) := c.taps.filter fun e => !(c.skip e)

/-- The scale address of a pixel of a plane. -/
def Tensor.scaleAt (t : Tensor) (plane y x : Nat) : Nat := t.scale + plane * t.g.inSplane + (y - t.g.rowLo) * t.g.inSrow + x

/-- The ranges of its space that a tensor's pixel of a plane is read from, with its scale (R335, R337, R341). -/
def Tensor.pixelReads (t : Tensor) (plane y x : Nat) : List (Nat × Nat) :=
  let g := t.g
  let w := t.f.width
  if g.layout < 2 then
    (t.addr + plane * g.inPlane + (y - g.rowLo) * g.inRow + x * (g.cb * w / 8), g.cb * w / 8) ::
      (if t.mx then [(t.scaleAt plane y x, 1)] else [])
  else
    (upTo g.s2d).filterMap fun dy =>
      let yy := y * g.s2d + dy
      let cols := min g.s2d (g.inW - x * g.s2d)
      if g.inH ≤ yy then none
      else some (t.addr + (yy - g.rowLo) * g.inRow + x * g.s2d * g.inC * (w / 8), cols * g.inC * (w / 8))

/-- The ranges of scratch that a CONV reads: its descriptor, and where its checks pass its weights and image taps (R339, R343). -/
def State.convReads (s : State) (r : Run) : List (Nat × Nat) :=
  let ga := fld r.w 0x28 20 0
  let c := s.convJob r
  (ga, 64) :: (if !(inScratch ga 64) || c.status (s.stepsBefore r c.clear) ≠ stOk then []
    else
      rowReads 0 c.wa c.wst c.n (packedBytes c.fw.width c.kk) ++
        (if c.mxw then rowReads 0 c.wsc c.wss c.n (c.kk / 32) else []) ++
        (if c.t.space = 0 then c.runs.flatMap fun e => c.px.flatMap fun q =>
          match c.g.tapRow q.2.1 e.2.1, c.g.tapCol q.2.2 e.2.2 with
          | some y, some x => c.t.pixelReads (c.p0 + e.1) y x
          | _, _ => []
        else []))

/-- The input operand of a pixel at a tap and channel: an image tap's element, or the pad (R339). -/
def ConvJob.tapValue (c : ConvJob) (s : State) (r : Run) (e : Nat × Nat × Nat) (ci oy ox : Nat) : Num :=
  match c.g.tapRow oy e.2.1, c.g.tapCol ox e.2.2 with
  | some y, some x => Tensor.elem s r c.t y x ((c.p0 + e.1) * c.g.cb + ci)
  | _, _ => c.t.pad

/-- The reduction of a CONV into an array (R345, R346): its steps that are not skipped, in the order of k. -/
def ConvJob.reduce (c : ConvJob) (s : State) (r : Run) (a : Acc) : Acc :=
  let rowsW := (upTo c.n).map fun j => s.operandRow (r.place 0 (c.wa + j * c.wst)) (r.place 0 (c.wsc + j * c.wss)) c.fw c.mxw c.kk
  foldS (fun a e => foldS (fun a ci =>
    let k := ((e.1 * c.g.kh + e.2.1) * c.g.kw + e.2.2) * c.g.cb + ci
    a.stepRows (c.px.map fun q => (q.1, c.tapValue s r e ci q.2.1 q.2.2))
      ((upTo c.n).map fun j => (j, (rowsW.getD j []).getD k Num.zero))) a (upTo c.g.cb)) a c.runs

/-- A CONV read a block whose scale is 0xFF (R58). -/
def ConvJob.nanScale (c : ConvJob) (s : State) (r : Run) : Bool :=
  (c.mxw && (upTo c.n).any fun j => s.scaleNaN (r.place 0 (c.wsc + j * c.wss)) c.kk) ||
  (c.t.mx && c.runs.any fun e => c.px.any fun q => match c.g.tapRow q.2.1 e.2.1, c.g.tapCol q.2.2 e.2.2 with
    | some y, some x => s.peekLe (r.place c.t.space (c.t.scaleAt (c.p0 + e.1) y x)) 1 == 0xFF
    | _, _ => c.g.padScale == 0xFF)

/-- CLK_ARITH cycles of a CONV's reduction and readout without its fill (R348). -/
def ConvJob.cycles (c : ConvJob) : Nat :=
  let bin := if c.t.space = 0 then 2048 else 128
  let m := c.th * c.tw
  let w := c.t.f.width
  let gather := if c.g.layout < 2 then m * min 64 (c.g.sw * (c.g.cb * w / 8))
    else m * c.g.s2d * min 64 (c.g.sw * c.g.s2d * c.g.inC * w / 8)
  let per := max ((c.g.cb * laneQuarter c.t.f c.fw c.t.mx c.mxw + 3) / 4) ((gather + bin - 1) / bin)
  let bytes := c.px.length * (packedBytes c.fo.width c.n + (if c.mxo then (c.n + 31) / 32 else 0))
  c.runs.length * per + (if c.rd then readoutCycles bytes else 0)

/-- The reduction of a CONV: the array, SCALE_NAN, the counters and the time. -/
def State.convStep (s : State) (r : Run) (c : ConvJob) : State :=
  let s := if c.px.any fun e => c.g.padDominant e.2.1 e.2.2 then s.cnvCount r Reg.cnvPartPadDominantCount 1 else s
  let a := c.reduce s r (s.arrayBefore r c.clear)
  let n := s.stepsBefore r c.clear + c.kk
  let nan := c.nanScale s r
  let s := s.setAcc r.st { a with kLen := n }
  let s := if nan then s.arith r.st flagScale else s
  let s := s.cnvCount r Reg.cnvPartSkipCount (c.taps.length - c.runs.length)
  s.macBusy r.st (s.fillCycles r c.clear c.kk + c.cycles)

/-- The effect of a CONV (R338 to R350). -/
def State.convBody (s : State) (r : Run) (u : Upset) : Nat × Nat × State :=
  if !(inScratch (fld r.w 0x28 20 0) 64) then (stAddrInvalid, 0, s)
  else
    let c := s.convJob r
    let st := c.status (s.stepsBefore r c.clear)
    if st = stGeometryEmpty then (st, 0, s.cnvCount r Reg.cnvPartGeomEmptyCount 1)
    else if st = stHaloMissing then (st, 0, s.cnvCount r Reg.cnvPartHaloMissingCount 1)
    else if st ≠ stOk then (st, 0, s)
    else if c.rd then
      (s.convStep r c).readoutWith r c.n (c.th * c.tw * c.n) u fun a rs =>
        convEmit c.g c.px c.oy0 c.ox0 c.n c.fo c.mxo (hSat r.w) (r.place 0 c.out) (r.place 0 c.osc) a rs
    else (s.convStep r c).noReadout r u

/-- CONV (R344). -/
def execConv (st : Fin 128) (u : Upset) (s : State) : Host.Outcome State Fault Refusal :=
  .next (s.runHitch st.val 0x20 (fun _ => true) u (fun r s => s.convReads r) fun r s => s.convBody r u)

/-! POOL (R351 to R353) -/

/-- A POOL breaks an operand-area rule (R113, R351). -/
def poolBad (w : HitchWord) : Bool :=
  let inFmt (c : Nat) : Bool := c == 0 || c == 1 || c == 5 || c == 7 || c == 8
  fld w 0x10 1 0 == 3 || fld w 0x10 7 3 != 0 || fld w 0x10 15 12 != 0 || fld w 0x10 31 20 != 0 || fld w 0x14 31 23 != 0 ||
    fld w 0x18 31 21 != 0 || fld w 0x1C 31 21 != 0 || fld w 0x1C 5 0 != 0 || fld w 0x28 15 12 != 0 ||
    fld w 0x28 31 29 != 0 || !(zeroBytes w 0x2C 0x40) || !(inFmt (fld w 0x10 11 8)) ||
    !(inFmt (fld w 0x10 19 16) || fld w 0x10 19 16 == 9) || fld w 0x28 28 16 == 0 || decide (4096 < fld w 0x28 28 16)

/-- The value of one pooled element as FP32, with its flags (R352): image taps and pad taps in the order ky, then kx. -/
def poolValue (op : Nat) (taps : List (Option Nat)) (pad : Nat) : Nat × Nat :=
  let image := taps.filterMap id
  let sum (l : List Nat) (n : Nat) : Nat × Nat :=
    let x := l.foldl (fun (x : Nat × Nat) v => let y := fadd x.1 v; (y.1, orBits x.2 y.2)) (0, 0)
    let y := fdiv x.1 (cvtI2f n).1
    (y.1, orBits x.2 y.2)
  match op with
  | 0 =>
    match image with
    | [] => (0, 0)
    | v :: r => r.foldl (fun (x : Nat × Nat) w => let y := fmax x.1 w; (y.1, orBits x.2 y.2)) (if isNan32 v then nan32 else v, 0)
  | 1 => if image.isEmpty then (pad, 0) else sum (taps.map fun t => t.getD pad) taps.length
  | _ => if image.isEmpty then (0, 0) else sum image image.length

/-- A POOL as its operand area and its geometry descriptor give it (R343, R351). -/
structure PoolJob where
  g : Geom
  desc : List Byte
  t : Tensor
  fo : Fmt
  op : Nat
  out : Nat
  oy0 : Nat
  ox0 : Nat
  th : Nat
  tw : Nat
  p0 : Nat
  pn : Nat
  deriving DecidableEq, Repr

/-- Read a POOL and the descriptor it names. -/
def State.poolJob (s : State) (r : Run) : PoolJob :=
  let w := r.w
  let gb := s.peek (r.place 0 (fld w 0x1C 20 0)) 64
  let g := Geom.parse gb
  { g := g, desc := gb,
    t := { g := g, space := fld w 0x10 2 2, addr := fld w 0x14 22 0, scale := 0, f := (Fmt.ofCode (fld w 0x10 11 8)).getD .fp32,
           mx := false },
    fo := (Fmt.ofCode (fld w 0x10 19 16)).getD .fp32, op := fld w 0x10 1 0, out := fld w 0x18 20 0, oy0 := fld w 0x20 15 0,
    ox0 := fld w 0x20 31 16, th := fld w 0x24 15 0, tw := fld w 0x24 31 16, p0 := fld w 0x28 11 0, pn := fld w 0x28 28 16 }

/-- Output rows of a POOL's tile. -/
def PoolJob.oys (c : PoolJob) : List Nat := (upTo (min c.th (c.g.oh.toNat - c.oy0))).map fun i => c.oy0 + i
/-- Output columns of a POOL's tile. -/
def PoolJob.oxs (c : PoolJob) : List Nat := (upTo (min c.tw (c.g.ow.toNat - c.ox0))).map fun i => c.ox0 + i
/-- Bytes of an output pixel block of a POOL. -/
def PoolJob.block (c : PoolJob) : Nat := c.g.cb * c.fo.width / 8

/-- The checks of a POOL in the order of R338, the last of them R350. -/
def PoolJob.status (c : PoolJob) : Nat :=
  let g := c.g
  let outOk := c.oys.isEmpty || c.oxs.isEmpty ||
    inScratch c.out ((c.pn - 1) * g.outPlane + (c.oys.length - 1) * g.outRow + c.oxs.length * c.block)
  if g.bad c.desc c.t.f.width false c.fo.width false || g.s2d != 1 || g.d2s != 1 || g.outLayout != g.layout then stMalformed
  else if g.isEmpty then stGeometryEmpty
  else if !(c.t.inSpace c.p0 c.pn) || !outOk then stAddrInvalid
  else if c.oys.any fun oy => (upTo g.kh).any fun ky => !(g.resident oy ky) then stHaloMissing
  else stOk

/-- The ranges of scratch that a POOL reads: its descriptor, and where its checks pass its image taps (R339, R343). -/
def State.poolReads (s : State) (r : Run) : List (Nat × Nat) :=
  let ga := fld r.w 0x1C 20 0
  let c := s.poolJob r
  (ga, 64) :: (if !(inScratch ga 64) || c.status ≠ stOk || c.t.space ≠ 0 then []
    else
      let ys := once (c.oys.flatMap fun oy => (upTo c.g.kh).filterMap fun ky => c.g.tapRow oy ky)
      let xs := once (c.oxs.flatMap fun ox => (upTo c.g.kw).filterMap fun kx => c.g.tapCol ox kx)
      (upTo c.pn).flatMap fun p => ys.flatMap fun y => xs.flatMap fun x => c.t.pixelReads (c.p0 + p) y x)

/-- One pooled element (R352): channels at or above C give zero (R336). -/
def PoolJob.value (c : PoolJob) (s : State) (r : Run) (p oy ox ci : Nat) : Nat × Nat :=
  let g := c.g
  let ch := (c.p0 + p) * g.cb + ci
  if g.inC ≤ ch then (0, 0)
  else
    poolValue c.op ((upTo g.kh).flatMap fun ky => (upTo g.kw).map fun kx => match g.tapRow oy ky, g.tapCol ox kx with
      | some y, some x => some (enc32 (Tensor.elem s r c.t y x ch)).1
      | _, _ => none) (enc32 c.t.pad).1

/-- Pixel blocks of a POOL's tile in the order in which they are written: plane, output row, output column. -/
def PoolJob.places (c : PoolJob) : List (Nat × Nat × Nat) :=
  (upTo c.pn).flatMap fun p => c.oys.flatMap fun oy => c.oxs.map fun ox => (p, oy, ox)

/-- The writes of a POOL with their flags (R352, R353). Elements are written plane by plane, row by row, pixel by pixel, which is
the order in which seeded rounding numbers them (R65, log entry 72). -/
def PoolJob.blocks (c : PoolJob) (s : State) (r : Run) (rs : List Rnd) : List ((Nat × List Byte) × Nat) :=
  ((upTo c.places.length).zip c.places).map fun (i, p, oy, ox) =>
    let vals := (upTo c.g.cb).map fun ci => c.value s r p oy ox ci
    let e := encodeRow c.fo (hSat r.w) ((upTo c.g.cb).map fun ci => rs.getD (i * c.g.cb + ci) .rne) (vals.map fun v => dec32 v.1)
    ((r.place 0 (c.out + p * c.g.outPlane + (oy - c.oy0) * c.g.outRow + (ox - c.ox0) * c.block), packElems c.fo.width e.1),
      orBits e.2 (flagsOf vals))

/-- A POOL with a pixel of more pad taps than image taps counts once (R340). -/
def State.poolPads (s : State) (r : Run) (c : PoolJob) : State :=
  if c.oys.any fun oy => c.oxs.any fun ox => c.g.padDominant oy ox then s.cnvCount r Reg.cnvPartPadDominantCount 1 else s

/-- The effect of a POOL (R338 to R340, R350 to R353). -/
def State.poolBody (s : State) (r : Run) (u : Upset) : Nat × Nat × State :=
  if !(inScratch (fld r.w 0x1C 20 0) 64) then (stAddrInvalid, 0, s)
  else
    let c := s.poolJob r
    let st := c.status
    if st = stGeometryEmpty then (st, 0, s.cnvCount r Reg.cnvPartGeomEmptyCount 1)
    else if st = stHaloMissing then (st, 0, s.cnvCount r Reg.cnvPartHaloMissingCount 1)
    else if st ≠ stOk then (st, 0, s)
    else
      let x := (s.poolPads r c).residueUpset r.st u
      if x.1 ≠ stOk then (x.1, 0, x.2)
      else
        let s := x.2
        let total := c.places.length * c.g.cb
        let bs := c.blocks s r (s.rounding r 0 total)
        let ws := bs.map Prod.fst
        (stOk, writesDigest ws, ((s.usedRandom r total).putAll ws).arith r.st ((bs.map Prod.snd).foldl orBits 0))

/-- POOL (R351). -/
def execPool (st : Fin 128) (u : Upset) (s : State) : Host.Outcome State Fault Refusal :=
  .next (s.runHitch st.val 0x21 (fun _ => true) u (fun r s => s.poolReads r) fun r s => s.poolBody r u)

end Sys2Proof.Machine
end

