-- ==== Sys2Proof/Machine/Motion.lean ====
section
/-! DEFINITION. The motion search of the HEVC encoder (R329) on 16 × 16 luma blocks. Vectors count quarter samples where
nothing else is said. The samples between others are those of H.265 (log entry 71); what R329 leaves open is free. -/

namespace Sys2Proof.Machine

/-- LAMBDA[q] of R329, floor(16 × 2^((q − 12) / 6) + 1/2): the n such that (2n − 1)^6 × 2^12 is the last not above
2^(30 + q). -/
def lambdaOf (q : Nat) : Nat :=
  ((List.range 2048).filter fun n => decide ((2 * n + 1) ^ 6 * 2 ^ 12 ≤ 2 ^ (30 + q))).length

/-- A vector of motion. -/
abbrev Mv := Int × Int

/-- A picture as the search reads it: its bytes by R316, its size, and whether its samples have 10 bits. -/
structure MvPic where
  bytes : List Byte
  w : Nat
  h : Nat
  ten : Bool

/-- A luma sample; one outside the picture is padded with the nearest inside (R325). -/
def MvPic.luma (a : MvPic) (x y : Int) : Int :=
  let i := (max 0 (min x (a.w - 1 : Int))).toNat
  let j := (max 0 (min y (a.h - 1 : Int))).toNat
  let k := j * (64 * ceilDiv a.w 64) + i
  if a.ten then (leAt a.bytes (2 * k) 2 / 64 : Nat) else (leAt a.bytes k 1 : Nat)

/-- The filter of a position a number of quarters after a sample, for the samples −3 to 4 around it (H.265; log entry 71). -/
def taps (q : Int) : List Int :=
  if q = 1 then [-1, 4, -10, 58, 17, -5, 1, 0]
  else if q = 2 then [-1, 4, -11, 40, 40, -11, 4, -1]
  else [0, 1, -5, 17, 58, -10, 4, -1]

/-- A filter over the samples around one. -/
def filtered (t : List Int) (f : Int → Int) : Int :=
  (((List.range 8).zip t).map fun e => e.2 * f ((e.1 : Int) - 3)).sum

/-- The predicted sample at a vector from a place (H.265; log entry 71). -/
def MvPic.predicted (a : MvPic) (x y : Int) (v : Mv) : Int :=
  let s1 : Int := if a.ten then 4 else 1
  let s3 : Int := if a.ten then 16 else 64
  let top : Int := if a.ten then 1023 else 255
  let i := x + v.1 / 4
  let j := y + v.2 / 4
  let fx := v.1 % 4
  let fy := v.2 % 4
  let across (j : Int) : Int := filtered (taps fx) (fun k => a.luma (i + k) j) / s1
  let p :=
    if fx = 0 ∧ fy = 0 then a.luma i j * s3
    else if fy = 0 then across j
    else if fx = 0 then filtered (taps fy) (fun k => a.luma i (j + k)) / s1
    else filtered (taps fy) (fun k => across (j + k)) / 64
  max 0 (min top ((p + s3 / 2) / s3))

/-- The differences of a block of n × n samples at a vector, row by row. -/
def differences (cur ref : MvPic) (x y : Int) (n : Nat) (v : Mv) : List (List Int) :=
  (List.range n).map fun (j : Nat) => (List.range n).map fun (i : Nat) =>
    cur.luma (x + (i : Nat)) (y + (j : Nat)) - ref.predicted (x + (i : Nat)) (y + (j : Nat)) v

/-- The sum of absolute differences of a block. -/
def sad (cur ref : MvPic) (x y : Int) (n : Nat) (v : Mv) : Nat :=
  ((differences cur ref x y n v).map fun r => (r.map Int.natAbs).sum).sum

/-- The Hadamard transform of four values. -/
def hadamard4 (l : List Int) : List Int :=
  let g (i : Nat) := l.getD i 0
  let a := g 0 + g 1
  let b := g 0 - g 1
  let c := g 2 + g 3
  let d := g 2 - g 3
  [a + c, b + d, a - c, b - d]

/-- The sum of the absolute 4 × 4 Hadamard-transformed differences of a 16 × 16 block. -/
def satd (cur ref : MvPic) (x y : Int) (v : Mv) : Nat :=
  ((List.range 16).map fun k =>
    let rows := (differences cur ref (x + 4 * (k % 4 : Nat)) (y + 4 * (k / 4 : Nat)) 4 v).map hadamard4
    ((List.range 4).map fun c => ((hadamard4 (rows.map fun r => r.getD c 0)).map Int.natAbs).sum).sum).sum

/-- The first element of least cost. -/
def cheapest {α : Type} (f : α → Nat) (l : List α) : Option α :=
  match l with
  | [] => none
  | a :: r => some (r.foldl (fun m b => if f b < f m then b else m) a)

/-- What one search works on: the frame, a reference, the block's place, the search range in samples, LAMBDA, and the vectors
from which the difference of a vector is coded. -/
structure Search where
  cur : MvPic
  ref : MvPic
  x : Int
  y : Int
  rangeX : Int
  rangeY : Int
  lambda : Nat
  preds : List Mv

/-- The cost of a vector of some distortion. The bits of its difference are free (log entry 71). -/
def Search.cost (k : Search) (distortion : Nat) (v : Mv) : Nat := distortion + k.lambda * Config.vectorBits v k.preds
/-- The cost of a vector of whole samples. -/
def Search.whole (k : Search) (v : Mv) : Nat :=
  let q : Mv := (4 * v.1, 4 * v.2)
  k.cost (sad k.cur k.ref k.x k.y 16 q) q
/-- The cost of a vector in the fractional search. -/
def Search.fine (k : Search) (v : Mv) : Nat := k.cost (satd k.cur k.ref k.x k.y v) v
/-- A vector of whole samples lies in the search range. -/
def Search.inside (k : Search) (v : Mv) : Bool :=
  decide (-k.rangeX ≤ v.1 ∧ v.1 ≤ k.rangeX ∧ -k.rangeY ≤ v.2 ∧ v.2 ≤ k.rangeY)

/-- A candidate rounded to whole samples, a half either way (free), and clamped to the range. -/
def Search.candidate (k : Search) (v : Mv) : Mv :=
  let whole (a : Int) : Int := a / 4 + (if a % 4 = 3 then 1 else if a % 4 = 2 then (Config.halfUp a).val else 0)
  (max (-k.rangeX) (min k.rangeX (whole v.1)), max (-k.rangeY) (min k.rangeY (whole v.2)))

/-- One-sample diamond steps, as long as one improves and at most n times. -/
def Search.diamond (k : Search) (n : Nat) (v : Mv) : Mv :=
  match n with
  | 0 => v
  | m + 1 =>
    let steps := ([(0, -1), (-1, 0), (1, 0), (0, 1)].map fun d : Mv => ((v.1 + d.1, v.2 + d.2) : Mv)).filter k.inside
    let b := (cheapest k.whole (v :: steps)).getD v
    if b = v then v else k.diamond m b

/-- The better of a vector and its eight neighbours at a distance in quarter samples, in raster order. -/
def Search.refine (k : Search) (d : Int) (v : Mv) : Mv :=
  let around := [(-1, -1), (0, -1), (1, -1), (-1, 0), (1, 0), (-1, 1), (0, 1), (1, 1)]
  (cheapest k.fine (v :: around.map fun o : Mv => (v.1 + d * o.1, v.2 + d * o.2))).getD v

/-- Remove duplicates, keeping the first. -/
def distinct {α : Type} [DecidableEq α] (l : List α) : List α :=
  l.foldl (fun a x => if a.contains x then a else a ++ [x]) []

/-- The search of a block from its candidates in order (R329): integer search, then half and quarter samples; the vector and
its cost. -/
def Search.best (k : Search) (cands : List Mv) : Mv × Nat :=
  let cs := (distinct (cands.map k.candidate)).take 8
  let two := ((cs.map fun v => (v, k.whole v)).mergeSort fun a b => decide (a.2 ≤ b.2)).take 2
  let v := (cheapest k.whole (two.map fun a => k.diamond 8 a.1)).getD (0, 0)
  let w := k.refine 1 (k.refine 2 (4 * v.1, 4 * v.2))
  (w, k.fine w)

/-- Luma decimated by 4 in each axis; how is free (log entry 71). -/
def MvPic.decimated (a : MvPic) (x y : Int) : Int :=
  Config.decimate ((List.range 16).map fun i => a.luma (4 * x + (i % 4 : Nat)) (4 * y + (i / 4 : Nat)))

/-- The best vector of the 64 × 64 parent of a block, from a full search on decimated luma. -/
def Search.parent (k : Search) : Mv :=
  let px := k.x / 64 * 16
  let py := k.y / 64 * 16
  let nx := (k.rangeX / 4).toNat
  let ny := (k.rangeY / 4).toNat
  let vs : List Mv := (List.range (2 * ny + 1)).flatMap fun (j : Nat) => (List.range (2 * nx + 1)).map fun (i : Nat) =>
    ((i : Int) - nx, (j : Int) - ny)
  let cost (v : Mv) : Nat :=
    k.cost (((List.range 256).map fun i =>
      (k.cur.decimated (px + (i % 16 : Nat)) (py + (i / 16 : Nat)) -
        k.ref.decimated (px + (i % 16 : Nat) + v.1) (py + (i / 16 : Nat) + v.2)).natAbs).sum) (16 * v.1, 16 * v.2)
  let b := (cheapest cost vs).getD (0, 0)
  (16 * b.1, 16 * b.2)

/-- The vectors found so far in a picture, by block number in raster order, each with the number of its reference. -/
abbrev MvField := Map (Mv × Nat)

/-- The search of a block over the references, the most recent first (R328, R329). -/
def searchBlock (cur : MvPic) (refs : List (MvPic × MvField)) (rangeX rangeY : Int) (lambda : Nat) (f : MvField)
    (bx by_ : Nat) : Mv × Nat :=
  let nb := 4 * ceilDiv cur.w 64
  let at_ (x y : Int) : Option Mv :=
    if 0 ≤ x ∧ 0 ≤ y ∧ x < nb then (mget f (y.toNat * nb + x.toNat)).map Prod.fst else none
  let spatial := [at_ (bx - 1) by_, at_ bx (by_ - 1), at_ (bx + 1) (by_ - 1), at_ (bx - 1) (by_ - 1)].filterMap id
  let rs := ((List.range refs.length).zip refs).map fun e =>
    let k : Search := { cur := cur, ref := e.2.1, x := 16 * bx, y := 16 * by_, rangeX := rangeX, rangeY := rangeY,
                        lambda := lambda, preds := spatial }
    let co := ((mget e.2.2 (by_ * nb + bx)).map Prod.fst).toList
    (e.1, k.best (spatial ++ co ++ [(0, 0), k.parent]))
  match cheapest (fun a => a.2.2) rs with
  | some a => (a.2.1, a.1)
  | none => ((0, 0), 0)

/-- The 16 × 16 blocks of a CTB of 64 × 64 in coding order, as offsets. -/
def ctbBlocks : List (Nat × Nat) :=
  (List.range 16).map fun k => (k % 2 + 2 * (k / 4 % 2), k / 2 % 2 + 2 * (k / 8))

/-- Search the blocks of a CTB row that lie in the picture. -/
def searchRow (cur : MvPic) (refs : List (MvPic × MvField)) (rangeX rangeY : Int) (lambda : Nat) (f : MvField) (row : Nat) :
    MvField :=
  if refs.isEmpty then f
  else
    ((List.range (ceilDiv cur.w 64)).flatMap fun c => ctbBlocks.map fun o => (4 * c + o.1, 4 * row + o.2)).foldl
      (fun f b =>
        if 16 * b.1 < cur.w ∧ 16 * b.2 < cur.h then
          mput f (b.2 * (4 * ceilDiv cur.w 64) + b.1) (searchBlock cur refs rangeX rangeY lambda f b.1 b.2)
        else f) f

/-- Four bytes of a signed number. -/
def toLe4 (v : Int) : List Byte := toLe 4 (v % 2 ^ 32).toNat
/-- A signed number of four bytes. -/
def sLe4 (bs : List Byte) (a : Nat) : Int :=
  let v := leAt bs a 4
  if v < 2 ^ 31 then v else (v : Int) - 2 ^ 32

/-- The motion side area of a picture (R316): 16 bytes for each block in raster order, its vector and its reference plus one, all
0 where it has none (log entry 71). -/
def sideArea (w h : Nat) (f : MvField) : List Byte :=
  (List.range (4 * ceilDiv w 64 * (4 * ceilDiv h 64))).flatMap fun i =>
    match mget f i with
    | some v => toLe4 v.1.1 ++ toLe4 v.1.2 ++ toLe 8 (v.2 + 1)
    | none => toLe 16 0

/-- The vectors of a motion side area. -/
def sideField (bs : List Byte) : MvField :=
  (List.range (bs.length / 16)).filterMap fun i =>
    if leAt bs (16 * i + 8) 8 = 0 then none else some (i, (sLe4 bs (16 * i), sLe4 bs (16 * i + 4)), leAt bs (16 * i + 8) 8 - 1)

end Sys2Proof.Machine
end

