-- ==== Sys2Proof/Machine/Video.lean ====
section
/-! DEFINITION. Video cores and vision ingest (chapter 11): contexts and feeding (R313, R314), the frame pool (R315 to
R317), pictures on the cores (R318 to R327), encoding with its rate control (R328 to R331), and holds (R332, R333). What the
coded bits decode to before concealment is the operand of PICTURE_DONE; what an encoder chooses beyond R329 and R330 is a free
function of what R331 names (log entry 13). -/

namespace Sys2Proof.Machine

/-! Fields of a context's descriptor (R313) -/

/-- Bits of the word at a descriptor offset. -/
def descBits (d : List Byte) (off hi lo : Nat) : Nat := bits (leAt d off 4) hi lo
def VidCtx.dpb (x : VidCtx) : Nat := descBits x.desc 8 5 0
def VidCtx.stallMs (x : VidCtx) : Nat := descBits x.desc 8 31 16
def VidCtx.inRing (x : VidCtx) : Nat := leAt x.desc 0x10 8
def VidCtx.inBytes (x : VidCtx) : Nat := leAt x.desc 0x18 4
def VidCtx.outRing (x : VidCtx) : Nat := leAt x.desc 0x20 8
def VidCtx.outRecs (x : VidCtx) : Nat := descBits x.desc 0x28 12 0
def VidCtx.maxW (x : VidCtx) : Nat := descBits x.desc 4 15 0
def VidCtx.maxH (x : VidCtx) : Nat := descBits x.desc 4 31 16
def VidCtx.tenBit (x : VidCtx) : Bool := bit (leAt x.desc 0 4) 2
def VidCtx.bitsRing (x : VidCtx) : Nat := leAt x.desc 0x58 8
def VidCtx.bitsBytes (x : VidCtx) : Nat := leAt x.desc 0x60 4
/-- The context encodes. -/
def VidCtx.encodes (x : VidCtx) : Bool := x.kind == 2

/-- Whether a descriptor keeps every range of R313. -/
def vidDescGood (d : List Byte) : Bool :=
  let b := descBits d
  let kind := b 0 1 0
  let enc := kind == 2
  let maxW := b 4 15 0
  let maxH := b 4 31 16
  let recs := b 0x28 12 0
  let zero (off n : Nat) : Bool := leAt d off n == 0
  kind != 3 && b 0 7 4 == 0 && b 0 31 11 == 0 && decide (1 ≤ b 0 10 8 ∧ b 0 10 8 ≤ 4) &&
    maxW % 8 == 0 && maxH % 8 == 0 && decide (64 ≤ maxW) && decide (64 ≤ maxH) &&
    (if enc then decide (maxW ≤ 3840) && decide (maxH ≤ 2160) else decide (maxW ≤ 8192) && decide (maxH ≤ 4352)) &&
    decide (2 ≤ b 8 5 0 ∧ b 8 5 0 ≤ 32) && b 8 7 6 == 0 && decide (1 ≤ b 8 31 16) && zero 0xC 4 &&
    leAt d 0x10 8 % 4096 == 0 && leAt d 0x18 4 % 4096 == 0 && decide (0x10000 ≤ leAt d 0x18 4) &&
    decide (leAt d 0x18 4 ≤ 0x4000000) && zero 0x1C 4 && leAt d 0x20 8 % 64 == 0 &&
    [16, 32, 64, 128, 256, 512, 1024, 2048, 4096].contains recs && b 0x28 31 13 == 0 && zero 0x2C 20 &&
    (if !enc then zero 0x40 64
    else
      b 0x40 1 0 != 3 && b 0x40 7 2 == 0 && b 0x40 15 14 == 0 && b 0x40 23 22 == 0 && b 0x40 31 30 == 0 &&
        decide (b 0x40 29 24 ≤ 51) && decide (b 0x40 21 16 ≤ b 0x40 13 8) && decide (b 0x40 13 8 ≤ b 0x40 29 24) &&
        decide (1 ≤ b 0x48 15 0) && decide (1 ≤ b 0x48 31 16) && decide (b 0x48 15 0 ≤ 30 * b 0x48 31 16) &&
        decide (1 ≤ b 0x50 17 16 ∧ b 0x50 17 16 ≤ 2) && b 0x50 31 18 == 0 &&
        b 0x54 8 0 % 16 == 0 && decide (16 ≤ b 0x54 8 0 ∧ b 0x54 8 0 ≤ 256) && b 0x54 15 9 == 0 &&
        b 0x54 24 16 % 16 == 0 && decide (16 ≤ b 0x54 24 16 ∧ b 0x54 24 16 ≤ 128) && b 0x54 31 25 == 0 &&
        leAt d 0x58 8 % 4096 == 0 && leAt d 0x60 4 % 4096 == 0 && zero 0x64 28)

/-! Contexts, cores and the pool -/

/-- An open context by module number. -/
def State.vidCtx (s : State) (c : Nat) : Option VidCtx := mget s.video.ctxs c
/-- Change an open context. -/
def State.modCtx (s : State) (c : Nat) (f : VidCtx → VidCtx) : State :=
  { s with video := { s.video with ctxs := mmod s.video.ctxs c f } }
/-- An idle core. -/
def VidCore.idle : VidCore :=
  { state := 0, ctx := 0, unit := none, buffer := 0, since := 0, counted := 0, ns := 0, share := .whole, resetUntil := 0,
    resets := [], ramp := { level := 0, aim := 0, since := 0 } }
/-- A core whose picture is gone (R320, R327): its estimate falls from then on (R555). -/
def VidCore.rest (x : VidCore) (t : Nat) : VidCore :=
  { VidCore.idle with ns := x.ns, resetUntil := x.resetUntil, resets := x.resets, ramp := x.ramp.toward coreRate t 0 }
/-- A core. -/
def State.vidCore (s : State) (k : Nat) : VidCore := mgetD s.video.cores k VidCore.idle
/-- Set a core. -/
def State.setCore (s : State) (k : Nat) (x : VidCore) : State :=
  { s with video := { s.video with cores := mput s.video.cores k x } }
/-- The cores of a partition. -/
def State.coresOf (s : State) (p : Nat) : List Nat := (upTo 8).filter fun k => s.reg (Reg.vidCoreOwner k) % 32 == p
/-- First context and number of contexts of a partition (R334). -/
def State.ctxRange (s : State) (p : Nat) : Nat × Nat :=
  let v := s.reg (Reg.vidPartCtx p)
  (bits v 8 0, bits v 25 16)
/-- First pool buffer and number of buffers of a partition (R315). -/
def State.bufRange (s : State) (p : Nat) : Nat × Nat :=
  let v := s.reg (Reg.vidPartBufs p)
  (bits v 10 0, bits v 27 16)
/-- The open context that a partition knows by a local number (R419). -/
def State.ownCtx (s : State) (p c : Nat) : Option (Nat × VidCtx) :=
  let r := s.ctxRange p
  if c < r.2 then (s.vidCtx (r.1 + c)).map fun x => (r.1 + c, x) else none

/-- A buffer that is FREE at generation 0. -/
def Buffer.empty : Buffer :=
  { ref := 0, decoding := 0, holds := 0, gen := 0, charged := none, transient := [], pic := none }
/-- A pool buffer by module number. -/
def State.buffer (s : State) (b : Nat) : Buffer := mgetD s.video.buffers b Buffer.empty
/-- A buffer is FREE: no mark and no hold (R317), visible or transient (R358). -/
def Buffer.isFree (x : Buffer) : Bool := x.ref == 0 && x.decoding == 0 && x.holds == 0 && x.transient.isEmpty
/-- Change a buffer; one that becomes FREE gains a generation (R317). -/
def State.modBuffer (s : State) (b : Nat) (f : Buffer → Buffer) : State :=
  let old := s.buffer b
  let new := f old
  let new := if !old.isFree && new.isFree then { new with gen := (new.gen + 1) % 65536, charged := none } else new
  { s with video := { s.video with buffers := mput s.video.buffers b new } }
/-- The lowest FREE buffer of a partition (DESIGN CHOICE: the spec does not say which, log entry 14). -/
def State.freeBuffer (s : State) (p : Nat) : Option Nat :=
  let r := s.bufRange p
  ((upTo r.2).map fun i => r.1 + i).find? fun b => (s.buffer b).isFree
/-- The handle of a buffer of a partition (R315). -/
def State.handleOf (s : State) (p b : Nat) : Nat := (b - (s.bufRange p).1) + 65536 * (s.buffer b).gen
/-- The buffer of a handle, none where it is stale by R332. -/
def State.frameOfHandle (s : State) (p handle : Nat) : Option Nat :=
  let r := s.bufRange p
  let i := handle % 65536
  let b := r.1 + i
  if i < r.2 && (s.buffer b).gen == handle / 65536 && (s.buffer b).holds != 0 then some b else none
/-- The PMA of a pool buffer of a partition (R315). -/
def State.bufferAt (s : State) (p b : Nat) : Nat :=
  s.reg64 (Reg.vidPartPoolLo p) (Reg.vidPartPoolHi p) + (b - (s.bufRange p).1) * s.reg (Reg.vidPartBufBytes p)
/-- The buffers counted against a context's DPB_BUFS (R317). -/
def State.dpbUsed (s : State) (c : Nat) : Nat :=
  (s.video.buffers.filter fun e =>
    e.2.ref == c + 1 || e.2.decoding == c + 1 || (e.2.charged == some c && e.2.holds != 0)).length
/-- Drop one hold of a buffer (R333). -/
def State.dropHold (s : State) (b : Nat) : State := s.modBuffer b fun x => { x with holds := x.holds - 1 }

/-- Bytes that a picture needs in its buffer (R316). -/
def pictureBytes (w h : Nat) (tenBit : Bool) (av1 : Bool) : Nat :=
  let wa := 64 * ceilDiv w 64
  let ha := 64 * ceilDiv h 64
  let sz := if tenBit then 2 else 1
  3 * wa * ha * sz / 2 + (wa / 16) * (ha / 16) * (if av1 then 48 else 16)

/-- Bytes of a ring of a partition, written from an offset and wrapping at its end. -/
def State.ringStore (s : State) (p base size off : Nat) (bs : List Byte) : State :=
  if size = 0 then s
  else
    let o := off % size
    let a := bs.take (size - o)
    let b := bs.drop (size - o)
    let s := (s.storeP none p (base + o) a []).2
    if b.isEmpty then s else (s.storeP none p base b []).2

/-! Record rings (R319) -/

/-- A record of R319. -/
def vidRecord (type flags reason handle pts size crop seq ctbs : Nat) : List Byte :=
  toLe 1 type ++ toLe 1 flags ++ toLe 2 reason ++ toLe 4 handle ++ toLe 8 pts ++ toLe 4 size ++ toLe 4 crop ++
    toLe 4 seq ++ toLe 4 ctbs

/-- Write the records that wait, as far as the ring has room. -/
def State.drainOut (s : State) (c : Nat) : State :=
  match s.vidCtx c with
  | none => s
  | some x =>
    let n := x.outRecs
    let go := x.outQ.take (n - (x.wr - x.rd))
    let s := foldS (fun s e =>
      let i := e.1
      let r := e.2
      let s := (s.storeP none x.part (x.outRing + 32 * ((x.wr + i) % n)) r.1 []).2
      let type := leAt r.1 0 1
      if type = 1 then s.inc (Reg.vidPartFrameCount x.part)
      else if type = 3 then s.inc (Reg.vidPartDropCount x.part) else s) s ((upTo go.length).zip go)
    let units := ((upTo go.length).zip go).filterMap fun e => if leAt e.2.1 0 1 = 2 then some (x.wr + e.1, e.2.2) else none
    s.modCtx c fun y => { y with outQ := y.outQ.drop go.length, wr := y.wr + go.length, unitBytes := y.unitBytes ++ units }

/-- Append a record to a context's ring. -/
def State.putRecord (s : State) (c : Nat) (r : List Byte) (bytes : Nat) : State :=
  (s.modCtx c fun x => { x with outQ := x.outQ ++ [(r, bytes)] }).drainOut c

/-- The bytes that a picture of a size takes for its samples, and in all with its motion side area, in its buffer (R316). -/
def PicInfo.sampleBytes (i : PicInfo) : Nat :=
  3 * (64 * ceilDiv i.width 64) * (64 * ceilDiv i.height 64) * (if i.tenBit then 2 else 1) / 2

/-- What a core reads of memory: a read that fails gives zeros, as a refused one does (R323; log entry 71). -/
def State.coreRead (s : State) (p pma n : Nat) : List Byte × State :=
  let r := s.fetchP none p pma n []
  (if r.1 = stOk then r.2.1 else toLe n 0, r.2.2)

/-- The samples of a buffer's picture before any grain (R311). -/
def State.cleanSamples (s : State) (p b : Nat) (i : PicInfo) : List Byte × State :=
  match i.clean with
  | some bs => (bs, s)
  | none => s.coreRead p (s.bufferAt p b) i.sampleBytes

/-- Apply film grain to a picture that is output, where its context and its header ask for it; the picture before grain is kept
beside it as long as the buffer holds it, since references never carry grain (R311; log entry 71). -/
def State.grain (s : State) (x : VidCtx) (b : Nat) : State :=
  match (s.buffer b).pic with
  | none => s
  | some i =>
    if !(bit (leAt x.desc 0 4) 3) || x.kind != 1 || i.grain.isEmpty then s
    else
      let c := s.cleanSamples x.part b i
      let s := c.2.modBuffer b fun y => { y with pic := some { i with clean := some c.1 } }
      (s.storeP none x.part (s.bufferAt x.part b) ((Config.filmGrain i.grain c.1).take i.sampleBytes) []).2

/-- Output a picture: its FRAME record, and one hold of its buffer (R319). -/
def State.outputFrame (s : State) (c : Nat) (x : VidCtx) (b : Nat) : State :=
  match (s.buffer b).pic with
  | none => s
  | some i =>
    let s := s.grain x b
    let r := vidRecord 1 i.flags 0 (s.handleOf x.part b) i.pts (i.cropW + 65536 * i.cropH) (i.cropX + 65536 * i.cropY)
      i.seq (min 0xFFFF i.ctbs)
    let s := s.modBuffer b fun y => { y with holds := min 255 (y.holds + 1), charged := some c }
    s.putRecord c r 0

/-- Drop the picture of a unit with a reason (R318, R319, R325). -/
def State.dropPicture (s : State) (c reason : Nat) (u : Unit_) : State :=
  s.putRecord c (vidRecord 3 0 reason 0 u.pts 0 0 u.seq 0) 0

/-- Take n units off the front of a context, freeing their ring space; the END record follows an EOS unit (R314, R319). -/
def State.takeUnits (s : State) (c n : Nat) : State :=
  match s.vidCtx c with
  | none => s
  | some x =>
    let us := x.units.take n
    let s := s.modCtx c fun y => { y with units := y.units.drop n, ringUsed := y.ringUsed - (us.map fun u => u.length).sum }
    foldS (fun s u => if u.eos then s.putRecord c (vidRecord 4 0 0 0 u.pts 0 0 u.seq 0) 0 else s) s us

/-- End a context: its REF marks are dropped (R313). -/
def State.endCtx (s : State) (c : Nat) : State :=
  match s.vidCtx c with
  | none => s
  | some x =>
    let s := foldS (fun s (e : Nat × Buffer) =>
      if e.2.ref = c + 1 then s.modBuffer e.1 fun y => { y with ref := 0 } else s) s s.video.buffers
    let s := foldS (fun s (u : Unit_) => if x.encodes then s.dropHold u.place else s) s x.units
    { s with video := { s.video with ctxs := mdel s.video.ctxs c } }

/-- The core that leads a context's picture in progress. -/
def State.leadCore (s : State) (c : Nat) : Option Nat :=
  (upTo 8).find? fun k => (s.vidCore k).state != 0 && (s.vidCore k).ctx == c && (s.vidCore k).unit.isSome

/-! Commands -/

/-- VID_OPEN (R313). -/
def execVidOpen (h : CmdHdr) (desc : List Byte) (s : State) : Host.Outcome State Fault Refusal :=
  .next (s.command h 0x0600 fun s =>
    let p := sidPart h.session
    let kind := descBits desc 0 1 0
    let r := s.ctxRange p
    if desc.length ≠ 128 || !(vidDescGood desc) then ans stMalformed s
    else if !(s.pmaOk p (leAt desc 0x10 8) (leAt desc 0x18 4)) || !(s.pmaOk p (leAt desc 0x20 8) (32 * descBits desc 0x28 12 0))
        || (kind == 2 && !(s.pmaOk p (leAt desc 0x58 8) (leAt desc 0x60 4))) then ans stAddrInvalid s
    else
      match (upTo r.2).find? fun i => (s.vidCtx (r.1 + i)).isNone with
      | none => ans stVidCtxFull s
      | some i =>
        if (s.coresOf p).isEmpty then ans stVidNoCore s
        else
          let x : VidCtx :=
            { part := p, kind := kind, desc := desc, units := [], lastUnit := none, ringTail := 0, ringUsed := 0, wr := 0,
              rd := 0, needRap := false, waitSince := none, closing := false, bitsTail := 0, bitsUsed := 0, unitBytes := [],
              outQ := [], refs := [], pictures := 0, sinceIdr := 0, fullness := 0, qpF := descBits desc 0x40 13 8 }
          (stOk, toLe 2 i, { s with video := { s.video with ctxs := mput s.video.ctxs (r.1 + i) x } }))

/-- VID_CLOSE (R313): the context ends after its picture in progress. -/
def execVidClose (h : CmdHdr) (ctx : Nat) (s : State) : Host.Outcome State Fault Refusal :=
  .next (s.command h 0x0601 fun s =>
    match s.ownCtx (sidPart h.session) ctx with
    | none => ans stMalformed s
    | some (c, _) =>
      if (s.leadCore c).isSome then ans stOk (s.modCtx c fun x => { x with closing := true }) else ans stOk (s.endCtx c))

/-- VID_FEED (R314): a duplicate succeeds without effect, an undeclared gap and a full ring are refused. -/
def execVidFeed (h : CmdHdr) (ctx : Nat) (indirect : Bool) (pma : Nat) (unit data : List Byte) (s : State) :
    Host.Outcome State Fault Refusal :=
  .next (s.command h 0x0602 fun s =>
    let p := sidPart h.session
    match s.ownCtx p ctx with
    | none => ans stMalformed s
    | some (c, x) =>
      let length := descBits unit 0 27 0
      let gap := bit (leAt unit 0 4) 28
      let seq := leAt unit 4 4
      let next := match x.lastUnit with
        | none => 0
        | some n => n + 1
      let bytes := 16 + 16 * ceilDiv length 16
      if x.encodes || x.closing || unit.length ≠ 16 || descBits unit 0 31 30 ≠ 0 || (!indirect && data.length ≠ length)
      then ans stMalformed s
      else if seq < next then ans stOk s
      else if next < seq && !gap then ans stVidSeqGap s
      else if x.inBytes < x.ringUsed + bytes then ans stVidRingFull s
      else
        let src := if indirect then s.fetchP none p pma length [] else (stOk, data, s)
        if src.1 ≠ stOk then ans src.1 src.2.2
        else
          let s := src.2.2
          let body := unit ++ src.2.1
          let s := s.ringStore p x.inRing x.inBytes x.ringTail (body ++ toLe (bytes - body.length) 0)
          let u : Unit_ := { seq := seq, length := bytes, pts := leAt unit 8 8, eos := bit (leAt unit 0 4) 29,
                             place := x.ringTail, handle := 0, forceIdr := false, fedAt := s.now, order := s.video.order }
          let s := { s with video := { s.video with order := s.video.order + 1 } }
          ans stOk (s.modCtx c fun y => { y with units := y.units ++ [u], lastUnit := some seq,
                                                 ringTail := (y.ringTail + bytes) % y.inBytes,
                                                 ringUsed := y.ringUsed + bytes }))

/-- VID_ACQUIRE (R317). -/
def execVidAcquire (h : CmdHdr) (s : State) : Host.Outcome State Fault Refusal :=
  .next (s.command h 0x0603 fun s =>
    let p := sidPart h.session
    match s.freeBuffer p with
    | none => ans stVidPoolEmpty s
    | some b => (stOk, toLe 4 (s.handleOf p b), s.modBuffer b fun x => { x with holds := 1, charged := none }))

/-- VID_RELEASE (R333). -/
def execVidRelease (h : CmdHdr) (handle : Word) (s : State) : Host.Outcome State Fault Refusal :=
  .next (s.command h 0x0604 fun s =>
    match s.frameOfHandle (sidPart h.session) handle.toNat with
    | none => ans stFrameStale s
    | some b => ans stOk (s.dropHold b))

/-- VID_ENCODE (R328): the caller's hold moves to the encoder; the frame waits as a unit whose place is its buffer. -/
def execVidEncode (h : CmdHdr) (ctx : Nat) (forceIdr : Bool) (handle : Word) (pts : Nat) (s : State) :
    Host.Outcome State Fault Refusal :=
  .next (s.command h 0x0605 fun s =>
    let p := sidPart h.session
    match s.ownCtx p ctx with
    | none => ans stMalformed s
    | some (c, x) =>
      if !x.encodes || x.closing then ans stMalformed s
      else
        match s.frameOfHandle p handle.toNat with
        | none => ans stFrameStale s
        | some b =>
          let seq := match x.lastUnit with
            | none => 0
            | some n => n + 1
          let u : Unit_ := { seq := seq, length := 0, pts := pts, eos := false, place := b, handle := handle.toNat,
                             forceIdr := forceIdr, fedAt := s.now, order := s.video.order }
          let s := { s with video := { s.video with order := s.video.order + 1 } }
          ans stOk (s.modCtx c fun y => { y with units := y.units ++ [u], lastUnit := some seq }))

/-- Read n records of a ring from a number on, in order until one fails (R157, R319). -/
def State.readRecords (s : State) (p ring recs first n : Nat) : Nat × List Byte × State :=
  match n with
  | 0 => (stOk, [], s)
  | m + 1 =>
    let x := s.fetchP none p (ring + 32 * (first % recs)) 32 []
    if x.1 ≠ stOk then x
    else
      let y := x.2.2.readRecords p ring recs (first + 1) m
      (y.1, x.2.1 ++ y.2.1, y.2.2)

/-- VID_READ (R319, R420). -/
def execVidRead (h : CmdHdr) (ctx first maximum : Nat) (s : State) : Host.Outcome State Fault Refusal :=
  .next (s.command h 0x0606 fun s =>
    let p := sidPart h.session
    match s.ownCtx p ctx with
    | none => ans stMalformed s
    | some (_, x) =>
      if maximum = 0 ∨ 44 < maximum then ans stMalformed s
      else if first < x.rd ∨ x.wr < first then ans stReelRange s
      else
        let r := s.readRecords p x.outRing x.outRecs first (min maximum (x.wr - first))
        if r.1 ≠ stOk then ans r.1 r.2.2 else (stOk, toLe 8 x.wr ++ toLe 8 x.rd ++ r.2.1, r.2.2))

/-- VID_ACK (R319, R328): RD is set, and the BITS bytes of acknowledged UNIT records are freed. -/
def execVidAck (h : CmdHdr) (ctx record : Nat) (s : State) : Host.Outcome State Fault Refusal :=
  .next (s.command h 0x0607 fun s =>
    match s.ownCtx (sidPart h.session) ctx with
    | none => ans stMalformed s
    | some (c, x) =>
      if x.wr < record then ans stReelRange s
      else if record ≤ x.rd then ans stOk s
      else
        let freed := ((x.unitBytes.filter fun e => decide (e.1 < record)).map Prod.snd).sum
        ans stOk ((s.modCtx c fun y =>
          { y with rd := record, bitsUsed := y.bitsUsed - freed,
                   unitBytes := y.unitBytes.filter fun e => decide (record ≤ e.1) }).drainOut c))

/-- A write of VID_CORE_OWNER (R334): refused while the core processes a picture, or while its former owner has an open
context and would be left with no core. -/
def State.coreOwnerWrite (s : State) (k v : Nat) : Nat × State :=
  let old := s.reg (Reg.vidCoreOwner k) % 32
  let open_ := s.video.ctxs.any fun e => e.2.part == old
  if (s.vidCore k).state ≠ 0 || (v % 32 != old && open_ && s.coresOf old == [k]) then (stSpliceConflict, s)
  else (stOk, s.setReg (Reg.vidCoreOwner k) (v % 32))

/-- VID_CORE_OWNER (R334). -/
def execVidCoreOwner (h : CmdHdr) (core : Fin 8) (value : Word) (s : State) : Host.Outcome State Fault Refusal :=
  .next (s.regCommand h 0x0101 (Reg.vidCoreOwner core.val) fun s =>
    let r := s.coreOwnerWrite core.val value.toNat
    ans r.1 r.2)

/-! Pictures (R318 to R327) -/

/-- The head of an owner's queue: the context whose next unit was fed first, a tie going to the lower context (R320). A
context has at most one picture in progress (log entry 56). -/
def State.queueHead (s : State) (p : Nat) : Option (Nat × VidCtx × Unit_) :=
  let l := s.video.ctxs.filterMap fun e =>
    if e.2.part == p && (s.leadCore e.1).isNone then e.2.units.head?.map fun u => (e.1, e.2, u) else none
  match l with
  | [] => none
  | a :: r => some (r.foldl (fun m y => if y.2.2.fedAt < m.2.2.fedAt then y else m) a)

/-- The next picture of an encode context is an IDR picture (R328): its first, one asked for, after GOP pictures, and the one after
a reset (R327; log entry 56). -/
def VidCtx.nextIdr (x : VidCtx) (u : Unit_) : Bool :=
  let gop := descBits x.desc 0x50 15 0
  x.pictures == 0 || u.forceIdr || x.needRap || (gop != 0 && x.sinceIdr == gop)

/-- Which rule of R321 divides a picture among m cores: the share of core i, none where the picture allows no division. -/
def shareOf (x : PicShape) (m i : Nat) : Option Share :=
  if 2 ≤ x.tiles then some (.tiles i m)
  else if x.wavefronts then some (.rows i m)
  else if 2 ≤ x.slices then some (.slices i m)
  else none

/-- Whether a core is idle: it holds no picture and its reset is over (R320, R426). -/
def State.coreIdle (s : State) (k : Nat) : Bool := (s.vidCore k).state == 0 && decide ((s.vidCore k).resetUntil ≤ s.now)

/-- The cores that take a picture with the core that leads it (R321, R322): in ascending number, up to MAX_CORES. -/
def State.sharers (s : State) (p k : Nat) (x : VidCtx) (shape : PicShape) : List Nat :=
  let idle := (s.coresOf p).filter fun j => j != k && s.coreIdle j
  let m := min (descBits x.desc 0 10 8) (idle.length + 1)
  if x.encodes || (shareOf shape m 0).isNone || m < 2 then [k] else k :: idle.take (m - 1)

/-- The estimate of a core lets it start a picture (R555). -/
def State.coreReady (s : State) (k : Nat) (encodes : Bool) : Bool :=
  decide ((Config.coreLoad encodes).val ≤ (s.vidCore k).ramp.level_ coreRate s.now)

/-- The estimate of a core goes toward what its work makes of it (R555). -/
def State.aimCore (s : State) (k load : Nat) : State :=
  s.setCore k { s.vidCore k with ramp := (s.vidCore k).ramp.toward coreRate s.now load }

/-- The cores of a picture take it, the first of them with its unit; each is woken first (R321, R322). -/
def State.takePicture (s : State) (cores : List Nat) (c b : Nat) (x : VidCtx) (u : Unit_) (shape : PicShape) : State :=
  let m := cores.length
  foldS (fun s e =>
    let s := s.reach (44 + e.2) 0xC1
    s.setCore e.2 { s.vidCore e.2 with
      state := if x.encodes then 3 else 2, ctx := c, unit := if e.1 = 0 then some u else none, buffer := b, since := s.now,
      counted := s.now, share := if m < 2 then .whole else (shareOf shape m e.1).getD .whole,
      ramp := (s.vidCore e.2).ramp.toward coreRate s.now (Config.coreLoad x.encodes).val }) s ((upTo m).zip cores)

/-- PICTURE_START (R318 to R322, R328, R555): an idle core takes the head of its owner's queue when the context is below
DPB_BUFS, its record ring has 2 free records, a buffer is FREE, for encoding its BITS ring has room, and the estimates of the
cores that take it have caught up; those that have not begin to climb. -/
def execPictureStart (core : Fin 8) (shape : PicShape) (t : Nat) (s : State) : Host.Outcome State Fault Refusal :=
  let k := core.val
  let s := s.tick t
  let p := s.reg (Reg.vidCoreOwner k) % 32
  .next (
    if !(s.coreIdle k) || 16 ≤ p then s
    else
      match s.queueHead p with
      | none => s
      | some (c, x, u) =>
        let room := decide (x.wr - x.rd + x.outQ.length + 2 ≤ x.outRecs)
        let need := 3 * x.maxW * x.maxH * (if x.tenBit then 2 else 1) / 2
        let bitsRoom := !x.encodes || decide (need ≤ x.bitsBytes - x.bitsUsed)
        if x.dpb ≤ s.dpbUsed c || !room || !bitsRoom then s
        else
          match s.freeBuffer p with
          | none => if x.waitSince.isSome then s else s.modCtx c fun y => { y with waitSince := some s.now }
          | some b =>
            let cores := s.sharers p k x shape
            let late := cores.filter fun j => !(s.coreReady j x.encodes)
            if !late.isEmpty then foldS (fun s j => s.aimCore j (Config.coreLoad x.encodes).val) s late
            else
              let s := (s.modBuffer b fun y => { y with decoding := c + 1, pic := none }).modCtx c fun y =>
                { y with waitSince := none }
              s.takePicture cores c b x u shape)

/-- Count the time a core has held its picture up to the present instant, for the core and its owner (R105, R320). -/
def State.countCore (s : State) (k : Nat) : State :=
  let x := s.vidCore k
  match s.vidCtx x.ctx with
  | none => s
  | some y =>
    if x.state = 0 then s
    else
      let d := s.now - x.counted
      let s := s.bump (Reg.vidCoreBusyUs k) ((x.ns + d) / 1000)
      let n := nget s.video.partNs y.part + d
      let s := s.bump (Reg.vidPartBusyUs y.part) (n / 1000)
      let s := { s with video := { s.video with partNs := nput s.video.partNs y.part (n % 1000) } }
      s.setCore k { x with counted := s.now, ns := (x.ns + d) % 1000 }

/-- Release the cores of a context's picture, counting their time (R105, R320); their estimates fall from then on (R555). -/
def State.releaseCores (s : State) (c : Nat) : State :=
  foldS (fun s k =>
    let x := s.vidCore k
    if x.state = 0 || x.ctx ≠ c then s
    else
      let s := s.countCore k
      s.setCore k ((s.vidCore k).rest s.now)) s (upTo 8)

/-- The 64 × 64 blocks that a decoded picture conceals (R323, R324, R326): of each slice or tile those from the first that fails
on, those with a refused access, and at a timeout those left. -/
def concealedBlocks (r : PicReport) (timeout : Bool) : List Nat :=
  distinct ((r.slices.flatMap fun x => x.blocks.drop x.good) ++ r.refused ++ (if timeout then r.left else []))

/-- The flags of a picture's record (R319): CONCEALED, REF_MISSING, TIMEOUT, WINDOW, RAP, TEN_BIT. -/
def picFlags (concealed refMissing timeout window rap tenBit : Bool) : Nat :=
  b2n concealed + 2 * b2n refMissing + 4 * b2n timeout + 8 * b2n window + 16 * b2n rap + 32 * b2n tenBit

/-- n samples of mid-grey (R325, R326). -/
def midGrey (tenBit : Bool) (n : Nat) : List Byte :=
  (upTo n).flatMap fun _ => if tenBit then toLe 2 0x8000 else toLe 1 0x80

/-- The samples of a report as they are stored (R316): a 10-bit sample occupies bits 15 to 6, and the chroma plane of a monochrome
picture is mid-grey. -/
def storedSamples (r : PicReport) : List Byte :=
  let n := (64 * ceilDiv r.width 64) * (64 * ceilDiv r.height 64)
  let pack (l : List Nat) : List Byte := l.flatMap fun v => if r.tenBit then toLe 2 (64 * (v % 1024)) else toLe 1 v
  let luma := (upTo n).map fun i => r.samples.getD i 0
  let chroma := (upTo (n / 2)).map fun i => r.samples.getD (n + i) 0
  pack luma ++ (if r.mono then midGrey r.tenBit (n / 2) else pack chroma)

/-- The rows of bytes that a 64 × 64 block has in a picture's planes (R316): offset and length. -/
def blockRows (w h : Nat) (tenBit : Bool) (block : Nat) : List (Nat × Nat) :=
  let wa := 64 * ceilDiv w 64
  let ha := 64 * ceilDiv h 64
  let sz := if tenBit then 2 else 1
  let x := 64 * (block % (wa / 64)) * sz
  let y := block / (wa / 64)
  ((upTo 64).map fun i => ((64 * y + i) * wa * sz + x, 64 * sz)) ++
    (upTo 32).map fun i => (wa * ha * sz + (32 * y + i) * wa * sz + x, 64 * sz)

/-- Replace bytes of a string from an offset on. -/
def overlay (bs : List Byte) (off : Nat) (new : List Byte) : List Byte := bs.take off ++ new ++ bs.drop (off + new.length)

/-- Conceal blocks of a picture with the co-located bytes of another, or with mid-grey (R326). -/
def conceal (bs : List Byte) (w h : Nat) (tenBit : Bool) (old : Option (List Byte)) (blocks : List Nat) : List Byte :=
  (blocks.flatMap (blockRows w h tenBit)).foldl (fun b e =>
    overlay b e.1 (match old with
      | some o => slice o e.1 e.2
      | none => midGrey tenBit (if tenBit then e.2 / 2 else e.2))) bs

/-- The picture that concealment copies from (R326): the context's most recently decoded one that is still REF. -/
def State.concealFrom (s : State) (c : Nat) : Option (Nat × PicInfo) :=
  (s.video.buffers.filterMap fun e =>
    if e.2.ref == c + 1 then e.2.pic.map fun i => (e.1, i) else none).foldl (fun m a => match m with
      | none => some a
      | some b => if b.2.order < a.2.order then some a else some b) none

/-- The co-located bytes for concealment: of a picture of another layout the spec states none, and they are free (log entry 71). -/
def State.colocated (s : State) (p c n : Nat) (r : PicReport) : Option (List Byte) × State :=
  match s.concealFrom c with
  | none => (none, s)
  | some (b, i) =>
    if ceilDiv i.width 64 = ceilDiv r.width 64 ∧ ceilDiv i.height 64 = ceilDiv r.height 64 ∧ i.tenBit = r.tenBit then
      let x := s.cleanSamples p b i
      (some x.1, x.2)
    else (some ((upTo n).map fun k => BitVec.ofNat 8 (Config.freeValue (s.fresh + k))), { s with fresh := s.fresh + n })

/-- The picture that a decoded one is stored as (R316, R326): its samples with their concealed blocks, and its motion side area. -/
def State.storePicture (s : State) (c : Nat) (x : VidCtx) (b : Nat) (r : PicReport) (blocks : List Nat) : State :=
  let p := x.part
  let bs := storedSamples r
  let old := if blocks.isEmpty then (none, s) else s.colocated p c bs.length r
  let bs := conceal bs r.width r.height r.tenBit old.1 blocks
  let s := old.2
  (s.storeP none p (s.bufferAt p b) ((bs ++ r.motion).take (s.reg (Reg.vidPartBufBytes p))) []).2

/-- The marks of a context's buffers after its picture: those it keeps are REF, and it outputs some in order (R317, R319). -/
def State.settleBuffers (s : State) (c : Nat) (x : VidCtx) (b : Nat) (r : PicReport) : State :=
  let outs := r.outputs.filter fun j => (s.buffer j).ref == c + 1
  let s := foldS (fun s j => s.outputFrame c x j) s outs
  let s := foldS (fun s (e : Nat × Buffer) =>
    if e.2.ref == c + 1 && !(r.refs.contains e.1) then s.modBuffer e.1 fun y => { y with ref := 0, decoding := 0 } else s) s
    s.video.buffers
  s.modBuffer b fun y => { y with decoding := 0 }

/-- A decoded picture ends on its cores (R318, R319, R323 to R326): dropped with its reason, in NEED_RAP with a record for each
unit, or stored with its marks and its outputs. Units that hold no picture only output what they end. -/
def State.decodeDone (s : State) (c : Nat) (x : VidCtx) (u : Unit_) (b : Nat) (r : PicReport) (timeout : Bool) : State :=
  let p := x.part
  let size := s.reg (Reg.vidPartBufBytes p)
  let big := decide (x.maxW < r.width) || decide (x.maxH < r.height) ||
    decide (size < pictureBytes r.width r.height r.tenBit (x.kind == 1))
  let reason := if r.reason ≠ 0 then r.reason else if big then 2 else if x.needRap && !r.rap then 6 else 0
  let units := x.units.take r.units
  if reason ≠ 0 then
    let s := s.modBuffer b fun y => { y with decoding := 0, pic := none }
    let s := s.modCtx c fun y => { y with needRap := true }
    (foldS (fun s v => s.dropPicture c reason v) s (if reason = 6 then units else [(units.getLast?).getD u])).takeUnits c r.units
  else if r.width = 0 then
    (s.settleBuffers c x b r).takeUnits c r.units
  else
    let seq := match units.getLast? with
      | some v => v.seq
      | none => u.seq
    let blocks := concealedBlocks r timeout
    let s := s.storePicture c x b r blocks
    let info : PicInfo :=
      { width := r.width, height := r.height, cropX := r.cropX, cropY := r.cropY, cropW := r.cropW, cropH := r.cropH,
        tenBit := r.tenBit, flags := picFlags (!blocks.isEmpty) r.refMissing timeout (r.window != 0) r.rap r.tenBit,
        pts := u.pts, seq := seq, ctbs := blocks.length, order := x.pictures, grain := r.grain, clean := none }
    let s := s.modBuffer b fun y => { y with pic := some info, ref := c + 1 }
    let s := s.modCtx c fun y => { y with needRap := false, pictures := y.pictures + 1 }
    let s := if !blocks.isEmpty || r.refMissing then s.inc (Reg.vidPartConcealCount p) else s
    (s.settleBuffers c x b r).takeUnits c r.units

/-! Rate control (R330) -/

/-- A number held between two bounds. -/
def clampInt (v lo hi : Int) : Int := max lo (min hi v)

/-- The target of a picture in bits (R330). -/
def VidCtx.target (x : VidCtx) (idr : Bool) : Int :=
  let t : Nat := leAt x.desc 0x44 4 * 1000 * descBits x.desc 0x48 31 16 / descBits x.desc 0x48 15 0
  if idr then 4 * t else t

/-- What an encoder has of a picture after some CTB rows: their QPs, the vectors found, and the bits so far. -/
structure EncRows where
  qps : List Int
  field : MvField
  bits : Nat

/-- The QP of a CTB row after rows of some bits (R330). The spec gives no dq when the target is 0: a free value. -/
def VidCtx.rowQp (x : VidCtx) (idr : Bool) (fresh k acc : Nat) : Int :=
  let lo : Int := descBits x.desc 0x40 21 16
  let hi : Int := descBits x.desc 0x40 29 24
  if descBits x.desc 0x40 1 0 = 0 then descBits x.desc 0x40 13 8
  else
    let t := x.target idr
    let n : Int := ceilDiv x.maxH 64
    let e := t * k / n
    let dq := if t = 0 then ((Config.freeValue (fresh + k) % 9 : Nat) : Int) - 4
      else clampInt ((12 * (acc - e) + t / 2) / t) (-4) 4
    if (leAt x.desc 0x4C 4 : Int) < x.fullness + acc then min hi (x.qpF + 12) else clampInt (x.qpF + dq) lo hi

/-- Encode the CTB rows of a picture in order: the QP of each (R330), the vectors of its blocks (R329), and its bits. -/
def VidCtx.encodeRows (x : VidCtx) (idr : Bool) (fresh : Nat) (inputs : List (List Byte)) (cur : MvPic)
    (refs : List (MvPic × MvField)) (stop : Option Nat) : EncRows :=
  (upTo (ceilDiv x.maxH 64)).foldl (fun a k =>
    let qp := x.rowQp idr fresh k a.bits
    let field := searchRow cur refs (descBits x.desc 0x54 8 0) (descBits x.desc 0x54 24 16) (lambdaOf qp.toNat) a.field k
    let qps := a.qps ++ [qp]
    { qps := qps, field := field, bits := a.bits + Config.codedRow inputs qps field stop }) { qps := [], field := [], bits := 0 }

/-- The rate buffer and QP_f after a picture of some bits (R330). -/
def VidCtx.afterPicture (x : VidCtx) (idr : Bool) (n : Nat) : Int × Int :=
  if descBits x.desc 0x40 1 0 = 0 then (x.fullness, x.qpF)
  else
    let vbv : Int := leAt x.desc 0x4C 4
    let f := x.fullness + n - x.target idr
    let f := if descBits x.desc 0x40 1 0 = 1 then max f 0 else max f ((-vbv) / 2)
    let step : Int := if 3 * vbv < 4 * f then 2 else if vbv < 2 * f then 1 else if 4 * f < vbv then -1 else 0
    (f, clampInt (x.qpF + step) (descBits x.desc 0x40 21 16) (descBits x.desc 0x40 29 24))

/-- The references of an encoder's picture as the search reads them, with what R331 names of them (R328). -/
def State.encRefs (s : State) (x : VidCtx) (idr : Bool) : List (MvPic × MvField) × List (List Byte) × State :=
  let n := 3 * (64 * ceilDiv x.maxW 64) * (64 * ceilDiv x.maxH 64) * (if x.tenBit then 2 else 1) / 2
  let m := 16 * (4 * ceilDiv x.maxW 64) * (4 * ceilDiv x.maxH 64)
  foldS (fun (a : List (MvPic × MvField) × List (List Byte) × State) b =>
    let r := a.2.2.coreRead x.part (a.2.2.bufferAt x.part b) (n + m)
    (a.1 ++ [({ bytes := r.1.take n, w := x.maxW, h := x.maxH, ten := x.tenBit }, sideField (r.1.drop n))], a.2.1 ++ [r.1], r.2))
    ([], [], s) (if idr then [] else x.refs)

/-- An encoded picture ends (R328 to R331): its access unit in the BITS ring with a UNIT record, its reconstruction with its
vectors marked REF, the encoder's hold dropped. At a timeout the blocks after `coded` are skipped (R324). Which way the average QP
rounds the spec leaves open: a free value. -/
def State.encodeDone (s : State) (c : Nat) (x : VidCtx) (u : Unit_) (b : Nat) (r : PicReport) (timeout : Bool) : State :=
  let p := x.part
  let idr := x.nextIdr u
  let stop := if timeout then some r.coded else none
  let frame := s.coreRead p (s.bufferAt p u.place)
    (3 * (64 * ceilDiv x.maxW 64) * (64 * ceilDiv x.maxH 64) * (if x.tenBit then 2 else 1) / 2)
  let refs := frame.2.encRefs x idr
  let s := refs.2.2
  let inputs := [x.desc, toLe 1 (b2n idr), frame.1] ++ refs.2.1
  let a := x.encodeRows idr s.fresh inputs { bytes := frame.1, w := x.maxW, h := x.maxH, ten := x.tenBit } refs.1 stop
  let free := x.bitsBytes - x.bitsUsed
  let bs := (Config.codedUnit inputs a.qps a.field stop).take free
  let total := (a.qps.foldl (fun a v => a + v) 0).toNat
  let n := max 1 a.qps.length
  let avg := total / n + (if total % n = 0 then 0 else Config.freeValue (s.fresh + a.qps.length) % 2)
  let s := { s with fresh := s.fresh + a.qps.length + 1 }
  let s := s.ringStore p x.bitsRing x.bitsBytes x.bitsTail bs
  let recon := Config.codedPicture inputs a.qps a.field stop
  let recon := (upTo frame.1.length).map (fun i => recon.getD i 0) ++ sideArea x.maxW x.maxH a.field
  let s := (s.storeP none p (s.bufferAt p b) (recon.take (s.reg (Reg.vidPartBufBytes p))) []).2
  let info : PicInfo :=
    { width := x.maxW, height := x.maxH, cropX := 0, cropY := 0, cropW := x.maxW, cropH := x.maxH, tenBit := x.tenBit,
      flags := 0, pts := u.pts, seq := x.pictures, ctbs := 0, order := x.pictures, grain := [], clean := none }
  let kept := (b :: (if idr then [] else x.refs)).take (descBits x.desc 0x50 17 16)
  let s := s.modBuffer b fun y => { y with pic := some info, ref := c + 1, decoding := 0 }
  let s := foldS (fun s (e : Nat × Buffer) =>
    if e.2.ref == c + 1 && !(kept.contains e.1) then s.modBuffer e.1 fun y => { y with ref := 0 } else s) s s.video.buffers
  let s := s.dropHold u.place
  let rc := x.afterPicture idr (8 * bs.length)
  let s := s.modCtx c fun y =>
    { y with units := y.units.drop 1, refs := kept, pictures := y.pictures + 1, sinceIdr := if idr then 1 else y.sinceIdr + 1,
             needRap := false, fullness := rc.1, qpF := rc.2, bitsTail := (y.bitsTail + bs.length) % max 1 y.bitsBytes,
             bitsUsed := y.bitsUsed + bs.length }
  s.putRecord c (vidRecord 2 (picFlags false false timeout (r.window != 0) idr x.tenBit) 0 x.bitsTail u.pts
    bs.length (avg % 256) x.pictures 0) bs.length

/-- A picture ends on the core that leads it: its effects, then its cores become idle, and a closing context ends. -/
def State.pictureEnds (s : State) (k : Nat) (r : PicReport) (timeout : Bool) : State :=
  let y := s.vidCore k
  match y.unit, s.vidCtx y.ctx with
  | some u, some x =>
    let s := s.releaseCores y.ctx
    let s := s.bump (Reg.vidPartWindowCount x.part) r.window
    let s := if timeout then s.inc (Reg.vidPartWdogCount x.part) else s
    let s := if x.encodes then s.encodeDone y.ctx x u y.buffer r timeout else s.decodeDone y.ctx x u y.buffer r timeout
    if x.closing then s.endCtx y.ctx else s
  | _, _ => s

/-- The cycles of CLK_VID, 1 ns each, that a picture occupies one core (R312). -/
def VidCtx.cycles (x : VidCtx) (r : PicReport) : Nat :=
  2000 + if x.encodes then 4 * x.maxW * x.maxH else r.width * r.height

/-- A picture that one core codes or decodes whole has not had its cycles (R312). -/
def State.pictureEarly (s : State) (k : Nat) (r : PicReport) : Bool :=
  let y := s.vidCore k
  match s.vidCtx y.ctx with
  | none => false
  | some x => y.share == .whole && r.reason == 0 && decide (s.now < y.since + x.cycles r)

/-- PICTURE_DONE (R312, R319). -/
def execPictureDone (core : Fin 8) (r : PicReport) (t : Nat) (s : State) : Host.Outcome State Fault Refusal :=
  let s := s.tick t
  .next (if s.pictureEarly core.val r then s else s.pictureEnds core.val r false)

/-- WATCHDOG (R324): the picture's allowance at 1.0 GHz has run out. -/
def execWatchdog (core : Fin 8) (r : PicReport) (t : Nat) (s : State) : Host.Outcome State Fault Refusal :=
  let s := s.tick t
  let y := s.vidCore core.val
  .next (
    match s.vidCtx y.ctx with
    | none => s
    | some x =>
      let f := descBits x.desc 8 15 8
      let allowed := (if f = 0 then 32 else f) * x.cycles r / 4
      if y.state = 0 || decide (s.now < y.since + allowed) then s else s.pictureEnds core.val r true)

/-- BUFFER_WAIT_TIMEOUT (R318): a picture that has waited longer than STALL_MS for a buffer is dropped with NO_BUFFER;
`referenced` says that later pictures reference it. -/
def execBufferWaitTimeout (ctx : Fin 512) (referenced : Bool) (t : Nat) (s : State) : Host.Outcome State Fault Refusal :=
  let c := ctx.val
  let s := s.tick t
  .next (
    match s.vidCtx c with
    | none => s
    | some x =>
      match x.waitSince, x.units.head? with
      | some t0, some u =>
        if s.now ≤ t0 + 1000000 * x.stallMs then s
        else
          let s := s.dropPicture c 1 u
          let s := if x.encodes then (s.dropHold u.place).modCtx c fun y => { y with units := y.units.drop 1 }
            else s.takeUnits c 1
          s.modCtx c fun y => { y with waitSince := none, needRap := y.needRap || (referenced && !y.encodes) }
      | _, _ => s)

/-- A video core that is reset drops its picture (R327): the picture on it is dropped with reason RESET, its DECODING buffer becomes FREE, and its
context enters NEED_RAP. -/
def State.dropOnCore (s : State) (k : Nat) : State :=
  let y := s.vidCore k
  match s.leadCore y.ctx, s.vidCtx y.ctx with
  | some l, some x =>
    if y.state = 0 then s
    else
      match (s.vidCore l).unit with
      | none => s
      | some u =>
        let s := s.releaseCores y.ctx
        let s := s.modBuffer y.buffer fun z => { z with decoding := 0, pic := none }
        let s := s.dropPicture y.ctx 5 u
        let s := if x.encodes then (s.dropHold u.place).modCtx y.ctx fun z => { z with units := z.units.drop 1 }
          else s.takeUnits y.ctx 1
        let s := s.modCtx y.ctx fun z => { z with needRap := true }
        if x.closing then s.endCtx y.ctx else s
  | _, _ => s

/-- Reset a video core (R426): it takes up to 1 ms, in which a second reset does nothing more. -/
def State.resetCore (s : State) (k : Nat) : State :=
  if s.now < (s.vidCore k).resetUntil then s
  else
    let s := s.dropOnCore k
    let t := s.now + Config.coreReset.val
    s.setCore k { s.vidCore k with resetUntil := t, resets := (s.now, some t) :: (s.vidCore k).resets }

end Sys2Proof.Machine
end

