-- ==== Sys2Proof/Machine/Crop.lean ====
section
/-! DEFINITION. CROP_RESIZE (R354 to R358): a box list cut out of a video frame or a tensor, resampled, coloured and written
as channel-blocked tensors. -/

namespace Sys2Proof.Machine

/-- A CROP_RESIZE breaks an operand-area rule (R113, R354). -/
def cropBad (w : HitchWord) : Bool :=
  let f := fld w 0x10 11 8
  fld w 0x10 31 12 != 0 || !(f == 0 || f == 1 || f == 5 || f == 7 || f == 8 || f == 9) || fld w 0x18 3 0 != 0 ||
    fld w 0x20 5 0 != 0 || fld w 0x30 15 0 == 0 || decide (4096 < fld w 0x30 15 0) || fld w 0x30 31 16 == 0 ||
    decide (4096 < fld w 0x30 31 16) || fld w 0x34 12 0 == 0 || decide (4096 < fld w 0x34 12 0) || fld w 0x34 31 13 != 0 ||
    fld w 0x38 5 0 != 0 || !(zeroBytes w 0x3C 0x40)

/-- The taps along one axis at a place in 1/16 pixel, with their weights, none of weight 0 (R355). -/
def tapsAt (nearest : Bool) (v : Int) : List (Int × Nat) :=
  if nearest then [((v + 8) / 16, 16)]
  else
    let i := v / 16
    let f := (v % 16).toNat
    if f = 0 then [(i, 16)] else [(i, 16 - f), (i + 1, f)]

/-- The place of output index j of n along one axis (R355). -/
def sampleAt (lo hi j n : Nat) : Int := (lo : Int) + ((2 * j + 1) * (hi - lo) / (2 * n) : Nat) - 8

/-- An index held to 0 to n − 1. -/
def clampIx (i : Int) (n : Nat) : Nat := min i.toNat (n - 1)
/-- An index lies inside 0 to n − 1. -/
def insideIx (i : Int) (n : Nat) : Bool := decide (0 ≤ i) && decide (i < n)

/-- The source of a CROP_RESIZE: a frame at a PMA with its metadata, or a tensor. -/
inductive CropSrc where
  | frame (base : Nat) (i : PicInfo)
  | noInfo
  | tensor (base h w c : Nat) (f : Fmt) (cb row plane : Nat)
  deriving DecidableEq, Repr

/-- Channels of a source (R355). -/
def CropSrc.chans (x : CropSrc) : Nat :=
  match x with
  | .frame _ _ => 3
  | .noInfo => 3
  | .tensor _ _ _ c _ _ _ _ => c

/-- Width and height of a source (R355). -/
def CropSrc.size (x : CropSrc) : Nat × Nat :=
  match x with
  | .frame _ i => (i.cropW, i.cropH)
  | .noInfo => (0, 0)
  | .tensor _ h w _ _ _ _ _ => (w, h)

/-- Bytes of a frame sample (R316). -/
def PicInfo.bytes (i : PicInfo) : Nat := if i.tenBit then 2 else 1
/-- Pitch of a frame (R316). -/
def PicInfo.pitch (i : PicInfo) : Nat := 64 * ceilDiv i.width 64 * i.bytes
/-- Offset of the chroma plane (R316). -/
def PicInfo.chroma (i : PicInfo) : Nat := i.pitch * (64 * ceilDiv i.height 64)
/-- Offset of luma sample (x, y) of a frame's crop. -/
def PicInfo.lumaAt (i : PicInfo) (x y : Nat) : Nat := (i.cropY + y) * i.pitch + (i.cropX + x) * i.bytes
/-- Offset of the Cb sample (x, y) of a frame's crop; Cr follows it. -/
def PicInfo.chromaAt (i : PicInfo) (x y : Nat) : Nat :=
  i.chroma + (i.cropY / 2 + y) * i.pitch + 2 * (i.cropX / 2 + x) * i.bytes

/-- Taps by row: the row's weight, and the PMA and weight of each sample in it. -/
abbrev Taps := List (Nat × List (Nat × Nat))

/-- The addresses of taps. -/
def tapAddrs (l : Taps) : List Nat := l.flatMap fun e => e.2.map Prod.fst

/-- The taps of a pixel in one plane, clamped, and whether a tap of non-zero weight lies outside (R355, R356). -/
def planeTaps (nearest : Bool) (sx sy : Int) (w h : Nat) (at_ : Nat → Nat → Nat) : Taps × Bool :=
  let xs := tapsAt nearest sx
  let ys := tapsAt nearest sy
  (ys.map fun y => (y.2, xs.map fun x => (at_ (clampIx x.1 w) (clampIx y.1 h), x.2)),
   xs.any (fun x => !(insideIx x.1 w)) || ys.any fun y => !(insideIx y.1 h))

/-- The taps of a pixel of a frame: luma, then chroma at half size (R355). -/
def PicInfo.taps (i : PicInfo) (base : Nat) (nearest : Bool) (sx sy : Int) :
    (Taps × Bool) × (Taps × Bool) :=
  (planeTaps nearest sx sy i.cropW i.cropH fun x y => base + i.lumaAt x y,
   planeTaps nearest (sx / 2) ((sy - 8) / 2) ((i.cropW + 1) / 2) ((i.cropH + 1) / 2) fun x y => base + i.chromaAt x y)

/-- A frame sample (R316): 8 bits, or bits [15:6] of a 16-bit word. -/
def State.sampleOf (s : State) (p at_ : Nat) (tenBit : Bool) : Nat :=
  if tenBit then s.peekPLe p at_ 2 / 64 else s.peekPLe p at_ 1

/-- The interpolated sample as FP32: the exact sum of weighted samples over 256 (R357). -/
def State.interp (s : State) (p : Nat) (tenBit : Bool) (off : Nat) (taps : Taps) : Nat :=
  let v := (taps.map fun e => e.1 * (e.2.map fun x => x.2 * s.sampleOf p (x.1 + off) tenBit).sum).sum
  (enc32 (.fin false v (-8))).1

/-- The FP32 value nearest to a ratio. -/
def ratio32 (n d : Nat) : Nat := (fdiv (cvtI2f n).1 (cvtI2f d).1).1
/-- A whole number as FP32. -/
def int32 (n : Nat) : Nat := (cvtI2f n).1

/-- The three channels of a pixel of a frame in FP32, before normalisation (R357). -/
def colour (color bd y cb cr : Nat) : List Nat :=
  let m := 2 ^ (bd - 8)
  let top := int32 (2 ^ bd - 1)
  if color = 0 then [(fdiv y top).1, (fdiv cb top).1, (fdiv cr top).1]
  else
    let full := color == 3
    let sub (v k : Nat) : Nat := (fsub v (int32 k)).1
    let y1 := if full then (fdiv y top).1 else (fdiv (sub y (16 * m)) (int32 (219 * m))).1
    let c1 (v : Nat) : Nat :=
      if full then (fdiv (sub v (2 ^ (bd - 1))) top).1 else (fdiv (sub v (128 * m)) (int32 (224 * m))).1
    let pb := c1 cb
    let pr := c1 cr
    let kr := if color = 1 then 2990 else 2126
    let kb := if color = 1 then 1140 else 722
    let k (n : Nat) : Nat := ratio32 n 10000
    let r := (fadd y1 (fmul (k (20000 - 2 * kr)) pr).1).1
    let b := (fadd y1 (fmul (k (20000 - 2 * kb)) pb).1).1
    let g := (fdiv (fsub (fsub y1 (fmul (k kr) r).1).1 (fmul (k kb) b).1).1 (k (10000 - kr - kb))).1
    [r, g, b]

/-- A weighted pair of FP32 samples: a tap of weight 0 is not fetched and adds nothing (R356, R357). -/
def weighted (l : List (Nat × Nat)) : Nat :=
  match l with
  | [] => 0
  | (v, w) :: r => r.foldl (fun a e => (fadd a (fmul e.1 (int32 e.2)).1).1) (fmul v (int32 w)).1

/-- One box entry's corners (R354). -/
def boxOf (b : List Byte) : Nat × Nat × Nat × Nat := (leAt b 0 4, leAt b 4 4, leAt b 8 4, leAt b 12 4)

/-- The taps of a pixel at (sx, sy) with the lines they read, and whether one lies outside. -/
def CropSrc.tapsOf (x : CropSrc) (nearest : Bool) (sx sy : Int) : Taps × Taps × Bool :=
  match x with
  | .frame base i =>
    let t := i.taps base nearest sx sy
    (t.1.1, t.2.1, t.1.2 || t.2.2)
  | .noInfo => ([], [], false)
  | .tensor base h w _ f cb row _ =>
    let t := planeTaps nearest sx sy w h fun xx yy => base + yy * row + xx * (cb * f.width / 8)
    (t.1, [], t.2)

/-- The values of a pixel by channel in FP32 (R357). -/
def State.pixel (s : State) (p : Nat) (x : CropSrc) (color : Nat) (mean inv : List Nat)
    (luma chroma : Taps) (free : Nat) : List Nat :=
  match x with
  | .frame _ i =>
    let bd := if i.tenBit then 10 else 8
    let v := colour color bd (s.interp p i.tenBit 0 luma) (s.interp p i.tenBit 0 chroma) (s.interp p i.tenBit i.bytes chroma)
    (upTo 3).map fun c => (fmul (fsub (v.getD c 0) (mean.getD c 0)).1 (inv.getD c 0)).1
  | .noInfo => (upTo 3).map fun c => Config.freeValue (free + c) % 2 ^ 32
  | .tensor _ _ _ n f cb _ plane =>
    (upTo n).map fun c =>
      let elem (at_ : Nat) : Nat :=
        let b := at_ + c / cb * plane + c % cb * f.width / 8
        let code := s.peekPLe p b (max 1 (f.width / 8)) / 2 ^ (c % cb * f.width % 8) % 2 ^ f.width
        (enc32 (f.decode false code)).1
      let l := luma.map fun e => (weighted (e.2.map fun x => (elem x.1, x.2)), e.1)
      (fmul (weighted l) (enc32 (.fin false 1 (-8))).1).1

/-- Write one box (R355 to R357): its pixels as codes of the output format, FILL where a tap lies outside. Elements are written
plane by plane and pixel by pixel, which is the order in which rounding numbers them (R65, log entry 72). -/
def State.cropBox (s : State) (r : Run) (x : CropSrc) (u : Upset) (par : List Byte) (i : Nat) (b : Nat × Nat × Nat × Nat) :
    Nat × State :=
  let w := r.w
  let nearest := flag w 0x10 2
  let fill := flag w 0x10 3
  let ow := fld w 0x30 15 0
  let oh := fld w 0x30 31 16
  let fo := (Fmt.ofCode (fld w 0x10 11 8)).getD .fp32
  let cb := if flag w 0x10 7 then 32 else 16
  let planes := ceilDiv x.chans cb
  let (x0, y0, x1, y1) := b
  let empty := decide (x1 < x0) || decide (y1 < y0)
  let outside := !empty && (decide (16 * x.size.1 ≤ x0) || decide (16 * x.size.2 ≤ y0))
  let fillWord := leAt par 0x30 4
  let mean := (upTo 3).map fun c => leAt par (0x18 + 4 * c) 4
  let inv := (upTo 3).map fun c => leAt par (0x24 + 4 * c) 4
  let pts := (upTo (oh * ow)).map fun k =>
    if empty then none
    else
      let t := x.tapsOf nearest (sampleAt x0 x1 (k % ow) ow) (sampleAt y0 y1 (k / ow) oh)
      if fill && t.2.2 then none else some (t.1, t.2.1)
  let size := match x with
    | .frame _ i => i.bytes
    | .noInfo => 1
    | .tensor _ _ _ _ f cbi _ _ => cbi * f.width / 8
  let extra := match x with
    | .tensor _ _ _ c _ cbi _ plane => (upTo (ceilDiv c cbi)).map fun q => q * plane
    | .frame _ _ => [0]
    | .noInfo => []
  let touched := once (pts.flatMap fun o => match o with
    | none => []
    | some (l, c) =>
      ((tapAddrs l).flatMap fun a => extra.flatMap fun q => [(a + q) / 64, (a + q + size - 1) / 64]) ++
        (tapAddrs c).flatMap fun a => [a / 64, (a + 2 * size - 1) / 64])
  let rd := (s.reachUnit (some r.die) (64 * touched.headD 0)).readLines (touched.filterMap fun l => s.mpaOf r.p (64 * l)) u.mem
  if rd.1 ≠ stOk then rd
  else
    let s := rd.2
    let free := s.fresh
    let s := if x == .noInfo then { s with fresh := s.fresh + 3 * (oh * ow) } else s
    let total := oh * ow * planes * cb
    let rs := s.rounding r (i * total) total
    let s := s.usedRandom r ((i + 1) * total)
    let cells := (upTo (oh * ow)).map fun k =>
      match pts.getD k none with
      | none => (upTo x.chans).map fun _ => fillWord
      | some (l, c) => s.pixel r.p x (fld w 0x10 5 4) mean inv l c (free + 3 * k)
    let blocks := (upTo planes).flatMap fun q => (upTo (oh * ow)).map fun k =>
      let v := cells.getD k []
      encodeRow fo (hSat w) ((upTo cb).map fun c => rs.getD ((q * (oh * ow) + k) * cb + c) .rne)
        ((upTo cb).map fun c => if q * cb + c < x.chans then dec32 (v.getD (q * cb + c) 0) else Num.zero)
    let bytes := blocks.flatMap fun e => packElems fo.width e.1
    let at_ := fld w 0x20 63 0 + i * fld w 0x38 31 0
    let wr := if flag w 0x10 6 then (stOk, s.put (regionBase r.g + at_) bytes)
      else s.storeP (some r.die) r.p at_ bytes u.mem
    if wr.1 ≠ stOk then wr
    else
      let s := wr.2.arith r.st ((blocks.map Prod.snd).foldl orBits 0)
      let s := s.cnvCount r Reg.cnvPartBoxCount 1
      let s := if empty then s.cnvCount r Reg.cnvPartBoxEmptyCount 1 else s
      (stOk, if outside then s.cnvCount r Reg.cnvPartBoxOutsideCount 1 else s)

/-- The boxes of a hitch in order: one with a coordinate at or above 2^28 ends it MALFORMED, and the boxes before it keep
their outputs (R354). -/
def State.cropBoxes (s : State) (r : Run) (x : CropSrc) (u : Upset) (par : List Byte) (i : Nat) (l : List (List Byte)) :
    Nat × Nat × State :=
  match l with
  | [] => (stOk, i, s)
  | e :: rest =>
    let b := boxOf e
    if 2 ^ 28 ≤ b.1 || 2 ^ 28 ≤ b.2.1 || 2 ^ 28 ≤ b.2.2.1 || 2 ^ 28 ≤ b.2.2.2 then (stMalformed, i, s)
    else
      let y := s.cropBox r x u par i b
      if y.1 ≠ stOk then (y.1, i, y.2) else y.2.cropBoxes r x u par (i + 1) rest

/-- The engine's busy time: 64 CLK_CTRL cycles of 1,250 ps a box and a quarter cycle a pixel (R358). -/
def State.cropBusy (s : State) (r : Run) (boxes : Nat) : State :=
  let ps := 1250 * (boxes * (64 + ceilDiv (fld r.w 0x30 15 0 * fld r.w 0x30 31 16) 4))
  let e := s.engine r.die
  let s := s.bump (Reg.cnvCrBusyUs r.die) ((e.crPs + ps) / 1000000)
  let s := s.bump (Reg.cnvPartCrBusyUs r.die r.p) ((nget e.crPartPs r.p + ps) / 1000000)
  s.modEngine r.die fun e => { e with crPs := (e.crPs + ps) % 1000000,
                                      crPartPs := nput e.crPartPs r.p ((nget e.crPartPs r.p + ps) % 1000000) }

/-- Bytes of the output of one box (R354, R357). -/
def cropBoxSize (w : HitchWord) (x : CropSrc) : Nat :=
  let cb := if flag w 0x10 7 then 32 else 16
  ceilDiv x.chans cb * (fld w 0x30 15 0 * fld w 0x30 31 16) * (cb * ((Fmt.ofCode (fld w 0x10 11 8)).getD .fp32).width / 8)

/-- Input channels per pixel block of the tensor that a parameter block gives. -/
def cropCb (par : List Byte) : Nat := if leAt par 0xF 1 = 1 then 32 else 16
/-- The format of the tensor that a parameter block gives. -/
def cropFmt (par : List Byte) : Fmt := (operandFmt (leAt par 0xE 1) false).getD .fp32

/-- The tensor that a parameter block gives (R354). -/
def cropTensor (par : List Byte) : CropSrc :=
  .tensor (leAt par 0 8) (leAt par 8 2) (leAt par 0xA 2) (leAt par 0xC 2) (cropFmt par) (cropCb par) (leAt par 0x10 4)
    (leAt par 0x14 4)

/-- The tensor of a parameter block breaks a rule (R335, R354). -/
def cropTensorBad (par : List Byte) : Bool :=
  (operandFmt (leAt par 0xE 1) false).isNone || decide (1 < leAt par 0xF 1) || leAt par 8 2 == 0 || leAt par 0xA 2 == 0 ||
    leAt par 0xC 2 == 0 || decide (4096 < leAt par 0xC 2) || leAt par 0x10 4 % 16 != 0 || leAt par 0x14 4 % 16 != 0 ||
    ((cropFmt par).width == 4 && cropCb par != 32)

/-- Bytes of the tensor of a parameter block from its address. -/
def cropTensorLen (par : List Byte) : Nat :=
  (ceilDiv (leAt par 0xC 2) (cropCb par) - 1) * leAt par 0x14 4 + (leAt par 8 2 - 1) * leAt par 0x10 4 +
    leAt par 0xA 2 * (cropCb par * (cropFmt par).width / 8)

/-- The source of a CROP_RESIZE: its tensor, or the frame that its handle names. -/
def State.cropSource (s : State) (r : Run) (par : List Byte) : CropSrc :=
  if flag r.w 0x10 0 then cropTensor par
  else
    let b := (s.frameOfHandle r.p (fld r.w 0x14 31 0)).getD 0
    match (s.buffer b).pic with
    | some i => .frame (s.bufferAt r.p b) i
    | none => .noInfo

/-- The checks of a CROP_RESIZE on its parameter block and its output (R354). -/
def State.cropStatus (s : State) (r : Run) (par : List Byte) (x : CropSrc) : Nat :=
  let w := r.w
  let size := cropBoxSize w x
  let out := fld w 0x20 63 0
  let span := (fld w 0x34 12 0 - 1) * fld w 0x38 31 0 + size
  let outOk := if flag w 0x10 6 then inRegion out span else s.pmaOk r.p out span
  if (flag w 0x10 0 && cropTensorBad par) || leAt par 0x34 12 != 0 || decide (fld w 0x38 31 0 < size) then stMalformed
  else if !outOk || (flag w 0x10 0 && !(s.pmaOk r.p (leAt par 0 8) (cropTensorLen par))) then stAddrInvalid
  else stOk

/-- A CROP_RESIZE of a frame holds it while it runs (R333, R358). -/
def State.cropHold (s : State) (r : Run) : State :=
  match s.frameOfHandle r.p (fld r.w 0x14 31 0) with
  | some b =>
    if flag r.w 0x10 0 then s else s.modBuffer b fun y => { y with transient := y.transient ++ [(r.st, r.e.id)] }
  | none => s

/-- A CROP_RESIZE that ended well releases its frame at the commit, where it asks for that (R358). -/
def State.cropRelease (s : State) (r : Run) : State :=
  if flag r.w 0x10 1 && !(flag r.w 0x10 0) then
    s.modStep r.p fun z => { z with releases := z.releases ++ [fld r.w 0x14 31 0 + 2 ^ 32 * r.die] }
  else s

/-- The effect of a CROP_RESIZE (R354 to R358). A frame in a buffer whose size nothing gives has free samples (log entry
40). The mirror copy of a pair carries none out (R447). -/
def State.cropBody (s : State) (r : Run) (u : Upset) : Nat × Nat × State :=
  let w := r.w
  if s.mirror r then (stOk, 0, s)
  else if !(flag w 0x10 0) && (s.frameOfHandle r.p (fld w 0x14 31 0)).isNone then (stFrameStale, 0, s)
  else
    let pr := (s.cropHold r).fetchP (some r.die) r.p (fld w 0x28 63 0) 64 u.mem
    if pr.1 ≠ stOk then (pr.1, 0, pr.2.2)
    else
      let x := pr.2.2.cropSource r pr.2.1
      let st := pr.2.2.cropStatus r pr.2.1 x
      if st ≠ stOk then (st, 0, pr.2.2)
      else
        let n := fld w 0x34 12 0
        let bl := pr.2.2.fetchP (some r.die) r.p (fld w 0x18 63 0) (16 * n) u.mem
        if bl.1 ≠ stOk then (bl.1, 0, bl.2.2)
        else
          let rs := bl.2.2.residueUpset r.st u
          if rs.1 ≠ stOk then (rs.1, 0, rs.2)
          else
            let y := rs.2.cropBoxes r x u pr.2.1 0 ((upTo n).map fun i => slice bl.2.1 (16 * i) 16)
            let s := y.2.2.cropBusy r y.2.1
            (y.1, 0, if y.1 = stOk then s.cropRelease r else s)

/-- CROP_RESIZE (R354). -/
def execCropResize (st : Fin 128) (u : Upset) (s : State) : Host.Outcome State Fault Refusal :=
  .next (s.runHitch st.val 0x22 (fun _ => true) u (fun _ _ => []) fun r s => s.cropBody r u)

/-- The commit releases of a step (R333, R358): each drops one hold, and one that finds none is counted. -/
def State.commitReleases (s : State) (p : Nat) : State :=
  foldS (fun s h => match s.frameOfHandle p (h % 2 ^ 32) with
    | some b => s.dropHold b
    | none => s.inc (Reg.cnvPartStaleReleaseCount (h / 2 ^ 32) p)) s (s.step p).releases

/-- The transient hold of a CROP_RESIZE ends when its hitch completes, which the engine counts (R358, R359). -/
def State.cropComplete (s : State) (st id : Nat) (w : HitchWord) : State :=
  if hOpcode w ≠ 0x22 then s
  else
    let s := s.inc (Reg.cnvCrHitchCount (st / 32))
    foldS (fun s (e : Nat × Buffer) =>
      if e.2.transient.contains (st, id) then s.modBuffer e.1 fun y => { y with transient := y.transient.erase (st, id) } else s)
      s s.video.buffers

end Sys2Proof.Machine
end

