-- ==== Sys2Proof/Machine/Fairlead.lean ====
section
/-! DEFINITION. Fairlead arbitration (chapter 6): slot tables, owner, background and idle-only grants, preemption, back-off,
masking and starvation. A cycle is one of CLK_CTRL, 1.25 ns, counted from module time 0 (R175, R176). -/

namespace Sys2Proof.Machine

/-! Points and tables (R175, R176, R179) -/

/-- The table of a point of an instance, numbered in the order of R175. -/
def tableOf (f pt : Nat) : Nat :=
  if f < 4 then (if pt < 32 then 0 else if pt = 32 then 1 else 2)
  else if pt < 12 then 0 else if pt < 16 then 1 else 2
/-- The place of a point within its table. -/
def pointIn (f pt : Nat) : Nat :=
  if f < 4 then (if pt < 32 then pt else 0) else if pt < 12 then pt else if pt < 16 then pt - 12 else pt - 16
/-- The slot length of a table in cycles. -/
def slotLen (f t : Nat) : Nat := if t = 0 then 64 else if t = 1 then 4 else if f < 4 then 4 else 80
/-- The period of a table in cycles. -/
def tablePeriod (f t : Nat) : Nat := 256 * slotLen f t
/-- The domain of a point. -/
def pointDom (f pt : Nat) : Nat :=
  if f < 4 then (if pt < 32 then 11 * f + 8 + pt / 16 else if pt = 32 then 11 * f + 10 else 11 * f + 4)
  else if pt < 12 then 61 + pt / 6 else if pt < 16 then 11 * (pt - 12) + 10 else 54 + (pt - 16) / 3
/-- Nanoseconds of a number of cycles. -/
def cycleNs (c : Nat) : Nat := c * 5 / 4
/-- The cycle of the present instant. -/
def State.cycle (s : State) : Nat := s.now * 4 / 5

def State.fld (s : State) (f : Nat) : FldInst := mgetD s.fairlead f FldInst.empty
def State.modFld (s : State) (f : Nat) (g : FldInst → FldInst) : State :=
  { s with fairlead := mput s.fairlead f (g (s.fld f)) }
def State.point (s : State) (f pt : Nat) : Point := mgetD (s.fld f).points pt Point.empty
def State.setPoint (s : State) (f pt : Nat) (x : Point) : State :=
  s.modFld f fun i => { i with points := mput i.points pt x }

/-- The cycles that a transfer of some bytes takes at a point (R175, R177): its share of the bytes a slot carries. -/
def transferCycles (f t n : Nat) : Nat :=
  let (bytes, cycles) :=
    if t = 1 then (6000, 4) else if f < 4 then (if t = 0 then (6000, 64) else (12800, 4))
    else if t = 0 then (16000, 192) else (5000, 80)
  (n * cycles + bytes - 1) / bytes

/-- The owner of the slot that holds a cycle (R179): a slot of a partition that does not exist acts as OPEN (R491). A cycle
before the last change of the table is in a slot of the table before it. -/
def State.slotOwner (s : State) (f t c : Nat) : Nat :=
  let len := slotLen f t
  let i := c / len % 256
  let x := s.fld f
  let now :=
    if c < mgetD x.switched t 0 then mgetD x.prev (256 * t + i) 31 else mgetD x.tables (256 * t + i) 31
  let e := match mget x.waiting t with
    | some (eff, es) => if eff ≤ c / len * len then es.getD i 31 else now
    | none => now
  if e < 16 then (if s.exists_ e then e else 31) else if e = 16 then 16 else 31

/-- The end of the run of an owner's slots from a slot start on (R179), within n slots. -/
def State.runEnd (n : Nat) (s : State) (f t p start : Nat) : Nat :=
  match n with
  | 0 => start
  | k + 1 => if s.slotOwner f t start = p then State.runEnd k s f t p (start + slotLen f t) else start

/-- The start of an owner's next slot at or after a slot start, within n slots. -/
def State.nextSlot (n : Nat) (s : State) (f t p start : Nat) : Option Nat :=
  match n with
  | 0 => none
  | k + 1 => if s.slotOwner f t start = p then some start else State.nextSlot k s f t p (start + slotLen f t)

/-- The cycle in which an owner request raised in cycle c is granted (R183). -/
def State.dueAt (s : State) (f t p c cycles : Nat) : Option Nat :=
  let slot := c / slotLen f t * slotLen f t
  let stop := State.runEnd 512 s f t p slot
  if c + 2 + cycles ≤ stop then some (c + 2)
  else (State.nextSlot 512 s f t p (max stop (slot + slotLen f t))).map fun n => n + 2

/-- The value in force at a slot boundary of a register whose last commits are given, newest first, each with its cycle and
the value before it: a commit acts from the first boundary after its cycle (R194), and one that a later commit overtakes before
then never acts (R425). -/
def atBoundary (v : Nat) (old : List (Nat × Nat)) (boundary : Nat) : Nat :=
  match old with
  | [] => v
  | (c, before) :: r => if c < boundary then v else atBoundary before r boundary
/-- FLD_CTRL in force at a cycle of a table (R194). -/
def State.fldCtrl (s : State) (f t c : Nat) : Nat :=
  atBoundary (s.reg (Reg.fldCtrl f)) (s.fld f).oldCtrl (c / slotLen f t * slotLen f t)
/-- FLD_BG_ENABLE in force at a cycle of a table. -/
def State.fldBg (s : State) (f t c : Nat) : Nat :=
  atBoundary (s.reg (Reg.fldBgEnable f)) (s.fld f).oldBg (c / slotLen f t * slotLen f t)
/-- The commits worth keeping at a cycle: every slot under way began less than 80 cycles before. -/
def keepCommits (c : Nat) : List (Nat × Nat) → List (Nat × Nat)
  | [] => []
  | e :: r => if e.1 + 80 ≤ c then [e] else e :: keepCommits c r

/-! Gaps (R180, R192, R193) -/

/-- The slots that an owner holds in a table, ascending. -/
def slotsOf (es : List Nat) (p : Nat) : List Nat := (upTo 256).filter fun i => es.getD i 31 == p
/-- The largest distance between starts in a rising list. -/
def largestGap : List Nat → Nat
  | a :: b :: r => max (b - a) (largestGap (b :: r))
  | _ => 0
/-- The gap of an owner: none without a slot. -/
def gapOf (es : List Nat) (p : Nat) : Option Nat :=
  match slotsOf es p with
  | [] => none
  | a :: r => some (largestGap (a :: r ++ [a + 256]))
/-- The gap of an owner that spans a change from one table to another. -/
def spanGap (old new : List Nat) (p : Nat) : Option Nat :=
  match (slotsOf old p).getLast?, (slotsOf new p).head? with
  | some a, some b => some (256 - a + b)
  | _, _ => none
/-- The wait bound of a gap. -/
def waitBound (f t gap : Nat) : Nat := gap * slotLen f t + 2
/-- The entries of a table in a map of tables. -/
def tableSlots (m : Map Nat) (t : Nat) : List Nat := (upTo 256).map fun i => mgetD m (256 * t + i) 31

/-- The starvation limit of an owner (R192): its wait bound, or that of the gap across the change of table when its wait began
before the change; FLD_STARVE_THRESH without a slot. -/
def State.starveLimit (s : State) (f t p since : Nat) : Nat :=
  let x := s.fld f
  let cur := tableSlots x.tables t
  let base := match gapOf cur p with
    | some g => waitBound f t g
    | none => s.reg (Reg.fldStarveThresh f)
  match mget x.switched t with
  | some at_ =>
    match spanGap (tableSlots x.prev t) cur p with
    | some g => if since < at_ then waitBound f t g else base
    | none => base
  | none => base

/-! Masks (R190) -/

/-- The CLK_CTRL cycle of a time in ns. -/
def cycleOf (ns : Nat) : Nat := ns * 4 / 5

/-- When a resettable function has been in reset (R426). -/
def State.resetSpans (s : State) (kind index : Nat) : Spans :=
  match kind with
  | 1 => (s.part index).resets
  | 2 => match mget s.video.cores index with | some c => c.resets | none => []
  | 3 => (s.engine index).crResets
  | 4 => (s.engine index).resets
  | _ => []
/-- When a requester has been masked (R190): its domain not on, or its function in reset. -/
def State.maskSpans (s : State) (src : Option Nat × Option (Nat × Nat)) : List Spans :=
  (match src.1 with | some d => [(s.dom d).offSpans] | none => []) ++
    (match src.2 with | some (k, i) => [s.resetSpans k i] | none => [])
/-- A requester may request from the cycle after its mask is removed. -/
def State.isMasked (s : State) (src : Option Nat × Option (Nat × Nat)) (c : Nat) : Bool :=
  (s.maskSpans src).any fun m => m.any fun e =>
    decide (cycleOf e.1 ≤ c) && (match e.2 with | some b => decide (c ≤ cycleOf b) | none => true)
/-- The least of some numbers. -/
def least (l : List Nat) : Option Nat := match l with | [] => none | a :: r => some (r.foldl min a)
/-- The first cycle from one to another in which a mask of a requester is seen. -/
def State.maskedIn (s : State) (src : Option Nat × Option (Nat × Nat)) (lo hi : Nat) : Option Nat :=
  least (((s.maskSpans src).map fun m => (m.map fun e => cycleOf e.1).filter fun c => decide (lo ≤ c ∧ c ≤ hi)).flatten)
/-- A point whose own domain is on (R191). -/
def State.pointOn (s : State) (f pt : Nat) : Bool := (s.dom (pointDom f pt)).state == .on
/-- The cycles from lo to hi in which a domain was not on. -/
def State.offCycles (s : State) (n lo hi : Nat) : Nat :=
  (s.dom n).offSpans.foldl (fun k e =>
    k + (min hi (match e.2 with | some b => cycleOf b | none => hi) - max lo (cycleOf e.1))) 0

/-! What happens at a point between its commands (R186 to R192) -/

/-- The pending requests of a point: not those of the requester that holds it. -/
def Point.pending (x : Point) : List Request :=
  x.requests.filter fun r => match x.grant with | some g => g.requester != r.requester | none => true
/-- The cycle from which the wait of an owner request counts: its raise, the end of its owner's last grant, or the cycle in
which the point's domain came on. -/
def State.raisedAt (s : State) (f pt : Nat) (x : Point) (r : Request) : Nat :=
  max (max r.raised (nget x.freed r.owner)) (cycleOf (s.dom (pointDom f pt)).since)
/-- The cycle in which an owner request is due (R183), none for an idle-only one or one without slots. -/
def State.due (s : State) (f pt : Nat) (x : Point) (r : Request) : Option Nat :=
  if r.idleOnly then none else s.dueAt f (tableOf f pt) r.owner (s.raisedAt f pt x r) r.cycles

/-- A grant that does not take place after all (R187): what it changed is given back. -/
def Point.withdraw (x : Point) (g : Grant) : Point :=
  { x with
    grant := none
    lastOwner := mput x.lastOwner g.owner g.before.1
    lastBack := g.before.2.1
    starve := mput x.starve g.owner g.before.2.2.1
    starved := if g.before.2.2.2 then g.owner :: x.starved else x.starved }

/-- A requester is masked in a cycle (R190): its request and its losses go, and a grant it holds ends; one given in that very
cycle does not take place (R187). -/
def Point.mask (x : Point) (q c : Nat) : Point :=
  let x := match x.grant with
    | some g =>
      if g.requester != q then x
      else if g.start = c then x.withdraw g
      else { x with grant := none, freed := mput x.freed g.owner c }
    | none => x
  { x with
    requests := x.requests.filter fun r => r.requester != q
    losses := mdel x.losses q
    backoff := mdel x.backoff q }

/-- Whether a mask of a requester changes anything at a point. -/
def Point.concerns (x : Point) (q : Nat) : Bool :=
  (x.requests.any fun r => r.requester == q) || (mget x.losses q).isSome ||
    (match x.grant with | some g => g.requester == q | none => false)

/-- The first thing that happens at a point by itself from its last cycle to another: the mask of a requester (R190), or the
abort of its holder in the cycle before an owner request is due (R186). -/
def State.nextAt (s : State) (f pt c : Nat) : Option (Nat × Option Nat) :=
  let x := s.point f pt
  let t := tableOf f pt
  let masks := x.sources.filterMap fun e =>
    if x.concerns e.1 then (s.maskedIn e.2 x.counted c).map fun m => (m, some e.1) else none
  let aborts := match x.grant with
    | none => []
    | some g => x.pending.filterMap fun r =>
      match s.due f pt x r with
      | some d =>
        if decide (g.start < d ∧ d ≤ c + 1) && s.slotOwner f t d == r.owner && (g.background || g.owner != r.owner)
        then some (d - 1, none) else none
      | none => none
  (masks ++ aborts).foldl (fun a e => match a with
    | none => some e
    | some b => if e.1 < b.1 then some e else some b) none

/-- Run the starvation counts of a point on to a cycle (R191, R192): an owner with a request pending counts while none of its
requesters holds a grant, except while the point's domain is not on. -/
def State.runCounts (s : State) (f pt c : Nat) : State :=
  let x := s.point f pt
  let d := (c - x.counted) - s.offCycles (pointDom f pt) x.counted c
  let owners := (upTo 17).filter fun p => decide (0 < d) && (x.pending.any fun r => r.owner == p) &&
    (match x.grant with | some g => g.owner != p | none => true)
  let y := { x with
    starve := foldS (fun m p => mput m p (nget m p + d)) x.starve owners
    starveFrom := foldS (fun m p => if nget x.starve p = 0 then mput m p x.counted else m) x.starveFrom owners
    counted := max c x.counted }
  foldS (fun s p => if p < 16 then s.raiseReg (Reg.fldPartMaxWaitUs f p) (usUp (cycleNs (nget y.starve p))) else s)
    (s.setPoint f pt y) owners

/-- An owner request preempts the holder of a point in a cycle (R186, R188): the holder drops in the next cycle, in back-off,
and its transfer is to restart. -/
def State.preemptHolder (s : State) (f pt c : Nat) : State :=
  let x := s.point f pt
  match x.grant with
  | none => s
  | some g =>
    let n := nget x.losses g.requester + 1
    let x := { x with
      grant := none
      losses := mput x.losses g.requester n
      backoff := mput x.backoff g.requester (c + 1 + min (8 * 2 ^ (n - 1)) 8192)
      requests := x.requests.map fun r => if r.requester == g.requester then { r with raised := c + 1 } else r }
    let s := s.setPoint f pt x
    if g.owner < 16 then s.inc (Reg.fldPartPreemptCount f g.owner) else s

/-- Bring a point up to a cycle, through at most n masks and aborts (R186, R190, R192). -/
def State.refreshN (n : Nat) (s : State) (f pt c : Nat) : State :=
  match n with
  | 0 => s.runCounts f pt c
  | k + 1 =>
    match s.nextAt f pt c with
    | none => s.runCounts f pt c
    | some (at_, some q) =>
      let s := s.runCounts f pt at_
      State.refreshN k (s.setPoint f pt ((s.point f pt).mask q at_)) f pt c
    | some (at_, none) => State.refreshN k ((s.runCounts f pt at_).preemptHolder f pt at_) f pt c
/-- Bring a point up to a cycle. -/
def State.refresh (s : State) (f pt c : Nat) : State := State.refreshN ((s.point f pt).sources.length + 1) s f pt c

/-! Requests and grants (R177, R178, R182 to R188) -/

/-- The first of some requesters in the fixed order after the last one granted. -/
def roundRobin (last : Nat) (l : List Nat) : Option Nat :=
  match least (l.filter fun q => decide (last < q)) with
  | some q => some q
  | none => least l

/-- The owner of a transfer, and whether it is idle-only (R178, R182): the patrol and retirement of a line are its owner's, and
idle-only on module and FREE lines; a packet is that of the local partition it comes from, else the module's (R380). -/
def State.trafficOwner (s : State) (t : Traffic) : Nat × Bool :=
  let line (mpa : Nat) : Nat × Bool := let o := s.ownerAt mpa; if o < 16 then (o, false) else (16, true)
  match t with
  | .work p => (p.val, false)
  | .prefetch p => (p.val, false)
  | .tagLine p => (p.val, false)
  | .patrol mpa => line mpa
  | .retire mpa => line mpa
  | .whip p => (p.val, false)
  | .packet pk =>
    if pk.srcModule == s.self && decide (pk.srcPart < 16) && pk.ptype == 1 then (pk.srcPart, false) else (16, false)
  | .module => (16, false)

/-- The owner requests of a point due in a cycle. -/
def State.dueNow (s : State) (f pt c : Nat) (x : Point) : List Request :=
  let p := s.slotOwner f (tableOf f pt) c
  if p = 31 || x.grant.isSome then []
  else x.pending.filter fun r => r.owner == p && s.due f pt x r == some c

/-- The requests of a point that may be granted in the background in a cycle (R182, R184, R188). -/
def State.backNow (s : State) (f pt c : Nat) (x : Point) : List Request :=
  let t := tableOf f pt
  let p := s.slotOwner f t c
  let pending := x.pending
  let stop := (c / slotLen f t + 1) * slotLen f t
  let fits (r : Request) : Bool := decide (c + r.cycles ≤ stop)
  if x.grant.isSome || (pending.any fun r => r.owner == p && !r.idleOnly) then []
  else
    let l := pending.filter fun r => !r.idleOnly && fits r && decide (nget x.backoff r.requester ≤ c) &&
      (r.owner == 16 || bit (s.fldBg f t c) r.owner)
    if (pending.any fun r => !r.idleOnly) then l
    else pending.filter fun r => fits r && decide (nget x.backoff r.requester ≤ c)

/-- Give the point to a request: the starvation count of its owner restarts (R192). -/
def State.giveGrant (s : State) (f pt c : Nat) (r : Request) (background : Bool) : State :=
  let x := s.point f pt
  s.setPoint f pt { x with
    grant := some { requester := r.requester, owner := r.owner, background := background, start := c, finish := c + r.cycles,
                    before := (nget x.lastOwner r.owner, x.lastBack, nget x.starve r.owner, x.starved.contains r.owner) }
    lastOwner := if background then x.lastOwner else mput x.lastOwner r.owner r.requester
    lastBack := if background && !r.idleOnly then r.requester else x.lastBack
    starve := mdel x.starve r.owner
    starved := x.starved.filter fun p => p != r.owner }

/-- FAIRLEAD_REQUEST (R177, R178, R182): a requester raises a transfer; one that is masked is not seen (R190). A point whose
domain is not on wakes for it (R536), and a background grant of the same cycle yields to a request of the slot's owner
(R187). -/
def execFairleadRequest (at_ : FPoint) (r : FReq) (cycle : Nat) (s : State) : Host.Outcome State Fault Refusal :=
  let f := at_.inst.val
  let pt := at_.point
  let t := tableOf f pt
  let s := s.tick (cycleNs cycle)
  let src := (r.dom.map fun d => d.val, r.func)
  .next (
    if 34 ≤ pt ∨ r.bytes = 0 ∨ 4096 < r.bytes then s
    else
      let s := (s.refresh f pt cycle).reach (pointDom f pt) (match r.dom with | some d => 0x80 + d.val | none => 0xC1)
      let x := s.point f pt
      if s.isMasked src cycle || x.requests.any fun q => q.requester == r.requester then s
      else
        let (owner, idle) := s.trafficOwner r.traffic
        let x := match x.grant with
          | some g =>
            if g.background && g.start == cycle && !idle && s.slotOwner f t cycle == owner then x.withdraw g else x
          | none => x
        s.setPoint f pt { x with
          sources := mput x.sources r.requester src
          requests := x.requests ++
            [{ requester := r.requester, owner := owner, cycles := transferCycles f t r.bytes, raised := cycle,
               idleOnly := idle }] })

/-- FAIRLEAD_GRANT (R182 to R187). -/
def execFairleadGrant (at_ : FPoint) (requester cycle : Nat) (s : State) : Host.Outcome State Fault Refusal :=
  let f := at_.inst.val
  let pt := at_.point
  let s := s.tick (cycleNs cycle)
  .next (
    if 34 ≤ pt ∨ s.pointOn f pt = false then s
    else
      let s := s.refresh f pt cycle
      let x := s.point f pt
      let due := s.dueNow f pt cycle x
      let p := s.slotOwner f (tableOf f pt) cycle
      let pick (l : List Request) (last : Nat) : Option Request :=
        match roundRobin last (l.map fun r => r.requester) with
        | some q => if q == requester then l.find? fun r => r.requester == q else none
        | none => none
      if !due.isEmpty then
        match pick due (nget x.lastOwner p) with
        | some r => s.giveGrant f pt cycle r false
        | none => s
      else
        match pick (s.backNow f pt cycle x) x.lastBack with
        | some r => s.giveGrant f pt cycle r true
        | none => s)

/-- TRANSFER_DONE (R185, R188): the requester drops its request, or goes on with a further transfer while the point's rules
still allow it. -/
def execTransferDone (at_ : FPoint) (requester : Nat) (more : Option Nat) (cycle : Nat) (s : State) :
    Host.Outcome State Fault Refusal :=
  let f := at_.inst.val
  let pt := at_.point
  let t := tableOf f pt
  let s := (s.tick (cycleNs cycle)).refresh f pt cycle
  let x := s.point f pt
  .next (
    match x.grant with
    | none => s
    | some g =>
      if g.requester != requester || decide (cycle < g.finish) then s
      else
        let x := { x with losses := mdel x.losses requester }
        let slot := cycle / slotLen f t * slotLen f t
        match more with
        | none => s.setPoint f pt { x with
            grant := none, freed := mput x.freed g.owner cycle,
            requests := x.requests.filter fun r => r.requester != requester }
        | some bytes =>
          let n := transferCycles f t bytes
          let goes :=
            if g.background then decide (cycle + n ≤ slot + slotLen f t)
            else g.owner == s.slotOwner f t cycle && decide (cycle + n ≤ State.runEnd 512 s f t g.owner slot)
          let rs := x.requests.map fun r => if r.requester == requester then { r with cycles := n, raised := cycle } else r
          if goes && decide (0 < bytes ∧ bytes ≤ 4096) then
            s.setPoint f pt { x with requests := rs, grant := some { g with start := cycle, finish := cycle + n } }
          else s.setPoint f pt { x with requests := rs, grant := none, freed := mput x.freed g.owner cycle })

/-- BACKOFF_END (R188). -/
def execBackoffEnd (at_ : FPoint) (requester cycle : Nat) (s : State) : Host.Outcome State Fault Refusal :=
  let f := at_.inst.val
  let s := (s.tick (cycleNs cycle)).refresh f at_.point cycle
  let x := s.point f at_.point
  .next (
    if cycle < nget x.backoff requester then s
    else s.setPoint f at_.point { x with backoff := mdel x.backoff requester })

/-- STARVATION (R192, R287). -/
def execStarvation (at_ : FPoint) (owner cycle : Nat) (s : State) : Host.Outcome State Fault Refusal :=
  let f := at_.inst.val
  let pt := at_.point
  let t := tableOf f pt
  let s := (s.tick (cycleNs cycle)).refresh f pt cycle
  let x := s.point f pt
  let ctrl := s.fldCtrl f t cycle
  .next (
    if 16 < owner ∨ nget x.starve owner ≤ s.starveLimit f t owner (nget x.starveFrom owner) ∨ x.starved.contains owner = true ∨
        bit ctrl 0 = false then s
    else
      let s := s.setPoint f pt { x with starved := owner :: x.starved }
      let s := s.setFlags (Reg.fldStarveFlags f) (2 ^ owner)
      let loc := 0x2000 + 256 * pointIn f pt + 16 * t
      let old := s.reg (Reg.fldStarveLoc f)
      let keep := (s.fld f).locAt == some cycle && decide (bits old 5 4 * 32 + bits old 12 8 ≤ t * 32 + pointIn f pt)
      let s := if keep then s else (s.setReg (Reg.fldStarveLoc f) loc).modFld f fun i => { i with locAt := some cycle }
      let s := if owner < 16 then
          (s.inc (Reg.fldPartStarveCount f owner)).boundMiss owner
        else s
      if !(bit ctrl 1) then s
      else
        let s := s.eventC 2 stOk owner (toLe 4 f ++ toLe 4 loc)
        let r := s.record 9 (if owner < 16 then some owner else none)
        s.fsr { r with wher := (if f < 4 then [(0, f)] else []) ++ [(7, 32 * t + pointIn f pt)] })

/-! Tables (R181, R193, R194) -/

/-- Put a table into the registers of an instance, to take effect at the next start of its slot 0 after the present
cycle. -/
def State.putTable (s : State) (f t : Nat) (es : List Nat) : State :=
  let s := foldS (fun s n => s.setReg (Reg.fldSlot f t n) (leAt (es.map fun e => BitVec.ofNat 8 e) (4 * n) 4)) s (upTo 64)
  let eff := (s.cycle / tablePeriod f t + 1) * tablePeriod f t
  s.modFld f fun x => { x with waiting := mput x.waiting t (eff, es) }

/-- SLOT_TABLE_SWITCH (R194). -/
def execSlotTableSwitch (inst : Fin 5) (table : Fin 3) (cycle : Nat) (s : State) : Host.Outcome State Fault Refusal :=
  let f := inst.val
  let t := table.val
  let s := s.tick (cycleNs cycle)
  .next (
    match mget (s.fld f).waiting t with
    | none => s
    | some (eff, es) =>
      if cycle < eff then s
      else
        let s := s.modFld f fun x => { x with
          tables := foldS (fun m i => let e := es.getD i 31; if e = 31 then mdel m (256 * t + i) else mput m (256 * t + i) e)
            x.tables (upTo 256)
          prev := foldS (fun m i => let e := mgetD x.tables (256 * t + i) 31; if e = 31 then mdel m (256 * t + i) else mput m (256 * t + i) e)
            x.prev (upTo 256)
          switched := mput x.switched t eff
          waiting := mdel x.waiting t }
        let g := s.reg (Reg.fldTableGen f)
        let b := g / 2 ^ (8 * t) % 256
        s.setReg (Reg.fldTableGen f) (g - b * 2 ^ (8 * t) + (b + 1) % 256 * 2 ^ (8 * t)))

/-- The equal-share table of the partitions that exist (R181). -/
def equalShares (qs : List Nat) : List Nat :=
  let n := qs.length
  (upTo 256).map fun i => if n ≠ 0 ∧ i < n * (256 / n) then qs.getD (i % n) 31 else 31

/-- Every table in equal shares (R181, R475). -/
def State.shareTables (s : State) : State :=
  let es := equalShares ((upTo 16).filter fun p => s.exists_ p)
  foldS (fun s f => foldS (fun s t => s.putTable f t es) s (upTo 3)) s (upTo 5)

/-- Whether a candidate table group of an instance may be committed (R193). -/
def State.tablesOk (s : State) (f thresh : Nat) (tables : List (List Nat)) : Bool :=
  let live := (upTo 16).filter fun p => s.exists_ p
  (upTo 3).all fun t =>
    let es := tables.getD t []
    (es.all fun e => decide (e = 16 ∨ e = 31) || live.contains e) &&
      (live.all fun p => es.contains p) &&
      ((16 :: live).all fun p =>
        let bound (g : Option Nat) : Bool := match g with | some g => decide (waitBound f t g ≤ thresh) | none => true
        bound (gapOf es p) && bound (spanGap (tableSlots (s.fld f).tables t) es p))

/-- A write of FLD_CTRL, which takes effect at the next slot boundary of each point (R194). -/
def State.fldCtrlWrite (s : State) (f v : Nat) : State :=
  let old := s.reg (Reg.fldCtrl f)
  let c := s.cycle
  (s.setReg (Reg.fldCtrl f) (v % 4)).modFld f fun x => { x with oldCtrl := (c, old) :: keepCommits c x.oldCtrl }
/-- A write of FLD_BG_ENABLE. -/
def State.fldBgWrite (s : State) (f v : Nat) : State :=
  let old := s.reg (Reg.fldBgEnable f)
  let c := s.cycle
  (s.setReg (Reg.fldBgEnable f) (v % 65536)).modFld f fun x => { x with oldBg := (c, old) :: keepCommits c x.oldBg }

end Sys2Proof.Machine
end

