-- ==== Sys2Proof/Machine/Whip.lean ====
section
/-! DEFINITION. Whipping (R491): what a destroyed partition leaves, from its stop to the one-time-key overwrite, and the
zeroing that follows the overwrite. -/

namespace Sys2Proof.Machine

/-- Remove the entries of a map whose key a test accepts. -/
def mcut {α : Type} (m : Map α) (f : Nat → Bool) : Map α := m.filter fun e => !(f e.1)

/-- Every register that a partition sees returns to its reset value (R475), but for its bight regions (R258). -/
def State.clearPartRegs (s : State) (p : Nat) : State :=
  let region (a : Nat) : Bool := (upTo 4).any fun d => a == Reg.kvpPartBightRegion d p
  { s with
    snaps := mcut s.snaps fun a => decide (2 ^ 26 ≤ a) && (match regAt (a - 2 ^ 26) with
      | some (_, ix) => ix.getD 1 16 == p
      | none => false)
    serve := { s.serve with
      heldAccounts := mcut s.serve.heldAccounts fun k => k / 2 ^ 20 == p
      heldReels := mcut s.serve.heldReels fun k => k / 2 ^ 20 == p }
    regs := s.regs.filter fun e =>
      region e.1 ||
        match regAt e.1 with
        | some (r, ix) =>
          match r.vis with
          | .commander => true
          | .any => true
          | .strand => !((s.part p).hanks.contains (ix.headD 0 / 8))
          | .hank => !((s.part p).hanks.contains (ix.headD 0))
          | .part => ix.headD 16 != p
          | .partDie => ix.getD 1 16 != p
        | none => true }

/-- The granules of a partition, by unit. -/
def State.allGranules (s : State) (p : Nat) : List (Nat × Nat) :=
  (upTo 20).flatMap fun u => (s.granules p u).map fun k => (u, k)

/-- The domains that hold a partition's granules wake for a write of all their lines (R23, R493). -/
def State.wakeMemory (s : State) (p : Nat) : State :=
  foldS (fun s u => if s.granuleCount p u = 0 then s else s.reach (unitDom u) 0xC1) s (upTo 20)

/-- Every line and tag line of a partition's granules is written: no byte of them keeps an earlier value or error, and a queued
write-back of one is cancelled (R158, R159, R475, R491). -/
def State.overwrite (s : State) (p : Nat) : State :=
  foldS (fun s (g : Nat × Nat) =>
    let lo := unitBase g.1 + g.2 * granule
    let tags := (unitBase g.1 + usable g.1) / 64 + g.2 * (granule / 1024)
    let gone (l : Nat) : Bool := decide (lo / 64 ≤ l ∧ l < (lo + granule) / 64 ∨ tags ≤ l ∧ l < tags + granule / 1024)
    (s.wipe lo granule).modUnit g.1 fun x =>
      { x with bad := mcut x.bad gone, writebacks := x.writebacks.filter fun l => !(gone l) }) s (s.allGranules p)

/-- Drop every reference, hold and context of a partition's pool (R491). -/
def State.dropPool (s : State) (p : Nat) : State :=
  let r := s.bufRange p
  let mine (b : Nat) : Bool := decide (r.1 ≤ b ∧ b < r.1 + r.2)
  { s with video := { s.video with
      ctxs := s.video.ctxs.filter fun e => e.2.part != p
      buffers := s.video.buffers.map fun e =>
        if mine e.1 then (e.1, { e.2 with ref := 0, holds := 0, charged := none, transient := [] }) else e } }

/-- Whipping begins once the partition's step has stopped (R491): its session and keys end, and its memory is unreachable
until it has been overwritten. -/
def State.startWhip (s : State) (p : Nat) : State :=
  let s := foldS (fun s c => s.reply c.1 c.2 stWhipping []) s (s.part p).resetCmds
  let g := s.security.gen + 1
  let s := s.modPart p fun x => { x with state := .whipping, gen := g, whipStart := s.now, resetCmds := [], txKey := none }
  let s := { s with security := { s.security with gen := g } }.partStateEvent p
  let s := { s with
    sessions := mmod s.sessions (16 + p) fun (x : Session) =>
      { x with former := true, queue := [], replies := [], events := [], shadow := [], latches := [], report := [], via := [] }
    ecron := { s.ecron with bulk := s.ecron.bulk.filter fun e => e.2.packet.srcPart != p }
    kv := { s.kv with
      ships := s.kv.ships.filter fun e => e.2.part != p
      inbound := s.kv.inbound.filter fun x => x.part != p }
    security := { s.security with
      jobKeys := s.security.jobKeys.filter fun e => e.2.1 != p
      openings := mdel s.security.openings (16 + p)
      slots := (s.security.slots.filter fun k => k != p && k != 17) ++ [17] }
    owners := s.owners.map fun (e : Nat × Nat) => if e.2 % 32 == p then (e.1, e.2 % 32 + 32) else e }
  (s.dropPool p).wakeMemory p

/-- A hank after its partition is gone: what the thermal and ageing controllers and the loader keep of it stays. -/
def Hank.cleared (h : Hank) : Hank :=
  { h with pos := [], onPlace := [], descRead := false, scratchLive := false, progAct := 0, place := [], emitted := 7, backNs := 0, atnPart := 0, heldSince := none, gatedSince := none, seeds := [],
           seedAddr := 0, seedsRead := false }

/-- Zero the hanks of a partition (R491). -/
def State.zeroHanks (s : State) (p : Nat) : State :=
  let s := s.clearKnots p
  let s := foldS (fun s st => (s.wipe (scratchBase st) scratchSize).modStrand st fun x =>
    { x with acc := Acc.empty, vregs := [], knots := [], queue := [], writebacks := [], badLines := [],
             vbase := none, busyPart := 0, lined := none }) s (s.strandsOf p)
  let s := foldS (fun s g => (s.wipe (regionBase g) regionSize).modHank g Hank.cleared) s (s.part p).hanks
  foldS (fun s d =>
    let r := s.bightRegion d p
    s.wipe (bightBase d + 256 * (r % 65536)) (256 * (r / 65536))) s (upTo 4)

/-- Clear what the dispatch engines and control cores hold for a partition (R491). -/
def State.zeroEngines (s : State) (p : Nat) : State :=
  let s := (s.dispatchRunEnd p).clearRx p
  let s := foldS (fun s d => s.modEngine d fun e =>
    { e with rx := e.rx.filter (fun x => x.packet.dstPart != p), colls := e.colls.filter (fun c => c.part != p),
             cache := mcut e.cache (fun k => k / 65536 == p), crPartPs := mdel e.crPartPs p }) s (upTo 4)
  let s := { s with
    dispatch := { s.dispatch with force := mdel s.dispatch.force p, colForce := mdel s.dispatch.colForce p }
    journals := mdel s.journals p
    video := { s.video with partNs := mdel s.video.partNs p } }
  -- R327: the picture of a core of the partition is dropped; its context is gone
  let s := foldS (fun s k => (s.setCore k ((s.vidCore k).rest s.now)).setReg (Reg.vidCoreOwner k) 31) s (s.coresOf p)
  let r := s.bufRange p
  { s with video := { s.video with buffers := mcut s.video.buffers fun b => decide (r.1 ≤ b ∧ b < r.1 + r.2) } }

/-- Page-table entries, chain records and budget accounts become zero and every range is released (R491); a reel's WR
outlives its use (R288), and its unread records are gone. -/
def State.zeroRanges (s : State) (p : Nat) : State :=
  let x := s.part p
  let inSeq (q : Nat) : Bool := decide (x.seqBase ≤ q ∧ q < x.seqBase + x.seqSize)
  let inHandles (k : Nat) : Bool := k / 65536 == p
  let chains := (s.kv.chains.filter fun e => e.2.part == p).map Prod.fst
  { s with
    kv := { s.kv with
      pages := s.kv.pages.filter fun e => e.2.part != p
      lists := mdel (mdel s.kv.lists (2 * p)) (2 * p + 1)
      chains := s.kv.chains.filter fun e => e.2.part != p
      bight := s.kv.bight.filter fun b => b.part != p
      accepts := mcut s.kv.accepts inSeq
      moves := s.kv.moves.filter fun m => m.part != p
      regionForce := mcut s.kv.regionForce fun k => k % 16 == p
      starvedSince := mcut s.kv.starvedSince fun c => chains.contains c
      nonEmptyAt := mdel s.kv.nonEmptyAt p }
    serve := { s.serve with
      seqs := mcut s.serve.seqs inSeq
      reels := s.serve.reels.map fun e => if inSeq e.1 then (e.1, { e.2 with rd := e.2.wr }) else e
      accounts := s.serve.accounts.filter fun e => e.2.part != p
      handles := mcut s.serve.handles inHandles
      handleGen := mcut s.serve.handleGen inHandles
      batch := mdel s.serve.batch p
      batchAt := mdel s.serve.batchAt p
      admission := mdel s.serve.admission p
      reservedPages := mdel s.serve.reservedPages p
      deferredRefill := mdel s.serve.deferredRefill p } }

/-- The end of whipping (R491): everything of the partition is zeroed and released, and its number is free. -/
def State.endWhip (s : State) (p : Nat) : State :=
  let cmds := (s.part p).destroyCmds
  let s := s.overwrite p
  let s := ((s.zeroHanks p).zeroEngines p).zeroRanges p
  let s := foldS (fun s d => s.setReg (Reg.kvpPartBightRegion d p) 0) s (upTo 4)
  let s := { s with owners := s.owners.filter fun e => e.2 % 32 != p, sessions := mdel s.sessions (16 + p) }
  let others := (upTo 16).any fun q => q != p && (s.part q).state == .whipping
  let s := if others then s
    else { s with security := { s.security with slots := s.security.slots.filter fun k => k != 17 } }
  let s := (s.setPart p { Part.empty with gen := (s.part p).gen }).partStateEvent p
  foldS (fun s c => s.commandDone c.1 c.2 stOk []) s cmds

end Sys2Proof.Machine
end

