-- ==== Sys2Proof/Machine/Steps.lean ====
section
/-! DEFINITION. The step of a partition (chapters 4 and 16): its trigger (R109), what its control cores read (R108, R576),
emission into the strand queues (R133, R134), control hitches (R115, R116), shared strands (R136), completion (R124, R447),
the wait limit (R128), readiness and commit (R110, R127, R439, R440), replay, give-up and abandonment (R140, R442 to R445),
and the conservation check (R28). -/

namespace Sys2Proof.Machine

/-! Triggers (R109, R142) -/

/-- A step of a partition is under way, or its trigger has fired. -/
def State.stepBusy (s : State) (p : Nat) : Bool := s.stepUnderWay p || (s.step p).trigger

/-- Set MODE: at once, or once the step under way has ended (R109). -/
def State.setMode (s : State) (p m : Nat) : State :=
  s.modStep p fun x => if s.stepBusy p then { x with modeNext := some m } else { x with mode := m, modeNext := none }

/-- Write GO: it acts in SINGLE alone (R143). -/
def State.setGo (s : State) (p : Nat) : State :=
  s.modStep p fun x => if x.modeNext.getD x.mode = 1 then { x with go := true } else x

/-- Write CLR_ABANDON (R142). -/
def State.clearAbandon (s : State) (p : Nat) : State :=
  s.modStep p fun x => if x.phase = .abandoned then { x with phase := .idle } else x

/-- A write of HNK_CTRL through any hank of a partition: MODE, then GO, then CLR_ABANDON (R143). -/
def State.hnkCtrlWrite (s : State) (p v : Nat) : State :=
  let s := s.setMode p (v % 4)
  let s := if bit v 4 then s.setGo p else s
  if bit v 5 then s.clearAbandon p else s

/-- The MODE that HNK_CTRL reads: the last one written. -/
def State.modeOf (s : State) (p : Nat) : Nat := (s.step p).modeNext.getD (s.step p).mode

/-- A MODE that waited for the end of a step takes effect (R109). -/
def State.takeMode (s : State) (p : Nat) : State :=
  s.modStep p fun x => { x with mode := x.modeNext.getD x.mode, modeNext := none }

/-- The value of HNK_CTRL (R143). -/
def State.hnkCtrl (s : State) (p : Nat) : Nat := s.modeOf p + 16 * b2n (s.step p).go

/-- GO (R109): a write of HNK_CTRL that leaves MODE as it is. -/
def execGo (h : CmdHdr) (hank : Fin 16) (s : State) : Host.Outcome State Fault Refusal :=
  .next (s.regCommand h 0x0101 (Reg.hnkCtrl hank.val) fun s =>
    match s.partOf hank.val with
    | some p => ans stOk (s.hnkCtrlWrite p (s.modeOf p + 16))
    | none => ans stOk s)

/-- CLR_ABANDON (R142): a write of HNK_CTRL that leaves MODE as it is. -/
def execClrAbandon (h : CmdHdr) (hank : Fin 16) (s : State) : Host.Outcome State Fault Refusal :=
  .next (s.regCommand h 0x0101 (Reg.hnkCtrl hank.val) fun s =>
    match s.partOf hank.val with
    | some p => ans stOk (s.hnkCtrlWrite p (s.modeOf p + 32))
    | none => ans stOk s)

/-- MODE (R109). -/
def execMode (h : CmdHdr) (hank : Fin 16) (m : BitVec 2) (s : State) : Host.Outcome State Fault Refusal :=
  .next (s.regCommand h 0x0101 (Reg.hnkCtrl hank.val) fun s =>
    match s.partOf hank.val with
    | some p => ans stOk (s.hnkCtrlWrite p m.toNat)
    | none => ans stOk s)

/-- STEP_RUN (R109, R419): MODE and GO of the partition; it answers the step counter. -/
def execStepRun (h : CmdHdr) (part : Nat) (mode : BitVec 2) (go : Bool) (s : State) : Host.Outcome State Fault Refusal :=
  .next (s.command h 0x0203 fun s =>
    let p := partFor h.session part
    if 16 ≤ p then ans stMalformed s
    else if !(s.live p) then ans stNotPermitted s
    else
      let s := s.hnkCtrlWrite p (mode.toNat + 16 * b2n go)
      (stOk, toLe 8 (s.step p).counter, s))

/-! The start of a run (R101, R106 to R109, R443) -/

/-- The hank whose program a hank runs: in paired mode a mirror runs its primary's (R446). -/
def State.programHank (s : State) (p g : Nat) : Nat :=
  let hs := (s.part p).hanks
  match hs.findIdx? fun x => x == g with
  | some i => if (s.step p).paired && hs.length / 2 ≤ i then hs.getD (i - hs.length / 2) g else g
  | none => g

/-- Every control core of a partition begins a run: nothing read and no position with work yet; what counts toward K_LEN in a
saved array stays (R120). -/
def State.beginRun (s : State) (p : Nat) : State :=
  foldS (fun s g =>
    ((s.countHeld g).aimHank p g).modHank g fun h =>
      { h with descRead := false, seedsRead := false, scratchLive := false, heldSince := none,
               pos := (upTo 8).map fun q =>
                 (q, { Pos.empty with finished := false, ended := true, kLen := (mgetD h.pos q Pos.empty).kLen }) })
    s (s.part p).hanks

/-- Map the positions of a hank: to new places, or to the places they have. Each strand is held by the position that held it, or
by the lowest position mapped to it (R136). -/
def State.mapHank (s : State) (g : Nat) (fresh : Bool) : State :=
  let places := (upTo 8).map fun q => (q, if fresh then s.wantPlace g q else s.placeOf g q)
  s.modHank g fun h =>
    { h with place := places,
             onPlace := (upTo 8).filterMap fun i =>
               let mine := places.filter fun e => e.2 == i
               match mine with
               | [] => none
               | e :: _ =>
                 let old := mgetD h.onPlace i 8
                 some (i, if mine.any fun x => x.1 == old then old else e.1) }

/-- Once the last descriptor of a partition has been read, its positions take the mapping of the run: a new one where SCRATCH_LIVE
is 0 in every hank, else the one in force (R101, R443). -/
def State.mapPositions (s : State) (p : Nat) : State :=
  if !(s.descsRead p) then s
  else
    let fresh := (s.part p).hanks.all fun g => !((s.hank g).scratchLive)
    foldS (fun s g => s.mapHank g fresh) s (s.part p).hanks

/-- STEP_START (R108, R109, R138, R258, R462): the trigger of an idle partition fires; what is taken at a step start is
taken, and run 0 begins. -/
def execStepStart (p : Fin 16) (t : Nat) (s : State) : Host.Outcome State Fault Refusal :=
  let p := p.val
  let s := s.tick t
  let x := s.step p
  .next (
    if !(s.mayStart p) || !(x.trigger || x.mode == 2 || (x.mode == 1 && x.go)) then s
    else
      let ctrl := s.reg (Reg.chkPartCtrl p)
      let s := s.modStep p fun x =>
        { x with run := 0, phase := .running, go := false, trigger := false, blocking := none, faults := [],
                 fixed := bit (s.reg Reg.gblDetCtrl) 0, paired := bit ctrl 0, limit := bits ctrl 6 4,
                 startedAt := s.now, collective := false, groups := [], rotation := 0, releases := [], collIds := [],
                 rowsSent := false }
      let s := foldS (fun s g =>
        let a := s.programHank p g
        (s.reach (hankDom g) 0xC1).modHank g fun h => { h with progAct := s.reg64 (Reg.hnkProgLo a) (Reg.hnkProgHi a) }) s
        (s.part p).hanks
      let s := s.modJournal p fun j => { j with force := s.journalRegs p }
      let regions := foldS (fun m d => mput m (16 * d + p) (s.reg (Reg.kvpPartBightRegion d p))) s.kv.regionForce (upTo 4)
      let s := { s with kv := { s.kv with regionForce := regions } }
      (s.dispatchStart p).beginRun p)

/-! Save areas (R136) -/

/-- Bytes of a position's saved state. -/
def posSave : Nat := 2330640
/-- Offset of the strand knots in it, after strand scratch and the accumulator save form. -/
def posKnots : Nat := 2326544

/-- The save area of a position: eight for each hank of the partition (R136; log entry 15). -/
def State.saveAt (s : State) (p g q : Nat) : Nat :=
  (s.part p).saveArea + (((s.part p).hanks.findIdx? fun x => x == g).getD 0) * (8 * posSave) + q * posSave

/-- The count of a strand knot of a position that does not hold its strand. -/
def State.savedKnot (s : State) (p g q k : Nat) : Nat :=
  if (s.pos g q).saved then s.peekPLe p (s.saveAt p g q + posKnots + 4 * k) 4 else 0

/-- Every strand knot of the saved positions of a partition is 0. -/
def State.savedKnotsZero (s : State) (p : Nat) : Bool :=
  (s.part p).hanks.all fun g => (upTo 8).all fun q =>
    s.resident g q || !((s.pos g q).saved) || (s.peekP p (s.saveAt p g q + posKnots) 4096).all fun b => b == 0

/-- A hitch of a strand queue breaks an operand-area rule of its opcode, on a die where its partition holds h hanks. -/
def operandBad (w : HitchWord) (h : Nat) : Bool :=
  match hOpcode w with
  | 0x00 => !(zeroBytes w 0x10 0x40)
  | 0x01 => matmulBad w
  | 0x02 => accBadArea w
  | 0x03 => accBadArea w
  | 0x08 => vecBad w
  | 0x09 => vmemBad w
  | 0x0A => vmemBad w
  | 0x0B => convertBad w
  | 0x10 => moveBad w
  | 0x18 => attnBad w
  | 0x1A => appendBad w
  | 0x20 => convBad w
  | 0x21 => poolBad w
  | 0x22 => cropBad w
  | 0x28 => if flag w 0x10 0 then retBad w else sendBad w h
  | 0x29 => collBad w
  | 0x30 => scatterBad w
  | 0x31 => topkBad w
  | 0x38 => telltaleBad w
  | 0x39 => stageBad w
  | _ => false

/-- A LINK breaks R115. -/
def linkBad (w : HitchWord) : Bool :=
  knotValid (hWait w) || knotValid (hSignal w) || !(zeroBytes w 0x18 0x40) || fld w 0x10 63 0 % 64 != 0

/-- A STEP_END breaks R116. -/
def stepEndBad (w : HitchWord) : Bool := !(zeroBytes w 0x10 0x40) || knotValid (hSignal w)

/-- Whether hitch i of a position is MALFORMED when its control core reads it, so that it waits for nothing (R111, R113). -/
def State.malformed (s : State) (p g i : Nat) (w : HitchWord) : Bool :=
  let last := i == lastIndex
  s.preStatus p g w (match hOpcode w with
    | 0x19 => walkBad w || last
    | 0x3C => linkBad w || last
    | 0x3D => stepEndBad w
    | _ => operandBad w (s.hanksOn p (dieOf g)).length || last) != stOk

/-- Whether a wait that counts from an instant has passed HNK_KNOT_WAIT_LIMIT of a hank; a limit of 0 disables it (R128). -/
def State.waitedLong (s : State) (g : Nat) (since : Option Nat) : Bool :=
  let limit := s.reg (Reg.hnkKnotWaitLimit g)
  match since with
  | some a => limit != 0 && decide (a + 1000 * limit < s.now)
  | none => false

/-- Whether the wait of a position's head hitch is known not to be served (R136): a MALFORMED one waits for nothing, and one that
has waited too long waits no more (R113, R128). -/
def State.posBlocked (s : State) (p g q : Nat) : Bool :=
  match s.headHitch g q with
  | none => false
  | some (i, w) =>
    let k := hWait w
    knotValid k && !(s.malformed p g i w) && !(s.waitedLong g (s.pos g q).since) &&
      (if knotDie k || s.resident g q then !(s.waitReady p (s.strandFor g q) w)
      else decide (s.savedKnot p g q (knotIndex k) < hWaitCount w))

/-- Whether the position that holds a strand can go no further for now: it has finished, or its strand has drained up to a
hitch whose wait cannot be served (R136). -/
def State.posHalted (s : State) (p g q : Nat) : Bool :=
  let st := s.strandFor g q
  (s.pos g q).finished || (match nextQueued (s.strand st).queue with
    | some e => e.phase == .queued && !(s.waitReady p st e.word)
    | none => s.posBlocked p g q)

/-- Save the state of a position that leaves its strand: its scratch is read (R91, R92), its array tested as at every raw save
(R78), its queued hitches go back to its control core, and the wait of the first counts on (R128). An error is raised at the
position with INDEX 0xFF_FFFF, where the spec names no place (DESIGN CHOICE, log entry 67). -/
def State.leaveStrand (s : State) (p g q : Nat) (u : Upset) : State :=
  let st := s.strandFor g q
  let entries := (s.strand st).queue.filter fun e => e.pos == q
  let e := s.scratchUpset st u [(0, scratchSize)]
  let acc := ((s.strand st).acc).upset u
  let ck := (e.2.setAcc st acc).accCheck st acc u
  let s := ck.2
  let x := s.strand st
  let form := s.peek (scratchBase st) scratchSize ++ acc.saveForm ++ (upTo 1024).flatMap fun k => toLe 4 (nget x.knots k)
  let r := if e.1 = stOk ∧ ck.1 = stOk then s.storeP (some (st / 32)) p (s.saveAt p g q) form u.mem else (stOk, s)
  let s := r.2.modPos g q fun y =>
    { y with fetched := entries.map (fun e => (e.index, e.word)) ++ y.fetched, saved := true, kLen := acc.kLen,
             since := match entries with | e :: _ => e.since | [] => y.since }
  let s := (s.modStrand st fun y => { y with queue := y.queue.filter fun e => e.pos != q }).aimHank p g
  let at_ : Option Nat := if e.1 = stOk ∧ ck.1 = stOk then none else some st
  s.raise p g q 0xFFFFFF at_ (if e.1 ≠ stOk then e.1 else if ck.1 ≠ stOk then ck.1 else r.1)

/-- Restore the state of a position that takes its strand, and test the restored array (R78); its knots are 0 where this run has
not saved them. An error is raised as in a save. -/
def State.takeStrand (s : State) (p g q : Nat) (u : Upset) : State :=
  let st := s.strandFor g q
  let r := s.fetchP (some (st / 32)) p (s.saveAt p g q) posSave u.mem
  let s := r.2.2.modHank g fun h => { h with onPlace := mput h.onPlace (s.placeOf g q) q }
  if r.1 ≠ stOk then s.raise p g q 0xFFFFFF none r.1
  else
    let y := s.pos g q
    let bs := r.2.1
    let acc := ((parseSave ((bs.drop scratchSize).take saveBytes)).getD Acc.empty).upset u
    let knots := if y.saved then foldS (fun m k => nput m k (leAt bs (posKnots + 4 * k) 4)) [] (upTo 1024) else []
    let s := ((s.wipe (scratchBase st) scratchSize).poke (scratchBase st) (bs.take scratchSize)).modStrand st fun x =>
      { x with acc := { acc with kLen := y.kLen }, knots := knots, writebacks := [], badLines := [], lined := none }
    let ck := s.accCheck st { acc with nonFinite := [] } u
    ck.2.raise p g q 0xFFFFFF (some st) ck.1

/-- POSITION_SWITCH (R136): on a shared strand that has drained, the next runnable position in cyclic order takes over. Where the
position on the strand has finished and no other is runnable, the next unfinished one takes it (DESIGN CHOICE, log entry
67). -/
def execPositionSwitch (g : Fin 16) (x : StrandTurn) (t : Nat) (s : State) : Host.Outcome State Fault Refusal :=
  let g := g.val
  let s := s.tick t
  let st := 8 * g + x.place.val
  .next (match s.partOf g with
    | none => s
    | some p =>
      let cur := mgetD (s.hank g).onPlace x.place.val 8
      let drained := (s.strand st).queue.all QEntry.unissued
      let others := ((upTo 7).map fun k => (cur + 1 + k) % 8).filter fun q =>
        s.placeOf g q == x.place.val && !((s.pos g q).finished)
      let next := match others.find? fun q => !(s.posBlocked p g q) with
        | some q => some q
        | none => if (s.pos g cur).finished then others.head? else none
      match next with
      | none => s
      | some q =>
        if 8 ≤ cur ∨ s.issuing p = false ∨ drained = false ∨ s.posHalted p g cur = false ∨ s.descsRead p = false then s
        else (s.leaveStrand p g cur x.save).takeStrand p g q x.restore)

/-! Readiness (R110, R127, R439) -/

/-- A run whose positions have all finished becomes COMMITTING when every knot is 0, sending READY when it ran a
collective; else it raises KNOT_UNBALANCED, for which the spec names no place (free values, log entry 8). -/
def State.checkReady (s : State) (p : Nat) : State :=
  let x := s.step p
  let fin := (s.part p).hanks.all fun g =>
    (s.hank g).descRead && (s.hank g).seedsRead && (upTo 8).all fun q => (s.pos g q).finished
  if !(s.issuing p) || !fin then s
  else if !(s.knotsZero p && s.savedKnotsZero p) then 
    let a := s.takeFree
    let b := a.2.takeFree
    let c := b.2.takeFree
    c.2.raise p (a.1 % 16) (b.1 % 8) (c.1 % 2 ^ 24) none stKnotUnbalanced
  else
    let s := s.modStep p fun y => { y with phase := .committing, commitAt := s.now }
    if x.collective then
      (s.modVote p x.counter x.run fun v => { v with sent := 1, sentAt := s.now }).sendVote p 7 0 x.counter x.run
    else s

/-! What a control core reads (R108, R134, R138, R576) -/

/-- The upset of a read that begins at a PMA, as an error of its first line (log entry 10). -/
def State.errAt (s : State) (p pma : Nat) (e : ReadErr) : List (Nat × ReadErr) :=
  match s.mpaOf p pma with
  | some m => [(m / 64, e)]
  | none => []

/-- Take the list heads of a descriptor (R107, R576). -/
def State.takeHeads (s : State) (p g : Nat) (bs : List Byte) : State :=
  foldS (fun s q =>
    let head := leAt bs (8 * q) 8
    let st := if head = 0 then stOk else if head % 64 ≠ 0 then stMalformed else if s.pmaOk p head 64 then stOk
      else stAddrInvalid
    let s := s.modPos g q fun x => { x with next := head, ended := head == 0 || st != stOk, finished := head == 0 }
    s.raise p g q 0 none st) s (upTo 8)

/-- The descriptor of a hank returns. -/
def State.takeDescriptor (s : State) (p g : Nat) (e : ReadErr) : State :=
  let a := (s.hank g).progAct
  let r := s.fetchP (some (dieOf g)) p a 128 (s.errAt p a e)
  if r.1 ≠ stOk then r.2.2.raise p g 0 0xFFFFFF none r.1
  else
    let bs := r.2.1
    let s := r.2.2
    let seeds := leAt bs 0x40 8
    let flags := leAt bs 0x48 4
    if 1 < flags ∨ (bs.drop 0x4C).any (fun b => b != 0) ∨ seeds % 8 ≠ 0 then s.raise p g 0 0xFFFFFF none stMalformed
    else if !(s.pmaOk p seeds 2048) then s.raise p g 0 0xFFFFFF none stAddrInvalid
    else
      let s := s.modHank g fun h => { h with descRead := true, scratchLive := flags == 1, seedAddr := seeds }
      (s.mapPositions p).takeHeads p g bs

/-- The seed table of a hank returns. -/
def State.takeSeeds (s : State) (p g : Nat) (e : ReadErr) : State :=
  let a := (s.hank g).seedAddr
  let r := s.fetchP (some (dieOf g)) p a 2048 (s.errAt p a e)
  if r.1 ≠ stOk then r.2.2.raise p g 0 0xFFFFFF none r.1
  else r.2.2.modHank g fun h => { h with seedsRead := true, seeds := (upTo 256).map fun i => leAt r.2.1 (8 * i) 8 }

/-- A hitch of a position returns; a LINK or STEP_END, or the last permitted index, ends the fetching for now (R111,
R115). In fixed mode a hitch with VARY set is not emitted and completes with VARY_REFUSED (R138). -/
def State.takeHitch (s : State) (p g q : Nat) (e : ReadErr) : State :=
  let x := s.pos g q
  let r := s.fetchP (some (dieOf g)) p x.next 64 (s.errAt p x.next e)
  if r.1 ≠ stOk then (r.2.2.modPos g q fun y => { y with ended := true }).raise p g q x.index none r.1
  else
    let w := hitchOf r.2.1
    let refused := (s.step p).fixed && hVary w
    let s := r.2.2.modPos g q fun y =>
      { y with fetched := if refused then y.fetched else y.fetched ++ [(x.index, w)], next := x.next + 64, index := x.index + 1,
               ended := hOpcode w == 0x3D || hOpcode w == 0x3C || x.index == lastIndex }
    if refused then (s.inc (Reg.hnkVaryRefusedCount g)).complete p g q x.index (s.strandFor g q) w stVaryRefused else s

/-- HITCH_FETCH (R108, R134, R576): a read of a control core returns and is checked; or its own memory fails to yield a prefetched
hitch, which then completes with SCRATCH_ECC at its place and signals nothing, since its word is lost (R97, R434; log entry
66). -/
def execHitchFetch (g : Fin 16) (what : Fetch) (t : Nat) (s : State) : Host.Outcome State Fault Refusal :=
  let g := g.val
  let s := s.tick t
  let h := s.hank g
  .next (match s.partOf g with
    | none => s
    | some p =>
      if !(s.issuing p) then s
      else
        match what with
        | .descriptor e => if h.descRead then s else (s.takeDescriptor p g e).checkReady p
        | .seedTable e => if !h.descRead || h.seedsRead then s else (s.takeSeeds p g e).checkReady p
        | .hitch q e =>
          let x := s.pos g q.val
          if !h.descRead || x.ended || 32 ≤ x.fetched.length then s else (s.takeHitch p g q.val e).noteBack p g
        | .spoiled q =>
          match s.headHitch g q.val with
          | some (i, _) => ((s.popHitch g q.val).raise p g q.val i none stScratchEcc).noteBack p g
          | none => s)

/-! Emission (R113, R130, R133, R134) -/

/-- Whether a position has a hitch ready for its strand's queue: it holds its strand, which is ACTIVE (R102), the seed table has
been read where the hitch needs it, and the queue holds fewer than 128 (R134). -/
def State.emitReady (s : State) (p g q : Nat) : Bool :=
  match s.headHitch g q with
  | none => false
  | some (_, w) =>
    let st := s.strandFor g q
    s.issuing p && s.descsRead p && !(isControl (hOpcode w)) && s.resident g q && (s.strand st).avail == 0 &&
      (hRound w != 1 || (s.hank g).seedsRead) && decide ((s.strand st).queue.length < 128)

/-- Whether a position's turn has come: it is the first ready one after the position last emitted, in cyclic order (R134). The
order starts at position 0 (DESIGN CHOICE, log entry 67). -/
def State.emitTurn (s : State) (p g q : Nat) : Bool :=
  ((upTo 8).map fun k => ((s.hank g).emitted + 1 + k) % 8).find? (fun x => s.emitReady p g x) == some q

/-- HITCH_EMIT (R113, R133, R134, R555): the head of a position is written into its strand's queue in its turn, once the hank's
estimate has caught up with it; one that is MALFORMED is marked as refused there. A queue per strand of 128 keeps the module below 16,384. -/
def execHitchEmit (g : Fin 16) (pos : Fin 8) (t : Nat) (s : State) : Host.Outcome State Fault Refusal :=
  let g := g.val
  let q := pos.val
  let s := s.tick t
  .next (match s.headHitch g q, s.partOf g with
    | some (i, w), some p =>
      let st := s.strandFor g q
      if !(s.emitTurn p g q) then s.noteBack p g
      else if !(s.rampReady g w) then (s.noteBack p g).gate_ p g w
      else
        let e : QEntry := { id := (s.strand st).nextId, pos := q, index := i, word := w,
                            phase := if s.malformed p g i w then .refused else .queued, since := (s.pos g q).since,
                            digest := 0 }
        let s := (s.popHitch g q).modHank g fun h => { h with emitted := q }
        ((s.modStrand st fun x => { x with queue := x.queue ++ [e], nextId := x.nextId + 1 }).markHead st).noteHeld p g
    | _, _ => s)

/-- NOP (R130): it issues at the head of its queue once its wait is served, and completes in that cycle. -/
def execNop (st : Fin 128) (s : State) : Host.Outcome State Fault Refusal :=
  let st := st.val
  .next (match s.issue st 0x00 fun _ => true with
    | none => s
    | some (r, s) =>
      let s := (s.modStrand st fun x => { x with queue := x.queue.filter fun e => e.id != r.e.id }).inc
        (Reg.strHitchDoneCount st)
      ((s.complete r.p r.g r.e.pos r.e.index st r.e.word stOk).markHead st).noteHeld r.p r.g)

/-! Control hitches (R115, R116) -/

/-- LINK (R115): the position's list goes on at the target. -/
def execLink (g : Fin 16) (pos : Fin 8) (s : State) : Host.Outcome State Fault Refusal :=
  let g := g.val
  let q := pos.val
  .next (match s.headHitch g q, s.partOf g with
    | some (i, w), some p =>
      let target := fld w 0x10 63 0
      if hOpcode w ≠ 0x3C ∨ s.issuing p = false then s
      else if s.malformed p g i w then s.refuseHitch p g q i w stMalformed
      else if !(s.controlReady p g q w (hOrder w)) then s.markControl p g q w (hOrder w)
      else if !(s.pmaOk p target 64) then s.refuseHitch p g q i w stAddrInvalid
      else (s.popHitch g q).modPos g q fun x => { x with next := target, ended := false }
    | _, _ => s)

/-- STEP_END (R110, R116): once every earlier hitch of the position has completed and its wait is served, the position has
finished. -/
def execStepEnd (g : Fin 16) (pos : Fin 8) (s : State) : Host.Outcome State Fault Refusal :=
  let g := g.val
  let q := pos.val
  .next (match s.headHitch g q, s.partOf g with
    | some (i, w), some p =>
      if hOpcode w ≠ 0x3D ∨ s.issuing p = false then s
      else if s.malformed p g i w then s.refuseHitch p g q i w stMalformed
      else if !(s.controlReady p g q w true) then s.markControl p g q w true
      else
        let s := s.takeWait p (s.strandFor g q) w
        ((s.popHitch g q).modPos g q fun x => { x with finished := true }).checkReady p
    | _, _ => s)

/-! The end of a step that does not commit, and stops (R140, R248, R268, R427, R506) -/

/-- Every issued hitch of a partition has completed (R140). -/
def State.drained (s : State) (p : Nat) : Bool :=
  ((s.strandsOf p).all fun st => (s.strand st).queue.isEmpty) &&
    (upTo 4).all fun d => (s.engine d).colls.all fun c => c.part != p

/-- What an uncommitted step leaves is taken back: knots, PENDING entries, reservations, the receive area, and what its runs
left in the engines (R127, R248, R268, R301). -/
def State.settle (s : State) (p : Nat) : State :=
  let s := ((((s.clearKnots p).freePending p).returnBatch p).clearRx p).unwalk p
  ((s.dispatchRunEnd p).lateRefill p).modStep p fun x => { x with blocking := none, releases := [], trigger := false }

/-- A partition reset ends (R426, R427): MODE becomes HOLD, the partition is ACTIVE again, and the commands that waited for
it reply. -/
def State.resetEnd (s : State) (p : Nat) : State :=
  if (s.part p).state != .resetting then s
  else
    let cmds := (s.part p).resetCmds
    let s := s.modStep p fun x => { x with mode := 0, modeNext := none, go := false }
    let s := (s.modPart p fun x => { x with state := .active, resetCmds := [], resets := x.resets.shut s.now }).partStateEvent p
    foldS (fun s c => s.reply c.1 c.2 stOk []) s cmds

/-- The hanks of a partition whose step was under way at a data-path switch take the new images (R518). -/
def State.lateSwitch (s : State) (p : Nat) : State :=
  let l := s.update.switching.filter fun g => (s.part p).hanks.contains g
  if l.isEmpty then s
  else
    let s := foldS (fun s g => s.modHank g fun h => { h with microSlot := s.update.micro }) s l
    let s := s.setReg Reg.updLateHanks (min 31 (s.reg Reg.updLateHanks + l.length))
    { s with update := { s.update with switching := s.update.switching.filter fun g => !(l.contains g) } }

/-- Once the issued hitches of a stopped step have completed, what it leaves is taken back and the partition is IDLE (R427,
R506); a partition that is destroyed is whipped (R491). -/
def State.stopDone (s : State) (p : Nat) : State :=
  if !(s.step p).stopping || !(s.drained p) then s
  else
    let s := ((s.settle p).modStep p fun x => { x with phase := .idle, stopping := false }).lateSwitch p
    if (s.part p).destroyCmds.isEmpty then s.resetEnd p else s.startWhip p

/-- Stop the step of a partition (R427, R506): nothing more issues, queued hitches are discarded, and a reset sends ABORT of
class Program when the run used a collective and READY has not been sent. -/
def State.stopStep (s : State) (p : Nat) (abort : Bool) : State :=
  let x := s.step p
  if x.stopping then s
  else if !(s.stepUnderWay p) then (if x.trigger then s.settle p else s)
  else
    let sentReady := match s.vote p x.counter x.run with
      | some v => v.sent == 1
      | none => false
    let s := (s.modStep p fun y => { y with stopping := true, stopAt := s.now }).discardQueued p
    let s := foldS (fun s g => s.noteHeld p g) s (s.part p).hanks
    let s := if abort && x.collective && !sentReady && x.blocking.isNone then
        ((s.modVote p x.counter x.run fun v => { v with sent := 3 }).inc (Reg.dspPartColAbortCount p)).sendVote p 8 2 x.counter
          x.run
      else s
    s.stopDone p

/-- Begin the reset of a partition (R427). -/
def State.beginReset (s : State) (p : Nat) : State :=
  let s := (s.modPart p fun x => { x with state := .resetting, resets := x.resets.begin s.now }).partStateEvent p
  let s := s.stopStep p true
  if (s.step p).stopping then s
  else ((s.clearKnots p).modStep p fun x => { x with phase := .idle }).resetEnd p

/-- Begin the destruction of a partition (R490, R491): its step stops as a reset stops it. -/
def State.beginDestroy (s : State) (p : Nat) : State :=
  let s := s.stopStep p true
  if (s.step p).stopping || (s.part p).state == .whipping then s else (s.clearKnots p).startWhip p

/-! Completion (R124, R125, R130, R447) -/

/-- A matrix hitch that leaves a reduction open: MATMUL or CONV without readout. -/
def openReduction (w : HitchWord) : Bool :=
  hOpcode w == 0x01 && !(flag w 0x2C 30) || hOpcode w == 0x20 && !(convReadsOut w)

/-- A matrix hitch has completed: which entry stood at the head of the queue before the last step of a reduction left open
(R75). -/
def State.markLined (s : State) (st : Nat) (e : QEntry) : State :=
  if hUnit e.word = .matrix then
    s.modStrand st fun x =>
      { x with lined := if openReduction e.word then (nextQueued x.queue).map fun y => y.id else none }
  else s

/-- Complete an entry of a strand's queue with a status. -/
def State.completeEntry (s : State) (p st : Nat) (e : QEntry) (status : Nat) : State :=
  let g := hankOf st
  let s := (s.markLined st e).modStrand st fun x => { x with queue := x.queue.filter fun y => y.id != e.id }
  let s := s.inc (Reg.strHitchDoneCount st)
  let s := if hOpcode e.word = 0x29 then
      let s := s.inc (Reg.dspPartColCount p)
      if status = stExactLost then s.inc (Reg.dspPartColExactLostCount p) else s
    else if hOpcode e.word = 0x39 && isBlocking status then s.inc (Reg.srvStageFailCount (st / 32))
    else s
  let s := if hOpcode e.word = 0x18 then
      let s := s.inc (Reg.atnHitchCount g)
      if isBlocking status then s.inc (Reg.atnSeqFailCount (st / 32)) else s
    else s
  let s := s.cropComplete st e.id e.word
  (((s.complete p g e.pos e.index st e.word status).markHead st).noteHeld p g).stopDone p

/-- The status with which an entry of a queue may complete: the one it executed with, or MALFORMED once it is next to
issue, without waiting for its unit, its order or its knot (R113). -/
def QEntry.doneStatus (q : List QEntry) (e : QEntry) : Option Nat :=
  match e.phase with
  | .done st => some st
  | .refused => if nextQueued q == some e then some stMalformed else none
  | _ => none

/-- Hitches of one unit complete in issue order (R130). -/
def firstOfUnit (q : List QEntry) (e : QEntry) : Bool :=
  e.phase == .refused || (before q e).all fun x => (hUnits x.word).all fun u => !((hUnits e.word).contains u)

/-- The strand that runs the other copy of a strand's hitches of a position, in paired mode (R446). -/
def State.twin (s : State) (p st q : Nat) : Option Nat :=
  let hs := (s.part p).hanks
  let n := hs.length / 2
  if (s.step p).paired then
    (hs.findIdx? fun x => x == hankOf st).bind fun i =>
      (hs[if i < n then i + n else i - n]?).map fun g => s.strandFor g q
  else none

/-- The record of a paired comparison that failed, and the scores of both strands (R447, R454). -/
def State.pairMismatch (s : State) (p st st2 : Nat) (e f : QEntry) : State :=
  let r := s.record 5 (some p)
  let s := s.fsr { r with status := some stTelltaleMismatch, wher := s.whereOf (hankOf st) e.pos e.index (some st) stTelltaleMismatch,
                          strand := s.strandKeys st, telltales := some (e.digest, f.digest),
                          action := s.runAction p (match (s.step p).blocking with | some b => b.cls | none => 1) }
  let s := s.inc (Reg.chkPartPairMismatchCount p)
  (s.scoreRise st (s.cellNow (hankOf st))).scoreRise st2 (s.cellNow (hankOf st2))

/-- Complete both copies of a hitch: with TELLTALE_MISMATCH when neither failed and their telltales differ (R447). -/
def State.completePair (s : State) (p st st2 : Nat) (e f : QEntry) (a b : Nat) : State :=
  let differ := !(isBlocking a) && !(isBlocking b) && e.digest != f.digest
  let s := if differ then s.pairMismatch p st st2 e f else s
  let s := s.completeEntry p st e (if differ then stTelltaleMismatch else a)
  s.completeEntry p st2 f (if differ then stTelltaleMismatch else b)

/-- HITCH_COMPLETE (R124, R130, R447): an executed entry of a strand's queue completes, in paired mode with its copy. -/
def execHitchComplete (st : Fin 128) (slot : Nat) (t : Nat) (s : State) : Host.Outcome State Fault Refusal :=
  let st := st.val
  let s := s.tick t
  let q := (s.strand st).queue
  .next (match s.partOf (hankOf st), q[slot]? with
    | some p, some e =>
      match e.doneStatus q with
      | none => s
      | some a =>
        if !(firstOfUnit q e) then s
        else
          match s.twin p st e.pos with
          | none => s.completeEntry p st e a
          | some st2 =>
            let q2 := (s.strand st2).queue
            match q2.find? fun f => f.pos == e.pos && f.index == e.index with
            | none => if (s.step p).blocking.isSome then s.completeEntry p st e a else s
            | some f =>
              match f.doneStatus q2 with
              | none => s
              | some b =>
                if !(firstOfUnit q2 f) then s
                else if st < st2 then s.completePair p st st2 e f a b
                else s.completePair p st2 st f e b a
    | _, _ => s)

/-- KNOT_TIMEOUT (R128): the head of a strand's queue, or else a control hitch at the head of the position that holds the strand,
has waited beyond the limit and completes without executing. -/
def execKnotTimeout (st : Fin 128) (t : Nat) (s : State) : Host.Outcome State Fault Refusal :=
  let st := st.val
  let g := hankOf st
  let s := s.tick t
  .next (match s.partOf g with
    | none => s
    | some p =>
      if !(s.issuing p) then s
      else
        let head := (nextQueued (s.strand st).queue).filter fun e =>
          e.phase == .queued && s.waitedLong g e.since && !(s.waitReady p st e.word)
        match head with
        | some e => s.completeEntry p st e stKnotTimeout
        | none =>
          let q := mgetD (s.hank g).onPlace (st % 8) 8
          match s.headHitch g q with
          | some (i, w) =>
            if isControl (hOpcode w) && s.waitedLong g (s.pos g q).since && !(s.waitReady p st w) then
              (s.popHitch g q).complete p g q i st w stKnotTimeout
            else s
          | none => s)

/-! Conservation (R26, R28) -/

/-- Report a failed equation: a record, the event CONSERVATION, and no stop (R28, R416). -/
def State.conservationFault (s : State) (part : Option Nat) (quantity inst : Nat) : State :=
  let r := s.record 8 part
  let s := s.fsr { r with status := some stConservationFault, detail := [(0, quantity), (1, inst)] }
  s.eventC 3 stConservationFault quantity (toLe 4 quantity ++ toLe 4 inst)

/-- Report an equation that does not hold. -/
def State.audit (s : State) (part : Option Nat) (quantity inst : Nat) (holds : Bool) : State :=
  if holds then s else s.conservationFault part quantity inst

/-- Sum of a list of numbers. -/
def total (l : List Nat) : Nat := l.foldl (fun a b => a + b) 0

/-- The partition whose range holds a sequence ID. -/
def State.seqPart (s : State) (q : Nat) : Option Nat :=
  (upTo 16).find? fun p => s.exists_ p && decide ((s.part p).seqBase ≤ q ∧ q < (s.part p).seqBase + (s.part p).seqSize)

/-- The credit equations of every port, VC and lane (R382). -/
def State.auditCredits (s : State) : State :=
  foldS (fun s (e : Nat × Port) => foldS (fun s (c : Nat × Credit) =>
    s.audit none 1 (16 * e.1 + c.1)
      (c.2.avail + c.2.outstanding == c.2.peerAlloc && c.2.rxFree + c.2.rxHeld + c.2.rxOwed == c.2.ownAlloc)) s e.2.credits)
    s s.ecron.ports

/-- The bight equation of each die (R256). -/
def State.auditBight (s : State) (dies : List Nat) : State :=
  foldS (fun s d =>
    s.audit none 2 d (decide (total ((s.kv.bight.filter fun b => b.die == d).map fun b => b.n) ≤ 32768))) s dies

/-- The region equation of each partition (R256). -/
def State.auditRegions (s : State) (ps : List Nat) : State :=
  foldS (fun s p =>
    s.audit (some p) 2 (4 + p) ((upTo 4).all fun d =>
      decide (total ((s.kv.bight.filter fun b => b.die == d && b.part == p).map fun b => b.n) ≤ s.bightRegion d p / 65536))) s ps

/-- The page equation of each partition (R256). -/
def State.auditPages (s : State) (ps : List Nat) : State :=
  foldS (fun s p =>
    let held := (s.kv.pages.filter fun e => e.2.part == p && e.2.state != .free).length
    s.audit (some p) 3 p (s.freePages p false + s.freePages p true + held == (s.part p).pgHbm + (s.part p).pgCt)) s ps

/-- The equation of each account that a test accepts (R288). -/
def State.auditAccounts (s : State) (f : Account → Bool) : State :=
  foldS (fun s (e : Nat × Account) =>
    let a := e.2
    s.audit (if a.part < 16 then some a.part else none) 4 e.1
      (!(f a) || (a.balance + a.reserved + a.charged + a.capped + a.adjOut) % 2 ^ 64 == (a.refilled + a.adjIn) % 2 ^ 64))
    s s.serve.accounts

/-- The reservation equation of each partition (R288). -/
def State.auditReserved (s : State) (ps : List Nat) : State :=
  foldS (fun s p =>
    let held := total ((s.serve.accounts.filter fun e => e.2.part == p).map fun e => e.2.reserved)
    let need := total ((mgetD s.serve.batch p []).map fun e => e.tokens)
    s.audit (some p) 4 (4096 + p) (held == need)) s ps

/-- The equation of each reel whose partition a test accepts (R288). -/
def State.auditReels (s : State) (f : Option Nat → Bool) : State :=
  foldS (fun s (e : Nat × Reel) =>
    let p := s.seqPart e.1
    s.audit p 5 e.1 (!(f p) || decide (e.2.rd ≤ e.2.wr) && (match p with
      | some k => decide (e.2.wr - e.2.rd ≤ s.ring k)
      | none => true))) s s.serve.reels

/-- The module-wide reel equations (R288). -/
def State.auditTotals (s : State) : State :=
  let v := s.serve
  let s := s.audit none 5 262144 (v.staged == v.committed + v.discarded + v.inStage)
  s.audit none 5 262144 (total (s.serve.reels.map fun e => e.2.wr) == s.serve.committed + s.serve.engine)

/-- The partitions whose equations are checked. -/
def State.livePartitions (s : State) : List Nat := (upTo 16).filter fun p => s.live p

/-- The module's own check at a step commit (R28): the equations of R382, R256 and R288. -/
def State.conservation (s : State) : State :=
  let s := (s.auditCredits.auditBight (upTo 4)).auditRegions s.livePartitions
  let s := (s.auditPages s.livePartitions).auditAccounts fun _ => true
  ((s.auditReserved s.livePartitions).auditReels fun _ => true).auditTotals

/-! Commit (R440) -/

/-- Actions 2 to 7 of a commit: pages, KV, reels, frames, receive areas and budgets, in this order. -/
def State.commitActions (s : State) (p : Nat) (bad : List (Nat × Nat)) : State :=
  let ctx := s.commitCtx p
  let s := s.commitPrefill p ctx
  let s := s.kvCommit p (ctx.gone.map Prod.fst) bad
  let s := s.commitReels p ctx
  ((s.commitReleases p).clearRx p).commitBudgets p ctx

/-- Action 8 of a commit (R28, R102, R106, R440, R466): the journal, the step counter, AVAIL changes, the conservation
check, and IDLE; then a reset or destruction that waited for it begins (R427, R490). -/
def State.commitEnd (s : State) (p : Nat) : State :=
  let x := s.step p
  let s := (s.journalRecord p).endBatch p
  let s := s.modStep p fun y =>
    { y with counter := y.counter + 1, phase := .idle, excluded := [], committedAny := true, releases := [],
             votes := y.votes.filter fun v => decide (y.counter ≤ v.step + 1) }
  let s := foldS (fun s st => s.takeAvail st) s (s.strandsOf p)
  let s := s.conservation
  let s := s.raiseReg (Reg.chkPartMaxCommitUs p) (usUp (s.now - x.commitAt))
  let us := usUp (s.now - x.startedAt)
  let s := (s.setReg (Reg.gblDetPartStepLastUs p) (sat32 us)).raiseReg (Reg.gblDetPartStepMaxUs p) us
  let s := ((((s.dispatchRunEnd p).latePauses p).lateRefill p).lateSwitch p).takeMode p
  if !(s.part p).destroyCmds.isEmpty then s.beginDestroy p
  else if (s.part p).resetCmds.isEmpty then s else s.beginReset p

/-- STEP_COMMIT (R440, R441): a COMMITTING step whose vote is complete commits. -/
def execStepCommit (x : CommitRun) (t : Nat) (s : State) : Host.Outcome State Fault Refusal :=
  let p := x.part.val
  let s := s.tick t
  .next (
    if (s.step p).phase != .committing || (s.step p).stopping || ((s.step p).collective && !(s.voteComplete p)) then s
    else (s.commitActions p x.bad).commitEnd p)

/-! Replay, give-up and abandonment (R140, R142, R442 to R445) -/

/-- The strands that raised a Fault in two runs of a step (R443). -/
def twiceFaulty (faults : List Nat) : List Nat :=
  (upTo 128).filter fun st => decide (2 ≤ ((faults.filter fun f => f % 128 == st).foldl
    (fun l f => if l.contains (f / 128) then l else f / 128 :: l) ([] : List Nat)).length)

/-- The partition becomes ABANDONED (R142). -/
def State.abandoned (s : State) (p : Nat) : State :=
  (((s.settle p).modStep p fun x => { x with phase := .abandoned }).lateSwitch p).takeMode p

/-- Run a step again under the same number (R442, R443). -/
def State.replay (s : State) (p : Nat) : State :=
  let s := foldS (fun s g => s.inc (Reg.hnkReplayCount g)) s (s.part p).hanks
  let s := ((s.clearKnots p).freePending p).discardStage p
  let s := (s.dispatchRunEnd p).lateRefill p
  let s := s.modStep p fun x =>
    { x with run := x.run + 1, rotation := (x.rotation + 1) % 8, phase := .replaying, blocking := none, releases := [],
             collective := false, groups := [], collIds := [], rowsSent := false,
             excluded := x.excluded ++ (twiceFaulty x.faults).filter fun st => !(x.excluded.contains st) }
  s.beginRun p

/-- Give a step up (R445): a REPLAY_GIVEN_UP record, a FAULT record for every sequence of the batch, and ABANDONED. -/
def State.giveUp (s : State) (p status : Nat) : State :=
  let es := mgetD s.serve.batch p []
  let r := s.record 2 (some p)
  let s := s.fsr { r with status := some status, action := 2 }
  let num := (s.part p).records
  ((s.abandoned p).faultBatch p status num es).inc (Reg.chkPartGiveupCount p)

/-- STEP_REPLAY (R140, R442 to R445): after a Fault the drained step runs again, or is given up when it is not replayable or
has run its limit. -/
def execStepReplay (p : Fin 16) (t : Nat) (s : State) : Host.Outcome State Fault Refusal :=
  let p := p.val
  let s := s.tick t
  let x := s.step p
  .next (match x.blocking with
    | none => s
    | some b =>
      if b.cls ≠ 1 ∨ s.inRun p = false ∨ s.drained p = false ∨ s.lease.seized = true then s
      else if s.replayable p && decide (x.run < x.limit) then s.replay p
      else s.giveUp p b.status)

/-- STEP_ABANDON (R140, R142): after a Program status the drained step is abandoned. -/
def execStepAbandon (p : Fin 16) (t : Nat) (s : State) : Host.Outcome State Fault Refusal :=
  let p := p.val
  let s := s.tick t
  .next (match (s.step p).blocking with
    | none => s
    | some b =>
      if b.cls ≠ 2 ∨ s.inRun p = false ∨ s.drained p = false then s
      else foldS (fun s g => s.inc (Reg.hnkAbandonCount g)) (s.abandoned p) (s.part p).hanks)

end Sys2Proof.Machine
end

