-- ==== Sys2Proof/Machine/Reset.lean ====
section
/-! DEFINITION. Per-function resets (R426, R427) of partitions, video cores and die engines. -/

namespace Sys2Proof.Machine

/-- Complete the hitches that run in engines of some strands, of the opcodes asked for, with FUNCTION_RESET (R426, R427). -/
def State.resetHitches (s : State) (strands : List Nat) (ops : List Nat) : State :=
  foldS (fun s st =>
    match s.partOf (hankOf st) with
    | none => s
    | some p =>
      foldS (fun s e => s.completeEntry p st e stFunctionReset) s
        ((s.strand st).queue.filter fun e => e.phase == .running && ops.contains (hOpcode e.word))) s strands

/-- The strands of a die. -/
def strandsOfDie (d : Nat) : List Nat := (upTo 32).map fun i => 32 * d + i

/-- Whether a reset of a partition waits for a commit: action 1 is complete (R427). -/
def State.commitRuns (s : State) (p : Nat) : Bool :=
  (s.step p).phase == .committing && !(s.step p).stopping && (!(s.step p).collective || s.voteComplete p)

/-- Reset a partition (R426, R427): the reply waits for its end. -/
def State.resetPartition (s : State) (sid seq p : Nat) : Option (Nat × List Byte) × State :=
  match (s.part p).state with
  | .whipping => (some (stWhipping, []), s)
  | .none => (some (stNotPermitted, []), s)
  | .creating => (some (stNotPermitted, []), s)
  | .resetting => (none, s.modPart p fun x => { x with resetCmds := x.resetCmds ++ [(sid, seq)] })
  | .active =>
    let waiting := !(s.part p).resetCmds.isEmpty
    let s := s.modPart p fun x => { x with resetCmds := x.resetCmds ++ [(sid, seq)] }
    (none, if waiting || s.commitRuns p then s else s.beginReset p)

/-- Reset the crop-and-resize engine of a die (R426). -/
def State.resetCrop (s : State) (d : Nat) : State :=
  if s.now < (s.engine d).crResetUntil then s
  else (s.resetHitches (strandsOfDie d) [0x22]).modEngine d fun e =>
    { e with crResetUntil := s.now + (Config.engineReset false).val,
             crResets := (s.now, some (s.now + (Config.engineReset false).val)) :: e.crResets }

/-- Reset the dispatch-and-collective engine of a die (R426): its receive queue and collective state are cleared. -/
def State.resetDispatch (s : State) (d : Nat) : State :=
  if s.now < (s.engine d).resetUntil then s
  else
    let s := s.modEngine d fun e => { e with rx := [], colls := [] }
    (s.resetHitches (strandsOfDie d) [0x28, 0x29]).modEngine d fun e =>
      { e with resetUntil := s.now + (Config.engineReset true).val,
               resets := (s.now, some (s.now + (Config.engineReset true).val)) :: e.resets }

/-- RESET_FUNCTION (R426, R427). -/
def execResetFunction (h : CmdHdr) (kind index : Nat) (s : State) : Host.Outcome State Fault Refusal :=
  .next (s.commandLater h 0x0202 fun s =>
    let c := isCommander h.session
    let refuse (st : Nat) : Option (Nat × List Byte) × State := (some (st, []), s)
    match kind with
    | 1 =>
      if 16 ≤ index then refuse stMalformed
      else if !c && sidPart h.session != index then refuse stNotPermitted
      else s.resetPartition h.session h.seq index
    | 2 =>
      if 8 ≤ index then refuse stMalformed
      else if !c && s.reg (Reg.vidCoreOwner index) % 32 != sidPart h.session then refuse stNotPermitted
      else (some (stOk, []), s.resetCore index)
    | 3 => if 4 ≤ index then refuse stMalformed else if !c then refuse stNotPermitted else (some (stOk, []), s.resetCrop index)
    | 4 => if 4 ≤ index then refuse stMalformed else if !c then refuse stNotPermitted else (some (stOk, []), s.resetDispatch index)
    | _ => refuse stMalformed)

/-- RESET_HITCH_TIMEOUT (R427, R506): 10 ms after its step was stopped, the engine hitches of a partition that still run
complete with FUNCTION_RESET. -/
def execResetHitchTimeout (p : Fin 16) (t : Nat) (s : State) : Host.Outcome State Fault Refusal :=
  let p := p.val
  let s := s.tick t
  .next (
    if !(s.step p).stopping || decide (s.now < (s.step p).stopAt + 10000000) then s
    else
      let s := foldS (fun s d => s.modEngine d fun e => { e with colls := e.colls.filter fun c => c.part != p }) s (upTo 4)
      (s.resetHitches (s.strandsOf p) [0x18, 0x1A, 0x22, 0x28, 0x29, 0x39]).stopDone p)

end Sys2Proof.Machine
end

