-- ==== Sys2Proof/Machine/Lease.lean ====
section
/-! DEFINITION. Commander pairs, lanyard leases and fencing (chapter 19): the lease commands (R499, R500), heartbeats (R503),
the role lease and seizing (R505 to R507), and role assignment (R509). -/

namespace Sys2Proof.Machine

/-- Nanoseconds of a number of ms. -/
def msNs (n : Nat) : Nat := 1000000 * n

/-- An accepted holder heartbeat restarts the role lease with the grace in force (R505, R512). -/
def Lease.beat (l : Lease) (now grace : Nat) : Lease :=
  { l with lastHb := now, lost := false, roleLast := now, roleDuration := l.duration, grace := grace }

/-- LNY_SEIZE_GRACE in ms. -/
def State.seizeGrace (s : State) : Nat := s.reg Reg.lnySeizeGrace % 4096

/-- Module time at the start of the CLK_CTRL cycle of an instant, with which a lease command compares the expiry (R500). -/
def cycleStart (n : Nat) : Nat := n * 4 / 5 * 5 / 4

/-- The lanyard is HELD for a lease command taken at an instant (R498, R500, R520). -/
def State.heldAt (s : State) (n : Nat) : Bool := s.lease.holder != 0 && decide (cycleStart n < s.lease.expiry)

/-- A commander holds the lanyard for a lease command taken at an instant (R498, R500, R520). -/
def State.holdsAt (s : State) (c n : Nat) : Bool := s.heldAt n && s.lease.holder == c

/-- HEARTBEAT (R500, R503): the holder's, while HELD, renews the lease; every commander is told the lease. -/
def execHeartbeat (h : CmdHdr) (sendTime : Nat) (s : State) : Host.Outcome State Fault Refusal :=
  let _ := sendTime
  .next (s.command h 0x0300 fun s =>
    let l := s.lease
    let n := s.cmdNow h.session h.seq
    let s := if s.holdsAt h.session n then
        { s with lease := Lease.beat { l with expiry := n + msNs l.duration } n s.seizeGrace }
      else s
    (stOk, toLe 8 s.now ++ toLe 4 s.lease.epoch ++ toLe 4 s.lease.holder ++ toLe 8 s.lease.expiry ++ toLe 4 s.gblState ++
      toLe 4 s.ecron.directory.length, s))

/-- Grant the lanyard to a new holder at an instant (R500, R501, R505): the heartbeat counts of the ports begin at the
grant. -/
def State.grant (s : State) (c ms n : Nat) : State :=
  let l := s.lease
  let s := { s with lease := Lease.beat { l with epoch := l.epoch + 1, holder := c, duration := ms, expiry := n + msNs ms,
                                                 armed := true } n s.seizeGrace }
  let s := foldS (fun s p => s.modHostPort p fun x => { x with lastHb := some n, silentSent := false }) s [0, 1]
  (s.inc Reg.lnyAcquireCount).eventC 18 stOk c (toLe 4 (l.epoch + 1) ++ toLe 4 0 ++ toLe 8 (n + msNs ms))

/-- LEASE_ACQUIRE (R500, R501): the holder's renews the lease, and counts as no heartbeat (R505); one after a lapse is a grant, even
to the former holder (DEDUCED, log entry 51). -/
def execLeaseAcquire (h : CmdHdr) (leaseMs : Nat) (s : State) : Host.Outcome State Fault Refusal :=
  .next (s.command h 0x0301 fun s =>
    let l := s.lease
    let ms := if leaseMs = 0 then s.reg Reg.lnyLeaseDefault % 2048 else leaseMs
    let answer (s : State) : Nat × List Byte × State :=
      (stOk, toLe 4 s.lease.epoch ++ toLe 4 0 ++ toLe 8 s.lease.expiry, s)
    let n := s.cmdNow h.session h.seq
    if leaseMs ≠ 0 ∧ (leaseMs < 50 ∨ 2000 < leaseMs) then ans stMalformed s
    else if s.holdsAt h.session n then
      answer { s with lease := { l with duration := ms, expiry := n + msNs ms, roleDuration := ms } }
    else if s.heldAt n || h.epoch != l.epoch then (stLeaseLost, s.leaseInfo, s)
    else answer (s.grant h.session ms n))

/-- LEASE_RELEASE (R500). -/
def execLeaseRelease (h : CmdHdr) (s : State) : Host.Outcome State Fault Refusal :=
  .next (s.command h 0x0302 fun s =>
    let n := s.cmdNow h.session h.seq
    if s.holdsAt h.session n then ans stOk { s with lease := { s.lease with expiry := n } }
    else (stLeaseLost, s.leaseInfo, s))

/-- Raise the peer epoch of a unit (R509). -/
def State.raisePeer (s : State) (m p e : Nat) : State :=
  { s with ecron := { s.ecron with peerEpoch := mput s.ecron.peerEpoch (32 * m + p) (max (s.peerEpoch m p) e) } }

/-- The directory entry that a reply to ROLE_ASSIGN carries. -/
def Role.bytes (r : Role) : List Byte := toLe 4 r.epoch ++ toLe 1 r.modNum ++ toLe 1 r.part

/-- Apply a role assignment (R509). -/
def State.assignRole (s : State) (a : RoleAssign) : Nat × List Byte × State :=
  let old := mgetD s.ecron.directory a.role { modNum := 0, part := 0, epoch := 0 }
  let held := (mget s.ecron.directory a.role).isSome
  let same := held && old.modNum == a.holderModule && old.part == a.holderPart
  if 0xFFFF ≤ a.role ∨ 256 ≤ a.holderModule ∨ 16 ≤ a.holderPart ∨ 256 ≤ a.formerModule ∨ 16 ≤ a.formerPart ∧ a.formerPart ≠ 0xFF
  then ans stMalformed s
  else if a.holderModule = s.self ∧ s.exists_ a.holderPart = false then ans stNotPermitted s
  else if a.epoch < old.epoch ∨ (a.epoch = old.epoch ∧ held = true ∧ same = false) then
    (stStaleEpoch, old.bytes, s.inc Reg.lnyStaleCount)
  else if same && a.epoch == old.epoch then (stOk, old.bytes, s)
  else
    let new : Role := { modNum := a.holderModule, part := a.holderPart, epoch := a.epoch }
    let s := { s with ecron := { s.ecron with directory := mput s.ecron.directory a.role new } }
    let s := s.raisePeer a.holderModule a.holderPart a.epoch
    let s := if a.formerModule = 0xFF ∨ a.formerPart = 0xFF then s else s.raisePeer a.formerModule a.formerPart a.epoch
    let s := if a.holderModule = s.self then
        let s := s.setReg (Reg.lnyPartEpoch a.holderPart) (max (s.reg (Reg.lnyPartEpoch a.holderPart)) a.epoch)
        s.modStep a.holderPart fun x => if x.committedAny then x else { x with counter := a.startStep }
      else s
    (stOk, new.bytes, s)

/-- ROLE_ASSIGN (R509). -/
def execRoleAssign (h : CmdHdr) (a : RoleAssign) (s : State) : Host.Outcome State Fault Refusal :=
  .next (s.command h 0x0303 fun s => s.assignRole a)

/-- SEIZE_RELEASE (R507): from the holder at the current epoch, while HELD; after a shutdown at 110 °C only a restart
releases the module (R553). -/
def execSeizeRelease (h : CmdHdr) (s : State) : Host.Outcome State Fault Refusal :=
  .next (s.command h 0x0304 fun s =>
    if !(s.holdsAt h.session (s.cmdNow h.session h.seq) && h.epoch == s.lease.epoch) || s.thermo.shut then (stLeaseLost, s.leaseInfo, s)
    else if !s.lease.seized then ans stOk s
    else
      let s := { s with lease := { s.lease with seized := false } }
      ans stOk (foldS (fun s p => s.modStep p fun x => { x with mode := 0, modeNext := none }) s (upTo 16)))

/-! Heartbeats missed (R503) -/

/-- The misses of a port. -/
def State.misses (s : State) (port : Nat) : Nat :=
  match (s.hostPort port).lastHb with
  | some a => (s.now - a) / 20000000
  | none => 0

/-- PORT_SILENT (R503): once, until the port's next copy; not during the management pause, whose held heartbeats count from their
arrival (R520; DEDUCED, log entry 51). -/
def execPortSilent (port : Fin 2) (t : Nat) (s : State) : Host.Outcome State Fault Refusal :=
  let p := port.val
  let s := s.tick t
  .next (
    if s.misses p < 5 ∨ 5 ≤ s.misses (1 - p) ∨ (s.hostPort p).silentSent = true ∨ s.update.paused.isSome = true then s
    else (s.modHostPort p fun x => { x with silentSent := true }).eventC 17 stOk p [])

/-- COMMANDER_LOST (R503): once, until the next holder heartbeat; not during the management pause (R520; DEDUCED, log entry
51). -/
def execCommanderLost (t : Nat) (s : State) : Host.Outcome State Fault Refusal :=
  let s := s.tick t
  let l := s.lease
  .next (
    if l.holder = 0 ∨ l.lost = true ∨ s.misses 0 < 5 ∨ s.misses 1 < 5 ∨ s.update.paused.isSome = true then s
    else
      ({ s with lease := { l with lost := true } }.inc Reg.lnyLostCount).eventC 16 stOk l.holder
        (toLe 4 l.epoch ++ toLe 4 0 ++ toLe 8 l.expiry))

/-- LEASE_LAPSE (R498): module time passes the expiry, from which the lanyard reads LAPSED. -/
def execLeaseLapse (t : Nat) (s : State) : Host.Outcome State Fault Refusal := .next (s.tick t)

/-! Seizing (R505, R506) -/

/-- The module seizes: every step but a running commit stops, SEIZED goes to every session, and a LEASE record is written. -/
def State.seizeNow (s : State) : State :=
  let s := { s with lease := { s.lease with seized := true } }
  let s := foldS (fun s p => if s.commitRuns p then s else s.stopStep p false) s (upTo 16)
  let s := s.eventAll 19 stOk 0 []
  let s := s.fsr (s.record 16 none)
  s.inc Reg.lnySeizeCount

/-- The role lease has lapsed (R505). -/
def State.roleLapsed (s : State) : Bool :=
  s.lease.armed && decide (s.lease.roleLast + msNs (s.lease.roleDuration + s.lease.grace) ≤ s.now)

/-- SEIZE (R505, R506): during the management pause, and while a held command waits, the check is not made (R520). -/
def execSeize (t : Nat) (s : State) : Host.Outcome State Fault Refusal :=
  let s := s.tick t
  .next (if s.lease.seized || !s.roleLapsed || s.update.paused.isSome || !s.update.stamps.isEmpty then s else s.seizeNow)

end Sys2Proof.Machine
end

