-- ==== Sys2Proof/Machine/Thermal.lean ====
section
/-! DEFINITION. Cooling, reefing and ageing margins (chapter 22): sensors (R546, R547), reef steps (R548 to R552), trips
(R553), the keep-warm floor (R556), rotation (R557) and guardbands (R558, R559). -/

namespace Sys2Proof.Machine

/-! Spots (R546, R547) -/

/-- A spot of the junction limit class (R546). -/
def isJunction (i : Nat) : Bool := decide (i < 16) || decide (24 ≤ i ∧ i < 32)
/-- A spot of the memory limit class. -/
def isMemory (i : Nat) : Bool := decide (16 ≤ i ∧ i < 24)

/-- A reading within −20 °C to 150 °C (R547). -/
def goodReading (v : Int) : Bool := decide (-200 ≤ v ∧ v ≤ 1500)

/-- Write a THERMAL record of a spot (R547, R553): a hank's spot names its hank, in its partition's records. -/
def State.thermalRecord (s : State) (spot : Nat) : State :=
  let r := s.record 19 (if spot < 16 then s.partOf spot else none)
  s.fsr { r with wher := if spot < 16 then [(0, dieOf spot), (1, spot)] else [] }

/-- The governed value of a spot from its readings (R547): none where both sensors of a hank's spot have failed. -/
def governed (i : Nat) (x : Spot) (now : Nat) : Option Int :=
  let est := Config.spotEstimate i now
  match x.a, x.b with
  | some a, some b => some (if x.split then max (max a b) est else max a b)
  | some a, none => some (max a est)
  | none, some b => some (max b est)
  | none, none => if i < 16 then none else some (est + 50)

/-- The readings of a spot more than 5 K apart, or within it, since when (R547). -/
def Spot.apart (x : Spot) (now : Nat) : Spot :=
  match x.a, x.b with
  | some a, some b =>
    if 50 < (a - b).natAbs then { x with apartSince := some (x.apartSince.getD now), withinSince := none }
    else { x with apartSince := none, withinSince := some (x.withinSince.getD now) }
  | _, _ => { x with apartSince := none, withinSince := none }

/-- A split ends once the readings have been within 5 K for 1 s (R547). -/
def Spot.endSplit (x : Spot) (now : Nat) : Spot :=
  match x.withinSince with
  | some a => if a + 1000000000 ≤ now then { x with split := false } else x
  | none => x

/-- Change a spot. -/
def State.modSpot (s : State) (i : Nat) (f : Spot → Spot) : State :=
  { s with thermo := { s.thermo with spots := mput s.thermo.spots i (f (s.spot i)) } }

/-- A failed pair of a hank's spot holds the hank at step 2 (R547, R551). -/
def State.holdFor (s : State) (i : Nat) : State :=
  if i < 16 then
    let x := s.spot i
    s.modAgeing i fun y => { y with sensorHold := if x.a.isNone && x.b.isNone then 2 else 0 }
  else s

/-- The reef step changes (R552): counted and sent in every session. -/
def State.setReef (s : State) (step : Nat) : State :=
  if s.thermo.step = step then s
  else
    let s := { s with thermo := { s.thermo with step := step, trip := s.thermo.trip && step == 3 } }
    (s.inc Reg.thmReefChangeCount).eventAll 26 stOk step []

/-- The start fails (R571): FAILED, phase and cause stand, with a START record and START_FAILED. -/
def State.failStart (s : State) (cause : Nat) : State :=
  if s.start.failed then s
  else
    let s := { s with start := { s.start with failed := true, cause := cause } }
    (s.fsr (s.record 21 none)).eventC 32 stOk cause (toLe 4 s.start.phase)

/-- A junction value of 105 °C trips the module to step 3 (R553); before READY it fails the start (R571). -/
def State.tripAt (s : State) (i : Nat) (v : Int) : State :=
  if isJunction i = false ∨ v < 1050 ∨ s.thermo.trip = true then s
  else
    let s := { s with thermo := { s.thermo with trip := true } }
    let s := foldS (fun s g => s.followStep g) ((s.setReef 3).inc Reg.thmTripCount) (upTo 16)
    let s := s.eventC 29 stOk i []
    let s := s.thermalRecord i
    if s.start.dirReady then s else s.failStart 6

/-- The inlet pair (R545): since when it has read above 45 °C; below 44 °C COOLANT_HOT may be sent again. -/
def State.inletTimer (s : State) (v : Int) : State :=
  let th := s.thermo
  { s with thermo := { th with hotSince := if 450 < v then some (th.hotSince.getD s.now) else none,
                               hotSent := th.hotSent && decide (440 ≤ v) } }

/-- The higher good reading of a pair. -/
def Spot.reading (x : Spot) : Option Int :=
  match x.a, x.b with
  | some a, some b => some (max a b)
  | some a, none => some a
  | none, b => b

/-- A sensor has failed: a THERMAL record, once until it reads again (R547). -/
def State.sensorLost (s : State) (i : Nat) (before after : Option Int) (first : Bool) : State :=
  if after.isNone && (before.isSome || first) then s.thermalRecord i else s

/-- SENSOR_SAMPLE (R545 to R547, R553): the pair's new readings, none where a sensor is not updated, and what follows. -/
def execSensorSample (spot : Fin 34) (a b : Option Int) (t : Nat) (s : State) : Host.Outcome State Fault Refusal :=
  let i := spot.val
  let s := s.tick t
  let x := s.spot i
  let take (old new : Option Int) : Option Int := match new with
    | none => old
    | some v => if goodReading v then some v else none
  let y := { x with a := take x.a a, b := take x.b b, aAt := if a.isSome then s.now else x.aAt,
                    bAt := if b.isSome then s.now else x.bAt }
  let y := y.apart s.now
  let g := governed i y s.now
  let hot : Bool := match g with
    | some v => isJunction i && decide (1100 ≤ v)
    | none => false
  let y := { y with governed := (match g with
                      | some v => (v :: y.governed).take 10
                      | none => y.governed.dropLast),
                    overSince := if hot then some (y.overSince.getD s.now) else none }
  let s := s.modSpot i fun _ => y.endSplit s.now
  let s := s.sensorLost i x.a y.a (a.isSome && x.aAt == 0)
  let s := s.sensorLost i x.b y.b (b.isSome && x.bAt == 0)
  let s := s.holdFor i
  let s := match g with
    | some v => s.tripAt i v
    | none => s
  .next (match (s.spot i).reading with
    | some v => if i = 32 then s.inletTimer v else s
    | none => s)

/-- SENSOR_SPLIT (R547): a pair more than 5 K apart for more than 1 s, which it has been 1 s after the first sample that shows it
(DEDUCED from the example after R559, log entry 52). -/
def execSensorSplit (spot : Fin 34) (t : Nat) (s : State) : Host.Outcome State Fault Refusal :=
  let i := spot.val
  let s := s.tick t
  let x := s.spot i
  .next (match x.apartSince with
    | some a =>
      if x.split || decide (s.now < a + 1000000000) then s
      else
        let s := s.modSpot i fun y => { y with split := true, withinSince := none }
        let s := if i < 32 then s.setFlags Reg.thmSplitFlags (2 ^ i) else s
        (s.eventC 28 stOk i []).thermalRecord i
    | none => s)

/-- SENSOR_FAIL (R547): a sensor not updated for 10 ms counts as failed. -/
def execSensorFail (spot : Fin 34) (second : Bool) (t : Nat) (s : State) : Host.Outcome State Fault Refusal :=
  let i := spot.val
  let s := s.tick t
  let x := s.spot i
  let at_ := if second then x.bAt else x.aAt
  let old := if second then x.b else x.a
  .next (
    if old.isNone || decide (s.now < at_ + 10000000) then s
    else
      let s := s.modSpot i fun y => (if second then { y with b := none } else { y with a := none }).apart s.now
      (s.thermalRecord i).holdFor i)

/-- COOLANT_HOT (R545): the inlet has read above 45 °C for 1 s; sent once until it falls below 44 °C. -/
def execCoolantHot (t : Nat) (s : State) : Host.Outcome State Fault Refusal :=
  let s := s.tick t
  .next (match s.thermo.hotSince with
    | some a =>
      if s.thermo.hotSent || decide (s.now < a + 1000000000) then s
      else { s with thermo := { s.thermo with hotSent := true } }.eventC 27 stOk 0 []
    | none => s)

/-! Reef steps (R548, R549) -/

/-- The junction and memory thresholds of a step. -/
def reefThresholds (step : Nat) : Int × Int :=
  match step with
  | 1 => (950, 850)
  | 2 => (990, 890)
  | _ => (1020, 920)

/-- The highest governed value of the last 10 samples among some spots: far below every threshold where there is none. -/
def State.highest (s : State) (f : Nat → Bool) : Int :=
  foldS (fun m i => if f i then foldS (fun m v => max m v) m (s.spot i).governed else m) (-10000) (upTo 34)

/-- The target step of R549. -/
def reefTarget (j m : Int) : Nat :=
  ([3, 2, 1].find? fun k => decide ((reefThresholds k).1 ≤ j ∨ (reefThresholds k).2 ≤ m)).getD 0

/-- At a 10 ms boundary the hold of a hank takes effect, and its guardband when it has no step under way (R551, R558). -/
def State.hankBoundary (s : State) (g : Nat) : State :=
  let busy := match s.partOf g with
    | some p => s.stepUnderWay p
    | none => false
  (s.modAgeing g fun x =>
    let x := { x with hold := max x.sensorHold x.ageHold }
    match x.gNext with
    | some v => if busy then x else { x with g := v, gNext := none }
    | none => x).followStep g

/-- REEF_BOUNDARY (R549, R551, R558): at a whole multiple of 10 ms the step moves by at most one. -/
def execReefBoundary (t : Nat) (s : State) : Host.Outcome State Fault Refusal :=
  let s := s.tick t
  .next (
    if t ≠ s.now ∨ t % 10000000 ≠ 0 ∨ (t = s.thermo.lastBoundary ∧ s.thermo.history ≠ []) then s
    else
      let j := s.highest isJunction
      let m := s.highest isMemory
      let step := s.thermo.step
      let hist := ((j, m) :: s.thermo.history).take 10
      let thr := reefThresholds step
      let cool := hist.length == 10 && hist.all fun e => decide (e.1 < thr.1 - 30 ∧ e.2 < thr.2 - 30)
      let s := { s with thermo := { s.thermo with history := hist, lastBoundary := t } }
      let s := if step < reefTarget j m then s.setReef (step + 1)
        else if cool && step != 0 then s.setReef (step - 1) else s
      foldS (fun s g => s.hankBoundary g) s (upTo 16))

/-- Turn a domain off without saving: its contents and registers are lost, its ports are DOWN and its memory controller is OFF
(R172, R362, R553). -/
def State.dropDom (s : State) (n : Nat) : State :=
  let s := if 54 ≤ n ∧ n < 60 then foldS (fun s i => s.portDown (3 * (n - 54) + i) none) s (upTo 3) else s
  let s := ((s.loseUnsaved n).loseContents n).domCtl n 0
  { s with regs := s.regs.filter fun e => !(domAddr n e.1) }.setDom n Domain.empty

/-- THERMAL_SHUTDOWN (R553): a junction value of 110 °C or above for 10 ms stops every step, turns every switched domain off
but PD52, PD53 and PD63, and seizes the module until a restart. -/
def execThermalShutdown (t : Nat) (s : State) : Host.Outcome State Fault Refusal :=
  let s := s.tick t
  let hot := (upTo 34).any fun i => match (s.spot i).overSince with
    | some a => decide (a + 10000000 ≤ s.now)
    | none => false
  .next (
    if !hot || s.thermo.shut then s
    else
      let s := { s with thermo := { s.thermo with shut := true }, lease := { s.lease with seized := true } }
      let s := foldS (fun s p => if s.commitRuns p then s else s.stopStep p false) s (upTo 16)
      let s := foldS (fun s n => if n = 52 ∨ n = 53 ∨ n = 63 then s else s.dropDom n) s (upTo 64)
      foldS (fun s p => s.stopDone p) s (upTo 16))

/-! Keep-warm and rotation (R556, R557) -/

/-- A write of THM_KEEP_WARM (R560). -/
def State.keepWarmWrite (s : State) (v : Nat) : Nat × State :=
  if 1200 < v % 2048 then (stSpliceConflict, s)
  else (stOk, (s.setReg Reg.thmKeepWarm (v % 2048)).warmTo (v % 2048))

/-- THM_KEEP_WARM (R556). -/
def execThmKeepWarm (h : CmdHdr) (value : Word) (s : State) : Host.Outcome State Fault Refusal :=
  .next (s.regCommand h 0x0101 Reg.thmKeepWarm fun s =>
    let r := s.keepWarmWrite value.toNat
    ans r.1 r.2)

/-- Whether the step that a partition starts next lets the mapping change (R101): SCRATCH_LIVE is 0 in the descriptor of
every hank. -/
def State.mayRemap (s : State) (p : Nat) : Bool :=
  (s.part p).hanks.all fun g =>
    let a := s.programHank p g
    s.peekPLe p (s.reg64 (Reg.hnkProgLo a) (Reg.hnkProgHi a) + 0x48) 4 % 2 == 0

/-- ROTATION (R557): between steps, once THM_ROTATE_MS has passed, where R101 permits a change of mapping. -/
def execRotation (g : Fin 16) (t : Nat) (s : State) : Host.Outcome State Fault Refusal :=
  let g := g.val
  let s := s.tick t
  .next (match s.partOf g with
    | none => s
    | some p =>
      if bit (s.reg Reg.thmCtrl) 0 = false ∨ s.stepUnderWay p = true ∨ s.mayRemap p = false ∨
          s.now < (s.hank g).rotatedAt + msNs (s.reg Reg.thmRotateMs % 65536) then s
      else s.modHank g fun h => { h with rotation := (h.rotation + 1) % 8, rotatedAt := s.now })

/-! Guardbands (R558, R559) -/

/-- Re-plan one hank (R558, R559): a change of g or of the hold is sent and recorded; a new g waits for an idle boundary. -/
def State.replanHank (s : State) (g d ring : Nat) : State :=
  let x := s.ageing g
  let raw := 20 + 5 * ceilDiv d 100
  let new := min 60 raw
  let old := x.gNext.getD x.g
  let hold := if 60 < raw then 1 else 0
  let s := s.modAgeing g fun y =>
    { y with d := d, ring := ring, gNext := if new = y.g then none else some new, ageHold := hold,
             aged := y.aged || decide (60 < raw) }
  if new = old ∧ hold = x.ageHold then s
  else
    let r := s.record 20 (s.partOf g)
    let s := s.fsr { r with wher := [(0, dieOf g), (1, g)],
                            detail := [(0, old), (1, new), (2, d), (3, ring), (4, max x.sensorHold hold)] }
    s.eventC 30 stOk g (toLe 4 old ++ toLe 4 new ++ toLe 4 d ++ toLe 4 ring ++ toLe 4 (max x.sensorHold hold))

/-- A re-plan of the hanks whose monitors are given. -/
def State.replan (s : State) (ms : List Margin) : State :=
  let s := foldS (fun s m => s.replanHank m.hank.val m.d m.ring) s ms
  { s with thermo := { s.thermo with lastRemargin := s.now } }

/-- The monitors of every hank at this instant, for a re-plan asked for by a plain register write. -/
def State.monitors (s : State) : List Margin :=
  (List.finRange 16).map fun g => { hank := g, d := (Config.ageMonitors g.val s.now).1, ring := (Config.ageMonitors g.val s.now).2 }

/-- A write of THM_REMARGIN_CTRL (R559, R560). -/
def State.remarginWrite (s : State) (v : Nat) (ms : List Margin) : Nat × State :=
  if v % 256 = 0 then (stSpliceConflict, s)
  else
    let s := s.setReg Reg.thmRemarginCtrl (v % 256)
    (stOk, if bit v 8 then s.replan ms else s)

/-- NOW (R559): a write of NOW that leaves PERIOD_D as it is. -/
def execNow (h : CmdHdr) (ms : List Margin) (s : State) : Host.Outcome State Fault Refusal :=
  .next (s.regCommand h 0x0101 Reg.thmRemarginCtrl fun s =>
    let r := s.remarginWrite (s.reg Reg.thmRemarginCtrl % 256 + 256) ms
    ans r.1 r.2)

/-- MARGIN_REPLAN (R559): PERIOD_D days after the last re-plan. -/
def execMarginReplan (ms : List Margin) (t : Nat) (s : State) : Host.Outcome State Fault Refusal :=
  let s := s.tick t
  .next (
    if s.now < s.thermo.lastRemargin + 86400000000000 * (s.reg Reg.thmRemarginCtrl % 256) then s else s.replan ms)

end Sys2Proof.Machine
end

