-- ==== Sys2Proof/Machine/Start.lean ====
section
/-! DEFINITION. Input power, sideband pins, the start-up sequence and the SMBus sideband (chapter 23), with the boot part of
R525. -/

namespace Sys2Proof.Machine

/-! The coil slots that a start boots (R516, R525, R571) -/

/-- A coil slot: 0 is A, 1 is B. -/
def Update.slot (u : Update) (k : Nat) : CoilSlot := if k = 0 then u.slotA else u.slotB
/-- Change a coil slot. -/
def Update.setSlot (u : Update) (k : Nat) (x : CoilSlot) : Update := if k = 0 then { u with slotA := x } else { u with slotB := x }
/-- Set the state of a coil slot. -/
def Update.setState (u : Update) (k st : Nat) : Update := u.setSlot k { u.slot k with state := st }
/-- The CONFIRMED slot. -/
def Update.confirmed (u : Update) : Nat := if u.slotA.state = 5 then 0 else 1
/-- SVN of a slot's coil (R513). -/
def CoilSlot.svn (x : CoilSlot) : Nat := leAt x.header 0xC 4
/-- RELEASE of a slot's coil. -/
def CoilSlot.release (x : CoilSlot) : Nat := leAt x.header 0x18 4
/-- SETTINGS_FORMAT of a slot's coil. -/
def CoilSlot.format (x : CoilSlot) : Nat := leAt x.header 0x1C 2
/-- The component IDs of a slot's coil. -/
def CoilSlot.parts (x : CoilSlot) : List Nat := ((upTo 4).map fun i => leAt x.header (0x20 + 16 * i) 1).filter fun k => k != 0

/-- COIL_FALLBACK at a start (R525, R571): sent, recorded as UPDATE and counted. -/
def State.fellBack (s : State) (slot : Nat) : State :=
  ((s.eventC 23 stOk slot []).fsr (s.record 17 none)).inc Reg.updFallbackCount

/-- Every component boots from the CONFIRMED slot; a slot in TRIAL or SCHEDULED returns to VERIFIED, a fall-back (R525). -/
def State.bootCoil (s : State) : State :=
  let u := s.update
  let c := u.confirmed
  let o := 1 - c
  let back := (u.slot o).state == 3 || (u.slot o).state == 4
  let u := if back then u.setState o 2 else u
  let s := { s with update := { u with micro := c, ccf := c, mgmt := c, dual := false, schedT := none, preloaded := false,
                                       switching := [], paused := none, held := [], stamps := [],
                                       trialAt := none, overdueSent := false } }
  if back then s.fellBack o else s

/-! Pins and input power (R563, R565, R566) -/

/-- The input lies within 46 V to 58 V (in 0.1 V). -/
def inputInside (v : Nat) : Bool := decide (460 ≤ v ∧ v ≤ 580)

/-- What a reset or a shutdown leaves (R6, R566, R573): the flash, the pins and what stands outside the block; PRSNT_N and
PWRGD are in their absent states, every transmitter is idle, every domain is off, and Aelpo is held. -/
def State.powerDown (s : State) : State :=
  { State.reset with
    pending := s.pending
    now := s.now
    fresh := s.fresh
    sent := s.sent
    lease := { Lease.empty with epoch := s.lease.epoch }
    security := { Security.empty with gen := s.security.gen, bootCount := s.security.bootCount, trust := s.security.trust }
    update := s.update
    start := { Start.atT0 with qualified := s.start.qualified, qualifiedAt := s.start.qualifiedAt, prsnt := false, pwrgd := false,
                               resetN := s.start.resetN, phase := 0, vin := s.start.vin, inputOk := s.start.inputOk,
                               latchOpen := s.start.latchOpen } }

/-- INPUT_QUALIFIED (R563, R565, R566): the busbar has held 45.5 V or more for 100 ms; PRSNT_N is driven low while RESET_N is
high. -/
def execInputQualified (vin : Nat) (t : Nat) (s : State) : Host.Outcome State Fault Refusal :=
  let s := s.tick t
  .next (
    if s.start.qualified || decide (vin < 455 ∨ 600 < vin) then s
    else { s with start := { s.start with qualified := true, qualifiedAt := s.now, prsnt := s.start.resetN, vin := vin,
                                          inputOk := inputInside vin } })

/-- INPUT_RANGE (R565): 44 V to 46 V or 58 V to 60 V, sent once per entry. -/
def execInputRange (vin : Nat) (t : Nat) (s : State) : Host.Outcome State Fault Refusal :=
  let s := s.tick t
  .next (
    if vin < 440 ∨ 600 < vin ∨ inputInside vin = true then s
    else
      let first := s.start.inputOk
      let s := { s with start := { s.start with vin := vin, inputOk := false } }
      if first then s.eventC 33 stOk vin [] else s)

/-- INPUT_OK (R565): the input returns to 46 V to 58 V. -/
def execInputOk (vin : Nat) (t : Nat) (s : State) : Host.Outcome State Fault Refusal :=
  let s := s.tick t
  .next (if inputInside vin then { s with start := { s.start with vin := vin, inputOk := true } } else s)

/-- INPUT_SHUTDOWN (R565): below 44 V or above 60 V the module behaves as in reset until the input qualifies again. -/
def execInputShutdown (vin : Nat) (t : Nat) (s : State) : Host.Outcome State Fault Refusal :=
  let s := s.tick t
  .next (
    if 440 ≤ vin ∧ vin ≤ 600 then s
    else { s with start := { s.start with qualified := false, vin := vin, inputOk := false } }.powerDown)

/-- PWRGD (R566): with the input qualified and RESET_N high, t0; module time starts from 0 and phase 1 begins. -/
def execPwrgd (t : Nat) (s : State) : Host.Outcome State Fault Refusal :=
  let s := s.tick t
  .next (
    if !s.start.qualified || !s.start.resetN || s.start.pwrgd then s
    else { s with now := 0, start := { s.start with pwrgd := true, phase := 1, phaseAt := 0 } })

/-- RESET_N_LOW (R566). -/
def execResetNLow (t : Nat) (s : State) : Host.Outcome State Fault Refusal :=
  let s := s.tick t
  .next (if !s.start.resetN then s else { s with start := { s.start with resetN := false } }.powerDown)

/-- RESET_N_HIGH (R563, R566): a powered module drives PRSNT_N low, and PWRGD follows when the input is qualified. -/
def execResetNHigh (t : Nat) (s : State) : Host.Outcome State Fault Refusal :=
  let s := s.tick t
  .next { s with start := { s.start with resetN := true, prsnt := s.start.qualified } }

/-- TRAY_LATCH (R575): a change is sent. -/
def execTrayLatch (isOpen : Bool) (t : Nat) (s : State) : Host.Outcome State Fault Refusal :=
  let s := s.tick t
  .next (
    if s.start.latchOpen = isOpen then s
    else { s with start := { s.start with latchOpen := isOpen } }.eventC 34 stOk (b2n isOpen) [])

/-! The start-up sequence (R568 to R572) -/

/-- A phase that has not failed is the present one. -/
def State.inPhase (s : State) (n : Nat) : Bool := s.start.pwrgd && !s.start.failed && s.start.phase == n

/-- The next phase begins. -/
def State.toPhase (s : State) (n : Nat) : State := { s with start := { s.start with phase := n, phaseAt := s.now } }

/-- AELPO (R563, R568, R571): the settings are read, the straps taken, and the boot count rises. -/
def execAelpo (flashOk : Bool) (t : Nat) (s : State) : Host.Outcome State Fault Refusal :=
  let s := s.tick t
  .next (
    if !(s.inPhase 1) then s
    else if !flashOk then s.failStart 2
    else
      { s with start := { s.start with slotId := Config.slotStraps % 256 },
               security := { s.security with bootCount := s.security.bootCount + 1 } }.toPhase 2)

/-- COIL (R568, R571): the CONFIRMED coil, or else the other slot when it may take its place. -/
def execCoil (okA okB : Bool) (t : Nat) (s : State) : Host.Outcome State Fault Refusal :=
  let s := s.tick t
  .next (
    if !(s.inPhase 2) then s
    else
      let s := s.bootCoil
      let u := s.update
      let c := u.confirmed
      let o := 1 - c
      let ok (k : Nat) : Bool := if k = 0 then okA else okB
      if ok c then s.toPhase 3
      else if ok o && (u.slot o).state == 2 && decide (u.minSvn ≤ (u.slot o).svn) && (u.slot o).format == (u.slot c).format then
        let u := (u.setSlot c CoilSlot.empty).setState o 5
        ({ s with update := { u with micro := o, ccf := o, mgmt := o } }.fellBack o).toPhase 3
      else s.failStart 1)

/-- WAKE (R172, R542, R568): every domain is on, firmware runs, and the memories are in training. -/
def execWake (t : Nat) (s : State) : Host.Outcome State Fault Refusal :=
  let s := s.tick t
  .next (
    if !(s.inPhase 3) then s
    else
      let s := foldS (fun s n => s.setDom n
        { Domain.empty with state := .on, target := 0, fromOff := false, cleated := false, since := s.now,
                            offSpans := [(0, some s.now)] }) s (upTo 64)
      let s := foldS (fun s g => s.modHank g fun h => { h with microSlot := s.update.micro }) s (upTo 16)
      (foldS (fun s c => s.setCtl c 1) s (upTo 10)).toPhase 4)

/-- MEMORY (R568, R571): links calibrated and memories trained, or the start fails. -/
def execMemory (linkFail : Option (Fin 4)) (unitFail : Option (Fin 20)) (t : Nat) (s : State) :
    Host.Outcome State Fault Refusal :=
  let s := s.tick t
  .next (
    if !(s.inPhase 4) then s
    else
      match linkFail, unitFail with
      | some _, _ => s.failStart 3
      | none, some u => (s.setCtl (ctlIndex u.val) 4).failStart 4
      | none, none => (foldS (fun s c => s.setCtl c 2) s (upTo 10)).toPhase 5)

/-- INIT (R147, R568): slot 16 holds its key, every partial granule is the module's, and no partition exists. -/
def execInit (t : Nat) (s : State) : Host.Outcome State Fault Refusal :=
  let s := s.tick t
  .next (
    if !(s.inPhase 5) then s
    else
      let s := foldS (fun s u => s.setOwn u (granulesOf u - 1) 16) s (upTo 20)
      { s with security := { s.security with slots := [16] } }.toPhase 6)

/-- SELF_TEST (R572): a weak strand is quarantined fully and the start is DEGRADED; a failed built-in test fails it. -/
def execSelfTest (weak : List (Fin 128)) (bistFail : Bool) (t : Nat) (s : State) : Host.Outcome State Fault Refusal :=
  let s := s.tick t
  .next (
    if !(s.inPhase 6) then s
    else
      let s := foldS (fun s (k : Fin 128) => s.quarantine k.val (2 ^ 31)) s weak
      let s := if weak.isEmpty then s else { s with start := { s.start with degraded := true } }
      if bistFail then s.failStart 5 else s.toPhase 7)

/-- LINKS (R568): every enabled intra-group port is UP, or 15 s have passed; LEASE_WAIT is sent. A DIR_READY already written
ends the start at once. -/
def execLinks (t : Nat) (s : State) : Host.Outcome State Fault Refusal :=
  let s := s.tick t
  let up := (upTo 15).all fun p => !(bit (s.reg Reg.ecnCtrl) p) || (s.port p).state == 4
  .next (
    if !(s.inPhase 7) || !(up || decide (s.start.phaseAt + 15000000000 ≤ s.now)) then s
    else
      let s := (s.toPhase 8).eventC 31 stOk 0 []
      let s := { s with start := { s.start with leaseWaitAt := s.now } }
      if s.start.dirReady then s.toPhase 9 else s)

/-- A write of LNY_CTRL (R510, R512): DIR_READY is set, and cleared only by a restart; in phase 8 it ends the start. -/
def State.lnyCtrlWrite (s : State) (v : Nat) : State :=
  if !(bit v 0) then s
  else
    let s := { s with start := { s.start with dirReady := true } }
    if s.inPhase 8 then s.toPhase 9 else s

/-- DIR_READY (R510). -/
def execDirReady (h : CmdHdr) (s : State) : Host.Outcome State Fault Refusal :=
  .next (s.regCommand h 0x0101 Reg.lnyCtrl fun s => ans stOk (s.lnyCtrlWrite 1))

/-- A write of GBL_START_CTRL (R575). -/
def State.startCtrlWrite (s : State) (v : Nat) : Nat × State :=
  if s.start.dirReady then (stSpliceConflict, s) else (stOk, s.setReg Reg.gblStartCtrl (v % 2))

/-- GBL_START_CTRL (R575). -/
def execGblStartCtrl (h : CmdHdr) (value : Word) (s : State) : Host.Outcome State Fault Refusal :=
  .next (s.regCommand h 0x0101 Reg.gblStartCtrl fun s =>
    let r := s.startCtrlWrite value.toNat
    ans r.1 r.2)

/-! Start registers (R23, R575) -/

/-- GBL_DEVICE_ID (R2). -/
def deviceId : Nat := if Config.marine then 0x72084DB1 else 0x720841B1
/-- The order number of the build in ASCII, filled with zeros to 16 bytes (R1, R2, R486, R574): VXK-7208-A or VXK-7208-M. -/
def orderNumber : List Byte :=
  [0x56, 0x58, 0x4B, 0x2D, 0x37, 0x32, 0x30, 0x38, 0x2D] ++ [if Config.marine then 0x4D else 0x41] ++ toLe 6 0
/-- GBL_START_STATUS. -/
def State.startStatus (s : State) : Nat :=
  s.start.phase + 16 * b2n s.start.failed + 32 * b2n s.start.degraded + 256 * s.start.cause
/-- GBL_START_MS. -/
def State.startMs (s : State) : Nat := s.start.phaseAt / 1000000 % 2 ^ 20
/-- GBL_PINS. -/
def State.pins (s : State) : Nat :=
  b2n s.start.latchOpen + 2 * b2n s.start.inputOk + 256 * s.start.slotId + 65536 * (s.start.vin % 1024)

/-- A sensor reading of THM_SPOT: signed 0.1 °C, 0x8000 failed, 0 before the first sample (R560). -/
def spotHalf (v : Option Int) (at_ : Nat) : Nat :=
  match v with
  | some x => (x % 65536).toNat
  | none => if at_ = 0 then 0 else 0x8000
/-- THM_SPOT. -/
def State.spotReg (s : State) (i : Nat) : Nat :=
  let x := s.spot i
  spotHalf x.a x.aAt + 65536 * spotHalf x.b x.bAt
/-- THM_MODULE_EST (log entry 23). -/
def State.moduleEst (s : State) : Nat := s.estimate / 1000 % 4096

/-! The SMBus sideband (R574) -/

/-- SMBALERT_N is asserted; in reset and unpowered it is absent (R573, R574). -/
def State.smbAlert (s : State) : Bool := s.start.pwrgd && (s.start.failed || s.thermo.trip || !s.start.inputOk)

/-- Aelpo serves SMBus from the end of phase 1 (R568), and no transaction without its PEC (R574). -/
def State.smbServed (s : State) (pec : Bool) : Bool := pec && s.start.pwrgd && decide (2 ≤ s.start.phase)

/-- An SMBus transaction returns the island's regulator to normal mode (R540). -/
def State.smbWake (s : State) : State := { s with power := { s.power with lpActive := false } }

/-- A block read: the byte count and the block, or no acknowledge. -/
def State.smbRead (s : State) (pec : Bool) (block : List Byte) : State :=
  if s.smbServed pec then s.smbWake.send (.smbus (toLe 1 block.length ++ block)) else s.send .nack

/-- IDENTITY (R574). -/
def execIdentity (pec : Bool) (s : State) : Host.Outcome State Fault Refusal :=
  .next (s.smbRead pec (toLe 4 deviceId ++ slice Config.identity 0 16 ++ orderNumber ++ toLe 4 s.security.bootCount))

/-- STATE (R574). -/
def execState (pec : Bool) (s : State) : Host.Outcome State Fault Refusal :=
  .next (s.smbRead pec (toLe 4 s.gblState ++ toLe 4 s.startStatus ++ toLe 4 s.pins))

/-- The highest present junction value in 0.1 °C: 0x8000 where no spot has one. -/
def State.highestNow (s : State) : Nat :=
  let l := ((upTo 34).filter isJunction).filterMap fun i => (s.spot i).governed.head?
  match l with
  | [] => 0x8000
  | v :: r => ((r.foldl max v) % 65536).toNat

/-- THERMAL (R574). -/
def execThermal (pec : Bool) (s : State) : Host.Outcome State Fault Refusal :=
  .next (s.smbRead pec (toLe 4 (s.spotReg 32) ++ toLe 4 (s.spotReg 33) ++ toLe 2 s.highestNow ++ toLe 2 s.thermo.step))

/-- POWER (R574). -/
def execPower (pec : Bool) (s : State) : Host.Outcome State Fault Refusal :=
  .next (s.smbRead pec (toLe 4 s.pins ++ toLe 4 s.moduleEst))

/-- TRUST_WRITE (R480, R574): acknowledged only while LATCH_N is high. -/
def execTrustWrite (entry : Nat) (digest : List Byte) (pec : Bool) (s : State) : Host.Outcome State Fault Refusal :=
  .next (
    if !(s.smbServed pec) || !s.start.latchOpen || decide (3 < entry) || digest.length != 64 then s.send .nack
    else
      let new := if digest.all fun b => b == 0 then none else some digest
      { s with security := { s.security with trust := mset s.security.trust entry new } }.smbWake.send (.smbus []))

/-- ALERT_RESPONSE (R574): while SMBALERT_N is asserted, the module answers its address, 0x5A. -/
def execAlertResponse (pec : Bool) (s : State) : Host.Outcome State Fault Refusal :=
  .next (if s.smbServed pec && s.smbAlert then s.smbWake.send (.smbus [0x5A]) else s.send .nack)

end Sys2Proof.Machine
end

