-- ==== Sys2Proof/Machine/Security.lean ====
section
/-! DEFINITION. Partitions, sessions, job keys and attestation (chapter 18): creation and destruction, SESSION_OPEN and
SESSION_CLOSE, ATTEST, SEC_CTRL and DEBUG_OPEN. -/

namespace Sys2Proof.Machine

/-! Creation (R473 to R476) -/

/-- The first multiple of a step from which a run of n lies clear of the used ranges, below a limit: a free run begins at 0
or at the end of a used range, rounded up. -/
def freeRun (used : List (Nat × Nat)) (limit align n : Nat) : Option Nat :=
  let starts := 0 :: used.map fun r => ceilDiv (r.1 + r.2) align * align
  let good := starts.filter fun b => decide (b + n ≤ limit) &&
    used.all fun r => r.2 == 0 || n == 0 || decide (b + n ≤ r.1 ∨ r.1 + r.2 ≤ b)
  match good with
  | [] => none
  | a :: r => some (r.foldl min a)

/-- The ranges that existing partitions hold. -/
def State.usedRanges (s : State) (f : Part → Nat × Nat) : List (Nat × Nat) :=
  ((upTo 16).filter fun q => s.exists_ q).map fun q => f (s.part q)

/-- The bight slots in use on a die, as registers and as steps under way hold them (R258). -/
def State.usedBight (s : State) (d : Nat) : List (Nat × Nat) :=
  ((upTo 16).filter fun q => s.exists_ q).flatMap fun q =>
    [s.reg (Reg.kvpPartBightRegion d q), s.bightRegion d q].map fun v => (v % 65536, v / 65536)

/-- The whole granules of a unit that are FREE, ascending. -/
def State.freeGranules (s : State) (u : Nat) : List Nat := (upTo (granulesOf u - 1)).filter fun k => s.ownByte u k == 31

/-- The entries of the page table, which the ranges of both tiers share (R230). -/
def allPages : Nat := 2 ^ 22

/-- The parameters of PART_CREATE (R473). -/
structure Create where
  part : Nat
  hanks : List Nat
  granules : List Nat
  kvHbm : Nat
  kvCt : Nat
  seqs : Nat
  chains : Nat
  handles : Nat
  tenant : List Byte
  deriving DecidableEq, Repr

/-- Read the parameters of PART_CREATE. -/
def Create.parse (b : List Byte) : Create :=
  { part := leAt b 0 1, hanks := (upTo 16).filter fun h => bit (leAt b 2 2) h,
    granules := (slice b 4 20).map fun x => x.toNat, kvHbm := leAt b 0x18 2, kvCt := leAt b 0x1A 2, seqs := leAt b 0x1C 4,
    chains := leAt b 0x20 4, handles := leAt b 0x24 2, tenant := slice b 0x28 64 }

/-- The lowest-numbered stack with a requested granule. -/
def Create.firstStack (c : Create) : Option Nat := (upTo 8).find? fun u => c.granules.getD u 0 != 0

/-- The second case of R474: MALFORMED. -/
def Create.bad (c : Create) (b : List Byte) : Bool :=
  let sum (l : List Nat) : Nat := l.foldl (fun a x => a + x) 0
  b.length != 104 || decide (16 ≤ c.part) || leAt b 1 1 != 0 || leAt b 0x26 2 != 0 || decide (262144 < c.seqs) ||
    decide (4194304 < c.chains) || c.hanks.isEmpty || decide (sum (c.granules.take 8) < c.kvHbm) ||
    decide (sum (c.granules.drop 8) < c.kvCt) ||
    (match c.firstStack with
     | none => true
     | some u => decide (c.granules.getD u 0 < ceilDiv (c.hanks.length * 18645120) granule))

/-- The lowest free runs for the ranges of a creation (R475): HBM pages, capacity-tier pages, sequence IDs, chains, and a
bight region on each die that holds hanks of it. -/
structure Runs where
  pages : Nat
  ctPages : Nat
  seqs : Nat
  chains : Nat
  bight : List (Nat × Nat × Nat)
  deriving DecidableEq, Repr

/-- Find the runs of a creation, none where one is missing (R474): the HBM pages take the lowest free run of the page table, the
capacity-tier pages the lowest that is free after them (DESIGN CHOICE, log entry 73). -/
def State.findRuns (s : State) (c : Create) : Option Runs :=
  let used := s.usedRanges (fun x => (x.pageBase, x.pgHbm)) ++ s.usedRanges fun x => (x.pageBaseCt, x.pgCt)
  let hbm := freeRun used allPages 1 (4096 * c.kvHbm)
  let ct := freeRun (used ++ hbm.toList.map fun a => (a, 4096 * c.kvHbm)) allPages 1 (4096 * c.kvCt)
  let seqs := freeRun (s.usedRanges fun x => (x.seqBase, x.seqSize)) 262144 1 c.seqs
  let chains := freeRun (s.usedRanges fun x => (x.chainBase, x.chainSize)) 4194304 1 c.chains
  let dies := (upTo 4).filterMap fun d =>
    let h := (c.hanks.filter fun g => dieOf g == d).length
    if h = 0 then none else some (d, h)
  let bight := dies.map fun dh => (freeRun (s.usedBight dh.1) 32768 4 (8192 * dh.2)).map fun b => (dh.1, b, 8192 * dh.2)
  match hbm, ct, seqs, chains with
  | some a, some b, some q, some k =>
    if bight.all fun x => x.isSome then
      some { pages := a, ctPages := b, seqs := q, chains := k, bight := bight.filterMap id }
    else none
  | _, _, _, _ => none

/-- The third case of R474: ADMIT_FULL. -/
def State.createFull (s : State) (c : Create) : Bool :=
  (c.hanks.any fun g => (s.partOf g).isSome) ||
    ((upTo 20).any fun u => decide ((s.freeGranules u).length < c.granules.getD u 0)) || (s.findRuns c).isNone

/-- Accept a creation (R475): granules, ranges, generation, slot key and Fairlead tables, with the waking of the memory domains
that the writes of its lines reach (R23). A register of the module as a whole keeps its committed value (DESIGN CHOICE, log
entry 64). -/
def State.acceptCreate (s : State) (h : CmdHdr) (c : Create) (r : Runs) : State :=
  let p := c.part
  let g := s.security.gen + 1
  let s := foldS (fun s u => foldS (fun s k => s.setOwn u k (p + 32)) s ((s.freeGranules u).take (c.granules.getD u 0))) s (upTo 20)
  let s := s.setPart p { Part.empty with
    state := .creating, hanks := c.hanks, gen := g, tenant := c.tenant, seqBase := r.seqs, seqSize := c.seqs,
    handles := c.handles, pgHbm := 4096 * c.kvHbm, pgCt := 4096 * c.kvCt, pageBase := r.pages, pageBaseCt := r.ctPages,
    chainBase := r.chains, chainSize := c.chains, saveArea := unitBase (c.firstStack.getD 0), cmdSeq := h.seq,
    cmdSession := h.session, firstRecord := s.checks.next }
  let hbm : FreeList := { returned := [], next := r.pages, limit := r.pages + 4096 * c.kvHbm }
  let ct : FreeList := { returned := [], next := r.ctPages, limit := r.ctPages + 4096 * c.kvCt }
  let s := { s with
    security := { s.security with gen := g, slots := (s.security.slots.filter fun k => k != p) ++ [p] }
    kv := { s.kv with lists := mput (mput s.kv.lists (2 * p) hbm) (2 * p + 1) ct } }
  let s := foldS (fun s d =>
    let v := ((r.bight.find? fun b => b.1 == d).map fun b => b.2.1 + 65536 * b.2.2).getD 0
    let s := s.setReg (Reg.kvpPartBightRegion d p) v
    { s with kv := { s.kv with regionForce := nput s.kv.regionForce (16 * d + p) v } }) s (upTo 4)
  (s.wakeMemory p).shareTables

/-- PART_CREATE (R473 to R475, R489). -/
def execPartCreate (h : CmdHdr) (params : List Byte) (s : State) : Host.Outcome State Fault Refusal :=
  .next (s.command h 0x0200 fun s =>
    let c := Create.parse params
    if s.security.debugOpen then ans stNotPermitted s
    else if c.part < 16 ∧ s.exists_ c.part = true then ans stNotPermitted s
    else if c.bad params then ans stMalformed s
    else if s.createFull c then ans stAdmitFull s
    else
      match s.findRuns c with
      | none => ans stAdmitFull s
      | some r => ans stOk (s.acceptCreate h c r))

/-- PART_ACTIVE (R475): every line is written, the partition's registers read their reset values, and its session may be
opened. -/
def execPartActive (p : Fin 16) (t : Nat) (s : State) : Host.Outcome State Fault Refusal :=
  let p := p.val
  let s := s.tick t
  .next (
    if (s.part p).state != .creating then s
    else
      let x := s.part p
      let s := (s.overwrite p).clearPartRegs p
      let s := { s with owners := s.owners.map fun (e : Nat × Nat) => if e.2 % 32 == p then (e.1, p) else e }
      let s := (s.modPart p fun y => { y with state := .active }).partStateEvent p
      let s := s.commandDone x.cmdSession x.cmdSeq stOk [x.gen]
      if x.destroyCmds.isEmpty then s else s.beginDestroy p)

/-- PART_DESTROY (R490). -/
def execPartDestroy (h : CmdHdr) (p : Nat) (s : State) : Host.Outcome State Fault Refusal :=
  .next (s.command h 0x0201 fun s =>
    if 16 ≤ p then ans stMalformed s
    else if !(s.exists_ p) then ans stNotPermitted s
    else
      let s := s.modPart p fun x => { x with destroyCmds := x.destroyCmds ++ [(h.session, h.seq)] }
      let now := ((s.part p).state == .active || (s.part p).state == .resetting) && !(s.commitRuns p)
      ans stOk (if now then s.beginDestroy p else s))

/-- WHIP_OVERWRITE_END (R491). -/
def execWhipOverwriteEnd (p : Fin 16) (t : Nat) (s : State) : Host.Outcome State Fault Refusal :=
  let s := s.tick t
  .next (if (s.part p.val).state != .whipping then s else s.endWhip p.val)

/-! Sessions and job keys (R479 to R482) -/

/-- SESSION, COMMANDER_ID and EPOCH of a fragment header, as the derivations of R479 and R481 name them. -/
def headerBytes (h : CmdHdr) : List Byte :=
  toLe 2 (if isCommander h.session then 0 else sidPart h.session + 1) ++ toLe 2 (if isCommander h.session then h.session else 0) ++
    toLe 4 h.epoch

/-- The request that fragments cover exactly once, none otherwise (R480). -/
def assembled (frags : List (Nat × List Byte)) : Option (List Byte) :=
  let l := frags.mergeSort fun a b => decide (a.1 ≤ b.1)
  let b := l.foldl (fun (acc : Option (List Byte)) f =>
    match acc with
    | some x => if f.1 = x.length then some (x ++ f.2) else none
    | none => none) (some [])
  match b with
  | some x => if x.length = 4736 then some x else none
  | none => none

/-- The form check of R480. -/
def requestForm (kind : Nat) (b : List Byte) : Bool :=
  leAt b 0x24 12 == 0 && leAt b 0xD79 7 == 0 &&
    (if kind = 1 then decide (leAt b 0x20 2 ≤ 65534) && decide (leAt b 0x22 1 ≤ 16) && decide (leAt b 0x23 1 ≤ 1) &&
        (leAt b 0x22 1 != 16 || leAt b 0x20 2 == 0)
     else (slice b 0x650 40).all fun x => x == 0)

/-- The authority check of R480. -/
def State.authority (s : State) (sid kind : Nat) (b : List Byte) : Bool :=
  let digest := shake256 64 (slice b 0x678 1793)
  (if isCommander sid then decide (1 ≤ sid ∧ sid ≤ 4) && mget s.security.trust (sid - 1) == some digest
   else s.live (sidPart sid) && (s.part (sidPart sid)).tenant == digest) &&
    (kind != 1 || leAt b 0x22 1 == (if isCommander sid then 16 else sidPart sid))

/-- Install a session key (R481): what the session held under its former key is gone. -/
def State.openSession (s : State) (sid : Nat) (k : Key) : State :=
  let x := (s.session sid).getD (Session.empty k)
  let x := { x with key := k, window := Window.empty, queue := [], replies := [], shadow := [],
                      closing := false, former := false, via := [] }
  { s with sessions := mput s.sessions sid x }

/-- Complete a request of kind SESSION (R481): the module's nonce is a free value. -/
def State.completeSession (s : State) (h : CmdHdr) (b ss : List Byte) : Nat × List Byte × State :=
  let n := s.takeFree
  let nonce := toLe 32 n.1
  let k := keyOf (shake256 32 (ascii "VXK-SESS" ++ ss ++ slice b 0 32 ++ nonce ++ headerBytes h))
  (stOk, nonce ++ slice (shake256 32 (ascii "VXK-CONFIRM" ++ keyBytes k)) 0 32, n.2.openSession h.session k)

/-- Complete a request of kind JOB_KEY (R481). -/
def State.completeJob (s : State) (b ss : List Byte) : Nat × List Byte × State :=
  let wrap := keyOf (shake256 32 (ascii "VXK-WRAP" ++ ss ++ slice b 0 32))
  let id := leAt b 0x20 2
  let p := leAt b 0x22 1
  (keyUnwrap wrap (slice b 0x650 40)).elim (ans stNotPermitted s) fun j =>
    let held := mget s.security.jobKeys id
    if (id = 0 ∧ p ≠ 16) ∨ (match held with | some x => decide (x.1 ≠ p) | none => false) = true then ans stNotPermitted s
    else if held.isNone ∧ 256 ≤ s.security.jobKeys.length then ans stAdmitFull s
    else
      let s := { s with security := { s.security with jobKeys := mput s.security.jobKeys id (p, j) } }
      let s := if leAt b 0x23 1 = 1 ∧ p < 16 then s.modPart p fun x => { x with txKey := some id } else s
      (stOk, slice (shake256 32 (ascii "VXK-JOBOK" ++ keyBytes j)) 0 32, s)

/-- The checks of R480 on a complete request, then its completion. -/
def State.openRequest (s : State) (h : CmdHdr) (kind : Nat) (req : Option (List Byte)) : Nat × List Byte × State :=
  let refuse (st : Nat) : Nat × List Byte × State := ans st (s.inc Reg.secOpenFailCount)
  match req with
  | none => refuse stMalformed
  | some b =>
    if !(requestForm kind b) then refuse stMalformed
    else if !(s.authority h.session kind b) then refuse stNotPermitted
    else if !(Config.verifies (slice b 0x678 1793) (shake256 64 (slice b 0 0xD80 ++ headerBytes h)) (slice b 0xD80 1280)) then
      refuse stNotPermitted
    else
      let ss := Config.decapsulate (slice b 0x30 1568)
      if kind = 1 then s.completeJob b ss else s.completeSession h b ss

/-- SESSION_OPEN (R479 to R481, R489): a session need not hold a key. -/
def execSessionOpen (h : CmdHdr) (kind : Nat) (last : Bool) (offset : Nat) (data : List Byte) (s : State) :
    Host.Outcome State Fault Refusal :=
  let s := s.tick h.t
  let sid := h.session
  let answer (s : State) (st : Nat) (bytes : List Byte) : State :=
    s.send (.reply sid { seq := h.seq, status := st, data := bytes })
  .next (
    if s.update.paused.isSome then s
    else
      match s.refusal sid h.epoch 0x0002 with
      | some st => answer (s.countRefusal 0x0002 st) st []
      | none =>
        let o := mgetD s.security.openings sid { window := Window.empty, kind := kind, frags := [] }
        let put (s : State) (x : Opening) : State :=
          { s with security := { s.security with openings := mput s.security.openings sid x } }
        if kind = 1 && s.security.debugOpen then answer s stNotPermitted []
        else
          let frags := o.frags ++ [(offset, data)]
          if !last then answer (put s { o with kind := kind, frags := frags }) stOk []
          else
            let req := if decide (2 ≤ kind) || (o.kind != kind && !o.frags.isEmpty) then none else assembled frags
            let r := (put s { o with frags := [] }).openRequest h kind req
            let s := if r.1 = stOk then put r.2.2 { window := Window.empty, kind := kind, frags := [] } else r.2.2
            answer s r.1 r.2.1)

/-- SESSION_CLOSE (R482): KIND 0 replies under the closing key and destroys it; KIND 1 removes a job key. -/
def execSessionClose (h : CmdHdr) (kind jobKey : Nat) (s : State) : Host.Outcome State Fault Refusal :=
  let s := s.command h 0x0003 fun s =>
    if kind = 0 then ans stOk (s.modSession h.session fun x => { x with closing := true })
    else if kind ≠ 1 ∨ 65534 < jobKey then ans stMalformed s
    else
      let p := if isCommander h.session then 16 else sidPart h.session
      match mget s.security.jobKeys jobKey with
      | none => ans stNotPermitted s
      | some k =>
        if k.1 != p then ans stNotPermitted s
        else
          let s := { s with security := { s.security with jobKeys := mdel s.security.jobKeys jobKey } }
          ans stOk (s.modPart p fun x => if x.txKey == some jobKey then { x with txKey := none } else x)
  .next (match s.session h.session with
    | some x => if x.closing then { s with sessions := mdel s.sessions h.session } else s
    | none => s)

/-! Attestation (R486, R487, R489) -/

/-- SEC_FUSES and FUSES of the report (R489). -/
def State.fuseBits (s : State) : Nat :=
  Config.fuses % 4 + 4 * b2n s.security.debugOpen + 8 * (s.reg Reg.secCtrl % 2)

/-- The coil of a slot as it was received. -/
def CoilSlot.bytes (x : CoilSlot) : List Byte := x.header ++ x.blocks.flatten ++ x.signature

/-- The slot in TRIAL, if any (R516). -/
def Update.trial (u : Update) : Option Nat := (upTo 2).find? fun k => (u.slot k).state == 4

/-- The granules of a partition per unit. -/
def State.granuleBytes (s : State) (p : Nat) : List Byte := (upTo 20).flatMap fun u => toLe 1 (s.granuleCount p u)

/-- A mask of numbers below n. -/
def maskOf (l : List Nat) : Nat := l.foldl (fun a i => a + 2 ^ i) 0

/-- A partition entry of a report: 128 bytes. -/
def State.reportEntry (s : State) (p : Nat) : List Byte :=
  let x := s.part p
  toLe 1 (s.partStatus p % 4) ++ toLe 1 0 ++ toLe 2 (maskOf x.hanks) ++ toLe 4 x.gen ++ s.granuleBytes p ++
    toLe 2 (x.pgHbm / 4096) ++ toLe 2 (x.pgCt / 4096) ++ toLe 4 (maskOf (s.coresOf p)) ++ toLe 28 0 ++ slice x.tenant 0 64

/-- Build the attestation report of a session (R486, R487): 5,728 bytes. -/
def State.buildReport (s : State) (sid : Nat) (challenge : List Byte) : List Byte :=
  let u := s.update
  let view := if isCommander sid then 0 else 1 + sidPart sid
  let comp (k slot : Nat) : List Byte := slice (Config.componentDigest k (u.slot slot).bytes) 0 64
  let head := toLe 2 1 ++ toLe 2 0x1160 ++ toLe 4 deviceId ++ slice Config.identity 0 16 ++ orderNumber ++ toLe 1 s.self ++
    toLe 1 s.start.slotId ++ toLe 1 view ++ toLe 1 0 ++ toLe 4 s.security.bootCount ++ toLe 8 s.now ++ slice challenge 0 32 ++
    toLe 4 s.lease.epoch ++ toLe 4 s.fuseBits ++ slice Config.identity 16 64
  let digests := slice Config.identity 1648 64 ++ slice (shake256 64 u.slotA.bytes) 0 64 ++
    slice (shake256 64 u.slotB.bytes) 0 64 ++ comp 1 u.micro ++ comp 2 u.ccf ++ comp 3 u.mgmt
  let flags := (u.trial.getD u.confirmed) + 2 * b2n u.trial.isSome
  let trust := (upTo 4).flatMap fun i => slice (mgetD s.security.trust i []) 0 64
  let entries := (upTo 16).flatMap fun p => if view = 0 ∨ view = 1 + p then s.reportEntry p else toLe 128 0
  let body := head ++ digests ++ toLe 4 flags ++ toLe 28 0 ++ trust ++ entries ++ slice Config.identity 80 1568
  body ++ slice (Config.sign (shake256 64 body)) 0 1280

/-- ATTEST (R486, R497). -/
def execAttest (h : CmdHdr) (challenge : List Byte) (cert : Bool) (offset : Nat) (s : State) : Host.Outcome State Fault Refusal :=
  .next (s.command h 0x0204 fun s =>
    let part (s : State) (b : List Byte) : Nat × List Byte × State :=
      (stOk, toLe 4 b.length ++ (b.drop offset).take 1408, s)
    if challenge.length ≠ 32 then ans stMalformed s
    else if cert then (if Config.certChain.length ≤ offset then ans stReelRange s else part s Config.certChain)
    else if 5728 ≤ offset then ans stReelRange s
    else
      match s.session h.session with
      | none => ans stMalformed s
      | some x =>
        if x.report.isEmpty || slice x.report 0x38 32 != challenge then
          let b := s.buildReport h.session challenge
          let s := { s with security := { s.security with signedAt := s.now } }.inc Reg.attReportCount
          part (s.modSession h.session fun x => { x with report := b }) b
        else part s x.report)

/-! SEC_CTRL and DEBUG_OPEN (R484, R489) -/

/-- A write of SEC_CTRL: compatibility mode, which each port takes at its next HELLO. -/
def State.secCtrlWrite (s : State) (v : Nat) : State := s.setReg Reg.secCtrl (v % 2)

/-- SEC_CTRL (R484). -/
def execSecCtrl (h : CmdHdr) (value : Word) (s : State) : Host.Outcome State Fault Refusal :=
  .next (s.regCommand h 0x0101 Reg.secCtrl fun s => ans stOk (s.secCtrlWrite value.toNat))

/-- DEBUG_OPEN (R489): possible only where the test access port is not fused off. -/
def execDebugOpen (t : Nat) (s : State) : Host.Outcome State Fault Refusal :=
  let s := s.tick t
  .next (if bit Config.fuses 0 then s else { s with security := { s.security with debugOpen := true } })

end Sys2Proof.Machine
end

