-- ==== Sys2Proof/Machine/Ecron.lean ====
section
/-! DEFINITION. The Ecron fabric (chapter 13): receipt and forwarding of packets, holds, refusals and acknowledgements,
bulk retries, link states, control blocks with credits and counts, and the states of a port. -/

namespace Sys2Proof.Machine

/-! Blocks and credits (R363 to R368, R382) -/

/-- The credit record of a VC and lane of a port. -/
def State.credit (s : State) (p k : Nat) : Credit := mgetD (s.port p).credits k Credit.empty

/-- Change the credit record of a VC and lane. -/
def State.modCredit (s : State) (p k : Nat) (f : Credit → Credit) : State :=
  s.modPort p fun x => { x with credits := mput x.credits k (f (mgetD x.credits k Credit.empty)) }

/-- A port is UP. -/
def State.isUp (s : State) (p : Nat) : Bool := (s.port p).state == 4

/-- Blocks arrive in good codewords: the replay awaited, if any, has come (R364). -/
def State.gotBlocks (s : State) (p n : Nat) : State :=
  s.modPort p fun x => { x with rxIndex := x.rxIndex + n, awaiting := none, lastCodeword := s.now }

/-- Send n blocks on an UP port: the replay buffer keeps what they carry until it is acknowledged (R364). -/
def State.transmit (s : State) (p n : Nat) (o : Out) : State :=
  (s.modPort p fun x => { x with txIndex := x.txIndex + n, inFlight := x.inFlight ++ [(x.txIndex + n - 1, o)] }).send o

/-- Send a control block on an UP port (R363, R364). -/
def State.sendBlock (s : State) (p kind : Nat) (content : List Nat) : State := s.transmit p 1 (.block p kind content)

/-- The CLK_FAB cycle of a time: 1.5625 GHz (R360). -/
def fabCycle (t : Nat) : Nat := t * 25 / 16

/-- The credits that a send decision at a time may use (R367): those returned in its cycle are added at the end of it. -/
def Credit.spendable (c : Credit) (t : Nat) : Nat := if fabCycle c.freshAt = fabCycle t then c.avail - c.fresh else c.avail

/-- Flits leave a receive buffer: they are freed and one credit for each is returned at once (R366). -/
def State.release (s : State) (p k n : Nat) : State :=
  if !(s.isUp p) then s
  else
    let s := s.modCredit p k fun c => { c with rxHeld := c.rxHeld - n, rxOwed := c.rxOwed + n }
    let s := s.sendBlock p 1 [k / 2, k % 2, n]
    s.modCredit p k fun c => { c with rxOwed := c.rxOwed - n, rxFree := c.rxFree + n, sentCredits := c.sentCredits + n }

/-! Port states (R361, R362, R365) -/

/-- The record of a port that becomes DISABLED (R362). -/
def State.disablePort (s : State) (p : Nat) : State :=
  let s := (s.leaveUp p).modPort p fun x => { x with state := 6, since := s.now, retryAt := none, credits := [] }
  let r := s.record 10 none
  s.fsr { r with wher := [(8, p)], action := 5 }

/-- An UP port enters RETRAIN (R362). -/
def State.retrain (s : State) (p : Nat) : State :=
  if !(s.isUp p) then s
  else ((s.leaveUp p).modPort p fun x => { x with state := 5, since := s.now }).inc (Reg.ecnPortRetrainCount p)

/-- A check of R382 fails on a port: CONSERVATION_FAULT and RETRAIN. -/
def State.linkFault (s : State) (p k : Nat) : State := (s.conservationFault none 1 (16 * p + k)).retrain p

/-- Whether a port may train: enabled, its domain on, the links phase reached, and for a global port the wiring committed
(R361, R362, R568, R569). -/
def State.mayTrain (s : State) (p : Nat) : Bool :=
  bit (s.reg Reg.ecnCtrl) p && (s.dom (54 + p / 3)).state == .on && decide (7 ≤ s.start.phase) &&
    (p < 15 || s.start.gwCommitted)

/-- PORT_SIGNAL_DETECT (R361). -/
def execPortSignalDetect (port : Fin 18) (t : Nat) (s : State) : Host.Outcome State Fault Refusal :=
  let s := s.tick t
  .next (
    if (s.port port.val).state != 0 || (s.port port.val).retryAt.isSome || !(s.mayTrain port.val) then s
    else s.modPort port.val fun x => { x with state := 1, since := s.now })

/-- TRAINING_DONE (R361): TRAINING moves to ALIGNING; in RETRAIN the state stays. -/
def execTrainingDone (port : Fin 18) (t : Nat) (s : State) : Host.Outcome State Fault Refusal :=
  let s := s.tick t
  .next (if (s.port port.val).state != 1 then s else s.modPort port.val fun x => { x with state := 2, since := s.now })

/-- Send the HELLO of a port (R363): its allocations from ECN_CR_ALLOC, and in compatibility mode a nonce drawn at this
entry (R484, R485). -/
def State.sendHello (s : State) (p : Nat) : State :=
  let compat := bit (s.reg Reg.secCtrl) 0
  let (nonce, s) := if compat then (let r := s.takeFree; (r.1 % 2 ^ 64, r.2)) else (0, s)
  let allocs := (upTo 12).map fun i => s.reg (Reg.ecnCrAlloc p (i / 2) (i % 2))
  let s := s.modPort p fun x => { x with compat := compat, ownNonce := nonce, declared := allocs }
  s.send (.block p 6 ([s.self, p, 1, deviceId / 65536, b2n compat] ++ allocs ++ [nonce]))

/-- LOCK (R361): ALIGNING moves to HELLO and HELLO is sent, as it is in RETRAIN. -/
def execLock (port : Fin 18) (t : Nat) (s : State) : Host.Outcome State Fault Refusal :=
  let s := s.tick t
  .next (
    if (s.port port.val).state = 2 then
      (s.modPort port.val fun x => { x with state := 3, since := s.now }).sendHello port.val
    else if (s.port port.val).state = 5 then s.sendHello port.val
    else s)

/-- Whether a HELLO's peer is the one that R369 or ECN_GW gives the port. -/
def State.wiringOk (s : State) (p modNum peerPort : Nat) : Bool :=
  let m := s.self
  if p < 15 then modNum == m / 16 * 16 + (m % 16 + p + 1) % 16 && peerPort == 14 - p
  else
    decide (15 ≤ peerPort ∧ peerPort ≤ 17 ∧ modNum / 16 ≠ m / 16) &&
      (s.gwLinks (modNum / 16)).any fun l => l.1 == m % 16 && l.2 == p

/-- The time limit of a port state in ns, none for DOWN, UP and DISABLED (R361). -/
def portLimit (state : Nat) : Option Nat :=
  match state with
  | 1 => some 500000000
  | 2 => some 10000000
  | 3 => some 10000000
  | 5 => some 50000000
  | _ => none

/-- PORT_STATE_TIMEOUT (R361, R362): the port returns to DOWN and tries again after 1 s; a third failed RETRAIN within 10 s
disables it. -/
def execPortStateTimeout (port : Fin 18) (t : Nat) (s : State) : Host.Outcome State Fault Refusal :=
  let s := s.tick t
  let p := port.val
  let x := s.port p
  .next (
    match portLimit x.state with
    | none => s
    | some n =>
      if s.now < x.since + n then s
      else if x.state = 5 then
        let fails := (s.now :: x.retrainFails).filter fun a => s.now ≤ a + 10000000000
        let s := s.modPort p fun x => { x with retrainFails := fails }
        if 3 ≤ fails.length then s.disablePort p else s.portDown p (some (s.now + 1000000000))
      else s.portDown p (some (s.now + 1000000000)))

/-- PORT_RETRY (R361): one second has passed and the port may train again. -/
def execPortRetry (port : Fin 18) (t : Nat) (s : State) : Host.Outcome State Fault Refusal :=
  let s := s.tick t
  .next (
    match (s.port port.val).retryAt with
    | some a => if a ≤ s.now then s.modPort port.val fun x => { x with retryAt := none } else s
    | none => s)

/-- A write of ECN_CTRL (R361, R384): a DISABLED port returns to DOWN, and a port that is no longer enabled goes DOWN. -/
def State.ecnCtrlWrite (s : State) (v : Nat) : State :=
  foldS (fun s p =>
    if (s.port p).state = 6 || (!(bit v p) && (s.port p).state != 0) then s.portDown p none else s)
    (s.setReg Reg.ecnCtrl (v % 2 ^ 18)) (upTo 18)

/-! Control blocks received -/

/-- The credits of a port at UP (R365, R366): the peer's allocations and those this module declared. -/
def upCredits (own peer : List Nat) : Map Credit :=
  (upTo 12).map fun i =>
    (i, { Credit.empty with avail := peer.getD i 0, peerAlloc := peer.getD i 0, rxFree := own.getD i 0,
                            ownAlloc := own.getD i 0 })

/-- HELLO (R361, R369, R378, R484): the wiring is checked and the port goes UP with its credits; a failed check disables
it. -/
def execHello (port : Fin 18) (b : HelloBlock) (t : Nat) (s : State) : Host.Outcome State Fault Refusal :=
  let s := s.tick t
  let p := port.val
  let x := s.port p
  .next (
    if x.state ≠ 3 ∧ x.state ≠ 5 then s
    else
      let good := b.version == 1 && b.compat == x.compat && s.wiringOk p b.modNum b.port
      let s := s.modPort p fun x => { x with peer := some (b.modNum, b.port), peerNonce := b.nonce, wiringBad := !good }
      if !good then s.disablePort p
      else
        let s := s.modPort p fun x =>
          { x with state := 4, since := s.now, peerSeized := false, txIndex := 0, txAcked := 0, rxIndex := 0,
                   awaiting := none, uncorr := [], symErrs := [], lastCodeword := s.now, inFlight := [],
                   credits := upCredits x.declared b.allocs }
        if b.restarted then
          { s with ecron := { s.ecron with windows := s.ecron.windows.filter fun e => e.1 / 8 != b.modNum } }
        else s)

/-- Codewords decoded on a port with these numbers of symbols corrected, at most 15 in each (R360): they are counted, and kept
for a second (R384, log entry 12). -/
def State.corrected (s : State) (p : Nat) (l : List Nat) : State :=
  let l := (l.map fun n => min n 15).filter fun n => decide (0 < n)
  if l.isEmpty then s
  else
    let s := (s.bump (Reg.ecnPortFecSymCount p) l.sum).bump (Reg.ecnPortFecCwCount p) l.length
    s.modPort p fun x => { x with symErrs := (s.now, l.sum) :: x.symErrs.filter fun e => decide (s.now < e.1 + 1000000000) }

/-- IDLE (R363): a good block and nothing else; the codewords decoded until it report their corrected symbols with it. -/
def execIdle (x : IdleBlock) (s : State) : Host.Outcome State Fault Refusal :=
  let s := s.tick x.t
  .next (if s.isUp x.port.val then (s.gotBlocks x.port.val 1).corrected x.port.val x.corrected else s)

/-- CREDIT (R366, R367): flits of credit return to the sender; more than are outstanding fail the check of R382. -/
def execCredit (port : Fin 18) (vc : Fin 6) (lane : Fin 2) (x : FlitReturn) (s : State) : Host.Outcome State Fault Refusal :=
  let s := s.tick x.t
  let flits := x.flits
  let p := port.val
  let k := 2 * vc.val + lane.val
  .next (
    if !(s.isUp p) then s
    else
      let s := s.gotBlocks p 1
      if (s.credit p k).outstanding < flits then s.linkFault p k
      else s.modCredit p k fun c =>
        { c with avail := c.avail + flits, outstanding := c.outstanding - flits, recvCredits := c.recvCredits + flits,
                 fresh := (if fabCycle c.freshAt = fabCycle s.now then c.fresh else 0) + flits, freshAt := s.now })

/-- ACK (R364): blocks below the count leave the replay buffer; the count is modulo 2^32. -/
def execAck (port : Fin 18) (count : Nat) (s : State) : Host.Outcome State Fault Refusal :=
  let p := port.val
  .next (
    if !(s.isUp p) then s
    else (s.gotBlocks p 1).modPort p fun x =>
      let n := x.txAcked + (count + 2 ^ 32 - x.txAcked % 2 ^ 32) % 2 ^ 32
      if x.txIndex < n then x
      else { x with txAcked := n, inFlight := x.inFlight.filter fun i => n ≤ i.1 })

/-- REPLAY_REQ (R364): the sender resends its blocks in order from the index, out of its replay buffer, and counts the replay. -/
def execReplayReq (port : Fin 18) (index : Nat) (s : State) : Host.Outcome State Fault Refusal :=
  let p := port.val
  let x := s.port p
  let n := x.txAcked + (index + 2 ^ 32 - x.txAcked % 2 ^ 32) % 2 ^ 32
  .next (
    if !(s.isUp p) then s
    else if x.txIndex < n then s.gotBlocks p 1
    else foldS (fun s e => s.send e.2) ((s.gotBlocks p 1).inc (Reg.ecnPortReplayCount p))
      (x.inFlight.filter fun e => decide (n ≤ e.1)))

/-- SYNC (R382): the peer's counts must equal this end's. -/
def execSync (port : Fin 18) (vc : Fin 6) (lane : Fin 2) (flits credits t : Nat) (s : State) :
    Host.Outcome State Fault Refusal :=
  let s := s.tick t
  let p := port.val
  let k := 2 * vc.val + lane.val
  .next (
    if !(s.isUp p) then s
    else
      let s := s.gotBlocks p 1
      let c := s.credit p k
      if flits % 2 ^ 48 = c.recvFlits % 2 ^ 48 ∧ credits % 2 ^ 48 = c.recvCredits % 2 ^ 48 then s
      else (s.inc (Reg.ecnPortSyncFail p)).linkFault p k)

/-- KEEPALIVE (R374): a SEIZED peer is absent from routing until a KEEPALIVE says otherwise. -/
def execKeepalive (port : Fin 18) (time : Nat) (seized : Bool) (t : Nat) (s : State) : Host.Outcome State Fault Refusal :=
  let _ := time
  let s := s.tick t
  let p := port.val
  .next (
    if !(s.isUp p) then s
    else
      let s := (s.gotBlocks p 1).modPort p fun x => { x with peerSeized := seized }
      match (s.port p).peer with
      | none => s
      | some m =>
        let rest := s.ecron.seized.filter fun k => k != m.1
        { s with ecron := { s.ecron with seized := if seized then m.1 :: rest else rest } })

/-! Control blocks sent -/

/-- ACK_SEND (R364). -/
def execAckSend (port : Fin 18) (t : Nat) (s : State) : Host.Outcome State Fault Refusal :=
  let s := s.tick t
  let p := port.val
  .next (
    if !(s.isUp p) then s
    else (s.sendBlock p 2 [(s.port p).rxIndex % 2 ^ 32]).modPort p fun x => { x with lastAck := s.now })

/-- KEEPALIVE_SEND (R363, R374). -/
def execKeepaliveSend (port : Fin 18) (t : Nat) (s : State) : Host.Outcome State Fault Refusal :=
  let s := s.tick t
  let p := port.val
  .next (
    if !(s.isUp p) then s
    else (s.sendBlock p 5 [s.now % 2 ^ 64, b2n s.lease.seized]).modPort p fun x => { x with lastKeep := s.now })

/-- SYNC_SEND (R363, R382): one SYNC for each VC and lane. -/
def execSyncSend (port : Fin 18) (t : Nat) (s : State) : Host.Outcome State Fault Refusal :=
  let s := s.tick t
  let p := port.val
  .next (
    if !(s.isUp p) then s
    else (foldS (fun s k =>
      let c := s.credit p k
      s.sendBlock p 4 [k / 2, k % 2, c.sentFlits % 2 ^ 48, c.sentCredits % 2 ^ 48]) s (upTo 12)).modPort p
        fun x => { x with lastSync := s.now })

/-! Codewords (R362, R364) -/

/-- UNCORRECTABLE_CODEWORD (R364): its blocks and the later ones are discarded until the replay, which is requested from
the first of them. -/
def execUncorrectableCodeword (port : Fin 18) (t : Nat) (s : State) : Host.Outcome State Fault Refusal :=
  let s := s.tick t
  let p := port.val
  .next (
    if !(s.isUp p) then s
    else
      let s := s.inc (Reg.ecnPortFecUncorrCount p)
      let s := s.modPort p fun x =>
        { x with uncorr := (s.now :: x.uncorr).filter fun a => s.now < a + 1000000 }
      match (s.port p).awaiting with
      | some _ => s
      | none =>
        let n := (s.port p).rxIndex
        (s.modPort p fun x => { x with awaiting := some n }).sendBlock p 3 [n % 2 ^ 32])

/-- ERR_LIMIT_EXCEEDED (R362). -/
def execErrLimitExceeded (port : Fin 18) (t : Nat) (s : State) : Host.Outcome State Fault Refusal :=
  let s := s.tick t
  let p := port.val
  let n := ((s.port p).uncorr.filter fun a => s.now < a + 1000000).length
  .next (if s.reg Reg.ecnPortErrLimit < n then s.retrain p else s)

/-- CODEWORD_LOSS (R362): no codeword for 20 µs. -/
def execCodewordLoss (port : Fin 18) (t : Nat) (s : State) : Host.Outcome State Fault Refusal :=
  let s := s.tick t
  .next (if (s.port port.val).lastCodeword + 20000 ≤ s.now then s.retrain port.val else s)

/-! Transmission (R364, R366, R378, R383) -/

/-- PACKET_TRANSMIT (R364, R366): a packet copy waiting at a port is sent when the port is UP, its VC and lane have LENGTH +
2 credits (R367), and its replay buffer of 8,192 blocks holds it. A seized module sends none (R374), nor does a partition being
whipped (R381). A global link sets LANE (R370); in compatibility mode the link's key protects it (R485). -/
def execPacketTransmit (port : Fin 18) (slot t : Nat) (s : State) : Host.Outcome State Fault Refusal :=
  let s := s.tick t
  let p := port.val
  let drop (s : State) : State := { s with ecron := { s.ecron with txq := mdel s.ecron.txq slot } }
  .next (match mget s.ecron.txq slot with
    | none => s
    | some (out, inPort, pk) =>
      if out ≠ p then s
      else if inPort = 18 && pk.srcModule == s.self && pk.srcPart < 16 && (s.part pk.srcPart).state == .whipping then drop s
      else
        let x := s.port p
        let inKey := 2 * pk.vc + pk.lane
        let lane := if 15 ≤ p then 1 else pk.lane
        let k := 2 * pk.vc + lane
        let n := Packet.length pk + 2
        if !(s.isUp p) || s.lease.seized || decide ((s.credit p k).spendable s.now < n) || decide (x.txAcked + 8192 < x.txIndex + n) then s
        else
          let pk := { pk with lane := lane }
          let pk : Packet := match x.compat, x.peer with
            | true, some m => { pk with keyId := 0xFFFF, tagKey := linkKey s.self m.1 p x.ownNonce x.peerNonce }
            | _, _ => pk
          let s := drop s
          let s := s.modCredit p k fun c =>
            { c with avail := c.avail - n, outstanding := c.outstanding + n, sentFlits := c.sentFlits + n }
          let s := s.transmit p n (.packet p pk)
          if inPort = 18 then (if pk.srcModule == s.self then s.inc (Reg.ecnVcCopiesSent pk.vc) else s)
          else s.release inPort inKey n)

/-! Receipt (R373, R374) -/

/-- Whether a packet's tag passes (R371, R483): a REFUSE, an ACK and a packet of the module under key 0, one of a partition
under a job key installed for it. In compatibility mode the hop has checked it (R485). -/
def State.tagOk (s : State) (pk : Packet) : Bool :=
  if pk.keyId = 0xFFFF then true
  else if pk.ptype != 1 || pk.dstPart == 16 then pk.keyId == 0 && pk.tagKey == s.jobKey 0
  else match mget s.security.jobKeys pk.keyId with
    | some (q, k) => pk.keyId != 0 && q == pk.dstPart && pk.tagKey == k
    | none => false

/-- An ACK reaches the sender of a bulk packet (R372, R379). -/
def State.gotAck (s : State) (pk : Packet) : State :=
  { s with ecron := { s.ecron with bulk := mdel s.ecron.bulk (pk.srcModule + 256 * leAt pk.payload 0 8) } }

/-- The ship that a bulk packet of this module belongs to. -/
def State.shipOf (s : State) (pk : Packet) : Option (Nat × Ship) :=
  let num := leAt pk.payload 4 4
  if leAt pk.payload 0 4 = 1 ∨ leAt pk.payload 0 4 = 2 then (mget s.kv.ships num).map fun x => (num, x) else none

/-- A REFUSE reaches the engine that sent the packet it names (R255, R372, R374): a ship restarts on ROLE_MOVED, ends on
PAGE_STARVED, and otherwise resends the packet after the bulk timeout. -/
def State.gotRefuse (s : State) (pk : Packet) : State :=
  let v := ofLe (pk.payload.take 32)
  let st := bits v 15 0
  let seq := bits v 79 16
  let vc := bits v 82 80
  let holder := bits v 95 88
  let part := bits v 100 96
  let epoch := bits v 159 128
  if vc = 4 then
    let k := pk.srcModule + 256 * seq
    match mget s.ecron.bulk k with
    | none => s
    | some b =>
      let gone := { s with ecron := { s.ecron with bulk := mdel s.ecron.bulk k } }
      match s.shipOf b.packet with
      | none => gone
      | some (num, x) =>
        if st = stRoleMoved then gone.restartShip num holder part epoch
        else if st = stPageStarved then gone.endShip num x stPageStarved
        else
          let b := { b with packet := { b.packet with braided := false }, sentAt := s.now }
          { s with ecron := { s.ecron with bulk := mput s.ecron.bulk k b } }
  else
    match s.dispatch.sentLog.find? fun q => q.dstModule == pk.srcModule && q.vc == vc && q.seq == seq with
    | some q => s.refusedPacket q st holder part epoch
    | none => s

/-- Deliver a packet that has passed R373: an ACK or a REFUSE to its sending engine, a row, message or page to its die's
engine, which refuses it with FUNCTION_RESET while it is in reset (R426). The content of command and lease traffic arrives
by its own commands. -/
def State.accept (s : State) (pk : Packet) : State :=
  let data := pk.ptype == 1 && pk.dstPart < 16
  if data && (pk.vc == 2 || pk.vc == 3) && decide (s.now < (s.engine pk.dstDie).resetUntil) then
    (s.inc (Reg.ecnVcRefused pk.vc)).refuseTo pk stFunctionReset 0 0 0
  else
    let s := s.inc (Reg.ecnVcDelivered pk.vc)
    if pk.ptype = 2 then s.gotAck pk
    else if pk.ptype = 3 then s.gotRefuse pk
    else if data && (pk.vc == 2 || pk.vc == 3 || pk.vc == 4) then
      let s := s.deliver pk
      if pk.vc = 4 && !pk.braided then s.ackTo pk else s
    else s

/-- The tests of R373 after the window; `waited` says that the packet's hold has ended. -/
def State.judge (s : State) (pk : Packet) (waited : Bool) : State :=
  let raise (s : State) : State :=
    if s.peerEpoch pk.srcModule pk.srcPart < pk.srcEpoch then s.raisePeer pk.srcModule pk.srcPart pk.srcEpoch else s
  let refuse (s : State) (st m q e : Nat) : State :=
    ((s.countStop st).inc (Reg.ecnVcRefused pk.vc)).refuseTo pk st m q e
  match s.gate pk waited with
  | .pass => (raise s).accept pk
  | .stop st m q e => refuse (if st = stStaleEpoch then s else raise s) st m q e
  | .hold =>
    let s := raise s
    if s.ecron.holds.length < 64 then
      let n := s.ecron.nextSlot
      { s with ecron := { s.ecron with holds := mput s.ecron.holds n { packet := pk, since := s.now }, nextSlot := n + 1 } }
    else
      match s.gate pk true with
      | .stop st m q e => refuse s st m q e
      | _ => s

/-- A packet for this module (R373, R374, R510). -/
def State.hubTake (s : State) (pk : Packet) : State :=
  let v := pk.vc
  let k := 8 * pk.srcModule + v
  let w := mgetD s.ecron.windows k Window.empty
  if s.lease.seized then s.inc (Reg.ecnVcPathDrop v)
  else if pk.reserved || pk.version != 1 || !(decide (1 ≤ pk.ptype ∧ pk.ptype ≤ 3)) || !(s.tagOk pk) then
    s.inc Reg.ecnAuthFailCount
  else if w.dup pk.seq then s.inc (Reg.ecnVcDup v)
  else if w.late pk.seq then s.inc (Reg.ecnVcLate v)
  else
    let s := { s with ecron := { s.ecron with windows := mput s.ecron.windows k (w.enter pk.seq) } }
    if !s.start.dirReady && pk.dstPart < 16 then s.inc (Reg.ecnVcPathDrop v) else s.judge pk false

/-- The port that a hub forwards a packet on (R375). -/
def State.forwardPort (s : State) (d : Nat) : Option Nat :=
  let me := s.self % 16
  if d / 16 = s.self / 16 then
    let direct := intraPort me (d % 16)
    if s.portUp direct then some direct else (s.relay (d % 16)).map fun r => intraPort me r
  else ((s.gwLinks (d / 16)).find? fun l => l.1 == me && s.gwUp l).map fun l => l.2

/-- A packet arrives on a port (R366, R373 to R375): it fills its receive buffer, which it leaves when it is delivered,
refused or dropped, or when it is forwarded. -/
def State.arrive (s : State) (p : Nat) (pk : Packet) : State :=
  let n := Packet.length pk + 2
  let k := 2 * pk.vc + pk.lane
  let x := s.port p
  if !(s.isUp p) || 5 < pk.vc || 1 < pk.lane || decide ((s.credit p k).rxFree < n) then s
  else
    let s := s.gotBlocks p n
    let s := s.modCredit p k fun c =>
      { c with rxFree := c.rxFree - n, rxHeld := c.rxHeld + n, recvFlits := c.recvFlits + n }
    let hopBad := x.compat && !(match x.peer with
      | some m => pk.keyId == 0xFFFF && pk.tagKey == linkKey m.1 s.self m.2 x.peerNonce x.ownNonce
      | none => false)
    if hopBad then (s.inc Reg.ecnAuthFailCount).release p k n
    else if !x.compat && pk.keyId = 0xFFFF then (s.inc Reg.ecnAuthFailCount).release p k n
    else if pk.dstModule = s.self then (s.hubTake pk).release p k n
    else if s.lease.seized then (s.inc (Reg.ecnVcPathDrop pk.vc)).release p k n
    else match s.forwardPort pk.dstModule with
      | some out => s.enqueueFrom p out pk
      | none => (s.inc Reg.ecnNoRouteCount).release p k n

/-- DATA (R373). -/
def execData (port : Fin 18) (p : Packet) (t : Nat) (s : State) : Host.Outcome State Fault Refusal :=
  let s := s.tick t
  .next (if p.ptype = 2 ∨ p.ptype = 3 then s else s.arrive port.val p)

/-- REFUSE (R373, R374). -/
def execRefuse (port : Fin 18) (p : Packet) (t : Nat) (s : State) : Host.Outcome State Fault Refusal :=
  let s := s.tick t
  .next (if p.ptype = 3 then s.arrive port.val p else s)

/-- ACK_PACKET (R373, R379). -/
def execAckPacket (port : Fin 18) (p : Packet) (t : Nat) (s : State) : Host.Outcome State Fault Refusal :=
  let s := s.tick t
  .next (if p.ptype = 2 then s.arrive port.val p else s)

/-- EPOCH_HOLD (R373): a held packet is tested again once the role's epoch has risen to it or 1 ms has passed. -/
def execEpochHold (slot t : Nat) (s : State) : Host.Outcome State Fault Refusal :=
  let s := s.tick t
  .next (match mget s.ecron.holds slot with
    | none => s
    | some h =>
      let r := mgetD s.ecron.directory h.packet.dstRole { modNum := 0, part := 0, epoch := 0 }
      if r.epoch < h.packet.dstEpoch ∧ s.now < h.since + 1000000 then s
      else
        let s := { s with ecron := { s.ecron with holds := mdel s.ecron.holds slot } }
        if s.lease.seized then s.inc (Reg.ecnVcPathDrop h.packet.vc) else s.judge h.packet true)

/-- BULK_TIMEOUT (R255, R379): an unacknowledged bulk packet is resent under a new SEQ, or its transfer fails. -/
def execBulkTimeout (slot t : Nat) (s : State) : Host.Outcome State Fault Refusal :=
  let s := s.tick t
  .next (match mget s.ecron.bulk slot with
    | none => s
    | some b =>
      let gone := { s with ecron := { s.ecron with bulk := mdel s.ecron.bulk slot } }
      if b.packet.braided || s.lease.seized || s.now < b.sentAt + 1000 * s.reg Reg.ecnBulkTimeout then s
      else if b.packet.srcPart < 16 && (s.part b.packet.srcPart).state == .whipping then gone
      else
        if s.reg Reg.ecnBulkRetries ≤ b.resends then
          match s.shipOf b.packet with
          | some (num, x) => gone.endShip num x stShipFailed
          | none =>
            match decide (leAt b.packet.payload 0 4 = 3), gone.kv.inbound.find? fun y =>
                y.fromModule == b.packet.dstModule && y.fromPart == b.packet.dstPart && y.part == b.packet.srcPart &&
                  y.num == leAt b.packet.payload 4 4 with
            | true, some y => gone.dropInbound y
            | _, _ => gone
        else
          let q := b.packet
          let s := gone.originate { q with srcEpoch := s.ownEpoch q.srcPart, resend := true }
          let k := q.dstModule + 256 * nget s.ecron.txSeq (8 * q.dstModule + q.vc)
          { s with ecron := { s.ecron with bulk := mmod s.ecron.bulk k fun b2 => { b2 with resends := b.resends + 1 } } })

/-! Link states and braids -/

/-- LINK_STATE (R376): the port states of a member of the own group; a seized module takes none. -/
def execLinkState (src : Nat) (up : BitVec 18) (t : Nat) (s : State) : Host.Outcome State Fault Refusal :=
  let s := s.tick t
  .next (
    if s.lease.seized || src / 16 != s.self / 16 || src == s.self then s
    else { s with ecron := { s.ecron with members := mput s.ecron.members (src % 16) up.toNat } })

/-- The UP ports of this module. -/
def State.upMask (s : State) : Nat := (upTo 18).foldl (fun n p => n + 2 ^ p * b2n (s.isUp p)) 0

/-- LINK_STATE_SEND (R376): at every change and every 1 ms the port states go to the 15 members of the group on VC1. -/
def execLinkStateSend (t : Nat) (s : State) : Host.Outcome State Fault Refusal :=
  let s := s.tick t
  let mask := s.upMask
  .next (
    if s.lease.seized || (s.now < s.ecron.lastState + 1000000 && mask == s.ecron.lastStates) then s
    else
      let s := { s with ecron := { s.ecron with lastState := s.now, lastStates := mask } }
      foldS (fun s i =>
        let m := s.self / 16 * 16 + i
        if m = s.self then s else s.originate (s.packet 1 (m, 16, 0) (16, 0) 0xFFFF 0 (toLe 4 mask) 0)) s (upTo 16))

/-- A write of ECN_BRAID_CTRL (R31, R384). -/
def State.braidWrite (s : State) (v : Nat) : Nat × State :=
  if v % 16 = 15 then (stOk, s.setReg Reg.ecnBraidCtrl (v % 32 + 32)) else (stSpliceConflict, s)

/-- ECN_BRAID_CTRL (R31). -/
def execEcnBraidCtrl (h : CmdHdr) (value : Word) (s : State) : Host.Outcome State Fault Refusal :=
  .next (s.regCommand h 0x0101 Reg.ecnBraidCtrl fun s =>
    let r := s.braidWrite value.toNat
    ans r.1 r.2)

end Sys2Proof.Machine
end

