-- ==== Sys2Proof/Machine/Hawser.lean ====
section
/-! DEFINITION. Hawser (chapter 15): the receipt of frames with 802.1CB elimination and 802.1Qci policing, relayed frames,
events, host links, gate control lists, and module time from PTP. -/

namespace Sys2Proof.Machine

/-! Receipt (R408 to R414, R417, R418) -/

/-- The session of a frame: commander c of session 0, or the host session of partition p (R408; log entry 1). -/
def frameSession (f : HFrame) : Option Nat :=
  if f.session = 0 then (if 1 ≤ f.commander ∧ f.commander ≤ 4 then some f.commander else none)
  else if f.session ≤ 16 then some (15 + f.session)
  else none

/-- The 802.1CB stream of a frame: the frames of one sender (log entry 42). -/
def streamOf (f : HFrame) : Nat := 65536 * f.session + f.commander

/-- The signed distance of an R-TAG beyond another. -/
def tagDelta (a b : Nat) : Int :=
  let d := (a + 65536 - b % 65536) % 65536
  if d < 32768 then (d : Int) else (d : Int) - 65536

/-- Vector recovery with a history of 32 (R417): whether a frame passes, and the function's state after it. -/
def Recovery.take (r : Option Recovery) (tag now : Nat) : Bool × Recovery :=
  match r with
  | none => (true, { high := tag, taken := [tag], at_ := now })
  | some r =>
    let d := tagDelta tag r.high
    if d ≤ -32 ∨ 32 ≤ d ∨ r.taken.contains tag = true then (false, r)
    else
      let high := if 0 < d then tag else r.high
      (true, { high := high, taken := (tag :: r.taken).filter fun k => -32 < tagDelta k high, at_ := now })

/-- The filter that a frame matches, lowest first (R418). -/
def State.qciFilter (s : State) (f : HFrame) : Option Nat :=
  (upTo 64).find? fun i =>
    let w := s.reg (Reg.hstQciFilter i 0)
    bit w 22 && w % 4096 == f.vid && (bit w 15 || bits w 14 12 == f.pcp.val) &&
      s.reg (Reg.hstQciFilter i 1) + 2 ^ 32 * (s.reg (Reg.hstQciFilter i 2) % 65536) == f.dst

/-- Whether a meter passes a frame, and the meter after it (R417): MEF 10.3, colour-blind; red frames are dropped. -/
def State.meter (s : State) (m len : Nat) : Bool × State :=
  let unit := 8000000
  let cir := s.reg (Reg.hstQciMeter m 0)
  let eir := s.reg (Reg.hstQciMeter m 1)
  let cbs := s.reg (Reg.hstQciMeter m 2) * unit
  let ebs := s.reg (Reg.hstQciMeter m 3) * unit
  let (c, e, t) := mgetD s.meters m (cbs, ebs, s.now)
  let c := min cbs (c + cir * (s.now - t))
  let e := min ebs (e + eir * (s.now - t))
  let put (c e : Nat) : State := { s with meters := mput s.meters m (c, e, s.now) }
  if len * unit ≤ c then (true, put (c - len * unit) e)
  else if len * unit ≤ e then (true, put c (e - len * unit))
  else (false, put c e)

/-- Whether 802.1Qci admits a frame (R418). -/
def State.qci (s : State) (f : HFrame) : Bool × State :=
  if !(bit (s.reg Reg.hstCtrl) 2) then (true, s)
  else
    match s.qciFilter f with
    | none => (false, s)
    | some i =>
      if s.reg (Reg.hstQciFilter i 2) / 65536 < f.sdu then (false, s)
      else s.meter (bits (s.reg (Reg.hstQciFilter i 0)) 21 16) f.sdu

/-- Receipt on a host port at an instant (R412, R418, R503): the counters of the port, the elimination of second copies and
policing; whether the frame passes. -/
def State.portTake (s : State) (port : Nat) (f : HFrame) (at_ : Nat) : Bool × State :=
  let s := s.inc (Reg.hstPortRxCount port)
  if !f.fcsOk then (false, s.inc (Reg.hstPortFcsCount port))
  else
    match f.rtag with
    | none => (false, s)
    | some tag =>
      if f.vid ≠ bits (s.reg Reg.hstCtrl) 27 16 then (false, s)
      else
        let beat := f.opcode = 0x0300 ∧ f.session = 0 ∧ f.commander = s.lease.holder ∧ s.lease.holder ≠ 0
        let s := if beat then s.modHostPort port fun x => { x with lastHb := some at_, silentSent := false } else s
        let r := Recovery.take (mget s.recoveries (streamOf f)) tag s.now
        let s := { s with recoveries := mput s.recoveries (streamOf f) r.2 }
        if !r.1 then (false, s.inc (Reg.hstPortCbElimCount port))
        else
          let q := s.qci f
          if q.1 then (true, q.2) else (false, q.2.inc (Reg.hstPortQciDropCount port))

/-- The bytes of a relayed frame's header and parameters, which Ecron carries (R414). -/
def HFrame.bytes (f : HFrame) : List Byte :=
  toLe 1 f.version ++ toLe 1 (b2n f.reply + 2 * b2n f.event + 4 * b2n f.relay) ++ toLe 2 f.opcode ++ toLe 4 f.seq ++
    toLe 4 f.epoch ++ toLe 2 f.commander ++ toLe 2 f.session ++ toLe 2 f.length ++ toLe 2 f.status ++ toLe 1 f.modNum ++
    toLe 3 0 ++ toLe 8 f.notAfter ++ f.params

/-- The refusal of a frame at receipt (R412, R413): as `refusal`, with NOT_AFTER tested after the lease. -/
def State.frameRefusal (s : State) (sid : Nat) (f : HFrame) : Option Nat :=
  let r := s.refusal sid f.epoch f.opcode
  if r = some stStaleEpoch ∨ r = some stLeaseLost then r
  else if f.notAfter ≠ 0 ∧ f.notAfter < s.now then some stExpired
  else r

/-- The steps of R412 from the header on, for a frame that came on a host port or was relayed by a module; `at_` is its
arrival time when it was held during the management pause (R520). -/
def State.headerTake (s : State) (relay : Option Nat) (f : HFrame) (at_ : Option Nat) : State :=
  if f.version ≠ 1 ∨ f.reserved = true ∨ f.reply = true ∨ f.event = true ∨ f.length ≠ f.params.length ∨ 1440 < f.length ∨
      f.length % 4 ≠ 0 then s.inc Reg.hstBadFrameCount
  else if f.relay = true ∧ f.modNum ≠ s.self then
    if s.lease.seized then s
    else
      ((s.inc Reg.hstRelayCount).originate (s.packet 0 (f.modNum, 16, 0) (16, 0) 0xFFFF 0 (HFrame.bytes f) 0)).send (.relay f.modNum f)
  else
    match frameSession f with
    | none => s.inc Reg.hstAuthFailCount
    | some sid =>
      if f.opcode = 0x0002 then
        let o := mgetD s.security.openings sid { window := Window.empty, kind := 0, frags := [] }
        if f.tagKey ≠ 0 then s.inc Reg.hstAuthFailCount
        else if o.window.dup f.seq then s.inc Reg.hstDupCount
        else if o.window.late f.seq then s.inc Reg.hstLateCount
        else { s with security := { s.security with
                 openings := mput s.security.openings sid { o with window := o.window.enter f.seq } } }
      else
        match s.session sid with
        | none => s.inc Reg.hstAuthFailCount
        | some x =>
          if f.tagKey ≠ x.key then s.inc Reg.hstAuthFailCount
          else if x.window.dup f.seq then
            let s := s.inc Reg.hstDupCount
            match x.replies.find? fun r => r.seq == f.seq with
            | some r => if s.update.paused.isSome then s else s.sendReply sid relay r
            | none => s
          else if x.window.late f.seq then s.inc Reg.hstLateCount
          else if 64 ≤ x.queue.length then s.inc Reg.hstQueueDropCount
          else
            let s := s.modSession sid fun x =>
              { x with window := x.window.enter f.seq, via := mset x.via f.seq relay }
            match s.frameRefusal sid f with
            | some st => (s.countRefusal f.opcode st).answer sid f.seq st (s.refusalData f.opcode st) false
            | none =>
              let s := s.modSession sid fun x => { x with queue := x.queue ++ [f] }
              match at_ with
              | none => s
              | some a => { s with update := { s.update with stamps := s.update.stamps ++ [(sid, f.seq, a)] } }

/-- A frame reaches the module: on host port 0 or 1, or relayed by module k as port 2 + k. -/
def State.frame (s : State) (port : Nat) (f : HFrame) (at_ : Option Nat) : State :=
  if port < 2 then
    let r := s.portTake port f (at_.getD s.now)
    if r.1 then r.2.headerTake none f at_ else r.2
  else s.headerTake (some (port - 2)) f at_

/-- Take a frame, or hold it while the management image is starting (R520). -/
def State.frameOrHold (s : State) (port : Nat) (f : HFrame) : State :=
  if s.update.paused.isSome then
    if 256 ≤ s.update.held.length then s.inc Reg.hstQueueDropCount
    else { s with update := { s.update with held := s.update.held ++ [(port, f, s.now)] } }
  else s.frame port f none

/-- A host port that receives and sends: enabled, with its link up (R411, R432). -/
def State.hostUp (s : State) (port : Nat) : Bool := bit (s.reg Reg.hstCtrl) port && (s.hostPort port).linkUp

/-- HAWSER_FRAME (R412). -/
def execHawserFrame (port : Fin 2) (f : HFrame) (t : Nat) (s : State) : Host.Outcome State Fault Refusal :=
  let s := s.tick t
  .next (if s.hostUp port.val then s.frameOrHold port.val f else s)

/-- RELAY_FRAME (R414): a seized module drops what reaches it over Ecron (R374). -/
def execRelayFrame (f : HFrame) (src t : Nat) (s : State) : Host.Outcome State Fault Refusal :=
  let s := s.tick t
  .next (if s.lease.seized then s else s.frameOrHold (2 + src) f)

/-- RELAY_REPLY (R411, R414): the reply goes on both host ports. -/
def execRelayReply (f : HFrame) (t : Nat) (s : State) : Host.Outcome State Fault Refusal :=
  let s := s.tick t
  .next (
    if s.lease.seized then s
    else foldS (fun s p => if s.hostUp p then s.send (.frame p f) else s) s [0, 1])

/-- RECOVERY_RESET_TIMEOUT (R417): after 100 ms without an accepted frame the next one of the stream is taken as it comes. -/
def execRecoveryResetTimeout (stream t : Nat) (s : State) : Host.Outcome State Fault Refusal :=
  let s := s.tick t
  .next (match mget s.recoveries stream with
    | some r => if r.at_ + 100000000 ≤ s.now then { s with recoveries := mdel s.recoveries stream } else s
    | none => s)

/-! Commands of every session (R416, R419) -/

/-- ECHO (R419). -/
def execEcho (h : CmdHdr) (data : List Byte) (s : State) : Host.Outcome State Fault Refusal :=
  .next (s.command h 0x0001 fun s => (stOk, data, s))

/-- EVENT_ACK (R416). -/
def execEventAck (h : CmdHdr) (n : Nat) (s : State) : Host.Outcome State Fault Refusal :=
  .next (s.command h 0x0005 fun s =>
    ans stOk (s.modSession h.session fun x => { x with events := x.events.filter fun e => n < e.num }))

/-- EVENT_RESEND (R416): events unacknowledged for 100 ms are sent again; none during the management pause (R520). -/
def execEventResend (sid t : Nat) (s : State) : Host.Outcome State Fault Refusal :=
  let s := s.tick t
  .next (match s.session sid with
    | none => s
    | some x =>
      if s.update.paused.isSome then s
      else
        let due := x.events.filter fun e => e.sentAt + 100000000 ≤ s.now
        let s := s.modSession sid fun x =>
          { x with events := x.events.map fun e => if e.sentAt + 100000000 ≤ s.now then { e with sentAt := s.now } else e }
        foldS (fun s e => s.send (.event sid { e with sentAt := s.now })) s due)

/-! Host links (R408, R411) -/

/-- HOST_LINK_UP (R408): the ports come up from start-up phase 3 on (R568), in a domain that is on. -/
def execHostLinkUp (port : Fin 2) (t : Nat) (s : State) : Host.Outcome State Fault Refusal :=
  let s := s.tick t
  let p := port.val
  .next (
    if !(bit (s.reg Reg.hstCtrl) p) || s.start.phase < 3 || (s.woken && (s.dom (52 + p)).state != .on) then s
    else s.modHostPort p fun x => { x with linkUp := true, fecLock := true })

/-- HOST_LINK_DOWN (R411). -/
def execHostLinkDown (port : Fin 2) (t : Nat) (s : State) : Host.Outcome State Fault Refusal :=
  let s := s.tick t
  .next (s.modHostPort port.val fun x => { x with linkUp := false, fecLock := false })

/-! Gate control lists (R417, R418) -/

/-- GCL_ACTIVATE (R418): a committed list takes effect at its first cycle start at or after the base time. -/
def execGclActivate (port : Fin 2) (t : Nat) (s : State) : Host.Outcome State Fault Refusal :=
  let s := s.tick t
  .next (match (s.hostPort port.val).gateWait with
    | none => s
    | some (on, list, cycle, start) =>
      if s.now < start then s
      else s.modHostPort port.val fun x =>
        { x with gateOn := on, gateList := list, gateCycle := cycle, gateStart := start, gateEntry := 0, gateWait := none })

/-- The offset of the end of an entry from the start of its cycle, in ns. -/
def gateEnd (list : List (Nat × Nat)) (i : Nat) : Nat := ((list.take (i + 1)).map fun e => 8 * e.2).foldl (fun a b => a + b) 0

/-- GATE_INTERVAL_END (R417): the next entry's gate states apply; after the last entry the next cycle starts. -/
def execGateIntervalEnd (port : Fin 2) (t : Nat) (s : State) : Host.Outcome State Fault Refusal :=
  let s := s.tick t
  let x := s.hostPort port.val
  .next (
    if !x.gateOn || s.now < x.gateStart + gateEnd x.gateList x.gateEntry then s
    else s.modHostPort port.val fun x =>
      if x.gateEntry + 1 < x.gateList.length then { x with gateEntry := x.gateEntry + 1 }
      else { x with gateEntry := 0, gateStart := x.gateStart + x.gateCycle })

/-! Module time (R417, R428, R429) -/

/-- The Sync receipt timeout in ns: 3 intervals of HST_PTP_CTRL (R417, R432). -/
def State.syncTimeout (s : State) : Nat := 3000000000 / 2 ^ ((256 - s.reg Reg.hstPtpCtrl % 256) % 256)

/-- A port has received Sync within the receipt timeout. -/
def State.syncValid (s : State) (port : Nat) : Bool :=
  match (s.hostPort port).syncAt with
  | some a => decide (s.now < a + s.syncTimeout)
  | none => false

/-- PTP_SYNC (R428, R429): `offset` is master time less module time. The first lock sets module time once; a later forward
offset above 1 ms on the port in use steps it; any other offset is slewed, as is the first one after a change of port. -/
def execPtpSync (port : Fin 2) (offset : Int) (t : Nat) (s : State) : Host.Outcome State Fault Refusal :=
  let s := s.tick t
  let p := port.val
  let s := s.modHostPort p fun x => { x with syncAt := some s.now, offset := offset }
  let x := s.ptp
  .next (
    if p = 1 && s.syncValid 0 then s
    else
      let ahead := offset.toNat
      if x.state = 0 then
        let s := { s with now := s.now + ahead, ptp := { state := 1, port := p, slew := min offset 0, lastSync := s.now + ahead } }
        let s := s.modHostPort p fun x => { x with syncAt := some s.now }
        { s with serve := { s.serve with lastRefill := s.now / 1000000 * 1000000 } }
      else if x.port = p ∧ 1000000 < offset then
        let s := { s with now := s.now + ahead, ptp := { state := 1, port := p, slew := 0, lastSync := s.now + ahead } }
        let s := s.modHostPort p fun x => { x with syncAt := some s.now }
        let s := (s.refill).inc Reg.hstPtpStepCount
        s.eventC 6 stOk (1 + 4 * p) (toLe 8 ahead)
      else { s with ptp := { state := 1, port := p, slew := offset, lastSync := s.now } })

/-- PTP_SOURCE_SWITCH (R428): a change of port steps nothing. -/
def execPtpSourceSwitch (t : Nat) (s : State) : Host.Outcome State Fault Refusal :=
  let s := s.tick t
  .next (
    if s.ptp.state = 0 || s.ptp.port != 0 || s.syncValid 0 then s
    else { s with ptp := { s.ptp with port := 1, slew := (s.hostPort 1).offset } })

/-- PTP_HOLDOVER (R429): 2 s without Sync on either port. -/
def execPtpHoldover (t : Nat) (s : State) : Host.Outcome State Fault Refusal :=
  let s := s.tick t
  let recent := (upTo 2).any fun p =>
    match (s.hostPort p).syncAt with
    | some a => decide (s.now < a + 2000000000)
    | none => false
  .next (if s.ptp.state = 1 && !recent then { s with ptp := { s.ptp with state := 2 } } else s)

/-- PDELAY_INTERVAL (R417): every 1 s a port with its link up starts a peer-delay measurement. -/
def execPdelayInterval (port : Fin 2) (t : Nat) (s : State) : Host.Outcome State Fault Refusal :=
  let s := s.tick t
  let p := port.val
  .next (
    if !(s.hostUp p) || s.now < (s.hostPort p).pdelayAt + 1000000000 then s
    else (s.modHostPort p fun x => { x with pdelayAt := s.now }).send (.pdelay p))

end Sys2Proof.Machine
end

