-- ==== Sys2Proof/Machine/Regs.lean ====
section
/-! DEFINITION. Reading a register (R20 to R24, R27, R70, R421): what each register that shows another piece of state reads,
read-clear counters, high words latched by session, and counters frozen by a snapshot. -/

namespace Sys2Proof.Machine

/-- The low 32 bits of a number. -/
def lo32 (v : Nat) : Nat := v % 2 ^ 32
/-- Bits [63:32] of a number. -/
def hi32 (v : Nat) : Nat := v / 2 ^ 32 % 2 ^ 32

/-! The registers that show another piece of state, block by block: base address of the row, first and second index -/

/-- GBL (R23, R471, R575). -/
def State.showGbl (s : State) (b p : Nat) : Option Nat :=
  match b with
  | 0x0 => some deviceId
  | 0x8 => some (lo32 s.now)
  | 0x10 => some s.start.slotId
  | 0x14 => some s.gblState
  | 0x20 => some s.startStatus
  | 0x24 => some s.startMs
  | 0x2C => some s.pins
  | 0x100C => some (lo32 (s.journal p).wr)
  | 0x1018 => some (s.reg (Reg.gblDetPartReplay p) + 2 ^ 29 * (s.journal p).halt)
  | 0x101C => some (lo32 (s.journal p).taken)
  | _ => none

/-- HST_PTP_OFFSET: the last offset from the master on the port in use, signed ns, saturating (R432). -/
def State.ptpOffset (s : State) : Nat :=
  ((max (-2147483648) (min 2147483647 (s.hostPort s.ptp.port).offset)) % 4294967296).toNat

/-- HST (R432). -/
def State.showHst (s : State) (b n : Nat) : Option Nat :=
  match b with
  | 0x10010 =>
    let x := s.hostPort n
    some (b2n x.linkUp + 2 * b2n x.fecLock + 4 * b2n (s.ptp.state == 1 && s.ptp.port == n) + 8 * b2n (s.syncValid n))
  | 0x10014 => some (lo32 (Config.macAddress n))
  | 0x10018 => some (Config.macAddress n / 2 ^ 32 % 65536)
  | 0x10200 => some (s.ptp.state + 4 * s.ptp.port)
  | 0x10204 => some s.ptpOffset
  | 0x10400 => some (s.partStatus n)
  | 0x10440 => some (lo32 (s.part n).gen)
  | _ => none

/-- PWR_DOM_STATE.STATE (R542). -/
def DomState.code : DomState → Nat
  | .on => 0
  | .retention => 1
  | .off => 2
  | .entering => 3
  | .waking => 4

/-- PWR (R542). -/
def State.showPwr (s : State) (b n : Nat) : Option Nat :=
  let d := s.dom n
  match b with
  | 0x30008 => some (b2n s.power.lpActive + 256 * min 255 s.power.current)
  | 0x30100 => some (if s.woken then d.target + 16 * b2n (bit (s.reg (Reg.pwrDomCtrl n)) 4) else 0)
  | 0x30200 =>
    some (if s.woken then d.state.code + 8 * b2n d.cleated + 16 * b2n d.saveValid + 32 * b2n d.defaulted else 0)
  | 0x30800 => some (if s.exists_ n then Config.partPower n (s.now / 1000000000) % 65536 else 0)
  | _ => none

/-- THM (R560). -/
def State.showThm (s : State) (b i : Nat) : Option Nat :=
  match b with
  | 0x40004 => some s.thermo.step
  | 0x40018 => some s.moduleEst
  | 0x40028 => some (lo32 s.thermo.lastRemargin)
  | 0x40100 => some (s.spotReg i)
  | 0x40200 =>
    let a := s.ageing i
    some (a.d % 65536 + 65536 * (a.g % 256) + 2 ^ 24 * (a.hold % 4) + 2 ^ 28 * b2n a.aged)
  | _ => none

/-- SEC_SESSIONS (R496): sessions that hold a key, a former one not among them. -/
def State.sessionMask (s : State) : Nat :=
  maskOf ((upTo 4).filter fun c => (s.session (c + 1)).isSome) +
    16 * maskOf ((upTo 16).filter fun p => (s.session (16 + p)).isSome && !(s.former (16 + p)))

/-- SEC and ATT (R496). -/
def State.showSec (s : State) (b p : Nat) : Option Nat :=
  let x := s.security
  match b with
  | 0x50008 => some (lo32 x.gen)
  | 0x5000C => some (lo32 x.bootCount)
  | 0x50010 => some s.fuseBits
  | 0x50014 => some (maskOf (x.slots.filter fun k => k != 16) + 65536)
  | 0x50018 => some s.sessionMask
  | 0x5001C => some (x.jobKeys.length + 65536 * b2n (mget x.jobKeys 0).isSome)
  | 0x50100 => some ((s.part p).txKey.getD 0xFFFF)
  | 0x50140 =>
    some (if (s.part p).state = .whipping then Config.whipProgress (s.part p).whipStart s.now % 65536 else 0)
  | 0x60004 => some Config.certChain.length
  | 0x60008 => some (lo32 x.signedAt)
  | _ => none

/-- UPD (R527). -/
def State.showUpd (s : State) (b : Nat) : Option Nat :=
  let u := s.update
  let release (x : CoilSlot) : Nat := if x.state = 0 then 0 else x.release
  match b with
  | 0x70004 =>
    some (u.slotA.state + 16 * u.slotB.state + 256 * u.micro + 512 * u.ccf + 1024 * u.mgmt + 2048 * b2n u.dual)
  | 0x70008 => some u.minSvn
  | 0x7000C => some (release u.slotA)
  | 0x70010 => some (release u.slotB)
  | 0x70014 => some (lo32 (u.schedT.getD 0))
  | 0x7001C => some (match u.loading with | some k => (u.slot k).blocks.length | none => 0)
  | _ => none

/-- LNY (R512). -/
def State.showLny (s : State) (b : Nat) : Option Nat :=
  let l := s.lease
  match b with
  | 0x80004 =>
    let lease := if s.held then 1 else if l.holder = 0 then 0 else 2
    some (lease + 4 * b2n l.lost + 8 * b2n l.seized + 16 * b2n s.start.dirReady + 256 * l.holder)
  | 0x80008 => some (lo32 l.epoch)
  | 0x80014 => some (lo32 l.expiry)
  | 0x8001C => some (lo32 l.lastHb)
  | 0x80024 => some (min 255 (s.misses 0) + 256 * min 255 (s.misses 1))
  | 0x80028 => some (b2n s.start.dirReady)
  | 0x80040 => some s.ecron.directory.length
  | _ => none

/-- The index of a controller in the module: HBM controllers 0 to 7, capacity-tier controllers 8 and 9. -/
def ctlNumber (m c : Nat) : Nat := if m < 4 then 2 * m + c else 8 + c

/-- A byte of MEM_OWN of a controller (R172): bytes that name no granule read zero. -/
def State.ownAt (s : State) (k i : Nat) : Nat :=
  if k < 8 then (if i < 126 then s.ownByte k i else 0)
  else if i < 1344 then s.ownByte (8 + 6 * (k - 8) + i / 224) (i % 224) else 0

/-- Progress of the patrol pass of a controller in units of 1/65,536 (R172). -/
def State.scrubPos (s : State) (k : Nat) : Nat :=
  65536 * total ((ctlUnits k).map fun u => (s.unit u).patrol) / total ((ctlUnits k).map patrolLines)

/-- A word of the oldest entry of an error log (R172). -/
def MemErr.word (e : MemErr) (w : Nat) : Nat :=
  match w with
  | 0 => lo32 e.line
  | 1 => hi32 e.line % 8 + 8 * b2n e.patrol + 16 * e.cls + 256 * e.owner + 8192 * e.symbols
  | 2 => lo32 e.time
  | _ => hi32 e.time

/-- A MEM register of instance m: offset of its row, second and third index (R172). -/
def State.showMem (s : State) (m off i j : Nat) : Option Nat :=
  let k := ctlNumber m i
  match off with
  | 0x0 => some (if k < 8 then k + 256 else 6 * (k - 8) + 16 + 6 * 256)
  | 0x4 =>
    some ((mgetD s.ctls k MemCtl.empty).state + 65536 * total ((ctlUnits k).map fun u => (s.unit u).spares))
  | 0x34 => some (lo32 (((ctlUnits k).map fun u => (s.unit u).passes).foldl min (s.unit ((ctlUnits k).headD 0)).passes))
  | 0x38 => some (s.scrubPos k)
  | 0x100 => some (ofLe ((upTo 4).map fun x => BitVec.ofNat 8 (s.ownAt k (4 * j + x))))
  | 0x2010 =>
    some (ofLe ((upTo 4).map fun x =>
      let v := 4 * j + x
      BitVec.ofNat 8 (if m < 4 then (if v < 2 then s.granuleCount i (2 * m + v) else 0)
        else if v < 12 then s.granuleCount i (8 + v) else 0)))
  | 0x3000 => some ((mgetD s.errLogs m []).length + 65536 * min 65535 (nget s.errDropped m))
  | 0x3010 => some (match mgetD s.errLogs m [] with | e :: _ => e.word i | [] => 0)
  | _ => none

/-- Slots of a die's bight in a state (R239). -/
def State.bightCount (s : State) (f : Bight → Bool) : Nat := total ((s.kv.bight.filter f).map fun b => b.n)
/-- Page-table entries of a partition in a state (R230). -/
def State.pageCount (s : State) (p : Nat) (st : PageState) : Nat :=
  (s.kv.pages.filter fun e => e.2.part == p && e.2.state == st).length

/-- KVP of a die (R257). -/
def State.showKvp (s : State) (b d p : Nat) : Option Nat :=
  match b with
  | 0xB0000 => some d
  | 0xB0010 => some (32768 - s.bightCount fun x => x.die == d)
  | 0xB0014 => some (s.bightCount fun x => x.die == d && x.state == .pending)
  | 0xB0018 => some (s.bightCount fun x => x.die == d && x.state == .held)
  | 0xB001C => some (s.bightCount fun x => x.die == d && x.state == .flushing)
  | 0xB1004 => some (s.bightCount fun x => x.die == d && x.part == p)
  | 0xB1008 => some (s.part p).pgHbm
  | 0xB100C => some (s.part p).pgCt
  | 0xB1010 => some (s.freePages p false)
  | 0xB1014 => some (s.freePages p true)
  | 0xB1018 => some (s.pageCount p .live)
  | 0xB101C => some (s.pageCount p .moving)
  | 0xB1020 => some (s.pageCount p .inbound)
  | _ => none

/-- SRV of a die (R289): w is the word of a module total, or the partition. -/
def State.showSrv (s : State) (b d w : Nat) : Option Nat :=
  let v := s.serve
  let half (n : Nat) : Option Nat := some (if w = 0 then lo32 n else hi32 n)
  match b with
  | 0xC0000 => some d
  | 0xC0100 => half v.staged
  | 0xC0108 => half v.committed
  | 0xC0110 => half v.discarded
  | 0xC0118 => half v.engine
  | 0xC0120 => some (lo32 v.inStage)
  | 0xC1000 => some (s.part w).seqBase
  | 0xC1004 => some (s.part w).seqSize
  | 0xC1030 => some (nget v.reservedPages w)
  | 0xC1034 => some (s.part w).handles
  | _ => none

/-- ECN_CR registers of a port and VC × 2 + lane (R382, R384): the whole allocation is free while the port is not UP. -/
def State.showCredit (s : State) (off p k : Nat) : Option Nat :=
  let c := s.credit p k
  match off with
  | 4 => some c.avail
  | 8 => some c.outstanding
  | 0xC => some (if s.isUp p then c.rxFree else s.reg (Reg.ecnCrAlloc p (k / 2) (k % 2)))
  | 0x10 => some c.rxHeld
  | 0x14 => some c.rxOwed
  | _ => none

/-- ECN (R384): indices of the row. -/
def State.showEcn (s : State) (b i j k : Nat) : Option Nat :=
  let x := s.port i
  match b with
  | 0xE0004 => some s.self
  | 0xE1000 => some (x.state + 8 * b2n x.peerSeized + 16 * b2n x.wiringBad + 32 * b2n x.compat)
  | 0xE1020 =>
    let n := ((x.symErrs.filter fun e => decide (s.now < e.1 + 1000000000)).map fun e => e.2).sum
    some (min (2 ^ 32 - 1) (n * 2 ^ 30 / 42500000000))
  | 0xE1004 => some (match x.peer with | some (m, q) => m + 256 + 512 * q | none => 0)
  | 0xE8000 =>
    let r := s.route i
    some (r.1.getD 0 + 256 * r.2.getD 0 + 65536 * b2n r.1.isSome + 131072 * b2n r.2.isSome)
  | 0xE8400 =>
    let v := s.reg (Reg.ecnGw i)
    let up := (s.gwLinks i).map fun l => s.gwUp l
    some (v + 64 * b2n (up.getD 0 false) + 64 * 256 * b2n (up.getD 1 false) + 64 * 65536 * b2n (up.getD 2 false))
  | _ => if 0xE4004 ≤ b ∧ b ≤ 0xE4014 then s.showCredit (b - 0xE4000) i (2 * j + k) else none

/-- VID (R334). -/
def State.showVid (s : State) (b i : Nat) : Option Nat :=
  match b with
  | 0xF0040 =>
    let x := s.vidCore i
    some (if s.woken && (s.dom (44 + i)).state != .on then 0
      else if s.now < x.resetUntil then 4
      else if x.state = 0 then 1 else x.state + 65536 * x.ctx)
  | 0xF1014 => some (((upTo (s.bufRange i).2).filter fun k => (s.buffer ((s.bufRange i).1 + k)).isFree).length)
  | _ => none

/-- CHK_PACK_STATE of a die (R459). -/
def State.packState (s : State) (d : Nat) : Nat :=
  let x := s.packOf d
  match x.strand, x.cur with
  | some st, some c => st % 32 + 32 * b2n (s.packMayRun st) + 256 * c.slot + 4096 * c.num
  | _, _ => 0

/-- CHK (R459). -/
def State.showChk (s : State) (b d i : Nat) : Option Nat :=
  match b with
  | 0x110000 => some d
  | 0x110014 => some (s.packState d)
  | 0x110200 =>
    let x := s.strand (32 * d + i)
    some (min 65535 (x.rises.filter fun t => decide (s.now < t + 86400000000000)).length + 65536 * (x.packPasses % 65536))
  | 0x111010 => some (lo32 (s.part i).records)
  | 0x128000 => some (lo32 (s.checks.next - 1))
  | 0x128008 => some (lo32 s.checks.commanderAck)
  | _ => none

/-- Strand windows (R103). -/
def State.showStr (s : State) (b st : Nat) : Option Nat :=
  match b with
  | 0x1000000 => some (st + 128 * (st % 8) + 1024 * hankOf st + 16384 * (st / 32))
  | 0x1000004 =>
    let paired := match s.partOf (hankOf st) with | some p => (s.step p).paired | none => false
    some (s.availOf st + 8 * b2n paired + 256 * min 255 (s.strand st).queue.length)
  | 0x1000044 => some (lo32 (s.strand st).passes)
  | _ => none

/-- HNK_STATUS.PHASE (R143). -/
def StepPhase.code : StepPhase → Nat
  | .idle => 0
  | .running => 1
  | .committing => 2
  | .replaying => 3
  | .abandoned => 4

/-- HNK_STATUS of a hank (R143): POS_DONE and FIXED describe the step under way, SHARED the mapping in force
(R136). -/
def State.hankStatus (s : State) (g : Nat) : Nat :=
  match s.partOf g with
  | none => 0
  | some p =>
    let r := s.step p
    let on := s.stepUnderWay p
    let done := if on then maskOf ((upTo 8).filter fun q => (s.pos g q).finished) else 0
    let shared := (upTo 8).any fun q => (upTo q).any fun x => s.placeOf g x == s.placeOf g q
    r.phase.code + 8 * b2n shared + 256 * done + 65536 * b2n (on && r.fixed)

/-- Hank and attention registers (R143, R226). -/
def State.showHnk (s : State) (b g : Nat) : Option Nat :=
  match b with
  | 0x1008000 => some (match s.partOf g with | some p => s.hnkCtrl p | none => 0)
  | 0x1008004 => some (s.hankStatus g)
  | 0x1008010 => some (match s.partOf g with | some p => lo32 (s.step p).counter | none => 0)
  | 0x100A000 =>
    some (maskOf ((upTo 32).filter fun k =>
      (s.strand (32 * g + k)).queue.any fun e => !(e.unissued) && e.word.toNat % 256 == 0x18))
  | _ => none

/-- The kinds of multi-register groups of which a session holds a shadow (R433). -/
def kindsOf (groups : List (Nat × Nat)) : Nat := maskOf ((upTo 32).filter fun k => groups.any fun g => g.1 == k)

/-! Multi-register splice groups (R425) -/

/-- A multi-register group: its KIND, the rows that form it, which index names the instance (none: instance 0), the number
of instances, and whether a partition may write the group of its own hank or number. -/
structure Group where
  kind : Nat
  rows : List Nat
  index : Option Nat
  count : Nat
  part : Bool
  deriving DecidableEq, Repr

/-- The table of R425. The hub's Fairlead tables are instance 4. -/
def groupTable : List Group := [
  ⟨1, [0x1008008, 0x100800C], some 0, 16, true⟩,
  ⟨2, [0x90008, 0x90100, 0x120008, 0x120100], some 0, 5, false⟩,
  ⟨3, [0xC1008, 0xC100C, 0xC1010, 0xC1014, 0xC1018, 0xC101C, 0xC1020, 0xC1024, 0xC1028, 0xC102C], some 1, 16, true⟩,
  ⟨4, [0xD1000, 0xD1004, 0xD1008, 0xD100C, 0xD1010, 0xD1014, 0xD1018, 0xD101C, 0xD1020], some 1, 16, true⟩,
  ⟨5, [0xD2000, 0xD2004, 0xD2008], some 1, 16, true⟩,
  ⟨6, [0xF1000, 0xF1004, 0xF1008, 0xF100C, 0xF1010], some 0, 16, false⟩,
  ⟨7, [0xE8400], none, 1, false⟩,
  ⟨8, [0xE4000], none, 1, false⟩,
  ⟨9, [0x10800, 0x10C00, 0x10C04, 0x10C08, 0x10C0C], some 0, 2, false⟩,
  ⟨10, [0x11000, 0x11400], none, 1, false⟩,
  ⟨11, [0x40, 0x44, 0x1000, 0x1004, 0x1008], none, 1, false⟩]

/-- The group instance (KIND, INSTANCE) of a register, if it belongs to a multi-register group. -/
def groupAt (r : RegRow) (ix : List Nat) : Option (Nat × Nat) :=
  match groupTable.find? fun g => g.rows.contains r.base with
  | none => none
  | some g =>
    if g.kind = 2 ∧ 0x120000 ≤ r.base then some (2, 4)
    else some (g.kind, match g.index with | some i => ix.getD i 0 | none => 0)

/-- The group instance of a register address. -/
def groupOf (addr : Nat) : Option (Nat × Nat) :=
  match regAt addr with
  | some (r, ix) => groupAt r ix
  | none => none

/-- SPL (R433): each session reads its own. -/
def State.showSpl (s : State) (sid b : Nat) : Option Nat :=
  match s.session sid with
  | none => none
  | some x =>
    match b with
    | 0x20004 => some x.splResult
    | 0x20008 => some (kindsOf (x.shadow.filterMap fun e => groupOf e.1))
    | _ => none

/-! One register -/

/-- What a register reads, but for latches, snapshots and clears. -/
def State.showRow (s : State) (sid : Nat) (r : RegRow) (ix : List Nat) (addr : Nat) : Nat :=
  let i := ix.headD 0
  let j := ix.getD 1 0
  let k := ix.getD 2 0
  let b := r.base
  let v : Option Nat :=
    if b < 0x10000 then s.showGbl b i
    else if b < 0x20000 then s.showHst b i
    else if b < 0x30000 then s.showSpl sid b
    else if b < 0x40000 then s.showPwr b i
    else if b < 0x50000 then s.showThm b i
    else if b < 0x70000 then s.showSec b i
    else if b < 0x80000 then s.showUpd b
    else if b < 0x90000 then s.showLny b
    else if b = 0x90000 then some i
    else if b = 0x120000 then some 4
    else if 0xA0000 ≤ b ∧ b < 0xB0000 then s.showMem i (b - 0xA0000) j k
    else if 0x124000 ≤ b ∧ b < 0x128000 then s.showMem 4 (b - 0x124000) j k
    else if 0xB0000 ≤ b ∧ b < 0xC0000 then s.showKvp b i j
    else if 0xC0000 ≤ b ∧ b < 0xD0000 then s.showSrv b i j
    else if b = 0xD0000 ∨ b = 0x100000 then some i
    else if 0xE0000 ≤ b ∧ b < 0xF0000 then s.showEcn b i j k
    else if 0xF0000 ≤ b ∧ b < 0x100000 then s.showVid b i
    else if 0x110000 ≤ b ∧ b < 0x12C000 then s.showChk b i j
    else if 0x1000000 ≤ b ∧ b < 0x1001000 then s.showStr b i
    else if 0x1008000 ≤ b then s.showHnk b i
    else none
  v.getD (s.reg (homeAddr r ix addr))

/-- The low word that latches a high word, by the high word's row (R24, R144, R459, R496, R512, R527, R560). -/
def latchedHigh (b : Nat) : Bool :=
  [0xC, 0x4002C, 0x6000C, 0x70018, 0x80018, 0x80020, 0x128004, 0x12800C, 0x1008014].contains b

/-- The 64-bit value of which a low word shows the low half. -/
def State.wideValue (s : State) (b g : Nat) : Nat :=
  match b with
  | 0x8 => s.now
  | 0x40028 => s.thermo.lastRemargin
  | 0x60008 => s.security.signedAt
  | 0x70014 => s.update.schedT.getD 0
  | 0x80014 => s.lease.expiry
  | 0x8001C => s.lease.lastHb
  | 0x128000 => s.checks.next - 1
  | 0x128008 => s.checks.commanderAck
  | _ => match s.partOf g with | some p => (s.step p).counter | none => 0

/-- Where a session keeps a latched high word: HNK_STEP_HI is partition-wide (R143), so every hank of a partition shares the
latch of its lowest. -/
def State.latchKey (s : State) (b g : Nat) : Nat :=
  if b = 0x1008014 then Reg.hnkStepHi (match s.partOf g with | some p => s.firstHank p | none => g) else b

/-- Key of a frozen counter in `snaps`: that of the commander's snapshot of an instance, or of a partition's. -/
def partSnap : Nat := 2 ^ 26

/-- The frozen copy that a read returns while a snapshot holds (R27, R257): a partition's counters in both sessions, an
instance's in the commander session. -/
def State.frozen (s : State) (sid addr : Nat) : Option Nat :=
  match (if isCommander sid then mget s.snaps addr else none) with
  | some v => some v
  | none => mget s.snaps (partSnap + addr)

/-- The value of one register as a session's read sees it, with no side effect (R21, R24, R27). -/
def State.seenReg (s : State) (sid addr : Nat) : Nat :=
  match regAt addr with
  | none => 0
  | some (r, ix) =>
    match s.frozen sid addr with
    | some v => v
    | none =>
      if r.access = .wo then 0
      else if latchedHigh r.base then
        match s.session sid with
        | some x => nget x.latches (s.latchKey r.base (ix.headD 0))
        | none => 0
      else s.showRow sid r ix addr

/-- One word is read (R24, R70, R421): a read-clear counter is cleared, then takes what arrives in the same cycle; a low word
latches its high word for the session; a frozen copy stays. -/
def State.readWord (s : State) (sid addr coincident : Nat) : Nat × State :=
  let v := s.seenReg sid addr
  match regAt addr with
  | none => (v, s)
  | some (r, ix) =>
    if (s.frozen sid addr).isSome then (v, s)
    else if r.access = .rc then (v, s.setReg (homeAddr r ix addr) (sat32 coincident))
    else if latchedHigh (r.base + 4) then
      let g := ix.headD 0
      (v, s.modSession sid fun x => { x with latches := nput x.latches (s.latchKey (r.base + 4) g) (hi32 (s.wideValue r.base g)) })
    else (v, s)

/-- The addresses of consecutive words. -/
def wordsFrom (addr n : Nat) : List Nat := (upTo n).map fun i => addr + 4 * i

/-- The status of a range's access check (R21, R22, R421), OK where every word passes: where the words fail differently, one
out of reach and one that the session may not write, the first failing word in ascending address gives it (DESIGN CHOICE, log
entry 62). -/
def State.accessAll (s : State) (sid : Nat) (as : List Nat) (write : Bool) : Nat :=
  ((as.map fun a => s.access sid a write).find? fun st => st != stOk).getD stOk

/-- A counter of time that still runs is brought up to the instant of its read (R105). -/
def State.accrue (s : State) (a : Nat) : State :=
  match regAt a with
  | some (r, ix) =>
    let i := ix.headD 0
    match r.base with
    | 0x1008040 => s.countHeld i
    | 0x40300 => foldS (fun s g => s.countGate i g) s (s.part i).hanks
    | 0xF0080 => s.countCore i
    | 0xF102C => foldS (fun s k => if ((s.vidCtx (s.vidCore k).ctx).map fun x => x.part) = some i then s.countCore k else s) s (upTo 8)
    | _ => s
  | none => s

/-- Read words in ascending address, once every domain that holds one of them has been reached (R23, R421). -/
def State.readWords (s : State) (sid : Nat) (as : List Nat) (coincident : Nat) : List Byte × State :=
  let s := foldS (fun s a => (s.reachReg a).accrue a) s as
  as.foldl (fun x a =>
    let r := x.2.readWord sid a coincident
    (x.1 ++ toLe 4 r.1, r.2)) ([], s)

/-- The body of REG_READ and of the reads of one register. -/
def State.readCommand (s : State) (sid addr count coincident : Nat) : Nat × List Byte × State :=
  if count = 0 ∨ 360 < count then ans stMalformed s
  else
    let as := wordsFrom addr count
    let st := s.accessAll sid as false
    if st ≠ stOk then ans st s
    else
      let r := s.readWords sid as coincident
      (stOk, r.1, r.2)

/-- REG_READ (R421). -/
def execRegRead (h : CmdHdr) (addr count : Nat) (s : State) : Host.Outcome State Fault Refusal :=
  .next (s.command h 0x0100 fun s => s.readCommand h.session addr count 0)

/-- RC_READ (R70): a REG_READ of one counter; `coincident` is what it counts in the cycle of the read. -/
def execRcRead (h : CmdHdr) (addr coincident : Nat) (s : State) : Host.Outcome State Fault Refusal :=
  .next (s.command h 0x0100 fun s => s.readCommand h.session addr 1 coincident)

/-- LATCH_READ (R24): a REG_READ of one low word. -/
def execLatchRead (h : CmdHdr) (addr : Nat) (s : State) : Host.Outcome State Fault Refusal :=
  .next (s.command h 0x0100 fun s => s.readCommand h.session addr 1 0)

/-! Memory access (R423) -/

/-- MEM_READ (R423). -/
def execMemRead (h : CmdHdr) (pma bytes part : Nat) (s : State) : Host.Outcome State Fault Refusal :=
  .next (s.command h 0x0110 fun s =>
    let p := partFor h.session part
    if bytes = 0 ∨ 1440 < bytes ∨ 16 ≤ p then ans stMalformed s
    else
      let r := s.fetchP none p pma bytes []
      (r.1, r.2.1, r.2.2))

/-- MEM_WRITE (R423). -/
def execMemWrite (h : CmdHdr) (pma : Nat) (data : List Byte) (part : Nat) (s : State) : Host.Outcome State Fault Refusal :=
  .next (s.command h 0x0111 fun s =>
    let p := partFor h.session part
    if data.isEmpty || decide (1424 < data.length) || decide (16 ≤ p) then ans stMalformed s
    else
      let r := s.storeP none p pma data []
      ans r.1 r.2)

end Sys2Proof.Machine
end

