-- ==== Sys2Proof/Machine/Splice.lean ====
section
/-! DEFINITION. Writing a register (R10, R21, R29, R421, R422): single-register splice groups, shadows and commits of the
multi-register groups with their rules (R424, R425), and audit snapshots (R27, R28). -/

namespace Sys2Proof.Machine

/-! The rules of the multi-register groups. A candidate is a function from a register's home address to its value. -/

/-- A 64-bit address of a candidate. -/
def candWide (c : Nat → Nat) (lo hi : Nat) : Nat := c lo + 2 ^ 32 * c hi

/-- Two areas, as PMA and length, share no byte. -/
def apart (x y : Nat × Nat) : Bool := x.2 == 0 || y.2 == 0 || decide (x.1 + x.2 ≤ y.1 ∨ y.1 + y.2 ≤ x.1)

/-- No two areas of a list share a byte. -/
def allApart : List (Nat × Nat) → Bool
  | [] => true
  | x :: xs => (xs.all fun y => apart x y) && allApart xs

/-- Every area of a list lies in a partition's memory. -/
def State.areasIn (s : State) (p : Nat) (l : List (Nat × Nat)) : Bool := l.all fun x => s.pmaOk p x.1 x.2

/-- KIND 1, the step program of a hank (R143). -/
def State.progOk (s : State) (g : Nat) (c : Nat → Nat) : Bool :=
  let a := candWide c (Reg.hnkProgLo g) (Reg.hnkProgHi g)
  match s.partOf g with
  | none => false
  | some p => a % 128 == 0 && s.pmaOk p a 128

/-- The three candidate tables of an instance. -/
def candTables (f : Nat) (c : Nat → Nat) : List (List Nat) :=
  (upTo 3).map fun t => (upTo 256).map fun e => c (Reg.fldSlot f t (e / 4)) / 2 ^ (8 * (e % 4)) % 256

/-- KIND 3, the serving shape (R290). -/
def State.shapeOk (s : State) (p : Nat) (c : Nat → Nat) : Bool :=
  let x := s.part p
  let shape := c (Reg.srvPartShape p)
  let cps := shape % 8192
  let bmax := bits shape 28 16
  let chunk := c (Reg.srvPartChunk p)
  let batch := candWide c (Reg.srvPartBatchLo p) (Reg.srvPartBatchHi p)
  let stage := candWide c (Reg.srvPartStageLo p) (Reg.srvPartStageHi p)
  let frames := c (Reg.srvPartStageFrames p)
  let reel := candWide c (Reg.srvPartReelLo p) (Reg.srvPartReelHi p)
  let z := c (Reg.srvPartReelShift p)
  let areas := [(batch, 2 * (64 + 576 * bmax)), (stage, 65536 * frames), (reel, x.seqSize * 32 * 2 ^ z)]
  let same (a : Nat) : Bool := c a == s.reg a
  decide (1 ≤ cps ∧ cps ≤ 4096 ∧ 1 ≤ bmax ∧ bmax ≤ 4096 ∧ 1 ≤ chunk ∧ chunk ≤ 1048576 ∧ 6 ≤ z ∧ z ≤ 12) &&
    batch % 64 == 0 && stage % 65536 == 0 && reel % 64 == 0 && s.areasIn p areas && allApart areas &&
    decide (x.seqSize * cps ≤ x.chainSize ∧ cps ≤ frames) &&
    ((s.seqsOf p).isEmpty ||
      (cps == s.cps p && same (Reg.srvPartReelLo p) && same (Reg.srvPartReelHi p) && same (Reg.srvPartReelShift p)))

/-- KIND 4, expert routing (R309). The spec gives the shard area no size: its first line stands for it (log entry 43). -/
def State.routingOk (s : State) (p : Nat) (c : Nat → Nat) : Bool :=
  let table := candWide c (Reg.dspPartTableLo p) (Reg.dspPartTableHi p)
  let size := c (Reg.dspPartTableSize p)
  let rx := candWide c (Reg.dspPartRxLo p) (Reg.dspPartRxHi p)
  let shape := c (Reg.dspPartRxShape p)
  let slots := c (Reg.dspPartRxSlots p)
  let shard := candWide c (Reg.dspPartShardLo p) (Reg.dspPartShardHi p)
  let cap := shape % 65536
  let areas := [(table, 64 * size), (rx, slots * cap * (16 * (shape / 65536) + 8) + 4 * slots), (shard, if shard = 0 then 0 else 64)]
  table % 64 == 0 && rx % 64 == 0 && shard % 64 == 0 && decide (size ≤ 65536 ∧ slots ≤ 4096) && s.areasIn p areas &&
    allApart areas

/-- KIND 5, collective groups (R407). -/
def State.groupsOk (s : State) (p : Nat) (c : Nat → Nat) : Bool :=
  let a := candWide c (Reg.dspPartColGroupsLo p) (Reg.dspPartColGroupsHi p)
  let n := c (Reg.dspPartColGroupCount p)
  a % 64 == 0 && decide (n ≤ 64) && s.pmaOk p a (64 * n)

/-- KIND 6, the video pool (R334). -/
def State.poolOk (s : State) (p : Nat) (c : Nat → Nat) : Bool :=
  let pool := candWide c (Reg.vidPartPoolLo p) (Reg.vidPartPoolHi p)
  let bytes := c (Reg.vidPartBufBytes p)
  let bufs := c (Reg.vidPartBufs p)
  let ctx := c (Reg.vidPartCtx p)
  let nb := (bits bufs 10 0, bits bufs 27 16)
  let nc := (bits ctx 8 0, bits ctx 25 16)
  let own := s.bufRange p
  decide (nb.1 + nb.2 ≤ 2048 ∧ nc.1 + nc.2 ≤ 512) &&
    ((upTo 16).all fun q => q == p || (apart nb (s.bufRange q) && apart nc (s.ctxRange q))) &&
    pool % 65536 == 0 && s.pmaOk p pool (bytes * nb.2) && bytes % 65536 == 0 &&
    ((upTo own.2).all fun k => (s.buffer (own.1 + k)).isFree) && (s.video.ctxs.all fun e => e.2.part != p)

/-- The links that a candidate ECN_GW gives each group. -/
def candLinks (c : Nat → Nat) (g : Nat) : List (Nat × Nat) := gwEntries (c (Reg.ecnGw g))

/-- No pair of a list stands in it twice. -/
def noRepeat : List (Nat × Nat) → Bool
  | [] => true
  | x :: xs => !(xs.contains x) && noRepeat xs

/-- KIND 7, the global wiring (R369, R384): three links of a pair end on different members, on ports 15 to 17; none to the own
group, and no global port twice. -/
def State.wiringGroupOk (s : State) (c : Nat → Nat) : Bool :=
  let l := (upTo 16).flatMap fun g => candLinks c g
  (l.all fun x => decide (x.2 ≤ 17)) && noRepeat l &&
    ((upTo 16).all fun g => noRepeat ((candLinks c g).map fun x => (x.1, 0))) && (candLinks c (s.self / 16)).isEmpty

/-- KIND 8, credit allocation (R384). -/
def creditsOk (c : Nat → Nat) : Bool :=
  (upTo 18).all fun p =>
    let alloc (k : Nat) : Nat := c (Reg.ecnCrAlloc p (k / 2) (k % 2))
    ((upTo 12).all fun k => decide ((if k / 2 = 1 ∨ k / 2 = 5 then 18 else 130) ≤ alloc k)) &&
      decide (total ((upTo 12).map alloc) ≤ 3072)

/-- The entries of a candidate gate list: gates and interval in 8 ns. -/
def gateListOf (n : Nat) (c : Nat → Nat) : List (Nat × Nat) :=
  (upTo (bits (c (Reg.hstGclCtrl n)) 14 8)).map fun i => (c (Reg.hstGcl n i) % 256, c (Reg.hstGcl n i) / 256)

/-- KIND 9, a gate control list (R417, R418): DEDUCED, some entry must have the gates of PCP 6 and PCP 7 both open (log
entry 43). -/
def gateListOk (n : Nat) (c : Nat → Nat) : Bool :=
  let l := gateListOf n c
  let cycle := c (Reg.hstGclCycle n)
  decide (1 ≤ l.length ∧ l.length ≤ 64 ∧ 1000 ≤ cycle ∧ cycle ≤ 100000000) && total (l.map fun e => 8 * e.2) == cycle &&
    (l.all fun e => decide (64 ≤ 8 * e.2)) && l.any fun e => bit e.1 6 && bit e.1 7

/-- KIND 11, determinism mode (R462). -/
def State.detOk (s : State) (c : Nat → Nat) : Bool :=
  let j := c Reg.gblDetJournal
  (bit (c Reg.gblDetCtrl) 0 || j == 0) &&
    (upTo 16).all fun p => !(bit j p) ||
      (let a := candWide c (Reg.gblDetPartJrnlLo p) (Reg.gblDetPartJrnlHi p)
       let n := c (Reg.gblDetPartJrnlSize p)
       s.exists_ p && a % 4096 == 0 && decide (1 ≤ n ∧ n ≤ 16384) && s.pmaOk p a (4096 * n))

/-- The rule of a group instance. -/
def State.groupOk (s : State) (kind inst : Nat) (c : Nat → Nat) : Bool :=
  match kind with
  | 1 => s.progOk inst c
  | 2 => s.tablesOk inst (c (Reg.fldStarveThresh inst)) (candTables inst c)
  | 3 => s.shapeOk inst c
  | 4 => s.routingOk inst c
  | 5 => s.groupsOk inst c
  | 6 => s.poolOk inst c
  | 7 => s.wiringGroupOk c
  | 8 => creditsOk c
  | 9 => gateListOk inst c
  | 10 => true
  | _ => s.detOk c

/-- The first start of a gate cycle at or after the base time and the present instant (R418). -/
def firstCycle (base cycle now : Nat) : Nat := if now ≤ base then base else base + (now - base + cycle - 1) / cycle * cycle

/-- An installed ECN_GW: an UP global port whose peer no longer matches retrains (R384). -/
def State.newWiring (s : State) : State :=
  let s := { s with start := { s.start with gwCommitted := true } }
  foldS (fun s p =>
    match (s.port p).peer with
    | some (m, q) => if s.isUp p && !(s.wiringOk p m q) then s.retrain p else s
    | none => s) s [15, 16, 17]

/-- What an installed candidate does besides its registers: the groups that their owners take at a step start, a build or a
HELLO need nothing more. -/
def State.installed (s : State) (kind inst : Nat) (c : Nat → Nat) : State :=
  match kind with
  | 2 => foldS (fun s t => s.putTable inst t ((candTables inst c).getD t [])) s (upTo 3)
  | 7 => s.newWiring
  | 9 =>
    let base := candWide c (Reg.hstGclBaseLo inst) (Reg.hstGclBaseHi inst)
    let cycle := c (Reg.hstGclCycle inst)
    s.modHostPort inst fun x =>
      { x with gateWait := some (bit (c (Reg.hstGclCtrl inst)) 0, gateListOf inst c, cycle, firstCycle base cycle s.now) }
  | 10 => { s with meters := [] }
  | _ => s

/-- Record the status of a session's commit (R433) and discard its shadow of an instance, if it names one (R424). -/
def State.commitEnds (s : State) (sid kind inst st : Nat) (discard : Bool) : State :=
  s.modSession sid fun x => { x with
    splResult := st + 65536 * kind + 2 ^ 24 * inst
    shadow := if discard then mkeep x.shadow fun a _ => groupOf a != some (kind, inst) else x.shadow }

/-- A write of SPL_COMMIT (R424, R425): the status and the state after it. -/
def State.commit (s : State) (sid v : Nat) : Nat × State :=
  let kind := v % 256
  let inst := v / 256 % 256
  match groupTable.find? fun g => g.kind == kind && decide (inst < g.count) with
  | none => (stMalformed, s.commitEnds sid kind inst stMalformed false)
  | some g =>
    let own := isCommander sid || (g.part &&
      (if kind = 1 then (s.part (sidPart sid)).hanks.contains inst else inst == sidPart sid))
    if !own then (stAddrInvalid, s.commitEnds sid kind inst stAddrInvalid true)
    else
      let shadow := match s.session sid with
        | some x => mkeep x.shadow fun a _ => groupOf a == some (kind, inst)
        | none => []
      let c (a : Nat) : Nat := (mget shadow a).getD (s.reg a)
      if !(s.groupOk kind inst c) then (stSpliceConflict, s.commitEnds sid kind inst stSpliceConflict true)
      else
        let s := foldS (fun s (e : Nat × Nat) => s.setReg e.1 e.2) s shadow
        (stOk, (s.installed kind inst c).commitEnds sid kind inst stOk true)

/-! Audit snapshots (R27, R28) -/

/-- Every address of a row, by its indices. -/
def addrsOf (base : Nat) : List (Nat × Nat) → List Nat
  | [] => [base]
  | (stride, count) :: ds => (upTo count).flatMap fun i => addrsOf (base + stride * i) ds

/-- The counters that a snapshot freezes, as row bases: those of KVP, SRV and ECN that only show or count. -/
def frozenRows (lo hi : Nat) : List RegRow :=
  RegRow.all.filter fun r => decide (lo + 0x10 ≤ r.base ∧ r.base < hi) && (r.access == .ro || r.access == .rc)

/-- The counters that a snapshot register freezes: those of a KVP instance, of SRV, of ECN, or of a partition's block. -/
def snapAddrs (b d p : Nat) : List Nat :=
  let all := if b < 0xC0000 then frozenRows 0xB0000 0xC0000
    else if b < 0xD0000 then frozenRows 0xC0000 0xD0000
    else (frozenRows 0xE0000 0xF0000).filter fun r => r.base != 0xE1000 && r.base != 0xE1004 && r.base != 0xE8000
  let l := all.flatMap fun r => addrsOf r.base r.dims
  if b = 0xB0020 then l.filter fun a => a / 0x4000 % 4 == d
  else if b = 0xB103C ∨ b = 0xC103C then l.filter fun a => match regAt a with
    | some (_, ix) => decide (0x1000 ≤ a % 0x4000) && ix.getD 1 16 == p
    | none => false
  else l

/-- The check of a snapshot's equations (R28, R256, R288, R382). -/
def State.auditSnap (s : State) (b d p : Nat) : State :=
  match b with
  | 0xB0020 => ((s.auditBight [d]).auditRegions s.livePartitions).auditPages s.livePartitions
  | 0xB103C => (s.auditRegions [p]).auditPages [p]
  | 0xC0020 => (((s.auditAccounts fun _ => true).auditReserved s.livePartitions).auditReels fun _ => true).auditTotals
  | 0xC103C => ((s.auditAccounts fun a => a.part == p).auditReserved [p]).auditReels fun q => q == some p
  | _ => s.auditCredits

/-- A write of a SNAP register (R27, R257): HOLD 1 freezes the counters as they stand, unless they are held already; HOLD 0
ends it. -/
def State.snapWrite (s : State) (addr : Nat) (r : RegRow) (ix : List Nat) (v : Nat) : State :=
  let b := r.base
  let d := ix.headD 0
  let p := ix.getD 1 0
  let home := homeAddr r ix addr
  let byPart := b == 0xB103C || b == 0xC103C
  let viewer := if byPart then p else 16
  let key (a : Nat) : Nat := if byPart then partSnap + a else a
  let as := snapAddrs b d p
  let mine (k : Nat) : Bool := k / 2 ^ 20 == viewer
  if v % 2 = 1 then
    if s.reg home % 2 = 1 then s
    else
      let copy := as.map fun a => (key a, match regAt a with
        | some (x, ix) => s.showRow 0 x ix a
        | none => 0)
      let accounts := s.serve.accounts.filter fun e => !byPart || e.2.part == p
      let reels := s.serve.reels.filter fun e => !byPart || s.seqPart e.1 == some p
      let s := { s with snaps := copy.foldl (fun (m : Map Nat) (e : Nat × Nat) => mput m e.1 e.2) s.snaps }
      let s := if b = 0xC0020 ∨ b = 0xC103C then
          { s with serve := { s.serve with
              heldAccounts := accounts.foldl (fun (m : Map Account) (e : Nat × Account) => mput m (2 ^ 20 * viewer + e.1) e.2) s.serve.heldAccounts
              heldReels := reels.foldl (fun (m : Map Reel) (e : Nat × Reel) => mput m (2 ^ 20 * viewer + e.1) e.2) s.serve.heldReels } }
        else s
      (s.setReg home 1).auditSnap b d p
  else
    let s := { s with snaps := as.foldl (fun m a => mdel m (key a)) s.snaps }
    let s := if b = 0xC0020 ∨ b = 0xC103C then
        { s with serve := { s.serve with
            heldAccounts := mcut s.serve.heldAccounts mine
            heldReels := mcut s.serve.heldReels mine } }
      else s
    s.setReg home 0

/-! One word -/

/-- A register that takes only a range of values: the value, or SPLICE_CONFLICT. -/
def State.ranged (s : State) (addr v : Nat) (ok : Bool) : Nat × State :=
  if ok then (stOk, s.setReg addr v) else (stSpliceConflict, s)

/-- A write to an RW or WO register outside the multi-register groups: its masked value, row base and indices (R29). -/
def State.writeSingle (s : State) (addr v : Nat) (r : RegRow) (ix : List Nat) : Nat × State :=
  let i := ix.headD 0
  let j := ix.getD 1 0
  let ok (s : State) : Nat × State := (stOk, s)
  match r.base with
  | 0x28 => s.startCtrlWrite v
  | 0x1010 => ok (s.jrnlRdWrite i v)
  | 0x1018 => ok (s.replayWrite i v)
  | 0x10208 => s.ranged addr v (v == 0 || decide (0xFB ≤ v))
  | 0x30004 => ok (s.aonWrite v)
  | 0x30100 => s.domCtrlWrite i v
  | 0x4000C => s.keepWarmWrite v
  | 0x40010 => s.ranged addr v (decide (10 ≤ v ∧ v ≤ 60000))
  | 0x40014 => s.remarginWrite v s.monitors
  | 0x50004 => ok (s.secCtrlWrite v)
  | 0x70020 => s.ranged addr v (decide (1 ≤ v ∧ v ≤ 10080))
  | 0x8000C => s.ranged addr v (decide (50 ≤ v ∧ v ≤ 2000))
  | 0x80010 => s.ranged addr v (decide (100 ≤ v ∧ v ≤ 4000))
  | 0x80028 => ok (s.lnyCtrlWrite v)
  | 0x90004 => ok (s.fldCtrlWrite i v)
  | 0x120004 => ok (s.fldCtrlWrite 4 v)
  | 0x9000C => ok (s.fldBgWrite i v)
  | 0x12000C => ok (s.fldBgWrite 4 v)
  | 0xA3004 => ok (s.errPop i v)
  | 0x127004 => ok (s.errPop 4 v)
  | 0xB1000 => s.regionWrite i j v
  | 0xB0020 => ok (s.snapWrite addr r ix v)
  | 0xB103C => ok (s.snapWrite addr r ix v)
  | 0xC0020 => ok (s.snapWrite addr r ix v)
  | 0xC103C => ok (s.snapWrite addr r ix v)
  | 0xE001C => ok (s.snapWrite addr r ix v)
  | 0xE0004 => ok { s with regs := mput s.regs addr v }
  | 0xE0008 => ok (s.ecnCtrlWrite v)
  | 0xE000C => s.braidWrite v
  | 0xF0010 => s.coreOwnerWrite i v
  | 0x110180 => ok (s.qsetWrite (32 * i + j) v)
  | 0x111000 => s.chkPartWrite j v
  | 0x1008000 => ok (match s.partOf i with | some p => s.hnkCtrlWrite p v | none => s)
  | _ => ok (s.setReg (homeAddr r ix addr) v)

/-- A W1C register: the bits written 1 clear, but for those that a flag event of the same cycle sets (R70). -/
def State.writeOnes (s : State) (addr v coincident : Nat) (r : RegRow) (ix : List Nat) : State :=
  if r.base = 0x110100 then s.qmaskWrite (32 * ix.headD 0 + ix.getD 1 0) v
  else s.clearFlags addr v (coincident &&& r.mask)

/-- The bits of a register that a write reaches (R10): word 0 of HST_QCI_FILTER has fields in [22:0] alone (R432). -/
def writeMask (r : RegRow) (ix : List Nat) : Nat := if r.base = 0x11000 ∧ ix.getD 1 0 = 0 then 0x7FFFFF else r.mask

/-- One word is written: reserved and read-only registers keep their value (R10, R11, R21); a register of a multi-register
group lands in the session's shadow (R424); every other write is its own commit (R29, R425). -/
def State.writeWord (s : State) (sid addr v coincident : Nat) : Nat × State :=
  match regAt addr with
  | none => (stOk, s)
  | some (r, ix) =>
    let m := v &&& writeMask r ix
    match r.access with
    | .ro => (stOk, s)
    | .rc => (stOk, s)
    | .w1c => (stOk, s.writeOnes addr m coincident r ix)
    | .wo => if r.base = 0x20000 then s.commit sid v else s.writeSingle addr m r ix
    | .rw =>
      if (groupAt r ix).isSome then
        (stOk, s.modSession sid fun x => { x with shadow := mput x.shadow (homeAddr r ix addr) m })
      else s.writeSingle addr m r ix

/-- The body of REG_WRITE and of the writes of one register: the first status that is not OK (R421, R425). -/
def State.writeCommand (s : State) (sid addr : Nat) (words : List Nat) (coincident : Nat) : Nat × List Byte × State :=
  let n := words.length
  if n = 0 ∨ 358 < n then ans stMalformed s
  else
    let as := wordsFrom addr n
    let st := s.accessAll sid as true
    if st ≠ stOk then ans st s
    else
      let s := foldS (fun s a => s.reachReg a) s as
      let r := (as.zip words).foldl (fun (x : Nat × State) e =>
        let y := x.2.writeWord sid e.1 e.2 coincident
        (if x.1 = stOk then y.1 else x.1, y.2)) (stOk, s)
      ans r.1 r.2

/-- REG_WRITE (R421). -/
def execRegWrite (h : CmdHdr) (addr : Nat) (words : List Word) (s : State) : Host.Outcome State Fault Refusal :=
  .next (s.command h 0x0101 fun s => s.writeCommand h.session addr (words.map fun w => w.toNat) 0)

/-- REGISTER_WRITE (R29): a REG_WRITE of one word. -/
def execRegisterWrite (h : CmdHdr) (addr : Nat) (value : Word) (s : State) : Host.Outcome State Fault Refusal :=
  .next (s.command h 0x0101 fun s => s.writeCommand h.session addr [value.toNat] 0)

/-- W1C_CLEAR (R70): a REG_WRITE of one word; `coincident` is the flags that events of the same cycle set. -/
def execW1cClear (h : CmdHdr) (addr : Nat) (value coincident : Word) (s : State) : Host.Outcome State Fault Refusal :=
  .next (s.command h 0x0101 fun s => s.writeCommand h.session addr [value.toNat] coincident.toNat)

/-- AUDIT_SNAPSHOT (R27): a REG_WRITE of a SNAP register. -/
def execAuditSnapshot (h : CmdHdr) (addr : Nat) (value : Word) (s : State) : Host.Outcome State Fault Refusal :=
  .next (s.command h 0x0101 fun s => s.writeCommand h.session addr [value.toNat] 0)

/-- SPL_COMMIT (R424, R425): a REG_WRITE of SPL_COMMIT. -/
def execSplCommit (h : CmdHdr) (value : Word) (s : State) : Host.Outcome State Fault Refusal :=
  .next (s.command h 0x0101 fun s => s.writeCommand h.session Reg.splCommit [value.toNat] 0)

/-- The bits of a register that lie in RW fields (R422): W1S, W1C and read-only bits do not. -/
def rwMask (r : RegRow) (ix : List Nat) : Nat :=
  if r.access != .rw then 0
  else if r.base = 0x1008000 then 0x3
  else if r.base = 0x30100 then 0x13
  else if r.base = 0x40014 then 0xFF
  else writeMask r ix

/-- REG_MODIFY (R422): it answers the register's old value. -/
def execRegModify (h : CmdHdr) (addr : Nat) (mask value : Word) (s : State) : Host.Outcome State Fault Refusal :=
  .next (s.command h 0x0102 fun s =>
      let st := s.access h.session addr true
      let m := mask.toNat
      if st ≠ stOk then ans st s
      else if m &&& (match regAt addr with | some (r, ix) => rwMask r ix | none => 0) ≠ m then ans stMalformed s
      else
        let s := s.reachReg addr
        let old := s.seenReg h.session addr
        let r := s.writeWord h.session addr ((old &&& (0xFFFFFFFF - m)) ||| (value.toNat &&& m)) 0
        (r.1, (if r.1 = stOk then toLe 4 old else []), r.2))

end Sys2Proof.Machine
end

