-- ==== Sys2Proof/Machine/Update.lean ====
section
/-! DEFINITION. Aelpo loader and firmware coils (chapter 20): loading a coil, the scheduled data-path switch, the start of a
management image, confirmation and fall-back. -/

namespace Sys2Proof.Machine

/-! The coil header (R513) -/

/-- BLOCKS of a header. -/
def coilBlocks (h : List Byte) : Nat := leAt h 0x1E 2
/-- HEADER_BYTES for a number of blocks. -/
def headerBytesFor (blocks : Nat) : Nat := 256 + 32 * blocks
/-- A component entry of a header is as R513 states. -/
def componentOk (h : List Byte) (i : Nat) : Bool :=
  let o := 0x20 + 16 * i
  let id := leAt h o 1
  let first := leAt h (o + 4) 4
  let n := leAt h (o + 8) 4
  decide (id ≤ 3) && leAt h (o + 1) 3 == 0 && leAt h (o + 12) 4 == 0 &&
    (id == 0 || decide (first + (n + 65535) / 65536 ≤ coilBlocks h)) &&
    (id == 0 || (upTo i).all fun j => leAt h (0x20 + 16 * j) 1 != id)

/-- The FORM check of a header's first 256 bytes (R516). -/
def coilForm (h : List Byte) : Bool :=
  leAt h 0 4 == 0x434B5856 && leAt h 4 2 == 1 && leAt h 6 2 == headerBytesFor (coilBlocks h) &&
    decide (1 ≤ coilBlocks h ∧ coilBlocks h ≤ 512) && (upTo 4).all fun i => componentOk h i

/-- The first header check that fails (R516), none when all pass. -/
def State.coilRefusal (s : State) (h : List Byte) : Option Nat :=
  let u := s.update
  let running := (u.slot u.mgmt).format
  let format := leAt h 0x1C 2
  let target := (u.slot (1 - u.confirmed)).state
  if !(coilForm h) then some 1
  else if leAt h 8 2 ≠ deviceId / 65536 ∨ leAt h 0xA 1 ≠ deviceId % 256 then some 2
  else if leAt h 0x10 8 ≠ fleetValue then some 3
  else if leAt h 0xC 4 < u.minSvn then some 4
  else if format ≠ running ∧ Config.convertible running format = false then some 5
  else if target = 3 ∨ target = 4 then some 6
  else none

/-- A COIL_REFUSED answer of an opcode, with its REASON (R516, R527). -/
def State.coilRefused (s : State) (code reason : Nat) : Nat × List Byte × State :=
  (stCoilRefused, toLe 2 reason, (s.inc Reg.updRefuseCount).setReg Reg.updLastRefuse (reason + 65536 * code))

/-- Change the loader. -/
def State.modUpdate (s : State) (f : Update → Update) : State := { s with update := f s.update }

/-! Loading (R515, R516) -/

/-- The body of COIL_BEGIN: its first fragment is checked before the target slot is erased; later ones go on with the header. -/
def State.coilBegin (s : State) (offset : Nat) (data : List Byte) : Nat × List Byte × State :=
  let u := s.update
  let k := 1 - u.confirmed
  if data.isEmpty || decide (1424 < data.length) then ans stMalformed s
  else if offset = 0 then
    if data.length < 256 then ans stMalformed s
    else
      match s.coilRefusal data with
      | some r => s.coilRefused 0x0400 r
      | none =>
        if headerBytesFor (coilBlocks data) < data.length then ans stMalformed s
        else
          ans stOk (s.modUpdate fun u =>
            { u.setSlot k { CoilSlot.empty with state := 1, header := data } with loading := some k })
  else
    let x := u.slot k
    if u.loading ≠ some k ∨ offset ≠ x.header.length ∨ headerBytesFor (coilBlocks x.header) < offset + data.length then
      ans stMalformed s
    else ans stOk (s.modUpdate fun u => u.setSlot k { x with header := x.header ++ data })

/-- COIL_BEGIN (R515, R516). -/
def execCoilBegin (h : CmdHdr) (offset : Nat) (data : List Byte) (s : State) : Host.Outcome State Fault Refusal :=
  .next (s.command h 0x0400 fun s => s.coilBegin offset data)

/-- The signature of a complete coil and its content key are good (R514, R516): a factory unit also takes a factory test coil,
signed under a key of its own (R489). -/
def coilSigned (x : CoilSlot) (signature : List Byte) : Bool :=
  let digest := shake256 64 (x.header ++ x.blocks.flatten)
  (Config.verifies (Config.signingKey 0) digest signature ||
      !(bit Config.fuses 1) && Config.verifies (Config.signingKey 2) digest signature) &&
    (contentKey (slice x.header 0x64 40)).isSome

/-- The body of COIL_BLOCK: a fragment of the next block, or the signature. -/
def State.coilBlock (s : State) (offset block : Nat) (data : List Byte) : Nat × List Byte × State :=
  match s.update.loading with
  | none => ans stMalformed s
  | some k =>
    let x := s.update.slot k
    let n := coilBlocks x.header
    if data.isEmpty || decide (1424 < data.length) || x.header.length != headerBytesFor n || block != x.blocks.length ||
        offset != x.part.length then ans stMalformed s
    else if block = n then
      if data.length ≠ 1280 then ans stMalformed s
      else if coilSigned x data then
        ans stOk (s.modUpdate fun u => { u.setSlot k { x with state := 2, signature := data } with loading := none })
      else (s.modUpdate fun u => { u.setSlot k CoilSlot.empty with loading := none }).coilRefused 0x0401 8
    else
      let part := x.part ++ data
      if 65536 < part.length then ans stMalformed s
      else if part.length < 65536 then ans stOk (s.modUpdate fun u => u.setSlot k { x with part := part })
      else if slice (shake256 32 part) 0 32 = slice x.header (256 + 32 * block) 32 then
        ans stOk (s.modUpdate fun u => u.setSlot k { x with part := [], blocks := x.blocks ++ [part] })
      else
        ((s.modUpdate fun u => u.setSlot k { x with part := [] }).inc Reg.updBlockFailCount).coilRefused 0x0401 7

/-- COIL_BLOCK (R515, R516). -/
def execCoilBlock (h : CmdHdr) (offset block : Nat) (data : List Byte) (s : State) : Host.Outcome State Fault Refusal :=
  .next (s.command h 0x0401 fun s => s.coilBlock offset block data)

/-! The scheduled data-path switch (R517 to R519) -/

/-- A slot's coil holds a data-path component. -/
def CoilSlot.hasData (x : CoilSlot) : Bool := x.parts.contains 1 || x.parts.contains 2

/-- A component runs from a slot. -/
def Update.runsFrom (u : Update) (k : Nat) : Bool := u.micro == k || u.ccf == k || u.mgmt == k

/-- The slot that COIL_SCHEDULE names, when it may be scheduled (R517): the VERIFIED one or the one of the schedule that is
replaced; with FALLBACK the CONFIRMED one while a data-path component is in trial. -/
def Update.schedulable (u : Update) (fallback : Bool) : Option Nat :=
  let c := u.confirmed
  let o := 1 - c
  if fallback then
    if (u.slot o).state = 4 ∧ (u.micro = o ∨ u.ccf = o) ∧ (u.slot c).hasData = true then some c else none
  else if ((u.slot o).state = 2 ∨ (u.schedT.isSome = true ∧ u.schedFallback = false)) ∧ (u.slot o).hasData = true then some o
  else none

/-- The end of a pending schedule that does not act: a slot that was only scheduled is VERIFIED again. -/
def Update.unschedule (u : Update) : Update :=
  let u := if u.schedT.isSome && !u.schedFallback && (u.slot u.schedSlot).state == 3 then u.setState u.schedSlot 2 else u
  { u with schedT := none, lead := 0, preloaded := false }

/-- The body of COIL_SCHEDULE. -/
def State.coilSchedule (s : State) (h : CmdHdr) (t : Nat) (fallback : Bool) : Nat × List Byte × State :=
  let u := s.update
  let late := match u.schedT with
    | some p => decide (p ≤ s.now + 100000000)
    | none => false
  if t ≠ 0 ∧ (t < s.now + 1000000000 ∨ s.now + 3600000000000 < t) then ans stMalformed s
  else if late then s.coilRefused 0x0402 6
  else if t = 0 then ans stOk (s.modUpdate Update.unschedule)
  else
    match u.schedulable fallback with
    | none => s.coilRefused 0x0402 9
    | some k =>
      if s.ptp.state ≠ 1 then s.coilRefused 0x0402 10
      else
        ans stOk (s.modUpdate fun u =>
          let u := u.unschedule
          let u := if !fallback && (u.slot k).state == 2 then u.setState k 3 else u
          { u with schedT := some t, schedSlot := k, schedFallback := fallback, schedSession := h.session, schedSeq := h.seq,
                   lead := leAt (u.slot k).header 0x60 4 })

/-- COIL_SCHEDULE (R517): it replies when it is accepted; COMMAND_DONE follows at the switch. -/
def execCoilSchedule (h : CmdHdr) (time : Nat) (fallback : Bool) (s : State) : Host.Outcome State Fault Refusal :=
  .next (s.command h 0x0402 fun s => s.coilSchedule h time fallback)

/-- COIL_PRELOAD (R518): the scheduled components are in shadow memory when that is done before T − 10 ms. -/
def execCoilPreload (t : Nat) (s : State) : Host.Outcome State Fault Refusal :=
  let s := s.tick t
  .next (match s.update.schedT with
    | some p => if s.now + 10000000 ≤ p then s.modUpdate fun u => { u with preloaded := true } else s
    | none => s)

/-- STEP_HOLD_LEAD (R519): from T − HOLD_LEAD_MS to the switch `startsHeld` keeps every step from starting. -/
def execStepHoldLead (t : Nat) (s : State) : Host.Outcome State Fault Refusal := .next (s.tick t)

/-- COIL_ACTIVATED of a switch or a management start (R526): component IDs and RELEASE. -/
def State.activated (s : State) (slot : Nat) (ids : List Nat) : State :=
  let bytes := slice (ids.map fun i => BitVec.ofNat 8 i) 0 4
  (s.eventC 20 stOk slot (bytes ++ toLe 4 (s.update.slot slot).release)).inc Reg.updActivateCount

/-- A slot enters TRIAL (R516, R522, R525): the window then in force and the settings areas kept begin with its first
component. -/
def State.openTrial (s : State) (k : Nat) : State :=
  s.modUpdate fun u =>
    if (u.slot k).state = 4 then u
    else
      { u.setState k 4 with
        trialAt := some s.now
        trialWindow := s.reg Reg.updConfirmWindow
        overdueSent := false
        dual := (u.slot k).format != (u.slot u.confirmed).format }

/-- The end of a fall-back activation (R524). -/
def State.fallBack (s : State) : State :=
  let o := 1 - s.update.confirmed
  let s := if s.update.runsFrom o then s
    else s.modUpdate fun u => { u.setState o 2 with dual := false, trialAt := none }
  (s.eventC 23 stOk o []).inc Reg.updFallbackCount

/-- The hanks of steps under way, which switch at the end of the step (R518). -/
def State.hanksUnderWay (s : State) : List Nat :=
  (upTo 16).filter fun g => match s.partOf g with
    | some p => s.stepUnderWay p
    | none => false

/-- The switch at T: the components of the slot's coil run from it, on idle hanks at once, and on a hank whose domain is not on
when it next wakes (R518). -/
def State.switchTo (s : State) (k : Nat) (ids : List Nat) : State :=
  let busy := s.hanksUnderWay
  let idle := (upTo 16).filter fun g => !(busy.contains g) && (!s.woken || (s.dom (hankDom g)).state == .on)
  let delay := (idle.map fun g => (Config.switchDelay g).val).foldl max 0
  let s := s.modUpdate fun u => { u with
    micro := if ids.contains 1 then k else u.micro
    ccf := if ids.contains 2 then k else u.ccf
    switching := busy }
  let s := foldS (fun s g => s.modHank g fun h => { h with microSlot := s.update.micro }) s idle
  ((s.setReg Reg.updSwitchDelayNs delay).setReg Reg.updLateHanks 0).activated k ids

/-- DATAPATH_SWITCH (R518): at T the scheduled components switch, unless the preload was late, the module is not LOCKED, its
offset exceeds 500 ns, or the schedule's slot no longer fits. -/
def execDatapathSwitch (t : Nat) (s : State) : Host.Outcome State Fault Refusal :=
  let s := s.tick t
  let u := s.update
  let k := u.schedSlot
  let offset := (s.hostPort s.ptp.port).offset
  .next (match u.schedT with
    | none => s
    | some due =>
      if s.now < due then s
      else
        let fits := u.schedFallback == (k == u.confirmed)
        if !u.preloaded || s.ptp.state != 1 || decide (offset < -500 ∨ 500 < offset) || !fits then
          ((s.modUpdate Update.unschedule).eventC 21 stCoilRefused k (toLe 4 12)).commandDone u.schedSession u.schedSeq
            stCoilRefused [12]
        else
          let ids := (u.slot k).parts.filter fun i => i == 1 || i == 2
          let s := s.modUpdate fun u => { u with schedT := none, lead := 0, preloaded := false }
          let s := s.switchTo k ids
          let s := if u.schedFallback then s.fallBack else s.openTrial k
          s.commandDone u.schedSession u.schedSeq stOk [])

/-! The management start (R520, R521) -/

/-- The slot that ACTIVATE names, when it may start (R520). -/
def Update.startable (u : Update) (fallback : Bool) : Option Nat :=
  let c := u.confirmed
  let o := 1 - c
  let k := if fallback then c else o
  let fits := if fallback then decide ((u.slot o).state = 4) else decide ((u.slot o).state = 2 ∨ (u.slot o).state = 3)
  if fits && (u.slot k).parts.contains 3 then some k else none

/-- ACTIVATE (R520): command service pauses; the reply follows when it resumes. -/
def execActivate (h : CmdHdr) (fallback : Bool) (s : State) : Host.Outcome State Fault Refusal :=
  .next (s.commandLater h 0x0403 fun s =>
    match s.update.startable fallback with
    | none =>
      let r := s.coilRefused 0x0403 9
      (some (r.1, r.2.1), r.2.2)
    | some k =>
      (none, s.modUpdate fun u => { u with paused := some s.now, pauseSlot := k, pauseFallback := fallback,
                                           pauseSession := h.session, pauseSeq := h.seq }))

/-- Service resumes after a pause that began at a (R520, R521): events held are sent, and held frames are taken in order of
arrival, each with its arrival time. -/
def State.resume (s : State) (a : Nat) (status : Nat) (data : List Byte) : State :=
  let u := s.update
  let s := s.raiseReg Reg.updPauseMaxUs (usUp (s.now - a))
  let s := s.modUpdate fun u => { u with paused := none, held := [] }
  let s := s.reply u.pauseSession u.pauseSeq status data
  let s := foldS (fun (s : State) (x : Nat × Session) =>
    let waiting := x.2.events.filter fun e => e.sentAt == 0
    let s := s.modSession x.1 fun y =>
      { y with events := y.events.map fun e => if e.sentAt = 0 then { e with sentAt := s.now } else e }
    foldS (fun s e => s.send (.event x.1 { e with sentAt := s.now })) s waiting) s s.sessions
  foldS (fun (s : State) (x : Nat × HFrame × Nat) => s.frame x.1 x.2.1 (some x.2.2)) s u.held

/-- MGMT_RESUME (R520, R526): within 200 ms of the start of the pause the new image resumes service. -/
def execMgmtResume (t : Nat) (s : State) : Host.Outcome State Fault Refusal :=
  let s := s.tick t
  .next (match s.update.paused with
    | none => s
    | some a =>
      if a + 200000000 < s.now then s
      else
        let k := s.update.pauseSlot
        let back := s.update.pauseFallback
        let s := (s.modUpdate fun u => { u with mgmt := k }).activated k [3]
        let s := if back then s.fallBack else s.openTrial k
        s.resume a stOk [])

/-- MGMT_START_TIMEOUT (R521): after 200 ms the other slot's management component restarts and ACTIVATE is refused; a slot
that ran nothing returns to VERIFIED, or to SCHEDULED while its schedule is pending. -/
def execMgmtStartTimeout (t : Nat) (s : State) : Host.Outcome State Fault Refusal :=
  let s := s.tick t
  .next (match s.update.paused with
    | none => s
    | some a =>
      if s.now < a + 200000000 then s
      else
        let s := s.modUpdate fun u =>
          let k := u.pauseSlot
          let u := { u with mgmt := 1 - k }
          if u.pauseFallback || u.runsFrom k then u
          else u.setState k (if u.schedT.isSome && !u.schedFallback then 3 else 2)
        let r := s.coilRefused 0x0403 11
        r.2.2.resume a r.1 r.2.1)

/-! Confirmation (R523, R525, R526) -/

/-- The body of CONFIRM (R523). -/
def State.confirm (s : State) : Nat × List Byte × State :=
  let u := s.update
  let c := u.confirmed
  let o := 1 - c
  let runs (id : Nat) : Bool := if id = 1 then u.micro == o else if id = 2 then u.ccf == o else u.mgmt == o
  if (u.slot o).state ≠ 4 ∨ ((u.slot o).parts.all runs) = false then s.coilRefused 0x0404 9
  else
    let svn := (u.slot o).svn
    let old := if svn ≤ (u.slot c).svn then { u.slot c with state := 2 } else CoilSlot.empty
    ans stOk (s.modUpdate fun u =>
      { (u.setState o 5).setSlot c old with minSvn := svn, dual := false, trialAt := none })

/-- CONFIRM (R523). -/
def execConfirm (h : CmdHdr) (s : State) : Host.Outcome State Fault Refusal :=
  .next (s.command h 0x0404 fun s => s.confirm)

/-- CONFIRM_OVERDUE (R525): once, when a trial has been open longer than the window in force at its start. -/
def execConfirmOverdue (t : Nat) (s : State) : Host.Outcome State Fault Refusal :=
  let s := s.tick t
  .next (match s.update.trialAt with
    | none => s
    | some a =>
      if s.update.overdueSent || decide (s.now ≤ a + 60000000000 * s.update.trialWindow) then s
      else (s.modUpdate fun u => { u with overdueSent := true }).eventC 22 stOk (1 - s.update.confirmed) [])

/-- The words of UPD_ID to UPD_LATE_HANKS, in register order (R526). -/
def State.updWords (s : State) : List Nat :=
  (upTo 17).map fun i =>
    let a := Reg.updId + 4 * i
    if a = Reg.updSchedHi then hi32 (s.update.schedT.getD 0) else s.seenReg 0 a

/-- COIL_STATUS (R526). -/
def execCoilStatus (h : CmdHdr) (s : State) : Host.Outcome State Fault Refusal :=
  .next (s.command h 0x0405 fun s => (stOk, s.updWords.flatMap (toLe 4), s))

end Sys2Proof.Machine
end

