-- ==== Sys2Proof/Machine/Dispatch.lean ====
section
/-! DEFINITION. The dispatch of the commands: one arm for each constructor of Instr, each one call of the meaning of its
row. -/

namespace Sys2Proof.Machine

/-- The effect of a command on everything but the queue. -/
def exec (i : Instr) (s : State) : Host.Outcome State Fault Refusal :=
  match i with
  | .hawserFrame port f t => Sys2Proof.Machine.execHawserFrame port f t s
  | .eventResend sid t => Sys2Proof.Machine.execEventResend sid t s
  | .echo h data => Sys2Proof.Machine.execEcho h data s
  | .sessionOpen h kind last offset data => Sys2Proof.Machine.execSessionOpen h kind last offset data s
  | .sessionClose h kind jobKey => Sys2Proof.Machine.execSessionClose h kind jobKey s
  | .eventAck h n => Sys2Proof.Machine.execEventAck h n s
  | .regRead h addr count => Sys2Proof.Machine.execRegRead h addr count s
  | .regWrite h addr words => Sys2Proof.Machine.execRegWrite h addr words s
  | .regModify h addr mask value => Sys2Proof.Machine.execRegModify h addr mask value s
  | .memRead h pma bytes part => Sys2Proof.Machine.execMemRead h pma bytes part s
  | .memWrite h pma data part => Sys2Proof.Machine.execMemWrite h pma data part s
  | .partCreate h params => Sys2Proof.Machine.execPartCreate h params s
  | .partActive p t => Sys2Proof.Machine.execPartActive p t s
  | .partDestroy h p => Sys2Proof.Machine.execPartDestroy h p s
  | .whipOverwriteEnd p t => Sys2Proof.Machine.execWhipOverwriteEnd p t s
  | .resetFunction h kind index => Sys2Proof.Machine.execResetFunction h kind index s
  | .resetHitchTimeout p t => Sys2Proof.Machine.execResetHitchTimeout p t s
  | .stepRun h part mode go => Sys2Proof.Machine.execStepRun h part mode go s
  | .attest h challenge cert offset => Sys2Proof.Machine.execAttest h challenge cert offset s
  | .heartbeat h sendTime => Sys2Proof.Machine.execHeartbeat h sendTime s
  | .leaseAcquire h leaseMs => Sys2Proof.Machine.execLeaseAcquire h leaseMs s
  | .leaseRelease h => Sys2Proof.Machine.execLeaseRelease h s
  | .roleAssign h a => Sys2Proof.Machine.execRoleAssign h a s
  | .seizeRelease h => Sys2Proof.Machine.execSeizeRelease h s
  | .coilBegin h offset data => Sys2Proof.Machine.execCoilBegin h offset data s
  | .coilBlock h offset block data => Sys2Proof.Machine.execCoilBlock h offset block data s
  | .coilSchedule h time fallback => Sys2Proof.Machine.execCoilSchedule h time fallback s
  | .activate h fallback => Sys2Proof.Machine.execActivate h fallback s
  | .confirm h => Sys2Proof.Machine.execConfirm h s
  | .coilStatus h => Sys2Proof.Machine.execCoilStatus h s
  | .serveSubmit h desc => Sys2Proof.Machine.execServeSubmit h desc s
  | .serveCancel h index => Sys2Proof.Machine.execServeCancel h index s
  | .servePause h index => Sys2Proof.Machine.execServePause h index s
  | .serveResume h index => Sys2Proof.Machine.execServeResume h index s
  | .reelRead h index first maximum => Sys2Proof.Machine.execReelRead h index first maximum s
  | .reelAck h index record => Sys2Proof.Machine.execReelAck h index record s
  | .budgetSet h b => Sys2Proof.Machine.execBudgetSet h b s
  | .budgetAdjust h account remove n => Sys2Proof.Machine.execBudgetAdjust h account remove n s
  | .budgetRead h account => Sys2Proof.Machine.execBudgetRead h account s
  | .prefixMake h index pages => Sys2Proof.Machine.execPrefixMake h index pages s
  | .prefixDrop h handle => Sys2Proof.Machine.execPrefixDrop h handle s
  | .kvShip h q => Sys2Proof.Machine.execKvShip h q s
  | .vidOpen h desc => Sys2Proof.Machine.execVidOpen h desc s
  | .vidClose h ctx => Sys2Proof.Machine.execVidClose h ctx s
  | .vidFeed h ctx indirect pma unit data => Sys2Proof.Machine.execVidFeed h ctx indirect pma unit data s
  | .vidAcquire h => Sys2Proof.Machine.execVidAcquire h s
  | .vidRelease h handle => Sys2Proof.Machine.execVidRelease h handle s
  | .vidEncode h ctx forceIdr handle pts => Sys2Proof.Machine.execVidEncode h ctx forceIdr handle pts s
  | .vidRead h ctx first maximum => Sys2Proof.Machine.execVidRead h ctx first maximum s
  | .vidAck h ctx record => Sys2Proof.Machine.execVidAck h ctx record s
  | .fsrRead h first maximum => Sys2Proof.Machine.execFsrRead h first maximum s
  | .fsrAck h n => Sys2Proof.Machine.execFsrAck h n s
  | .packLoad h slot last clear offset data => Sys2Proof.Machine.execPackLoad h slot last clear offset data s
  | .splCommit h value => Sys2Proof.Machine.execSplCommit h value s
  | .registerWrite h addr value => Sys2Proof.Machine.execRegisterWrite h addr value s
  | .rcRead h addr coincident => Sys2Proof.Machine.execRcRead h addr coincident s
  | .latchRead h addr => Sys2Proof.Machine.execLatchRead h addr s
  | .w1cClear h addr value coincident => Sys2Proof.Machine.execW1cClear h addr value coincident s
  | .auditSnapshot h addr value => Sys2Proof.Machine.execAuditSnapshot h addr value s
  | .memErrPop h inst value => Sys2Proof.Machine.execMemErrPop h inst value s
  | .go h hank => Sys2Proof.Machine.execGo h hank s
  | .clrAbandon h hank => Sys2Proof.Machine.execClrAbandon h hank s
  | .mode h hank m => Sys2Proof.Machine.execMode h hank m s
  | .targetOn h dom holdCleats => Sys2Proof.Machine.execTargetOn h dom holdCleats s
  | .targetRetention h dom => Sys2Proof.Machine.execTargetRetention h dom s
  | .targetOff h dom => Sys2Proof.Machine.execTargetOff h dom s
  | .cleatRel h dom => Sys2Proof.Machine.execCleatRel h dom s
  | .pwrAonCtrl h value => Sys2Proof.Machine.execPwrAonCtrl h value s
  | .kvpPartBightRegion h die p value => Sys2Proof.Machine.execKvpPartBightRegion h die p value s
  | .vidCoreOwner h core value => Sys2Proof.Machine.execVidCoreOwner h core value s
  | .ecnBraidCtrl h value => Sys2Proof.Machine.execEcnBraidCtrl h value s
  | .secCtrl h value => Sys2Proof.Machine.execSecCtrl h value s
  | .dirReady h => Sys2Proof.Machine.execDirReady h s
  | .chkPartCtrl h p value => Sys2Proof.Machine.execChkPartCtrl h p value s
  | .chkStrandQset h st value => Sys2Proof.Machine.execChkStrandQset h st value s
  | .chkStrandQmask h st value => Sys2Proof.Machine.execChkStrandQmask h st value s
  | .gblDetPartJrnlRd h p value => Sys2Proof.Machine.execGblDetPartJrnlRd h p value s
  | .gblDetPartReplay h p value => Sys2Proof.Machine.execGblDetPartReplay h p value s
  | .now h ms => Sys2Proof.Machine.execNow h ms s
  | .thmKeepWarm h value => Sys2Proof.Machine.execThmKeepWarm h value s
  | .gblStartCtrl h value => Sys2Proof.Machine.execGblStartCtrl h value s
  | .nop st => Sys2Proof.Machine.execNop st s
  | .matmul st u => Sys2Proof.Machine.execMatmul st u s
  | .accSave st u => Sys2Proof.Machine.execAccSave st u s
  | .accRestore st u => Sys2Proof.Machine.execAccRestore st u s
  | .vload st u => Sys2Proof.Machine.execVload st u s
  | .vstore st u => Sys2Proof.Machine.execVstore st u s
  | .convert st u => Sys2Proof.Machine.execConvert st u s
  | .move st u => Sys2Proof.Machine.execMove st u s
  | .vAdd st u => Sys2Proof.Machine.execVAdd st u s
  | .vSub st u => Sys2Proof.Machine.execVSub st u s
  | .vMul st u => Sys2Proof.Machine.execVMul st u s
  | .vFma st u => Sys2Proof.Machine.execVFma st u s
  | .vDiv st u => Sys2Proof.Machine.execVDiv st u s
  | .vSqrt st u => Sys2Proof.Machine.execVSqrt st u s
  | .vRcp st u => Sys2Proof.Machine.execVRcp st u s
  | .vRsqrt st u => Sys2Proof.Machine.execVRsqrt st u s
  | .vExp2 st u => Sys2Proof.Machine.execVExp2 st u s
  | .vLog2 st u => Sys2Proof.Machine.execVLog2 st u s
  | .vExp st u => Sys2Proof.Machine.execVExp st u s
  | .vLog st u => Sys2Proof.Machine.execVLog st u s
  | .vTanh st u => Sys2Proof.Machine.execVTanh st u s
  | .vSigmoid st u => Sys2Proof.Machine.execVSigmoid st u s
  | .vSilu st u => Sys2Proof.Machine.execVSilu st u s
  | .vErf st u => Sys2Proof.Machine.execVErf st u s
  | .vGelu st u => Sys2Proof.Machine.execVGelu st u s
  | .vSin st u => Sys2Proof.Machine.execVSin st u s
  | .vCos st u => Sys2Proof.Machine.execVCos st u s
  | .vMin st u => Sys2Proof.Machine.execVMin st u s
  | .vMax st u => Sys2Proof.Machine.execVMax st u s
  | .vCmpEq st u => Sys2Proof.Machine.execVCmpEq st u s
  | .vCmpLt st u => Sys2Proof.Machine.execVCmpLt st u s
  | .vCmpLe st u => Sys2Proof.Machine.execVCmpLe st u s
  | .vSelect st u => Sys2Proof.Machine.execVSelect st u s
  | .vIadd st u => Sys2Proof.Machine.execVIadd st u s
  | .vIsub st u => Sys2Proof.Machine.execVIsub st u s
  | .vImul st u => Sys2Proof.Machine.execVImul st u s
  | .vAnd st u => Sys2Proof.Machine.execVAnd st u s
  | .vOr st u => Sys2Proof.Machine.execVOr st u s
  | .vXor st u => Sys2Proof.Machine.execVXor st u s
  | .vShl st u => Sys2Proof.Machine.execVShl st u s
  | .vShr st u => Sys2Proof.Machine.execVShr st u s
  | .vSar st u => Sys2Proof.Machine.execVSar st u s
  | .vPermute st u => Sys2Proof.Machine.execVPermute st u s
  | .vSumLanes st u => Sys2Proof.Machine.execVSumLanes st u s
  | .vMaxLanes st u => Sys2Proof.Machine.execVMaxLanes st u s
  | .vMinLanes st u => Sys2Proof.Machine.execVMinLanes st u s
  | .vCvtF2i st u => Sys2Proof.Machine.execVCvtF2i st u s
  | .vCvtI2f st u => Sys2Proof.Machine.execVCvtI2f st u s
  | .forward st u => Sys2Proof.Machine.execForward st u s
  | .backward st u => Sys2Proof.Machine.execBackward st u s
  | .kvWalk g pos => Sys2Proof.Machine.execKvWalk g pos s
  | .append st u => Sys2Proof.Machine.execAppend st u s
  | .accept st => Sys2Proof.Machine.execAccept st s
  | .conv st u => Sys2Proof.Machine.execConv st u s
  | .pool st u => Sys2Proof.Machine.execPool st u s
  | .cropResize st u => Sys2Proof.Machine.execCropResize st u s
  | .send st u => Sys2Proof.Machine.execSend st u s
  | .ret x => Sys2Proof.Machine.execRet x s
  | .allReduce x => Sys2Proof.Machine.execAllReduce x s
  | .reduceScatter x => Sys2Proof.Machine.execReduceScatter x s
  | .allGather x => Sys2Proof.Machine.execAllGather x s
  | .allToAll x => Sys2Proof.Machine.execAllToAll x s
  | .scatterAdd st u => Sys2Proof.Machine.execScatterAdd st u s
  | .topk st u => Sys2Proof.Machine.execTopk st u s
  | .telltale st u => Sys2Proof.Machine.execTelltale st u s
  | .reelStage st u => Sys2Proof.Machine.execReelStage st u s
  | .link g pos => Sys2Proof.Machine.execLink g pos s
  | .stepEnd g pos => Sys2Proof.Machine.execStepEnd g pos s
  | .hitchFetch g what t => Sys2Proof.Machine.execHitchFetch g what t s
  | .hitchEmit g pos t => Sys2Proof.Machine.execHitchEmit g pos t s
  | .positionSwitch g x t => Sys2Proof.Machine.execPositionSwitch g x t s
  | .hitchComplete st slot t => Sys2Proof.Machine.execHitchComplete st slot t s
  | .knotTimeout st t => Sys2Proof.Machine.execKnotTimeout st t s
  | .stepStart p t => Sys2Proof.Machine.execStepStart p t s
  | .stepCommit x t => Sys2Proof.Machine.execStepCommit x t s
  | .stepReplay p t => Sys2Proof.Machine.execStepReplay p t s
  | .stepAbandon p t => Sys2Proof.Machine.execStepAbandon p t s
  | .stepBuild p t => Sys2Proof.Machine.execStepBuild p t s
  | .refillTick t => Sys2Proof.Machine.execRefillTick t s
  | .pageManager p t => Sys2Proof.Machine.execPageManager p t s
  | .pageMove p t => Sys2Proof.Machine.execPageMove p t s
  | .heldFlush p t => Sys2Proof.Machine.execHeldFlush p t s
  | .fairleadRequest at_ r cycle => Sys2Proof.Machine.execFairleadRequest at_ r cycle s
  | .fairleadGrant at_ requester cycle => Sys2Proof.Machine.execFairleadGrant at_ requester cycle s
  | .transferDone at_ requester more cycle => Sys2Proof.Machine.execTransferDone at_ requester more cycle s
  | .backoffEnd at_ requester cycle => Sys2Proof.Machine.execBackoffEnd at_ requester cycle s
  | .starvation at_ owner cycle => Sys2Proof.Machine.execStarvation at_ owner cycle s
  | .slotTableSwitch inst table cycle => Sys2Proof.Machine.execSlotTableSwitch inst table cycle s
  | .lineRead mpa e t => Sys2Proof.Machine.execLineRead mpa e t s
  | .lineWrite mpa data e1 e2 t => Sys2Proof.Machine.execLineWrite mpa data e1 e2 t s
  | .correctionWriteback mpa => Sys2Proof.Machine.execCorrectionWriteback mpa s
  | .blockRetire unit block t => Sys2Proof.Machine.execBlockRetire unit block t s
  | .patrolRead unit e t => Sys2Proof.Machine.execPatrolRead unit e t s
  | .scrubRead st bits => Sys2Proof.Machine.execScrubRead st bits s
  | .scratchWriteback st line => Sys2Proof.Machine.execScratchWriteback st line s
  | .packetTransmit port slot t => Sys2Proof.Machine.execPacketTransmit port slot t s
  | .data port p t => Sys2Proof.Machine.execData port p t s
  | .epochHold slot t => Sys2Proof.Machine.execEpochHold slot t s
  | .refuse port p t => Sys2Proof.Machine.execRefuse port p t s
  | .ackPacket port p t => Sys2Proof.Machine.execAckPacket port p t s
  | .bulkTimeout slot t => Sys2Proof.Machine.execBulkTimeout slot t s
  | .dispatchRow die t => Sys2Proof.Machine.execDispatchRow die t s
  | .rxExpired die t => Sys2Proof.Machine.execRxExpired die t s
  | .returnRow die t => Sys2Proof.Machine.execReturnRow die t s
  | .post die t => Sys2Proof.Machine.execPost die t s
  | .key die t => Sys2Proof.Machine.execKey die t s
  | .anchor die t => Sys2Proof.Machine.execAnchor die t s
  | .contrib die t => Sys2Proof.Machine.execContrib die t s
  | .result die t => Sys2Proof.Machine.execResult die t s
  | .done die t => Sys2Proof.Machine.execDone die t s
  | .ready die t => Sys2Proof.Machine.execReady die t s
  | .abort die t => Sys2Proof.Machine.execAbort die t s
  | .query die t => Sys2Proof.Machine.execQuery die t s
  | .messageExpired die t => Sys2Proof.Machine.execMessageExpired die t s
  | .collectiveTimeout st t => Sys2Proof.Machine.execCollectiveTimeout st t s
  | .voteQueryTimeout p t => Sys2Proof.Machine.execVoteQueryTimeout p t s
  | .kvShipPage die t => Sys2Proof.Machine.execKvShipPage die t s
  | .linkState src up t => Sys2Proof.Machine.execLinkState src up t s
  | .relayFrame f src t => Sys2Proof.Machine.execRelayFrame f src t s
  | .linkStateSend t => Sys2Proof.Machine.execLinkStateSend t s
  | .idle x => Sys2Proof.Machine.execIdle x s
  | .credit port vc lane x => Sys2Proof.Machine.execCredit port vc lane x s
  | .ack port count => Sys2Proof.Machine.execAck port count s
  | .replayReq port index => Sys2Proof.Machine.execReplayReq port index s
  | .sync port vc lane flits credits t => Sys2Proof.Machine.execSync port vc lane flits credits t s
  | .keepalive port time seized t => Sys2Proof.Machine.execKeepalive port time seized t s
  | .hello port b t => Sys2Proof.Machine.execHello port b t s
  | .ackSend port t => Sys2Proof.Machine.execAckSend port t s
  | .keepaliveSend port t => Sys2Proof.Machine.execKeepaliveSend port t s
  | .syncSend port t => Sys2Proof.Machine.execSyncSend port t s
  | .uncorrectableCodeword port t => Sys2Proof.Machine.execUncorrectableCodeword port t s
  | .errLimitExceeded port t => Sys2Proof.Machine.execErrLimitExceeded port t s
  | .codewordLoss port t => Sys2Proof.Machine.execCodewordLoss port t s
  | .portSignalDetect port t => Sys2Proof.Machine.execPortSignalDetect port t s
  | .trainingDone port t => Sys2Proof.Machine.execTrainingDone port t s
  | .lock port t => Sys2Proof.Machine.execLock port t s
  | .portStateTimeout port t => Sys2Proof.Machine.execPortStateTimeout port t s
  | .portRetry port t => Sys2Proof.Machine.execPortRetry port t s
  | .ptpSync port offset t => Sys2Proof.Machine.execPtpSync port offset t s
  | .ptpSourceSwitch t => Sys2Proof.Machine.execPtpSourceSwitch t s
  | .ptpHoldover t => Sys2Proof.Machine.execPtpHoldover t s
  | .gclActivate port t => Sys2Proof.Machine.execGclActivate port t s
  | .pictureStart core shape t => Sys2Proof.Machine.execPictureStart core shape t s
  | .pictureDone core r t => Sys2Proof.Machine.execPictureDone core r t s
  | .bufferWaitTimeout ctx referenced t => Sys2Proof.Machine.execBufferWaitTimeout ctx referenced t s
  | .watchdog core r t => Sys2Proof.Machine.execWatchdog core r t s
  | .packRotation die t => Sys2Proof.Machine.execPackRotation die t s
  | .packTestEnd die r t => Sys2Proof.Machine.execPackTestEnd die r t s
  | .scoreDecay st cell t => Sys2Proof.Machine.execScoreDecay st cell t s
  | .bandClassify g c t => Sys2Proof.Machine.execBandClassify g c t s
  | .sensorSample spot a b t => Sys2Proof.Machine.execSensorSample spot a b t s
  | .sensorSplit spot t => Sys2Proof.Machine.execSensorSplit spot t s
  | .sensorFail spot second t => Sys2Proof.Machine.execSensorFail spot second t s
  | .thermalShutdown t => Sys2Proof.Machine.execThermalShutdown t s
  | .coolantHot t => Sys2Proof.Machine.execCoolantHot t s
  | .reefBoundary t => Sys2Proof.Machine.execReefBoundary t s
  | .rotation g t => Sys2Proof.Machine.execRotation g t s
  | .marginReplan ms t => Sys2Proof.Machine.execMarginReplan ms t s
  | .wakeOnAccess dom source t => Sys2Proof.Machine.execWakeOnAccess dom source t s
  | .quiesceEnd dom t => Sys2Proof.Machine.execQuiesceEnd dom t s
  | .drainTimeout dom t => Sys2Proof.Machine.execDrainTimeout dom t s
  | .saveDone dom t => Sys2Proof.Machine.execSaveDone dom t s
  | .domainReady dom corrected bad t => Sys2Proof.Machine.execDomainReady dom corrected bad t s
  | .brownout current bad t => Sys2Proof.Machine.execBrownout current bad t s
  | .portSilent port t => Sys2Proof.Machine.execPortSilent port t s
  | .commanderLost t => Sys2Proof.Machine.execCommanderLost t s
  | .leaseLapse t => Sys2Proof.Machine.execLeaseLapse t s
  | .seize t => Sys2Proof.Machine.execSeize t s
  | .coilPreload t => Sys2Proof.Machine.execCoilPreload t s
  | .stepHoldLead t => Sys2Proof.Machine.execStepHoldLead t s
  | .datapathSwitch t => Sys2Proof.Machine.execDatapathSwitch t s
  | .mgmtResume t => Sys2Proof.Machine.execMgmtResume t s
  | .mgmtStartTimeout t => Sys2Proof.Machine.execMgmtStartTimeout t s
  | .confirmOverdue t => Sys2Proof.Machine.execConfirmOverdue t s
  | .inputQualified vin t => Sys2Proof.Machine.execInputQualified vin t s
  | .inputRange vin t => Sys2Proof.Machine.execInputRange vin t s
  | .inputShutdown vin t => Sys2Proof.Machine.execInputShutdown vin t s
  | .pwrgd t => Sys2Proof.Machine.execPwrgd t s
  | .resetNLow t => Sys2Proof.Machine.execResetNLow t s
  | .resetNHigh t => Sys2Proof.Machine.execResetNHigh t s
  | .trayLatch isOpen t => Sys2Proof.Machine.execTrayLatch isOpen t s
  | .aelpo flashOk t => Sys2Proof.Machine.execAelpo flashOk t s
  | .coil okA okB t => Sys2Proof.Machine.execCoil okA okB t s
  | .wake t => Sys2Proof.Machine.execWake t s
  | .memory linkFail unitFail t => Sys2Proof.Machine.execMemory linkFail unitFail t s
  | .init t => Sys2Proof.Machine.execInit t s
  | .selfTest weak bistFail t => Sys2Proof.Machine.execSelfTest weak bistFail t s
  | .links t => Sys2Proof.Machine.execLinks t s
  | .identity pec => Sys2Proof.Machine.execIdentity pec s
  | .state pec => Sys2Proof.Machine.execState pec s
  | .thermal pec => Sys2Proof.Machine.execThermal pec s
  | .power pec => Sys2Proof.Machine.execPower pec s
  | .trustWrite entry digest pec => Sys2Proof.Machine.execTrustWrite entry digest pec s
  | .alertResponse pec => Sys2Proof.Machine.execAlertResponse pec s
  | .hostLinkUp port t => Sys2Proof.Machine.execHostLinkUp port t s
  | .hostLinkDown port t => Sys2Proof.Machine.execHostLinkDown port t s
  | .inputOk vin t => Sys2Proof.Machine.execInputOk vin t s
  | .relayReply f t => Sys2Proof.Machine.execRelayReply f t s
  | .pdelayInterval port t => Sys2Proof.Machine.execPdelayInterval port t s
  | .gateIntervalEnd port t => Sys2Proof.Machine.execGateIntervalEnd port t s
  | .recoveryResetTimeout stream t => Sys2Proof.Machine.execRecoveryResetTimeout stream t s
  | .debugOpen t => Sys2Proof.Machine.execDebugOpen t s

end Sys2Proof.Machine
end

