-- ==== Sys2Proof/Machine/Fields.lean ====
section
/-! DEFINITION. The fields of State by name, so that a statement can say which of them a command leaves unchanged. -/

namespace Sys2Proof.Machine

/-- A field of State; the queue of waiting commands is not among them. -/
inductive Field where
  | now
  | fresh
  | regs
  | mem
  | owners
  | strands
  | dieKnots
  | hanks
  | parts
  | units
  | ctls
  | errLogs
  | errDropped
  | fairlead
  | ecron
  | sessions
  | hostPorts
  | recoveries
  | meters
  | ptp
  | lease
  | kv
  | serve
  | dispatch
  | video
  | update
  | power
  | thermo
  | start
  | security
  | journals
  | checks
  | snaps
  | sent
  deriving DecidableEq, Repr

/-- A field is the same in two states. -/
def Same (f : Field) (s t : State) : Prop :=
  match f with
  | .now => t.now = s.now
  | .fresh => t.fresh = s.fresh
  | .regs => t.regs = s.regs
  | .mem => t.mem = s.mem
  | .owners => t.owners = s.owners
  | .strands => t.strands = s.strands
  | .dieKnots => t.dieKnots = s.dieKnots
  | .hanks => t.hanks = s.hanks
  | .parts => t.parts = s.parts
  | .units => t.units = s.units
  | .ctls => t.ctls = s.ctls
  | .errLogs => t.errLogs = s.errLogs
  | .errDropped => t.errDropped = s.errDropped
  | .fairlead => t.fairlead = s.fairlead
  | .ecron => t.ecron = s.ecron
  | .sessions => t.sessions = s.sessions
  | .hostPorts => t.hostPorts = s.hostPorts
  | .recoveries => t.recoveries = s.recoveries
  | .meters => t.meters = s.meters
  | .ptp => t.ptp = s.ptp
  | .lease => t.lease = s.lease
  | .kv => t.kv = s.kv
  | .serve => t.serve = s.serve
  | .dispatch => t.dispatch = s.dispatch
  | .video => t.video = s.video
  | .update => t.update = s.update
  | .power => t.power = s.power
  | .thermo => t.thermo = s.thermo
  | .start => t.start = s.start
  | .security => t.security = s.security
  | .journals => t.journals = s.journals
  | .checks => t.checks = s.checks
  | .snaps => t.snaps = s.snaps
  | .sent => t.sent = s.sent

/-- Every field but those of a list is the same in two states, the queue included. -/
def SameBut (l : List Field) (s t : State) : Prop := t.pending = s.pending ∧ ∀ f, f ∉ l → Same f s t

end Sys2Proof.Machine
end

