-- ==== Sys2Proof/Safety.lean ====
section
/-! DEFINITION. What a safe state and a safe step are: the byte store stays in its canonical form, and a step ends in a
next state. Beside them, which fields of State each command may change, and which commands move what no other moves. -/

namespace Sys2Proof.Machine

/-- The invariant of the model: the byte store is in its one canonical form (log entry 4). -/
def State.Inv (s : State) : Prop := Memory.wf s.mem = true

/-- A step that goes on. -/
def Steps (s s' : State) : Prop := step s = .next s'

/-- A Hawser command of an opcode may execute (R413, R415, R506, R520, R570): its session holds a key, no management
start has paused service, and the command is either the oldest of its session's queue with an epoch that is not stale, or
comes by itself and no rule of admission refuses it. -/
def State.accepts (s : State) (h : CmdHdr) (code : Nat) : Prop :=
  s.update.paused = none ∧ ∃ x, s.session h.session = some x ∧
    if x.queue.any (fun q => q.seq == h.seq) = true then
      (x.queue.map fun q => q.seq).headD h.seq = h.seq ∧ s.stale h.session h.epoch = false
    else s.refusal h.session h.epoch code = none

/-- The ranges of its strand's scratch that a hitch of an opcode reads (R91). -/
def hitchReads (op : Nat) (r : Run) (s : State) : List (Nat × Nat) :=
  match op with
  | 0x01 => matmulReads r.w
  | 0x03 => [(fld r.w 0x10 31 0, saveBytes)]
  | 0x09 => [(fld r.w 0x14 20 0, 32 * ((vmemFmt (fld r.w 0x10 11 8)).getD .fp32).width)]
  | 0x0B => convertReads r.w
  | 0x10 => rowReads (fld r.w 0x24 1 0) (fld r.w 0x10 63 0) 0 1 (fld r.w 0x20 24 0)
  | 0x1A => if fld r.w 0x10 31 30 = 0 then s.appendReads r else []
  | 0x20 => s.convReads r
  | 0x21 => s.poolReads r
  | 0x28 => if flag r.w 0x10 0 then [] else sendReads r.w
  | 0x30 => scatterReads r.w
  | 0x31 => topkReads r.w
  | 0x38 => rowReads (fld r.w 0x10 23 23) (fld r.w 0x10 22 0) (16 * fld r.w 0x14 15 0) (fld r.w 0x14 22 16 + 1)
      (fld r.w 0x18 13 0)
  | 0x39 => [(fld r.w 0x18 20 0, 8 * fld r.w 0x14 4 0)]
  | _ => []

/-- Hitch st of an opcode issues and reads scratch without an uncorrectable upset: r is its run and t the state in which its
own effect takes place (R91, R124, R130). -/
def State.starts (s : State) (st op : Nat) (sub : HitchWord → Bool) (u : Upset) (r : Run) (t : State) : Prop :=
  ∃ s1, s.issue st op sub = some (r, s1) ∧ s1.scratchUpset st u (hitchReads op r s1) = (stOk, t)

/-- u is the state in which an accepted command takes its own effect: module time brought to the command's (R413, R415). -/
def State.runs (s : State) (h : CmdHdr) (code : Nat) (u : State) : Prop := u = s.tick h.t ∧ u.accepts h code

/-- u is the state in which an accepted command that writes one register takes its own effect: the session may write the
register, and the domain that holds it has been reached (R21, R22, R23). -/
def State.writes (s : State) (h : CmdHdr) (code addr : Nat) (u : State) : Prop :=
  (s.tick h.t).accepts h code ∧ (s.tick h.t).access h.session addr true = stOk ∧ u = (s.tick h.t).reachReg addr

/-- pk is the first message of a kind at a die's engine that need not wait, nothing stops it, and its telltale is right; v
is the state once it has left the receive queue (R373, R392, R400). -/
def State.hears (s : State) (d kind : Nat) (pk : Packet) (v : State) : Prop :=
  ∃ x, ((s.engine d).rx.find? fun x => isColl kind x.packet && !(s.collWaits d x)) = some x ∧ pk = x.packet ∧
    v = s.modEngine d (fun e => { e with rx := e.rx.erase x }) ∧ (pk.srcModule = v.self → v.gate pk true = .pass) ∧
    crc64 pk.payload = pk.telltale

/-- A message that is heard and that its step, run, identifier, tag and member number give to the running collective c
(R392). -/
def State.hearsFor (s : State) (d kind : Nat) (pk : Packet) (c : Coll) (v : State) : Prop :=
  s.hears d kind pk v ∧ v.collOrder pk.dstPart (headStep pk).2 (headStep pk).1.run = .eq ∧
    v.coll d pk.dstPart (headStep pk).1.id = some c ∧ (headStep pk).1.tag = c.tag ∧ (headStep pk).1.n = c.n ∧
    (headStep pk).1.index < c.n

/-- No element, anchor or corner of the array is struck (R80, R84). -/
def arrayIntact (u : Upset) : Prop := u.accBad = false ∧ u.flip = none ∧ u.anchor = none ∧ u.corner = 0

/-- Every power domain is on and the island is not in low-power mode: no access waits for a wake (R23, R529, R540). -/
def State.awake (s : State) : Prop := s.power.lpActive = false ∧ ∀ n < 64, (s.dom n).state = .on

/-- The line of module memory that holds an MPA reads well: it is usable, its granule is not being whipped, and it is none that
stays unreadable until it is written (R146, R158, R174). -/
def State.lineGood (s : State) (mpa : Nat) : Prop :=
  ∃ u x, lineAt mpa = some (u, x) ∧ bit (s.ownByte u (x / granule)) 5 = false ∧ mget (s.unit u).bad (mpa / 64) = none

/-- Every access of partition p to its memory succeeds where no new error strikes it: every domain is on, none of its granules is
being whipped, and every line of them reads well (R23, R149, R157, R174). -/
def State.memGood (s : State) (p : Nat) : Prop :=
  s.awake ∧ (∀ u k, k ∈ s.granules p u → bit (s.ownByte u k) 5 = false) ∧ ∀ a m, s.mpaOf p a = some m → s.lineGood m

/-- What a page descriptor names can be read: its bight entry lies in the partition's region of the die, or its page lies in
the partition's memory and holds its rows (R229, R235, R239). -/
def State.descGood (s : State) (r : Run) (d : Desc) : Prop :=
  let w := (codeWidth d.fmt)
  if d.bight then s.inBight r.die r.p (d.addr / 256) (bightSlots w d.mx (32 * (d.d32 + 1))) = true
  else s.pmaOk r.p d.addr 65536 = true ∧ d.count ≤ pageCap w d.mx (32 * (d.d32 + 1))

/-- The descriptors at a place are those of a list, which name the positions from `next` to kv in order, each of an operand format
and of the hitch's head dimension (R218, R219). -/
def State.descsGood (s : State) (r : Run) (dqk kv at_ next : Nat) (ds : List Desc) : Prop :=
  match ds with
  | [] => kv ≤ next
  | d :: rest =>
    next < kv ∧ s.pmaOk r.p at_ 32 = true ∧ Desc.parse (s.peekP r.p at_ 32) = d ∧ d.pos0 = next ∧ d.count ≠ 0 ∧
      (operandFmt d.fmt d.mx).isSome = true ∧ 32 * (d.d32 + 1) = dqk ∧ s.descGood r d ∧
      s.descsGood r dqk kv (at_ + 32) (next + d.count) rest

/-- Entry k of a hitch's length table. -/
def State.lenEntry (s : State) (r : Run) (c : Attn) (k : Nat) : LenEntry := LenEntry.parse (s.peekP r.p (c.lenTable + 32 * k) 32)

/-- What an entry's rows read and store of partition memory besides lies in the partition: the statistics, P and dS (R199, R210,
R222). -/
def State.attnStores (s : State) (r : Run) (c : Attn) (bwd : Bool) (e : LenEntry) : Prop :=
  ∀ x, e.row0 ≤ x → x < e.row0 + e.qlen * c.g →
    ((bwd = true ∨ c.save = true) → s.pmaOk r.p (c.stats + 8 * x) 8 = true) ∧
    (bwd = true → c.pOut ≠ 0 → s.pmaOk r.p (c.pOut + x * c.outRow) (packedBytes c.pf.width e.kv) = true) ∧
    (bwd = true → c.dsOut ≠ 0 → s.pmaOk r.p (c.dsOut + x * c.outRow) (packedBytes c.pf.width e.kv) = true)

/-- n entries of a length table from entry k pass their checks over the areas of those before them, hold their scores in the score
buffer, and have good descriptors and places (R200 to R202, R211, R217). -/
def State.entriesGood (s : State) (r : Run) (c : Attn) (bwd : Bool) (n k : Nat) (qs os : List Area) : Prop :=
  match n with
  | 0 => True
  | m + 1 =>
    let e := s.lenEntry r c k
    s.pmaOk r.p (c.lenTable + 32 * k) 32 = true ∧ c.entryStatus bwd e qs os = stOk ∧
      (e.qlen ≠ 0 → e.kv ≤ 32768 ∧ s.attnStores r c bwd e ∧
        (bwd = true → s.pmaOk r.p (c.stats + 8 * e.row0) (8 * (e.qlen * c.g)) = true) ∧
        ∃ ds, s.descsGood r c.dqk e.kv e.list 0 ds) ∧
      s.entriesGood r c bwd m (k + 1) (qs ++ c.qAreas e.row0 (e.qlen * c.g)) (os ++ c.outAreas e.row0 (e.qlen * c.g))

/-- The condition under which an ATTN hitch executes normally, on the state alone (R199 to R203, R217 to R219): the partition's
memory and the strand's scratch read well, the parameter block and every entry pass their checks, and, where it has several
entries, nothing it stores in partition memory could change those to come. -/
def State.attnGood (s : State) (r : Run) (bwd : Bool) : Prop :=
  let b := s.peekP r.p (Machine.fld r.w 0x38 63 0) 64
  let c := Attn.of r.w b
  s.memGood r.p ∧ (s.strand r.st).badLines = [] ∧ s.pmaOk r.p (Machine.fld r.w 0x38 63 0) 64 = true ∧ c.paramBad b = false ∧
    s.entriesGood r c bwd c.n 0 [] [] ∧
    (c.n = 1 ∨ if bwd = true then c.pOut = 0 ∧ c.dsOut = 0 else c.save = false)

/-- The condition under which a CROP_RESIZE executes normally, on the state alone (R354, R447): it is a mirror copy, which writes
nothing; or its frame is held, its parameter block, its boxes and its output pass their checks, and its partition's memory reads
well. -/
def State.cropGood (s : State) (r : Run) : Prop :=
  let h := s.cropHold r
  let par := h.peekP r.p (Machine.fld r.w 0x28 63 0) 64
  let n := Machine.fld r.w 0x34 12 0
  s.mirror r = true ∨
    (flag r.w 0x10 0 = true ∨ (s.frameOfHandle r.p (Machine.fld r.w 0x14 31 0)).isSome = true) ∧ s.memGood r.p ∧
      s.pmaOk r.p (Machine.fld r.w 0x28 63 0) 64 = true ∧ h.cropStatus r par (h.cropSource r par) = stOk ∧
      s.pmaOk r.p (Machine.fld r.w 0x18 63 0) (16 * n) = true ∧
      ∀ i < n, let b := boxOf (slice (h.peekP r.p (Machine.fld r.w 0x18 63 0) (16 * n)) (16 * i) 16)
        b.1 < 2 ^ 28 ∧ b.2.1 < 2 ^ 28 ∧ b.2.2.1 < 2 ^ 28 ∧ b.2.2.2 < 2 ^ 28

/-- Entry idx of a partition's routing table is VALID, in memory and where its die's engine holds it (R291, R292). -/
def State.entryGood (s : State) (r : Run) (idx : Nat) : Prop :=
  idx < s.dspForce r.p 1 ∧ s.pmaOk r.p (s.dspForce r.p 0 + 64 * idx) 64 = true ∧
    entryValid (s.peekP r.p (s.dspForce r.p 0 + 64 * idx) 64) = true ∧
    ∀ e ∈ (s.engine r.die).cache, e.1 = r.p * 65536 + idx → entryValid e.2 = true

/-- The condition under which a SEND executes normally, on the state alone (R296 to R299, R483): its partition has a send key, its
ranges lie in their spaces, its partition's memory reads well, and every entry of its route list names none, a dropped row, or a
VALID table entry. -/
def State.sendGood (s : State) (r : Run) : Prop :=
  let tokens := Machine.fld r.w 0x14 15 0
  let k := Machine.fld r.w 0x14 19 16 + 1
  let bytes := Machine.fld r.w 0x2C 11 0 * ((Fmt.ofCode (Machine.fld r.w 0x10 7 4)).getD .fp32).width / 8
  s.keyless r.p = false ∧ s.memGood r.p ∧ inScratch (Machine.fld r.w 0x18 20 0) (4 * (tokens * k)) = true ∧
    inScratch (rowsEnd (Machine.fld r.w 0x1C 20 0) (16 * Machine.fld r.w 0x20 15 0) tokens (16 * Machine.fld r.w 0x20 31 16)) 0 = true ∧
    inRegion (Machine.fld r.w 0x28 22 0) (tokens * k * bytes) = true ∧
    ∀ i < tokens * k, let x := leAt (s.peek (r.place 0 (Machine.fld r.w 0x18 20 0)) (4 * (tokens * k))) (4 * i) 2
      x = 0xFFFF ∨ x = 0xFFFE ∨ s.entryGood r (Machine.fld r.w 0x24 31 16 + x)

/-- The condition under which a RETURN executes normally, on the state alone (R303, R447, R483): its partition has a send key, the
experts and their rows lie in range, and it is a mirror copy or its partition's memory reads well. -/
def State.returnGood (s : State) (r : Run) : Prop :=
  let first := Machine.fld r.w 0x14 11 0
  let count := Machine.fld r.w 0x14 28 16
  let cap := s.dspForce r.p 3 % 65536
  let len := 16 * (s.dspForce r.p 3 / 65536)
  let pitch := 16 * Machine.fld r.w 0x20 15 0
  s.keyless r.p = false ∧ first + count ≤ s.dspForce r.p 4 ∧
    s.pmaOk r.p (Machine.fld r.w 0x18 63 0 + first * cap * pitch) (count * cap * pitch) = true ∧
    (s.mirror r = true ∨ s.memGood r.p ∧ ∀ i < count, ∀ j < cap,
      s.pmaOk r.p (s.dspForce r.p 2 + s.dspForce r.p 4 * cap * len + 8 * ((first + i) * cap + j)) 8 = true)

/-- The status with which a hitch has executed, none while it has not. -/
def State.doneWith (s : State) (r : Run) : Option Nat :=
  match ((s.strand r.st).queue.find? fun e => e.id == r.e.id).map QEntry.phase with
  | some (.done st) => some st
  | _ => none

/-- A VEC of run r has gone from t to v with the results g, values and flags by lane (R86, R122): its entry is done with OK, the
256 lanes of DST hold the values, STR_ARITH_FLAGS has gained the flags of R69 among them, and no other lane, strand,
register or field has changed. -/
def Run.vecDone (r : Run) (t v : State) (g : Nat → Nat × Nat) : Prop :=
  v.doneWith r = some stOk ∧
    (∀ q i, i < 256 → v.lane r.st q i = if q = fld r.w 0x10 12 8 then (g i).1 % 2 ^ 32 else t.lane r.st q i) ∧
    (∀ j, j ≠ r.st → v.strand j = t.strand j) ∧
    v.reg (Reg.strArithFlags r.st) = orBits (t.reg (Reg.strArithFlags r.st)) (flagsOf ((upTo 256).map g) &&& 0xF1F) ∧
    (∀ a, a ≠ Reg.strArithFlags r.st → v.reg a = t.reg a) ∧ SameBut [.strands, .regs] t v

/-- The entry of a COLLECTIVE's group in the table of its partition (R385). -/
def State.groupEntry (s : State) (r : Run) : List Byte :=
  s.peekP r.p (s.colForce r.p 0 + 64 * Machine.fld r.w 0x10 21 16) 64

/-- The member entries that it names (R385). -/
def State.groupMembers (s : State) (r : Run) : List (List Byte) :=
  let n := leAt (s.groupEntry r) 0 2 % 512
  (upTo n).map fun i => (s.peekP r.p (leAt (s.groupEntry r) 8 8) (16 * n)).drop (16 * i)

/-- The condition on the state under which the group of a COLLECTIVE is good (R385): both tables lie in memory that reads well, the
group has 1 to 256 members, SELF is one of them, reserved bits are 0, and the entry at SELF names this module, partition and die. -/
def State.groupGood (s : State) (r : Run) : Prop :=
  let b := s.groupEntry r
  let n := leAt b 0 2 % 512
  let own := memberOf ((s.groupMembers r).getD (leAt b 2 1) [])
  s.memGood r.p ∧ s.pmaOk r.p (s.colForce r.p 0 + 64 * Machine.fld r.w 0x10 21 16) 64 = true ∧
    s.pmaOk r.p (leAt b 8 8) (16 * n) = true ∧ 0 < n ∧ n ≤ 256 ∧ leAt b 2 1 < n ∧
    (∀ v ∈ b.drop 0x10, v = 0) ∧ leAt b 1 1 / 2 = 0 ∧ leAt b 3 1 = 0 ∧ leAt b 8 1 % 16 = 0 ∧
    (∀ m ∈ s.groupMembers r, leAt m 1 1 / 128 = 0 ∧ leAt m 8 8 = 0) ∧ own.1 = s.self ∧ own.2.1 = r.p ∧ own.2.2.1 = r.die

/-- The collective that a COLLECTIVE hitch starts: of the step and run under way, with the group's tag, index and members, nothing
sent or received yet (R385, R392). -/
def State.collOf (s : State) (st : Nat) (r : Run) : Coll :=
  { strand := st, id := Machine.fld r.w 0x14 31 0, part := r.p, hank := r.g, pos := r.e.pos, index := r.e.index, word := r.w,
    step := (s.step r.p).counter, run := (s.step r.p).run, tag := leAt (s.groupEntry r) 4 4,
    self_ := leAt (s.groupEntry r) 2 1, members := (s.groupMembers r).map memberOf, issuedAt := s.now, first := [], keys := [],
    anchors := [], accepted := [], lost := [], results := [], dones := [], sentTo := [], doneTo := [], reduced := false, moved := [] }

/-- What reaching a domain may change: one that is being turned off finishes, loses its contents and wakes (R533, R536). -/
def domainFields : List Field :=
  [.fresh, .regs, .mem, .strands, .hanks, .parts, .units, .ctls,
   .ecron, .sessions, .hostPorts, .dispatch, .power, .checks, .sent]
/-- What the answer to a command may change: the time, a pending restart, and what its transmission reaches (R414, R415). -/
def replyFields : List Field := .now :: .update :: domainFields
/-- What a hitch may change: what it reaches, and the knots of its die. -/
def hitchFields : List Field := .dieKnots :: domainFields
/-- What a read of module memory may change beside that: the tag cache and the error logs (R157, R164). -/
def readFields : List Field := [.ctls, .errLogs, .errDropped]

end Sys2Proof.Machine

namespace Sys2Proof

open Sys2Proof.Machine in
/-- The fields of State that a command may change. -/
def Instr.touches : Instr → List Field
  | .hawserFrame _ _ _ => replyFields ++ [.recoveries, .meters, .security]
  | .eventResend _ _ => [.now, .sessions, .sent]
  | .echo _ _ => replyFields
  | .sessionOpen _ _ _ _ _ => [.now, .fresh, .regs, .parts, .sessions, .security, .sent]
  | .sessionClose _ _ _ => replyFields ++ [.security]
  | .eventAck _ _ => replyFields
  | .regRead _ _ _ => replyFields ++ [.video, .thermo]
  | .regWrite _ _ _ => hitchFields ++ replyFields ++ readFields ++ [.fairlead, .meters, .kv, .serve, .thermo, .start, .snaps]
  | .regModify _ _ _ _ => hitchFields ++ replyFields ++ readFields ++ [.fairlead, .meters, .kv, .serve, .thermo, .start, .snaps]
  | .memRead _ _ _ _ => replyFields ++ readFields
  | .memWrite _ _ _ _ => replyFields ++ readFields
  | .partCreate _ _ => replyFields ++ [.owners, .fairlead, .kv, .security]
  | .partActive _ _ => hitchFields ++ replyFields ++ readFields ++ [.owners, .kv, .serve, .video, .thermo, .security, .snaps]
  | .partDestroy _ _ => hitchFields ++ replyFields ++ readFields ++ [.owners, .kv, .serve, .video, .thermo, .security]
  | .whipOverwriteEnd _ _ => hitchFields ++ readFields ++ [.now, .owners, .kv, .serve, .video, .security, .journals]
  | .resetFunction _ _ _ => hitchFields ++ replyFields ++ readFields ++ [.owners, .kv, .serve, .video, .thermo, .security]
  | .resetHitchTimeout _ _ => hitchFields ++ replyFields ++ readFields ++ [.owners, .kv, .serve, .video, .thermo, .security]
  | .stepRun _ _ _ _ => hitchFields ++ replyFields ++ readFields ++ [.kv, .serve]
  | .attest _ _ _ _ => replyFields ++ [.security]
  | .heartbeat _ _ => replyFields ++ [.lease]
  | .leaseAcquire _ _ => replyFields ++ [.lease]
  | .leaseRelease _ => replyFields ++ [.lease]
  | .roleAssign _ _ => replyFields
  | .seizeRelease _ => replyFields ++ [.lease]
  | .coilBegin _ _ _ => replyFields
  | .coilBlock _ _ _ _ => replyFields
  | .coilSchedule _ _ _ => replyFields
  | .activate _ _ => replyFields
  | .confirm _ => replyFields
  | .coilStatus _ => replyFields
  | .serveSubmit _ _ => replyFields ++ [.kv, .serve]
  | .serveCancel _ _ => replyFields ++ [.kv, .serve]
  | .servePause _ _ => replyFields ++ [.kv, .serve]
  | .serveResume _ _ => replyFields ++ [.kv, .serve]
  | .reelRead _ _ _ _ => replyFields ++ readFields
  | .reelAck _ _ _ => replyFields ++ [.serve]
  | .budgetSet _ _ => replyFields ++ [.serve]
  | .budgetAdjust _ _ _ _ => replyFields ++ [.serve]
  | .budgetRead _ _ => replyFields
  | .prefixMake _ _ _ => replyFields ++ [.kv, .serve]
  | .prefixDrop _ _ => replyFields ++ [.kv, .serve]
  | .kvShip _ _ => replyFields ++ [.kv, .serve]
  | .vidOpen _ _ => replyFields ++ [.video]
  | .vidClose _ _ => replyFields ++ [.video]
  | .vidFeed _ _ _ _ _ _ => replyFields ++ readFields ++ [.video]
  | .vidAcquire _ => replyFields ++ [.video]
  | .vidRelease _ _ => replyFields ++ [.video]
  | .vidEncode _ _ _ _ _ => replyFields ++ [.video]
  | .vidRead _ _ _ _ => replyFields ++ readFields
  | .vidAck _ _ _ => replyFields ++ readFields ++ [.video]
  | .fsrRead _ _ _ => replyFields
  | .fsrAck _ _ => replyFields
  | .packLoad _ _ _ _ _ _ => replyFields
  | .splCommit _ _ => hitchFields ++ replyFields ++ readFields ++ [.fairlead, .meters, .kv, .serve, .thermo, .start, .snaps]
  | .registerWrite _ _ _ => hitchFields ++ replyFields ++ readFields ++ [.fairlead, .meters, .kv, .serve, .thermo, .start, .snaps]
  | .rcRead _ _ _ => replyFields ++ [.video, .thermo]
  | .latchRead _ _ => replyFields ++ [.video, .thermo]
  | .w1cClear _ _ _ _ => hitchFields ++ replyFields ++ readFields ++ [.fairlead, .meters, .kv, .serve, .thermo, .start, .snaps]
  | .auditSnapshot _ _ _ => hitchFields ++ replyFields ++ readFields ++ [.fairlead, .meters, .kv, .serve, .thermo, .start, .snaps]
  | .memErrPop _ _ _ => replyFields ++ [.errLogs]
  | .go _ _ => hitchFields ++ replyFields ++ readFields ++ [.kv, .serve]
  | .clrAbandon _ _ => hitchFields ++ replyFields ++ readFields ++ [.kv, .serve]
  | .mode _ _ _ => hitchFields ++ replyFields ++ readFields ++ [.kv, .serve]
  | .targetOn _ _ _ => replyFields
  | .targetRetention _ _ => replyFields
  | .targetOff _ _ => replyFields
  | .cleatRel _ _ => replyFields
  | .pwrAonCtrl _ _ => replyFields
  | .kvpPartBightRegion _ _ _ _ => replyFields
  | .vidCoreOwner _ _ _ => replyFields
  | .ecnBraidCtrl _ _ => replyFields
  | .secCtrl _ _ => replyFields
  | .dirReady _ => replyFields ++ [.start]
  | .chkPartCtrl _ _ _ => replyFields
  | .chkStrandQset _ _ _ => replyFields
  | .chkStrandQmask _ _ _ => replyFields
  | .gblDetPartJrnlRd _ _ _ => replyFields
  | .gblDetPartReplay _ _ _ => replyFields
  | .now _ _ => replyFields ++ [.thermo]
  | .thmKeepWarm _ _ => replyFields ++ [.thermo]
  | .gblStartCtrl _ _ => replyFields
  | .nop _ => hitchFields ++ [.thermo]
  | .matmul _ _ => hitchFields
  | .accSave _ _ => hitchFields
  | .accRestore _ _ => hitchFields
  | .vload _ _ => hitchFields
  | .vstore _ _ => hitchFields
  | .convert _ _ => hitchFields
  | .move _ _ => hitchFields ++ readFields
  | .vAdd _ _ => hitchFields
  | .vSub _ _ => hitchFields
  | .vMul _ _ => hitchFields
  | .vFma _ _ => hitchFields
  | .vDiv _ _ => hitchFields
  | .vSqrt _ _ => hitchFields
  | .vRcp _ _ => hitchFields
  | .vRsqrt _ _ => hitchFields
  | .vExp2 _ _ => hitchFields
  | .vLog2 _ _ => hitchFields
  | .vExp _ _ => hitchFields
  | .vLog _ _ => hitchFields
  | .vTanh _ _ => hitchFields
  | .vSigmoid _ _ => hitchFields
  | .vSilu _ _ => hitchFields
  | .vErf _ _ => hitchFields
  | .vGelu _ _ => hitchFields
  | .vSin _ _ => hitchFields
  | .vCos _ _ => hitchFields
  | .vMin _ _ => hitchFields
  | .vMax _ _ => hitchFields
  | .vCmpEq _ _ => hitchFields
  | .vCmpLt _ _ => hitchFields
  | .vCmpLe _ _ => hitchFields
  | .vSelect _ _ => hitchFields
  | .vIadd _ _ => hitchFields
  | .vIsub _ _ => hitchFields
  | .vImul _ _ => hitchFields
  | .vAnd _ _ => hitchFields
  | .vOr _ _ => hitchFields
  | .vXor _ _ => hitchFields
  | .vShl _ _ => hitchFields
  | .vShr _ _ => hitchFields
  | .vSar _ _ => hitchFields
  | .vPermute _ _ => hitchFields
  | .vSumLanes _ _ => hitchFields
  | .vMaxLanes _ _ => hitchFields
  | .vMinLanes _ _ => hitchFields
  | .vCvtF2i _ _ => hitchFields
  | .vCvtI2f _ _ => hitchFields
  | .forward _ _ => hitchFields ++ readFields
  | .backward _ _ => hitchFields ++ readFields
  | .kvWalk _ _ => hitchFields ++ readFields ++ [.kv, .thermo]
  | .append _ _ => hitchFields ++ [.kv]
  | .accept _ => hitchFields ++ [.kv]
  | .conv _ _ => hitchFields
  | .pool _ _ => hitchFields
  | .cropResize _ _ => hitchFields ++ readFields ++ [.video]
  | .send _ _ => hitchFields ++ readFields ++ [.thermo]
  | .ret _ => hitchFields ++ readFields
  | .allReduce _ => hitchFields ++ readFields ++ [.thermo]
  | .reduceScatter _ => hitchFields ++ readFields ++ [.thermo]
  | .allGather _ => hitchFields ++ readFields ++ [.thermo]
  | .allToAll _ => hitchFields ++ readFields ++ [.thermo]
  | .scatterAdd _ _ => hitchFields
  | .topk _ _ => hitchFields
  | .telltale _ _ => hitchFields ++ readFields
  | .reelStage _ _ => hitchFields ++ readFields ++ [.serve]
  | .link _ _ => hitchFields ++ [.thermo]
  | .stepEnd _ _ => hitchFields ++ [.thermo]
  | .hitchFetch _ _ _ => hitchFields ++ readFields ++ [.now, .thermo]
  | .hitchEmit _ _ _ => [.now, .regs, .strands, .hanks, .thermo]
  | .positionSwitch _ _ _ => domainFields ++ readFields ++ [.now, .thermo]
  | .hitchComplete _ _ _ => hitchFields ++ replyFields ++ readFields ++ [.owners, .kv, .serve, .video, .thermo, .security]
  | .knotTimeout _ _ => hitchFields ++ replyFields ++ readFields ++ [.owners, .kv, .serve, .video, .thermo, .security]
  | .stepStart _ _ => domainFields ++ [.now, .kv, .thermo, .journals]
  | .stepCommit _ _ => hitchFields ++ replyFields ++ readFields ++ [.owners, .kv, .serve, .video, .thermo, .security, .journals]
  | .stepReplay _ _ => hitchFields ++ replyFields ++ readFields ++ [.kv, .serve, .thermo, .journals]
  | .stepAbandon _ _ => hitchFields ++ replyFields ++ readFields ++ [.kv, .serve]
  | .stepBuild _ _ => domainFields ++ readFields ++ [.now, .kv, .serve, .journals]
  | .refillTick _ => [.now, .serve]
  | .pageManager _ _ => domainFields ++ readFields ++ [.now, .kv, .serve, .journals]
  | .pageMove _ _ => domainFields ++ readFields ++ [.now, .kv, .serve]
  | .heldFlush _ _ => domainFields ++ readFields ++ [.now, .kv, .serve]
  | .fairleadRequest _ _ _ => domainFields ++ [.now, .fairlead]
  | .fairleadGrant _ _ _ => [.now, .regs, .fairlead]
  | .transferDone _ _ _ _ => [.now, .regs, .fairlead, .start]
  | .backoffEnd _ _ _ => [.now, .regs, .fairlead]
  | .starvation _ _ _ => [.now, .regs, .parts, .fairlead, .sessions, .checks, .sent]
  | .slotTableSwitch _ _ _ => [.now, .regs, .fairlead]
  | .lineRead _ _ _ => domainFields ++ readFields ++ [.now]
  | .lineWrite _ _ _ _ _ => domainFields ++ readFields ++ [.now]
  | .correctionWriteback _ => [.units]
  | .blockRetire _ _ _ => [.now, .units, .errLogs, .errDropped]
  | .patrolRead _ _ _ => readFields ++ [.now, .regs, .mem, .parts, .units, .ecron, .sessions, .checks, .sent]
  | .scrubRead _ _ => [.regs, .strands]
  | .scratchWriteback _ _ => [.strands]
  | .packetTransmit _ _ _ => [.now, .regs, .ecron, .sent]
  | .data _ _ _ => hitchFields ++ readFields ++ [.now, .kv, .serve, .thermo]
  | .epochHold _ _ => hitchFields ++ readFields ++ [.now, .kv, .serve, .thermo]
  | .refuse _ _ _ => hitchFields ++ readFields ++ [.now, .kv, .serve, .thermo]
  | .ackPacket _ _ _ => hitchFields ++ readFields ++ [.now, .kv, .serve, .thermo]
  | .bulkTimeout _ _ => domainFields ++ [.now, .kv, .serve]
  | .dispatchRow _ _ => hitchFields ++ readFields ++ [.now, .thermo]
  | .rxExpired _ _ => hitchFields ++ readFields ++ [.now, .thermo]
  | .returnRow _ _ => hitchFields ++ readFields ++ [.now, .thermo]
  | .post _ _ => hitchFields ++ readFields ++ [.now, .thermo]
  | .key _ _ => hitchFields ++ readFields ++ [.now, .thermo]
  | .anchor _ _ => hitchFields ++ readFields ++ [.now, .thermo]
  | .contrib _ _ => hitchFields ++ readFields ++ [.now, .thermo]
  | .result _ _ => hitchFields ++ readFields ++ [.now, .thermo]
  | .done _ _ => hitchFields ++ readFields ++ [.now, .thermo]
  | .ready _ _ => domainFields ++ readFields ++ [.now, .thermo]
  | .abort _ _ => domainFields ++ readFields ++ [.now, .thermo]
  | .query _ _ => domainFields ++ readFields ++ [.now, .thermo]
  | .messageExpired _ _ => domainFields ++ readFields ++ [.now, .thermo]
  | .collectiveTimeout _ _ => [.now, .strands, .dispatch]
  | .voteQueryTimeout _ _ => domainFields ++ [.now]
  | .kvShipPage _ _ => domainFields ++ readFields ++ [.now, .kv, .serve]
  | .linkState _ _ _ => [.now, .ecron]
  | .relayFrame _ _ _ => replyFields ++ [.recoveries, .meters, .security]
  | .linkStateSend _ => domainFields ++ [.now]
  | .idle _ => [.now, .regs, .ecron]
  | .credit _ _ _ _ => [.now, .fresh, .regs, .parts, .ecron, .sessions, .checks, .sent]
  | .ack _ _ => [.ecron]
  | .replayReq _ _ => [.regs, .ecron, .sent]
  | .sync _ _ _ _ _ _ => [.now, .regs, .parts, .ecron, .sessions, .checks, .sent]
  | .keepalive _ _ _ _ => [.now, .ecron]
  | .hello _ _ _ => [.now, .regs, .parts, .ecron, .sessions, .checks, .sent]
  | .ackSend _ _ => [.now, .ecron, .sent]
  | .keepaliveSend _ _ => [.now, .ecron, .sent]
  | .syncSend _ _ => [.now, .ecron, .sent]
  | .uncorrectableCodeword _ _ => [.now, .regs, .ecron, .sent]
  | .errLimitExceeded _ _ => [.now, .regs, .ecron]
  | .codewordLoss _ _ => [.now, .regs, .ecron]
  | .portSignalDetect _ _ => [.now, .ecron]
  | .trainingDone _ _ => [.now, .ecron]
  | .lock _ _ => [.now, .fresh, .ecron, .sent]
  | .portStateTimeout _ _ => [.now, .regs, .parts, .ecron, .sessions, .checks, .sent]
  | .portRetry _ _ => [.now, .ecron]
  | .ptpSync _ _ _ => [.now, .regs, .sessions, .hostPorts, .ptp, .serve, .sent]
  | .ptpSourceSwitch _ => [.now, .ptp]
  | .ptpHoldover _ => [.now, .ptp]
  | .gclActivate _ _ => [.now, .hostPorts]
  | .pictureStart _ _ _ => domainFields ++ [.now, .video]
  | .pictureDone _ _ _ => domainFields ++ readFields ++ [.now, .video]
  | .bufferWaitTimeout _ _ _ => domainFields ++ readFields ++ [.now, .video]
  | .watchdog _ _ _ => domainFields ++ readFields ++ [.now, .video]
  | .packRotation _ _ => [.now, .checks]
  | .packTestEnd _ _ _ => [.now, .regs, .strands, .parts, .sessions, .checks, .sent]
  | .scoreDecay _ _ _ => [.now, .strands]
  | .bandClassify _ _ _ => [.now, .strands, .hanks]
  | .sensorSample _ _ _ _ => [.now, .regs, .hanks, .parts, .sessions, .thermo, .start, .checks, .sent]
  | .sensorSplit _ _ => [.now, .regs, .parts, .sessions, .thermo, .checks, .sent]
  | .sensorFail _ _ _ => [.now, .regs, .parts, .sessions, .thermo, .checks, .sent]
  | .thermalShutdown _ => hitchFields ++ replyFields ++ readFields ++ [.owners, .lease, .kv, .serve, .video, .thermo, .security]
  | .coolantHot _ => [.now, .regs, .sessions, .thermo, .sent]
  | .reefBoundary _ => [.now, .regs, .hanks, .sessions, .thermo, .sent]
  | .rotation _ _ => [.now, .hanks]
  | .marginReplan _ _ => [.now, .regs, .parts, .sessions, .thermo, .checks, .sent]
  | .wakeOnAccess _ _ _ => domainFields ++ [.now]
  | .quiesceEnd _ _ => [.now, .power]
  | .drainTimeout _ _ => domainFields ++ [.now]
  | .saveDone _ _ => domainFields ++ [.now]
  | .domainReady _ _ _ _ => domainFields ++ [.now]
  | .brownout _ _ _ => [.now, .regs, .parts, .sessions, .power, .checks, .sent]
  | .portSilent _ _ => [.now, .regs, .sessions, .hostPorts, .sent]
  | .commanderLost _ => [.now, .regs, .sessions, .lease, .sent]
  | .leaseLapse _ => [.now]
  | .seize _ => hitchFields ++ replyFields ++ readFields ++ [.owners, .lease, .kv, .serve, .video, .thermo, .security]
  | .coilPreload _ => [.now, .update]
  | .stepHoldLead _ => [.now]
  | .datapathSwitch _ => [.now, .regs, .hanks, .sessions, .update, .sent]
  | .mgmtResume _ => replyFields ++ [.recoveries, .meters, .security]
  | .mgmtStartTimeout _ => replyFields ++ [.recoveries, .meters, .security]
  | .confirmOverdue _ => [.now, .regs, .sessions, .update, .sent]
  | .inputQualified _ _ => [.now, .start]
  | .inputRange _ _ => [.now, .regs, .sessions, .start, .sent]
  | .inputShutdown _ _ => hitchFields ++ replyFields ++ readFields ++ [.owners, .fairlead, .recoveries, .meters, .ptp, .lease, .kv, .serve, .video, .thermo, .start, .security, .journals, .snaps]
  | .pwrgd _ => [.now, .start]
  | .resetNLow _ => hitchFields ++ replyFields ++ readFields ++ [.owners, .fairlead, .recoveries, .meters, .ptp, .lease, .kv, .serve, .video, .thermo, .start, .security, .journals, .snaps]
  | .resetNHigh _ => [.now, .start]
  | .trayLatch _ _ => [.now, .regs, .sessions, .start, .sent]
  | .aelpo _ _ => [.now, .regs, .parts, .sessions, .start, .security, .checks, .sent]
  | .coil _ _ _ => [.now, .regs, .parts, .sessions, .update, .start, .checks, .sent]
  | .wake _ => [.now, .hanks, .ctls, .power, .start]
  | .memory _ _ _ => [.now, .regs, .parts, .ctls, .sessions, .start, .checks, .sent]
  | .init _ => [.now, .owners, .start, .security]
  | .selfTest _ _ _ => [.now, .regs, .strands, .parts, .sessions, .start, .checks, .sent]
  | .links _ => [.now, .regs, .sessions, .start, .sent]
  | .identity _ => [.power, .sent]
  | .state _ => [.power, .sent]
  | .thermal _ => [.power, .sent]
  | .power _ => [.power, .sent]
  | .trustWrite _ _ _ => [.power, .security, .sent]
  | .alertResponse _ => [.power, .sent]
  | .hostLinkUp _ _ => [.now, .hostPorts]
  | .hostLinkDown _ _ => [.now, .hostPorts]
  | .inputOk _ _ => [.now, .start]
  | .relayReply _ _ => [.now, .sent]
  | .pdelayInterval _ _ => [.now, .hostPorts, .sent]
  | .gateIntervalEnd _ _ => [.now, .hostPorts]
  | .recoveryResetTimeout _ _ => [.now, .recoveries]
  | .debugOpen _ => [.now, .security]

/-- The command restarts module time: the power-on (R429). -/
def Instr.restartsTime : Instr → Bool
  | .pwrgd _ => true
  | _ => false

/-- The command may move a partition's step counter (R106): a commit, the creation or the end of a partition, a role
assignment with its START_STEP, the journal replayed by a hank build, or a loss or return of power. -/
def Instr.movesCounter : Instr → Bool
  | .stepCommit _ _ => true
  | .partCreate _ _ => true
  | .whipOverwriteEnd _ _ => true
  | .roleAssign _ _ => true
  | .stepBuild _ _ => true
  | .inputShutdown _ _ => true
  | .pwrgd _ => true
  | .resetNLow _ => true
  | _ => false

/-- The header and opcode (R419) of a Hawser command; none for what is no Hawser command, and for SESSION_OPEN and
SESSION_CLOSE, whose sessions come and go with the command (R480, R482). -/
def Instr.opcode : Instr → Option (CmdHdr × Nat)
  | .hawserFrame _ _ _ => none
  | .eventResend _ _ => none
  | .echo h _ => some (h, 0x0001)
  | .sessionOpen _ _ _ _ _ => none
  | .sessionClose _ _ _ => none
  | .eventAck h _ => some (h, 0x0005)
  | .regRead h _ _ => some (h, 0x0100)
  | .regWrite h _ _ => some (h, 0x0101)
  | .regModify h _ _ _ => some (h, 0x0102)
  | .memRead h _ _ _ => some (h, 0x0110)
  | .memWrite h _ _ _ => some (h, 0x0111)
  | .partCreate h _ => some (h, 0x0200)
  | .partActive _ _ => none
  | .partDestroy h _ => some (h, 0x0201)
  | .whipOverwriteEnd _ _ => none
  | .resetFunction h _ _ => some (h, 0x0202)
  | .resetHitchTimeout _ _ => none
  | .stepRun h _ _ _ => some (h, 0x0203)
  | .attest h _ _ _ => some (h, 0x0204)
  | .heartbeat h _ => some (h, 0x0300)
  | .leaseAcquire h _ => some (h, 0x0301)
  | .leaseRelease h => some (h, 0x0302)
  | .roleAssign h _ => some (h, 0x0303)
  | .seizeRelease h => some (h, 0x0304)
  | .coilBegin h _ _ => some (h, 0x0400)
  | .coilBlock h _ _ _ => some (h, 0x0401)
  | .coilSchedule h _ _ => some (h, 0x0402)
  | .activate h _ => some (h, 0x0403)
  | .confirm h => some (h, 0x0404)
  | .coilStatus h => some (h, 0x0405)
  | .serveSubmit h _ => some (h, 0x0500)
  | .serveCancel h _ => some (h, 0x0501)
  | .servePause h _ => some (h, 0x0502)
  | .serveResume h _ => some (h, 0x0503)
  | .reelRead h _ _ _ => some (h, 0x0504)
  | .reelAck h _ _ => some (h, 0x0505)
  | .budgetSet h _ => some (h, 0x0506)
  | .budgetAdjust h _ _ _ => some (h, 0x0507)
  | .budgetRead h _ => some (h, 0x0508)
  | .prefixMake h _ _ => some (h, 0x0509)
  | .prefixDrop h _ => some (h, 0x050A)
  | .kvShip h _ => some (h, 0x050B)
  | .vidOpen h _ => some (h, 0x0600)
  | .vidClose h _ => some (h, 0x0601)
  | .vidFeed h _ _ _ _ _ => some (h, 0x0602)
  | .vidAcquire h => some (h, 0x0603)
  | .vidRelease h _ => some (h, 0x0604)
  | .vidEncode h _ _ _ _ => some (h, 0x0605)
  | .vidRead h _ _ _ => some (h, 0x0606)
  | .vidAck h _ _ => some (h, 0x0607)
  | .fsrRead h _ _ => some (h, 0x0700)
  | .fsrAck h _ => some (h, 0x0701)
  | .packLoad h _ _ _ _ _ => some (h, 0x0702)
  | .splCommit h _ => some (h, 0x0101)
  | .registerWrite h _ _ => some (h, 0x0101)
  | .rcRead h _ _ => some (h, 0x0100)
  | .latchRead h _ => some (h, 0x0100)
  | .w1cClear h _ _ _ => some (h, 0x0101)
  | .auditSnapshot h _ _ => some (h, 0x0101)
  | .memErrPop h _ _ => some (h, 0x0101)
  | .go h _ => some (h, 0x0101)
  | .clrAbandon h _ => some (h, 0x0101)
  | .mode h _ _ => some (h, 0x0101)
  | .targetOn h _ _ => some (h, 0x0101)
  | .targetRetention h _ => some (h, 0x0101)
  | .targetOff h _ => some (h, 0x0101)
  | .cleatRel h _ => some (h, 0x0102)
  | .pwrAonCtrl h _ => some (h, 0x0101)
  | .kvpPartBightRegion h _ _ _ => some (h, 0x0101)
  | .vidCoreOwner h _ _ => some (h, 0x0101)
  | .ecnBraidCtrl h _ => some (h, 0x0101)
  | .secCtrl h _ => some (h, 0x0101)
  | .dirReady h => some (h, 0x0101)
  | .chkPartCtrl h _ _ => some (h, 0x0101)
  | .chkStrandQset h _ _ => some (h, 0x0101)
  | .chkStrandQmask h _ _ => some (h, 0x0101)
  | .gblDetPartJrnlRd h _ _ => some (h, 0x0101)
  | .gblDetPartReplay h _ _ => some (h, 0x0101)
  | .now h _ => some (h, 0x0101)
  | .thmKeepWarm h _ => some (h, 0x0101)
  | .gblStartCtrl h _ => some (h, 0x0101)
  | .nop _ => none
  | .matmul _ _ => none
  | .accSave _ _ => none
  | .accRestore _ _ => none
  | .vload _ _ => none
  | .vstore _ _ => none
  | .convert _ _ => none
  | .move _ _ => none
  | .vAdd _ _ => none
  | .vSub _ _ => none
  | .vMul _ _ => none
  | .vFma _ _ => none
  | .vDiv _ _ => none
  | .vSqrt _ _ => none
  | .vRcp _ _ => none
  | .vRsqrt _ _ => none
  | .vExp2 _ _ => none
  | .vLog2 _ _ => none
  | .vExp _ _ => none
  | .vLog _ _ => none
  | .vTanh _ _ => none
  | .vSigmoid _ _ => none
  | .vSilu _ _ => none
  | .vErf _ _ => none
  | .vGelu _ _ => none
  | .vSin _ _ => none
  | .vCos _ _ => none
  | .vMin _ _ => none
  | .vMax _ _ => none
  | .vCmpEq _ _ => none
  | .vCmpLt _ _ => none
  | .vCmpLe _ _ => none
  | .vSelect _ _ => none
  | .vIadd _ _ => none
  | .vIsub _ _ => none
  | .vImul _ _ => none
  | .vAnd _ _ => none
  | .vOr _ _ => none
  | .vXor _ _ => none
  | .vShl _ _ => none
  | .vShr _ _ => none
  | .vSar _ _ => none
  | .vPermute _ _ => none
  | .vSumLanes _ _ => none
  | .vMaxLanes _ _ => none
  | .vMinLanes _ _ => none
  | .vCvtF2i _ _ => none
  | .vCvtI2f _ _ => none
  | .forward _ _ => none
  | .backward _ _ => none
  | .kvWalk _ _ => none
  | .append _ _ => none
  | .accept _ => none
  | .conv _ _ => none
  | .pool _ _ => none
  | .cropResize _ _ => none
  | .send _ _ => none
  | .ret _ => none
  | .allReduce _ => none
  | .reduceScatter _ => none
  | .allGather _ => none
  | .allToAll _ => none
  | .scatterAdd _ _ => none
  | .topk _ _ => none
  | .telltale _ _ => none
  | .reelStage _ _ => none
  | .link _ _ => none
  | .stepEnd _ _ => none
  | .hitchFetch _ _ _ => none
  | .hitchEmit _ _ _ => none
  | .positionSwitch _ _ _ => none
  | .hitchComplete _ _ _ => none
  | .knotTimeout _ _ => none
  | .stepStart _ _ => none
  | .stepCommit _ _ => none
  | .stepReplay _ _ => none
  | .stepAbandon _ _ => none
  | .stepBuild _ _ => none
  | .refillTick _ => none
  | .pageManager _ _ => none
  | .pageMove _ _ => none
  | .heldFlush _ _ => none
  | .fairleadRequest _ _ _ => none
  | .fairleadGrant _ _ _ => none
  | .transferDone _ _ _ _ => none
  | .backoffEnd _ _ _ => none
  | .starvation _ _ _ => none
  | .slotTableSwitch _ _ _ => none
  | .lineRead _ _ _ => none
  | .lineWrite _ _ _ _ _ => none
  | .correctionWriteback _ => none
  | .blockRetire _ _ _ => none
  | .patrolRead _ _ _ => none
  | .scrubRead _ _ => none
  | .scratchWriteback _ _ => none
  | .packetTransmit _ _ _ => none
  | .data _ _ _ => none
  | .epochHold _ _ => none
  | .refuse _ _ _ => none
  | .ackPacket _ _ _ => none
  | .bulkTimeout _ _ => none
  | .dispatchRow _ _ => none
  | .rxExpired _ _ => none
  | .returnRow _ _ => none
  | .post _ _ => none
  | .key _ _ => none
  | .anchor _ _ => none
  | .contrib _ _ => none
  | .result _ _ => none
  | .done _ _ => none
  | .ready _ _ => none
  | .abort _ _ => none
  | .query _ _ => none
  | .messageExpired _ _ => none
  | .collectiveTimeout _ _ => none
  | .voteQueryTimeout _ _ => none
  | .kvShipPage _ _ => none
  | .linkState _ _ _ => none
  | .relayFrame _ _ _ => none
  | .linkStateSend _ => none
  | .idle _ => none
  | .credit _ _ _ _ => none
  | .ack _ _ => none
  | .replayReq _ _ => none
  | .sync _ _ _ _ _ _ => none
  | .keepalive _ _ _ _ => none
  | .hello _ _ _ => none
  | .ackSend _ _ => none
  | .keepaliveSend _ _ => none
  | .syncSend _ _ => none
  | .uncorrectableCodeword _ _ => none
  | .errLimitExceeded _ _ => none
  | .codewordLoss _ _ => none
  | .portSignalDetect _ _ => none
  | .trainingDone _ _ => none
  | .lock _ _ => none
  | .portStateTimeout _ _ => none
  | .portRetry _ _ => none
  | .ptpSync _ _ _ => none
  | .ptpSourceSwitch _ => none
  | .ptpHoldover _ => none
  | .gclActivate _ _ => none
  | .pictureStart _ _ _ => none
  | .pictureDone _ _ _ => none
  | .bufferWaitTimeout _ _ _ => none
  | .watchdog _ _ _ => none
  | .packRotation _ _ => none
  | .packTestEnd _ _ _ => none
  | .scoreDecay _ _ _ => none
  | .bandClassify _ _ _ => none
  | .sensorSample _ _ _ _ => none
  | .sensorSplit _ _ => none
  | .sensorFail _ _ _ => none
  | .thermalShutdown _ => none
  | .coolantHot _ => none
  | .reefBoundary _ => none
  | .rotation _ _ => none
  | .marginReplan _ _ => none
  | .wakeOnAccess _ _ _ => none
  | .quiesceEnd _ _ => none
  | .drainTimeout _ _ => none
  | .saveDone _ _ => none
  | .domainReady _ _ _ _ => none
  | .brownout _ _ _ => none
  | .portSilent _ _ => none
  | .commanderLost _ => none
  | .leaseLapse _ => none
  | .seize _ => none
  | .coilPreload _ => none
  | .stepHoldLead _ => none
  | .datapathSwitch _ => none
  | .mgmtResume _ => none
  | .mgmtStartTimeout _ => none
  | .confirmOverdue _ => none
  | .inputQualified _ _ => none
  | .inputRange _ _ => none
  | .inputShutdown _ _ => none
  | .pwrgd _ => none
  | .resetNLow _ => none
  | .resetNHigh _ => none
  | .trayLatch _ _ => none
  | .aelpo _ _ => none
  | .coil _ _ _ => none
  | .wake _ => none
  | .memory _ _ _ => none
  | .init _ => none
  | .selfTest _ _ _ => none
  | .links _ => none
  | .identity _ => none
  | .state _ => none
  | .thermal _ => none
  | .power _ => none
  | .trustWrite _ _ _ => none
  | .alertResponse _ => none
  | .hostLinkUp _ _ => none
  | .hostLinkDown _ _ => none
  | .inputOk _ _ => none
  | .relayReply _ _ => none
  | .pdelayInterval _ _ => none
  | .gateIntervalEnd _ _ => none
  | .recoveryResetTimeout _ _ => none
  | .debugOpen _ => none

end Sys2Proof
end

