-- ==== Sys2Proof/Certificates/Slice0/Obligations.lean ====
section
/-! DEFINITION. The statements for the provers. -/

open Sys2Proof Sys2Proof.Machine

/-- The command in front of the queue is executed on the state with the queue's rest; on an empty queue the block idles, which
is the model's choice (log entry 30). -/
def Obligations.StepRunsFrontCommand : Prop :=
  (∀ (c : Instr) (rest : List Instr) (s : State), step { s with pending := c :: rest } = exec c { s with pending := rest }) ∧
    ∀ s : State, s.pending = [] → step s = .next s

/-- The machine at t0 of the first start (R566). The value 0 of bytes that nothing has written, and of registers without a stated
reset value, is the model's choice (log entries 3 and 17). -/
def Obligations.ResetState : Prop :=
  State.reset.pending = [] ∧ State.reset.now = 0 ∧ State.reset.start.qualified = true ∧ State.reset.start.pwrgd = true ∧
  State.reset.start.phase = 1 ∧ State.reset.start.failed = false ∧ State.reset.sent = [] ∧ State.reset.Inv ∧
  State.reset.lease.holder = 0 ∧ State.reset.lease.epoch = 0 ∧ State.reset.held = false ∧
  State.reset.security.gen = 0 ∧ State.reset.security.jobKeys = [] ∧ State.reset.security.trust = [] ∧
  (∀ a, State.reset.reg a = resetOf a) ∧ (∀ a, bget State.reset.mem a = 0) ∧ (∀ u k, State.reset.ownByte u k = 31) ∧
  (∀ p, State.reset.exists_ p = false) ∧ (∀ i, State.reset.session i = none) ∧ (∀ n, (State.reset.dom n).state = .off) ∧
  (∀ st, State.reset.strand st = Strand.empty) ∧ ∀ p, (State.reset.port p).state = 0

/-- Every step keeps the byte store in its one canonical form (log entry 4). -/
def Obligations.StepKeepsMemoryCanonical : Prop :=
  ∀ s t : State, s.Inv → step s = .next t → t.Inv

/-- No command, a restart or a loss of power included, lowers the lanyard epoch (R498), the boot count or the module generation
counter (R478, R567). -/
def Obligations.FlashCountsNeverFall : Prop :=
  ∀ s t : State, step s = .next t →
    s.lease.epoch ≤ t.lease.epoch ∧ s.security.bootCount ≤ t.security.bootCount ∧ s.security.gen ≤ t.security.gen

/-- Module time never decreases (R429) at any command but PWRGD, from which it counts anew (R566). -/
def Obligations.TimeNeverRunsBack : Prop :=
  ∀ s t : State, step s = .next t → (∀ c ∈ s.pending.head?, c.restartsTime = false) → s.now ≤ t.now

/-- A step counter moves at no command but a commit, the creation or end of its partition, a role assignment with START_STEP, a
START_STEP register's commit, and the loss or return of power (R106, R509). -/
def Obligations.StepCountersMoveOnlyAtCommits : Prop :=
  ∀ s t : State, step s = .next t → (∀ c ∈ s.pending.head?, c.movesCounter = false) →
    ∀ p, (t.part p).step.counter = (s.part p).step.counter

/-- What a command leaves unchanged: the queue, and every field of State that Instr.touches does not list for it. -/
def Obligations.CommandFrames : Prop :=
  ∀ (i : Instr) (s t : State), exec i s = .next t → SameBut i.touches s t

/-- The counter of free values, which is the model's own (log entry 8), never goes back, and a step takes one command off the
queue. -/
def Obligations.FreeValuesAreTakenOnce : Prop :=
  ∀ s t : State, step s = .next t → s.fresh ≤ t.fresh ∧ t.pending = s.pending.tail

/-- A command that admission refuses (R413, R506, R412, R570), or that has become stale in its queue (R500), changes nothing but
what its refusal counts and its reply, which is not kept (R412, R499). -/
def Obligations.RefusedCommandsDoNothing : Prop :=
  ∀ (i : Instr) (s u : State) (h : CmdHdr) (code st : Nat) (x : Session), i.opcode = some (h, code) → u = s.tick h.t →
    u.update.paused = none → u.session h.session = some x →
    (x.queue.any (fun q => q.seq == h.seq) = false ∧ u.refusal h.session h.epoch code = some st ∨
      x.queue.any (fun q => q.seq == h.seq) = true ∧ (x.queue.map fun q => q.seq).headD h.seq = h.seq ∧
        u.stale h.session h.epoch = true ∧ st = stStaleEpoch) →
    exec i s = .next ((u.countRefusal code st).answer h.session h.seq st (u.refusalData code st) false)

/-- The answer to an executed command (R415). -/
def Obligations.RepliesAreKept : Prop :=
  ∀ (s : State) (n seq st : Nat) (data : List Byte) (x : Session), s.session n = some x → mget x.via seq = none →
    ∃ t, s.reply n seq st data = t ∧
      t.session n = some { x with replies := ({ seq := seq, status := st, data := data } :: x.replies).take 64,
                                  queue := x.queue.filter fun f => f.seq != seq } ∧
      (∀ m, m ≠ n → t.session m = s.session m) ∧
      t.sent = .reply n { seq := seq, status := st, data := data } :: s.sent ∧
      SameBut [.sessions, .update, .sent] s t

/-- A hitch that has executed stands in its queue as done with its status (R124, R130); nothing else changes. -/
def Obligations.FinishedHitchesAreDone : Prop :=
  ∀ (s : State) (r : Run) (st digest : Nat), (∃ e ∈ (s.strand r.st).queue, e.id = r.e.id) →
    (s.finish r st digest).doneWith r = some st ∧
    (∃ f : QEntry → QEntry, ((s.finish r st digest).strand r.st) = { s.strand r.st with queue := (s.strand r.st).queue.map f } ∧
      ∀ e, (f e).id = e.id ∧ (f e).word = e.word ∧ (f e).phase = if e.id = r.e.id then .done st else e.phase) ∧
    (∀ j, j ≠ r.st → (s.finish r st digest).strand j = s.strand j) ∧ SameBut [.strands] s (s.finish r st digest)

/-- The floating-point operations of the vector unit (R86, R87, R122). -/
def Obligations.VectorFloatOperations : Prop :=
  (∀ e ∈ ([(.vSqrt, 0x05, fsqrt), (.vRcp, 0x06, frcp), (.vRsqrt, 0x07, frsqrt), (.vExp2, 0x08, fexp2), (.vLog2, 0x09, flog2),
      (.vExp, 0x0A, fexp), (.vLog, 0x0B, flog), (.vTanh, 0x0C, ftanh), (.vSigmoid, 0x0D, fsigmoid), (.vSilu, 0x0E, fsilu),
      (.vErf, 0x0F, ferf), (.vGelu, 0x10, fgelu), (.vSin, 0x11, fsin), (.vCos, 0x12, fcos), (.vCvtF2i, 0x40, cvtF2i),
      (.vCvtI2f, 0x41, cvtI2f)] : List ((Fin 128 → Upset → Instr) × Nat × (Nat → Nat × Nat))),
    ∀ (s t : State) (st : Fin 128) (u : Upset) (r : Run), s.starts st.val 0x08 (isVop e.2.1) u r t → u.residue = false →
      ∃ v, exec (e.1 st u) s = .next v ∧ r.vecDone t v fun i => e.2.2 (t.lane st.val (fld r.w 0x10 20 16) i)) ∧
  (∀ e ∈ ([(.vAdd, 0x00, fadd), (.vSub, 0x01, fsub), (.vMul, 0x02, fmul), (.vDiv, 0x04, fdiv), (.vMin, 0x18, fmin),
      (.vMax, 0x19, fmax), (.vCmpEq, 0x1A, fcmp Num.eqv), (.vCmpLt, 0x1B, fcmp Num.lt),
      (.vCmpLe, 0x1C, fcmp fun x y => x.lt y || x.eqv y)] : List ((Fin 128 → Upset → Instr) × Nat × (Nat → Nat → Nat × Nat))),
    ∀ (s t : State) (st : Fin 128) (u : Upset) (r : Run), s.starts st.val 0x08 (isVop e.2.1) u r t → u.residue = false →
      ∃ v, exec (e.1 st u) s = .next v ∧ r.vecDone t v fun i => e.2.2 (t.lane st.val (fld r.w 0x10 20 16) i)
        (if flag r.w 0x14 8 then fld r.w 0x18 31 0 else t.lane st.val (fld r.w 0x10 28 24) i)) ∧
  ∀ (s t : State) (st : Fin 128) (u : Upset) (r : Run), s.starts st.val 0x08 (isVop 0x03) u r t → u.residue = false →
    ∃ v, exec (.vFma st u) s = .next v ∧ r.vecDone t v fun i => ffma (t.lane st.val (fld r.w 0x10 20 16) i)
      (if flag r.w 0x14 8 then fld r.w 0x18 31 0 else t.lane st.val (fld r.w 0x10 28 24) i) (t.lane st.val (fld r.w 0x14 4 0) i)

/-- The integer and cross-lane operations of the vector unit (R86, R88, R122). -/
def Obligations.VectorIntegerAndCrossLaneOperations : Prop :=
  (∀ e ∈ ([(.vIadd, 0x20, fun a b => (a + b) % 2 ^ 32), (.vIsub, 0x21, fun a b => (a + (2 ^ 32 - b)) % 2 ^ 32),
      (.vImul, 0x22, fun a b => a * b % 2 ^ 32), (.vAnd, 0x23, fun a b => (a &&& b) % 2 ^ 32),
      (.vOr, 0x24, fun a b => (a ||| b) % 2 ^ 32), (.vXor, 0x25, fun a b => (a ^^^ b) % 2 ^ 32),
      (.vShl, 0x26, fun a b => a * 2 ^ (b % 32) % 2 ^ 32), (.vShr, 0x27, fun a b => a / 2 ^ (b % 32) % 2 ^ 32),
      (.vSar, 0x28, fun a b => twos 32 (sext 32 a / (2 ^ (b % 32) : Nat)) % 2 ^ 32)] :
        List ((Fin 128 → Upset → Instr) × Nat × (Nat → Nat → Nat))),
    ∀ (s t : State) (st : Fin 128) (u : Upset) (r : Run), s.starts st.val 0x08 (isVop e.2.1) u r t → u.residue = false →
      ∃ v, exec (e.1 st u) s = .next v ∧ r.vecDone t v fun i => (e.2.2 (t.lane st.val (fld r.w 0x10 20 16) i)
        (if flag r.w 0x14 8 then fld r.w 0x18 31 0 else t.lane st.val (fld r.w 0x10 28 24) i), 0)) ∧
  (∀ (s t : State) (st : Fin 128) (u : Upset) (r : Run), s.starts st.val 0x08 (isVop 0x1D) u r t → u.residue = false →
    ∃ v, exec (.vSelect st u) s = .next v ∧ r.vecDone t v fun i =>
      (if t.lane st.val (fld r.w 0x14 4 0) i ≠ 0 then t.lane st.val (fld r.w 0x10 20 16) i
        else if flag r.w 0x14 8 then fld r.w 0x18 31 0 else t.lane st.val (fld r.w 0x10 28 24) i, 0)) ∧
  (∀ (s t : State) (st : Fin 128) (u : Upset) (r : Run), s.starts st.val 0x08 (isVop 0x30) u r t → u.residue = false →
    ∃ v, exec (.vPermute st u) s = .next v ∧ r.vecDone t v fun i => (t.lane st.val (fld r.w 0x10 20 16)
      ((if flag r.w 0x14 8 then fld r.w 0x18 31 0 else t.lane st.val (fld r.w 0x10 28 24) i) % 256), 0)) ∧
  ∀ e ∈ ([(.vSumLanes, 0x38, fadd), (.vMaxLanes, 0x39, fmax), (.vMinLanes, 0x3A, fmin)] :
      List ((Fin 128 → Upset → Instr) × Nat × (Nat → Nat → Nat × Nat))),
    ∀ (s t : State) (st : Fin 128) (u : Upset) (r : Run), s.starts st.val 0x08 (isVop e.2.1) u r t → u.residue = false →
      ∃ v, exec (e.1 st u) s = .next v ∧
        r.vecDone t v fun _ => treeLanes e.2.2 8 (t.lanes st.val (fld r.w 0x10 20 16)) 0

/-- The read of one byte after a store; every address space lies in the one store (log entry 4). -/
def Obligations.StoresTouchTheirBytesOnly : Prop :=
  ∀ (s : State) (a b : Nat) (bs : List Byte),
    bget (s.poke a bs).mem b = (if a ≤ b ∧ b < a + bs.length then bs.getD (b - a) 0 else bget s.mem b) ∧
    (s.poke a bs).peek a bs.length = bs ∧ SameBut [.mem] s (s.poke a bs)

/-- The hitches between scratch, registers and memory (R85, R122, R123, R130, R464). -/
def Obligations.ScratchHitchesComplete : Prop :=
  (∀ (s t : State) (st : Fin 128) (u : Upset) (r : Run) (f : Fmt) (a : Nat), s.starts st.val 0x09 (fun _ => true) u r t →
    u.residue = false → vmemFmt (fld r.w 0x10 11 8) = some f → a = fld r.w 0x14 20 0 → a + 32 * f.width ≤ 0x200000 →
    ∃ d, exec (.vload st u) s = .next ((t.setLanes r.st (fld r.w 0x10 4 0) ((upTo 256).map fun i =>
      widen f (elemAt f.width (t.peekLe (scratchBase r.st + a) (32 * f.width)) i))).finish r stOk d)) ∧
  (∀ (s t : State) (st : Fin 128) (u : Upset) (r : Run) (f : Fmt) (a : Nat) (es : List (Nat × Nat)),
    s.starts st.val 0x0A (fun _ => true) u r t →
    u.residue = false → vmemFmt (fld r.w 0x10 11 8) = some f → a = fld r.w 0x14 20 0 → a + 32 * f.width ≤ 0x200000 →
    hRound r.w = 0 → es = ((upTo 256).map fun i => narrow f (hSat r.w) .rne (t.lane r.st (fld r.w 0x10 4 0) i)) →
    ∃ d, exec (.vstore st u) s = .next (((t.put (scratchBase r.st + a) (packElems f.width (es.map Prod.fst))).arith r.st
      (flagsOf es)).finish r stOk d)) ∧
  (∀ (s t : State) (st : Fin 128) (u : Upset) (r : Run) (fs fd : Fmt) (n a b c row : Nat) (es : List (Nat × Nat)),
    s.starts st.val 0x0B (fun _ => true) u r t → u.residue = false → hRound r.w = 0 → flag r.w 0x24 12 = false →
    convertSrc (fld r.w 0x24 3 0) (flag r.w 0x24 4) = some fs → convertDst (fld r.w 0x24 11 8) false = some fd →
    n = fld r.w 0x20 20 0 → a = fld r.w 0x10 20 0 → b = fld r.w 0x14 20 0 → c = fld r.w 0x18 20 0 →
    a + packedBytes fs.width n ≤ 0x200000 → c + packedBytes fd.width n ≤ 0x200000 →
    (flag r.w 0x24 4 = true → b + n / 32 ≤ 0x200000) → row = t.peekLe (scratchBase r.st + a) (packedBytes fs.width n) →
    es = ((upTo n).map fun i => fd.encode (hSat r.w && (flag r.w 0x24 4 || !(exactInto fs fd))) .rne
      (if flag r.w 0x24 4 then
        (fs.decode true (elemAt fs.width row i)).scaled
          (((upTo (n / 32)).map fun k => t.peekLe (scratchBase r.st + (b + k)) 1).getD (i / 32) 0)
      else fs.decode false (elemAt fs.width row i))) →
    ∃ d, exec (.convert st u) s = .next (((t.put (scratchBase r.st + c) (packElems fd.width (es.map Prod.fst))).arith r.st
      (if flag r.w 0x24 4 && ((upTo (n / 32)).map fun k => t.peekLe (scratchBase r.st + (b + k)) 1).contains 0xFF then
        orBits (flagsOf es) flagScale else flagsOf es)).finish r stOk d)) ∧
  (∀ (s t : State) (st : Fin 128) (u : Upset) (r : Run) (sp dp a b n : Nat), s.starts st.val 0x10 (fun _ => true) u r t →
    sp = fld r.w 0x24 1 0 → dp = fld r.w 0x24 3 2 → sp ≤ 1 → dp ≤ 1 → a = fld r.w 0x10 63 0 → b = fld r.w 0x18 63 0 →
    n = fld r.w 0x20 24 0 → inSpace sp a n = true → inSpace dp b n = true →
    ∃ d, exec (.move st u) s = .next ((t.put (r.place dp b) (t.peek (r.place sp a) n)).finish r stOk d)) ∧
  (∀ (s t v : State) (st : Fin 128) (u : Upset) (r : Run) (sp a pitch rows n entry : Nat),
    s.starts st.val 0x38 (fun _ => true) u r t → sp = fld r.w 0x10 23 23 → a = fld r.w 0x10 22 0 →
    pitch = 16 * fld r.w 0x14 15 0 → rows = fld r.w 0x14 22 16 + 1 → n = fld r.w 0x18 13 0 → entry = fld r.w 0x20 63 0 →
    inSpace sp (rowsEnd a pitch rows n) 0 = true → t.pmaOk r.p entry 16 = true → t.mirror r = false →
    t.storeP (some r.die) r.p entry (toLe 8 (crc64 (toLe 4 (fld r.w 0x1C 31 0) ++
      (upTo rows).flatMap fun i => t.peek (r.place sp (a + i * pitch)) n)) ++
      toLe 4 ((t.step r.p).counter % 2 ^ 32) ++ toLe 4 (fld r.w 0x1C 31 0)) u.mem = (stOk, v) →
    ∃ d, exec (.telltale st u) s = .next (v.finish r stOk d)) ∧
  ∀ (s t v : State) (st : Fin 128) (r : Run), s.issue st.val 0x00 (fun _ => true) = some (r, t) →
    v = (t.modStrand st.val fun x => { x with queue := x.queue.filter fun e => e.id != r.e.id }).inc
      (Reg.strHitchDoneCount st.val) →
    exec (.nop st) s = .next (((v.complete r.p r.g r.e.pos r.e.index st.val r.e.word stOk).markHead st.val).noteHeld r.p r.g)

/-- The matrix hitches (R48, R76, R78, R83, R118 to R121). -/
def Obligations.MatrixHitchesComplete : Prop :=
  (∀ (s t v : State) (st : Fin 128) (u : Upset) (r : Run) (c : MatJob), s.starts st.val 0x01 (fun _ => true) u r t →
    c = MatJob.of r.w → t.stepsBefore r c.clear + c.k ≤ 1048576 → c.inRange = true → c.rd = false → u.accBad = false →
    v = (t.matmulStep r c).bump (Reg.strAccEccCorrCount r.st) u.accCorr →
    exec (.matmul st u) s = .next ((v.setAcc r.st (((v.strand r.st).acc).upset u)).finish r stOk 0)) ∧
  (∀ (s t v w : State) (st : Fin 128) (u : Upset) (r : Run) (k m n : Nat) (fa fb : Fmt) (rowsA rowsB : List (List Machine.Num)) (a : Acc),
    s.starts st.val 0x01 (fun _ => true) u r t → flag r.w 0x2C 30 = false → flag r.w 0x2C 20 = false → flag r.w 0x2C 28 = false →
    flag r.w 0x2C 29 = true → u.accBad = false → k = fld r.w 0x28 20 0 → k ≤ 1048576 → m = fld r.w 0x2C 6 0 + 1 →
    n = fld r.w 0x2C 14 8 + 1 → operandFmt (fld r.w 0x2C 19 16) false = some fa → operandFmt (fld r.w 0x2C 27 24) false = some fb →
    inSpace (fld r.w 0x10 31 31) (rowsEnd (fld r.w 0x10 22 0) (16 * fld r.w 0x20 15 0) m (packedBytes fa.width k)) 0 = true →
    inSpace 0 (rowsEnd (fld r.w 0x18 20 0) (16 * fld r.w 0x20 31 16) n (packedBytes fb.width k)) 0 = true →
    rowsA = ((upTo m).map fun i => (upTo k).map fun c => fa.decode false (elemAt fa.width (t.peekLe
      (r.place (fld r.w 0x10 31 31) (fld r.w 0x10 22 0 + i * (16 * fld r.w 0x20 15 0))) (packedBytes fa.width k)) c)) →
    rowsB = ((upTo n).map fun j => (upTo k).map fun c => fb.decode false (elemAt fb.width (t.peekLe
      (r.place 0 (fld r.w 0x18 20 0 + j * (16 * fld r.w 0x20 31 16))) (packedBytes fb.width k)) c)) →
    a = foldS (fun (a : Acc) kk => a.stepK (rowsA.map fun x => x.getD kk Machine.Num.zero) (rowsB.map fun x => x.getD kk Machine.Num.zero))
      Acc.empty (upTo k) →
    v = ((t.setAcc r.st { a with kLen := k }).macBusy r.st ((if k = 0 then 0 else 8) +
      (k * laneQuarter fa fb false false + 3) / 4)).bump (Reg.strAccEccCorrCount r.st) u.accCorr →
    w = v.setAcc r.st (((v.strand r.st).acc).upset u) →
    exec (.matmul st u) s = .next (w.finish r stOk 0)) ∧
  (∀ (s t v w : State) (st : Fin 128) (u : Upset) (r : Run) (c : MatJob) (a : Acc) (x : List (Nat × List Byte) × Nat),
    s.starts st.val 0x01 (fun _ => true) u r t → c = MatJob.of r.w → t.stepsBefore r c.clear + c.k ≤ 1048576 →
    c.inRange = true → c.rd = true → v = t.matmulStep r c → a = ((v.strand r.st).acc).upset u →
    (c.clear = true ∧ arrayIntact u ∨ a.passes = true ∧ u.accBad = false) →
    w = ((v.setAcc r.st a).noteLost r (a.lostOf c.n)).accCounted r.st a u →
    x = a.readout c.m c.n c.fo c.mxo (hSat r.w) (w.rounding r 0 (c.m * c.n)) (r.place 0 c.out) c.ostr (r.place 0 c.oscale) c.osst →
    exec (.matmul st u) s = .next ((((w.usedRandom r (c.m * c.n)).putAll x.1).arith r.st x.2).finish r
      (if a.lostOf c.n then stExactLost else stOk) (writesDigest x.1))) ∧
  (∀ (s t v : State) (st : Fin 128) (u : Upset) (r : Run) (a : Acc), s.starts st.val 0x02 (fun _ => true) u r t →
    fld r.w 0x10 31 0 + 229392 ≤ 0x200000 → a = ((t.strand r.st).acc).upset u → a.passes = true → u.accBad = false →
    v = ((t.setAcc r.st a).macBusy r.st 117).accCounted r.st a u →
    exec (.accSave st u) s = .next ((v.put (scratchBase r.st + fld r.w 0x10 31 0) a.saveForm).finish r stOk (crc64 a.saveForm))) ∧
  ∀ (s t : State) (st : Fin 128) (u : Upset) (r : Run) (a : Acc), s.starts st.val 0x03 (fun _ => true) u r t →
    fld r.w 0x10 31 0 + 229392 ≤ 0x200000 → parseSave (t.peek (scratchBase r.st + fld r.w 0x10 31 0) 229392) = some a →
    ({ a.upset u with nonFinite := [] } : Acc).passes = true → u.accBad = false →
    exec (.accRestore st u) s = .next ((((t.setAcc r.st (a.upset u)).macBusy r.st 117).accCounted r.st
      { a.upset u with nonFinite := [] } u).finish r stOk 0)

/-- The hitches whose effect is a whole computation (R205, R222, R293, R296, R303, R305, R344, R351, R354): each gives its status,
the telltale of what it wrote, and a state that differs from the one before in few fields. -/
def Obligations.LargeHitchesComplete : Prop :=
  (∀ (s t : State) (st : Fin 128) (u : Upset) (r : Run), s.starts st.val 0x18 (fun w => fld w 0x10 1 0 == 0)
      { u with scratchCorr := [], scratchBad := none, eccBad := false } r t →
    ∃ x d v, t.attnRun r u false = (x, d, v) ∧ exec (.forward st u) s = .next (v.finish r x d) ∧
      SameBut (.fresh :: hitchFields ++ readFields) t v ∧ (t.attnGood r false → u = Upset.none → x = stOk ∨ x = stExactLost)) ∧
  (∀ (s t : State) (st : Fin 128) (u : Upset) (r : Run), s.starts st.val 0x18 (fun w => fld w 0x10 1 0 == 1)
      { u with scratchCorr := [], scratchBad := none, eccBad := false } r t →
    ∃ x d v, t.attnRun r u true = (x, d, v) ∧ exec (.backward st u) s = .next (v.finish r x d) ∧
      SameBut (.fresh :: hitchFields ++ readFields) t v ∧ (t.attnGood r true → u = Upset.none → x = stOk ∨ x = stExactLost)) ∧
  (∀ (s t : State) (st : Fin 128) (u : Upset) (r : Run) (c : ConvJob) (a : Acc), s.starts st.val 0x20 (fun _ => true) u r t →
    c = t.convJob r → a = (((t.convStep r c).strand r.st).acc).upset u →
    ∃ x d v, t.convBody r u = (x, d, v) ∧ exec (.conv st u) s = .next (v.finish r x d) ∧
      SameBut [.fresh, .regs, .mem, .strands] t v ∧
      (inScratch (fld r.w 0x28 20 0) 64 = true → c.status (t.stepsBefore r c.clear) = stOk → u.accBad = false →
        c.rd = false ∨ c.clear = true ∧ arrayIntact u ∨ a.passes = true → x = stOk ∨ c.rd = true ∧ x = stExactLost)) ∧
  (∀ (s t : State) (st : Fin 128) (u : Upset) (r : Run), s.starts st.val 0x21 (fun _ => true) u r t →
    ∃ x d v, t.poolBody r u = (x, d, v) ∧ exec (.pool st u) s = .next (v.finish r x d) ∧ SameBut [.fresh, .regs, .mem, .strands] t v ∧
      (inScratch (fld r.w 0x1C 20 0) 64 = true → (t.poolJob r).status = stOk → u.residue = false → x = stOk)) ∧
  (∀ (s t : State) (st : Fin 128) (u : Upset) (r : Run), s.starts st.val 0x22 (fun _ => true) u r t →
    ∃ x d v, t.cropBody r u = (x, d, v) ∧ exec (.cropResize st u) s = .next (v.finish r x d) ∧
      SameBut (.fresh :: .video :: hitchFields ++ readFields) t v ∧
      (t.cropGood r → u.mem = [] → u.residue = false → x = stOk)) ∧
  (∀ (s t : State) (st : Fin 128) (u : Upset) (r : Run), s.starts st.val 0x31 (fun _ => true) u r t → u.residue = false →
    ∃ x d v, t.topkBody r = (x, d, v) ∧ exec (.topk st u) s = .next (v.finish r x d) ∧ SameBut [.fresh, .regs, .mem, .strands] t v ∧
      (inScratch (rowsEnd (fld r.w 0x10 20 0) (16 * fld r.w 0x20 15 0) (fld r.w 0x18 15 0) (4 * fld r.w 0x14 12 0)) 0 = true →
        inScratch (fld r.w 0x1C 20 0) (fld r.w 0x18 15 0 * (fld r.w 0x14 19 16 + 1) * 4) = true → x = stOk)) ∧
  (∀ (s t : State) (st : Fin 128) (u : Upset) (r : Run) (n k d : Nat) (f : Fmt), s.starts st.val 0x30 (fun _ => true) u r t →
    u.residue = false → n = fld r.w 0x28 15 0 → k = fld r.w 0x28 19 16 + 1 → d = fld r.w 0x24 11 0 →
    f = (Fmt.ofCode (fld r.w 0x10 7 4)).getD .bf16 →
    ∃ x g v, t.scatterBody r = (x, g, v) ∧ exec (.scatterAdd st u) s = .next (v.finish r x g) ∧ SameBut [.fresh, .regs, .mem, .strands] t v ∧
      (inSpace (fld r.w 0x10 3 3) (fld r.w 0x14 22 0) (n * k * (d * f.width / 8)) = true →
        inScratch (fld r.w 0x18 20 0) (4 * n * k) = true →
        inScratch (fld r.w 0x1C 20 0) ((if fld r.w 0x10 1 0 = 0 then 14 else 4) * n * d) = true →
        (flag r.w 0x10 2 = true → inScratch (fld r.w 0x20 20 0)
          (n * packedBytes ((Fmt.ofCode (fld r.w 0x24 19 16)).getD .fp32).width d) = true) →
        (fld r.w 0x10 1 0 = 0 → ∀ i < n, (rawRow (t.peek (r.place 0 (fld r.w 0x1C 20 0 + 14 * i * d)) (14 * d)) d).isSome = true) →
        x = stOk ∨ fld r.w 0x10 1 0 = 0 ∧ x = stExactLost)) ∧
  (∀ (s t : State) (st : Fin 128) (u : Upset) (r : Run), s.starts st.val 0x28 (fun w => !(flag w 0x10 0)) u r t →
    ∃ x d v, t.sendBody r u = (x, d, v) ∧ exec (.send st u) s = .next (v.finish r x d) ∧ SameBut (hitchFields ++ readFields ++ [.thermo]) t v ∧
      (t.sendGood r → u.mem = [] → x = stOk)) ∧
  ∀ (s t : State) (st : Fin 128) (u : Upset) (r : Run), s.starts st.val 0x28 (fun w => flag w 0x10 0) u r t →
    ∃ x d v, t.returnBody r u = (x, d, v) ∧ exec (.ret ⟨st, u⟩) s = .next (v.finish r x d) ∧ SameBut (hitchFields ++ readFields) t v ∧
      (t.returnGood r → u.mem = [] → x = stOk)

/-- The hitches of the KV and serving engines and of the control core (R115, R116, R235, R241, R242, R280). -/
def Obligations.ServingAndControlHitchesComplete : Prop :=
  (∀ (s t : State) (st : Fin 128) (u : Upset) (r : Run) (c bytes n slot : Nat) (x : Chain) (rows : List Byte),
    s.starts st.val 0x1A (fun w => fld w 0x10 31 30 == 0) u r t → fld r.w 0x10 21 0 < (t.part r.p).chainSize →
    c = (t.part r.p).chainBase + fld r.w 0x10 21 0 → x = t.chain c →
    bytes = rowPitch (codeWidth x.fmt) (32 * (x.d32 + 1)) + scaleBytes x.mx (32 * (x.d32 + 1)) →
    n = bightSlots (codeWidth x.fmt) x.mx (32 * (x.d32 + 1)) →
    fld r.w 0x18 20 0 + bytes ≤ 0x200000 → fld r.w 0x1C 20 0 + bytes ≤ 0x200000 → t.mirror r = false → x.state = .opened →
    fld r.w 0x14 20 0 = x.len + (t.entriesOf c).length → (t.entriesOf c).length < 16 → t.freeGroup r.die r.p n = some slot →
    rows = t.peek (r.place 0 (fld r.w 0x18 20 0)) bytes ++ t.peek (r.place 0 (fld r.w 0x1C 20 0)) bytes →
    ∃ v, v = (t.poke (bightBase r.die + 256 * slot) (rows.take bytes)).poke (bightBase r.die + 256 * slot + 128 * n)
        (rows.drop bytes) ∧
      exec (.append st u) s = .next (({ v with kv := { v.kv with
        bight := v.kv.bight ++ ([{ die := r.die, slot := slot, n := n, part := r.p, chain := c, position := fld r.w 0x14 20 0,
                                   state := .pending }] : List Bight) } }).finish r stOk (crc64 rows))) ∧
  (∀ (s t : State) (st : Fin 128) (r : Run) (q : Nat), s.starts st.val 0x1A (fun w => fld w 0x10 31 30 == 1) Upset.none r t →
    q = (t.part r.p).seqBase + fld r.w 0x10 17 0 → t.mirror r = false →
    mget t.kv.accepts (acceptKey r.p (fld r.w 0x10 17 0)) = none →
    (fld r.w 0x10 17 0 < (t.part r.p).seqSize → ∀ c ∈ t.seqChains q, fld r.w 0x14 4 0 ≤ (t.entriesIn c .pending).length) →
    exec (.accept st) s = .next (({ t with kv := { t.kv with
      accepts := mput t.kv.accepts (acceptKey r.p (fld r.w 0x10 17 0)) (fld r.w 0x14 4 0) } }).finish r stOk 0)) ∧
  (∀ (s t v w : State) (st : Fin 128) (u : Upset) (r : Run) (q n slot : Nat) (e : BatchEntry) (es : List BatchEntry)
      (bs : List Byte) (pairs : List (Nat × Nat)), s.starts st.val 0x39 (fun _ => true) u r t →
    fld r.w 0x10 17 0 < (t.part r.p).seqSize → q = (t.part r.p).seqBase + fld r.w 0x10 17 0 → n = fld r.w 0x14 4 0 →
    fld r.w 0x18 20 0 + 8 * n ≤ 0x200000 → t.mirror r = false → es = mgetD t.serve.batch r.p [] →
    es.find? (fun e => e.seq == q) = some e → e.stop = false → e.staged.length + n ≤ 16 → e.staged.length + n ≤ e.tokens →
    bs = t.peek (r.place 0 (fld r.w 0x18 20 0)) (8 * n) →
    pairs = ((upTo n).map fun k => (leAt bs (8 * k) 4, leAt bs (8 * k + 4) 4)) →
    slot = (es.findIdx fun e => e.seq == q) * 576 + 64 + 0x40 + 32 * e.staged.length →
    t.memGood r.p → t.pmaOk r.p (nget t.serve.batchAt r.p + slot) (32 * n) = true →
    v = (t.storeP (some r.die) r.p (nget t.serve.batchAt r.p + slot)
      (pairs.flatMap fun x => toLe 4 1 ++ toLe 4 x.1 ++ toLe 12 0 ++ toLe 4 x.2 ++ toLe 8 0) []).2 →
    w = v.modEntry r.p q (fun e => { e with staged := e.staged ++ pairs, stop := flag r.w 0x15 0 }) →
    exec (.reelStage st u) s = .next ((({ w with serve := { w.serve with
      staged := w.serve.staged + n, inStage := w.serve.inStage + n } }).bump (Reg.srvStagedCount r.die) n).finish r stOk (crc64 bs))) ∧
  (∀ (s t v : State) (g : Fin 16) (pos : Fin 8) (i p x : Nat) (w : HitchWord), s.headHitch g.val pos.val = some (i, w) →
    s.partOf g.val = some p → hOpcode w = 0x19 → s.preStatus p g.val w (walkBad w || i == lastIndex) = stOk →
    s.controlReady p g.val pos.val w (hOrder w) = true →
    (∀ j ∈ s.walk ((s.part p).chainBase + fld w 0x10 21 0), ∀ m ∈ s.kv.moves, m.source ≠ j) →
    t = s.takeWait p (s.strandFor g.val pos.val) w → t.walkBody p (dieOf g.val) w (t.mirrorHank p g.val) = (x, v) →
    exec (.kvWalk g pos) s = .next ((v.popHitch g.val pos.val).complete p g.val pos.val i (v.strandFor g.val pos.val) w x)) ∧
  (∀ (s : State) (g : Fin 16) (pos : Fin 8) (i p : Nat) (w : HitchWord), s.headHitch g.val pos.val = some (i, w) →
    s.partOf g.val = some p → hOpcode w = 0x3C → s.malformed p g.val i w = false →
    s.controlReady p g.val pos.val w (hOrder w) = true → s.pmaOk p (fld w 0x10 63 0) 64 = true →
    exec (.link g pos) s = .next ((s.popHitch g.val pos.val).modPos g.val pos.val fun x =>
      { x with next := fld w 0x10 63 0, ended := false })) ∧
  ∀ (s : State) (g : Fin 16) (pos : Fin 8) (i p : Nat) (w : HitchWord), s.headHitch g.val pos.val = some (i, w) →
    s.partOf g.val = some p → hOpcode w = 0x3D → s.malformed p g.val i w = false →
    s.controlReady p g.val pos.val w true = true →
    exec (.stepEnd g pos) s = .next ((((s.takeWait p (s.strandFor g.val pos.val) w).popHitch g.val pos.val).modPos g.val pos.val
      fun x => { x with finished := true }).checkReady p)

/-- A collective starts (R387 to R393). -/
def Obligations.CollectivesStart : Prop :=
  ∀ e ∈ ([(.allReduce, 0), (.reduceScatter, 1), (.allGather, 2), (.allToAll, 3)] : List ((HitchRun → Instr) × Nat)),
    ∀ (s t : State) (st : Fin 128) (u : Upset) (r : Run) (c : Coll), (s.engine (st.val / 32)).colls.length < 16 →
      s.issue st.val 0x29 (fun w => collOp w == e.2) = some (r, t) → t.keyless r.p = false → t.mirror r = false →
      u.eccBad = false → u.mem = [] → fld r.w 0x10 21 16 < t.colForce r.p 1 →
      (t.step r.p).collIds.contains (4 * fld r.w 0x14 31 0 + r.die) = false → t.groupGood r → c = t.collOf st.val r →
      t.collRanges c = true →
      ∃ v j x : State, SameBut [.regs, .units, .ctls] t v ∧ v.self = t.self ∧ exec (e.1 ⟨st, u⟩) s = .next (x.advanceColl r.die r.p c.id) ∧
        (j.engine r.die).colls = (v.engine r.die).colls ++ [c] ∧
        (j.step r.p).collIds = (4 * c.id + r.die) :: (t.step r.p).collIds ∧
        (c.exact = false → x = foldS (fun s k => s.collSend c k 1 0 0 false []) j c.others) ∧
        ∀ ks, c.exact = true → (j.allKeys c []).1 = some ks → x = (j.allKeys c []).2.sendKeys c ks

/-- The lease commands (R499, R500, R501, R503, R505, R507, R509). A former holder that acquires again counts as a grant (log
entry 51). -/
def Obligations.LeaseCommandsComplete : Prop :=
  (∀ (s u : State) (h : CmdHdr) (sendTime n : Nat), s.runs h 0x0300 u → n = u.cmdNow h.session h.seq →
    ∃ v : State, exec (.heartbeat h sendTime) s = .next (v.reply h.session h.seq stOk
        (toLe 8 u.now ++ toLe 4 v.lease.epoch ++ toLe 4 v.lease.holder ++ toLe 8 v.lease.expiry ++ toLe 4 u.gblState ++
          toLe 4 u.ecron.directory.length)) ∧
      v = if u.lease.holder ≠ 0 ∧ u.lease.holder = h.session ∧ cycleStart n < u.lease.expiry then
          { u with lease := { u.lease with
            expiry := n + 1000000 * u.lease.duration, lastHb := n, lost := false, roleLast := n,
            roleDuration := u.lease.duration, grace := u.reg Reg.lnySeizeGrace % 4096 } }
        else u) ∧
  (∀ (s u : State) (h : CmdHdr) (leaseMs n ms : Nat), s.runs h 0x0301 u → n = u.cmdNow h.session h.seq →
    (leaseMs = 0 ∧ ms = u.reg Reg.lnyLeaseDefault % 2048 ∨ 50 ≤ leaseMs ∧ leaseMs ≤ 2000 ∧ ms = leaseMs) →
    u.lease.holder ≠ 0 → u.lease.holder = h.session → cycleStart n < u.lease.expiry →
    exec (.leaseAcquire h leaseMs) s = .next (({ u with lease := { u.lease with
      duration := ms, expiry := n + 1000000 * ms, roleDuration := ms } }).reply h.session h.seq stOk
        (toLe 4 u.lease.epoch ++ toLe 4 0 ++ toLe 8 (n + 1000000 * ms)))) ∧
  (∀ (s u v : State) (h : CmdHdr) (leaseMs n ms : Nat), s.runs h 0x0301 u → n = u.cmdNow h.session h.seq →
    (leaseMs = 0 ∧ ms = u.reg Reg.lnyLeaseDefault % 2048 ∨ 50 ≤ leaseMs ∧ leaseMs ≤ 2000 ∧ ms = leaseMs) →
    (u.lease.holder = 0 ∨ u.lease.expiry ≤ cycleStart n) → h.epoch = u.lease.epoch →
    v = { u with lease := { u.lease with
      epoch := u.lease.epoch + 1, holder := h.session, duration := ms, expiry := n + 1000000 * ms, armed := true,
      lastHb := n, lost := false, roleLast := n, roleDuration := ms, grace := u.reg Reg.lnySeizeGrace % 4096 } } →
    ∃ w, w = (((v.modHostPort 0 fun x => { x with lastHb := some n, silentSent := false }).modHostPort 1
          fun x => { x with lastHb := some n, silentSent := false }).inc Reg.lnyAcquireCount).eventC 18 stOk h.session
          (toLe 4 (u.lease.epoch + 1) ++ toLe 4 0 ++ toLe 8 (n + 1000000 * ms)) ∧
      exec (.leaseAcquire h leaseMs) s = .next (w.reply h.session h.seq stOk
        (toLe 4 (u.lease.epoch + 1) ++ toLe 4 0 ++ toLe 8 (n + 1000000 * ms)))) ∧
  (∀ (s u : State) (h : CmdHdr) (n : Nat), s.runs h 0x0302 u → n = u.cmdNow h.session h.seq → u.holdsAt h.session n = true →
    exec (.leaseRelease h) s = .next (({ u with lease := { u.lease with expiry := n } }).reply h.session h.seq stOk [])) ∧
  (∀ (s u v w : State) (h : CmdHdr) (a : RoleAssign), s.runs h 0x0303 u → a.role < 0xFFFF → a.holderModule < 256 →
    a.holderPart < 16 → a.formerModule < 256 → (a.formerPart < 16 ∨ a.formerPart = 0xFF) → a.holderModule ≠ u.self →
    (∀ r, mget u.ecron.directory a.role = some r → r.epoch < a.epoch) →
    v = { u with
      ecron := { u.ecron with
        directory := mput u.ecron.directory a.role { modNum := a.holderModule, part := a.holderPart, epoch := a.epoch } } } →
    w = v.raisePeer a.holderModule a.holderPart a.epoch →
    exec (.roleAssign h a) s = .next ((if a.formerModule = 0xFF ∨ a.formerPart = 0xFF then w
      else w.raisePeer a.formerModule a.formerPart a.epoch).reply h.session h.seq stOk
        (toLe 4 a.epoch ++ toLe 1 a.holderModule ++ toLe 1 a.holderPart))) ∧
  ∀ (s u : State) (h : CmdHdr), s.runs h 0x0304 u → u.holdsAt h.session (u.cmdNow h.session h.seq) = true → h.epoch = u.lease.epoch →
    u.thermo.shut = false → u.lease.seized = true →
    ∃ v, exec (.seizeRelease h) s = .next (v.reply h.session h.seq stOk []) ∧ v.lease = { u.lease with seized := false } ∧
      (∀ p < 16, (v.step p).mode = 0 ∧ (v.step p).modeNext = none ∧ (v.step p).counter = (u.step p).counter ∧
        (v.step p).phase = (u.step p).phase) ∧ SameBut [.lease, .parts] u v

/-- The events of time in the lease block (R498, R503, R505, R506). -/
def Obligations.LeaseEventsComplete : Prop :=
  (∀ (s u : State) (port : Fin 2) (t : Nat), u = s.tick t → 5 ≤ u.misses port.val → u.misses (1 - port.val) < 5 →
    (u.hostPort port.val).silentSent = false → u.update.paused = none →
    exec (.portSilent port t) s = .next ((u.modHostPort port.val fun x => { x with silentSent := true }).eventC 17 stOk port.val [])) ∧
  (∀ (s u : State) (t : Nat), u = s.tick t → u.lease.holder ≠ 0 → u.lease.lost = false → 5 ≤ u.misses 0 → 5 ≤ u.misses 1 →
    u.update.paused = none →
    exec (.commanderLost t) s = .next ((({ u with lease := { u.lease with lost := true } }).inc Reg.lnyLostCount).eventC 16 stOk
      u.lease.holder (toLe 4 u.lease.epoch ++ toLe 4 0 ++ toLe 8 u.lease.expiry))) ∧
  (∀ (s : State) (t : Nat), s.lease.expiry ≤ t →
    exec (.leaseLapse t) s = .next (s.tick t) ∧ (s.tick t).held = false) ∧
  ∀ (s u : State) (t : Nat), u = s.tick t → u.lease.seized = false → u.lease.armed = true →
    u.lease.roleLast + 1000000 * (u.lease.roleDuration + u.lease.grace) ≤ u.now → u.update.paused = none → u.update.stamps = [] →
    ∃ v w, v = (foldS (fun (s : State) p => if s.commitRuns p then s else s.stopStep p false)
        { u with lease := { u.lease with seized := true } } (upTo 16)).eventAll 19 stOk 0 [] ∧ w = v.fsr (v.record 16 none) ∧
      exec (.seize t) s = .next (w.inc Reg.lnySeizeCount)

/-- Receipt of a command frame (R412, R413, R415): what happens once the port has passed it. -/
def Obligations.FramesJoinTheirQueue : Prop :=
  ∀ (s u v : State) (port : Fin 2) (f : HFrame) (t sid : Nat) (x : Session),
    u = s.tick t → u.hostUp port.val = true → u.update.paused = none → u.portTake port.val f u.now = (true, v) →
    f.version = 1 → f.reserved = false → f.reply = false → f.event = false → f.length = f.params.length → f.length ≤ 1440 →
    f.length % 4 = 0 → (f.relay = true → f.modNum = v.self) → frameSession f = some sid → f.opcode ≠ 0x0002 →
    v.session sid = some x → f.tagKey = x.key →
    (∀ w, w = v.modSession sid (fun x => { x with window := x.window.enter f.seq, via := mset x.via f.seq none }) →
      x.window.dup f.seq = false → x.window.late f.seq = false → x.queue.length < 64 →
      (w.frameRefusal sid f = none →
        exec (.hawserFrame port f t) s = .next (w.modSession sid fun x => { x with queue := x.queue ++ [f] })) ∧
      (∀ st, w.frameRefusal sid f = some st →
        exec (.hawserFrame port f t) s = .next ((w.countRefusal f.opcode st).answer sid f.seq st
          (w.refusalData f.opcode st) false))) ∧
    (∀ r, x.window.dup f.seq = true → x.replies.find? (fun r => r.seq == f.seq) = some r → v.update.paused = none →
      exec (.hawserFrame port f t) s = .next ((v.inc Reg.hstDupCount).sendReply sid none r)) ∧
    (x.window.dup f.seq = false → x.window.late f.seq = true →
      exec (.hawserFrame port f t) s = .next (v.inc Reg.hstLateCount))

/-- Receipt of a frame at a host port (R412, R417, R418, R503). -/
def Obligations.PortsDropWhatTheyMust : Prop :=
  ∀ (s u : State) (p : Fin 2) (f : HFrame) (t : Nat), u = s.tick t → u.hostUp p.val = true → u.update.paused = none →
    (f.fcsOk = false →
      exec (.hawserFrame p f t) s = .next ((u.inc (Reg.hstPortRxCount p.val)).inc (Reg.hstPortFcsCount p.val))) ∧
    (f.fcsOk = true → f.rtag = none → exec (.hawserFrame p f t) s = .next (u.inc (Reg.hstPortRxCount p.val))) ∧
    ∀ tag v, f.fcsOk = true → f.rtag = some tag → f.vid = bits ((u.inc (Reg.hstPortRxCount p.val)).reg Reg.hstCtrl) 27 16 →
      v = (if f.opcode = 0x0300 ∧ f.session = 0 ∧ f.commander = u.lease.holder ∧ u.lease.holder ≠ 0
        then (u.inc (Reg.hstPortRxCount p.val)).modHostPort p.val fun x => { x with lastHb := some u.now, silentSent := false }
        else u.inc (Reg.hstPortRxCount p.val)) →
      (∀ q, mget v.recoveries (streamOf f) = some q → -32 < tagDelta tag q.high → tagDelta tag q.high < 32 → tag ∈ q.taken →
        exec (.hawserFrame p f t) s = .next (State.inc { v with recoveries := mput v.recoveries (streamOf f) q }
          (Reg.hstPortCbElimCount p.val))) ∧
      (mget v.recoveries (streamOf f) = none → bit (v.reg Reg.hstCtrl) 2 = true → v.qciFilter f = none →
        exec (.hawserFrame p f t) s = .next (State.inc
          { v with recoveries := mput v.recoveries (streamOf f) { high := tag, taken := [tag], at_ := v.now } }
          (Reg.hstPortQciDropCount p.val)))

/-- Module time from PTP (R428, R429). -/
def Obligations.ModuleTimeFollowsItsPort : Prop :=
  (∀ (s u v : State) (p : Fin 2) (offset : Int) (t : Nat), u = s.tick t →
    v = u.modHostPort p.val (fun x => { x with syncAt := some u.now, offset := offset }) →
    (p = 1 → v.syncValid 0 = true → exec (.ptpSync p offset t) s = .next v) ∧
    ((p = 0 ∨ v.syncValid 0 = false) →
      (v.ptp.state = 0 →
        ∃ w, w = State.modHostPort { v with
            now := v.now + offset.toNat
            ptp := { state := 1, port := p.val, slew := min offset 0, lastSync := v.now + offset.toNat } } p.val
            (fun x => { x with syncAt := some (v.now + offset.toNat) }) ∧
          exec (.ptpSync p offset t) s = .next { w with
            serve := { w.serve with lastRefill := w.now / 1000000 * 1000000 } }) ∧
      (v.ptp.state ≠ 0 → v.ptp.port = p.val → 1000000 < offset →
        ∃ w, w = State.modHostPort { v with
            now := v.now + offset.toNat
            ptp := { state := 1, port := p.val, slew := 0, lastSync := v.now + offset.toNat } } p.val
            (fun x => { x with syncAt := some (v.now + offset.toNat) }) ∧
          exec (.ptpSync p offset t) s = .next (((w.refill).inc Reg.hstPtpStepCount).eventC 6 stOk (1 + 4 * p.val)
            (toLe 8 offset.toNat))) ∧
      (v.ptp.state ≠ 0 → ¬(v.ptp.port = p.val ∧ 1000000 < offset) →
        exec (.ptpSync p offset t) s = .next { v with ptp := { state := 1, port := p.val, slew := offset, lastSync := v.now } }))) ∧
  (∀ (s u : State) (t : Nat), u = s.tick t → u.ptp.state ≠ 0 → u.ptp.port = 0 → u.syncValid 0 = false →
    exec (.ptpSourceSwitch t) s = .next { u with ptp := { u.ptp with port := 1, slew := (u.hostPort 1).offset } }) ∧
  ∀ (s u : State) (t : Nat), u = s.tick t → u.ptp.state = 1 →
    (∀ p < 2, ∀ a, (u.hostPort p).syncAt = some a → a + 2000000000 ≤ u.now) →
    exec (.ptpHoldover t) s = .next { u with ptp := { u.ptp with state := 2 } }

/-- The events and commands of the Hawser ports (R408, R411, R414, R416 to R418). -/
def Obligations.HostEventsComplete : Prop :=
  (∀ (s u : State) (h : CmdHdr) (data : List Byte), s.runs h 0x0001 u →
    exec (.echo h data) s = .next (u.reply h.session h.seq stOk data)) ∧
  (∀ (s u : State) (h : CmdHdr) (n : Nat), s.runs h 0x0005 u →
    exec (.eventAck h n) s = .next ((u.modSession h.session fun x =>
      { x with events := x.events.filter fun e => n < e.num }).reply h.session h.seq stOk [])) ∧
  (∀ (s u : State) (sid t : Nat) (x : Session), u = s.tick t → u.session sid = some x → u.update.paused = none →
    exec (.eventResend sid t) s = .next (foldS (fun s e => s.send (.event sid { e with sentAt := u.now }))
      (u.modSession sid fun x =>
        { x with events := x.events.map fun e => if e.sentAt + 100000000 ≤ u.now then { e with sentAt := u.now } else e })
      (x.events.filter fun e => e.sentAt + 100000000 ≤ u.now))) ∧
  (∀ (s u : State) (f : HFrame) (src t : Nat), u = s.tick t → u.lease.seized = false → u.update.paused = none →
    exec (.relayFrame f src t) s = .next (u.headerTake (some src) f none)) ∧
  (∀ (s u : State) (f : HFrame) (t : Nat), u = s.tick t → u.lease.seized = false →
    u.hostUp 0 = true → u.hostUp 1 = true →
    exec (.relayReply f t) s = .next ((u.send (.frame 0 f)).send (.frame 1 f))) ∧
  (∀ (s u : State) (p : Fin 2) (t : Nat), u = s.tick t → bit (u.reg Reg.hstCtrl) p.val = true → 3 ≤ u.start.phase →
    (u.dom (52 + p.val)).state = .on →
    exec (.hostLinkUp p t) s = .next (u.modHostPort p.val fun x => { x with linkUp := true, fecLock := true })) ∧
  (∀ (s u : State) (p : Fin 2) (t : Nat), u = s.tick t →
    exec (.hostLinkDown p t) s = .next (u.modHostPort p.val fun x => { x with linkUp := false, fecLock := false })) ∧
  (∀ (s u : State) (p : Fin 2) (t : Nat) (on : Bool) (list : List (Nat × Nat)) (cycle start : Nat), u = s.tick t →
    (u.hostPort p.val).gateWait = some (on, list, cycle, start) → start ≤ u.now →
    exec (.gclActivate p t) s = .next (u.modHostPort p.val fun x =>
      { x with gateOn := on, gateList := list, gateCycle := cycle, gateStart := start, gateEntry := 0, gateWait := none })) ∧
  (∀ (s u : State) (p : Fin 2) (t : Nat) (x : HostPort), u = s.tick t → x = u.hostPort p.val → x.gateOn = true →
    x.gateStart + ((x.gateList.take (x.gateEntry + 1)).map fun e => 8 * e.2).sum ≤ u.now →
    exec (.gateIntervalEnd p t) s = .next (u.modHostPort p.val fun y =>
      if x.gateEntry + 1 < x.gateList.length then { y with gateEntry := x.gateEntry + 1 }
      else { y with gateEntry := 0, gateStart := x.gateStart + x.gateCycle })) ∧
  (∀ (s u : State) (p : Fin 2) (t : Nat), u = s.tick t → u.hostUp p.val = true → (u.hostPort p.val).pdelayAt + 1000000000 ≤ u.now →
    exec (.pdelayInterval p t) s = .next ((u.modHostPort p.val fun x => { x with pdelayAt := u.now }).send (.pdelay p.val))) ∧
  ∀ (s u : State) (stream t : Nat) (r : Recovery), u = s.tick t → mget u.recoveries stream = some r → r.at_ + 100000000 ≤ u.now →
    exec (.recoveryResetTimeout stream t) s = .next { u with recoveries := mdel u.recoveries stream }

/-- Reading and writing ranges of registers (R421). -/
def Obligations.RegisterCommandsCoverConsecutiveWords : Prop :=
  (∀ (s u : State) (h : CmdHdr) (addr n k : Nat) (i : Instr), s.runs h 0x0100 u →
    (i = .regRead h addr n ∧ k = 0 ∨ i = .rcRead h addr k ∧ n = 1 ∨ i = .latchRead h addr ∧ n = 1 ∧ k = 0) → 1 ≤ n → n ≤ 360 →
    ((∃ j < n, u.access h.session (addr + 4 * j) false ≠ stOk) →
      exec i s = .next (u.reply h.session h.seq stAddrInvalid [])) ∧
    ((∀ j < n, u.access h.session (addr + 4 * j) false = stOk) → ∃ x : Nat → State,
      x 0 = foldS (fun s j => (s.reachReg (addr + 4 * j)).accrue (addr + 4 * j)) u (upTo n) ∧
      (∀ j < n, x (j + 1) = ((x j).readWord h.session (addr + 4 * j) k).2) ∧
      exec i s = .next ((x n).reply h.session h.seq stOk
        ((upTo n).flatMap fun j => toLe 4 ((x j).readWord h.session (addr + 4 * j) k).1)))) ∧
  ∀ (s u : State) (h : CmdHdr) (addr k : Nat) (ws : List Nat) (i : Instr), s.runs h 0x0101 u →
    ((∃ vs : List Word, i = .regWrite h addr vs ∧ ws = vs.map (fun v => v.toNat) ∧ k = 0) ∨
      (∃ v : Word, ws = [v.toNat] ∧ k = 0 ∧
        (i = .registerWrite h addr v ∨ i = .auditSnapshot h addr v ∨ i = .splCommit h v ∧ addr = Reg.splCommit)) ∨
      ∃ v c : Word, i = .w1cClear h addr v c ∧ ws = [v.toNat] ∧ k = c.toNat) →
    1 ≤ ws.length → ws.length ≤ 358 →
    (∀ j < ws.length, u.access h.session (addr + 4 * j) true ≠ stOk →
      (∀ m < j, u.access h.session (addr + 4 * m) true = stOk) →
      exec i s = .next (u.reply h.session h.seq (u.access h.session (addr + 4 * j) true) [])) ∧
    ((∀ j < ws.length, u.access h.session (addr + 4 * j) true = stOk) → ∃ x : Nat → State,
      x 0 = foldS (fun s j => s.reachReg (addr + 4 * j)) u (upTo ws.length) ∧
      (∀ j < ws.length, x (j + 1) = ((x j).writeWord h.session (addr + 4 * j) (ws.getD j 0) k).2) ∧
      exec i s = .next ((x ws.length).reply h.session h.seq
        ((((upTo ws.length).map fun j => ((x j).writeWord h.session (addr + 4 * j) (ws.getD j 0) k).1).find?
          (fun st => st != stOk)).getD stOk) []))

/-- Module time as two words (R24). -/
def Obligations.CoherentModuleTime : Prop :=
  ∀ (s u : State) (h : CmdHdr) (x : Session), s.runs h 0x0100 u → isCommander h.session = true → u.session h.session = some x →
    u.frozen h.session Reg.gblTimeLo = none → u.frozen h.session Reg.gblTimeHi = none →
    ∃ v, v = u.modSession h.session (fun x => { x with latches := nput x.latches Reg.gblTimeHi (u.now / 2 ^ 32 % 2 ^ 32) }) ∧
      exec (.latchRead h Reg.gblTimeLo) s = .next (v.reply h.session h.seq stOk (toLe 4 (u.now % 2 ^ 32))) ∧
      exec (.regRead h Reg.gblTimeHi 1) s = .next (u.reply h.session h.seq stOk (toLe 4 (nget x.latches Reg.gblTimeHi))) ∧
      exec (.regRead h Reg.gblTimeLo 2) s = .next (v.reply h.session h.seq stOk (toLe 8 (u.now % 2 ^ 64)))

/-- REG_MODIFY (R422). -/
def Obligations.ModifyIsOneStep : Prop :=
  ∀ (s u v : State) (h : CmdHdr) (addr old : Nat) (mask value new : Word) (r : RegRow) (ix : List Nat), s.runs h 0x0102 u →
    u.access h.session addr true = stOk → regAt addr = some (r, ix) → v = u.reachReg addr → old = v.seenReg h.session addr →
    old < 2 ^ 32 → new = (BitVec.ofNat 32 old &&& ~~~mask) ||| (value &&& mask) →
    (mask.toNat &&& rwMask r ix ≠ mask.toNat →
      exec (.regModify h addr mask value) s = .next (u.reply h.session h.seq stMalformed [])) ∧
    (mask.toNat &&& rwMask r ix = mask.toNat → ∀ st w, v.writeWord h.session addr new.toNat 0 = (st, w) →
      exec (.regModify h addr mask value) s = .next (w.reply h.session h.seq st (if st = stOk then toLe 4 old else []))) ∧
    (mask.toNat &&& rwMask r ix = mask.toNat → r.access = .rw → groupAt r ix = none →
      v.writeSingle addr (new.toNat &&& writeMask r ix) r ix = (stOk, v.setReg (homeAddr r ix addr) (new.toNat &&& writeMask r ix)) →
      ∃ w, exec (.regModify h addr mask value) s = .next (w.reply h.session h.seq stOk (toLe 4 old)) ∧
        w.reg (homeAddr r ix addr) = new.toNat &&& writeMask r ix ∧ (∀ a, a ≠ homeAddr r ix addr → w.reg a = v.reg a) ∧
        SameBut [.regs] v w)

/-- Single words (R10, R21, R24, R29, R70, R424). -/
def Obligations.OneWordWritesAndCounterReads : Prop :=
  (∀ (s u v : State) (h : CmdHdr) (addr m : Nat) (value : Word) (r : RegRow) (ix : List Nat), s.runs h 0x0101 u →
    u.access h.session addr true = stOk → regAt addr = some (r, ix) → v = u.reachReg addr → m = value.toNat &&& writeMask r ix →
    ((r.access = .ro ∨ r.access = .rc) →
      exec (.registerWrite h addr value) s = .next (v.reply h.session h.seq stOk [])) ∧
    (r.access = .rw → (groupAt r ix).isSome = true →
      exec (.registerWrite h addr value) s = .next ((v.modSession h.session fun x =>
        { x with shadow := mput x.shadow (homeAddr r ix addr) m }).reply h.session h.seq stOk [])) ∧
    ((r.access = .rw ∧ groupAt r ix = none ∨ r.access = .wo ∧ r.base ≠ 0x20000) →
      r.base ∉ [0x28, 0x1010, 0x1018, 0x10208, 0x30004, 0x30100, 0x4000C, 0x40010, 0x40014, 0x50004, 0x70020, 0x8000C, 0x80010,
        0x80028, 0x90004, 0x120004, 0x9000C, 0x12000C, 0xA3004, 0x127004, 0xB1000, 0xB0020, 0xB103C, 0xC0020, 0xC103C,
        0xE001C, 0xE0004, 0xE0008, 0xE000C, 0xF0010, 0x110180, 0x111000, 0x1008000] →
      exec (.registerWrite h addr value) s = .next ((v.setReg (homeAddr r ix addr) m).reply h.session h.seq stOk []))) ∧
  (∀ (s u v : State) (h : CmdHdr) (addr : Nat) (value events : Word) (r : RegRow) (ix : List Nat), s.runs h 0x0101 u →
    u.access h.session addr true = stOk → regAt addr = some (r, ix) → v = u.reachReg addr → r.access = .w1c → r.base ≠ 0x110100 →
    exec (.w1cClear h addr value events) s = .next ((v.setReg addr
      ((v.reg addr &&& (0xFFFFFFFF - (value.toNat &&& writeMask r ix))) ||| (events.toNat &&& r.mask))).reply h.session h.seq stOk [])) ∧
  ∀ (s u v : State) (h : CmdHdr) (addr events : Nat) (r : RegRow) (ix : List Nat), s.runs h 0x0100 u →
    u.access h.session addr false = stOk → regAt addr = some (r, ix) → v = (u.reachReg addr).accrue addr → r.access = .rc →
    v.frozen h.session addr = none →
    exec (.rcRead h addr events) s = .next ((v.setReg (homeAddr r ix addr) (min events 0xFFFFFFFF)).reply h.session h.seq stOk
      (toLe 4 (v.seenReg h.session addr)))

/-- Audit snapshots (R27, R28, R257, R288, R382). -/
def Obligations.SnapshotsFreezeTheirCounters : Prop :=
  ∀ (s u v : State) (h : CmdHdr) (addr home off : Nat) (value : Word) (r : RegRow) (ix : List Nat), s.runs h 0x0101 u →
    u.access h.session addr true = stOk → regAt addr = some (r, ix) → v = u.reachReg addr → r.access = .rw → groupAt r ix = none →
    r.base ∈ [0xB0020, 0xB103C, 0xC0020, 0xC103C, 0xE001C] → home = homeAddr r ix addr → r.mask % 2 = 1 →
    off = (if r.base = 0xB103C ∨ r.base = 0xC103C then partSnap else 0) →
    (value.toNat % 2 = 1 → v.reg home % 2 = 1 → exec (.auditSnapshot h addr value) s = .next (v.reply h.session h.seq stOk [])) ∧
    (value.toNat % 2 = 1 → v.reg home % 2 ≠ 1 → ∃ w x : State, x = w.setReg home 1 ∧
      exec (.auditSnapshot h addr value) s = .next ((x.auditSnap r.base (ix.headD 0) (ix.getD 1 0)).reply h.session h.seq stOk []) ∧
      (∀ a ∈ snapAddrs r.base (ix.headD 0) (ix.getD 1 0), ∀ q, regAt a = some q →
        mget w.snaps (off + a) = some (v.showRow 0 q.1 q.2 a)) ∧
      (∀ k, (∀ a ∈ snapAddrs r.base (ix.headD 0) (ix.getD 1 0), k ≠ off + a) → mget w.snaps k = mget v.snaps k) ∧
      SameBut [.snaps, .serve] v w) ∧
    (value.toNat % 2 = 0 → ∃ w : State,
      exec (.auditSnapshot h addr value) s = .next ((w.setReg home 0).reply h.session h.seq stOk []) ∧
      (∀ a ∈ snapAddrs r.base (ix.headD 0) (ix.getD 1 0), mget w.snaps (off + a) = none) ∧
      (∀ k, (∀ a ∈ snapAddrs r.base (ix.headD 0) (ix.getD 1 0), k ≠ off + a) → mget w.snaps k = mget v.snaps k) ∧
      SameBut [.snaps, .serve] v w)

/-- Commits (R424, R425, R433). -/
def Obligations.CommitsInstallOrDiscard : Prop :=
  ∀ (s u v w : State) (h : CmdHdr) (value : Word) (kind inst : Nat) (x : Session) (c : Nat → Nat), s.runs h 0x0101 u →
    u.access h.session Reg.splCommit true = stOk → v = u.reachReg Reg.splCommit → v.session h.session = some x →
    kind = value.toNat % 256 → inst = value.toNat / 256 % 256 →
    c = (fun a => (mget (mkeep x.shadow fun a _ => groupOf a == some (kind, inst)) a).getD (v.reg a)) →
    (∀ g, groupTable.find? (fun g => g.kind == kind && decide (inst < g.count)) = some g → isCommander h.session = true ∨
        g.part = true ∧ (kind = 1 ∧ inst ∈ (v.part (h.session - 16)).hanks ∨ kind ≠ 1 ∧ inst = h.session - 16) →
      (v.groupOk kind inst c = true → w = foldS (fun s (e : Nat × Nat) => s.setReg e.1 e.2) v
          (mkeep x.shadow fun a _ => groupOf a == some (kind, inst)) →
        exec (.splCommit h value) s = .next (((w.installed kind inst c).modSession h.session fun x => { x with
          splResult := stOk + 65536 * kind + 2 ^ 24 * inst
          shadow := mkeep x.shadow fun a _ => groupOf a != some (kind, inst) }).reply h.session h.seq stOk [])) ∧
      (v.groupOk kind inst c = false →
        exec (.splCommit h value) s = .next ((v.modSession h.session fun x => { x with
          splResult := stSpliceConflict + 65536 * kind + 2 ^ 24 * inst
          shadow := mkeep x.shadow fun a _ => groupOf a != some (kind, inst) }).reply h.session h.seq stSpliceConflict []))) ∧
    (groupTable.find? (fun g => g.kind == kind && decide (inst < g.count)) = none →
      exec (.splCommit h value) s = .next ((v.modSession h.session fun x => { x with
        splResult := stMalformed + 65536 * kind + 2 ^ 24 * inst }).reply h.session h.seq stMalformed []))

/-- Partition memory through Hawser (R148, R149, R157, R160, R423). -/
def Obligations.MemoryReadsBackWhatWasWritten : Prop :=
  (∀ (s u x y : State) (h : CmdHdr) (pma part p un off last : Nat) (data : List Byte) (partial_ : List Nat), s.runs h 0x0111 u →
    p = (if isCommander h.session = true then part else h.session - 16) → p < 16 → 1 ≤ data.length → data.length ≤ 1424 →
    last = pma + data.length - 1 →
    (u.pmaOk p pma data.length = false →
      exec (.memWrite h pma data part) s = .next (u.reply h.session h.seq stAddrInvalid [])) ∧
    (u.pmaOk p pma data.length = true → unitOf pma = some (un, off) → x = u.reach (unitDom un) 0xC1 →
      partial_ = (if pma % 64 ≠ 0 ∨ pma / 64 = last / 64 ∧ last % 64 ≠ 63 then [pma / 64 * 64] else []) ++
        (if last / 64 ≠ pma / 64 ∧ last % 64 ≠ 63 then [last / 64 * 64] else []) →
      x.checkLines (partial_.filterMap fun a => x.mpaOf p a) [] = (stOk, y) →
      ∃ v, exec (.memWrite h pma data part) s = .next (v.reply h.session h.seq stOk []) ∧
        (∀ i m, ∀ hi : i < data.length, x.mpaOf p (pma + i) = some m →
          (∀ j, i < j → j < data.length → x.mpaOf p (pma + j) ≠ some m) → bget v.mem m = data[i]) ∧
        (∀ m, (∀ i < data.length, x.mpaOf p (pma + i) ≠ some m) → bget v.mem m = bget y.mem m) ∧
        SameBut [.mem, .units, .ctls, .errLogs, .errDropped, .regs, .sessions, .parts, .checks, .sent, .ecron] x v) ∧
    ((∀ m ∈ partial_.filterMap fun a => x.mpaOf p a, x.lineGood m) →
      ∃ y, x.checkLines (partial_.filterMap fun a => x.mpaOf p a) [] = (stOk, y) ∧ y.mem = x.mem)) ∧
  ∀ (s u x y : State) (h : CmdHdr) (pma part p un off n st : Nat), s.runs h 0x0110 u →
    p = (if isCommander h.session = true then part else h.session - 16) → p < 16 → 1 ≤ n → n ≤ 1440 →
    (u.pmaOk p pma n = false → exec (.memRead h pma n part) s = .next (u.reply h.session h.seq stAddrInvalid [])) ∧
    (u.pmaOk p pma n = true → unitOf pma = some (un, off) → x = u.reach (unitDom un) 0xC1 →
      x.readLines (x.linesOf p pma n) [] = (st, y) →
      (st ≠ stOk → exec (.memRead h pma n part) s = .next (y.reply h.session h.seq st [])) ∧
      (st = stOk → ∃ data : List Byte, data.length = n ∧
        exec (.memRead h pma n part) s = .next (y.reply h.session h.seq stOk data) ∧
        (∀ i, ∀ hi : i < data.length, ∀ m, x.mpaOf p (pma + i) = some m → data[i] = bget y.mem m))) ∧
    ((∀ m ∈ x.linesOf p pma n, x.lineGood m) → ∃ y, x.readLines (x.linesOf p pma n) [] = (stOk, y) ∧ y.mem = x.mem)

/-- Creation (R473 to R475, R489). -/
def Obligations.PartitionCreation : Prop :=
  (∀ (s u : State) (h : CmdHdr) (params : List Byte) (c : Create), s.runs h 0x0200 u → c = Create.parse params →
    (u.security.debugOpen = true ∨ c.part < 16 ∧ (u.part c.part).state ≠ .none →
      exec (.partCreate h params) s = .next (u.reply h.session h.seq stNotPermitted [])) ∧
    (u.security.debugOpen = false → (16 ≤ c.part ∨ (u.part c.part).state = .none) →
      (c.bad params = true → exec (.partCreate h params) s = .next (u.reply h.session h.seq stMalformed [])) ∧
      (c.bad params = false → u.createFull c = true →
        exec (.partCreate h params) s = .next (u.reply h.session h.seq stAdmitFull [])) ∧
      (∀ r, c.bad params = false → u.createFull c = false → u.findRuns c = some r → ∃ x v,
        exec (.partCreate h params) s = .next (v.reply h.session h.seq stOk []) ∧
        x.security.gen = u.security.gen + 1 ∧
        x.part c.part = { Part.empty with
          state := .creating, hanks := c.hanks, gen := u.security.gen + 1, tenant := c.tenant, seqBase := r.seqs,
          seqSize := c.seqs, handles := c.handles, pgHbm := 4096 * c.kvHbm, pgCt := 4096 * c.kvCt, pageBase := r.pages,
          pageBaseCt := r.ctPages, chainBase := r.chains, chainSize := c.chains, saveArea := unitBase (c.firstStack.getD 0),
          cmdSeq := h.seq, cmdSession := h.session, firstRecord := u.checks.next } ∧
        (∀ q, q ≠ c.part → x.part q = u.part q) ∧ SameBut [.regs, .owners, .parts, .kv, .security] u x ∧
        v = (x.wakeMemory c.part).shareTables ∧ (u.awake → v = x.shareTables)))) ∧
  ∀ (s u : State) (p : Fin 16) (t : Nat), u = s.tick t →
    ((u.part p.val).state ≠ .creating → exec (.partActive p t) s = .next u) ∧
    ((u.part p.val).state = .creating → ∃ v,
      exec (.partActive p t) s = .next (if (u.part p.val).destroyCmds = [] then v else v.beginDestroy p.val) ∧
      v.part p.val = { u.part p.val with state := .active } ∧
      (∀ a, bget v.mem a = if ∃ e ∈ u.allGranules p.val, unitBase e.1 + e.2 * granule ≤ a ∧ a < unitBase e.1 + e.2 * granule + granule
        then 0 else bget u.mem a) ∧
      SameBut [.regs, .mem, .owners, .parts, .units, .serve, .sessions, .snaps, .sent] u v)

/-- The end of partitions and the per-function resets (R426, R427, R490, R491). -/
def Obligations.PartitionsEnd : Prop :=
  (∀ (s u : State) (h : CmdHdr) (p : Nat), s.runs h 0x0201 u →
    (16 ≤ p → exec (.partDestroy h p) s = .next (u.reply h.session h.seq stMalformed [])) ∧
    (p < 16 → (u.part p).state = .none → exec (.partDestroy h p) s = .next (u.reply h.session h.seq stNotPermitted [])) ∧
    (p < 16 → (u.part p).state ≠ .none → ∃ v, v = u.modPart p (fun x => { x with destroyCmds := x.destroyCmds ++ [(h.session, h.seq)] }) ∧
      exec (.partDestroy h p) s = .next ((if ((u.part p).state = .active ∨ (u.part p).state = .resetting) ∧ v.commitRuns p = false
        then v.beginDestroy p else v).reply h.session h.seq stOk []))) ∧
  (∀ (s u : State) (p : Fin 16) (t : Nat), u = s.tick t → (u.part p.val).state = .whipping → ∃ v,
    exec (.whipOverwriteEnd p t) s = .next v ∧ (v.part p.val).state = .none ∧
    (∀ e ∈ v.owners, e.2 % 32 ≠ p.val) ∧
    SameBut [.regs, .mem, .owners, .strands, .dieKnots, .hanks, .parts, .units, .ctls, .errLogs, .errDropped, .ecron, .sessions, .kv,
      .serve, .dispatch, .video, .power, .security, .journals, .checks, .sent, .fresh, .hostPorts] u v) ∧
  (∀ (s u v : State) (h : CmdHdr) (p : Nat), s.runs h 0x0202 u → p < 16 → (isCommander h.session = true ∨ h.session - 16 = p) →
    v = u.modPart p (fun x => { x with resetCmds := x.resetCmds ++ [(h.session, h.seq)] }) →
    ((u.part p).state = .active → (u.part p).resetCmds = [] → v.commitRuns p = false →
      exec (.resetFunction h 1 p) s = .next (v.beginReset p)) ∧
    ((u.part p).state = .active → (u.part p).resetCmds ≠ [] ∨ v.commitRuns p = true → exec (.resetFunction h 1 p) s = .next v) ∧
    ((u.part p).state = .resetting → exec (.resetFunction h 1 p) s = .next v) ∧
    ((u.part p).state = .whipping → exec (.resetFunction h 1 p) s = .next (u.reply h.session h.seq stWhipping [])) ∧
    ((u.part p).state = .none ∨ (u.part p).state = .creating →
      exec (.resetFunction h 1 p) s = .next (u.reply h.session h.seq stNotPermitted []))) ∧
  (∀ (s u : State) (h : CmdHdr) (k : Nat), s.runs h 0x0202 u → k < 8 →
    (isCommander h.session = true ∨ u.reg (Reg.vidCoreOwner k) % 32 = h.session - 16) →
    exec (.resetFunction h 2 k) s = .next ((u.resetCore k).reply h.session h.seq stOk [])) ∧
  (∀ (s u : State) (h : CmdHdr) (d : Nat), s.runs h 0x0202 u → d < 4 → isCommander h.session = true →
    exec (.resetFunction h 3 d) s = .next ((u.resetCrop d).reply h.session h.seq stOk []) ∧
    exec (.resetFunction h 4 d) s = .next ((u.resetDispatch d).reply h.session h.seq stOk [])) ∧
  ∀ (s u v : State) (p : Fin 16) (t : Nat), u = s.tick t → (u.step p.val).stopping = true → (u.step p.val).stopAt + 10000000 ≤ u.now →
    v = foldS (fun s d => s.modEngine d fun e => { e with colls := e.colls.filter fun c => c.part != p.val }) u (upTo 4) →
    exec (.resetHitchTimeout p t) s =
      .next ((v.resetHitches (v.strandsOf p.val) [0x18, 0x1A, 0x22, 0x28, 0x29, 0x39]).stopDone p.val)

/-- Sessions and job keys (R479 to R482). The module's nonce is a free value (log entry 2). -/
def Obligations.SessionsOpenAndClose : Prop :=
  (∀ (s u w : State) (h : CmdHdr) (kind offset : Nat) (last : Bool) (data : List Byte) (o : Opening), u = s.tick h.t →
    u.update.paused = none → u.refusal h.session h.epoch 0x0002 = none → (kind = 1 → u.security.debugOpen = false) →
    o = mgetD u.security.openings h.session { window := Window.empty, kind := kind, frags := [] } →
    w = { u with security := { u.security with openings := mput u.security.openings h.session { o with frags := [] } } } →
    (last = false → exec (.sessionOpen h kind last offset data) s = .next ({ u with
        security := { u.security with
          openings := mput u.security.openings h.session { o with kind := kind, frags := o.frags ++ [(offset, data)] } } }.send
      (.reply h.session { seq := h.seq, status := stOk, data := [] }))) ∧
    (last = true → (2 ≤ kind ∨ o.kind ≠ kind ∧ o.frags ≠ [] ∨ assembled (o.frags ++ [(offset, data)]) = none) →
      exec (.sessionOpen h kind last offset data) s = .next ((w.inc Reg.secOpenFailCount).send
        (.reply h.session { seq := h.seq, status := stMalformed, data := [] }))) ∧
    ∀ b, last = true → kind < 2 → (o.kind = kind ∨ o.frags = []) → assembled (o.frags ++ [(offset, data)]) = some b →
      (requestForm kind b = false → exec (.sessionOpen h kind last offset data) s = .next ((w.inc Reg.secOpenFailCount).send
        (.reply h.session { seq := h.seq, status := stMalformed, data := [] }))) ∧
      (requestForm kind b = true → (w.authority h.session kind b = false ∨ Config.verifies (slice b 0x678 1793)
          (shake256 64 (slice b 0 0xD80 ++ headerBytes h)) (slice b 0xD80 1280) = false) →
        exec (.sessionOpen h kind last offset data) s = .next ((w.inc Reg.secOpenFailCount).send
          (.reply h.session { seq := h.seq, status := stNotPermitted, data := [] }))) ∧
      (requestForm kind b = true → w.authority h.session kind b = true → Config.verifies (slice b 0x678 1793)
          (shake256 64 (slice b 0 0xD80 ++ headerBytes h)) (slice b 0xD80 1280) = true → ∀ ss, ss = Config.decapsulate (slice b 0x30 1568) →
        (∀ nonce k v, kind = 0 → nonce = toLe 32 (Config.freeValue w.fresh) →
          k = keyOf (shake256 32 (ascii "VXK-SESS" ++ ss ++ slice b 0 32 ++ nonce ++ headerBytes h)) →
          v = { w with fresh := w.fresh + 1 }.openSession h.session k →
          exec (.sessionOpen h kind last offset data) s = .next ({ v with
              security := { v.security with
                openings := mput v.security.openings h.session { window := Window.empty, kind := kind, frags := [] } } }.send
            (.reply h.session ⟨h.seq, stOk, nonce ++ slice (shake256 32 (ascii "VXK-CONFIRM" ++ keyBytes k)) 0 32⟩)) ∧
          (∃ x, v.session h.session = some x ∧ x.key = k ∧ x.queue = [] ∧ x.replies = [])) ∧
        ∀ id p j v, kind = 1 → id = leAt b 0x20 2 → p = leAt b 0x22 1 →
          keyUnwrap (keyOf (shake256 32 (ascii "VXK-WRAP" ++ ss ++ slice b 0 32))) (slice b 0x650 40) = some j →
          (id = 0 → p = 16) → mget w.security.jobKeys id = none → w.security.jobKeys.length < 256 →
          v = { w with security := { w.security with jobKeys := mput w.security.jobKeys id (p, j) } } →
          ∃ x, x = (if leAt b 0x23 1 = 1 ∧ p < 16 then v.modPart p fun x => { x with txKey := some id } else v) ∧
            exec (.sessionOpen h kind last offset data) s = .next ({ x with
                security := { x.security with
                  openings := mput x.security.openings h.session { window := Window.empty, kind := kind, frags := [] } } }.send
              (.reply h.session ⟨h.seq, stOk, slice (shake256 32 (ascii "VXK-JOBOK" ++ keyBytes j)) 0 32⟩)))) ∧
  (∀ (s u w : State) (h : CmdHdr) (key : Nat), s.runs h 0x0003 u →
    w = (u.modSession h.session fun x => { x with closing := true }).reply h.session h.seq stOk [] →
    exec (.sessionClose h 0 key) s = .next { w with sessions := mdel w.sessions h.session }) ∧
  ∀ (s u v w : State) (h : CmdHdr) (key p : Nat) (k : Key) (q : Nat) (x : Session), s.runs h 0x0003 u → key ≤ 65534 →
    p = (if isCommander h.session = true then 16 else h.session - 16) → mget u.security.jobKeys key = some (q, k) →
    u.session h.session = some x → x.closing = false →
    (q ≠ p → exec (.sessionClose h 1 key) s = .next (u.reply h.session h.seq stNotPermitted [])) ∧
    (q = p → v = { u with security := { u.security with jobKeys := mdel u.security.jobKeys key } } →
      w = v.modPart p (fun x => if x.txKey = some key then { x with txKey := none } else x) →
      exec (.sessionClose h 1 key) s = .next (w.reply h.session h.seq stOk []))

/-- Attestation and the security settings (R484, R486, R489, R497). -/
def Obligations.ReportsAndSecuritySettings : Prop :=
  (∀ (s u : State) (h : CmdHdr) (c : List Byte) (off : Nat) (x : Session), s.runs h 0x0204 u → c.length = 32 →
    u.session h.session = some x →
    (off < Config.certChain.length → exec (.attest h c true off) s = .next (u.reply h.session h.seq stOk
      (toLe 4 Config.certChain.length ++ (Config.certChain.drop off).take 1408))) ∧
    (Config.certChain.length ≤ off → exec (.attest h c true off) s = .next (u.reply h.session h.seq stReelRange [])) ∧
    (5728 ≤ off → exec (.attest h c false off) s = .next (u.reply h.session h.seq stReelRange [])) ∧
    (off < 5728 → (x.report = [] ∨ slice x.report 0x38 32 ≠ c) → ∃ b v, b = u.buildReport h.session c ∧
      v = State.inc { u with security := { u.security with signedAt := u.now } } Reg.attReportCount ∧
      exec (.attest h c false off) s = .next ((v.modSession h.session fun x => { x with report := b }).reply h.session h.seq stOk
        (toLe 4 b.length ++ (b.drop off).take 1408))) ∧
    (off < 5728 → x.report ≠ [] → slice x.report 0x38 32 = c → exec (.attest h c false off) s = .next (u.reply h.session h.seq stOk
      (toLe 4 x.report.length ++ (x.report.drop off).take 1408)))) ∧
  (∀ (s u : State) (h : CmdHdr) (value : Word), s.writes h 0x0101 Reg.secCtrl u →
    exec (.secCtrl h value) s = .next ((u.setReg Reg.secCtrl (value.toNat % 2)).reply h.session h.seq stOk [])) ∧
  ∀ (s u : State) (t : Nat), u = s.tick t →
    (bit Config.fuses 0 = false → exec (.debugOpen t) s = .next { u with security := { u.security with debugOpen := true } }) ∧
    (bit Config.fuses 0 = true → exec (.debugOpen t) s = .next u)

/-- The writes of HNK_CTRL (R109, R142, R143, R419). -/
def Obligations.StepControlCommandsComplete : Prop :=
  (∀ (s u : State) (h : CmdHdr) (g : Fin 16) (m : BitVec 2) (p : Nat), s.writes h 0x0101 (Reg.hnkCtrl g.val) u → u.partOf g.val = some p →
    ∃ v, exec (.mode h g m) s = .next (v.reply h.session h.seq stOk []) ∧
      v.step p = (if u.stepUnderWay p = true ∨ (u.step p).trigger = true then { u.step p with modeNext := some m.toNat }
        else { u.step p with mode := m.toNat, modeNext := none }) ∧
      (∀ q, q ≠ p → v.part q = u.part q) ∧ SameBut [.parts] u v) ∧
  (∀ (s u : State) (h : CmdHdr) (g : Fin 16) (p m : Nat), s.writes h 0x0101 (Reg.hnkCtrl g.val) u → u.partOf g.val = some p →
    m = (u.step p).modeNext.getD (u.step p).mode → m < 4 →
    (∃ v, exec (.go h g) s = .next (v.reply h.session h.seq stOk []) ∧
      v.step p = (if u.stepUnderWay p = true ∨ (u.step p).trigger = true
        then { u.step p with modeNext := some m, go := decide (m = 1) || (u.step p).go }
        else { u.step p with mode := m, modeNext := none, go := decide (m = 1) || (u.step p).go }) ∧
      (∀ q, q ≠ p → v.part q = u.part q) ∧ SameBut [.parts] u v) ∧
    ∃ v, exec (.clrAbandon h g) s = .next (v.reply h.session h.seq stOk []) ∧
      (v.step p).phase = (if (u.step p).phase = .abandoned then .idle else (u.step p).phase) ∧
      (v.step p).counter = (u.step p).counter ∧ (v.step p).modeNext.getD (v.step p).mode = m ∧ (v.step p).go = (u.step p).go ∧
      (∀ q, q ≠ p → v.part q = u.part q) ∧ SameBut [.parts] u v) ∧
  (∀ (s u : State) (h : CmdHdr) (g : Fin 16) (m : BitVec 2), s.writes h 0x0101 (Reg.hnkCtrl g.val) u → u.partOf g.val = none →
    exec (.mode h g m) s = .next (u.reply h.session h.seq stOk []) ∧ exec (.go h g) s = .next (u.reply h.session h.seq stOk []) ∧
    exec (.clrAbandon h g) s = .next (u.reply h.session h.seq stOk [])) ∧
  ∀ (s u : State) (h : CmdHdr) (part p : Nat) (mode : BitVec 2) (go : Bool), s.runs h 0x0203 u →
    p = (if isCommander h.session = true then part else h.session - 16) → p < 16 →
    (u.live p = false → exec (.stepRun h part mode go) s = .next (u.reply h.session h.seq stNotPermitted [])) ∧
    (u.live p = true → ∃ v, exec (.stepRun h part mode go) s = .next (v.reply h.session h.seq stOk (toLe 8 (u.step p).counter)) ∧
      v.step p = (if u.stepUnderWay p = true ∨ (u.step p).trigger = true
        then { u.step p with modeNext := some mode.toNat, go := (go && decide (mode.toNat = 1)) || (u.step p).go }
        else { u.step p with mode := mode.toNat, modeNext := none, go := (go && decide (mode.toNat = 1)) || (u.step p).go }) ∧
      (∀ q, q ≠ p → v.part q = u.part q) ∧ SameBut [.parts] u v)

/-- The start of a step and the control cores (R101, R106 to R109, R113, R133, R134, R136, R138, R258, R576). -/
def Obligations.ControlCoresFetchEmitAndSwitch : Prop :=
  (∀ (s u a b c d : State) (p : Fin 16) (t : Nat), u = s.tick t → u.mayStart p.val = true →
    ((u.step p.val).trigger = true ∨ (u.step p.val).mode = 2 ∨ (u.step p.val).mode = 1 ∧ (u.step p.val).go = true) →
    a = u.modStep p.val (fun x =>
      { x with run := 0, phase := .running, go := false, trigger := false, blocking := none, faults := [],
               fixed := bit (u.reg Reg.gblDetCtrl) 0, paired := bit (u.reg (Reg.chkPartCtrl p.val)) 0,
               limit := bits (u.reg (Reg.chkPartCtrl p.val)) 6 4, startedAt := u.now, collective := false,
               groups := [], rotation := 0, releases := [], collIds := [], rowsSent := false }) →
    b = foldS (fun s g => (s.reach (hankDom g) 0xC1).modHank g fun h =>
      { h with progAct := s.reg64 (Reg.hnkProgLo (s.programHank p.val g)) (Reg.hnkProgHi (s.programHank p.val g)) }) a
      (a.part p.val).hanks →
    c = b.modJournal p.val (fun j => { j with force := b.journalRegs p.val }) →
    d = { c with kv := { c.kv with
      regionForce := foldS (fun m d => mput m (16 * d + p.val) (c.reg (Reg.kvpPartBightRegion d p.val))) c.kv.regionForce (upTo 4) } } →
    exec (.stepStart p t) s = .next ((d.dispatchStart p.val).beginRun p.val)) ∧
  (∀ (s u v w : State) (g : Fin 16) (t p : Nat) (e : ReadErr) (bs : List Byte), u = s.tick t → u.partOf g.val = some p →
    u.issuing p = true → (u.hank g.val).descRead = false →
    u.fetchP (some (dieOf g.val)) p (u.hank g.val).progAct 128 (u.errAt p (u.hank g.val).progAct e) = (stOk, bs, v) →
    leAt bs 0x48 4 ≤ 1 → (∀ b ∈ bs.drop 0x4C, b = 0) → leAt bs 0x40 8 % 8 = 0 → v.pmaOk p (leAt bs 0x40 8) 2048 = true →
    w = v.modHank g.val (fun h => { h with descRead := true, scratchLive := leAt bs 0x48 4 == 1, seedAddr := leAt bs 0x40 8 }) →
    exec (.hitchFetch g (.descriptor e) t) s = .next (((w.mapPositions p).takeHeads p g.val bs).checkReady p)) ∧
  (∀ (s u v : State) (g : Fin 16) (t p : Nat) (e : ReadErr) (bs : List Byte), u = s.tick t → u.partOf g.val = some p →
    u.issuing p = true → (u.hank g.val).descRead = true → (u.hank g.val).seedsRead = false →
    u.fetchP (some (dieOf g.val)) p (u.hank g.val).seedAddr 2048 (u.errAt p (u.hank g.val).seedAddr e) = (stOk, bs, v) →
    exec (.hitchFetch g (.seedTable e) t) s = .next ((v.modHank g.val fun h =>
      { h with seedsRead := true, seeds := (upTo 256).map fun i => leAt bs (8 * i) 8 }).checkReady p)) ∧
  (∀ (s u v : State) (g : Fin 16) (q : Fin 8) (t p : Nat) (e : ReadErr) (bs : List Byte) (x : Pos) (w : HitchWord), u = s.tick t →
    u.partOf g.val = some p → u.issuing p = true → (u.hank g.val).descRead = true → x = u.pos g.val q.val → x.ended = false →
    x.fetched.length < 32 → u.fetchP (some (dieOf g.val)) p x.next 64 (u.errAt p x.next e) = (stOk, bs, v) → w = hitchOf bs →
    ((u.step p).fixed = false ∨ hVary w = false →
      exec (.hitchFetch g (.hitch q e) t) s = .next ((v.modPos g.val q.val fun y =>
        { y with fetched := y.fetched ++ [(x.index, w)], next := x.next + 64, index := x.index + 1,
                 ended := hOpcode w == 0x3D || hOpcode w == 0x3C || x.index == lastIndex }).noteBack p g.val)) ∧
    ((u.step p).fixed = true → hVary w = true → ∃ y, y = v.modPos g.val q.val (fun y =>
        { y with next := x.next + 64, index := x.index + 1,
                 ended := hOpcode w == 0x3D || hOpcode w == 0x3C || x.index == lastIndex }) ∧
      exec (.hitchFetch g (.hitch q e) t) s = .next (((y.inc (Reg.hnkVaryRefusedCount g.val)).complete p g.val q.val x.index
        (y.strandFor g.val q.val) w stVaryRefused).noteBack p g.val))) ∧
  (∀ (s u : State) (g : Fin 16) (q : Fin 8) (t p i : Nat) (w : HitchWord), u = s.tick t → u.partOf g.val = some p →
    u.issuing p = true → u.headHitch g.val q.val = some (i, w) →
    exec (.hitchFetch g (.spoiled q) t) s =
      .next (((u.popHitch g.val q.val).raise p g.val q.val i none stScratchEcc).noteBack p g.val)) ∧
  (∀ (s u : State) (g : Fin 16) (q : Fin 8) (t p i st : Nat) (w : HitchWord), u = s.tick t → u.headHitch g.val q.val = some (i, w) →
    u.partOf g.val = some p → st = u.strandFor g.val q.val → u.emitTurn p g.val q.val = true →
    exec (.hitchEmit g q t) s = .next (if u.rampReady g.val w = true then
      ((((u.popHitch g.val q.val).modHank g.val fun h =>
        { h with emitted := q.val }).modStrand st fun x =>
        { x with queue := x.queue ++ ([{ id := (u.strand st).nextId, pos := q.val, index := i, word := w,
                                         phase := if u.malformed p g.val i w = true then .refused else .queued,
                                         since := (u.pos g.val q.val).since, digest := 0 }] : List QEntry),
                 nextId := x.nextId + 1 }).markHead st).noteHeld p g.val
      else (u.noteBack p g.val).gate_ p g.val w)) ∧
  ∀ (s u : State) (g : Fin 16) (place : Fin 8) (save restore : Upset) (t p cur q : Nat) (others : List Nat), u = s.tick t →
    u.partOf g.val = some p → cur = mgetD (u.hank g.val).onPlace place.val 8 → cur < 8 → u.issuing p = true →
    u.descsRead p = true → ((u.strand (8 * g.val + place.val)).queue.all QEntry.unissued) = true →
    u.posHalted p g.val cur = true →
    others = ((upTo 7).map fun k => (cur + 1 + k) % 8).filter (fun q => u.placeOf g.val q == place.val && !((u.pos g.val q).finished)) →
    (others.find? (fun q => !(u.posBlocked p g.val q)) = some q ∨
      others.find? (fun q => !(u.posBlocked p g.val q)) = none ∧ (u.pos g.val cur).finished = true ∧ others.head? = some q) →
    exec (.positionSwitch g ⟨place, save, restore⟩ t) s =
      .next ((u.leaveStrand p g.val cur save).takeStrand p g.val q restore)

/-- Completion and the end of steps (R124, R128, R130, R140, R142, R440, R442 to R447). -/
def Obligations.HitchesCompleteAndStepsEnd : Prop :=
  (∀ (s u : State) (st : Fin 128) (slot t p a : Nat) (e : QEntry), u = s.tick t → u.partOf (hankOf st.val) = some p →
    (u.strand st.val).queue[slot]? = some e → e.phase = .done a → firstOfUnit (u.strand st.val).queue e = true →
    (u.twin p st.val e.pos = none → exec (.hitchComplete st slot t) s = .next (u.completeEntry p st.val e a)) ∧
    ∀ st2 f b, u.twin p st.val e.pos = some st2 →
      (u.strand st2).queue.find? (fun f => f.pos == e.pos && f.index == e.index) = some f → f.phase = .done b →
      firstOfUnit (u.strand st2).queue f = true → st.val < st2 →
      (isBlocking a = true ∨ isBlocking b = true ∨ e.digest = f.digest →
        exec (.hitchComplete st slot t) s = .next ((u.completeEntry p st.val e a).completeEntry p st2 f b)) ∧
      (isBlocking a = false → isBlocking b = false → e.digest ≠ f.digest →
        exec (.hitchComplete st slot t) s = .next (((u.pairMismatch p st.val st2 e f).completeEntry p st.val e
          stTelltaleMismatch).completeEntry p st2 f stTelltaleMismatch))) ∧
  (∀ (s u : State) (st : Fin 128) (t p a : Nat) (e : QEntry), u = s.tick t → u.partOf (hankOf st.val) = some p → u.issuing p = true →
    nextQueued (u.strand st.val).queue = some e → e.phase = .queued → e.since = some a → u.reg (Reg.hnkKnotWaitLimit (hankOf st.val)) ≠ 0 →
    a + 1000 * u.reg (Reg.hnkKnotWaitLimit (hankOf st.val)) < u.now → u.waitReady p st.val e.word = false →
    exec (.knotTimeout st t) s = .next (u.completeEntry p st.val e stKnotTimeout)) ∧
  (∀ (s u : State) (p : Fin 16) (bad : List (Nat × Nat)) (t : Nat), u = s.tick t → (u.step p.val).phase = .committing → (u.step p.val).stopping = false →
    ((u.step p.val).collective = true → u.voteComplete p.val = true) →
    ∃ v, v = (u.commitActions p.val bad).commitEnd p.val ∧ exec (.stepCommit ⟨p, bad⟩ t) s = .next v ∧
      (v.step p.val).counter = (u.step p.val).counter + 1) ∧
  (∀ (s u : State) (p : Fin 16) (t : Nat) (b : Blocking), u = s.tick t → (u.step p.val).blocking = some b → b.cls = 1 →
    u.inRun p.val = true → u.drained p.val = true → u.lease.seized = false →
    (u.replayable p.val = true → (u.step p.val).run < (u.step p.val).limit → ∃ v, exec (.stepReplay p t) s = .next v ∧
      v.step p.val = { u.step p.val with
        run := (u.step p.val).run + 1, rotation := ((u.step p.val).rotation + 1) % 8, phase := .replaying, blocking := none,
        releases := [], collective := false, groups := [], collIds := [], rowsSent := false,
        excluded := (u.step p.val).excluded ++ (twiceFaulty (u.step p.val).faults).filter fun st => !((u.step p.val).excluded.contains st) } ∧
      SameBut [.regs, .strands, .dieKnots, .hanks, .parts, .kv, .serve, .dispatch, .thermo] u v) ∧
    ((u.replayable p.val = false ∨ (u.step p.val).limit ≤ (u.step p.val).run) →
      exec (.stepReplay p t) s = .next (u.giveUp p.val b.status))) ∧
  ∀ (s u : State) (p : Fin 16) (t : Nat) (b : Blocking), u = s.tick t → (u.step p.val).blocking = some b → b.cls = 2 →
    u.inRun p.val = true → u.drained p.val = true →
    exec (.stepAbandon p t) s = .next (foldS (fun s g => s.inc (Reg.hnkAbandonCount g)) (u.abandoned p.val)
      (u.part p.val).hanks)

/-- Loading a coil (R513 to R516, R526, R527). -/
def Obligations.CoilsAreLoaded : Prop :=
  (∀ (s u : State) (h : CmdHdr) (data : List Byte), s.runs h 0x0400 u → 256 ≤ data.length → data.length ≤ 1424 →
    (∀ r, u.coilRefusal data = some r → exec (.coilBegin h 0 data) s = .next (((u.inc Reg.updRefuseCount).setReg Reg.updLastRefuse
      (r + 65536 * 0x0400)).reply h.session h.seq stCoilRefused (toLe 2 r))) ∧
    (u.coilRefusal data = none → data.length ≤ headerBytesFor (coilBlocks data) →
      exec (.coilBegin h 0 data) s = .next ({ u with
        update := { u.update.setSlot (1 - u.update.confirmed) { CoilSlot.empty with state := 1, header := data } with
          loading := some (1 - u.update.confirmed) } }.reply h.session h.seq stOk []))) ∧
  (∀ (s u : State) (h : CmdHdr) (off : Nat) (data : List Byte) (x : CoilSlot), s.runs h 0x0400 u → 0 < off → data ≠ [] →
    data.length ≤ 1424 → x = u.update.slot (1 - u.update.confirmed) → u.update.loading = some (1 - u.update.confirmed) →
    off = x.header.length → off + data.length ≤ headerBytesFor (coilBlocks x.header) →
    exec (.coilBegin h off data) s = .next ({ u with
      update := u.update.setSlot (1 - u.update.confirmed) { x with header := x.header ++ data } }.reply h.session h.seq stOk [])) ∧
  (∀ (s u : State) (h : CmdHdr) (off block k n : Nat) (data : List Byte) (x : CoilSlot), s.runs h 0x0401 u →
    u.update.loading = some k → x = u.update.slot k → n = coilBlocks x.header → data ≠ [] → data.length ≤ 1424 →
    x.header.length = headerBytesFor n → block = x.blocks.length → off = x.part.length →
    (block ≠ n → (x.part ++ data).length < 65536 → exec (.coilBlock h off block data) s = .next ({ u with
      update := u.update.setSlot k { x with part := x.part ++ data } }.reply h.session h.seq stOk [])) ∧
    (block ≠ n → (x.part ++ data).length = 65536 →
      slice (shake256 32 (x.part ++ data)) 0 32 = slice x.header (256 + 32 * block) 32 →
      exec (.coilBlock h off block data) s = .next ({ u with
        update := u.update.setSlot k { x with part := [], blocks := x.blocks ++ [x.part ++ data] } }.reply h.session h.seq stOk [])) ∧
    (block ≠ n → (x.part ++ data).length = 65536 →
      slice (shake256 32 (x.part ++ data)) 0 32 ≠ slice x.header (256 + 32 * block) 32 →
      exec (.coilBlock h off block data) s = .next ((((State.inc { u with update := u.update.setSlot k { x with part := [] } }
        Reg.updBlockFailCount).inc Reg.updRefuseCount).setReg Reg.updLastRefuse (7 + 65536 * 0x0401)).reply h.session h.seq
        stCoilRefused (toLe 2 7))) ∧
    (block = n → data.length = 1280 → coilSigned x data = true →
      exec (.coilBlock h off block data) s = .next ({ u with
        update := { u.update.setSlot k { x with state := 2, signature := data } with loading := none } }.reply h.session h.seq stOk [])) ∧
    (block = n → data.length = 1280 → coilSigned x data = false →
      exec (.coilBlock h off block data) s = .next (((State.inc { u with
        update := { u.update.setSlot k CoilSlot.empty with loading := none } } Reg.updRefuseCount).setReg Reg.updLastRefuse
        (8 + 65536 * 0x0401)).reply h.session h.seq stCoilRefused (toLe 2 8)))) ∧
  ∀ (s u : State) (h : CmdHdr), s.runs h 0x0405 u →
    exec (.coilStatus h) s = .next (u.reply h.session h.seq stOk (u.updWords.flatMap (toLe 4)))

/-- The scheduled data-path switch (R517 to R519). -/
def Obligations.SwitchesAreScheduled : Prop :=
  (∀ (s u : State) (h : CmdHdr) (time : Nat) (back : Bool), s.runs h 0x0402 u →
    (∀ p, u.update.schedT = some p → u.now + 100000000 < p) →
    (exec (.coilSchedule h 0 back) s = .next ({ u with update := u.update.unschedule }.reply h.session h.seq stOk [])) ∧
    (u.now + 1000000000 ≤ time → time ≤ u.now + 3600000000000 →
      (u.update.schedulable back = none → exec (.coilSchedule h time back) s = .next (((u.inc Reg.updRefuseCount).setReg
        Reg.updLastRefuse (9 + 65536 * 0x0402)).reply h.session h.seq stCoilRefused (toLe 2 9))) ∧
      (∀ k, u.update.schedulable back = some k → u.ptp.state ≠ 1 →
        exec (.coilSchedule h time back) s = .next (((u.inc Reg.updRefuseCount).setReg
          Reg.updLastRefuse (10 + 65536 * 0x0402)).reply h.session h.seq stCoilRefused (toLe 2 10))) ∧
      (∀ k v, u.update.schedulable back = some k → u.ptp.state = 1 →
        v = (if back = false ∧ (u.update.unschedule.slot k).state = 2 then u.update.unschedule.setState k 3 else u.update.unschedule) →
        exec (.coilSchedule h time back) s = .next ({ u with
          update := { v with
            schedT := some time, schedSlot := k, schedFallback := back, schedSession := h.session, schedSeq := h.seq,
            lead := leAt (v.slot k).header 0x60 4 } }.reply h.session h.seq stOk [])))) ∧
  (∀ (s u : State) (t p : Nat), u = s.tick t → u.update.schedT = some p → u.now + 10000000 ≤ p →
    exec (.coilPreload t) s = .next { u with update := { u.update with preloaded := true } }) ∧
  (∀ (s : State) (t : Nat), exec (.stepHoldLead t) s = .next (s.tick t)) ∧
  ∀ (s u : State) (t due k : Nat) (x : Update), u = s.tick t → x = u.update → x.schedT = some due → due ≤ u.now → k = x.schedSlot →
    (x.preloaded = true → u.ptp.state = 1 → -500 ≤ (u.hostPort u.ptp.port).offset → (u.hostPort u.ptp.port).offset ≤ 500 →
      (x.schedFallback = true ↔ k = x.confirmed) → ∃ v w,
      v = State.switchTo { u with update := { x with schedT := none, lead := 0, preloaded := false } } k
        ((x.slot k).parts.filter fun i => i == 1 || i == 2) ∧
      w = (if x.schedFallback = true then v.fallBack else v.openTrial k) ∧
      exec (.datapathSwitch t) s = .next (w.commandDone x.schedSession x.schedSeq stOk [])) ∧
    ((x.preloaded = false ∨ u.ptp.state ≠ 1 ∨ (u.hostPort u.ptp.port).offset < -500 ∨ 500 < (u.hostPort u.ptp.port).offset ∨
        ¬(x.schedFallback = true ↔ k = x.confirmed)) →
      exec (.datapathSwitch t) s = .next ((State.eventC { u with update := x.unschedule } 21 stCoilRefused k
        (toLe 4 12)).commandDone x.schedSession x.schedSeq stCoilRefused [12]))

/-- The management start and confirmation (R520, R521, R523 to R526). -/
def Obligations.ManagementImagesStart : Prop :=
  (∀ (s u : State) (h : CmdHdr) (back : Bool), s.runs h 0x0403 u →
    (u.update.startable back = none → exec (.activate h back) s = .next (((u.inc Reg.updRefuseCount).setReg Reg.updLastRefuse
      (9 + 65536 * 0x0403)).reply h.session h.seq stCoilRefused (toLe 2 9))) ∧
    (∀ k, u.update.startable back = some k → exec (.activate h back) s = .next { u with
      update := { u.update with
        paused := some u.now, pauseSlot := k, pauseFallback := back, pauseSession := h.session, pauseSeq := h.seq } })) ∧
  (∀ (s u v w : State) (t a k : Nat), u = s.tick t → u.update.paused = some a → u.now ≤ a + 200000000 → k = u.update.pauseSlot →
    v = State.activated { u with update := { u.update with mgmt := k } } k [3] →
    w = (if u.update.pauseFallback = true then v.fallBack else v.openTrial k) →
    exec (.mgmtResume t) s = .next (w.resume a stOk [])) ∧
  (∀ (s u : State) (t a k : Nat) (x y : Update), u = s.tick t → u.update.paused = some a → a + 200000000 ≤ u.now →
    k = u.update.pauseSlot → x = { u.update with mgmt := 1 - k } →
    y = (if u.update.pauseFallback = true ∨ x.runsFrom k = true then x
      else x.setState k (if x.schedT.isSome = true ∧ x.schedFallback = false then 3 else 2)) →
    exec (.mgmtStartTimeout t) s = .next (State.resume ((State.inc { u with update := y } Reg.updRefuseCount).setReg Reg.updLastRefuse
      (11 + 65536 * 0x0403)) a stCoilRefused (toLe 2 11))) ∧
  (∀ (s u : State) (h : CmdHdr) (x : Update) (o : Nat) (old : CoilSlot), s.runs h 0x0404 u → x = u.update → o = 1 - x.confirmed →
    (((x.slot o).state ≠ 4 ∨ ∃ id ∈ (x.slot o).parts, (if id = 1 then x.micro else if id = 2 then x.ccf else x.mgmt) ≠ o) →
      exec (.confirm h) s = .next (((u.inc Reg.updRefuseCount).setReg Reg.updLastRefuse
        (9 + 65536 * 0x0404)).reply h.session h.seq stCoilRefused (toLe 2 9))) ∧
    ((x.slot o).state = 4 → (∀ id ∈ (x.slot o).parts, (if id = 1 then x.micro else if id = 2 then x.ccf else x.mgmt) = o) →
      old = (if (x.slot o).svn ≤ (x.slot x.confirmed).svn then { x.slot x.confirmed with state := 2 } else CoilSlot.empty) →
      exec (.confirm h) s = .next ({ u with
        update := { (x.setState o 5).setSlot x.confirmed old with minSvn := (x.slot o).svn, dual := false, trialAt := none } }.reply
        h.session h.seq stOk []))) ∧
  ∀ (s u : State) (t a : Nat), u = s.tick t → u.update.trialAt = some a → u.update.overdueSent = false →
    a + 60000000000 * u.update.trialWindow < u.now →
    exec (.confirmOverdue t) s = .next (State.eventC { u with update := { u.update with overdueSent := true } } 22 stOk
      (1 - u.update.confirmed) [])

/-- Arbitration at one point (R177, R179, R182 to R188, R192, R194). -/
def Obligations.PointsGrantAndFree : Prop :=
  (∀ (s u : State) (a : FPoint) (r : FReq) (c o : Nat) (idle : Bool) (x y : Point), a.point < 34 → 0 < r.bytes → r.bytes ≤ 4096 →
    u = ((s.tick (cycleNs c)).refresh a.inst.val a.point c).reach (pointDom a.inst.val a.point)
      (match r.dom with | some d => 0x80 + d.val | none => 0xC1) → x = u.point a.inst.val a.point →
    u.isMasked (r.dom.map (fun d => d.val), r.func) c = false → (∀ q ∈ x.requests, q.requester ≠ r.requester) →
    (o, idle) = u.trafficOwner r.traffic →
    y = (match x.grant with
      | some g => if (g.background && g.start == c && !idle && u.slotOwner a.inst.val (tableOf a.inst.val a.point) c == o) = true
          then x.withdraw g else x
      | none => x) →
    exec (.fairleadRequest a r c) s = .next (u.setPoint a.inst.val a.point { y with
      sources := mput y.sources r.requester (r.dom.map (fun d => d.val), r.func),
      requests := y.requests ++ [⟨r.requester, o, transferCycles a.inst.val (tableOf a.inst.val a.point) r.bytes, c, idle⟩] })) ∧
  (∀ (s u : State) (a : FPoint) (q c : Nat) (x : Point) (r : Request), a.point < 34 →
    (s.tick (cycleNs c)).pointOn a.inst.val a.point = true →
    u = (s.tick (cycleNs c)).refresh a.inst.val a.point c → x = u.point a.inst.val a.point →
    (roundRobin (nget x.lastOwner (u.slotOwner a.inst.val (tableOf a.inst.val a.point) c))
        ((u.dueNow a.inst.val a.point c x).map fun r => r.requester) = some q →
      ((u.dueNow a.inst.val a.point c x).find? fun r => r.requester == q) = some r →
      exec (.fairleadGrant a q c) s =
        .next (u.giveGrant a.inst.val a.point c r false)) ∧
    (u.dueNow a.inst.val a.point c x = [] →
      roundRobin x.lastBack ((u.backNow a.inst.val a.point c x).map fun r => r.requester) = some q →
      ((u.backNow a.inst.val a.point c x).find? fun r => r.requester == q) = some r →
      exec (.fairleadGrant a q c) s = .next (u.giveGrant a.inst.val a.point c r true))) ∧
  (∀ (s u : State) (a : FPoint) (c : Nat) (x y : Point) (g : Grant),
    u = (s.tick (cycleNs c)).refresh a.inst.val a.point c → x = u.point a.inst.val a.point → x.grant = some g → g.finish ≤ c →
    y = { x with losses := mdel x.losses g.requester } →
    (exec (.transferDone a g.requester none c) s = .next (u.setPoint a.inst.val a.point { y with
      grant := none, freed := mput x.freed g.owner c, requests := x.requests.filter fun r => r.requester != g.requester })) ∧
    (∀ n m slot, 0 < m → m ≤ 4096 → n = transferCycles a.inst.val (tableOf a.inst.val a.point) m →
      slot = c / slotLen a.inst.val (tableOf a.inst.val a.point) * slotLen a.inst.val (tableOf a.inst.val a.point) →
      exec (.transferDone a g.requester (some m) c) s = .next (u.setPoint a.inst.val a.point { y with
        requests := x.requests.map fun r => if r.requester == g.requester then { r with cycles := n, raised := c } else r,
        grant := if (g.background = true ∧ c + n ≤ slot + slotLen a.inst.val (tableOf a.inst.val a.point)) ∨
            (g.background = false ∧ g.owner = u.slotOwner a.inst.val (tableOf a.inst.val a.point) c ∧
              c + n ≤ State.runEnd 512 u a.inst.val (tableOf a.inst.val a.point) g.owner slot)
          then some { g with start := c, finish := c + n } else none,
        freed := if (g.background = true ∧ c + n ≤ slot + slotLen a.inst.val (tableOf a.inst.val a.point)) ∨
            (g.background = false ∧ g.owner = u.slotOwner a.inst.val (tableOf a.inst.val a.point) c ∧
              c + n ≤ State.runEnd 512 u a.inst.val (tableOf a.inst.val a.point) g.owner slot)
          then x.freed else mput x.freed g.owner c }))) ∧
  (∀ (s u : State) (a : FPoint) (q c : Nat) (x : Point), u = (s.tick (cycleNs c)).refresh a.inst.val a.point c →
    x = u.point a.inst.val a.point → nget x.backoff q ≤ c →
    exec (.backoffEnd a q c) s = .next (u.setPoint a.inst.val a.point { x with backoff := mdel x.backoff q })) ∧
  (∀ (s u v w : State) (a : FPoint) (o c : Nat) (x : Point), u = (s.tick (cycleNs c)).refresh a.inst.val a.point c →
    x = u.point a.inst.val a.point → o < 16 →
    u.starveLimit a.inst.val (tableOf a.inst.val a.point) o (nget x.starveFrom o) < nget x.starve o →
    x.starved.contains o = false → bit (u.fldCtrl a.inst.val (tableOf a.inst.val a.point) c) 0 = true →
    bit (u.fldCtrl a.inst.val (tableOf a.inst.val a.point) c) 1 = false →
    v = (u.setPoint a.inst.val a.point { x with starved := o :: x.starved }).setFlags (Reg.fldStarveFlags a.inst.val) (2 ^ o) →
    (v.fld a.inst.val).locAt ≠ some c →
    w = (v.setReg (Reg.fldStarveLoc a.inst.val) (0x2000 + 256 * pointIn a.inst.val a.point + 16 *
        tableOf a.inst.val a.point)).modFld a.inst.val (fun i => { i with locAt := some c }) →
    exec (.starvation a o c) s = .next ((w.inc (Reg.fldPartStarveCount a.inst.val o)).boundMiss o)) ∧
  ∀ (s u v : State) (f : Fin 5) (t : Fin 3) (c eff g : Nat) (es : List Nat) (x y : FldInst), u = s.tick (cycleNs c) → x = u.fld f.val →
    mget x.waiting t.val = some (eff, es) → eff ≤ c →
    y.tables = foldS (fun m i => if es.getD i 31 = 31 then mdel m (256 * t.val + i) else mput m (256 * t.val + i) (es.getD i 31))
      x.tables (upTo 256) →
    y.prev = foldS (fun m i => if mgetD x.tables (256 * t.val + i) 31 = 31 then mdel m (256 * t.val + i)
      else mput m (256 * t.val + i) (mgetD x.tables (256 * t.val + i) 31)) x.prev (upTo 256) →
    v = u.modFld f.val (fun x => { x with
      tables := y.tables, prev := y.prev, switched := mput x.switched t.val eff, waiting := mdel x.waiting t.val }) →
    g = v.reg (Reg.fldTableGen f.val) →
    exec (.slotTableSwitch f t c) s = .next (v.setReg (Reg.fldTableGen f.val)
      (g - g / 2 ^ (8 * t.val) % 256 * 2 ^ (8 * t.val) + (g / 2 ^ (8 * t.val) % 256 + 1) % 256 * 2 ^ (8 * t.val)))

/-- Sensors, reefing, shutdown, the keep-warm floor, rotation and guardbands (R545 to R559). -/
def Obligations.SensorsReefAndAgeing : Prop :=
  (∀ (s u : State) (i : Fin 34) (a b v : Int) (t : Nat) (x y : Spot), u = s.tick t → x = u.spot i.val → goodReading a = true →
    goodReading b = true → i.val ≠ 32 → y = Spot.apart ⟨some a, some b, u.now, u.now, x.governed, x.apartSince,
      x.withinSince, x.split, x.overSince⟩ u.now →
    v = (if x.split = true then max (max a b) (Config.spotEstimate i.val u.now) else max a b) →
    exec (.sensorSample i (some a) (some b) t) s = .next (((u.modSpot i.val fun _ => Spot.endSplit { y with
      governed := (v :: x.governed).take 10,
      overSince := if isJunction i.val = true ∧ 1100 ≤ v then some (x.overSince.getD u.now) else none } u.now).holdFor
        i.val).tripAt i.val v)) ∧
  (∀ (u w y : State) (i : Nat) (v : Int), isJunction i = true → 1050 ≤ v → u.thermo.trip = false →
    w = { u with thermo := { u.thermo with trip := true } } →
    y = ((foldS (fun s g => s.followStep g) ((w.setReef 3).inc Reg.thmTripCount) (upTo 16)).eventC 29 stOk i []).thermalRecord i →
    u.tripAt i v = if y.start.dirReady = true then y else y.failStart 6) ∧
  (∀ (s u v : State) (i : Fin 34) (t a : Nat), u = s.tick t → (u.spot i.val).apartSince = some a → (u.spot i.val).split = false →
    a + 1000000000 ≤ u.now → v = u.modSpot i.val (fun y => { y with split := true, withinSince := none }) →
    exec (.sensorSplit i t) s = .next (((if i.val < 32 then v.setFlags Reg.thmSplitFlags (2 ^ i.val) else v).eventC 28 stOk i.val
      []).thermalRecord i.val)) ∧
  (∀ (s u : State) (i : Fin 34) (t : Nat), u = s.tick t →
    ((u.spot i.val).a.isSome = true → (u.spot i.val).aAt + 10000000 ≤ u.now → exec (.sensorFail i false t) s =
      .next (((u.modSpot i.val fun y => Spot.apart { y with a := none } u.now).thermalRecord i.val).holdFor i.val)) ∧
    ((u.spot i.val).b.isSome = true → (u.spot i.val).bAt + 10000000 ≤ u.now → exec (.sensorFail i true t) s =
      .next (((u.modSpot i.val fun y => Spot.apart { y with b := none } u.now).thermalRecord i.val).holdFor i.val))) ∧
  (∀ (s u : State) (t a : Nat), u = s.tick t → u.thermo.hotSince = some a → u.thermo.hotSent = false → a + 1000000000 ≤ u.now →
    exec (.coolantHot t) s = .next (State.eventC { u with thermo := { u.thermo with hotSent := true } } 27 stOk 0 [])) ∧
  (∀ (s u v : State) (t k : Nat) (j m : Int) (hist : List (Int × Int)), u = s.tick t → t = u.now → t % 10000000 = 0 →
    t ≠ u.thermo.lastBoundary → j = u.highest isJunction → m = u.highest isMemory → k = u.thermo.step →
    hist = ((j, m) :: u.thermo.history).take 10 → v = { u with thermo := { u.thermo with history := hist, lastBoundary := t } } →
    (k < reefTarget j m → exec (.reefBoundary t) s = .next (foldS (fun s g => s.hankBoundary g) (v.setReef (k + 1)) (upTo 16))) ∧
    (reefTarget j m ≤ k → k ≠ 0 → hist.length = 10 → (∀ e ∈ hist, e.1 < (reefThresholds k).1 - 30 ∧ e.2 < (reefThresholds k).2 - 30) →
      exec (.reefBoundary t) s = .next (foldS (fun s g => s.hankBoundary g) (v.setReef (k - 1)) (upTo 16))) ∧
    (reefTarget j m ≤ k → (k = 0 ∨ hist.length ≠ 10 ∨ ∃ e ∈ hist, (reefThresholds k).1 - 30 ≤ e.1 ∨ (reefThresholds k).2 - 30 ≤ e.2) →
      exec (.reefBoundary t) s = .next (foldS (fun s g => s.hankBoundary g) v (upTo 16)))) ∧
  (∀ (s u v : State) (t i a : Nat), u = s.tick t → i < 34 → (u.spot i).overSince = some a → a + 10000000 ≤ u.now →
    u.thermo.shut = false → v = { u with thermo := { u.thermo with shut := true }, lease := { u.lease with seized := true } } →
    exec (.thermalShutdown t) s = .next (foldS (fun s p => s.stopDone p) (foldS (fun s n => if n = 52 ∨ n = 53 ∨ n = 63 then s
      else s.dropDom n) (foldS (fun s p => if s.commitRuns p then s else s.stopStep p false) v (upTo 16)) (upTo 64)) (upTo 16))) ∧
  (∀ (s u : State) (h : CmdHdr) (v : Word), s.writes h 0x0101 Reg.thmKeepWarm u →
    (v.toNat % 2048 ≤ 1200 → exec (.thmKeepWarm h v) s =
      .next (((u.setReg Reg.thmKeepWarm (v.toNat % 2048)).warmTo (v.toNat % 2048)).reply h.session h.seq stOk [])) ∧
    (1200 < v.toNat % 2048 → exec (.thmKeepWarm h v) s = .next (u.reply h.session h.seq stSpliceConflict []))) ∧
  (∀ (s u : State) (g : Fin 16) (t p : Nat), u = s.tick t → u.partOf g.val = some p → bit (u.reg Reg.thmCtrl) 0 = true →
    u.stepUnderWay p = false → u.mayRemap p = true →
    (u.hank g.val).rotatedAt + msNs (u.reg Reg.thmRotateMs % 65536) ≤ u.now →
    exec (.rotation g t) s = .next (u.modHank g.val fun h => { h with rotation := (h.rotation + 1) % 8, rotatedAt := u.now })) ∧
  (∀ (s u : State) (h : CmdHdr) (ms : List Margin), s.writes h 0x0101 Reg.thmRemarginCtrl u →
    u.reg Reg.thmRemarginCtrl % 256 ≠ 0 → exec (.now h ms) s =
      .next (((u.setReg Reg.thmRemarginCtrl (u.reg Reg.thmRemarginCtrl % 256)).replan ms).reply h.session h.seq stOk [])) ∧
  ∀ (s u : State) (ms : List Margin) (t : Nat), u = s.tick t →
    u.thermo.lastRemargin + 86400000000000 * (u.reg Reg.thmRemarginCtrl % 256) ≤ u.now →
    exec (.marginReplan ms t) s = .next (State.replan u ms)

/-- Reads and writes of lines of module memory (R146, R157 to R160, R170, R171). -/
def Obligations.MemoryLinesAreChecked : Prop :=
  (∀ (s : State) (mpa t : Nat) (e e2 : ReadErr) (data : List Byte), lineAt mpa = none →
    exec (.lineRead mpa e t) s = .fault (.noSuchLine mpa) ∧ exec (.lineWrite mpa data e e2 t) s = .fault (.noSuchLine mpa) ∧
    (isTagLine mpa = false → exec (.correctionWriteback mpa) s = .fault (.noSuchLine mpa))) ∧
  (∀ (s v : State) (mpa t u x a : Nat) (e : ReadErr), lineAt mpa = some (u, x) → bit (s.ownByte u (x / granule)) 5 = true →
    v = (s.tick t).reach (unitDom u) 0xC1 → a = mpa / 64 * 64 →
    exec (.lineRead mpa e t) s = .next (v.send (.line a stAddrInvalid []))) ∧
  (∀ (s v w : State) (mpa t u x a m c : Nat) (e f : ReadErr) (o : LineResult × Nat × List Nat), lineAt mpa = some (u, x) →
    bit (s.ownByte u (x / granule)) 5 = false → v = (s.tick t).reach (unitDom u) 0xC1 → a = mpa / 64 * 64 → (m, c) = ctlOf u →
    f = (mget (v.unit u).bad (mpa / 64)).getD e → o = readResult (v.keysAt a) true f → w = v.tagAccess u a false →
    (o.1 = .good → ∀ z, z = w.takeForged a o.2.2 →
      exec (.lineRead mpa e t) s = .next (z.send (.line a stOk (z.lineBytes a)))) ∧
    (∀ cls y z, (o.1 = .corrected ∧ cls = 1 ∨ o.1 = .retried ∧ cls = 2) →
      y = (w.takeForged a o.2.2).countMem u a Reg.memCeCount Reg.memPartCeCount →
      z = (if bit (w.reg (Reg.memScrubCtrl m c)) 1 = true then y.logErr u a cls o.2.1 false else y).modUnit u (fun z => { z with
        writebacks := if z.writebacks.contains (mpa / 64) then z.writebacks else z.writebacks ++ [mpa / 64] }) →
      exec (.lineRead mpa e t) s = .next (z.send (.line a stOk (z.lineBytes a)))) ∧
    (o.1 = .tagFail → exec (.lineRead mpa e t) s = .next (((((w.countMem u a Reg.memTagFailCount
      Reg.memPartTagFailCount).logErr u a 4 0 false).memRecord a stMemTagFail).modUnit u fun z => { z with
        bad := mput z.bad (mpa / 64) f }).send (.line a stMemTagFail []))) ∧
    (o.1 = .uncorrectable → ∀ y, y = ((w.countMem u a Reg.memUeCount Reg.memPartUeCount).logErr u a 3 0
        false).memRecord a stMemUncorr →
      exec (.lineRead mpa e t) s = .next (((if bit (y.reg (Reg.memRetireThresh m c)) 8 = true then y.qualify u (x / 4096) false
        else y).modUnit u fun z => { z with bad := mput z.bad (mpa / 64) f }).send (.line a stMemUncorr [])))) ∧
  (∀ (s v : State) (mpa t u x : Nat) (e1 e2 : ReadErr) (data : List Byte), lineAt mpa = some (u, x) → data ≠ [] →
    x + data.length ≤ usable u → bit (s.ownByte u (x / granule)) 5 = false →
    bit (s.ownByte u ((x + data.length - 1) / granule)) 5 = false → v = (s.tick t).reach (unitDom u) 0xC1 →
    (mpa % 64 = 0 → data.length % 64 = 0 →
      exec (.lineWrite mpa data e1 e2 t) s = .next (((v.storedLines mpa data.length).poke mpa data).send (.line mpa stOk []))) ∧
    (mpa % 64 + data.length < 64 → ∀ r, r = v.readLine (mpa / 64 * 64) e1 false →
      (r.1 ≠ stOk → exec (.lineWrite mpa data e1 e2 t) s = .next (r.2.send (.line mpa r.1 []))) ∧
      (r.1 = stOk → exec (.lineWrite mpa data e1 e2 t) s =
        .next (((r.2.storedLines mpa data.length).poke mpa data).send (.line mpa stOk []))))) ∧
  ∀ (s : State) (mpa u x : Nat), unitOf mpa = some (u, x) → x < usable u ∨ isTagLine mpa = true →
    exec (.correctionWriteback mpa) s = .next (s.modUnit u fun y => { y with
      writebacks := y.writebacks.filter fun l => l != mpa / 64 })

/-- Retirement, the patrol, the error log and the scratch scrubber (R91, R92, R165 to R169, R173). -/
def Obligations.BlocksRetireAndPatrolsCorrect : Prop :=
  (∀ (s v : State) (u : Fin 20) (k t : Nat) (x : MemUnit), x = s.unit u.val → x.due.contains k = true →
    v = (s.tick t).modUnit u.val (fun y => { y with due := y.due.erase k }) →
    (∀ n, mget x.retired k = some n → exec (.blockRetire u k t) s = .next (v.logErr u.val (unitBase u.val + k * 4096) 7 0 false)) ∧
    (mget x.retired k = none → x.spares < 4096 → exec (.blockRetire u k t) s = .next ((v.modUnit u.val fun y => { y with
      retired := mput y.retired k y.spares, spares := y.spares + 1 }).logErr u.val (unitBase u.val + k * 4096) 5 0 false)) ∧
    (mget x.retired k = none → 4096 ≤ x.spares → x.full.contains k = false →
      exec (.blockRetire u k t) s = .next ((v.modUnit u.val fun y => { y with full := k :: y.full }).logErr u.val
        (unitBase u.val + k * 4096) 6 0 false)) ∧
    (mget x.retired k = none → 4096 ≤ x.spares → x.full.contains k = true → exec (.blockRetire u k t) s = .next v)) ∧
  (∀ (s v : State) (u : Fin 20) (e : ReadErr) (t i m c mpa : Nat) (f : ReadErr) (o : LineResult), v = s.tick t → (m, c) = ctlOf u.val →
    bit (v.reg (Reg.memScrubCtrl m c)) 0 = true → (v.woken = true → (v.dom (unitDom u.val)).state = .on) →
    i = (v.unit u.val).patrol → mpa = unitBase u.val + 64 * i → f = (mget (v.unit u.val).bad (mpa / 64)).getD e →
    o = (v.outcome mpa true f).1 →
    (i < usable u.val / 64 → ∀ w, w = v.readLine mpa e true → w.1 ≠ stOk ∨ o ≠ .corrected ∧ o ≠ .retried →
      exec (.patrolRead u e t) s = .next (w.2.modUnit u.val fun y => { y with patrol := i + 1 })) ∧
    (i < usable u.val / 64 → (o = .corrected ∨ o = .retried) → ∀ w n z, v.readLine mpa e true = (stOk, w) →
      n = nget (w.unit u.val).passCe (blockOf mpa) + 1 →
      z = w.modUnit u.val (fun y => { y with passCe := nput y.passCe (blockOf mpa) n }) →
      exec (.patrolRead u e t) s = .next ((if w.reg (Reg.memRetireThresh m c) % 256 < n ∧
          (w.unit u.val).passDue.contains (blockOf mpa) = false
        then (z.modUnit u.val fun y => { y with passDue := blockOf mpa :: y.passDue }).qualify u.val (blockOf mpa) true
        else z).modUnit u.val fun y => { y with patrol := i + 1 })) ∧
    (usable u.val / 64 ≤ i → ∀ w, w = v.patrolTag u.val (i - usable u.val / 64) e →
      (i + 1 < patrolLines u.val → exec (.patrolRead u e t) s = .next (w.modUnit u.val fun y => { y with patrol := i + 1 })) ∧
      (i + 1 = patrolLines u.val → exec (.patrolRead u e t) s = .next (w.modUnit u.val fun y => { y with
        patrol := 0, passCe := [], passDue := [], passes := y.passes + 1 })))) ∧
  (∀ (s w : State) (u m c j mpa : Nat) (e f : ReadErr), (m, c) = ctlOf u → mpa = unitBase u + usable u + 64 * j →
    f = (mget (s.unit u).bad (mpa / 64)).getD e →
    (rsDecode 72 8 f.first = some [] → s.patrolTag u j e = s) ∧
    (∀ x l cls, w = s.inc (Reg.memCeCount m c) → (rsDecode 72 8 f.first = some x ∧ x ≠ [] ∧ cls = 1 ∨
        rsDecode 72 8 f.first = none ∧ rsDecode 72 8 f.second = some x ∧ cls = 2) → l = unitBase u + 1024 * j →
      s.patrolTag u j e = (if bit (w.reg (Reg.memScrubCtrl m c)) 1 = true then w.logAt u mpa l cls (min 2 x.length) true
        else w).modUnit u fun y => { y with
          writebacks := if y.writebacks.contains (mpa / 64) then y.writebacks else y.writebacks ++ [mpa / 64] }) ∧
    (rsDecode 72 8 f.first = none → rsDecode 72 8 f.second = none → ∀ l, l = unitBase u + 1024 * j →
      w = (s.inc (Reg.memUeCount m c)).logAt u mpa l 3 0 true →
      s.patrolTag u j e = (w.fsr { w.record 3 (if s.ownerAt l < 16 then some (s.ownerAt l) else none) with
        status := some stMemUncorr, mpa := some mpa }).modUnit u fun y => { y with bad := mput y.bad (mpa / 64) f })) ∧
  (∀ (s u : State) (h : CmdHdr) (m : Fin 5) (v : Word), s.writes h 0x0101 (Reg.memErrPop m.val) u →
    (∀ a r, v.toNat % 2 = 1 → mgetD u.errLogs m.val [] = a :: r → a.time * 4 / 5 ≠ u.now * 4 / 5 → exec (.memErrPop h m v) s =
      .next (State.reply { u with errLogs := mput u.errLogs m.val r } h.session h.seq stOk [])) ∧
    (v.toNat % 2 = 0 ∨ mgetD u.errLogs m.val [] = [] ∨
        (∃ a r, mgetD u.errLogs m.val [] = a :: r ∧ a.time * 4 / 5 = u.now * 4 / 5) →
      exec (.memErrPop h m v) s = .next (u.reply h.session h.seq stOk []))) ∧
  (∀ (s v : State) (st : Fin 128) (n line : Nat), bit (s.reg (Reg.strScrubCtrl st.val)) 0 = true →
    line = (s.strand st.val).scrubLine →
    v = (if n = 0 then s else if n = 1 then (s.inc (Reg.strScratchEccCorrCount st.val)).modStrand st.val (fun x => { x with
      writebacks := x.writebacks ++ [line] }) else s.badScratch st.val line) →
    (line + 1 < 32768 → exec (.scrubRead st n) s = .next (v.modStrand st.val fun x => { x with scrubLine := line + 1 })) ∧
    (32768 ≤ line + 1 → exec (.scrubRead st n) s = .next (v.modStrand st.val fun x => { x with
      scrubLine := 0, passes := (x.passes + 1) % 2 ^ 32 }))) ∧
  ∀ (s : State) (st : Fin 128) (line : Nat), exec (.scratchWriteback st line) s = .next (s.modStrand st.val fun x => { x with
    writebacks := x.writebacks.erase line })

/-- Entries, wakes, cleats and the island (R530, R531, R533 to R536, R539 to R541). -/
def Obligations.DomainsEnterAndWake : Prop :=
  (∀ (s u : State) (h : CmdHdr) (n : Fin 64) (d : Domain), s.writes h 0x0101 (Reg.pwrDomCtrl n.val) u → d = u.dom n.val →
    (d.state = .on → ∀ id, u.refuser n.val false = some id → exec (.targetRetention h n) s =
      .next (((u.setReg (Reg.pwrDomLast n.val) (u.reg (Reg.pwrDomLast n.val) / 256 * 256 + id)).inc
        (Reg.pwrDomRefuseCount n.val)).reply h.session h.seq stSpliceConflict [])) ∧
    (d.state = .on → u.refuser n.val false = none → exec (.targetRetention h n) s =
      .next (((u.modDom n.val fun d => { d with
        state := .entering, phase := 1, toOff := false, since := u.now, cleated := true, holdCleats := false,
        target := 1, offSpans := d.offSpans.begin u.now }).setReg (Reg.pwrDomCtrl n.val) 1).reply h.session h.seq stOk [])) ∧
    (d.state = .entering ∨ d.state = .waking → exec (.targetRetention h n) s =
      .next (((u.modDom n.val fun d => { d with queuedTarget := some (1, false) }).setReg (Reg.pwrDomCtrl n.val) 1).reply
        h.session h.seq stOk [])) ∧
    (d.state = .retention → exec (.targetRetention h n) s =
      .next ((u.setReg (Reg.pwrDomCtrl n.val) 1).reply h.session h.seq stOk [])) ∧
    (d.state = .off → exec (.targetRetention h n) s = .next (u.reply h.session h.seq stSpliceConflict []))) ∧
  (∀ (s u : State) (h : CmdHdr) (n : Fin 64) (d : Domain), s.writes h 0x0101 (Reg.pwrDomCtrl n.val) u → d = u.dom n.val →
    (d.state = .on ∨ d.state = .retention → ∀ id, u.refuser n.val true = some id → exec (.targetOff h n) s =
      .next (((u.setReg (Reg.pwrDomLast n.val) (u.reg (Reg.pwrDomLast n.val) / 256 * 256 + id)).inc
        (Reg.pwrDomRefuseCount n.val)).reply h.session h.seq stSpliceConflict [])) ∧
    (d.state = .on → u.refuser n.val true = none → exec (.targetOff h n) s =
      .next (((u.modDom n.val fun d => { d with
        state := .entering, phase := 1, toOff := true, since := u.now, cleated := true, holdCleats := false,
        target := 2, offSpans := d.offSpans.begin u.now }).setReg (Reg.pwrDomCtrl n.val) 2).reply h.session h.seq stOk [])) ∧
    (d.state = .retention → u.refuser n.val true = none → exec (.targetOff h n) s =
      .next ((((((u.modDom n.val fun d => { d with toOff := true, target := 2, state := .off, fromOff := true }).domCtl
        n.val 0).loseContents n.val).lowPower).setReg (Reg.pwrDomCtrl n.val) 2).reply h.session h.seq stOk [])) ∧
    (d.state = .entering ∨ d.state = .waking → exec (.targetOff h n) s =
      .next (((u.modDom n.val fun d => { d with queuedTarget := some (2, false) }).setReg (Reg.pwrDomCtrl n.val) 2).reply
        h.session h.seq stOk [])) ∧
    (d.state = .off → exec (.targetOff h n) s =
      .next ((u.setReg (Reg.pwrDomCtrl n.val) 2).reply h.session h.seq stOk []))) ∧
  (∀ (s u : State) (h : CmdHdr) (n : Fin 64) (b : Bool) (k : Nat), s.writes h 0x0101 (Reg.pwrDomCtrl n.val) u →
    k = (if b = true then 16 else 0) →
    ((u.dom n.val).state = .on → exec (.targetOn h n b) s = .next (((u.modDom n.val fun d => { d with target := 0 }).setReg
      (Reg.pwrDomCtrl n.val) k).reply h.session h.seq stOk [])) ∧
    ((u.dom n.val).state = .retention ∨ (u.dom n.val).state = .off → exec (.targetOn h n b) s =
      .next ((((u.modDom n.val fun d => { d with holdCleats := b }).startWake n.val).setReg (Reg.pwrDomCtrl n.val) k).reply
        h.session h.seq stOk [])) ∧
    ((u.dom n.val).state = .entering ∨ (u.dom n.val).state = .waking → exec (.targetOn h n b) s =
      .next (((u.modDom n.val fun d => { d with queuedTarget := some (0, b) }).setReg (Reg.pwrDomCtrl n.val) k).reply
        h.session h.seq stOk []))) ∧
  (∀ (s u : State) (h : CmdHdr) (n : Fin 64), s.writes h 0x0102 (Reg.pwrDomCtrl n.val) u →
    exec (.cleatRel h n) s = .next (State.reply (if (u.dom n.val).state = .on then u.modDom n.val fun d => { d with
      cleated := false, holdCleats := false } else u) h.session h.seq stOk [])) ∧
  (∀ (s u w : State) (h : CmdHdr) (v : Word), s.writes h 0x0101 Reg.pwrAonCtrl u → w = u.setReg Reg.pwrAonCtrl (v.toNat % 2) →
    ∀ lp, (lp = true ↔ bit (w.reg Reg.pwrAonCtrl) 0 = true ∧ ∀ n < 63, (w.dom n).state = .off) →
    exec (.pwrAonCtrl h v) s = .next (State.reply { w with power := { w.power with lpActive := lp } } h.session h.seq stOk [])) ∧
  (∀ (s u : State) (n : Fin 64) (src : BitVec 8) (t : Nat),
    u = { s.tick t with power := { s.power with lpActive := false } } →
    ((u.dom n.val).state = .on ∨ (u.dom n.val).state = .waking → exec (.wakeOnAccess n src t) s = .next u) ∧
    ((u.dom n.val).state = .entering → (u.dom n.val).phase = 1 →
      exec (.wakeOnAccess n src t) s = .next ((u.abortEntry n.val src.toNat).queuedWrite n.val)) ∧
    ((u.dom n.val).state = .entering → (u.dom n.val).phase ≠ 1 →
      exec (.wakeOnAccess n src t) s = .next (u.modDom n.val fun d => { d with
        wakeQueued := some (d.wakeQueued.getD u.now) })) ∧
    ((u.dom n.val).state = .retention ∨ (u.dom n.val).state = .off →
      exec (.wakeOnAccess n src t) s = .next (u.startWake n.val))) ∧
  (∀ (s u : State) (n : Fin 64) (t : Nat), u = s.tick t → (u.dom n.val).state = .entering →
    ((u.dom n.val).phase = 1 → u.now ≤ (u.dom n.val).since + 10000 →
      exec (.quiesceEnd n t) s = .next (u.modDom n.val fun d => { d with phase := 2, saved := u.saveList n.val })) ∧
    ((u.dom n.val).phase = 1 → (u.dom n.val).since + 10000 < u.now →
      exec (.drainTimeout n t) s = .next ((u.abortEntry n.val 0xC3).queuedWrite n.val)) ∧
    ((u.dom n.val).phase = 2 → ∀ v, v = u.enterDone n.val →
      exec (.saveDone n t) s = .next (State.lowPower (match (u.dom n.val).wakeQueued with
        | some a => (v.startWake n.val).modDom n.val fun d => { d with since := a }
        | none => v.queuedWrite n.val)))) ∧
  (∀ (s u : State) (n : Fin 64) (c t : Nat) (bad : Bool), u = s.tick t → (u.dom n.val).state = .waking →
    exec (.domainReady n c bad t) s =
      .next ((u.ready n.val (usUp (u.now - (u.dom n.val).since)) c bad).queuedWrite n.val)) ∧
  ∀ (s u v w : State) (c t : Nat) (bad : List (Fin 64)), u = s.tick t → u.power.lpActive = true → 150 < c →
    v = { u with power := { u.power with lpActive := false, current := c } } →
    w = (v.inc Reg.pwrBrownoutCount).eventC 24 stOk 0 (toLe 4 c) →
    exec (.brownout c bad t) s = .next (foldS (fun s n => s.modDom n.val fun d => { d with
      saved := [], saveValid := false }) (w.fsr { w.record 18 none with detail := [(0, c)] }) bad)

/-- Rows at their home and at their sender (R300, R301, R302, R304, R400, R401). -/
def Obligations.RowsArriveAndReturn : Prop :=
  (∀ (s u v : State) (d : Fin 4) (t p seen cap len slots used : Nat) (x : Delivered) (pk : Packet) (h : RowHead)
      (same : RxRow → Bool), u = s.tick t → ((u.engine d.val).rx.find? fun x => isRow 1 x.packet && !(u.rowWaits x)) = some x →
    v = u.modEngine d.val (fun e => { e with rx := e.rx.erase x }) → pk = x.packet →
    (pk.srcModule = v.self → v.gate pk true = .pass) → p = pk.dstPart → h = RowHead.parse pk.payload → seen = crc64 pk.payload →
    cap = v.dspForce p 3 % 65536 → len = 16 * (v.dspForce p 3 / 65536) → slots = v.dspForce p 4 →
    same = (fun y => y.part == p && y.expert == h.slot && y.src == pktSource pk && y.token == h.token && y.rank == h.rank &&
      y.shard == h.shard) →
    used = ((v.dispatch.rows.filter fun y => y.part == p && y.expert == h.slot).map fun y => y.row + 1).foldl max 0 →
    (v.stepOrder p pk.step = .lt → exec (.dispatchRow d t) s = .next (v.countRow pk (Reg.dspDupDiscardCount d.val))) ∧
    (v.stepOrder p pk.step ≠ .lt → seen ≠ pk.telltale → v.dispatch.ttSeen.contains (p, packetData pk) = false →
      exec (.dispatchRow d t) s = .next ((v.ttMismatch pk seen [(0, pk.srcModule), (1, pk.srcPart), (2, pk.srcDie)] false).refuseRow
        pk stTelltaleMismatch 0 0 0)) ∧
    (v.stepOrder p pk.step ≠ .lt → seen = pk.telltale →
      (∀ y, (v.dispatch.rows.find? fun y => same y && y.offset == h.offset) = some y → y.telltale = pk.telltale →
        exec (.dispatchRow d t) s = .next (v.countRow pk (Reg.dspDupDiscardCount pk.dstDie))) ∧
      ((v.dispatch.rows.find? fun y => same y && y.offset == h.offset) = none →
        (v.dispatch.rows.find? same = none → slots ≤ h.slot ∨ cap ≤ used →
          exec (.dispatchRow d t) s = .next ((v.countRow pk (Reg.dspPartRxfullCount p)).refuseRow pk stRxFull 0 0 0)) ∧
        (∀ y, v.dispatch.rows.find? same = some y →
          exec (.dispatchRow d t) s = .next (State.storeP { v with dispatch := { v.dispatch with
            rows := v.dispatch.rows ++ [⟨p, h.slot, y.row, pktSource pk, h.token, h.rank, h.shard, h.offset, pk.telltale⟩] } } (some pk.dstDie) p
            (v.dspForce p 2 + (h.slot * cap + y.row) * len + h.offset) ((pk.payload.drop 32).take (len - h.offset)) []).2) ∧
        (v.dispatch.rows.find? same = none → h.slot < slots → used < cap → ∀ w1 w2 w3 md n, n = h.slot * cap + used →
          md = pk.srcModule + 256 * (pk.srcPart % 16) + 4096 * pk.srcDie + 16384 * (h.shard % 4) + 65536 * (h.token % 4096) +
            2 ^ 28 * (h.rank % 16) + 2 ^ 32 * (h.ret % 2 ^ 23) + 2 ^ 55 * b2n h.sharded →
          w1 = (State.storeP { v with dispatch := { v.dispatch with
            rows := v.dispatch.rows ++ [⟨p, h.slot, used, pktSource pk, h.token, h.rank, h.shard, h.offset, pk.telltale⟩] } } (some pk.dstDie) p
            (v.dspForce p 2 + n * len + h.offset) ((pk.payload.drop 32).take (len - h.offset)) []).2 →
          w2 = (w1.storeP (some pk.dstDie) p (v.dspForce p 2 + slots * cap * len + 8 * n) (toLe 8 md) []).2 →
          w3 = (w2.storeP (some pk.dstDie) p (v.dspForce p 2 + slots * cap * (len + 8) + 4 * h.slot) (toLe 4 (used + 1)) []).2 →
          exec (.dispatchRow d t) s = .next (w3.inc (Reg.dspRecvCount pk.dstDie)))))) ∧
  (∀ (s u : State) (d : Fin 4) (t : Nat) (x : Delivered), u = s.tick t →
    ((u.engine d.val).rx.find? fun x => isRow 1 x.packet && u.rowWaits x && u.waitLimit x.packet.dstPart d.val != 0 &&
      decide (x.at_ + u.waitLimit x.packet.dstPart d.val ≤ u.now)) = some x →
    exec (.rxExpired d t) s = .next (((u.modEngine d.val fun e => { e with
        rx := e.rx.filter fun y => !(isRow 1 y.packet && sameRow x.packet y.packet) }).inc
      (Reg.dspRxExpiredCount d.val)).refuseRow x.packet stRxExpired 0 0 0)) ∧
  ∀ (s u v : State) (d : Fin 4) (t : Nat) (x : Delivered) (pk : Packet) (h : RowHead), u = s.tick t →
    ((u.engine d.val).rx.find? fun x => isRow 2 x.packet) = some x →
    v = u.modEngine d.val (fun e => { e with rx := e.rx.erase x }) → pk = x.packet → h = RowHead.parse pk.payload →
    (v.stepOrder pk.dstPart pk.step ≠ .eq → exec (.returnRow d t) s = .next (v.countRow pk (Reg.dspDupDiscardCount d.val))) ∧
    (v.stepOrder pk.dstPart pk.step = .eq → crc64 pk.payload = pk.telltale →
      (v.entryOf pk.dstPart pk.dstDie h = none → exec (.returnRow d t) s = .next (v.countRow pk (Reg.dspDupDiscardCount pk.dstDie))) ∧
      (∀ c e parts w, v.entryOf pk.dstPart pk.dstDie h = some (c, e) →
        parts = (if (e.parts.any fun x => x.1 == h.shard && x.2.1 == h.offset) = true then e.parts
          else e.parts ++ [(h.shard, h.offset, pk.payload.drop 32)]) →
        w = v.modSend c (fun l => l.map fun y => if y.token == e.token && y.rank == e.rank then { y with parts := parts } else y) →
        (joinPieces parts h.shard h.total = none → exec (.returnRow d t) s = .next w) ∧
        (∀ bs, joinPieces parts h.shard h.total = some bs → exec (.returnRow d t) s = .next (w.takeReturn c e h bs))))

/-- Messages of collectives and of the vote (R390, R392 to R396, R402 to R404). -/
def Obligations.CollectiveMessagesAct : Prop :=
  (∀ (s u v : State) (d : Fin 4) (t : Nat) (pk : Packet) (h : CollHead) (c : Coll), u = s.tick t → h = (headStep pk).1 →
    (u.hearsFor d.val 1 pk c v → exec (.post d t) s = .next ((v.noteFirst c h.index).advanceColl d.val c.part c.id)) ∧
    (u.hearsFor d.val 2 pk c v → exec (.key d t) s = .next (((v.noteFirst c h.index).modColl (c.strand / 32) c.part c.id fun x =>
      { x with keys := foldS (fun m i => mput m (256 * (h.first + i) + h.index)
                 (leAt pk.payload (32 + 8 * i) 4, leAt pk.payload (36 + 8 * i) 4)) x.keys (upTo h.count) }).advanceColl d.val c.part c.id)) ∧
    (u.hearsFor d.val 3 pk c v → exec (.anchor d t) s = .next ((v.modColl (c.strand / 32) c.part c.id fun x =>
      { x with anchors := foldS (fun m i => mput m (h.first + i) (leAt pk.payload (32 + 8 * i) 4)) x.anchors
                 (upTo h.count) }).advanceColl d.val c.part c.id)) ∧
    (u.hearsFor d.val 4 pk c v →
      (∀ a, (c.accepted.find? fun a => a.1 == h.index && a.2.1 % 2 ^ 32 == h.first) = some a → a.2.2 = pk.telltale →
        exec (.contrib d t) s = .next ((v.inc (Reg.dspDupDiscardCount d.val)).advanceColl d.val c.part c.id)) ∧
      ((c.accepted.find? fun a => a.1 == h.index && a.2.1 % 2 ^ 32 == h.first) = none → ∀ w,
        w = v.modColl (c.strand / 32) c.part c.id (fun x => { x with
          accepted := x.accepted ++ [(h.index, h.first + 2 ^ 32 * h.count, pk.telltale)] }) →
        (c.reduces = true → exec (.contrib d t) s = .next ((w.takeContrib c h.index ((upTo h.count).map fun i => h.first + i) h.lost
          (pk.payload.drop 32)).advanceColl d.val c.part c.id)) ∧
        (c.reduces = false → exec (.contrib d t) s = .next ((w.collWrite c (h.index * c.count + h.first)
          ((pk.payload.drop 32).take h.count)).advanceColl d.val c.part c.id)))) ∧
    (u.hearsFor d.val 5 pk c v → ∀ ks, ks = ((upTo h.count).map fun i => h.first + i) →
      exec (.result d t) s = .next (((v.modColl (c.strand / 32) c.part c.id fun x => { x with
        results := (ks.filter fun k => !(x.results.contains k)) ++ x.results,
        lost := if h.lost = true then ks ++ x.lost else x.lost }).collWrite c (c.outBytes * 128 * h.first)
        ((pk.payload.drop 32).take (c.outBytes * (ks.map c.width).sum))).advanceColl d.val c.part c.id)) ∧
    (u.hearsFor d.val 6 pk c v → exec (.done d t) s = .next ((v.modColl (c.strand / 32) c.part c.id fun x => { x with
      dones := if x.dones.contains h.index then x.dones else h.index :: x.dones }).advanceColl d.val c.part c.id))) ∧
  (∀ (s u v w : State) (d : Fin 4) (t p : Nat) (pk : Packet) (h : CollHead) (step : Nat), u = s.tick t → (h, step) = headStep pk →
    p = pk.dstPart →
    (u.hears d.val 7 pk v → v.collOrder p step h.run = .eq → w = v.modVote p step h.run (fun x => { x with
        ready := if x.ready.contains (pk.srcModule, pk.srcPart) then x.ready else x.ready ++ [(pk.srcModule, pk.srcPart)] }) →
      exec (.ready d t) s = .next (if v.voteComplete p = false ∧ w.voteComplete p = true ∧ (w.step p).phase = .committing
        then w.voteWaited p else w)) ∧
    (u.hears d.val 8 pk v → v.collOrder p step h.run = .eq → (v.step p).blocking = none →
      w = (if (v.step p).phase = .committing then (v.modStep p fun x => { x with phase := .running }).inc
        (Reg.dspPartColAbortCount p) else v) →
      exec (.abort d t) s = .next (w.block p ⟨w.now, stCollectiveAbort, h.count, (w.hanksOn p d.val).headD (w.firstHank p), 0, 0xFFFFFF,
        none⟩)) ∧
    (u.hears d.val 9 pk v →
      (∀ x, v.vote p step h.run = some x → x.sent = 1 → exec (.query d t) s = .next (v.sendVoteTo p 7 0 step h.run pk)) ∧
      (∀ x, v.vote p step h.run = some x → 2 ≤ x.sent → exec (.query d t) s =
        .next (v.sendVoteTo p 8 (x.sent - 1) step h.run pk)) ∧
      (v.vote p step h.run = none → pk.resend = true → v.collOrder p step h.run ≠ .eq →
        exec (.query d t) s = .next (v.sendVoteTo p 8 1 step h.run pk)))) ∧
  (∀ (s u : State) (d : Fin 4) (t : Nat) (x : Delivered), u = s.tick t →
    ((u.engine d.val).rx.find? fun x => x.packet.vc == 3 && x.packet.ptype == 1 &&
      u.collOrder x.packet.dstPart (headStep x.packet).2 (headStep x.packet).1.run == .gt && (headStep x.packet).1.kind != 9 &&
      u.waitLimit x.packet.dstPart d.val != 0 && decide (x.at_ + u.waitLimit x.packet.dstPart d.val ≤ u.now)) = some x →
    exec (.messageExpired d t) s = .next (((u.modEngine d.val fun e => { e with rx := e.rx.erase x }).inc
      (Reg.dspRxExpiredCount d.val)).refuseColl x.packet stRxExpired 0 0 0)) ∧
  (∀ (s u : State) (st : Fin 128) (t : Nat) (c : Coll), u = s.tick t →
    ((u.engine (st.val / 32)).colls.find? fun c => c.strand == st.val && u.reg (Reg.hnkKnotWaitLimit c.hank) != 0 &&
      decide (c.issuedAt + 1000 * u.reg (Reg.hnkKnotWaitLimit c.hank) < u.now)) = some c →
    exec (.collectiveTimeout st t) s = .next (u.endColl (st.val / 32) c.part c.id stCollectiveTimeout)) ∧
  ∀ (s u v w : State) (p : Fin 16) (t wait : Nat) (x : StepRec) (y : Vote), u = s.tick t → x = u.step p.val →
    u.vote p.val x.counter x.run = some y → x.phase = .committing → u.voteComplete p.val = false →
    wait = (if u.waitLimit p.val ((u.diesOf p.val).headD 0) = 0 then 50000000 else u.waitLimit p.val ((u.diesOf p.val).headD 0)) →
    max y.sentAt y.queried + wait < u.now →
    v = (u.modVote p.val x.counter x.run fun v => { v with queried := u.now }).inc (Reg.dspPartColQueryCount p.val) →
    w = v.fsr { v.record 1 (some p.val) with status := some stCollectiveTimeout } →
    exec (.voteQueryTimeout p t) s = .next (foldS (fun s m =>
      match x.groups.find? fun q => q.modNum == m.1 && q.part == m.2 with
      | none => s
      | some q => s.sendColl p.val ((s.diesOf p.val).headD 0) (q.modNum, q.part, q.die) q.role q.epoch
          (CollHead.bytes ⟨9, false, x.run, q.index, q.tag, 0, 0, 0, q.n, x.counter / 2 ^ 32⟩) false) w
      ((u.voters p.val).filter fun m => !(y.ready.contains m)))

/-- The states of an Ecron port (R361 to R364, R369, R378). -/
def Obligations.PortsTrainAndRetrain : Prop :=
  (∀ (s u : State) (p : Fin 18) (t : Nat), u = s.tick t →
    ((u.port p.val).state = 0 → (u.port p.val).retryAt = none → u.mayTrain p.val = true →
      exec (.portSignalDetect p t) s = .next (u.modPort p.val fun x => { x with state := 1, since := u.now })) ∧
    ((u.port p.val).state = 1 →
      exec (.trainingDone p t) s = .next (u.modPort p.val fun x => { x with state := 2, since := u.now })) ∧
    ((u.port p.val).state = 2 →
      exec (.lock p t) s = .next ((u.modPort p.val fun x => { x with state := 3, since := u.now }).sendHello p.val)) ∧
    ((u.port p.val).state = 5 → exec (.lock p t) s = .next (u.sendHello p.val)) ∧
    (∀ a, (u.port p.val).retryAt = some a → a ≤ u.now →
      exec (.portRetry p t) s = .next (u.modPort p.val fun x => { x with retryAt := none })) ∧
    (u.isUp p.val = true → u.reg Reg.ecnPortErrLimit < ((u.port p.val).uncorr.filter fun a => u.now < a + 1000000).length →
      exec (.errLimitExceeded p t) s = .next (((u.leaveUp p.val).modPort p.val fun x => { x with
        state := 5, since := u.now }).inc (Reg.ecnPortRetrainCount p.val))) ∧
    (u.isUp p.val = true → (u.port p.val).lastCodeword + 20000 ≤ u.now →
      exec (.codewordLoss p t) s = .next (((u.leaveUp p.val).modPort p.val fun x => { x with
        state := 5, since := u.now }).inc (Reg.ecnPortRetrainCount p.val))) ∧
    (u.isUp p.val = true → ∀ v, v = (u.inc (Reg.ecnPortFecUncorrCount p.val)).modPort p.val (fun x => { x with
        uncorr := (u.now :: x.uncorr).filter fun a => u.now < a + 1000000 }) →
      ((v.port p.val).awaiting ≠ none → exec (.uncorrectableCodeword p t) s = .next v) ∧
      ((v.port p.val).awaiting = none → ∀ n, n = (v.port p.val).rxIndex → exec (.uncorrectableCodeword p t) s =
        .next ((v.modPort p.val fun x => { x with awaiting := some n }).sendBlock p.val 3 [n % 2 ^ 32])))) ∧
  (∀ (s u v : State) (p : Fin 18) (b : HelloBlock) (t : Nat) (good : Bool), u = s.tick t →
    ((u.port p.val).state = 3 ∨ (u.port p.val).state = 5) →
    (good = true ↔ b.version = 1 ∧ b.compat = (u.port p.val).compat ∧ u.wiringOk p.val b.modNum b.port = true) →
    v = u.modPort p.val (fun x => { x with peer := some (b.modNum, b.port), peerNonce := b.nonce, wiringBad := !good }) →
    (good = false → exec (.hello p b t) s = .next (v.disablePort p.val)) ∧
    (good = true → ∀ w, w = v.modPort p.val (fun x => { x with
        state := 4, since := u.now, peerSeized := false, txIndex := 0, txAcked := 0, rxIndex := 0, awaiting := none, uncorr := [],
        symErrs := [], lastCodeword := u.now, inFlight := [], credits := upCredits x.declared b.allocs }) →
      exec (.hello p b t) s = .next (if b.restarted = true then { w with
        ecron := { w.ecron with windows := w.ecron.windows.filter fun e => e.1 / 8 != b.modNum } } else w))) ∧
  ∀ (s u : State) (p : Fin 18) (t n : Nat) (x : Port), u = s.tick t → x = u.port p.val → portLimit x.state = some n →
    x.since + n ≤ u.now →
    (x.state ≠ 5 → exec (.portStateTimeout p t) s = .next (u.portDown p.val (some (u.now + 1000000000)))) ∧
    (x.state = 5 → ∀ fails v, fails = (u.now :: x.retrainFails).filter (fun a => u.now ≤ a + 10000000000) →
      v = u.modPort p.val (fun x => { x with retrainFails := fails }) →
      exec (.portStateTimeout p t) s = .next (if 3 ≤ fails.length then v.disablePort p.val
        else v.portDown p.val (some (u.now + 1000000000))))

/-- Control blocks (R363, R364, R366, R374, R382). -/
def Obligations.ControlBlocksAct : Prop :=
  (∀ (s u v : State) (p : Fin 18) (t : Nat), u = s.tick t → u.isUp p.val = true → v = u.modPort p.val (fun x => { x with
      rxIndex := x.rxIndex + 1, awaiting := none, lastCodeword := u.now }) →
    (∀ fixed l, l = (fixed.map fun n => min n 15).filter (fun n => decide (0 < n)) →
      (l = [] → exec (.idle ⟨p, fixed, t⟩) s = .next v) ∧
      (l ≠ [] → exec (.idle ⟨p, fixed, t⟩) s = .next (((v.bump (Reg.ecnPortFecSymCount p.val) l.sum).bump
        (Reg.ecnPortFecCwCount p.val) l.length).modPort p.val fun x => { x with
          symErrs := (u.now, l.sum) :: x.symErrs.filter fun e => decide (u.now < e.1 + 1000000000) }))) ∧
    (∀ (vc : Fin 6) (lane : Fin 2) (n k : Nat), k = 2 * vc.val + lane.val →
      (n ≤ (v.credit p.val k).outstanding → exec (.credit p vc lane ⟨n, t⟩) s = .next (v.modCredit p.val k fun c => { c with
        avail := c.avail + n, outstanding := c.outstanding - n, recvCredits := c.recvCredits + n,
        fresh := (if fabCycle c.freshAt = fabCycle u.now then c.fresh else 0) + n, freshAt := u.now })) ∧
      ((v.credit p.val k).outstanding < n → exec (.credit p vc lane ⟨n, t⟩) s = .next (v.linkFault p.val k)))) ∧
  (∀ (s v : State) (p : Fin 18), s.isUp p.val = true → v = s.modPort p.val (fun x => { x with
      rxIndex := x.rxIndex + 1, awaiting := none, lastCodeword := s.now }) →
    (∀ count, exec (.ack p count) s = .next (v.modPort p.val fun x =>
      if x.txIndex < x.txAcked + (count + 2 ^ 32 - x.txAcked % 2 ^ 32) % 2 ^ 32 then x
      else { x with
        txAcked := x.txAcked + (count + 2 ^ 32 - x.txAcked % 2 ^ 32) % 2 ^ 32,
        inFlight := x.inFlight.filter fun i => x.txAcked + (count + 2 ^ 32 - x.txAcked % 2 ^ 32) % 2 ^ 32 ≤ i.1 })) ∧
    (∀ index n x, x = s.port p.val → n = x.txAcked + (index + 2 ^ 32 - x.txAcked % 2 ^ 32) % 2 ^ 32 →
      exec (.replayReq p index) s = .next (if x.txIndex < n then v
        else foldS (fun s e => s.send e.2) (v.inc (Reg.ecnPortReplayCount p.val)) (x.inFlight.filter fun e => decide (n ≤ e.1))))) ∧
  (∀ (s u v : State) (p : Fin 18) (t : Nat), u = s.tick t → u.isUp p.val = true → v = u.modPort p.val (fun x => { x with
      rxIndex := x.rxIndex + 1, awaiting := none, lastCodeword := u.now }) →
    (∀ (vc : Fin 6) (lane : Fin 2) (a b k : Nat) (c : Credit), k = 2 * vc.val + lane.val → c = v.credit p.val k →
      (a % 2 ^ 48 = c.recvFlits % 2 ^ 48 → b % 2 ^ 48 = c.recvCredits % 2 ^ 48 → exec (.sync p vc lane a b t) s = .next v) ∧
      ((a % 2 ^ 48 ≠ c.recvFlits % 2 ^ 48 ∨ b % 2 ^ 48 ≠ c.recvCredits % 2 ^ 48) → exec (.sync p vc lane a b t) s =
        .next ((v.inc (Reg.ecnPortSyncFail p.val)).linkFault p.val k))) ∧
    (∀ (time : Nat) (seized : Bool) (w : State), w = v.modPort p.val (fun x => { x with peerSeized := seized }) →
      ((w.port p.val).peer = none → exec (.keepalive p time seized t) s = .next w) ∧
      (∀ m, (w.port p.val).peer = some m → exec (.keepalive p time seized t) s = .next { w with
        ecron := { w.ecron with seized := if seized = true then m.1 :: w.ecron.seized.filter fun k => k != m.1
          else w.ecron.seized.filter fun k => k != m.1 } })) ∧
    exec (.ackSend p t) s = .next ((u.sendBlock p.val 2 [(u.port p.val).rxIndex % 2 ^ 32]).modPort p.val fun x => { x with
      lastAck := u.now }) ∧
    exec (.keepaliveSend p t) s = .next ((u.sendBlock p.val 5 [u.now % 2 ^ 64, b2n u.lease.seized]).modPort p.val fun x => { x with
      lastKeep := u.now }) ∧
    ∀ w, w = foldS (fun s k => s.sendBlock p.val 4 [k / 2, k % 2, (s.credit p.val k).sentFlits % 2 ^ 48,
        (s.credit p.val k).sentCredits % 2 ^ 48]) u (upTo 12) →
      exec (.syncSend p t) s = .next (w.modPort p.val fun x => { x with lastSync := u.now })) ∧
  ∀ (s : State) (p : Fin 18) (vc : Fin 6) (lane : Fin 2) (n a b t : Nat) (l : List Nat) (z : Bool), s.isUp p.val = false →
    exec (.idle ⟨p, l, t⟩) s = .next (s.tick t) ∧ exec (.credit p vc lane ⟨n, t⟩) s = .next (s.tick t) ∧ exec (.ack p n) s = .next s ∧
    exec (.replayReq p n) s = .next s ∧ exec (.sync p vc lane a b t) s = .next (s.tick t) ∧
    exec (.keepalive p n z t) s = .next (s.tick t)

/-- Packets and link states (R31, R255, R364, R366, R370, R373 to R379, R485). -/
def Obligations.PacketsTravel : Prop :=
  (∀ (s u v : State) (p : Fin 18) (slot t inPort lane k n : Nat) (pk q : Packet) (x : Port), u = s.tick t →
    mget u.ecron.txq slot = some (p.val, inPort, pk) → x = u.port p.val →
    (inPort = 18 → pk.srcModule = u.self → pk.srcPart < 16 → (u.part pk.srcPart).state ≠ .whipping) →
    lane = (if 15 ≤ p.val then 1 else pk.lane) → k = 2 * pk.vc + lane → n = Packet.length pk + 2 → u.isUp p.val = true →
    u.lease.seized = false → n ≤ (u.credit p.val k).spendable u.now → x.txIndex + n ≤ x.txAcked + 8192 →
    q = (match x.compat, x.peer with
      | true, some m => { pk with lane := lane, keyId := 0xFFFF, tagKey := linkKey u.self m.1 p.val x.ownNonce x.peerNonce }
      | _, _ => { pk with lane := lane }) →
    v = ((State.modCredit { u with ecron := { u.ecron with txq := mdel u.ecron.txq slot } } p.val k fun c => { c with
      avail := c.avail - n, outstanding := c.outstanding + n, sentFlits := c.sentFlits + n }).modPort p.val fun x => { x with
      txIndex := x.txIndex + n, inFlight := x.inFlight ++ [(x.txIndex + n - 1, .packet p.val q)] }).send (.packet p.val q) →
    (inPort ≠ 18 → exec (.packetTransmit p slot t) s = .next (v.release inPort (2 * pk.vc + pk.lane) n)) ∧
    (inPort = 18 → q.srcModule = v.self → exec (.packetTransmit p slot t) s = .next (v.inc (Reg.ecnVcCopiesSent q.vc))) ∧
    (inPort = 18 → q.srcModule ≠ v.self → exec (.packetTransmit p slot t) s = .next v)) ∧
  (∀ (s u w : State) (p : Fin 18) (t n k : Nat) (pk : Packet) (i : Instr), u = s.tick t →
    (i = .data p pk t ∧ pk.ptype ≠ 2 ∧ pk.ptype ≠ 3 ∨ i = .refuse p pk t ∧ pk.ptype = 3 ∨ i = .ackPacket p pk t ∧ pk.ptype = 2) →
    n = Packet.length pk + 2 → k = 2 * pk.vc + pk.lane → u.isUp p.val = true → pk.vc ≤ 5 → pk.lane ≤ 1 →
    n ≤ (u.credit p.val k).rxFree → (u.port p.val).compat = false → pk.keyId ≠ 0xFFFF →
    w = (u.gotBlocks p.val n).modCredit p.val k (fun c => { c with
      rxFree := c.rxFree - n, rxHeld := c.rxHeld + n, recvFlits := c.recvFlits + n }) →
    (pk.dstModule = w.self → exec i s = .next ((w.hubTake pk).release p.val k n)) ∧
    (pk.dstModule ≠ w.self → w.lease.seized = false →
      (∀ out, w.forwardPort pk.dstModule = some out → exec i s = .next (w.enqueueFrom p.val out pk)) ∧
      (w.forwardPort pk.dstModule = none → exec i s = .next ((w.inc Reg.ecnNoRouteCount).release p.val k n)))) ∧
  (∀ (w : State) (pk : Packet) (x : Window) (j : Nat), w.lease.seized = false → pk.reserved = false → pk.version = 1 →
    1 ≤ pk.ptype → pk.ptype ≤ 3 → j = 8 * pk.srcModule + pk.vc → x = mgetD w.ecron.windows j Window.empty →
    (w.tagOk pk = false → w.hubTake pk = w.inc Reg.ecnAuthFailCount) ∧
    (w.tagOk pk = true → x.dup pk.seq = true → w.hubTake pk = w.inc (Reg.ecnVcDup pk.vc)) ∧
    (w.tagOk pk = true → x.dup pk.seq = false → x.late pk.seq = true → w.hubTake pk = w.inc (Reg.ecnVcLate pk.vc)) ∧
    (w.tagOk pk = true → x.dup pk.seq = false → x.late pk.seq = false → ∀ y,
      y = { w with ecron := { w.ecron with windows := mput w.ecron.windows j (x.enter pk.seq) } } → w.start.dirReady = true →
      y.gate pk false = .pass → w.hubTake pk = State.accept (if y.peerEpoch pk.srcModule pk.srcPart < pk.srcEpoch
        then y.raisePeer pk.srcModule pk.srcPart pk.srcEpoch else y) pk)) ∧
  (∀ (s u v : State) (slot t : Nat) (h : Held), u = s.tick t → mget u.ecron.holds slot = some h →
    (h.packet.dstEpoch ≤ (mgetD u.ecron.directory h.packet.dstRole { modNum := 0, part := 0, epoch := 0 }).epoch ∨
      h.since + 1000000 ≤ u.now) → v = { u with ecron := { u.ecron with holds := mdel u.ecron.holds slot } } →
    exec (.epochHold slot t) s = .next (if v.lease.seized = true then v.inc (Reg.ecnVcPathDrop h.packet.vc)
      else v.judge h.packet true)) ∧
  (∀ (s u v : State) (slot t : Nat) (b : Bulk), u = s.tick t → mget u.ecron.bulk slot = some b → b.packet.braided = false →
    u.lease.seized = false → b.sentAt + 1000 * u.reg Reg.ecnBulkTimeout ≤ u.now →
    (b.packet.srcPart < 16 → (u.part b.packet.srcPart).state ≠ .whipping) →
    v = { u with ecron := { u.ecron with bulk := mdel u.ecron.bulk slot } } →
    (u.reg Reg.ecnBulkRetries ≤ b.resends → ∀ num x, u.shipOf b.packet = some (num, x) →
      exec (.bulkTimeout slot t) s = .next (v.endShip num x stShipFailed)) ∧
    (b.resends < u.reg Reg.ecnBulkRetries → ∀ w, w = v.originate { b.packet with
        srcEpoch := v.ownEpoch b.packet.srcPart, resend := true } →
      exec (.bulkTimeout slot t) s = .next { w with
        ecron := { w.ecron with bulk := mmod w.ecron.bulk (b.packet.dstModule + 256 * nget w.ecron.txSeq
          (8 * b.packet.dstModule + b.packet.vc)) fun b2 => { b2 with resends := b.resends + 1 } } })) ∧
  (∀ (s u : State) (src t : Nat) (up : BitVec 18), u = s.tick t → u.lease.seized = false → src / 16 = u.self / 16 → src ≠ u.self →
    exec (.linkState src up t) s = .next { u with ecron := { u.ecron with members := mput u.ecron.members (src % 16) up.toNat } }) ∧
  (∀ (s u v : State) (t : Nat), u = s.tick t → u.lease.seized = false →
    (u.ecron.lastState + 1000000 ≤ u.now ∨ u.upMask ≠ u.ecron.lastStates) →
    v = { u with ecron := { u.ecron with lastState := u.now, lastStates := u.upMask } } →
    exec (.linkStateSend t) s = .next (foldS (fun s i => if s.self / 16 * 16 + i = s.self then s
      else s.originate (s.packet 1 (s.self / 16 * 16 + i, 16, 0) (16, 0) 0xFFFF 0 (toLe 4 u.upMask) 0)) v (upTo 16))) ∧
  ∀ (s u : State) (h : CmdHdr) (v : Word), s.writes h 0x0101 Reg.ecnBraidCtrl u →
    (v.toNat % 16 = 15 → exec (.ecnBraidCtrl h v) s =
      .next ((u.setReg Reg.ecnBraidCtrl (v.toNat % 32 + 32)).reply h.session h.seq stOk [])) ∧
    (v.toNat % 16 ≠ 15 → exec (.ecnBraidCtrl h v) s = .next (u.reply h.session h.seq stSpliceConflict []))

/-- Pins, input power and SMBus (R480, R563, R565, R566, R574, R575). -/
def Obligations.PinsInputAndSideband : Prop :=
  (∀ (s u : State) (v t : Nat), u = s.tick t →
    (u.start.qualified = false → 455 ≤ v → v ≤ 600 → exec (.inputQualified v t) s = .next { u with
      start := { u.start with qualified := true, qualifiedAt := u.now, prsnt := u.start.resetN, vin := v, inputOk := decide (460 ≤ v ∧ v ≤ 580) } }) ∧
    (440 ≤ v → v ≤ 600 → (v < 460 ∨ 580 < v) → ∀ w, w = { u with start := { u.start with vin := v, inputOk := false } } →
      exec (.inputRange v t) s = .next (if u.start.inputOk = true then w.eventC 33 stOk v [] else w)) ∧
    (460 ≤ v → v ≤ 580 → exec (.inputOk v t) s = .next { u with start := { u.start with vin := v, inputOk := true } }) ∧
    ((v < 440 ∨ 600 < v) → exec (.inputShutdown v t) s = .next (State.powerDown { u with
      start := { u.start with qualified := false, vin := v, inputOk := false } }))) ∧
  (∀ (s u : State) (t : Nat) (b : Bool), u = s.tick t →
    (u.start.qualified = true → u.start.resetN = true → u.start.pwrgd = false → exec (.pwrgd t) s = .next { u with
      now := 0, start := { u.start with pwrgd := true, phase := 1, phaseAt := 0 } }) ∧
    (u.start.resetN = true → exec (.resetNLow t) s = .next (State.powerDown { u with
      start := { u.start with resetN := false } })) ∧
    exec (.resetNHigh t) s = .next { u with start := { u.start with resetN := true, prsnt := u.start.qualified } } ∧
    (u.start.latchOpen ≠ b → exec (.trayLatch b t) s = .next (State.eventC { u with
      start := { u.start with latchOpen := b } } 34 stOk (b2n b) []))) ∧
  (∀ (s w : State), w = { s with power := { s.power with lpActive := false } } → s.start.pwrgd = true → 2 ≤ s.start.phase →
    exec (.identity true) s = .next (w.send (.smbus (toLe 1 40 ++ (toLe 4 deviceId ++ slice Config.identity 0 16 ++
      orderNumber ++ toLe 4 s.security.bootCount)))) ∧
    exec (.state true) s = .next (w.send (.smbus (toLe 1 12 ++ (toLe 4 s.gblState ++ toLe 4 s.startStatus ++ toLe 4 s.pins)))) ∧
    exec (.thermal true) s = .next (w.send (.smbus (toLe 1 12 ++ (toLe 4 (s.spotReg 32) ++ toLe 4 (s.spotReg 33) ++
      toLe 2 s.highestNow ++ toLe 2 s.thermo.step)))) ∧
    exec (.power true) s = .next (w.send (.smbus (toLe 1 8 ++ (toLe 4 s.pins ++ toLe 4 s.moduleEst)))) ∧
    (∀ (k : Nat) (d : List Byte), s.start.latchOpen = true → k ≤ 3 → d.length = 64 → exec (.trustWrite k d true) s =
      .next (State.send { w with
        security := { w.security with
          trust := mset w.security.trust k (if d.all (fun b => b == 0) = true then none else some d) } } (.smbus []))) ∧
    (∀ (k : Nat) (d : List Byte), (s.start.latchOpen = false ∨ 3 < k ∨ d.length ≠ 64) →
      exec (.trustWrite k d true) s = .next (s.send .nack)) ∧
    ((s.start.failed = true ∨ s.thermo.trip = true ∨ s.start.inputOk = false) →
      exec (.alertResponse true) s = .next (w.send (.smbus [0x5A]))) ∧
    (s.start.failed = false → s.thermo.trip = false → s.start.inputOk = true →
      exec (.alertResponse true) s = .next (s.send .nack))) ∧
  ∀ (s : State) (pec : Bool) (k : Nat) (d : List Byte), (pec = false ∨ s.start.pwrgd = false ∨ s.start.phase < 2) →
    ∀ i ∈ [Instr.identity pec, .state pec, .thermal pec, .power pec, .trustWrite k d pec, .alertResponse pec],
      exec i s = .next (s.send .nack)

/-- The start-up sequence (R147, R510, R525, R563, R568 to R572, R575). -/
def Obligations.StartUpPhases : Prop :=
  (∀ (s u : State) (t : Nat), u = s.tick t → u.inPhase 1 = true →
    (exec (.aelpo false t) s = .next (u.failStart 2)) ∧
    exec (.aelpo true t) s = .next (State.toPhase { u with
      start := { u.start with slotId := Config.slotStraps % 256 },
      security := { u.security with bootCount := u.security.bootCount + 1 } } 2)) ∧
  (∀ (s u v : State) (okA okB : Bool) (t c : Nat) (x : Update), u = s.tick t → u.inPhase 2 = true → v = u.bootCoil →
    x = v.update → c = x.confirmed →
    ((if c = 0 then okA else okB) = true → exec (.coil okA okB t) s = .next (v.toPhase 3)) ∧
    ((if c = 0 then okA else okB) = false → (if 1 - c = 0 then okA else okB) = true → (x.slot (1 - c)).state = 2 →
      x.minSvn ≤ (x.slot (1 - c)).svn → (x.slot (1 - c)).format = (x.slot c).format →
      exec (.coil okA okB t) s = .next ((State.fellBack { v with
        update := { (x.setSlot c CoilSlot.empty).setState (1 - c) 5 with
          micro := 1 - c, ccf := 1 - c, mgmt := 1 - c } } (1 - c)).toPhase 3)) ∧
    ((if c = 0 then okA else okB) = false → ((if 1 - c = 0 then okA else okB) = false ∨ (x.slot (1 - c)).state ≠ 2 ∨
      (x.slot (1 - c)).svn < x.minSvn ∨ (x.slot (1 - c)).format ≠ (x.slot c).format) →
      exec (.coil okA okB t) s = .next (v.failStart 1))) ∧
  (∀ (s u : State) (t : Nat), u = s.tick t → u.inPhase 3 = true → ∀ v,
    v = foldS (fun s n => s.setDom n { Domain.empty with
      state := .on, target := 0, fromOff := false, cleated := false, since := s.now, offSpans := [(0, some s.now)] }) u (upTo 64) →
    exec (.wake t) s = .next ((foldS (fun s c => s.setCtl c 1) (foldS (fun s g => s.modHank g fun h => { h with
      microSlot := s.update.micro }) v (upTo 16)) (upTo 10)).toPhase 4)) ∧
  (∀ (s u : State) (a : Option (Fin 4)) (b : Option (Fin 20)) (t : Nat), u = s.tick t → u.inPhase 4 = true →
    (∀ l, a = some l → exec (.memory a b t) s = .next (u.failStart 3)) ∧
    (∀ k, a = none → b = some k → exec (.memory a b t) s = .next ((u.setCtl (ctlIndex k.val) 4).failStart 4)) ∧
    (a = none → b = none → exec (.memory a b t) s = .next ((foldS (fun s c => s.setCtl c 2) u (upTo 10)).toPhase 5))) ∧
  (∀ (s u v : State) (t : Nat), u = s.tick t → u.inPhase 5 = true →
    v = foldS (fun s k => s.setOwn k (granulesOf k - 1) 16) u (upTo 20) →
    exec (.init t) s = .next (State.toPhase { v with security := { v.security with slots := [16] } } 6)) ∧
  (∀ (s u v w : State) (l : List (Fin 128)) (bad : Bool) (t : Nat), u = s.tick t → u.inPhase 6 = true →
    v = foldS (fun s (k : Fin 128) => s.quarantine k.val (2 ^ 31)) u l →
    w = (if l = [] then v else { v with start := { v.start with degraded := true } }) →
    exec (.selfTest l bad t) s = .next (if bad = true then w.failStart 5 else w.toPhase 7)) ∧
  (∀ (s u v w : State) (t : Nat), u = s.tick t → u.inPhase 7 = true →
    ((∀ p < 15, bit (u.reg Reg.ecnCtrl) p = true → (u.port p).state = 4) ∨ u.start.phaseAt + 15000000000 ≤ u.now) →
    v = (u.toPhase 8).eventC 31 stOk 0 [] → w = { v with start := { v.start with leaseWaitAt := v.now } } →
    exec (.links t) s = .next (if w.start.dirReady = true then w.toPhase 9 else w)) ∧
  (∀ (s u v : State) (h : CmdHdr), s.writes h 0x0101 Reg.lnyCtrl u → v = { u with start := { u.start with dirReady := true } } →
    exec (.dirReady h) s = .next (State.reply (if v.inPhase 8 = true then v.toPhase 9 else v) h.session h.seq stOk [])) ∧
  ∀ (s u : State) (h : CmdHdr) (v : Word), s.writes h 0x0101 Reg.gblStartCtrl u →
    (u.start.dirReady = true → exec (.gblStartCtrl h v) s = .next (u.reply h.session h.seq stSpliceConflict [])) ∧
    (u.start.dirReady = false → exec (.gblStartCtrl h v) s =
      .next ((u.setReg Reg.gblStartCtrl (v.toNat % 2)).reply h.session h.seq stOk []))

/-- Checks, packs, quarantine, bands, journal and replay (R446, R449 to R459, R467, R471). That FEED counts modulo 2^27 is
the model's reading (DEDUCED, log entry 39). -/
def Obligations.ChecksAndPacks : Prop :=
  (∀ (s u : State) (h : CmdHdr) (first n : Nat) (item : Record → List Byte), s.runs h 0x0700 u → n = 1 ∨ n = 2 →
    (∀ r, item r = toLe 2 (r.encode u.self (isCommander h.session)).length ++ r.encode u.self (isCommander h.session) ++
      toLe (ceilDiv (2 + (r.encode u.self (isCommander h.session)).length) 4 * 4 -
        (2 + (r.encode u.self (isCommander h.session)).length)) 0) →
    (u.recordOf h.session first = none → exec (.fsrRead h first n) s = .next (u.reply h.session h.seq stReelRange [])) ∧
    (∀ r, u.recordOf h.session first = some r → exec (.fsrRead h first n) s = .next (u.reply h.session h.seq stOk
      (toLe 8 (u.newestRecord h.session) ++ (r :: (if n = 2 then (u.recordOf h.session (first + 1)).toList else [])).flatMap
        item)))) ∧
  (∀ (s u : State) (h : CmdHdr) (n : Nat), s.runs h 0x0701 u →
    (u.newestRecord h.session < n → exec (.fsrAck h n) s = .next (u.reply h.session h.seq stReelRange [])) ∧
    (n ≤ u.newestRecord h.session → isCommander h.session = true → exec (.fsrAck h n) s = .next (State.reply { u with
      checks := { u.checks with commanderAck := max u.checks.commanderAck n } } h.session h.seq stOk [])) ∧
    (n ≤ u.newestRecord h.session → isCommander h.session = false → exec (.fsrAck h n) s = .next ((u.modSession h.session fun x =>
      { x with fsrAck := max x.fsrAck n }).reply h.session h.seq stOk []))) ∧
  (∀ (s u v w : State) (h : CmdHdr) (k off total len : Nat) (clear : Bool) (data : List Byte), s.runs h 0x0702 u → k ≤ 15 →
    data.length ≤ 1424 → off + data.length ≤ 2 ^ 22 → data ≠ [] → v = (if clear = true then u.emptyPack k else u) →
    w = (v.poke (packBase k + off) data).packSlot k false → total = off + data.length →
    len = w.peekLe (packBase k + 0xC) 4 →
    (exec (.packLoad h k false clear off data) s = .next (w.reply h.session h.seq stOk [])) ∧
    (w.packGood k total = false → exec (.packLoad h k true clear off data) s =
      .next ((w.emptyPack k).reply h.session h.seq stMalformed [])) ∧
    (w.packGood k total = true → ∀ good, good = Config.verifies (Config.signingKey 1) (shake256 64 (w.peek (packBase k) len))
        (w.peek (packBase k + len) (total - len)) →
      exec (.packLoad h k true clear off data) s = .next (if good = true then (w.packSlot k true).reply h.session h.seq stOk []
        else (w.emptyPack k).reply h.session h.seq stCoilRefused []))) ∧
  (∀ (s u : State) (h : CmdHdr) (p : Fin 16) (v : Word), s.writes h 0x0101 (Reg.chkPartCtrl p.val + s.dieOffset p.val) u →
    (bit v.toNat 0 = true → pairable (u.part p.val).hanks = false →
      exec (.chkPartCtrl h p v) s = .next (u.reply h.session h.seq stSpliceConflict [])) ∧
    ((bit v.toNat 0 = true → pairable (u.part p.val).hanks = true) → exec (.chkPartCtrl h p v) s =
      .next ((u.setReg (Reg.chkPartCtrl p.val) (v.toNat % 2 + 16 * bits v.toNat 6 4)).reply h.session h.seq stOk []))) ∧
  (∀ (s u : State) (h : CmdHdr) (k : Fin 128) (v : Word),
    (s.writes h 0x0101 (Reg.chkStrandQset (k.val / 32) (k.val % 32)) u → (v.toNat % 2 ^ 20 ≠ 0 ∨ bit v.toNat 31 = true) →
      exec (.chkStrandQset h k v) s = .next ((u.quarantine k.val v.toNat).reply h.session h.seq stOk [])) ∧
    (s.writes h 0x0101 (Reg.chkStrandQmask (k.val / 32) (k.val % 32)) u → ∀ a m, a = Reg.chkStrandQmask (k.val / 32) (k.val % 32) →
      m = orBits (v.toNat % 2 ^ 20) (if bit v.toNat 31 = true then 2 ^ 31 else 0) →
      exec (.chkStrandQmask h k v) s = .next ((((u.setReg a (andNotBits (u.reg a) m)).modStrand k.val fun x => { x with
        scores := x.scores.filterMap fun e => if bit m e.1 = true then scoreLeft u.now e else some e,
        released := some (u.now, m) }).freeAvail k.val).reply h.session h.seq stOk []))) ∧
  (∀ (s u : State) (h : CmdHdr) (p : Fin 16) (v : Word),
    (s.writes h 0x0101 (Reg.gblDetPartJrnlRd p.val) u → exec (.gblDetPartJrnlRd h p v) s = .next (State.reply
      (if (u.journal p.val).area.2.2 < ((u.journal p.val).wr + 2 ^ 32 - v.toNat) % 2 ^ 32 then u
        else u.setReg (Reg.gblDetPartJrnlRd p.val) v.toNat) h.session h.seq stOk [])) ∧
    (s.writes h 0x0101 (Reg.gblDetPartReplay p.val) u → ∀ old new, old = bits (u.reg (Reg.gblDetPartReplay p.val)) 27 1 →
      new = bits v.toNat 27 1 → exec (.gblDetPartReplay h p v) s = .next ((u.setReg (Reg.gblDetPartReplay p.val)
        (v.toNat % 2 + 2 * (if (new + 2 ^ 27 - old) % 2 ^ 27 < 2 ^ 26 then new else old))).reply h.session h.seq stOk []))) ∧
  (∀ (s u : State) (d : Fin 4) (t i k : Nat) (x : Pack), u = s.tick t → x = u.packOf d.val →
    bit (u.reg (Reg.chkPackCtrl d.val)) 0 = true →
    x.at_ + 1000000000 * max 1 (bits (u.reg (Reg.chkPackCtrl d.val)) 15 8) ≤ u.now → i = (x.last + 1) % 32 → k = 32 * d.val + i →
    exec (.packRotation d t) s = .next (u.setPack d.val (u.packNext ⟨i, u.now, some k, none, []⟩
      (if (!u.woken || (u.dom (hankDom (hankOf k))).state == .on) = true then u.packTests k else [])))) ∧
  (∀ (s u v w : State) (d : Fin 4) (r : PackResult) (t st g : Nat) (x : Pack) (c : PackTest), u = s.tick t → x = u.packOf d.val →
    x.strand = some st → x.cur = some c → u.packMayRun st = true → v = u.inc (Reg.chkPackRunCount d.val) →
    w = v.setPack d.val (u.packNext x x.rest) → g = hankOf st →
    (r.telltale = c.expected → isBlocking r.status = false → r.us ≤ c.bound →
      exec (.packTestEnd d r t) s = .next (w.modStrand st fun y => { y with packPasses := (y.packPasses + 1) % 65536 })) ∧
    ((r.telltale ≠ c.expected ∨ isBlocking r.status = true ∨ c.bound < r.us) →
      exec (.packTestEnd d r t) s = .next (((w.inc (Reg.chkPackFailCount d.val)).fsr { w.record 6 (w.partOf g) with
        status := if r.status = 0 then none else some r.status,
        wher := [(0, d.val), (1, g), (3, st)], strand := some ((w.hank g).band, c.pattern, (w.hank g).temp),
        pack := some (c.id, c.version, c.num),
        telltales := some (c.expected, r.telltale) }).scoreRise st (4 * (w.hank g).band + c.pattern)))) ∧
  (∀ (s u : State) (k : Fin 128) (c : Fin 20) (t n a : Nat), u = s.tick t → mget (u.strand k.val).scores c.val = some (n, a) →
    a + 86400000000000 ≤ u.now → exec (.scoreDecay k c t) s = .next (u.modStrand k.val fun x => { x with
      scores := mdel x.scores c.val })) ∧
  ∀ (s u : State) (g : Fin 16) (c : LoadCounts) (t pat : Nat) (a b : Int) (x : Hank), u = s.tick t → x = u.hank g.val →
    (u.spot g.val).a = some a → (u.spot g.val).b = some b →
    pat = (if 20 ≤ max c.power x.lastPower - min c.power x.lastPower then 3 else if 500 ≤ c.matrix then 0
      else if 500 ≤ c.vector then 1 else 2) →
    exec (.bandClassify g c t) s = .next (foldS (fun s i => s.freeAvail (8 * g.val + i)) (u.modHank g.val fun h => { h with
      pattern := pat, lastPower := c.power, temp := max a b, banded := true,
      band := if h.banded = true then bandNext h.band (max a b) else bandOf (max a b) }) (upTo 8))

/-- Pages, moves, ships and bight regions (R246, R252, R254, R255, R258, R284). -/
def Obligations.PagesMoveAndShip : Prop :=
  (∀ (s u v : State) (h : CmdHdr) (q : ShipReq) (p id num : Nat) (x : Ship) (sq : Sequence) (chains : List Nat), s.runs h 0x050B u →
    p = sidPart h.session → q.index < (u.part p).seqSize → q.part ≤ 31 → id = (u.part p).seqBase + q.index →
    chains = u.seqChains id →
    ((∀ y, mget u.serve.seqs id = some y → y.state ≠ .retired) ∨ chains = [] → exec (.kvShip h q) s =
      .next (u.reply h.session h.seq stSeqState [])) ∧
    (mget u.serve.seqs id = some sq → sq.state = .retired → chains ≠ [] → (∀ e ∈ u.kv.ships, e.2.seq ≠ id) → num = u.kv.nextShip →
      x = ⟨p, id, q.copy, q.modNum, q.part, u.roleAt q.modNum q.part, q.firstChain, q.epoch,
        ((upTo chains.length).zip chains).flatMap (fun c => ((upTo 65536).zip (u.walk c.2)).map fun e => (c.1 * 65536 + e.1, e.2)),
        false, 0, 0, h.seq, h.session⟩ →
      v = { u with kv := { u.kv with ships := mput u.kv.ships num x, nextShip := num + 1 } } →
      ((v.part p).txKey = none → exec (.kvShip h q) s = .next ((v.endShip num x stShipFailed).reply h.session h.seq stOk [])) ∧
      ((v.part p).txKey ≠ none → exec (.kvShip h q) s = .next ((v.openShip num x false).reply h.session h.seq stOk [])))) ∧
  (∀ (s u v : State) (d : Fin 4) (t num : Nat) (x : Delivered), u = s.tick t →
    ((u.engine d.val).rx.find? fun x => x.packet.vc == 4) = some x →
    v = u.modEngine d.val (fun e => { e with rx := e.rx.erase x }) → num = leAt x.packet.payload 4 4 →
    (leAt x.packet.payload 0 4 = 1 → exec (.kvShipPage d t) s = .next (v.acceptShip x.packet)) ∧
    (leAt x.packet.payload 0 4 = 2 → exec (.kvShipPage d t) s = .next (v.takePiece x.packet)) ∧
    (leAt x.packet.payload 0 4 = 3 → ∀ y r, mget v.kv.ships num = some y → fromHolder y x.packet = true → y.accepted = false →
      r = (v.shipAccepted num y).sendPages num y false y.toSend →
      exec (.kvShipPage d t) s = .next (if r.1 = true then r.2 else r.2.endShip num { y with accepted := true } stShipFailed)) ∧
    (leAt x.packet.payload 0 4 = 4 → ∀ y, mget v.kv.ships num = some y → fromHolder y x.packet = true →
      exec (.kvShipPage d t) s = .next (v.endShip num { y with accepted := true } stOk)) ∧
    (leAt x.packet.payload 0 4 = 5 → ∀ y, v.inboundOf x.packet = some y →
      exec (.kvShipPage d t) s = .next (v.dropInbound y))) ∧
  (∀ (s u v w : State) (p : Fin 16) (t e : Nat) (m : Move) (a b : Page) (r : Nat × List Byte × State), u = s.tick t →
    (u.kv.moves.find? fun m => m.part == p.val) = some m →
    v = { u with kv := { u.kv with moves := u.kv.moves.filter fun x => x != m } } →
    v.page m.source = some a → v.page m.target = some b →
    r = v.fetchMpa none (a.frame * 65536) 65536 [] →
    (r.1 = stOk → w = (r.2.2.storeMpa none (b.frame * 65536) r.2.1 []).2 → e = w.expiryAt (w.reg (Reg.kvpPartTtlCt p.val)) →
      exec (.pageMove p t) s = .next ((((w.setPage m.target (some { a with
        state := .live, ct := b.ct, frame := b.frame,
        expiry := if m.demote = true then e else a.expiry })).repoint m.source m.target).freePage p.val m.source).finishResumes
          p.val)) ∧
    (r.1 ≠ stOk → exec (.pageMove p t) s = .next (((r.2.2.modPage m.source fun x => { x with state := .live }).freePage
      p.val m.target).finishResumes p.val))) ∧
  (∀ (s u v : State) (p : Fin 16) (t : Nat), u = s.tick t → u.live p.val = true → (u.step p.val).phase ≠ .committing →
    0 < u.freePages p.val false + u.freePages p.val true → v = (u.flushHeld p.val).unstarveSeqs p.val →
    exec (.heldFlush p t) s = .next { v with kv := { v.kv with nonEmptyAt := mdel v.kv.nonEmptyAt p.val } }) ∧
  ∀ (s u : State) (h : CmdHdr) (d : Fin 4) (p : Fin 16) (v : Word), s.writes h 0x0101 (Reg.kvpPartBightRegion d.val p.val) u →
    (u.regionOk d.val p.val v.toNat = true → exec (.kvpPartBightRegion h d p v) s =
      .next ((u.setReg (Reg.kvpPartBightRegion d.val p.val) v.toNat).reply h.session h.seq stOk [])) ∧
    (u.regionOk d.val p.val v.toNat = false → exec (.kvpPartBightRegion h d p v) s =
      .next (u.reply h.session h.seq stSpliceConflict []))

/-- Budget accounts and prefix handles (R266, R267, R269, R282). That a commander's partition acts at once is the model's
reading (DEDUCED, log entry 33); that the 64-bit counters wrap is too (log entry 69). -/
def Obligations.AccountsRefillAndPrefixesHold : Prop :=
  (∀ (s u : State) (t n : Nat) (busy : List Nat), u = s.tick t → n = u.now / 1000000 - u.serve.lastRefill / 1000000 → n ≠ 0 →
    busy = (upTo 16).filter (fun p => (u.step p).phase == .committing) →
    exec (.refillTick t) s = .next { u with
      serve := { u.serve with
        accounts := meach u.serve.accounts fun _ a => if busy.contains a.part then a else Account.ticks n a,
        deferredRefill := busy.foldl (fun m p => nput m p (nget m p + n)) u.serve.deferredRefill,
        lastRefill := u.now / 1000000 * 1000000 } }) ∧
  (∀ a : Account, a.pending = none → a.en = true → a.tick = { a with
    residue := (a.rate + a.residue) % 1000,
    balance := a.balance + min ((a.rate + a.residue) / 1000) (a.cap - a.balance),
    refilled := (a.refilled + (a.rate + a.residue) / 1000) % 2 ^ 64,
    capped := (a.capped + ((a.rate + a.residue) / 1000 - min ((a.rate + a.residue) / 1000) (a.cap - a.balance))) % 2 ^ 64 }) ∧
  (∀ (s u : State) (h : CmdHdr) (b : BudgetSet), s.runs h 0x0506 u → b.account < 4096 → b.part < 16 → b.rate < 2 ^ 32 →
    b.cap < 2 ^ 64 → (isCommander h.session = true ∨ b.setPart = false ∧ (u.account b.account).part = sidPart h.session) →
    exec (.budgetSet h b) s = .next ((u.modAccount b.account fun a => { a with
      part := if b.setPart = true then b.part else a.part,
      pending := some (b.rate, b.cap, b.en) }).reply h.session h.seq stOk [])) ∧
  (∀ (s u : State) (h : CmdHdr) (k n m : Nat) (rm : Bool) (a b : Account), s.runs h 0x0507 u → k < 4096 → a = u.account k →
    (a.part ≠ sidPart h.session → exec (.budgetAdjust h k rm n) s = .next (u.reply h.session h.seq stBudgetUnknown [])) ∧
    (a.part = sidPart h.session → m = (if rm = true then min n a.balance else n) →
      b = (if rm = true then { a with balance := a.balance - m, adjOut := a.adjOut + m }
        else { a with balance := a.balance + m, adjIn := a.adjIn + m }) →
      exec (.budgetAdjust h k rm n) s = .next ((u.modAccount k fun _ => b).reply h.session h.seq stOk
        (toLe 8 m ++ toLe 8 b.wrap.balance)))) ∧
  (∀ (s u : State) (h : CmdHdr) (k : Nat), s.runs h 0x0508 u → k < 4096 →
    (isCommander h.session = true ∨ (u.account k).part = sidPart h.session) →
    exec (.budgetRead h k) s = .next (u.reply h.session h.seq stOk (u.accountSeen h.session k).bytes)) ∧
  (∀ (s u : State) (h : CmdHdr) (i n p : Nat) (x : Sequence) (walks : List (List Nat)) (full : Nat → Bool), s.runs h 0x0509 u →
    p = sidPart h.session → i < (u.part p).seqSize → 0 < n → u.seq ((u.part p).seqBase + i) = some x →
    x.state = .decode ∨ x.state = .paused ∨ x.state = .preempted →
    walks = (u.seqChains ((u.part p).seqBase + i)).map (fun c => (u.walk c).take n) →
    full = (fun j => match u.page j with | some y => y.fill == tagCap x.fmt x.mx x.d32 | none => false) →
    ((∀ j < (u.part p).handles, (mget u.serve.handles (p * 65536 + j)).map (fun y => y.live) = some true) →
      exec (.prefixMake h i n) s = .next (u.reply h.session h.seq stPrefixInvalid [])) ∧
    (∀ j, ((upTo (u.part p).handles).find? fun j => ((mget u.serve.handles (p * 65536 + j)).map fun y => y.live) != some true) =
        some j →
      (65535 < n ∨ (∃ w ∈ walks, w.length ≠ n ∨ ∃ g ∈ w, full g = false) ∨ u.refsFit walks.flatten = false →
        exec (.prefixMake h i n) s = .next (u.reply h.session h.seq stPrefixInvalid [])) ∧
      (n ≤ 65535 → (∀ w ∈ walks, w.length = n ∧ ∀ g ∈ w, full g = true) → u.refsFit walks.flatten = true → ∀ gen v,
        gen = ((mget u.serve.handleGen (p * 65536 + j)).map fun g => (g + 1) % 65536).getD 0 →
        v = foldS (fun s i => (s.cancelMove i).addRef i) u walks.flatten →
        exec (.prefixMake h i n) s = .next (State.reply { v with
          serve := { v.serve with
            handles := mput v.serve.handles (p * 65536 + j) ⟨p, gen, true, x.fmt, x.mx, x.d32, n, walks⟩,
            handleGen := mput v.serve.handleGen (p * 65536 + j) gen } } h.session h.seq stOk (toLe 4 (j + 65536 * gen)))))) ∧
  ∀ (s u : State) (h : CmdHdr) (w : Word), s.runs h 0x050A u →
    (u.handle (sidPart h.session) w.toNat = none → exec (.prefixDrop h w) s = .next (u.reply h.session h.seq stPrefixInvalid [])) ∧
    (∀ k x v, u.handle (sidPart h.session) w.toNat = some (k, x) →
      v = foldS (fun s i => s.dropRef (sidPart h.session) i) u x.chains.flatten →
      exec (.prefixDrop h w) s = .next (State.reply { v with
        serve := { v.serve with handles := mdel v.serve.handles k } } h.session h.seq stOk []))

/-- Admission, sequence commands, reels, step building and the page manager (R249, R250, R253, R264, R270, R279, R281,
R285). That an adopted sequence takes the index that owns its chains is the model's reading (DEDUCED, log entry 32); what a cancelled chain's ship and a preempted sequence of the batch do are too (log entry 69). -/
def Obligations.AdmissionAndSequenceControl : Prop :=
  (∀ (s u : State) (h : CmdHdr) (b : List Byte) (p id n : Nat) (x : Sequence) (ok : Bool), s.runs h 0x0500 u →
    p = sidPart h.session → x = Sequence.parse p b → id = leAt b 0x20 4 → n = mgetD u.serve.admission p 0 →
    ok = ((u.account x.account).en && (u.account x.account).part == p) →
    (bit (leAt b 0 4) 17 = false → id = 0xFFFFFFFF →
      (requestBad b 0 = true → exec (.serveSubmit h b) s = .next (u.reply h.session h.seq stMalformed [])) ∧
      (requestBad b 0 = false → ok = false →
        exec (.serveSubmit h b) s = .next (u.reply h.session h.seq stBudgetUnknown [])) ∧
      (requestBad b 0 = false → ok = true → (∀ j < (u.part p).seqSize, u.freeIndex p j = false) →
        exec (.serveSubmit h b) s = .next (u.reply h.session h.seq stAdmitFull [])) ∧
      (∀ i, requestBad b 0 = false → ok = true → ((upTo (u.part p).seqSize).find? fun j => u.freeIndex p j) = some i →
        exec (.serveSubmit h b) s = .next (State.reply ((u.openChains p i x none).admitSeq p i x n) h.session h.seq stOk
          (toLe 4 i ++ toLe 4 0 ++ toLe 8 (leAt b 0x28 8))))) ∧
    (bit (leAt b 0 4) 17 = false → id ≠ 0xFFFFFFFF →
      (∀ k y i, u.handle p id = some (k, y) → requestBad b (y.pages * tagCap y.fmt y.mx y.d32) = false → ok = true →
        y.fmt = x.fmt → y.mx = x.mx → y.d32 = x.d32 → y.chains.length = u.cps p → u.refsFit y.chains.flatten = true →
        ((upTo (u.part p).seqSize).find? fun j => u.freeIndex p j) = some i →
        exec (.serveSubmit h b) s = .next (State.reply ((u.openChains p i x (some y)).admitSeq p i
            { x with prefixPos := y.pages * tagCap y.fmt y.mx y.d32 } n) h.session h.seq stOk
          (toLe 4 i ++ toLe 4 0 ++ toLe 8 (leAt b 0x28 8)))) ∧
      (u.handle p id = none → requestBad b 0 = false → ok = true →
        exec (.serveSubmit h b) s = .next (u.reply h.session h.seq stPrefixInvalid []))) ∧
    (bit (leAt b 0 4) 17 = true → requestBad b 0 = false → ok = true → ∀ i, i = id / u.cps p →
      (id % u.cps p = 0 → i < (u.part p).seqSize → u.seq ((u.part p).seqBase + i) = none → u.adoptable p i x = true →
        ∀ v, v = foldS (fun s c => s.modChain c fun y => { y with seq := (u.part p).seqBase + i }) u (u.chainsFor p i) →
        exec (.serveSubmit h b) s = .next (State.reply (v.admitSeq p i { x with state := .decode, done := x.promptLen } n)
          h.session h.seq stOk (toLe 4 i ++ toLe 4 0 ++ toLe 8 (leAt b 0x28 8)))) ∧
      ((id % u.cps p ≠ 0 ∨ (u.part p).seqSize ≤ i ∨ u.adoptable p i x = false) →
        exec (.serveSubmit h b) s = .next (u.reply h.session h.seq stPrefixInvalid [])))) ∧
  (∀ (s u : State) (h : CmdHdr) (i p q : Nat), p = sidPart h.session → i < (u.part p).seqSize → q = (u.part p).seqBase + i →
    (u.seq q = none → ∀ c ∈ [(0x0501, Instr.serveCancel h i), (0x0502, .servePause h i), (0x0503, .serveResume h i)],
      s.runs h c.1 u → exec c.2 s = .next (u.reply h.session h.seq stSeqState [])) ∧
    ∀ x, u.seq q = some x →
      (s.runs h 0x0501 u →
        (x.state ≠ .retired → exec (.serveCancel h i) s = .next (State.reply
          (u.modSeq q fun y => { y with cancelled := true }) h.session h.seq stOk [])) ∧
        (∀ l, x.state = .retired → l = (u.seqChains q).filter (fun c => (u.chain c).state == .opened) →
          (l = [] → exec (.serveCancel h i) s = .next (u.reply h.session h.seq stSeqState [])) ∧
          (l ≠ [] → ∀ v, v = foldS (fun s e => s.endShip e.1 e.2 stShipFailed) u (u.kv.ships.filter fun e => e.2.seq == q) →
            exec (.serveCancel h i) s = .next (State.reply ((foldS (fun s c => s.closeChain c) v l).tidySeq q)
              h.session h.seq stOk [])))) ∧
      (s.runs h 0x0502 u →
        (x.state ≠ .decode → exec (.servePause h i) s = .next (u.reply h.session h.seq stSeqState [])) ∧
        (x.state = .decode → u.inBatch p q = true → exec (.servePause h i) s = .next (State.reply
          (u.modSeq q fun y => { y with pausing := true }) h.session h.seq stOk [])) ∧
        (x.state = .decode → u.inBatch p q = false → exec (.servePause h i) s = .next (State.reply
          (u.pause p q) h.session h.seq stOk []))) ∧
      (s.runs h 0x0503 u →
        (x.pausing = true → exec (.serveResume h i) s = .next (State.reply
          (u.modSeq q fun y => { y with pausing := false }) h.session h.seq stOk [])) ∧
        (x.pausing = false → x.state = .paused ∨ x.state = .preempted →
          ∀ v, v = ((u.setTtl p q false).modSeq q fun y => { y with resuming := true }).promote p q →
          exec (.serveResume h i) s = .next ((v.finishResume q).reply h.session h.seq stOk [])) ∧
        (x.pausing = false → x.state ≠ .paused → x.state ≠ .preempted →
          exec (.serveResume h i) s = .next (u.reply h.session h.seq stSeqState [])))) ∧
  (∀ (v : State) (q : Nat) (x : Sequence), mget v.serve.seqs q = some x → x.resuming = true →
    (v.kv.moves = [] → v.finishResume q =
      (v.modSeq q fun y => { y with state := y.back, resuming := false }).setChains q .opened) ∧
    (∀ c ∈ v.seqChains q, ∀ i ∈ v.walk c, ∀ m ∈ v.kv.moves, m.source = i → v.finishResume q = v)) ∧
  (∀ (s u : State) (h : CmdHdr) (i f n p q base : Nat) (r : Reel), p = sidPart h.session → i < (u.part p).seqSize →
    q = (u.part p).seqBase + i → r = u.reel q →
    base = u.reg64 (Reg.srvPartReelLo p) (Reg.srvPartReelHi p) + i * 32 * u.ring p →
    (s.runs h 0x0504 u → 0 < n → n ≤ 44 →
      (f < r.rd ∨ r.wr < f → exec (.reelRead h i f n) s = .next (u.reply h.session h.seq stReelRange [])) ∧
      (r.rd ≤ f → f ≤ r.wr → ∀ got seen, got = foldS (fun (a : Nat × List Byte × State) k =>
            if a.1 ≠ stOk then a
            else
              let y := a.2.2.fetchP none p (base + 32 * ((f + k) % u.ring p)) 32 []
              (y.1, a.2.1 ++ y.2.1, y.2.2)) (stOk, [], u) (upTo (min n (r.wr - f))) →
        seen = (mget u.serve.heldReels (2 ^ 20 * p + q)).getD r →
        (got.1 = stOk → exec (.reelRead h i f n) s =
          .next (got.2.2.reply h.session h.seq stOk (toLe 8 seen.wr ++ toLe 8 seen.rd ++ got.2.1))) ∧
        (got.1 ≠ stOk → exec (.reelRead h i f n) s = .next (got.2.2.reply h.session h.seq got.1 [])))) ∧
    (s.runs h 0x0505 u →
      (r.wr < f → exec (.reelAck h i f) s = .next (u.reply h.session h.seq stReelRange [])) ∧
      (f ≤ r.wr → f ≤ r.rd → exec (.reelAck h i f) s = .next (State.reply (u.tidySeq q) h.session h.seq stOk [])) ∧
      (f ≤ r.wr → r.rd < f → exec (.reelAck h i f) s = .next (State.reply (State.tidySeq { u with
        serve := { u.serve with reels := mput u.serve.reels q { r with rd := f } } } q) h.session h.seq stOk [])))) ∧
  (∀ (s u : State) (k : Fin 16) (t : Nat), u = s.tick t → (u.step k.val).mode = 3 → u.mayStart k.val = true →
    mgetD u.serve.batch k.val [] = [] → u.replays k.val = false →
    ((u.plan k.val).entries = [] → exec (.stepBuild k t) s = .next u) ∧
    ((u.plan k.val).entries ≠ [] → exec (.stepBuild k t) s =
      .next (((u.plan k.val).s.throttle k.val (u.plan k.val).throttled).startBatch k.val (u.plan k.val).entries))) ∧
  ∀ (s u : State) (k : Fin 16) (t p : Nat) (starved ct : Bool), u = s.tick t → p = k.val →
    starved = (u.chainsOf p).any (fun c => (u.chain c).state == .starved) → ct = decide (0 < u.freePages p true) →
    ((u.live p = false ∨ (u.step p).phase = .committing) → exec (.pageManager k t) s = .next u) ∧
    (u.live p = true → (u.step p).phase ≠ .committing →
      (u.reg (Reg.kvpPartLowWater p) ≤ u.freePages p false → starved = false → exec (.pageManager k t) s = .next u) ∧
      ((u.freePages p false < u.reg (Reg.kvpPartLowWater p) ∨ starved = true) →
        (∀ e l, ct = true → u.expiredPages p false (fun x => x.state == .paused) = e :: l →
          exec (.pageManager k t) s = .next (u.startMove p e.2.2 true)) ∧
        ((ct = false ∨ u.expiredPages p false (fun x => x.state == .paused) = []) → u.replays p = false →
          (∀ e l, u.expiredPages p true (fun x => x.state != .retired) = e :: l → exec (.pageManager k t) s =
            .next (u.retire p e.2.1 4 4 (u.seqLen p e.2.1) (((u.seq e.2.1).map fun x => x.tokens).getD 0))) ∧
          (u.expiredPages p true (fun x => x.state != .retired) = [] → ct = false → exec (.pageManager k t) s = .next u) ∧
          (u.expiredPages p true (fun x => x.state != .retired) = [] → ct = true → ∀ held, held = ((u.ranked p).filter fun e =>
              e.2.state == .preempted && !(u.movable e.1 false).isEmpty) →
            (∀ e l, held = e :: l → exec (.pageManager k t) s = .next (u.startMove p ((u.movable e.1 false).headD 0) true)) ∧
            (∀ run e v, held = [] → run = ((u.ranked p).filter fun e => e.2.state == .decode || e.2.state == .prefill) →
              (run = [] → exec (.pageManager k t) s = .next u) ∧
              (run.getLast? = some e → u.inBatch p e.1 = true →
                exec (.pageManager k t) s = .next (u.modSeq e.1 fun y => { y with preempting := true })) ∧
              (run.getLast? = some e → u.inBatch p e.1 = false → v = u.preempt p e.1 →
                (v.movable e.1 false = [] → exec (.pageManager k t) s = .next v) ∧
                (∀ g l, v.movable e.1 false = g :: l → exec (.pageManager k t) s = .next (v.startMove p g true))))))))

/-- Video contexts, units, buffers and cores (R313, R314, R317, R319, R328, R333, R334). That the lowest FREE buffer is taken
is a DESIGN CHOICE (log entry 14). -/
def Obligations.VideoContextsUnitsAndBuffers : Prop :=
  (∀ (s u : State) (h : CmdHdr) (d : List Byte) (p c : Nat), s.runs h 0x0600 u → p = sidPart h.session → c = (u.ctxRange p).1 →
    d.length = 128 → vidDescGood d = true → u.pmaOk p (leAt d 0x10 8) (leAt d 0x18 4) = true →
    u.pmaOk p (leAt d 0x20 8) (32 * descBits d 0x28 12 0) = true →
    (descBits d 0 1 0 = 2 → u.pmaOk p (leAt d 0x58 8) (leAt d 0x60 4) = true) →
    ((∀ i < (u.ctxRange p).2, (u.vidCtx (c + i)).isSome = true) →
      exec (.vidOpen h d) s = .next (u.reply h.session h.seq stVidCtxFull [])) ∧
    ∀ i, ((upTo (u.ctxRange p).2).find? fun i => (u.vidCtx (c + i)).isNone) = some i →
      (u.coresOf p = [] → exec (.vidOpen h d) s = .next (u.reply h.session h.seq stVidNoCore [])) ∧
      (u.coresOf p ≠ [] → exec (.vidOpen h d) s = .next (State.reply { u with
        video := { u.video with
          ctxs := mput u.video.ctxs (c + i)
            { part := p, kind := descBits d 0 1 0, desc := d, units := [], lastUnit := none, ringTail := 0, ringUsed := 0,
              wr := 0, rd := 0, needRap := false, waitSince := none, closing := false, bitsTail := 0, bitsUsed := 0,
              unitBytes := [], outQ := [], refs := [], pictures := 0, sinceIdr := 0, fullness := 0,
              qpF := descBits d 0x40 13 8 } } } h.session h.seq stOk (toLe 2 i)))) ∧
  (∀ (s u : State) (h : CmdHdr) (k c : Nat) (x : VidCtx), u.ownCtx (sidPart h.session) k = some (c, x) →
    (s.runs h 0x0601 u →
      ((u.leadCore c).isSome = true → exec (.vidClose h k) s = .next (State.reply
        (u.modCtx c fun y => { y with closing := true }) h.session h.seq stOk [])) ∧
      (u.leadCore c = none → exec (.vidClose h k) s = .next (State.reply (u.endCtx c) h.session h.seq stOk []))) ∧
    (∀ (a : Nat) (unit d : List Byte) (ind : Bool) (seq next len bytes : Nat), s.runs h 0x0602 u → x.encodes = false →
      x.closing = false → unit.length = 16 → descBits unit 0 31 30 = 0 → (ind = false → d.length = len) →
      seq = leAt unit 4 4 → next = (match x.lastUnit with | none => 0 | some n => n + 1) → len = descBits unit 0 27 0 →
      bytes = 16 + 16 * ceilDiv len 16 →
      (seq < next → exec (.vidFeed h k ind a unit d) s = .next (u.reply h.session h.seq stOk [])) ∧
      (next < seq → bit (leAt unit 0 4) 28 = false →
        exec (.vidFeed h k ind a unit d) s = .next (u.reply h.session h.seq stVidSeqGap [])) ∧
      ((next = seq ∨ next < seq ∧ bit (leAt unit 0 4) 28 = true) →
        (x.inBytes < x.ringUsed + bytes →
          exec (.vidFeed h k ind a unit d) s = .next (u.reply h.session h.seq stVidRingFull [])) ∧
        (x.ringUsed + bytes ≤ x.inBytes → ∀ st body t v, (if ind = true then u.fetchP none (sidPart h.session) a len [] else
            (stOk, d, u)) = (st, body, t) →
          (st ≠ stOk → exec (.vidFeed h k ind a unit d) s = .next (t.reply h.session h.seq st [])) ∧
          (st = stOk → v = t.ringStore (sidPart h.session) x.inRing x.inBytes x.ringTail
            (unit ++ body ++ toLe (bytes - (unit ++ body).length) 0) →
          exec (.vidFeed h k ind a unit d) s = .next (State.reply (State.modCtx { v with
              video := { v.video with order := v.video.order + 1 } } c fun y => { y with
                units := y.units ++ [{ seq := seq, length := bytes, pts := leAt unit 8 8, eos := bit (leAt unit 0 4) 29,
                                       place := x.ringTail, handle := 0, forceIdr := false, fedAt := v.now,
                                       order := v.video.order }]
                lastUnit := some seq
                ringTail := (y.ringTail + bytes) % y.inBytes
                ringUsed := y.ringUsed + bytes }) h.session h.seq stOk []))))) ∧
    (∀ (idr : Bool) (w : Word) (pts b : Nat), s.runs h 0x0605 u → x.encodes = true → x.closing = false →
      (u.frameOfHandle (sidPart h.session) w.toNat = none →
        exec (.vidEncode h k idr w pts) s = .next (u.reply h.session h.seq stFrameStale [])) ∧
      (∀ seq, u.frameOfHandle (sidPart h.session) w.toNat = some b →
        seq = (match x.lastUnit with | none => 0 | some n => n + 1) →
        exec (.vidEncode h k idr w pts) s = .next (State.reply (State.modCtx { u with
          video := { u.video with order := u.video.order + 1 } } c fun y => { y with
            units := y.units ++ [{ seq := seq, length := 0, pts := pts, eos := false, place := b, handle := w.toNat,
                                   forceIdr := idr, fedAt := u.now, order := u.video.order }]
            lastUnit := some seq }) h.session h.seq stOk []))) ∧
    (∀ f n, s.runs h 0x0606 u → 0 < n → n ≤ 44 →
      (f < x.rd ∨ x.wr < f → exec (.vidRead h k f n) s = .next (u.reply h.session h.seq stReelRange [])) ∧
      (x.rd ≤ f → f ≤ x.wr → ∀ r, r = u.readRecords (sidPart h.session) x.outRing x.outRecs f (min n (x.wr - f)) →
        (r.1 = stOk → exec (.vidRead h k f n) s =
          .next (r.2.2.reply h.session h.seq stOk (toLe 8 x.wr ++ toLe 8 x.rd ++ r.2.1))) ∧
        (r.1 ≠ stOk → exec (.vidRead h k f n) s = .next (r.2.2.reply h.session h.seq r.1 [])))) ∧
    (∀ f, s.runs h 0x0607 u →
      (x.wr < f → exec (.vidAck h k f) s = .next (u.reply h.session h.seq stReelRange [])) ∧
      (f ≤ x.wr → f ≤ x.rd → exec (.vidAck h k f) s = .next (u.reply h.session h.seq stOk [])) ∧
      (f ≤ x.wr → x.rd < f → exec (.vidAck h k f) s = .next (State.reply (State.drainOut (u.modCtx c fun y => { y with
        rd := f
        bitsUsed := y.bitsUsed - ((x.unitBytes.filter fun e => decide (e.1 < f)).map Prod.snd).sum
        unitBytes := y.unitBytes.filter fun e => decide (f ≤ e.1) }) c) h.session h.seq stOk [])))) ∧
  (∀ (s u : State) (h : CmdHdr) (w : Word),
    (s.runs h 0x0603 u →
      (u.freeBuffer (sidPart h.session) = none →
        exec (.vidAcquire h) s = .next (u.reply h.session h.seq stVidPoolEmpty [])) ∧
      (∀ b, u.freeBuffer (sidPart h.session) = some b → exec (.vidAcquire h) s = .next (State.reply
        (u.modBuffer b fun x => { x with holds := 1, charged := none }) h.session h.seq stOk
        (toLe 4 (u.handleOf (sidPart h.session) b))))) ∧
    (s.runs h 0x0604 u →
      (u.frameOfHandle (sidPart h.session) w.toNat = none →
        exec (.vidRelease h w) s = .next (u.reply h.session h.seq stFrameStale [])) ∧
      (∀ b, u.frameOfHandle (sidPart h.session) w.toNat = some b → exec (.vidRelease h w) s = .next (State.reply
        (u.modBuffer b fun x => { x with holds := x.holds - 1 }) h.session h.seq stOk [])))) ∧
  ∀ (s u : State) (h : CmdHdr) (k : Fin 8) (w : Word) (p : Nat), s.writes h 0x0101 (Reg.vidCoreOwner k.val) u →
    p = u.reg (Reg.vidCoreOwner k.val) % 32 →
    (((u.vidCore k.val).state ≠ 0 ∨ w.toNat % 32 ≠ p ∧ (∃ e ∈ u.video.ctxs, e.2.part = p) ∧ u.coresOf p = [k.val]) →
      exec (.vidCoreOwner h k w) s = .next (u.reply h.session h.seq stSpliceConflict [])) ∧
    ((u.vidCore k.val).state = 0 → (w.toNat % 32 = p ∨ (∀ e ∈ u.video.ctxs, e.2.part ≠ p) ∨ u.coresOf p ≠ [k.val]) →
      exec (.vidCoreOwner h k w) s = .next (State.reply (u.setReg (Reg.vidCoreOwner k.val) (w.toNat % 32))
        h.session h.seq stOk []))

/-- Pictures on the video cores (R312, R318 to R325, R328, R555). What the coded bits decode to is the commands' operand (log entry
13), and what a picture makes of a core's power a free value (log entry 23). -/
def Obligations.PicturesStartAndEnd : Prop :=
  (∀ (s u : State) (k : Fin 8) (f : PicShape) (t p : Nat), u = s.tick t → p = u.reg (Reg.vidCoreOwner k.val) % 32 →
    (((u.vidCore k.val).state ≠ 0 ∨ u.now < (u.vidCore k.val).resetUntil ∨ 16 ≤ p ∨ u.queueHead p = none) →
      exec (.pictureStart k f t) s = .next u) ∧
    ∀ c x e need, (u.vidCore k.val).state = 0 → (u.vidCore k.val).resetUntil ≤ u.now → p < 16 →
      u.queueHead p = some (c, x, e) → need = 3 * x.maxW * x.maxH * (if x.tenBit = true then 2 else 1) / 2 →
      ((x.dpb ≤ u.dpbUsed c ∨ x.outRecs < x.wr - x.rd + x.outQ.length + 2 ∨
          x.encodes = true ∧ x.bitsBytes - x.bitsUsed < need) → exec (.pictureStart k f t) s = .next u) ∧
      (u.dpbUsed c < x.dpb → x.wr - x.rd + x.outQ.length + 2 ≤ x.outRecs →
        (x.encodes = true → need ≤ x.bitsBytes - x.bitsUsed) →
        (u.freeBuffer p = none → exec (.pictureStart k f t) s = .next (if x.waitSince.isSome = true then u else
          u.modCtx c fun y => { y with waitSince := some u.now })) ∧
        ∀ b idle m cores load late v, u.freeBuffer p = some b →
          idle = (u.coresOf p).filter (fun j => j != k.val && u.coreIdle j) →
          m = min (descBits x.desc 0 10 8) (idle.length + 1) →
          cores = (if x.encodes = true ∨ shareOf f m 0 = none ∨ m < 2 then [k.val] else k.val :: idle.take (m - 1)) →
          load = (Config.coreLoad x.encodes).val →
          late = cores.filter (fun j => decide ((u.vidCore j).ramp.level_ coreRate u.now < load)) →
          v = (u.modBuffer b fun y => { y with decoding := c + 1, pic := none }).modCtx c (fun y => { y with waitSince := none }) →
          exec (.pictureStart k f t) s = .next (if late = [] then
            foldS (fun s a =>
              let s := s.reach (44 + a.2) 0xC1
              s.setCore a.2 { s.vidCore a.2 with
                state := if x.encodes = true then 3 else 2, ctx := c, unit := if a.1 = 0 then some e else none, buffer := b,
                since := s.now, counted := s.now,
                share := if cores.length < 2 then .whole else (shareOf f cores.length a.1).getD .whole,
                ramp := (s.vidCore a.2).ramp.toward coreRate s.now load }) v ((upTo cores.length).zip cores)
          else foldS (fun s j => s.setCore j { s.vidCore j with ramp := (s.vidCore j).ramp.toward coreRate s.now load }) u late))) ∧
  (∀ (s u : State) (k : Fin 8) (r : PicReport) (t : Nat) (y : VidCore), u = s.tick t → y = u.vidCore k.val →
    ((y.unit = none ∨ u.vidCtx y.ctx = none) → exec (.pictureDone k r t) s = .next u) ∧
    (u.vidCtx y.ctx = none → exec (.watchdog k r t) s = .next u) ∧
    ∀ e x v w f cycles allowed, y.unit = some e → u.vidCtx y.ctx = some x →
      v = (u.releaseCores y.ctx).bump (Reg.vidPartWindowCount x.part) r.window →
      w = v.inc (Reg.vidPartWdogCount x.part) → f = descBits x.desc 8 15 8 →
      cycles = 2000 + (if x.encodes = true then 4 * x.maxW * x.maxH else r.width * r.height) →
      allowed = (if f = 0 then 32 else f) * cycles / 4 →
      (y.share = .whole → r.reason = 0 → u.now < y.since + cycles → exec (.pictureDone k r t) s = .next u) ∧
      (∀ z, (y.share ≠ .whole ∨ r.reason ≠ 0 ∨ y.since + cycles ≤ u.now) →
        z = (if x.encodes = true then v.encodeDone y.ctx x e y.buffer r false else
          v.decodeDone y.ctx x e y.buffer r false) →
        exec (.pictureDone k r t) s = .next (if x.closing = true then z.endCtx y.ctx else z)) ∧
      ((y.state = 0 ∨ u.now < y.since + allowed) → exec (.watchdog k r t) s = .next u) ∧
      (∀ z, y.state ≠ 0 → y.since + allowed ≤ u.now →
        z = (if x.encodes = true then w.encodeDone y.ctx x e y.buffer r true else w.decodeDone y.ctx x e y.buffer r true) →
        exec (.watchdog k r t) s = .next (if x.closing = true then z.endCtx y.ctx else z))) ∧
  (∀ (s : State) (c : Nat) (x : VidCtx) (e : Unit_) (b : Nat) (r : PicReport) (late : Bool) (reason : Nat),
    (r.reason ≠ 0 ∧ reason = r.reason ∨
      r.reason = 0 ∧ (x.maxW < r.width ∨ x.maxH < r.height ∨
        s.reg (Reg.vidPartBufBytes x.part) < pictureBytes r.width r.height r.tenBit (x.kind == 1)) ∧ reason = 2 ∨
      r.reason = 0 ∧ r.width ≤ x.maxW ∧ r.height ≤ x.maxH ∧
        pictureBytes r.width r.height r.tenBit (x.kind == 1) ≤ s.reg (Reg.vidPartBufBytes x.part) ∧
        x.needRap = true ∧ r.rap = false ∧ reason = 6) →
    ∀ units, units = (if reason = 6 then x.units.take r.units else [((x.units.take r.units).getLast?).getD e]) →
      s.decodeDone c x e b r late = State.takeUnits (foldS (fun s v =>
          s.putRecord c (vidRecord 3 0 reason 0 v.pts 0 0 v.seq 0) 0)
        ((s.modBuffer b fun y => { y with decoding := 0, pic := none }).modCtx c fun y => { y with needRap := true }) units)
        c r.units) ∧
  ∀ (s u : State) (c : Fin 512) (ref : Bool) (t : Nat), u = s.tick t →
    (u.vidCtx c.val = none → exec (.bufferWaitTimeout c ref t) s = .next u) ∧
    ∀ x, u.vidCtx c.val = some x →
      ((x.waitSince = none ∨ x.units = []) → exec (.bufferWaitTimeout c ref t) s = .next u) ∧
      ∀ t0 e l v, x.waitSince = some t0 → x.units = e :: l →
        v = u.putRecord c.val (vidRecord 3 0 1 0 e.pts 0 0 e.seq 0) 0 →
        (u.now ≤ t0 + 1000000 * x.stallMs → exec (.bufferWaitTimeout c ref t) s = .next u) ∧
        (t0 + 1000000 * x.stallMs < u.now → ∀ w, w = (if x.encodes = true then
            (v.dropHold e.place).modCtx c.val fun y => { y with units := y.units.drop 1 } else v.takeUnits c.val 1) →
          exec (.bufferWaitTimeout c ref t) s = .next (w.modCtx c.val fun y => { y with
            waitSince := none
            needRap := y.needRap || (ref && !y.encodes) }))
end

