-- ==== Sys2Proof/Laws/Store.lean ====
section
/-! SUPPORT. The byte store: reading back what was written, and the canonical form that every operation on it keeps. -/

namespace Sys2Proof.Machine

/-! Sparse maps -/

theorem mget_mput_self {α : Type} (m : Map α) (k : Nat) (v : α) : mget (mput m k v) k = some v := by
  induction m with
  | nil => simp [mput, mget]
  | cons e r ih =>
    obtain ⟨j, a⟩ := e
    simp only [mput]
    split
    · simp [mget]
    · split
      · simp [mget]
      · simp [mget, *]

theorem mget_mput_other {α : Type} (m : Map α) (k j : Nat) (v : α) (h : j ≠ k) : mget (mput m k v) j = mget m j := by
  induction m with
  | nil => simp [mput, mget, Ne.symm h]
  | cons e r ih =>
    obtain ⟨i, a⟩ := e
    simp only [mput]
    split
    · simp [mget, Ne.symm h]
    · split
      · rename_i h1 h2
        subst h2
        simp [mget, Ne.symm h]
      · simp [mget, ih]

theorem mgetD_mput_self {α : Type} (m : Map α) (k : Nat) (v d : α) : mgetD (mput m k v) k d = v := by
  simp [mgetD, mget_mput_self]

theorem mgetD_mput_other {α : Type} (m : Map α) (k j : Nat) (v d : α) (h : j ≠ k) :
    mgetD (mput m k v) j d = mgetD m j d := by
  simp [mgetD, mget_mput_other m k j v h]

theorem mget_mdel_self {α : Type} (m : Map α) (k : Nat) : mget (mdel m k) k = none := by
  induction m with
  | nil => rfl
  | cons e r ih =>
    obtain ⟨j, a⟩ := e
    simp only [mdel]
    split
    · exact ih
    · simp [mget, *]

theorem mget_mdel_other {α : Type} (m : Map α) (k j : Nat) (h : j ≠ k) : mget (mdel m k) j = mget m j := by
  induction m with
  | nil => rfl
  | cons e r ih =>
    obtain ⟨i, a⟩ := e
    simp only [mdel]
    split
    · rename_i h1
      subst h1
      simp [mget, Ne.symm h, ih]
    · simp [mget, ih]

/-! Bytes read back -/

theorem bget_bput_self (m : List Host.Cell) (a : Nat) (v : Byte) : bget (bput m a v) a = v := by
  unfold bget bput mgetD
  split
  · simp [mget_mdel_self, *]
  · simp [mget_mput_self]

theorem bget_bput_other (m : List Host.Cell) (a b : Nat) (v : Byte) (h : b ≠ a) : bget (bput m a v) b = bget m b := by
  unfold bget bput mgetD
  split
  · rw [mget_mdel_other m a b h]
  · rw [mget_mput_other m a b v h]

theorem bget_writeBytes_other (bs : List Byte) (m : List Host.Cell) (a b : Nat) (h : b < a ∨ a + bs.length ≤ b) :
    bget (writeBytes m a bs) b = bget m b := by
  induction bs generalizing m a with
  | nil => rfl
  | cons x r ih =>
    simp only [List.length_cons] at h
    rw [writeBytes, ih _ _ (by omega), bget_bput_other _ _ _ _ (by omega)]

theorem bget_writeBytes_at (bs : List Byte) (m : List Host.Cell) (a i : Nat) (h : i < bs.length) :
    bget (writeBytes m a bs) (a + i) = bs[i] := by
  induction bs generalizing m a i with
  | nil => simp at h
  | cons x r ih =>
    rw [writeBytes]
    cases i with
    | zero => rw [bget_writeBytes_other _ _ _ _ (by omega)]; simp [bget_bput_self]
    | succ j =>
      have h2 : a + (j + 1) = (a + 1) + j := by omega
      rw [h2, ih]
      · simp
      · simpa using h

theorem readBytes_writeBytes (m : List Host.Cell) (a : Nat) (bs : List Byte) :
    readBytes (writeBytes m a bs) a bs.length = bs := by
  apply List.ext_getElem
  · simp [readBytes]
  · intro i h1 h2
    simp [readBytes, bget_writeBytes_at _ _ _ _ h2]

/-! The canonical form -/

theorem wfFrom_mono (m : List Host.Cell) (lo hi : Nat) (h : lo ≤ hi) (w : wfFrom hi m = true) : wfFrom lo m = true := by
  cases m with
  | nil => rfl
  | cons e r =>
    obtain ⟨a, v⟩ := e
    simp only [wfFrom, Bool.and_eq_true, decide_eq_true_eq] at w ⊢
    exact ⟨⟨by omega, w.1.2⟩, w.2⟩

theorem wfFrom_mdel (m : List Host.Cell) (lo k : Nat) (w : wfFrom lo m = true) : wfFrom lo (mdel m k) = true := by
  induction m generalizing lo with
  | nil => rfl
  | cons e r ih =>
    obtain ⟨a, v⟩ := e
    simp only [wfFrom, Bool.and_eq_true, decide_eq_true_eq] at w
    simp only [mdel]
    split
    · exact wfFrom_mono _ _ _ (by omega) (ih _ w.2)
    · simp only [wfFrom, Bool.and_eq_true, decide_eq_true_eq]
      exact ⟨w.1, ih _ w.2⟩

theorem wfFrom_mput (m : List Host.Cell) (lo k : Nat) (v : Byte) (hv : v ≠ 0) (hk : lo ≤ k) (w : wfFrom lo m = true) :
    wfFrom lo (mput m k v) = true := by
  induction m generalizing lo with
  | nil => simpa [mput, wfFrom, hk] using hv
  | cons e r ih =>
    obtain ⟨a, x⟩ := e
    simp only [wfFrom, Bool.and_eq_true, decide_eq_true_eq] at w
    simp only [mput]
    split
    · simp only [wfFrom, Bool.and_eq_true, decide_eq_true_eq]
      refine ⟨⟨hk, by simpa using hv⟩, ⟨by omega, w.1.2⟩, w.2⟩
    · split
      · rename_i h1 h2
        subst h2
        simp only [wfFrom, Bool.and_eq_true, decide_eq_true_eq]
        exact ⟨⟨hk, by simpa using hv⟩, w.2⟩
      · simp only [wfFrom, Bool.and_eq_true, decide_eq_true_eq]
        exact ⟨w.1, ih _ (by omega) w.2⟩

theorem wfFrom_filter (m : List Host.Cell) (f : Host.Cell → Bool) (lo : Nat) (w : wfFrom lo m = true) :
    wfFrom lo (m.filter f) = true := by
  induction m generalizing lo with
  | nil => rfl
  | cons e r ih =>
    obtain ⟨a, v⟩ := e
    simp only [wfFrom, Bool.and_eq_true, decide_eq_true_eq] at w
    simp only [List.filter]
    split
    · simp only [wfFrom, Bool.and_eq_true, decide_eq_true_eq]
      exact ⟨w.1, ih _ w.2⟩
    · exact wfFrom_mono _ _ _ (by omega) (ih _ w.2)

theorem wf_bput (m : List Host.Cell) (a : Nat) (v : Byte) (w : Memory.wf m = true) : Memory.wf (bput m a v) = true := by
  unfold bput
  split
  · exact wfFrom_mdel _ _ _ w
  · exact wfFrom_mput _ _ _ _ (by assumption) (Nat.zero_le _) w

theorem wf_writeBytes (bs : List Byte) (m : List Host.Cell) (a : Nat) (w : Memory.wf m = true) :
    Memory.wf (writeBytes m a bs) = true := by
  induction bs generalizing m a with
  | nil => exact w
  | cons b r ih => exact ih _ _ (wf_bput _ _ _ w)

theorem wf_eraseRange (m : List Host.Cell) (lo n : Nat) (w : Memory.wf m = true) : Memory.wf (eraseRange m lo n) = true :=
  wfFrom_filter _ _ _ w

theorem wf_filter (m : List Host.Cell) (f : Host.Cell → Bool) (w : Memory.wf m = true) : Memory.wf (m.filter f) = true :=
  wfFrom_filter _ _ _ w

theorem wf_foldS {α : Type} (f : List Host.Cell → α → List Host.Cell) (l : List α) (m : List Host.Cell)
    (h : ∀ m a, Memory.wf m = true → Memory.wf (f m a) = true) (w : Memory.wf m = true) :
    Memory.wf (foldS f m l) = true := by
  induction l generalizing m with
  | nil => exact w
  | cons a r ih => exact ih _ (h _ _ w)

theorem wf_poke (s : State) (a : Nat) (bs : List Byte) (w : Memory.wf s.mem = true) : Memory.wf (s.poke a bs).mem = true :=
  wf_writeBytes _ _ _ w

theorem wf_wipe (s : State) (a n : Nat) (w : Memory.wf s.mem = true) : Memory.wf (s.wipe a n).mem = true :=
  wf_eraseRange _ _ _ w

theorem wf_pokeP (s : State) (p pma : Nat) (bs : List Byte) (w : Memory.wf s.mem = true) :
    Memory.wf (s.pokeP p pma bs).mem = true := by
  unfold State.pokeP
  split
  · exact w
  · refine wf_foldS _ _ _ (fun m ib h => ?_) w
    split
    · exact wf_bput _ _ _ h
    · exact h

theorem bget_eraseRange (m : List Host.Cell) (lo n a : Nat) :
    bget (eraseRange m lo n) a = if lo ≤ a ∧ a < lo + n then 0 else bget m a := by
  induction m with
  | nil => simp [eraseRange, bget, mgetD, mget]
  | cons e r ih =>
    obtain ⟨j, v⟩ := e
    unfold bget mgetD at ih ⊢
    unfold eraseRange at ih ⊢
    by_cases h : j < lo ∨ lo + n ≤ j
    · rw [List.filter_cons_of_pos (by simpa using h)]
      simp only [mget]
      by_cases hj : j = a
      · subst hj
        rw [if_pos rfl, if_neg (by omega), if_pos rfl]
      · rw [if_neg hj, if_neg hj]; exact ih
    · rw [List.filter_cons_of_neg (by simpa using h)]
      simp only [mget]
      by_cases hj : j = a
      · subst hj
        rw [ih, if_pos (by omega), if_pos (by omega)]
      · rw [if_neg hj]; exact ih

end Sys2Proof.Machine
end

