-- ==== Sys2Proof/Laws/State.lean ====
section
/-! SUPPORT. What each named update of Machine/Ops.lean does to each field of State: one lemma for each field of each update,
true by rfl, so that a proof about State never unfolds a record update. -/

namespace Sys2Proof.Machine

/-! State.tick -/

@[simp] theorem tick_pending (s : State) (t : Nat) : (s.tick t).pending = s.pending := rfl
@[simp] theorem tick_now (s : State) (t : Nat) : (s.tick t).now = max s.now t := rfl
@[simp] theorem tick_fresh (s : State) (t : Nat) : (s.tick t).fresh = s.fresh := rfl
@[simp] theorem tick_regs (s : State) (t : Nat) : (s.tick t).regs = s.regs := rfl
@[simp] theorem tick_mem (s : State) (t : Nat) : (s.tick t).mem = s.mem := rfl
@[simp] theorem tick_owners (s : State) (t : Nat) : (s.tick t).owners = s.owners := rfl
@[simp] theorem tick_strands (s : State) (t : Nat) : (s.tick t).strands = s.strands := rfl
@[simp] theorem tick_dieKnots (s : State) (t : Nat) : (s.tick t).dieKnots = s.dieKnots := rfl
@[simp] theorem tick_hanks (s : State) (t : Nat) : (s.tick t).hanks = s.hanks := rfl
@[simp] theorem tick_parts (s : State) (t : Nat) : (s.tick t).parts = s.parts := rfl
@[simp] theorem tick_units (s : State) (t : Nat) : (s.tick t).units = s.units := rfl
@[simp] theorem tick_ctls (s : State) (t : Nat) : (s.tick t).ctls = s.ctls := rfl
@[simp] theorem tick_errLogs (s : State) (t : Nat) : (s.tick t).errLogs = s.errLogs := rfl
@[simp] theorem tick_errDropped (s : State) (t : Nat) : (s.tick t).errDropped = s.errDropped := rfl
@[simp] theorem tick_fairlead (s : State) (t : Nat) : (s.tick t).fairlead = s.fairlead := rfl
@[simp] theorem tick_ecron (s : State) (t : Nat) : (s.tick t).ecron = s.ecron := rfl
@[simp] theorem tick_sessions (s : State) (t : Nat) : (s.tick t).sessions = s.sessions := rfl
@[simp] theorem tick_hostPorts (s : State) (t : Nat) : (s.tick t).hostPorts = s.hostPorts := rfl
@[simp] theorem tick_recoveries (s : State) (t : Nat) : (s.tick t).recoveries = s.recoveries := rfl
@[simp] theorem tick_meters (s : State) (t : Nat) : (s.tick t).meters = s.meters := rfl
@[simp] theorem tick_ptp (s : State) (t : Nat) : (s.tick t).ptp = s.ptp := rfl
@[simp] theorem tick_lease (s : State) (t : Nat) : (s.tick t).lease = s.lease := rfl
@[simp] theorem tick_kv (s : State) (t : Nat) : (s.tick t).kv = s.kv := rfl
@[simp] theorem tick_serve (s : State) (t : Nat) : (s.tick t).serve = s.serve := rfl
@[simp] theorem tick_dispatch (s : State) (t : Nat) : (s.tick t).dispatch = s.dispatch := rfl
@[simp] theorem tick_video (s : State) (t : Nat) : (s.tick t).video = s.video := rfl
@[simp] theorem tick_update (s : State) (t : Nat) : (s.tick t).update = s.update := rfl
@[simp] theorem tick_power (s : State) (t : Nat) : (s.tick t).power = s.power := rfl
@[simp] theorem tick_thermo (s : State) (t : Nat) : (s.tick t).thermo = s.thermo := rfl
@[simp] theorem tick_start (s : State) (t : Nat) : (s.tick t).start = s.start := rfl
@[simp] theorem tick_security (s : State) (t : Nat) : (s.tick t).security = s.security := rfl
@[simp] theorem tick_journals (s : State) (t : Nat) : (s.tick t).journals = s.journals := rfl
@[simp] theorem tick_checks (s : State) (t : Nat) : (s.tick t).checks = s.checks := rfl
@[simp] theorem tick_snaps (s : State) (t : Nat) : (s.tick t).snaps = s.snaps := rfl
@[simp] theorem tick_sent (s : State) (t : Nat) : (s.tick t).sent = s.sent := rfl

/-! State.setReg -/

@[simp] theorem setReg_pending (s : State) (a v : Nat) : (s.setReg a v).pending = s.pending := rfl
@[simp] theorem setReg_now (s : State) (a v : Nat) : (s.setReg a v).now = s.now := rfl
@[simp] theorem setReg_fresh (s : State) (a v : Nat) : (s.setReg a v).fresh = s.fresh := rfl
@[simp] theorem setReg_regs (s : State) (a v : Nat) : (s.setReg a v).regs = if v = resetOf a then mdel s.regs a else mput s.regs a v := rfl
@[simp] theorem setReg_mem (s : State) (a v : Nat) : (s.setReg a v).mem = s.mem := rfl
@[simp] theorem setReg_owners (s : State) (a v : Nat) : (s.setReg a v).owners = s.owners := rfl
@[simp] theorem setReg_strands (s : State) (a v : Nat) : (s.setReg a v).strands = s.strands := rfl
@[simp] theorem setReg_dieKnots (s : State) (a v : Nat) : (s.setReg a v).dieKnots = s.dieKnots := rfl
@[simp] theorem setReg_hanks (s : State) (a v : Nat) : (s.setReg a v).hanks = s.hanks := rfl
@[simp] theorem setReg_parts (s : State) (a v : Nat) : (s.setReg a v).parts = s.parts := rfl
@[simp] theorem setReg_units (s : State) (a v : Nat) : (s.setReg a v).units = s.units := rfl
@[simp] theorem setReg_ctls (s : State) (a v : Nat) : (s.setReg a v).ctls = s.ctls := rfl
@[simp] theorem setReg_errLogs (s : State) (a v : Nat) : (s.setReg a v).errLogs = s.errLogs := rfl
@[simp] theorem setReg_errDropped (s : State) (a v : Nat) : (s.setReg a v).errDropped = s.errDropped := rfl
@[simp] theorem setReg_fairlead (s : State) (a v : Nat) : (s.setReg a v).fairlead = s.fairlead := rfl
@[simp] theorem setReg_ecron (s : State) (a v : Nat) : (s.setReg a v).ecron = s.ecron := rfl
@[simp] theorem setReg_sessions (s : State) (a v : Nat) : (s.setReg a v).sessions = s.sessions := rfl
@[simp] theorem setReg_hostPorts (s : State) (a v : Nat) : (s.setReg a v).hostPorts = s.hostPorts := rfl
@[simp] theorem setReg_recoveries (s : State) (a v : Nat) : (s.setReg a v).recoveries = s.recoveries := rfl
@[simp] theorem setReg_meters (s : State) (a v : Nat) : (s.setReg a v).meters = s.meters := rfl
@[simp] theorem setReg_ptp (s : State) (a v : Nat) : (s.setReg a v).ptp = s.ptp := rfl
@[simp] theorem setReg_lease (s : State) (a v : Nat) : (s.setReg a v).lease = s.lease := rfl
@[simp] theorem setReg_kv (s : State) (a v : Nat) : (s.setReg a v).kv = s.kv := rfl
@[simp] theorem setReg_serve (s : State) (a v : Nat) : (s.setReg a v).serve = s.serve := rfl
@[simp] theorem setReg_dispatch (s : State) (a v : Nat) : (s.setReg a v).dispatch = s.dispatch := rfl
@[simp] theorem setReg_video (s : State) (a v : Nat) : (s.setReg a v).video = s.video := rfl
@[simp] theorem setReg_update (s : State) (a v : Nat) : (s.setReg a v).update = s.update := rfl
@[simp] theorem setReg_power (s : State) (a v : Nat) : (s.setReg a v).power = s.power := rfl
@[simp] theorem setReg_thermo (s : State) (a v : Nat) : (s.setReg a v).thermo = s.thermo := rfl
@[simp] theorem setReg_start (s : State) (a v : Nat) : (s.setReg a v).start = s.start := rfl
@[simp] theorem setReg_security (s : State) (a v : Nat) : (s.setReg a v).security = s.security := rfl
@[simp] theorem setReg_journals (s : State) (a v : Nat) : (s.setReg a v).journals = s.journals := rfl
@[simp] theorem setReg_checks (s : State) (a v : Nat) : (s.setReg a v).checks = s.checks := rfl
@[simp] theorem setReg_snaps (s : State) (a v : Nat) : (s.setReg a v).snaps = s.snaps := rfl
@[simp] theorem setReg_sent (s : State) (a v : Nat) : (s.setReg a v).sent = s.sent := rfl

/-! State.bump -/

@[simp] theorem bump_pending (s : State) (a n : Nat) : (s.bump a n).pending = s.pending := rfl
@[simp] theorem bump_now (s : State) (a n : Nat) : (s.bump a n).now = s.now := rfl
@[simp] theorem bump_fresh (s : State) (a n : Nat) : (s.bump a n).fresh = s.fresh := rfl
@[simp] theorem bump_mem (s : State) (a n : Nat) : (s.bump a n).mem = s.mem := rfl
@[simp] theorem bump_owners (s : State) (a n : Nat) : (s.bump a n).owners = s.owners := rfl
@[simp] theorem bump_strands (s : State) (a n : Nat) : (s.bump a n).strands = s.strands := rfl
@[simp] theorem bump_dieKnots (s : State) (a n : Nat) : (s.bump a n).dieKnots = s.dieKnots := rfl
@[simp] theorem bump_hanks (s : State) (a n : Nat) : (s.bump a n).hanks = s.hanks := rfl
@[simp] theorem bump_parts (s : State) (a n : Nat) : (s.bump a n).parts = s.parts := rfl
@[simp] theorem bump_units (s : State) (a n : Nat) : (s.bump a n).units = s.units := rfl
@[simp] theorem bump_ctls (s : State) (a n : Nat) : (s.bump a n).ctls = s.ctls := rfl
@[simp] theorem bump_errLogs (s : State) (a n : Nat) : (s.bump a n).errLogs = s.errLogs := rfl
@[simp] theorem bump_errDropped (s : State) (a n : Nat) : (s.bump a n).errDropped = s.errDropped := rfl
@[simp] theorem bump_fairlead (s : State) (a n : Nat) : (s.bump a n).fairlead = s.fairlead := rfl
@[simp] theorem bump_ecron (s : State) (a n : Nat) : (s.bump a n).ecron = s.ecron := rfl
@[simp] theorem bump_sessions (s : State) (a n : Nat) : (s.bump a n).sessions = s.sessions := rfl
@[simp] theorem bump_hostPorts (s : State) (a n : Nat) : (s.bump a n).hostPorts = s.hostPorts := rfl
@[simp] theorem bump_recoveries (s : State) (a n : Nat) : (s.bump a n).recoveries = s.recoveries := rfl
@[simp] theorem bump_meters (s : State) (a n : Nat) : (s.bump a n).meters = s.meters := rfl
@[simp] theorem bump_ptp (s : State) (a n : Nat) : (s.bump a n).ptp = s.ptp := rfl
@[simp] theorem bump_lease (s : State) (a n : Nat) : (s.bump a n).lease = s.lease := rfl
@[simp] theorem bump_kv (s : State) (a n : Nat) : (s.bump a n).kv = s.kv := rfl
@[simp] theorem bump_serve (s : State) (a n : Nat) : (s.bump a n).serve = s.serve := rfl
@[simp] theorem bump_dispatch (s : State) (a n : Nat) : (s.bump a n).dispatch = s.dispatch := rfl
@[simp] theorem bump_video (s : State) (a n : Nat) : (s.bump a n).video = s.video := rfl
@[simp] theorem bump_update (s : State) (a n : Nat) : (s.bump a n).update = s.update := rfl
@[simp] theorem bump_power (s : State) (a n : Nat) : (s.bump a n).power = s.power := rfl
@[simp] theorem bump_thermo (s : State) (a n : Nat) : (s.bump a n).thermo = s.thermo := rfl
@[simp] theorem bump_start (s : State) (a n : Nat) : (s.bump a n).start = s.start := rfl
@[simp] theorem bump_security (s : State) (a n : Nat) : (s.bump a n).security = s.security := rfl
@[simp] theorem bump_journals (s : State) (a n : Nat) : (s.bump a n).journals = s.journals := rfl
@[simp] theorem bump_checks (s : State) (a n : Nat) : (s.bump a n).checks = s.checks := rfl
@[simp] theorem bump_snaps (s : State) (a n : Nat) : (s.bump a n).snaps = s.snaps := rfl
@[simp] theorem bump_sent (s : State) (a n : Nat) : (s.bump a n).sent = s.sent := rfl

/-! State.inc -/

@[simp] theorem inc_pending (s : State) (a : Nat) : (s.inc a).pending = s.pending := rfl
@[simp] theorem inc_now (s : State) (a : Nat) : (s.inc a).now = s.now := rfl
@[simp] theorem inc_fresh (s : State) (a : Nat) : (s.inc a).fresh = s.fresh := rfl
@[simp] theorem inc_mem (s : State) (a : Nat) : (s.inc a).mem = s.mem := rfl
@[simp] theorem inc_owners (s : State) (a : Nat) : (s.inc a).owners = s.owners := rfl
@[simp] theorem inc_strands (s : State) (a : Nat) : (s.inc a).strands = s.strands := rfl
@[simp] theorem inc_dieKnots (s : State) (a : Nat) : (s.inc a).dieKnots = s.dieKnots := rfl
@[simp] theorem inc_hanks (s : State) (a : Nat) : (s.inc a).hanks = s.hanks := rfl
@[simp] theorem inc_parts (s : State) (a : Nat) : (s.inc a).parts = s.parts := rfl
@[simp] theorem inc_units (s : State) (a : Nat) : (s.inc a).units = s.units := rfl
@[simp] theorem inc_ctls (s : State) (a : Nat) : (s.inc a).ctls = s.ctls := rfl
@[simp] theorem inc_errLogs (s : State) (a : Nat) : (s.inc a).errLogs = s.errLogs := rfl
@[simp] theorem inc_errDropped (s : State) (a : Nat) : (s.inc a).errDropped = s.errDropped := rfl
@[simp] theorem inc_fairlead (s : State) (a : Nat) : (s.inc a).fairlead = s.fairlead := rfl
@[simp] theorem inc_ecron (s : State) (a : Nat) : (s.inc a).ecron = s.ecron := rfl
@[simp] theorem inc_sessions (s : State) (a : Nat) : (s.inc a).sessions = s.sessions := rfl
@[simp] theorem inc_hostPorts (s : State) (a : Nat) : (s.inc a).hostPorts = s.hostPorts := rfl
@[simp] theorem inc_recoveries (s : State) (a : Nat) : (s.inc a).recoveries = s.recoveries := rfl
@[simp] theorem inc_meters (s : State) (a : Nat) : (s.inc a).meters = s.meters := rfl
@[simp] theorem inc_ptp (s : State) (a : Nat) : (s.inc a).ptp = s.ptp := rfl
@[simp] theorem inc_lease (s : State) (a : Nat) : (s.inc a).lease = s.lease := rfl
@[simp] theorem inc_kv (s : State) (a : Nat) : (s.inc a).kv = s.kv := rfl
@[simp] theorem inc_serve (s : State) (a : Nat) : (s.inc a).serve = s.serve := rfl
@[simp] theorem inc_dispatch (s : State) (a : Nat) : (s.inc a).dispatch = s.dispatch := rfl
@[simp] theorem inc_video (s : State) (a : Nat) : (s.inc a).video = s.video := rfl
@[simp] theorem inc_update (s : State) (a : Nat) : (s.inc a).update = s.update := rfl
@[simp] theorem inc_power (s : State) (a : Nat) : (s.inc a).power = s.power := rfl
@[simp] theorem inc_thermo (s : State) (a : Nat) : (s.inc a).thermo = s.thermo := rfl
@[simp] theorem inc_start (s : State) (a : Nat) : (s.inc a).start = s.start := rfl
@[simp] theorem inc_security (s : State) (a : Nat) : (s.inc a).security = s.security := rfl
@[simp] theorem inc_journals (s : State) (a : Nat) : (s.inc a).journals = s.journals := rfl
@[simp] theorem inc_checks (s : State) (a : Nat) : (s.inc a).checks = s.checks := rfl
@[simp] theorem inc_snaps (s : State) (a : Nat) : (s.inc a).snaps = s.snaps := rfl
@[simp] theorem inc_sent (s : State) (a : Nat) : (s.inc a).sent = s.sent := rfl

/-! State.raiseReg -/

@[simp] theorem raiseReg_pending (s : State) (a v : Nat) : (s.raiseReg a v).pending = s.pending := rfl
@[simp] theorem raiseReg_now (s : State) (a v : Nat) : (s.raiseReg a v).now = s.now := rfl
@[simp] theorem raiseReg_fresh (s : State) (a v : Nat) : (s.raiseReg a v).fresh = s.fresh := rfl
@[simp] theorem raiseReg_mem (s : State) (a v : Nat) : (s.raiseReg a v).mem = s.mem := rfl
@[simp] theorem raiseReg_owners (s : State) (a v : Nat) : (s.raiseReg a v).owners = s.owners := rfl
@[simp] theorem raiseReg_strands (s : State) (a v : Nat) : (s.raiseReg a v).strands = s.strands := rfl
@[simp] theorem raiseReg_dieKnots (s : State) (a v : Nat) : (s.raiseReg a v).dieKnots = s.dieKnots := rfl
@[simp] theorem raiseReg_hanks (s : State) (a v : Nat) : (s.raiseReg a v).hanks = s.hanks := rfl
@[simp] theorem raiseReg_parts (s : State) (a v : Nat) : (s.raiseReg a v).parts = s.parts := rfl
@[simp] theorem raiseReg_units (s : State) (a v : Nat) : (s.raiseReg a v).units = s.units := rfl
@[simp] theorem raiseReg_ctls (s : State) (a v : Nat) : (s.raiseReg a v).ctls = s.ctls := rfl
@[simp] theorem raiseReg_errLogs (s : State) (a v : Nat) : (s.raiseReg a v).errLogs = s.errLogs := rfl
@[simp] theorem raiseReg_errDropped (s : State) (a v : Nat) : (s.raiseReg a v).errDropped = s.errDropped := rfl
@[simp] theorem raiseReg_fairlead (s : State) (a v : Nat) : (s.raiseReg a v).fairlead = s.fairlead := rfl
@[simp] theorem raiseReg_ecron (s : State) (a v : Nat) : (s.raiseReg a v).ecron = s.ecron := rfl
@[simp] theorem raiseReg_sessions (s : State) (a v : Nat) : (s.raiseReg a v).sessions = s.sessions := rfl
@[simp] theorem raiseReg_hostPorts (s : State) (a v : Nat) : (s.raiseReg a v).hostPorts = s.hostPorts := rfl
@[simp] theorem raiseReg_recoveries (s : State) (a v : Nat) : (s.raiseReg a v).recoveries = s.recoveries := rfl
@[simp] theorem raiseReg_meters (s : State) (a v : Nat) : (s.raiseReg a v).meters = s.meters := rfl
@[simp] theorem raiseReg_ptp (s : State) (a v : Nat) : (s.raiseReg a v).ptp = s.ptp := rfl
@[simp] theorem raiseReg_lease (s : State) (a v : Nat) : (s.raiseReg a v).lease = s.lease := rfl
@[simp] theorem raiseReg_kv (s : State) (a v : Nat) : (s.raiseReg a v).kv = s.kv := rfl
@[simp] theorem raiseReg_serve (s : State) (a v : Nat) : (s.raiseReg a v).serve = s.serve := rfl
@[simp] theorem raiseReg_dispatch (s : State) (a v : Nat) : (s.raiseReg a v).dispatch = s.dispatch := rfl
@[simp] theorem raiseReg_video (s : State) (a v : Nat) : (s.raiseReg a v).video = s.video := rfl
@[simp] theorem raiseReg_update (s : State) (a v : Nat) : (s.raiseReg a v).update = s.update := rfl
@[simp] theorem raiseReg_power (s : State) (a v : Nat) : (s.raiseReg a v).power = s.power := rfl
@[simp] theorem raiseReg_thermo (s : State) (a v : Nat) : (s.raiseReg a v).thermo = s.thermo := rfl
@[simp] theorem raiseReg_start (s : State) (a v : Nat) : (s.raiseReg a v).start = s.start := rfl
@[simp] theorem raiseReg_security (s : State) (a v : Nat) : (s.raiseReg a v).security = s.security := rfl
@[simp] theorem raiseReg_journals (s : State) (a v : Nat) : (s.raiseReg a v).journals = s.journals := rfl
@[simp] theorem raiseReg_checks (s : State) (a v : Nat) : (s.raiseReg a v).checks = s.checks := rfl
@[simp] theorem raiseReg_snaps (s : State) (a v : Nat) : (s.raiseReg a v).snaps = s.snaps := rfl
@[simp] theorem raiseReg_sent (s : State) (a v : Nat) : (s.raiseReg a v).sent = s.sent := rfl

/-! State.setFlags -/

@[simp] theorem setFlags_pending (s : State) (a f : Nat) : (s.setFlags a f).pending = s.pending := rfl
@[simp] theorem setFlags_now (s : State) (a f : Nat) : (s.setFlags a f).now = s.now := rfl
@[simp] theorem setFlags_fresh (s : State) (a f : Nat) : (s.setFlags a f).fresh = s.fresh := rfl
@[simp] theorem setFlags_mem (s : State) (a f : Nat) : (s.setFlags a f).mem = s.mem := rfl
@[simp] theorem setFlags_owners (s : State) (a f : Nat) : (s.setFlags a f).owners = s.owners := rfl
@[simp] theorem setFlags_strands (s : State) (a f : Nat) : (s.setFlags a f).strands = s.strands := rfl
@[simp] theorem setFlags_dieKnots (s : State) (a f : Nat) : (s.setFlags a f).dieKnots = s.dieKnots := rfl
@[simp] theorem setFlags_hanks (s : State) (a f : Nat) : (s.setFlags a f).hanks = s.hanks := rfl
@[simp] theorem setFlags_parts (s : State) (a f : Nat) : (s.setFlags a f).parts = s.parts := rfl
@[simp] theorem setFlags_units (s : State) (a f : Nat) : (s.setFlags a f).units = s.units := rfl
@[simp] theorem setFlags_ctls (s : State) (a f : Nat) : (s.setFlags a f).ctls = s.ctls := rfl
@[simp] theorem setFlags_errLogs (s : State) (a f : Nat) : (s.setFlags a f).errLogs = s.errLogs := rfl
@[simp] theorem setFlags_errDropped (s : State) (a f : Nat) : (s.setFlags a f).errDropped = s.errDropped := rfl
@[simp] theorem setFlags_fairlead (s : State) (a f : Nat) : (s.setFlags a f).fairlead = s.fairlead := rfl
@[simp] theorem setFlags_ecron (s : State) (a f : Nat) : (s.setFlags a f).ecron = s.ecron := rfl
@[simp] theorem setFlags_sessions (s : State) (a f : Nat) : (s.setFlags a f).sessions = s.sessions := rfl
@[simp] theorem setFlags_hostPorts (s : State) (a f : Nat) : (s.setFlags a f).hostPorts = s.hostPorts := rfl
@[simp] theorem setFlags_recoveries (s : State) (a f : Nat) : (s.setFlags a f).recoveries = s.recoveries := rfl
@[simp] theorem setFlags_meters (s : State) (a f : Nat) : (s.setFlags a f).meters = s.meters := rfl
@[simp] theorem setFlags_ptp (s : State) (a f : Nat) : (s.setFlags a f).ptp = s.ptp := rfl
@[simp] theorem setFlags_lease (s : State) (a f : Nat) : (s.setFlags a f).lease = s.lease := rfl
@[simp] theorem setFlags_kv (s : State) (a f : Nat) : (s.setFlags a f).kv = s.kv := rfl
@[simp] theorem setFlags_serve (s : State) (a f : Nat) : (s.setFlags a f).serve = s.serve := rfl
@[simp] theorem setFlags_dispatch (s : State) (a f : Nat) : (s.setFlags a f).dispatch = s.dispatch := rfl
@[simp] theorem setFlags_video (s : State) (a f : Nat) : (s.setFlags a f).video = s.video := rfl
@[simp] theorem setFlags_update (s : State) (a f : Nat) : (s.setFlags a f).update = s.update := rfl
@[simp] theorem setFlags_power (s : State) (a f : Nat) : (s.setFlags a f).power = s.power := rfl
@[simp] theorem setFlags_thermo (s : State) (a f : Nat) : (s.setFlags a f).thermo = s.thermo := rfl
@[simp] theorem setFlags_start (s : State) (a f : Nat) : (s.setFlags a f).start = s.start := rfl
@[simp] theorem setFlags_security (s : State) (a f : Nat) : (s.setFlags a f).security = s.security := rfl
@[simp] theorem setFlags_journals (s : State) (a f : Nat) : (s.setFlags a f).journals = s.journals := rfl
@[simp] theorem setFlags_checks (s : State) (a f : Nat) : (s.setFlags a f).checks = s.checks := rfl
@[simp] theorem setFlags_snaps (s : State) (a f : Nat) : (s.setFlags a f).snaps = s.snaps := rfl
@[simp] theorem setFlags_sent (s : State) (a f : Nat) : (s.setFlags a f).sent = s.sent := rfl

/-! State.setStrand -/

@[simp] theorem setStrand_pending (s : State) (i : Nat) (x : Strand) : (s.setStrand i x).pending = s.pending := rfl
@[simp] theorem setStrand_now (s : State) (i : Nat) (x : Strand) : (s.setStrand i x).now = s.now := rfl
@[simp] theorem setStrand_fresh (s : State) (i : Nat) (x : Strand) : (s.setStrand i x).fresh = s.fresh := rfl
@[simp] theorem setStrand_regs (s : State) (i : Nat) (x : Strand) : (s.setStrand i x).regs = s.regs := rfl
@[simp] theorem setStrand_mem (s : State) (i : Nat) (x : Strand) : (s.setStrand i x).mem = s.mem := rfl
@[simp] theorem setStrand_owners (s : State) (i : Nat) (x : Strand) : (s.setStrand i x).owners = s.owners := rfl
@[simp] theorem setStrand_strands (s : State) (i : Nat) (x : Strand) : (s.setStrand i x).strands = mput s.strands i x := rfl
@[simp] theorem setStrand_dieKnots (s : State) (i : Nat) (x : Strand) : (s.setStrand i x).dieKnots = s.dieKnots := rfl
@[simp] theorem setStrand_hanks (s : State) (i : Nat) (x : Strand) : (s.setStrand i x).hanks = s.hanks := rfl
@[simp] theorem setStrand_parts (s : State) (i : Nat) (x : Strand) : (s.setStrand i x).parts = s.parts := rfl
@[simp] theorem setStrand_units (s : State) (i : Nat) (x : Strand) : (s.setStrand i x).units = s.units := rfl
@[simp] theorem setStrand_ctls (s : State) (i : Nat) (x : Strand) : (s.setStrand i x).ctls = s.ctls := rfl
@[simp] theorem setStrand_errLogs (s : State) (i : Nat) (x : Strand) : (s.setStrand i x).errLogs = s.errLogs := rfl
@[simp] theorem setStrand_errDropped (s : State) (i : Nat) (x : Strand) : (s.setStrand i x).errDropped = s.errDropped := rfl
@[simp] theorem setStrand_fairlead (s : State) (i : Nat) (x : Strand) : (s.setStrand i x).fairlead = s.fairlead := rfl
@[simp] theorem setStrand_ecron (s : State) (i : Nat) (x : Strand) : (s.setStrand i x).ecron = s.ecron := rfl
@[simp] theorem setStrand_sessions (s : State) (i : Nat) (x : Strand) : (s.setStrand i x).sessions = s.sessions := rfl
@[simp] theorem setStrand_hostPorts (s : State) (i : Nat) (x : Strand) : (s.setStrand i x).hostPorts = s.hostPorts := rfl
@[simp] theorem setStrand_recoveries (s : State) (i : Nat) (x : Strand) : (s.setStrand i x).recoveries = s.recoveries := rfl
@[simp] theorem setStrand_meters (s : State) (i : Nat) (x : Strand) : (s.setStrand i x).meters = s.meters := rfl
@[simp] theorem setStrand_ptp (s : State) (i : Nat) (x : Strand) : (s.setStrand i x).ptp = s.ptp := rfl
@[simp] theorem setStrand_lease (s : State) (i : Nat) (x : Strand) : (s.setStrand i x).lease = s.lease := rfl
@[simp] theorem setStrand_kv (s : State) (i : Nat) (x : Strand) : (s.setStrand i x).kv = s.kv := rfl
@[simp] theorem setStrand_serve (s : State) (i : Nat) (x : Strand) : (s.setStrand i x).serve = s.serve := rfl
@[simp] theorem setStrand_dispatch (s : State) (i : Nat) (x : Strand) : (s.setStrand i x).dispatch = s.dispatch := rfl
@[simp] theorem setStrand_video (s : State) (i : Nat) (x : Strand) : (s.setStrand i x).video = s.video := rfl
@[simp] theorem setStrand_update (s : State) (i : Nat) (x : Strand) : (s.setStrand i x).update = s.update := rfl
@[simp] theorem setStrand_power (s : State) (i : Nat) (x : Strand) : (s.setStrand i x).power = s.power := rfl
@[simp] theorem setStrand_thermo (s : State) (i : Nat) (x : Strand) : (s.setStrand i x).thermo = s.thermo := rfl
@[simp] theorem setStrand_start (s : State) (i : Nat) (x : Strand) : (s.setStrand i x).start = s.start := rfl
@[simp] theorem setStrand_security (s : State) (i : Nat) (x : Strand) : (s.setStrand i x).security = s.security := rfl
@[simp] theorem setStrand_journals (s : State) (i : Nat) (x : Strand) : (s.setStrand i x).journals = s.journals := rfl
@[simp] theorem setStrand_checks (s : State) (i : Nat) (x : Strand) : (s.setStrand i x).checks = s.checks := rfl
@[simp] theorem setStrand_snaps (s : State) (i : Nat) (x : Strand) : (s.setStrand i x).snaps = s.snaps := rfl
@[simp] theorem setStrand_sent (s : State) (i : Nat) (x : Strand) : (s.setStrand i x).sent = s.sent := rfl

/-! State.modStrand -/

@[simp] theorem modStrand_pending (s : State) (i : Nat) (f : Strand → Strand) : (s.modStrand i f).pending = s.pending := rfl
@[simp] theorem modStrand_now (s : State) (i : Nat) (f : Strand → Strand) : (s.modStrand i f).now = s.now := rfl
@[simp] theorem modStrand_fresh (s : State) (i : Nat) (f : Strand → Strand) : (s.modStrand i f).fresh = s.fresh := rfl
@[simp] theorem modStrand_regs (s : State) (i : Nat) (f : Strand → Strand) : (s.modStrand i f).regs = s.regs := rfl
@[simp] theorem modStrand_mem (s : State) (i : Nat) (f : Strand → Strand) : (s.modStrand i f).mem = s.mem := rfl
@[simp] theorem modStrand_owners (s : State) (i : Nat) (f : Strand → Strand) : (s.modStrand i f).owners = s.owners := rfl
@[simp] theorem modStrand_strands (s : State) (i : Nat) (f : Strand → Strand) : (s.modStrand i f).strands = mput s.strands i (f (s.strand i)) := rfl
@[simp] theorem modStrand_dieKnots (s : State) (i : Nat) (f : Strand → Strand) : (s.modStrand i f).dieKnots = s.dieKnots := rfl
@[simp] theorem modStrand_hanks (s : State) (i : Nat) (f : Strand → Strand) : (s.modStrand i f).hanks = s.hanks := rfl
@[simp] theorem modStrand_parts (s : State) (i : Nat) (f : Strand → Strand) : (s.modStrand i f).parts = s.parts := rfl
@[simp] theorem modStrand_units (s : State) (i : Nat) (f : Strand → Strand) : (s.modStrand i f).units = s.units := rfl
@[simp] theorem modStrand_ctls (s : State) (i : Nat) (f : Strand → Strand) : (s.modStrand i f).ctls = s.ctls := rfl
@[simp] theorem modStrand_errLogs (s : State) (i : Nat) (f : Strand → Strand) : (s.modStrand i f).errLogs = s.errLogs := rfl
@[simp] theorem modStrand_errDropped (s : State) (i : Nat) (f : Strand → Strand) : (s.modStrand i f).errDropped = s.errDropped := rfl
@[simp] theorem modStrand_fairlead (s : State) (i : Nat) (f : Strand → Strand) : (s.modStrand i f).fairlead = s.fairlead := rfl
@[simp] theorem modStrand_ecron (s : State) (i : Nat) (f : Strand → Strand) : (s.modStrand i f).ecron = s.ecron := rfl
@[simp] theorem modStrand_sessions (s : State) (i : Nat) (f : Strand → Strand) : (s.modStrand i f).sessions = s.sessions := rfl
@[simp] theorem modStrand_hostPorts (s : State) (i : Nat) (f : Strand → Strand) : (s.modStrand i f).hostPorts = s.hostPorts := rfl
@[simp] theorem modStrand_recoveries (s : State) (i : Nat) (f : Strand → Strand) : (s.modStrand i f).recoveries = s.recoveries := rfl
@[simp] theorem modStrand_meters (s : State) (i : Nat) (f : Strand → Strand) : (s.modStrand i f).meters = s.meters := rfl
@[simp] theorem modStrand_ptp (s : State) (i : Nat) (f : Strand → Strand) : (s.modStrand i f).ptp = s.ptp := rfl
@[simp] theorem modStrand_lease (s : State) (i : Nat) (f : Strand → Strand) : (s.modStrand i f).lease = s.lease := rfl
@[simp] theorem modStrand_kv (s : State) (i : Nat) (f : Strand → Strand) : (s.modStrand i f).kv = s.kv := rfl
@[simp] theorem modStrand_serve (s : State) (i : Nat) (f : Strand → Strand) : (s.modStrand i f).serve = s.serve := rfl
@[simp] theorem modStrand_dispatch (s : State) (i : Nat) (f : Strand → Strand) : (s.modStrand i f).dispatch = s.dispatch := rfl
@[simp] theorem modStrand_video (s : State) (i : Nat) (f : Strand → Strand) : (s.modStrand i f).video = s.video := rfl
@[simp] theorem modStrand_update (s : State) (i : Nat) (f : Strand → Strand) : (s.modStrand i f).update = s.update := rfl
@[simp] theorem modStrand_power (s : State) (i : Nat) (f : Strand → Strand) : (s.modStrand i f).power = s.power := rfl
@[simp] theorem modStrand_thermo (s : State) (i : Nat) (f : Strand → Strand) : (s.modStrand i f).thermo = s.thermo := rfl
@[simp] theorem modStrand_start (s : State) (i : Nat) (f : Strand → Strand) : (s.modStrand i f).start = s.start := rfl
@[simp] theorem modStrand_security (s : State) (i : Nat) (f : Strand → Strand) : (s.modStrand i f).security = s.security := rfl
@[simp] theorem modStrand_journals (s : State) (i : Nat) (f : Strand → Strand) : (s.modStrand i f).journals = s.journals := rfl
@[simp] theorem modStrand_checks (s : State) (i : Nat) (f : Strand → Strand) : (s.modStrand i f).checks = s.checks := rfl
@[simp] theorem modStrand_snaps (s : State) (i : Nat) (f : Strand → Strand) : (s.modStrand i f).snaps = s.snaps := rfl
@[simp] theorem modStrand_sent (s : State) (i : Nat) (f : Strand → Strand) : (s.modStrand i f).sent = s.sent := rfl

/-! State.setHank -/

@[simp] theorem setHank_pending (s : State) (g : Nat) (x : Hank) : (s.setHank g x).pending = s.pending := rfl
@[simp] theorem setHank_now (s : State) (g : Nat) (x : Hank) : (s.setHank g x).now = s.now := rfl
@[simp] theorem setHank_fresh (s : State) (g : Nat) (x : Hank) : (s.setHank g x).fresh = s.fresh := rfl
@[simp] theorem setHank_regs (s : State) (g : Nat) (x : Hank) : (s.setHank g x).regs = s.regs := rfl
@[simp] theorem setHank_mem (s : State) (g : Nat) (x : Hank) : (s.setHank g x).mem = s.mem := rfl
@[simp] theorem setHank_owners (s : State) (g : Nat) (x : Hank) : (s.setHank g x).owners = s.owners := rfl
@[simp] theorem setHank_strands (s : State) (g : Nat) (x : Hank) : (s.setHank g x).strands = s.strands := rfl
@[simp] theorem setHank_dieKnots (s : State) (g : Nat) (x : Hank) : (s.setHank g x).dieKnots = s.dieKnots := rfl
@[simp] theorem setHank_hanks (s : State) (g : Nat) (x : Hank) : (s.setHank g x).hanks = mput s.hanks g x := rfl
@[simp] theorem setHank_parts (s : State) (g : Nat) (x : Hank) : (s.setHank g x).parts = s.parts := rfl
@[simp] theorem setHank_units (s : State) (g : Nat) (x : Hank) : (s.setHank g x).units = s.units := rfl
@[simp] theorem setHank_ctls (s : State) (g : Nat) (x : Hank) : (s.setHank g x).ctls = s.ctls := rfl
@[simp] theorem setHank_errLogs (s : State) (g : Nat) (x : Hank) : (s.setHank g x).errLogs = s.errLogs := rfl
@[simp] theorem setHank_errDropped (s : State) (g : Nat) (x : Hank) : (s.setHank g x).errDropped = s.errDropped := rfl
@[simp] theorem setHank_fairlead (s : State) (g : Nat) (x : Hank) : (s.setHank g x).fairlead = s.fairlead := rfl
@[simp] theorem setHank_ecron (s : State) (g : Nat) (x : Hank) : (s.setHank g x).ecron = s.ecron := rfl
@[simp] theorem setHank_sessions (s : State) (g : Nat) (x : Hank) : (s.setHank g x).sessions = s.sessions := rfl
@[simp] theorem setHank_hostPorts (s : State) (g : Nat) (x : Hank) : (s.setHank g x).hostPorts = s.hostPorts := rfl
@[simp] theorem setHank_recoveries (s : State) (g : Nat) (x : Hank) : (s.setHank g x).recoveries = s.recoveries := rfl
@[simp] theorem setHank_meters (s : State) (g : Nat) (x : Hank) : (s.setHank g x).meters = s.meters := rfl
@[simp] theorem setHank_ptp (s : State) (g : Nat) (x : Hank) : (s.setHank g x).ptp = s.ptp := rfl
@[simp] theorem setHank_lease (s : State) (g : Nat) (x : Hank) : (s.setHank g x).lease = s.lease := rfl
@[simp] theorem setHank_kv (s : State) (g : Nat) (x : Hank) : (s.setHank g x).kv = s.kv := rfl
@[simp] theorem setHank_serve (s : State) (g : Nat) (x : Hank) : (s.setHank g x).serve = s.serve := rfl
@[simp] theorem setHank_dispatch (s : State) (g : Nat) (x : Hank) : (s.setHank g x).dispatch = s.dispatch := rfl
@[simp] theorem setHank_video (s : State) (g : Nat) (x : Hank) : (s.setHank g x).video = s.video := rfl
@[simp] theorem setHank_update (s : State) (g : Nat) (x : Hank) : (s.setHank g x).update = s.update := rfl
@[simp] theorem setHank_power (s : State) (g : Nat) (x : Hank) : (s.setHank g x).power = s.power := rfl
@[simp] theorem setHank_thermo (s : State) (g : Nat) (x : Hank) : (s.setHank g x).thermo = s.thermo := rfl
@[simp] theorem setHank_start (s : State) (g : Nat) (x : Hank) : (s.setHank g x).start = s.start := rfl
@[simp] theorem setHank_security (s : State) (g : Nat) (x : Hank) : (s.setHank g x).security = s.security := rfl
@[simp] theorem setHank_journals (s : State) (g : Nat) (x : Hank) : (s.setHank g x).journals = s.journals := rfl
@[simp] theorem setHank_checks (s : State) (g : Nat) (x : Hank) : (s.setHank g x).checks = s.checks := rfl
@[simp] theorem setHank_snaps (s : State) (g : Nat) (x : Hank) : (s.setHank g x).snaps = s.snaps := rfl
@[simp] theorem setHank_sent (s : State) (g : Nat) (x : Hank) : (s.setHank g x).sent = s.sent := rfl

/-! State.modHank -/

@[simp] theorem modHank_pending (s : State) (g : Nat) (f : Hank → Hank) : (s.modHank g f).pending = s.pending := rfl
@[simp] theorem modHank_now (s : State) (g : Nat) (f : Hank → Hank) : (s.modHank g f).now = s.now := rfl
@[simp] theorem modHank_fresh (s : State) (g : Nat) (f : Hank → Hank) : (s.modHank g f).fresh = s.fresh := rfl
@[simp] theorem modHank_regs (s : State) (g : Nat) (f : Hank → Hank) : (s.modHank g f).regs = s.regs := rfl
@[simp] theorem modHank_mem (s : State) (g : Nat) (f : Hank → Hank) : (s.modHank g f).mem = s.mem := rfl
@[simp] theorem modHank_owners (s : State) (g : Nat) (f : Hank → Hank) : (s.modHank g f).owners = s.owners := rfl
@[simp] theorem modHank_strands (s : State) (g : Nat) (f : Hank → Hank) : (s.modHank g f).strands = s.strands := rfl
@[simp] theorem modHank_dieKnots (s : State) (g : Nat) (f : Hank → Hank) : (s.modHank g f).dieKnots = s.dieKnots := rfl
@[simp] theorem modHank_hanks (s : State) (g : Nat) (f : Hank → Hank) : (s.modHank g f).hanks = mput s.hanks g (f (s.hank g)) := rfl
@[simp] theorem modHank_parts (s : State) (g : Nat) (f : Hank → Hank) : (s.modHank g f).parts = s.parts := rfl
@[simp] theorem modHank_units (s : State) (g : Nat) (f : Hank → Hank) : (s.modHank g f).units = s.units := rfl
@[simp] theorem modHank_ctls (s : State) (g : Nat) (f : Hank → Hank) : (s.modHank g f).ctls = s.ctls := rfl
@[simp] theorem modHank_errLogs (s : State) (g : Nat) (f : Hank → Hank) : (s.modHank g f).errLogs = s.errLogs := rfl
@[simp] theorem modHank_errDropped (s : State) (g : Nat) (f : Hank → Hank) : (s.modHank g f).errDropped = s.errDropped := rfl
@[simp] theorem modHank_fairlead (s : State) (g : Nat) (f : Hank → Hank) : (s.modHank g f).fairlead = s.fairlead := rfl
@[simp] theorem modHank_ecron (s : State) (g : Nat) (f : Hank → Hank) : (s.modHank g f).ecron = s.ecron := rfl
@[simp] theorem modHank_sessions (s : State) (g : Nat) (f : Hank → Hank) : (s.modHank g f).sessions = s.sessions := rfl
@[simp] theorem modHank_hostPorts (s : State) (g : Nat) (f : Hank → Hank) : (s.modHank g f).hostPorts = s.hostPorts := rfl
@[simp] theorem modHank_recoveries (s : State) (g : Nat) (f : Hank → Hank) : (s.modHank g f).recoveries = s.recoveries := rfl
@[simp] theorem modHank_meters (s : State) (g : Nat) (f : Hank → Hank) : (s.modHank g f).meters = s.meters := rfl
@[simp] theorem modHank_ptp (s : State) (g : Nat) (f : Hank → Hank) : (s.modHank g f).ptp = s.ptp := rfl
@[simp] theorem modHank_lease (s : State) (g : Nat) (f : Hank → Hank) : (s.modHank g f).lease = s.lease := rfl
@[simp] theorem modHank_kv (s : State) (g : Nat) (f : Hank → Hank) : (s.modHank g f).kv = s.kv := rfl
@[simp] theorem modHank_serve (s : State) (g : Nat) (f : Hank → Hank) : (s.modHank g f).serve = s.serve := rfl
@[simp] theorem modHank_dispatch (s : State) (g : Nat) (f : Hank → Hank) : (s.modHank g f).dispatch = s.dispatch := rfl
@[simp] theorem modHank_video (s : State) (g : Nat) (f : Hank → Hank) : (s.modHank g f).video = s.video := rfl
@[simp] theorem modHank_update (s : State) (g : Nat) (f : Hank → Hank) : (s.modHank g f).update = s.update := rfl
@[simp] theorem modHank_power (s : State) (g : Nat) (f : Hank → Hank) : (s.modHank g f).power = s.power := rfl
@[simp] theorem modHank_thermo (s : State) (g : Nat) (f : Hank → Hank) : (s.modHank g f).thermo = s.thermo := rfl
@[simp] theorem modHank_start (s : State) (g : Nat) (f : Hank → Hank) : (s.modHank g f).start = s.start := rfl
@[simp] theorem modHank_security (s : State) (g : Nat) (f : Hank → Hank) : (s.modHank g f).security = s.security := rfl
@[simp] theorem modHank_journals (s : State) (g : Nat) (f : Hank → Hank) : (s.modHank g f).journals = s.journals := rfl
@[simp] theorem modHank_checks (s : State) (g : Nat) (f : Hank → Hank) : (s.modHank g f).checks = s.checks := rfl
@[simp] theorem modHank_snaps (s : State) (g : Nat) (f : Hank → Hank) : (s.modHank g f).snaps = s.snaps := rfl
@[simp] theorem modHank_sent (s : State) (g : Nat) (f : Hank → Hank) : (s.modHank g f).sent = s.sent := rfl

/-! State.setPart -/

@[simp] theorem setPart_pending (s : State) (p : Nat) (x : Part) : (s.setPart p x).pending = s.pending := rfl
@[simp] theorem setPart_now (s : State) (p : Nat) (x : Part) : (s.setPart p x).now = s.now := rfl
@[simp] theorem setPart_fresh (s : State) (p : Nat) (x : Part) : (s.setPart p x).fresh = s.fresh := rfl
@[simp] theorem setPart_regs (s : State) (p : Nat) (x : Part) : (s.setPart p x).regs = s.regs := rfl
@[simp] theorem setPart_mem (s : State) (p : Nat) (x : Part) : (s.setPart p x).mem = s.mem := rfl
@[simp] theorem setPart_owners (s : State) (p : Nat) (x : Part) : (s.setPart p x).owners = s.owners := rfl
@[simp] theorem setPart_strands (s : State) (p : Nat) (x : Part) : (s.setPart p x).strands = s.strands := rfl
@[simp] theorem setPart_dieKnots (s : State) (p : Nat) (x : Part) : (s.setPart p x).dieKnots = s.dieKnots := rfl
@[simp] theorem setPart_hanks (s : State) (p : Nat) (x : Part) : (s.setPart p x).hanks = s.hanks := rfl
@[simp] theorem setPart_parts (s : State) (p : Nat) (x : Part) : (s.setPart p x).parts = mput s.parts p x := rfl
@[simp] theorem setPart_units (s : State) (p : Nat) (x : Part) : (s.setPart p x).units = s.units := rfl
@[simp] theorem setPart_ctls (s : State) (p : Nat) (x : Part) : (s.setPart p x).ctls = s.ctls := rfl
@[simp] theorem setPart_errLogs (s : State) (p : Nat) (x : Part) : (s.setPart p x).errLogs = s.errLogs := rfl
@[simp] theorem setPart_errDropped (s : State) (p : Nat) (x : Part) : (s.setPart p x).errDropped = s.errDropped := rfl
@[simp] theorem setPart_fairlead (s : State) (p : Nat) (x : Part) : (s.setPart p x).fairlead = s.fairlead := rfl
@[simp] theorem setPart_ecron (s : State) (p : Nat) (x : Part) : (s.setPart p x).ecron = s.ecron := rfl
@[simp] theorem setPart_sessions (s : State) (p : Nat) (x : Part) : (s.setPart p x).sessions = s.sessions := rfl
@[simp] theorem setPart_hostPorts (s : State) (p : Nat) (x : Part) : (s.setPart p x).hostPorts = s.hostPorts := rfl
@[simp] theorem setPart_recoveries (s : State) (p : Nat) (x : Part) : (s.setPart p x).recoveries = s.recoveries := rfl
@[simp] theorem setPart_meters (s : State) (p : Nat) (x : Part) : (s.setPart p x).meters = s.meters := rfl
@[simp] theorem setPart_ptp (s : State) (p : Nat) (x : Part) : (s.setPart p x).ptp = s.ptp := rfl
@[simp] theorem setPart_lease (s : State) (p : Nat) (x : Part) : (s.setPart p x).lease = s.lease := rfl
@[simp] theorem setPart_kv (s : State) (p : Nat) (x : Part) : (s.setPart p x).kv = s.kv := rfl
@[simp] theorem setPart_serve (s : State) (p : Nat) (x : Part) : (s.setPart p x).serve = s.serve := rfl
@[simp] theorem setPart_dispatch (s : State) (p : Nat) (x : Part) : (s.setPart p x).dispatch = s.dispatch := rfl
@[simp] theorem setPart_video (s : State) (p : Nat) (x : Part) : (s.setPart p x).video = s.video := rfl
@[simp] theorem setPart_update (s : State) (p : Nat) (x : Part) : (s.setPart p x).update = s.update := rfl
@[simp] theorem setPart_power (s : State) (p : Nat) (x : Part) : (s.setPart p x).power = s.power := rfl
@[simp] theorem setPart_thermo (s : State) (p : Nat) (x : Part) : (s.setPart p x).thermo = s.thermo := rfl
@[simp] theorem setPart_start (s : State) (p : Nat) (x : Part) : (s.setPart p x).start = s.start := rfl
@[simp] theorem setPart_security (s : State) (p : Nat) (x : Part) : (s.setPart p x).security = s.security := rfl
@[simp] theorem setPart_journals (s : State) (p : Nat) (x : Part) : (s.setPart p x).journals = s.journals := rfl
@[simp] theorem setPart_checks (s : State) (p : Nat) (x : Part) : (s.setPart p x).checks = s.checks := rfl
@[simp] theorem setPart_snaps (s : State) (p : Nat) (x : Part) : (s.setPart p x).snaps = s.snaps := rfl
@[simp] theorem setPart_sent (s : State) (p : Nat) (x : Part) : (s.setPart p x).sent = s.sent := rfl

/-! State.modPart -/

@[simp] theorem modPart_pending (s : State) (p : Nat) (f : Part → Part) : (s.modPart p f).pending = s.pending := rfl
@[simp] theorem modPart_now (s : State) (p : Nat) (f : Part → Part) : (s.modPart p f).now = s.now := rfl
@[simp] theorem modPart_fresh (s : State) (p : Nat) (f : Part → Part) : (s.modPart p f).fresh = s.fresh := rfl
@[simp] theorem modPart_regs (s : State) (p : Nat) (f : Part → Part) : (s.modPart p f).regs = s.regs := rfl
@[simp] theorem modPart_mem (s : State) (p : Nat) (f : Part → Part) : (s.modPart p f).mem = s.mem := rfl
@[simp] theorem modPart_owners (s : State) (p : Nat) (f : Part → Part) : (s.modPart p f).owners = s.owners := rfl
@[simp] theorem modPart_strands (s : State) (p : Nat) (f : Part → Part) : (s.modPart p f).strands = s.strands := rfl
@[simp] theorem modPart_dieKnots (s : State) (p : Nat) (f : Part → Part) : (s.modPart p f).dieKnots = s.dieKnots := rfl
@[simp] theorem modPart_hanks (s : State) (p : Nat) (f : Part → Part) : (s.modPart p f).hanks = s.hanks := rfl
@[simp] theorem modPart_parts (s : State) (p : Nat) (f : Part → Part) : (s.modPart p f).parts = mput s.parts p (f (s.part p)) := rfl
@[simp] theorem modPart_units (s : State) (p : Nat) (f : Part → Part) : (s.modPart p f).units = s.units := rfl
@[simp] theorem modPart_ctls (s : State) (p : Nat) (f : Part → Part) : (s.modPart p f).ctls = s.ctls := rfl
@[simp] theorem modPart_errLogs (s : State) (p : Nat) (f : Part → Part) : (s.modPart p f).errLogs = s.errLogs := rfl
@[simp] theorem modPart_errDropped (s : State) (p : Nat) (f : Part → Part) : (s.modPart p f).errDropped = s.errDropped := rfl
@[simp] theorem modPart_fairlead (s : State) (p : Nat) (f : Part → Part) : (s.modPart p f).fairlead = s.fairlead := rfl
@[simp] theorem modPart_ecron (s : State) (p : Nat) (f : Part → Part) : (s.modPart p f).ecron = s.ecron := rfl
@[simp] theorem modPart_sessions (s : State) (p : Nat) (f : Part → Part) : (s.modPart p f).sessions = s.sessions := rfl
@[simp] theorem modPart_hostPorts (s : State) (p : Nat) (f : Part → Part) : (s.modPart p f).hostPorts = s.hostPorts := rfl
@[simp] theorem modPart_recoveries (s : State) (p : Nat) (f : Part → Part) : (s.modPart p f).recoveries = s.recoveries := rfl
@[simp] theorem modPart_meters (s : State) (p : Nat) (f : Part → Part) : (s.modPart p f).meters = s.meters := rfl
@[simp] theorem modPart_ptp (s : State) (p : Nat) (f : Part → Part) : (s.modPart p f).ptp = s.ptp := rfl
@[simp] theorem modPart_lease (s : State) (p : Nat) (f : Part → Part) : (s.modPart p f).lease = s.lease := rfl
@[simp] theorem modPart_kv (s : State) (p : Nat) (f : Part → Part) : (s.modPart p f).kv = s.kv := rfl
@[simp] theorem modPart_serve (s : State) (p : Nat) (f : Part → Part) : (s.modPart p f).serve = s.serve := rfl
@[simp] theorem modPart_dispatch (s : State) (p : Nat) (f : Part → Part) : (s.modPart p f).dispatch = s.dispatch := rfl
@[simp] theorem modPart_video (s : State) (p : Nat) (f : Part → Part) : (s.modPart p f).video = s.video := rfl
@[simp] theorem modPart_update (s : State) (p : Nat) (f : Part → Part) : (s.modPart p f).update = s.update := rfl
@[simp] theorem modPart_power (s : State) (p : Nat) (f : Part → Part) : (s.modPart p f).power = s.power := rfl
@[simp] theorem modPart_thermo (s : State) (p : Nat) (f : Part → Part) : (s.modPart p f).thermo = s.thermo := rfl
@[simp] theorem modPart_start (s : State) (p : Nat) (f : Part → Part) : (s.modPart p f).start = s.start := rfl
@[simp] theorem modPart_security (s : State) (p : Nat) (f : Part → Part) : (s.modPart p f).security = s.security := rfl
@[simp] theorem modPart_journals (s : State) (p : Nat) (f : Part → Part) : (s.modPart p f).journals = s.journals := rfl
@[simp] theorem modPart_checks (s : State) (p : Nat) (f : Part → Part) : (s.modPart p f).checks = s.checks := rfl
@[simp] theorem modPart_snaps (s : State) (p : Nat) (f : Part → Part) : (s.modPart p f).snaps = s.snaps := rfl
@[simp] theorem modPart_sent (s : State) (p : Nat) (f : Part → Part) : (s.modPart p f).sent = s.sent := rfl

/-! State.modUnit -/

@[simp] theorem modUnit_pending (s : State) (u : Nat) (f : MemUnit → MemUnit) : (s.modUnit u f).pending = s.pending := rfl
@[simp] theorem modUnit_now (s : State) (u : Nat) (f : MemUnit → MemUnit) : (s.modUnit u f).now = s.now := rfl
@[simp] theorem modUnit_fresh (s : State) (u : Nat) (f : MemUnit → MemUnit) : (s.modUnit u f).fresh = s.fresh := rfl
@[simp] theorem modUnit_regs (s : State) (u : Nat) (f : MemUnit → MemUnit) : (s.modUnit u f).regs = s.regs := rfl
@[simp] theorem modUnit_mem (s : State) (u : Nat) (f : MemUnit → MemUnit) : (s.modUnit u f).mem = s.mem := rfl
@[simp] theorem modUnit_owners (s : State) (u : Nat) (f : MemUnit → MemUnit) : (s.modUnit u f).owners = s.owners := rfl
@[simp] theorem modUnit_strands (s : State) (u : Nat) (f : MemUnit → MemUnit) : (s.modUnit u f).strands = s.strands := rfl
@[simp] theorem modUnit_dieKnots (s : State) (u : Nat) (f : MemUnit → MemUnit) : (s.modUnit u f).dieKnots = s.dieKnots := rfl
@[simp] theorem modUnit_hanks (s : State) (u : Nat) (f : MemUnit → MemUnit) : (s.modUnit u f).hanks = s.hanks := rfl
@[simp] theorem modUnit_parts (s : State) (u : Nat) (f : MemUnit → MemUnit) : (s.modUnit u f).parts = s.parts := rfl
@[simp] theorem modUnit_units (s : State) (u : Nat) (f : MemUnit → MemUnit) : (s.modUnit u f).units = mput s.units u (f (s.unit u)) := rfl
@[simp] theorem modUnit_ctls (s : State) (u : Nat) (f : MemUnit → MemUnit) : (s.modUnit u f).ctls = s.ctls := rfl
@[simp] theorem modUnit_errLogs (s : State) (u : Nat) (f : MemUnit → MemUnit) : (s.modUnit u f).errLogs = s.errLogs := rfl
@[simp] theorem modUnit_errDropped (s : State) (u : Nat) (f : MemUnit → MemUnit) : (s.modUnit u f).errDropped = s.errDropped := rfl
@[simp] theorem modUnit_fairlead (s : State) (u : Nat) (f : MemUnit → MemUnit) : (s.modUnit u f).fairlead = s.fairlead := rfl
@[simp] theorem modUnit_ecron (s : State) (u : Nat) (f : MemUnit → MemUnit) : (s.modUnit u f).ecron = s.ecron := rfl
@[simp] theorem modUnit_sessions (s : State) (u : Nat) (f : MemUnit → MemUnit) : (s.modUnit u f).sessions = s.sessions := rfl
@[simp] theorem modUnit_hostPorts (s : State) (u : Nat) (f : MemUnit → MemUnit) : (s.modUnit u f).hostPorts = s.hostPorts := rfl
@[simp] theorem modUnit_recoveries (s : State) (u : Nat) (f : MemUnit → MemUnit) : (s.modUnit u f).recoveries = s.recoveries := rfl
@[simp] theorem modUnit_meters (s : State) (u : Nat) (f : MemUnit → MemUnit) : (s.modUnit u f).meters = s.meters := rfl
@[simp] theorem modUnit_ptp (s : State) (u : Nat) (f : MemUnit → MemUnit) : (s.modUnit u f).ptp = s.ptp := rfl
@[simp] theorem modUnit_lease (s : State) (u : Nat) (f : MemUnit → MemUnit) : (s.modUnit u f).lease = s.lease := rfl
@[simp] theorem modUnit_kv (s : State) (u : Nat) (f : MemUnit → MemUnit) : (s.modUnit u f).kv = s.kv := rfl
@[simp] theorem modUnit_serve (s : State) (u : Nat) (f : MemUnit → MemUnit) : (s.modUnit u f).serve = s.serve := rfl
@[simp] theorem modUnit_dispatch (s : State) (u : Nat) (f : MemUnit → MemUnit) : (s.modUnit u f).dispatch = s.dispatch := rfl
@[simp] theorem modUnit_video (s : State) (u : Nat) (f : MemUnit → MemUnit) : (s.modUnit u f).video = s.video := rfl
@[simp] theorem modUnit_update (s : State) (u : Nat) (f : MemUnit → MemUnit) : (s.modUnit u f).update = s.update := rfl
@[simp] theorem modUnit_power (s : State) (u : Nat) (f : MemUnit → MemUnit) : (s.modUnit u f).power = s.power := rfl
@[simp] theorem modUnit_thermo (s : State) (u : Nat) (f : MemUnit → MemUnit) : (s.modUnit u f).thermo = s.thermo := rfl
@[simp] theorem modUnit_start (s : State) (u : Nat) (f : MemUnit → MemUnit) : (s.modUnit u f).start = s.start := rfl
@[simp] theorem modUnit_security (s : State) (u : Nat) (f : MemUnit → MemUnit) : (s.modUnit u f).security = s.security := rfl
@[simp] theorem modUnit_journals (s : State) (u : Nat) (f : MemUnit → MemUnit) : (s.modUnit u f).journals = s.journals := rfl
@[simp] theorem modUnit_checks (s : State) (u : Nat) (f : MemUnit → MemUnit) : (s.modUnit u f).checks = s.checks := rfl
@[simp] theorem modUnit_snaps (s : State) (u : Nat) (f : MemUnit → MemUnit) : (s.modUnit u f).snaps = s.snaps := rfl
@[simp] theorem modUnit_sent (s : State) (u : Nat) (f : MemUnit → MemUnit) : (s.modUnit u f).sent = s.sent := rfl

/-! State.setDom -/

@[simp] theorem setDom_pending (s : State) (n : Nat) (d : Domain) : (s.setDom n d).pending = s.pending := rfl
@[simp] theorem setDom_now (s : State) (n : Nat) (d : Domain) : (s.setDom n d).now = s.now := rfl
@[simp] theorem setDom_fresh (s : State) (n : Nat) (d : Domain) : (s.setDom n d).fresh = s.fresh := rfl
@[simp] theorem setDom_regs (s : State) (n : Nat) (d : Domain) : (s.setDom n d).regs = s.regs := rfl
@[simp] theorem setDom_mem (s : State) (n : Nat) (d : Domain) : (s.setDom n d).mem = s.mem := rfl
@[simp] theorem setDom_owners (s : State) (n : Nat) (d : Domain) : (s.setDom n d).owners = s.owners := rfl
@[simp] theorem setDom_strands (s : State) (n : Nat) (d : Domain) : (s.setDom n d).strands = s.strands := rfl
@[simp] theorem setDom_dieKnots (s : State) (n : Nat) (d : Domain) : (s.setDom n d).dieKnots = s.dieKnots := rfl
@[simp] theorem setDom_hanks (s : State) (n : Nat) (d : Domain) : (s.setDom n d).hanks = s.hanks := rfl
@[simp] theorem setDom_parts (s : State) (n : Nat) (d : Domain) : (s.setDom n d).parts = s.parts := rfl
@[simp] theorem setDom_units (s : State) (n : Nat) (d : Domain) : (s.setDom n d).units = s.units := rfl
@[simp] theorem setDom_ctls (s : State) (n : Nat) (d : Domain) : (s.setDom n d).ctls = s.ctls := rfl
@[simp] theorem setDom_errLogs (s : State) (n : Nat) (d : Domain) : (s.setDom n d).errLogs = s.errLogs := rfl
@[simp] theorem setDom_errDropped (s : State) (n : Nat) (d : Domain) : (s.setDom n d).errDropped = s.errDropped := rfl
@[simp] theorem setDom_fairlead (s : State) (n : Nat) (d : Domain) : (s.setDom n d).fairlead = s.fairlead := rfl
@[simp] theorem setDom_ecron (s : State) (n : Nat) (d : Domain) : (s.setDom n d).ecron = s.ecron := rfl
@[simp] theorem setDom_sessions (s : State) (n : Nat) (d : Domain) : (s.setDom n d).sessions = s.sessions := rfl
@[simp] theorem setDom_hostPorts (s : State) (n : Nat) (d : Domain) : (s.setDom n d).hostPorts = s.hostPorts := rfl
@[simp] theorem setDom_recoveries (s : State) (n : Nat) (d : Domain) : (s.setDom n d).recoveries = s.recoveries := rfl
@[simp] theorem setDom_meters (s : State) (n : Nat) (d : Domain) : (s.setDom n d).meters = s.meters := rfl
@[simp] theorem setDom_ptp (s : State) (n : Nat) (d : Domain) : (s.setDom n d).ptp = s.ptp := rfl
@[simp] theorem setDom_lease (s : State) (n : Nat) (d : Domain) : (s.setDom n d).lease = s.lease := rfl
@[simp] theorem setDom_kv (s : State) (n : Nat) (d : Domain) : (s.setDom n d).kv = s.kv := rfl
@[simp] theorem setDom_serve (s : State) (n : Nat) (d : Domain) : (s.setDom n d).serve = s.serve := rfl
@[simp] theorem setDom_dispatch (s : State) (n : Nat) (d : Domain) : (s.setDom n d).dispatch = s.dispatch := rfl
@[simp] theorem setDom_video (s : State) (n : Nat) (d : Domain) : (s.setDom n d).video = s.video := rfl
@[simp] theorem setDom_update (s : State) (n : Nat) (d : Domain) : (s.setDom n d).update = s.update := rfl
@[simp] theorem setDom_power (s : State) (n : Nat) (d : Domain) : (s.setDom n d).power = { s.power with doms := mput s.power.doms n d } := rfl
@[simp] theorem setDom_thermo (s : State) (n : Nat) (d : Domain) : (s.setDom n d).thermo = s.thermo := rfl
@[simp] theorem setDom_start (s : State) (n : Nat) (d : Domain) : (s.setDom n d).start = s.start := rfl
@[simp] theorem setDom_security (s : State) (n : Nat) (d : Domain) : (s.setDom n d).security = s.security := rfl
@[simp] theorem setDom_journals (s : State) (n : Nat) (d : Domain) : (s.setDom n d).journals = s.journals := rfl
@[simp] theorem setDom_checks (s : State) (n : Nat) (d : Domain) : (s.setDom n d).checks = s.checks := rfl
@[simp] theorem setDom_snaps (s : State) (n : Nat) (d : Domain) : (s.setDom n d).snaps = s.snaps := rfl
@[simp] theorem setDom_sent (s : State) (n : Nat) (d : Domain) : (s.setDom n d).sent = s.sent := rfl

/-! State.modDom -/

@[simp] theorem modDom_pending (s : State) (n : Nat) (f : Domain → Domain) : (s.modDom n f).pending = s.pending := rfl
@[simp] theorem modDom_now (s : State) (n : Nat) (f : Domain → Domain) : (s.modDom n f).now = s.now := rfl
@[simp] theorem modDom_fresh (s : State) (n : Nat) (f : Domain → Domain) : (s.modDom n f).fresh = s.fresh := rfl
@[simp] theorem modDom_regs (s : State) (n : Nat) (f : Domain → Domain) : (s.modDom n f).regs = s.regs := rfl
@[simp] theorem modDom_mem (s : State) (n : Nat) (f : Domain → Domain) : (s.modDom n f).mem = s.mem := rfl
@[simp] theorem modDom_owners (s : State) (n : Nat) (f : Domain → Domain) : (s.modDom n f).owners = s.owners := rfl
@[simp] theorem modDom_strands (s : State) (n : Nat) (f : Domain → Domain) : (s.modDom n f).strands = s.strands := rfl
@[simp] theorem modDom_dieKnots (s : State) (n : Nat) (f : Domain → Domain) : (s.modDom n f).dieKnots = s.dieKnots := rfl
@[simp] theorem modDom_hanks (s : State) (n : Nat) (f : Domain → Domain) : (s.modDom n f).hanks = s.hanks := rfl
@[simp] theorem modDom_parts (s : State) (n : Nat) (f : Domain → Domain) : (s.modDom n f).parts = s.parts := rfl
@[simp] theorem modDom_units (s : State) (n : Nat) (f : Domain → Domain) : (s.modDom n f).units = s.units := rfl
@[simp] theorem modDom_ctls (s : State) (n : Nat) (f : Domain → Domain) : (s.modDom n f).ctls = s.ctls := rfl
@[simp] theorem modDom_errLogs (s : State) (n : Nat) (f : Domain → Domain) : (s.modDom n f).errLogs = s.errLogs := rfl
@[simp] theorem modDom_errDropped (s : State) (n : Nat) (f : Domain → Domain) : (s.modDom n f).errDropped = s.errDropped := rfl
@[simp] theorem modDom_fairlead (s : State) (n : Nat) (f : Domain → Domain) : (s.modDom n f).fairlead = s.fairlead := rfl
@[simp] theorem modDom_ecron (s : State) (n : Nat) (f : Domain → Domain) : (s.modDom n f).ecron = s.ecron := rfl
@[simp] theorem modDom_sessions (s : State) (n : Nat) (f : Domain → Domain) : (s.modDom n f).sessions = s.sessions := rfl
@[simp] theorem modDom_hostPorts (s : State) (n : Nat) (f : Domain → Domain) : (s.modDom n f).hostPorts = s.hostPorts := rfl
@[simp] theorem modDom_recoveries (s : State) (n : Nat) (f : Domain → Domain) : (s.modDom n f).recoveries = s.recoveries := rfl
@[simp] theorem modDom_meters (s : State) (n : Nat) (f : Domain → Domain) : (s.modDom n f).meters = s.meters := rfl
@[simp] theorem modDom_ptp (s : State) (n : Nat) (f : Domain → Domain) : (s.modDom n f).ptp = s.ptp := rfl
@[simp] theorem modDom_lease (s : State) (n : Nat) (f : Domain → Domain) : (s.modDom n f).lease = s.lease := rfl
@[simp] theorem modDom_kv (s : State) (n : Nat) (f : Domain → Domain) : (s.modDom n f).kv = s.kv := rfl
@[simp] theorem modDom_serve (s : State) (n : Nat) (f : Domain → Domain) : (s.modDom n f).serve = s.serve := rfl
@[simp] theorem modDom_dispatch (s : State) (n : Nat) (f : Domain → Domain) : (s.modDom n f).dispatch = s.dispatch := rfl
@[simp] theorem modDom_video (s : State) (n : Nat) (f : Domain → Domain) : (s.modDom n f).video = s.video := rfl
@[simp] theorem modDom_update (s : State) (n : Nat) (f : Domain → Domain) : (s.modDom n f).update = s.update := rfl
@[simp] theorem modDom_power (s : State) (n : Nat) (f : Domain → Domain) : (s.modDom n f).power = { s.power with doms := mput s.power.doms n (f (s.dom n)) } := rfl
@[simp] theorem modDom_thermo (s : State) (n : Nat) (f : Domain → Domain) : (s.modDom n f).thermo = s.thermo := rfl
@[simp] theorem modDom_start (s : State) (n : Nat) (f : Domain → Domain) : (s.modDom n f).start = s.start := rfl
@[simp] theorem modDom_security (s : State) (n : Nat) (f : Domain → Domain) : (s.modDom n f).security = s.security := rfl
@[simp] theorem modDom_journals (s : State) (n : Nat) (f : Domain → Domain) : (s.modDom n f).journals = s.journals := rfl
@[simp] theorem modDom_checks (s : State) (n : Nat) (f : Domain → Domain) : (s.modDom n f).checks = s.checks := rfl
@[simp] theorem modDom_snaps (s : State) (n : Nat) (f : Domain → Domain) : (s.modDom n f).snaps = s.snaps := rfl
@[simp] theorem modDom_sent (s : State) (n : Nat) (f : Domain → Domain) : (s.modDom n f).sent = s.sent := rfl

/-! State.modPort -/

@[simp] theorem modPort_pending (s : State) (p : Nat) (f : Port → Port) : (s.modPort p f).pending = s.pending := rfl
@[simp] theorem modPort_now (s : State) (p : Nat) (f : Port → Port) : (s.modPort p f).now = s.now := rfl
@[simp] theorem modPort_fresh (s : State) (p : Nat) (f : Port → Port) : (s.modPort p f).fresh = s.fresh := rfl
@[simp] theorem modPort_regs (s : State) (p : Nat) (f : Port → Port) : (s.modPort p f).regs = s.regs := rfl
@[simp] theorem modPort_mem (s : State) (p : Nat) (f : Port → Port) : (s.modPort p f).mem = s.mem := rfl
@[simp] theorem modPort_owners (s : State) (p : Nat) (f : Port → Port) : (s.modPort p f).owners = s.owners := rfl
@[simp] theorem modPort_strands (s : State) (p : Nat) (f : Port → Port) : (s.modPort p f).strands = s.strands := rfl
@[simp] theorem modPort_dieKnots (s : State) (p : Nat) (f : Port → Port) : (s.modPort p f).dieKnots = s.dieKnots := rfl
@[simp] theorem modPort_hanks (s : State) (p : Nat) (f : Port → Port) : (s.modPort p f).hanks = s.hanks := rfl
@[simp] theorem modPort_parts (s : State) (p : Nat) (f : Port → Port) : (s.modPort p f).parts = s.parts := rfl
@[simp] theorem modPort_units (s : State) (p : Nat) (f : Port → Port) : (s.modPort p f).units = s.units := rfl
@[simp] theorem modPort_ctls (s : State) (p : Nat) (f : Port → Port) : (s.modPort p f).ctls = s.ctls := rfl
@[simp] theorem modPort_errLogs (s : State) (p : Nat) (f : Port → Port) : (s.modPort p f).errLogs = s.errLogs := rfl
@[simp] theorem modPort_errDropped (s : State) (p : Nat) (f : Port → Port) : (s.modPort p f).errDropped = s.errDropped := rfl
@[simp] theorem modPort_fairlead (s : State) (p : Nat) (f : Port → Port) : (s.modPort p f).fairlead = s.fairlead := rfl
@[simp] theorem modPort_ecron (s : State) (p : Nat) (f : Port → Port) : (s.modPort p f).ecron = { s.ecron with ports := mput s.ecron.ports p (f (s.port p)) } := rfl
@[simp] theorem modPort_sessions (s : State) (p : Nat) (f : Port → Port) : (s.modPort p f).sessions = s.sessions := rfl
@[simp] theorem modPort_hostPorts (s : State) (p : Nat) (f : Port → Port) : (s.modPort p f).hostPorts = s.hostPorts := rfl
@[simp] theorem modPort_recoveries (s : State) (p : Nat) (f : Port → Port) : (s.modPort p f).recoveries = s.recoveries := rfl
@[simp] theorem modPort_meters (s : State) (p : Nat) (f : Port → Port) : (s.modPort p f).meters = s.meters := rfl
@[simp] theorem modPort_ptp (s : State) (p : Nat) (f : Port → Port) : (s.modPort p f).ptp = s.ptp := rfl
@[simp] theorem modPort_lease (s : State) (p : Nat) (f : Port → Port) : (s.modPort p f).lease = s.lease := rfl
@[simp] theorem modPort_kv (s : State) (p : Nat) (f : Port → Port) : (s.modPort p f).kv = s.kv := rfl
@[simp] theorem modPort_serve (s : State) (p : Nat) (f : Port → Port) : (s.modPort p f).serve = s.serve := rfl
@[simp] theorem modPort_dispatch (s : State) (p : Nat) (f : Port → Port) : (s.modPort p f).dispatch = s.dispatch := rfl
@[simp] theorem modPort_video (s : State) (p : Nat) (f : Port → Port) : (s.modPort p f).video = s.video := rfl
@[simp] theorem modPort_update (s : State) (p : Nat) (f : Port → Port) : (s.modPort p f).update = s.update := rfl
@[simp] theorem modPort_power (s : State) (p : Nat) (f : Port → Port) : (s.modPort p f).power = s.power := rfl
@[simp] theorem modPort_thermo (s : State) (p : Nat) (f : Port → Port) : (s.modPort p f).thermo = s.thermo := rfl
@[simp] theorem modPort_start (s : State) (p : Nat) (f : Port → Port) : (s.modPort p f).start = s.start := rfl
@[simp] theorem modPort_security (s : State) (p : Nat) (f : Port → Port) : (s.modPort p f).security = s.security := rfl
@[simp] theorem modPort_journals (s : State) (p : Nat) (f : Port → Port) : (s.modPort p f).journals = s.journals := rfl
@[simp] theorem modPort_checks (s : State) (p : Nat) (f : Port → Port) : (s.modPort p f).checks = s.checks := rfl
@[simp] theorem modPort_snaps (s : State) (p : Nat) (f : Port → Port) : (s.modPort p f).snaps = s.snaps := rfl
@[simp] theorem modPort_sent (s : State) (p : Nat) (f : Port → Port) : (s.modPort p f).sent = s.sent := rfl

/-! State.modHostPort -/

@[simp] theorem modHostPort_pending (s : State) (p : Nat) (f : HostPort → HostPort) : (s.modHostPort p f).pending = s.pending := rfl
@[simp] theorem modHostPort_now (s : State) (p : Nat) (f : HostPort → HostPort) : (s.modHostPort p f).now = s.now := rfl
@[simp] theorem modHostPort_fresh (s : State) (p : Nat) (f : HostPort → HostPort) : (s.modHostPort p f).fresh = s.fresh := rfl
@[simp] theorem modHostPort_regs (s : State) (p : Nat) (f : HostPort → HostPort) : (s.modHostPort p f).regs = s.regs := rfl
@[simp] theorem modHostPort_mem (s : State) (p : Nat) (f : HostPort → HostPort) : (s.modHostPort p f).mem = s.mem := rfl
@[simp] theorem modHostPort_owners (s : State) (p : Nat) (f : HostPort → HostPort) : (s.modHostPort p f).owners = s.owners := rfl
@[simp] theorem modHostPort_strands (s : State) (p : Nat) (f : HostPort → HostPort) : (s.modHostPort p f).strands = s.strands := rfl
@[simp] theorem modHostPort_dieKnots (s : State) (p : Nat) (f : HostPort → HostPort) : (s.modHostPort p f).dieKnots = s.dieKnots := rfl
@[simp] theorem modHostPort_hanks (s : State) (p : Nat) (f : HostPort → HostPort) : (s.modHostPort p f).hanks = s.hanks := rfl
@[simp] theorem modHostPort_parts (s : State) (p : Nat) (f : HostPort → HostPort) : (s.modHostPort p f).parts = s.parts := rfl
@[simp] theorem modHostPort_units (s : State) (p : Nat) (f : HostPort → HostPort) : (s.modHostPort p f).units = s.units := rfl
@[simp] theorem modHostPort_ctls (s : State) (p : Nat) (f : HostPort → HostPort) : (s.modHostPort p f).ctls = s.ctls := rfl
@[simp] theorem modHostPort_errLogs (s : State) (p : Nat) (f : HostPort → HostPort) : (s.modHostPort p f).errLogs = s.errLogs := rfl
@[simp] theorem modHostPort_errDropped (s : State) (p : Nat) (f : HostPort → HostPort) : (s.modHostPort p f).errDropped = s.errDropped := rfl
@[simp] theorem modHostPort_fairlead (s : State) (p : Nat) (f : HostPort → HostPort) : (s.modHostPort p f).fairlead = s.fairlead := rfl
@[simp] theorem modHostPort_ecron (s : State) (p : Nat) (f : HostPort → HostPort) : (s.modHostPort p f).ecron = s.ecron := rfl
@[simp] theorem modHostPort_sessions (s : State) (p : Nat) (f : HostPort → HostPort) : (s.modHostPort p f).sessions = s.sessions := rfl
@[simp] theorem modHostPort_hostPorts (s : State) (p : Nat) (f : HostPort → HostPort) : (s.modHostPort p f).hostPorts = mput s.hostPorts p (f (s.hostPort p)) := rfl
@[simp] theorem modHostPort_recoveries (s : State) (p : Nat) (f : HostPort → HostPort) : (s.modHostPort p f).recoveries = s.recoveries := rfl
@[simp] theorem modHostPort_meters (s : State) (p : Nat) (f : HostPort → HostPort) : (s.modHostPort p f).meters = s.meters := rfl
@[simp] theorem modHostPort_ptp (s : State) (p : Nat) (f : HostPort → HostPort) : (s.modHostPort p f).ptp = s.ptp := rfl
@[simp] theorem modHostPort_lease (s : State) (p : Nat) (f : HostPort → HostPort) : (s.modHostPort p f).lease = s.lease := rfl
@[simp] theorem modHostPort_kv (s : State) (p : Nat) (f : HostPort → HostPort) : (s.modHostPort p f).kv = s.kv := rfl
@[simp] theorem modHostPort_serve (s : State) (p : Nat) (f : HostPort → HostPort) : (s.modHostPort p f).serve = s.serve := rfl
@[simp] theorem modHostPort_dispatch (s : State) (p : Nat) (f : HostPort → HostPort) : (s.modHostPort p f).dispatch = s.dispatch := rfl
@[simp] theorem modHostPort_video (s : State) (p : Nat) (f : HostPort → HostPort) : (s.modHostPort p f).video = s.video := rfl
@[simp] theorem modHostPort_update (s : State) (p : Nat) (f : HostPort → HostPort) : (s.modHostPort p f).update = s.update := rfl
@[simp] theorem modHostPort_power (s : State) (p : Nat) (f : HostPort → HostPort) : (s.modHostPort p f).power = s.power := rfl
@[simp] theorem modHostPort_thermo (s : State) (p : Nat) (f : HostPort → HostPort) : (s.modHostPort p f).thermo = s.thermo := rfl
@[simp] theorem modHostPort_start (s : State) (p : Nat) (f : HostPort → HostPort) : (s.modHostPort p f).start = s.start := rfl
@[simp] theorem modHostPort_security (s : State) (p : Nat) (f : HostPort → HostPort) : (s.modHostPort p f).security = s.security := rfl
@[simp] theorem modHostPort_journals (s : State) (p : Nat) (f : HostPort → HostPort) : (s.modHostPort p f).journals = s.journals := rfl
@[simp] theorem modHostPort_checks (s : State) (p : Nat) (f : HostPort → HostPort) : (s.modHostPort p f).checks = s.checks := rfl
@[simp] theorem modHostPort_snaps (s : State) (p : Nat) (f : HostPort → HostPort) : (s.modHostPort p f).snaps = s.snaps := rfl
@[simp] theorem modHostPort_sent (s : State) (p : Nat) (f : HostPort → HostPort) : (s.modHostPort p f).sent = s.sent := rfl

/-! State.modEngine -/

@[simp] theorem modEngine_pending (s : State) (d : Nat) (f : Engine → Engine) : (s.modEngine d f).pending = s.pending := rfl
@[simp] theorem modEngine_now (s : State) (d : Nat) (f : Engine → Engine) : (s.modEngine d f).now = s.now := rfl
@[simp] theorem modEngine_fresh (s : State) (d : Nat) (f : Engine → Engine) : (s.modEngine d f).fresh = s.fresh := rfl
@[simp] theorem modEngine_regs (s : State) (d : Nat) (f : Engine → Engine) : (s.modEngine d f).regs = s.regs := rfl
@[simp] theorem modEngine_mem (s : State) (d : Nat) (f : Engine → Engine) : (s.modEngine d f).mem = s.mem := rfl
@[simp] theorem modEngine_owners (s : State) (d : Nat) (f : Engine → Engine) : (s.modEngine d f).owners = s.owners := rfl
@[simp] theorem modEngine_strands (s : State) (d : Nat) (f : Engine → Engine) : (s.modEngine d f).strands = s.strands := rfl
@[simp] theorem modEngine_dieKnots (s : State) (d : Nat) (f : Engine → Engine) : (s.modEngine d f).dieKnots = s.dieKnots := rfl
@[simp] theorem modEngine_hanks (s : State) (d : Nat) (f : Engine → Engine) : (s.modEngine d f).hanks = s.hanks := rfl
@[simp] theorem modEngine_parts (s : State) (d : Nat) (f : Engine → Engine) : (s.modEngine d f).parts = s.parts := rfl
@[simp] theorem modEngine_units (s : State) (d : Nat) (f : Engine → Engine) : (s.modEngine d f).units = s.units := rfl
@[simp] theorem modEngine_ctls (s : State) (d : Nat) (f : Engine → Engine) : (s.modEngine d f).ctls = s.ctls := rfl
@[simp] theorem modEngine_errLogs (s : State) (d : Nat) (f : Engine → Engine) : (s.modEngine d f).errLogs = s.errLogs := rfl
@[simp] theorem modEngine_errDropped (s : State) (d : Nat) (f : Engine → Engine) : (s.modEngine d f).errDropped = s.errDropped := rfl
@[simp] theorem modEngine_fairlead (s : State) (d : Nat) (f : Engine → Engine) : (s.modEngine d f).fairlead = s.fairlead := rfl
@[simp] theorem modEngine_ecron (s : State) (d : Nat) (f : Engine → Engine) : (s.modEngine d f).ecron = s.ecron := rfl
@[simp] theorem modEngine_sessions (s : State) (d : Nat) (f : Engine → Engine) : (s.modEngine d f).sessions = s.sessions := rfl
@[simp] theorem modEngine_hostPorts (s : State) (d : Nat) (f : Engine → Engine) : (s.modEngine d f).hostPorts = s.hostPorts := rfl
@[simp] theorem modEngine_recoveries (s : State) (d : Nat) (f : Engine → Engine) : (s.modEngine d f).recoveries = s.recoveries := rfl
@[simp] theorem modEngine_meters (s : State) (d : Nat) (f : Engine → Engine) : (s.modEngine d f).meters = s.meters := rfl
@[simp] theorem modEngine_ptp (s : State) (d : Nat) (f : Engine → Engine) : (s.modEngine d f).ptp = s.ptp := rfl
@[simp] theorem modEngine_lease (s : State) (d : Nat) (f : Engine → Engine) : (s.modEngine d f).lease = s.lease := rfl
@[simp] theorem modEngine_kv (s : State) (d : Nat) (f : Engine → Engine) : (s.modEngine d f).kv = s.kv := rfl
@[simp] theorem modEngine_serve (s : State) (d : Nat) (f : Engine → Engine) : (s.modEngine d f).serve = s.serve := rfl
@[simp] theorem modEngine_dispatch (s : State) (d : Nat) (f : Engine → Engine) : (s.modEngine d f).dispatch = { s.dispatch with engines := mput s.dispatch.engines d (f (s.engine d)) } := rfl
@[simp] theorem modEngine_video (s : State) (d : Nat) (f : Engine → Engine) : (s.modEngine d f).video = s.video := rfl
@[simp] theorem modEngine_update (s : State) (d : Nat) (f : Engine → Engine) : (s.modEngine d f).update = s.update := rfl
@[simp] theorem modEngine_power (s : State) (d : Nat) (f : Engine → Engine) : (s.modEngine d f).power = s.power := rfl
@[simp] theorem modEngine_thermo (s : State) (d : Nat) (f : Engine → Engine) : (s.modEngine d f).thermo = s.thermo := rfl
@[simp] theorem modEngine_start (s : State) (d : Nat) (f : Engine → Engine) : (s.modEngine d f).start = s.start := rfl
@[simp] theorem modEngine_security (s : State) (d : Nat) (f : Engine → Engine) : (s.modEngine d f).security = s.security := rfl
@[simp] theorem modEngine_journals (s : State) (d : Nat) (f : Engine → Engine) : (s.modEngine d f).journals = s.journals := rfl
@[simp] theorem modEngine_checks (s : State) (d : Nat) (f : Engine → Engine) : (s.modEngine d f).checks = s.checks := rfl
@[simp] theorem modEngine_snaps (s : State) (d : Nat) (f : Engine → Engine) : (s.modEngine d f).snaps = s.snaps := rfl
@[simp] theorem modEngine_sent (s : State) (d : Nat) (f : Engine → Engine) : (s.modEngine d f).sent = s.sent := rfl

/-! State.modJournal -/

@[simp] theorem modJournal_pending (s : State) (p : Nat) (f : Journal → Journal) : (s.modJournal p f).pending = s.pending := rfl
@[simp] theorem modJournal_now (s : State) (p : Nat) (f : Journal → Journal) : (s.modJournal p f).now = s.now := rfl
@[simp] theorem modJournal_fresh (s : State) (p : Nat) (f : Journal → Journal) : (s.modJournal p f).fresh = s.fresh := rfl
@[simp] theorem modJournal_regs (s : State) (p : Nat) (f : Journal → Journal) : (s.modJournal p f).regs = s.regs := rfl
@[simp] theorem modJournal_mem (s : State) (p : Nat) (f : Journal → Journal) : (s.modJournal p f).mem = s.mem := rfl
@[simp] theorem modJournal_owners (s : State) (p : Nat) (f : Journal → Journal) : (s.modJournal p f).owners = s.owners := rfl
@[simp] theorem modJournal_strands (s : State) (p : Nat) (f : Journal → Journal) : (s.modJournal p f).strands = s.strands := rfl
@[simp] theorem modJournal_dieKnots (s : State) (p : Nat) (f : Journal → Journal) : (s.modJournal p f).dieKnots = s.dieKnots := rfl
@[simp] theorem modJournal_hanks (s : State) (p : Nat) (f : Journal → Journal) : (s.modJournal p f).hanks = s.hanks := rfl
@[simp] theorem modJournal_parts (s : State) (p : Nat) (f : Journal → Journal) : (s.modJournal p f).parts = s.parts := rfl
@[simp] theorem modJournal_units (s : State) (p : Nat) (f : Journal → Journal) : (s.modJournal p f).units = s.units := rfl
@[simp] theorem modJournal_ctls (s : State) (p : Nat) (f : Journal → Journal) : (s.modJournal p f).ctls = s.ctls := rfl
@[simp] theorem modJournal_errLogs (s : State) (p : Nat) (f : Journal → Journal) : (s.modJournal p f).errLogs = s.errLogs := rfl
@[simp] theorem modJournal_errDropped (s : State) (p : Nat) (f : Journal → Journal) : (s.modJournal p f).errDropped = s.errDropped := rfl
@[simp] theorem modJournal_fairlead (s : State) (p : Nat) (f : Journal → Journal) : (s.modJournal p f).fairlead = s.fairlead := rfl
@[simp] theorem modJournal_ecron (s : State) (p : Nat) (f : Journal → Journal) : (s.modJournal p f).ecron = s.ecron := rfl
@[simp] theorem modJournal_sessions (s : State) (p : Nat) (f : Journal → Journal) : (s.modJournal p f).sessions = s.sessions := rfl
@[simp] theorem modJournal_hostPorts (s : State) (p : Nat) (f : Journal → Journal) : (s.modJournal p f).hostPorts = s.hostPorts := rfl
@[simp] theorem modJournal_recoveries (s : State) (p : Nat) (f : Journal → Journal) : (s.modJournal p f).recoveries = s.recoveries := rfl
@[simp] theorem modJournal_meters (s : State) (p : Nat) (f : Journal → Journal) : (s.modJournal p f).meters = s.meters := rfl
@[simp] theorem modJournal_ptp (s : State) (p : Nat) (f : Journal → Journal) : (s.modJournal p f).ptp = s.ptp := rfl
@[simp] theorem modJournal_lease (s : State) (p : Nat) (f : Journal → Journal) : (s.modJournal p f).lease = s.lease := rfl
@[simp] theorem modJournal_kv (s : State) (p : Nat) (f : Journal → Journal) : (s.modJournal p f).kv = s.kv := rfl
@[simp] theorem modJournal_serve (s : State) (p : Nat) (f : Journal → Journal) : (s.modJournal p f).serve = s.serve := rfl
@[simp] theorem modJournal_dispatch (s : State) (p : Nat) (f : Journal → Journal) : (s.modJournal p f).dispatch = s.dispatch := rfl
@[simp] theorem modJournal_video (s : State) (p : Nat) (f : Journal → Journal) : (s.modJournal p f).video = s.video := rfl
@[simp] theorem modJournal_update (s : State) (p : Nat) (f : Journal → Journal) : (s.modJournal p f).update = s.update := rfl
@[simp] theorem modJournal_power (s : State) (p : Nat) (f : Journal → Journal) : (s.modJournal p f).power = s.power := rfl
@[simp] theorem modJournal_thermo (s : State) (p : Nat) (f : Journal → Journal) : (s.modJournal p f).thermo = s.thermo := rfl
@[simp] theorem modJournal_start (s : State) (p : Nat) (f : Journal → Journal) : (s.modJournal p f).start = s.start := rfl
@[simp] theorem modJournal_security (s : State) (p : Nat) (f : Journal → Journal) : (s.modJournal p f).security = s.security := rfl
@[simp] theorem modJournal_journals (s : State) (p : Nat) (f : Journal → Journal) : (s.modJournal p f).journals = mput s.journals p (f (s.journal p)) := rfl
@[simp] theorem modJournal_checks (s : State) (p : Nat) (f : Journal → Journal) : (s.modJournal p f).checks = s.checks := rfl
@[simp] theorem modJournal_snaps (s : State) (p : Nat) (f : Journal → Journal) : (s.modJournal p f).snaps = s.snaps := rfl
@[simp] theorem modJournal_sent (s : State) (p : Nat) (f : Journal → Journal) : (s.modJournal p f).sent = s.sent := rfl

/-! State.modAgeing -/

@[simp] theorem modAgeing_pending (s : State) (g : Nat) (f : Ageing → Ageing) : (s.modAgeing g f).pending = s.pending := rfl
@[simp] theorem modAgeing_now (s : State) (g : Nat) (f : Ageing → Ageing) : (s.modAgeing g f).now = s.now := rfl
@[simp] theorem modAgeing_fresh (s : State) (g : Nat) (f : Ageing → Ageing) : (s.modAgeing g f).fresh = s.fresh := rfl
@[simp] theorem modAgeing_regs (s : State) (g : Nat) (f : Ageing → Ageing) : (s.modAgeing g f).regs = s.regs := rfl
@[simp] theorem modAgeing_mem (s : State) (g : Nat) (f : Ageing → Ageing) : (s.modAgeing g f).mem = s.mem := rfl
@[simp] theorem modAgeing_owners (s : State) (g : Nat) (f : Ageing → Ageing) : (s.modAgeing g f).owners = s.owners := rfl
@[simp] theorem modAgeing_strands (s : State) (g : Nat) (f : Ageing → Ageing) : (s.modAgeing g f).strands = s.strands := rfl
@[simp] theorem modAgeing_dieKnots (s : State) (g : Nat) (f : Ageing → Ageing) : (s.modAgeing g f).dieKnots = s.dieKnots := rfl
@[simp] theorem modAgeing_hanks (s : State) (g : Nat) (f : Ageing → Ageing) : (s.modAgeing g f).hanks = s.hanks := rfl
@[simp] theorem modAgeing_parts (s : State) (g : Nat) (f : Ageing → Ageing) : (s.modAgeing g f).parts = s.parts := rfl
@[simp] theorem modAgeing_units (s : State) (g : Nat) (f : Ageing → Ageing) : (s.modAgeing g f).units = s.units := rfl
@[simp] theorem modAgeing_ctls (s : State) (g : Nat) (f : Ageing → Ageing) : (s.modAgeing g f).ctls = s.ctls := rfl
@[simp] theorem modAgeing_errLogs (s : State) (g : Nat) (f : Ageing → Ageing) : (s.modAgeing g f).errLogs = s.errLogs := rfl
@[simp] theorem modAgeing_errDropped (s : State) (g : Nat) (f : Ageing → Ageing) : (s.modAgeing g f).errDropped = s.errDropped := rfl
@[simp] theorem modAgeing_fairlead (s : State) (g : Nat) (f : Ageing → Ageing) : (s.modAgeing g f).fairlead = s.fairlead := rfl
@[simp] theorem modAgeing_ecron (s : State) (g : Nat) (f : Ageing → Ageing) : (s.modAgeing g f).ecron = s.ecron := rfl
@[simp] theorem modAgeing_sessions (s : State) (g : Nat) (f : Ageing → Ageing) : (s.modAgeing g f).sessions = s.sessions := rfl
@[simp] theorem modAgeing_hostPorts (s : State) (g : Nat) (f : Ageing → Ageing) : (s.modAgeing g f).hostPorts = s.hostPorts := rfl
@[simp] theorem modAgeing_recoveries (s : State) (g : Nat) (f : Ageing → Ageing) : (s.modAgeing g f).recoveries = s.recoveries := rfl
@[simp] theorem modAgeing_meters (s : State) (g : Nat) (f : Ageing → Ageing) : (s.modAgeing g f).meters = s.meters := rfl
@[simp] theorem modAgeing_ptp (s : State) (g : Nat) (f : Ageing → Ageing) : (s.modAgeing g f).ptp = s.ptp := rfl
@[simp] theorem modAgeing_lease (s : State) (g : Nat) (f : Ageing → Ageing) : (s.modAgeing g f).lease = s.lease := rfl
@[simp] theorem modAgeing_kv (s : State) (g : Nat) (f : Ageing → Ageing) : (s.modAgeing g f).kv = s.kv := rfl
@[simp] theorem modAgeing_serve (s : State) (g : Nat) (f : Ageing → Ageing) : (s.modAgeing g f).serve = s.serve := rfl
@[simp] theorem modAgeing_dispatch (s : State) (g : Nat) (f : Ageing → Ageing) : (s.modAgeing g f).dispatch = s.dispatch := rfl
@[simp] theorem modAgeing_video (s : State) (g : Nat) (f : Ageing → Ageing) : (s.modAgeing g f).video = s.video := rfl
@[simp] theorem modAgeing_update (s : State) (g : Nat) (f : Ageing → Ageing) : (s.modAgeing g f).update = s.update := rfl
@[simp] theorem modAgeing_power (s : State) (g : Nat) (f : Ageing → Ageing) : (s.modAgeing g f).power = s.power := rfl
@[simp] theorem modAgeing_thermo (s : State) (g : Nat) (f : Ageing → Ageing) : (s.modAgeing g f).thermo = { s.thermo with ageing := mput s.thermo.ageing g (f (s.ageing g)) } := rfl
@[simp] theorem modAgeing_start (s : State) (g : Nat) (f : Ageing → Ageing) : (s.modAgeing g f).start = s.start := rfl
@[simp] theorem modAgeing_security (s : State) (g : Nat) (f : Ageing → Ageing) : (s.modAgeing g f).security = s.security := rfl
@[simp] theorem modAgeing_journals (s : State) (g : Nat) (f : Ageing → Ageing) : (s.modAgeing g f).journals = s.journals := rfl
@[simp] theorem modAgeing_checks (s : State) (g : Nat) (f : Ageing → Ageing) : (s.modAgeing g f).checks = s.checks := rfl
@[simp] theorem modAgeing_snaps (s : State) (g : Nat) (f : Ageing → Ageing) : (s.modAgeing g f).snaps = s.snaps := rfl
@[simp] theorem modAgeing_sent (s : State) (g : Nat) (f : Ageing → Ageing) : (s.modAgeing g f).sent = s.sent := rfl

/-! State.modSession -/

@[simp] theorem modSession_pending (s : State) (i : Nat) (f : Session → Session) : (s.modSession i f).pending = s.pending := rfl
@[simp] theorem modSession_now (s : State) (i : Nat) (f : Session → Session) : (s.modSession i f).now = s.now := rfl
@[simp] theorem modSession_fresh (s : State) (i : Nat) (f : Session → Session) : (s.modSession i f).fresh = s.fresh := rfl
@[simp] theorem modSession_regs (s : State) (i : Nat) (f : Session → Session) : (s.modSession i f).regs = s.regs := rfl
@[simp] theorem modSession_mem (s : State) (i : Nat) (f : Session → Session) : (s.modSession i f).mem = s.mem := rfl
@[simp] theorem modSession_owners (s : State) (i : Nat) (f : Session → Session) : (s.modSession i f).owners = s.owners := rfl
@[simp] theorem modSession_strands (s : State) (i : Nat) (f : Session → Session) : (s.modSession i f).strands = s.strands := rfl
@[simp] theorem modSession_dieKnots (s : State) (i : Nat) (f : Session → Session) : (s.modSession i f).dieKnots = s.dieKnots := rfl
@[simp] theorem modSession_hanks (s : State) (i : Nat) (f : Session → Session) : (s.modSession i f).hanks = s.hanks := rfl
@[simp] theorem modSession_parts (s : State) (i : Nat) (f : Session → Session) : (s.modSession i f).parts = s.parts := rfl
@[simp] theorem modSession_units (s : State) (i : Nat) (f : Session → Session) : (s.modSession i f).units = s.units := rfl
@[simp] theorem modSession_ctls (s : State) (i : Nat) (f : Session → Session) : (s.modSession i f).ctls = s.ctls := rfl
@[simp] theorem modSession_errLogs (s : State) (i : Nat) (f : Session → Session) : (s.modSession i f).errLogs = s.errLogs := rfl
@[simp] theorem modSession_errDropped (s : State) (i : Nat) (f : Session → Session) : (s.modSession i f).errDropped = s.errDropped := rfl
@[simp] theorem modSession_fairlead (s : State) (i : Nat) (f : Session → Session) : (s.modSession i f).fairlead = s.fairlead := rfl
@[simp] theorem modSession_ecron (s : State) (i : Nat) (f : Session → Session) : (s.modSession i f).ecron = s.ecron := rfl
@[simp] theorem modSession_sessions (s : State) (i : Nat) (f : Session → Session) : (s.modSession i f).sessions = mmod s.sessions i f := rfl
@[simp] theorem modSession_hostPorts (s : State) (i : Nat) (f : Session → Session) : (s.modSession i f).hostPorts = s.hostPorts := rfl
@[simp] theorem modSession_recoveries (s : State) (i : Nat) (f : Session → Session) : (s.modSession i f).recoveries = s.recoveries := rfl
@[simp] theorem modSession_meters (s : State) (i : Nat) (f : Session → Session) : (s.modSession i f).meters = s.meters := rfl
@[simp] theorem modSession_ptp (s : State) (i : Nat) (f : Session → Session) : (s.modSession i f).ptp = s.ptp := rfl
@[simp] theorem modSession_lease (s : State) (i : Nat) (f : Session → Session) : (s.modSession i f).lease = s.lease := rfl
@[simp] theorem modSession_kv (s : State) (i : Nat) (f : Session → Session) : (s.modSession i f).kv = s.kv := rfl
@[simp] theorem modSession_serve (s : State) (i : Nat) (f : Session → Session) : (s.modSession i f).serve = s.serve := rfl
@[simp] theorem modSession_dispatch (s : State) (i : Nat) (f : Session → Session) : (s.modSession i f).dispatch = s.dispatch := rfl
@[simp] theorem modSession_video (s : State) (i : Nat) (f : Session → Session) : (s.modSession i f).video = s.video := rfl
@[simp] theorem modSession_update (s : State) (i : Nat) (f : Session → Session) : (s.modSession i f).update = s.update := rfl
@[simp] theorem modSession_power (s : State) (i : Nat) (f : Session → Session) : (s.modSession i f).power = s.power := rfl
@[simp] theorem modSession_thermo (s : State) (i : Nat) (f : Session → Session) : (s.modSession i f).thermo = s.thermo := rfl
@[simp] theorem modSession_start (s : State) (i : Nat) (f : Session → Session) : (s.modSession i f).start = s.start := rfl
@[simp] theorem modSession_security (s : State) (i : Nat) (f : Session → Session) : (s.modSession i f).security = s.security := rfl
@[simp] theorem modSession_journals (s : State) (i : Nat) (f : Session → Session) : (s.modSession i f).journals = s.journals := rfl
@[simp] theorem modSession_checks (s : State) (i : Nat) (f : Session → Session) : (s.modSession i f).checks = s.checks := rfl
@[simp] theorem modSession_snaps (s : State) (i : Nat) (f : Session → Session) : (s.modSession i f).snaps = s.snaps := rfl
@[simp] theorem modSession_sent (s : State) (i : Nat) (f : Session → Session) : (s.modSession i f).sent = s.sent := rfl

/-! State.send -/

@[simp] theorem send_pending (s : State) (o : Out) : (s.send o).pending = s.pending := rfl
@[simp] theorem send_now (s : State) (o : Out) : (s.send o).now = s.now := rfl
@[simp] theorem send_fresh (s : State) (o : Out) : (s.send o).fresh = s.fresh := rfl
@[simp] theorem send_regs (s : State) (o : Out) : (s.send o).regs = s.regs := rfl
@[simp] theorem send_mem (s : State) (o : Out) : (s.send o).mem = s.mem := rfl
@[simp] theorem send_owners (s : State) (o : Out) : (s.send o).owners = s.owners := rfl
@[simp] theorem send_strands (s : State) (o : Out) : (s.send o).strands = s.strands := rfl
@[simp] theorem send_dieKnots (s : State) (o : Out) : (s.send o).dieKnots = s.dieKnots := rfl
@[simp] theorem send_hanks (s : State) (o : Out) : (s.send o).hanks = s.hanks := rfl
@[simp] theorem send_parts (s : State) (o : Out) : (s.send o).parts = s.parts := rfl
@[simp] theorem send_units (s : State) (o : Out) : (s.send o).units = s.units := rfl
@[simp] theorem send_ctls (s : State) (o : Out) : (s.send o).ctls = s.ctls := rfl
@[simp] theorem send_errLogs (s : State) (o : Out) : (s.send o).errLogs = s.errLogs := rfl
@[simp] theorem send_errDropped (s : State) (o : Out) : (s.send o).errDropped = s.errDropped := rfl
@[simp] theorem send_fairlead (s : State) (o : Out) : (s.send o).fairlead = s.fairlead := rfl
@[simp] theorem send_ecron (s : State) (o : Out) : (s.send o).ecron = s.ecron := rfl
@[simp] theorem send_sessions (s : State) (o : Out) : (s.send o).sessions = s.sessions := rfl
@[simp] theorem send_hostPorts (s : State) (o : Out) : (s.send o).hostPorts = s.hostPorts := rfl
@[simp] theorem send_recoveries (s : State) (o : Out) : (s.send o).recoveries = s.recoveries := rfl
@[simp] theorem send_meters (s : State) (o : Out) : (s.send o).meters = s.meters := rfl
@[simp] theorem send_ptp (s : State) (o : Out) : (s.send o).ptp = s.ptp := rfl
@[simp] theorem send_lease (s : State) (o : Out) : (s.send o).lease = s.lease := rfl
@[simp] theorem send_kv (s : State) (o : Out) : (s.send o).kv = s.kv := rfl
@[simp] theorem send_serve (s : State) (o : Out) : (s.send o).serve = s.serve := rfl
@[simp] theorem send_dispatch (s : State) (o : Out) : (s.send o).dispatch = s.dispatch := rfl
@[simp] theorem send_video (s : State) (o : Out) : (s.send o).video = s.video := rfl
@[simp] theorem send_update (s : State) (o : Out) : (s.send o).update = s.update := rfl
@[simp] theorem send_power (s : State) (o : Out) : (s.send o).power = s.power := rfl
@[simp] theorem send_thermo (s : State) (o : Out) : (s.send o).thermo = s.thermo := rfl
@[simp] theorem send_start (s : State) (o : Out) : (s.send o).start = s.start := rfl
@[simp] theorem send_security (s : State) (o : Out) : (s.send o).security = s.security := rfl
@[simp] theorem send_journals (s : State) (o : Out) : (s.send o).journals = s.journals := rfl
@[simp] theorem send_checks (s : State) (o : Out) : (s.send o).checks = s.checks := rfl
@[simp] theorem send_snaps (s : State) (o : Out) : (s.send o).snaps = s.snaps := rfl
@[simp] theorem send_sent (s : State) (o : Out) : (s.send o).sent = o :: s.sent := rfl

/-! State.poke -/

@[simp] theorem poke_pending (s : State) (a : Nat) (bs : List Byte) : (s.poke a bs).pending = s.pending := rfl
@[simp] theorem poke_now (s : State) (a : Nat) (bs : List Byte) : (s.poke a bs).now = s.now := rfl
@[simp] theorem poke_fresh (s : State) (a : Nat) (bs : List Byte) : (s.poke a bs).fresh = s.fresh := rfl
@[simp] theorem poke_regs (s : State) (a : Nat) (bs : List Byte) : (s.poke a bs).regs = s.regs := rfl
@[simp] theorem poke_mem (s : State) (a : Nat) (bs : List Byte) : (s.poke a bs).mem = writeBytes s.mem a bs := rfl
@[simp] theorem poke_owners (s : State) (a : Nat) (bs : List Byte) : (s.poke a bs).owners = s.owners := rfl
@[simp] theorem poke_strands (s : State) (a : Nat) (bs : List Byte) : (s.poke a bs).strands = s.strands := rfl
@[simp] theorem poke_dieKnots (s : State) (a : Nat) (bs : List Byte) : (s.poke a bs).dieKnots = s.dieKnots := rfl
@[simp] theorem poke_hanks (s : State) (a : Nat) (bs : List Byte) : (s.poke a bs).hanks = s.hanks := rfl
@[simp] theorem poke_parts (s : State) (a : Nat) (bs : List Byte) : (s.poke a bs).parts = s.parts := rfl
@[simp] theorem poke_units (s : State) (a : Nat) (bs : List Byte) : (s.poke a bs).units = s.units := rfl
@[simp] theorem poke_ctls (s : State) (a : Nat) (bs : List Byte) : (s.poke a bs).ctls = s.ctls := rfl
@[simp] theorem poke_errLogs (s : State) (a : Nat) (bs : List Byte) : (s.poke a bs).errLogs = s.errLogs := rfl
@[simp] theorem poke_errDropped (s : State) (a : Nat) (bs : List Byte) : (s.poke a bs).errDropped = s.errDropped := rfl
@[simp] theorem poke_fairlead (s : State) (a : Nat) (bs : List Byte) : (s.poke a bs).fairlead = s.fairlead := rfl
@[simp] theorem poke_ecron (s : State) (a : Nat) (bs : List Byte) : (s.poke a bs).ecron = s.ecron := rfl
@[simp] theorem poke_sessions (s : State) (a : Nat) (bs : List Byte) : (s.poke a bs).sessions = s.sessions := rfl
@[simp] theorem poke_hostPorts (s : State) (a : Nat) (bs : List Byte) : (s.poke a bs).hostPorts = s.hostPorts := rfl
@[simp] theorem poke_recoveries (s : State) (a : Nat) (bs : List Byte) : (s.poke a bs).recoveries = s.recoveries := rfl
@[simp] theorem poke_meters (s : State) (a : Nat) (bs : List Byte) : (s.poke a bs).meters = s.meters := rfl
@[simp] theorem poke_ptp (s : State) (a : Nat) (bs : List Byte) : (s.poke a bs).ptp = s.ptp := rfl
@[simp] theorem poke_lease (s : State) (a : Nat) (bs : List Byte) : (s.poke a bs).lease = s.lease := rfl
@[simp] theorem poke_kv (s : State) (a : Nat) (bs : List Byte) : (s.poke a bs).kv = s.kv := rfl
@[simp] theorem poke_serve (s : State) (a : Nat) (bs : List Byte) : (s.poke a bs).serve = s.serve := rfl
@[simp] theorem poke_dispatch (s : State) (a : Nat) (bs : List Byte) : (s.poke a bs).dispatch = s.dispatch := rfl
@[simp] theorem poke_video (s : State) (a : Nat) (bs : List Byte) : (s.poke a bs).video = s.video := rfl
@[simp] theorem poke_update (s : State) (a : Nat) (bs : List Byte) : (s.poke a bs).update = s.update := rfl
@[simp] theorem poke_power (s : State) (a : Nat) (bs : List Byte) : (s.poke a bs).power = s.power := rfl
@[simp] theorem poke_thermo (s : State) (a : Nat) (bs : List Byte) : (s.poke a bs).thermo = s.thermo := rfl
@[simp] theorem poke_start (s : State) (a : Nat) (bs : List Byte) : (s.poke a bs).start = s.start := rfl
@[simp] theorem poke_security (s : State) (a : Nat) (bs : List Byte) : (s.poke a bs).security = s.security := rfl
@[simp] theorem poke_journals (s : State) (a : Nat) (bs : List Byte) : (s.poke a bs).journals = s.journals := rfl
@[simp] theorem poke_checks (s : State) (a : Nat) (bs : List Byte) : (s.poke a bs).checks = s.checks := rfl
@[simp] theorem poke_snaps (s : State) (a : Nat) (bs : List Byte) : (s.poke a bs).snaps = s.snaps := rfl
@[simp] theorem poke_sent (s : State) (a : Nat) (bs : List Byte) : (s.poke a bs).sent = s.sent := rfl

/-! State.wipe -/

@[simp] theorem wipe_pending (s : State) (a n : Nat) : (s.wipe a n).pending = s.pending := rfl
@[simp] theorem wipe_now (s : State) (a n : Nat) : (s.wipe a n).now = s.now := rfl
@[simp] theorem wipe_fresh (s : State) (a n : Nat) : (s.wipe a n).fresh = s.fresh := rfl
@[simp] theorem wipe_regs (s : State) (a n : Nat) : (s.wipe a n).regs = s.regs := rfl
@[simp] theorem wipe_mem (s : State) (a n : Nat) : (s.wipe a n).mem = eraseRange s.mem a n := rfl
@[simp] theorem wipe_owners (s : State) (a n : Nat) : (s.wipe a n).owners = s.owners := rfl
@[simp] theorem wipe_strands (s : State) (a n : Nat) : (s.wipe a n).strands = s.strands := rfl
@[simp] theorem wipe_dieKnots (s : State) (a n : Nat) : (s.wipe a n).dieKnots = s.dieKnots := rfl
@[simp] theorem wipe_hanks (s : State) (a n : Nat) : (s.wipe a n).hanks = s.hanks := rfl
@[simp] theorem wipe_parts (s : State) (a n : Nat) : (s.wipe a n).parts = s.parts := rfl
@[simp] theorem wipe_units (s : State) (a n : Nat) : (s.wipe a n).units = s.units := rfl
@[simp] theorem wipe_ctls (s : State) (a n : Nat) : (s.wipe a n).ctls = s.ctls := rfl
@[simp] theorem wipe_errLogs (s : State) (a n : Nat) : (s.wipe a n).errLogs = s.errLogs := rfl
@[simp] theorem wipe_errDropped (s : State) (a n : Nat) : (s.wipe a n).errDropped = s.errDropped := rfl
@[simp] theorem wipe_fairlead (s : State) (a n : Nat) : (s.wipe a n).fairlead = s.fairlead := rfl
@[simp] theorem wipe_ecron (s : State) (a n : Nat) : (s.wipe a n).ecron = s.ecron := rfl
@[simp] theorem wipe_sessions (s : State) (a n : Nat) : (s.wipe a n).sessions = s.sessions := rfl
@[simp] theorem wipe_hostPorts (s : State) (a n : Nat) : (s.wipe a n).hostPorts = s.hostPorts := rfl
@[simp] theorem wipe_recoveries (s : State) (a n : Nat) : (s.wipe a n).recoveries = s.recoveries := rfl
@[simp] theorem wipe_meters (s : State) (a n : Nat) : (s.wipe a n).meters = s.meters := rfl
@[simp] theorem wipe_ptp (s : State) (a n : Nat) : (s.wipe a n).ptp = s.ptp := rfl
@[simp] theorem wipe_lease (s : State) (a n : Nat) : (s.wipe a n).lease = s.lease := rfl
@[simp] theorem wipe_kv (s : State) (a n : Nat) : (s.wipe a n).kv = s.kv := rfl
@[simp] theorem wipe_serve (s : State) (a n : Nat) : (s.wipe a n).serve = s.serve := rfl
@[simp] theorem wipe_dispatch (s : State) (a n : Nat) : (s.wipe a n).dispatch = s.dispatch := rfl
@[simp] theorem wipe_video (s : State) (a n : Nat) : (s.wipe a n).video = s.video := rfl
@[simp] theorem wipe_update (s : State) (a n : Nat) : (s.wipe a n).update = s.update := rfl
@[simp] theorem wipe_power (s : State) (a n : Nat) : (s.wipe a n).power = s.power := rfl
@[simp] theorem wipe_thermo (s : State) (a n : Nat) : (s.wipe a n).thermo = s.thermo := rfl
@[simp] theorem wipe_start (s : State) (a n : Nat) : (s.wipe a n).start = s.start := rfl
@[simp] theorem wipe_security (s : State) (a n : Nat) : (s.wipe a n).security = s.security := rfl
@[simp] theorem wipe_journals (s : State) (a n : Nat) : (s.wipe a n).journals = s.journals := rfl
@[simp] theorem wipe_checks (s : State) (a n : Nat) : (s.wipe a n).checks = s.checks := rfl
@[simp] theorem wipe_snaps (s : State) (a n : Nat) : (s.wipe a n).snaps = s.snaps := rfl
@[simp] theorem wipe_sent (s : State) (a n : Nat) : (s.wipe a n).sent = s.sent := rfl

/-! State.setOwn -/

@[simp] theorem setOwn_pending (s : State) (u k v : Nat) : (s.setOwn u k v).pending = s.pending := rfl
@[simp] theorem setOwn_now (s : State) (u k v : Nat) : (s.setOwn u k v).now = s.now := rfl
@[simp] theorem setOwn_fresh (s : State) (u k v : Nat) : (s.setOwn u k v).fresh = s.fresh := rfl
@[simp] theorem setOwn_regs (s : State) (u k v : Nat) : (s.setOwn u k v).regs = s.regs := rfl
@[simp] theorem setOwn_mem (s : State) (u k v : Nat) : (s.setOwn u k v).mem = s.mem := rfl
@[simp] theorem setOwn_owners (s : State) (u k v : Nat) : (s.setOwn u k v).owners = if v = 31 then mdel s.owners (u * 256 + k) else mput s.owners (u * 256 + k) v := rfl
@[simp] theorem setOwn_strands (s : State) (u k v : Nat) : (s.setOwn u k v).strands = s.strands := rfl
@[simp] theorem setOwn_dieKnots (s : State) (u k v : Nat) : (s.setOwn u k v).dieKnots = s.dieKnots := rfl
@[simp] theorem setOwn_hanks (s : State) (u k v : Nat) : (s.setOwn u k v).hanks = s.hanks := rfl
@[simp] theorem setOwn_parts (s : State) (u k v : Nat) : (s.setOwn u k v).parts = s.parts := rfl
@[simp] theorem setOwn_units (s : State) (u k v : Nat) : (s.setOwn u k v).units = s.units := rfl
@[simp] theorem setOwn_ctls (s : State) (u k v : Nat) : (s.setOwn u k v).ctls = s.ctls := rfl
@[simp] theorem setOwn_errLogs (s : State) (u k v : Nat) : (s.setOwn u k v).errLogs = s.errLogs := rfl
@[simp] theorem setOwn_errDropped (s : State) (u k v : Nat) : (s.setOwn u k v).errDropped = s.errDropped := rfl
@[simp] theorem setOwn_fairlead (s : State) (u k v : Nat) : (s.setOwn u k v).fairlead = s.fairlead := rfl
@[simp] theorem setOwn_ecron (s : State) (u k v : Nat) : (s.setOwn u k v).ecron = s.ecron := rfl
@[simp] theorem setOwn_sessions (s : State) (u k v : Nat) : (s.setOwn u k v).sessions = s.sessions := rfl
@[simp] theorem setOwn_hostPorts (s : State) (u k v : Nat) : (s.setOwn u k v).hostPorts = s.hostPorts := rfl
@[simp] theorem setOwn_recoveries (s : State) (u k v : Nat) : (s.setOwn u k v).recoveries = s.recoveries := rfl
@[simp] theorem setOwn_meters (s : State) (u k v : Nat) : (s.setOwn u k v).meters = s.meters := rfl
@[simp] theorem setOwn_ptp (s : State) (u k v : Nat) : (s.setOwn u k v).ptp = s.ptp := rfl
@[simp] theorem setOwn_lease (s : State) (u k v : Nat) : (s.setOwn u k v).lease = s.lease := rfl
@[simp] theorem setOwn_kv (s : State) (u k v : Nat) : (s.setOwn u k v).kv = s.kv := rfl
@[simp] theorem setOwn_serve (s : State) (u k v : Nat) : (s.setOwn u k v).serve = s.serve := rfl
@[simp] theorem setOwn_dispatch (s : State) (u k v : Nat) : (s.setOwn u k v).dispatch = s.dispatch := rfl
@[simp] theorem setOwn_video (s : State) (u k v : Nat) : (s.setOwn u k v).video = s.video := rfl
@[simp] theorem setOwn_update (s : State) (u k v : Nat) : (s.setOwn u k v).update = s.update := rfl
@[simp] theorem setOwn_power (s : State) (u k v : Nat) : (s.setOwn u k v).power = s.power := rfl
@[simp] theorem setOwn_thermo (s : State) (u k v : Nat) : (s.setOwn u k v).thermo = s.thermo := rfl
@[simp] theorem setOwn_start (s : State) (u k v : Nat) : (s.setOwn u k v).start = s.start := rfl
@[simp] theorem setOwn_security (s : State) (u k v : Nat) : (s.setOwn u k v).security = s.security := rfl
@[simp] theorem setOwn_journals (s : State) (u k v : Nat) : (s.setOwn u k v).journals = s.journals := rfl
@[simp] theorem setOwn_checks (s : State) (u k v : Nat) : (s.setOwn u k v).checks = s.checks := rfl
@[simp] theorem setOwn_snaps (s : State) (u k v : Nat) : (s.setOwn u k v).snaps = s.snaps := rfl
@[simp] theorem setOwn_sent (s : State) (u k v : Nat) : (s.setOwn u k v).sent = s.sent := rfl

/-! Records read back -/

@[simp] theorem setReg_reg_self (s : State) (a v : Nat) : (s.setReg a v).reg a = v := by
  unfold State.reg State.setReg mgetD
  dsimp only
  split
  · rw [mget_mdel_self]; simp [*]
  · rw [mget_mput_self]; rfl

theorem setReg_reg_other (s : State) (a b v : Nat) (h : b ≠ a) : (s.setReg a v).reg b = s.reg b := by
  unfold State.reg State.setReg mgetD
  dsimp only
  split
  · rw [mget_mdel_other _ _ _ h]
  · rw [mget_mput_other _ _ _ _ h]

theorem inc_reg_self (s : State) (a : Nat) : (s.inc a).reg a = sat32 (s.reg a + 1) := setReg_reg_self s a _

theorem inc_reg_other (s : State) (a b : Nat) (h : b ≠ a) : (s.inc a).reg b = s.reg b := setReg_reg_other s a b _ h

@[simp] theorem modStrand_strand_self (s : State) (i : Nat) (f : Strand → Strand) :
    (s.modStrand i f).strand i = f (s.strand i) := mgetD_mput_self _ _ _ _

theorem modStrand_strand_other (s : State) (i j : Nat) (f : Strand → Strand) (h : j ≠ i) :
    (s.modStrand i f).strand j = s.strand j := mgetD_mput_other _ _ _ _ _ h

@[simp] theorem modHank_hank_self (s : State) (g : Nat) (f : Hank → Hank) :
    (s.modHank g f).hank g = f (s.hank g) := mgetD_mput_self _ _ _ _

theorem modHank_hank_other (s : State) (g j : Nat) (f : Hank → Hank) (h : j ≠ g) :
    (s.modHank g f).hank j = s.hank j := mgetD_mput_other _ _ _ _ _ h

@[simp] theorem modPart_part_self (s : State) (p : Nat) (f : Part → Part) :
    (s.modPart p f).part p = f (s.part p) := mgetD_mput_self _ _ _ _

theorem modPart_part_other (s : State) (p j : Nat) (f : Part → Part) (h : j ≠ p) :
    (s.modPart p f).part j = s.part j := mgetD_mput_other _ _ _ _ _ h

@[simp] theorem modUnit_unit_self (s : State) (u : Nat) (f : MemUnit → MemUnit) :
    (s.modUnit u f).unit u = f (s.unit u) := mgetD_mput_self _ _ _ _

theorem modUnit_unit_other (s : State) (u j : Nat) (f : MemUnit → MemUnit) (h : j ≠ u) :
    (s.modUnit u f).unit j = s.unit j := mgetD_mput_other _ _ _ _ _ h

@[simp] theorem modDom_dom_self (s : State) (n : Nat) (f : Domain → Domain) :
    (s.modDom n f).dom n = f (s.dom n) := mgetD_mput_self _ _ _ _

theorem modDom_dom_other (s : State) (n j : Nat) (f : Domain → Domain) (h : j ≠ n) :
    (s.modDom n f).dom j = s.dom j := mgetD_mput_other _ _ _ _ _ h

@[simp] theorem modPort_port_self (s : State) (p : Nat) (f : Port → Port) :
    (s.modPort p f).port p = f (s.port p) := mgetD_mput_self _ _ _ _

theorem modPort_port_other (s : State) (p j : Nat) (f : Port → Port) (h : j ≠ p) :
    (s.modPort p f).port j = s.port j := mgetD_mput_other _ _ _ _ _ h

@[simp] theorem modHostPort_hostPort_self (s : State) (p : Nat) (f : HostPort → HostPort) :
    (s.modHostPort p f).hostPort p = f (s.hostPort p) := mgetD_mput_self _ _ _ _

theorem modHostPort_hostPort_other (s : State) (p j : Nat) (f : HostPort → HostPort) (h : j ≠ p) :
    (s.modHostPort p f).hostPort j = s.hostPort j := mgetD_mput_other _ _ _ _ _ h

@[simp] theorem modEngine_engine_self (s : State) (d : Nat) (f : Engine → Engine) :
    (s.modEngine d f).engine d = f (s.engine d) := mgetD_mput_self _ _ _ _

@[simp] theorem modJournal_journal_self (s : State) (p : Nat) (f : Journal → Journal) :
    (s.modJournal p f).journal p = f (s.journal p) := mgetD_mput_self _ _ _ _

/-- What a place of the byte store reads after a write of its own bytes. -/
theorem poke_peek (s : State) (a : Nat) (bs : List Byte) : (s.poke a bs).peek a bs.length = bs :=
  readBytes_writeBytes s.mem a bs

/-- A write leaves every byte outside it as it was. -/
theorem poke_bget_other (s : State) (a b : Nat) (bs : List Byte) (h : b < a ∨ a + bs.length ≤ b) :
    bget (s.poke a bs).mem b = bget s.mem b := bget_writeBytes_other bs s.mem a b h

end Sys2Proof.Machine
end

