-- ==== Sys2Proof/Laws/Keeps.lean ====
section
/-! SUPPORT. What every command keeps, said once as a relation between two states: the queue is untouched, the byte store
stays canonical, the lanyard epoch (R498), the boot count and the module generation never decrease, free values are never
taken twice, module time never decreases (R429) and step counters move only where a step commits or a partition begins
(R106). The files Keeps<Family>.lean prove it of every operation on State; `clock` and `steps` say which of the
last two an operation keeps, and `F` which fields it may change. -/

namespace Sys2Proof.Machine

/-- The place of a field in a mask. -/
def Field.place : Field → Nat
  | .now => 0
  | .fresh => 1
  | .regs => 2
  | .mem => 3
  | .owners => 4
  | .strands => 5
  | .dieKnots => 6
  | .hanks => 7
  | .parts => 8
  | .units => 9
  | .ctls => 10
  | .errLogs => 11
  | .errDropped => 12
  | .fairlead => 13
  | .ecron => 14
  | .sessions => 15
  | .hostPorts => 16
  | .recoveries => 17
  | .meters => 18
  | .ptp => 19
  | .lease => 20
  | .kv => 21
  | .serve => 22
  | .dispatch => 23
  | .video => 24
  | .update => 25
  | .power => 26
  | .thermo => 27
  | .start => 28
  | .security => 29
  | .journals => 30
  | .checks => 31
  | .snaps => 32
  | .sent => 33

/-- The fields of a mask are among those that may change. -/
def Within (T : Nat) (F : Field → Bool) : Prop := ∀ f : Field, T.testBit f.place = true → F f = true

theorem within_of {T U : Nat} {F : Field → Bool} (e : Nat.land T U = T) (h : Within U F) : Within T F := by
  intro f hf
  apply h
  rw [← e] at hf
  have := Nat.testBit_and T U f.place
  rw [show (T &&& U) = Nat.land T U from rfl] at this
  rw [hf] at this
  exact (Bool.and_eq_true _ _ ▸ this.symm).2

theorem within_mem {T : Nat} {F : Field → Bool} {f : Field} (h : Within T F) (e : T.testBit f.place = true) : F f = true :=
  h f e

theorem same_trans {f : Field} {a b c : State} (h : Same f a b) (g : Same f b c) : Same f a c := by
  cases f <;> exact Eq.trans g h

/-- What an operation keeps; the fields that F allows may change. -/
structure Keeps (clock steps : Bool) (F : Field → Bool) (r t : State) : Prop where
  queue : t.pending = r.pending
  store : Memory.wf r.mem = true → Memory.wf t.mem = true
  fresh : r.fresh ≤ t.fresh
  epoch : r.lease.epoch ≤ t.lease.epoch
  boots : r.security.bootCount ≤ t.security.bootCount
  gens : r.security.gen ≤ t.security.gen
  time : clock = true → r.now ≤ t.now
  counter : steps = true → ∀ p, (t.part p).step.counter = (r.part p).step.counter
  same : ∀ f, F f = false → Same f r t

variable {kc kn : Bool} {F : Field → Bool} {old s : State}

/-- Every next state of an outcome keeps it. -/
def NextKeeps (clock steps : Bool) (F : Field → Bool) (r : State) (o : Host.Outcome State Fault Refusal) : Prop :=
  ∀ t, o = .next t → Keeps clock steps F r t

theorem next_keeps (h : Keeps kc kn F old s) : NextKeeps kc kn F old (.next s) := by
  intro t e
  cases e
  exact h

theorem fault_keeps {f : Fault} : NextKeeps kc kn F old (.fault f) := fun _ e => nomatch e

theorem keeps_refl : Keeps kc kn F old old :=
  ⟨rfl, fun w => w, Nat.le_refl _, Nat.le_refl _, Nat.le_refl _, Nat.le_refl _, fun _ => Nat.le_refl _, fun _ _ => rfl,
    fun f _ => by cases f <;> exact rfl⟩

theorem keeps_trans {t : State} (h : Keeps kc kn F old s) (g : Keeps kc kn F s t) : Keeps kc kn F old t :=
  ⟨g.queue.trans h.queue, fun w => g.store (h.store w), Nat.le_trans h.fresh g.fresh, Nat.le_trans h.epoch g.epoch,
    Nat.le_trans h.boots g.boots, Nat.le_trans h.gens g.gens, fun w => Nat.le_trans (h.time w) (g.time w),
    fun w p => (g.counter w p).trans (h.counter w p),
    fun f w => same_trans (h.same f w) (g.same f w)⟩

theorem keeps_via {x : State} {t : State} (h : Keeps kc kn F old x) (g : Keeps kc kn F old x → Keeps kc kn F old t) : Keeps kc kn F old t :=
  g h

theorem keeps_viaF {α : Type} {f : State → α → State} {t : State} (h : ∀ s a, Keeps kc kn F old s → Keeps kc kn F old (f s a))
    (g : (∀ s a, Keeps kc kn F old s → Keeps kc kn F old (f s a)) → Keeps kc kn F old t) : Keeps kc kn F old t := g h

theorem keeps_viaF0 {f : State → State} {t : State} (h : ∀ s, Keeps kc kn F old s → Keeps kc kn F old (f s))
    (g : (∀ s, Keeps kc kn F old s → Keeps kc kn F old (f s)) → Keeps kc kn F old t) : Keeps kc kn F old t := g h

theorem keeps_viaF2 {α β : Type} {f : State → α → β → State} {t : State}
    (h : ∀ s a b, Keeps kc kn F old s → Keeps kc kn F old (f s a b))
    (g : (∀ s a b, Keeps kc kn F old s → Keeps kc kn F old (f s a b)) → Keeps kc kn F old t) : Keeps kc kn F old t := g h

theorem keeps_viaG {α β γ : Type} {f : α → State → β × γ × State} {t : State}
    (h : ∀ a s, Keeps kc kn F old s → Keeps kc kn F old (f a s).2.2)
    (g : (∀ a s, Keeps kc kn F old s → Keeps kc kn F old (f a s).2.2) → Keeps kc kn F old t) : Keeps kc kn F old t := g h

theorem keeps_viaH {α β γ : Type} {f : α → β × γ × State} {t : State} (h : ∀ a, Keeps kc kn F old (f a).2.2)
    (g : (∀ a, Keeps kc kn F old (f a).2.2) → Keeps kc kn F old t) : Keeps kc kn F old t := g h

theorem keeps_viaF4 {α β γ δ : Type} {f : State → α → β → γ → δ → State} {t : State}
    (h : ∀ s a b c d, Keeps kc kn F old s → Keeps kc kn F old (f s a b c d))
    (g : (∀ s a b c d, Keeps kc kn F old s → Keeps kc kn F old (f s a b c d)) → Keeps kc kn F old t) : Keeps kc kn F old t := g h

theorem keeps_viaP {α : Type} {f : State → α × State} {t : State}
    (h : ∀ s, Keeps kc kn F old s → Keeps kc kn F old (f s).2)
    (g : (∀ s, Keeps kc kn F old s → Keeps kc kn F old (f s).2) → Keeps kc kn F old t) : Keeps kc kn F old t := g h

theorem next_via {x : State} {o : Host.Outcome State Fault Refusal} (h : Keeps kc kn F old x) (g : Keeps kc kn F old x → NextKeeps kc kn F old o) : NextKeeps kc kn F old o :=
  g h

theorem next_viaF {α : Type} {f : State → α → State} {o : Host.Outcome State Fault Refusal} (h : ∀ s a, Keeps kc kn F old s → Keeps kc kn F old (f s a))
    (g : (∀ s a, Keeps kc kn F old s → Keeps kc kn F old (f s a)) → NextKeeps kc kn F old o) : NextKeeps kc kn F old o := g h

theorem next_viaF0 {f : State → State} {o : Host.Outcome State Fault Refusal} (h : ∀ s, Keeps kc kn F old s → Keeps kc kn F old (f s))
    (g : (∀ s, Keeps kc kn F old s → Keeps kc kn F old (f s)) → NextKeeps kc kn F old o) : NextKeeps kc kn F old o := g h

theorem next_viaF2 {α β : Type} {f : State → α → β → State} {o : Host.Outcome State Fault Refusal}
    (h : ∀ s a b, Keeps kc kn F old s → Keeps kc kn F old (f s a b))
    (g : (∀ s a b, Keeps kc kn F old s → Keeps kc kn F old (f s a b)) → NextKeeps kc kn F old o) : NextKeeps kc kn F old o := g h

theorem next_viaG {α β γ : Type} {f : α → State → β × γ × State} {o : Host.Outcome State Fault Refusal}
    (h : ∀ a s, Keeps kc kn F old s → Keeps kc kn F old (f a s).2.2)
    (g : (∀ a s, Keeps kc kn F old s → Keeps kc kn F old (f a s).2.2) → NextKeeps kc kn F old o) : NextKeeps kc kn F old o := g h

theorem next_viaH {α β γ : Type} {f : α → β × γ × State} {o : Host.Outcome State Fault Refusal} (h : ∀ a, Keeps kc kn F old (f a).2.2)
    (g : (∀ a, Keeps kc kn F old (f a).2.2) → NextKeeps kc kn F old o) : NextKeeps kc kn F old o := g h

theorem next_viaF4 {α β γ δ : Type} {f : State → α → β → γ → δ → State} {o : Host.Outcome State Fault Refusal}
    (h : ∀ s a b c d, Keeps kc kn F old s → Keeps kc kn F old (f s a b c d))
    (g : (∀ s a b c d, Keeps kc kn F old s → Keeps kc kn F old (f s a b c d)) → NextKeeps kc kn F old o) : NextKeeps kc kn F old o := g h

theorem next_viaP {α : Type} {f : State → α × State} {o : Host.Outcome State Fault Refusal}
    (h : ∀ s, Keeps kc kn F old s → Keeps kc kn F old (f s).2)
    (g : (∀ s, Keeps kc kn F old s → Keeps kc kn F old (f s).2) → NextKeeps kc kn F old o) : NextKeeps kc kn F old o := g h

theorem keeps_fst {α : Type} {x : State × α} {t : State} {a : α} (e : x = (t, a)) (h : Keeps kc kn F old x.1) :
    Keeps kc kn F old t := by
  rw [e] at h
  exact h

theorem keeps_snd {α : Type} {x : α × State} {t : State} {a : α} (e : x = (a, t)) (h : Keeps kc kn F old x.2) :
    Keeps kc kn F old t := by
  rw [e] at h
  exact h

theorem keeps_thd {α β : Type} {x : α × β × State} {t : State} {a : α} {b : β} (e : x = (a, b, t))
    (h : Keeps kc kn F old x.2.2) : Keeps kc kn F old t := by
  rw [e] at h
  exact h

/-- A record update of State, field by field. -/
theorem keeps_mk {x : State}
    {pending : List Instr} {now : Nat} {fresh : Nat} {regs : Map Nat} {mem : List Host.Cell} {owners : Map Nat}
    {strands : Map Strand} {dieKnots : Map Nat} {hanks : Map Hank} {parts : Map Part} {units : Map MemUnit} {ctls
    : Map MemCtl} {errLogs : Map (List MemErr)} {errDropped : Map Nat} {fairlead : Map FldInst} {ecron : Ecron}
    {sessions : Map Session} {hostPorts : Map HostPort} {recoveries : Map Recovery} {meters : Map (Nat × Nat ×
    Nat)} {ptp : Ptp} {lease : Lease} {kv : Kv} {serve : Serve} {dispatch : Dispatch} {video : Video} {update :
    Update} {power : Power} {thermo : Thermo} {start : Start} {security : Security} {journals : Map Journal}
    {checks : Checks} {snaps : Map Nat} {sent : List Out}
    (hq : pending = x.pending)
    (h : Keeps kc kn F old x)
    (hm : Memory.wf x.mem = true → Memory.wf mem = true := by with_reducible exact fun w => w)
    (hf : x.fresh ≤ fresh := by
      first
      | with_reducible exact Nat.le_refl _
      | with_reducible exact Nat.le_add_right _ _
      | with_reducible exact Nat.le_trans (Nat.le_add_right _ _) (Nat.le_add_right _ _))
    (he : x.lease.epoch ≤ lease.epoch := by first | with_reducible exact Nat.le_refl _ | with_reducible exact Nat.le_add_right _ _)
    (hb : x.security.bootCount ≤ security.bootCount := by first | with_reducible exact Nat.le_refl _ | with_reducible exact Nat.le_add_right _ _)
    (hg : x.security.gen ≤ security.gen := by first | with_reducible exact Nat.le_refl _ | with_reducible exact Nat.le_add_right _ _)
    (ht : kc = true → x.now ≤ now := by
      first | with_reducible exact fun _ => Nat.le_refl _ | exact fun h => absurd h Bool.false_ne_true | with_reducible exact fun _ => Nat.le_max_left _ _ | with_reducible exact fun _ => Nat.le_add_right _ _)
    (hc : kn = true → ∀ p, (mgetD parts p Part.empty).step.counter = (mgetD x.parts p Part.empty).step.counter := by
      first | with_reducible exact fun _ _ => rfl | exact fun h => absurd h Bool.false_ne_true)
    (e_now : now = x.now ∨ F .now = true := by
      first | with_reducible exact Or.inl rfl | (refine Or.inr (within_mem (by with_reducible assumption) ?_); decide))
    (e_fresh : fresh = x.fresh ∨ F .fresh = true := by
      first | with_reducible exact Or.inl rfl | (refine Or.inr (within_mem (by with_reducible assumption) ?_); decide))
    (e_regs : regs = x.regs ∨ F .regs = true := by
      first | with_reducible exact Or.inl rfl | (refine Or.inr (within_mem (by with_reducible assumption) ?_); decide))
    (e_mem : mem = x.mem ∨ F .mem = true := by
      first | with_reducible exact Or.inl rfl | (refine Or.inr (within_mem (by with_reducible assumption) ?_); decide))
    (e_owners : owners = x.owners ∨ F .owners = true := by
      first | with_reducible exact Or.inl rfl | (refine Or.inr (within_mem (by with_reducible assumption) ?_); decide))
    (e_strands : strands = x.strands ∨ F .strands = true := by
      first | with_reducible exact Or.inl rfl | (refine Or.inr (within_mem (by with_reducible assumption) ?_); decide))
    (e_dieKnots : dieKnots = x.dieKnots ∨ F .dieKnots = true := by
      first | with_reducible exact Or.inl rfl | (refine Or.inr (within_mem (by with_reducible assumption) ?_); decide))
    (e_hanks : hanks = x.hanks ∨ F .hanks = true := by
      first | with_reducible exact Or.inl rfl | (refine Or.inr (within_mem (by with_reducible assumption) ?_); decide))
    (e_parts : parts = x.parts ∨ F .parts = true := by
      first | with_reducible exact Or.inl rfl | (refine Or.inr (within_mem (by with_reducible assumption) ?_); decide))
    (e_units : units = x.units ∨ F .units = true := by
      first | with_reducible exact Or.inl rfl | (refine Or.inr (within_mem (by with_reducible assumption) ?_); decide))
    (e_ctls : ctls = x.ctls ∨ F .ctls = true := by
      first | with_reducible exact Or.inl rfl | (refine Or.inr (within_mem (by with_reducible assumption) ?_); decide))
    (e_errLogs : errLogs = x.errLogs ∨ F .errLogs = true := by
      first | with_reducible exact Or.inl rfl | (refine Or.inr (within_mem (by with_reducible assumption) ?_); decide))
    (e_errDropped : errDropped = x.errDropped ∨ F .errDropped = true := by
      first | with_reducible exact Or.inl rfl | (refine Or.inr (within_mem (by with_reducible assumption) ?_); decide))
    (e_fairlead : fairlead = x.fairlead ∨ F .fairlead = true := by
      first | with_reducible exact Or.inl rfl | (refine Or.inr (within_mem (by with_reducible assumption) ?_); decide))
    (e_ecron : ecron = x.ecron ∨ F .ecron = true := by
      first | with_reducible exact Or.inl rfl | (refine Or.inr (within_mem (by with_reducible assumption) ?_); decide))
    (e_sessions : sessions = x.sessions ∨ F .sessions = true := by
      first | with_reducible exact Or.inl rfl | (refine Or.inr (within_mem (by with_reducible assumption) ?_); decide))
    (e_hostPorts : hostPorts = x.hostPorts ∨ F .hostPorts = true := by
      first | with_reducible exact Or.inl rfl | (refine Or.inr (within_mem (by with_reducible assumption) ?_); decide))
    (e_recoveries : recoveries = x.recoveries ∨ F .recoveries = true := by
      first | with_reducible exact Or.inl rfl | (refine Or.inr (within_mem (by with_reducible assumption) ?_); decide))
    (e_meters : meters = x.meters ∨ F .meters = true := by
      first | with_reducible exact Or.inl rfl | (refine Or.inr (within_mem (by with_reducible assumption) ?_); decide))
    (e_ptp : ptp = x.ptp ∨ F .ptp = true := by
      first | with_reducible exact Or.inl rfl | (refine Or.inr (within_mem (by with_reducible assumption) ?_); decide))
    (e_lease : lease = x.lease ∨ F .lease = true := by
      first | with_reducible exact Or.inl rfl | (refine Or.inr (within_mem (by with_reducible assumption) ?_); decide))
    (e_kv : kv = x.kv ∨ F .kv = true := by
      first | with_reducible exact Or.inl rfl | (refine Or.inr (within_mem (by with_reducible assumption) ?_); decide))
    (e_serve : serve = x.serve ∨ F .serve = true := by
      first | with_reducible exact Or.inl rfl | (refine Or.inr (within_mem (by with_reducible assumption) ?_); decide))
    (e_dispatch : dispatch = x.dispatch ∨ F .dispatch = true := by
      first | with_reducible exact Or.inl rfl | (refine Or.inr (within_mem (by with_reducible assumption) ?_); decide))
    (e_video : video = x.video ∨ F .video = true := by
      first | with_reducible exact Or.inl rfl | (refine Or.inr (within_mem (by with_reducible assumption) ?_); decide))
    (e_update : update = x.update ∨ F .update = true := by
      first | with_reducible exact Or.inl rfl | (refine Or.inr (within_mem (by with_reducible assumption) ?_); decide))
    (e_power : power = x.power ∨ F .power = true := by
      first | with_reducible exact Or.inl rfl | (refine Or.inr (within_mem (by with_reducible assumption) ?_); decide))
    (e_thermo : thermo = x.thermo ∨ F .thermo = true := by
      first | with_reducible exact Or.inl rfl | (refine Or.inr (within_mem (by with_reducible assumption) ?_); decide))
    (e_start : start = x.start ∨ F .start = true := by
      first | with_reducible exact Or.inl rfl | (refine Or.inr (within_mem (by with_reducible assumption) ?_); decide))
    (e_security : security = x.security ∨ F .security = true := by
      first | with_reducible exact Or.inl rfl | (refine Or.inr (within_mem (by with_reducible assumption) ?_); decide))
    (e_journals : journals = x.journals ∨ F .journals = true := by
      first | with_reducible exact Or.inl rfl | (refine Or.inr (within_mem (by with_reducible assumption) ?_); decide))
    (e_checks : checks = x.checks ∨ F .checks = true := by
      first | with_reducible exact Or.inl rfl | (refine Or.inr (within_mem (by with_reducible assumption) ?_); decide))
    (e_snaps : snaps = x.snaps ∨ F .snaps = true := by
      first | with_reducible exact Or.inl rfl | (refine Or.inr (within_mem (by with_reducible assumption) ?_); decide))
    (e_sent : sent = x.sent ∨ F .sent = true := by
      first | with_reducible exact Or.inl rfl | (refine Or.inr (within_mem (by with_reducible assumption) ?_); decide)) :
    Keeps kc kn F old ⟨pending, now, fresh, regs, mem, owners, strands, dieKnots, hanks, parts, units, ctls, errLogs,
      errDropped, fairlead, ecron, sessions, hostPorts, recoveries, meters, ptp, lease, kv, serve,
      dispatch, video, update, power, thermo, start, security, journals, checks, snaps, sent⟩ :=
  keeps_trans h ⟨hq, hm, hf, he, hb, hg, ht, hc, fun f w => by
    cases f with
    | now => exact e_now.resolve_right (by rw [w]; exact Bool.false_ne_true)
    | fresh => exact e_fresh.resolve_right (by rw [w]; exact Bool.false_ne_true)
    | regs => exact e_regs.resolve_right (by rw [w]; exact Bool.false_ne_true)
    | mem => exact e_mem.resolve_right (by rw [w]; exact Bool.false_ne_true)
    | owners => exact e_owners.resolve_right (by rw [w]; exact Bool.false_ne_true)
    | strands => exact e_strands.resolve_right (by rw [w]; exact Bool.false_ne_true)
    | dieKnots => exact e_dieKnots.resolve_right (by rw [w]; exact Bool.false_ne_true)
    | hanks => exact e_hanks.resolve_right (by rw [w]; exact Bool.false_ne_true)
    | parts => exact e_parts.resolve_right (by rw [w]; exact Bool.false_ne_true)
    | units => exact e_units.resolve_right (by rw [w]; exact Bool.false_ne_true)
    | ctls => exact e_ctls.resolve_right (by rw [w]; exact Bool.false_ne_true)
    | errLogs => exact e_errLogs.resolve_right (by rw [w]; exact Bool.false_ne_true)
    | errDropped => exact e_errDropped.resolve_right (by rw [w]; exact Bool.false_ne_true)
    | fairlead => exact e_fairlead.resolve_right (by rw [w]; exact Bool.false_ne_true)
    | ecron => exact e_ecron.resolve_right (by rw [w]; exact Bool.false_ne_true)
    | sessions => exact e_sessions.resolve_right (by rw [w]; exact Bool.false_ne_true)
    | hostPorts => exact e_hostPorts.resolve_right (by rw [w]; exact Bool.false_ne_true)
    | recoveries => exact e_recoveries.resolve_right (by rw [w]; exact Bool.false_ne_true)
    | meters => exact e_meters.resolve_right (by rw [w]; exact Bool.false_ne_true)
    | ptp => exact e_ptp.resolve_right (by rw [w]; exact Bool.false_ne_true)
    | lease => exact e_lease.resolve_right (by rw [w]; exact Bool.false_ne_true)
    | kv => exact e_kv.resolve_right (by rw [w]; exact Bool.false_ne_true)
    | serve => exact e_serve.resolve_right (by rw [w]; exact Bool.false_ne_true)
    | dispatch => exact e_dispatch.resolve_right (by rw [w]; exact Bool.false_ne_true)
    | video => exact e_video.resolve_right (by rw [w]; exact Bool.false_ne_true)
    | update => exact e_update.resolve_right (by rw [w]; exact Bool.false_ne_true)
    | power => exact e_power.resolve_right (by rw [w]; exact Bool.false_ne_true)
    | thermo => exact e_thermo.resolve_right (by rw [w]; exact Bool.false_ne_true)
    | start => exact e_start.resolve_right (by rw [w]; exact Bool.false_ne_true)
    | security => exact e_security.resolve_right (by rw [w]; exact Bool.false_ne_true)
    | journals => exact e_journals.resolve_right (by rw [w]; exact Bool.false_ne_true)
    | checks => exact e_checks.resolve_right (by rw [w]; exact Bool.false_ne_true)
    | snaps => exact e_snaps.resolve_right (by rw [w]; exact Bool.false_ne_true)
    | sent => exact e_sent.resolve_right (by rw [w]; exact Bool.false_ne_true)⟩

theorem foldS_keeps {α : Type} {f : State → α → State} {l : List α} (hf : ∀ s a, Keeps kc kn F old s → Keeps kc kn F old (f s a))
    (h : Keeps kc kn F old s) : Keeps kc kn F old (foldS f s l) := by
  induction l generalizing s with
  | nil => exact h
  | cons a l ih => exact ih (hf s a h)

theorem foldS_inv {α β : Type} {P : β → Prop} {f : β → α → β} {l : List α} {b : β} (hf : ∀ b a, P b → P (f b a))
    (h : P b) : P (foldS f b l) := by
  induction l generalizing b with
  | nil => exact h
  | cons a l ih => exact ih (hf b a h)

theorem foldl_keeps {α : Type} {f : State → α → State} {l : List α} (hf : ∀ s a, Keeps kc kn F old s → Keeps kc kn F old (f s a))
    (h : Keeps kc kn F old s) : Keeps kc kn F old (l.foldl f s) := by
  induction l generalizing s with
  | nil => exact h
  | cons a l ih => exact ih (hf s a h)

/-- A change of one partition that keeps its step counter. -/
theorem setPart_keeps {p : Nat} {x : Part} (hx : kn = true → x.step.counter = (s.part p).step.counter)
    (h : Keeps kc kn F old s) (hT : Within 256 F := by exact within_of rfl (by assumption)) :
    Keeps kc kn F old (s.setPart p x) := by
  refine keeps_mk rfl h (hc := fun w q => ?_)
  by_cases e : q = p
  · subst e; rw [mgetD_mput_self]; exact hx w
  · rw [mgetD_mput_other _ _ _ _ _ e]

theorem modPart_keeps {p : Nat} {f : Part → Part} (h : Keeps kc kn F old s)
    (hx : kn = true → (f (s.part p)).step.counter = (s.part p).step.counter := by
      first | exact fun h => absurd h Bool.false_ne_true | with_reducible exact fun _ => rfl)
    (hT : Within 256 F := by exact within_of rfl (by assumption)) :
    Keeps kc kn F old (s.modPart p f) := setPart_keeps hx h

theorem modStep_keeps {p : Nat} {f : StepRec → StepRec} (h : Keeps kc kn F old s)
    (hx : kn = true → (f (s.part p).step).counter = (s.part p).step.counter := by
      first | exact fun h => absurd h Bool.false_ne_true | with_reducible exact fun _ => rfl)
    (hT : Within 256 F := by exact within_of rfl (by assumption)) :
    Keeps kc kn F old (s.modStep p f) := setPart_keeps hx h

theorem poke_keeps {a : Nat} {bs : List Byte} (h : Keeps kc kn F old s)
    (hT : Within 8 F := by exact within_of rfl (by assumption)) : Keeps kc kn F old (s.poke a bs) :=
  keeps_mk rfl h (hm := wf_writeBytes _ _ _)

theorem wipe_keeps {a n : Nat} (h : Keeps kc kn F old s)
    (hT : Within 8 F := by exact within_of rfl (by assumption)) : Keeps kc kn F old (s.wipe a n) :=
  keeps_mk rfl h (hm := wf_eraseRange _ _ _)

theorem pokeP_keeps {p pma : Nat} {bs : List Byte} (h : Keeps kc kn F old s)
    (hT : Within 8 F := by exact within_of rfl (by assumption)) : Keeps kc kn F old (s.pokeP p pma bs) := by
  unfold State.pokeP
  split
  · exact h
  · rename_i u x _
    refine keeps_mk rfl h (hm := fun w => wf_foldS _ _ _ (fun m ib hm => ?_) w)
    split
    · exact wf_bput _ _ _ hm
    · exact hm

end Sys2Proof.Machine
end

