-- ==== Sys2Proof/Laws/KeepsOps.lean ====
section
/-! SUPPORT. What the operations of Machine/Ops.lean keep: one lemma for each. -/

namespace Sys2Proof.Machine

set_option linter.all false
set_option Elab.async false

variable {kc kn : Bool} {F : Field → Bool} {old s : State}

theorem tick_keeps {t : Nat} (hK : Keeps kc kn F old s) (hT : Within 1 F := by exact within_of rfl (by assumption)) :
    Keeps kc kn F old (State.tick s t) := by
  unfold State.tick
  repeat' first | with_reducible assumption | exact within_of rfl hT | ((with_reducible refine keeps_mk rfl ?_); first | with_reducible assumption | exact within_of rfl hT | split | dsimp only) | dsimp only

theorem takeFree_keeps (hK : Keeps kc kn F old s) (hT : Within 2 F := by exact within_of rfl (by assumption)) :
    Keeps kc kn F old (State.takeFree s).2 := by
  unfold State.takeFree
  repeat' first | with_reducible assumption | exact within_of rfl hT | ((with_reducible refine keeps_mk rfl ?_); first | with_reducible assumption | exact within_of rfl hT | split | dsimp only) | dsimp only

theorem setReg_keeps {a v : Nat} (hK : Keeps kc kn F old s) (hT : Within 4 F := by exact within_of rfl (by assumption)) :
    Keeps kc kn F old (State.setReg s a v) := by
  unfold State.setReg
  repeat' first | with_reducible assumption | exact within_of rfl hT | ((with_reducible refine keeps_mk rfl ?_); first | with_reducible assumption | exact within_of rfl hT | split | dsimp only) | split | dsimp only

theorem bump_keeps {a n : Nat} (hK : Keeps kc kn F old s) (hT : Within 4 F := by exact within_of rfl (by assumption)) :
    Keeps kc kn F old (State.bump s a n) := by
  unfold State.bump
  repeat' first | with_reducible assumption | exact within_of rfl hT | with_reducible apply setReg_keeps | dsimp only

theorem inc_keeps {a : Nat} (hK : Keeps kc kn F old s) (hT : Within 4 F := by exact within_of rfl (by assumption)) :
    Keeps kc kn F old (State.inc s a) := by
  unfold State.inc
  repeat' first | with_reducible assumption | exact within_of rfl hT | with_reducible apply bump_keeps | dsimp only

theorem raiseReg_keeps {a v : Nat} (hK : Keeps kc kn F old s) (hT : Within 4 F := by exact within_of rfl (by assumption)) :
    Keeps kc kn F old (State.raiseReg s a v) := by
  unfold State.raiseReg
  repeat' first | with_reducible assumption | exact within_of rfl hT | with_reducible apply setReg_keeps | dsimp only

theorem setFlags_keeps {a f : Nat} (hK : Keeps kc kn F old s) (hT : Within 4 F := by exact within_of rfl (by assumption)) :
    Keeps kc kn F old (State.setFlags s a f) := by
  unfold State.setFlags
  repeat' first | with_reducible assumption | exact within_of rfl hT | with_reducible apply setReg_keeps | dsimp only

theorem setStrand_keeps {i : Nat} {x : Strand} (hK : Keeps kc kn F old s) (hT : Within 32 F := by exact within_of rfl (by assumption)) :
    Keeps kc kn F old (State.setStrand s i x) := by
  unfold State.setStrand
  repeat' first | with_reducible assumption | exact within_of rfl hT | ((with_reducible refine keeps_mk rfl ?_); first | with_reducible assumption | exact within_of rfl hT | split | dsimp only) | dsimp only

theorem modStrand_keeps {i : Nat} {f : Strand → Strand} (hK : Keeps kc kn F old s) (hT : Within 32 F := by exact within_of rfl (by assumption)) :
    Keeps kc kn F old (State.modStrand s i f) := by
  unfold State.modStrand
  repeat' first | with_reducible assumption | exact within_of rfl hT | with_reducible apply setStrand_keeps | dsimp only

theorem setHank_keeps {g : Nat} {x : Hank} (hK : Keeps kc kn F old s) (hT : Within 128 F := by exact within_of rfl (by assumption)) :
    Keeps kc kn F old (State.setHank s g x) := by
  unfold State.setHank
  repeat' first | with_reducible assumption | exact within_of rfl hT | ((with_reducible refine keeps_mk rfl ?_); first | with_reducible assumption | exact within_of rfl hT | split | dsimp only) | dsimp only

theorem modHank_keeps {g : Nat} {f : Hank → Hank} (hK : Keeps kc kn F old s) (hT : Within 128 F := by exact within_of rfl (by assumption)) :
    Keeps kc kn F old (State.modHank s g f) := by
  unfold State.modHank
  repeat' first | with_reducible assumption | exact within_of rfl hT | with_reducible apply setHank_keeps | dsimp only

theorem modUnit_keeps {u : Nat} {f : MemUnit → MemUnit} (hK : Keeps kc kn F old s) (hT : Within 512 F := by exact within_of rfl (by assumption)) :
    Keeps kc kn F old (State.modUnit s u f) := by
  unfold State.modUnit
  repeat' first | with_reducible assumption | exact within_of rfl hT | ((with_reducible refine keeps_mk rfl ?_); first | with_reducible assumption | exact within_of rfl hT | split | dsimp only) | dsimp only

theorem setDom_keeps {n : Nat} {d : Domain} (hK : Keeps kc kn F old s) (hT : Within 67108864 F := by exact within_of rfl (by assumption)) :
    Keeps kc kn F old (State.setDom s n d) := by
  unfold State.setDom
  repeat' first | with_reducible assumption | exact within_of rfl hT | ((with_reducible refine keeps_mk rfl ?_); first | with_reducible assumption | exact within_of rfl hT | split | dsimp only) | dsimp only

theorem modDom_keeps {n : Nat} {f : Domain → Domain} (hK : Keeps kc kn F old s) (hT : Within 67108864 F := by exact within_of rfl (by assumption)) :
    Keeps kc kn F old (State.modDom s n f) := by
  unfold State.modDom
  repeat' first | with_reducible assumption | exact within_of rfl hT | with_reducible apply setDom_keeps | dsimp only

theorem modPort_keeps {p : Nat} {f : Port → Port} (hK : Keeps kc kn F old s) (hT : Within 16384 F := by exact within_of rfl (by assumption)) :
    Keeps kc kn F old (State.modPort s p f) := by
  unfold State.modPort
  repeat' first | with_reducible assumption | exact within_of rfl hT | ((with_reducible refine keeps_mk rfl ?_); first | with_reducible assumption | exact within_of rfl hT | split | dsimp only) | dsimp only

theorem modHostPort_keeps {p : Nat} {f : HostPort → HostPort} (hK : Keeps kc kn F old s) (hT : Within 65536 F := by exact within_of rfl (by assumption)) :
    Keeps kc kn F old (State.modHostPort s p f) := by
  unfold State.modHostPort
  repeat' first | with_reducible assumption | exact within_of rfl hT | ((with_reducible refine keeps_mk rfl ?_); first | with_reducible assumption | exact within_of rfl hT | split | dsimp only) | dsimp only

theorem modEngine_keeps {d : Nat} {f : Engine → Engine} (hK : Keeps kc kn F old s) (hT : Within 8388608 F := by exact within_of rfl (by assumption)) :
    Keeps kc kn F old (State.modEngine s d f) := by
  unfold State.modEngine
  repeat' first | with_reducible assumption | exact within_of rfl hT | ((with_reducible refine keeps_mk rfl ?_); first | with_reducible assumption | exact within_of rfl hT | split | dsimp only) | dsimp only

theorem modJournal_keeps {p : Nat} {f : Journal → Journal} (hK : Keeps kc kn F old s) (hT : Within 1073741824 F := by exact within_of rfl (by assumption)) :
    Keeps kc kn F old (State.modJournal s p f) := by
  unfold State.modJournal
  repeat' first | with_reducible assumption | exact within_of rfl hT | ((with_reducible refine keeps_mk rfl ?_); first | with_reducible assumption | exact within_of rfl hT | split | dsimp only) | dsimp only

theorem modAgeing_keeps {g : Nat} {f : Ageing → Ageing} (hK : Keeps kc kn F old s) (hT : Within 134217728 F := by exact within_of rfl (by assumption)) :
    Keeps kc kn F old (State.modAgeing s g f) := by
  unfold State.modAgeing
  repeat' first | with_reducible assumption | exact within_of rfl hT | ((with_reducible refine keeps_mk rfl ?_); first | with_reducible assumption | exact within_of rfl hT | split | dsimp only) | dsimp only

theorem modSession_keeps {i : Nat} {f : Session → Session} (hK : Keeps kc kn F old s) (hT : Within 32768 F := by exact within_of rfl (by assumption)) :
    Keeps kc kn F old (State.modSession s i f) := by
  unfold State.modSession
  repeat' first | with_reducible assumption | exact within_of rfl hT | ((with_reducible refine keeps_mk rfl ?_); first | with_reducible assumption | exact within_of rfl hT | split | dsimp only) | dsimp only

theorem send_keeps {o : Out} (hK : Keeps kc kn F old s) (hT : Within 8589934592 F := by exact within_of rfl (by assumption)) :
    Keeps kc kn F old (State.send s o) := by
  unfold State.send
  repeat' first | with_reducible assumption | exact within_of rfl hT | ((with_reducible refine keeps_mk rfl ?_); first | with_reducible assumption | exact within_of rfl hT | split | dsimp only) | dsimp only

theorem event_keeps {sid kind status subject : Nat} {detail : List Byte} (hK : Keeps kc kn F old s) (hT : Within 8589967364 F := by exact within_of rfl (by assumption)) :
    Keeps kc kn F old (State.event s sid kind status subject detail) := by
  unfold State.event
  repeat' first
    | with_reducible assumption
    | exact within_of rfl hT
    | with_reducible intro _
    | with_reducible apply inc_keeps
    | with_reducible apply modSession_keeps
    | with_reducible apply send_keeps
    | (have x : True := trivial
       extract_lets +onlyGivenNames x
       first
       | ((first
           | (have z := x; guard_hyp z : State; clear z; refine keeps_via (x := x) ?_ (fun hx => ?_))
           | (have z := x.2; guard_hyp z : State; clear z; refine keeps_via (x := x.2) ?_ (fun hx => ?_))
           | (have z := x.2.2; guard_hyp z : State; clear z; refine keeps_via (x := x.2.2) ?_ (fun hx => ?_))
           | (have z := x.1; guard_hyp z : State; clear z; refine keeps_via (x := x.1) ?_ (fun hx => ?_)))
          rotate_left
          try clear_value x
          rotate_right
          dsimp -zeta only [x])
       | (fail_if_success (have z := x; guard_hyp z : True)
          try clear_value x))
    | ((with_reducible refine keeps_mk rfl ?_); first | with_reducible assumption | exact within_of rfl hT | (with_reducible apply inc_keeps) | (with_reducible apply modSession_keeps) | (with_reducible apply send_keeps) | split | dsimp -zeta only)
    | with_reducible refine keeps_fst (by with_reducible assumption) ?_
    | with_reducible refine keeps_snd (by with_reducible assumption) ?_
    | with_reducible refine keeps_thd (by with_reducible assumption) ?_
    | split
    | dsimp -zeta only

theorem eventC_keeps {kind status subject : Nat} {detail : List Byte} (hK : Keeps kc kn F old s) (hT : Within 8589967364 F := by exact within_of rfl (by assumption)) :
    Keeps kc kn F old (State.eventC s kind status subject detail) := by
  unfold State.eventC
  repeat' first
    | with_reducible assumption
    | exact within_of rfl hT
    | with_reducible intro _
    | with_reducible apply event_keeps
    | with_reducible apply foldS_keeps
    | dsimp only

theorem eventP_keeps {p kind status subject : Nat} {detail : List Byte} (hK : Keeps kc kn F old s) (hT : Within 8589967364 F := by exact within_of rfl (by assumption)) :
    Keeps kc kn F old (State.eventP s p kind status subject detail) := by
  unfold State.eventP
  repeat' first | with_reducible assumption | exact within_of rfl hT | with_reducible apply event_keeps | dsimp only

theorem eventAll_keeps {kind status subject : Nat} {detail : List Byte} (hK : Keeps kc kn F old s) (hT : Within 8589967364 F := by exact within_of rfl (by assumption)) :
    Keeps kc kn F old (State.eventAll s kind status subject detail) := by
  unfold State.eventAll
  repeat' first
    | with_reducible assumption
    | exact within_of rfl hT
    | with_reducible intro _
    | with_reducible apply eventC_keeps
    | with_reducible apply eventP_keeps
    | with_reducible apply foldS_keeps
    | dsimp only

theorem partStateEvent_keeps {p : Nat} (hK : Keeps kc kn F old s) (hT : Within 8589967364 F := by exact within_of rfl (by assumption)) :
    Keeps kc kn F old (State.partStateEvent s p) := by
  unfold State.partStateEvent
  repeat' first
    | with_reducible assumption
    | exact within_of rfl hT
    | with_reducible apply eventC_keeps
    | with_reducible apply eventP_keeps
    | (have x : True := trivial
       extract_lets +onlyGivenNames x
       first
       | ((first
           | (have z := x; guard_hyp z : State; clear z; refine keeps_via (x := x) ?_ (fun hx => ?_))
           | (have z := x.2; guard_hyp z : State; clear z; refine keeps_via (x := x.2) ?_ (fun hx => ?_))
           | (have z := x.2.2; guard_hyp z : State; clear z; refine keeps_via (x := x.2.2) ?_ (fun hx => ?_))
           | (have z := x.1; guard_hyp z : State; clear z; refine keeps_via (x := x.1) ?_ (fun hx => ?_)))
          rotate_left
          try clear_value x
          rotate_right
          dsimp -zeta only [x])
       | (fail_if_success (have z := x; guard_hyp z : True)
          try clear_value x))
    | dsimp -zeta only

theorem commandDone_keeps {sid seq status : Nat} {words : List Nat} (hK : Keeps kc kn F old s) (hT : Within 8589967364 F := by exact within_of rfl (by assumption)) :
    Keeps kc kn F old (State.commandDone s sid seq status words) := by
  unfold State.commandDone
  repeat' first | with_reducible assumption | exact within_of rfl hT | with_reducible apply event_keeps | dsimp only

theorem fsr_keeps {r : Record} (hK : Keeps kc kn F old s) (hT : Within 10737451268 F := by exact within_of rfl (by assumption)) :
    Keeps kc kn F old (State.fsr s r) := by
  unfold State.fsr
  repeat' first
    | with_reducible assumption
    | exact within_of rfl hT
    | with_reducible intro _
    | with_reducible apply inc_keeps
    | with_reducible apply modPart_keeps
    | with_reducible apply eventC_keeps
    | with_reducible apply eventP_keeps
    | with_reducible apply take_keeps
    | (have x : True := trivial
       extract_lets +onlyGivenNames x
       first
       | ((first
           | (have z := x; guard_hyp z : State; clear z; refine keeps_via (x := x) ?_ (fun hx => ?_))
           | (have z := x.2; guard_hyp z : State; clear z; refine keeps_via (x := x.2) ?_ (fun hx => ?_))
           | (have z := x.2.2; guard_hyp z : State; clear z; refine keeps_via (x := x.2.2) ?_ (fun hx => ?_))
           | (have z := x.1; guard_hyp z : State; clear z; refine keeps_via (x := x.1) ?_ (fun hx => ?_)))
          rotate_left
          try clear_value x
          rotate_right
          dsimp -zeta only [x])
       | (fail_if_success (have z := x; guard_hyp z : True)
          try clear_value x))
    | ((with_reducible refine keeps_mk rfl ?_); first | with_reducible assumption | exact within_of rfl hT | (with_reducible apply inc_keeps) | (with_reducible apply modPart_keeps) | (with_reducible apply eventC_keeps) | (with_reducible apply eventP_keeps) | (with_reducible apply take_keeps) | split | dsimp -zeta only)
    | with_reducible refine keeps_fst (by with_reducible assumption) ?_
    | with_reducible refine keeps_snd (by with_reducible assumption) ?_
    | with_reducible refine keeps_thd (by with_reducible assumption) ?_
    | split
    | dsimp -zeta only

theorem setOwn_keeps {u k v : Nat} (hK : Keeps kc kn F old s) (hT : Within 16 F := by exact within_of rfl (by assumption)) :
    Keeps kc kn F old (State.setOwn s u k v) := by
  unfold State.setOwn
  repeat' first | with_reducible assumption | exact within_of rfl hT | ((with_reducible refine keeps_mk rfl ?_); first | with_reducible assumption | exact within_of rfl hT | split | dsimp only) | split | dsimp only

end Sys2Proof.Machine
end

