-- ==== Sys2Proof/Laws/KeepsRamp.lean ====
section
/-! SUPPORT. What the operations of Machine/Ramp.lean keep: one lemma for each. -/

namespace Sys2Proof.Machine

set_option linter.all false
set_option Elab.async false

variable {kc kn : Bool} {F : Field → Bool} {old s : State}

theorem countGate_keeps {p g : Nat} (hK : Keeps kc kn F old s) (hT : Within 134217860 F := by exact within_of rfl (by assumption)) :
    Keeps kc kn F old (State.countGate s p g) := by
  unfold State.countGate
  repeat' first
    | with_reducible assumption
    | exact within_of rfl hT
    | with_reducible intro _
    | with_reducible apply bump_keeps
    | with_reducible apply modHank_keeps
    | (have x : True := trivial
       extract_lets +onlyGivenNames x
       first
       | ((first
           | (have z := x; guard_hyp z : State; clear z; refine keeps_via (x := x) ?_ (fun hx => ?_))
           | (have z := x.2; guard_hyp z : State; clear z; refine keeps_via (x := x.2) ?_ (fun hx => ?_))
           | (have z := x.2.2; guard_hyp z : State; clear z; refine keeps_via (x := x.2.2) ?_ (fun hx => ?_))
           | (have z := x.1; guard_hyp z : State; clear z; refine keeps_via (x := x.1) ?_ (fun hx => ?_)))
          rotate_left
          try clear_value x
          rotate_right
          dsimp -zeta only [x])
       | (fail_if_success (have z := x; guard_hyp z : True)
          try clear_value x))
    | ((with_reducible refine keeps_mk rfl ?_); first | with_reducible assumption | exact within_of rfl hT | (with_reducible apply bump_keeps) | (with_reducible apply modHank_keeps) | split | dsimp -zeta only)
    | with_reducible refine keeps_fst (by with_reducible assumption) ?_
    | with_reducible refine keeps_snd (by with_reducible assumption) ?_
    | with_reducible refine keeps_thd (by with_reducible assumption) ?_
    | split
    | dsimp -zeta only

theorem aimHank_keeps {p g : Nat} (hK : Keeps kc kn F old s) (hT : Within 134217860 F := by exact within_of rfl (by assumption)) :
    Keeps kc kn F old (State.aimHank s p g) := by
  unfold State.aimHank
  repeat' first
    | with_reducible assumption
    | exact within_of rfl hT
    | with_reducible intro _
    | with_reducible apply modHank_keeps
    | with_reducible apply countGate_keeps
    | ((with_reducible refine keeps_mk rfl ?_); first | with_reducible assumption | exact within_of rfl hT | (with_reducible apply modHank_keeps) | (with_reducible apply countGate_keeps) | split | dsimp only)
    | dsimp only

theorem gate__keeps {p g : Nat} {w : HitchWord} (hK : Keeps kc kn F old s) (hT : Within 134217860 F := by exact within_of rfl (by assumption)) :
    Keeps kc kn F old (State.gate_ s p g w) := by
  unfold State.gate_
  repeat' first
    | with_reducible assumption
    | exact within_of rfl hT
    | with_reducible intro _
    | with_reducible apply modHank_keeps
    | with_reducible apply countGate_keeps
    | ((with_reducible refine keeps_mk rfl ?_); first | with_reducible assumption | exact within_of rfl hT | (with_reducible apply modHank_keeps) | (with_reducible apply countGate_keeps) | split | dsimp only)
    | dsimp only

theorem followStep_keeps {g : Nat} (hK : Keeps kc kn F old s) (hT : Within 128 F := by exact within_of rfl (by assumption)) :
    Keeps kc kn F old (State.followStep s g) := by
  unfold State.followStep
  repeat' first
    | with_reducible assumption
    | exact within_of rfl hT
    | with_reducible intro _
    | with_reducible apply modHank_keeps
    | ((with_reducible refine keeps_mk rfl ?_); first | with_reducible assumption | exact within_of rfl hT | (with_reducible apply modHank_keeps) | split | dsimp only)
    | split
    | dsimp only

theorem warmTo_keeps {floor : Nat} (hK : Keeps kc kn F old s) (hT : Within 134217728 F := by exact within_of rfl (by assumption)) :
    Keeps kc kn F old (State.warmTo s floor) := by
  unfold State.warmTo
  repeat' first | with_reducible assumption | exact within_of rfl hT | ((with_reducible refine keeps_mk rfl ?_); first | with_reducible assumption | exact within_of rfl hT | split | dsimp only) | dsimp only

end Sys2Proof.Machine
end

