-- ==== Sys2Proof/Laws/KeepsDomains.lean ====
section
/-! SUPPORT. What the operations of Machine/Domains.lean keep: one lemma for each. -/

namespace Sys2Proof.Machine

set_option linter.all false
set_option Elab.async false

variable {kc kn : Bool} {F : Field → Bool} {old s : State}

theorem leaveUp_keeps {p : Nat} (hK : Keeps kc kn F old s) (hT : Within 16388 F := by exact within_of rfl (by assumption)) :
    Keeps kc kn F old (State.leaveUp s p) := by
  unfold State.leaveUp
  repeat' first
    | with_reducible assumption
    | exact within_of rfl hT
    | with_reducible intro _
    | with_reducible apply bump_keeps
    | with_reducible apply modPort_keeps
    | (have x : True := trivial
       extract_lets +onlyGivenNames x
       first
       | ((first
           | (have z := x; guard_hyp z : State; clear z; refine keeps_via (x := x) ?_ (fun hx => ?_))
           | (have z := x.2; guard_hyp z : State; clear z; refine keeps_via (x := x.2) ?_ (fun hx => ?_))
           | (have z := x.2.2; guard_hyp z : State; clear z; refine keeps_via (x := x.2.2) ?_ (fun hx => ?_))
           | (have z := x.1; guard_hyp z : State; clear z; refine keeps_via (x := x.1) ?_ (fun hx => ?_)))
          rotate_left
          try clear_value x
          rotate_right
          dsimp -zeta only [x])
       | (fail_if_success (have z := x; guard_hyp z : True)
          try clear_value x))
    | ((with_reducible refine keeps_mk rfl ?_); first | with_reducible assumption | exact within_of rfl hT | (with_reducible apply bump_keeps) | (with_reducible apply modPort_keeps) | split | dsimp -zeta only)
    | split
    | dsimp -zeta only

theorem portDown_keeps {p : Nat} {retry : Option Nat} (hK : Keeps kc kn F old s) (hT : Within 16388 F := by exact within_of rfl (by assumption)) :
    Keeps kc kn F old (State.portDown s p retry) := by
  unfold State.portDown
  repeat' first
    | with_reducible assumption
    | exact within_of rfl hT
    | with_reducible intro _
    | with_reducible apply modPort_keeps
    | with_reducible apply leaveUp_keeps
    | ((with_reducible refine keeps_mk rfl ?_); first | with_reducible assumption | exact within_of rfl hT | (with_reducible apply modPort_keeps) | (with_reducible apply leaveUp_keeps) | split | dsimp only)
    | dsimp only

theorem setCtl_keeps {c st : Nat} (hK : Keeps kc kn F old s) (hT : Within 1024 F := by exact within_of rfl (by assumption)) :
    Keeps kc kn F old (State.setCtl s c st) := by
  unfold State.setCtl
  repeat' first | with_reducible assumption | exact within_of rfl hT | ((with_reducible refine keeps_mk rfl ?_); first | with_reducible assumption | exact within_of rfl hT | split | dsimp only) | dsimp only

theorem domCtl_keeps {n st : Nat} (hK : Keeps kc kn F old s) (hT : Within 1024 F := by exact within_of rfl (by assumption)) :
    Keeps kc kn F old (State.domCtl s n st) := by
  unfold State.domCtl
  repeat' first
    | with_reducible assumption
    | exact within_of rfl hT
    | with_reducible apply setCtl_keeps
    | ((with_reducible refine keeps_mk rfl ?_); first | with_reducible assumption | exact within_of rfl hT | (with_reducible apply setCtl_keeps) | split | dsimp only)
    | with_reducible refine keeps_fst (by with_reducible assumption) ?_
    | with_reducible refine keeps_snd (by with_reducible assumption) ?_
    | with_reducible refine keeps_thd (by with_reducible assumption) ?_
    | split
    | dsimp only

theorem flushTags_keeps {n : Nat} (hK : Keeps kc kn F old s) (hT : Within 1024 F := by exact within_of rfl (by assumption)) :
    Keeps kc kn F old (State.flushTags s n) := by
  unfold State.flushTags
  repeat' first
    | with_reducible assumption
    | exact within_of rfl hT
    | ((with_reducible refine keeps_mk rfl ?_); first | with_reducible assumption | exact within_of rfl hT | split | dsimp only)
    | with_reducible refine keeps_fst (by with_reducible assumption) ?_
    | with_reducible refine keeps_snd (by with_reducible assumption) ?_
    | with_reducible refine keeps_thd (by with_reducible assumption) ?_
    | split
    | dsimp only

theorem loseUnsaved_keeps {n : Nat} (hK : Keeps kc kn F old s) (hT : Within 8455206 F := by exact within_of rfl (by assumption)) :
    Keeps kc kn F old (State.loseUnsaved s n) := by
  unfold State.loseUnsaved
  repeat' first
    | with_reducible assumption
    | exact within_of rfl hT
    | with_reducible intro _
    | with_reducible apply modStrand_keeps
    | with_reducible apply modHostPort_keeps
    | with_reducible apply modEngine_keeps
    | with_reducible apply flushTags_keeps
    | with_reducible apply foldS_keeps
    | (have x : True := trivial
       extract_lets +onlyGivenNames x
       first
       | ((first
           | (have z := x; guard_hyp z : State; clear z; refine keeps_via (x := x) ?_ (fun hx => ?_))
           | (have z := x.2; guard_hyp z : State; clear z; refine keeps_via (x := x.2) ?_ (fun hx => ?_))
           | (have z := x.2.2; guard_hyp z : State; clear z; refine keeps_via (x := x.2.2) ?_ (fun hx => ?_))
           | (have z := x.1; guard_hyp z : State; clear z; refine keeps_via (x := x.1) ?_ (fun hx => ?_)))
          rotate_left
          try clear_value x
          rotate_right
          dsimp -zeta only [x])
       | (fail_if_success (have z := x; guard_hyp z : True)
          try clear_value x))
    | ((with_reducible refine keeps_mk rfl ?_); first | with_reducible assumption | exact within_of rfl hT | (with_reducible apply modStrand_keeps) | (with_reducible apply modHostPort_keeps) | (with_reducible apply modEngine_keeps) | (with_reducible apply flushTags_keeps) | with_reducible apply foldS_keeps | split | dsimp -zeta only)
    | split
    | dsimp -zeta only

theorem loseContents_keeps {n : Nat} (hK : Keeps kc kn F old s) (hT : Within 8389160 F := by exact within_of rfl (by assumption)) :
    Keeps kc kn F old (State.loseContents s n) := by
  unfold State.loseContents
  repeat' first
    | with_reducible assumption
    | exact within_of rfl hT
    | with_reducible intro _
    | with_reducible apply modStrand_keeps
    | with_reducible apply modUnit_keeps
    | with_reducible apply modEngine_keeps
    | with_reducible apply wipe_keeps
    | with_reducible apply foldS_keeps
    | (have x : True := trivial
       extract_lets +onlyGivenNames x
       first
       | ((first
           | (have z := x; guard_hyp z : State; clear z; refine keeps_via (x := x) ?_ (fun hx => ?_))
           | (have z := x.2; guard_hyp z : State; clear z; refine keeps_via (x := x.2) ?_ (fun hx => ?_))
           | (have z := x.2.2; guard_hyp z : State; clear z; refine keeps_via (x := x.2.2) ?_ (fun hx => ?_))
           | (have z := x.1; guard_hyp z : State; clear z; refine keeps_via (x := x.1) ?_ (fun hx => ?_)))
          rotate_left
          try clear_value x
          rotate_right
          dsimp -zeta only [x])
       | (fail_if_success (have z := x; guard_hyp z : True)
          try clear_value x))
    | ((with_reducible refine keeps_mk rfl ?_); first | with_reducible assumption | exact within_of rfl hT | (with_reducible apply modStrand_keeps) | (with_reducible apply modUnit_keeps) | (with_reducible apply modEngine_keeps) | (with_reducible apply wipe_keeps) | with_reducible apply foldS_keeps | split | dsimp -zeta only)
    | split
    | dsimp -zeta only

theorem restore_keeps {n corrected : Nat} {bad : Bool} (hK : Keeps kc kn F old s) (hT : Within 10804560132 F := by exact within_of rfl (by assumption)) :
    Keeps kc kn F old (State.restore s n corrected bad) := by
  unfold State.restore
  repeat' first
    | with_reducible assumption
    | exact within_of rfl hT
    | with_reducible intro _
    | with_reducible apply bump_keeps
    | with_reducible apply modDom_keeps
    | with_reducible apply fsr_keeps
    | with_reducible apply corrected_keeps
    | with_reducible apply foldS_keeps
    | (have x : True := trivial
       extract_lets +onlyGivenNames x
       first
       | ((first
           | (have z := x; guard_hyp z : State; clear z; refine keeps_via (x := x) ?_ (fun hx => ?_))
           | (have z := x.2; guard_hyp z : State; clear z; refine keeps_via (x := x.2) ?_ (fun hx => ?_))
           | (have z := x.2.2; guard_hyp z : State; clear z; refine keeps_via (x := x.2.2) ?_ (fun hx => ?_))
           | (have z := x.1; guard_hyp z : State; clear z; refine keeps_via (x := x.1) ?_ (fun hx => ?_)))
          rotate_left
          try clear_value x
          rotate_right
          dsimp -zeta only [x])
       | (fail_if_success (have z := x; guard_hyp z : True)
          try clear_value x))
    | ((with_reducible refine keeps_mk rfl ?_); first | with_reducible assumption | exact within_of rfl hT | (with_reducible apply bump_keeps) | (with_reducible apply modDom_keeps) | (with_reducible apply fsr_keeps) | (with_reducible apply corrected_keeps) | with_reducible apply foldS_keeps | split | dsimp -zeta only)
    | split
    | dsimp -zeta only

theorem loadImage_keeps {n : Nat} (hK : Keeps kc kn F old s) (hT : Within 128 F := by exact within_of rfl (by assumption)) :
    Keeps kc kn F old (State.loadImage s n) := by
  unfold State.loadImage
  repeat' first
    | with_reducible assumption
    | exact within_of rfl hT
    | with_reducible intro _
    | with_reducible apply modHank_keeps
    | ((with_reducible refine keeps_mk rfl ?_); first | with_reducible assumption | exact within_of rfl hT | (with_reducible apply modHank_keeps) | split | dsimp only)
    | split
    | dsimp only

theorem ready_keeps {n us corrected : Nat} {bad : Bool} (hK : Keeps kc kn F old s) (hT : Within 10804561284 F := by exact within_of rfl (by assumption)) :
    Keeps kc kn F old (State.ready s n us corrected bad) := by
  unfold State.ready
  repeat' first
    | with_reducible assumption
    | exact within_of rfl hT
    | with_reducible intro _
    | with_reducible apply raiseReg_keeps
    | with_reducible apply modDom_keeps
    | with_reducible apply domCtl_keeps
    | with_reducible apply restore_keeps
    | with_reducible apply loadImage_keeps
    | with_reducible apply on_keeps
    | with_reducible apply corrected_keeps
    | (have x : True := trivial
       extract_lets +onlyGivenNames x
       first
       | ((first
           | (have z := x; guard_hyp z : State; clear z; refine keeps_via (x := x) ?_ (fun hx => ?_))
           | (have z := x.2; guard_hyp z : State; clear z; refine keeps_via (x := x.2) ?_ (fun hx => ?_))
           | (have z := x.2.2; guard_hyp z : State; clear z; refine keeps_via (x := x.2.2) ?_ (fun hx => ?_))
           | (have z := x.1; guard_hyp z : State; clear z; refine keeps_via (x := x.1) ?_ (fun hx => ?_)))
          rotate_left
          try clear_value x
          rotate_right
          dsimp -zeta only [x])
       | (fail_if_success (have z := x; guard_hyp z : True)
          try clear_value x))
    | ((with_reducible refine keeps_mk rfl ?_); first | with_reducible assumption | exact within_of rfl hT | (with_reducible apply raiseReg_keeps) | (with_reducible apply modDom_keeps) | (with_reducible apply domCtl_keeps) | (with_reducible apply restore_keeps) | (with_reducible apply loadImage_keeps) | (with_reducible apply on_keeps) | (with_reducible apply corrected_keeps) | split | dsimp -zeta only)
    | dsimp -zeta only

theorem enterDone_keeps {n : Nat} (hK : Keeps kc kn F old s) (hT : Within 75580974 F := by exact within_of rfl (by assumption)) :
    Keeps kc kn F old (State.enterDone s n) := by
  unfold State.enterDone
  repeat' first
    | with_reducible assumption
    | exact within_of rfl hT
    | with_reducible intro _
    | with_reducible apply modDom_keeps
    | with_reducible apply portDown_keeps
    | with_reducible apply domCtl_keeps
    | with_reducible apply loseUnsaved_keeps
    | with_reducible apply loseContents_keeps
    | with_reducible apply foldS_keeps
    | (have x : True := trivial
       extract_lets +onlyGivenNames x
       first
       | ((first
           | (have z := x; guard_hyp z : State; clear z; refine keeps_via (x := x) ?_ (fun hx => ?_))
           | (have z := x.2; guard_hyp z : State; clear z; refine keeps_via (x := x.2) ?_ (fun hx => ?_))
           | (have z := x.2.2; guard_hyp z : State; clear z; refine keeps_via (x := x.2.2) ?_ (fun hx => ?_))
           | (have z := x.1; guard_hyp z : State; clear z; refine keeps_via (x := x.1) ?_ (fun hx => ?_)))
          rotate_left
          try clear_value x
          rotate_right
          dsimp -zeta only [x])
       | (fail_if_success (have z := x; guard_hyp z : True)
          try clear_value x))
    | ((with_reducible refine keeps_mk rfl ?_); first | with_reducible assumption | exact within_of rfl hT | (with_reducible apply modDom_keeps) | (with_reducible apply portDown_keeps) | (with_reducible apply domCtl_keeps) | (with_reducible apply loseUnsaved_keeps) | (with_reducible apply loseContents_keeps) | with_reducible apply foldS_keeps | split | dsimp -zeta only)
    | split
    | dsimp -zeta only

theorem abortEntry_keeps {n source : Nat} (hK : Keeps kc kn F old s) (hT : Within 8657076228 F := by exact within_of rfl (by assumption)) :
    Keeps kc kn F old (State.abortEntry s n source) := by
  unfold State.abortEntry
  repeat' first
    | with_reducible assumption
    | exact within_of rfl hT
    | with_reducible intro _
    | with_reducible apply setReg_keeps
    | with_reducible apply inc_keeps
    | with_reducible apply modDom_keeps
    | with_reducible apply eventC_keeps
    | with_reducible apply on_keeps
    | (have x : True := trivial
       extract_lets +onlyGivenNames x
       first
       | ((first
           | (have z := x; guard_hyp z : State; clear z; refine keeps_via (x := x) ?_ (fun hx => ?_))
           | (have z := x.2; guard_hyp z : State; clear z; refine keeps_via (x := x.2) ?_ (fun hx => ?_))
           | (have z := x.2.2; guard_hyp z : State; clear z; refine keeps_via (x := x.2.2) ?_ (fun hx => ?_))
           | (have z := x.1; guard_hyp z : State; clear z; refine keeps_via (x := x.1) ?_ (fun hx => ?_)))
          rotate_left
          try clear_value x
          rotate_right
          dsimp -zeta only [x])
       | (fail_if_success (have z := x; guard_hyp z : True)
          try clear_value x))
    | ((with_reducible refine keeps_mk rfl ?_); first | with_reducible assumption | exact within_of rfl hT | (with_reducible apply setReg_keeps) | (with_reducible apply inc_keeps) | (with_reducible apply modDom_keeps) | (with_reducible apply eventC_keeps) | (with_reducible apply on_keeps) | split | dsimp -zeta only)
    | dsimp -zeta only

theorem boundMiss_keeps {p : Nat} (hK : Keeps kc kn F old s) (hT : Within 260 F := by exact within_of rfl (by assumption)) :
    Keeps kc kn F old (State.boundMiss s p) := by
  unfold State.boundMiss
  repeat' first
    | with_reducible assumption
    | exact within_of rfl hT
    | with_reducible intro _
    | with_reducible apply setReg_keeps
    | with_reducible apply modStep_keeps
    | (have x : True := trivial
       extract_lets +onlyGivenNames x
       first
       | ((first
           | (have z := x; guard_hyp z : State; clear z; refine keeps_via (x := x) ?_ (fun hx => ?_))
           | (have z := x.2; guard_hyp z : State; clear z; refine keeps_via (x := x.2) ?_ (fun hx => ?_))
           | (have z := x.2.2; guard_hyp z : State; clear z; refine keeps_via (x := x.2.2) ?_ (fun hx => ?_))
           | (have z := x.1; guard_hyp z : State; clear z; refine keeps_via (x := x.1) ?_ (fun hx => ?_)))
          rotate_left
          try clear_value x
          rotate_right
          dsimp -zeta only [x])
       | (fail_if_success (have z := x; guard_hyp z : True)
          try clear_value x))
    | ((with_reducible refine keeps_mk rfl ?_); first | with_reducible assumption | exact within_of rfl hT | (with_reducible apply setReg_keeps) | (with_reducible apply modStep_keeps) | split | dsimp -zeta only)
    | split
    | dsimp -zeta only

theorem lowPower_keeps (hK : Keeps kc kn F old s) (hT : Within 67108864 F := by exact within_of rfl (by assumption)) :
    Keeps kc kn F old (State.lowPower s) := by
  unfold State.lowPower
  repeat' first
    | with_reducible assumption
    | exact within_of rfl hT
    | with_reducible intro _
    | (have x : True := trivial
       extract_lets +onlyGivenNames x
       first
       | ((first
           | (have z := x; guard_hyp z : State; clear z; refine keeps_via (x := x) ?_ (fun hx => ?_))
           | (have z := x.2; guard_hyp z : State; clear z; refine keeps_via (x := x.2) ?_ (fun hx => ?_))
           | (have z := x.2.2; guard_hyp z : State; clear z; refine keeps_via (x := x.2.2) ?_ (fun hx => ?_))
           | (have z := x.1; guard_hyp z : State; clear z; refine keeps_via (x := x.1) ?_ (fun hx => ?_)))
          rotate_left
          try clear_value x
          rotate_right
          dsimp -zeta only [x])
       | (fail_if_success (have z := x; guard_hyp z : True)
          try clear_value x))
    | ((with_reducible refine keeps_mk rfl ?_); first | with_reducible assumption | exact within_of rfl hT | split | dsimp -zeta only)
    | dsimp -zeta only

theorem beginEntry_keeps {n : Nat} {off : Bool} (hK : Keeps kc kn F old s) (hT : Within 75499052 F := by exact within_of rfl (by assumption)) :
    Keeps kc kn F old (State.beginEntry s n off).2 := by
  unfold State.beginEntry
  repeat' first
    | with_reducible assumption
    | exact within_of rfl hT
    | with_reducible intro _
    | with_reducible apply setReg_keeps
    | with_reducible apply inc_keeps
    | with_reducible apply modDom_keeps
    | with_reducible apply domCtl_keeps
    | with_reducible apply loseContents_keeps
    | with_reducible apply lowPower_keeps
    | (have x : True := trivial
       extract_lets +onlyGivenNames x
       first
       | ((first
           | (have z := x; guard_hyp z : State; clear z; refine keeps_via (x := x) ?_ (fun hx => ?_))
           | (have z := x.2; guard_hyp z : State; clear z; refine keeps_via (x := x.2) ?_ (fun hx => ?_))
           | (have z := x.2.2; guard_hyp z : State; clear z; refine keeps_via (x := x.2.2) ?_ (fun hx => ?_))
           | (have z := x.1; guard_hyp z : State; clear z; refine keeps_via (x := x.1) ?_ (fun hx => ?_)))
          rotate_left
          try clear_value x
          rotate_right
          dsimp -zeta only [x])
       | (fail_if_success (have z := x; guard_hyp z : True)
          try clear_value x))
    | ((with_reducible refine keeps_mk rfl ?_); first | with_reducible assumption | exact within_of rfl hT | (with_reducible apply setReg_keeps) | (with_reducible apply inc_keeps) | (with_reducible apply modDom_keeps) | (with_reducible apply domCtl_keeps) | (with_reducible apply loseContents_keeps) | (with_reducible apply lowPower_keeps) | split | dsimp -zeta only)
    | with_reducible refine keeps_fst (by with_reducible assumption) ?_
    | with_reducible refine keeps_snd (by with_reducible assumption) ?_
    | with_reducible refine keeps_thd (by with_reducible assumption) ?_
    | split
    | dsimp -zeta only

theorem beginWake_keeps {n : Nat} (hK : Keeps kc kn F old s) (hT : Within 67109888 F := by exact within_of rfl (by assumption)) :
    Keeps kc kn F old (State.beginWake s n) := by
  unfold State.beginWake
  repeat' first
    | with_reducible assumption
    | exact within_of rfl hT
    | with_reducible intro _
    | with_reducible apply modDom_keeps
    | with_reducible apply domCtl_keeps
    | (have x : True := trivial
       extract_lets +onlyGivenNames x
       first
       | ((first
           | (have z := x; guard_hyp z : State; clear z; refine keeps_via (x := x) ?_ (fun hx => ?_))
           | (have z := x.2; guard_hyp z : State; clear z; refine keeps_via (x := x.2) ?_ (fun hx => ?_))
           | (have z := x.2.2; guard_hyp z : State; clear z; refine keeps_via (x := x.2.2) ?_ (fun hx => ?_))
           | (have z := x.1; guard_hyp z : State; clear z; refine keeps_via (x := x.1) ?_ (fun hx => ?_)))
          rotate_left
          try clear_value x
          rotate_right
          dsimp -zeta only [x])
       | (fail_if_success (have z := x; guard_hyp z : True)
          try clear_value x))
    | ((with_reducible refine keeps_mk rfl ?_); first | with_reducible assumption | exact within_of rfl hT | (with_reducible apply modDom_keeps) | (with_reducible apply domCtl_keeps) | split | dsimp -zeta only)
    | split
    | dsimp -zeta only

theorem settleQueued_keeps {n source : Nat} (hK : Keeps kc kn F old s) (hT : Within 8657076228 F := by exact within_of rfl (by assumption)) :
    Keeps kc kn F old (State.settleQueued s n source) := by
  unfold State.settleQueued
  repeat' first
    | with_reducible assumption
    | exact within_of rfl hT
    | with_reducible intro _
    | with_reducible apply setReg_keeps
    | with_reducible apply inc_keeps
    | with_reducible apply modDom_keeps
    | with_reducible apply abortEntry_keeps
    | (have x : True := trivial
       extract_lets +onlyGivenNames x
       first
       | ((first
           | (have z := x; guard_hyp z : State; clear z; refine keeps_via (x := x) ?_ (fun hx => ?_))
           | (have z := x.2; guard_hyp z : State; clear z; refine keeps_via (x := x.2) ?_ (fun hx => ?_))
           | (have z := x.2.2; guard_hyp z : State; clear z; refine keeps_via (x := x.2.2) ?_ (fun hx => ?_))
           | (have z := x.1; guard_hyp z : State; clear z; refine keeps_via (x := x.1) ?_ (fun hx => ?_)))
          rotate_left
          try clear_value x
          rotate_right
          dsimp -zeta only [x])
       | (fail_if_success (have z := x; guard_hyp z : True)
          try clear_value x))
    | ((with_reducible refine keeps_mk rfl ?_); first | with_reducible assumption | exact within_of rfl hT | (with_reducible apply setReg_keeps) | (with_reducible apply inc_keeps) | (with_reducible apply modDom_keeps) | (with_reducible apply abortEntry_keeps) | split | dsimp -zeta only)
    | with_reducible refine keeps_fst (by with_reducible assumption) ?_
    | with_reducible refine keeps_snd (by with_reducible assumption) ?_
    | with_reducible refine keeps_thd (by with_reducible assumption) ?_
    | split
    | dsimp -zeta only

theorem wakeOne_keeps {n us source : Nat} (hK : Keeps kc kn F old s) (hT : Within 10813032366 F := by exact within_of rfl (by assumption)) :
    Keeps kc kn F old (State.wakeOne s n us source).2 := by
  unfold State.wakeOne
  repeat' first
    | with_reducible assumption
    | exact within_of rfl hT
    | with_reducible intro _
    | with_reducible apply hF
    | with_reducible apply hF4
    | with_reducible apply ready_keeps
    | with_reducible apply enterDone_keeps
    | with_reducible apply abortEntry_keeps
    | with_reducible apply settleQueued_keeps
    | with_reducible apply on_keeps
    | (have x : True := trivial
       extract_lets +onlyGivenNames x
       first
       | ((first
           | (have z := x; guard_hyp z : State; clear z; refine keeps_via (x := x) ?_ (fun hx => ?_))
           | (have z := x.2; guard_hyp z : State; clear z; refine keeps_via (x := x.2) ?_ (fun hx => ?_))
           | (have z := x.2.2; guard_hyp z : State; clear z; refine keeps_via (x := x.2.2) ?_ (fun hx => ?_))
           | (have z := x.1; guard_hyp z : State; clear z; refine keeps_via (x := x.1) ?_ (fun hx => ?_))
           | (have z := x; guard_hyp z : State → State; clear z; refine keeps_viaF0 (f := x) ?_ (fun hF => ?_))
           | refine keeps_viaF (f := x) ?_ (fun hF => ?_)
           | refine keeps_viaF2 (f := x) ?_ (fun hF => ?_)
           | refine keeps_viaG (f := x) ?_ (fun hF => ?_)
           | refine keeps_viaH (f := x) ?_ (fun hF => ?_)
           | refine keeps_viaP (f := x) ?_ (fun hF => ?_)
           | refine keeps_viaF4 (f := x) ?_ (fun hF4 => ?_))
          rotate_left
          try clear_value x
          rotate_right
          dsimp -zeta only [x])
       | (fail_if_success (have z := x; guard_hyp z : True)
          try clear_value x))
    | ((with_reducible refine keeps_mk rfl ?_); first | with_reducible assumption | exact within_of rfl hT | (with_reducible apply ready_keeps) | (with_reducible apply enterDone_keeps) | (with_reducible apply abortEntry_keeps) | (with_reducible apply settleQueued_keeps) | (with_reducible apply on_keeps) | split | dsimp -zeta only)
    | with_reducible refine keeps_fst (by with_reducible assumption) ?_
    | with_reducible refine keeps_snd (by with_reducible assumption) ?_
    | with_reducible refine keeps_thd (by with_reducible assumption) ?_
    | split
    | dsimp -zeta only

theorem reach_keeps {n source : Nat} (hK : Keeps kc kn F old s) (hT : Within 10813032366 F := by exact within_of rfl (by assumption)) :
    Keeps kc kn F old (State.reach s n source) := by
  unfold State.reach
  split
  · exact hK
  · refine foldS_inv (P := fun a : Nat × State => Keeps kc kn F old a.2) (fun b a hb => wakeOne_keeps hb) ?_
    show Keeps kc kn F old (if _ then _ else _)
    split
    · exact keeps_mk rfl hK
    · exact hK

theorem startWake_keeps {n : Nat} (hK : Keeps kc kn F old s) (hT : Within 10813032366 F := by exact within_of rfl (by assumption)) :
    Keeps kc kn F old (State.startWake s n) := by
  unfold State.startWake
  repeat' first
    | with_reducible assumption
    | exact within_of rfl hT
    | with_reducible apply beginWake_keeps
    | with_reducible apply reach_keeps
    | (have x : True := trivial
       extract_lets +onlyGivenNames x
       first
       | ((first
           | (have z := x; guard_hyp z : State; clear z; refine keeps_via (x := x) ?_ (fun hx => ?_))
           | (have z := x.2; guard_hyp z : State; clear z; refine keeps_via (x := x.2) ?_ (fun hx => ?_))
           | (have z := x.2.2; guard_hyp z : State; clear z; refine keeps_via (x := x.2.2) ?_ (fun hx => ?_))
           | (have z := x.1; guard_hyp z : State; clear z; refine keeps_via (x := x.1) ?_ (fun hx => ?_)))
          rotate_left
          try clear_value x
          rotate_right
          dsimp -zeta only [x])
       | (fail_if_success (have z := x; guard_hyp z : True)
          try clear_value x))
    | ((with_reducible refine keeps_mk rfl ?_); first | with_reducible assumption | exact within_of rfl hT | (with_reducible apply beginWake_keeps) | (with_reducible apply reach_keeps) | split | dsimp -zeta only)
    | with_reducible refine keeps_fst (by with_reducible assumption) ?_
    | with_reducible refine keeps_snd (by with_reducible assumption) ?_
    | with_reducible refine keeps_thd (by with_reducible assumption) ?_
    | split
    | dsimp -zeta only

theorem domTarget_keeps {n target : Nat} {hold : Bool} (hK : Keeps kc kn F old s) (hT : Within 10813032366 F := by exact within_of rfl (by assumption)) :
    Keeps kc kn F old (State.domTarget s n target hold).2 := by
  unfold State.domTarget
  repeat' first
    | with_reducible assumption
    | exact within_of rfl hT
    | with_reducible intro _
    | with_reducible apply modDom_keeps
    | with_reducible apply beginEntry_keeps
    | with_reducible apply startWake_keeps
    | with_reducible apply on_keeps
    | (have x : True := trivial
       extract_lets +onlyGivenNames x
       first
       | ((first
           | (have z := x; guard_hyp z : State; clear z; refine keeps_via (x := x) ?_ (fun hx => ?_))
           | (have z := x.2; guard_hyp z : State; clear z; refine keeps_via (x := x.2) ?_ (fun hx => ?_))
           | (have z := x.2.2; guard_hyp z : State; clear z; refine keeps_via (x := x.2.2) ?_ (fun hx => ?_))
           | (have z := x.1; guard_hyp z : State; clear z; refine keeps_via (x := x.1) ?_ (fun hx => ?_)))
          rotate_left
          try clear_value x
          rotate_right
          dsimp -zeta only [x])
       | (fail_if_success (have z := x; guard_hyp z : True)
          try clear_value x))
    | ((with_reducible refine keeps_mk rfl ?_); first | with_reducible assumption | exact within_of rfl hT | (with_reducible apply modDom_keeps) | (with_reducible apply beginEntry_keeps) | (with_reducible apply startWake_keeps) | (with_reducible apply on_keeps) | split | dsimp -zeta only)
    | with_reducible refine keeps_fst (by with_reducible assumption) ?_
    | with_reducible refine keeps_snd (by with_reducible assumption) ?_
    | with_reducible refine keeps_thd (by with_reducible assumption) ?_
    | split
    | dsimp -zeta only

theorem queuedWrite_keeps {n : Nat} (hK : Keeps kc kn F old s) (hT : Within 10813032366 F := by exact within_of rfl (by assumption)) :
    Keeps kc kn F old (State.queuedWrite s n) := by
  unfold State.queuedWrite
  repeat' first
    | with_reducible assumption
    | exact within_of rfl hT
    | with_reducible intro _
    | with_reducible apply modDom_keeps
    | with_reducible apply domTarget_keeps
    | ((with_reducible refine keeps_mk rfl ?_); first | with_reducible assumption | exact within_of rfl hT | (with_reducible apply modDom_keeps) | (with_reducible apply domTarget_keeps) | split | dsimp only)
    | with_reducible refine keeps_fst (by with_reducible assumption) ?_
    | with_reducible refine keeps_snd (by with_reducible assumption) ?_
    | with_reducible refine keeps_thd (by with_reducible assumption) ?_
    | split
    | dsimp only

theorem cleatRelease_keeps {n : Nat} (hK : Keeps kc kn F old s) (hT : Within 67108864 F := by exact within_of rfl (by assumption)) :
    Keeps kc kn F old (State.cleatRelease s n) := by
  unfold State.cleatRelease
  repeat' first
    | with_reducible assumption
    | exact within_of rfl hT
    | with_reducible intro _
    | with_reducible apply modDom_keeps
    | with_reducible apply on_keeps
    | ((with_reducible refine keeps_mk rfl ?_); first | with_reducible assumption | exact within_of rfl hT | (with_reducible apply modDom_keeps) | (with_reducible apply on_keeps) | split | dsimp only)
    | split
    | dsimp only

end Sys2Proof.Machine
end

