-- ==== Sys2Proof/Laws/KeepsPackets.lean ====
section
/-! SUPPORT. What the operations of Machine/Packets.lean keep: one lemma for each. -/

namespace Sys2Proof.Machine

set_option linter.all false
set_option Elab.async false

variable {kc kn : Bool} {F : Field → Bool} {old s : State}

theorem enqueueFrom_keeps {inPort port : Nat} {p : Packet} (hK : Keeps kc kn F old s) (hT : Within 16384 F := by exact within_of rfl (by assumption)) :
    Keeps kc kn F old (State.enqueueFrom s inPort port p) := by
  unfold State.enqueueFrom
  repeat' first
    | with_reducible assumption
    | exact within_of rfl hT
    | (have x : True := trivial
       extract_lets +onlyGivenNames x
       first
       | ((first
           | (have z := x; guard_hyp z : State; clear z; refine keeps_via (x := x) ?_ (fun hx => ?_))
           | (have z := x.2; guard_hyp z : State; clear z; refine keeps_via (x := x.2) ?_ (fun hx => ?_))
           | (have z := x.2.2; guard_hyp z : State; clear z; refine keeps_via (x := x.2.2) ?_ (fun hx => ?_))
           | (have z := x.1; guard_hyp z : State; clear z; refine keeps_via (x := x.1) ?_ (fun hx => ?_)))
          rotate_left
          try clear_value x
          rotate_right
          dsimp -zeta only [x])
       | (fail_if_success (have z := x; guard_hyp z : True)
          try clear_value x))
    | ((with_reducible refine keeps_mk rfl ?_); first | with_reducible assumption | exact within_of rfl hT | split | dsimp -zeta only)
    | dsimp -zeta only

theorem enqueue_keeps {port : Nat} {p : Packet} (hK : Keeps kc kn F old s) (hT : Within 16384 F := by exact within_of rfl (by assumption)) :
    Keeps kc kn F old (State.enqueue s port p) := by
  unfold State.enqueue
  repeat' first | with_reducible assumption | exact within_of rfl hT | with_reducible apply enqueueFrom_keeps | dsimp only

theorem deliver_keeps {p : Packet} (hK : Keeps kc kn F old s) (hT : Within 10813032366 F := by exact within_of rfl (by assumption)) :
    Keeps kc kn F old (State.deliver s p) := by
  unfold State.deliver
  repeat' first
    | with_reducible assumption
    | exact within_of rfl hT
    | with_reducible intro _
    | with_reducible apply modEngine_keeps
    | with_reducible apply reach_keeps
    | (have x : True := trivial
       extract_lets +onlyGivenNames x
       first
       | ((first
           | (have z := x; guard_hyp z : State; clear z; refine keeps_via (x := x) ?_ (fun hx => ?_))
           | (have z := x.2; guard_hyp z : State; clear z; refine keeps_via (x := x.2) ?_ (fun hx => ?_))
           | (have z := x.2.2; guard_hyp z : State; clear z; refine keeps_via (x := x.2.2) ?_ (fun hx => ?_))
           | (have z := x.1; guard_hyp z : State; clear z; refine keeps_via (x := x.1) ?_ (fun hx => ?_)))
          rotate_left
          try clear_value x
          rotate_right
          dsimp -zeta only [x])
       | (fail_if_success (have z := x; guard_hyp z : True)
          try clear_value x))
    | ((with_reducible refine keeps_mk rfl ?_); first | with_reducible assumption | exact within_of rfl hT | (with_reducible apply modEngine_keeps) | (with_reducible apply reach_keeps) | split | dsimp -zeta only)
    | split
    | dsimp -zeta only

theorem logSent_keeps {p : Packet} (hK : Keeps kc kn F old s) (hT : Within 8388608 F := by exact within_of rfl (by assumption)) :
    Keeps kc kn F old (State.logSent s p) := by
  unfold State.logSent
  repeat' first | with_reducible assumption | exact within_of rfl hT | ((with_reducible refine keeps_mk rfl ?_); first | with_reducible assumption | exact within_of rfl hT | split | dsimp only) | split | dsimp only

theorem putCopies_keeps {p : Packet} (hK : Keeps kc kn F old s) (hT : Within 16388 F := by exact within_of rfl (by assumption)) :
    Keeps kc kn F old (State.putCopies s p) := by
  unfold State.putCopies
  repeat' first
    | with_reducible assumption
    | exact within_of rfl hT
    | with_reducible apply inc_keeps
    | with_reducible apply enqueue_keeps
    | (have x : True := trivial
       extract_lets +onlyGivenNames x
       first
       | ((first
           | (have z := x; guard_hyp z : State; clear z; refine keeps_via (x := x) ?_ (fun hx => ?_))
           | (have z := x.2; guard_hyp z : State; clear z; refine keeps_via (x := x.2) ?_ (fun hx => ?_))
           | (have z := x.2.2; guard_hyp z : State; clear z; refine keeps_via (x := x.2.2) ?_ (fun hx => ?_))
           | (have z := x.1; guard_hyp z : State; clear z; refine keeps_via (x := x.1) ?_ (fun hx => ?_)))
          rotate_left
          try clear_value x
          rotate_right
          dsimp -zeta only [x])
       | (fail_if_success (have z := x; guard_hyp z : True)
          try clear_value x))
    | ((with_reducible refine keeps_mk rfl ?_); first | with_reducible assumption | exact within_of rfl hT | (with_reducible apply inc_keeps) | (with_reducible apply enqueue_keeps) | split | dsimp -zeta only)
    | with_reducible refine keeps_fst (by with_reducible assumption) ?_
    | with_reducible refine keeps_snd (by with_reducible assumption) ?_
    | with_reducible refine keeps_thd (by with_reducible assumption) ?_
    | split
    | dsimp -zeta only

theorem originate_keeps {p : Packet} (hK : Keeps kc kn F old s) (hT : Within 10813032366 F := by exact within_of rfl (by assumption)) :
    Keeps kc kn F old (State.originate s p) := by
  unfold State.originate
  repeat' first
    | with_reducible assumption
    | exact within_of rfl hT
    | with_reducible apply deliver_keeps
    | with_reducible apply logSent_keeps
    | with_reducible apply putCopies_keeps
    | (have x : True := trivial
       extract_lets +onlyGivenNames x
       first
       | ((first
           | (have z := x; guard_hyp z : State; clear z; refine keeps_via (x := x) ?_ (fun hx => ?_))
           | (have z := x.2; guard_hyp z : State; clear z; refine keeps_via (x := x.2) ?_ (fun hx => ?_))
           | (have z := x.2.2; guard_hyp z : State; clear z; refine keeps_via (x := x.2.2) ?_ (fun hx => ?_))
           | (have z := x.1; guard_hyp z : State; clear z; refine keeps_via (x := x.1) ?_ (fun hx => ?_)))
          rotate_left
          try clear_value x
          rotate_right
          dsimp -zeta only [x])
       | ((first
           | (have z := x; guard_hyp z : Security)
           | (have z := x; guard_hyp z : Lease))
          dsimp -zeta only [x])
       | (fail_if_success (have z := x; guard_hyp z : True)
          try clear_value x))
    | ((with_reducible refine keeps_mk rfl ?_); first | with_reducible assumption | exact within_of rfl hT | (with_reducible apply deliver_keeps) | (with_reducible apply logSent_keeps) | (with_reducible apply putCopies_keeps) | split | dsimp -zeta only)
    | split
    | dsimp -zeta only

theorem refuseTo_keeps {p : Packet} {status modNum part epoch : Nat} (hK : Keeps kc kn F old s) (hT : Within 10813032366 F := by exact within_of rfl (by assumption)) :
    Keeps kc kn F old (State.refuseTo s p status modNum part epoch) := by
  unfold State.refuseTo
  repeat' first
    | with_reducible assumption
    | exact within_of rfl hT
    | with_reducible apply originate_keeps
    | (have x : True := trivial
       extract_lets +onlyGivenNames x
       first
       | ((first
           | (have z := x; guard_hyp z : State; clear z; refine keeps_via (x := x) ?_ (fun hx => ?_))
           | (have z := x.2; guard_hyp z : State; clear z; refine keeps_via (x := x.2) ?_ (fun hx => ?_))
           | (have z := x.2.2; guard_hyp z : State; clear z; refine keeps_via (x := x.2.2) ?_ (fun hx => ?_))
           | (have z := x.1; guard_hyp z : State; clear z; refine keeps_via (x := x.1) ?_ (fun hx => ?_)))
          rotate_left
          try clear_value x
          rotate_right
          dsimp -zeta only [x])
       | (fail_if_success (have z := x; guard_hyp z : True)
          try clear_value x))
    | ((with_reducible refine keeps_mk rfl ?_); first | with_reducible assumption | exact within_of rfl hT | (with_reducible apply originate_keeps) | split | dsimp -zeta only)
    | split
    | dsimp -zeta only

theorem ackTo_keeps {p : Packet} (hK : Keeps kc kn F old s) (hT : Within 10813032366 F := by exact within_of rfl (by assumption)) :
    Keeps kc kn F old (State.ackTo s p) := by
  unfold State.ackTo
  repeat' first
    | with_reducible assumption
    | exact within_of rfl hT
    | with_reducible apply originate_keeps
    | (have x : True := trivial
       extract_lets +onlyGivenNames x
       first
       | ((first
           | (have z := x; guard_hyp z : State; clear z; refine keeps_via (x := x) ?_ (fun hx => ?_))
           | (have z := x.2; guard_hyp z : State; clear z; refine keeps_via (x := x.2) ?_ (fun hx => ?_))
           | (have z := x.2.2; guard_hyp z : State; clear z; refine keeps_via (x := x.2.2) ?_ (fun hx => ?_))
           | (have z := x.1; guard_hyp z : State; clear z; refine keeps_via (x := x.1) ?_ (fun hx => ?_)))
          rotate_left
          try clear_value x
          rotate_right
          dsimp -zeta only [x])
       | (fail_if_success (have z := x; guard_hyp z : True)
          try clear_value x))
    | ((with_reducible refine keeps_mk rfl ?_); first | with_reducible assumption | exact within_of rfl hT | (with_reducible apply originate_keeps) | split | dsimp -zeta only)
    | dsimp -zeta only

theorem countStop_keeps {st : Nat} (hK : Keeps kc kn F old s) (hT : Within 4 F := by exact within_of rfl (by assumption)) :
    Keeps kc kn F old (State.countStop s st) := by
  unfold State.countStop
  repeat' first | with_reducible assumption | exact within_of rfl hT | with_reducible apply inc_keeps | split | dsimp only

theorem sendColl_keeps {part die : Nat} {dst : Nat × Nat × Nat} {role epoch : Nat} {payload : List Byte} {resend : Bool} (hK : Keeps kc kn F old s) (hT : Within 10813032366 F := by exact within_of rfl (by assumption)) :
    Keeps kc kn F old (State.sendColl s part die dst role epoch payload resend) := by
  unfold State.sendColl
  repeat' first
    | with_reducible assumption
    | exact within_of rfl hT
    | with_reducible apply originate_keeps
    | (have x : True := trivial
       extract_lets +onlyGivenNames x
       first
       | ((first
           | (have z := x; guard_hyp z : State; clear z; refine keeps_via (x := x) ?_ (fun hx => ?_))
           | (have z := x.2; guard_hyp z : State; clear z; refine keeps_via (x := x.2) ?_ (fun hx => ?_))
           | (have z := x.2.2; guard_hyp z : State; clear z; refine keeps_via (x := x.2.2) ?_ (fun hx => ?_))
           | (have z := x.1; guard_hyp z : State; clear z; refine keeps_via (x := x.1) ?_ (fun hx => ?_)))
          rotate_left
          try clear_value x
          rotate_right
          dsimp -zeta only [x])
       | (fail_if_success (have z := x; guard_hyp z : True)
          try clear_value x))
    | ((with_reducible refine keeps_mk rfl ?_); first | with_reducible assumption | exact within_of rfl hT | (with_reducible apply originate_keeps) | split | dsimp -zeta only)
    | dsimp -zeta only

theorem sendVote_keeps {p kind cls step run : Nat} (hK : Keeps kc kn F old s) (hT : Within 10813032366 F := by exact within_of rfl (by assumption)) :
    Keeps kc kn F old (State.sendVote s p kind cls step run) := by
  unfold State.sendVote
  repeat' first
    | with_reducible assumption
    | exact within_of rfl hT
    | with_reducible intro _
    | with_reducible apply originate_keeps
    | with_reducible apply foldS_keeps
    | with_reducible apply foldl_keeps
    | (have x : True := trivial
       extract_lets +onlyGivenNames x
       first
       | ((first
           | (have z := x; guard_hyp z : State; clear z; refine keeps_via (x := x) ?_ (fun hx => ?_))
           | (have z := x.2; guard_hyp z : State; clear z; refine keeps_via (x := x.2) ?_ (fun hx => ?_))
           | (have z := x.2.2; guard_hyp z : State; clear z; refine keeps_via (x := x.2.2) ?_ (fun hx => ?_))
           | (have z := x.1; guard_hyp z : State; clear z; refine keeps_via (x := x.1) ?_ (fun hx => ?_)))
          rotate_left
          try clear_value x
          rotate_right
          dsimp -zeta only [x])
       | (fail_if_success (have z := x; guard_hyp z : True)
          try clear_value x))
    | ((with_reducible refine keeps_mk rfl ?_); first | with_reducible assumption | exact within_of rfl hT | (with_reducible apply originate_keeps) | with_reducible apply foldS_keeps | split | dsimp -zeta only)
    | split
    | dsimp -zeta only

theorem modVote_keeps {p step run : Nat} {f : Vote → Vote} (hK : Keeps kc kn F old s) (hT : Within 256 F := by exact within_of rfl (by assumption)) :
    Keeps kc kn F old (State.modVote s p step run f) := by
  unfold State.modVote
  repeat' first
    | with_reducible assumption
    | exact within_of rfl hT
    | with_reducible intro _
    | with_reducible apply modStep_keeps
    | with_reducible apply ready_keeps
    | (have x : True := trivial
       extract_lets +onlyGivenNames x
       first
       | ((first
           | (have z := x; guard_hyp z : State; clear z; refine keeps_via (x := x) ?_ (fun hx => ?_))
           | (have z := x.2; guard_hyp z : State; clear z; refine keeps_via (x := x.2) ?_ (fun hx => ?_))
           | (have z := x.2.2; guard_hyp z : State; clear z; refine keeps_via (x := x.2.2) ?_ (fun hx => ?_))
           | (have z := x.1; guard_hyp z : State; clear z; refine keeps_via (x := x.1) ?_ (fun hx => ?_)))
          rotate_left
          try clear_value x
          rotate_right
          dsimp -zeta only [x])
       | (fail_if_success (have z := x; guard_hyp z : True)
          try clear_value x))
    | ((with_reducible refine keeps_mk rfl ?_); first | with_reducible assumption | exact within_of rfl hT | (with_reducible apply modStep_keeps) | (with_reducible apply ready_keeps) | split | dsimp -zeta only)
    | split
    | dsimp -zeta only

end Sys2Proof.Machine
end

