-- ==== Sys2Proof/Laws/KeepsSession.lean ====
section
/-! SUPPORT. What the operations of Machine/Session.lean keep: one lemma for each. -/

namespace Sys2Proof.Machine

set_option linter.all false
set_option Elab.async false

variable {kc kn : Bool} {F : Field → Bool} {old s : State}

theorem countRefusal_keeps {code st : Nat} (hK : Keeps kc kn F old s) (hT : Within 4 F := by exact within_of rfl (by assumption)) :
    Keeps kc kn F old (State.countRefusal s code st) := by
  unfold State.countRefusal
  repeat' first
    | with_reducible assumption
    | exact within_of rfl hT
    | with_reducible apply inc_keeps
    | (have x : True := trivial
       extract_lets +onlyGivenNames x
       first
       | ((first
           | (have z := x; guard_hyp z : State; clear z; refine keeps_via (x := x) ?_ (fun hx => ?_))
           | (have z := x.2; guard_hyp z : State; clear z; refine keeps_via (x := x.2) ?_ (fun hx => ?_))
           | (have z := x.2.2; guard_hyp z : State; clear z; refine keeps_via (x := x.2.2) ?_ (fun hx => ?_))
           | (have z := x.1; guard_hyp z : State; clear z; refine keeps_via (x := x.1) ?_ (fun hx => ?_)))
          rotate_left
          try clear_value x
          rotate_right
          dsimp -zeta only [x])
       | (fail_if_success (have z := x; guard_hyp z : True)
          try clear_value x))
    | split
    | dsimp -zeta only

theorem sendReply_keeps {sid : Nat} {relay : Option Nat} {r : Reply} (hK : Keeps kc kn F old s) (hT : Within 10813032366 F := by exact within_of rfl (by assumption)) :
    Keeps kc kn F old (State.sendReply s sid relay r) := by
  unfold State.sendReply
  repeat' first
    | with_reducible assumption
    | exact within_of rfl hT
    | with_reducible apply send_keeps
    | with_reducible apply originate_keeps
    | with_reducible apply reply_keeps
    | (have x : True := trivial
       extract_lets +onlyGivenNames x
       first
       | ((first
           | (have z := x; guard_hyp z : State; clear z; refine keeps_via (x := x) ?_ (fun hx => ?_))
           | (have z := x.2; guard_hyp z : State; clear z; refine keeps_via (x := x.2) ?_ (fun hx => ?_))
           | (have z := x.2.2; guard_hyp z : State; clear z; refine keeps_via (x := x.2.2) ?_ (fun hx => ?_))
           | (have z := x.1; guard_hyp z : State; clear z; refine keeps_via (x := x.1) ?_ (fun hx => ?_)))
          rotate_left
          try clear_value x
          rotate_right
          dsimp -zeta only [x])
       | (fail_if_success (have z := x; guard_hyp z : True)
          try clear_value x))
    | ((with_reducible refine keeps_mk rfl ?_); first | with_reducible assumption | exact within_of rfl hT | (with_reducible apply send_keeps) | (with_reducible apply originate_keeps) | (with_reducible apply reply_keeps) | split | dsimp -zeta only)
    | with_reducible refine keeps_fst (by with_reducible assumption) ?_
    | with_reducible refine keeps_snd (by with_reducible assumption) ?_
    | with_reducible refine keeps_thd (by with_reducible assumption) ?_
    | split
    | dsimp -zeta only

theorem answer_keeps {sid seq st : Nat} {data : List Byte} {keep : Bool} (hK : Keeps kc kn F old s) (hT : Within 10846586798 F := by exact within_of rfl (by assumption)) :
    Keeps kc kn F old (State.answer s sid seq st data keep) := by
  unfold State.answer
  repeat' first
    | with_reducible assumption
    | exact within_of rfl hT
    | with_reducible intro _
    | with_reducible apply modSession_keeps
    | with_reducible apply sendReply_keeps
    | with_reducible apply take_keeps
    | (have x : True := trivial
       extract_lets +onlyGivenNames x
       first
       | ((first
           | (have z := x; guard_hyp z : State; clear z; refine keeps_via (x := x) ?_ (fun hx => ?_))
           | (have z := x.2; guard_hyp z : State; clear z; refine keeps_via (x := x.2) ?_ (fun hx => ?_))
           | (have z := x.2.2; guard_hyp z : State; clear z; refine keeps_via (x := x.2.2) ?_ (fun hx => ?_))
           | (have z := x.1; guard_hyp z : State; clear z; refine keeps_via (x := x.1) ?_ (fun hx => ?_)))
          rotate_left
          try clear_value x
          rotate_right
          dsimp -zeta only [x])
       | (fail_if_success (have z := x; guard_hyp z : True)
          try clear_value x))
    | ((with_reducible refine keeps_mk rfl ?_); first | with_reducible assumption | exact within_of rfl hT | (with_reducible apply modSession_keeps) | (with_reducible apply sendReply_keeps) | (with_reducible apply take_keeps) | split | dsimp -zeta only)
    | split
    | dsimp -zeta only

theorem reply_keeps {sid seq st : Nat} {data : List Byte} (hK : Keeps kc kn F old s) (hT : Within 10846586798 F := by exact within_of rfl (by assumption)) :
    Keeps kc kn F old (State.reply s sid seq st data) := by
  unfold State.reply
  repeat' first | with_reducible assumption | exact within_of rfl hT | with_reducible apply answer_keeps | dsimp only

theorem commandLater_keeps {h : CmdHdr} {code : Nat} {f : State → Option (Nat × List Byte) × State} (hKf : ∀ s, Keeps kc kn F old s → Keeps kc kn F old (f s).2) (hK : Keeps kc kn F old s) (hT : Within 10846586799 F := by exact within_of rfl (by assumption)) :
    Keeps kc kn F old (State.commandLater s h code f) := by
  unfold State.commandLater
  repeat' first
    | with_reducible assumption
    | exact within_of rfl hT
    | with_reducible intro _
    | with_reducible apply hKf
    | with_reducible apply tick_keeps
    | with_reducible apply countRefusal_keeps
    | with_reducible apply answer_keeps
    | with_reducible apply reply_keeps
    | (have x : True := trivial
       extract_lets +onlyGivenNames x
       first
       | ((first
           | (have z := x; guard_hyp z : State; clear z; refine keeps_via (x := x) ?_ (fun hx => ?_))
           | (have z := x.2; guard_hyp z : State; clear z; refine keeps_via (x := x.2) ?_ (fun hx => ?_))
           | (have z := x.2.2; guard_hyp z : State; clear z; refine keeps_via (x := x.2.2) ?_ (fun hx => ?_))
           | (have z := x.1; guard_hyp z : State; clear z; refine keeps_via (x := x.1) ?_ (fun hx => ?_)))
          rotate_left
          try clear_value x
          rotate_right
          dsimp -zeta only [x])
       | (fail_if_success (have z := x; guard_hyp z : True)
          try clear_value x))
    | ((with_reducible refine keeps_mk rfl ?_); first | with_reducible assumption | exact within_of rfl hT | (with_reducible apply hKf) | (with_reducible apply tick_keeps) | (with_reducible apply countRefusal_keeps) | (with_reducible apply answer_keeps) | (with_reducible apply reply_keeps) | split | dsimp -zeta only)
    | with_reducible refine keeps_fst (by with_reducible assumption) ?_
    | with_reducible refine keeps_snd (by with_reducible assumption) ?_
    | with_reducible refine keeps_thd (by with_reducible assumption) ?_
    | split
    | dsimp -zeta only

theorem command_keeps {h : CmdHdr} {code : Nat} {f : State → Nat × List Byte × State} (hKf : ∀ s, Keeps kc kn F old s → Keeps kc kn F old (f s).2.2) (hK : Keeps kc kn F old s) (hT : Within 10846586799 F := by exact within_of rfl (by assumption)) :
    Keeps kc kn F old (State.command s h code f) := by
  unfold State.command
  repeat' first
    | with_reducible assumption
    | exact within_of rfl hT
    | with_reducible intro _
    | with_reducible apply hKf
    | with_reducible apply commandLater_keeps
    | (have x : True := trivial
       extract_lets +onlyGivenNames x
       first
       | ((first
           | (have z := x; guard_hyp z : State; clear z; refine keeps_via (x := x) ?_ (fun hx => ?_))
           | (have z := x.2; guard_hyp z : State; clear z; refine keeps_via (x := x.2) ?_ (fun hx => ?_))
           | (have z := x.2.2; guard_hyp z : State; clear z; refine keeps_via (x := x.2.2) ?_ (fun hx => ?_))
           | (have z := x.1; guard_hyp z : State; clear z; refine keeps_via (x := x.1) ?_ (fun hx => ?_)))
          rotate_left
          try clear_value x
          rotate_right
          dsimp -zeta only [x])
       | (fail_if_success (have z := x; guard_hyp z : True)
          try clear_value x))
    | dsimp -zeta only

theorem ans_keeps {st : Nat} (hK : Keeps kc kn F old s) (hT : Within 0 F := by exact within_of rfl (by assumption)) :
    Keeps kc kn F old (ans st s).2.2 := by
  unfold ans
  repeat' first | with_reducible assumption | exact within_of rfl hT | dsimp only

end Sys2Proof.Machine
end

