-- ==== Sys2Proof/Laws/KeepsPower.lean ====
section
/-! SUPPORT. What the operations of Machine/Power.lean keep: one lemma for each. -/

namespace Sys2Proof.Machine

set_option linter.all false
set_option Elab.async false

variable {kc kn : Bool} {F : Field → Bool} {old s : State}

theorem aonWrite_keeps {v : Nat} (hK : Keeps kc kn F old s) (hT : Within 67108868 F := by exact within_of rfl (by assumption)) :
    Keeps kc kn F old (State.aonWrite s v) := by
  unfold State.aonWrite
  repeat' first | with_reducible assumption | exact within_of rfl hT | with_reducible apply setReg_keeps | with_reducible apply lowPower_keeps | dsimp only

theorem domCtrlWrite_keeps {n v : Nat} (hK : Keeps kc kn F old s) (hT : Within 10813032366 F := by exact within_of rfl (by assumption)) :
    Keeps kc kn F old (State.domCtrlWrite s n v).2 := by
  unfold State.domCtrlWrite
  repeat' first
    | with_reducible assumption
    | exact within_of rfl hT
    | with_reducible apply setReg_keeps
    | with_reducible apply domTarget_keeps
    | with_reducible apply cleatRelease_keeps
    | (have x : True := trivial
       extract_lets +onlyGivenNames x
       first
       | ((first
           | (have z := x; guard_hyp z : State; clear z; refine keeps_via (x := x) ?_ (fun hx => ?_))
           | (have z := x.2; guard_hyp z : State; clear z; refine keeps_via (x := x.2) ?_ (fun hx => ?_))
           | (have z := x.2.2; guard_hyp z : State; clear z; refine keeps_via (x := x.2.2) ?_ (fun hx => ?_))
           | (have z := x.1; guard_hyp z : State; clear z; refine keeps_via (x := x.1) ?_ (fun hx => ?_)))
          rotate_left
          try clear_value x
          rotate_right
          dsimp -zeta only [x])
       | ((first
           | (have z := x; guard_hyp z : Security)
           | (have z := x; guard_hyp z : Lease))
          dsimp -zeta only [x])
       | (fail_if_success (have z := x; guard_hyp z : True)
          try clear_value x))
    | split
    | dsimp -zeta only

theorem reachReg_keeps {addr : Nat} (hK : Keeps kc kn F old s) (hT : Within 10813032366 F := by exact within_of rfl (by assumption)) :
    Keeps kc kn F old (State.reachReg s addr) := by
  unfold State.reachReg
  repeat' first
    | with_reducible assumption
    | exact within_of rfl hT
    | with_reducible intro _
    | with_reducible apply reach_keeps
    | ((with_reducible refine keeps_mk rfl ?_); first | with_reducible assumption | exact within_of rfl hT | (with_reducible apply reach_keeps) | split | dsimp only)
    | with_reducible refine keeps_fst (by with_reducible assumption) ?_
    | with_reducible refine keeps_snd (by with_reducible assumption) ?_
    | with_reducible refine keeps_thd (by with_reducible assumption) ?_
    | split
    | dsimp only

theorem regCommand_keeps {h : CmdHdr} {code addr : Nat} {f : State → Nat × List Byte × State} (hKf : ∀ s, Keeps kc kn F old s → Keeps kc kn F old (f s).2.2) (hK : Keeps kc kn F old s) (hT : Within 10846586799 F := by exact within_of rfl (by assumption)) :
    Keeps kc kn F old (State.regCommand s h code addr f) := by
  unfold State.regCommand
  repeat' first
    | with_reducible assumption
    | exact within_of rfl hT
    | with_reducible intro _
    | with_reducible apply hKf
    | with_reducible apply command_keeps
    | with_reducible apply ans_keeps
    | with_reducible apply reachReg_keeps
    | (have x : True := trivial
       extract_lets +onlyGivenNames x
       first
       | ((first
           | (have z := x; guard_hyp z : State; clear z; refine keeps_via (x := x) ?_ (fun hx => ?_))
           | (have z := x.2; guard_hyp z : State; clear z; refine keeps_via (x := x.2) ?_ (fun hx => ?_))
           | (have z := x.2.2; guard_hyp z : State; clear z; refine keeps_via (x := x.2.2) ?_ (fun hx => ?_))
           | (have z := x.1; guard_hyp z : State; clear z; refine keeps_via (x := x.1) ?_ (fun hx => ?_)))
          rotate_left
          try clear_value x
          rotate_right
          dsimp -zeta only [x])
       | (fail_if_success (have z := x; guard_hyp z : True)
          try clear_value x))
    | split
    | dsimp -zeta only

theorem execTargetOn_keeps {h : CmdHdr} {dom : Fin 64} {hold : Bool} (hK : Keeps kc kn F old s) (hT : Within 10846586799 F := by exact within_of rfl (by assumption)) :
    NextKeeps kc kn F old (execTargetOn h dom hold s) := by
  unfold execTargetOn
  repeat' first
    | with_reducible assumption
    | with_reducible apply next_keeps
    | with_reducible exact fault_keeps
    | exact within_of rfl hT
    | with_reducible intro _
    | with_reducible apply ans_keeps
    | with_reducible apply domCtrlWrite_keeps
    | with_reducible apply regCommand_keeps
    | (have x : True := trivial
       extract_lets +onlyGivenNames x
       first
       | ((first
           | (have z := x; guard_hyp z : State; clear z; refine keeps_via (x := x) ?_ (fun hx => ?_))
           | (have z := x; guard_hyp z : State; clear z; refine next_via (x := x) ?_ (fun hx => ?_))
           | (have z := x.2; guard_hyp z : State; clear z; refine keeps_via (x := x.2) ?_ (fun hx => ?_))
           | (have z := x.2; guard_hyp z : State; clear z; refine next_via (x := x.2) ?_ (fun hx => ?_))
           | (have z := x.2.2; guard_hyp z : State; clear z; refine keeps_via (x := x.2.2) ?_ (fun hx => ?_))
           | (have z := x.2.2; guard_hyp z : State; clear z; refine next_via (x := x.2.2) ?_ (fun hx => ?_))
           | (have z := x.1; guard_hyp z : State; clear z; refine keeps_via (x := x.1) ?_ (fun hx => ?_))
           | (have z := x.1; guard_hyp z : State; clear z; refine next_via (x := x.1) ?_ (fun hx => ?_)))
          rotate_left
          try clear_value x
          rotate_right
          dsimp -zeta only [x])
       | (fail_if_success (have z := x; guard_hyp z : True)
          try clear_value x))
    | split
    | dsimp -zeta only

theorem execTargetRetention_keeps {h : CmdHdr} {dom : Fin 64} (hK : Keeps kc kn F old s) (hT : Within 10846586799 F := by exact within_of rfl (by assumption)) :
    NextKeeps kc kn F old (execTargetRetention h dom s) := by
  unfold execTargetRetention
  repeat' first
    | with_reducible assumption
    | with_reducible apply next_keeps
    | with_reducible exact fault_keeps
    | exact within_of rfl hT
    | with_reducible intro _
    | with_reducible apply ans_keeps
    | with_reducible apply domCtrlWrite_keeps
    | with_reducible apply regCommand_keeps
    | (have x : True := trivial
       extract_lets +onlyGivenNames x
       first
       | ((first
           | (have z := x; guard_hyp z : State; clear z; refine keeps_via (x := x) ?_ (fun hx => ?_))
           | (have z := x; guard_hyp z : State; clear z; refine next_via (x := x) ?_ (fun hx => ?_))
           | (have z := x.2; guard_hyp z : State; clear z; refine keeps_via (x := x.2) ?_ (fun hx => ?_))
           | (have z := x.2; guard_hyp z : State; clear z; refine next_via (x := x.2) ?_ (fun hx => ?_))
           | (have z := x.2.2; guard_hyp z : State; clear z; refine keeps_via (x := x.2.2) ?_ (fun hx => ?_))
           | (have z := x.2.2; guard_hyp z : State; clear z; refine next_via (x := x.2.2) ?_ (fun hx => ?_))
           | (have z := x.1; guard_hyp z : State; clear z; refine keeps_via (x := x.1) ?_ (fun hx => ?_))
           | (have z := x.1; guard_hyp z : State; clear z; refine next_via (x := x.1) ?_ (fun hx => ?_)))
          rotate_left
          try clear_value x
          rotate_right
          dsimp -zeta only [x])
       | (fail_if_success (have z := x; guard_hyp z : True)
          try clear_value x))
    | dsimp -zeta only

theorem execTargetOff_keeps {h : CmdHdr} {dom : Fin 64} (hK : Keeps kc kn F old s) (hT : Within 10846586799 F := by exact within_of rfl (by assumption)) :
    NextKeeps kc kn F old (execTargetOff h dom s) := by
  unfold execTargetOff
  repeat' first
    | with_reducible assumption
    | with_reducible apply next_keeps
    | with_reducible exact fault_keeps
    | exact within_of rfl hT
    | with_reducible intro _
    | with_reducible apply ans_keeps
    | with_reducible apply domCtrlWrite_keeps
    | with_reducible apply regCommand_keeps
    | (have x : True := trivial
       extract_lets +onlyGivenNames x
       first
       | ((first
           | (have z := x; guard_hyp z : State; clear z; refine keeps_via (x := x) ?_ (fun hx => ?_))
           | (have z := x; guard_hyp z : State; clear z; refine next_via (x := x) ?_ (fun hx => ?_))
           | (have z := x.2; guard_hyp z : State; clear z; refine keeps_via (x := x.2) ?_ (fun hx => ?_))
           | (have z := x.2; guard_hyp z : State; clear z; refine next_via (x := x.2) ?_ (fun hx => ?_))
           | (have z := x.2.2; guard_hyp z : State; clear z; refine keeps_via (x := x.2.2) ?_ (fun hx => ?_))
           | (have z := x.2.2; guard_hyp z : State; clear z; refine next_via (x := x.2.2) ?_ (fun hx => ?_))
           | (have z := x.1; guard_hyp z : State; clear z; refine keeps_via (x := x.1) ?_ (fun hx => ?_))
           | (have z := x.1; guard_hyp z : State; clear z; refine next_via (x := x.1) ?_ (fun hx => ?_)))
          rotate_left
          try clear_value x
          rotate_right
          dsimp -zeta only [x])
       | (fail_if_success (have z := x; guard_hyp z : True)
          try clear_value x))
    | dsimp -zeta only

theorem execCleatRel_keeps {h : CmdHdr} {dom : Fin 64} (hK : Keeps kc kn F old s) (hT : Within 10846586799 F := by exact within_of rfl (by assumption)) :
    NextKeeps kc kn F old (execCleatRel h dom s) := by
  unfold execCleatRel
  repeat' first
    | with_reducible assumption
    | with_reducible apply next_keeps
    | with_reducible exact fault_keeps
    | exact within_of rfl hT
    | with_reducible intro _
    | with_reducible apply cleatRelease_keeps
    | with_reducible apply ans_keeps
    | with_reducible apply regCommand_keeps
    | dsimp only

theorem execPwrAonCtrl_keeps {h : CmdHdr} {value : Word} (hK : Keeps kc kn F old s) (hT : Within 10846586799 F := by exact within_of rfl (by assumption)) :
    NextKeeps kc kn F old (execPwrAonCtrl h value s) := by
  unfold execPwrAonCtrl
  repeat' first
    | with_reducible assumption
    | with_reducible apply next_keeps
    | with_reducible exact fault_keeps
    | exact within_of rfl hT
    | with_reducible intro _
    | with_reducible apply ans_keeps
    | with_reducible apply aonWrite_keeps
    | with_reducible apply regCommand_keeps
    | dsimp only

theorem execWakeOnAccess_keeps {dom : Fin 64} {source : BitVec 8} {t : Nat} (hK : Keeps kc kn F old s) (hT : Within 10813032367 F := by exact within_of rfl (by assumption)) :
    NextKeeps kc kn F old (execWakeOnAccess dom source t s) := by
  unfold execWakeOnAccess
  repeat' first
    | with_reducible assumption
    | with_reducible apply next_keeps
    | with_reducible exact fault_keeps
    | exact within_of rfl hT
    | with_reducible intro _
    | with_reducible apply tick_keeps
    | with_reducible apply modDom_keeps
    | with_reducible apply abortEntry_keeps
    | with_reducible apply startWake_keeps
    | with_reducible apply queuedWrite_keeps
    | with_reducible apply on_keeps
    | (have x : True := trivial
       extract_lets +onlyGivenNames x
       first
       | ((first
           | (have z := x; guard_hyp z : State; clear z; refine keeps_via (x := x) ?_ (fun hx => ?_))
           | (have z := x; guard_hyp z : State; clear z; refine next_via (x := x) ?_ (fun hx => ?_))
           | (have z := x.2; guard_hyp z : State; clear z; refine keeps_via (x := x.2) ?_ (fun hx => ?_))
           | (have z := x.2; guard_hyp z : State; clear z; refine next_via (x := x.2) ?_ (fun hx => ?_))
           | (have z := x.2.2; guard_hyp z : State; clear z; refine keeps_via (x := x.2.2) ?_ (fun hx => ?_))
           | (have z := x.2.2; guard_hyp z : State; clear z; refine next_via (x := x.2.2) ?_ (fun hx => ?_))
           | (have z := x.1; guard_hyp z : State; clear z; refine keeps_via (x := x.1) ?_ (fun hx => ?_))
           | (have z := x.1; guard_hyp z : State; clear z; refine next_via (x := x.1) ?_ (fun hx => ?_)))
          rotate_left
          try clear_value x
          rotate_right
          dsimp -zeta only [x])
       | (fail_if_success (have z := x; guard_hyp z : True)
          try clear_value x))
    | ((with_reducible refine keeps_mk rfl ?_); first | with_reducible assumption | exact within_of rfl hT | (with_reducible apply tick_keeps) | (with_reducible apply modDom_keeps) | (with_reducible apply abortEntry_keeps) | (with_reducible apply startWake_keeps) | (with_reducible apply queuedWrite_keeps) | (with_reducible apply on_keeps) | split | dsimp -zeta only)
    | with_reducible refine keeps_fst (by with_reducible assumption) ?_
    | with_reducible refine keeps_snd (by with_reducible assumption) ?_
    | with_reducible refine keeps_thd (by with_reducible assumption) ?_
    | split
    | dsimp -zeta only

theorem execQuiesceEnd_keeps {dom : Fin 64} {t : Nat} (hK : Keeps kc kn F old s) (hT : Within 67108865 F := by exact within_of rfl (by assumption)) :
    NextKeeps kc kn F old (execQuiesceEnd dom t s) := by
  unfold execQuiesceEnd
  repeat' first
    | with_reducible assumption
    | with_reducible apply next_keeps
    | with_reducible exact fault_keeps
    | exact within_of rfl hT
    | with_reducible intro _
    | with_reducible apply tick_keeps
    | with_reducible apply modDom_keeps
    | (have x : True := trivial
       extract_lets +onlyGivenNames x
       first
       | ((first
           | (have z := x; guard_hyp z : State; clear z; refine keeps_via (x := x) ?_ (fun hx => ?_))
           | (have z := x; guard_hyp z : State; clear z; refine next_via (x := x) ?_ (fun hx => ?_))
           | (have z := x.2; guard_hyp z : State; clear z; refine keeps_via (x := x.2) ?_ (fun hx => ?_))
           | (have z := x.2; guard_hyp z : State; clear z; refine next_via (x := x.2) ?_ (fun hx => ?_))
           | (have z := x.2.2; guard_hyp z : State; clear z; refine keeps_via (x := x.2.2) ?_ (fun hx => ?_))
           | (have z := x.2.2; guard_hyp z : State; clear z; refine next_via (x := x.2.2) ?_ (fun hx => ?_))
           | (have z := x.1; guard_hyp z : State; clear z; refine keeps_via (x := x.1) ?_ (fun hx => ?_))
           | (have z := x.1; guard_hyp z : State; clear z; refine next_via (x := x.1) ?_ (fun hx => ?_)))
          rotate_left
          try clear_value x
          rotate_right
          dsimp -zeta only [x])
       | (fail_if_success (have z := x; guard_hyp z : True)
          try clear_value x))
    | ((with_reducible refine keeps_mk rfl ?_); first | with_reducible assumption | exact within_of rfl hT | (with_reducible apply tick_keeps) | (with_reducible apply modDom_keeps) | split | dsimp -zeta only)
    | split
    | dsimp -zeta only

theorem execDrainTimeout_keeps {dom : Fin 64} {t : Nat} (hK : Keeps kc kn F old s) (hT : Within 10813032367 F := by exact within_of rfl (by assumption)) :
    NextKeeps kc kn F old (execDrainTimeout dom t s) := by
  unfold execDrainTimeout
  repeat' first
    | with_reducible assumption
    | with_reducible apply next_keeps
    | with_reducible exact fault_keeps
    | exact within_of rfl hT
    | with_reducible apply tick_keeps
    | with_reducible apply abortEntry_keeps
    | with_reducible apply queuedWrite_keeps
    | (have x : True := trivial
       extract_lets +onlyGivenNames x
       first
       | ((first
           | (have z := x; guard_hyp z : State; clear z; refine keeps_via (x := x) ?_ (fun hx => ?_))
           | (have z := x; guard_hyp z : State; clear z; refine next_via (x := x) ?_ (fun hx => ?_))
           | (have z := x.2; guard_hyp z : State; clear z; refine keeps_via (x := x.2) ?_ (fun hx => ?_))
           | (have z := x.2; guard_hyp z : State; clear z; refine next_via (x := x.2) ?_ (fun hx => ?_))
           | (have z := x.2.2; guard_hyp z : State; clear z; refine keeps_via (x := x.2.2) ?_ (fun hx => ?_))
           | (have z := x.2.2; guard_hyp z : State; clear z; refine next_via (x := x.2.2) ?_ (fun hx => ?_))
           | (have z := x.1; guard_hyp z : State; clear z; refine keeps_via (x := x.1) ?_ (fun hx => ?_))
           | (have z := x.1; guard_hyp z : State; clear z; refine next_via (x := x.1) ?_ (fun hx => ?_)))
          rotate_left
          try clear_value x
          rotate_right
          dsimp -zeta only [x])
       | (fail_if_success (have z := x; guard_hyp z : True)
          try clear_value x))
    | split
    | dsimp -zeta only

theorem execSaveDone_keeps {dom : Fin 64} {t : Nat} (hK : Keeps kc kn F old s) (hT : Within 10813032367 F := by exact within_of rfl (by assumption)) :
    NextKeeps kc kn F old (execSaveDone dom t s) := by
  unfold execSaveDone
  repeat' first
    | with_reducible assumption
    | with_reducible apply next_keeps
    | with_reducible exact fault_keeps
    | exact within_of rfl hT
    | with_reducible intro _
    | with_reducible apply tick_keeps
    | with_reducible apply modDom_keeps
    | with_reducible apply enterDone_keeps
    | with_reducible apply lowPower_keeps
    | with_reducible apply startWake_keeps
    | with_reducible apply queuedWrite_keeps
    | (have x : True := trivial
       extract_lets +onlyGivenNames x
       first
       | ((first
           | (have z := x; guard_hyp z : State; clear z; refine keeps_via (x := x) ?_ (fun hx => ?_))
           | (have z := x; guard_hyp z : State; clear z; refine next_via (x := x) ?_ (fun hx => ?_))
           | (have z := x.2; guard_hyp z : State; clear z; refine keeps_via (x := x.2) ?_ (fun hx => ?_))
           | (have z := x.2; guard_hyp z : State; clear z; refine next_via (x := x.2) ?_ (fun hx => ?_))
           | (have z := x.2.2; guard_hyp z : State; clear z; refine keeps_via (x := x.2.2) ?_ (fun hx => ?_))
           | (have z := x.2.2; guard_hyp z : State; clear z; refine next_via (x := x.2.2) ?_ (fun hx => ?_))
           | (have z := x.1; guard_hyp z : State; clear z; refine keeps_via (x := x.1) ?_ (fun hx => ?_))
           | (have z := x.1; guard_hyp z : State; clear z; refine next_via (x := x.1) ?_ (fun hx => ?_)))
          rotate_left
          try clear_value x
          rotate_right
          dsimp -zeta only [x])
       | (fail_if_success (have z := x; guard_hyp z : True)
          try clear_value x))
    | ((with_reducible refine keeps_mk rfl ?_); first | with_reducible assumption | exact within_of rfl hT | (with_reducible apply tick_keeps) | (with_reducible apply modDom_keeps) | (with_reducible apply enterDone_keeps) | (with_reducible apply lowPower_keeps) | (with_reducible apply startWake_keeps) | (with_reducible apply queuedWrite_keeps) | split | dsimp -zeta only)
    | with_reducible refine keeps_fst (by with_reducible assumption) ?_
    | with_reducible refine keeps_snd (by with_reducible assumption) ?_
    | with_reducible refine keeps_thd (by with_reducible assumption) ?_
    | split
    | dsimp -zeta only

theorem execDomainReady_keeps {dom : Fin 64} {corrected : Nat} {bad : Bool} {t : Nat} (hK : Keeps kc kn F old s) (hT : Within 10813032367 F := by exact within_of rfl (by assumption)) :
    NextKeeps kc kn F old (execDomainReady dom corrected bad t s) := by
  unfold execDomainReady
  repeat' first
    | with_reducible assumption
    | with_reducible apply next_keeps
    | with_reducible exact fault_keeps
    | exact within_of rfl hT
    | with_reducible apply tick_keeps
    | with_reducible apply ready_keeps
    | with_reducible apply queuedWrite_keeps
    | with_reducible apply corrected_keeps
    | (have x : True := trivial
       extract_lets +onlyGivenNames x
       first
       | ((first
           | (have z := x; guard_hyp z : State; clear z; refine keeps_via (x := x) ?_ (fun hx => ?_))
           | (have z := x; guard_hyp z : State; clear z; refine next_via (x := x) ?_ (fun hx => ?_))
           | (have z := x.2; guard_hyp z : State; clear z; refine keeps_via (x := x.2) ?_ (fun hx => ?_))
           | (have z := x.2; guard_hyp z : State; clear z; refine next_via (x := x.2) ?_ (fun hx => ?_))
           | (have z := x.2.2; guard_hyp z : State; clear z; refine keeps_via (x := x.2.2) ?_ (fun hx => ?_))
           | (have z := x.2.2; guard_hyp z : State; clear z; refine next_via (x := x.2.2) ?_ (fun hx => ?_))
           | (have z := x.1; guard_hyp z : State; clear z; refine keeps_via (x := x.1) ?_ (fun hx => ?_))
           | (have z := x.1; guard_hyp z : State; clear z; refine next_via (x := x.1) ?_ (fun hx => ?_)))
          rotate_left
          try clear_value x
          rotate_right
          dsimp -zeta only [x])
       | (fail_if_success (have z := x; guard_hyp z : True)
          try clear_value x))
    | split
    | dsimp -zeta only

theorem execBrownout_keeps {current : Nat} {bad : List (Fin 64)} {t : Nat} (hK : Keeps kc kn F old s) (hT : Within 10804560133 F := by exact within_of rfl (by assumption)) :
    NextKeeps kc kn F old (execBrownout current bad t s) := by
  unfold execBrownout
  repeat' first
    | with_reducible assumption
    | with_reducible apply next_keeps
    | with_reducible exact fault_keeps
    | exact within_of rfl hT
    | with_reducible intro _
    | with_reducible apply tick_keeps
    | with_reducible apply inc_keeps
    | with_reducible apply modDom_keeps
    | with_reducible apply eventC_keeps
    | with_reducible apply fsr_keeps
    | with_reducible apply foldS_keeps
    | (have x : True := trivial
       extract_lets +onlyGivenNames x
       first
       | ((first
           | (have z := x; guard_hyp z : State; clear z; refine keeps_via (x := x) ?_ (fun hx => ?_))
           | (have z := x; guard_hyp z : State; clear z; refine next_via (x := x) ?_ (fun hx => ?_))
           | (have z := x.2; guard_hyp z : State; clear z; refine keeps_via (x := x.2) ?_ (fun hx => ?_))
           | (have z := x.2; guard_hyp z : State; clear z; refine next_via (x := x.2) ?_ (fun hx => ?_))
           | (have z := x.2.2; guard_hyp z : State; clear z; refine keeps_via (x := x.2.2) ?_ (fun hx => ?_))
           | (have z := x.2.2; guard_hyp z : State; clear z; refine next_via (x := x.2.2) ?_ (fun hx => ?_))
           | (have z := x.1; guard_hyp z : State; clear z; refine keeps_via (x := x.1) ?_ (fun hx => ?_))
           | (have z := x.1; guard_hyp z : State; clear z; refine next_via (x := x.1) ?_ (fun hx => ?_)))
          rotate_left
          try clear_value x
          rotate_right
          dsimp -zeta only [x])
       | (fail_if_success (have z := x; guard_hyp z : True)
          try clear_value x))
    | ((with_reducible refine keeps_mk rfl ?_); first | with_reducible assumption | exact within_of rfl hT | (with_reducible apply tick_keeps) | (with_reducible apply inc_keeps) | (with_reducible apply modDom_keeps) | (with_reducible apply eventC_keeps) | (with_reducible apply fsr_keeps) | with_reducible apply foldS_keeps | split | dsimp -zeta only)
    | split
    | dsimp -zeta only

end Sys2Proof.Machine
end

