-- ==== Sys2Proof/Laws/KeepsMemory.lean ====
section
/-! SUPPORT. What the operations of Machine/Memory.lean keep: one lemma for each. -/

namespace Sys2Proof.Machine

set_option linter.all false
set_option Elab.async false

variable {kc kn : Bool} {F : Field → Bool} {old s : State}

theorem logAt_keeps {u mpa own cls symbols : Nat} {patrol : Bool} (hK : Keeps kc kn F old s) (hT : Within 6144 F := by exact within_of rfl (by assumption)) :
    Keeps kc kn F old (State.logAt s u mpa own cls symbols patrol) := by
  unfold State.logAt
  repeat' first
    | with_reducible assumption
    | exact within_of rfl hT
    | (have x : True := trivial
       extract_lets +onlyGivenNames x
       first
       | ((first
           | (have z := x; guard_hyp z : State; clear z; refine keeps_via (x := x) ?_ (fun hx => ?_))
           | (have z := x.2; guard_hyp z : State; clear z; refine keeps_via (x := x.2) ?_ (fun hx => ?_))
           | (have z := x.2.2; guard_hyp z : State; clear z; refine keeps_via (x := x.2.2) ?_ (fun hx => ?_))
           | (have z := x.1; guard_hyp z : State; clear z; refine keeps_via (x := x.1) ?_ (fun hx => ?_)))
          rotate_left
          try clear_value x
          rotate_right
          dsimp -zeta only [x])
       | (fail_if_success (have z := x; guard_hyp z : True)
          try clear_value x))
    | ((with_reducible refine keeps_mk rfl ?_); first | with_reducible assumption | exact within_of rfl hT | split | dsimp -zeta only)
    | split
    | dsimp -zeta only

theorem logErr_keeps {u mpa cls symbols : Nat} {patrol : Bool} (hK : Keeps kc kn F old s) (hT : Within 6144 F := by exact within_of rfl (by assumption)) :
    Keeps kc kn F old (State.logErr s u mpa cls symbols patrol) := by
  unfold State.logErr
  repeat' first | with_reducible assumption | exact within_of rfl hT | with_reducible apply logAt_keeps | dsimp only

theorem memRecord_keeps {mpa st : Nat} (hK : Keeps kc kn F old s) (hT : Within 10737451268 F := by exact within_of rfl (by assumption)) :
    Keeps kc kn F old (State.memRecord s mpa st) := by
  unfold State.memRecord
  repeat' first
    | with_reducible assumption
    | exact within_of rfl hT
    | with_reducible apply fsr_keeps
    | (have x : True := trivial
       extract_lets +onlyGivenNames x
       first
       | ((first
           | (have z := x; guard_hyp z : State; clear z; refine keeps_via (x := x) ?_ (fun hx => ?_))
           | (have z := x.2; guard_hyp z : State; clear z; refine keeps_via (x := x.2) ?_ (fun hx => ?_))
           | (have z := x.2.2; guard_hyp z : State; clear z; refine keeps_via (x := x.2.2) ?_ (fun hx => ?_))
           | (have z := x.1; guard_hyp z : State; clear z; refine keeps_via (x := x.1) ?_ (fun hx => ?_)))
          rotate_left
          try clear_value x
          rotate_right
          dsimp -zeta only [x])
       | (fail_if_success (have z := x; guard_hyp z : True)
          try clear_value x))
    | ((with_reducible refine keeps_mk rfl ?_); first | with_reducible assumption | exact within_of rfl hT | (with_reducible apply fsr_keeps) | split | dsimp -zeta only)
    | with_reducible refine keeps_fst (by with_reducible assumption) ?_
    | with_reducible refine keeps_snd (by with_reducible assumption) ?_
    | with_reducible refine keeps_thd (by with_reducible assumption) ?_
    | split
    | dsimp -zeta only

theorem countMem_keeps {u mpa : Nat} {ctlReg : Nat → Nat → Nat} {partReg : Nat → Nat → Nat} (hK : Keeps kc kn F old s) (hT : Within 4 F := by exact within_of rfl (by assumption)) :
    Keeps kc kn F old (State.countMem s u mpa ctlReg partReg) := by
  unfold State.countMem
  repeat' first
    | with_reducible assumption
    | exact within_of rfl hT
    | with_reducible apply inc_keeps
    | (have x : True := trivial
       extract_lets +onlyGivenNames x
       first
       | ((first
           | (have z := x; guard_hyp z : State; clear z; refine keeps_via (x := x) ?_ (fun hx => ?_))
           | (have z := x.2; guard_hyp z : State; clear z; refine keeps_via (x := x.2) ?_ (fun hx => ?_))
           | (have z := x.2.2; guard_hyp z : State; clear z; refine keeps_via (x := x.2.2) ?_ (fun hx => ?_))
           | (have z := x.1; guard_hyp z : State; clear z; refine keeps_via (x := x.1) ?_ (fun hx => ?_)))
          rotate_left
          try clear_value x
          rotate_right
          dsimp -zeta only [x])
       | (fail_if_success (have z := x; guard_hyp z : True)
          try clear_value x))
    | with_reducible refine keeps_fst (by with_reducible assumption) ?_
    | with_reducible refine keeps_snd (by with_reducible assumption) ?_
    | with_reducible refine keeps_thd (by with_reducible assumption) ?_
    | split
    | dsimp -zeta only

theorem tagStored_keeps {u line : Nat} (hK : Keeps kc kn F old s) (hT : Within 512 F := by exact within_of rfl (by assumption)) :
    Keeps kc kn F old (State.tagStored s u line) := by
  unfold State.tagStored
  repeat' first
    | with_reducible assumption
    | exact within_of rfl hT
    | with_reducible intro _
    | with_reducible apply modUnit_keeps
    | ((with_reducible refine keeps_mk rfl ?_); first | with_reducible assumption | exact within_of rfl hT | (with_reducible apply modUnit_keeps) | split | dsimp only)
    | dsimp only

theorem tagAccess_keeps {u mpa : Nat} {write : Bool} (hK : Keeps kc kn F old s) (hT : Within 1540 F := by exact within_of rfl (by assumption)) :
    Keeps kc kn F old (State.tagAccess s u mpa write) := by
  unfold State.tagAccess
  repeat' first
    | with_reducible assumption
    | exact within_of rfl hT
    | with_reducible intro _
    | with_reducible apply inc_keeps
    | with_reducible apply tagStored_keeps
    | (have x : True := trivial
       extract_lets +onlyGivenNames x
       first
       | ((first
           | (have z := x; guard_hyp z : State; clear z; refine keeps_via (x := x) ?_ (fun hx => ?_))
           | (have z := x.2; guard_hyp z : State; clear z; refine keeps_via (x := x.2) ?_ (fun hx => ?_))
           | (have z := x.2.2; guard_hyp z : State; clear z; refine keeps_via (x := x.2.2) ?_ (fun hx => ?_))
           | (have z := x.1; guard_hyp z : State; clear z; refine keeps_via (x := x.1) ?_ (fun hx => ?_)))
          rotate_left
          try clear_value x
          rotate_right
          dsimp -zeta only [x])
       | (fail_if_success (have z := x; guard_hyp z : True)
          try clear_value x))
    | ((with_reducible refine keeps_mk rfl ?_); first | with_reducible assumption | exact within_of rfl hT | (with_reducible apply inc_keeps) | (with_reducible apply tagStored_keeps) | split | dsimp -zeta only)
    | with_reducible refine keeps_fst (by with_reducible assumption) ?_
    | with_reducible refine keeps_snd (by with_reducible assumption) ?_
    | with_reducible refine keeps_thd (by with_reducible assumption) ?_
    | split
    | dsimp -zeta only

theorem qualify_keeps {u block : Nat} {patrol : Bool} (hK : Keeps kc kn F old s) (hT : Within 6656 F := by exact within_of rfl (by assumption)) :
    Keeps kc kn F old (State.qualify s u block patrol) := by
  unfold State.qualify
  repeat' first
    | with_reducible assumption
    | exact within_of rfl hT
    | with_reducible intro _
    | with_reducible apply modUnit_keeps
    | with_reducible apply logErr_keeps
    | with_reducible apply block_keeps
    | (have x : True := trivial
       extract_lets +onlyGivenNames x
       first
       | ((first
           | (have z := x; guard_hyp z : State; clear z; refine keeps_via (x := x) ?_ (fun hx => ?_))
           | (have z := x.2; guard_hyp z : State; clear z; refine keeps_via (x := x.2) ?_ (fun hx => ?_))
           | (have z := x.2.2; guard_hyp z : State; clear z; refine keeps_via (x := x.2.2) ?_ (fun hx => ?_))
           | (have z := x.1; guard_hyp z : State; clear z; refine keeps_via (x := x.1) ?_ (fun hx => ?_)))
          rotate_left
          try clear_value x
          rotate_right
          dsimp -zeta only [x])
       | (fail_if_success (have z := x; guard_hyp z : True)
          try clear_value x))
    | ((with_reducible refine keeps_mk rfl ?_); first | with_reducible assumption | exact within_of rfl hT | (with_reducible apply modUnit_keeps) | (with_reducible apply logErr_keeps) | (with_reducible apply block_keeps) | split | dsimp -zeta only)
    | split
    | dsimp -zeta only

theorem takeForged_keeps {mpa : Nat} {left : List Nat} (hK : Keeps kc kn F old s) (hT : Within 8 F := by exact within_of rfl (by assumption)) :
    Keeps kc kn F old (State.takeForged s mpa left) := by
  unfold State.takeForged
  repeat' first
    | with_reducible assumption
    | exact within_of rfl hT
    | with_reducible intro _
    | with_reducible apply poke_keeps
    | with_reducible apply take_keeps
    | (have x : True := trivial
       extract_lets +onlyGivenNames x
       first
       | ((first
           | (have z := x; guard_hyp z : State; clear z; refine keeps_via (x := x) ?_ (fun hx => ?_))
           | (have z := x.2; guard_hyp z : State; clear z; refine keeps_via (x := x.2) ?_ (fun hx => ?_))
           | (have z := x.2.2; guard_hyp z : State; clear z; refine keeps_via (x := x.2.2) ?_ (fun hx => ?_))
           | (have z := x.1; guard_hyp z : State; clear z; refine keeps_via (x := x.1) ?_ (fun hx => ?_)))
          rotate_left
          try clear_value x
          rotate_right
          dsimp -zeta only [x])
       | (fail_if_success (have z := x; guard_hyp z : True)
          try clear_value x))
    | split
    | dsimp -zeta only

theorem readLine_keeps {mpa : Nat} {e : ReadErr} {patrol : Bool} (hK : Keeps kc kn F old s) (hT : Within 10737475340 F := by exact within_of rfl (by assumption)) :
    Keeps kc kn F old (State.readLine s mpa e patrol).2 := by
  unfold State.readLine
  repeat' first
    | with_reducible assumption
    | exact within_of rfl hT
    | with_reducible apply hF
    | with_reducible apply hF4
    | with_reducible intro _
    | with_reducible apply modUnit_keeps
    | with_reducible apply logErr_keeps
    | with_reducible apply memRecord_keeps
    | with_reducible apply countMem_keeps
    | with_reducible apply tagAccess_keeps
    | with_reducible apply qualify_keeps
    | with_reducible apply takeForged_keeps
    | with_reducible apply corrected_keeps
    | (have x : True := trivial
       extract_lets +onlyGivenNames x
       first
       | ((first
           | (have z := x; guard_hyp z : State; clear z; refine keeps_via (x := x) ?_ (fun hx => ?_))
           | (have z := x.2; guard_hyp z : State; clear z; refine keeps_via (x := x.2) ?_ (fun hx => ?_))
           | (have z := x.2.2; guard_hyp z : State; clear z; refine keeps_via (x := x.2.2) ?_ (fun hx => ?_))
           | (have z := x.1; guard_hyp z : State; clear z; refine keeps_via (x := x.1) ?_ (fun hx => ?_))
           | (have z := x; guard_hyp z : State → State; clear z; refine keeps_viaF0 (f := x) ?_ (fun hF => ?_))
           | refine keeps_viaF (f := x) ?_ (fun hF => ?_)
           | refine keeps_viaF2 (f := x) ?_ (fun hF => ?_)
           | refine keeps_viaG (f := x) ?_ (fun hF => ?_)
           | refine keeps_viaH (f := x) ?_ (fun hF => ?_)
           | refine keeps_viaP (f := x) ?_ (fun hF => ?_)
           | refine keeps_viaF4 (f := x) ?_ (fun hF4 => ?_))
          rotate_left
          try clear_value x
          rotate_right
          dsimp -zeta only [x])
       | (fail_if_success (have z := x; guard_hyp z : True)
          try clear_value x))
    | ((with_reducible refine keeps_mk rfl ?_); first | with_reducible assumption | exact within_of rfl hT | (with_reducible apply modUnit_keeps) | (with_reducible apply logErr_keeps) | (with_reducible apply memRecord_keeps) | (with_reducible apply countMem_keeps) | (with_reducible apply tagAccess_keeps) | (with_reducible apply qualify_keeps) | (with_reducible apply takeForged_keeps) | (with_reducible apply corrected_keeps) | split | dsimp -zeta only)
    | with_reducible refine keeps_fst (by with_reducible assumption) ?_
    | with_reducible refine keeps_snd (by with_reducible assumption) ?_
    | with_reducible refine keeps_thd (by with_reducible assumption) ?_
    | split
    | dsimp -zeta only

theorem storedLines_keeps {mpa n : Nat} (hK : Keeps kc kn F old s) (hT : Within 1540 F := by exact within_of rfl (by assumption)) :
    Keeps kc kn F old (State.storedLines s mpa n) := by
  unfold State.storedLines
  repeat' first
    | with_reducible assumption
    | exact within_of rfl hT
    | with_reducible intro _
    | with_reducible apply modUnit_keeps
    | with_reducible apply tagAccess_keeps
    | with_reducible apply foldS_keeps
    | (have x : True := trivial
       extract_lets +onlyGivenNames x
       first
       | ((first
           | (have z := x; guard_hyp z : State; clear z; refine keeps_via (x := x) ?_ (fun hx => ?_))
           | (have z := x.2; guard_hyp z : State; clear z; refine keeps_via (x := x.2) ?_ (fun hx => ?_))
           | (have z := x.2.2; guard_hyp z : State; clear z; refine keeps_via (x := x.2.2) ?_ (fun hx => ?_))
           | (have z := x.1; guard_hyp z : State; clear z; refine keeps_via (x := x.1) ?_ (fun hx => ?_)))
          rotate_left
          try clear_value x
          rotate_right
          dsimp -zeta only [x])
       | (fail_if_success (have z := x; guard_hyp z : True)
          try clear_value x))
    | ((with_reducible refine keeps_mk rfl ?_); first | with_reducible assumption | exact within_of rfl hT | (with_reducible apply modUnit_keeps) | (with_reducible apply tagAccess_keeps) | with_reducible apply foldS_keeps | split | dsimp -zeta only)
    | with_reducible refine keeps_fst (by with_reducible assumption) ?_
    | with_reducible refine keeps_snd (by with_reducible assumption) ?_
    | with_reducible refine keeps_thd (by with_reducible assumption) ?_
    | split
    | dsimp -zeta only

theorem checkLines_keeps {lines : List Nat} {errs : List (Nat × ReadErr)} (hK : Keeps kc kn F old s) (hT : Within 10737475340 F := by exact within_of rfl (by assumption)) :
    Keeps kc kn F old (State.checkLines s lines errs).2 := by
  induction lines generalizing s errs with
  | nil =>
    unfold State.checkLines
    repeat' first
      | with_reducible assumption
      | exact within_of rfl hT
      | with_reducible apply readLine_keeps
      | (have x : True := trivial
         extract_lets +onlyGivenNames x
         first
         | ((first
             | (have z := x; guard_hyp z : State; clear z; refine keeps_via (x := x) ?_ (fun hx => ?_))
             | (have z := x.2; guard_hyp z : State; clear z; refine keeps_via (x := x.2) ?_ (fun hx => ?_))
             | (have z := x.2.2; guard_hyp z : State; clear z; refine keeps_via (x := x.2.2) ?_ (fun hx => ?_))
             | (have z := x.1; guard_hyp z : State; clear z; refine keeps_via (x := x.1) ?_ (fun hx => ?_)))
            rotate_left
            try clear_value x
            rotate_right
            dsimp -zeta only [x])
         | (fail_if_success (have z := x; guard_hyp z : True)
            try clear_value x))
      | ((with_reducible refine keeps_mk rfl ?_); first | with_reducible assumption | exact within_of rfl hT | (with_reducible apply readLine_keeps) | split | dsimp -zeta only)
      | with_reducible refine keeps_fst (by with_reducible assumption) ?_
      | with_reducible refine keeps_snd (by with_reducible assumption) ?_
      | with_reducible refine keeps_thd (by with_reducible assumption) ?_
      | split
      | dsimp -zeta only
  | cons y ys ih =>
    unfold State.checkLines
    repeat' first
      | with_reducible assumption
      | exact within_of rfl hT
      | with_reducible apply ih
      | with_reducible apply readLine_keeps
      | (have x : True := trivial
         extract_lets +onlyGivenNames x
         first
         | ((first
             | (have z := x; guard_hyp z : State; clear z; refine keeps_via (x := x) ?_ (fun hx => ?_))
             | (have z := x.2; guard_hyp z : State; clear z; refine keeps_via (x := x.2) ?_ (fun hx => ?_))
             | (have z := x.2.2; guard_hyp z : State; clear z; refine keeps_via (x := x.2.2) ?_ (fun hx => ?_))
             | (have z := x.1; guard_hyp z : State; clear z; refine keeps_via (x := x.1) ?_ (fun hx => ?_)))
            rotate_left
            try clear_value x
            rotate_right
            dsimp -zeta only [x])
         | (fail_if_success (have z := x; guard_hyp z : True)
            try clear_value x))
      | ((with_reducible refine keeps_mk rfl ?_); first | with_reducible assumption | exact within_of rfl hT | (with_reducible apply ih) | (with_reducible apply readLine_keeps) | split | dsimp -zeta only)
      | with_reducible refine keeps_fst (by with_reducible assumption) ?_
      | with_reducible refine keeps_snd (by with_reducible assumption) ?_
      | with_reducible refine keeps_thd (by with_reducible assumption) ?_
      | split
      | dsimp -zeta only

theorem writeMpa_keeps {mpa : Nat} {bs : List Byte} {errs : List (Nat × ReadErr)} (hK : Keeps kc kn F old s) (hT : Within 10737475340 F := by exact within_of rfl (by assumption)) :
    Keeps kc kn F old (State.writeMpa s mpa bs errs).2 := by
  unfold State.writeMpa
  repeat' first
    | with_reducible assumption
    | exact within_of rfl hT
    | with_reducible apply poke_keeps
    | with_reducible apply storedLines_keeps
    | with_reducible apply checkLines_keeps
    | (have x : True := trivial
       extract_lets +onlyGivenNames x
       first
       | ((first
           | (have z := x; guard_hyp z : State; clear z; refine keeps_via (x := x) ?_ (fun hx => ?_))
           | (have z := x.2; guard_hyp z : State; clear z; refine keeps_via (x := x.2) ?_ (fun hx => ?_))
           | (have z := x.2.2; guard_hyp z : State; clear z; refine keeps_via (x := x.2.2) ?_ (fun hx => ?_))
           | (have z := x.1; guard_hyp z : State; clear z; refine keeps_via (x := x.1) ?_ (fun hx => ?_)))
          rotate_left
          try clear_value x
          rotate_right
          dsimp -zeta only [x])
       | (fail_if_success (have z := x; guard_hyp z : True)
          try clear_value x))
    | split
    | dsimp -zeta only

theorem readLines_keeps {lines : List Nat} {errs : List (Nat × ReadErr)} (hK : Keeps kc kn F old s) (hT : Within 10737475340 F := by exact within_of rfl (by assumption)) :
    Keeps kc kn F old (State.readLines s lines errs).2 := by
  induction lines generalizing s errs with
  | nil =>
    unfold State.readLines
    repeat' first
      | with_reducible assumption
      | exact within_of rfl hT
      | with_reducible apply readLine_keeps
      | (have x : True := trivial
         extract_lets +onlyGivenNames x
         first
         | ((first
             | (have z := x; guard_hyp z : State; clear z; refine keeps_via (x := x) ?_ (fun hx => ?_))
             | (have z := x.2; guard_hyp z : State; clear z; refine keeps_via (x := x.2) ?_ (fun hx => ?_))
             | (have z := x.2.2; guard_hyp z : State; clear z; refine keeps_via (x := x.2.2) ?_ (fun hx => ?_))
             | (have z := x.1; guard_hyp z : State; clear z; refine keeps_via (x := x.1) ?_ (fun hx => ?_)))
            rotate_left
            try clear_value x
            rotate_right
            dsimp -zeta only [x])
         | (fail_if_success (have z := x; guard_hyp z : True)
            try clear_value x))
      | ((with_reducible refine keeps_mk rfl ?_); first | with_reducible assumption | exact within_of rfl hT | (with_reducible apply readLine_keeps) | split | dsimp -zeta only)
      | with_reducible refine keeps_fst (by with_reducible assumption) ?_
      | with_reducible refine keeps_snd (by with_reducible assumption) ?_
      | with_reducible refine keeps_thd (by with_reducible assumption) ?_
      | split
      | dsimp -zeta only
  | cons y ys ih =>
    unfold State.readLines
    repeat' first
      | with_reducible assumption
      | exact within_of rfl hT
      | with_reducible apply ih
      | with_reducible apply readLine_keeps
      | (have x : True := trivial
         extract_lets +onlyGivenNames x
         first
         | ((first
             | (have z := x; guard_hyp z : State; clear z; refine keeps_via (x := x) ?_ (fun hx => ?_))
             | (have z := x.2; guard_hyp z : State; clear z; refine keeps_via (x := x.2) ?_ (fun hx => ?_))
             | (have z := x.2.2; guard_hyp z : State; clear z; refine keeps_via (x := x.2.2) ?_ (fun hx => ?_))
             | (have z := x.1; guard_hyp z : State; clear z; refine keeps_via (x := x.1) ?_ (fun hx => ?_)))
            rotate_left
            try clear_value x
            rotate_right
            dsimp -zeta only [x])
         | (fail_if_success (have z := x; guard_hyp z : True)
            try clear_value x))
      | ((with_reducible refine keeps_mk rfl ?_); first | with_reducible assumption | exact within_of rfl hT | (with_reducible apply ih) | (with_reducible apply readLine_keeps) | split | dsimp -zeta only)
      | with_reducible refine keeps_fst (by with_reducible assumption) ?_
      | with_reducible refine keeps_snd (by with_reducible assumption) ?_
      | with_reducible refine keeps_thd (by with_reducible assumption) ?_
      | split
      | dsimp -zeta only

theorem reachUnit_keeps {src : Option Nat} {a : Nat} (hK : Keeps kc kn F old s) (hT : Within 10813032366 F := by exact within_of rfl (by assumption)) :
    Keeps kc kn F old (State.reachUnit s src a) := by
  unfold State.reachUnit
  repeat' first
    | with_reducible assumption
    | exact within_of rfl hT
    | with_reducible intro _
    | with_reducible apply reach_keeps
    | with_reducible apply foldS_keeps
    | ((with_reducible refine keeps_mk rfl ?_); first | with_reducible assumption | exact within_of rfl hT | (with_reducible apply reach_keeps) | with_reducible apply foldS_keeps | split | dsimp only)
    | with_reducible refine keeps_fst (by with_reducible assumption) ?_
    | with_reducible refine keeps_snd (by with_reducible assumption) ?_
    | with_reducible refine keeps_thd (by with_reducible assumption) ?_
    | split
    | dsimp only

theorem fetchP_keeps {src : Option Nat} {p pma n : Nat} {errs : List (Nat × ReadErr)} (hK : Keeps kc kn F old s) (hT : Within 10813038510 F := by exact within_of rfl (by assumption)) :
    Keeps kc kn F old (State.fetchP s src p pma n errs).2.2 := by
  unfold State.fetchP
  repeat' first
    | with_reducible assumption
    | exact within_of rfl hT
    | with_reducible apply readLines_keeps
    | with_reducible apply reachUnit_keeps
    | (have x : True := trivial
       extract_lets +onlyGivenNames x
       first
       | ((first
           | (have z := x; guard_hyp z : State; clear z; refine keeps_via (x := x) ?_ (fun hx => ?_))
           | (have z := x.2; guard_hyp z : State; clear z; refine keeps_via (x := x.2) ?_ (fun hx => ?_))
           | (have z := x.2.2; guard_hyp z : State; clear z; refine keeps_via (x := x.2.2) ?_ (fun hx => ?_))
           | (have z := x.1; guard_hyp z : State; clear z; refine keeps_via (x := x.1) ?_ (fun hx => ?_)))
          rotate_left
          try clear_value x
          rotate_right
          dsimp -zeta only [x])
       | (fail_if_success (have z := x; guard_hyp z : True)
          try clear_value x))
    | split
    | dsimp -zeta only

theorem storeP_keeps {src : Option Nat} {p pma : Nat} {bs : List Byte} {errs : List (Nat × ReadErr)} (hK : Keeps kc kn F old s) (hT : Within 10813038510 F := by exact within_of rfl (by assumption)) :
    Keeps kc kn F old (State.storeP s src p pma bs errs).2 := by
  unfold State.storeP
  repeat' first
    | with_reducible assumption
    | exact within_of rfl hT
    | with_reducible intro _
    | with_reducible apply pokeP_keeps
    | with_reducible apply storedLines_keeps
    | with_reducible apply checkLines_keeps
    | with_reducible apply reachUnit_keeps
    | with_reducible apply foldS_keeps
    | (have x : True := trivial
       extract_lets +onlyGivenNames x
       first
       | ((first
           | (have z := x; guard_hyp z : State; clear z; refine keeps_via (x := x) ?_ (fun hx => ?_))
           | (have z := x.2; guard_hyp z : State; clear z; refine keeps_via (x := x.2) ?_ (fun hx => ?_))
           | (have z := x.2.2; guard_hyp z : State; clear z; refine keeps_via (x := x.2.2) ?_ (fun hx => ?_))
           | (have z := x.1; guard_hyp z : State; clear z; refine keeps_via (x := x.1) ?_ (fun hx => ?_)))
          rotate_left
          try clear_value x
          rotate_right
          dsimp -zeta only [x])
       | (fail_if_success (have z := x; guard_hyp z : True)
          try clear_value x))
    | split
    | dsimp -zeta only

theorem fetchMpa_keeps {src : Option Nat} {mpa n : Nat} {errs : List (Nat × ReadErr)} (hK : Keeps kc kn F old s) (hT : Within 10813038510 F := by exact within_of rfl (by assumption)) :
    Keeps kc kn F old (State.fetchMpa s src mpa n errs).2.2 := by
  unfold State.fetchMpa
  repeat' first
    | with_reducible assumption
    | exact within_of rfl hT
    | with_reducible intro _
    | with_reducible apply readLines_keeps
    | with_reducible apply reachUnit_keeps
    | (have x : True := trivial
       extract_lets +onlyGivenNames x
       first
       | ((first
           | (have z := x; guard_hyp z : State; clear z; refine keeps_via (x := x) ?_ (fun hx => ?_))
           | (have z := x.2; guard_hyp z : State; clear z; refine keeps_via (x := x.2) ?_ (fun hx => ?_))
           | (have z := x.2.2; guard_hyp z : State; clear z; refine keeps_via (x := x.2.2) ?_ (fun hx => ?_))
           | (have z := x.1; guard_hyp z : State; clear z; refine keeps_via (x := x.1) ?_ (fun hx => ?_)))
          rotate_left
          try clear_value x
          rotate_right
          dsimp -zeta only [x])
       | (fail_if_success (have z := x; guard_hyp z : True)
          try clear_value x))
    | split
    | dsimp -zeta only

theorem storeMpa_keeps {src : Option Nat} {mpa : Nat} {bs : List Byte} {errs : List (Nat × ReadErr)} (hK : Keeps kc kn F old s) (hT : Within 10813038510 F := by exact within_of rfl (by assumption)) :
    Keeps kc kn F old (State.storeMpa s src mpa bs errs).2 := by
  unfold State.storeMpa
  repeat' first | with_reducible assumption | exact within_of rfl hT | with_reducible apply writeMpa_keeps | with_reducible apply reachUnit_keeps | dsimp only

theorem patrolData_keeps {u i : Nat} {e : ReadErr} (hK : Keeps kc kn F old s) (hT : Within 10737475340 F := by exact within_of rfl (by assumption)) :
    Keeps kc kn F old (State.patrolData s u i e) := by
  unfold State.patrolData
  repeat' first
    | with_reducible assumption
    | exact within_of rfl hT
    | with_reducible intro _
    | with_reducible apply modUnit_keeps
    | with_reducible apply qualify_keeps
    | with_reducible apply readLine_keeps
    | with_reducible apply corrected_keeps
    | (have x : True := trivial
       extract_lets +onlyGivenNames x
       first
       | ((first
           | (have z := x; guard_hyp z : State; clear z; refine keeps_via (x := x) ?_ (fun hx => ?_))
           | (have z := x.2; guard_hyp z : State; clear z; refine keeps_via (x := x.2) ?_ (fun hx => ?_))
           | (have z := x.2.2; guard_hyp z : State; clear z; refine keeps_via (x := x.2.2) ?_ (fun hx => ?_))
           | (have z := x.1; guard_hyp z : State; clear z; refine keeps_via (x := x.1) ?_ (fun hx => ?_)))
          rotate_left
          try clear_value x
          rotate_right
          dsimp -zeta only [x])
       | (fail_if_success (have z := x; guard_hyp z : True)
          try clear_value x))
    | ((with_reducible refine keeps_mk rfl ?_); first | with_reducible assumption | exact within_of rfl hT | (with_reducible apply modUnit_keeps) | (with_reducible apply qualify_keeps) | (with_reducible apply readLine_keeps) | (with_reducible apply corrected_keeps) | split | dsimp -zeta only)
    | with_reducible refine keeps_fst (by with_reducible assumption) ?_
    | with_reducible refine keeps_snd (by with_reducible assumption) ?_
    | with_reducible refine keeps_thd (by with_reducible assumption) ?_
    | split
    | dsimp -zeta only

theorem patrolTag_keeps {u j : Nat} {e : ReadErr} (hK : Keeps kc kn F old s) (hT : Within 10737457924 F := by exact within_of rfl (by assumption)) :
    Keeps kc kn F old (State.patrolTag s u j e) := by
  unfold State.patrolTag
  repeat' first
    | with_reducible assumption
    | exact within_of rfl hT
    | with_reducible apply hF
    | with_reducible apply hF4
    | with_reducible intro _
    | with_reducible apply inc_keeps
    | with_reducible apply modUnit_keeps
    | with_reducible apply fsr_keeps
    | with_reducible apply logAt_keeps
    | (have x : True := trivial
       extract_lets +onlyGivenNames x
       first
       | ((first
           | (have z := x; guard_hyp z : State; clear z; refine keeps_via (x := x) ?_ (fun hx => ?_))
           | (have z := x.2; guard_hyp z : State; clear z; refine keeps_via (x := x.2) ?_ (fun hx => ?_))
           | (have z := x.2.2; guard_hyp z : State; clear z; refine keeps_via (x := x.2.2) ?_ (fun hx => ?_))
           | (have z := x.1; guard_hyp z : State; clear z; refine keeps_via (x := x.1) ?_ (fun hx => ?_))
           | (have z := x; guard_hyp z : State → State; clear z; refine keeps_viaF0 (f := x) ?_ (fun hF => ?_))
           | refine keeps_viaF (f := x) ?_ (fun hF => ?_)
           | refine keeps_viaF2 (f := x) ?_ (fun hF => ?_)
           | refine keeps_viaG (f := x) ?_ (fun hF => ?_)
           | refine keeps_viaH (f := x) ?_ (fun hF => ?_)
           | refine keeps_viaP (f := x) ?_ (fun hF => ?_)
           | refine keeps_viaF4 (f := x) ?_ (fun hF4 => ?_))
          rotate_left
          try clear_value x
          rotate_right
          dsimp -zeta only [x])
       | (fail_if_success (have z := x; guard_hyp z : True)
          try clear_value x))
    | ((with_reducible refine keeps_mk rfl ?_); first | with_reducible assumption | exact within_of rfl hT | (with_reducible apply inc_keeps) | (with_reducible apply modUnit_keeps) | (with_reducible apply fsr_keeps) | (with_reducible apply logAt_keeps) | split | dsimp -zeta only)
    | with_reducible refine keeps_fst (by with_reducible assumption) ?_
    | with_reducible refine keeps_snd (by with_reducible assumption) ?_
    | with_reducible refine keeps_thd (by with_reducible assumption) ?_
    | split
    | dsimp -zeta only

theorem errPop_keeps {m v : Nat} (hK : Keeps kc kn F old s) (hT : Within 2048 F := by exact within_of rfl (by assumption)) :
    Keeps kc kn F old (State.errPop s m v) := by
  unfold State.errPop
  repeat' first
    | with_reducible assumption
    | exact within_of rfl hT
    | (have x : True := trivial
       extract_lets +onlyGivenNames x
       first
       | ((first
           | (have z := x; guard_hyp z : State; clear z; refine keeps_via (x := x) ?_ (fun hx => ?_))
           | (have z := x.2; guard_hyp z : State; clear z; refine keeps_via (x := x.2) ?_ (fun hx => ?_))
           | (have z := x.2.2; guard_hyp z : State; clear z; refine keeps_via (x := x.2.2) ?_ (fun hx => ?_))
           | (have z := x.1; guard_hyp z : State; clear z; refine keeps_via (x := x.1) ?_ (fun hx => ?_)))
          rotate_left
          try clear_value x
          rotate_right
          dsimp -zeta only [x])
       | (fail_if_success (have z := x; guard_hyp z : True)
          try clear_value x))
    | ((with_reducible refine keeps_mk rfl ?_); first | with_reducible assumption | exact within_of rfl hT | split | dsimp -zeta only)
    | with_reducible refine keeps_fst (by with_reducible assumption) ?_
    | with_reducible refine keeps_snd (by with_reducible assumption) ?_
    | with_reducible refine keeps_thd (by with_reducible assumption) ?_
    | split
    | dsimp -zeta only

theorem execLineRead_keeps {mpa : Nat} {e : ReadErr} {t : Nat} (hK : Keeps kc kn F old s) (hT : Within 10813038511 F := by exact within_of rfl (by assumption)) :
    NextKeeps kc kn F old (execLineRead mpa e t s) := by
  unfold execLineRead
  repeat' first
    | with_reducible assumption
    | with_reducible apply next_keeps
    | with_reducible exact fault_keeps
    | exact within_of rfl hT
    | with_reducible apply tick_keeps
    | with_reducible apply send_keeps
    | with_reducible apply reach_keeps
    | with_reducible apply readLine_keeps
    | (have x : True := trivial
       extract_lets +onlyGivenNames x
       first
       | ((first
           | (have z := x; guard_hyp z : State; clear z; refine keeps_via (x := x) ?_ (fun hx => ?_))
           | (have z := x; guard_hyp z : State; clear z; refine next_via (x := x) ?_ (fun hx => ?_))
           | (have z := x.2; guard_hyp z : State; clear z; refine keeps_via (x := x.2) ?_ (fun hx => ?_))
           | (have z := x.2; guard_hyp z : State; clear z; refine next_via (x := x.2) ?_ (fun hx => ?_))
           | (have z := x.2.2; guard_hyp z : State; clear z; refine keeps_via (x := x.2.2) ?_ (fun hx => ?_))
           | (have z := x.2.2; guard_hyp z : State; clear z; refine next_via (x := x.2.2) ?_ (fun hx => ?_))
           | (have z := x.1; guard_hyp z : State; clear z; refine keeps_via (x := x.1) ?_ (fun hx => ?_))
           | (have z := x.1; guard_hyp z : State; clear z; refine next_via (x := x.1) ?_ (fun hx => ?_)))
          rotate_left
          try clear_value x
          rotate_right
          dsimp -zeta only [x])
       | (fail_if_success (have z := x; guard_hyp z : True)
          try clear_value x))
    | ((with_reducible refine keeps_mk rfl ?_); first | with_reducible assumption | exact within_of rfl hT | (with_reducible apply tick_keeps) | (with_reducible apply send_keeps) | (with_reducible apply reach_keeps) | (with_reducible apply readLine_keeps) | split | dsimp -zeta only)
    | with_reducible refine keeps_fst (by with_reducible assumption) ?_
    | with_reducible refine keeps_snd (by with_reducible assumption) ?_
    | with_reducible refine keeps_thd (by with_reducible assumption) ?_
    | split
    | dsimp -zeta only

theorem execLineWrite_keeps {mpa : Nat} {data : List Byte} {e1 e2 : ReadErr} {t : Nat} (hK : Keeps kc kn F old s) (hT : Within 10813038511 F := by exact within_of rfl (by assumption)) :
    NextKeeps kc kn F old (execLineWrite mpa data e1 e2 t s) := by
  unfold execLineWrite
  repeat' first
    | with_reducible assumption
    | with_reducible apply next_keeps
    | with_reducible exact fault_keeps
    | exact within_of rfl hT
    | with_reducible apply tick_keeps
    | with_reducible apply send_keeps
    | with_reducible apply reach_keeps
    | with_reducible apply writeMpa_keeps
    | (have x : True := trivial
       extract_lets +onlyGivenNames x
       first
       | ((first
           | (have z := x; guard_hyp z : State; clear z; refine keeps_via (x := x) ?_ (fun hx => ?_))
           | (have z := x; guard_hyp z : State; clear z; refine next_via (x := x) ?_ (fun hx => ?_))
           | (have z := x.2; guard_hyp z : State; clear z; refine keeps_via (x := x.2) ?_ (fun hx => ?_))
           | (have z := x.2; guard_hyp z : State; clear z; refine next_via (x := x.2) ?_ (fun hx => ?_))
           | (have z := x.2.2; guard_hyp z : State; clear z; refine keeps_via (x := x.2.2) ?_ (fun hx => ?_))
           | (have z := x.2.2; guard_hyp z : State; clear z; refine next_via (x := x.2.2) ?_ (fun hx => ?_))
           | (have z := x.1; guard_hyp z : State; clear z; refine keeps_via (x := x.1) ?_ (fun hx => ?_))
           | (have z := x.1; guard_hyp z : State; clear z; refine next_via (x := x.1) ?_ (fun hx => ?_)))
          rotate_left
          try clear_value x
          rotate_right
          dsimp -zeta only [x])
       | (fail_if_success (have z := x; guard_hyp z : True)
          try clear_value x))
    | ((with_reducible refine keeps_mk rfl ?_); first | with_reducible assumption | exact within_of rfl hT | (with_reducible apply tick_keeps) | (with_reducible apply send_keeps) | (with_reducible apply reach_keeps) | (with_reducible apply writeMpa_keeps) | split | dsimp -zeta only)
    | with_reducible refine keeps_fst (by with_reducible assumption) ?_
    | with_reducible refine keeps_snd (by with_reducible assumption) ?_
    | with_reducible refine keeps_thd (by with_reducible assumption) ?_
    | split
    | dsimp -zeta only

theorem execCorrectionWriteback_keeps {mpa : Nat} (hK : Keeps kc kn F old s) (hT : Within 512 F := by exact within_of rfl (by assumption)) :
    NextKeeps kc kn F old (execCorrectionWriteback mpa s) := by
  unfold execCorrectionWriteback
  repeat' first
    | with_reducible assumption
    | with_reducible apply next_keeps
    | with_reducible exact fault_keeps
    | exact within_of rfl hT
    | with_reducible intro _
    | with_reducible apply modUnit_keeps
    | ((with_reducible refine keeps_mk rfl ?_); first | with_reducible assumption | exact within_of rfl hT | (with_reducible apply modUnit_keeps) | split | dsimp only)
    | with_reducible refine keeps_fst (by with_reducible assumption) ?_
    | with_reducible refine keeps_snd (by with_reducible assumption) ?_
    | with_reducible refine keeps_thd (by with_reducible assumption) ?_
    | split
    | dsimp only

theorem execBlockRetire_keeps {unit : Fin 20} {block : Nat} {t : Nat} (hK : Keeps kc kn F old s) (hT : Within 6657 F := by exact within_of rfl (by assumption)) :
    NextKeeps kc kn F old (execBlockRetire unit block t s) := by
  unfold execBlockRetire
  repeat' first
    | with_reducible assumption
    | with_reducible apply next_keeps
    | with_reducible exact fault_keeps
    | exact within_of rfl hT
    | with_reducible intro _
    | with_reducible apply tick_keeps
    | with_reducible apply modUnit_keeps
    | with_reducible apply logErr_keeps
    | with_reducible apply block_keeps
    | (have x : True := trivial
       extract_lets +onlyGivenNames x
       first
       | ((first
           | (have z := x; guard_hyp z : State; clear z; refine keeps_via (x := x) ?_ (fun hx => ?_))
           | (have z := x; guard_hyp z : State; clear z; refine next_via (x := x) ?_ (fun hx => ?_))
           | (have z := x.2; guard_hyp z : State; clear z; refine keeps_via (x := x.2) ?_ (fun hx => ?_))
           | (have z := x.2; guard_hyp z : State; clear z; refine next_via (x := x.2) ?_ (fun hx => ?_))
           | (have z := x.2.2; guard_hyp z : State; clear z; refine keeps_via (x := x.2.2) ?_ (fun hx => ?_))
           | (have z := x.2.2; guard_hyp z : State; clear z; refine next_via (x := x.2.2) ?_ (fun hx => ?_))
           | (have z := x.1; guard_hyp z : State; clear z; refine keeps_via (x := x.1) ?_ (fun hx => ?_))
           | (have z := x.1; guard_hyp z : State; clear z; refine next_via (x := x.1) ?_ (fun hx => ?_)))
          rotate_left
          try clear_value x
          rotate_right
          dsimp -zeta only [x])
       | (fail_if_success (have z := x; guard_hyp z : True)
          try clear_value x))
    | ((with_reducible refine keeps_mk rfl ?_); first | with_reducible assumption | exact within_of rfl hT | (with_reducible apply tick_keeps) | (with_reducible apply modUnit_keeps) | (with_reducible apply logErr_keeps) | (with_reducible apply block_keeps) | split | dsimp -zeta only)
    | split
    | dsimp -zeta only

theorem execPatrolRead_keeps {unit : Fin 20} {e : ReadErr} {t : Nat} (hK : Keeps kc kn F old s) (hT : Within 10737475341 F := by exact within_of rfl (by assumption)) :
    NextKeeps kc kn F old (execPatrolRead unit e t s) := by
  unfold execPatrolRead
  repeat' first
    | with_reducible assumption
    | with_reducible apply next_keeps
    | with_reducible exact fault_keeps
    | exact within_of rfl hT
    | with_reducible intro _
    | with_reducible apply tick_keeps
    | with_reducible apply modUnit_keeps
    | with_reducible apply patrolData_keeps
    | with_reducible apply patrolTag_keeps
    | with_reducible apply on_keeps
    | (have x : True := trivial
       extract_lets +onlyGivenNames x
       first
       | ((first
           | (have z := x; guard_hyp z : State; clear z; refine keeps_via (x := x) ?_ (fun hx => ?_))
           | (have z := x; guard_hyp z : State; clear z; refine next_via (x := x) ?_ (fun hx => ?_))
           | (have z := x.2; guard_hyp z : State; clear z; refine keeps_via (x := x.2) ?_ (fun hx => ?_))
           | (have z := x.2; guard_hyp z : State; clear z; refine next_via (x := x.2) ?_ (fun hx => ?_))
           | (have z := x.2.2; guard_hyp z : State; clear z; refine keeps_via (x := x.2.2) ?_ (fun hx => ?_))
           | (have z := x.2.2; guard_hyp z : State; clear z; refine next_via (x := x.2.2) ?_ (fun hx => ?_))
           | (have z := x.1; guard_hyp z : State; clear z; refine keeps_via (x := x.1) ?_ (fun hx => ?_))
           | (have z := x.1; guard_hyp z : State; clear z; refine next_via (x := x.1) ?_ (fun hx => ?_)))
          rotate_left
          try clear_value x
          rotate_right
          dsimp -zeta only [x])
       | (fail_if_success (have z := x; guard_hyp z : True)
          try clear_value x))
    | ((with_reducible refine keeps_mk rfl ?_); first | with_reducible assumption | exact within_of rfl hT | (with_reducible apply tick_keeps) | (with_reducible apply modUnit_keeps) | (with_reducible apply patrolData_keeps) | (with_reducible apply patrolTag_keeps) | (with_reducible apply on_keeps) | split | dsimp -zeta only)
    | with_reducible refine keeps_fst (by with_reducible assumption) ?_
    | with_reducible refine keeps_snd (by with_reducible assumption) ?_
    | with_reducible refine keeps_thd (by with_reducible assumption) ?_
    | split
    | dsimp -zeta only

theorem execMemErrPop_keeps {h : CmdHdr} {inst : Fin 5} {value : Word} (hK : Keeps kc kn F old s) (hT : Within 10846588847 F := by exact within_of rfl (by assumption)) :
    NextKeeps kc kn F old (execMemErrPop h inst value s) := by
  unfold execMemErrPop
  repeat' first
    | with_reducible assumption
    | with_reducible apply next_keeps
    | with_reducible exact fault_keeps
    | exact within_of rfl hT
    | with_reducible intro _
    | with_reducible apply ans_keeps
    | with_reducible apply regCommand_keeps
    | with_reducible apply errPop_keeps
    | dsimp only

end Sys2Proof.Machine
end

