-- ==== Sys2Proof/Laws/KeepsOperands.lean ====
section
/-! SUPPORT. What the operations of Machine/Operands.lean keep: one lemma for each. -/

namespace Sys2Proof.Machine

set_option linter.all false
set_option Elab.async false

variable {kc kn : Bool} {F : Field → Bool} {old s : State}

theorem setKnot_keeps {p st k v : Nat} (hK : Keeps kc kn F old s) (hT : Within 96 F := by exact within_of rfl (by assumption)) :
    Keeps kc kn F old (State.setKnot s p st k v) := by
  unfold State.setKnot
  repeat' first
    | with_reducible assumption
    | exact within_of rfl hT
    | with_reducible intro _
    | with_reducible apply modStrand_keeps
    | ((with_reducible refine keeps_mk rfl ?_); first | with_reducible assumption | exact within_of rfl hT | (with_reducible apply modStrand_keeps) | split | dsimp only)
    | split
    | dsimp only

theorem signalKnot_keeps {p st k n : Nat} (hK : Keeps kc kn F old s) (hT : Within 96 F := by exact within_of rfl (by assumption)) :
    Keeps kc kn F old (State.signalKnot s p st k n).1 := by
  unfold State.signalKnot
  repeat' first
    | with_reducible assumption
    | exact within_of rfl hT
    | with_reducible apply setKnot_keeps
    | (have x : True := trivial
       extract_lets +onlyGivenNames x
       first
       | ((first
           | (have z := x; guard_hyp z : State; clear z; refine keeps_via (x := x) ?_ (fun hx => ?_))
           | (have z := x.2; guard_hyp z : State; clear z; refine keeps_via (x := x.2) ?_ (fun hx => ?_))
           | (have z := x.2.2; guard_hyp z : State; clear z; refine keeps_via (x := x.2.2) ?_ (fun hx => ?_))
           | (have z := x.1; guard_hyp z : State; clear z; refine keeps_via (x := x.1) ?_ (fun hx => ?_)))
          rotate_left
          try clear_value x
          rotate_right
          dsimp -zeta only [x])
       | (fail_if_success (have z := x; guard_hyp z : True)
          try clear_value x))
    | split
    | dsimp -zeta only

theorem takeWait_keeps {p st : Nat} {w : HitchWord} (hK : Keeps kc kn F old s) (hT : Within 96 F := by exact within_of rfl (by assumption)) :
    Keeps kc kn F old (State.takeWait s p st w) := by
  unfold State.takeWait
  repeat' first | with_reducible assumption | exact within_of rfl hT | with_reducible apply setKnot_keeps | split | dsimp only

theorem markHead_keeps {st : Nat} (hK : Keeps kc kn F old s) (hT : Within 32 F := by exact within_of rfl (by assumption)) :
    Keeps kc kn F old (State.markHead s st) := by
  unfold State.markHead
  repeat' first
    | with_reducible assumption
    | exact within_of rfl hT
    | with_reducible intro _
    | with_reducible apply modStrand_keeps
    | ((with_reducible refine keeps_mk rfl ?_); first | with_reducible assumption | exact within_of rfl hT | (with_reducible apply modStrand_keeps) | split | dsimp only)
    | with_reducible refine keeps_fst (by with_reducible assumption) ?_
    | with_reducible refine keeps_snd (by with_reducible assumption) ?_
    | with_reducible refine keeps_thd (by with_reducible assumption) ?_
    | split
    | dsimp only

theorem reachEngine_keeps {st op : Nat} (hK : Keeps kc kn F old s) (hT : Within 10813032366 F := by exact within_of rfl (by assumption)) :
    Keeps kc kn F old (State.reachEngine s st op) := by
  unfold State.reachEngine
  repeat' first
    | with_reducible assumption
    | exact within_of rfl hT
    | with_reducible apply reach_keeps
    | (have x : True := trivial
       extract_lets +onlyGivenNames x
       first
       | ((first
           | (have z := x; guard_hyp z : State; clear z; refine keeps_via (x := x) ?_ (fun hx => ?_))
           | (have z := x.2; guard_hyp z : State; clear z; refine keeps_via (x := x.2) ?_ (fun hx => ?_))
           | (have z := x.2.2; guard_hyp z : State; clear z; refine keeps_via (x := x.2.2) ?_ (fun hx => ?_))
           | (have z := x.1; guard_hyp z : State; clear z; refine keeps_via (x := x.1) ?_ (fun hx => ?_)))
          rotate_left
          try clear_value x
          rotate_right
          dsimp -zeta only [x])
       | (fail_if_success (have z := x; guard_hyp z : True)
          try clear_value x))
    | split
    | dsimp -zeta only

theorem issue_keeps {st op : Nat} {sub : HitchWord → Bool} {x : Run} {y : State} (e : State.issue s st op sub = some (x, y))
    (hK : Keeps kc kn F old s) (hT : Within 10813032430 F := by exact within_of rfl (by assumption)) : Keeps kc kn F old y := by
  unfold State.issue at e
  split at e
  · dsimp only at e
    split at e
    · cases e
      exact reachEngine_keeps (takeWait_keeps hK)
    · cases e
  · cases e

theorem setPhase_keeps {st id : Nat} {ph : Phase} {digest : Nat} (hK : Keeps kc kn F old s) (hT : Within 32 F := by exact within_of rfl (by assumption)) :
    Keeps kc kn F old (State.setPhase s st id ph digest) := by
  unfold State.setPhase
  repeat' first
    | with_reducible assumption
    | exact within_of rfl hT
    | with_reducible intro _
    | with_reducible apply modStrand_keeps
    | with_reducible apply markHead_keeps
    | ((with_reducible refine keeps_mk rfl ?_); first | with_reducible assumption | exact within_of rfl hT | (with_reducible apply modStrand_keeps) | (with_reducible apply markHead_keeps) | split | dsimp only)
    | split
    | dsimp only

theorem finish_keeps {r : Run} {status digest : Nat} (hK : Keeps kc kn F old s) (hT : Within 32 F := by exact within_of rfl (by assumption)) :
    Keeps kc kn F old (State.finish s r status digest) := by
  unfold State.finish
  repeat' first | with_reducible assumption | exact within_of rfl hT | with_reducible apply setPhase_keeps | dsimp only

theorem running_keeps {r : Run} (hK : Keeps kc kn F old s) (hT : Within 32 F := by exact within_of rfl (by assumption)) :
    Keeps kc kn F old (State.running s r) := by
  unfold State.running
  repeat' first | with_reducible assumption | exact within_of rfl hT | with_reducible apply setPhase_keeps | dsimp only

theorem badScratch_keeps {st line : Nat} (hK : Keeps kc kn F old s) (hT : Within 36 F := by exact within_of rfl (by assumption)) :
    Keeps kc kn F old (State.badScratch s st line) := by
  unfold State.badScratch
  repeat' first
    | with_reducible assumption
    | exact within_of rfl hT
    | with_reducible intro _
    | with_reducible apply setReg_keeps
    | with_reducible apply inc_keeps
    | with_reducible apply modStrand_keeps
    | (have x : True := trivial
       extract_lets +onlyGivenNames x
       first
       | ((first
           | (have z := x; guard_hyp z : State; clear z; refine keeps_via (x := x) ?_ (fun hx => ?_))
           | (have z := x.2; guard_hyp z : State; clear z; refine keeps_via (x := x.2) ?_ (fun hx => ?_))
           | (have z := x.2.2; guard_hyp z : State; clear z; refine keeps_via (x := x.2.2) ?_ (fun hx => ?_))
           | (have z := x.1; guard_hyp z : State; clear z; refine keeps_via (x := x.1) ?_ (fun hx => ?_)))
          rotate_left
          try clear_value x
          rotate_right
          dsimp -zeta only [x])
       | (fail_if_success (have z := x; guard_hyp z : True)
          try clear_value x))
    | ((with_reducible refine keeps_mk rfl ?_); first | with_reducible assumption | exact within_of rfl hT | (with_reducible apply setReg_keeps) | (with_reducible apply inc_keeps) | (with_reducible apply modStrand_keeps) | split | dsimp -zeta only)
    | split
    | dsimp -zeta only

theorem scratchUpset_keeps {st : Nat} {u : Upset} {rs : List (Nat × Nat)} (hK : Keeps kc kn F old s) (hT : Within 36 F := by exact within_of rfl (by assumption)) :
    Keeps kc kn F old (State.scratchUpset s st u rs).2 := by
  unfold State.scratchUpset
  repeat' first
    | with_reducible assumption
    | exact within_of rfl hT
    | with_reducible intro _
    | with_reducible apply bump_keeps
    | with_reducible apply modStrand_keeps
    | with_reducible apply badScratch_keeps
    | (have x : True := trivial
       extract_lets +onlyGivenNames x
       first
       | ((first
           | (have z := x; guard_hyp z : State; clear z; refine keeps_via (x := x) ?_ (fun hx => ?_))
           | (have z := x.2; guard_hyp z : State; clear z; refine keeps_via (x := x.2) ?_ (fun hx => ?_))
           | (have z := x.2.2; guard_hyp z : State; clear z; refine keeps_via (x := x.2.2) ?_ (fun hx => ?_))
           | (have z := x.1; guard_hyp z : State; clear z; refine keeps_via (x := x.1) ?_ (fun hx => ?_)))
          rotate_left
          try clear_value x
          rotate_right
          dsimp -zeta only [x])
       | (fail_if_success (have z := x; guard_hyp z : True)
          try clear_value x))
    | ((with_reducible refine keeps_mk rfl ?_); first | with_reducible assumption | exact within_of rfl hT | (with_reducible apply bump_keeps) | (with_reducible apply modStrand_keeps) | (with_reducible apply badScratch_keeps) | split | dsimp -zeta only)
    | with_reducible refine keeps_fst (by with_reducible assumption) ?_
    | with_reducible refine keeps_snd (by with_reducible assumption) ?_
    | with_reducible refine keeps_thd (by with_reducible assumption) ?_
    | split
    | dsimp -zeta only

theorem wrote_keeps {a n : Nat} (hK : Keeps kc kn F old s) (hT : Within 32 F := by exact within_of rfl (by assumption)) :
    Keeps kc kn F old (State.wrote s a n) := by
  unfold State.wrote
  repeat' first
    | with_reducible assumption
    | exact within_of rfl hT
    | with_reducible intro _
    | with_reducible apply modStrand_keeps
    | (have x : True := trivial
       extract_lets +onlyGivenNames x
       first
       | ((first
           | (have z := x; guard_hyp z : State; clear z; refine keeps_via (x := x) ?_ (fun hx => ?_))
           | (have z := x.2; guard_hyp z : State; clear z; refine keeps_via (x := x.2) ?_ (fun hx => ?_))
           | (have z := x.2.2; guard_hyp z : State; clear z; refine keeps_via (x := x.2.2) ?_ (fun hx => ?_))
           | (have z := x.1; guard_hyp z : State; clear z; refine keeps_via (x := x.1) ?_ (fun hx => ?_)))
          rotate_left
          try clear_value x
          rotate_right
          dsimp -zeta only [x])
       | (fail_if_success (have z := x; guard_hyp z : True)
          try clear_value x))
    | ((with_reducible refine keeps_mk rfl ?_); first | with_reducible assumption | exact within_of rfl hT | (with_reducible apply modStrand_keeps) | split | dsimp -zeta only)
    | with_reducible refine keeps_fst (by with_reducible assumption) ?_
    | with_reducible refine keeps_snd (by with_reducible assumption) ?_
    | with_reducible refine keeps_thd (by with_reducible assumption) ?_
    | split
    | dsimp -zeta only

theorem put_keeps {a : Nat} {bs : List Byte} (hK : Keeps kc kn F old s) (hT : Within 40 F := by exact within_of rfl (by assumption)) :
    Keeps kc kn F old (State.put s a bs) := by
  unfold State.put
  repeat' first | with_reducible assumption | exact within_of rfl hT | with_reducible apply poke_keeps | with_reducible apply wrote_keeps | dsimp only

theorem residueUpset_keeps {st : Nat} {u : Upset} (hK : Keeps kc kn F old s) (hT : Within 4 F := by exact within_of rfl (by assumption)) :
    Keeps kc kn F old (State.residueUpset s st u).2 := by
  unfold State.residueUpset
  repeat' first | with_reducible assumption | exact within_of rfl hT | with_reducible apply inc_keeps | split | dsimp only

theorem runHitch_keeps {st op : Nat} {sub : HitchWord → Bool} {u : Upset} {reads : Run → State → List (Nat × Nat)} {f : Run → State → Nat × Nat × State} (hKf : ∀ x0 s, Keeps kc kn F old s → Keeps kc kn F old (f x0 s).2.2) (hK : Keeps kc kn F old s) (hT : Within 10813032430 F := by exact within_of rfl (by assumption)) :
    Keeps kc kn F old (State.runHitch s st op sub u reads f) := by
  unfold State.runHitch
  repeat' first
    | with_reducible assumption
    | exact within_of rfl hT
    | with_reducible apply hKf
    | with_reducible apply finish_keeps
    | with_reducible apply scratchUpset_keeps
    | with_reducible apply issue_keeps (by with_reducible assumption)
    | (have x : True := trivial
       extract_lets +onlyGivenNames x
       first
       | ((first
           | (have z := x; guard_hyp z : State; clear z; refine keeps_via (x := x) ?_ (fun hx => ?_))
           | (have z := x.2; guard_hyp z : State; clear z; refine keeps_via (x := x.2) ?_ (fun hx => ?_))
           | (have z := x.2.2; guard_hyp z : State; clear z; refine keeps_via (x := x.2.2) ?_ (fun hx => ?_))
           | (have z := x.1; guard_hyp z : State; clear z; refine keeps_via (x := x.1) ?_ (fun hx => ?_)))
          rotate_left
          try clear_value x
          rotate_right
          dsimp -zeta only [x])
       | (fail_if_success (have z := x; guard_hyp z : True)
          try clear_value x))
    | ((with_reducible refine keeps_mk rfl ?_); first | with_reducible assumption | exact within_of rfl hT | (with_reducible apply hKf) | (with_reducible apply finish_keeps) | (with_reducible apply scratchUpset_keeps) | (with_reducible apply issue_keeps (by with_reducible assumption)) | split | dsimp -zeta only)
    | with_reducible refine keeps_fst (by with_reducible assumption) ?_
    | with_reducible refine keeps_snd (by with_reducible assumption) ?_
    | with_reducible refine keeps_thd (by with_reducible assumption) ?_
    | split
    | dsimp -zeta only

theorem usedRandom_keeps {r : Run} {count : Nat} (hK : Keeps kc kn F old s) (hT : Within 2 F := by exact within_of rfl (by assumption)) :
    Keeps kc kn F old (State.usedRandom s r count) := by
  unfold State.usedRandom
  repeat' first | with_reducible assumption | exact within_of rfl hT | ((with_reducible refine keeps_mk rfl ?_); first | with_reducible assumption | exact within_of rfl hT | split | dsimp only) | split | dsimp only

end Sys2Proof.Machine
end

