-- ==== Sys2Proof/Laws/KeepsFlags.lean ====
section
/-! SUPPORT. What the operations of Machine/Flags.lean keep: one lemma for each. -/

namespace Sys2Proof.Machine

set_option linter.all false
set_option Elab.async false

variable {kc kn : Bool} {F : Field → Bool} {old s : State}

theorem arith_keeps {st f : Nat} (hK : Keeps kc kn F old s) (hT : Within 4 F := by exact within_of rfl (by assumption)) :
    Keeps kc kn F old (State.arith s st f) := by
  unfold State.arith
  repeat' first | with_reducible assumption | exact within_of rfl hT | with_reducible apply setFlags_keeps | dsimp only

theorem clearFlags_keeps {a v coincident : Nat} (hK : Keeps kc kn F old s) (hT : Within 4 F := by exact within_of rfl (by assumption)) :
    Keeps kc kn F old (State.clearFlags s a v coincident) := by
  unfold State.clearFlags
  repeat' first | with_reducible assumption | exact within_of rfl hT | with_reducible apply setReg_keeps | dsimp only

end Sys2Proof.Machine
end

