-- ==== Sys2Proof/Laws/KeepsMatrix.lean ====
section
/-! SUPPORT. What the operations of Machine/Matrix.lean keep: one lemma for each. -/

namespace Sys2Proof.Machine

set_option linter.all false
set_option Elab.async false

variable {kc kn : Bool} {F : Field → Bool} {old s : State}

/-- As runHitch_keeps, with the body's result named. -/
theorem runHitch_keepsE {st op : Nat} {sub : HitchWord → Bool} {u : Upset} {rd : Run → State → List (Nat × Nat)} {f : Run → State → Nat × Nat × State}
    (hf : ∀ r s y, Keeps kc kn F old s → f r s = y → Keeps kc kn F old y.2.2) (hK : Keeps kc kn F old s) (hT : Within 10813032430 F := by exact within_of rfl (by assumption)) :
    Keeps kc kn F old (s.runHitch st op sub u rd f) :=
  runHitch_keeps (fun r s h => hf r s _ h rfl) hK

theorem accCounted_keeps {st : Nat} {a : Acc} {u : Upset} (hK : Keeps kc kn F old s) (hT : Within 4 F := by exact within_of rfl (by assumption)) :
    Keeps kc kn F old (State.accCounted s st a u) := by
  unfold State.accCounted
  repeat' first
    | with_reducible assumption
    | exact within_of rfl hT
    | with_reducible apply bump_keeps
    | with_reducible apply inc_keeps
    | (have x : True := trivial
       extract_lets +onlyGivenNames x
       first
       | ((first
           | (have z := x; guard_hyp z : State; clear z; refine keeps_via (x := x) ?_ (fun hx => ?_))
           | (have z := x.2; guard_hyp z : State; clear z; refine keeps_via (x := x.2) ?_ (fun hx => ?_))
           | (have z := x.2.2; guard_hyp z : State; clear z; refine keeps_via (x := x.2.2) ?_ (fun hx => ?_))
           | (have z := x.1; guard_hyp z : State; clear z; refine keeps_via (x := x.1) ?_ (fun hx => ?_)))
          rotate_left
          try clear_value x
          rotate_right
          dsimp -zeta only [x])
       | (fail_if_success (have z := x; guard_hyp z : True)
          try clear_value x))
    | split
    | dsimp -zeta only

theorem accCheck_keeps {st : Nat} {a : Acc} {u : Upset} (hK : Keeps kc kn F old s) (hT : Within 4 F := by exact within_of rfl (by assumption)) :
    Keeps kc kn F old (State.accCheck s st a u).2 := by
  unfold State.accCheck
  repeat' first
    | with_reducible assumption
    | exact within_of rfl hT
    | with_reducible apply setReg_keeps
    | with_reducible apply bump_keeps
    | with_reducible apply inc_keeps
    | with_reducible apply accCounted_keeps
    | (have x : True := trivial
       extract_lets +onlyGivenNames x
       first
       | ((first
           | (have z := x; guard_hyp z : State; clear z; refine keeps_via (x := x) ?_ (fun hx => ?_))
           | (have z := x.2; guard_hyp z : State; clear z; refine keeps_via (x := x.2) ?_ (fun hx => ?_))
           | (have z := x.2.2; guard_hyp z : State; clear z; refine keeps_via (x := x.2.2) ?_ (fun hx => ?_))
           | (have z := x.1; guard_hyp z : State; clear z; refine keeps_via (x := x.1) ?_ (fun hx => ?_)))
          rotate_left
          try clear_value x
          rotate_right
          dsimp -zeta only [x])
       | (fail_if_success (have z := x; guard_hyp z : True)
          try clear_value x))
    | split
    | dsimp -zeta only

theorem setAcc_keeps {st : Nat} {a : Acc} (hK : Keeps kc kn F old s) (hT : Within 32 F := by exact within_of rfl (by assumption)) :
    Keeps kc kn F old (State.setAcc s st a) := by
  unfold State.setAcc
  repeat' first
    | with_reducible assumption
    | exact within_of rfl hT
    | with_reducible intro _
    | with_reducible apply modStrand_keeps
    | ((with_reducible refine keeps_mk rfl ?_); first | with_reducible assumption | exact within_of rfl hT | (with_reducible apply modStrand_keeps) | split | dsimp only)
    | dsimp only

theorem macBusy_keeps {st cycles : Nat} (hK : Keeps kc kn F old s) (hT : Within 36 F := by exact within_of rfl (by assumption)) :
    Keeps kc kn F old (State.macBusy s st cycles) := by
  unfold State.macBusy
  repeat' first
    | with_reducible assumption
    | exact within_of rfl hT
    | with_reducible intro _
    | with_reducible apply bump_keeps
    | with_reducible apply modStrand_keeps
    | (have x : True := trivial
       extract_lets +onlyGivenNames x
       first
       | ((first
           | (have z := x; guard_hyp z : State; clear z; refine keeps_via (x := x) ?_ (fun hx => ?_))
           | (have z := x.2; guard_hyp z : State; clear z; refine keeps_via (x := x.2) ?_ (fun hx => ?_))
           | (have z := x.2.2; guard_hyp z : State; clear z; refine keeps_via (x := x.2.2) ?_ (fun hx => ?_))
           | (have z := x.1; guard_hyp z : State; clear z; refine keeps_via (x := x.1) ?_ (fun hx => ?_)))
          rotate_left
          try clear_value x
          rotate_right
          dsimp -zeta only [x])
       | (fail_if_success (have z := x; guard_hyp z : True)
          try clear_value x))
    | ((with_reducible refine keeps_mk rfl ?_); first | with_reducible assumption | exact within_of rfl hT | (with_reducible apply bump_keeps) | (with_reducible apply modStrand_keeps) | split | dsimp -zeta only)
    | dsimp -zeta only

theorem putAll_keeps {ws : List (Nat × List Byte)} (hK : Keeps kc kn F old s) (hT : Within 40 F := by exact within_of rfl (by assumption)) :
    Keeps kc kn F old (State.putAll s ws) := by
  unfold State.putAll
  repeat' first
    | with_reducible assumption
    | exact within_of rfl hT
    | with_reducible intro _
    | with_reducible apply put_keeps
    | with_reducible apply foldS_keeps
    | dsimp only

theorem noteLost_keeps {r : Run} {lost : Bool} (hK : Keeps kc kn F old s) (hT : Within 4 F := by exact within_of rfl (by assumption)) :
    Keeps kc kn F old (State.noteLost s r lost) := by
  unfold State.noteLost
  repeat' first
    | with_reducible assumption
    | exact within_of rfl hT
    | with_reducible apply inc_keeps
    | with_reducible apply arith_keeps
    | split
    | dsimp only

theorem readoutWith_keeps {r : Run} {n count : Nat} {u : Upset} {emit : Acc → List Rnd → List (Nat × List Byte) × Nat} (hK : Keeps kc kn F old s) (hT : Within 46 F := by exact within_of rfl (by assumption)) :
    Keeps kc kn F old (State.readoutWith s r n count u emit).2.2 := by
  unfold State.readoutWith
  repeat' first
    | with_reducible assumption
    | exact within_of rfl hT
    | with_reducible apply usedRandom_keeps
    | with_reducible apply arith_keeps
    | with_reducible apply accCheck_keeps
    | with_reducible apply setAcc_keeps
    | with_reducible apply putAll_keeps
    | with_reducible apply noteLost_keeps
    | (have x : True := trivial
       extract_lets +onlyGivenNames x
       first
       | ((first
           | (have z := x; guard_hyp z : State; clear z; refine keeps_via (x := x) ?_ (fun hx => ?_))
           | (have z := x.2; guard_hyp z : State; clear z; refine keeps_via (x := x.2) ?_ (fun hx => ?_))
           | (have z := x.2.2; guard_hyp z : State; clear z; refine keeps_via (x := x.2.2) ?_ (fun hx => ?_))
           | (have z := x.1; guard_hyp z : State; clear z; refine keeps_via (x := x.1) ?_ (fun hx => ?_)))
          rotate_left
          try clear_value x
          rotate_right
          dsimp -zeta only [x])
       | (fail_if_success (have z := x; guard_hyp z : True)
          try clear_value x))
    | split
    | dsimp -zeta only

theorem noReadout_keeps {r : Run} {u : Upset} (hK : Keeps kc kn F old s) (hT : Within 36 F := by exact within_of rfl (by assumption)) :
    Keeps kc kn F old (State.noReadout s r u).2.2 := by
  unfold State.noReadout
  repeat' first
    | with_reducible assumption
    | exact within_of rfl hT
    | with_reducible apply bump_keeps
    | with_reducible apply inc_keeps
    | with_reducible apply setAcc_keeps
    | (have x : True := trivial
       extract_lets +onlyGivenNames x
       first
       | ((first
           | (have z := x; guard_hyp z : State; clear z; refine keeps_via (x := x) ?_ (fun hx => ?_))
           | (have z := x.2; guard_hyp z : State; clear z; refine keeps_via (x := x.2) ?_ (fun hx => ?_))
           | (have z := x.2.2; guard_hyp z : State; clear z; refine keeps_via (x := x.2.2) ?_ (fun hx => ?_))
           | (have z := x.1; guard_hyp z : State; clear z; refine keeps_via (x := x.1) ?_ (fun hx => ?_)))
          rotate_left
          try clear_value x
          rotate_right
          dsimp -zeta only [x])
       | (fail_if_success (have z := x; guard_hyp z : True)
          try clear_value x))
    | split
    | dsimp -zeta only

theorem matmulStep_keeps {r : Run} {c : MatJob} (hK : Keeps kc kn F old s) (hT : Within 36 F := by exact within_of rfl (by assumption)) :
    Keeps kc kn F old (State.matmulStep s r c) := by
  unfold State.matmulStep
  repeat' first
    | with_reducible assumption
    | exact within_of rfl hT
    | with_reducible apply arith_keeps
    | with_reducible apply setAcc_keeps
    | with_reducible apply macBusy_keeps
    | (have x : True := trivial
       extract_lets +onlyGivenNames x
       first
       | ((first
           | (have z := x; guard_hyp z : State; clear z; refine keeps_via (x := x) ?_ (fun hx => ?_))
           | (have z := x.2; guard_hyp z : State; clear z; refine keeps_via (x := x.2) ?_ (fun hx => ?_))
           | (have z := x.2.2; guard_hyp z : State; clear z; refine keeps_via (x := x.2.2) ?_ (fun hx => ?_))
           | (have z := x.1; guard_hyp z : State; clear z; refine keeps_via (x := x.1) ?_ (fun hx => ?_)))
          rotate_left
          try clear_value x
          rotate_right
          dsimp -zeta only [x])
       | (fail_if_success (have z := x; guard_hyp z : True)
          try clear_value x))
    | ((with_reducible refine keeps_mk rfl ?_); first | with_reducible assumption | exact within_of rfl hT | (with_reducible apply arith_keeps) | (with_reducible apply setAcc_keeps) | (with_reducible apply macBusy_keeps) | split | dsimp -zeta only)
    | split
    | dsimp -zeta only

theorem matmulBody_keeps {r : Run} {u : Upset} (hK : Keeps kc kn F old s) (hT : Within 46 F := by exact within_of rfl (by assumption)) :
    Keeps kc kn F old (State.matmulBody s r u).2.2 := by
  unfold State.matmulBody
  repeat' first
    | with_reducible assumption
    | exact within_of rfl hT
    | with_reducible intro _
    | with_reducible apply readoutWith_keeps
    | with_reducible apply noReadout_keeps
    | with_reducible apply matmulStep_keeps
    | (have x : True := trivial
       extract_lets +onlyGivenNames x
       first
       | ((first
           | (have z := x; guard_hyp z : State; clear z; refine keeps_via (x := x) ?_ (fun hx => ?_))
           | (have z := x.2; guard_hyp z : State; clear z; refine keeps_via (x := x.2) ?_ (fun hx => ?_))
           | (have z := x.2.2; guard_hyp z : State; clear z; refine keeps_via (x := x.2.2) ?_ (fun hx => ?_))
           | (have z := x.1; guard_hyp z : State; clear z; refine keeps_via (x := x.1) ?_ (fun hx => ?_)))
          rotate_left
          try clear_value x
          rotate_right
          dsimp -zeta only [x])
       | (fail_if_success (have z := x; guard_hyp z : True)
          try clear_value x))
    | split
    | dsimp -zeta only

theorem accSaveBody_keeps {r : Run} {u : Upset} {y : Nat × Nat × State} (hK : Keeps kc kn F old s)
    (e : State.accSaveBody s r u = y) (hT : Within 44 F := by exact within_of rfl (by assumption)) : Keeps kc kn F old y.2.2 := by
  rw [State.accSaveBody.eq_1] at e
  simp only [] at e
  split at e
  · subst e
    exact hK
  · have h1 : ∀ a, Keeps kc kn F old (State.accCheck ((s.setAcc r.st a).macBusy r.st 117) r.st a u).2 := fun _ =>
      accCheck_keeps (macBusy_keeps (setAcc_keeps hK))
    split at e
    · subst e
      exact h1 _
    · subst e
      exact put_keeps (h1 _)

theorem accRestoreBody_keeps {r : Run} {u : Upset} {y : Nat × Nat × State} (hK : Keeps kc kn F old s)
    (e : State.accRestoreBody s r u = y) (hT : Within 36 F := by exact within_of rfl (by assumption)) : Keeps kc kn F old y.2.2 := by
  rw [State.accRestoreBody.eq_1] at e
  split at e
  · subst e
    exact hK
  · split at e
    · subst e
      exact hK
    · subst e
      exact accCheck_keeps (macBusy_keeps (setAcc_keeps hK))

theorem execMatmul_keeps {st : Fin 128} {u : Upset} (hK : Keeps kc kn F old s) (hT : Within 10813032430 F := by exact within_of rfl (by assumption)) :
    NextKeeps kc kn F old (execMatmul st u s) := by
  unfold execMatmul
  repeat' first
    | with_reducible assumption
    | with_reducible apply next_keeps
    | with_reducible exact fault_keeps
    | exact within_of rfl hT
    | with_reducible intro _
    | with_reducible apply runHitch_keeps
    | with_reducible apply matmulBody_keeps
    | dsimp only

theorem execAccSave_keeps {st : Fin 128} {u : Upset} (hK : Keeps kc kn F old s) (hT : Within 10813032430 F := by exact within_of rfl (by assumption)) :
    NextKeeps kc kn F old (execAccSave st u s) :=
  next_keeps (runHitch_keepsE (fun _ _ _ h e => accSaveBody_keeps h e) hK)

theorem execAccRestore_keeps {st : Fin 128} {u : Upset} (hK : Keeps kc kn F old s) (hT : Within 10813032430 F := by exact within_of rfl (by assumption)) :
    NextKeeps kc kn F old (execAccRestore st u s) :=
  next_keeps (runHitch_keepsE (fun _ _ _ h e => accRestoreBody_keeps h e) hK)

end Sys2Proof.Machine
end

