-- ==== Sys2Proof/Laws/KeepsVector.lean ====
section
/-! SUPPORT. What the operations of Machine/Vector.lean keep: one lemma for each. -/

namespace Sys2Proof.Machine

set_option linter.all false
set_option Elab.async false

variable {kc kn : Bool} {F : Field → Bool} {old s : State}

theorem setLanes_keeps {st r : Nat} {vs : List Nat} (hK : Keeps kc kn F old s) (hT : Within 32 F := by exact within_of rfl (by assumption)) :
    Keeps kc kn F old (State.setLanes s st r vs) := by
  unfold State.setLanes
  repeat' first
    | with_reducible assumption
    | exact within_of rfl hT
    | with_reducible intro _
    | with_reducible apply modStrand_keeps
    | with_reducible apply foldS_keeps
    | ((with_reducible refine keeps_mk rfl ?_); first | with_reducible assumption | exact within_of rfl hT | (with_reducible apply modStrand_keeps) | with_reducible apply foldS_keeps | split | dsimp only)
    | dsimp only

theorem vecResult_keeps {r : Run} {u : Upset} {rs : List (Nat × Nat)} (hK : Keeps kc kn F old s) (hT : Within 36 F := by exact within_of rfl (by assumption)) :
    Keeps kc kn F old (State.vecResult s r u rs).2.2 := by
  unfold State.vecResult
  repeat' first
    | with_reducible assumption
    | exact within_of rfl hT
    | with_reducible apply residueUpset_keeps
    | with_reducible apply arith_keeps
    | with_reducible apply setLanes_keeps
    | (have x : True := trivial
       extract_lets +onlyGivenNames x
       first
       | ((first
           | (have z := x; guard_hyp z : State; clear z; refine keeps_via (x := x) ?_ (fun hx => ?_))
           | (have z := x.2; guard_hyp z : State; clear z; refine keeps_via (x := x.2) ?_ (fun hx => ?_))
           | (have z := x.2.2; guard_hyp z : State; clear z; refine keeps_via (x := x.2.2) ?_ (fun hx => ?_))
           | (have z := x.1; guard_hyp z : State; clear z; refine keeps_via (x := x.1) ?_ (fun hx => ?_)))
          rotate_left
          try clear_value x
          rotate_right
          dsimp -zeta only [x])
       | (fail_if_success (have z := x; guard_hyp z : True)
          try clear_value x))
    | split
    | dsimp -zeta only

theorem runVec_keeps {st : Nat} {u : Upset} {vop : Nat} {f : List Nat → List Nat → List Nat → List (Nat × Nat)} (hK : Keeps kc kn F old s) (hT : Within 10813032430 F := by exact within_of rfl (by assumption)) :
    Keeps kc kn F old (State.runVec s st u vop f) := by
  unfold State.runVec
  repeat' first
    | with_reducible assumption
    | exact within_of rfl hT
    | with_reducible intro _
    | with_reducible apply runHitch_keeps
    | with_reducible apply vecResult_keeps
    | (have x : True := trivial
       extract_lets +onlyGivenNames x
       first
       | ((first
           | (have z := x; guard_hyp z : State; clear z; refine keeps_via (x := x) ?_ (fun hx => ?_))
           | (have z := x.2; guard_hyp z : State; clear z; refine keeps_via (x := x.2) ?_ (fun hx => ?_))
           | (have z := x.2.2; guard_hyp z : State; clear z; refine keeps_via (x := x.2.2) ?_ (fun hx => ?_))
           | (have z := x.1; guard_hyp z : State; clear z; refine keeps_via (x := x.1) ?_ (fun hx => ?_)))
          rotate_left
          try clear_value x
          rotate_right
          dsimp -zeta only [x])
       | (fail_if_success (have z := x; guard_hyp z : True)
          try clear_value x))
    | with_reducible refine keeps_fst (by with_reducible assumption) ?_
    | with_reducible refine keeps_snd (by with_reducible assumption) ?_
    | with_reducible refine keeps_thd (by with_reducible assumption) ?_
    | split
    | dsimp -zeta only

theorem convertBody_keeps {r : Run} {u : Upset} (hK : Keeps kc kn F old s) (hT : Within 46 F := by exact within_of rfl (by assumption)) :
    Keeps kc kn F old (State.convertBody s r u).2.2 := by
  unfold State.convertBody
  repeat' first
    | with_reducible assumption
    | exact within_of rfl hT
    | with_reducible intro _
    | with_reducible apply residueUpset_keeps
    | with_reducible apply usedRandom_keeps
    | with_reducible apply arith_keeps
    | with_reducible apply putAll_keeps
    | with_reducible apply decode_keeps
    | with_reducible apply foldl_keeps
    | (have x : True := trivial
       extract_lets +onlyGivenNames x
       first
       | ((first
           | (have z := x; guard_hyp z : State; clear z; refine keeps_via (x := x) ?_ (fun hx => ?_))
           | (have z := x.2; guard_hyp z : State; clear z; refine keeps_via (x := x.2) ?_ (fun hx => ?_))
           | (have z := x.2.2; guard_hyp z : State; clear z; refine keeps_via (x := x.2.2) ?_ (fun hx => ?_))
           | (have z := x.1; guard_hyp z : State; clear z; refine keeps_via (x := x.1) ?_ (fun hx => ?_)))
          rotate_left
          try clear_value x
          rotate_right
          dsimp -zeta only [x])
       | (fail_if_success (have z := x; guard_hyp z : True)
          try clear_value x))
    | split
    | dsimp -zeta only

theorem moveBody_keeps {r : Run} {u : Upset} (hK : Keeps kc kn F old s) (hT : Within 10813038510 F := by exact within_of rfl (by assumption)) :
    Keeps kc kn F old (State.moveBody s r u).2.2 := by
  unfold State.moveBody
  repeat' first
    | with_reducible assumption
    | exact within_of rfl hT
    | with_reducible apply fetchP_keeps
    | with_reducible apply storeP_keeps
    | with_reducible apply put_keeps
    | (have x : True := trivial
       extract_lets +onlyGivenNames x
       first
       | ((first
           | (have z := x; guard_hyp z : State; clear z; refine keeps_via (x := x) ?_ (fun hx => ?_))
           | (have z := x.2; guard_hyp z : State; clear z; refine keeps_via (x := x.2) ?_ (fun hx => ?_))
           | (have z := x.2.2; guard_hyp z : State; clear z; refine keeps_via (x := x.2.2) ?_ (fun hx => ?_))
           | (have z := x.1; guard_hyp z : State; clear z; refine keeps_via (x := x.1) ?_ (fun hx => ?_)))
          rotate_left
          try clear_value x
          rotate_right
          dsimp -zeta only [x])
       | (fail_if_success (have z := x; guard_hyp z : True)
          try clear_value x))
    | split
    | dsimp -zeta only

theorem telltaleBody_keeps {r : Run} {u : Upset} (hK : Keeps kc kn F old s) (hT : Within 10813038510 F := by exact within_of rfl (by assumption)) :
    Keeps kc kn F old (State.telltaleBody s r u).2.2 := by
  have hs : ∀ entry bs, Keeps kc kn F old (s.storeP (some r.die) r.p entry bs u.mem).2 := fun _ _ => storeP_keeps hK
  unfold State.telltaleBody
  simp only [hs, hK, apply_ite Prod.snd, apply_ite (Keeps kc kn F old), ite_self]

theorem execVAdd_keeps {st : Fin 128} {u : Upset} (hK : Keeps kc kn F old s) (hT : Within 10813032430 F := by exact within_of rfl (by assumption)) :
    NextKeeps kc kn F old (execVAdd st u s) := by
  unfold execVAdd
  repeat' first
    | with_reducible assumption
    | with_reducible apply next_keeps
    | with_reducible exact fault_keeps
    | exact within_of rfl hT
    | with_reducible apply runVec_keeps
    | dsimp only

theorem execVSub_keeps {st : Fin 128} {u : Upset} (hK : Keeps kc kn F old s) (hT : Within 10813032430 F := by exact within_of rfl (by assumption)) :
    NextKeeps kc kn F old (execVSub st u s) := by
  unfold execVSub
  repeat' first
    | with_reducible assumption
    | with_reducible apply next_keeps
    | with_reducible exact fault_keeps
    | exact within_of rfl hT
    | with_reducible apply runVec_keeps
    | dsimp only

theorem execVMul_keeps {st : Fin 128} {u : Upset} (hK : Keeps kc kn F old s) (hT : Within 10813032430 F := by exact within_of rfl (by assumption)) :
    NextKeeps kc kn F old (execVMul st u s) := by
  unfold execVMul
  repeat' first
    | with_reducible assumption
    | with_reducible apply next_keeps
    | with_reducible exact fault_keeps
    | exact within_of rfl hT
    | with_reducible apply runVec_keeps
    | dsimp only

theorem execVFma_keeps {st : Fin 128} {u : Upset} (hK : Keeps kc kn F old s) (hT : Within 10813032430 F := by exact within_of rfl (by assumption)) :
    NextKeeps kc kn F old (execVFma st u s) := by
  unfold execVFma
  repeat' first
    | with_reducible assumption
    | with_reducible apply next_keeps
    | with_reducible exact fault_keeps
    | exact within_of rfl hT
    | with_reducible apply runVec_keeps
    | dsimp only

theorem execVDiv_keeps {st : Fin 128} {u : Upset} (hK : Keeps kc kn F old s) (hT : Within 10813032430 F := by exact within_of rfl (by assumption)) :
    NextKeeps kc kn F old (execVDiv st u s) := by
  unfold execVDiv
  repeat' first
    | with_reducible assumption
    | with_reducible apply next_keeps
    | with_reducible exact fault_keeps
    | exact within_of rfl hT
    | with_reducible apply runVec_keeps
    | dsimp only

theorem execVSqrt_keeps {st : Fin 128} {u : Upset} (hK : Keeps kc kn F old s) (hT : Within 10813032430 F := by exact within_of rfl (by assumption)) :
    NextKeeps kc kn F old (execVSqrt st u s) := by
  unfold execVSqrt
  repeat' first
    | with_reducible assumption
    | with_reducible apply next_keeps
    | with_reducible exact fault_keeps
    | exact within_of rfl hT
    | with_reducible apply runVec_keeps
    | dsimp only

theorem execVRcp_keeps {st : Fin 128} {u : Upset} (hK : Keeps kc kn F old s) (hT : Within 10813032430 F := by exact within_of rfl (by assumption)) :
    NextKeeps kc kn F old (execVRcp st u s) := by
  unfold execVRcp
  repeat' first
    | with_reducible assumption
    | with_reducible apply next_keeps
    | with_reducible exact fault_keeps
    | exact within_of rfl hT
    | with_reducible apply runVec_keeps
    | dsimp only

theorem execVRsqrt_keeps {st : Fin 128} {u : Upset} (hK : Keeps kc kn F old s) (hT : Within 10813032430 F := by exact within_of rfl (by assumption)) :
    NextKeeps kc kn F old (execVRsqrt st u s) := by
  unfold execVRsqrt
  repeat' first
    | with_reducible assumption
    | with_reducible apply next_keeps
    | with_reducible exact fault_keeps
    | exact within_of rfl hT
    | with_reducible apply runVec_keeps
    | dsimp only

theorem execVExp2_keeps {st : Fin 128} {u : Upset} (hK : Keeps kc kn F old s) (hT : Within 10813032430 F := by exact within_of rfl (by assumption)) :
    NextKeeps kc kn F old (execVExp2 st u s) := by
  unfold execVExp2
  repeat' first
    | with_reducible assumption
    | with_reducible apply next_keeps
    | with_reducible exact fault_keeps
    | exact within_of rfl hT
    | with_reducible apply runVec_keeps
    | dsimp only

theorem execVLog2_keeps {st : Fin 128} {u : Upset} (hK : Keeps kc kn F old s) (hT : Within 10813032430 F := by exact within_of rfl (by assumption)) :
    NextKeeps kc kn F old (execVLog2 st u s) := by
  unfold execVLog2
  repeat' first
    | with_reducible assumption
    | with_reducible apply next_keeps
    | with_reducible exact fault_keeps
    | exact within_of rfl hT
    | with_reducible apply runVec_keeps
    | dsimp only

theorem execVExp_keeps {st : Fin 128} {u : Upset} (hK : Keeps kc kn F old s) (hT : Within 10813032430 F := by exact within_of rfl (by assumption)) :
    NextKeeps kc kn F old (execVExp st u s) := by
  unfold execVExp
  repeat' first
    | with_reducible assumption
    | with_reducible apply next_keeps
    | with_reducible exact fault_keeps
    | exact within_of rfl hT
    | with_reducible apply runVec_keeps
    | dsimp only

theorem execVLog_keeps {st : Fin 128} {u : Upset} (hK : Keeps kc kn F old s) (hT : Within 10813032430 F := by exact within_of rfl (by assumption)) :
    NextKeeps kc kn F old (execVLog st u s) := by
  unfold execVLog
  repeat' first
    | with_reducible assumption
    | with_reducible apply next_keeps
    | with_reducible exact fault_keeps
    | exact within_of rfl hT
    | with_reducible apply runVec_keeps
    | dsimp only

theorem execVTanh_keeps {st : Fin 128} {u : Upset} (hK : Keeps kc kn F old s) (hT : Within 10813032430 F := by exact within_of rfl (by assumption)) :
    NextKeeps kc kn F old (execVTanh st u s) := by
  unfold execVTanh
  repeat' first
    | with_reducible assumption
    | with_reducible apply next_keeps
    | with_reducible exact fault_keeps
    | exact within_of rfl hT
    | with_reducible apply runVec_keeps
    | dsimp only

theorem execVSigmoid_keeps {st : Fin 128} {u : Upset} (hK : Keeps kc kn F old s) (hT : Within 10813032430 F := by exact within_of rfl (by assumption)) :
    NextKeeps kc kn F old (execVSigmoid st u s) := by
  unfold execVSigmoid
  repeat' first
    | with_reducible assumption
    | with_reducible apply next_keeps
    | with_reducible exact fault_keeps
    | exact within_of rfl hT
    | with_reducible apply runVec_keeps
    | dsimp only

theorem execVSilu_keeps {st : Fin 128} {u : Upset} (hK : Keeps kc kn F old s) (hT : Within 10813032430 F := by exact within_of rfl (by assumption)) :
    NextKeeps kc kn F old (execVSilu st u s) := by
  unfold execVSilu
  repeat' first
    | with_reducible assumption
    | with_reducible apply next_keeps
    | with_reducible exact fault_keeps
    | exact within_of rfl hT
    | with_reducible apply runVec_keeps
    | dsimp only

theorem execVErf_keeps {st : Fin 128} {u : Upset} (hK : Keeps kc kn F old s) (hT : Within 10813032430 F := by exact within_of rfl (by assumption)) :
    NextKeeps kc kn F old (execVErf st u s) := by
  unfold execVErf
  repeat' first
    | with_reducible assumption
    | with_reducible apply next_keeps
    | with_reducible exact fault_keeps
    | exact within_of rfl hT
    | with_reducible apply runVec_keeps
    | dsimp only

theorem execVGelu_keeps {st : Fin 128} {u : Upset} (hK : Keeps kc kn F old s) (hT : Within 10813032430 F := by exact within_of rfl (by assumption)) :
    NextKeeps kc kn F old (execVGelu st u s) := by
  unfold execVGelu
  repeat' first
    | with_reducible assumption
    | with_reducible apply next_keeps
    | with_reducible exact fault_keeps
    | exact within_of rfl hT
    | with_reducible apply runVec_keeps
    | dsimp only

theorem execVSin_keeps {st : Fin 128} {u : Upset} (hK : Keeps kc kn F old s) (hT : Within 10813032430 F := by exact within_of rfl (by assumption)) :
    NextKeeps kc kn F old (execVSin st u s) := by
  unfold execVSin
  repeat' first
    | with_reducible assumption
    | with_reducible apply next_keeps
    | with_reducible exact fault_keeps
    | exact within_of rfl hT
    | with_reducible apply runVec_keeps
    | dsimp only

theorem execVCos_keeps {st : Fin 128} {u : Upset} (hK : Keeps kc kn F old s) (hT : Within 10813032430 F := by exact within_of rfl (by assumption)) :
    NextKeeps kc kn F old (execVCos st u s) := by
  unfold execVCos
  repeat' first
    | with_reducible assumption
    | with_reducible apply next_keeps
    | with_reducible exact fault_keeps
    | exact within_of rfl hT
    | with_reducible apply runVec_keeps
    | dsimp only

theorem execVMin_keeps {st : Fin 128} {u : Upset} (hK : Keeps kc kn F old s) (hT : Within 10813032430 F := by exact within_of rfl (by assumption)) :
    NextKeeps kc kn F old (execVMin st u s) := by
  unfold execVMin
  repeat' first
    | with_reducible assumption
    | with_reducible apply next_keeps
    | with_reducible exact fault_keeps
    | exact within_of rfl hT
    | with_reducible apply runVec_keeps
    | dsimp only

theorem execVMax_keeps {st : Fin 128} {u : Upset} (hK : Keeps kc kn F old s) (hT : Within 10813032430 F := by exact within_of rfl (by assumption)) :
    NextKeeps kc kn F old (execVMax st u s) := by
  unfold execVMax
  repeat' first
    | with_reducible assumption
    | with_reducible apply next_keeps
    | with_reducible exact fault_keeps
    | exact within_of rfl hT
    | with_reducible apply runVec_keeps
    | dsimp only

theorem execVCmpEq_keeps {st : Fin 128} {u : Upset} (hK : Keeps kc kn F old s) (hT : Within 10813032430 F := by exact within_of rfl (by assumption)) :
    NextKeeps kc kn F old (execVCmpEq st u s) := by
  unfold execVCmpEq
  repeat' first
    | with_reducible assumption
    | with_reducible apply next_keeps
    | with_reducible exact fault_keeps
    | exact within_of rfl hT
    | with_reducible apply runVec_keeps
    | dsimp only

theorem execVCmpLt_keeps {st : Fin 128} {u : Upset} (hK : Keeps kc kn F old s) (hT : Within 10813032430 F := by exact within_of rfl (by assumption)) :
    NextKeeps kc kn F old (execVCmpLt st u s) := by
  unfold execVCmpLt
  repeat' first
    | with_reducible assumption
    | with_reducible apply next_keeps
    | with_reducible exact fault_keeps
    | exact within_of rfl hT
    | with_reducible apply runVec_keeps
    | dsimp only

theorem execVCmpLe_keeps {st : Fin 128} {u : Upset} (hK : Keeps kc kn F old s) (hT : Within 10813032430 F := by exact within_of rfl (by assumption)) :
    NextKeeps kc kn F old (execVCmpLe st u s) := by
  unfold execVCmpLe
  repeat' first
    | with_reducible assumption
    | with_reducible apply next_keeps
    | with_reducible exact fault_keeps
    | exact within_of rfl hT
    | with_reducible intro _
    | with_reducible apply runVec_keeps
    | dsimp only

theorem execVSelect_keeps {st : Fin 128} {u : Upset} (hK : Keeps kc kn F old s) (hT : Within 10813032430 F := by exact within_of rfl (by assumption)) :
    NextKeeps kc kn F old (execVSelect st u s) := by
  unfold execVSelect
  repeat' first
    | with_reducible assumption
    | with_reducible apply next_keeps
    | with_reducible exact fault_keeps
    | exact within_of rfl hT
    | with_reducible intro _
    | with_reducible apply runVec_keeps
    | split
    | dsimp only

theorem execVIadd_keeps {st : Fin 128} {u : Upset} (hK : Keeps kc kn F old s) (hT : Within 10813032430 F := by exact within_of rfl (by assumption)) :
    NextKeeps kc kn F old (execVIadd st u s) := by
  unfold execVIadd
  repeat' first
    | with_reducible assumption
    | with_reducible apply next_keeps
    | with_reducible exact fault_keeps
    | exact within_of rfl hT
    | with_reducible intro _
    | with_reducible apply runVec_keeps
    | dsimp only

theorem execVIsub_keeps {st : Fin 128} {u : Upset} (hK : Keeps kc kn F old s) (hT : Within 10813032430 F := by exact within_of rfl (by assumption)) :
    NextKeeps kc kn F old (execVIsub st u s) := by
  unfold execVIsub
  repeat' first
    | with_reducible assumption
    | with_reducible apply next_keeps
    | with_reducible exact fault_keeps
    | exact within_of rfl hT
    | with_reducible intro _
    | with_reducible apply runVec_keeps
    | dsimp only

theorem execVImul_keeps {st : Fin 128} {u : Upset} (hK : Keeps kc kn F old s) (hT : Within 10813032430 F := by exact within_of rfl (by assumption)) :
    NextKeeps kc kn F old (execVImul st u s) := by
  unfold execVImul
  repeat' first
    | with_reducible assumption
    | with_reducible apply next_keeps
    | with_reducible exact fault_keeps
    | exact within_of rfl hT
    | with_reducible intro _
    | with_reducible apply runVec_keeps
    | dsimp only

theorem execVAnd_keeps {st : Fin 128} {u : Upset} (hK : Keeps kc kn F old s) (hT : Within 10813032430 F := by exact within_of rfl (by assumption)) :
    NextKeeps kc kn F old (execVAnd st u s) := by
  unfold execVAnd
  repeat' first
    | with_reducible assumption
    | with_reducible apply next_keeps
    | with_reducible exact fault_keeps
    | exact within_of rfl hT
    | with_reducible intro _
    | with_reducible apply runVec_keeps
    | dsimp only

theorem execVOr_keeps {st : Fin 128} {u : Upset} (hK : Keeps kc kn F old s) (hT : Within 10813032430 F := by exact within_of rfl (by assumption)) :
    NextKeeps kc kn F old (execVOr st u s) := by
  unfold execVOr
  repeat' first
    | with_reducible assumption
    | with_reducible apply next_keeps
    | with_reducible exact fault_keeps
    | exact within_of rfl hT
    | with_reducible intro _
    | with_reducible apply runVec_keeps
    | dsimp only

theorem execVXor_keeps {st : Fin 128} {u : Upset} (hK : Keeps kc kn F old s) (hT : Within 10813032430 F := by exact within_of rfl (by assumption)) :
    NextKeeps kc kn F old (execVXor st u s) := by
  unfold execVXor
  repeat' first
    | with_reducible assumption
    | with_reducible apply next_keeps
    | with_reducible exact fault_keeps
    | exact within_of rfl hT
    | with_reducible intro _
    | with_reducible apply runVec_keeps
    | dsimp only

theorem execVShl_keeps {st : Fin 128} {u : Upset} (hK : Keeps kc kn F old s) (hT : Within 10813032430 F := by exact within_of rfl (by assumption)) :
    NextKeeps kc kn F old (execVShl st u s) := by
  unfold execVShl
  repeat' first
    | with_reducible assumption
    | with_reducible apply next_keeps
    | with_reducible exact fault_keeps
    | exact within_of rfl hT
    | with_reducible intro _
    | with_reducible apply runVec_keeps
    | dsimp only

theorem execVShr_keeps {st : Fin 128} {u : Upset} (hK : Keeps kc kn F old s) (hT : Within 10813032430 F := by exact within_of rfl (by assumption)) :
    NextKeeps kc kn F old (execVShr st u s) := by
  unfold execVShr
  repeat' first
    | with_reducible assumption
    | with_reducible apply next_keeps
    | with_reducible exact fault_keeps
    | exact within_of rfl hT
    | with_reducible intro _
    | with_reducible apply runVec_keeps
    | dsimp only

theorem execVSar_keeps {st : Fin 128} {u : Upset} (hK : Keeps kc kn F old s) (hT : Within 10813032430 F := by exact within_of rfl (by assumption)) :
    NextKeeps kc kn F old (execVSar st u s) := by
  unfold execVSar
  repeat' first
    | with_reducible assumption
    | with_reducible apply next_keeps
    | with_reducible exact fault_keeps
    | exact within_of rfl hT
    | with_reducible intro _
    | with_reducible apply runVec_keeps
    | dsimp only

theorem execVPermute_keeps {st : Fin 128} {u : Upset} (hK : Keeps kc kn F old s) (hT : Within 10813032430 F := by exact within_of rfl (by assumption)) :
    NextKeeps kc kn F old (execVPermute st u s) := by
  unfold execVPermute
  repeat' first
    | with_reducible assumption
    | with_reducible apply next_keeps
    | with_reducible exact fault_keeps
    | exact within_of rfl hT
    | with_reducible intro _
    | with_reducible apply runVec_keeps
    | dsimp only

theorem execVSumLanes_keeps {st : Fin 128} {u : Upset} (hK : Keeps kc kn F old s) (hT : Within 10813032430 F := by exact within_of rfl (by assumption)) :
    NextKeeps kc kn F old (execVSumLanes st u s) := by
  unfold execVSumLanes
  repeat' first
    | with_reducible assumption
    | with_reducible apply next_keeps
    | with_reducible exact fault_keeps
    | exact within_of rfl hT
    | with_reducible intro _
    | with_reducible apply runVec_keeps
    | dsimp only

theorem execVMaxLanes_keeps {st : Fin 128} {u : Upset} (hK : Keeps kc kn F old s) (hT : Within 10813032430 F := by exact within_of rfl (by assumption)) :
    NextKeeps kc kn F old (execVMaxLanes st u s) := by
  unfold execVMaxLanes
  repeat' first
    | with_reducible assumption
    | with_reducible apply next_keeps
    | with_reducible exact fault_keeps
    | exact within_of rfl hT
    | with_reducible intro _
    | with_reducible apply runVec_keeps
    | dsimp only

theorem execVMinLanes_keeps {st : Fin 128} {u : Upset} (hK : Keeps kc kn F old s) (hT : Within 10813032430 F := by exact within_of rfl (by assumption)) :
    NextKeeps kc kn F old (execVMinLanes st u s) := by
  unfold execVMinLanes
  repeat' first
    | with_reducible assumption
    | with_reducible apply next_keeps
    | with_reducible exact fault_keeps
    | exact within_of rfl hT
    | with_reducible intro _
    | with_reducible apply runVec_keeps
    | dsimp only

theorem execVCvtF2i_keeps {st : Fin 128} {u : Upset} (hK : Keeps kc kn F old s) (hT : Within 10813032430 F := by exact within_of rfl (by assumption)) :
    NextKeeps kc kn F old (execVCvtF2i st u s) := by
  unfold execVCvtF2i
  repeat' first
    | with_reducible assumption
    | with_reducible apply next_keeps
    | with_reducible exact fault_keeps
    | exact within_of rfl hT
    | with_reducible apply runVec_keeps
    | dsimp only

theorem execVCvtI2f_keeps {st : Fin 128} {u : Upset} (hK : Keeps kc kn F old s) (hT : Within 10813032430 F := by exact within_of rfl (by assumption)) :
    NextKeeps kc kn F old (execVCvtI2f st u s) := by
  unfold execVCvtI2f
  repeat' first
    | with_reducible assumption
    | with_reducible apply next_keeps
    | with_reducible exact fault_keeps
    | exact within_of rfl hT
    | with_reducible apply runVec_keeps
    | dsimp only

theorem execVload_keeps {st : Fin 128} {u : Upset} (hK : Keeps kc kn F old s) (hT : Within 10813032430 F := by exact within_of rfl (by assumption)) :
    NextKeeps kc kn F old (execVload st u s) := by
  unfold execVload
  repeat' first
    | with_reducible assumption
    | with_reducible apply next_keeps
    | with_reducible exact fault_keeps
    | exact within_of rfl hT
    | with_reducible intro _
    | with_reducible apply residueUpset_keeps
    | with_reducible apply runHitch_keeps
    | with_reducible apply setLanes_keeps
    | (have x : True := trivial
       extract_lets +onlyGivenNames x
       first
       | ((first
           | (have z := x; guard_hyp z : State; clear z; refine keeps_via (x := x) ?_ (fun hx => ?_))
           | (have z := x; guard_hyp z : State; clear z; refine next_via (x := x) ?_ (fun hx => ?_))
           | (have z := x.2; guard_hyp z : State; clear z; refine keeps_via (x := x.2) ?_ (fun hx => ?_))
           | (have z := x.2; guard_hyp z : State; clear z; refine next_via (x := x.2) ?_ (fun hx => ?_))
           | (have z := x.2.2; guard_hyp z : State; clear z; refine keeps_via (x := x.2.2) ?_ (fun hx => ?_))
           | (have z := x.2.2; guard_hyp z : State; clear z; refine next_via (x := x.2.2) ?_ (fun hx => ?_))
           | (have z := x.1; guard_hyp z : State; clear z; refine keeps_via (x := x.1) ?_ (fun hx => ?_))
           | (have z := x.1; guard_hyp z : State; clear z; refine next_via (x := x.1) ?_ (fun hx => ?_)))
          rotate_left
          try clear_value x
          rotate_right
          dsimp -zeta only [x])
       | (fail_if_success (have z := x; guard_hyp z : True)
          try clear_value x))
    | split
    | dsimp -zeta only

theorem execVstore_keeps {st : Fin 128} {u : Upset} (hK : Keeps kc kn F old s) (hT : Within 10813032430 F := by exact within_of rfl (by assumption)) :
    NextKeeps kc kn F old (execVstore st u s) := by
  unfold execVstore
  repeat' first
    | with_reducible assumption
    | with_reducible apply next_keeps
    | with_reducible exact fault_keeps
    | exact within_of rfl hT
    | with_reducible intro _
    | with_reducible apply put_keeps
    | with_reducible apply residueUpset_keeps
    | with_reducible apply runHitch_keeps
    | with_reducible apply usedRandom_keeps
    | with_reducible apply arith_keeps
    | (have x : True := trivial
       extract_lets +onlyGivenNames x
       first
       | ((first
           | (have z := x; guard_hyp z : State; clear z; refine keeps_via (x := x) ?_ (fun hx => ?_))
           | (have z := x; guard_hyp z : State; clear z; refine next_via (x := x) ?_ (fun hx => ?_))
           | (have z := x.2; guard_hyp z : State; clear z; refine keeps_via (x := x.2) ?_ (fun hx => ?_))
           | (have z := x.2; guard_hyp z : State; clear z; refine next_via (x := x.2) ?_ (fun hx => ?_))
           | (have z := x.2.2; guard_hyp z : State; clear z; refine keeps_via (x := x.2.2) ?_ (fun hx => ?_))
           | (have z := x.2.2; guard_hyp z : State; clear z; refine next_via (x := x.2.2) ?_ (fun hx => ?_))
           | (have z := x.1; guard_hyp z : State; clear z; refine keeps_via (x := x.1) ?_ (fun hx => ?_))
           | (have z := x.1; guard_hyp z : State; clear z; refine next_via (x := x.1) ?_ (fun hx => ?_)))
          rotate_left
          try clear_value x
          rotate_right
          dsimp -zeta only [x])
       | (fail_if_success (have z := x; guard_hyp z : True)
          try clear_value x))
    | split
    | dsimp -zeta only

theorem execConvert_keeps {st : Fin 128} {u : Upset} (hK : Keeps kc kn F old s) (hT : Within 10813032430 F := by exact within_of rfl (by assumption)) :
    NextKeeps kc kn F old (execConvert st u s) := by
  unfold execConvert
  repeat' first
    | with_reducible assumption
    | with_reducible apply next_keeps
    | with_reducible exact fault_keeps
    | exact within_of rfl hT
    | with_reducible intro _
    | with_reducible apply runHitch_keeps
    | with_reducible apply convertBody_keeps
    | dsimp only

theorem execMove_keeps {st : Fin 128} {u : Upset} (hK : Keeps kc kn F old s) (hT : Within 10813038574 F := by exact within_of rfl (by assumption)) :
    NextKeeps kc kn F old (execMove st u s) := by
  unfold execMove
  repeat' first
    | with_reducible assumption
    | with_reducible apply next_keeps
    | with_reducible exact fault_keeps
    | exact within_of rfl hT
    | with_reducible intro _
    | with_reducible apply runHitch_keeps
    | with_reducible apply moveBody_keeps
    | dsimp only

theorem execTelltale_keeps {st : Fin 128} {u : Upset} (hK : Keeps kc kn F old s) (hT : Within 10813038574 F := by exact within_of rfl (by assumption)) :
    NextKeeps kc kn F old (execTelltale st u s) := by
  unfold execTelltale
  repeat' first
    | with_reducible assumption
    | with_reducible apply next_keeps
    | with_reducible exact fault_keeps
    | exact within_of rfl hT
    | with_reducible intro _
    | with_reducible apply runHitch_keeps
    | with_reducible apply telltaleBody_keeps
    | dsimp only

theorem execScrubRead_keeps {st : Fin 128} {bits : Nat} (hK : Keeps kc kn F old s) (hT : Within 36 F := by exact within_of rfl (by assumption)) :
    NextKeeps kc kn F old (execScrubRead st bits s) := by
  unfold execScrubRead
  repeat' first
    | with_reducible assumption
    | with_reducible apply next_keeps
    | with_reducible exact fault_keeps
    | exact within_of rfl hT
    | with_reducible intro _
    | with_reducible apply inc_keeps
    | with_reducible apply modStrand_keeps
    | with_reducible apply badScratch_keeps
    | (have x : True := trivial
       extract_lets +onlyGivenNames x
       first
       | ((first
           | (have z := x; guard_hyp z : State; clear z; refine keeps_via (x := x) ?_ (fun hx => ?_))
           | (have z := x; guard_hyp z : State; clear z; refine next_via (x := x) ?_ (fun hx => ?_))
           | (have z := x.2; guard_hyp z : State; clear z; refine keeps_via (x := x.2) ?_ (fun hx => ?_))
           | (have z := x.2; guard_hyp z : State; clear z; refine next_via (x := x.2) ?_ (fun hx => ?_))
           | (have z := x.2.2; guard_hyp z : State; clear z; refine keeps_via (x := x.2.2) ?_ (fun hx => ?_))
           | (have z := x.2.2; guard_hyp z : State; clear z; refine next_via (x := x.2.2) ?_ (fun hx => ?_))
           | (have z := x.1; guard_hyp z : State; clear z; refine keeps_via (x := x.1) ?_ (fun hx => ?_))
           | (have z := x.1; guard_hyp z : State; clear z; refine next_via (x := x.1) ?_ (fun hx => ?_)))
          rotate_left
          try clear_value x
          rotate_right
          dsimp -zeta only [x])
       | (fail_if_success (have z := x; guard_hyp z : True)
          try clear_value x))
    | ((with_reducible refine keeps_mk rfl ?_); first | with_reducible assumption | exact within_of rfl hT | (with_reducible apply inc_keeps) | (with_reducible apply modStrand_keeps) | (with_reducible apply badScratch_keeps) | split | dsimp -zeta only)
    | with_reducible refine keeps_fst (by with_reducible assumption) ?_
    | with_reducible refine keeps_snd (by with_reducible assumption) ?_
    | with_reducible refine keeps_thd (by with_reducible assumption) ?_
    | split
    | dsimp -zeta only

theorem execScratchWriteback_keeps {st : Fin 128} {line : Nat} (hK : Keeps kc kn F old s) (hT : Within 32 F := by exact within_of rfl (by assumption)) :
    NextKeeps kc kn F old (execScratchWriteback st line s) := by
  unfold execScratchWriteback
  repeat' first
    | with_reducible assumption
    | with_reducible apply next_keeps
    | with_reducible exact fault_keeps
    | exact within_of rfl hT
    | with_reducible intro _
    | with_reducible apply modStrand_keeps
    | ((with_reducible refine keeps_mk rfl ?_); first | with_reducible assumption | exact within_of rfl hT | (with_reducible apply modStrand_keeps) | split | dsimp only)
    | dsimp only

end Sys2Proof.Machine
end

