-- ==== Sys2Proof/Laws/KeepsAttention.lean ====
section
/-! SUPPORT. What the operations of Machine/Attention.lean keep: one lemma for each. -/

namespace Sys2Proof.Machine

set_option linter.all false
set_option Elab.async false

variable {kc kn : Bool} {F : Field → Bool} {old s : State}

theorem attn_fst {α : Type} {x : AttnRun × α} {t : AttnRun} {a : α} (e : x = (t, a)) (h : Keeps kc kn F old x.1.s) :
    Keeps kc kn F old t.s := by
  rw [e] at h
  exact h

theorem attn_snd {α : Type} {x : α × AttnRun} {t : AttnRun} {a : α} (e : x = (a, t)) (h : Keeps kc kn F old x.2.s) :
    Keeps kc kn F old t.s := by
  rw [e] at h
  exact h

theorem noteScales_keeps {st : Nat} {sc : List Byte} (hK : Keeps kc kn F old s) (hT : Within 4 F := by exact within_of rfl (by assumption)) :
    Keeps kc kn F old (State.noteScales s st sc) := by
  unfold State.noteScales
  repeat' first
    | with_reducible assumption
    | exact within_of rfl hT
    | with_reducible intro _
    | with_reducible apply arith_keeps
    | split
    | dsimp only

theorem descRows_keeps {r : Run} {d : Desc} {half p0 n : Nat} {errs : List (Nat × ReadErr)} (hK : Keeps kc kn F old s) (hT : Within 10813038510 F := by exact within_of rfl (by assumption)) :
    Keeps kc kn F old (State.descRows s r d half p0 n errs).2.2 := by
  unfold State.descRows
  repeat' first
    | with_reducible assumption
    | exact within_of rfl hT
    | with_reducible intro _
    | with_reducible apply fetchP_keeps
    | with_reducible apply noteScales_keeps
    | with_reducible apply take_keeps
    | (have x : True := trivial
       extract_lets +onlyGivenNames x
       first
       | ((first
           | (have z := x; guard_hyp z : State; clear z; refine keeps_via (x := x) ?_ (fun hx => ?_))
           | (have z := x.2; guard_hyp z : State; clear z; refine keeps_via (x := x.2) ?_ (fun hx => ?_))
           | (have z := x.2.2; guard_hyp z : State; clear z; refine keeps_via (x := x.2.2) ?_ (fun hx => ?_))
           | (have z := x.1; guard_hyp z : State; clear z; refine keeps_via (x := x.1) ?_ (fun hx => ?_)))
          rotate_left
          try clear_value x
          rotate_right
          dsimp -zeta only [x])
       | (fail_if_success (have z := x; guard_hyp z : True)
          try clear_value x))
    | split
    | dsimp -zeta only

theorem kvRows_keeps {r : Run} {ds : List Desc} {half lo n : Nat} {errs : List (Nat × ReadErr)} (hK : Keeps kc kn F old s) (hT : Within 10813038510 F := by exact within_of rfl (by assumption)) :
    Keeps kc kn F old (State.kvRows s r ds half lo n errs).2.2 := by
  induction ds generalizing s r half lo n errs with
  | nil =>
    unfold State.kvRows
    repeat' first
      | with_reducible assumption
      | exact within_of rfl hT
      | with_reducible apply descRows_keeps
      | (have x : True := trivial
         extract_lets +onlyGivenNames x
         first
         | ((first
             | (have z := x; guard_hyp z : State; clear z; refine keeps_via (x := x) ?_ (fun hx => ?_))
             | (have z := x.2; guard_hyp z : State; clear z; refine keeps_via (x := x.2) ?_ (fun hx => ?_))
             | (have z := x.2.2; guard_hyp z : State; clear z; refine keeps_via (x := x.2.2) ?_ (fun hx => ?_))
             | (have z := x.1; guard_hyp z : State; clear z; refine keeps_via (x := x.1) ?_ (fun hx => ?_)))
            rotate_left
            try clear_value x
            rotate_right
            dsimp -zeta only [x])
         | (fail_if_success (have z := x; guard_hyp z : True)
            try clear_value x))
      | ((with_reducible refine keeps_mk rfl ?_); first | with_reducible assumption | exact within_of rfl hT | (with_reducible apply descRows_keeps) | split | dsimp -zeta only)
      | with_reducible refine keeps_fst (by with_reducible assumption) ?_
      | with_reducible refine keeps_snd (by with_reducible assumption) ?_
      | with_reducible refine keeps_thd (by with_reducible assumption) ?_
      | split
      | dsimp -zeta only
  | cons y ys ih =>
    unfold State.kvRows
    repeat' first
      | with_reducible assumption
      | exact within_of rfl hT
      | with_reducible apply ih
      | with_reducible apply descRows_keeps
      | (have x : True := trivial
         extract_lets +onlyGivenNames x
         first
         | ((first
             | (have z := x; guard_hyp z : State; clear z; refine keeps_via (x := x) ?_ (fun hx => ?_))
             | (have z := x.2; guard_hyp z : State; clear z; refine keeps_via (x := x.2) ?_ (fun hx => ?_))
             | (have z := x.2.2; guard_hyp z : State; clear z; refine keeps_via (x := x.2.2) ?_ (fun hx => ?_))
             | (have z := x.1; guard_hyp z : State; clear z; refine keeps_via (x := x.1) ?_ (fun hx => ?_)))
            rotate_left
            try clear_value x
            rotate_right
            dsimp -zeta only [x])
         | (fail_if_success (have z := x; guard_hyp z : True)
            try clear_value x))
      | ((with_reducible refine keeps_mk rfl ?_); first | with_reducible assumption | exact within_of rfl hT | (with_reducible apply ih) | (with_reducible apply descRows_keeps) | split | dsimp -zeta only)
      | with_reducible refine keeps_fst (by with_reducible assumption) ?_
      | with_reducible refine keeps_snd (by with_reducible assumption) ?_
      | with_reducible refine keeps_thd (by with_reducible assumption) ?_
      | split
      | dsimp -zeta only

theorem readDescs_keeps {fuel : Nat} {r : Run} {at_ next need dqk : Nat} {errs : List (Nat × ReadErr)} (hK : Keeps kc kn F old s) (hT : Within 10813038510 F := by exact within_of rfl (by assumption)) :
    Keeps kc kn F old (State.readDescs fuel s r at_ next need dqk errs).2.2 := by
  induction fuel generalizing s r at_ next need dqk errs with
  | zero =>
    unfold State.readDescs
    repeat' first
      | with_reducible assumption
      | exact within_of rfl hT
      | with_reducible apply fetchP_keeps
      | (have x : True := trivial
         extract_lets +onlyGivenNames x
         first
         | ((first
             | (have z := x; guard_hyp z : State; clear z; refine keeps_via (x := x) ?_ (fun hx => ?_))
             | (have z := x.2; guard_hyp z : State; clear z; refine keeps_via (x := x.2) ?_ (fun hx => ?_))
             | (have z := x.2.2; guard_hyp z : State; clear z; refine keeps_via (x := x.2.2) ?_ (fun hx => ?_))
             | (have z := x.1; guard_hyp z : State; clear z; refine keeps_via (x := x.1) ?_ (fun hx => ?_)))
            rotate_left
            try clear_value x
            rotate_right
            dsimp -zeta only [x])
         | (fail_if_success (have z := x; guard_hyp z : True)
            try clear_value x))
      | ((with_reducible refine keeps_mk rfl ?_); first | with_reducible assumption | exact within_of rfl hT | (with_reducible apply fetchP_keeps) | split | dsimp -zeta only)
      | with_reducible refine keeps_fst (by with_reducible assumption) ?_
      | with_reducible refine keeps_snd (by with_reducible assumption) ?_
      | with_reducible refine keeps_thd (by with_reducible assumption) ?_
      | split
      | dsimp -zeta only
  | succ n ih =>
    unfold State.readDescs
    repeat' first
      | with_reducible assumption
      | exact within_of rfl hT
      | with_reducible apply ih
      | with_reducible apply fetchP_keeps
      | (have x : True := trivial
         extract_lets +onlyGivenNames x
         first
         | ((first
             | (have z := x; guard_hyp z : State; clear z; refine keeps_via (x := x) ?_ (fun hx => ?_))
             | (have z := x.2; guard_hyp z : State; clear z; refine keeps_via (x := x.2) ?_ (fun hx => ?_))
             | (have z := x.2.2; guard_hyp z : State; clear z; refine keeps_via (x := x.2.2) ?_ (fun hx => ?_))
             | (have z := x.1; guard_hyp z : State; clear z; refine keeps_via (x := x.1) ?_ (fun hx => ?_)))
            rotate_left
            try clear_value x
            rotate_right
            dsimp -zeta only [x])
         | (fail_if_success (have z := x; guard_hyp z : True)
            try clear_value x))
      | ((with_reducible refine keeps_mk rfl ?_); first | with_reducible assumption | exact within_of rfl hT | (with_reducible apply ih) | (with_reducible apply fetchP_keeps) | split | dsimp -zeta only)
      | with_reducible refine keeps_fst (by with_reducible assumption) ?_
      | with_reducible refine keeps_snd (by with_reducible assumption) ?_
      | with_reducible refine keeps_thd (by with_reducible assumption) ?_
      | split
      | dsimp -zeta only

theorem andThen_keeps {a : AttnRun} {f : AttnRun → AttnRun} (hKf : ∀ s, Keeps kc kn F old s.s → Keeps kc kn F old (f s).s) (hK : Keeps kc kn F old a.s) (hT : Within 0 F := by exact within_of rfl (by assumption)) :
    Keeps kc kn F old (AttnRun.andThen a f).s := by
  unfold AttnRun.andThen
  repeat' first | with_reducible assumption | exact within_of rfl hT | with_reducible apply hKf | split | dsimp only

theorem each_keeps {a : AttnRun} {α : Type} {l : List α} {f : AttnRun → α → AttnRun} (hKf : ∀ s x1, Keeps kc kn F old s.s → Keeps kc kn F old (f s x1).s) (hK : Keeps kc kn F old a.s) (hT : Within 0 F := by exact within_of rfl (by assumption)) :
    Keeps kc kn F old (AttnRun.each a l f).s := by
  unfold AttnRun.each
  repeat' first
    | with_reducible assumption
    | exact within_of rfl hT
    | with_reducible intro _
    | with_reducible apply hKf
    | with_reducible apply andThen_keeps
    | with_reducible apply foldS_keeps
    | with_reducible apply foldS_inv (P := fun a : AttnRun => Keeps kc kn F old a.s)
    | dsimp only

theorem on_keeps {a : AttnRun} {f : State → State} (hKf : ∀ s, Keeps kc kn F old s → Keeps kc kn F old (f s)) (hK : Keeps kc kn F old a.s) (hT : Within 0 F := by exact within_of rfl (by assumption)) :
    Keeps kc kn F old (AttnRun.on a f).s := by
  unfold AttnRun.on
  repeat' first | with_reducible assumption | exact within_of rfl hT | with_reducible apply hKf | ((with_reducible refine keeps_mk rfl ?_); first | with_reducible assumption | exact within_of rfl hT | (with_reducible apply hKf) | split | dsimp only) | dsimp only

theorem check_keeps {a : AttnRun} {r : Run} {accs : List Acc} (hK : Keeps kc kn F old a.s) (hT : Within 12 F := by exact within_of rfl (by assumption)) :
    Keeps kc kn F old (AttnRun.check a r accs).s := by
  unfold AttnRun.check
  repeat' first
    | with_reducible assumption
    | exact within_of rfl hT
    | with_reducible intro _
    | with_reducible apply setReg_keeps
    | with_reducible apply bump_keeps
    | with_reducible apply inc_keeps
    | with_reducible apply foldl_keeps
    | (have x : True := trivial
       extract_lets +onlyGivenNames x
       first
       | ((first
           | (have z := x; guard_hyp z : State; clear z; refine keeps_via (x := x) ?_ (fun hx => ?_))
           | (have z := x.2; guard_hyp z : State; clear z; refine keeps_via (x := x.2) ?_ (fun hx => ?_))
           | (have z := x.2.2; guard_hyp z : State; clear z; refine keeps_via (x := x.2.2) ?_ (fun hx => ?_))
           | (have z := x.1; guard_hyp z : State; clear z; refine keeps_via (x := x.1) ?_ (fun hx => ?_))
           | (have z := x.s; guard_hyp z : State; clear z; refine keeps_via (x := x.s) ?_ (fun hx => ?_))
           | (have z := x.1.s; guard_hyp z : State; clear z; refine keeps_via (x := x.1.s) ?_ (fun hx => ?_))
           | (have z := x.2.s; guard_hyp z : State; clear z; refine keeps_via (x := x.2.s) ?_ (fun hx => ?_)))
          rotate_left
          try clear_value x
          rotate_right
          dsimp -zeta only [x])
       | (fail_if_success (have z := x; guard_hyp z : True)
          try clear_value x))
    | ((with_reducible refine keeps_mk rfl ?_); first | with_reducible assumption | exact within_of rfl hT | (with_reducible apply setReg_keeps) | (with_reducible apply bump_keeps) | (with_reducible apply inc_keeps) | split | dsimp -zeta only)
    | with_reducible refine keeps_fst (by with_reducible assumption) ?_
    | with_reducible refine keeps_snd (by with_reducible assumption) ?_
    | with_reducible refine keeps_thd (by with_reducible assumption) ?_
    | with_reducible refine attn_fst (by with_reducible assumption) ?_
    | with_reducible refine attn_snd (by with_reducible assumption) ?_
    | split
    | dsimp -zeta only

theorem rowsOf_keeps {a : AttnRun} {r : Run} {space addr stride scale : Nat} {f : Fmt} {mx : Bool} {k r0 n : Nat} (hK : Keeps kc kn F old a.s) (hT : Within 36 F := by exact within_of rfl (by assumption)) :
    Keeps kc kn F old (AttnRun.rowsOf a r space addr stride scale f mx k r0 n).2.s := by
  unfold AttnRun.rowsOf
  repeat' first
    | with_reducible assumption
    | exact within_of rfl hT
    | with_reducible intro _
    | with_reducible apply badScratch_keeps
    | with_reducible apply noteScales_keeps
    | with_reducible apply on_keeps
    | with_reducible apply foldS_keeps
    | with_reducible apply foldS_inv (P := fun a : AttnRun => Keeps kc kn F old a.s)
    | (have x : True := trivial
       extract_lets +onlyGivenNames x
       first
       | ((first
           | (have z := x; guard_hyp z : State; clear z; refine keeps_via (x := x) ?_ (fun hx => ?_))
           | (have z := x.2; guard_hyp z : State; clear z; refine keeps_via (x := x.2) ?_ (fun hx => ?_))
           | (have z := x.2.2; guard_hyp z : State; clear z; refine keeps_via (x := x.2.2) ?_ (fun hx => ?_))
           | (have z := x.1; guard_hyp z : State; clear z; refine keeps_via (x := x.1) ?_ (fun hx => ?_))
           | (have z := x.s; guard_hyp z : State; clear z; refine keeps_via (x := x.s) ?_ (fun hx => ?_))
           | (have z := x.1.s; guard_hyp z : State; clear z; refine keeps_via (x := x.1.s) ?_ (fun hx => ?_))
           | (have z := x.2.s; guard_hyp z : State; clear z; refine keeps_via (x := x.2.s) ?_ (fun hx => ?_)))
          rotate_left
          try clear_value x
          rotate_right
          dsimp -zeta only [x])
       | (fail_if_success (have z := x; guard_hyp z : True)
          try clear_value x))
    | ((with_reducible refine keeps_mk rfl ?_); first | with_reducible assumption | exact within_of rfl hT | (with_reducible apply badScratch_keeps) | (with_reducible apply noteScales_keeps) | (with_reducible apply on_keeps) | with_reducible apply foldS_keeps | split | dsimp -zeta only)
    | with_reducible refine keeps_fst (by with_reducible assumption) ?_
    | with_reducible refine keeps_snd (by with_reducible assumption) ?_
    | with_reducible refine keeps_thd (by with_reducible assumption) ?_
    | with_reducible refine attn_fst (by with_reducible assumption) ?_
    | with_reducible refine attn_snd (by with_reducible assumption) ?_
    | split
    | dsimp -zeta only

theorem putScores_keeps {a : AttnRun} {r : Run} {c : Attn} {e : LenEntry} {i x j0 width : Nat} {codes : List Nat} (hK : Keeps kc kn F old a.s) (hT : Within 10813038510 F := by exact within_of rfl (by assumption)) :
    Keeps kc kn F old (AttnRun.putScores a r c e i x j0 width codes).s := by
  unfold AttnRun.putScores
  repeat' first
    | with_reducible assumption
    | exact within_of rfl hT
    | with_reducible intro _
    | with_reducible apply storeP_keeps
    | with_reducible apply put_keeps
    | with_reducible apply on_keeps
    | (have x : True := trivial
       extract_lets +onlyGivenNames x
       first
       | ((first
           | (have z := x; guard_hyp z : State; clear z; refine keeps_via (x := x) ?_ (fun hx => ?_))
           | (have z := x.2; guard_hyp z : State; clear z; refine keeps_via (x := x.2) ?_ (fun hx => ?_))
           | (have z := x.2.2; guard_hyp z : State; clear z; refine keeps_via (x := x.2.2) ?_ (fun hx => ?_))
           | (have z := x.1; guard_hyp z : State; clear z; refine keeps_via (x := x.1) ?_ (fun hx => ?_))
           | (have z := x.s; guard_hyp z : State; clear z; refine keeps_via (x := x.s) ?_ (fun hx => ?_))
           | (have z := x.1.s; guard_hyp z : State; clear z; refine keeps_via (x := x.1.s) ?_ (fun hx => ?_))
           | (have z := x.2.s; guard_hyp z : State; clear z; refine keeps_via (x := x.2.s) ?_ (fun hx => ?_)))
          rotate_left
          try clear_value x
          rotate_right
          dsimp -zeta only [x])
       | (fail_if_success (have z := x; guard_hyp z : True)
          try clear_value x))
    | ((with_reducible refine keeps_mk rfl ?_); first | with_reducible assumption | exact within_of rfl hT | (with_reducible apply storeP_keeps) | (with_reducible apply put_keeps) | (with_reducible apply on_keeps) | split | dsimp -zeta only)
    | split
    | dsimp -zeta only

theorem readSpill_keeps {a : AttnRun} {r : Run} {c : Attn} {x j0 n : Nat} (hK : Keeps kc kn F old a.s) (hT : Within 10813038510 F := by exact within_of rfl (by assumption)) :
    Keeps kc kn F old (AttnRun.readSpill a r c x j0 n).s := by
  unfold AttnRun.readSpill
  repeat' first
    | with_reducible assumption
    | exact within_of rfl hT
    | with_reducible apply fetchP_keeps
    | (have x : True := trivial
       extract_lets +onlyGivenNames x
       first
       | ((first
           | (have z := x; guard_hyp z : State; clear z; refine keeps_via (x := x) ?_ (fun hx => ?_))
           | (have z := x.2; guard_hyp z : State; clear z; refine keeps_via (x := x.2) ?_ (fun hx => ?_))
           | (have z := x.2.2; guard_hyp z : State; clear z; refine keeps_via (x := x.2.2) ?_ (fun hx => ?_))
           | (have z := x.1; guard_hyp z : State; clear z; refine keeps_via (x := x.1) ?_ (fun hx => ?_))
           | (have z := x.s; guard_hyp z : State; clear z; refine keeps_via (x := x.s) ?_ (fun hx => ?_))
           | (have z := x.1.s; guard_hyp z : State; clear z; refine keeps_via (x := x.1.s) ?_ (fun hx => ?_))
           | (have z := x.2.s; guard_hyp z : State; clear z; refine keeps_via (x := x.2.s) ?_ (fun hx => ?_)))
          rotate_left
          try clear_value x
          rotate_right
          dsimp -zeta only [x])
       | (fail_if_success (have z := x; guard_hyp z : True)
          try clear_value x))
    | ((with_reducible refine keeps_mk rfl ?_); first | with_reducible assumption | exact within_of rfl hT | (with_reducible apply fetchP_keeps) | split | dsimp -zeta only)
    | split
    | dsimp -zeta only

theorem store_keeps {a : AttnRun} {r : Run} {pma : Nat} {bs : List Byte} (hK : Keeps kc kn F old a.s) (hT : Within 10813038510 F := by exact within_of rfl (by assumption)) :
    Keeps kc kn F old (AttnRun.store a r pma bs).s := by
  unfold AttnRun.store
  repeat' first
    | with_reducible assumption
    | exact within_of rfl hT
    | with_reducible apply storeP_keeps
    | (have x : True := trivial
       extract_lets +onlyGivenNames x
       first
       | ((first
           | (have z := x; guard_hyp z : State; clear z; refine keeps_via (x := x) ?_ (fun hx => ?_))
           | (have z := x.2; guard_hyp z : State; clear z; refine keeps_via (x := x.2) ?_ (fun hx => ?_))
           | (have z := x.2.2; guard_hyp z : State; clear z; refine keeps_via (x := x.2.2) ?_ (fun hx => ?_))
           | (have z := x.1; guard_hyp z : State; clear z; refine keeps_via (x := x.1) ?_ (fun hx => ?_))
           | (have z := x.s; guard_hyp z : State; clear z; refine keeps_via (x := x.s) ?_ (fun hx => ?_))
           | (have z := x.1.s; guard_hyp z : State; clear z; refine keeps_via (x := x.1.s) ?_ (fun hx => ?_))
           | (have z := x.2.s; guard_hyp z : State; clear z; refine keeps_via (x := x.2.s) ?_ (fun hx => ?_)))
          rotate_left
          try clear_value x
          rotate_right
          dsimp -zeta only [x])
       | (fail_if_success (have z := x; guard_hyp z : True)
          try clear_value x))
    | ((with_reducible refine keeps_mk rfl ?_); first | with_reducible assumption | exact within_of rfl hT | (with_reducible apply storeP_keeps) | split | dsimp -zeta only)
    | split
    | dsimp -zeta only

theorem scoreBlock_keeps {a : AttnRun} {r : Run} {c : Attn} {e : LenEntry} {ds : List Desc} {write : Bool} {rows : List AttnRow} {b : Nat} (hK : Keeps kc kn F old a.s) (hT : Within 10813038510 F := by exact within_of rfl (by assumption)) :
    Keeps kc kn F old (AttnRun.scoreBlock a r c e ds write rows b).1.s := by
  unfold AttnRun.scoreBlock
  repeat' first
    | with_reducible assumption
    | exact within_of rfl hT
    | with_reducible intro _
    | with_reducible apply arith_keeps
    | with_reducible apply kvRows_keeps
    | with_reducible apply each_keeps
    | with_reducible apply on_keeps
    | with_reducible apply check_keeps
    | with_reducible apply putScores_keeps
    | with_reducible apply block_keeps
    | with_reducible apply foldl_keeps
    | (have x : True := trivial
       extract_lets +onlyGivenNames x
       first
       | ((first
           | (have z := x; guard_hyp z : State; clear z; refine keeps_via (x := x) ?_ (fun hx => ?_))
           | (have z := x.2; guard_hyp z : State; clear z; refine keeps_via (x := x.2) ?_ (fun hx => ?_))
           | (have z := x.2.2; guard_hyp z : State; clear z; refine keeps_via (x := x.2.2) ?_ (fun hx => ?_))
           | (have z := x.1; guard_hyp z : State; clear z; refine keeps_via (x := x.1) ?_ (fun hx => ?_))
           | (have z := x.s; guard_hyp z : State; clear z; refine keeps_via (x := x.s) ?_ (fun hx => ?_))
           | (have z := x.1.s; guard_hyp z : State; clear z; refine keeps_via (x := x.1.s) ?_ (fun hx => ?_))
           | (have z := x.2.s; guard_hyp z : State; clear z; refine keeps_via (x := x.2.s) ?_ (fun hx => ?_)))
          rotate_left
          try clear_value x
          rotate_right
          dsimp -zeta only [x])
       | (fail_if_success (have z := x; guard_hyp z : True)
          try clear_value x))
    | ((with_reducible refine keeps_mk rfl ?_); first | with_reducible assumption | exact within_of rfl hT | (with_reducible apply arith_keeps) | (with_reducible apply kvRows_keeps) | (with_reducible apply each_keeps) | (with_reducible apply on_keeps) | (with_reducible apply check_keeps) | (with_reducible apply putScores_keeps) | (with_reducible apply block_keeps) | split | dsimp -zeta only)
    | with_reducible refine keeps_fst (by with_reducible assumption) ?_
    | with_reducible refine keeps_snd (by with_reducible assumption) ?_
    | with_reducible refine keeps_thd (by with_reducible assumption) ?_
    | with_reducible refine attn_fst (by with_reducible assumption) ?_
    | with_reducible refine attn_snd (by with_reducible assumption) ?_
    | split
    | dsimp -zeta only

theorem reduceAll_keeps {a : AttnRun} {r : Run} {c : Attn} {e : LenEntry} {ds : List Desc} {half : Nat} {blocks : List Nat} {as_ : List (List (Nat × Num))} (hK : Keeps kc kn F old a.s) (hT : Within 10813038510 F := by exact within_of rfl (by assumption)) :
    Keeps kc kn F old (AttnRun.reduceAll a r c e ds half blocks as_).1.s := by
  unfold AttnRun.reduceAll
  repeat' first
    | with_reducible assumption
    | exact within_of rfl hT
    | with_reducible intro _
    | with_reducible apply kvRows_keeps
    | with_reducible apply block_keeps
    | with_reducible apply foldS_keeps
    | with_reducible apply foldS_inv (P := fun a : AttnRun × List Acc => Keeps kc kn F old a.1.s)
    | with_reducible apply foldS_inv (P := fun a : AttnRun => Keeps kc kn F old a.s)
    | (have x : True := trivial
       extract_lets +onlyGivenNames x
       first
       | ((first
           | (have z := x; guard_hyp z : State; clear z; refine keeps_via (x := x) ?_ (fun hx => ?_))
           | (have z := x.2; guard_hyp z : State; clear z; refine keeps_via (x := x.2) ?_ (fun hx => ?_))
           | (have z := x.2.2; guard_hyp z : State; clear z; refine keeps_via (x := x.2.2) ?_ (fun hx => ?_))
           | (have z := x.1; guard_hyp z : State; clear z; refine keeps_via (x := x.1) ?_ (fun hx => ?_))
           | (have z := x.s; guard_hyp z : State; clear z; refine keeps_via (x := x.s) ?_ (fun hx => ?_))
           | (have z := x.1.s; guard_hyp z : State; clear z; refine keeps_via (x := x.1.s) ?_ (fun hx => ?_))
           | (have z := x.2.s; guard_hyp z : State; clear z; refine keeps_via (x := x.2.s) ?_ (fun hx => ?_)))
          rotate_left
          try clear_value x
          rotate_right
          dsimp -zeta only [x])
       | (fail_if_success (have z := x; guard_hyp z : True)
          try clear_value x))
    | ((with_reducible refine keeps_mk rfl ?_); first | with_reducible assumption | exact within_of rfl hT | (with_reducible apply kvRows_keeps) | (with_reducible apply block_keeps) | with_reducible apply foldS_keeps | split | dsimp -zeta only)
    | with_reducible refine keeps_fst (by with_reducible assumption) ?_
    | with_reducible refine keeps_snd (by with_reducible assumption) ?_
    | with_reducible refine keeps_thd (by with_reducible assumption) ?_
    | with_reducible refine attn_fst (by with_reducible assumption) ?_
    | with_reducible refine attn_snd (by with_reducible assumption) ?_
    | split
    | dsimp -zeta only

theorem output_keeps {a : AttnRun} {r : Run} {c : Attn} {bwd : Bool} {rows : List AttnRow} {vals : List (List Num)} (hK : Keeps kc kn F old a.s) (hT : Within 44 F := by exact within_of rfl (by assumption)) :
    Keeps kc kn F old (AttnRun.output a r c bwd rows vals).s := by
  unfold AttnRun.output
  repeat' first
    | with_reducible assumption
    | exact within_of rfl hT
    | with_reducible intro _
    | with_reducible apply put_keeps
    | with_reducible apply arith_keeps
    | with_reducible apply each_keeps
    | with_reducible apply on_keeps
    | (have x : True := trivial
       extract_lets +onlyGivenNames x
       first
       | ((first
           | (have z := x; guard_hyp z : State; clear z; refine keeps_via (x := x) ?_ (fun hx => ?_))
           | (have z := x.2; guard_hyp z : State; clear z; refine keeps_via (x := x.2) ?_ (fun hx => ?_))
           | (have z := x.2.2; guard_hyp z : State; clear z; refine keeps_via (x := x.2.2) ?_ (fun hx => ?_))
           | (have z := x.1; guard_hyp z : State; clear z; refine keeps_via (x := x.1) ?_ (fun hx => ?_))
           | (have z := x.s; guard_hyp z : State; clear z; refine keeps_via (x := x.s) ?_ (fun hx => ?_))
           | (have z := x.1.s; guard_hyp z : State; clear z; refine keeps_via (x := x.1.s) ?_ (fun hx => ?_))
           | (have z := x.2.s; guard_hyp z : State; clear z; refine keeps_via (x := x.2.s) ?_ (fun hx => ?_)))
          rotate_left
          try clear_value x
          rotate_right
          dsimp -zeta only [x])
       | (fail_if_success (have z := x; guard_hyp z : True)
          try clear_value x))
    | with_reducible refine keeps_fst (by with_reducible assumption) ?_
    | with_reducible refine keeps_snd (by with_reducible assumption) ?_
    | with_reducible refine keeps_thd (by with_reducible assumption) ?_
    | with_reducible refine attn_fst (by with_reducible assumption) ?_
    | with_reducible refine attn_snd (by with_reducible assumption) ?_
    | split
    | dsimp -zeta only

theorem countRows_keeps {a : AttnRun} {r : Run} {rows : List AttnRow} {accs : List Acc} (hK : Keeps kc kn F old a.s) (hT : Within 4 F := by exact within_of rfl (by assumption)) :
    Keeps kc kn F old (AttnRun.countRows a r rows accs).s := by
  unfold AttnRun.countRows
  repeat' first
    | with_reducible assumption
    | exact within_of rfl hT
    | with_reducible intro _
    | with_reducible apply bump_keeps
    | with_reducible apply on_keeps
    | (have x : True := trivial
       extract_lets +onlyGivenNames x
       first
       | ((first
           | (have z := x; guard_hyp z : State; clear z; refine keeps_via (x := x) ?_ (fun hx => ?_))
           | (have z := x.2; guard_hyp z : State; clear z; refine keeps_via (x := x.2) ?_ (fun hx => ?_))
           | (have z := x.2.2; guard_hyp z : State; clear z; refine keeps_via (x := x.2.2) ?_ (fun hx => ?_))
           | (have z := x.1; guard_hyp z : State; clear z; refine keeps_via (x := x.1) ?_ (fun hx => ?_))
           | (have z := x.s; guard_hyp z : State; clear z; refine keeps_via (x := x.s) ?_ (fun hx => ?_))
           | (have z := x.1.s; guard_hyp z : State; clear z; refine keeps_via (x := x.1.s) ?_ (fun hx => ?_))
           | (have z := x.2.s; guard_hyp z : State; clear z; refine keeps_via (x := x.2.s) ?_ (fun hx => ?_)))
          rotate_left
          try clear_value x
          rotate_right
          dsimp -zeta only [x])
       | (fail_if_success (have z := x; guard_hyp z : True)
          try clear_value x))
    | ((with_reducible refine keeps_mk rfl ?_); first | with_reducible assumption | exact within_of rfl hT | (with_reducible apply bump_keeps) | (with_reducible apply on_keeps) | split | dsimp -zeta only)
    | dsimp -zeta only

theorem forwardTile_keeps {a : AttnRun} {r : Run} {c : Attn} {e : LenEntry} {ds : List Desc} {t0 n : Nat} (hK : Keeps kc kn F old a.s) (hT : Within 10813038510 F := by exact within_of rfl (by assumption)) :
    Keeps kc kn F old (AttnRun.forwardTile a r c e ds t0 n).s := by
  unfold AttnRun.forwardTile
  repeat' first
    | with_reducible assumption
    | exact within_of rfl hT
    | with_reducible intro _
    | with_reducible apply bump_keeps
    | with_reducible apply arith_keeps
    | with_reducible apply andThen_keeps
    | with_reducible apply each_keeps
    | with_reducible apply on_keeps
    | with_reducible apply check_keeps
    | with_reducible apply rowsOf_keeps
    | with_reducible apply putScores_keeps
    | with_reducible apply readSpill_keeps
    | with_reducible apply store_keeps
    | with_reducible apply scoreBlock_keeps
    | with_reducible apply reduceAll_keeps
    | with_reducible apply output_keeps
    | with_reducible apply countRows_keeps
    | with_reducible apply block_keeps
    | with_reducible apply foldS_keeps
    | with_reducible apply foldS_inv (P := fun a : AttnRun × List AttnRow => Keeps kc kn F old a.1.s)
    | with_reducible apply foldS_inv (P := fun a : AttnRun => Keeps kc kn F old a.s)
    | with_reducible apply foldl_keeps
    | (have x : True := trivial
       extract_lets +onlyGivenNames x
       first
       | ((first
           | (have z := x; guard_hyp z : State; clear z; refine keeps_via (x := x) ?_ (fun hx => ?_))
           | (have z := x.2; guard_hyp z : State; clear z; refine keeps_via (x := x.2) ?_ (fun hx => ?_))
           | (have z := x.2.2; guard_hyp z : State; clear z; refine keeps_via (x := x.2.2) ?_ (fun hx => ?_))
           | (have z := x.1; guard_hyp z : State; clear z; refine keeps_via (x := x.1) ?_ (fun hx => ?_))
           | (have z := x.s; guard_hyp z : State; clear z; refine keeps_via (x := x.s) ?_ (fun hx => ?_))
           | (have z := x.1.s; guard_hyp z : State; clear z; refine keeps_via (x := x.1.s) ?_ (fun hx => ?_))
           | (have z := x.2.s; guard_hyp z : State; clear z; refine keeps_via (x := x.2.s) ?_ (fun hx => ?_)))
          rotate_left
          try clear_value x
          rotate_right
          dsimp -zeta only [x])
       | (fail_if_success (have z := x; guard_hyp z : True)
          try clear_value x))
    | ((with_reducible refine keeps_mk rfl ?_); first | with_reducible assumption | exact within_of rfl hT | (with_reducible apply bump_keeps) | (with_reducible apply arith_keeps) | (with_reducible apply andThen_keeps) | (with_reducible apply each_keeps) | (with_reducible apply on_keeps) | (with_reducible apply check_keeps) | (with_reducible apply rowsOf_keeps) | (with_reducible apply putScores_keeps) | (with_reducible apply readSpill_keeps) | (with_reducible apply store_keeps) | (with_reducible apply scoreBlock_keeps) | (with_reducible apply reduceAll_keeps) | (with_reducible apply output_keeps) | (with_reducible apply countRows_keeps) | (with_reducible apply block_keeps) | with_reducible apply foldS_keeps | split | dsimp -zeta only)
    | with_reducible refine keeps_fst (by with_reducible assumption) ?_
    | with_reducible refine keeps_snd (by with_reducible assumption) ?_
    | with_reducible refine keeps_thd (by with_reducible assumption) ?_
    | with_reducible refine attn_fst (by with_reducible assumption) ?_
    | with_reducible refine attn_snd (by with_reducible assumption) ?_
    | split
    | dsimp -zeta only

theorem backBlock_keeps {r : Run} {c : Attn} {e : LenEntry} {ds : List Desc} {sat : Bool} {dov : List (List Num)} {deltas : List (Nat × Bool × Nat)} {p : AttnRun × List AttnRow × List (List (Nat × Nat × Nat))} {b : Nat} (hK : Keeps kc kn F old p.1.s) (hT : Within 10813038510 F := by exact within_of rfl (by assumption)) :
    Keeps kc kn F old (backBlock r c e ds sat dov deltas p b).1.s := by
  obtain ⟨a, rows, grads⟩ := p
  unfold backBlock
  dsimp only at hK ⊢
  repeat' first
    | with_reducible assumption
    | exact within_of rfl hT
    | with_reducible intro _
    | with_reducible apply arith_keeps
    | with_reducible apply kvRows_keeps
    | with_reducible apply andThen_keeps
    | with_reducible apply each_keeps
    | with_reducible apply on_keeps
    | with_reducible apply check_keeps
    | with_reducible apply putScores_keeps
    | with_reducible apply readSpill_keeps
    | with_reducible apply store_keeps
    | with_reducible apply scoreBlock_keeps
    | with_reducible apply block_keeps
    | with_reducible apply foldl_keeps
    | (have x : True := trivial
       extract_lets +onlyGivenNames x
       first
       | ((first
           | (have z := x; guard_hyp z : State; clear z; refine keeps_via (x := x) ?_ (fun hx => ?_))
           | (have z := x.2; guard_hyp z : State; clear z; refine keeps_via (x := x.2) ?_ (fun hx => ?_))
           | (have z := x.2.2; guard_hyp z : State; clear z; refine keeps_via (x := x.2.2) ?_ (fun hx => ?_))
           | (have z := x.1; guard_hyp z : State; clear z; refine keeps_via (x := x.1) ?_ (fun hx => ?_))
           | (have z := x.s; guard_hyp z : State; clear z; refine keeps_via (x := x.s) ?_ (fun hx => ?_))
           | (have z := x.1.s; guard_hyp z : State; clear z; refine keeps_via (x := x.1.s) ?_ (fun hx => ?_))
           | (have z := x.2.s; guard_hyp z : State; clear z; refine keeps_via (x := x.2.s) ?_ (fun hx => ?_)))
          rotate_left
          try clear_value x
          rotate_right
          dsimp -zeta only [x])
       | (fail_if_success (have z := x; guard_hyp z : True)
          try clear_value x))
    | ((with_reducible refine keeps_mk rfl ?_); first | with_reducible assumption | exact within_of rfl hT | (with_reducible apply arith_keeps) | (with_reducible apply kvRows_keeps) | (with_reducible apply andThen_keeps) | (with_reducible apply each_keeps) | (with_reducible apply on_keeps) | (with_reducible apply check_keeps) | (with_reducible apply putScores_keeps) | (with_reducible apply readSpill_keeps) | (with_reducible apply store_keeps) | (with_reducible apply scoreBlock_keeps) | (with_reducible apply block_keeps) | split | dsimp -zeta only)
    | with_reducible refine keeps_fst (by with_reducible assumption) ?_
    | with_reducible refine keeps_snd (by with_reducible assumption) ?_
    | with_reducible refine keeps_thd (by with_reducible assumption) ?_
    | with_reducible refine attn_fst (by with_reducible assumption) ?_
    | with_reducible refine attn_snd (by with_reducible assumption) ?_
    | split
    | dsimp -zeta only

theorem backwardTile_keeps {a : AttnRun} {r : Run} {c : Attn} {e : LenEntry} {ds : List Desc} {t0 n : Nat} (hK : Keeps kc kn F old a.s) (hT : Within 10813038510 F := by exact within_of rfl (by assumption)) :
    Keeps kc kn F old (AttnRun.backwardTile a r c e ds t0 n).s := by
  unfold AttnRun.backwardTile
  repeat' first
    | with_reducible assumption
    | exact within_of rfl hT
    | with_reducible intro _
    | with_reducible apply bump_keeps
    | with_reducible apply fetchP_keeps
    | with_reducible apply arith_keeps
    | with_reducible apply andThen_keeps
    | with_reducible apply on_keeps
    | with_reducible apply check_keeps
    | with_reducible apply rowsOf_keeps
    | with_reducible apply reduceAll_keeps
    | with_reducible apply backBlock_keeps
    | with_reducible apply foldS_inv (P := fun a : AttnRun × List AttnRow × List (List (Nat × Nat × Nat)) => Keeps kc kn F old a.1.s)
    | with_reducible apply output_keeps
    | with_reducible apply backBlock_keeps
    | with_reducible apply block_keeps
    | with_reducible apply decode_keeps
    | with_reducible apply foldS_keeps
    | with_reducible apply foldS_inv (P := fun a : AttnRun => Keeps kc kn F old a.s)
    | with_reducible apply foldl_keeps
    | (have x : True := trivial
       extract_lets +onlyGivenNames x
       first
       | ((first
           | (have z := x; guard_hyp z : State; clear z; refine keeps_via (x := x) ?_ (fun hx => ?_))
           | (have z := x.2; guard_hyp z : State; clear z; refine keeps_via (x := x.2) ?_ (fun hx => ?_))
           | (have z := x.2.2; guard_hyp z : State; clear z; refine keeps_via (x := x.2.2) ?_ (fun hx => ?_))
           | (have z := x.1; guard_hyp z : State; clear z; refine keeps_via (x := x.1) ?_ (fun hx => ?_))
           | (have z := x.s; guard_hyp z : State; clear z; refine keeps_via (x := x.s) ?_ (fun hx => ?_))
           | (have z := x.1.s; guard_hyp z : State; clear z; refine keeps_via (x := x.1.s) ?_ (fun hx => ?_))
           | (have z := x.2.s; guard_hyp z : State; clear z; refine keeps_via (x := x.2.s) ?_ (fun hx => ?_)))
          rotate_left
          try clear_value x
          rotate_right
          dsimp -zeta only [x])
       | (fail_if_success (have z := x; guard_hyp z : True)
          try clear_value x))
    | ((with_reducible refine keeps_mk rfl ?_); first | with_reducible assumption | exact within_of rfl hT | (with_reducible apply bump_keeps) | (with_reducible apply fetchP_keeps) | (with_reducible apply arith_keeps) | (with_reducible apply andThen_keeps) | (with_reducible apply on_keeps) | (with_reducible apply check_keeps) | (with_reducible apply rowsOf_keeps) | (with_reducible apply reduceAll_keeps) | (with_reducible apply output_keeps) | (with_reducible apply backBlock_keeps) | (with_reducible apply block_keeps) | (with_reducible apply decode_keeps) | with_reducible apply foldS_keeps | split | dsimp -zeta only)
    | with_reducible refine keeps_fst (by with_reducible assumption) ?_
    | with_reducible refine keeps_snd (by with_reducible assumption) ?_
    | with_reducible refine keeps_thd (by with_reducible assumption) ?_
    | with_reducible refine attn_fst (by with_reducible assumption) ?_
    | with_reducible refine attn_snd (by with_reducible assumption) ?_
    | split
    | dsimp -zeta only

theorem entry_keeps {a : AttnRun} {r : Run} {c : Attn} {bwd : Bool} {k : Nat} (hK : Keeps kc kn F old a.s) (hT : Within 10813038510 F := by exact within_of rfl (by assumption)) :
    Keeps kc kn F old (AttnRun.entry a r c bwd k).s := by
  unfold AttnRun.entry
  repeat' first
    | with_reducible assumption
    | exact within_of rfl hT
    | with_reducible intro _
    | with_reducible apply fetchP_keeps
    | with_reducible apply readDescs_keeps
    | with_reducible apply each_keeps
    | with_reducible apply forwardTile_keeps
    | with_reducible apply backwardTile_keeps
    | (have x : True := trivial
       extract_lets +onlyGivenNames x
       first
       | ((first
           | (have z := x; guard_hyp z : State; clear z; refine keeps_via (x := x) ?_ (fun hx => ?_))
           | (have z := x.2; guard_hyp z : State; clear z; refine keeps_via (x := x.2) ?_ (fun hx => ?_))
           | (have z := x.2.2; guard_hyp z : State; clear z; refine keeps_via (x := x.2.2) ?_ (fun hx => ?_))
           | (have z := x.1; guard_hyp z : State; clear z; refine keeps_via (x := x.1) ?_ (fun hx => ?_))
           | (have z := x.s; guard_hyp z : State; clear z; refine keeps_via (x := x.s) ?_ (fun hx => ?_))
           | (have z := x.1.s; guard_hyp z : State; clear z; refine keeps_via (x := x.1.s) ?_ (fun hx => ?_))
           | (have z := x.2.s; guard_hyp z : State; clear z; refine keeps_via (x := x.2.s) ?_ (fun hx => ?_)))
          rotate_left
          try clear_value x
          rotate_right
          dsimp -zeta only [x])
       | (fail_if_success (have z := x; guard_hyp z : True)
          try clear_value x))
    | ((with_reducible refine keeps_mk rfl ?_); first | with_reducible assumption | exact within_of rfl hT | (with_reducible apply fetchP_keeps) | (with_reducible apply readDescs_keeps) | (with_reducible apply each_keeps) | (with_reducible apply forwardTile_keeps) | (with_reducible apply backwardTile_keeps) | split | dsimp -zeta only)
    | split
    | dsimp -zeta only

theorem attnBusy_keeps {g cycles : Nat} (hK : Keeps kc kn F old s) (hT : Within 132 F := by exact within_of rfl (by assumption)) :
    Keeps kc kn F old (State.attnBusy s g cycles) := by
  unfold State.attnBusy
  repeat' first
    | with_reducible assumption
    | exact within_of rfl hT
    | with_reducible intro _
    | with_reducible apply bump_keeps
    | with_reducible apply modHank_keeps
    | (have x : True := trivial
       extract_lets +onlyGivenNames x
       first
       | ((first
           | (have z := x; guard_hyp z : State; clear z; refine keeps_via (x := x) ?_ (fun hx => ?_))
           | (have z := x.2; guard_hyp z : State; clear z; refine keeps_via (x := x.2) ?_ (fun hx => ?_))
           | (have z := x.2.2; guard_hyp z : State; clear z; refine keeps_via (x := x.2.2) ?_ (fun hx => ?_))
           | (have z := x.1; guard_hyp z : State; clear z; refine keeps_via (x := x.1) ?_ (fun hx => ?_)))
          rotate_left
          try clear_value x
          rotate_right
          dsimp -zeta only [x])
       | (fail_if_success (have z := x; guard_hyp z : True)
          try clear_value x))
    | ((with_reducible refine keeps_mk rfl ?_); first | with_reducible assumption | exact within_of rfl hT | (with_reducible apply bump_keeps) | (with_reducible apply modHank_keeps) | split | dsimp -zeta only)
    | dsimp -zeta only

theorem put_fresh (s : State) (a : Nat) (bs : List Byte) : (s.put a bs).fresh = s.fresh := by
  unfold State.put State.wrote
  split
  · rfl
  · dsimp only
    split <;> rfl

theorem spoilWork_keeps {r : Run} (hK : Keeps kc kn F old s) (hT : Within 42 F := by exact within_of rfl (by assumption)) :
    Keeps kc kn F old (State.spoilWork s r) := by
  unfold State.spoilWork
  extract_lets a
  split
  · exact keeps_mk rfl (put_keeps hK) (hf := by rw [put_fresh]; exact Nat.le_add_right _ _)
  · exact hK

theorem attnBody_keeps {r : Run} {u : Upset} {bwd : Bool} (hK : Keeps kc kn F old s) (hT : Within 10813038510 F := by exact within_of rfl (by assumption)) :
    Keeps kc kn F old (State.attnBody s r u bwd).2.2 := by
  unfold State.attnBody
  repeat' first
    | with_reducible assumption
    | exact within_of rfl hT
    | with_reducible intro _
    | with_reducible apply bump_keeps
    | with_reducible apply inc_keeps
    | with_reducible apply fetchP_keeps
    | with_reducible apply usedRandom_keeps
    | with_reducible apply arith_keeps
    | with_reducible apply setAcc_keeps
    | with_reducible apply macBusy_keeps
    | with_reducible apply each_keeps
    | with_reducible apply entry_keeps
    | with_reducible apply attnBusy_keeps
    | with_reducible apply spoilWork_keeps
    | (have x : True := trivial
       extract_lets +onlyGivenNames x
       first
       | ((first
           | (have z := x; guard_hyp z : State; clear z; refine keeps_via (x := x) ?_ (fun hx => ?_))
           | (have z := x.2; guard_hyp z : State; clear z; refine keeps_via (x := x.2) ?_ (fun hx => ?_))
           | (have z := x.2.2; guard_hyp z : State; clear z; refine keeps_via (x := x.2.2) ?_ (fun hx => ?_))
           | (have z := x.1; guard_hyp z : State; clear z; refine keeps_via (x := x.1) ?_ (fun hx => ?_))
           | (have z := x.s; guard_hyp z : State; clear z; refine keeps_via (x := x.s) ?_ (fun hx => ?_))
           | (have z := x.1.s; guard_hyp z : State; clear z; refine keeps_via (x := x.1.s) ?_ (fun hx => ?_))
           | (have z := x.2.s; guard_hyp z : State; clear z; refine keeps_via (x := x.2.s) ?_ (fun hx => ?_)))
          rotate_left
          try clear_value x
          rotate_right
          dsimp -zeta only [x])
       | (fail_if_success (have z := x; guard_hyp z : True)
          try clear_value x))
    | split
    | dsimp -zeta only

theorem attnRun_keeps {r : Run} {u : Upset} {bwd : Bool} (hK : Keeps kc kn F old s) (hT : Within 10813038510 F := by exact within_of rfl (by assumption)) :
    Keeps kc kn F old (State.attnRun s r u bwd).2.2 := by
  unfold State.attnRun
  repeat' first
    | with_reducible assumption
    | exact within_of rfl hT
    | with_reducible apply scratchUpset_keeps
    | with_reducible apply setAcc_keeps
    | with_reducible apply attnBusy_keeps
    | with_reducible apply attnBody_keeps
    | (have x : True := trivial
       extract_lets +onlyGivenNames x
       first
       | ((first
           | (have z := x; guard_hyp z : State; clear z; refine keeps_via (x := x) ?_ (fun hx => ?_))
           | (have z := x.2; guard_hyp z : State; clear z; refine keeps_via (x := x.2) ?_ (fun hx => ?_))
           | (have z := x.2.2; guard_hyp z : State; clear z; refine keeps_via (x := x.2.2) ?_ (fun hx => ?_))
           | (have z := x.1; guard_hyp z : State; clear z; refine keeps_via (x := x.1) ?_ (fun hx => ?_)))
          rotate_left
          try clear_value x
          rotate_right
          dsimp -zeta only [x])
       | (fail_if_success (have z := x; guard_hyp z : True)
          try clear_value x))
    | split
    | dsimp -zeta only

theorem runAttn_keeps {st : Nat} {u : Upset} {bwd : Bool} (hK : Keeps kc kn F old s) (hT : Within 10813038574 F := by exact within_of rfl (by assumption)) :
    Keeps kc kn F old (State.runAttn s st u bwd) := by
  unfold State.runAttn
  repeat' first
    | with_reducible assumption
    | exact within_of rfl hT
    | with_reducible intro _
    | with_reducible apply runHitch_keeps
    | with_reducible apply attnRun_keeps
    | ((with_reducible refine keeps_mk rfl ?_); first | with_reducible assumption | exact within_of rfl hT | (with_reducible apply runHitch_keeps) | (with_reducible apply attnRun_keeps) | split | dsimp only)
    | dsimp only

theorem execForward_keeps {st : Fin 128} {u : Upset} (hK : Keeps kc kn F old s) (hT : Within 10813038574 F := by exact within_of rfl (by assumption)) :
    NextKeeps kc kn F old (execForward st u s) := by
  unfold execForward
  repeat' first
    | with_reducible assumption
    | with_reducible apply next_keeps
    | with_reducible exact fault_keeps
    | exact within_of rfl hT
    | with_reducible apply runAttn_keeps
    | dsimp only

theorem execBackward_keeps {st : Fin 128} {u : Upset} (hK : Keeps kc kn F old s) (hT : Within 10813038574 F := by exact within_of rfl (by assumption)) :
    NextKeeps kc kn F old (execBackward st u s) := by
  unfold execBackward
  repeat' first
    | with_reducible assumption
    | with_reducible apply next_keeps
    | with_reducible exact fault_keeps
    | exact within_of rfl hT
    | with_reducible apply runAttn_keeps
    | dsimp only

end Sys2Proof.Machine
end

