-- ==== Sys2Proof/Laws/KeepsControl.lean ====
section
/-! SUPPORT. What the operations of Machine/Control.lean keep: one lemma for each. -/

namespace Sys2Proof.Machine

set_option linter.all false
set_option Elab.async false

variable {kc kn : Bool} {F : Field → Bool} {old s : State}

theorem modPos_keeps {g p : Nat} {f : Pos → Pos} (hK : Keeps kc kn F old s) (hT : Within 128 F := by exact within_of rfl (by assumption)) :
    Keeps kc kn F old (State.modPos s g p f) := by
  unfold State.modPos
  repeat' first
    | with_reducible assumption
    | exact within_of rfl hT
    | with_reducible intro _
    | with_reducible apply modHank_keeps
    | ((with_reducible refine keeps_mk rfl ?_); first | with_reducible assumption | exact within_of rfl hT | (with_reducible apply modHank_keeps) | split | dsimp only)
    | dsimp only

theorem takeAvail_keeps {st : Nat} (hK : Keeps kc kn F old s) (hT : Within 32 F := by exact within_of rfl (by assumption)) :
    Keeps kc kn F old (State.takeAvail s st) := by
  unfold State.takeAvail
  repeat' first
    | with_reducible assumption
    | exact within_of rfl hT
    | with_reducible intro _
    | with_reducible apply modStrand_keeps
    | (have x : True := trivial
       extract_lets +onlyGivenNames x
       first
       | ((first
           | (have z := x; guard_hyp z : State; clear z; refine keeps_via (x := x) ?_ (fun hx => ?_))
           | (have z := x.2; guard_hyp z : State; clear z; refine keeps_via (x := x.2) ?_ (fun hx => ?_))
           | (have z := x.2.2; guard_hyp z : State; clear z; refine keeps_via (x := x.2.2) ?_ (fun hx => ?_))
           | (have z := x.1; guard_hyp z : State; clear z; refine keeps_via (x := x.1) ?_ (fun hx => ?_)))
          rotate_left
          try clear_value x
          rotate_right
          dsimp -zeta only [x])
       | (fail_if_success (have z := x; guard_hyp z : True)
          try clear_value x))
    | ((with_reducible refine keeps_mk rfl ?_); first | with_reducible assumption | exact within_of rfl hT | (with_reducible apply modStrand_keeps) | split | dsimp -zeta only)
    | dsimp -zeta only

theorem freeAvail_keeps {st : Nat} (hK : Keeps kc kn F old s) (hT : Within 32 F := by exact within_of rfl (by assumption)) :
    Keeps kc kn F old (State.freeAvail s st) := by
  unfold State.freeAvail
  repeat' first | with_reducible assumption | exact within_of rfl hT | with_reducible apply takeAvail_keeps | split | dsimp only

theorem hankLost_keeps {g : Nat} (hK : Keeps kc kn F old s) (hT : Within 10737451268 F := by exact within_of rfl (by assumption)) :
    Keeps kc kn F old (State.hankLost s g) := by
  unfold State.hankLost
  repeat' first
    | with_reducible assumption
    | exact within_of rfl hT
    | with_reducible intro _
    | with_reducible apply fsr_keeps
    | (have x : True := trivial
       extract_lets +onlyGivenNames x
       first
       | ((first
           | (have z := x; guard_hyp z : State; clear z; refine keeps_via (x := x) ?_ (fun hx => ?_))
           | (have z := x.2; guard_hyp z : State; clear z; refine keeps_via (x := x.2) ?_ (fun hx => ?_))
           | (have z := x.2.2; guard_hyp z : State; clear z; refine keeps_via (x := x.2.2) ?_ (fun hx => ?_))
           | (have z := x.1; guard_hyp z : State; clear z; refine keeps_via (x := x.1) ?_ (fun hx => ?_)))
          rotate_left
          try clear_value x
          rotate_right
          dsimp -zeta only [x])
       | (fail_if_success (have z := x; guard_hyp z : True)
          try clear_value x))
    | ((with_reducible refine keeps_mk rfl ?_); first | with_reducible assumption | exact within_of rfl hT | (with_reducible apply fsr_keeps) | split | dsimp -zeta only)
    | split
    | dsimp -zeta only

theorem quarantine_keeps {st cells : Nat} (hK : Keeps kc kn F old s) (hT : Within 10737451300 F := by exact within_of rfl (by assumption)) :
    Keeps kc kn F old (State.quarantine s st cells) := by
  unfold State.quarantine
  repeat' first
    | with_reducible assumption
    | exact within_of rfl hT
    | with_reducible apply setReg_keeps
    | with_reducible apply fsr_keeps
    | with_reducible apply freeAvail_keeps
    | with_reducible apply hankLost_keeps
    | (have x : True := trivial
       extract_lets +onlyGivenNames x
       first
       | ((first
           | (have z := x; guard_hyp z : State; clear z; refine keeps_via (x := x) ?_ (fun hx => ?_))
           | (have z := x.2; guard_hyp z : State; clear z; refine keeps_via (x := x.2) ?_ (fun hx => ?_))
           | (have z := x.2.2; guard_hyp z : State; clear z; refine keeps_via (x := x.2.2) ?_ (fun hx => ?_))
           | (have z := x.1; guard_hyp z : State; clear z; refine keeps_via (x := x.1) ?_ (fun hx => ?_)))
          rotate_left
          try clear_value x
          rotate_right
          dsimp -zeta only [x])
       | (fail_if_success (have z := x; guard_hyp z : True)
          try clear_value x))
    | ((with_reducible refine keeps_mk rfl ?_); first | with_reducible assumption | exact within_of rfl hT | (with_reducible apply setReg_keeps) | (with_reducible apply fsr_keeps) | (with_reducible apply freeAvail_keeps) | (with_reducible apply hankLost_keeps) | split | dsimp -zeta only)
    | split
    | dsimp -zeta only

theorem scoreRise_keeps {st cell : Nat} (hK : Keeps kc kn F old s) (hT : Within 10737451300 F := by exact within_of rfl (by assumption)) :
    Keeps kc kn F old (State.scoreRise s st cell) := by
  unfold State.scoreRise
  repeat' first
    | with_reducible assumption
    | exact within_of rfl hT
    | with_reducible intro _
    | with_reducible apply modStrand_keeps
    | with_reducible apply quarantine_keeps
    | (have x : True := trivial
       extract_lets +onlyGivenNames x
       first
       | ((first
           | (have z := x; guard_hyp z : State; clear z; refine keeps_via (x := x) ?_ (fun hx => ?_))
           | (have z := x.2; guard_hyp z : State; clear z; refine keeps_via (x := x.2) ?_ (fun hx => ?_))
           | (have z := x.2.2; guard_hyp z : State; clear z; refine keeps_via (x := x.2.2) ?_ (fun hx => ?_))
           | (have z := x.1; guard_hyp z : State; clear z; refine keeps_via (x := x.1) ?_ (fun hx => ?_)))
          rotate_left
          try clear_value x
          rotate_right
          dsimp -zeta only [x])
       | ((first
           | (have z := x; guard_hyp z : Security)
           | (have z := x; guard_hyp z : Lease))
          dsimp -zeta only [x])
       | (fail_if_success (have z := x; guard_hyp z : True)
          try clear_value x))
    | ((with_reducible refine keeps_mk rfl ?_); first | with_reducible assumption | exact within_of rfl hT | (with_reducible apply modStrand_keeps) | (with_reducible apply quarantine_keeps) | split | dsimp -zeta only)
    | split
    | dsimp -zeta only

theorem countHeld_keeps {g : Nat} (hK : Keeps kc kn F old s) (hT : Within 132 F := by exact within_of rfl (by assumption)) :
    Keeps kc kn F old (State.countHeld s g) := by
  unfold State.countHeld
  repeat' first
    | with_reducible assumption
    | exact within_of rfl hT
    | with_reducible intro _
    | with_reducible apply bump_keeps
    | with_reducible apply modHank_keeps
    | (have x : True := trivial
       extract_lets +onlyGivenNames x
       first
       | ((first
           | (have z := x; guard_hyp z : State; clear z; refine keeps_via (x := x) ?_ (fun hx => ?_))
           | (have z := x.2; guard_hyp z : State; clear z; refine keeps_via (x := x.2) ?_ (fun hx => ?_))
           | (have z := x.2.2; guard_hyp z : State; clear z; refine keeps_via (x := x.2.2) ?_ (fun hx => ?_))
           | (have z := x.1; guard_hyp z : State; clear z; refine keeps_via (x := x.1) ?_ (fun hx => ?_)))
          rotate_left
          try clear_value x
          rotate_right
          dsimp -zeta only [x])
       | (fail_if_success (have z := x; guard_hyp z : True)
          try clear_value x))
    | ((with_reducible refine keeps_mk rfl ?_); first | with_reducible assumption | exact within_of rfl hT | (with_reducible apply bump_keeps) | (with_reducible apply modHank_keeps) | split | dsimp -zeta only)
    | with_reducible refine keeps_fst (by with_reducible assumption) ?_
    | with_reducible refine keeps_snd (by with_reducible assumption) ?_
    | with_reducible refine keeps_thd (by with_reducible assumption) ?_
    | split
    | dsimp -zeta only

theorem noteBack_keeps {p g : Nat} (hK : Keeps kc kn F old s) (hT : Within 132 F := by exact within_of rfl (by assumption)) :
    Keeps kc kn F old (State.noteBack s p g) := by
  unfold State.noteBack
  repeat' first
    | with_reducible assumption
    | exact within_of rfl hT
    | with_reducible intro _
    | with_reducible apply modHank_keeps
    | with_reducible apply countHeld_keeps
    | (have x : True := trivial
       extract_lets +onlyGivenNames x
       first
       | ((first
           | (have z := x; guard_hyp z : State; clear z; refine keeps_via (x := x) ?_ (fun hx => ?_))
           | (have z := x.2; guard_hyp z : State; clear z; refine keeps_via (x := x.2) ?_ (fun hx => ?_))
           | (have z := x.2.2; guard_hyp z : State; clear z; refine keeps_via (x := x.2.2) ?_ (fun hx => ?_))
           | (have z := x.1; guard_hyp z : State; clear z; refine keeps_via (x := x.1) ?_ (fun hx => ?_)))
          rotate_left
          try clear_value x
          rotate_right
          dsimp -zeta only [x])
       | (fail_if_success (have z := x; guard_hyp z : True)
          try clear_value x))
    | ((with_reducible refine keeps_mk rfl ?_); first | with_reducible assumption | exact within_of rfl hT | (with_reducible apply modHank_keeps) | (with_reducible apply countHeld_keeps) | split | dsimp -zeta only)
    | split
    | dsimp -zeta only

theorem noteHeld_keeps {p g : Nat} (hK : Keeps kc kn F old s) (hT : Within 134217860 F := by exact within_of rfl (by assumption)) :
    Keeps kc kn F old (State.noteHeld s p g) := by
  unfold State.noteHeld
  repeat' first | with_reducible assumption | exact within_of rfl hT | with_reducible apply aimHank_keeps | with_reducible apply noteBack_keeps | dsimp only

theorem discardQueued_keeps {p : Nat} (hK : Keeps kc kn F old s) (hT : Within 36 F := by exact within_of rfl (by assumption)) :
    Keeps kc kn F old (State.discardQueued s p) := by
  unfold State.discardQueued
  repeat' first
    | with_reducible assumption
    | exact within_of rfl hT
    | with_reducible intro _
    | with_reducible apply bump_keeps
    | with_reducible apply modStrand_keeps
    | with_reducible apply foldS_keeps
    | (have x : True := trivial
       extract_lets +onlyGivenNames x
       first
       | ((first
           | (have z := x; guard_hyp z : State; clear z; refine keeps_via (x := x) ?_ (fun hx => ?_))
           | (have z := x.2; guard_hyp z : State; clear z; refine keeps_via (x := x.2) ?_ (fun hx => ?_))
           | (have z := x.2.2; guard_hyp z : State; clear z; refine keeps_via (x := x.2.2) ?_ (fun hx => ?_))
           | (have z := x.1; guard_hyp z : State; clear z; refine keeps_via (x := x.1) ?_ (fun hx => ?_)))
          rotate_left
          try clear_value x
          rotate_right
          dsimp -zeta only [x])
       | (fail_if_success (have z := x; guard_hyp z : True)
          try clear_value x))
    | ((with_reducible refine keeps_mk rfl ?_); first | with_reducible assumption | exact within_of rfl hT | (with_reducible apply bump_keeps) | (with_reducible apply modStrand_keeps) | with_reducible apply foldS_keeps | split | dsimp -zeta only)
    | split
    | dsimp -zeta only

theorem putBlock_keeps {p : Nat} {b : Blocking} (hK : Keeps kc kn F old s) (hT : Within 260 F := by exact within_of rfl (by assumption)) :
    Keeps kc kn F old (State.putBlock s p b) := by
  unfold State.putBlock
  repeat' first
    | with_reducible assumption
    | exact within_of rfl hT
    | with_reducible intro _
    | with_reducible apply setReg_keeps
    | with_reducible apply modStep_keeps
    | with_reducible apply foldS_keeps
    | (have x : True := trivial
       extract_lets +onlyGivenNames x
       first
       | ((first
           | (have z := x; guard_hyp z : State; clear z; refine keeps_via (x := x) ?_ (fun hx => ?_))
           | (have z := x.2; guard_hyp z : State; clear z; refine keeps_via (x := x.2) ?_ (fun hx => ?_))
           | (have z := x.2.2; guard_hyp z : State; clear z; refine keeps_via (x := x.2.2) ?_ (fun hx => ?_))
           | (have z := x.1; guard_hyp z : State; clear z; refine keeps_via (x := x.1) ?_ (fun hx => ?_)))
          rotate_left
          try clear_value x
          rotate_right
          dsimp -zeta only [x])
       | (fail_if_success (have z := x; guard_hyp z : True)
          try clear_value x))
    | ((with_reducible refine keeps_mk rfl ?_); first | with_reducible assumption | exact within_of rfl hT | (with_reducible apply setReg_keeps) | (with_reducible apply modStep_keeps) | with_reducible apply foldS_keeps | split | dsimp -zeta only)
    | dsimp -zeta only

theorem block_keeps {p : Nat} {b : Blocking} (hK : Keeps kc kn F old s) (hT : Within 10947250094 F := by exact within_of rfl (by assumption)) :
    Keeps kc kn F old (State.block s p b) := by
  unfold State.block
  repeat' first
    | with_reducible assumption
    | exact within_of rfl hT
    | with_reducible intro _
    | with_reducible apply inc_keeps
    | with_reducible apply sendVote_keeps
    | with_reducible apply modVote_keeps
    | with_reducible apply noteHeld_keeps
    | with_reducible apply discardQueued_keeps
    | with_reducible apply putBlock_keeps
    | with_reducible apply foldS_keeps
    | (have x : True := trivial
       extract_lets +onlyGivenNames x
       first
       | ((first
           | (have z := x; guard_hyp z : State; clear z; refine keeps_via (x := x) ?_ (fun hx => ?_))
           | (have z := x.2; guard_hyp z : State; clear z; refine keeps_via (x := x.2) ?_ (fun hx => ?_))
           | (have z := x.2.2; guard_hyp z : State; clear z; refine keeps_via (x := x.2.2) ?_ (fun hx => ?_))
           | (have z := x.1; guard_hyp z : State; clear z; refine keeps_via (x := x.1) ?_ (fun hx => ?_)))
          rotate_left
          try clear_value x
          rotate_right
          dsimp -zeta only [x])
       | (fail_if_success (have z := x; guard_hyp z : True)
          try clear_value x))
    | ((with_reducible refine keeps_mk rfl ?_); first | with_reducible assumption | exact within_of rfl hT | (with_reducible apply inc_keeps) | (with_reducible apply sendVote_keeps) | (with_reducible apply modVote_keeps) | (with_reducible apply noteHeld_keeps) | (with_reducible apply discardQueued_keeps) | (with_reducible apply putBlock_keeps) | with_reducible apply foldS_keeps | split | dsimp -zeta only)
    | with_reducible refine keeps_fst (by with_reducible assumption) ?_
    | with_reducible refine keeps_snd (by with_reducible assumption) ?_
    | with_reducible refine keeps_thd (by with_reducible assumption) ?_
    | split
    | dsimp -zeta only

theorem raise_keeps {p g pos index : Nat} {strand : Option Nat} {st : Nat} (hK : Keeps kc kn F old s) (hT : Within 10947250094 F := by exact within_of rfl (by assumption)) :
    Keeps kc kn F old (State.raise s p g pos index strand st) := by
  unfold State.raise
  repeat' first
    | with_reducible assumption
    | exact within_of rfl hT
    | with_reducible intro _
    | with_reducible apply modStep_keeps
    | with_reducible apply fsr_keeps
    | with_reducible apply scoreRise_keeps
    | with_reducible apply block_keeps
    | (have x : True := trivial
       extract_lets +onlyGivenNames x
       first
       | ((first
           | (have z := x; guard_hyp z : State; clear z; refine keeps_via (x := x) ?_ (fun hx => ?_))
           | (have z := x.2; guard_hyp z : State; clear z; refine keeps_via (x := x.2) ?_ (fun hx => ?_))
           | (have z := x.2.2; guard_hyp z : State; clear z; refine keeps_via (x := x.2.2) ?_ (fun hx => ?_))
           | (have z := x.1; guard_hyp z : State; clear z; refine keeps_via (x := x.1) ?_ (fun hx => ?_)))
          rotate_left
          try clear_value x
          rotate_right
          dsimp -zeta only [x])
       | (fail_if_success (have z := x; guard_hyp z : True)
          try clear_value x))
    | ((with_reducible refine keeps_mk rfl ?_); first | with_reducible assumption | exact within_of rfl hT | (with_reducible apply modStep_keeps) | (with_reducible apply fsr_keeps) | (with_reducible apply scoreRise_keeps) | (with_reducible apply block_keeps) | split | dsimp -zeta only)
    | with_reducible refine keeps_fst (by with_reducible assumption) ?_
    | with_reducible refine keeps_snd (by with_reducible assumption) ?_
    | with_reducible refine keeps_thd (by with_reducible assumption) ?_
    | split
    | dsimp -zeta only

theorem complete_keeps {p g pos index strand : Nat} {w : HitchWord} {st : Nat} (hK : Keeps kc kn F old s) (hT : Within 10947250158 F := by exact within_of rfl (by assumption)) :
    Keeps kc kn F old (State.complete s p g pos index strand w st) := by
  unfold State.complete
  repeat' first
    | with_reducible assumption
    | exact within_of rfl hT
    | with_reducible apply signalKnot_keeps
    | with_reducible apply raise_keeps
    | (have x : True := trivial
       extract_lets +onlyGivenNames x
       first
       | ((first
           | (have z := x; guard_hyp z : State; clear z; refine keeps_via (x := x) ?_ (fun hx => ?_))
           | (have z := x.2; guard_hyp z : State; clear z; refine keeps_via (x := x.2) ?_ (fun hx => ?_))
           | (have z := x.2.2; guard_hyp z : State; clear z; refine keeps_via (x := x.2.2) ?_ (fun hx => ?_))
           | (have z := x.1; guard_hyp z : State; clear z; refine keeps_via (x := x.1) ?_ (fun hx => ?_)))
          rotate_left
          try clear_value x
          rotate_right
          dsimp -zeta only [x])
       | (fail_if_success (have z := x; guard_hyp z : True)
          try clear_value x))
    | split
    | dsimp -zeta only

theorem popHitch_keeps {g p : Nat} (hK : Keeps kc kn F old s) (hT : Within 128 F := by exact within_of rfl (by assumption)) :
    Keeps kc kn F old (State.popHitch s g p) := by
  unfold State.popHitch
  repeat' first
    | with_reducible assumption
    | exact within_of rfl hT
    | with_reducible intro _
    | with_reducible apply modPos_keeps
    | ((with_reducible refine keeps_mk rfl ?_); first | with_reducible assumption | exact within_of rfl hT | (with_reducible apply modPos_keeps) | split | dsimp only)
    | dsimp only

theorem clearKnots_keeps {p : Nat} (hK : Keeps kc kn F old s) (hT : Within 96 F := by exact within_of rfl (by assumption)) :
    Keeps kc kn F old (State.clearKnots s p) := by
  unfold State.clearKnots
  repeat' first
    | with_reducible assumption
    | exact within_of rfl hT
    | with_reducible intro _
    | with_reducible apply modStrand_keeps
    | with_reducible apply foldS_keeps
    | (have x : True := trivial
       extract_lets +onlyGivenNames x
       first
       | ((first
           | (have z := x; guard_hyp z : State; clear z; refine keeps_via (x := x) ?_ (fun hx => ?_))
           | (have z := x.2; guard_hyp z : State; clear z; refine keeps_via (x := x.2) ?_ (fun hx => ?_))
           | (have z := x.2.2; guard_hyp z : State; clear z; refine keeps_via (x := x.2.2) ?_ (fun hx => ?_))
           | (have z := x.1; guard_hyp z : State; clear z; refine keeps_via (x := x.1) ?_ (fun hx => ?_)))
          rotate_left
          try clear_value x
          rotate_right
          dsimp -zeta only [x])
       | (fail_if_success (have z := x; guard_hyp z : True)
          try clear_value x))
    | ((with_reducible refine keeps_mk rfl ?_); first | with_reducible assumption | exact within_of rfl hT | (with_reducible apply modStrand_keeps) | with_reducible apply foldS_keeps | split | dsimp -zeta only)
    | dsimp -zeta only

end Sys2Proof.Machine
end

