-- ==== Sys2Proof/Laws/KeepsKv.lean ====
section
/-! SUPPORT. What the operations of Machine/Kv.lean keep: one lemma for each. -/

namespace Sys2Proof.Machine

set_option linter.all false
set_option Elab.async false

variable {kc kn : Bool} {F : Field → Bool} {old s : State}

theorem setPage_keeps {idx : Nat} {x : Option Page} (hK : Keeps kc kn F old s) (hT : Within 2097152 F := by exact within_of rfl (by assumption)) :
    Keeps kc kn F old (State.setPage s idx x) := by
  unfold State.setPage
  repeat' first | with_reducible assumption | exact within_of rfl hT | ((with_reducible refine keeps_mk rfl ?_); first | with_reducible assumption | exact within_of rfl hT | split | dsimp only) | dsimp only

theorem modPage_keeps {idx : Nat} {f : Page → Page} (hK : Keeps kc kn F old s) (hT : Within 2097152 F := by exact within_of rfl (by assumption)) :
    Keeps kc kn F old (State.modPage s idx f) := by
  unfold State.modPage
  repeat' first | with_reducible assumption | exact within_of rfl hT | ((with_reducible refine keeps_mk rfl ?_); first | with_reducible assumption | exact within_of rfl hT | split | dsimp only) | dsimp only

theorem setList_keeps {p : Nat} {ct : Bool} {l : FreeList} (hK : Keeps kc kn F old s) (hT : Within 2097152 F := by exact within_of rfl (by assumption)) :
    Keeps kc kn F old (State.setList s p ct l) := by
  unfold State.setList
  repeat' first | with_reducible assumption | exact within_of rfl hT | ((with_reducible refine keeps_mk rfl ?_); first | with_reducible assumption | exact within_of rfl hT | split | dsimp only) | dsimp only

theorem takeFrom_keeps {p : Nat} {ct : Bool} {x : Nat} {y : State} (e : State.takeFrom s p ct = some (x, y))
    (hK : Keeps kc kn F old s) (hT : Within 2097152 F := by exact within_of rfl (by assumption)) : Keeps kc kn F old y := by
  unfold State.takeFrom at e
  dsimp only at e
  split at e
  · cases e
    exact setList_keeps hK
  · split at e
    · cases e
      exact setList_keeps hK
    · cases e

theorem takePage_keeps {p : Nat} {x : Nat} {b : Bool} {y : State} (e : State.takePage s p = some (x, b, y))
    (hK : Keeps kc kn F old s) (hT : Within 2097152 F := by exact within_of rfl (by assumption)) : Keeps kc kn F old y := by
  unfold State.takePage at e
  split at e
  · rename_i h
    cases e
    exact takeFrom_keeps h hK
  · simp only [Option.map_eq_some_iff] at e
    obtain ⟨z, h, e⟩ := e
    cases e
    exact takeFrom_keeps (x := z.1) h hK

theorem freePage_keeps {p idx : Nat} (hK : Keeps kc kn F old s) (hT : Within 2097152 F := by exact within_of rfl (by assumption)) :
    Keeps kc kn F old (State.freePage s p idx) := by
  unfold State.freePage
  repeat' first
    | with_reducible assumption
    | exact within_of rfl hT
    | with_reducible apply setPage_keeps
    | with_reducible apply setList_keeps
    | with_reducible apply returned_keeps
    | (have x : True := trivial
       extract_lets +onlyGivenNames x
       first
       | ((first
           | (have z := x; guard_hyp z : State; clear z; refine keeps_via (x := x) ?_ (fun hx => ?_))
           | (have z := x.2; guard_hyp z : State; clear z; refine keeps_via (x := x.2) ?_ (fun hx => ?_))
           | (have z := x.2.2; guard_hyp z : State; clear z; refine keeps_via (x := x.2.2) ?_ (fun hx => ?_))
           | (have z := x.1; guard_hyp z : State; clear z; refine keeps_via (x := x.1) ?_ (fun hx => ?_)))
          rotate_left
          try clear_value x
          rotate_right
          dsimp -zeta only [x])
       | (fail_if_success (have z := x; guard_hyp z : True)
          try clear_value x))
    | ((with_reducible refine keeps_mk rfl ?_); first | with_reducible assumption | exact within_of rfl hT | (with_reducible apply setPage_keeps) | (with_reducible apply setList_keeps) | (with_reducible apply returned_keeps) | split | dsimp -zeta only)
    | split
    | dsimp -zeta only

theorem cancelMove_keeps {idx : Nat} (hK : Keeps kc kn F old s) (hT : Within 2097152 F := by exact within_of rfl (by assumption)) :
    Keeps kc kn F old (State.cancelMove s idx) := by
  unfold State.cancelMove
  repeat' first
    | with_reducible assumption
    | exact within_of rfl hT
    | with_reducible intro _
    | with_reducible apply modPage_keeps
    | with_reducible apply freePage_keeps
    | (have x : True := trivial
       extract_lets +onlyGivenNames x
       first
       | ((first
           | (have z := x; guard_hyp z : State; clear z; refine keeps_via (x := x) ?_ (fun hx => ?_))
           | (have z := x.2; guard_hyp z : State; clear z; refine keeps_via (x := x.2) ?_ (fun hx => ?_))
           | (have z := x.2.2; guard_hyp z : State; clear z; refine keeps_via (x := x.2.2) ?_ (fun hx => ?_))
           | (have z := x.1; guard_hyp z : State; clear z; refine keeps_via (x := x.1) ?_ (fun hx => ?_)))
          rotate_left
          try clear_value x
          rotate_right
          dsimp -zeta only [x])
       | (fail_if_success (have z := x; guard_hyp z : True)
          try clear_value x))
    | ((with_reducible refine keeps_mk rfl ?_); first | with_reducible assumption | exact within_of rfl hT | (with_reducible apply modPage_keeps) | (with_reducible apply freePage_keeps) | split | dsimp -zeta only)
    | with_reducible refine keeps_fst (by with_reducible assumption) ?_
    | with_reducible refine keeps_snd (by with_reducible assumption) ?_
    | with_reducible refine keeps_thd (by with_reducible assumption) ?_
    | split
    | dsimp -zeta only

theorem dropRef_keeps {p idx : Nat} (hK : Keeps kc kn F old s) (hT : Within 2097152 F := by exact within_of rfl (by assumption)) :
    Keeps kc kn F old (State.dropRef s p idx) := by
  unfold State.dropRef
  repeat' first
    | with_reducible assumption
    | exact within_of rfl hT
    | with_reducible apply setPage_keeps
    | with_reducible apply freePage_keeps
    | with_reducible apply cancelMove_keeps
    | (have x : True := trivial
       extract_lets +onlyGivenNames x
       first
       | ((first
           | (have z := x; guard_hyp z : State; clear z; refine keeps_via (x := x) ?_ (fun hx => ?_))
           | (have z := x.2; guard_hyp z : State; clear z; refine keeps_via (x := x.2) ?_ (fun hx => ?_))
           | (have z := x.2.2; guard_hyp z : State; clear z; refine keeps_via (x := x.2.2) ?_ (fun hx => ?_))
           | (have z := x.1; guard_hyp z : State; clear z; refine keeps_via (x := x.1) ?_ (fun hx => ?_)))
          rotate_left
          try clear_value x
          rotate_right
          dsimp -zeta only [x])
       | (fail_if_success (have z := x; guard_hyp z : True)
          try clear_value x))
    | ((with_reducible refine keeps_mk rfl ?_); first | with_reducible assumption | exact within_of rfl hT | (with_reducible apply setPage_keeps) | (with_reducible apply freePage_keeps) | (with_reducible apply cancelMove_keeps) | split | dsimp -zeta only)
    | with_reducible refine keeps_fst (by with_reducible assumption) ?_
    | with_reducible refine keeps_snd (by with_reducible assumption) ?_
    | with_reducible refine keeps_thd (by with_reducible assumption) ?_
    | split
    | dsimp -zeta only

theorem setChain_keeps {c : Nat} {x : Chain} (hK : Keeps kc kn F old s) (hT : Within 2097152 F := by exact within_of rfl (by assumption)) :
    Keeps kc kn F old (State.setChain s c x) := by
  unfold State.setChain
  repeat' first | with_reducible assumption | exact within_of rfl hT | ((with_reducible refine keeps_mk rfl ?_); first | with_reducible assumption | exact within_of rfl hT | split | dsimp only) | split | dsimp only

theorem modChain_keeps {c : Nat} {f : Chain → Chain} (hK : Keeps kc kn F old s) (hT : Within 2097152 F := by exact within_of rfl (by assumption)) :
    Keeps kc kn F old (State.modChain s c f) := by
  unfold State.modChain
  repeat' first | with_reducible assumption | exact within_of rfl hT | with_reducible apply setChain_keeps | dsimp only

theorem freeEntries_keeps {f : Bight → Bool} (hK : Keeps kc kn F old s) (hT : Within 2097152 F := by exact within_of rfl (by assumption)) :
    Keeps kc kn F old (State.freeEntries s f) := by
  unfold State.freeEntries
  repeat' first | with_reducible assumption | exact within_of rfl hT | with_reducible intro _ | ((with_reducible refine keeps_mk rfl ?_); first | with_reducible assumption | exact within_of rfl hT | split | dsimp only) | dsimp only

theorem modBight_keeps {f : Bight → Bight} (hK : Keeps kc kn F old s) (hT : Within 2097152 F := by exact within_of rfl (by assumption)) :
    Keeps kc kn F old (State.modBight s f) := by
  unfold State.modBight
  repeat' first | with_reducible assumption | exact within_of rfl hT | ((with_reducible refine keeps_mk rfl ?_); first | with_reducible assumption | exact within_of rfl hT | split | dsimp only) | dsimp only

theorem modSeqs_keeps {f : Nat → Sequence → Sequence} (hK : Keeps kc kn F old s) (hT : Within 4194304 F := by exact within_of rfl (by assumption)) :
    Keeps kc kn F old (State.modSeqs s f) := by
  unfold State.modSeqs
  repeat' first | with_reducible assumption | exact within_of rfl hT | ((with_reducible refine keeps_mk rfl ?_); first | with_reducible assumption | exact within_of rfl hT | split | dsimp only) | dsimp only

theorem modSeq_keeps {q : Nat} {f : Sequence → Sequence} (hK : Keeps kc kn F old s) (hT : Within 4194304 F := by exact within_of rfl (by assumption)) :
    Keeps kc kn F old (State.modSeq s q f) := by
  unfold State.modSeq
  repeat' first | with_reducible assumption | exact within_of rfl hT | ((with_reducible refine keeps_mk rfl ?_); first | with_reducible assumption | exact within_of rfl hT | split | dsimp only) | dsimp only

theorem corruptChain_keeps {p c st : Nat} (hK : Keeps kc kn F old s) (hT : Within 10743742724 F := by exact within_of rfl (by assumption)) :
    Keeps kc kn F old (State.corruptChain s p c st) := by
  unfold State.corruptChain
  repeat' first
    | with_reducible assumption
    | exact within_of rfl hT
    | with_reducible intro _
    | with_reducible apply fsr_keeps
    | with_reducible apply modChain_keeps
    | with_reducible apply modSeq_keeps
    | (have x : True := trivial
       extract_lets +onlyGivenNames x
       first
       | ((first
           | (have z := x; guard_hyp z : State; clear z; refine keeps_via (x := x) ?_ (fun hx => ?_))
           | (have z := x.2; guard_hyp z : State; clear z; refine keeps_via (x := x.2) ?_ (fun hx => ?_))
           | (have z := x.2.2; guard_hyp z : State; clear z; refine keeps_via (x := x.2.2) ?_ (fun hx => ?_))
           | (have z := x.1; guard_hyp z : State; clear z; refine keeps_via (x := x.1) ?_ (fun hx => ?_)))
          rotate_left
          try clear_value x
          rotate_right
          dsimp -zeta only [x])
       | (fail_if_success (have z := x; guard_hyp z : True)
          try clear_value x))
    | ((with_reducible refine keeps_mk rfl ?_); first | with_reducible assumption | exact within_of rfl hT | (with_reducible apply fsr_keeps) | (with_reducible apply modChain_keeps) | (with_reducible apply modSeq_keeps) | split | dsimp -zeta only)
    | dsimp -zeta only

theorem closeChain_keeps {c : Nat} (hK : Keeps kc kn F old s) (hT : Within 2097152 F := by exact within_of rfl (by assumption)) :
    Keeps kc kn F old (State.closeChain s c) := by
  unfold State.closeChain
  repeat' first
    | with_reducible assumption
    | exact within_of rfl hT
    | with_reducible intro _
    | with_reducible apply dropRef_keeps
    | with_reducible apply modChain_keeps
    | with_reducible apply freeEntries_keeps
    | with_reducible apply foldS_keeps
    | (have x : True := trivial
       extract_lets +onlyGivenNames x
       first
       | ((first
           | (have z := x; guard_hyp z : State; clear z; refine keeps_via (x := x) ?_ (fun hx => ?_))
           | (have z := x.2; guard_hyp z : State; clear z; refine keeps_via (x := x.2) ?_ (fun hx => ?_))
           | (have z := x.2.2; guard_hyp z : State; clear z; refine keeps_via (x := x.2.2) ?_ (fun hx => ?_))
           | (have z := x.1; guard_hyp z : State; clear z; refine keeps_via (x := x.1) ?_ (fun hx => ?_)))
          rotate_left
          try clear_value x
          rotate_right
          dsimp -zeta only [x])
       | (fail_if_success (have z := x; guard_hyp z : True)
          try clear_value x))
    | ((with_reducible refine keeps_mk rfl ?_); first | with_reducible assumption | exact within_of rfl hT | (with_reducible apply dropRef_keeps) | (with_reducible apply modChain_keeps) | (with_reducible apply freeEntries_keeps) | with_reducible apply foldS_keeps | split | dsimp -zeta only)
    | dsimp -zeta only

theorem linkPage_keeps {c idx : Nat} (hK : Keeps kc kn F old s) (hT : Within 2097152 F := by exact within_of rfl (by assumption)) :
    Keeps kc kn F old (State.linkPage s c idx) := by
  unfold State.linkPage
  repeat' first
    | with_reducible assumption
    | exact within_of rfl hT
    | with_reducible intro _
    | with_reducible apply modPage_keeps
    | with_reducible apply modChain_keeps
    | (have x : True := trivial
       extract_lets +onlyGivenNames x
       first
       | ((first
           | (have z := x; guard_hyp z : State; clear z; refine keeps_via (x := x) ?_ (fun hx => ?_))
           | (have z := x.2; guard_hyp z : State; clear z; refine keeps_via (x := x.2) ?_ (fun hx => ?_))
           | (have z := x.2.2; guard_hyp z : State; clear z; refine keeps_via (x := x.2.2) ?_ (fun hx => ?_))
           | (have z := x.1; guard_hyp z : State; clear z; refine keeps_via (x := x.1) ?_ (fun hx => ?_)))
          rotate_left
          try clear_value x
          rotate_right
          dsimp -zeta only [x])
       | (fail_if_success (have z := x; guard_hyp z : True)
          try clear_value x))
    | ((with_reducible refine keeps_mk rfl ?_); first | with_reducible assumption | exact within_of rfl hT | (with_reducible apply modPage_keeps) | (with_reducible apply modChain_keeps) | split | dsimp -zeta only)
    | split
    | dsimp -zeta only

theorem newPage_keeps {c idx : Nat} {ct : Bool} (hK : Keeps kc kn F old s) (hT : Within 2097152 F := by exact within_of rfl (by assumption)) :
    Keeps kc kn F old (State.newPage s c idx ct) := by
  unfold State.newPage
  repeat' first
    | with_reducible assumption
    | exact within_of rfl hT
    | with_reducible apply setPage_keeps
    | with_reducible apply frame_keeps
    | (have x : True := trivial
       extract_lets +onlyGivenNames x
       first
       | ((first
           | (have z := x; guard_hyp z : State; clear z; refine keeps_via (x := x) ?_ (fun hx => ?_))
           | (have z := x.2; guard_hyp z : State; clear z; refine keeps_via (x := x.2) ?_ (fun hx => ?_))
           | (have z := x.2.2; guard_hyp z : State; clear z; refine keeps_via (x := x.2.2) ?_ (fun hx => ?_))
           | (have z := x.1; guard_hyp z : State; clear z; refine keeps_via (x := x.1) ?_ (fun hx => ?_)))
          rotate_left
          try clear_value x
          rotate_right
          dsimp -zeta only [x])
       | (fail_if_success (have z := x; guard_hyp z : True)
          try clear_value x))
    | split
    | dsimp -zeta only

theorem copyEntry_keeps {b : Bight} {x : Chain} {idx fill : Nat} (hK : Keeps kc kn F old s) (hT : Within 10813038510 F := by exact within_of rfl (by assumption)) :
    Keeps kc kn F old (State.copyEntry s b x idx fill) := by
  unfold State.copyEntry
  repeat' first
    | with_reducible assumption
    | exact within_of rfl hT
    | with_reducible intro _
    | with_reducible apply storeMpa_keeps
    | with_reducible apply frame_keeps
    | with_reducible apply foldS_keeps
    | (have x : True := trivial
       extract_lets +onlyGivenNames x
       first
       | ((first
           | (have z := x; guard_hyp z : State; clear z; refine keeps_via (x := x) ?_ (fun hx => ?_))
           | (have z := x.2; guard_hyp z : State; clear z; refine keeps_via (x := x.2) ?_ (fun hx => ?_))
           | (have z := x.2.2; guard_hyp z : State; clear z; refine keeps_via (x := x.2.2) ?_ (fun hx => ?_))
           | (have z := x.1; guard_hyp z : State; clear z; refine keeps_via (x := x.1) ?_ (fun hx => ?_)))
          rotate_left
          try clear_value x
          rotate_right
          dsimp -zeta only [x])
       | (fail_if_success (have z := x; guard_hyp z : True)
          try clear_value x))
    | ((with_reducible refine keeps_mk rfl ?_); first | with_reducible assumption | exact within_of rfl hT | (with_reducible apply storeMpa_keeps) | (with_reducible apply frame_keeps) | with_reducible apply foldS_keeps | split | dsimp -zeta only)
    | with_reducible refine keeps_fst (by with_reducible assumption) ?_
    | with_reducible refine keeps_snd (by with_reducible assumption) ?_
    | with_reducible refine keeps_thd (by with_reducible assumption) ?_
    | split
    | dsimp -zeta only

theorem flushChain_keeps {c : Nat} {bad : List (Nat × Nat)} {es : List Bight} (hK : Keeps kc kn F old s) (hT : Within 10819329966 F := by exact within_of rfl (by assumption)) :
    Keeps kc kn F old (State.flushChain s c bad es) := by
  induction es generalizing s with
  | nil => exact hK
  | cons b rest ih =>
    unfold State.flushChain
    extract_lets x fill room got
    have hg : ∀ y, got = some y → Keeps kc kn F old y := by
      intro y e
      dsimp only [got] at e
      split at e
      · cases e
        exact hK
      · rw [Option.map_eq_some_iff] at e
        obtain ⟨t, ht, e⟩ := e
        subst e
        exact linkPage_keeps (newPage_keeps (takePage_keeps (x := t.1) (b := t.2.1) ht hK))
    clear_value got x
    split
    · exact corruptChain_keeps hK
    split
    · repeat' first
        | with_reducible assumption | exact within_of rfl hT
        | with_reducible apply inc_keeps
        | with_reducible apply modChain_keeps
        | with_reducible apply modBight_keeps
        | split
        | dsimp only
        | with_reducible refine keeps_mk rfl ?_
    · exact ih (inc_keeps (freeEntries_keeps (modChain_keeps (modPage_keeps (copyEntry_keeps (hg _ rfl))))))

theorem unstarve_keeps {c : Nat} (hK : Keeps kc kn F old s) (hT : Within 2097152 F := by exact within_of rfl (by assumption)) :
    Keeps kc kn F old (State.unstarve s c) := by
  unfold State.unstarve
  repeat' first
    | with_reducible assumption
    | exact within_of rfl hT
    | with_reducible intro _
    | with_reducible apply modChain_keeps
    | (have x : True := trivial
       extract_lets +onlyGivenNames x
       first
       | ((first
           | (have z := x; guard_hyp z : State; clear z; refine keeps_via (x := x) ?_ (fun hx => ?_))
           | (have z := x.2; guard_hyp z : State; clear z; refine keeps_via (x := x.2) ?_ (fun hx => ?_))
           | (have z := x.2.2; guard_hyp z : State; clear z; refine keeps_via (x := x.2.2) ?_ (fun hx => ?_))
           | (have z := x.1; guard_hyp z : State; clear z; refine keeps_via (x := x.1) ?_ (fun hx => ?_)))
          rotate_left
          try clear_value x
          rotate_right
          dsimp -zeta only [x])
       | (fail_if_success (have z := x; guard_hyp z : True)
          try clear_value x))
    | ((with_reducible refine keeps_mk rfl ?_); first | with_reducible assumption | exact within_of rfl hT | (with_reducible apply modChain_keeps) | split | dsimp -zeta only)
    | split
    | dsimp -zeta only

theorem flushHeld_keeps {p : Nat} (hK : Keeps kc kn F old s) (hT : Within 10819329966 F := by exact within_of rfl (by assumption)) :
    Keeps kc kn F old (State.flushHeld s p) := by
  unfold State.flushHeld
  repeat' first
    | with_reducible assumption
    | exact within_of rfl hT
    | with_reducible intro _
    | with_reducible apply flushChain_keeps
    | with_reducible apply unstarve_keeps
    | with_reducible apply foldS_keeps
    | dsimp only

theorem setTtl_keeps {p q : Nat} {on : Bool} (hK : Keeps kc kn F old s) (hT : Within 2097152 F := by exact within_of rfl (by assumption)) :
    Keeps kc kn F old (State.setTtl s p q on) := by
  unfold State.setTtl
  repeat' first
    | with_reducible assumption
    | exact within_of rfl hT
    | with_reducible intro _
    | with_reducible apply on_keeps
    | with_reducible apply modPage_keeps
    | with_reducible apply foldS_keeps
    | (have x : True := trivial
       extract_lets +onlyGivenNames x
       first
       | ((first
           | (have z := x; guard_hyp z : State; clear z; refine keeps_via (x := x) ?_ (fun hx => ?_))
           | (have z := x.2; guard_hyp z : State; clear z; refine keeps_via (x := x.2) ?_ (fun hx => ?_))
           | (have z := x.2.2; guard_hyp z : State; clear z; refine keeps_via (x := x.2.2) ?_ (fun hx => ?_))
           | (have z := x.1; guard_hyp z : State; clear z; refine keeps_via (x := x.1) ?_ (fun hx => ?_)))
          rotate_left
          try clear_value x
          rotate_right
          dsimp -zeta only [x])
       | (fail_if_success (have z := x; guard_hyp z : True)
          try clear_value x))
    | ((with_reducible refine keeps_mk rfl ?_); first | with_reducible assumption | exact within_of rfl hT | (with_reducible apply on_keeps) | (with_reducible apply modPage_keeps) | with_reducible apply foldS_keeps | split | dsimp -zeta only)
    | split
    | dsimp -zeta only

theorem setChains_keeps {q : Nat} {st : ChainState} (hK : Keeps kc kn F old s) (hT : Within 2097152 F := by exact within_of rfl (by assumption)) :
    Keeps kc kn F old (State.setChains s q st) := by
  unfold State.setChains
  repeat' first
    | with_reducible assumption
    | exact within_of rfl hT
    | with_reducible intro _
    | with_reducible apply modChain_keeps
    | with_reducible apply foldS_keeps
    | ((with_reducible refine keeps_mk rfl ?_); first | with_reducible assumption | exact within_of rfl hT | (with_reducible apply modChain_keeps) | with_reducible apply foldS_keeps | split | dsimp only)
    | dsimp only

theorem pause_keeps {p q : Nat} (hK : Keeps kc kn F old s) (hT : Within 6291456 F := by exact within_of rfl (by assumption)) :
    Keeps kc kn F old (State.pause s p q) := by
  unfold State.pause
  repeat' first
    | with_reducible assumption
    | exact within_of rfl hT
    | with_reducible intro _
    | with_reducible apply modSeq_keeps
    | with_reducible apply setTtl_keeps
    | with_reducible apply setChains_keeps
    | (have x : True := trivial
       extract_lets +onlyGivenNames x
       first
       | ((first
           | (have z := x; guard_hyp z : State; clear z; refine keeps_via (x := x) ?_ (fun hx => ?_))
           | (have z := x.2; guard_hyp z : State; clear z; refine keeps_via (x := x.2) ?_ (fun hx => ?_))
           | (have z := x.2.2; guard_hyp z : State; clear z; refine keeps_via (x := x.2.2) ?_ (fun hx => ?_))
           | (have z := x.1; guard_hyp z : State; clear z; refine keeps_via (x := x.1) ?_ (fun hx => ?_)))
          rotate_left
          try clear_value x
          rotate_right
          dsimp -zeta only [x])
       | (fail_if_success (have z := x; guard_hyp z : True)
          try clear_value x))
    | ((with_reducible refine keeps_mk rfl ?_); first | with_reducible assumption | exact within_of rfl hT | (with_reducible apply modSeq_keeps) | (with_reducible apply setTtl_keeps) | (with_reducible apply setChains_keeps) | split | dsimp -zeta only)
    | dsimp -zeta only

theorem unstarveSeqs_keeps {p : Nat} (hK : Keeps kc kn F old s) (hT : Within 6291456 F := by exact within_of rfl (by assumption)) :
    Keeps kc kn F old (State.unstarveSeqs s p) := by
  unfold State.unstarveSeqs
  repeat' first
    | with_reducible assumption
    | exact within_of rfl hT
    | with_reducible intro _
    | with_reducible apply modSeq_keeps
    | with_reducible apply pause_keeps
    | with_reducible apply decode_keeps
    | with_reducible apply foldS_keeps
    | (have x : True := trivial
       extract_lets +onlyGivenNames x
       first
       | ((first
           | (have z := x; guard_hyp z : State; clear z; refine keeps_via (x := x) ?_ (fun hx => ?_))
           | (have z := x.2; guard_hyp z : State; clear z; refine keeps_via (x := x.2) ?_ (fun hx => ?_))
           | (have z := x.2.2; guard_hyp z : State; clear z; refine keeps_via (x := x.2.2) ?_ (fun hx => ?_))
           | (have z := x.1; guard_hyp z : State; clear z; refine keeps_via (x := x.1) ?_ (fun hx => ?_)))
          rotate_left
          try clear_value x
          rotate_right
          dsimp -zeta only [x])
       | (fail_if_success (have z := x; guard_hyp z : True)
          try clear_value x))
    | ((with_reducible refine keeps_mk rfl ?_); first | with_reducible assumption | exact within_of rfl hT | (with_reducible apply modSeq_keeps) | (with_reducible apply pause_keeps) | (with_reducible apply decode_keeps) | with_reducible apply foldS_keeps | split | dsimp -zeta only)
    | split
    | dsimp -zeta only

theorem freePending_keeps {p : Nat} (hK : Keeps kc kn F old s) (hT : Within 2097156 F := by exact within_of rfl (by assumption)) :
    Keeps kc kn F old (State.freePending s p) := by
  unfold State.freePending
  repeat' first
    | with_reducible assumption
    | exact within_of rfl hT
    | with_reducible intro _
    | with_reducible apply bump_keeps
    | with_reducible apply freeEntries_keeps
    | (have x : True := trivial
       extract_lets +onlyGivenNames x
       first
       | ((first
           | (have z := x; guard_hyp z : State; clear z; refine keeps_via (x := x) ?_ (fun hx => ?_))
           | (have z := x.2; guard_hyp z : State; clear z; refine keeps_via (x := x.2) ?_ (fun hx => ?_))
           | (have z := x.2.2; guard_hyp z : State; clear z; refine keeps_via (x := x.2.2) ?_ (fun hx => ?_))
           | (have z := x.1; guard_hyp z : State; clear z; refine keeps_via (x := x.1) ?_ (fun hx => ?_)))
          rotate_left
          try clear_value x
          rotate_right
          dsimp -zeta only [x])
       | (fail_if_success (have z := x; guard_hyp z : True)
          try clear_value x))
    | ((with_reducible refine keeps_mk rfl ?_); first | with_reducible assumption | exact within_of rfl hT | (with_reducible apply bump_keeps) | (with_reducible apply freeEntries_keeps) | split | dsimp -zeta only)
    | dsimp -zeta only

theorem unwalk_keeps {p : Nat} (hK : Keeps kc kn F old s) (hT : Within 2097152 F := by exact within_of rfl (by assumption)) :
    Keeps kc kn F old (State.unwalk s p) := by
  unfold State.unwalk
  repeat' first
    | with_reducible assumption
    | exact within_of rfl hT
    | with_reducible intro _
    | ((with_reducible refine keeps_mk rfl ?_); first | with_reducible assumption | exact within_of rfl hT | split | dsimp only)
    | split
    | dsimp only

theorem kvCommit_keeps {p : Nat} {expired : List Nat} {bad : List (Nat × Nat)} (hK : Keeps kc kn F old s) (hT : Within 10819329966 F := by exact within_of rfl (by assumption)) :
    Keeps kc kn F old (State.kvCommit s p expired bad) := by
  unfold State.kvCommit
  repeat' first
    | with_reducible assumption
    | exact within_of rfl hT
    | with_reducible intro _
    | with_reducible apply bump_keeps
    | with_reducible apply freeEntries_keeps
    | with_reducible apply modBight_keeps
    | with_reducible apply closeChain_keeps
    | with_reducible apply flushChain_keeps
    | with_reducible apply unstarve_keeps
    | with_reducible apply unstarveSeqs_keeps
    | with_reducible apply unwalk_keeps
    | with_reducible apply take_keeps
    | with_reducible apply foldS_keeps
    | (have x : True := trivial
       extract_lets +onlyGivenNames x
       first
       | ((first
           | (have z := x; guard_hyp z : State; clear z; refine keeps_via (x := x) ?_ (fun hx => ?_))
           | (have z := x.2; guard_hyp z : State; clear z; refine keeps_via (x := x.2) ?_ (fun hx => ?_))
           | (have z := x.2.2; guard_hyp z : State; clear z; refine keeps_via (x := x.2.2) ?_ (fun hx => ?_))
           | (have z := x.1; guard_hyp z : State; clear z; refine keeps_via (x := x.1) ?_ (fun hx => ?_)))
          rotate_left
          try clear_value x
          rotate_right
          dsimp -zeta only [x])
       | (fail_if_success (have z := x; guard_hyp z : True)
          try clear_value x))
    | ((with_reducible refine keeps_mk rfl ?_); first | with_reducible assumption | exact within_of rfl hT | (with_reducible apply bump_keeps) | (with_reducible apply freeEntries_keeps) | (with_reducible apply modBight_keeps) | (with_reducible apply closeChain_keeps) | (with_reducible apply flushChain_keeps) | (with_reducible apply unstarve_keeps) | (with_reducible apply unstarveSeqs_keeps) | (with_reducible apply unwalk_keeps) | (with_reducible apply take_keeps) | with_reducible apply foldS_keeps | split | dsimp -zeta only)
    | split
    | dsimp -zeta only

theorem walkBody_keeps {p die : Nat} {w : HitchWord} {mirror : Bool} (hK : Keeps kc kn F old s) (hT : Within 10815135662 F := by exact within_of rfl (by assumption)) :
    Keeps kc kn F old (State.walkBody s p die w mirror).2 := by
  unfold State.walkBody
  repeat' first
    | with_reducible assumption
    | exact within_of rfl hT
    | with_reducible intro _
    | with_reducible apply fsr_keeps
    | with_reducible apply fetchP_keeps
    | with_reducible apply storeP_keeps
    | with_reducible apply modChain_keeps
    | with_reducible apply take_keeps
    | (have x : True := trivial
       extract_lets +onlyGivenNames x
       first
       | ((first
           | (have z := x; guard_hyp z : State; clear z; refine keeps_via (x := x) ?_ (fun hx => ?_))
           | (have z := x.2; guard_hyp z : State; clear z; refine keeps_via (x := x.2) ?_ (fun hx => ?_))
           | (have z := x.2.2; guard_hyp z : State; clear z; refine keeps_via (x := x.2.2) ?_ (fun hx => ?_))
           | (have z := x.1; guard_hyp z : State; clear z; refine keeps_via (x := x.1) ?_ (fun hx => ?_)))
          rotate_left
          try clear_value x
          rotate_right
          dsimp -zeta only [x])
       | (fail_if_success (have z := x; guard_hyp z : True)
          try clear_value x))
    | ((with_reducible refine keeps_mk rfl ?_); first | with_reducible assumption | exact within_of rfl hT | (with_reducible apply fsr_keeps) | (with_reducible apply fetchP_keeps) | (with_reducible apply storeP_keeps) | (with_reducible apply modChain_keeps) | (with_reducible apply take_keeps) | split | dsimp -zeta only)
    | split
    | dsimp -zeta only

theorem markControl_keeps {p g pos : Nat} {w : HitchWord} {order : Bool} (hK : Keeps kc kn F old s) (hT : Within 128 F := by exact within_of rfl (by assumption)) :
    Keeps kc kn F old (State.markControl s p g pos w order) := by
  unfold State.markControl
  repeat' first
    | with_reducible assumption
    | exact within_of rfl hT
    | with_reducible intro _
    | with_reducible apply modPos_keeps
    | ((with_reducible refine keeps_mk rfl ?_); first | with_reducible assumption | exact within_of rfl hT | (with_reducible apply modPos_keeps) | split | dsimp only)
    | split
    | dsimp only

theorem refuseHitch_keeps {p g pos index : Nat} {w : HitchWord} {st : Nat} (hK : Keeps kc kn F old s) (hT : Within 10947250158 F := by exact within_of rfl (by assumption)) :
    Keeps kc kn F old (State.refuseHitch s p g pos index w st) := by
  unfold State.refuseHitch
  repeat' first | with_reducible assumption | exact within_of rfl hT | with_reducible apply complete_keeps | with_reducible apply popHitch_keeps | dsimp only

theorem appendBody_keeps {r : Run} (hK : Keeps kc kn F old s) (hT : Within 2097160 F := by exact within_of rfl (by assumption)) :
    Keeps kc kn F old (State.appendBody s r).2.2 := by
  unfold State.appendBody
  repeat' first
    | with_reducible assumption
    | exact within_of rfl hT
    | with_reducible apply poke_keeps
    | with_reducible apply take_keeps
    | (have x : True := trivial
       extract_lets +onlyGivenNames x
       first
       | ((first
           | (have z := x; guard_hyp z : State; clear z; refine keeps_via (x := x) ?_ (fun hx => ?_))
           | (have z := x.2; guard_hyp z : State; clear z; refine keeps_via (x := x.2) ?_ (fun hx => ?_))
           | (have z := x.2.2; guard_hyp z : State; clear z; refine keeps_via (x := x.2.2) ?_ (fun hx => ?_))
           | (have z := x.1; guard_hyp z : State; clear z; refine keeps_via (x := x.1) ?_ (fun hx => ?_)))
          rotate_left
          try clear_value x
          rotate_right
          dsimp -zeta only [x])
       | (fail_if_success (have z := x; guard_hyp z : True)
          try clear_value x))
    | ((with_reducible refine keeps_mk rfl ?_); first | with_reducible assumption | exact within_of rfl hT | (with_reducible apply poke_keeps) | (with_reducible apply take_keeps) | split | dsimp -zeta only)
    | with_reducible refine keeps_fst (by with_reducible assumption) ?_
    | with_reducible refine keeps_snd (by with_reducible assumption) ?_
    | with_reducible refine keeps_thd (by with_reducible assumption) ?_
    | split
    | dsimp -zeta only

theorem startMove_keeps {p src : Nat} {demote : Bool} (hK : Keeps kc kn F old s) (hT : Within 2097152 F := by exact within_of rfl (by assumption)) :
    Keeps kc kn F old (State.startMove s p src demote) := by
  unfold State.startMove
  repeat' first
    | with_reducible assumption
    | exact within_of rfl hT
    | with_reducible apply setPage_keeps
    | with_reducible apply frame_keeps
    | with_reducible apply takeFrom_keeps (by with_reducible assumption)
    | (have x : True := trivial
       extract_lets +onlyGivenNames x
       first
       | ((first
           | (have z := x; guard_hyp z : State; clear z; refine keeps_via (x := x) ?_ (fun hx => ?_))
           | (have z := x.2; guard_hyp z : State; clear z; refine keeps_via (x := x.2) ?_ (fun hx => ?_))
           | (have z := x.2.2; guard_hyp z : State; clear z; refine keeps_via (x := x.2.2) ?_ (fun hx => ?_))
           | (have z := x.1; guard_hyp z : State; clear z; refine keeps_via (x := x.1) ?_ (fun hx => ?_)))
          rotate_left
          try clear_value x
          rotate_right
          dsimp -zeta only [x])
       | (fail_if_success (have z := x; guard_hyp z : True)
          try clear_value x))
    | ((with_reducible refine keeps_mk rfl ?_); first | with_reducible assumption | exact within_of rfl hT | (with_reducible apply setPage_keeps) | (with_reducible apply frame_keeps) | (with_reducible apply takeFrom_keeps (by with_reducible assumption)) | split | dsimp -zeta only)
    | with_reducible refine keeps_fst (by with_reducible assumption) ?_
    | with_reducible refine keeps_snd (by with_reducible assumption) ?_
    | with_reducible refine keeps_thd (by with_reducible assumption) ?_
    | split
    | dsimp -zeta only

theorem repoint_keeps {a b : Nat} (hK : Keeps kc kn F old s) (hT : Within 2097152 F := by exact within_of rfl (by assumption)) :
    Keeps kc kn F old (State.repoint s a b) := by
  unfold State.repoint
  repeat' first
    | with_reducible assumption
    | exact within_of rfl hT
    | with_reducible intro _
    | (have x : True := trivial
       extract_lets +onlyGivenNames x
       first
       | ((first
           | (have z := x; guard_hyp z : State; clear z; refine keeps_via (x := x) ?_ (fun hx => ?_))
           | (have z := x.2; guard_hyp z : State; clear z; refine keeps_via (x := x.2) ?_ (fun hx => ?_))
           | (have z := x.2.2; guard_hyp z : State; clear z; refine keeps_via (x := x.2.2) ?_ (fun hx => ?_))
           | (have z := x.1; guard_hyp z : State; clear z; refine keeps_via (x := x.1) ?_ (fun hx => ?_)))
          rotate_left
          try clear_value x
          rotate_right
          dsimp -zeta only [x])
       | (fail_if_success (have z := x; guard_hyp z : True)
          try clear_value x))
    | ((with_reducible refine keeps_mk rfl ?_); first | with_reducible assumption | exact within_of rfl hT | split | dsimp -zeta only)
    | split
    | dsimp -zeta only

theorem finishResume_keeps {q : Nat} (hK : Keeps kc kn F old s) (hT : Within 6291456 F := by exact within_of rfl (by assumption)) :
    Keeps kc kn F old (State.finishResume s q) := by
  unfold State.finishResume
  repeat' first
    | with_reducible assumption
    | exact within_of rfl hT
    | with_reducible intro _
    | with_reducible apply modSeq_keeps
    | with_reducible apply setChains_keeps
    | (have x : True := trivial
       extract_lets +onlyGivenNames x
       first
       | ((first
           | (have z := x; guard_hyp z : State; clear z; refine keeps_via (x := x) ?_ (fun hx => ?_))
           | (have z := x.2; guard_hyp z : State; clear z; refine keeps_via (x := x.2) ?_ (fun hx => ?_))
           | (have z := x.2.2; guard_hyp z : State; clear z; refine keeps_via (x := x.2.2) ?_ (fun hx => ?_))
           | (have z := x.1; guard_hyp z : State; clear z; refine keeps_via (x := x.1) ?_ (fun hx => ?_)))
          rotate_left
          try clear_value x
          rotate_right
          dsimp -zeta only [x])
       | (fail_if_success (have z := x; guard_hyp z : True)
          try clear_value x))
    | ((with_reducible refine keeps_mk rfl ?_); first | with_reducible assumption | exact within_of rfl hT | (with_reducible apply modSeq_keeps) | (with_reducible apply setChains_keeps) | split | dsimp -zeta only)
    | with_reducible refine keeps_fst (by with_reducible assumption) ?_
    | with_reducible refine keeps_snd (by with_reducible assumption) ?_
    | with_reducible refine keeps_thd (by with_reducible assumption) ?_
    | split
    | dsimp -zeta only

theorem finishResumes_keeps {p : Nat} (hK : Keeps kc kn F old s) (hT : Within 6291456 F := by exact within_of rfl (by assumption)) :
    Keeps kc kn F old (State.finishResumes s p) := by
  unfold State.finishResumes
  repeat' first
    | with_reducible assumption
    | exact within_of rfl hT
    | with_reducible intro _
    | with_reducible apply finishResume_keeps
    | with_reducible apply foldS_keeps
    | dsimp only

theorem sendShip_keeps {x : Ship} {payload : List Byte} {resend : Bool} (hK : Keeps kc kn F old s) (hT : Within 10813032366 F := by exact within_of rfl (by assumption)) :
    Keeps kc kn F old (State.sendShip s x payload resend) := by
  unfold State.sendShip
  repeat' first
    | with_reducible assumption
    | exact within_of rfl hT
    | with_reducible apply originate_keeps
    | (have x : True := trivial
       extract_lets +onlyGivenNames x
       first
       | ((first
           | (have z := x; guard_hyp z : State; clear z; refine keeps_via (x := x) ?_ (fun hx => ?_))
           | (have z := x.2; guard_hyp z : State; clear z; refine keeps_via (x := x.2) ?_ (fun hx => ?_))
           | (have z := x.2.2; guard_hyp z : State; clear z; refine keeps_via (x := x.2.2) ?_ (fun hx => ?_))
           | (have z := x.1; guard_hyp z : State; clear z; refine keeps_via (x := x.1) ?_ (fun hx => ?_)))
          rotate_left
          try clear_value x
          rotate_right
          dsimp -zeta only [x])
       | (fail_if_success (have z := x; guard_hyp z : True)
          try clear_value x))
    | ((with_reducible refine keeps_mk rfl ?_); first | with_reducible assumption | exact within_of rfl hT | (with_reducible apply originate_keeps) | split | dsimp -zeta only)
    | dsimp -zeta only

theorem sendPages_keeps {num : Nat} {x : Ship} {resend : Bool} {pages : List (Nat × Nat)} (hK : Keeps kc kn F old s) (hT : Within 10813038510 F := by exact within_of rfl (by assumption)) :
    Keeps kc kn F old (State.sendPages s num x resend pages).2 := by
  induction pages generalizing s num x resend with
  | nil =>
    unfold State.sendPages
    repeat' first
      | with_reducible assumption
      | exact within_of rfl hT
      | with_reducible intro _
      | with_reducible apply fetchMpa_keeps
      | with_reducible apply sendShip_keeps
      | with_reducible apply take_keeps
      | with_reducible apply frame_keeps
      | with_reducible apply foldS_keeps
      | (have x : True := trivial
         extract_lets +onlyGivenNames x
         first
         | ((first
             | (have z := x; guard_hyp z : State; clear z; refine keeps_via (x := x) ?_ (fun hx => ?_))
             | (have z := x.2; guard_hyp z : State; clear z; refine keeps_via (x := x.2) ?_ (fun hx => ?_))
             | (have z := x.2.2; guard_hyp z : State; clear z; refine keeps_via (x := x.2.2) ?_ (fun hx => ?_))
             | (have z := x.1; guard_hyp z : State; clear z; refine keeps_via (x := x.1) ?_ (fun hx => ?_)))
            rotate_left
            try clear_value x
            rotate_right
            dsimp -zeta only [x])
         | (fail_if_success (have z := x; guard_hyp z : True)
            try clear_value x))
      | ((with_reducible refine keeps_mk rfl ?_); first | with_reducible assumption | exact within_of rfl hT | (with_reducible apply fetchMpa_keeps) | (with_reducible apply sendShip_keeps) | (with_reducible apply take_keeps) | (with_reducible apply frame_keeps) | with_reducible apply foldS_keeps | split | dsimp -zeta only)
      | with_reducible refine keeps_fst (by with_reducible assumption) ?_
      | with_reducible refine keeps_snd (by with_reducible assumption) ?_
      | with_reducible refine keeps_thd (by with_reducible assumption) ?_
      | split
      | dsimp -zeta only
  | cons y ys ih =>
    unfold State.sendPages
    repeat' first
      | with_reducible assumption
      | exact within_of rfl hT
      | with_reducible intro _
      | with_reducible apply ih
      | with_reducible apply fetchMpa_keeps
      | with_reducible apply sendShip_keeps
      | with_reducible apply take_keeps
      | with_reducible apply frame_keeps
      | with_reducible apply foldS_keeps
      | (have x : True := trivial
         extract_lets +onlyGivenNames x
         first
         | ((first
             | (have z := x; guard_hyp z : State; clear z; refine keeps_via (x := x) ?_ (fun hx => ?_))
             | (have z := x.2; guard_hyp z : State; clear z; refine keeps_via (x := x.2) ?_ (fun hx => ?_))
             | (have z := x.2.2; guard_hyp z : State; clear z; refine keeps_via (x := x.2.2) ?_ (fun hx => ?_))
             | (have z := x.1; guard_hyp z : State; clear z; refine keeps_via (x := x.1) ?_ (fun hx => ?_)))
            rotate_left
            try clear_value x
            rotate_right
            dsimp -zeta only [x])
         | (fail_if_success (have z := x; guard_hyp z : True)
            try clear_value x))
      | ((with_reducible refine keeps_mk rfl ?_); first | with_reducible assumption | exact within_of rfl hT | (with_reducible apply ih) | (with_reducible apply fetchMpa_keeps) | (with_reducible apply sendShip_keeps) | (with_reducible apply take_keeps) | (with_reducible apply frame_keeps) | with_reducible apply foldS_keeps | split | dsimp -zeta only)
      | with_reducible refine keeps_fst (by with_reducible assumption) ?_
      | with_reducible refine keeps_snd (by with_reducible assumption) ?_
      | with_reducible refine keeps_thd (by with_reducible assumption) ?_
      | split
      | dsimp -zeta only

theorem openShip_keeps {num : Nat} {x : Ship} {resend : Bool} (hK : Keeps kc kn F old s) (hT : Within 10813032366 F := by exact within_of rfl (by assumption)) :
    Keeps kc kn F old (State.openShip s num x resend) := by
  unfold State.openShip
  repeat' first
    | with_reducible assumption
    | exact within_of rfl hT
    | with_reducible apply sendShip_keeps
    | (have x : True := trivial
       extract_lets +onlyGivenNames x
       first
       | ((first
           | (have z := x; guard_hyp z : State; clear z; refine keeps_via (x := x) ?_ (fun hx => ?_))
           | (have z := x.2; guard_hyp z : State; clear z; refine keeps_via (x := x.2) ?_ (fun hx => ?_))
           | (have z := x.2.2; guard_hyp z : State; clear z; refine keeps_via (x := x.2.2) ?_ (fun hx => ?_))
           | (have z := x.1; guard_hyp z : State; clear z; refine keeps_via (x := x.1) ?_ (fun hx => ?_)))
          rotate_left
          try clear_value x
          rotate_right
          dsimp -zeta only [x])
       | (fail_if_success (have z := x; guard_hyp z : True)
          try clear_value x))
    | dsimp -zeta only

theorem tidySeq_keeps {q : Nat} (hK : Keeps kc kn F old s) (hT : Within 4194304 F := by exact within_of rfl (by assumption)) :
    Keeps kc kn F old (State.tidySeq s q) := by
  unfold State.tidySeq
  repeat' first
    | with_reducible assumption
    | exact within_of rfl hT
    | with_reducible intro _
    | (have x : True := trivial
       extract_lets +onlyGivenNames x
       first
       | ((first
           | (have z := x; guard_hyp z : State; clear z; refine keeps_via (x := x) ?_ (fun hx => ?_))
           | (have z := x.2; guard_hyp z : State; clear z; refine keeps_via (x := x.2) ?_ (fun hx => ?_))
           | (have z := x.2.2; guard_hyp z : State; clear z; refine keeps_via (x := x.2.2) ?_ (fun hx => ?_))
           | (have z := x.1; guard_hyp z : State; clear z; refine keeps_via (x := x.1) ?_ (fun hx => ?_)))
          rotate_left
          try clear_value x
          rotate_right
          dsimp -zeta only [x])
       | (fail_if_success (have z := x; guard_hyp z : True)
          try clear_value x))
    | ((with_reducible refine keeps_mk rfl ?_); first | with_reducible assumption | exact within_of rfl hT | split | dsimp -zeta only)
    | with_reducible refine keeps_fst (by with_reducible assumption) ?_
    | with_reducible refine keeps_snd (by with_reducible assumption) ?_
    | with_reducible refine keeps_thd (by with_reducible assumption) ?_
    | split
    | dsimp -zeta only

theorem dropBulk_keeps {num : Nat} {x : Ship} (hK : Keeps kc kn F old s) (hT : Within 16384 F := by exact within_of rfl (by assumption)) :
    Keeps kc kn F old (State.dropBulk s num x) := by
  unfold State.dropBulk
  repeat' first | with_reducible assumption | exact within_of rfl hT | with_reducible intro _ | ((with_reducible refine keeps_mk rfl ?_); first | with_reducible assumption | exact within_of rfl hT | split | dsimp only) | dsimp only

theorem shipAccepted_keeps {num : Nat} {x : Ship} (hK : Keeps kc kn F old s) (hT : Within 2097152 F := by exact within_of rfl (by assumption)) :
    Keeps kc kn F old (State.shipAccepted s num x) := by
  unfold State.shipAccepted
  repeat' first
    | with_reducible assumption
    | exact within_of rfl hT
    | with_reducible intro _
    | with_reducible apply modPage_keeps
    | with_reducible apply cancelMove_keeps
    | with_reducible apply foldS_keeps
    | (have x : True := trivial
       extract_lets +onlyGivenNames x
       first
       | ((first
           | (have z := x; guard_hyp z : State; clear z; refine keeps_via (x := x) ?_ (fun hx => ?_))
           | (have z := x.2; guard_hyp z : State; clear z; refine keeps_via (x := x.2) ?_ (fun hx => ?_))
           | (have z := x.2.2; guard_hyp z : State; clear z; refine keeps_via (x := x.2.2) ?_ (fun hx => ?_))
           | (have z := x.1; guard_hyp z : State; clear z; refine keeps_via (x := x.1) ?_ (fun hx => ?_)))
          rotate_left
          try clear_value x
          rotate_right
          dsimp -zeta only [x])
       | (fail_if_success (have z := x; guard_hyp z : True)
          try clear_value x))
    | ((with_reducible refine keeps_mk rfl ?_); first | with_reducible assumption | exact within_of rfl hT | (with_reducible apply modPage_keeps) | (with_reducible apply cancelMove_keeps) | with_reducible apply foldS_keeps | split | dsimp -zeta only)
    | dsimp -zeta only

theorem endShip_keeps {num : Nat} {x : Ship} {st : Nat} (hK : Keeps kc kn F old s) (hT : Within 10819323822 F := by exact within_of rfl (by assumption)) :
    Keeps kc kn F old (State.endShip s num x st) := by
  unfold State.endShip
  repeat' first
    | with_reducible assumption
    | exact within_of rfl hT
    | with_reducible intro _
    | with_reducible apply commandDone_keeps
    | with_reducible apply modPage_keeps
    | with_reducible apply closeChain_keeps
    | with_reducible apply sendShip_keeps
    | with_reducible apply tidySeq_keeps
    | with_reducible apply dropBulk_keeps
    | with_reducible apply foldS_keeps
    | (have x : True := trivial
       extract_lets +onlyGivenNames x
       first
       | ((first
           | (have z := x; guard_hyp z : State; clear z; refine keeps_via (x := x) ?_ (fun hx => ?_))
           | (have z := x.2; guard_hyp z : State; clear z; refine keeps_via (x := x.2) ?_ (fun hx => ?_))
           | (have z := x.2.2; guard_hyp z : State; clear z; refine keeps_via (x := x.2.2) ?_ (fun hx => ?_))
           | (have z := x.1; guard_hyp z : State; clear z; refine keeps_via (x := x.1) ?_ (fun hx => ?_)))
          rotate_left
          try clear_value x
          rotate_right
          dsimp -zeta only [x])
       | (fail_if_success (have z := x; guard_hyp z : True)
          try clear_value x))
    | ((with_reducible refine keeps_mk rfl ?_); first | with_reducible assumption | exact within_of rfl hT | (with_reducible apply commandDone_keeps) | (with_reducible apply modPage_keeps) | (with_reducible apply closeChain_keeps) | (with_reducible apply sendShip_keeps) | (with_reducible apply tidySeq_keeps) | (with_reducible apply dropBulk_keeps) | with_reducible apply foldS_keeps | split | dsimp -zeta only)
    | split
    | dsimp -zeta only

theorem restartShip_keeps {num modNum part epoch : Nat} (hK : Keeps kc kn F old s) (hT : Within 10819323822 F := by exact within_of rfl (by assumption)) :
    Keeps kc kn F old (State.restartShip s num modNum part epoch) := by
  unfold State.restartShip
  repeat' first
    | with_reducible assumption
    | exact within_of rfl hT
    | with_reducible apply originate_keeps
    | with_reducible apply openShip_keeps
    | with_reducible apply dropBulk_keeps
    | with_reducible apply endShip_keeps
    | (have x : True := trivial
       extract_lets +onlyGivenNames x
       first
       | ((first
           | (have z := x; guard_hyp z : State; clear z; refine keeps_via (x := x) ?_ (fun hx => ?_))
           | (have z := x.2; guard_hyp z : State; clear z; refine keeps_via (x := x.2) ?_ (fun hx => ?_))
           | (have z := x.2.2; guard_hyp z : State; clear z; refine keeps_via (x := x.2.2) ?_ (fun hx => ?_))
           | (have z := x.1; guard_hyp z : State; clear z; refine keeps_via (x := x.1) ?_ (fun hx => ?_)))
          rotate_left
          try clear_value x
          rotate_right
          dsimp -zeta only [x])
       | (fail_if_success (have z := x; guard_hyp z : True)
          try clear_value x))
    | ((with_reducible refine keeps_mk rfl ?_); first | with_reducible assumption | exact within_of rfl hT | (with_reducible apply originate_keeps) | (with_reducible apply openShip_keeps) | (with_reducible apply dropBulk_keeps) | (with_reducible apply endShip_keeps) | split | dsimp -zeta only)
    | with_reducible refine keeps_fst (by with_reducible assumption) ?_
    | with_reducible refine keeps_snd (by with_reducible assumption) ?_
    | with_reducible refine keeps_thd (by with_reducible assumption) ?_
    | split
    | dsimp -zeta only

theorem dropInbound_keeps {y : Inbound} (hK : Keeps kc kn F old s) (hT : Within 2097152 F := by exact within_of rfl (by assumption)) :
    Keeps kc kn F old (State.dropInbound s y) := by
  unfold State.dropInbound
  repeat' first
    | with_reducible assumption
    | exact within_of rfl hT
    | with_reducible intro _
    | with_reducible apply closeChain_keeps
    | with_reducible apply foldS_keeps
    | ((with_reducible refine keeps_mk rfl ?_); first | with_reducible assumption | exact within_of rfl hT | (with_reducible apply closeChain_keeps) | with_reducible apply foldS_keeps | split | dsimp only)
    | dsimp only

theorem acceptShip_keeps {pk : Packet} (hK : Keeps kc kn F old s) (hT : Within 10819323822 F := by exact within_of rfl (by assumption)) :
    Keeps kc kn F old (State.acceptShip s pk) := by
  unfold State.acceptShip
  repeat' first
    | with_reducible assumption
    | exact within_of rfl hT
    | with_reducible intro _
    | with_reducible apply originate_keeps
    | with_reducible apply refuseTo_keeps
    | with_reducible apply modPage_keeps
    | with_reducible apply setChain_keeps
    | with_reducible apply modChain_keeps
    | with_reducible apply linkPage_keeps
    | with_reducible apply newPage_keeps
    | with_reducible apply endShip_keeps
    | with_reducible apply restartShip_keeps
    | with_reducible apply takePage_keeps (by with_reducible assumption)
    | with_reducible apply foldS_keeps
    | (have x : True := trivial
       extract_lets +onlyGivenNames x
       first
       | ((first
           | (have z := x; guard_hyp z : State; clear z; refine keeps_via (x := x) ?_ (fun hx => ?_))
           | (have z := x.2; guard_hyp z : State; clear z; refine keeps_via (x := x.2) ?_ (fun hx => ?_))
           | (have z := x.2.2; guard_hyp z : State; clear z; refine keeps_via (x := x.2.2) ?_ (fun hx => ?_))
           | (have z := x.1; guard_hyp z : State; clear z; refine keeps_via (x := x.1) ?_ (fun hx => ?_)))
          rotate_left
          try clear_value x
          rotate_right
          dsimp -zeta only [x])
       | (fail_if_success (have z := x; guard_hyp z : True)
          try clear_value x))
    | ((with_reducible refine keeps_mk rfl ?_); first | with_reducible assumption | exact within_of rfl hT | (with_reducible apply originate_keeps) | (with_reducible apply refuseTo_keeps) | (with_reducible apply modPage_keeps) | (with_reducible apply setChain_keeps) | (with_reducible apply modChain_keeps) | (with_reducible apply linkPage_keeps) | (with_reducible apply newPage_keeps) | (with_reducible apply endShip_keeps) | (with_reducible apply restartShip_keeps) | (with_reducible apply takePage_keeps (by with_reducible assumption)) | with_reducible apply foldS_keeps | split | dsimp -zeta only)
    | with_reducible refine keeps_fst (by with_reducible assumption) ?_
    | with_reducible refine keeps_snd (by with_reducible assumption) ?_
    | with_reducible refine keeps_thd (by with_reducible assumption) ?_
    | split
    | dsimp -zeta only

theorem takePiece_keeps {pk : Packet} (hK : Keeps kc kn F old s) (hT : Within 10815135662 F := by exact within_of rfl (by assumption)) :
    Keeps kc kn F old (State.takePiece s pk) := by
  unfold State.takePiece
  repeat' first
    | with_reducible assumption
    | exact within_of rfl hT
    | with_reducible intro _
    | with_reducible apply originate_keeps
    | with_reducible apply storeMpa_keeps
    | with_reducible apply modPage_keeps
    | with_reducible apply take_keeps
    | with_reducible apply frame_keeps
    | with_reducible apply foldS_keeps
    | (have x : True := trivial
       extract_lets +onlyGivenNames x
       first
       | ((first
           | (have z := x; guard_hyp z : State; clear z; refine keeps_via (x := x) ?_ (fun hx => ?_))
           | (have z := x.2; guard_hyp z : State; clear z; refine keeps_via (x := x.2) ?_ (fun hx => ?_))
           | (have z := x.2.2; guard_hyp z : State; clear z; refine keeps_via (x := x.2.2) ?_ (fun hx => ?_))
           | (have z := x.1; guard_hyp z : State; clear z; refine keeps_via (x := x.1) ?_ (fun hx => ?_)))
          rotate_left
          try clear_value x
          rotate_right
          dsimp -zeta only [x])
       | (fail_if_success (have z := x; guard_hyp z : True)
          try clear_value x))
    | ((with_reducible refine keeps_mk rfl ?_); first | with_reducible assumption | exact within_of rfl hT | (with_reducible apply originate_keeps) | (with_reducible apply storeMpa_keeps) | (with_reducible apply modPage_keeps) | (with_reducible apply take_keeps) | (with_reducible apply frame_keeps) | with_reducible apply foldS_keeps | split | dsimp -zeta only)
    | with_reducible refine keeps_fst (by with_reducible assumption) ?_
    | with_reducible refine keeps_snd (by with_reducible assumption) ?_
    | with_reducible refine keeps_thd (by with_reducible assumption) ?_
    | split
    | dsimp -zeta only

theorem takeRx_keeps {d : Nat} {f : Packet → Bool} {x : Delivered} {y : State} (e : State.takeRx s d f = some (x, y))
    (hK : Keeps kc kn F old s) (hT : Within 8388608 F := by exact within_of rfl (by assumption)) : Keeps kc kn F old y := by
  unfold State.takeRx at e
  split at e
  · cases e
  · cases e
    exact modEngine_keeps hK

theorem regionWrite_keeps {d p v : Nat} (hK : Keeps kc kn F old s) (hT : Within 4 F := by exact within_of rfl (by assumption)) :
    Keeps kc kn F old (State.regionWrite s d p v).2 := by
  unfold State.regionWrite
  repeat' first | with_reducible assumption | exact within_of rfl hT | with_reducible apply setReg_keeps | split | dsimp only

theorem execKvWalk_keeps {g : Fin 16} {pos : Fin 8} (hK : Keeps kc kn F old s) (hT : Within 10949353454 F := by exact within_of rfl (by assumption)) :
    NextKeeps kc kn F old (execKvWalk g pos s) := by
  unfold execKvWalk
  repeat' first
    | with_reducible assumption
    | with_reducible apply next_keeps
    | with_reducible exact fault_keeps
    | exact within_of rfl hT
    | with_reducible intro _
    | with_reducible apply takeWait_keeps
    | with_reducible apply complete_keeps
    | with_reducible apply popHitch_keeps
    | with_reducible apply walkBody_keeps
    | with_reducible apply markControl_keeps
    | with_reducible apply refuseHitch_keeps
    | (have x : True := trivial
       extract_lets +onlyGivenNames x
       first
       | ((first
           | (have z := x; guard_hyp z : State; clear z; refine keeps_via (x := x) ?_ (fun hx => ?_))
           | (have z := x; guard_hyp z : State; clear z; refine next_via (x := x) ?_ (fun hx => ?_))
           | (have z := x.2; guard_hyp z : State; clear z; refine keeps_via (x := x.2) ?_ (fun hx => ?_))
           | (have z := x.2; guard_hyp z : State; clear z; refine next_via (x := x.2) ?_ (fun hx => ?_))
           | (have z := x.2.2; guard_hyp z : State; clear z; refine keeps_via (x := x.2.2) ?_ (fun hx => ?_))
           | (have z := x.2.2; guard_hyp z : State; clear z; refine next_via (x := x.2.2) ?_ (fun hx => ?_))
           | (have z := x.1; guard_hyp z : State; clear z; refine keeps_via (x := x.1) ?_ (fun hx => ?_))
           | (have z := x.1; guard_hyp z : State; clear z; refine next_via (x := x.1) ?_ (fun hx => ?_)))
          rotate_left
          try clear_value x
          rotate_right
          dsimp -zeta only [x])
       | (fail_if_success (have z := x; guard_hyp z : True)
          try clear_value x))
    | ((with_reducible refine keeps_mk rfl ?_); first | with_reducible assumption | exact within_of rfl hT | (with_reducible apply takeWait_keeps) | (with_reducible apply complete_keeps) | (with_reducible apply popHitch_keeps) | (with_reducible apply walkBody_keeps) | (with_reducible apply markControl_keeps) | (with_reducible apply refuseHitch_keeps) | split | dsimp -zeta only)
    | with_reducible refine keeps_fst (by with_reducible assumption) ?_
    | with_reducible refine keeps_snd (by with_reducible assumption) ?_
    | with_reducible refine keeps_thd (by with_reducible assumption) ?_
    | split
    | dsimp -zeta only

theorem execAppend_keeps {st : Fin 128} {u : Upset} (hK : Keeps kc kn F old s) (hT : Within 10815129582 F := by exact within_of rfl (by assumption)) :
    NextKeeps kc kn F old (execAppend st u s) := by
  unfold execAppend
  repeat' first
    | with_reducible assumption
    | with_reducible apply next_keeps
    | with_reducible exact fault_keeps
    | exact within_of rfl hT
    | with_reducible intro _
    | with_reducible apply runHitch_keeps
    | with_reducible apply appendBody_keeps
    | dsimp only

theorem execAccept_keeps {st : Fin 128} (hK : Keeps kc kn F old s) (hT : Within 10815129582 F := by exact within_of rfl (by assumption)) :
    NextKeeps kc kn F old (execAccept st s) := by
  unfold execAccept
  repeat' first
    | with_reducible assumption
    | with_reducible apply next_keeps
    | with_reducible exact fault_keeps
    | exact within_of rfl hT
    | with_reducible intro _
    | with_reducible apply runHitch_keeps
    | (have x : True := trivial
       extract_lets +onlyGivenNames x
       first
       | ((first
           | (have z := x; guard_hyp z : State; clear z; refine keeps_via (x := x) ?_ (fun hx => ?_))
           | (have z := x; guard_hyp z : State; clear z; refine next_via (x := x) ?_ (fun hx => ?_))
           | (have z := x.2; guard_hyp z : State; clear z; refine keeps_via (x := x.2) ?_ (fun hx => ?_))
           | (have z := x.2; guard_hyp z : State; clear z; refine next_via (x := x.2) ?_ (fun hx => ?_))
           | (have z := x.2.2; guard_hyp z : State; clear z; refine keeps_via (x := x.2.2) ?_ (fun hx => ?_))
           | (have z := x.2.2; guard_hyp z : State; clear z; refine next_via (x := x.2.2) ?_ (fun hx => ?_))
           | (have z := x.1; guard_hyp z : State; clear z; refine keeps_via (x := x.1) ?_ (fun hx => ?_))
           | (have z := x.1; guard_hyp z : State; clear z; refine next_via (x := x.1) ?_ (fun hx => ?_)))
          rotate_left
          try clear_value x
          rotate_right
          dsimp -zeta only [x])
       | (fail_if_success (have z := x; guard_hyp z : True)
          try clear_value x))
    | ((with_reducible refine keeps_mk rfl ?_); first | with_reducible assumption | exact within_of rfl hT | (with_reducible apply runHitch_keeps) | split | dsimp -zeta only)
    | split
    | dsimp -zeta only

theorem execHeldFlush_keeps {p : Fin 16} {t : Nat} (hK : Keeps kc kn F old s) (hT : Within 10819329967 F := by exact within_of rfl (by assumption)) :
    NextKeeps kc kn F old (execHeldFlush p t s) := by
  unfold execHeldFlush
  repeat' first
    | with_reducible assumption
    | with_reducible apply next_keeps
    | with_reducible exact fault_keeps
    | exact within_of rfl hT
    | with_reducible apply tick_keeps
    | with_reducible apply flushHeld_keeps
    | with_reducible apply unstarveSeqs_keeps
    | (have x : True := trivial
       extract_lets +onlyGivenNames x
       first
       | ((first
           | (have z := x; guard_hyp z : State; clear z; refine keeps_via (x := x) ?_ (fun hx => ?_))
           | (have z := x; guard_hyp z : State; clear z; refine next_via (x := x) ?_ (fun hx => ?_))
           | (have z := x.2; guard_hyp z : State; clear z; refine keeps_via (x := x.2) ?_ (fun hx => ?_))
           | (have z := x.2; guard_hyp z : State; clear z; refine next_via (x := x.2) ?_ (fun hx => ?_))
           | (have z := x.2.2; guard_hyp z : State; clear z; refine keeps_via (x := x.2.2) ?_ (fun hx => ?_))
           | (have z := x.2.2; guard_hyp z : State; clear z; refine next_via (x := x.2.2) ?_ (fun hx => ?_))
           | (have z := x.1; guard_hyp z : State; clear z; refine keeps_via (x := x.1) ?_ (fun hx => ?_))
           | (have z := x.1; guard_hyp z : State; clear z; refine next_via (x := x.1) ?_ (fun hx => ?_)))
          rotate_left
          try clear_value x
          rotate_right
          dsimp -zeta only [x])
       | (fail_if_success (have z := x; guard_hyp z : True)
          try clear_value x))
    | ((with_reducible refine keeps_mk rfl ?_); first | with_reducible assumption | exact within_of rfl hT | (with_reducible apply tick_keeps) | (with_reducible apply flushHeld_keeps) | (with_reducible apply unstarveSeqs_keeps) | split | dsimp -zeta only)
    | split
    | dsimp -zeta only

theorem execPageMove_keeps {p : Fin 16} {t : Nat} (hK : Keeps kc kn F old s) (hT : Within 10819329967 F := by exact within_of rfl (by assumption)) :
    NextKeeps kc kn F old (execPageMove p t s) := by
  unfold execPageMove
  repeat' first
    | with_reducible assumption
    | with_reducible apply next_keeps
    | with_reducible exact fault_keeps
    | exact within_of rfl hT
    | with_reducible intro _
    | with_reducible apply tick_keeps
    | with_reducible apply fetchMpa_keeps
    | with_reducible apply storeMpa_keeps
    | with_reducible apply setPage_keeps
    | with_reducible apply modPage_keeps
    | with_reducible apply freePage_keeps
    | with_reducible apply repoint_keeps
    | with_reducible apply finishResumes_keeps
    | with_reducible apply frame_keeps
    | (have x : True := trivial
       extract_lets +onlyGivenNames x
       first
       | ((first
           | (have z := x; guard_hyp z : State; clear z; refine keeps_via (x := x) ?_ (fun hx => ?_))
           | (have z := x; guard_hyp z : State; clear z; refine next_via (x := x) ?_ (fun hx => ?_))
           | (have z := x.2; guard_hyp z : State; clear z; refine keeps_via (x := x.2) ?_ (fun hx => ?_))
           | (have z := x.2; guard_hyp z : State; clear z; refine next_via (x := x.2) ?_ (fun hx => ?_))
           | (have z := x.2.2; guard_hyp z : State; clear z; refine keeps_via (x := x.2.2) ?_ (fun hx => ?_))
           | (have z := x.2.2; guard_hyp z : State; clear z; refine next_via (x := x.2.2) ?_ (fun hx => ?_))
           | (have z := x.1; guard_hyp z : State; clear z; refine keeps_via (x := x.1) ?_ (fun hx => ?_))
           | (have z := x.1; guard_hyp z : State; clear z; refine next_via (x := x.1) ?_ (fun hx => ?_)))
          rotate_left
          try clear_value x
          rotate_right
          dsimp -zeta only [x])
       | (fail_if_success (have z := x; guard_hyp z : True)
          try clear_value x))
    | ((with_reducible refine keeps_mk rfl ?_); first | with_reducible assumption | exact within_of rfl hT | (with_reducible apply tick_keeps) | (with_reducible apply fetchMpa_keeps) | (with_reducible apply storeMpa_keeps) | (with_reducible apply setPage_keeps) | (with_reducible apply modPage_keeps) | (with_reducible apply freePage_keeps) | (with_reducible apply repoint_keeps) | (with_reducible apply finishResumes_keeps) | (with_reducible apply frame_keeps) | split | dsimp -zeta only)
    | with_reducible refine keeps_fst (by with_reducible assumption) ?_
    | with_reducible refine keeps_snd (by with_reducible assumption) ?_
    | with_reducible refine keeps_thd (by with_reducible assumption) ?_
    | split
    | dsimp -zeta only

theorem execKvShip_keeps {h : CmdHdr} {q : ShipReq} (hK : Keeps kc kn F old s) (hT : Within 10852878255 F := by exact within_of rfl (by assumption)) :
    NextKeeps kc kn F old (execKvShip h q s) := by
  unfold execKvShip
  repeat' first
    | with_reducible assumption
    | with_reducible apply next_keeps
    | with_reducible exact fault_keeps
    | exact within_of rfl hT
    | with_reducible intro _
    | with_reducible apply command_keeps
    | with_reducible apply ans_keeps
    | with_reducible apply openShip_keeps
    | with_reducible apply endShip_keeps
    | (have x : True := trivial
       extract_lets +onlyGivenNames x
       first
       | ((first
           | (have z := x; guard_hyp z : State; clear z; refine keeps_via (x := x) ?_ (fun hx => ?_))
           | (have z := x; guard_hyp z : State; clear z; refine next_via (x := x) ?_ (fun hx => ?_))
           | (have z := x.2; guard_hyp z : State; clear z; refine keeps_via (x := x.2) ?_ (fun hx => ?_))
           | (have z := x.2; guard_hyp z : State; clear z; refine next_via (x := x.2) ?_ (fun hx => ?_))
           | (have z := x.2.2; guard_hyp z : State; clear z; refine keeps_via (x := x.2.2) ?_ (fun hx => ?_))
           | (have z := x.2.2; guard_hyp z : State; clear z; refine next_via (x := x.2.2) ?_ (fun hx => ?_))
           | (have z := x.1; guard_hyp z : State; clear z; refine keeps_via (x := x.1) ?_ (fun hx => ?_))
           | (have z := x.1; guard_hyp z : State; clear z; refine next_via (x := x.1) ?_ (fun hx => ?_)))
          rotate_left
          try clear_value x
          rotate_right
          dsimp -zeta only [x])
       | (fail_if_success (have z := x; guard_hyp z : True)
          try clear_value x))
    | ((with_reducible refine keeps_mk rfl ?_); first | with_reducible assumption | exact within_of rfl hT | (with_reducible apply command_keeps) | (with_reducible apply ans_keeps) | (with_reducible apply openShip_keeps) | (with_reducible apply endShip_keeps) | split | dsimp -zeta only)
    | with_reducible refine keeps_fst (by with_reducible assumption) ?_
    | with_reducible refine keeps_snd (by with_reducible assumption) ?_
    | with_reducible refine keeps_thd (by with_reducible assumption) ?_
    | split
    | dsimp -zeta only

theorem execKvShipPage_keeps {die : Fin 4} {t : Nat} (hK : Keeps kc kn F old s) (hT : Within 10819329967 F := by exact within_of rfl (by assumption)) :
    NextKeeps kc kn F old (execKvShipPage die t s) := by
  unfold execKvShipPage
  repeat' first
    | with_reducible assumption
    | with_reducible apply next_keeps
    | with_reducible exact fault_keeps
    | exact within_of rfl hT
    | with_reducible intro _
    | with_reducible apply tick_keeps
    | with_reducible apply sendPages_keeps
    | with_reducible apply shipAccepted_keeps
    | with_reducible apply endShip_keeps
    | with_reducible apply dropInbound_keeps
    | with_reducible apply acceptShip_keeps
    | with_reducible apply takePiece_keeps
    | with_reducible apply takeRx_keeps (by with_reducible assumption)
    | (have x : True := trivial
       extract_lets +onlyGivenNames x
       first
       | ((first
           | (have z := x; guard_hyp z : State; clear z; refine keeps_via (x := x) ?_ (fun hx => ?_))
           | (have z := x; guard_hyp z : State; clear z; refine next_via (x := x) ?_ (fun hx => ?_))
           | (have z := x.2; guard_hyp z : State; clear z; refine keeps_via (x := x.2) ?_ (fun hx => ?_))
           | (have z := x.2; guard_hyp z : State; clear z; refine next_via (x := x.2) ?_ (fun hx => ?_))
           | (have z := x.2.2; guard_hyp z : State; clear z; refine keeps_via (x := x.2.2) ?_ (fun hx => ?_))
           | (have z := x.2.2; guard_hyp z : State; clear z; refine next_via (x := x.2.2) ?_ (fun hx => ?_))
           | (have z := x.1; guard_hyp z : State; clear z; refine keeps_via (x := x.1) ?_ (fun hx => ?_))
           | (have z := x.1; guard_hyp z : State; clear z; refine next_via (x := x.1) ?_ (fun hx => ?_)))
          rotate_left
          try clear_value x
          rotate_right
          dsimp -zeta only [x])
       | (fail_if_success (have z := x; guard_hyp z : True)
          try clear_value x))
    | ((with_reducible refine keeps_mk rfl ?_); first | with_reducible assumption | exact within_of rfl hT | (with_reducible apply tick_keeps) | (with_reducible apply sendPages_keeps) | (with_reducible apply shipAccepted_keeps) | (with_reducible apply endShip_keeps) | (with_reducible apply dropInbound_keeps) | (with_reducible apply acceptShip_keeps) | (with_reducible apply takePiece_keeps) | (with_reducible apply takeRx_keeps (by with_reducible assumption)) | split | dsimp -zeta only)
    | with_reducible refine keeps_fst (by with_reducible assumption) ?_
    | with_reducible refine keeps_snd (by with_reducible assumption) ?_
    | with_reducible refine keeps_thd (by with_reducible assumption) ?_
    | split
    | dsimp -zeta only

theorem execKvpPartBightRegion_keeps {h : CmdHdr} {die : Fin 4} {p : Fin 16} {value : Word} (hK : Keeps kc kn F old s) (hT : Within 10846586799 F := by exact within_of rfl (by assumption)) :
    NextKeeps kc kn F old (execKvpPartBightRegion h die p value s) := by
  unfold execKvpPartBightRegion
  repeat' first
    | with_reducible assumption
    | with_reducible apply next_keeps
    | with_reducible exact fault_keeps
    | exact within_of rfl hT
    | with_reducible intro _
    | with_reducible apply ans_keeps
    | with_reducible apply regCommand_keeps
    | with_reducible apply regionWrite_keeps
    | (have x : True := trivial
       extract_lets +onlyGivenNames x
       first
       | ((first
           | (have z := x; guard_hyp z : State; clear z; refine keeps_via (x := x) ?_ (fun hx => ?_))
           | (have z := x; guard_hyp z : State; clear z; refine next_via (x := x) ?_ (fun hx => ?_))
           | (have z := x.2; guard_hyp z : State; clear z; refine keeps_via (x := x.2) ?_ (fun hx => ?_))
           | (have z := x.2; guard_hyp z : State; clear z; refine next_via (x := x.2) ?_ (fun hx => ?_))
           | (have z := x.2.2; guard_hyp z : State; clear z; refine keeps_via (x := x.2.2) ?_ (fun hx => ?_))
           | (have z := x.2.2; guard_hyp z : State; clear z; refine next_via (x := x.2.2) ?_ (fun hx => ?_))
           | (have z := x.1; guard_hyp z : State; clear z; refine keeps_via (x := x.1) ?_ (fun hx => ?_))
           | (have z := x.1; guard_hyp z : State; clear z; refine next_via (x := x.1) ?_ (fun hx => ?_)))
          rotate_left
          try clear_value x
          rotate_right
          dsimp -zeta only [x])
       | (fail_if_success (have z := x; guard_hyp z : True)
          try clear_value x))
    | dsimp -zeta only

end Sys2Proof.Machine
end

