-- ==== Sys2Proof/Laws/KeepsExperts.lean ====
section
/-! SUPPORT. What the operations of Machine/Experts.lean keep: one lemma for each. -/

namespace Sys2Proof.Machine

set_option linter.all false
set_option Elab.async false

variable {kc kn : Bool} {F : Field → Bool} {old s : State}

theorem topkBody_keeps {r : Run} (hK : Keeps kc kn F old s) (hT : Within 46 F := by exact within_of rfl (by assumption)) :
    Keeps kc kn F old (State.topkBody s r).2.2 := by
  unfold State.topkBody
  repeat' first
    | with_reducible assumption
    | exact within_of rfl hT
    | with_reducible intro _
    | with_reducible apply put_keeps
    | with_reducible apply arith_keeps
    | with_reducible apply foldl_keeps
    | (have x : True := trivial
       extract_lets +onlyGivenNames x
       first
       | ((first
           | (have z := x; guard_hyp z : State; clear z; refine keeps_via (x := x) ?_ (fun hx => ?_))
           | (have z := x.2; guard_hyp z : State; clear z; refine keeps_via (x := x.2) ?_ (fun hx => ?_))
           | (have z := x.2.2; guard_hyp z : State; clear z; refine keeps_via (x := x.2.2) ?_ (fun hx => ?_))
           | (have z := x.1; guard_hyp z : State; clear z; refine keeps_via (x := x.1) ?_ (fun hx => ?_)))
          rotate_left
          try clear_value x
          rotate_right
          dsimp -zeta only [x])
       | (fail_if_success (have z := x; guard_hyp z : True)
          try clear_value x))
    | ((with_reducible refine keeps_mk rfl ?_); first | with_reducible assumption | exact within_of rfl hT | (with_reducible apply put_keeps) | (with_reducible apply arith_keeps) | split | dsimp -zeta only)
    | split
    | dsimp -zeta only

theorem tableEntry_keeps {d p idx : Nat} {errs : List (Nat × ReadErr)} (hK : Keeps kc kn F old s) (hT : Within 10813038510 F := by exact within_of rfl (by assumption)) :
    Keeps kc kn F old (State.tableEntry s d p idx errs).2.2 := by
  unfold State.tableEntry
  repeat' first
    | with_reducible assumption
    | exact within_of rfl hT
    | with_reducible intro _
    | with_reducible apply modEngine_keeps
    | with_reducible apply fetchP_keeps
    | (have x : True := trivial
       extract_lets +onlyGivenNames x
       first
       | ((first
           | (have z := x; guard_hyp z : State; clear z; refine keeps_via (x := x) ?_ (fun hx => ?_))
           | (have z := x.2; guard_hyp z : State; clear z; refine keeps_via (x := x.2) ?_ (fun hx => ?_))
           | (have z := x.2.2; guard_hyp z : State; clear z; refine keeps_via (x := x.2.2) ?_ (fun hx => ?_))
           | (have z := x.1; guard_hyp z : State; clear z; refine keeps_via (x := x.1) ?_ (fun hx => ?_)))
          rotate_left
          try clear_value x
          rotate_right
          dsimp -zeta only [x])
       | (fail_if_success (have z := x; guard_hyp z : True)
          try clear_value x))
    | ((with_reducible refine keeps_mk rfl ?_); first | with_reducible assumption | exact within_of rfl hT | (with_reducible apply modEngine_keeps) | (with_reducible apply fetchP_keeps) | split | dsimp -zeta only)
    | with_reducible refine keeps_fst (by with_reducible assumption) ?_
    | with_reducible refine keeps_snd (by with_reducible assumption) ?_
    | with_reducible refine keeps_thd (by with_reducible assumption) ?_
    | split
    | dsimp -zeta only

theorem sendPieces_keeps {p d : Nat} {dst : Nat × Nat × Nat} {role epoch : Nat} {h : RowHead} {row : List Byte} (hK : Keeps kc kn F old s) (hT : Within 10813032366 F := by exact within_of rfl (by assumption)) :
    Keeps kc kn F old (State.sendPieces s p d dst role epoch h row) := by
  unfold State.sendPieces
  repeat' first
    | with_reducible assumption
    | exact within_of rfl hT
    | with_reducible intro _
    | with_reducible apply originate_keeps
    | with_reducible apply take_keeps
    | with_reducible apply foldS_keeps
    | (have x : True := trivial
       extract_lets +onlyGivenNames x
       first
       | ((first
           | (have z := x; guard_hyp z : State; clear z; refine keeps_via (x := x) ?_ (fun hx => ?_))
           | (have z := x.2; guard_hyp z : State; clear z; refine keeps_via (x := x.2) ?_ (fun hx => ?_))
           | (have z := x.2.2; guard_hyp z : State; clear z; refine keeps_via (x := x.2.2) ?_ (fun hx => ?_))
           | (have z := x.1; guard_hyp z : State; clear z; refine keeps_via (x := x.1) ?_ (fun hx => ?_)))
          rotate_left
          try clear_value x
          rotate_right
          dsimp -zeta only [x])
       | (fail_if_success (have z := x; guard_hyp z : True)
          try clear_value x))
    | ((with_reducible refine keeps_mk rfl ?_); first | with_reducible assumption | exact within_of rfl hT | (with_reducible apply originate_keeps) | (with_reducible apply take_keeps) | with_reducible apply foldS_keeps | split | dsimp -zeta only)
    | dsimp -zeta only

theorem resendPiece_keeps {pk : Packet} {dst : Nat × Nat × Nat} {epoch : Nat} {h : RowHead} (hK : Keeps kc kn F old s) (hT : Within 10813032366 F := by exact within_of rfl (by assumption)) :
    Keeps kc kn F old (State.resendPiece s pk dst epoch h) := by
  unfold State.resendPiece
  repeat' first
    | with_reducible assumption
    | exact within_of rfl hT
    | with_reducible apply originate_keeps
    | (have x : True := trivial
       extract_lets +onlyGivenNames x
       first
       | ((first
           | (have z := x; guard_hyp z : State; clear z; refine keeps_via (x := x) ?_ (fun hx => ?_))
           | (have z := x.2; guard_hyp z : State; clear z; refine keeps_via (x := x.2) ?_ (fun hx => ?_))
           | (have z := x.2.2; guard_hyp z : State; clear z; refine keeps_via (x := x.2.2) ?_ (fun hx => ?_))
           | (have z := x.1; guard_hyp z : State; clear z; refine keeps_via (x := x.1) ?_ (fun hx => ?_)))
          rotate_left
          try clear_value x
          rotate_right
          dsimp -zeta only [x])
       | (fail_if_success (have z := x; guard_hyp z : True)
          try clear_value x))
    | ((with_reducible refine keeps_mk rfl ?_); first | with_reducible assumption | exact within_of rfl hT | (with_reducible apply originate_keeps) | split | dsimp -zeta only)
    | dsimp -zeta only

theorem lateStatus_keeps {c : SendCtx} {st : Nat} (hK : Keeps kc kn F old s) (hT : Within 10947250094 F := by exact within_of rfl (by assumption)) :
    Keeps kc kn F old (State.lateStatus s c st) := by
  unfold State.lateStatus
  repeat' first | with_reducible assumption | exact within_of rfl hT | with_reducible apply raise_keeps | dsimp only

theorem retSignal_keeps {c : SendCtx} {st : Nat} (hK : Keeps kc kn F old s) (hT : Within 10947250158 F := by exact within_of rfl (by assumption)) :
    Keeps kc kn F old (State.retSignal s c st) := by
  unfold State.retSignal
  repeat' first
    | with_reducible assumption
    | exact within_of rfl hT
    | with_reducible apply signalKnot_keeps
    | with_reducible apply lateStatus_keeps
    | (have x : True := trivial
       extract_lets +onlyGivenNames x
       first
       | ((first
           | (have z := x; guard_hyp z : State; clear z; refine keeps_via (x := x) ?_ (fun hx => ?_))
           | (have z := x.2; guard_hyp z : State; clear z; refine keeps_via (x := x.2) ?_ (fun hx => ?_))
           | (have z := x.2.2; guard_hyp z : State; clear z; refine keeps_via (x := x.2.2) ?_ (fun hx => ?_))
           | (have z := x.1; guard_hyp z : State; clear z; refine keeps_via (x := x.1) ?_ (fun hx => ?_)))
          rotate_left
          try clear_value x
          rotate_right
          dsimp -zeta only [x])
       | (fail_if_success (have z := x; guard_hyp z : True)
          try clear_value x))
    | split
    | dsimp -zeta only

theorem dropRoute_keeps {c : SendCtx} {st token rank : Nat} (hK : Keeps kc kn F old s) (hT : Within 10947250158 F := by exact within_of rfl (by assumption)) :
    Keeps kc kn F old (State.dropRoute s c st token rank) := by
  unfold State.dropRoute
  repeat' first
    | with_reducible assumption
    | exact within_of rfl hT
    | with_reducible apply put_keeps
    | with_reducible apply retSignal_keeps
    | (have x : True := trivial
       extract_lets +onlyGivenNames x
       first
       | ((first
           | (have z := x; guard_hyp z : State; clear z; refine keeps_via (x := x) ?_ (fun hx => ?_))
           | (have z := x.2; guard_hyp z : State; clear z; refine keeps_via (x := x.2) ?_ (fun hx => ?_))
           | (have z := x.2.2; guard_hyp z : State; clear z; refine keeps_via (x := x.2.2) ?_ (fun hx => ?_))
           | (have z := x.1; guard_hyp z : State; clear z; refine keeps_via (x := x.1) ?_ (fun hx => ?_)))
          rotate_left
          try clear_value x
          rotate_right
          dsimp -zeta only [x])
       | (fail_if_success (have z := x; guard_hyp z : True)
          try clear_value x))
    | dsimp -zeta only

theorem modSend_keeps {c : SendCtx} {f : List RouteEntry → List RouteEntry} (hK : Keeps kc kn F old s) (hT : Within 8388608 F := by exact within_of rfl (by assumption)) :
    Keeps kc kn F old (State.modSend s c f) := by
  unfold State.modSend
  repeat' first
    | with_reducible assumption
    | exact within_of rfl hT
    | with_reducible intro _
    | ((with_reducible refine keeps_mk rfl ?_); first | with_reducible assumption | exact within_of rfl hT | split | dsimp only)
    | split
    | dsimp only

theorem dropEntry_keeps {c : SendCtx} {e : RouteEntry} (hK : Keeps kc kn F old s) (hT : Within 8388608 F := by exact within_of rfl (by assumption)) :
    Keeps kc kn F old (State.dropEntry s c e) := by
  unfold State.dropEntry
  repeat' first | with_reducible assumption | exact within_of rfl hT | with_reducible intro _ | with_reducible apply modSend_keeps | dsimp only

theorem dropLate_keeps {c : SendCtx} {e : RouteEntry} (hK : Keeps kc kn F old s) (hT : Within 10947250158 F := by exact within_of rfl (by assumption)) :
    Keeps kc kn F old (State.dropLate s c e) := by
  unfold State.dropLate
  repeat' first
    | with_reducible assumption
    | exact within_of rfl hT
    | with_reducible intro _
    | with_reducible apply inc_keeps
    | with_reducible apply dropRoute_keeps
    | with_reducible apply dropEntry_keeps
    | with_reducible apply foldS_keeps
    | (have x : True := trivial
       extract_lets +onlyGivenNames x
       first
       | ((first
           | (have z := x; guard_hyp z : State; clear z; refine keeps_via (x := x) ?_ (fun hx => ?_))
           | (have z := x.2; guard_hyp z : State; clear z; refine keeps_via (x := x.2) ?_ (fun hx => ?_))
           | (have z := x.2.2; guard_hyp z : State; clear z; refine keeps_via (x := x.2.2) ?_ (fun hx => ?_))
           | (have z := x.1; guard_hyp z : State; clear z; refine keeps_via (x := x.1) ?_ (fun hx => ?_)))
          rotate_left
          try clear_value x
          rotate_right
          dsimp -zeta only [x])
       | (fail_if_success (have z := x; guard_hyp z : True)
          try clear_value x))
    | dsimp -zeta only

theorem sendRow_keeps {c : SendCtx} {d : Nat} {e : RouteEntry} {b : List Byte} {h : Nat} {row : List Byte} (hK : Keeps kc kn F old s) (hT : Within 10813032366 F := by exact within_of rfl (by assumption)) :
    Keeps kc kn F old (State.sendRow s c d e b h row) := by
  unfold State.sendRow
  repeat' first
    | with_reducible assumption
    | exact within_of rfl hT
    | with_reducible apply inc_keeps
    | with_reducible apply sendPieces_keeps
    | (have x : True := trivial
       extract_lets +onlyGivenNames x
       first
       | ((first
           | (have z := x; guard_hyp z : State; clear z; refine keeps_via (x := x) ?_ (fun hx => ?_))
           | (have z := x.2; guard_hyp z : State; clear z; refine keeps_via (x := x.2) ?_ (fun hx => ?_))
           | (have z := x.2.2; guard_hyp z : State; clear z; refine keeps_via (x := x.2.2) ?_ (fun hx => ?_))
           | (have z := x.1; guard_hyp z : State; clear z; refine keeps_via (x := x.1) ?_ (fun hx => ?_)))
          rotate_left
          try clear_value x
          rotate_right
          dsimp -zeta only [x])
       | (fail_if_success (have z := x; guard_hyp z : True)
          try clear_value x))
    | split
    | dsimp -zeta only

theorem take_keeps {a : SendRun} {c : SendCtx} {d : Nat} {mirror : Bool} {errs : List (Nat × ReadErr)} {token rank expert : Nat} (hK : Keeps kc kn F old a.s) (hT : Within 10947256302 F := by exact within_of rfl (by assumption)) :
    Keeps kc kn F old (SendRun.take a c d mirror errs token rank expert).s := by
  unfold SendRun.take
  repeat' first
    | with_reducible assumption
    | exact within_of rfl hT
    | with_reducible intro _
    | with_reducible apply inc_keeps
    | with_reducible apply tableEntry_keeps
    | with_reducible apply retSignal_keeps
    | with_reducible apply dropRoute_keeps
    | with_reducible apply modSend_keeps
    | with_reducible apply sendRow_keeps
    | with_reducible apply landed_keeps
    | with_reducible apply foldS_keeps
    | with_reducible apply foldS_inv (P := fun a : SendRun => Keeps kc kn F old a.s)
    | (have x : True := trivial
       extract_lets +onlyGivenNames x
       first
       | ((first
           | (have z := x; guard_hyp z : State; clear z; refine keeps_via (x := x) ?_ (fun hx => ?_))
           | (have z := x.2; guard_hyp z : State; clear z; refine keeps_via (x := x.2) ?_ (fun hx => ?_))
           | (have z := x.2.2; guard_hyp z : State; clear z; refine keeps_via (x := x.2.2) ?_ (fun hx => ?_))
           | (have z := x.1; guard_hyp z : State; clear z; refine keeps_via (x := x.1) ?_ (fun hx => ?_))
           | (have z := x.s; guard_hyp z : State; clear z; refine keeps_via (x := x.s) ?_ (fun hx => ?_))
           | (have z := x.1.s; guard_hyp z : State; clear z; refine keeps_via (x := x.1.s) ?_ (fun hx => ?_))
           | (have z := x.2.s; guard_hyp z : State; clear z; refine keeps_via (x := x.2.s) ?_ (fun hx => ?_)))
          rotate_left
          try clear_value x
          rotate_right
          dsimp -zeta only [x])
       | (fail_if_success (have z := x; guard_hyp z : True)
          try clear_value x))
    | ((with_reducible refine keeps_mk rfl ?_); first | with_reducible assumption | exact within_of rfl hT | (with_reducible apply inc_keeps) | (with_reducible apply tableEntry_keeps) | (with_reducible apply retSignal_keeps) | (with_reducible apply dropRoute_keeps) | (with_reducible apply modSend_keeps) | (with_reducible apply sendRow_keeps) | (with_reducible apply landed_keeps) | with_reducible apply foldS_keeps | split | dsimp -zeta only)
    | split
    | dsimp -zeta only

theorem sendBody_keeps {r : Run} {u : Upset} (hK : Keeps kc kn F old s) (hT : Within 10947256302 F := by exact within_of rfl (by assumption)) :
    Keeps kc kn F old (State.sendBody s r u).2.2 := by
  unfold State.sendBody
  repeat' first
    | with_reducible assumption
    | exact within_of rfl hT
    | with_reducible intro _
    | with_reducible apply modStep_keeps
    | with_reducible apply take_keeps
    | with_reducible apply foldS_keeps
    | with_reducible apply foldS_inv (P := fun a : SendRun => Keeps kc kn F old a.s)
    | with_reducible apply foldS_inv (P := fun a : SendRun => Keeps kc kn F old a.s)
    | (have x : True := trivial
       extract_lets +onlyGivenNames x
       first
       | ((first
           | (have z := x; guard_hyp z : State; clear z; refine keeps_via (x := x) ?_ (fun hx => ?_))
           | (have z := x.2; guard_hyp z : State; clear z; refine keeps_via (x := x.2) ?_ (fun hx => ?_))
           | (have z := x.2.2; guard_hyp z : State; clear z; refine keeps_via (x := x.2.2) ?_ (fun hx => ?_))
           | (have z := x.1; guard_hyp z : State; clear z; refine keeps_via (x := x.1) ?_ (fun hx => ?_))
           | (have z := x.s; guard_hyp z : State; clear z; refine keeps_via (x := x.s) ?_ (fun hx => ?_))
           | (have z := x.1.s; guard_hyp z : State; clear z; refine keeps_via (x := x.1.s) ?_ (fun hx => ?_))
           | (have z := x.2.s; guard_hyp z : State; clear z; refine keeps_via (x := x.2.s) ?_ (fun hx => ?_)))
          rotate_left
          try clear_value x
          rotate_right
          dsimp -zeta only [x])
       | (fail_if_success (have z := x; guard_hyp z : True)
          try clear_value x))
    | ((with_reducible refine keeps_mk rfl ?_); first | with_reducible assumption | exact within_of rfl hT | (with_reducible apply modStep_keeps) | (with_reducible apply take_keeps) | with_reducible apply foldS_keeps | split | dsimp -zeta only)
    | split
    | dsimp -zeta only

theorem reResolve_keeps {d p idx h modNum part epoch : Nat} (hK : Keeps kc kn F old s) (hT : Within 10813038510 F := by exact within_of rfl (by assumption)) :
    Keeps kc kn F old (State.reResolve s d p idx h modNum part epoch) := by
  unfold State.reResolve
  repeat' first
    | with_reducible assumption
    | exact within_of rfl hT
    | with_reducible intro _
    | with_reducible apply modEngine_keeps
    | with_reducible apply fetchP_keeps
    | with_reducible apply storeP_keeps
    | with_reducible apply put_keeps
    | with_reducible apply take_keeps
    | (have x : True := trivial
       extract_lets +onlyGivenNames x
       first
       | ((first
           | (have z := x; guard_hyp z : State; clear z; refine keeps_via (x := x) ?_ (fun hx => ?_))
           | (have z := x.2; guard_hyp z : State; clear z; refine keeps_via (x := x.2) ?_ (fun hx => ?_))
           | (have z := x.2.2; guard_hyp z : State; clear z; refine keeps_via (x := x.2.2) ?_ (fun hx => ?_))
           | (have z := x.1; guard_hyp z : State; clear z; refine keeps_via (x := x.1) ?_ (fun hx => ?_)))
          rotate_left
          try clear_value x
          rotate_right
          dsimp -zeta only [x])
       | (fail_if_success (have z := x; guard_hyp z : True)
          try clear_value x))
    | ((with_reducible refine keeps_mk rfl ?_); first | with_reducible assumption | exact within_of rfl hT | (with_reducible apply modEngine_keeps) | (with_reducible apply fetchP_keeps) | (with_reducible apply storeP_keeps) | (with_reducible apply put_keeps) | (with_reducible apply take_keeps) | split | dsimp -zeta only)
    | split
    | dsimp -zeta only

theorem raiseAt_keeps {p d st : Nat} (hK : Keeps kc kn F old s) (hT : Within 10947250094 F := by exact within_of rfl (by assumption)) :
    Keeps kc kn F old (State.raiseAt s p d st) := by
  unfold State.raiseAt
  repeat' first | with_reducible assumption | exact within_of rfl hT | with_reducible apply raise_keeps | dsimp only

theorem refusedRow_keeps {pk : Packet} {st modNum part epoch : Nat} (hK : Keeps kc kn F old s) (hT : Within 10947256302 F := by exact within_of rfl (by assumption)) :
    Keeps kc kn F old (State.refusedRow s pk st modNum part epoch) := by
  unfold State.refusedRow
  repeat' first
    | with_reducible assumption
    | exact within_of rfl hT
    | with_reducible intro _
    | with_reducible apply inc_keeps
    | with_reducible apply tableEntry_keeps
    | with_reducible apply resendPiece_keeps
    | with_reducible apply lateStatus_keeps
    | with_reducible apply modSend_keeps
    | with_reducible apply dropEntry_keeps
    | with_reducible apply dropLate_keeps
    | with_reducible apply reResolve_keeps
    | with_reducible apply raiseAt_keeps
    | (have x : True := trivial
       extract_lets +onlyGivenNames x
       first
       | ((first
           | (have z := x; guard_hyp z : State; clear z; refine keeps_via (x := x) ?_ (fun hx => ?_))
           | (have z := x.2; guard_hyp z : State; clear z; refine keeps_via (x := x.2) ?_ (fun hx => ?_))
           | (have z := x.2.2; guard_hyp z : State; clear z; refine keeps_via (x := x.2.2) ?_ (fun hx => ?_))
           | (have z := x.1; guard_hyp z : State; clear z; refine keeps_via (x := x.1) ?_ (fun hx => ?_)))
          rotate_left
          try clear_value x
          rotate_right
          dsimp -zeta only [x])
       | (fail_if_success (have z := x; guard_hyp z : True)
          try clear_value x))
    | ((with_reducible refine keeps_mk rfl ?_); first | with_reducible assumption | exact within_of rfl hT | (with_reducible apply inc_keeps) | (with_reducible apply tableEntry_keeps) | (with_reducible apply resendPiece_keeps) | (with_reducible apply lateStatus_keeps) | (with_reducible apply modSend_keeps) | (with_reducible apply dropEntry_keeps) | (with_reducible apply dropLate_keeps) | (with_reducible apply reResolve_keeps) | (with_reducible apply raiseAt_keeps) | split | dsimp -zeta only)
    | with_reducible refine keeps_fst (by with_reducible assumption) ?_
    | with_reducible refine keeps_snd (by with_reducible assumption) ?_
    | with_reducible refine keeps_thd (by with_reducible assumption) ?_
    | split
    | dsimp -zeta only

theorem refuseRow_keeps {pk : Packet} {st modNum part epoch : Nat} (hK : Keeps kc kn F old s) (hT : Within 10947256302 F := by exact within_of rfl (by assumption)) :
    Keeps kc kn F old (State.refuseRow s pk st modNum part epoch) := by
  unfold State.refuseRow
  repeat' first
    | with_reducible assumption
    | exact within_of rfl hT
    | with_reducible apply refuseTo_keeps
    | with_reducible apply countStop_keeps
    | with_reducible apply refusedRow_keeps
    | (have x : True := trivial
       extract_lets +onlyGivenNames x
       first
       | ((first
           | (have z := x; guard_hyp z : State; clear z; refine keeps_via (x := x) ?_ (fun hx => ?_))
           | (have z := x.2; guard_hyp z : State; clear z; refine keeps_via (x := x.2) ?_ (fun hx => ?_))
           | (have z := x.2.2; guard_hyp z : State; clear z; refine keeps_via (x := x.2.2) ?_ (fun hx => ?_))
           | (have z := x.1; guard_hyp z : State; clear z; refine keeps_via (x := x.1) ?_ (fun hx => ?_)))
          rotate_left
          try clear_value x
          rotate_right
          dsimp -zeta only [x])
       | (fail_if_success (have z := x; guard_hyp z : True)
          try clear_value x))
    | split
    | dsimp -zeta only

theorem ttMismatch_keeps {pk : Packet} {observed : Nat} {peer : List (Nat × Nat)} {second : Bool} (hK : Keeps kc kn F old s) (hT : Within 10745839876 F := by exact within_of rfl (by assumption)) :
    Keeps kc kn F old (State.ttMismatch s pk observed peer second) := by
  unfold State.ttMismatch
  repeat' first
    | with_reducible assumption
    | exact within_of rfl hT
    | with_reducible apply inc_keeps
    | with_reducible apply fsr_keeps
    | (have x : True := trivial
       extract_lets +onlyGivenNames x
       first
       | ((first
           | (have z := x; guard_hyp z : State; clear z; refine keeps_via (x := x) ?_ (fun hx => ?_))
           | (have z := x.2; guard_hyp z : State; clear z; refine keeps_via (x := x.2) ?_ (fun hx => ?_))
           | (have z := x.2.2; guard_hyp z : State; clear z; refine keeps_via (x := x.2.2) ?_ (fun hx => ?_))
           | (have z := x.1; guard_hyp z : State; clear z; refine keeps_via (x := x.1) ?_ (fun hx => ?_)))
          rotate_left
          try clear_value x
          rotate_right
          dsimp -zeta only [x])
       | (fail_if_success (have z := x; guard_hyp z : True)
          try clear_value x))
    | ((with_reducible refine keeps_mk rfl ?_); first | with_reducible assumption | exact within_of rfl hT | (with_reducible apply inc_keeps) | (with_reducible apply fsr_keeps) | split | dsimp -zeta only)
    | split
    | dsimp -zeta only

theorem countRow_keeps {pk : Packet} {a : Nat} (hK : Keeps kc kn F old s) (hT : Within 4 F := by exact within_of rfl (by assumption)) :
    Keeps kc kn F old (State.countRow s pk a) := by
  unfold State.countRow
  repeat' first | with_reducible assumption | exact within_of rfl hT | with_reducible apply inc_keeps | split | dsimp only

theorem placeRow_keeps {pk : Packet} (hK : Keeps kc kn F old s) (hT : Within 10947256302 F := by exact within_of rfl (by assumption)) :
    Keeps kc kn F old (State.placeRow s pk) := by
  unfold State.placeRow
  repeat' first
    | with_reducible assumption
    | exact within_of rfl hT
    | with_reducible intro _
    | with_reducible apply inc_keeps
    | with_reducible apply storeP_keeps
    | with_reducible apply take_keeps
    | with_reducible apply raiseAt_keeps
    | with_reducible apply refuseRow_keeps
    | with_reducible apply ttMismatch_keeps
    | with_reducible apply countRow_keeps
    | with_reducible apply foldl_keeps
    | (have x : True := trivial
       extract_lets +onlyGivenNames x
       first
       | ((first
           | (have z := x; guard_hyp z : State; clear z; refine keeps_via (x := x) ?_ (fun hx => ?_))
           | (have z := x.2; guard_hyp z : State; clear z; refine keeps_via (x := x.2) ?_ (fun hx => ?_))
           | (have z := x.2.2; guard_hyp z : State; clear z; refine keeps_via (x := x.2.2) ?_ (fun hx => ?_))
           | (have z := x.1; guard_hyp z : State; clear z; refine keeps_via (x := x.1) ?_ (fun hx => ?_)))
          rotate_left
          try clear_value x
          rotate_right
          dsimp -zeta only [x])
       | (fail_if_success (have z := x; guard_hyp z : True)
          try clear_value x))
    | ((with_reducible refine keeps_mk rfl ?_); first | with_reducible assumption | exact within_of rfl hT | (with_reducible apply inc_keeps) | (with_reducible apply storeP_keeps) | (with_reducible apply take_keeps) | (with_reducible apply raiseAt_keeps) | (with_reducible apply refuseRow_keeps) | (with_reducible apply ttMismatch_keeps) | (with_reducible apply countRow_keeps) | split | dsimp -zeta only)
    | with_reducible refine keeps_fst (by with_reducible assumption) ?_
    | with_reducible refine keeps_snd (by with_reducible assumption) ?_
    | with_reducible refine keeps_thd (by with_reducible assumption) ?_
    | split
    | dsimp -zeta only

theorem admitRow_keeps {d : Nat} {x : Delivered} (hK : Keeps kc kn F old s) (hT : Within 10947256302 F := by exact within_of rfl (by assumption)) : Keeps kc kn F old (State.admitRow s d x) := by
  have hr := modEngine_keeps (d := d) (f := fun e => { e with rx := e.rx.erase x }) hK
  unfold State.admitRow
  generalize State.modEngine s d (fun e => { e with rx := e.rx.erase x }) = y at hr ⊢
  simp only []
  generalize (if x.packet.srcModule = y.self then y.gate x.packet true else Gate.pass) = g
  cases g
  case stop => exact refuseRow_keeps hr
  all_goals
    simp only []
    split
    · exact countRow_keeps hr
    · exact placeRow_keeps hr


theorem returnOne_keeps {r : Run} {errs : List (Nat × ReadErr)} {x : RxRow} (hK : Keeps kc kn F old s) (hT : Within 10813038510 F := by exact within_of rfl (by assumption)) :
    Keeps kc kn F old (State.returnOne s r errs x).2 := by
  unfold State.returnOne
  repeat' first
    | with_reducible assumption
    | exact within_of rfl hT
    | with_reducible apply fetchP_keeps
    | with_reducible apply sendPieces_keeps
    | (have x : True := trivial
       extract_lets +onlyGivenNames x
       first
       | ((first
           | (have z := x; guard_hyp z : State; clear z; refine keeps_via (x := x) ?_ (fun hx => ?_))
           | (have z := x.2; guard_hyp z : State; clear z; refine keeps_via (x := x.2) ?_ (fun hx => ?_))
           | (have z := x.2.2; guard_hyp z : State; clear z; refine keeps_via (x := x.2.2) ?_ (fun hx => ?_))
           | (have z := x.1; guard_hyp z : State; clear z; refine keeps_via (x := x.1) ?_ (fun hx => ?_)))
          rotate_left
          try clear_value x
          rotate_right
          dsimp -zeta only [x])
       | (fail_if_success (have z := x; guard_hyp z : True)
          try clear_value x))
    | split
    | dsimp -zeta only

theorem returnAll_keeps {r : Run} {errs : List (Nat × ReadErr)} {xs : List RxRow} (hK : Keeps kc kn F old s) (hT : Within 10813038510 F := by exact within_of rfl (by assumption)) :
    Keeps kc kn F old (State.returnAll s r errs xs).2 := by
  induction xs generalizing s r errs with
  | nil =>
    unfold State.returnAll
    repeat' first
      | with_reducible assumption
      | exact within_of rfl hT
      | with_reducible apply returnOne_keeps
      | (have x : True := trivial
         extract_lets +onlyGivenNames x
         first
         | ((first
             | (have z := x; guard_hyp z : State; clear z; refine keeps_via (x := x) ?_ (fun hx => ?_))
             | (have z := x.2; guard_hyp z : State; clear z; refine keeps_via (x := x.2) ?_ (fun hx => ?_))
             | (have z := x.2.2; guard_hyp z : State; clear z; refine keeps_via (x := x.2.2) ?_ (fun hx => ?_))
             | (have z := x.1; guard_hyp z : State; clear z; refine keeps_via (x := x.1) ?_ (fun hx => ?_)))
            rotate_left
            try clear_value x
            rotate_right
            dsimp -zeta only [x])
         | (fail_if_success (have z := x; guard_hyp z : True)
            try clear_value x))
      | ((with_reducible refine keeps_mk rfl ?_); first | with_reducible assumption | exact within_of rfl hT | (with_reducible apply returnOne_keeps) | split | dsimp -zeta only)
      | with_reducible refine keeps_fst (by with_reducible assumption) ?_
      | with_reducible refine keeps_snd (by with_reducible assumption) ?_
      | with_reducible refine keeps_thd (by with_reducible assumption) ?_
      | split
      | dsimp -zeta only
  | cons y ys ih =>
    unfold State.returnAll
    repeat' first
      | with_reducible assumption
      | exact within_of rfl hT
      | with_reducible apply ih
      | with_reducible apply returnOne_keeps
      | (have x : True := trivial
         extract_lets +onlyGivenNames x
         first
         | ((first
             | (have z := x; guard_hyp z : State; clear z; refine keeps_via (x := x) ?_ (fun hx => ?_))
             | (have z := x.2; guard_hyp z : State; clear z; refine keeps_via (x := x.2) ?_ (fun hx => ?_))
             | (have z := x.2.2; guard_hyp z : State; clear z; refine keeps_via (x := x.2.2) ?_ (fun hx => ?_))
             | (have z := x.1; guard_hyp z : State; clear z; refine keeps_via (x := x.1) ?_ (fun hx => ?_)))
            rotate_left
            try clear_value x
            rotate_right
            dsimp -zeta only [x])
         | (fail_if_success (have z := x; guard_hyp z : True)
            try clear_value x))
      | ((with_reducible refine keeps_mk rfl ?_); first | with_reducible assumption | exact within_of rfl hT | (with_reducible apply ih) | (with_reducible apply returnOne_keeps) | split | dsimp -zeta only)
      | with_reducible refine keeps_fst (by with_reducible assumption) ?_
      | with_reducible refine keeps_snd (by with_reducible assumption) ?_
      | with_reducible refine keeps_thd (by with_reducible assumption) ?_
      | split
      | dsimp -zeta only

theorem returnBody_keeps {r : Run} {u : Upset} (hK : Keeps kc kn F old s) (hT : Within 10813038510 F := by exact within_of rfl (by assumption)) :
    Keeps kc kn F old (State.returnBody s r u).2.2 := by
  unfold State.returnBody
  repeat' first
    | with_reducible assumption
    | exact within_of rfl hT
    | with_reducible intro _
    | with_reducible apply returnAll_keeps
    | (have x : True := trivial
       extract_lets +onlyGivenNames x
       first
       | ((first
           | (have z := x; guard_hyp z : State; clear z; refine keeps_via (x := x) ?_ (fun hx => ?_))
           | (have z := x.2; guard_hyp z : State; clear z; refine keeps_via (x := x.2) ?_ (fun hx => ?_))
           | (have z := x.2.2; guard_hyp z : State; clear z; refine keeps_via (x := x.2.2) ?_ (fun hx => ?_))
           | (have z := x.1; guard_hyp z : State; clear z; refine keeps_via (x := x.1) ?_ (fun hx => ?_)))
          rotate_left
          try clear_value x
          rotate_right
          dsimp -zeta only [x])
       | (fail_if_success (have z := x; guard_hyp z : True)
          try clear_value x))
    | split
    | dsimp -zeta only

theorem landed_keeps {place : Nat} (hK : Keeps kc kn F old s) (hT : Within 8388608 F := by exact within_of rfl (by assumption)) :
    Keeps kc kn F old (State.landed s place) := by
  unfold State.landed
  repeat' first | with_reducible assumption | exact within_of rfl hT | with_reducible intro _ | ((with_reducible refine keeps_mk rfl ?_); first | with_reducible assumption | exact within_of rfl hT | split | dsimp only) | dsimp only

theorem landReturn_keeps {c : SendCtx} {e : RouteEntry} {bs : List Byte} (hK : Keeps kc kn F old s) (hT : Within 10947250158 F := by exact within_of rfl (by assumption)) :
    Keeps kc kn F old (State.landReturn s c e bs) := by
  unfold State.landReturn
  repeat' first
    | with_reducible assumption
    | exact within_of rfl hT
    | with_reducible intro _
    | with_reducible apply put_keeps
    | with_reducible apply retSignal_keeps
    | with_reducible apply dropEntry_keeps
    | with_reducible apply landed_keeps
    | with_reducible apply foldS_keeps
    | (have x : True := trivial
       extract_lets +onlyGivenNames x
       first
       | ((first
           | (have z := x; guard_hyp z : State; clear z; refine keeps_via (x := x) ?_ (fun hx => ?_))
           | (have z := x.2; guard_hyp z : State; clear z; refine keeps_via (x := x.2) ?_ (fun hx => ?_))
           | (have z := x.2.2; guard_hyp z : State; clear z; refine keeps_via (x := x.2.2) ?_ (fun hx => ?_))
           | (have z := x.1; guard_hyp z : State; clear z; refine keeps_via (x := x.1) ?_ (fun hx => ?_)))
          rotate_left
          try clear_value x
          rotate_right
          dsimp -zeta only [x])
       | (fail_if_success (have z := x; guard_hyp z : True)
          try clear_value x))
    | dsimp -zeta only

theorem roundRow_keeps {c : SendCtx} {e : RouteEntry} {vs : List Num} (hK : Keeps kc kn F old s) (hT : Within 6 F := by exact within_of rfl (by assumption)) :
    Keeps kc kn F old (State.roundRow s c e vs).2 := by
  unfold State.roundRow
  repeat' first
    | with_reducible assumption
    | exact within_of rfl hT
    | with_reducible apply usedRandom_keeps
    | with_reducible apply arith_keeps
    | (have x : True := trivial
       extract_lets +onlyGivenNames x
       first
       | ((first
           | (have z := x; guard_hyp z : State; clear z; refine keeps_via (x := x) ?_ (fun hx => ?_))
           | (have z := x.2; guard_hyp z : State; clear z; refine keeps_via (x := x.2) ?_ (fun hx => ?_))
           | (have z := x.2.2; guard_hyp z : State; clear z; refine keeps_via (x := x.2.2) ?_ (fun hx => ?_))
           | (have z := x.1; guard_hyp z : State; clear z; refine keeps_via (x := x.1) ?_ (fun hx => ?_)))
          rotate_left
          try clear_value x
          rotate_right
          dsimp -zeta only [x])
       | (fail_if_success (have z := x; guard_hyp z : True)
          try clear_value x))
    | dsimp -zeta only

theorem addShard_keeps {c : SendCtx} {e : RouteEntry} {row : List Col} (hK : Keeps kc kn F old s) (hT : Within 10813038510 F := by exact within_of rfl (by assumption)) :
    Keeps kc kn F old (State.addShard s c e row).2.2.2 := by
  unfold State.addShard
  repeat' first
    | with_reducible assumption
    | exact within_of rfl hT
    | with_reducible intro _
    | with_reducible apply fetchP_keeps
    | with_reducible apply storeP_keeps
    | (have x : True := trivial
       extract_lets +onlyGivenNames x
       first
       | ((first
           | (have z := x; guard_hyp z : State; clear z; refine keeps_via (x := x) ?_ (fun hx => ?_))
           | (have z := x.2; guard_hyp z : State; clear z; refine keeps_via (x := x.2) ?_ (fun hx => ?_))
           | (have z := x.2.2; guard_hyp z : State; clear z; refine keeps_via (x := x.2.2) ?_ (fun hx => ?_))
           | (have z := x.1; guard_hyp z : State; clear z; refine keeps_via (x := x.1) ?_ (fun hx => ?_)))
          rotate_left
          try clear_value x
          rotate_right
          dsimp -zeta only [x])
       | (fail_if_success (have z := x; guard_hyp z : True)
          try clear_value x))
    | ((with_reducible refine keeps_mk rfl ?_); first | with_reducible assumption | exact within_of rfl hT | (with_reducible apply fetchP_keeps) | (with_reducible apply storeP_keeps) | split | dsimp -zeta only)
    | with_reducible refine keeps_fst (by with_reducible assumption) ?_
    | with_reducible refine keeps_snd (by with_reducible assumption) ?_
    | with_reducible refine keeps_thd (by with_reducible assumption) ?_
    | split
    | dsimp -zeta only

theorem takeReturn_keeps {c : SendCtx} {e : RouteEntry} {h : RowHead} {bs : List Byte} (hK : Keeps kc kn F old s) (hT : Within 10947256302 F := by exact within_of rfl (by assumption)) :
    Keeps kc kn F old (State.takeReturn s c e h bs) := by
  unfold State.takeReturn
  repeat' first
    | with_reducible assumption
    | exact within_of rfl hT
    | with_reducible intro _
    | with_reducible apply inc_keeps
    | with_reducible apply arith_keeps
    | with_reducible apply lateStatus_keeps
    | with_reducible apply modSend_keeps
    | with_reducible apply dropEntry_keeps
    | with_reducible apply take_keeps
    | with_reducible apply landed_keeps
    | with_reducible apply landReturn_keeps
    | with_reducible apply roundRow_keeps
    | with_reducible apply addShard_keeps
    | (have x : True := trivial
       extract_lets +onlyGivenNames x
       first
       | ((first
           | (have z := x; guard_hyp z : State; clear z; refine keeps_via (x := x) ?_ (fun hx => ?_))
           | (have z := x.2; guard_hyp z : State; clear z; refine keeps_via (x := x.2) ?_ (fun hx => ?_))
           | (have z := x.2.2; guard_hyp z : State; clear z; refine keeps_via (x := x.2.2) ?_ (fun hx => ?_))
           | (have z := x.1; guard_hyp z : State; clear z; refine keeps_via (x := x.1) ?_ (fun hx => ?_))
           | (have z := x.2.2.2; guard_hyp z : State; clear z; refine keeps_via (x := x.2.2.2) ?_ (fun hx => ?_)))
          rotate_left
          try clear_value x
          rotate_right
          dsimp -zeta only [x])
       | (fail_if_success (have z := x; guard_hyp z : True)
          try clear_value x))
    | ((with_reducible refine keeps_mk rfl ?_); first | with_reducible assumption | exact within_of rfl hT | (with_reducible apply inc_keeps) | (with_reducible apply arith_keeps) | (with_reducible apply lateStatus_keeps) | (with_reducible apply modSend_keeps) | (with_reducible apply dropEntry_keeps) | (with_reducible apply take_keeps) | (with_reducible apply landed_keeps) | (with_reducible apply landReturn_keeps) | (with_reducible apply roundRow_keeps) | (with_reducible apply addShard_keeps) | split | dsimp -zeta only)
    | with_reducible refine keeps_fst (by with_reducible assumption) ?_
    | with_reducible refine keeps_snd (by with_reducible assumption) ?_
    | with_reducible refine keeps_thd (by with_reducible assumption) ?_
    | split
    | dsimp -zeta only

theorem returned_keeps {pk : Packet} (hK : Keeps kc kn F old s) (hT : Within 10947256302 F := by exact within_of rfl (by assumption)) :
    Keeps kc kn F old (State.returned s pk) := by
  unfold State.returned
  repeat' first
    | with_reducible assumption
    | exact within_of rfl hT
    | with_reducible intro _
    | with_reducible apply modSend_keeps
    | with_reducible apply raiseAt_keeps
    | with_reducible apply refuseRow_keeps
    | with_reducible apply ttMismatch_keeps
    | with_reducible apply countRow_keeps
    | with_reducible apply takeReturn_keeps
    | (have x : True := trivial
       extract_lets +onlyGivenNames x
       first
       | ((first
           | (have z := x; guard_hyp z : State; clear z; refine keeps_via (x := x) ?_ (fun hx => ?_))
           | (have z := x.2; guard_hyp z : State; clear z; refine keeps_via (x := x.2) ?_ (fun hx => ?_))
           | (have z := x.2.2; guard_hyp z : State; clear z; refine keeps_via (x := x.2.2) ?_ (fun hx => ?_))
           | (have z := x.1; guard_hyp z : State; clear z; refine keeps_via (x := x.1) ?_ (fun hx => ?_)))
          rotate_left
          try clear_value x
          rotate_right
          dsimp -zeta only [x])
       | (fail_if_success (have z := x; guard_hyp z : True)
          try clear_value x))
    | ((with_reducible refine keeps_mk rfl ?_); first | with_reducible assumption | exact within_of rfl hT | (with_reducible apply modSend_keeps) | (with_reducible apply raiseAt_keeps) | (with_reducible apply refuseRow_keeps) | (with_reducible apply ttMismatch_keeps) | (with_reducible apply countRow_keeps) | (with_reducible apply takeReturn_keeps) | split | dsimp -zeta only)
    | with_reducible refine keeps_fst (by with_reducible assumption) ?_
    | with_reducible refine keeps_snd (by with_reducible assumption) ?_
    | with_reducible refine keeps_thd (by with_reducible assumption) ?_
    | split
    | dsimp -zeta only

theorem admitReturn_keeps {d : Nat} {pk : Packet} (hK : Keeps kc kn F old s) (hT : Within 10947256302 F := by exact within_of rfl (by assumption)) :
    Keeps kc kn F old (State.admitReturn s d pk) := by
  unfold State.admitReturn
  repeat' first
    | with_reducible assumption
    | exact within_of rfl hT
    | with_reducible apply countRow_keeps
    | with_reducible apply returned_keeps
    | split
    | dsimp only

theorem scatterBody_keeps {r : Run} (hK : Keeps kc kn F old s) (hT : Within 46 F := by exact within_of rfl (by assumption)) :
    Keeps kc kn F old (State.scatterBody s r).2.2 := by
  unfold State.scatterBody
  repeat' first
    | with_reducible assumption
    | exact within_of rfl hT
    | with_reducible intro _
    | with_reducible apply inc_keeps
    | with_reducible apply usedRandom_keeps
    | with_reducible apply arith_keeps
    | with_reducible apply putAll_keeps
    | with_reducible apply take_keeps
    | with_reducible apply foldl_keeps
    | (have x : True := trivial
       extract_lets +onlyGivenNames x
       first
       | ((first
           | (have z := x; guard_hyp z : State; clear z; refine keeps_via (x := x) ?_ (fun hx => ?_))
           | (have z := x.2; guard_hyp z : State; clear z; refine keeps_via (x := x.2) ?_ (fun hx => ?_))
           | (have z := x.2.2; guard_hyp z : State; clear z; refine keeps_via (x := x.2.2) ?_ (fun hx => ?_))
           | (have z := x.1; guard_hyp z : State; clear z; refine keeps_via (x := x.1) ?_ (fun hx => ?_)))
          rotate_left
          try clear_value x
          rotate_right
          dsimp -zeta only [x])
       | (fail_if_success (have z := x; guard_hyp z : True)
          try clear_value x))
    | ((with_reducible refine keeps_mk rfl ?_); first | with_reducible assumption | exact within_of rfl hT | (with_reducible apply inc_keeps) | (with_reducible apply usedRandom_keeps) | (with_reducible apply arith_keeps) | (with_reducible apply putAll_keeps) | (with_reducible apply take_keeps) | split | dsimp -zeta only)
    | split
    | dsimp -zeta only

theorem dispatchStart_keeps {p : Nat} (hK : Keeps kc kn F old s) (hT : Within 8388608 F := by exact within_of rfl (by assumption)) :
    Keeps kc kn F old (State.dispatchStart s p) := by
  unfold State.dispatchStart
  repeat' first
    | with_reducible assumption
    | exact within_of rfl hT
    | with_reducible intro _
    | with_reducible apply modEngine_keeps
    | with_reducible apply foldS_keeps
    | (have x : True := trivial
       extract_lets +onlyGivenNames x
       first
       | ((first
           | (have z := x; guard_hyp z : State; clear z; refine keeps_via (x := x) ?_ (fun hx => ?_))
           | (have z := x.2; guard_hyp z : State; clear z; refine keeps_via (x := x.2) ?_ (fun hx => ?_))
           | (have z := x.2.2; guard_hyp z : State; clear z; refine keeps_via (x := x.2.2) ?_ (fun hx => ?_))
           | (have z := x.1; guard_hyp z : State; clear z; refine keeps_via (x := x.1) ?_ (fun hx => ?_)))
          rotate_left
          try clear_value x
          rotate_right
          dsimp -zeta only [x])
       | (fail_if_success (have z := x; guard_hyp z : True)
          try clear_value x))
    | ((with_reducible refine keeps_mk rfl ?_); first | with_reducible assumption | exact within_of rfl hT | (with_reducible apply modEngine_keeps) | with_reducible apply foldS_keeps | split | dsimp -zeta only)
    | dsimp -zeta only

theorem dispatchRunEnd_keeps {p : Nat} (hK : Keeps kc kn F old s) (hT : Within 8388608 F := by exact within_of rfl (by assumption)) :
    Keeps kc kn F old (State.dispatchRunEnd s p) := by
  unfold State.dispatchRunEnd
  repeat' first | with_reducible assumption | exact within_of rfl hT | with_reducible intro _ | ((with_reducible refine keeps_mk rfl ?_); first | with_reducible assumption | exact within_of rfl hT | split | dsimp only) | dsimp only

theorem clearRx_keeps {p : Nat} (hK : Keeps kc kn F old s) (hT : Within 10813038510 F := by exact within_of rfl (by assumption)) :
    Keeps kc kn F old (State.clearRx s p) := by
  unfold State.clearRx
  repeat' first
    | with_reducible assumption
    | exact within_of rfl hT
    | with_reducible intro _
    | with_reducible apply storeP_keeps
    | (have x : True := trivial
       extract_lets +onlyGivenNames x
       first
       | ((first
           | (have z := x; guard_hyp z : State; clear z; refine keeps_via (x := x) ?_ (fun hx => ?_))
           | (have z := x.2; guard_hyp z : State; clear z; refine keeps_via (x := x.2) ?_ (fun hx => ?_))
           | (have z := x.2.2; guard_hyp z : State; clear z; refine keeps_via (x := x.2.2) ?_ (fun hx => ?_))
           | (have z := x.1; guard_hyp z : State; clear z; refine keeps_via (x := x.1) ?_ (fun hx => ?_)))
          rotate_left
          try clear_value x
          rotate_right
          dsimp -zeta only [x])
       | (fail_if_success (have z := x; guard_hyp z : True)
          try clear_value x))
    | ((with_reducible refine keeps_mk rfl ?_); first | with_reducible assumption | exact within_of rfl hT | (with_reducible apply storeP_keeps) | split | dsimp -zeta only)
    | dsimp -zeta only

theorem execTopk_keeps {st : Fin 128} {u : Upset} (hK : Keeps kc kn F old s) (hT : Within 10813032430 F := by exact within_of rfl (by assumption)) :
    NextKeeps kc kn F old (execTopk st u s) := by
  unfold execTopk
  repeat' first
    | with_reducible assumption
    | with_reducible apply next_keeps
    | with_reducible exact fault_keeps
    | exact within_of rfl hT
    | with_reducible intro _
    | with_reducible apply residueUpset_keeps
    | with_reducible apply runHitch_keeps
    | with_reducible apply topkBody_keeps
    | (have x : True := trivial
       extract_lets +onlyGivenNames x
       first
       | ((first
           | (have z := x; guard_hyp z : State; clear z; refine keeps_via (x := x) ?_ (fun hx => ?_))
           | (have z := x; guard_hyp z : State; clear z; refine next_via (x := x) ?_ (fun hx => ?_))
           | (have z := x.2; guard_hyp z : State; clear z; refine keeps_via (x := x.2) ?_ (fun hx => ?_))
           | (have z := x.2; guard_hyp z : State; clear z; refine next_via (x := x.2) ?_ (fun hx => ?_))
           | (have z := x.2.2; guard_hyp z : State; clear z; refine keeps_via (x := x.2.2) ?_ (fun hx => ?_))
           | (have z := x.2.2; guard_hyp z : State; clear z; refine next_via (x := x.2.2) ?_ (fun hx => ?_))
           | (have z := x.1; guard_hyp z : State; clear z; refine keeps_via (x := x.1) ?_ (fun hx => ?_))
           | (have z := x.1; guard_hyp z : State; clear z; refine next_via (x := x.1) ?_ (fun hx => ?_)))
          rotate_left
          try clear_value x
          rotate_right
          dsimp -zeta only [x])
       | (fail_if_success (have z := x; guard_hyp z : True)
          try clear_value x))
    | split
    | dsimp -zeta only

theorem execSend_keeps {st : Fin 128} {u : Upset} (hK : Keeps kc kn F old s) (hT : Within 10947256302 F := by exact within_of rfl (by assumption)) :
    NextKeeps kc kn F old (execSend st u s) := by
  unfold execSend
  repeat' first
    | with_reducible assumption
    | with_reducible apply next_keeps
    | with_reducible exact fault_keeps
    | exact within_of rfl hT
    | with_reducible intro _
    | with_reducible apply runHitch_keeps
    | with_reducible apply sendBody_keeps
    | dsimp only

theorem execDispatchRow_keeps {die : Fin 4} {t : Nat} (hK : Keeps kc kn F old s) (hT : Within 10947256303 F := by exact within_of rfl (by assumption)) :
    NextKeeps kc kn F old (execDispatchRow die t s) := by
  unfold execDispatchRow
  repeat' first
    | with_reducible assumption
    | with_reducible apply next_keeps
    | with_reducible exact fault_keeps
    | exact within_of rfl hT
    | with_reducible intro _
    | with_reducible apply tick_keeps
    | with_reducible apply admitRow_keeps
    | (have x : True := trivial
       extract_lets +onlyGivenNames x
       first
       | ((first
           | (have z := x; guard_hyp z : State; clear z; refine keeps_via (x := x) ?_ (fun hx => ?_))
           | (have z := x; guard_hyp z : State; clear z; refine next_via (x := x) ?_ (fun hx => ?_))
           | (have z := x.2; guard_hyp z : State; clear z; refine keeps_via (x := x.2) ?_ (fun hx => ?_))
           | (have z := x.2; guard_hyp z : State; clear z; refine next_via (x := x.2) ?_ (fun hx => ?_))
           | (have z := x.2.2; guard_hyp z : State; clear z; refine keeps_via (x := x.2.2) ?_ (fun hx => ?_))
           | (have z := x.2.2; guard_hyp z : State; clear z; refine next_via (x := x.2.2) ?_ (fun hx => ?_))
           | (have z := x.1; guard_hyp z : State; clear z; refine keeps_via (x := x.1) ?_ (fun hx => ?_))
           | (have z := x.1; guard_hyp z : State; clear z; refine next_via (x := x.1) ?_ (fun hx => ?_)))
          rotate_left
          try clear_value x
          rotate_right
          dsimp -zeta only [x])
       | (fail_if_success (have z := x; guard_hyp z : True)
          try clear_value x))
    | ((with_reducible refine keeps_mk rfl ?_); first | with_reducible assumption | exact within_of rfl hT | (with_reducible apply tick_keeps) | (with_reducible apply admitRow_keeps) | split | dsimp -zeta only)
    | with_reducible refine keeps_fst (by with_reducible assumption) ?_
    | with_reducible refine keeps_snd (by with_reducible assumption) ?_
    | with_reducible refine keeps_thd (by with_reducible assumption) ?_
    | split
    | dsimp -zeta only

theorem execRxExpired_keeps {die : Fin 4} {t : Nat} (hK : Keeps kc kn F old s) (hT : Within 10947256303 F := by exact within_of rfl (by assumption)) :
    NextKeeps kc kn F old (execRxExpired die t s) := by
  unfold execRxExpired
  repeat' first
    | with_reducible assumption
    | with_reducible apply next_keeps
    | with_reducible exact fault_keeps
    | exact within_of rfl hT
    | with_reducible intro _
    | with_reducible apply tick_keeps
    | with_reducible apply inc_keeps
    | with_reducible apply modEngine_keeps
    | with_reducible apply refuseRow_keeps
    | (have x : True := trivial
       extract_lets +onlyGivenNames x
       first
       | ((first
           | (have z := x; guard_hyp z : State; clear z; refine keeps_via (x := x) ?_ (fun hx => ?_))
           | (have z := x; guard_hyp z : State; clear z; refine next_via (x := x) ?_ (fun hx => ?_))
           | (have z := x.2; guard_hyp z : State; clear z; refine keeps_via (x := x.2) ?_ (fun hx => ?_))
           | (have z := x.2; guard_hyp z : State; clear z; refine next_via (x := x.2) ?_ (fun hx => ?_))
           | (have z := x.2.2; guard_hyp z : State; clear z; refine keeps_via (x := x.2.2) ?_ (fun hx => ?_))
           | (have z := x.2.2; guard_hyp z : State; clear z; refine next_via (x := x.2.2) ?_ (fun hx => ?_))
           | (have z := x.1; guard_hyp z : State; clear z; refine keeps_via (x := x.1) ?_ (fun hx => ?_))
           | (have z := x.1; guard_hyp z : State; clear z; refine next_via (x := x.1) ?_ (fun hx => ?_)))
          rotate_left
          try clear_value x
          rotate_right
          dsimp -zeta only [x])
       | (fail_if_success (have z := x; guard_hyp z : True)
          try clear_value x))
    | ((with_reducible refine keeps_mk rfl ?_); first | with_reducible assumption | exact within_of rfl hT | (with_reducible apply tick_keeps) | (with_reducible apply inc_keeps) | (with_reducible apply modEngine_keeps) | (with_reducible apply refuseRow_keeps) | split | dsimp -zeta only)
    | with_reducible refine keeps_fst (by with_reducible assumption) ?_
    | with_reducible refine keeps_snd (by with_reducible assumption) ?_
    | with_reducible refine keeps_thd (by with_reducible assumption) ?_
    | split
    | dsimp -zeta only

theorem execRet_keeps {x : HitchRun} (hK : Keeps kc kn F old s) (hT : Within 10813038574 F := by exact within_of rfl (by assumption)) :
    NextKeeps kc kn F old (execRet x s) := by
  unfold execRet
  repeat' first
    | with_reducible assumption
    | with_reducible apply next_keeps
    | with_reducible exact fault_keeps
    | exact within_of rfl hT
    | with_reducible intro _
    | with_reducible apply runHitch_keeps
    | with_reducible apply returnBody_keeps
    | dsimp only

theorem execReturnRow_keeps {die : Fin 4} {t : Nat} (hK : Keeps kc kn F old s) (hT : Within 10947256303 F := by exact within_of rfl (by assumption)) :
    NextKeeps kc kn F old (execReturnRow die t s) := by
  unfold execReturnRow
  repeat' first
    | with_reducible assumption
    | with_reducible apply next_keeps
    | with_reducible exact fault_keeps
    | exact within_of rfl hT
    | with_reducible apply tick_keeps
    | with_reducible apply takeRx_keeps (by with_reducible assumption)
    | with_reducible apply admitReturn_keeps
    | (have x : True := trivial
       extract_lets +onlyGivenNames x
       first
       | ((first
           | (have z := x; guard_hyp z : State; clear z; refine keeps_via (x := x) ?_ (fun hx => ?_))
           | (have z := x; guard_hyp z : State; clear z; refine next_via (x := x) ?_ (fun hx => ?_))
           | (have z := x.2; guard_hyp z : State; clear z; refine keeps_via (x := x.2) ?_ (fun hx => ?_))
           | (have z := x.2; guard_hyp z : State; clear z; refine next_via (x := x.2) ?_ (fun hx => ?_))
           | (have z := x.2.2; guard_hyp z : State; clear z; refine keeps_via (x := x.2.2) ?_ (fun hx => ?_))
           | (have z := x.2.2; guard_hyp z : State; clear z; refine next_via (x := x.2.2) ?_ (fun hx => ?_))
           | (have z := x.1; guard_hyp z : State; clear z; refine keeps_via (x := x.1) ?_ (fun hx => ?_))
           | (have z := x.1; guard_hyp z : State; clear z; refine next_via (x := x.1) ?_ (fun hx => ?_)))
          rotate_left
          try clear_value x
          rotate_right
          dsimp -zeta only [x])
       | (fail_if_success (have z := x; guard_hyp z : True)
          try clear_value x))
    | ((with_reducible refine keeps_mk rfl ?_); first | with_reducible assumption | exact within_of rfl hT | (with_reducible apply tick_keeps) | (with_reducible apply takeRx_keeps (by with_reducible assumption)) | (with_reducible apply admitReturn_keeps) | split | dsimp -zeta only)
    | with_reducible refine keeps_fst (by with_reducible assumption) ?_
    | with_reducible refine keeps_snd (by with_reducible assumption) ?_
    | with_reducible refine keeps_thd (by with_reducible assumption) ?_
    | split
    | dsimp -zeta only

theorem execScatterAdd_keeps {st : Fin 128} {u : Upset} (hK : Keeps kc kn F old s) (hT : Within 10813032430 F := by exact within_of rfl (by assumption)) :
    NextKeeps kc kn F old (execScatterAdd st u s) := by
  unfold execScatterAdd
  repeat' first
    | with_reducible assumption
    | with_reducible apply next_keeps
    | with_reducible exact fault_keeps
    | exact within_of rfl hT
    | with_reducible intro _
    | with_reducible apply residueUpset_keeps
    | with_reducible apply runHitch_keeps
    | with_reducible apply scatterBody_keeps
    | (have x : True := trivial
       extract_lets +onlyGivenNames x
       first
       | ((first
           | (have z := x; guard_hyp z : State; clear z; refine keeps_via (x := x) ?_ (fun hx => ?_))
           | (have z := x; guard_hyp z : State; clear z; refine next_via (x := x) ?_ (fun hx => ?_))
           | (have z := x.2; guard_hyp z : State; clear z; refine keeps_via (x := x.2) ?_ (fun hx => ?_))
           | (have z := x.2; guard_hyp z : State; clear z; refine next_via (x := x.2) ?_ (fun hx => ?_))
           | (have z := x.2.2; guard_hyp z : State; clear z; refine keeps_via (x := x.2.2) ?_ (fun hx => ?_))
           | (have z := x.2.2; guard_hyp z : State; clear z; refine next_via (x := x.2.2) ?_ (fun hx => ?_))
           | (have z := x.1; guard_hyp z : State; clear z; refine keeps_via (x := x.1) ?_ (fun hx => ?_))
           | (have z := x.1; guard_hyp z : State; clear z; refine next_via (x := x.1) ?_ (fun hx => ?_)))
          rotate_left
          try clear_value x
          rotate_right
          dsimp -zeta only [x])
       | (fail_if_success (have z := x; guard_hyp z : True)
          try clear_value x))
    | split
    | dsimp -zeta only

end Sys2Proof.Machine
end

