-- ==== Sys2Proof/Laws/KeepsCollective.lean ====
section
/-! SUPPORT. What the operations of Machine/Collective.lean keep: one lemma for each. -/

namespace Sys2Proof.Machine

set_option linter.all false
set_option Elab.async false

variable {kc kn : Bool} {F : Field → Bool} {old s : State}

theorem modColl_keeps {d p id : Nat} {f : Coll → Coll} (hK : Keeps kc kn F old s) (hT : Within 8388608 F := by exact within_of rfl (by assumption)) :
    Keeps kc kn F old (State.modColl s d p id f) := by
  unfold State.modColl
  repeat' first
    | with_reducible assumption
    | exact within_of rfl hT
    | with_reducible intro _
    | with_reducible apply modEngine_keeps
    | ((with_reducible refine keeps_mk rfl ?_); first | with_reducible assumption | exact within_of rfl hT | (with_reducible apply modEngine_keeps) | split | dsimp only)
    | split
    | dsimp only

theorem endColl_keeps {d p id st : Nat} (hK : Keeps kc kn F old s) (hT : Within 8388640 F := by exact within_of rfl (by assumption)) :
    Keeps kc kn F old (State.endColl s d p id st) := by
  unfold State.endColl
  repeat' first
    | with_reducible assumption
    | exact within_of rfl hT
    | with_reducible intro _
    | with_reducible apply modEngine_keeps
    | with_reducible apply setPhase_keeps
    | with_reducible apply running_keeps
    | (have x : True := trivial
       extract_lets +onlyGivenNames x
       first
       | ((first
           | (have z := x; guard_hyp z : State; clear z; refine keeps_via (x := x) ?_ (fun hx => ?_))
           | (have z := x.2; guard_hyp z : State; clear z; refine keeps_via (x := x.2) ?_ (fun hx => ?_))
           | (have z := x.2.2; guard_hyp z : State; clear z; refine keeps_via (x := x.2.2) ?_ (fun hx => ?_))
           | (have z := x.1; guard_hyp z : State; clear z; refine keeps_via (x := x.1) ?_ (fun hx => ?_)))
          rotate_left
          try clear_value x
          rotate_right
          dsimp -zeta only [x])
       | (fail_if_success (have z := x; guard_hyp z : True)
          try clear_value x))
    | ((with_reducible refine keeps_mk rfl ?_); first | with_reducible assumption | exact within_of rfl hT | (with_reducible apply modEngine_keeps) | (with_reducible apply setPhase_keeps) | (with_reducible apply running_keeps) | split | dsimp -zeta only)
    | with_reducible refine keeps_fst (by with_reducible assumption) ?_
    | with_reducible refine keeps_snd (by with_reducible assumption) ?_
    | with_reducible refine keeps_thd (by with_reducible assumption) ?_
    | split
    | dsimp -zeta only

theorem collFetch_keeps {c : Coll} {a n : Nat} {errs : List (Nat × ReadErr)} (hK : Keeps kc kn F old s) (hT : Within 10813038510 F := by exact within_of rfl (by assumption)) :
    Keeps kc kn F old (State.collFetch s c a n errs).2 := by
  unfold State.collFetch
  repeat' first
    | with_reducible assumption
    | exact within_of rfl hT
    | with_reducible apply fetchP_keeps
    | with_reducible apply endColl_keeps
    | (have x : True := trivial
       extract_lets +onlyGivenNames x
       first
       | ((first
           | (have z := x; guard_hyp z : State; clear z; refine keeps_via (x := x) ?_ (fun hx => ?_))
           | (have z := x.2; guard_hyp z : State; clear z; refine keeps_via (x := x.2) ?_ (fun hx => ?_))
           | (have z := x.2.2; guard_hyp z : State; clear z; refine keeps_via (x := x.2.2) ?_ (fun hx => ?_))
           | (have z := x.1; guard_hyp z : State; clear z; refine keeps_via (x := x.1) ?_ (fun hx => ?_)))
          rotate_left
          try clear_value x
          rotate_right
          dsimp -zeta only [x])
       | (fail_if_success (have z := x; guard_hyp z : True)
          try clear_value x))
    | split
    | dsimp -zeta only

theorem collStore_keeps {c : Coll} {a : Nat} {bs : List Byte} (hK : Keeps kc kn F old s) (hT : Within 10813038510 F := by exact within_of rfl (by assumption)) :
    Keeps kc kn F old (State.collStore s c a bs) := by
  unfold State.collStore
  repeat' first
    | with_reducible assumption
    | exact within_of rfl hT
    | with_reducible apply storeP_keeps
    | with_reducible apply endColl_keeps
    | (have x : True := trivial
       extract_lets +onlyGivenNames x
       first
       | ((first
           | (have z := x; guard_hyp z : State; clear z; refine keeps_via (x := x) ?_ (fun hx => ?_))
           | (have z := x.2; guard_hyp z : State; clear z; refine keeps_via (x := x.2) ?_ (fun hx => ?_))
           | (have z := x.2.2; guard_hyp z : State; clear z; refine keeps_via (x := x.2.2) ?_ (fun hx => ?_))
           | (have z := x.1; guard_hyp z : State; clear z; refine keeps_via (x := x.1) ?_ (fun hx => ?_)))
          rotate_left
          try clear_value x
          rotate_right
          dsimp -zeta only [x])
       | (fail_if_success (have z := x; guard_hyp z : True)
          try clear_value x))
    | split
    | dsimp -zeta only

theorem collRead_keeps {c : Coll} {off n : Nat} {errs : List (Nat × ReadErr)} (hK : Keeps kc kn F old s) (hT : Within 10813038510 F := by exact within_of rfl (by assumption)) :
    Keeps kc kn F old (State.collRead s c off n errs).2 := by
  unfold State.collRead
  repeat' first
    | with_reducible assumption
    | exact within_of rfl hT
    | with_reducible apply collFetch_keeps
    | (have x : True := trivial
       extract_lets +onlyGivenNames x
       first
       | ((first
           | (have z := x; guard_hyp z : State; clear z; refine keeps_via (x := x) ?_ (fun hx => ?_))
           | (have z := x.2; guard_hyp z : State; clear z; refine keeps_via (x := x.2) ?_ (fun hx => ?_))
           | (have z := x.2.2; guard_hyp z : State; clear z; refine keeps_via (x := x.2.2) ?_ (fun hx => ?_))
           | (have z := x.1; guard_hyp z : State; clear z; refine keeps_via (x := x.1) ?_ (fun hx => ?_)))
          rotate_left
          try clear_value x
          rotate_right
          dsimp -zeta only [x])
       | (fail_if_success (have z := x; guard_hyp z : True)
          try clear_value x))
    | split
    | dsimp -zeta only

theorem collWrite_keeps {c : Coll} {off : Nat} {bs : List Byte} (hK : Keeps kc kn F old s) (hT : Within 10813038510 F := by exact within_of rfl (by assumption)) :
    Keeps kc kn F old (State.collWrite s c off bs) := by
  unfold State.collWrite
  repeat' first
    | with_reducible assumption
    | exact within_of rfl hT
    | with_reducible apply poke_keeps
    | with_reducible apply collStore_keeps
    | (have x : True := trivial
       extract_lets +onlyGivenNames x
       first
       | ((first
           | (have z := x; guard_hyp z : State; clear z; refine keeps_via (x := x) ?_ (fun hx => ?_))
           | (have z := x.2; guard_hyp z : State; clear z; refine keeps_via (x := x.2) ?_ (fun hx => ?_))
           | (have z := x.2.2; guard_hyp z : State; clear z; refine keeps_via (x := x.2.2) ?_ (fun hx => ?_))
           | (have z := x.1; guard_hyp z : State; clear z; refine keeps_via (x := x.1) ?_ (fun hx => ?_)))
          rotate_left
          try clear_value x
          rotate_right
          dsimp -zeta only [x])
       | (fail_if_success (have z := x; guard_hyp z : True)
          try clear_value x))
    | ((with_reducible refine keeps_mk rfl ?_); first | with_reducible assumption | exact within_of rfl hT | (with_reducible apply poke_keeps) | (with_reducible apply collStore_keeps) | split | dsimp -zeta only)
    | with_reducible refine keeps_fst (by with_reducible assumption) ?_
    | with_reducible refine keeps_snd (by with_reducible assumption) ?_
    | with_reducible refine keeps_thd (by with_reducible assumption) ?_
    | split
    | dsimp -zeta only

theorem collSend_keeps {c : Coll} {j kind first count : Nat} {lost : Bool} {data : List Byte} (hK : Keeps kc kn F old s) (hT : Within 10813032366 F := by exact within_of rfl (by assumption)) :
    Keeps kc kn F old (State.collSend s c j kind first count lost data) := by
  unfold State.collSend
  repeat' first
    | with_reducible assumption
    | exact within_of rfl hT
    | with_reducible apply sendColl_keeps
    | (have x : True := trivial
       extract_lets +onlyGivenNames x
       first
       | ((first
           | (have z := x; guard_hyp z : State; clear z; refine keeps_via (x := x) ?_ (fun hx => ?_))
           | (have z := x.2; guard_hyp z : State; clear z; refine keeps_via (x := x.2) ?_ (fun hx => ?_))
           | (have z := x.2.2; guard_hyp z : State; clear z; refine keeps_via (x := x.2.2) ?_ (fun hx => ?_))
           | (have z := x.1; guard_hyp z : State; clear z; refine keeps_via (x := x.1) ?_ (fun hx => ?_)))
          rotate_left
          try clear_value x
          rotate_right
          dsimp -zeta only [x])
       | (fail_if_success (have z := x; guard_hyp z : True)
          try clear_value x))
    | split
    | dsimp -zeta only

theorem chunkCols_keeps {c : Coll} {k : Nat} {errs : List (Nat × ReadErr)} (hK : Keeps kc kn F old s) (hT : Within 10813038510 F := by exact within_of rfl (by assumption)) :
    Keeps kc kn F old (State.chunkCols s c k errs).2 := by
  unfold State.chunkCols
  repeat' first
    | with_reducible assumption
    | exact within_of rfl hT
    | with_reducible apply collRead_keeps
    | (have x : True := trivial
       extract_lets +onlyGivenNames x
       first
       | ((first
           | (have z := x; guard_hyp z : State; clear z; refine keeps_via (x := x) ?_ (fun hx => ?_))
           | (have z := x.2; guard_hyp z : State; clear z; refine keeps_via (x := x.2) ?_ (fun hx => ?_))
           | (have z := x.2.2; guard_hyp z : State; clear z; refine keeps_via (x := x.2.2) ?_ (fun hx => ?_))
           | (have z := x.1; guard_hyp z : State; clear z; refine keeps_via (x := x.1) ?_ (fun hx => ?_)))
          rotate_left
          try clear_value x
          rotate_right
          dsimp -zeta only [x])
       | (fail_if_success (have z := x; guard_hyp z : True)
          try clear_value x))
    | dsimp -zeta only

theorem chunkSums_keeps {c : Coll} {k : Nat} (hK : Keeps kc kn F old s) (hT : Within 10813038510 F := by exact within_of rfl (by assumption)) :
    Keeps kc kn F old (State.chunkSums s c k).2 := by
  unfold State.chunkSums
  repeat' first
    | with_reducible assumption
    | exact within_of rfl hT
    | with_reducible intro _
    | with_reducible apply collFetch_keeps
    | (have x : True := trivial
       extract_lets +onlyGivenNames x
       first
       | ((first
           | (have z := x; guard_hyp z : State; clear z; refine keeps_via (x := x) ?_ (fun hx => ?_))
           | (have z := x.2; guard_hyp z : State; clear z; refine keeps_via (x := x.2) ?_ (fun hx => ?_))
           | (have z := x.2.2; guard_hyp z : State; clear z; refine keeps_via (x := x.2.2) ?_ (fun hx => ?_))
           | (have z := x.1; guard_hyp z : State; clear z; refine keeps_via (x := x.1) ?_ (fun hx => ?_)))
          rotate_left
          try clear_value x
          rotate_right
          dsimp -zeta only [x])
       | (fail_if_success (have z := x; guard_hyp z : True)
          try clear_value x))
    | dsimp -zeta only

theorem putSums_keeps {c : Coll} {k : Nat} {es : List Elem} (hK : Keeps kc kn F old s) (hT : Within 10813038510 F := by exact within_of rfl (by assumption)) :
    Keeps kc kn F old (State.putSums s c k es) := by
  unfold State.putSums
  repeat' first | with_reducible assumption | exact within_of rfl hT | with_reducible intro _ | with_reducible apply collStore_keeps | dsimp only

theorem takeContrib_keeps {c : Coll} {i : Nat} {ks : List Nat} {lost : Bool} {data : List Byte} (hK : Keeps kc kn F old s) (hT : Within 10813038510 F := by exact within_of rfl (by assumption)) :
    Keeps kc kn F old (State.takeContrib s c i ks lost data) := by
  unfold State.takeContrib
  repeat' first
    | with_reducible assumption
    | exact within_of rfl hT
    | with_reducible intro _
    | with_reducible apply take_keeps
    | with_reducible apply modColl_keeps
    | with_reducible apply collStore_keeps
    | with_reducible apply chunkSums_keeps
    | with_reducible apply putSums_keeps
    | with_reducible apply foldS_keeps
    | (have x : True := trivial
       extract_lets +onlyGivenNames x
       first
       | ((first
           | (have z := x; guard_hyp z : State; clear z; refine keeps_via (x := x) ?_ (fun hx => ?_))
           | (have z := x.2; guard_hyp z : State; clear z; refine keeps_via (x := x.2) ?_ (fun hx => ?_))
           | (have z := x.2.2; guard_hyp z : State; clear z; refine keeps_via (x := x.2.2) ?_ (fun hx => ?_))
           | (have z := x.1; guard_hyp z : State; clear z; refine keeps_via (x := x.1) ?_ (fun hx => ?_)))
          rotate_left
          try clear_value x
          rotate_right
          dsimp -zeta only [x])
       | (fail_if_success (have z := x; guard_hyp z : True)
          try clear_value x))
    | ((with_reducible refine keeps_mk rfl ?_); first | with_reducible assumption | exact within_of rfl hT | (with_reducible apply take_keeps) | (with_reducible apply modColl_keeps) | (with_reducible apply collStore_keeps) | (with_reducible apply chunkSums_keeps) | (with_reducible apply putSums_keeps) | with_reducible apply foldS_keeps | split | dsimp -zeta only)
    | with_reducible refine keeps_fst (by with_reducible assumption) ?_
    | with_reducible refine keeps_snd (by with_reducible assumption) ?_
    | with_reducible refine keeps_thd (by with_reducible assumption) ?_
    | split
    | dsimp -zeta only

theorem contribData_keeps {c : Coll} {ks : List Nat} (hK : Keeps kc kn F old s) (hT : Within 10813038510 F := by exact within_of rfl (by assumption)) :
    Keeps kc kn F old (State.contribData s c ks).2.2 := by
  unfold State.contribData
  repeat' first
    | with_reducible assumption
    | exact within_of rfl hT
    | with_reducible intro _
    | with_reducible apply collRead_keeps
    | with_reducible apply chunkCols_keeps
    | with_reducible apply foldS_keeps
    | with_reducible apply foldS_inv (P := fun a : List Byte × Bool × State => Keeps kc kn F old a.2.2)
    | (have x : True := trivial
       extract_lets +onlyGivenNames x
       first
       | ((first
           | (have z := x; guard_hyp z : State; clear z; refine keeps_via (x := x) ?_ (fun hx => ?_))
           | (have z := x.2; guard_hyp z : State; clear z; refine keeps_via (x := x.2) ?_ (fun hx => ?_))
           | (have z := x.2.2; guard_hyp z : State; clear z; refine keeps_via (x := x.2.2) ?_ (fun hx => ?_))
           | (have z := x.1; guard_hyp z : State; clear z; refine keeps_via (x := x.1) ?_ (fun hx => ?_)))
          rotate_left
          try clear_value x
          rotate_right
          dsimp -zeta only [x])
       | (fail_if_success (have z := x; guard_hyp z : True)
          try clear_value x))
    | split
    | dsimp -zeta only

theorem contribute_keeps {c : Coll} {j : Nat} (hK : Keeps kc kn F old s) (hT : Within 10813038510 F := by exact within_of rfl (by assumption)) :
    Keeps kc kn F old (State.contribute s c j) := by
  unfold State.contribute
  repeat' first
    | with_reducible assumption
    | exact within_of rfl hT
    | with_reducible intro _
    | with_reducible apply modColl_keeps
    | with_reducible apply collRead_keeps
    | with_reducible apply collWrite_keeps
    | with_reducible apply collSend_keeps
    | with_reducible apply takeContrib_keeps
    | with_reducible apply contribData_keeps
    | with_reducible apply foldS_keeps
    | (have x : True := trivial
       extract_lets +onlyGivenNames x
       first
       | ((first
           | (have z := x; guard_hyp z : State; clear z; refine keeps_via (x := x) ?_ (fun hx => ?_))
           | (have z := x.2; guard_hyp z : State; clear z; refine keeps_via (x := x.2) ?_ (fun hx => ?_))
           | (have z := x.2.2; guard_hyp z : State; clear z; refine keeps_via (x := x.2.2) ?_ (fun hx => ?_))
           | (have z := x.1; guard_hyp z : State; clear z; refine keeps_via (x := x.1) ?_ (fun hx => ?_)))
          rotate_left
          try clear_value x
          rotate_right
          dsimp -zeta only [x])
       | (fail_if_success (have z := x; guard_hyp z : True)
          try clear_value x))
    | ((with_reducible refine keeps_mk rfl ?_); first | with_reducible assumption | exact within_of rfl hT | (with_reducible apply modColl_keeps) | (with_reducible apply collRead_keeps) | (with_reducible apply collWrite_keeps) | (with_reducible apply collSend_keeps) | (with_reducible apply takeContrib_keeps) | (with_reducible apply contribData_keeps) | with_reducible apply foldS_keeps | split | dsimp -zeta only)
    | split
    | dsimp -zeta only

theorem sendKeys_keeps {c : Coll} {keys : List (Int × Int)} (hK : Keeps kc kn F old s) (hT : Within 10813032366 F := by exact within_of rfl (by assumption)) :
    Keeps kc kn F old (State.sendKeys s c keys) := by
  unfold State.sendKeys
  repeat' first
    | with_reducible assumption
    | exact within_of rfl hT
    | with_reducible intro _
    | with_reducible apply modColl_keeps
    | with_reducible apply collSend_keeps
    | with_reducible apply foldS_keeps
    | (have x : True := trivial
       extract_lets +onlyGivenNames x
       first
       | ((first
           | (have z := x; guard_hyp z : State; clear z; refine keeps_via (x := x) ?_ (fun hx => ?_))
           | (have z := x.2; guard_hyp z : State; clear z; refine keeps_via (x := x.2) ?_ (fun hx => ?_))
           | (have z := x.2.2; guard_hyp z : State; clear z; refine keeps_via (x := x.2.2) ?_ (fun hx => ?_))
           | (have z := x.1; guard_hyp z : State; clear z; refine keeps_via (x := x.1) ?_ (fun hx => ?_)))
          rotate_left
          try clear_value x
          rotate_right
          dsimp -zeta only [x])
       | (fail_if_success (have z := x; guard_hyp z : True)
          try clear_value x))
    | ((with_reducible refine keeps_mk rfl ?_); first | with_reducible assumption | exact within_of rfl hT | (with_reducible apply modColl_keeps) | (with_reducible apply collSend_keeps) | with_reducible apply foldS_keeps | split | dsimp -zeta only)
    | split
    | dsimp -zeta only

theorem sendAnchors_keeps {c : Coll} (hK : Keeps kc kn F old s) (hT : Within 10813038510 F := by exact within_of rfl (by assumption)) :
    Keeps kc kn F old (State.sendAnchors s c) := by
  unfold State.sendAnchors
  repeat' first
    | with_reducible assumption
    | exact within_of rfl hT
    | with_reducible intro _
    | with_reducible apply modColl_keeps
    | with_reducible apply collSend_keeps
    | with_reducible apply putSums_keeps
    | with_reducible apply foldS_keeps
    | (have x : True := trivial
       extract_lets +onlyGivenNames x
       first
       | ((first
           | (have z := x; guard_hyp z : State; clear z; refine keeps_via (x := x) ?_ (fun hx => ?_))
           | (have z := x.2; guard_hyp z : State; clear z; refine keeps_via (x := x.2) ?_ (fun hx => ?_))
           | (have z := x.2.2; guard_hyp z : State; clear z; refine keeps_via (x := x.2.2) ?_ (fun hx => ?_))
           | (have z := x.1; guard_hyp z : State; clear z; refine keeps_via (x := x.1) ?_ (fun hx => ?_)))
          rotate_left
          try clear_value x
          rotate_right
          dsimp -zeta only [x])
       | (fail_if_success (have z := x; guard_hyp z : True)
          try clear_value x))
    | ((with_reducible refine keeps_mk rfl ?_); first | with_reducible assumption | exact within_of rfl hT | (with_reducible apply modColl_keeps) | (with_reducible apply collSend_keeps) | (with_reducible apply putSums_keeps) | with_reducible apply foldS_keeps | split | dsimp -zeta only)
    | split
    | dsimp -zeta only

theorem chunkResult_keeps {c : Coll} {k : Nat} (hK : Keeps kc kn F old s) (hT : Within 10813038510 F := by exact within_of rfl (by assumption)) :
    Keeps kc kn F old (State.chunkResult s c k).2 := by
  unfold State.chunkResult
  repeat' first
    | with_reducible assumption
    | exact within_of rfl hT
    | with_reducible intro _
    | with_reducible apply collFetch_keeps
    | with_reducible apply chunkSums_keeps
    | with_reducible apply foldS_keeps
    | with_reducible apply foldS_inv (P := fun a : List (List Byte) × State => Keeps kc kn F old a.2)
    | (have x : True := trivial
       extract_lets +onlyGivenNames x
       first
       | ((first
           | (have z := x; guard_hyp z : State; clear z; refine keeps_via (x := x) ?_ (fun hx => ?_))
           | (have z := x.2; guard_hyp z : State; clear z; refine keeps_via (x := x.2) ?_ (fun hx => ?_))
           | (have z := x.2.2; guard_hyp z : State; clear z; refine keeps_via (x := x.2.2) ?_ (fun hx => ?_))
           | (have z := x.1; guard_hyp z : State; clear z; refine keeps_via (x := x.1) ?_ (fun hx => ?_)))
          rotate_left
          try clear_value x
          rotate_right
          dsimp -zeta only [x])
       | (fail_if_success (have z := x; guard_hyp z : True)
          try clear_value x))
    | ((with_reducible refine keeps_mk rfl ?_); first | with_reducible assumption | exact within_of rfl hT | (with_reducible apply collFetch_keeps) | (with_reducible apply chunkSums_keeps) | with_reducible apply foldS_keeps | split | dsimp -zeta only)
    | with_reducible refine keeps_fst (by with_reducible assumption) ?_
    | with_reducible refine keeps_snd (by with_reducible assumption) ?_
    | with_reducible refine keeps_thd (by with_reducible assumption) ?_
    | split
    | dsimp -zeta only

theorem reduceOwn_keeps {c : Coll} (hK : Keeps kc kn F old s) (hT : Within 10813038510 F := by exact within_of rfl (by assumption)) :
    Keeps kc kn F old (State.reduceOwn s c) := by
  unfold State.reduceOwn
  repeat' first
    | with_reducible assumption
    | exact within_of rfl hT
    | with_reducible intro _
    | with_reducible apply usedRandom_keeps
    | with_reducible apply arith_keeps
    | with_reducible apply modColl_keeps
    | with_reducible apply collWrite_keeps
    | with_reducible apply collSend_keeps
    | with_reducible apply chunkResult_keeps
    | with_reducible apply foldS_keeps
    | with_reducible apply foldS_inv (P := fun a : List (Nat × List Byte × Nat × Bool) × State => Keeps kc kn F old a.2)
    | with_reducible apply foldl_keeps
    | (have x : True := trivial
       extract_lets +onlyGivenNames x
       first
       | ((first
           | (have z := x; guard_hyp z : State; clear z; refine keeps_via (x := x) ?_ (fun hx => ?_))
           | (have z := x.2; guard_hyp z : State; clear z; refine keeps_via (x := x.2) ?_ (fun hx => ?_))
           | (have z := x.2.2; guard_hyp z : State; clear z; refine keeps_via (x := x.2.2) ?_ (fun hx => ?_))
           | (have z := x.1; guard_hyp z : State; clear z; refine keeps_via (x := x.1) ?_ (fun hx => ?_)))
          rotate_left
          try clear_value x
          rotate_right
          dsimp -zeta only [x])
       | (fail_if_success (have z := x; guard_hyp z : True)
          try clear_value x))
    | ((with_reducible refine keeps_mk rfl ?_); first | with_reducible assumption | exact within_of rfl hT | (with_reducible apply usedRandom_keeps) | (with_reducible apply arith_keeps) | (with_reducible apply modColl_keeps) | (with_reducible apply collWrite_keeps) | (with_reducible apply collSend_keeps) | (with_reducible apply chunkResult_keeps) | with_reducible apply foldS_keeps | split | dsimp -zeta only)
    | split
    | dsimp -zeta only

theorem sendDones_keeps {c : Coll} (hK : Keeps kc kn F old s) (hT : Within 10813032366 F := by exact within_of rfl (by assumption)) :
    Keeps kc kn F old (State.sendDones s c) := by
  unfold State.sendDones
  repeat' first
    | with_reducible assumption
    | exact within_of rfl hT
    | with_reducible intro _
    | with_reducible apply modColl_keeps
    | with_reducible apply collSend_keeps
    | with_reducible apply foldS_keeps
    | (have x : True := trivial
       extract_lets +onlyGivenNames x
       first
       | ((first
           | (have z := x; guard_hyp z : State; clear z; refine keeps_via (x := x) ?_ (fun hx => ?_))
           | (have z := x.2; guard_hyp z : State; clear z; refine keeps_via (x := x.2) ?_ (fun hx => ?_))
           | (have z := x.2.2; guard_hyp z : State; clear z; refine keeps_via (x := x.2.2) ?_ (fun hx => ?_))
           | (have z := x.1; guard_hyp z : State; clear z; refine keeps_via (x := x.1) ?_ (fun hx => ?_)))
          rotate_left
          try clear_value x
          rotate_right
          dsimp -zeta only [x])
       | (fail_if_success (have z := x; guard_hyp z : True)
          try clear_value x))
    | ((with_reducible refine keeps_mk rfl ?_); first | with_reducible assumption | exact within_of rfl hT | (with_reducible apply modColl_keeps) | (with_reducible apply collSend_keeps) | with_reducible apply foldS_keeps | split | dsimp -zeta only)
    | split
    | dsimp -zeta only

theorem advanceColl_keeps {d p id : Nat} (hK : Keeps kc kn F old s) (hT : Within 10947256302 F := by exact within_of rfl (by assumption)) : Keeps kc kn F old (State.advanceColl s d p id) := by
  unfold State.advanceColl
  extract_lets with_ s1 s2 s3 s4
  have hw : ∀ (s : State) (f : Coll → State → State), (∀ c s, Keeps kc kn F old s → Keeps kc kn F old (f c s)) →
      Keeps kc kn F old s → Keeps kc kn F old (with_ s f) := by
    intro s f hf h
    dsimp only [with_]
    split
    · exact hf _ _ h
    · exact h
  clear_value with_
  have h1 : Keeps kc kn F old s1 := hw _ _ (fun c s h => sendAnchors_keeps h) hK
  have h2 : Keeps kc kn F old s2 := hw _ _ (fun c s h => foldS_keeps (fun s j h => hw _ _ (fun c s h => by
    split
    · exact contribute_keeps h
    · exact h) h) h) h1
  have h3 : Keeps kc kn F old s3 := hw _ _ (fun c s h => reduceOwn_keeps h) h2
  have h4 : Keeps kc kn F old s4 := hw _ _ (fun c s h => sendDones_keeps h) h3
  refine hw _ _ (fun c s h => ?_) h4
  split
  · exact endColl_keeps h
  · exact h

theorem group_keeps {d p g : Nat} {errs : List (Nat × ReadErr)} (hK : Keeps kc kn F old s) (hT : Within 10813038510 F := by exact within_of rfl (by assumption)) :
    Keeps kc kn F old (State.group s d p g errs).2.2.2 := by
  unfold State.group
  repeat' first
    | with_reducible assumption
    | exact within_of rfl hT
    | with_reducible intro _
    | with_reducible apply fetchP_keeps
    | (have x : True := trivial
       extract_lets +onlyGivenNames x
       first
       | ((first
           | (have z := x; guard_hyp z : State; clear z; refine keeps_via (x := x) ?_ (fun hx => ?_))
           | (have z := x.2; guard_hyp z : State; clear z; refine keeps_via (x := x.2) ?_ (fun hx => ?_))
           | (have z := x.2.2; guard_hyp z : State; clear z; refine keeps_via (x := x.2.2) ?_ (fun hx => ?_))
           | (have z := x.1; guard_hyp z : State; clear z; refine keeps_via (x := x.1) ?_ (fun hx => ?_)))
          rotate_left
          try clear_value x
          rotate_right
          dsimp -zeta only [x])
       | (fail_if_success (have z := x; guard_hyp z : True)
          try clear_value x))
    | split
    | dsimp -zeta only

theorem allKeys_keeps {c : Coll} {errs : List (Nat × ReadErr)} (hK : Keeps kc kn F old s) (hT : Within 10813038510 F := by exact within_of rfl (by assumption)) :
    Keeps kc kn F old (State.allKeys s c errs).2 := by
  unfold State.allKeys
  repeat' first
    | with_reducible assumption
    | exact within_of rfl hT
    | with_reducible intro _
    | with_reducible apply chunkCols_keeps
    | with_reducible apply foldS_keeps
    | with_reducible apply foldS_inv (P := fun a : Option (List (Int × Int)) × State => Keeps kc kn F old a.2)
    | (have x : True := trivial
       extract_lets +onlyGivenNames x
       first
       | ((first
           | (have z := x; guard_hyp z : State; clear z; refine keeps_via (x := x) ?_ (fun hx => ?_))
           | (have z := x.2; guard_hyp z : State; clear z; refine keeps_via (x := x.2) ?_ (fun hx => ?_))
           | (have z := x.2.2; guard_hyp z : State; clear z; refine keeps_via (x := x.2.2) ?_ (fun hx => ?_))
           | (have z := x.1; guard_hyp z : State; clear z; refine keeps_via (x := x.1) ?_ (fun hx => ?_)))
          rotate_left
          try clear_value x
          rotate_right
          dsimp -zeta only [x])
       | (fail_if_success (have z := x; guard_hyp z : True)
          try clear_value x))
    | ((with_reducible refine keeps_mk rfl ?_); first | with_reducible assumption | exact within_of rfl hT | (with_reducible apply chunkCols_keeps) | with_reducible apply foldS_keeps | split | dsimp -zeta only)
    | with_reducible refine keeps_fst (by with_reducible assumption) ?_
    | with_reducible refine keeps_snd (by with_reducible assumption) ?_
    | with_reducible refine keeps_thd (by with_reducible assumption) ?_
    | split
    | dsimp -zeta only

theorem startColl_keeps {r : Run} {c : Coll} {errs : List (Nat × ReadErr)} (hK : Keeps kc kn F old s) (hT : Within 10947256302 F := by exact within_of rfl (by assumption)) :
    Keeps kc kn F old (State.startColl s r c errs) := by
  unfold State.startColl
  repeat' first
    | with_reducible assumption
    | exact within_of rfl hT
    | with_reducible intro _
    | with_reducible apply modStep_keeps
    | with_reducible apply modEngine_keeps
    | with_reducible apply running_keeps
    | with_reducible apply endColl_keeps
    | with_reducible apply collSend_keeps
    | with_reducible apply sendKeys_keeps
    | with_reducible apply advanceColl_keeps
    | with_reducible apply allKeys_keeps
    | with_reducible apply foldS_keeps
    | (have x : True := trivial
       extract_lets +onlyGivenNames x
       first
       | ((first
           | (have z := x; guard_hyp z : State; clear z; refine keeps_via (x := x) ?_ (fun hx => ?_))
           | (have z := x.2; guard_hyp z : State; clear z; refine keeps_via (x := x.2) ?_ (fun hx => ?_))
           | (have z := x.2.2; guard_hyp z : State; clear z; refine keeps_via (x := x.2.2) ?_ (fun hx => ?_))
           | (have z := x.1; guard_hyp z : State; clear z; refine keeps_via (x := x.1) ?_ (fun hx => ?_)))
          rotate_left
          try clear_value x
          rotate_right
          dsimp -zeta only [x])
       | (fail_if_success (have z := x; guard_hyp z : True)
          try clear_value x))
    | ((with_reducible refine keeps_mk rfl ?_); first | with_reducible assumption | exact within_of rfl hT | (with_reducible apply modStep_keeps) | (with_reducible apply modEngine_keeps) | (with_reducible apply running_keeps) | (with_reducible apply endColl_keeps) | (with_reducible apply collSend_keeps) | (with_reducible apply sendKeys_keeps) | (with_reducible apply advanceColl_keeps) | (with_reducible apply allKeys_keeps) | with_reducible apply foldS_keeps | split | dsimp -zeta only)
    | with_reducible refine keeps_fst (by with_reducible assumption) ?_
    | with_reducible refine keeps_snd (by with_reducible assumption) ?_
    | with_reducible refine keeps_thd (by with_reducible assumption) ?_
    | split
    | dsimp -zeta only

theorem issueColl_keeps {st op : Nat} {u : Upset} (hK : Keeps kc kn F old s) (hT : Within 10947256302 F := by exact within_of rfl (by assumption)) :
    Keeps kc kn F old (State.issueColl s st op u) := by
  unfold State.issueColl
  repeat' first
    | with_reducible assumption
    | exact within_of rfl hT
    | with_reducible apply hF
    | with_reducible apply hF4
    | with_reducible intro _
    | with_reducible apply finish_keeps
    | with_reducible apply group_keeps
    | with_reducible apply startColl_keeps
    | with_reducible apply issue_keeps (by with_reducible assumption)
    | (have x : True := trivial
       extract_lets +onlyGivenNames x
       first
       | ((first
           | (have z := x; guard_hyp z : State; clear z; refine keeps_via (x := x) ?_ (fun hx => ?_))
           | (have z := x.2; guard_hyp z : State; clear z; refine keeps_via (x := x.2) ?_ (fun hx => ?_))
           | (have z := x.2.2; guard_hyp z : State; clear z; refine keeps_via (x := x.2.2) ?_ (fun hx => ?_))
           | (have z := x.1; guard_hyp z : State; clear z; refine keeps_via (x := x.1) ?_ (fun hx => ?_))
           | (have z := x; guard_hyp z : State → State; clear z; refine keeps_viaF0 (f := x) ?_ (fun hF => ?_))
           | refine keeps_viaF (f := x) ?_ (fun hF => ?_)
           | refine keeps_viaF2 (f := x) ?_ (fun hF => ?_)
           | refine keeps_viaG (f := x) ?_ (fun hF => ?_)
           | refine keeps_viaH (f := x) ?_ (fun hF => ?_)
           | refine keeps_viaP (f := x) ?_ (fun hF => ?_)
           | refine keeps_viaF4 (f := x) ?_ (fun hF4 => ?_)
           | (have z := x.2.2.2; guard_hyp z : State; clear z; refine keeps_via (x := x.2.2.2) ?_ (fun hx => ?_)))
          rotate_left
          try clear_value x
          rotate_right
          dsimp -zeta only [x])
       | (fail_if_success (have z := x; guard_hyp z : True)
          try clear_value x))
    | ((with_reducible refine keeps_mk rfl ?_); first | with_reducible assumption | exact within_of rfl hT | (with_reducible apply finish_keeps) | (with_reducible apply group_keeps) | (with_reducible apply startColl_keeps) | (with_reducible apply issue_keeps (by with_reducible assumption)) | split | dsimp -zeta only)
    | with_reducible refine keeps_fst (by with_reducible assumption) ?_
    | with_reducible refine keeps_snd (by with_reducible assumption) ?_
    | with_reducible refine keeps_thd (by with_reducible assumption) ?_
    | split
    | dsimp -zeta only

theorem resendColl_keeps {pk : Packet} {modNum part epoch : Nat} (hK : Keeps kc kn F old s) (hT : Within 10813032366 F := by exact within_of rfl (by assumption)) :
    Keeps kc kn F old (State.resendColl s pk modNum part epoch) := by
  unfold State.resendColl
  repeat' first
    | with_reducible assumption
    | exact within_of rfl hT
    | with_reducible apply inc_keeps
    | with_reducible apply originate_keeps
    | ((with_reducible refine keeps_mk rfl ?_); first | with_reducible assumption | exact within_of rfl hT | (with_reducible apply inc_keeps) | (with_reducible apply originate_keeps) | split | dsimp only)
    | dsimp only

theorem moveMember_keeps {c : Coll} {pk : Packet} {modNum part epoch : Nat} (hK : Keeps kc kn F old s) (hT : Within 10813038510 F := by exact within_of rfl (by assumption)) :
    Keeps kc kn F old (State.moveMember s c pk modNum part epoch) := by
  unfold State.moveMember
  repeat' first
    | with_reducible assumption
    | exact within_of rfl hT
    | with_reducible intro _
    | with_reducible apply fetchP_keeps
    | with_reducible apply storeP_keeps
    | with_reducible apply take_keeps
    | with_reducible apply modColl_keeps
    | (have x : True := trivial
       extract_lets +onlyGivenNames x
       first
       | ((first
           | (have z := x; guard_hyp z : State; clear z; refine keeps_via (x := x) ?_ (fun hx => ?_))
           | (have z := x.2; guard_hyp z : State; clear z; refine keeps_via (x := x.2) ?_ (fun hx => ?_))
           | (have z := x.2.2; guard_hyp z : State; clear z; refine keeps_via (x := x.2.2) ?_ (fun hx => ?_))
           | (have z := x.1; guard_hyp z : State; clear z; refine keeps_via (x := x.1) ?_ (fun hx => ?_)))
          rotate_left
          try clear_value x
          rotate_right
          dsimp -zeta only [x])
       | (fail_if_success (have z := x; guard_hyp z : True)
          try clear_value x))
    | ((with_reducible refine keeps_mk rfl ?_); first | with_reducible assumption | exact within_of rfl hT | (with_reducible apply fetchP_keeps) | (with_reducible apply storeP_keeps) | (with_reducible apply take_keeps) | (with_reducible apply modColl_keeps) | split | dsimp -zeta only)
    | split
    | dsimp -zeta only

theorem failColl_keeps {p d id st : Nat} (hK : Keeps kc kn F old s) (hT : Within 10947250094 F := by exact within_of rfl (by assumption)) :
    Keeps kc kn F old (State.failColl s p d id st) := by
  unfold State.failColl
  repeat' first
    | with_reducible assumption
    | exact within_of rfl hT
    | with_reducible apply raiseAt_keeps
    | with_reducible apply endColl_keeps
    | ((with_reducible refine keeps_mk rfl ?_); first | with_reducible assumption | exact within_of rfl hT | (with_reducible apply raiseAt_keeps) | (with_reducible apply endColl_keeps) | split | dsimp only)
    | with_reducible refine keeps_fst (by with_reducible assumption) ?_
    | with_reducible refine keeps_snd (by with_reducible assumption) ?_
    | with_reducible refine keeps_thd (by with_reducible assumption) ?_
    | split
    | dsimp only

theorem refusedColl_keeps {pk : Packet} {st modNum part epoch : Nat} (hK : Keeps kc kn F old s) (hT : Within 10947256238 F := by exact within_of rfl (by assumption)) :
    Keeps kc kn F old (State.refusedColl s pk st modNum part epoch) := by
  unfold State.refusedColl
  simp only []
  split
  · exact hK
  · split
    · split
      · exact failColl_keeps (fsr_keeps hK)
      · exact resendColl_keeps (keeps_mk rfl hK)
    · split
      · split
        · exact resendColl_keeps (inc_keeps hK)
        · split
          · exact endColl_keeps (modColl_keeps (moveMember_keeps (inc_keeps hK)))
          · exact resendColl_keeps (modColl_keeps (moveMember_keeps (inc_keeps hK)))
      · split
        · exact failColl_keeps hK
        · exact hK

theorem refusedPacket_keeps {pk : Packet} {st modNum part epoch : Nat} (hK : Keeps kc kn F old s) (hT : Within 10947256302 F := by exact within_of rfl (by assumption)) :
    Keeps kc kn F old (State.refusedPacket s pk st modNum part epoch) := by
  unfold State.refusedPacket
  repeat' first
    | with_reducible assumption
    | exact within_of rfl hT
    | with_reducible apply refusedRow_keeps
    | with_reducible apply refusedColl_keeps
    | split
    | dsimp only

theorem refuseColl_keeps {pk : Packet} {st modNum part epoch : Nat} (hK : Keeps kc kn F old s) (hT : Within 10947256238 F := by exact within_of rfl (by assumption)) :
    Keeps kc kn F old (State.refuseColl s pk st modNum part epoch) := by
  unfold State.refuseColl
  repeat' first
    | with_reducible assumption
    | exact within_of rfl hT
    | with_reducible apply refuseTo_keeps
    | with_reducible apply countStop_keeps
    | with_reducible apply refusedColl_keeps
    | (have x : True := trivial
       extract_lets +onlyGivenNames x
       first
       | ((first
           | (have z := x; guard_hyp z : State; clear z; refine keeps_via (x := x) ?_ (fun hx => ?_))
           | (have z := x.2; guard_hyp z : State; clear z; refine keeps_via (x := x.2) ?_ (fun hx => ?_))
           | (have z := x.2.2; guard_hyp z : State; clear z; refine keeps_via (x := x.2.2) ?_ (fun hx => ?_))
           | (have z := x.1; guard_hyp z : State; clear z; refine keeps_via (x := x.1) ?_ (fun hx => ?_)))
          rotate_left
          try clear_value x
          rotate_right
          dsimp -zeta only [x])
       | (fail_if_success (have z := x; guard_hyp z : True)
          try clear_value x))
    | split
    | dsimp -zeta only

theorem collMismatch_keeps {pk : Packet} {second : Bool} (hK : Keeps kc kn F old s) (hT : Within 10947256238 F := by exact within_of rfl (by assumption)) :
    Keeps kc kn F old (State.collMismatch s pk second) := by
  unfold State.collMismatch
  repeat' first
    | with_reducible assumption
    | exact within_of rfl hT
    | with_reducible apply ttMismatch_keeps
    | with_reducible apply failColl_keeps
    | with_reducible apply refuseColl_keeps
    | (have x : True := trivial
       extract_lets +onlyGivenNames x
       first
       | ((first
           | (have z := x; guard_hyp z : State; clear z; refine keeps_via (x := x) ?_ (fun hx => ?_))
           | (have z := x.2; guard_hyp z : State; clear z; refine keeps_via (x := x.2) ?_ (fun hx => ?_))
           | (have z := x.2.2; guard_hyp z : State; clear z; refine keeps_via (x := x.2.2) ?_ (fun hx => ?_))
           | (have z := x.1; guard_hyp z : State; clear z; refine keeps_via (x := x.1) ?_ (fun hx => ?_)))
          rotate_left
          try clear_value x
          rotate_right
          dsimp -zeta only [x])
       | (fail_if_success (have z := x; guard_hyp z : True)
          try clear_value x))
    | split
    | dsimp -zeta only

theorem collMessage_keeps {d kind : Nat} {f : Packet → CollHead → Nat → State → State} (hKf : ∀ x0 x1 x2 s, Keeps kc kn F old s → Keeps kc kn F old (f x0 x1 x2 s)) (hK : Keeps kc kn F old s) (hT : Within 10947256238 F := by exact within_of rfl (by assumption)) :
    Keeps kc kn F old (State.collMessage s d kind f) := by
  unfold State.collMessage
  repeat' first
    | with_reducible assumption
    | exact within_of rfl hT
    | with_reducible intro _
    | with_reducible apply hKf
    | with_reducible apply modEngine_keeps
    | with_reducible apply refuseColl_keeps
    | with_reducible apply collMismatch_keeps
    | (have x : True := trivial
       extract_lets +onlyGivenNames x
       first
       | ((first
           | (have z := x; guard_hyp z : State; clear z; refine keeps_via (x := x) ?_ (fun hx => ?_))
           | (have z := x.2; guard_hyp z : State; clear z; refine keeps_via (x := x.2) ?_ (fun hx => ?_))
           | (have z := x.2.2; guard_hyp z : State; clear z; refine keeps_via (x := x.2.2) ?_ (fun hx => ?_))
           | (have z := x.1; guard_hyp z : State; clear z; refine keeps_via (x := x.1) ?_ (fun hx => ?_)))
          rotate_left
          try clear_value x
          rotate_right
          dsimp -zeta only [x])
       | (fail_if_success (have z := x; guard_hyp z : True)
          try clear_value x))
    | ((with_reducible refine keeps_mk rfl ?_); first | with_reducible assumption | exact within_of rfl hT | (with_reducible apply hKf) | (with_reducible apply modEngine_keeps) | (with_reducible apply refuseColl_keeps) | (with_reducible apply collMismatch_keeps) | split | dsimp -zeta only)
    | with_reducible refine keeps_fst (by with_reducible assumption) ?_
    | with_reducible refine keeps_snd (by with_reducible assumption) ?_
    | with_reducible refine keeps_thd (by with_reducible assumption) ?_
    | split
    | dsimp -zeta only

theorem roundMessage_keeps {d kind : Nat} {f : Packet → CollHead → Coll → State → State} (hKf : ∀ x0 x1 x2 s, Keeps kc kn F old s → Keeps kc kn F old (f x0 x1 x2 s)) (hK : Keeps kc kn F old s) (hT : Within 10947256302 F := by exact within_of rfl (by assumption)) :
    Keeps kc kn F old (State.roundMessage s d kind f) := by
  unfold State.roundMessage
  repeat' first
    | with_reducible assumption
    | exact within_of rfl hT
    | with_reducible intro _
    | with_reducible apply hKf
    | with_reducible apply inc_keeps
    | with_reducible apply endColl_keeps
    | with_reducible apply advanceColl_keeps
    | with_reducible apply collMessage_keeps
    | (have x : True := trivial
       extract_lets +onlyGivenNames x
       first
       | ((first
           | (have z := x; guard_hyp z : State; clear z; refine keeps_via (x := x) ?_ (fun hx => ?_))
           | (have z := x.2; guard_hyp z : State; clear z; refine keeps_via (x := x.2) ?_ (fun hx => ?_))
           | (have z := x.2.2; guard_hyp z : State; clear z; refine keeps_via (x := x.2.2) ?_ (fun hx => ?_))
           | (have z := x.1; guard_hyp z : State; clear z; refine keeps_via (x := x.1) ?_ (fun hx => ?_)))
          rotate_left
          try clear_value x
          rotate_right
          dsimp -zeta only [x])
       | (fail_if_success (have z := x; guard_hyp z : True)
          try clear_value x))
    | ((with_reducible refine keeps_mk rfl ?_); first | with_reducible assumption | exact within_of rfl hT | (with_reducible apply hKf) | (with_reducible apply inc_keeps) | (with_reducible apply endColl_keeps) | (with_reducible apply advanceColl_keeps) | (with_reducible apply collMessage_keeps) | split | dsimp -zeta only)
    | with_reducible refine keeps_fst (by with_reducible assumption) ?_
    | with_reducible refine keeps_snd (by with_reducible assumption) ?_
    | with_reducible refine keeps_thd (by with_reducible assumption) ?_
    | split
    | dsimp -zeta only

theorem noteFirst_keeps {c : Coll} {j : Nat} (hK : Keeps kc kn F old s) (hT : Within 8388608 F := by exact within_of rfl (by assumption)) :
    Keeps kc kn F old (State.noteFirst s c j) := by
  unfold State.noteFirst
  repeat' first
    | with_reducible assumption
    | exact within_of rfl hT
    | with_reducible intro _
    | with_reducible apply modColl_keeps
    | ((with_reducible refine keeps_mk rfl ?_); first | with_reducible assumption | exact within_of rfl hT | (with_reducible apply modColl_keeps) | split | dsimp only)
    | split
    | dsimp only

theorem voteWaited_keeps {p : Nat} (hK : Keeps kc kn F old s) (hT : Within 260 F := by exact within_of rfl (by assumption)) :
    Keeps kc kn F old (State.voteWaited s p) := by
  unfold State.voteWaited
  repeat' first
    | with_reducible assumption
    | exact within_of rfl hT
    | with_reducible intro _
    | with_reducible apply bump_keeps
    | with_reducible apply modStep_keeps
    | (have x : True := trivial
       extract_lets +onlyGivenNames x
       first
       | ((first
           | (have z := x; guard_hyp z : State; clear z; refine keeps_via (x := x) ?_ (fun hx => ?_))
           | (have z := x.2; guard_hyp z : State; clear z; refine keeps_via (x := x.2) ?_ (fun hx => ?_))
           | (have z := x.2.2; guard_hyp z : State; clear z; refine keeps_via (x := x.2.2) ?_ (fun hx => ?_))
           | (have z := x.1; guard_hyp z : State; clear z; refine keeps_via (x := x.1) ?_ (fun hx => ?_)))
          rotate_left
          try clear_value x
          rotate_right
          dsimp -zeta only [x])
       | (fail_if_success (have z := x; guard_hyp z : True)
          try clear_value x))
    | ((with_reducible refine keeps_mk rfl ?_); first | with_reducible assumption | exact within_of rfl hT | (with_reducible apply bump_keeps) | (with_reducible apply modStep_keeps) | split | dsimp -zeta only)
    | with_reducible refine keeps_fst (by with_reducible assumption) ?_
    | with_reducible refine keeps_snd (by with_reducible assumption) ?_
    | with_reducible refine keeps_thd (by with_reducible assumption) ?_
    | split
    | dsimp -zeta only

theorem sendVoteTo_keeps {p kind cls step run : Nat} {pk : Packet} (hK : Keeps kc kn F old s) (hT : Within 10813032366 F := by exact within_of rfl (by assumption)) :
    Keeps kc kn F old (State.sendVoteTo s p kind cls step run pk) := by
  unfold State.sendVoteTo
  repeat' first
    | with_reducible assumption
    | exact within_of rfl hT
    | with_reducible apply originate_keeps
    | (have x : True := trivial
       extract_lets +onlyGivenNames x
       first
       | ((first
           | (have z := x; guard_hyp z : State; clear z; refine keeps_via (x := x) ?_ (fun hx => ?_))
           | (have z := x.2; guard_hyp z : State; clear z; refine keeps_via (x := x.2) ?_ (fun hx => ?_))
           | (have z := x.2.2; guard_hyp z : State; clear z; refine keeps_via (x := x.2.2) ?_ (fun hx => ?_))
           | (have z := x.1; guard_hyp z : State; clear z; refine keeps_via (x := x.1) ?_ (fun hx => ?_)))
          rotate_left
          try clear_value x
          rotate_right
          dsimp -zeta only [x])
       | (fail_if_success (have z := x; guard_hyp z : True)
          try clear_value x))
    | ((with_reducible refine keeps_mk rfl ?_); first | with_reducible assumption | exact within_of rfl hT | (with_reducible apply originate_keeps) | split | dsimp -zeta only)
    | dsimp -zeta only

theorem execAllReduce_keeps {x : HitchRun} (hK : Keeps kc kn F old s) (hT : Within 10947256302 F := by exact within_of rfl (by assumption)) :
    NextKeeps kc kn F old (execAllReduce x s) := by
  unfold execAllReduce
  repeat' first
    | with_reducible assumption
    | with_reducible apply next_keeps
    | with_reducible exact fault_keeps
    | exact within_of rfl hT
    | with_reducible apply issueColl_keeps
    | dsimp only

theorem execReduceScatter_keeps {x : HitchRun} (hK : Keeps kc kn F old s) (hT : Within 10947256302 F := by exact within_of rfl (by assumption)) :
    NextKeeps kc kn F old (execReduceScatter x s) := by
  unfold execReduceScatter
  repeat' first
    | with_reducible assumption
    | with_reducible apply next_keeps
    | with_reducible exact fault_keeps
    | exact within_of rfl hT
    | with_reducible apply issueColl_keeps
    | dsimp only

theorem execAllGather_keeps {x : HitchRun} (hK : Keeps kc kn F old s) (hT : Within 10947256302 F := by exact within_of rfl (by assumption)) :
    NextKeeps kc kn F old (execAllGather x s) := by
  unfold execAllGather
  repeat' first
    | with_reducible assumption
    | with_reducible apply next_keeps
    | with_reducible exact fault_keeps
    | exact within_of rfl hT
    | with_reducible apply issueColl_keeps
    | dsimp only

theorem execAllToAll_keeps {x : HitchRun} (hK : Keeps kc kn F old s) (hT : Within 10947256302 F := by exact within_of rfl (by assumption)) :
    NextKeeps kc kn F old (execAllToAll x s) := by
  unfold execAllToAll
  repeat' first
    | with_reducible assumption
    | with_reducible apply next_keeps
    | with_reducible exact fault_keeps
    | exact within_of rfl hT
    | with_reducible apply issueColl_keeps
    | dsimp only

theorem execPost_keeps {die : Fin 4} {t : Nat} (hK : Keeps kc kn F old s) (hT : Within 10947256303 F := by exact within_of rfl (by assumption)) :
    NextKeeps kc kn F old (execPost die t s) := by
  unfold execPost
  repeat' first
    | with_reducible assumption
    | with_reducible apply next_keeps
    | with_reducible exact fault_keeps
    | exact within_of rfl hT
    | with_reducible intro _
    | with_reducible apply tick_keeps
    | with_reducible apply roundMessage_keeps
    | with_reducible apply noteFirst_keeps
    | dsimp only

theorem execKey_keeps {die : Fin 4} {t : Nat} (hK : Keeps kc kn F old s) (hT : Within 10947256303 F := by exact within_of rfl (by assumption)) :
    NextKeeps kc kn F old (execKey die t s) := by
  unfold execKey
  repeat' first
    | with_reducible assumption
    | with_reducible apply next_keeps
    | with_reducible exact fault_keeps
    | exact within_of rfl hT
    | with_reducible intro _
    | with_reducible apply tick_keeps
    | with_reducible apply modColl_keeps
    | with_reducible apply roundMessage_keeps
    | with_reducible apply noteFirst_keeps
    | with_reducible apply foldS_keeps
    | ((with_reducible refine keeps_mk rfl ?_); first | with_reducible assumption | exact within_of rfl hT | (with_reducible apply tick_keeps) | (with_reducible apply modColl_keeps) | (with_reducible apply roundMessage_keeps) | (with_reducible apply noteFirst_keeps) | with_reducible apply foldS_keeps | split | dsimp only)
    | dsimp only

theorem execAnchor_keeps {die : Fin 4} {t : Nat} (hK : Keeps kc kn F old s) (hT : Within 10947256303 F := by exact within_of rfl (by assumption)) :
    NextKeeps kc kn F old (execAnchor die t s) := by
  unfold execAnchor
  repeat' first
    | with_reducible assumption
    | with_reducible apply next_keeps
    | with_reducible exact fault_keeps
    | exact within_of rfl hT
    | with_reducible intro _
    | with_reducible apply tick_keeps
    | with_reducible apply modColl_keeps
    | with_reducible apply roundMessage_keeps
    | with_reducible apply foldS_keeps
    | ((with_reducible refine keeps_mk rfl ?_); first | with_reducible assumption | exact within_of rfl hT | (with_reducible apply tick_keeps) | (with_reducible apply modColl_keeps) | (with_reducible apply roundMessage_keeps) | with_reducible apply foldS_keeps | split | dsimp only)
    | dsimp only

theorem execContrib_keeps {die : Fin 4} {t : Nat} (hK : Keeps kc kn F old s) (hT : Within 10947256303 F := by exact within_of rfl (by assumption)) :
    NextKeeps kc kn F old (execContrib die t s) := by
  unfold execContrib
  repeat' first
    | with_reducible assumption
    | with_reducible apply next_keeps
    | with_reducible exact fault_keeps
    | exact within_of rfl hT
    | with_reducible intro _
    | with_reducible apply tick_keeps
    | with_reducible apply inc_keeps
    | with_reducible apply take_keeps
    | with_reducible apply modColl_keeps
    | with_reducible apply collWrite_keeps
    | with_reducible apply takeContrib_keeps
    | with_reducible apply collMismatch_keeps
    | with_reducible apply roundMessage_keeps
    | (have x : True := trivial
       extract_lets +onlyGivenNames x
       first
       | ((first
           | (have z := x; guard_hyp z : State; clear z; refine keeps_via (x := x) ?_ (fun hx => ?_))
           | (have z := x; guard_hyp z : State; clear z; refine next_via (x := x) ?_ (fun hx => ?_))
           | (have z := x.2; guard_hyp z : State; clear z; refine keeps_via (x := x.2) ?_ (fun hx => ?_))
           | (have z := x.2; guard_hyp z : State; clear z; refine next_via (x := x.2) ?_ (fun hx => ?_))
           | (have z := x.2.2; guard_hyp z : State; clear z; refine keeps_via (x := x.2.2) ?_ (fun hx => ?_))
           | (have z := x.2.2; guard_hyp z : State; clear z; refine next_via (x := x.2.2) ?_ (fun hx => ?_))
           | (have z := x.1; guard_hyp z : State; clear z; refine keeps_via (x := x.1) ?_ (fun hx => ?_))
           | (have z := x.1; guard_hyp z : State; clear z; refine next_via (x := x.1) ?_ (fun hx => ?_)))
          rotate_left
          try clear_value x
          rotate_right
          dsimp -zeta only [x])
       | (fail_if_success (have z := x; guard_hyp z : True)
          try clear_value x))
    | ((with_reducible refine keeps_mk rfl ?_); first | with_reducible assumption | exact within_of rfl hT | (with_reducible apply tick_keeps) | (with_reducible apply inc_keeps) | (with_reducible apply take_keeps) | (with_reducible apply modColl_keeps) | (with_reducible apply collWrite_keeps) | (with_reducible apply takeContrib_keeps) | (with_reducible apply collMismatch_keeps) | (with_reducible apply roundMessage_keeps) | split | dsimp -zeta only)
    | with_reducible refine keeps_fst (by with_reducible assumption) ?_
    | with_reducible refine keeps_snd (by with_reducible assumption) ?_
    | with_reducible refine keeps_thd (by with_reducible assumption) ?_
    | split
    | dsimp -zeta only

theorem execResult_keeps {die : Fin 4} {t : Nat} (hK : Keeps kc kn F old s) (hT : Within 10947256303 F := by exact within_of rfl (by assumption)) :
    NextKeeps kc kn F old (execResult die t s) := by
  unfold execResult
  repeat' first
    | with_reducible assumption
    | with_reducible apply next_keeps
    | with_reducible exact fault_keeps
    | exact within_of rfl hT
    | with_reducible intro _
    | with_reducible apply tick_keeps
    | with_reducible apply take_keeps
    | with_reducible apply modColl_keeps
    | with_reducible apply collWrite_keeps
    | with_reducible apply roundMessage_keeps
    | (have x : True := trivial
       extract_lets +onlyGivenNames x
       first
       | ((first
           | (have z := x; guard_hyp z : State; clear z; refine keeps_via (x := x) ?_ (fun hx => ?_))
           | (have z := x; guard_hyp z : State; clear z; refine next_via (x := x) ?_ (fun hx => ?_))
           | (have z := x.2; guard_hyp z : State; clear z; refine keeps_via (x := x.2) ?_ (fun hx => ?_))
           | (have z := x.2; guard_hyp z : State; clear z; refine next_via (x := x.2) ?_ (fun hx => ?_))
           | (have z := x.2.2; guard_hyp z : State; clear z; refine keeps_via (x := x.2.2) ?_ (fun hx => ?_))
           | (have z := x.2.2; guard_hyp z : State; clear z; refine next_via (x := x.2.2) ?_ (fun hx => ?_))
           | (have z := x.1; guard_hyp z : State; clear z; refine keeps_via (x := x.1) ?_ (fun hx => ?_))
           | (have z := x.1; guard_hyp z : State; clear z; refine next_via (x := x.1) ?_ (fun hx => ?_)))
          rotate_left
          try clear_value x
          rotate_right
          dsimp -zeta only [x])
       | (fail_if_success (have z := x; guard_hyp z : True)
          try clear_value x))
    | ((with_reducible refine keeps_mk rfl ?_); first | with_reducible assumption | exact within_of rfl hT | (with_reducible apply tick_keeps) | (with_reducible apply take_keeps) | (with_reducible apply modColl_keeps) | (with_reducible apply collWrite_keeps) | (with_reducible apply roundMessage_keeps) | split | dsimp -zeta only)
    | split
    | dsimp -zeta only

theorem execDone_keeps {die : Fin 4} {t : Nat} (hK : Keeps kc kn F old s) (hT : Within 10947256303 F := by exact within_of rfl (by assumption)) :
    NextKeeps kc kn F old (execDone die t s) := by
  unfold execDone
  repeat' first
    | with_reducible assumption
    | with_reducible apply next_keeps
    | with_reducible exact fault_keeps
    | exact within_of rfl hT
    | with_reducible intro _
    | with_reducible apply tick_keeps
    | with_reducible apply modColl_keeps
    | with_reducible apply roundMessage_keeps
    | ((with_reducible refine keeps_mk rfl ?_); first | with_reducible assumption | exact within_of rfl hT | (with_reducible apply tick_keeps) | (with_reducible apply modColl_keeps) | (with_reducible apply roundMessage_keeps) | split | dsimp only)
    | split
    | dsimp only

theorem execMessageExpired_keeps {die : Fin 4} {t : Nat} (hK : Keeps kc kn F old s) (hT : Within 10947256239 F := by exact within_of rfl (by assumption)) :
    NextKeeps kc kn F old (execMessageExpired die t s) := by
  unfold execMessageExpired
  repeat' first
    | with_reducible assumption
    | with_reducible apply next_keeps
    | with_reducible exact fault_keeps
    | exact within_of rfl hT
    | with_reducible intro _
    | with_reducible apply tick_keeps
    | with_reducible apply inc_keeps
    | with_reducible apply modEngine_keeps
    | with_reducible apply refuseColl_keeps
    | (have x : True := trivial
       extract_lets +onlyGivenNames x
       first
       | ((first
           | (have z := x; guard_hyp z : State; clear z; refine keeps_via (x := x) ?_ (fun hx => ?_))
           | (have z := x; guard_hyp z : State; clear z; refine next_via (x := x) ?_ (fun hx => ?_))
           | (have z := x.2; guard_hyp z : State; clear z; refine keeps_via (x := x.2) ?_ (fun hx => ?_))
           | (have z := x.2; guard_hyp z : State; clear z; refine next_via (x := x.2) ?_ (fun hx => ?_))
           | (have z := x.2.2; guard_hyp z : State; clear z; refine keeps_via (x := x.2.2) ?_ (fun hx => ?_))
           | (have z := x.2.2; guard_hyp z : State; clear z; refine next_via (x := x.2.2) ?_ (fun hx => ?_))
           | (have z := x.1; guard_hyp z : State; clear z; refine keeps_via (x := x.1) ?_ (fun hx => ?_))
           | (have z := x.1; guard_hyp z : State; clear z; refine next_via (x := x.1) ?_ (fun hx => ?_)))
          rotate_left
          try clear_value x
          rotate_right
          dsimp -zeta only [x])
       | (fail_if_success (have z := x; guard_hyp z : True)
          try clear_value x))
    | ((with_reducible refine keeps_mk rfl ?_); first | with_reducible assumption | exact within_of rfl hT | (with_reducible apply tick_keeps) | (with_reducible apply inc_keeps) | (with_reducible apply modEngine_keeps) | (with_reducible apply refuseColl_keeps) | split | dsimp -zeta only)
    | with_reducible refine keeps_fst (by with_reducible assumption) ?_
    | with_reducible refine keeps_snd (by with_reducible assumption) ?_
    | with_reducible refine keeps_thd (by with_reducible assumption) ?_
    | split
    | dsimp -zeta only

theorem execCollectiveTimeout_keeps {st : Fin 128} {t : Nat} (hK : Keeps kc kn F old s) (hT : Within 8388641 F := by exact within_of rfl (by assumption)) :
    NextKeeps kc kn F old (execCollectiveTimeout st t s) := by
  unfold execCollectiveTimeout
  repeat' first
    | with_reducible assumption
    | with_reducible apply next_keeps
    | with_reducible exact fault_keeps
    | exact within_of rfl hT
    | with_reducible intro _
    | with_reducible apply tick_keeps
    | with_reducible apply endColl_keeps
    | (have x : True := trivial
       extract_lets +onlyGivenNames x
       first
       | ((first
           | (have z := x; guard_hyp z : State; clear z; refine keeps_via (x := x) ?_ (fun hx => ?_))
           | (have z := x; guard_hyp z : State; clear z; refine next_via (x := x) ?_ (fun hx => ?_))
           | (have z := x.2; guard_hyp z : State; clear z; refine keeps_via (x := x.2) ?_ (fun hx => ?_))
           | (have z := x.2; guard_hyp z : State; clear z; refine next_via (x := x.2) ?_ (fun hx => ?_))
           | (have z := x.2.2; guard_hyp z : State; clear z; refine keeps_via (x := x.2.2) ?_ (fun hx => ?_))
           | (have z := x.2.2; guard_hyp z : State; clear z; refine next_via (x := x.2.2) ?_ (fun hx => ?_))
           | (have z := x.1; guard_hyp z : State; clear z; refine keeps_via (x := x.1) ?_ (fun hx => ?_))
           | (have z := x.1; guard_hyp z : State; clear z; refine next_via (x := x.1) ?_ (fun hx => ?_)))
          rotate_left
          try clear_value x
          rotate_right
          dsimp -zeta only [x])
       | (fail_if_success (have z := x; guard_hyp z : True)
          try clear_value x))
    | ((with_reducible refine keeps_mk rfl ?_); first | with_reducible assumption | exact within_of rfl hT | (with_reducible apply tick_keeps) | (with_reducible apply endColl_keeps) | split | dsimp -zeta only)
    | with_reducible refine keeps_fst (by with_reducible assumption) ?_
    | with_reducible refine keeps_snd (by with_reducible assumption) ?_
    | with_reducible refine keeps_thd (by with_reducible assumption) ?_
    | split
    | dsimp -zeta only

theorem execReady_keeps {die : Fin 4} {t : Nat} (hK : Keeps kc kn F old s) (hT : Within 10947256239 F := by exact within_of rfl (by assumption)) :
    NextKeeps kc kn F old (execReady die t s) := by
  unfold execReady
  repeat' first
    | with_reducible assumption
    | with_reducible apply next_keeps
    | with_reducible exact fault_keeps
    | exact within_of rfl hT
    | with_reducible intro _
    | with_reducible apply tick_keeps
    | with_reducible apply inc_keeps
    | with_reducible apply ready_keeps
    | with_reducible apply modVote_keeps
    | with_reducible apply collMessage_keeps
    | with_reducible apply voteWaited_keeps
    | (have x : True := trivial
       extract_lets +onlyGivenNames x
       first
       | ((first
           | (have z := x; guard_hyp z : State; clear z; refine keeps_via (x := x) ?_ (fun hx => ?_))
           | (have z := x; guard_hyp z : State; clear z; refine next_via (x := x) ?_ (fun hx => ?_))
           | (have z := x.2; guard_hyp z : State; clear z; refine keeps_via (x := x.2) ?_ (fun hx => ?_))
           | (have z := x.2; guard_hyp z : State; clear z; refine next_via (x := x.2) ?_ (fun hx => ?_))
           | (have z := x.2.2; guard_hyp z : State; clear z; refine keeps_via (x := x.2.2) ?_ (fun hx => ?_))
           | (have z := x.2.2; guard_hyp z : State; clear z; refine next_via (x := x.2.2) ?_ (fun hx => ?_))
           | (have z := x.1; guard_hyp z : State; clear z; refine keeps_via (x := x.1) ?_ (fun hx => ?_))
           | (have z := x.1; guard_hyp z : State; clear z; refine next_via (x := x.1) ?_ (fun hx => ?_)))
          rotate_left
          try clear_value x
          rotate_right
          dsimp -zeta only [x])
       | (fail_if_success (have z := x; guard_hyp z : True)
          try clear_value x))
    | ((with_reducible refine keeps_mk rfl ?_); first | with_reducible assumption | exact within_of rfl hT | (with_reducible apply tick_keeps) | (with_reducible apply inc_keeps) | (with_reducible apply ready_keeps) | (with_reducible apply modVote_keeps) | (with_reducible apply collMessage_keeps) | (with_reducible apply voteWaited_keeps) | split | dsimp -zeta only)
    | split
    | dsimp -zeta only

theorem execAbort_keeps {die : Fin 4} {t : Nat} (hK : Keeps kc kn F old s) (hT : Within 10947256239 F := by exact within_of rfl (by assumption)) :
    NextKeeps kc kn F old (execAbort die t s) := by
  unfold execAbort
  repeat' first
    | with_reducible assumption
    | with_reducible apply next_keeps
    | with_reducible exact fault_keeps
    | exact within_of rfl hT
    | with_reducible intro _
    | with_reducible apply tick_keeps
    | with_reducible apply inc_keeps
    | with_reducible apply modStep_keeps
    | with_reducible apply running_keeps
    | with_reducible apply block_keeps
    | with_reducible apply collMessage_keeps
    | (have x : True := trivial
       extract_lets +onlyGivenNames x
       first
       | ((first
           | (have z := x; guard_hyp z : State; clear z; refine keeps_via (x := x) ?_ (fun hx => ?_))
           | (have z := x; guard_hyp z : State; clear z; refine next_via (x := x) ?_ (fun hx => ?_))
           | (have z := x.2; guard_hyp z : State; clear z; refine keeps_via (x := x.2) ?_ (fun hx => ?_))
           | (have z := x.2; guard_hyp z : State; clear z; refine next_via (x := x.2) ?_ (fun hx => ?_))
           | (have z := x.2.2; guard_hyp z : State; clear z; refine keeps_via (x := x.2.2) ?_ (fun hx => ?_))
           | (have z := x.2.2; guard_hyp z : State; clear z; refine next_via (x := x.2.2) ?_ (fun hx => ?_))
           | (have z := x.1; guard_hyp z : State; clear z; refine keeps_via (x := x.1) ?_ (fun hx => ?_))
           | (have z := x.1; guard_hyp z : State; clear z; refine next_via (x := x.1) ?_ (fun hx => ?_)))
          rotate_left
          try clear_value x
          rotate_right
          dsimp -zeta only [x])
       | (fail_if_success (have z := x; guard_hyp z : True)
          try clear_value x))
    | ((with_reducible refine keeps_mk rfl ?_); first | with_reducible assumption | exact within_of rfl hT | (with_reducible apply tick_keeps) | (with_reducible apply inc_keeps) | (with_reducible apply modStep_keeps) | (with_reducible apply running_keeps) | (with_reducible apply block_keeps) | (with_reducible apply collMessage_keeps) | split | dsimp -zeta only)
    | split
    | dsimp -zeta only

theorem execQuery_keeps {die : Fin 4} {t : Nat} (hK : Keeps kc kn F old s) (hT : Within 10947256239 F := by exact within_of rfl (by assumption)) :
    NextKeeps kc kn F old (execQuery die t s) := by
  unfold execQuery
  repeat' first
    | with_reducible assumption
    | with_reducible apply next_keeps
    | with_reducible exact fault_keeps
    | exact within_of rfl hT
    | with_reducible intro _
    | with_reducible apply tick_keeps
    | with_reducible apply collMessage_keeps
    | with_reducible apply sendVoteTo_keeps
    | (have x : True := trivial
       extract_lets +onlyGivenNames x
       first
       | ((first
           | (have z := x; guard_hyp z : State; clear z; refine keeps_via (x := x) ?_ (fun hx => ?_))
           | (have z := x; guard_hyp z : State; clear z; refine next_via (x := x) ?_ (fun hx => ?_))
           | (have z := x.2; guard_hyp z : State; clear z; refine keeps_via (x := x.2) ?_ (fun hx => ?_))
           | (have z := x.2; guard_hyp z : State; clear z; refine next_via (x := x.2) ?_ (fun hx => ?_))
           | (have z := x.2.2; guard_hyp z : State; clear z; refine keeps_via (x := x.2.2) ?_ (fun hx => ?_))
           | (have z := x.2.2; guard_hyp z : State; clear z; refine next_via (x := x.2.2) ?_ (fun hx => ?_))
           | (have z := x.1; guard_hyp z : State; clear z; refine keeps_via (x := x.1) ?_ (fun hx => ?_))
           | (have z := x.1; guard_hyp z : State; clear z; refine next_via (x := x.1) ?_ (fun hx => ?_)))
          rotate_left
          try clear_value x
          rotate_right
          dsimp -zeta only [x])
       | (fail_if_success (have z := x; guard_hyp z : True)
          try clear_value x))
    | ((with_reducible refine keeps_mk rfl ?_); first | with_reducible assumption | exact within_of rfl hT | (with_reducible apply tick_keeps) | (with_reducible apply collMessage_keeps) | (with_reducible apply sendVoteTo_keeps) | split | dsimp -zeta only)
    | with_reducible refine keeps_fst (by with_reducible assumption) ?_
    | with_reducible refine keeps_snd (by with_reducible assumption) ?_
    | with_reducible refine keeps_thd (by with_reducible assumption) ?_
    | split
    | dsimp -zeta only

theorem execVoteQueryTimeout_keeps {p : Fin 16} {t : Nat} (hK : Keeps kc kn F old s) (hT : Within 10813032367 F := by exact within_of rfl (by assumption)) :
    NextKeeps kc kn F old (execVoteQueryTimeout p t s) := by
  unfold execVoteQueryTimeout
  repeat' first
    | with_reducible assumption
    | with_reducible apply next_keeps
    | with_reducible exact fault_keeps
    | exact within_of rfl hT
    | with_reducible intro _
    | with_reducible apply tick_keeps
    | with_reducible apply inc_keeps
    | with_reducible apply fsr_keeps
    | with_reducible apply ready_keeps
    | with_reducible apply sendColl_keeps
    | with_reducible apply modVote_keeps
    | with_reducible apply foldS_keeps
    | (have x : True := trivial
       extract_lets +onlyGivenNames x
       first
       | ((first
           | (have z := x; guard_hyp z : State; clear z; refine keeps_via (x := x) ?_ (fun hx => ?_))
           | (have z := x; guard_hyp z : State; clear z; refine next_via (x := x) ?_ (fun hx => ?_))
           | (have z := x.2; guard_hyp z : State; clear z; refine keeps_via (x := x.2) ?_ (fun hx => ?_))
           | (have z := x.2; guard_hyp z : State; clear z; refine next_via (x := x.2) ?_ (fun hx => ?_))
           | (have z := x.2.2; guard_hyp z : State; clear z; refine keeps_via (x := x.2.2) ?_ (fun hx => ?_))
           | (have z := x.2.2; guard_hyp z : State; clear z; refine next_via (x := x.2.2) ?_ (fun hx => ?_))
           | (have z := x.1; guard_hyp z : State; clear z; refine keeps_via (x := x.1) ?_ (fun hx => ?_))
           | (have z := x.1; guard_hyp z : State; clear z; refine next_via (x := x.1) ?_ (fun hx => ?_)))
          rotate_left
          try clear_value x
          rotate_right
          dsimp -zeta only [x])
       | (fail_if_success (have z := x; guard_hyp z : True)
          try clear_value x))
    | ((with_reducible refine keeps_mk rfl ?_); first | with_reducible assumption | exact within_of rfl hT | (with_reducible apply tick_keeps) | (with_reducible apply inc_keeps) | (with_reducible apply fsr_keeps) | (with_reducible apply ready_keeps) | (with_reducible apply sendColl_keeps) | (with_reducible apply modVote_keeps) | with_reducible apply foldS_keeps | split | dsimp -zeta only)
    | with_reducible refine keeps_fst (by with_reducible assumption) ?_
    | with_reducible refine keeps_snd (by with_reducible assumption) ?_
    | with_reducible refine keeps_thd (by with_reducible assumption) ?_
    | split
    | dsimp -zeta only

end Sys2Proof.Machine
end

