-- ==== Sys2Proof/Laws/KeepsServe.lean ====
section
/-! SUPPORT. What the operations of Machine/Serve.lean keep: one lemma for each. -/

namespace Sys2Proof.Machine

set_option linter.all false
set_option Elab.async false

variable {kc kn : Bool} {F : Field → Bool} {old s : State}

theorem writeReel_keeps {p q kind flags value step position aux : Nat} (hK : Keeps kc kn F old s) (hT : Within 10817232814 F := by exact within_of rfl (by assumption)) :
    Keeps kc kn F old (State.writeReel s p q kind flags value step position aux) := by
  unfold State.writeReel
  repeat' first
    | with_reducible assumption
    | exact within_of rfl hT
    | with_reducible apply storeP_keeps
    | (have x : True := trivial
       extract_lets +onlyGivenNames x
       first
       | ((first
           | (have z := x; guard_hyp z : State; clear z; refine keeps_via (x := x) ?_ (fun hx => ?_))
           | (have z := x.2; guard_hyp z : State; clear z; refine keeps_via (x := x.2) ?_ (fun hx => ?_))
           | (have z := x.2.2; guard_hyp z : State; clear z; refine keeps_via (x := x.2.2) ?_ (fun hx => ?_))
           | (have z := x.1; guard_hyp z : State; clear z; refine keeps_via (x := x.1) ?_ (fun hx => ?_)))
          rotate_left
          try clear_value x
          rotate_right
          dsimp -zeta only [x])
       | (fail_if_success (have z := x; guard_hyp z : True)
          try clear_value x))
    | ((with_reducible refine keeps_mk rfl ?_); first | with_reducible assumption | exact within_of rfl hT | (with_reducible apply storeP_keeps) | split | dsimp -zeta only)
    | split
    | dsimp -zeta only

theorem retire_keeps {p q kind value len aux : Nat} (hK : Keeps kc kn F old s) (hT : Within 11893071790 F := by exact within_of rfl (by assumption)) :
    Keeps kc kn F old (State.retire s p q kind value len aux) := by
  unfold State.retire
  repeat' first
    | with_reducible assumption
    | exact within_of rfl hT
    | with_reducible intro _
    | with_reducible apply modJournal_keeps
    | with_reducible apply modSeq_keeps
    | with_reducible apply closeChain_keeps
    | with_reducible apply tidySeq_keeps
    | with_reducible apply writeReel_keeps
    | with_reducible apply foldS_keeps
    | (have x : True := trivial
       extract_lets +onlyGivenNames x
       first
       | ((first
           | (have z := x; guard_hyp z : State; clear z; refine keeps_via (x := x) ?_ (fun hx => ?_))
           | (have z := x.2; guard_hyp z : State; clear z; refine keeps_via (x := x.2) ?_ (fun hx => ?_))
           | (have z := x.2.2; guard_hyp z : State; clear z; refine keeps_via (x := x.2.2) ?_ (fun hx => ?_))
           | (have z := x.1; guard_hyp z : State; clear z; refine keeps_via (x := x.1) ?_ (fun hx => ?_)))
          rotate_left
          try clear_value x
          rotate_right
          dsimp -zeta only [x])
       | (fail_if_success (have z := x; guard_hyp z : True)
          try clear_value x))
    | ((with_reducible refine keeps_mk rfl ?_); first | with_reducible assumption | exact within_of rfl hT | (with_reducible apply modJournal_keeps) | (with_reducible apply modSeq_keeps) | (with_reducible apply closeChain_keeps) | (with_reducible apply tidySeq_keeps) | (with_reducible apply writeReel_keeps) | with_reducible apply foldS_keeps | split | dsimp -zeta only)
    | with_reducible refine keeps_fst (by with_reducible assumption) ?_
    | with_reducible refine keeps_snd (by with_reducible assumption) ?_
    | with_reducible refine keeps_thd (by with_reducible assumption) ?_
    | split
    | dsimp -zeta only

theorem modAccount_keeps {a : Nat} {f : Account → Account} (hK : Keeps kc kn F old s) (hT : Within 4194304 F := by exact within_of rfl (by assumption)) :
    Keeps kc kn F old (State.modAccount s a f) := by
  unfold State.modAccount
  repeat' first | with_reducible assumption | exact within_of rfl hT | ((with_reducible refine keeps_mk rfl ?_); first | with_reducible assumption | exact within_of rfl hT | split | dsimp only) | dsimp only

theorem refill_keeps (hK : Keeps kc kn F old s) (hT : Within 4194304 F := by exact within_of rfl (by assumption)) :
    Keeps kc kn F old (State.refill s) := by
  unfold State.refill
  repeat' first
    | with_reducible assumption
    | exact within_of rfl hT
    | with_reducible intro _
    | with_reducible apply foldl_keeps
    | (have x : True := trivial
       extract_lets +onlyGivenNames x
       first
       | ((first
           | (have z := x; guard_hyp z : State; clear z; refine keeps_via (x := x) ?_ (fun hx => ?_))
           | (have z := x.2; guard_hyp z : State; clear z; refine keeps_via (x := x.2) ?_ (fun hx => ?_))
           | (have z := x.2.2; guard_hyp z : State; clear z; refine keeps_via (x := x.2.2) ?_ (fun hx => ?_))
           | (have z := x.1; guard_hyp z : State; clear z; refine keeps_via (x := x.1) ?_ (fun hx => ?_)))
          rotate_left
          try clear_value x
          rotate_right
          dsimp -zeta only [x])
       | (fail_if_success (have z := x; guard_hyp z : True)
          try clear_value x))
    | ((with_reducible refine keeps_mk rfl ?_); first | with_reducible assumption | exact within_of rfl hT | split | dsimp -zeta only)
    | split
    | dsimp -zeta only

theorem lateRefill_keeps {p : Nat} (hK : Keeps kc kn F old s) (hT : Within 4194304 F := by exact within_of rfl (by assumption)) :
    Keeps kc kn F old (State.lateRefill s p) := by
  unfold State.lateRefill
  repeat' first
    | with_reducible assumption
    | exact within_of rfl hT
    | with_reducible intro _
    | (have x : True := trivial
       extract_lets +onlyGivenNames x
       first
       | ((first
           | (have z := x; guard_hyp z : State; clear z; refine keeps_via (x := x) ?_ (fun hx => ?_))
           | (have z := x.2; guard_hyp z : State; clear z; refine keeps_via (x := x.2) ?_ (fun hx => ?_))
           | (have z := x.2.2; guard_hyp z : State; clear z; refine keeps_via (x := x.2.2) ?_ (fun hx => ?_))
           | (have z := x.1; guard_hyp z : State; clear z; refine keeps_via (x := x.1) ?_ (fun hx => ?_)))
          rotate_left
          try clear_value x
          rotate_right
          dsimp -zeta only [x])
       | (fail_if_success (have z := x; guard_hyp z : True)
          try clear_value x))
    | ((with_reducible refine keeps_mk rfl ?_); first | with_reducible assumption | exact within_of rfl hT | split | dsimp -zeta only)
    | split
    | dsimp -zeta only

theorem addRef_keeps {i : Nat} (hK : Keeps kc kn F old s) (hT : Within 2097152 F := by exact within_of rfl (by assumption)) :
    Keeps kc kn F old (State.addRef s i) := by
  unfold State.addRef
  repeat' first
    | with_reducible assumption
    | exact within_of rfl hT
    | with_reducible intro _
    | with_reducible apply modPage_keeps
    | ((with_reducible refine keeps_mk rfl ?_); first | with_reducible assumption | exact within_of rfl hT | (with_reducible apply modPage_keeps) | split | dsimp only)
    | dsimp only

theorem openChains_keeps {p i : Nat} {x : Sequence} {pre : Option Handle} (hK : Keeps kc kn F old s) (hT : Within 2097152 F := by exact within_of rfl (by assumption)) :
    Keeps kc kn F old (State.openChains s p i x pre) := by
  unfold State.openChains
  repeat' first
    | with_reducible assumption
    | exact within_of rfl hT
    | with_reducible intro _
    | with_reducible apply setChain_keeps
    | with_reducible apply addRef_keeps
    | with_reducible apply foldS_keeps
    | (have x : True := trivial
       extract_lets +onlyGivenNames x
       first
       | ((first
           | (have z := x; guard_hyp z : State; clear z; refine keeps_via (x := x) ?_ (fun hx => ?_))
           | (have z := x.2; guard_hyp z : State; clear z; refine keeps_via (x := x.2) ?_ (fun hx => ?_))
           | (have z := x.2.2; guard_hyp z : State; clear z; refine keeps_via (x := x.2.2) ?_ (fun hx => ?_))
           | (have z := x.1; guard_hyp z : State; clear z; refine keeps_via (x := x.1) ?_ (fun hx => ?_)))
          rotate_left
          try clear_value x
          rotate_right
          dsimp -zeta only [x])
       | (fail_if_success (have z := x; guard_hyp z : True)
          try clear_value x))
    | ((with_reducible refine keeps_mk rfl ?_); first | with_reducible assumption | exact within_of rfl hT | (with_reducible apply setChain_keeps) | (with_reducible apply addRef_keeps) | with_reducible apply foldS_keeps | split | dsimp -zeta only)
    | with_reducible refine keeps_fst (by with_reducible assumption) ?_
    | with_reducible refine keeps_snd (by with_reducible assumption) ?_
    | with_reducible refine keeps_thd (by with_reducible assumption) ?_
    | split
    | dsimp -zeta only

theorem admitSeq_keeps {p i : Nat} {x : Sequence} {n : Nat} (hK : Keeps kc kn F old s) (hT : Within 4194304 F := by exact within_of rfl (by assumption)) :
    Keeps kc kn F old (State.admitSeq s p i x n) := by
  unfold State.admitSeq
  repeat' first | with_reducible assumption | exact within_of rfl hT | ((with_reducible refine keeps_mk rfl ?_); first | with_reducible assumption | exact within_of rfl hT | split | dsimp only) | dsimp only

theorem submit_keeps {p : Nat} {b : List Byte} (hK : Keeps kc kn F old s) (hT : Within 6291456 F := by exact within_of rfl (by assumption)) :
    Keeps kc kn F old (State.submit s p b).2.2 := by
  unfold State.submit
  repeat' first
    | with_reducible assumption
    | exact within_of rfl hT
    | with_reducible intro _
    | with_reducible apply ans_keeps
    | with_reducible apply modChain_keeps
    | with_reducible apply openChains_keeps
    | with_reducible apply admitSeq_keeps
    | with_reducible apply decode_keeps
    | with_reducible apply foldS_keeps
    | (have x : True := trivial
       extract_lets +onlyGivenNames x
       first
       | ((first
           | (have z := x; guard_hyp z : State; clear z; refine keeps_via (x := x) ?_ (fun hx => ?_))
           | (have z := x.2; guard_hyp z : State; clear z; refine keeps_via (x := x.2) ?_ (fun hx => ?_))
           | (have z := x.2.2; guard_hyp z : State; clear z; refine keeps_via (x := x.2.2) ?_ (fun hx => ?_))
           | (have z := x.1; guard_hyp z : State; clear z; refine keeps_via (x := x.1) ?_ (fun hx => ?_)))
          rotate_left
          try clear_value x
          rotate_right
          dsimp -zeta only [x])
       | (fail_if_success (have z := x; guard_hyp z : True)
          try clear_value x))
    | ((with_reducible refine keeps_mk rfl ?_); first | with_reducible assumption | exact within_of rfl hT | (with_reducible apply ans_keeps) | (with_reducible apply modChain_keeps) | (with_reducible apply openChains_keeps) | (with_reducible apply admitSeq_keeps) | (with_reducible apply decode_keeps) | with_reducible apply foldS_keeps | split | dsimp -zeta only)
    | with_reducible refine keeps_fst (by with_reducible assumption) ?_
    | with_reducible refine keeps_snd (by with_reducible assumption) ?_
    | with_reducible refine keeps_thd (by with_reducible assumption) ?_
    | split
    | dsimp -zeta only

theorem onSeq_keeps {p i : Nat} {f : Nat → Sequence → Nat × List Byte × State} (hKf : ∀ x0 x1, Keeps kc kn F old (f x0 x1).2.2) (hK : Keeps kc kn F old s) (hT : Within 0 F := by exact within_of rfl (by assumption)) :
    Keeps kc kn F old (State.onSeq s p i f).2.2 := by
  unfold State.onSeq
  repeat' first
    | with_reducible assumption
    | exact within_of rfl hT
    | with_reducible apply hKf
    | with_reducible apply ans_keeps
    | ((with_reducible refine keeps_mk rfl ?_); first | with_reducible assumption | exact within_of rfl hT | (with_reducible apply hKf) | (with_reducible apply ans_keeps) | split | dsimp only)
    | with_reducible refine keeps_fst (by with_reducible assumption) ?_
    | with_reducible refine keeps_snd (by with_reducible assumption) ?_
    | with_reducible refine keeps_thd (by with_reducible assumption) ?_
    | split
    | dsimp only

theorem promote_keeps {p q : Nat} (hK : Keeps kc kn F old s) (hT : Within 2097152 F := by exact within_of rfl (by assumption)) :
    Keeps kc kn F old (State.promote s p q) := by
  unfold State.promote
  repeat' first
    | with_reducible assumption
    | exact within_of rfl hT
    | with_reducible intro _
    | with_reducible apply startMove_keeps
    | with_reducible apply foldS_keeps
    | split
    | dsimp only

theorem reserve_keeps {a n : Nat} (hK : Keeps kc kn F old s) (hT : Within 4194304 F := by exact within_of rfl (by assumption)) :
    Keeps kc kn F old (State.reserve s a n) := by
  unfold State.reserve
  repeat' first
    | with_reducible assumption
    | exact within_of rfl hT
    | with_reducible intro _
    | with_reducible apply modAccount_keeps
    | ((with_reducible refine keeps_mk rfl ?_); first | with_reducible assumption | exact within_of rfl hT | (with_reducible apply modAccount_keeps) | split | dsimp only)
    | dsimp only

theorem lastTokenOf_keeps {p : Nat} {x : Sequence} (hK : Keeps kc kn F old s) (hT : Within 10813038510 F := by exact within_of rfl (by assumption)) :
    Keeps kc kn F old (State.lastTokenOf s p x).2 := by
  unfold State.lastTokenOf
  repeat' first
    | with_reducible assumption
    | exact within_of rfl hT
    | with_reducible apply fetchP_keeps
    | (have x : True := trivial
       extract_lets +onlyGivenNames x
       first
       | ((first
           | (have z := x; guard_hyp z : State; clear z; refine keeps_via (x := x) ?_ (fun hx => ?_))
           | (have z := x.2; guard_hyp z : State; clear z; refine keeps_via (x := x.2) ?_ (fun hx => ?_))
           | (have z := x.2.2; guard_hyp z : State; clear z; refine keeps_via (x := x.2.2) ?_ (fun hx => ?_))
           | (have z := x.1; guard_hyp z : State; clear z; refine keeps_via (x := x.1) ?_ (fun hx => ?_)))
          rotate_left
          try clear_value x
          rotate_right
          dsimp -zeta only [x])
       | (fail_if_success (have z := x; guard_hyp z : True)
          try clear_value x))
    | ((with_reducible refine keeps_mk rfl ?_); first | with_reducible assumption | exact within_of rfl hT | (with_reducible apply fetchP_keeps) | split | dsimp -zeta only)
    | split
    | dsimp -zeta only

theorem decode_keeps {b : Build} {p q : Nat} {x : Sequence} (hK : Keeps kc kn F old b.s) (hT : Within 10817232814 F := by exact within_of rfl (by assumption)) :
    Keeps kc kn F old (Build.decode b p q x).s := by
  unfold Build.decode
  repeat' first
    | with_reducible assumption
    | exact within_of rfl hT
    | with_reducible intro _
    | with_reducible apply reserve_keeps
    | with_reducible apply lastTokenOf_keeps
    | with_reducible apply chunk_keeps
    | (have x : True := trivial
       extract_lets +onlyGivenNames x
       first
       | ((first
           | (have z := x; guard_hyp z : State; clear z; refine keeps_via (x := x) ?_ (fun hx => ?_))
           | (have z := x.2; guard_hyp z : State; clear z; refine keeps_via (x := x.2) ?_ (fun hx => ?_))
           | (have z := x.2.2; guard_hyp z : State; clear z; refine keeps_via (x := x.2.2) ?_ (fun hx => ?_))
           | (have z := x.1; guard_hyp z : State; clear z; refine keeps_via (x := x.1) ?_ (fun hx => ?_))
           | (have z := x.s; guard_hyp z : State; clear z; refine keeps_via (x := x.s) ?_ (fun hx => ?_))
           | (have z := x.1.s; guard_hyp z : State; clear z; refine keeps_via (x := x.1.s) ?_ (fun hx => ?_))
           | (have z := x.2.s; guard_hyp z : State; clear z; refine keeps_via (x := x.2.s) ?_ (fun hx => ?_)))
          rotate_left
          try clear_value x
          rotate_right
          dsimp -zeta only [x])
       | (fail_if_success (have z := x; guard_hyp z : True)
          try clear_value x))
    | ((with_reducible refine keeps_mk rfl ?_); first | with_reducible assumption | exact within_of rfl hT | (with_reducible apply reserve_keeps) | (with_reducible apply lastTokenOf_keeps) | (with_reducible apply chunk_keeps) | split | dsimp -zeta only)
    | with_reducible refine keeps_fst (by with_reducible assumption) ?_
    | with_reducible refine keeps_snd (by with_reducible assumption) ?_
    | with_reducible refine keeps_thd (by with_reducible assumption) ?_
    | split
    | dsimp -zeta only

theorem chunk_keeps {b : Build} {p q : Nat} {x : Sequence} (hK : Keeps kc kn F old b.s) (hT : Within 4194304 F := by exact within_of rfl (by assumption)) :
    Keeps kc kn F old (Build.chunk b p q x).s := by
  unfold Build.chunk
  repeat' first
    | with_reducible assumption
    | exact within_of rfl hT
    | with_reducible intro _
    | with_reducible apply reserve_keeps
    | (have x : True := trivial
       extract_lets +onlyGivenNames x
       first
       | ((first
           | (have z := x; guard_hyp z : State; clear z; refine keeps_via (x := x) ?_ (fun hx => ?_))
           | (have z := x.2; guard_hyp z : State; clear z; refine keeps_via (x := x.2) ?_ (fun hx => ?_))
           | (have z := x.2.2; guard_hyp z : State; clear z; refine keeps_via (x := x.2.2) ?_ (fun hx => ?_))
           | (have z := x.1; guard_hyp z : State; clear z; refine keeps_via (x := x.1) ?_ (fun hx => ?_))
           | (have z := x.s; guard_hyp z : State; clear z; refine keeps_via (x := x.s) ?_ (fun hx => ?_))
           | (have z := x.1.s; guard_hyp z : State; clear z; refine keeps_via (x := x.1.s) ?_ (fun hx => ?_))
           | (have z := x.2.s; guard_hyp z : State; clear z; refine keeps_via (x := x.2.s) ?_ (fun hx => ?_)))
          rotate_left
          try clear_value x
          rotate_right
          dsimp -zeta only [x])
       | (fail_if_success (have z := x; guard_hyp z : True)
          try clear_value x))
    | ((with_reducible refine keeps_mk rfl ?_); first | with_reducible assumption | exact within_of rfl hT | (with_reducible apply reserve_keeps) | split | dsimp -zeta only)
    | split
    | dsimp -zeta only

theorem plan_keeps {p : Nat} (hK : Keeps kc kn F old s) (hT : Within 10817232814 F := by exact within_of rfl (by assumption)) :
    Keeps kc kn F old (State.plan s p).s := by
  unfold State.plan
  repeat' first
    | with_reducible assumption
    | exact within_of rfl hT
    | with_reducible intro _
    | with_reducible apply decode_keeps
    | with_reducible apply chunk_keeps
    | with_reducible apply foldS_keeps
    | with_reducible apply foldS_inv (P := fun a : Build => Keeps kc kn F old a.s)
    | (have x : True := trivial
       extract_lets +onlyGivenNames x
       first
       | ((first
           | (have z := x; guard_hyp z : State; clear z; refine keeps_via (x := x) ?_ (fun hx => ?_))
           | (have z := x.2; guard_hyp z : State; clear z; refine keeps_via (x := x.2) ?_ (fun hx => ?_))
           | (have z := x.2.2; guard_hyp z : State; clear z; refine keeps_via (x := x.2.2) ?_ (fun hx => ?_))
           | (have z := x.1; guard_hyp z : State; clear z; refine keeps_via (x := x.1) ?_ (fun hx => ?_))
           | (have z := x.s; guard_hyp z : State; clear z; refine keeps_via (x := x.s) ?_ (fun hx => ?_))
           | (have z := x.1.s; guard_hyp z : State; clear z; refine keeps_via (x := x.1.s) ?_ (fun hx => ?_))
           | (have z := x.2.s; guard_hyp z : State; clear z; refine keeps_via (x := x.2.s) ?_ (fun hx => ?_)))
          rotate_left
          try clear_value x
          rotate_right
          dsimp -zeta only [x])
       | (fail_if_success (have z := x; guard_hyp z : True)
          try clear_value x))
    | split
    | dsimp -zeta only

theorem startBatch_keeps {p : Nat} {es : List BatchEntry} (hK : Keeps kc kn F old s) (hT : Within 10817232814 F := by exact within_of rfl (by assumption)) :
    Keeps kc kn F old (State.startBatch s p es) := by
  unfold State.startBatch
  repeat' first
    | with_reducible assumption
    | exact within_of rfl hT
    | with_reducible intro _
    | with_reducible apply modStep_keeps
    | with_reducible apply storeP_keeps
    | with_reducible apply chunk_keeps
    | (have x : True := trivial
       extract_lets +onlyGivenNames x
       first
       | ((first
           | (have z := x; guard_hyp z : State; clear z; refine keeps_via (x := x) ?_ (fun hx => ?_))
           | (have z := x.2; guard_hyp z : State; clear z; refine keeps_via (x := x.2) ?_ (fun hx => ?_))
           | (have z := x.2.2; guard_hyp z : State; clear z; refine keeps_via (x := x.2.2) ?_ (fun hx => ?_))
           | (have z := x.1; guard_hyp z : State; clear z; refine keeps_via (x := x.1) ?_ (fun hx => ?_)))
          rotate_left
          try clear_value x
          rotate_right
          dsimp -zeta only [x])
       | (fail_if_success (have z := x; guard_hyp z : True)
          try clear_value x))
    | ((with_reducible refine keeps_mk rfl ?_); first | with_reducible assumption | exact within_of rfl hT | (with_reducible apply modStep_keeps) | (with_reducible apply storeP_keeps) | (with_reducible apply chunk_keeps) | split | dsimp -zeta only)
    | dsimp -zeta only

theorem throttle_keeps {p n : Nat} (hK : Keeps kc kn F old s) (hT : Within 4 F := by exact within_of rfl (by assumption)) :
    Keeps kc kn F old (State.throttle s p n) := by
  unfold State.throttle
  repeat' first
    | with_reducible assumption
    | exact within_of rfl hT
    | with_reducible apply setReg_keeps
    | (have x : True := trivial
       extract_lets +onlyGivenNames x
       first
       | ((first
           | (have z := x; guard_hyp z : State; clear z; refine keeps_via (x := x) ?_ (fun hx => ?_))
           | (have z := x.2; guard_hyp z : State; clear z; refine keeps_via (x := x.2) ?_ (fun hx => ?_))
           | (have z := x.2.2; guard_hyp z : State; clear z; refine keeps_via (x := x.2.2) ?_ (fun hx => ?_))
           | (have z := x.1; guard_hyp z : State; clear z; refine keeps_via (x := x.1) ?_ (fun hx => ?_)))
          rotate_left
          try clear_value x
          rotate_right
          dsimp -zeta only [x])
       | (fail_if_success (have z := x; guard_hyp z : True)
          try clear_value x))
    | dsimp -zeta only

theorem journalRecord_keeps {p : Nat} (hK : Keeps kc kn F old s) (hT : Within 11890974638 F := by exact within_of rfl (by assumption)) : Keeps kc kn F old (State.journalRecord s p) := by
  have hm : ∀ (l : List BatchEntry) (s : State), Keeps kc kn F old s →
      Keeps kc kn F old (foldS (fun s e => s.modSeq e.seq fun x => { x with seen := true }) s l) := fun l s h =>
    foldS_keeps (fun s e h => modSeq_keeps h) h
  have hw : ∀ (l : List Nat) (f g : Nat → Nat) (b : Nat → List Byte),
      Keeps kc kn F old (foldS (fun s k => (s.storeP (s.serveDie p) p (s.slotAt p (f k)) (b k) []).2) s l) := fun l f g b =>
    foldS_keeps (fun s k h => storeP_keeps h) hK
  unfold State.journalRecord
  simp only []
  generalize (State.journal s p).area = ar
  obtain ⟨on, x, ring⟩ := ar
  simp only []
  split
  · exact hm _ _ hK
  · split
    · exact hm _ _ (inc_keeps hK)
    · exact hm _ _ (modJournal_keeps (hw _ _ (fun k => (s.journal p).wr + k) _))

theorem replaySlots_keeps {p : Nat} {ks : List Nat} (hK : Keeps kc kn F old s) (hT : Within 10813038510 F := by exact within_of rfl (by assumption)) :
    Keeps kc kn F old (State.replaySlots s p ks).2.2 := by
  unfold State.replaySlots
  repeat' first
    | with_reducible assumption
    | exact within_of rfl hT
    | with_reducible intro _
    | with_reducible apply fetchP_keeps
    | with_reducible apply foldS_keeps
    | with_reducible apply foldS_inv (P := fun a : Nat × List (List Byte) × State => Keeps kc kn F old a.2.2)
    | (have x : True := trivial
       extract_lets +onlyGivenNames x
       first
       | ((first
           | (have z := x; guard_hyp z : State; clear z; refine keeps_via (x := x) ?_ (fun hx => ?_))
           | (have z := x.2; guard_hyp z : State; clear z; refine keeps_via (x := x.2) ?_ (fun hx => ?_))
           | (have z := x.2.2; guard_hyp z : State; clear z; refine keeps_via (x := x.2.2) ?_ (fun hx => ?_))
           | (have z := x.1; guard_hyp z : State; clear z; refine keeps_via (x := x.1) ?_ (fun hx => ?_)))
          rotate_left
          try clear_value x
          rotate_right
          dsimp -zeta only [x])
       | (fail_if_success (have z := x; guard_hyp z : True)
          try clear_value x))
    | ((with_reducible refine keeps_mk rfl ?_); first | with_reducible assumption | exact within_of rfl hT | (with_reducible apply fetchP_keeps) | with_reducible apply foldS_keeps | split | dsimp -zeta only)
    | split
    | dsimp -zeta only

theorem haltReplay_keeps {p cause : Nat} (hK : Keeps kc kn F old s) (hT : Within 9663709444 F := by exact within_of rfl (by assumption)) :
    Keeps kc kn F old (State.haltReplay s p cause) := by
  unfold State.haltReplay
  repeat' first
    | with_reducible assumption
    | exact within_of rfl hT
    | with_reducible intro _
    | with_reducible apply modStep_keeps
    | with_reducible apply modJournal_keeps
    | with_reducible apply partStateEvent_keeps
    | (have x : True := trivial
       extract_lets +onlyGivenNames x
       first
       | ((first
           | (have z := x; guard_hyp z : State; clear z; refine keeps_via (x := x) ?_ (fun hx => ?_))
           | (have z := x.2; guard_hyp z : State; clear z; refine keeps_via (x := x.2) ?_ (fun hx => ?_))
           | (have z := x.2.2; guard_hyp z : State; clear z; refine keeps_via (x := x.2.2) ?_ (fun hx => ?_))
           | (have z := x.1; guard_hyp z : State; clear z; refine keeps_via (x := x.1) ?_ (fun hx => ?_)))
          rotate_left
          try clear_value x
          rotate_right
          dsimp -zeta only [x])
       | (fail_if_success (have z := x; guard_hyp z : True)
          try clear_value x))
    | ((with_reducible refine keeps_mk rfl ?_); first | with_reducible assumption | exact within_of rfl hT | (with_reducible apply modStep_keeps) | (with_reducible apply modJournal_keeps) | (with_reducible apply partStateEvent_keeps) | split | dsimp -zeta only)
    | dsimp -zeta only

theorem reserveReplay_keeps {a n : Nat} (hK : Keeps kc kn F old s) (hT : Within 4194304 F := by exact within_of rfl (by assumption)) :
    Keeps kc kn F old (State.reserveReplay s a n) := by
  unfold State.reserveReplay
  repeat' first
    | with_reducible assumption
    | exact within_of rfl hT
    | with_reducible intro _
    | with_reducible apply modAccount_keeps
    | with_reducible apply reserve_keeps
    | (have x : True := trivial
       extract_lets +onlyGivenNames x
       first
       | ((first
           | (have z := x; guard_hyp z : State; clear z; refine keeps_via (x := x) ?_ (fun hx => ?_))
           | (have z := x.2; guard_hyp z : State; clear z; refine keeps_via (x := x.2) ?_ (fun hx => ?_))
           | (have z := x.2.2; guard_hyp z : State; clear z; refine keeps_via (x := x.2.2) ?_ (fun hx => ?_))
           | (have z := x.1; guard_hyp z : State; clear z; refine keeps_via (x := x.1) ?_ (fun hx => ?_)))
          rotate_left
          try clear_value x
          rotate_right
          dsimp -zeta only [x])
       | (fail_if_success (have z := x; guard_hyp z : True)
          try clear_value x))
    | ((with_reducible refine keeps_mk rfl ?_); first | with_reducible assumption | exact within_of rfl hT | (with_reducible apply modAccount_keeps) | (with_reducible apply reserve_keeps) | split | dsimp -zeta only)
    | dsimp -zeta only

theorem replayStep_keeps {p : Nat} (hK : Keeps kc false F old s) (hT : Within 11893071790 F := by exact within_of rfl (by assumption)) :
    Keeps kc false F old (State.replayStep s p) := by
  unfold State.replayStep
  repeat' first
    | with_reducible assumption
    | exact within_of rfl hT
    | with_reducible intro _
    | with_reducible apply modStep_keeps
    | with_reducible apply modJournal_keeps
    | with_reducible apply modChain_keeps
    | with_reducible apply retire_keeps
    | with_reducible apply openChains_keeps
    | with_reducible apply admitSeq_keeps
    | with_reducible apply decode_keeps
    | with_reducible apply chunk_keeps
    | with_reducible apply startBatch_keeps
    | with_reducible apply replaySlots_keeps
    | with_reducible apply haltReplay_keeps
    | with_reducible apply reserveReplay_keeps
    | with_reducible apply foldS_keeps
    | (have x : True := trivial
       extract_lets +onlyGivenNames x
       first
       | ((first
           | (have z := x; guard_hyp z : State; clear z; refine keeps_via (x := x) ?_ (fun hx => ?_))
           | (have z := x.2; guard_hyp z : State; clear z; refine keeps_via (x := x.2) ?_ (fun hx => ?_))
           | (have z := x.2.2; guard_hyp z : State; clear z; refine keeps_via (x := x.2.2) ?_ (fun hx => ?_))
           | (have z := x.1; guard_hyp z : State; clear z; refine keeps_via (x := x.1) ?_ (fun hx => ?_)))
          rotate_left
          try clear_value x
          rotate_right
          dsimp -zeta only [x])
       | (fail_if_success (have z := x; guard_hyp z : True)
          try clear_value x))
    | ((with_reducible refine keeps_mk rfl ?_); first | with_reducible assumption | exact within_of rfl hT | (with_reducible apply modStep_keeps) | (with_reducible apply modJournal_keeps) | (with_reducible apply modChain_keeps) | (with_reducible apply retire_keeps) | (with_reducible apply openChains_keeps) | (with_reducible apply admitSeq_keeps) | (with_reducible apply decode_keeps) | (with_reducible apply chunk_keeps) | (with_reducible apply startBatch_keeps) | (with_reducible apply replaySlots_keeps) | (with_reducible apply haltReplay_keeps) | (with_reducible apply reserveReplay_keeps) | with_reducible apply foldS_keeps | split | dsimp -zeta only)
    | with_reducible refine keeps_fst (by with_reducible assumption) ?_
    | with_reducible refine keeps_snd (by with_reducible assumption) ?_
    | with_reducible refine keeps_thd (by with_reducible assumption) ?_
    | split
    | exact fun h => absurd h Bool.false_ne_true
    | exact absurd ‹false = true› Bool.false_ne_true
    | dsimp -zeta only

theorem modEntry_keeps {p q : Nat} {f : BatchEntry → BatchEntry} (hK : Keeps kc kn F old s) (hT : Within 4194304 F := by exact within_of rfl (by assumption)) :
    Keeps kc kn F old (State.modEntry s p q f) := by
  unfold State.modEntry
  repeat' first
    | with_reducible assumption
    | exact within_of rfl hT
    | with_reducible intro _
    | ((with_reducible refine keeps_mk rfl ?_); first | with_reducible assumption | exact within_of rfl hT | split | dsimp only)
    | split
    | dsimp only

theorem stageBody_keeps {r : Run} (hK : Keeps kc kn F old s) (hT : Within 10817232814 F := by exact within_of rfl (by assumption)) :
    Keeps kc kn F old (State.stageBody s r).2.2 := by
  unfold State.stageBody
  repeat' first
    | with_reducible assumption
    | exact within_of rfl hT
    | with_reducible apply hF
    | with_reducible apply hF4
    | with_reducible intro _
    | with_reducible apply bump_keeps
    | with_reducible apply storeP_keeps
    | with_reducible apply modEntry_keeps
    | (have x : True := trivial
       extract_lets +onlyGivenNames x
       first
       | ((first
           | (have z := x; guard_hyp z : State; clear z; refine keeps_via (x := x) ?_ (fun hx => ?_))
           | (have z := x.2; guard_hyp z : State; clear z; refine keeps_via (x := x.2) ?_ (fun hx => ?_))
           | (have z := x.2.2; guard_hyp z : State; clear z; refine keeps_via (x := x.2.2) ?_ (fun hx => ?_))
           | (have z := x.1; guard_hyp z : State; clear z; refine keeps_via (x := x.1) ?_ (fun hx => ?_))
           | (have z := x; guard_hyp z : State → State; clear z; refine keeps_viaF0 (f := x) ?_ (fun hF => ?_))
           | refine keeps_viaF (f := x) ?_ (fun hF => ?_)
           | refine keeps_viaF2 (f := x) ?_ (fun hF => ?_)
           | refine keeps_viaG (f := x) ?_ (fun hF => ?_)
           | refine keeps_viaH (f := x) ?_ (fun hF => ?_)
           | refine keeps_viaP (f := x) ?_ (fun hF => ?_)
           | refine keeps_viaF4 (f := x) ?_ (fun hF4 => ?_))
          rotate_left
          try clear_value x
          rotate_right
          dsimp -zeta only [x])
       | (fail_if_success (have z := x; guard_hyp z : True)
          try clear_value x))
    | ((with_reducible refine keeps_mk rfl ?_); first | with_reducible assumption | exact within_of rfl hT | (with_reducible apply bump_keeps) | (with_reducible apply storeP_keeps) | (with_reducible apply modEntry_keeps) | split | dsimp -zeta only)
    | with_reducible refine keeps_fst (by with_reducible assumption) ?_
    | with_reducible refine keeps_snd (by with_reducible assumption) ?_
    | with_reducible refine keeps_thd (by with_reducible assumption) ?_
    | split
    | dsimp -zeta only

theorem copyFrame_keeps {p c pma fill : Nat} (hK : Keeps kc kn F old s) (hT : Within 10819329966 F := by exact within_of rfl (by assumption)) :
    Keeps kc kn F old (State.copyFrame s p c pma fill) := by
  unfold State.copyFrame
  repeat' first
    | with_reducible assumption
    | exact within_of rfl hT
    | with_reducible intro _
    | with_reducible apply fetchP_keeps
    | with_reducible apply storeMpa_keeps
    | with_reducible apply modPage_keeps
    | with_reducible apply modChain_keeps
    | with_reducible apply corruptChain_keeps
    | with_reducible apply linkPage_keeps
    | with_reducible apply newPage_keeps
    | with_reducible apply frame_keeps
    | with_reducible apply takePage_keeps (by with_reducible assumption)
    | (have x : True := trivial
       extract_lets +onlyGivenNames x
       first
       | ((first
           | (have z := x; guard_hyp z : State; clear z; refine keeps_via (x := x) ?_ (fun hx => ?_))
           | (have z := x.2; guard_hyp z : State; clear z; refine keeps_via (x := x.2) ?_ (fun hx => ?_))
           | (have z := x.2.2; guard_hyp z : State; clear z; refine keeps_via (x := x.2.2) ?_ (fun hx => ?_))
           | (have z := x.1; guard_hyp z : State; clear z; refine keeps_via (x := x.1) ?_ (fun hx => ?_)))
          rotate_left
          try clear_value x
          rotate_right
          dsimp -zeta only [x])
       | (fail_if_success (have z := x; guard_hyp z : True)
          try clear_value x))
    | ((with_reducible refine keeps_mk rfl ?_); first | with_reducible assumption | exact within_of rfl hT | (with_reducible apply fetchP_keeps) | (with_reducible apply storeMpa_keeps) | (with_reducible apply modPage_keeps) | (with_reducible apply modChain_keeps) | (with_reducible apply corruptChain_keeps) | (with_reducible apply linkPage_keeps) | (with_reducible apply newPage_keeps) | (with_reducible apply frame_keeps) | (with_reducible apply takePage_keeps (by with_reducible assumption)) | split | dsimp -zeta only)
    | with_reducible refine keeps_fst (by with_reducible assumption) ?_
    | with_reducible refine keeps_snd (by with_reducible assumption) ?_
    | with_reducible refine keeps_thd (by with_reducible assumption) ?_
    | split
    | dsimp -zeta only

theorem commitPrefill_keeps {p : Nat} {ctx : CommitCtx} (hK : Keeps kc kn F old s) (hT : Within 10819329966 F := by exact within_of rfl (by assumption)) :
    Keeps kc kn F old (State.commitPrefill s p ctx) := by
  unfold State.commitPrefill
  repeat' first
    | with_reducible assumption
    | exact within_of rfl hT
    | with_reducible intro _
    | with_reducible apply modSeq_keeps
    | with_reducible apply decode_keeps
    | with_reducible apply chunk_keeps
    | with_reducible apply copyFrame_keeps
    | with_reducible apply foldS_keeps
    | (have x : True := trivial
       extract_lets +onlyGivenNames x
       first
       | ((first
           | (have z := x; guard_hyp z : State; clear z; refine keeps_via (x := x) ?_ (fun hx => ?_))
           | (have z := x.2; guard_hyp z : State; clear z; refine keeps_via (x := x.2) ?_ (fun hx => ?_))
           | (have z := x.2.2; guard_hyp z : State; clear z; refine keeps_via (x := x.2.2) ?_ (fun hx => ?_))
           | (have z := x.1; guard_hyp z : State; clear z; refine keeps_via (x := x.1) ?_ (fun hx => ?_)))
          rotate_left
          try clear_value x
          rotate_right
          dsimp -zeta only [x])
       | (fail_if_success (have z := x; guard_hyp z : True)
          try clear_value x))
    | ((with_reducible refine keeps_mk rfl ?_); first | with_reducible assumption | exact within_of rfl hT | (with_reducible apply modSeq_keeps) | (with_reducible apply decode_keeps) | (with_reducible apply chunk_keeps) | (with_reducible apply copyFrame_keeps) | with_reducible apply foldS_keeps | split | dsimp -zeta only)
    | with_reducible refine keeps_fst (by with_reducible assumption) ?_
    | with_reducible refine keeps_snd (by with_reducible assumption) ?_
    | with_reducible refine keeps_thd (by with_reducible assumption) ?_
    | split
    | dsimp -zeta only

theorem unstage_keeps {p q total n : Nat} (hK : Keeps kc kn F old s) (hT : Within 4194304 F := by exact within_of rfl (by assumption)) :
    Keeps kc kn F old (State.unstage s p q total n) := by
  unfold State.unstage
  repeat' first
    | with_reducible assumption
    | exact within_of rfl hT
    | with_reducible intro _
    | with_reducible apply modEntry_keeps
    | (have x : True := trivial
       extract_lets +onlyGivenNames x
       first
       | ((first
           | (have z := x; guard_hyp z : State; clear z; refine keeps_via (x := x) ?_ (fun hx => ?_))
           | (have z := x.2; guard_hyp z : State; clear z; refine keeps_via (x := x.2) ?_ (fun hx => ?_))
           | (have z := x.2.2; guard_hyp z : State; clear z; refine keeps_via (x := x.2.2) ?_ (fun hx => ?_))
           | (have z := x.1; guard_hyp z : State; clear z; refine keeps_via (x := x.1) ?_ (fun hx => ?_)))
          rotate_left
          try clear_value x
          rotate_right
          dsimp -zeta only [x])
       | (fail_if_success (have z := x; guard_hyp z : True)
          try clear_value x))
    | ((with_reducible refine keeps_mk rfl ?_); first | with_reducible assumption | exact within_of rfl hT | (with_reducible apply modEntry_keeps) | split | dsimp -zeta only)
    | dsimp -zeta only

theorem retireFor_keeps {p q why len : Nat} (hK : Keeps kc kn F old s) (hT : Within 11893071790 F := by exact within_of rfl (by assumption)) :
    Keeps kc kn F old (State.retireFor s p q why len) := by
  unfold State.retireFor
  repeat' first
    | with_reducible assumption
    | exact within_of rfl hT
    | with_reducible intro _
    | with_reducible apply takeFree_keeps
    | with_reducible apply retire_keeps
    | (have x : True := trivial
       extract_lets +onlyGivenNames x
       first
       | ((first
           | (have z := x; guard_hyp z : State; clear z; refine keeps_via (x := x) ?_ (fun hx => ?_))
           | (have z := x.2; guard_hyp z : State; clear z; refine keeps_via (x := x.2) ?_ (fun hx => ?_))
           | (have z := x.2.2; guard_hyp z : State; clear z; refine keeps_via (x := x.2.2) ?_ (fun hx => ?_))
           | (have z := x.1; guard_hyp z : State; clear z; refine keeps_via (x := x.1) ?_ (fun hx => ?_)))
          rotate_left
          try clear_value x
          rotate_right
          dsimp -zeta only [x])
       | (fail_if_success (have z := x; guard_hyp z : True)
          try clear_value x))
    | ((with_reducible refine keeps_mk rfl ?_); first | with_reducible assumption | exact within_of rfl hT | (with_reducible apply takeFree_keeps) | (with_reducible apply retire_keeps) | split | dsimp -zeta only)
    | with_reducible refine keeps_fst (by with_reducible assumption) ?_
    | with_reducible refine keeps_snd (by with_reducible assumption) ?_
    | with_reducible refine keeps_thd (by with_reducible assumption) ?_
    | split
    | dsimp -zeta only

theorem commitEntry_keeps {p : Nat} {ctx : CommitCtx} {e : BatchEntry} (hK : Keeps kc kn F old s) (hT : Within 11893071790 F := by exact within_of rfl (by assumption)) :
    Keeps kc kn F old (State.commitEntry s p ctx e) := by
  unfold State.commitEntry
  repeat' first
    | with_reducible assumption
    | exact within_of rfl hT
    | with_reducible intro _
    | with_reducible apply modSeq_keeps
    | with_reducible apply writeReel_keeps
    | with_reducible apply retire_keeps
    | with_reducible apply chunk_keeps
    | with_reducible apply unstage_keeps
    | with_reducible apply retireFor_keeps
    | with_reducible apply foldS_keeps
    | (have x : True := trivial
       extract_lets +onlyGivenNames x
       first
       | ((first
           | (have z := x; guard_hyp z : State; clear z; refine keeps_via (x := x) ?_ (fun hx => ?_))
           | (have z := x.2; guard_hyp z : State; clear z; refine keeps_via (x := x.2) ?_ (fun hx => ?_))
           | (have z := x.2.2; guard_hyp z : State; clear z; refine keeps_via (x := x.2.2) ?_ (fun hx => ?_))
           | (have z := x.1; guard_hyp z : State; clear z; refine keeps_via (x := x.1) ?_ (fun hx => ?_)))
          rotate_left
          try clear_value x
          rotate_right
          dsimp -zeta only [x])
       | (fail_if_success (have z := x; guard_hyp z : True)
          try clear_value x))
    | ((with_reducible refine keeps_mk rfl ?_); first | with_reducible assumption | exact within_of rfl hT | (with_reducible apply modSeq_keeps) | (with_reducible apply writeReel_keeps) | (with_reducible apply retire_keeps) | (with_reducible apply chunk_keeps) | (with_reducible apply unstage_keeps) | (with_reducible apply retireFor_keeps) | with_reducible apply foldS_keeps | split | dsimp -zeta only)
    | with_reducible refine keeps_fst (by with_reducible assumption) ?_
    | with_reducible refine keeps_snd (by with_reducible assumption) ?_
    | with_reducible refine keeps_thd (by with_reducible assumption) ?_
    | split
    | dsimp -zeta only

theorem commitReels_keeps {p : Nat} {ctx : CommitCtx} (hK : Keeps kc kn F old s) (hT : Within 11893071790 F := by exact within_of rfl (by assumption)) :
    Keeps kc kn F old (State.commitReels s p ctx) := by
  unfold State.commitReels
  repeat' first
    | with_reducible assumption
    | exact within_of rfl hT
    | with_reducible intro _
    | with_reducible apply modJournal_keeps
    | with_reducible apply modSeqs_keeps
    | with_reducible apply decode_keeps
    | with_reducible apply retireFor_keeps
    | with_reducible apply commitEntry_keeps
    | with_reducible apply foldS_keeps
    | (have x : True := trivial
       extract_lets +onlyGivenNames x
       first
       | ((first
           | (have z := x; guard_hyp z : State; clear z; refine keeps_via (x := x) ?_ (fun hx => ?_))
           | (have z := x.2; guard_hyp z : State; clear z; refine keeps_via (x := x.2) ?_ (fun hx => ?_))
           | (have z := x.2.2; guard_hyp z : State; clear z; refine keeps_via (x := x.2.2) ?_ (fun hx => ?_))
           | (have z := x.1; guard_hyp z : State; clear z; refine keeps_via (x := x.1) ?_ (fun hx => ?_)))
          rotate_left
          try clear_value x
          rotate_right
          dsimp -zeta only [x])
       | (fail_if_success (have z := x; guard_hyp z : True)
          try clear_value x))
    | ((with_reducible refine keeps_mk rfl ?_); first | with_reducible assumption | exact within_of rfl hT | (with_reducible apply modJournal_keeps) | (with_reducible apply modSeqs_keeps) | (with_reducible apply decode_keeps) | (with_reducible apply retireFor_keeps) | (with_reducible apply commitEntry_keeps) | with_reducible apply foldS_keeps | split | dsimp -zeta only)
    | split
    | dsimp -zeta only

theorem preempt_keeps {p q : Nat} (hK : Keeps kc kn F old s) (hT : Within 6291456 F := by exact within_of rfl (by assumption)) :
    Keeps kc kn F old (State.preempt s p q) := by
  unfold State.preempt
  repeat' first
    | with_reducible assumption
    | exact within_of rfl hT
    | with_reducible intro _
    | with_reducible apply modSeq_keeps
    | with_reducible apply setTtl_keeps
    | with_reducible apply setChains_keeps
    | (have x : True := trivial
       extract_lets +onlyGivenNames x
       first
       | ((first
           | (have z := x; guard_hyp z : State; clear z; refine keeps_via (x := x) ?_ (fun hx => ?_))
           | (have z := x.2; guard_hyp z : State; clear z; refine keeps_via (x := x.2) ?_ (fun hx => ?_))
           | (have z := x.2.2; guard_hyp z : State; clear z; refine keeps_via (x := x.2.2) ?_ (fun hx => ?_))
           | (have z := x.1; guard_hyp z : State; clear z; refine keeps_via (x := x.1) ?_ (fun hx => ?_)))
          rotate_left
          try clear_value x
          rotate_right
          dsimp -zeta only [x])
       | (fail_if_success (have z := x; guard_hyp z : True)
          try clear_value x))
    | ((with_reducible refine keeps_mk rfl ?_); first | with_reducible assumption | exact within_of rfl hT | (with_reducible apply modSeq_keeps) | (with_reducible apply setTtl_keeps) | (with_reducible apply setChains_keeps) | split | dsimp -zeta only)
    | dsimp -zeta only

theorem latePauses_keeps {p : Nat} (hK : Keeps kc kn F old s) (hT : Within 6291456 F := by exact within_of rfl (by assumption)) :
    Keeps kc kn F old (State.latePauses s p) := by
  unfold State.latePauses
  repeat' first
    | with_reducible assumption
    | exact within_of rfl hT
    | with_reducible intro _
    | with_reducible apply modSeq_keeps
    | with_reducible apply pause_keeps
    | with_reducible apply decode_keeps
    | with_reducible apply preempt_keeps
    | with_reducible apply foldS_keeps
    | ((with_reducible refine keeps_mk rfl ?_); first | with_reducible assumption | exact within_of rfl hT | (with_reducible apply modSeq_keeps) | (with_reducible apply pause_keeps) | (with_reducible apply decode_keeps) | (with_reducible apply preempt_keeps) | with_reducible apply foldS_keeps | split | dsimp only)
    | split
    | dsimp only

theorem commitBudgets_keeps {p : Nat} {ctx : CommitCtx} (hK : Keeps kc kn F old s) (hT : Within 4194304 F := by exact within_of rfl (by assumption)) :
    Keeps kc kn F old (State.commitBudgets s p ctx) := by
  unfold State.commitBudgets
  repeat' first
    | with_reducible assumption
    | exact within_of rfl hT
    | with_reducible intro _
    | with_reducible apply modAccount_keeps
    | with_reducible apply chunk_keeps
    | with_reducible apply foldS_keeps
    | (have x : True := trivial
       extract_lets +onlyGivenNames x
       first
       | ((first
           | (have z := x; guard_hyp z : State; clear z; refine keeps_via (x := x) ?_ (fun hx => ?_))
           | (have z := x.2; guard_hyp z : State; clear z; refine keeps_via (x := x.2) ?_ (fun hx => ?_))
           | (have z := x.2.2; guard_hyp z : State; clear z; refine keeps_via (x := x.2.2) ?_ (fun hx => ?_))
           | (have z := x.1; guard_hyp z : State; clear z; refine keeps_via (x := x.1) ?_ (fun hx => ?_)))
          rotate_left
          try clear_value x
          rotate_right
          dsimp -zeta only [x])
       | (fail_if_success (have z := x; guard_hyp z : True)
          try clear_value x))
    | ((with_reducible refine keeps_mk rfl ?_); first | with_reducible assumption | exact within_of rfl hT | (with_reducible apply modAccount_keeps) | (with_reducible apply chunk_keeps) | with_reducible apply foldS_keeps | split | dsimp -zeta only)
    | with_reducible refine keeps_fst (by with_reducible assumption) ?_
    | with_reducible refine keeps_snd (by with_reducible assumption) ?_
    | with_reducible refine keeps_thd (by with_reducible assumption) ?_
    | split
    | dsimp -zeta only

theorem endBatch_keeps {p : Nat} (hK : Keeps kc kn F old s) (hT : Within 4194304 F := by exact within_of rfl (by assumption)) :
    Keeps kc kn F old (State.endBatch s p) := by
  unfold State.endBatch
  repeat' first | with_reducible assumption | exact within_of rfl hT | ((with_reducible refine keeps_mk rfl ?_); first | with_reducible assumption | exact within_of rfl hT | split | dsimp only) | dsimp only

theorem discardStage_keeps {p : Nat} (hK : Keeps kc kn F old s) (hT : Within 4194304 F := by exact within_of rfl (by assumption)) :
    Keeps kc kn F old (State.discardStage s p) := by
  unfold State.discardStage
  repeat' first
    | with_reducible assumption
    | exact within_of rfl hT
    | with_reducible intro _
    | with_reducible apply unstage_keeps
    | with_reducible apply foldS_keeps
    | dsimp only

theorem returnBatch_keeps {p : Nat} (hK : Keeps kc kn F old s) (hT : Within 6291456 F := by exact within_of rfl (by assumption)) :
    Keeps kc kn F old (State.returnBatch s p) := by
  unfold State.returnBatch
  repeat' first
    | with_reducible assumption
    | exact within_of rfl hT
    | with_reducible intro _
    | with_reducible apply modAccount_keeps
    | with_reducible apply latePauses_keeps
    | with_reducible apply endBatch_keeps
    | with_reducible apply discardStage_keeps
    | with_reducible apply foldS_keeps
    | (have x : True := trivial
       extract_lets +onlyGivenNames x
       first
       | ((first
           | (have z := x; guard_hyp z : State; clear z; refine keeps_via (x := x) ?_ (fun hx => ?_))
           | (have z := x.2; guard_hyp z : State; clear z; refine keeps_via (x := x.2) ?_ (fun hx => ?_))
           | (have z := x.2.2; guard_hyp z : State; clear z; refine keeps_via (x := x.2.2) ?_ (fun hx => ?_))
           | (have z := x.1; guard_hyp z : State; clear z; refine keeps_via (x := x.1) ?_ (fun hx => ?_)))
          rotate_left
          try clear_value x
          rotate_right
          dsimp -zeta only [x])
       | (fail_if_success (have z := x; guard_hyp z : True)
          try clear_value x))
    | ((with_reducible refine keeps_mk rfl ?_); first | with_reducible assumption | exact within_of rfl hT | (with_reducible apply modAccount_keeps) | (with_reducible apply latePauses_keeps) | (with_reducible apply endBatch_keeps) | (with_reducible apply discardStage_keeps) | with_reducible apply foldS_keeps | split | dsimp -zeta only)
    | with_reducible refine keeps_fst (by with_reducible assumption) ?_
    | with_reducible refine keeps_snd (by with_reducible assumption) ?_
    | with_reducible refine keeps_thd (by with_reducible assumption) ?_
    | split
    | dsimp -zeta only

theorem faultBatch_keeps {p status num : Nat} {es : List BatchEntry} (hK : Keeps kc kn F old s) (hT : Within 11893071790 F := by exact within_of rfl (by assumption)) :
    Keeps kc kn F old (State.faultBatch s p status num es) := by
  unfold State.faultBatch
  repeat' first
    | with_reducible assumption
    | exact within_of rfl hT
    | with_reducible intro _
    | with_reducible apply retire_keeps
    | with_reducible apply foldS_keeps
    | dsimp only

theorem manage_keeps {p : Nat} (hK : Keeps kc kn F old s) (hT : Within 11893071790 F := by exact within_of rfl (by assumption)) :
    Keeps kc kn F old (State.manage s p) := by
  unfold State.manage
  repeat' first
    | with_reducible assumption
    | exact within_of rfl hT
    | with_reducible intro _
    | with_reducible apply modSeq_keeps
    | with_reducible apply startMove_keeps
    | with_reducible apply retire_keeps
    | with_reducible apply decode_keeps
    | with_reducible apply preempt_keeps
    | (have x : True := trivial
       extract_lets +onlyGivenNames x
       first
       | ((first
           | (have z := x; guard_hyp z : State; clear z; refine keeps_via (x := x) ?_ (fun hx => ?_))
           | (have z := x.2; guard_hyp z : State; clear z; refine keeps_via (x := x.2) ?_ (fun hx => ?_))
           | (have z := x.2.2; guard_hyp z : State; clear z; refine keeps_via (x := x.2.2) ?_ (fun hx => ?_))
           | (have z := x.1; guard_hyp z : State; clear z; refine keeps_via (x := x.1) ?_ (fun hx => ?_)))
          rotate_left
          try clear_value x
          rotate_right
          dsimp -zeta only [x])
       | (fail_if_success (have z := x; guard_hyp z : True)
          try clear_value x))
    | ((with_reducible refine keeps_mk rfl ?_); first | with_reducible assumption | exact within_of rfl hT | (with_reducible apply modSeq_keeps) | (with_reducible apply startMove_keeps) | (with_reducible apply retire_keeps) | (with_reducible apply decode_keeps) | (with_reducible apply preempt_keeps) | split | dsimp -zeta only)
    | with_reducible refine keeps_fst (by with_reducible assumption) ?_
    | with_reducible refine keeps_snd (by with_reducible assumption) ?_
    | with_reducible refine keeps_thd (by with_reducible assumption) ?_
    | split
    | dsimp -zeta only

theorem execRefillTick_keeps {t : Nat} (hK : Keeps kc kn F old s) (hT : Within 4194305 F := by exact within_of rfl (by assumption)) :
    NextKeeps kc kn F old (execRefillTick t s) := by
  unfold execRefillTick
  repeat' first
    | with_reducible assumption
    | with_reducible apply next_keeps
    | with_reducible exact fault_keeps
    | exact within_of rfl hT
    | with_reducible apply tick_keeps
    | with_reducible apply refill_keeps
    | dsimp only

theorem execBudgetSet_keeps {h : CmdHdr} {b : BudgetSet} (hK : Keeps kc kn F old s) (hT : Within 10850781103 F := by exact within_of rfl (by assumption)) :
    NextKeeps kc kn F old (execBudgetSet h b s) := by
  unfold execBudgetSet
  repeat' first
    | with_reducible assumption
    | with_reducible apply next_keeps
    | with_reducible exact fault_keeps
    | exact within_of rfl hT
    | with_reducible intro _
    | with_reducible apply setPart_keeps
    | with_reducible apply command_keeps
    | with_reducible apply ans_keeps
    | with_reducible apply modAccount_keeps
    | ((with_reducible refine keeps_mk rfl ?_); first | with_reducible assumption | exact within_of rfl hT | (with_reducible apply setPart_keeps) | (with_reducible apply command_keeps) | (with_reducible apply ans_keeps) | (with_reducible apply modAccount_keeps) | split | dsimp only)
    | split
    | dsimp only

theorem execBudgetAdjust_keeps {h : CmdHdr} {account : Nat} {remove : Bool} {n : Nat} (hK : Keeps kc kn F old s) (hT : Within 10850781103 F := by exact within_of rfl (by assumption)) :
    NextKeeps kc kn F old (execBudgetAdjust h account remove n s) := by
  unfold execBudgetAdjust
  repeat' first
    | with_reducible assumption
    | with_reducible apply next_keeps
    | with_reducible exact fault_keeps
    | exact within_of rfl hT
    | with_reducible intro _
    | with_reducible apply command_keeps
    | with_reducible apply ans_keeps
    | with_reducible apply modAccount_keeps
    | (have x : True := trivial
       extract_lets +onlyGivenNames x
       first
       | ((first
           | (have z := x; guard_hyp z : State; clear z; refine keeps_via (x := x) ?_ (fun hx => ?_))
           | (have z := x; guard_hyp z : State; clear z; refine next_via (x := x) ?_ (fun hx => ?_))
           | (have z := x.2; guard_hyp z : State; clear z; refine keeps_via (x := x.2) ?_ (fun hx => ?_))
           | (have z := x.2; guard_hyp z : State; clear z; refine next_via (x := x.2) ?_ (fun hx => ?_))
           | (have z := x.2.2; guard_hyp z : State; clear z; refine keeps_via (x := x.2.2) ?_ (fun hx => ?_))
           | (have z := x.2.2; guard_hyp z : State; clear z; refine next_via (x := x.2.2) ?_ (fun hx => ?_))
           | (have z := x.1; guard_hyp z : State; clear z; refine keeps_via (x := x.1) ?_ (fun hx => ?_))
           | (have z := x.1; guard_hyp z : State; clear z; refine next_via (x := x.1) ?_ (fun hx => ?_)))
          rotate_left
          try clear_value x
          rotate_right
          dsimp -zeta only [x])
       | (fail_if_success (have z := x; guard_hyp z : True)
          try clear_value x))
    | ((with_reducible refine keeps_mk rfl ?_); first | with_reducible assumption | exact within_of rfl hT | (with_reducible apply command_keeps) | (with_reducible apply ans_keeps) | (with_reducible apply modAccount_keeps) | split | dsimp -zeta only)
    | split
    | dsimp -zeta only

theorem execBudgetRead_keeps {h : CmdHdr} {account : Nat} (hK : Keeps kc kn F old s) (hT : Within 10846586799 F := by exact within_of rfl (by assumption)) :
    NextKeeps kc kn F old (execBudgetRead h account s) := by
  unfold execBudgetRead
  repeat' first
    | with_reducible assumption
    | with_reducible apply next_keeps
    | with_reducible exact fault_keeps
    | exact within_of rfl hT
    | with_reducible intro _
    | with_reducible apply command_keeps
    | with_reducible apply ans_keeps
    | (have x : True := trivial
       extract_lets +onlyGivenNames x
       first
       | ((first
           | (have z := x; guard_hyp z : State; clear z; refine keeps_via (x := x) ?_ (fun hx => ?_))
           | (have z := x; guard_hyp z : State; clear z; refine next_via (x := x) ?_ (fun hx => ?_))
           | (have z := x.2; guard_hyp z : State; clear z; refine keeps_via (x := x.2) ?_ (fun hx => ?_))
           | (have z := x.2; guard_hyp z : State; clear z; refine next_via (x := x.2) ?_ (fun hx => ?_))
           | (have z := x.2.2; guard_hyp z : State; clear z; refine keeps_via (x := x.2.2) ?_ (fun hx => ?_))
           | (have z := x.2.2; guard_hyp z : State; clear z; refine next_via (x := x.2.2) ?_ (fun hx => ?_))
           | (have z := x.1; guard_hyp z : State; clear z; refine keeps_via (x := x.1) ?_ (fun hx => ?_))
           | (have z := x.1; guard_hyp z : State; clear z; refine next_via (x := x.1) ?_ (fun hx => ?_)))
          rotate_left
          try clear_value x
          rotate_right
          dsimp -zeta only [x])
       | (fail_if_success (have z := x; guard_hyp z : True)
          try clear_value x))
    | split
    | dsimp -zeta only

theorem execPrefixMake_keeps {h : CmdHdr} {index pages : Nat} (hK : Keeps kc kn F old s) (hT : Within 10852878255 F := by exact within_of rfl (by assumption)) :
    NextKeeps kc kn F old (execPrefixMake h index pages s) := by
  unfold execPrefixMake
  repeat' first
    | with_reducible assumption
    | with_reducible apply next_keeps
    | with_reducible exact fault_keeps
    | exact within_of rfl hT
    | with_reducible intro _
    | with_reducible apply command_keeps
    | with_reducible apply ans_keeps
    | with_reducible apply cancelMove_keeps
    | with_reducible apply addRef_keeps
    | with_reducible apply decode_keeps
    | with_reducible apply take_keeps
    | with_reducible apply foldS_keeps
    | (have x : True := trivial
       extract_lets +onlyGivenNames x
       first
       | ((first
           | (have z := x; guard_hyp z : State; clear z; refine keeps_via (x := x) ?_ (fun hx => ?_))
           | (have z := x; guard_hyp z : State; clear z; refine next_via (x := x) ?_ (fun hx => ?_))
           | (have z := x.2; guard_hyp z : State; clear z; refine keeps_via (x := x.2) ?_ (fun hx => ?_))
           | (have z := x.2; guard_hyp z : State; clear z; refine next_via (x := x.2) ?_ (fun hx => ?_))
           | (have z := x.2.2; guard_hyp z : State; clear z; refine keeps_via (x := x.2.2) ?_ (fun hx => ?_))
           | (have z := x.2.2; guard_hyp z : State; clear z; refine next_via (x := x.2.2) ?_ (fun hx => ?_))
           | (have z := x.1; guard_hyp z : State; clear z; refine keeps_via (x := x.1) ?_ (fun hx => ?_))
           | (have z := x.1; guard_hyp z : State; clear z; refine next_via (x := x.1) ?_ (fun hx => ?_)))
          rotate_left
          try clear_value x
          rotate_right
          dsimp -zeta only [x])
       | (fail_if_success (have z := x; guard_hyp z : True)
          try clear_value x))
    | ((with_reducible refine keeps_mk rfl ?_); first | with_reducible assumption | exact within_of rfl hT | (with_reducible apply command_keeps) | (with_reducible apply ans_keeps) | (with_reducible apply cancelMove_keeps) | (with_reducible apply addRef_keeps) | (with_reducible apply decode_keeps) | (with_reducible apply take_keeps) | with_reducible apply foldS_keeps | split | dsimp -zeta only)
    | with_reducible refine keeps_fst (by with_reducible assumption) ?_
    | with_reducible refine keeps_snd (by with_reducible assumption) ?_
    | with_reducible refine keeps_thd (by with_reducible assumption) ?_
    | split
    | dsimp -zeta only

theorem execPrefixDrop_keeps {h : CmdHdr} {handle : Word} (hK : Keeps kc kn F old s) (hT : Within 10852878255 F := by exact within_of rfl (by assumption)) :
    NextKeeps kc kn F old (execPrefixDrop h handle s) := by
  unfold execPrefixDrop
  repeat' first
    | with_reducible assumption
    | with_reducible apply next_keeps
    | with_reducible exact fault_keeps
    | exact within_of rfl hT
    | with_reducible intro _
    | with_reducible apply command_keeps
    | with_reducible apply ans_keeps
    | with_reducible apply dropRef_keeps
    | with_reducible apply foldS_keeps
    | (have x : True := trivial
       extract_lets +onlyGivenNames x
       first
       | ((first
           | (have z := x; guard_hyp z : State; clear z; refine keeps_via (x := x) ?_ (fun hx => ?_))
           | (have z := x; guard_hyp z : State; clear z; refine next_via (x := x) ?_ (fun hx => ?_))
           | (have z := x.2; guard_hyp z : State; clear z; refine keeps_via (x := x.2) ?_ (fun hx => ?_))
           | (have z := x.2; guard_hyp z : State; clear z; refine next_via (x := x.2) ?_ (fun hx => ?_))
           | (have z := x.2.2; guard_hyp z : State; clear z; refine keeps_via (x := x.2.2) ?_ (fun hx => ?_))
           | (have z := x.2.2; guard_hyp z : State; clear z; refine next_via (x := x.2.2) ?_ (fun hx => ?_))
           | (have z := x.1; guard_hyp z : State; clear z; refine keeps_via (x := x.1) ?_ (fun hx => ?_))
           | (have z := x.1; guard_hyp z : State; clear z; refine next_via (x := x.1) ?_ (fun hx => ?_)))
          rotate_left
          try clear_value x
          rotate_right
          dsimp -zeta only [x])
       | (fail_if_success (have z := x; guard_hyp z : True)
          try clear_value x))
    | ((with_reducible refine keeps_mk rfl ?_); first | with_reducible assumption | exact within_of rfl hT | (with_reducible apply command_keeps) | (with_reducible apply ans_keeps) | (with_reducible apply dropRef_keeps) | with_reducible apply foldS_keeps | split | dsimp -zeta only)
    | with_reducible refine keeps_fst (by with_reducible assumption) ?_
    | with_reducible refine keeps_snd (by with_reducible assumption) ?_
    | with_reducible refine keeps_thd (by with_reducible assumption) ?_
    | split
    | dsimp -zeta only

theorem execServeSubmit_keeps {h : CmdHdr} {desc : List Byte} (hK : Keeps kc kn F old s) (hT : Within 10852878255 F := by exact within_of rfl (by assumption)) :
    NextKeeps kc kn F old (execServeSubmit h desc s) := by
  unfold execServeSubmit
  repeat' first
    | with_reducible assumption
    | with_reducible apply next_keeps
    | with_reducible exact fault_keeps
    | exact within_of rfl hT
    | with_reducible intro _
    | with_reducible apply command_keeps
    | with_reducible apply submit_keeps
    | dsimp only

theorem execServeCancel_keeps {h : CmdHdr} {index : Nat} (hK : Keeps kc kn F old s) (hT : Within 10852878255 F := by exact within_of rfl (by assumption)) :
    NextKeeps kc kn F old (execServeCancel h index s) := by
  unfold execServeCancel
  repeat' first
    | with_reducible assumption
    | with_reducible apply next_keeps
    | with_reducible exact fault_keeps
    | exact within_of rfl hT
    | with_reducible intro _
    | with_reducible apply command_keeps
    | with_reducible apply ans_keeps
    | with_reducible apply modSeq_keeps
    | with_reducible apply closeChain_keeps
    | with_reducible apply tidySeq_keeps
    | with_reducible apply endShip_keeps
    | with_reducible apply onSeq_keeps
    | with_reducible apply foldS_keeps
    | (have x : True := trivial
       extract_lets +onlyGivenNames x
       first
       | ((first
           | (have z := x; guard_hyp z : State; clear z; refine keeps_via (x := x) ?_ (fun hx => ?_))
           | (have z := x; guard_hyp z : State; clear z; refine next_via (x := x) ?_ (fun hx => ?_))
           | (have z := x.2; guard_hyp z : State; clear z; refine keeps_via (x := x.2) ?_ (fun hx => ?_))
           | (have z := x.2; guard_hyp z : State; clear z; refine next_via (x := x.2) ?_ (fun hx => ?_))
           | (have z := x.2.2; guard_hyp z : State; clear z; refine keeps_via (x := x.2.2) ?_ (fun hx => ?_))
           | (have z := x.2.2; guard_hyp z : State; clear z; refine next_via (x := x.2.2) ?_ (fun hx => ?_))
           | (have z := x.1; guard_hyp z : State; clear z; refine keeps_via (x := x.1) ?_ (fun hx => ?_))
           | (have z := x.1; guard_hyp z : State; clear z; refine next_via (x := x.1) ?_ (fun hx => ?_)))
          rotate_left
          try clear_value x
          rotate_right
          dsimp -zeta only [x])
       | (fail_if_success (have z := x; guard_hyp z : True)
          try clear_value x))
    | ((with_reducible refine keeps_mk rfl ?_); first | with_reducible assumption | exact within_of rfl hT | (with_reducible apply command_keeps) | (with_reducible apply ans_keeps) | (with_reducible apply modSeq_keeps) | (with_reducible apply closeChain_keeps) | (with_reducible apply tidySeq_keeps) | (with_reducible apply endShip_keeps) | (with_reducible apply onSeq_keeps) | with_reducible apply foldS_keeps | split | dsimp -zeta only)
    | split
    | dsimp -zeta only

theorem execServePause_keeps {h : CmdHdr} {index : Nat} (hK : Keeps kc kn F old s) (hT : Within 10852878255 F := by exact within_of rfl (by assumption)) :
    NextKeeps kc kn F old (execServePause h index s) := by
  unfold execServePause
  repeat' first
    | with_reducible assumption
    | with_reducible apply next_keeps
    | with_reducible exact fault_keeps
    | exact within_of rfl hT
    | with_reducible intro _
    | with_reducible apply command_keeps
    | with_reducible apply ans_keeps
    | with_reducible apply modSeq_keeps
    | with_reducible apply pause_keeps
    | with_reducible apply onSeq_keeps
    | with_reducible apply decode_keeps
    | (have x : True := trivial
       extract_lets +onlyGivenNames x
       first
       | ((first
           | (have z := x; guard_hyp z : State; clear z; refine keeps_via (x := x) ?_ (fun hx => ?_))
           | (have z := x; guard_hyp z : State; clear z; refine next_via (x := x) ?_ (fun hx => ?_))
           | (have z := x.2; guard_hyp z : State; clear z; refine keeps_via (x := x.2) ?_ (fun hx => ?_))
           | (have z := x.2; guard_hyp z : State; clear z; refine next_via (x := x.2) ?_ (fun hx => ?_))
           | (have z := x.2.2; guard_hyp z : State; clear z; refine keeps_via (x := x.2.2) ?_ (fun hx => ?_))
           | (have z := x.2.2; guard_hyp z : State; clear z; refine next_via (x := x.2.2) ?_ (fun hx => ?_))
           | (have z := x.1; guard_hyp z : State; clear z; refine keeps_via (x := x.1) ?_ (fun hx => ?_))
           | (have z := x.1; guard_hyp z : State; clear z; refine next_via (x := x.1) ?_ (fun hx => ?_)))
          rotate_left
          try clear_value x
          rotate_right
          dsimp -zeta only [x])
       | (fail_if_success (have z := x; guard_hyp z : True)
          try clear_value x))
    | ((with_reducible refine keeps_mk rfl ?_); first | with_reducible assumption | exact within_of rfl hT | (with_reducible apply command_keeps) | (with_reducible apply ans_keeps) | (with_reducible apply modSeq_keeps) | (with_reducible apply pause_keeps) | (with_reducible apply onSeq_keeps) | (with_reducible apply decode_keeps) | split | dsimp -zeta only)
    | split
    | dsimp -zeta only

theorem execServeResume_keeps {h : CmdHdr} {index : Nat} (hK : Keeps kc kn F old s) (hT : Within 10852878255 F := by exact within_of rfl (by assumption)) :
    NextKeeps kc kn F old (execServeResume h index s) := by
  unfold execServeResume
  repeat' first
    | with_reducible assumption
    | with_reducible apply next_keeps
    | with_reducible exact fault_keeps
    | exact within_of rfl hT
    | with_reducible intro _
    | with_reducible apply command_keeps
    | with_reducible apply ans_keeps
    | with_reducible apply modSeq_keeps
    | with_reducible apply setTtl_keeps
    | with_reducible apply finishResume_keeps
    | with_reducible apply onSeq_keeps
    | with_reducible apply promote_keeps
    | (have x : True := trivial
       extract_lets +onlyGivenNames x
       first
       | ((first
           | (have z := x; guard_hyp z : State; clear z; refine keeps_via (x := x) ?_ (fun hx => ?_))
           | (have z := x; guard_hyp z : State; clear z; refine next_via (x := x) ?_ (fun hx => ?_))
           | (have z := x.2; guard_hyp z : State; clear z; refine keeps_via (x := x.2) ?_ (fun hx => ?_))
           | (have z := x.2; guard_hyp z : State; clear z; refine next_via (x := x.2) ?_ (fun hx => ?_))
           | (have z := x.2.2; guard_hyp z : State; clear z; refine keeps_via (x := x.2.2) ?_ (fun hx => ?_))
           | (have z := x.2.2; guard_hyp z : State; clear z; refine next_via (x := x.2.2) ?_ (fun hx => ?_))
           | (have z := x.1; guard_hyp z : State; clear z; refine keeps_via (x := x.1) ?_ (fun hx => ?_))
           | (have z := x.1; guard_hyp z : State; clear z; refine next_via (x := x.1) ?_ (fun hx => ?_)))
          rotate_left
          try clear_value x
          rotate_right
          dsimp -zeta only [x])
       | (fail_if_success (have z := x; guard_hyp z : True)
          try clear_value x))
    | ((with_reducible refine keeps_mk rfl ?_); first | with_reducible assumption | exact within_of rfl hT | (with_reducible apply command_keeps) | (with_reducible apply ans_keeps) | (with_reducible apply modSeq_keeps) | (with_reducible apply setTtl_keeps) | (with_reducible apply finishResume_keeps) | (with_reducible apply onSeq_keeps) | (with_reducible apply promote_keeps) | split | dsimp -zeta only)
    | split
    | dsimp -zeta only

theorem execReelRead_keeps {h : CmdHdr} {index first maximum : Nat} (hK : Keeps kc kn F old s) (hT : Within 10846592943 F := by exact within_of rfl (by assumption)) :
    NextKeeps kc kn F old (execReelRead h index first maximum s) := by
  unfold execReelRead
  repeat' first
    | with_reducible assumption
    | with_reducible apply next_keeps
    | with_reducible exact fault_keeps
    | exact within_of rfl hT
    | with_reducible intro _
    | with_reducible apply command_keeps
    | with_reducible apply ans_keeps
    | with_reducible apply fetchP_keeps
    | with_reducible apply foldS_keeps
    | with_reducible apply foldS_inv (P := fun a : Nat × List Byte × State => Keeps kc kn F old a.2.2)
    | (have x : True := trivial
       extract_lets +onlyGivenNames x
       first
       | ((first
           | (have z := x; guard_hyp z : State; clear z; refine keeps_via (x := x) ?_ (fun hx => ?_))
           | (have z := x; guard_hyp z : State; clear z; refine next_via (x := x) ?_ (fun hx => ?_))
           | (have z := x.2; guard_hyp z : State; clear z; refine keeps_via (x := x.2) ?_ (fun hx => ?_))
           | (have z := x.2; guard_hyp z : State; clear z; refine next_via (x := x.2) ?_ (fun hx => ?_))
           | (have z := x.2.2; guard_hyp z : State; clear z; refine keeps_via (x := x.2.2) ?_ (fun hx => ?_))
           | (have z := x.2.2; guard_hyp z : State; clear z; refine next_via (x := x.2.2) ?_ (fun hx => ?_))
           | (have z := x.1; guard_hyp z : State; clear z; refine keeps_via (x := x.1) ?_ (fun hx => ?_))
           | (have z := x.1; guard_hyp z : State; clear z; refine next_via (x := x.1) ?_ (fun hx => ?_)))
          rotate_left
          try clear_value x
          rotate_right
          dsimp -zeta only [x])
       | (fail_if_success (have z := x; guard_hyp z : True)
          try clear_value x))
    | split
    | dsimp -zeta only

theorem execReelAck_keeps {h : CmdHdr} {index record : Nat} (hK : Keeps kc kn F old s) (hT : Within 10850781103 F := by exact within_of rfl (by assumption)) :
    NextKeeps kc kn F old (execReelAck h index record s) := by
  unfold execReelAck
  repeat' first
    | with_reducible assumption
    | with_reducible apply next_keeps
    | with_reducible exact fault_keeps
    | exact within_of rfl hT
    | with_reducible intro _
    | with_reducible apply command_keeps
    | with_reducible apply ans_keeps
    | with_reducible apply tidySeq_keeps
    | (have x : True := trivial
       extract_lets +onlyGivenNames x
       first
       | ((first
           | (have z := x; guard_hyp z : State; clear z; refine keeps_via (x := x) ?_ (fun hx => ?_))
           | (have z := x; guard_hyp z : State; clear z; refine next_via (x := x) ?_ (fun hx => ?_))
           | (have z := x.2; guard_hyp z : State; clear z; refine keeps_via (x := x.2) ?_ (fun hx => ?_))
           | (have z := x.2; guard_hyp z : State; clear z; refine next_via (x := x.2) ?_ (fun hx => ?_))
           | (have z := x.2.2; guard_hyp z : State; clear z; refine keeps_via (x := x.2.2) ?_ (fun hx => ?_))
           | (have z := x.2.2; guard_hyp z : State; clear z; refine next_via (x := x.2.2) ?_ (fun hx => ?_))
           | (have z := x.1; guard_hyp z : State; clear z; refine keeps_via (x := x.1) ?_ (fun hx => ?_))
           | (have z := x.1; guard_hyp z : State; clear z; refine next_via (x := x.1) ?_ (fun hx => ?_)))
          rotate_left
          try clear_value x
          rotate_right
          dsimp -zeta only [x])
       | (fail_if_success (have z := x; guard_hyp z : True)
          try clear_value x))
    | ((with_reducible refine keeps_mk rfl ?_); first | with_reducible assumption | exact within_of rfl hT | (with_reducible apply command_keeps) | (with_reducible apply ans_keeps) | (with_reducible apply tidySeq_keeps) | split | dsimp -zeta only)
    | split
    | dsimp -zeta only

theorem execStepBuild_keeps {p : Fin 16} {t : Nat} (hK : Keeps kc false F old s) (hT : Within 11893071791 F := by exact within_of rfl (by assumption)) :
    NextKeeps kc false F old (execStepBuild p t s) := by
  unfold execStepBuild
  repeat' first
    | with_reducible assumption
    | with_reducible apply next_keeps
    | with_reducible exact fault_keeps
    | exact within_of rfl hT
    | with_reducible apply tick_keeps
    | with_reducible apply plan_keeps
    | with_reducible apply startBatch_keeps
    | with_reducible apply throttle_keeps
    | with_reducible apply replayStep_keeps
    | (have x : True := trivial
       extract_lets +onlyGivenNames x
       first
       | ((first
           | (have z := x; guard_hyp z : State; clear z; refine keeps_via (x := x) ?_ (fun hx => ?_))
           | (have z := x; guard_hyp z : State; clear z; refine next_via (x := x) ?_ (fun hx => ?_))
           | (have z := x.2; guard_hyp z : State; clear z; refine keeps_via (x := x.2) ?_ (fun hx => ?_))
           | (have z := x.2; guard_hyp z : State; clear z; refine next_via (x := x.2) ?_ (fun hx => ?_))
           | (have z := x.2.2; guard_hyp z : State; clear z; refine keeps_via (x := x.2.2) ?_ (fun hx => ?_))
           | (have z := x.2.2; guard_hyp z : State; clear z; refine next_via (x := x.2.2) ?_ (fun hx => ?_))
           | (have z := x.1; guard_hyp z : State; clear z; refine keeps_via (x := x.1) ?_ (fun hx => ?_))
           | (have z := x.1; guard_hyp z : State; clear z; refine next_via (x := x.1) ?_ (fun hx => ?_)))
          rotate_left
          try clear_value x
          rotate_right
          dsimp -zeta only [x])
       | (fail_if_success (have z := x; guard_hyp z : True)
          try clear_value x))
    | split
    | exact fun h => absurd h Bool.false_ne_true
    | exact absurd ‹false = true› Bool.false_ne_true
    | dsimp -zeta only

theorem execReelStage_keeps {st : Fin 128} {u : Upset} (hK : Keeps kc kn F old s) (hT : Within 10817232878 F := by exact within_of rfl (by assumption)) :
    NextKeeps kc kn F old (execReelStage st u s) := by
  unfold execReelStage
  repeat' first
    | with_reducible assumption
    | with_reducible apply next_keeps
    | with_reducible exact fault_keeps
    | exact within_of rfl hT
    | with_reducible intro _
    | with_reducible apply runHitch_keeps
    | with_reducible apply stageBody_keeps
    | dsimp only

theorem execPageManager_keeps {p : Fin 16} {t : Nat} (hK : Keeps kc kn F old s) (hT : Within 11893071791 F := by exact within_of rfl (by assumption)) :
    NextKeeps kc kn F old (execPageManager p t s) := by
  unfold execPageManager
  repeat' first
    | with_reducible assumption
    | with_reducible apply next_keeps
    | with_reducible exact fault_keeps
    | exact within_of rfl hT
    | with_reducible apply tick_keeps
    | with_reducible apply manage_keeps
    | (have x : True := trivial
       extract_lets +onlyGivenNames x
       first
       | ((first
           | (have z := x; guard_hyp z : State; clear z; refine keeps_via (x := x) ?_ (fun hx => ?_))
           | (have z := x; guard_hyp z : State; clear z; refine next_via (x := x) ?_ (fun hx => ?_))
           | (have z := x.2; guard_hyp z : State; clear z; refine keeps_via (x := x.2) ?_ (fun hx => ?_))
           | (have z := x.2; guard_hyp z : State; clear z; refine next_via (x := x.2) ?_ (fun hx => ?_))
           | (have z := x.2.2; guard_hyp z : State; clear z; refine keeps_via (x := x.2.2) ?_ (fun hx => ?_))
           | (have z := x.2.2; guard_hyp z : State; clear z; refine next_via (x := x.2.2) ?_ (fun hx => ?_))
           | (have z := x.1; guard_hyp z : State; clear z; refine keeps_via (x := x.1) ?_ (fun hx => ?_))
           | (have z := x.1; guard_hyp z : State; clear z; refine next_via (x := x.1) ?_ (fun hx => ?_)))
          rotate_left
          try clear_value x
          rotate_right
          dsimp -zeta only [x])
       | (fail_if_success (have z := x; guard_hyp z : True)
          try clear_value x))
    | split
    | dsimp -zeta only

end Sys2Proof.Machine
end

