-- ==== Sys2Proof/Laws/KeepsChecks.lean ====
section
/-! SUPPORT. What the operations of Machine/Checks.lean keep: one lemma for each. -/

namespace Sys2Proof.Machine

set_option linter.all false
set_option Elab.async false

variable {kc kn : Bool} {F : Field → Bool} {old s : State}

theorem chkPartWrite_keeps {p v : Nat} (hK : Keeps kc kn F old s) (hT : Within 4 F := by exact within_of rfl (by assumption)) :
    Keeps kc kn F old (State.chkPartWrite s p v).2 := by
  unfold State.chkPartWrite
  repeat' first | with_reducible assumption | exact within_of rfl hT | with_reducible apply setReg_keeps | split | dsimp only

theorem qsetWrite_keeps {st v : Nat} (hK : Keeps kc kn F old s) (hT : Within 10737451300 F := by exact within_of rfl (by assumption)) :
    Keeps kc kn F old (State.qsetWrite s st v) := by
  unfold State.qsetWrite
  repeat' first | with_reducible assumption | exact within_of rfl hT | with_reducible apply quarantine_keeps | split | dsimp only

theorem qmaskWrite_keeps {st v : Nat} (hK : Keeps kc kn F old s) (hT : Within 36 F := by exact within_of rfl (by assumption)) :
    Keeps kc kn F old (State.qmaskWrite s st v) := by
  unfold State.qmaskWrite
  repeat' first
    | with_reducible assumption
    | exact within_of rfl hT
    | with_reducible intro _
    | with_reducible apply setReg_keeps
    | with_reducible apply modStrand_keeps
    | with_reducible apply freeAvail_keeps
    | (have x : True := trivial
       extract_lets +onlyGivenNames x
       first
       | ((first
           | (have z := x; guard_hyp z : State; clear z; refine keeps_via (x := x) ?_ (fun hx => ?_))
           | (have z := x.2; guard_hyp z : State; clear z; refine keeps_via (x := x.2) ?_ (fun hx => ?_))
           | (have z := x.2.2; guard_hyp z : State; clear z; refine keeps_via (x := x.2.2) ?_ (fun hx => ?_))
           | (have z := x.1; guard_hyp z : State; clear z; refine keeps_via (x := x.1) ?_ (fun hx => ?_)))
          rotate_left
          try clear_value x
          rotate_right
          dsimp -zeta only [x])
       | ((first
           | (have z := x; guard_hyp z : Security)
           | (have z := x; guard_hyp z : Lease))
          dsimp -zeta only [x])
       | (fail_if_success (have z := x; guard_hyp z : True)
          try clear_value x))
    | ((with_reducible refine keeps_mk rfl ?_); first | with_reducible assumption | exact within_of rfl hT | (with_reducible apply setReg_keeps) | (with_reducible apply modStrand_keeps) | (with_reducible apply freeAvail_keeps) | split | dsimp -zeta only)
    | split
    | dsimp -zeta only

theorem jrnlRdWrite_keeps {p v : Nat} (hK : Keeps kc kn F old s) (hT : Within 4 F := by exact within_of rfl (by assumption)) :
    Keeps kc kn F old (State.jrnlRdWrite s p v) := by
  unfold State.jrnlRdWrite
  repeat' first | with_reducible assumption | exact within_of rfl hT | with_reducible apply setReg_keeps | split | dsimp only

theorem replayWrite_keeps {p v : Nat} (hK : Keeps kc kn F old s) (hT : Within 4 F := by exact within_of rfl (by assumption)) :
    Keeps kc kn F old (State.replayWrite s p v) := by
  unfold State.replayWrite
  repeat' first
    | with_reducible assumption
    | exact within_of rfl hT
    | with_reducible apply setReg_keeps
    | (have x : True := trivial
       extract_lets +onlyGivenNames x
       first
       | ((first
           | (have z := x; guard_hyp z : State; clear z; refine keeps_via (x := x) ?_ (fun hx => ?_))
           | (have z := x.2; guard_hyp z : State; clear z; refine keeps_via (x := x.2) ?_ (fun hx => ?_))
           | (have z := x.2.2; guard_hyp z : State; clear z; refine keeps_via (x := x.2.2) ?_ (fun hx => ?_))
           | (have z := x.1; guard_hyp z : State; clear z; refine keeps_via (x := x.1) ?_ (fun hx => ?_)))
          rotate_left
          try clear_value x
          rotate_right
          dsimp -zeta only [x])
       | (fail_if_success (have z := x; guard_hyp z : True)
          try clear_value x))
    | split
    | dsimp -zeta only

theorem packSlot_keeps {slot : Nat} {v : Bool} (hK : Keeps kc kn F old s) (hT : Within 4 F := by exact within_of rfl (by assumption)) :
    Keeps kc kn F old (State.packSlot s slot v) := by
  unfold State.packSlot
  repeat' first
    | with_reducible assumption
    | exact within_of rfl hT
    | with_reducible apply setReg_keeps
    | (have x : True := trivial
       extract_lets +onlyGivenNames x
       first
       | ((first
           | (have z := x; guard_hyp z : State; clear z; refine keeps_via (x := x) ?_ (fun hx => ?_))
           | (have z := x.2; guard_hyp z : State; clear z; refine keeps_via (x := x.2) ?_ (fun hx => ?_))
           | (have z := x.2.2; guard_hyp z : State; clear z; refine keeps_via (x := x.2.2) ?_ (fun hx => ?_))
           | (have z := x.1; guard_hyp z : State; clear z; refine keeps_via (x := x.1) ?_ (fun hx => ?_)))
          rotate_left
          try clear_value x
          rotate_right
          dsimp -zeta only [x])
       | (fail_if_success (have z := x; guard_hyp z : True)
          try clear_value x))
    | split
    | dsimp -zeta only

theorem emptyPack_keeps {slot : Nat} (hK : Keeps kc kn F old s) (hT : Within 12 F := by exact within_of rfl (by assumption)) :
    Keeps kc kn F old (State.emptyPack s slot) := by
  unfold State.emptyPack
  repeat' first | with_reducible assumption | exact within_of rfl hT | with_reducible apply wipe_keeps | with_reducible apply packSlot_keeps | dsimp only

theorem setPack_keeps {d : Nat} {x : Pack} (hK : Keeps kc kn F old s) (hT : Within 2147483648 F := by exact within_of rfl (by assumption)) :
    Keeps kc kn F old (State.setPack s d x) := by
  unfold State.setPack
  repeat' first | with_reducible assumption | exact within_of rfl hT | ((with_reducible refine keeps_mk rfl ?_); first | with_reducible assumption | exact within_of rfl hT | split | dsimp only) | dsimp only

theorem execChkPartCtrl_keeps {h : CmdHdr} {p : Fin 16} {value : Word} (hK : Keeps kc kn F old s) (hT : Within 10846586799 F := by exact within_of rfl (by assumption)) :
    NextKeeps kc kn F old (execChkPartCtrl h p value s) := by
  unfold execChkPartCtrl
  repeat' first
    | with_reducible assumption
    | with_reducible apply next_keeps
    | with_reducible exact fault_keeps
    | exact within_of rfl hT
    | with_reducible intro _
    | with_reducible apply ans_keeps
    | with_reducible apply regCommand_keeps
    | with_reducible apply chkPartWrite_keeps
    | (have x : True := trivial
       extract_lets +onlyGivenNames x
       first
       | ((first
           | (have z := x; guard_hyp z : State; clear z; refine keeps_via (x := x) ?_ (fun hx => ?_))
           | (have z := x; guard_hyp z : State; clear z; refine next_via (x := x) ?_ (fun hx => ?_))
           | (have z := x.2; guard_hyp z : State; clear z; refine keeps_via (x := x.2) ?_ (fun hx => ?_))
           | (have z := x.2; guard_hyp z : State; clear z; refine next_via (x := x.2) ?_ (fun hx => ?_))
           | (have z := x.2.2; guard_hyp z : State; clear z; refine keeps_via (x := x.2.2) ?_ (fun hx => ?_))
           | (have z := x.2.2; guard_hyp z : State; clear z; refine next_via (x := x.2.2) ?_ (fun hx => ?_))
           | (have z := x.1; guard_hyp z : State; clear z; refine keeps_via (x := x.1) ?_ (fun hx => ?_))
           | (have z := x.1; guard_hyp z : State; clear z; refine next_via (x := x.1) ?_ (fun hx => ?_)))
          rotate_left
          try clear_value x
          rotate_right
          dsimp -zeta only [x])
       | (fail_if_success (have z := x; guard_hyp z : True)
          try clear_value x))
    | dsimp -zeta only

theorem execChkStrandQset_keeps {h : CmdHdr} {st : Fin 128} {value : Word} (hK : Keeps kc kn F old s) (hT : Within 10846586799 F := by exact within_of rfl (by assumption)) :
    NextKeeps kc kn F old (execChkStrandQset h st value s) := by
  unfold execChkStrandQset
  repeat' first
    | with_reducible assumption
    | with_reducible apply next_keeps
    | with_reducible exact fault_keeps
    | exact within_of rfl hT
    | with_reducible intro _
    | with_reducible apply ans_keeps
    | with_reducible apply regCommand_keeps
    | with_reducible apply qsetWrite_keeps
    | dsimp only

theorem execChkStrandQmask_keeps {h : CmdHdr} {st : Fin 128} {value : Word} (hK : Keeps kc kn F old s) (hT : Within 10846586799 F := by exact within_of rfl (by assumption)) :
    NextKeeps kc kn F old (execChkStrandQmask h st value s) := by
  unfold execChkStrandQmask
  repeat' first
    | with_reducible assumption
    | with_reducible apply next_keeps
    | with_reducible exact fault_keeps
    | exact within_of rfl hT
    | with_reducible intro _
    | with_reducible apply ans_keeps
    | with_reducible apply regCommand_keeps
    | with_reducible apply qmaskWrite_keeps
    | dsimp only

theorem execGblDetPartJrnlRd_keeps {h : CmdHdr} {p : Fin 16} {value : Word} (hK : Keeps kc kn F old s) (hT : Within 10846586799 F := by exact within_of rfl (by assumption)) :
    NextKeeps kc kn F old (execGblDetPartJrnlRd h p value s) := by
  unfold execGblDetPartJrnlRd
  repeat' first
    | with_reducible assumption
    | with_reducible apply next_keeps
    | with_reducible exact fault_keeps
    | exact within_of rfl hT
    | with_reducible intro _
    | with_reducible apply ans_keeps
    | with_reducible apply regCommand_keeps
    | with_reducible apply jrnlRdWrite_keeps
    | dsimp only

theorem execGblDetPartReplay_keeps {h : CmdHdr} {p : Fin 16} {value : Word} (hK : Keeps kc kn F old s) (hT : Within 10846586799 F := by exact within_of rfl (by assumption)) :
    NextKeeps kc kn F old (execGblDetPartReplay h p value s) := by
  unfold execGblDetPartReplay
  repeat' first
    | with_reducible assumption
    | with_reducible apply next_keeps
    | with_reducible exact fault_keeps
    | exact within_of rfl hT
    | with_reducible intro _
    | with_reducible apply ans_keeps
    | with_reducible apply regCommand_keeps
    | with_reducible apply replayWrite_keeps
    | dsimp only

theorem execFsrRead_keeps {h : CmdHdr} {first maximum : Nat} (hK : Keeps kc kn F old s) (hT : Within 10846586799 F := by exact within_of rfl (by assumption)) :
    NextKeeps kc kn F old (execFsrRead h first maximum s) := by
  unfold execFsrRead
  repeat' first
    | with_reducible assumption
    | with_reducible apply next_keeps
    | with_reducible exact fault_keeps
    | exact within_of rfl hT
    | with_reducible intro _
    | with_reducible apply command_keeps
    | with_reducible apply ans_keeps
    | (have x : True := trivial
       extract_lets +onlyGivenNames x
       first
       | ((first
           | (have z := x; guard_hyp z : State; clear z; refine keeps_via (x := x) ?_ (fun hx => ?_))
           | (have z := x; guard_hyp z : State; clear z; refine next_via (x := x) ?_ (fun hx => ?_))
           | (have z := x.2; guard_hyp z : State; clear z; refine keeps_via (x := x.2) ?_ (fun hx => ?_))
           | (have z := x.2; guard_hyp z : State; clear z; refine next_via (x := x.2) ?_ (fun hx => ?_))
           | (have z := x.2.2; guard_hyp z : State; clear z; refine keeps_via (x := x.2.2) ?_ (fun hx => ?_))
           | (have z := x.2.2; guard_hyp z : State; clear z; refine next_via (x := x.2.2) ?_ (fun hx => ?_))
           | (have z := x.1; guard_hyp z : State; clear z; refine keeps_via (x := x.1) ?_ (fun hx => ?_))
           | (have z := x.1; guard_hyp z : State; clear z; refine next_via (x := x.1) ?_ (fun hx => ?_)))
          rotate_left
          try clear_value x
          rotate_right
          dsimp -zeta only [x])
       | (fail_if_success (have z := x; guard_hyp z : True)
          try clear_value x))
    | ((with_reducible refine keeps_mk rfl ?_); first | with_reducible assumption | exact within_of rfl hT | (with_reducible apply command_keeps) | (with_reducible apply ans_keeps) | split | dsimp -zeta only)
    | with_reducible refine keeps_fst (by with_reducible assumption) ?_
    | with_reducible refine keeps_snd (by with_reducible assumption) ?_
    | with_reducible refine keeps_thd (by with_reducible assumption) ?_
    | split
    | dsimp -zeta only

theorem execFsrAck_keeps {h : CmdHdr} {n : Nat} (hK : Keeps kc kn F old s) (hT : Within 10846586799 F := by exact within_of rfl (by assumption)) :
    NextKeeps kc kn F old (execFsrAck h n s) := by
  unfold execFsrAck
  repeat' first
    | with_reducible assumption
    | with_reducible apply next_keeps
    | with_reducible exact fault_keeps
    | exact within_of rfl hT
    | with_reducible intro _
    | with_reducible apply modSession_keeps
    | with_reducible apply command_keeps
    | with_reducible apply ans_keeps
    | ((with_reducible refine keeps_mk rfl ?_); first | with_reducible assumption | exact within_of rfl hT | (with_reducible apply modSession_keeps) | (with_reducible apply command_keeps) | (with_reducible apply ans_keeps) | split | dsimp only)
    | split
    | dsimp only

theorem execPackLoad_keeps {h : CmdHdr} {slot : Nat} {last clear : Bool} {offset : Nat} {data : List Byte} (hK : Keeps kc kn F old s) (hT : Within 10846586799 F := by exact within_of rfl (by assumption)) :
    NextKeeps kc kn F old (execPackLoad h slot last clear offset data s) := by
  unfold execPackLoad
  repeat' first
    | with_reducible assumption
    | with_reducible apply next_keeps
    | with_reducible exact fault_keeps
    | exact within_of rfl hT
    | with_reducible intro _
    | with_reducible apply poke_keeps
    | with_reducible apply command_keeps
    | with_reducible apply ans_keeps
    | with_reducible apply packSlot_keeps
    | with_reducible apply emptyPack_keeps
    | (have x : True := trivial
       extract_lets +onlyGivenNames x
       first
       | ((first
           | (have z := x; guard_hyp z : State; clear z; refine keeps_via (x := x) ?_ (fun hx => ?_))
           | (have z := x; guard_hyp z : State; clear z; refine next_via (x := x) ?_ (fun hx => ?_))
           | (have z := x.2; guard_hyp z : State; clear z; refine keeps_via (x := x.2) ?_ (fun hx => ?_))
           | (have z := x.2; guard_hyp z : State; clear z; refine next_via (x := x.2) ?_ (fun hx => ?_))
           | (have z := x.2.2; guard_hyp z : State; clear z; refine keeps_via (x := x.2.2) ?_ (fun hx => ?_))
           | (have z := x.2.2; guard_hyp z : State; clear z; refine next_via (x := x.2.2) ?_ (fun hx => ?_))
           | (have z := x.1; guard_hyp z : State; clear z; refine keeps_via (x := x.1) ?_ (fun hx => ?_))
           | (have z := x.1; guard_hyp z : State; clear z; refine next_via (x := x.1) ?_ (fun hx => ?_)))
          rotate_left
          try clear_value x
          rotate_right
          dsimp -zeta only [x])
       | (fail_if_success (have z := x; guard_hyp z : True)
          try clear_value x))
    | split
    | dsimp -zeta only

theorem execPackRotation_keeps {die : Fin 4} {t : Nat} (hK : Keeps kc kn F old s) (hT : Within 2147483649 F := by exact within_of rfl (by assumption)) :
    NextKeeps kc kn F old (execPackRotation die t s) := by
  unfold execPackRotation
  repeat' first
    | with_reducible assumption
    | with_reducible apply next_keeps
    | with_reducible exact fault_keeps
    | exact within_of rfl hT
    | with_reducible apply tick_keeps
    | with_reducible apply on_keeps
    | with_reducible apply setPack_keeps
    | (have x : True := trivial
       extract_lets +onlyGivenNames x
       first
       | ((first
           | (have z := x; guard_hyp z : State; clear z; refine keeps_via (x := x) ?_ (fun hx => ?_))
           | (have z := x; guard_hyp z : State; clear z; refine next_via (x := x) ?_ (fun hx => ?_))
           | (have z := x.2; guard_hyp z : State; clear z; refine keeps_via (x := x.2) ?_ (fun hx => ?_))
           | (have z := x.2; guard_hyp z : State; clear z; refine next_via (x := x.2) ?_ (fun hx => ?_))
           | (have z := x.2.2; guard_hyp z : State; clear z; refine keeps_via (x := x.2.2) ?_ (fun hx => ?_))
           | (have z := x.2.2; guard_hyp z : State; clear z; refine next_via (x := x.2.2) ?_ (fun hx => ?_))
           | (have z := x.1; guard_hyp z : State; clear z; refine keeps_via (x := x.1) ?_ (fun hx => ?_))
           | (have z := x.1; guard_hyp z : State; clear z; refine next_via (x := x.1) ?_ (fun hx => ?_)))
          rotate_left
          try clear_value x
          rotate_right
          dsimp -zeta only [x])
       | (fail_if_success (have z := x; guard_hyp z : True)
          try clear_value x))
    | split
    | dsimp -zeta only

theorem execPackTestEnd_keeps {die : Fin 4} {r : PackResult} {t : Nat} (hK : Keeps kc kn F old s) (hT : Within 10737451301 F := by exact within_of rfl (by assumption)) :
    NextKeeps kc kn F old (execPackTestEnd die r t s) := by
  unfold execPackTestEnd
  repeat' first
    | with_reducible assumption
    | with_reducible apply next_keeps
    | with_reducible exact fault_keeps
    | exact within_of rfl hT
    | with_reducible intro _
    | with_reducible apply tick_keeps
    | with_reducible apply inc_keeps
    | with_reducible apply modStrand_keeps
    | with_reducible apply fsr_keeps
    | with_reducible apply scoreRise_keeps
    | with_reducible apply setPack_keeps
    | (have x : True := trivial
       extract_lets +onlyGivenNames x
       first
       | ((first
           | (have z := x; guard_hyp z : State; clear z; refine keeps_via (x := x) ?_ (fun hx => ?_))
           | (have z := x; guard_hyp z : State; clear z; refine next_via (x := x) ?_ (fun hx => ?_))
           | (have z := x.2; guard_hyp z : State; clear z; refine keeps_via (x := x.2) ?_ (fun hx => ?_))
           | (have z := x.2; guard_hyp z : State; clear z; refine next_via (x := x.2) ?_ (fun hx => ?_))
           | (have z := x.2.2; guard_hyp z : State; clear z; refine keeps_via (x := x.2.2) ?_ (fun hx => ?_))
           | (have z := x.2.2; guard_hyp z : State; clear z; refine next_via (x := x.2.2) ?_ (fun hx => ?_))
           | (have z := x.1; guard_hyp z : State; clear z; refine keeps_via (x := x.1) ?_ (fun hx => ?_))
           | (have z := x.1; guard_hyp z : State; clear z; refine next_via (x := x.1) ?_ (fun hx => ?_)))
          rotate_left
          try clear_value x
          rotate_right
          dsimp -zeta only [x])
       | (fail_if_success (have z := x; guard_hyp z : True)
          try clear_value x))
    | ((with_reducible refine keeps_mk rfl ?_); first | with_reducible assumption | exact within_of rfl hT | (with_reducible apply tick_keeps) | (with_reducible apply inc_keeps) | (with_reducible apply modStrand_keeps) | (with_reducible apply fsr_keeps) | (with_reducible apply scoreRise_keeps) | (with_reducible apply setPack_keeps) | split | dsimp -zeta only)
    | with_reducible refine keeps_fst (by with_reducible assumption) ?_
    | with_reducible refine keeps_snd (by with_reducible assumption) ?_
    | with_reducible refine keeps_thd (by with_reducible assumption) ?_
    | split
    | dsimp -zeta only

theorem execScoreDecay_keeps {st : Fin 128} {cell : Fin 20} {t : Nat} (hK : Keeps kc kn F old s) (hT : Within 33 F := by exact within_of rfl (by assumption)) :
    NextKeeps kc kn F old (execScoreDecay st cell t s) := by
  unfold execScoreDecay
  refine next_keeps ?_
  have ht := tick_keeps (t := t) hK
  generalize s.tick t = y at ht ⊢
  generalize mget (y.strand st.val).scores cell.val = g
  cases g with
  | none => exact ht
  | some x =>
    simp only []
    split
    · exact ht
    · exact modStrand_keeps ht


theorem execBandClassify_keeps {g : Fin 16} {c : LoadCounts} {t : Nat} (hK : Keeps kc kn F old s) (hT : Within 161 F := by exact within_of rfl (by assumption)) :
    NextKeeps kc kn F old (execBandClassify g c t s) := by
  unfold execBandClassify
  repeat' first
    | with_reducible assumption
    | with_reducible apply next_keeps
    | with_reducible exact fault_keeps
    | exact within_of rfl hT
    | with_reducible intro _
    | with_reducible apply tick_keeps
    | with_reducible apply modHank_keeps
    | with_reducible apply freeAvail_keeps
    | with_reducible apply foldS_keeps
    | (have x : True := trivial
       extract_lets +onlyGivenNames x
       first
       | ((first
           | (have z := x; guard_hyp z : State; clear z; refine keeps_via (x := x) ?_ (fun hx => ?_))
           | (have z := x; guard_hyp z : State; clear z; refine next_via (x := x) ?_ (fun hx => ?_))
           | (have z := x.2; guard_hyp z : State; clear z; refine keeps_via (x := x.2) ?_ (fun hx => ?_))
           | (have z := x.2; guard_hyp z : State; clear z; refine next_via (x := x.2) ?_ (fun hx => ?_))
           | (have z := x.2.2; guard_hyp z : State; clear z; refine keeps_via (x := x.2.2) ?_ (fun hx => ?_))
           | (have z := x.2.2; guard_hyp z : State; clear z; refine next_via (x := x.2.2) ?_ (fun hx => ?_))
           | (have z := x.1; guard_hyp z : State; clear z; refine keeps_via (x := x.1) ?_ (fun hx => ?_))
           | (have z := x.1; guard_hyp z : State; clear z; refine next_via (x := x.1) ?_ (fun hx => ?_)))
          rotate_left
          try clear_value x
          rotate_right
          dsimp -zeta only [x])
       | (fail_if_success (have z := x; guard_hyp z : True)
          try clear_value x))
    | ((with_reducible refine keeps_mk rfl ?_); first | with_reducible assumption | exact within_of rfl hT | (with_reducible apply tick_keeps) | (with_reducible apply modHank_keeps) | (with_reducible apply freeAvail_keeps) | with_reducible apply foldS_keeps | split | dsimp -zeta only)
    | with_reducible refine keeps_fst (by with_reducible assumption) ?_
    | with_reducible refine keeps_snd (by with_reducible assumption) ?_
    | with_reducible refine keeps_thd (by with_reducible assumption) ?_
    | split
    | dsimp -zeta only

end Sys2Proof.Machine
end

