-- ==== Sys2Proof/Laws/KeepsConv.lean ====
section
/-! SUPPORT. What the operations of Machine/Conv.lean keep: one lemma for each. -/

namespace Sys2Proof.Machine

set_option linter.all false
set_option Elab.async false

variable {kc kn : Bool} {F : Field → Bool} {old s : State}

theorem cnvCount_keeps {r : Run} {f : Nat → Nat → Nat} {n : Nat} (hK : Keeps kc kn F old s) (hT : Within 4 F := by exact within_of rfl (by assumption)) :
    Keeps kc kn F old (State.cnvCount s r f n) := by
  unfold State.cnvCount
  repeat' first | with_reducible assumption | exact within_of rfl hT | with_reducible apply bump_keeps | dsimp only

theorem convStep_keeps {r : Run} {c : ConvJob} (hK : Keeps kc kn F old s) (hT : Within 36 F := by exact within_of rfl (by assumption)) :
    Keeps kc kn F old (State.convStep s r c) := by
  unfold State.convStep
  repeat' first
    | with_reducible assumption
    | exact within_of rfl hT
    | with_reducible intro _
    | with_reducible apply arith_keeps
    | with_reducible apply setAcc_keeps
    | with_reducible apply macBusy_keeps
    | with_reducible apply cnvCount_keeps
    | (have x : True := trivial
       extract_lets +onlyGivenNames x
       first
       | ((first
           | (have z := x; guard_hyp z : State; clear z; refine keeps_via (x := x) ?_ (fun hx => ?_))
           | (have z := x.2; guard_hyp z : State; clear z; refine keeps_via (x := x.2) ?_ (fun hx => ?_))
           | (have z := x.2.2; guard_hyp z : State; clear z; refine keeps_via (x := x.2.2) ?_ (fun hx => ?_))
           | (have z := x.1; guard_hyp z : State; clear z; refine keeps_via (x := x.1) ?_ (fun hx => ?_)))
          rotate_left
          try clear_value x
          rotate_right
          dsimp -zeta only [x])
       | (fail_if_success (have z := x; guard_hyp z : True)
          try clear_value x))
    | ((with_reducible refine keeps_mk rfl ?_); first | with_reducible assumption | exact within_of rfl hT | (with_reducible apply arith_keeps) | (with_reducible apply setAcc_keeps) | (with_reducible apply macBusy_keeps) | (with_reducible apply cnvCount_keeps) | split | dsimp -zeta only)
    | split
    | dsimp -zeta only

theorem convBody_keeps {r : Run} {u : Upset} (hK : Keeps kc kn F old s) (hT : Within 46 F := by exact within_of rfl (by assumption)) :
    Keeps kc kn F old (State.convBody s r u).2.2 := by
  unfold State.convBody
  repeat' first
    | with_reducible assumption
    | exact within_of rfl hT
    | with_reducible intro _
    | with_reducible apply readoutWith_keeps
    | with_reducible apply noReadout_keeps
    | with_reducible apply cnvCount_keeps
    | with_reducible apply convStep_keeps
    | (have x : True := trivial
       extract_lets +onlyGivenNames x
       first
       | ((first
           | (have z := x; guard_hyp z : State; clear z; refine keeps_via (x := x) ?_ (fun hx => ?_))
           | (have z := x.2; guard_hyp z : State; clear z; refine keeps_via (x := x.2) ?_ (fun hx => ?_))
           | (have z := x.2.2; guard_hyp z : State; clear z; refine keeps_via (x := x.2.2) ?_ (fun hx => ?_))
           | (have z := x.1; guard_hyp z : State; clear z; refine keeps_via (x := x.1) ?_ (fun hx => ?_)))
          rotate_left
          try clear_value x
          rotate_right
          dsimp -zeta only [x])
       | (fail_if_success (have z := x; guard_hyp z : True)
          try clear_value x))
    | split
    | dsimp -zeta only

theorem poolPads_keeps {r : Run} {c : PoolJob} (hK : Keeps kc kn F old s) (hT : Within 4 F := by exact within_of rfl (by assumption)) :
    Keeps kc kn F old (State.poolPads s r c) := by
  unfold State.poolPads
  repeat' first
    | with_reducible assumption
    | exact within_of rfl hT
    | with_reducible intro _
    | with_reducible apply cnvCount_keeps
    | split
    | dsimp only

theorem poolBody_keeps {r : Run} {u : Upset} (hK : Keeps kc kn F old s) (hT : Within 46 F := by exact within_of rfl (by assumption)) :
    Keeps kc kn F old (State.poolBody s r u).2.2 := by
  unfold State.poolBody
  repeat' first
    | with_reducible assumption
    | exact within_of rfl hT
    | with_reducible intro _
    | with_reducible apply residueUpset_keeps
    | with_reducible apply usedRandom_keeps
    | with_reducible apply arith_keeps
    | with_reducible apply putAll_keeps
    | with_reducible apply cnvCount_keeps
    | with_reducible apply poolPads_keeps
    | with_reducible apply foldl_keeps
    | (have x : True := trivial
       extract_lets +onlyGivenNames x
       first
       | ((first
           | (have z := x; guard_hyp z : State; clear z; refine keeps_via (x := x) ?_ (fun hx => ?_))
           | (have z := x.2; guard_hyp z : State; clear z; refine keeps_via (x := x.2) ?_ (fun hx => ?_))
           | (have z := x.2.2; guard_hyp z : State; clear z; refine keeps_via (x := x.2.2) ?_ (fun hx => ?_))
           | (have z := x.1; guard_hyp z : State; clear z; refine keeps_via (x := x.1) ?_ (fun hx => ?_)))
          rotate_left
          try clear_value x
          rotate_right
          dsimp -zeta only [x])
       | (fail_if_success (have z := x; guard_hyp z : True)
          try clear_value x))
    | split
    | dsimp -zeta only

theorem execConv_keeps {st : Fin 128} {u : Upset} (hK : Keeps kc kn F old s) (hT : Within 10813032430 F := by exact within_of rfl (by assumption)) :
    NextKeeps kc kn F old (execConv st u s) := by
  unfold execConv
  repeat' first
    | with_reducible assumption
    | with_reducible apply next_keeps
    | with_reducible exact fault_keeps
    | exact within_of rfl hT
    | with_reducible intro _
    | with_reducible apply runHitch_keeps
    | with_reducible apply convBody_keeps
    | dsimp only

theorem execPool_keeps {st : Fin 128} {u : Upset} (hK : Keeps kc kn F old s) (hT : Within 10813032430 F := by exact within_of rfl (by assumption)) :
    NextKeeps kc kn F old (execPool st u s) := by
  unfold execPool
  repeat' first
    | with_reducible assumption
    | with_reducible apply next_keeps
    | with_reducible exact fault_keeps
    | exact within_of rfl hT
    | with_reducible intro _
    | with_reducible apply runHitch_keeps
    | with_reducible apply poolBody_keeps
    | dsimp only

end Sys2Proof.Machine
end

