-- ==== Sys2Proof/Laws/KeepsWhip.lean ====
section
/-! SUPPORT. What the operations of Machine/Whip.lean keep: one lemma for each. -/

namespace Sys2Proof.Machine

set_option linter.all false
set_option Elab.async false

variable {kc kn : Bool} {F : Field → Bool} {old s : State}

theorem clearPartRegs_keeps {p : Nat} (hK : Keeps kc kn F old s) (hT : Within 4299161604 F := by exact within_of rfl (by assumption)) :
    Keeps kc kn F old (State.clearPartRegs s p) := by
  unfold State.clearPartRegs
  repeat' first
    | with_reducible assumption
    | exact within_of rfl hT
    | with_reducible intro _
    | (have x : True := trivial
       extract_lets +onlyGivenNames x
       first
       | ((first
           | (have z := x; guard_hyp z : State; clear z; refine keeps_via (x := x) ?_ (fun hx => ?_))
           | (have z := x.2; guard_hyp z : State; clear z; refine keeps_via (x := x.2) ?_ (fun hx => ?_))
           | (have z := x.2.2; guard_hyp z : State; clear z; refine keeps_via (x := x.2.2) ?_ (fun hx => ?_))
           | (have z := x.1; guard_hyp z : State; clear z; refine keeps_via (x := x.1) ?_ (fun hx => ?_)))
          rotate_left
          try clear_value x
          rotate_right
          dsimp -zeta only [x])
       | (fail_if_success (have z := x; guard_hyp z : True)
          try clear_value x))
    | ((with_reducible refine keeps_mk rfl ?_); first | with_reducible assumption | exact within_of rfl hT | split | dsimp -zeta only)
    | with_reducible refine keeps_fst (by with_reducible assumption) ?_
    | with_reducible refine keeps_snd (by with_reducible assumption) ?_
    | with_reducible refine keeps_thd (by with_reducible assumption) ?_
    | split
    | dsimp -zeta only

theorem wakeMemory_keeps {p : Nat} (hK : Keeps kc kn F old s) (hT : Within 10813032366 F := by exact within_of rfl (by assumption)) :
    Keeps kc kn F old (State.wakeMemory s p) := by
  unfold State.wakeMemory
  repeat' first
    | with_reducible assumption
    | exact within_of rfl hT
    | with_reducible intro _
    | with_reducible apply reach_keeps
    | with_reducible apply foldS_keeps
    | split
    | dsimp only

theorem overwrite_keeps {p : Nat} (hK : Keeps kc kn F old s) (hT : Within 520 F := by exact within_of rfl (by assumption)) :
    Keeps kc kn F old (State.overwrite s p) := by
  unfold State.overwrite
  repeat' first
    | with_reducible assumption
    | exact within_of rfl hT
    | with_reducible intro _
    | with_reducible apply modUnit_keeps
    | with_reducible apply wipe_keeps
    | with_reducible apply foldS_keeps
    | (have x : True := trivial
       extract_lets +onlyGivenNames x
       first
       | ((first
           | (have z := x; guard_hyp z : State; clear z; refine keeps_via (x := x) ?_ (fun hx => ?_))
           | (have z := x.2; guard_hyp z : State; clear z; refine keeps_via (x := x.2) ?_ (fun hx => ?_))
           | (have z := x.2.2; guard_hyp z : State; clear z; refine keeps_via (x := x.2.2) ?_ (fun hx => ?_))
           | (have z := x.1; guard_hyp z : State; clear z; refine keeps_via (x := x.1) ?_ (fun hx => ?_)))
          rotate_left
          try clear_value x
          rotate_right
          dsimp -zeta only [x])
       | (fail_if_success (have z := x; guard_hyp z : True)
          try clear_value x))
    | ((with_reducible refine keeps_mk rfl ?_); first | with_reducible assumption | exact within_of rfl hT | (with_reducible apply modUnit_keeps) | (with_reducible apply wipe_keeps) | with_reducible apply foldS_keeps | split | dsimp -zeta only)
    | dsimp -zeta only

theorem dropPool_keeps {p : Nat} (hK : Keeps kc kn F old s) (hT : Within 16777216 F := by exact within_of rfl (by assumption)) :
    Keeps kc kn F old (State.dropPool s p) := by
  unfold State.dropPool
  repeat' first
    | with_reducible assumption
    | exact within_of rfl hT
    | with_reducible intro _
    | (have x : True := trivial
       extract_lets +onlyGivenNames x
       first
       | ((first
           | (have z := x; guard_hyp z : State; clear z; refine keeps_via (x := x) ?_ (fun hx => ?_))
           | (have z := x.2; guard_hyp z : State; clear z; refine keeps_via (x := x.2) ?_ (fun hx => ?_))
           | (have z := x.2.2; guard_hyp z : State; clear z; refine keeps_via (x := x.2.2) ?_ (fun hx => ?_))
           | (have z := x.1; guard_hyp z : State; clear z; refine keeps_via (x := x.1) ?_ (fun hx => ?_)))
          rotate_left
          try clear_value x
          rotate_right
          dsimp -zeta only [x])
       | (fail_if_success (have z := x; guard_hyp z : True)
          try clear_value x))
    | ((with_reducible refine keeps_mk rfl ?_); first | with_reducible assumption | exact within_of rfl hT | split | dsimp -zeta only)
    | split
    | dsimp -zeta only

theorem startWhip_keeps {p : Nat} (hK : Keeps kc kn F old s) (hT : Within 11402332094 F := by exact within_of rfl (by assumption)) : Keeps kc kn F old (State.startWhip s p) := by
  unfold State.startWhip
  extract_lets s1 g s2 q1 s3 q2 q3 q4 s4
  have h1 : Keeps kc kn F old s1 := foldS_keeps (fun s c h => reply_keeps h) hK
  clear_value s1
  have h2 : Keeps kc kn F old s2 := modPart_keeps h1
  have h3 : Keeps kc kn F old s3 := partStateEvent_keeps (keeps_mk (x := s2) rfl h2 (hg := Nat.le_add_right _ 1))
  clear_value s3
  have h4 : Keeps kc kn F old s4 := keeps_mk (x := s3) rfl h3
  clear_value s4
  exact wakeMemory_keeps (dropPool_keeps h4)

theorem zeroHanks_keeps {p : Nat} (hK : Keeps kc kn F old s) (hT : Within 232 F := by exact within_of rfl (by assumption)) :
    Keeps kc kn F old (State.zeroHanks s p) := by
  unfold State.zeroHanks
  repeat' first
    | with_reducible assumption
    | exact within_of rfl hT
    | with_reducible intro _
    | with_reducible apply modStrand_keeps
    | with_reducible apply modHank_keeps
    | with_reducible apply wipe_keeps
    | with_reducible apply clearKnots_keeps
    | with_reducible apply foldS_keeps
    | (have x : True := trivial
       extract_lets +onlyGivenNames x
       first
       | ((first
           | (have z := x; guard_hyp z : State; clear z; refine keeps_via (x := x) ?_ (fun hx => ?_))
           | (have z := x.2; guard_hyp z : State; clear z; refine keeps_via (x := x.2) ?_ (fun hx => ?_))
           | (have z := x.2.2; guard_hyp z : State; clear z; refine keeps_via (x := x.2.2) ?_ (fun hx => ?_))
           | (have z := x.1; guard_hyp z : State; clear z; refine keeps_via (x := x.1) ?_ (fun hx => ?_)))
          rotate_left
          try clear_value x
          rotate_right
          dsimp -zeta only [x])
       | (fail_if_success (have z := x; guard_hyp z : True)
          try clear_value x))
    | ((with_reducible refine keeps_mk rfl ?_); first | with_reducible assumption | exact within_of rfl hT | (with_reducible apply modStrand_keeps) | (with_reducible apply modHank_keeps) | (with_reducible apply wipe_keeps) | (with_reducible apply clearKnots_keeps) | with_reducible apply foldS_keeps | split | dsimp -zeta only)
    | dsimp -zeta only

theorem zeroEngines_keeps {p : Nat} (hK : Keeps kc kn F old s) (hT : Within 11903557550 F := by exact within_of rfl (by assumption)) :
    Keeps kc kn F old (State.zeroEngines s p) := by
  unfold State.zeroEngines
  repeat' first
    | with_reducible assumption
    | exact within_of rfl hT
    | with_reducible intro _
    | with_reducible apply setReg_keeps
    | with_reducible apply modEngine_keeps
    | with_reducible apply dispatchRunEnd_keeps
    | with_reducible apply clearRx_keeps
    | with_reducible apply setCore_keeps
    | with_reducible apply foldS_keeps
    | (have x : True := trivial
       extract_lets +onlyGivenNames x
       first
       | ((first
           | (have z := x; guard_hyp z : State; clear z; refine keeps_via (x := x) ?_ (fun hx => ?_))
           | (have z := x.2; guard_hyp z : State; clear z; refine keeps_via (x := x.2) ?_ (fun hx => ?_))
           | (have z := x.2.2; guard_hyp z : State; clear z; refine keeps_via (x := x.2.2) ?_ (fun hx => ?_))
           | (have z := x.1; guard_hyp z : State; clear z; refine keeps_via (x := x.1) ?_ (fun hx => ?_)))
          rotate_left
          try clear_value x
          rotate_right
          dsimp -zeta only [x])
       | (fail_if_success (have z := x; guard_hyp z : True)
          try clear_value x))
    | ((with_reducible refine keeps_mk rfl ?_); first | with_reducible assumption | exact within_of rfl hT | (with_reducible apply setReg_keeps) | (with_reducible apply modEngine_keeps) | (with_reducible apply dispatchRunEnd_keeps) | (with_reducible apply clearRx_keeps) | (with_reducible apply setCore_keeps) | with_reducible apply foldS_keeps | split | dsimp -zeta only)
    | dsimp -zeta only

theorem zeroRanges_keeps {p : Nat} (hK : Keeps kc kn F old s) (hT : Within 6291456 F := by exact within_of rfl (by assumption)) :
    Keeps kc kn F old (State.zeroRanges s p) := by
  unfold State.zeroRanges
  repeat' first
    | with_reducible assumption
    | exact within_of rfl hT
    | with_reducible intro _
    | (have x : True := trivial
       extract_lets +onlyGivenNames x
       first
       | ((first
           | (have z := x; guard_hyp z : State; clear z; refine keeps_via (x := x) ?_ (fun hx => ?_))
           | (have z := x.2; guard_hyp z : State; clear z; refine keeps_via (x := x.2) ?_ (fun hx => ?_))
           | (have z := x.2.2; guard_hyp z : State; clear z; refine keeps_via (x := x.2.2) ?_ (fun hx => ?_))
           | (have z := x.1; guard_hyp z : State; clear z; refine keeps_via (x := x.1) ?_ (fun hx => ?_)))
          rotate_left
          try clear_value x
          rotate_right
          dsimp -zeta only [x])
       | (fail_if_success (have z := x; guard_hyp z : True)
          try clear_value x))
    | ((with_reducible refine keeps_mk rfl ?_); first | with_reducible assumption | exact within_of rfl hT | split | dsimp -zeta only)
    | split
    | dsimp -zeta only

theorem endWhip_keeps {p : Nat} (hK : Keeps kc false F old s) (hT : Within 12446719998 F := by exact within_of rfl (by assumption)) : Keeps kc false F old (State.endWhip s p) := by
  unfold State.endWhip
  extract_lets cmds s1 s2 s3 s4 others q s5 s6
  have h2 : Keeps kc false F old s2 := zeroRanges_keeps (zeroEngines_keeps (zeroHanks_keeps (overwrite_keeps hK)))
  clear_value s2
  have h3 : Keeps kc false F old s3 := foldS_keeps (fun s d h => setReg_keeps h) h2
  clear_value s3
  have h4 : Keeps kc false F old s4 := keeps_mk (x := s3) rfl h3
  clear_value s4
  have h5 : Keeps kc false F old s5 := by
    dsimp only [s5]
    split
    · exact h4
    · exact keeps_mk (x := s4) rfl h4
  clear_value s5
  refine foldS_keeps (fun s c h => commandDone_keeps h) (partStateEvent_keeps (setPart_keeps ?_ h5))
  exact fun h => absurd h Bool.false_ne_true


end Sys2Proof.Machine
end

