-- ==== Sys2Proof/Laws/KeepsSteps.lean ====
section
/-! SUPPORT. What the operations of Machine/Steps.lean keep: one lemma for each. -/

namespace Sys2Proof.Machine

set_option linter.all false
set_option Elab.async false

variable {kc kn : Bool} {F : Field → Bool} {old s : State}

theorem setMode_keeps {p m : Nat} (hK : Keeps kc kn F old s) (hT : Within 256 F := by exact within_of rfl (by assumption)) :
    Keeps kc kn F old (State.setMode s p m) := by
  unfold State.setMode
  repeat' first
    | with_reducible assumption
    | exact within_of rfl hT
    | with_reducible intro _
    | with_reducible apply modStep_keeps
    | ((with_reducible refine keeps_mk rfl ?_); first | with_reducible assumption | exact within_of rfl hT | (with_reducible apply modStep_keeps) | split | dsimp only)
    | split
    | dsimp only

theorem setGo_keeps {p : Nat} (hK : Keeps kc kn F old s) (hT : Within 256 F := by exact within_of rfl (by assumption)) :
    Keeps kc kn F old (State.setGo s p) := by
  unfold State.setGo
  repeat' first
    | with_reducible assumption
    | exact within_of rfl hT
    | with_reducible intro _
    | with_reducible apply modStep_keeps
    | ((with_reducible refine keeps_mk rfl ?_); first | with_reducible assumption | exact within_of rfl hT | (with_reducible apply modStep_keeps) | split | dsimp only)
    | split
    | dsimp only

theorem clearAbandon_keeps {p : Nat} (hK : Keeps kc kn F old s) (hT : Within 10852884462 F := by exact within_of rfl (by assumption)) :
    Keeps kc kn F old (State.clearAbandon s p) := by
  unfold State.clearAbandon
  repeat' first
    | with_reducible assumption
    | exact within_of rfl hT
    | with_reducible intro _
    | with_reducible apply modStep_keeps
    | with_reducible apply abandoned_keeps
    | ((with_reducible refine keeps_mk rfl ?_); first | with_reducible assumption | exact within_of rfl hT | (with_reducible apply modStep_keeps) | (with_reducible apply abandoned_keeps) | split | dsimp only)
    | split
    | dsimp only

theorem hnkCtrlWrite_keeps {p v : Nat} (hK : Keeps kc kn F old s) (hT : Within 10852884462 F := by exact within_of rfl (by assumption)) :
    Keeps kc kn F old (State.hnkCtrlWrite s p v) := by
  unfold State.hnkCtrlWrite
  repeat' first
    | with_reducible assumption
    | exact within_of rfl hT
    | with_reducible apply setMode_keeps
    | with_reducible apply setGo_keeps
    | with_reducible apply clearAbandon_keeps
    | (have x : True := trivial
       extract_lets +onlyGivenNames x
       first
       | ((first
           | (have z := x; guard_hyp z : State; clear z; refine keeps_via (x := x) ?_ (fun hx => ?_))
           | (have z := x.2; guard_hyp z : State; clear z; refine keeps_via (x := x.2) ?_ (fun hx => ?_))
           | (have z := x.2.2; guard_hyp z : State; clear z; refine keeps_via (x := x.2.2) ?_ (fun hx => ?_))
           | (have z := x.1; guard_hyp z : State; clear z; refine keeps_via (x := x.1) ?_ (fun hx => ?_)))
          rotate_left
          try clear_value x
          rotate_right
          dsimp -zeta only [x])
       | (fail_if_success (have z := x; guard_hyp z : True)
          try clear_value x))
    | split
    | dsimp -zeta only

theorem takeMode_keeps {p : Nat} (hK : Keeps kc kn F old s) (hT : Within 256 F := by exact within_of rfl (by assumption)) :
    Keeps kc kn F old (State.takeMode s p) := by
  unfold State.takeMode
  repeat' first
    | with_reducible assumption
    | exact within_of rfl hT
    | with_reducible intro _
    | with_reducible apply modStep_keeps
    | ((with_reducible refine keeps_mk rfl ?_); first | with_reducible assumption | exact within_of rfl hT | (with_reducible apply modStep_keeps) | split | dsimp only)
    | dsimp only

theorem beginRun_keeps {p : Nat} (hK : Keeps kc kn F old s) (hT : Within 134217860 F := by exact within_of rfl (by assumption)) :
    Keeps kc kn F old (State.beginRun s p) := by
  unfold State.beginRun
  repeat' first
    | with_reducible assumption
    | exact within_of rfl hT
    | with_reducible intro _
    | with_reducible apply modHank_keeps
    | with_reducible apply aimHank_keeps
    | with_reducible apply countHeld_keeps
    | with_reducible apply foldS_keeps
    | ((with_reducible refine keeps_mk rfl ?_); first | with_reducible assumption | exact within_of rfl hT | (with_reducible apply modHank_keeps) | (with_reducible apply aimHank_keeps) | (with_reducible apply countHeld_keeps) | with_reducible apply foldS_keeps | split | dsimp only)
    | dsimp only

theorem mapHank_keeps {g : Nat} {fresh : Bool} (hK : Keeps kc kn F old s) (hT : Within 128 F := by exact within_of rfl (by assumption)) :
    Keeps kc kn F old (State.mapHank s g fresh) := by
  unfold State.mapHank
  repeat' first
    | with_reducible assumption
    | exact within_of rfl hT
    | with_reducible intro _
    | with_reducible apply modHank_keeps
    | (have x : True := trivial
       extract_lets +onlyGivenNames x
       first
       | ((first
           | (have z := x; guard_hyp z : State; clear z; refine keeps_via (x := x) ?_ (fun hx => ?_))
           | (have z := x.2; guard_hyp z : State; clear z; refine keeps_via (x := x.2) ?_ (fun hx => ?_))
           | (have z := x.2.2; guard_hyp z : State; clear z; refine keeps_via (x := x.2.2) ?_ (fun hx => ?_))
           | (have z := x.1; guard_hyp z : State; clear z; refine keeps_via (x := x.1) ?_ (fun hx => ?_)))
          rotate_left
          try clear_value x
          rotate_right
          dsimp -zeta only [x])
       | (fail_if_success (have z := x; guard_hyp z : True)
          try clear_value x))
    | ((with_reducible refine keeps_mk rfl ?_); first | with_reducible assumption | exact within_of rfl hT | (with_reducible apply modHank_keeps) | split | dsimp -zeta only)
    | with_reducible refine keeps_fst (by with_reducible assumption) ?_
    | with_reducible refine keeps_snd (by with_reducible assumption) ?_
    | with_reducible refine keeps_thd (by with_reducible assumption) ?_
    | split
    | dsimp -zeta only

theorem mapPositions_keeps {p : Nat} (hK : Keeps kc kn F old s) (hT : Within 128 F := by exact within_of rfl (by assumption)) :
    Keeps kc kn F old (State.mapPositions s p) := by
  unfold State.mapPositions
  repeat' first
    | with_reducible assumption
    | exact within_of rfl hT
    | with_reducible intro _
    | with_reducible apply mapHank_keeps
    | with_reducible apply foldS_keeps
    | (have x : True := trivial
       extract_lets +onlyGivenNames x
       first
       | ((first
           | (have z := x; guard_hyp z : State; clear z; refine keeps_via (x := x) ?_ (fun hx => ?_))
           | (have z := x.2; guard_hyp z : State; clear z; refine keeps_via (x := x.2) ?_ (fun hx => ?_))
           | (have z := x.2.2; guard_hyp z : State; clear z; refine keeps_via (x := x.2.2) ?_ (fun hx => ?_))
           | (have z := x.1; guard_hyp z : State; clear z; refine keeps_via (x := x.1) ?_ (fun hx => ?_)))
          rotate_left
          try clear_value x
          rotate_right
          dsimp -zeta only [x])
       | (fail_if_success (have z := x; guard_hyp z : True)
          try clear_value x))
    | split
    | dsimp -zeta only

theorem leaveStrand_keeps {p g q : Nat} {u : Upset} (hK : Keeps kc kn F old s) (hT : Within 10947256238 F := by exact within_of rfl (by assumption)) :
    Keeps kc kn F old (State.leaveStrand s p g q u) := by
  unfold State.leaveStrand
  extract_lets st entries e acc ck s1 x form r s2 s3 at_
  have he : Keeps kc kn F old e.2 := scratchUpset_keeps hK
  clear_value e
  have h1 : Keeps kc kn F old s1 := accCheck_keeps (setAcc_keeps he)
  clear_value s1 form
  have hr : Keeps kc kn F old r.2 := by
    dsimp only [r]
    split
    · exact storeP_keeps h1
    · exact h1
  clear_value r
  have h2 : Keeps kc kn F old s2 := modPos_keeps hr
  clear_value s2
  exact raise_keeps (aimHank_keeps (modStrand_keeps h2))

theorem takeStrand_keeps {p g q : Nat} {u : Upset} (hK : Keeps kc kn F old s) (hT : Within 10947256238 F := by exact within_of rfl (by assumption)) :
    Keeps kc kn F old (State.takeStrand s p g q u) := by
  have hr : ∀ f, Keeps kc kn F old ((s.fetchP (some (s.strandFor g q / 32)) p (s.saveAt p g q) posSave u.mem).2.2.modHank g f) :=
    fun f => modHank_keeps (fetchP_keeps hK)
  unfold State.takeStrand
  simp only []
  generalize (s.fetchP (some (s.strandFor g q / 32)) p (s.saveAt p g q) posSave u.mem) = y at hr ⊢
  split
  · exact raise_keeps (hr _)
  · exact raise_keeps (accCheck_keeps (modStrand_keeps (poke_keeps (wipe_keeps (hr _)))))

theorem checkReady_keeps {p : Nat} (hK : Keeps kc kn F old s) (hT : Within 10947250094 F := by exact within_of rfl (by assumption)) :
    Keeps kc kn F old (State.checkReady s p) := by
  unfold State.checkReady
  repeat' first
    | with_reducible assumption
    | exact within_of rfl hT
    | with_reducible intro _
    | with_reducible apply takeFree_keeps
    | with_reducible apply modStep_keeps
    | with_reducible apply sendVote_keeps
    | with_reducible apply modVote_keeps
    | with_reducible apply raise_keeps
    | (have x : True := trivial
       extract_lets +onlyGivenNames x
       first
       | ((first
           | (have z := x; guard_hyp z : State; clear z; refine keeps_via (x := x) ?_ (fun hx => ?_))
           | (have z := x.2; guard_hyp z : State; clear z; refine keeps_via (x := x.2) ?_ (fun hx => ?_))
           | (have z := x.2.2; guard_hyp z : State; clear z; refine keeps_via (x := x.2.2) ?_ (fun hx => ?_))
           | (have z := x.1; guard_hyp z : State; clear z; refine keeps_via (x := x.1) ?_ (fun hx => ?_)))
          rotate_left
          try clear_value x
          rotate_right
          dsimp -zeta only [x])
       | (fail_if_success (have z := x; guard_hyp z : True)
          try clear_value x))
    | ((with_reducible refine keeps_mk rfl ?_); first | with_reducible assumption | exact within_of rfl hT | (with_reducible apply takeFree_keeps) | (with_reducible apply modStep_keeps) | (with_reducible apply sendVote_keeps) | (with_reducible apply modVote_keeps) | (with_reducible apply raise_keeps) | split | dsimp -zeta only)
    | split
    | dsimp -zeta only

theorem takeHeads_keeps {p g : Nat} {bs : List Byte} (hK : Keeps kc kn F old s) (hT : Within 10947250094 F := by exact within_of rfl (by assumption)) :
    Keeps kc kn F old (State.takeHeads s p g bs) := by
  unfold State.takeHeads
  repeat' first
    | with_reducible assumption
    | exact within_of rfl hT
    | with_reducible intro _
    | with_reducible apply modPos_keeps
    | with_reducible apply raise_keeps
    | with_reducible apply foldS_keeps
    | (have x : True := trivial
       extract_lets +onlyGivenNames x
       first
       | ((first
           | (have z := x; guard_hyp z : State; clear z; refine keeps_via (x := x) ?_ (fun hx => ?_))
           | (have z := x.2; guard_hyp z : State; clear z; refine keeps_via (x := x.2) ?_ (fun hx => ?_))
           | (have z := x.2.2; guard_hyp z : State; clear z; refine keeps_via (x := x.2.2) ?_ (fun hx => ?_))
           | (have z := x.1; guard_hyp z : State; clear z; refine keeps_via (x := x.1) ?_ (fun hx => ?_)))
          rotate_left
          try clear_value x
          rotate_right
          dsimp -zeta only [x])
       | (fail_if_success (have z := x; guard_hyp z : True)
          try clear_value x))
    | ((with_reducible refine keeps_mk rfl ?_); first | with_reducible assumption | exact within_of rfl hT | (with_reducible apply modPos_keeps) | (with_reducible apply raise_keeps) | with_reducible apply foldS_keeps | split | dsimp -zeta only)
    | split
    | dsimp -zeta only

theorem takeDescriptor_keeps {p g : Nat} {e : ReadErr} (hK : Keeps kc kn F old s) (hT : Within 10947256238 F := by exact within_of rfl (by assumption)) :
    Keeps kc kn F old (State.takeDescriptor s p g e) := by
  unfold State.takeDescriptor
  repeat' first
    | with_reducible assumption
    | exact within_of rfl hT
    | with_reducible intro _
    | with_reducible apply modHank_keeps
    | with_reducible apply fetchP_keeps
    | with_reducible apply raise_keeps
    | with_reducible apply mapPositions_keeps
    | with_reducible apply takeHeads_keeps
    | (have x : True := trivial
       extract_lets +onlyGivenNames x
       first
       | ((first
           | (have z := x; guard_hyp z : State; clear z; refine keeps_via (x := x) ?_ (fun hx => ?_))
           | (have z := x.2; guard_hyp z : State; clear z; refine keeps_via (x := x.2) ?_ (fun hx => ?_))
           | (have z := x.2.2; guard_hyp z : State; clear z; refine keeps_via (x := x.2.2) ?_ (fun hx => ?_))
           | (have z := x.1; guard_hyp z : State; clear z; refine keeps_via (x := x.1) ?_ (fun hx => ?_)))
          rotate_left
          try clear_value x
          rotate_right
          dsimp -zeta only [x])
       | (fail_if_success (have z := x; guard_hyp z : True)
          try clear_value x))
    | ((with_reducible refine keeps_mk rfl ?_); first | with_reducible assumption | exact within_of rfl hT | (with_reducible apply modHank_keeps) | (with_reducible apply fetchP_keeps) | (with_reducible apply raise_keeps) | (with_reducible apply mapPositions_keeps) | (with_reducible apply takeHeads_keeps) | split | dsimp -zeta only)
    | split
    | dsimp -zeta only

theorem takeSeeds_keeps {p g : Nat} {e : ReadErr} (hK : Keeps kc kn F old s) (hT : Within 10947256238 F := by exact within_of rfl (by assumption)) :
    Keeps kc kn F old (State.takeSeeds s p g e) := by
  unfold State.takeSeeds
  repeat' first
    | with_reducible assumption
    | exact within_of rfl hT
    | with_reducible intro _
    | with_reducible apply modHank_keeps
    | with_reducible apply fetchP_keeps
    | with_reducible apply raise_keeps
    | (have x : True := trivial
       extract_lets +onlyGivenNames x
       first
       | ((first
           | (have z := x; guard_hyp z : State; clear z; refine keeps_via (x := x) ?_ (fun hx => ?_))
           | (have z := x.2; guard_hyp z : State; clear z; refine keeps_via (x := x.2) ?_ (fun hx => ?_))
           | (have z := x.2.2; guard_hyp z : State; clear z; refine keeps_via (x := x.2.2) ?_ (fun hx => ?_))
           | (have z := x.1; guard_hyp z : State; clear z; refine keeps_via (x := x.1) ?_ (fun hx => ?_)))
          rotate_left
          try clear_value x
          rotate_right
          dsimp -zeta only [x])
       | (fail_if_success (have z := x; guard_hyp z : True)
          try clear_value x))
    | ((with_reducible refine keeps_mk rfl ?_); first | with_reducible assumption | exact within_of rfl hT | (with_reducible apply modHank_keeps) | (with_reducible apply fetchP_keeps) | (with_reducible apply raise_keeps) | split | dsimp -zeta only)
    | split
    | dsimp -zeta only

theorem takeHitch_keeps {p g q : Nat} {e : ReadErr} (hK : Keeps kc kn F old s) (hT : Within 10947256302 F := by exact within_of rfl (by assumption)) :
    Keeps kc kn F old (State.takeHitch s p g q e) := by
  unfold State.takeHitch
  repeat' first
    | with_reducible assumption
    | exact within_of rfl hT
    | with_reducible intro _
    | with_reducible apply inc_keeps
    | with_reducible apply fetchP_keeps
    | with_reducible apply modPos_keeps
    | with_reducible apply raise_keeps
    | with_reducible apply complete_keeps
    | (have x : True := trivial
       extract_lets +onlyGivenNames x
       first
       | ((first
           | (have z := x; guard_hyp z : State; clear z; refine keeps_via (x := x) ?_ (fun hx => ?_))
           | (have z := x.2; guard_hyp z : State; clear z; refine keeps_via (x := x.2) ?_ (fun hx => ?_))
           | (have z := x.2.2; guard_hyp z : State; clear z; refine keeps_via (x := x.2.2) ?_ (fun hx => ?_))
           | (have z := x.1; guard_hyp z : State; clear z; refine keeps_via (x := x.1) ?_ (fun hx => ?_)))
          rotate_left
          try clear_value x
          rotate_right
          dsimp -zeta only [x])
       | (fail_if_success (have z := x; guard_hyp z : True)
          try clear_value x))
    | ((with_reducible refine keeps_mk rfl ?_); first | with_reducible assumption | exact within_of rfl hT | (with_reducible apply inc_keeps) | (with_reducible apply fetchP_keeps) | (with_reducible apply modPos_keeps) | (with_reducible apply raise_keeps) | (with_reducible apply complete_keeps) | split | dsimp -zeta only)
    | split
    | dsimp -zeta only

theorem settle_keeps {p : Nat} (hK : Keeps kc kn F old s) (hT : Within 10819330030 F := by exact within_of rfl (by assumption)) :
    Keeps kc kn F old (State.settle s p) := by
  unfold State.settle
  repeat' first
    | with_reducible assumption
    | exact within_of rfl hT
    | with_reducible intro _
    | with_reducible apply modStep_keeps
    | with_reducible apply clearKnots_keeps
    | with_reducible apply freePending_keeps
    | with_reducible apply unwalk_keeps
    | with_reducible apply lateRefill_keeps
    | with_reducible apply returnBatch_keeps
    | with_reducible apply dispatchRunEnd_keeps
    | with_reducible apply clearRx_keeps
    | (have x : True := trivial
       extract_lets +onlyGivenNames x
       first
       | ((first
           | (have z := x; guard_hyp z : State; clear z; refine keeps_via (x := x) ?_ (fun hx => ?_))
           | (have z := x.2; guard_hyp z : State; clear z; refine keeps_via (x := x.2) ?_ (fun hx => ?_))
           | (have z := x.2.2; guard_hyp z : State; clear z; refine keeps_via (x := x.2.2) ?_ (fun hx => ?_))
           | (have z := x.1; guard_hyp z : State; clear z; refine keeps_via (x := x.1) ?_ (fun hx => ?_)))
          rotate_left
          try clear_value x
          rotate_right
          dsimp -zeta only [x])
       | ((first
           | (have z := x; guard_hyp z : Security)
           | (have z := x; guard_hyp z : Lease))
          dsimp -zeta only [x])
       | (fail_if_success (have z := x; guard_hyp z : True)
          try clear_value x))
    | ((with_reducible refine keeps_mk rfl ?_); first | with_reducible assumption | exact within_of rfl hT | (with_reducible apply modStep_keeps) | (with_reducible apply clearKnots_keeps) | (with_reducible apply freePending_keeps) | (with_reducible apply unwalk_keeps) | (with_reducible apply lateRefill_keeps) | (with_reducible apply returnBatch_keeps) | (with_reducible apply dispatchRunEnd_keeps) | (with_reducible apply clearRx_keeps) | split | dsimp -zeta only)
    | dsimp -zeta only

theorem resetEnd_keeps {p : Nat} (hK : Keeps kc kn F old s) (hT : Within 10846586798 F := by exact within_of rfl (by assumption)) :
    Keeps kc kn F old (State.resetEnd s p) := by
  unfold State.resetEnd
  repeat' first
    | with_reducible assumption
    | exact within_of rfl hT
    | with_reducible intro _
    | with_reducible apply modPart_keeps
    | with_reducible apply modStep_keeps
    | with_reducible apply partStateEvent_keeps
    | with_reducible apply reply_keeps
    | with_reducible apply foldS_keeps
    | (have x : True := trivial
       extract_lets +onlyGivenNames x
       first
       | ((first
           | (have z := x; guard_hyp z : State; clear z; refine keeps_via (x := x) ?_ (fun hx => ?_))
           | (have z := x.2; guard_hyp z : State; clear z; refine keeps_via (x := x.2) ?_ (fun hx => ?_))
           | (have z := x.2.2; guard_hyp z : State; clear z; refine keeps_via (x := x.2.2) ?_ (fun hx => ?_))
           | (have z := x.1; guard_hyp z : State; clear z; refine keeps_via (x := x.1) ?_ (fun hx => ?_)))
          rotate_left
          try clear_value x
          rotate_right
          dsimp -zeta only [x])
       | (fail_if_success (have z := x; guard_hyp z : True)
          try clear_value x))
    | ((with_reducible refine keeps_mk rfl ?_); first | with_reducible assumption | exact within_of rfl hT | (with_reducible apply modPart_keeps) | (with_reducible apply modStep_keeps) | (with_reducible apply partStateEvent_keeps) | (with_reducible apply reply_keeps) | with_reducible apply foldS_keeps | split | dsimp -zeta only)
    | split
    | dsimp -zeta only

theorem lateSwitch_keeps {p : Nat} (hK : Keeps kc kn F old s) (hT : Within 33554564 F := by exact within_of rfl (by assumption)) :
    Keeps kc kn F old (State.lateSwitch s p) := by
  unfold State.lateSwitch
  repeat' first
    | with_reducible assumption
    | exact within_of rfl hT
    | with_reducible intro _
    | with_reducible apply setReg_keeps
    | with_reducible apply modHank_keeps
    | with_reducible apply foldS_keeps
    | (have x : True := trivial
       extract_lets +onlyGivenNames x
       first
       | ((first
           | (have z := x; guard_hyp z : State; clear z; refine keeps_via (x := x) ?_ (fun hx => ?_))
           | (have z := x.2; guard_hyp z : State; clear z; refine keeps_via (x := x.2) ?_ (fun hx => ?_))
           | (have z := x.2.2; guard_hyp z : State; clear z; refine keeps_via (x := x.2.2) ?_ (fun hx => ?_))
           | (have z := x.1; guard_hyp z : State; clear z; refine keeps_via (x := x.1) ?_ (fun hx => ?_)))
          rotate_left
          try clear_value x
          rotate_right
          dsimp -zeta only [x])
       | (fail_if_success (have z := x; guard_hyp z : True)
          try clear_value x))
    | ((with_reducible refine keeps_mk rfl ?_); first | with_reducible assumption | exact within_of rfl hT | (with_reducible apply setReg_keeps) | (with_reducible apply modHank_keeps) | with_reducible apply foldS_keeps | split | dsimp -zeta only)
    | split
    | dsimp -zeta only

theorem stopDone_keeps {p : Nat} (hK : Keeps kc kn F old s) (hT : Within 11406532606 F := by exact within_of rfl (by assumption)) :
    Keeps kc kn F old (State.stopDone s p) := by
  unfold State.stopDone
  repeat' first
    | with_reducible assumption
    | exact within_of rfl hT
    | with_reducible intro _
    | with_reducible apply modStep_keeps
    | with_reducible apply startWhip_keeps
    | with_reducible apply settle_keeps
    | with_reducible apply resetEnd_keeps
    | with_reducible apply lateSwitch_keeps
    | (have x : True := trivial
       extract_lets +onlyGivenNames x
       first
       | ((first
           | (have z := x; guard_hyp z : State; clear z; refine keeps_via (x := x) ?_ (fun hx => ?_))
           | (have z := x.2; guard_hyp z : State; clear z; refine keeps_via (x := x.2) ?_ (fun hx => ?_))
           | (have z := x.2.2; guard_hyp z : State; clear z; refine keeps_via (x := x.2.2) ?_ (fun hx => ?_))
           | (have z := x.1; guard_hyp z : State; clear z; refine keeps_via (x := x.1) ?_ (fun hx => ?_)))
          rotate_left
          try clear_value x
          rotate_right
          dsimp -zeta only [x])
       | (fail_if_success (have z := x; guard_hyp z : True)
          try clear_value x))
    | ((with_reducible refine keeps_mk rfl ?_); first | with_reducible assumption | exact within_of rfl hT | (with_reducible apply modStep_keeps) | (with_reducible apply startWhip_keeps) | (with_reducible apply settle_keeps) | (with_reducible apply resetEnd_keeps) | (with_reducible apply lateSwitch_keeps) | split | dsimp -zeta only)
    | split
    | dsimp -zeta only

theorem stopStep_keeps {p : Nat} {abort : Bool} (hK : Keeps kc kn F old s) (hT : Within 11540750334 F := by exact within_of rfl (by assumption)) :
    Keeps kc kn F old (State.stopStep s p abort) := by
  unfold State.stopStep
  repeat' first
    | with_reducible assumption
    | exact within_of rfl hT
    | with_reducible intro _
    | with_reducible apply inc_keeps
    | with_reducible apply modStep_keeps
    | with_reducible apply sendVote_keeps
    | with_reducible apply modVote_keeps
    | with_reducible apply noteHeld_keeps
    | with_reducible apply discardQueued_keeps
    | with_reducible apply settle_keeps
    | with_reducible apply stopDone_keeps
    | with_reducible apply foldS_keeps
    | (have x : True := trivial
       extract_lets +onlyGivenNames x
       first
       | ((first
           | (have z := x; guard_hyp z : State; clear z; refine keeps_via (x := x) ?_ (fun hx => ?_))
           | (have z := x.2; guard_hyp z : State; clear z; refine keeps_via (x := x.2) ?_ (fun hx => ?_))
           | (have z := x.2.2; guard_hyp z : State; clear z; refine keeps_via (x := x.2.2) ?_ (fun hx => ?_))
           | (have z := x.1; guard_hyp z : State; clear z; refine keeps_via (x := x.1) ?_ (fun hx => ?_)))
          rotate_left
          try clear_value x
          rotate_right
          dsimp -zeta only [x])
       | (fail_if_success (have z := x; guard_hyp z : True)
          try clear_value x))
    | ((with_reducible refine keeps_mk rfl ?_); first | with_reducible assumption | exact within_of rfl hT | (with_reducible apply inc_keeps) | (with_reducible apply modStep_keeps) | (with_reducible apply sendVote_keeps) | (with_reducible apply modVote_keeps) | (with_reducible apply noteHeld_keeps) | (with_reducible apply discardQueued_keeps) | (with_reducible apply settle_keeps) | (with_reducible apply stopDone_keeps) | with_reducible apply foldS_keeps | split | dsimp -zeta only)
    | with_reducible refine keeps_fst (by with_reducible assumption) ?_
    | with_reducible refine keeps_snd (by with_reducible assumption) ?_
    | with_reducible refine keeps_thd (by with_reducible assumption) ?_
    | split
    | dsimp -zeta only

theorem beginReset_keeps {p : Nat} (hK : Keeps kc kn F old s) (hT : Within 11540750334 F := by exact within_of rfl (by assumption)) :
    Keeps kc kn F old (State.beginReset s p) := by
  unfold State.beginReset
  repeat' first
    | with_reducible assumption
    | exact within_of rfl hT
    | with_reducible intro _
    | with_reducible apply modPart_keeps
    | with_reducible apply modStep_keeps
    | with_reducible apply partStateEvent_keeps
    | with_reducible apply clearKnots_keeps
    | with_reducible apply resetEnd_keeps
    | with_reducible apply stopStep_keeps
    | (have x : True := trivial
       extract_lets +onlyGivenNames x
       first
       | ((first
           | (have z := x; guard_hyp z : State; clear z; refine keeps_via (x := x) ?_ (fun hx => ?_))
           | (have z := x.2; guard_hyp z : State; clear z; refine keeps_via (x := x.2) ?_ (fun hx => ?_))
           | (have z := x.2.2; guard_hyp z : State; clear z; refine keeps_via (x := x.2.2) ?_ (fun hx => ?_))
           | (have z := x.1; guard_hyp z : State; clear z; refine keeps_via (x := x.1) ?_ (fun hx => ?_)))
          rotate_left
          try clear_value x
          rotate_right
          dsimp -zeta only [x])
       | (fail_if_success (have z := x; guard_hyp z : True)
          try clear_value x))
    | ((with_reducible refine keeps_mk rfl ?_); first | with_reducible assumption | exact within_of rfl hT | (with_reducible apply modPart_keeps) | (with_reducible apply modStep_keeps) | (with_reducible apply partStateEvent_keeps) | (with_reducible apply clearKnots_keeps) | (with_reducible apply resetEnd_keeps) | (with_reducible apply stopStep_keeps) | split | dsimp -zeta only)
    | split
    | dsimp -zeta only

theorem beginDestroy_keeps {p : Nat} (hK : Keeps kc kn F old s) (hT : Within 11540750334 F := by exact within_of rfl (by assumption)) :
    Keeps kc kn F old (State.beginDestroy s p) := by
  unfold State.beginDestroy
  repeat' first
    | with_reducible assumption
    | exact within_of rfl hT
    | with_reducible apply clearKnots_keeps
    | with_reducible apply startWhip_keeps
    | with_reducible apply stopStep_keeps
    | (have x : True := trivial
       extract_lets +onlyGivenNames x
       first
       | ((first
           | (have z := x; guard_hyp z : State; clear z; refine keeps_via (x := x) ?_ (fun hx => ?_))
           | (have z := x.2; guard_hyp z : State; clear z; refine keeps_via (x := x.2) ?_ (fun hx => ?_))
           | (have z := x.2.2; guard_hyp z : State; clear z; refine keeps_via (x := x.2.2) ?_ (fun hx => ?_))
           | (have z := x.1; guard_hyp z : State; clear z; refine keeps_via (x := x.1) ?_ (fun hx => ?_)))
          rotate_left
          try clear_value x
          rotate_right
          dsimp -zeta only [x])
       | (fail_if_success (have z := x; guard_hyp z : True)
          try clear_value x))
    | split
    | dsimp -zeta only

theorem markLined_keeps {st : Nat} {e : QEntry} (hK : Keeps kc kn F old s) (hT : Within 32 F := by exact within_of rfl (by assumption)) :
    Keeps kc kn F old (State.markLined s st e) := by
  unfold State.markLined
  repeat' first
    | with_reducible assumption
    | exact within_of rfl hT
    | with_reducible intro _
    | with_reducible apply modStrand_keeps
    | ((with_reducible refine keeps_mk rfl ?_); first | with_reducible assumption | exact within_of rfl hT | (with_reducible apply modStrand_keeps) | split | dsimp only)
    | split
    | dsimp only

theorem completeEntry_keeps {p st : Nat} {e : QEntry} {status : Nat} (hK : Keeps kc kn F old s) (hT : Within 11540750334 F := by exact within_of rfl (by assumption)) :
    Keeps kc kn F old (State.completeEntry s p st e status) := by
  unfold State.completeEntry
  repeat' first
    | with_reducible assumption
    | exact within_of rfl hT
    | with_reducible intro _
    | with_reducible apply inc_keeps
    | with_reducible apply modStrand_keeps
    | with_reducible apply markHead_keeps
    | with_reducible apply noteHeld_keeps
    | with_reducible apply complete_keeps
    | with_reducible apply cropComplete_keeps
    | with_reducible apply stopDone_keeps
    | with_reducible apply markLined_keeps
    | (have x : True := trivial
       extract_lets +onlyGivenNames x
       first
       | ((first
           | (have z := x; guard_hyp z : State; clear z; refine keeps_via (x := x) ?_ (fun hx => ?_))
           | (have z := x.2; guard_hyp z : State; clear z; refine keeps_via (x := x.2) ?_ (fun hx => ?_))
           | (have z := x.2.2; guard_hyp z : State; clear z; refine keeps_via (x := x.2.2) ?_ (fun hx => ?_))
           | (have z := x.1; guard_hyp z : State; clear z; refine keeps_via (x := x.1) ?_ (fun hx => ?_)))
          rotate_left
          try clear_value x
          rotate_right
          dsimp -zeta only [x])
       | (fail_if_success (have z := x; guard_hyp z : True)
          try clear_value x))
    | ((with_reducible refine keeps_mk rfl ?_); first | with_reducible assumption | exact within_of rfl hT | (with_reducible apply inc_keeps) | (with_reducible apply modStrand_keeps) | (with_reducible apply markHead_keeps) | (with_reducible apply noteHeld_keeps) | (with_reducible apply complete_keeps) | (with_reducible apply cropComplete_keeps) | (with_reducible apply stopDone_keeps) | (with_reducible apply markLined_keeps) | split | dsimp -zeta only)
    | split
    | dsimp -zeta only

theorem pairMismatch_keeps {p st st2 : Nat} {e f : QEntry} (hK : Keeps kc kn F old s) (hT : Within 10737451300 F := by exact within_of rfl (by assumption)) :
    Keeps kc kn F old (State.pairMismatch s p st st2 e f) := by
  unfold State.pairMismatch
  repeat' first
    | with_reducible assumption
    | exact within_of rfl hT
    | with_reducible apply inc_keeps
    | with_reducible apply fsr_keeps
    | with_reducible apply scoreRise_keeps
    | (have x : True := trivial
       extract_lets +onlyGivenNames x
       first
       | ((first
           | (have z := x; guard_hyp z : State; clear z; refine keeps_via (x := x) ?_ (fun hx => ?_))
           | (have z := x.2; guard_hyp z : State; clear z; refine keeps_via (x := x.2) ?_ (fun hx => ?_))
           | (have z := x.2.2; guard_hyp z : State; clear z; refine keeps_via (x := x.2.2) ?_ (fun hx => ?_))
           | (have z := x.1; guard_hyp z : State; clear z; refine keeps_via (x := x.1) ?_ (fun hx => ?_)))
          rotate_left
          try clear_value x
          rotate_right
          dsimp -zeta only [x])
       | (fail_if_success (have z := x; guard_hyp z : True)
          try clear_value x))
    | ((with_reducible refine keeps_mk rfl ?_); first | with_reducible assumption | exact within_of rfl hT | (with_reducible apply inc_keeps) | (with_reducible apply fsr_keeps) | (with_reducible apply scoreRise_keeps) | split | dsimp -zeta only)
    | with_reducible refine keeps_fst (by with_reducible assumption) ?_
    | with_reducible refine keeps_snd (by with_reducible assumption) ?_
    | with_reducible refine keeps_thd (by with_reducible assumption) ?_
    | split
    | dsimp -zeta only

theorem completePair_keeps {p st st2 : Nat} {e f : QEntry} {a b : Nat} (hK : Keeps kc kn F old s) (hT : Within 11540750334 F := by exact within_of rfl (by assumption)) :
    Keeps kc kn F old (State.completePair s p st st2 e f a b) := by
  unfold State.completePair
  repeat' first
    | with_reducible assumption
    | exact within_of rfl hT
    | with_reducible apply completeEntry_keeps
    | with_reducible apply pairMismatch_keeps
    | (have x : True := trivial
       extract_lets +onlyGivenNames x
       first
       | ((first
           | (have z := x; guard_hyp z : State; clear z; refine keeps_via (x := x) ?_ (fun hx => ?_))
           | (have z := x.2; guard_hyp z : State; clear z; refine keeps_via (x := x.2) ?_ (fun hx => ?_))
           | (have z := x.2.2; guard_hyp z : State; clear z; refine keeps_via (x := x.2.2) ?_ (fun hx => ?_))
           | (have z := x.1; guard_hyp z : State; clear z; refine keeps_via (x := x.1) ?_ (fun hx => ?_)))
          rotate_left
          try clear_value x
          rotate_right
          dsimp -zeta only [x])
       | (fail_if_success (have z := x; guard_hyp z : True)
          try clear_value x))
    | split
    | dsimp -zeta only

theorem conservationFault_keeps {part : Option Nat} {quantity inst : Nat} (hK : Keeps kc kn F old s) (hT : Within 10737451268 F := by exact within_of rfl (by assumption)) :
    Keeps kc kn F old (State.conservationFault s part quantity inst) := by
  unfold State.conservationFault
  repeat' first
    | with_reducible assumption
    | exact within_of rfl hT
    | with_reducible apply eventC_keeps
    | with_reducible apply fsr_keeps
    | (have x : True := trivial
       extract_lets +onlyGivenNames x
       first
       | ((first
           | (have z := x; guard_hyp z : State; clear z; refine keeps_via (x := x) ?_ (fun hx => ?_))
           | (have z := x.2; guard_hyp z : State; clear z; refine keeps_via (x := x.2) ?_ (fun hx => ?_))
           | (have z := x.2.2; guard_hyp z : State; clear z; refine keeps_via (x := x.2.2) ?_ (fun hx => ?_))
           | (have z := x.1; guard_hyp z : State; clear z; refine keeps_via (x := x.1) ?_ (fun hx => ?_)))
          rotate_left
          try clear_value x
          rotate_right
          dsimp -zeta only [x])
       | (fail_if_success (have z := x; guard_hyp z : True)
          try clear_value x))
    | ((with_reducible refine keeps_mk rfl ?_); first | with_reducible assumption | exact within_of rfl hT | (with_reducible apply eventC_keeps) | (with_reducible apply fsr_keeps) | split | dsimp -zeta only)
    | dsimp -zeta only

theorem audit_keeps {part : Option Nat} {quantity inst : Nat} {holds : Bool} (hK : Keeps kc kn F old s) (hT : Within 10737451268 F := by exact within_of rfl (by assumption)) :
    Keeps kc kn F old (State.audit s part quantity inst holds) := by
  unfold State.audit
  repeat' first | with_reducible assumption | exact within_of rfl hT | with_reducible apply conservationFault_keeps | split | dsimp only

theorem auditCredits_keeps (hK : Keeps kc kn F old s) (hT : Within 10737451268 F := by exact within_of rfl (by assumption)) :
    Keeps kc kn F old (State.auditCredits s) := by
  unfold State.auditCredits
  repeat' first
    | with_reducible assumption
    | exact within_of rfl hT
    | with_reducible intro _
    | with_reducible apply audit_keeps
    | with_reducible apply foldS_keeps
    | dsimp only

theorem auditBight_keeps {dies : List Nat} (hK : Keeps kc kn F old s) (hT : Within 10737451268 F := by exact within_of rfl (by assumption)) :
    Keeps kc kn F old (State.auditBight s dies) := by
  unfold State.auditBight
  repeat' first
    | with_reducible assumption
    | exact within_of rfl hT
    | with_reducible intro _
    | with_reducible apply audit_keeps
    | with_reducible apply foldS_keeps
    | dsimp only

theorem auditRegions_keeps {ps : List Nat} (hK : Keeps kc kn F old s) (hT : Within 10737451268 F := by exact within_of rfl (by assumption)) :
    Keeps kc kn F old (State.auditRegions s ps) := by
  unfold State.auditRegions
  repeat' first
    | with_reducible assumption
    | exact within_of rfl hT
    | with_reducible intro _
    | with_reducible apply audit_keeps
    | with_reducible apply foldS_keeps
    | dsimp only

theorem auditPages_keeps {ps : List Nat} (hK : Keeps kc kn F old s) (hT : Within 10737451268 F := by exact within_of rfl (by assumption)) :
    Keeps kc kn F old (State.auditPages s ps) := by
  unfold State.auditPages
  repeat' first
    | with_reducible assumption
    | exact within_of rfl hT
    | with_reducible intro _
    | with_reducible apply audit_keeps
    | with_reducible apply foldS_keeps
    | (have x : True := trivial
       extract_lets +onlyGivenNames x
       first
       | ((first
           | (have z := x; guard_hyp z : State; clear z; refine keeps_via (x := x) ?_ (fun hx => ?_))
           | (have z := x.2; guard_hyp z : State; clear z; refine keeps_via (x := x.2) ?_ (fun hx => ?_))
           | (have z := x.2.2; guard_hyp z : State; clear z; refine keeps_via (x := x.2.2) ?_ (fun hx => ?_))
           | (have z := x.1; guard_hyp z : State; clear z; refine keeps_via (x := x.1) ?_ (fun hx => ?_)))
          rotate_left
          try clear_value x
          rotate_right
          dsimp -zeta only [x])
       | (fail_if_success (have z := x; guard_hyp z : True)
          try clear_value x))
    | dsimp -zeta only

theorem auditAccounts_keeps {f : Account → Bool} (hK : Keeps kc kn F old s) (hT : Within 10737451268 F := by exact within_of rfl (by assumption)) :
    Keeps kc kn F old (State.auditAccounts s f) := by
  unfold State.auditAccounts
  repeat' first
    | with_reducible assumption
    | exact within_of rfl hT
    | with_reducible intro _
    | with_reducible apply audit_keeps
    | with_reducible apply foldS_keeps
    | (have x : True := trivial
       extract_lets +onlyGivenNames x
       first
       | ((first
           | (have z := x; guard_hyp z : State; clear z; refine keeps_via (x := x) ?_ (fun hx => ?_))
           | (have z := x.2; guard_hyp z : State; clear z; refine keeps_via (x := x.2) ?_ (fun hx => ?_))
           | (have z := x.2.2; guard_hyp z : State; clear z; refine keeps_via (x := x.2.2) ?_ (fun hx => ?_))
           | (have z := x.1; guard_hyp z : State; clear z; refine keeps_via (x := x.1) ?_ (fun hx => ?_)))
          rotate_left
          try clear_value x
          rotate_right
          dsimp -zeta only [x])
       | (fail_if_success (have z := x; guard_hyp z : True)
          try clear_value x))
    | split
    | dsimp -zeta only

theorem auditReserved_keeps {ps : List Nat} (hK : Keeps kc kn F old s) (hT : Within 10737451268 F := by exact within_of rfl (by assumption)) :
    Keeps kc kn F old (State.auditReserved s ps) := by
  unfold State.auditReserved
  repeat' first
    | with_reducible assumption
    | exact within_of rfl hT
    | with_reducible intro _
    | with_reducible apply audit_keeps
    | with_reducible apply foldS_keeps
    | (have x : True := trivial
       extract_lets +onlyGivenNames x
       first
       | ((first
           | (have z := x; guard_hyp z : State; clear z; refine keeps_via (x := x) ?_ (fun hx => ?_))
           | (have z := x.2; guard_hyp z : State; clear z; refine keeps_via (x := x.2) ?_ (fun hx => ?_))
           | (have z := x.2.2; guard_hyp z : State; clear z; refine keeps_via (x := x.2.2) ?_ (fun hx => ?_))
           | (have z := x.1; guard_hyp z : State; clear z; refine keeps_via (x := x.1) ?_ (fun hx => ?_)))
          rotate_left
          try clear_value x
          rotate_right
          dsimp -zeta only [x])
       | (fail_if_success (have z := x; guard_hyp z : True)
          try clear_value x))
    | dsimp -zeta only

theorem auditReels_keeps {f : Option Nat → Bool} (hK : Keeps kc kn F old s) (hT : Within 10737451268 F := by exact within_of rfl (by assumption)) :
    Keeps kc kn F old (State.auditReels s f) := by
  unfold State.auditReels
  repeat' first
    | with_reducible assumption
    | exact within_of rfl hT
    | with_reducible intro _
    | with_reducible apply audit_keeps
    | with_reducible apply foldS_keeps
    | (have x : True := trivial
       extract_lets +onlyGivenNames x
       first
       | ((first
           | (have z := x; guard_hyp z : State; clear z; refine keeps_via (x := x) ?_ (fun hx => ?_))
           | (have z := x.2; guard_hyp z : State; clear z; refine keeps_via (x := x.2) ?_ (fun hx => ?_))
           | (have z := x.2.2; guard_hyp z : State; clear z; refine keeps_via (x := x.2.2) ?_ (fun hx => ?_))
           | (have z := x.1; guard_hyp z : State; clear z; refine keeps_via (x := x.1) ?_ (fun hx => ?_)))
          rotate_left
          try clear_value x
          rotate_right
          dsimp -zeta only [x])
       | (fail_if_success (have z := x; guard_hyp z : True)
          try clear_value x))
    | ((with_reducible refine keeps_mk rfl ?_); first | with_reducible assumption | exact within_of rfl hT | (with_reducible apply audit_keeps) | with_reducible apply foldS_keeps | split | dsimp -zeta only)
    | with_reducible refine keeps_fst (by with_reducible assumption) ?_
    | with_reducible refine keeps_snd (by with_reducible assumption) ?_
    | with_reducible refine keeps_thd (by with_reducible assumption) ?_
    | split
    | dsimp -zeta only

theorem auditTotals_keeps (hK : Keeps kc kn F old s) (hT : Within 10737451268 F := by exact within_of rfl (by assumption)) :
    Keeps kc kn F old (State.auditTotals s) := by
  unfold State.auditTotals
  repeat' first
    | with_reducible assumption
    | exact within_of rfl hT
    | with_reducible intro _
    | with_reducible apply audit_keeps
    | (have x : True := trivial
       extract_lets +onlyGivenNames x
       first
       | ((first
           | (have z := x; guard_hyp z : State; clear z; refine keeps_via (x := x) ?_ (fun hx => ?_))
           | (have z := x.2; guard_hyp z : State; clear z; refine keeps_via (x := x.2) ?_ (fun hx => ?_))
           | (have z := x.2.2; guard_hyp z : State; clear z; refine keeps_via (x := x.2.2) ?_ (fun hx => ?_))
           | (have z := x.1; guard_hyp z : State; clear z; refine keeps_via (x := x.1) ?_ (fun hx => ?_)))
          rotate_left
          try clear_value x
          rotate_right
          dsimp -zeta only [x])
       | (fail_if_success (have z := x; guard_hyp z : True)
          try clear_value x))
    | dsimp -zeta only

theorem conservation_keeps (hK : Keeps kc kn F old s) (hT : Within 10737451268 F := by exact within_of rfl (by assumption)) :
    Keeps kc kn F old (State.conservation s) := by
  unfold State.conservation
  repeat' first
    | with_reducible assumption
    | exact within_of rfl hT
    | with_reducible intro _
    | with_reducible apply auditCredits_keeps
    | with_reducible apply auditBight_keeps
    | with_reducible apply auditRegions_keeps
    | with_reducible apply auditPages_keeps
    | with_reducible apply auditAccounts_keeps
    | with_reducible apply auditReserved_keeps
    | with_reducible apply auditReels_keeps
    | with_reducible apply auditTotals_keeps
    | (have x : True := trivial
       extract_lets +onlyGivenNames x
       first
       | ((first
           | (have z := x; guard_hyp z : State; clear z; refine keeps_via (x := x) ?_ (fun hx => ?_))
           | (have z := x.2; guard_hyp z : State; clear z; refine keeps_via (x := x.2) ?_ (fun hx => ?_))
           | (have z := x.2.2; guard_hyp z : State; clear z; refine keeps_via (x := x.2.2) ?_ (fun hx => ?_))
           | (have z := x.1; guard_hyp z : State; clear z; refine keeps_via (x := x.1) ?_ (fun hx => ?_)))
          rotate_left
          try clear_value x
          rotate_right
          dsimp -zeta only [x])
       | (fail_if_success (have z := x; guard_hyp z : True)
          try clear_value x))
    | dsimp -zeta only

theorem commitActions_keeps {p : Nat} {bad : List (Nat × Nat)} (hK : Keeps kc kn F old s) (hT : Within 11909849006 F := by exact within_of rfl (by assumption)) :
    Keeps kc kn F old (State.commitActions s p bad) := by
  unfold State.commitActions
  repeat' first
    | with_reducible assumption
    | exact within_of rfl hT
    | with_reducible apply kvCommit_keeps
    | with_reducible apply commitPrefill_keeps
    | with_reducible apply commitReels_keeps
    | with_reducible apply commitBudgets_keeps
    | with_reducible apply clearRx_keeps
    | with_reducible apply commitReleases_keeps
    | (have x : True := trivial
       extract_lets +onlyGivenNames x
       first
       | ((first
           | (have z := x; guard_hyp z : State; clear z; refine keeps_via (x := x) ?_ (fun hx => ?_))
           | (have z := x.2; guard_hyp z : State; clear z; refine keeps_via (x := x.2) ?_ (fun hx => ?_))
           | (have z := x.2.2; guard_hyp z : State; clear z; refine keeps_via (x := x.2.2) ?_ (fun hx => ?_))
           | (have z := x.1; guard_hyp z : State; clear z; refine keeps_via (x := x.1) ?_ (fun hx => ?_)))
          rotate_left
          try clear_value x
          rotate_right
          dsimp -zeta only [x])
       | ((first
           | (have z := x; guard_hyp z : Security)
           | (have z := x; guard_hyp z : Lease))
          dsimp -zeta only [x])
       | (fail_if_success (have z := x; guard_hyp z : True)
          try clear_value x))
    | dsimp -zeta only

theorem commitEnd_keeps {p : Nat} (hK : Keeps kc false F old s) (hT : Within 12614492158 F := by exact within_of rfl (by assumption)) :
    Keeps kc false F old (State.commitEnd s p) := by
  unfold State.commitEnd
  repeat' first
    | with_reducible assumption
    | exact within_of rfl hT
    | with_reducible intro _
    | with_reducible apply setReg_keeps
    | with_reducible apply raiseReg_keeps
    | with_reducible apply modStep_keeps
    | with_reducible apply takeAvail_keeps
    | with_reducible apply lateRefill_keeps
    | with_reducible apply journalRecord_keeps
    | with_reducible apply latePauses_keeps
    | with_reducible apply endBatch_keeps
    | with_reducible apply dispatchRunEnd_keeps
    | with_reducible apply takeMode_keeps
    | with_reducible apply lateSwitch_keeps
    | with_reducible apply beginReset_keeps
    | with_reducible apply beginDestroy_keeps
    | with_reducible apply conservation_keeps
    | with_reducible apply foldS_keeps
    | (have x : True := trivial
       extract_lets +onlyGivenNames x
       first
       | ((first
           | (have z := x; guard_hyp z : State; clear z; refine keeps_via (x := x) ?_ (fun hx => ?_))
           | (have z := x.2; guard_hyp z : State; clear z; refine keeps_via (x := x.2) ?_ (fun hx => ?_))
           | (have z := x.2.2; guard_hyp z : State; clear z; refine keeps_via (x := x.2.2) ?_ (fun hx => ?_))
           | (have z := x.1; guard_hyp z : State; clear z; refine keeps_via (x := x.1) ?_ (fun hx => ?_)))
          rotate_left
          try clear_value x
          rotate_right
          dsimp -zeta only [x])
       | ((first
           | (have z := x; guard_hyp z : Security)
           | (have z := x; guard_hyp z : Lease))
          dsimp -zeta only [x])
       | (fail_if_success (have z := x; guard_hyp z : True)
          try clear_value x))
    | ((with_reducible refine keeps_mk rfl ?_); first | with_reducible assumption | exact within_of rfl hT | (with_reducible apply setReg_keeps) | (with_reducible apply raiseReg_keeps) | (with_reducible apply modStep_keeps) | (with_reducible apply takeAvail_keeps) | (with_reducible apply lateRefill_keeps) | (with_reducible apply journalRecord_keeps) | (with_reducible apply latePauses_keeps) | (with_reducible apply endBatch_keeps) | (with_reducible apply dispatchRunEnd_keeps) | (with_reducible apply takeMode_keeps) | (with_reducible apply lateSwitch_keeps) | (with_reducible apply beginReset_keeps) | (with_reducible apply beginDestroy_keeps) | (with_reducible apply conservation_keeps) | with_reducible apply foldS_keeps | split | dsimp -zeta only)
    | split
    | exact fun h => absurd h Bool.false_ne_true
    | exact absurd ‹false = true› Bool.false_ne_true
    | dsimp -zeta only

theorem abandoned_keeps {p : Nat} (hK : Keeps kc kn F old s) (hT : Within 10852884462 F := by exact within_of rfl (by assumption)) :
    Keeps kc kn F old (State.abandoned s p) := by
  unfold State.abandoned
  repeat' first
    | with_reducible assumption
    | exact within_of rfl hT
    | with_reducible intro _
    | with_reducible apply modStep_keeps
    | with_reducible apply takeMode_keeps
    | with_reducible apply settle_keeps
    | with_reducible apply lateSwitch_keeps
    | ((with_reducible refine keeps_mk rfl ?_); first | with_reducible assumption | exact within_of rfl hT | (with_reducible apply modStep_keeps) | (with_reducible apply takeMode_keeps) | (with_reducible apply settle_keeps) | (with_reducible apply lateSwitch_keeps) | split | dsimp only)
    | dsimp only

theorem replay_keeps {p : Nat} (hK : Keeps kc kn F old s) (hT : Within 148898276 F := by exact within_of rfl (by assumption)) :
    Keeps kc kn F old (State.replay s p) := by
  unfold State.replay
  repeat' first
    | with_reducible assumption
    | exact within_of rfl hT
    | with_reducible intro _
    | with_reducible apply inc_keeps
    | with_reducible apply modStep_keeps
    | with_reducible apply clearKnots_keeps
    | with_reducible apply freePending_keeps
    | with_reducible apply lateRefill_keeps
    | with_reducible apply discardStage_keeps
    | with_reducible apply dispatchRunEnd_keeps
    | with_reducible apply beginRun_keeps
    | with_reducible apply foldS_keeps
    | (have x : True := trivial
       extract_lets +onlyGivenNames x
       first
       | ((first
           | (have z := x; guard_hyp z : State; clear z; refine keeps_via (x := x) ?_ (fun hx => ?_))
           | (have z := x.2; guard_hyp z : State; clear z; refine keeps_via (x := x.2) ?_ (fun hx => ?_))
           | (have z := x.2.2; guard_hyp z : State; clear z; refine keeps_via (x := x.2.2) ?_ (fun hx => ?_))
           | (have z := x.1; guard_hyp z : State; clear z; refine keeps_via (x := x.1) ?_ (fun hx => ?_)))
          rotate_left
          try clear_value x
          rotate_right
          dsimp -zeta only [x])
       | ((first
           | (have z := x; guard_hyp z : Security)
           | (have z := x; guard_hyp z : Lease))
          dsimp -zeta only [x])
       | (fail_if_success (have z := x; guard_hyp z : True)
          try clear_value x))
    | ((with_reducible refine keeps_mk rfl ?_); first | with_reducible assumption | exact within_of rfl hT | (with_reducible apply inc_keeps) | (with_reducible apply modStep_keeps) | (with_reducible apply clearKnots_keeps) | (with_reducible apply freePending_keeps) | (with_reducible apply lateRefill_keeps) | (with_reducible apply discardStage_keeps) | (with_reducible apply dispatchRunEnd_keeps) | (with_reducible apply beginRun_keeps) | with_reducible apply foldS_keeps | split | dsimp -zeta only)
    | dsimp -zeta only

theorem giveUp_keeps {p status : Nat} (hK : Keeps kc kn F old s) (hT : Within 11926626286 F := by exact within_of rfl (by assumption)) :
    Keeps kc kn F old (State.giveUp s p status) := by
  unfold State.giveUp
  repeat' first
    | with_reducible assumption
    | exact within_of rfl hT
    | with_reducible apply inc_keeps
    | with_reducible apply fsr_keeps
    | with_reducible apply faultBatch_keeps
    | with_reducible apply abandoned_keeps
    | (have x : True := trivial
       extract_lets +onlyGivenNames x
       first
       | ((first
           | (have z := x; guard_hyp z : State; clear z; refine keeps_via (x := x) ?_ (fun hx => ?_))
           | (have z := x.2; guard_hyp z : State; clear z; refine keeps_via (x := x.2) ?_ (fun hx => ?_))
           | (have z := x.2.2; guard_hyp z : State; clear z; refine keeps_via (x := x.2.2) ?_ (fun hx => ?_))
           | (have z := x.1; guard_hyp z : State; clear z; refine keeps_via (x := x.1) ?_ (fun hx => ?_)))
          rotate_left
          try clear_value x
          rotate_right
          dsimp -zeta only [x])
       | (fail_if_success (have z := x; guard_hyp z : True)
          try clear_value x))
    | ((with_reducible refine keeps_mk rfl ?_); first | with_reducible assumption | exact within_of rfl hT | (with_reducible apply inc_keeps) | (with_reducible apply fsr_keeps) | (with_reducible apply faultBatch_keeps) | (with_reducible apply abandoned_keeps) | split | dsimp -zeta only)
    | dsimp -zeta only

theorem execGo_keeps {h : CmdHdr} {hank : Fin 16} (hK : Keeps kc kn F old s) (hT : Within 10852884463 F := by exact within_of rfl (by assumption)) :
    NextKeeps kc kn F old (execGo h hank s) := by
  unfold execGo
  repeat' first
    | with_reducible assumption
    | with_reducible apply next_keeps
    | with_reducible exact fault_keeps
    | exact within_of rfl hT
    | with_reducible intro _
    | with_reducible apply ans_keeps
    | with_reducible apply regCommand_keeps
    | with_reducible apply hnkCtrlWrite_keeps
    | ((with_reducible refine keeps_mk rfl ?_); first | with_reducible assumption | exact within_of rfl hT | (with_reducible apply ans_keeps) | (with_reducible apply regCommand_keeps) | (with_reducible apply hnkCtrlWrite_keeps) | split | dsimp only)
    | with_reducible refine keeps_fst (by with_reducible assumption) ?_
    | with_reducible refine keeps_snd (by with_reducible assumption) ?_
    | with_reducible refine keeps_thd (by with_reducible assumption) ?_
    | split
    | dsimp only

theorem execClrAbandon_keeps {h : CmdHdr} {hank : Fin 16} (hK : Keeps kc kn F old s) (hT : Within 10852884463 F := by exact within_of rfl (by assumption)) :
    NextKeeps kc kn F old (execClrAbandon h hank s) := by
  unfold execClrAbandon
  repeat' first
    | with_reducible assumption
    | with_reducible apply next_keeps
    | with_reducible exact fault_keeps
    | exact within_of rfl hT
    | with_reducible intro _
    | with_reducible apply ans_keeps
    | with_reducible apply regCommand_keeps
    | with_reducible apply hnkCtrlWrite_keeps
    | ((with_reducible refine keeps_mk rfl ?_); first | with_reducible assumption | exact within_of rfl hT | (with_reducible apply ans_keeps) | (with_reducible apply regCommand_keeps) | (with_reducible apply hnkCtrlWrite_keeps) | split | dsimp only)
    | with_reducible refine keeps_fst (by with_reducible assumption) ?_
    | with_reducible refine keeps_snd (by with_reducible assumption) ?_
    | with_reducible refine keeps_thd (by with_reducible assumption) ?_
    | split
    | dsimp only

theorem execMode_keeps {h : CmdHdr} {hank : Fin 16} {m : BitVec 2} (hK : Keeps kc kn F old s) (hT : Within 10852884463 F := by exact within_of rfl (by assumption)) :
    NextKeeps kc kn F old (execMode h hank m s) := by
  unfold execMode
  repeat' first
    | with_reducible assumption
    | with_reducible apply next_keeps
    | with_reducible exact fault_keeps
    | exact within_of rfl hT
    | with_reducible intro _
    | with_reducible apply ans_keeps
    | with_reducible apply regCommand_keeps
    | with_reducible apply hnkCtrlWrite_keeps
    | ((with_reducible refine keeps_mk rfl ?_); first | with_reducible assumption | exact within_of rfl hT | (with_reducible apply ans_keeps) | (with_reducible apply regCommand_keeps) | (with_reducible apply hnkCtrlWrite_keeps) | split | dsimp only)
    | with_reducible refine keeps_fst (by with_reducible assumption) ?_
    | with_reducible refine keeps_snd (by with_reducible assumption) ?_
    | with_reducible refine keeps_thd (by with_reducible assumption) ?_
    | split
    | dsimp only

theorem execStepRun_keeps {h : CmdHdr} {part : Nat} {mode : BitVec 2} {go : Bool} (hK : Keeps kc kn F old s) (hT : Within 10852884463 F := by exact within_of rfl (by assumption)) :
    NextKeeps kc kn F old (execStepRun h part mode go s) := by
  unfold execStepRun
  repeat' first
    | with_reducible assumption
    | with_reducible apply next_keeps
    | with_reducible exact fault_keeps
    | exact within_of rfl hT
    | with_reducible intro _
    | with_reducible apply command_keeps
    | with_reducible apply ans_keeps
    | with_reducible apply hnkCtrlWrite_keeps
    | (have x : True := trivial
       extract_lets +onlyGivenNames x
       first
       | ((first
           | (have z := x; guard_hyp z : State; clear z; refine keeps_via (x := x) ?_ (fun hx => ?_))
           | (have z := x; guard_hyp z : State; clear z; refine next_via (x := x) ?_ (fun hx => ?_))
           | (have z := x.2; guard_hyp z : State; clear z; refine keeps_via (x := x.2) ?_ (fun hx => ?_))
           | (have z := x.2; guard_hyp z : State; clear z; refine next_via (x := x.2) ?_ (fun hx => ?_))
           | (have z := x.2.2; guard_hyp z : State; clear z; refine keeps_via (x := x.2.2) ?_ (fun hx => ?_))
           | (have z := x.2.2; guard_hyp z : State; clear z; refine next_via (x := x.2.2) ?_ (fun hx => ?_))
           | (have z := x.1; guard_hyp z : State; clear z; refine keeps_via (x := x.1) ?_ (fun hx => ?_))
           | (have z := x.1; guard_hyp z : State; clear z; refine next_via (x := x.1) ?_ (fun hx => ?_)))
          rotate_left
          try clear_value x
          rotate_right
          dsimp -zeta only [x])
       | (fail_if_success (have z := x; guard_hyp z : True)
          try clear_value x))
    | split
    | dsimp -zeta only

theorem execStepStart_keeps {p : Fin 16} {t : Nat} (hK : Keeps kc kn F old s) (hT : Within 12023089071 F := by exact within_of rfl (by assumption)) :
    NextKeeps kc kn F old (execStepStart p t s) := by
  unfold execStepStart
  repeat' first
    | with_reducible assumption
    | with_reducible apply next_keeps
    | with_reducible exact fault_keeps
    | exact within_of rfl hT
    | with_reducible intro _
    | with_reducible apply tick_keeps
    | with_reducible apply modHank_keeps
    | with_reducible apply modStep_keeps
    | with_reducible apply modJournal_keeps
    | with_reducible apply reach_keeps
    | with_reducible apply running_keeps
    | with_reducible apply dispatchStart_keeps
    | with_reducible apply beginRun_keeps
    | with_reducible apply foldS_keeps
    | (have x : True := trivial
       extract_lets +onlyGivenNames x
       first
       | ((first
           | (have z := x; guard_hyp z : State; clear z; refine keeps_via (x := x) ?_ (fun hx => ?_))
           | (have z := x; guard_hyp z : State; clear z; refine next_via (x := x) ?_ (fun hx => ?_))
           | (have z := x.2; guard_hyp z : State; clear z; refine keeps_via (x := x.2) ?_ (fun hx => ?_))
           | (have z := x.2; guard_hyp z : State; clear z; refine next_via (x := x.2) ?_ (fun hx => ?_))
           | (have z := x.2.2; guard_hyp z : State; clear z; refine keeps_via (x := x.2.2) ?_ (fun hx => ?_))
           | (have z := x.2.2; guard_hyp z : State; clear z; refine next_via (x := x.2.2) ?_ (fun hx => ?_))
           | (have z := x.1; guard_hyp z : State; clear z; refine keeps_via (x := x.1) ?_ (fun hx => ?_))
           | (have z := x.1; guard_hyp z : State; clear z; refine next_via (x := x.1) ?_ (fun hx => ?_)))
          rotate_left
          try clear_value x
          rotate_right
          dsimp -zeta only [x])
       | ((first
           | (have z := x; guard_hyp z : Security)
           | (have z := x; guard_hyp z : Lease))
          dsimp -zeta only [x])
       | (fail_if_success (have z := x; guard_hyp z : True)
          try clear_value x))
    | ((with_reducible refine keeps_mk rfl ?_); first | with_reducible assumption | exact within_of rfl hT | (with_reducible apply tick_keeps) | (with_reducible apply modHank_keeps) | (with_reducible apply modStep_keeps) | (with_reducible apply modJournal_keeps) | (with_reducible apply reach_keeps) | (with_reducible apply running_keeps) | (with_reducible apply dispatchStart_keeps) | (with_reducible apply beginRun_keeps) | with_reducible apply foldS_keeps | split | dsimp -zeta only)
    | split
    | dsimp -zeta only

theorem execPositionSwitch_keeps {g : Fin 16} {row : StrandTurn} {t : Nat} (hK : Keeps kc kn F old s) (hT : Within 10947256239 F := by exact within_of rfl (by assumption)) :
    NextKeeps kc kn F old (execPositionSwitch g row t s) := by
  unfold execPositionSwitch
  repeat' first
    | with_reducible assumption
    | with_reducible apply next_keeps
    | with_reducible exact fault_keeps
    | exact within_of rfl hT
    | with_reducible intro _
    | with_reducible apply tick_keeps
    | with_reducible apply restore_keeps
    | with_reducible apply leaveStrand_keeps
    | with_reducible apply takeStrand_keeps
    | (have x : True := trivial
       extract_lets +onlyGivenNames x
       first
       | ((first
           | (have z := x; guard_hyp z : State; clear z; refine keeps_via (x := x) ?_ (fun hx => ?_))
           | (have z := x; guard_hyp z : State; clear z; refine next_via (x := x) ?_ (fun hx => ?_))
           | (have z := x.2; guard_hyp z : State; clear z; refine keeps_via (x := x.2) ?_ (fun hx => ?_))
           | (have z := x.2; guard_hyp z : State; clear z; refine next_via (x := x.2) ?_ (fun hx => ?_))
           | (have z := x.2.2; guard_hyp z : State; clear z; refine keeps_via (x := x.2.2) ?_ (fun hx => ?_))
           | (have z := x.2.2; guard_hyp z : State; clear z; refine next_via (x := x.2.2) ?_ (fun hx => ?_))
           | (have z := x.1; guard_hyp z : State; clear z; refine keeps_via (x := x.1) ?_ (fun hx => ?_))
           | (have z := x.1; guard_hyp z : State; clear z; refine next_via (x := x.1) ?_ (fun hx => ?_)))
          rotate_left
          try clear_value x
          rotate_right
          dsimp -zeta only [x])
       | (fail_if_success (have z := x; guard_hyp z : True)
          try clear_value x))
    | ((with_reducible refine keeps_mk rfl ?_); first | with_reducible assumption | exact within_of rfl hT | (with_reducible apply tick_keeps) | (with_reducible apply restore_keeps) | (with_reducible apply leaveStrand_keeps) | (with_reducible apply takeStrand_keeps) | split | dsimp -zeta only)
    | with_reducible refine keeps_fst (by with_reducible assumption) ?_
    | with_reducible refine keeps_snd (by with_reducible assumption) ?_
    | with_reducible refine keeps_thd (by with_reducible assumption) ?_
    | split
    | dsimp -zeta only

theorem execHitchFetch_keeps {g : Fin 16} {what : Fetch} {t : Nat} (hK : Keeps kc kn F old s) (hT : Within 10947256303 F := by exact within_of rfl (by assumption)) :
    NextKeeps kc kn F old (execHitchFetch g what t s) := by
  unfold execHitchFetch
  repeat' first
    | with_reducible assumption
    | with_reducible apply next_keeps
    | with_reducible exact fault_keeps
    | exact within_of rfl hT
    | with_reducible apply tick_keeps
    | with_reducible apply noteBack_keeps
    | with_reducible apply raise_keeps
    | with_reducible apply popHitch_keeps
    | with_reducible apply checkReady_keeps
    | with_reducible apply takeDescriptor_keeps
    | with_reducible apply takeSeeds_keeps
    | with_reducible apply takeHitch_keeps
    | (have x : True := trivial
       extract_lets +onlyGivenNames x
       first
       | ((first
           | (have z := x; guard_hyp z : State; clear z; refine keeps_via (x := x) ?_ (fun hx => ?_))
           | (have z := x; guard_hyp z : State; clear z; refine next_via (x := x) ?_ (fun hx => ?_))
           | (have z := x.2; guard_hyp z : State; clear z; refine keeps_via (x := x.2) ?_ (fun hx => ?_))
           | (have z := x.2; guard_hyp z : State; clear z; refine next_via (x := x.2) ?_ (fun hx => ?_))
           | (have z := x.2.2; guard_hyp z : State; clear z; refine keeps_via (x := x.2.2) ?_ (fun hx => ?_))
           | (have z := x.2.2; guard_hyp z : State; clear z; refine next_via (x := x.2.2) ?_ (fun hx => ?_))
           | (have z := x.1; guard_hyp z : State; clear z; refine keeps_via (x := x.1) ?_ (fun hx => ?_))
           | (have z := x.1; guard_hyp z : State; clear z; refine next_via (x := x.1) ?_ (fun hx => ?_)))
          rotate_left
          try clear_value x
          rotate_right
          dsimp -zeta only [x])
       | (fail_if_success (have z := x; guard_hyp z : True)
          try clear_value x))
    | ((with_reducible refine keeps_mk rfl ?_); first | with_reducible assumption | exact within_of rfl hT | (with_reducible apply tick_keeps) | (with_reducible apply noteBack_keeps) | (with_reducible apply raise_keeps) | (with_reducible apply popHitch_keeps) | (with_reducible apply checkReady_keeps) | (with_reducible apply takeDescriptor_keeps) | (with_reducible apply takeSeeds_keeps) | (with_reducible apply takeHitch_keeps) | split | dsimp -zeta only)
    | with_reducible refine keeps_fst (by with_reducible assumption) ?_
    | with_reducible refine keeps_snd (by with_reducible assumption) ?_
    | with_reducible refine keeps_thd (by with_reducible assumption) ?_
    | split
    | dsimp -zeta only

theorem execHitchEmit_keeps {g : Fin 16} {pos : Fin 8} {t : Nat} (hK : Keeps kc kn F old s) (hT : Within 134217893 F := by exact within_of rfl (by assumption)) :
    NextKeeps kc kn F old (execHitchEmit g pos t s) := by
  unfold execHitchEmit
  repeat' first
    | with_reducible assumption
    | with_reducible apply next_keeps
    | with_reducible exact fault_keeps
    | exact within_of rfl hT
    | with_reducible intro _
    | with_reducible apply tick_keeps
    | with_reducible apply modStrand_keeps
    | with_reducible apply modHank_keeps
    | with_reducible apply gate__keeps
    | with_reducible apply markHead_keeps
    | with_reducible apply noteBack_keeps
    | with_reducible apply noteHeld_keeps
    | with_reducible apply popHitch_keeps
    | (have x : True := trivial
       extract_lets +onlyGivenNames x
       first
       | ((first
           | (have z := x; guard_hyp z : State; clear z; refine keeps_via (x := x) ?_ (fun hx => ?_))
           | (have z := x; guard_hyp z : State; clear z; refine next_via (x := x) ?_ (fun hx => ?_))
           | (have z := x.2; guard_hyp z : State; clear z; refine keeps_via (x := x.2) ?_ (fun hx => ?_))
           | (have z := x.2; guard_hyp z : State; clear z; refine next_via (x := x.2) ?_ (fun hx => ?_))
           | (have z := x.2.2; guard_hyp z : State; clear z; refine keeps_via (x := x.2.2) ?_ (fun hx => ?_))
           | (have z := x.2.2; guard_hyp z : State; clear z; refine next_via (x := x.2.2) ?_ (fun hx => ?_))
           | (have z := x.1; guard_hyp z : State; clear z; refine keeps_via (x := x.1) ?_ (fun hx => ?_))
           | (have z := x.1; guard_hyp z : State; clear z; refine next_via (x := x.1) ?_ (fun hx => ?_)))
          rotate_left
          try clear_value x
          rotate_right
          dsimp -zeta only [x])
       | (fail_if_success (have z := x; guard_hyp z : True)
          try clear_value x))
    | ((with_reducible refine keeps_mk rfl ?_); first | with_reducible assumption | exact within_of rfl hT | (with_reducible apply tick_keeps) | (with_reducible apply modStrand_keeps) | (with_reducible apply modHank_keeps) | (with_reducible apply gate__keeps) | (with_reducible apply markHead_keeps) | (with_reducible apply noteBack_keeps) | (with_reducible apply noteHeld_keeps) | (with_reducible apply popHitch_keeps) | split | dsimp -zeta only)
    | with_reducible refine keeps_fst (by with_reducible assumption) ?_
    | with_reducible refine keeps_snd (by with_reducible assumption) ?_
    | with_reducible refine keeps_thd (by with_reducible assumption) ?_
    | split
    | dsimp -zeta only

theorem execNop_keeps {st : Fin 128} (hK : Keeps kc kn F old s) (hT : Within 10947250158 F := by exact within_of rfl (by assumption)) :
    NextKeeps kc kn F old (execNop st s) := by
  unfold execNop
  repeat' first
    | with_reducible assumption
    | with_reducible apply next_keeps
    | with_reducible exact fault_keeps
    | exact within_of rfl hT
    | with_reducible intro _
    | with_reducible apply inc_keeps
    | with_reducible apply modStrand_keeps
    | with_reducible apply markHead_keeps
    | with_reducible apply issue_keeps (by with_reducible assumption)
    | with_reducible apply noteHeld_keeps
    | with_reducible apply complete_keeps
    | (have x : True := trivial
       extract_lets +onlyGivenNames x
       first
       | ((first
           | (have z := x; guard_hyp z : State; clear z; refine keeps_via (x := x) ?_ (fun hx => ?_))
           | (have z := x; guard_hyp z : State; clear z; refine next_via (x := x) ?_ (fun hx => ?_))
           | (have z := x.2; guard_hyp z : State; clear z; refine keeps_via (x := x.2) ?_ (fun hx => ?_))
           | (have z := x.2; guard_hyp z : State; clear z; refine next_via (x := x.2) ?_ (fun hx => ?_))
           | (have z := x.2.2; guard_hyp z : State; clear z; refine keeps_via (x := x.2.2) ?_ (fun hx => ?_))
           | (have z := x.2.2; guard_hyp z : State; clear z; refine next_via (x := x.2.2) ?_ (fun hx => ?_))
           | (have z := x.1; guard_hyp z : State; clear z; refine keeps_via (x := x.1) ?_ (fun hx => ?_))
           | (have z := x.1; guard_hyp z : State; clear z; refine next_via (x := x.1) ?_ (fun hx => ?_)))
          rotate_left
          try clear_value x
          rotate_right
          dsimp -zeta only [x])
       | (fail_if_success (have z := x; guard_hyp z : True)
          try clear_value x))
    | ((with_reducible refine keeps_mk rfl ?_); first | with_reducible assumption | exact within_of rfl hT | (with_reducible apply inc_keeps) | (with_reducible apply modStrand_keeps) | (with_reducible apply markHead_keeps) | (with_reducible apply issue_keeps (by with_reducible assumption)) | (with_reducible apply noteHeld_keeps) | (with_reducible apply complete_keeps) | split | dsimp -zeta only)
    | with_reducible refine keeps_fst (by with_reducible assumption) ?_
    | with_reducible refine keeps_snd (by with_reducible assumption) ?_
    | with_reducible refine keeps_thd (by with_reducible assumption) ?_
    | split
    | dsimp -zeta only

theorem execLink_keeps {g : Fin 16} {pos : Fin 8} (hK : Keeps kc kn F old s) (hT : Within 10947250158 F := by exact within_of rfl (by assumption)) :
    NextKeeps kc kn F old (execLink g pos s) := by
  unfold execLink
  repeat' first
    | with_reducible assumption
    | with_reducible apply next_keeps
    | with_reducible exact fault_keeps
    | exact within_of rfl hT
    | with_reducible intro _
    | with_reducible apply modPos_keeps
    | with_reducible apply popHitch_keeps
    | with_reducible apply markControl_keeps
    | with_reducible apply refuseHitch_keeps
    | (have x : True := trivial
       extract_lets +onlyGivenNames x
       first
       | ((first
           | (have z := x; guard_hyp z : State; clear z; refine keeps_via (x := x) ?_ (fun hx => ?_))
           | (have z := x; guard_hyp z : State; clear z; refine next_via (x := x) ?_ (fun hx => ?_))
           | (have z := x.2; guard_hyp z : State; clear z; refine keeps_via (x := x.2) ?_ (fun hx => ?_))
           | (have z := x.2; guard_hyp z : State; clear z; refine next_via (x := x.2) ?_ (fun hx => ?_))
           | (have z := x.2.2; guard_hyp z : State; clear z; refine keeps_via (x := x.2.2) ?_ (fun hx => ?_))
           | (have z := x.2.2; guard_hyp z : State; clear z; refine next_via (x := x.2.2) ?_ (fun hx => ?_))
           | (have z := x.1; guard_hyp z : State; clear z; refine keeps_via (x := x.1) ?_ (fun hx => ?_))
           | (have z := x.1; guard_hyp z : State; clear z; refine next_via (x := x.1) ?_ (fun hx => ?_)))
          rotate_left
          try clear_value x
          rotate_right
          dsimp -zeta only [x])
       | (fail_if_success (have z := x; guard_hyp z : True)
          try clear_value x))
    | ((with_reducible refine keeps_mk rfl ?_); first | with_reducible assumption | exact within_of rfl hT | (with_reducible apply modPos_keeps) | (with_reducible apply popHitch_keeps) | (with_reducible apply markControl_keeps) | (with_reducible apply refuseHitch_keeps) | split | dsimp -zeta only)
    | with_reducible refine keeps_fst (by with_reducible assumption) ?_
    | with_reducible refine keeps_snd (by with_reducible assumption) ?_
    | with_reducible refine keeps_thd (by with_reducible assumption) ?_
    | split
    | dsimp -zeta only

theorem execStepEnd_keeps {g : Fin 16} {pos : Fin 8} (hK : Keeps kc kn F old s) (hT : Within 10947250158 F := by exact within_of rfl (by assumption)) :
    NextKeeps kc kn F old (execStepEnd g pos s) := by
  unfold execStepEnd
  repeat' first
    | with_reducible assumption
    | with_reducible apply next_keeps
    | with_reducible exact fault_keeps
    | exact within_of rfl hT
    | with_reducible intro _
    | with_reducible apply takeWait_keeps
    | with_reducible apply modPos_keeps
    | with_reducible apply popHitch_keeps
    | with_reducible apply markControl_keeps
    | with_reducible apply refuseHitch_keeps
    | with_reducible apply checkReady_keeps
    | (have x : True := trivial
       extract_lets +onlyGivenNames x
       first
       | ((first
           | (have z := x; guard_hyp z : State; clear z; refine keeps_via (x := x) ?_ (fun hx => ?_))
           | (have z := x; guard_hyp z : State; clear z; refine next_via (x := x) ?_ (fun hx => ?_))
           | (have z := x.2; guard_hyp z : State; clear z; refine keeps_via (x := x.2) ?_ (fun hx => ?_))
           | (have z := x.2; guard_hyp z : State; clear z; refine next_via (x := x.2) ?_ (fun hx => ?_))
           | (have z := x.2.2; guard_hyp z : State; clear z; refine keeps_via (x := x.2.2) ?_ (fun hx => ?_))
           | (have z := x.2.2; guard_hyp z : State; clear z; refine next_via (x := x.2.2) ?_ (fun hx => ?_))
           | (have z := x.1; guard_hyp z : State; clear z; refine keeps_via (x := x.1) ?_ (fun hx => ?_))
           | (have z := x.1; guard_hyp z : State; clear z; refine next_via (x := x.1) ?_ (fun hx => ?_)))
          rotate_left
          try clear_value x
          rotate_right
          dsimp -zeta only [x])
       | (fail_if_success (have z := x; guard_hyp z : True)
          try clear_value x))
    | ((with_reducible refine keeps_mk rfl ?_); first | with_reducible assumption | exact within_of rfl hT | (with_reducible apply takeWait_keeps) | (with_reducible apply modPos_keeps) | (with_reducible apply popHitch_keeps) | (with_reducible apply markControl_keeps) | (with_reducible apply refuseHitch_keeps) | (with_reducible apply checkReady_keeps) | split | dsimp -zeta only)
    | with_reducible refine keeps_fst (by with_reducible assumption) ?_
    | with_reducible refine keeps_snd (by with_reducible assumption) ?_
    | with_reducible refine keeps_thd (by with_reducible assumption) ?_
    | split
    | dsimp -zeta only

theorem execHitchComplete_keeps {st : Fin 128} {slot : Nat} {t : Nat} (hK : Keeps kc kn F old s) (hT : Within 11540750335 F := by exact within_of rfl (by assumption)) :
    NextKeeps kc kn F old (execHitchComplete st slot t s) := by
  unfold execHitchComplete
  repeat' first
    | with_reducible assumption
    | with_reducible apply next_keeps
    | with_reducible exact fault_keeps
    | exact within_of rfl hT
    | with_reducible intro _
    | with_reducible apply tick_keeps
    | with_reducible apply completeEntry_keeps
    | with_reducible apply completePair_keeps
    | (have x : True := trivial
       extract_lets +onlyGivenNames x
       first
       | ((first
           | (have z := x; guard_hyp z : State; clear z; refine keeps_via (x := x) ?_ (fun hx => ?_))
           | (have z := x; guard_hyp z : State; clear z; refine next_via (x := x) ?_ (fun hx => ?_))
           | (have z := x.2; guard_hyp z : State; clear z; refine keeps_via (x := x.2) ?_ (fun hx => ?_))
           | (have z := x.2; guard_hyp z : State; clear z; refine next_via (x := x.2) ?_ (fun hx => ?_))
           | (have z := x.2.2; guard_hyp z : State; clear z; refine keeps_via (x := x.2.2) ?_ (fun hx => ?_))
           | (have z := x.2.2; guard_hyp z : State; clear z; refine next_via (x := x.2.2) ?_ (fun hx => ?_))
           | (have z := x.1; guard_hyp z : State; clear z; refine keeps_via (x := x.1) ?_ (fun hx => ?_))
           | (have z := x.1; guard_hyp z : State; clear z; refine next_via (x := x.1) ?_ (fun hx => ?_)))
          rotate_left
          try clear_value x
          rotate_right
          dsimp -zeta only [x])
       | (fail_if_success (have z := x; guard_hyp z : True)
          try clear_value x))
    | ((with_reducible refine keeps_mk rfl ?_); first | with_reducible assumption | exact within_of rfl hT | (with_reducible apply tick_keeps) | (with_reducible apply completeEntry_keeps) | (with_reducible apply completePair_keeps) | split | dsimp -zeta only)
    | with_reducible refine keeps_fst (by with_reducible assumption) ?_
    | with_reducible refine keeps_snd (by with_reducible assumption) ?_
    | with_reducible refine keeps_thd (by with_reducible assumption) ?_
    | split
    | dsimp -zeta only

theorem execKnotTimeout_keeps {st : Fin 128} {t : Nat} (hK : Keeps kc kn F old s) (hT : Within 11540750335 F := by exact within_of rfl (by assumption)) :
    NextKeeps kc kn F old (execKnotTimeout st t s) := by
  unfold execKnotTimeout
  repeat' first
    | with_reducible assumption
    | with_reducible apply next_keeps
    | with_reducible exact fault_keeps
    | exact within_of rfl hT
    | with_reducible intro _
    | with_reducible apply tick_keeps
    | with_reducible apply complete_keeps
    | with_reducible apply popHitch_keeps
    | with_reducible apply completeEntry_keeps
    | (have x : True := trivial
       extract_lets +onlyGivenNames x
       first
       | ((first
           | (have z := x; guard_hyp z : State; clear z; refine keeps_via (x := x) ?_ (fun hx => ?_))
           | (have z := x; guard_hyp z : State; clear z; refine next_via (x := x) ?_ (fun hx => ?_))
           | (have z := x.2; guard_hyp z : State; clear z; refine keeps_via (x := x.2) ?_ (fun hx => ?_))
           | (have z := x.2; guard_hyp z : State; clear z; refine next_via (x := x.2) ?_ (fun hx => ?_))
           | (have z := x.2.2; guard_hyp z : State; clear z; refine keeps_via (x := x.2.2) ?_ (fun hx => ?_))
           | (have z := x.2.2; guard_hyp z : State; clear z; refine next_via (x := x.2.2) ?_ (fun hx => ?_))
           | (have z := x.1; guard_hyp z : State; clear z; refine keeps_via (x := x.1) ?_ (fun hx => ?_))
           | (have z := x.1; guard_hyp z : State; clear z; refine next_via (x := x.1) ?_ (fun hx => ?_)))
          rotate_left
          try clear_value x
          rotate_right
          dsimp -zeta only [x])
       | (fail_if_success (have z := x; guard_hyp z : True)
          try clear_value x))
    | ((with_reducible refine keeps_mk rfl ?_); first | with_reducible assumption | exact within_of rfl hT | (with_reducible apply tick_keeps) | (with_reducible apply complete_keeps) | (with_reducible apply popHitch_keeps) | (with_reducible apply completeEntry_keeps) | split | dsimp -zeta only)
    | with_reducible refine keeps_fst (by with_reducible assumption) ?_
    | with_reducible refine keeps_snd (by with_reducible assumption) ?_
    | with_reducible refine keeps_thd (by with_reducible assumption) ?_
    | split
    | dsimp -zeta only

theorem execStepCommit_keeps {row : CommitRun} {t : Nat} (hK : Keeps kc false F old s) (hT : Within 12614492159 F := by exact within_of rfl (by assumption)) :
    NextKeeps kc false F old (execStepCommit row t s) := by
  unfold execStepCommit
  repeat' first
    | with_reducible assumption
    | with_reducible apply next_keeps
    | with_reducible exact fault_keeps
    | exact within_of rfl hT
    | with_reducible apply tick_keeps
    | with_reducible apply commitActions_keeps
    | with_reducible apply commitEnd_keeps
    | (have x : True := trivial
       extract_lets +onlyGivenNames x
       first
       | ((first
           | (have z := x; guard_hyp z : State; clear z; refine keeps_via (x := x) ?_ (fun hx => ?_))
           | (have z := x; guard_hyp z : State; clear z; refine next_via (x := x) ?_ (fun hx => ?_))
           | (have z := x.2; guard_hyp z : State; clear z; refine keeps_via (x := x.2) ?_ (fun hx => ?_))
           | (have z := x.2; guard_hyp z : State; clear z; refine next_via (x := x.2) ?_ (fun hx => ?_))
           | (have z := x.2.2; guard_hyp z : State; clear z; refine keeps_via (x := x.2.2) ?_ (fun hx => ?_))
           | (have z := x.2.2; guard_hyp z : State; clear z; refine next_via (x := x.2.2) ?_ (fun hx => ?_))
           | (have z := x.1; guard_hyp z : State; clear z; refine keeps_via (x := x.1) ?_ (fun hx => ?_))
           | (have z := x.1; guard_hyp z : State; clear z; refine next_via (x := x.1) ?_ (fun hx => ?_)))
          rotate_left
          try clear_value x
          rotate_right
          dsimp -zeta only [x])
       | (fail_if_success (have z := x; guard_hyp z : True)
          try clear_value x))
    | split
    | exact fun h => absurd h Bool.false_ne_true
    | exact absurd ‹false = true› Bool.false_ne_true
    | dsimp -zeta only

theorem execStepReplay_keeps {p : Fin 16} {t : Nat} (hK : Keeps kc kn F old s) (hT : Within 12060844015 F := by exact within_of rfl (by assumption)) :
    NextKeeps kc kn F old (execStepReplay p t s) := by
  unfold execStepReplay
  repeat' first
    | with_reducible assumption
    | with_reducible apply next_keeps
    | with_reducible exact fault_keeps
    | exact within_of rfl hT
    | with_reducible apply tick_keeps
    | with_reducible apply replay_keeps
    | with_reducible apply giveUp_keeps
    | (have x : True := trivial
       extract_lets +onlyGivenNames x
       first
       | ((first
           | (have z := x; guard_hyp z : State; clear z; refine keeps_via (x := x) ?_ (fun hx => ?_))
           | (have z := x; guard_hyp z : State; clear z; refine next_via (x := x) ?_ (fun hx => ?_))
           | (have z := x.2; guard_hyp z : State; clear z; refine keeps_via (x := x.2) ?_ (fun hx => ?_))
           | (have z := x.2; guard_hyp z : State; clear z; refine next_via (x := x.2) ?_ (fun hx => ?_))
           | (have z := x.2.2; guard_hyp z : State; clear z; refine keeps_via (x := x.2.2) ?_ (fun hx => ?_))
           | (have z := x.2.2; guard_hyp z : State; clear z; refine next_via (x := x.2.2) ?_ (fun hx => ?_))
           | (have z := x.1; guard_hyp z : State; clear z; refine keeps_via (x := x.1) ?_ (fun hx => ?_))
           | (have z := x.1; guard_hyp z : State; clear z; refine next_via (x := x.1) ?_ (fun hx => ?_)))
          rotate_left
          try clear_value x
          rotate_right
          dsimp -zeta only [x])
       | ((first
           | (have z := x; guard_hyp z : Security)
           | (have z := x; guard_hyp z : Lease))
          dsimp -zeta only [x])
       | (fail_if_success (have z := x; guard_hyp z : True)
          try clear_value x))
    | ((with_reducible refine keeps_mk rfl ?_); first | with_reducible assumption | exact within_of rfl hT | (with_reducible apply tick_keeps) | (with_reducible apply replay_keeps) | (with_reducible apply giveUp_keeps) | split | dsimp -zeta only)
    | with_reducible refine keeps_fst (by with_reducible assumption) ?_
    | with_reducible refine keeps_snd (by with_reducible assumption) ?_
    | with_reducible refine keeps_thd (by with_reducible assumption) ?_
    | split
    | dsimp -zeta only

theorem execStepAbandon_keeps {p : Fin 16} {t : Nat} (hK : Keeps kc kn F old s) (hT : Within 10852884463 F := by exact within_of rfl (by assumption)) :
    NextKeeps kc kn F old (execStepAbandon p t s) := by
  unfold execStepAbandon
  repeat' first
    | with_reducible assumption
    | with_reducible apply next_keeps
    | with_reducible exact fault_keeps
    | exact within_of rfl hT
    | with_reducible intro _
    | with_reducible apply tick_keeps
    | with_reducible apply inc_keeps
    | with_reducible apply abandoned_keeps
    | with_reducible apply foldS_keeps
    | (have x : True := trivial
       extract_lets +onlyGivenNames x
       first
       | ((first
           | (have z := x; guard_hyp z : State; clear z; refine keeps_via (x := x) ?_ (fun hx => ?_))
           | (have z := x; guard_hyp z : State; clear z; refine next_via (x := x) ?_ (fun hx => ?_))
           | (have z := x.2; guard_hyp z : State; clear z; refine keeps_via (x := x.2) ?_ (fun hx => ?_))
           | (have z := x.2; guard_hyp z : State; clear z; refine next_via (x := x.2) ?_ (fun hx => ?_))
           | (have z := x.2.2; guard_hyp z : State; clear z; refine keeps_via (x := x.2.2) ?_ (fun hx => ?_))
           | (have z := x.2.2; guard_hyp z : State; clear z; refine next_via (x := x.2.2) ?_ (fun hx => ?_))
           | (have z := x.1; guard_hyp z : State; clear z; refine keeps_via (x := x.1) ?_ (fun hx => ?_))
           | (have z := x.1; guard_hyp z : State; clear z; refine next_via (x := x.1) ?_ (fun hx => ?_)))
          rotate_left
          try clear_value x
          rotate_right
          dsimp -zeta only [x])
       | (fail_if_success (have z := x; guard_hyp z : True)
          try clear_value x))
    | ((with_reducible refine keeps_mk rfl ?_); first | with_reducible assumption | exact within_of rfl hT | (with_reducible apply tick_keeps) | (with_reducible apply inc_keeps) | (with_reducible apply abandoned_keeps) | with_reducible apply foldS_keeps | split | dsimp -zeta only)
    | with_reducible refine keeps_fst (by with_reducible assumption) ?_
    | with_reducible refine keeps_snd (by with_reducible assumption) ?_
    | with_reducible refine keeps_thd (by with_reducible assumption) ?_
    | split
    | dsimp -zeta only

end Sys2Proof.Machine
end

