-- ==== Sys2Proof/Laws/KeepsReset.lean ====
section
/-! SUPPORT. What the operations of Machine/Reset.lean keep: one lemma for each. -/

namespace Sys2Proof.Machine

set_option linter.all false
set_option Elab.async false

variable {kc kn : Bool} {F : Field → Bool} {old s : State}

theorem resetHitches_keeps {strands : List Nat} {ops : List Nat} (hK : Keeps kc kn F old s) (hT : Within 11540750334 F := by exact within_of rfl (by assumption)) :
    Keeps kc kn F old (State.resetHitches s strands ops) := by
  unfold State.resetHitches
  repeat' first
    | with_reducible assumption
    | exact within_of rfl hT
    | with_reducible intro _
    | with_reducible apply running_keeps
    | with_reducible apply completeEntry_keeps
    | with_reducible apply foldS_keeps
    | ((with_reducible refine keeps_mk rfl ?_); first | with_reducible assumption | exact within_of rfl hT | (with_reducible apply running_keeps) | (with_reducible apply completeEntry_keeps) | with_reducible apply foldS_keeps | split | dsimp only)
    | with_reducible refine keeps_fst (by with_reducible assumption) ?_
    | with_reducible refine keeps_snd (by with_reducible assumption) ?_
    | with_reducible refine keeps_thd (by with_reducible assumption) ?_
    | split
    | dsimp only

theorem resetPartition_keeps {sid seq p : Nat} (hK : Keeps kc kn F old s) (hT : Within 11540750334 F := by exact within_of rfl (by assumption)) :
    Keeps kc kn F old (State.resetPartition s sid seq p).2 := by
  unfold State.resetPartition
  repeat' first
    | with_reducible assumption
    | exact within_of rfl hT
    | with_reducible intro _
    | with_reducible apply modPart_keeps
    | with_reducible apply beginReset_keeps
    | (have x : True := trivial
       extract_lets +onlyGivenNames x
       first
       | ((first
           | (have z := x; guard_hyp z : State; clear z; refine keeps_via (x := x) ?_ (fun hx => ?_))
           | (have z := x.2; guard_hyp z : State; clear z; refine keeps_via (x := x.2) ?_ (fun hx => ?_))
           | (have z := x.2.2; guard_hyp z : State; clear z; refine keeps_via (x := x.2.2) ?_ (fun hx => ?_))
           | (have z := x.1; guard_hyp z : State; clear z; refine keeps_via (x := x.1) ?_ (fun hx => ?_)))
          rotate_left
          try clear_value x
          rotate_right
          dsimp -zeta only [x])
       | (fail_if_success (have z := x; guard_hyp z : True)
          try clear_value x))
    | ((with_reducible refine keeps_mk rfl ?_); first | with_reducible assumption | exact within_of rfl hT | (with_reducible apply modPart_keeps) | (with_reducible apply beginReset_keeps) | split | dsimp -zeta only)
    | with_reducible refine keeps_fst (by with_reducible assumption) ?_
    | with_reducible refine keeps_snd (by with_reducible assumption) ?_
    | with_reducible refine keeps_thd (by with_reducible assumption) ?_
    | split
    | dsimp -zeta only

theorem resetCrop_keeps {d : Nat} (hK : Keeps kc kn F old s) (hT : Within 11540750334 F := by exact within_of rfl (by assumption)) :
    Keeps kc kn F old (State.resetCrop s d) := by
  unfold State.resetCrop
  repeat' first
    | with_reducible assumption
    | exact within_of rfl hT
    | with_reducible intro _
    | with_reducible apply modEngine_keeps
    | with_reducible apply resetHitches_keeps
    | ((with_reducible refine keeps_mk rfl ?_); first | with_reducible assumption | exact within_of rfl hT | (with_reducible apply modEngine_keeps) | (with_reducible apply resetHitches_keeps) | split | dsimp only)
    | split
    | dsimp only

theorem resetDispatch_keeps {d : Nat} (hK : Keeps kc kn F old s) (hT : Within 11540750334 F := by exact within_of rfl (by assumption)) :
    Keeps kc kn F old (State.resetDispatch s d) := by
  unfold State.resetDispatch
  repeat' first
    | with_reducible assumption
    | exact within_of rfl hT
    | with_reducible intro _
    | with_reducible apply modEngine_keeps
    | with_reducible apply resetHitches_keeps
    | (have x : True := trivial
       extract_lets +onlyGivenNames x
       first
       | ((first
           | (have z := x; guard_hyp z : State; clear z; refine keeps_via (x := x) ?_ (fun hx => ?_))
           | (have z := x.2; guard_hyp z : State; clear z; refine keeps_via (x := x.2) ?_ (fun hx => ?_))
           | (have z := x.2.2; guard_hyp z : State; clear z; refine keeps_via (x := x.2.2) ?_ (fun hx => ?_))
           | (have z := x.1; guard_hyp z : State; clear z; refine keeps_via (x := x.1) ?_ (fun hx => ?_)))
          rotate_left
          try clear_value x
          rotate_right
          dsimp -zeta only [x])
       | (fail_if_success (have z := x; guard_hyp z : True)
          try clear_value x))
    | ((with_reducible refine keeps_mk rfl ?_); first | with_reducible assumption | exact within_of rfl hT | (with_reducible apply modEngine_keeps) | (with_reducible apply resetHitches_keeps) | split | dsimp -zeta only)
    | split
    | dsimp -zeta only

theorem execResetFunction_keeps {h : CmdHdr} {kind index : Nat} (hK : Keeps kc kn F old s) (hT : Within 11540750335 F := by exact within_of rfl (by assumption)) :
    NextKeeps kc kn F old (execResetFunction h kind index s) := by
  unfold execResetFunction
  refine next_keeps (commandLater_keeps (fun y hy => ?_) hK)
  dsimp only
  repeat' first
    | with_reducible assumption | exact within_of rfl hT
    | with_reducible apply resetCore_keeps
    | with_reducible apply resetPartition_keeps
    | with_reducible apply resetCrop_keeps
    | with_reducible apply resetDispatch_keeps
    | split


theorem execResetHitchTimeout_keeps {p : Fin 16} {t : Nat} (hK : Keeps kc kn F old s) (hT : Within 11540750335 F := by exact within_of rfl (by assumption)) :
    NextKeeps kc kn F old (execResetHitchTimeout p t s) := by
  unfold execResetHitchTimeout
  repeat' first
    | with_reducible assumption
    | with_reducible apply next_keeps
    | with_reducible exact fault_keeps
    | exact within_of rfl hT
    | with_reducible intro _
    | with_reducible apply tick_keeps
    | with_reducible apply modEngine_keeps
    | with_reducible apply stopDone_keeps
    | with_reducible apply resetHitches_keeps
    | with_reducible apply foldS_keeps
    | (have x : True := trivial
       extract_lets +onlyGivenNames x
       first
       | ((first
           | (have z := x; guard_hyp z : State; clear z; refine keeps_via (x := x) ?_ (fun hx => ?_))
           | (have z := x; guard_hyp z : State; clear z; refine next_via (x := x) ?_ (fun hx => ?_))
           | (have z := x.2; guard_hyp z : State; clear z; refine keeps_via (x := x.2) ?_ (fun hx => ?_))
           | (have z := x.2; guard_hyp z : State; clear z; refine next_via (x := x.2) ?_ (fun hx => ?_))
           | (have z := x.2.2; guard_hyp z : State; clear z; refine keeps_via (x := x.2.2) ?_ (fun hx => ?_))
           | (have z := x.2.2; guard_hyp z : State; clear z; refine next_via (x := x.2.2) ?_ (fun hx => ?_))
           | (have z := x.1; guard_hyp z : State; clear z; refine keeps_via (x := x.1) ?_ (fun hx => ?_))
           | (have z := x.1; guard_hyp z : State; clear z; refine next_via (x := x.1) ?_ (fun hx => ?_)))
          rotate_left
          try clear_value x
          rotate_right
          dsimp -zeta only [x])
       | (fail_if_success (have z := x; guard_hyp z : True)
          try clear_value x))
    | ((with_reducible refine keeps_mk rfl ?_); first | with_reducible assumption | exact within_of rfl hT | (with_reducible apply tick_keeps) | (with_reducible apply modEngine_keeps) | (with_reducible apply stopDone_keeps) | (with_reducible apply resetHitches_keeps) | with_reducible apply foldS_keeps | split | dsimp -zeta only)
    | split
    | dsimp -zeta only

end Sys2Proof.Machine
end

