-- ==== Sys2Proof/Laws/KeepsLease.lean ====
section
/-! SUPPORT. What the operations of Machine/Lease.lean keep: one lemma for each. -/

namespace Sys2Proof.Machine

set_option linter.all false
set_option Elab.async false

variable {kc kn : Bool} {F : Field → Bool} {old s : State}

theorem grant_keeps {holder ms n : Nat} (hK : Keeps kc kn F old s) (hT : Within 8591081476 F := by exact within_of rfl (by assumption)) : Keeps kc kn F old (State.grant s holder ms n) := by
  unfold State.grant
  simp only []
  refine eventC_keeps (inc_keeps (foldS_keeps (fun s p h => modHostPort_keeps h) ?_))
  exact keeps_mk rfl hK (he := Nat.le_succ _)

theorem raisePeer_keeps {m p e : Nat} (hK : Keeps kc kn F old s) (hT : Within 16384 F := by exact within_of rfl (by assumption)) :
    Keeps kc kn F old (State.raisePeer s m p e) := by
  unfold State.raisePeer
  repeat' first | with_reducible assumption | exact within_of rfl hT | ((with_reducible refine keeps_mk rfl ?_); first | with_reducible assumption | exact within_of rfl hT | split | dsimp only) | dsimp only

theorem assignRole_keeps {a : RoleAssign} (hK : Keeps kc false F old s) (hT : Within 16644 F := by exact within_of rfl (by assumption)) :
    Keeps kc false F old (State.assignRole s a).2.2 := by
  unfold State.assignRole
  repeat' first
    | with_reducible assumption
    | exact within_of rfl hT
    | with_reducible intro _
    | with_reducible apply setReg_keeps
    | with_reducible apply inc_keeps
    | with_reducible apply modStep_keeps
    | with_reducible apply ans_keeps
    | with_reducible apply raisePeer_keeps
    | (have x : True := trivial
       extract_lets +onlyGivenNames x
       first
       | ((first
           | (have z := x; guard_hyp z : State; clear z; refine keeps_via (x := x) ?_ (fun hx => ?_))
           | (have z := x.2; guard_hyp z : State; clear z; refine keeps_via (x := x.2) ?_ (fun hx => ?_))
           | (have z := x.2.2; guard_hyp z : State; clear z; refine keeps_via (x := x.2.2) ?_ (fun hx => ?_))
           | (have z := x.1; guard_hyp z : State; clear z; refine keeps_via (x := x.1) ?_ (fun hx => ?_)))
          rotate_left
          try clear_value x
          rotate_right
          dsimp -zeta only [x])
       | (fail_if_success (have z := x; guard_hyp z : True)
          try clear_value x))
    | ((with_reducible refine keeps_mk rfl ?_); first | with_reducible assumption | exact within_of rfl hT | (with_reducible apply setReg_keeps) | (with_reducible apply inc_keeps) | (with_reducible apply modStep_keeps) | (with_reducible apply ans_keeps) | (with_reducible apply raisePeer_keeps) | split | dsimp -zeta only)
    | split
    | exact fun h => absurd h Bool.false_ne_true
    | exact absurd ‹false = true› Bool.false_ne_true
    | dsimp -zeta only

theorem seizeNow_keeps (hK : Keeps kc kn F old s) (hT : Within 11541798910 F := by exact within_of rfl (by assumption)) :
    Keeps kc kn F old (State.seizeNow s) := by
  unfold State.seizeNow
  repeat' first
    | with_reducible assumption
    | exact within_of rfl hT
    | with_reducible intro _
    | with_reducible apply inc_keeps
    | with_reducible apply eventAll_keeps
    | with_reducible apply fsr_keeps
    | with_reducible apply stopStep_keeps
    | with_reducible apply foldS_keeps
    | (have x : True := trivial
       extract_lets +onlyGivenNames x
       first
       | ((first
           | (have z := x; guard_hyp z : State; clear z; refine keeps_via (x := x) ?_ (fun hx => ?_))
           | (have z := x.2; guard_hyp z : State; clear z; refine keeps_via (x := x.2) ?_ (fun hx => ?_))
           | (have z := x.2.2; guard_hyp z : State; clear z; refine keeps_via (x := x.2.2) ?_ (fun hx => ?_))
           | (have z := x.1; guard_hyp z : State; clear z; refine keeps_via (x := x.1) ?_ (fun hx => ?_)))
          rotate_left
          try clear_value x
          rotate_right
          dsimp -zeta only [x])
       | ((first
           | (have z := x; guard_hyp z : Security)
           | (have z := x; guard_hyp z : Lease))
          dsimp -zeta only [x])
       | (fail_if_success (have z := x; guard_hyp z : True)
          try clear_value x))
    | ((with_reducible refine keeps_mk rfl ?_); first | with_reducible assumption | exact within_of rfl hT | (with_reducible apply inc_keeps) | (with_reducible apply eventAll_keeps) | (with_reducible apply fsr_keeps) | (with_reducible apply stopStep_keeps) | with_reducible apply foldS_keeps | split | dsimp -zeta only)
    | split
    | dsimp -zeta only

theorem execHeartbeat_keeps {h : CmdHdr} {sendTime : Nat} (hK : Keeps kc kn F old s) (hT : Within 10847635375 F := by exact within_of rfl (by assumption)) :
    NextKeeps kc kn F old (execHeartbeat h sendTime s) := by
  unfold execHeartbeat
  refine next_keeps (command_keeps (fun y hy => ?_) hK)
  dsimp only
  split
  · exact keeps_mk rfl hy (he := Nat.le_refl _)
  · exact hy


theorem execLeaseAcquire_keeps {h : CmdHdr} {leaseMs : Nat} (hK : Keeps kc kn F old s) (hT : Within 10847635375 F := by exact within_of rfl (by assumption)) :
    NextKeeps kc kn F old (execLeaseAcquire h leaseMs s) := by
  unfold execLeaseAcquire
  refine next_keeps (command_keeps (fun y hy => ?_) hK)
  dsimp only
  split
  · exact hy
  split
  · exact keeps_mk rfl hy (he := Nat.le_refl _)
  split
  · exact hy
  · exact grant_keeps hy


theorem execLeaseRelease_keeps {h : CmdHdr} (hK : Keeps kc kn F old s) (hT : Within 10847635375 F := by exact within_of rfl (by assumption)) :
    NextKeeps kc kn F old (execLeaseRelease h s) := by
  unfold execLeaseRelease
  repeat' first
    | with_reducible assumption
    | with_reducible apply next_keeps
    | with_reducible exact fault_keeps
    | exact within_of rfl hT
    | with_reducible intro _
    | with_reducible apply command_keeps
    | with_reducible apply ans_keeps
    | (have x : True := trivial
       extract_lets +onlyGivenNames x
       first
       | ((first
           | (have z := x; guard_hyp z : State; clear z; refine keeps_via (x := x) ?_ (fun hx => ?_))
           | (have z := x; guard_hyp z : State; clear z; refine next_via (x := x) ?_ (fun hx => ?_))
           | (have z := x.2; guard_hyp z : State; clear z; refine keeps_via (x := x.2) ?_ (fun hx => ?_))
           | (have z := x.2; guard_hyp z : State; clear z; refine next_via (x := x.2) ?_ (fun hx => ?_))
           | (have z := x.2.2; guard_hyp z : State; clear z; refine keeps_via (x := x.2.2) ?_ (fun hx => ?_))
           | (have z := x.2.2; guard_hyp z : State; clear z; refine next_via (x := x.2.2) ?_ (fun hx => ?_))
           | (have z := x.1; guard_hyp z : State; clear z; refine keeps_via (x := x.1) ?_ (fun hx => ?_))
           | (have z := x.1; guard_hyp z : State; clear z; refine next_via (x := x.1) ?_ (fun hx => ?_)))
          rotate_left
          try clear_value x
          rotate_right
          dsimp -zeta only [x])
       | ((first
           | (have z := x; guard_hyp z : Security)
           | (have z := x; guard_hyp z : Lease))
          dsimp -zeta only [x])
       | (fail_if_success (have z := x; guard_hyp z : True)
          try clear_value x))
    | ((with_reducible refine keeps_mk rfl ?_); first | with_reducible assumption | exact within_of rfl hT | (with_reducible apply command_keeps) | (with_reducible apply ans_keeps) | split | dsimp -zeta only)
    | split
    | dsimp -zeta only

theorem execRoleAssign_keeps {h : CmdHdr} {a : RoleAssign} (hK : Keeps kc false F old s) (hT : Within 10846586799 F := by exact within_of rfl (by assumption)) :
    NextKeeps kc false F old (execRoleAssign h a s) := by
  unfold execRoleAssign
  repeat' first
    | with_reducible assumption
    | with_reducible apply next_keeps
    | with_reducible exact fault_keeps
    | exact within_of rfl hT
    | with_reducible intro _
    | with_reducible apply command_keeps
    | with_reducible apply assignRole_keeps
    | exact fun h => absurd h Bool.false_ne_true
    | exact absurd ‹false = true› Bool.false_ne_true
    | dsimp only

theorem execSeizeRelease_keeps {h : CmdHdr} (hK : Keeps kc kn F old s) (hT : Within 10847635375 F := by exact within_of rfl (by assumption)) :
    NextKeeps kc kn F old (execSeizeRelease h s) := by
  unfold execSeizeRelease
  repeat' first
    | with_reducible assumption
    | with_reducible apply next_keeps
    | with_reducible exact fault_keeps
    | exact within_of rfl hT
    | with_reducible intro _
    | with_reducible apply modStep_keeps
    | with_reducible apply command_keeps
    | with_reducible apply ans_keeps
    | with_reducible apply foldS_keeps
    | (have x : True := trivial
       extract_lets +onlyGivenNames x
       first
       | ((first
           | (have z := x; guard_hyp z : State; clear z; refine keeps_via (x := x) ?_ (fun hx => ?_))
           | (have z := x; guard_hyp z : State; clear z; refine next_via (x := x) ?_ (fun hx => ?_))
           | (have z := x.2; guard_hyp z : State; clear z; refine keeps_via (x := x.2) ?_ (fun hx => ?_))
           | (have z := x.2; guard_hyp z : State; clear z; refine next_via (x := x.2) ?_ (fun hx => ?_))
           | (have z := x.2.2; guard_hyp z : State; clear z; refine keeps_via (x := x.2.2) ?_ (fun hx => ?_))
           | (have z := x.2.2; guard_hyp z : State; clear z; refine next_via (x := x.2.2) ?_ (fun hx => ?_))
           | (have z := x.1; guard_hyp z : State; clear z; refine keeps_via (x := x.1) ?_ (fun hx => ?_))
           | (have z := x.1; guard_hyp z : State; clear z; refine next_via (x := x.1) ?_ (fun hx => ?_)))
          rotate_left
          try clear_value x
          rotate_right
          dsimp -zeta only [x])
       | ((first
           | (have z := x; guard_hyp z : Security)
           | (have z := x; guard_hyp z : Lease))
          dsimp -zeta only [x])
       | (fail_if_success (have z := x; guard_hyp z : True)
          try clear_value x))
    | ((with_reducible refine keeps_mk rfl ?_); first | with_reducible assumption | exact within_of rfl hT | (with_reducible apply modStep_keeps) | (with_reducible apply command_keeps) | (with_reducible apply ans_keeps) | with_reducible apply foldS_keeps | split | dsimp -zeta only)
    | split
    | dsimp -zeta only

theorem execPortSilent_keeps {port : Fin 2} {t : Nat} (hK : Keeps kc kn F old s) (hT : Within 8590032901 F := by exact within_of rfl (by assumption)) :
    NextKeeps kc kn F old (execPortSilent port t s) := by
  unfold execPortSilent
  repeat' first
    | with_reducible assumption
    | with_reducible apply next_keeps
    | with_reducible exact fault_keeps
    | exact within_of rfl hT
    | with_reducible intro _
    | with_reducible apply tick_keeps
    | with_reducible apply modHostPort_keeps
    | with_reducible apply eventC_keeps
    | (have x : True := trivial
       extract_lets +onlyGivenNames x
       first
       | ((first
           | (have z := x; guard_hyp z : State; clear z; refine keeps_via (x := x) ?_ (fun hx => ?_))
           | (have z := x; guard_hyp z : State; clear z; refine next_via (x := x) ?_ (fun hx => ?_))
           | (have z := x.2; guard_hyp z : State; clear z; refine keeps_via (x := x.2) ?_ (fun hx => ?_))
           | (have z := x.2; guard_hyp z : State; clear z; refine next_via (x := x.2) ?_ (fun hx => ?_))
           | (have z := x.2.2; guard_hyp z : State; clear z; refine keeps_via (x := x.2.2) ?_ (fun hx => ?_))
           | (have z := x.2.2; guard_hyp z : State; clear z; refine next_via (x := x.2.2) ?_ (fun hx => ?_))
           | (have z := x.1; guard_hyp z : State; clear z; refine keeps_via (x := x.1) ?_ (fun hx => ?_))
           | (have z := x.1; guard_hyp z : State; clear z; refine next_via (x := x.1) ?_ (fun hx => ?_)))
          rotate_left
          try clear_value x
          rotate_right
          dsimp -zeta only [x])
       | (fail_if_success (have z := x; guard_hyp z : True)
          try clear_value x))
    | ((with_reducible refine keeps_mk rfl ?_); first | with_reducible assumption | exact within_of rfl hT | (with_reducible apply tick_keeps) | (with_reducible apply modHostPort_keeps) | (with_reducible apply eventC_keeps) | split | dsimp -zeta only)
    | split
    | dsimp -zeta only

theorem execCommanderLost_keeps {t : Nat} (hK : Keeps kc kn F old s) (hT : Within 8591015941 F := by exact within_of rfl (by assumption)) :
    NextKeeps kc kn F old (execCommanderLost t s) := by
  unfold execCommanderLost
  repeat' first
    | with_reducible assumption
    | with_reducible apply next_keeps
    | with_reducible exact fault_keeps
    | exact within_of rfl hT
    | with_reducible apply tick_keeps
    | with_reducible apply inc_keeps
    | with_reducible apply eventC_keeps
    | (have x : True := trivial
       extract_lets +onlyGivenNames x
       first
       | ((first
           | (have z := x; guard_hyp z : State; clear z; refine keeps_via (x := x) ?_ (fun hx => ?_))
           | (have z := x; guard_hyp z : State; clear z; refine next_via (x := x) ?_ (fun hx => ?_))
           | (have z := x.2; guard_hyp z : State; clear z; refine keeps_via (x := x.2) ?_ (fun hx => ?_))
           | (have z := x.2; guard_hyp z : State; clear z; refine next_via (x := x.2) ?_ (fun hx => ?_))
           | (have z := x.2.2; guard_hyp z : State; clear z; refine keeps_via (x := x.2.2) ?_ (fun hx => ?_))
           | (have z := x.2.2; guard_hyp z : State; clear z; refine next_via (x := x.2.2) ?_ (fun hx => ?_))
           | (have z := x.1; guard_hyp z : State; clear z; refine keeps_via (x := x.1) ?_ (fun hx => ?_))
           | (have z := x.1; guard_hyp z : State; clear z; refine next_via (x := x.1) ?_ (fun hx => ?_)))
          rotate_left
          try clear_value x
          rotate_right
          dsimp -zeta only [x])
       | ((first
           | (have z := x; guard_hyp z : Security)
           | (have z := x; guard_hyp z : Lease))
          dsimp -zeta only [x])
       | (fail_if_success (have z := x; guard_hyp z : True)
          try clear_value x))
    | ((with_reducible refine keeps_mk rfl ?_); first | with_reducible assumption | exact within_of rfl hT | (with_reducible apply tick_keeps) | (with_reducible apply inc_keeps) | (with_reducible apply eventC_keeps) | split | dsimp -zeta only)
    | split
    | dsimp -zeta only

theorem execLeaseLapse_keeps {t : Nat} (hK : Keeps kc kn F old s) (hT : Within 1 F := by exact within_of rfl (by assumption)) :
    NextKeeps kc kn F old (execLeaseLapse t s) := by
  unfold execLeaseLapse
  repeat' first
    | with_reducible assumption
    | with_reducible apply next_keeps
    | with_reducible exact fault_keeps
    | exact within_of rfl hT
    | with_reducible apply tick_keeps
    | dsimp only

theorem execSeize_keeps {t : Nat} (hK : Keeps kc kn F old s) (hT : Within 11541798911 F := by exact within_of rfl (by assumption)) :
    NextKeeps kc kn F old (execSeize t s) := by
  unfold execSeize
  repeat' first
    | with_reducible assumption
    | with_reducible apply next_keeps
    | with_reducible exact fault_keeps
    | exact within_of rfl hT
    | with_reducible apply tick_keeps
    | with_reducible apply seizeNow_keeps
    | (have x : True := trivial
       extract_lets +onlyGivenNames x
       first
       | ((first
           | (have z := x; guard_hyp z : State; clear z; refine keeps_via (x := x) ?_ (fun hx => ?_))
           | (have z := x; guard_hyp z : State; clear z; refine next_via (x := x) ?_ (fun hx => ?_))
           | (have z := x.2; guard_hyp z : State; clear z; refine keeps_via (x := x.2) ?_ (fun hx => ?_))
           | (have z := x.2; guard_hyp z : State; clear z; refine next_via (x := x.2) ?_ (fun hx => ?_))
           | (have z := x.2.2; guard_hyp z : State; clear z; refine keeps_via (x := x.2.2) ?_ (fun hx => ?_))
           | (have z := x.2.2; guard_hyp z : State; clear z; refine next_via (x := x.2.2) ?_ (fun hx => ?_))
           | (have z := x.1; guard_hyp z : State; clear z; refine keeps_via (x := x.1) ?_ (fun hx => ?_))
           | (have z := x.1; guard_hyp z : State; clear z; refine next_via (x := x.1) ?_ (fun hx => ?_)))
          rotate_left
          try clear_value x
          rotate_right
          dsimp -zeta only [x])
       | ((first
           | (have z := x; guard_hyp z : Security)
           | (have z := x; guard_hyp z : Lease))
          dsimp -zeta only [x])
       | (fail_if_success (have z := x; guard_hyp z : True)
          try clear_value x))
    | split
    | dsimp -zeta only

end Sys2Proof.Machine
end

