-- ==== Sys2Proof/Laws/KeepsSecurity.lean ====
section
/-! SUPPORT. What the operations of Machine/Security.lean keep: one lemma for each. -/

namespace Sys2Proof.Machine

set_option linter.all false
set_option Elab.async false

variable {kc kn : Bool} {F : Field → Bool} {old s : State}

theorem acceptCreate_keeps {h : CmdHdr} {c : Create} {r : Runs} (hK : Keeps kc false F old s) (hT : Within 11352008638 F := by exact within_of rfl (by assumption)) :
    Keeps kc false F old (State.acceptCreate s h c r) := by
  unfold State.acceptCreate
  extract_lets p g s1 q1 s2 hbm ct q2 q3 s3 s4
  have h1 : Keeps kc false F old s1 := foldS_keeps (fun s u h => foldS_keeps (fun s k h => setOwn_keeps h) h) hK
  have e1 : s1.security = s.security :=
    foldS_inv (P := fun t : State => t.security = s.security)
      (fun t u e => foldS_inv (P := fun t : State => t.security = s.security) (fun t k e => e) e) rfl
  have h2 : Keeps kc false F old s2 := setPart_keeps (fun h => absurd h Bool.false_ne_true) h1
  have e2 : s2.security = s.security := e1
  have h3 : Keeps kc false F old s3 := keeps_mk (x := s2) rfl h2 (hg := by rw [e2]; exact Nat.le_succ _)
  have h4 : Keeps kc false F old s4 := foldS_keeps (fun s b h => keeps_mk rfl (setReg_keeps h)) h3
  exact shareTables_keeps (wakeMemory_keeps h4)

theorem openSession_keeps {sid : Nat} {k : Key} (hK : Keeps kc kn F old s) (hT : Within 32768 F := by exact within_of rfl (by assumption)) :
    Keeps kc kn F old (State.openSession s sid k) := by
  unfold State.openSession
  repeat' first
    | with_reducible assumption
    | exact within_of rfl hT
    | (have x : True := trivial
       extract_lets +onlyGivenNames x
       first
       | ((first
           | (have z := x; guard_hyp z : State; clear z; refine keeps_via (x := x) ?_ (fun hx => ?_))
           | (have z := x.2; guard_hyp z : State; clear z; refine keeps_via (x := x.2) ?_ (fun hx => ?_))
           | (have z := x.2.2; guard_hyp z : State; clear z; refine keeps_via (x := x.2.2) ?_ (fun hx => ?_))
           | (have z := x.1; guard_hyp z : State; clear z; refine keeps_via (x := x.1) ?_ (fun hx => ?_)))
          rotate_left
          try clear_value x
          rotate_right
          dsimp -zeta only [x])
       | (fail_if_success (have z := x; guard_hyp z : True)
          try clear_value x))
    | ((with_reducible refine keeps_mk rfl ?_); first | with_reducible assumption | exact within_of rfl hT | split | dsimp -zeta only)
    | dsimp -zeta only

theorem completeSession_keeps {h : CmdHdr} {b ss : List Byte} (hK : Keeps kc kn F old s) (hT : Within 32770 F := by exact within_of rfl (by assumption)) :
    Keeps kc kn F old (State.completeSession s h b ss).2.2 := by
  unfold State.completeSession
  generalize shake256 = g0
  repeat' first
    | with_reducible assumption
    | exact within_of rfl hT
    | with_reducible apply takeFree_keeps
    | with_reducible apply openSession_keeps
    | (have x : True := trivial
       extract_lets +onlyGivenNames x
       first
       | ((first
           | (have z := x; guard_hyp z : State; clear z; refine keeps_via (x := x) ?_ (fun hx => ?_))
           | (have z := x.2; guard_hyp z : State; clear z; refine keeps_via (x := x.2) ?_ (fun hx => ?_))
           | (have z := x.2.2; guard_hyp z : State; clear z; refine keeps_via (x := x.2.2) ?_ (fun hx => ?_))
           | (have z := x.1; guard_hyp z : State; clear z; refine keeps_via (x := x.1) ?_ (fun hx => ?_)))
          rotate_left
          try clear_value x
          rotate_right
          dsimp -zeta only [x])
       | (fail_if_success (have z := x; guard_hyp z : True)
          try clear_value x))
    | dsimp -zeta only

theorem completeJob_keeps {b ss : List Byte} (hK : Keeps kc kn F old s) (hT : Within 536871168 F := by exact within_of rfl (by assumption)) :
    Keeps kc kn F old (State.completeJob s b ss).2.2 := by
  rw [State.completeJob.eq_1]
  generalize keyUnwrap = k
  dsimp only
  generalize k (keyOf _) (slice b 0x650 40) = x
  cases x with
  | none => exact ans_keeps hK
  | some j =>
    dsimp only [Option.elim]
    repeat' first
      | with_reducible exact ans_keeps hK
      | with_reducible exact modPart_keeps (keeps_mk rfl hK)
      | with_reducible exact keeps_mk rfl hK
      | split
      | dsimp only

theorem openRequest_keeps {h : CmdHdr} {kind : Nat} {req : Option (List Byte)} (hK : Keeps kc kn F old s) (hT : Within 536903942 F := by exact within_of rfl (by assumption)) :
    Keeps kc kn F old (State.openRequest s h kind req).2.2 := by
  have hr : ∀ n, Keeps kc kn F old (ans n (s.inc Reg.secOpenFailCount)).2.2 := fun n => ans_keeps (inc_keeps hK)
  cases req with
  | none => exact hr _
  | some b =>
    rw [State.openRequest.eq_2]
    generalize shake256 = g
    dsimp only
    split
    · exact hr _
    · split
      · exact hr _
      · split
        · exact hr _
        · split
          · exact completeJob_keeps hK
          · exact completeSession_keeps hK

theorem secCtrlWrite_keeps {v : Nat} (hK : Keeps kc kn F old s) (hT : Within 4 F := by exact within_of rfl (by assumption)) :
    Keeps kc kn F old (State.secCtrlWrite s v) := by
  unfold State.secCtrlWrite
  repeat' first | with_reducible assumption | exact within_of rfl hT | with_reducible apply setReg_keeps | dsimp only

theorem execPartCreate_keeps {h : CmdHdr} {params : List Byte} (hK : Keeps kc false F old s) (hT : Within 11385563071 F := by exact within_of rfl (by assumption)) :
    NextKeeps kc false F old (execPartCreate h params s) := by
  unfold execPartCreate
  repeat' first
    | with_reducible assumption
    | with_reducible apply next_keeps
    | with_reducible exact fault_keeps
    | exact within_of rfl hT
    | with_reducible intro _
    | with_reducible apply command_keeps
    | with_reducible apply ans_keeps
    | with_reducible apply acceptCreate_keeps
    | (have x : True := trivial
       extract_lets +onlyGivenNames x
       first
       | ((first
           | (have z := x; guard_hyp z : State; clear z; refine keeps_via (x := x) ?_ (fun hx => ?_))
           | (have z := x; guard_hyp z : State; clear z; refine next_via (x := x) ?_ (fun hx => ?_))
           | (have z := x.2; guard_hyp z : State; clear z; refine keeps_via (x := x.2) ?_ (fun hx => ?_))
           | (have z := x.2; guard_hyp z : State; clear z; refine next_via (x := x.2) ?_ (fun hx => ?_))
           | (have z := x.2.2; guard_hyp z : State; clear z; refine keeps_via (x := x.2.2) ?_ (fun hx => ?_))
           | (have z := x.2.2; guard_hyp z : State; clear z; refine next_via (x := x.2.2) ?_ (fun hx => ?_))
           | (have z := x.1; guard_hyp z : State; clear z; refine keeps_via (x := x.1) ?_ (fun hx => ?_))
           | (have z := x.1; guard_hyp z : State; clear z; refine next_via (x := x.1) ?_ (fun hx => ?_)))
          rotate_left
          try clear_value x
          rotate_right
          dsimp -zeta only [x])
       | ((first
           | (have z := x; guard_hyp z : Security)
           | (have z := x; guard_hyp z : Lease))
          dsimp -zeta only [x])
       | (fail_if_success (have z := x; guard_hyp z : True)
          try clear_value x))
    | ((with_reducible refine keeps_mk rfl ?_); first | with_reducible assumption | exact within_of rfl hT | (with_reducible apply command_keeps) | (with_reducible apply ans_keeps) | (with_reducible apply acceptCreate_keeps) | split | dsimp -zeta only)
    | with_reducible refine keeps_fst (by with_reducible assumption) ?_
    | with_reducible refine keeps_snd (by with_reducible assumption) ?_
    | with_reducible refine keeps_thd (by with_reducible assumption) ?_
    | split
    | exact fun h => absurd h Bool.false_ne_true
    | exact absurd ‹false = true› Bool.false_ne_true
    | dsimp -zeta only

theorem execPartActive_keeps {p : Fin 16} {t : Nat} (hK : Keeps kc kn F old s) (hT : Within 15835717631 F := by exact within_of rfl (by assumption)) :
    NextKeeps kc kn F old (execPartActive p t s) := by
  unfold execPartActive
  repeat' first
    | with_reducible assumption
    | with_reducible apply next_keeps
    | with_reducible exact fault_keeps
    | exact within_of rfl hT
    | with_reducible intro _
    | with_reducible apply tick_keeps
    | with_reducible apply modPart_keeps
    | with_reducible apply partStateEvent_keeps
    | with_reducible apply commandDone_keeps
    | with_reducible apply clearPartRegs_keeps
    | with_reducible apply overwrite_keeps
    | with_reducible apply beginDestroy_keeps
    | (have x : True := trivial
       extract_lets +onlyGivenNames x
       first
       | ((first
           | (have z := x; guard_hyp z : State; clear z; refine keeps_via (x := x) ?_ (fun hx => ?_))
           | (have z := x; guard_hyp z : State; clear z; refine next_via (x := x) ?_ (fun hx => ?_))
           | (have z := x.2; guard_hyp z : State; clear z; refine keeps_via (x := x.2) ?_ (fun hx => ?_))
           | (have z := x.2; guard_hyp z : State; clear z; refine next_via (x := x.2) ?_ (fun hx => ?_))
           | (have z := x.2.2; guard_hyp z : State; clear z; refine keeps_via (x := x.2.2) ?_ (fun hx => ?_))
           | (have z := x.2.2; guard_hyp z : State; clear z; refine next_via (x := x.2.2) ?_ (fun hx => ?_))
           | (have z := x.1; guard_hyp z : State; clear z; refine keeps_via (x := x.1) ?_ (fun hx => ?_))
           | (have z := x.1; guard_hyp z : State; clear z; refine next_via (x := x.1) ?_ (fun hx => ?_)))
          rotate_left
          try clear_value x
          rotate_right
          dsimp -zeta only [x])
       | (fail_if_success (have z := x; guard_hyp z : True)
          try clear_value x))
    | ((with_reducible refine keeps_mk rfl ?_); first | with_reducible assumption | exact within_of rfl hT | (with_reducible apply tick_keeps) | (with_reducible apply modPart_keeps) | (with_reducible apply partStateEvent_keeps) | (with_reducible apply commandDone_keeps) | (with_reducible apply clearPartRegs_keeps) | (with_reducible apply overwrite_keeps) | (with_reducible apply beginDestroy_keeps) | split | dsimp -zeta only)
    | split
    | dsimp -zeta only

theorem execPartDestroy_keeps {h : CmdHdr} {p : Nat} (hK : Keeps kc kn F old s) (hT : Within 11540750335 F := by exact within_of rfl (by assumption)) :
    NextKeeps kc kn F old (execPartDestroy h p s) := by
  unfold execPartDestroy
  repeat' first
    | with_reducible assumption
    | with_reducible apply next_keeps
    | with_reducible exact fault_keeps
    | exact within_of rfl hT
    | with_reducible intro _
    | with_reducible apply modPart_keeps
    | with_reducible apply command_keeps
    | with_reducible apply ans_keeps
    | with_reducible apply beginDestroy_keeps
    | (have x : True := trivial
       extract_lets +onlyGivenNames x
       first
       | ((first
           | (have z := x; guard_hyp z : State; clear z; refine keeps_via (x := x) ?_ (fun hx => ?_))
           | (have z := x; guard_hyp z : State; clear z; refine next_via (x := x) ?_ (fun hx => ?_))
           | (have z := x.2; guard_hyp z : State; clear z; refine keeps_via (x := x.2) ?_ (fun hx => ?_))
           | (have z := x.2; guard_hyp z : State; clear z; refine next_via (x := x.2) ?_ (fun hx => ?_))
           | (have z := x.2.2; guard_hyp z : State; clear z; refine keeps_via (x := x.2.2) ?_ (fun hx => ?_))
           | (have z := x.2.2; guard_hyp z : State; clear z; refine next_via (x := x.2.2) ?_ (fun hx => ?_))
           | (have z := x.1; guard_hyp z : State; clear z; refine keeps_via (x := x.1) ?_ (fun hx => ?_))
           | (have z := x.1; guard_hyp z : State; clear z; refine next_via (x := x.1) ?_ (fun hx => ?_)))
          rotate_left
          try clear_value x
          rotate_right
          dsimp -zeta only [x])
       | (fail_if_success (have z := x; guard_hyp z : True)
          try clear_value x))
    | ((with_reducible refine keeps_mk rfl ?_); first | with_reducible assumption | exact within_of rfl hT | (with_reducible apply modPart_keeps) | (with_reducible apply command_keeps) | (with_reducible apply ans_keeps) | (with_reducible apply beginDestroy_keeps) | split | dsimp -zeta only)
    | split
    | dsimp -zeta only

theorem execWhipOverwriteEnd_keeps {p : Fin 16} {t : Nat} (hK : Keeps kc false F old s) (hT : Within 12446719999 F := by exact within_of rfl (by assumption)) :
    NextKeeps kc false F old (execWhipOverwriteEnd p t s) := by
  unfold execWhipOverwriteEnd
  repeat' first
    | with_reducible assumption
    | with_reducible apply next_keeps
    | with_reducible exact fault_keeps
    | exact within_of rfl hT
    | with_reducible apply tick_keeps
    | with_reducible apply endWhip_keeps
    | (have x : True := trivial
       extract_lets +onlyGivenNames x
       first
       | ((first
           | (have z := x; guard_hyp z : State; clear z; refine keeps_via (x := x) ?_ (fun hx => ?_))
           | (have z := x; guard_hyp z : State; clear z; refine next_via (x := x) ?_ (fun hx => ?_))
           | (have z := x.2; guard_hyp z : State; clear z; refine keeps_via (x := x.2) ?_ (fun hx => ?_))
           | (have z := x.2; guard_hyp z : State; clear z; refine next_via (x := x.2) ?_ (fun hx => ?_))
           | (have z := x.2.2; guard_hyp z : State; clear z; refine keeps_via (x := x.2.2) ?_ (fun hx => ?_))
           | (have z := x.2.2; guard_hyp z : State; clear z; refine next_via (x := x.2.2) ?_ (fun hx => ?_))
           | (have z := x.1; guard_hyp z : State; clear z; refine keeps_via (x := x.1) ?_ (fun hx => ?_))
           | (have z := x.1; guard_hyp z : State; clear z; refine next_via (x := x.1) ?_ (fun hx => ?_)))
          rotate_left
          try clear_value x
          rotate_right
          dsimp -zeta only [x])
       | (fail_if_success (have z := x; guard_hyp z : True)
          try clear_value x))
    | split
    | exact fun h => absurd h Bool.false_ne_true
    | exact absurd ‹false = true› Bool.false_ne_true
    | dsimp -zeta only

theorem execSessionOpen_keeps {h : CmdHdr} {kind : Nat} {last : Bool} {offset : Nat} {data : List Byte} (hK : Keeps kc kn F old s) (hT : Within 9126838535 F := by exact within_of rfl (by assumption)) :
    NextKeeps kc kn F old (execSessionOpen h kind last offset data s) := by
  unfold execSessionOpen
  repeat' first
    | with_reducible assumption
    | with_reducible apply next_keeps
    | with_reducible exact fault_keeps
    | exact within_of rfl hT
    | with_reducible intro _
    | with_reducible apply hF
    | with_reducible apply hF4
    | with_reducible apply tick_keeps
    | with_reducible apply send_keeps
    | with_reducible apply countRefusal_keeps
    | with_reducible apply answer_keeps
    | with_reducible apply reply_keeps
    | with_reducible apply put_keeps
    | with_reducible apply openRequest_keeps
    | (have x : True := trivial
       extract_lets +onlyGivenNames x
       first
       | ((first
           | (have z := x; guard_hyp z : State; clear z; refine keeps_via (x := x) ?_ (fun hx => ?_))
           | (have z := x; guard_hyp z : State; clear z; refine next_via (x := x) ?_ (fun hx => ?_))
           | (have z := x.2; guard_hyp z : State; clear z; refine keeps_via (x := x.2) ?_ (fun hx => ?_))
           | (have z := x.2; guard_hyp z : State; clear z; refine next_via (x := x.2) ?_ (fun hx => ?_))
           | (have z := x.2.2; guard_hyp z : State; clear z; refine keeps_via (x := x.2.2) ?_ (fun hx => ?_))
           | (have z := x.2.2; guard_hyp z : State; clear z; refine next_via (x := x.2.2) ?_ (fun hx => ?_))
           | (have z := x.1; guard_hyp z : State; clear z; refine keeps_via (x := x.1) ?_ (fun hx => ?_))
           | (have z := x.1; guard_hyp z : State; clear z; refine next_via (x := x.1) ?_ (fun hx => ?_))
           | (have z := x; guard_hyp z : State → State; clear z; refine keeps_viaF0 (f := x) ?_ (fun hF => ?_))
           | (have z := x; guard_hyp z : State → State; clear z; refine next_viaF0 (f := x) ?_ (fun hF => ?_))
           | refine keeps_viaF (f := x) ?_ (fun hF => ?_)
           | refine next_viaF (f := x) ?_ (fun hF => ?_)
           | refine keeps_viaF2 (f := x) ?_ (fun hF => ?_)
           | refine next_viaF2 (f := x) ?_ (fun hF => ?_)
           | refine keeps_viaG (f := x) ?_ (fun hF => ?_)
           | refine next_viaG (f := x) ?_ (fun hF => ?_)
           | refine keeps_viaH (f := x) ?_ (fun hF => ?_)
           | refine next_viaH (f := x) ?_ (fun hF => ?_)
           | refine keeps_viaP (f := x) ?_ (fun hF => ?_)
           | refine next_viaP (f := x) ?_ (fun hF => ?_)
           | refine keeps_viaF4 (f := x) ?_ (fun hF4 => ?_)
           | refine next_viaF4 (f := x) ?_ (fun hF4 => ?_))
          rotate_left
          try clear_value x
          rotate_right
          dsimp -zeta only [x])
       | ((first
           | (have z := x; guard_hyp z : Security)
           | (have z := x; guard_hyp z : Lease))
          dsimp -zeta only [x])
       | (fail_if_success (have z := x; guard_hyp z : True)
          try clear_value x))
    | ((with_reducible refine keeps_mk rfl ?_); first | with_reducible assumption | exact within_of rfl hT | (with_reducible apply tick_keeps) | (with_reducible apply send_keeps) | (with_reducible apply countRefusal_keeps) | (with_reducible apply answer_keeps) | (with_reducible apply reply_keeps) | (with_reducible apply put_keeps) | (with_reducible apply openRequest_keeps) | split | dsimp -zeta only)
    | with_reducible refine keeps_fst (by with_reducible assumption) ?_
    | with_reducible refine keeps_snd (by with_reducible assumption) ?_
    | with_reducible refine keeps_thd (by with_reducible assumption) ?_
    | split
    | dsimp -zeta only

theorem execSessionClose_keeps {h : CmdHdr} {kind jobKey : Nat} (hK : Keeps kc kn F old s) (hT : Within 11383457711 F := by exact within_of rfl (by assumption)) :
    NextKeeps kc kn F old (execSessionClose h kind jobKey s) := by
  unfold execSessionClose
  repeat' first
    | with_reducible assumption
    | with_reducible apply next_keeps
    | with_reducible exact fault_keeps
    | exact within_of rfl hT
    | with_reducible intro _
    | with_reducible apply modPart_keeps
    | with_reducible apply modSession_keeps
    | with_reducible apply command_keeps
    | with_reducible apply ans_keeps
    | (have x : True := trivial
       extract_lets +onlyGivenNames x
       first
       | ((first
           | (have z := x; guard_hyp z : State; clear z; refine keeps_via (x := x) ?_ (fun hx => ?_))
           | (have z := x; guard_hyp z : State; clear z; refine next_via (x := x) ?_ (fun hx => ?_))
           | (have z := x.2; guard_hyp z : State; clear z; refine keeps_via (x := x.2) ?_ (fun hx => ?_))
           | (have z := x.2; guard_hyp z : State; clear z; refine next_via (x := x.2) ?_ (fun hx => ?_))
           | (have z := x.2.2; guard_hyp z : State; clear z; refine keeps_via (x := x.2.2) ?_ (fun hx => ?_))
           | (have z := x.2.2; guard_hyp z : State; clear z; refine next_via (x := x.2.2) ?_ (fun hx => ?_))
           | (have z := x.1; guard_hyp z : State; clear z; refine keeps_via (x := x.1) ?_ (fun hx => ?_))
           | (have z := x.1; guard_hyp z : State; clear z; refine next_via (x := x.1) ?_ (fun hx => ?_)))
          rotate_left
          try clear_value x
          rotate_right
          dsimp -zeta only [x])
       | ((first
           | (have z := x; guard_hyp z : Security)
           | (have z := x; guard_hyp z : Lease))
          dsimp -zeta only [x])
       | (fail_if_success (have z := x; guard_hyp z : True)
          try clear_value x))
    | ((with_reducible refine keeps_mk rfl ?_); first | with_reducible assumption | exact within_of rfl hT | (with_reducible apply modPart_keeps) | (with_reducible apply modSession_keeps) | (with_reducible apply command_keeps) | (with_reducible apply ans_keeps) | split | dsimp -zeta only)
    | with_reducible refine keeps_fst (by with_reducible assumption) ?_
    | with_reducible refine keeps_snd (by with_reducible assumption) ?_
    | with_reducible refine keeps_thd (by with_reducible assumption) ?_
    | split
    | dsimp -zeta only

theorem execAttest_keeps {h : CmdHdr} {challenge : List Byte} {cert : Bool} {offset : Nat} (hK : Keeps kc kn F old s) (hT : Within 11383457711 F := by exact within_of rfl (by assumption)) :
    NextKeeps kc kn F old (execAttest h challenge cert offset s) := by
  unfold execAttest
  refine next_keeps (command_keeps (fun y hy => ?_) hK)
  dsimp only
  split
  · exact hy
  split
  · split <;> exact hy
  split
  · exact hy
  cases y.session h.session with
  | none => exact hy
  | some x =>
    dsimp only
    split
    · exact modSession_keeps (inc_keeps (keeps_mk rfl hy))
    · exact hy


theorem execSecCtrl_keeps {h : CmdHdr} {value : Word} (hK : Keeps kc kn F old s) (hT : Within 10846586799 F := by exact within_of rfl (by assumption)) :
    NextKeeps kc kn F old (execSecCtrl h value s) := by
  unfold execSecCtrl
  repeat' first
    | with_reducible assumption
    | with_reducible apply next_keeps
    | with_reducible exact fault_keeps
    | exact within_of rfl hT
    | with_reducible intro _
    | with_reducible apply ans_keeps
    | with_reducible apply regCommand_keeps
    | with_reducible apply secCtrlWrite_keeps
    | dsimp only

theorem execDebugOpen_keeps {t : Nat} (hK : Keeps kc kn F old s) (hT : Within 536870913 F := by exact within_of rfl (by assumption)) :
    NextKeeps kc kn F old (execDebugOpen t s) := by
  unfold execDebugOpen
  repeat' first
    | with_reducible assumption
    | with_reducible apply next_keeps
    | with_reducible exact fault_keeps
    | exact within_of rfl hT
    | with_reducible apply tick_keeps
    | (have x : True := trivial
       extract_lets +onlyGivenNames x
       first
       | ((first
           | (have z := x; guard_hyp z : State; clear z; refine keeps_via (x := x) ?_ (fun hx => ?_))
           | (have z := x; guard_hyp z : State; clear z; refine next_via (x := x) ?_ (fun hx => ?_))
           | (have z := x.2; guard_hyp z : State; clear z; refine keeps_via (x := x.2) ?_ (fun hx => ?_))
           | (have z := x.2; guard_hyp z : State; clear z; refine next_via (x := x.2) ?_ (fun hx => ?_))
           | (have z := x.2.2; guard_hyp z : State; clear z; refine keeps_via (x := x.2.2) ?_ (fun hx => ?_))
           | (have z := x.2.2; guard_hyp z : State; clear z; refine next_via (x := x.2.2) ?_ (fun hx => ?_))
           | (have z := x.1; guard_hyp z : State; clear z; refine keeps_via (x := x.1) ?_ (fun hx => ?_))
           | (have z := x.1; guard_hyp z : State; clear z; refine next_via (x := x.1) ?_ (fun hx => ?_)))
          rotate_left
          try clear_value x
          rotate_right
          dsimp -zeta only [x])
       | ((first
           | (have z := x; guard_hyp z : Security)
           | (have z := x; guard_hyp z : Lease))
          dsimp -zeta only [x])
       | (fail_if_success (have z := x; guard_hyp z : True)
          try clear_value x))
    | ((with_reducible refine keeps_mk rfl ?_); first | with_reducible assumption | exact within_of rfl hT | (with_reducible apply tick_keeps) | split | dsimp -zeta only)
    | split
    | dsimp -zeta only

end Sys2Proof.Machine
end

