-- ==== Sys2Proof/Laws/KeepsRegs.lean ====
section
/-! SUPPORT. What the operations of Machine/Regs.lean keep: one lemma for each. -/

namespace Sys2Proof.Machine

set_option linter.all false
set_option Elab.async false

variable {kc kn : Bool} {F : Field → Bool} {old s : State}

theorem readWord_keeps {sid addr coincident : Nat} (hK : Keeps kc kn F old s) (hT : Within 32772 F := by exact within_of rfl (by assumption)) :
    Keeps kc kn F old (State.readWord s sid addr coincident).2 := by
  unfold State.readWord
  repeat' first
    | with_reducible assumption
    | exact within_of rfl hT
    | with_reducible intro _
    | with_reducible apply setReg_keeps
    | with_reducible apply modSession_keeps
    | (have x : True := trivial
       extract_lets +onlyGivenNames x
       first
       | ((first
           | (have z := x; guard_hyp z : State; clear z; refine keeps_via (x := x) ?_ (fun hx => ?_))
           | (have z := x.2; guard_hyp z : State; clear z; refine keeps_via (x := x.2) ?_ (fun hx => ?_))
           | (have z := x.2.2; guard_hyp z : State; clear z; refine keeps_via (x := x.2.2) ?_ (fun hx => ?_))
           | (have z := x.1; guard_hyp z : State; clear z; refine keeps_via (x := x.1) ?_ (fun hx => ?_)))
          rotate_left
          try clear_value x
          rotate_right
          dsimp -zeta only [x])
       | (fail_if_success (have z := x; guard_hyp z : True)
          try clear_value x))
    | ((with_reducible refine keeps_mk rfl ?_); first | with_reducible assumption | exact within_of rfl hT | (with_reducible apply setReg_keeps) | (with_reducible apply modSession_keeps) | split | dsimp -zeta only)
    | with_reducible refine keeps_fst (by with_reducible assumption) ?_
    | with_reducible refine keeps_snd (by with_reducible assumption) ?_
    | with_reducible refine keeps_thd (by with_reducible assumption) ?_
    | split
    | dsimp -zeta only

theorem accrue_keeps {a : Nat} (hK : Keeps kc kn F old s) (hT : Within 150995076 F := by exact within_of rfl (by assumption)) :
    Keeps kc kn F old (State.accrue s a) := by
  unfold State.accrue
  repeat' first
    | with_reducible assumption
    | exact within_of rfl hT
    | with_reducible intro _
    | with_reducible apply countGate_keeps
    | with_reducible apply countHeld_keeps
    | with_reducible apply countCore_keeps
    | with_reducible apply foldS_keeps
    | (have x : True := trivial
       extract_lets +onlyGivenNames x
       first
       | ((first
           | (have z := x; guard_hyp z : State; clear z; refine keeps_via (x := x) ?_ (fun hx => ?_))
           | (have z := x.2; guard_hyp z : State; clear z; refine keeps_via (x := x.2) ?_ (fun hx => ?_))
           | (have z := x.2.2; guard_hyp z : State; clear z; refine keeps_via (x := x.2.2) ?_ (fun hx => ?_))
           | (have z := x.1; guard_hyp z : State; clear z; refine keeps_via (x := x.1) ?_ (fun hx => ?_)))
          rotate_left
          try clear_value x
          rotate_right
          dsimp -zeta only [x])
       | (fail_if_success (have z := x; guard_hyp z : True)
          try clear_value x))
    | ((with_reducible refine keeps_mk rfl ?_); first | with_reducible assumption | exact within_of rfl hT | (with_reducible apply countGate_keeps) | (with_reducible apply countHeld_keeps) | (with_reducible apply countCore_keeps) | with_reducible apply foldS_keeps | split | dsimp -zeta only)
    | with_reducible refine keeps_fst (by with_reducible assumption) ?_
    | with_reducible refine keeps_snd (by with_reducible assumption) ?_
    | with_reducible refine keeps_thd (by with_reducible assumption) ?_
    | split
    | dsimp -zeta only

theorem readWords_keeps {sid : Nat} {as : List Nat} {coincident : Nat} (hK : Keeps kc kn F old s) (hT : Within 10964027310 F := by exact within_of rfl (by assumption)) :
    Keeps kc kn F old (State.readWords s sid as coincident).2 := by
  have hf : ∀ (l : List Nat) (x : List Byte × State), Keeps kc kn F old x.2 →
      Keeps kc kn F old (l.foldl (fun x a =>
        ((x.1 ++ toLe 4 (x.2.readWord sid a coincident).1, (x.2.readWord sid a coincident).2) : List Byte × State)) x).2 := by
    intro l
    induction l with
    | nil => exact fun x h => h
    | cons a l ih => exact fun x h => ih _ (readWord_keeps h)
  unfold State.readWords
  exact hf _ _ (foldS_keeps (fun s a h => accrue_keeps (reachReg_keeps h)) hK)

theorem readCommand_keeps {sid addr count coincident : Nat} (hK : Keeps kc kn F old s) (hT : Within 10964027310 F := by exact within_of rfl (by assumption)) :
    Keeps kc kn F old (State.readCommand s sid addr count coincident).2.2 := by
  unfold State.readCommand
  repeat' first
    | with_reducible assumption
    | exact within_of rfl hT
    | with_reducible apply ans_keeps
    | with_reducible apply readWords_keeps
    | (have x : True := trivial
       extract_lets +onlyGivenNames x
       first
       | ((first
           | (have z := x; guard_hyp z : State; clear z; refine keeps_via (x := x) ?_ (fun hx => ?_))
           | (have z := x.2; guard_hyp z : State; clear z; refine keeps_via (x := x.2) ?_ (fun hx => ?_))
           | (have z := x.2.2; guard_hyp z : State; clear z; refine keeps_via (x := x.2.2) ?_ (fun hx => ?_))
           | (have z := x.1; guard_hyp z : State; clear z; refine keeps_via (x := x.1) ?_ (fun hx => ?_)))
          rotate_left
          try clear_value x
          rotate_right
          dsimp -zeta only [x])
       | (fail_if_success (have z := x; guard_hyp z : True)
          try clear_value x))
    | split
    | dsimp -zeta only

theorem execRegRead_keeps {h : CmdHdr} {addr count : Nat} (hK : Keeps kc kn F old s) (hT : Within 10997581743 F := by exact within_of rfl (by assumption)) :
    NextKeeps kc kn F old (execRegRead h addr count s) := by
  unfold execRegRead
  repeat' first
    | with_reducible assumption
    | with_reducible apply next_keeps
    | with_reducible exact fault_keeps
    | exact within_of rfl hT
    | with_reducible intro _
    | with_reducible apply command_keeps
    | with_reducible apply readCommand_keeps
    | dsimp only

theorem execRcRead_keeps {h : CmdHdr} {addr coincident : Nat} (hK : Keeps kc kn F old s) (hT : Within 10997581743 F := by exact within_of rfl (by assumption)) :
    NextKeeps kc kn F old (execRcRead h addr coincident s) := by
  unfold execRcRead
  repeat' first
    | with_reducible assumption
    | with_reducible apply next_keeps
    | with_reducible exact fault_keeps
    | exact within_of rfl hT
    | with_reducible intro _
    | with_reducible apply command_keeps
    | with_reducible apply readCommand_keeps
    | dsimp only

theorem execLatchRead_keeps {h : CmdHdr} {addr : Nat} (hK : Keeps kc kn F old s) (hT : Within 10997581743 F := by exact within_of rfl (by assumption)) :
    NextKeeps kc kn F old (execLatchRead h addr s) := by
  unfold execLatchRead
  repeat' first
    | with_reducible assumption
    | with_reducible apply next_keeps
    | with_reducible exact fault_keeps
    | exact within_of rfl hT
    | with_reducible intro _
    | with_reducible apply command_keeps
    | with_reducible apply readCommand_keeps
    | dsimp only

theorem execMemRead_keeps {h : CmdHdr} {pma bytes part : Nat} (hK : Keeps kc kn F old s) (hT : Within 10846592943 F := by exact within_of rfl (by assumption)) :
    NextKeeps kc kn F old (execMemRead h pma bytes part s) := by
  unfold execMemRead
  repeat' first
    | with_reducible assumption
    | with_reducible apply next_keeps
    | with_reducible exact fault_keeps
    | exact within_of rfl hT
    | with_reducible intro _
    | with_reducible apply command_keeps
    | with_reducible apply ans_keeps
    | with_reducible apply fetchP_keeps
    | (have x : True := trivial
       extract_lets +onlyGivenNames x
       first
       | ((first
           | (have z := x; guard_hyp z : State; clear z; refine keeps_via (x := x) ?_ (fun hx => ?_))
           | (have z := x; guard_hyp z : State; clear z; refine next_via (x := x) ?_ (fun hx => ?_))
           | (have z := x.2; guard_hyp z : State; clear z; refine keeps_via (x := x.2) ?_ (fun hx => ?_))
           | (have z := x.2; guard_hyp z : State; clear z; refine next_via (x := x.2) ?_ (fun hx => ?_))
           | (have z := x.2.2; guard_hyp z : State; clear z; refine keeps_via (x := x.2.2) ?_ (fun hx => ?_))
           | (have z := x.2.2; guard_hyp z : State; clear z; refine next_via (x := x.2.2) ?_ (fun hx => ?_))
           | (have z := x.1; guard_hyp z : State; clear z; refine keeps_via (x := x.1) ?_ (fun hx => ?_))
           | (have z := x.1; guard_hyp z : State; clear z; refine next_via (x := x.1) ?_ (fun hx => ?_)))
          rotate_left
          try clear_value x
          rotate_right
          dsimp -zeta only [x])
       | (fail_if_success (have z := x; guard_hyp z : True)
          try clear_value x))
    | split
    | dsimp -zeta only

theorem execMemWrite_keeps {h : CmdHdr} {pma : Nat} {data : List Byte} {part : Nat} (hK : Keeps kc kn F old s) (hT : Within 10846592943 F := by exact within_of rfl (by assumption)) :
    NextKeeps kc kn F old (execMemWrite h pma data part s) := by
  unfold execMemWrite
  repeat' first
    | with_reducible assumption
    | with_reducible apply next_keeps
    | with_reducible exact fault_keeps
    | exact within_of rfl hT
    | with_reducible intro _
    | with_reducible apply command_keeps
    | with_reducible apply ans_keeps
    | with_reducible apply storeP_keeps
    | (have x : True := trivial
       extract_lets +onlyGivenNames x
       first
       | ((first
           | (have z := x; guard_hyp z : State; clear z; refine keeps_via (x := x) ?_ (fun hx => ?_))
           | (have z := x; guard_hyp z : State; clear z; refine next_via (x := x) ?_ (fun hx => ?_))
           | (have z := x.2; guard_hyp z : State; clear z; refine keeps_via (x := x.2) ?_ (fun hx => ?_))
           | (have z := x.2; guard_hyp z : State; clear z; refine next_via (x := x.2) ?_ (fun hx => ?_))
           | (have z := x.2.2; guard_hyp z : State; clear z; refine keeps_via (x := x.2.2) ?_ (fun hx => ?_))
           | (have z := x.2.2; guard_hyp z : State; clear z; refine next_via (x := x.2.2) ?_ (fun hx => ?_))
           | (have z := x.1; guard_hyp z : State; clear z; refine keeps_via (x := x.1) ?_ (fun hx => ?_))
           | (have z := x.1; guard_hyp z : State; clear z; refine next_via (x := x.1) ?_ (fun hx => ?_)))
          rotate_left
          try clear_value x
          rotate_right
          dsimp -zeta only [x])
       | (fail_if_success (have z := x; guard_hyp z : True)
          try clear_value x))
    | split
    | dsimp -zeta only

end Sys2Proof.Machine
end

