-- ==== Sys2Proof/Laws/KeepsSplice.lean ====
section
/-! SUPPORT. What the operations of Machine/Splice.lean keep: one lemma for each. -/

namespace Sys2Proof.Machine

set_option linter.all false
set_option Elab.async false

variable {kc kn : Bool} {F : Field → Bool} {old s : State}

theorem newWiring_keeps (hK : Keeps kc kn F old s) (hT : Within 268451844 F := by exact within_of rfl (by assumption)) :
    Keeps kc kn F old (State.newWiring s) := by
  unfold State.newWiring
  repeat' first
    | with_reducible assumption
    | exact within_of rfl hT
    | with_reducible intro _
    | with_reducible apply retrain_keeps
    | with_reducible apply foldS_keeps
    | (have x : True := trivial
       extract_lets +onlyGivenNames x
       first
       | ((first
           | (have z := x; guard_hyp z : State; clear z; refine keeps_via (x := x) ?_ (fun hx => ?_))
           | (have z := x.2; guard_hyp z : State; clear z; refine keeps_via (x := x.2) ?_ (fun hx => ?_))
           | (have z := x.2.2; guard_hyp z : State; clear z; refine keeps_via (x := x.2.2) ?_ (fun hx => ?_))
           | (have z := x.1; guard_hyp z : State; clear z; refine keeps_via (x := x.1) ?_ (fun hx => ?_)))
          rotate_left
          try clear_value x
          rotate_right
          dsimp -zeta only [x])
       | (fail_if_success (have z := x; guard_hyp z : True)
          try clear_value x))
    | ((with_reducible refine keeps_mk rfl ?_); first | with_reducible assumption | exact within_of rfl hT | (with_reducible apply retrain_keeps) | with_reducible apply foldS_keeps | split | dsimp -zeta only)
    | with_reducible refine keeps_fst (by with_reducible assumption) ?_
    | with_reducible refine keeps_snd (by with_reducible assumption) ?_
    | with_reducible refine keeps_thd (by with_reducible assumption) ?_
    | split
    | dsimp -zeta only

theorem installed_keeps {kind inst : Nat} {c : Nat → Nat} (hK : Keeps kc kn F old s) (hT : Within 268787716 F := by exact within_of rfl (by assumption)) :
    Keeps kc kn F old (State.installed s kind inst c) := by
  unfold State.installed
  repeat' first
    | with_reducible assumption
    | exact within_of rfl hT
    | with_reducible intro _
    | with_reducible apply modHostPort_keeps
    | with_reducible apply putTable_keeps
    | with_reducible apply newWiring_keeps
    | with_reducible apply foldS_keeps
    | (have x : True := trivial
       extract_lets +onlyGivenNames x
       first
       | ((first
           | (have z := x; guard_hyp z : State; clear z; refine keeps_via (x := x) ?_ (fun hx => ?_))
           | (have z := x.2; guard_hyp z : State; clear z; refine keeps_via (x := x.2) ?_ (fun hx => ?_))
           | (have z := x.2.2; guard_hyp z : State; clear z; refine keeps_via (x := x.2.2) ?_ (fun hx => ?_))
           | (have z := x.1; guard_hyp z : State; clear z; refine keeps_via (x := x.1) ?_ (fun hx => ?_)))
          rotate_left
          try clear_value x
          rotate_right
          dsimp -zeta only [x])
       | (fail_if_success (have z := x; guard_hyp z : True)
          try clear_value x))
    | ((with_reducible refine keeps_mk rfl ?_); first | with_reducible assumption | exact within_of rfl hT | (with_reducible apply modHostPort_keeps) | (with_reducible apply putTable_keeps) | (with_reducible apply newWiring_keeps) | with_reducible apply foldS_keeps | split | dsimp -zeta only)
    | with_reducible refine keeps_fst (by with_reducible assumption) ?_
    | with_reducible refine keeps_snd (by with_reducible assumption) ?_
    | with_reducible refine keeps_thd (by with_reducible assumption) ?_
    | split
    | dsimp -zeta only

theorem commitEnds_keeps {sid kind inst st : Nat} {discard : Bool} (hK : Keeps kc kn F old s) (hT : Within 32768 F := by exact within_of rfl (by assumption)) :
    Keeps kc kn F old (State.commitEnds s sid kind inst st discard) := by
  unfold State.commitEnds
  repeat' first
    | with_reducible assumption
    | exact within_of rfl hT
    | with_reducible intro _
    | with_reducible apply modSession_keeps
    | ((with_reducible refine keeps_mk rfl ?_); first | with_reducible assumption | exact within_of rfl hT | (with_reducible apply modSession_keeps) | split | dsimp only)
    | split
    | dsimp only

theorem commit_keeps {sid v : Nat} (hK : Keeps kc kn F old s) (hT : Within 268820484 F := by exact within_of rfl (by assumption)) :
    Keeps kc kn F old (State.commit s sid v).2 := by
  unfold State.commit
  repeat' first
    | with_reducible assumption
    | exact within_of rfl hT
    | with_reducible intro _
    | with_reducible apply setReg_keeps
    | with_reducible apply installed_keeps
    | with_reducible apply commitEnds_keeps
    | with_reducible apply foldS_keeps
    | (have x : True := trivial
       extract_lets +onlyGivenNames x
       first
       | ((first
           | (have z := x; guard_hyp z : State; clear z; refine keeps_via (x := x) ?_ (fun hx => ?_))
           | (have z := x.2; guard_hyp z : State; clear z; refine keeps_via (x := x.2) ?_ (fun hx => ?_))
           | (have z := x.2.2; guard_hyp z : State; clear z; refine keeps_via (x := x.2.2) ?_ (fun hx => ?_))
           | (have z := x.1; guard_hyp z : State; clear z; refine keeps_via (x := x.1) ?_ (fun hx => ?_)))
          rotate_left
          try clear_value x
          rotate_right
          dsimp -zeta only [x])
       | (fail_if_success (have z := x; guard_hyp z : True)
          try clear_value x))
    | ((with_reducible refine keeps_mk rfl ?_); first | with_reducible assumption | exact within_of rfl hT | (with_reducible apply setReg_keeps) | (with_reducible apply installed_keeps) | (with_reducible apply commitEnds_keeps) | with_reducible apply foldS_keeps | split | dsimp -zeta only)
    | with_reducible refine keeps_fst (by with_reducible assumption) ?_
    | with_reducible refine keeps_snd (by with_reducible assumption) ?_
    | with_reducible refine keeps_thd (by with_reducible assumption) ?_
    | split
    | dsimp -zeta only

theorem auditSnap_keeps {b d p : Nat} (hK : Keeps kc kn F old s) (hT : Within 10737451268 F := by exact within_of rfl (by assumption)) :
    Keeps kc kn F old (State.auditSnap s b d p) := by
  unfold State.auditSnap
  repeat' first
    | with_reducible assumption
    | exact within_of rfl hT
    | with_reducible intro _
    | with_reducible apply auditCredits_keeps
    | with_reducible apply auditBight_keeps
    | with_reducible apply auditRegions_keeps
    | with_reducible apply auditPages_keeps
    | with_reducible apply auditAccounts_keeps
    | with_reducible apply auditReserved_keeps
    | with_reducible apply auditReels_keeps
    | with_reducible apply auditTotals_keeps
    | ((with_reducible refine keeps_mk rfl ?_); first | with_reducible assumption | exact within_of rfl hT | (with_reducible apply auditCredits_keeps) | (with_reducible apply auditBight_keeps) | (with_reducible apply auditRegions_keeps) | (with_reducible apply auditPages_keeps) | (with_reducible apply auditAccounts_keeps) | (with_reducible apply auditReserved_keeps) | (with_reducible apply auditReels_keeps) | (with_reducible apply auditTotals_keeps) | split | dsimp only)
    | with_reducible refine keeps_fst (by with_reducible assumption) ?_
    | with_reducible refine keeps_snd (by with_reducible assumption) ?_
    | with_reducible refine keeps_thd (by with_reducible assumption) ?_
    | split
    | dsimp only

theorem snapWrite_keeps {addr : Nat} {r : RegRow} {ix : List Nat} {v : Nat} (hK : Keeps kc kn F old s) (hT : Within 15036612868 F := by exact within_of rfl (by assumption)) :
    Keeps kc kn F old (State.snapWrite s addr r ix v) := by
  unfold State.snapWrite
  repeat' first
    | with_reducible assumption
    | exact within_of rfl hT
    | with_reducible intro _
    | with_reducible apply setReg_keeps
    | with_reducible apply auditSnap_keeps
    | with_reducible apply foldl_keeps
    | (have x : True := trivial
       extract_lets +onlyGivenNames x
       first
       | ((first
           | (have z := x; guard_hyp z : State; clear z; refine keeps_via (x := x) ?_ (fun hx => ?_))
           | (have z := x.2; guard_hyp z : State; clear z; refine keeps_via (x := x.2) ?_ (fun hx => ?_))
           | (have z := x.2.2; guard_hyp z : State; clear z; refine keeps_via (x := x.2.2) ?_ (fun hx => ?_))
           | (have z := x.1; guard_hyp z : State; clear z; refine keeps_via (x := x.1) ?_ (fun hx => ?_)))
          rotate_left
          try clear_value x
          rotate_right
          dsimp -zeta only [x])
       | (fail_if_success (have z := x; guard_hyp z : True)
          try clear_value x))
    | ((with_reducible refine keeps_mk rfl ?_); first | with_reducible assumption | exact within_of rfl hT | (with_reducible apply setReg_keeps) | (with_reducible apply auditSnap_keeps) | split | dsimp -zeta only)
    | with_reducible refine keeps_fst (by with_reducible assumption) ?_
    | with_reducible refine keeps_snd (by with_reducible assumption) ?_
    | with_reducible refine keeps_thd (by with_reducible assumption) ?_
    | split
    | dsimp -zeta only

theorem ranged_keeps {addr v : Nat} {ok : Bool} (hK : Keeps kc kn F old s) (hT : Within 4 F := by exact within_of rfl (by assumption)) :
    Keeps kc kn F old (State.ranged s addr v ok).2 := by
  unfold State.ranged
  repeat' first | with_reducible assumption | exact within_of rfl hT | with_reducible apply setReg_keeps | split | dsimp only

theorem writeSingle_keeps {addr v : Nat} {r : RegRow} {ix : List Nat} (hK : Keeps kc kn F old s) (hT : Within 15550513134 F := by exact within_of rfl (by assumption)) :
    Keeps kc kn F old (State.writeSingle s addr v r ix).2 := by
  unfold State.writeSingle
  repeat' first
    | with_reducible assumption
    | exact within_of rfl hT
    | with_reducible intro _
    | with_reducible apply hF
    | with_reducible apply hF4
    | with_reducible apply setReg_keeps
    | with_reducible apply aonWrite_keeps
    | with_reducible apply domCtrlWrite_keeps
    | with_reducible apply errPop_keeps
    | with_reducible apply regionWrite_keeps
    | with_reducible apply chkPartWrite_keeps
    | with_reducible apply qsetWrite_keeps
    | with_reducible apply jrnlRdWrite_keeps
    | with_reducible apply replayWrite_keeps
    | with_reducible apply coreOwnerWrite_keeps
    | with_reducible apply hnkCtrlWrite_keeps
    | with_reducible apply keepWarmWrite_keeps
    | with_reducible apply remarginWrite_keeps
    | with_reducible apply lnyCtrlWrite_keeps
    | with_reducible apply startCtrlWrite_keeps
    | with_reducible apply fldCtrlWrite_keeps
    | with_reducible apply fldBgWrite_keeps
    | with_reducible apply secCtrlWrite_keeps
    | with_reducible apply ecnCtrlWrite_keeps
    | with_reducible apply braidWrite_keeps
    | with_reducible apply snapWrite_keeps
    | with_reducible apply ranged_keeps
    | (have x : True := trivial
       extract_lets +onlyGivenNames x
       first
       | ((first
           | (have z := x; guard_hyp z : State; clear z; refine keeps_via (x := x) ?_ (fun hx => ?_))
           | (have z := x.2; guard_hyp z : State; clear z; refine keeps_via (x := x.2) ?_ (fun hx => ?_))
           | (have z := x.2.2; guard_hyp z : State; clear z; refine keeps_via (x := x.2.2) ?_ (fun hx => ?_))
           | (have z := x.1; guard_hyp z : State; clear z; refine keeps_via (x := x.1) ?_ (fun hx => ?_))
           | (have z := x; guard_hyp z : State → State; clear z; refine keeps_viaF0 (f := x) ?_ (fun hF => ?_))
           | refine keeps_viaF (f := x) ?_ (fun hF => ?_)
           | refine keeps_viaF2 (f := x) ?_ (fun hF => ?_)
           | refine keeps_viaG (f := x) ?_ (fun hF => ?_)
           | refine keeps_viaH (f := x) ?_ (fun hF => ?_)
           | refine keeps_viaP (f := x) ?_ (fun hF => ?_)
           | refine keeps_viaF4 (f := x) ?_ (fun hF4 => ?_))
          rotate_left
          try clear_value x
          rotate_right
          dsimp -zeta only [x])
       | (fail_if_success (have z := x; guard_hyp z : True)
          try clear_value x))
    | ((with_reducible refine keeps_mk rfl ?_); first | with_reducible assumption | exact within_of rfl hT | (with_reducible apply setReg_keeps) | (with_reducible apply aonWrite_keeps) | (with_reducible apply domCtrlWrite_keeps) | (with_reducible apply errPop_keeps) | (with_reducible apply regionWrite_keeps) | (with_reducible apply chkPartWrite_keeps) | (with_reducible apply qsetWrite_keeps) | (with_reducible apply jrnlRdWrite_keeps) | (with_reducible apply replayWrite_keeps) | (with_reducible apply coreOwnerWrite_keeps) | (with_reducible apply hnkCtrlWrite_keeps) | (with_reducible apply keepWarmWrite_keeps) | (with_reducible apply remarginWrite_keeps) | (with_reducible apply lnyCtrlWrite_keeps) | (with_reducible apply startCtrlWrite_keeps) | (with_reducible apply fldCtrlWrite_keeps) | (with_reducible apply fldBgWrite_keeps) | (with_reducible apply secCtrlWrite_keeps) | (with_reducible apply ecnCtrlWrite_keeps) | (with_reducible apply braidWrite_keeps) | (with_reducible apply snapWrite_keeps) | (with_reducible apply ranged_keeps) | split | dsimp -zeta only)
    | with_reducible refine keeps_fst (by with_reducible assumption) ?_
    | with_reducible refine keeps_snd (by with_reducible assumption) ?_
    | with_reducible refine keeps_thd (by with_reducible assumption) ?_
    | split
    | dsimp -zeta only

theorem writeOnes_keeps {addr v coincident : Nat} {r : RegRow} {ix : List Nat} (hK : Keeps kc kn F old s) (hT : Within 36 F := by exact within_of rfl (by assumption)) :
    Keeps kc kn F old (State.writeOnes s addr v coincident r ix) := by
  unfold State.writeOnes
  repeat' first
    | with_reducible assumption
    | exact within_of rfl hT
    | with_reducible apply clearFlags_keeps
    | with_reducible apply qmaskWrite_keeps
    | split
    | dsimp only

theorem writeWord_keeps {sid addr v coincident : Nat} (hK : Keeps kc kn F old s) (hT : Within 15550775278 F := by exact within_of rfl (by assumption)) :
    Keeps kc kn F old (State.writeWord s sid addr v coincident).2 := by
  unfold State.writeWord
  repeat' first
    | with_reducible assumption
    | exact within_of rfl hT
    | with_reducible intro _
    | with_reducible apply modSession_keeps
    | with_reducible apply commit_keeps
    | with_reducible apply writeSingle_keeps
    | with_reducible apply writeOnes_keeps
    | (have x : True := trivial
       extract_lets +onlyGivenNames x
       first
       | ((first
           | (have z := x; guard_hyp z : State; clear z; refine keeps_via (x := x) ?_ (fun hx => ?_))
           | (have z := x.2; guard_hyp z : State; clear z; refine keeps_via (x := x.2) ?_ (fun hx => ?_))
           | (have z := x.2.2; guard_hyp z : State; clear z; refine keeps_via (x := x.2.2) ?_ (fun hx => ?_))
           | (have z := x.1; guard_hyp z : State; clear z; refine keeps_via (x := x.1) ?_ (fun hx => ?_)))
          rotate_left
          try clear_value x
          rotate_right
          dsimp -zeta only [x])
       | (fail_if_success (have z := x; guard_hyp z : True)
          try clear_value x))
    | ((with_reducible refine keeps_mk rfl ?_); first | with_reducible assumption | exact within_of rfl hT | (with_reducible apply modSession_keeps) | (with_reducible apply commit_keeps) | (with_reducible apply writeSingle_keeps) | (with_reducible apply writeOnes_keeps) | split | dsimp -zeta only)
    | with_reducible refine keeps_fst (by with_reducible assumption) ?_
    | with_reducible refine keeps_snd (by with_reducible assumption) ?_
    | with_reducible refine keeps_thd (by with_reducible assumption) ?_
    | split
    | dsimp -zeta only

theorem writeCommand_keeps {sid addr : Nat} {words : List Nat} {coincident : Nat} (hK : Keeps kc kn F old s) (hT : Within 15550775278 F := by exact within_of rfl (by assumption)) :
    Keeps kc kn F old (State.writeCommand s sid addr words coincident).2.2 := by
  have hf : ∀ (l : List (Nat × Nat)) (x : Nat × State), Keeps kc kn F old x.2 →
      Keeps kc kn F old (l.foldl (fun (x : Nat × State) e =>
        (if x.1 = stOk then (x.2.writeWord sid e.1 e.2 coincident).1 else x.1,
          (x.2.writeWord sid e.1 e.2 coincident).2)) x).2 := by
    intro l
    induction l with
    | nil => exact fun x h => h
    | cons a l ih => exact fun x h => ih _ (writeWord_keeps h)
  unfold State.writeCommand
  simp only []
  split
  · exact hK
  · split
    · exact hK
    · exact hf _ _ (foldS_keeps (fun s a h => reachReg_keeps h) hK)

theorem execRegWrite_keeps {h : CmdHdr} {addr : Nat} {words : List Word} (hK : Keeps kc kn F old s) (hT : Within 15550775279 F := by exact within_of rfl (by assumption)) :
    NextKeeps kc kn F old (execRegWrite h addr words s) := by
  unfold execRegWrite
  repeat' first
    | with_reducible assumption
    | with_reducible apply next_keeps
    | with_reducible exact fault_keeps
    | exact within_of rfl hT
    | with_reducible intro _
    | with_reducible apply command_keeps
    | with_reducible apply writeCommand_keeps
    | dsimp only

theorem execRegisterWrite_keeps {h : CmdHdr} {addr : Nat} {value : Word} (hK : Keeps kc kn F old s) (hT : Within 15550775279 F := by exact within_of rfl (by assumption)) :
    NextKeeps kc kn F old (execRegisterWrite h addr value s) := by
  unfold execRegisterWrite
  repeat' first
    | with_reducible assumption
    | with_reducible apply next_keeps
    | with_reducible exact fault_keeps
    | exact within_of rfl hT
    | with_reducible intro _
    | with_reducible apply command_keeps
    | with_reducible apply writeCommand_keeps
    | dsimp only

theorem execW1cClear_keeps {h : CmdHdr} {addr : Nat} {value coincident : Word} (hK : Keeps kc kn F old s) (hT : Within 15550775279 F := by exact within_of rfl (by assumption)) :
    NextKeeps kc kn F old (execW1cClear h addr value coincident s) := by
  unfold execW1cClear
  repeat' first
    | with_reducible assumption
    | with_reducible apply next_keeps
    | with_reducible exact fault_keeps
    | exact within_of rfl hT
    | with_reducible intro _
    | with_reducible apply command_keeps
    | with_reducible apply writeCommand_keeps
    | dsimp only

theorem execAuditSnapshot_keeps {h : CmdHdr} {addr : Nat} {value : Word} (hK : Keeps kc kn F old s) (hT : Within 15550775279 F := by exact within_of rfl (by assumption)) :
    NextKeeps kc kn F old (execAuditSnapshot h addr value s) := by
  unfold execAuditSnapshot
  repeat' first
    | with_reducible assumption
    | with_reducible apply next_keeps
    | with_reducible exact fault_keeps
    | exact within_of rfl hT
    | with_reducible intro _
    | with_reducible apply command_keeps
    | with_reducible apply writeCommand_keeps
    | dsimp only

theorem execSplCommit_keeps {h : CmdHdr} {value : Word} (hK : Keeps kc kn F old s) (hT : Within 15550775279 F := by exact within_of rfl (by assumption)) :
    NextKeeps kc kn F old (execSplCommit h value s) := by
  unfold execSplCommit
  repeat' first
    | with_reducible assumption
    | with_reducible apply next_keeps
    | with_reducible exact fault_keeps
    | exact within_of rfl hT
    | with_reducible intro _
    | with_reducible apply command_keeps
    | with_reducible apply writeCommand_keeps
    | dsimp only

theorem execRegModify_keeps {h : CmdHdr} {addr : Nat} {mask value : Word} (hK : Keeps kc kn F old s) (hT : Within 15550775279 F := by exact within_of rfl (by assumption)) :
    NextKeeps kc kn F old (execRegModify h addr mask value s) := by
  unfold execRegModify
  repeat' first
    | with_reducible assumption
    | with_reducible apply next_keeps
    | with_reducible exact fault_keeps
    | exact within_of rfl hT
    | with_reducible intro _
    | with_reducible apply command_keeps
    | with_reducible apply ans_keeps
    | with_reducible apply reachReg_keeps
    | with_reducible apply writeWord_keeps
    | (have x : True := trivial
       extract_lets +onlyGivenNames x
       first
       | ((first
           | (have z := x; guard_hyp z : State; clear z; refine keeps_via (x := x) ?_ (fun hx => ?_))
           | (have z := x; guard_hyp z : State; clear z; refine next_via (x := x) ?_ (fun hx => ?_))
           | (have z := x.2; guard_hyp z : State; clear z; refine keeps_via (x := x.2) ?_ (fun hx => ?_))
           | (have z := x.2; guard_hyp z : State; clear z; refine next_via (x := x.2) ?_ (fun hx => ?_))
           | (have z := x.2.2; guard_hyp z : State; clear z; refine keeps_via (x := x.2.2) ?_ (fun hx => ?_))
           | (have z := x.2.2; guard_hyp z : State; clear z; refine next_via (x := x.2.2) ?_ (fun hx => ?_))
           | (have z := x.1; guard_hyp z : State; clear z; refine keeps_via (x := x.1) ?_ (fun hx => ?_))
           | (have z := x.1; guard_hyp z : State; clear z; refine next_via (x := x.1) ?_ (fun hx => ?_)))
          rotate_left
          try clear_value x
          rotate_right
          dsimp -zeta only [x])
       | (fail_if_success (have z := x; guard_hyp z : True)
          try clear_value x))
    | ((with_reducible refine keeps_mk rfl ?_); first | with_reducible assumption | exact within_of rfl hT | (with_reducible apply command_keeps) | (with_reducible apply ans_keeps) | (with_reducible apply reachReg_keeps) | (with_reducible apply writeWord_keeps) | split | dsimp -zeta only)
    | with_reducible refine keeps_fst (by with_reducible assumption) ?_
    | with_reducible refine keeps_snd (by with_reducible assumption) ?_
    | with_reducible refine keeps_thd (by with_reducible assumption) ?_
    | split
    | dsimp -zeta only

end Sys2Proof.Machine
end

