-- ==== Sys2Proof/Laws/KeepsUpdate.lean ====
section
/-! SUPPORT. What the operations of Machine/Update.lean keep: one lemma for each. -/

namespace Sys2Proof.Machine

set_option linter.all false
set_option Elab.async false

variable {kc kn : Bool} {F : Field → Bool} {old s : State}

theorem coilRefused_keeps {code reason : Nat} (hK : Keeps kc kn F old s) (hT : Within 4 F := by exact within_of rfl (by assumption)) :
    Keeps kc kn F old (State.coilRefused s code reason).2.2 := by
  unfold State.coilRefused
  repeat' first | with_reducible assumption | exact within_of rfl hT | with_reducible apply setReg_keeps | with_reducible apply inc_keeps | dsimp only

theorem modUpdate_keeps {f : Update → Update} (hK : Keeps kc kn F old s) (hT : Within 33554432 F := by exact within_of rfl (by assumption)) :
    Keeps kc kn F old (State.modUpdate s f) := by
  unfold State.modUpdate
  repeat' first | with_reducible assumption | exact within_of rfl hT | ((with_reducible refine keeps_mk rfl ?_); first | with_reducible assumption | exact within_of rfl hT | split | dsimp only) | dsimp only

theorem coilBegin_keeps {offset : Nat} {data : List Byte} (hK : Keeps kc kn F old s) (hT : Within 33554436 F := by exact within_of rfl (by assumption)) :
    Keeps kc kn F old (State.coilBegin s offset data).2.2 := by
  unfold State.coilBegin
  repeat' first
    | with_reducible assumption
    | exact within_of rfl hT
    | with_reducible intro _
    | with_reducible apply ans_keeps
    | with_reducible apply coilRefused_keeps
    | with_reducible apply modUpdate_keeps
    | (have x : True := trivial
       extract_lets +onlyGivenNames x
       first
       | ((first
           | (have z := x; guard_hyp z : State; clear z; refine keeps_via (x := x) ?_ (fun hx => ?_))
           | (have z := x.2; guard_hyp z : State; clear z; refine keeps_via (x := x.2) ?_ (fun hx => ?_))
           | (have z := x.2.2; guard_hyp z : State; clear z; refine keeps_via (x := x.2.2) ?_ (fun hx => ?_))
           | (have z := x.1; guard_hyp z : State; clear z; refine keeps_via (x := x.1) ?_ (fun hx => ?_)))
          rotate_left
          try clear_value x
          rotate_right
          dsimp -zeta only [x])
       | (fail_if_success (have z := x; guard_hyp z : True)
          try clear_value x))
    | ((with_reducible refine keeps_mk rfl ?_); first | with_reducible assumption | exact within_of rfl hT | (with_reducible apply ans_keeps) | (with_reducible apply coilRefused_keeps) | (with_reducible apply modUpdate_keeps) | split | dsimp -zeta only)
    | with_reducible refine keeps_fst (by with_reducible assumption) ?_
    | with_reducible refine keeps_snd (by with_reducible assumption) ?_
    | with_reducible refine keeps_thd (by with_reducible assumption) ?_
    | split
    | dsimp -zeta only

theorem coilBlock_keeps {offset block : Nat} {data : List Byte} (hK : Keeps kc kn F old s) (hT : Within 33554436 F := by exact within_of rfl (by assumption)) :
    Keeps kc kn F old (State.coilBlock s offset block data).2.2 := by
  unfold State.coilBlock
  generalize shake256 = g0
  repeat' first
    | with_reducible assumption
    | exact within_of rfl hT
    | with_reducible intro _
    | with_reducible apply inc_keeps
    | with_reducible apply ans_keeps
    | with_reducible apply block_keeps
    | with_reducible apply coilRefused_keeps
    | with_reducible apply modUpdate_keeps
    | (have x : True := trivial
       extract_lets +onlyGivenNames x
       first
       | ((first
           | (have z := x; guard_hyp z : State; clear z; refine keeps_via (x := x) ?_ (fun hx => ?_))
           | (have z := x.2; guard_hyp z : State; clear z; refine keeps_via (x := x.2) ?_ (fun hx => ?_))
           | (have z := x.2.2; guard_hyp z : State; clear z; refine keeps_via (x := x.2.2) ?_ (fun hx => ?_))
           | (have z := x.1; guard_hyp z : State; clear z; refine keeps_via (x := x.1) ?_ (fun hx => ?_)))
          rotate_left
          try clear_value x
          rotate_right
          dsimp -zeta only [x])
       | (fail_if_success (have z := x; guard_hyp z : True)
          try clear_value x))
    | ((with_reducible refine keeps_mk rfl ?_); first | with_reducible assumption | exact within_of rfl hT | (with_reducible apply inc_keeps) | (with_reducible apply ans_keeps) | (with_reducible apply block_keeps) | (with_reducible apply coilRefused_keeps) | (with_reducible apply modUpdate_keeps) | split | dsimp -zeta only)
    | with_reducible refine keeps_fst (by with_reducible assumption) ?_
    | with_reducible refine keeps_snd (by with_reducible assumption) ?_
    | with_reducible refine keeps_thd (by with_reducible assumption) ?_
    | split
    | dsimp -zeta only

theorem coilSchedule_keeps {h : CmdHdr} {t : Nat} {fallback : Bool} (hK : Keeps kc kn F old s) (hT : Within 33554436 F := by exact within_of rfl (by assumption)) :
    Keeps kc kn F old (State.coilSchedule s h t fallback).2.2 := by
  unfold State.coilSchedule
  repeat' first
    | with_reducible assumption
    | exact within_of rfl hT
    | with_reducible intro _
    | with_reducible apply ans_keeps
    | with_reducible apply coilRefused_keeps
    | with_reducible apply modUpdate_keeps
    | (have x : True := trivial
       extract_lets +onlyGivenNames x
       first
       | ((first
           | (have z := x; guard_hyp z : State; clear z; refine keeps_via (x := x) ?_ (fun hx => ?_))
           | (have z := x.2; guard_hyp z : State; clear z; refine keeps_via (x := x.2) ?_ (fun hx => ?_))
           | (have z := x.2.2; guard_hyp z : State; clear z; refine keeps_via (x := x.2.2) ?_ (fun hx => ?_))
           | (have z := x.1; guard_hyp z : State; clear z; refine keeps_via (x := x.1) ?_ (fun hx => ?_)))
          rotate_left
          try clear_value x
          rotate_right
          dsimp -zeta only [x])
       | (fail_if_success (have z := x; guard_hyp z : True)
          try clear_value x))
    | ((with_reducible refine keeps_mk rfl ?_); first | with_reducible assumption | exact within_of rfl hT | (with_reducible apply ans_keeps) | (with_reducible apply coilRefused_keeps) | (with_reducible apply modUpdate_keeps) | split | dsimp -zeta only)
    | with_reducible refine keeps_fst (by with_reducible assumption) ?_
    | with_reducible refine keeps_snd (by with_reducible assumption) ?_
    | with_reducible refine keeps_thd (by with_reducible assumption) ?_
    | split
    | dsimp -zeta only

theorem activated_keeps {slot : Nat} {ids : List Nat} (hK : Keeps kc kn F old s) (hT : Within 8589967364 F := by exact within_of rfl (by assumption)) :
    Keeps kc kn F old (State.activated s slot ids) := by
  unfold State.activated
  repeat' first
    | with_reducible assumption
    | exact within_of rfl hT
    | with_reducible intro _
    | with_reducible apply inc_keeps
    | with_reducible apply eventC_keeps
    | with_reducible apply release_keeps
    | (have x : True := trivial
       extract_lets +onlyGivenNames x
       first
       | ((first
           | (have z := x; guard_hyp z : State; clear z; refine keeps_via (x := x) ?_ (fun hx => ?_))
           | (have z := x.2; guard_hyp z : State; clear z; refine keeps_via (x := x.2) ?_ (fun hx => ?_))
           | (have z := x.2.2; guard_hyp z : State; clear z; refine keeps_via (x := x.2.2) ?_ (fun hx => ?_))
           | (have z := x.1; guard_hyp z : State; clear z; refine keeps_via (x := x.1) ?_ (fun hx => ?_)))
          rotate_left
          try clear_value x
          rotate_right
          dsimp -zeta only [x])
       | ((first
           | (have z := x; guard_hyp z : Security)
           | (have z := x; guard_hyp z : Lease))
          dsimp -zeta only [x])
       | (fail_if_success (have z := x; guard_hyp z : True)
          try clear_value x))
    | dsimp -zeta only

theorem openTrial_keeps {k : Nat} (hK : Keeps kc kn F old s) (hT : Within 33554432 F := by exact within_of rfl (by assumption)) :
    Keeps kc kn F old (State.openTrial s k) := by
  unfold State.openTrial
  repeat' first
    | with_reducible assumption
    | exact within_of rfl hT
    | with_reducible intro _
    | with_reducible apply modUpdate_keeps
    | ((with_reducible refine keeps_mk rfl ?_); first | with_reducible assumption | exact within_of rfl hT | (with_reducible apply modUpdate_keeps) | split | dsimp only)
    | split
    | dsimp only

theorem fallBack_keeps (hK : Keeps kc kn F old s) (hT : Within 8623521796 F := by exact within_of rfl (by assumption)) :
    Keeps kc kn F old (State.fallBack s) := by
  unfold State.fallBack
  repeat' first
    | with_reducible assumption
    | exact within_of rfl hT
    | with_reducible intro _
    | with_reducible apply inc_keeps
    | with_reducible apply eventC_keeps
    | with_reducible apply modUpdate_keeps
    | (have x : True := trivial
       extract_lets +onlyGivenNames x
       first
       | ((first
           | (have z := x; guard_hyp z : State; clear z; refine keeps_via (x := x) ?_ (fun hx => ?_))
           | (have z := x.2; guard_hyp z : State; clear z; refine keeps_via (x := x.2) ?_ (fun hx => ?_))
           | (have z := x.2.2; guard_hyp z : State; clear z; refine keeps_via (x := x.2.2) ?_ (fun hx => ?_))
           | (have z := x.1; guard_hyp z : State; clear z; refine keeps_via (x := x.1) ?_ (fun hx => ?_)))
          rotate_left
          try clear_value x
          rotate_right
          dsimp -zeta only [x])
       | (fail_if_success (have z := x; guard_hyp z : True)
          try clear_value x))
    | ((with_reducible refine keeps_mk rfl ?_); first | with_reducible assumption | exact within_of rfl hT | (with_reducible apply inc_keeps) | (with_reducible apply eventC_keeps) | (with_reducible apply modUpdate_keeps) | split | dsimp -zeta only)
    | split
    | dsimp -zeta only

theorem switchTo_keeps {k : Nat} {ids : List Nat} (hK : Keeps kc kn F old s) (hT : Within 8623521924 F := by exact within_of rfl (by assumption)) :
    Keeps kc kn F old (State.switchTo s k ids) := by
  unfold State.switchTo
  repeat' first
    | with_reducible assumption
    | exact within_of rfl hT
    | with_reducible intro _
    | with_reducible apply setReg_keeps
    | with_reducible apply modHank_keeps
    | with_reducible apply on_keeps
    | with_reducible apply modUpdate_keeps
    | with_reducible apply activated_keeps
    | with_reducible apply foldS_keeps
    | with_reducible apply foldl_keeps
    | (have x : True := trivial
       extract_lets +onlyGivenNames x
       first
       | ((first
           | (have z := x; guard_hyp z : State; clear z; refine keeps_via (x := x) ?_ (fun hx => ?_))
           | (have z := x.2; guard_hyp z : State; clear z; refine keeps_via (x := x.2) ?_ (fun hx => ?_))
           | (have z := x.2.2; guard_hyp z : State; clear z; refine keeps_via (x := x.2.2) ?_ (fun hx => ?_))
           | (have z := x.1; guard_hyp z : State; clear z; refine keeps_via (x := x.1) ?_ (fun hx => ?_)))
          rotate_left
          try clear_value x
          rotate_right
          dsimp -zeta only [x])
       | (fail_if_success (have z := x; guard_hyp z : True)
          try clear_value x))
    | ((with_reducible refine keeps_mk rfl ?_); first | with_reducible assumption | exact within_of rfl hT | (with_reducible apply setReg_keeps) | (with_reducible apply modHank_keeps) | (with_reducible apply on_keeps) | (with_reducible apply modUpdate_keeps) | (with_reducible apply activated_keeps) | with_reducible apply foldS_keeps | split | dsimp -zeta only)
    | split
    | dsimp -zeta only

theorem resume_keeps {a : Nat} {status : Nat} {data : List Byte} (hK : Keeps kc kn F old s) (hT : Within 11383850926 F := by exact within_of rfl (by assumption)) :
    Keeps kc kn F old (State.resume s a status data) := by
  unfold State.resume
  repeat' first
    | with_reducible assumption
    | exact within_of rfl hT
    | with_reducible intro _
    | with_reducible apply raiseReg_keeps
    | with_reducible apply modSession_keeps
    | with_reducible apply send_keeps
    | with_reducible apply event_keeps
    | with_reducible apply reply_keeps
    | with_reducible apply frame_keeps
    | with_reducible apply modUpdate_keeps
    | with_reducible apply foldS_keeps
    | (have x : True := trivial
       extract_lets +onlyGivenNames x
       first
       | ((first
           | (have z := x; guard_hyp z : State; clear z; refine keeps_via (x := x) ?_ (fun hx => ?_))
           | (have z := x.2; guard_hyp z : State; clear z; refine keeps_via (x := x.2) ?_ (fun hx => ?_))
           | (have z := x.2.2; guard_hyp z : State; clear z; refine keeps_via (x := x.2.2) ?_ (fun hx => ?_))
           | (have z := x.1; guard_hyp z : State; clear z; refine keeps_via (x := x.1) ?_ (fun hx => ?_)))
          rotate_left
          try clear_value x
          rotate_right
          dsimp -zeta only [x])
       | (fail_if_success (have z := x; guard_hyp z : True)
          try clear_value x))
    | ((with_reducible refine keeps_mk rfl ?_); first | with_reducible assumption | exact within_of rfl hT | (with_reducible apply raiseReg_keeps) | (with_reducible apply modSession_keeps) | (with_reducible apply send_keeps) | (with_reducible apply event_keeps) | (with_reducible apply reply_keeps) | (with_reducible apply frame_keeps) | (with_reducible apply modUpdate_keeps) | with_reducible apply foldS_keeps | split | dsimp -zeta only)
    | split
    | dsimp -zeta only

theorem confirm_keeps (hK : Keeps kc kn F old s) (hT : Within 33554436 F := by exact within_of rfl (by assumption)) :
    Keeps kc kn F old (State.confirm s).2.2 := by
  unfold State.confirm
  repeat' first
    | with_reducible assumption
    | exact within_of rfl hT
    | with_reducible intro _
    | with_reducible apply ans_keeps
    | with_reducible apply coilRefused_keeps
    | with_reducible apply modUpdate_keeps
    | (have x : True := trivial
       extract_lets +onlyGivenNames x
       first
       | ((first
           | (have z := x; guard_hyp z : State; clear z; refine keeps_via (x := x) ?_ (fun hx => ?_))
           | (have z := x.2; guard_hyp z : State; clear z; refine keeps_via (x := x.2) ?_ (fun hx => ?_))
           | (have z := x.2.2; guard_hyp z : State; clear z; refine keeps_via (x := x.2.2) ?_ (fun hx => ?_))
           | (have z := x.1; guard_hyp z : State; clear z; refine keeps_via (x := x.1) ?_ (fun hx => ?_)))
          rotate_left
          try clear_value x
          rotate_right
          dsimp -zeta only [x])
       | (fail_if_success (have z := x; guard_hyp z : True)
          try clear_value x))
    | ((with_reducible refine keeps_mk rfl ?_); first | with_reducible assumption | exact within_of rfl hT | (with_reducible apply ans_keeps) | (with_reducible apply coilRefused_keeps) | (with_reducible apply modUpdate_keeps) | split | dsimp -zeta only)
    | split
    | dsimp -zeta only

theorem execCoilBegin_keeps {h : CmdHdr} {offset : Nat} {data : List Byte} (hK : Keeps kc kn F old s) (hT : Within 10846586799 F := by exact within_of rfl (by assumption)) :
    NextKeeps kc kn F old (execCoilBegin h offset data s) := by
  unfold execCoilBegin
  repeat' first
    | with_reducible assumption
    | with_reducible apply next_keeps
    | with_reducible exact fault_keeps
    | exact within_of rfl hT
    | with_reducible intro _
    | with_reducible apply command_keeps
    | with_reducible apply coilBegin_keeps
    | dsimp only

theorem execCoilBlock_keeps {h : CmdHdr} {offset block : Nat} {data : List Byte} (hK : Keeps kc kn F old s) (hT : Within 10846586799 F := by exact within_of rfl (by assumption)) :
    NextKeeps kc kn F old (execCoilBlock h offset block data s) := by
  unfold execCoilBlock
  repeat' first
    | with_reducible assumption
    | with_reducible apply next_keeps
    | with_reducible exact fault_keeps
    | exact within_of rfl hT
    | with_reducible intro _
    | with_reducible apply command_keeps
    | with_reducible apply block_keeps
    | with_reducible apply coilBlock_keeps
    | dsimp only

theorem execCoilSchedule_keeps {h : CmdHdr} {time : Nat} {fallback : Bool} (hK : Keeps kc kn F old s) (hT : Within 10846586799 F := by exact within_of rfl (by assumption)) :
    NextKeeps kc kn F old (execCoilSchedule h time fallback s) := by
  unfold execCoilSchedule
  repeat' first
    | with_reducible assumption
    | with_reducible apply next_keeps
    | with_reducible exact fault_keeps
    | exact within_of rfl hT
    | with_reducible intro _
    | with_reducible apply command_keeps
    | with_reducible apply coilSchedule_keeps
    | dsimp only

theorem execCoilPreload_keeps {t : Nat} (hK : Keeps kc kn F old s) (hT : Within 33554433 F := by exact within_of rfl (by assumption)) : NextKeeps kc kn F old (execCoilPreload t s) := by
  unfold execCoilPreload
  refine next_keeps ?_
  have ht := tick_keeps (t := t) hK
  generalize s.tick t = y at ht ⊢
  cases y.update.schedT with
  | none => exact ht
  | some p =>
    dsimp only
    split
    · exact modUpdate_keeps ht
    · exact ht


theorem execStepHoldLead_keeps {t : Nat} (hK : Keeps kc kn F old s) (hT : Within 1 F := by exact within_of rfl (by assumption)) :
    NextKeeps kc kn F old (execStepHoldLead t s) := by
  unfold execStepHoldLead
  repeat' first
    | with_reducible assumption
    | with_reducible apply next_keeps
    | with_reducible exact fault_keeps
    | exact within_of rfl hT
    | with_reducible apply tick_keeps
    | dsimp only

theorem execDatapathSwitch_keeps {t : Nat} (hK : Keeps kc kn F old s) (hT : Within 8623521925 F := by exact within_of rfl (by assumption)) :
    NextKeeps kc kn F old (execDatapathSwitch t s) := by
  unfold execDatapathSwitch
  repeat' first
    | with_reducible assumption
    | with_reducible apply next_keeps
    | with_reducible exact fault_keeps
    | exact within_of rfl hT
    | with_reducible intro _
    | with_reducible apply tick_keeps
    | with_reducible apply eventC_keeps
    | with_reducible apply commandDone_keeps
    | with_reducible apply modUpdate_keeps
    | with_reducible apply openTrial_keeps
    | with_reducible apply fallBack_keeps
    | with_reducible apply switchTo_keeps
    | (have x : True := trivial
       extract_lets +onlyGivenNames x
       first
       | ((first
           | (have z := x; guard_hyp z : State; clear z; refine keeps_via (x := x) ?_ (fun hx => ?_))
           | (have z := x; guard_hyp z : State; clear z; refine next_via (x := x) ?_ (fun hx => ?_))
           | (have z := x.2; guard_hyp z : State; clear z; refine keeps_via (x := x.2) ?_ (fun hx => ?_))
           | (have z := x.2; guard_hyp z : State; clear z; refine next_via (x := x.2) ?_ (fun hx => ?_))
           | (have z := x.2.2; guard_hyp z : State; clear z; refine keeps_via (x := x.2.2) ?_ (fun hx => ?_))
           | (have z := x.2.2; guard_hyp z : State; clear z; refine next_via (x := x.2.2) ?_ (fun hx => ?_))
           | (have z := x.1; guard_hyp z : State; clear z; refine keeps_via (x := x.1) ?_ (fun hx => ?_))
           | (have z := x.1; guard_hyp z : State; clear z; refine next_via (x := x.1) ?_ (fun hx => ?_)))
          rotate_left
          try clear_value x
          rotate_right
          dsimp -zeta only [x])
       | (fail_if_success (have z := x; guard_hyp z : True)
          try clear_value x))
    | ((with_reducible refine keeps_mk rfl ?_); first | with_reducible assumption | exact within_of rfl hT | (with_reducible apply tick_keeps) | (with_reducible apply eventC_keeps) | (with_reducible apply commandDone_keeps) | (with_reducible apply modUpdate_keeps) | (with_reducible apply openTrial_keeps) | (with_reducible apply fallBack_keeps) | (with_reducible apply switchTo_keeps) | split | dsimp -zeta only)
    | with_reducible refine keeps_fst (by with_reducible assumption) ?_
    | with_reducible refine keeps_snd (by with_reducible assumption) ?_
    | with_reducible refine keeps_thd (by with_reducible assumption) ?_
    | split
    | dsimp -zeta only

theorem execActivate_keeps {h : CmdHdr} {fallback : Bool} (hK : Keeps kc kn F old s) (hT : Within 10846586799 F := by exact within_of rfl (by assumption)) :
    NextKeeps kc kn F old (execActivate h fallback s) := by
  unfold execActivate
  repeat' first
    | with_reducible assumption
    | with_reducible apply next_keeps
    | with_reducible exact fault_keeps
    | exact within_of rfl hT
    | with_reducible intro _
    | with_reducible apply commandLater_keeps
    | with_reducible apply coilRefused_keeps
    | with_reducible apply modUpdate_keeps
    | (have x : True := trivial
       extract_lets +onlyGivenNames x
       first
       | ((first
           | (have z := x; guard_hyp z : State; clear z; refine keeps_via (x := x) ?_ (fun hx => ?_))
           | (have z := x; guard_hyp z : State; clear z; refine next_via (x := x) ?_ (fun hx => ?_))
           | (have z := x.2; guard_hyp z : State; clear z; refine keeps_via (x := x.2) ?_ (fun hx => ?_))
           | (have z := x.2; guard_hyp z : State; clear z; refine next_via (x := x.2) ?_ (fun hx => ?_))
           | (have z := x.2.2; guard_hyp z : State; clear z; refine keeps_via (x := x.2.2) ?_ (fun hx => ?_))
           | (have z := x.2.2; guard_hyp z : State; clear z; refine next_via (x := x.2.2) ?_ (fun hx => ?_))
           | (have z := x.1; guard_hyp z : State; clear z; refine keeps_via (x := x.1) ?_ (fun hx => ?_))
           | (have z := x.1; guard_hyp z : State; clear z; refine next_via (x := x.1) ?_ (fun hx => ?_)))
          rotate_left
          try clear_value x
          rotate_right
          dsimp -zeta only [x])
       | (fail_if_success (have z := x; guard_hyp z : True)
          try clear_value x))
    | ((with_reducible refine keeps_mk rfl ?_); first | with_reducible assumption | exact within_of rfl hT | (with_reducible apply commandLater_keeps) | (with_reducible apply coilRefused_keeps) | (with_reducible apply modUpdate_keeps) | split | dsimp -zeta only)
    | with_reducible refine keeps_fst (by with_reducible assumption) ?_
    | with_reducible refine keeps_snd (by with_reducible assumption) ?_
    | with_reducible refine keeps_thd (by with_reducible assumption) ?_
    | split
    | dsimp -zeta only

theorem execMgmtResume_keeps {t : Nat} (hK : Keeps kc kn F old s) (hT : Within 11383850927 F := by exact within_of rfl (by assumption)) : NextKeeps kc kn F old (execMgmtResume t s) := by
  unfold execMgmtResume
  refine next_keeps ?_
  have ht := tick_keeps (t := t) hK
  generalize s.tick t = y at ht ⊢
  cases y.update.paused with
  | none => exact ht
  | some a =>
    dsimp only
    split
    · exact ht
    · split
      · exact resume_keeps (fallBack_keeps (activated_keeps (modUpdate_keeps ht)))
      · exact resume_keeps (openTrial_keeps (activated_keeps (modUpdate_keeps ht)))


theorem execMgmtStartTimeout_keeps {t : Nat} (hK : Keeps kc kn F old s) (hT : Within 11383850927 F := by exact within_of rfl (by assumption)) : NextKeeps kc kn F old (execMgmtStartTimeout t s) := by
  unfold execMgmtStartTimeout
  refine next_keeps ?_
  have ht := tick_keeps (t := t) hK
  generalize s.tick t = y at ht ⊢
  cases y.update.paused with
  | none => exact ht
  | some a =>
    dsimp only
    split
    · exact ht
    · exact resume_keeps (coilRefused_keeps (modUpdate_keeps ht))


theorem execConfirm_keeps {h : CmdHdr} (hK : Keeps kc kn F old s) (hT : Within 10846586799 F := by exact within_of rfl (by assumption)) :
    NextKeeps kc kn F old (execConfirm h s) := by
  unfold execConfirm
  repeat' first
    | with_reducible assumption
    | with_reducible apply next_keeps
    | with_reducible exact fault_keeps
    | exact within_of rfl hT
    | with_reducible intro _
    | with_reducible apply command_keeps
    | with_reducible apply confirm_keeps
    | dsimp only

theorem execConfirmOverdue_keeps {t : Nat} (hK : Keeps kc kn F old s) (hT : Within 8623521797 F := by exact within_of rfl (by assumption)) :
    NextKeeps kc kn F old (execConfirmOverdue t s) := by
  unfold execConfirmOverdue
  repeat' first
    | with_reducible assumption
    | with_reducible apply next_keeps
    | with_reducible exact fault_keeps
    | exact within_of rfl hT
    | with_reducible intro _
    | with_reducible apply tick_keeps
    | with_reducible apply eventC_keeps
    | with_reducible apply modUpdate_keeps
    | (have x : True := trivial
       extract_lets +onlyGivenNames x
       first
       | ((first
           | (have z := x; guard_hyp z : State; clear z; refine keeps_via (x := x) ?_ (fun hx => ?_))
           | (have z := x; guard_hyp z : State; clear z; refine next_via (x := x) ?_ (fun hx => ?_))
           | (have z := x.2; guard_hyp z : State; clear z; refine keeps_via (x := x.2) ?_ (fun hx => ?_))
           | (have z := x.2; guard_hyp z : State; clear z; refine next_via (x := x.2) ?_ (fun hx => ?_))
           | (have z := x.2.2; guard_hyp z : State; clear z; refine keeps_via (x := x.2.2) ?_ (fun hx => ?_))
           | (have z := x.2.2; guard_hyp z : State; clear z; refine next_via (x := x.2.2) ?_ (fun hx => ?_))
           | (have z := x.1; guard_hyp z : State; clear z; refine keeps_via (x := x.1) ?_ (fun hx => ?_))
           | (have z := x.1; guard_hyp z : State; clear z; refine next_via (x := x.1) ?_ (fun hx => ?_)))
          rotate_left
          try clear_value x
          rotate_right
          dsimp -zeta only [x])
       | (fail_if_success (have z := x; guard_hyp z : True)
          try clear_value x))
    | ((with_reducible refine keeps_mk rfl ?_); first | with_reducible assumption | exact within_of rfl hT | (with_reducible apply tick_keeps) | (with_reducible apply eventC_keeps) | (with_reducible apply modUpdate_keeps) | split | dsimp -zeta only)
    | with_reducible refine keeps_fst (by with_reducible assumption) ?_
    | with_reducible refine keeps_snd (by with_reducible assumption) ?_
    | with_reducible refine keeps_thd (by with_reducible assumption) ?_
    | split
    | dsimp -zeta only

theorem execCoilStatus_keeps {h : CmdHdr} (hK : Keeps kc kn F old s) (hT : Within 10846586799 F := by exact within_of rfl (by assumption)) :
    NextKeeps kc kn F old (execCoilStatus h s) := by
  unfold execCoilStatus
  repeat' first
    | with_reducible assumption
    | with_reducible apply next_keeps
    | with_reducible exact fault_keeps
    | exact within_of rfl hT
    | with_reducible intro _
    | with_reducible apply command_keeps
    | dsimp only

end Sys2Proof.Machine
end

