-- ==== Sys2Proof/Laws/Exec.lean ====
section
/-! SUPPORT. What every command keeps: the lemmas of the files Keeps<Family>.lean put together over exec. -/

namespace Sys2Proof.Machine

set_option Elab.async false

/-- The mask of a list of fields. -/
def fieldMask : List Field → Nat
  | [] => 0
  | f :: l => Nat.lor (2 ^ f.place) (fieldMask l)

theorem place_inj {f g : Field} (h : f.place = g.place) : f = g := by
  cases f <;> cases g <;> first | rfl | (exact absurd h (by decide))

theorem mem_of_testBit {l : List Field} {f : Field} (h : (fieldMask l).testBit f.place = true) : f ∈ l := by
  induction l with
  | nil => simp [fieldMask] at h
  | cons g l ih =>
    rw [fieldMask, show Nat.lor (2 ^ g.place) (fieldMask l) = 2 ^ g.place ||| fieldMask l from rfl, Nat.testBit_or,
      Bool.or_eq_true, Nat.testBit_two_pow] at h
    rcases h with h | h
    · exact List.mem_cons.2 (.inl (place_inj (of_decide_eq_true h).symm))
    · exact List.mem_cons_of_mem _ (ih h)

theorem within_list {T : Nat} {l : List Field} {F : Field → Bool} (e : Nat.land T (fieldMask l) = T)
    (h : ∀ f ∈ l, F f = true) : Within T F :=
  within_of e fun _ b => h _ (mem_of_testBit b)

/-- A command keeps everything that Keeps names: module time unless it is PWRGD, step counters unless it moves one, and
every field of State that it does not touch. -/
theorem exec_keeps {kc kn : Bool} {F : Field → Bool} (i : Instr) (s : State) (hc : kc = true → i.restartsTime = false)
    (hn : kn = true → i.movesCounter = false) (hF : ∀ f ∈ i.touches, F f = true) : NextKeeps kc kn F s (exec i s) := by
  cases i with
  | hawserFrame => exact execHawserFrame_keeps keeps_refl (within_list (l := (List.append replyFields [Field.recoveries, Field.meters, Field.security])) (by decide) hF)
  | eventResend => exact execEventResend_keeps keeps_refl (within_list (l := [Field.now, Field.sessions, Field.sent]) (by decide) hF)
  | echo => exact execEcho_keeps keeps_refl (within_list (l := replyFields) (by decide) hF)
  | sessionOpen => exact execSessionOpen_keeps keeps_refl (within_list (l := [Field.now, Field.fresh, Field.regs, Field.parts, Field.sessions, Field.security, Field.sent]) (by decide) hF)
  | sessionClose => exact execSessionClose_keeps keeps_refl (within_list (l := (List.append replyFields [Field.security])) (by decide) hF)
  | eventAck => exact execEventAck_keeps keeps_refl (within_list (l := replyFields) (by decide) hF)
  | regRead => exact execRegRead_keeps keeps_refl (within_list (l := (List.append replyFields [Field.video, Field.thermo])) (by decide) hF)
  | regWrite => exact execRegWrite_keeps keeps_refl (within_list (l := (List.append (List.append (List.append hitchFields replyFields) readFields) [Field.fairlead, Field.meters, Field.kv, Field.serve, Field.thermo, Field.start, Field.snaps])) (by decide) hF)
  | regModify => exact execRegModify_keeps keeps_refl (within_list (l := (List.append (List.append (List.append hitchFields replyFields) readFields) [Field.fairlead, Field.meters, Field.kv, Field.serve, Field.thermo, Field.start, Field.snaps])) (by decide) hF)
  | memRead => exact execMemRead_keeps keeps_refl (within_list (l := (List.append replyFields readFields)) (by decide) hF)
  | memWrite => exact execMemWrite_keeps keeps_refl (within_list (l := (List.append replyFields readFields)) (by decide) hF)
  | partCreate =>
    cases kn with
    | true => exact nomatch (hn rfl : true = false)
    | false => exact execPartCreate_keeps keeps_refl (within_list (l := (List.append replyFields [Field.owners, Field.fairlead, Field.kv, Field.security])) (by decide) hF)
  | partActive => exact execPartActive_keeps keeps_refl (within_list (l := (List.append (List.append (List.append hitchFields replyFields) readFields) [Field.owners, Field.kv, Field.serve, Field.video, Field.thermo, Field.security, Field.snaps])) (by decide) hF)
  | partDestroy => exact execPartDestroy_keeps keeps_refl (within_list (l := (List.append (List.append (List.append hitchFields replyFields) readFields) [Field.owners, Field.kv, Field.serve, Field.video, Field.thermo, Field.security])) (by decide) hF)
  | whipOverwriteEnd =>
    cases kn with
    | true => exact nomatch (hn rfl : true = false)
    | false => exact execWhipOverwriteEnd_keeps keeps_refl (within_list (l := (List.append (List.append hitchFields readFields) [Field.now, Field.owners, Field.kv, Field.serve, Field.video, Field.security, Field.journals])) (by decide) hF)
  | resetFunction => exact execResetFunction_keeps keeps_refl (within_list (l := (List.append (List.append (List.append hitchFields replyFields) readFields) [Field.owners, Field.kv, Field.serve, Field.video, Field.thermo, Field.security])) (by decide) hF)
  | resetHitchTimeout => exact execResetHitchTimeout_keeps keeps_refl (within_list (l := (List.append (List.append (List.append hitchFields replyFields) readFields) [Field.owners, Field.kv, Field.serve, Field.video, Field.thermo, Field.security])) (by decide) hF)
  | stepRun => exact execStepRun_keeps keeps_refl (within_list (l := (List.append (List.append (List.append hitchFields replyFields) readFields) [Field.kv, Field.serve])) (by decide) hF)
  | attest => exact execAttest_keeps keeps_refl (within_list (l := (List.append replyFields [Field.security])) (by decide) hF)
  | heartbeat h n => exact execHeartbeat_keeps (sendTime := n) keeps_refl (within_list (l := (List.append replyFields [Field.lease])) (by decide) hF)
  | leaseAcquire => exact execLeaseAcquire_keeps keeps_refl (within_list (l := (List.append replyFields [Field.lease])) (by decide) hF)
  | leaseRelease => exact execLeaseRelease_keeps keeps_refl (within_list (l := (List.append replyFields [Field.lease])) (by decide) hF)
  | roleAssign =>
    cases kn with
    | true => exact nomatch (hn rfl : true = false)
    | false => exact execRoleAssign_keeps keeps_refl (within_list (l := replyFields) (by decide) hF)
  | seizeRelease => exact execSeizeRelease_keeps keeps_refl (within_list (l := (List.append replyFields [Field.lease])) (by decide) hF)
  | coilBegin => exact execCoilBegin_keeps keeps_refl (within_list (l := replyFields) (by decide) hF)
  | coilBlock => exact execCoilBlock_keeps keeps_refl (within_list (l := replyFields) (by decide) hF)
  | coilSchedule => exact execCoilSchedule_keeps keeps_refl (within_list (l := replyFields) (by decide) hF)
  | activate => exact execActivate_keeps keeps_refl (within_list (l := replyFields) (by decide) hF)
  | confirm => exact execConfirm_keeps keeps_refl (within_list (l := replyFields) (by decide) hF)
  | coilStatus => exact execCoilStatus_keeps keeps_refl (within_list (l := replyFields) (by decide) hF)
  | serveSubmit => exact execServeSubmit_keeps keeps_refl (within_list (l := (List.append replyFields [Field.kv, Field.serve])) (by decide) hF)
  | serveCancel => exact execServeCancel_keeps keeps_refl (within_list (l := (List.append replyFields [Field.kv, Field.serve])) (by decide) hF)
  | servePause => exact execServePause_keeps keeps_refl (within_list (l := (List.append replyFields [Field.kv, Field.serve])) (by decide) hF)
  | serveResume => exact execServeResume_keeps keeps_refl (within_list (l := (List.append replyFields [Field.kv, Field.serve])) (by decide) hF)
  | reelRead => exact execReelRead_keeps keeps_refl (within_list (l := (List.append replyFields readFields)) (by decide) hF)
  | reelAck => exact execReelAck_keeps keeps_refl (within_list (l := (List.append replyFields [Field.serve])) (by decide) hF)
  | budgetSet => exact execBudgetSet_keeps keeps_refl (within_list (l := (List.append replyFields [Field.serve])) (by decide) hF)
  | budgetAdjust => exact execBudgetAdjust_keeps keeps_refl (within_list (l := (List.append replyFields [Field.serve])) (by decide) hF)
  | budgetRead => exact execBudgetRead_keeps keeps_refl (within_list (l := replyFields) (by decide) hF)
  | prefixMake => exact execPrefixMake_keeps keeps_refl (within_list (l := (List.append replyFields [Field.kv, Field.serve])) (by decide) hF)
  | prefixDrop => exact execPrefixDrop_keeps keeps_refl (within_list (l := (List.append replyFields [Field.kv, Field.serve])) (by decide) hF)
  | kvShip => exact execKvShip_keeps keeps_refl (within_list (l := (List.append replyFields [Field.kv, Field.serve])) (by decide) hF)
  | vidOpen => exact execVidOpen_keeps keeps_refl (within_list (l := (List.append replyFields [Field.video])) (by decide) hF)
  | vidClose => exact execVidClose_keeps keeps_refl (within_list (l := (List.append replyFields [Field.video])) (by decide) hF)
  | vidFeed => exact execVidFeed_keeps keeps_refl (within_list (l := (List.append (List.append replyFields readFields) [Field.video])) (by decide) hF)
  | vidAcquire => exact execVidAcquire_keeps keeps_refl (within_list (l := (List.append replyFields [Field.video])) (by decide) hF)
  | vidRelease => exact execVidRelease_keeps keeps_refl (within_list (l := (List.append replyFields [Field.video])) (by decide) hF)
  | vidEncode => exact execVidEncode_keeps keeps_refl (within_list (l := (List.append replyFields [Field.video])) (by decide) hF)
  | vidRead => exact execVidRead_keeps keeps_refl (within_list (l := (List.append replyFields readFields)) (by decide) hF)
  | vidAck => exact execVidAck_keeps keeps_refl (within_list (l := (List.append (List.append replyFields readFields) [Field.video])) (by decide) hF)
  | fsrRead => exact execFsrRead_keeps keeps_refl (within_list (l := replyFields) (by decide) hF)
  | fsrAck => exact execFsrAck_keeps keeps_refl (within_list (l := replyFields) (by decide) hF)
  | packLoad => exact execPackLoad_keeps keeps_refl (within_list (l := replyFields) (by decide) hF)
  | splCommit => exact execSplCommit_keeps keeps_refl (within_list (l := (List.append (List.append (List.append hitchFields replyFields) readFields) [Field.fairlead, Field.meters, Field.kv, Field.serve, Field.thermo, Field.start, Field.snaps])) (by decide) hF)
  | registerWrite => exact execRegisterWrite_keeps keeps_refl (within_list (l := (List.append (List.append (List.append hitchFields replyFields) readFields) [Field.fairlead, Field.meters, Field.kv, Field.serve, Field.thermo, Field.start, Field.snaps])) (by decide) hF)
  | rcRead => exact execRcRead_keeps keeps_refl (within_list (l := (List.append replyFields [Field.video, Field.thermo])) (by decide) hF)
  | latchRead => exact execLatchRead_keeps keeps_refl (within_list (l := (List.append replyFields [Field.video, Field.thermo])) (by decide) hF)
  | w1cClear => exact execW1cClear_keeps keeps_refl (within_list (l := (List.append (List.append (List.append hitchFields replyFields) readFields) [Field.fairlead, Field.meters, Field.kv, Field.serve, Field.thermo, Field.start, Field.snaps])) (by decide) hF)
  | auditSnapshot => exact execAuditSnapshot_keeps keeps_refl (within_list (l := (List.append (List.append (List.append hitchFields replyFields) readFields) [Field.fairlead, Field.meters, Field.kv, Field.serve, Field.thermo, Field.start, Field.snaps])) (by decide) hF)
  | memErrPop => exact execMemErrPop_keeps keeps_refl (within_list (l := (List.append replyFields [Field.errLogs])) (by decide) hF)
  | go => exact execGo_keeps keeps_refl (within_list (l := (List.append (List.append (List.append hitchFields replyFields) readFields) [Field.kv, Field.serve])) (by decide) hF)
  | clrAbandon => exact execClrAbandon_keeps keeps_refl (within_list (l := (List.append (List.append (List.append hitchFields replyFields) readFields) [Field.kv, Field.serve])) (by decide) hF)
  | mode => exact execMode_keeps keeps_refl (within_list (l := (List.append (List.append (List.append hitchFields replyFields) readFields) [Field.kv, Field.serve])) (by decide) hF)
  | targetOn => exact execTargetOn_keeps keeps_refl (within_list (l := replyFields) (by decide) hF)
  | targetRetention => exact execTargetRetention_keeps keeps_refl (within_list (l := replyFields) (by decide) hF)
  | targetOff => exact execTargetOff_keeps keeps_refl (within_list (l := replyFields) (by decide) hF)
  | cleatRel => exact execCleatRel_keeps keeps_refl (within_list (l := replyFields) (by decide) hF)
  | pwrAonCtrl => exact execPwrAonCtrl_keeps keeps_refl (within_list (l := replyFields) (by decide) hF)
  | kvpPartBightRegion => exact execKvpPartBightRegion_keeps keeps_refl (within_list (l := replyFields) (by decide) hF)
  | vidCoreOwner => exact execVidCoreOwner_keeps keeps_refl (within_list (l := replyFields) (by decide) hF)
  | ecnBraidCtrl => exact execEcnBraidCtrl_keeps keeps_refl (within_list (l := replyFields) (by decide) hF)
  | secCtrl => exact execSecCtrl_keeps keeps_refl (within_list (l := replyFields) (by decide) hF)
  | dirReady => exact execDirReady_keeps keeps_refl (within_list (l := (List.append replyFields [Field.start])) (by decide) hF)
  | chkPartCtrl => exact execChkPartCtrl_keeps keeps_refl (within_list (l := replyFields) (by decide) hF)
  | chkStrandQset => exact execChkStrandQset_keeps keeps_refl (within_list (l := replyFields) (by decide) hF)
  | chkStrandQmask => exact execChkStrandQmask_keeps keeps_refl (within_list (l := replyFields) (by decide) hF)
  | gblDetPartJrnlRd => exact execGblDetPartJrnlRd_keeps keeps_refl (within_list (l := replyFields) (by decide) hF)
  | gblDetPartReplay => exact execGblDetPartReplay_keeps keeps_refl (within_list (l := replyFields) (by decide) hF)
  | now => exact execNow_keeps keeps_refl (within_list (l := (List.append replyFields [Field.thermo])) (by decide) hF)
  | thmKeepWarm => exact execThmKeepWarm_keeps keeps_refl (within_list (l := (List.append replyFields [Field.thermo])) (by decide) hF)
  | gblStartCtrl => exact execGblStartCtrl_keeps keeps_refl (within_list (l := replyFields) (by decide) hF)
  | nop => exact execNop_keeps keeps_refl (within_list (l := (List.append hitchFields [Field.thermo])) (by decide) hF)
  | matmul => exact execMatmul_keeps keeps_refl (within_list (l := hitchFields) (by decide) hF)
  | accSave => exact execAccSave_keeps keeps_refl (within_list (l := hitchFields) (by decide) hF)
  | accRestore => exact execAccRestore_keeps keeps_refl (within_list (l := hitchFields) (by decide) hF)
  | vload => exact execVload_keeps keeps_refl (within_list (l := hitchFields) (by decide) hF)
  | vstore => exact execVstore_keeps keeps_refl (within_list (l := hitchFields) (by decide) hF)
  | convert => exact execConvert_keeps keeps_refl (within_list (l := hitchFields) (by decide) hF)
  | move => exact execMove_keeps keeps_refl (within_list (l := (List.append hitchFields readFields)) (by decide) hF)
  | vAdd => exact execVAdd_keeps keeps_refl (within_list (l := hitchFields) (by decide) hF)
  | vSub => exact execVSub_keeps keeps_refl (within_list (l := hitchFields) (by decide) hF)
  | vMul => exact execVMul_keeps keeps_refl (within_list (l := hitchFields) (by decide) hF)
  | vFma => exact execVFma_keeps keeps_refl (within_list (l := hitchFields) (by decide) hF)
  | vDiv => exact execVDiv_keeps keeps_refl (within_list (l := hitchFields) (by decide) hF)
  | vSqrt => exact execVSqrt_keeps keeps_refl (within_list (l := hitchFields) (by decide) hF)
  | vRcp => exact execVRcp_keeps keeps_refl (within_list (l := hitchFields) (by decide) hF)
  | vRsqrt => exact execVRsqrt_keeps keeps_refl (within_list (l := hitchFields) (by decide) hF)
  | vExp2 => exact execVExp2_keeps keeps_refl (within_list (l := hitchFields) (by decide) hF)
  | vLog2 => exact execVLog2_keeps keeps_refl (within_list (l := hitchFields) (by decide) hF)
  | vExp => exact execVExp_keeps keeps_refl (within_list (l := hitchFields) (by decide) hF)
  | vLog => exact execVLog_keeps keeps_refl (within_list (l := hitchFields) (by decide) hF)
  | vTanh => exact execVTanh_keeps keeps_refl (within_list (l := hitchFields) (by decide) hF)
  | vSigmoid => exact execVSigmoid_keeps keeps_refl (within_list (l := hitchFields) (by decide) hF)
  | vSilu => exact execVSilu_keeps keeps_refl (within_list (l := hitchFields) (by decide) hF)
  | vErf => exact execVErf_keeps keeps_refl (within_list (l := hitchFields) (by decide) hF)
  | vGelu => exact execVGelu_keeps keeps_refl (within_list (l := hitchFields) (by decide) hF)
  | vSin => exact execVSin_keeps keeps_refl (within_list (l := hitchFields) (by decide) hF)
  | vCos => exact execVCos_keeps keeps_refl (within_list (l := hitchFields) (by decide) hF)
  | vMin => exact execVMin_keeps keeps_refl (within_list (l := hitchFields) (by decide) hF)
  | vMax => exact execVMax_keeps keeps_refl (within_list (l := hitchFields) (by decide) hF)
  | vCmpEq => exact execVCmpEq_keeps keeps_refl (within_list (l := hitchFields) (by decide) hF)
  | vCmpLt => exact execVCmpLt_keeps keeps_refl (within_list (l := hitchFields) (by decide) hF)
  | vCmpLe => exact execVCmpLe_keeps keeps_refl (within_list (l := hitchFields) (by decide) hF)
  | vSelect => exact execVSelect_keeps keeps_refl (within_list (l := hitchFields) (by decide) hF)
  | vIadd => exact execVIadd_keeps keeps_refl (within_list (l := hitchFields) (by decide) hF)
  | vIsub => exact execVIsub_keeps keeps_refl (within_list (l := hitchFields) (by decide) hF)
  | vImul => exact execVImul_keeps keeps_refl (within_list (l := hitchFields) (by decide) hF)
  | vAnd => exact execVAnd_keeps keeps_refl (within_list (l := hitchFields) (by decide) hF)
  | vOr => exact execVOr_keeps keeps_refl (within_list (l := hitchFields) (by decide) hF)
  | vXor => exact execVXor_keeps keeps_refl (within_list (l := hitchFields) (by decide) hF)
  | vShl => exact execVShl_keeps keeps_refl (within_list (l := hitchFields) (by decide) hF)
  | vShr => exact execVShr_keeps keeps_refl (within_list (l := hitchFields) (by decide) hF)
  | vSar => exact execVSar_keeps keeps_refl (within_list (l := hitchFields) (by decide) hF)
  | vPermute => exact execVPermute_keeps keeps_refl (within_list (l := hitchFields) (by decide) hF)
  | vSumLanes => exact execVSumLanes_keeps keeps_refl (within_list (l := hitchFields) (by decide) hF)
  | vMaxLanes => exact execVMaxLanes_keeps keeps_refl (within_list (l := hitchFields) (by decide) hF)
  | vMinLanes => exact execVMinLanes_keeps keeps_refl (within_list (l := hitchFields) (by decide) hF)
  | vCvtF2i => exact execVCvtF2i_keeps keeps_refl (within_list (l := hitchFields) (by decide) hF)
  | vCvtI2f => exact execVCvtI2f_keeps keeps_refl (within_list (l := hitchFields) (by decide) hF)
  | forward => exact execForward_keeps keeps_refl (within_list (l := (List.append hitchFields readFields)) (by decide) hF)
  | backward => exact execBackward_keeps keeps_refl (within_list (l := (List.append hitchFields readFields)) (by decide) hF)
  | kvWalk => exact execKvWalk_keeps keeps_refl (within_list (l := (List.append (List.append hitchFields readFields) [Field.kv, Field.thermo])) (by decide) hF)
  | append => exact execAppend_keeps keeps_refl (within_list (l := (List.append hitchFields [Field.kv])) (by decide) hF)
  | accept => exact execAccept_keeps keeps_refl (within_list (l := (List.append hitchFields [Field.kv])) (by decide) hF)
  | conv => exact execConv_keeps keeps_refl (within_list (l := hitchFields) (by decide) hF)
  | pool => exact execPool_keeps keeps_refl (within_list (l := hitchFields) (by decide) hF)
  | cropResize => exact execCropResize_keeps keeps_refl (within_list (l := (List.append (List.append hitchFields readFields) [Field.video])) (by decide) hF)
  | send => exact execSend_keeps keeps_refl (within_list (l := (List.append (List.append hitchFields readFields) [Field.thermo])) (by decide) hF)
  | ret => exact execRet_keeps keeps_refl (within_list (l := (List.append hitchFields readFields)) (by decide) hF)
  | allReduce => exact execAllReduce_keeps keeps_refl (within_list (l := (List.append (List.append hitchFields readFields) [Field.thermo])) (by decide) hF)
  | reduceScatter => exact execReduceScatter_keeps keeps_refl (within_list (l := (List.append (List.append hitchFields readFields) [Field.thermo])) (by decide) hF)
  | allGather => exact execAllGather_keeps keeps_refl (within_list (l := (List.append (List.append hitchFields readFields) [Field.thermo])) (by decide) hF)
  | allToAll => exact execAllToAll_keeps keeps_refl (within_list (l := (List.append (List.append hitchFields readFields) [Field.thermo])) (by decide) hF)
  | scatterAdd => exact execScatterAdd_keeps keeps_refl (within_list (l := hitchFields) (by decide) hF)
  | topk => exact execTopk_keeps keeps_refl (within_list (l := hitchFields) (by decide) hF)
  | telltale => exact execTelltale_keeps keeps_refl (within_list (l := (List.append hitchFields readFields)) (by decide) hF)
  | reelStage => exact execReelStage_keeps keeps_refl (within_list (l := (List.append (List.append hitchFields readFields) [Field.serve])) (by decide) hF)
  | link => exact execLink_keeps keeps_refl (within_list (l := (List.append hitchFields [Field.thermo])) (by decide) hF)
  | stepEnd => exact execStepEnd_keeps keeps_refl (within_list (l := (List.append hitchFields [Field.thermo])) (by decide) hF)
  | hitchFetch => exact execHitchFetch_keeps keeps_refl (within_list (l := (List.append (List.append hitchFields readFields) [Field.now, Field.thermo])) (by decide) hF)
  | hitchEmit => exact execHitchEmit_keeps keeps_refl (within_list (l := [Field.now, Field.regs, Field.strands, Field.hanks, Field.thermo]) (by decide) hF)
  | positionSwitch => exact execPositionSwitch_keeps keeps_refl (within_list (l := (List.append (List.append domainFields readFields) [Field.now, Field.thermo])) (by decide) hF)
  | hitchComplete => exact execHitchComplete_keeps keeps_refl (within_list (l := (List.append (List.append (List.append hitchFields replyFields) readFields) [Field.owners, Field.kv, Field.serve, Field.video, Field.thermo, Field.security])) (by decide) hF)
  | knotTimeout => exact execKnotTimeout_keeps keeps_refl (within_list (l := (List.append (List.append (List.append hitchFields replyFields) readFields) [Field.owners, Field.kv, Field.serve, Field.video, Field.thermo, Field.security])) (by decide) hF)
  | stepStart => exact execStepStart_keeps keeps_refl (within_list (l := (List.append domainFields [Field.now, Field.kv, Field.thermo, Field.journals])) (by decide) hF)
  | stepCommit =>
    cases kn with
    | true => exact nomatch (hn rfl : true = false)
    | false => exact execStepCommit_keeps keeps_refl (within_list (l := (List.append (List.append (List.append hitchFields replyFields) readFields) [Field.owners, Field.kv, Field.serve, Field.video, Field.thermo, Field.security, Field.journals])) (by decide) hF)
  | stepReplay => exact execStepReplay_keeps keeps_refl (within_list (l := (List.append (List.append (List.append hitchFields replyFields) readFields) [Field.kv, Field.serve, Field.thermo, Field.journals])) (by decide) hF)
  | stepAbandon => exact execStepAbandon_keeps keeps_refl (within_list (l := (List.append (List.append (List.append hitchFields replyFields) readFields) [Field.kv, Field.serve])) (by decide) hF)
  | stepBuild =>
    cases kn with
    | true => exact nomatch (hn rfl : true = false)
    | false => exact execStepBuild_keeps keeps_refl (within_list (l := (List.append (List.append domainFields readFields) [Field.now, Field.kv, Field.serve, Field.journals])) (by decide) hF)
  | refillTick => exact execRefillTick_keeps keeps_refl (within_list (l := [Field.now, Field.serve]) (by decide) hF)
  | pageManager => exact execPageManager_keeps keeps_refl (within_list (l := (List.append (List.append domainFields readFields) [Field.now, Field.kv, Field.serve, Field.journals])) (by decide) hF)
  | pageMove => exact execPageMove_keeps keeps_refl (within_list (l := (List.append (List.append domainFields readFields) [Field.now, Field.kv, Field.serve])) (by decide) hF)
  | heldFlush => exact execHeldFlush_keeps keeps_refl (within_list (l := (List.append (List.append domainFields readFields) [Field.now, Field.kv, Field.serve])) (by decide) hF)
  | fairleadRequest => exact execFairleadRequest_keeps keeps_refl (within_list (l := (List.append domainFields [Field.now, Field.fairlead])) (by decide) hF)
  | fairleadGrant => exact execFairleadGrant_keeps keeps_refl (within_list (l := [Field.now, Field.regs, Field.fairlead]) (by decide) hF)
  | transferDone => exact execTransferDone_keeps keeps_refl (within_list (l := [Field.now, Field.regs, Field.fairlead, Field.start]) (by decide) hF)
  | backoffEnd => exact execBackoffEnd_keeps keeps_refl (within_list (l := [Field.now, Field.regs, Field.fairlead]) (by decide) hF)
  | starvation => exact execStarvation_keeps keeps_refl (within_list (l := [Field.now, Field.regs, Field.parts, Field.fairlead, Field.sessions, Field.checks, Field.sent]) (by decide) hF)
  | slotTableSwitch => exact execSlotTableSwitch_keeps keeps_refl (within_list (l := [Field.now, Field.regs, Field.fairlead]) (by decide) hF)
  | lineRead => exact execLineRead_keeps keeps_refl (within_list (l := (List.append (List.append domainFields readFields) [Field.now])) (by decide) hF)
  | lineWrite => exact execLineWrite_keeps keeps_refl (within_list (l := (List.append (List.append domainFields readFields) [Field.now])) (by decide) hF)
  | correctionWriteback => exact execCorrectionWriteback_keeps keeps_refl (within_list (l := [Field.units]) (by decide) hF)
  | blockRetire => exact execBlockRetire_keeps keeps_refl (within_list (l := [Field.now, Field.units, Field.errLogs, Field.errDropped]) (by decide) hF)
  | patrolRead => exact execPatrolRead_keeps keeps_refl (within_list (l := (List.append readFields [Field.now, Field.regs, Field.mem, Field.parts, Field.units, Field.ecron, Field.sessions, Field.checks, Field.sent])) (by decide) hF)
  | scrubRead => exact execScrubRead_keeps keeps_refl (within_list (l := [Field.regs, Field.strands]) (by decide) hF)
  | scratchWriteback => exact execScratchWriteback_keeps keeps_refl (within_list (l := [Field.strands]) (by decide) hF)
  | packetTransmit => exact execPacketTransmit_keeps keeps_refl (within_list (l := [Field.now, Field.regs, Field.ecron, Field.sent]) (by decide) hF)
  | data => exact execData_keeps keeps_refl (within_list (l := (List.append (List.append hitchFields readFields) [Field.now, Field.kv, Field.serve, Field.thermo])) (by decide) hF)
  | epochHold => exact execEpochHold_keeps keeps_refl (within_list (l := (List.append (List.append hitchFields readFields) [Field.now, Field.kv, Field.serve, Field.thermo])) (by decide) hF)
  | refuse => exact execRefuse_keeps keeps_refl (within_list (l := (List.append (List.append hitchFields readFields) [Field.now, Field.kv, Field.serve, Field.thermo])) (by decide) hF)
  | ackPacket => exact execAckPacket_keeps keeps_refl (within_list (l := (List.append (List.append hitchFields readFields) [Field.now, Field.kv, Field.serve, Field.thermo])) (by decide) hF)
  | bulkTimeout => exact execBulkTimeout_keeps keeps_refl (within_list (l := (List.append domainFields [Field.now, Field.kv, Field.serve])) (by decide) hF)
  | dispatchRow => exact execDispatchRow_keeps keeps_refl (within_list (l := (List.append (List.append hitchFields readFields) [Field.now, Field.thermo])) (by decide) hF)
  | rxExpired => exact execRxExpired_keeps keeps_refl (within_list (l := (List.append (List.append hitchFields readFields) [Field.now, Field.thermo])) (by decide) hF)
  | returnRow => exact execReturnRow_keeps keeps_refl (within_list (l := (List.append (List.append hitchFields readFields) [Field.now, Field.thermo])) (by decide) hF)
  | post => exact execPost_keeps keeps_refl (within_list (l := (List.append (List.append hitchFields readFields) [Field.now, Field.thermo])) (by decide) hF)
  | key => exact execKey_keeps keeps_refl (within_list (l := (List.append (List.append hitchFields readFields) [Field.now, Field.thermo])) (by decide) hF)
  | anchor => exact execAnchor_keeps keeps_refl (within_list (l := (List.append (List.append hitchFields readFields) [Field.now, Field.thermo])) (by decide) hF)
  | contrib => exact execContrib_keeps keeps_refl (within_list (l := (List.append (List.append hitchFields readFields) [Field.now, Field.thermo])) (by decide) hF)
  | result => exact execResult_keeps keeps_refl (within_list (l := (List.append (List.append hitchFields readFields) [Field.now, Field.thermo])) (by decide) hF)
  | done => exact execDone_keeps keeps_refl (within_list (l := (List.append (List.append hitchFields readFields) [Field.now, Field.thermo])) (by decide) hF)
  | ready => exact execReady_keeps keeps_refl (within_list (l := (List.append (List.append domainFields readFields) [Field.now, Field.thermo])) (by decide) hF)
  | abort => exact execAbort_keeps keeps_refl (within_list (l := (List.append (List.append domainFields readFields) [Field.now, Field.thermo])) (by decide) hF)
  | query => exact execQuery_keeps keeps_refl (within_list (l := (List.append (List.append domainFields readFields) [Field.now, Field.thermo])) (by decide) hF)
  | messageExpired => exact execMessageExpired_keeps keeps_refl (within_list (l := (List.append (List.append domainFields readFields) [Field.now, Field.thermo])) (by decide) hF)
  | collectiveTimeout => exact execCollectiveTimeout_keeps keeps_refl (within_list (l := [Field.now, Field.strands, Field.dispatch]) (by decide) hF)
  | voteQueryTimeout => exact execVoteQueryTimeout_keeps keeps_refl (within_list (l := (List.append domainFields [Field.now])) (by decide) hF)
  | kvShipPage => exact execKvShipPage_keeps keeps_refl (within_list (l := (List.append (List.append domainFields readFields) [Field.now, Field.kv, Field.serve])) (by decide) hF)
  | linkState => exact execLinkState_keeps keeps_refl (within_list (l := [Field.now, Field.ecron]) (by decide) hF)
  | relayFrame => exact execRelayFrame_keeps keeps_refl (within_list (l := (List.append replyFields [Field.recoveries, Field.meters, Field.security])) (by decide) hF)
  | linkStateSend => exact execLinkStateSend_keeps keeps_refl (within_list (l := (List.append domainFields [Field.now])) (by decide) hF)
  | idle => exact execIdle_keeps keeps_refl (within_list (l := [Field.now, Field.regs, Field.ecron]) (by decide) hF)
  | credit => exact execCredit_keeps keeps_refl (within_list (l := [Field.now, Field.fresh, Field.regs, Field.parts, Field.ecron, Field.sessions, Field.checks, Field.sent]) (by decide) hF)
  | ack => exact execAck_keeps keeps_refl (within_list (l := [Field.ecron]) (by decide) hF)
  | replayReq => exact execReplayReq_keeps keeps_refl (within_list (l := [Field.regs, Field.ecron, Field.sent]) (by decide) hF)
  | sync => exact execSync_keeps keeps_refl (within_list (l := [Field.now, Field.regs, Field.parts, Field.ecron, Field.sessions, Field.checks, Field.sent]) (by decide) hF)
  | keepalive port n b t => exact execKeepalive_keeps (time := n) keeps_refl (within_list (l := [Field.now, Field.ecron]) (by decide) hF)
  | hello => exact execHello_keeps keeps_refl (within_list (l := [Field.now, Field.regs, Field.parts, Field.ecron, Field.sessions, Field.checks, Field.sent]) (by decide) hF)
  | ackSend => exact execAckSend_keeps keeps_refl (within_list (l := [Field.now, Field.ecron, Field.sent]) (by decide) hF)
  | keepaliveSend => exact execKeepaliveSend_keeps keeps_refl (within_list (l := [Field.now, Field.ecron, Field.sent]) (by decide) hF)
  | syncSend => exact execSyncSend_keeps keeps_refl (within_list (l := [Field.now, Field.ecron, Field.sent]) (by decide) hF)
  | uncorrectableCodeword => exact execUncorrectableCodeword_keeps keeps_refl (within_list (l := [Field.now, Field.regs, Field.ecron, Field.sent]) (by decide) hF)
  | errLimitExceeded => exact execErrLimitExceeded_keeps keeps_refl (within_list (l := [Field.now, Field.regs, Field.ecron]) (by decide) hF)
  | codewordLoss => exact execCodewordLoss_keeps keeps_refl (within_list (l := [Field.now, Field.regs, Field.ecron]) (by decide) hF)
  | portSignalDetect => exact execPortSignalDetect_keeps keeps_refl (within_list (l := [Field.now, Field.ecron]) (by decide) hF)
  | trainingDone => exact execTrainingDone_keeps keeps_refl (within_list (l := [Field.now, Field.ecron]) (by decide) hF)
  | lock => exact execLock_keeps keeps_refl (within_list (l := [Field.now, Field.fresh, Field.ecron, Field.sent]) (by decide) hF)
  | portStateTimeout => exact execPortStateTimeout_keeps keeps_refl (within_list (l := [Field.now, Field.regs, Field.parts, Field.ecron, Field.sessions, Field.checks, Field.sent]) (by decide) hF)
  | portRetry => exact execPortRetry_keeps keeps_refl (within_list (l := [Field.now, Field.ecron]) (by decide) hF)
  | ptpSync => exact execPtpSync_keeps keeps_refl (within_list (l := [Field.now, Field.regs, Field.sessions, Field.hostPorts, Field.ptp, Field.serve, Field.sent]) (by decide) hF)
  | ptpSourceSwitch => exact execPtpSourceSwitch_keeps keeps_refl (within_list (l := [Field.now, Field.ptp]) (by decide) hF)
  | ptpHoldover => exact execPtpHoldover_keeps keeps_refl (within_list (l := [Field.now, Field.ptp]) (by decide) hF)
  | gclActivate => exact execGclActivate_keeps keeps_refl (within_list (l := [Field.now, Field.hostPorts]) (by decide) hF)
  | pictureStart => exact execPictureStart_keeps keeps_refl (within_list (l := (List.append domainFields [Field.now, Field.video])) (by decide) hF)
  | pictureDone => exact execPictureDone_keeps keeps_refl (within_list (l := (List.append (List.append domainFields readFields) [Field.now, Field.video])) (by decide) hF)
  | bufferWaitTimeout => exact execBufferWaitTimeout_keeps keeps_refl (within_list (l := (List.append (List.append domainFields readFields) [Field.now, Field.video])) (by decide) hF)
  | watchdog => exact execWatchdog_keeps keeps_refl (within_list (l := (List.append (List.append domainFields readFields) [Field.now, Field.video])) (by decide) hF)
  | packRotation => exact execPackRotation_keeps keeps_refl (within_list (l := [Field.now, Field.checks]) (by decide) hF)
  | packTestEnd => exact execPackTestEnd_keeps keeps_refl (within_list (l := [Field.now, Field.regs, Field.strands, Field.parts, Field.sessions, Field.checks, Field.sent]) (by decide) hF)
  | scoreDecay => exact execScoreDecay_keeps keeps_refl (within_list (l := [Field.now, Field.strands]) (by decide) hF)
  | bandClassify => exact execBandClassify_keeps keeps_refl (within_list (l := [Field.now, Field.strands, Field.hanks]) (by decide) hF)
  | sensorSample => exact execSensorSample_keeps keeps_refl (within_list (l := [Field.now, Field.regs, Field.hanks, Field.parts, Field.sessions, Field.thermo, Field.start, Field.checks, Field.sent]) (by decide) hF)
  | sensorSplit => exact execSensorSplit_keeps keeps_refl (within_list (l := [Field.now, Field.regs, Field.parts, Field.sessions, Field.thermo, Field.checks, Field.sent]) (by decide) hF)
  | sensorFail => exact execSensorFail_keeps keeps_refl (within_list (l := [Field.now, Field.regs, Field.parts, Field.sessions, Field.thermo, Field.checks, Field.sent]) (by decide) hF)
  | thermalShutdown => exact execThermalShutdown_keeps keeps_refl (within_list (l := (List.append (List.append (List.append hitchFields replyFields) readFields) [Field.owners, Field.lease, Field.kv, Field.serve, Field.video, Field.thermo, Field.security])) (by decide) hF)
  | coolantHot => exact execCoolantHot_keeps keeps_refl (within_list (l := [Field.now, Field.regs, Field.sessions, Field.thermo, Field.sent]) (by decide) hF)
  | reefBoundary => exact execReefBoundary_keeps keeps_refl (within_list (l := [Field.now, Field.regs, Field.hanks, Field.sessions, Field.thermo, Field.sent]) (by decide) hF)
  | rotation => exact execRotation_keeps keeps_refl (within_list (l := [Field.now, Field.hanks]) (by decide) hF)
  | marginReplan => exact execMarginReplan_keeps keeps_refl (within_list (l := [Field.now, Field.regs, Field.parts, Field.sessions, Field.thermo, Field.checks, Field.sent]) (by decide) hF)
  | wakeOnAccess => exact execWakeOnAccess_keeps keeps_refl (within_list (l := (List.append domainFields [Field.now])) (by decide) hF)
  | quiesceEnd => exact execQuiesceEnd_keeps keeps_refl (within_list (l := [Field.now, Field.power]) (by decide) hF)
  | drainTimeout => exact execDrainTimeout_keeps keeps_refl (within_list (l := (List.append domainFields [Field.now])) (by decide) hF)
  | saveDone => exact execSaveDone_keeps keeps_refl (within_list (l := (List.append domainFields [Field.now])) (by decide) hF)
  | domainReady => exact execDomainReady_keeps keeps_refl (within_list (l := (List.append domainFields [Field.now])) (by decide) hF)
  | brownout => exact execBrownout_keeps keeps_refl (within_list (l := [Field.now, Field.regs, Field.parts, Field.sessions, Field.power, Field.checks, Field.sent]) (by decide) hF)
  | portSilent => exact execPortSilent_keeps keeps_refl (within_list (l := [Field.now, Field.regs, Field.sessions, Field.hostPorts, Field.sent]) (by decide) hF)
  | commanderLost => exact execCommanderLost_keeps keeps_refl (within_list (l := [Field.now, Field.regs, Field.sessions, Field.lease, Field.sent]) (by decide) hF)
  | leaseLapse => exact execLeaseLapse_keeps keeps_refl (within_list (l := [Field.now]) (by decide) hF)
  | seize => exact execSeize_keeps keeps_refl (within_list (l := (List.append (List.append (List.append hitchFields replyFields) readFields) [Field.owners, Field.lease, Field.kv, Field.serve, Field.video, Field.thermo, Field.security])) (by decide) hF)
  | coilPreload => exact execCoilPreload_keeps keeps_refl (within_list (l := [Field.now, Field.update]) (by decide) hF)
  | stepHoldLead => exact execStepHoldLead_keeps keeps_refl (within_list (l := [Field.now]) (by decide) hF)
  | datapathSwitch => exact execDatapathSwitch_keeps keeps_refl (within_list (l := [Field.now, Field.regs, Field.hanks, Field.sessions, Field.update, Field.sent]) (by decide) hF)
  | mgmtResume => exact execMgmtResume_keeps keeps_refl (within_list (l := (List.append replyFields [Field.recoveries, Field.meters, Field.security])) (by decide) hF)
  | mgmtStartTimeout => exact execMgmtStartTimeout_keeps keeps_refl (within_list (l := (List.append replyFields [Field.recoveries, Field.meters, Field.security])) (by decide) hF)
  | confirmOverdue => exact execConfirmOverdue_keeps keeps_refl (within_list (l := [Field.now, Field.regs, Field.sessions, Field.update, Field.sent]) (by decide) hF)
  | inputQualified => exact execInputQualified_keeps keeps_refl (within_list (l := [Field.now, Field.start]) (by decide) hF)
  | inputRange => exact execInputRange_keeps keeps_refl (within_list (l := [Field.now, Field.regs, Field.sessions, Field.start, Field.sent]) (by decide) hF)
  | inputShutdown =>
    cases kn with
    | true => exact nomatch (hn rfl : true = false)
    | false => exact execInputShutdown_keeps keeps_refl (within_list (l := (List.append (List.append (List.append hitchFields replyFields) readFields) [Field.owners, Field.fairlead, Field.recoveries, Field.meters, Field.ptp, Field.lease, Field.kv, Field.serve, Field.video, Field.thermo, Field.start, Field.security, Field.journals, Field.snaps])) (by decide) hF)
  | pwrgd =>
    cases kn with
    | true => exact nomatch (hn rfl : true = false)
    | false =>
      cases kc with
      | true => exact nomatch (hc rfl : true = false)
      | false => exact execPwrgd_keeps keeps_refl (within_list (l := [Field.now, Field.start]) (by decide) hF)
  | resetNLow =>
    cases kn with
    | true => exact nomatch (hn rfl : true = false)
    | false => exact execResetNLow_keeps keeps_refl (within_list (l := (List.append (List.append (List.append hitchFields replyFields) readFields) [Field.owners, Field.fairlead, Field.recoveries, Field.meters, Field.ptp, Field.lease, Field.kv, Field.serve, Field.video, Field.thermo, Field.start, Field.security, Field.journals, Field.snaps])) (by decide) hF)
  | resetNHigh => exact execResetNHigh_keeps keeps_refl (within_list (l := [Field.now, Field.start]) (by decide) hF)
  | trayLatch => exact execTrayLatch_keeps keeps_refl (within_list (l := [Field.now, Field.regs, Field.sessions, Field.start, Field.sent]) (by decide) hF)
  | aelpo => exact execAelpo_keeps keeps_refl (within_list (l := [Field.now, Field.regs, Field.parts, Field.sessions, Field.start, Field.security, Field.checks, Field.sent]) (by decide) hF)
  | coil => exact execCoil_keeps keeps_refl (within_list (l := [Field.now, Field.regs, Field.parts, Field.sessions, Field.update, Field.start, Field.checks, Field.sent]) (by decide) hF)
  | wake => exact execWake_keeps keeps_refl (within_list (l := [Field.now, Field.hanks, Field.ctls, Field.power, Field.start]) (by decide) hF)
  | memory => exact execMemory_keeps keeps_refl (within_list (l := [Field.now, Field.regs, Field.parts, Field.ctls, Field.sessions, Field.start, Field.checks, Field.sent]) (by decide) hF)
  | init => exact execInit_keeps keeps_refl (within_list (l := [Field.now, Field.owners, Field.start, Field.security]) (by decide) hF)
  | selfTest => exact execSelfTest_keeps keeps_refl (within_list (l := [Field.now, Field.regs, Field.strands, Field.parts, Field.sessions, Field.start, Field.checks, Field.sent]) (by decide) hF)
  | links => exact execLinks_keeps keeps_refl (within_list (l := [Field.now, Field.regs, Field.sessions, Field.start, Field.sent]) (by decide) hF)
  | identity => exact execIdentity_keeps keeps_refl (within_list (l := [Field.power, Field.sent]) (by decide) hF)
  | state => exact execState_keeps keeps_refl (within_list (l := [Field.power, Field.sent]) (by decide) hF)
  | thermal => exact execThermal_keeps keeps_refl (within_list (l := [Field.power, Field.sent]) (by decide) hF)
  | power => exact execPower_keeps keeps_refl (within_list (l := [Field.power, Field.sent]) (by decide) hF)
  | trustWrite => exact execTrustWrite_keeps keeps_refl (within_list (l := [Field.power, Field.security, Field.sent]) (by decide) hF)
  | alertResponse => exact execAlertResponse_keeps keeps_refl (within_list (l := [Field.power, Field.sent]) (by decide) hF)
  | hostLinkUp => exact execHostLinkUp_keeps keeps_refl (within_list (l := [Field.now, Field.hostPorts]) (by decide) hF)
  | hostLinkDown => exact execHostLinkDown_keeps keeps_refl (within_list (l := [Field.now, Field.hostPorts]) (by decide) hF)
  | inputOk => exact execInputOk_keeps keeps_refl (within_list (l := [Field.now, Field.start]) (by decide) hF)
  | relayReply => exact execRelayReply_keeps keeps_refl (within_list (l := [Field.now, Field.sent]) (by decide) hF)
  | pdelayInterval => exact execPdelayInterval_keeps keeps_refl (within_list (l := [Field.now, Field.hostPorts, Field.sent]) (by decide) hF)
  | gateIntervalEnd => exact execGateIntervalEnd_keeps keeps_refl (within_list (l := [Field.now, Field.hostPorts]) (by decide) hF)
  | recoveryResetTimeout => exact execRecoveryResetTimeout_keeps keeps_refl (within_list (l := [Field.now, Field.recoveries]) (by decide) hF)
  | debugOpen => exact execDebugOpen_keeps keeps_refl (within_list (l := [Field.now, Field.security]) (by decide) hF)

end Sys2Proof.Machine
end

