-- ==== Sys2Proof/Laws/Command.lean ====
section
/-! SUPPORT. What the gate of every Hawser command does with one that may execute (R413, R415), and what its answer leaves
unchanged. -/

namespace Sys2Proof.Machine

theorem mget_mmod_self {α : Type} (m : Map α) (k : Nat) (f : α → α) : mget (mmod m k f) k = (mget m k).map f := by
  unfold mmod
  cases h : mget m k with
  | none => simp [h]
  | some a => simp [mget_mput_self]

theorem mget_mmod_other {α : Type} (m : Map α) (k j : Nat) (f : α → α) (h : j ≠ k) : mget (mmod m k f) j = mget m j := by
  unfold mmod
  cases mget m k with
  | none => rfl
  | some a => exact mget_mput_other m k j (f a) h

theorem commandLater_next {s : State} {h : CmdHdr} {code : Nat} {f : State → Option (Nat × List Byte) × State}
    (a : (s.tick h.t).accepts h code) :
    s.commandLater h code f = match (f (s.tick h.t)).1 with
      | some x => (f (s.tick h.t)).2.reply h.session h.seq x.1 x.2
      | none => (f (s.tick h.t)).2 := by
  obtain ⟨p, x, hx, q⟩ := a
  unfold State.commandLater
  simp only [hx, p, Option.isSome_none, Bool.false_eq_true, if_false]
  split at q
  · rename_i hq
    cases (f (s.tick h.t)).1 <;>
      simp only [hq, q.1, q.2, Bool.true_and, bne_self_eq_false, Bool.false_eq_true, if_false, if_true]
  · rename_i hq
    simp only [Bool.not_eq_true] at hq
    cases (f (s.tick h.t)).1 <;> simp only [hq, q, Bool.false_and, Bool.false_eq_true, if_false]

theorem command_next {s : State} {h : CmdHdr} {code : Nat} {f : State → Nat × List Byte × State}
    (a : (s.tick h.t).accepts h code) :
    s.command h code f = (f (s.tick h.t)).2.2.reply h.session h.seq (f (s.tick h.t)).1 (f (s.tick h.t)).2.1 := by
  unfold State.command
  rw [commandLater_next a]

theorem runs_next {s u : State} {h : CmdHdr} {code : Nat} {f : State → Nat × List Byte × State} (a : s.runs h code u) :
    s.command h code f = (f u).2.2.reply h.session h.seq (f u).1 (f u).2.1 := by
  obtain ⟨rfl, a⟩ := a
  exact command_next a

theorem runs_later {s u : State} {h : CmdHdr} {code : Nat} {f : State → Option (Nat × List Byte) × State}
    (a : s.runs h code u) :
    s.commandLater h code f = match (f u).1 with
      | some x => (f u).2.reply h.session h.seq x.1 x.2
      | none => (f u).2 := by
  obtain ⟨rfl, a⟩ := a
  exact commandLater_next a

theorem writes_next {s u : State} {h : CmdHdr} {code addr : Nat} {f : State → Nat × List Byte × State}
    (a : s.writes h code addr u) :
    s.regCommand h code addr f = (f u).2.2.reply h.session h.seq (f u).1 (f u).2.1 := by
  obtain ⟨a, b, rfl⟩ := a
  unfold State.regCommand
  rw [command_next a]
  simp only [b, if_true]

/-- A message that is heard is acted on (R392, R400). -/
theorem hears_next {s v : State} {d kind : Nat} {pk : Packet} {f : Packet → CollHead → Nat → State → State}
    (h : s.hears d kind pk v) : s.collMessage d kind f = f pk (headStep pk).1 (headStep pk).2 v := by
  obtain ⟨x, hx, rfl, rfl, hg, ht⟩ := h
  unfold State.collMessage
  rw [hx]
  dsimp only
  split
  · rename_i e
    split at e
    · rename_i c
      rw [hg c] at e; exact nomatch e
    · exact nomatch e
  · rw [if_neg fun a => a ht]

/-- A message for a running collective is acted on, and the collective carried as far as it can (R392). -/
theorem hearsFor_next {s v : State} {d kind : Nat} {pk : Packet} {c : Coll} {f : Packet → CollHead → Coll → State → State}
    (h : s.hearsFor d kind pk c v) :
    s.roundMessage d kind f = (f pk (headStep pk).1 c v).advanceColl d c.part c.id := by
  obtain ⟨h, ho, hc, ht, hn, hi⟩ := h
  unfold State.roundMessage
  rw [hears_next h]
  dsimp only
  rw [ho, if_neg (by decide), hc]
  dsimp only
  rw [if_neg (by rintro (e | e); exact e ht; exact e hn), if_neg (by omega)]

/-- A command that a rule of admission refuses has no effect but its reply (R413, R512). -/
theorem commandLater_refused {s : State} {h : CmdHdr} {code st : Nat} {f : State → Option (Nat × List Byte) × State} {x : Session}
    (p : (s.tick h.t).update.paused = none) (hx : (s.tick h.t).session h.session = some x)
    (q : x.queue.any (fun q => q.seq == h.seq) = false) (r : (s.tick h.t).refusal h.session h.epoch code = some st) :
    s.commandLater h code f =
      ((s.tick h.t).countRefusal code st).answer h.session h.seq st ((s.tick h.t).refusalData code st) false := by
  unfold State.commandLater
  simp only [hx, p, q, r, Option.isSome_none, Bool.false_and, Bool.false_eq_true, if_false]

/-- A queued command whose EPOCH has become stale has no effect but its reply (R413, R500). -/
theorem commandLater_stale {s : State} {h : CmdHdr} {code : Nat} {f : State → Option (Nat × List Byte) × State} {x : Session}
    (p : (s.tick h.t).update.paused = none) (hx : (s.tick h.t).session h.session = some x)
    (q : x.queue.any (fun q => q.seq == h.seq) = true) (hd : (x.queue.map fun q => q.seq).headD h.seq = h.seq)
    (r : (s.tick h.t).stale h.session h.epoch = true) :
    s.commandLater h code f = ((s.tick h.t).countRefusal code stStaleEpoch).answer h.session h.seq stStaleEpoch
      ((s.tick h.t).refusalData code stStaleEpoch) false := by
  unfold State.commandLater
  simp only [hx, p, q, hd, r, Option.isSome_none, Bool.true_and, bne_self_eq_false, Bool.false_eq_true, if_false, if_true]

/-- An answer changes only what carries it. -/
theorem reply_same (s : State) (sid seq st : Nat) (data : List Byte) (f : Field) (hf : f ∉ replyFields) :
    Same f s (s.reply sid seq st data) := by
  refine (reply_keeps (kc := true) (kn := true) (F := fun g => replyFields.contains g) keeps_refl
    (within_list (l := replyFields) (by decide) fun f h => List.contains_iff_mem.2 h)).same f ?_
  simpa using hf

@[simp] theorem reply_lease (s : State) (sid seq st : Nat) (data : List Byte) : (s.reply sid seq st data).lease = s.lease :=
  reply_same s sid seq st data .lease (by decide)
@[simp] theorem reply_serve (s : State) (sid seq st : Nat) (data : List Byte) : (s.reply sid seq st data).serve = s.serve :=
  reply_same s sid seq st data .serve (by decide)
@[simp] theorem reply_kv (s : State) (sid seq st : Nat) (data : List Byte) : (s.reply sid seq st data).kv = s.kv :=
  reply_same s sid seq st data .kv (by decide)
@[simp] theorem reply_video (s : State) (sid seq st : Nat) (data : List Byte) : (s.reply sid seq st data).video = s.video :=
  reply_same s sid seq st data .video (by decide)
@[simp] theorem reply_security (s : State) (sid seq st : Nat) (data : List Byte) :
    (s.reply sid seq st data).security = s.security :=
  reply_same s sid seq st data .security (by decide)

end Sys2Proof.Machine
end

