-- ==== Sys2Proof/Laws/Frame.lean ====
section
/-! SUPPORT. What sending an event, writing a fault signature record and reaching a domain leave unchanged: every field of
State but the few that each of them names. -/

namespace Sys2Proof.Machine

/-- The fields that an event may change (R416). -/
def eventFields : List Field := [.regs, .sessions, .sent]
/-- The fields that a fault signature record may change (R456, R457). -/
def recordFields : List Field := [.regs, .parts, .sessions, .checks, .sent]

theorem same_of_keeps {l : List Field} {s t : State} (k : Keeps true true (fun g => l.contains g) s t) {f : Field} (hf : f ∉ l) :
    Same f s t :=
  k.same f (by simpa using hf)

theorem event_same (s : State) (sid kind status subject : Nat) (detail : List Byte) {f : Field} (hf : f ∉ eventFields) :
    Same f s (s.event sid kind status subject detail) :=
  same_of_keeps (event_keeps keeps_refl
    (within_list (l := eventFields) (by decide) fun f h => List.contains_iff_mem.2 h)) hf

theorem eventC_same (s : State) (kind status subject : Nat) (detail : List Byte) {f : Field} (hf : f ∉ eventFields) :
    Same f s (s.eventC kind status subject detail) :=
  same_of_keeps (eventC_keeps keeps_refl
    (within_list (l := eventFields) (by decide) fun f h => List.contains_iff_mem.2 h)) hf

theorem eventP_same (s : State) (p kind status subject : Nat) (detail : List Byte) {f : Field} (hf : f ∉ eventFields) :
    Same f s (s.eventP p kind status subject detail) :=
  same_of_keeps (eventP_keeps keeps_refl
    (within_list (l := eventFields) (by decide) fun f h => List.contains_iff_mem.2 h)) hf

theorem eventAll_same (s : State) (kind status subject : Nat) (detail : List Byte) {f : Field} (hf : f ∉ eventFields) :
    Same f s (s.eventAll kind status subject detail) :=
  same_of_keeps (eventAll_keeps keeps_refl
    (within_list (l := eventFields) (by decide) fun f h => List.contains_iff_mem.2 h)) hf

theorem partStateEvent_same (s : State) (p : Nat) {f : Field} (hf : f ∉ eventFields) :
    Same f s (s.partStateEvent p) :=
  same_of_keeps (partStateEvent_keeps keeps_refl
    (within_list (l := eventFields) (by decide) fun f h => List.contains_iff_mem.2 h)) hf

theorem commandDone_same (s : State) (sid seq status : Nat) (words : List Nat) {f : Field} (hf : f ∉ eventFields) :
    Same f s (s.commandDone sid seq status words) :=
  same_of_keeps (commandDone_keeps keeps_refl
    (within_list (l := eventFields) (by decide) fun f h => List.contains_iff_mem.2 h)) hf

theorem fsr_same (s : State) (r : Record) {f : Field} (hf : f ∉ recordFields) :
    Same f s (s.fsr r) :=
  same_of_keeps (fsr_keeps keeps_refl
    (within_list (l := recordFields) (by decide) fun f h => List.contains_iff_mem.2 h)) hf

theorem reach_same (s : State) (n source : Nat) {f : Field} (hf : f ∉ domainFields) : Same f s (s.reach n source) :=
  same_of_keeps (reach_keeps keeps_refl
    (within_list (l := domainFields) (by decide) fun f h => List.contains_iff_mem.2 h)) hf

theorem reachReg_same (s : State) (a : Nat) {f : Field} (hf : f ∉ domainFields) : Same f s (s.reachReg a) :=
  same_of_keeps (reachReg_keeps keeps_refl
    (within_list (l := domainFields) (by decide) fun f h => List.contains_iff_mem.2 h)) hf

/-- A request for a domain that is on, as its parents are, changes nothing (R529). -/
theorem reach_on {s : State} {n source : Nat} (h : s.power.lpActive = false)
    (c : ∀ k ∈ domChain n, (s.dom k).state = .on) : s.reach n source = s := by
  have key : ∀ (l : List Nat) (us : Nat), (∀ k ∈ l, (s.dom k).state = .on) →
      (foldS (fun (x : Nat × State) k => x.2.wakeOne k x.1 source) (us, s) l).2 = s := by
    intro l
    induction l with
    | nil => exact fun _ _ => rfl
    | cons k l ih =>
      intro us hl
      have e : s.wakeOne k us source = (us, s) := by
        unfold State.wakeOne
        rw [hl k List.mem_cons_self]
      show (foldS _ (s.wakeOne k us source) l).2 = s
      rw [e]
      exact ih us fun j hj => hl j (List.mem_cons_of_mem _ hj)
  unfold State.reach
  rw [h]
  dsimp only
  split
  · rfl
  · exact key _ _ c

end Sys2Proof.Machine
end

