-- ==== Sys2Proof/Laws/Hitch.lean ====
section
/-! SUPPORT. What running a hitch does: one that starts takes its own effect and is finished with its status; finishing
changes the phase of its queue entry only. Beside them the lanes of a vector register after a write. -/

namespace Sys2Proof.Machine

/-- A hitch that starts takes its effect and is finished. -/
theorem runHitch_starts {s t : State} {st op : Nat} {sub : HitchWord → Bool} {u : Upset} {r : Run}
    {rd : Run → State → List (Nat × Nat)} (h : s.starts st op sub u r t) (f : Run → State → Nat × Nat × State)
    (hr : ∀ x, rd r x = hitchReads op r x := by exact fun _ => rfl) :
    s.runHitch st op sub u rd f = (f r t).2.2.finish r (f r t).1 (f r t).2.1 := by
  obtain ⟨s1, h1, h2⟩ := h
  unfold State.runHitch
  rw [h1]
  dsimp only
  rw [hr, h2]
  rfl

theorem strand_setStrand_self (s : State) (i : Nat) (x : Strand) : (s.setStrand i x).strand i = x :=
  mgetD_mput_self _ _ _ _

theorem strand_setStrand_other (s : State) (i j : Nat) (x : Strand) (h : j ≠ i) : (s.setStrand i x).strand j = s.strand j :=
  mgetD_mput_other _ _ _ _ _ h

theorem strand_modStrand_self (s : State) (i : Nat) (f : Strand → Strand) : (s.modStrand i f).strand i = f (s.strand i) :=
  strand_setStrand_self _ _ _

theorem strand_modStrand_other (s : State) (i j : Nat) (f : Strand → Strand) (h : j ≠ i) :
    (s.modStrand i f).strand j = s.strand j :=
  strand_setStrand_other _ _ _ _ h

theorem modStrand_same (s : State) (i : Nat) (f : Strand → Strand) {g : Field} (hg : g ∉ [Field.strands]) :
    Same g s (s.modStrand i f) := by
  cases g <;> first | rfl | exact absurd (by decide) hg

theorem markHead_same (s : State) (st : Nat) {g : Field} (hg : g ∉ [Field.strands]) : Same g s (s.markHead st) := by
  unfold State.markHead
  split
  · cases g <;> rfl
  · split
    · exact modStrand_same _ _ _ hg
    · cases g <;> rfl

theorem finish_pending (s : State) (r : Run) (st d : Nat) : (s.finish r st d).pending = s.pending := by
  unfold State.finish State.setPhase State.markHead
  split
  · rfl
  · split <;> rfl

theorem finish_same (s : State) (r : Run) (st d : Nat) {g : Field} (hg : g ∉ [Field.strands]) : Same g s (s.finish r st d) :=
  same_trans (modStrand_same _ _ _ hg) (markHead_same _ _ hg)

/-- What marking the head of a queue does to its strand: `since` of one entry at most. -/
theorem markHead_self (s : State) (st : Nat) : ∃ f : QEntry → QEntry, (∀ e, (f e).id = e.id ∧ (f e).phase = e.phase ∧ (f e).word = e.word) ∧
    (s.markHead st).strand st = { s.strand st with queue := (s.strand st).queue.map f } := by
  unfold State.markHead
  split
  · exact ⟨id, fun _ => ⟨rfl, rfl, rfl⟩, by rw [List.map_id]⟩
  · split
    · refine ⟨_, fun e => ?_, strand_modStrand_self _ _ _⟩
      split <;> exact ⟨rfl, rfl, rfl⟩
    · exact ⟨id, fun _ => ⟨rfl, rfl, rfl⟩, by rw [List.map_id]⟩

theorem markHead_other (s : State) (st j : Nat) (h : j ≠ st) : (s.markHead st).strand j = s.strand j := by
  unfold State.markHead
  split
  · rfl
  · split
    · exact strand_modStrand_other _ _ _ _ h
    · rfl

/-- A strand after a hitch has finished: its queue apart, it is as before. -/
theorem finish_self (s : State) (r : Run) (st d : Nat) : ∃ f : QEntry → QEntry,
    (∀ e, (f e).id = e.id ∧ (f e).word = e.word ∧ (f e).phase = if e.id = r.e.id then .done st else e.phase) ∧
    (s.finish r st d).strand r.st = { s.strand r.st with queue := (s.strand r.st).queue.map f } := by
  unfold State.finish State.setPhase
  obtain ⟨f, hf, e⟩ := markHead_self (s.modStrand r.st fun x => { x with queue := x.queue.map fun y =>
    if y.id = r.e.id then { y with phase := .done st, digest := d } else y }) r.st
  rw [strand_modStrand_self] at e
  refine ⟨f ∘ fun y => if y.id = r.e.id then { y with phase := .done st, digest := d } else y, fun y => ?_, ?_⟩
  · obtain ⟨h1, h2, h3⟩ := hf (if y.id = r.e.id then { y with phase := .done st, digest := d } else y)
    by_cases hy : y.id = r.e.id
    · rw [if_pos hy] at h1 h2 h3
      refine ⟨?_, ?_, ?_⟩ <;> simp only [Function.comp, if_pos hy, h1, h2, h3]
    · rw [if_neg hy] at h1 h2 h3
      refine ⟨?_, ?_, ?_⟩ <;> simp only [Function.comp, if_neg hy, h1, h2, h3]
  · rw [e, List.map_map]

theorem finish_other (s : State) (r : Run) (st d j : Nat) (h : j ≠ r.st) : (s.finish r st d).strand j = s.strand j := by
  unfold State.finish State.setPhase
  rw [markHead_other _ _ _ h, strand_modStrand_other _ _ _ _ h]

/-- A hitch that is in its strand's queue has executed once it is finished. -/
theorem finish_doneWith (s : State) (r : Run) (st d : Nat) (h : ∃ e ∈ (s.strand r.st).queue, e.id = r.e.id) :
    (s.finish r st d).doneWith r = some st := by
  obtain ⟨f, hf, e⟩ := finish_self s r st d
  unfold State.doneWith
  rw [e]
  dsimp only
  have key : ∀ l : List QEntry, (∃ e ∈ l, e.id = r.e.id) →
      ((l.map f).find? fun e => e.id == r.e.id).map QEntry.phase = some (.done st) := by
    intro l
    induction l with
    | nil => rintro ⟨_, h, _⟩; exact nomatch h
    | cons a l ih =>
      rintro ⟨x, hx, hi⟩
      rw [List.map_cons, List.find?_cons]
      by_cases ha : a.id = r.e.id
      · have : ((f a).id == r.e.id) = true := by rw [(hf a).1]; exact beq_iff_eq.2 ha
        rw [this]
        show some (f a).phase = _
        rw [(hf a).2.2, if_pos ha]
      · have : ((f a).id == r.e.id) = false := by rw [(hf a).1]; exact beq_eq_false_iff_ne.2 ha
        rw [this]
        apply ih
        rcases List.mem_cons.1 hx with rfl | hx
        · exact absurd hi ha
        · exact ⟨x, hx, hi⟩
  rw [key _ h]

theorem takeWait_queue (s : State) (p st : Nat) (w : HitchWord) (j : Nat) :
    ((s.takeWait p st w).strand j).queue = (s.strand j).queue := by
  unfold State.takeWait
  split
  · unfold State.setKnot
    split
    · rfl
    · by_cases h : j = st
      · subst h; rw [strand_modStrand_self]
      · rw [strand_modStrand_other _ _ _ _ h]
  · rfl

theorem scratchUpset_queue (s : State) (st : Nat) (u : Upset) (rs : List (Nat × Nat)) (j : Nat) :
    (((s.scratchUpset st u rs).2).strand j).queue = (s.strand j).queue := by
  have e : (((s.bump (Reg.strScratchEccCorrCount st) u.scratchCorr.length).modStrand st fun x =>
      { x with writebacks := x.writebacks ++ u.scratchCorr }).strand j).queue = (s.strand j).queue := by
    by_cases h : j = st
    · subst h; rw [strand_modStrand_self]; rfl
    · rw [strand_modStrand_other _ _ _ _ h]; rfl
  unfold State.scratchUpset
  dsimp only
  split
  · exact e
  · rw [← e]
    generalize (s.bump _ _).modStrand st _ = y
    unfold State.badScratch
    dsimp only
    by_cases h : j = st
    · subst h
      rw [strand_modStrand_self]
      dsimp only
      split <;> rfl
    · rw [strand_modStrand_other _ _ _ _ h]
      split <;> rfl

/-- A hitch that starts is of the strand and opcode asked for, and, where its engine's domain need not be reached, in its
strand's queue. -/
theorem starts_run {s t : State} {st op : Nat} {sub : HitchWord → Bool} {u : Upset} {r : Run} (h : s.starts st op sub u r t) :
    r.st = st ∧ hOpcode r.e.word = op ∧ sub r.e.word = true ∧ (op ≠ 0x28 → op ≠ 0x29 → op ≠ 0x22 → op ≠ 0x1A →
      ∃ e ∈ (t.strand r.st).queue, e.id = r.e.id) := by
  obtain ⟨s1, h1, h2⟩ := h
  unfold State.issue at h1
  split at h1
  · rename_i e p he hp
    dsimp only at h1
    split at h1
    · rename_i c
      simp only [Bool.and_eq_true, beq_iff_eq] at c
      cases h1
      refine ⟨rfl, c.1.1.1.1.1.2, c.1.1.1.1.2, fun a b c d => ⟨e, ?_, rfl⟩⟩
      have e2 : t = (((s.takeWait p st e.word).reachEngine st op).scratchUpset st u (hitchReads op
          { st := st, g := hankOf st, p := p, e := e } ((s.takeWait p st e.word).reachEngine st op))).2 := by rw [h2]
      rw [e2]
      dsimp only
      rw [scratchUpset_queue]
      have e3 : (s.takeWait p st e.word).reachEngine st op = s.takeWait p st e.word := by
        unfold State.reachEngine
        simp [a, b, c, d]
      rw [e3, takeWait_queue]
      exact List.mem_of_find?_eq_some he
    · exact nomatch h1
  · exact nomatch h1

theorem nget_nput_self (m : Map Nat) (k v : Nat) : nget (nput m k v) k = v := by
  unfold nget nput mgetD
  split
  · rename_i h
    rw [mget_mdel_self, h]
    rfl
  · rw [mget_mput_self]
    rfl

theorem nget_nput_other (m : Map Nat) (k j v : Nat) (h : j ≠ k) : nget (nput m k v) j = nget m j := by
  unfold nget nput mgetD
  split
  · rw [mget_mdel_other _ _ _ h]
  · rw [mget_mput_other _ _ _ _ h]

/-- Writing a list of values at the keys from k. -/
theorem mget_fold (b : Nat) (vs : List Nat) (k n : Nat) (m : Map Nat) (j : Nat) (hn : n = vs.length) :
    mget (foldS (fun m iv => mput m (b + iv.1) (iv.2 % 2 ^ 32)) m ((List.range' k n).zip vs)) j =
      if b + k ≤ j ∧ j < b + k + n then some (vs.getD (j - b - k) 0 % 2 ^ 32) else mget m j := by
  induction vs generalizing k n m with
  | nil =>
    subst hn
    rw [if_neg (by simp only [List.length_nil]; omega)]
    rfl
  | cons v vs ih =>
    subst hn
    rw [List.length_cons, List.range'_succ, List.zip_cons_cons]
    show mget (foldS _ (mput m (b + k) (v % 2 ^ 32)) _) j = _
    rw [ih (k + 1) vs.length _ rfl]
    by_cases h : j = b + k
    · subst h
      rw [if_neg (by omega), mget_mput_self, if_pos (by omega), show b + k - b - k = 0 by omega]
      rfl
    · rw [mget_mput_other _ _ _ _ h]
      by_cases h2 : b + (k + 1) ≤ j ∧ j < b + (k + 1) + vs.length
      · rw [if_pos h2, if_pos (by omega), show j - b - k = (j - b - (k + 1)) + 1 by omega]
        rfl
      · rw [if_neg h2, if_neg (by omega)]

/-- The lanes of a vector register after a write of all 256 of one (R85). -/
theorem lane_setLanes (s : State) (st r : Nat) (vs : List Nat) (h : vs.length = 256) (q i : Nat) (hi : i < 256) :
    (s.setLanes st r vs).lane st q i = if q = r then vs.getD i 0 % 2 ^ 32 else s.lane st q i := by
  unfold State.lane State.setLanes
  rw [strand_modStrand_self]
  dsimp only
  unfold upTo
  rw [List.range_eq_range', mget_fold (256 * r) vs 0 256 _ _ h.symm]
  by_cases e : q = r
  · subst e
    rw [if_pos (by omega), if_pos rfl, show 256 * q + i - 256 * q - 0 = i by omega]
  · rw [if_neg (by omega), if_neg e]

theorem reg_setReg_self (s : State) (a v : Nat) : (s.setReg a v).reg a = v := by
  unfold State.reg State.setReg mgetD
  dsimp only
  split
  · rename_i h
    rw [mget_mdel_self, h]
    rfl
  · rw [mget_mput_self]
    rfl

theorem reg_setReg_other (s : State) (a b v : Nat) (h : b ≠ a) : (s.setReg a v).reg b = s.reg b := by
  unfold State.reg State.setReg mgetD
  dsimp only
  split
  · rw [mget_mdel_other _ _ _ h]
  · rw [mget_mput_other _ _ _ _ h]

theorem setReg_same (s : State) (a v : Nat) {g : Field} (hg : g ∉ [Field.regs]) : Same g s (s.setReg a v) := by
  cases g <;> first | rfl | exact absurd (by decide) hg

theorem finish_lane (s : State) (r : Run) (st d j q i : Nat) : (s.finish r st d).lane j q i = s.lane j q i := by
  unfold State.lane
  by_cases h : j = r.st
  · subst h
    obtain ⟨f, _, e⟩ := finish_self s r st d
    rw [e]
  · rw [finish_other _ _ _ _ _ h]

/-- A VEC that starts without a residue mismatch writes its results to DST and sets their flags; nothing else changes but its
queue entry (R86, R122). -/
theorem runVec_next {s t : State} {st vop : Nat} {u : Upset} {r : Run} {f : List Nat → List Nat → List Nat → List (Nat × Nat)}
    (h : s.starts st 0x08 (isVop vop) u r t) (hu : u.residue = false)
    (hl : (f (t.sources r).1 (t.sources r).2.1 (t.sources r).2.2).length = 256) :
    ∃ v, s.runVec st u vop f = v ∧ v.doneWith r = some stOk ∧
      (∀ q i, i < 256 → v.lane st q i = if q = fld r.w 0x10 12 8 then
        ((f (t.sources r).1 (t.sources r).2.1 (t.sources r).2.2).getD i (0, 0)).1 % 2 ^ 32 else t.lane st q i) ∧
      (∀ j, j ≠ st → v.strand j = t.strand j) ∧
      v.reg (Reg.strArithFlags st) = orBits (t.reg (Reg.strArithFlags st))
        (flagsOf (f (t.sources r).1 (t.sources r).2.1 (t.sources r).2.2) &&& 0xF1F) ∧
      (∀ a, a ≠ Reg.strArithFlags st → v.reg a = t.reg a) ∧ SameBut [.strands, .regs] t v := by
  refine ⟨_, rfl, ?_⟩
  obtain ⟨e1, _, _, hq⟩ := starts_run h
  have hq := hq (by decide) (by decide) (by decide) (by decide)
  unfold State.runVec
  rw [runHitch_starts h]
  dsimp only
  generalize hx : f (t.sources r).1 (t.sources r).2.1 (t.sources r).2.2 = rs at *
  have e2 : t.vecResult r u rs = (stOk, crc64 ((valuesOf rs).flatMap (toLe 4)),
      (t.arith r.st (flagsOf rs)).setLanes r.st (fld r.w 0x10 12 8) (valuesOf rs)) := by
    unfold State.vecResult State.residueUpset
    rw [hu]
    rfl
  rw [e2]
  dsimp only
  subst e1
  refine ⟨finish_doneWith _ _ _ _ ?_, fun q i hi => ?_, fun j hj => ?_, ?_, fun a ha => ?_, finish_pending _ _ _ _, fun g hg => ?_⟩
  · obtain ⟨e, he, hi⟩ := hq
    refine ⟨e, ?_, hi⟩
    unfold State.setLanes
    rw [strand_modStrand_self]
    exact he
  · rw [finish_lane, lane_setLanes _ _ _ _ (by unfold valuesOf; rw [List.length_map]; exact hl) _ _ hi]
    split
    · unfold valuesOf
      rw [List.getD_eq_getElem?_getD, List.getElem?_map, List.getD_eq_getElem?_getD]
      cases rs[i]? <;> rfl
    · rfl
  · rw [finish_other _ _ _ _ _ hj]
    exact strand_modStrand_other _ _ _ _ hj
  · have k : ((((t.arith r.st (flagsOf rs)).setLanes r.st (fld r.w 0x10 12 8) (valuesOf rs))).finish r stOk
      (crc64 ((valuesOf rs).flatMap (toLe 4)))).regs = (t.arith r.st (flagsOf rs)).regs := finish_same _ _ _ _ (g := .regs) (by decide)
    unfold State.reg
    rw [k]
    exact reg_setReg_self _ _ _
  · have k : ((((t.arith r.st (flagsOf rs)).setLanes r.st (fld r.w 0x10 12 8) (valuesOf rs))).finish r stOk
      (crc64 ((valuesOf rs).flatMap (toLe 4)))).regs = (t.arith r.st (flagsOf rs)).regs := finish_same _ _ _ _ (g := .regs) (by decide)
    unfold State.reg
    rw [k]
    exact reg_setReg_other _ _ _ _ ha
  · simp only [List.mem_cons, List.not_mem_nil, or_false, not_or] at hg
    refine same_trans (same_trans (setReg_same _ _ _ ?_) (modStrand_same _ _ _ ?_)) (finish_same _ _ _ _ ?_)
    · simpa using hg.2
    · simpa using hg.1
    · simpa using hg.1

@[simp] theorem place_scratch (r : Run) (a : Nat) : r.place 0 a = scratchBase r.st + a := rfl

@[simp] theorem putAll_one (s : State) (w : Nat × List Byte) : s.putAll [w] = s.put w.1 w.2 := rfl

theorem rounding_rne {s : State} {r : Run} (h : hRound r.w = 0) (a n : Nat) :
    s.rounding r a n = (upTo n).map fun _ => Rnd.rne := by
  unfold State.rounding
  rw [h]
  rfl

theorem usedRandom_rne {s : State} {r : Run} (h : hRound r.w = 0) (n : Nat) : s.usedRandom r n = s := by
  unfold State.usedRandom
  rw [h]
  rfl

theorem zip_maps {α β γ : Type} (l : List α) (f : α → β) (g : α → γ) :
    (l.map f).zip (l.map g) = l.map fun i => (f i, g i) := by
  induction l with
  | nil => rfl
  | cons a l ih => simp [ih]

end Sys2Proof.Machine
end

