-- ==== Sys2Proof/Laws/Readable.lean ====
section
/-! SUPPORT. Module memory that reads well (R157): where every line of a partition is good and no error strikes, every read
and write of its memory succeeds, a read gives the bytes stored, and neither makes a line bad. -/

namespace Sys2Proof.Machine

theorem leftOver_zero (n : Nat) : (leftOver n [] []).all (fun x => x == 0) = true := by
  unfold leftOver
  rw [List.all_eq_true]
  intro x hx
  obtain ⟨i, _, rfl⟩ := List.mem_map.1 hx
  rfl

theorem rsDecode_nil : rsDecode 76 5 [] = some [] := by decide

theorem readResult_noErr (k : LineKeys) (b : Bool) : readResult k b noErr = (.good, 0, leftOver 76 [] []) := by
  unfold readResult noErr
  dsimp only
  rw [rsDecode_nil]
  dsimp only
  rw [leftOver_zero]
  rfl

theorem takeForged_zero {s : State} {a : Nat} {l : List Nat} (h : l.all (fun x => x == 0) = true) : s.takeForged a l = s := by
  unfold State.takeForged
  rw [if_pos h]

/-- A good line reads well. -/
theorem readLine_good {s : State} {mpa : Nat} (h : s.lineGood mpa) :
    ∃ u, s.readLine mpa noErr false = (stOk, s.tagAccess u mpa false) := by
  obtain ⟨u, x, hl, hw, hb⟩ := h
  refine ⟨u, ?_⟩
  unfold State.readLine State.outcome
  rw [hl]
  dsimp only
  rw [hw, hb]
  dsimp only [Option.getD_none]
  rw [readResult_noErr]
  dsimp only [Bool.false_eq_true, if_false]
  rw [takeForged_zero (leftOver_zero 76)]
  rfl

/-- s is t as far as the readability of module memory goes: the owners, the domains and the key-value pages are the same, and no
line has become bad. -/
structure Calm (t s : State) : Prop where
  owners : s.owners = t.owners
  power : s.power = t.power
  bad : ∀ u l, mget (t.unit u).bad l = none → mget (s.unit u).bad l = none

theorem calm_refl (s : State) : Calm s s := ⟨rfl, rfl, fun _ _ h => h⟩

theorem Calm.trans {a b c : State} (h : Calm a b) (g : Calm b c) : Calm a c :=
  ⟨g.owners.trans h.owners, g.power.trans h.power, fun u l x => g.bad u l (h.bad u l x)⟩

theorem calm_same {t s : State} (h1 : s.owners = t.owners) (h2 : s.power = t.power) (h3 : s.units = t.units) : Calm t s :=
  ⟨h1, h2, fun u l h => by unfold State.unit at *; rw [h3]; exact h⟩

theorem mget_mdel_none {α : Type} {m : Map α} {k : Nat} (j : Nat) (h : mget m k = none) : mget (mdel m j) k = none := by
  by_cases e : k = j
  · subst e; exact mget_mdel_self _ _
  · rw [mget_mdel_other _ _ _ e]; exact h

theorem mget_filter_none {α : Type} {m : Map α} {k : Nat} (f : Nat × α → Bool) (h : mget m k = none) :
    mget (m.filter f) k = none := by
  induction m with
  | nil => rfl
  | cons e r ih =>
    obtain ⟨j, a⟩ := e
    unfold mget at h
    split at h
    · exact nomatch h
    · rename_i hj
      rw [List.filter_cons]
      split
      · unfold mget; rw [if_neg hj]; exact ih h
      · exact ih h

theorem unit_modUnit (s : State) (u v : Nat) (f : MemUnit → MemUnit) :
    (s.modUnit u f).unit v = if v = u then f (s.unit u) else s.unit v := by
  unfold State.modUnit State.unit
  dsimp only
  split
  · rename_i h; subst h; exact mgetD_mput_self _ _ _ _
  · rename_i h; exact mgetD_mput_other _ _ _ _ _ h

theorem calm_modUnit (s : State) (u : Nat) {f : MemUnit → MemUnit}
    (h : ∀ x l, mget x.bad l = none → mget (f x).bad l = none) : Calm s (s.modUnit u f) :=
  ⟨rfl, rfl, fun v l e => by
    rw [unit_modUnit]
    split
    · rename_i hv; subst hv; exact h _ _ e
    · exact e⟩

theorem calm_tagStored (s : State) (u l : Nat) (c : Bool) : Calm s (if c = true then s.tagStored u l else s) := by
  split
  · exact calm_modUnit _ _ fun x l h => mget_mdel_none _ h
  · exact calm_refl s

theorem calm_tagAccess (s : State) (u mpa : Nat) (w : Bool) : Calm s (s.tagAccess u mpa w) := by
  unfold State.tagAccess
  dsimp only
  split
  · exact (calm_tagStored _ _ _ _).trans (calm_same rfl rfl rfl)
  · exact (calm_tagStored _ _ _ _).trans (calm_same rfl rfl rfl)

theorem mpaOf_owners {s t : State} (h : s.owners = t.owners) (p a : Nat) : s.mpaOf p a = t.mpaOf p a := by
  unfold State.mpaOf State.granules State.ownByte
  rw [h]

theorem Calm.mpaOf {s t : State} (h : Calm t s) (p a : Nat) : s.mpaOf p a = t.mpaOf p a := mpaOf_owners h.owners p a

theorem Calm.pmaOk {s t : State} (h : Calm t s) (p a n : Nat) : s.pmaOk p a n = t.pmaOk p a n := by
  unfold State.pmaOk
  rw [h.mpaOf, h.mpaOf]

theorem Calm.lineGood {s t : State} (h : Calm t s) {m : Nat} (g : t.lineGood m) : s.lineGood m := by
  obtain ⟨u, x, a, b, c⟩ := g
  refine ⟨u, x, a, ?_, h.bad _ _ c⟩
  unfold State.ownByte at *
  rw [h.owners]
  exact b

theorem Calm.awake {s t : State} (h : Calm t s) (g : t.awake) : s.awake := by
  unfold State.awake State.dom at *
  rw [h.power]
  exact g

theorem Calm.memGood {s t : State} (h : Calm t s) {p : Nat} (g : t.memGood p) : s.memGood p := by
  refine ⟨h.awake g.1, fun u k hk => ?_, fun a m hm => h.lineGood (g.2.2 a m (by rw [← h.mpaOf]; exact hm))⟩
  have := g.2.1 u k (by unfold State.granules at *; rw [← h.owners]; exact hk)
  unfold State.ownByte at *
  rw [h.owners]
  exact this

theorem Calm.peekP {s t : State} (h : Calm t s) (m : s.mem = t.mem) (p a n : Nat) : s.peekP p a n = t.peekP p a n := by
  unfold State.peekP State.granules
  rw [h.owners, m]

/-- Every domain of a chain is among the 64. -/
theorem domChain_lt {n : Nat} (h : n < 64) : ∀ k ∈ domChain n, k < 64 := by
  have : ∀ n : Fin 64, ∀ k ∈ domChain n.val, k < 64 := by decide
  exact this ⟨n, h⟩

/-- Where every domain is on, a request reaches one without a change. -/
theorem reach_awake {s : State} (h : s.awake) {n : Nat} (hn : n < 64) (source : Nat) : s.reach n source = s :=
  reach_on h.1 fun k hk => h.2 k (domChain_lt hn k hk)

theorem unitOf_lt {a u x : Nat} (h : unitOf a = some (u, x)) : u < 20 := by
  unfold unitOf at h
  split at h
  · cases h; omega
  · split at h
    · cases h; omega
    · exact nomatch h

theorem reachUnit_awake {s : State} (h : s.awake) {src : Option Nat} (hs : ∀ d, src = some d → d < 4) (a : Nat) :
    s.reachUnit src a = s := by
  unfold State.reachUnit
  split
  · rename_i u x e
    have hu := unitOf_lt e
    have hp : foldS (fun s n => s.reach n 0xC1) s (pathDoms src u) = s := by
      unfold pathDoms
      cases src with
      | none => rfl
      | some d =>
        have hd := hs d rfl
        dsimp only
        split
        · show s.reach _ _ = s
          exact reach_awake h (by omega) _
        · show (s.reach _ _).reach _ _ = s
          rw [reach_awake h (by omega), reach_awake h (by omega)]
    rw [hp]
    refine reach_awake h ?_ _
    unfold unitDom
    split <;> omega
  · rfl

/-- What settling good lines may change: counters, the units' lines and the tag caches. -/
def lineFields : List Field := [.regs, .units, .ctls]

theorem tagAccess_same (s : State) (u mpa : Nat) (w : Bool) {f : Field} (hf : f ∉ lineFields) : Same f s (s.tagAccess u mpa w) :=
  same_of_keeps (tagAccess_keeps keeps_refl
    (within_list (l := lineFields) (by decide) fun f h => List.contains_iff_mem.2 h)) hf

theorem same_self (s : State) (f : Field) : Same f s s := by cases f <;> rfl

/-- Good lines read well, and stay good. -/
theorem readLines_good {s : State} (l : List Nat) (h : ∀ m ∈ l, s.lineGood m) :
    ∃ v, s.readLines l [] = (stOk, v) ∧ Calm s v ∧ ∀ f, f ∉ lineFields → Same f s v := by
  induction l generalizing s with
  | nil => exact ⟨s, rfl, calm_refl s, fun f _ => same_self s f⟩
  | cons a r ih =>
    obtain ⟨u, e⟩ := readLine_good (h a List.mem_cons_self)
    have c := calm_tagAccess s u a false
    obtain ⟨v, e2, c2, m2⟩ := ih (s := s.tagAccess u a false) fun m hm => c.lineGood (h m (List.mem_cons_of_mem _ hm))
    refine ⟨v, ?_, c.trans c2, fun f hf => same_trans (tagAccess_same _ _ _ _ hf) (m2 f hf)⟩
    unfold State.readLines
    rw [show errFor [] a = noErr from rfl, e]
    exact e2

theorem checkLines_good {s : State} (l : List Nat) (h : ∀ m ∈ l, s.lineGood m) :
    ∃ v, s.checkLines l [] = (stOk, v) ∧ Calm s v ∧ ∀ f, f ∉ lineFields → Same f s v := by
  induction l generalizing s with
  | nil => exact ⟨s, rfl, calm_refl s, fun f _ => same_self s f⟩
  | cons a r ih =>
    obtain ⟨u, e⟩ := readLine_good (h a List.mem_cons_self)
    have c := calm_tagAccess s u a false
    obtain ⟨v, e2, c2, m2⟩ := ih (s := s.tagAccess u a false) fun m hm => c.lineGood (h m (List.mem_cons_of_mem _ hm))
    refine ⟨v, ?_, c.trans c2, fun f hf => same_trans (tagAccess_same _ _ _ _ hf) (m2 f hf)⟩
    unfold State.checkLines
    rw [show errFor [] a = noErr from rfl, e]
    dsimp only
    rw [e2]
    rfl

/-- A read of good partition memory gives the bytes stored and changes none (R149, R157). -/
theorem fetchP_good {s : State} {p : Nat} (h : s.memGood p) {src : Option Nat} (hs : ∀ d, src = some d → d < 4) {a n : Nat}
    (ha : s.pmaOk p a n = true) : ∃ v, s.fetchP src p a n [] = (stOk, if n = 0 then [] else s.peekP p a n, v) ∧ Calm s v ∧
      ∀ f, f ∉ lineFields → Same f s v := by
  unfold State.fetchP
  split
  · exact ⟨s, rfl, calm_refl s, fun f _ => same_self s f⟩
  · rw [ha, reachUnit_awake h.1 hs]
    obtain ⟨v, e, c, m⟩ := readLines_good (s := s) (s.linesOf p a n) fun x hx => by
      unfold State.linesOf at hx
      obtain ⟨i, _, hi⟩ := List.mem_filterMap.1 hx
      exact h.2.2 _ _ hi
    refine ⟨v, ?_, c, m⟩
    dsimp only [Bool.not_true, Bool.false_eq_true, if_false]
    rw [e]
    dsimp only
    rw [if_pos rfl, c.peekP (m .mem (by decide))]
    rfl

theorem calm_storedLines (s : State) (a n : Nat) :
    Calm s (s.storedLines a n) ∧ ∀ f, f ∉ lineFields → Same f s (s.storedLines a n) := by
  unfold State.storedLines
  split
  · exact ⟨calm_refl s, fun f _ => same_self s f⟩
  · rename_i u x e
    dsimp only
    generalize ((upTo ((a + n - 1) / 64 + 1 - a / 64)).map fun i => a / 64 + i) = l
    have h1 : Calm s (foldS (fun s l => s.tagAccess u (l * 64) true) s l) ∧
        ∀ f, f ∉ lineFields → Same f s (foldS (fun s l => s.tagAccess u (l * 64) true) s l) := by
      induction l generalizing s with
      | nil => exact ⟨calm_refl s, fun f _ => same_self s f⟩
      | cons y r ih =>
        have i := ih (s.tagAccess u (y * 64) true)
        exact ⟨(calm_tagAccess s u (y * 64) true).trans i.1, fun f hf => same_trans (tagAccess_same _ _ _ _ hf) (i.2 f hf)⟩
    refine ⟨h1.1.trans (calm_modUnit _ _ fun x l h => mget_filter_none _ h), fun f hf => same_trans (h1.2 f hf) ?_⟩
    cases f <;> first | rfl | exact absurd (by decide) hf

theorem calm_pokeP (s : State) (p a : Nat) (bs : List Byte) :
    Calm s (s.pokeP p a bs) ∧ ∀ f, f ∉ Field.mem :: lineFields → Same f s (s.pokeP p a bs) := by
  unfold State.pokeP
  split
  · exact ⟨calm_refl s, fun f _ => same_self s f⟩
  · refine ⟨calm_same rfl rfl rfl, fun f hf => ?_⟩
    cases f <;> first | rfl | exact absurd (by decide) hf

theorem not_mem_line {f : Field} (h : f ∉ Field.mem :: lineFields) : f ∉ lineFields := fun g => h (List.mem_cons_of_mem _ g)

/-- A write of good partition memory succeeds and makes no line bad (R149, R160). -/
theorem storeP_good {s : State} {p : Nat} (h : s.memGood p) {src : Option Nat} (hs : ∀ d, src = some d → d < 4) {a : Nat}
    {bs : List Byte} (ha : s.pmaOk p a bs.length = true) :
    ∃ v, s.storeP src p a bs [] = (stOk, v) ∧ Calm s v ∧ ∀ f, f ∉ Field.mem :: lineFields → Same f s v := by
  unfold State.storeP
  dsimp only
  split
  · exact ⟨s, rfl, calm_refl s, fun f _ => same_self s f⟩
  · rw [ha, reachUnit_awake h.1 hs]
    obtain ⟨v, e, c, m⟩ := checkLines_good (s := s) ((partLines a bs.length).filterMap fun a => s.mpaOf p a) fun x hx => by
      obtain ⟨i, _, hi⟩ := List.mem_filterMap.1 hx
      exact h.2.2 _ _ hi
    rw [if_neg (by simp), e]
    have key : ∀ (l : List Nat) (v : State), Calm v (foldS (fun s l => s.storedLines l 64) v l) ∧
        ∀ f, f ∉ lineFields → Same f v (foldS (fun s l => s.storedLines l 64) v l) := by
      intro l
      induction l with
      | nil => exact fun v => ⟨calm_refl v, fun f _ => same_self v f⟩
      | cons y r ih =>
        intro v
        have i := ih (v.storedLines y 64)
        have c := calm_storedLines v y 64
        exact ⟨c.1.trans i.1, fun f hf => same_trans (c.2 f hf) (i.2 f hf)⟩
    have k := key (v.linesOf p a bs.length) v
    have q := calm_pokeP (foldS (fun s l => s.storedLines l 64) v (v.linesOf p a bs.length)) p a bs
    exact ⟨_, rfl, c.trans (k.1.trans q.1), fun f hf =>
      same_trans (m f (not_mem_line hf)) (same_trans (k.2 f (not_mem_line hf)) (q.2 f hf))⟩

theorem unitOf_div {a u x : Nat} (h : unitOf a = some (u, x)) : x = a % 2 ^ 36 ∧
    ∀ b, b / 2 ^ 36 = a / 2 ^ 36 → unitOf b = some (u, b % 2 ^ 36) := by
  unfold unitOf at *
  split at h
  · cases h
    refine ⟨rfl, fun b hb => ?_⟩
    rw [if_pos (by omega), hb]
  · split at h
    · cases h
      refine ⟨by omega, fun b hb => ?_⟩
      have e1 : (b - 2 ^ 39) / 2 ^ 36 = (a - 2 ^ 39) / 2 ^ 36 := by omega
      have e2 : (b - 2 ^ 39) % 2 ^ 36 = b % 2 ^ 36 := by omega
      rw [if_neg (by omega), if_pos (by omega), e1, e2]
    · exact nomatch h

/-- A part of a range of good memory lies in the partition. -/
theorem pmaOk_part {s : State} {p : Nat} (h : s.memGood p) {a n b m : Nat} (ok : s.pmaOk p a n = true) (h1 : a ≤ b)
    (h2 : b + m ≤ a + n) : s.pmaOk p b m = true := by
  by_cases hm : m = 0
  · subst hm; rfl
  · unfold State.pmaOk at ok
    have hn : (n == 0) = false := by simp only [beq_eq_false_iff_ne]; omega
    rw [hn, Bool.false_or] at ok
    simp only [Bool.and_eq_true, beq_iff_eq] at ok
    obtain ⟨⟨o1, o2⟩, o3⟩ := ok
    obtain ⟨y, hy⟩ := Option.isSome_iff_exists.1 o1
    obtain ⟨z, hz⟩ := Option.isSome_iff_exists.1 o2
    have some_ : ∀ c, b ≤ c → c < b + m → (s.mpaOf p c).isSome = true := by
      intro c hc1 hc2
      unfold State.mpaOf at hz
      split at hz
      · exact nomatch hz
      · rename_i u x e
        have d := unitOf_div e
        have ec := d.2 c (by omega)
        unfold State.mpaOf
        rw [ec]
        dsimp only
        split at hz
        · exact nomatch hz
        · rename_i k hk
          have hl := List.getElem?_eq_some_iff.1 hk
          obtain ⟨hl, _⟩ := hl
          have lt : c % 2 ^ 36 / granule < (s.granules p u).length := by
            refine Nat.lt_of_le_of_lt (Nat.div_le_div_right ?_) hl
            rw [d.1]
            omega
          rw [List.getElem?_eq_getElem lt]
          dsimp only
          rw [h.2.1 u _ (List.getElem_mem lt)]
          rfl
    unfold State.pmaOk
    rw [some_ b (Nat.le_refl b) (by omega), some_ (b + m - 1) (by omega) (by omega)]
    have : b / 2 ^ 36 = (b + m - 1) / 2 ^ 36 := by omega
    rw [this]
    simp

end Sys2Proof.Machine
end

