-- ==== Sys2Proof/Laws/Residues.lean ====
section
/-! SUPPORT. The check residues of the accumulator array never fail on an array that no upset has struck (R76 to R81): the
predicate `Acc.Sound`, that it holds of the empty array, that every step of a reduction keeps it, and that a sound array
passes the check of a readout. -/

namespace Sys2Proof.Machine

/-- The integers modulo the prime of the check residues. -/
abbrev Zc := ZMod checkPrime

theorem two31 : (2 : Zc) ^ 31 = 1 := by
  have h : ((2 ^ 31 : Nat) : Zc) = ((checkPrime + 1 : Nat) : Zc) := rfl
  rw [Nat.cast_add, ZMod.natCast_self, Nat.cast_pow] at h
  rw [← Nat.cast_ofNat, h, zero_add, Nat.cast_one]

/-- 2^e with the exponent taken modulo 31. -/
def pw (e : Int) : Zc := 2 ^ (e % 31).toNat

theorem two_mod (n : Nat) : (2 : Zc) ^ n = 2 ^ (n % 31) := by
  conv_lhs => rw [← Nat.div_add_mod n 31]
  rw [pow_add, pow_mul, two31, one_pow, one_mul]

theorem pw_add (a b : Int) : pw (a + b) = pw a * pw b := by
  unfold pw
  rw [← pow_add, two_mod ((a % 31).toNat + (b % 31).toNat)]
  congr 1
  omega

theorem pw_nat (n : Nat) : pw n = 2 ^ n := by
  unfold pw
  rw [two_mod n]
  congr 1

theorem cast_mod (n : Nat) : ((n % checkPrime : Nat) : Zc) = n := ZMod.natCast_mod n checkPrime

theorem rho_lt (m e : Int) : rho m e < checkPrime := Nat.mod_lt _ (by decide)

theorem rho_cast (m e : Int) : ((rho m e : Nat) : Zc) = (m : Zc) * pw e := by
  unfold rho pw
  rw [cast_mod, Nat.cast_mul, Nat.cast_pow]
  congr 1
  have h : (((m % checkPrime).toNat : Int) : Zc) = ((m % checkPrime : Int) : Zc) := by
    rw [Int.toNat_of_nonneg (Int.emod_nonneg _ (by decide))]
  have g : ((m % (checkPrime : Int) : Int) : Zc) = m := by simp
  rw [g] at h
  rw [← h]
  exact (Int.cast_natCast _).symm

theorem rhoSum_eq (l : List Nat) : rhoSum l < checkPrime ∧ ((rhoSum l : Nat) : Zc) = (l.map fun n : Nat => (n : Zc)).sum := by
  have key : ∀ (l : List Nat) (a : Nat), a < checkPrime →
      l.foldl (fun a b => (a + b) % checkPrime) a < checkPrime ∧
      ((l.foldl (fun a b => (a + b) % checkPrime) a : Nat) : Zc) = (a : Zc) + (l.map fun n : Nat => (n : Zc)).sum := by
    intro l
    induction l with
    | nil => intro a h; simp [h]
    | cons x r ih =>
      intro a _
      have h := ih ((a + x) % checkPrime) (Nat.mod_lt _ (by decide))
      refine ⟨h.1, ?_⟩
      rw [List.foldl_cons, h.2, cast_mod]
      simp only [List.map_cons, List.sum_cons, Nat.cast_add]
      ring
  have h := key l 0 (by decide)
  rw [Nat.cast_zero, zero_add] at h
  exact h

theorem nat_of_cast {a b : Nat} (ha : a < checkPrime) (hb : b < checkPrime) (h : (a : Zc) = b) : a = b := by
  have := (ZMod.natCast_eq_natCast_iff' a b checkPrime).1 h
  rwa [Nat.mod_eq_of_lt ha, Nat.mod_eq_of_lt hb] at this

/-! Sums over a map in ascending order of its keys -/

/-- The keys of a map ascend. -/
def Asc {α : Type} (m : Map α) : Prop := m.Pairwise fun x y => x.1 < y.1

theorem mget_none_of_lt {α : Type} {m : Map α} {k : Nat} (h : ∀ x ∈ m, k < x.1) : mget m k = none := by
  induction m with
  | nil => rfl
  | cons e r ih =>
    have he := h e (List.mem_cons_self ..)
    obtain ⟨j, a⟩ := e
    unfold mget
    rw [if_neg (by simp only at he; omega)]
    exact ih fun x hx => h x (List.mem_cons_of_mem _ hx)

theorem mget_mem {α : Type} {m : Map α} (ha : Asc m) {k : Nat} {v : α} : mget m k = some v ↔ (k, v) ∈ m := by
  induction m with
  | nil => simp [mget]
  | cons e r ih =>
    obtain ⟨j, a⟩ := e
    have hr := List.pairwise_cons.1 ha
    unfold mget
    split
    · rename_i h; subst h
      constructor
      · intro h; cases h; exact List.mem_cons_self ..
      · intro h
        rcases List.mem_cons.1 h with h | h
        · cases h; rfl
        · exact absurd (hr.1 _ h) (by simp)
    · rename_i h
      rw [ih hr.2]
      constructor
      · exact List.mem_cons_of_mem _
      · intro h'
        rcases List.mem_cons.1 h' with h' | h'
        · cases h'; exact absurd rfl h
        · exact h'

theorem mem_mput {α : Type} {m : Map α} {k : Nat} {v : α} {x : Nat × α} (h : x ∈ mput m k v) : x = (k, v) ∨ x ∈ m := by
  induction m with
  | nil => left; simpa [mput] using h
  | cons e r ih =>
    obtain ⟨j, a⟩ := e
    unfold mput at h
    split at h
    · rcases List.mem_cons.1 h with h | h
      · exact .inl h
      · exact .inr h
    · split at h
      · rcases List.mem_cons.1 h with h | h
        · exact .inl h
        · exact .inr (List.mem_cons_of_mem _ h)
      · rcases List.mem_cons.1 h with h | h
        · exact .inr (h ▸ List.mem_cons_self ..)
        · rcases ih h with h | h
          · exact .inl h
          · exact .inr (List.mem_cons_of_mem _ h)

theorem asc_mput {α : Type} {m : Map α} (ha : Asc m) (k : Nat) (v : α) : Asc (mput m k v) := by
  induction m with
  | nil => exact List.pairwise_singleton ..
  | cons e r ih =>
    obtain ⟨j, a⟩ := e
    have hr := List.pairwise_cons.1 ha
    unfold mput
    split
    · rename_i h
      refine List.pairwise_cons.2 ⟨fun x hx => ?_, ha⟩
      rcases List.mem_cons.1 hx with hx | hx
      · subst hx; exact h
      · exact Nat.lt_trans h (hr.1 x hx)
    · split
      · rename_i h; subst h
        exact List.pairwise_cons.2 ⟨fun x hx => hr.1 x hx, hr.2⟩
      · rename_i h1 h2
        refine List.pairwise_cons.2 ⟨fun x hx => ?_, ih hr.2⟩
        rcases mem_mput hx with hx | hx
        · subst hx; simp only; omega
        · exact hr.1 x hx

theorem mem_mdel {α : Type} {m : Map α} {k : Nat} {x : Nat × α} (h : x ∈ mdel m k) : x ∈ m := by
  induction m with
  | nil => exact h
  | cons e r ih =>
    obtain ⟨j, a⟩ := e
    unfold mdel at h
    split at h
    · exact List.mem_cons_of_mem _ (ih h)
    · rcases List.mem_cons.1 h with h | h
      · exact h ▸ List.mem_cons_self ..
      · exact List.mem_cons_of_mem _ (ih h)

theorem asc_mdel {α : Type} {m : Map α} (ha : Asc m) (k : Nat) : Asc (mdel m k) := by
  induction m with
  | nil => exact ha
  | cons e r ih =>
    obtain ⟨j, a⟩ := e
    have hr := List.pairwise_cons.1 ha
    unfold mdel
    split
    · exact ih hr.2
    · exact List.pairwise_cons.2 ⟨fun x hx => hr.1 x (mem_mdel hx), ih hr.2⟩

/-- The sum of a function over the entries of a map. -/
def sumM {α : Type} (f : Nat → α → Zc) (m : Map α) : Zc := (m.map fun e => f e.1 e.2).sum

theorem sumM_mput {α : Type} {m : Map α} (ha : Asc m) (k : Nat) (v : α) (f : Nat → α → Zc) :
    sumM f (mput m k v) = sumM f m + f k v - ((mget m k).map fun x => f k x).getD 0 := by
  induction m with
  | nil => simp [sumM, mput, mget]
  | cons e r ih =>
    obtain ⟨j, a⟩ := e
    have hr := List.pairwise_cons.1 ha
    by_cases h1 : k < j
    · rw [show mput ((j, a) :: r) k v = (k, v) :: (j, a) :: r by simp [mput, h1]]
      rw [mget_none_of_lt (m := (j, a) :: r) (k := k)]
      · simp only [sumM, List.map_cons, List.sum_cons, Option.map_none, Option.getD_none]; ring
      · intro x hx
        rcases List.mem_cons.1 hx with hx | hx
        · subst hx; exact h1
        · exact Nat.lt_trans h1 (hr.1 x hx)
    · by_cases h2 : j = k
      · subst h2
        rw [show mput ((j, a) :: r) j v = (j, v) :: r by simp [mput]]
        simp only [sumM, mget, List.map_cons, List.sum_cons, if_true, Option.map_some, Option.getD_some]; ring
      · rw [show mput ((j, a) :: r) k v = (j, a) :: mput r k v by simp [mput, h1, h2]]
        have := ih hr.2
        simp only [sumM, mget, List.map_cons, List.sum_cons, h2, if_false] at *
        rw [this]; ring

theorem sumM_mdel {α : Type} {m : Map α} (ha : Asc m) (k : Nat) (f : Nat → α → Zc) :
    sumM f (mdel m k) = sumM f m - ((mget m k).map fun x => f k x).getD 0 := by
  induction m with
  | nil => simp [sumM, mdel, mget]
  | cons e r ih =>
    obtain ⟨j, a⟩ := e
    have hr := List.pairwise_cons.1 ha
    by_cases h : j = k
    · subst h
      have hn : mget r j = none := mget_none_of_lt fun x hx => hr.1 x hx
      have := ih hr.2
      rw [show mdel ((j, a) :: r) j = mdel r j by simp [mdel], this, hn]
      simp [sumM, mget]
    · rw [show mdel ((j, a) :: r) k = (j, a) :: mdel r k by simp [mdel, h]]
      have := ih hr.2
      simp only [sumM, mget, List.map_cons, List.sum_cons, h, if_false] at *
      rw [this]; ring

theorem nget_nput (m : Map Nat) (k j v : Nat) : nget (nput m k v) j = if j = k then v else nget m j := by
  unfold nget nput mgetD
  split
  · rename_i h; subst h
    split
    · rename_i h; subst h; rw [mget_mdel_self]; rfl
    · rename_i h; rw [mget_mdel_other _ _ _ h]
  · split
    · rename_i h; subst h; rw [mget_mput_self]; rfl
    · rename_i h; rw [mget_mput_other _ _ _ _ h]

theorem asc_nput {m : Map Nat} (ha : Asc m) (k v : Nat) : Asc (nput m k v) := by
  unfold nput
  split
  · exact asc_mdel ha k
  · exact asc_mput ha k v

theorem sum_nput {m : Map Nat} (ha : Asc m) (k v : Nat) :
    sumM (fun _ (x : Nat) => (x : Zc)) (nput m k v) = sumM (fun _ (x : Nat) => (x : Zc)) m + v - (nget m k : Zc) := by
  unfold nput
  split
  · rename_i h; subst h
    rw [sumM_mdel ha]
    simp only [nget, mgetD]
    cases mget m k <;> simp
  · rw [sumM_mput ha]
    simp only [nget, mgetD]
    cases mget m k <;> simp

/-- Folding additions modulo the prime into a map of numbers. -/
theorem nget_fold {α : Type} (key : α → Nat) (val : α → Nat) (l : List α) (m : Map Nat) (j : Nat) :
    ((nget (foldS (fun m e => nput m (key e) ((nget m (key e) + val e) % checkPrime)) m l) j : Nat) : Zc) =
      (nget m j : Zc) + (l.map fun e => if key e = j then (val e : Zc) else 0).sum := by
  induction l generalizing m with
  | nil => simp [foldS]
  | cons e r ih =>
    rw [foldS, ih, nget_nput, List.map_cons, List.sum_cons]
    by_cases h : key e = j
    · subst h; rw [if_pos rfl, if_pos rfl, cast_mod, Nat.cast_add]; ring
    · rw [if_neg h, if_neg (Ne.symm h)]; ring

theorem asc_fold {α : Type} (key : α → Nat) (val : α → Nat) (l : List α) (m : Map Nat) (ha : Asc m) :
    Asc (foldS (fun m e => nput m (key e) ((nget m (key e) + val e) % checkPrime)) m l) := by
  induction l generalizing m with
  | nil => exact ha
  | cons e r ih => exact ih _ (asc_nput ha _ _)

theorem sum_fold {α : Type} (key : α → Nat) (val : α → Nat) (l : List α) (m : Map Nat) (ha : Asc m) :
    sumM (fun _ (x : Nat) => (x : Zc)) (foldS (fun m e => nput m (key e) ((nget m (key e) + val e) % checkPrime)) m l) =
      sumM (fun _ (x : Nat) => (x : Zc)) m + (l.map fun e => (val e : Zc)).sum := by
  induction l generalizing m with
  | nil => simp [foldS]
  | cons e r ih =>
    rw [foldS, ih _ (asc_nput ha _ _), sum_nput ha, cast_mod, List.map_cons, List.sum_cons, Nat.cast_add]; ring

/-! One column -/

/-- The integer of an element in units of its column. -/
def Elem.val (e : Elem) : Zc :=
  match e with
  | .fin v => (v : Zc)
  | _ => 0

/-- Whether an element is finite. -/
def Elem.isFin (e : Elem) : Bool :=
  match e with
  | .fin _ => true
  | _ => false

theorem residue_cast (c : Col) (e : Elem) : ((c.residue e : Nat) : Zc) = e.val * pw (c.anchor.getD 0) := by
  cases e <;> simp [Col.residue, Elem.val, rho_cast]

/-- A weighted sum over the elements of a column. -/
def wsum (w : Nat → Zc) (m : Map Elem) : Zc := sumM (fun i e => w i * e.val) m

/-- The weighted sum of the residues of a column. -/
def Col.wres (w : Nat → Zc) (c : Col) : Zc := wsum w c.elems * pw (c.anchor.getD 0)

/-- A column of finite elements only, anchored where it holds any. -/
structure Col.Finite (c : Col) : Prop where
  asc : Asc c.elems
  fin : ∀ x ∈ c.elems, x.2.isFin = true
  anch : c.anchor = none → c.elems = []

theorem val_nonfin {e : Elem} (h : e.isFin = false) : e.val = 0 := by cases e <;> simp_all [Elem.isFin, Elem.val]

theorem sumM_congr {α : Type} {f g : Nat → α → Zc} {m : Map α} (h : ∀ x ∈ m, f x.1 x.2 = g x.1 x.2) : sumM f m = sumM g m := by
  unfold sumM
  rw [List.map_congr_left h]

theorem sumM_mul {α : Type} (f : Nat → α → Zc) (k : Zc) (m : Map α) : sumM (fun i e => f i e * k) m = sumM f m * k := by
  induction m with
  | nil => simp [sumM]
  | cons x r ih => simp only [sumM, List.map_cons, List.sum_cons] at *; rw [ih]; ring

theorem sumM_add {α : Type} (f g : Nat → α → Zc) (m : Map α) : sumM (fun i e => f i e + g i e) m = sumM f m + sumM g m := by
  induction m with
  | nil => simp [sumM]
  | cons x r ih => simp only [sumM, List.map_cons, List.sum_cons] at *; rw [ih]; ring

/-- What mapFin does to one element. -/
def Elem.mapFin (f : Int → Int) (e : Elem) : Elem :=
  match e with
  | .fin v => .fin (f v)
  | x => x

theorem mapFin_elems (c : Col) (f : Int → Int) :
    (c.mapFin f).elems = (c.elems.map fun e => (e.1, e.2.mapFin f)).filter fun e => e.2 != .fin 0 := by
  unfold Col.mapFin
  dsimp only
  congr 1

theorem wsum_mapFin (w : Nat → Zc) (c : Col) (f : Int → Int) :
    wsum w (c.mapFin f).elems = sumM (fun i e => w i * (e.mapFin f).val) c.elems := by
  rw [mapFin_elems]
  unfold wsum
  generalize c.elems = m
  induction m with
  | nil => rfl
  | cons x r ih =>
    rw [List.map_cons, List.filter_cons]
    split
    · simp only [sumM, List.map_cons, List.sum_cons] at *
      rw [ih]
    · rename_i h
      have : x.2.mapFin f = .fin 0 := by simpa using h
      rw [ih]
      simp [sumM, this, Elem.val]

theorem asc_mapFin {c : Col} (h : Asc c.elems) (f : Int → Int) : Asc (c.mapFin f).elems := by
  rw [mapFin_elems]
  refine List.Pairwise.filter _ ?_
  rw [List.pairwise_map]
  exact h

theorem fin_mapFin {c : Col} (h : ∀ x ∈ c.elems, x.2.isFin = true) (f : Int → Int) : ∀ x ∈ (c.mapFin f).elems, x.2.isFin = true := by
  rw [mapFin_elems]
  intro x hx
  obtain ⟨y, hy, rfl⟩ := List.mem_map.1 (List.mem_filter.1 hx).1
  have := h y hy
  revert this
  cases y.2 <;> simp [Elem.isFin, Elem.mapFin]

theorem mapFin_nil {c : Col} (h : c.elems = []) (f : Int → Int) : (c.mapFin f).elems = [] := by
  rw [mapFin_elems, h]; rfl

theorem wsum_setElem (w : Nat → Zc) {c : Col} (h : Asc c.elems) (i : Nat) (x : Elem) :
    wsum w (c.setElem i x).elems = wsum w c.elems + w i * x.val - w i * (c.elem i).val := by
  unfold wsum Col.setElem Col.elem mgetD
  split
  · rename_i e; subst e
    simp only
    rw [sumM_mdel h]
    cases mget c.elems i <;> simp [Elem.val]
  · simp only
    rw [sumM_mput h]
    cases mget c.elems i <;> simp [Elem.val]

theorem asc_setElem {c : Col} (h : Asc c.elems) (i : Nat) (x : Elem) : Asc (c.setElem i x).elems := by
  unfold Col.setElem
  simp only
  split
  · exact asc_mdel h i
  · exact asc_mput h i x

theorem mem_setElem {c : Col} {i : Nat} {x : Elem} {y : Nat × Elem} (h : y ∈ (c.setElem i x).elems) : y = (i, x) ∨ y ∈ c.elems := by
  unfold Col.setElem at h
  simp only at h
  split at h
  · exact .inr (mem_mdel h)
  · exact mem_mput h

theorem setElem_anchor (c : Col) (i : Nat) (x : Elem) : (c.setElem i x).anchor = c.anchor := rfl

/-- What a halving adds to a column, it notes (R77). -/
theorem halve_spec (w : Nat → Zc) {c : Col} (h : c.Finite) (a : Int) (ha : c.anchor.getD 0 = a) :
    (c.halve a).1.Finite ∧ (c.halve a).1.anchor ≠ none ∧
    (c.halve a).1.wres w = c.wres w + ((c.halve a).2.map fun x : Nat × Nat => w x.1 * (x.2 : Zc)).sum := by
  refine ⟨⟨asc_mapFin h.asc _, fin_mapFin h.fin _, fun e => absurd e (Option.some_ne_none _)⟩, Option.some_ne_none _, ?_⟩
  unfold Col.halve Col.wres
  simp only [Option.getD_some]
  rw [show (c.mapFin halfEven).elems = (c.mapFin halfEven).elems from rfl, wsum_mapFin, pw_add, show pw 1 = 2 by simpa using pw_nat 1, ha]
  unfold wsum
  rw [mul_comm (pw a) 2, ← mul_assoc, ← sumM_mul]
  generalize c.elems = m
  induction m with
  | nil => simp [sumM]
  | cons x r ih =>
    rw [List.filterMap_cons]
    have ih' := ih
    obtain ⟨i, e⟩ := x
    cases e with
    | fin v =>
      dsimp only
      split
      · rename_i o hv
        have hv : 2 * halfEven v = v := by
          by_contra hne; rw [if_neg hne] at hv; exact nomatch hv
        simp only [sumM, List.map_cons, List.sum_cons, Elem.mapFin, Elem.val] at *
        rw [add_mul, ih', add_mul]
        have : (v : Zc) = 2 * (halfEven v : Zc) := by
          conv_lhs => rw [← hv]
          push_cast; rfl
        rw [this]; ring
      · rename_i o b hv
        have hv : b = (i, rho (2 * halfEven v - v) a) := by
          split at hv
          · exact nomatch hv
          · cases hv; rfl
        subst hv
        simp only [sumM, List.map_cons, List.sum_cons, Elem.mapFin, Elem.val] at *
        rw [add_mul, ih', add_mul, rho_cast]
        push_cast; ring
    | posInf => simpa [sumM, Elem.mapFin, Elem.val] using ih'
    | negInf => simpa [sumM, Elem.mapFin, Elem.val] using ih'
    | nan => simpa [sumM, Elem.mapFin, Elem.val] using ih'

theorem settle_spec (w : Nat → Zc) (n : Nat) {c : Col} (h : c.Finite) (hs : c.anchor ≠ none) :
    (Col.settle n c).1.Finite ∧
    (Col.settle n c).1.wres w = c.wres w + ((Col.settle n c).2.map fun x : Nat × Nat => w x.1 * (x.2 : Zc)).sum := by
  induction n generalizing c with
  | zero => exact ⟨h, by simp [Col.settle]⟩
  | succ k ih =>
    unfold Col.settle
    split
    · have g := halve_spec w h (c.anchor.getD 0) rfl
      have i := ih g.1 g.2.1
      refine ⟨i.1, ?_⟩
      dsimp only
      rw [i.2, g.2.2, List.map_append, List.sum_append]; ring
    · exact ⟨h, by simp⟩

theorem roundMag_exact {m : Nat} {sh : Int} (h : (roundMag .rne m sh).2 = false) :
    (0 ≤ sh → (roundMag .rne m sh).1 = m * 2 ^ sh.toNat) ∧ (sh < 0 → (roundMag .rne m sh).1 * 2 ^ (-sh).toNat = m) := by
  unfold roundMag pow2 at *
  refine ⟨fun h0 => by rw [if_pos h0], fun h0 => ?_⟩
  rw [if_neg (by omega)] at h ⊢
  dsimp only at h ⊢
  split at h
  · rename_i hz
    rw [if_pos hz]
    exact Nat.div_mul_cancel (Nat.dvd_of_mod_eq_zero hz)
  · exact nomatch h

theorem roundMag_inexact {m : Nat} {sh : Int} (h : (roundMag .rne m sh).2 = true) : sh < 0 := by
  unfold roundMag at h
  by_contra hn
  rw [if_pos (by omega)] at h
  exact nomatch h

theorem elem_fin {c : Col} (h : c.Finite) (i : Nat) : ∃ v, c.elem i = .fin v := by
  unfold Col.elem mgetD
  cases e : mget c.elems i with
  | none => exact ⟨0, rfl⟩
  | some x =>
    have := h.fin _ ((mget_mem h.asc).1 e)
    cases x with
    | fin v => exact ⟨v, rfl⟩
    | posInf => exact nomatch this
    | negInf => exact nomatch this
    | nan => exact nomatch this

theorem headroom_neg {c : Col} (h : c.Finite) {a : Int} (hn : c.headroom a < 0) (w : Nat → Zc) : wsum w c.elems = 0 := by
  unfold Col.headroom at hn
  dsimp only at hn
  split at hn
  · rename_i e
    unfold wsum
    rw [sumM_congr (g := fun _ _ => 0)]
    · simp [sumM]
    · intro x hx
      have hf := h.fin x hx
      cases hv : x.2 with
      | fin v =>
        have : v = 0 := by
          by_contra hne
          have := List.filterMap_eq_nil_iff.1 e x hx
          rw [hv] at this
          simp [hne] at this
        simp [Elem.val, this]
      | posInf => rw [hv] at hf; exact nomatch hf
      | negInf => rw [hv] at hf; exact nomatch hf
      | nan => rw [hv] at hf; exact nomatch hf
  · omega

/-- What the addition of a finite product gives a column, and what it notes of its roundings (R48, R77). -/
theorem addFin_spec (w : Nat → Zc) {c : Col} (h : c.Finite) (i : Nat) (m e : Int) :
    (c.addFin i m e).1.Finite ∧
    (c.addFin i m e).1.wres w = c.wres w + w i * ((m : Zc) * pw e) +
      ((c.addFin i m e).2.map fun x : Nat × Nat => w x.1 * (x.2 : Zc)).sum := by
  unfold Col.addFin
  extract_lets a0 d c1 a sh n q inexact fix c2 c3
  have ea : a = a0 - d := rfl
  have esh : sh = e - a := rfl
  -- the shift
  have h1 : c1.Finite ∧ wsum w c1.elems * pw a = c.wres w := by
    have ana : c1.anchor = c.anchor := by
      show (if 0 < d then c.mapFin (fun v => v * 2 ^ d.toNat) else c).anchor = _
      split <;> rfl
    have e1 : c1 = if 0 < d then c.mapFin (fun v => v * 2 ^ d.toNat) else c := rfl
    have fn : c1.Finite := by
      rw [e1]
      split
      · exact ⟨asc_mapFin h.asc _, fin_mapFin h.fin _, fun k => mapFin_nil (h.anch k) _⟩
      · exact h
    refine ⟨fn, ?_⟩
    unfold Col.wres
    cases ha : c.anchor with
    | none =>
      have : c1.elems = [] := fn.anch (ana.trans ha)
      rw [this, h.anch ha]; simp [wsum, sumM]
    | some b =>
      have hb : a0 = b := by show c.anchor.getD e = b; rw [ha]; rfl
      rw [e1, ea, hb, Option.getD_some]
      split
      · rename_i hd
        rw [wsum_mapFin]
        have : pw b = 2 ^ d.toNat * pw (b - d) := by
          rw [← pw_nat, ← pw_add, Int.toNat_of_nonneg (by omega)]; congr 1; omega
        rw [this, ← mul_assoc]
        congr 1
        unfold wsum
        rw [← sumM_mul]
        refine sumM_congr fun x _ => ?_
        cases x.2 <;> simp [Elem.mapFin, Elem.val]
        ring
      · rename_i hd
        by_cases h0 : d = 0
        · rw [h0, sub_zero]
        · have : c.headroom a0 < 0 := by
            have ed : d = if e < a0 then min (a0 - e) (c.headroom a0) else 0 := rfl
            split at ed <;> omega
          rw [headroom_neg h this]; simp
  -- the product at the anchor
  have hq : (q : Zc) * pw a = (m : Zc) * pw e + ((fix.map fun x : Nat × Nat => (x.2 : Zc)).sum) ∧
      (fix.map fun x : Nat × Nat => w x.1 * (x.2 : Zc)).sum = w i * (fix.map fun x : Nat × Nat => (x.2 : Zc)).sum := by
    have eq : q = if m < 0 then -n else n := rfl
    have en : n = (((roundMag .rne m.natAbs sh).1 : Nat) : Int) := rfl
    have ei : inexact = (roundMag .rne m.natAbs sh).2 := rfl
    have ef : fix = if inexact = true then [(i, rho (q * 2 ^ (-sh).toNat - m) e)] else [] := rfl
    by_cases hx : inexact = true
    · have hsh := roundMag_inexact (ei ▸ hx)
      rw [ef, if_pos hx]
      simp only [List.map_cons, List.map_nil, List.sum_cons, List.sum_nil, add_zero, rho_cast, and_true]
      have : pw a = 2 ^ (-sh).toNat * pw e := by
        rw [← pw_nat, ← pw_add, Int.toNat_of_nonneg (by omega)]; congr 1; omega
      rw [this]; push_cast; ring
    · have hx' : (roundMag .rne m.natAbs sh).2 = false := by rw [← ei]; simpa using hx
      have hr := roundMag_exact hx'
      rw [ef, if_neg hx]
      simp only [List.map_nil, List.sum_nil, add_zero, mul_zero, and_true]
      by_cases hsh : 0 ≤ sh
      · have hn := hr.1 hsh
        have : q = m * 2 ^ sh.toNat := by
          rw [eq, en, hn]; push_cast
          split
          · rename_i hm; rw [abs_of_neg hm]; ring
          · rename_i hm; rw [abs_of_nonneg (by omega)]
        rw [this, show pw e = 2 ^ sh.toNat * pw a by
          rw [← pw_nat, ← pw_add, Int.toNat_of_nonneg (by omega)]; congr 1; omega]
        push_cast; ring
      · have hn := hr.2 (by omega)
        have : q * 2 ^ (-sh).toNat = m := by
          have hn' : n * 2 ^ (-sh).toNat = (m.natAbs : Int) := by rw [en]; exact_mod_cast hn
          rw [eq]
          split
          · rw [neg_mul, hn']; omega
          · rw [hn']; omega
        rw [show pw a = 2 ^ (-sh).toNat * pw e by
          rw [← pw_nat, ← pw_add, Int.toNat_of_nonneg (by omega)]; congr 1; omega]
        have := congrArg (Int.cast : Int → Zc) this
        push_cast at this
        rw [← mul_assoc, this]
  -- the element
  have h3 : c3.Finite ∧ c3.anchor ≠ none ∧ c3.wres w = c.wres w + w i * ((q : Zc) * pw a) := by
    have fin2 : c2.Finite := ⟨h1.1.asc, h1.1.fin, fun k => absurd k (Option.some_ne_none _)⟩
    obtain ⟨v, hv⟩ := elem_fin fin2 i
    have e3 : c3 = c2.setElem i (.fin (v + q)) := by
      show (match c2.elem i with | .fin v => c2.setElem i (.fin (v + q)) | _ => c2) = _
      rw [hv]
    rw [e3]
    refine ⟨⟨asc_setElem fin2.asc _ _, ?_, fun k => absurd k (Option.some_ne_none _)⟩, Option.some_ne_none _, ?_⟩
    · intro x hx
      rcases mem_setElem hx with hx | hx
      · rw [hx]; rfl
      · exact fin2.fin x hx
    · have e2 : c2.elems = c1.elems := rfl
      unfold Col.wres
      rw [wsum_setElem w fin2.asc, setElem_anchor, hv, e2, show c2.anchor.getD 0 = a from rfl]
      simp only [Elem.val]
      have := h1.2
      unfold Col.wres at this
      rw [← this]; push_cast; ring
  have h4 := settle_spec w (Nat.log2 q.natAbs + 4) h3.1 h3.2.1
  refine ⟨h4.1, ?_⟩
  dsimp only
  rw [h4.2, h3.2.2, hq.1, List.map_append, List.sum_append, hq.2]; ring

/-! Products -/

theorem rhoNum_cast (a : Bool) (m : Nat) (e : Int) :
    ((rhoNum (.fin a m e) : Nat) : Zc) = ((if a then -(m : Int) else m : Int) : Zc) * pw e := rho_cast _ _

theorem rhoNum_mul {x y : Num} (hx : x.isFin = true) (hy : y.isFin = true) :
    (x.mul y).isFin = true ∧ ((rhoNum (x.mul y) : Nat) : Zc) = (rhoNum x : Zc) * (rhoNum y : Zc) := by
  cases x with
  | fin a m e =>
    cases y with
    | fin b n f =>
      refine ⟨rfl, ?_⟩
      show ((rhoNum (.fin (a != b) (m * n) (e + f)) : Nat) : Zc) = _
      rw [rhoNum_cast, rhoNum_cast, rhoNum_cast, pw_add]
      cases a <;> cases b <;> simp <;> ring
    | inf _ => exact nomatch hy
    | nan _ => exact nomatch hy
  | inf _ => exact nomatch hx
  | nan _ => exact nomatch hx

theorem mul_nonfin {x y : Num} (h : (x.isFin && y.isFin) = false) : (x.mul y).isFin = false := by
  cases x <;> cases y <;> first
    | rfl
    | (unfold Num.mul; dsimp only; split <;> rfl)
    | simp [Num.isFin] at h

theorem add_fin_spec (w : Nat → Zc) {c : Col} (h : c.Finite) (i : Nat) {x : Num} (hx : x.isFin = true) :
    (c.add i x).1.Finite ∧ (c.add i x).1.wres w = c.wres w + w i * (rhoNum x : Zc) +
      ((c.add i x).2.map fun x : Nat × Nat => w x.1 * (x.2 : Zc)).sum := by
  cases x with
  | fin a m e =>
    rw [rhoNum_cast]
    unfold Col.add
    dsimp only
    split
    · rename_i hm; subst hm
      refine ⟨h, ?_⟩
      cases a <;> simp
    · exact addFin_spec w h i _ e
  | inf _ => exact nomatch hx
  | nan _ => exact nomatch hx

/-! The array, finite -/

/-- Every column of an array is finite. -/
structure Acc.Finite (a : Acc) : Prop where
  asc : Asc a.cols
  cols : ∀ x ∈ a.cols, x.2.Finite

/-- The weighted sum of the residues of an array, by column and row. -/
def Acc.tot (w : Nat → Nat → Zc) (a : Acc) : Zc := sumM (fun c col => col.wres (w c)) a.cols

theorem empty_finite : Col.empty.Finite := ⟨List.Pairwise.nil, fun _ h => (nomatch h), fun _ => rfl⟩

theorem col_finite {a : Acc} (h : a.Finite) (c : Nat) : (a.col c).Finite := by
  unfold Acc.col mgetD
  cases e : mget a.cols c with
  | none => exact empty_finite
  | some x => exact h.cols _ ((mget_mem h.asc).1 e)

theorem acc_add_finite {a : Acc} (h : a.Finite) (i c : Nat) {x : Num} (hx : x.isFin = true) : (a.add i c x).Finite :=
  ⟨asc_mput h.asc _ _, fun y hy => by
    rcases mem_mput hy with hy | hy
    · rw [hy]; exact (add_fin_spec (fun _ => 0) (col_finite h c) i hx).1
    · exact h.cols _ hy⟩

theorem tot_add {a : Acc} (h : a.Finite) (w : Nat → Nat → Zc) (i c : Nat) {x : Num} (hx : x.isFin = true) :
    (a.add i c x).tot w = a.tot w + w c i * (rhoNum x : Zc) +
      (((a.col c).add i x).2.map fun y : Nat × Nat => w c y.1 * (y.2 : Zc)).sum := by
  have e : (a.add i c x).tot w = sumM (fun c col => col.wres (w c)) (mput a.cols c ((a.col c).add i x).1) := rfl
  rw [e, sumM_mput h.asc, (add_fin_spec (w c) (col_finite h c) i hx).2]
  unfold Acc.tot Acc.col mgetD
  cases mget a.cols c with
  | none => simp [Col.wres, Col.empty, wsum, sumM]; ring
  | some y => simp; ring

/-- The row and column weights of R78. -/
def rowW (i : Nat) : Nat → Nat → Zc := fun _ j => if j = i then 1 else 0
def colW (c : Nat) : Nat → Nat → Zc := fun d _ => if d = c then 1 else 0

/-- What the equation of a row leaves over. -/
def Acc.rowGap (a : Acc) (i : Nat) : Zc := a.tot (rowW i) - (nget a.dRow i : Zc)
/-- What the equation of a column leaves over. -/
def Acc.colGap (a : Acc) (c : Nat) : Zc := a.tot (colW c) - (nget a.dCol c : Zc)

theorem rowGap_add {a : Acc} (h : a.Finite) (i c : Nat) {x : Num} (hx : x.isFin = true) (j : Nat) :
    (a.add i c x).rowGap j = a.rowGap j + if i = j then (rhoNum x : Zc) else 0 := by
  unfold Acc.rowGap
  rw [tot_add h _ i c hx]
  have : ((nget (a.add i c x).dRow j : Nat) : Zc) = (nget a.dRow j : Zc) +
      (((a.col c).add i x).2.map fun e : Nat × Nat => if e.1 = j then (e.2 : Zc) else 0).sum :=
    nget_fold Prod.fst Prod.snd _ a.dRow j
  rw [this]
  have : (((a.col c).add i x).2.map fun y : Nat × Nat => rowW j c y.1 * (y.2 : Zc)) =
      ((a.col c).add i x).2.map fun e : Nat × Nat => if e.1 = j then (e.2 : Zc) else 0 :=
    List.map_congr_left fun y _ => by unfold rowW; split <;> simp
  rw [this]
  unfold rowW
  split <;> ring

theorem colGap_add {a : Acc} (h : a.Finite) (i c : Nat) {x : Num} (hx : x.isFin = true) (d : Nat) :
    (a.add i c x).colGap d = a.colGap d + if c = d then (rhoNum x : Zc) else 0 := by
  unfold Acc.colGap
  rw [tot_add h _ i c hx]
  have e : (a.add i c x).dCol = nput a.dCol c ((nget a.dCol c + rhoSum (((a.col c).add i x).2.map Prod.snd)) % checkPrime) := rfl
  rw [e, nget_nput]
  have hs := (rhoSum_eq (((a.col c).add i x).2.map Prod.snd)).2
  rw [List.map_map] at hs
  unfold colW
  by_cases hc : c = d
  · subst hc
    rw [if_pos rfl, if_pos rfl, if_pos rfl, cast_mod, Nat.cast_add, hs]
    simp only [one_mul, Function.comp_def]
    ring
  · rw [if_neg hc, if_neg hc, if_neg (Ne.symm hc)]
    simp

/-- One row of products reaching one column. -/
def Acc.addRows (a : Acc) (rows : List (Nat × Num)) (c : Nat) (y : Num) : Acc :=
  foldS (fun a ia => a.add ia.1 c (ia.2.mul y)) a rows

theorem addRows_spec {a : Acc} (h : a.Finite) (rows : List (Nat × Num)) (c : Nat) (y : Num)
    (hr : ∀ x ∈ rows, (x.2.mul y).isFin = true) :
    (a.addRows rows c y).Finite ∧
    (∀ j, (a.addRows rows c y).rowGap j = a.rowGap j +
      (rows.map fun x => if x.1 = j then (rhoNum (x.2.mul y) : Zc) else 0).sum) ∧
    ∀ d, (a.addRows rows c y).colGap d = a.colGap d +
      if c = d then (rows.map fun x => (rhoNum (x.2.mul y) : Zc)).sum else 0 := by
  induction rows generalizing a with
  | nil => exact ⟨h, fun j => by simp [Acc.addRows, foldS], fun d => by simp [Acc.addRows, foldS]⟩
  | cons x r ih =>
    have hx := hr x (List.mem_cons_self ..)
    have i := ih (acc_add_finite h x.1 c hx) fun z hz => hr z (List.mem_cons_of_mem _ hz)
    refine ⟨i.1, fun j => ?_, fun d => ?_⟩
    · have := i.2.1 j
      rw [rowGap_add h _ _ hx] at this
      show ((a.add x.1 c (x.2.mul y)).addRows r c y).rowGap j = _
      rw [this, List.map_cons, List.sum_cons]; ring
    · have := i.2.2 d
      rw [colGap_add h _ _ hx] at this
      show ((a.add x.1 c (x.2.mul y)).addRows r c y).colGap d = _
      rw [this, List.map_cons, List.sum_cons]
      split <;> ring

/-- All products of one step reaching the array. -/
def Acc.addAll (a : Acc) (rows cols : List (Nat × Num)) : Acc := foldS (fun a cb => a.addRows rows cb.1 cb.2) a cols

theorem addAll_spec {a : Acc} (h : a.Finite) (rows cols : List (Nat × Num))
    (hr : ∀ y ∈ cols, ∀ x ∈ rows, x.2.isFin = true ∧ y.2.isFin = true) :
    (a.addAll rows cols).Finite ∧
    (∀ j, (a.addAll rows cols).rowGap j = a.rowGap j +
      (rows.map fun x => if x.1 = j then (rhoNum x.2 : Zc) else 0).sum * (cols.map fun y => (rhoNum y.2 : Zc)).sum) ∧
    ∀ d, (a.addAll rows cols).colGap d = a.colGap d +
      (rows.map fun x => (rhoNum x.2 : Zc)).sum * (cols.map fun y => if y.1 = d then (rhoNum y.2 : Zc) else 0).sum := by
  induction cols generalizing a with
  | nil => exact ⟨h, fun j => by simp [Acc.addAll, foldS], fun d => by simp [Acc.addAll, foldS]⟩
  | cons y r ih =>
    have hy := hr y (List.mem_cons_self ..)
    have s1 := addRows_spec h rows y.1 y.2 fun x hx => (rhoNum_mul (hy x hx).1 (hy x hx).2).1
    have i := ih s1.1 fun z hz => hr z (List.mem_cons_of_mem _ hz)
    have m1 : ∀ j, (rows.map fun x => if x.1 = j then (rhoNum (x.2.mul y.2) : Zc) else 0).sum =
        (rows.map fun x => if x.1 = j then (rhoNum x.2 : Zc) else 0).sum * (rhoNum y.2 : Zc) := by
      intro j
      rw [← List.sum_map_mul_right]
      congr 1
      refine List.map_congr_left fun x hx => ?_
      split
      · rw [(rhoNum_mul (hy x hx).1 (hy x hx).2).2]
      · simp
    have m2 : (rows.map fun x => (rhoNum (x.2.mul y.2) : Zc)).sum =
        (rows.map fun x => (rhoNum x.2 : Zc)).sum * (rhoNum y.2 : Zc) := by
      rw [← List.sum_map_mul_right]
      congr 1
      exact List.map_congr_left fun x hx => (rhoNum_mul (hy x hx).1 (hy x hx).2).2
    refine ⟨i.1, fun j => ?_, fun d => ?_⟩
    · have := i.2.1 j
      rw [s1.2.1, m1] at this
      show ((a.addRows rows y.1 y.2).addAll rows r).rowGap j = _
      rw [this, List.map_cons, List.sum_cons]; ring
    · have := i.2.2 d
      rw [s1.2.2, m2] at this
      show ((a.addRows rows y.1 y.2).addAll rows r).colGap d = _
      rw [this, List.map_cons, List.sum_cons]
      split <;> ring

/-! The equations of R78 -/

/-- The equations of R78 hold. -/
structure Acc.Equations (a : Acc) : Prop where
  ascX : Asc a.x
  ascY : Asc a.y
  row : ∀ i, a.rowGap i = (nget a.x i : Zc)
  col : ∀ c, a.colGap c = (nget a.y c : Zc)
  cornerX : sumM (fun _ (x : Nat) => (x : Zc)) a.x = (a.z : Zc)
  cornerY : sumM (fun _ (x : Nat) => (x : Zc)) a.y = (a.z : Zc)

theorem stepRows_equations {a : Acc} (h : a.Finite) (q : a.Equations) (rows cols : List (Nat × Num))
    (hr : ∀ y ∈ cols, ∀ x ∈ rows, x.2.isFin = true ∧ y.2.isFin = true) :
    (a.stepRows rows cols).Finite ∧ (a.stepRows rows cols).Equations := by
  have s := addAll_spec h rows cols hr
  have same : ∀ (a : Acc) l, (a.addAll rows l).x = a.x ∧ (a.addAll rows l).y = a.y ∧ (a.addAll rows l).z = a.z := by
    intro a l
    have one : ∀ (a : Acc) (rows : List (Nat × Num)) c y, (a.addRows rows c y).x = a.x ∧ (a.addRows rows c y).y = a.y ∧ (a.addRows rows c y).z = a.z := by
      intro a rows c y
      induction rows generalizing a with
      | nil => exact ⟨rfl, rfl, rfl⟩
      | cons x r ih => exact ih (a.add x.1 c (x.2.mul y))
    induction l generalizing a with
    | nil => exact ⟨rfl, rfl, rfl⟩
    | cons y r ih =>
      have o := one a rows y.1 y.2
      have i := ih (a.addRows rows y.1 y.2)
      exact ⟨i.1.trans o.1, i.2.1.trans o.2.1, i.2.2.trans o.2.2⟩
  have e := same a cols
  have sA := (rhoSum_eq (rows.map fun x => rhoNum x.2)).2
  have sB := (rhoSum_eq (cols.map fun x => rhoNum x.2)).2
  rw [List.map_map] at sA sB
  simp only [Function.comp_def] at sA sB
  refine ⟨⟨s.1.asc, s.1.cols⟩, ⟨?_, ?_, fun i => ?_, fun c => ?_, ?_, ?_⟩⟩
  · exact asc_fold _ _ _ _ (e.1 ▸ q.ascX)
  · exact asc_fold _ _ _ _ (e.2.1 ▸ q.ascY)
  · show (a.addAll rows cols).rowGap i = ((nget (foldS (fun m ia => nput m ia.1 ((nget m ia.1 + rhoNum ia.2 *
      rhoSum (cols.map fun x => rhoNum x.2)) % checkPrime)) (a.addAll rows cols).x rows) i : Nat) : Zc)
    rw [s.2.1, q.row, nget_fold, e.1, ← List.sum_map_mul_right, ← sB]
    congr 2
    exact List.map_congr_left fun x _ => by split <;> simp
  · show (a.addAll rows cols).colGap c = ((nget (foldS (fun m cb => nput m cb.1 ((nget m cb.1 +
      rhoSum (rows.map fun x => rhoNum x.2) * rhoNum cb.2) % checkPrime)) (a.addAll rows cols).y cols) c : Nat) : Zc)
    rw [s.2.2, q.col, nget_fold, e.2.1, ← List.sum_map_mul_left, ← sA]
    congr 2
    exact List.map_congr_left fun x _ => by split <;> simp
  · show sumM (fun _ (x : Nat) => (x : Zc)) (foldS (fun m ia => nput m ia.1 ((nget m ia.1 + rhoNum ia.2 *
      rhoSum (cols.map fun x => rhoNum x.2)) % checkPrime)) (a.addAll rows cols).x rows) =
      (((a.addAll rows cols).z + rhoSum (rows.map fun x => rhoNum x.2) * rhoSum (cols.map fun x => rhoNum x.2)) % checkPrime : Nat)
    rw [sum_fold _ _ _ _ (e.1 ▸ q.ascX), e.1, e.2.2, q.cornerX, cast_mod, Nat.cast_add, Nat.cast_mul, sA]
    simp only [Nat.cast_mul]
    rw [List.sum_map_mul_right]
  · show sumM (fun _ (x : Nat) => (x : Zc)) (foldS (fun m cb => nput m cb.1 ((nget m cb.1 +
      rhoSum (rows.map fun x => rhoNum x.2) * rhoNum cb.2) % checkPrime)) (a.addAll rows cols).y cols) =
      (((a.addAll rows cols).z + rhoSum (rows.map fun x => rhoNum x.2) * rhoSum (cols.map fun x => rhoNum x.2)) % checkPrime : Nat)
    rw [sum_fold _ _ _ _ (e.2.1 ▸ q.ascY), e.2.1, e.2.2, q.cornerY, cast_mod, Nat.cast_add, Nat.cast_mul, sB]
    simp only [Nat.cast_mul]
    rw [List.sum_map_mul_left]

/-! The classification of R81 -/

theorem nonfin_iff {c : Col} (h : Asc c.elems) (j : Nat) :
    (c.elem j).isFin = false ↔ ∃ e, (j, e) ∈ c.elems ∧ e.isFin = false := by
  unfold Col.elem mgetD
  constructor
  · intro hf
    cases e : mget c.elems j with
    | none => rw [e] at hf; exact nomatch hf
    | some x => rw [e] at hf; exact ⟨x, (mget_mem h).1 e, hf⟩
  · rintro ⟨e, he, hf⟩
    rw [(mget_mem h).2 he]; exact hf

theorem isFin_mapFin (e : Elem) (f : Int → Int) : (e.mapFin f).isFin = e.isFin := by cases e <;> rfl

theorem elem_mapFin {c : Col} (h : Asc c.elems) (f : Int → Int) (j : Nat) :
    ((c.mapFin f).elem j).isFin = false ↔ (c.elem j).isFin = false := by
  rw [nonfin_iff (asc_mapFin h f), nonfin_iff h, mapFin_elems]
  constructor
  · rintro ⟨e, he, hf⟩
    obtain ⟨y, hy, e2⟩ := List.mem_map.1 (List.mem_filter.1 he).1
    cases e2
    exact ⟨y.2, hy, by rw [← isFin_mapFin y.2 f]; exact hf⟩
  · rintro ⟨e, he, hf⟩
    refine ⟨e.mapFin f, List.mem_filter.2 ⟨List.mem_map.2 ⟨_, he, rfl⟩, ?_⟩, by rw [isFin_mapFin]; exact hf⟩
    cases e <;> first | rfl | exact absurd hf (by simp [Elem.isFin])

theorem elem_setElem (c : Col) (i : Nat) (x : Elem) (j : Nat) : (c.setElem i x).elem j = if j = i then x else c.elem j := by
  unfold Col.setElem Col.elem mgetD
  dsimp only
  by_cases hj : j = i
  · subst hj
    rw [if_pos rfl]
    split
    · rename_i hx; subst hx; rw [mget_mdel_self]; rfl
    · rw [mget_mput_self]; rfl
  · rw [if_neg hj]
    split
    · rw [mget_mdel_other _ _ _ hj]
    · rw [mget_mput_other _ _ _ _ hj]

theorem settle_kinds (n : Nat) {c : Col} (h : Asc c.elems) :
    Asc (Col.settle n c).1.elems ∧ ∀ j, ((Col.settle n c).1.elem j).isFin = false ↔ (c.elem j).isFin = false := by
  induction n generalizing c with
  | zero => exact ⟨h, fun _ => Iff.rfl⟩
  | succ k ih =>
    unfold Col.settle
    split
    · have i := ih (c := (c.halve (c.anchor.getD 0)).1) (asc_mapFin h _)
      exact ⟨i.1, fun j => (i.2 j).trans (elem_mapFin h halfEven j)⟩
    · exact ⟨h, fun _ => Iff.rfl⟩

theorem addFin_kinds {c : Col} (h : Asc c.elems) (i : Nat) (m e : Int) :
    Asc (c.addFin i m e).1.elems ∧ ∀ j, ((c.addFin i m e).1.elem j).isFin = false ↔ (c.elem j).isFin = false := by
  unfold Col.addFin
  extract_lets a0 d c1 a sh n q inexact fix c2 c3
  have h1 : Asc c1.elems ∧ ∀ j, (c1.elem j).isFin = false ↔ (c.elem j).isFin = false := by
    have e1 : c1 = if 0 < d then c.mapFin (fun v => v * 2 ^ d.toNat) else c := rfl
    rw [e1]
    split
    · exact ⟨asc_mapFin h _, elem_mapFin h _⟩
    · exact ⟨h, fun _ => Iff.rfl⟩
  have h2 : Asc c2.elems ∧ ∀ j, (c2.elem j).isFin = false ↔ (c.elem j).isFin = false := h1
  have h3 : Asc c3.elems ∧ ∀ j, (c3.elem j).isFin = false ↔ (c.elem j).isFin = false := by
    have e3 : c3 = match c2.elem i with | .fin v => c2.setElem i (.fin (v + q)) | _ => c2 := rfl
    rw [e3]
    split
    · rename_i v hv
      refine ⟨asc_setElem h2.1 _ _, fun j => ?_⟩
      rw [elem_setElem]
      split
      · rename_i hj; subst hj
        rw [← h2.2 j, hv]; simp [Elem.isFin]
      · exact h2.2 j
    · exact h2
  have h4 := settle_kinds (Nat.log2 q.natAbs + 4) h3.1
  exact ⟨h4.1, fun j => (h4.2 j).trans (h3.2 j)⟩

theorem combine_nonfin (x y : Elem) (hy : y.isFin = false) : (x.combine y).isFin = false := by
  cases x <;> cases y <;> simp_all [Elem.isFin, Elem.combine]

theorem col_add_kinds {c : Col} (h : Asc c.elems) (i : Nat) (x : Num) :
    Asc (c.add i x).1.elems ∧
    ∀ j, ((c.add i x).1.elem j).isFin = false ↔ (c.elem j).isFin = false ∨ (j = i ∧ x.isFin = false) := by
  cases x with
  | fin a m e =>
    unfold Col.add
    dsimp only
    split
    · exact ⟨h, fun j => by simp [Num.isFin]⟩
    · have k := addFin_kinds h i (if a then -(m : Int) else m) e
      exact ⟨k.1, fun j => (k.2 j).trans (by simp [Num.isFin])⟩
  | inf b =>
    refine ⟨asc_setElem h _ _, fun j => ?_⟩
    show ((c.setElem i ((c.elem i).combine (if b then .negInf else .posInf))).elem j).isFin = false ↔ _
    rw [elem_setElem]
    split
    · rename_i hj; subst hj
      simp only [Num.isFin, and_self, or_true, iff_true]
      exact combine_nonfin _ _ (by cases b <;> rfl)
    · rename_i hj; simp [hj]
  | nan b =>
    refine ⟨asc_setElem h _ _, fun j => ?_⟩
    show ((c.setElem i .nan).elem j).isFin = false ↔ _
    rw [elem_setElem]
    split
    · rename_i hj; subst hj; simp [Num.isFin, Elem.isFin]
    · rename_i hj; simp [hj]

/-- The keys of an array and of its columns ascend. -/
structure Acc.Ordered (a : Acc) : Prop where
  asc : Asc a.cols
  ascE : ∀ x ∈ a.cols, Asc x.2.elems

theorem col_asc {a : Acc} (h : a.Ordered) (c : Nat) : Asc (a.col c).elems := by
  unfold Acc.col mgetD
  cases e : mget a.cols c with
  | none => exact List.Pairwise.nil
  | some x => exact h.ascE _ ((mget_mem h.asc).1 e)

theorem acc_add_kinds {a : Acc} (h : a.Ordered) (i c : Nat) (x : Num) :
    (a.add i c x).Ordered ∧ ∀ j d, (((a.add i c x).col d).elem j).isFin = false ↔
      ((a.col d).elem j).isFin = false ∨ (j = i ∧ d = c ∧ x.isFin = false) := by
  have k := col_add_kinds (col_asc h c) i x
  refine ⟨⟨asc_mput h.asc _ _, fun y hy => ?_⟩, fun j d => ?_⟩
  · rcases mem_mput hy with hy | hy
    · rw [hy]; exact k.1
    · exact h.ascE _ hy
  · have e : (a.add i c x).col d = if d = c then ((a.col c).add i x).1 else a.col d := by
      show mgetD (mput a.cols c ((a.col c).add i x).1) d Col.empty = _
      split
      · rename_i hd; subst hd; rw [mgetD_mput_self]
      · rename_i hd; rw [mgetD_mput_other _ _ _ _ _ hd]; rfl
    rw [e]
    split
    · rename_i hd; subst hd; rw [k.2]; simp
    · rename_i hd; simp [hd]

theorem addRows_kinds {a : Acc} (h : a.Ordered) (rows : List (Nat × Num)) (c : Nat) (y : Num) :
    (a.addRows rows c y).Ordered ∧ ∀ j d, (((a.addRows rows c y).col d).elem j).isFin = false ↔
      ((a.col d).elem j).isFin = false ∨ (d = c ∧ ∃ x ∈ rows, x.1 = j ∧ (x.2.mul y).isFin = false) := by
  induction rows generalizing a with
  | nil => exact ⟨h, fun j d => by simp [Acc.addRows, foldS]⟩
  | cons x r ih =>
    have k := acc_add_kinds h x.1 c (x.2.mul y)
    have i := ih k.1
    refine ⟨i.1, fun j d => ?_⟩
    show ((((a.add x.1 c (x.2.mul y)).addRows r c y).col d).elem j).isFin = false ↔ _
    rw [i.2, k.2]
    constructor
    · rintro ((h | ⟨h1, h2, h3⟩) | ⟨h1, z, hz, h2, h3⟩)
      · exact .inl h
      · exact .inr ⟨h2, x, List.mem_cons_self .., h1.symm, h3⟩
      · exact .inr ⟨h1, z, List.mem_cons_of_mem _ hz, h2, h3⟩
    · rintro (h | ⟨h1, z, hz, h2, h3⟩)
      · exact .inl (.inl h)
      · rcases List.mem_cons.1 hz with hz | hz
        · subst hz; exact .inl (.inr ⟨h2.symm, h1, h3⟩)
        · exact .inr ⟨h1, z, hz, h2, h3⟩

theorem addAll_kinds {a : Acc} (h : a.Ordered) (rows cols : List (Nat × Num)) :
    (a.addAll rows cols).Ordered ∧ ∀ j d, (((a.addAll rows cols).col d).elem j).isFin = false ↔
      ((a.col d).elem j).isFin = false ∨ ∃ y ∈ cols, y.1 = d ∧ ∃ x ∈ rows, x.1 = j ∧ (x.2.mul y.2).isFin = false := by
  induction cols generalizing a with
  | nil => exact ⟨h, fun j d => by simp [Acc.addAll, foldS]⟩
  | cons y r ih =>
    have k := addRows_kinds h rows y.1 y.2
    have i := ih k.1
    refine ⟨i.1, fun j d => ?_⟩
    show ((((a.addRows rows y.1 y.2).addAll rows r).col d).elem j).isFin = false ↔ _
    rw [i.2, k.2]
    constructor
    · rintro ((h | ⟨h1, h2⟩) | ⟨z, hz, h2, h3⟩)
      · exact .inl h
      · exact .inr ⟨y, List.mem_cons_self .., h1.symm, h2⟩
      · exact .inr ⟨z, List.mem_cons_of_mem _ hz, h2, h3⟩
    · rintro (h | ⟨z, hz, h2, h3⟩)
      · exact .inl (.inl h)
      · rcases List.mem_cons.1 hz with hz | hz
        · subst hz; exact .inl (.inr ⟨h2.symm, h3⟩)
        · exact .inr ⟨z, hz, h2, h3⟩

/-! Sound arrays -/

/-- An array that no upset has struck: its non-finite elements are those that must be, and while there is none the equations
of R78 hold. -/
structure Acc.Sound (a : Acc) : Prop where
  ord : a.Ordered
  small : a.z < checkPrime
  kinds : ∀ i c, ((a.col c).elem i).isFin = false ↔ (i, c) ∈ a.nonFinite
  fin : a.nonFinite = [] → a.Finite ∧ a.Equations

/-- The empty array is sound. -/
theorem empty_sound : Acc.empty.Sound :=
  { ord := ⟨List.Pairwise.nil, fun _ h => nomatch h⟩
    small := by decide
    kinds := fun i c => by simp [Acc.empty, Acc.col, mgetD, mget, Col.empty, Col.elem, Elem.isFin]
    fin := fun _ => ⟨⟨List.Pairwise.nil, fun _ h => nomatch h⟩, ⟨List.Pairwise.nil, List.Pairwise.nil,
      fun i => by simp [Acc.empty, Acc.rowGap, Acc.tot, sumM, nget, mgetD, mget],
      fun i => by simp [Acc.empty, Acc.colGap, Acc.tot, sumM, nget, mgetD, mget],
      by simp [Acc.empty, sumM], by simp [Acc.empty, sumM]⟩⟩ }

theorem addAll_nonFinite (a : Acc) (rows cols : List (Nat × Num)) : (a.addAll rows cols).nonFinite = a.nonFinite := by
  have one : ∀ (a : Acc) (rows : List (Nat × Num)) c y, (a.addRows rows c y).nonFinite = a.nonFinite := by
    intro a rows c y
    induction rows generalizing a with
    | nil => rfl
    | cons x r ih => exact ih (a.add x.1 c (x.2.mul y))
  induction cols generalizing a with
  | nil => rfl
  | cons y r ih => exact (ih (a.addRows rows y.1 y.2)).trans (one _ _ _ _)

/-- The elements that one step makes non-finite. -/
def badPairs (rows cols : List (Nat × Num)) : List (Nat × Nat) :=
  rows.flatMap fun ia => cols.filterMap fun cb => if ia.2.isFin && cb.2.isFin then none else some (ia.1, cb.1)

theorem mem_badPairs {rows cols : List (Nat × Num)} {i c : Nat} :
    (i, c) ∈ badPairs rows cols ↔ ∃ y ∈ cols, y.1 = c ∧ ∃ x ∈ rows, x.1 = i ∧ (x.2.mul y.2).isFin = false := by
  unfold badPairs
  rw [List.mem_flatMap]
  constructor
  · rintro ⟨x, hx, h⟩
    obtain ⟨y, hy, e⟩ := List.mem_filterMap.1 h
    split at e
    · exact nomatch e
    · rename_i hf
      cases e
      exact ⟨y, hy, rfl, x, hx, rfl, mul_nonfin (by simpa using hf)⟩
  · rintro ⟨y, hy, rfl, x, hx, rfl, hf⟩
    refine ⟨x, hx, List.mem_filterMap.2 ⟨y, hy, ?_⟩⟩
    rw [if_neg]
    intro hb
    have hb := (Bool.and_eq_true _ _).mp hb
    rw [(rhoNum_mul hb.1 hb.2).1] at hf
    exact nomatch hf

/-- A step of a reduction keeps an array sound. -/
theorem sound_stepRows {a : Acc} (h : a.Sound) (rows cols : List (Nat × Num)) : (a.stepRows rows cols).Sound := by
  have k := addAll_kinds h.ord rows cols
  have nf : (a.stepRows rows cols).nonFinite =
      (badPairs rows cols).filter (fun b => !((a.addAll rows cols).nonFinite.contains b)) ++ (a.addAll rows cols).nonFinite := rfl
  rw [addAll_nonFinite] at nf
  refine ⟨⟨k.1.asc, k.1.ascE⟩, Nat.mod_lt _ (by decide), fun i c => ?_, fun hn => ?_⟩
  · show (((a.addAll rows cols).col c).elem i).isFin = false ↔ _
    rw [k.2, h.kinds, nf, List.mem_append, List.mem_filter, mem_badPairs]
    constructor
    · rintro (h | h)
      · exact .inr h
      · by_cases hm : (i, c) ∈ a.nonFinite
        · exact .inr hm
        · exact .inl ⟨h, by simpa using hm⟩
    · rintro (h | h)
      · exact .inr h.1
      · exact .inl h
  · rw [nf] at hn
    have h0 : a.nonFinite = [] := (List.append_eq_nil_iff.1 hn).2
    have hb : ∀ x, x ∉ badPairs rows cols := by
      intro x hx
      have := List.filter_eq_nil_iff.1 (List.append_eq_nil_iff.1 hn).1 x hx
      rw [h0] at this
      simp at this
    refine stepRows_equations (h.fin h0).1 (h.fin h0).2 rows cols fun y hy x hx => ?_
    by_contra hf
    have : (x.2.isFin && y.2.isFin) = false := by
      cases h1 : x.2.isFin <;> cases h2 : y.2.isFin <;> simp_all
    exact hb (x.1, y.1) (mem_badPairs.2 ⟨y, hy, rfl, x, hx, rfl, mul_nonfin this⟩)

/-- The count of the reduction steps plays no part. -/
theorem sound_kLen {a : Acc} (h : a.Sound) (n : Nat) : ({ a with kLen := n } : Acc).Sound :=
  ⟨⟨h.ord.asc, h.ord.ascE⟩, h.small, h.kinds, fun e => ⟨⟨(h.fin e).1.asc, (h.fin e).1.cols⟩,
    ⟨(h.fin e).2.ascX, (h.fin e).2.ascY, (h.fin e).2.row, (h.fin e).2.col, (h.fin e).2.cornerX, (h.fin e).2.cornerY⟩⟩⟩

/-- Every step of a fold keeps an array sound. -/
theorem sound_fold {α : Type} {f : Acc → α → Acc} (hf : ∀ a x, a.Sound → (f a x).Sound) {a : Acc} (h : a.Sound) (l : List α) :
    (foldS f a l).Sound := by
  induction l generalizing a with
  | nil => exact h
  | cons x r ih => exact ih (hf a x h)

/-- An upset with no change of the array leaves a sound one as it is. -/
theorem sound_upset {a : Acc} (h : a.Sound) {u : Upset} (h1 : u.flip = none) (h2 : u.anchor = none) (h3 : u.corner = 0) :
    a.upset u = a := by
  unfold Acc.upset
  rw [h1, h2, h3]
  show { a with z := (a.z + 0) % checkPrime } = a
  rw [Nat.add_zero, Nat.mod_eq_of_lt h.small]

theorem sound_rows {a : Acc} (h : a.Sound) (hn : a.nonFinite = []) : a.badRows = [] := by
  unfold Acc.badRows
  rw [List.filter_eq_nil_iff]
  intro i _
  have q := (h.fin hn).2.row i
  have e : ((rhoSum (a.cols.map fun c => c.2.residue (c.2.elem i)) : Nat) : Zc) = a.tot (rowW i) := by
    rw [(rhoSum_eq _).2, List.map_map]
    unfold Acc.tot sumM
    congr 1
    refine List.map_congr_left fun c hc => ?_
    have hf := (h.fin hn).1.cols c hc
    show ((c.2.residue (c.2.elem i) : Nat) : Zc) = c.2.wres (rowW i c.1)
    rw [residue_cast]
    unfold Col.wres
    congr 1
    have := wsum_setElem (rowW i c.1) hf.asc i (.fin 0)
    have z : wsum (rowW i c.1) (c.2.setElem i (.fin 0)).elems = 0 := by
      unfold wsum
      rw [sumM_congr (g := fun _ _ => 0)]
      · simp [sumM]
      · intro x hx
        unfold rowW
        split
        · rename_i hi
          have a2 := asc_setElem hf.asc i (.fin 0)
          have : (c.2.setElem i (.fin 0)).elem i = x.2 := by
            unfold Col.elem mgetD
            rw [(mget_mem a2 (k := i) (v := x.2)).2 (hi ▸ hx)]; rfl
          rw [elem_setElem, if_pos rfl] at this
          rw [← this]; simp [Elem.val]
        · simp
    rw [z] at this
    simp only [rowW, if_true, one_mul, Elem.val, Int.cast_zero, add_zero] at this
    exact (sub_eq_zero.1 this.symm).symm
  have : rhoSum (a.cols.map fun c => c.2.residue (c.2.elem i)) = (nget a.x i + nget a.dRow i) % checkPrime := by
    refine nat_of_cast (rhoSum_eq _).1 (Nat.mod_lt _ (by decide)) ?_
    rw [e, cast_mod, Nat.cast_add, ← q]
    unfold Acc.rowGap; ring
  simp [this]

theorem sound_cols {a : Acc} (h : a.Sound) (hn : a.nonFinite = []) : a.badCols = [] := by
  unfold Acc.badCols
  rw [List.filter_eq_nil_iff]
  intro c _
  have q := (h.fin hn).2.col c
  have e : ((rhoSum ((a.col c).elems.map fun e => (a.col c).residue e.2) : Nat) : Zc) = a.tot (colW c) := by
    rw [(rhoSum_eq _).2, List.map_map]
    have m := sumM_mdel (h.fin hn).1.asc c fun d col => col.wres (colW c d)
    have z : sumM (fun d (col : Col) => col.wres (colW c d)) (mdel a.cols c) = 0 := by
      rw [sumM_congr (g := fun _ _ => 0)]
      · simp [sumM]
      · intro x hx
        have hne : x.1 ≠ c := by
          intro he
          have := mget_mdel_self a.cols c
          rw [(mget_mem (asc_mdel (h.fin hn).1.asc c) (k := c) (v := x.2)).2 (he ▸ hx)] at this
          exact nomatch this
        unfold Col.wres wsum colW
        rw [if_neg hne, sumM_congr (g := fun _ _ => 0)]
        · simp [sumM]
        · intro y _; simp
    rw [z] at m
    have m := (sub_eq_zero.1 m.symm)
    unfold Acc.tot
    rw [m]
    unfold Acc.col mgetD
    cases mget a.cols c with
    | none => simp [Col.empty]
    | some y =>
      show _ = y.wres (colW c c)
      unfold Col.wres wsum
      rw [← sumM_mul]
      unfold sumM colW
      congr 1
      exact List.map_congr_left fun e _ => by
        show ((y.residue e.2 : Nat) : Zc) = _
        rw [residue_cast, if_pos rfl]
        simp
  have : rhoSum ((a.col c).elems.map fun e => (a.col c).residue e.2) = (nget a.y c + nget a.dCol c) % checkPrime := by
    refine nat_of_cast (rhoSum_eq _).1 (Nat.mod_lt _ (by decide)) ?_
    rw [e, cast_mod, Nat.cast_add, ← q]
    unfold Acc.colGap; ring
  simp [this]

theorem sound_corner {a : Acc} (h : a.Sound) (hn : a.nonFinite = []) : a.badCorner = false := by
  have q := (h.fin hn).2
  have cx : rhoSum (a.x.map Prod.snd) = a.z := by
    refine nat_of_cast (rhoSum_eq _).1 h.small ?_
    rw [(rhoSum_eq _).2, List.map_map]
    exact q.cornerX
  have cy : rhoSum (a.y.map Prod.snd) = a.z := by
    refine nat_of_cast (rhoSum_eq _).1 h.small ?_
    rw [(rhoSum_eq _).2, List.map_map]
    exact q.cornerY
  unfold Acc.badCorner
  simp [cx, cy]

theorem sound_classified {a : Acc} (h : a.Sound) : a.classified = true := by
  have key : ∀ i c, (i, c) ∈ (a.cols.flatMap fun c => c.2.elems.filterMap fun e =>
      match e.2 with | .fin _ => none | _ => some (e.1, c.1)) ↔ (i, c) ∈ a.nonFinite := by
    intro i c
    rw [← h.kinds, List.mem_flatMap]
    constructor
    · rintro ⟨y, hy, hm⟩
      obtain ⟨e, he, hv⟩ := List.mem_filterMap.1 hm
      have hf : e.2.isFin = false ∧ e.1 = i ∧ y.1 = c := by
        revert hv
        cases e.2 <;> intro hv <;> first | (cases hv; exact ⟨rfl, rfl, rfl⟩) | cases hv
      rw [nonfin_iff (col_asc h.ord c)]
      refine ⟨e.2, ?_, hf.1⟩
      unfold Acc.col mgetD
      rw [(mget_mem h.ord.asc (k := c) (v := y.2)).2 (by rw [← hf.2.2]; exact hy), ← hf.2.1]
      exact he
    · intro hf
      obtain ⟨e, he, hv⟩ := (nonfin_iff (col_asc h.ord c) i).1 hf
      unfold Acc.col mgetD at he
      cases hc : mget a.cols c with
      | none => rw [hc] at he; exact nomatch he
      | some y =>
        rw [hc] at he
        refine ⟨(c, y), (mget_mem h.ord.asc).1 hc, List.mem_filterMap.2 ⟨(i, e), he, ?_⟩⟩
        revert hv
        cases e <;> intro hv <;> first | cases hv; done | rfl
  unfold Acc.classified
  dsimp only
  rw [Bool.and_eq_true, List.all_eq_true, List.all_eq_true]
  refine ⟨fun x hx => ?_, fun x hx => ?_⟩
  · rw [List.contains_iff_mem]; exact (key x.1 x.2).1 hx
  · rw [List.contains_iff_mem]; exact (key x.1 x.2).2 hx

/-- The residue checks raise no false alarm (R78, R81). -/
theorem sound_passes {a : Acc} (h : a.Sound) : a.passes = true := by
  unfold Acc.passes
  split
  · rename_i hn
    have hn : a.nonFinite = [] := by simpa using hn
    rw [sound_rows h hn, sound_cols h hn, sound_corner h hn]
    rfl
  · exact sound_classified h

theorem reduce_sound {a : Acc} (h : a.Sound) (c : MatJob) (s : State) (r : Run) : (c.reduce s r a).Sound :=
  sound_fold (fun _ _ h => sound_stepRows h _ _) h _

end Sys2Proof.Machine
end

