-- ==== Sys2Proof/Laws/AttnRuns.lean ====
section
/-! SUPPORT. An ATTN hitch that meets its conditions and no error ends with no blocking status (R199 to R225): what each stage of
its run keeps, `AttnRun.Fit`, and that every stage keeps it. -/

namespace Sys2Proof.Machine

/-- s is t as far as a running hitch of a strand is concerned: module memory stays readable, the pages and the strand's scratch are
as they were, and, where q holds, so is every byte of module memory. -/
structure Fit (q : Prop) (t : State) (r : Run) (s : State) : Prop where
  calm : Calm t s
  kv : s.kv = t.kv
  lines : (s.strand r.st).badLines = []
  low : q → ∀ x, x < 2 ^ 48 → bget s.mem x = bget t.mem x

variable {q : Prop} {t s : State} {r : Run}

theorem Fit.step (h : Fit q t r s) {v : State} (c : Calm s v) (k : v.kv = s.kv) (l : (v.strand r.st).badLines = [])
    (m : q → ∀ x, x < 2 ^ 48 → bget v.mem x = bget s.mem x) : Fit q t r v :=
  ⟨h.calm.trans c, k.trans h.kv, l, fun hq x hx => (m hq x hx).trans (h.low hq x hx)⟩

theorem Fit.regs (h : Fit q t r s) (m : Map Nat) : Fit q t r { s with regs := m } :=
  h.step (calm_same rfl rfl rfl) rfl h.lines fun _ _ _ => rfl

theorem Fit.setReg (h : Fit q t r s) (a v : Nat) : Fit q t r (s.setReg a v) := h.regs _

theorem Fit.inc (h : Fit q t r s) (a : Nat) : Fit q t r (s.inc a) := h.regs _

theorem Fit.bump (h : Fit q t r s) (a n : Nat) : Fit q t r (s.bump a n) := h.regs _

theorem Fit.arith (h : Fit q t r s) (st f : Nat) : Fit q t r (s.arith st f) := h.regs _

theorem Fit.modStrand (h : Fit q t r s) (i : Nat) {f : Strand → Strand} (hf : ∀ x, x.badLines = [] → (f x).badLines = []) :
    Fit q t r (s.modStrand i f) := by
  refine h.step (calm_same rfl rfl rfl) rfl ?_ fun _ _ _ => rfl
  by_cases e : r.st = i
  · rw [← e, strand_modStrand_self]; exact hf _ h.lines
  · rw [strand_modStrand_other _ _ _ _ e]; exact h.lines

theorem Fit.lineRead (h : Fit q t r s) {v : State} (c : Calm s v) (m : ∀ f, f ∉ lineFields → Same f s v) : Fit q t r v := by
  refine h.step c (m .kv (by decide)) ?_ fun _ _ _ => ?_
  · have e : v.strands = s.strands := m .strands (by decide)
    have := h.lines
    unfold State.strand at *
    rw [e]; exact this
  · rw [show v.mem = s.mem from m .mem (by decide)]

theorem place_high (r : Run) (space a : Nat) : 2 ^ 48 ≤ r.place space a := by
  unfold Run.place scratchBase regionBase
  split <;> omega

theorem Fit.put (h : Fit q t r s) {a : Nat} (ha : 2 ^ 48 ≤ a) (bs : List Byte) : Fit q t r (s.put a bs) := by
  have h1 : Fit q t r (s.poke a bs) :=
    h.step (calm_same rfl rfl rfl) rfl h.lines fun _ x hx => bget_writeBytes_other _ _ _ _ (.inl (by omega))
  unfold State.put State.wrote
  split
  · exact h1
  · dsimp only
    split
    · exact h1
    · refine h1.modStrand _ fun x hx => ?_
      show x.badLines.filter _ = []
      rw [hx]; rfl

theorem Fit.fold {α : Type} {f : State → α → State} (l : List α) (h : Fit q t r s) (hf : ∀ s x, x ∈ l → Fit q t r s → Fit q t r (f s x)) :
    Fit q t r (foldS f s l) := by
  induction l generalizing s with
  | nil => exact h
  | cons x l ih => exact ih (hf s x List.mem_cons_self h) fun s y hy => hf s y (List.mem_cons_of_mem _ hy)

theorem Fit.noteScales (h : Fit q t r s) (st : Nat) (sc : List Byte) : Fit q t r (s.noteScales st sc) := by
  unfold State.noteScales
  split
  · exact h.arith _ _
  · exact h

/-- What the stages of a run rest on: the hitch's partition can read its memory, from one of the four dies. -/
structure Ground (t : State) (r : Run) : Prop where
  mem : t.memGood r.p
  die : r.die < 4

theorem Ground.src (g : Ground t r) : ∀ d, some r.die = some d → d < 4 := fun d h => by cases h; exact g.die

theorem Fit.fetch (h : Fit q t r s) (g : Ground t r) {a n : Nat} (ok : t.pmaOk r.p a n = true) :
    ∃ v, s.fetchP (some r.die) r.p a n [] = (stOk, if n = 0 then [] else s.peekP r.p a n, v) ∧ Fit q t r v := by
  obtain ⟨v, e, c, m⟩ := fetchP_good (h.calm.memGood g.mem) g.src (a := a) (n := n) (by rw [h.calm.pmaOk]; exact ok)
  exact ⟨v, e, h.lineRead c m⟩

theorem Fit.fetchSome (h : Fit q t r s) (g : Ground t r) {a n : Nat} (hn : n ≠ 0) (ok : t.pmaOk r.p a n = true) :
    ∃ v, s.fetchP (some r.die) r.p a n [] = (stOk, s.peekP r.p a n, v) ∧ Fit q t r v := by
  obtain ⟨v, e, hv⟩ := h.fetch g ok
  rw [if_neg hn] at e
  exact ⟨v, e, hv⟩

/-- A page half holds its rows: a row and its scales at each position below the capacity (R229). -/
theorem page_fits (rp sb cap p0 n : Nat) (h : p0 + n ≤ cap) (hc : cap * (rp + sb) ≤ 32768) :
    p0 * rp + n * rp ≤ 32768 ∧ cap * rp + p0 * sb + n * sb ≤ 32768 := by
  have e1 : p0 * rp + n * rp = (p0 + n) * rp := by ring
  have e2 : cap * rp + p0 * sb + n * sb = cap * rp + (p0 + n) * sb := by ring
  have m1 : (p0 + n) * rp ≤ cap * rp := Nat.mul_le_mul_right _ h
  have m2 : (p0 + n) * sb ≤ cap * sb := Nat.mul_le_mul_right _ h
  have e3 : cap * (rp + sb) = cap * rp + cap * sb := by ring
  constructor
  · rw [e1]; omega
  · rw [e2]; omega

theorem Fit.descRows (h : Fit q t r s) (g : Ground t r) {d : Desc} (hd : t.descGood r d) (half p0 n : Nat) (hh : half ≤ 1)
    (hn : d.bight = false → p0 + n ≤ d.count) :
    ∃ rows v, s.descRows r d half p0 n [] = (stOk, rows, v) ∧ Fit q t r v := by
  unfold State.descRows
  unfold State.descGood at hd
  unfold codeWidth at hd
  dsimp only at hd ⊢
  split
  · rename_i hb
    rw [if_pos hb] at hd
    have e : s.inBight r.die r.p (d.addr / 256) (bightSlots ((Fmt.ofCode d.fmt).getD .bf16).width d.mx (32 * (d.d32 + 1))) = true := by
      unfold State.inBight State.bightRegion at *
      rw [h.kv]; exact hd
    rw [e]
    exact ⟨_, _, rfl, h.noteScales _ _⟩
  · rename_i hb
    rw [if_neg hb] at hd
    have hb' : d.bight = false := by simpa using hb
    have hc : p0 + n ≤ pageCap ((Fmt.ofCode d.fmt).getD .bf16).width d.mx (32 * (d.d32 + 1)) := Nat.le_trans (hn hb') hd.2
    generalize ((Fmt.ofCode d.fmt).getD .bf16).width = w at *
    have hcap : pageCap w d.mx (32 * (d.d32 + 1)) * (rowPitch w (32 * (d.d32 + 1)) + scaleBytes d.mx (32 * (d.d32 + 1))) ≤ 32768 := by
      unfold pageCap
      exact Nat.div_mul_le_self _ _
    generalize pageCap w d.mx (32 * (d.d32 + 1)) = cap at *
    generalize rowPitch w (32 * (d.d32 + 1)) = rp at *
    generalize scaleBytes d.mx (32 * (d.d32 + 1)) = sb at *
    obtain ⟨f1, f2⟩ := page_fits rp sb cap p0 n hc hcap
    have hh2 : half * 32768 ≤ 32768 := by omega
    obtain ⟨v, e, hv⟩ := h.fetch g (a := d.addr + half * 32768 + p0 * rp) (n := n * rp)
      (pmaOk_part g.mem hd.1 (by omega) (by omega))
    rw [e]
    obtain ⟨v2, e2, hv2⟩ := hv.fetch g (a := d.addr + half * 32768 + cap * rp + p0 * sb) (n := n * sb)
      (pmaOk_part g.mem hd.1 (by omega) (by omega))
    rw [if_neg (by simp)]
    dsimp only
    rw [e2]
    dsimp only
    rw [if_neg (by simp)]
    exact ⟨_, _, rfl, hv2.noteScales _ _⟩

theorem Fit.kvRows (g : Ground t r) (ds : List Desc) (hd : ∀ d ∈ ds, t.descGood r d) (half lo n : Nat) (hh : half ≤ 1) {s : State}
    (h : Fit q t r s) : ∃ rows v, s.kvRows r ds half lo n [] = (stOk, rows, v) ∧ Fit q t r v := by
  induction ds generalizing s with
  | nil => exact ⟨_, _, rfl, h⟩
  | cons d rest ih =>
    have ih := fun {s} (h : Fit q t r s) => ih (fun x hx => hd x (List.mem_cons_of_mem _ hx)) h
    unfold State.kvRows
    dsimp only
    split
    · rename_i hab
      obtain ⟨rows, v, e, hv⟩ := h.descRows g (hd d List.mem_cons_self) half (max lo d.pos0 - d.pos0)
        (min (lo + n) (d.pos0 + d.count) - max lo d.pos0) hh fun _ => by omega
      rw [e]
      dsimp only
      rw [if_neg (by simp)]
      obtain ⟨rows2, v2, e2, hv2⟩ := ih hv
      rw [e2]
      exact ⟨_, _, rfl, hv2⟩
    · exact ih h

theorem Fit.weaken (h : Fit q t r s) {q2 : Prop} (f : q2 → q) : Fit q2 t r s := ⟨h.calm, h.kv, h.lines, fun x => h.low (f x)⟩

theorem peekP_low {s t : State} (o : s.owners = t.owners) (h : ∀ x, x < 2 ^ 48 → bget s.mem x = bget t.mem x) (p a n : Nat) :
    s.peekP p a n = t.peekP p a n := by
  unfold State.peekP
  cases e : unitOf a with
  | none => rfl
  | some ux =>
    obtain ⟨u, x⟩ := ux
    have hu := unitOf_lt e
    dsimp only [Option.map_some]
    have eg : s.granules p u = t.granules p u := by unfold State.granules; rw [o]
    rw [eg]
    refine List.map_congr_left fun i _ => ?_
    split
    · rename_i k hk
      refine h _ ?_
      have hm := List.mem_of_getElem? hk
      unfold State.granules at hm
      obtain ⟨y, _, rfl⟩ := List.mem_map.1 hm
      have : y.1 % 256 < 256 := Nat.mod_lt _ (by decide)
      have h2 : (x + i) % granule < granule := Nat.mod_lt _ (by decide)
      unfold unitBase granule at *
      split <;> omega
    · rfl

theorem Fit.peekP (h : Fit True t r s) (p a n : Nat) : s.peekP p a n = t.peekP p a n :=
  peekP_low h.calm.owners (h.low trivial) p a n

theorem Fit.readDescs (g : Ground t r) (dqk kv : Nat) (ds : List Desc) (fuel : Nat) (at_ next : Nat) {s : State}
    (h : Fit True t r s) (hd : t.descsGood r dqk kv at_ next ds) :
    ∃ l v, State.readDescs fuel s r at_ next kv dqk [] = (stOk, l, v) ∧ Fit True t r v ∧ ∀ d ∈ l, t.descGood r d := by
  induction fuel generalizing s at_ next ds with
  | zero => exact ⟨[], s, rfl, h, fun _ hx => nomatch hx⟩
  | succ k ih =>
    unfold State.readDescs
    cases ds with
    | nil =>
      have hd : kv ≤ next := hd
      rw [if_pos hd]
      exact ⟨[], s, rfl, h, fun _ hx => nomatch hx⟩
    | cons d rest =>
      obtain ⟨h1, h2, h3, h4, h5, h6, h7, h8, h9⟩ := hd
      rw [if_neg (by omega)]
      obtain ⟨v, e, hv⟩ := h.fetchSome g (by decide) h2
      rw [e]
      dsimp only
      rw [if_neg (by simp), h.peekP, h3, if_neg (by omega), if_neg (by
        rw [Option.isNone_iff_eq_none]
        intro hn
        rcases hn with hn | hn
        · rw [hn] at h6; exact nomatch h6
        · omega)]
      obtain ⟨l, v2, e2, hv2, hl⟩ := ih rest (at_ + 32) (next + d.count) hv h9
      rw [e2]
      refine ⟨_, _, rfl, hv2, fun x hx => ?_⟩
      rcases List.mem_cons.1 hx with hx | hx
      · rw [hx]; exact h8
      · exact hl x hx

/-! The run -/

/-- A run that has met no error, and the areas of the entries it has seen. -/
structure AttnFit (q : Prop) (t : State) (r : Run) (z : List Area × List Area) (a : AttnRun) : Prop where
  ok : a.status = stOk
  u : a.u = Upset.none
  fit : Fit q t r a.s
  seen : (a.qSeen, a.oSeen) = z

variable {a : AttnRun} {z : List Area × List Area}

theorem AttnFit.noMem (h : AttnFit q t r z a) : a.u.mem = [] := by rw [h.u]; rfl

theorem AttnFit.goes (h : AttnFit q t r z a) : isBlocking a.status = false := by rw [h.ok]; rfl

theorem AttnFit.on (h : AttnFit q t r z a) (f : State → State) (hf : Fit q t r (f a.s)) : AttnFit q t r z (a.on f) := ⟨h.ok, h.u, hf, h.seen⟩

theorem AttnFit.andThen (h : AttnFit q t r z a) {f : AttnRun → AttnRun} (hf : AttnFit q t r z (f a)) : AttnFit q t r z (a.andThen f) := by
  unfold AttnRun.andThen
  rw [h.goes]
  exact hf

theorem AttnFit.each {α : Type} {f : AttnRun → α → AttnRun} (l : List α) (h : AttnFit q t r z a)
    (hf : ∀ a x, x ∈ l → AttnFit q t r z a → AttnFit q t r z (f a x)) : AttnFit q t r z (a.each l f) := by
  unfold AttnRun.each
  induction l generalizing a with
  | nil => exact h
  | cons x l ih =>
    exact ih (h.andThen (hf a x List.mem_cons_self h)) fun a y hy => hf a y (List.mem_cons_of_mem _ hy)

theorem reduceRow_sound {a : Acc} (h : a.Sound) (as_ : List Num) (bks : List (List Num)) : (a.reduceRow as_ bks).Sound :=
  sound_fold (fun _ _ h => sound_stepRows h _ _) h _

theorem addBlock_sound {a : Acc} (h : a.Sound) (lo : Nat) (as_ : List (Nat × Num)) (brows : List (List Num)) :
    (a.addBlock lo as_ brows).Sound :=
  sound_fold (fun _ _ h => sound_stepRows h _ _) h _

theorem AttnFit.check (h : AttnFit q t r z a) {accs : List Acc} (hs : ∀ x ∈ accs, x.Sound) : AttnFit q t r z (a.check r accs) := by
  have e : (((upTo accs.length).zip accs).map fun p => p.2.upset { Upset.none with
      anchor := Upset.none.anchor,
      flip := match Upset.none.flip with
        | some (i, c, d) => if i = p.1 then some (0, c, d) else none
        | none => none }) = accs := by
    have : ∀ p ∈ (upTo accs.length).zip accs, p.2.upset { Upset.none with
      anchor := Upset.none.anchor,
      flip := match Upset.none.flip with
        | some (i, c, d) => if i = p.1 then some (0, c, d) else none
        | none => none } = p.2 := fun p hp => sound_upset (hs _ (List.of_mem_zip hp).2) rfl rfl rfl
    rw [List.map_congr_left this]
    unfold upTo
    rw [List.map_snd_zip]
    simp
  have hp : ∀ part : Bool, part = (accs.any fun x => !(x.nonFinite.isEmpty)) →
      (part && accs.any fun x => !(x.classified)) = false ∧
      ((upTo accs.length).zip accs).filter (fun p => !part && !(p.2.badRows.isEmpty)) = [] ∧
      (if part = true then [] else accs.flatMap fun x => x.badCols) = [] := by
    intro part ep
    refine ⟨?_, ?_, ?_⟩
    · have : (accs.any fun x => !(x.classified)) = false := by
        rw [List.any_eq_false]
        intro x hx
        rw [sound_classified (hs x hx)]; simp
      rw [this, Bool.and_false]
    all_goals
      cases part with
      | true => simp
      | false =>
        have nf : ∀ x ∈ accs, x.nonFinite = [] := by
          intro x hx
          have := List.any_eq_false.1 ep.symm x hx
          simpa using this
        first
        | (rw [List.filter_eq_nil_iff]
           intro p hp
           have hm := (List.of_mem_zip hp).2
           rw [sound_rows (hs _ hm) (nf _ hm)]; simp)
        | (rw [if_neg (by simp), List.flatMap_eq_nil_iff]
           intro x hx
           exact sound_cols (hs x hx) (nf x hx))
  unfold AttnRun.check
  rw [h.u]
  extract_lets now u src a2 st accs2 s1 part s2 classBad rows cols corner
  have eu : u = Upset.none := rfl
  have ea : accs2 = accs := e
  obtain ⟨p1, p2, p3⟩ := hp part (by show (accs2.any fun x => !(x.nonFinite.isEmpty)) = _; rw [ea])
  have q1 : classBad = false := by show (part && accs2.any fun x => !(x.classified)) = false; rw [ea]; exact p1
  have q2 : rows = [] := by
    show ((upTo accs2.length).zip accs2).filter (fun p => !part && !(p.2.badRows.isEmpty)) = []
    rw [ea]; exact p2
  have q3 : cols = [] := by show (if part = true then [] else accs2.flatMap fun x => x.badCols) = []; rw [ea]; exact p3
  have q4 : corner = false := by
    show (!part && Upset.none.corner % checkPrime != 0) = false
    rw [show (Upset.none.corner % checkPrime != 0) = false from rfl, Bool.and_false]
  have f1 : Fit q t r s2 := by
    have : Fit q t r s1 := h.fit.bump _ _
    show Fit q t r (if part = true then s1.inc _ else s1)
    split
    · exact this.inc _
    · exact this
  rw [eu, q1, q2, q3, q4]
  rw [if_neg (by decide), if_neg (by decide), if_neg (by decide)]
  exact ⟨h.ok, by show Upset.none = _; rfl, f1, h.seen⟩

theorem badRead_none {s : State} {st : Nat} (h : (s.strand st).badLines = []) (rs : List (Nat × Nat)) : s.badRead st rs = none := by
  unfold State.badRead
  rw [h]; rfl

theorem AttnFit.rowsOf (h : AttnFit q t r z a) (space addr stride scale : Nat) (f : Fmt) (mx : Bool) (k r0 n : Nat) :
    AttnFit q t r z (a.rowsOf r space addr stride scale f mx k r0 n).2 := by
  unfold AttnRun.rowsOf
  dsimp only
  have key : ∀ l : List (Nat × List Byte × List Byte), AttnFit q t r z
      (a.on fun s => foldS (fun s x => s.noteScales r.st x.2.2) s l) := fun l =>
    h.on _ (Fit.fold l h.fit fun s x _ hs => hs.noteScales _ _)
  generalize ((upTo n).map fun i => (addr + (r0 + i) * stride,
      a.s.peek (r.place space (addr + (r0 + i) * stride)) (packedBytes f.width k),
      a.s.peek (r.place space (scale + (r0 + i) * scaleBytes mx k)) (scaleBytes mx k))) = read
  have k1 := key read
  have nb := badRead_none k1.fit.lines
  by_cases h0 : space = 0
  · simp only [h0, if_true]
    rw [nb]
    exact ⟨k1.ok, k1.u, k1.fit, k1.seen⟩
  · simp only [h0, if_false]
    exact k1

theorem toLe_length (n v : Nat) : (toLe n v).length = n := by
  induction n generalizing v with
  | zero => rfl
  | succ k ih => simp [toLe, ih]

theorem packElems_length (w : Nat) (l : List Nat) : (packElems w l).length = packedBytes w l.length := toLe_length _ _

theorem AttnFit.store (h : AttnFit q t r z a) (g : Ground t r) (nq : ¬q) {pma : Nat} {bs : List Byte}
    (ok : t.pmaOk r.p pma bs.length = true) : AttnFit q t r z (a.store r pma bs) := by
  unfold AttnRun.store
  split
  · exact h
  · obtain ⟨v, e, c, m⟩ := storeP_good (h.fit.calm.memGood g.mem) g.src (a := pma) (bs := bs) (by rw [h.fit.calm.pmaOk]; exact ok)
    dsimp only
    rw [h.noMem, e]
    refine ⟨by dsimp only; rw [if_pos rfl]; exact h.ok, h.u, h.fit.step c (m .kv (by decide)) ?_ fun hq => absurd hq nq, h.seen⟩
    have es : v.strands = a.s.strands := m .strands (by decide)
    have := h.fit.lines
    unfold State.strand at *
    rw [es]; exact this

theorem AttnFit.putScores (h : AttnFit q t r z a) (c : Attn) (e : LenEntry) (i x j0 width : Nat) (codes : List Nat)
    (hj : j0 < 32768) : AttnFit q t r z (a.putScores r c e i x j0 width codes) := by
  unfold AttnRun.putScores
  dsimp only
  rw [if_pos hj]
  exact h.on _ (h.fit.put (place_high _ _ _) _)

theorem readSpill_low (a : AttnRun) (r : Run) (c : Attn) (x j0 n : Nat) (hj : j0 < 32768) : a.readSpill r c x j0 n = a := by
  unfold AttnRun.readSpill
  rw [if_pos (by simp [hj])]

theorem AttnFit.ofState (h : AttnFit q t r z a) {s : State} (hs : Fit q t r s) : AttnFit q t r z { a with s := s } := ⟨h.ok, h.u, hs, h.seen⟩

/-- The rows of a list have row indices from lo to hi − 1. -/
def RowsIn (lo hi : Nat) (rows : List AttnRow) : Prop := ∀ row ∈ rows, lo ≤ row.x ∧ row.x < hi

theorem AttnFit.scoreBlock (h : AttnFit q t r z a) (g : Ground t r) (c : Attn) (e : LenEntry) {ds : List Desc}
    (hd : ∀ d ∈ ds, t.descGood r d) (rows : List AttnRow) {b : Nat} (hb : 128 * b < 32768) {lo hi : Nat} (hx : RowsIn lo hi rows) :
    AttnFit q t r z (a.scoreBlock r c e ds true rows b).1 ∧ RowsIn lo hi (a.scoreBlock r c e ds true rows b).2 := by
  unfold AttnRun.scoreBlock
  dsimp only
  obtain ⟨kr, v, ek, hv⟩ := Fit.kvRows g ds hd 0 (e.block b).1 (e.block b).2 (by decide) h.fit
  rw [h.noMem, ek]
  dsimp only
  rw [if_neg (by simp)]
  have hc := (h.ofState hv).check (accs := rows.map fun row => Acc.empty.reduceRow row.q (transposed c.dqk kr)) fun x hx => by
    obtain ⟨row, _, rfl⟩ := List.mem_map.1 hx
    exact reduceRow_sound empty_sound _ _
  rw [hc.goes]
  rw [if_neg (by simp), if_pos rfl]
  constructor
  · refine AttnFit.each _ (hc.on _ (hc.fit.arith _ _)) fun a row _ ha => ?_
    exact ha.putScores _ _ _ _ _ _ _ hb
  · intro row hr
    obtain ⟨o, ho, rfl⟩ := List.mem_map.1 hr
    obtain ⟨p, hp, rfl⟩ := List.mem_map.1 ho
    exact hx p.1 (List.of_mem_zip hp).1

theorem AttnFit.reduceAll (h : AttnFit q t r z a) (g : Ground t r) (c : Attn) (e : LenEntry) {ds : List Desc}
    (hd : ∀ d ∈ ds, t.descGood r d) (half : Nat) (hh : half ≤ 1) (blocks : List Nat) (as_ : List (List (Nat × Num))) :
    AttnFit q t r z (a.reduceAll r c e ds half blocks as_).1 ∧ ∀ x ∈ (a.reduceAll r c e ds half blocks as_).2, x.Sound := by
  unfold AttnRun.reduceAll
  have h0 : ∀ x ∈ as_.map fun _ => Acc.empty, x.Sound := fun x hx => by
    obtain ⟨y, _, rfl⟩ := List.mem_map.1 hx; exact empty_sound
  revert h h0
  generalize (as_.map fun _ => Acc.empty) = accs
  induction blocks generalizing a accs with
  | nil => exact fun h h0 => ⟨h, h0⟩
  | cons b l ih =>
    intro h h0
    rw [foldS, h.goes, if_neg (by simp)]
    dsimp only
    obtain ⟨kr, v, ek, hv⟩ := Fit.kvRows g ds hd half (e.block b).1 (e.block b).2 hh h.fit
    rw [h.noMem, ek]
    dsimp only
    rw [if_neg (by simp)]
    refine ih _ (h.ofState hv) fun x hx => ?_
    obtain ⟨y, hy, rfl⟩ := List.mem_map.1 hx
    exact addBlock_sound (h0 _ (List.of_mem_zip hy).1) _ _ _

theorem AttnFit.output (h : AttnFit q t r z a) (c : Attn) (bwd : Bool) (rows : List AttnRow) (vals : List (List Num)) :
    AttnFit q t r z (a.output r c bwd rows vals) := by
  unfold AttnRun.output
  refine AttnFit.each _ h fun a p _ ha => ?_
  dsimp only
  split
  · exact ha.on _ (((ha.fit.put (place_high _ _ _) _).put (place_high _ _ _) _).arith _ _)
  · exact ha.on _ ((ha.fit.put (place_high _ _ _) _).arith _ _)

theorem AttnFit.countRows (h : AttnFit q t r z a) (rows : List AttnRow) (accs : List Acc) : AttnFit q t r z (a.countRows r rows accs) :=
  ⟨h.ok, h.u, ((h.fit.bump _ _).bump _ _).bump _ _, h.seen⟩

theorem seenBlocks_low (e : LenEntry) (qs : List Nat) (hk : e.kv ≤ 32768) {b : Nat} (hb : b ∈ (e.seenBlocks qs).1) : 128 * b < 32768 := by
  unfold LenEntry.seenBlocks at hb
  have := (List.mem_filter.1 hb).1
  have := List.mem_range.1 this
  omega

theorem AttnFit.blocks (g : Ground t r) (c : Attn) (e : LenEntry) {ds : List Desc} (hd : ∀ d ∈ ds, t.descGood r d) {lo hi : Nat}
    (l : List Nat) (hl : ∀ b ∈ l, 128 * b < 32768) {p : AttnRun × List AttnRow} (h : AttnFit q t r z p.1) (hx : RowsIn lo hi p.2) :
    AttnFit q t r z (foldS (fun (p : AttnRun × List AttnRow) b =>
      if isBlocking p.1.status then p else p.1.scoreBlock r c e ds true p.2 b) p l).1 ∧
    RowsIn lo hi (foldS (fun (p : AttnRun × List AttnRow) b =>
      if isBlocking p.1.status then p else p.1.scoreBlock r c e ds true p.2 b) p l).2 := by
  induction l generalizing p with
  | nil => exact ⟨h, hx⟩
  | cons b l ih =>
    rw [foldS, h.goes, if_neg (by simp)]
    have s := h.scoreBlock g c e hd p.2 (hl b List.mem_cons_self) hx
    exact ih (fun x hx => hl x (List.mem_cons_of_mem _ hx)) s.1 s.2

theorem pass2_x (row : AttnRow) (sat : Bool) : (row.pass2 sat).1.x = row.x := by
  unfold AttnRow.pass2
  split
  · rfl
  · split <;> rfl

theorem each_none (l : List α) {f : AttnRun → α → AttnRun} {a : AttnRun} (ha : isBlocking a.status = false) (hf : ∀ x ∈ l, f a x = a) :
    a.each l f = a := by
  unfold AttnRun.each AttnRun.andThen
  induction l with
  | nil => rfl
  | cons x l ih =>
    rw [foldS]
    dsimp only
    rw [ha, if_neg (by simp), hf x List.mem_cons_self]
    exact ih fun y hy => hf y (List.mem_cons_of_mem _ hy)

/-- A tile of a FORWARD hitch (R205 to R210). -/
theorem AttnFit.forwardTile (h : AttnFit q t r z a) (g : Ground t r) (c : Attn) (e : LenEntry) {ds : List Desc}
    (hd : ∀ d ∈ ds, t.descGood r d) (hk : e.kv ≤ 32768) (t0 n : Nat) (nq : c.save = true → ¬q)
    (hs : c.save = true → ∀ x, e.row0 + t0 ≤ x → x < e.row0 + t0 + n → t.pmaOk r.p (c.stats + 8 * x) 8 = true) :
    AttnFit q t r z (a.forwardTile r c e ds t0 n) := by
  unfold AttnRun.forwardTile
  have h1 := h.rowsOf c.qs c.q c.qstr c.qsc c.qf c.qmx c.dqk (e.row0 + t0) n
  generalize a.rowsOf r c.qs c.q c.qstr c.qsc c.qf c.qmx c.dqk (e.row0 + t0) n = ro at *
  obtain ⟨qv, a1⟩ := ro
  dsimp only at h1 ⊢
  have hx : RowsIn (e.row0 + t0) (e.row0 + t0 + n) (((upTo n).zip qv).map fun p =>
      ({ i := p.1, x := e.row0 + t0 + p.1, qpos := e.pos0 + (t0 + p.1) / c.g, q := p.2, scores := [], m := 0, l := 0,
         lost := false } : AttnRow)) := by
    intro row hr
    obtain ⟨p, hp, rfl⟩ := List.mem_map.1 hr
    have := List.mem_range.1 (List.of_mem_zip hp).1
    dsimp only
    omega
  generalize (((upTo n).zip qv).map fun p =>
      ({ i := p.1, x := e.row0 + t0 + p.1, qpos := e.pos0 + (t0 + p.1) / c.g, q := p.2, scores := [], m := 0, l := 0,
         lost := false } : AttnRow)) = rows at *
  have hl := fun b hb => seenBlocks_low e (rows.map AttnRow.qpos) hk (b := b) hb
  generalize e.seenBlocks (rows.map AttnRow.qpos) = bl at *
  obtain ⟨blocks, skipped⟩ := bl
  dsimp only at hl ⊢
  have h2 : AttnFit q t r z (a1.on fun s => (s.bump (Reg.atnBlockCount r.g) blocks.length).bump (Reg.atnSkipCount r.g) skipped) :=
    h1.on _ ((h1.fit.bump _ _).bump _ _)
  generalize (a1.on fun s => (s.bump (Reg.atnBlockCount r.g) blocks.length).bump (Reg.atnSkipCount r.g) skipped) = a2 at *
  have h3 := AttnFit.blocks g c e hd blocks hl (p := (a2, rows)) h2 hx
  generalize foldS (fun (p : AttnRun × List AttnRow) b =>
    if isBlocking p.1.status then p else p.1.scoreBlock r c e ds true p.2 b) (a2, rows) blocks = sb at *
  obtain ⟨a3, rows3⟩ := sb
  dsimp only at h3 ⊢
  have noSpill : ∀ (a : AttnRun) (rows : List AttnRow), AttnFit q t r z a →
      (a.each rows fun a row => a.each blocks fun a b => a.readSpill r c row.x (128 * b) (e.block b).2) = a := fun a rows ha =>
    each_none _ ha.goes fun row _ => each_none _ ha.goes fun b hb => readSpill_low _ _ _ _ _ _ (hl b hb)
  refine h3.1.andThen ?_
  rw [noSpill _ _ h3.1]
  have hx3 : RowsIn (e.row0 + t0) (e.row0 + t0 + n) ((rows3.map fun row => row.pass2 (hSat r.w)).map Prod.fst) := by
    intro row hr
    obtain ⟨o, ho, rfl⟩ := List.mem_map.1 hr
    obtain ⟨p, hp, rfl⟩ := List.mem_map.1 ho
    rw [pass2_x]
    exact h3.2 p hp
  generalize rows3.map (fun row => row.pass2 (hSat r.w)) = done at *
  generalize done.map Prod.fst = rows4 at *
  have h4 := h3.1.on (fun s => s.arith r.st ((done.map Prod.snd).foldl orBits 0)) (h3.1.fit.arith _ _)
  have h5 : AttnFit q t r z ((a3.on fun s => s.arith r.st ((done.map Prod.snd).foldl orBits 0)).each rows4 fun a row =>
      a.each blocks fun a b => a.putScores r c e row.i row.x (128 * b) 32
        ((row.exps.filter fun y => decide (128 * b ≤ y.1 ∧ y.1 < 128 * b + 128)).map fun y => y.2.1)) :=
    AttnFit.each _ h4 fun a row _ ha => AttnFit.each _ ha fun a b hb ha => ha.putScores _ _ _ _ _ _ _ (hl b hb)
  generalize ((a3.on fun s => s.arith r.st ((done.map Prod.snd).foldl orBits 0)).each rows4 fun a row =>
      a.each blocks fun a b => a.putScores r c e row.i row.x (128 * b) 32
        ((row.exps.filter fun y => decide (128 * b ≤ y.1 ∧ y.1 < 128 * b + 128)).map fun y => y.2.1)) = a5 at *
  have h6 : AttnFit q t r z (if c.save = true then a5.each rows4 fun a row => a.store r (c.stats + 8 * row.x) (toLe 4 row.m ++ toLe 4 row.l)
      else a5) := by
    split
    · rename_i sv
      refine AttnFit.each _ h5 fun a row hr ha => ha.store g (nq sv) ?_
      have hb := hx3 row hr
      have := hs sv row.x hb.1 hb.2
      simpa [toLe_length] using this
    · exact h5
  refine h6.andThen ?_
  generalize (if c.save = true then a5.each rows4 fun a row => a.store r (c.stats + 8 * row.x) (toLe 4 row.m ++ toLe 4 row.l)
      else a5) = a6 at *
  generalize (rows4.map fun row => if (row.isVoid || row.nonFinite) = true then [] else row.probs c (hSat r.w)) = ps at *
  have h7 := h6.on (fun s => s.arith r.st ((ps.map fun l => (l.map fun y => y.2.2.2).foldl orBits 0).foldl orBits 0)) (h6.fit.arith _ _)
  rw [noSpill _ _ h7]
  have h8 := h7.reduceAll g c e hd 1 (by decide) blocks (ps.map fun l => l.map fun y => (y.1, y.2.2.1))
  generalize AttnRun.reduceAll (a6.on fun s => s.arith r.st ((ps.map fun l => (l.map fun y => y.2.2.2).foldl orBits 0).foldl orBits 0)) r c e
    ds 1 blocks (ps.map fun l => l.map fun y => (y.1, y.2.2.1)) = ra at *
  obtain ⟨a8, accs⟩ := ra
  dsimp only at h8 ⊢
  have hc := h8.1.check (accs := accs) h8.2
  refine h8.1.andThen (hc.andThen ?_)
  have h9 := hc.output c false rows4 ((rows4.zip accs).map fun p => rowValues c.dv p.1.isVoid p.1.nonFinite p.2)
  generalize AttnRun.output (AttnRun.check a8 r accs) r c false rows4
    ((rows4.zip accs).map fun p => rowValues c.dv p.1.isVoid p.1.nonFinite p.2) = a9 at *
  refine AttnFit.countRows ?_ _ _
  exact ⟨h9.ok, h9.u, h9.fit, h9.seen⟩

/-- A part of a packed row lies in it. -/
theorem packed_part (w b n kv : Nat) (h : 128 * b + n ≤ kv) : 128 * b * w / 8 + packedBytes w n ≤ packedBytes w kv := by
  unfold packedBytes
  have e : 128 * b * w / 8 = 16 * (b * w) := by
    rw [show 128 * b * w = 8 * (16 * (b * w)) by ring, Nat.mul_div_cancel_left _ (by decide)]
  have m : w * (128 * b + n) ≤ w * kv := Nat.mul_le_mul_left _ h
  have e2 : w * (128 * b + n) = 128 * (b * w) + w * n := by ring
  rw [e]
  omega

theorem gradients_length (row : AttnRow) (c : Attn) (sat : Bool) (lo n delta : Nat) (dP : Acc) :
    (row.gradients c sat lo n delta dP).1.length = n := by
  unfold AttnRow.gradients
  simp [upTo]

/-- What the rows of a BACKWARD entry store lies in the partition, and is nothing where q holds. -/
structure BackStores (q : Prop) (t : State) (r : Run) (c : Attn) (kv lo hi : Nat) : Prop where
  p : c.pOut ≠ 0 → ¬q ∧ ∀ x, lo ≤ x → x < hi → t.pmaOk r.p (c.pOut + x * c.outRow) (packedBytes c.pf.width kv) = true
  ds : c.dsOut ≠ 0 → ¬q ∧ ∀ x, lo ≤ x → x < hi → t.pmaOk r.p (c.dsOut + x * c.outRow) (packedBytes c.pf.width kv) = true

theorem AttnFit.backBlock (g : Ground t r) (c : Attn) (e : LenEntry) {ds : List Desc} (hd : ∀ d ∈ ds, t.descGood r d) (sat : Bool)
    (dov : List (List Num)) (deltas : List (Nat × Bool × Nat)) {lo hi : Nat} (hs : BackStores q t r c e.kv lo hi)
    {p : AttnRun × List AttnRow × List (List (Nat × Nat × Nat))} (h : AttnFit q t r z p.1) (hx : RowsIn lo hi p.2.1) {b : Nat}
    (hb : 128 * b < 32768) (hk : 128 * b < e.kv) :
    AttnFit q t r z (Machine.backBlock r c e ds sat dov deltas p b).1 ∧
    RowsIn lo hi (Machine.backBlock r c e ds sat dov deltas p b).2.1 := by
  obtain ⟨a, rows, grads⟩ := p
  unfold Machine.backBlock
  dsimp only at h hx ⊢
  rw [h.goes, if_neg (by simp)]
  have s1 := h.scoreBlock g c e hd rows hb hx
  generalize a.scoreBlock r c e ds true rows b = sb at *
  obtain ⟨a1, rows1⟩ := sb
  dsimp only at s1 ⊢
  rw [s1.1.goes, if_neg (by simp)]
  obtain ⟨kr, v, ek, hv⟩ := Fit.kvRows g ds hd 1 (e.block b).1 (e.block b).2 (by decide) s1.1.fit
  rw [s1.1.noMem, ek]
  dsimp only
  rw [if_neg (by simp)]
  have hc := (s1.1.ofState hv).check (accs := dov.map fun x => Acc.empty.reduceRow x (transposed c.dv (kr.map c.cols))) fun x hx => by
    obtain ⟨row, _, rfl⟩ := List.mem_map.1 hx
    exact reduceRow_sound empty_sound _ _
  generalize (dov.map fun x => Acc.empty.reduceRow x (transposed c.dv (kr.map c.cols))) = dps at *
  rw [hc.goes, if_neg (by simp)]
  constructor
  · refine AttnFit.each _ (hc.on _ (hc.fit.arith _ _)) fun a y hy ha => ?_
    have hrow := hx
    have hin := s1.2 y.1 (List.of_mem_zip hy).1
    have hlen : y.2.1.length = (e.block b).2 := by
      obtain ⟨z, _, hz⟩ := List.mem_map.1 (List.of_mem_zip hy).2
      rw [← hz]
      exact gradients_length _ _ _ _ _ _ _
    have eb : (e.block b).1 = 128 * b := rfl
    have en : 128 * b + (e.block b).2 ≤ e.kv := by
      show 128 * b + min 128 (e.kv - 128 * b) ≤ e.kv
      omega
    have part : ∀ (base : Nat) (l : List Nat), l.length = (e.block b).2 →
        t.pmaOk r.p (base + y.1.x * c.outRow) (packedBytes c.pf.width e.kv) = true →
        t.pmaOk r.p (base + (y.1.x * c.outRow + (e.block b).1 * c.pf.width / 8)) (packElems c.pf.width l).length = true := by
      intro base l hl ok
      rw [packElems_length, hl]
      have := packed_part c.pf.width b (e.block b).2 e.kv en
      refine pmaOk_part g.mem ok (by omega) ?_
      rw [eb]; omega
    rw [readSpill_low _ _ _ _ _ _ (by rw [eb]; exact hb)]
    have h1 : AttnFit q t r z (a.andThen fun a => if c.pOut = 0 then a
        else a.store r (c.pOut + (y.1.x * c.outRow + (e.block b).1 * c.pf.width / 8)) (packElems c.pf.width (y.2.1.map fun z => z.2.1))) := by
      refine ha.andThen ?_
      split
      · exact ha
      · rename_i hp
        exact ha.store g (hs.p hp).1 (part _ _ (by rw [List.length_map]; exact hlen) ((hs.p hp).2 _ hin.1 hin.2))
    have h2 := h1.andThen (f := fun a => a.putScores r c e y.1.i y.1.x (e.block b).1 c.pf.width (y.2.1.map fun z => z.2.2))
      (h1.putScores c e y.1.i y.1.x (e.block b).1 c.pf.width (y.2.1.map fun z => z.2.2) (by rw [eb]; exact hb))
    refine h2.andThen ?_
    split
    · exact h2
    · rename_i hp
      exact h2.store g (hs.ds hp).1 (part _ _ (by rw [List.length_map]; exact hlen) ((hs.ds hp).2 _ hin.1 hin.2))
  · intro row hr
    obtain ⟨y, hy, rfl⟩ := List.mem_map.1 hr
    exact s1.2 y.1 (List.of_mem_zip hy).1

theorem AttnFit.backBlocks (g : Ground t r) (c : Attn) (e : LenEntry) {ds : List Desc} (hd : ∀ d ∈ ds, t.descGood r d) (sat : Bool)
    (dov : List (List Num)) (deltas : List (Nat × Bool × Nat)) {lo hi : Nat} (hs : BackStores q t r c e.kv lo hi)
    (l : List Nat) (hl : ∀ b ∈ l, 128 * b < 32768 ∧ 128 * b < e.kv)
    {p : AttnRun × List AttnRow × List (List (Nat × Nat × Nat))} (h : AttnFit q t r z p.1) (hx : RowsIn lo hi p.2.1) :
    AttnFit q t r z (foldS (Machine.backBlock r c e ds sat dov deltas) p l).1 := by
  induction l generalizing p with
  | nil => exact h
  | cons b l ih =>
    have hb := hl b List.mem_cons_self
    have s := AttnFit.backBlock g c e hd sat dov deltas hs h hx hb.1 hb.2
    exact ih (fun x hx => hl x (List.mem_cons_of_mem _ hx)) s.1 s.2

theorem seenBlocks_kv (e : LenEntry) (qs : List Nat) {b : Nat} (hb : b ∈ (e.seenBlocks qs).1) : 128 * b < e.kv := by
  unfold LenEntry.seenBlocks at hb
  have := (List.mem_filter.1 hb).1
  have := List.mem_range.1 this
  omega

/-- A tile of a BACKWARD hitch (R222). -/
theorem AttnFit.backwardTile (h : AttnFit q t r z a) (g : Ground t r) (c : Attn) (e : LenEntry) {ds : List Desc}
    (hd : ∀ d ∈ ds, t.descGood r d) (hk : e.kv ≤ 32768) (t0 n : Nat) (hst : t.pmaOk r.p (c.stats + 8 * (e.row0 + t0)) (8 * n) = true)
    (hs : BackStores q t r c e.kv (e.row0 + t0) (e.row0 + t0 + n)) :
    AttnFit q t r z (a.backwardTile r c e ds t0 n) := by
  unfold AttnRun.backwardTile
  dsimp only
  have h1 := h.rowsOf c.qs c.q c.qstr c.qsc c.qf c.qmx c.dqk (e.row0 + t0) n
  generalize a.rowsOf r c.qs c.q c.qstr c.qsc c.qf c.qmx c.dqk (e.row0 + t0) n = ro1 at *
  obtain ⟨qv, a1⟩ := ro1
  dsimp only at h1 ⊢
  have h2 := h1.rowsOf c.os c.dO c.ostr c.osc c.of_ c.omx c.dv (e.row0 + t0) n
  generalize AttnRun.rowsOf a1 r c.os c.dO c.ostr c.osc c.of_ c.omx c.dv (e.row0 + t0) n = ro2 at *
  obtain ⟨dov, a2⟩ := ro2
  dsimp only at h2 ⊢
  have h3 := h2.rowsOf c.os c.o c.ostr c.osc c.of_ c.omx c.dv (e.row0 + t0) n
  generalize AttnRun.rowsOf a2 r c.os c.o c.ostr c.osc c.of_ c.omx c.dv (e.row0 + t0) n = ro3 at *
  obtain ⟨ov, a3⟩ := ro3
  dsimp only at h3 ⊢
  rw [h3.goes, if_neg (by simp)]
  obtain ⟨v, ev, hv⟩ := h3.fit.fetch g hst
  rw [h3.noMem, ev]
  dsimp only
  rw [if_neg (by simp)]
  generalize (if 8 * n = 0 then [] else a3.s.peekP r.p (c.stats + 8 * (e.row0 + t0)) (8 * n)) = sb
  generalize ((dov.zip ov).map fun p => deltaOf (hSat r.w) p.1 p.2) = deltas
  have h4 := (h3.ofState hv).on (fun s => s.arith r.st ((deltas.map fun y => y.2.2).foldl orBits 0)) (hv.arith _ _)
  have hx : RowsIn (e.row0 + t0) (e.row0 + t0 + n) (((upTo n).zip (qv.zip deltas)).map fun p =>
      ({ i := p.1, x := e.row0 + t0 + p.1, qpos := e.pos0 + (t0 + p.1) / c.g, q := p.2.1, scores := [],
         m := leAt sb (8 * p.1) 4, l := leAt sb (8 * p.1 + 4) 4, lost := p.2.2.2.1 } : AttnRow)) := by
    intro row hr
    obtain ⟨p, hp, rfl⟩ := List.mem_map.1 hr
    have := List.mem_range.1 (List.of_mem_zip hp).1
    dsimp only
    omega
  generalize (((upTo n).zip (qv.zip deltas)).map fun p =>
      ({ i := p.1, x := e.row0 + t0 + p.1, qpos := e.pos0 + (t0 + p.1) / c.g, q := p.2.1, scores := [],
         m := leAt sb (8 * p.1) 4, l := leAt sb (8 * p.1 + 4) 4, lost := p.2.2.2.1 } : AttnRow)) = rows at *
  have hl := fun b hb => And.intro (seenBlocks_low e (rows.map AttnRow.qpos) hk (b := b) hb) (seenBlocks_kv e (rows.map AttnRow.qpos) hb)
  generalize e.seenBlocks (rows.map AttnRow.qpos) = bl at *
  obtain ⟨blocks, skipped⟩ := bl
  dsimp only at hl ⊢
  have h5 := h4.on (fun s => (s.bump (Reg.atnBlockCount r.g) blocks.length).bump (Reg.atnSkipCount r.g) skipped)
    ((h4.fit.bump _ _).bump _ _)
  revert h5
  generalize AttnRun.on (AttnRun.on _ _) _ = a5
  intro h5
  have h6 := AttnFit.backBlocks g c e hd (hSat r.w) dov deltas hs blocks hl
    (p := (a5, rows, rows.map fun _ => [])) h5 hx
  generalize foldS (Machine.backBlock r c e ds (hSat r.w) dov deltas) (a5, rows, rows.map fun _ => []) blocks = bb at h6 ⊢
  obtain ⟨a6, rows6, grads⟩ := bb
  dsimp only at h6 ⊢
  refine h6.andThen ?_
  have h8 := h6.reduceAll g c e hd 0 (by decide) blocks ((rows6.zip grads).map fun p => p.2.filterMap fun z =>
        if e.sees p.1.qpos z.1 then some (z.1, c.pf.decode false z.2.2) else none)
  generalize AttnRun.reduceAll a6 r c e ds 0 blocks ((rows6.zip grads).map fun p => p.2.filterMap fun z =>
        if e.sees p.1.qpos z.1 then some (z.1, c.pf.decode false z.2.2) else none) = ra at *
  obtain ⟨a8, accs⟩ := ra
  dsimp only at h8 ⊢
  have hc := h8.1.check (accs := accs) h8.2
  refine h8.1.andThen (hc.andThen ?_)
  have h9 := hc.output c true rows6 ((rows6.zip accs).map fun p =>
          rowValues c.dv (p.1.m == negInf32) (isNan32 p.1.m) p.2)
  exact ⟨h9.ok, h9.u, h9.fit.bump _ _, h9.seen⟩

/-- Where a hitch of several entries stores nothing in partition memory, what it reads of it stays as it was. -/
structure Quiet (q : Prop) (c : Attn) (bwd : Bool) : Prop where
  save : bwd = false → c.save = true → ¬q
  p : bwd = true → c.pOut ≠ 0 → ¬q
  ds : bwd = true → c.dsOut ≠ 0 → ¬q

theorem AttnFit.weaken (h : AttnFit True t r z a) (q : Prop) : AttnFit q t r z a := ⟨h.ok, h.u, h.fit.weaken fun _ => trivial, h.seen⟩

/-- An entry that passes its checks runs to its end (R200 to R203, R217). -/
theorem AttnFit.entry (h : AttnFit True t r z a) (g : Ground t r) (c : Attn) (bwd : Bool) (k : Nat) (nq : Quiet q c bwd)
    (pm : t.pmaOk r.p (c.lenTable + 32 * k) 32 = true) (st : c.entryStatus bwd (t.lenEntry r c k) z.1 z.2 = stOk)
    (good : (t.lenEntry r c k).qlen ≠ 0 → (t.lenEntry r c k).kv ≤ 32768 ∧ t.attnStores r c bwd (t.lenEntry r c k) ∧
      (bwd = true → t.pmaOk r.p (c.stats + 8 * (t.lenEntry r c k).row0) (8 * ((t.lenEntry r c k).qlen * c.g)) = true) ∧
      ∃ ds, t.descsGood r c.dqk (t.lenEntry r c k).kv (t.lenEntry r c k).list 0 ds) :
    AttnFit q t r (z.1 ++ c.qAreas (t.lenEntry r c k).row0 ((t.lenEntry r c k).qlen * c.g),
      z.2 ++ c.outAreas (t.lenEntry r c k).row0 ((t.lenEntry r c k).qlen * c.g)) (a.entry r c bwd k) := by
  unfold AttnRun.entry
  obtain ⟨v, e, hv⟩ := h.fit.fetchSome g (by decide) pm
  have ee : LenEntry.parse (a.s.peekP r.p (c.lenTable + 32 * k) 32) = t.lenEntry r c k := by rw [h.fit.peekP]; rfl
  have es : z = (a.qSeen, a.oSeen) := h.seen.symm
  subst es
  dsimp only at st ⊢
  rw [h.noMem, e]
  dsimp only
  rw [if_neg (by simp), ee, st, if_neg (by simp)]
  generalize t.lenEntry r c k = en at *
  have hb : AttnFit True t r (a.qSeen ++ c.qAreas en.row0 (en.qlen * c.g), a.oSeen ++ c.outAreas en.row0 (en.qlen * c.g))
      { a with s := v, qSeen := a.qSeen ++ c.qAreas en.row0 (en.qlen * c.g), oSeen := a.oSeen ++ c.outAreas en.row0 (en.qlen * c.g) } :=
    ⟨h.ok, h.u, hv, rfl⟩
  split
  · exact hb.weaken q
  · rename_i h0
    obtain ⟨hk, hs, hst, ds, hd⟩ := good h0
    obtain ⟨l, v2, e2, hv2, hl⟩ := Fit.readDescs g c.dqk en.kv ds en.kv en.list 0 hv hd
    rw [e2]
    dsimp only
    rw [if_neg (by simp)]
    refine AttnFit.each _ ((hb.ofState hv2).weaken q) fun a i hi ha => ?_
    have hi := List.mem_range.1 hi
    generalize hsz : min 128 (min (en.qlen * c.g) (if en.kv = 0 then 128 else c.sbytes / (4 * en.resident))) = size at *
    have hi2 : i * size + min size (en.qlen * c.g - i * size) ≤ en.qlen * c.g := by
      have h1 := Nat.mul_le_mul_right size (show i + 1 ≤ (en.qlen * c.g + size - 1) / size by omega)
      have h2 := Nat.div_mul_le_self (en.qlen * c.g + size - 1) size
      have h3 : (i + 1) * size = i * size + size := by ring
      omega
    have below : ∀ x, en.row0 + i * size ≤ x → x < en.row0 + i * size + min size (en.qlen * c.g - i * size) →
        en.row0 ≤ x ∧ x < en.row0 + en.qlen * c.g := fun x _ _ => by omega
    cases bwd with
    | false =>
      rw [if_neg (by simp)]
      exact ha.forwardTile g c en hl hk _ _ (nq.save rfl) fun sv x h1 h2 =>
        (hs x (below x h1 h2).1 (below x h1 h2).2).1 (.inr sv)
    | true =>
      rw [if_pos rfl]
      refine ha.backwardTile g c en hl hk _ _ (pmaOk_part g.mem (hst rfl) ?_ ?_) ⟨fun hp => ⟨nq.p rfl hp, fun x h1 h2 => ?_⟩,
        fun hp => ⟨nq.ds rfl hp, fun x h1 h2 => ?_⟩⟩
      · omega
      · omega
      · exact (hs x (below x h1 h2).1 (below x h1 h2).2).2.1 rfl hp
      · exact (hs x (below x h1 h2).1 (below x h1 h2).2).2.2 rfl hp

theorem andThen_goes {a : AttnRun} (h : isBlocking a.status = false) (f : AttnRun → AttnRun) : a.andThen f = f a := by
  unfold AttnRun.andThen
  rw [h]; rfl

/-- The entries of a hitch, in order. -/
theorem AttnFit.entries (g : Ground t r) (c : Attn) (bwd : Bool) (n k : Nat) {q : Prop} (nq : Quiet q c bwd)
    (hq : q ∨ n ≤ 1) {z : List Area × List Area} {a : AttnRun} (h : AttnFit True t r z a) (good : t.entriesGood r c bwd n k z.1 z.2) :
    ∃ z, AttnFit q t r z (a.each (List.range' k n) fun a k => a.entry r c bwd k) := by
  induction n generalizing k z a with
  | zero => exact ⟨z, h.weaken q⟩
  | succ m ih =>
    obtain ⟨g1, g2, g3, g4⟩ := good
    show ∃ z, AttnFit q t r z (AttnRun.each (a.andThen fun a => a.entry r c bwd k) (List.range' (k + 1) m) _)
    rw [andThen_goes h.goes]
    rcases hq with hq | hm
    · have nt : Quiet True c bwd := ⟨fun a b _ => nq.save a b hq, fun a b _ => nq.p a b hq, fun a b _ => nq.ds a b hq⟩
      exact ih (k + 1) (.inl hq) (h.entry g c bwd k nt g1 g2 g3) g4
    · have : m = 0 := by omega
      subst this
      exact ⟨_, h.entry g c bwd k nq g1 g2 g3⟩

/-- An ATTN hitch that meets its conditions, without an error of its own, ends with no blocking status (R199, R210). -/
theorem attnBody_runs (g : Ground t r) (f0 : Fit True t r s) {bwd : Bool} (h : t.attnGood r bwd) :
    (s.attnBody r Upset.none bwd).1 = stOk ∨ (s.attnBody r Upset.none bwd).1 = stExactLost := by
  obtain ⟨_, _, h3, h4, h5, h6⟩ := h
  unfold State.attnBody
  obtain ⟨v, e, hv⟩ := f0.fetchSome g (by decide) h3
  rw [f0.peekP] at e
  rw [show Upset.none.mem = [] from rfl, e]
  dsimp only
  rw [if_neg fun h => h rfl, h4, if_neg Bool.false_ne_true]
  generalize Attn.of r.w (t.peekP r.p (fld r.w 0x38 63 0) 64) = c at *
  have nq : Quiet (c.n ≠ 1) c bwd := by
    constructor <;> intro hb hp hn <;> subst hb <;> simp_all
  obtain ⟨z, hz⟩ := AttnFit.entries g c bwd c.n 0 nq (by omega)
    (a := { s := v, status := stOk, lost := false, cycles := 64, array := 0, spilled := 0, u := Upset.none, read := [],
            qSeen := [], oSeen := [] }) (z := ([], [])) ⟨rfl, rfl, hv, rfl⟩ h5
  rw [← List.range_eq_range'] at hz
  have hb := hz.goes
  unfold upTo
  generalize AttnRun.each _ (List.range c.n) _ = a at *
  rw [hb]
  cases a.lost
  · exact .inl rfl
  · exact .inr rfl

/-- A forward or backward hitch that starts in a state that meets its conditions (R195, R199). -/
theorem attn_runs (g : Ground t r) {bwd : Bool} (h : t.attnGood r bwd) :
    (t.attnRun r Upset.none bwd).1 = stOk ∨ (t.attnRun r Upset.none bwd).1 = stExactLost := by
  have f : Fit True t r t := ⟨calm_refl _, rfl, h.2.1, fun _ _ _ => rfl⟩
  have f1 : Fit True t r (t.setAcc r.st Acc.empty) := f.modStrand _ fun _ h => h
  have f2 := (f1.bump (Reg.strScratchEccCorrCount r.st) Upset.none.scratchCorr.length).modStrand r.st
    (f := fun x => { x with writebacks := x.writebacks ++ Upset.none.scratchCorr }) fun _ h => h
  generalize hy : ((t.setAcc r.st Acc.empty).bump (Reg.strScratchEccCorrCount r.st) Upset.none.scratchCorr.length).modStrand r.st
      (fun x => { x with writebacks := x.writebacks ++ Upset.none.scratchCorr }) = y at f2
  have e : (t.setAcc r.st Acc.empty).scratchUpset r.st Upset.none [] = (stOk, y) := by
    unfold State.scratchUpset
    dsimp only
    rw [hy, badRead_none f2.lines]
    rfl
  unfold State.attnRun
  rw [e]
  exact attnBody_runs g f2 h

end Sys2Proof.Machine
end

