-- ==== Sys2Proof/Laws/LargeRuns.lean ====
section
/-! SUPPORT. The hitches that read and write partition memory, or send rows: each that meets its conditions ends with no blocking
status (R291 to R304, R354 to R358). -/

namespace Sys2Proof.Machine

/-- A function that leaves the owners, the domains and the units alone leaves memory as readable as it was. -/
theorem calm_keeps {t s : State} {F : Field → Bool} (k : Keeps true true F t s) (h1 : F .owners = false) (h2 : F .power = false)
    (h3 : F .units = false) : Calm t s :=
  calm_same (k.same .owners h1) (k.same .power h2) (k.same .units h3)

theorem reachUnit_calm {t s : State} (c : Calm t s) (h : t.awake) {d : Nat} (hd : d < 4) (a : Nat) : s.reachUnit (some d) a = s :=
  reachUnit_awake (c.awake h) (fun _ e => by cases e; exact hd) a

/-! CROP_RESIZE -/

theorem encodeRow_length (f : Fmt) (sat : Bool) (rs : List Rnd) (vs : List Num) (h : rs.length = vs.length) :
    (encodeRow f sat rs vs).1.length = vs.length := by
  unfold encodeRow valuesOf
  simp [h]

theorem flatMap_length {α β : Type} (f : α → List β) (n : Nat) (l : List α) (h : ∀ x ∈ l, (f x).length = n) :
    (l.flatMap f).length = l.length * n := by
  induction l with
  | nil => simp
  | cons a l ih =>
    rw [List.flatMap_cons, List.length_append, h a List.mem_cons_self, ih fun x hx => h x (List.mem_cons_of_mem _ hx),
      List.length_cons, Nat.succ_mul, Nat.add_comm]

theorem blockBytes (f : Fmt) (cb : Nat) (h : cb = 16 ∨ cb = 32) : packedBytes f.width cb = cb * f.width / 8 := by
  unfold packedBytes
  rcases h with rfl | rfl <;> omega

theorem fresh_calm (s : State) (n : Nat) : Calm s { s with fresh := n } := calm_same rfl rfl rfl

theorem usedRandom_calm (s : State) (r : Run) (n : Nat) : Calm s (s.usedRandom r n) := by
  unfold State.usedRandom
  split
  · exact fresh_calm _ _
  · exact calm_refl _

theorem put_calm (s : State) (a : Nat) (bs : List Byte) : Calm s (s.put a bs) := by
  unfold State.put State.wrote
  split
  · exact calm_same rfl rfl rfl
  · dsimp only
    split <;> exact calm_same rfl rfl rfl

/-- A box is read and written whole (R355 to R357). -/
theorem cropBox_runs {t s : State} {r : Run} {x : CropSrc} {u : Upset} {par : List Byte} {i : Nat} {b : Nat × Nat × Nat × Nat}
    (c : Calm t s) (h : t.memGood r.p) (hd : r.die < 4) (hu : u.mem = [])
    (out : flag r.w 0x10 6 = true ∨ t.pmaOk r.p (fld r.w 0x20 63 0 + i * fld r.w 0x38 31 0) (cropBoxSize r.w x) = true) :
    ∃ v, s.cropBox r x u par i b = (stOk, v) ∧ Calm t v := by
  obtain ⟨x0, y0, x1, y1⟩ := b
  unfold State.cropBox
  extract_lets w nearest fill ow oh fo cb planes fillWord mean inv size extra total at_
  dsimp -zeta only
  extract_lets empty outside pts touched rd s1 free s2 rs s3 cells blocks bytes wr s4 s5 s6
  have hrd : ∃ v, rd = (stOk, v) ∧ Calm t v := by
    obtain ⟨v, e, cv, _⟩ := readLines_good (s := s) (touched.filterMap fun l => s.mpaOf r.p (64 * l)) fun m hm => by
      obtain ⟨l, _, hl⟩ := List.mem_filterMap.1 hm
      exact (c.memGood h).2.2 _ _ hl
    exact ⟨v, by show (s.reachUnit _ _).readLines _ _ = _; rw [reachUnit_calm c h.1 hd, hu]; exact e, c.trans cv⟩
  obtain ⟨v, e, cv⟩ := hrd
  have c3 : Calm t s3 := by
    refine Calm.trans ?_ (usedRandom_calm s2 r _)
    have c1 : Calm t s1 := by show Calm t rd.2; rw [e]; exact cv
    show Calm t (if x == .noInfo then _ else s1)
    split
    · exact c1.trans (fresh_calm _ _)
    · exact c1
  have lb : bytes.length = cropBoxSize r.w x := by
    have hcb : cb = 16 ∨ cb = 32 := by
      show (if _ then _ else _) = _ ∨ (if _ then _ else _) = _
      split
      · exact .inr rfl
      · exact .inl rfl
    have hb : ∀ e ∈ blocks, (packElems fo.width e.1).length = cb * fo.width / 8 := by
      intro e he
      obtain ⟨q, _, he⟩ := List.mem_flatMap.1 he
      obtain ⟨k, _, rfl⟩ := List.mem_map.1 he
      dsimp only
      rw [packElems_length, encodeRow_length _ _ _ _ (by simp), List.length_map, upTo, List.length_range, blockBytes _ _ hcb]
    have hl : blocks.length = planes * (oh * ow) := by
      show (List.flatMap _ (upTo planes)).length = _
      rw [flatMap_length _ (oh * ow) _ fun q _ => by rw [List.length_map, upTo, List.length_range], upTo, List.length_range]
    show (List.flatMap _ blocks).length = _
    rw [flatMap_length _ _ _ hb, hl, Nat.mul_comm oh ow]
    rfl
  have hw : ∃ y, wr = (stOk, y) ∧ Calm t y := by
    show ∃ y, (if flag w 16 6 then _ else _) = _ ∧ _
    split
    · exact ⟨_, rfl, c3.trans (put_calm _ _ _)⟩
    · rename_i h6
      have ok := out.resolve_left h6
      rw [← lb] at ok
      obtain ⟨y, e, cy, _⟩ := storeP_good (c3.memGood h) (src := some r.die) (fun _ e => by cases e; exact hd)
        (a := at_) (bs := bytes) (by rw [c3.pmaOk]; exact ok)
      exact ⟨y, by rw [hu]; exact e, c3.trans cy⟩
  obtain ⟨y, ey, cy⟩ := hw
  have c6 : Calm t s6 := by
    have : Calm t wr.2 := by rw [ey]; exact cy
    show Calm t (if empty = true then s5.cnvCount _ _ _ else s5)
    split <;> exact this.trans (calm_same rfl rfl rfl)
  rw [e, ey]
  refine ⟨_, rfl, ?_⟩
  split
  · exact c6.trans (calm_same rfl rfl rfl)
  · exact c6

/-- The boxes of a CROP_RESIZE, in order. -/
theorem cropBoxes_run {t s : State} {r : Run} {x : CropSrc} {u : Upset} {par : List Byte} (i : Nat) (l : List (List Byte))
    (c : Calm t s) (h : t.memGood r.p) (hd : r.die < 4) (hu : u.mem = [])
    (hb : ∀ e ∈ l, (boxOf e).1 < 2 ^ 28 ∧ (boxOf e).2.1 < 2 ^ 28 ∧ (boxOf e).2.2.1 < 2 ^ 28 ∧ (boxOf e).2.2.2 < 2 ^ 28)
    (out : ∀ j, i ≤ j → j < i + l.length → flag r.w 0x10 6 = true ∨
      t.pmaOk r.p (fld r.w 0x20 63 0 + j * fld r.w 0x38 31 0) (cropBoxSize r.w x) = true) :
    (s.cropBoxes r x u par i l).1 = stOk := by
  induction l generalizing i s with
  | nil => rfl
  | cons e l ih =>
    obtain ⟨b1, b2, b3, b4⟩ := hb e List.mem_cons_self
    obtain ⟨v, ev, cv⟩ := cropBox_runs (x := x) (par := par) (i := i) (b := boxOf e) c h hd hu
      (out i (Nat.le_refl i) (by rw [List.length_cons]; omega))
    unfold State.cropBoxes
    dsimp only
    rw [ev, if_neg (by simp only [Bool.or_eq_true, decide_eq_true_eq]; omega)]
    exact ih (i + 1) cv (fun e he => hb e (List.mem_cons_of_mem _ he)) fun j h1 h2 =>
      out j (by omega) (by rw [List.length_cons]; omega)

theorem cropSource_chans (s t : State) (r : Run) (par : List Byte) : (s.cropSource r par).chans = (t.cropSource r par).chans := by
  have key (s : State) : (s.cropSource r par).chans = if flag r.w 0x10 0 then (cropTensor par).chans else 3 := by
    unfold State.cropSource
    split
    · rfl
    · dsimp only
      split <;> rfl
  rw [key, key]

theorem cropBoxSize_chans (w : HitchWord) {x y : CropSrc} (h : x.chans = y.chans) : cropBoxSize w x = cropBoxSize w y := by
  unfold cropBoxSize
  rw [h]

theorem cropStatus_calm {t s : State} (c : Calm t s) (r : Run) (par : List Byte) {x y : CropSrc} (h : y.chans = x.chans) :
    s.cropStatus r par y = t.cropStatus r par x := by
  unfold State.cropStatus
  dsimp only
  rw [cropBoxSize_chans r.w h, c.pmaOk, c.pmaOk]

theorem cropHold_calm (s : State) (r : Run) : Calm s (s.cropHold r) := by
  unfold State.cropHold
  split
  · split
    · exact calm_refl _
    · exact calm_same rfl rfl rfl
  · exact calm_refl _

/-- What the status of a CROP_RESIZE says of its output. -/
theorem cropStatus_out {s : State} {r : Run} {par : List Byte} {x : CropSrc} (h : s.cropStatus r par x = stOk) :
    cropBoxSize r.w x ≤ fld r.w 0x38 31 0 ∧ (flag r.w 0x10 6 = true ∨
      s.pmaOk r.p (fld r.w 0x20 63 0) ((fld r.w 0x34 12 0 - 1) * fld r.w 0x38 31 0 + cropBoxSize r.w x) = true) := by
  unfold State.cropStatus at h
  dsimp only at h
  generalize cropBoxSize r.w x = size at *
  have a : stMalformed ≠ stOk := by decide
  have b : stAddrInvalid ≠ stOk := by decide
  generalize hok : (if flag r.w 0x10 6 = true then inRegion (fld r.w 0x20 63 0) ((fld r.w 0x34 12 0 - 1) * fld r.w 0x38 31 0 + size)
    else s.pmaOk r.p (fld r.w 0x20 63 0) ((fld r.w 0x34 12 0 - 1) * fld r.w 0x38 31 0 + size)) = ok at h
  have h1 : ¬fld r.w 0x38 31 0 < size := fun e => by
    rw [if_pos (by simp [e])] at h
    exact a h
  have h2 : ok = true := by
    cases ok
    · split at h
      · exact absurd h a
      · rw [if_pos (by simp)] at h
        exact absurd h b
    · rfl
  refine ⟨Nat.le_of_not_lt h1, ?_⟩
  rw [h2] at hok
  split at hok
  · rename_i h6; exact .inl h6
  · exact .inr hok

/-- A CROP_RESIZE that meets its conditions, without an error of its own, ends with OK (R354 to R358). -/
theorem cropBody_runs {t : State} {r : Run} {u : Upset} (hd : r.die < 4) (h : t.cropGood r) (hm : u.mem = [])
    (hr : u.residue = false) : (t.cropBody r u).1 = stOk := by
  unfold State.cropBody
  dsimp only
  split
  · rfl
  · rename_i hmir
    rcases h with h | ⟨h1, h2, h3, h4, h5, h6⟩
    · exact absurd h hmir
    · rw [if_neg (by
        simp only [Bool.and_eq_true, Bool.not_eq_true', Option.isNone_iff_eq_none, not_and]
        intro hf hn
        rw [hf, hn] at h1
        simp at h1)]
      have c0 := cropHold_calm t r
      generalize t.cropHold r = s0 at *
      have src : ∀ d, some r.die = some d → d < 4 := fun _ e => by cases e; exact hd
      obtain ⟨s1, e1, c1, m1⟩ := fetchP_good (c0.memGood h2) src (a := fld r.w 0x28 63 0) (n := 64) (by rw [c0.pmaOk]; exact h3)
      rw [if_neg (by decide)] at e1
      rw [hm, e1]
      dsimp only
      rw [if_neg fun h => h rfl]
      generalize s0.peekP r.p (fld r.w 0x28 63 0) 64 = par at *
      rw [cropStatus_calm c1 r par (cropSource_chans s1 s0 r par), h4, if_neg fun h => h rfl]
      have c01 := c0.trans c1
      obtain ⟨s2, e2, c2, m2⟩ := fetchP_good (c01.memGood h2) src (a := fld r.w 0x18 63 0) (n := 16 * fld r.w 0x34 12 0)
        (by rw [c01.pmaOk]; exact h5)
      rw [e2]
      dsimp only
      rw [if_neg fun h => h rfl]
      unfold State.residueUpset
      rw [hr]
      rw [if_neg Bool.false_ne_true]
      dsimp only
      rw [if_neg fun h => h rfl]
      have c02 := c01.trans c2
      obtain ⟨o1, o2⟩ := cropStatus_out h4
      refine cropBoxes_run (t := t) 0 _ c02 h2 hd hm ?_ ?_
      · intro e he
        obtain ⟨k, hk, rfl⟩ := List.mem_map.1 he
        have hk := List.mem_range.1 hk
        have := h6 k hk
        rw [if_neg (by omega), c1.peekP (m1 .mem (by decide))]
        exact this
      · intro j _ hj
        rw [List.length_map, upTo, List.length_range, Nat.zero_add] at hj
        rw [cropBoxSize_chans r.w (cropSource_chans s1 s0 r par)]
        rcases o2 with o2 | o2
        · exact .inl o2
        · right
          rw [c0.pmaOk] at o2
          refine pmaOk_part h2 o2 (by omega) ?_
          have := Nat.mul_le_mul_right (fld r.w 0x38 31 0) (show j ≤ fld r.w 0x34 12 0 - 1 by omega)
          omega

/-! SEND and RETURN -/

/-- s is t as far as the rows of a SEND or RETURN go: module memory is as readable as it was and holds the same bytes, and the
engines have the same table and cache. -/
structure Still (t s : State) : Prop where
  calm : Calm t s
  low : ∀ x, x < 2 ^ 48 → bget s.mem x = bget t.mem x
  force : s.dispatch.force = t.dispatch.force
  cache : ∀ d, (s.engine d).cache = (t.engine d).cache

theorem still_refl (s : State) : Still s s := ⟨calm_refl s, fun _ _ => rfl, rfl, fun _ => rfl⟩

theorem Still.trans {a b c : State} (h : Still a b) (g : Still b c) : Still a c :=
  ⟨h.calm.trans g.calm, fun x hx => (g.low x hx).trans (h.low x hx), g.force.trans h.force, fun d => (g.cache d).trans (h.cache d)⟩

theorem still_same {t s : State} (h1 : s.owners = t.owners) (h2 : s.power = t.power) (h3 : s.units = t.units) (h4 : s.mem = t.mem)
    (h5 : s.dispatch = t.dispatch) : Still t s :=
  ⟨calm_same h1 h2 h3, fun _ _ => by rw [h4], by rw [h5], fun d => by unfold State.engine; rw [h5]⟩

/-- The fields that `Still` looks at. -/
def stillFields : List Field := [.owners, .power, .units, .mem, .dispatch]

theorem still_keeps {t s : State} (k : Keeps true true (fun f => !(stillFields.contains f)) t s) : Still t s :=
  still_same (k.same .owners rfl) (k.same .power rfl) (k.same .units rfl) (k.same .mem rfl) (k.same .dispatch rfl)

theorem within_still {T : Nat} (h : ∀ f ∈ stillFields, T.testBit f.place = false) : Within T fun f => !(stillFields.contains f) := by
  intro f hf
  cases e : stillFields.contains f with
  | false => show (!stillFields.contains f) = true; rw [e]; rfl
  | true =>
    have := h f (List.contains_iff_mem.1 e)
    rw [this] at hf
    exact absurd hf Bool.false_ne_true

theorem still_fold {α : Type} {f : State → α → State} {t s : State} (l : List α) (h : Still t s)
    (hf : ∀ s x, Still t s → Still t (f s x)) : Still t (foldS f s l) := by
  induction l generalizing s with
  | nil => exact h
  | cons x l ih => exact ih (hf s x h)

theorem engine_modEngine (s : State) (a b : Nat) (f : Engine → Engine) :
    (s.modEngine a f).engine b = if b = a then f (s.engine a) else s.engine b := by
  unfold State.modEngine State.engine
  dsimp only
  split
  · rename_i h; subst h; exact mgetD_mput_self _ _ _ _
  · rename_i h; exact mgetD_mput_other _ _ _ _ _ h

theorem still_modEngine (s : State) (a : Nat) {f : Engine → Engine} (h : ∀ e, (f e).cache = e.cache) : Still s (s.modEngine a f) :=
  ⟨calm_same rfl rfl rfl, fun _ _ => rfl, rfl, fun d => by
    rw [engine_modEngine]
    split
    · rename_i hd; subst hd; exact h _
    · rfl⟩

theorem still_logSent (s : State) (p : Packet) : Still s (s.logSent p) := by
  unfold State.logSent
  split
  · exact ⟨calm_same rfl rfl rfl, fun _ _ => rfl, rfl, fun _ => rfl⟩
  · exact still_refl s

theorem still_deliver {s : State} (h : s.awake) (p : Packet) : Still s (s.deliver p) := by
  unfold State.deliver
  dsimp only
  split
  · rw [reach_awake h (by omega), reach_awake h (by omega)]
    exact still_modEngine _ _ fun _ => rfl
  · exact still_modEngine _ _ fun _ => rfl

theorem still_originate {s : State} (h : s.awake) (p : Packet) : Still s (s.originate p) := by
  unfold State.originate
  split
  · exact still_refl s
  · extract_lets k n q e0 s1 s2 s3
    have h1 : Still s s1 := still_same rfl rfl rfl rfl rfl
    have h2 : Still s s2 := h1.trans (still_logSent s1 q)
    split
    · exact h2.trans (still_deliver (h2.calm.awake h) q)
    · have h3 : Still s s3 := h2.trans (still_keeps (putCopies_keeps (p := q) keeps_refl (within_still (by decide))))
      clear_value s3
      split
      · exact h3.trans (still_same rfl rfl rfl rfl rfl)
      · exact h3

theorem Still.originate {t s : State} (h : Still t s) (a : t.awake) (p : Packet) : Still t (s.originate p) :=
  h.trans (still_originate (h.calm.awake a) p)

theorem Still.sendPieces {t s : State} (h : Still t s) (a : t.awake) (p d : Nat) (dst : Nat × Nat × Nat) (role epoch : Nat)
    (x : RowHead) (row : List Byte) : Still t (s.sendPieces p d dst role epoch x row) :=
  still_fold _ h fun _ _ hs => hs.originate a _

theorem Still.put {t s : State} (h : Still t s) {a : Nat} (ha : 2 ^ 48 ≤ a) (bs : List Byte) : Still t (s.put a bs) := by
  refine h.trans ⟨put_calm _ _ _, fun x hx => ?_, ?_, fun d => ?_⟩
  · have : bget (s.poke a bs).mem x = bget s.mem x := bget_writeBytes_other _ _ _ _ (.inl (by omega))
    unfold State.put State.wrote
    split
    · exact this
    · dsimp only
      split <;> exact this
  all_goals
    unfold State.put State.wrote
    split
    · rfl
    · dsimp only
      split <;> rfl

theorem Still.sendVote {t s : State} (h : Still t s) (a : t.awake) (p kind cls step run : Nat) :
    Still t (s.sendVote p kind cls step run) := by
  unfold State.sendVote
  exact still_fold _ h fun _ _ hs => hs.originate a _

theorem still_inc (s : State) (a : Nat) : Still s (s.inc a) := still_same rfl rfl rfl rfl rfl

theorem still_modVote (s : State) (p step run : Nat) (f : Vote → Vote) : Still s (s.modVote p step run f) :=
  still_keeps (modVote_keeps keeps_refl (within_still (by decide)))

theorem Still.block {t s : State} (h : Still t s) (a : t.awake) (p : Nat) (b : Blocking) : Still t (s.block p b) := by
  unfold State.block
  have pb : Still s (s.putBlock p b) := still_keeps (putBlock_keeps keeps_refl (within_still (by decide)))
  extract_lets x s1 s2 sentReady s3
  have h1 : Still t s1 := (h.trans pb).trans (still_keeps (discardQueued_keeps (p := p) keeps_refl (within_still (by decide))))
  have h2 : Still t s2 := still_fold _ h1 fun s g hs => hs.trans (still_keeps (noteHeld_keeps keeps_refl (within_still (by decide))))
  have h3 : Still t s3 := (h2.trans (still_modVote s2 p x.counter x.run fun v => { v with sent := 1 + b.cls })).trans (still_inc _ _)
  clear_value s1 s2 sentReady s3
  repeat' split
  all_goals first | exact h | exact h.trans pb | exact h3.sendVote a _ _ _ _ _ | exact h2

theorem Still.retSignal {t s : State} (h : Still t s) (a : t.awake) (c : SendCtx) (st : Nat) : Still t (s.retSignal c st) := by
  unfold State.retSignal
  dsimp only
  split
  · have h1 := h.trans (still_keeps (signalKnot_keeps (p := c.part) (st := st) (k := fld c.word 0x2C 31 16) (n := 1)
      (keeps_refl (old := s)) (within_still (by decide))))
    split
    · unfold State.lateStatus State.raise
      rw [if_neg (by decide)]
      dsimp only
      rw [if_neg (by decide), if_neg (by decide), if_neg (by decide)]
      exact h1.block a _ _
    · exact h1
  · exact h

theorem mem_mget {α : Type} {m : Map α} {k : Nat} {v : α} (h : mget m k = some v) : (k, v) ∈ m := by
  induction m with
  | nil => exact nomatch h
  | cons a m ih =>
    obtain ⟨j, b⟩ := a
    unfold mget at h
    split at h
    · rename_i e
      cases h
      subst e
      exact List.mem_cons_self
    · exact List.mem_cons_of_mem _ (ih h)

theorem dspForce_force {t s : State} (h : s.dispatch.force = t.dispatch.force) (p i : Nat) : s.dspForce p i = t.dspForce p i := by
  unfold State.dspForce
  rw [h]

/-- What the state of a SEND keeps of the one it started from. -/
structure SendFit (t : State) (r : Run) (s : State) : Prop where
  calm : Calm t s
  low : ∀ x, x < 2 ^ 48 → bget s.mem x = bget t.mem x
  force : s.dispatch.force = t.dispatch.force
  cache : ∀ idx, t.entryGood r idx → ∀ e ∈ (s.engine r.die).cache, e.1 = r.p * 65536 + idx → entryValid e.2 = true

theorem SendFit.still {t s v : State} {r : Run} (h : SendFit t r s) (g : Still s v) : SendFit t r v :=
  ⟨h.calm.trans g.calm, fun x hx => (g.low x hx).trans (h.low x hx), g.force.trans h.force, fun idx gi => by
    rw [g.cache]; exact h.cache idx gi⟩

theorem SendFit.tableEntry {t s : State} {r : Run} (h : SendFit t r s) (m : t.memGood r.p) (hd : r.die < 4) {idx : Nat}
    (g : t.entryGood r idx) : ∃ b v, s.tableEntry r.die r.p idx [] = (stOk, b, v) ∧ entryValid b = true ∧ SendFit t r v := by
  unfold State.tableEntry
  split
  · rename_i b hb
    exact ⟨b, s, rfl, h.cache idx g _ (mem_mget hb) rfl, h⟩
  · obtain ⟨_, g2, g3, _⟩ := g
    obtain ⟨v, e, c, k⟩ := fetchP_good (h.calm.memGood m) (src := some r.die) (fun _ e => by cases e; exact hd)
      (a := t.dspForce r.p 0 + 64 * idx) (n := 64) (by rw [h.calm.pmaOk]; exact g2)
    rw [if_neg (by decide), peekP_low h.calm.owners h.low] at e
    rw [dspForce_force h.force, e]
    dsimp only
    rw [if_neg fun h => h rfl]
    have ed : v.dispatch = s.dispatch := k .dispatch (by decide)
    refine ⟨_, _, rfl, g3, ⟨h.calm.trans (c.trans (calm_same rfl rfl rfl)), fun x hx => ?_, ?_, fun i gi e he hk => ?_⟩⟩
    · rw [← h.low x hx]
      show bget v.mem x = _
      rw [show v.mem = s.mem from k .mem (by decide)]
    · show v.dispatch.force = _
      rw [ed]; exact h.force
    · rw [engine_modEngine, if_pos rfl] at he
      have ec : v.engine r.die = s.engine r.die := by unfold State.engine; rw [ed]
      rw [ec] at he
      dsimp only at he
      rcases mem_mput he with rfl | he
      · dsimp only at hk ⊢
        have : idx = i := by omega
        subst this
        exact g3
      · refine h.cache i gi e ?_ hk
        split at he
        · exact he
        · exact List.mem_of_mem_drop he

theorem Still.sendRow {t s : State} (h : Still t s) (a : t.awake) (c : SendCtx) (d : Nat) (e : RouteEntry) (b : List Byte) (i : Nat)
    (row : List Byte) : Still t (s.sendRow c d e b i row) := by
  unfold State.sendRow
  dsimp only
  refine Still.sendPieces ?_ a _ _ _ _ _ _ _
  have h1 := h.trans (still_inc s (Reg.dspSentCount d))
  split
  · exact h1
  · exact h1.trans (still_inc _ _)

theorem Still.dropRoute {t s : State} (h : Still t s) (a : t.awake) (c : SendCtx) (st token rank : Nat) :
    Still t (s.dropRoute c st token rank) := by
  unfold State.dropRoute
  refine (h.put ?_ _).retSignal a _ _
  unfold scratchBase
  omega

/-- One entry of a route list is taken (R297). -/
theorem take_runs {t : State} {r : Run} (m : t.memGood r.p) (hd : r.die < 4) {c : SendCtx} (hp : c.part = r.p) (hw : c.word = r.w)
    {a : SendRun} (ha : a.status = stOk) (h : SendFit t r a.s) (mirror : Bool) (token rank x : Nat)
    (hx : x = 0xFFFF ∨ x = 0xFFFE ∨ t.entryGood r (fld r.w 0x24 31 16 + x)) :
    (a.take c r.die mirror [] token rank x).status = stOk ∧ SendFit t r (a.take c r.die mirror [] token rank x).s := by
  have aw {s : State} (h : SendFit t r s) : s.awake := h.calm.awake m.1
  unfold SendRun.take
  rw [ha, hw, hp]
  by_cases h1 : x = 0xFFFF
  · rw [if_pos (by simp [h1])]
    exact ⟨ha, h⟩
  · rw [if_neg (by simp [h1])]
    by_cases h2 : x = 0xFFFE
    · rw [if_pos h2]
      exact ⟨rfl, h.still ((still_refl _).retSignal (aw h) _ _)⟩
    · rw [if_neg h2]
      have g := (hx.resolve_left h1).resolve_left h2
      dsimp only
      have g1 := g.1
      rw [← dspForce_force h.force] at g1
      rw [if_neg (by omega)]
      obtain ⟨b, v, e, hv, hs⟩ := h.tableEntry m hd g
      rw [e]
      dsimp only
      rw [if_neg fun h => h rfl, hv, if_neg (by simp)]
      split
      · refine ⟨rfl, ?_⟩
        split
        · exact hs.still ((still_refl _).dropRoute (aw hs) _ _ _ _)
        · exact hs.still ((still_inc _ _).dropRoute (aw hs) _ _ _ _)
      · split
        · exact ⟨rfl, hs⟩
        · refine ⟨rfl, hs.still (still_fold _ ?_ fun s i g => g.sendRow (aw hs) _ _ _ _ _ _)⟩
          exact ⟨calm_same rfl rfl rfl, fun _ _ => rfl, rfl, fun _ => rfl⟩

/-- A SEND that meets its conditions ends with OK (R296 to R299). -/
theorem sendBody_runs {t : State} {r : Run} {u : Upset} (hd : r.die < 4) (h : t.sendGood r) (hm : u.mem = []) :
    (t.sendBody r u).1 = stOk := by
  obtain ⟨h1, h2, h3, h4, h5, h6⟩ := h
  unfold State.sendBody
  extract_lets w tokens c route rows n list read mirror e0 s0 s1 a
  rw [h1, if_neg Bool.false_ne_true]
  rw [if_neg (by
    show ¬((!(inScratch _ (4 * n) && inScratch _ 0 && inRegion _ (n * c.rowBytes))) = true)
    have e1 : inScratch (fld r.w 0x18 20 0) (4 * n) = true := h3
    have e2 : inRegion (fld w 0x28 22 0) (n * c.rowBytes) = true := h5
    rw [show route = fld r.w 0x18 20 0 from rfl, e1, e2]
    have e3 : inScratch (rowsEnd rows (16 * fld w 0x20 15 0) tokens (16 * fld w 0x20 31 16)) 0 = true := h4
    rw [e3]
    simp)]
  have hs : SendFit t r s1 := by
    have f0 : SendFit t r t := ⟨calm_refl t, fun _ _ => rfl, rfl, fun _ g => g.2.2.2⟩
    show SendFit t r (if mirror = true then t else _)
    split
    · exact f0
    · exact f0.still ⟨calm_same rfl rfl rfl, fun _ _ => rfl, rfl, fun _ => rfl⟩
  show a.status = stOk
  have key : ∀ (l : List Nat), (∀ i ∈ l, i < n) → ∀ b : SendRun, b.status = stOk → SendFit t r b.s →
      (foldS (fun (a : SendRun) i => a.take c r.die mirror u.mem (i / c.k) (i % c.k) (leAt list (4 * i) 2)) b l).status = stOk := by
    intro l
    induction l with
    | nil => exact fun _ b hb _ => hb
    | cons i l ih =>
      intro hl b hb hf
      have k := take_runs (c := c) h2 hd rfl rfl hb hf mirror (i / c.k) (i % c.k) (leAt list (4 * i) 2) (h6 i (hl i List.mem_cons_self))
      rw [← hm] at k
      exact ih (fun i hi => hl i (List.mem_cons_of_mem _ hi)) _ k.1 k.2
  exact key (upTo n) (fun i hi => List.mem_range.1 hi) _ rfl hs

/-- A RETURN that meets its conditions ends with OK (R303). -/
theorem returnBody_runs {t : State} {r : Run} {u : Upset} (hd : r.die < 4) (h : t.returnGood r) (hm : u.mem = []) :
    (t.returnBody r u).1 = stOk := by
  obtain ⟨h1, h2, h3, h4⟩ := h
  unfold State.returnBody
  dsimp only
  rw [h1, if_neg Bool.false_ne_true, if_neg (by
    rw [h3]; simp; omega)]
  split
  · rfl
  · rename_i hmir
    have h4 := h4.resolve_left hmir
    obtain ⟨m, h5⟩ := h4
    have one : ∀ x : RxRow, (∃ i j, i < fld r.w 0x14 28 16 ∧ j < t.dspForce r.p 3 % 65536 ∧ x.expert = fld r.w 0x14 11 0 + i ∧ x.row = j) →
        ∀ s, Still t s → ∃ v, s.returnOne r u.mem x = (stOk, v) ∧ Still t v := by
      intro x ⟨i, j, hi, hj, ex, er⟩ s hs
      have src : ∀ d, some r.die = some d → d < 4 := fun _ e => by cases e; exact hd
      have line : ∀ {a b : State}, Calm a b → (∀ f, f ∉ lineFields → Same f a b) → Still a b := fun {a b} c k =>
        ⟨c, fun _ _ => by rw [show b.mem = a.mem from k .mem (by decide)],
          by rw [show b.dispatch = a.dispatch from k .dispatch (by decide)],
          fun d => by unfold State.engine; rw [show b.dispatch = a.dispatch from k .dispatch (by decide)]⟩
      unfold State.returnOne
      dsimp only
      rw [dspForce_force hs.force, dspForce_force hs.force, dspForce_force hs.force, ex, er, hm]
      obtain ⟨v, e, c, k⟩ := fetchP_good (hs.calm.memGood m) src (a := t.dspForce r.p 2 + t.dspForce r.p 4 *
        (t.dspForce r.p 3 % 65536) * (16 * (t.dspForce r.p 3 / 65536)) +
        8 * ((fld r.w 0x14 11 0 + i) * (t.dspForce r.p 3 % 65536) + j)) (n := 8) (by rw [hs.calm.pmaOk]; exact h5 i hi j hj)
      rw [e]
      dsimp only
      rw [if_neg fun h => h rfl]
      have hv := hs.trans (line c k)
      generalize t.dspForce r.p 3 % 65536 = cap at *
      generalize 16 * fld r.w 0x20 15 0 = pitch at *
      obtain ⟨v2, e2, c2, k2⟩ := fetchP_good (hv.calm.memGood m) src
        (a := fld r.w 0x18 63 0 + ((fld r.w 0x14 11 0 + i) * cap + j) * pitch) (n := pitch) (by
          rw [hv.calm.pmaOk]
          have e1 : ((fld r.w 0x14 11 0 + i) * cap + j) * pitch = fld r.w 0x14 11 0 * cap * pitch + (i * cap + j) * pitch := by ring
          have e2 : (i * cap + j + 1) * pitch ≤ fld r.w 0x14 28 16 * cap * pitch := by
            refine Nat.mul_le_mul_right _ ?_
            have : (i + 1) * cap ≤ fld r.w 0x14 28 16 * cap := Nat.mul_le_mul_right _ hi
            have e : (i + 1) * cap = i * cap + cap := by ring
            omega
          have e3 : (i * cap + j + 1) * pitch = (i * cap + j) * pitch + pitch := by ring
          refine pmaOk_part m h3 (by omega) (by omega))
      rw [e2]
      dsimp only
      rw [if_neg fun h => h rfl]
      exact ⟨_, rfl, (hv.trans (line c2 k2)).sendPieces m.1 _ _ _ _ _ _ _⟩
    have all : ∀ l : List RxRow, (∀ x ∈ l, ∃ i j, i < fld r.w 0x14 28 16 ∧ j < t.dspForce r.p 3 % 65536 ∧
        x.expert = fld r.w 0x14 11 0 + i ∧ x.row = j) → ∀ s, Still t s → (s.returnAll r u.mem l).1 = stOk := by
      intro l
      induction l with
      | nil => exact fun _ _ _ => rfl
      | cons x l ih =>
        intro hl s hs
        obtain ⟨v, e, hv⟩ := one x (hl x List.mem_cons_self) s hs
        unfold State.returnAll
        dsimp only
        rw [e, if_pos rfl]
        exact ih (fun y hy => hl y (List.mem_cons_of_mem _ hy)) v hv
    refine all _ (fun x hx => ?_) t (still_refl t)
    obtain ⟨i, hi, hx⟩ := List.mem_flatMap.1 hx
    obtain ⟨j, hj, hx⟩ := List.mem_filterMap.1 hx
    have hx := List.find?_some hx
    simp only [Bool.and_eq_true, beq_iff_eq] at hx
    exact ⟨i, j, List.mem_range.1 hi, List.mem_range.1 hj, hx.1.2, hx.2⟩

/-! The group of a COLLECTIVE -/

theorem self_setReg (s : State) {a v : Nat} (h : a ≠ Reg.ecnSelf) : (s.setReg a v).self = s.self := by
  unfold State.self State.setReg mgetD
  dsimp only
  split
  · rw [mget_mdel_other _ _ _ (Ne.symm h)]
  · rw [mget_mput_other _ _ _ _ (Ne.symm h)]

theorem tagMiss_ne (m c : Nat) : Reg.memTagcMissCount m c ≠ Reg.ecnSelf := by
  unfold Reg.memTagcMissCount Reg.ecnSelf memBase
  split <;> omega

theorem tagAccess_self (s : State) (u mpa : Nat) (w : Bool) : (s.tagAccess u mpa w).self = s.self := by
  unfold State.tagAccess
  dsimp only
  have e : ∀ b : Bool, ∀ l v, (if b = true then s.tagStored l v else s).self = s.self := by
    intro b l v; cases b <;> rfl
  split
  · exact e _ _ _
  · exact (self_setReg _ (tagMiss_ne _ _)).trans (e _ _ _)

theorem readLines_self {s : State} (l : List Nat) (h : ∀ m ∈ l, s.lineGood m) : (s.readLines l []).2.self = s.self := by
  induction l generalizing s with
  | nil => rfl
  | cons a r ih =>
    obtain ⟨u, e⟩ := readLine_good (h a List.mem_cons_self)
    unfold State.readLines
    rw [show errFor [] a = noErr from rfl, e]
    exact (ih fun m hm => (calm_tagAccess s u a false).lineGood (h m (List.mem_cons_of_mem _ hm))).trans (tagAccess_self _ _ _ _)

theorem fetchP_self {s : State} {p : Nat} (h : s.memGood p) {src : Option Nat} (hs : ∀ d, src = some d → d < 4) {a n : Nat}
    (ha : s.pmaOk p a n = true) : (s.fetchP src p a n []).2.2.self = s.self := by
  unfold State.fetchP
  split
  · rfl
  · rw [ha, reachUnit_awake h.1 hs]
    have := readLines_self (s := s) (s.linesOf p a n) fun x hx => by
      unfold State.linesOf at hx
      obtain ⟨i, _, hi⟩ := List.mem_filterMap.1 hx
      exact h.2.2 _ _ hi
    simp only [Bool.not_true, Bool.false_eq_true, if_false]
    split <;> exact this

/-- The group of a COLLECTIVE is read as it stands in memory, and reading it changes counters, the units' lines and the tag caches
only. -/
theorem group_runs {t : State} {r : Run} (hd : r.die < 4) (h : t.groupGood r) :
    ∃ v, t.group r.die r.p (fld r.w 0x10 21 16) [] = (stOk, (leAt (t.groupEntry r) 0 2 % 512, leAt (t.groupEntry r) 2 1,
        leAt (t.groupEntry r) 4 4), (t.groupMembers r).map memberOf, v) ∧ Calm t v ∧ v.self = t.self ∧
      ∀ f, f ∉ lineFields → Same f t v := by
  obtain ⟨g, h1, h2, h3, h4, h5, h6, h7, h8, h9, h10, -⟩ := h
  have src : ∀ d, some r.die = some d → d < 4 := fun d e => by cases e; exact hd
  obtain ⟨v, e, c, k⟩ := fetchP_good g src h1
  have sv := fetchP_self g src h1
  obtain ⟨y, e2, c2, k2⟩ := fetchP_good (c.memGood g) src (a := leAt (t.groupEntry r) 8 8) (n := 16 * (leAt (t.groupEntry r) 0 2 % 512))
    (by rw [c.pmaOk]; exact h2)
  have sy := fetchP_self (c.memGood g) src (a := leAt (t.groupEntry r) 8 8) (n := 16 * (leAt (t.groupEntry r) 0 2 % 512))
    (by rw [c.pmaOk]; exact h2)
  rw [e] at sv
  rw [e2] at sy
  refine ⟨y, ?_, c.trans c2, sy.trans sv, fun f hf => same_trans (k f hf) (k2 f hf)⟩
  unfold State.group
  rw [e]
  dsimp only
  rw [if_neg fun h => h rfl, if_neg (show ¬(64 = 0) by omega),
    show t.peekP r.p (t.colForce r.p 0 + 64 * fld r.w 0x10 21 16) 64 = t.groupEntry r from rfl, e2]
  dsimp only
  have res : (!((t.groupEntry r).drop 0x10).all fun v => v == 0) = false := by
    simpa using h6
  rw [if_neg (by
    simp only [res, h7, h8, h9]
    simp only [bne_self_eq_false, Bool.or_false, Bool.false_eq_true, or_false]
    omega), if_neg fun h => h rfl, if_neg (by omega : ¬(16 * (leAt (t.groupEntry r) 0 2 % 512) = 0)), c.peekP (k .mem (by decide))]
  rw [if_neg]
  · rfl
  · intro hh
    obtain ⟨m, hm, hb⟩ := List.any_eq_true.1 hh
    obtain ⟨a, b⟩ := h10 m hm
    simp [a, b] at hb

end Sys2Proof.Machine
end

