-- ==== Sys2Proof/Laws/Sessions.lean ====
section
/-! SUPPORT. Events, wakes and packets leave every session open or closed as it was: what reaching a domain or sending a packet may do
to the sessions is to add events to them (R416, R535, R536). -/

namespace Sys2Proof.Machine

/-- t has the sessions of s, with the same keys, neither opened, closed nor ended between them. -/
def SessionsStay (s t : State) : Prop :=
  ∀ i, (t.session i).map (fun x => (x.key, x.closing, x.former)) = (s.session i).map fun x => (x.key, x.closing, x.former)

theorem stay_of {s t : State} (h : t.sessions = s.sessions) : SessionsStay s t := fun i => by
  unfold State.session; rw [h]

theorem SessionsStay.trans {a b c : State} (h : SessionsStay a b) (g : SessionsStay b c) : SessionsStay a c :=
  fun i => (g i).trans (h i)

/-- A part that touches no session. -/
theorem stay_keeps {s t : State} {l : List Field} (k : Keeps true true (fun g => l.contains g) s t) (h : Field.sessions ∉ l) :
    SessionsStay s t := stay_of (same_of_keeps k (f := .sessions) h)

theorem stay_modSession (s : State) (i : Nat) (f : Session → Session)
    (h : ∀ x, (f x).key = x.key ∧ (f x).closing = x.closing ∧ (f x).former = x.former) : SessionsStay s (s.modSession i f) := by
  intro j
  unfold State.session State.modSession
  dsimp only
  by_cases e : j = i
  · subst e
    rw [mget_mmod_self, Option.map_map]
    congr 1
    funext x
    obtain ⟨a, b, c⟩ := h x
    simp [a, b, c]
  · rw [mget_mmod_other _ _ _ _ e]

theorem stay_event (s : State) (sid kind status subject : Nat) (d : List Byte) : SessionsStay s (s.event sid kind status subject d) := by
  unfold State.event
  split
  · exact stay_of rfl
  · split
    · exact stay_of rfl
    · extract_lets e full kept s1 s2
      have h1 : SessionsStay s s1 := stay_modSession _ _ _ fun x => ⟨rfl, rfl, rfl⟩
      have h2 : SessionsStay s1 s2 := by
        show SessionsStay s1 (if _ then _ else _)
        split <;> exact stay_of rfl
      have h3 : SessionsStay s2 (if s2.update.paused.isSome = true then s2 else s2.send (.event sid e)) := by
        split <;> exact stay_of rfl
      exact (h1.trans h2).trans h3

theorem stay_foldS {α : Type} {f : State → α → State} (h : ∀ s a, SessionsStay s (f s a)) (l : List α) (s : State) :
    SessionsStay s (foldS f s l) := by
  induction l generalizing s with
  | nil => exact stay_of rfl
  | cons a l ih => exact (h s a).trans (ih _)

theorem stay_eventC (s : State) (kind status subject : Nat) (d : List Byte) : SessionsStay s (s.eventC kind status subject d) :=
  stay_foldS (fun s c => stay_event s c kind status subject d) _ s

theorem stay_fsr (s : State) (r : Record) : SessionsStay s (s.fsr r) := by
  have inc : ∀ (t : State) (b : Bool), SessionsStay t (if b = true then t.inc Reg.chkFsrOverwriteCount else t) := by
    intro t b; cases b <;> exact stay_of rfl
  unfold State.fsr
  cases r.part with
  | none =>
    dsimp only
    refine SessionsStay.trans ?_ (stay_eventC _ _ _ _ _)
    exact (stay_of rfl).trans (inc _ _)
  | some p =>
    dsimp only
    refine SessionsStay.trans (SessionsStay.trans ?_ (stay_eventC _ _ _ _ _)) (stay_event _ _ _ _ _ _)
    exact (stay_of rfl).trans (inc _ _)

theorem stay_restore (s : State) (n c : Nat) (bad : Bool) : SessionsStay s (s.restore n c bad) := by
  unfold State.restore
  extract_lets s1 s2 s3 s4
  split
  · exact (stay_of rfl).trans (stay_fsr _ _)
  · refine (stay_foldS (f := fun s (e : Nat × Word) => { s with regs := mput s.regs e.1 e.2.toNat }) (fun s e => stay_of rfl) _ s2).trans
      (stay_of rfl)

theorem stay_ready (s : State) (n us c : Nat) (bad : Bool) : SessionsStay s (s.ready n us c bad) := by
  unfold State.ready
  extract_lets s1 s2
  refine (stay_restore s n c bad).trans ?_
  have k : Keeps true true (fun g => [Field.regs, .ctls, .hanks].contains g) s1 s2 := by
    refine loadImage_keeps (domCtl_keeps (raiseReg_keeps keeps_refl ?_) ?_) ?_
    all_goals exact fun f hf => List.contains_iff_mem.2 (by revert hf; cases f <;> decide)
  exact (stay_keeps k (by decide)).trans (stay_of rfl)

theorem stay_abortEntry (s : State) (n source : Nat) : SessionsStay s (s.abortEntry n source) := by
  unfold State.abortEntry
  refine SessionsStay.trans ?_ (stay_eventC _ _ _ _ _)
  exact stay_of rfl

theorem stay_settleQueued (s : State) (n source : Nat) : SessionsStay s (s.settleQueued n source) := by
  unfold State.settleQueued
  split
  · exact stay_of rfl
  · extract_lets s1
    split
    · exact stay_of rfl
    · split
      · exact stay_of rfl
      · exact (stay_of rfl : SessionsStay s s1).trans (stay_abortEntry _ _ _)

theorem stay_enterDone (s : State) (n : Nat) : SessionsStay s (s.enterDone n) :=
  stay_keeps (l := [Field.fresh, .regs, .mem, .strands, .hanks, .parts, .units, .ctls, .ecron, .hostPorts, .dispatch, .power])
    (enterDone_keeps keeps_refl (fun f hf => List.contains_iff_mem.2 (by revert hf; cases f <;> decide))) (by decide)

theorem stay_wakeOne (s : State) (n us source : Nat) : SessionsStay s (s.wakeOne n us source).2 := by
  have up : ∀ t : State, ∀ us, SessionsStay t ((t.ready n us 0 false).settleQueued n source) :=
    fun t us => (stay_ready t n us 0 false).trans (stay_settleQueued _ _ _)
  unfold State.wakeOne
  dsimp only
  split
  · exact stay_of rfl
  · split
    · exact (stay_abortEntry s n source).trans (stay_settleQueued _ _ _)
    · exact (stay_enterDone s n).trans (up _ _)
  · exact up s _
  · exact up s _
  · exact up s _

theorem stay_reach (s : State) (n source : Nat) : SessionsStay s (s.reach n source) := by
  have key : ∀ (l : List Nat) (x : Nat × State), SessionsStay x.2 (foldS (fun x k => x.2.wakeOne k x.1 source) x l).2 := by
    intro l
    induction l with
    | nil => exact fun x => stay_of rfl
    | cons k l ih => exact fun x => (stay_wakeOne x.2 k x.1 source).trans (ih _)
  unfold State.reach
  split
  · exact stay_of rfl
  · extract_lets pw s1
    refine SessionsStay.trans ?_ (key _ (0, s1))
    show SessionsStay s (if _ then _ else _)
    split <;> exact stay_of rfl

theorem stay_originate (s : State) (p : Packet) : SessionsStay s (s.originate p) := by
  unfold State.originate
  split
  · exact stay_of rfl
  · extract_lets k n q ec s1 s2 s3 kind b
    have h2 : SessionsStay s s2 := by
      refine (stay_of rfl : SessionsStay s s1).trans ?_
      show SessionsStay s1 (State.logSent s1 q)
      unfold State.logSent
      split <;> exact stay_of rfl
    split
    · refine h2.trans ?_
      unfold State.deliver
      extract_lets s4
      refine SessionsStay.trans ?_ (stay_of (rfl : (s4.modEngine _ _).sessions = s4.sessions))
      show SessionsStay s2 (if _ then _ else _)
      split
      · exact (stay_reach s2 _ _).trans (stay_reach _ _ _)
      · exact stay_of rfl
    · have h3 : SessionsStay s s3 := h2.trans (stay_keeps (l := [Field.regs, .ecron])
        (putCopies_keeps (p := q) (keeps_refl (old := s2)) (within_list (l := [Field.regs, .ecron]) (by decide) fun f h => List.contains_iff_mem.2 h)) (by decide))
      split
      · exact h3.trans (stay_of rfl)
      · exact h3

/-- A reply leaves every session open or closed as it was. -/
theorem stay_reply (s : State) (sid seq st : Nat) (data : List Byte) : SessionsStay s (s.reply sid seq st data) := by
  unfold State.reply State.answer
  extract_lets r relay s1 up s2
  have h : SessionsStay s s2 := (stay_modSession s sid _ fun x => ⟨rfl, rfl, rfl⟩ : SessionsStay s s1).trans (stay_of rfl)
  unfold State.sendReply
  clear_value s2 relay
  cases relay with
  | none => exact h.trans (stay_of rfl)
  | some m => exact (h.trans (stay_originate _ _)).trans (stay_of rfl)

end Sys2Proof.Machine
end

