-- ==== Sys2Proof/Tests/Slice0.lean ====
section
/-! SUPPORT. Tests of single steps, ill-formed terms that WellFormed refuses, and for each statement with hypotheses the
states and operands that meet them. -/

namespace Sys2Proof.Tests

open Sys2Proof.Machine

set_option Elab.async false

/-- A frame that waits in a queue under sequence number 1. -/
def queued1 : HFrame :=
  { fcsOk := true, dst := 0, vid := 0, pcp := 0, rtag := none, sdu := 0, version := 1, reply := false, event := false,
    relay := false, reserved := false, opcode := 0, seq := 1, epoch := 0, commander := 1, session := 0, length := 0,
    status := 0, modNum := 0, notAfter := 0, params := [], tagKey := 0 }

/-- A session whose command of sequence number 1 is the oldest of its queue. -/
def openSession : Session := { Session.empty 0 with queue := [queued1] }

/-- A partition that is active on hank 0. -/
def activePart : Part := { Part.empty with state := .active, hanks := [0], seqSize := 8, chainSize := 8 }

/-- The machine after start-up, with the sessions of commander 1 and partition 0 open, a command waiting in each; commander
1 holds the lanyard. -/
def ready : State :=
  { State.reset with
    start := { State.reset.start with phase := 9 }
    lease := { State.reset.lease with holder := 1, expiry := 1000, duration := 50 }
    parts := [(0, activePart)]
    sessions := [(1, openSession), (16, openSession)]
    power := { State.reset.power with doms := (upTo 64).map fun k => (k, { Domain.empty with state := .on }) } }

/-- The header of the command that waits in a session. -/
def hdr (sid : Nat) : CmdHdr := { session := sid, seq := 1, epoch := 0, t := 0 }

/-- A state that agrees with `ready` on what admission reads. -/
def likeReady (s : State) : Prop :=
  s.update.paused = none ∧ s.sessions = ready.sessions ∧ s.lease.epoch = 0 ∧ (s.part 0).gen = 0

theorem commander_runs {s : State} (code : Nat) (h : likeReady s) : s.runs (hdr 1) code (s.tick 0) := by
  obtain ⟨a, b, c, d⟩ := h
  refine ⟨rfl, a, openSession, ?_, ?_⟩
  · show mget s.sessions 1 = _
    rw [b]; rfl
  · simp [openSession, queued1, hdr, State.stale, isCommander, State.tick, c]

theorem part_runs {s : State} (code : Nat) (h : likeReady s) : s.runs (hdr 16) code (s.tick 0) := by
  obtain ⟨a, b, c, d⟩ := h
  refine ⟨rfl, a, openSession, ?_, ?_⟩
  · show mget s.sessions 16 = _
    rw [b]; rfl
  · have e : State.former (State.tick s 0) 16 = false := by
      show (match mget s.sessions 16 with | some x => x.former | none => false) = false
      rw [b]; rfl
    simp [openSession, queued1, hdr, State.stale, isCommander, sidPart, e]
    exact d.symm

/-- `ready` with a step of partition 0 under way and one hitch waiting in strand 0. -/
def hitching (w : HitchWord) : State :=
  { ready with
    owners := [(0, 0)]
    parts := [(0, { activePart with step := { StepRec.empty with phase := .running } })]
    strands := [(0, { Strand.empty with
      queue := [{ id := 0, pos := 0, index := 0, word := w, phase := .queued, since := none, digest := 0 }] })] }

/-- The run of that hitch. -/
def runOf (w : HitchWord) : Run :=
  { st := 0, g := 0, p := 0, e := { id := 0, pos := 0, index := 0, word := w, phase := .queued, since := none, digest := 0 } }

/-- The state in which that hitch takes its own effect. -/
def begun (w : HitchWord) : State := ((hitching w).scratchUpset 0 Upset.none []).2

/-- Without an upset and a bad line, the ranges read do not matter. -/
theorem clean_upset {s : State} {st : Nat} (h : (s.strand st).badLines = []) (rs : List (Nat × Nat)) :
    s.scratchUpset st Upset.none rs = (stOk, (s.scratchUpset st Upset.none []).2) := by
  have k (l : List (Nat × Nat)) : ((s.bump (Reg.strScratchEccCorrCount st) Upset.none.scratchCorr.length).modStrand st fun x =>
      { x with writebacks := x.writebacks ++ Upset.none.scratchCorr }).badRead st l = none := by
    unfold State.badRead
    rw [strand_modStrand_self]
    show List.find? _ (s.strand st).badLines = none
    rw [h]; rfl
  unfold State.scratchUpset
  dsimp only
  rw [k, k]
  rfl

theorem hitching_starts (w : HitchWord) (op : Nat) (sub : HitchWord → Bool) (h1 : hOpcode w = op) (h2 : sub w = true)
    (h3 : knotValid (hWait w) = false) (h4 : op ≠ 0x28 ∧ op ≠ 0x29 ∧ op ≠ 0x22 ∧ op ≠ 0x1A) :
    (hitching w).starts 0 op sub Upset.none (runOf w) (begun w) := by
  obtain ⟨a, b, c, d⟩ := h4
  refine ⟨hitching w, ?_, clean_upset rfl _⟩
  have e1 : nextQueued ((hitching w).strand 0).queue = some (runOf w).e := rfl
  have e2 : (hitching w).partOf (hankOf 0) = some 0 := rfl
  have e3 : (hitching w).waitServed 0 0 w = true := by
    unfold State.waitServed State.waitReady; rw [h3]; rfl
  have e4 : unitFree ((hitching w).strand 0).queue (runOf w).e = true := by
    show (!(hOrder w) || true) && true = true
    simp
  have e5 : (hitching w).takeWait 0 0 w = hitching w := by unfold State.takeWait; rw [h3]; rfl
  have e6 : (hitching w).reachEngine 0 op = hitching w := by unfold State.reachEngine; simp [a, b, c, d]
  have e7 : (hitching w).issuing 0 = true := rfl
  unfold State.issue
  rw [e1, e2]
  dsimp only
  rw [e4, e7, show (runOf w).e.word = w from rfl, h1, h2, e3, e5, e6]
  simp [a, b, c, runOf, hankOf]

theorem runs1 (code : Nat) : ready.runs (hdr 1) code (ready.tick 0) := commander_runs code ⟨rfl, rfl, rfl, rfl⟩

theorem runs16 (code : Nat) : ready.runs (hdr 16) code (ready.tick 0) := part_runs code ⟨rfl, rfl, rfl, rfl⟩

theorem writes1 (code addr : Nat) (h : (ready.tick 0).access 1 addr true = stOk) :
    ready.writes (hdr 1) code addr ((ready.tick 0).reachReg addr) := ⟨(runs1 code).2, h, rfl⟩

/-- `hitching` with bytes in the byte store, an OPEN chain of sequence 0, bight slots on die 0, a batch entry, and room for four
groups at PMA 0. -/
def hitchingOn (m : List Host.Cell) (w : HitchWord) : State :=
  { hitching w with
    mem := m
    parts := [(0, { activePart with step := { StepRec.empty with phase := .running }, txKey := some 1 })]
    kv := { ready.kv with chains := [(0, { Chain.empty with state := .opened })], regionForce := [(0, 64 * 65536)] }
    serve := { ready.serve with batch := [(0, [⟨0, false, 0, 8, 0, false, 0, 0, [], false, []⟩])] }
    dispatch := { ready.dispatch with colForce := [(0, [0, 4])], force := [(0, [0, 0, 0, 1, 1, 0])] } }

/-- The state in which a hitch of opcode op of `hitchingOn` takes its own effect. -/
def begunOn (m : List Host.Cell) (op : Nat) (w : HitchWord) : State :=
  (((hitchingOn m w).reachEngine 0 op).scratchUpset 0 Upset.none []).2

/-- A hitch word of an opcode with fields at byte and bit offsets. -/
def wordOf (op : Nat) (l : List (Nat × Nat × Nat)) : HitchWord :=
  BitVec.ofNat 512 (l.foldl (fun a e => a + e.2.2 * 2 ^ (8 * e.1 + e.2.1)) op)

/-- Bytes at offsets from a place. -/
def cells (base : Nat) (l : List (Nat × Nat)) : List Host.Cell := l.map fun e => (base + e.1, BitVec.ofNat 8 e.2)

theorem issues_on (m : List Host.Cell) (w : HitchWord) (op : Nat) (sub : HitchWord → Bool) (h1 : hOpcode w = op)
    (h2 : sub w = true) (h3 : knotValid (hWait w) = false) :
    (hitchingOn m w).issue 0 op sub = some (runOf w, (hitchingOn m w).reachEngine 0 op) := by
  have e1 : nextQueued ((hitchingOn m w).strand 0).queue = some (runOf w).e := rfl
  have e2 : (hitchingOn m w).partOf (hankOf 0) = some 0 := rfl
  have e3 : (hitchingOn m w).waitServed 0 0 w = true := by
    unfold State.waitServed State.waitReady; rw [h3]; rfl
  have e4 : unitFree ((hitchingOn m w).strand 0).queue (runOf w).e = true := by
    show (!(hOrder w) || true) && true = true
    simp
  have e5 : (hitchingOn m w).takeWait 0 0 w = hitchingOn m w := by unfold State.takeWait; rw [h3]; rfl
  have e6 : decide ((hitchingOn m w).now < ((hitchingOn m w).engine (0 / 32)).resetUntil) = false := rfl
  have e7 : decide ((hitchingOn m w).now < ((hitchingOn m w).engine (0 / 32)).crResetUntil) = false := rfl
  have e8 : (hitchingOn m w).issuing 0 = true := rfl
  unfold State.issue
  rw [e1, e2]
  dsimp only
  rw [e4, e6, e7, e8, show (runOf w).e.word = w from rfl, h1, h2, e3, e5]
  simp [runOf, hankOf]

theorem reachEngine_on (m : List Host.Cell) (w : HitchWord) (op : Nat) : (hitchingOn m w).reachEngine 0 op = hitchingOn m w := by
  have c (n : Nat) (h : n < 7) : ∀ k ∈ domChain n, ((hitchingOn m w).dom k).state = .on := by
    show ∀ k ∈ domChain n, (ready.dom k).state = .on
    revert n
    decide
  unfold State.reachEngine
  dsimp only
  split
  · exact reach_on rfl (c 5 (by decide))
  · split
    · exact reach_on rfl (c 6 (by decide))
    · split
      · exact reach_on rfl (c 4 (by decide))
      · rfl

theorem starts_on (m : List Host.Cell) (w : HitchWord) (op : Nat) (sub : HitchWord → Bool) (h1 : hOpcode w = op)
    (h2 : sub w = true) (h3 : knotValid (hWait w) = false) :
    (hitchingOn m w).starts 0 op sub Upset.none (runOf w) (begunOn m op w) := by
  refine ⟨_, issues_on m w op sub h1 h2 h3, clean_upset ?_ _⟩
  rw [reachEngine_on m w op]
  rfl

theorem granules_one {s : State} (o : s.owners = [(0, 0)]) (u : Nat) : s.granules 0 u = if u = 0 then [0] else [] := by
  unfold State.granules
  rw [o]
  by_cases h : u = 0
  · subst h; rfl
  · rw [if_neg h, List.filter_cons, if_neg]
    · rfl
    · simp only [Bool.and_eq_true, beq_iff_eq, not_and]
      intro hu
      exact absurd hu.symm h

/-- Partition 0 owns the first granule alone, every domain is on, and no line is bad. -/
theorem memGood_one {s : State} (o : s.owners = [(0, 0)]) (a : s.awake) (b : s.units = []) : s.memGood 0 := by
  have own (k : Nat) (h : k = 0) : bit (s.ownByte 0 k) 5 = false := by
    subst h
    unfold State.ownByte
    rw [o]
    decide
  refine ⟨a, fun u k hk => ?_, fun x m hm => ?_⟩
  · rw [granules_one o] at hk
    split at hk
    · rename_i hu
      subst hu
      exact own k (List.mem_singleton.1 hk)
    · exact nomatch hk
  · unfold State.mpaOf at hm
    split at hm
    · exact nomatch hm
    · rename_i u y e
      split at hm
      · exact nomatch hm
      · rename_i k hk
        rw [granules_one o] at hk
        split at hk
        · rename_i hu
          subst hu
          have hk0 : k = 0 := by
            have := List.mem_of_getElem? hk
            exact List.mem_singleton.1 this
          subst hk0
          rw [own 0 rfl] at hm
          have lt : y % granule < granule := Nat.mod_lt _ (by decide)
          have em : m = y % granule := by
            have := Option.some.inj hm
            rw [← this]; simp [unitBase]
          subst em
          refine ⟨0, y % granule, ?_, ?_, ?_⟩
          · unfold lineAt unitOf
            unfold granule at lt ⊢
            rw [if_pos (by omega)]
            dsimp only
            rw [Nat.div_eq_of_lt (by omega), Nat.mod_eq_of_lt (by omega : y % 2 ^ 28 < 2 ^ 36), if_pos (by have : usable 0 = 33750000000 := rfl; omega)]
          · rw [Nat.div_eq_of_lt lt]; exact own 0 rfl
          · unfold State.unit
            rw [b]; rfl
        · exact nomatch hk

theorem awake_ready {s : State} (h : s.power = ready.power) : s.awake := by
  unfold State.awake State.dom
  rw [h]
  decide

/-- The memory of `begunOn` reads well. -/
theorem good_on (m : List Host.Cell) (op : Nat) (w : HitchWord) : (begunOn m op w).memGood 0 := by
  have e : ∀ s : State, (s.scratchUpset 0 Upset.none []).2.owners = s.owners ∧ (s.scratchUpset 0 Upset.none []).2.power = s.power ∧
      (s.scratchUpset 0 Upset.none []).2.units = s.units := by
    intro s
    have k : Keeps true true (fun f => [Field.regs, .strands].contains f) s (s.scratchUpset 0 Upset.none []).2 :=
      scratchUpset_keeps keeps_refl (within_list (l := [.regs, .strands]) (by decide) fun f h => List.contains_iff_mem.2 h)
    exact ⟨k.same .owners rfl, k.same .power rfl, k.same .units rfl⟩
  obtain ⟨e1, e2, e3⟩ := e (hitchingOn m w)
  unfold begunOn
  rw [reachEngine_on]
  exact memGood_one (e1.trans rfl) (awake_ready (e2.trans rfl)) (e3.trans rfl)

/-- A step of partition 0 under way with a control hitch at the head of position 0 of hank 0. -/
def controlling (w : HitchWord) : State :=
  { ready with
    owners := [(0, 0)]
    parts := [(0, { activePart with step := { StepRec.empty with phase := .running } })]
    hanks := [(0, { Hank.empty with
      pos := [(0, { next := 0, index := 0, fetched := [(0, w)], ended := false, finished := false, saved := false,
                    since := none, kLen := 0 })]
      onPlace := [(0, 0)]
      descRead := true })] }

/-- `ready` with both host ports up: HST_CTRL enables them with 802.1Qci, VLAN 0. -/
def linked : State :=
  { ready with
    regs := [(Reg.hstCtrl, 3)]
    hostPorts := [(0, { HostPort.empty with linkUp := true }), (1, { HostPort.empty with linkUp := true })] }

/-- A good frame of commander 1 with sequence number 2. -/
def frame2 : HFrame := { queued1 with rtag := some 0, seq := 2, opcode := 1 }

theorem ofLe_zeros {l : List Byte} (h : ∀ b ∈ l, b = 0) : ofLe l = 0 := by
  induction l with
  | nil => rfl
  | cons b r ih =>
    rw [ofLe, ih fun c hc => h c (List.mem_cons_of_mem _ hc), h b List.mem_cons_self]; rfl

theorem leAt_zeros {l : List Byte} (h : ∀ b ∈ l, b = 0) (a n : Nat) : leAt l a n = 0 := by
  refine ofLe_zeros fun b hb => ?_
  obtain ⟨i, _, rfl⟩ := List.mem_map.1 hb
  rw [List.getD_eq_getElem?_getD]
  cases e : l[a + i]? with
  | none => rfl
  | some c => exact h c (List.mem_of_getElem? e)

/-- `ready` with an update record. -/
def updating (x : Update) : State := { ready with update := x }

theorem updating_runs (x : Update) (code : Nat) (h : x.paused = none) : (updating x).runs (hdr 1) code ((updating x).tick 0) :=
  commander_runs code ⟨h, rfl, rfl, rfl⟩

/-- A header of n blocks, as far as R513's count goes, of 256 + 32 n bytes. -/
def headerOf (n : Nat) : List Byte := toLe 30 0 ++ toLe 2 n ++ toLe (224 + 32 * n) 0

/-- Slot A confirmed, and slot B loading with a header of a bytes of `headerOf 1`. -/
def loadingSlot (a : Nat) : Update :=
  { ready.update with
    slotA := { CoilSlot.empty with state := 5 }, slotB := { CoilSlot.empty with state := 1, header := (headerOf 1).take a },
    loading := some 1 }

/-- Slot A confirmed and slot B with a coil of component k in a state. -/
def twoCoils (st k : Nat) : Update :=
  { ready.update with
    slotA := { CoilSlot.empty with state := 5, header := toLe 32 0 ++ toLe 224 1 }
    slotB := { CoilSlot.empty with state := st, header := toLe 32 0 ++ toLe 224 k }
    micro := 0, ccf := 0, mgmt := 0 }

/-- `ready` with every domain on but one. -/
def powered (n : Nat) (d : Domain) : State :=
  { ready with power := { ready.power with doms := mput ready.power.doms n d } }

theorem powered_writes (n : Nat) (d : Domain) (code addr : Nat) (h : ((powered n d).tick 0).access 1 addr true = stOk) :
    (powered n d).writes (hdr 1) code addr (((powered n d).tick 0).reachReg addr) :=
  ⟨(commander_runs code ⟨rfl, rfl, rfl, rfl⟩).2, h, rfl⟩

/-- `ready` with the first granule of unit 0 in partition 0's hands, every domain still off. -/
def owning : State := { ready with owners := [(0, 0)], start := { ready.start with phase := 3 }, power := State.reset.power }

theorem owning_runs (code : Nat) : owning.runs (hdr 1) code (owning.tick 0) := commander_runs code ⟨rfl, rfl, rfl, rfl⟩

/-- A DATA packet of module 1 to partition 0 of module 0. -/
def packetOf (vc : Nat) (payload : List Byte) : Packet :=
  { version := 1, ptype := 1, vc := vc, path := 0, braided := false, resend := false, lane := 0, dstPart := 0, dstDie := 0,
    dstModule := 0, srcModule := 1, srcPart := 0, srcDie := 0, srcEpoch := 0, dstEpoch := 0, seq := 1, step := 0, keyId := 0,
    dstRole := 0xFFFF, reserved := false, telltale := crc64 payload, payload := payload, tagKey := 0 }

/-- A collective of partition 0 with one member. -/
def aColl : Coll :=
  { strand := 0, id := 0, part := 0, hank := 0, pos := 0, index := 0, word := 0, step := 0, run := 0, tag := 0, self_ := 0,
    members := [(0, 0, 0, 0, 0)], issuedAt := 0, first := [], keys := [], anchors := [], accepted := [],
    lost := [], results := [], dones := [], sentTo := [], doneTo := [], reduced := false, moved := [] }

/-- A step of partition 0 under way on hank 0, with a packet in the receive queue of die 0 and a collective running there. -/
def receiving (now : Nat) (pk : Packet) (x : StepRec) : State :=
  { ready with
    now := now
    parts := [(0, { activePart with step := x })]
    dispatch := { ready.dispatch with
      engines := [(0, { Engine.empty with rx := [⟨pk, 0, false⟩], colls := [aColl] })], force := [(0, [0, 0, 0, 1 + 65536, 1])] } }

/-- A running step that has used COLL_ID 0. -/
def running0 : StepRec := { StepRec.empty with phase := .running, collIds := [0] }

theorem packetOf_telltale (vc : Nat) (p : List Byte) : crc64 (packetOf vc p).payload = (packetOf vc p).telltale := rfl

/-- A SEND of strand 0 with one route entry. -/
def aSend : SendCtx :=
  { strand := 0, hank := 0, pos := 0, index := 0, part := 0, step := 0, run := 0, word := 0,
    entries := [⟨0, 0, 0, 0, [], false, 0, [], [], none, false⟩] }

/-- The machine after start-up with one Ecron port: its domain on, and ECN_CTRL enabling port 0. -/
def ported (p now : Nat) (x : Port) : State :=
  { powered (54 + p / 3) { Domain.empty with state := .on } with
    now := now, regs := [(Reg.ecnCtrl, 1)], ecron := { ready.ecron with ports := [(p, x)] } }

/-- A HELLO of the module that port 0 is wired to. -/
def aHello (x : State) : HelloBlock :=
  { modNum := x.self / 16 * 16 + (x.self % 16 + 1) % 16, port := 14, version := 1, deviceId := 0, compat := false, allocs := [],
    nonce := 0, restarted := false }

/-- Port 0 UP with a credit record for VC 1, lane 1. -/
def upPort (c : Credit) : State := ported 0 0 { Port.empty with state := 4, peer := some (1, 14), txIndex := 5, credits := [(3, c)] }

/-- `ready` with packets in Ecron's queues: pk waits for port p in transmit slot 0, is held in slot 0, and awaits its ACK in bulk
slot 0, sent again n times. -/
def carrying (p inPort now n : Nat) (pk : Packet) (x : Port) : State :=
  { ready with
    now := now
    start := { ready.start with dirReady := true }
    kv := { ready.kv with ships := [(0, ⟨0, 0, false, 1, 0, 0, 0, 0, [], false, 0, 0, 1, 16⟩)] }
    ecron := { ready.ecron with
      ports := [(p, x)], txq := [(0, (p, inPort, pk))], holds := [(0, ⟨pk, 0⟩)], bulk := [(0, ⟨pk, 0, n⟩)] } }

/-- A port UP with credit and buffer for VC 0, lane 0. -/
def roomy : Port := { Port.empty with state := 4, credits := [(0, { Credit.empty with avail := 3, rxFree := 3 })] }

/-- A packet of 32 bytes for module m under a key. -/
def packetTo (m key : Nat) : Packet := { packetOf 0 (toLe 32 1) with dstModule := m, keyId := key }

/-- A state before start-up phase n ends: power good and the input qualified. -/
def starting (n now : Nat) : State :=
  { ready with
    now := now
    start := { ready.start with
      phase := n, pwrgd := true, qualified := true, resetN := true, failed := false, latchOpen := false, inputOk := true, vin := 480 } }

/-- A fault record of the module ring, of partition 0. -/
def aRecord : Record :=
  { num := 1, kind := 6, time := 0, status := none, part := some 0, step := 0, run := 0, wher := [], strand := none, pack := none,
    mpa := none, pma := none, telltales := none, peer := [], action := 0, detail := [], partNum := 1, qmask := none }

/-- Test 0 of the pack in slot 0. -/
def aTest : PackTest := { slot := 0, num := 0, id := 0, version := 0, pattern := 0, expected := 7, bound := 100 }

/-- `ready`, all on, with a record in the ring and a pack of one test in slot 0: die 0 runs it on strand 0, whose cell 0 has
scored 1, and spots A and B of hank 0 read 60 and 61 °C. -/
def testing (now : Nat) : State :=
  { powered 0 { Domain.empty with state := .on } with
    now := now
    mem := cells (packBase 0) [(6, 1), (8, 1), (0xC, 96), (0x50, 7), (0x58, 100)]
    regs := [(Reg.chkPackCtrl 0, 1), (Reg.chkPackSlots, 1)]
    strands := [(0, { Strand.empty with scores := [(0, (1, 0))] })]
    thermo := { ready.thermo with spots := [(0, { Spot.empty with a := some 60, b := some 61 })] }
    checks := { ready.checks with ring := [aRecord], next := 2, packs := [(0, { Pack.empty with strand := some 0, cur := some aTest })] } }

/-- A result of that test. -/
def tested (v us : Nat) : PackResult := { telltale := v, status := 0, us := us }

/-- A page of partition 0. -/
def aPage (st : PageState) (frame : Nat) : Page :=
  { state := st, ct := false, ttlOn := false, part := 0, fmt := 0, mx := false, d32 := 0, fill := 0, frame := frame, next := 0,
    refs := 1, expiry := 0 }

/-- A ship of sequence 0. -/
def aShip : Ship := ⟨0, 0, false, 1, 0, 0, 0, 0, [], false, 0, 0, 1, 16⟩

/-- `ready` with sequence 0 of partition 0 in a state: its chain 0 holds page 0, page 1 is the target of a move, two pages are
free, ship 0 is under way and one is coming in; a ship packet of a kind waits at die 0. -/
def paging (st : SeqState) (kind : Nat) : State :=
  { ready with
    kv := { ready.kv with
      pages := [(0, aPage .live 0), (1, aPage .moving 1)], lists := [(0, { returned := [], next := 2, limit := 4 })]
      chains := [(0, { Chain.empty with state := .opened, seq := 0, head := some 0, tail := 0 })]
      moves := [⟨0, 0, 1, true, 0⟩], ships := [(0, aShip)], inbound := [⟨1, 0, 0, 0, [], []⟩] }
    serve := { ready.serve with seqs := [(0, { Sequence.parse 0 [] with state := st, back := st })] }
    dispatch := { ready.dispatch with engines := [(0, { Engine.empty with rx := [⟨packetOf 4 (toLe 32 kind), 0, false⟩] })] } }

/-- `paging` with no ship of its own, and a key for partition 0. -/
def unshipped (st : SeqState) : State :=
  { paging st 1 with kv := { (paging st 1).kv with ships := [] }, parts := [(0, { activePart with txKey := some 0 })] }

/-- `paging` at a time, with account 0 of partition 0 holding 5, prefix handle 0 over page 0, which is full and expires on a
tier, and chain 8 shipped in with 4 positions, which no sequence owns. -/
def serving (st : SeqState) (now : Nat) (ct : Bool) : State :=
  { paging st 1 with
    now := now
    parts := [(0, { activePart with handles := 2, chainSize := 12, step := { StepRec.empty with mode := 3 } })]
    kv := { (paging st 1).kv with
      pages := [(0, { aPage .live 0 with fill := tagCap 0 false 0, ttlOn := true, ct := ct })]
      moves := []
      lists := [(0, { returned := [], next := 2, limit := 4 }), (1, { returned := [7], next := 9, limit := 9 })]
      chains := [(0, { Chain.empty with state := .opened, seq := 0, head := some 0, tail := 0 }),
        (7, { Chain.empty with state := .opened, seq := 99, len := 4 })] }
    serve := { (paging st 1).serve with
      accounts := [(0, { Account.empty with part := 0, en := true, balance := 5 })]
      handles := [(0, ⟨0, 0, true, 0, false, 0, 1, [[0]]⟩)], reels := [(0, ⟨3, 1⟩)] } }

theorem serving_runs (st : SeqState) (now : Nat) (ct : Bool) (code : Nat) (h : now = 0) :
    (serving st now ct).runs (hdr 16) code ((serving st now ct).tick 0) := by
  subst h; exact part_runs code ⟨rfl, rfl, rfl, rfl⟩

theorem serving_runs1 (st : SeqState) (ct : Bool) (code : Nat) :
    (serving st 0 ct).runs (hdr 1) code ((serving st 0 ct).tick 0) := commander_runs code ⟨rfl, rfl, rfl, rfl⟩

/-- A request of 4 tokens after a prompt of n, with flags and a prefix ID. -/
def aRequest (flags id n : Nat) : List Byte :=
  toLe 4 flags ++ toLe 4 0 ++ toLe 4 n ++ toLe 4 4 ++ toLe 16 0 ++ toLe 4 id ++ toLe 28 0

/-- `serving` with no index free. -/
def crowded : State := { serving .decode 0 false with parts := [(0, { activePart with seqSize := 1 })] }

/-- `serving` below the low water of its HBM pages. -/
def scarce (st : SeqState) (now : Nat) (ct : Bool) : State :=
  { serving st now ct with regs := [(Reg.kvpPartLowWater 0, 3)] }

/-- A stream descriptor of a kind: 64 by 64 samples, DPB_BUFS 2, STALL_MS 1, rings of 64 KiB and 16 records. -/
def aDesc (kind : Nat) : List Byte :=
  toLe 4 (kind + 256) ++ toLe 4 (64 + 64 * 65536) ++ toLe 4 (2 + 65536) ++ toLe 4 0 ++ toLe 8 0 ++ toLe 4 0x10000 ++ toLe 4 0 ++
    toLe 8 0x10000 ++ toLe 4 16 ++ toLe 52 0 ++ toLe 4 (if kind = 2 then 0x10000 else 0) ++ toLe 28 0

/-- A unit waiting in an input ring. -/
def aUnit : Unit_ :=
  { seq := 3, length := 32, pts := 0, eos := false, place := 0, handle := 0, forceIdr := false, fedAt := 0, order := 0 }

/-- A stream context of a kind, with a unit waiting. -/
def aCtx (kind : Nat) : VidCtx :=
  { part := 0, kind := kind, desc := aDesc kind, units := [aUnit], lastUnit := some 3, ringTail := 0, ringUsed := 0, wr := 3, rd := 1,
    needRap := false, waitSince := none, closing := false, bitsTail := 0, bitsUsed := 0, unitBytes := [], outQ := [], refs := [],
    pictures := 0, sinceIdr := 0, fullness := 0, qpF := 0 }

/-- `ready` with context 0 open and core 0 in partition 0's hands: 2 contexts, n pool buffers of which the first is held, and its
first granule. -/
def filming (now n : Nat) (x : VidCtx) (y : VidCore) : State :=
  { ready with
    now := now
    owners := [(0, 0)]
    regs := [(Reg.vidCoreOwner 0, 0), (Reg.vidPartCtx 0, 2 * 65536), (Reg.vidPartBufs 0, n * 65536), (Reg.vidPartBufBytes 0, 2 ^ 20)]
    video := { ready.video with ctxs := [(0, x)], buffers := [(0, { Buffer.empty with holds := 1 })], cores := [(0, y)] } }

/-- An idle core. -/
def idleCore : VidCore := VidCore.idle

/-- A core that decodes the head of context 0. -/
def busyCore : VidCore := { VidCore.idle with state := 2, unit := some aUnit, buffer := 1 }

theorem filming_runs (n : Nat) (x : VidCtx) (y : VidCore) (code : Nat) :
    (filming 0 n x y).runs (hdr 16) code ((filming 0 n x y).tick 0) := part_runs code ⟨rfl, rfl, rfl, rfl⟩

/-- What a core reports of a picture of a width, with a reason. -/
def aReport (reason width : Nat) : PicReport :=
  { reason := reason, width := width, height := 64, cropX := 0, cropY := 0, cropW := 64, cropH := 64, tenBit := false, mono := false,
    rap := false, refMissing := false, slices := [], window := 0, refused := [], left := [], units := 1, refs := [], outputs := [],
    samples := [], motion := [], grain := [], coded := 0 }

theorem test_wf_header_refused :
    ∀ h ∈ [{ hdr 0 with t := 0 }, hdr 5, hdr 15, hdr 32, { hdr 1 with seq := 2 ^ 32 }, { hdr 1 with epoch := 2 ^ 32 },
        { hdr 1 with t := 2 ^ 64 }],
      WellFormed (.leaseRelease h) = false := by decide +kernel

theorem test_wf_header_taken :
    ∀ h ∈ [hdr 1, hdr 4, hdr 16, hdr 31, { hdr 1 with seq := 2 ^ 32 - 1 }, { hdr 1 with t := 2 ^ 64 - 1 }],
      WellFormed (.leaseRelease h) = true := by decide +kernel

theorem test_wf_frame_refused :
    ∀ f ∈ [{ queued1 with dst := 2 ^ 48 }, { queued1 with vid := 4096 }, { queued1 with rtag := some 65536 },
        { queued1 with version := 256 }, { queued1 with opcode := 65536 }, { queued1 with seq := 2 ^ 32 },
        { queued1 with epoch := 2 ^ 32 }, { queued1 with commander := 65536 }, { queued1 with session := 65536 },
        { queued1 with length := 65536 }, { queued1 with status := 65536 }, { queued1 with modNum := 256 },
        { queued1 with notAfter := 2 ^ 64 }],
      WellFormed (.hawserFrame 0 f 0) = false := by decide +kernel

theorem test_wf_packet_refused :
    ∀ p ∈ [{ packetTo 0 0 with version := 16 }, { packetTo 0 0 with ptype := 16 }, { packetTo 0 0 with vc := 8 },
        { packetTo 0 0 with path := 2 }, { packetTo 0 0 with lane := 2 }, { packetTo 0 0 with dstPart := 32 },
        { packetTo 0 0 with dstDie := 4 }, { packetTo 0 0 with dstModule := 256 }, { packetTo 0 0 with srcModule := 256 },
        { packetTo 0 0 with srcPart := 32 }, { packetTo 0 0 with srcDie := 4 }, { packetTo 0 0 with srcEpoch := 2 ^ 32 },
        { packetTo 0 0 with dstEpoch := 2 ^ 32 }, { packetTo 0 0 with seq := 2 ^ 64 }, { packetTo 0 0 with step := 2 ^ 32 },
        { packetTo 0 0 with keyId := 65536 }, { packetTo 0 0 with dstRole := 65536 }, { packetTo 0 0 with telltale := 2 ^ 64 },
        { packetTo 0 0 with payload := toLe 4097 0 }],
      WellFormed (.data 0 p 0) = false := by decide +kernel

theorem test_wf_hello_refused :
    ∀ b ∈ [aHello ready, { aHello ready with modNum := 256 }, { aHello ready with port := 32, allocs := (upTo 12) },
        { aHello ready with allocs := 4096 :: upTo 11 }, { aHello ready with nonce := 2 ^ 64, allocs := upTo 12 }],
      WellFormed (.hello 0 b 0) = false := by decide +kernel

theorem test_wf_operands_refused :
    ∀ i ∈ [Instr.echo (hdr 1) (toLe 1444 0), .echo (hdr 1) (toLe 3 0), .regRead (hdr 1) (2 ^ 32) 1, .regRead (hdr 1) 0 65536,
        .memWrite (hdr 1) 0 (toLe 1441 0) 0, .memRead (hdr 1) (2 ^ 64) 1 0, .credit 0 0 0 ⟨4096, 0⟩, .ack 0 (2 ^ 32),
        .sync 0 0 0 (2 ^ 48) 0 0, .trustWrite 0 (toLe 65 0) true, .trustWrite 256 [] true, .lineWrite 0 (toLe 65 0) ⟨[], []⟩
        ⟨[], []⟩ 0, .budgetSet (hdr 1) ⟨65536, 0, true, false, 0, 0⟩, .budgetSet (hdr 1) ⟨0, 256, true, false, 0, 0⟩,
        .budgetSet (hdr 1) ⟨0, 0, true, false, 2 ^ 32, 0⟩, .budgetSet (hdr 1) ⟨0, 0, true, false, 0, 2 ^ 64⟩,
        .kvShip (hdr 16) ⟨2 ^ 32, false, 0, 0, 0, 0⟩, .kvShip (hdr 16) ⟨0, false, 256, 0, 0, 0⟩,
        .kvShip (hdr 16) ⟨0, false, 0, 0, 0, 2 ^ 32⟩, .seize (2 ^ 64)],
      WellFormed i = false := by decide +kernel

theorem test_wf_role_refused :
    ∀ a ∈ [(⟨65536, 0, 0, 0, 0, 0, 0⟩ : RoleAssign), ⟨0, 256, 0, 0, 0, 0, 0⟩, ⟨0, 0, 256, 0, 0, 0, 0⟩, ⟨0, 0, 0, 2 ^ 32, 0, 0, 0⟩,
        ⟨0, 0, 0, 0, 256, 0, 0⟩, ⟨0, 0, 0, 0, 0, 256, 0⟩, ⟨0, 0, 0, 0, 0, 0, 2 ^ 64⟩],
      WellFormed (.roleAssign (hdr 1) a) = false := by decide +kernel

theorem test_wf_point_refused :
    ∀ at_ : FPoint, 256 ≤ at_.point → WellFormed (.fairleadGrant at_ 0 0) = false := by
  intro at_ h
  have e : FPoint.wf at_ = false := decide_eq_false (by omega)
  simp [WellFormed, e]

theorem witness_StepRunsFrontCommand : State.reset.pending = [] := rfl

theorem witness_StepKeepsMemoryCanonical : State.reset.Inv ∧ step State.reset = .next State.reset := by
  refine ⟨?_, rfl⟩
  unfold State.Inv
  decide

theorem witness_FlashCountsNeverFall : step State.reset = .next State.reset := rfl

theorem witness_TimeNeverRunsBack :
    step State.reset = .next State.reset ∧ ∀ c ∈ State.reset.pending.head?, c.restartsTime = false :=
  ⟨rfl, fun _ h => nomatch h⟩

theorem witness_StepCountersMoveOnlyAtCommits :
    step State.reset = .next State.reset ∧ ∀ c ∈ State.reset.pending.head?, c.movesCounter = false :=
  ⟨rfl, fun _ h => nomatch h⟩

theorem witness_CommandFrames : ∃ t, exec (.debugOpen 0) State.reset = .next t := ⟨_, rfl⟩

theorem witness_FreeValuesAreTakenOnce : step State.reset = .next State.reset := rfl

theorem witness_RefusedCommandsDoNothing :
    (Instr.echo { hdr 1 with seq := 2, epoch := 7 } []).opcode = some ({ hdr 1 with seq := 2, epoch := 7 }, 1) ∧
    ready.update.paused = none ∧ (ready.tick 0).session 1 = some openSession ∧
    openSession.queue.any (fun q => q.seq == 2) = false ∧ (ready.tick 0).refusal 1 7 1 = some stLeaseLost := by
  refine ⟨rfl, rfl, rfl, rfl, by decide⟩

theorem witness_RepliesAreKept : ready.session 1 = some openSession ∧ mget openSession.via 1 = none := ⟨rfl, rfl⟩

theorem witness_FinishedHitchesAreDone :
    ∃ e ∈ ((hitching 8).strand (runOf 8).st).queue, e.id = (runOf 8).e.id := ⟨_, List.mem_singleton.2 rfl, rfl⟩

theorem witness_VectorFloatOperations :
    (∀ v ∈ [0x00, 0x01, 0x02, 0x03, 0x04, 0x05, 0x06, 0x07, 0x08, 0x09, 0x0A, 0x0B, 0x0C, 0x0D, 0x0E, 0x0F, 0x10, 0x11, 0x12, 0x18,
      0x19, 0x1A, 0x1B, 0x1C, 0x40, 0x41], ∃ (s t : State) (r : Run), s.starts 0 0x08 (isVop v) Upset.none r t) ∧ Upset.none.residue = false := by
  refine ⟨fun v hv => ?_, rfl⟩
  refine ⟨_, _, _, hitching_starts (BitVec.ofNat 512 (8 + 2 ^ 128 * v)) 0x08 (isVop v) ?_ ?_ ?_ (by decide)⟩ <;>
    revert v <;> decide +kernel

theorem witness_VectorIntegerAndCrossLaneOperations :
    ∀ v ∈ [0x1D, 0x20, 0x21, 0x22, 0x23, 0x24, 0x25, 0x26, 0x27, 0x28, 0x30, 0x38, 0x39, 0x3A],
      ∃ (s t : State) (r : Run), s.starts 0 0x08 (isVop v) Upset.none r t := by
  intro v hv
  refine ⟨_, _, _, hitching_starts (BitVec.ofNat 512 (8 + 2 ^ 128 * v)) 0x08 (isVop v) ?_ ?_ ?_ (by decide)⟩ <;>
    revert v <;> decide +kernel

theorem witness_ScratchHitchesComplete :
    (∃ (s t : State) (r : Run), s.starts 0 0x09 (fun _ => true) Upset.none r t ∧ vmemFmt (fld r.w 0x10 11 8) = some .fp32 ∧
      fld r.w 0x14 20 0 + 1024 ≤ 0x200000) ∧
    (∃ (s t : State) (r : Run), s.starts 0 0x0A (fun _ => true) Upset.none r t ∧ vmemFmt (fld r.w 0x10 11 8) = some .fp32 ∧
      fld r.w 0x14 20 0 + 1024 ≤ 0x200000 ∧ hRound r.w = 0) ∧
    (∃ (s t : State) (r : Run), s.starts 0 0x0B (fun _ => true) Upset.none r t ∧ hRound r.w = 0 ∧ flag r.w 0x24 12 = false ∧
      convertSrc (fld r.w 0x24 3 0) (flag r.w 0x24 4) = some .fp32 ∧ convertDst (fld r.w 0x24 11 8) false = some .fp32) ∧
    (∃ (s t : State) (r : Run), s.starts 0 0x10 (fun _ => true) Upset.none r t ∧ fld r.w 0x24 1 0 ≤ 1 ∧ fld r.w 0x24 3 2 ≤ 1 ∧
      inSpace (fld r.w 0x24 1 0) (fld r.w 0x10 63 0) (fld r.w 0x20 24 0) = true) ∧
    (∃ (s t : State) (r : Run), s.starts 0 0x38 (fun _ => true) Upset.none r t ∧ t.pmaOk r.p (fld r.w 0x20 63 0) 16 = true ∧
      t.mirror r = false ∧ (t.storeP (some r.die) r.p (fld r.w 0x20 63 0) (toLe 16 0) []).1 = stOk) ∧
    ∃ (r : Run) (t : State), (hitching 0).issue 0 0 (fun _ => true) = some (r, t) := by
  refine ⟨⟨_, _, _, hitching_starts (BitVec.ofNat 512 (9 + 2 ^ 136 * 9)) 0x09 _ ?_ rfl ?_ (by decide), ?_, ?_⟩, 
    ⟨_, _, _, hitching_starts (BitVec.ofNat 512 (10 + 2 ^ 136 * 9)) 0x0A _ ?_ rfl ?_ (by decide), ?_, ?_, ?_⟩,
    ⟨_, _, _, hitching_starts (BitVec.ofNat 512 (11 + 2 ^ 288 * 2313)) 0x0B _ ?_ rfl ?_ (by decide), ?_, ?_, ?_, ?_⟩,
    ⟨_, _, _, hitching_starts (BitVec.ofNat 512 16) 0x10 _ ?_ rfl ?_ (by decide), ?_, ?_, ?_⟩,
    ⟨_, _, _, hitching_starts (BitVec.ofNat 512 (56 + 2 ^ 192)) 0x38 _ ?_ rfl ?_ (by decide), ?_, ?_, ?_⟩,
    let ⟨t, h, _⟩ := hitching_starts 0 0 (fun _ => true) (by decide +kernel) rfl
      (by decide +kernel) (by decide); ⟨_, t, h⟩⟩ <;> decide +kernel

/-- A MATMUL of one row and one column, K 0, that starts the array from zero. -/
def mm : HitchWord := BitVec.ofNat 512 (1 + 2 ^ 381)

theorem parseSave_zeros {l : List Byte} (h : ∀ b ∈ l, b = 0) : (parseSave l).isSome = true := by
  have c0 : (parseCol ((upTo 128).map fun _ => 0) false).isNone = false := by decide +kernel
  unfold parseSave
  dsimp only
  rw [if_neg]
  · rfl
  · rw [Bool.not_eq_true, List.any_eq_false]
    intro x hx
    obtain ⟨c, _, rfl⟩ := List.mem_map.1 hx
    rw [ofLe_zeros fun b hb => h b (List.mem_of_mem_drop hb), show bit 0 c = false by simp [bit]]
    have : ((upTo 128).map fun i => leAt l (c * 1792 + 14 * i) 14) = (upTo 128).map fun _ => 0 :=
      List.map_congr_left fun i _ => leAt_zeros h _ _
    rw [this, c0]
    exact Bool.false_ne_true

/-- A MATMUL of one row and column over one product with CLEAR and a readout. -/
def mmOut : HitchWord := wordOf 1 [(0x28, 0, 1), (0x2C, 29, 1), (0x2C, 30, 1), (0x20, 0, 1), (0x20, 16, 1)]

theorem witness_MatrixHitchesComplete :
    ((hitching mm).starts 0 0x01 (fun _ => true) Upset.none (runOf mm) (begun mm) ∧ (MatJob.of mm).inRange = true ∧
      (MatJob.of mm).rd = false ∧ (begun mm).stepsBefore (runOf mm) true + (MatJob.of mm).k ≤ 1048576) ∧
    (flag mm 0x2C 30 = false ∧ flag mm 0x2C 20 = false ∧ flag mm 0x2C 28 = false ∧ flag mm 0x2C 29 = true ∧
      fld mm 0x28 20 0 ≤ 1048576 ∧ (operandFmt (fld mm 0x2C 19 16) false).isSome = true ∧
      (operandFmt (fld mm 0x2C 27 24) false).isSome = true ∧
      inSpace (fld mm 0x10 31 31) (rowsEnd (fld mm 0x10 22 0) (16 * fld mm 0x20 15 0) 1 0) 0 = true) ∧
    ((hitching mmOut).starts 0 0x01 (fun _ => true) Upset.none (runOf mmOut) (begun mmOut) ∧ (MatJob.of mmOut).inRange = true ∧
      (MatJob.of mmOut).rd = true ∧ (MatJob.of mmOut).clear = true ∧ arrayIntact Upset.none ∧
      (begun mmOut).stepsBefore (runOf mmOut) true + (MatJob.of mmOut).k ≤ 1048576) ∧
    ((hitching 2).starts 0 0x02 (fun _ => true) Upset.none (runOf 2) (begun 2) ∧ fld (runOf 2).w 0x10 31 0 + 229392 ≤ 0x200000 ∧
      ((((begun 2).strand 0).acc).upset Upset.none).passes = true ∧ Upset.none.accBad = false) ∧
    (hitching 3).starts 0 0x03 (fun _ => true) Upset.none (runOf 3) (begun 3) ∧ fld (runOf 3).w 0x10 31 0 + 229392 ≤ 0x200000 ∧
      (parseSave ((begun 3).peek (scratchBase 0 + 0) 229392)).isSome = true ∧
      ({ Acc.empty.upset Upset.none with nonFinite := [] } : Acc).passes = true := by
  refine ⟨⟨hitching_starts mm 1 _ (by decide +kernel) rfl (by decide +kernel) (by decide), by decide +kernel⟩,
    by decide +kernel,
    ⟨hitching_starts mmOut 1 _ (by decide +kernel) rfl (by decide +kernel) (by decide), by decide +kernel, by decide +kernel,
      by decide +kernel, ⟨rfl, rfl, rfl, rfl⟩, by decide +kernel⟩,
    ⟨hitching_starts 2 2 _ (by decide +kernel) rfl (by decide +kernel) (by decide), by decide +kernel⟩,
    hitching_starts 3 3 _ (by decide +kernel) rfl (by decide +kernel) (by decide), by decide +kernel, parseSave_zeros fun b hb => ?_,
    by decide +kernel⟩
  obtain ⟨i, _, rfl⟩ := List.mem_map.1 hb
  rfl

/-- A pixel geometry of one input and one output pixel, at scratch 0. -/
def onePixel : List Host.Cell :=
  cells (scratchBase 0) [(0, 1), (2, 1), (4, 1), (7, 1), (8, 1), (9, 1), (10, 1), (11, 1), (12, 1), (13, 1), (0x14, 1), (0x39, 1)]

/-- A FORWARD or BACKWARD of one entry of no query. -/
def attnOne (k : Nat) : HitchWord :=
  wordOf 0x18 [(0x10, 0, k), (0x14, 8, 1), (0x2C, 6, 1), (0x10, 8, 7), (0x10, 16, 7), (0x10, 20, 7), (0x20, 0, 0x10000),
    (0x28, 0, 0x20000), (0x30, 0, 0x40000), (0x1C, 0, 0x80000)]

/-- Its parameter block, with a length table of one entry behind it. -/
def attnMem : List Host.Cell := cells 0 [(0, 64), (0x14, 1), (0x3A, 1), (0x3E, 2)]

theorem attnOne_good (k : Nat) (hk : k ∈ [0, 1]) : (begunOn attnMem 0x18 (attnOne k)).attnGood (runOf (attnOne k)) (k == 1) := by
  have hn : (Attn.of (runOf (attnOne k)).w ((begunOn attnMem 0x18 (attnOne k)).peekP (runOf (attnOne k)).p
      (Machine.fld (runOf (attnOne k)).w 0x38 63 0) 64)).n = 1 := by revert k; decide +kernel
  refine ⟨good_on _ _ _, ?_, ?_, ?_, ?_, .inl hn⟩
  · revert k; decide +kernel
  · revert k; decide +kernel
  · revert k; decide +kernel
  · rw [hn]
    refine ⟨?_, ?_, fun h => absurd ?_ h, trivial⟩
    all_goals revert k; decide +kernel

theorem witness_LargeHitchesComplete :
    (∀ k ∈ [0, 1], (hitchingOn attnMem (attnOne k)).starts 0 0x18 (fun w => fld w 0x10 1 0 == k) Upset.none (runOf (attnOne k))
        (begunOn attnMem 0x18 (attnOne k)) ∧ (begunOn attnMem 0x18 (attnOne k)).attnGood (runOf (attnOne k)) (k == 1)) ∧
    (∃ s t r, State.starts s 0 0x20 (fun _ => true) Upset.none r t ∧ inScratch (fld r.w 0x28 20 0) 64 = true ∧
      (t.convJob r).status (t.stepsBefore r (t.convJob r).clear) = stOk ∧ (t.convJob r).rd = false) ∧
    (∃ s t r, State.starts s 0 0x20 (fun _ => true) Upset.none r t ∧ inScratch (fld r.w 0x28 20 0) 64 = true ∧
      (t.convJob r).status (t.stepsBefore r (t.convJob r).clear) = stOk ∧ (t.convJob r).clear = true ∧ arrayIntact Upset.none) ∧
    (∃ s t r, State.starts s 0 0x21 (fun _ => true) Upset.none r t ∧ inScratch (fld r.w 0x1C 20 0) 64 = true ∧
      (t.poolJob r).status = stOk ∧ Upset.none.residue = false) ∧
    (∃ s t r, State.starts s 0 0x22 (fun _ => true) Upset.none r t ∧ t.cropGood r ∧ Upset.none.mem = []) ∧
    (∃ s t r, State.starts s 0 0x31 (fun _ => true) Upset.none r t ∧
      inScratch (rowsEnd (fld r.w 0x10 20 0) (16 * fld r.w 0x20 15 0) (fld r.w 0x18 15 0) (4 * fld r.w 0x14 12 0)) 0 = true ∧
      inScratch (fld r.w 0x1C 20 0) (fld r.w 0x18 15 0 * (fld r.w 0x14 19 16 + 1) * 4) = true) ∧
    (∃ s t r, State.starts s 0 0x30 (fun _ => true) Upset.none r t ∧ fld r.w 0x28 15 0 = 1 ∧ fld r.w 0x24 11 0 = 32 ∧
      inSpace (fld r.w 0x10 3 3) (fld r.w 0x14 22 0) (1 * 1 * (32 * Fmt.bf16.width / 8)) = true ∧
      (Fmt.ofCode (fld r.w 0x10 7 4)).getD .bf16 = .bf16 ∧ flag r.w 0x10 2 = false ∧
      (∀ i < 1, (rawRow (t.peek (r.place 0 (fld r.w 0x1C 20 0 + 14 * i * 32)) (14 * 32)) 32).isSome = true)) ∧
    (∃ s t r, State.starts s 0 0x28 (fun w => !(flag w 0x10 0)) Upset.none r t ∧ t.sendGood r) ∧
    ∃ s t r, State.starts s 0 0x28 (fun w => flag w 0x10 0) Upset.none r t ∧ t.returnGood r := by
  refine ⟨fun k hk => ⟨starts_on attnMem (attnOne k) 0x18 _ ?_ ?_ ?_, attnOne_good k hk⟩,
    ⟨_, _, _, starts_on onePixel (wordOf 0x20 [(0x38, 0, 1), (0x38, 8, 1), (0x3C, 16, 1), (0x2C, 29, 1)]) 0x20 _ ?_ rfl ?_, ?_, ?_, ?_⟩,
    ⟨_, _, _, starts_on onePixel (wordOf 0x20 [(0x38, 0, 1), (0x38, 8, 1), (0x3C, 16, 1), (0x2C, 29, 1), (0x2C, 30, 1)]) 0x20 _ ?_ rfl ?_,
      ?_, ?_, ?_, ⟨rfl, rfl, rfl, rfl⟩⟩,
    ⟨_, _, _, starts_on onePixel (wordOf 0x21 [(0x28, 16, 1)]) 0x21 _ ?_ rfl ?_, ?_, ?_, rfl⟩,
    ⟨_, _, _, starts_on (cells 0 [(1, 1), (8, 1), (0xA, 1), (0xC, 1), (0x10, 0x10)]) (wordOf 0x22 [(0x10, 0, 1), (0x30, 0, 1),
      (0x30, 16, 1), (0x34, 0, 1), (0x38, 0, 4096), (0x18, 0, 128)]) 0x22 _ ?_ rfl ?_,
      .inr ⟨.inl ?_, good_on _ _ _, ?_, ?_, ?_, ?_⟩, rfl⟩,
    ⟨_, _, _, starts_on [] (wordOf 0x31 []) 0x31 _ ?_ rfl ?_, ?_, ?_⟩,
    ⟨_, _, _, starts_on (cells (scratchBase 0) []) (wordOf 0x30 [(0x10, 4, 7), (0x28, 0, 1), (0x24, 0, 32), (0x18, 0, 0x1000)]) 0x30 _ ?_ rfl ?_, ?_⟩,
    ⟨_, _, _, starts_on (cells (scratchBase 0) [(0, 255), (1, 255)]) (wordOf 0x28 [(0x14, 0, 1), (0x24, 0, 1), (0x2C, 0, 32)]) 0x28 _ ?_ ?_ ?_,
      ?_, good_on _ _ _, ?_, ?_, ?_, fun i hi => .inl (by revert i; decide +kernel)⟩,
    ⟨_, _, _, starts_on [] (wordOf 0x28 [(0x10, 0, 1), (0x14, 16, 1)]) 0x28 _ ?_ ?_ ?_, ?_, ?_, ?_, .inr ⟨good_on _ _ _, ?_⟩⟩⟩
  all_goals first | decide +kernel | (revert k; decide +kernel)

theorem witness_ServingAndControlHitchesComplete :
    (∃ s t r, State.starts s 0 0x1A (fun w => fld w 0x10 31 30 == 0) Upset.none r t ∧ fld r.w 0x10 21 0 < (t.part r.p).chainSize ∧
      (t.chain 0).state = .opened ∧ t.mirror r = false ∧ fld r.w 0x14 20 0 = (t.chain 0).len + (t.entriesOf 0).length ∧
      (t.entriesOf 0).length < 16 ∧ (t.freeGroup r.die r.p (bightSlots 8 false 32)).isSome = true) ∧
    (∃ s t r, State.starts s 0 0x1A (fun w => fld w 0x10 31 30 == 1) Upset.none r t ∧ t.mirror r = false ∧
      mget t.kv.accepts 0 = none ∧ ∀ c ∈ t.seqChains 0, fld r.w 0x14 4 0 ≤ (t.entriesIn c .pending).length) ∧
    (∃ s t r, State.starts s 0 0x39 (fun _ => true) Upset.none r t ∧ fld r.w 0x10 17 0 < (t.part r.p).seqSize ∧ t.mirror r = false ∧
      ((mgetD t.serve.batch r.p []).find? fun e => e.seq == 0) = some ⟨0, false, 0, 8, 0, false, 0, 0, [], false, []⟩ ∧
      fld r.w 0x14 4 0 = 1 ∧ fld r.w 0x18 20 0 + 8 ≤ 0x200000) ∧
    (∀ w ∈ ([0x3C, wordOf 0x19 [(0x20, 16, 1)], 0x3D] : List HitchWord), ∃ s : State, s.headHitch 0 0 = some (0, w) ∧
      s.partOf 0 = some 0 ∧ s.controlReady 0 0 0 w true = true ∧ s.pmaOk 0 (fld w 0x10 63 0) 64 = true ∧
      s.preStatus 0 0 w ((if hOpcode w = 0x3C then linkBad w else if hOpcode w = 0x19 then walkBad w
        else !(zeroBytes w 0x10 0x40) || knotValid (hSignal w)) || 0 == lastIndex) = stOk) := by
  refine ⟨⟨_, _, _, starts_on [] (wordOf 0x1A []) 0x1A _ (by decide +kernel) (by decide +kernel) (by decide +kernel), by decide +kernel⟩, ⟨_, _, _, starts_on [] (wordOf 0x1A [(0x10, 30, 1)]) 0x1A _ (by decide +kernel) (by decide +kernel)
      (by decide +kernel), by decide +kernel⟩,
    ⟨_, _, _, starts_on [] (wordOf 0x39 [(0x14, 0, 1)]) 0x39 _ (by decide +kernel) rfl (by decide +kernel), by decide +kernel⟩, fun w hw => ⟨controlling w, ?_⟩⟩
  simp only [List.mem_cons, List.not_mem_nil, or_false] at hw
  rcases hw with rfl | rfl | rfl <;> decide +kernel

/-- A COLLECTIVE of operation k. -/
def collWord (k : Nat) : HitchWord := wordOf 0x29 [(0x10, 0, k)]
/-- A group of one member, module 0, at PMA 0. -/
def oneGroup : List Host.Cell := cells 0 [(0, 1), (8, 64)]
/-- It has issued. -/
def collState (k : Nat) : State := (hitchingOn oneGroup (collWord k)).reachEngine 0 0x29

theorem witness_CollectivesStart :
    ∀ k ∈ [0, 1, 2, 3], ((hitchingOn oneGroup (collWord k)).engine 0).colls.length < 16 ∧
      (hitchingOn oneGroup (collWord k)).issue 0 0x29 (fun w => collOp w == k) = some (runOf (collWord k), collState k) ∧
      (collState k).keyless 0 = false ∧ (collState k).mirror (runOf (collWord k)) = false ∧
      fld (collWord k) 0x10 21 16 < (collState k).colForce 0 1 ∧
      ((collState k).step 0).collIds.contains (4 * fld (collWord k) 0x14 31 0 + 0) = false ∧
      (collState k).groupGood (runOf (collWord k)) ∧ (collState k).collRanges ((collState k).collOf 0 (runOf (collWord k))) = true := by
  intro k hk
  have e : collState k = hitchingOn oneGroup (collWord k) := reachEngine_on _ _ _
  refine ⟨?_, issues_on _ _ _ _ ?_ ?_ ?_, ?_⟩
  rotate_right
  · rw [e]
    clear e
    refine ⟨?_, ?_, ?_, ?_, ⟨memGood_one rfl (awake_ready rfl) rfl, ?_⟩, ?_⟩
    all_goals (revert k; decide +kernel)
  all_goals first | decide +kernel | (clear e; revert k; decide +kernel)

theorem witness_LeaseCommandsComplete :
    (ready.runs (hdr 1) 0x0300 (ready.tick 0) ∧ (ready.tick 0).lease.holder = 1 ∧ 0 < (ready.tick 0).lease.expiry) ∧
    (ready.runs (hdr 1) 0x0301 (ready.tick 0) ∧ (ready.tick 0).lease.holder ≠ 0) ∧
    (∃ s : State, s.runs (hdr 1) 0x0301 (s.tick 0) ∧ (s.tick 0).lease.holder = 0 ∧ (hdr 1).epoch = (s.tick 0).lease.epoch) ∧
    (ready.runs (hdr 1) 0x0302 (ready.tick 0) ∧ (ready.tick 0).holdsAt 1 ((ready.tick 0).cmdNow 1 (hdr 1).seq) = true) ∧
    (ready.runs (hdr 1) 0x0303 (ready.tick 0) ∧ (7 : Nat) ≠ (ready.tick 0).self ∧ mget (ready.tick 0).ecron.directory 5 = none) ∧
    ∃ s : State, s.runs (hdr 1) 0x0304 (s.tick 0) ∧ (s.tick 0).holdsAt 1 ((s.tick 0).cmdNow 1 (hdr 1).seq) = true ∧ (hdr 1).epoch = (s.tick 0).lease.epoch ∧
      (s.tick 0).thermo.shut = false ∧ (s.tick 0).lease.seized = true :=
  ⟨⟨commander_runs _ ⟨rfl, rfl, rfl, rfl⟩, rfl, by decide⟩, ⟨commander_runs _ ⟨rfl, rfl, rfl, rfl⟩, by decide⟩,
    ⟨{ ready with lease := State.reset.lease }, commander_runs _ ⟨rfl, rfl, rfl, rfl⟩, rfl, rfl⟩,
    ⟨commander_runs _ ⟨rfl, rfl, rfl, rfl⟩, rfl⟩, ⟨commander_runs _ ⟨rfl, rfl, rfl, rfl⟩, by decide, rfl⟩,
    ⟨{ ready with lease := { ready.lease with seized := true } }, commander_runs _ ⟨rfl, rfl, rfl, rfl⟩, rfl, rfl, rfl, rfl⟩⟩

/-- The state in which a holder has been silent for a second. -/
def silent (a b : Nat) : State :=
  { ready with
    hostPorts := [(0, { HostPort.empty with lastHb := some a }), (1, { HostPort.empty with lastHb := some b })]
    lease := { ready.lease with armed := true, roleDuration := 50 } }

theorem witness_LeaseEventsComplete :
    (5 ≤ ((silent 0 100000000).tick 100000000).misses 0 ∧ ((silent 0 100000000).tick 100000000).misses 1 < 5 ∧
      (((silent 0 100000000).tick 100000000).hostPort 0).silentSent = false ∧
      ((silent 0 100000000).tick 100000000).update.paused = none) ∧
    (((silent 0 0).tick 100000000).lease.holder ≠ 0 ∧ ((silent 0 0).tick 100000000).lease.lost = false ∧
      5 ≤ ((silent 0 0).tick 100000000).misses 0 ∧ 5 ≤ ((silent 0 0).tick 100000000).misses 1 ∧
      ((silent 0 0).tick 100000000).update.paused = none) ∧
    ready.lease.expiry ≤ 1000 ∧
    (((silent 0 0).tick 50000000).lease.seized = false ∧ ((silent 0 0).tick 50000000).lease.armed = true ∧
      ((silent 0 0).tick 50000000).lease.roleLast + 1000000 * (50 + 0) ≤ ((silent 0 0).tick 50000000).now ∧
      ((silent 0 0).tick 50000000).update.paused = none ∧ ((silent 0 0).tick 50000000).update.stamps = []) := by
  decide

theorem witness_FramesJoinTheirQueue :
    ((linked.tick 0).hostUp 0 = true ∧ (linked.tick 0).update.paused = none ∧ ((linked.tick 0).portTake 0 frame2 0).1 = true ∧
      frame2.length = frame2.params.length ∧ frameSession frame2 = some 1 ∧
      ((linked.tick 0).portTake 0 frame2 0).2.session 1 = some openSession ∧ frame2.tagKey = openSession.key ∧
      openSession.window.dup 2 = false ∧ openSession.window.late 2 = false ∧ openSession.queue.length < 64 ∧
      (((linked.tick 0).portTake 0 frame2 0).2.modSession 1 fun x =>
        { x with window := x.window.enter 2, via := mset x.via 2 none }).frameRefusal 1 frame2 = none) ∧
    ((openSession.window.enter 2).dup 2 = true ∧ ({ openSession with replies := [⟨2, 0, []⟩] } : Session).replies.find? (fun r => r.seq == 2)
      = some ⟨2, 0, []⟩) ∧
    (Window.empty.enter 5000).late 2 = true ∧ (Window.empty.enter 5000).dup 2 = false := by
  decide +kernel

theorem witness_PortsDropWhatTheyMust :
    (linked.tick 0).hostUp 0 = true ∧ (linked.tick 0).update.paused = none ∧
    frame2.vid = bits (((linked.tick 0).inc (Reg.hstPortRxCount 0)).reg Reg.hstCtrl) 27 16 ∧
    (-32 < tagDelta 5 36 ∧ tagDelta 5 36 < 32) ∧ (-32 < tagDelta 36 5 ∧ tagDelta 36 5 < 32) ∧ ¬ -32 < tagDelta 5 37 ∧
    ∃ s : State, s.recoveries = [] ∧ bit (s.reg Reg.hstCtrl) 2 = true ∧ s.qciFilter frame2 = none :=
  ⟨by decide +kernel, rfl, by decide +kernel, by decide, by decide, by decide,
    { linked with regs := [(Reg.hstCtrl, 7)] }, rfl, by decide +kernel, by decide +kernel⟩

theorem witness_ModuleTimeFollowsItsPort :
    ((linked.tick 5).syncValid 0 = false ∧ (linked.tick 5).ptp.state = 0) ∧
    (∃ s : State, s.syncValid 0 = true) ∧
    (∃ s : State, s.ptp.state ≠ 0 ∧ s.ptp.port = 0 ∧ s.syncValid 0 = false) ∧
    ∃ s : State, s.ptp.state = 1 ∧ ∀ p < 2, ∀ a, (s.hostPort p).syncAt = some a → a + 2000000000 ≤ s.now :=
  ⟨by decide +kernel, ⟨{ linked with hostPorts := [(0, { HostPort.empty with syncAt := some 0 })] }, by decide +kernel⟩,
    ⟨{ linked with ptp := { ready.ptp with state := 1, port := 0 } }, by decide, rfl, by decide +kernel⟩,
    { linked with ptp := { ready.ptp with state := 1 } }, rfl, fun p hp a h => by
      obtain rfl | rfl : p = 0 ∨ p = 1 := by omega
      · exact nomatch h
      · exact nomatch h⟩

/-- `linked` with a gate list at work and another waiting, and domains of the host ports on. -/
def gated : State :=
  { linked with
    power := { ready.power with doms := [(52, { Domain.empty with state := .on })] }
    recoveries := [(1, { high := 0, taken := [0], at_ := 0 })]
    hostPorts := [(0, { HostPort.empty with
      linkUp := true, gateOn := true, gateList := [(1, 10)], gateWait := some (true, [(2, 10)], 100, 50) })] }

theorem witness_HostEventsComplete :
    ready.runs (hdr 1) 0x0001 (ready.tick 0) ∧ ready.runs (hdr 1) 0x0005 (ready.tick 0) ∧
    ready.session 1 = some openSession ∧ ready.update.paused = none ∧ ready.lease.seized = false ∧
    linked.hostUp 0 = true ∧ linked.hostUp 1 = true ∧
    (bit ((gated.tick 0).reg Reg.hstCtrl) 0 = true ∧ 3 ≤ gated.start.phase ∧ (gated.dom 52).state = .on) ∧
    (((gated.tick 50).hostPort 0).gateWait = some (true, [(2, 10)], 100, 50) ∧ ((gated.tick 80).hostPort 0).gateOn = true ∧
      ((gated.tick 80).hostPort 0).gateStart + 80 ≤ 80) ∧
    ((gated.tick 1000000000).hostPort 0).pdelayAt + 1000000000 ≤ 1000000000 ∧
    mget gated.recoveries 1 = some { high := 0, taken := [0], at_ := 0 } :=
  ⟨runs1 _, runs1 _, rfl, rfl, rfl, by decide +kernel, by decide +kernel, by decide +kernel, by decide +kernel, by decide +kernel, rfl⟩

theorem witness_RegisterCommandsCoverConsecutiveWords :
    ready.runs (hdr 1) 0x0100 (ready.tick 0) ∧ ready.runs (hdr 1) 0x0101 (ready.tick 0) ∧
    (∀ j < 2, (ready.tick 0).access 1 (Reg.gblTimeLo + 4 * j) false = stOk) ∧
    (∃ j < 2, (ready.tick 0).access 1 (0xFFFFFC + 4 * j) false ≠ stOk) ∧
    (∀ j < 1, (ready.tick 0).access 1 (Reg.hstCtrl + 4 * j) true = stOk) ∧
    (ready.tick 0).access 1 (0xFFFFFC + 4 * 0) true ≠ stOk :=
  ⟨runs1 _, runs1 _, by decide +kernel, ⟨0, by decide, by decide +kernel⟩, by decide +kernel, by decide +kernel⟩

theorem witness_CoherentModuleTime :
    ready.runs (hdr 1) 0x0100 (ready.tick 0) ∧ isCommander (hdr 1).session = true ∧ (ready.tick 0).session 1 = some openSession ∧
    (ready.tick 0).frozen 1 Reg.gblTimeLo = none ∧ (ready.tick 0).frozen 1 Reg.gblTimeHi = none :=
  ⟨runs1 _, rfl, rfl, by decide +kernel, by decide +kernel⟩

theorem witness_ModifyIsOneStep :
    ready.runs (hdr 1) 0x0102 (ready.tick 0) ∧ (ready.tick 0).access 1 Reg.ecnBulkTimeout true = stOk ∧
    (∃ r ix, regAt Reg.ecnBulkTimeout = some (r, ix) ∧ 0x10005 &&& rwMask r ix ≠ 0x10005 ∧ 5 &&& rwMask r ix = 5 ∧ r.access = .rw ∧ groupAt r ix = none ∧
      homeAddr r ix Reg.ecnBulkTimeout = Reg.ecnBulkTimeout) ∧
    ((ready.tick 0).reachReg Reg.ecnBulkTimeout).seenReg 1 Reg.ecnBulkTimeout < 2 ^ 32 := by
  refine ⟨runs1 _, by decide +kernel, ?_, by decide +kernel⟩
  obtain ⟨x, h⟩ := Option.isSome_iff_exists.1 (show (regAt Reg.ecnBulkTimeout).isSome = true by decide +kernel)
  refine ⟨x.1, x.2, h, ?_⟩
  have : ∀ y ∈ regAt Reg.ecnBulkTimeout, 0x10005 &&& rwMask y.1 y.2 ≠ 0x10005 ∧ 5 &&& rwMask y.1 y.2 = 5 ∧ y.1.access = .rw ∧ groupAt y.1 y.2 = none ∧
      homeAddr y.1 y.2 Reg.ecnBulkTimeout = Reg.ecnBulkTimeout := by decide +kernel
  exact this x h

/-- A register that a commander's session may write, or read, with this access. -/
def reachable (addr : Nat) (write : Bool) (a : Access) : Prop :=
  (ready.tick 0).access 1 addr write = stOk ∧ (regAt addr).map (fun x => x.1.access) = some a

theorem witness_OneWordWritesAndCounterReads :
    ready.runs (hdr 1) 0x0101 (ready.tick 0) ∧ ready.runs (hdr 1) 0x0100 (ready.tick 0) ∧
    reachable Reg.gblTimeLo true .ro ∧ reachable 0x1001C true .rc ∧
    (reachable 0xF1000 true .rw ∧ (regAt 0xF1000).map (fun x => (groupAt x.1 x.2).isSome) = some true) ∧
    (reachable Reg.ecnBulkTimeout true .rw ∧ (regAt Reg.ecnBulkTimeout).map (fun x => (groupAt x.1 x.2, x.1.base)) = some (none, 0xE0010)) ∧
    (reachable 0x4001C true .w1c ∧ (regAt 0x4001C).map (fun x => x.1.base) = some 0x4001C) ∧
    (reachable 0x1001C false .rc ∧ (((ready.tick 0).reachReg 0x1001C).accrue 0x1001C).frozen 1 0x1001C = none) := by
  refine ⟨runs1 _, runs1 _, ?_⟩
  unfold reachable
  decide +kernel

theorem witness_SnapshotsFreezeTheirCounters :
    ready.runs (hdr 1) 0x0101 (ready.tick 0) ∧
    (∀ a ∈ [Reg.kvpSnap 0, Reg.ecnSnap], (ready.tick 0).access 1 a true = stOk ∧
      (regAt a).map (fun x => (x.1.access, groupAt x.1 x.2, x.1.mask % 2)) = some (.rw, none, 1) ∧
      ((ready.tick 0).reachReg a).reg a % 2 ≠ 1) ∧
    ∃ s : State, s.reg Reg.ecnSnap % 2 = 1 :=
  ⟨runs1 _, by decide +kernel, { ready with regs := [(Reg.ecnSnap, 1)] }, by decide +kernel⟩

theorem witness_CommitsInstallOrDiscard :
    ready.runs (hdr 1) 0x0101 (ready.tick 0) ∧ (ready.tick 0).access 1 Reg.splCommit true = stOk ∧
    ((ready.tick 0).reachReg Reg.splCommit).session 1 = some openSession ∧
    (∃ g, groupTable.find? (fun g => g.kind == 10 && decide (0 < g.count)) = some g) ∧
    ((ready.tick 0).reachReg Reg.splCommit).groupOk 10 0 (fun _ => 0) = true ∧
    ((ready.tick 0).reachReg Reg.splCommit).groupOk 6 0 (fun _ => 1) = false ∧
    groupTable.find? (fun g => g.kind == 12 && decide (0 < g.count)) = none :=
  ⟨runs1 _, by decide +kernel, rfl, ⟨_, rfl⟩, rfl, by decide +kernel, rfl⟩

theorem witness_MemoryReadsBackWhatWasWritten :
    owning.runs (hdr 1) 0x0111 (owning.tick 0) ∧ owning.runs (hdr 1) 0x0110 (owning.tick 0) ∧
    (owning.tick 0).pmaOk 0 0 64 = true ∧ unitOf 0 = some (0, 0) ∧
    (((owning.tick 0).reach (unitDom 0) 0xC1).checkLines [] []).1 = stOk ∧
    (((owning.tick 0).reach (unitDom 0) 0xC1).readLines (((owning.tick 0).reach (unitDom 0) 0xC1).linesOf 0 0 64) []).1 = stOk ∧
    (owning.tick 0).pmaOk 0 (2 ^ 40) 64 = false :=
  ⟨owning_runs _, owning_runs _, by decide +kernel, by decide +kernel, by decide +kernel, by decide +kernel, by decide +kernel⟩

/-- PART_CREATE of partition 1 on hank 1 with k granules of stack 0. -/
def createBytes (k : Nat) : List Byte := toLe 2 1 ++ toLe 2 2 ++ toLe 20 k ++ toLe 80 0

theorem witness_PartitionCreation :
    ready.runs (hdr 1) 0x0200 (ready.tick 0) ∧ (ready.tick 0).security.debugOpen = false ∧
    (Create.parse (createBytes 4)).part = 1 ∧ ((ready.tick 0).part 1).state = .none ∧ ((ready.tick 0).part 0).state ≠ .none ∧
    (Create.parse (createBytes 4)).bad (createBytes 4) = false ∧ (Create.parse (createBytes 0)).bad (createBytes 0) = true ∧
    (ready.tick 0).createFull (Create.parse (createBytes 4)) = false ∧
    ((ready.tick 0).findRuns (Create.parse (createBytes 4))).isSome = true ∧
    ((ready.tick 0).part 0).state ≠ .creating ∧ ∃ s : State, (s.part 0).state = .creating :=
  ⟨runs1 _, rfl, by decide +kernel, by decide +kernel, by decide +kernel, by decide +kernel, by decide +kernel, by decide +kernel,
    by decide +kernel, by decide +kernel, { ready with parts := [(0, { activePart with state := .creating })] }, rfl⟩

/-- `ready` with partition 0 in a state. -/
def parted (x : PartState) : State := { ready with parts := [(0, { activePart with state := x })] }

theorem parted_runs (x : PartState) (code : Nat) : (parted x).runs (hdr 1) code ((parted x).tick 0) :=
  commander_runs code ⟨rfl, rfl, rfl, rfl⟩

theorem witness_PartitionsEnd :
    ready.runs (hdr 1) 0x0201 (ready.tick 0) ∧ ready.runs (hdr 1) 0x0202 (ready.tick 0) ∧
    (∀ x ∈ [PartState.active, .resetting, .whipping, .creating, .none], (((parted x).tick 0).part 0).state = x) ∧
    (ready.part 0).resetCmds = [] ∧
    ((ready.tick 0).modPart 0 (fun x => { x with resetCmds := x.resetCmds ++ [(1, 1)] })).commitRuns 0 = false ∧
    (∃ s : State, s.commitRuns 0 = true ∧ (s.part 0).state = .active) ∧
    ∃ s : State, (s.step 0).stopping = true ∧ (s.step 0).stopAt + 10000000 ≤ s.now :=
  ⟨runs1 _, runs1 _, by decide +kernel, rfl, rfl,
    ⟨{ ready with parts := [(0, { activePart with step := { StepRec.empty with phase := .committing } })] }, by decide +kernel, rfl⟩,
    { ready with now := 10000000, parts := [(0, { activePart with step := { StepRec.empty with stopping := true } })] }, by decide +kernel,
      by decide +kernel⟩

theorem assembled_one {b : List Byte} (h : b.length = 4736) : assembled ([] ++ [(0, b)]) = some b := by
  unfold assembled
  simp [h]

theorem requestForm_zeros {b : List Byte} (h : ∀ x ∈ b, x = 0) : requestForm 0 b = true := by
  unfold requestForm
  rw [leAt_zeros h, leAt_zeros h]
  simp only [beq_self_eq_true, Bool.true_and, Bool.and_self]
  rw [if_neg (by decide), List.all_eq_true]
  intro x hx
  obtain ⟨i, _, rfl⟩ := List.mem_map.1 hx
  rw [List.getD_eq_getElem?_getD]
  cases e : b[0x650 + i]? with
  | none => rfl
  | some c => rw [Option.getD_some, h c (List.mem_of_getElem? e)]; rfl

theorem witness_SessionsOpenAndClose :
    (ready.tick 0).update.paused = none ∧ (ready.tick 0).refusal 1 0 0x0002 = none ∧ (ready.tick 0).security.debugOpen = false ∧
    mgetD (ready.tick 0).security.openings 1 { window := Window.empty, kind := 0, frags := [] } =
      { window := Window.empty, kind := 0, frags := [] } ∧
    assembled ([] ++ [(0, List.replicate 4736 0)]) = some (List.replicate 4736 0) ∧
    assembled ([] ++ [(4, toLe 4 7)]) = none ∧
    requestForm 0 (List.replicate 4736 0) = true ∧
    requestForm 0 (toLe 64 (2 ^ 300)) = false ∧ (ready.tick 0).authority 1 0 (List.replicate 4736 0) = false ∧
    ready.runs (hdr 1) 0x0003 (ready.tick 0) ∧
    (ready.tick 0).session 1 = some openSession ∧ openSession.closing = false ∧
    ∃ s : State, s.runs (hdr 1) 0x0003 (s.tick 0) ∧ mget (s.tick 0).security.jobKeys 5 = some (16, 0) ∧
      mget (s.tick 0).security.jobKeys 6 = some (2, 0) :=
  ⟨rfl, by decide +kernel, rfl, rfl, assembled_one List.length_replicate, by unfold assembled; simp,
    requestForm_zeros fun _ h => List.eq_of_mem_replicate h, by decide +kernel, rfl, runs1 _, rfl, rfl,
    { ready with security := { ready.security with jobKeys := [(5, (16, 0)), (6, (2, 0))] } }, commander_runs _ ⟨rfl, rfl, rfl, rfl⟩, rfl, rfl⟩

theorem witness_ReportsAndSecuritySettings :
    ready.runs (hdr 1) 0x0204 (ready.tick 0) ∧ (ready.tick 0).session 1 = some openSession ∧ openSession.report = [] ∧
    (toLe 32 0).length = 32 ∧ slice (toLe 100 0) 0x38 32 = toLe 32 0 ∧
    ready.writes (hdr 1) 0x0101 Reg.secCtrl ((ready.tick 0).reachReg Reg.secCtrl) :=
  ⟨runs1 _, rfl, rfl, by decide +kernel, by decide +kernel, writes1 _ _ (by decide +kernel)⟩

theorem witness_StepControlCommandsComplete :
    (ready.writes (hdr 1) 0x0101 (Reg.hnkCtrl 0) ((ready.tick 0).reachReg (Reg.hnkCtrl 0)) ∧
      ((ready.tick 0).reachReg (Reg.hnkCtrl 0)).partOf 0 = some 0 ∧
      (((ready.tick 0).reachReg (Reg.hnkCtrl 0)).step 0).modeNext.getD (((ready.tick 0).reachReg (Reg.hnkCtrl 0)).step 0).mode < 4) ∧
    (ready.writes (hdr 1) 0x0101 (Reg.hnkCtrl 5) ((ready.tick 0).reachReg (Reg.hnkCtrl 5)) ∧
      ((ready.tick 0).reachReg (Reg.hnkCtrl 5)).partOf 5 = none) ∧
    ready.runs (hdr 1) 0x0203 (ready.tick 0) ∧ (ready.tick 0).live 0 = true ∧ (ready.tick 0).live 1 = false :=
  ⟨⟨writes1 _ _ (by decide +kernel), by decide +kernel, by decide +kernel⟩, ⟨writes1 _ _ (by decide +kernel), by decide +kernel⟩,
    runs1 _, by decide +kernel, by decide +kernel⟩

/-- A control core of a step under way: its descriptor read or not, position 0 finished or not, strand 1 spare, so that
positions 0 and 7 share place 0. -/
def fetching (read fin : Bool) : State :=
  { controlling 0 with
    parts := [(0, { activePart with step := { StepRec.empty with phase := .running } })]
    strands := [(1, { Strand.empty with avail := 1 })]
    hanks := [(0, { Hank.empty with
      pos := [(0, { next := 0, index := 0, fetched := [(0, 0)], ended := false, finished := fin, saved := false,
                    since := none, kLen := 0 }),
        (7, { next := 0, index := 0, fetched := [], ended := false, finished := false, saved := false, since := none, kLen := 0 })]
      place := [(0, 0), (1, 1), (2, 2), (3, 3), (4, 4), (5, 5), (6, 6), (7, 0)]
      onPlace := [(0, 0)]
      ramp := { level := 1800000, aim := 1800000, since := 0 }
      descRead := read })] }

/-- A read without errors. -/
def clean : ReadErr := ⟨[], []⟩

theorem witness_ControlCoresFetchEmitAndSwitch :
    (∃ s : State, s.mayStart 0 = true ∧ (s.step 0).trigger = true) ∧
    ((fetching false false).partOf 0 = some 0 ∧ (fetching false false).issuing 0 = true ∧
      ((fetching false false).hank 0).descRead = false ∧
      ((fetching false false).fetchP (some 0) 0 0 128 ((fetching false false).errAt 0 0 clean)).1 = stOk ∧
      ((fetching false false).fetchP (some 0) 0 0 128 ((fetching false false).errAt 0 0 clean)).2.1.all (fun b => b == 0) = true ∧
      ((fetching false false).fetchP (some 0) 0 0 128 ((fetching false false).errAt 0 0 clean)).2.2.pmaOk 0 0 2048 = true) ∧
    (((fetching true false).hank 0).descRead = true ∧ ((fetching true false).hank 0).seedsRead = false ∧
      ((fetching true false).fetchP (some 0) 0 0 2048 ((fetching true false).errAt 0 0 clean)).1 = stOk) ∧
    (((fetching true false).pos 0 0).ended = false ∧ ((fetching true false).pos 0 0).fetched.length < 32 ∧
      ((fetching true false).fetchP (some 0) 0 0 64 ((fetching true false).errAt 0 0 clean)).1 = stOk ∧ ((fetching true false).step 0).fixed = false) ∧
    ((fetching true false).headHitch 0 0 = some (0, 0) ∧ (fetching true false).strandFor 0 0 = 0 ∧
      (fetching true false).emitTurn 0 0 0 = true) ∧
    (mgetD ((fetching true true).hank 0).onPlace 0 8 = 0 ∧ (fetching true true).posHalted 0 0 0 = true ∧
      ((((upTo 7).map fun k => (0 + 1 + k) % 8).filter fun q => (fetching true true).placeOf 0 q == 0 &&
        !(((fetching true true).pos 0 q).finished)).find? fun q => !((fetching true true).posBlocked 0 0 q)) = some 7) := by
  refine ⟨⟨{ ready with parts := [(0, { activePart with step := { StepRec.empty with trigger := true } })] }, ?_, ?_⟩, ?_, ?_, ?_, ?_, ?_⟩
  all_goals decide +kernel

/-- Partition 0 with hanks 0 and 1 in paired mode, with a hitch done on strands 0 and 8. -/
def paired (a b : Nat) : State :=
  { ready with
    parts := [(0, { activePart with hanks := [0, 1], step := { StepRec.empty with phase := .running, paired := true } })]
    strands := [(0, { Strand.empty with queue := [⟨0, 0, 0, 8, .done a, none, 5⟩] }),
      (8, { Strand.empty with queue := [⟨0, 0, 0, 8, .done b, none, 6⟩] })] }

/-- `ready` with a record of partition 0's step. -/
def stepped (x : StepRec) : State := { ready with parts := [(0, { activePart with step := x })] }

theorem witness_HitchesCompleteAndStepsEnd :
    (∃ s e, (s : State).partOf (hankOf 0) = some 0 ∧ (s.strand 0).queue[0]? = some e ∧ e.phase = .done stOk ∧
      firstOfUnit (s.strand 0).queue e = true ∧ s.twin 0 0 e.pos = none) ∧
    ((paired 0 0).twin 0 0 0 = some 8 ∧ ((paired 0 0).strand 0).queue[0]? = some ⟨0, 0, 0, 8, .done 0, none, 5⟩ ∧
      ((paired 0 0).strand 8).queue.find? (fun f => f.pos == 0 && f.index == 0) = some ⟨0, 0, 0, 8, .done 0, none, 6⟩ ∧
      firstOfUnit ((paired 0 0).strand 0).queue ⟨0, 0, 0, 8, .done 0, none, 5⟩ = true ∧
      firstOfUnit ((paired 0 0).strand 8).queue ⟨0, 0, 0, 8, .done 0, none, 6⟩ = true ∧ isBlocking 0 = false ∧ isBlocking 0x100 = true) ∧
    (∃ s e, (s : State).partOf 0 = some 0 ∧ s.issuing 0 = true ∧ nextQueued (s.strand 0).queue = some e ∧ e.since = some 0 ∧
      e.phase = .queued ∧ s.reg (Reg.hnkKnotWaitLimit 0) ≠ 0 ∧ 0 + 1000 * s.reg (Reg.hnkKnotWaitLimit 0) < s.now ∧ s.waitReady 0 0 e.word = false) ∧
    (((stepped { StepRec.empty with phase := .committing }).step 0).phase = .committing ∧
      ((stepped { StepRec.empty with phase := .committing }).step 0).stopping = false ∧
      ((stepped { StepRec.empty with phase := .committing }).step 0).collective = false) ∧
    (∀ c ∈ [1, 2], ∀ n ∈ [0, 2], ∃ s b, ((s : State).step 0).blocking = some b ∧ b.cls = c ∧ s.inRun 0 = true ∧ s.drained 0 = true ∧
      s.lease.seized = false ∧ s.replayable 0 = true ∧ (s.step 0).run = n ∧ (s.step 0).limit = 2) := by
  refine ⟨⟨{ stepped { StepRec.empty with phase := .running } with
      strands := [(0, { Strand.empty with queue := [⟨0, 0, 0, 8, .done 0, none, 0⟩] })] }, ⟨0, 0, 0, 8, .done 0, none, 0⟩, ?_⟩, ?_,
    ⟨{ stepped { StepRec.empty with phase := .running } with
      now := 2001
      regs := [(Reg.hnkKnotWaitLimit 0, 2)]
      strands := [(0, { Strand.empty with queue := [⟨0, 0, 0, wordOf 0 [(2, 15, 1), (4, 0, 1)], .queued, some 0, 0⟩] })] },
      ⟨0, 0, 0, wordOf 0 [(2, 15, 1), (4, 0, 1)], .queued, some 0, 0⟩, ?_⟩, ?_, fun c hc n hn =>
    ⟨stepped { StepRec.empty with phase := .running, blocking := some ⟨0, 0x100, c, 0, 0, 0, none⟩, run := n }, ⟨0, 0x100, c, 0, 0, 0, none⟩, ?_⟩⟩
  · decide +kernel
  · decide +kernel
  · decide +kernel
  · decide +kernel
  · exact ⟨rfl, rfl, rfl, by decide +kernel +revert, rfl, rfl, rfl, rfl⟩

theorem witness_CoilsAreLoaded :
    ready.runs (hdr 1) 0x0400 (ready.tick 0) ∧ (ready.tick 0).coilRefusal (toLe 256 0) = some 1 ∧
    ((updating (loadingSlot 256)).runs (hdr 1) 0x0400 ((updating (loadingSlot 256)).tick 0) ∧
      (loadingSlot 256).confirmed = 0 ∧ ((loadingSlot 256).slot 1).header.length = 256 ∧
      coilBlocks ((loadingSlot 256).slot 1).header = 1 ∧ 256 + 32 ≤ headerBytesFor 1) ∧
    ((updating (loadingSlot 288)).runs (hdr 1) 0x0401 ((updating (loadingSlot 288)).tick 0) ∧
      ((loadingSlot 288).slot 1).header.length = headerBytesFor 1 ∧ ((loadingSlot 288).slot 1).blocks.length = 0 ∧
      ((loadingSlot 288).slot 1).part.length = 0 ∧ (toLe 1424 0).length = 1424) ∧
    ready.runs (hdr 1) 0x0405 (ready.tick 0) :=
  ⟨runs1 _, by decide +kernel, ⟨updating_runs _ _ rfl, by decide +kernel⟩, ⟨updating_runs _ _ rfl, by decide +kernel⟩, runs1 _⟩

theorem witness_SwitchesAreScheduled :
    (∃ s : State, s.runs (hdr 1) 0x0402 (s.tick 0) ∧ (s.tick 0).update.schedT = none ∧ (s.tick 0).update.schedulable false = some 1 ∧
      (s.tick 0).update.schedulable true = none ∧ (s.tick 0).ptp.state = 1) ∧
    (∃ s : State, s.runs (hdr 1) 0x0402 (s.tick 0) ∧ (s.tick 0).update.schedulable false = some 1 ∧ (s.tick 0).ptp.state ≠ 1) ∧
    (∃ s : State, s.update.schedT = some 10000000 ∧ s.now + 10000000 ≤ 10000000) ∧
    ∃ s : State, s.update.schedT = some 0 ∧ s.update.preloaded = true ∧ s.ptp.state = 1 ∧ (s.hostPort s.ptp.port).offset = 0 ∧
      s.update.schedFallback = false ∧ s.update.schedSlot = 1 ∧ s.update.confirmed = 0 :=
  ⟨⟨{ updating (twoCoils 2 1) with ptp := { ready.ptp with state := 1 } }, commander_runs _ ⟨rfl, rfl, rfl, rfl⟩, by decide +kernel⟩,
    ⟨updating (twoCoils 2 1), commander_runs _ ⟨rfl, rfl, rfl, rfl⟩, by decide +kernel⟩,
    ⟨updating { ready.update with schedT := some 10000000 }, by decide +kernel⟩,
    { updating { twoCoils 3 1 with schedT := some 0, preloaded := true, schedSlot := 1, schedFallback := false } with
      ptp := { ready.ptp with state := 1 } }, by decide +kernel⟩

theorem witness_ManagementImagesStart :
    (ready.runs (hdr 1) 0x0403 (ready.tick 0) ∧ (ready.tick 0).update.startable false = none) ∧
    (∃ s : State, s.runs (hdr 1) 0x0403 (s.tick 0) ∧ (s.tick 0).update.startable false = some 1) ∧
    (∃ s : State, (s.tick 200000000).update.paused = some 0 ∧ (s.tick 200000000).now = 0 + 200000000) ∧
    (∃ s : State, s.runs (hdr 1) 0x0404 (s.tick 0) ∧ ((s.tick 0).update.slot 1).state = 4 ∧ (s.tick 0).update.confirmed = 0 ∧
      (∀ id ∈ ((s.tick 0).update.slot 1).parts,
        (if id = 1 then (s.tick 0).update.micro else if id = 2 then (s.tick 0).update.ccf else (s.tick 0).update.mgmt) = 1)) ∧
    (ready.runs (hdr 1) 0x0404 (ready.tick 0) ∧ ((ready.tick 0).update.slot (1 - (ready.tick 0).update.confirmed)).state ≠ 4) ∧
    ∃ s : State, s.update.trialAt = some 0 ∧ s.update.overdueSent = false ∧ 0 + 60000000000 * s.update.trialWindow < s.now :=
  ⟨⟨runs1 _, by decide +kernel⟩, ⟨updating (twoCoils 2 3), commander_runs _ ⟨rfl, rfl, rfl, rfl⟩, by decide +kernel⟩,
    ⟨updating { ready.update with paused := some 0 }, by decide +kernel⟩,
    ⟨updating { twoCoils 4 3 with mgmt := 1 }, commander_runs _ ⟨rfl, rfl, rfl, rfl⟩, by decide +kernel⟩, ⟨runs1 _, by decide +kernel⟩,
    { updating { ready.update with trialAt := some 0, trialWindow := 1 } with now := 60000000001 }, by decide +kernel⟩

/-- A point of die 0 with a request or a grant, its domain on, slot 0 of table 0 owned by partition 0. -/
def point0 (rs : List Request) (g : Option Grant) : State :=
  { ready with
    power := { ready.power with doms := (upTo 64).map fun n => (n, { Domain.empty with state := .on, offSpans := [] }) }
    fairlead := [(0, { FldInst.empty with
      tables := [(0, 0)]
      points := [(0, { Point.empty with requests := rs, grant := g })] })] }
/-- A request of requester 3. -/
def req (owner : Nat) : Request := ⟨3, owner, 1, 0, false⟩

/-- A request of owner 1, which holds no slot, with the flag enabled and held slots counted. -/
def starving : State := { point0 [req 1] none with regs := [(Reg.fldCtrl 0, 1)] }

theorem witness_PointsGrantAndFree :
    (∀ q ∈ (((point0 [] none).tick 0).refresh 0 0 0 |>.point 0 0).requests, q.requester ≠ 3) ∧
    ((point0 [req 0] none).pointOn 0 0 = true ∧ ∃ r, ((point0 [req 0] none).refresh 0 0 2).dueNow 0 0 2
        (((point0 [req 0] none).refresh 0 0 2).point 0 0) = [r] ∧ r.requester = 3) ∧
    (∃ r, ((point0 [req 16] none).refresh 0 0 70).dueNow 0 0 70 (((point0 [req 16] none).refresh 0 0 70).point 0 0) = [] ∧
      ((point0 [req 16] none).refresh 0 0 70).backNow 0 0 70 (((point0 [req 16] none).refresh 0 0 70).point 0 0) = [r] ∧ r.requester = 3) ∧
    (((point0 [req 0] (some ⟨3, 0, false, 2, 10, (0, 0, 0, false)⟩)).refresh 0 0 10).point 0 0).grant = some ⟨3, 0, false, 2, 10, (0, 0, 0, false)⟩ ∧
    ((point0 [req 0] (some ⟨3, 0, false, 2, 10, (0, 0, 0, false)⟩)).refresh 0 0 10).slotOwner 0 (tableOf 0 0) 10 = 0 ∧
    nget ((point0 [req 0] none).point 0 0).backoff 3 ≤ 0 ∧
    ((starving.refresh 0 0 5000).starveLimit 0 (tableOf 0 0) 1 5000 < nget ((starving.refresh 0 0 5000).point 0 0).starve 1 ∧
      bit ((starving.refresh 0 0 5000).fldCtrl 0 (tableOf 0 0) 5000) 0 = true ∧
      bit ((starving.refresh 0 0 5000).fldCtrl 0 (tableOf 0 0) 5000) 1 = false) ∧
    ∃ x : FldInst, mget x.waiting 0 = some (5, []) := by
  refine ⟨by decide +kernel, ⟨by decide +kernel, _, rfl, by decide +kernel⟩, ⟨req 16, by decide +kernel, by decide +kernel, rfl⟩,
    by decide +kernel, by decide +kernel, by decide +kernel, by decide +kernel, { FldInst.empty with waiting := [(0, (5, []))] }, rfl⟩

/-- `ready` at a time with thermal state. -/
def heated (now : Nat) (x : Thermo) : State := { ready with now := now, thermo := x }

theorem witness_SensorsReefAndAgeing :
    (goodReading (-200) = true ∧ goodReading 1500 = true ∧ goodReading 1501 = false) ∧
    (isJunction 0 = true ∧ isJunction 31 = true ∧ isJunction 16 = false ∧ ready.thermo.trip = false) ∧
    (∃ s : State, (s.spot 3).apartSince = some 0 ∧ (s.spot 3).split = false ∧ 0 + 1000000000 ≤ s.now) ∧
    (∃ s : State, (s.spot 3).a.isSome = true ∧ (s.spot 3).b.isSome = true ∧ (s.spot 3).aAt + 10000000 ≤ s.now ∧
      (s.spot 3).bAt + 10000000 ≤ s.now) ∧
    (∃ s : State, s.thermo.hotSince = some 0 ∧ s.thermo.hotSent = false ∧ 0 + 1000000000 ≤ s.now) ∧
    ((heated 10000000 { ready.thermo with spots := [(0, { Spot.empty with governed := [950] })] }).thermo.step = 0 ∧
      reefTarget ((heated 10000000 { ready.thermo with spots := [(0, { Spot.empty with governed := [950] })] }).highest isJunction)
        ((heated 10000000 { ready.thermo with spots := [(0, { Spot.empty with governed := [950] })] }).highest isMemory) = 1 ∧
      (10000000 : Nat) ≠ ready.thermo.lastBoundary) ∧
    (reefTarget 0 0 = 0 ∧ ∀ k ∈ [1, 2, 3], (0 : Int) < (reefThresholds k).1 - 30 ∧ (0 : Int) < (reefThresholds k).2 - 30) ∧
    (∃ s : State, (s.spot 3).overSince = some 0 ∧ 0 + 10000000 ≤ s.now ∧ s.thermo.shut = false) ∧
    ready.writes (hdr 1) 0x0101 Reg.thmKeepWarm ((ready.tick 0).reachReg Reg.thmKeepWarm) ∧
    (∃ s : State, s.partOf 0 = some 0 ∧ bit (s.reg Reg.thmCtrl) 0 = true ∧ s.stepUnderWay 0 = false ∧ s.mayRemap 0 = true ∧
      (s.hank 0).rotatedAt + msNs (s.reg Reg.thmRotateMs % 65536) ≤ s.now) ∧
    (∃ s : State, s.writes (hdr 1) 0x0101 Reg.thmRemarginCtrl ((s.tick 0).reachReg Reg.thmRemarginCtrl) ∧
      ((s.tick 0).reachReg Reg.thmRemarginCtrl).reg Reg.thmRemarginCtrl % 256 ≠ 0) ∧
    ∃ s : State, s.thermo.lastRemargin + 86400000000000 * (s.reg Reg.thmRemarginCtrl % 256) ≤ s.now := by
  refine ⟨by decide, by decide, ⟨heated 1000000000 { ready.thermo with spots := [(3, { Spot.empty with apartSince := some 0 })] }, by decide +kernel⟩,
    ⟨heated 10000000 { ready.thermo with spots := [(3, { Spot.empty with a := some 0, b := some 0 })] }, by decide +kernel⟩,
    ⟨heated 1000000000 { ready.thermo with hotSince := some 0 }, by decide +kernel⟩, by decide +kernel, by decide +kernel,
    ⟨heated 10000000 { ready.thermo with spots := [(3, { Spot.empty with overSince := some 0 })] }, by decide +kernel⟩,
    writes1 _ _ (by decide +kernel),
    ⟨{ ready with now := 10 ^ 15, regs := [(Reg.thmCtrl, 1), (Reg.thmRotateMs, 1)] }, by decide +kernel⟩,
    ⟨{ ready with regs := [(Reg.thmRemarginCtrl, 1)] },
      ⟨(commander_runs (s := { ready with regs := [(Reg.thmRemarginCtrl, 1)] }) _ ⟨rfl, rfl, rfl, rfl⟩).2, by decide +kernel, rfl⟩, by decide +kernel⟩,
    { ready with now := 86400000000000, regs := [(Reg.thmRemarginCtrl, 1)] }, by decide +kernel⟩

theorem witness_MemoryLinesAreChecked :
    lineAt (2 ^ 48) = none ∧ lineAt 0 = some (0, 0) ∧ bit (owning.ownByte 0 0) 5 = false ∧
    ((readResult (owning.keysAt 0) true ⟨[], []⟩).1 = .good ∧ isTagLine (usable 0) = true ∧
      ∀ k ∈ [owning.keysAt 0], (readResult k true ⟨[(3, 1)], []⟩).1 = .corrected ∧
        (readResult k true ⟨[(0, 1), (1, 1), (2, 1)], [(0, 1)]⟩).1 = .retried ∧
        (readResult k true ⟨[(0, 1), (1, 1), (2, 1)], [(0, 1), (1, 1), (2, 1)]⟩).1 = .uncorrectable) ∧
    (0 + (List.replicate 64 (0 : Byte)).length ≤ usable 0 ∧ bit (owning.ownByte 0 ((0 + 64 - 1) / granule)) 5 = false) ∧
    (((owning.tick 0).reach (unitDom 0) 0xC1).readLine 0 ⟨[], []⟩ false).1 = stOk ∧
    (((owning.tick 0).reach (unitDom 0) 0xC1).readLine 0 ⟨[(0, 1), (1, 1), (2, 1)], [(0, 1), (1, 1), (2, 1)]⟩ false).1 ≠ stOk := by
  refine ⟨?_, ?_, ?_, ⟨?_, ?_, ?_⟩, ?_, ?_, ?_⟩
  all_goals decide +kernel

/-- `ready` with a record of unit 0. -/
def unit0 (x : MemUnit) : State := { powered 0 { Domain.empty with state := .on } with units := [(0, x)] }

theorem witness_BlocksRetireAndPatrolsCorrect :
    (rsDecode 72 8 [] = some [] ∧ rsDecode 72 8 [(0, 1)] = some [(0, 1)] ∧ rsDecode 72 8 [(0, 1), (1, 1), (2, 1), (3, 1), (4, 1)] = none) ∧
    (∀ x ∈ [{ MemUnit.empty with due := [5] }, { MemUnit.empty with due := [5], retired := [(5, 1)] },
        { MemUnit.empty with due := [5], spares := 4096 }, { MemUnit.empty with due := [5], spares := 4096, full := [5] }],
      ((unit0 x).unit 0).due.contains 5 = true) ∧
    (bit ((unit0 MemUnit.empty).reg (Reg.memScrubCtrl 0 0)) 0 = true ∧ ctlOf 0 = (0, 0) ∧
      ((unit0 MemUnit.empty).dom (unitDom 0)).state = .on ∧ ((unit0 MemUnit.empty).unit 0).patrol < usable 0 / 64 ∧
      ((unit0 { MemUnit.empty with patrol := patrolLines 0 - 1 }).unit 0).patrol + 1 = patrolLines 0) ∧
    ready.writes (hdr 1) 0x0101 (Reg.memErrPop 0) ((ready.tick 0).reachReg (Reg.memErrPop 0)) ∧
    (bit (ready.reg (Reg.strScrubCtrl 0)) 0 = true ∧ (ready.strand 0).scrubLine + 1 < 32768 ∧
      ({ Strand.empty with scrubLine := 32767 } : Strand).scrubLine + 1 = 32768) :=
  ⟨by decide +kernel, by decide +kernel, by decide +kernel, writes1 _ _ (by decide +kernel), by decide +kernel⟩

theorem witness_DomainsEnterAndWake :
    (∀ k ∈ [1, 2], (powered 44 { Domain.empty with state := .on }).writes (hdr 1) 0x0101 (Reg.pwrDomCtrl 44)
        (((powered 44 { Domain.empty with state := .on }).tick 0).reachReg (Reg.pwrDomCtrl 44)) ∧
      ((((powered 44 { Domain.empty with state := .on }).tick 0).reachReg (Reg.pwrDomCtrl 44)).dom 44).state = .on ∧
      (((powered 44 { Domain.empty with state := .on }).tick 0).reachReg (Reg.pwrDomCtrl 44)).refuser 44 (k == 2) = none) ∧
    (∃ id, (((powered 63 { Domain.empty with state := .on }).tick 0).reachReg (Reg.pwrDomCtrl 63)).refuser 63 true = some id) ∧
    (∀ x ∈ [DomState.off, .retention, .entering, .waking],
      ((((powered 44 { Domain.empty with state := x }).tick 0).reachReg (Reg.pwrDomCtrl 44)).dom 44).state = x) ∧
    ((((powered 44 { Domain.empty with state := .retention }).tick 0).reachReg (Reg.pwrDomCtrl 44)).refuser 44 true = none ∧
      (((powered 63 { Domain.empty with state := .retention }).tick 0).reachReg (Reg.pwrDomCtrl 63)).refuser 63 true = some 9) ∧
    (powered 44 Domain.empty).writes (hdr 1) 0x0102 (Reg.pwrDomCtrl 44) (((powered 44 Domain.empty).tick 0).reachReg (Reg.pwrDomCtrl 44)) ∧
    ready.writes (hdr 1) 0x0101 Reg.pwrAonCtrl ((ready.tick 0).reachReg Reg.pwrAonCtrl) ∧
    (∀ p ∈ [1, 2], ((powered 44 { Domain.empty with state := .entering, phase := p }).dom 44).phase = p) ∧
    ((((powered 44 { Domain.empty with state := .entering, phase := 1 }).tick 10000).dom 44).since + 10000 = 10000) ∧
    ∃ s : State, s.power.lpActive = true :=
  ⟨fun k hk => ⟨powered_writes _ _ _ _ (by decide +kernel), by decide +kernel, by decide +kernel +revert⟩,
    Option.isSome_iff_exists.1 (by decide +kernel), by decide +kernel, by decide +kernel, powered_writes _ _ _ _ (by decide +kernel),
    writes1 _ _ (by decide +kernel), by decide +kernel, by decide +kernel,
    { ready with power := { ready.power with lpActive := true } }, rfl⟩

theorem witness_RowsArriveAndReturn :
    (∀ x ∈ [running0, { running0 with counter := 1 }],
      (((receiving 0 (packetOf 2 (toLe 33 1)) x).engine 0).rx.find? fun y => isRow 1 y.packet &&
        !((receiving 0 (packetOf 2 (toLe 33 1)) x).rowWaits y)) = some ⟨packetOf 2 (toLe 33 1), 0, false⟩) ∧
    (receiving 0 (packetOf 2 (toLe 33 1)) running0).stepOrder 0 0 = .eq ∧
    (receiving 0 (packetOf 2 (toLe 33 1)) { running0 with counter := 1 }).stepOrder 0 0 = .lt ∧
    crc64 (packetOf 2 (toLe 33 1)).payload = (packetOf 2 (toLe 33 1)).telltale ∧
    (receiving 0 (packetOf 2 (toLe 33 1)) running0).dispatch.rows = [] ∧
    (RowHead.parse (toLe 33 1)).slot < (receiving 0 (packetOf 2 (toLe 33 1)) running0).dspForce 0 4 ∧
    (RowHead.parse (toLe 33 (1 + 2 ^ 16))).slot = 1 ∧
    (((receiving 50000000 { packetOf 2 (toLe 33 1) with step := 1 } running0).engine 0).rx.find? fun y =>
      isRow 1 y.packet && (receiving 50000000 { packetOf 2 (toLe 33 1) with step := 1 } running0).rowWaits y &&
        (receiving 50000000 { packetOf 2 (toLe 33 1) with step := 1 } running0).waitLimit y.packet.dstPart 0 != 0 &&
        decide (y.at_ + (receiving 50000000 { packetOf 2 (toLe 33 1) with step := 1 } running0).waitLimit y.packet.dstPart 0 ≤
          50000000)).isSome = true ∧
    (((receiving 0 (packetOf 2 (toLe 33 2)) running0).engine 0).rx.find? fun y => isRow 2 y.packet).isSome = true ∧
    (receiving 0 (packetOf 2 (toLe 33 2)) running0).entryOf 0 0 (RowHead.parse (toLe 33 2)) = none ∧
    ∃ s : State, (s.entryOf 0 0 (RowHead.parse (toLe 33 2))).isSome = true := by
  refine ⟨by decide +kernel, by decide +kernel, by decide +kernel, packetOf_telltale 2 _, rfl, by decide +kernel, by decide +kernel, by decide +kernel,
    by decide +kernel, by decide +kernel, { ready with dispatch := { ready.dispatch with sends := [aSend] } }, by decide +kernel⟩

/-- The payload of a collective message of a kind, of one member and no data. -/
def collPay (kind : Nat) : List Byte := toLe 32 (kind + 2 ^ 160)

theorem hears_one {s : State} {kind : Nat} (pk : Packet) (h1 : (s.engine 0).rx = [⟨pk, 0, false⟩]) (h2 : isColl kind pk = true)
    (h3 : s.collWaits 0 ⟨pk, 0, false⟩ = false) (h4 : pk.srcModule ≠ s.self) (h5 : crc64 pk.payload = pk.telltale) :
    s.hears 0 kind pk (s.modEngine 0 fun e => { e with rx := e.rx.erase ⟨pk, 0, false⟩ }) := by
  refine ⟨⟨pk, 0, false⟩, ?_, rfl, rfl, fun h => absurd h h4, h5⟩
  rw [h1]
  simp [h2, h3]

theorem witness_CollectiveMessagesAct :
    (∀ k ∈ [1, 2, 3, 4, 5, 6], ∃ s v, State.hearsFor s 0 k (packetOf 3 (collPay k)) aColl v) ∧
    (∀ k ∈ [7, 8, 9], ∃ s v, State.hears s 0 k (packetOf 3 (collPay k)) v ∧ v.collOrder 0 0 0 = .eq ∧ (v.step 0).blocking = none) ∧
    (∃ s : State, ((s.engine 0).rx.find? fun x => x.packet.vc == 3 && x.packet.ptype == 1 &&
      s.collOrder x.packet.dstPart (headStep x.packet).2 (headStep x.packet).1.run == .gt && (headStep x.packet).1.kind != 9 &&
      s.waitLimit x.packet.dstPart 0 != 0 && decide (x.at_ + s.waitLimit x.packet.dstPart 0 ≤ s.now)).isSome = true) ∧
    (∃ s : State, ((s.engine 0).colls.find? fun c => c.strand == 0 && s.reg (Reg.hnkKnotWaitLimit c.hank) != 0 &&
      decide (c.issuedAt + 1000 * s.reg (Reg.hnkKnotWaitLimit c.hank) < s.now)) = some aColl) ∧
    ∃ s : State, s.vote 0 0 0 = some ⟨0, 0, 1, [], [], 0, 0⟩ ∧ (s.step 0).phase = .committing ∧ s.voteComplete 0 = false ∧
      s.waitLimit 0 ((s.diesOf 0).headD 0) = 50000000 ∧ max 0 0 + 50000000 < s.now := by
  refine ⟨fun k hk => ⟨receiving 0 (packetOf 3 (collPay k)) running0, _, hears_one _ rfl ?_ ?_ ?_ rfl, ?_⟩,
    fun k hk => ⟨receiving 0 (packetOf 3 (collPay k)) running0, _, hears_one _ rfl ?_ ?_ ?_ rfl, ?_⟩,
    ⟨receiving 50000000 { packetOf 3 (collPay 1) with step := 1 } running0, by decide +kernel⟩,
    ⟨receiving 50000001 (packetOf 3 (collPay 1)) running0, by decide +kernel⟩,
    receiving 50000001 (packetOf 3 (collPay 1)) { running0 with
      phase := .committing, groups := [⟨1, 0, 0, 0, 0, 0, 0, 2⟩], votes := [⟨0, 0, 1, [], [], 0, 0⟩] }, by decide +kernel⟩
  all_goals
    simp only [List.mem_cons, List.not_mem_nil, or_false] at hk
  all_goals rcases hk with rfl | rfl | rfl | rfl | rfl | rfl <;> decide +kernel

theorem witness_PortsTrainAndRetrain :
    (∀ x : Port, x = Port.empty → ((ported 0 0 x).port 0).state = 0 ∧ ((ported 0 0 x).port 0).retryAt = none ∧
      (ported 0 0 x).mayTrain 0 = true) ∧
    ((ported 0 0 { Port.empty with state := 1 }).port 0).state = 1 ∧
    ((ported 0 0 { Port.empty with state := 2 }).port 0).state = 2 ∧
    ((ported 17 0 { Port.empty with state := 5 }).port 17).state = 5 ∧
    (((ported 0 1000000000 { Port.empty with retryAt := some 1000000000 }).port 0).retryAt = some 1000000000 ∧
      1000000000 ≤ (ported 0 1000000000 { Port.empty with retryAt := some 1000000000 }).now) ∧
    ((ported 0 9 { Port.empty with state := 4, uncorr := upTo 101 }).isUp 0 = true ∧
      (ported 0 9 { Port.empty with state := 4, uncorr := upTo 101 }).reg Reg.ecnPortErrLimit <
        (((ported 0 9 { Port.empty with state := 4, uncorr := upTo 101 }).port 0).uncorr.filter fun a =>
          (ported 0 9 { Port.empty with state := 4, uncorr := upTo 101 }).now < a + 1000000).length) ∧
    ((ported 0 20000 { Port.empty with state := 4 }).isUp 0 = true ∧
      ((ported 0 20000 { Port.empty with state := 4 }).port 0).lastCodeword + 20000 ≤
        (ported 0 20000 { Port.empty with state := 4 }).now) ∧
    ((((ported 0 0 { Port.empty with state := 4, awaiting := some 3 }).inc (Reg.ecnPortFecUncorrCount 0)).port 0).awaiting ≠ none ∧
      (((ported 0 0 { Port.empty with state := 4 }).inc (Reg.ecnPortFecUncorrCount 0)).port 0).awaiting = none) ∧
    (∀ x : State, x = ported 0 0 { Port.empty with state := 3 } →
      ((aHello x).version = 1 ∧ (aHello x).compat = (x.port 0).compat ∧ x.wiringOk 0 (aHello x).modNum (aHello x).port = true) ∧
      x.wiringOk 0 (aHello x).modNum 13 = false) ∧
    (∀ k ∈ [(1, 500000000), (2, 10000000), (3, 10000000), (5, 50000000)],
      portLimit ((ported 0 k.2 { Port.empty with state := k.1 }).port 0).state = some k.2 ∧
      ((ported 0 k.2 { Port.empty with state := k.1 }).port 0).since + k.2 ≤ (ported 0 k.2 { Port.empty with state := k.1 }).now) ∧
    3 ≤ (((5 : Nat) :: [3, 4]).filter (fun a => 5 ≤ a + 10000000000)).length := by
  refine ⟨?_, by decide +kernel, by decide +kernel, by decide +kernel, by decide +kernel, by decide +kernel, by decide +kernel,
    by decide +kernel, ?_, by decide +kernel, by decide +kernel⟩
  · rintro x rfl; decide +kernel
  · rintro x rfl; decide +kernel

theorem witness_ControlBlocksAct :
    (upPort Credit.empty).isUp 0 = true ∧
    (∀ n, n = 4 → n ≤ ((upPort { Credit.empty with outstanding := 4 }).credit 0 (2 * 1 + 1)).outstanding) ∧
    (∀ n, n = 5 → ((upPort { Credit.empty with outstanding := 4 }).credit 0 (2 * 1 + 1)).outstanding < n) ∧
    (∀ n, n = ((upPort Credit.empty).port 0).txAcked + (5 + 2 ^ 32 - ((upPort Credit.empty).port 0).txAcked % 2 ^ 32) % 2 ^ 32 →
      ¬((upPort Credit.empty).port 0).txIndex < n) ∧
    ((2 ^ 48 + 7) % 2 ^ 48 = ((upPort { Credit.empty with recvFlits := 7 }).credit 0 3).recvFlits % 2 ^ 48 ∧
      0 % 2 ^ 48 = ((upPort { Credit.empty with recvFlits := 7 }).credit 0 3).recvCredits % 2 ^ 48 ∧
      8 % 2 ^ 48 ≠ ((upPort { Credit.empty with recvFlits := 7 }).credit 0 3).recvFlits % 2 ^ 48) ∧
    (((upPort Credit.empty).port 0).peer = some (1, 14) ∧ ((ported 0 0 { Port.empty with state := 4 }).port 0).peer = none) ∧
    ready.isUp 17 = false := by
  refine ⟨by decide +kernel, ?_, ?_, ?_, by decide +kernel, by decide +kernel, by decide +kernel⟩
  · rintro n rfl; decide +kernel
  · rintro n rfl; decide +kernel
  · rintro n rfl; decide +kernel

theorem witness_PacketsTravel :
    (∀ s : State, s = carrying 0 18 0 0 { packetTo 1 0 with srcModule := 0 } roomy →
      mget s.ecron.txq 0 = some (0, 18, { packetTo 1 0 with srcModule := 0 }) ∧ (packetTo 1 0).vc = 0 ∧ s.self = 0 ∧
      (s.part 0).state ≠ .whipping ∧ s.isUp 0 = true ∧ s.lease.seized = false ∧
      Packet.length (packetTo 1 0) + 2 ≤ (s.credit 0 (2 * 0 + 0)).spendable s.now ∧
      (s.port 0).txIndex + (Packet.length (packetTo 1 0) + 2) ≤ (s.port 0).txAcked + 8192) ∧
    mget (carrying 0 3 0 0 (packetTo 1 0) roomy).ecron.txq 0 = some (0, 3, packetTo 1 0) ∧
    (∀ s : State, s = carrying 0 18 0 0 (packetTo 1 0) roomy → (packetTo 1 0).ptype ≠ 2 ∧ (packetTo 1 0).ptype ≠ 3 ∧
      s.isUp 0 = true ∧ Packet.length (packetTo 0 0) + 2 ≤ (s.credit 0 (2 * 0 + 0)).rxFree ∧ (s.port 0).compat = false ∧
      (packetTo 0 0).keyId ≠ 0xFFFF ∧ (packetTo 0 0).dstModule = s.self ∧ s.forwardPort 1 = some 0 ∧ s.forwardPort 2 = none) ∧
    (ready.lease.seized = false ∧ ready.tagOk (packetTo 0 7) = false ∧ ready.tagOk (packetTo 0 0xFFFF) = true ∧
      Window.empty.dup 0 = true ∧ Window.empty.dup (packetTo 0 0).seq = false ∧ Window.empty.late (packetTo 0 0).seq = false ∧
      (⟨2000, []⟩ : Window).dup (packetTo 0 0).seq = false ∧ (⟨2000, []⟩ : Window).late (packetTo 0 0).seq = true ∧
      ready.gate (packetTo 0 0) false = .pass) ∧
    (mget (carrying 0 18 1000000 0 (packetTo 0 0) roomy).ecron.holds 0 = some ⟨packetTo 0 0, 0⟩ ∧
      0 + 1000000 ≤ (carrying 0 18 1000000 0 (packetTo 0 0) roomy).now) ∧
    (∀ n ∈ [0, 15], mget (carrying 0 18 100000000 n (packetTo 1 0) roomy).ecron.bulk 0 = some ⟨packetTo 1 0, 0, n⟩ ∧
      (packetTo 1 0).braided = false ∧ 0 + 1000 * (carrying 0 18 100000000 n (packetTo 1 0) roomy).reg Reg.ecnBulkTimeout ≤
        (carrying 0 18 100000000 n (packetTo 1 0) roomy).now ∧
      ((carrying 0 18 100000000 n (packetTo 1 0) roomy).part (packetTo 1 0).srcPart).state ≠ .whipping) ∧
    ((ready.reg Reg.ecnBulkRetries ≤ 15 ∧ 0 < ready.reg Reg.ecnBulkRetries) ∧
      ((carrying 0 18 0 0 (packetTo 1 0) roomy).shipOf (packetTo 1 0)).isSome = true) ∧
    (1 / 16 = ready.self / 16 ∧ 1 ≠ ready.self) ∧
    (carrying 0 18 0 0 (packetTo 1 0) roomy).upMask ≠ (carrying 0 18 0 0 (packetTo 1 0) roomy).ecron.lastStates ∧
    ready.writes (hdr 1) 0x0101 Reg.ecnBraidCtrl ((ready.tick 0).reachReg Reg.ecnBraidCtrl) := by
  refine ⟨?_, by decide +kernel, ?_, by decide +kernel, by decide +kernel, by decide +kernel, by decide +kernel, by decide +kernel,
    by decide +kernel, writes1 _ _ (by decide +kernel)⟩
  · rintro s rfl; decide +kernel
  · rintro s rfl; decide +kernel

theorem witness_PinsInputAndSideband :
    ({ (starting 0 0).start with qualified := false }.qualified = false ∧ 455 ≤ 600) ∧
    ((440 ≤ 459 ∧ 459 ≤ 600 ∧ (459 < 460 ∨ 580 < 459)) ∧ (440 ≤ 581 ∧ 581 ≤ 600 ∧ (581 < 460 ∨ 580 < 581)) ∧
      (439 < 440 ∨ 600 < 439) ∧ (starting 2 0).start.inputOk = true) ∧
    (∀ s : State, s = { starting 0 0 with start := { (starting 0 0).start with pwrgd := false } } →
      s.start.qualified = true ∧ s.start.resetN = true ∧ s.start.pwrgd = false ∧ s.start.latchOpen ≠ true) ∧
    ((starting 2 0).start.pwrgd = true ∧ 2 ≤ (starting 2 0).start.phase) ∧
    ((toLe 64 1).length = 64 ∧ (starting 2 0).start.latchOpen = false ∧
      { (starting 2 0).start with latchOpen := true }.latchOpen = true) ∧
    ((starting 2 0).start.failed = false ∧ (starting 2 0).thermo.trip = false ∧ (starting 2 0).start.inputOk = true ∧
      { (starting 2 0).start with failed := true }.failed = true) ∧
    (starting 1 0).start.phase < 2 := by
  refine ⟨by decide +kernel, by decide +kernel, ?_, by decide +kernel, by decide +kernel, by decide +kernel, by decide +kernel⟩
  rintro s rfl; decide +kernel

theorem witness_StartUpPhases :
    (∀ n ∈ [1, 2, 3, 4, 5, 6, 7, 8], (starting n 0).inPhase n = true) ∧
    (∀ x : Update, x = (starting 2 0).bootCoil.update → (if x.confirmed = 0 then true else false) = true ∧
      (if x.confirmed = 0 then false else true) = false ∧ (x.slot (1 - x.confirmed)).state ≠ 2) ∧
    (∀ x : Update, x = (State.bootCoil { starting 2 0 with update := twoCoils 2 1 }).update →
      (if x.confirmed = 0 then false else true) = false ∧ (if 1 - x.confirmed = 0 then false else true) = true ∧
      (x.slot (1 - x.confirmed)).state = 2 ∧ x.minSvn ≤ (x.slot (1 - x.confirmed)).svn ∧
      (x.slot (1 - x.confirmed)).format = (x.slot x.confirmed).format) ∧
    (starting 7 15000000000).start.phaseAt + 15000000000 ≤ (starting 7 15000000000).now ∧
    (∀ s : State, s = { ported 0 0 { Port.empty with state := 4 } with start := (starting 7 0).start } → s.inPhase 7 = true ∧ ∀ p < 15, bit (s.reg Reg.ecnCtrl) p = true → (s.port p).state = 4) ∧
    ready.writes (hdr 1) 0x0101 Reg.lnyCtrl ((ready.tick 0).reachReg Reg.lnyCtrl) ∧
    ready.writes (hdr 1) 0x0101 Reg.gblStartCtrl ((ready.tick 0).reachReg Reg.gblStartCtrl) ∧
    (((ready.tick 0).reachReg Reg.gblStartCtrl).start.dirReady = false ∧
      ((State.tick { starting 9 0 with start := { (starting 9 0).start with dirReady := true } } 0).reachReg
        Reg.gblStartCtrl).start.dirReady = true) := by
  refine ⟨by decide +kernel, ?_, ?_, by decide +kernel, ?_, writes1 _ _ (by decide +kernel), writes1 _ _ (by decide +kernel),
    by decide +kernel⟩
  · rintro x rfl; decide +kernel
  · rintro x rfl; decide +kernel
  · rintro s rfl; decide +kernel

theorem witness_ChecksAndPacks :
    (ready.runs (hdr 1) 0x0700 (ready.tick 0) ∧ (ready.tick 0).recordOf 1 5 = none ∧ (testing 0).recordOf 1 1 = some aRecord ∧
      (testing 0).recordOf 1 2 = none) ∧
    (ready.runs (hdr 1) 0x0701 (ready.tick 0) ∧ ready.newestRecord 1 < 1 ∧ 1 ≤ (testing 0).newestRecord 1 ∧
      ready.runs (hdr 16) 0x0701 (ready.tick 0) ∧ 0 ≤ ready.newestRecord 16 ∧ isCommander 16 = false) ∧
    (ready.runs (hdr 1) 0x0702 (ready.tick 0) ∧ (toLe 96 1).length ≤ 1424 ∧ 0 + (toLe 96 1).length ≤ 2 ^ 22 ∧ toLe 96 1 ≠ [] ∧
      (((ready.tick 0).poke (packBase 0 + 0) (toLe 96 1)).packSlot 0 false).packGood 0 96 = false ∧
      (testing 0).packGood 0 96 = true ∧ (testing 0).packGood 0 95 = false) ∧
    (ready.writes (hdr 1) 0x0101 (Reg.chkPartCtrl 0 + ready.dieOffset 0)
        ((ready.tick 0).reachReg (Reg.chkPartCtrl 0 + ready.dieOffset 0)) ∧
      pairable (ready.part 0).hanks = false ∧ pairable [0, 1] = true) ∧
    (ready.writes (hdr 1) 0x0101 (Reg.chkStrandQset (127 / 32) (127 % 32))
        ((ready.tick 0).reachReg (Reg.chkStrandQset (127 / 32) (127 % 32))) ∧
      ready.writes (hdr 1) 0x0101 (Reg.chkStrandQmask (127 / 32) (127 % 32))
        ((ready.tick 0).reachReg (Reg.chkStrandQmask (127 / 32) (127 % 32)))) ∧
    (ready.writes (hdr 1) 0x0101 (Reg.gblDetPartJrnlRd 15) ((ready.tick 0).reachReg (Reg.gblDetPartJrnlRd 15)) ∧
      ready.writes (hdr 1) 0x0101 (Reg.gblDetPartReplay 15) ((ready.tick 0).reachReg (Reg.gblDetPartReplay 15))) ∧
    (bit ((testing 1000000000).reg (Reg.chkPackCtrl 0)) 0 = true ∧ ((testing 1000000000).packOf 0).at_ + 1000000000 *
      max 1 (bits ((testing 1000000000).reg (Reg.chkPackCtrl 0)) 15 8) ≤ (testing 1000000000).now) ∧
    (((testing 0).packOf 0).strand = some 0 ∧ ((testing 0).packOf 0).cur = some aTest ∧
      (testing 0).packMayRun 0 = true ∧ (tested 7 100).telltale = aTest.expected ∧
      isBlocking (tested 7 100).status = false ∧ (tested 7 100).us ≤ aTest.bound ∧ aTest.bound < (tested 7 101).us) ∧
    (mget ((testing 86400000000000).strand 0).scores 0 = some (1, 0) ∧
      0 + 86400000000000 ≤ (testing 86400000000000).now) ∧
    ((testing 0).spot 0).a = some 60 ∧ ((testing 0).spot 0).b = some 61 := by
  refine ⟨⟨runs1 _, by decide +kernel, by decide +kernel, by decide +kernel⟩,
    ⟨runs1 _, by decide +kernel, by decide +kernel, runs16 _, by decide +kernel, by decide +kernel⟩,
    ⟨runs1 _, by decide +kernel, by decide +kernel, by decide +kernel, by decide +kernel, by decide +kernel, by decide +kernel⟩,
    ⟨writes1 _ _ (by decide +kernel), by decide +kernel, by decide +kernel⟩,
    ⟨writes1 _ _ (by decide +kernel), writes1 _ _ (by decide +kernel)⟩,
    ⟨writes1 _ _ (by decide +kernel), writes1 _ _ (by decide +kernel)⟩, by decide +kernel, by decide +kernel, by decide +kernel,
    by decide +kernel⟩

theorem witness_PagesMoveAndShip :
    ((unshipped .retired).runs (hdr 16) 0x050B ((unshipped .retired).tick 0) ∧ sidPart 16 = 0 ∧
      0 < ((unshipped .retired).part 0).seqSize ∧ mget (unshipped .retired).serve.seqs 0 =
        some { Sequence.parse 0 [] with state := .retired, back := .retired } ∧ (unshipped .retired).seqChains 0 ≠ [] ∧
      (unshipped .retired).walk 0 = [0] ∧ (∀ e ∈ (unshipped .retired).kv.ships, e.2.seq ≠ 0) ∧
      ((unshipped .retired).part 0).txKey ≠ none ∧ (ready.part 0).txKey = none ∧ ready.seqChains 0 = []) ∧
    (∀ k ∈ [1, 2, 3, 4, 5], (((paging .decode k).engine 0).rx.find? fun x => x.packet.vc == 4) =
        some ⟨packetOf 4 (toLe 32 k), 0, false⟩ ∧ leAt (toLe 32 k) 0 4 = k ∧ leAt (toLe 32 k) 4 4 = 0 ∧
      mget (paging .decode k).kv.ships 0 = some aShip ∧
      (paging .decode k).inboundOf (packetOf 4 (toLe 32 k)) = some ⟨1, 0, 0, 0, [], []⟩ ∧
      fromHolder aShip (packetOf 4 (toLe 32 k)) = true ∧ aShip.accepted = false) ∧
    (((paging .decode 1).kv.moves.find? fun m => m.part == 0) = some ⟨0, 0, 1, true, 0⟩ ∧
      ((paging .decode 1).fetchMpa none 0 65536 []).1 = stOk ∧
      (paging .decode 1).page 0 = some (aPage .live 0) ∧ (paging .decode 1).page 1 = some (aPage .moving 1)) ∧
    ((paging .decode 1).live 0 = true ∧ ((paging .decode 1).step 0).phase ≠ .committing ∧
      0 < (paging .decode 1).freePages 0 false + (paging .decode 1).freePages 0 true) ∧
    (ready.writes (hdr 1) 0x0101 (Reg.kvpPartBightRegion 3 15) ((ready.tick 0).reachReg (Reg.kvpPartBightRegion 3 15)) ∧
      ready.regionOk 3 15 0 = true ∧ ready.regionOk 3 15 (32768 * 65536) = true ∧ ready.regionOk 3 15 (32768 * 65536 + 4) = false) := by
  refine ⟨⟨part_runs _ ⟨rfl, rfl, rfl, rfl⟩, by decide +kernel, by decide +kernel, rfl, by decide +kernel, by decide +kernel,
    by decide +kernel, by decide +kernel, rfl, by decide +kernel⟩, by decide +kernel, by decide +kernel, by decide +kernel,
    writes1 _ _ (by decide +kernel), by decide +kernel, by decide +kernel, by decide +kernel⟩

theorem witness_AccountsRefillAndPrefixesHold :
    ((serving .decode 1000000 false).now / 1000000 - (serving .decode 1000000 false).serve.lastRefill / 1000000 ≠ 0) ∧
    (((serving .decode 0 false).account 0).pending = none ∧ ((serving .decode 0 false).account 0).en = true) ∧
    ((serving .decode 0 false).runs (hdr 1) 0x0506 ((serving .decode 0 false).tick 0) ∧
      (serving .decode 0 false).runs (hdr 16) 0x0506 ((serving .decode 0 false).tick 0) ∧
      ((serving .decode 0 false).account 0).part = sidPart 16 ∧ isCommander 1 = true ∧ 2 ^ 32 - 1 < 2 ^ 32) ∧
    ((serving .decode 0 false).runs (hdr 16) 0x0507 ((serving .decode 0 false).tick 0) ∧
      ((serving .decode 0 false).account 0).part = sidPart 16 ∧ ((serving .decode 0 false).account 4095).part ≠ sidPart 16) ∧
    (serving .decode 0 false).runs (hdr 16) 0x0508 ((serving .decode 0 false).tick 0) ∧
    ((serving .decode 0 false).runs (hdr 16) 0x0509 ((serving .decode 0 false).tick 0) ∧ 0 < ((serving .decode 0 false).part 0).seqSize ∧
      (serving .decode 0 false).seq (((serving .decode 0 false).part 0).seqBase + 0) =
        some { Sequence.parse 0 [] with state := .decode, back := .decode } ∧
      ((upTo ((serving .decode 0 false).part 0).handles).find? fun j =>
        ((mget (serving .decode 0 false).serve.handles (0 * 65536 + j)).map fun y => y.live) != some true) = some 1 ∧
      ((serving .decode 0 false).seqChains (((serving .decode 0 false).part 0).seqBase + 0)).map (fun c =>
        ((serving .decode 0 false).walk c).take 1) = [[0]] ∧
      (∀ y, (serving .decode 0 false).page 0 = some y → y.fill = tagCap 0 false 0) ∧ (serving .decode 0 false).refsFit [0] = true ∧
      (∀ j < (ready.part 0).handles, (mget ready.serve.handles (0 * 65536 + j)).map (fun y => y.live) = some true) ∧
      [0].length ≠ 65535 ∧ 65535 < 65536) ∧
    ((serving .decode 0 false).runs (hdr 16) 0x050A ((serving .decode 0 false).tick 0) ∧
      (serving .decode 0 false).handle 0 0 = some (0, ⟨0, 0, true, 0, false, 0, 1, [[0]]⟩) ∧
      (serving .decode 0 false).handle 0 65536 = none) := by
  refine ⟨by decide +kernel, by decide +kernel, ⟨serving_runs1 _ _ _, serving_runs _ _ _ _ rfl, by decide +kernel, by decide +kernel,
    by decide +kernel⟩, ⟨serving_runs _ _ _ _ rfl, by decide +kernel, by decide +kernel⟩, serving_runs _ _ _ _ rfl,
    ⟨serving_runs _ _ _ _ rfl, by decide +kernel, rfl, by decide +kernel, by decide +kernel, ?_, by decide +kernel, by decide +kernel,
      by decide +kernel, by decide +kernel⟩, serving_runs _ _ _ _ rfl, by decide +kernel, by decide +kernel⟩
  rintro y ey
  cases ey
  decide +kernel

theorem witness_AdmissionAndSequenceControl :
    (∀ s : State, s = serving .decode 0 false → s.runs (hdr 16) 0x0500 (s.tick 0) ∧
      requestBad (aRequest 0 0xFFFFFFFF 0) 0 = true ∧ requestBad (aRequest 0 0xFFFFFFFF 4) 0 = false ∧
      bit (leAt (aRequest 0 0xFFFFFFFF 4) 0 4) 17 = false ∧ leAt (aRequest 0 0xFFFFFFFF 4) 0x20 4 = 0xFFFFFFFF ∧
      ((s.account 0).en && (s.account 0).part == 0) = true ∧ ((s.account 1).en && (s.account 1).part == 0) = false ∧
      (∀ j < (crowded.part 0).seqSize, crowded.freeIndex 0 j = false) ∧
      ((upTo (s.part 0).seqSize).find? fun j => s.freeIndex 0 j) = some 1) ∧
    (∀ s : State, s = serving .decode 0 false → leAt (aRequest 0 0 4) 0x20 4 = 0 ∧
      s.handle 0 0 = some (0, ⟨0, 0, true, 0, false, 0, 1, [[0]]⟩) ∧ s.handle 0 1 = none ∧
      requestBad (aRequest 0 0 4) (1 * tagCap 0 false 0) = false ∧ s.cps 0 = 1 ∧
      s.refsFit [0] = true) ∧
    (∀ s : State, s = serving .decode 0 false → bit (leAt (aRequest (2 ^ 17) 7 4) 0 4) 17 = true ∧
      requestBad (aRequest (2 ^ 17) 7 4) 0 = false ∧ leAt (aRequest (2 ^ 17) 7 4) 0x20 4 = 7 ∧ 7 % s.cps 0 = 0 ∧
      s.seq 7 = none ∧ s.adoptable 0 7 (Sequence.parse 0 (aRequest (2 ^ 17) 7 4)) = true ∧
      s.adoptable 0 7 (Sequence.parse 0 (aRequest (2 ^ 17) 7 5)) = false ∧ (s.part 0).seqSize ≤ 8) ∧
    (∀ st ∈ [SeqState.decode, .paused, .preempted, .retired, .queued], ∀ c, (serving st 0 false).runs (hdr 16) c ((serving st 0 false).tick 0) ∧
      (serving st 0 false).seq 0 = some { Sequence.parse 0 [] with state := st, back := st } ∧ (serving st 0 false).seq 1 = none ∧
      ((serving st 0 false).seqChains 0).filter (fun c => ((serving st 0 false).chain c).state == .opened) = [0] ∧
      (serving st 0 false).inBatch 0 0 = false) ∧
    (∀ s : State, s = serving .decode 0 false → s.reel 0 = ⟨3, 1⟩ ∧ (0 < 1 ∧ 1 ≤ 3 ∧ 3 ≤ 3 ∧ 3 < 4)) ∧
    (∀ s : State, s = serving .retired 0 false → (s.step 0).mode = 3 ∧ s.mayStart 0 = true ∧ mgetD s.serve.batch 0 [] = [] ∧
      s.replays 0 = false ∧ (s.plan 0).entries = []) ∧
    (∀ s : State, s = { serving .decode 0 false with regs := [(Reg.srvPartShape 0, 2 ^ 16 + 1), (Reg.srvPartReelShift 0, 4)] } →
      (s.step 0).mode = 3 ∧ s.mayStart 0 = true ∧ (s.plan 0).entries ≠ []) ∧
    ((serving .decode 0 false).live 1 = false ∧ (serving .decode 0 false).live 0 = true ∧
      ((serving .decode 0 false).step 0).phase ≠ .committing ∧
      State.reg { serving .decode 0 false with regs := [(Reg.kvpPartLowWater 0, 2)] } (Reg.kvpPartLowWater 0) ≤
        (serving .decode 0 false).freePages 0 false) ∧
    (∀ s : State, s = scarce .paused (2 ^ 26) false → s.freePages 0 false < s.reg (Reg.kvpPartLowWater 0) ∧
      0 < s.freePages 0 true ∧ s.expiredPages 0 false (fun x => x.state == .paused) = [(0, 0, 0)] ∧ s.replays 0 = false) ∧
    (∀ s : State, s = scarce .paused (2 ^ 26) true → s.expiredPages 0 false (fun x => x.state == .paused) = [] ∧
      s.expiredPages 0 true (fun x => x.state != .retired) = [(0, 0, 0)]) ∧
    (∀ s : State, s = scarce .retired 0 false → s.expiredPages 0 true (fun x => x.state != .retired) = [] ∧
      ((s.ranked 0).filter fun e => e.2.state == .preempted && !(s.movable e.1 false).isEmpty) = [] ∧
      ((s.ranked 0).filter fun e => e.2.state == .decode || e.2.state == .prefill) = []) ∧
    (∀ s : State, s = scarce .preempted 0 false →
      ((s.ranked 0).filter fun e => e.2.state == .preempted && !(s.movable e.1 false).isEmpty) ≠ [] ∧
      (s.movable 0 false).headD 1 = 0) ∧
    (∀ s : State, s = scarce .decode 0 false →
      (((s.ranked 0).filter fun e => e.2.state == .decode || e.2.state == .prefill).getLast?.map
        Prod.fst) = some 0 ∧ s.inBatch 0 0 = false ∧ (s.preempt 0 0).movable 0 false = [0]) := by
  refine ⟨?_, ?_, ?_, ?_, ?_, ?_, ?_, by decide +kernel, ?_, ?_, ?_, ?_, ?_⟩
  · rintro s rfl; exact ⟨serving_runs _ _ _ _ rfl, by decide +kernel⟩
  · rintro s rfl; decide +kernel
  · rintro s rfl; decide +kernel
  · intro st h c
    refine ⟨serving_runs _ _ _ _ rfl, ?_⟩
    revert st
    decide +kernel
  all_goals
    rintro s rfl; decide +kernel

theorem witness_VideoContextsUnitsAndBuffers :
    (∀ s : State, s = filming 0 2 (aCtx 0) idleCore → s.runs (hdr 16) 0x0600 (s.tick 0) ∧ (aDesc 0).length = 128 ∧
      vidDescGood (aDesc 0) = true ∧ s.pmaOk 0 (leAt (aDesc 0) 0x10 8) (leAt (aDesc 0) 0x18 4) = true ∧
      s.pmaOk 0 (leAt (aDesc 0) 0x20 8) (32 * descBits (aDesc 0) 0x28 12 0) = true ∧ descBits (aDesc 0) 0 1 0 ≠ 2 ∧
      ((upTo (s.ctxRange 0).2).find? fun i => (s.vidCtx ((s.ctxRange 0).1 + i)).isNone) = some 1 ∧ s.coresOf 0 ≠ [] ∧
      ready.coresOf 1 = [] ∧ (ready.ctxRange 15).2 = 0) ∧
    (∀ k ∈ [0, 2], ∀ y ∈ [idleCore, busyCore], (filming 0 2 (aCtx k) y).ownCtx 0 0 = some (0, aCtx k)) ∧
    ((filming 0 2 (aCtx 0) idleCore).runs (hdr 16) 0x0601 ((filming 0 2 (aCtx 0) idleCore).tick 0) ∧
      (filming 0 2 (aCtx 0) idleCore).leadCore 0 = none ∧ ((filming 0 2 (aCtx 0) busyCore).leadCore 0).isSome = true) ∧
    ((filming 0 2 (aCtx 0) idleCore).runs (hdr 16) 0x0602 ((filming 0 2 (aCtx 0) idleCore).tick 0) ∧ (aCtx 0).encodes = false ∧
      (aCtx 0).closing = false ∧ (∀ n ∈ [3, 4, 5], (toLe 4 32 ++ toLe 4 n ++ toLe 8 0).length = 16 ∧
        leAt (toLe 4 32 ++ toLe 4 n ++ toLe 8 0) 4 4 = n ∧ descBits (toLe 4 32 ++ toLe 4 n ++ toLe 8 0) 0 31 30 = 0 ∧
        descBits (toLe 4 32 ++ toLe 4 n ++ toLe 8 0) 0 27 0 = (toLe 32 1).length) ∧
      bit (leAt (toLe 4 (32 + 2 ^ 28) ++ toLe 4 5 ++ toLe 8 0) 0 4) 28 = true ∧
      (aCtx 0).ringUsed + (16 + 16 * ceilDiv 32 16) ≤ (aCtx 0).inBytes ∧
      { aCtx 0 with ringUsed := 65520 }.inBytes < 65520 + (16 + 16 * ceilDiv 32 16)) ∧
    ((filming 0 2 (aCtx 2) idleCore).runs (hdr 16) 0x0605 ((filming 0 2 (aCtx 2) idleCore).tick 0) ∧ (aCtx 2).encodes = true ∧
      (aCtx 2).closing = false ∧ (filming 0 2 (aCtx 2) idleCore).frameOfHandle 0 0 = some 0 ∧
      (filming 0 2 (aCtx 2) idleCore).frameOfHandle 0 1 = none) ∧
    ((filming 0 2 (aCtx 0) idleCore).runs (hdr 16) 0x0606 ((filming 0 2 (aCtx 0) idleCore).tick 0) ∧
      (filming 0 2 (aCtx 0) idleCore).runs (hdr 16) 0x0607 ((filming 0 2 (aCtx 0) idleCore).tick 0) ∧ (aCtx 0).rd = 1 ∧ (aCtx 0).wr = 3) ∧
    ((filming 0 2 (aCtx 0) idleCore).runs (hdr 16) 0x0603 ((filming 0 2 (aCtx 0) idleCore).tick 0) ∧
      (filming 0 2 (aCtx 0) idleCore).runs (hdr 16) 0x0604 ((filming 0 2 (aCtx 0) idleCore).tick 0) ∧
      (filming 0 2 (aCtx 0) idleCore).freeBuffer 0 = some 1 ∧ (filming 0 1 (aCtx 0) idleCore).freeBuffer 0 = none) ∧
    (filming 0 2 (aCtx 0) idleCore).writes (hdr 1) 0x0101 (Reg.vidCoreOwner 0)
      (((filming 0 2 (aCtx 0) idleCore).tick 0).reachReg (Reg.vidCoreOwner 0)) ∧
    ((filming 0 2 (aCtx 0) idleCore).vidCore 0).state = 0 ∧ ((filming 0 2 (aCtx 0) busyCore).vidCore 0).state ≠ 0 ∧
    (filming 0 2 (aCtx 0) idleCore).coresOf 0 = [0] ∧ (∃ e ∈ (filming 0 2 (aCtx 0) idleCore).video.ctxs, e.2.part = 0) := by
  refine ⟨?_, by decide +kernel, ⟨filming_runs _ _ _ _, by decide +kernel, by decide +kernel⟩,
    ⟨filming_runs _ _ _ _, by decide +kernel⟩, ⟨filming_runs _ _ _ _, by decide +kernel⟩,
    ⟨filming_runs _ _ _ _, filming_runs _ _ _ _, rfl, rfl⟩,
    ⟨filming_runs _ _ _ _, filming_runs _ _ _ _, by decide +kernel, by decide +kernel⟩,
    ⟨(commander_runs (s := filming 0 2 (aCtx 0) idleCore) _ ⟨rfl, rfl, rfl, rfl⟩).2, by decide +kernel, rfl⟩, by decide +kernel⟩
  rintro s rfl
  exact ⟨filming_runs _ _ _ _, by decide +kernel⟩

theorem witness_PicturesStartAndEnd :
    (∀ k ∈ [0, 2], ∀ s : State, s = filming 0 2 (aCtx k) idleCore → (s.vidCore 0).state = 0 ∧
      (s.vidCore 0).resetUntil ≤ s.now ∧ s.reg (Reg.vidCoreOwner 0) % 32 = 0 ∧
      s.queueHead 0 = some (0, aCtx k, aUnit) ∧ s.dpbUsed 0 < (aCtx k).dpb ∧
      (aCtx k).wr - (aCtx k).rd + (aCtx k).outQ.length + 2 ≤ (aCtx k).outRecs ∧ s.freeBuffer 0 = some 1) ∧
    (3 * (aCtx 2).maxW * (aCtx 2).maxH * (if (aCtx 2).tenBit = true then 2 else 1) / 2 ≤ (aCtx 2).bitsBytes - (aCtx 2).bitsUsed ∧
      { aCtx 2 with bitsUsed := 65536 }.bitsBytes - 65536 <
        3 * (aCtx 2).maxW * (aCtx 2).maxH * (if (aCtx 2).tenBit = true then 2 else 1) / 2) ∧
    ((filming 0 1 (aCtx 0) idleCore).freeBuffer 0 = none ∧ { aCtx 0 with wr := 16 }.outRecs < 16 - 1 + 0 + 2 ∧
      ((filming 0 1 (aCtx 0) busyCore).vidCore 0).state ≠ 0 ∧
      (filming 0 1 { aCtx 0 with units := [] } idleCore).queueHead 0 = none) ∧
    (∀ s : State, s = filming 1000000000 2 (aCtx 0) busyCore → (s.vidCore 0).unit = some aUnit ∧
      s.vidCtx (s.vidCore 0).ctx = some (aCtx 0) ∧ (s.vidCore 0).state ≠ 0 ∧ descBits (aCtx 0).desc 8 15 8 = 0 ∧
      (s.vidCore 0).since + 32 * (2000 + (aReport 0 64).width * (aReport 0 64).height) / 4 ≤ s.now ∧ (s.vidCore 0).share = .whole ∧
      (s.vidCore 0).since + (2000 + 64 * 64) ≤ s.now ∧ (aReport 0 64).reason = 0) ∧
    (∀ s : State, s = filming 0 2 (aCtx 0) busyCore →
      s.now < (s.vidCore 0).since + (2000 + 64 * 64) ∧ s.now < (s.vidCore 0).since + 32 * (2000 + (aReport 0 64).width * (aReport 0 64).height) / 4) ∧
    ((filming 0 2 (aCtx 0) idleCore).vidCore 0).unit = none ∧
    (filming 0 2 (aCtx 0) { idleCore with resetUntil := 1 }).now < ((filming 0 2 (aCtx 0) { idleCore with resetUntil := 1 }).vidCore 0).resetUntil ∧
    ((aReport 1 64).reason ≠ 0 ∧ (aReport 0 65).reason = 0 ∧ (aCtx 0).maxW < (aReport 0 65).width ∧
      ({ aCtx 0 with needRap := true }.needRap = true ∧ (aReport 0 64).rap = false ∧ (aReport 0 64).width ≤ (aCtx 0).maxW ∧
        (aReport 0 64).height ≤ (aCtx 0).maxH ∧
        pictureBytes 64 64 false false ≤ (filming 0 2 (aCtx 0) busyCore).reg (Reg.vidPartBufBytes 0))) ∧
    (∀ n ∈ [1000000, 1000001], ∀ s : State, s = filming n 2 { aCtx 0 with waitSince := some 0 } idleCore →
      s.vidCtx 0 = some { aCtx 0 with waitSince := some 0 } ∧ { aCtx 0 with waitSince := some 0 }.units = [aUnit] ∧
      (n = 1000000 → s.now ≤ 0 + 1000000 * { aCtx 0 with waitSince := some 0 }.stallMs) ∧
      (n = 1000001 → 0 + 1000000 * { aCtx 0 with waitSince := some 0 }.stallMs < s.now)) ∧
    ready.vidCtx 511 = none := by
  refine ⟨?_, by decide +kernel, by decide +kernel, ?_, ?_, by decide +kernel, by decide +kernel, by decide +kernel, ?_, by decide +kernel⟩
  · rintro k hk s rfl
    revert k
    decide +kernel
  · rintro s rfl; decide +kernel
  · rintro s rfl; decide +kernel
  · rintro n hn s rfl
    revert n
    decide +kernel

end Sys2Proof.Tests
end

section
/-! SUPPORT. Module time as a session reads it (R24): what the two words of GBL_TIME are, that no power domain holds them, and
what one read of each answers and latches; then the statement of the family of 01_module_overview.md about them. -/

namespace Sys2Proof.Machine

/-! Little-endian bytes, ranges of words and register commands that pass their access check -/

theorem toLe_add (m n v : Nat) : toLe (m + n) v = toLe m v ++ toLe n (v / 256 ^ m) := by
  induction m generalizing v with
  | zero => simp [toLe]
  | succ m ih => rw [Nat.succ_add, toLe, toLe, ih, Nat.div_div_eq_div_mul, Nat.pow_succ', List.cons_append]

/-- The bytes written do not see what lies above them. -/
theorem toLe_mod (n v : Nat) : toLe n (v % 256 ^ n) = toLe n v := by
  induction n generalizing v with
  | zero => rfl
  | succ n ih =>
    have low : BitVec.ofNat 8 (v % 256 ^ (n + 1)) = BitVec.ofNat 8 v :=
      BitVec.eq_of_toNat_eq (Nat.mod_mod_of_dvd v (Dvd.intro_left (256 ^ n) rfl))
    have high : v % 256 ^ (n + 1) / 256 = v / 256 % 256 ^ n := by
      rw [Nat.pow_succ', Nat.mod_mul_right_div_self]
    rw [toLe, toLe, low, high, ih]

/-- Two words, low first, are the bytes of one 64-bit value. -/
theorem toLe_low_high (t : Nat) : toLe 4 (t % 2 ^ 32) ++ toLe 4 (t / 2 ^ 32 % 2 ^ 32) = toLe 8 (t % 2 ^ 64) :=
  calc toLe 4 (t % 2 ^ 32) ++ toLe 4 (t / 2 ^ 32 % 2 ^ 32)
      = toLe 4 t ++ toLe 4 (t / 2 ^ 32) := congrArg₂ _ (toLe_mod 4 t) (toLe_mod 4 (t / 2 ^ 32))
    _ = toLe 8 t := (toLe_add 4 4 t).symm
    _ = toLe 8 (t % 2 ^ 64) := (toLe_mod 8 t).symm

/-- A commander's session reaches every mapped word (R21). -/
theorem access_commander {s : State} {sid addr : Nat} {write : Bool} (hm : mapped addr = true) (hc : isCommander sid = true) :
    s.access sid addr write = stOk := by
  simp [State.access, hm, hc]

theorem accessAll_ok {s : State} {sid : Nat} {as : List Nat} {write : Bool} (h : ∀ a ∈ as, s.access sid a write = stOk) :
    s.accessAll sid as write = stOk := by
  have none_fails : (as.map fun a => s.access sid a write).find? (fun st => st != stOk) = none := by
    simpa [List.find?_eq_none] using h
  rw [State.accessAll, none_fails, Option.getD_none]

/-- A read of registers that the session may read (R421). -/
theorem readCommand_ok {s : State} {sid addr n k : Nat} (h1 : 1 ≤ n) (h2 : n ≤ 360)
    (h : ∀ a ∈ wordsFrom addr n, s.access sid a false = stOk) :
    s.readCommand sid addr n k =
      (stOk, (s.readWords sid (wordsFrom addr n) k).1, (s.readWords sid (wordsFrom addr n) k).2) := by
  rw [State.readCommand, if_neg (by omega)]
  dsimp only
  rw [accessAll_ok h, if_neg (fun ne => ne rfl)]

/-- An access to a register that no domain holds wakes none (R23, R536). -/
theorem reachReg_of_no_domain {s : State} {a : Nat} (h : (upTo 64).find? (fun n => wakeAddr n a) = none) : s.reachReg a = s := by
  rw [State.reachReg, h]

/-! The two words of GBL_TIME (R24) -/

/-- The addresses of the two words of GBL_TIME. -/
def timeWords : List Nat := [Reg.gblTimeLo, Reg.gblTimeHi]

/-- A session whose read of GBL_TIME_LO has latched the high word of time t. -/
def latchTime (t : Nat) (x : Session) : Session := { x with latches := nput x.latches Reg.gblTimeHi (t / 2 ^ 32 % 2 ^ 32) }

/-- The state after a session's read of GBL_TIME_LO. -/
def State.latchedTime (s : State) (sid : Nat) : State := s.modSession sid (latchTime s.now)

theorem latchedTime_eq (s : State) (sid : Nat) :
    s.latchedTime sid =
      s.modSession sid fun x => { x with latches := nput x.latches Reg.gblTimeHi (s.now / 2 ^ 32 % 2 ^ 32) } := rfl

@[simp] theorem regAt_gblTimeLo : regAt Reg.gblTimeLo = some (⟨0x8, [], .ro, 0, 0, .commander, false, false⟩, []) := rfl
@[simp] theorem regAt_gblTimeHi : regAt Reg.gblTimeHi = some (⟨0xC, [], .ro, 0, 0, .commander, false, false⟩, []) := rfl

@[simp] theorem latchKey_gblTimeHi (s : State) (g : Nat) : s.latchKey 0xC g = Reg.gblTimeHi := rfl

theorem access_timeWords {s : State} {sid a : Nat} (hc : isCommander sid = true) (ha : a ∈ timeWords) :
    s.access sid a false = stOk :=
  access_commander ((by decide : ∀ a ∈ timeWords, mapped a = true) a ha) hc

theorem reachReg_timeWords {s : State} {a : Nat} (ha : a ∈ timeWords) : s.reachReg a = s :=
  reachReg_of_no_domain ((by decide : ∀ a ∈ timeWords, (upTo 64).find? (fun n => wakeAddr n a) = none) a ha)

theorem accrue_timeWords {s : State} {a : Nat} (ha : a ∈ timeWords) : s.accrue a = s := by
  obtain rfl | rfl : a = Reg.gblTimeLo ∨ a = Reg.gblTimeHi := by simpa [timeWords] using ha
  · simp [State.accrue]
  · simp [State.accrue]

/-- Reaching words of GBL_TIME before they are read changes nothing. -/
theorem reach_timeWords {as : List Nat} (s : State) (h : ∀ a ∈ as, a ∈ timeWords) :
    foldS (fun s a => (s.reachReg a).accrue a) s as = s := by
  induction as with
  | nil => rfl
  | cons a as ih =>
    have ha : a ∈ timeWords := h a List.mem_cons_self
    rw [foldS, reachReg_timeWords ha, accrue_timeWords ha]
    exact ih fun b hb => h b (List.mem_cons_of_mem a hb)

theorem seenReg_gblTimeLo {s : State} {sid : Nat} (hf : s.frozen sid Reg.gblTimeLo = none) :
    s.seenReg sid Reg.gblTimeLo = s.now % 2 ^ 32 := by
  simp [State.seenReg, hf, latchedHigh, State.showRow, State.showGbl, lo32]

theorem seenReg_gblTimeHi {s : State} {sid : Nat} {x : Session} (hf : s.frozen sid Reg.gblTimeHi = none)
    (hx : s.session sid = some x) : s.seenReg sid Reg.gblTimeHi = nget x.latches Reg.gblTimeHi := by
  simp [State.seenReg, hf, hx, latchedHigh]

theorem readWord_gblTimeLo {s : State} {sid k : Nat} (hf : s.frozen sid Reg.gblTimeLo = none) :
    s.readWord sid Reg.gblTimeLo k = (s.now % 2 ^ 32, s.latchedTime sid) := by
  simp [State.readWord, hf, seenReg_gblTimeLo hf, latchedHigh, State.wideValue, hi32, latchedTime_eq]

theorem readWord_gblTimeHi {s : State} {sid k : Nat} {x : Session} (hf : s.frozen sid Reg.gblTimeHi = none)
    (hx : s.session sid = some x) : s.readWord sid Reg.gblTimeHi k = (nget x.latches Reg.gblTimeHi, s) := by
  simp [State.readWord, hf, seenReg_gblTimeHi hf hx, latchedHigh]

/-! After the low word has been read, the high word is the one of the same instant -/

theorem session_latchedTime {s : State} {sid : Nat} {x : Session} (hx : s.session sid = some x) :
    (s.latchedTime sid).session sid = some (latchTime s.now x) := by
  rw [State.session] at hx
  rw [State.session, State.latchedTime, modSession_sessions, mget_mmod_self, hx, Option.map_some]

theorem frozen_latchedTime (s : State) (sid a : Nat) : (s.latchedTime sid).frozen sid a = s.frozen sid a := rfl

theorem readWord_gblTimeHi_latched {s : State} {sid k : Nat} {x : Session} (hf : s.frozen sid Reg.gblTimeHi = none)
    (hx : s.session sid = some x) :
    (s.latchedTime sid).readWord sid Reg.gblTimeHi k = (s.now / 2 ^ 32 % 2 ^ 32, s.latchedTime sid) := by
  rw [readWord_gblTimeHi ((frozen_latchedTime s sid _).trans hf) (session_latchedTime hx), latchTime, nget_nput_self]

/-! The three commands -/

theorem readWords_gblTimeLo {s : State} {sid k : Nat} (hf : s.frozen sid Reg.gblTimeLo = none) :
    s.readWords sid [Reg.gblTimeLo] k = (toLe 4 (s.now % 2 ^ 32), s.latchedTime sid) := by
  rw [State.readWords, reach_timeWords s (by decide)]
  simp only [List.foldl_cons, List.foldl_nil, List.nil_append, readWord_gblTimeLo hf]

theorem readWords_gblTimeHi {s : State} {sid k : Nat} {x : Session} (hf : s.frozen sid Reg.gblTimeHi = none)
    (hx : s.session sid = some x) : s.readWords sid [Reg.gblTimeHi] k = (toLe 4 (nget x.latches Reg.gblTimeHi), s) := by
  rw [State.readWords, reach_timeWords s (by decide)]
  simp only [List.foldl_cons, List.foldl_nil, List.nil_append, readWord_gblTimeHi hf hx]

theorem readWords_gblTime {s : State} {sid k : Nat} {x : Session} (hl : s.frozen sid Reg.gblTimeLo = none)
    (hh : s.frozen sid Reg.gblTimeHi = none) (hx : s.session sid = some x) :
    s.readWords sid [Reg.gblTimeLo, Reg.gblTimeHi] k = (toLe 8 (s.now % 2 ^ 64), s.latchedTime sid) := by
  rw [State.readWords, reach_timeWords s (by decide)]
  simp only [List.foldl_cons, List.foldl_nil, List.nil_append, readWord_gblTimeLo hl, readWord_gblTimeHi_latched hh hx,
    toLe_low_high]

/-- A commander's read of words of GBL_TIME alone, through the gate and the access check. -/
theorem command_reads_time {s u w : State} {h : CmdHdr} {data : List Byte} (addr n : Nat) (hr : s.runs h 0x0100 u)
    (hc : isCommander h.session = true) (h1 : 1 ≤ n) (h2 : n ≤ 360) (ht : ∀ a ∈ wordsFrom addr n, a ∈ timeWords)
    (hw : u.readWords h.session (wordsFrom addr n) 0 = (data, w)) :
    s.command h 0x0100 (fun s => s.readCommand h.session addr n 0) = w.reply h.session h.seq stOk data := by
  rw [runs_next hr, readCommand_ok h1 h2 fun a ha => access_timeWords hc (ht a ha), hw]

/-- Settles O27: the low word latches the high one of its own instant, which a read of both then answers. -/
theorem coherentModuleTime : Obligations.CoherentModuleTime := by
  intro s u h x hr hc hx hl hh
  refine ⟨u.latchedTime h.session, latchedTime_eq u h.session, ?_, ?_, ?_⟩
  · show execLatchRead h Reg.gblTimeLo s = _
    rw [execLatchRead, command_reads_time Reg.gblTimeLo 1 hr hc (by decide) (by decide) (by decide) (readWords_gblTimeLo hl)]
  · show execRegRead h Reg.gblTimeHi 1 s = _
    rw [execRegRead, command_reads_time Reg.gblTimeHi 1 hr hc (by decide) (by decide) (by decide) (readWords_gblTimeHi hh hx)]
  · show execRegRead h Reg.gblTimeLo 2 s = _
    rw [execRegRead, command_reads_time Reg.gblTimeLo 2 hr hc (by decide) (by decide) (by decide) (readWords_gblTime hl hh hx)]

end Sys2Proof.Machine
end

section
/-! SUPPORT. Ranges of registers (R421, R422): the first failing word of a range, the states through which a range is read or
written word by word, and what each command over a range answers; then the statements of the family of 15_hawser.md about
REG_READ, REG_WRITE and REG_MODIFY. -/

namespace Sys2Proof.Machine

/-! The first status that is not OK (R421, log entry 62) -/

/-- The first status of a list that is not OK, or OK. -/
def firstFailure (sts : List Nat) : Nat := (sts.find? fun st => st != stOk).getD stOk

theorem accessAll_eq_firstFailure (s : State) (sid : Nat) (as : List Nat) (write : Bool) :
    s.accessAll sid as write = firstFailure (as.map fun a => s.access sid a write) := rfl

theorem firstFailure_cons (st : Nat) (sts : List Nat) :
    firstFailure (st :: sts) = if st = stOk then firstFailure sts else st := by
  unfold firstFailure
  rw [List.find?_cons]
  by_cases h : st = stOk
  · simp [h]
  · rw [if_neg h, (bne_iff_ne.2 h : (st != stOk) = true)]
    rfl

/-- A later status answers only where every earlier one is OK. -/
theorem firstFailure_concat (sts : List Nat) (st : Nat) :
    firstFailure (sts ++ [st]) = if firstFailure sts = stOk then st else firstFailure sts := by
  induction sts with
  | nil => rw [List.nil_append, firstFailure_cons]; exact ite_eq_right_iff.2 Eq.symm
  | cons a sts ih =>
    rw [List.cons_append, firstFailure_cons, firstFailure_cons, ih]
    by_cases h : a = stOk
    · simp only [if_pos h]
    · simp only [if_neg h]

theorem firstFailure_upTo {f : Nat → Nat} {n j : Nat} (hj : j < n) (hf : f j ≠ stOk) (before : ∀ m < j, f m = stOk) :
    firstFailure ((upTo n).map f) = f j := by
  have found : (upTo n).find? ((fun st => st != stOk) ∘ f) = some j :=
    List.find?_range_eq_some.2 ⟨by simpa using hf, List.mem_range.2 hj, by simpa using before⟩
  rw [firstFailure, List.find?_map, found, Option.map_some, Option.getD_some]

/-! The access check of a range (R21, R22, R421) -/

theorem accessAll_first_failing {s : State} {sid addr n j : Nat} {write : Bool} (hj : j < n)
    (hf : s.access sid (addr + 4 * j) write ≠ stOk) (before : ∀ m < j, s.access sid (addr + 4 * m) write = stOk) :
    s.accessAll sid (wordsFrom addr n) write = s.access sid (addr + 4 * j) write := by
  rw [accessAll_eq_firstFailure, wordsFrom, List.map_map]
  exact firstFailure_upTo hj hf before

theorem forall_mem_wordsFrom {P : Nat → Prop} {addr n : Nat} (h : ∀ j < n, P (addr + 4 * j)) : ∀ a ∈ wordsFrom addr n, P a := by
  intro a ha
  obtain ⟨j, hj, rfl⟩ := List.mem_map.1 ha
  exact h j (List.mem_range.1 hj)

/-- A read is refused for want of reach alone: NOT_PERMITTED is of writes (R22). -/
theorem access_read_failing {s : State} {sid a : Nat} (h : s.access sid a false ≠ stOk) :
    s.access sid a false = stAddrInvalid := by
  revert h
  unfold State.access
  cases mapped a with
  | false => exact fun _ => rfl
  | true =>
    cases isCommander sid with
    | true => exact fun h => absurd rfl h
    | false =>
      cases regAt a with
      | none => exact (ite_eq_or_eq _ stOk stAddrInvalid).resolve_left
      | some x => exact (ite_eq_or_eq _ stAddrInvalid stOk).resolve_right

theorem accessAll_read_failing {s : State} {sid addr n : Nat} (h : ∃ j < n, s.access sid (addr + 4 * j) false ≠ stOk) :
    s.accessAll sid (wordsFrom addr n) false = stAddrInvalid := by
  obtain ⟨hj, hf⟩ := Nat.find_spec h
  have before : ∀ m < Nat.find h, s.access sid (addr + 4 * m) false = stOk := fun m hm =>
    not_not.1 fun bad => Nat.find_min h hm ⟨hm.trans hj, bad⟩
  rw [accessAll_first_failing hj hf before, access_read_failing hf]

/-- A range with a word out of reach: the answer is the check's, and nothing is touched (R421). -/
theorem readCommand_refused {s : State} {sid addr n k : Nat} (h1 : 1 ≤ n) (h2 : n ≤ 360)
    (h : s.accessAll sid (wordsFrom addr n) false ≠ stOk) :
    s.readCommand sid addr n k = ans (s.accessAll sid (wordsFrom addr n) false) s := by
  rw [State.readCommand, if_neg (by omega)]
  exact if_pos h

theorem writeCommand_refused {s : State} {sid addr k : Nat} {ws : List Nat} (h1 : 1 ≤ ws.length) (h2 : ws.length ≤ 358)
    (h : s.accessAll sid (wordsFrom addr ws.length) true ≠ stOk) :
    s.writeCommand sid addr ws k = ans (s.accessAll sid (wordsFrom addr ws.length) true) s := by
  rw [State.writeCommand, if_neg (by omega)]
  exact if_pos h

/-! Word after word in ascending address (R421) -/

theorem upTo_succ (n : Nat) : upTo (n + 1) = upTo n ++ [n] := List.range_succ

theorem wordsFrom_succ (addr n : Nat) : wordsFrom addr (n + 1) = wordsFrom addr n ++ [addr + 4 * n] := by
  rw [wordsFrom, upTo_succ, List.map_append]
  rfl

theorem foldS_map {σ α β : Type} (f : σ → β → σ) (g : α → β) (s : σ) (l : List α) :
    foldS f s (l.map g) = foldS (fun s a => f s (g a)) s l := by
  induction l generalizing s with
  | nil => rfl
  | cons a l ih => exact ih _

/-- The state after the first words from an address have been read, each in the state that the word before left. -/
def State.afterReads (s : State) (sid addr k : Nat) : Nat → State
  | 0 => s
  | j + 1 => ((s.afterReads sid addr k j).readWord sid (addr + 4 * j) k).2

/-- The state after the first words of a list have been written from an address. -/
def State.afterWrites (s : State) (sid addr k : Nat) (ws : List Nat) : Nat → State
  | 0 => s
  | j + 1 => ((s.afterWrites sid addr k ws j).writeWord sid (addr + 4 * j) (ws.getD j 0) k).2

theorem foldl_readWord (s : State) (sid addr k n : Nat) :
    (wordsFrom addr n).foldl (fun (x : List Byte × State) a =>
        let r := x.2.readWord sid a k
        (x.1 ++ toLe 4 r.1, r.2)) ([], s) =
      ((upTo n).flatMap fun j => toLe 4 ((s.afterReads sid addr k j).readWord sid (addr + 4 * j) k).1,
        s.afterReads sid addr k n) := by
  induction n with
  | zero => rfl
  | succ n ih => rw [wordsFrom_succ, List.foldl_append, ih, upTo_succ, List.flatMap_append, List.flatMap_singleton]; rfl

/-- A range is read once every domain that holds one of its words has been reached (R23, R105, R421). -/
theorem readWords_wordsFrom {s v : State} (sid addr k n : Nat)
    (hv : v = foldS (fun s j => (s.reachReg (addr + 4 * j)).accrue (addr + 4 * j)) s (upTo n)) :
    s.readWords sid (wordsFrom addr n) k =
      ((upTo n).flatMap fun j => toLe 4 ((v.afterReads sid addr k j).readWord sid (addr + 4 * j) k).1,
        v.afterReads sid addr k n) := by
  have reached : foldS (fun s a => (s.reachReg a).accrue a) s (wordsFrom addr n) = v := by rw [hv, wordsFrom, foldS_map]
  rw [State.readWords, reached]
  exact foldl_readWord v sid addr k n

theorem zip_wordsFrom (addr : Nat) (ws : List Nat) :
    (wordsFrom addr ws.length).zip ws = (upTo ws.length).map fun j => (addr + 4 * j, ws.getD j 0) := by
  apply List.ext_getElem
  · simp [wordsFrom, upTo]
  · intro j hj _
    have hw : j < ws.length := by simp only [List.length_zip] at hj; omega
    simp [wordsFrom, upTo, hw]

theorem foldl_writeWord (s : State) (sid addr k : Nat) (ws : List Nat) (n : Nat) :
    ((upTo n).map fun j => (addr + 4 * j, ws.getD j 0)).foldl (fun (x : Nat × State) e =>
        let y := x.2.writeWord sid e.1 e.2 k
        (if x.1 = stOk then y.1 else x.1, y.2)) (stOk, s) =
      (firstFailure ((upTo n).map fun j => ((s.afterWrites sid addr k ws j).writeWord sid (addr + 4 * j) (ws.getD j 0) k).1),
        s.afterWrites sid addr k ws n) := by
  induction n with
  | zero => rfl
  | succ n ih =>
    rw [upTo_succ, List.map_append, List.foldl_append, ih, List.map_append, List.map_singleton, List.map_singleton,
      firstFailure_concat]
    rfl

/-- A write of registers that the session may write: every word is written, and the first failure answers (R421). -/
theorem writeCommand_ok {s v : State} {sid addr k : Nat} {ws : List Nat} (h1 : 1 ≤ ws.length) (h2 : ws.length ≤ 358)
    (h : ∀ a ∈ wordsFrom addr ws.length, s.access sid a true = stOk)
    (hv : v = foldS (fun s j => s.reachReg (addr + 4 * j)) s (upTo ws.length)) :
    s.writeCommand sid addr ws k =
      ans (firstFailure ((upTo ws.length).map fun j =>
          ((v.afterWrites sid addr k ws j).writeWord sid (addr + 4 * j) (ws.getD j 0) k).1))
        (v.afterWrites sid addr k ws ws.length) := by
  have reached : foldS (fun s a => s.reachReg a) s (wordsFrom addr ws.length) = v := by rw [hv, wordsFrom, foldS_map]
  rw [State.writeCommand, if_neg (by omega)]
  dsimp only
  rw [accessAll_ok h, if_neg (fun ne => ne rfl), reached, zip_wordsFrom, foldl_writeWord]

/-! The rows that read or write a range -/

/-- REG_READ, RC_READ and LATCH_READ are one command over a range (R24, R70, R421). -/
theorem exec_reads {i : Instr} {h : CmdHdr} {addr n k : Nat} (s : State)
    (hi : i = .regRead h addr n ∧ k = 0 ∨ i = .rcRead h addr k ∧ n = 1 ∨ i = .latchRead h addr ∧ n = 1 ∧ k = 0) :
    exec i s = .next (s.command h 0x0100 fun s => s.readCommand h.session addr n k) := by
  obtain ⟨rfl, rfl⟩ | ⟨rfl, rfl⟩ | ⟨rfl, rfl, rfl⟩ := hi <;> rfl

/-- REG_WRITE and the writes of one register are one command over a range (R27, R29, R70, R421, R424). -/
theorem exec_writes {i : Instr} {h : CmdHdr} {addr k : Nat} {ws : List Nat} (s : State)
    (hi : (∃ vs : List Word, i = .regWrite h addr vs ∧ ws = vs.map (fun v => v.toNat) ∧ k = 0) ∨
      (∃ v : Word, ws = [v.toNat] ∧ k = 0 ∧
        (i = .registerWrite h addr v ∨ i = .auditSnapshot h addr v ∨ i = .splCommit h v ∧ addr = Reg.splCommit)) ∨
      ∃ v c : Word, i = .w1cClear h addr v c ∧ ws = [v.toNat] ∧ k = c.toNat) :
    exec i s = .next (s.command h 0x0101 fun s => s.writeCommand h.session addr ws k) := by
  obtain ⟨vs, rfl, rfl, rfl⟩ | ⟨v, rfl, rfl, rfl | rfl | ⟨rfl, rfl⟩⟩ | ⟨v, c, rfl, rfl, rfl⟩ := hi <;> rfl

/-- Settles O26: the check of the range answers for its first failing word; past it, one word after another. -/
theorem registerCommandsCoverConsecutiveWords : Obligations.RegisterCommandsCoverConsecutiveWords := by
  refine ⟨fun s u h addr n k i hr hi h1 h2 => ?_, fun s u h addr k ws i hr hi h1 h2 => ?_⟩
  · rw [exec_reads s hi, runs_next hr]
    refine ⟨fun bad => ?_, fun good => ?_⟩
    · have refused := accessAll_read_failing bad
      rw [readCommand_refused h1 h2 (by rw [refused]; decide), refused, ans]
    · refine ⟨State.afterReads _ h.session addr k, rfl, fun j _ => rfl, ?_⟩
      rw [readCommand_ok h1 h2 (forall_mem_wordsFrom good), readWords_wordsFrom h.session addr k n rfl]
  · rw [exec_writes s hi, runs_next hr]
    refine ⟨fun j hj bad before => ?_, fun good => ?_⟩
    · have refused := accessAll_first_failing hj bad before
      rw [writeCommand_refused h1 h2 (by rwa [refused]), refused, ans]
    · refine ⟨State.afterWrites _ h.session addr k ws, rfl, fun j _ => rfl, ?_⟩
      rw [writeCommand_ok h1 h2 (forall_mem_wordsFrom good) rfl, ans, firstFailure]

/-! One register modified in one step (R422) -/

theorem toNat_modified {old : Nat} (ho : old < 2 ^ 32) (mask value : Word) :
    ((BitVec.ofNat 32 old &&& ~~~mask) ||| (value &&& mask)).toNat =
      (old &&& (0xFFFFFFFF - mask.toNat)) ||| (value.toNat &&& mask.toNat) := by
  rw [BitVec.toNat_or, BitVec.toNat_and, BitVec.toNat_and, BitVec.toNat_not, BitVec.toNat_ofNat, Nat.mod_eq_of_lt ho]

theorem exec_regModify_malformed {s u : State} {h : CmdHdr} {addr : Nat} {mask : Word} (value : Word) {r : RegRow}
    {ix : List Nat} (hr : s.runs h 0x0102 u) (ha : u.access h.session addr true = stOk) (hx : regAt addr = some (r, ix))
    (hm : mask.toNat &&& rwMask r ix ≠ mask.toNat) :
    exec (.regModify h addr mask value) s = .next (u.reply h.session h.seq stMalformed []) := by
  show execRegModify h addr mask value s = _
  rw [execRegModify, runs_next hr]
  simp [ha, hx, hm, ans]

/-- Under a mask of RW bits, REG_MODIFY is one write of the combined word. -/
theorem exec_regModify_writes {s u v w : State} {h : CmdHdr} {addr old st : Nat} {mask value : Word} {r : RegRow} {ix : List Nat}
    (hr : s.runs h 0x0102 u) (ha : u.access h.session addr true = stOk) (hx : regAt addr = some (r, ix))
    (hm : mask.toNat &&& rwMask r ix = mask.toNat) (hv : v = u.reachReg addr) (ho : old = v.seenReg h.session addr)
    (hl : old < 2 ^ 32)
    (hw : v.writeWord h.session addr ((BitVec.ofNat 32 old &&& ~~~mask) ||| (value &&& mask)).toNat 0 = (st, w)) :
    exec (.regModify h addr mask value) s = .next (w.reply h.session h.seq st (if st = stOk then toLe 4 old else [])) := by
  rw [toNat_modified hl] at hw
  subst hv ho
  show execRegModify h addr mask value s = _
  rw [execRegModify, runs_next hr]
  simp [ha, hx, hm, hw]

/-- A write of an RW register outside the multi-register groups is its own commit (R29). -/
theorem writeWord_single {s : State} {addr : Nat} {r : RegRow} {ix : List Nat} (sid v k : Nat) (hx : regAt addr = some (r, ix))
    (hrw : r.access = .rw) (hg : groupAt r ix = none) :
    s.writeWord sid addr v k = s.writeSingle addr (v &&& writeMask r ix) r ix := by
  simp [State.writeWord, hx, hrw, hg]

theorem setReg_sameBut (s : State) (a v : Nat) : SameBut [.regs] s (s.setReg a v) :=
  ⟨rfl, fun _ hf => setReg_same s a v hf⟩

/-- Settles O28: past the two checks, REG_MODIFY is REG_WRITE of the combined word, and answers the old one. -/
theorem modifyIsOneStep : Obligations.ModifyIsOneStep := by
  intro s u v h addr old mask value new r ix hr ha hx hv ho hl hn
  subst hn
  refine ⟨exec_regModify_malformed value hr ha hx, fun inside st w => exec_regModify_writes hr ha hx inside hv ho hl,
    fun inside hrw hg single => ?_⟩
  refine ⟨_, ?_, reg_setReg_self v _ _, fun a ne => reg_setReg_other v _ a _ ne, setReg_sameBut v _ _⟩
  rw [exec_regModify_writes hr ha hx inside hv ho hl ((writeWord_single _ _ 0 hx hrw hg).trans single), if_pos rfl]

end Sys2Proof.Machine
end

section
/-! SUPPORT. What every step keeps (R24, R106, R429, R478, R498): each statement is one reading of exec_keeps, which says it of
every command. -/

namespace Sys2Proof.Machine

/-! From a command to a step -/

/-- A step is idle on an empty queue, or takes the command in front. -/
theorem step_cases {s t : State} (h : step s = .next t) :
    s.pending = [] ∧ t = s ∨
      ∃ c rest, s.pending = c :: rest ∧ exec c { s with pending := rest } = .next t := by
  unfold step at h
  split at h
  · next e => exact .inl ⟨e, by cases h; rfl⟩
  · next c rest e => exact .inr ⟨c, rest, e, h⟩

/-- Every step, but at a command that restarts time or moves a step counter where those are asked, keeps what its command keeps. -/
theorem step_keeps {s t : State} {kc kn : Bool} (h : step s = .next t)
    (hc : kc = true → ∀ c ∈ s.pending.head?, c.restartsTime = false)
    (hn : kn = true → ∀ c ∈ s.pending.head?, c.movesCounter = false) :
    Keeps kc kn (fun _ => true) { s with pending := s.pending.tail } t := by
  rcases step_cases h with ⟨e, rfl⟩ | ⟨c, rest, e, hx⟩
  · rw [e]
    obtain ⟨q, w, f, l, b, g, n, k, m⟩ := keeps_refl (kc := kc) (kn := kn) (F := fun _ => true) (old := t)
    exact ⟨e, w, f, l, b, g, n, k, fun _ hf => nomatch hf⟩
  · rw [e, List.tail_cons]
    exact exec_keeps c _ (fun k => hc k c (by rw [e]; rfl)) (fun k => hn k c (by rw [e]; rfl)) (fun _ _ => rfl) t hx

/-- The part of it that asks nothing of the command. -/
theorem step_keeps_any {s t : State} (h : step s = .next t) :
    Keeps false false (fun _ => true) { s with pending := s.pending.tail } t :=
  step_keeps h (fun k => nomatch k) (fun k => nomatch k)

/-! The statements -/

/-- Settles O1: the step reads the queue and nothing else. -/
theorem stepRunsFrontCommand : Obligations.StepRunsFrontCommand := by
  refine ⟨fun c rest s => rfl, fun s e => ?_⟩
  unfold step
  rw [e]

/-- Settles O3: every command keeps the byte store canonical. -/
theorem stepKeepsMemoryCanonical : Obligations.StepKeepsMemoryCanonical :=
  fun _ _ inv h => (step_keeps_any h).store inv

/-- Settles O4: no command lowers the three counters that the flash keeps. -/
theorem flashCountsNeverFall : Obligations.FlashCountsNeverFall := fun _ _ h =>
  have k := step_keeps_any h
  ⟨k.epoch, k.boots, k.gens⟩

/-- Settles O5: PWRGD alone restarts module time. -/
theorem timeNeverRunsBack : Obligations.TimeNeverRunsBack := fun _ _ h hc =>
  (step_keeps (kc := true) (kn := false) h (fun _ => hc) (fun k => nomatch k)).time rfl

/-- Settles O6: a command outside the eight of Instr.movesCounter keeps every step counter. -/
theorem stepCountersMoveOnlyAtCommits : Obligations.StepCountersMoveOnlyAtCommits := fun _ _ h hn =>
  (step_keeps (kc := false) (kn := true) h (fun k => nomatch k) (fun _ => hn)).counter rfl

/-- Settles O7: the fields that a command may change are those that it touches. -/
theorem commandFrames : Obligations.CommandFrames := by
  intro i s t h
  have k := exec_keeps (kc := false) (kn := false) (F := fun f => i.touches.contains f) i s (fun k => nomatch k)
    (fun k => nomatch k) (fun f hf => List.contains_iff_mem.2 hf) t h
  exact ⟨k.queue, fun f hf => k.same f (by simpa using hf)⟩

/-- Settles O8: free values are counted upward, and one command leaves the queue. -/
theorem freeValuesAreTakenOnce : Obligations.FreeValuesAreTakenOnce := fun _ _ h =>
  have k := step_keeps_any h
  ⟨k.fresh, k.queue⟩

end Sys2Proof.Machine
end
section
/-! SUPPORT. What admission refuses, what an answer keeps, what a finished hitch leaves behind, what a store touches and what a
reset leaves. -/

namespace Sys2Proof.Machine

/-! Commands with an opcode (R413) -/

/-- An outcome is that of the gate of an opcode. -/
def Gated (o : Host.Outcome State Fault Refusal) (s : State) (h : CmdHdr) (code : Nat) : Prop :=
  ∃ f, o = .next (s.commandLater h code f)

theorem gated_later (s : State) (h : CmdHdr) (code : Nat) (f : State → Option (Nat × List Byte) × State) :
    Gated (.next (s.commandLater h code f)) s h code := ⟨f, rfl⟩

theorem gated_command (s : State) (h : CmdHdr) (code : Nat) (f : State → Nat × List Byte × State) :
    Gated (.next (s.command h code f)) s h code := ⟨_, rfl⟩

/-- Every command with an opcode passes the gate of its opcode, whatever it does past it; two of them may answer later. -/
theorem exec_gated {i : Instr} {h : CmdHdr} {code : Nat} (e : i.opcode = some (h, code)) (s : State) :
    Gated (exec i s) s h code := by
  cases i <;> cases e
  case activate | resetFunction => exact gated_later ..
  all_goals exact gated_command ..

/-- Settles O9: the gate itself refuses, at receipt or at the head of the queue. -/
theorem refusedCommandsDoNothing : Obligations.RefusedCommandsDoNothing := by
  rintro i s _ h code st x e rfl hp hx hr
  obtain ⟨f, hf⟩ := exec_gated e s
  rw [hf]
  rcases hr with ⟨hq, hr⟩ | ⟨hq, hd, hst, rfl⟩
  · rw [commandLater_refused hp hx hq hr]
  · rw [commandLater_stale hp hx hq hd hst]

/-! Answers (R415) -/

theorem session_modSession_self (s : State) (i : Nat) (f : Session → Session) :
    (s.modSession i f).session i = (s.session i).map f := mget_mmod_self _ _ _

theorem session_modSession_other (s : State) (i j : Nat) (f : Session → Session) (h : j ≠ i) :
    (s.modSession i f).session j = s.session j := mget_mmod_other _ _ _ _ h

/-- Settles O10: without a relay, the reply is what is sent. -/
theorem repliesAreKept : Obligations.RepliesAreKept := by
  intro s n seq st data x hx hv
  have hr : s.relayOf n seq = none := by simp only [State.relayOf, hx, hv]
  refine ⟨_, rfl, ?_⟩
  unfold State.reply State.answer State.sendReply
  rw [hr]
  refine ⟨?_, fun m hm => ?_, rfl, rfl, fun f hf => ?_⟩
  · refine (session_modSession_self s n _).trans ?_
    rw [hx]
    rfl
  · exact session_modSession_other s n m _ hm
  · cases f <;> first | rfl | exact absurd (by decide) hf

/-! Finished hitches (R124) -/

/-- Settles O11: finishing replaces one entry of one queue, and marks the head of that queue. -/
theorem finishedHitchesAreDone : Obligations.FinishedHitchesAreDone := fun s r st digest h =>
  have ⟨f, hf, e⟩ := finish_self s r st digest
  ⟨finish_doneWith s r st digest h, ⟨f, e, hf⟩, fun j hj => finish_other s r st digest j hj,
    finish_pending s r st digest, fun _ hg => finish_same s r st digest hg⟩

/-! Stores -/

theorem bget_writeBytes (m : List Host.Cell) (a b : Nat) (bs : List Byte) :
    bget (writeBytes m a bs) b = if a ≤ b ∧ b < a + bs.length then bs.getD (b - a) 0 else bget m b := by
  split
  · next h =>
    obtain ⟨i, rfl⟩ := Nat.exists_eq_add_of_le h.1
    have hi : i < bs.length := by omega
    rw [bget_writeBytes_at _ _ _ _ hi, Nat.add_sub_cancel_left, List.getD_eq_getElem _ _ hi]
  · exact bget_writeBytes_other _ _ _ _ (by omega)

theorem poke_sameBut (s : State) (a : Nat) (bs : List Byte) : SameBut [.mem] s (s.poke a bs) :=
  ⟨rfl, fun f hf => by cases f <;> first | rfl | exact absurd (by decide) hf⟩

/-- Settles O14: a store is a write to the one byte store. -/
theorem storesTouchTheirBytesOnly : Obligations.StoresTouchTheirBytesOnly := fun s a b bs =>
  ⟨bget_writeBytes s.mem a b bs, poke_peek s a bs, poke_sameBut s a bs⟩

/-! Reset -/

/-- Settles O2: each map of the reset state is empty, so each entry reads as its default. -/
theorem resetState : Obligations.ResetState := by
  refine ⟨rfl, rfl, rfl, rfl, rfl, rfl, rfl, rfl, rfl, rfl, rfl, rfl, rfl, rfl, fun _ => rfl, fun _ => rfl, fun _ _ => rfl,
    fun _ => rfl, fun _ => rfl, fun _ => rfl, fun _ => rfl, fun _ => rfl⟩

end Sys2Proof.Machine
end

section
/-! SUPPORT. The vector unit (R86, R88, R122): every VEC operation is one list of 256 results, made lane by lane. -/

namespace Sys2Proof.Machine

/-! The three sources, lane by lane -/

/-- Lane i of the second source: SRC1, or the immediate. -/
def State.lane1 (t : State) (r : Run) (i : Nat) : Nat :=
  if flag r.w 0x14 8 then Machine.fld r.w 0x18 31 0 else t.lane r.st (Machine.fld r.w 0x10 28 24) i

theorem sources_lanes (t : State) (r : Run) :
    t.sources r = ((upTo 256).map (t.lane r.st (fld r.w 0x10 20 16)), (upTo 256).map (t.lane1 r),
      (upTo 256).map (t.lane r.st (fld r.w 0x14 4 0))) := by
  unfold State.sources State.lanes State.lane1
  dsimp only
  cases flag r.w 0x14 8 <;> rfl

/-! The four ways in which lanes make results -/

variable {α : Type} (l : List α) (a b c : α → Nat)

theorem lanes1_map (f : Nat → Nat × Nat) (y z : List Nat) : lanes1 f (l.map a) y z = l.map fun i => f (a i) :=
  List.map_map

theorem lanes2_map (f : Nat → Nat → Nat × Nat) (z : List Nat) :
    lanes2 f (l.map a) (l.map b) z = l.map fun i => f (a i) (b i) := by
  rw [lanes2, zip_maps, List.map_map]
  rfl

theorem lanes3_map (f : Nat → Nat → Nat → Nat × Nat) :
    lanes3 f (l.map a) (l.map b) (l.map c) = l.map fun i => f (a i) (b i) (c i) := by
  rw [lanes3, zip_maps, zip_maps, List.map_map]
  rfl

theorem permuteLanes_map (a b : Nat → Nat) :
    permuteLanes ((upTo 256).map a) ((upTo 256).map b) = (upTo 256).map fun i => (a (b i % 256), 0) := by
  rw [permuteLanes, List.map_map]
  refine List.map_congr_left fun i _ => ?_
  have hj : b i % 256 < 256 := Nat.mod_lt _ (by decide)
  simp [upTo, List.getElem?_range hj]

theorem foldLanes_map (f : Nat → Nat → Nat × Nat) : foldLanes f (l.map a) = l.map fun _ => treeLanes f 8 (l.map a) 0 :=
  List.map_map

/-! A VEC that starts -/

/-- The results of a VEC are those of the 256 lanes of its sources. -/
theorem runVec_vecDone {s t : State} {st vop : Nat} {u : Upset} {r : Run} {f : List Nat → List Nat → List Nat → List (Nat × Nat)}
    {g : Nat → Nat × Nat} (h : s.starts st 0x08 (isVop vop) u r t) (hu : u.residue = false)
    (hf : f ((upTo 256).map (t.lane r.st (fld r.w 0x10 20 16))) ((upTo 256).map (t.lane1 r))
      ((upTo 256).map (t.lane r.st (fld r.w 0x14 4 0))) = (upTo 256).map g) :
    r.vecDone t (s.runVec st u vop f) g := by
  obtain rfl := (starts_run h).1
  have hs : f (t.sources r).1 (t.sources r).2.1 (t.sources r).2.2 = (upTo 256).map g := by rw [sources_lanes]; exact hf
  obtain ⟨_, rfl, hd, hl, ho, hfl, hr, hs'⟩ := runVec_next (f := f) h hu (by rw [hs, List.length_map, upTo, List.length_range])
  rw [hs] at hl hfl
  refine ⟨hd, fun q i hi => ?_, ho, hfl, hr, hs'⟩
  rw [hl q i hi, List.getD_eq_getElem _ _ (by simpa [upTo] using hi), List.getElem_map]
  simp [upTo]

/-- A command that runs a VEC on all lanes writes the results of its lanes. -/
theorem vec_next {i : Instr} {s t : State} {st vop : Nat} {u : Upset} {r : Run} {f : List Nat → List Nat → List Nat → List (Nat × Nat)}
    {g : Nat → Nat × Nat} (hx : exec i s = .next (s.runVec st u vop f)) (h : s.starts st 0x08 (isVop vop) u r t)
    (hu : u.residue = false) (hf : f ((upTo 256).map (t.lane r.st (fld r.w 0x10 20 16))) ((upTo 256).map (t.lane1 r))
      ((upTo 256).map (t.lane r.st (fld r.w 0x14 4 0))) = (upTo 256).map fun i => g i) :
    ∃ v, exec i s = .next v ∧ r.vecDone t v g := by
  obtain rfl := (starts_run h).1
  exact ⟨_, hx, runVec_vecDone h hu hf⟩

/-- A VEC reads its strand's lanes. -/
theorem starts_strand {s t : State} {st op : Nat} {sub : HitchWord → Bool} {u : Upset} {r : Run} (h : s.starts st op sub u r t)
    (k : Nat) : t.lane st k = t.lane r.st k := by rw [(starts_run h).1]

/-- Settles O12: each floating-point operation is one of lanes1, lanes2 and lanes3. -/
theorem vectorFloatOperations : Obligations.VectorFloatOperations := by
  refine ⟨fun e he s t st u r h hu => ?_, fun e he s t st u r h hu => ?_, fun s t st u r h hu => ?_⟩
  · have hx : exec (e.1 st u) s = .next (s.runVec st.val u e.2.1 (lanes1 e.2.2)) := by fin_cases he <;> rfl
    refine vec_next hx h hu ((lanes1_map _ _ _ _ _).trans ?_)
    rw [starts_strand h]
  · have hx : exec (e.1 st u) s = .next (s.runVec st.val u e.2.1 (lanes2 e.2.2)) := by fin_cases he <;> rfl
    refine vec_next hx h hu ((lanes2_map _ _ _ _ _).trans ?_)
    rw [starts_strand h, starts_strand h]
    rfl
  · refine vec_next rfl h hu ((lanes3_map _ _ _ _ _).trans ?_)
    rw [starts_strand h, starts_strand h, starts_strand h]
    rfl

/-- Settles O13: the integer operations are lanes2 of exact2, and the tree of R88 is taken once for all lanes. -/
theorem vectorIntegerAndCrossLaneOperations : Obligations.VectorIntegerAndCrossLaneOperations := by
  refine ⟨fun e he s t st u r h hu => ?_, fun s t st u r h hu => ?_, fun s t st u r h hu => ?_, fun e he s t st u r h hu => ?_⟩
  · have hx : exec (e.1 st u) s = .next (s.runVec st.val u e.2.1 (lanes2 fun a b => (e.2.2 a b, 0))) := by fin_cases he <;> rfl
    refine vec_next hx h hu ((lanes2_map _ _ _ _ _).trans ?_)
    rw [starts_strand h, starts_strand h]
    rfl
  · refine vec_next rfl h hu ((lanes3_map _ _ _ _ _).trans ?_)
    rw [starts_strand h, starts_strand h, starts_strand h]
    rfl
  · refine vec_next rfl h hu ((permuteLanes_map _ _).trans ?_)
    rw [starts_strand h, starts_strand h]
    rfl
  · have hx : exec (e.1 st u) s = .next (s.runVec st.val u e.2.1 fun a _ _ => foldLanes e.2.2 a) := by fin_cases he <;> rfl
    refine vec_next hx h hu ((foldLanes_map _ _ _).trans ?_)
    rw [State.lanes, starts_strand h]

end Sys2Proof.Machine
end

section
/-! SUPPORT. The Hawser ports and module time (R408, R411 to R418, R428, R429): what a port does with a frame, and each event of
a port by itself. -/

namespace Sys2Proof.Machine

/-! Receipt at a host port (R412, R417, R418, R503) -/

/-- A holder's heartbeat marks its port as heard at an instant (R503). -/
def State.hearBeat (s : State) (port : Nat) (f : HFrame) (at_ : Nat) : State :=
  if f.opcode = 0x0300 ∧ f.session = 0 ∧ f.commander = s.lease.holder ∧ s.lease.holder ≠ 0
  then s.modHostPort port fun x => { x with lastHb := some at_, silentSent := false } else s

/-- Elimination of second copies, and then 802.1Qci (R417, R418). -/
def State.pastPort (s : State) (port : Nat) (f : HFrame) (tag : Nat) : Bool × State :=
  let r := Recovery.take (mget s.recoveries (streamOf f)) tag s.now
  let v := { s with recoveries := mput s.recoveries (streamOf f) r.2 }
  if !r.1 then (false, v.inc (Reg.hstPortCbElimCount port))
  else if (v.qci f).1 then (true, (v.qci f).2) else (false, (v.qci f).2.inc (Reg.hstPortQciDropCount port))

theorem portTake_eq (s : State) (port : Nat) (f : HFrame) (at_ : Nat) :
    s.portTake port f at_ =
      if !f.fcsOk then (false, (s.inc (Reg.hstPortRxCount port)).inc (Reg.hstPortFcsCount port))
      else match f.rtag with
        | none => (false, s.inc (Reg.hstPortRxCount port))
        | some tag =>
          if f.vid ≠ bits ((s.inc (Reg.hstPortRxCount port)).reg Reg.hstCtrl) 27 16 then (false, s.inc (Reg.hstPortRxCount port))
          else ((s.inc (Reg.hstPortRxCount port)).hearBeat port f at_).pastPort port f tag := by
  unfold State.portTake
  rfl

theorem portTake_tagged {s : State} {port : Nat} {f : HFrame} {at_ tag : Nat} (hf : f.fcsOk = true) (hr : f.rtag = some tag)
    (hv : f.vid = bits ((s.inc (Reg.hstPortRxCount port)).reg Reg.hstCtrl) 27 16) :
    s.portTake port f at_ = ((s.inc (Reg.hstPortRxCount port)).hearBeat port f at_).pastPort port f tag := by
  rw [portTake_eq, hf, hr]
  dsimp only
  rw [if_neg (by decide), if_neg (not_not.2 hv)]

theorem recovery_second {q : Recovery} {tag : Nat} (now : Nat) (h : tag ∈ q.taken) : Recovery.take (some q) tag now = (false, q) := by
  simp only [Recovery.take, List.contains_iff_mem.2 h, or_true, if_true]

theorem qci_unmatched {s : State} {f : HFrame} (hc : bit (s.reg Reg.hstCtrl) 2 = true) (hq : s.qciFilter f = none) :
    s.qci f = (false, s) := by
  simp only [State.qci, hc, hq, Bool.not_true, Bool.false_eq_true, if_false]

theorem pastPort_second {v : State} {port : Nat} {f : HFrame} {tag : Nat} {q : Recovery}
    (hq : mget v.recoveries (streamOf f) = some q) (hm : tag ∈ q.taken) :
    v.pastPort port f tag = (false, State.inc { v with recoveries := mput v.recoveries (streamOf f) q }
      (Reg.hstPortCbElimCount port)) := by
  unfold State.pastPort
  rw [hq, recovery_second _ hm]
  rfl

theorem pastPort_unmatched {v : State} {port : Nat} {f : HFrame} {tag : Nat} (hq : mget v.recoveries (streamOf f) = none)
    (hc : bit (v.reg Reg.hstCtrl) 2 = true) (hn : v.qciFilter f = none) :
    v.pastPort port f tag = (false, State.inc
      { v with recoveries := mput v.recoveries (streamOf f) { high := tag, taken := [tag], at_ := v.now } }
      (Reg.hstPortQciDropCount port)) := by
  unfold State.pastPort
  rw [hq]
  have e := qci_unmatched (s := { v with recoveries := mput v.recoveries (streamOf f) { high := tag, taken := [tag], at_ := v.now } })
    hc hn
  dsimp only [Recovery.take]
  rw [e]
  rfl

/-- On a port that is up, outside a management pause, a frame goes through the receipt rules of the port. -/
theorem hawserFrame_next {s u : State} {p : Fin 2} {f : HFrame} {t : Nat} (hu : u = s.tick t) (up : u.hostUp p.val = true)
    (hp : u.update.paused = none) :
    exec (.hawserFrame p f t) s = .next (if (u.portTake p.val f u.now).1 = true
      then (u.portTake p.val f u.now).2.headerTake none f none else (u.portTake p.val f u.now).2) := by
  subst hu
  show execHawserFrame p f t s = _
  unfold execHawserFrame State.frameOrHold State.frame
  simp only [up, hp, p.isLt, if_true, Option.isSome_none, Bool.false_eq_true, if_false, Option.getD_none]

/-- Settles O23: the first rule of receipt that stops a frame gives the counter. -/
theorem portsDropWhatTheyMust : Obligations.PortsDropWhatTheyMust := by
  intro s u p f t hu up hp
  rw [hawserFrame_next hu up hp]
  refine ⟨fun hf => ?_, fun hf hr => ?_, fun tag v hf hr hv e => ?_⟩
  · rw [portTake_eq, hf]; rfl
  · rw [portTake_eq, hf, hr]; rfl
  · rw [portTake_tagged hf hr hv]
    obtain rfl : v = (u.inc (Reg.hstPortRxCount p.val)).hearBeat p.val f u.now := e
    refine ⟨fun q hq _ _ hm => ?_, fun hq hc hn => ?_⟩
    · rw [pastPort_second hq hm]; rfl
    · rw [pastPort_unmatched hq hc hn]; rfl

/-- Settles O22: past the port, the header, the session and its tag, the window decides. -/
theorem framesJoinTheirQueue : Obligations.FramesJoinTheirQueue := by
  intro s u v port f t sid x hu up hp ht h1 h2 h3 h4 h5 h6 h7 h8 hs hop hx hk
  rw [hawserFrame_next hu up hp, ht]
  have hrel : ¬(f.relay = true ∧ f.modNum ≠ v.self) := fun a => a.2 (h8 a.1)
  have hform : ¬(f.version ≠ 1 ∨ f.reserved = true ∨ f.reply = true ∨ f.event = true ∨ f.length ≠ f.params.length ∨
      1440 < f.length ∨ f.length % 4 ≠ 0) := by
    simp only [h1, h2, h3, h4, ← h5, h7, ne_eq, not_true_eq_false, Bool.false_eq_true, false_or, or_false, Nat.not_lt]
    exact h6
  unfold State.headerTake
  simp only [if_true, if_neg hform, if_neg hrel, hs, if_neg hop, hx, hk, ne_eq, not_true_eq_false, if_false]
  refine ⟨fun w hw hd hl hq => ?_, fun r hd hr hp => ?_, fun hd hl => ?_⟩
  · subst hw
    simp only [hd, hl, Bool.false_eq_true, if_false, if_neg (Nat.not_le.2 hq)]
    refine ⟨fun hr => ?_, fun st hr => ?_⟩ <;> simp only [hr]
  · simp only [hd, if_true, hr, inc_update, hp, Option.isSome_none, Bool.false_eq_true, if_false]
  · simp only [hd, hl, Bool.false_eq_true, if_false, if_true]

/-! Module time (R428, R429) -/

theorem ptpSync_next {s u v : State} {p : Fin 2} {offset : Int} {t : Nat} (hu : u = s.tick t)
    (hv : v = u.modHostPort p.val fun x => { x with syncAt := some u.now, offset := offset }) :
    exec (.ptpSync p offset t) s = .next (
      if p.val = 1 && v.syncValid 0 then v
      else if v.ptp.state = 0 then
        let w := State.modHostPort { v with
          now := v.now + offset.toNat
          ptp := { state := 1, port := p.val, slew := min offset 0, lastSync := v.now + offset.toNat } } p.val
          fun x => { x with syncAt := some (v.now + offset.toNat) }
        { w with serve := { w.serve with lastRefill := w.now / 1000000 * 1000000 } }
      else if v.ptp.port = p.val ∧ 1000000 < offset then
        let w := State.modHostPort { v with
          now := v.now + offset.toNat
          ptp := { state := 1, port := p.val, slew := 0, lastSync := v.now + offset.toNat } } p.val
          fun x => { x with syncAt := some (v.now + offset.toNat) }
        ((w.refill).inc Reg.hstPtpStepCount).eventC 6 stOk (1 + 4 * p.val) (toLe 8 offset.toNat)
      else { v with ptp := { state := 1, port := p.val, slew := offset, lastSync := v.now } }) := by
  subst hv hu
  rfl

/-- A port has been heard within the last 2 s (R428). -/
def State.heardLately (s : State) (p : Nat) : Bool :=
  match (s.hostPort p).syncAt with
  | some a => decide (s.now < a + 2000000000)
  | none => false

theorem ptpHoldover_next {s u : State} {t : Nat} (hu : u = s.tick t) :
    exec (.ptpHoldover t) s = .next (if u.ptp.state = 1 && !((upTo 2).any u.heardLately)
      then { u with ptp := { u.ptp with state := 2 } } else u) := by
  subst hu
  rfl

/-- Settles O24: which of the four branches a Sync takes, and the two events of a silent port. -/
theorem moduleTimeFollowsItsPort : Obligations.ModuleTimeFollowsItsPort := by
  refine ⟨fun s u v p offset t hu hv => ?_, fun s u t hu h0 hp hs => ?_, fun s u t hu h1 hr => ?_⟩
  · rw [ptpSync_next hu hv]
    refine ⟨fun h1 hs => ?_, fun hp => ?_⟩
    · subst h1
      rw [hs]
      rfl
    · have c : ¬((p.val = 1 && v.syncValid 0) = true) := by
        rcases hp with rfl | hp
        · exact Bool.false_ne_true
        · rw [hp, Bool.and_false]; exact Bool.false_ne_true
      rw [if_neg c]
      refine ⟨fun h0 => ⟨_, rfl, ?_⟩, fun h0 hq ho => ⟨_, rfl, ?_⟩, fun h0 hn => ?_⟩
      · rw [if_pos h0]
      · rw [if_neg h0, if_pos ⟨hq, ho⟩]
      · rw [if_neg h0, if_neg hn]
  · subst hu
    show execPtpSourceSwitch t s = _
    unfold execPtpSourceSwitch
    simp only [h0, hp, hs, decide_false, bne_self_eq_false, Bool.or_false, Bool.false_eq_true, if_false]
  · have silent : (upTo 2).any u.heardLately = false := List.any_eq_false.2 fun p hp => by
      unfold State.heardLately
      cases e : (u.hostPort p).syncAt with
      | none => exact Bool.false_ne_true
      | some a => exact fun c => Nat.not_le.2 (of_decide_eq_true c) (hr p (List.mem_range.1 hp) a e)
    rw [ptpHoldover_next hu, silent, h1]
    rfl

/-! The events of the host ports (R408, R411, R414, R416, R417, R419) -/

theorem gateEnd_eq (l : List (Nat × Nat)) (k : Nat) : gateEnd l k = ((l.take (k + 1)).map fun e => 8 * e.2).sum :=
  List.sum_eq_foldl.symm

/-- Two folds agree where their steps agree on every state that the fold passes through. -/
theorem foldS_congr {σ α : Type} {P : σ → Prop} {f g : σ → α → σ} (l : List α) {b : σ} (hb : P b)
    (h : ∀ s a, P s → P (f s a) ∧ f s a = g s a) : foldS f b l = foldS g b l := by
  induction l generalizing b with
  | nil => rfl
  | cons a l ih =>
    obtain ⟨hp, e⟩ := h b a hb
    show foldS f (f b a) l = foldS g (g b a) l
    rw [← e]
    exact ih hp

/-- Settles O25: each event by itself. -/
theorem hostEventsComplete : Obligations.HostEventsComplete := by
  refine ⟨fun s u h data hr => ?_, fun s u h n hr => ?_, fun s u sid t x hu hx hp => ?_, fun s u f src t hu hz hp => ?_,
    fun s u f t hu hz h0 h1 => ?_, fun s u p t hu hc hs hd => ?_, fun s u p t hu => ?_,
    fun s u p t on list cycle start hu hg hn => ?_, fun s u p t x hu hx ho he => ?_, fun s u p t hu hp hd => ?_,
    fun s u stream t r hu hr ha => ?_⟩
  · show execEcho h data s = _
    rw [execEcho, runs_next hr]
  · show execEventAck h n s = _
    rw [execEventAck, runs_next hr]
    rfl
  · subst hu
    show execEventResend sid t s = _
    unfold execEventResend
    simp only [hx, hp, Option.isSome_none, Bool.false_eq_true, if_false]
    exact congrArg _ (foldS_congr (P := fun v : State => v.now = (s.tick t).now) _ rfl fun v a hv => ⟨hv, by rw [hv]⟩)
  · subst hu
    show execRelayFrame f src t s = _
    unfold execRelayFrame State.frameOrHold State.frame
    simp only [hz, hp, Option.isSome_none, Bool.false_eq_true, if_false, if_neg (Nat.not_lt.2 (Nat.le_add_right 2 src)),
      Nat.add_sub_cancel_left]
  · subst hu
    show execRelayReply f t s = _
    have h1' : ((s.tick t).send (.frame 0 f)).hostUp 1 = true := h1
    unfold execRelayReply
    simp only [hz, foldS, h0, h1', Bool.false_eq_true, if_false, if_true]
  · subst hu
    show execHostLinkUp p t s = _
    unfold execHostLinkUp
    simp only [hc, hd, Bool.not_true, Bool.false_or, decide_eq_false (Nat.not_lt.2 hs), bne_self_eq_false, Bool.and_false,
      Bool.false_eq_true, if_false]
  · subst hu; rfl
  · subst hu
    show execGclActivate p t s = _
    unfold execGclActivate
    simp only [hg, if_neg (Nat.not_lt.2 hn)]
  · subst hu hx
    show execGateIntervalEnd p t s = _
    rw [← gateEnd_eq] at he
    unfold execGateIntervalEnd
    simp only [ho, decide_eq_false (Nat.not_lt.2 he), Bool.not_true, Bool.or_false, Bool.false_eq_true, if_false]
    rfl
  · subst hu
    show execPdelayInterval p t s = _
    unfold execPdelayInterval
    simp only [hp, decide_eq_false (Nat.not_lt.2 hd), Bool.not_true, Bool.or_false, Bool.false_eq_true, if_false]
  · subst hu
    show execRecoveryResetTimeout stream t s = _
    unfold execRecoveryResetTimeout
    simp only [hr, ha, if_true]

end Sys2Proof.Machine
end

section
/-! SUPPORT. The lanyard (R498 to R509): when a lease command finds it held, what each lease command writes, and what comes
about when time has run. -/

namespace Sys2Proof.Machine

/-! Held, and by whom (R498, R500) -/

theorem holdsAt_iff {s : State} {c n : Nat} :
    s.holdsAt c n = true ↔ s.lease.holder ≠ 0 ∧ s.lease.holder = c ∧ cycleStart n < s.lease.expiry := by
  unfold State.holdsAt State.heldAt
  simp only [Bool.and_eq_true, bne_iff_ne, decide_eq_true_eq, beq_iff_eq]
  exact ⟨fun ⟨⟨a, b⟩, c⟩ => ⟨a, c, b⟩, fun ⟨a, c, b⟩ => ⟨⟨a, b⟩, c⟩⟩

theorem heldAt_false {s : State} {n : Nat} (h : s.lease.holder = 0 ∨ s.lease.expiry ≤ cycleStart n) : s.heldAt n = false := by
  unfold State.heldAt
  rcases h with h | h
  · rw [h]; rfl
  · rw [decide_eq_false (Nat.not_lt.2 h), Bool.and_false]

theorem holdsAt_false {s : State} {c n : Nat} (h : s.heldAt n = false) : s.holdsAt c n = false := by
  rw [State.holdsAt, h, Bool.false_and]

/-- A duration that LEASE_ACQUIRE accepts. -/
theorem leaseMs_good {a ms d : Nat} (h : a = 0 ∧ ms = d ∨ 50 ≤ a ∧ a ≤ 2000 ∧ ms = a) :
    ¬(a ≠ 0 ∧ (a < 50 ∨ 2000 < a)) ∧ (if a = 0 then d else a) = ms := by
  rcases h with ⟨rfl, rfl⟩ | ⟨h1, h2, rfl⟩
  · exact ⟨fun c => c.1 rfl, if_pos rfl⟩
  · exact ⟨by omega, if_neg (by omega)⟩

theorem grant_lease (s : State) (c ms n : Nat) :
    (s.grant c ms n).lease = { s.lease with
      epoch := s.lease.epoch + 1, holder := c, duration := ms, expiry := n + 1000000 * ms, armed := true,
      lastHb := n, lost := false, roleLast := n, roleDuration := ms, grace := s.reg Reg.lnySeizeGrace % 4096 } :=
  eventC_same _ _ _ _ _ (f := .lease) (by decide)

theorem mem_upTo {n k : Nat} : k ∈ upTo n ↔ k < n := List.mem_range

/-! SEIZE_RELEASE puts every partition into HOLD (R507) -/

/-- The step record of a partition in HOLD. -/
def StepRec.hold (x : StepRec) : StepRec := { x with mode := 0, modeNext := none }

theorem step_foldHold (l : List Nat) (s : State) (p : Nat) :
    (foldS (fun s p => s.modStep p StepRec.hold) s l).step p = if p ∈ l then (s.step p).hold else s.step p := by
  induction l generalizing s with
  | nil => rfl
  | cons q l ih =>
    show (foldS _ (s.modStep q StepRec.hold) l).step p = _
    rw [ih]
    by_cases e : p = q
    · subst e
      have self : (s.modStep p StepRec.hold).step p = (s.step p).hold :=
        congrArg Part.step (modPart_part_self s p _)
      rw [self, if_pos List.mem_cons_self]
      split <;> rfl
    · have other : (s.modStep q StepRec.hold).step p = s.step p := congrArg Part.step (modPart_part_other s q p _ e)
      rw [other]
      simp only [List.mem_cons, e, false_or]

theorem foldHold_sameBut (l : List Nat) (s : State) : SameBut [.parts] s (foldS (fun s p => s.modStep p StepRec.hold) s l) := by
  have k := foldS_keeps (kc := true) (kn := true) (F := fun g => [Field.parts].contains g) (l := l) (s := s) (old := s)
    (f := fun s p => s.modStep p StepRec.hold)
    (fun s p h => modStep_keeps h (hx := fun _ => rfl) (hT := within_list (l := [.parts]) (by decide) fun f h => List.contains_iff_mem.2 h)) keeps_refl
  exact ⟨k.queue, fun f hf => same_of_keeps k hf⟩

/-! ROLE_ASSIGN (R509) -/

/-- A new assignment of a role to another module writes the directory and raises peer epochs. -/
theorem assignRole_new {u : State} {a : RoleAssign} (h1 : a.role < 0xFFFF) (h2 : a.holderModule < 256) (h3 : a.holderPart < 16)
    (h4 : a.formerModule < 256) (h5 : a.formerPart < 16 ∨ a.formerPart = 0xFF) (h6 : a.holderModule ≠ u.self)
    (h7 : ∀ r, mget u.ecron.directory a.role = some r → r.epoch < a.epoch) :
    u.assignRole a =
      let v := State.raisePeer { u with
        ecron := { u.ecron with
          directory := mput u.ecron.directory a.role { modNum := a.holderModule, part := a.holderPart, epoch := a.epoch } } }
        a.holderModule a.holderPart a.epoch
      (stOk, toLe 4 a.epoch ++ toLe 1 a.holderModule ++ toLe 1 a.holderPart,
        if a.formerModule = 0xFF ∨ a.formerPart = 0xFF then v else v.raisePeer a.formerModule a.formerPart a.epoch) := by
  have form : ¬(0xFFFF ≤ a.role ∨ 256 ≤ a.holderModule ∨ 16 ≤ a.holderPart ∨ 256 ≤ a.formerModule ∨
    16 ≤ a.formerPart ∧ a.formerPart ≠ 0xFF) := by omega
  have here : ∀ v : State, v.self = u.self → ¬ a.holderModule = v.self := fun v e c => h6 (c.trans e)
  unfold State.assignRole
  dsimp only
  rw [if_neg form, if_neg fun c => h6 c.1]
  have reg : ∀ (v : State) m p e, (v.raisePeer m p e).self = v.self := fun _ _ _ _ => rfl
  cases hd : mget u.ecron.directory a.role with
  | none =>
    simp only [mgetD, hd, Option.isSome_none, Bool.false_and, Option.getD_none, Nat.not_lt_zero, Bool.false_eq_true, false_and,
      and_false, or_false, if_false]
    rw [if_neg]
    · rfl
    · split <;> exact h6
  | some r =>
    have lt := h7 r hd
    have ne : (a.epoch == r.epoch) = false := beq_eq_false_iff_ne.2 (by omega)
    simp only [mgetD, hd, Option.getD_some, Nat.not_lt.2 (Nat.le_of_lt lt), (show ¬ a.epoch = r.epoch by omega), ne, false_and,
      or_false, Bool.and_false, Bool.false_eq_true, if_false]
    rw [if_neg]
    · rfl
    · split <;> exact h6

/-- Settles O20: each lease command past the gate. -/
theorem leaseCommandsComplete : Obligations.LeaseCommandsComplete := by
  refine ⟨fun s u h sendTime n hr hn => ?_, fun s u h leaseMs n ms hr hn hm h0 hh hx => ?_,
    fun s u v h leaseMs n ms hr hn hm hx he hv => ?_, fun s u h n hr hn hh => ?_,
    fun s u v w h a hr h1 h2 h3 h4 h5 h6 h7 hv hw => ?_, fun s u h hr hh he ht hz => ?_⟩
  · subst hn
    refine ⟨_, ?_, rfl⟩
    show execHeartbeat h sendTime s = _
    rw [execHeartbeat, runs_next hr]
    dsimp only
    by_cases c : u.holdsAt h.session (u.cmdNow h.session h.seq) = true
    · rw [if_pos c, if_pos (holdsAt_iff.1 c)]
      rfl
    · rw [if_neg c, if_neg fun d => c (holdsAt_iff.2 d)]
  · subst hn
    obtain ⟨good, e⟩ := leaseMs_good hm
    show execLeaseAcquire h leaseMs s = _
    rw [execLeaseAcquire, runs_next hr]
    dsimp only
    rw [if_neg good, if_pos (holdsAt_iff.2 ⟨h0, hh, hx⟩), e]
    rfl
  · subst hn hv
    obtain ⟨good, e⟩ := leaseMs_good hm
    have free := heldAt_false hx
    refine ⟨u.grant h.session ms (u.cmdNow h.session h.seq), rfl, ?_⟩
    show execLeaseAcquire h leaseMs s = _
    rw [execLeaseAcquire, runs_next hr]
    dsimp only
    rw [if_neg good, holdsAt_false free, free, he, bne_self_eq_false, e]
    simp only [Bool.or_self, Bool.false_eq_true, if_false, grant_lease]
  · subst hn
    show execLeaseRelease h s = _
    rw [execLeaseRelease, runs_next hr]
    dsimp only
    rw [if_pos hh]
    rfl
  · subst hv hw
    show execRoleAssign h a s = _
    rw [execRoleAssign, runs_next hr, assignRole_new h1 h2 h3 h4 h5 h6 h7]
  · obtain ⟨v, hv⟩ : ∃ v, v = foldS (fun s p => s.modStep p StepRec.hold) { u with lease := { u.lease with seized := false } } (upTo 16) :=
      ⟨_, rfl⟩
    have frame := foldHold_sameBut (upTo 16) { u with lease := { u.lease with seized := false } }
    rw [← hv] at frame
    refine ⟨v, ?_, frame.2 .lease (by decide), fun p hp => ?_, frame.1, fun f hf => ?_⟩
    · show execSeizeRelease h s = _
      rw [execSeizeRelease, runs_next hr]
      rw [hh, he, ht, hz, beq_self_eq_true]
      simp only [Bool.and_self, Bool.not_true, Bool.or_self, Bool.false_eq_true, if_false, hv, ans]
      delta StepRec.hold
      with_reducible rfl
    · rw [hv, step_foldHold, if_pos (mem_upTo.2 hp)]
      exact ⟨rfl, rfl, rfl, rfl⟩
    · have g := frame.2 f fun c => hf (List.mem_cons_of_mem _ c)
      refine same_trans ?_ g
      cases f <;> first | rfl | exact absurd List.mem_cons_self hf

/-- Settles O21: what time brings about once it has run. -/
theorem leaseEventsComplete : Obligations.LeaseEventsComplete := by
  refine ⟨fun s u port t hu h1 h2 h3 hp => ?_, fun s u t hu h0 hl h1 h2 hp => ?_, fun s t h => ⟨rfl, ?_⟩,
    fun s u t hu hz ha hl hp hs => ⟨_, _, rfl, rfl, ?_⟩⟩
  · subst hu
    show execPortSilent port t s = _
    have go : ¬((s.tick t).misses port.val < 5 ∨ 5 ≤ (s.tick t).misses (1 - port.val) ∨
      ((s.tick t).hostPort port.val).silentSent = true ∨ (s.tick t).update.paused.isSome = true) := by
      rw [h3, hp]
      simp only [Bool.false_eq_true, Option.isSome_none, or_false]
      omega
    unfold execPortSilent
    dsimp only
    rw [if_neg go]
  · subst hu
    show execCommanderLost t s = _
    have go : ¬((s.tick t).lease.holder = 0 ∨ (s.tick t).lease.lost = true ∨ (s.tick t).misses 0 < 5 ∨ (s.tick t).misses 1 < 5 ∨
      (s.tick t).update.paused.isSome = true) := by
      rw [hl, hp]
      simp only [Bool.false_eq_true, Option.isSome_none, or_false, false_or]
      omega
    unfold execCommanderLost
    dsimp only
    rw [if_neg go]
  · have late : ¬ (s.tick t).now < (s.tick t).lease.expiry := Nat.not_lt.2 (Nat.le_trans h (Nat.le_max_right _ _))
    rw [State.held, decide_eq_false late, Bool.and_false]
  · subst hu
    have lapsed : (s.tick t).roleLapsed = true := by
      rw [State.roleLapsed, ha, msNs, decide_eq_true hl]
      rfl
    show execSeize t s = _
    unfold execSeize State.seizeNow
    dsimp only
    rw [hz, lapsed, hp, hs]
    rfl

end Sys2Proof.Machine
end

section
/-! SUPPORT. Reports and security settings (R484, R486, R489, R497), and the writes of HNK_CTRL (R109, R142, R143). -/

namespace Sys2Proof.Machine

/-! Frames read off what an operation keeps -/

theorem within_own {T : Nat} {l : List Field} (e : Nat.land T (fieldMask l) = T) : Within T fun g => l.contains g :=
  within_list e fun _ h => List.contains_iff_mem.2 h

theorem sameBut_of_keeps {l : List Field} {kc kn : Bool} {s t : State} (k : Keeps kc kn (fun g => l.contains g) s t) :
    SameBut l s t :=
  ⟨k.queue, fun f hf => k.same f (by simpa using hf)⟩

theorem sameBut_trans {l : List Field} {a b c : State} (h : SameBut l a b) (g : SameBut l b c) : SameBut l a c :=
  ⟨g.1.trans h.1, fun f hf => same_trans (h.2 f hf) (g.2 f hf)⟩

theorem sameBut_refl (l : List Field) (s : State) : SameBut l s s := ⟨rfl, fun f _ => same_self s f⟩

theorem modPart_sameBut (s : State) (p : Nat) (f : Part → Part) : SameBut [.parts] s (s.modPart p f) :=
  sameBut_of_keeps (kc := true) (kn := false) (modPart_keeps keeps_refl (hT := within_own (by decide)))

/-! ATTEST (R484, R486) -/

/-- A part of a report or of the certificate chain, as ATTEST answers it. -/
def reportPart (b : List Byte) (off : Nat) : List Byte := toLe 4 b.length ++ (b.drop off).take 1408

/-- Settles O36: what is reported, and whether the report held is taken again. -/
theorem reportsAndSecuritySettings : Obligations.ReportsAndSecuritySettings := by
  refine ⟨fun s u h c off x hr hc hx => ?_, fun s u h value hr => ?_, fun s u t hu => ?_⟩
  · have key : ∀ cert, exec (.attest h c cert off) s = execAttest h c cert off s := fun _ => rfl
    have long : ¬ c.length ≠ 32 := not_not.2 hc
    refine ⟨fun ho => ?_, fun ho => ?_, fun ho => ?_, fun ho hn => ⟨_, _, rfl, rfl, ?_⟩, fun ho he hs => ?_⟩ <;>
      rw [key, execAttest, runs_next hr] <;> dsimp only <;> rw [if_neg long]
    · rw [if_pos rfl, if_neg (Nat.not_le.2 ho)]
    · rw [if_pos rfl, if_pos ho]; rfl
    · rw [if_neg Bool.false_ne_true, if_pos ho]; rfl
    · have anew : (x.report.isEmpty || slice x.report 0x38 32 != c) = true := by
        rw [Bool.or_eq_true, List.isEmpty_iff, bne_iff_ne]
        exact hn
      rw [if_neg Bool.false_ne_true, if_neg (Nat.not_le.2 ho), hx]
      dsimp only
      rw [if_pos anew]
    · have same : (x.report.isEmpty || slice x.report 0x38 32 != c) = false := by
        rw [hs, bne_self_eq_false, Bool.or_false, List.isEmpty_eq_false_iff]
        exact he
      rw [if_neg Bool.false_ne_true, if_neg (Nat.not_le.2 ho), hx]
      dsimp only
      rw [same, if_neg Bool.false_ne_true]
  · show execSecCtrl h value s = _
    rw [execSecCtrl, writes_next hr]
    rfl
  · subst hu
    have key : exec (.debugOpen t) s = execDebugOpen t s := rfl
    rw [key, execDebugOpen]
    exact ⟨fun hf => by rw [hf]; rfl, fun hf => by rw [hf]; rfl⟩

/-! HNK_CTRL (R109, R142, R143) -/

@[simp] theorem step_modStep_self (s : State) (p : Nat) (f : StepRec → StepRec) : (s.modStep p f).step p = f (s.step p) :=
  congrArg Part.step (modPart_part_self s p _)

theorem part_modStep_other (s : State) (p q : Nat) (f : StepRec → StepRec) (h : q ≠ p) : (s.modStep p f).part q = s.part q :=
  modPart_part_other s p q _ h

/-- What a write of MODE makes of a step record: a busy step takes it at its end. -/
def StepRec.withMode (busy : Bool) (m : Nat) (x : StepRec) : StepRec :=
  if busy then { x with modeNext := some m } else { x with mode := m, modeNext := none }

/-- What a write of GO makes of it. -/
def StepRec.withGo (x : StepRec) : StepRec := if x.modeNext.getD x.mode = 1 then { x with go := true } else x

/-- What a write of CLR_ABANDON makes of it. -/
def StepRec.cleared (x : StepRec) : StepRec := if x.phase = .abandoned then { x with phase := .idle } else x

theorem withMode_last (busy : Bool) (m : Nat) (x : StepRec) : (x.withMode busy m).modeNext.getD (x.withMode busy m).mode = m := by
  cases busy <;> rfl

theorem withMode_rest (busy : Bool) (m : Nat) (x : StepRec) :
    (x.withMode busy m).go = x.go ∧ (x.withMode busy m).counter = x.counter ∧ (x.withMode busy m).phase = x.phase := by
  cases busy <;> exact ⟨rfl, rfl, rfl⟩

/-- GO after a write of MODE is set in mode SINGLE alone. -/
theorem withGo_withMode (busy : Bool) (m : Nat) (x : StepRec) :
    (x.withMode busy m).withGo = { x.withMode busy m with go := decide (m = 1) || x.go } := by
  unfold StepRec.withGo
  rw [withMode_last]
  split
  · next e => rw [decide_eq_true e]; rfl
  · next e => rw [decide_eq_false e, Bool.false_or, ← (withMode_rest busy m x).1]

theorem cleared_rest (x : StepRec) :
    x.cleared.phase = (if x.phase = .abandoned then .idle else x.phase) ∧ x.cleared.counter = x.counter ∧
      x.cleared.modeNext.getD x.cleared.mode = x.modeNext.getD x.mode ∧ x.cleared.go = x.go := by
  unfold StepRec.cleared
  split
  · exact ⟨rfl, rfl, rfl, rfl⟩
  · exact ⟨rfl, rfl, rfl, rfl⟩

/-- The step record that a write of HNK_CTRL leaves. -/
theorem step_hnkCtrlWrite (s : State) (p v : Nat) :
    (s.hnkCtrlWrite p v).step p =
      let x := (s.step p).withMode (s.stepBusy p) (v % 4)
      let y := if bit v 4 = true then x.withGo else x
      if bit v 5 = true then y.cleared else y := by
  have mode : (s.setMode p (v % 4)).step p = (s.step p).withMode (s.stepBusy p) (v % 4) := step_modStep_self _ _ _
  have go : ∀ t : State, (t.setGo p).step p = (t.step p).withGo := fun _ => step_modStep_self _ _ _
  have clear : ∀ t : State, (t.clearAbandon p).step p = (t.step p).cleared := fun _ => step_modStep_self _ _ _
  unfold State.hnkCtrlWrite
  cases bit v 4 <;> cases bit v 5 <;> simp [mode, go, clear]

theorem part_hnkCtrlWrite_other (s : State) (p v q : Nat) (h : q ≠ p) : (s.hnkCtrlWrite p v).part q = s.part q := by
  have mode : (s.setMode p (v % 4)).part q = s.part q := part_modStep_other _ _ _ _ h
  have go : ∀ t : State, (t.setGo p).part q = t.part q := fun _ => part_modStep_other _ _ _ _ h
  have clear : ∀ t : State, (t.clearAbandon p).part q = t.part q := fun _ => part_modStep_other _ _ _ _ h
  unfold State.hnkCtrlWrite
  cases bit v 4 <;> cases bit v 5 <;> simp [mode, go, clear]

theorem hnkCtrlWrite_sameBut (s : State) (p v : Nat) : SameBut [.parts] s (s.hnkCtrlWrite p v) := by
  unfold State.hnkCtrlWrite
  have mode : SameBut [.parts] s (s.setMode p (v % 4)) := modPart_sameBut _ _ _
  have go : ∀ t : State, SameBut [.parts] t (t.setGo p) := fun _ => modPart_sameBut _ _ _
  have clear : ∀ t : State, SameBut [.parts] t (t.clearAbandon p) := fun _ => modPart_sameBut _ _ _
  cases bit v 4 <;> cases bit v 5
  · exact mode
  · exact sameBut_trans mode (clear _)
  · exact sameBut_trans mode (go _)
  · exact sameBut_trans (sameBut_trans mode (go _)) (clear _)

/-! The three values that are written -/

section
variable (s : State) (p : Nat) {m : Nat}

theorem step_write_mode (h : m < 4) : (s.hnkCtrlWrite p m).step p = (s.step p).withMode (s.stepBusy p) m := by
  have h4 : bit m 4 = false := by unfold bit; simp; omega
  have h5 : bit m 5 = false := by unfold bit; simp; omega
  rw [step_hnkCtrlWrite, Nat.mod_eq_of_lt h]
  simp [h4, h5]

theorem step_write_go (h : m < 4) :
    (s.hnkCtrlWrite p (m + 16)).step p =
      { (s.step p).withMode (s.stepBusy p) m with go := decide (m = 1) || (s.step p).go } := by
  have h4 : bit (m + 16) 4 = true := by unfold bit; simp; omega
  have h5 : bit (m + 16) 5 = false := by unfold bit; simp; omega
  rw [step_hnkCtrlWrite, show (m + 16) % 4 = m by omega]
  simp [h4, h5, withGo_withMode]

theorem step_write_clear (h : m < 4) :
    (s.hnkCtrlWrite p (m + 32)).step p = ((s.step p).withMode (s.stepBusy p) m).cleared := by
  have h4 : bit (m + 32) 4 = false := by unfold bit; simp; omega
  have h5 : bit (m + 32) 5 = true := by unfold bit; simp; omega
  rw [step_hnkCtrlWrite, show (m + 32) % 4 = m by omega]
  simp [h4, h5]

end

theorem stepBusy_iff {s : State} {p : Nat} : s.stepBusy p = true ↔ s.stepUnderWay p = true ∨ (s.step p).trigger = true := by
  rw [State.stepBusy, Bool.or_eq_true]

theorem withMode_eq (s : State) (p m : Nat) :
    (s.step p).withMode (s.stepBusy p) m =
      if s.stepUnderWay p = true ∨ (s.step p).trigger = true then { s.step p with modeNext := some m }
      else { s.step p with mode := m, modeNext := none } := by
  unfold StepRec.withMode
  by_cases c : s.stepBusy p = true
  · rw [if_pos c, if_pos (stepBusy_iff.1 c)]
  · rw [if_neg c, if_neg fun d => c (stepBusy_iff.2 d)]

theorem withMode_go_eq (s : State) (p m : Nat) (g : Bool) :
    { (s.step p).withMode (s.stepBusy p) m with go := g } =
      if s.stepUnderWay p = true ∨ (s.step p).trigger = true then { s.step p with modeNext := some m, go := g }
      else { s.step p with mode := m, modeNext := none, go := g } := by
  rw [withMode_eq]
  split <;> rfl

/-- A hank of a partition writes its partition's step record (R109). -/
theorem ctrlCommand_next {s u : State} {h : CmdHdr} {g : Fin 16} {f : State → Nat → Nat}
    (hr : s.writes h 0x0101 (Reg.hnkCtrl g.val) u) :
    s.regCommand h 0x0101 (Reg.hnkCtrl g.val) (fun s => match s.partOf g.val with
      | some p => ans stOk (s.hnkCtrlWrite p (f s p))
      | none => ans stOk s) =
    (match u.partOf g.val with
      | some p => u.hnkCtrlWrite p (f u p)
      | none => u).reply h.session h.seq stOk [] := by
  rw [writes_next hr]
  cases u.partOf g.val <;> rfl

/-- Settles O37: what HNK_CTRL makes of the step record of its partition, command by command. -/
theorem stepControlCommandsComplete : Obligations.StepControlCommandsComplete := by
  have others : ∀ (u : State) (p v q : Nat), q ≠ p → (u.hnkCtrlWrite p v).part q = u.part q := part_hnkCtrlWrite_other
  refine ⟨fun s u h g m p hr hp => ⟨u.hnkCtrlWrite p m.toNat, ?_, ?_, others u p _, hnkCtrlWrite_sameBut u p _⟩,
    fun s u h g p m hr hp hm h4 => ⟨⟨u.hnkCtrlWrite p (m + 16), ?_, ?_, others u p _, hnkCtrlWrite_sameBut u p _⟩,
      u.hnkCtrlWrite p (m + 32), ?_, ?_, ?_, ?_, ?_, others u p _, hnkCtrlWrite_sameBut u p _⟩,
    fun s u h g m hr hp => ⟨?_, ?_, ?_⟩, fun s u h part p mode go hr hp hlt => ⟨fun hl => ?_, fun hl =>
      ⟨u.hnkCtrlWrite p (mode.toNat + 16 * b2n go), ?_, ?_, others u p _, hnkCtrlWrite_sameBut u p _⟩⟩⟩
  · refine congrArg _ ((ctrlCommand_next (f := fun _ _ => m.toNat) hr).trans ?_)
    rw [hp]
  · rw [step_write_mode u p m.isLt, withMode_eq]
  · refine congrArg _ ((ctrlCommand_next (f := fun s p => s.modeOf p + 16) hr).trans ?_)
    rw [hp, hm]
    rfl
  · rw [step_write_go u p h4, withMode_go_eq]
  · refine congrArg _ ((ctrlCommand_next (f := fun s p => s.modeOf p + 32) hr).trans ?_)
    rw [hp, hm]
    rfl
  · rw [step_write_clear u p h4, (cleared_rest _).1, (withMode_rest _ _ _).2.2]
  · rw [step_write_clear u p h4, (cleared_rest _).2.1, (withMode_rest _ _ _).2.1]
  · rw [step_write_clear u p h4, (cleared_rest _).2.2.1, withMode_last]
  · rw [step_write_clear u p h4, (cleared_rest _).2.2.2, (withMode_rest _ _ _).1]
  · refine congrArg _ ((ctrlCommand_next (f := fun _ _ => m.toNat) hr).trans ?_)
    rw [hp]
  · refine congrArg _ ((ctrlCommand_next (f := fun s p => s.modeOf p + 16) hr).trans ?_)
    rw [hp]
  · refine congrArg _ ((ctrlCommand_next (f := fun s p => s.modeOf p + 32) hr).trans ?_)
    rw [hp]
  · have e : partFor h.session part = p := hp.symm
    show execStepRun h part mode go s = _
    rw [execStepRun, runs_next hr, e]
    dsimp only
    rw [if_neg (Nat.not_le.2 hlt), hl]
    rfl
  · have e : partFor h.session part = p := hp.symm
    have counter : ((u.hnkCtrlWrite p (mode.toNat + 16 * b2n go)).step p).counter = (u.step p).counter := by
      cases go
      · exact (congrArg StepRec.counter (step_write_mode u p mode.isLt)).trans (withMode_rest _ _ _).2.1
      · exact (congrArg StepRec.counter (step_write_go u p mode.isLt)).trans (withMode_rest _ _ _).2.1
    show execStepRun h part mode go s = _
    rw [execStepRun, runs_next hr, e]
    dsimp only
    rw [if_neg (Nat.not_le.2 hlt), hl, Bool.not_true, if_neg Bool.false_ne_true, counter]
  · cases go
    · refine (step_write_mode u p mode.isLt).trans ?_
      rw [Bool.false_and, Bool.false_or, ← withMode_go_eq, ← (withMode_rest (u.stepBusy p) mode.toNat (u.step p)).1]
    · refine (step_write_go u p mode.isLt).trans ?_
      rw [Bool.true_and, withMode_go_eq]

end Sys2Proof.Machine
end

section
/-! SUPPORT. One register word written, cleared or read (R10, R70, R422, R424), and the commit of a register group (R424, R425). -/

namespace Sys2Proof.Machine

/-! One word -/

theorem wordsFrom_one (a : Nat) : ∀ b ∈ wordsFrom a 1, b = a := fun b h => by simpa [wordsFrom, upTo] using h

/-- A write of one word is checked, reaches the word's domain, and writes it. -/
theorem writeCommand_one {u : State} {sid addr : Nat} (w k : Nat) (ha : u.access sid addr true = stOk) :
    u.writeCommand sid addr [w] k = ans ((u.reachReg addr).writeWord sid addr w k).1 ((u.reachReg addr).writeWord sid addr w k).2 := by
  rw [writeCommand_ok (v := u.reachReg addr) (by simp) (by simp) (fun b hb => by rwa [wordsFrom_one addr b hb]) rfl]
  show ans (firstFailure [((u.reachReg addr).writeWord sid addr w k).1]) _ = _
  have own (st : Nat) : firstFailure [st] = st := by
    by_cases e : st = stOk <;> simp [firstFailure, e]
  rw [own]
  rfl

theorem readCommand_one {u : State} {sid addr : Nat} (k : Nat) (ha : u.access sid addr false = stOk) :
    u.readCommand sid addr 1 k = (stOk, toLe 4 (((u.reachReg addr).accrue addr).readWord sid addr k).1,
      (((u.reachReg addr).accrue addr).readWord sid addr k).2) := by
  rw [readCommand_ok (by decide) (by decide) (fun b hb => by rwa [wordsFrom_one addr b hb]),
    readWords_wordsFrom (v := (u.reachReg addr).accrue addr) sid addr k 1 rfl]
  simp [upTo, State.afterReads]

section
variable {v : State} {sid addr m w k : Nat} {r : RegRow} {ix : List Nat} (hx : regAt addr = some (r, ix))
include hx

theorem writeWord_readOnly (hr : r.access = .ro ∨ r.access = .rc) : v.writeWord sid addr w k = (stOk, v) := by
  rcases hr with e | e <;> simp [State.writeWord, hx, e]

theorem writeWord_shadow (hr : r.access = .rw) (hg : (groupAt r ix).isSome = true) :
    v.writeWord sid addr w k =
      (stOk, v.modSession sid fun x => { x with shadow := mput x.shadow (homeAddr r ix addr) (w &&& writeMask r ix) }) := by
  simp [State.writeWord, hx, hr, hg]

theorem writeWord_alone (hr : r.access = .rw ∧ groupAt r ix = none ∨ r.access = .wo ∧ r.base ≠ 0x20000) :
    v.writeWord sid addr w k = v.writeSingle addr (w &&& writeMask r ix) r ix := by
  obtain ⟨e, g⟩ | ⟨e, g⟩ := hr <;> simp [State.writeWord, hx, e, g]

theorem writeWord_flags (hr : r.access = .w1c) (hb : r.base ≠ 0x110100) :
    v.writeWord sid addr w k = (stOk, v.clearFlags addr (w &&& writeMask r ix) (k &&& r.mask)) := by
  simp [State.writeWord, hx, hr, State.writeOnes, hb]

theorem readWord_counter (hr : r.access = .rc) (hf : v.frozen sid addr = none) :
    v.readWord sid addr k = (v.seenReg sid addr, v.setReg (homeAddr r ix addr) (min k 0xFFFFFFFF)) := by
  simp [State.readWord, hx, hr, hf, sat32]
end

/-- The registers whose write has a rule of its own. -/
def ruledBases : List Nat :=
  [0x28, 0x1010, 0x1018, 0x10208, 0x30004, 0x30100, 0x4000C, 0x40010, 0x40014, 0x50004, 0x70020, 0x8000C, 0x80010,
    0x80028, 0x90004, 0x120004, 0x9000C, 0x12000C, 0xA3004, 0x127004, 0xB1000, 0xB0020, 0xB103C, 0xC0020, 0xC103C,
    0xE001C, 0xE0004, 0xE0008, 0xE000C, 0xF0010, 0x110180, 0x111000, 0x1008000]

theorem writeSingle_plain {r : RegRow} (h : r.base ∉ ruledBases) (v : State) (addr m : Nat) (ix : List Nat) :
    v.writeSingle addr m r ix = (stOk, v.setReg (homeAddr r ix addr) m) := by
  unfold State.writeSingle
  dsimp only
  split
  case h_34 => rfl
  all_goals exact absurd (by simp only [*]; decide) h

/-- A written word has 32 bits, so the complement that clears flags is that of R10. -/
theorem clearFlags_eq (v : State) (a : Nat) (w : Word) (m c : Nat) :
    v.clearFlags a (w.toNat &&& m) c = v.setReg a ((v.reg a &&& (0xFFFFFFFF - (w.toNat &&& m))) ||| c) := by
  have hw : w.toNat &&& m < 2 ^ 32 := Nat.lt_of_le_of_lt Nat.and_le_left w.isLt
  have mask : (0xFFFFFFFF - (w.toNat &&& m)) &&& 0xFFFFFFFF = 0xFFFFFFFF - (w.toNat &&& m) := by
    rw [show (0xFFFFFFFF : Nat) = 2 ^ 32 - 1 from rfl, Nat.and_two_pow_sub_one_eq_mod]
    exact Nat.mod_eq_of_lt (by omega)
  rw [State.clearFlags, Nat.mod_eq_of_lt hw, mask]

/-- Settles O29, by the access of the register's row. -/
theorem oneWordWritesAndCounterReads : Obligations.OneWordWritesAndCounterReads := by
  refine ⟨?_, ?_, ?_⟩
  · intro s u v h addr m value r ix hr ha hx hv hm
    have key : exec (.registerWrite h addr value) s =
        .next ((v.writeWord h.session addr value.toNat 0).2.reply h.session h.seq (v.writeWord h.session addr value.toNat 0).1 []) := by
      rw [exec_writes s (.inr (.inl ⟨value, rfl, rfl, .inl rfl⟩)), runs_next hr, writeCommand_one _ _ ha, hv]
      rfl
    refine ⟨fun hro => ?_, fun hrw hg => ?_, fun alone plain => ?_⟩
    · rw [key, writeWord_readOnly hx hro]
    · rw [key, writeWord_shadow hx hrw hg, hm]
    · rw [key, writeWord_alone hx alone, writeSingle_plain plain, hm]
  · intro s u v h addr value events r ix hr ha hx hv hw hb
    rw [exec_writes s (.inr (.inr ⟨value, events, rfl, rfl, rfl⟩)), runs_next hr, writeCommand_one _ _ ha, ← hv,
      writeWord_flags hx hw hb, clearFlags_eq]
    rfl
  · intro s u v h addr events r ix hr ha hx hv hc hf
    rw [exec_reads s (.inr (.inl ⟨rfl, rfl⟩)), runs_next hr, readCommand_one _ ha, ← hv, readWord_counter hx hc hf]

/-! The commit of a group -/

/-- What the commit of a register group reads: the session's shadow where written, the value in force elsewhere. -/
def State.candidate (v : State) (x : Session) (kind inst a : Nat) : Nat :=
  (mget (mkeep x.shadow fun a _ => groupOf a == some (kind, inst)) a).getD (v.reg a)

/-- Whose commit of a register group is taken (R425). -/
def State.mayCommit (v : State) (sid kind inst : Nat) (g : Group) : Prop :=
  isCommander sid = true ∨
    g.part = true ∧ (kind = 1 ∧ inst ∈ (v.part (sid - 16)).hanks ∨ kind ≠ 1 ∧ inst = sid - 16)

section
variable {v w : State} {sid value : Nat} {x : Session} {g : Group}

theorem commit_nowhere (hg : groupTable.find? (fun g => g.kind == value % 256 && decide (value / 256 % 256 < g.count)) = none) :
    v.commit sid value = (stMalformed, v.commitEnds sid (value % 256) (value / 256 % 256) stMalformed false) := by
  unfold State.commit
  dsimp only
  rw [hg]

theorem commit_owned (hx : v.session sid = some x)
    (hg : groupTable.find? (fun g => g.kind == value % 256 && decide (value / 256 % 256 < g.count)) = some g)
    (own : v.mayCommit sid (value % 256) (value / 256 % 256) g) :
    v.commit sid value =
      if v.groupOk (value % 256) (value / 256 % 256) (v.candidate x (value % 256) (value / 256 % 256)) then
        (stOk, ((foldS (fun s (e : Nat × Nat) => s.setReg e.1 e.2) v
          (mkeep x.shadow fun a _ => groupOf a == some (value % 256, value / 256 % 256))).installed (value % 256) (value / 256 % 256)
            (v.candidate x (value % 256) (value / 256 % 256))).commitEnds sid (value % 256) (value / 256 % 256) stOk true)
      else (stSpliceConflict, v.commitEnds sid (value % 256) (value / 256 % 256) stSpliceConflict true) := by
  have taken : (isCommander sid || (g.part &&
      (if value % 256 = 1 then (v.part (sidPart sid)).hanks.contains (value / 256 % 256)
        else value / 256 % 256 == sidPart sid))) = true := by
    rcases own with c | ⟨p, ⟨k, m⟩ | ⟨k, m⟩⟩ <;> simp [*, sidPart]
  unfold State.commit
  dsimp only
  rw [hg]
  dsimp only
  rw [taken, hx]
  simp only [Bool.not_true, Bool.false_eq_true, if_false]
  show (if (!v.groupOk _ _ (v.candidate x _ _)) = true then _ else _) = _
  cases v.groupOk (value % 256) (value / 256 % 256) (v.candidate x (value % 256) (value / 256 % 256)) <;> rfl
end

theorem writeWord_commit (v : State) (sid w k : Nat) : v.writeWord sid Reg.splCommit w k = v.commit sid w := by
  have row : (regAt Reg.splCommit).map (fun e => (e.1.access, e.1.base)) = some (.wo, 0x20000) := by decide
  obtain ⟨⟨r, ix⟩, hx, e⟩ := Option.map_eq_some_iff.1 row
  obtain ⟨ha, hb⟩ := Prod.ext_iff.1 e
  simp only at ha hb
  simp [State.writeWord, hx, ha, hb]

/-- Settles O31, by the group that KIND and INSTANCE name and its rule. -/
theorem commitsInstallOrDiscard : Obligations.CommitsInstallOrDiscard := by
  intro s u v w h value kind inst x c hr ha hv hx hk hi hc
  have key : exec (.splCommit h value) s =
      .next ((v.commit h.session value.toNat).2.reply h.session h.seq (v.commit h.session value.toNat).1 []) := by
    rw [exec_writes s (.inr (.inl ⟨value, rfl, rfl, .inr (.inr ⟨rfl, rfl⟩)⟩)), runs_next hr, writeCommand_one _ _ ha, hv,
      writeWord_commit]
    rfl
  obtain rfl : c = v.candidate x kind inst := hc
  subst hk hi
  refine ⟨fun g hg own => ⟨fun ok hw => ?_, fun bad => ?_⟩, fun none => ?_⟩
  · rw [key, commit_owned hx hg own, if_pos ok, hw]
    rfl
  · rw [key, commit_owned hx hg own, if_neg (by rw [bad]; decide)]
    rfl
  · rw [key, commit_nowhere none]
    rfl

end Sys2Proof.Machine
end

section
/-! SUPPORT. Partition memory through Hawser (R148, R149, R157, R160, R423). -/

namespace Sys2Proof.Machine

/-! Bytes stored one by one at places that need not differ -/

/-- One byte stored at the place that a numbered byte has, if any. -/
def putAt (place : Nat → Option Nat) (m : List Host.Cell) (e : Nat × Byte) : List Host.Cell :=
  match place e.1 with
  | some a => bput m a e.2
  | none => m

section
variable {place : Nat → Option Nat} {a : Nat}

theorem bget_putAt_other {e : Nat × Byte} (m : List Host.Cell) (h : place e.1 ≠ some a) : bget (putAt place m e) a = bget m a := by
  unfold putAt
  split
  · rename_i b hb
    exact bget_bput_other _ _ _ _ fun e => h (hb.trans (congrArg some e.symm))
  · rfl

theorem bget_foldPut_other (l : List (Nat × Byte)) (m : List Host.Cell) (h : ∀ e ∈ l, place e.1 ≠ some a) :
    bget (foldS (putAt place) m l) a = bget m a := by
  induction l generalizing m with
  | nil => rfl
  | cons e r ih =>
    exact (ih _ fun e he => h e (List.mem_cons_of_mem _ he)).trans (bget_putAt_other m (h e List.mem_cons_self))

theorem bget_foldPut_last (l r : List (Nat × Byte)) {e : Nat × Byte} (m : List Host.Cell) (he : place e.1 = some a)
    (h : ∀ e ∈ r, place e.1 ≠ some a) : bget (foldS (putAt place) m (l ++ e :: r)) a = e.2 := by
  induction l generalizing m with
  | nil =>
    refine (bget_foldPut_other r _ h).trans ?_
    rw [putAt, he]
    exact bget_bput_self _ _ _
  | cons d l ih => exact ih _
end

theorem mem_numbered {bs : List Byte} {e : Nat × Byte} (h : e ∈ (upTo bs.length).zip bs) : e.1 < bs.length :=
  mem_upTo.1 (List.of_mem_zip h).1

theorem numbered_split {bs : List Byte} {i : Nat} (h : i < bs.length) :
    ∃ l r, (upTo bs.length).zip bs = l ++ (i, bs[i]) :: r ∧ ∀ e ∈ r, i < e.1 ∧ e.1 < bs.length := by
  have hl : i < ((upTo bs.length).zip bs).length := by simpa [upTo] using h
  refine ⟨_, _, (by rw [← List.take_append_drop i ((upTo bs.length).zip bs), List.drop_eq_getElem_cons hl]; simp [upTo]; rfl),
    fun e he => ?_⟩
  obtain ⟨j, hj, rfl⟩ := List.mem_drop_iff_getElem.1 he
  simp only [List.length_zip, List.length_range, Nat.min_self] at hj
  simp
  omega

/-! The places of a PMA range -/

/-- The byte that the i-th address of a range has, before the check for whipped granules. -/
def State.cellOf (s : State) (p u x i : Nat) : Option Nat :=
  ((s.granules p u)[(x + i) / granule]?).map fun k => unitBase u + k * granule + (x + i) % granule

theorem pokeP_mem {s : State} {p a u x : Nat} (h : unitOf a = some (u, x)) (bs : List Byte) :
    (s.pokeP p a bs).mem = foldS (putAt (s.cellOf p u x)) s.mem ((upTo bs.length).zip bs) := by
  unfold State.pokeP
  rw [h]
  dsimp only
  congr 1
  funext m e
  unfold putAt State.cellOf
  cases (s.granules p u)[(x + e.1) / granule]? <;> rfl

theorem peekP_cells {s : State} {p a u x : Nat} (h : unitOf a = some (u, x)) (n : Nat) :
    s.peekP p a n = (upTo n).map fun i => ((s.cellOf p u x i).map (bget s.mem)).getD 0 := by
  unfold State.peekP
  rw [h]
  refine List.map_congr_left fun i _ => ?_
  unfold State.cellOf
  dsimp only
  cases (s.granules p u)[(x + i) / granule]? <;> rfl

/-- A range no longer than a granule lies in those of its first and last address, so its places are the valid addresses. -/
theorem cellOf_eq_mpaOf {s : State} {p a n u x i : Nat} (ok : s.pmaOk p a n = true) (hn : n ≤ granule)
    (h : unitOf a = some (u, x)) (hi : i < n) : s.cellOf p u x i = s.mpaOf p (a + i) := by
  obtain ⟨hx, hu⟩ := unitOf_div h
  unfold State.pmaOk at ok
  have hn0 : (n == 0) = false := by simp only [beq_eq_false_iff_ne]; omega
  rw [hn0, Bool.false_or] at ok
  simp only [Bool.and_eq_true, beq_iff_eq] at ok
  obtain ⟨⟨o1, o2⟩, o3⟩ := ok
  have whole : ∀ j, j < n → (s.mpaOf p (a + j)).isSome = true → ∃ k, (s.granules p u)[(x + j) / granule]? = some k ∧
      bit (s.ownByte u k) 5 = false := by
    intro j hj hs
    unfold State.mpaOf at hs
    rw [hu (a + j) (by omega), show (a + j) % 2 ^ 36 = x + j by omega] at hs
    dsimp only at hs
    split at hs
    · exact nomatch hs
    · rename_i k hk
      split at hs
      · exact nomatch hs
      · rename_i free
        exact ⟨k, hk, by simpa using free⟩
  obtain ⟨k, hk, free⟩ : ∃ k, (s.granules p u)[(x + i) / granule]? = some k ∧ bit (s.ownByte u k) 5 = false := by
    have near : (x + i) / granule = x / granule ∨ (x + i) / granule = (x + (n - 1)) / granule := by
      unfold granule at *
      omega
    rcases near with e | e
    · rw [e]; exact whole 0 (by omega) o1
    · rw [e]; exact whole (n - 1) (by omega) (by rwa [show a + (n - 1) = a + n - 1 by omega])
  unfold State.mpaOf State.cellOf
  rw [hu (a + i) (by omega), show (a + i) % 2 ^ 36 = x + i by omega]
  dsimp only
  rw [hk, Option.map_some]
  dsimp only
  rw [if_neg (by rw [free]; decide)]

/-! What reading lines may change -/

/-- What the check of lines of partition memory may change. -/
def checkFields : List Field := [.mem, .units, .ctls, .errLogs, .errDropped, .regs, .sessions, .parts, .checks, .sent, .ecron]

theorem checkLines_sameBut (s : State) (l : List Nat) (errs : List (Nat × ReadErr)) :
    SameBut checkFields s (s.checkLines l errs).2 :=
  sameBut_of_keeps (kc := true) (kn := true) (checkLines_keeps keeps_refl (within_own (by decide)))

theorem readLines_sameBut (s : State) (l : List Nat) (errs : List (Nat × ReadErr)) :
    SameBut checkFields s (s.readLines l errs).2 :=
  sameBut_of_keeps (kc := true) (kn := true) (readLines_keeps keeps_refl (within_own (by decide)))

theorem storedAll_sameBut (l : List Nat) (s : State) : SameBut lineFields s (foldS (fun s l => s.storedLines l 64) s l) := by
  induction l generalizing s with
  | nil => exact sameBut_refl _ s
  | cons y r ih =>
    refine sameBut_trans ?_ (ih _)
    exact sameBut_of_keeps (kc := true) (kn := true) (storedLines_keeps keeps_refl (within_own (by decide)))

theorem pokeP_sameBut (s : State) (p a : Nat) (bs : List Byte) : SameBut [.mem] s (s.pokeP p a bs) :=
  sameBut_of_keeps (kc := true) (kn := true) (pokeP_keeps keeps_refl (within_own (by decide)))

theorem sameBut_mono {l k : List Field} {s t : State} (h : SameBut l s t) (sub : ∀ f ∈ l, f ∈ k) : SameBut k s t :=
  ⟨h.1, fun f hf => h.2 f fun g => hf (sub f g)⟩

/-! Reads and writes of the memory of a partition -/

section
variable {u x y : State} {p a un off : Nat} (hu : unitOf a = some (un, off)) (hx : x = u.reach (unitDom un) 0xC1)
include hu hx

theorem reachUnit_hub : u.reachUnit none a = x := by
  rw [State.reachUnit, hu, hx]
  rfl

omit hu in
theorem mpaOf_reached (q b : Nat) : u.mpaOf q b = x.mpaOf q b := by
  subst hx
  exact mpaOf_owners (reach_same u _ _ (f := .owners) (by decide)).symm q b

theorem storeP_checked {data : List Byte} (h0 : data.length ≠ 0) (ok : u.pmaOk p a data.length = true)
    (hc : x.checkLines ((partLines a data.length).filterMap fun a => x.mpaOf p a) [] = (stOk, y)) :
    u.storeP none p a data [] =
      (stOk, (foldS (fun s l => s.storedLines l 64) y (y.linesOf p a data.length)).pokeP p a data) := by
  unfold State.storeP
  dsimp only
  rw [if_neg h0, if_neg (by rw [ok]; decide), reachUnit_hub hu hx, funext (mpaOf_reached hx p), hc, if_neg (fun ne => ne rfl)]

theorem fetchP_read {n : Nat} (h0 : n ≠ 0) (ok : u.pmaOk p a n = true) :
    u.fetchP none p a n [] =
      if (x.readLines (x.linesOf p a n) []).1 = stOk
      then (stOk, (x.readLines (x.linesOf p a n) []).2.peekP p a n, (x.readLines (x.linesOf p a n) []).2)
      else ((x.readLines (x.linesOf p a n) []).1, [], (x.readLines (x.linesOf p a n) []).2) := by
  have lines : u.linesOf p a n = x.linesOf p a n := by
    unfold State.linesOf
    rw [funext (mpaOf_reached hx p)]
  unfold State.fetchP
  dsimp only
  rw [if_neg h0, if_neg (by rw [ok]; decide), reachUnit_hub hu hx, lines]
end

theorem pmaOk_owners {s t : State} (h : s.owners = t.owners) (p a n : Nat) : s.pmaOk p a n = t.pmaOk p a n := by
  unfold State.pmaOk
  rw [mpaOf_owners h, mpaOf_owners h]

theorem storeP_refused {s : State} {p a : Nat} {data : List Byte} (h0 : data.length ≠ 0) (bad : s.pmaOk p a data.length = false) :
    s.storeP none p a data [] = (stAddrInvalid, s) := by
  unfold State.storeP
  dsimp only
  rw [if_neg h0, if_pos (by rw [bad]; rfl)]

theorem fetchP_refused {s : State} {p a n : Nat} (h0 : n ≠ 0) (bad : s.pmaOk p a n = false) :
    s.fetchP none p a n [] = (stAddrInvalid, [], s) := by
  unfold State.fetchP
  rw [if_neg h0, if_pos (by rw [bad]; rfl)]

/-- After the bytes of a range are stored, a byte holds the last one that names it, and any other what it held. -/
theorem pokeP_bytes {s : State} {p a u x : Nat} {bs : List Byte} (hu : unitOf a = some (u, x)) (ok : s.pmaOk p a bs.length = true)
    (hn : bs.length ≤ granule) :
    (∀ i m, ∀ hi : i < bs.length, s.mpaOf p (a + i) = some m →
      (∀ j, i < j → j < bs.length → s.mpaOf p (a + j) ≠ some m) → bget (s.pokeP p a bs).mem m = bs[i]) ∧
    ∀ m, (∀ i < bs.length, s.mpaOf p (a + i) ≠ some m) → bget (s.pokeP p a bs).mem m = bget s.mem m := by
  rw [pokeP_mem hu]
  refine ⟨fun i m hi at_ last => ?_, fun m off => ?_⟩
  · obtain ⟨l, r, e, later⟩ := numbered_split hi
    rw [e]
    refine bget_foldPut_last l r _ (by rw [cellOf_eq_mpaOf ok hn hu hi, at_]) fun e he => ?_
    obtain ⟨h1, h2⟩ := later e he
    rw [cellOf_eq_mpaOf ok hn hu h2]
    exact last _ h1 h2
  · refine bget_foldPut_other _ _ fun e he => ?_
    rw [cellOf_eq_mpaOf ok hn hu (mem_numbered he)]
    exact off _ (mem_numbered he)

theorem peekP_bytes {s : State} {p a u x n : Nat} (hu : unitOf a = some (u, x)) (ok : s.pmaOk p a n = true) (hn : n ≤ granule) :
    (s.peekP p a n).length = n ∧ ∀ i, ∀ hi : i < (s.peekP p a n).length, ∀ m, s.mpaOf p (a + i) = some m →
      (s.peekP p a n)[i] = bget s.mem m := by
  rw [peekP_cells hu]
  refine ⟨by simp [upTo], fun i hi m at_ => ?_⟩
  have lt : i < n := by simpa [upTo] using hi
  simp [upTo, cellOf_eq_mpaOf ok hn hu lt, at_]

/-- Settles O32: past the check of the lines, the bytes of the range are stored or read one by one. -/
theorem memoryReadsBackWhatWasWritten : Obligations.MemoryReadsBackWhatWasWritten := by
  refine ⟨?_, ?_⟩
  · intro s u x y h pma part p un off last data partial_ hr hp hp16 h1 h2 hl
    have key : exec (.memWrite h pma data part) s =
        .next ((u.storeP none p pma data []).2.reply h.session h.seq (u.storeP none p pma data []).1 []) := by
      have form : (data.isEmpty || decide (1424 < data.length) || decide (16 ≤ p)) = false := by
        cases data with
        | nil => exact absurd h1 (by decide)
        | cons b r => simp only [Bool.or_eq_false_iff, decide_eq_false_iff_not]; exact ⟨⟨rfl, by omega⟩, by omega⟩
      obtain rfl : p = partFor h.session part := hp
      show execMemWrite h pma data part s = _
      rw [execMemWrite, runs_next hr]
      dsimp only
      rw [form]
      rfl
    refine ⟨fun bad => ?_, fun ok hu hx hpart hc => ?_, fun good => ?_⟩
    · rw [key, storeP_refused (by omega) bad]
    · have parts : partial_ = partLines pma data.length := by
        rw [hpart, hl]
        unfold partLines alignDown
        simp
      have hc' := parts ▸ hc
      have toY := checkLines_sameBut x (partial_.filterMap fun a => x.mpaOf p a) []
      rw [hc] at toY
      have toZ := storedAll_sameBut (y.linesOf p pma data.length) y
      rw [key, storeP_checked hu hx (by omega) ok hc']
      generalize foldS (fun s l => s.storedLines l 64) y (y.linesOf p pma data.length) = z at toZ ⊢
      have owned : z.owners = x.owners := (toZ.2 .owners (by decide)).trans (toY.2 .owners (by decide))
      have same (b : Nat) : x.mpaOf p b = z.mpaOf p b := mpaOf_owners owned.symm p b
      have okz : z.pmaOk p pma data.length = true := by
        rw [pmaOk_owners owned, hx, pmaOk_owners (reach_same u _ _ (f := .owners) (by decide)), ok]
      obtain ⟨stored, others⟩ := pokeP_bytes hu okz (Nat.le_trans h2 (by decide))
      refine ⟨_, rfl, ?_, ?_, ?_⟩
      · simpa only [same] using stored
      · intro m off
        rw [others m (by simpa only [same] using off), toZ.2 .mem (by decide)]
      · exact sameBut_trans toY (sameBut_trans (sameBut_mono toZ (by decide)) (sameBut_mono (pokeP_sameBut _ _ _ _) (by decide)))
    · obtain ⟨v, e, _, m⟩ := checkLines_good _ good
      exact ⟨v, e, m .mem (by decide)⟩
  · intro s u x y h pma part p un off n st hr hp hp16 h1 h2
    have key : exec (.memRead h pma n part) s = .next ((u.fetchP none p pma n []).2.2.reply h.session h.seq
        (u.fetchP none p pma n []).1 (u.fetchP none p pma n []).2.1) := by
      obtain rfl : p = partFor h.session part := hp
      show execMemRead h pma n part s = _
      rw [execMemRead, runs_next hr]
      dsimp only
      rw [if_neg (by omega)]
    refine ⟨fun bad => ?_, fun ok hu hx hrd => ⟨fun ne => ?_, fun eq => ?_⟩, fun good => ?_⟩
    · rw [key, fetchP_refused (by omega) bad]
    · rw [key, fetchP_read hu hx (by omega) ok, hrd, if_neg ne]
    · have toY := readLines_sameBut x (x.linesOf p pma n) []
      rw [hrd] at toY
      have owned : y.owners = x.owners := toY.2 .owners (by decide)
      have same (b : Nat) : x.mpaOf p b = y.mpaOf p b := mpaOf_owners owned.symm p b
      have oky : y.pmaOk p pma n = true := by
        rw [pmaOk_owners owned, hx, pmaOk_owners (reach_same u _ _ (f := .owners) (by decide)), ok]
      obtain ⟨len, bytes⟩ := peekP_bytes hu oky (Nat.le_trans h2 (by decide))
      refine ⟨y.peekP p pma n, len, ?_, ?_⟩
      · rw [key, fetchP_read hu hx (by omega) ok, hrd, if_pos eq]
      · simpa only [same] using bytes
    · obtain ⟨v, e, _, m⟩ := readLines_good _ good
      exact ⟨v, e, m .mem (by decide)⟩

end Sys2Proof.Machine
end

section
/-! SUPPORT. Partitions and sessions: creation and end (R426, R427, R473 to R475, R490, R491), and the opening and closing of
sessions (R479 to R482). -/

namespace Sys2Proof.Machine

theorem foldS_sameBut {α : Type} {k : List Field} {f : State → α → State} (hf : ∀ s a, SameBut k s (f s a)) (l : List α) (s : State) :
    SameBut k s (foldS f s l) :=
  foldS_inv (P := SameBut k s) (fun _ a h => sameBut_trans h (hf _ a)) (sameBut_refl k s)

/-! Creation -/

/-- The granules that an accepted creation takes. -/
def State.takeGranules (s : State) (c : Create) : State :=
  foldS (fun s u => foldS (fun s k => s.setOwn u k (c.part + 32)) s ((s.freeGranules u).take (c.granules.getD u 0))) s (upTo 20)

/-- The record of a partition being created. -/
def State.newPart (s : State) (g : Nat) (h : CmdHdr) (c : Create) (r : Runs) : Part :=
  { Part.empty with
    state := .creating, hanks := c.hanks, gen := g, tenant := c.tenant, seqBase := r.seqs, seqSize := c.seqs,
    handles := c.handles, pgHbm := 4096 * c.kvHbm, pgCt := 4096 * c.kvCt, pageBase := r.pages, pageBaseCt := r.ctPages,
    chainBase := r.chains, chainSize := c.chains, saveArea := unitBase (c.firstStack.getD 0), cmdSeq := h.seq,
    cmdSession := h.session, firstRecord := s.checks.next }

/-- The generation, the slot key and the free lists of a partition being created. -/
def State.newLists (s : State) (g : Nat) (c : Create) (r : Runs) : State :=
  { s with
    security := { s.security with gen := g, slots := (s.security.slots.filter fun k => k != c.part) ++ [c.part] }
    kv := { s.kv with
      lists := mput (mput s.kv.lists (2 * c.part) ⟨[], r.pages, r.pages + 4096 * c.kvHbm⟩) (2 * c.part + 1)
        ⟨[], r.ctPages, r.ctPages + 4096 * c.kvCt⟩ } }

/-- The bight region of a partition on a die, in its register and in force. -/
def State.newRegion (p : Nat) (r : Runs) (s : State) (d : Nat) : State :=
  let v := ((r.bight.find? fun b => b.1 == d).map fun b => b.2.1 + 65536 * b.2.2).getD 0
  let s := s.setReg (Reg.kvpPartBightRegion d p) v
  { s with kv := { s.kv with regionForce := nput s.kv.regionForce (16 * d + p) v } }

/-- What acceptance assigns, before the granules' domains are reached and the slot tables shared out anew (R475). -/
def State.assigned (s : State) (h : CmdHdr) (c : Create) (r : Runs) : State :=
  foldS (State.newRegion c.part r)
    (((s.takeGranules c).setPart c.part ((s.takeGranules c).newPart (s.security.gen + 1) h c r)).newLists (s.security.gen + 1) c r) (upTo 4)

theorem takeGranules_sameBut (s : State) (c : Create) : SameBut [.owners] s (s.takeGranules c) :=
  foldS_sameBut (fun s u => foldS_sameBut (fun s k => sameBut_of_keeps (kc := true) (kn := true)
    (setOwn_keeps keeps_refl (within_own (by decide)))) _ s) _ s

theorem newRegion_sameBut (p : Nat) (r : Runs) (s : State) (d : Nat) : SameBut [.regs, .kv] s (s.newRegion p r d) :=
  ⟨rfl, fun f hf => by cases f <;> first | rfl | exact absurd (by decide) hf⟩

theorem newRegions_sameBut (p : Nat) (r : Runs) (l : List Nat) (s : State) :
    SameBut [.regs, .kv] s (foldS (State.newRegion p r) s l) :=
  foldS_sameBut (newRegion_sameBut p r) l s

theorem acceptCreate_eq (s : State) (h : CmdHdr) (c : Create) (r : Runs) :
    s.acceptCreate h c r = ((s.assigned h c r).wakeMemory c.part).shareTables := by
  unfold State.acceptCreate State.assigned State.takeGranules State.newPart State.newLists
  rfl

theorem foldS_fixed {α σ : Type} {f : σ → α → σ} {s : σ} (l : List α) (h : ∀ a ∈ l, f s a = s) : foldS f s l = s := by
  induction l with
  | nil => rfl
  | cons a r ih =>
    show foldS f (f s a) r = s
    rw [h a List.mem_cons_self]
    exact ih fun b hb => h b (List.mem_cons_of_mem _ hb)

theorem unitDom_lt {u : Nat} (h : u < 20) : unitDom u < 64 := by
  unfold unitDom
  split <;> omega

theorem wakeMemory_awake {s : State} (h : s.awake) (p : Nat) : s.wakeMemory p = s :=
  foldS_fixed _ fun u hu => by
    split
    · rfl
    · exact reach_awake h (unitDom_lt (mem_upTo.1 hu)) _

@[simp] theorem part_setPart_self (s : State) (p : Nat) (x : Part) : (s.setPart p x).part p = x := mgetD_mput_self _ _ _ _

theorem part_setPart_other (s : State) (p q : Nat) (x : Part) (h : q ≠ p) : (s.setPart p x).part q = s.part q :=
  mgetD_mput_other _ _ _ _ _ h

theorem part_of_parts {s t : State} (h : t.parts = s.parts) (q : Nat) : t.part q = s.part q := by
  unfold State.part
  rw [h]

theorem awake_of_power {s t : State} (h : t.power = s.power) (a : s.awake) : t.awake := by
  unfold State.awake State.dom at *
  rw [h]
  exact a

section
variable (s : State) (h : CmdHdr) (c : Create) (r : Runs)

theorem assigned_parts :
    (s.assigned h c r).parts =
      ((s.takeGranules c).setPart c.part ((s.takeGranules c).newPart (s.security.gen + 1) h c r)).parts :=
  (newRegions_sameBut c.part r (upTo 4) _).2 .parts (by decide)

theorem assigned_part_self : (s.assigned h c r).part c.part = s.newPart (s.security.gen + 1) h c r := by
  rw [part_of_parts (assigned_parts s h c r), part_setPart_self, State.newPart, State.newPart,
    (takeGranules_sameBut s c).2 .checks (by decide)]

theorem assigned_part_other (q : Nat) (ne : q ≠ c.part) : (s.assigned h c r).part q = s.part q := by
  rw [part_of_parts (assigned_parts s h c r), part_setPart_other _ _ _ _ ne]
  exact part_of_parts ((takeGranules_sameBut s c).2 .parts (by decide)) q

theorem newLists_gen (g : Nat) : (s.newLists g c r).security.gen = g := rfl

theorem recorded_sameBut (x : Part) (g : Nat) : SameBut [.parts, .kv, .security] s ((s.setPart c.part x).newLists g c r) :=
  ⟨rfl, fun f hf => by cases f <;> first | rfl | exact absurd (by decide) hf⟩

theorem assigned_gen : (s.assigned h c r).security.gen = s.security.gen + 1 := by
  rw [State.assigned, (newRegions_sameBut c.part r (upTo 4) _).2 .security (by decide), newLists_gen]

theorem assigned_sameBut : SameBut [.regs, .owners, .parts, .kv, .security] s (s.assigned h c r) := by
  exact sameBut_trans (sameBut_mono (takeGranules_sameBut s c) (by decide))
    (sameBut_trans (sameBut_mono (recorded_sameBut _ c r _ _) (by decide))
      (sameBut_mono (newRegions_sameBut c.part r (upTo 4) _) (by decide)))
end

/-! A created partition becomes ACTIVE -/

theorem bget_eraseAll (l : List (Nat × Nat)) (f : State → Nat × Nat → State)
    (hf : ∀ s e, (f s e).mem = eraseRange s.mem (unitBase e.1 + e.2 * granule) granule) (s : State) (a : Nat) :
    ((∃ e ∈ l, unitBase e.1 + e.2 * granule ≤ a ∧ a < unitBase e.1 + e.2 * granule + granule) → bget (foldS f s l).mem a = 0) ∧
    ((¬ ∃ e ∈ l, unitBase e.1 + e.2 * granule ≤ a ∧ a < unitBase e.1 + e.2 * granule + granule) →
      bget (foldS f s l).mem a = bget s.mem a) := by
  induction l generalizing s with
  | nil => exact ⟨fun ⟨_, h, _⟩ => (nomatch h), fun _ => rfl⟩
  | cons e l ih =>
    obtain ⟨gone, kept⟩ := ih (f s e)
    have one := bget_eraseRange s.mem (unitBase e.1 + e.2 * granule) granule a
    rw [← hf] at one
    by_cases later : ∃ e ∈ l, unitBase e.1 + e.2 * granule ≤ a ∧ a < unitBase e.1 + e.2 * granule + granule
    · obtain ⟨d, hd, rest⟩ := later
      exact ⟨fun _ => gone ⟨d, hd, rest⟩, fun no => absurd ⟨d, List.mem_cons_of_mem _ hd, rest⟩ no⟩
    · refine ⟨fun ⟨d, hd, rest⟩ => (kept later).trans ?_, fun no => (kept later).trans ?_⟩
      · obtain rfl | hd := List.mem_cons.1 hd
        · rw [one, if_pos rest]
        · exact absurd ⟨d, hd, rest⟩ later
      · rw [one, if_neg fun here => no ⟨e, List.mem_cons_self, here⟩]

theorem bget_overwrite (s : State) (p a : Nat) :
    ((∃ e ∈ s.allGranules p, unitBase e.1 + e.2 * granule ≤ a ∧ a < unitBase e.1 + e.2 * granule + granule) →
      bget (s.overwrite p).mem a = 0) ∧
    ((¬ ∃ e ∈ s.allGranules p, unitBase e.1 + e.2 * granule ≤ a ∧ a < unitBase e.1 + e.2 * granule + granule) →
      bget (s.overwrite p).mem a = bget s.mem a) :=
  bget_eraseAll _ _ (fun _ _ => rfl) s a

theorem overwrite_sameBut (s : State) (p : Nat) : SameBut [.mem, .units] s (s.overwrite p) :=
  sameBut_of_keeps (kc := true) (kn := true) (overwrite_keeps keeps_refl (within_own (by decide)))

theorem clearPartRegs_sameBut (s : State) (p : Nat) : SameBut [.regs, .serve, .snaps] s (s.clearPartRegs p) :=
  sameBut_of_keeps (kc := true) (kn := true) (clearPartRegs_keeps keeps_refl (within_own (by decide)))

/-- The granules and registers of a partition, zero and no longer being whipped. -/
def State.cleaned (s : State) (p : Nat) : State :=
  let s := (s.overwrite p).clearPartRegs p
  { s with owners := s.owners.map fun (e : Nat × Nat) => if e.2 % 32 == p then (e.1, p) else e }

/-- A partition made ACTIVE, its event and the reply of its creation. -/
def State.madeActive (s : State) (p : Nat) : State :=
  (((s.cleaned p).modPart p fun y => { y with state := .active }).partStateEvent p).commandDone
    (s.part p).cmdSession (s.part p).cmdSeq stOk [(s.part p).gen]

theorem cleaned_sameBut (s : State) (p : Nat) : SameBut [.mem, .units, .regs, .serve, .snaps, .owners] s (s.cleaned p) :=
  sameBut_trans (sameBut_mono (overwrite_sameBut s p) (by decide))
    (sameBut_trans (sameBut_mono (clearPartRegs_sameBut _ p) (by decide))
      ⟨rfl, fun f hf => by cases f <;> first | rfl | exact absurd (by decide) hf⟩)

theorem events_sameBut (s : State) (p sid seq : Nat) (ws : List Nat) :
    SameBut eventFields s ((s.partStateEvent p).commandDone sid seq stOk ws) :=
  sameBut_of_keeps (kc := true) (kn := true)
    (commandDone_keeps (partStateEvent_keeps keeps_refl (within_own (by decide))) (within_own (by decide)))

theorem madeActive_mem (s : State) (p : Nat) : (s.madeActive p).mem = (s.overwrite p).mem := by
  rw [State.madeActive, (events_sameBut _ p _ _ _).2 .mem (by decide)]
  exact (clearPartRegs_sameBut (s.overwrite p) p).2 .mem (by decide)

theorem madeActive_part (s : State) (p : Nat) : (s.madeActive p).part p = { s.part p with state := .active } := by
  rw [State.madeActive, part_of_parts ((events_sameBut _ p _ _ _).2 .parts (by decide)), modPart_part_self,
    part_of_parts ((cleaned_sameBut s p).2 .parts (by decide))]

theorem madeActive_sameBut (s : State) (p : Nat) :
    SameBut [.regs, .mem, .owners, .parts, .units, .serve, .sessions, .snaps, .sent] s (s.madeActive p) :=
  sameBut_trans (sameBut_mono (cleaned_sameBut s p) (by decide))
    (sameBut_trans (sameBut_mono (modPart_sameBut _ p _) (by decide)) (sameBut_mono (events_sameBut _ p _ _ _) (by decide)))

theorem partActive_next {s u : State} {p : Fin 16} {t : Nat} (hu : u = s.tick t) :
    exec (.partActive p t) s = .next (if (u.part p.val).state != .creating then u
      else if (u.part p.val).destroyCmds.isEmpty then u.madeActive p.val else (u.madeActive p.val).beginDestroy p.val) := by
  subst hu
  rfl

/-- Settles O33, by the order of the refusals of PART_CREATE, and by the state of the partition of PART_ACTIVE. -/
theorem partitionCreation : Obligations.PartitionCreation := by
  refine ⟨?_, ?_⟩
  · intro s u h params c hr hc
    have key : exec (.partCreate h params) s = execPartCreate h params s := rfl
    rw [key, execPartCreate, runs_next hr, ← hc]
    dsimp only
    have known : u.exists_ c.part = true ↔ (u.part c.part).state ≠ .none := by simp [State.exists_]
    refine ⟨fun refused => ?_, fun closed free => ?_⟩
    · by_cases o : u.security.debugOpen = true
      · rw [if_pos o]
        rfl
      · rw [if_neg o, if_pos ((refused.resolve_left o).imp_right known.2)]
        rfl
    · rw [if_neg (by rw [closed]; decide), if_neg fun ⟨lt, ne⟩ => free.elim (Nat.not_le.2 lt) (known.1 ne)]
      refine ⟨fun bad => ?_, fun good full => ?_, fun r good room runs => ?_⟩
      · rw [if_pos bad]
        rfl
      · rw [if_neg (by rw [good]; decide), if_pos full]
        rfl
      · rw [if_neg (by rw [good]; decide), if_neg (by rw [room]; decide), runs]
        dsimp only
        rw [acceptCreate_eq]
        refine ⟨u.assigned h c r, _, rfl, assigned_gen u h c r, assigned_part_self u h c r, assigned_part_other u h c r,
          assigned_sameBut u h c r, rfl, fun on => ?_⟩
        rw [wakeMemory_awake (awake_of_power ((assigned_sameBut u h c r).2 .power (by decide)) on)]
        rfl
  · intro s u p t hu
    rw [partActive_next hu]
    refine ⟨fun other => ?_, fun new => ?_⟩
    · rw [if_pos (by simpa using other)]
    · refine ⟨u.madeActive p.val, ?_, madeActive_part u p.val, fun a => ?_, madeActive_sameBut u p.val⟩
      · rw [if_neg (by simp [new])]
        simp only [List.isEmpty_iff]
      · rw [madeActive_mem]
        split
        · exact (bget_overwrite u p.val a).1 ‹_›
        · exact (bget_overwrite u p.val a).2 ‹_›

end Sys2Proof.Machine
end

section
/-! SUPPORT. The end of partitions and the resets of functions (R426, R427, R490, R491), and the opening and closing of
sessions (R479 to R482). -/

namespace Sys2Proof.Machine

/-! The end of a partition -/

theorem part_isCreated {s : State} {p : Nat} : s.exists_ p = true ↔ (s.part p).state ≠ .none := by simp [State.exists_]

theorem commandsDone_sameBut (l : List (Nat × Nat)) (s : State) :
    SameBut eventFields s (foldS (fun s c => s.commandDone c.1 c.2 stOk []) s l) :=
  foldS_sameBut (fun _ _ => sameBut_of_keeps (kc := true) (kn := true) (commandDone_keeps keeps_refl (within_own (by decide)))) l s

theorem partStateEvent_sameBut (s : State) (p : Nat) : SameBut eventFields s (s.partStateEvent p) :=
  sameBut_of_keeps (kc := true) (kn := true) (partStateEvent_keeps keeps_refl (within_own (by decide)))

/-- The bight regions of a partition given back. -/
def State.regionsGone (s : State) (p : Nat) : State := foldS (fun s d => s.setReg (Reg.kvpPartBightRegion d p) 0) s (upTo 4)

/-- The granules and the session of a partition given up. -/
def State.granulesGone (s : State) (p : Nat) : State :=
  { s with owners := s.owners.filter fun e => e.2 % 32 != p, sessions := mdel s.sessions (16 + p) }

/-- The key of whipped memory, kept while another partition is being whipped. -/
def State.whipKeyGone (s : State) (p : Nat) : State :=
  if (upTo 16).any fun q => q != p && (s.part q).state == .whipping then s
  else { s with security := { s.security with slots := s.security.slots.filter fun k => k != 17 } }

/-- The record of a partition that is no more. -/
def State.recordGone (s : State) (p : Nat) : State := (s.setPart p { Part.empty with gen := (s.part p).gen }).partStateEvent p

/-- A whipped partition, but for its record and the replies that wait. -/
def State.whipCleared (s : State) (p : Nat) : State :=
  ((((((s.overwrite p).zeroHanks p).zeroEngines p).zeroRanges p).regionsGone p).granulesGone p).whipKeyGone p

theorem endWhip_eq (s : State) (p : Nat) :
    s.endWhip p =
      foldS (fun s c => s.commandDone c.1 c.2 stOk []) ((s.whipCleared p).recordGone p) (s.part p).destroyCmds := by
  unfold State.endWhip State.whipCleared State.regionsGone State.granulesGone State.whipKeyGone State.recordGone
  rfl

theorem whipKeyGone_sameBut (s : State) (p : Nat) : SameBut [.security] s (s.whipKeyGone p) := by
  unfold State.whipKeyGone
  split
  · exact sameBut_refl _ s
  · exact ⟨rfl, fun f hf => by cases f <;> first | rfl | exact absurd (by decide) hf⟩

theorem recordGone_owners (s : State) (p : Nat) : (s.recordGone p).owners = s.owners :=
  (partStateEvent_sameBut _ p).2 .owners (by decide)

theorem recordGone_state (s : State) (p : Nat) : ((s.recordGone p).part p).state = .none := by
  rw [State.recordGone, part_of_parts ((partStateEvent_sameBut _ p).2 .parts (by decide)), part_setPart_self]
  rfl

theorem endWhip_state (s : State) (p : Nat) : ((s.endWhip p).part p).state = .none := by
  rw [endWhip_eq]
  generalize s.whipCleared p = w
  have parts : (foldS _ (w.recordGone p) _).parts = (w.recordGone p).parts :=
    (commandsDone_sameBut (s.part p).destroyCmds (w.recordGone p)).2 .parts (by decide)
  rw [part_of_parts parts, recordGone_state]

theorem granulesGone_owners (s : State) (p : Nat) : ∀ e ∈ ((s.granulesGone p).whipKeyGone p).owners, e.2 % 32 ≠ p := by
  rw [(whipKeyGone_sameBut _ p).2 .owners (by decide)]
  intro e he
  simpa using (List.mem_filter.1 he).2

theorem whipCleared_owners (s : State) (p : Nat) : ∀ e ∈ (s.whipCleared p).owners, e.2 % 32 ≠ p := by
  rw [State.whipCleared]
  exact granulesGone_owners _ p

theorem endWhip_owners (s : State) (p : Nat) : ∀ e ∈ (s.endWhip p).owners, e.2 % 32 ≠ p := by
  have cleared := whipCleared_owners s p
  rw [endWhip_eq]
  generalize s.whipCleared p = w at *
  have owners : (foldS _ (w.recordGone p) _).owners = (w.recordGone p).owners :=
    (commandsDone_sameBut (s.part p).destroyCmds (w.recordGone p)).2 .owners (by decide)
  rwa [owners, recordGone_owners]

/-- What the end of a whip may change. -/
def whipFields : List Field :=
  [.regs, .mem, .owners, .strands, .dieKnots, .hanks, .parts, .units, .ctls, .errLogs, .errDropped, .ecron, .sessions, .kv,
      .serve, .dispatch, .video, .power, .security, .journals, .checks, .sent, .fresh, .hostPorts]

theorem endWhip_sameBut (s : State) (p : Nat) : SameBut whipFields s (s.endWhip p) :=
  sameBut_of_keeps (kc := true) (kn := false) (endWhip_keeps keeps_refl (within_own (by decide)))

/-! The reset of a function -/

/-- What RESET_FUNCTION does, by the kind of the function. -/
def State.resetBody (s : State) (h : CmdHdr) (kind index : Nat) : Option (Nat × List Byte) × State :=
  match kind with
  | 1 =>
    if 16 ≤ index then (some (stMalformed, []), s)
    else if !isCommander h.session && sidPart h.session != index then (some (stNotPermitted, []), s)
    else s.resetPartition h.session h.seq index
  | 2 =>
    if 8 ≤ index then (some (stMalformed, []), s)
    else if !isCommander h.session && s.reg (Reg.vidCoreOwner index) % 32 != sidPart h.session then (some (stNotPermitted, []), s)
    else (some (stOk, []), s.resetCore index)
  | 3 =>
    if 4 ≤ index then (some (stMalformed, []), s)
    else if !isCommander h.session then (some (stNotPermitted, []), s) else (some (stOk, []), s.resetCrop index)
  | 4 =>
    if 4 ≤ index then (some (stMalformed, []), s)
    else if !isCommander h.session then (some (stNotPermitted, []), s) else (some (stOk, []), s.resetDispatch index)
  | _ => (some (stMalformed, []), s)

theorem resetFunction_eq (h : CmdHdr) (kind index : Nat) (s : State) :
    exec (.resetFunction h kind index) s = .next (s.commandLater h 0x0202 fun s => s.resetBody h kind index) := rfl

section
variable (s : State) (h : CmdHdr) (index : Nat)

theorem resetBody_part : s.resetBody h 1 index =
    if 16 ≤ index then (some (stMalformed, []), s)
    else if !isCommander h.session && sidPart h.session != index then (some (stNotPermitted, []), s)
    else s.resetPartition h.session h.seq index := rfl

theorem resetBody_core (small : index < 8)
    (own : isCommander h.session = true ∨ s.reg (Reg.vidCoreOwner index) % 32 = h.session - 16) :
    s.resetBody h 2 index = (some (stOk, []), s.resetCore index) := by
  show (if 8 ≤ index then _ else if _ then _ else _) = _
  rw [if_neg (by omega), if_neg (by rcases own with c | c <;> simp [c, sidPart])]

theorem resetBody_crop (small : index < 4) (own : isCommander h.session = true) :
    s.resetBody h 3 index = (some (stOk, []), s.resetCrop index) := by
  show (if 4 ≤ index then _ else if _ then _ else _) = _
  rw [if_neg (by omega), if_neg (by simp [own])]

theorem resetBody_dispatch (small : index < 4) (own : isCommander h.session = true) :
    s.resetBody h 4 index = (some (stOk, []), s.resetDispatch index) := by
  show (if 4 ≤ index then _ else if _ then _ else _) = _
  rw [if_neg (by omega), if_neg (by simp [own])]
end

theorem resetFunction_part {s u : State} {h : CmdHdr} {p : Nat} (hr : s.runs h 0x0202 u) (hp : p < 16)
    (own : isCommander h.session = true ∨ h.session - 16 = p) :
    exec (.resetFunction h 1 p) s = .next (match (u.resetPartition h.session h.seq p).1 with
      | some x => (u.resetPartition h.session h.seq p).2.reply h.session h.seq x.1 x.2
      | none => (u.resetPartition h.session h.seq p).2) := by
  rw [resetFunction_eq, runs_later hr, resetBody_part, if_neg (by omega),
    if_neg (by rcases own with c | c <;> simp [c, sidPart])] <;> rfl

/-- Settles O34, by the kind and the state of what ends. -/
theorem partitionsEnd : Obligations.PartitionsEnd := by
  refine ⟨?_, ?_, ?_, ?_, ?_, ?_⟩
  · intro s u h p hr
    have key : exec (.partDestroy h p) s = execPartDestroy h p s := rfl
    rw [key, execPartDestroy, runs_next hr]
    dsimp only
    refine ⟨fun big => ?_, fun small gone => ?_, fun small here => ⟨_, rfl, ?_⟩⟩
    · rw [if_pos big]
      rfl
    · rw [if_neg (by omega), if_pos (by simp [State.exists_, gone])]
      rfl
    · rw [if_neg (by omega), if_neg (by simp [State.exists_, here]), modPart_part_self]
      simp [ans]
  · intro s u p t hu whips
    refine ⟨u.endWhip p.val, ?_, endWhip_state u p.val, endWhip_owners u p.val, endWhip_sameBut u p.val⟩
    subst hu
    show execWhipOverwriteEnd p t s = _
    unfold execWhipOverwriteEnd
    dsimp only
    rw [if_neg (by simp [whips])]
  · intro s u v h p hr hp own hv
    rw [resetFunction_part hr hp own]
    unfold State.resetPartition
    refine ⟨fun st none free => ?_, fun st busy => ?_, fun st => ?_, fun st => ?_, fun st => ?_⟩
    · rw [st]
      dsimp only
      rw [← hv, none, free]
      rfl
    · rw [st]
      dsimp only
      rw [← hv, if_pos (by rcases busy with b | b <;> simp [b])]
    · rw [st]
      dsimp only
      rw [hv]
    · rw [st]
    · rcases st with st | st <;> rw [st]
  · intro s u h k hr hk own
    rw [resetFunction_eq, runs_later hr, resetBody_core u h k hk own]
  · intro s u h d hr hd own
    refine ⟨?_, ?_⟩
    · rw [resetFunction_eq, runs_later hr, resetBody_crop u h d hd own]
    · rw [resetFunction_eq, runs_later hr, resetBody_dispatch u h d hd own]
  · intro s u v p t hu stops late hv
    subst hu hv
    show execResetHitchTimeout p t s = _
    unfold execResetHitchTimeout
    dsimp only
    rw [if_neg (by rw [stops, decide_eq_false (Nat.not_lt.2 late)]; decide)]

/-! Opening a session (R479 to R481) -/

/-- The request of a session in progress. -/
def State.putOpening (s : State) (sid : Nat) (o : Opening) : State :=
  { s with security := { s.security with openings := mput s.security.openings sid o } }

/-- The request that the last fragment completes, if it does. -/
def Opening.request (o : Opening) (kind offset : Nat) (data : List Byte) : Option (List Byte) :=
  if decide (2 ≤ kind) || (o.kind != kind && !o.frags.isEmpty) then none else assembled (o.frags ++ [(offset, data)])

/-- The answer to a complete request. -/
def State.answerOpening (w : State) (h : CmdHdr) (kind : Nat) (req : Option (List Byte)) : State :=
  let r := w.openRequest h kind req
  (if r.1 = stOk then r.2.2.putOpening h.session { window := Window.empty, kind := kind, frags := [] } else r.2.2).send
    (.reply h.session { seq := h.seq, status := r.1, data := r.2.1 })

theorem sessionOpen_next {s u : State} {h : CmdHdr} {kind offset : Nat} {last : Bool} {data : List Byte} {o : Opening}
    (hu : u = s.tick h.t) (hp : u.update.paused = none) (hr : u.refusal h.session h.epoch 0x0002 = none)
    (hk : kind = 1 → u.security.debugOpen = false)
    (ho : o = mgetD u.security.openings h.session { window := Window.empty, kind := kind, frags := [] }) :
    exec (.sessionOpen h kind last offset data) s = .next
      (if last then (u.putOpening h.session { o with frags := [] }).answerOpening h kind (o.request kind offset data)
        else (u.putOpening h.session { o with kind := kind, frags := o.frags ++ [(offset, data)] }).send
          (.reply h.session { seq := h.seq, status := stOk, data := [] })) := by
  subst hu ho
  have shut : (decide (kind = 1) && (s.tick h.t).security.debugOpen) = false := by
    by_cases e : kind = 1
    · rw [hk e, Bool.and_false]
    · rw [decide_eq_false e, Bool.false_and]
  show execSessionOpen h kind last offset data s = _
  unfold execSessionOpen
  dsimp only
  rw [hp, hr, shut, if_neg (by decide)]
  dsimp only
  rw [if_neg (by decide)]
  cases last <;> rfl

section
variable {w : State} {h : CmdHdr} {kind : Nat} {b : List Byte}

theorem answerOpening_refused {req : Option (List Byte)} {st : Nat}
    (hr : w.openRequest h kind req = ans st (w.inc Reg.secOpenFailCount)) (ne : st ≠ stOk) :
    w.answerOpening h kind req =
      (w.inc Reg.secOpenFailCount).send (.reply h.session { seq := h.seq, status := st, data := [] }) := by
  unfold State.answerOpening
  rw [hr]
  dsimp only [ans]
  rw [if_neg ne]

theorem answerOpening_done {req : Option (List Byte)} {v : State} {bytes : List Byte}
    (hr : w.openRequest h kind req = (stOk, bytes, v)) :
    w.answerOpening h kind req = (v.putOpening h.session { window := Window.empty, kind := kind, frags := [] }).send
      (.reply h.session { seq := h.seq, status := stOk, data := bytes }) := by
  unfold State.answerOpening
  rw [hr]
  dsimp only
  rw [if_pos rfl]

/-- The signature of a request (R480). -/
def signed (h : CmdHdr) (b : List Byte) : Bool :=
  Config.verifies (slice b 0x678 1793) (shake256 64 (slice b 0 0xD80 ++ headerBytes h)) (slice b 0xD80 1280)

theorem openRequest_malformed (form : requestForm kind b = false) :
    w.openRequest h kind (some b) = ans stMalformed (w.inc Reg.secOpenFailCount) := by
  unfold State.openRequest
  dsimp only
  rw [form]
  rfl

theorem openRequest_denied (form : requestForm kind b = true) (bad : w.authority h.session kind b = false ∨ signed h b = false) :
    w.openRequest h kind (some b) = ans stNotPermitted (w.inc Reg.secOpenFailCount) := by
  unfold State.openRequest
  dsimp only
  rw [form, if_neg (by decide)]
  by_cases a : w.authority h.session kind b = true
  · rw [a, if_neg (by decide), if_pos (by rw [← signed, bad.resolve_left (by simp [a])]; rfl)]
  · rw [if_pos (by simpa using a)]

theorem openRequest_good (form : requestForm kind b = true) (own : w.authority h.session kind b = true) (sig : signed h b = true) :
    w.openRequest h kind (some b) =
      if kind = 1 then w.completeJob b (Config.decapsulate (slice b 0x30 1568))
      else w.completeSession h b (Config.decapsulate (slice b 0x30 1568)) := by
  unfold State.openRequest
  dsimp only
  rw [form, own, ← signed, sig]
  rfl
end

theorem session_openSession (s : State) (sid : Nat) (k : Key) :
    ∃ x, (s.openSession sid k).session sid = some x ∧ x.key = k ∧ x.queue = [] ∧ x.replies = [] :=
  ⟨_, mget_mput_self _ _ _, rfl, rfl, rfl⟩

theorem completeJob_new {w : State} {b ss : List Byte} {j : Key}
    (hj : keyUnwrap (keyOf (shake256 32 (ascii "VXK-WRAP" ++ ss ++ slice b 0 32))) (slice b 0x650 40) = some j)
    (own : leAt b 0x20 2 = 0 → leAt b 0x22 1 = 16) (free : mget w.security.jobKeys (leAt b 0x20 2) = none)
    (room : w.security.jobKeys.length < 256) {v : State}
    (hv : v = { w with security := { w.security with
      jobKeys := mput w.security.jobKeys (leAt b 0x20 2) (leAt b 0x22 1, j) } }) :
    w.completeJob b ss = (stOk, slice (shake256 32 (ascii "VXK-JOBOK" ++ keyBytes j)) 0 32,
      if leAt b 0x23 1 = 1 ∧ leAt b 0x22 1 < 16 then v.modPart (leAt b 0x22 1) fun x => { x with txKey := some (leAt b 0x20 2) }
      else v) := by
  unfold State.completeJob
  dsimp only
  rw [hj, Option.elim_some, free]
  dsimp only
  rw [if_neg (by rintro (⟨z, ne⟩ | no); exacts [ne (own z), nomatch no]), if_neg (by rintro ⟨-, full⟩; omega), hv]

/-! Closing a session (R482) -/

/-- A session that is closing is removed after its reply. -/
def State.dropClosing (s : State) (sid : Nat) : State :=
  match s.session sid with
  | some x => if x.closing then { s with sessions := mdel s.sessions sid } else s
  | none => s

theorem dropClosing_of {s : State} {sid : Nat} {c : Bool} (hc : (s.session sid).map (fun x => x.closing) = some c) :
    s.dropClosing sid = if c then { s with sessions := mdel s.sessions sid } else s := by
  obtain ⟨x, hx, rfl⟩ := Option.map_eq_some_iff.1 hc
  unfold State.dropClosing
  rw [hx]

theorem closing_stays {s t : State} (h : SessionsStay s t) (i : Nat) :
    (t.session i).map (fun x => x.closing) = (s.session i).map fun x => x.closing := by
  have := congrArg (Option.map fun x : Key × Bool × Bool => x.2.1) (h i)
  simpa only [Option.map_map, Function.comp_def] using this

/-- What SESSION_CLOSE of a job key does. -/
theorem sessionClose_key {s u : State} {h : CmdHdr} {key : Nat} (hr : s.runs h 0x0003 u) {p q : Nat} {k : Key} (hk : key ≤ 65534)
    (hp : p = (if isCommander h.session = true then 16 else h.session - 16)) (hq : mget u.security.jobKeys key = some (q, k)) :
    exec (.sessionClose h 1 key) s = .next ((if q = p then
        ((({ u with security := { u.security with jobKeys := mdel u.security.jobKeys key } } : State).modPart p fun x =>
          if x.txKey = some key then { x with txKey := none } else x).reply h.session h.seq stOk [])
      else u.reply h.session h.seq stNotPermitted []).dropClosing h.session) := by
  have same : (fun x : Part => if (x.txKey == some key) = true then { x with txKey := none } else x) =
      fun x => if x.txKey = some key then { x with txKey := none } else x := by simp only [beq_iff_eq]
  show execSessionClose h 1 key s = _
  unfold execSessionClose
  dsimp only
  rw [runs_next hr, if_neg (by decide), if_neg (by omega), hq]
  dsimp only
  rw [show (if isCommander h.session = true then 16 else sidPart h.session) = p from hp.symm, same]
  by_cases e : q = p
  · rw [if_neg (by simp [e]), if_pos e]
    rfl
  · rw [if_pos (by simp [e]), if_neg e]
    rfl

/-- Settles O35, by the fragment, the checks of the request, and the kind. -/
theorem sessionsOpenAndClose : Obligations.SessionsOpenAndClose := by
  refine ⟨?_, ?_, ?_⟩
  · intro s u w h kind offset last data o hu hp hr hk ho hw
    replace hw : w = u.putOpening h.session { o with frags := [] } := hw
    have key := sessionOpen_next (last := last) (offset := offset) (data := data) hu hp hr hk ho
    rw [← hw] at key
    refine ⟨fun more => ?_, fun done bad => ?_, fun b done small begun whole => ?_⟩
    · rw [key, more]
      rfl
    · have none_ : o.request kind offset data = none := by
        unfold Opening.request
        rcases bad with big | ⟨other, some_⟩ | gap
        · simp [big]
        · simp [other, some_]
        · simp [gap]
      rw [key, done, none_, if_pos rfl, answerOpening_refused (st := stMalformed) rfl (by decide)]
    · have req : o.request kind offset data = some b := by
        unfold Opening.request
        rw [whole, if_neg]
        rcases begun with e | e <;> simp [e] <;> omega
      have key : exec (.sessionOpen h kind last offset data) s = .next (w.answerOpening h kind (some b)) := by
        rw [key, done, req, if_pos rfl]
      refine ⟨fun form => ?_, fun form denied => ?_, fun form own sig ss hss => ⟨?_, ?_⟩⟩
      · rw [key, answerOpening_refused (openRequest_malformed form) (by decide)]
      · rw [key, answerOpening_refused (openRequest_denied form denied) (by decide)]
      · intro nonce k v kind0 hn hkey hv
        have good : w.openRequest h kind (some b) =
            (stOk, nonce ++ slice (shake256 32 (ascii "VXK-CONFIRM" ++ keyBytes k)) 0 32, v) := by
          rw [openRequest_good form own sig, if_neg (by omega), ← hss, hv, hkey, hn]
          rfl
        rw [key, answerOpening_done good]
        exact ⟨rfl, hv ▸ session_openSession _ _ _⟩
      · intro id p j v kind1 hid hpart hj job free room hv
        subst hid hpart
        refine ⟨_, rfl, ?_⟩
        rw [key, answerOpening_done ((openRequest_good form own sig).trans
          ((if_pos kind1).trans (hss ▸ completeJob_new hj job free room hv)))]
        rfl
  · intro s u w h key hr hw
    obtain ⟨-, x, hx, -⟩ := hr.2
    have closes : (w.session h.session).map (fun x => x.closing) = some true := by
      rw [hw, closing_stays (stay_reply _ _ _ _ _), session_modSession_self, hx]
      rfl
    show execSessionClose h 0 key s = _
    unfold execSessionClose
    dsimp only
    rw [runs_next hr]
    rw [if_pos rfl]
    show Host.Outcome.next (State.dropClosing ((u.modSession h.session fun x => { x with closing := true }).reply
      h.session h.seq stOk []) h.session) = _
    rw [← hw, dropClosing_of closes]
    rfl
  · intro s u v w h key p k q x hr hk hp hq hx open_
    have stays : ∀ t : State, SessionsStay u t → (t.session h.session).map (fun x => x.closing) = some false := by
      intro t ht
      rw [closing_stays ht, hx, Option.map_some, open_]
    rw [sessionClose_key hr hk hp hq]
    refine ⟨fun ne => ?_, fun eq hv hw => ?_⟩
    · rw [if_neg ne, dropClosing_of (stays _ (stay_reply _ _ _ _ _))]
      rfl
    · rw [if_pos eq, ← hv, ← hw, dropClosing_of (stays _ ((stay_of (by rw [hw, hv]; rfl)).trans (stay_reply w _ _ _ _)))]
      rfl

end Sys2Proof.Machine
end

section
/-! SUPPORT. Coils: how they are loaded (R513 to R516, R526, R527), switched to (R517 to R519) and started and confirmed (R520 to
R526). -/

namespace Sys2Proof.Machine

/-! Loading (R515, R516) -/

/-- The form rules of a fragment hold. -/
theorem fragment_formed {data : List Byte} (ne : data ≠ []) (short : data.length ≤ 1424) :
    (data.isEmpty || decide (1424 < data.length)) = false := by
  rw [decide_eq_false (Nat.not_lt.2 short), Bool.or_false, List.isEmpty_eq_false_iff]
  exact ne

theorem not_nil {data : List Byte} {n : Nat} (h : n + 1 ≤ data.length) : data ≠ [] := by
  rintro rfl
  exact absurd h (Nat.not_succ_le_zero n)

theorem coilBegin_first {u : State} {data : List Byte} (long : 256 ≤ data.length) (short : data.length ≤ 1424) :
    u.coilBegin 0 data = match u.coilRefusal data with
      | some r => u.coilRefused 0x0400 r
      | none =>
        if headerBytesFor (coilBlocks data) < data.length then ans stMalformed u
        else ans stOk (u.modUpdate fun x => { x.setSlot (1 - u.update.confirmed)
          { CoilSlot.empty with state := 1, header := data } with loading := some (1 - u.update.confirmed) }) := by
  unfold State.coilBegin
  dsimp only
  rw [fragment_formed (not_nil long) short, if_neg (by decide), if_pos rfl, if_neg (by omega)] <;> rfl

theorem coilBegin_next {u : State} {off : Nat} {data : List Byte} {x : CoilSlot} (late : 0 < off) (ne : data ≠ [])
    (short : data.length ≤ 1424) (hx : x = u.update.slot (1 - u.update.confirmed))
    (hl : u.update.loading = some (1 - u.update.confirmed)) (ho : off = x.header.length)
    (fit : off + data.length ≤ headerBytesFor (coilBlocks x.header)) :
    u.coilBegin off data =
      ans stOk (u.modUpdate fun y => y.setSlot (1 - u.update.confirmed) { x with header := x.header ++ data }) := by
  unfold State.coilBegin
  dsimp only
  rw [fragment_formed ne short, if_neg (by decide), if_neg (by omega), ← hx]
  rw [if_neg]
  rintro (no | no | no)
  · exact no hl
  · exact no ho
  · omega

section
variable {u : State} {off block k n : Nat} {data : List Byte} {x : CoilSlot} (hk : u.update.loading = some k)
  (hx : x = u.update.slot k) (hn : n = coilBlocks x.header) (ne : data ≠ []) (short : data.length ≤ 1424)
  (hh : x.header.length = headerBytesFor n) (hb : block = x.blocks.length) (ho : off = x.part.length)
include hk hx hn ne short hh hb ho

theorem coilBlock_signature (last : block = n) (len : data.length = 1280) :
    u.coilBlock off block data =
      if coilSigned x data = true
      then ans stOk (u.modUpdate fun y => { y.setSlot k { x with state := 2, signature := data } with loading := none })
      else (u.modUpdate fun y => { y.setSlot k CoilSlot.empty with loading := none }).coilRefused 0x0401 8 := by
  unfold State.coilBlock
  rw [hk]
  dsimp only
  rw [← hx, ← hn, fragment_formed ne short, hh, ← hb, ← ho]
  simp only [bne_self_eq_false, Bool.or_false, Bool.false_eq_true, if_false]
  rw [if_pos last, if_neg (fun no => no len)]

theorem coilBlock_fragment (inner : block ≠ n) (fit : (x.part ++ data).length ≤ 65536) :
    u.coilBlock off block data =
      if (x.part ++ data).length < 65536 then ans stOk (u.modUpdate fun y => y.setSlot k { x with part := x.part ++ data })
      else if slice (shake256 32 (x.part ++ data)) 0 32 = slice x.header (256 + 32 * block) 32 then
        ans stOk (u.modUpdate fun y => y.setSlot k { x with part := [], blocks := x.blocks ++ [x.part ++ data] })
      else ((u.modUpdate fun y => y.setSlot k { x with part := [] }).inc Reg.updBlockFailCount).coilRefused 0x0401 7 := by
  unfold State.coilBlock
  rw [hk]
  dsimp only
  rw [← hx, ← hn, fragment_formed ne short, hh, ← hb, ← ho]
  simp only [bne_self_eq_false, Bool.or_false, Bool.false_eq_true, if_false]
  rw [if_neg inner, if_neg (by omega)]
end

/-- Settles O40, fragment by fragment. -/
theorem coilsAreLoaded : Obligations.CoilsAreLoaded := by
  refine ⟨?_, ?_, ?_, ?_⟩
  · intro s u h data hr long short
    have key : exec (.coilBegin h 0 data) s = .next (s.command h 0x0400 fun s => s.coilBegin 0 data) := rfl
    rw [key, runs_next hr, coilBegin_first long short]
    refine ⟨fun r refused => ?_, fun good fit => ?_⟩
    · rw [refused]
      rfl
    · rw [good]
      dsimp only
      rw [if_neg (by omega)]
      rfl
  · intro s u h off data x hr late ne short hx hl ho fit
    have key : exec (.coilBegin h off data) s = .next (s.command h 0x0400 fun s => s.coilBegin off data) := rfl
    rw [key, runs_next hr, coilBegin_next late ne short hx hl ho fit]
    rfl
  · intro s u h off block k n data x hr hk hx hn ne short hh hb ho
    have key : exec (.coilBlock h off block data) s = .next (s.command h 0x0401 fun s => s.coilBlock off block data) := rfl
    rw [key, runs_next hr]
    have fragment := coilBlock_fragment hk hx hn ne short hh hb ho
    have signature := coilBlock_signature hk hx hn ne short hh hb ho
    refine ⟨fun inner more => ?_, fun inner whole good => ?_, fun inner whole bad => ?_, fun last len good => ?_,
      fun last len bad => ?_⟩
    · rw [fragment inner (by omega), if_pos more]
      rfl
    · rw [fragment inner (by omega), if_neg (by omega), if_pos good]
      rfl
    · rw [fragment inner (by omega), if_neg (by omega), if_neg bad]
      rfl
    · rw [signature last len, if_pos good]
      rfl
    · rw [signature last len, if_neg (by rw [bad]; decide)]
      rfl
  · intro s u h hr
    show execCoilStatus h s = _
    rw [execCoilStatus, runs_next hr]

/-! The scheduled switch (R517 to R519) -/

/-- The schedule of a slot: a slot that is only verified becomes scheduled. -/
def Update.scheduleSlot (x : Update) (back : Bool) (k : Nat) : Update :=
  if back = false ∧ (x.unschedule.slot k).state = 2 then x.unschedule.setState k 3 else x.unschedule

theorem coilSchedule_next {u : State} {h : CmdHdr} {time : Nat} {back : Bool} (early : ∀ p, u.update.schedT = some p → u.now + 100000000 < p)
    (range : time = 0 ∨ u.now + 1000000000 ≤ time ∧ time ≤ u.now + 3600000000000) :
    u.coilSchedule h time back =
      if time = 0 then ans stOk (u.modUpdate Update.unschedule)
      else match u.update.schedulable back with
        | none => u.coilRefused 0x0402 9
        | some k =>
          if u.ptp.state ≠ 1 then u.coilRefused 0x0402 10
          else ans stOk (u.modUpdate fun x => { x.scheduleSlot back k with
            schedT := some time, schedSlot := k, schedFallback := back, schedSession := h.session, schedSeq := h.seq,
            lead := leAt ((x.scheduleSlot back k).slot k).header 0x60 4 }) := by
  have same (x : Update) (k : Nat) :
      (if (!back && (x.unschedule.slot k).state == 2) = true then x.unschedule.setState k 3 else x.unschedule) =
        x.scheduleSlot back k := by
    unfold Update.scheduleSlot
    simp
  unfold State.coilSchedule
  simp only [same]
  cases hs : u.update.schedT with
  | none => cases hk : u.update.schedulable back <;> rw [if_neg (by omega), if_neg Bool.false_ne_true]
  | some p =>
    have notLate : ¬decide (p ≤ u.now + 100000000) = true := by simpa using early p hs
    cases hk : u.update.schedulable back <;> rw [if_neg (by omega), if_neg notLate]

/-- The conditions of a data-path switch hold (R518). -/
def State.switchReady (u : State) : Prop :=
  u.update.preloaded = true ∧ u.ptp.state = 1 ∧ -500 ≤ (u.hostPort u.ptp.port).offset ∧ (u.hostPort u.ptp.port).offset ≤ 500 ∧
    (u.update.schedFallback = true ↔ u.update.schedSlot = u.update.confirmed)

theorem switch_refused {u : State} :
    (!u.update.preloaded || u.ptp.state != 1 ||
      decide ((u.hostPort u.ptp.port).offset < -500 ∨ 500 < (u.hostPort u.ptp.port).offset) ||
      !(u.update.schedFallback == (u.update.schedSlot == u.update.confirmed))) = true ↔ ¬u.switchReady := by
  have fits : (u.update.schedFallback == (u.update.schedSlot == u.update.confirmed)) = true ↔
      (u.update.schedFallback = true ↔ u.update.schedSlot = u.update.confirmed) := by
    rw [beq_iff_eq, Bool.eq_iff_iff, beq_iff_eq]
  unfold State.switchReady
  rw [← fits]
  simp only [Bool.or_eq_true, Bool.not_eq_true', bne_iff_ne, ne_eq, decide_eq_true_eq, not_and_or, Bool.not_eq_true, not_le]
  tauto

theorem datapathSwitch_next {s u : State} {t due : Nat} (hu : u = s.tick t) (hs : u.update.schedT = some due) (hd : due ≤ u.now) :
    (u.switchReady → exec (.datapathSwitch t) s = .next
      ((if u.update.schedFallback = true then ((u.modUpdate fun x => { x with schedT := none, lead := 0, preloaded := false }).switchTo
          u.update.schedSlot ((u.update.slot u.update.schedSlot).parts.filter fun i => i == 1 || i == 2)).fallBack
        else ((u.modUpdate fun x => { x with schedT := none, lead := 0, preloaded := false }).switchTo u.update.schedSlot
          ((u.update.slot u.update.schedSlot).parts.filter fun i => i == 1 || i == 2)).openTrial u.update.schedSlot).commandDone
        u.update.schedSession u.update.schedSeq stOk [])) ∧
    (¬u.switchReady → exec (.datapathSwitch t) s = .next
      (((u.modUpdate Update.unschedule).eventC 21 stCoilRefused u.update.schedSlot (toLe 4 12)).commandDone u.update.schedSession
        u.update.schedSeq stCoilRefused [12])) := by
  subst hu
  have key : exec (.datapathSwitch t) s = execDatapathSwitch t s := rfl
  rw [key]
  unfold execDatapathSwitch
  dsimp only
  rw [hs]
  dsimp only
  rw [if_neg (by omega)]
  refine ⟨fun ready => ?_, fun late => ?_⟩
  · rw [if_neg fun no => switch_refused.1 no ready]
  · rw [if_pos (switch_refused.2 late)]

/-- Settles O41, by the refusals of COIL_SCHEDULE and the conditions of the switch. -/
theorem switchesAreScheduled : Obligations.SwitchesAreScheduled := by
  refine ⟨?_, ?_, fun _ _ => rfl, ?_⟩
  · intro s u h time back hr early
    have key (time : Nat) : exec (.coilSchedule h time back) s = .next (s.command h 0x0402 fun s => s.coilSchedule h time back) := rfl
    refine ⟨?_, fun lo hi => ⟨fun nothing => ?_, fun k some_ unlocked => ?_, fun k v some_ locked hv => ?_⟩⟩
    · rw [key, runs_next hr, coilSchedule_next early (.inl rfl)]
      rfl
    all_goals rw [key, runs_next hr, coilSchedule_next early (.inr ⟨lo, hi⟩), if_neg (by omega)]
    · rw [nothing]
      rfl
    · rw [some_]
      dsimp only
      rw [if_pos unlocked]
      rfl
    · rw [some_]
      dsimp only
      rw [if_neg (fun no => no locked), hv]
      rfl
  · intro s u t p hu hp early
    subst hu
    show execCoilPreload t s = .next ((s.tick t).modUpdate fun x => { x with preloaded := true })
    unfold execCoilPreload
    dsimp only
    rw [hp]
    dsimp only
    rw [if_pos early]
  · intro s u t due k x hu hx hs hd hk
    subst hx hk
    obtain ⟨go, miss⟩ := datapathSwitch_next hu hs hd
    refine ⟨fun h1 h2 h3 h4 h5 => ⟨_, _, rfl, rfl, go ⟨h1, h2, h3, h4, h5⟩⟩, fun no => miss ?_⟩
    rintro ⟨h1, h2, h3, h4, h5⟩
    obtain n | n | n | n | n := no
    · rw [h1] at n
      exact nomatch n
    · exact n h2
    · omega
    · omega
    · exact n h5

/-! The management start and confirmation (R520 to R526) -/

/-- The component of a slot that runs from it. -/
def Update.runner (x : Update) (id : Nat) : Nat := if id = 1 then x.micro else if id = 2 then x.ccf else x.mgmt

theorem confirm_refused {u : State}
    (h : (u.update.slot (1 - u.update.confirmed)).state ≠ 4 ∨
      ∃ id ∈ (u.update.slot (1 - u.update.confirmed)).parts, u.update.runner id ≠ 1 - u.update.confirmed) :
    u.confirm = u.coilRefused 0x0404 9 := by
  unfold State.confirm
  dsimp only
  rw [if_pos]
  refine h.imp_right fun ⟨id, hid, ne⟩ => ?_
  rw [List.all_eq_false]
  refine ⟨id, hid, ?_⟩
  unfold Update.runner at ne
  split
  · simpa [*] using ne
  · split
    · simpa [*] using ne
    · simpa [*] using ne

theorem confirm_done {u : State} (h1 : (u.update.slot (1 - u.update.confirmed)).state = 4)
    (h2 : ∀ id ∈ (u.update.slot (1 - u.update.confirmed)).parts, u.update.runner id = 1 - u.update.confirmed) :
    u.confirm = ans stOk (u.modUpdate fun x =>
      { (x.setState (1 - u.update.confirmed) 5).setSlot u.update.confirmed
          (if (u.update.slot (1 - u.update.confirmed)).svn ≤ (u.update.slot u.update.confirmed).svn
            then { u.update.slot u.update.confirmed with state := 2 } else CoilSlot.empty) with
        minSvn := (u.update.slot (1 - u.update.confirmed)).svn, dual := false, trialAt := none }) := by
  unfold State.confirm
  dsimp only
  rw [if_neg]
  rintro (no | no)
  · exact no h1
  · rw [List.all_eq_false] at no
    obtain ⟨id, hid, ne⟩ := no
    have run := h2 id hid
    unfold Update.runner at run
    split at ne
    · simp [*] at ne run
      exact ne run
    · split at ne <;> · simp [*] at ne run
                        exact ne run

/-- The other slot's management component runs again (R521). -/
def Update.mgmtFailed (x : Update) : Update :=
  let y := { x with mgmt := 1 - x.pauseSlot }
  if y.pauseFallback || y.runsFrom x.pauseSlot then y
  else y.setState x.pauseSlot (if y.schedT.isSome && !y.schedFallback then 3 else 2)

section
variable {s u : State} {t : Nat} (hu : u = s.tick t)
include hu

theorem mgmtResume_next : exec (.mgmtResume t) s = .next (match u.update.paused with
    | none => u
    | some a =>
      if a + 200000000 < u.now then u
      else
        (if u.update.pauseFallback = true then
            ((u.modUpdate fun x => { x with mgmt := u.update.pauseSlot }).activated u.update.pauseSlot [3]).fallBack
          else ((u.modUpdate fun x => { x with mgmt := u.update.pauseSlot }).activated u.update.pauseSlot [3]).openTrial
            u.update.pauseSlot).resume a stOk []) := by
  subst hu
  show execMgmtResume t s = _
  unfold execMgmtResume
  rfl

theorem mgmtStartTimeout_next : exec (.mgmtStartTimeout t) s = .next (match u.update.paused with
    | none => u
    | some a =>
      if u.now < a + 200000000 then u
      else ((u.modUpdate Update.mgmtFailed).coilRefused 0x0403 11).2.2.resume a stCoilRefused (toLe 2 11)) := by
  subst hu
  show execMgmtStartTimeout t s = _
  unfold execMgmtStartTimeout
  rfl
end

/-- Settles O42, event by event. -/
theorem managementImagesStart : Obligations.ManagementImagesStart := by
  refine ⟨?_, ?_, ?_, ?_, ?_⟩
  · intro s u h back hr
    have key : exec (.activate h back) s = execActivate h back s := rfl
    rw [key, execActivate, runs_later hr]
    refine ⟨fun nothing => ?_, fun k some_ => ?_⟩
    · rw [nothing]
      rfl
    · rw [some_]
      rfl
  · intro s u v w t a k hu ha early hk hv hw
    replace hv : v = (u.modUpdate fun x => { x with mgmt := k }).activated k [3] := hv
    rw [mgmtResume_next hu, ha]
    dsimp only
    rw [if_neg (by omega), ← hk, ← hv, ← hw]
  · intro s u t a k x y hu ha late hk hx hy
    have failed : y = u.update.mgmtFailed := by
      subst hk hx
      rw [hy]
      unfold Update.mgmtFailed
      simp only [Bool.or_eq_true, Bool.and_eq_true, Bool.not_eq_true']
    replace failed : { u with update := y } = u.modUpdate Update.mgmtFailed := by rw [failed]; rfl
    rw [failed, mgmtStartTimeout_next hu, ha]
    dsimp only
    rw [if_neg (by omega)]
    rfl
  · intro s u h x o old hr hx ho
    subst hx ho
    have key : exec (.confirm h) s = .next (s.command h 0x0404 fun s => s.confirm) := rfl
    refine ⟨fun no => ?_, fun trial runs hold => ?_⟩
    · rw [key, runs_next hr, confirm_refused no]
      rfl
    · rw [key, runs_next hr, confirm_done trial runs, hold]
      rfl
  · intro s u t a hu ha unsent late
    subst hu
    show execConfirmOverdue t s = _
    unfold execConfirmOverdue
    dsimp only
    conv_lhs => rw [ha]
    dsimp only
    rw [if_neg]
    · rfl
    · rw [unsent, decide_eq_false (by omega)]
      decide

end Sys2Proof.Machine
end

section
/-! SUPPORT. Pins, the input, the sideband (R565 to R568, R574) and the start-up sequence (R568 to R572, R575). -/

namespace Sys2Proof.Machine

/-! The sideband -/

theorem slice_length (bs : List Byte) (a n : Nat) : (slice bs a n).length = n := by simp [slice]

section
variable {s w : State} (hw : w = { s with power := { s.power with lpActive := false } })

/-- A sideband transaction is served from phase 2 on, with a good PEC (R568). -/
theorem smbServed_good (hp : s.start.pwrgd = true) (h2 : 2 ≤ s.start.phase) : s.smbServed true = true := by
  unfold State.smbServed
  rw [hp, decide_eq_true h2]
  rfl

theorem smbServed_bad {pec : Bool} (h : pec = false ∨ s.start.pwrgd = false ∨ s.start.phase < 2) : s.smbServed pec = false := by
  unfold State.smbServed
  rcases h with h | h | h
  · rw [h]
    rfl
  · rw [h, Bool.and_false]
    rfl
  · rw [decide_eq_false (by omega), Bool.and_false]

include hw in
theorem smbRead_served (hs : s.smbServed true = true) {n : Nat} {block : List Byte} (hn : block.length = n) :
    s.smbRead true block = w.send (.smbus (toLe 1 n ++ block)) := by
  subst hw hn
  unfold State.smbRead
  rw [if_pos hs]
  rfl

theorem smbRead_refused {pec : Bool} (hs : s.smbServed pec = false) (block : List Byte) : s.smbRead pec block = s.send .nack := by
  unfold State.smbRead
  rw [if_neg (by rw [hs]; decide)]
end

theorem orderNumber_length : orderNumber.length = 16 := by simp [orderNumber, toLe_length]

section
variable {s : State} {pec : Bool} {k : Nat} {d : List Byte}

theorem trustWrite_next : exec (.trustWrite k d pec) s = .next
    (if !(s.smbServed pec) || !s.start.latchOpen || decide (3 < k) || d.length != 64 then s.send .nack
    else (State.smbWake { s with security := { s.security with
      trust := mset s.security.trust k (if d.all (fun b => b == 0) = true then none else some d) } }).send (.smbus [])) := rfl

theorem trustWrite_refused (h : s.smbServed pec = false ∨ s.start.latchOpen = false ∨ 3 < k ∨ d.length ≠ 64) :
    exec (.trustWrite k d pec) s = .next (s.send .nack) := by
  rw [trustWrite_next, if_pos]
  rcases h with h | h | h | h <;> simp [h]

theorem alertResponse_next : exec (.alertResponse pec) s = .next
    (if s.smbServed pec && s.smbAlert then s.smbWake.send (.smbus [0x5A]) else s.send .nack) := rfl

theorem smbAlert_iff (hp : s.start.pwrgd = true) :
    s.smbAlert = true ↔ s.start.failed = true ∨ s.thermo.trip = true ∨ s.start.inputOk = false := by
  unfold State.smbAlert
  rw [hp, Bool.true_and]
  simp only [Bool.or_eq_true, Bool.not_eq_true', or_assoc]
end

/-- Settles O53, pin by pin and transaction by transaction. -/
theorem pinsInputAndSideband : Obligations.PinsInputAndSideband := by
  refine ⟨?_, ?_, ?_, ?_⟩
  · intro s u v t hu
    subst hu
    refine ⟨fun unq lo hi => ?_, fun lo hi off w hw => ?_, fun lo hi => ?_, fun off => ?_⟩
    · show execInputQualified v t s = _
      unfold execInputQualified
      dsimp only
      rw [if_neg]
      · rfl
      · rw [unq, decide_eq_false (by omega)]
        decide
    · subst hw
      show execInputRange v t s = _
      unfold execInputRange
      dsimp only
      rw [if_neg]
      unfold inputInside
      rw [decide_eq_true_eq]
      omega
    · show execInputOk v t s = _
      unfold execInputOk
      dsimp only
      rw [if_pos (show inputInside v = true from decide_eq_true ⟨lo, hi⟩)]
    · show execInputShutdown v t s = _
      unfold execInputShutdown
      dsimp only
      rw [if_neg (by omega)]
  · intro s u t b hu
    subst hu
    refine ⟨fun q r p => ?_, fun r => ?_, rfl, fun ne => ?_⟩
    · show execPwrgd t s = _
      unfold execPwrgd
      dsimp only
      rw [if_neg]
      rw [q, r, p]
      decide
    · show execResetNLow t s = _
      unfold execResetNLow
      dsimp only
      rw [if_neg]
      rw [r]
      decide
    · show execTrayLatch b t s = _
      unfold execTrayLatch
      dsimp only
      rw [if_neg ne]
  · intro s w hw hp h2
    have served := smbServed_good hp h2
    refine ⟨?_, ?_, ?_, ?_, fun k d open_ hk hd => ?_, fun k d bad => ?_, fun raised => ?_, fun h3 h4 h5 => ?_⟩
    · exact congrArg _ (smbRead_served hw served (by simp [toLe_length, slice_length, orderNumber_length]))
    · exact congrArg _ (smbRead_served hw served (by simp [toLe_length]))
    · exact congrArg _ (smbRead_served hw served (by simp [toLe_length]))
    · exact congrArg _ (smbRead_served hw served (by simp [toLe_length]))
    · rw [trustWrite_next, if_neg (by simp [served, open_, hd, hk]), hw]
      rfl
    · exact trustWrite_refused (.inr bad)
    · rw [alertResponse_next, served, (smbAlert_iff hp).2 raised, hw]
      rfl
    · rw [alertResponse_next, if_neg]
      rw [served, Bool.true_and, smbAlert_iff hp, h3, h4, h5]
      decide
  · intro s pec k d bad i hi
    have refused := smbServed_bad bad
    simp only [List.mem_cons, List.not_mem_nil, or_false] at hi
    obtain rfl | rfl | rfl | rfl | rfl | rfl := hi
    · exact congrArg _ (smbRead_refused refused _)
    · exact congrArg _ (smbRead_refused refused _)
    · exact congrArg _ (smbRead_refused refused _)
    · exact congrArg _ (smbRead_refused refused _)
    · exact trustWrite_refused (.inl refused)
    · rw [alertResponse_next, refused]
      rfl

/-! The start-up sequence -/

theorem linksUp_iff {u : State} :
    ((upTo 15).all fun p => !(bit (u.reg Reg.ecnCtrl) p) || (u.port p).state == 4) = true ↔
      ∀ p < 15, bit (u.reg Reg.ecnCtrl) p = true → (u.port p).state = 4 := by
  rw [List.all_eq_true]
  simp only [mem_upTo, Bool.or_eq_true, Bool.not_eq_true', beq_iff_eq, ← Bool.not_eq_true, ← imp_iff_not_or]

theorem sound_phase {u : State} {n : Nat} (h : u.inPhase n = true) : ¬(!(u.inPhase n)) = true := by rw [h]; decide

theorem notFits_iff {x : Update} {o c : Nat} {ok : Bool} :
    (ok && (x.slot o).state == 2 && decide (x.minSvn ≤ (x.slot o).svn) && (x.slot o).format == (x.slot c).format) = true ↔
      ok = true ∧ (x.slot o).state = 2 ∧ x.minSvn ≤ (x.slot o).svn ∧ (x.slot o).format = (x.slot c).format := by
  simp only [Bool.and_eq_true, beq_iff_eq, decide_eq_true_eq, and_assoc]

/-- Settles O54, phase by phase. -/
theorem startUpPhases : Obligations.StartUpPhases := by
  refine ⟨?_, ?_, ?_, ?_, ?_, ?_, ?_, ?_, ?_⟩
  · intro s u t hu hp
    subst hu
    have key (b : Bool) : exec (.aelpo b t) s = execAelpo b t s := rfl
    refine ⟨?_, ?_⟩
    all_goals
      rw [key]
      unfold execAelpo
      dsimp only
      rw [if_neg (sound_phase hp)]
      rfl
  · intro s u v okA okB t c x hu hp hv hx hc
    subst hu
    have key : exec (.coil okA okB t) s = execCoil okA okB t s := rfl
    rw [key]
    unfold execCoil
    dsimp only
    rw [if_neg (sound_phase hp), ← hv, ← hx, ← hc]
    refine ⟨fun good => ?_, fun bad other st svn fmt => ?_, fun bad no => ?_⟩
    · rw [if_pos good]
    · rw [if_neg (by rw [bad]; decide), if_pos (notFits_iff.2 ⟨other, st, svn, fmt⟩)]
    · rw [if_neg (by rw [bad]; decide), if_neg]
      rw [notFits_iff]
      rintro ⟨h1, h2, h3, h4⟩
      rcases no with n | n | n | n
      · rw [h1] at n
        exact nomatch n
      · exact n h2
      · omega
      · exact n h4
  · intro s u t hu hp v hv
    subst hu
    show execWake t s = _
    unfold execWake
    dsimp only
    rw [if_neg (sound_phase hp), ← hv]
  · intro s u a b t hu hp
    subst hu
    have key : exec (.memory a b t) s = execMemory a b t s := rfl
    rw [key]
    unfold execMemory
    dsimp only
    rw [if_neg (sound_phase hp)]
    refine ⟨fun l ha => ?_, fun k ha hb => ?_, fun ha hb => ?_⟩
    · rw [ha]
    · rw [ha, hb]
    · rw [ha, hb]
  · intro s u v t hu hp hv
    subst hu
    show execInit t s = _
    unfold execInit
    dsimp only
    rw [if_neg (sound_phase hp), ← hv]
  · intro s u v w l bad t hu hp hv hw
    subst hu
    show execSelfTest l bad t s = _
    unfold execSelfTest
    dsimp only
    rw [if_neg (sound_phase hp), ← hv, hw]
    simp only [List.isEmpty_iff]
  · intro s u v w t hu hp up hv hw
    subst hu hv hw
    show execLinks t s = _
    unfold execLinks
    dsimp only
    rw [if_neg]
    rw [hp]
    rcases up with up | up
    · rw [linksUp_iff.2 up]
      simp
    · rw [decide_eq_true up, Bool.or_true]
      decide
  · intro s u v h hr hv
    show execDirReady h s = _
    rw [execDirReady, writes_next hr]
    dsimp only [ans]
    unfold State.lnyCtrlWrite
    rw [if_neg (by decide)]
    dsimp only
    rw [← hv]
  · intro s u h v hr
    have key : exec (.gblStartCtrl h v) s = execGblStartCtrl h v s := rfl
    rw [key, execGblStartCtrl, writes_next hr]
    unfold State.startCtrlWrite
    refine ⟨fun ready => ?_, fun early => ?_⟩
    · rw [ready]
      rfl
    · rw [early]
      rfl

end Sys2Proof.Machine
end

section
/-! SUPPORT. The ports of the mesh: training and retraining (R358 to R365), control blocks (R363 to R366, R382) and packets (R366,
R370 to R379, R485). -/

namespace Sys2Proof.Machine

/-! Training and retraining -/

theorem retrain_up {s : State} {p : Nat} (h : s.isUp p = true) :
    s.retrain p = ((s.leaveUp p).modPort p fun x => { x with state := 5, since := s.now }).inc (Reg.ecnPortRetrainCount p) := by
  unfold State.retrain
  rw [if_neg (by rw [h]; decide)]

theorem up_not {s : State} {p : Nat} (h : s.isUp p = true) : ¬(!(s.isUp p)) = true := by rw [h]; decide

theorem down_not {s : State} {p : Nat} (h : s.isUp p = false) : (!(s.isUp p)) = true := by rw [h]; rfl

theorem uncorrectable_next {s u v : State} {p : Fin 18} {t : Nat} (hu : u = s.tick t) (up : u.isUp p.val = true)
    (hv : v = (u.inc (Reg.ecnPortFecUncorrCount p.val)).modPort p.val fun x => { x with
      uncorr := (u.now :: x.uncorr).filter fun a => u.now < a + 1000000 }) :
    exec (.uncorrectableCodeword p t) s = .next (match (v.port p.val).awaiting with
      | some _ => v
      | none => (v.modPort p.val fun x => { x with awaiting := some (v.port p.val).rxIndex }).sendBlock p.val 3
          [(v.port p.val).rxIndex % 2 ^ 32]) := by
  subst hu hv
  show execUncorrectableCodeword p t s = _
  unfold execUncorrectableCodeword
  dsimp only
  rw [if_neg (up_not up)] <;> rfl

/-- The peer's HELLO is of the right version and mode, and names the right wiring (R361). -/
def State.helloGood (u : State) (p : Nat) (b : HelloBlock) : Bool :=
  b.version == 1 && b.compat == (u.port p).compat && u.wiringOk p b.modNum b.port

theorem hello_next {s u : State} {p : Fin 18} {b : HelloBlock} {t : Nat} (hu : u = s.tick t)
    (hs : (u.port p.val).state = 3 ∨ (u.port p.val).state = 5) {v : State}
    (hv : v = u.modPort p.val fun x => { x with
      peer := some (b.modNum, b.port), peerNonce := b.nonce, wiringBad := !(u.helloGood p.val b) }) :
    exec (.hello p b t) s = .next
      (if !(u.helloGood p.val b) then v.disablePort p.val
      else
        let w := v.modPort p.val fun x =>
          { x with state := 4, since := u.now, peerSeized := false, txIndex := 0, txAcked := 0, rxIndex := 0,
                   awaiting := none, uncorr := [], symErrs := [], lastCodeword := u.now, inFlight := [],
                   credits := upCredits x.declared b.allocs }
        if b.restarted then
          { w with ecron := { w.ecron with windows := w.ecron.windows.filter fun e => e.1 / 8 != b.modNum } }
        else w) := by
  subst hu hv
  show execHello p b t s = _
  unfold execHello
  dsimp only
  rw [if_neg (by omega)]
  rfl

/-- Settles O50, event by event. -/
theorem portsTrainAndRetrain : Obligations.PortsTrainAndRetrain := by
  refine ⟨?_, ?_, ?_⟩
  · intro s u p t hu
    subst hu
    refine ⟨fun st retry may => ?_, fun st => ?_, fun st => ?_, fun st => ?_, fun a ha due => ?_, fun up many => ?_,
      fun up lost => ?_, fun up v hv => ⟨fun waits => ?_, fun idle n hn => ?_⟩⟩
    · show execPortSignalDetect p t s = _
      unfold execPortSignalDetect
      dsimp only
      rw [if_neg (by simp [st, retry, may])]
    · show execTrainingDone p t s = _
      unfold execTrainingDone
      dsimp only
      rw [if_neg (by simp [st])]
    · show execLock p t s = _
      unfold execLock
      dsimp only
      rw [if_pos st]
    · show execLock p t s = _
      unfold execLock
      dsimp only
      rw [if_neg (by omega), if_pos st]
    · show execPortRetry p t s = _
      unfold execPortRetry
      dsimp only
      rw [ha]
      dsimp only
      rw [if_pos due]
    · show execErrLimitExceeded p t s = _
      unfold execErrLimitExceeded
      dsimp only
      rw [if_pos many, retrain_up up]
    · show execCodewordLoss p t s = _
      unfold execCodewordLoss
      dsimp only
      rw [if_pos lost, retrain_up up]
    · obtain ⟨m, hm⟩ := Option.ne_none_iff_exists'.1 waits
      rw [uncorrectable_next rfl up hv, hm]
    · rw [uncorrectable_next rfl up hv, idle, hn]
  · intro s u v p b t good hu hs hg hv
    have same : good = u.helloGood p.val b := by
      rw [Bool.eq_iff_iff, hg]
      unfold State.helloGood
      simp only [Bool.and_eq_true, beq_iff_eq, and_assoc]
    rw [same] at hv
    rw [hello_next hu hs hv, ← same]
    refine ⟨fun bad => ?_, fun fine w hw => ?_⟩
    · rw [bad]
      rfl
    · rw [fine, hw]
      rfl
  · intro s u p t n x hu hx hl late
    subst hu hx
    have key : exec (.portStateTimeout p t) s = execPortStateTimeout p t s := rfl
    rw [key]
    unfold execPortStateTimeout
    dsimp only
    rw [hl]
    dsimp only
    rw [if_neg (by omega)]
    refine ⟨fun other => ?_, fun five fails v hf hv => ?_⟩
    · rw [if_neg other]
    · rw [if_pos five, hv, hf]
      rfl

/-! Control blocks -/

theorem corrected_none {v : State} {p : Nat} {fixed l : List Nat} (hl : l = (fixed.map fun n => min n 15).filter fun n => decide (0 < n))
    (h : l = []) : v.corrected p fixed = v := by
  unfold State.corrected
  dsimp only
  rw [← hl, h]
  rfl

theorem corrected_some {v : State} {p : Nat} {fixed l : List Nat} (hl : l = (fixed.map fun n => min n 15).filter fun n => decide (0 < n))
    (h : l ≠ []) : v.corrected p fixed = ((v.bump (Reg.ecnPortFecSymCount p) l.sum).bump (Reg.ecnPortFecCwCount p) l.length).modPort p
      fun x => { x with symErrs := (v.now, l.sum) :: x.symErrs.filter fun e => decide (v.now < e.1 + 1000000000) } := by
  unfold State.corrected
  dsimp only
  rw [← hl, if_neg (by simpa using h)]
  rfl

/-- Settles O51, block by block. -/
theorem controlBlocksAct : Obligations.ControlBlocksAct := by
  refine ⟨?_, ?_, ?_, ?_⟩
  · intro s u v p t hu up hv
    replace hv : v = u.gotBlocks p.val 1 := hv
    refine ⟨fun fixed l hl => ?_, fun vc lane n k hk => ?_⟩
    · have key : exec (.idle ⟨p, fixed, t⟩) s = .next (v.corrected p.val fixed) := by
        subst hu hv
        show execIdle ⟨p, fixed, t⟩ s = _
        unfold execIdle
        dsimp only
        rw [if_pos up]
      refine ⟨fun none_ => ?_, fun some_ => ?_⟩
      · rw [key, corrected_none hl none_]
      · rw [key, corrected_some hl some_, hv]
        rfl
    · have key : exec (.credit p vc lane ⟨n, t⟩) s = .next (if (v.credit p.val k).outstanding < n then v.linkFault p.val k
          else v.modCredit p.val k fun c => { c with
            avail := c.avail + n, outstanding := c.outstanding - n, recvCredits := c.recvCredits + n,
            fresh := (if fabCycle c.freshAt = fabCycle u.now then c.fresh else 0) + n, freshAt := u.now }) := by
        subst hu hv hk
        show execCredit p vc lane ⟨n, t⟩ s = _
        unfold execCredit
        dsimp only
        rw [if_neg (up_not up)]
        rfl
      refine ⟨fun due => ?_, fun many => ?_⟩
      · rw [key, if_neg (by omega)]
      · rw [key, if_pos many]
  · intro s v p up hv
    replace hv : v = s.gotBlocks p.val 1 := hv
    refine ⟨fun count => ?_, fun index n x hx hn => ?_⟩
    · show execAck p count s = _
      unfold execAck
      dsimp only
      rw [if_neg (up_not up), hv]
    · subst hx hn hv
      show execReplayReq p index s = _
      unfold execReplayReq
      dsimp only
      rw [if_neg (up_not up)]
  · intro s u v p t hu up hv
    replace hv : v = u.gotBlocks p.val 1 := hv
    subst hu hv
    refine ⟨fun vc lane a b k c hk hc => ?_, fun time seized w hw => ?_, ?_, ?_, fun w hw => ?_⟩
    · subst hk hc
      have key : exec (.sync p vc lane a b t) s = execSync p vc lane a b t s := rfl
      rw [key]
      unfold execSync
      dsimp only
      rw [if_neg (up_not up)]
      refine ⟨fun h1 h2 => ?_, fun no => ?_⟩
      · rw [if_pos ⟨h1, h2⟩]
      · rw [if_neg fun ⟨h1, h2⟩ => no.elim (· h1) (· h2)]
    · have key : exec (.keepalive p time seized t) s = execKeepalive p time seized t s := rfl
      rw [key]
      unfold execKeepalive
      dsimp only
      rw [if_neg (up_not up), ← hw]
      refine ⟨fun none_ => ?_, fun m some_ => ?_⟩
      · rw [none_]
      · rw [some_]
    · show execAckSend p t s = _
      unfold execAckSend
      dsimp only
      rw [if_neg (up_not up)]
    · show execKeepaliveSend p t s = _
      unfold execKeepaliveSend
      dsimp only
      rw [if_neg (up_not up)]
    · show execSyncSend p t s = _
      unfold execSyncSend
      dsimp only
      rw [if_neg (up_not up), ← hw]
  · intro s p vc lane n a b t l z down
    have later : (s.tick t).isUp p.val = false := down
    refine ⟨?_, ?_, ?_, ?_, ?_, ?_⟩
    · show execIdle ⟨p, l, t⟩ s = _
      unfold execIdle
      dsimp only
      rw [if_neg (by rw [later]; decide)]
    · show execCredit p vc lane ⟨n, t⟩ s = _
      unfold execCredit
      dsimp only
      rw [if_pos (down_not later)]
    · show execAck p n s = _
      unfold execAck
      dsimp only
      rw [if_pos (down_not down)]
    · show execReplayReq p n s = _
      unfold execReplayReq
      dsimp only
      rw [if_pos (down_not down)]
    · show execSync p vc lane a b t s = _
      unfold execSync
      dsimp only
      rw [if_pos (down_not later)]
    · show execKeepalive p n z t s = _
      unfold execKeepalive
      dsimp only
      rw [if_pos (down_not later)]

/-! Packets -/

/-- A packet as it leaves on a port: on the link's lane, under the link key in compatibility mode (R485). -/
def State.onLink (u : State) (p lane : Nat) (pk : Packet) : Packet :=
  match (u.port p).compat, (u.port p).peer with
  | true, some m =>
    { pk with lane := lane, keyId := 0xFFFF, tagKey := linkKey u.self m.1 p (u.port p).ownNonce (u.port p).peerNonce }
  | _, _ => { pk with lane := lane }

section
variable {u : State} {p : Nat} {pk : Packet}

/-- The hub drops and counts a packet whose form or tag fails (R373). -/
theorem hubTake_tag {w : State} (run : w.lease.seized = false) (bad : w.tagOk pk = false) :
    w.hubTake pk = w.inc Reg.ecnAuthFailCount := by
  unfold State.hubTake
  dsimp only
  rw [run, if_neg (by decide), if_pos (by rw [bad]; simp)]

theorem hubTake_formed {w : State} (run : w.lease.seized = false) (tag : w.tagOk pk = true) (h1 : pk.reserved = false)
    (h2 : pk.version = 1) (h3 : 1 ≤ pk.ptype) (h4 : pk.ptype ≤ 3) {x : Window} {j : Nat} (hj : j = 8 * pk.srcModule + pk.vc)
    (hx : x = mgetD w.ecron.windows j Window.empty) :
    w.hubTake pk =
      if x.dup pk.seq then w.inc (Reg.ecnVcDup pk.vc)
      else if x.late pk.seq then w.inc (Reg.ecnVcLate pk.vc)
      else
        let y := { w with ecron := { w.ecron with windows := mput w.ecron.windows j (x.enter pk.seq) } }
        if !y.start.dirReady && pk.dstPart < 16 then y.inc (Reg.ecnVcPathDrop pk.vc) else y.judge pk false := by
  subst hj hx
  unfold State.hubTake
  dsimp only
  rw [run, if_neg (by decide), if_neg]
  simp [h1, h2, h3, h4, tag]

theorem judge_pass {y : State} {waited : Bool} (h : y.gate pk waited = .pass) :
    y.judge pk waited = (if y.peerEpoch pk.srcModule pk.srcPart < pk.srcEpoch
      then y.raisePeer pk.srcModule pk.srcPart pk.srcEpoch else y).accept pk := by
  unfold State.judge
  dsimp only
  rw [h]

/-- A packet that fits its receive buffer, in a port out of compatibility mode, fills it and goes on. -/
theorem arrive_fits {n k : Nat} {w : State} (hn : n = Packet.length pk + 2) (hk : k = 2 * pk.vc + pk.lane) (up : u.isUp p = true)
    (h1 : pk.vc ≤ 5) (h2 : pk.lane ≤ 1) (fit : n ≤ (u.credit p k).rxFree) (hc : (u.port p).compat = false) (key : pk.keyId ≠ 0xFFFF)
    (hw : w = (u.gotBlocks p n).modCredit p k fun c => { c with
      rxFree := c.rxFree - n, rxHeld := c.rxHeld + n, recvFlits := c.recvFlits + n }) :
    u.arrive p pk =
      if pk.dstModule = w.self then (w.hubTake pk).release p k n
      else if w.lease.seized then (w.inc (Reg.ecnVcPathDrop pk.vc)).release p k n
      else match w.forwardPort pk.dstModule with
        | some out => w.enqueueFrom p out pk
        | none => (w.inc Reg.ecnNoRouteCount).release p k n := by
  subst hw hn hk
  unfold State.arrive
  dsimp only
  have taken : ¬(!u.isUp p || decide (5 < pk.vc) || decide (1 < pk.lane) ||
      decide ((u.credit p (2 * pk.vc + pk.lane)).rxFree < Packet.length pk + 2)) = true := by
    rw [up, decide_eq_false (Nat.not_lt.2 h1), decide_eq_false (Nat.not_lt.2 h2), decide_eq_false (Nat.not_lt.2 fit)]
    decide
  rw [if_neg taken, hc, Bool.false_and, if_neg Bool.false_ne_true, if_neg (by simp [key])] <;> rfl
end

theorem packetTransmit_next {s u v : State} {p : Fin 18} {slot t inPort lane k n : Nat} {pk q : Packet} (hu : u = s.tick t)
    (hs : mget u.ecron.txq slot = some (p.val, inPort, pk))
    (live : inPort = 18 → pk.srcModule = u.self → pk.srcPart < 16 → (u.part pk.srcPart).state ≠ .whipping)
    (hl : lane = if 15 ≤ p.val then 1 else pk.lane) (hk : k = 2 * pk.vc + lane) (hn : n = Packet.length pk + 2)
    (up : u.isUp p.val = true) (run : u.lease.seized = false) (spend : n ≤ (u.credit p.val k).spendable u.now)
    (room : (u.port p.val).txIndex + n ≤ (u.port p.val).txAcked + 8192) (hq : q = u.onLink p.val lane pk)
    (hv : v = (State.modCredit { u with ecron := { u.ecron with txq := mdel u.ecron.txq slot } } p.val k fun c => { c with
      avail := c.avail - n, outstanding := c.outstanding + n, sentFlits := c.sentFlits + n }).transmit p.val n (.packet p.val q)) :
    exec (.packetTransmit p slot t) s = .next
      (if inPort = 18 then (if q.srcModule == v.self then v.inc (Reg.ecnVcCopiesSent q.vc) else v)
      else v.release inPort (2 * pk.vc + pk.lane) n) := by
  subst hu hv hq hk hn hl
  show execPacketTransmit p slot t s = _
  unfold execPacketTransmit
  dsimp only
  conv_lhs => rw [hs]
  dsimp only
  rw [if_neg (fun no => no rfl), if_neg, if_neg]
  · rfl
  · rw [up, run, decide_eq_false (Nat.not_lt.2 spend), decide_eq_false (Nat.not_lt.2 room)]
    decide
  · simp only [Bool.and_eq_true, decide_eq_true_eq, beq_iff_eq]
    rintro ⟨⟨⟨h1, h2⟩, h3⟩, h4⟩
    exact live h1 h2 h3 h4

theorem exec_arrives {s u : State} {p : Fin 18} {pk : Packet} {t : Nat} {i : Instr} (hu : u = s.tick t)
    (hi : i = .data p pk t ∧ pk.ptype ≠ 2 ∧ pk.ptype ≠ 3 ∨ i = .refuse p pk t ∧ pk.ptype = 3 ∨ i = .ackPacket p pk t ∧ pk.ptype = 2) :
    exec i s = .next (u.arrive p.val pk) := by
  subst hu
  obtain ⟨rfl, h2, h3⟩ | ⟨rfl, h3⟩ | ⟨rfl, h2⟩ := hi
  · show execData p pk t s = _
    unfold execData
    dsimp only
    rw [if_neg (by omega)]
  · show execRefuse p pk t s = _
    unfold execRefuse
    dsimp only
    rw [if_pos h3]
  · show execAckPacket p pk t s = _
    unfold execAckPacket
    dsimp only
    rw [if_pos h2]

/-- Settles O52, packet by packet. -/
theorem packetsTravel : Obligations.PacketsTravel := by
  refine ⟨?_, ?_, ?_, ?_, ?_, ?_, ?_, ?_⟩
  · intro s u v p slot t inPort lane k n pk q x hu hs hx live hl hk hn up run spend room hq hv
    subst hx
    replace hq : q = u.onLink p.val lane pk := hq
    have key := packetTransmit_next hu hs live hl hk hn up run spend room hq hv
    rw [key]
    refine ⟨fun other => ?_, fun own mine => ?_, fun own other => ?_⟩
    · rw [if_neg other]
    · rw [if_pos own, if_pos (by simpa using mine)]
    · rw [if_pos own, if_neg (by simpa using other)]
  · intro s u w p t n k pk i hu hi hn hk up h1 h2 fit hc key hw
    rw [exec_arrives hu hi, arrive_fits hn hk up h1 h2 fit hc key hw]
    refine ⟨fun here => ?_, fun away run => ⟨fun out route => ?_, fun no => ?_⟩⟩
    · rw [if_pos here]
    · rw [if_neg away, run, route]
      rfl
    · rw [if_neg away, run, no]
      rfl
  · intro w pk x j run h1 h2 h3 h4 hj hx
    refine ⟨hubTake_tag run, fun tag dup => ?_, fun tag new late => ?_, fun tag new early y hy ready pass => ?_⟩
    · rw [hubTake_formed run tag h1 h2 h3 h4 hj hx, if_pos dup]
    · rw [hubTake_formed run tag h1 h2 h3 h4 hj hx, if_neg (by rw [new]; decide), if_pos late]
    · rw [hubTake_formed run tag h1 h2 h3 h4 hj hx, if_neg (by rw [new]; decide), if_neg (by rw [early]; decide)]
      dsimp only
      rw [ready, if_neg (by simp), ← hy, judge_pass pass]
  · intro s u v slot t h hu hh due hv
    subst hu hv
    show execEpochHold slot t s = _
    unfold execEpochHold
    dsimp only
    conv_lhs => rw [hh]
    dsimp only
    rw [if_neg (by omega)]
  · intro s u v slot t b hu hb unbraided run late live hv
    subst hu
    have key : exec (.bulkTimeout slot t) s = execBulkTimeout slot t s := rfl
    rw [key]
    unfold execBulkTimeout
    dsimp only
    rw [hb, ← hv]
    dsimp only
    rw [if_neg, if_neg]
    · refine ⟨fun last num x ship => ?_, fun more w hw => ?_⟩
      · rw [if_pos last, ship]
      · rw [if_neg (by omega), hw, hv]
        rfl
    · simp only [Bool.and_eq_true, decide_eq_true_eq, beq_iff_eq]
      exact fun ⟨h1, h2⟩ => live h1 h2
    · rw [unbraided, run, decide_eq_false (by omega)]
      decide
  · intro s u src t up hu run group other
    subst hu
    show execLinkState src up t s = _
    unfold execLinkState
    dsimp only
    rw [if_neg]
    rw [run]
    simp [group, other]
  · intro s u v t hu run due hv
    subst hu
    show execLinkStateSend t s = _
    unfold execLinkStateSend
    dsimp only
    rw [if_neg, ← hv]
    simp only [run, Bool.false_or, Bool.and_eq_true, decide_eq_true_eq, beq_iff_eq]
    rintro ⟨h1, h2⟩
    rcases due with d | d
    · omega
    · exact d h2
  · intro s u h v hr
    have key : exec (.ecnBraidCtrl h v) s = execEcnBraidCtrl h v s := rfl
    rw [key, execEcnBraidCtrl, writes_next hr]
    unfold State.braidWrite
    refine ⟨fun four => ?_, fun few => ?_⟩
    · rw [if_pos four]
      rfl
    · rw [if_neg few]
      rfl

end Sys2Proof.Machine
end

section
/-! SUPPORT. Power domains: targets, entries and wakes (R529, R533 to R537, R542). -/

namespace Sys2Proof.Machine

/-! A written target (R533, R536) -/

section
variable {u : State} {n : Nat}

theorem beginEntry_refused {off : Bool} {id : Nat} (h : u.refuser n off = some id) :
    u.beginEntry n off = (stSpliceConflict,
      (u.setReg (Reg.pwrDomLast n) (u.reg (Reg.pwrDomLast n) / 256 * 256 + id)).inc (Reg.pwrDomRefuseCount n)) := by
  unfold State.beginEntry
  rw [h]

theorem beginEntry_on {off : Bool} (h : u.refuser n off = none) (hs : (u.dom n).state = .on) :
    u.beginEntry n off = (stOk, u.modDom n fun d => { d with
      state := .entering, phase := 1, toOff := off, since := u.now, cleated := true, holdCleats := false,
      target := if off then 2 else 1, offSpans := d.offSpans.begin u.now }) := by
  unfold State.beginEntry
  rw [h]
  dsimp only
  rw [hs]
  rfl

theorem beginEntry_retention {off : Bool} (h : u.refuser n off = none) (hs : (u.dom n).state = .retention) :
    u.beginEntry n off = (stOk, (((u.modDom n fun d => { d with
      toOff := true, target := 2, state := .off, fromOff := true }).domCtl n 0).loseContents n).lowPower) := by
  unfold State.beginEntry
  rw [h]
  dsimp only
  rw [hs]
  rfl

variable {b : Bool}

theorem domTarget_busy {k : Nat} (hk : k < 3) (hs : (u.dom n).state = .entering ∨ (u.dom n).state = .waking) :
    u.domTarget n k b = (stOk, u.modDom n fun d => { d with queuedTarget := some (k, b) }) := by
  unfold State.domTarget
  dsimp only
  rw [if_neg (by omega)]
  rcases hs with hs | hs <;> rw [hs]

theorem domTarget_on (hs : (u.dom n).state = .on) :
    u.domTarget n 1 b = u.beginEntry n false ∧ u.domTarget n 2 b = u.beginEntry n true := by
  unfold State.domTarget
  dsimp only
  rw [if_neg (by decide), if_neg (by decide), hs]
  exact ⟨rfl, rfl⟩

theorem domTarget_wake (hs : (u.dom n).state = .retention ∨ (u.dom n).state = .off) :
    u.domTarget n 0 b = (stOk, (u.modDom n fun d => { d with holdCleats := b }).startWake n) := by
  unfold State.domTarget
  dsimp only
  rw [if_neg (by decide)]
  rcases hs with hs | hs <;> (rw [hs]; rfl)

theorem domTarget_awake (hs : (u.dom n).state = .on) : u.domTarget n 0 b = (stOk, u.modDom n fun d => { d with target := 0 }) := by
  unfold State.domTarget
  dsimp only
  rw [if_neg (by decide), hs]
  rfl

theorem domTarget_retention (hs : (u.dom n).state = .retention) :
    u.domTarget n 1 b = (stOk, u) ∧ u.domTarget n 2 b = u.beginEntry n true := by
  unfold State.domTarget
  dsimp only
  rw [if_neg (by decide), if_neg (by decide), hs]
  exact ⟨rfl, rfl⟩

theorem domTarget_off (hs : (u.dom n).state = .off) :
    u.domTarget n 1 b = (stSpliceConflict, u) ∧ u.domTarget n 2 b = (stOk, u) := by
  unfold State.domTarget
  dsimp only
  rw [if_neg (by decide), if_neg (by decide), hs]
  exact ⟨rfl, rfl⟩

/-- What a write of the domain's control register answers and leaves, by what its target does. -/
def State.afterTarget (r : Nat × State) (n v : Nat) : Nat × State :=
  if r.1 = stOk then (stOk, r.2.setReg (Reg.pwrDomCtrl n) v) else r

theorem domCtrlWrite_low {v : Nat} (h : v < 32) :
    u.domCtrlWrite n v = State.afterTarget (u.domTarget n (v % 4) (bit v 4)) n v := by
  have low : bit v 8 = false := by
    unfold bit
    rw [show v / 2 ^ 8 = 0 by omega]
    rfl
  unfold State.domCtrlWrite
  dsimp only
  rw [low, show v % 32 = v by omega]
  rfl
end

theorem afterTarget_ok (t : State) (n v : Nat) : State.afterTarget (stOk, t) n v = (stOk, t.setReg (Reg.pwrDomCtrl n) v) := rfl

theorem afterTarget_conflict (t : State) (n v : Nat) : State.afterTarget (stSpliceConflict, t) n v = (stSpliceConflict, t) := rfl

/-- A command that writes a domain's control register. -/
theorem target_next {s u : State} {h : CmdHdr} {n : Fin 64} {i : Instr} {v : Nat} (hr : s.writes h 0x0101 (Reg.pwrDomCtrl n.val) u)
    (hi : i = .targetRetention h n ∧ v = 1 ∨ i = .targetOff h n ∧ v = 2 ∨
      ∃ b : Bool, i = .targetOn h n b ∧ v = if b = true then 16 else 0) {st : Nat} {t : State}
    (ht : State.afterTarget (u.domTarget n.val (v % 4) (bit v 4)) n.val v = (st, t)) :
    exec i s = .next (t.reply h.session h.seq st []) := by
  have write {v : Nat} (hv : v < 32) {st : Nat} {t : State}
      (ht : State.afterTarget (u.domTarget n.val (v % 4) (bit v 4)) n.val v = (st, t)) :
      s.regCommand h 0x0101 (Reg.pwrDomCtrl n.val) (fun s => ans (s.domCtrlWrite n.val v).1 (s.domCtrlWrite n.val v).2) =
        t.reply h.session h.seq st [] := by
    rw [writes_next hr, domCtrlWrite_low hv, ht]
    rfl
  obtain ⟨rfl, rfl⟩ | ⟨rfl, rfl⟩ | ⟨b, rfl, rfl⟩ := hi
  · exact congrArg _ (write (by decide) ht)
  · exact congrArg _ (write (by decide) ht)
  · exact congrArg _ (write (by split <;> decide) ht)

theorem wake_lp {s u : State} {t : Nat} (hu : u = { s.tick t with power := { s.power with lpActive := false } }) :
    (if (s.tick t).power.lpActive then { s.tick t with power := { (s.tick t).power with lpActive := false } } else s.tick t) = u := by
  subst hu
  by_cases h : (s.tick t).power.lpActive = true
  · rw [if_pos h]
    rfl
  · rw [if_neg h]
    have same : s.power = { s.power with lpActive := false } := by
      rw [show false = s.power.lpActive from (by simpa using h : s.power.lpActive = false).symm]
    rw [← same]
    rfl

theorem lowPower_eq {w : State} {lp : Bool} (h : lp = true ↔ bit (w.reg Reg.pwrAonCtrl) 0 = true ∧ ∀ n < 63, (w.dom n).state = .off) :
    w.lowPower = { w with power := { w.power with lpActive := lp } } := by
  have same : (((upTo 63).all fun n => (w.dom n).state == .off) && bit (w.reg Reg.pwrAonCtrl) 0) = lp := by
    rw [Bool.eq_iff_iff, h, Bool.and_eq_true, List.all_eq_true, and_comm]
    simp only [mem_upTo, beq_iff_eq]
  unfold State.lowPower
  rw [← same]

/-- Settles O47, by the state of the domain. -/
theorem domainsEnterAndWake : Obligations.DomainsEnterAndWake := by
  refine ⟨?_, ?_, ?_, ?_, ?_, ?_, ?_, ?_, ?_⟩
  · intro s u h n d hr hd
    subst hd
    have key {st : Nat} {t : State} := target_next (st := st) (t := t) hr (.inl ⟨rfl, rfl⟩)
    refine ⟨fun on id refused => key ?_, fun on free => key ?_, fun busy => key ?_, fun ret => key ?_, fun off => key ?_⟩
    · rw [(domTarget_on on).1, beginEntry_refused refused, afterTarget_conflict]
    · rw [(domTarget_on on).1, beginEntry_on free on, afterTarget_ok]
      rfl
    · rw [domTarget_busy (by decide) busy, afterTarget_ok]
      rfl
    · rw [(domTarget_retention ret).1, afterTarget_ok]
    · rw [(domTarget_off off).1, afterTarget_conflict]
  · intro s u h n d hr hd
    subst hd
    have key {st : Nat} {t : State} := target_next (st := st) (t := t) hr (.inr (.inl ⟨rfl, rfl⟩))
    refine ⟨fun st id refused => key ?_, fun on free => key ?_, fun ret free => key ?_, fun busy => key ?_, fun off => key ?_⟩
    · rcases st with on | ret
      · rw [(domTarget_on on).2, beginEntry_refused refused, afterTarget_conflict]
      · rw [(domTarget_retention ret).2, beginEntry_refused refused, afterTarget_conflict]
    · rw [(domTarget_on on).2, beginEntry_on free on, afterTarget_ok]
      rfl
    · rw [(domTarget_retention ret).2, beginEntry_retention free ret, afterTarget_ok]
    · rw [domTarget_busy (by decide) busy, afterTarget_ok]
      rfl
    · rw [(domTarget_off off).2, afterTarget_ok]
  · intro s u h n b k hr hk
    subst hk
    have key {st : Nat} {t : State} := target_next (st := st) (t := t) hr (.inr (.inr ⟨b, rfl, rfl⟩))
    have zero : (if b = true then 16 else 0) % 4 = 0 := by cases b <;> rfl
    have hold : bit (if b = true then 16 else 0) 4 = b := by cases b <;> rfl
    rw [zero, hold] at key
    refine ⟨fun on => key ?_, fun asleep => key ?_, fun busy => key ?_⟩
    · rw [domTarget_awake on, afterTarget_ok]
    · rw [domTarget_wake asleep, afterTarget_ok]
    · rw [domTarget_busy (by decide) busy, afterTarget_ok]
  · intro s u h n hr
    show execCleatRel h n s = _
    rw [execCleatRel, writes_next hr]
    unfold State.cleatRelease
    simp only [beq_iff_eq]
    rfl
  · intro s u w h v hr hw lp hlp
    show execPwrAonCtrl h v s = _
    rw [execPwrAonCtrl, writes_next hr]
    unfold State.aonWrite
    rw [← hw, lowPower_eq hlp]
    rfl
  · intro s u n src t hu
    have key : exec (.wakeOnAccess n src t) s = execWakeOnAccess n src t s := rfl
    rw [key]
    unfold execWakeOnAccess
    dsimp only
    rw [wake_lp hu]
    refine ⟨fun up => ?_, fun ent one => ?_, fun ent later => ?_, fun asleep => ?_⟩
    · rcases up with st | st <;> rw [st]
    · rw [ent]
      dsimp only
      rw [if_pos one]
    · rw [ent]
      dsimp only
      rw [if_neg later]
    · rcases asleep with st | st <;> rw [st]
  · intro s u n t hu ent
    subst hu
    refine ⟨fun one early => ?_, fun one late => ?_, fun two v hv => ?_⟩
    · show execQuiesceEnd n t s = _
      unfold execQuiesceEnd
      dsimp only
      rw [if_pos (by rw [ent, one, decide_eq_true early]; rfl)]
    · show execDrainTimeout n t s = _
      unfold execDrainTimeout
      dsimp only
      rw [if_pos (by rw [ent, one, decide_eq_true late]; rfl)]
    · show execSaveDone n t s = _
      unfold execSaveDone
      dsimp only
      rw [if_pos (by rw [ent, two]; rfl), ← hv] <;> rfl
  · intro s u n c t bad hu waking
    subst hu
    show execDomainReady n c bad t s = _
    unfold execDomainReady
    dsimp only
    rw [if_pos (by rw [waking]; rfl)]
  · intro s u v w c t bad hu low heavy hv hw
    subst hu hv hw
    show execBrownout c bad t s = _
    unfold execBrownout
    dsimp only
    rw [if_pos]
    rw [low, decide_eq_true heavy]
    rfl

end Sys2Proof.Machine
end

section
/-! SUPPORT. Sensors, the reef, keep-warm power and margins (R545 to R556, R560 to R562). -/

namespace Sys2Proof.Machine

/-! A sample of a spot (R546, R547) -/

section
variable (a b : Int) (x : Spot) (now : Nat)

/-- A spot with two readings just taken. -/
def Spot.sampled (x : Spot) : Spot :=
  Spot.apart ⟨some a, some b, now, now, x.governed, x.apartSince, x.withinSince, x.split, x.overSince⟩ now

theorem sampled_keeps :
    (x.sampled a b now).a = some a ∧ (x.sampled a b now).b = some b ∧ (x.sampled a b now).governed = x.governed ∧
      (x.sampled a b now).split = x.split ∧ (x.sampled a b now).overSince = x.overSince := by
  unfold Spot.sampled Spot.apart
  dsimp only
  split <;> exact ⟨rfl, rfl, rfl, rfl, rfl⟩

theorem governed_sampled (i : Nat) :
    governed i (x.sampled a b now) now =
      some (if x.split = true then max (max a b) (Config.spotEstimate i now) else max a b) := by
  obtain ⟨ha, hb, -, hs, -⟩ := sampled_keeps a b x now
  unfold governed
  dsimp only
  rw [ha, hb, hs]
end

theorem sensorLost_kept (s : State) (i : Nat) (before : Option Int) (a : Int) (first : Bool) :
    s.sensorLost i before (some a) first = s := rfl

theorem sensorSample_next {s u : State} {i : Fin 34} {a b v : Int} {t : Nat} (hu : u = s.tick t) (ha : goodReading a = true)
    (hb : goodReading b = true) (ni : i.val ≠ 32)
    (hv : v = if (u.spot i.val).split = true then max (max a b) (Config.spotEstimate i.val u.now) else max a b) :
    exec (.sensorSample i (some a) (some b) t) s = .next
      (((u.modSpot i.val fun _ => Spot.endSplit { (u.spot i.val).sampled a b u.now with
        governed := (v :: (u.spot i.val).governed).take 10,
        overSince := if isJunction i.val = true ∧ 1100 ≤ v then some ((u.spot i.val).overSince.getD u.now) else none } u.now).holdFor
          i.val).tripAt i.val v) := by
  obtain ⟨ya, yb, yg, ys, yo⟩ := sampled_keeps a b (u.spot i.val) u.now
  have g := governed_sampled a b (u.spot i.val) u.now i.val
  rw [← hv] at g
  subst hu
  show execSensorSample i (some a) (some b) t s = _
  unfold execSensorSample
  dsimp only
  simp only [ha, hb, if_true, Option.isSome_some]
  rw [← Spot.sampled, g]
  dsimp only
  rw [ya, yb, sensorLost_kept, sensorLost_kept, yg, yo]
  simp only [Bool.and_eq_true, decide_eq_true_eq]
  split
  · rw [if_neg ni]
  · rfl

theorem tripAt_trips {u w y : State} {i : Nat} {v : Int} (hj : isJunction i = true) (hot : 1050 ≤ v) (first : u.thermo.trip = false)
    (hw : w = { u with thermo := { u.thermo with trip := true } })
    (hy : y = ((foldS (fun s g => s.followStep g) ((w.setReef 3).inc Reg.thmTripCount) (upTo 16)).eventC 29 stOk i []).thermalRecord i) :
    u.tripAt i v = if y.start.dirReady = true then y else y.failStart 6 := by
  unfold State.tripAt
  rw [if_neg]
  · rw [hy, hw]
  · rintro (no | no | no)
    · rw [hj] at no
      exact nomatch no
    · omega
    · rw [first] at no
      exact nomatch no

/-! The reef (R549) -/

/-- Ten samples, all cool for a step down. -/
def coolFor (k : Nat) (hist : List (Int × Int)) : Bool :=
  hist.length == 10 && hist.all fun e => decide (e.1 < (reefThresholds k).1 - 30 ∧ e.2 < (reefThresholds k).2 - 30)

theorem coolFor_iff {k : Nat} {hist : List (Int × Int)} :
    coolFor k hist = true ↔
      hist.length = 10 ∧ ∀ e ∈ hist, e.1 < (reefThresholds k).1 - 30 ∧ e.2 < (reefThresholds k).2 - 30 := by
  unfold coolFor
  simp only [Bool.and_eq_true, beq_iff_eq, List.all_eq_true, decide_eq_true_eq]

theorem reefBoundary_next {s u v : State} {t k : Nat} {j m : Int} {hist : List (Int × Int)} (hu : u = s.tick t) (ht : t = u.now)
    (h0 : t % 10000000 = 0) (new : t ≠ u.thermo.lastBoundary) (hj : j = u.highest isJunction) (hm : m = u.highest isMemory)
    (hk : k = u.thermo.step) (hh : hist = ((j, m) :: u.thermo.history).take 10)
    (hv : v = { u with thermo := { u.thermo with history := hist, lastBoundary := t } }) :
    exec (.reefBoundary t) s = .next (foldS (fun s g => s.hankBoundary g)
      (if k < reefTarget j m then v.setReef (k + 1) else if coolFor k hist && k != 0 then v.setReef (k - 1) else v) (upTo 16)) := by
  subst hu hj hm hk hh
  show execReefBoundary t s = _
  unfold execReefBoundary
  dsimp only
  rw [if_neg, hv]
  · rfl
  · rintro (no | no | ⟨no, -⟩)
    · exact no ht
    · exact no h0
    · exact new no

/-- Settles O44, event by event. -/
theorem sensorsReefAndAgeing : Obligations.SensorsReefAndAgeing := by
  refine ⟨?_, ?_, ?_, ?_, ?_, ?_, ?_, ?_, ?_, ?_, ?_⟩
  · intro s u i a b v t x y hu hx ha hb ni hy hv
    subst hx hy
    exact sensorSample_next hu ha hb ni hv
  · intro u w y i v hj hot first hw hy
    exact tripAt_trips hj hot first hw hy
  · intro s u v i t a hu ha fresh late hv
    subst hu hv
    show execSensorSplit i t s = _
    unfold execSensorSplit
    dsimp only
    rw [ha]
    dsimp only
    rw [if_neg]
    rw [fresh, decide_eq_false (Nat.not_lt.2 late)]
    decide
  · intro s u i t hu
    subst hu
    refine ⟨fun some_ late => ?_, fun some_ late => ?_⟩
    · show execSensorFail i false t s = _
      unfold execSensorFail
      dsimp only
      rw [if_neg]
      · rfl
      · rw [if_neg Bool.false_ne_true, if_neg Bool.false_ne_true, Option.isNone_eq_false_iff.2 some_, decide_eq_false (Nat.not_lt.2 late)]
        decide
    · show execSensorFail i true t s = _
      unfold execSensorFail
      dsimp only
      rw [if_neg]
      · rfl
      · rw [if_pos rfl, if_pos rfl, Option.isNone_eq_false_iff.2 some_, decide_eq_false (Nat.not_lt.2 late)]
        decide
  · intro s u t a hu ha unsent late
    subst hu
    show execCoolantHot t s = _
    unfold execCoolantHot
    dsimp only
    conv_lhs => rw [ha]
    dsimp only
    rw [if_neg]
    · rw [← ha]
    · rw [unsent, decide_eq_false (Nat.not_lt.2 late)]
      decide
  · intro s u v t k j m hist hu ht h0 new hj hm hk hh hv
    rw [reefBoundary_next hu ht h0 new hj hm hk hh hv]
    refine ⟨fun up => ?_, fun le nz len cool => ?_, fun le no => ?_⟩
    · rw [if_pos up]
    · rw [if_neg (by omega), if_pos]
      rw [coolFor_iff.2 ⟨len, cool⟩]
      simpa using nz
    · rw [if_neg (by omega), if_neg]
      rw [Bool.and_eq_true, coolFor_iff, bne_iff_ne]
      rintro ⟨⟨len, cool⟩, nz⟩
      rcases no with z | z | ⟨e, he, z⟩
      · exact nz z
      · exact z len
      · have := cool e he
        omega
  · intro s u v t i a hu hi ha late open_ hv
    subst hu hv
    show execThermalShutdown t s = _
    unfold execThermalShutdown
    dsimp only
    rw [if_neg]
    rw [Bool.or_eq_true, not_or, Bool.not_eq_true', Bool.not_eq_false, open_]
    refine ⟨List.any_eq_true.2 ⟨i, mem_upTo.2 hi, ?_⟩, Bool.false_ne_true⟩
    rw [ha]
    exact decide_eq_true late
  · intro s u h v hr
    have key : exec (.thmKeepWarm h v) s = execThmKeepWarm h v s := rfl
    rw [key, execThmKeepWarm, writes_next hr]
    unfold State.keepWarmWrite
    refine ⟨fun low => ?_, fun high => ?_⟩
    · rw [if_neg (by omega)]
      rfl
    · rw [if_pos high]
      rfl
  · intro s u g t p hu hp on idle may due
    subst hu
    show execRotation g t s = _
    unfold execRotation
    dsimp only
    rw [hp]
    dsimp only
    rw [if_neg]
    rw [on, idle, may]
    rintro (no | no | no | no)
    · exact nomatch no
    · exact nomatch no
    · exact nomatch no
    · exact Nat.not_lt.2 due no
  · intro s u h ms hr nz
    have plan : bit (u.reg Reg.thmRemarginCtrl % 256 + 256) 8 = true := by
      unfold bit
      rw [show (u.reg Reg.thmRemarginCtrl % 256 + 256) / 2 ^ 8 = 1 by omega]
      rfl
    show execNow h ms s = _
    rw [execNow, writes_next hr]
    unfold State.remarginWrite
    rw [plan, show (u.reg Reg.thmRemarginCtrl % 256 + 256) % 256 = u.reg Reg.thmRemarginCtrl % 256 by omega, if_neg nz]
    rfl
  · intro s u ms t hu due
    subst hu
    show execMarginReplan ms t s = _
    unfold execMarginReplan
    dsimp only
    rw [if_neg (Nat.not_lt.2 due)]

end Sys2Proof.Machine
end

section
/-! SUPPORT. Lines of module memory: reads and writes (R146, R157 to R160, R170, R171), retirement, the patrol, the error log and
the scratch scrubber (R91, R92, R165 to R169, R173). -/

namespace Sys2Proof.Machine

/-! One line read (R157 to R159) -/

theorem alignDown_line (a : Nat) : alignDown a 64 / 64 = a / 64 := by unfold alignDown; omega

/-- The line that an address addresses is addressed by its first byte. -/
theorem lineAt_aligned {a u x : Nat} (h : lineAt a = some (u, x)) : lineAt (a / 64 * 64) = some (u, x / 64 * 64) := by
  unfold lineAt at h ⊢
  split at h
  · rename_i v y e
    obtain ⟨hy, hd⟩ := unitOf_div e
    split at h
    · cases h
      rw [hd (a / 64 * 64) (by omega)]
      dsimp only
      rw [if_pos (by omega), show a / 64 * 64 % 2 ^ 36 = x / 64 * 64 by omega]
    · exact nomatch h
  · exact nomatch h

theorem lineAt_unit {a u x : Nat} (h : lineAt a = some (u, x)) : u < 20 ∧ x < usable u ∧ unitOf a = some (u, x) := by
  unfold lineAt at h
  split at h
  · rename_i v y e
    split at h
    · cases h
      exact ⟨unitOf_lt e, ‹_›, e⟩
    · exact nomatch h
  · exact nomatch h

/-- A corrected line: counted, logged when CE logging is on, its write-back queued once (R158, R171). -/
def State.settleCorrected (w : State) (u mpa m c cls : Nat) (o : LineResult × Nat × List Nat) (patrol : Bool) : State :=
  let y := (w.takeForged mpa o.2.2).countMem u mpa Reg.memCeCount Reg.memPartCeCount
  (if bit (w.reg (Reg.memScrubCtrl m c)) 1 then y.logErr u mpa cls o.2.1 patrol else y).modUnit u fun z => { z with
    writebacks := if z.writebacks.contains (mpa / 64) then z.writebacks else z.writebacks ++ [mpa / 64] }

/-- What a line read does with what the code and the tag make of its symbols. -/
def State.settleLine (w : State) (u x mpa m c : Nat) (o : LineResult × Nat × List Nat) (f : ReadErr) (patrol : Bool) : Nat × State :=
  match o.1 with
  | .good => (stOk, w.takeForged mpa o.2.2)
  | .corrected => (stOk, w.settleCorrected u mpa m c 1 o patrol)
  | .retried => (stOk, w.settleCorrected u mpa m c 2 o patrol)
  | .tagFail =>
    (stMemTagFail, ((((w.countMem u mpa Reg.memTagFailCount Reg.memPartTagFailCount).logErr u mpa 4 0 patrol).memRecord mpa
      stMemTagFail)).modUnit u fun y => { y with bad := mput y.bad (mpa / 64) f })
  | .uncorrectable =>
    let y := ((w.countMem u mpa Reg.memUeCount Reg.memPartUeCount).logErr u mpa 3 0 patrol).memRecord mpa stMemUncorr
    (stMemUncorr, (if bit (y.reg (Reg.memRetireThresh m c)) 8 then y.qualify u (x / 4096) patrol else y).modUnit u fun y =>
      { y with bad := mput y.bad (mpa / 64) f })

section
variable {v : State} {mpa u x : Nat} {e : ReadErr} {patrol : Bool} (hl : lineAt mpa = some (u, x))
include hl

theorem readLine_settles (free : bit (v.ownByte u (x / granule)) 5 = false) {m c : Nat} (hc : (m, c) = ctlOf u) :
    v.readLine mpa e patrol = (v.tagAccess u mpa false).settleLine u x mpa m c
      (v.outcome mpa patrol ((mget (v.unit u).bad (mpa / 64)).getD e)) ((mget (v.unit u).bad (mpa / 64)).getD e) patrol := by
  unfold State.readLine
  rw [hl]
  dsimp only
  rw [if_neg (by rw [free]; decide), ← hc]
  rfl

theorem readLine_whipped (held : bit (v.ownByte u (x / granule)) 5 = true) : v.readLine mpa e patrol = (stAddrInvalid, v) := by
  unfold State.readLine
  rw [hl]
  dsimp only
  rw [if_pos held]
end

theorem outcome_checked (v : State) (a : Nat) (f : ReadErr) : v.outcome a false f = readResult (v.keysAt a) true f := rfl

/-- What LINE_READ delivers of what the read of its line gives. -/
def State.delivers (r : Nat × State) (a : Nat) : State := r.2.send (.line a r.1 (if r.1 = stOk then r.2.lineBytes a else []))

theorem delivers_ok (z : State) (a : Nat) : State.delivers (stOk, z) a = z.send (.line a stOk (z.lineBytes a)) := rfl

theorem delivers_fail {st : Nat} (ne : st ≠ stOk) (z : State) (a : Nat) : State.delivers (st, z) a = z.send (.line a st []) := by
  unfold State.delivers
  rw [if_neg ne]

theorem lineRead_next {s v : State} {mpa t u x : Nat} {e : ReadErr} (hl : lineAt mpa = some (u, x))
    (hv : v = (s.tick t).reach (unitDom u) 0xC1) :
    exec (.lineRead mpa e t) s = .next (State.delivers (v.readLine (mpa / 64 * 64) e false) (mpa / 64 * 64)) := by
  subst hv
  show execLineRead mpa e t s = _
  unfold execLineRead
  rw [hl]
  rfl

theorem ownByte_reached (s : State) (t n u k : Nat) : ((s.tick t).reach n 0xC1).ownByte u k = s.ownByte u k := by
  unfold State.ownByte
  rw [reach_same (s.tick t) n 0xC1 (f := .owners) (by decide)]
  rfl

/-! A write of lines (R160) -/

theorem lineWrite_next {s v : State} {mpa t u x : Nat} {e1 e2 : ReadErr} {data : List Byte} (hl : lineAt mpa = some (u, x))
    (fit : x + data.length ≤ usable u) (b1 : bit (s.ownByte u (x / granule)) 5 = false)
    (b2 : bit (s.ownByte u ((x + data.length - 1) / granule)) 5 = false) (hv : v = (s.tick t).reach (unitDom u) 0xC1) :
    exec (.lineWrite mpa data e1 e2 t) s =
      .next ((v.writeMpa mpa data [(mpa / 64, e1), ((mpa + data.length - 1) / 64, e2)]).2.send
        (.line mpa (v.writeMpa mpa data [(mpa / 64, e1), ((mpa + data.length - 1) / 64, e2)]).1 [])) := by
  subst hv
  show execLineWrite mpa data e1 e2 t s = _
  unfold execLineWrite
  rw [hl]
  dsimp only
  have b1' : bit ((s.tick t).ownByte u (x / granule)) 5 = false := b1
  have b2' : bit ((s.tick t).ownByte u ((x + data.length - 1) / granule)) 5 = false := b2
  rw [if_neg (by omega), b1', b2']
  rfl

theorem writeMpa_whole {v : State} {mpa : Nat} {data : List Byte} {errs : List (Nat × ReadErr)} (ne : data ≠ [])
    (h1 : mpa % 64 = 0) (h2 : data.length % 64 = 0) :
    v.writeMpa mpa data errs = (stOk, (v.storedLines mpa data.length).poke mpa data) := by
  have pos : 0 < data.length := List.length_pos_iff.2 ne
  have parts : partLines mpa data.length = [] := by
    unfold partLines
    dsimp only
    rw [if_neg (by simp; omega), if_neg (by simp; omega)]
    rfl
  unfold State.writeMpa
  rw [if_neg (by simpa using ne), parts]
  rfl

theorem writeMpa_within {v : State} {mpa : Nat} {data : List Byte} {e : ReadErr} {errs : List (Nat × ReadErr)} (ne : data ≠ [])
    (h : mpa % 64 + data.length < 64) :
    v.writeMpa mpa data ((mpa / 64, e) :: errs) =
      if (v.readLine (mpa / 64 * 64) e false).1 = stOk
      then (stOk, ((v.readLine (mpa / 64 * 64) e false).2.storedLines mpa data.length).poke mpa data)
      else v.readLine (mpa / 64 * 64) e false := by
  have pos : 0 < data.length := List.length_pos_iff.2 ne
  have parts : partLines mpa data.length = [mpa / 64 * 64] := by
    unfold partLines
    dsimp only
    rw [if_pos (by simp; omega), if_neg (by simp; omega)]
    rfl
  have err : errFor ((mpa / 64, e) :: errs) (mpa / 64 * 64) = e := by
    unfold errFor
    rw [List.find?_cons_of_pos (by simp)]
    rfl
  have check : v.checkLines [mpa / 64 * 64] ((mpa / 64, e) :: errs) = v.readLine (mpa / 64 * 64) e false := by
    unfold State.checkLines
    rw [err]
    dsimp only
    unfold State.checkLines
    generalize v.readLine (mpa / 64 * 64) e false = r
    obtain ⟨st, z⟩ := r
    dsimp only
    by_cases ok : st = stOk
    · rw [if_pos ok, ok]
    · rw [if_neg ok]
  unfold State.writeMpa
  rw [if_neg (by simpa using ne), parts, check]
  dsimp only
  by_cases ok : (v.readLine (mpa / 64 * 64) e false).1 = stOk
  · rw [if_neg (fun no => no ok), if_pos ok]
  · rw [if_pos ok, if_neg ok]

/-- Settles O45, by what the code and the tag make of the line. -/
theorem memoryLinesAreChecked : Obligations.MemoryLinesAreChecked := by
  refine ⟨?_, ?_, ?_, ?_, ?_⟩
  · intro s mpa t e e2 data none_
    refine ⟨?_, ?_, fun other => ?_⟩
    · show execLineRead mpa e t s = _
      unfold execLineRead
      rw [none_]
    · show execLineWrite mpa data e e2 t s = _
      unfold execLineWrite
      rw [none_]
    · show execCorrectionWriteback mpa s = _
      unfold execCorrectionWriteback
      unfold lineAt at none_
      split at none_
      · rename_i u x hu
        have out : usable u ≤ x := by
          by_contra lt
          rw [if_pos (by omega)] at none_
          exact nomatch none_
        rw [hu]
        dsimp only
        rw [if_pos (by rw [decide_eq_true out, other]; rfl)]
      · rename_i hu
        rw [hu]
  · intro s v mpa t u x a e hl whip hv ha
    subst ha
    have whip' : bit (v.ownByte u (x / 64 * 64 / granule)) 5 = true := by
      rw [hv, ownByte_reached, show x / 64 * 64 / granule = x / granule by unfold granule; omega, whip]
    rw [lineRead_next hl hv, readLine_whipped (lineAt_aligned hl) whip', delivers_fail (by decide)]
  · intro s v w mpa t u x a m c e f o hl free hv ha hc hf ho hw
    have free' : bit (v.ownByte u (x / 64 * 64 / granule)) 5 = false := by
      rw [hv, ownByte_reached, show x / 64 * 64 / granule = x / granule by unfold granule; omega, free]
    have line : a / 64 = mpa / 64 := by omega
    have key : exec (.lineRead mpa e t) s = .next (State.delivers (w.settleLine u (x / 64 * 64) a m c o f false) a) := by
      rw [lineRead_next hl hv, ← ha, readLine_settles (ha ▸ lineAt_aligned hl) free' hc, line, outcome_checked, ← hf, ← ho, ← hw]
    rw [key]
    unfold State.settleLine
    refine ⟨fun good z hz => ?_, fun cls y z fixed hy hz => ?_, fun fail => ?_, fun fail y hy => ?_⟩
    · rw [good]
      dsimp only
      rw [delivers_ok, hz]
    · have settled : z = w.settleCorrected u a m c cls o false := by
        unfold State.settleCorrected
        rw [hz, hy, line]
      obtain ⟨st, rfl⟩ | ⟨st, rfl⟩ := fixed <;>
      · rw [st]
        dsimp only
        rw [delivers_ok, settled]
    · rw [fail]
      dsimp only
      rw [delivers_fail (by decide), line]
    · rw [fail]
      dsimp only
      rw [delivers_fail (by decide), line, ← hy, show x / 64 * 64 / 4096 = x / 4096 by omega]
  · intro s v mpa t u x e1 e2 data hl ne fit b1 b2 hv
    have key := lineWrite_next (e1 := e1) (e2 := e2) hl fit b1 b2 hv
    refine ⟨fun h1 h2 => ?_, fun within r hr => ⟨fun fail => ?_, fun good => ?_⟩⟩
    · rw [key, writeMpa_whole ne h1 h2]
    · rw [key, writeMpa_within ne within, ← hr, if_neg fail]
    · rw [key, writeMpa_within ne within, ← hr, if_pos good]
  · intro s mpa u x hu place
    show execCorrectionWriteback mpa s = _
    unfold execCorrectionWriteback
    rw [hu]
    dsimp only
    rw [if_neg]
    rw [Bool.and_eq_true, decide_eq_true_eq, Bool.not_eq_true']
    rintro ⟨h1, h2⟩
    rcases place with p | p
    · omega
    · rw [p] at h2
      exact nomatch h2

/-! Retirement, the patrol, the log and the scrubber -/

theorem unit_modUnit_self (s : State) (u : Nat) (f : MemUnit → MemUnit) : (s.modUnit u f).unit u = f (s.unit u) :=
  mgetD_mput_self _ _ _ _

theorem blockRetire_next {s v : State} {u : Fin 20} {k t : Nat} {x : MemUnit} (hx : x = s.unit u.val) (due : x.due.contains k = true)
    (hv : v = (s.tick t).modUnit u.val fun y => { y with due := y.due.erase k }) :
    exec (.blockRetire u k t) s = .next
      (if (mget x.retired k).isSome then v.logErr u.val (unitBase u.val + k * 4096) 7 0 false
      else if 4096 ≤ x.spares then
        if x.full.contains k then v
        else (v.modUnit u.val fun y => { y with full := k :: y.full }).logErr u.val (unitBase u.val + k * 4096) 6 0 false
      else (v.modUnit u.val fun y => { y with retired := mput y.retired k y.spares, spares := y.spares + 1 }).logErr u.val
        (unitBase u.val + k * 4096) 5 0 false) := by
  subst hx hv
  show execBlockRetire u k t s = _
  unfold execBlockRetire
  dsimp only
  rw [if_neg]
  · rfl
  · rw [show ((s.tick t).unit u.val).due.contains k = true from due]
    decide

section
variable {s v : State} {u : Fin 20} {e : ReadErr} {t i m c : Nat} (hv : v = s.tick t) (hc : (m, c) = ctlOf u.val)
  (enabled : bit (v.reg (Reg.memScrubCtrl m c)) 0 = true) (on : v.woken = true → (v.dom (unitDom u.val)).state = .on)
  (hi : i = (v.unit u.val).patrol)
include hv hc enabled on hi

/-- A patrol read that is enabled and whose domain is on reads its line and moves on (R168, R169). -/
theorem patrolRead_next {w : State}
    (hw : w = if i < usable u.val / 64 then v.patrolData u.val i e else v.patrolTag u.val (i - usable u.val / 64) e) :
    exec (.patrolRead u e t) s = .next
      (if i + 1 < patrolLines u.val then w.modUnit u.val fun y => { y with patrol := i + 1 }
      else w.modUnit u.val fun y => { y with patrol := 0, passCe := [], passDue := [], passes := y.passes + 1 }) := by
  subst hv hi hw
  show execPatrolRead u e t s = _
  unfold execPatrolRead
  dsimp only
  rw [← hc]
  dsimp only
  rw [if_neg]
  rw [enabled, Bool.not_true, Bool.false_or, Bool.and_eq_true, bne_iff_ne]
  exact fun ⟨h1, h2⟩ => h2 (on h1)
end

theorem dataLine_inner {u i : Nat} (h : i < usable u / 64) : i + 1 < patrolLines u := by
  have tags : 0 < tagLines u := by
    unfold tagLines usable
    split <;> decide
  unfold patrolLines
  omega

section
variable {v : State} {u i m c : Nat} {e f : ReadErr} {o : LineResult} (hc : (m, c) = ctlOf u)
  (hf : f = (mget (v.unit u).bad ((unitBase u + 64 * i) / 64)).getD e) (ho : o = (v.outcome (unitBase u + 64 * i) true f).1)
include hc hf ho

theorem patrolData_plain
    (no : (v.readLine (unitBase u + 64 * i) e true).1 ≠ stOk ∨ o ≠ .corrected ∧ o ≠ .retried) :
    v.patrolData u i e = (v.readLine (unitBase u + 64 * i) e true).2 := by
  unfold State.patrolData
  rw [← hc]
  dsimp only
  rw [← hf, ← ho, if_neg]
  rintro ⟨h1, h2⟩
  rcases no with n | ⟨n1, n2⟩
  · exact n h1
  · exact h2.elim n1 n2

theorem patrolData_corrected (fixed : o = .corrected ∨ o = .retried) {w z : State} {n : Nat}
    (hw : v.readLine (unitBase u + 64 * i) e true = (stOk, w))
    (hn : n = nget (w.unit u).passCe (blockOf (unitBase u + 64 * i)) + 1)
    (hz : z = w.modUnit u fun y => { y with passCe := nput y.passCe (blockOf (unitBase u + 64 * i)) n }) :
    v.patrolData u i e =
      if w.reg (Reg.memRetireThresh m c) % 256 < n ∧ (w.unit u).passDue.contains (blockOf (unitBase u + 64 * i)) = false
      then (z.modUnit u fun y => { y with passDue := blockOf (unitBase u + 64 * i) :: y.passDue }).qualify u
        (blockOf (unitBase u + 64 * i)) true
      else z := by
  have noted : (z.unit u).passDue = (w.unit u).passDue := by rw [hz, unit_modUnit_self]
  have counts : z.reg (Reg.memRetireThresh m c) = w.reg (Reg.memRetireThresh m c) := by
    rw [hz]
    rfl
  unfold State.patrolData
  rw [← hc]
  dsimp only
  rw [← hf, ← ho, hw, if_pos ⟨rfl, fixed⟩]
  dsimp only
  rw [← hn, ← hz, noted, counts]
  simp only [Bool.and_eq_true, decide_eq_true_eq, Bool.not_eq_true']
end

/-- A corrected tag line: counted, logged when CE logging is on, its write-back queued once (R168, R170). -/
def State.tagCorrected (s : State) (u m c mpa own cls n : Nat) : State :=
  let w := s.inc (Reg.memCeCount m c)
  (if bit (w.reg (Reg.memScrubCtrl m c)) 1 then w.logAt u mpa own cls (min 2 n) true else w).modUnit u fun y => { y with
    writebacks := if y.writebacks.contains (mpa / 64) then y.writebacks else y.writebacks ++ [mpa / 64] }

section
variable {s : State} {u m c j mpa : Nat} {e f : ReadErr} {x : SymErrs} (hc : (m, c) = ctlOf u)
  (hm : mpa = unitBase u + usable u + 64 * j) (hf : f = (mget (s.unit u).bad (mpa / 64)).getD e)
include hc hm hf

theorem patrolTag_good (h : rsDecode 72 8 f.first = some []) : s.patrolTag u j e = s := by
  unfold State.patrolTag
  rw [← hc]
  dsimp only
  rw [← hm, ← hf, h]

theorem patrolTag_first (h : rsDecode 72 8 f.first = some x) (ne : x ≠ []) :
    s.patrolTag u j e = s.tagCorrected u m c mpa (unitBase u + 1024 * j) 1 x.length := by
  obtain ⟨a, l, rfl⟩ := List.exists_cons_of_ne_nil ne
  unfold State.patrolTag
  rw [← hc]
  dsimp only
  rw [← hm, ← hf, h]
  rfl

theorem patrolTag_second (h1 : rsDecode 72 8 f.first = none) (h2 : rsDecode 72 8 f.second = some x) :
    s.patrolTag u j e = s.tagCorrected u m c mpa (unitBase u + 1024 * j) 2 x.length := by
  unfold State.patrolTag
  rw [← hc]
  dsimp only
  rw [← hm, ← hf, h1]
  dsimp only
  rw [h2]
  rfl

theorem patrolTag_lost (h1 : rsDecode 72 8 f.first = none) (h2 : rsDecode 72 8 f.second = none) {w : State}
    (hw : w = (s.inc (Reg.memUeCount m c)).logAt u mpa (unitBase u + 1024 * j) 3 0 true) :
    s.patrolTag u j e =
      (w.fsr { w.record 3 (if s.ownerAt (unitBase u + 1024 * j) < 16 then some (s.ownerAt (unitBase u + 1024 * j)) else none) with
        status := some stMemUncorr, mpa := some mpa }).modUnit u fun y => { y with bad := mput y.bad (mpa / 64) f } := by
  unfold State.patrolTag
  rw [← hc]
  dsimp only
  rw [← hm, ← hf, h1]
  dsimp only
  rw [h2, hw]
end

theorem errPop_pops {u : State} {m v : Nat} {a : MemErr} {r : List MemErr} (one : v % 2 = 1) (hl : mgetD u.errLogs m [] = a :: r)
    (old : a.time * 4 / 5 ≠ u.now * 4 / 5) : u.errPop m v = { u with errLogs := mput u.errLogs m r } := by
  unfold State.errPop
  dsimp only
  rw [hl]
  dsimp only
  rw [if_pos]
  · rfl
  · simp [one, old]

theorem errPop_keeps_log {u : State} {m v : Nat} (h : v % 2 = 0 ∨ mgetD u.errLogs m [] = [] ∨
    ∃ a r, mgetD u.errLogs m [] = a :: r ∧ a.time * 4 / 5 = u.now * 4 / 5) : u.errPop m v = u := by
  unfold State.errPop
  dsimp only
  rw [if_neg]
  rcases h with z | z | ⟨a, r, z, same⟩
  · simp [z]
  · simp [z]
  · simp [z, same]

/-- Settles O46, by the block, the line and the entry that each finds. -/
theorem blocksRetireAndPatrolsCorrect : Obligations.BlocksRetireAndPatrolsCorrect := by
  refine ⟨?_, ?_, ?_, ?_, ?_, fun _ _ _ => rfl⟩
  · intro s v u k t x hx due hv
    rw [blockRetire_next hx due hv]
    refine ⟨fun n worn => ?_, fun new spare => ?_, fun new none_ first => ?_, fun new none_ known => ?_⟩
    · rw [worn]
      rfl
    · rw [new, if_neg (show ¬(none : Option Nat).isSome = true from Bool.false_ne_true), if_neg (by omega)]
    · rw [new, if_neg (show ¬(none : Option Nat).isSome = true from Bool.false_ne_true), if_pos none_, if_neg (by rw [first]; decide)]
    · rw [new, if_neg (show ¬(none : Option Nat).isSome = true from Bool.false_ne_true), if_pos none_, if_pos known]
  · intro s v u e t i m c mpa f o hv hc enabled on hi hm hf ho
    subst hm
    have key {w : State} := patrolRead_next (w := w) (e := e) hv hc enabled on hi
    refine ⟨fun data w hw no => ?_, fun data fixed w n z hw hn hz => ?_, fun tag w hw => ⟨fun more => ?_, fun last => ?_⟩⟩
    · rw [key (w := w.2), if_pos (dataLine_inner data)]
      rw [if_pos data, hw]
      exact (patrolData_plain hc hf ho (hw ▸ no)).symm
    · rw [key ((if_pos data).trans (patrolData_corrected hc hf ho fixed hw hn hz)).symm, if_pos (dataLine_inner data)]
    · rw [key (w := w) (by rw [if_neg (by omega), hw]), if_pos more]
    · rw [key (w := w) (by rw [if_neg (by omega), hw]), if_neg (by omega)]
  · intro s w u m c j mpa e f hc hm hf
    refine ⟨patrolTag_good hc hm hf, fun x l cls hw fixed hl => ?_, fun h1 h2 l hl hw => ?_⟩
    · subst hw hl
      obtain ⟨h, ne, rfl⟩ | ⟨h1, h2, rfl⟩ := fixed
      · exact patrolTag_first hc hm hf h ne
      · exact patrolTag_second hc hm hf h1 h2
    · subst hl
      exact patrolTag_lost hc hm hf h1 h2 hw
  · intro s u h m v hr
    have key : exec (.memErrPop h m v) s = .next ((u.errPop m.val v.toNat).reply h.session h.seq stOk []) := by
      show execMemErrPop h m v s = _
      rw [execMemErrPop, writes_next hr]
      rfl
    refine ⟨fun a r one hl old => ?_, fun no => ?_⟩
    · rw [key, errPop_pops one hl old]
    · rw [key, errPop_keeps_log no]
  · intro s v st n line enabled hl hv
    have scrubbed : exec (.scrubRead st n) s = .next (if line + 1 < 32768 then v.modStrand st.val fun x => { x with scrubLine := line + 1 }
        else v.modStrand st.val fun x => { x with scrubLine := 0, passes := (x.passes + 1) % 2 ^ 32 }) := by
      subst hl hv
      show execScrubRead st n s = _
      unfold execScrubRead
      dsimp only
      rw [if_neg (by rw [enabled]; decide)]
      match n with
      | 0 => rfl
      | 1 => rfl
      | n + 2 => rfl
    rw [scrubbed]
    refine ⟨fun more => ?_, fun last => ?_⟩
    · rw [if_pos more]
    · rw [if_neg (by omega)]

end Sys2Proof.Machine
end

section
/-! SUPPORT. Arbitration at a Fairlead point (R177, R179, R182 to R188, R192, R194). -/

namespace Sys2Proof.Machine

/-- A background grant of the same cycle yields to a request of the slot's owner (R185). -/
def Point.yielding (x : Point) (u : State) (f t c o : Nat) (idle : Bool) : Point :=
  match x.grant with
  | some g => if g.background && g.start == c && !idle && u.slotOwner f t c == o then x.withdraw g else x
  | none => x

theorem fairleadRequest_next {s u : State} {a : FPoint} {r : FReq} {c o : Nat} {idle : Bool} {x : Point} (h1 : a.point < 34)
    (h2 : 0 < r.bytes) (h3 : r.bytes ≤ 4096)
    (hu : u = ((s.tick (cycleNs c)).refresh a.inst.val a.point c).reach (pointDom a.inst.val a.point)
      (match r.dom with | some d => 0x80 + d.val | none => 0xC1)) (hx : x = u.point a.inst.val a.point)
    (unmasked : u.isMasked (r.dom.map (fun d => d.val), r.func) c = false) (new : ∀ q ∈ x.requests, q.requester ≠ r.requester)
    (ho : (o, idle) = u.trafficOwner r.traffic) :
    exec (.fairleadRequest a r c) s =
      .next (u.setPoint a.inst.val a.point { x.yielding u a.inst.val (tableOf a.inst.val a.point) c o idle with
        sources := mput (x.yielding u a.inst.val (tableOf a.inst.val a.point) c o idle).sources r.requester
          (r.dom.map (fun d => d.val), r.func),
        requests := (x.yielding u a.inst.val (tableOf a.inst.val a.point) c o idle).requests ++
          [⟨r.requester, o, transferCycles a.inst.val (tableOf a.inst.val a.point) r.bytes, c, idle⟩] }) := by
  show execFairleadRequest a r c s = _
  unfold execFairleadRequest
  dsimp only
  have fresh : (x.requests.any fun q => q.requester == r.requester) = false :=
    List.any_eq_false.2 fun q hq => by simpa using new q hq
  rw [if_neg (by omega)]
  cases hd : r.dom with
  | none =>
    simp only [hd] at hu unmasked
    dsimp only
    rw [← hu, ← hx, unmasked, fresh, if_neg (by decide), ← ho]
    rfl
  | some d =>
    simp only [hd] at hu unmasked
    dsimp only
    rw [← hu, ← hx, unmasked, fresh, if_neg (by decide), ← ho]
    rfl

/-- The request that is granted next: the one next in the fixed order, where it is the one named (R183). -/
def pickOf (requester : Nat) (l : List Request) (last : Nat) : Option Request :=
  match roundRobin last (l.map fun r => r.requester) with
  | some q => if q == requester then l.find? fun r => r.requester == q else none
  | none => none

theorem pickOf_next {q last : Nat} {l : List Request} {r : Request} (h : roundRobin last (l.map fun r => r.requester) = some q)
    (hr : (l.find? fun r => r.requester == q) = some r) : pickOf q l last = some r := by
  unfold pickOf
  rw [h]
  dsimp only
  rw [if_pos (by simp), hr]

theorem fairleadGrant_next {s u : State} {a : FPoint} {q c : Nat} {x : Point} (h1 : a.point < 34)
    (on : (s.tick (cycleNs c)).pointOn a.inst.val a.point = true) (hu : u = (s.tick (cycleNs c)).refresh a.inst.val a.point c)
    (hx : x = u.point a.inst.val a.point) :
    exec (.fairleadGrant a q c) s = .next
      (if !(u.dueNow a.inst.val a.point c x).isEmpty then
        ((pickOf q (u.dueNow a.inst.val a.point c x) (nget x.lastOwner (u.slotOwner a.inst.val (tableOf a.inst.val a.point) c))).elim u
          fun r => u.giveGrant a.inst.val a.point c r false)
      else (pickOf q (u.backNow a.inst.val a.point c x) x.lastBack).elim u fun r => u.giveGrant a.inst.val a.point c r true) := by
  have choose (p : Option Request) (f : Request → State) : (match p with | some r => f r | none => u) = p.elim u f := by
    cases p <;> rfl
  show execFairleadGrant a q c s = _
  unfold execFairleadGrant
  dsimp only
  rw [if_neg (by rw [on]; simp; omega), ← hu, ← hx, ← choose, ← choose] <;> rfl

/-- Whether a further transfer of n cycles keeps the point: within the slot, or within its owner's run of slots (R187). -/
def keepsPoint (u : State) (f t c n slot : Nat) (g : Grant) : Prop :=
  (g.background = true ∧ c + n ≤ slot + slotLen f t) ∨
    (g.background = false ∧ g.owner = u.slotOwner f t c ∧ c + n ≤ State.runEnd 512 u f t g.owner slot)

theorem keepsPoint_iff {u : State} {f t c n slot : Nat} {g : Grant} :
    (if g.background then decide (c + n ≤ slot + slotLen f t)
      else g.owner == u.slotOwner f t c && decide (c + n ≤ State.runEnd 512 u f t g.owner slot)) = true ↔
    keepsPoint u f t c n slot g := by
  unfold keepsPoint
  cases g.background <;> simp

theorem transferDone_last {s u : State} {a : FPoint} {c : Nat} {x : Point} {g : Grant}
    (hu : u = (s.tick (cycleNs c)).refresh a.inst.val a.point c) (hx : x = u.point a.inst.val a.point) (hg : x.grant = some g)
    (done : g.finish ≤ c) :
    exec (.transferDone a g.requester none c) s = .next (u.setPoint a.inst.val a.point
      { { x with losses := mdel x.losses g.requester } with
        grant := none, freed := mput x.freed g.owner c, requests := x.requests.filter fun r => r.requester != g.requester }) := by
  show execTransferDone a g.requester none c s = _
  unfold execTransferDone
  dsimp only
  rw [← hu, ← hx]
  conv_lhs => rw [hg]
  dsimp only
  rw [if_neg (by simp; exact done)]

theorem transferDone_more {s u : State} {a : FPoint} {c m n slot : Nat} {x : Point} {g : Grant}
    (hu : u = (s.tick (cycleNs c)).refresh a.inst.val a.point c) (hx : x = u.point a.inst.val a.point) (hg : x.grant = some g)
    (done : g.finish ≤ c) (h1 : 0 < m) (h2 : m ≤ 4096) (hn : n = transferCycles a.inst.val (tableOf a.inst.val a.point) m)
    (hs : slot = c / slotLen a.inst.val (tableOf a.inst.val a.point) * slotLen a.inst.val (tableOf a.inst.val a.point)) :
    (keepsPoint u a.inst.val (tableOf a.inst.val a.point) c n slot g →
      exec (.transferDone a g.requester (some m) c) s = .next (u.setPoint a.inst.val a.point
        { { x with losses := mdel x.losses g.requester } with
          requests := x.requests.map fun r => if r.requester == g.requester then { r with cycles := n, raised := c } else r,
          grant := some { g with start := c, finish := c + n } })) ∧
    (¬keepsPoint u a.inst.val (tableOf a.inst.val a.point) c n slot g →
      exec (.transferDone a g.requester (some m) c) s = .next (u.setPoint a.inst.val a.point
        { { x with losses := mdel x.losses g.requester } with
          requests := x.requests.map fun r => if r.requester == g.requester then { r with cycles := n, raised := c } else r,
          grant := none, freed := mput x.freed g.owner c })) := by
  have key : exec (.transferDone a g.requester (some m) c) s = execTransferDone a g.requester (some m) c s := rfl
  rw [key]
  unfold execTransferDone
  dsimp only
  rw [← hu, ← hx, ← hn, ← hs]
  refine ⟨fun goes => ?_, fun ends => ?_⟩
  · conv_lhs => rw [hg]
    dsimp only
    rw [if_neg (by simp; exact done), keepsPoint_iff.2 goes, if_pos (by rw [decide_eq_true ⟨h1, h2⟩]; rfl)]
  · conv_lhs => rw [hg]
    dsimp only
    rw [if_neg (by simp; exact done), if_neg]
    rw [Bool.and_eq_true, keepsPoint_iff]
    exact fun no => ends no.1

theorem starvation_quiet {s u v w : State} {a : FPoint} {o c : Nat} {x : Point}
    (hu : u = (s.tick (cycleNs c)).refresh a.inst.val a.point c) (hx : x = u.point a.inst.val a.point) (ho : o < 16)
    (starved : u.starveLimit a.inst.val (tableOf a.inst.val a.point) o (nget x.starveFrom o) < nget x.starve o)
    (new : x.starved.contains o = false) (reports : bit (u.fldCtrl a.inst.val (tableOf a.inst.val a.point) c) 0 = true)
    (quiet : bit (u.fldCtrl a.inst.val (tableOf a.inst.val a.point) c) 1 = false)
    (hv : v = (u.setPoint a.inst.val a.point { x with starved := o :: x.starved }).setFlags (Reg.fldStarveFlags a.inst.val) (2 ^ o))
    (first : (v.fld a.inst.val).locAt ≠ some c)
    (hw : w = (v.setReg (Reg.fldStarveLoc a.inst.val) (0x2000 + 256 * pointIn a.inst.val a.point + 16 *
        tableOf a.inst.val a.point)).modFld a.inst.val fun i => { i with locAt := some c }) :
    exec (.starvation a o c) s = .next ((w.inc (Reg.fldPartStarveCount a.inst.val o)).boundMiss o) := by
  show execStarvation a o c s = _
  unfold execStarvation
  dsimp only
  have alone : ((v.fld a.inst.val).locAt == some c) = false := by simpa using first
  rw [← hu, ← hx, ← hv, alone, Bool.false_and, if_neg Bool.false_ne_true, ← hw, quiet, if_pos ho]
  rw [if_neg]
  · rfl
  · rw [new, reports]
    rintro (no | no | no | no)
    · omega
    · omega
    · exact nomatch no
    · exact nomatch no

theorem slotTableSwitch_next {s u v : State} {f : Fin 5} {t : Fin 3} {c eff : Nat} {es : List Nat} {x : FldInst} {tables prev : Map Nat}
    (hu : u = s.tick (cycleNs c)) (hx : x = u.fld f.val) (hw : mget x.waiting t.val = some (eff, es)) (due : eff ≤ c)
    (ht : tables = foldS (fun m i => if es.getD i 31 = 31 then mdel m (256 * t.val + i)
      else mput m (256 * t.val + i) (es.getD i 31)) x.tables (upTo 256))
    (hp : prev = foldS (fun m i => if mgetD x.tables (256 * t.val + i) 31 = 31 then mdel m (256 * t.val + i)
      else mput m (256 * t.val + i) (mgetD x.tables (256 * t.val + i) 31)) x.prev (upTo 256))
    (hv : v = u.modFld f.val fun x => { x with
      tables := tables, prev := prev, switched := mput x.switched t.val eff, waiting := mdel x.waiting t.val }) :
    exec (.slotTableSwitch f t c) s = .next (v.setReg (Reg.fldTableGen f.val)
      (v.reg (Reg.fldTableGen f.val) - v.reg (Reg.fldTableGen f.val) / 2 ^ (8 * t.val) % 256 * 2 ^ (8 * t.val) +
        (v.reg (Reg.fldTableGen f.val) / 2 ^ (8 * t.val) % 256 + 1) % 256 * 2 ^ (8 * t.val))) := by
  show execSlotTableSwitch f t c s = _
  unfold execSlotTableSwitch
  dsimp only
  rw [← hu, ← hx, hw]
  dsimp only
  have switched : v = u.modFld f.val fun x => { x with
      tables := foldS (fun m i => if es.getD i 31 = 31 then mdel m (256 * t.val + i) else mput m (256 * t.val + i) (es.getD i 31))
        x.tables (upTo 256),
      prev := foldS (fun m i => if mgetD x.tables (256 * t.val + i) 31 = 31 then mdel m (256 * t.val + i)
        else mput m (256 * t.val + i) (mgetD x.tables (256 * t.val + i) 31)) x.prev (upTo 256),
      switched := mput x.switched t.val eff, waiting := mdel x.waiting t.val } := by
    rw [hv, ht, hp, hx]
    unfold State.modFld
    dsimp only
  rw [if_neg (by omega), ← switched]

/-- Settles O43, event by event. -/
theorem pointsGrantAndFree : Obligations.PointsGrantAndFree := by
  refine ⟨?_, ?_, ?_, ?_, ?_, ?_⟩
  · intro s u a r c o idle x y h1 h2 h3 hu hx unmasked new ho hy
    have yields : y = x.yielding u a.inst.val (tableOf a.inst.val a.point) c o idle := by
      rw [hy]
      unfold Point.yielding
      cases x.grant <;> rfl
    rw [fairleadRequest_next h1 h2 h3 hu hx unmasked new ho, yields]
  · intro s u a q c x r h1 on hu hx
    rw [fairleadGrant_next h1 on hu hx]
    refine ⟨fun turn found => ?_, fun none_ turn found => ?_⟩
    · rw [if_pos, pickOf_next turn found]
      · rfl
      · cases e : u.dueNow a.inst.val a.point c x with
        | nil =>
          rw [e] at found
          exact nomatch found
        | cons _ _ => rfl
    · rw [none_, if_neg (by decide), pickOf_next turn found]
      rfl
  · intro s u a c x y g hu hx hg done hy
    subst hy
    refine ⟨transferDone_last hu hx hg done, fun n m slot h1 h2 hn hs => ?_⟩
    obtain ⟨goes, ends⟩ := transferDone_more hu hx hg done h1 h2 hn hs
    by_cases keeps : keepsPoint u a.inst.val (tableOf a.inst.val a.point) c n slot g
    · rw [goes keeps]
      have keeps' := keeps
      unfold keepsPoint at keeps'
      rw [if_pos keeps', if_pos keeps']
    · rw [ends keeps]
      have keeps' := keeps
      unfold keepsPoint at keeps'
      rw [if_neg keeps', if_neg keeps']
  · intro s u a q c x hu hx over_
    show execBackoffEnd a q c s = _
    unfold execBackoffEnd
    dsimp only
    rw [← hu, ← hx, if_neg (by omega)]
  · intro s u v w a o c x hu hx ho starved new reports quiet hv first hw
    exact starvation_quiet hu hx ho starved new reports quiet hv first hw
  · intro s u v f t c eff g es x y hu hx hw due ht hp hv hg
    subst hg
    exact slotTableSwitch_next hu hx hw due ht hp hv

end Sys2Proof.Machine
end

section
/-! SUPPORT. Rows that arrive and rows that return (R301, R303, R304). -/

namespace Sys2Proof.Machine

/-- The place of a row among those of its slot (R301). -/
def samePlace (pk : Packet) (y : RxRow) : Bool :=
  y.part == pk.dstPart && y.expert == (RowHead.parse pk.payload).slot && y.src == pktSource pk &&
    y.token == (RowHead.parse pk.payload).token && y.rank == (RowHead.parse pk.payload).rank &&
    y.shard == (RowHead.parse pk.payload).shard

/-- The first row of the receive queue that need not wait, and that the module does not stop, is admitted. -/
theorem dispatchRow_next {s u v : State} {d : Fin 4} {t : Nat} {x : Delivered} (hu : u = s.tick t)
    (found : ((u.engine d.val).rx.find? fun x => isRow 1 x.packet && !(u.rowWaits x)) = some x)
    (hv : v = u.modEngine d.val fun e => { e with rx := e.rx.erase x })
    (free : x.packet.srcModule = v.self → v.gate x.packet true = .pass) :
    exec (.dispatchRow d t) s = .next (if v.stepOrder x.packet.dstPart x.packet.step == .lt
      then v.countRow x.packet (Reg.dspDupDiscardCount d.val) else v.placeRow x.packet) := by
  show execDispatchRow d t s = _
  have open_ : (if x.packet.srcModule = v.self then v.gate x.packet true else Gate.pass) = .pass := by
    split
    · exact free ‹_›
    · rfl
  unfold execDispatchRow State.admitRow
  dsimp only
  rw [← hu, found]
  dsimp only
  rw [← hv, open_]

/-- A row whose payload does not have its telltale is refused (R301, R400). -/
theorem placeRow_mismatch {s : State} {pk : Packet} (bad : crc64 pk.payload ≠ pk.telltale)
    (first : s.dispatch.ttSeen.contains (pk.dstPart, packetData pk) = false) :
    s.placeRow pk = (s.ttMismatch pk (crc64 pk.payload) [(0, pk.srcModule), (1, pk.srcPart), (2, pk.srcDie)] false).refuseRow
      pk stTelltaleMismatch 0 0 0 := by
  unfold State.placeRow
  dsimp only
  rw [if_pos bad, first, if_neg (by decide)]

/-- A row that stands in its slot already is discarded (R301). -/
theorem placeRow_again {s : State} {pk : Packet} {y : RxRow} (good : crc64 pk.payload = pk.telltale)
    (found : (s.dispatch.rows.find? fun y => samePlace pk y && y.offset == (RowHead.parse pk.payload).offset) = some y)
    (same : y.telltale = pk.telltale) : s.placeRow pk = s.countRow pk (Reg.dspDupDiscardCount pk.dstDie) := by
  unfold samePlace at found
  unfold State.placeRow
  dsimp only
  rw [if_neg (not_not.2 good), found]
  dsimp only
  rw [if_pos same]

/-- The rows that a slot's area has taken (R301). -/
def State.rowsUsed (s : State) (p slot : Nat) : Nat :=
  ((s.dispatch.rows.filter fun y => y.part == p && y.expert == slot).map fun y => y.row + 1).foldl max 0

/-- A first piece without slot or room is counted and refused (R301). -/
theorem placeRow_full {s : State} {pk : Packet} {h : RowHead} (good : crc64 pk.payload = pk.telltale)
    (hh : h = RowHead.parse pk.payload)
    (new : (s.dispatch.rows.find? fun y => samePlace pk y && y.offset == h.offset) = none)
    (first : s.dispatch.rows.find? (samePlace pk) = none)
    (full : s.dspForce pk.dstPart 4 ≤ h.slot ∨ s.dspForce pk.dstPart 3 % 65536 ≤ s.rowsUsed pk.dstPart h.slot) :
    s.placeRow pk = (s.countRow pk (Reg.dspPartRxfullCount pk.dstPart)).refuseRow pk stRxFull 0 0 0 := by
  subst hh
  unfold samePlace at new first
  unfold State.rowsUsed at full
  unfold State.placeRow
  dsimp only
  rw [if_neg (not_not.2 good), new]
  dsimp only
  rw [first, if_pos]
  simpa using full

/-- The state with a piece noted in a row of its slot and its bytes stored (R301). -/
def State.pieceStored (s : State) (pk : Packet) (row : Nat) : State :=
  (State.storeP { s with dispatch := { s.dispatch with
      rows := s.dispatch.rows ++ [⟨pk.dstPart, (RowHead.parse pk.payload).slot, row, pktSource pk,
        (RowHead.parse pk.payload).token, (RowHead.parse pk.payload).rank, (RowHead.parse pk.payload).shard,
        (RowHead.parse pk.payload).offset, pk.telltale⟩] } } (some pk.dstDie) pk.dstPart
    (s.dspForce pk.dstPart 2 + ((RowHead.parse pk.payload).slot * (s.dspForce pk.dstPart 3 % 65536) + row) *
      (16 * (s.dspForce pk.dstPart 3 / 65536)) + (RowHead.parse pk.payload).offset)
    ((pk.payload.drop 32).take (16 * (s.dspForce pk.dstPart 3 / 65536) - (RowHead.parse pk.payload).offset)) []).2

/-- A further piece of a placed row is noted and stored at its offset (R301). -/
theorem placeRow_further {s : State} {pk : Packet} {y : RxRow} (good : crc64 pk.payload = pk.telltale)
    (new : (s.dispatch.rows.find? fun y => samePlace pk y && y.offset == (RowHead.parse pk.payload).offset) = none)
    (placed : s.dispatch.rows.find? (samePlace pk) = some y) : s.placeRow pk = s.pieceStored pk y.row := by
  unfold samePlace at new placed
  unfold State.placeRow
  dsimp only
  rw [if_neg (not_not.2 good), new]
  dsimp only
  rw [placed, if_neg (by simp), if_pos (by rfl)]
  rfl

/-- The metadata of a placed row (R301). -/
def rowData (pk : Packet) : Nat :=
  pk.srcModule + 256 * (pk.srcPart % 16) + 4096 * pk.srcDie + 16384 * ((RowHead.parse pk.payload).shard % 4) +
    65536 * ((RowHead.parse pk.payload).token % 4096) + 2 ^ 28 * ((RowHead.parse pk.payload).rank % 16) +
    2 ^ 32 * ((RowHead.parse pk.payload).ret % 2 ^ 23) + 2 ^ 55 * b2n (RowHead.parse pk.payload).sharded

/-- A first piece takes the next row of its slot: row bytes, metadata and count (R301). -/
theorem placeRow_first {s w1 w2 w3 : State} {pk : Packet} {h : RowHead} {used slots cap len : Nat}
    (good : crc64 pk.payload = pk.telltale) (hh : h = RowHead.parse pk.payload)
    (new : (s.dispatch.rows.find? fun y => samePlace pk y && y.offset == h.offset) = none)
    (first : s.dispatch.rows.find? (samePlace pk) = none) (hc : cap = s.dspForce pk.dstPart 3 % 65536)
    (hl : len = 16 * (s.dspForce pk.dstPart 3 / 65536)) (hs : slots = s.dspForce pk.dstPart 4)
    (hn : used = s.rowsUsed pk.dstPart h.slot) (room : h.slot < slots) (free : used < cap)
    (h1 : w1 = s.pieceStored pk used)
    (h2 : w2 = (w1.storeP (some pk.dstDie) pk.dstPart (s.dspForce pk.dstPart 2 + slots * cap * len +
      8 * (h.slot * cap + used)) (toLe 8 (rowData pk)) []).2)
    (h3 : w3 = (w2.storeP (some pk.dstDie) pk.dstPart (s.dspForce pk.dstPart 2 + slots * cap * (len + 8) + 4 * h.slot)
      (toLe 4 (used + 1)) []).2) :
    s.placeRow pk = w3.inc (Reg.dspRecvCount pk.dstDie) := by
  subst h3 h2 h1 hh hc hl hs hn
  unfold samePlace at new first
  unfold State.rowsUsed at free
  unfold State.placeRow
  dsimp only
  rw [if_neg (not_not.2 good), new]
  dsimp only
  rw [first, if_neg (by simpa using ⟨room, free⟩), if_neg (by decide)]
  rfl

theorem rxExpired_next {s u : State} {d : Fin 4} {t : Nat} {x : Delivered} (hu : u = s.tick t)
    (found : ((u.engine d.val).rx.find? fun x => isRow 1 x.packet && u.rowWaits x &&
      u.waitLimit x.packet.dstPart d.val != 0 && decide (x.at_ + u.waitLimit x.packet.dstPart d.val ≤ u.now)) = some x) :
    exec (.rxExpired d t) s = .next (((u.modEngine d.val fun e => { e with
        rx := e.rx.filter fun y => !(isRow 1 y.packet && sameRow x.packet y.packet) }).inc
      (Reg.dspRxExpiredCount d.val)).refuseRow x.packet stRxExpired 0 0 0) := by
  show execRxExpired d t s = _
  unfold execRxExpired
  dsimp only
  rw [← hu, found]

theorem takeRx_found {s v : State} {d : Nat} {f : Packet → Bool} {x : Delivered}
    (found : ((s.engine d).rx.find? fun x => f x.packet) = some x)
    (hv : v = s.modEngine d fun e => { e with rx := e.rx.erase x }) : s.takeRx d f = some (x, v) := by
  unfold State.takeRx
  rw [found, hv]

theorem returnRow_next {s u v : State} {d : Fin 4} {t : Nat} {x : Delivered} (hu : u = s.tick t)
    (found : ((u.engine d.val).rx.find? fun x => isRow 2 x.packet) = some x)
    (hv : v = u.modEngine d.val fun e => { e with rx := e.rx.erase x }) :
    exec (.returnRow d t) s = .next (v.admitReturn d.val x.packet) := by
  show execReturnRow d t s = _
  unfold execReturnRow
  dsimp only
  rw [← hu, takeRx_found found hv]

theorem admitReturn_other {s : State} {d : Nat} {pk : Packet} (h : s.stepOrder pk.dstPart pk.step ≠ .eq) :
    s.admitReturn d pk = s.countRow pk (Reg.dspDupDiscardCount d) := by
  unfold State.admitReturn
  rw [if_pos (by simpa using h)]

theorem admitReturn_present {s : State} {d : Nat} {pk : Packet} (h : s.stepOrder pk.dstPart pk.step = .eq) :
    s.admitReturn d pk = s.returned pk := by
  unfold State.admitReturn
  rw [h, if_neg (by decide)]

theorem returned_unawaited {s : State} {pk : Packet} (good : crc64 pk.payload = pk.telltale)
    (none_ : s.entryOf pk.dstPart pk.dstDie (RowHead.parse pk.payload) = none) :
    s.returned pk = s.countRow pk (Reg.dspDupDiscardCount pk.dstDie) := by
  unfold State.returned
  dsimp only
  rw [if_neg (not_not.2 good), none_]

/-- The state in which an entry has the pieces of its return (R304). -/
def State.withParts (s : State) (c : SendCtx) (e : RouteEntry) (parts : List (Nat × Nat × List Byte)) : State :=
  s.modSend c fun l => l.map fun y => if y.token == e.token && y.rank == e.rank then { y with parts := parts } else y

/-- The pieces of an entry with one more, where it is new (R304). -/
def RouteEntry.joined (e : RouteEntry) (h : RowHead) (bs : List Byte) : List (Nat × Nat × List Byte) :=
  if e.parts.any fun x => x.1 == h.shard && x.2.1 == h.offset then e.parts else e.parts ++ [(h.shard, h.offset, bs)]

theorem returned_partial {s : State} {pk : Packet} {c : SendCtx} {e : RouteEntry} {h : RowHead}
    (good : crc64 pk.payload = pk.telltale) (hh : h = RowHead.parse pk.payload)
    (found : s.entryOf pk.dstPart pk.dstDie h = some (c, e))
    (more : joinPieces (e.joined h (pk.payload.drop 32)) h.shard h.total = none) :
    s.returned pk = s.withParts c e (e.joined h (pk.payload.drop 32)) := by
  subst hh
  unfold RouteEntry.joined at more
  unfold State.returned
  dsimp only
  rw [if_neg (not_not.2 good), found]
  dsimp only
  rw [more]
  rfl

theorem returned_whole {s : State} {pk : Packet} {c : SendCtx} {e : RouteEntry} {h : RowHead} {bs : List Byte}
    (good : crc64 pk.payload = pk.telltale) (hh : h = RowHead.parse pk.payload)
    (found : s.entryOf pk.dstPart pk.dstDie h = some (c, e))
    (whole : joinPieces (e.joined h (pk.payload.drop 32)) h.shard h.total = some bs) :
    s.returned pk = (s.withParts c e (e.joined h (pk.payload.drop 32))).takeReturn c e h bs := by
  subst hh
  unfold RouteEntry.joined at whole
  unfold State.returned
  dsimp only
  rw [if_neg (not_not.2 good), found]
  dsimp only
  rw [whole]
  rfl

/-- Settles O48, queue by queue. -/
theorem rowsArriveAndReturn : Obligations.RowsArriveAndReturn := by
  refine ⟨?_, fun s u d t x hu found => rxExpired_next hu found, ?_⟩
  · intro s u v d t p seen cap len slots used x pk h same hu found hv hpk free hp hh hseen hcap hlen hslots hsame hused
    subst hpk hp hseen
    have rows : same = samePlace x.packet := by
      rw [hsame, hh]
      rfl
    rw [dispatchRow_next hu found hv free, rows]
    refine ⟨fun late => by rw [late, if_pos (by decide)], fun now bad first => ?_, fun now good => ?_⟩
    · rw [if_neg (by simpa using now), placeRow_mismatch bad first]
    · rw [if_neg (by simpa using now)]
      refine ⟨fun y again same => ?_, fun new => ⟨fun first full => ?_, fun y placed => ?_, ?_⟩⟩
      · rw [placeRow_again good (hh ▸ again) same]
      · rw [placeRow_full good hh new first]
        rwa [← hslots, ← hcap, State.rowsUsed, ← hused]
      · rw [placeRow_further good (hh ▸ new) placed, hcap, hlen, hh]
        rfl
      · intro first room fits w1 w2 w3 md n hn hmd h1 h2 h3
        subst hn hmd
        rw [placeRow_first good hh new first hcap hlen hslots hused room fits (h1.trans ?_) (h2.trans ?_) h3]
        · rw [hcap, hlen, hh]
          rfl
        · rw [hh]
          rfl
  · intro s u v d t x pk h hu found hv hpk hh
    subst hpk
    rw [returnRow_next hu found hv]
    refine ⟨fun other => by rw [admitReturn_other other], fun present good => ?_⟩
    rw [admitReturn_present present]
    refine ⟨fun none_ => by rw [returned_unawaited good (hh ▸ none_)], fun c e parts w he hparts hw => ?_⟩
    subst hparts hw
    exact ⟨fun more => by rw [returned_partial good hh he more]; rfl,
      fun bs whole => by rw [returned_whole good hh he whole]; rfl⟩

end Sys2Proof.Machine

end

section
/-! SUPPORT. Messages of collectives and of the vote (R390 to R396, R402 to R404). -/

namespace Sys2Proof.Machine

/-- What a CONTRIB accepted for the first time does (R392). -/
def State.contributes (s : State) (pk : Packet) (h : CollHead) (c : Coll) : State :=
  if c.reduces then s.takeContrib c h.index ((upTo h.count).map fun i => h.first + i) h.lost (pk.payload.drop 32)
  else s.collWrite c (h.index * c.count + h.first) ((pk.payload.drop 32).take h.count)

/-- A copy of an accepted CONTRIB is counted as discarded (R392). -/
theorem contrib_again {s v : State} {d : Fin 4} {t : Nat} {pk : Packet} {c : Coll} {a : Nat × Nat × Nat}
    (heard : (s.tick t).hearsFor d.val 4 pk c v)
    (found : (c.accepted.find? fun a => a.1 == (headStep pk).1.index && a.2.1 % 2 ^ 32 == (headStep pk).1.first) = some a)
    (same : a.2.2 = pk.telltale) :
    exec (.contrib d t) s = .next ((v.inc (Reg.dspDupDiscardCount d.val)).advanceColl d.val c.part c.id) := by
  show execContrib d t s = _
  rw [execContrib, hearsFor_next heard, found]
  dsimp only
  rw [if_pos same]

/-- A new CONTRIB is noted as accepted and acts (R392). -/
theorem contrib_new {s v : State} {d : Fin 4} {t : Nat} {pk : Packet} {c : Coll} (heard : (s.tick t).hearsFor d.val 4 pk c v)
    (new : (c.accepted.find? fun a => a.1 == (headStep pk).1.index && a.2.1 % 2 ^ 32 == (headStep pk).1.first) = none) :
    exec (.contrib d t) s = .next (((v.modColl (c.strand / 32) c.part c.id fun x => { x with
        accepted := x.accepted ++ [((headStep pk).1.index, (headStep pk).1.first + 2 ^ 32 * (headStep pk).1.count,
          pk.telltale)] }).contributes pk (headStep pk).1 c).advanceColl d.val c.part c.id) := by
  show execContrib d t s = _
  rw [execContrib, hearsFor_next heard, new]
  rfl

/-- READY notes its sender (R394). -/
def State.readied (s : State) (pk : Packet) (run : Nat) : State :=
  s.modVote pk.dstPart (headStep pk).2 run fun x => { x with
    ready := if x.ready.contains (pk.srcModule, pk.srcPart) then x.ready else x.ready ++ [(pk.srcModule, pk.srcPart)] }

theorem ready_next {s v w : State} {d : Fin 4} {t : Nat} {pk : Packet} (heard : (s.tick t).hears d.val 7 pk v)
    (present : v.collOrder pk.dstPart (headStep pk).2 (headStep pk).1.run = .eq) (hw : w = v.readied pk (headStep pk).1.run) :
    exec (.ready d t) s = .next (if v.voteComplete pk.dstPart = false ∧ w.voteComplete pk.dstPart = true ∧
      (w.step pk.dstPart).phase = .committing then w.voteWaited pk.dstPart else w) := by
  show execReady d t s = _
  rw [execReady, hears_next heard]
  dsimp only
  rw [present, if_neg (by decide)]
  unfold State.readied at hw
  rw [← hw]
  congr 1
  refine if_congr ?_ rfl rfl
  simp only [Bool.and_eq_true, Bool.not_eq_true', beq_iff_eq, and_assoc]

/-- A committing step runs again when its vote ends (R395). -/
def State.voteEnded (s : State) (p : Nat) : State :=
  if (s.step p).phase = .committing then
    (s.modStep p fun x => { x with phase := .running }).inc (Reg.dspPartColAbortCount p)
  else s

theorem abort_next {s v w : State} {d : Fin 4} {t : Nat} {pk : Packet} (heard : (s.tick t).hears d.val 8 pk v)
    (present : v.collOrder pk.dstPart (headStep pk).2 (headStep pk).1.run = .eq) (free : (v.step pk.dstPart).blocking = none)
    (hw : w = v.voteEnded pk.dstPart) :
    exec (.abort d t) s = .next (w.block pk.dstPart ⟨w.now, stCollectiveAbort, (headStep pk).1.count,
      (w.hanksOn pk.dstPart d.val).headD (w.firstHank pk.dstPart), 0, 0xFFFFFF, none⟩) := by
  show execAbort d t s = _
  rw [execAbort, hears_next heard]
  dsimp only
  rw [present, free, if_neg (by decide)]
  have ended : w = if (v.step pk.dstPart).phase == .committing then
      (v.modStep pk.dstPart fun x => { x with phase := .running }).inc (Reg.dspPartColAbortCount pk.dstPart) else v := by
    rw [hw]
    exact if_congr (by simp) rfl rfl
  rw [← ended]

theorem query_known {s v : State} {d : Fin 4} {t : Nat} {pk : Packet} {x : Vote} (heard : (s.tick t).hears d.val 9 pk v)
    (known : v.vote pk.dstPart (headStep pk).2 (headStep pk).1.run = some x) :
    exec (.query d t) s = .next (
      if x.sent = 1 then v.sendVoteTo pk.dstPart 7 0 (headStep pk).2 (headStep pk).1.run pk
      else if 2 ≤ x.sent then v.sendVoteTo pk.dstPart 8 (x.sent - 1) (headStep pk).2 (headStep pk).1.run pk else v) := by
  show execQuery d t s = _
  rw [execQuery, hears_next heard]
  dsimp only
  rw [known]

theorem query_unknown {s v : State} {d : Fin 4} {t : Nat} {pk : Packet} (heard : (s.tick t).hears d.val 9 pk v)
    (unknown : v.vote pk.dstPart (headStep pk).2 (headStep pk).1.run = none) (again : pk.resend = true)
    (other : v.collOrder pk.dstPart (headStep pk).2 (headStep pk).1.run ≠ .eq) :
    exec (.query d t) s = .next (v.sendVoteTo pk.dstPart 8 1 (headStep pk).2 (headStep pk).1.run pk) := by
  show execQuery d t s = _
  rw [execQuery, hears_next heard]
  dsimp only
  rw [unknown]
  dsimp only
  rw [again, if_pos (by simpa using other)]

theorem messageExpired_next {s u : State} {d : Fin 4} {t : Nat} {x : Delivered} (hu : u = s.tick t)
    (found : ((u.engine d.val).rx.find? fun x => x.packet.vc == 3 && x.packet.ptype == 1 &&
      u.collOrder x.packet.dstPart (headStep x.packet).2 (headStep x.packet).1.run == .gt && (headStep x.packet).1.kind != 9 &&
      u.waitLimit x.packet.dstPart d.val != 0 && decide (x.at_ + u.waitLimit x.packet.dstPart d.val ≤ u.now)) = some x) :
    exec (.messageExpired d t) s = .next (((u.modEngine d.val fun e => { e with rx := e.rx.erase x }).inc
      (Reg.dspRxExpiredCount d.val)).refuseColl x.packet stRxExpired 0 0 0) := by
  show execMessageExpired d t s = _
  unfold execMessageExpired
  dsimp only
  rw [← hu, found]

theorem collectiveTimeout_next {s u : State} {st : Fin 128} {t : Nat} {c : Coll} (hu : u = s.tick t)
    (found : ((u.engine (st.val / 32)).colls.find? fun c => c.strand == st.val && u.reg (Reg.hnkKnotWaitLimit c.hank) != 0 &&
      decide (c.issuedAt + 1000 * u.reg (Reg.hnkKnotWaitLimit c.hank) < u.now)) = some c) :
    exec (.collectiveTimeout st t) s = .next (u.endColl (st.val / 32) c.part c.id stCollectiveTimeout) := by
  show execCollectiveTimeout st t s = _
  unfold execCollectiveTimeout
  dsimp only
  rw [← hu, found]

/-- A member whose vote is missing is asked (R396). -/
def State.askVote (p : Nat) (x : StepRec) (s : State) (m : Nat × Nat) : State :=
  match x.groups.find? fun q => q.modNum == m.1 && q.part == m.2 with
  | none => s
  | some q => s.sendColl p ((s.diesOf p).headD 0) (q.modNum, q.part, q.die) q.role q.epoch
      (CollHead.bytes ⟨9, false, x.run, q.index, q.tag, 0, 0, 0, q.n, x.counter / 2 ^ 32⟩) false

/-- The time that a vote waits before it asks (R396). -/
def State.voteWait (s : State) (p : Nat) : Nat :=
  if s.waitLimit p ((s.diesOf p).headD 0) = 0 then 50000000 else s.waitLimit p ((s.diesOf p).headD 0)

theorem voteQueryTimeout_next {s u v : State} {p : Fin 16} {t : Nat} {x : StepRec} {y : Vote} (hu : u = s.tick t)
    (hx : x = u.step p.val) (hy : u.vote p.val x.counter x.run = some y) (commits : x.phase = .committing)
    (incomplete : u.voteComplete p.val = false) (late : max y.sentAt y.queried + u.voteWait p.val < u.now)
    (hv : v = (u.modVote p.val x.counter x.run fun v => { v with queried := u.now }).inc (Reg.dspPartColQueryCount p.val)) :
    exec (.voteQueryTimeout p t) s = .next (foldS (State.askVote p.val x)
      (v.fsr { v.record 1 (some p.val) with status := some stCollectiveTimeout })
      ((u.voters p.val).filter fun m => !(y.ready.contains m))) := by
  show execVoteQueryTimeout p t s = _
  unfold State.voteWait at late
  unfold execVoteQueryTimeout
  dsimp only
  rw [← hu, ← hx, hy]
  dsimp only
  rw [commits, incomplete, if_neg (by simpa using late), hv]
  rfl

/-- Settles O49, message by message. -/
theorem collectiveMessagesAct : Obligations.CollectiveMessagesAct := by
  refine ⟨?_, ?_, fun s u d t x hu found => messageExpired_next hu found,
    fun s u st t c hu found => collectiveTimeout_next hu found, ?_⟩
  · intro s u v d t pk h c hu hh
    subst hu hh
    refine ⟨fun heard => ?_, fun heard => ?_, fun heard => ?_, fun heard => ⟨fun a found same => contrib_again heard found same,
      fun new w hw => ?_⟩, fun heard ks hks => ?_, fun heard => ?_⟩
    · show execPost d t s = _
      rw [execPost, hearsFor_next heard]
    · show execKey d t s = _
      rw [execKey, hearsFor_next heard]
    · show execAnchor d t s = _
      rw [execAnchor, hearsFor_next heard]
    · subst hw
      rw [contrib_new heard new]
      unfold State.contributes
      exact ⟨fun reduces => by rw [if_pos reduces], fun gathers => by rw [if_neg (by rw [gathers]; decide)]⟩
    · subst hks
      show execResult d t s = _
      rw [execResult, hearsFor_next heard]
    · show execDone d t s = _
      rw [execDone, hearsFor_next heard]
  · intro s u v w d t p pk h step hu hh hp
    subst hu hp
    obtain ⟨rfl, rfl⟩ : h = (headStep pk).1 ∧ step = (headStep pk).2 := by rw [← hh]; exact ⟨rfl, rfl⟩
    refine ⟨fun heard present hw => ready_next heard present hw, fun heard present free hw => abort_next heard present free hw,
      fun heard => ⟨fun x known ready => ?_, fun x known aborted => ?_,
        fun unknown again other => query_unknown heard unknown again other⟩⟩
    · rw [query_known heard known, if_pos ready]
    · rw [query_known heard known, if_neg (by omega), if_pos aborted]
  · intro s u v w p t wait x y hu hx hy commits incomplete hwait late hv hw
    subst hw hwait
    exact voteQueryTimeout_next hu hx hy commits incomplete late hv

end Sys2Proof.Machine

end

section
/-! SUPPORT. How hitches complete and a step ends (R128, R140, R440, R442, R445, R447). -/

namespace Sys2Proof.Machine

theorem doneStatus_done {q : List QEntry} {e : QEntry} {a : Nat} (h : e.phase = .done a) : e.doneStatus q = some a := by
  unfold QEntry.doneStatus
  rw [h]

/-- What HITCH_COMPLETE does with an executed entry that is the first of its unit (R128, R440). -/
def State.hitchDone (u : State) (p st a : Nat) (e : QEntry) : State :=
  match u.twin p st e.pos with
  | none => u.completeEntry p st e a
  | some st2 =>
    match (u.strand st2).queue.find? fun f => f.pos == e.pos && f.index == e.index with
    | none => if (u.step p).blocking.isSome then u.completeEntry p st e a else u
    | some f =>
      match f.doneStatus (u.strand st2).queue with
      | none => u
      | some b =>
        if !(firstOfUnit (u.strand st2).queue f) then u
        else if st < st2 then u.completePair p st st2 e f a b
        else u.completePair p st2 st f e b a

theorem hitchComplete_next {s u : State} {st : Fin 128} {slot t p a : Nat} {e : QEntry} (hu : u = s.tick t)
    (hp : u.partOf (hankOf st.val) = some p) (he : (u.strand st.val).queue[slot]? = some e) (done : e.phase = .done a)
    (first : firstOfUnit (u.strand st.val).queue e = true) :
    exec (.hitchComplete st slot t) s = .next (u.hitchDone p st.val a e) := by
  show execHitchComplete st slot t s = _
  unfold execHitchComplete
  dsimp only
  rw [← hu, hp, he]
  dsimp only
  rw [doneStatus_done done]
  dsimp only
  rw [first, if_neg (by decide)]
  rfl

theorem hitchDone_alone {u : State} {p st a : Nat} {e : QEntry} (alone : u.twin p st e.pos = none) :
    u.hitchDone p st a e = u.completeEntry p st e a := by
  unfold State.hitchDone
  rw [alone]

/-- In paired mode an entry completes together with its copy (R440). -/
theorem hitchDone_paired {u : State} {p st st2 a b : Nat} {e f : QEntry} (twin : u.twin p st e.pos = some st2)
    (copy : (u.strand st2).queue.find? (fun f => f.pos == e.pos && f.index == e.index) = some f) (done : f.phase = .done b)
    (first : firstOfUnit (u.strand st2).queue f = true) (lower : st < st2) :
    u.hitchDone p st a e = u.completePair p st st2 e f a b := by
  unfold State.hitchDone
  rw [twin]
  dsimp only
  rw [copy]
  dsimp only
  rw [doneStatus_done done]
  dsimp only
  rw [first, if_neg (by decide), if_pos lower]

theorem completePair_alike {u : State} {p st st2 a b : Nat} {e f : QEntry}
    (h : isBlocking a = true ∨ isBlocking b = true ∨ e.digest = f.digest) :
    u.completePair p st st2 e f a b = (u.completeEntry p st e a).completeEntry p st2 f b := by
  have alike : (!(isBlocking a) && !(isBlocking b) && e.digest != f.digest) = false := by
    rcases h with h | h | h <;> simp [h]
  unfold State.completePair
  dsimp only
  rw [alike, if_neg (by decide), if_neg (by decide), if_neg (by decide)]

theorem completePair_differ {u : State} {p st st2 a b : Nat} {e f : QEntry} (ha : isBlocking a = false)
    (hb : isBlocking b = false) (differ : e.digest ≠ f.digest) :
    u.completePair p st st2 e f a b =
      ((u.pairMismatch p st st2 e f).completeEntry p st e stTelltaleMismatch).completeEntry p st2 f stTelltaleMismatch := by
  unfold State.completePair
  dsimp only
  rw [ha, hb, show (!false && !false && e.digest != f.digest) = true by simpa using differ, if_pos rfl, if_pos rfl,
    if_pos rfl]

/-- A wait longer than the limit of its hank ends (R140). -/
theorem knotTimeout_next {s u : State} {st : Fin 128} {t p a : Nat} {e : QEntry} (hu : u = s.tick t)
    (hp : u.partOf (hankOf st.val) = some p) (issues : u.issuing p = true)
    (head : nextQueued (u.strand st.val).queue = some e) (queued : e.phase = .queued) (since : e.since = some a)
    (limited : u.reg (Reg.hnkKnotWaitLimit (hankOf st.val)) ≠ 0)
    (late : a + 1000 * u.reg (Reg.hnkKnotWaitLimit (hankOf st.val)) < u.now)
    (waits : u.waitReady p st.val e.word = false) :
    exec (.knotTimeout st t) s = .next (u.completeEntry p st.val e stKnotTimeout) := by
  have long : u.waitedLong (hankOf st.val) (some a) = true := by
    unfold State.waitedLong
    simpa using ⟨limited, late⟩
  show execKnotTimeout st t s = _
  unfold execKnotTimeout
  dsimp only
  rw [← hu, hp]
  dsimp only
  rw [issues, if_neg (by decide), head, Option.filter_some, if_pos (by rw [queued, since, long, waits]; rfl)]

/-- What action 8 does once the counter has moved: `x` is the step record before (R445). -/
def State.commitRest (s : State) (p : Nat) (x : StepRec) : State :=
  let s := foldS (fun s st => s.takeAvail st) s (s.strandsOf p)
  let s := s.conservation
  let s := s.raiseReg (Reg.chkPartMaxCommitUs p) (usUp (s.now - x.commitAt))
  let us := usUp (s.now - x.startedAt)
  let s := (s.setReg (Reg.gblDetPartStepLastUs p) (sat32 us)).raiseReg (Reg.gblDetPartStepMaxUs p) us
  let s := ((((s.dispatchRunEnd p).latePauses p).lateRefill p).lateSwitch p).takeMode p
  if !(s.part p).destroyCmds.isEmpty then s.beginDestroy p
  else if (s.part p).resetCmds.isEmpty then s else s.beginReset p

/-- The step record that action 8 leaves (R445). -/
def StepRec.committed (y : StepRec) : StepRec :=
  { y with counter := y.counter + 1, phase := .idle, excluded := [], committedAny := true, releases := [],
           votes := y.votes.filter fun v => decide (y.counter ≤ v.step + 1) }

theorem commitEnd_eq (s : State) (p : Nat) :
    s.commitEnd p = (((s.journalRecord p).endBatch p).modStep p StepRec.committed).commitRest p (s.step p) := rfl

/-- No rule bounds what is kept: every field may change. -/
theorem within_any (T : Nat) : Within T fun _ => true := fun _ _ => rfl

theorem Keeps.stepCounter {kc : Bool} {F : Field → Bool} {s t : State} (h : Keeps kc true F s t) (q : Nat) :
    (t.step q).counter = (s.step q).counter :=
  h.counter rfl q

theorem commitRest_counter (s : State) (p q : Nat) (x : StepRec) :
    ((s.commitRest p x).step q).counter = (s.step q).counter := by
  have keeps : Keeps true true (fun _ => true) s (s.commitRest p x) := by
    have anyField : ∀ T, Within T fun _ : Field => true := within_any
    unfold State.commitRest
    extract_lets s1 s2 s3 us s4 s5
    have h1 : Keeps true true (fun _ => true) s s1 :=
      foldS_keeps (fun _ _ h => takeAvail_keeps h (anyField _)) keeps_refl
    have h5 : Keeps true true (fun _ => true) s s5 :=
      takeMode_keeps (lateSwitch_keeps (lateRefill_keeps (latePauses_keeps (dispatchRunEnd_keeps (raiseReg_keeps (setReg_keeps
        (raiseReg_keeps (conservation_keeps h1 (anyField _)) (anyField _)) (anyField _)) (anyField _)) (anyField _)) (anyField _))
        (anyField _)) (anyField _)) (anyField _)
    clear_value s5
    split
    · exact beginDestroy_keeps h5 (anyField _)
    · split
      · exact h5
      · exact beginReset_keeps h5 (anyField _)
  exact keeps.stepCounter q

/-- The step counter after action 8 is one higher (R447). -/
theorem commitEnd_counter (s : State) (p : Nat) : ((s.commitEnd p).step p).counter = (s.step p).counter + 1 := by
  have before : (((s.journalRecord p).endBatch p).step p).counter = (s.step p).counter :=
    (endBatch_keeps (kc := true) (kn := true) (F := fun _ => true) (journalRecord_keeps keeps_refl (within_any _))
      (within_any _)).stepCounter p
  rw [commitEnd_eq, commitRest_counter, step_modStep_self, StepRec.committed, before]

theorem commitActions_counter (s : State) (p q : Nat) (bad : List (Nat × Nat)) :
    ((s.commitActions p bad).step q).counter = (s.step q).counter :=
  (commitActions_keeps (kc := true) (kn := true) (F := fun _ => true) keeps_refl (within_any _)).stepCounter q

theorem stepCommit_next {s u : State} {p : Fin 16} {bad : List (Nat × Nat)} {t : Nat} (hu : u = s.tick t)
    (commits : (u.step p.val).phase = .committing) (goes : (u.step p.val).stopping = false)
    (voted : (u.step p.val).collective = true → u.voteComplete p.val = true) :
    exec (.stepCommit ⟨p, bad⟩ t) s = .next ((u.commitActions p.val bad).commitEnd p.val) := by
  show execStepCommit ⟨p, bad⟩ t s = _
  unfold execStepCommit
  dsimp only
  have ready : ((u.step p.val).collective && !(u.voteComplete p.val)) = false := by
    simpa using voted
  rw [← hu, ready, goes, commits, if_neg (by decide)]

/-- The step record of the next run under the same number (R442). -/
def StepRec.again (x : StepRec) : StepRec :=
  { x with run := x.run + 1, rotation := (x.rotation + 1) % 8, phase := .replaying, blocking := none, releases := [],
           collective := false, groups := [], collIds := [], rowsSent := false,
           excluded := x.excluded ++ (twiceFaulty x.faults).filter fun st => !(x.excluded.contains st) }

/-- The next run of a step has the step's record but for what a run starts with (R442). -/
theorem step_replay (s : State) (p : Nat) : (s.replay p).step p = (s.step p).again := by
  have shape : ∃ v, SameBut [.regs, .strands, .dieKnots, .hanks, .kv, .serve, .dispatch, .thermo] s v ∧
      s.replay p = (v.modStep p StepRec.again).beginRun p :=
    ⟨_, sameBut_of_keeps (kc := true) (kn := true) (lateRefill_keeps (dispatchRunEnd_keeps (discardStage_keeps
      (freePending_keeps (clearKnots_keeps (foldS_keeps (fun _ _ h => inc_keeps h (within_own (by decide))) keeps_refl)
        (within_own (by decide))) (within_own (by decide))) (within_own (by decide))) (within_own (by decide)))
      (within_own (by decide))), rfl⟩
  obtain ⟨v, same, e⟩ := shape
  have run : SameBut [.regs, .hanks, .thermo] (v.modStep p StepRec.again) ((v.modStep p StepRec.again).beginRun p) :=
    sameBut_of_keeps (kc := true) (kn := true) (beginRun_keeps keeps_refl (within_own (by decide)))
  calc (s.replay p).step p = (v.modStep p StepRec.again).step p := by
        rw [e]
        exact congrArg Part.step (part_of_parts (run.2 .parts (by decide)) p)
    _ = (v.step p).again := step_modStep_self v p _
    _ = (s.step p).again := by rw [State.step, State.step, part_of_parts (same.2 .parts (by decide)) p]

/-- A drained step stopped by a Fault is run again or given up (R442). -/
theorem stepReplay_next {s u : State} {p : Fin 16} {t : Nat} {b : Blocking} (hu : u = s.tick t)
    (hb : (u.step p.val).blocking = some b) (fault : b.cls = 1) (runs : u.inRun p.val = true)
    (drained : u.drained p.val = true) (free : u.lease.seized = false) :
    exec (.stepReplay p t) s = .next (if u.replayable p.val && decide ((u.step p.val).run < (u.step p.val).limit)
      then u.replay p.val else u.giveUp p.val b.status) := by
  show execStepReplay p t s = _
  unfold execStepReplay
  dsimp only
  rw [← hu, hb]
  dsimp only
  rw [if_neg (by rw [fault, runs, drained, free]; decide)]

theorem stepAbandon_next {s u : State} {p : Fin 16} {t : Nat} {b : Blocking} (hu : u = s.tick t)
    (hb : (u.step p.val).blocking = some b) (program : b.cls = 2) (runs : u.inRun p.val = true)
    (drained : u.drained p.val = true) :
    exec (.stepAbandon p t) s = .next (foldS (fun s g => s.inc (Reg.hnkAbandonCount g)) (u.abandoned p.val)
      (u.part p.val).hanks) := by
  show execStepAbandon p t s = _
  unfold execStepAbandon
  dsimp only
  rw [← hu, hb]
  dsimp only
  rw [if_neg (by rw [program, runs, drained]; decide)]

/-- Settles O39, event by event. -/
theorem hitchesCompleteAndStepsEnd : Obligations.HitchesCompleteAndStepsEnd := by
  refine ⟨?_, fun s u st t p a e hu hp issues head queued since limited late waits =>
    knotTimeout_next hu hp issues head queued since limited late waits, ?_, ?_,
    fun s u p t b hu hb program runs drained => stepAbandon_next hu hb program runs drained⟩
  · intro s u st slot t p a e hu hp he done first
    rw [hitchComplete_next hu hp he done first]
    refine ⟨fun alone => by rw [hitchDone_alone alone], fun st2 f b twin copy done2 first2 lower => ?_⟩
    rw [hitchDone_paired twin copy done2 first2 lower]
    exact ⟨fun alike => by rw [completePair_alike alike], fun ha hb differ => by rw [completePair_differ ha hb differ]⟩
  · intro s u p bad t hu commits goes voted
    refine ⟨_, rfl, stepCommit_next hu commits goes voted, ?_⟩
    rw [commitEnd_counter, commitActions_counter]
  · intro s u p t b hu hb fault runs drained free
    rw [stepReplay_next hu hb fault runs drained free]
    refine ⟨fun replayable below => ⟨_, ?_, step_replay u p.val,
      sameBut_of_keeps (kc := true) (kn := true) (replay_keeps keeps_refl (within_own (by decide)))⟩, fun no => ?_⟩
    · rw [replayable, if_pos (by simpa using below)]
    · rw [if_neg]
      rcases no with no | no
      · rw [no, Bool.false_and]
        decide
      · rw [decide_eq_false (by omega)]
        simp

end Sys2Proof.Machine

end

section
/-! SUPPORT. Fault records, pattern packs, quarantine, scores and bands (R435, R450, R452 to R459, R462). -/

namespace Sys2Proof.Machine

/-- A record as FSR_READ answers it, padded to words (R435). -/
def State.recordItem (u : State) (sid : Nat) (r : Record) : List Byte :=
  toLe 2 (r.encode u.self (isCommander sid)).length ++ r.encode u.self (isCommander sid) ++
    toLe (ceilDiv (2 + (r.encode u.self (isCommander sid)).length) 4 * 4 - (2 + (r.encode u.self (isCommander sid)).length)) 0

theorem fsrRead_none {s u : State} {h : CmdHdr} {first n : Nat} (runs : s.runs h 0x0700 u) (hn : n = 1 ∨ n = 2)
    (none_ : u.recordOf h.session first = none) :
    exec (.fsrRead h first n) s = .next (u.reply h.session h.seq stReelRange []) := by
  show execFsrRead h first n s = _
  rw [execFsrRead, runs_next runs]
  dsimp only
  rw [if_neg (by omega), none_]
  rfl

theorem fsrRead_some {s u : State} {h : CmdHdr} {first n : Nat} {r : Record} (runs : s.runs h 0x0700 u) (hn : n = 1 ∨ n = 2)
    (found : u.recordOf h.session first = some r) :
    exec (.fsrRead h first n) s = .next (u.reply h.session h.seq stOk (toLe 8 (u.newestRecord h.session) ++
      (r :: (if n = 2 then (u.recordOf h.session (first + 1)).toList else [])).flatMap (u.recordItem h.session))) := by
  show execFsrRead h first n s = _
  rw [execFsrRead, runs_next runs]
  dsimp only
  rw [if_neg (by omega), found]
  rfl

/-- What FSR_ACK of a number up to the newest keeps (R435). -/
theorem fsrAck_next {s u : State} {h : CmdHdr} {n : Nat} (runs : s.runs h 0x0701 u) :
    exec (.fsrAck h n) s = .next (
      if u.newestRecord h.session < n then u.reply h.session h.seq stReelRange []
      else if isCommander h.session = true then
        State.reply { u with checks := { u.checks with commanderAck := max u.checks.commanderAck n } } h.session h.seq stOk []
      else (u.modSession h.session fun x => { x with fsrAck := max x.fsrAck n }).reply h.session h.seq stOk []) := by
  show execFsrAck h n s = _
  rw [execFsrAck, runs_next runs]
  dsimp only
  split_ifs <;> rfl

/-- The state with a fragment of a pack in its slot, which is unverified (R458). -/
def State.packKept (u : State) (k off : Nat) (clear : Bool) (data : List Byte) : State :=
  ((if clear then u.emptyPack k else u).poke (packBase k + off) data).packSlot k false

theorem packLoad_fragment {s u : State} {h : CmdHdr} {k off : Nat} {clear : Bool} {data : List Byte} (runs : s.runs h 0x0702 u)
    (hk : k ≤ 15) (short : data.length ≤ 1424) (fits : off + data.length ≤ 2 ^ 22) (some_ : data ≠ []) :
    exec (.packLoad h k false clear off data) s = .next ((u.packKept k off clear data).reply h.session h.seq stOk []) := by
  have given : data.isEmpty = false := by simpa using some_
  show execPackLoad h k false clear off data s = _
  rw [execPackLoad, runs_next runs]
  dsimp only
  rw [if_neg (by unfold packSize; omega), given, if_neg (by decide), if_pos (by rfl)]
  rfl

/-- The state that the last fragment of a pack leaves, and the status it answers (R458, R459). -/
def State.packChecked (w : State) (k total : Nat) : Nat × List Byte × State :=
  if !(w.packGood k total) then ans stMalformed (w.emptyPack k)
  else if Config.verifies (Config.signingKey 1) (shake256 64 (w.peek (packBase k) (w.peekLe (packBase k + 0xC) 4)))
      (w.peek (packBase k + w.peekLe (packBase k + 0xC) 4) (total - w.peekLe (packBase k + 0xC) 4)) then
    ans stOk (w.packSlot k true)
  else ans stCoilRefused (w.emptyPack k)

theorem packLoad_last {s u : State} {h : CmdHdr} {k off : Nat} {clear : Bool} {data : List Byte} (runs : s.runs h 0x0702 u)
    (hk : k ≤ 15) (short : data.length ≤ 1424) (fits : off + data.length ≤ 2 ^ 22) :
    exec (.packLoad h k true clear off data) s = .next (
      ((u.packKept k off clear data).packChecked k (off + data.length)).2.2.reply h.session h.seq
        ((u.packKept k off clear data).packChecked k (off + data.length)).1
        ((u.packKept k off clear data).packChecked k (off + data.length)).2.1) := by
  show execPackLoad h k true clear off data s = _
  rw [execPackLoad, runs_next runs]
  dsimp only
  rw [if_neg (by unfold packSize; omega), Bool.not_true, Bool.and_false, if_neg (by decide), if_neg (by decide)]
  rfl

theorem chkPartCtrl_next {s u : State} {h : CmdHdr} {p : Fin 16} {v : Word}
    (writes : s.writes h 0x0101 (Reg.chkPartCtrl p.val + s.dieOffset p.val) u) :
    exec (.chkPartCtrl h p v) s = .next ((u.chkPartWrite p.val v.toNat).2.reply h.session h.seq
      (u.chkPartWrite p.val v.toNat).1 []) := by
  show execChkPartCtrl h p v s = _
  rw [execChkPartCtrl, writes_next writes]
  rfl

theorem packRotation_next {s u : State} {d : Fin 4} {t i k : Nat} {x : Pack} (hu : u = s.tick t) (hx : x = u.packOf d.val)
    (on : bit (u.reg (Reg.chkPackCtrl d.val)) 0 = true)
    (due : x.at_ + 1000000000 * max 1 (bits (u.reg (Reg.chkPackCtrl d.val)) 15 8) ≤ u.now) (hi : i = (x.last + 1) % 32)
    (hk : k = 32 * d.val + i) :
    exec (.packRotation d t) s = .next (u.setPack d.val (u.packNext ⟨i, u.now, some k, none, []⟩
      (if (!u.woken || (u.dom (hankDom (hankOf k))).state == .on) = true then u.packTests k else []))) := by
  subst hk hi
  show execPackRotation d t s = _
  unfold execPackRotation
  dsimp only
  rw [← hu, ← hx, on, decide_eq_false (by omega), if_neg (by decide)]

/-- What the end of a pack's test leaves: the pass counted, or the failure recorded and scored (R457, R459). -/
theorem packTestEnd_next {s u w : State} {d : Fin 4} {r : PackResult} {t st : Nat} {x : Pack} {c : PackTest}
    (hu : u = s.tick t) (hx : x = u.packOf d.val) (hst : x.strand = some st) (hc : x.cur = some c)
    (may : u.packMayRun st = true)
    (hw : w = (u.inc (Reg.chkPackRunCount d.val)).setPack d.val (u.packNext x x.rest)) :
    exec (.packTestEnd d r t) s = .next (
      if !(r.telltale != c.expected || isBlocking r.status || decide (c.bound < r.us)) then
        w.modStrand st fun y => { y with packPasses := (y.packPasses + 1) % 65536 }
      else ((w.inc (Reg.chkPackFailCount d.val)).fsr { w.record 6 (w.partOf (hankOf st)) with
        status := if r.status = 0 then none else some r.status,
        wher := [(0, d.val), (1, hankOf st), (3, st)],
        strand := some ((w.hank (hankOf st)).band, c.pattern, (w.hank (hankOf st)).temp),
        pack := some (c.id, c.version, c.num),
        telltales := some (c.expected, r.telltale) }).scoreRise st (4 * (w.hank (hankOf st)).band + c.pattern)) := by
  show execPackTestEnd d r t s = _
  unfold execPackTestEnd
  dsimp only
  rw [← hu, ← hx, hst, hc]
  dsimp only
  rw [may, if_neg (by decide), ← hw]

theorem scoreDecay_next {s u : State} {k : Fin 128} {c : Fin 20} {t n a : Nat} (hu : u = s.tick t)
    (found : mget (u.strand k.val).scores c.val = some (n, a)) (old : a + 86400000000000 ≤ u.now) :
    exec (.scoreDecay k c t) s = .next (u.modStrand k.val fun x => { x with scores := mdel x.scores c.val }) := by
  show execScoreDecay k c t s = _
  unfold execScoreDecay
  dsimp only
  rw [← hu, found]
  dsimp only
  rw [if_neg (by omega)]

/-- The hank with its band, temperature and pattern, the band with its margin (R462). -/
theorem bandClassify_next {s u : State} {g : Fin 16} {c : LoadCounts} {t : Nat} {a b : Int} {x : Hank} (hu : u = s.tick t)
    (hx : x = u.hank g.val) (ha : (u.spot g.val).a = some a) (hb : (u.spot g.val).b = some b) :
    exec (.bandClassify g c t) s = .next (foldS (fun s i => s.freeAvail (8 * g.val + i)) (u.modHank g.val fun h => { h with
      pattern := if 20 ≤ max c.power x.lastPower - min c.power x.lastPower then 3 else if 500 ≤ c.matrix then 0
        else if 500 ≤ c.vector then 1 else 2,
      lastPower := c.power, temp := max a b, banded := true,
      band := if h.banded = true then bandNext h.band (max a b) else bandOf (max a b) }) (upTo 8)) := by
  show execBandClassify g c t s = _
  unfold execBandClassify
  dsimp only
  rw [← hu, ← hx, ha, hb]

/-- Settles O55, command by command. -/
theorem checksAndPacks : Obligations.ChecksAndPacks := by
  refine ⟨?_, ?_, ?_, ?_, ?_, ?_, fun s u d t i k x hu hx on due hi hk => packRotation_next hu hx on due hi hk, ?_, ?_, ?_⟩
  · intro s u h first n item runs hn hitem
    refine ⟨fun none_ => fsrRead_none runs hn none_, fun r found => ?_⟩
    rw [fsrRead_some runs hn found, show item = u.recordItem h.session from funext hitem]
  · intro s u h n runs
    rw [fsrAck_next runs]
    refine ⟨fun above => by rw [if_pos above], fun below own => ?_, fun below own => ?_⟩
    · rw [if_neg (by omega), if_pos own]
    · rw [if_neg (by omega), if_neg (by rw [own]; decide)]
  · intro s u v w h k off total len clear data runs hk short fits some_ hv hw htotal hlen
    have kept : w = u.packKept k off clear data := by
      rw [hw, hv]
      rfl
    refine ⟨?_, fun bad => ?_, fun good passes hpasses => ?_⟩
    · rw [packLoad_fragment runs hk short fits some_, kept]
    · rw [packLoad_last runs hk short fits, ← kept, ← htotal, State.packChecked, bad, if_pos (by rfl)]
      rfl
    · rw [packLoad_last runs hk short fits, ← kept, ← htotal, State.packChecked, good, if_neg (by decide), ← hlen,
        ← hpasses]
      split_ifs <;> rfl
  · intro s u h p v writes
    rw [chkPartCtrl_next writes]
    unfold State.chkPartWrite
    refine ⟨fun pairs no => ?_, fun ok => ?_⟩
    · rw [pairs, no, if_pos (by rfl)]
    · rw [if_neg]
      simpa using ok
  · intro s u h k v
    refine ⟨fun writes some_ => ?_, fun writes a m ha hm => ?_⟩
    · show execChkStrandQset h k v s = _
      rw [execChkStrandQset, writes_next writes]
      dsimp only [ans]
      rw [State.qsetWrite, if_neg]
      rw [Bool.and_eq_true, not_and, decide_eq_true_eq]
      intro zero
      rcases some_ with some_ | some_
      · exact absurd zero some_
      · rw [some_]
        decide
    · subst ha hm
      show execChkStrandQmask h k v s = _
      rw [execChkStrandQmask, writes_next writes]
      rfl
  · intro s u h p v
    refine ⟨fun writes => ?_, fun writes old new hold hnew => ?_⟩
    · show execGblDetPartJrnlRd h p v s = _
      rw [execGblDetPartJrnlRd, writes_next writes]
      rfl
    · subst hold hnew
      show execGblDetPartReplay h p v s = _
      rw [execGblDetPartReplay, writes_next writes]
      rfl
  · intro s u v w d r t st g x c hu hx hst hc may hv hw hg
    subst hv hg
    rw [packTestEnd_next hu hx hst hc may hw]
    refine ⟨fun same ok inTime => ?_, fun fails => ?_⟩
    · rw [if_pos]
      simp [same, ok, inTime]
    · rw [if_neg]
      rcases fails with e | e | e <;> simp [e]
  · intro s u k c t n a hu found old
    exact scoreDecay_next hu found old
  · intro s u g c t pat a b x hu hx ha hb hpat
    subst hpat
    exact bandClassify_next hu hx ha hb

end Sys2Proof.Machine

end

section
/-! SUPPORT. Ships, moves, held entries and bight regions (R246, R252, R254, R255, R258, R284). -/

namespace Sys2Proof.Machine

/-- Whether a sequence number names a retired sequence (R254). -/
def State.seqRetired (u : State) (id : Nat) : Bool :=
  match mget u.serve.seqs id with
  | some x => x.state == .retired
  | none => false

/-- The pages of a sequence's chains, in chain and walk order (R254). -/
def State.shipPages (u : State) (chains : List Nat) : List (Nat × Nat) :=
  ((upTo chains.length).zip chains).flatMap fun c => ((upTo 65536).zip (u.walk c.2)).map fun e => (c.1 * 65536 + e.1, e.2)

/-- The ship that a request begins (R254). -/
def State.newShip (u : State) (h : CmdHdr) (q : ShipReq) (p id : Nat) : Ship :=
  ⟨p, id, q.copy, q.modNum, q.part, u.roleAt q.modNum q.part, q.firstChain, q.epoch, u.shipPages (u.seqChains id), false, 0, 0,
    h.seq, h.session⟩

/-- The state with a ship of the next number (R254). -/
def State.withShip (u : State) (x : Ship) : State :=
  { u with kv := { u.kv with ships := mput u.kv.ships u.kv.nextShip x, nextShip := u.kv.nextShip + 1 } }

/-- What KV_SHIP answers of a sequence in range (R254). -/
def State.shipAnswer (u : State) (h : CmdHdr) (q : ShipReq) (p id : Nat) : Nat × List Byte × State :=
  if !(u.seqRetired id) || (u.seqChains id).isEmpty || u.kv.ships.any (fun e => e.2.seq == id) then ans stSeqState u
  else if ((u.withShip (u.newShip h q p id)).part p).txKey.isNone then
    ans stOk ((u.withShip (u.newShip h q p id)).endShip u.kv.nextShip (u.newShip h q p id) stShipFailed)
  else ans stOk ((u.withShip (u.newShip h q p id)).openShip u.kv.nextShip (u.newShip h q p id) false)

theorem kvShip_next {s u : State} {h : CmdHdr} {q : ShipReq} {p id : Nat} (runs : s.runs h 0x050B u) (hp : p = sidPart h.session)
    (inRange : q.index < (u.part p).seqSize) (known : q.part ≤ 31) (hid : id = (u.part p).seqBase + q.index) :
    exec (.kvShip h q) s = .next ((u.shipAnswer h q p id).2.2.reply h.session h.seq (u.shipAnswer h q p id).1
      (u.shipAnswer h q p id).2.1) := by
  subst hp hid
  have form : ((u.part (sidPart h.session)).seqSize ≤ q.index || 31 < q.part) = false := by
    rw [Bool.or_eq_false_iff, decide_eq_false_iff_not, decide_eq_false_iff_not]
    omega
  show execKvShip h q s = _
  rw [execKvShip, runs_next runs]
  dsimp only
  rw [form, if_neg (by decide)]
  rfl

theorem kvShipPage_next {s u v : State} {d : Fin 4} {t : Nat} {x : Delivered} (hu : u = s.tick t)
    (found : ((u.engine d.val).rx.find? fun x => x.packet.vc == 4) = some x)
    (hv : v = u.modEngine d.val fun e => { e with rx := e.rx.erase x }) :
    (leAt x.packet.payload 0 4 = 1 → exec (.kvShipPage d t) s = .next (v.acceptShip x.packet)) ∧
    (leAt x.packet.payload 0 4 = 2 → exec (.kvShipPage d t) s = .next (v.takePiece x.packet)) ∧
    (leAt x.packet.payload 0 4 = 3 → ∀ y, mget v.kv.ships (leAt x.packet.payload 4 4) = some y →
      exec (.kvShipPage d t) s = .next (if !(fromHolder y x.packet) || y.accepted then v
        else if ((v.shipAccepted (leAt x.packet.payload 4 4) y).sendPages (leAt x.packet.payload 4 4) y false y.toSend).1 then
          ((v.shipAccepted (leAt x.packet.payload 4 4) y).sendPages (leAt x.packet.payload 4 4) y false y.toSend).2
        else ((v.shipAccepted (leAt x.packet.payload 4 4) y).sendPages (leAt x.packet.payload 4 4) y false y.toSend).2.endShip
          (leAt x.packet.payload 4 4) { y with accepted := true } stShipFailed)) ∧
    (leAt x.packet.payload 0 4 = 4 → ∀ y, mget v.kv.ships (leAt x.packet.payload 4 4) = some y →
      exec (.kvShipPage d t) s = .next (if fromHolder y x.packet then
        v.endShip (leAt x.packet.payload 4 4) { y with accepted := true } stOk else v)) ∧
    (leAt x.packet.payload 0 4 = 5 → ∀ y, v.inboundOf x.packet = some y →
      exec (.kvShipPage d t) s = .next (v.dropInbound y)) := by
  have key : exec (.kvShipPage d t) s = execKvShipPage d t s := rfl
  rw [key, execKvShipPage]
  dsimp only
  rw [← hu, takeRx_found found hv]
  dsimp only
  refine ⟨fun kind => ?_, fun kind => ?_, fun kind y hy => ?_, fun kind y hy => ?_, fun kind y hy => ?_⟩
  · simp only [kind]
  · simp only [kind]
  · simp only [kind, hy]
  · simp only [kind, hy]
  · simp only [kind, hy]

/-- The oldest move of a partition ends (R252). -/
theorem pageMove_next {s u v : State} {p : Fin 16} {t : Nat} {m : Move} {a b : Page} {r : Nat × List Byte × State}
    (hu : u = s.tick t) (found : (u.kv.moves.find? fun m => m.part == p.val) = some m)
    (hv : v = { u with kv := { u.kv with moves := u.kv.moves.filter fun x => x != m } }) (ha : v.page m.source = some a)
    (hb : v.page m.target = some b) (hr : r = v.fetchMpa none (a.frame * 65536) 65536 []) :
    (r.1 ≠ stOk → exec (.pageMove p t) s = .next (((r.2.2.modPage m.source fun x => { x with state := .live }).freePage
      p.val m.target).finishResumes p.val)) ∧
    (r.1 = stOk → ∀ w, w = (r.2.2.storeMpa none (b.frame * 65536) r.2.1 []).2 →
      exec (.pageMove p t) s = .next ((((w.setPage m.target (some { a with
        state := .live, ct := b.ct, frame := b.frame,
        expiry := if m.demote then w.expiryAt (w.reg (Reg.kvpPartTtlCt p.val)) else a.expiry })).repoint
          m.source m.target).freePage p.val m.source).finishResumes p.val)) := by
  have key : exec (.pageMove p t) s = execPageMove p t s := rfl
  rw [key, execPageMove]
  dsimp only
  rw [← hu, found]
  dsimp only
  rw [← hv, ha, hb]
  dsimp only
  rw [← hr]
  refine ⟨fun bad => by rw [if_pos bad], fun good w hw => ?_⟩
  rw [if_neg (not_not.2 good), ← hw]

theorem heldFlush_next {s u v : State} {p : Fin 16} {t : Nat} (hu : u = s.tick t) (live : u.live p.val = true)
    (idle : (u.step p.val).phase ≠ .committing) (free : 0 < u.freePages p.val false + u.freePages p.val true)
    (hv : v = (u.flushHeld p.val).unstarveSeqs p.val) :
    exec (.heldFlush p t) s = .next { v with kv := { v.kv with nonEmptyAt := mdel v.kv.nonEmptyAt p.val } } := by
  show execHeldFlush p t s = _
  unfold execHeldFlush
  dsimp only
  rw [← hu, if_pos (by rw [live, decide_eq_true free]; simpa using idle), ← hv]

/-- Settles O56, command by command. -/
theorem pagesMoveAndShip : Obligations.PagesMoveAndShip := by
  refine ⟨?_, ?_, ?_, fun s u v p t hu live idle free hv => heldFlush_next hu live idle free hv, ?_⟩
  · intro s u v h q p id num x sq chains runs hp inRange known hid hchains
    rw [kvShip_next runs hp inRange known hid, State.shipAnswer, ← hchains]
    refine ⟨fun no => ?_, fun hsq retired some_ new hnum hx hv => ?_⟩
    · rw [if_pos]
      · rfl
      rcases no with no | no
      · have notRetired : u.seqRetired id = false := by
          unfold State.seqRetired
          cases e : mget u.serve.seqs id with
          | none => rfl
          | some y => exact beq_eq_false_iff_ne.2 (no y e)
        rw [notRetired]
        rfl
      · rw [no]
        simp
    · have ship : x = u.newShip h q p id := by
        rw [hx, hchains]
        rfl
      have stored : v = u.withShip (u.newShip h q p id) := by
        rw [hv, hnum, ship]
        rfl
      have unshipped : (u.kv.ships.any fun e => e.2.seq == id) = false :=
        List.any_eq_false.2 fun e he => by simpa using new e he
      have isRetired : u.seqRetired id = true := by
        unfold State.seqRetired
        rw [hsq]
        exact beq_iff_eq.2 retired
      rw [isRetired, unshipped, if_neg (by simpa using some_), ← ship, ← hnum]
      rw [← ship] at stored
      rw [← stored]
      refine ⟨fun keyless => by rw [keyless, if_pos (by rfl)]; rfl, fun keyed => ?_⟩
      rw [if_neg (by simpa using keyed)]
      rfl
  · intro s u v d t num x hu found hv hnum
    subst hnum
    obtain ⟨opens, page, accepted, done, failed⟩ := kvShipPage_next hu found hv
    refine ⟨opens, page, fun kind y r hy holder fresh hr => ?_, fun kind y hy holder => ?_, failed⟩
    · subst hr
      rw [accepted kind y hy, holder, fresh, if_neg (by decide)]
    · rw [done kind y hy, if_pos holder]
  · intro s u v w p t e m a b r hu found hv ha hb hr
    obtain ⟨stays, moves⟩ := pageMove_next hu found hv ha hb hr
    refine ⟨fun good hw he => ?_, stays⟩
    subst he
    exact moves good w hw
  · intro s u h d p v writes
    have key : exec (.kvpPartBightRegion h d p v) s = execKvpPartBightRegion h d p v s := rfl
    rw [key, execKvpPartBightRegion, writes_next writes]
    dsimp only [ans]
    unfold State.regionWrite
    exact ⟨fun ok => by rw [ok]; rfl, fun no => by rw [no]; rfl⟩

end Sys2Proof.Machine

end

section
/-! SUPPORT. Budget accounts and the handles of PREFIX_MAKE (R266, R267, R269, R282). -/

namespace Sys2Proof.Machine

/-- A tick of an enabled account without a waiting setting is one refill (R266). -/
theorem tick_of_settled {a : Account} (settled : a.pending = none) (on : a.en = true) : a.tick = a.refillOnce := by
  have stays : a.settle = a := by
    unfold Account.settle
    rw [settled]
  unfold Account.tick
  rw [stays, if_pos on]

theorem budgetSet_next {s u : State} {h : CmdHdr} {b : BudgetSet} (runs : s.runs h 0x0506 u) (hk : b.account < 4096)
    (hp : b.part < 16) (hr : b.rate < 2 ^ 32) (hc : b.cap < 2 ^ 64)
    (may : isCommander h.session = true ∨ b.setPart = false ∧ (u.account b.account).part = sidPart h.session) :
    exec (.budgetSet h b) s = .next ((u.modAccount b.account fun a => { a with
      part := if b.setPart = true then b.part else a.part,
      pending := some (b.rate, b.cap, b.en) }).reply h.session h.seq stOk []) := by
  show execBudgetSet h b s = _
  rw [execBudgetSet, runs_next runs]
  rw [if_neg (by omega), if_neg, if_neg]
  · rfl
  · rcases may with c | ⟨_, own⟩
    · rw [c]
      simp
    · rw [own]
      simp
  · rcases may with c | ⟨keeps, _⟩
    · rw [c]
      simp
    · rw [keeps]
      simp

/-- The account that an adjustment leaves (R269). -/
def Account.adjusted (a : Account) (rm : Bool) (m : Nat) : Account :=
  if rm then { a with balance := a.balance - m, adjOut := a.adjOut + m }
  else { a with balance := a.balance + m, adjIn := a.adjIn + m }

/-- The part of an adjustment that is made: at most the balance is removed (R269). -/
def Account.amount (a : Account) (rm : Bool) (n : Nat) : Nat := if rm then min n a.balance else n

theorem budgetAdjust_next {s u : State} {h : CmdHdr} {k n : Nat} {rm : Bool} {a : Account} (runs : s.runs h 0x0507 u)
    (hk : k < 4096) (ha : a = u.account k) :
    exec (.budgetAdjust h k rm n) s = .next (if a.part ≠ sidPart h.session then u.reply h.session h.seq stBudgetUnknown []
      else (u.modAccount k fun _ => a.adjusted rm (a.amount rm n)).reply h.session h.seq stOk
        (toLe 8 (a.amount rm n) ++ toLe 8 (a.adjusted rm (a.amount rm n)).wrap.balance)) := by
  show execBudgetAdjust h k rm n s = _
  rw [execBudgetAdjust, runs_next runs]
  dsimp only
  rw [if_neg (by omega), ← ha]
  split <;> rfl

theorem budgetRead_next {s u : State} {h : CmdHdr} {k : Nat} (runs : s.runs h 0x0508 u) (hk : k < 4096)
    (may : isCommander h.session = true ∨ (u.account k).part = sidPart h.session) :
    exec (.budgetRead h k) s = .next (u.reply h.session h.seq stOk (u.accountSeen h.session k).bytes) := by
  show execBudgetRead h k s = _
  rw [execBudgetRead, runs_next runs]
  dsimp only
  rw [if_neg (by omega), if_neg]
  rcases may with c | own
  · rw [c]
    simp
  · rw [own]
    simp

/-- Whether a page holds all the tokens that it can (R282). -/
def State.fullPage (u : State) (x : Sequence) (j : Nat) : Bool :=
  match u.page j with
  | some y => y.fill == tagCap x.fmt x.mx x.d32
  | none => false

/-- The lowest handle of a partition that is free (R282). -/
def State.freeHandle (u : State) (p : Nat) : Option Nat :=
  (upTo (u.part p).handles).find? fun j => ((mget u.serve.handles (p * 65536 + j)).map fun y => y.live) != some true

/-- The leading pages of a sequence may be held: whole, enough of them, and references left (R282). -/
def State.prefixGood (u : State) (n : Nat) (x : Sequence) (walks : List (List Nat)) : Bool :=
  !(65535 < n || !(walks.all fun w => w.length == n && w.all (u.fullPage x)) || !(u.refsFit walks.flatten))

/-- The state with leading pages held by a handle: moves given up, references added (R282). -/
def State.prefixHeld (u : State) (p j n gen : Nat) (x : Sequence) (walks : List (List Nat)) : State :=
  let v := foldS (fun s i => (s.cancelMove i).addRef i) u walks.flatten
  { v with serve := { v.serve with
      handles := mput v.serve.handles (p * 65536 + j) ⟨p, gen, true, x.fmt, x.mx, x.d32, n, walks⟩,
      handleGen := mput v.serve.handleGen (p * 65536 + j) gen } }

/-- The generation that a handle takes next (R282). -/
def State.nextGen (u : State) (k : Nat) : Nat := ((mget u.serve.handleGen k).map fun g => (g + 1) % 65536).getD 0

/-- What PREFIX_MAKE answers of a sequence that may be held (R282). -/
def State.prefixAnswer (u : State) (p n : Nat) (x : Sequence) (walks : List (List Nat)) : Nat × List Byte × State :=
  match u.freeHandle p with
  | none => ans stPrefixInvalid u
  | some j =>
    if 65535 < n || !(walks.all fun w => w.length == n && w.all (u.fullPage x)) || !(u.refsFit walks.flatten) then
      ans stPrefixInvalid u
    else (stOk, toLe 4 (j + 65536 * u.nextGen (p * 65536 + j)), u.prefixHeld p j n (u.nextGen (p * 65536 + j)) x walks)

theorem prefixMake_next {s u : State} {h : CmdHdr} {i n p : Nat} {x : Sequence} {walks : List (List Nat)}
    (runs : s.runs h 0x0509 u) (hp : p = sidPart h.session) (hi : i < (u.part p).seqSize) (hn : 0 < n)
    (hx : u.seq ((u.part p).seqBase + i) = some x) (state : x.state = .decode ∨ x.state = .paused ∨ x.state = .preempted)
    (hw : walks = (u.seqChains ((u.part p).seqBase + i)).map fun c => (u.walk c).take n) :
    exec (.prefixMake h i n) s = .next ((u.prefixAnswer p n x walks).2.2.reply h.session h.seq (u.prefixAnswer p n x walks).1
      (u.prefixAnswer p n x walks).2.1) := by
  subst hw hp
  show execPrefixMake h i n s = _
  rw [execPrefixMake, runs_next runs]
  dsimp only
  rw [if_neg (by omega), hx]
  dsimp only
  rw [if_neg (by rcases state with e | e | e <;> rw [e] <;> decide)]
  rfl

theorem prefixAnswer_noHandle {u : State} {p n : Nat} {x : Sequence} {walks : List (List Nat)} (used : u.freeHandle p = none) :
    u.prefixAnswer p n x walks = ans stPrefixInvalid u := by
  unfold State.prefixAnswer
  rw [used]

theorem prefixAnswer_bad {u : State} {p n j : Nat} {x : Sequence} {walks : List (List Nat)} (free : u.freeHandle p = some j)
    (bad : 65535 < n ∨ (∃ w ∈ walks, w.length ≠ n ∨ ∃ g ∈ w, u.fullPage x g = false) ∨ u.refsFit walks.flatten = false) :
    u.prefixAnswer p n x walks = ans stPrefixInvalid u := by
  unfold State.prefixAnswer
  rw [free]
  dsimp only
  rw [if_pos]
  rcases bad with many | ⟨w, hw, bad⟩ | refs
  · simp [many]
  · have short : (walks.all fun w => w.length == n && w.all (u.fullPage x)) = false := by
      rw [List.all_eq_false]
      refine ⟨w, hw, ?_⟩
      rcases bad with len | ⟨g, hg, part⟩
      · simp [len]
      · rw [Bool.and_eq_true, List.all_eq_true]
        exact fun ⟨_, all⟩ => absurd (all g hg) (by rw [part]; decide)
    simp [short]
  · simp [refs]

theorem prefixAnswer_good {u : State} {p n j : Nat} {x : Sequence} {walks : List (List Nat)} (free : u.freeHandle p = some j)
    (few : n ≤ 65535) (whole : ∀ w ∈ walks, w.length = n ∧ ∀ g ∈ w, u.fullPage x g = true)
    (refs : u.refsFit walks.flatten = true) :
    u.prefixAnswer p n x walks =
      (stOk, toLe 4 (j + 65536 * u.nextGen (p * 65536 + j)), u.prefixHeld p j n (u.nextGen (p * 65536 + j)) x walks) := by
  have all_ : (walks.all fun w => w.length == n && w.all (u.fullPage x)) = true := by
    rw [List.all_eq_true]
    intro w hw
    obtain ⟨len, full⟩ := whole w hw
    rw [len, List.all_eq_true.2 full]
    simp
  unfold State.prefixAnswer
  rw [free]
  dsimp only
  rw [all_, refs, decide_eq_false (by omega), if_neg (by decide)]

theorem prefixDrop_next {s u : State} {h : CmdHdr} {w : Word} (runs : s.runs h 0x050A u) :
    (u.handle (sidPart h.session) w.toNat = none →
      exec (.prefixDrop h w) s = .next (u.reply h.session h.seq stPrefixInvalid [])) ∧
    (∀ k x v, u.handle (sidPart h.session) w.toNat = some (k, x) →
      v = foldS (fun s i => s.dropRef (sidPart h.session) i) u x.chains.flatten →
      exec (.prefixDrop h w) s = .next (State.reply { v with
        serve := { v.serve with handles := mdel v.serve.handles k } } h.session h.seq stOk [])) := by
  have key : exec (.prefixDrop h w) s = execPrefixDrop h w s := rfl
  rw [key, execPrefixDrop, runs_next runs]
  dsimp only
  refine ⟨fun none_ => ?_, fun k x v found hv => ?_⟩
  · rw [none_]
    rfl
  · rw [found]
    dsimp only [ans]
    rw [← hv]

/-- Settles O57, command by command. -/
theorem accountsRefillAndPrefixesHold : Obligations.AccountsRefillAndPrefixesHold := by
  refine ⟨?_, ?_, fun s u h b runs hk hp hr hc may => budgetSet_next runs hk hp hr hc may, ?_,
    fun s u h k runs hk may => budgetRead_next runs hk may, ?_, fun s u h w runs => prefixDrop_next runs⟩
  · intro s u t n busy hu hn due hbusy
    subst hbusy hn
    show execRefillTick t s = _
    rw [execRefillTick, ← hu, State.refill, if_neg due]
  · intro a settled on
    rw [tick_of_settled settled on]
    rfl
  · intro s u h k n m rm a b runs hk ha
    rw [budgetAdjust_next runs hk ha]
    refine ⟨fun other => by rw [if_pos other], fun own hm hb => ?_⟩
    subst hm hb
    rw [if_neg (not_not.2 own)]
    rfl
  · intro s u h i n p x walks full runs hp hi hn hx state hwalks hfull
    have pages : full = u.fullPage x := hfull
    subst pages
    rw [prefixMake_next runs hp hi hn hx state hwalks]
    refine ⟨fun used => ?_, fun j free => ⟨fun bad => ?_, fun few whole refs gen v hgen hv => ?_⟩⟩
    · have none_ : u.freeHandle p = none :=
        List.find?_eq_none.2 fun j hj => by rw [used j (mem_upTo.1 hj)]; decide
      rw [prefixAnswer_noHandle none_]
      rfl
    · rw [prefixAnswer_bad free bad]
      rfl
    · subst hgen hv
      rw [prefixAnswer_good free few whole refs]
      rfl

end Sys2Proof.Machine

end

section
/-! SUPPORT. Admission, sequence commands, reels, step building and the page manager (R249, R250, R253, R264, R270, R279, R281,
R285). -/

namespace Sys2Proof.Machine

/-! SERVE_SUBMIT (R264, R285) -/

/-- The tokens that the held pages give a request to start with (R264). -/
def prefixTokens (pre : Option (Nat × Handle)) : Nat :=
  match pre with
  | some (_, y) => y.pages * tagCap y.fmt y.mx y.d32
  | none => 0

/-- The handle of a request fits it; `without` says that it names none (R264). -/
def State.prefixFits (s : State) (p : Nat) (x : Sequence) (pre : Option (Nat × Handle)) (without : Bool) : Bool :=
  match pre with
  | some (_, y) => y.fmt == x.fmt && y.mx == x.mx && y.d32 == x.d32 && y.chains.length == s.cps p && s.refsFit y.chains.flatten
  | none => without

/-- The chains that a request names may be adopted (R285). -/
def State.adoptFits (s : State) (p id : Nat) (x : Sequence) : Bool :=
  id % s.cps p == 0 && decide (id / s.cps p < (s.part p).seqSize) &&
    (s.seq ((s.part p).seqBase + id / s.cps p)).isNone && s.adoptable p (id / s.cps p) x

/-- The account of a request may be charged (R264). -/
def State.accountFits (s : State) (p : Nat) (x : Sequence) : Bool := (s.account x.account).en && (s.account x.account).part == p

/-- The state and the answer of a request that is admitted under an index (R264, R285). -/
def State.admitted (s : State) (p i : Nat) (b : List Byte) (adopt : Bool) (pre : Option (Nat × Handle)) :
    Nat × List Byte × State :=
  let x := Sequence.parse p b
  let q := (s.part p).seqBase + i
  let t := if adopt then foldS (fun s c => s.modChain c fun y => { y with seq := q }) s (s.chainsFor p i)
    else s.openChains p i x (pre.map Prod.snd)
  (stOk, toLe 4 i ++ toLe 4 0 ++ toLe 8 (leAt b 0x28 8),
    t.admitSeq p i (if adopt then { x with state := .decode, done := x.promptLen } else { x with prefixPos := prefixTokens pre })
      (mgetD s.serve.admission p 0))

/-- What a request answers, by the handle that it names (R264, R285). -/
def State.submitWith (s : State) (p : Nat) (b : List Byte) (adopt : Bool) (pre : Option (Nat × Handle)) :
    Nat × List Byte × State :=
  if requestBad b (prefixTokens pre) then ans stMalformed s
  else if !(s.accountFits p (Sequence.parse p b)) then ans stBudgetUnknown s
  else if !(s.prefixFits p (Sequence.parse p b) pre (adopt || leAt b 0x20 4 == 0xFFFFFFFF)) ||
      (adopt && !(s.adoptFits p (leAt b 0x20 4) (Sequence.parse p b))) then ans stPrefixInvalid s
  else
    match if adopt then some (leAt b 0x20 4 / s.cps p) else (upTo (s.part p).seqSize).find? fun j => s.freeIndex p j with
    | none => ans stAdmitFull s
    | some i => s.admitted p i b adopt pre

theorem submit_eq (s : State) (p : Nat) (b : List Byte) : s.submit p b = s.submitWith p b (bit (leAt b 0 4) 17)
    (if bit (leAt b 0 4) 17 || leAt b 0x20 4 == 0xFFFFFFFF then none else s.handle p (leAt b 0x20 4)) := rfl

theorem serveSubmit_next {s u : State} {h : CmdHdr} {b : List Byte} (runs : s.runs h 0x0500 u) {r : Nat × List Byte × State}
    (hr : u.submit (sidPart h.session) b = r) : exec (.serveSubmit h b) s = .next (r.2.2.reply h.session h.seq r.1 r.2.1) := by
  show execServeSubmit h b s = _
  rw [execServeSubmit, runs_next runs, hr]

section
variable {s : State} {p : Nat} {b : List Byte} {adopt : Bool} {pre : Option (Nat × Handle)}

theorem submitWith_malformed (bad : requestBad b (prefixTokens pre) = true) : s.submitWith p b adopt pre = ans stMalformed s := by
  unfold State.submitWith
  rw [if_pos bad]

theorem submitWith_noAccount (good : requestBad b (prefixTokens pre) = false)
    (no : s.accountFits p (Sequence.parse p b) = false) : s.submitWith p b adopt pre = ans stBudgetUnknown s := by
  unfold State.submitWith
  rw [good, if_neg (by decide), no, if_pos (by rfl)]

theorem submitWith_noPrefix (good : requestBad b (prefixTokens pre) = false)
    (ok : s.accountFits p (Sequence.parse p b) = true)
    (no : s.prefixFits p (Sequence.parse p b) pre (adopt || leAt b 0x20 4 == 0xFFFFFFFF) = false ∨
      adopt = true ∧ s.adoptFits p (leAt b 0x20 4) (Sequence.parse p b) = false) :
    s.submitWith p b adopt pre = ans stPrefixInvalid s := by
  unfold State.submitWith
  rw [good, if_neg (by decide), ok, if_neg (by decide), if_pos]
  rcases no with no | ⟨adopts, no⟩
  · rw [no]
    rfl
  · rw [adopts, no]
    simp

theorem submitWith_fits (good : requestBad b (prefixTokens pre) = false)
    (ok : s.accountFits p (Sequence.parse p b) = true)
    (fits : s.prefixFits p (Sequence.parse p b) pre (adopt || leAt b 0x20 4 == 0xFFFFFFFF) = true)
    (may : adopt = true → s.adoptFits p (leAt b 0x20 4) (Sequence.parse p b) = true) {free : Option Nat}
    (hf : free = if adopt then some (leAt b 0x20 4 / s.cps p)
      else (upTo (s.part p).seqSize).find? fun j => s.freeIndex p j) :
    (free = none → s.submitWith p b adopt pre = ans stAdmitFull s) ∧
      ∀ i, free = some i → s.submitWith p b adopt pre = s.admitted p i b adopt pre := by
  have goes : (!(s.prefixFits p (Sequence.parse p b) pre (adopt || leAt b 0x20 4 == 0xFFFFFFFF)) ||
      (adopt && !(s.adoptFits p (leAt b 0x20 4) (Sequence.parse p b)))) = false := by
    rw [fits]
    cases adopt with
    | false => rfl
    | true => rw [may rfl]; rfl
  unfold State.submitWith
  rw [good, if_neg (by decide), ok, if_neg (by decide), goes, if_neg (by decide), ← hf]
  exact ⟨fun e => by rw [e], fun i e => by rw [e]⟩

end

/-! Sequence commands (R249, R250, R253, R270) -/

theorem onSeq_none {s : State} {p i : Nat} {f : Nat → Sequence → Nat × List Byte × State} (hi : i < (s.part p).seqSize)
    (none_ : s.seq ((s.part p).seqBase + i) = none) : s.onSeq p i f = ans stSeqState s := by
  unfold State.onSeq
  rw [if_neg (by omega), none_]

theorem onSeq_some {s : State} {p i : Nat} {x : Sequence} {f : Nat → Sequence → Nat × List Byte × State}
    (hi : i < (s.part p).seqSize) (found : s.seq ((s.part p).seqBase + i) = some x) :
    s.onSeq p i f = f ((s.part p).seqBase + i) x := by
  unfold State.onSeq
  rw [if_neg (by omega), found]

/-- A sequence command of an index that no sequence uses is refused (R270). -/
theorem sequenceCommand_none {s u : State} {h : CmdHdr} {i : Nat} (hi : i < (u.part (sidPart h.session)).seqSize)
    (none_ : u.seq ((u.part (sidPart h.session)).seqBase + i) = none) :
    ∀ c ∈ [(0x0501, Instr.serveCancel h i), (0x0502, .servePause h i), (0x0503, .serveResume h i)],
      s.runs h c.1 u → exec c.2 s = .next (u.reply h.session h.seq stSeqState []) := by
  have refused : ∀ {code : Nat} {f : State → Nat → Sequence → Nat × List Byte × State}, s.runs h code u →
      s.command h code (fun s => s.onSeq (sidPart h.session) i (f s)) = u.reply h.session h.seq stSeqState [] := fun runs => by
    rw [runs_next runs, onSeq_none hi none_]
    rfl
  simp only [List.forall_mem_cons, List.not_mem_nil, false_imp_iff, implies_true, and_true]
  exact ⟨fun runs => congrArg Host.Outcome.next (refused runs), fun runs => congrArg Host.Outcome.next (refused runs),
    fun runs => congrArg Host.Outcome.next (refused runs)⟩

section
variable {s u : State} {h : CmdHdr} {i q : Nat} {x : Sequence} (hi : i < (u.part (sidPart h.session)).seqSize)
  (hq : q = (u.part (sidPart h.session)).seqBase + i) (hx : u.seq q = some x)
include hi hq hx

theorem serveCancel_active (runs : s.runs h 0x0501 u) (active : x.state ≠ .retired) :
    exec (.serveCancel h i) s = .next (State.reply (u.modSeq q fun y => { y with cancelled := true }) h.session h.seq
      stOk []) := by
  subst hq
  show execServeCancel h i s = _
  rw [execServeCancel, runs_next runs, onSeq_some hi hx]
  rw [if_neg (by simpa using active)]
  rfl

/-- The OPEN chains of a retired sequence are closed, and the ships of the sequence end (R270). -/
theorem serveCancel_retired {l : List Nat} (runs : s.runs h 0x0501 u) (retired : x.state = .retired)
    (hl : l = (u.seqChains q).filter fun c => (u.chain c).state == .opened) :
    exec (.serveCancel h i) s = .next (if l.isEmpty then u.reply h.session h.seq stSeqState []
      else State.reply ((foldS (fun s c => s.closeChain c) (foldS (fun s e => s.endShip e.1 e.2 stShipFailed) u
        (u.kv.ships.filter fun e => e.2.seq == q)) l).tidySeq q) h.session h.seq stOk []) := by
  subst hq
  show execServeCancel h i s = _
  rw [execServeCancel, runs_next runs, onSeq_some hi hx]
  rw [retired, if_pos (by decide)]
  dsimp only
  rw [← hl]
  split <;> rfl

theorem servePause_next (runs : s.runs h 0x0502 u) :
    exec (.servePause h i) s = .next (if x.state != .decode then u.reply h.session h.seq stSeqState []
      else if u.inBatch (sidPart h.session) q then
        State.reply (u.modSeq q fun y => { y with pausing := true }) h.session h.seq stOk []
      else State.reply (u.pause (sidPart h.session) q) h.session h.seq stOk []) := by
  subst hq
  show execServePause h i s = _
  rw [execServePause, runs_next runs]
  dsimp only
  rw [onSeq_some hi hx]
  split
  · rfl
  · split <;> rfl

theorem serveResume_next (runs : s.runs h 0x0503 u) :
    exec (.serveResume h i) s = .next (
      if x.pausing then State.reply (u.modSeq q fun y => { y with pausing := false }) h.session h.seq stOk []
      else if !(x.state == .paused || x.state == .preempted) then u.reply h.session h.seq stSeqState []
      else State.reply ((((u.setTtl (sidPart h.session) q false).modSeq q fun y => { y with resuming := true }).promote
        (sidPart h.session) q).finishResume q) h.session h.seq stOk []) := by
  subst hq
  show execServeResume h i s = _
  rw [execServeResume, runs_next runs]
  dsimp only
  rw [onSeq_some hi hx]
  split
  · rfl
  · split <;> rfl

end

/-- A page of a sequence is still being moved (R253). -/
def State.pageMoves (v : State) (q : Nat) : Bool :=
  (v.seqChains q).any fun c => (v.walk c).any fun i => v.kv.moves.any fun m => m.source == i

theorem finishResume_next {v : State} {q : Nat} {x : Sequence} (hx : mget v.serve.seqs q = some x) (resumes : x.resuming = true) :
    v.finishResume q = if !(v.pageMoves q) then
        (v.modSeq q fun y => { y with state := y.back, resuming := false }).setChains q .opened
      else v := by
  unfold State.finishResume
  rw [hx]
  dsimp only
  rw [resumes, Bool.true_and]
  rfl

theorem pageMoves_iff {v : State} {q : Nat} :
    v.pageMoves q = true ↔ ∃ c ∈ v.seqChains q, ∃ i ∈ v.walk c, ∃ m ∈ v.kv.moves, m.source = i := by
  unfold State.pageMoves
  simp only [List.any_eq_true, beq_iff_eq]

/-! Reels (R279, R281) -/

/-- The bytes of a place of a reel after those before it, or the status that ended the read (R279). -/
def reelNext (p base f ring : Nat) (a : Nat × List Byte × State) (k : Nat) : Nat × List Byte × State :=
  if a.1 ≠ stOk then a
  else
    let y := a.2.2.fetchP none p (base + 32 * ((f + k) % ring)) 32 []
    (y.1, a.2.1 ++ y.2.1, y.2.2)

theorem reelRead_range {s u : State} {h : CmdHdr} {i f n : Nat} {r : Reel} (runs : s.runs h 0x0504 u)
    (hi : i < (u.part (sidPart h.session)).seqSize) (hn : 0 < n) (hm : n ≤ 44)
    (hr : r = u.reel ((u.part (sidPart h.session)).seqBase + i)) (outside : f < r.rd ∨ r.wr < f) :
    exec (.reelRead h i f n) s = .next (u.reply h.session h.seq stReelRange []) := by
  show execReelRead h i f n s = _
  rw [execReelRead, runs_next runs]
  dsimp only
  rw [if_neg (by omega), ← hr, if_pos outside]
  rfl

theorem reelRead_within {s u : State} {h : CmdHdr} {i f n q base : Nat} {r seen : Reel} {got : Nat × List Byte × State}
    (runs : s.runs h 0x0504 u) (hi : i < (u.part (sidPart h.session)).seqSize) (hn : 0 < n) (hm : n ≤ 44)
    (hq : q = (u.part (sidPart h.session)).seqBase + i) (hr : r = u.reel q) (low : r.rd ≤ f) (high : f ≤ r.wr)
    (hb : base = u.reg64 (Reg.srvPartReelLo (sidPart h.session)) (Reg.srvPartReelHi (sidPart h.session)) +
      i * 32 * u.ring (sidPart h.session))
    (hg : got = foldS (reelNext (sidPart h.session) base f (u.ring (sidPart h.session))) (stOk, [], u)
      (upTo (min n (r.wr - f))))
    (hs : seen = (mget u.serve.heldReels (2 ^ 20 * sidPart h.session + q)).getD r) :
    exec (.reelRead h i f n) s = .next (
      if got.1 = stOk then got.2.2.reply h.session h.seq stOk (toLe 8 seen.wr ++ toLe 8 seen.rd ++ got.2.1)
      else got.2.2.reply h.session h.seq got.1 []) := by
  subst hq
  show execReelRead h i f n s = _
  rw [execReelRead, runs_next runs]
  dsimp only
  rw [if_neg (by omega), ← hr, if_neg (by omega), ← hb, ← hs]
  unfold reelNext at hg
  dsimp only at hg
  rw [← hg]
  split <;> rfl

theorem reelAck_next {s u : State} {h : CmdHdr} {i f q : Nat} {r : Reel} (runs : s.runs h 0x0505 u)
    (hi : i < (u.part (sidPart h.session)).seqSize) (hq : q = (u.part (sidPart h.session)).seqBase + i) (hr : r = u.reel q) :
    exec (.reelAck h i f) s = .next (
      if r.wr < f then u.reply h.session h.seq stReelRange []
      else if f ≤ r.rd then State.reply (u.tidySeq q) h.session h.seq stOk []
      else State.reply (State.tidySeq { u with
        serve := { u.serve with reels := mput u.serve.reels q { r with rd := f } } } q) h.session h.seq stOk []) := by
  subst hq
  show execReelAck h i f s = _
  rw [execReelAck, runs_next runs]
  dsimp only
  rw [if_neg (by omega), ← hr]
  split
  · rfl
  · split <;> rfl

/-! STEP_BUILD and PAGE_MANAGER (R249, R281) -/

theorem stepBuild_next {s u : State} {k : Fin 16} {t : Nat} (hu : u = s.tick t) (served : (u.step k.val).mode = 3)
    (may : u.mayStart k.val = true) (empty : mgetD u.serve.batch k.val [] = []) (own : u.replays k.val = false) :
    exec (.stepBuild k t) s = .next (if (u.plan k.val).entries.isEmpty then u
      else ((u.plan k.val).s.throttle k.val (u.plan k.val).throttled).startBatch k.val (u.plan k.val).entries) := by
  show execStepBuild k t s = _
  unfold execStepBuild
  dsimp only
  rw [← hu, served, may, empty, own, if_neg (by decide), if_neg (by decide)]

/-- The lowest-ranked sequence that runs is preempted, in a running batch when its step ends (R250). -/
def State.preemptLowest (s : State) (p : Nat) : State :=
  match ((s.ranked p).filter fun e => e.2.state == .decode || e.2.state == .prefill).getLast? with
  | none => s
  | some e =>
    if s.inBatch p e.1 then s.modSeq e.1 fun y => { y with preempting := true }
    else
      match ((s.preempt p e.1).movable e.1 false).head? with
      | some i => (s.preempt p e.1).startMove p i true
      | none => s.preempt p e.1

/-- The preempted sequences that hold pages in HBM (R250). -/
def State.preemptedHeld (s : State) (p : Nat) : List (Nat × Sequence) :=
  (s.ranked p).filter fun e => e.2.state == .preempted && !(s.movable e.1 false).isEmpty

/-- A page of a preempted sequence is taken, or a sequence is preempted (R250). -/
def State.takeHeld (s : State) (p : Nat) : State :=
  if !(decide (0 < s.freePages p true)) then s
  else
    match (s.preemptedHeld p).head? with
    | some e => s.startMove p ((s.movable e.1 false).headD 0) true
    | none => s.preemptLowest p

/-- An expired page of CTF memory is evicted, or another page is taken (R249). -/
def State.evictOrTake (s : State) (p : Nat) : State :=
  match (if s.replays p then [] else s.expiredPages p true fun x => x.state != .retired).head? with
  | some e => s.retire p e.2.1 4 4 (s.seqLen p e.2.1) (((s.seq e.2.1).map fun x => x.tokens).getD 0)
  | none => s.takeHeld p

/-- What the page manager does when it is short of pages (R249). -/
def State.makeRoom (s : State) (p : Nat) : State :=
  match (if decide (0 < s.freePages p true) then s.expiredPages p false fun x => x.state == .paused else []).head? with
  | some e => s.startMove p e.2.2 true
  | none => s.evictOrTake p

/-- A chain of a partition is starved of pages (R249). -/
def State.anyStarved (s : State) (p : Nat) : Bool := (s.chainsOf p).any fun c => (s.chain c).state == .starved

theorem manage_next (s : State) (p : Nat) : s.manage p =
    if s.reg (Reg.kvpPartLowWater p) ≤ s.freePages p false && !(s.anyStarved p) then s else s.makeRoom p := rfl

theorem pageManager_next {s u : State} {k : Fin 16} {t : Nat} (hu : u = s.tick t) : exec (.pageManager k t) s =
    .next (if u.live k.val && (u.step k.val).phase != .committing then u.manage k.val else u) := by
  show execPageManager k t s = _
  unfold execPageManager
  dsimp only
  rw [← hu]

section
variable {s : State} {p : Nat}

theorem makeRoom_demotes {e : Nat × Nat × Nat} {l : List (Nat × Nat × Nat)} (ct : decide (0 < s.freePages p true) = true)
    (found : s.expiredPages p false (fun x => x.state == .paused) = e :: l) : s.makeRoom p = s.startMove p e.2.2 true := by
  unfold State.makeRoom
  rw [ct, if_pos rfl, found]
  rfl

theorem makeRoom_otherwise (h : decide (0 < s.freePages p true) = false ∨
    s.expiredPages p false (fun x => x.state == .paused) = []) : s.makeRoom p = s.evictOrTake p := by
  have none_ : (if decide (0 < s.freePages p true) then s.expiredPages p false fun x => x.state == .paused else []) = [] := by
    rcases h with h | h
    · rw [h, if_neg (by decide)]
    · rw [h, ite_self]
  unfold State.makeRoom
  rw [none_]
  rfl

theorem evictOrTake_evicts {e : Nat × Nat × Nat} {l : List (Nat × Nat × Nat)} (own : s.replays p = false)
    (found : s.expiredPages p true (fun x => x.state != .retired) = e :: l) :
    s.evictOrTake p = s.retire p e.2.1 4 4 (s.seqLen p e.2.1) (((s.seq e.2.1).map fun x => x.tokens).getD 0) := by
  unfold State.evictOrTake
  rw [own, if_neg (by decide), found]
  rfl

theorem evictOrTake_otherwise (own : s.replays p = false)
    (none_ : s.expiredPages p true (fun x => x.state != .retired) = []) : s.evictOrTake p = s.takeHeld p := by
  unfold State.evictOrTake
  rw [own, if_neg (by decide), none_]
  rfl

theorem takeHeld_full (full : decide (0 < s.freePages p true) = false) : s.takeHeld p = s := by
  unfold State.takeHeld
  rw [full, if_pos (by decide)]

theorem takeHeld_takes {e : Nat × Sequence} {l : List (Nat × Sequence)} (ct : decide (0 < s.freePages p true) = true)
    (found : s.preemptedHeld p = e :: l) : s.takeHeld p = s.startMove p ((s.movable e.1 false).headD 0) true := by
  unfold State.takeHeld
  rw [ct, if_neg (by decide), found]
  rfl

theorem takeHeld_preempts (ct : decide (0 < s.freePages p true) = true) (none_ : s.preemptedHeld p = []) :
    s.takeHeld p = s.preemptLowest p := by
  unfold State.takeHeld
  rw [ct, if_neg (by decide), none_]
  rfl

theorem preemptLowest_none
    (none_ : ((s.ranked p).filter fun e => e.2.state == .decode || e.2.state == .prefill) = []) : s.preemptLowest p = s := by
  unfold State.preemptLowest
  rw [none_]
  rfl

theorem preemptLowest_some {e : Nat × Sequence}
    (found : ((s.ranked p).filter fun e => e.2.state == .decode || e.2.state == .prefill).getLast? = some e) :
    (s.inBatch p e.1 = true → s.preemptLowest p = s.modSeq e.1 fun y => { y with preempting := true }) ∧
    (s.inBatch p e.1 = false → ∀ v, v = s.preempt p e.1 →
      (v.movable e.1 false = [] → s.preemptLowest p = v) ∧
      ∀ g l, v.movable e.1 false = g :: l → s.preemptLowest p = v.startMove p g true) := by
  unfold State.preemptLowest
  rw [found]
  dsimp only
  refine ⟨fun batch => by rw [if_pos batch], fun out v hv => ?_⟩
  rw [out, if_neg (by decide), ← hv]
  exact ⟨fun none_ => by rw [none_]; rfl, fun g l found => by rw [found]; rfl⟩

end

/-! The statement, command by command -/

/-- A request without ADOPT and handle (R264). -/
theorem serveSubmit_plain {s u : State} {h : CmdHdr} {b : List Byte} {p n : Nat} {x : Sequence} {ok : Bool}
    (runs : s.runs h 0x0500 u) (hp : p = sidPart h.session) (hx : x = Sequence.parse p b)
    (hn : n = mgetD u.serve.admission p 0) (hok : ok = u.accountFits p x) (noAdopt : bit (leAt b 0 4) 17 = false)
    (noPrefix : leAt b 0x20 4 = 0xFFFFFFFF) :
    (requestBad b 0 = true → exec (.serveSubmit h b) s = .next (u.reply h.session h.seq stMalformed [])) ∧
    (requestBad b 0 = false → ok = false → exec (.serveSubmit h b) s = .next (u.reply h.session h.seq stBudgetUnknown [])) ∧
    (requestBad b 0 = false → ok = true → (∀ j < (u.part p).seqSize, u.freeIndex p j = false) →
      exec (.serveSubmit h b) s = .next (u.reply h.session h.seq stAdmitFull [])) ∧
    (∀ i, requestBad b 0 = false → ok = true → ((upTo (u.part p).seqSize).find? fun j => u.freeIndex p j) = some i →
      exec (.serveSubmit h b) s = .next (State.reply ((u.openChains p i x none).admitSeq p i x n) h.session h.seq stOk
        (toLe 4 i ++ toLe 4 0 ++ toLe 8 (leAt b 0x28 8)))) := by
  subst hp hx hn hok
  have shape : u.submit (sidPart h.session) b = u.submitWith (sidPart h.session) b false none := by
    rw [submit_eq, noAdopt, noPrefix]
    rfl
  have named : u.prefixFits (sidPart h.session) (Sequence.parse (sidPart h.session) b) none
      (false || leAt b 0x20 4 == 0xFFFFFFFF) = true := by
    rw [noPrefix]
    rfl
  have fits := fun good account => submitWith_fits (adopt := false) (pre := none) good account named (fun k => nomatch k) rfl
  refine ⟨fun bad => serveSubmit_next runs (shape.trans (submitWith_malformed bad)),
    fun good no => serveSubmit_next runs (shape.trans (submitWith_noAccount good no)), fun good account full => ?_,
    fun i good account free => ?_⟩
  · refine serveSubmit_next runs (shape.trans ((fits good account).1 ?_))
    exact List.find?_eq_none.2 fun j hj => by rw [full j (mem_upTo.1 hj)]; decide
  · exact serveSubmit_next runs (shape.trans ((fits good account).2 i free))

/-- A request with a matching handle (R264, R282). -/
theorem serveSubmit_prefix {s u : State} {h : CmdHdr} {b : List Byte} {p id n : Nat} {x : Sequence} {ok : Bool}
    (runs : s.runs h 0x0500 u) (hp : p = sidPart h.session) (hx : x = Sequence.parse p b) (hid : id = leAt b 0x20 4)
    (hn : n = mgetD u.serve.admission p 0) (hok : ok = u.accountFits p x) (noAdopt : bit (leAt b 0 4) 17 = false)
    (hnamed : id ≠ 0xFFFFFFFF) :
    (∀ k y i, u.handle p id = some (k, y) → requestBad b (y.pages * tagCap y.fmt y.mx y.d32) = false → ok = true →
      y.fmt = x.fmt → y.mx = x.mx → y.d32 = x.d32 → y.chains.length = u.cps p → u.refsFit y.chains.flatten = true →
      ((upTo (u.part p).seqSize).find? fun j => u.freeIndex p j) = some i →
      exec (.serveSubmit h b) s = .next (State.reply ((u.openChains p i x (some y)).admitSeq p i
          { x with prefixPos := y.pages * tagCap y.fmt y.mx y.d32 } n) h.session h.seq stOk
        (toLe 4 i ++ toLe 4 0 ++ toLe 8 (leAt b 0x28 8)))) ∧
    (u.handle p id = none → requestBad b 0 = false → ok = true →
      exec (.serveSubmit h b) s = .next (u.reply h.session h.seq stPrefixInvalid [])) := by
  subst hp hx hid hn hok
  have other : (leAt b 0x20 4 == 0xFFFFFFFF) = false := beq_eq_false_iff_ne.2 hnamed
  have shape : u.submit (sidPart h.session) b =
      u.submitWith (sidPart h.session) b false (u.handle (sidPart h.session) (leAt b 0x20 4)) := by
    rw [submit_eq, noAdopt, other]
    rfl
  refine ⟨fun k y i found good account fmt mx d32 chains refs free => ?_, fun none_ good account => ?_⟩
  · rw [found] at shape
    have fits : u.prefixFits (sidPart h.session) (Sequence.parse (sidPart h.session) b) (some (k, y))
        (false || leAt b 0x20 4 == 0xFFFFFFFF) = true := by
      unfold State.prefixFits
      dsimp only
      rw [fmt, mx, d32, chains, refs]
      simp
    have admits := submitWith_fits (adopt := false) (pre := some (k, y)) good account fits (fun k => nomatch k) rfl
    exact serveSubmit_next runs (shape.trans (admits.2 i free))
  · rw [none_] at shape
    refine serveSubmit_next runs (shape.trans (submitWith_noPrefix good account (.inl ?_)))
    rw [other]
    rfl

/-- A request with ADOPT (R285). -/
theorem serveSubmit_adopt {s u : State} {h : CmdHdr} {b : List Byte} {p id n i : Nat} {x : Sequence} {ok : Bool}
    (runs : s.runs h 0x0500 u) (hp : p = sidPart h.session) (hx : x = Sequence.parse p b) (hid : id = leAt b 0x20 4)
    (hn : n = mgetD u.serve.admission p 0) (hok : ok = u.accountFits p x) (adopts : bit (leAt b 0 4) 17 = true)
    (good : requestBad b 0 = false) (account : ok = true) (hi : i = id / u.cps p) :
    (id % u.cps p = 0 → i < (u.part p).seqSize → u.seq ((u.part p).seqBase + i) = none → u.adoptable p i x = true →
      ∀ v, v = foldS (fun s c => s.modChain c fun y => { y with seq := (u.part p).seqBase + i }) u (u.chainsFor p i) →
      exec (.serveSubmit h b) s = .next (State.reply (v.admitSeq p i { x with state := .decode, done := x.promptLen } n)
        h.session h.seq stOk (toLe 4 i ++ toLe 4 0 ++ toLe 8 (leAt b 0x28 8)))) ∧
    ((id % u.cps p ≠ 0 ∨ (u.part p).seqSize ≤ i ∨ u.adoptable p i x = false) →
      exec (.serveSubmit h b) s = .next (u.reply h.session h.seq stPrefixInvalid [])) := by
  subst hi hp hx hid hn hok
  have shape : u.submit (sidPart h.session) b = u.submitWith (sidPart h.session) b true none := by
    rw [submit_eq, adopts]
    rfl
  refine ⟨fun whole inRange unused fits v hv => ?_, fun no => ?_⟩
  · subst hv
    have may : u.adoptFits (sidPart h.session) (leAt b 0x20 4) (Sequence.parse (sidPart h.session) b) = true := by
      unfold State.adoptFits
      rw [whole, decide_eq_true inRange, unused, fits]
      rfl
    have admits := submitWith_fits (adopt := true) (pre := none) good account rfl (fun _ => may) rfl
    exact serveSubmit_next runs (shape.trans (admits.2 _ rfl))
  · refine serveSubmit_next runs (shape.trans (submitWith_noPrefix good account (.inr ⟨rfl, ?_⟩)))
    unfold State.adoptFits
    rcases no with no | no | no
    · rw [beq_eq_false_iff_ne.2 no]
      rfl
    · rw [decide_eq_false (by omega), Bool.and_false]
      rfl
    · rw [no, Bool.and_false]

/-- What the page manager does, by what it is short of (R249, R250). -/
theorem pageManager_cases {s u : State} {k : Fin 16} {t p : Nat} {starved ct : Bool} (hu : u = s.tick t) (hp : p = k.val)
    (hs : starved = u.anyStarved p) (hct : ct = decide (0 < u.freePages p true)) :
    ((u.live p = false ∨ (u.step p).phase = .committing) → exec (.pageManager k t) s = .next u) ∧
    (u.live p = true → (u.step p).phase ≠ .committing →
      (u.reg (Reg.kvpPartLowWater p) ≤ u.freePages p false → starved = false → exec (.pageManager k t) s = .next u) ∧
      ((u.freePages p false < u.reg (Reg.kvpPartLowWater p) ∨ starved = true) →
        exec (.pageManager k t) s = .next (u.makeRoom p))) := by
  subst hp hs hct
  rw [pageManager_next hu]
  refine ⟨fun off => ?_, fun live idle => ?_⟩
  · rw [if_neg]
    rcases off with off | off <;> simp [off]
  · rw [if_pos (by simpa using ⟨live, idle⟩), manage_next]
    refine ⟨fun enough fed => ?_, fun short => ?_⟩
    · rw [if_pos (by rw [decide_eq_true enough, fed]; rfl)]
    · rw [if_neg]
      rcases short with low | starved
      · rw [decide_eq_false (by omega)]
        simp
      · simp [starved]

/-- Settles O58, command by command. -/
theorem admissionAndSequenceControl : Obligations.AdmissionAndSequenceControl := by
  refine ⟨?_, ?_, ?_, ?_, ?_, ?_⟩
  · intro s u h b p id n x ok runs hp hx hid hn hok
    exact ⟨fun noAdopt noPrefix => serveSubmit_plain runs hp hx hn hok noAdopt (hid ▸ noPrefix),
      fun noAdopt named => serveSubmit_prefix runs hp hx hid hn hok noAdopt named,
      fun adopts good account i hi => serveSubmit_adopt runs hp hx hid hn hok adopts good account hi⟩
  · intro s u h i p q hp hi hq
    subst hp
    refine ⟨fun none_ => sequenceCommand_none hi (hq ▸ none_), fun x hx => ⟨fun runs => ⟨fun active =>
      serveCancel_active hi hq hx runs active, fun l retired hl => ⟨fun none_ => ?_, fun some_ v hv => ?_⟩⟩,
      fun runs => ?_, fun runs => ?_⟩⟩
    · rw [serveCancel_retired hi hq hx runs retired hl, none_, if_pos (by rfl)]
    · rw [serveCancel_retired hi hq hx runs retired hl, if_neg (by simpa using some_), hv]
    · rw [servePause_next hi hq hx runs]
      refine ⟨fun other => by rw [if_pos (by simpa using other)], fun decodes batch => ?_, fun decodes out => ?_⟩
      · rw [decodes, if_neg (by decide), if_pos batch]
      · rw [decodes, if_neg (by decide), out, if_neg (by decide)]
    · rw [serveResume_next hi hq hx runs]
      refine ⟨fun pausing => by rw [if_pos pausing], fun paused state v hv => ?_, fun paused no1 no2 => ?_⟩
      · subst hv
        rw [paused, if_neg (by decide), if_neg]
        rcases state with e | e <;> rw [e] <;> decide
      · rw [paused, if_neg (by decide), if_pos]
        rw [beq_eq_false_iff_ne.2 no1, beq_eq_false_iff_ne.2 no2]
        rfl
  · intro v q x hx resumes
    rw [finishResume_next hx resumes]
    refine ⟨fun none_ => if_pos ?_, fun c hc i hi m hm moves => if_neg ?_⟩
    · rw [Bool.not_eq_true', ← Bool.not_eq_true, pageMoves_iff, none_]
      rintro ⟨c, _, i, _, m, hm, _⟩
      exact nomatch hm
    · rw [pageMoves_iff.2 ⟨c, hc, i, hi, m, hm, moves⟩]
      decide
  · intro s u h i f n p q base r hp hi hq hr hb
    subst hp
    refine ⟨fun runs hn hm => ⟨fun outside => reelRead_range runs hi hn hm (hq ▸ hr) outside,
      fun low high got seen hg hs => ⟨fun good => ?_, fun bad => ?_⟩⟩, fun runs => ?_⟩
    · rw [reelRead_within runs hi hn hm hq hr low high hb hg hs, if_pos good]
    · rw [reelRead_within runs hi hn hm hq hr low high hb hg hs, if_neg bad]
    · rw [reelAck_next runs hi hq hr]
      refine ⟨fun above => by rw [if_pos above], fun within back => ?_, fun within ahead => ?_⟩
      · rw [if_neg (by omega), if_pos back]
      · rw [if_neg (by omega), if_neg (by omega)]
  · intro s u k t hu served may empty own
    rw [stepBuild_next hu served may empty own]
    exact ⟨fun none_ => by rw [none_]; rfl, fun some_ => by rw [if_neg (by simpa using some_)]⟩
  · intro s u k t p starved ct hu hp hstarved hct
    obtain ⟨off, on⟩ := pageManager_cases hu hp hstarved hct
    refine ⟨off, fun live idle => ⟨(on live idle).1, fun short => ?_⟩⟩
    subst hct
    rw [(on live idle).2 short]
    refine ⟨fun e l room found => by rw [makeRoom_demotes room found], fun no own => ?_⟩
    rw [makeRoom_otherwise no]
    refine ⟨fun e l found => by rw [evictOrTake_evicts own found], fun none_ full => ?_, fun none_ room held hh => ?_⟩
    · rw [evictOrTake_otherwise own none_, takeHeld_full full]
    · subst hh
      rw [evictOrTake_otherwise own none_]
      refine ⟨fun e l found => by rw [takeHeld_takes room found], fun run e v noHeld hrun => ?_⟩
      subst hrun
      rw [takeHeld_preempts room noHeld]
      refine ⟨fun idle => by rw [preemptLowest_none idle], fun last batch => ?_, fun last out hv => ?_⟩
      · rw [(preemptLowest_some last).1 batch]
      · obtain ⟨stays, moves⟩ := (preemptLowest_some last).2 out v hv
        exact ⟨fun none_ => by rw [stays none_], fun g l found => by rw [moves g l found]⟩

end Sys2Proof.Machine

end

section
/-! SUPPORT. Video contexts, units, buffers and cores (R313, R314, R317, R319, R328, R333, R334). -/

namespace Sys2Proof.Machine

/-! VID_OPEN (R313) -/

/-- A context as VID_OPEN opens it (R313). -/
def openedCtx (p : Nat) (d : List Byte) : VidCtx :=
  { part := p, kind := descBits d 0 1 0, desc := d, units := [], lastUnit := none, ringTail := 0, ringUsed := 0,
    wr := 0, rd := 0, needRap := false, waitSince := none, closing := false, bitsTail := 0, bitsUsed := 0,
    unitBytes := [], outQ := [], refs := [], pictures := 0, sinceIdr := 0, fullness := 0,
    qpF := descBits d 0x40 13 8 }

/-- The lowest closed context of a partition's range (R313). -/
def State.closedCtx (u : State) (p : Nat) : Option Nat :=
  (upTo (u.ctxRange p).2).find? fun i => (u.vidCtx ((u.ctxRange p).1 + i)).isNone

theorem vidOpen_next {s u : State} {h : CmdHdr} {d : List Byte} {p : Nat} (runs : s.runs h 0x0600 u)
    (hp : p = sidPart h.session) (len : d.length = 128) (good : vidDescGood d = true)
    (inOk : u.pmaOk p (leAt d 0x10 8) (leAt d 0x18 4) = true)
    (outOk : u.pmaOk p (leAt d 0x20 8) (32 * descBits d 0x28 12 0) = true)
    (bitsOk : descBits d 0 1 0 = 2 → u.pmaOk p (leAt d 0x58 8) (leAt d 0x60 4) = true) :
    (u.closedCtx p = none → exec (.vidOpen h d) s = .next (u.reply h.session h.seq stVidCtxFull [])) ∧
    ∀ i, u.closedCtx p = some i → exec (.vidOpen h d) s = .next (
      if (u.coresOf p).isEmpty then u.reply h.session h.seq stVidNoCore []
      else State.reply { u with video := { u.video with
        ctxs := mput u.video.ctxs ((u.ctxRange p).1 + i) (openedCtx p d) } } h.session h.seq stOk (toLe 2 i)) := by
  subst hp
  have bits : (descBits d 0 1 0 == 2 && !(u.pmaOk (sidPart h.session) (leAt d 0x58 8) (leAt d 0x60 4))) = false := by
    simpa using bitsOk
  have key : exec (.vidOpen h d) s = execVidOpen h d s := rfl
  rw [key, execVidOpen, runs_next runs]
  dsimp only
  rw [if_neg (by simp [len, good]), inOk, outOk, bits, if_neg (by decide)]
  unfold State.closedCtx
  refine ⟨fun none_ => ?_, fun i found => ?_⟩
  · rw [none_]
    rfl
  · rw [found]
    dsimp only
    split <;> rfl

/-! Commands of a context that the session owns (R314, R317, R328, R333) -/

section
variable {s u : State} {h : CmdHdr} {k c : Nat} {x : VidCtx} (own : u.ownCtx (sidPart h.session) k = some (c, x))
include own

theorem vidClose_next (runs : s.runs h 0x0601 u) :
    exec (.vidClose h k) s = .next (
      if (u.leadCore c).isSome then State.reply (u.modCtx c fun y => { y with closing := true }) h.session h.seq stOk []
      else State.reply (u.endCtx c) h.session h.seq stOk []) := by
  show execVidClose h k s = _
  rw [execVidClose, runs_next runs, own]
  dsimp only
  split <;> rfl

theorem vidRead_next {f n : Nat} (runs : s.runs h 0x0606 u) (hn : 0 < n) (hm : n ≤ 44) {r : Nat × List Byte × State}
    (hr : r = u.readRecords (sidPart h.session) x.outRing x.outRecs f (min n (x.wr - f))) :
    exec (.vidRead h k f n) s = .next (
      if f < x.rd ∨ x.wr < f then u.reply h.session h.seq stReelRange []
      else if r.1 ≠ stOk then r.2.2.reply h.session h.seq r.1 []
      else r.2.2.reply h.session h.seq stOk (toLe 8 x.wr ++ toLe 8 x.rd ++ r.2.1)) := by
  show execVidRead h k f n s = _
  rw [execVidRead, runs_next runs]
  dsimp only
  rw [own]
  dsimp only
  rw [if_neg (by omega), ← hr]
  split
  · rfl
  · split <;> rfl

theorem vidAck_next {f : Nat} (runs : s.runs h 0x0607 u) :
    exec (.vidAck h k f) s = .next (
      if x.wr < f then u.reply h.session h.seq stReelRange []
      else if f ≤ x.rd then u.reply h.session h.seq stOk []
      else State.reply (State.drainOut (u.modCtx c fun y => { y with
        rd := f
        bitsUsed := y.bitsUsed - ((x.unitBytes.filter fun e => decide (e.1 < f)).map Prod.snd).sum
        unitBytes := y.unitBytes.filter fun e => decide (f ≤ e.1) }) c) h.session h.seq stOk []) := by
  show execVidAck h k f s = _
  rw [execVidAck, runs_next runs, own]
  dsimp only
  split
  · rfl
  · split <;> rfl

/-- The number of the unit that follows the last one of a context (R314). -/
def VidCtx.nextUnit (x : VidCtx) : Nat :=
  match x.lastUnit with
  | none => 0
  | some n => n + 1

omit own in
/-- The state with the frame of a held buffer queued to be encoded (R333). -/
def State.frameQueued (u : State) (c b seq handle pts : Nat) (idr : Bool) : State :=
  State.modCtx { u with video := { u.video with order := u.video.order + 1 } } c fun y => { y with
    units := y.units ++ [{ seq := seq, length := 0, pts := pts, eos := false, place := b, handle := handle,
                           forceIdr := idr, fedAt := u.now, order := u.video.order }]
    lastUnit := some seq }

theorem vidEncode_next {idr : Bool} {w : Word} {pts : Nat} (runs : s.runs h 0x0605 u) (encodes : x.encodes = true)
    (open_ : x.closing = false) :
    (u.frameOfHandle (sidPart h.session) w.toNat = none →
      exec (.vidEncode h k idr w pts) s = .next (u.reply h.session h.seq stFrameStale [])) ∧
    ∀ b, u.frameOfHandle (sidPart h.session) w.toNat = some b →
      exec (.vidEncode h k idr w pts) s = .next (State.reply (u.frameQueued c b x.nextUnit w.toNat pts idr)
        h.session h.seq stOk []) := by
  have key : exec (.vidEncode h k idr w pts) s = execVidEncode h k idr w pts s := rfl
  rw [key, execVidEncode, runs_next runs]
  dsimp only
  rw [own]
  dsimp only
  rw [encodes, open_, if_neg (by decide)]
  refine ⟨fun stale => ?_, fun b held => ?_⟩
  · rw [stale]
    rfl
  · rw [held]
    rfl

/-! VID_FEED (R314) -/

omit own in
/-- The bytes that a unit takes in its ring (R314). -/
def ringBytes (unit : List Byte) : Nat := 16 + 16 * ceilDiv (descBits unit 0 27 0) 16

omit own in
/-- The bytes of a unit, those that it brings or those it names, and what their read leaves (R314). -/
def State.feedSource (u : State) (p a : Nat) (ind : Bool) (unit d : List Byte) : Nat × List Byte × State :=
  if ind then u.fetchP none p a (descBits unit 0 27 0) [] else (stOk, d, u)

omit own in
/-- The state with a unit kept in its ring (R314). -/
def State.unitKept (t : State) (p c : Nat) (x : VidCtx) (unit body : List Byte) : State :=
  let v := t.ringStore p x.inRing x.inBytes x.ringTail (unit ++ body ++ toLe (ringBytes unit - (unit ++ body).length) 0)
  State.modCtx { v with video := { v.video with order := v.video.order + 1 } } c fun y => { y with
    units := y.units ++ [{ seq := leAt unit 4 4, length := ringBytes unit, pts := leAt unit 8 8,
                           eos := bit (leAt unit 0 4) 29, place := x.ringTail, handle := 0, forceIdr := false,
                           fedAt := v.now, order := v.video.order }]
    lastUnit := some (leAt unit 4 4)
    ringTail := (y.ringTail + ringBytes unit) % y.inBytes
    ringUsed := y.ringUsed + ringBytes unit }

omit own in
/-- What VID_FEED answers of a unit of the right form (R314). -/
def State.feedAnswer (u : State) (p c a : Nat) (x : VidCtx) (ind : Bool) (unit d : List Byte) : Nat × List Byte × State :=
  if leAt unit 4 4 < x.nextUnit then ans stOk u
  else if x.nextUnit < leAt unit 4 4 && !(bit (leAt unit 0 4) 28) then ans stVidSeqGap u
  else if x.inBytes < x.ringUsed + ringBytes unit then ans stVidRingFull u
  else if (u.feedSource p a ind unit d).1 ≠ stOk then
    ans (u.feedSource p a ind unit d).1 (u.feedSource p a ind unit d).2.2
  else ans stOk ((u.feedSource p a ind unit d).2.2.unitKept p c x unit (u.feedSource p a ind unit d).2.1)

theorem vidFeed_next {a : Nat} {unit d : List Byte} {ind : Bool} (runs : s.runs h 0x0602 u) (decodes : x.encodes = false)
    (open_ : x.closing = false) (len : unit.length = 16) (form : descBits unit 0 31 30 = 0)
    (whole : ind = false → d.length = descBits unit 0 27 0) {r : Nat × List Byte × State}
    (hr : r = u.feedAnswer (sidPart h.session) c a x ind unit d) :
    exec (.vidFeed h k ind a unit d) s = .next (r.2.2.reply h.session h.seq r.1 r.2.1) := by
  have given : (!ind && decide (d.length ≠ descBits unit 0 27 0)) = false := by
    simpa using whole
  show execVidFeed h k ind a unit d s = _
  rw [execVidFeed, runs_next runs, hr]
  dsimp only
  rw [own]
  dsimp only
  rw [decodes, open_, given, if_neg (by simp [len, form])]
  rfl

end

section
variable {u : State} {p c a : Nat} {x : VidCtx} {ind : Bool} {unit d : List Byte}

theorem feedAnswer_earlier (h : leAt unit 4 4 < x.nextUnit) : u.feedAnswer p c a x ind unit d = ans stOk u := by
  unfold State.feedAnswer
  rw [if_pos h]

theorem feedAnswer_gap (h : x.nextUnit < leAt unit 4 4) (undeclared : bit (leAt unit 0 4) 28 = false) :
    u.feedAnswer p c a x ind unit d = ans stVidSeqGap u := by
  unfold State.feedAnswer
  rw [if_neg (by omega), decide_eq_true h, undeclared, if_pos (by rfl)]

/-- What VID_FEED answers of a unit that follows, or that comes after a declared gap (R314). -/
theorem feedAnswer_follows (h : x.nextUnit = leAt unit 4 4 ∨ x.nextUnit < leAt unit 4 4 ∧ bit (leAt unit 0 4) 28 = true) :
    u.feedAnswer p c a x ind unit d =
      if x.inBytes < x.ringUsed + ringBytes unit then ans stVidRingFull u
      else if (u.feedSource p a ind unit d).1 ≠ stOk then
        ans (u.feedSource p a ind unit d).1 (u.feedSource p a ind unit d).2.2
      else ans stOk ((u.feedSource p a ind unit d).2.2.unitKept p c x unit (u.feedSource p a ind unit d).2.1) := by
  conv_lhs => unfold State.feedAnswer
  rw [if_neg (by omega), if_neg]
  rcases h with same | ⟨_, declared⟩
  · simp [same]
  · simp [declared]

end

/-! Buffers and cores (R319, R334) -/

theorem vidAcquire_next {s u : State} {h : CmdHdr} (runs : s.runs h 0x0603 u) :
    (u.freeBuffer (sidPart h.session) = none → exec (.vidAcquire h) s = .next (u.reply h.session h.seq stVidPoolEmpty [])) ∧
    (∀ b, u.freeBuffer (sidPart h.session) = some b → exec (.vidAcquire h) s = .next (State.reply
      (u.modBuffer b fun x => { x with holds := 1, charged := none }) h.session h.seq stOk
      (toLe 4 (u.handleOf (sidPart h.session) b)))) := by
  have key : exec (.vidAcquire h) s = execVidAcquire h s := rfl
  rw [key, execVidAcquire, runs_next runs]
  dsimp only
  refine ⟨fun none_ => ?_, fun b free => ?_⟩
  · rw [none_]
    rfl
  · rw [free]

theorem vidRelease_next {s u : State} {h : CmdHdr} {w : Word} (runs : s.runs h 0x0604 u) :
    (u.frameOfHandle (sidPart h.session) w.toNat = none →
      exec (.vidRelease h w) s = .next (u.reply h.session h.seq stFrameStale [])) ∧
    (∀ b, u.frameOfHandle (sidPart h.session) w.toNat = some b → exec (.vidRelease h w) s = .next (State.reply
      (u.modBuffer b fun x => { x with holds := x.holds - 1 }) h.session h.seq stOk [])) := by
  have key : exec (.vidRelease h w) s = execVidRelease h w s := rfl
  rw [key, execVidRelease, runs_next runs]
  refine ⟨fun stale => ?_, fun b held => ?_⟩
  · rw [stale]
    rfl
  · rw [held]
    rfl

theorem vidCoreOwner_next {s u : State} {h : CmdHdr} {k : Fin 8} {w : Word}
    (writes : s.writes h 0x0101 (Reg.vidCoreOwner k.val) u) :
    exec (.vidCoreOwner h k w) s = .next ((u.coreOwnerWrite k.val w.toNat).2.reply h.session h.seq
      (u.coreOwnerWrite k.val w.toNat).1 []) := by
  show execVidCoreOwner h k w s = _
  rw [execVidCoreOwner, writes_next writes]
  rfl

/-- Settles O59, command by command. -/
theorem videoContextsUnitsAndBuffers : Obligations.VideoContextsUnitsAndBuffers := by
  refine ⟨?_, ?_, fun s u h w => ⟨fun runs => vidAcquire_next runs, fun runs => vidRelease_next runs⟩, ?_⟩
  · intro s u h d p c runs hp hc len good inOk outOk bitsOk
    subst hc
    obtain ⟨full, opens⟩ := vidOpen_next runs hp len good inOk outOk bitsOk
    refine ⟨fun used => full (List.find?_eq_none.2 fun i hi => ?_), fun i free => ?_⟩
    · have some_ := used i (mem_upTo.1 hi)
      rw [Option.isSome_iff_ne_none] at some_
      simpa using some_
    · rw [opens i free]
      exact ⟨fun none_ => by rw [none_, if_pos (by rfl)], fun some_ => by rw [if_neg (by simpa using some_)]; rfl⟩
  · intro s u h k c x own
    refine ⟨fun runs => ?_, ?_, ?_, ?_, fun f runs => ?_⟩
    · rw [vidClose_next own runs]
      exact ⟨fun busy => by rw [if_pos busy], fun idle => by rw [idle, if_neg (by decide)]⟩
    · intro a unit d ind seq next len bytes runs decodes open_ length form whole hseq hnext hlen hbytes
      have count : next = x.nextUnit := hnext
      have taken : bytes = ringBytes unit := by rw [hbytes, hlen]; rfl
      subst hseq count hlen taken
      have fed := vidFeed_next (a := a) own runs decodes open_ length form whole rfl
      rw [fed]
      refine ⟨fun earlier => by rw [feedAnswer_earlier earlier]; rfl,
        fun later undeclared => by rw [feedAnswer_gap later undeclared]; rfl, fun follows => ?_⟩
      rw [feedAnswer_follows follows]
      refine ⟨fun full => by rw [if_pos full]; rfl, fun room st body t v source => ?_⟩
      have source' : u.feedSource (sidPart h.session) a ind unit d = (st, body, t) := source
      rw [if_neg (by exact Nat.not_lt.2 room), source']
      refine ⟨fun bad => by rw [if_pos bad]; rfl, fun good hv => ?_⟩
      subst hv
      rw [if_neg (not_not.2 good)]
      rfl
    · intro idr w pts b runs encodes open_
      obtain ⟨stale, held⟩ := vidEncode_next (idr := idr) (w := w) (pts := pts) own runs encodes open_
      refine ⟨stale, fun seq found hseq => ?_⟩
      have count : seq = x.nextUnit := hseq
      subst count
      exact held b found
    · intro f n runs hn hm
      rw [vidRead_next own runs hn hm rfl]
      refine ⟨fun outside => by rw [if_pos outside], fun low high r hr => ?_⟩
      subst hr
      rw [if_neg (by omega)]
      exact ⟨fun good => by rw [if_neg (not_not.2 good)], fun bad => by rw [if_pos bad]⟩
    · rw [vidAck_next own runs]
      refine ⟨fun above => by rw [if_pos above], fun within back => ?_, fun within ahead => ?_⟩
      · rw [if_neg (by omega), if_pos back]
      · rw [if_neg (by omega), if_neg (by omega)]
  · intro s u h k w p writes hp
    subst hp
    rw [vidCoreOwner_next writes]
    unfold State.coreOwnerWrite
    refine ⟨fun no => ?_, fun idle may => ?_⟩
    · rw [if_pos]
      rcases no with busy | ⟨moved, ⟨e, he, owner⟩, last⟩
      · simp [busy]
      · have open_ : (u.video.ctxs.any fun e => e.2.part == u.reg (Reg.vidCoreOwner k.val) % 32) = true :=
          List.any_eq_true.2 ⟨e, he, beq_iff_eq.2 owner⟩
        rw [open_, last, bne_iff_ne.2 moved]
        simp
    · rw [if_neg]
      rcases may with same | closed | more
      · simp [idle, same]
      · have none_ : (u.video.ctxs.any fun e => e.2.part == u.reg (Reg.vidCoreOwner k.val) % 32) = false :=
          List.any_eq_false.2 fun e he => by simpa using closed e he
        rw [none_]
        simp [idle]
      · simp [idle, more]

end Sys2Proof.Machine

end

section
/-! SUPPORT. Pictures on the video cores (R312, R318 to R325, R328, R555). -/

namespace Sys2Proof.Machine

/-! PICTURE_START (R318, R321, R555) -/

/-- The bytes that a picture may need in its BITS ring (R328). -/
def VidCtx.bitsNeed (x : VidCtx) : Nat := 3 * x.maxW * x.maxH * (if x.tenBit then 2 else 1) / 2

/-- A context has room for the picture at its head (R318, R328). -/
def State.ctxRoom (u : State) (c : Nat) (x : VidCtx) : Bool :=
  !(x.dpb ≤ u.dpbUsed c || !(decide (x.wr - x.rd + x.outQ.length + 2 ≤ x.outRecs)) ||
    !(!x.encodes || decide (x.bitsNeed ≤ x.bitsBytes - x.bitsUsed)))

theorem ctxRoom_iff {u : State} {c : Nat} {x : VidCtx} : u.ctxRoom c x = true ↔
    u.dpbUsed c < x.dpb ∧ x.wr - x.rd + x.outQ.length + 2 ≤ x.outRecs ∧
      (x.encodes = true → x.bitsNeed ≤ x.bitsBytes - x.bitsUsed) := by
  unfold State.ctxRoom
  cases x.encodes
  · simp
  · simp
    omega

/-- The cores of a picture whose power estimate has not caught up (R555). -/
def State.lateCores (u : State) (x : VidCtx) (cores : List Nat) : List Nat := cores.filter fun j => !(u.coreReady j x.encodes)

theorem lateCores_eq {u : State} {x : VidCtx} {cores : List Nat} : u.lateCores x cores =
    cores.filter fun j => decide ((u.vidCore j).ramp.level_ coreRate u.now < (Config.coreLoad x.encodes).val) := by
  refine List.filter_congr fun j _ => ?_
  unfold State.coreReady
  rw [← decide_not, decide_eq_decide]
  exact Nat.not_le

/-- What PICTURE_START does with the picture at the head of a context that has room (R318, R321). -/
def State.pictureStarted (u : State) (k p c : Nat) (x : VidCtx) (e : Unit_) (f : PicShape) : State :=
  match u.freeBuffer p with
  | none => if x.waitSince.isSome then u else u.modCtx c fun y => { y with waitSince := some u.now }
  | some b =>
    if !(u.lateCores x (u.sharers p k x f)).isEmpty then
      foldS (fun s j => s.aimCore j (Config.coreLoad x.encodes).val) u (u.lateCores x (u.sharers p k x f))
    else ((u.modBuffer b fun y => { y with decoding := c + 1, pic := none }).modCtx c fun y =>
      { y with waitSince := none }).takePicture (u.sharers p k x f) c b x e f

theorem pictureStart_busy {s u : State} {k : Fin 8} {f : PicShape} {t p : Nat} (hu : u = s.tick t)
    (hp : p = u.reg (Reg.vidCoreOwner k.val) % 32)
    (h : (u.vidCore k.val).state ≠ 0 ∨ u.now < (u.vidCore k.val).resetUntil ∨ 16 ≤ p ∨ u.queueHead p = none) :
    exec (.pictureStart k f t) s = .next u := by
  show execPictureStart k f t s = _
  unfold execPictureStart
  dsimp only
  rw [← hu, ← hp]
  by_cases idle : (!(u.coreIdle k.val) || 16 ≤ p) = true
  · rw [if_pos idle]
  · rw [if_neg idle]
    have none_ : u.queueHead p = none := by
      unfold State.coreIdle at idle
      simp only [Bool.or_eq_true, Bool.not_eq_true', Bool.and_eq_false_iff, beq_eq_false_iff_ne, decide_eq_false_iff_not,
        decide_eq_true_eq, not_or, not_not] at idle
      obtain ⟨⟨free, rested⟩, owned⟩ := idle
      rcases h with h | h | h | h
      · exact absurd free h
      · omega
      · omega
      · exact h
    rw [none_]

theorem pictureStart_head {s u : State} {k : Fin 8} {f : PicShape} {t p c : Nat} {x : VidCtx} {e : Unit_} (hu : u = s.tick t)
    (hp : p = u.reg (Reg.vidCoreOwner k.val) % 32) (free : (u.vidCore k.val).state = 0)
    (rested : (u.vidCore k.val).resetUntil ≤ u.now) (owned : p < 16) (head : u.queueHead p = some (c, x, e)) :
    exec (.pictureStart k f t) s = .next (if u.ctxRoom c x then u.pictureStarted k.val p c x e f else u) := by
  have idle : u.coreIdle k.val = true := by
    unfold State.coreIdle
    rw [free, decide_eq_true rested]
    rfl
  show execPictureStart k f t s = _
  unfold execPictureStart
  dsimp only
  rw [← hu, ← hp, idle, decide_eq_false (by omega), if_neg (by decide), head]
  dsimp only
  unfold State.ctxRoom
  cases full : (x.dpb ≤ u.dpbUsed c || !(decide (x.wr - x.rd + x.outQ.length + 2 ≤ x.outRecs)) ||
    !(!x.encodes || decide (x.bitsNeed ≤ x.bitsBytes - x.bitsUsed)))
  · unfold VidCtx.bitsNeed at full
    rw [full, if_neg (by decide)]
    rfl
  · unfold VidCtx.bitsNeed at full
    rw [full, if_pos rfl]
    rfl

theorem pictureStarted_waits {u : State} {k p c : Nat} {x : VidCtx} {e : Unit_} {f : PicShape} (none_ : u.freeBuffer p = none) :
    u.pictureStarted k p c x e f =
      if x.waitSince.isSome = true then u else u.modCtx c fun y => { y with waitSince := some u.now } := by
  unfold State.pictureStarted
  rw [none_]

theorem pictureStarted_buffer {u : State} {k p c b : Nat} {x : VidCtx} {e : Unit_} {f : PicShape}
    (free : u.freeBuffer p = some b) : u.pictureStarted k p c x e f =
      if u.lateCores x (u.sharers p k x f) = [] then
        ((u.modBuffer b fun y => { y with decoding := c + 1, pic := none }).modCtx c fun y =>
          { y with waitSince := none }).takePicture (u.sharers p k x f) c b x e f
      else foldS (fun s j => s.aimCore j (Config.coreLoad x.encodes).val) u (u.lateCores x (u.sharers p k x f)) := by
  unfold State.pictureStarted
  rw [free]
  dsimp only
  by_cases e : u.lateCores x (u.sharers p k x f) = []
  · rw [if_pos e, e, if_neg (by decide)]
  · rw [if_neg e, if_pos (by simpa using e)]

/-- The cores that share a picture (R321). -/
theorem sharers_eq {u : State} {p k m : Nat} {x : VidCtx} {f : PicShape} {idle : List Nat}
    (hi : idle = (u.coresOf p).filter fun j => j != k && u.coreIdle j) (hm : m = min (descBits x.desc 0 10 8) (idle.length + 1)) :
    u.sharers p k x f = if x.encodes = true ∨ shareOf f m 0 = none ∨ m < 2 then [k] else k :: idle.take (m - 1) := by
  unfold State.sharers
  dsimp only
  rw [← hi, ← hm]
  exact if_congr (by simp [or_assoc]) rfl rfl

/-! PICTURE_DONE and WATCHDOG (R322, R324) -/

section
variable {s u : State} {k : Fin 8} {r : PicReport} {t : Nat} {y : VidCore} {x : VidCtx} {e : Unit_}

theorem pictureDone_next (hu : u = s.tick t) :
    exec (.pictureDone k r t) s = .next (if u.pictureEarly k.val r then u else u.pictureEnds k.val r false) := by
  show execPictureDone k r t s = _
  unfold execPictureDone
  dsimp only
  rw [← hu]

theorem pictureEnds_without {timeout : Bool} (hy : y = u.vidCore k.val) (h : y.unit = none ∨ u.vidCtx y.ctx = none) :
    u.pictureEnds k.val r timeout = u := by
  unfold State.pictureEnds
  dsimp only
  rw [← hy]
  rcases h with h | h
  · rw [h]
  · rw [h]
    cases y.unit <;> rfl

/-- What the end of a picture makes of it, before a closing context ends (R322). -/
def State.pictureMade (v : State) (y : VidCore) (x : VidCtx) (e : Unit_) (r : PicReport) (timeout : Bool) : State :=
  if x.encodes then v.encodeDone y.ctx x e y.buffer r timeout else v.decodeDone y.ctx x e y.buffer r timeout

/-- The state with the cores of a picture released and its windows counted, the watchdog's count too (R322, R324). -/
def State.pictureReleased (u : State) (y : VidCore) (x : VidCtx) (r : PicReport) (timeout : Bool) : State :=
  let v := (u.releaseCores y.ctx).bump (Reg.vidPartWindowCount x.part) r.window
  if timeout then v.inc (Reg.vidPartWdogCount x.part) else v

theorem pictureEnds_next {timeout : Bool} {z : State} (hy : y = u.vidCore k.val) (unit : y.unit = some e)
    (ctx : u.vidCtx y.ctx = some x) (hz : z = (u.pictureReleased y x r timeout).pictureMade y x e r timeout) :
    u.pictureEnds k.val r timeout = if x.closing = true then z.endCtx y.ctx else z := by
  subst hz
  unfold State.pictureEnds
  dsimp only
  rw [← hy, unit, ctx]
  rfl

theorem pictureEarly_next (hy : y = u.vidCore k.val) (ctx : u.vidCtx y.ctx = some x) :
    u.pictureEarly k.val r = (y.share == .whole && r.reason == 0 && decide (u.now < y.since + x.cycles r)) := by
  unfold State.pictureEarly
  dsimp only
  rw [← hy, ctx]

/-- The time that the watchdog allows a picture (R324). -/
def VidCtx.allowance (x : VidCtx) (r : PicReport) : Nat :=
  (if descBits x.desc 8 15 8 = 0 then 32 else descBits x.desc 8 15 8) * x.cycles r / 4

theorem watchdog_none (hu : u = s.tick t) (hy : y = u.vidCore k.val) (ctx : u.vidCtx y.ctx = none) :
    exec (.watchdog k r t) s = .next u := by
  show execWatchdog k r t s = _
  unfold execWatchdog
  dsimp only
  rw [← hu, ← hy, ctx]

theorem watchdog_next (hu : u = s.tick t) (hy : y = u.vidCore k.val) (ctx : u.vidCtx y.ctx = some x) :
    exec (.watchdog k r t) s = .next (if y.state = 0 ∨ u.now < y.since + x.allowance r then u
      else u.pictureEnds k.val r true) := by
  show execWatchdog k r t s = _
  unfold execWatchdog
  dsimp only
  rw [← hu, ← hy, ctx]
  exact congrArg Host.Outcome.next (if_congr (by simp [VidCtx.allowance]) rfl rfl)

end

/-! Dropped pictures (R320, R323, R325) -/

/-- The reason with which a decoded picture is dropped, 0 where it is kept (R323). -/
def State.dropReason (s : State) (x : VidCtx) (r : PicReport) : Nat :=
  if r.reason ≠ 0 then r.reason
  else if decide (x.maxW < r.width) || decide (x.maxH < r.height) ||
      decide (s.reg (Reg.vidPartBufBytes x.part) < pictureBytes r.width r.height r.tenBit (x.kind == 1)) then 2
  else if x.needRap && !r.rap then 6 else 0

theorem dropReason_of {s : State} {x : VidCtx} {r : PicReport} {reason : Nat}
    (h : r.reason ≠ 0 ∧ reason = r.reason ∨
      r.reason = 0 ∧ (x.maxW < r.width ∨ x.maxH < r.height ∨
        s.reg (Reg.vidPartBufBytes x.part) < pictureBytes r.width r.height r.tenBit (x.kind == 1)) ∧ reason = 2 ∨
      r.reason = 0 ∧ r.width ≤ x.maxW ∧ r.height ≤ x.maxH ∧
        pictureBytes r.width r.height r.tenBit (x.kind == 1) ≤ s.reg (Reg.vidPartBufBytes x.part) ∧
        x.needRap = true ∧ r.rap = false ∧ reason = 6) : s.dropReason x r = reason ∧ reason ≠ 0 := by
  unfold State.dropReason
  rcases h with ⟨given, rfl⟩ | ⟨none_, big, rfl⟩ | ⟨none_, wide, high, fits, needs, noRap, rfl⟩
  · exact ⟨if_pos given, given⟩
  · rw [if_neg (not_not.2 none_), if_pos (by simpa [or_assoc] using big)]
    exact ⟨rfl, by decide⟩
  · rw [if_neg (not_not.2 none_), decide_eq_false (by omega), decide_eq_false (by omega), decide_eq_false (by omega), needs,
      noRap]
    exact ⟨rfl, by decide⟩

theorem decodeDone_drops {s : State} {c : Nat} {x : VidCtx} {e : Unit_} {b : Nat} {r : PicReport} {late : Bool} {reason : Nat}
    (hr : s.dropReason x r = reason) (drops : reason ≠ 0) : s.decodeDone c x e b r late = State.takeUnits
      (foldS (fun s v => s.dropPicture c reason v)
        ((s.modBuffer b fun y => { y with decoding := 0, pic := none }).modCtx c fun y => { y with needRap := true })
        (if reason = 6 then x.units.take r.units else [((x.units.take r.units).getLast?).getD e])) c r.units := by
  unfold State.dropReason at hr
  unfold State.decodeDone
  dsimp only
  rw [hr, if_pos drops]

/-! BUFFER_WAIT_TIMEOUT (R325) -/

section
variable {s u : State} {c : Fin 512} {ref : Bool} {t : Nat} {x : VidCtx}

theorem bufferWaitTimeout_none (hu : u = s.tick t) (ctx : u.vidCtx c.val = none) :
    exec (.bufferWaitTimeout c ref t) s = .next u := by
  show execBufferWaitTimeout c ref t s = _
  unfold execBufferWaitTimeout
  dsimp only
  rw [← hu, ctx]

theorem bufferWaitTimeout_idle (hu : u = s.tick t) (ctx : u.vidCtx c.val = some x) (idle : x.waitSince = none ∨ x.units = []) :
    exec (.bufferWaitTimeout c ref t) s = .next u := by
  show execBufferWaitTimeout c ref t s = _
  unfold execBufferWaitTimeout
  dsimp only
  rw [← hu, ctx]
  dsimp only
  rcases idle with e | e
  · rw [e]
  · rw [e]
    cases x.waitSince <;> rfl

/-- The state with the picture at a context's head dropped with NO_BUFFER (R325). -/
def State.headDropped (u : State) (c : Nat) (x : VidCtx) (e : Unit_) : State :=
  let v := u.putRecord c (vidRecord 3 0 1 0 e.pts 0 0 e.seq 0) 0
  if x.encodes then (v.dropHold e.place).modCtx c fun y => { y with units := y.units.drop 1 } else v.takeUnits c 1

theorem bufferWaitTimeout_next {t0 : Nat} {e : Unit_} {l : List Unit_} (hu : u = s.tick t) (ctx : u.vidCtx c.val = some x)
    (since : x.waitSince = some t0) (head : x.units = e :: l) :
    exec (.bufferWaitTimeout c ref t) s = .next (if u.now ≤ t0 + 1000000 * x.stallMs then u
      else (u.headDropped c.val x e).modCtx c.val fun y => { y with
        waitSince := none
        needRap := y.needRap || (ref && !y.encodes) }) := by
  show execBufferWaitTimeout c ref t s = _
  unfold execBufferWaitTimeout
  dsimp only
  rw [← hu, ctx]
  dsimp only
  rw [since, head]
  rfl

end

/-- Settles O60, event by event. -/
theorem picturesStartAndEnd : Obligations.PicturesStartAndEnd := by
  refine ⟨?_, ?_, ?_, ?_⟩
  · intro s u k f t p hu hp
    refine ⟨fun busy => pictureStart_busy hu hp busy, fun c x e need free rested owned head hneed => ?_⟩
    have need_ : need = x.bitsNeed := hneed
    subst need_
    rw [pictureStart_head hu hp free rested owned head]
    refine ⟨fun full => ?_, fun dpb records bits => ?_⟩
    · rw [if_neg fun room => ?_]
      obtain ⟨dpb, records, bits⟩ := ctxRoom_iff.1 room
      rcases full with full | full | ⟨encodes, full⟩
      · omega
      · omega
      · exact absurd (bits encodes) (by omega)
    · rw [if_pos (ctxRoom_iff.2 ⟨dpb, records, bits⟩)]
      refine ⟨fun none_ => by rw [pictureStarted_waits none_], fun b idle m cores load late v buffer hidle hm hcores hload hlate hv => ?_⟩
      have sharing : u.sharers p k.val x f = cores := (sharers_eq hidle hm).trans hcores.symm
      have lates : u.lateCores x cores = late := by rw [lateCores_eq, hlate, hload]
      rw [pictureStarted_buffer buffer, sharing, lates, hload, hv]
      rfl
  · intro s u k r t y hu hy
    refine ⟨fun without => ?_, fun none_ => watchdog_none hu hy none_, fun e x v w f cycles allowed unit ctx hv hw hf hcycles hallowed => ?_⟩
    · rw [pictureDone_next hu, pictureEnds_without hy without, ite_self]
    · have counted : cycles = x.cycles r := hcycles
      subst hf
      subst counted
      have allow : allowed = x.allowance r := hallowed
      subst allow
      subst hw
      have early := pictureEarly_next (r := r) hy ctx
      rw [pictureDone_next hu, watchdog_next hu hy ctx]
      refine ⟨fun whole fine before => ?_, fun z over_ hz => ?_, fun idle => by rw [if_pos idle], fun z busy late hz => ?_⟩
      · rw [early, whole, fine, decide_eq_true before, if_pos (by decide)]
      · rw [early, if_neg]
        · rw [pictureEnds_next hy unit ctx (hz.trans ?_)]
          rw [hv]
          rfl
        · rcases over_ with e | e | e
          · simp [e]
          · simp [e]
          · rw [decide_eq_false (by omega)]
            simp
      · rw [if_neg (by omega), pictureEnds_next hy unit ctx (hz.trans ?_)]
        rw [hv]
        rfl
  · intro s c x e b r late reason hreason units hunits
    obtain ⟨hr, drops⟩ := dropReason_of hreason
    subst hunits
    rw [decodeDone_drops hr drops]
    rfl
  · intro s u c ref t hu
    refine ⟨fun none_ => bufferWaitTimeout_none hu none_, fun x ctx => ⟨fun idle => bufferWaitTimeout_idle hu ctx idle,
      fun t0 e l v since head hv => ?_⟩⟩
    rw [bufferWaitTimeout_next hu ctx since head]
    refine ⟨fun early => by rw [if_pos early], fun late w hw => ?_⟩
    subst hv hw
    rw [if_neg (by omega)]
    rfl

end Sys2Proof.Machine

end

section
/-! SUPPORT. Hitches that work on strand scratch (R86, R88, R116 to R121, R127, R400). -/

namespace Sys2Proof.Machine

/-- A hitch that starts ends with what its body answers of the state that its start leaves. -/
theorem hitch_next {i : Instr} {s t v : State} {st op x d : Nat} {sub : HitchWord → Bool} {u : Upset} {r : Run}
    {rd : Run → State → List (Nat × Nat)} {f : Run → State → Nat × Nat × State}
    (hx : exec i s = .next (s.runHitch st op sub u rd f)) (h : s.starts st op sub u r t)
    (reads : ∀ x, rd r x = hitchReads op r x) (body : f r t = (x, d, v)) : exec i s = .next (v.finish r x d) := by
  rw [hx, runHitch_starts h f reads, body]

/-- The same, where the telltale of the hitch is not stated. -/
theorem hitch_ends {i : Instr} {s t v : State} {st op x : Nat} {sub : HitchWord → Bool} {u : Upset} {r : Run}
    {rd : Run → State → List (Nat × Nat)} {f : Run → State → Nat × Nat × State}
    (hx : exec i s = .next (s.runHitch st op sub u rd f)) (h : s.starts st op sub u r t)
    (reads : ∀ x, rd r x = hitchReads op r x) (body : ∃ d, f r t = (x, d, v)) : ∃ d, exec i s = .next (v.finish r x d) :=
  body.imp fun _ e => hitch_next hx h reads e

theorem residueUpset_none {s : State} {st : Nat} {u : Upset} (h : u.residue = false) : s.residueUpset st u = (stOk, s) := by
  unfold State.residueUpset
  rw [h, if_neg (by decide)]

theorem inScratch_of {a n : Nat} (h : a + n ≤ 0x200000) : inScratch a n = true := decide_eq_true h

/-- Lists of results by lane, where the rounding is to nearest (R31). -/
theorem zip_rne {n : Nat} (a : Nat → Nat) (f : Rnd → Nat → Nat × Nat) :
    (((upTo n).map fun _ => Rnd.rne).zip ((upTo n).map a)).map (fun p => f p.1 p.2) =
      (upTo n).map fun i => f .rne (a i) := by
  rw [zip_maps, List.map_map]
  rfl

/-! VLOAD and VSTORE (R119, R120) -/

theorem vload_next {s t : State} {st : Fin 128} {u : Upset} {r : Run} {f : Fmt} {a : Nat}
    (h : s.starts st.val 0x09 (fun _ => true) u r t) (sound : u.residue = false) (hf : vmemFmt (fld r.w 0x10 11 8) = some f)
    (ha : a = fld r.w 0x14 20 0) (fits : a + 32 * f.width ≤ 0x200000) :
    ∃ d, exec (.vload st u) s = .next ((t.setLanes r.st (fld r.w 0x10 4 0) ((upTo 256).map fun i =>
      widen f (elemAt f.width (t.peekLe (scratchBase r.st + a) (32 * f.width)) i))).finish r stOk d) := by
  refine hitch_ends rfl h (fun _ => rfl) ?_
  dsimp only
  rw [hf, ← ha, Option.getD_some, inScratch_of fits, if_neg (by decide), residueUpset_none sound, if_neg (not_not.2 rfl)]
  exact ⟨_, rfl⟩

theorem vstore_next {s t : State} {st : Fin 128} {u : Upset} {r : Run} {f : Fmt} {a : Nat} {es : List (Nat × Nat)}
    (h : s.starts st.val 0x0A (fun _ => true) u r t) (sound : u.residue = false) (hf : vmemFmt (fld r.w 0x10 11 8) = some f)
    (ha : a = fld r.w 0x14 20 0) (fits : a + 32 * f.width ≤ 0x200000) (nearest : hRound r.w = 0)
    (he : es = (upTo 256).map fun i => narrow f (hSat r.w) .rne (t.lane r.st (fld r.w 0x10 4 0) i)) :
    ∃ d, exec (.vstore st u) s = .next (((t.put (scratchBase r.st + a) (packElems f.width (es.map Prod.fst))).arith r.st
      (flagsOf es)).finish r stOk d) := by
  refine hitch_ends rfl h (fun _ => rfl) ?_
  dsimp only
  rw [hf, ← ha, Option.getD_some, inScratch_of fits, if_neg (by decide), residueUpset_none sound, if_neg (not_not.2 rfl)]
  dsimp only
  rw [rounding_rne nearest, usedRandom_rne nearest, State.lanes, zip_rne _ fun x v => narrow f (hSat r.w) x v, ← he]
  exact ⟨_, rfl⟩

/-! CONVERT (R121) -/

/-- The scales of an MX source row, one for each block of 32 (R26). -/
def State.blockScales (t : State) (r : Run) (b n : Nat) : List Nat :=
  (upTo (n / 32)).map fun k => t.peekLe (scratchBase r.st + (b + k)) 1

/-- Element i of a CONVERT to a plain format under nearest rounding, with its flags (R121). -/
def convertElem (w : HitchWord) (fs fd : Fmt) (scales : List Nat) (code i : Nat) : Nat × Nat :=
  fd.encode (hSat w && (flag w 0x24 4 || !(exactInto fs fd))) .rne
    (if flag w 0x24 4 then (fs.decode true code).scaled (scales.getD (i / 32) 0) else fs.decode false code)

theorem convertElems {w : HitchWord} {fs fd : Fmt} {n row : Nat} {scales : List Nat} :
    ((upTo n).map fun i => fd.encode (hSat w && (flag w 0x24 4 || !(exactInto fs fd)))
      (((upTo n).map fun _ => Rnd.rne).getD i .rne)
      (if flag w 0x24 4 then
          (fs.decode (flag w 0x24 4) (((upTo n).map fun i => elemAt fs.width row i).getD i 0)).scaled (scales.getD (i / 32) 0)
        else fs.decode (flag w 0x24 4) (((upTo n).map fun i => elemAt fs.width row i).getD i 0))) =
      (upTo n).map fun i => convertElem w fs fd scales (elemAt fs.width row i) i := by
  refine List.map_congr_left fun i hi => ?_
  have hi := mem_upTo.1 hi
  have code : ((upTo n).map fun i => elemAt fs.width row i).getD i 0 = elemAt fs.width row i := by
    simp [upTo, List.getElem?_range hi]
  have rnd : ((upTo n).map fun _ => Rnd.rne).getD i .rne = .rne := by
    simp [upTo]
  rw [code, rnd]
  unfold convertElem
  cases flag w 0x24 4 <;> rfl

theorem convert_next {s t : State} {st : Fin 128} {u : Upset} {r : Run} {fs fd : Fmt} {n a b c row : Nat}
    {es : List (Nat × Nat)} (h : s.starts st.val 0x0B (fun _ => true) u r t) (sound : u.residue = false)
    (nearest : hRound r.w = 0) (plain : flag r.w 0x24 12 = false) (hfs : convertSrc (fld r.w 0x24 3 0) (flag r.w 0x24 4) = some fs)
    (hfd : convertDst (fld r.w 0x24 11 8) false = some fd) (hn : n = fld r.w 0x20 20 0) (ha : a = fld r.w 0x10 20 0)
    (hb : b = fld r.w 0x14 20 0) (hc : c = fld r.w 0x18 20 0) (fitsA : a + packedBytes fs.width n ≤ 0x200000)
    (fitsC : c + packedBytes fd.width n ≤ 0x200000) (fitsB : flag r.w 0x24 4 = true → b + n / 32 ≤ 0x200000)
    (hrow : row = t.peekLe (scratchBase r.st + a) (packedBytes fs.width n))
    (he : es = (upTo n).map fun i =>
      convertElem r.w fs fd (t.blockScales r b n) (elemAt fs.width row i) i) :
    ∃ d, exec (.convert st u) s = .next (((t.put (scratchBase r.st + c) (packElems fd.width (es.map Prod.fst))).arith r.st
      (if flag r.w 0x24 4 && (t.blockScales r b n).contains 0xFF then
        orBits (flagsOf es) flagScale else flagsOf es)).finish r stOk d) := by
  have fits : (inScratch a (packedBytes fs.width n) && inScratch c (packedBytes fd.width n) &&
      (!(flag r.w 0x24 4) || inScratch b (n / 32)) && (!false || inScratch (fld r.w 0x1C 20 0) (n / 32))) = true := by
    rw [inScratch_of fitsA, inScratch_of fitsC]
    cases e : flag r.w 0x24 4
    · rfl
    · rw [inScratch_of (fitsB e)]
      rfl
  refine hitch_ends rfl h (fun _ => rfl) ?_
  unfold State.convertBody
  dsimp only
  rw [plain, hfs, hfd, ← hn, ← ha, ← hb, ← hc]
  dsimp only [Option.getD_some]
  rw [if_neg (by rw [fits]; decide), residueUpset_none sound]
  dsimp only
  rw [if_neg (not_not.2 rfl), rounding_rne nearest, usedRandom_rne nearest, if_neg (by decide)]
  simp only [place_scratch, valuesOf, ← hrow]
  rw [convertElems]
  unfold State.blockScales at he ⊢
  rw [← he, putAll_one]
  exact ⟨_, rfl⟩

/-! MOVE, TELLTALE and NOP (R116 to R118, R127, R400) -/

theorem move_next {s t : State} {st : Fin 128} {u : Upset} {r : Run} {sp dp a b n : Nat}
    (h : s.starts st.val 0x10 (fun _ => true) u r t) (hsp : sp = fld r.w 0x24 1 0) (hdp : dp = fld r.w 0x24 3 2) (h1 : sp ≤ 1)
    (h2 : dp ≤ 1) (ha : a = fld r.w 0x10 63 0) (hb : b = fld r.w 0x18 63 0) (hn : n = fld r.w 0x20 24 0)
    (fitsA : inSpace sp a n = true) (fitsB : inSpace dp b n = true) :
    ∃ d, exec (.move st u) s = .next ((t.put (r.place dp b) (t.peek (r.place sp a) n)).finish r stOk d) := by
  have sideA : t.moveSideOk r sp a n = true := by rw [State.moveSideOk, if_neg (by omega), fitsA]
  have sideB : t.moveSideOk r dp b n = true := by rw [State.moveSideOk, if_neg (by omega), fitsB]
  refine hitch_ends rfl h (fun _ => rfl) ?_
  unfold State.moveBody
  dsimp only
  rw [← hsp, ← hdp, ← ha, ← hb, ← hn, sideA, sideB, if_neg (by decide), if_neg (by omega : ¬sp = 2)]
  dsimp only
  rw [if_neg (not_not.2 rfl), if_neg (by omega)]
  exact ⟨_, rfl⟩

theorem telltale_next {s t v : State} {st : Fin 128} {u : Upset} {r : Run} {sp a pitch rows n entry : Nat}
    (h : s.starts st.val 0x38 (fun _ => true) u r t) (hsp : sp = fld r.w 0x10 23 23) (ha : a = fld r.w 0x10 22 0)
    (hp : pitch = 16 * fld r.w 0x14 15 0) (hr : rows = fld r.w 0x14 22 16 + 1) (hn : n = fld r.w 0x18 13 0)
    (he : entry = fld r.w 0x20 63 0) (fits : inSpace sp (rowsEnd a pitch rows n) 0 = true)
    (ok : t.pmaOk r.p entry 16 = true) (own : t.mirror r = false)
    (stored : t.storeP (some r.die) r.p entry (toLe 8 (crc64 (toLe 4 (fld r.w 0x1C 31 0) ++
      (upTo rows).flatMap fun i => t.peek (r.place sp (a + i * pitch)) n)) ++
      toLe 4 ((t.step r.p).counter % 2 ^ 32) ++ toLe 4 (fld r.w 0x1C 31 0)) u.mem = (stOk, v)) :
    ∃ d, exec (.telltale st u) s = .next (v.finish r stOk d) := by
  refine hitch_ends rfl h (fun _ => rfl) ?_
  unfold State.telltaleBody
  dsimp only
  rw [← hsp, ← ha, ← hp, ← hr, ← hn, ← he, fits, ok, if_neg (by decide), own, if_neg (by decide), stored]
  exact ⟨_, rfl⟩

theorem nop_next {s t v : State} {st : Fin 128} {r : Run} (h : s.issue st.val 0x00 (fun _ => true) = some (r, t))
    (hv : v = (t.modStrand st.val fun x => { x with queue := x.queue.filter fun e => e.id != r.e.id }).inc
      (Reg.strHitchDoneCount st.val)) :
    exec (.nop st) s =
      .next (((v.complete r.p r.g r.e.pos r.e.index st.val r.e.word stOk).markHead st.val).noteHeld r.p r.g) := by
  show execNop st s = _
  unfold execNop
  dsimp only
  rw [h]
  dsimp only
  rw [hv]

/-- Settles O15, hitch by hitch. -/
theorem scratchHitchesComplete : Obligations.ScratchHitchesComplete := by
  refine ⟨fun s t st u r f a h sound hf ha fits => vload_next h sound hf ha fits,
    fun s t st u r f a es h sound hf ha fits nearest he => vstore_next h sound hf ha fits nearest he, ?_,
    fun s t st u r sp dp a b n h hsp hdp h1 h2 ha hb hn fitsA fitsB => move_next h hsp hdp h1 h2 ha hb hn fitsA fitsB,
    fun s t v st u r sp a pitch rows n entry h hsp ha hp hr hn he fits ok own stored =>
      telltale_next h hsp ha hp hr hn he fits ok own stored, fun s t v st r h hv => nop_next h hv⟩
  intro s t st u r fs fd n a b c row es h sound nearest plain hfs hfd hn ha hb hc fitsA fitsC fitsB hrow he
  exact convert_next h sound nearest plain hfs hfd hn ha hb hc fitsA fitsC fitsB hrow he

end Sys2Proof.Machine

end

section
/-! SUPPORT. Hitches of the matrix array (R95, R99 to R107, R116). -/

namespace Sys2Proof.Machine

theorem operandFmt_plain {code : Nat} {f : Fmt} (h : operandFmt code false = some f) : Fmt.ofCode code = some f := by
  unfold operandFmt at h
  split at h
  · exact nomatch h
  · rename_i g e
    rw [if_neg (by decide)] at h
    split at h
    · rw [e, h]
    · exact nomatch h

theorem strand_of_strands {s t : State} (h : t.strands = s.strands) (i : Nat) : t.strand i = s.strand i := by
  unfold State.strand
  rw [h]

theorem macBusy_acc (s : State) (st cycles : Nat) : ((s.macBusy st cycles).strand st).acc = (s.strand st).acc := by
  unfold State.macBusy
  dsimp only
  rw [strand_of_strands (bump_strands _ _ _), strand_modStrand_self]

theorem setAcc_acc (s : State) (st : Nat) (a : Acc) : ((s.setAcc st a).strand st).acc = a := by
  unfold State.setAcc
  rw [strand_modStrand_self]

theorem strand_arith (s : State) (st f i : Nat) : (s.arith st f).strand i = s.strand i := strand_of_strands rfl i

/-- A MATMUL leaves in the array what its products make of the array before (R100). -/
theorem matmulStep_acc (s : State) (r : Run) (c : MatJob) : ((s.matmulStep r c).strand r.st).acc =
    { c.reduce s r (s.arrayBefore r c.clear) with kLen := s.stepsBefore r c.clear + c.k } := by
  unfold State.matmulStep
  dsimp only
  rw [macBusy_acc]
  split
  · rw [strand_arith, setAcc_acc]
  · rw [setAcc_acc]

/-- An array that starts from EMPTY and is struck by nothing passes its test (R104). -/
theorem matmulStep_passes {s : State} {r : Run} {c : MatJob} {u : Upset} (clear : c.clear = true) (intact : arrayIntact u) :
    (((s.matmulStep r c).strand r.st).acc.upset u).passes = true := by
  obtain ⟨_, flip, anchor, corner⟩ := intact
  have sound : ((s.matmulStep r c).strand r.st).acc.Sound := by
    rw [matmulStep_acc, State.arrayBefore, if_pos clear]
    exact sound_kLen (reduce_sound empty_sound c s r) _
  rw [sound_upset sound flip anchor corner]
  exact sound_passes sound

theorem accCheck_good {s : State} {st : Nat} {a : Acc} {u : Upset} (ecc : u.accBad = false) (passes : a.passes = true) :
    s.accCheck st a u = (stOk, s.accCounted st a u) := by
  unfold State.accCheck
  rw [ecc, if_neg (by decide)]
  dsimp only
  rw [if_pos passes]

/-- Where a MATMUL is in range, its body reads out or leaves the products in the array (R99, R102). -/
theorem matmulBody_runs {t : State} {r : Run} {u : Upset} {c : MatJob} (hc : c = MatJob.of r.w)
    (steps : t.stepsBefore r c.clear + c.k ≤ 1048576) (inRange : c.inRange = true) :
    t.matmulBody r u = if c.rd then (t.matmulStep r c).readoutWith r c.n (c.m * c.n) u fun a rs =>
        a.readout c.m c.n c.fo c.mxo (hSat r.w) rs (r.place 0 c.out) c.ostr (r.place 0 c.oscale) c.osst
      else (t.matmulStep r c).noReadout r u := by
  unfold State.matmulBody
  dsimp only
  rw [← hc, if_neg (by omega), inRange, if_neg (by decide)]

theorem noReadout_good {s v : State} {r : Run} {u : Upset} (ecc : u.accBad = false)
    (hv : v = s.bump (Reg.strAccEccCorrCount r.st) u.accCorr) :
    s.noReadout r u = (stOk, 0, v.setAcc r.st (((v.strand r.st).acc).upset u)) := by
  unfold State.noReadout
  dsimp only
  rw [ecc, if_neg (by decide), ← hv]

theorem readoutWith_good {v w : State} {r : Run} {u : Upset} {n count : Nat} {a : Acc} {x : List (Nat × List Byte) × Nat}
    {emit : Acc → List Rnd → List (Nat × List Byte) × Nat} (ha : a = ((v.strand r.st).acc).upset u) (ecc : u.accBad = false)
    (passes : a.passes = true) (hw : w = ((v.setAcc r.st a).noteLost r (a.lostOf n)).accCounted r.st a u)
    (hx : x = emit a (w.rounding r 0 count)) :
    v.readoutWith r n count u emit = (if a.lostOf n then stExactLost else stOk, writesDigest x.1,
      ((w.usedRandom r count).putAll x.1).arith r.st x.2) := by
  unfold State.readoutWith
  dsimp only
  rw [← ha, accCheck_good ecc passes, ← hw]
  dsimp only
  rw [if_neg (not_not.2 rfl), ← hx]

theorem matmul_noReadout {s t v : State} {st : Fin 128} {u : Upset} {r : Run} {c : MatJob}
    (h : s.starts st.val 0x01 (fun _ => true) u r t) (hc : c = MatJob.of r.w)
    (steps : t.stepsBefore r c.clear + c.k ≤ 1048576) (inRange : c.inRange = true) (none_ : c.rd = false)
    (ecc : u.accBad = false) (hv : v = (t.matmulStep r c).bump (Reg.strAccEccCorrCount r.st) u.accCorr) :
    exec (.matmul st u) s = .next ((v.setAcc r.st (((v.strand r.st).acc).upset u)).finish r stOk 0) := by
  refine hitch_next rfl h (fun _ => rfl) ?_
  rw [matmulBody_runs hc steps inRange, none_, if_neg (by decide), noReadout_good ecc hv]

theorem matmul_readout {s t v w : State} {st : Fin 128} {u : Upset} {r : Run} {c : MatJob} {a : Acc}
    {x : List (Nat × List Byte) × Nat} (h : s.starts st.val 0x01 (fun _ => true) u r t) (hc : c = MatJob.of r.w)
    (steps : t.stepsBefore r c.clear + c.k ≤ 1048576) (inRange : c.inRange = true) (reads : c.rd = true)
    (hv : v = t.matmulStep r c) (ha : a = ((v.strand r.st).acc).upset u)
    (good : c.clear = true ∧ arrayIntact u ∨ a.passes = true ∧ u.accBad = false)
    (hw : w = ((v.setAcc r.st a).noteLost r (a.lostOf c.n)).accCounted r.st a u)
    (hx : x = a.readout c.m c.n c.fo c.mxo (hSat r.w) (w.rounding r 0 (c.m * c.n)) (r.place 0 c.out) c.ostr
      (r.place 0 c.oscale) c.osst) :
    exec (.matmul st u) s = .next ((((w.usedRandom r (c.m * c.n)).putAll x.1).arith r.st x.2).finish r
      (if a.lostOf c.n then stExactLost else stOk) (writesDigest x.1)) := by
  have ok : a.passes = true ∧ u.accBad = false := by
    rcases good with ⟨clear, intact⟩ | good
    · rw [ha, hv]
      exact ⟨matmulStep_passes clear intact, intact.1⟩
    · exact good
  refine hitch_next rfl h (fun _ => rfl) ?_
  rw [matmulBody_runs hc steps inRange, reads, if_pos rfl, ← hv,
    readoutWith_good ha ok.2 ok.1 hw hx]

theorem accSave_next {s t v : State} {st : Fin 128} {u : Upset} {r : Run} {a : Acc}
    (h : s.starts st.val 0x02 (fun _ => true) u r t) (fits : fld r.w 0x10 31 0 + 229392 ≤ 0x200000)
    (ha : a = ((t.strand r.st).acc).upset u) (passes : a.passes = true) (ecc : u.accBad = false)
    (hv : v = ((t.setAcc r.st a).macBusy r.st 117).accCounted r.st a u) :
    exec (.accSave st u) s =
      .next ((v.put (scratchBase r.st + fld r.w 0x10 31 0) a.saveForm).finish r stOk (crc64 a.saveForm)) := by
  have body : t.accSaveBody r u = (stOk, crc64 a.saveForm, v.put (scratchBase r.st + fld r.w 0x10 31 0) a.saveForm) := by
    unfold State.accSaveBody
    dsimp only
    rw [show inScratch (fld r.w 0x10 31 0) saveBytes = true from inScratch_of fits, if_neg (by decide), ← ha,
      accCheck_good ecc passes, ← hv]
    dsimp only
    rw [if_neg (not_not.2 rfl), place_scratch]
  exact hitch_next rfl h (fun _ => rfl) body

theorem accRestore_next {s t : State} {st : Fin 128} {u : Upset} {r : Run} {a : Acc}
    (h : s.starts st.val 0x03 (fun _ => true) u r t) (fits : fld r.w 0x10 31 0 + 229392 ≤ 0x200000)
    (parses : parseSave (t.peek (scratchBase r.st + fld r.w 0x10 31 0) 229392) = some a)
    (passes : ({ a.upset u with nonFinite := [] } : Acc).passes = true) (ecc : u.accBad = false) :
    exec (.accRestore st u) s = .next ((((t.setAcc r.st (a.upset u)).macBusy r.st 117).accCounted r.st
      { a.upset u with nonFinite := [] } u).finish r stOk 0) := by
  have body : t.accRestoreBody r u = (stOk, 0, ((t.setAcc r.st (a.upset u)).macBusy r.st 117).accCounted r.st
      { a.upset u with nonFinite := [] } u) := by
    unfold State.accRestoreBody
    dsimp only
    rw [show inScratch (fld r.w 0x10 31 0) saveBytes = true from inScratch_of fits, if_neg (by decide), place_scratch,
      saveBytes, parses]
    dsimp only
    rw [accCheck_good ecc passes]
  exact hitch_next rfl h (fun _ => rfl) body

/-! The plain MATMUL with CLEAR, written out (R100) -/

/-- The numbers of an operand row of a plain format (R93, R99). -/
def State.plainRow (t : State) (place : Nat) (f : Fmt) (k : Nat) : List Num :=
  (upTo k).map fun c => f.decode false (elemAt f.width (t.peekLe place (packedBytes f.width k)) c)

/-- An operand row of a plain format has no scales (R93). -/
theorem operandRow_plain (t : State) (place scale : Nat) (f : Fmt) (k : Nat) :
    t.operandRow place scale f false k = t.plainRow place f k := by
  unfold State.operandRow
  dsimp only
  simp only [Bool.false_eq_true, if_false]
  rfl

/-- The rows of the two operands of a plain MATMUL (R99). -/
theorem reduce_plain {c : MatJob} {t : State} {r : Run} (a : Acc) (plainA : c.mxa = false) (plainB : c.mxb = false) :
    c.reduce t r a = foldS (fun (a : Acc) kk => a.stepK
      (((upTo c.m).map fun i => t.plainRow (r.place c.asp (c.aa + i * c.astr)) c.fa c.k).map fun x => x.getD kk Num.zero)
      (((upTo c.n).map fun j => t.plainRow (r.place 0 (c.bb + j * c.bstr)) c.fb c.k).map fun x => x.getD kk Num.zero))
      a (upTo c.k) := by
  have rowA : ∀ i, c.rowA t r i = t.plainRow (r.place c.asp (c.aa + i * c.astr)) c.fa c.k := fun i => by
    rw [MatJob.rowA, plainA, operandRow_plain]
  have rowB : ∀ j, c.rowB t r j = t.plainRow (r.place 0 (c.bb + j * c.bstr)) c.fb c.k := fun j => by
    rw [MatJob.rowB, plainB, operandRow_plain]
  unfold MatJob.reduce
  simp only [rowA, rowB]

/-- The step of a plain MATMUL with CLEAR and without readout (R100, R107). -/
theorem matmulStep_plain {c : MatJob} {t : State} {r : Run} {a : Acc} (plainA : c.mxa = false) (plainB : c.mxb = false)
    (clear : c.clear = true) (none_ : c.rd = false) (ha : a = c.reduce t r Acc.empty) :
    t.matmulStep r c = (t.setAcc r.st { a with kLen := c.k }).macBusy r.st
      ((if c.k = 0 then 0 else 8) + (c.k * laneQuarter c.fa c.fb false false + 3) / 4) := by
  have noNan : c.nanScale t r = false := by
    unfold MatJob.nanScale
    rw [plainA, plainB]
    rfl
  have fill : ∀ v : State, v.fillCycles r true c.k = if c.k = 0 then 0 else 8 := fun v => by
    unfold State.fillCycles
    exact if_congr (by simp) rfl rfl
  unfold State.matmulStep State.arrayBefore State.stepsBefore MatJob.cycles
  dsimp only
  rw [noNan, clear, if_pos rfl, if_pos rfl, ← ha, if_neg (by decide), fill, plainA, plainB, none_, if_neg Bool.false_ne_true, Nat.zero_add,
    Nat.add_zero]

/-- A plain MATMUL without readout is in range where its two operands are (R99). -/
theorem inRange_plain {c : MatJob} (plainA : c.mxa = false) (plainB : c.mxb = false) (none_ : c.rd = false)
    (fitsA : inSpace c.asp (rowsEnd c.aa c.astr c.m (packedBytes c.fa.width c.k)) 0 = true)
    (fitsB : inSpace 0 (rowsEnd c.bb c.bstr c.n (packedBytes c.fb.width c.k)) 0 = true) : c.inRange = true := by
  unfold MatJob.inRange
  rw [fitsA, fitsB, plainA, plainB, none_]
  rfl

/-- Settles O16, hitch by hitch. -/
theorem matrixHitchesComplete : Obligations.MatrixHitchesComplete := by
  refine ⟨fun s t v st u r c h hc steps inRange none_ ecc hv => matmul_noReadout h hc steps inRange none_ ecc hv, ?_,
    fun s t v w st u r c a x h hc steps inRange reads hv ha good hw hx =>
      matmul_readout h hc steps inRange reads hv ha good hw hx,
    fun s t v st u r a h fits ha passes ecc hv => accSave_next h fits ha passes ecc hv,
    fun s t st u r a h fits parses passes ecc => accRestore_next h fits parses passes ecc⟩
  intro s t v w st u r k m n fa fb rowsA rowsB a h none_ plainA plainB clear ecc hk few hm hn hfa hfb fitsA fitsB hA hB ha hv hw
  obtain ⟨c, hc⟩ : ∃ c, c = MatJob.of r.w := ⟨_, rfl⟩
  have mxa : c.mxa = false := by rw [hc]; exact plainA
  have mxb : c.mxb = false := by rw [hc]; exact plainB
  have rd : c.rd = false := by rw [hc]; exact none_
  have clr : c.clear = true := by rw [hc]; exact clear
  have ck : c.k = k := by rw [hc, hk]; rfl
  have cm : c.m = m := by rw [hc, hm]; rfl
  have cn : c.n = n := by rw [hc, hn]; rfl
  have cfa : c.fa = fa := by rw [hc, MatJob.of, operandFmt_plain hfa]; rfl
  have cfb : c.fb = fb := by rw [hc, MatJob.of, operandFmt_plain hfb]; rfl
  have addrA : c.asp = fld r.w 0x10 31 31 ∧ c.aa = fld r.w 0x10 22 0 ∧ c.astr = 16 * fld r.w 0x20 15 0 := by rw [hc]; exact ⟨rfl, rfl, rfl⟩
  have addrB : c.bb = fld r.w 0x18 20 0 ∧ c.bstr = 16 * fld r.w 0x20 31 16 := by rw [hc]; exact ⟨rfl, rfl⟩
  obtain ⟨asp, aa, astr⟩ := addrA
  obtain ⟨bb, bstr⟩ := addrB
  have steps : t.stepsBefore r c.clear + c.k ≤ 1048576 := by
    rw [State.stepsBefore, if_pos clr, ck]
    omega
  have inRange : c.inRange = true := inRange_plain mxa mxb rd (by rw [asp, aa, astr, cm, cfa, ck]; exact fitsA)
    (by rw [bb, bstr, cn, cfb, ck]; exact fitsB)
  have reduced : a = c.reduce t r Acc.empty := by
    rw [reduce_plain _ mxa mxb, asp, aa, astr, bb, bstr, cm, cn, cfa, cfb, ck, ha, hA, hB]
    rfl
  subst hw
  refine matmul_noReadout h hc steps inRange rd ecc ?_
  rw [hv, matmulStep_plain mxa mxb clr rd reduced, ck, cfa, cfb]

end Sys2Proof.Machine

end

section
/-! SUPPORT. Hitches of ATTN, CONV, POOL, CROP_RESIZE, TOPK, SCATTER_ADD, SEND and RETURN: the status that each ends with (R199,
R294, R303, R305, R333, R338, R349, R354). -/

namespace Sys2Proof.Machine

/-- The die of a hitch is one of the four. -/
theorem starts_die {s t : State} {st : Fin 128} {op : Nat} {sub : HitchWord → Bool} {u : Upset} {r : Run}
    (h : s.starts st.val op sub u r t) : r.die < 4 := by
  have := (starts_run h).1
  have := st.isLt
  unfold Run.die
  omega

/-- What a hitch that starts ends with, and what its body leaves unchanged: `P` is its condition and `Q` what it makes of the
status. -/
theorem hitch_framed {l : List Field} {P : Prop} {Q : Nat → Prop} {i : Instr} {s t : State} {st op : Nat} {sub : HitchWord → Bool}
    {u : Upset} {r : Run} {rd : Run → State → List (Nat × Nat)} {f : Run → State → Nat × Nat × State} {y : Nat × Nat × State}
    (hx : exec i s = .next (s.runHitch st op sub u rd f)) (h : s.starts st op sub u r t)
    (reads : ∀ x, rd r x = hitchReads op r x) (body : f r t = y) (keeps : Keeps true true (fun g => l.contains g) t y.2.2)
    (good : P → Q y.1) :
    ∃ x d v, y = (x, d, v) ∧ exec i s = .next (v.finish r x d) ∧ SameBut l t v ∧ (P → Q x) :=
  ⟨y.1, y.2.1, y.2.2, rfl, hitch_next hx h reads body, sameBut_of_keeps keeps, good⟩

/-! CONV and POOL (R338, R349) -/

theorem strand_cnvCount (s : State) (r : Run) (f : Nat → Nat → Nat) (n i : Nat) : (s.cnvCount r f n).strand i = s.strand i :=
  strand_of_strands rfl i

theorem strand_ite_arith (b : Bool) (s : State) (st f i : Nat) : (if b then s.arith st f else s).strand i = s.strand i := by
  cases b
  · rfl
  · exact strand_arith s st f i

/-- The array of a CONV with CLEAR is sound (R345). -/
theorem convStep_sound {s : State} {r : Run} {c : ConvJob} (clear : c.clear = true) :
    ((s.convStep r c).strand r.st).acc.Sound := by
  have reduced : ∀ v : State, (c.reduce v r Acc.empty).Sound := fun v =>
    sound_fold (fun _ _ h => sound_fold (fun _ _ h => sound_stepRows h _ _) h _) empty_sound _
  unfold State.convStep State.arrayBefore
  dsimp only
  rw [macBusy_acc, strand_cnvCount, strand_ite_arith, setAcc_acc, if_pos clear]
  exact sound_kLen (reduced _) _

theorem poolBody_good {t : State} {r : Run} {u : Upset} (inside : inScratch (fld r.w 0x1C 20 0) 64 = true)
    (fits : (t.poolJob r).status = stOk) (sound : u.residue = false) : (t.poolBody r u).1 = stOk := by
  unfold State.poolBody
  dsimp only
  rw [inside, if_neg (by decide), fits, if_neg (by decide), if_neg (by decide), if_neg (not_not.2 rfl), residueUpset_none sound]
  dsimp only
  rw [if_neg (not_not.2 rfl)]

theorem convBody_job {t : State} {r : Run} {u : Upset} {c : ConvJob} (hc : c = t.convJob r)
    (inside : inScratch (fld r.w 0x28 20 0) 64 = true) (fits : c.status (t.stepsBefore r c.clear) = stOk) :
    t.convBody r u = if c.rd then
        (t.convStep r c).readoutWith r c.n (c.th * c.tw * c.n) u fun a rs =>
          convEmit c.g c.px c.oy0 c.ox0 c.n c.fo c.mxo (hSat r.w) (r.place 0 c.out) (r.place 0 c.osc) a rs
      else (t.convStep r c).noReadout r u := by
  unfold State.convBody
  dsimp only
  rw [inside, if_neg (by decide), ← hc, fits, if_neg (by decide), if_neg (by decide), if_neg (not_not.2 rfl)]

theorem convBody_good {t : State} {r : Run} {u : Upset} {c : ConvJob} {a : Acc} (hc : c = t.convJob r)
    (ha : a = (((t.convStep r c).strand r.st).acc).upset u) (inside : inScratch (fld r.w 0x28 20 0) 64 = true)
    (fits : c.status (t.stepsBefore r c.clear) = stOk) (ecc : u.accBad = false)
    (good : c.rd = false ∨ c.clear = true ∧ arrayIntact u ∨ a.passes = true) :
    (t.convBody r u).1 = stOk ∨ c.rd = true ∧ (t.convBody r u).1 = stExactLost := by
  rw [convBody_job hc inside fits]
  cases reads : c.rd with
  | false =>
    rw [if_neg (by decide), noReadout_good ecc rfl]
    exact .inl rfl
  | true =>
    have passes : a.passes = true := by
      rcases good with no | ⟨clear, _, flip, anchor, corner⟩ | ok
      · rw [reads] at no
        exact nomatch no
      · rw [ha, sound_upset (convStep_sound clear) flip anchor corner]
        exact sound_passes (convStep_sound clear)
      · exact ok
    rw [if_pos rfl, readoutWith_good ha ecc passes rfl rfl]
    dsimp only
    split
    · exact .inr ⟨rfl, rfl⟩
    · exact .inl rfl

/-! TOPK and SCATTER_ADD (R294, R305) -/

theorem topkBody_good {t : State} {r : Run}
    (fitsA : inScratch (rowsEnd (fld r.w 0x10 20 0) (16 * fld r.w 0x20 15 0) (fld r.w 0x18 15 0) (4 * fld r.w 0x14 12 0)) 0 = true)
    (fitsB : inScratch (fld r.w 0x1C 20 0) (fld r.w 0x18 15 0 * (fld r.w 0x14 19 16 + 1) * 4) = true) : (t.topkBody r).1 = stOk := by
  unfold State.topkBody
  dsimp only
  rw [fitsA, fitsB, if_neg (by decide)]

/-- The rows of an exact SCATTER_ADD, where its buffer rows are Raw (R306). -/
theorem exactRow_some {t : State} {r : Run} {val buf k d i route : Nat} {f : Fmt}
    (raw : (rawRow (t.peek (r.place 0 (buf + 14 * i * d)) (14 * d)) d).isSome = true) :
    (t.exactRow r val buf k d i route f).isNone = false := by
  unfold State.exactRow
  obtain ⟨cols, e⟩ := Option.isSome_iff_exists.1 raw
  rw [e]
  rfl

theorem scatterBody_good {t : State} {r : Run} {n k d : Nat} {f : Fmt} (hn : n = fld r.w 0x28 15 0)
    (hk : k = fld r.w 0x28 19 16 + 1) (hd : d = fld r.w 0x24 11 0) (hf : f = (Fmt.ofCode (fld r.w 0x10 7 4)).getD .bf16)
    (values : inSpace (fld r.w 0x10 3 3) (fld r.w 0x14 22 0) (n * k * (d * f.width / 8)) = true)
    (route : inScratch (fld r.w 0x18 20 0) (4 * n * k) = true)
    (buffer : inScratch (fld r.w 0x1C 20 0) ((if fld r.w 0x10 1 0 = 0 then 14 else 4) * n * d) = true)
    (out : flag r.w 0x10 2 = true → inScratch (fld r.w 0x20 20 0)
      (n * packedBytes ((Fmt.ofCode (fld r.w 0x24 19 16)).getD .fp32).width d) = true)
    (raw : fld r.w 0x10 1 0 = 0 → ∀ i < n, (rawRow (t.peek (r.place 0 (fld r.w 0x1C 20 0 + 14 * i * d)) (14 * d)) d).isSome = true) :
    (t.scatterBody r).1 = stOk ∨ fld r.w 0x10 1 0 = 0 ∧ (t.scatterBody r).1 = stExactLost := by
  have outOk : (!(flag r.w 0x10 2) || inScratch (fld r.w 0x20 20 0)
      (n * packedBytes ((Fmt.ofCode (fld r.w 0x24 19 16)).getD .fp32).width d)) = true := by
    cases e : flag r.w 0x10 2
    · rfl
    · rw [out e]
      rfl
  subst hn hk hd hf
  unfold State.scatterBody
  extract_lets w exact final g val rt buf o e fo m j eb erows rrows cols lost s1 rs s2
  have inside : (inSpace (fld w 0x10 3 3) val (m * j * (e * g.width / 8)) && inScratch rt (4 * m * j) &&
      inScratch buf (eb * m * e) && (!final || inScratch o (m * packedBytes fo.width e))) = true := by
    have bytes : eb = if fld r.w 0x10 1 0 = 0 then 14 else 4 := if_congr beq_iff_eq rfl rfl
    simp only [Bool.and_eq_true]
    exact ⟨⟨⟨values, route⟩, by rw [bytes]; exact buffer⟩, outOk⟩
  have whole : (exact && erows.any Option.isNone) = false := by
    by_cases isExact : exact = true
    · refine Bool.and_eq_false_imp.2 fun _ => List.any_eq_false.2 fun x hx => ?_
      obtain ⟨i, hi, rfl⟩ := List.mem_map.1 hx
      have row : (t.exactRow r val buf j e i rt g).isNone = false :=
        exactRow_some (raw (beq_iff_eq.1 isExact) i (mem_upTo.1 hi))
      rw [row]
      decide
    · rw [Bool.eq_false_iff.2 isExact]
      rfl
  rw [if_neg (by rw [inside]; decide), if_neg (by rw [whole]; decide)]
  show (if lost then stExactLost else stOk) = stOk ∨ fld r.w 0x10 1 0 = 0 ∧ (if lost then stExactLost else stOk) = stExactLost
  by_cases loses : lost = true
  · refine .inr ⟨?_, if_pos loses⟩
    by_contra rounded
    have none_ : cols = [] := if_neg fun isExact => rounded (beq_iff_eq.1 isExact)
    have kept : (cols.any fun cs => cs.any fun c => c.lost) = true := loses
    rw [none_] at kept
    exact nomatch kept
  · exact .inl (if_neg loses)

/-- Settles O17, hitch by hitch. -/
theorem largeHitchesComplete : Obligations.LargeHitchesComplete := by
  refine ⟨?_, ?_, ?_, ?_, ?_, ?_, ?_, ?_, ?_⟩
  · intro s t st u r h
    obtain ⟨x, d, v, run, next, same, good⟩ := hitch_framed (l := .fresh :: hitchFields ++ readFields)
      (P := t.attnGood r false ∧ u = Upset.none) (Q := fun x => x = stOk ∨ x = stExactLost) (i := .forward st u) rfl h
      (fun _ => rfl) rfl (attnRun_keeps keeps_refl (within_own (by decide))) (by
        rintro ⟨fits, rfl⟩
        exact attn_runs ⟨fits.1, starts_die h⟩ fits)
    exact ⟨x, d, v, run, next, same, fun fits calm => good ⟨fits, calm⟩⟩
  · intro s t st u r h
    obtain ⟨x, d, v, run, next, same, good⟩ := hitch_framed (l := .fresh :: hitchFields ++ readFields)
      (P := t.attnGood r true ∧ u = Upset.none) (Q := fun x => x = stOk ∨ x = stExactLost) (i := .backward st u) rfl h
      (fun _ => rfl) rfl (attnRun_keeps keeps_refl (within_own (by decide))) (by
        rintro ⟨fits, rfl⟩
        exact attn_runs ⟨fits.1, starts_die h⟩ fits)
    exact ⟨x, d, v, run, next, same, fun fits calm => good ⟨fits, calm⟩⟩
  · intro s t st u r c a h hc ha
    obtain ⟨x, d, v, run, next, same, good⟩ := hitch_framed (l := [.fresh, .regs, .mem, .strands])
      (P := inScratch (fld r.w 0x28 20 0) 64 = true ∧ c.status (t.stepsBefore r c.clear) = stOk ∧ u.accBad = false ∧
        (c.rd = false ∨ c.clear = true ∧ arrayIntact u ∨ a.passes = true))
      (Q := fun x => x = stOk ∨ c.rd = true ∧ x = stExactLost) (i := .conv st u) rfl h (fun _ => rfl) rfl
      (convBody_keeps keeps_refl (within_own (by decide))) (by
        rintro ⟨inside, fits, ecc, ok⟩
        exact convBody_good hc ha inside fits ecc ok)
    exact ⟨x, d, v, run, next, same, fun inside fits ecc ok => good ⟨inside, fits, ecc, ok⟩⟩
  · intro s t st u r h
    obtain ⟨x, d, v, run, next, same, good⟩ := hitch_framed (l := [.fresh, .regs, .mem, .strands])
      (P := inScratch (fld r.w 0x1C 20 0) 64 = true ∧ (t.poolJob r).status = stOk ∧ u.residue = false)
      (Q := fun x => x = stOk) (i := .pool st u) rfl h (fun _ => rfl) rfl
      (poolBody_keeps keeps_refl (within_own (by decide))) (by
        rintro ⟨inside, fits, sound⟩
        exact poolBody_good inside fits sound)
    exact ⟨x, d, v, run, next, same, fun inside fits sound => good ⟨inside, fits, sound⟩⟩
  · intro s t st u r h
    obtain ⟨x, d, v, run, next, same, good⟩ := hitch_framed (l := .fresh :: .video :: hitchFields ++ readFields)
      (P := t.cropGood r ∧ u.mem = [] ∧ u.residue = false) (Q := fun x => x = stOk) (i := .cropResize st u) rfl h
      (fun _ => rfl) rfl (cropBody_keeps keeps_refl (within_own (by decide))) (by
        rintro ⟨fits, calm, sound⟩
        exact cropBody_runs (starts_die h) fits calm sound)
    exact ⟨x, d, v, run, next, same, fun fits calm sound => good ⟨fits, calm, sound⟩⟩
  · intro s t st u r h sound
    obtain ⟨x, d, v, run, next, same, good⟩ := hitch_framed (l := [.fresh, .regs, .mem, .strands])
      (P := inScratch (rowsEnd (fld r.w 0x10 20 0) (16 * fld r.w 0x20 15 0) (fld r.w 0x18 15 0) (4 * fld r.w 0x14 12 0)) 0 = true ∧
        inScratch (fld r.w 0x1C 20 0) (fld r.w 0x18 15 0 * (fld r.w 0x14 19 16 + 1) * 4) = true)
      (Q := fun x => x = stOk) (y := t.topkBody r) (i := .topk st u) rfl h (fun _ => rfl)
      (by dsimp only; rw [residueUpset_none sound, if_neg (not_not.2 rfl)])
      (topkBody_keeps keeps_refl (within_own (by decide))) (by
        rintro ⟨fitsA, fitsB⟩
        exact topkBody_good fitsA fitsB)
    exact ⟨x, d, v, run, next, same, fun fitsA fitsB => good ⟨fitsA, fitsB⟩⟩
  · intro s t st u r n k d f h sound hn hk hd hf
    refine ⟨(t.scatterBody r).1, (t.scatterBody r).2.1, (t.scatterBody r).2.2, rfl,
      hitch_next (i := .scatterAdd st u) rfl h (fun _ => rfl) (by dsimp only; rw [residueUpset_none sound, if_neg (not_not.2 rfl)]),
      sameBut_of_keeps (kc := true) (kn := true) (scatterBody_keeps keeps_refl (within_own (by decide))), ?_⟩
    exact fun values route buffer out raw => scatterBody_good hn hk hd hf values route buffer out raw
  · intro s t st u r h
    have sends : flag r.e.word 0x10 0 = false := by simpa using (starts_run h).2.2.1
    obtain ⟨x, d, v, run, next, same, good⟩ := hitch_framed (l := hitchFields ++ readFields ++ [.thermo])
      (P := t.sendGood r ∧ u.mem = []) (Q := fun x => x = stOk) (i := .send st u) rfl h
      (fun _ => (if_neg (by rw [Run.w, sends]; decide)).symm) rfl
      (sendBody_keeps keeps_refl (within_own (by decide))) (by
        rintro ⟨fits, calm⟩
        exact sendBody_runs (starts_die h) fits calm)
    exact ⟨x, d, v, run, next, same, fun fits calm => good ⟨fits, calm⟩⟩
  · intro s t st u r h
    have returns : flag r.w 0x10 0 = true := (starts_run h).2.2.1
    obtain ⟨x, d, v, run, next, same, good⟩ := hitch_framed (l := hitchFields ++ readFields)
      (P := t.returnGood r ∧ u.mem = []) (Q := fun x => x = stOk) (i := .ret ⟨st, u⟩) rfl h
      (fun _ => (if_pos returns).symm) rfl
      (returnBody_keeps keeps_refl (within_own (by decide))) (by
        rintro ⟨fits, calm⟩
        exact returnBody_runs (starts_die h) fits calm)
    exact ⟨x, d, v, run, next, same, fun fits calm => good ⟨fits, calm⟩⟩

end Sys2Proof.Machine

end

section
/-! SUPPORT. APPEND, ACCEPT, REEL_STAGE and the hitches that the control core itself executes: KV_WALK, LINK and STEP_END
(R234, R237, R274, R236, R142, R146). -/

namespace Sys2Proof.Machine

section
variable {s t v : State} {r : Run}

theorem appendBody_opened {c bytes n slot : Nat} {x : Chain} {rows : List Byte}
    (chains : fld r.w 0x10 21 0 < (t.part r.p).chainSize) (hc : c = (t.part r.p).chainBase + fld r.w 0x10 21 0) (hx : x = t.chain c)
    (hb : bytes = rowPitch (codeWidth x.fmt) (32 * (x.d32 + 1)) + scaleBytes x.mx (32 * (x.d32 + 1)))
    (hn : n = bightSlots (codeWidth x.fmt) x.mx (32 * (x.d32 + 1))) (key : fld r.w 0x18 20 0 + bytes ≤ 0x200000)
    (value : fld r.w 0x1C 20 0 + bytes ≤ 0x200000) (copy : t.mirror r = false) (opened : x.state = .opened)
    (next : fld r.w 0x14 20 0 = x.len + (t.entriesOf c).length) (room : (t.entriesOf c).length < 16)
    (free : t.freeGroup r.die r.p n = some slot)
    (hr : rows = t.peek (r.place 0 (fld r.w 0x18 20 0)) bytes ++ t.peek (r.place 0 (fld r.w 0x1C 20 0)) bytes)
    (hv : v = (t.poke (bightBase r.die + 256 * slot) (rows.take bytes)).poke (bightBase r.die + 256 * slot + 128 * n)
      (rows.drop bytes)) :
    t.appendBody r = (stOk, crc64 rows, { v with kv := { v.kv with
      bight := v.kv.bight ++ ([{ die := r.die, slot := slot, n := n, part := r.p, chain := c, position := fld r.w 0x14 20 0,
                                 state := .pending }] : List Bight) } }) := by
  unfold State.appendBody
  dsimp only
  rw [if_neg (Nat.not_le.2 chains), ← hc, ← hx, ← hb, ← hn, ← hr, inScratch_of key, inScratch_of value, if_neg (by decide),
    copy, if_neg Bool.false_ne_true, if_neg (by rw [opened, next]; simp), if_neg (Nat.not_le.2 room), free]
  dsimp only
  rw [← hv]

theorem stageRecords_length (pairs : List (Nat × Nat)) :
    (pairs.flatMap fun x => toLe 4 1 ++ toLe 4 x.1 ++ toLe 12 0 ++ toLe 4 x.2 ++ toLe 8 0).length = 32 * pairs.length := by
  induction pairs with
  | nil => rfl
  | cons x l ih =>
    rw [List.flatMap_cons, List.length_append, ih]
    simp only [List.length_append, toLe_length, List.length_cons]
    omega

theorem stageBody_stores {q n slot : Nat} {w : State} {e : BatchEntry} {es : List BatchEntry} {bs : List Byte}
    {pairs : List (Nat × Nat)} (die : r.die < 4) (seqs : fld r.w 0x10 17 0 < (t.part r.p).seqSize)
    (hq : q = (t.part r.p).seqBase + fld r.w 0x10 17 0) (hn : n = fld r.w 0x14 4 0)
    (fits : fld r.w 0x18 20 0 + 8 * n ≤ 0x200000) (copy : t.mirror r = false) (he : es = mgetD t.serve.batch r.p [])
    (found : es.find? (fun e => e.seq == q) = some e) (goes : e.stop = false) (slots : e.staged.length + n ≤ 16)
    (tokens : e.staged.length + n ≤ e.tokens) (hb : bs = t.peek (r.place 0 (fld r.w 0x18 20 0)) (8 * n))
    (hp : pairs = ((upTo n).map fun k => (leAt bs (8 * k) 4, leAt bs (8 * k + 4) 4)))
    (hs : slot = (es.findIdx fun e => e.seq == q) * 576 + 64 + 0x40 + 32 * e.staged.length)
    (good : t.memGood r.p) (ok : t.pmaOk r.p (nget t.serve.batchAt r.p + slot) (32 * n) = true)
    (hv : v = (t.storeP (some r.die) r.p (nget t.serve.batchAt r.p + slot)
      (pairs.flatMap fun x => toLe 4 1 ++ toLe 4 x.1 ++ toLe 12 0 ++ toLe 4 x.2 ++ toLe 8 0) []).2)
    (hw : w = v.modEntry r.p q (fun e => { e with staged := e.staged ++ pairs, stop := flag r.w 0x15 0 })) :
    t.stageBody r = (stOk, crc64 bs, { w with serve := { w.serve with
      staged := w.serve.staged + n, inStage := w.serve.inStage + n } }.bump (Reg.srvStagedCount r.die) n) := by
  have stored : (t.storeP (some r.die) r.p (nget t.serve.batchAt r.p + slot)
      (pairs.flatMap fun x => toLe 4 1 ++ toLe 4 x.1 ++ toLe 12 0 ++ toLe 4 x.2 ++ toLe 8 0) []).1 = stOk := by
    have size : pairs.length = n := by rw [hp]; simp [upTo]
    obtain ⟨_, e, -, -⟩ := storeP_good good (src := some r.die) (fun d hd => Option.some.inj hd ▸ die)
      (a := nget t.serve.batchAt r.p + slot) (by rw [stageRecords_length, size]; exact ok)
    rw [e]
  unfold State.stageBody
  dsimp only
  rw [← hn, ← hq, ← he, ← hb, inScratch_of fits, if_neg (by simpa using Nat.not_le.2 seqs), copy,
    if_neg Bool.false_ne_true, found]
  dsimp only
  rw [goes, if_neg Bool.false_ne_true, if_neg (by simp; omega), ← hp, ← hs, stored, if_neg (not_not.2 rfl), ← hv, ← hw]

end

/-- A control hitch that is ready belongs to a step that issues. -/
theorem controlReady_issuing {s : State} {p g pos : Nat} {w : HitchWord} {order : Bool}
    (ready : s.controlReady p g pos w order = true) : s.issuing p = true := by
  unfold State.controlReady at ready
  simp only [Bool.and_eq_true] at ready
  exact ready.1.1.1.1

/-- Settles O18: each hitch's own effect runs in the state of its start; the control core executes the other three at the
head of their position. -/
theorem servingAndControlHitchesComplete : Obligations.ServingAndControlHitchesComplete := by
  unfold Obligations.ServingAndControlHitchesComplete
  refine ⟨?_, ?_, ?_, ?_, ?_, ?_⟩
  · intro s t st u r c bytes n slot x rows h chains hc hx hb hn key value copy opened next room free hr
    have append : fld r.e.word 0x10 31 30 = 0 := by simpa using (starts_run h).2.2.1
    exact ⟨_, rfl, hitch_next (i := .append st u) rfl h (fun _ => (if_pos append).symm)
      (appendBody_opened chains hc hx hb hn key value copy opened next room free hr rfl)⟩
  · intro s t st r q h hq copy first enough
    have accept : fld r.e.word 0x10 31 30 = 1 := by simpa using (starts_run h).2.2.1
    refine hitch_next (i := .accept st) rfl h (fun _ => (if_neg (by rw [Run.w, accept]; decide)).symm) ?_
    dsimp only
    have none_short : ((if fld r.w 0x10 17 0 < (t.part r.p).seqSize then t.seqChains ((t.part r.p).seqBase + fld r.w 0x10 17 0)
        else []).any fun c => decide ((t.entriesIn c .pending).length < fld r.w 0x14 4 0)) = false := by
      split
      · next within => exact List.any_eq_false.2 fun c hc => by simpa using enough within c (hq ▸ hc)
      · rfl
    rw [copy, if_neg Bool.false_ne_true, first, none_short, if_neg (by decide)]
  · intro s t v w st u r q n slot e es bs pairs h seqs hq hn fits copy he found goes slots tokens hb hp hs good ok hv hw
    exact hitch_next (i := .reelStage st u) rfl h (fun _ => rfl)
      (stageBody_stores (starts_die h) seqs hq hn fits copy he found goes slots tokens hb hp hs good ok hv hw)
  · intro s t v g pos i p x w head part op form ready still ht run
    have moving : ((s.walk ((s.part p).chainBase + fld w 0x10 21 0)).any fun j => s.kv.moves.any fun m => m.source == j) = false :=
      List.any_eq_false.2 fun j hj => by simpa using fun m hm => still j hj m hm
    show execKvWalk g pos s = _
    unfold execKvWalk
    dsimp only
    rw [head, part]
    dsimp only
    rw [op, controlReady_issuing ready, if_neg (by decide), form, if_neg (not_not.2 rfl), moving, ready,
      if_neg (by decide), ← ht, run]
  · intro s g pos i p w head part op form ready target
    show execLink g pos s = _
    unfold execLink
    dsimp only
    rw [head, part]
    dsimp only
    rw [op, controlReady_issuing ready, if_neg (by decide), form, if_neg Bool.false_ne_true, ready, if_neg (by decide), target,
      if_neg (by decide)]
  · intro s g pos i p w head part op form ready
    show execStepEnd g pos s = _
    unfold execStepEnd
    dsimp only
    rw [head, part]
    dsimp only
    rw [op, controlReady_issuing ready, if_neg (by decide), form, if_neg Bool.false_ne_true, ready, if_neg (by decide)]

end Sys2Proof.Machine

end

section
/-! SUPPORT. A COLLECTIVE that issues and whose group is good starts in its engine (R321, R322, R325). -/

namespace Sys2Proof.Machine

theorem issue_st {s t : State} {st op : Nat} {sub : HitchWord → Bool} {r : Run}
    (h : s.issue st op sub = some (r, t)) : r.st = st := by
  unfold State.issue at h
  split at h
  · dsimp only at h
    split at h
    · cases h
      rfl
    · exact nomatch h
  · exact nomatch h

/-- The ranges of a collective are checked against the granules of its partition. -/
theorem collRanges_calm {s t : State} (h : Calm s t) (c : Coll) : t.collRanges c = s.collRanges c := by
  unfold State.collRanges
  simp only [h.pmaOk]

/-- What the step of a partition notes when a collective starts: its number and the peers that its group names. -/
def StepRec.enter (c : Coll) (d : Nat) (x : StepRec) : StepRec :=
  let peers := ((upTo c.n).zip c.members).map fun m =>
    ({ modNum := m.2.1, part := m.2.2.1, die := m.2.2.2.1, role := m.2.2.2.2.1, epoch := m.2.2.2.2.2, tag := c.tag,
       index := c.self_, n := c.n } : Peer)
  { x with collective := true, collIds := (4 * c.id + d) :: x.collIds,
           groups := x.groups ++ peers.filter fun q => !(x.groups.contains q) }

/-- Where a collective has been entered in its engine and its step, before it sends anything. -/
def State.collEntered (s : State) (r : Run) (c : Coll) : State :=
  ((s.modStep r.p (StepRec.enter c r.die)).running r).modEngine r.die fun e => { e with colls := e.colls ++ [c] }

/-- What a collective that has been entered sends first: its keys where it is exact, its first messages else. -/
def State.collOpens (s : State) (r : Run) (c : Coll) (errs : List (Nat × ReadErr)) : State :=
  if c.exact then
    match (s.allKeys c errs).1 with
    | none => (s.allKeys c errs).2.endColl r.die r.p c.id stMalformed
    | some ks => (s.allKeys c errs).2.sendKeys c ks
  else foldS (fun s j => s.collSend c j 1 0 0 false []) s c.others

theorem startColl_eq (s : State) (r : Run) (c : Coll) (errs : List (Nat × ReadErr)) :
    s.startColl r c errs = ((s.collEntered r c).collOpens r c errs).advanceColl r.die r.p c.id := by
  unfold State.startColl
  dsimp only
  rfl

theorem running_same (s : State) (r : Run) : SameBut [.strands] s (s.running r) :=
  sameBut_of_keeps (kc := true) (kn := true) (running_keeps keeps_refl (within_own (by decide)))

theorem collEntered_colls (s : State) (r : Run) (c : Coll) :
    ((s.collEntered r c).engine r.die).colls = (s.engine r.die).colls ++ [c] := by
  have kept : ((s.modStep r.p (StepRec.enter c r.die)).running r).engine r.die = s.engine r.die := by
    unfold State.engine
    rw [(running_same _ r).2 .dispatch (by decide)]
    rfl
  unfold State.collEntered
  rw [engine_modEngine, if_pos rfl]
  dsimp only
  rw [kept]

theorem collEntered_ids (s : State) (r : Run) (c : Coll) :
    ((s.collEntered r c).step r.p).collIds = (4 * c.id + r.die) :: (s.step r.p).collIds := by
  have kept : (s.collEntered r c).step r.p = (s.modStep r.p (StepRec.enter c r.die)).step r.p := by
    show (((s.modStep r.p (StepRec.enter c r.die)).running r).part r.p).step = _
    unfold State.part
    rw [(running_same _ r).2 .parts (by decide)]
    rfl
  rw [kept, step_modStep_self]
  rfl

/-- The collective of a hitch whose group reads as g (its number of members, this module's place and the tag) and ms. -/
def State.collHeard (s : State) (st : Nat) (r : Run) (g : Nat × Nat × Nat) (ms : List (Nat × Nat × Nat × Nat × Nat)) : Coll :=
  { strand := st, id := Machine.fld r.w 0x14 31 0, part := r.p, hank := r.g, pos := r.e.pos, index := r.e.index, word := r.w,
    step := (s.step r.p).counter, run := (s.step r.p).run, tag := g.2.2, self_ := g.2.1, members := ms, issuedAt := s.now,
    first := [], keys := [], anchors := [], accepted := [], lost := [], results := [], dones := [], sentTo := [], doneTo := [],
    reduced := false, moved := [] }

/-- Once its group is read, a collective starts where this module is the member that the group says and the ranges lie in their
spaces. -/
def State.collJoins (s : State) (r : Run) (errs : List (Nat × ReadErr)) (c : Coll) : State :=
  let m := c.members.getD c.self_ (0, 0, 0, 0, 0)
  if !(m.1 == s.self && m.2.1 == r.p && m.2.2.1 == r.die) then s.finish r stGroupInvalid 0
  else if !(s.collRanges c) then s.finish r stAddrInvalid 0
  else s.startColl r c errs

section
variable {s t v : State} {st : Fin 128} {op : Nat} {u : Upset} {r : Run} {c : Coll}

theorem issueColl_joins {g : Nat × Nat × Nat} {ms : List (Nat × Nat × Nat × Nat × Nat)}
    (room : (s.engine (st.val / 32)).colls.length < 16) (issued : s.issue st.val 0x29 (fun w => collOp w == op) = some (r, t))
    (keyed : t.keyless r.p = false) (copy : t.mirror r = false) (ecc : u.eccBad = false)
    (number : fld r.w 0x10 21 16 < t.colForce r.p 1)
    (fresh : (t.step r.p).collIds.contains (4 * fld r.w 0x14 31 0 + r.die) = false)
    (read : t.group r.die r.p (fld r.w 0x10 21 16) u.mem = (stOk, g, ms, v)) :
    s.issueColl st.val op u = v.collJoins r u.mem (v.collHeard st.val r g ms) := by
  unfold State.issueColl
  rw [if_neg (Nat.not_le.2 room), issued]
  dsimp only
  rw [keyed, if_neg Bool.false_ne_true, copy, if_neg Bool.false_ne_true, ecc, if_neg Bool.false_ne_true, fresh,
    if_neg (by simpa using number), read, if_neg (not_not.2 rfl)]
  rfl

theorem memberOf_getD (l : List (List Byte)) (k : Nat) : (l.map memberOf).getD k (0, 0, 0, 0, 0) = memberOf (l.getD k []) := by
  rw [show ((0, 0, 0, 0, 0) : Nat × Nat × Nat × Nat × Nat) = memberOf [] by decide, List.getD_map]

theorem collHeard_calm (same : ∀ f, f ∉ lineFields → Same f t v) :
    v.collHeard st.val r (leAt (t.groupEntry r) 0 2 % 512, leAt (t.groupEntry r) 2 1, leAt (t.groupEntry r) 4 4)
      ((t.groupMembers r).map memberOf) = t.collOf st.val r := by
  have steps : v.step r.p = t.step r.p := by unfold State.step State.part; rw [same .parts (by decide)]
  have now : v.now = t.now := same .now (by decide)
  unfold State.collHeard State.collOf
  rw [steps, now]

/-- A collective whose group is good and whose ranges lie in their spaces starts. -/
theorem collJoins_starts (good : t.groupGood r) (calm : Calm t v) (self : v.self = t.self)
    (ranges : t.collRanges (t.collOf st.val r) = true) :
    v.collJoins r [] (t.collOf st.val r) = v.startColl r (t.collOf st.val r) [] := by
  have fits : v.collRanges (t.collOf st.val r) = true := (collRanges_calm calm _).trans ranges
  obtain ⟨-, -, -, -, -, -, -, -, -, -, -, own, part, here⟩ := good
  have member : (t.collOf st.val r).members.getD (t.collOf st.val r).self_ (0, 0, 0, 0, 0) =
      memberOf ((t.groupMembers r).getD (leAt (t.groupEntry r) 2 1) []) := memberOf_getD _ _
  unfold State.collJoins
  dsimp only
  rw [member, own, part, here, self, fits, if_neg (by simp), if_neg (by decide)]

/-- A COLLECTIVE of a good group reads it and starts. -/
theorem issueColl_starts (room : (s.engine (st.val / 32)).colls.length < 16)
    (issued : s.issue st.val 0x29 (fun w => collOp w == op) = some (r, t)) (keyed : t.keyless r.p = false)
    (copy : t.mirror r = false) (ecc : u.eccBad = false) (mem : u.mem = []) (number : fld r.w 0x10 21 16 < t.colForce r.p 1)
    (fresh : (t.step r.p).collIds.contains (4 * fld r.w 0x14 31 0 + r.die) = false) (good : t.groupGood r)
    (hc : c = t.collOf st.val r) (ranges : t.collRanges c = true) :
    ∃ v : State, SameBut [.regs, .units, .ctls] t v ∧ v.self = t.self ∧ s.issueColl st.val op u = v.startColl r c [] := by
  have die : r.die < 4 := by
    have := issue_st issued
    have := st.isLt
    unfold Run.die
    omega
  obtain ⟨v, read, calm, self, same⟩ := group_runs die good
  have queue : v.pending = t.pending := by
    have kept : SameBut (hitchFields ++ readFields) t (t.group r.die r.p (fld r.w 0x10 21 16) []).2.2.2 :=
      sameBut_of_keeps (kc := true) (kn := true) (group_keeps keeps_refl (within_own (by decide)))
    rw [read] at kept
    exact kept.1
  rw [← mem] at read
  refine ⟨v, ⟨queue, same⟩, self, ?_⟩
  rw [issueColl_joins room issued keyed copy ecc number fresh read, mem, collHeard_calm same, ← hc]
  rw [hc] at ranges ⊢
  exact collJoins_starts good calm self ranges

end

/-- Settles O19: the four operations differ in the number that the hitch must carry. -/
theorem collectivesStart : Obligations.CollectivesStart := by
  unfold Obligations.CollectivesStart
  intro e he s t st u r c room issued keyed copy ecc mem number fresh good hc ranges
  obtain ⟨v, same, self, run⟩ := issueColl_starts room issued keyed copy ecc mem number fresh good hc ranges
  have runs : exec (e.1 ⟨st, u⟩) s = .next (s.issueColl st.val e.2 u) := by
    simp only [List.mem_cons, List.not_mem_nil, or_false] at he
    rcases he with rfl | rfl | rfl | rfl
    · rfl
    · rfl
    · rfl
    · rfl
  have steps : v.step r.p = t.step r.p := by unfold State.step State.part; rw [same.2 .parts (by decide)]
  refine ⟨v, v.collEntered r c, (v.collEntered r c).collOpens r c [], same, self, by rw [runs, run, startColl_eq],
    collEntered_colls v r c, by rw [collEntered_ids, steps], fun rounded => ?_, fun ks exact keys => ?_⟩
  · unfold State.collOpens
    rw [if_neg (by rw [rounded]; decide)]
  · unfold State.collOpens
    rw [if_pos exact, keys]

end Sys2Proof.Machine

end

section
/-! SUPPORT. The control cores: what each fetch takes, the hitch emitted in turn, and the position that a place takes next (R107,
R108, R129, R148). -/

namespace Sys2Proof.Machine

section
variable {u v : State} {p g q : Nat} {e : ReadErr} {bs : List Byte}

theorem takeDescriptor_good
    (read : u.fetchP (some (dieOf g)) p (u.hank g).progAct 128 (u.errAt p (u.hank g).progAct e) = (stOk, bs, v))
    (flags : leAt bs 0x48 4 ≤ 1) (reserved : ∀ b ∈ bs.drop 0x4C, b = 0) (aligned : leAt bs 0x40 8 % 8 = 0)
    (seeds : v.pmaOk p (leAt bs 0x40 8) 2048 = true) :
    u.takeDescriptor p g e = ((v.modHank g fun h =>
      { h with descRead := true, scratchLive := leAt bs 0x48 4 == 1, seedAddr := leAt bs 0x40 8 }).mapPositions p).takeHeads p g bs := by
  have zero : (bs.drop 0x4C).any (fun b => b != 0) = false := List.any_eq_false.2 fun b hb => by simpa using reserved b hb
  unfold State.takeDescriptor
  dsimp only
  rw [read, if_neg (not_not.2 rfl), zero, if_neg (by simp; omega), seeds, if_neg (by decide)]

theorem takeSeeds_good
    (read : u.fetchP (some (dieOf g)) p (u.hank g).seedAddr 2048 (u.errAt p (u.hank g).seedAddr e) = (stOk, bs, v)) :
    u.takeSeeds p g e = v.modHank g fun h =>
      { h with seedsRead := true, seeds := (upTo 256).map fun i => leAt bs (8 * i) 8 } := by
  unfold State.takeSeeds
  dsimp only
  rw [read, if_neg (not_not.2 rfl)]

/-- A hitch read well joins those prefetched where fixed mode does not refuse it for VARY (R142). -/
theorem takeHitch_joins {x : Pos} {w : HitchWord} (hx : x = u.pos g q)
    (read : u.fetchP (some (dieOf g)) p x.next 64 (u.errAt p x.next e) = (stOk, bs, v)) (hw : w = hitchOf bs)
    (taken : ((u.step p).fixed && hVary w) = false) :
    u.takeHitch p g q e = v.modPos g q fun y =>
      { y with fetched := y.fetched ++ [(x.index, w)], next := x.next + 64, index := x.index + 1,
               ended := hOpcode w == 0x3D || hOpcode w == 0x3C || x.index == lastIndex } := by
  unfold State.takeHitch
  dsimp only
  rw [← hx, read, if_neg (not_not.2 rfl), ← hw, taken, if_neg Bool.false_ne_true]
  rfl

theorem takeHitch_refuses {x : Pos} {w : HitchWord} {y : State} (hx : x = u.pos g q)
    (read : u.fetchP (some (dieOf g)) p x.next 64 (u.errAt p x.next e) = (stOk, bs, v)) (hw : w = hitchOf bs)
    (refused : ((u.step p).fixed && hVary w) = true)
    (hy : y = v.modPos g q fun y =>
      { y with next := x.next + 64, index := x.index + 1, ended := hOpcode w == 0x3D || hOpcode w == 0x3C || x.index == lastIndex }) :
    u.takeHitch p g q e =
      (y.inc (Reg.hnkVaryRefusedCount g)).complete p g q x.index (y.strandFor g q) w stVaryRefused := by
  rw [hy]
  unfold State.takeHitch
  dsimp only
  rw [← hx, read, if_neg (not_not.2 rfl), ← hw, refused, if_pos rfl]
  rfl

end

/-- What a fetch of a running step does, by what it reads. -/
theorem hitchFetch_issuing {s u : State} {g : Fin 16} {t p : Nat} (hu : u = s.tick t) (part : u.partOf g.val = some p)
    (issuing : u.issuing p = true) (what : Fetch) :
    exec (.hitchFetch g what t) s = .next (
      match what with
      | .descriptor e => if (u.hank g.val).descRead then u else (u.takeDescriptor p g.val e).checkReady p
      | .seedTable e =>
        if !(u.hank g.val).descRead || (u.hank g.val).seedsRead then u else (u.takeSeeds p g.val e).checkReady p
      | .hitch q e =>
        if !(u.hank g.val).descRead || (u.pos g.val q.val).ended || 32 ≤ (u.pos g.val q.val).fetched.length then u
        else (u.takeHitch p g.val q.val e).noteBack p g.val
      | .spoiled q =>
        match u.headHitch g.val q.val with
        | some (i, _) => ((u.popHitch g.val q.val).raise p g.val q.val i none stScratchEcc).noteBack p g.val
        | none => u) := by
  show execHitchFetch g what t s = _
  unfold execHitchFetch
  dsimp only
  rw [← hu, part]
  dsimp only
  rw [issuing, if_neg (by decide)] <;> rfl

/-- Settles O38, by what the control core does. -/
theorem controlCoresFetchEmitAndSwitch : Obligations.ControlCoresFetchEmitAndSwitch := by
  unfold Obligations.ControlCoresFetchEmitAndSwitch
  refine ⟨?_, ?_, ?_, ?_, ?_, ?_, ?_⟩
  · intro s u a b c d p t hu may starts ha hb hc hd
    have go : ((u.step p.val).trigger || (u.step p.val).mode == 2 || ((u.step p.val).mode == 1 && (u.step p.val).go)) = true := by
      simpa [or_assoc] using starts
    show execStepStart p t s = _
    unfold execStepStart
    dsimp only
    rw [← hu, may, go, if_neg (by decide), ← ha, ← hb, ← hc, ← hd]
  · intro s u v w g t p e bs hu part issuing unread read flags reserved aligned seeds hw
    rw [hitchFetch_issuing hu part issuing]
    dsimp only
    rw [unread, if_neg Bool.false_ne_true, takeDescriptor_good read flags reserved aligned seeds, ← hw]
  · intro s u v g t p e bs hu part issuing desc unread read
    rw [hitchFetch_issuing hu part issuing]
    dsimp only
    rw [desc, unread, if_neg (by decide), takeSeeds_good read]
  · intro s u v g q t p e bs x w hu part issuing desc hx continues room read hw
    have fetch : exec (.hitchFetch g (.hitch q e) t) s = .next ((u.takeHitch p g.val q.val e).noteBack p g.val) := by
      rw [hitchFetch_issuing hu part issuing]
      dsimp only
      rw [desc, ← hx, continues, if_neg (by simpa using room)]
    refine ⟨fun taken => ?_, fun fixed vary => ⟨_, rfl, ?_⟩⟩
    · rw [fetch, takeHitch_joins hx read hw (by rcases taken with f | f <;> simp [f])]
    · rw [fetch, takeHitch_refuses hx read hw (by rw [fixed, vary]; rfl) rfl]
  · intro s u g q t p i w hu part issuing head
    rw [hitchFetch_issuing hu part issuing]
    dsimp only
    rw [head]
  · intro s u g q t p i st w hu head part hs turn
    show execHitchEmit g q t s = _
    unfold execHitchEmit
    dsimp only
    rw [← hu, head, part]
    dsimp only
    rw [turn, if_neg (by decide), ← hs]
    cases u.rampReady g.val w
    · rfl
    · rfl
  · intro s u g place save restore t p cur q others hu part hc within issuing descs drained halted ho next
    show execPositionSwitch g ⟨place, save, restore⟩ t s = _
    unfold execPositionSwitch
    dsimp only
    rw [← hu, part]
    dsimp only
    rw [← hc, ← ho]
    have leaves : ¬(8 ≤ cur ∨ u.issuing p = false ∨ (u.strand (8 * g.val + place.val)).queue.all QEntry.unissued = false ∨
        u.posHalted p g.val cur = false ∨ u.descsRead p = false) := by
      simp [issuing, descs, drained, halted, within]
    rcases next with runs | ⟨blocked, finished, first⟩
    · rw [runs]
      dsimp only
      rw [if_neg leaves]
    · rw [blocked]
      dsimp only
      rw [if_pos finished, first]
      dsimp only
      rw [if_neg leaves]

end Sys2Proof.Machine

end
